-- ==== Sys2Proof/Word.lean ====
section
/-!
DEFINITION. Sys2Proof/Word.lean: the words of the part and the shapes shared by every block: a register is 32 bits
(R7, R472), a byte is 8, a register field is a run of bits of one register, and a sparse table is a list of
index and value pairs.
-/
namespace Sys2Proof

/-- A register, and every 32-bit value of a frame or a table entry. -/
abbrev Word := BitVec 32

/-- A byte of a frame, a table entry or a record (R5). -/
abbrev Byte := BitVec 8

/-- A sparse table: index and value pairs, indices strictly rising; an index that is not listed has the table's default. -/
abbrev Sparse (α : Type) := List (Nat × α)

namespace Machine

/-- Bits `hi` down to `lo` of the register at index `reg`. -/
structure Field where
  reg : Nat
  hi : Nat
  lo : Nat
  deriving DecidableEq, Repr

/-- The width of a field in bits. -/
abbrev Field.width (f : Field) : Nat := f.hi - f.lo + 1

/-- One row of chapter 19: a register array of `n1 × n2` instances at `base + s1·i + s2·k`, its reset value (R473) and
the masks of its bits by access code (R7); bits in no mask are RO or reserved. -/
structure RegRow where
  base : Nat
  n1 : Nat
  s1 : Nat
  n2 : Nat
  s2 : Nat
  reset : Word
  rw : Word
  w1c : Word
  w1s : Word
  rc : Word
  wo : Word
  deriving DecidableEq, Repr

end Machine
end Sys2Proof
end

