-- ==== Sys2Proof/Machine/StateDp.lean ====
section
/-!
DEFINITION. Sys2Proof/Machine/StateDp.lean: the state of the actuation chain that no register or table holds: the Ladle
(chapter 3), the map store (chapter 4), actuator timing (chapter 5), the local drivers (chapter 6) and the rings
(chapter 7). An instant is a number of 5 ns slots since reset, 50,000 to a step (R3, R19).
-/
namespace Sys2Proof.Machine

/-! ### The Ladle -/

/-- What an event asks for: words 0 to 3 of its slot (R75, R76). -/
structure EvDesc where
  /-- 0 ON, 1 OFF, 2 RATE, 3 PULSE. -/
  action : Nat
  /-- 0 map, 1 host, 2 inverse. -/
  origin : Nat
  ch : Nat
  host : Nat
  rev : Bool
  retain : Bool
  tag : Nat
  tgt : Int
  punit : Bool
  param : Nat
  deriving DecidableEq, Repr

def EvDesc.zero : EvDesc :=
  { action := 0, origin := 0, ch := 0, host := 0, rev := false, retain := false, tag := 0, tgt := 0, punit := false, param := 0 }

/-- The flags of words 0 and 2 (R76). -/
structure EvFlags where
  lateF : Bool
  spec : Bool
  defer : Bool
  phase : Bool
  noconf : Bool
  blocked : Bool
  horizon : Bool
  held : Bool
  cxl : Bool
  exec : Bool
  deriving DecidableEq, Repr

def EvFlags.zero : EvFlags :=
  { lateF := false, spec := false, defer := false, phase := false, noconf := false, blocked := false, horizon := false,
    held := false, cxl := false, exec := false }

/-- What hand-over and confirmation record: words 5 to 13 (R76). -/
structure EvUse where
  fireStep : Word
  fireOfs : Nat
  dUsed : Nat
  dAct : Nat
  dDefer : Nat
  dFluid : Nat
  dLink : Nat
  err : Int
  merr : Int
  unwant : Nat
  measDly : Nat
  deriving DecidableEq, Repr

def EvUse.zero : EvUse :=
  { fireStep := 0, fireOfs := 0, dUsed := 0, dAct := 0, dDefer := 0, dFluid := 0, dLink := 0, err := 0, merr := 0, unwant := 0,
    measDly := 0 }

/-- What SCH keeps of a slot beside its words. -/
structure EvTrace where
  /-- Instant of the edge last handed over: at the pin, or t_x. -/
  fireAt : Nat
  /-- Acting instant of a PULSE's leading edge (R75). -/
  leadAct : Nat
  /-- Acting instant placed for a time-length trailing edge (R75, R87). -/
  trailAct : Nat
  /-- Measured motions of the leading and the trailing edge. -/
  leadM : Option Nat
  trailM : Option Nat
  /-- Coordinates at step boundaries while ISSUED, newest first: boundary number and 2^−24 × 0.25 mm (R87). -/
  path : List (Nat × Int)
  /-- Step in which the slot became terminal (R82). -/
  endStep : Nat
  /-- The cancel in progress is a withdrawal by retiming (R104). -/
  retime : Bool
  /-- The trailing edge of a PULSE has been handed over: PHASE has ended (R76). -/
  trailed : Bool
  /-- The channel was ON before this edge (R102). -/
  wasOn : Bool
  /-- The host ON was suppressed for exclusion (R98). -/
  exclOff : Bool
  /-- The state that the slot takes at the next boundary: CANCELLED or PENDING (R103, R104). -/
  next : Option Nat
  deriving DecidableEq, Repr

def EvTrace.zero : EvTrace :=
  { fireAt := 0, leadAct := 0, trailAct := 0, leadM := none, trailM := none, path := [], endStep := 0, retime := false,
    trailed := false, wasOn := false, exclOff := false, next := none }

/-- A slot of the Ladle. -/
structure EvSlot where
  /-- State code of R80. -/
  state : Nat
  gen : Nat
  d : EvDesc
  f : EvFlags
  u : EvUse
  postStep : Word
  link : Option Nat
  tr : EvTrace
  /-- Place in the order in which slots became free; 0: never used (R77). -/
  freed : Nat
  deriving DecidableEq, Repr

/-- A slot after reset (R77). -/
def EvSlot.reset : EvSlot :=
  { state := 0, gen := 0, d := EvDesc.zero, f := EvFlags.zero, u := EvUse.zero, postStep := 0, link := none, tr := EvTrace.zero,
    freed := 0 }

/-- A local edge that SCH has handed to the issue stage (R86, R92). -/
structure Edge where
  ch : Nat
  /-- 0 ON, 1 OFF, 2 RATE. -/
  kind : Nat
  /-- Instant at the pin. -/
  tick : Nat
  slot : Option Nat
  rate : Nat
  /-- Origin class for CAUSE: 1 map, request or re-command; 2 host or inverse (R29). -/
  origin : Nat
  /-- The actuator delay in use at the hand-over, 10 µs (R131). -/
  delay : Nat
  deriving DecidableEq, Repr

/-- What SCH holds for a channel beside `expected` and `lastOrigin` of supervision. -/
structure ChSch where
  lerr : Int
  llate : Int
  /-- Effective request at the last boundary (R25). -/
  eff : Nat
  /-- Boundaries at which the channel came into TEST or left it, newest first (R129). -/
  tests : List (Nat × Bool)
  deriving DecidableEq, Repr

def ChSch.reset : ChSch := { lerr := 0, llate := 0, eff := 0, tests := [] }

/-- A cancelled edge that fires, with its inverse action, until both switchings are resolved (R102). -/
structure CxlPair where
  ch : Nat
  action : Nat
  /-- The cancelled slot and, where one was issued, the inverse: index and GEN. -/
  a : Nat × Nat
  b : Option (Nat × Nat)
  /-- The inverse was not called for, because the channel was not ON before a cancelled OFF. -/
  idle : Bool
  aDone : Bool
  bDone : Bool
  aM : Option Nat
  bM : Option Nat
  /-- Estimated motion of the inverse: its instant plus its D_ACT (R131). -/
  bEst : Nat
  /-- Channel coordinates at boundaries, newest first. -/
  path : List (Nat × Int)
  deriving DecidableEq, Repr

/-- SCH. -/
structure SchState where
  slots : Sparse EvSlot
  ch : Sparse ChSch
  /-- The last place given in the order of freed slots (R77). -/
  freeSeq : Nat
  /-- Edges in the local issue stage. -/
  edges : List Edge
  pairs : List CxlPair
  /-- SCH_CTRL.EN at the last boundary (R107). -/
  en : Bool
  /-- What the windows show of the last completed step (R108): its slots, its channels, their last issued states, and D of an
  ON and of an OFF edge. -/
  shown : Sparse EvSlot
  shownCh : Sparse ChSch
  shownLast : Sparse Nat
  shownD : Sparse (Nat × Nat)
  deriving DecidableEq, Repr

def SchState.reset : SchState :=
  { slots := [], ch := [], freeSeq := 0, edges := [], pairs := [], en := false, shown := [], shownCh := [], shownLast := [],
    shownD := [] }

/-! ### MAP -/

/-- The last footprint test of a channel (R121 to R124, R136). -/
structure ChMap where
  n : Nat
  b : Nat
  x : Nat
  des : Bool
  tested : Bool
  /-- The test of the last step was unresolved (R119). -/
  miss : Bool
  oog : Bool
  /-- Tile of the probe point in the last step with a test (R119). -/
  tile : Option (Int × Int)
  /-- Probe coordinate, scaled as SCH's prediction. -/
  probe : Int
  /-- Sign of the path speed in the last resolved test. -/
  dir : Int
  /-- Step of the last resolved test. -/
  step : Option Nat
  zval : Nat
  /-- The rate that was posted last, and the one in force as the last step left it (R136). -/
  rate : Option Nat
  inForce : Nat
  /-- The slot of the last map ON or OFF event. -/
  ev : Option (Nat × Nat)
  /-- A refused or PASSED event that DES still calls for is posted again (R126). -/
  again : Bool
  /-- The channel is held off: 0x8 or 0x9 as its CAUSE, else 0 (R71, R128, R134). -/
  hold : Nat
  /-- It applies under its request ON, as exclusion cannot be tested (R134). -/
  free : Bool
  k : Nat
  open_ : Bool
  est : Bool
  cells : Nat
  deriving DecidableEq, Repr

def ChMap.reset : ChMap :=
  { n := 0, b := 0, x := 0, des := false, tested := false, miss := false, oog := false, tile := none, probe := 0, dir := 0,
    step := none, zval := 0, rate := none, inForce := 0, ev := none, again := false, hold := 0, free := false, k := 0x1000,
    open_ := false, est := false, cells := 0 }

/-- A channel's band at a boundary: left and right end in the LTP, 2^−8 × 0.25 mm (R130). -/
structure Band where
  ch : Nat
  lE : Int
  lN : Int
  rE : Int
  rN : Int
  deriving DecidableEq, Repr

/-- The bands of one boundary; a channel without a usable pose has none (R133). -/
structure BandSet where
  step : Nat
  /-- CRP distance of the step that ends here, µm (R133). -/
  dist : Nat
  bands : List Band
  deriving DecidableEq, Repr

/-- A mark that is to be made: the ground-open intervals of a channel in the step that ends at a boundary, with its bands at the
step's ends (R130, R132). -/
structure MarkJob where
  ch : Nat
  step : Nat
  x : Band
  y : Band
  spans : List (Nat × Nat)
  deriving DecidableEq, Repr

/-- A physical tile (R114 to R116): the fill its cells were allocated with, the cells that differ, and the free index that
stands for its PHYS number. -/
structure Tile where
  base : Nat
  cells : Sparse Nat
  phys : Nat
  deriving DecidableEq, Repr

/-- A directory block: fills of the 64 tiles of a square that differ from the square's, and its allocated tiles (R115). -/
structure DirBlock where
  fills : Sparse Nat
  tiles : Sparse Tile
  base : Nat
  deriving DecidableEq, Repr

/-- A polygon pass or a clear that is running (R142, R146). -/
structure MapJob where
  /-- The bits of MAP_CLR, or 0 for a pass. -/
  clr : Nat
  slot : Nat
  deriving DecidableEq, Repr

/-- MAP. -/
structure MapState where
  /-- Fill of each 64 × 64 square of tiles (default 0). -/
  fill : Sparse Nat
  /-- Directory blocks by square. -/
  blocks : Sparse (Option DirBlock)
  ch : Sparse ChMap
  hist : List BandSet
  /-- The tile cache: tile index and DIRTY, the tile used last first (R115, R119). -/
  cache : List (Nat × Bool)
  /-- The conditions of R119 hold in this step. -/
  calm : Bool
  /-- Marks that could not be written yet, oldest first (R132). -/
  late : List MarkJob
  /-- The origin in force: MAP_ORG_LAT, MAP_ORG_LON, MAP_ORG_H, and whether it changed at the last boundary (R109). -/
  org : List Word
  moved : Bool
  /-- MAP_CTRL.EN in the last step (R128). -/
  en : Bool
  /-- Steps since OOG was last 1 (R113). -/
  oogAge : Nat
  /-- Unmarked application runs (R133). -/
  unmarked : Bool
  /-- µm of unmarked application not yet shown in the register. -/
  unmarkUm : Nat
  pass : Option MapJob
  clear : Option MapJob
  deriving DecidableEq, Repr

/-- MAP after reset. Whether OOG counts as having been 0 for a second before the reset is open: it does (DESIGN CHOICE, log entry
52). -/
def MapState.reset : MapState :=
  { fill := [], blocks := [], ch := [], hist := [], cache := [], calm := true, late := [], org := [0, 0, 0], moved := false, en := false,
    oogAge := 4000, unmarked := false, unmarkUm := 0, pass := none, clear := none }

/-! ### ACT -/

/-- A detection window (R150 to R155), with what the channel's profile held as it opened. -/
structure ActWin where
  /-- 0 ON, 1 OFF. -/
  dir : Nat
  te : Nat
  start : Nat
  stop : Nat
  slot : Option (Nat × Nat)
  trail : Bool
  /-- An edge of the modulation (R155). -/
  modul : Bool
  /-- Samples of the moving average. -/
  taps : Nat
  /-- DIP_MIN or HUMP_MIN, mA. -/
  thr : Nat
  /-- KNEE where the profile selects the knee. -/
  knee : Option Nat
  /-- The peak threshold was reached before the window started (R151). -/
  masked : Bool
  deriving DecidableEq, Repr

/-- One switching of a channel's output, for marks and for UNWANT (R102, R129, R131). -/
structure Swing where
  isOpen : Bool
  /-- Pin instant or node instant. -/
  tick : Nat
  /-- Delay of the estimate, 10 µs. -/
  est : Nat
  motion : Option Nat
  slot : Option (Nat × Nat)
  deriving DecidableEq, Repr

/-- A measurement that waits for the next boundary (R157). -/
structure Meas where
  ch : Nat
  dir : Nat
  m : Nat
  node : Bool
  /-- An edge of the modulation (R155, R159). -/
  modul : Bool
  deriving DecidableEq, Repr

/-- The learning state of one direction of a channel beside DLY (R157, R161). -/
structure Learn where
  /-- d̂ less 256 times its rounded EST, in 10/256 µs. -/
  frac : Int
  runN : Nat
  runSum : Nat
  runUp : Bool
  missRun : Nat
  lastM : Nat
  lastRes : Nat
  drift : Option Int
  deriving DecidableEq, Repr

def Learn.reset : Learn :=
  { frac := 0, runN := 0, runSum := 0, runUp := false, missRun := 0, lastM := 0, lastRes := 0, drift := none }

/-- ACT. -/
structure ActState where
  win : Sparse (Option ActWin)
  /-- Windows that the channel's next edge has cut short, with their channel: a feature found before it is reported up to 50 µs
  after it (R150, R154). -/
  cut : List (Nat × ActWin)
  swings : Sparse (List Swing)
  waiting : List Meas
  /-- By 2 × channel + direction. -/
  learn : Sparse Learn
  deriving DecidableEq, Repr

def ActState.reset : ActState := { win := [], cut := [], swings := [], waiting := [], learn := [] }

/-! ### DRV -/

/-- What a local channel's output stage holds beside DRV_CH_STAT. -/
structure DrvCh where
  /-- Between an opening edge and a closing edge (R174). -/
  isOpen : Bool
  /-- The low-side path is energised. -/
  coil : Bool
  te : Nat
  /-- V_base × 65,536 (R176). -/
  vbase : Int
  fromRate : Bool
  /-- Integrator of R178, 2^−20. -/
  integ : Int
  /-- The value in force V, as the last boundary or RATE formed it (R176). -/
  val : Nat
  /-- Grid: FREQ and written PHASE in force, t_ref, phase in force, next rise and fall of the pulse (R169, R173, R174). -/
  freq : Nat
  written : Nat
  tref : Nat
  phase : Nat
  rise : Option Nat
  fall : Option Nat
  /-- The present pulse is the first one after t_e (R175). -/
  first : Bool
  /-- A sensed release runs (R172). -/
  sensed : Bool
  /-- Low-side duty u of the last chop period, 2^−20 (R178). -/
  duty : Nat
  deriving DecidableEq, Repr

def DrvCh.reset : DrvCh :=
  { isOpen := false, coil := false, te := 0, vbase := 0, fromRate := false, integ := 0, val := 0, freq := 100, written := 0, tref := 0, phase := 0, rise := none,
    fall := none, first := false, sensed := false, duty := 0 }

/-- A channel that waits for a peak (R181): an ON edge, or a pulse rise where `edge` is none. -/
structure Waiting where
  ch : Nat
  due : Nat
  edge : Option Edge
  deriving DecidableEq, Repr

/-- A driver group. -/
structure DrvGrp where
  queue : List Waiting
  /-- Channel in peak phase, start and end (R181). -/
  peak : Option (Nat × Nat × Nat)
  /-- Starts and ends of recent peak phases, with their channel (R153, R183). -/
  marks : List (Nat × Nat)
  deriving DecidableEq, Repr

def DrvGrp.reset : DrvGrp := { queue := [], peak := none, marks := [] }

/-- One sum of the 1 MS/s samples of a tick (R189): `kind` 0 and 1: Σ i² over the samples with the low-side, freewheel
switch of channel `n` closed, mA²; 2: the same for the high-side switch of group `n`; 3: Σ v_LS·i in clamp release, mV·mA;
4: Σ VBAT·i over the switching edges, mV·mA; 5, 6: mean and largest coil current, mA; 7, 8: VBAT in mV and I_HS in mA,
means of the tick, of group `n`. -/
structure DrvSum where
  kind : Nat
  n : Nat
  v : Nat
  deriving DecidableEq, Repr

/-- DRV. Conditions of protections are held as bits in the places of DRV_CH_FLT and DRV_GRP_FLT. -/
structure DrvState where
  ch : Sparse DrvCh
  grp : Sparse DrvGrp
  /-- Conditions that are present now, by channel and by group (R187, R188). -/
  chCond : Sparse Nat
  grpCond : Sparse Nat
  /-- Protections that hold the output off, by channel and by group. -/
  chHold : Sparse Nat
  grpHold : Sparse Nat
  /-- P_f in µW (R189). -/
  pf : Nat
  /-- Stages 1 and 2 are in force (R190). -/
  stag : Bool
  lim : Bool
  /-- Stage 3 is in force (R190). -/
  isOver : Bool
  deriving DecidableEq, Repr

def DrvState.reset : DrvState :=
  { ch := [], grp := [], chCond := [], grpCond := [], chHold := [], grpHold := [], pf := 0,
    stag := false, lim := false, isOver := false }

/-! ### FJL -/

/-- A command entry for a node (R207). -/
structure RingCmd where
  /-- OP of R207: 1 ON, 2 OFF, 3 RATE, 4 CANCEL, 5 REPLACE. -/
  op : Nat
  k : Nat
  tag : Nat
  /-- Execute instant, ring ns; for a CANCEL its MASK. -/
  tx : Nat
  param : Nat
  slot : Option Nat
  /-- Sends so far. -/
  sent : Nat
  /-- It is sent in no area that starts before this ring time, ns (R210, R214). -/
  after : Nat
  /-- It has been counted as delayed (R209, R210). -/
  counted : Bool
  deriving DecidableEq, Repr

/-- The last command of a tag of a node (R209). -/
structure RingTag where
  busy : Bool
  slot : Option Nat
  k : Nat
  op : Nat
  tx : Nat
  /-- 0 no response yet, 1 ACCEPTED, 2 EXECUTED, 3 REJECTED, 4 withdrawn, by its CXL bit or before it was sent, 5 retries have run
  out. -/
  rsp : Nat
  /-- Ring time at which the tag becomes free, where it is known. -/
  free : Option Nat
  /-- A CANCEL has been queued for it (R214). -/
  cxl : Bool
  deriving DecidableEq, Repr

/-- What comes back from one node in a cycle (R200): its command area and its report area as they arrived, each with its CRC, and
the port it was served from. -/
structure NodeBack where
  node : Nat
  cmd : List Byte
  rpt : List Byte
  via : Nat
  deriving DecidableEq, Repr

/-- A PROBE that a node sends to a port of the master: its ID and its arrival, ns from the start of the cycle (R203). -/
structure RingProbe where
  port : Nat
  id : Byte
  at_ : Nat
  deriving DecidableEq, Repr

/-- What comes back in one ring cycle (R200): whether the frame returned at port 1, after what time and with what CYC (12 data bytes
and CRC); loss of signal at the ports; the areas of the nodes; the service block (52 bytes; none where nothing came back); and
probes of the neighbours. -/
structure RingBack where
  returned : Bool
  loopNs : Nat
  p0Los : Bool
  p1Los : Bool
  cyc : List Byte
  nodes : List NodeBack
  svc : List Byte
  probes : List RingProbe
  deriving DecidableEq, Repr

/-- What a transmitter of the master sends (R198, R222). -/
inductive PortTx where
  /-- In reset: differential zero. -/
  | zero
  /-- Idle characters only. -/
  | idle
  /-- Cycles. -/
  | cycle
  /-- The frame was ended with ABORT and four SAFE; idle characters until the next cycle. -/
  | abort
  deriving DecidableEq, Repr

/-- An ECHO that the master sends: port, ID, the PROBE's arrival in ns from the start of the cycle, and TURN in 1/16 ns (R203). -/
structure RingEcho where
  port : Nat
  id : Byte
  at_ : Nat
  turn : Nat
  deriving DecidableEq, Repr

/-- What the master sends on a ring: its two transmitters and the last cycle (R198, R200, R202). -/
structure RingTx where
  p0 : PortTx
  p1 : PortTx
  /-- Ring time of the cycle's start, ns. -/
  rt : Nat
  /-- FLAGS of the CYC: SAFE and BROKEN. -/
  flags : Nat
  /-- Command areas with a command, by node; any other area holds NOP (R207). -/
  areas : Sparse (List Byte)
  /-- The service block. -/
  svc : List Byte
  echoes : List RingEcho
  deriving DecidableEq, Repr

def RingTx.reset : RingTx := { p0 := .zero, p1 := .zero, rt := 0, flags := 0, areas := [], svc := [], echoes := [] }

/-- What the master holds of a node. -/
structure RingNode where
  found : Bool
  identified : Bool
  configured : Bool
  /-- L_fwd in 1/16 ns and T_proc in ns (R206, R213). -/
  lfwd : Nat
  tproc : Nat
  /-- Cycles since the last valid report area; none before the first one. -/
  silent : Option Nat
  /-- T_path as the last DELAY gave it, ns (R213). -/
  tpath : Option Nat
  /-- Its loss has been recorded (R224). -/
  lost : Bool
  queue : List RingCmd
  tags : Sparse (Option RingTag)
  deriving DecidableEq, Repr

def RingNode.reset : RingNode :=
  { found := false, identified := false, configured := false, lfwd := 0, tproc := 0, silent := none, tpath := none, lost := false, queue := [], tags := [] }

/-- A service request (R220). -/
structure Service where
  addr : Nat
  sop : Nat
  data : List Byte
  deriving DecidableEq, Repr

/-- A ring. -/
structure RingState where
  /-- Ring time is counted from this step (R201). -/
  start : Nat
  /-- Cycles since EN. -/
  seq : Nat
  nodes : Sparse RingNode
  /-- Service requests that wait, oldest first; the first is in the service block. -/
  svc : List Service
  /-- Enumeration: 0 RESET_ADDR first, 1 again, 2 SET_ADDR from port 0, 3 from port 1, 4 IDENT (R205). -/
  enumStep : Nat
  /-- Next address that SET_ADDR gives. -/
  nextAddr : Nat
  /-- Part of the ring was reached from port 1, or the frame does not return. -/
  open_ : Bool
  /-- Cycles without a return in OPER, and after HEAL (R226, R228). -/
  missed : Nat
  healing : Bool
  /-- Cycles since SYNC, and then since OPER or BROKEN, was entered (R219). -/
  operAge : Nat
  /-- The address from which on a DELAY is read next (R213). -/
  delayAddr : Nat
  tx : RingTx
  deriving DecidableEq, Repr

def RingState.reset : RingState :=
  { start := 0, seq := 0, nodes := [], svc := [], enumStep := 0, nextAddr := 1, open_ := false, missed := 0, healing := false,
    operAge := 0, delayAddr := 1, tx := RingTx.reset }

/-- What FJL holds of a remote channel beside its window (R216, R219, R225). -/
structure RemCh where
  /-- V_base × 65,536. -/
  vbase : Int
  /-- Last fault code that is latched, 0 for none. -/
  fcode : Nat
  vsent : Nat
  busy : Bool
  rsp : Nat
  acked : Bool
  /-- The MODE that the node has in force, and the one of a CFG_CH that was answered OK since the last boundary (R219, R221). -/
  mode : Nat
  modeNext : Option Nat
  /-- Not re-commanded since the ring's last safe state (R223). -/
  forced : Bool
  deriving DecidableEq, Repr

def RemCh.reset : RemCh :=
  { vbase := 0, fcode := 0, vsent := 0, busy := false, rsp := 0, acked := false, mode := 0, modeNext := none, forced := true }

/-- FJL. -/
structure FjlState where
  rings : Sparse RingState
  ch : Sparse RemCh
  /-- Stored configuration: channel × 16 + offset of the register in the window (R221). -/
  cfg : Sparse Word
  deriving DecidableEq, Repr

def FjlState.reset : FjlState := { rings := [], ch := [], cfg := [] }

end Sys2Proof.Machine
end

