-- ==== Sys2Proof/Machine/StateHif.lean ====
section
/-!
DEFINITION. Sys2Proof/Machine/StateHif.lean: the state of the host interface (chapter 14) and of the event recorder
(chapter 15) that no register holds.
-/
namespace Sys2Proof.Machine

/-- A request frame that has been accepted and waits in a slot's request ring (R387). Its acknowledgement has been taken and
its reserved fields are zero. -/
structure Frame where
  code : Nat
  /-- FLAGS.ORDERED (R42). -/
  ordered : Bool
  htag : Nat
  /-- The LEN bytes that follow the header. -/
  payload : List Byte
  /-- Its place in the order of acceptance over all slots (R394). -/
  seq : Nat
  /-- The status it was rejected with when it arrived, 0 for none: it only waits for its turn to be answered (R44). -/
  reject : Nat
  deriving DecidableEq, Repr

/-- A result or notification in a slot's response ring (R388, R402). -/
structure Result where
  code : Nat
  status : Nat
  rseq : Nat
  htag : Nat
  step : Word
  payload : List Byte
  deriving DecidableEq, Repr

/-- A host segment stream on CAN_B that is being put together (R385). -/
structure Reasm where
  nextSeg : Nat
  bytes : List Byte
  /-- Instant of the last segment, in 5 ns since power-up. -/
  heard : Nat
  deriving DecidableEq, Repr

/-- A command whose response is not posted yet (R391). -/
structure Deferred where
  code : Nat
  htag : Nat
  /-- What the response waits for: 0 the end of a map clear (R146), 1 a measurement epoch (R322), 2 the end of a clear of the
  log (R422), 3 the erase of an image slot (R459), 4 the write of a configuration bank (R466), 5 both 0 and 1, 6 the coming step
  boundary (R41), 7 only the responses of earlier commands to the same target (R40). -/
  wait : Nat
  status : Nat
  /-- The payload that the response carries. -/
  body : List Byte
  /-- The blocks that the command targets (R40). -/
  blocks : List Nat
  deriving DecidableEq, Repr

/-- What one host slot holds beside its registers of page 0x01. -/
structure HostSlot where
  /-- Request ring, oldest first (R394). -/
  ring : List Frame
  /-- Unreleased results and notifications, oldest first (R391, R392). -/
  unrel : List Result
  /-- The most recently released result (R392). -/
  last : Option Result
  /-- The RSEQ last given (R388). -/
  rseq : Nat
  /-- Keep-alive in force, ms (R397, R404). -/
  ka : Nat
  /-- Instant of the last accepted frame, in 5 ns since power-up (R397). -/
  heard : Nat
  /-- The step in which the slot's last write of a register row came: it is in force at the next boundary (R42). -/
  ranIn : Option Nat
  /-- SESSION, counted per attachment (R404). -/
  session : Nat
  /-- LEASE_LOST notifications that wait for room (R402). -/
  owed : List (List Byte)
  /-- Commands in progress whose response is not posted yet. -/
  deferred : List Deferred
  reasm : Option Reasm
  /-- HI words latched by a read of their LO (R12), by the index of the HI register. -/
  hiLatch : Sparse (Option Word)
  /-- The slot's copies of the selector and window registers (R498), by index. -/
  win : Sparse Word
  deriving DecidableEq, Repr

/-- A slot after reset. -/
def HostSlot.reset : HostSlot :=
  { ring := [], unrel := [], last := none, rseq := 0, ka := 0, heard := 0, ranIn := none, session := 0, owed := [], deferred := [], reasm := none,
    hiLatch := [], win := [] }

/-- What a task controller asks of the implement (R386): the state of a condensed section, or the setpoint rate of a zone. -/
inductive TcValue where
  | sec (k : Nat) (on : Bool)
  | rate (z : Nat) (setpoint : Nat)
  deriving DecidableEq, Repr

/-- The host interface. -/
structure HifState where
  slots : Sparse HostSlot
  /-- WIN_ERR counters (R409). -/
  winCrc : Nat
  winShort : Nat
  winBadAck : Nat
  /-- LAST of the previous SPI transaction (R382). -/
  last : Nat
  /-- The bytes sent on HIF_MISO in the last SPI transaction (R382). -/
  miso : List Byte
  /-- The item that a member lease is tied to, by resource (R398); `none`: not tied. -/
  tie : Sparse (Option Nat)
  /-- Resources set down by a lost lease whose REQ has not been written since (R399). -/
  setDown : Sparse Bool
  /-- Frames sent out on UDP and CAN_B, newest last: slot and response (R384, R385); 255: to a source that has no slot. -/
  sent : List (Nat × Result)
  /-- The datagrams or segments of the last sending, in order, with their slot. -/
  units : List (Nat × List Byte)
  /-- Frames accepted so far, over all slots (R394). -/
  accepted : Nat
  deriving DecidableEq, Repr

def HifState.reset : HifState :=
  { slots := [], winCrc := 0, winShort := 0, winBadAck := 0, last := 0, miso := [], tie := [], setDown := [], sent := [], units := [],
    accepted := 0 }

/-- An event in staging, with the stamps of its occurrence (R412, R413, R415). -/
structure RecEntry where
  code : Nat
  hold : Bool
  frz : Bool
  opsec : Word
  pcyc : Nat
  frac : Nat
  step : Word
  inst : Nat
  val : List Byte
  deriving DecidableEq, Repr

/-- A clear that is running (R422). -/
structure RecClear where
  slot : Nat
  prevNext : Nat
  failures : Nat
  deriving DecidableEq, Repr

/-- The event recorder. -/
structure RecState where
  /-- The store: 16,384 records of 32 bytes; a free record reads 0xFF (R412). -/
  log : Sparse (List Byte)
  /-- NEXT (R414). -/
  next : Nat
  /-- The log is full (R416). -/
  full : Bool
  /-- Staging FIFO, oldest first, at most 64 (R415). -/
  staging : List RecEntry
  /-- The entry that the write engine has taken, and the LOST count it carries. -/
  writing : Option (RecEntry × Nat)
  /-- Pending LOST count (R415). -/
  lost : Nat
  /-- Freeze holder: 0 to 3 a slot, 4 the window (R417). -/
  freeze : Option Nat
  /-- The search for NEXT after power-up has not ended (R414). -/
  searching : Bool
  clearing : Option RecClear
  /-- A clear nonce and the slot it was given to (R421). -/
  nonce : Option (Nat × List Byte)
  /-- Challenges are refused (R422). -/
  lock : Bool
  /-- Steps since the last whole operating second, for FRAC (R412). -/
  fracSteps : Nat
  /-- Cursor of the direct window (R423). -/
  cursor : Nat
  /-- Control area: saved OPSEC, PCYC, the consecutive failures and whether a lockout was running, the key (R413, R422, R466). -/
  savedOpsec : Word
  savedPcyc : Nat
  fails : Nat
  savedLock : Bool
  key : Option (List Byte)
  /-- Instants, in 5 ns since power-up, at which the freeze, the lockout and the nonce began (R417, R421, R422). -/
  freezeAt : Nat
  lockAt : Nat
  nonceAt : Nat
  deriving DecidableEq, Repr

def RecState.reset : RecState :=
  { log := [], next := 0, full := false, staging := [], writing := none, lost := 0, freeze := none, searching := false,
    clearing := none, nonce := none, lock := false, fracSteps := 0, cursor := 0, savedOpsec := 0, savedPcyc := 0,
    fails := 0, savedLock := false, key := none, freezeAt := 0, lockAt := 0, nonceAt := 0 }

end Sys2Proof.Machine
end

