-- ==== Sys2Proof/Machine/StateIo.lean ====
section
/-!
DEFINITION. Sys2Proof/Machine/StateIo.lean: the state of the control loops (chapter 8), the motor PWM groups (chapter 9)
and the feedback inputs (chapter 10) that no register or table holds. An instant is a number of 5 ns since reset; PWM edges
are in 156.25 ps, 32 to 5 ns (R261).
-/
namespace Sys2Proof.Machine

/-! ### PWM -/

/-- PRD, DT, MIN and the three CMP values of a group (R267). -/
structure PwmSet where
  prd : Nat
  dt : Nat
  min : Nat
  cmp : List Nat
  deriving DecidableEq, Repr

def PwmSet.reset : PwmSet := { prd := 10000, dt := 200, min := 20, cmp := [0, 0, 0] }

/-- A shadow write that has not completed yet (R268): offset of its register and the value. -/
structure PwmWrite where
  at_ : Nat
  off : Nat
  v : Word
  /-- The loop that wrote it; none for a host. -/
  loop : Option Nat
  deriving DecidableEq, Repr

/-- A pair of outputs (R259 to R265). -/
structure PwmPair where
  /-- Drive signal S. -/
  s : Bool
  /-- Instant from which H or L is high, 156.25 ps; none while it is low (R263). -/
  h : Option Nat
  l : Option Nat
  /-- The pins are driven (R259). -/
  driven : Bool
  /-- c_eff of the present period. -/
  c : Nat
  deriving DecidableEq, Repr

def PwmPair.reset : PwmPair := { s := false, h := none, l := none, driven := false, c := 0 }

/-- What a trip input sees (R272): its pin's levels as runs of 5 ns samples, oldest first; operand of KINEMATIC_STEP, up to the
boundary, and of PWM_TRIP. -/
structure TripPin where
  g : Nat
  i : Nat
  /-- Instant of the first sample. -/
  t : Nat
  runs : List (Bool × Nat)
  deriving DecidableEq, Repr

/-- The Colander of a trip input: active samples counted within 0 to L, whether its output is active, and the inactive samples since
the last active one (R272). -/
structure TripFilter where
  count : Nat
  act : Bool
  quiet : Nat
  deriving DecidableEq, Repr

def TripFilter.reset : TripFilter := { count := 0, act := false, quiet := 0 }

/-- A PWM group. -/
structure PwmGrp where
  /-- Instant of the last period boundary; at a start that of counter value 0. -/
  start : Nat
  /-- Completed shadow values, and the active set (R267). -/
  shadow : PwmSet
  act : PwmSet
  writes : List PwmWrite
  /-- Offsets with a completed value that waits for its copy (R269). -/
  waits : List Nat
  /-- Instant at which a load-all became armed (R267). -/
  armed : Option Nat
  pairs : List PwmPair
  /-- The PRD event of this period has occurred (R277). -/
  prdDone : Bool
  /-- Occurrences of ZERO, PRD and CMP0 to CMP2 since the last flag (R277). -/
  occ : List Nat
  /-- The filters of its two trip inputs. -/
  filt : List TripFilter
  deriving DecidableEq, Repr

def PwmGrp.reset : PwmGrp :=
  { start := 0, shadow := PwmSet.reset, act := PwmSet.reset, writes := [], waits := [], armed := none,
    pairs := [PwmPair.reset, PwmPair.reset, PwmPair.reset], prdDone := false, occ := [0, 0, 0, 0, 0],
    filt := [TripFilter.reset, TripFilter.reset] }

/-! ### CLE -/

/-- A control loop beside its registers (R240). -/
structure Loop where
  /-- Mode in force (R250). -/
  mode : Nat
  /-- t_a and the number of the next sample (R243). -/
  ta : Nat
  k : Nat
  integ : Int
  d : Int
  rEff : Int
  yPrev : Int
  ePrev : Int
  /-- u of the previous period. -/
  u : Int
  /-- u as last written to the destination (R238, LOOP). -/
  written : Int
  satPrev : Bool
  g : Nat
  /-- A sample has placed g since the reset (R248). -/
  placed : Bool
  /-- Gains or integrator limits of the present region were written (R249). -/
  preset : Bool
  /-- The output that waits for its instant: instant and value (R243). -/
  out : Option (Nat × Int)
  /-- Saturation timer, µs, and whether its alarm has been given (R254). -/
  satUs : Nat
  alarmed : Bool
  /-- Speed and acceleration of the channel of GEAR as phase 3 of the last step left them (R239). -/
  gearV : Int
  gearA : Int
  deriving DecidableEq, Repr

def Loop.reset : Loop :=
  { mode := 0, ta := 0, k := 0, integ := 0, d := 0, rEff := 0, yPrev := 0, ePrev := 0, u := 0, written := 0, satPrev := false,
    g := 0, placed := false, preset := false, out := none, satUs := 0, alarmed := false, gearV := 0, gearA := 0 }

/-- A running injection (R255). -/
structure Inject where
  loop : Nat
  point : Nat
  /-- Number of the loop's first injected sample; none before it. -/
  k0 : Option Nat
  deriving DecidableEq, Repr

/-- Capture memory (R256, R257): entries oldest first. -/
structure Capture where
  entries : List Word
  /-- Periods since the last entries were written. -/
  skip : Nat
  deriving DecidableEq, Repr

/-- CLE. -/
structure CleState where
  loops : Sparse Loop
  inj : Option Inject
  cap : Capture
  deriving DecidableEq, Repr

def CleState.reset : CleState := { loops := [], inj := none, cap := { entries := [], skip := 0 } }

/-! ### ENC and SNS -/

/-- A counting input: units 0 to 7 the shaft ports, 8 to 11 the wheels, 12 and 13 the ISO 11786 inputs, 14 to 21 the flow
inputs (R284 to R291). -/
structure Counter where
  raw : Int
  rep : Int
  /-- Filtered levels of A and B. -/
  a : Bool
  b : Bool
  /-- Start of the speed window and its opening count (R287). -/
  win : Nat
  winAt : Int
  /-- Edges in the window (R289, R291). -/
  edges : Nat
  /-- Illegal transitions in the illegal window that started at `illWin` (R284). -/
  ill : Nat
  illWin : Nat
  /-- The rate exceeded 10 kHz in this window (R289). -/
  fast : Bool
  lastEdge : Option Nat
  deriving DecidableEq, Repr

def Counter.reset : Counter :=
  { raw := 0, rep := 0, a := false, b := false, win := 0, winAt := 0, edges := 0, ill := 0, illWin := 0, fast := false, lastEdge := none }

/-- The serial side of a shaft port (R281 to R283, R286). -/
structure Serial where
  ta : Nat
  n : Nat
  /-- The read in progress started at this instant. -/
  reading : Option Nat
  /-- Position of the last valid word. -/
  word : Option Nat
  fails : Nat
  /-- SERR has been cleared on fallback: the next read returns to SERIAL if it is valid (R281). -/
  back : Bool
  /-- That read: its position and its sample instant, until the boundary at which the port returns. -/
  ret : Option (Nat × Nat)
  /-- C_rep when the fallback started (R283). -/
  fbRep : Int
  /-- The first index since enabling has been used (R286). -/
  zDone : Bool
  /-- Sample instants of POS and SPD (R295). -/
  posAt : Option Nat
  spdAt : Option Nat
  deriving DecidableEq, Repr

def Serial.reset : Serial :=
  { ta := 0, n := 0, reading := none, word := none, fails := 0, back := false, ret := none, fbRep := 0, zDone := false, posAt := none,
    spdAt := none }

/-- An analogue input: its last 128 conversions, newest first, and the conversions for which CODE has been beyond its limits
or within them (R292). -/
structure Ain where
  conv : List Nat
  out : Nat
  within : Nat
  deriving DecidableEq, Repr

def Ain.reset : Ain := { conv := [], out := 0, within := 0 }

/-- A word as a shaft port receives it (R282): for SSI, ENC_Pp_DAT at the start of the read and in the clock period after the last
bit; for BiSS-C, the µs to its start bit; the position bits, first received bit most significant; nE and nW; and the CRC as
received. Operand of SERIAL_READ_DONE. -/
structure SerialWord where
  idle : Bool
  stop : Bool
  startUs : Option Nat
  bits : Nat
  ne : Bool
  nw : Bool
  crc : Nat
  deriving DecidableEq, Repr

/-- An emulation output: step of the phase, 0 to 3, and the levels of A and B; and the phase accumulator: |v|·PPM of the last
boundary, limited, with v's sign; the way since the last edge, in 10^−8·5 ns turns, up to an instant (R290). -/
structure Emu where
  phase : Nat
  a : Bool
  b : Bool
  rate : Nat
  fwd : Bool
  acc : Nat
  at_ : Nat
  deriving DecidableEq, Repr

def Emu.reset : Emu := { phase := 0, a := false, b := false, rate := 0, fwd := false, acc := 0, at_ := 0 }

/-- ENC and SNS. -/
structure EncState where
  cnt : Sparse Counter
  ser : Sparse Serial
  ain : Sparse Ain
  emu : Sparse Emu
  /-- Last accepted DRDY edge (R294). -/
  drdy : Option Nat
  /-- The IMU was enabled at this instant, from which TMO runs. -/
  imuOn : Nat
  /-- The present gap of DRDY edges has been reported (R294). -/
  imuDead : Bool
  /-- The bytes that the device sent in the last transfer on IMU_MOSI, before it clocks bytes in (R293, R294). -/
  imuTx : List Byte
  deriving DecidableEq, Repr

def EncState.reset : EncState := { cnt := [], ser := [], ain := [], emu := [], drdy := none, imuOn := 0, imuDead := false, imuTx := [] }

end Sys2Proof.Machine
end

