-- ==== Sys2Proof/Machine/StateKin.lean ====
section
/-!
DEFINITION. Sys2Proof/Machine/StateKin.lean: the internal state of KIN (chapter 2), in the formats of R52: positions in
2^−8 × 0.25 mm, angles in 2^−32 turn, speeds in µm/s, yaw rates in 2^−32 turn/s, path coordinates in 2^−24 × 0.25 mm.
-/
namespace Sys2Proof.Machine

/-- A body's pose and motion (R52). `eR`, `nR` and `psiR` are what a step's advance leaves below the unit of `e`, `n` and
`psi`, so that propagation adds up without loss (R53). -/
structure Body where
  e : Int
  n : Int
  psi : Nat
  u : Int
  w : Int
  r : Int
  a : Int
  alpha : Int
  wdot : Int
  eR : Int
  nR : Int
  psiR : Int
  deriving DecidableEq, Repr

def Body.zero : Body :=
  { e := 0, n := 0, psi := 0, u := 0, w := 0, r := 0, a := 0, alpha := 0, wdot := 0, eR := 0, nR := 0, psiR := 0 }

/-- The pose kept for one of the last 1,024 steps (chapter 2, Inputs), less what then remained of a hand-over offset. -/
structure PoseMark where
  step : Word
  e : Int
  n : Int
  psi : Nat
  deriving DecidableEq, Repr

/-- A GNSS solution handed to KIN (R317, R319): antenna 0 in the LTP, 0.25 mm; velocity, µm/s. -/
structure KinSol where
  step : Word
  e : Int
  n : Int
  vE : Int
  vN : Int
  type : Nat
  sigma : Nat
  hdgV : Bool
  hdg : Nat
  hdgSig : Nat
  deriving DecidableEq, Repr

/-- An ISOBUS speed and direction message (R376): speed in µm/s, direction known, reverse. -/
structure IsoSpeed where
  speed : Int
  dirKnown : Bool
  rev : Bool
  deriving DecidableEq, Repr

/-- A correction that is spread over 200 steps (R65): the totals and the steps done. -/
structure Spread where
  e : Int
  n : Int
  psi : Int
  done : Nat
  deriving DecidableEq, Repr

/-- A hand-over blend (R66): the captured offsets, D_blend and what is left of it, both in 2^−24 × 0.25 mm. -/
structure Blend where
  e : Int
  n : Int
  psi : Int
  u : Int
  gamma : Int
  dist : Nat
  left : Nat
  deriving DecidableEq, Repr

/-- What KIN holds for one channel (R52, R56). -/
structure ChKin where
  s : Int
  sdot : Int
  vlat : Int
  sddot : Int
  e : Int
  n : Int
  /-- KIN_CH_FLAGS of the last step (R74). -/
  flags : Nat
  deriving DecidableEq, Repr

def ChKin.zero : ChKin := { s := 0, sdot := 0, vlat := 0, sddot := 0, e := 0, n := 0, flags := 0 }

/-- Timers, counters and latches of KIN. -/
structure KinWatch where
  /-- Steps since the last usable solution was latched; `none`: none since EN became 1 (R59, R69). -/
  gnssAge : Option Nat
  /-- Steps for which the standstill conditions have held (R64). -/
  still : Nat
  /-- CRP distance since GNSS was last present, in 1/4,000 µm, and steps (R69). -/
  drDist : Nat
  drSteps : Nat
  /-- A limit that governs the validity has been passed (R69). -/
  poseGone : Bool
  motionGone : Bool
  /-- Consecutive rejected solutions (R65). -/
  rejects : Nat
  /-- Steps for which the hitch encoder has been good again (R54). -/
  hencGood : Nat
  /-- The last good encoder angle (R54). -/
  hencLast : Int
  /-- CLASS in the last step (R66). -/
  cls : Nat
  deriving DecidableEq, Repr

def KinWatch.zero : KinWatch :=
  { gnssAge := none, still := 0, drDist := 0, drSteps := 0, poseGone := false, motionGone := false, rejects := 0,
    hencGood := 0, hencLast := 0, cls := 0 }

/-- Speed sources between steps. -/
structure KinSrc where
  /-- GNSS speed along the carrier and across it, extrapolated between solutions (chapter 2, Speed and yaw rate). -/
  gnssU : Int
  gnssW : Int
  /-- Rate of the baseline heading between solutions, and the last heading with its step (R61). -/
  hdgRate : Option Int
  hdgPrev : Option (Nat × Word)
  /-- Counts of each wheel at the last boundary (R288). -/
  whlCnt : Sparse Nat
  /-- Counts of each wheel since the last solution and the last solution's speed and step, for R60. -/
  whlAcc : Sparse Int
  lrnPrev : Option (Int × Word)
  /-- The conditions of R60 have held since the last solution. -/
  lrnOk : Bool
  /-- The speed sources that entered the mean in the last step: bits 0 GNSS, 1 to 4 wheels, 5 and 6 ISO 11786, 7 ISOBUS. -/
  used : Nat
  /-- The forward speed of the last step without a hand-over offset (R66, R69). -/
  est : Int
  deriving DecidableEq, Repr

def KinSrc.zero : KinSrc :=
  { gnssU := 0, gnssW := 0, hdgRate := none, hdgPrev := none, whlCnt := [], whlAcc := [], lrnPrev := none, lrnOk := false,
    used := 0, est := 0 }

/-- KIN. -/
structure KinState where
  car : Body
  trl : Body
  /-- Hitch angle, signed, 2^−32 turn (R52), and the estimate of it without a hand-over offset (R54). -/
  gamma : Int
  gammaEst : Int
  /-- Zones with BODY = 1 are on the trailed body (R48). -/
  trailed : Bool
  hist : List PoseMark
  /-- The last 16 values of u, r, w and of the trailed u, r, w, newest first (R63). -/
  filt : List (List Int)
  /-- The last 4 encoder angles, newest first. -/
  hencHist : List Int
  corr : Option Spread
  blend : Option Blend
  watch : KinWatch
  src : KinSrc
  /-- A solution that waits for its latch, and the last one latched. -/
  sol : Option KinSol
  lastSol : Option KinSol
  iso : Option IsoSpeed
  /-- Channels that have moved or been placed. -/
  ch : Sparse ChKin
  deriving DecidableEq, Repr

def KinState.reset : KinState :=
  { car := Body.zero, trl := Body.zero, gamma := 0, gammaEst := 0, trailed := false, hist := [], filt := [], hencHist := [], corr := none, blend := none,
    watch := KinWatch.zero, src := KinSrc.zero, sol := none, lastSol := none, iso := none, ch := [] }

end Sys2Proof.Machine
end

