-- ==== Sys2Proof/Machine/StateNet.lean ====
section
/-!
DEFINITION. Sys2Proof/Machine/StateNet.lean: the state of the GNSS receiver (chapter 11), the time bases, the switch, the
relay and the PTP instances (chapter 12) and the CAN controllers (chapter 13) that no register or table holds. Instants of
this file are numbers of 5 ns since power-up, because GNS and TB0 run through a device reset.
-/
namespace Sys2Proof.Machine

/-! ### GNS -/

/-- A tracking slot (R302 to R306, R309 to R311, R314). -/
structure GnsSlot where
  /-- State code of R303. -/
  state : Nat
  port : Nat
  sig : Nat
  svid : Nat
  /-- PIN, and GNS_SLOT_CFG as a host wrote it (R304). -/
  pin : Bool
  cfg : Word
  /-- A written CFG waits for the next epoch. -/
  cfgNew : Bool
  privFw : Bool
  /-- A first dwell has detected the cell that the next one confirms, and dwells of the present search before it (R305, R306). -/
  confirm : Bool
  dwells : Nat
  /-- Instant of its last loss. -/
  lostAt : Nat
  /-- It has been in LOST or PULLIN since the last epoch (R311). -/
  passed : Bool
  /-- Reacquired by an aided engine since the last epoch (R314). -/
  aided : Bool
  half : Bool
  /-- Epochs since the last SLIP. -/
  age : Nat
  slipc : Nat
  carr : Int
  /-- Values of the last epoch: C/N0, PLI, flags, Doppler (R314). -/
  cn0 : Nat
  pli : Nat
  flags : Nat
  dopp : Int
  deriving DecidableEq, Repr

def GnsSlot.reset : GnsSlot :=
  { state := 0, port := 0, sig := 0, svid := 0, pin := false, cfg := 0, cfgNew := false, privFw := false, confirm := false,
    dwells := 0, lostAt := 0, passed := false, aided := false, half := false, age := 0, slipc := 0, carr := 0, cn0 := 0, pli := 0,
    flags := 0, dopp := 0 }

/-- What the correlators of a slot give at an epoch (R309 to R314); operand of MEAS_EPOCH. `dcarr` is the integral of the
Doppler since the last epoch, 2^−16 cycle; `plis` the PLI of each integration since the last epoch, and `diffs` the phase
integrated from the PLL less the Doppler integral of each 20 ms interval, 2^−16 cycle (R311); `polarity`: 0 no preamble with
correct parity yet, 1 found upright, 2 found inverted. -/
structure SlotMeas where
  slot : Nat
  codeLock : Bool
  towV : Bool
  plis : List Nat
  diffs : List Int
  polarity : Nat
  codeph : Nat
  txms : Nat
  dcarr : Int
  dopp : Int
  cn0 : Nat
  pli : Nat
  cstd : Nat
  deriving DecidableEq, Repr

/-- A signal that the firmware predicts (R303), with the satellite's elevation in 0.001°; operand of MEAS_EPOCH. -/
structure GnsCand where
  sig : Nat
  svid : Nat
  port : Nat
  elev : Int
  deriving DecidableEq, Repr

/-- The front end of a port at an epoch (R299, R300); operand of MEAS_EPOCH. -/
structure PortRf where
  agc1 : Nat
  agc5 : Nat
  nf1 : Nat
  nf5 : Nat
  ibias : Nat
  atMin : Bool
  deriving DecidableEq, Repr

/-- A stored epoch (R313): its header fields and records by slot. -/
structure GnsEpoch where
  seq : Nat
  tep : Nat
  step : Word
  tb0v : Bool
  clkStep : Bool
  clkb : Int
  clkd : Int
  recs : List (List Byte)
  deriving DecidableEq, Repr

/-- What the firmware computes from an epoch (R317 to R319, R329); operand of SOLUTION. `type` is the best type that the
measurements and the corrections at hand allow, `used` the slots of its signals and `ratio` the result of the ratio test, 0.1.
Positions are of the phase centre of
antenna 0: `e` and `n` in the LTP, 0.25 mm; `err` is TB0 minus GNSS time in 0.01 ns; `rate` the new RATE of TB0; `unc` its
uncertainty, ns; `slewr` the slew rate of ordinary steering, ns/s. -/
structure SolIn where
  type : Nat
  used : List Nat
  ratio : Nat
  lat : Int
  lon : Int
  hgt : Int
  e : Int
  n : Int
  vE : Int
  vN : Int
  vU : Int
  sigH : Nat
  sigV : Nat
  pdop : Nat
  latency : Nat
  fixed : Bool
  hdg : Nat
  pitch : Int
  hdgSig : Nat
  len : Nat
  err : Int
  clkd : Int
  rate : Int
  unc : Nat
  slewr : Nat
  priv : List Nat
  deriving DecidableEq, Repr

/-- A stored navigation unit (R316), as its 80 bytes but for SEQ. -/
structure NavUnit where
  seq : Nat
  bytes : List Byte
  deriving DecidableEq, Repr

/-- Leap-second data that a unit completed (R328); operand of NAV_UNIT. -/
structure LeapData where
  cur : Int
  next : Int
  pend : Bool
  sec : Nat
  deriving DecidableEq, Repr

/-- GNS. -/
structure GnsState where
  slots : Sparse GnsSlot
  /-- The slots as the last completed epoch left them (R322). -/
  shown : Sparse GnsSlot
  /-- The firmware's last prediction (R303). -/
  sky : List GnsCand
  /-- The last 4 epochs, newest first, and the next EPOCH. -/
  epochs : List GnsEpoch
  seq : Nat
  /-- TB0 has stepped since the last epoch (R312). -/
  clkStep : Bool
  /-- The last 512 units, oldest first, and the next SEQ. -/
  nav : List NavUnit
  navSeq : Nat
  /-- Bytes of a frame that is not complete, by host (R320). -/
  rtcm : Sparse (List Byte)
  /-- The host whose frames are accepted last, and when its last valid frame came (R321). -/
  lastSrc : Option Nat
  srcAt : Nat
  /-- Instant of the last phase or code corrections. -/
  corrAt : Option Nat
  /-- Base station ID and position, 0.1 mm (R318). -/
  base : Option (Nat × Int × Int × Int)
  /-- Corrections have aged out, and not come back. -/
  lost : Bool
  /-- Last 1033 message. -/
  rcv1033 : List Byte
  /-- The bias switch of a port opened at this instant after a short (R300). -/
  shortAt : Sparse (Option Nat)
  /-- Instant of the last solution of TYPE 1 or more. -/
  solAt : Option Nat
  /-- Registers written since the last epoch, with the values that come into force at the next one (R322). -/
  waiting : Sparse Word
  deriving DecidableEq, Repr

def GnsState.reset : GnsState :=
  { slots := [], shown := [], sky := [], epochs := [], seq := 0, clkStep := false, nav := [], navSeq := 0, rtcm := [], lastSrc := none, srcAt := 0,
    corrAt := none, base := none, lost := false, rcv1033 := [], shortAt := [],
    solAt := none, waiting := [] }

/-! ### TIM -/

/-- A time base: its value at an instant, in units of 2^−40 × 10^−9 ns, so that every rate of R323 adds a whole number. -/
structure TimeBase where
  at_ : Nat
  val : Int
  /-- Slew remainder, in the same units, and its rate in ns/s. -/
  slew : Int
  slewr : Nat
  /-- A STEP that waits for its second (R325), and whether it is the initial one (R329). -/
  pend : Option Int
  initial : Bool
  /-- Instant of the last STEP or SET and the value before it (R335). -/
  stepped : Option (Nat × Int)
  /-- Sum of the host's STEPs of a boundary, and the boundary of its last SLEW: actions of one boundary have an order (R325). -/
  steps : Option (Nat × Int)
  slewAt : Option Nat
  deriving DecidableEq, Repr

def TimeBase.reset : TimeBase :=
  { at_ := 0, val := 0, slew := 0, slewr := 0, pend := none, initial := false, stepped := none, steps := none,
    slewAt := none }

/-- A pulse output. -/
structure Pps where
  seq : Nat
  /-- The pin is at its active level until this instant. -/
  stop : Option Nat
  /-- No pulse before this value of the time base (R335). -/
  notBefore : Option Int
  deriving DecidableEq, Repr

def Pps.reset : Pps := { seq := 0, stop := none, notBefore := none }

/-- TIM. -/
structure TimState where
  /-- Instant of step boundary 0 of the present step count. -/
  base : Nat
  tb : Sparse TimeBase
  pps : Sparse Pps
  /-- Last steering update of TB0 and the uncertainty it left (R330). -/
  steered : Nat
  unc : Nat
  /-- The slew that ends a holdover has begun (R333). -/
  back : Bool
  /-- Entry to holdover and F at entry, ppb. -/
  hoAt : Nat
  hoF : Nat
  /-- Learning: case temperature at its start and the instants learned (R329). -/
  learnT : Option Int
  learned : Nat
  deriving DecidableEq, Repr

def TimState.reset : TimState :=
  { base := 0, tb := [], pps := [], steered := 0, unc := 0xFFFFFFFF, back := false, hoAt := 0, hoF := 0, learnT := none, learned := 0 }

/-! ### ETH and PTP -/

/-- What a PTP instance concludes from a received message under its standard (R342 to R344): instance 0 gPTP, 1 the ordinary
clock; `step` is a STEP of its time base, ns, where its servo makes one. Operand of ETH_FRAME_RX. -/
structure PtpUpdate where
  inst : Nat
  /-- 1 slave, 2 master, 3 listening. -/
  role : Nat
  locked : Bool
  offs : Int
  delay : Nat
  asCap : Nat
  rate : Int
  step : Option Int
  deriving DecidableEq, Repr

/-- A frame as a line port receives it (R339, R340): its bytes without FCS, whether its FCS is good, the instants of its start
of frame at the receiving and at the sending MAC, and whether the queue of the egress port is full. -/
structure EthFrame where
  port : Nat
  bytes : List Byte
  fcsOk : Bool
  rx : Nat
  tx : Nat
  full : Bool
  ptp : Option PtpUpdate
  deriving DecidableEq, Repr

/-- A learned address: 48 bits, its port and the instant it was last seen (R339). -/
structure EthAddr where
  mac : Nat
  port : Nat
  seen : Nat
  deriving DecidableEq, Repr

/-- ETH. -/
structure EthState where
  table : List EthAddr
  /-- Last change of BYP_COIL and of BYP_SENSE. -/
  coilAt : Nat
  senseAt : Nat
  /-- The port has been without link since this instant. -/
  downAt : Sparse (Option Nat)
  /-- Cause of the return in progress (R348). -/
  cause : Nat
  /-- Last frame sent on a line port, and handed to the internal port (2). -/
  out : Sparse (List Byte)
  /-- The relay was INSERTING or INSERTED when a reset began (R348). -/
  wasIn : Bool
  /-- The gPTP instance has locked since it was enabled (R337). -/
  gpLocked : Bool
  /-- Last Sync of an instance (R343, R344). -/
  syncAt : Sparse (Option Nat)
  deriving DecidableEq, Repr

def EthState.reset : EthState :=
  { table := [], coilAt := 0, senseAt := 0, downAt := [], cause := 0, out := [], wasIn := false, gpLocked := false,
    syncAt := [] }

/-! ### CAN -/

/-- A transmit buffer beside CAN_TXB_STAT (R355, R358). -/
structure CanBuf where
  w0 : Word
  w1 : Word
  data : List Byte
  time : Nat
  at_ : Bool
  tb : Nat
  /-- Retry limit in force. -/
  retry : Nat
  unlim : Bool
  /-- Its instant or its slot has come (R361, R370). -/
  eligible : Bool
  /-- Failed attempts, and whether each was an acknowledge error. -/
  att : Nat
  onlyAck : Bool
  /-- Load count. -/
  seq : Nat
  /-- Loaded since its last slot (FRESH). -/
  fresh : Bool
  /-- The host's abort waits for the end of the attempt (R365). -/
  abort : Bool
  /-- The TTM entry whose slot is open, with the end of its window. -/
  slot : Option (Nat × Nat)
  /-- Its slot's window ended while its frame was on the bus: with the attempt it is over (R370). -/
  ended : Bool
  /-- Start of frame of the last frame sent, ns (R361). -/
  sof : Nat
  deriving DecidableEq, Repr

def CanBuf.reset : CanBuf :=
  { w0 := 0, w1 := 0, data := [], time := 0, at_ := false, tb := 0, retry := 0, unlim := false, eligible := false, att := 0,
    onlyAck := true, seq := 0, fresh := false, abort := false, slot := none, ended := false,
    sof := 0 }

/-- A received element (R355): its header and data, and whether data was cut off (R357). -/
structure CanElem where
  bytes : List Byte
  cut : Bool
  deriving DecidableEq, Repr

/-- A receive FIFO, oldest first. -/
structure CanFifo where
  elems : List CanElem
  ovf : Bool
  deriving DecidableEq, Repr

def CanFifo.reset : CanFifo := { elems := [], ovf := false }

/-- A frame on the bus (R355, R366); operand of CAN_FRAME_RX. -/
structure CanFrame where
  xtd : Bool
  rtr : Bool
  id : Nat
  dlc : Nat
  fdf : Bool
  brs : Bool
  esi : Bool
  data : List Byte
  deriving DecidableEq, Repr

/-- A controller. -/
structure CanCtl where
  bufs : Sparse CanBuf
  fifos : Sparse CanFifo
  active : Option Nat
  tec : Nat
  recv : Nat
  /-- Entry to BUS_OFF. -/
  offAt : Nat
  deriving DecidableEq, Repr

def CanCtl.reset : CanCtl := { bufs := [], fifos := [], active := none, tec := 0, recv := 0, offAt := 0 }

/-- CAN. -/
structure CanState where
  ctl : Sparse CanCtl
  /-- TTM slots whose last outcome is a miss that has been recorded (R370). -/
  missed : Sparse Bool
  deriving DecidableEq, Repr

def CanState.reset : CanState := { ctl := [], missed := [] }

end Sys2Proof.Machine
end

