-- ==== Sys2Proof/Machine/StateSys.lean ====
section
/-!
DEFINITION. Sys2Proof/Machine/StateSys.lean: the state of supervision (chapter 1), health monitoring (chapter 16),
clocks and resets (chapter 17) and start-up (chapter 18) that no register holds.
-/
namespace Sys2Proof.Machine

/-- Where the present execution of the firmware stands (R454, R456). -/
inductive FwPhase where
  /-- The loader runs: no image is loaded yet (steps 1 to 5). -/
  | loading
  /-- An image was chosen and its verification runs (step 6). -/
  | verifying
  /-- The firmware serves mailboxes: WIN_STAT.FWUP is 1 (step 9). -/
  | up
  /-- The processors are held after a supervision trip (R36). -/
  | held
  /-- The recovery monitor runs (R464). -/
  | recovery
  deriving DecidableEq, Repr

/-- One line of crossing 1: the source edge that opened its acknowledge phase, and the events that wait for its end (R445). -/
structure EdgeLine where
  since : Option Nat
  waits : Nat
  deriving DecidableEq, Repr

def EdgeLine.idle : EdgeLine := { since := none, waits := 0 }

/-- Supervision, the enable pins and the reset in force. -/
structure SysState where
  /-- A device reset is in force (R448, R449). -/
  inReset : Bool
  phase : FwPhase
  /-- Levels at OUT_EN_A and OUT_EN_B_N after their filters (R15, R184). -/
  enA : Bool
  enBN : Bool
  /-- A supervision trip has forced the outputs off and the firmware has not restarted (R36). -/
  tripped : Bool
  /-- PLL_P is unlocked: the processors stay held (R443). -/
  pllPHold : Bool
  /-- State SCH last issued to a channel's output stage: expected state of R34 (0 OFF, 1 ON). -/
  expected : Sparse Nat
  /-- Steps for which ACTUAL has differed from the expected state (R34). -/
  differ : Sparse Nat
  /-- Protective causes (0x1 to 0x5) that still hold for a channel after their stage released (R29): bit k for cause k. -/
  protCause : Sparse Nat
  /-- ORIGIN class of the last state issued: 0 none since TEST or power-up, 1 map, 2 host or inverse (R29, code 0xC). -/
  lastOrigin : Sparse Nat
  /-- The blocks of the data path have left reset (R454, step 7). -/
  running : Bool
  /-- Blocks that a write of CLK_BRST holds in reset, by bit, with the boundary that releases them (R450). -/
  brst : Sparse Nat
  /-- Sources of device reset in force, as bits of CLK_RST_CAUSE (R448, R449). -/
  sources : Nat
  /-- A mailbox command is being executed: it acts at the coming step boundary (R41). -/
  atBoundary : Bool
  /-- Lines of crossing 1 that are not idle: 0 to 7 index of a port, 8 IMU_DRDY, 9 and 10 PPS, 11 + 2g + i trip (R444, R445). -/
  lines : Sparse EdgeLine
  deriving DecidableEq, Repr

def SysState.reset : SysState :=
  { inReset := false, phase := .loading, enA := false, enBN := true, tripped := false, pllPHold := false, expected := [],
    differ := [], protCause := [], lastOrigin := [], running := false, brst := [], sources := 0, atBoundary := false,
    lines := [] }

/-- What the header of an image and the check of its signature say (R457); operand of FW_END. The layout of the header and
the vendor key are not given, so the check is an input (log entry 3). `version`: [31:24] major, [23:16] minor, [15:0] build. -/
structure ImageHead where
  sigOk : Bool
  stepping : Bool
  version : Word
  svn : Nat
  deriving DecidableEq, Repr

/-- What one image slot of the serial NOR holds (R457, R458). -/
structure ImageRec where
  /-- 0 EMPTY, 1 UNTESTED, 2 TRIAL, 3 VALID, 4 BAD. -/
  state : Nat
  head : ImageHead
  /-- The bytes written; none for the image that the device was delivered with. -/
  bytes : Option (List Byte)
  deriving DecidableEq, Repr

def ImageRec.empty : ImageRec :=
  { state := 0, head := { sigOk := false, stepping := false, version := 0, svn := 0 }, bytes := some [] }

/-- The image in slot A of a delivered device: DESIGN CHOICE, log entry 3. -/
def ImageRec.delivered : ImageRec :=
  { state := 3, head := { sigOk := true, stepping := true, version := 0x03000000#32, svn := 0 }, bytes := none }

/-- An open firmware update (R459). -/
structure Update where
  slot : Nat
  image : Nat
  length : Nat
  written : List Byte
  erasing : Bool
  deriving DecidableEq, Repr

/-- A persistent configuration bank (R466, R467): register values by index and DLY entries by channel. -/
structure CfgBank where
  valid : Bool
  seq : Nat
  regs : Sparse Word
  dly : Sparse (List Byte)
  deriving DecidableEq, Repr

def CfgBank.empty : CfgBank := { valid := false, seq := 0, regs := [], dly := [] }

/-- The serial NOR, the boot choice and what the loader remembers (chapter 18). -/
structure BootState where
  images : Sparse ImageRec
  preferred : Nat
  running : Nat
  minSvn : Nat
  update : Option Update
  banks : Sparse CfgBank
  /-- A CFG SAVE whose bank write runs: bank and content (R466). -/
  saving : Option (Nat × CfgBank)
  /-- Instant of the last SAVE, in 5 ns since power-up (R466). -/
  lastSave : Option Nat
  /-- Instants of the recent supervision trips, newest first (R456). -/
  trips : List Nat
  /-- Mode that the next start takes (R462): 0 service, 2 test, 3 recovery. -/
  nextMode : Nat
  /-- BOOT_SEL_N is low (R465). -/
  bootSelLow : Bool
  /-- The restart in progress follows a supervision trip (R456). -/
  restart : Bool
  /-- Cause bits of the reset in progress, for the record of its end (R451). -/
  causeBits : Nat
  /-- Slot that asked for test mode (R470). -/
  testSlot : Nat
  /-- The TRIAL image has been started (R460). -/
  trialRan : Bool
  /-- The other image is tried (R458). -/
  second : Bool
  /-- Boots since power-up (R471). -/
  boots : Nat
  deriving DecidableEq, Repr

def BootState.reset : BootState :=
  { images := [(0, ImageRec.delivered)], preferred := 0, running := 0, minSvn := 0, update := none, banks := [], saving := none, lastSave := none,
    trips := [], nextMode := 0, bootSelLow := false, restart := false, causeBits := 0, testSlot := 0,
    trialRan := false, second := false, boots := 0 }

/-- Health monitoring. Monitors are numbered T0 to T11 as 0 to 11, V0 to V15 as 16 to 31 and P0 to P7 as 32 to 39. -/
structure MonState where
  /-- The last 16 samples of each monitor, newest first (R426). -/
  samples : Sparse (List Int)
  /-- Consecutive samples at or beyond a limit, by limit number (R427). -/
  beyond : Sparse Nat
  /-- Consecutive samples back inside a limit by its margin (R427). -/
  inside : Sparse Nat
  /-- Limits reached now (R427). -/
  reached : Sparse Bool
  /-- Slack of each run of the last second: lowest value and its replica, newest first (R429). -/
  slackRuns : List (Nat × Nat)
  /-- Seconds for which S_min has been above S_HIGH (R433). -/
  surplus : Nat
  /-- Consecutive requests that failed (R432). -/
  avsFails : Nat
  /-- AUTO acts as OFF until AVS_FLT is cleared and a request succeeds (R432). -/
  avsDead : Bool
  /-- A host has written 1 to AVS_FLT (R432). -/
  avsAck : Bool
  /-- Request in force when LIFE_MIN was last set, mV (R433). -/
  lifeReq : Nat
  /-- Control area: request, G, LIFE_MIN, base frequency of life drift in kHz (R436). -/
  savedReq : Nat
  savedG : Nat
  /-- Guard level that comes into force at the next step boundary (R434). -/
  guardNext : Option Nat
  savedLife : Nat
  savedBase : Option Nat
  savedRo : Nat
  /-- Highest multiple of 0.50 % that RO has passed (R430). -/
  roMult : Nat
  /-- Highest value of each temperature monitor since MAX was last read. -/
  peak : Sparse (Option Int)
  /-- Control area: brown-out and thermal-shutdown marks with their monitor and OPSEC (R428). -/
  borMark : Option (Nat × Word)
  tsdMark : Option (Nat × Word)
  deriving DecidableEq, Repr

def MonState.reset : MonState :=
  { samples := [], beyond := [], inside := [], reached := [], slackRuns := [], surplus := 0, avsFails := 0, avsDead := false, avsAck := false,
    lifeReq := 800, savedReq := 800, savedG := 0, guardNext := none, savedLife := 255, savedBase := none, savedRo := 0, roMult := 0, peak := [], borMark := none, tsdMark := none }

end Sys2Proof.Machine
end

