-- ==== Sys2Proof/Syntax.lean ====
section
/-!
DEFINITION. Sys2Proof/Syntax.lean: the commands of the block, one constructor per row of spec/opcode_table.json, in the
table's order but for three without operands, which stand last. An operand is what the row takes from outside the device (log entry 5): a host slot `h`, an instance number, the
value written, the instant `t` in 5 ns since the last step boundary, or what was measured or received. A mailbox
command's payload is not an operand: it is in the frame at the head of the slot's request ring.
-/
namespace Sys2Proof

open Sys2Proof.Machine

/-- The commands (spec/opcode_table.json). -/
inductive Instr where
  /-- POWER_UP (R454): Supplies enter range and RESET_N is high; the device runs the power-up sequence from POR release.
  -/
  | powerUp (bootSelLow : Bool)
  /-- RESET_N (R448): RESET_N is held low for 10 µs or more, which starts a device reset. -/
  | resetN (t : Nat) (ns : Nat)
  /-- BROWN_OUT (R428): A monitored supply falls below its brown-out threshold for 1 µs and the device is reset. -/
  | brownOut (v : Nat) (t : Nat)
  /-- BROWN_OUT_RELEASE (R428): The supply has been above its threshold plus 2 % for 10 ms and the brown-out reset is
  released. -/
  | brownOutRelease (t : Nat)
  /-- THERMAL_SHUTDOWN (R428): A logic-die sensor reaches 155 °C and the device is reset. -/
  | thermalShutdown (i : Nat) (t : Nat)
  /-- THERMAL_SHUTDOWN_RELEASE (R428): All logic-die sensors stay below 140 °C for 1 s and the shutdown reset is
  released. -/
  | thermalShutdownRelease (t : Nat)
  /-- VCORE_OVERVOLTAGE (R428): V0 is above 0.92 V for 10 µs; MON requests 0.80 V, sets VOV and enters FIXED. -/
  | vcoreOvervoltage (v0 : Nat)
  /-- TCXO_MISSING (R443): No TCXO edge is seen for 2 µs; the device is held in reset with cause CLKLOSS. -/
  | tcxoMissing (t : Nat)
  /-- TCXO_PRESENT (R442): TCXO edges are present again for 1 ms. -/
  | tcxoPresent (t : Nat)
  /-- PLL_LOCK (R442): A PLL stays within ±200 ps for 4,096 reference cycles and is declared locked. -/
  | pllLock (k : Nat) (t : Nat)
  /-- PLL_UNLOCK (R443): A PLL loses lock and the response for that PLL applies: device reset, supervision trip or GNSS
  epoch loss. -/
  | pllUnlock (k : Nat) (t : Nat)
  /-- LOCKSTEP_ERROR (R36): The lockstep comparator detects a difference; outputs are forced off, CAUSE 0x2 is set and
  the processors are held. -/
  | lockstepError (t : Nat)
  /-- HEARTBEAT_TIMEOUT (R36): The firmware misses its heartbeat for SYS_SUPV_CTRL.TIMEOUT and a supervision trip
  follows. -/
  | heartbeatTimeout (t : Nat)
  /-- FIRMWARE_RESTART (R456): After a supervision trip the loader restarts the image from step 6 without resetting the
  data path. -/
  | firmwareRestart
  /-- IMAGE_VERIFIED (R457): Signature verification of the chosen image completes and the image is loaded. -/
  | imageVerified (t : Nat)
  /-- ENABLE_LOSS (R15): OUT_EN_A or OUT_EN_B_N becomes inactive; every local and PWM output is forced off within 2 µs
  and the rings are stopped. -/
  | enableLoss (a : Bool) (bn : Bool) (t : Nat)
  /-- ENABLE_RESTORED (R16): Both enables are active again; no output restarts until it is re-commanded. -/
  | enableRestored
  /-- KINEMATIC_STEP (R19): At a step boundary the data path latches its inputs and runs KIN, MAP and SCH phases for the
  step. -/
  | kinematicStep (pins : List TripPin) (tc : List TcValue)
  /-- RETAIN_TIMEOUT (R82): A retained terminal slot becomes FREE SCH_RETAIN.VAL ms after it became terminal. -/
  | retainTimeout (i : Nat)
  /-- CONFIRM_TIMEOUT (R81): No motion report arrives within D_ACT + SCH_CONF_TMO, and the slot completes DONE with
  NOCONF. -/
  | confirmTimeout (i : Nat)
  /-- MISMATCH_SET (R34): ACTUAL has differed from the expected state for the grace time; MISMATCH is set and recorded.
  -/
  | mismatchSet (c : Nat)
  /-- GNSS_LOST (R59): No usable GNSS solution has been latched for 150 ms. -/
  | gnssLost
  /-- STANDSTILL (R64): The standstill conditions hold for KIN_STILL.TIME and the motion values are forced to 0. -/
  | standstill
  /-- HITCH_ENCODER_FAIL (R54): The hitch encoder faults, times out or leaves ±80°, and KIN falls back or invalidates
  the trailed body. -/
  | hitchEncoderFail
  /-- HITCH_ENCODER_RETURN (R54): The hitch encoder delivers valid words within ±80° for 100 ms. -/
  | hitchEncoderReturn
  /-- DR_LIMIT_PASSED (R69): A dead-reckoning distance or time limit is passed and the validity it governs falls to 0.
  -/
  | drLimitPassed
  /-- EDGE_FIRE (R86): A local edge leaves the issue stage at its firing instant and reaches the pin 200 ns later. -/
  | edgeFire (c : Nat)
  /-- PEAK_CURRENT_REACHED (R151): The coil current reaches I_PEAK; regulation starts and an open ON window closes
  MASKED. -/
  | peakCurrentReached (c : Nat) (t : Nat) (t0 : Nat) (l : List Nat)
  /-- PEAK_END (R171): T_PEAK expires; the channel goes to hold and the next waiting channel is granted. -/
  | peakEnd (g : Nat)
  /-- GRID_RISE (R174): A NOZZLE_PWM grid rise opens a new pulse with a peak phase. -/
  | gridRise (c : Nat)
  /-- PULSE_FALL (R174): A NOZZLE_PWM pulse closes after its on time h. -/
  | pulseFall (c : Nat)
  /-- SENSED_RELEASE_END (R172): A sensed release ends when the current falls below 20 mA, and the freewheel switch
  opens. -/
  | sensedReleaseEnd (c : Nat)
  /-- MOTION_REPORT (R150): The Tongs decide a dip, hump or knee and report the motion instant to SCH and MAP. -/
  | motionReport (c : Nat) (t0 : Nat) (l : List Nat)
  /-- WINDOW_CLOSE (R154): A detection window reaches its end without a feature and closes with its result. -/
  | windowClose (c : Nat) (t0 : Nat) (l : List Nat)
  /-- OPEN_LOAD_ON (R187): The current stays below OL_I for OL_T while energised; the channel is switched off and
  latched. -/
  | openLoadOn (c : Nat) (t : Nat)
  /-- OPEN_LOAD_OFF (R187): The off-state diagnostic detects an open load and sets OL_OFF. -/
  | openLoadOff (c : Nat)
  /-- LS_OVERCURRENT (R187): The low-side current reaches I_SC; the channel is switched off within 1 µs and latched. -/
  | lsOvercurrent (c : Nat) (t : Nat)
  /-- SHORT_TO_GROUND (R187): High-side current flows with every switch of the group open; the group is switched off and
  latched. -/
  | shortToGround (c : Nat) (t : Nat)
  /-- HS_OVERCURRENT (R187): The high-side current reaches 18 A; the group is switched off within 1 µs. -/
  | hsOvercurrent (g : Nat) (t : Nat)
  /-- CH_OVERTEMP (R187): A channel switch junction reaches 175 °C and the channel is switched off. -/
  | chOvertemp (c : Nat) (t : Nat)
  /-- TEMP_WARNING (R187): A channel switch junction reaches 150 °C and OT_WARN is set. -/
  | tempWarning (c : Nat)
  /-- HS_OVERTEMP (R187): The high-side switch junction reaches 175 °C and the group is switched off. -/
  | hsOvertemp (g : Nat) (t : Nat)
  /-- GROUP_UNDERVOLTAGE (R187): VBATg is below UV_TH for 50 µs and the group is switched off. -/
  | groupUndervoltage (g : Nat) (t : Nat)
  /-- GROUP_OVERVOLTAGE (R187): VBATg is above 38 V for 50 µs and the group is switched off. -/
  | groupOvervoltage (g : Nat) (t : Nat)
  /-- AUTO_PROTECTION_RELEASE (R188): The condition of an automatic protection clears for its release time and the
  protection releases. -/
  | autoProtectionRelease (grp : Bool) (n : Nat) (k : Nat)
  /-- KETTLE_TICK (R189): Every 1 ms the Kettle forms P_k and filters it into P_f. -/
  | kettleTick (l : List DrvSum)
  /-- KETTLE_EVALUATION (R190): Every 16 ms the Kettle evaluates its stages and adjusts the class limits. -/
  | kettleEvaluation (t : Nat)
  /-- DRV_EN (R166): A write of DRV_CTRL.EN allows or blocks the high-side switches from the next boundary. -/
  | drvEn (h : Nat) (en : Bool)
  /-- GROUP_EN (R166): A write of DRV_GRP_CTRL.EN enables or disables a group's high-side switch. -/
  | groupEn (h : Nat) (g : Nat) (en : Bool)
  /-- RESUME (R186): DRV_CH_MODE.RESUME clears FORCED and re-applies the channel's state. -/
  | resume (h : Nat) (c : Nat)
  /-- RESUME_ALL (R186): DRV_CTRL.RESUME_ALL re-commands every local channel that the writer leases. -/
  | resumeAll (h : Nat)
  /-- DRV_MODE_WRITE (R169): A write of DRV_CH_MODE.MODE is accepted only while the channel is off and idle. -/
  | drvModeWrite (h : Nat) (c : Nat) (mode : Nat)
  /-- PAIR_WRITE (R180): A write of DRV_CH_MODE.PAIR pairs or unpairs two channels. -/
  | pairWrite (h : Nat) (c : Nat) (pair : Bool)
  /-- PROTECTION_FLAG_CLEAR (R188): A W1C write to a DRV channel or group flag releases a latched protection if its
  condition is absent. -/
  | protectionFlagClear (h : Nat) (grp : Bool) (n : Nat) (flags : Word)
  /-- RING_CYCLE (R200): A 50 µs ring cycle is sent, and its returned command and report areas are processed. -/
  | ringCycle (r : Nat) (b : RingBack)
  /-- RING_BREAK (R226): The frame fails to return twice, or port 1 loses signal, and the ring enters BROKEN. -/
  | ringBreak (r : Nat) (pos : Nat)
  /-- REPORT_AREA_TIMEOUT (R219): No valid report area has arrived for 4 or WD + 4 cycles, and the channels become
  UNKNOWN or OFF. -/
  | reportAreaTimeout (r : Nat) (n : Nat)
  /-- TAG_RELEASE (R209): A busy tag becomes free 1 ms after its T_X or after its retries have run out. -/
  | tagRelease (r : Nat) (n : Nat) (t : Nat)
  /-- FJL_EN (R205): A write of FJL_CTRL.EN starts enumeration or stops the ring. -/
  | fjlEn (h : Nat) (r : Nat) (en : Bool)
  /-- HEAL (R228): FJL_CTRL.HEAL sends UNWRAP and returns a broken ring to OPER. -/
  | heal (h : Nat) (r : Nat)
  /-- FJL_RESUME_ALL (R223): FJL_CTRL.RESUME_ALL re-commands the writer's leased channels of the ring. -/
  | fjlResumeAll (h : Nat) (r : Nat)
  /-- RING_SAFE_WRITE (R223): FJL_CTRL.SAFE sets or clears the SAFE flag in every CYC. -/
  | ringSafeWrite (h : Nat) (r : Nat) (safe : Bool)
  /-- NODE_RESUME (R223): FJL_NODE_CTRL.RESUME re-commands the writer's leased channels of a node. -/
  | nodeResume (h : Nat) (r : Nat) (n : Nat)
  /-- NODE_CLR_FLT (R225): FJL_NODE_CTRL.CLR_FLT sends CLR_FLT to a node. -/
  | nodeClrFlt (h : Nat) (r : Nat) (n : Nat)
  /-- CH_APPLY (R221): FJL_CH_APPLY.GO sends CFG_CH for the selected remote channel. -/
  | chApply (h : Nat) (r : Nat)
  /-- LOOP_SAMPLE (R240): At a loop sample instant CLE computes the loop's terms and output. -/
  | loopSample (n : Nat)
  /-- LOOP_OUTPUT (R244): At t_k + OPH the loop writes u to its destination. -/
  | loopOutput (n : Nat)
  /-- SATURATION_ALARM (R254): The saturation timer reaches SAT_T; SATALM is set and the loop may go OFF. -/
  | saturationAlarm (n : Nat)
  /-- LOOP_MODE_WRITE (R250): A write of CLE_LP_CTRL.MODE makes a mode transfer at the loop's next sample. -/
  | loopModeWrite (h : Nat) (n : Nat) (mode : Nat)
  /-- CLE_EN (R253): A write of CLE_CTRL.EN enables the engine, or clears it and puts every loop to OFF. -/
  | cleEn (h : Nat) (en : Bool)
  /-- INJ_GO (R255): CLE_INJ_CTRL.GO starts a test signal on a loop. -/
  | injGo (h : Nat) (setting : Nat)
  /-- INJ_STOP (R255): CLE_INJ_CTRL.STOP ends the injection. -/
  | injStop (h : Nat)
  /-- INJECTION_END (R255): The injection duration DUR expires and j returns to 0. -/
  | injectionEnd
  /-- CAP_ARM (R256): CLE_CAP_CTRL.ARM arms capture on a loop. -/
  | capArm (h : Nat) (setting : Nat)
  /-- CAP_ABORT (R256): CLE_CAP_CTRL.ABORT returns capture to IDLE and clears CAP. -/
  | capAbort (h : Nat)
  /-- PERIOD_BOUNDARY (R260): A PWM group counter returns to 0 and the period starts. -/
  | periodBoundary (g : Nat)
  /-- SHADOW_WRITE (R268): A host or loop write of a shadow PRD, DT, MIN or CMP is recorded and waits for its copy. -/
  | shadowWrite (h : Nat) (g : Nat) (off : Nat) (mask : Word) (v : Word)
  /-- PWM_LOADALL (R267): A PWM_LOADALL write arms a load-all copy in the named groups. -/
  | pwmLoadall (h : Nat) (groups : Nat)
  /-- PWM_START (R271): A write of PWM_GRP_CTRL.EN starts or stops a group at a step boundary. -/
  | pwmStart (h : Nat) (g : Nat) (en : Bool)
  /-- PWM_TRIP (R273): A Colander filter output becomes active; all six outputs go high impedance and the counter stops.
  -/
  | pwmTrip (p : TripPin)
  /-- TRIP_CLEAR (R274): A write of 1 to TRIPi clears the trip if the input is QUIET. -/
  | tripClear (h : Nat) (g : Nat) (trips : Nat)
  /-- PWM_RESUME (R275): PWM_GRP_CTRL.RESUME restarts a group after a trip or a forced state. -/
  | pwmResume (h : Nat) (g : Nat)
  /-- DELAY_LINE_LOCK (R262): The delay-line trim locks and fine edges are enabled. -/
  | delayLineLock (trim : Nat)
  /-- SERIAL_READ_START (R282): A shaft port in SERIAL starts a read at its read period. -/
  | serialReadStart (p : Nat)
  /-- SERIAL_READ_DONE (R283): A serial word completes and POS and ANG are updated, or the read fails. -/
  | serialReadDone (p : Nat) (w : SerialWord)
  /-- QUAD_TRANSITION (R284): A filtered A/B change moves the count, or counts an illegal transition. -/
  | quadTransition (u : Nat) (a : Bool) (b : Bool) (n : Nat) (t : Nat)
  /-- INDEX_EDGE (R286): A rising Z edge captures the count, and zeroes it under ZMODE. -/
  | indexEdge (p : Nat) (z : Bool) (n : Nat) (t : Nat)
  /-- SPEED_WINDOW_END (R287): A speed window ends and SPD, FREQ or the ISO speed is updated. -/
  | speedWindowEnd (u : Nat)
  /-- WHEEL_PULSE (R288): A wheel pulse edge moves the wheel count. -/
  | wheelPulse (w : Nat) (rising : Bool) (bHigh : Bool) (n : Nat) (t : Nat)
  /-- FLOW_EDGE (R291): A debounced flow-meter edge is accepted and counted. -/
  | flowEdge (f : Nat) (rising : Bool) (len : Nat)
  /-- PORT_MODE_WRITE (R281): A write of ENC_PT_CFG.MODE moves a port between OFF, SERIAL and QUAD. -/
  | portModeWrite (h : Nat) (p : Nat) (mode : Nat)
  /-- PORT_FAULT_CLEAR (R281): A W1C of the causing port flags releases FAULT or ends a fallback. -/
  | portFaultClear (h : Nat) (p : Nat) (flags : Nat)
  /-- AIN_CONVERSION (R292): An analogue input converts, every 10 µs, and CODE is updated. -/
  | ainConversion (a : Nat) (code : Nat)
  /-- AIN_FAULT (R292): CODE lies outside LO to HI for FT ms; FAULT and LOF or HIF are set. -/
  | ainFault (a : Nat)
  /-- AIN_FAULT_CLEAR (R292): CODE has been back within its limits for FT ms and FAULT clears. -/
  | ainFaultClear (a : Nat)
  /-- IMU_DRDY (R293): An accepted DRDY edge starts an IMU burst read and delivers a sample. -/
  | imuDrdy (t : Nat) (b : List Byte)
  /-- IMU_TIMEOUT (R294): No DRDY edge is accepted for TMO ms; VALID falls and TMOF is set. -/
  | imuTimeout (t : Nat)
  /-- IMU_XFER_WRITE (R294): SNS_IMU_XFER.WR writes one IMU register. -/
  | imuXferWrite (h : Nat) (addr : Nat) (data : Nat)
  /-- IMU_XFER_READ (R294): SNS_IMU_XFER.RD reads one IMU register. -/
  | imuXferRead (h : Nat) (addr : Nat) (back : Nat)
  /-- MEAS_EPOCH (R312): At each 50 ms TB0 instant all slots are latched into a measurement epoch. -/
  | measEpoch (t : Nat) (l : List SlotMeas) (sky : List GnsCand) (r0 : PortRf) (r1 : PortRf) (lock : Bool)
  /-- SOLUTION (R317): The firmware computes the epoch's solution and hands it to KIN. -/
  | solution (t : Nat) (x : SolIn)
  /-- ACQ_DWELL (R305): A serial-search dwell completes and detects, confirms or moves on. -/
  | acqDwell (i : Nat) (detected : Bool)
  /-- AIDED_SEARCH (R306): An aided-engine dwell completes for a LOST slot. -/
  | aidedSearch (i : Nat) (t : Nat) (eph : Bool) (detected : Bool)
  /-- PULLIN_TO_TRACK (R309): CODE_LOCK and PH_LOCK have held for 20 ms and the slot passes to TRACK. -/
  | pullinToTrack (i : Nat) (l : List (Bool × Nat))
  /-- TRACK_LOSS (R309): C/N0 stays low for LOSS_T, or CODE_LOCK is false for 200 ms, and the slot passes to LOST. -/
  | trackLoss (i : Nat) (t : Nat) (l : List (Nat × Bool))
  /-- LOST_HOLD_EXPIRY (R303): A LOST slot is released to IDLE after GNS_AID.HOLD seconds. -/
  | lostHoldExpiry (i : Nat) (t : Nat)
  /-- NAV_UNIT (R315): A complete navigation unit is decoded and stored. -/
  | navUnit (i : Nat) (unit : Nat) (status : Nat) (ok : Bool) (edge : Nat) (b : List Bool) (leap : Option LeapData)
  /-- ANT_OPEN (R300): The bias current stays below 3 mA for 1 s and OPEN is set. -/
  | antOpen (q : Nat)
  /-- ANT_SHORT (R300): The bias current is at ILIM for 1 ms; SHORT is set and the switch opens. -/
  | antShort (q : Nat) (t : Nat)
  /-- BIAS_RECLOSE (R300): The bias switch closes again 1 s after a short. -/
  | biasReclose (q : Nat) (t : Nat)
  /-- CORRECTION_AGE_EXCEEDED (R318): The correction age exceeds AGE_MAX and the solution falls to TYPE 1. -/
  | correctionAgeExceeded (t : Nat)
  /-- SOURCE_HOLD_EXPIRY (R321): The correction source delivers nothing for SRC_HOLD and is released. -/
  | sourceHoldExpiry (t : Nat)
  /-- GNS_RST (R298): GNS_CTRL.RST resets the GNSS receiver. -/
  | gnsRst (h : Nat)
  /-- SLOT_PIN (R304): A GNS_SLOT_CFG write pins or unpins a slot at the next epoch. -/
  | slotPin (h : Nat) (v : Word)
  /-- PPS_PULSE (R334): A pulse leaves at the first edge at which its time base reaches N. -/
  | ppsPulse (x : Nat) (t : Nat)
  /-- HOLDOVER_ENTRY (R330): No steering update has been applied to TB0 for 1 s, and HOLDOVER is set. -/
  | holdoverEntry (t : Nat)
  /-- HOLDOVER_LIMIT (R332): Holdover has lasted TIM_HO_CFG.LIMIT; LIMIT is set and PPS stops or continues flagged. -/
  | holdoverLimit (t : Nat)
  /-- LEAP_SECOND (R327): At TIM_LEAP_AT.SEC the UTC offset takes the next value. -/
  | leapSecond (t : Nat)
  /-- TB_SNAP (R326): TIM_CTRL.SNAP latches all time bases at the step boundary. -/
  | tbSnap (h : Nat)
  /-- TB_SET (R325): ADJ = SET loads a time base with ADJ at the boundary. -/
  | tbSet (h : Nat) (n : Nat) (adj : BitVec 64)
  /-- TB_STEP (R325): ADJ = STEP adds a signed offset at the boundary, or waits for a whole second. -/
  | tbStep (h : Nat) (n : Nat) (atSec : Bool) (adj : BitVec 64)
  /-- TB_SLEW (R325): ADJ = SLEW starts removing an offset at SLEWR. -/
  | tbSlew (h : Nat) (n : Nat) (adj : BitVec 64)
  /-- STEP_AT_SECOND (R325): A STEP with AT_SEC takes effect when the count reaches a whole second. -/
  | stepAtSecond (n : Nat) (t : Nat)
  /-- SLEW_COMPLETE (R325): The slew remainder reaches 0 and SLEWING clears. -/
  | slewComplete (n : Nat) (t : Nat)
  /-- ETH_FRAME_RX (R339): A frame received on a port is switched, dropped or delivered to the internal MAC. -/
  | ethFrameRx (f : EthFrame)
  /-- INSERT (R347): ETH_BYP_CTRL.INSERT energises the relay coil and starts insertion. -/
  | insert (h : Nat)
  /-- AUTO_INSERT (R347): With AUTO_INS, insertion starts by itself at the first boundary at which its conditions hold.
  -/
  | autoInsert
  /-- BYP_SENSE_CHANGE (R347): BYP_SENSE changes and the relay reaches its inserted or bypass position. -/
  | bypSenseChange (lvl : Bool) (t : Nat)
  /-- INSERTION_COMPLETE (R347): Both ports report LINK after the make; STATE becomes INSERTED and forwarding starts. -/
  | insertionComplete
  /-- LINK_TIMEOUT (R347): The links are not up within LINK_T of the make and the relay returns to bypass. -/
  | linkTimeout (t : Nat)
  /-- RELAY_FAULT (R348): BYP_COIL and BYP_SENSE disagree for 20 ms and STATE becomes FAULT. -/
  | relayFault (t : Nat)
  /-- BYPASS (R348): ETH_BYP_CTRL.BYPASS returns the relay to bypass. -/
  | bypass (h : Nat)
  /-- LINK_LOSS (R348): A line port has been without link for LOSS_T, and with AUTO_BYP the relay returns to bypass. -/
  | linkLoss
  /-- RELAY_FAULT_CLEAR (R348): A write of 1 to ETH_BYP_STAT.FLT leaves FAULT for BYPASS when the relay is in bypass. -/
  | relayFaultClear (h : Nat)
  /-- CAN_EN (R354): A write of CAN_CTRL.EN enables the controller, or ends traffic and aborts the pending buffers. -/
  | canEn (h : Nat) (x : Nat) (en : Bool)
  /-- BUS_SYNC (R354): The controller sees 11 recessive bits and joins bus traffic. -/
  | busSync (x : Nat)
  /-- CAN_FRAME_RX (R366): A frame received without error is filtered and stored in FIFOs. -/
  | canFrameRx (x : Nat) (t : Nat) (f : CanFrame) (lost : Bool)
  /-- TX_ATTEMPT_END (R360): A transmit attempt ends in success or error; the buffer state, retries and the next
  arbitration follow. -/
  | txAttemptEnd (x : Nat) (t : Nat) (sof : Nat) (lec : Nat) (tdcv : Nat)
  /-- CAN_ERROR (R372): A bus error updates TEC and REC and may change the error state or enter BUS_OFF. -/
  | canError (x : Nat) (t : Nat) (lec : Nat) (tx : Bool) (dom : Bool) (exempt : Bool)
  /-- TRANSMIT_AT_TIME (R361): The named time base reaches TIME and the buffer becomes eligible. -/
  | transmitAtTime (x : Nat) (b : Nat) (t : Nat)
  /-- LATE_WIN_EXPIRY (R361): A transmit-at-time frame has not started by TIME + LATE_WIN and goes to LATE. -/
  | lateWinExpiry (x : Nat) (b : Nat) (t : Nat)
  /-- TT_SLOT (R370): A TTM slot instant makes its buffer eligible. -/
  | ttSlot (r : Nat) (c : Nat) (t : Nat)
  /-- TT_WINDOW_EXPIRY (R370): The slot window ends without success; the slot is counted as missed. -/
  | ttWindowExpiry (r : Nat) (c : Nat) (t : Nat)
  /-- BO_DELAY_EXPIRY (R375): BO_DLY after bus-off expires and recovery starts in AUTO. -/
  | boDelayExpiry (x : Nat) (t : Nat)
  /-- RECOVER (R375): CAN_CTRL.RECOVER starts bus-off recovery in HOST mode. -/
  | recover (h : Nat) (x : Nat)
  /-- RECOVERY_DONE (R375): 128 runs of 11 recessive bits complete; TEC and REC reset and ERR_ACTIVE is entered. -/
  | recoveryDone (x : Nat)
  /-- ADDRESS_CLAIMED (R376): The firmware completes its ISO 11783-5 address claim on CAN_A. -/
  | addressClaimed (sa : Nat)
  /-- ADDRESS_LOST (R376): The claimed ISOBUS address is lost; LOST is set. -/
  | addressLost
  /-- NEXT_SEARCH_DONE (R414): The recorder finds NEXT after power-up and writes POWER_UP. -/
  | nextSearchDone
  /-- RECORD_WRITTEN (R415): A record write completes and the next staged entry is taken. -/
  | recordWritten
  /-- FREEZE_TMO (R417): A freeze lasts FRZ_MAX seconds and ends with a FREEZE_TMO record. -/
  | freezeTmo (t : Nat)
  /-- CLEAR_DONE (R422): An authorised clear finishes; CLEARED is written at index 0. -/
  | clearDone
  /-- LOCKOUT_END (R422): The 60 s challenge lockout after repeated failures ends. -/
  | lockoutEnd (t : Nat)
  /-- NONCE_EXPIRY (R421): A clear nonce becomes invalid 60 s after the challenge. -/
  | nonceExpiry (t : Nat)
  /-- OPSEC_SAVE (R413): Each second of operation OPSEC is saved in the control area. -/
  | opsecSave
  /-- MON_SAMPLE (R426): Every 1 ms MON samples its temperature, voltage and process monitors. -/
  | monSample (l : List Int)
  /-- LIMIT_REACHED (R427): A value is beyond a limit for 10 samples; the condition and the sticky flag are set. -/
  | limitReached (k : Nat)
  /-- LIMIT_LEFT (R427): A value is back inside a limit by the margin for 100 samples. -/
  | limitLeft (k : Nat)
  /-- SLACK_RUN (R429): Every 10 ms the replicas measure slack and S_min is updated. -/
  | slackRun (l : List Nat)
  /-- AVS_EVALUATION (R433): Once per second in AUTO, MON adjusts the VCORE request or the guard level. -/
  | avsEvaluation
  /-- AVS_READBACK (R431): 1 ms after a request MON reads back the voltage and compares it with V0. -/
  | avsReadback (answered : Bool) (mv : Nat)
  /-- AVS_MODE_WRITE (R432): A MON_CTRL.AVS or MON_AVS_SET write selects the voltage mode, written at the boundary. -/
  | avsModeWrite (h : Nat) (set : Bool) (v : Nat)
  /-- LOGIC_DISSIPATION (R437): Every 16 ms MON computes P_logic. -/
  | logicDissipation (dyn : Nat) (leak : Nat)
  /-- LIFE_DRIFT (R430): Once per qualifying operating hour MON measures the ring-oscillator drift. -/
  | lifeDrift
  /-- CROSS_TIMEOUT (R446): Data held for a stopped clock exceeds CLK_XCFG.TMO and is discarded. -/
  | crossTimeout (x : Nat) (units : Nat)
  /-- CROSS_RESYNC (R447): One side of a crossing is reset; the running side discards in-flight units and
  resynchronises. -/
  | crossResync (x : Nat) (units : Nat)
  /-- BLOCK_RESET (R450): A CLK_BRST write resets the named block at the next step boundary. -/
  | blockReset (h : Nat) (v : Word)
  /-- BLOCK_RESET_RELEASE (R450): The block is released from its reset at the following step boundary. -/
  | blockResetRelease (k : Nat)
  /-- WIN_READ (R382): An SPI WIN_READ returns direct-window registers, and advances the recorder cursor when it covers
  0x19. -/
  | winRead (mosi : List Byte) (t : Nat)
  /-- WIN_WRITE (R409): An SPI WIN_WRITE writes direct-window registers that have no row of their own. -/
  | winWrite (mosi : List Byte) (t : Nat)
  /-- WIN_ACK (R392): A WIN_ACK write releases results up to the named tag. -/
  | winAck (seq : Nat) (t : Nat)
  /-- WINDOW_FREEZE (R423): A write of REC_CUR.FREEZE freezes or releases the log for the window. -/
  | windowFreeze (idx : Nat) (freeze : Bool) (t : Nat)
  /-- REQ_WRITE (R382): An SPI REQ_WRITE appends whole mailbox frames to the request ring. -/
  | reqWrite (mosi : List Byte) (t : Nat)
  /-- RSP_READ (R392): An SPI RSP_READ returns the current result without consuming it. -/
  | rspRead (mosi : List Byte) (t : Nat)
  /-- UDP_DATAGRAM (R384): A mailbox datagram arrives on the UDP port and its frames go to the bound slot. -/
  | udpDatagram (ip : Word) (port : Word) (b : List Byte) (t : Nat)
  /-- CANB_SEGMENT (R385): A host segment arrives on CAN_B and is reassembled into a mailbox frame. -/
  | canbSegment (b : List Byte) (t : Nat)
  /-- SEGMENT_TIMEOUT (R385): More than 10 ms pass between two CAN_B segments and the message is discarded. -/
  | segmentTimeout (t : Nat)
  /-- KEEP_ALIVE_EXPIRY (R397): A slot accepts no frame for KA ms and is detached. -/
  | keepAliveExpiry (h : Nat) (t : Nat)
  /-- TC_CONNECT (R386): The task-controller client connects, and the ISOBUS slot attaches and leases its sections. -/
  | tcConnect
  /-- NOP (R404): NOP completes with no effect and renews the keep-alive. -/
  | nop (h : Nat)
  /-- IDENTIFY (R404): IDENTIFY returns the device and firmware identity. -/
  | identify (h : Nat)
  /-- ATTACH (R395): ATTACH attaches a slot in a role, or changes its role. -/
  | attach (h : Nat)
  /-- DETACH (R397): DETACH detaches the slot and loses its leases. -/
  | detach (h : Nat)
  /-- FENCE (R42): FENCE completes after every earlier command of the host. -/
  | fence (h : Nat)
  /-- RSP_REPEAT (R404): RSP_REPEAT sends the unreleased results again from a given tag. -/
  | rspRepeat (h : Nat)
  /-- NOTIFY_CFG (R404): NOTIFY_CFG sets the slot's notification mask. -/
  | notifyCfg (h : Nat)
  /-- PARAM_READ (R405): PARAM_READ reads registers from one step and clears RC fields. -/
  | paramRead (h : Nat)
  /-- PARAM_WRITE (R406): PARAM_WRITE checks and writes masked register items at one step boundary. -/
  | paramWrite (h : Nat)
  /-- STATE_WORD_WRITE (R27): A write to a state word changes REQ at the lease holder's request. -/
  | stateWordWrite (h : Nat) (kind : Nat) (n : Nat) (v : Word)
  /-- KIN_EN (R72): A write of KIN_CTRL.EN starts or stops propagation. -/
  | kinEn (h : Nat) (en : Bool)
  /-- SCH_EN (R107): A write of SCH_CTRL.EN enables scheduling, or clears it and cancels every occupied slot. -/
  | schEn (h : Nat) (en : Bool)
  /-- MAP_EN (R128): A write of MAP_CTRL.EN starts tests with DES OFF, or stops them and withdraws map events. -/
  | mapEn (h : Nat) (en : Bool)
  /-- KIN_CH_SEL (R74): A write to KIN_CH_SEL latches the KIN channel window for the writing slot. -/
  | kinChSel (h : Nat) (v : Word)
  /-- SCH_SLOT_SEL (R108): A write to SCH_SLOT_SEL latches the slot window. -/
  | schSlotSel (h : Nat) (v : Word)
  /-- SCH_CH_SEL (R108): A write to SCH_CH_SEL latches the SCH channel window. -/
  | schChSel (h : Nat) (v : Word)
  /-- MAP_CH_SEL (R147): A write to MAP_CH_SEL latches the MAP channel window. -/
  | mapChSel (h : Nat) (v : Word)
  /-- ACT_CH_SEL (R163): A write to ACT_CH_SEL latches the ACT channel window. -/
  | actChSel (h : Nat) (v : Word)
  /-- GNS_SLOT_SEL (R322): A write to GNS_SLOT_SEL latches the GNSS slot window from the last epoch. -/
  | gnsSlotSel (h : Nat) (v : Word)
  /-- ALARM_FLAG_CLEAR (R163): A write of 1 to ACT_CH_ALM clears drift and signal flags of the selected channel. -/
  | alarmFlagClear (h : Nat) (flags : Nat)
  /-- CLR_COV (R146): MAP_CLR.COV starts clearing every coverage count. -/
  | clrCov (h : Nat)
  /-- CLR_EXC (R146): MAP_CLR.EXC starts clearing every exclusion bit. -/
  | clrExc (h : Nat)
  /-- CLR_ZONE (R146): MAP_CLR.ZONE starts clearing every prescription zone. -/
  | clrZone (h : Nat)
  /-- CLR_ALL (R146): MAP_CLR.ALL starts freeing every tile and directory block. -/
  | clrAll (h : Nat)
  /-- MAP_CLEAR_DONE (R146): A map clear completes and comes into force at the next boundary. -/
  | mapClearDone
  /-- RASTER_GO (R140): MAP_PLY_CTRL.GO starts a rasterisation pass, or refuses it for an invalid header. -/
  | rasterGo (h : Nat)
  /-- RASTER_PASS_END (R142): A rasterisation pass completes and an event record is written. -/
  | rasterPassEnd
  /-- TABLE_READ (R407): TABLE_READ returns table entries from one step. -/
  | tableRead (h : Nat)
  /-- TABLE_WRITE (R407): TABLE_WRITE checks entries in whole and writes them at one boundary. -/
  | tableWrite (h : Nat)
  /-- LEASE (R398): LEASE grants, or refuses in whole, leases on resources, and may take them. -/
  | lease (h : Nat)
  /-- RELEASE (R399): RELEASE gives up leases and sets the resources down. -/
  | release (h : Nat)
  /-- EVENT_POST (R98): EVENT_POST accepts host events into slots, or refuses the whole post. -/
  | eventPost (h : Nat)
  /-- EVENT_CANCEL (R101): EVENT_CANCEL withdraws events by handle, channel or section. -/
  | eventCancel (h : Nat)
  /-- TILE_READ (R143): TILE_READ returns one chunk of a map tile. -/
  | tileRead (h : Nat)
  /-- TILE_WRITE (R144): TILE_WRITE replaces or merges cells, or sets a tile fill. -/
  | tileWrite (h : Nat)
  /-- GNS_MEAS_READ (R313): GNS_MEAS_READ returns an epoch header and its records. -/
  | gnsMeasRead (h : Nat)
  /-- GNS_NAV_READ (R316): GNS_NAV_READ returns stored navigation units. -/
  | gnsNavRead (h : Nat)
  /-- RTCM_WRITE (R320): RTCM_WRITE feeds correction bytes to the host's RTCM parser. -/
  | rtcmWrite (h : Nat)
  /-- CAN_SEND (R363): CAN_SEND loads transmit buffers with frames. -/
  | canSend (h : Nat)
  /-- CAN_RECV (R364): CAN_RECV returns and removes elements from a FIFO. -/
  | canRecv (h : Nat)
  /-- CAN_ABORT (R365): CAN_ABORT withdraws the host's own transmit buffers. -/
  | canAbort (h : Nat)
  /-- REC_READ (R418): REC_READ returns records of the event log. -/
  | recRead (h : Nat)
  /-- REC_FREEZE (R419): REC_FREEZE freezes or releases the log for the slot. -/
  | recFreeze (h : Nat)
  /-- REC_CHALLENGE (R421): REC_CHALLENGE returns a nonce for an authorised clear. -/
  | recChallenge (h : Nat)
  /-- REC_CLEAR (R422): REC_CLEAR checks the MAC and starts the clear, or counts an AUTH failure. -/
  | recClear (h : Nat)
  /-- FW_INFO (R459): FW_INFO returns the state of both image slots. -/
  | fwInfo (h : Nat)
  /-- FW_BEGIN (R459): FW_BEGIN opens an update and erases the image slot that is not running. -/
  | fwBegin (h : Nat)
  /-- FW_DATA (R459): FW_DATA writes image bytes at the next offset. -/
  | fwData (h : Nat)
  /-- FW_END (R459): FW_END verifies the written image and closes the update. -/
  | fwEnd (h : Nat) (x : ImageHead)
  /-- FW_ACTIVATE (R461): FW_ACTIVATE makes an image preferred and resets the device. -/
  | fwActivate (h : Nat)
  /-- FW_COMMIT (R460): FW_COMMIT makes the running trial image VALID and raises the minimum SVN. -/
  | fwCommit (h : Nat)
  /-- CFG_SAVE (R466): CFG SAVE writes the persistent set into the older bank. -/
  | cfgSave (h : Nat)
  /-- CFG_ERASE (R466): CFG ERASE erases both configuration banks. -/
  | cfgErase (h : Nat)
  /-- KEY_SET (R466): CFG KEY_SET sets or replaces the recorder clear key. -/
  | keySet (h : Nat)
  /-- SYS_RESET (R462): SYS_RESET resets the device and starts it in the mode requested. -/
  | sysReset (h : Nat)
  /-- RESET_ENDED (R449): A RESET_N or software device reset ends and the start-up sequence resumes from step 3 of R454.
  -/
  | resetEnded (t : Nat) (bootSelLow : Bool)
  /-- PHY_LINK_CHANGE (R338): A 100BASE-T1 port gains or loses its link, which changes ETH_PT_STAT.LINK. -/
  | phyLinkChange (p : Nat) (up : Bool) (sqi : Nat) (t : Nat)
  /-- PWM_CMP_EVENT (R277): The group counter reaches c_eff of a pair; S falls, H falls, the delayed L rise starts and
  the CMPp flag is set. -/
  | pwmCmpEvent (g : Nat) (p : Nat)
  /-- PWM_PRD_EVENT (R277): The counter reaches PRD − 1 and the PRD interrupt flag is set. -/
  | pwmPrdEvent (g : Nat)
  /-- CHOP_PERIOD (R178): A group chop-carrier period starts; regulated channels close their low-side switch and
  PROPORTIONAL channels compute their duty and dither. -/
  | chopPeriod (g : Nat) (t : Nat) (l : List (Nat × Nat))
  /-- PPS_PULSE_END (R334): A pulse's WIDTH elapses and the pin returns to its inactive level. -/
  | ppsPulseEnd (x : Nat) (t : Nat)
  /-- EMU_OUTPUT_EDGE (R290): The emulation phase accumulator overflows and an EMU output edge is produced. -/
  | emuOutputEdge (k : Nat) (t : Nat)
  /-- SPEED_SIGNAL_EDGE (R289): An edge on SPD_IN_i or SPD_DIR_i is counted and, where selected, copied to an emulation
  output. -/
  | speedSignalEdge (i : Nat) (dir : Bool) (level : Bool) (t : Nat)
  /-- ADDRESS_AGEING (R339): A learned source address ages out after ETH_SW_CFG.AGE seconds and is removed from the
  switch table. -/
  | addressAgeing (mac : Nat) (t : Nat)
  /-- PTP_MASTER_LOSS (R342): A slave PTP instance loses every master; its time base keeps its last rate and the
  instance reports LISTENING. -/
  | ptpMasterLoss (i : Nat) (t : Nat)
  /-- SYNC_INTERVAL (R344): A PTP instance in master role reaches its logSyncInterval and sends Sync messages. -/
  | syncInterval (i : Nat) (t : Nat)
  /-- TC_DISCONNECT (R386): The task-controller connection is lost and the ISOBUS slot detaches. -/
  | tcDisconnect
  /-- FW_ERASE_DONE (R459): The erase of the image slot for FW_BEGIN completes and the response is posted with STATE
  EMPTY. -/
  | fwEraseDone
  /-- CFG_SAVE_DONE (R466): The write of a configuration bank completes and the CFG SAVE response is posted. -/
  | cfgSaveDone
  deriving DecidableEq, Repr

end Sys2Proof
end

