-- ==== Sys2Proof/Decode.lean ====
section
/-!
DEFINITION. Sys2Proof/Decode.lean: the block has no instruction words. No row of spec/opcode_table.json gives bits, so no word
spells a command; the mailbox frames that hosts send are decoded in Sys2Proof/Machine/Hif.lean.
-/
namespace Sys2Proof

/-- The command that a word of the table spells: none, for the table gives no row any bits. -/
def decodeTableWord (_nbits _w : Nat) : Option Instr := none

end Sys2Proof
end

