-- ==== Sys2Proof/Config.lean ====
section
/-!
DEFINITION. Sys2Proof/Config.lean: what one device fixes and the free values. Every constant here is opaque: nothing is
known of it but its type and the bounds that its readers put on it. Log entry 2 names them.
-/
namespace Sys2Proof.Config

/-- The 8-byte serial number that IDENTIFY returns (R404, R422). -/
opaque serial : BitVec 64

/-- Whether the CORDIC sine of a 32-bit angle is the neighbour of the exact value above it, in 2^−24 (R52, R53). -/
opaque cordicSinUp : Nat → Bool

/-- What a register format of R52 of a number of bits holds of a value outside it; its reader holds it to the format. -/
opaque outOfFormat : Nat → Int → Int

/-- East and north of a point of one LTP in another, in 2^−8 × 0.25 mm: of the words of MAP_ORG before and after a change of the
origin and the point's coordinates. The spec names no ellipsoid (R109). -/
opaque movedEast : List (BitVec 32) → Int → Int → Int

opaque movedNorth : List (BitVec 32) → Int → Int → Int

/-- A byte of the device's random source (R421), by free index and position. -/
opaque randomByte : Nat → Nat → BitVec 8

/-- Length of the image that the device was delivered with (R459). -/
opaque deliveredLength : BitVec 32

/-- CRC-32 of the body of the image that the device was delivered with (R459). -/
opaque deliveredCrc : BitVec 32

/-- A byte of memory content that the spec leaves open, by free index and position. -/
opaque freeByte : Nat → Nat → BitVec 8

/-- A 32-bit value that the spec leaves open, by free index. -/
opaque freeWord : Nat → BitVec 32

/-- Bit of the PRBS of an order, by its place in the sequence (R255). -/
opaque prbsBit : Nat → Nat → Bool

/-- A condition that the spec leaves open, by free index. -/
opaque freeBool : Nat → Bool

/-- A number that the spec leaves open, by free index. -/
opaque freeInt : Nat → Int

end Sys2Proof.Config
end

