-- ==== Sys2Proof/Machine/RegMap.lean ====
section
/-!
DEFINITION. Sys2Proof/Machine/RegMap.lean: the register indices of chapter 19 (R472, R473) and the bit places of their
fields, as the register tables of the chapters give them. `NAME` is a register index; `NAME_FIELD` is a field. An
instanced register takes its instance numbers: `n` the outer one, `k` the inner one. Where one table row names several
fields, they stand lowest bit first (log entry 4).
-/
namespace Sys2Proof.Machine

abbrev SYS_ID : Nat := 0x0000
abbrev SYS_ID_STEP : Field := ⟨SYS_ID, 3, 0⟩
abbrev SYS_ID_DEV : Field := ⟨SYS_ID, 31, 16⟩
abbrev SYS_FW : Nat := 0x0001
abbrev SYS_FW_BUILD : Field := ⟨SYS_FW, 15, 0⟩
abbrev SYS_FW_MINOR : Field := ⟨SYS_FW, 23, 16⟩
abbrev SYS_FW_MAJOR : Field := ⟨SYS_FW, 31, 24⟩
abbrev SYS_BOOT : Nat := 0x0002
abbrev SYS_BOOT_MODE : Field := ⟨SYS_BOOT, 1, 0⟩
abbrev SYS_BOOT_IMG : Field := ⟨SYS_BOOT, 2, 2⟩
abbrev SYS_BOOT_TRIAL : Field := ⟨SYS_BOOT, 3, 3⟩
abbrev SYS_BOOT_FALLBK : Field := ⟨SYS_BOOT, 4, 4⟩
abbrev SYS_BOOT_CFG_BANK : Field := ⟨SYS_BOOT, 5, 5⟩
abbrev SYS_BOOT_CFG_DEF : Field := ⟨SYS_BOOT, 6, 6⟩
abbrev SYS_BOOT_RCAUSE : Field := ⟨SYS_BOOT, 10, 8⟩
abbrev SYS_BOOT_UPD_OPEN : Field := ⟨SYS_BOOT, 11, 11⟩
abbrev SYS_BOOT_UPD_SLOT : Field := ⟨SYS_BOOT, 13, 12⟩
abbrev SYS_BOOT_BOOTS : Field := ⟨SYS_BOOT, 31, 16⟩
abbrev SYS_IMG (n : Nat) : Nat := 0x0004 + n
abbrev SYS_IMG_STATE (n : Nat) : Field := ⟨SYS_IMG n, 2, 0⟩
abbrev SYS_IMG_SVN (n : Nat) : Field := ⟨SYS_IMG n, 31, 16⟩
abbrev SYS_STEP_CNT : Nat := 0x0010
abbrev SYS_STEP_CNT_STEP : Field := ⟨SYS_STEP_CNT, 31, 0⟩
abbrev SYS_SUPV_CTRL : Nat := 0x0014
abbrev SYS_SUPV_CTRL_TIMEOUT : Field := ⟨SYS_SUPV_CTRL, 9, 0⟩
abbrev SYS_SUPV_CTRL_LS_ERR : Field := ⟨SYS_SUPV_CTRL, 16, 16⟩
abbrev SYS_SUPV_CTRL_HB_ERR : Field := ⟨SYS_SUPV_CTRL, 17, 17⟩
abbrev SYS_SUPV_CTRL_TRIPS : Field := ⟨SYS_SUPV_CTRL, 31, 24⟩
abbrev SYS_IMPL_STATE : Nat := 0x0020
abbrev SYS_IMPL_STATE_REQ : Field := ⟨SYS_IMPL_STATE, 2, 0⟩
abbrev SYS_IMPL_STATE_EREQ : Field := ⟨SYS_IMPL_STATE, 6, 4⟩
abbrev SYS_IMPL_STATE_ACTUAL : Field := ⟨SYS_IMPL_STATE, 10, 8⟩
abbrev SYS_IMPL_STATE_MISMATCH : Field := ⟨SYS_IMPL_STATE, 11, 11⟩
abbrev SYS_IMPL_STATE_CAUSE : Field := ⟨SYS_IMPL_STATE, 15, 12⟩
abbrev SYS_IMPL_STATE_NON : Field := ⟨SYS_IMPL_STATE, 25, 16⟩
abbrev SYS_IMPL_STATE_ANY_MM : Field := ⟨SYS_IMPL_STATE, 26, 26⟩
abbrev SYS_IMPL_STATE_ANY_FLT : Field := ⟨SYS_IMPL_STATE, 27, 27⟩
abbrev SYS_IMPL_STATE_FAULT : Field := ⟨SYS_IMPL_STATE, 28, 28⟩
abbrev SYS_IMPL_STATE_HOLDER : Field := ⟨SYS_IMPL_STATE, 30, 29⟩
abbrev SYS_IMPL_STATE_LEASED : Field := ⟨SYS_IMPL_STATE, 31, 31⟩
abbrev SYS_ZON_STATE (n : Nat) : Nat := 0x0028 + n
abbrev SYS_ZON_STATE_REQ (n : Nat) : Field := ⟨SYS_ZON_STATE n, 2, 0⟩
abbrev SYS_ZON_STATE_EREQ (n : Nat) : Field := ⟨SYS_ZON_STATE n, 6, 4⟩
abbrev SYS_ZON_STATE_ACTUAL (n : Nat) : Field := ⟨SYS_ZON_STATE n, 10, 8⟩
abbrev SYS_ZON_STATE_MISMATCH (n : Nat) : Field := ⟨SYS_ZON_STATE n, 11, 11⟩
abbrev SYS_ZON_STATE_CAUSE (n : Nat) : Field := ⟨SYS_ZON_STATE n, 15, 12⟩
abbrev SYS_ZON_STATE_NON (n : Nat) : Field := ⟨SYS_ZON_STATE n, 25, 16⟩
abbrev SYS_ZON_STATE_ANY_MM (n : Nat) : Field := ⟨SYS_ZON_STATE n, 26, 26⟩
abbrev SYS_ZON_STATE_ANY_FLT (n : Nat) : Field := ⟨SYS_ZON_STATE n, 27, 27⟩
abbrev SYS_ZON_STATE_FAULT (n : Nat) : Field := ⟨SYS_ZON_STATE n, 28, 28⟩
abbrev SYS_ZON_STATE_HOLDER (n : Nat) : Field := ⟨SYS_ZON_STATE n, 30, 29⟩
abbrev SYS_ZON_STATE_LEASED (n : Nat) : Field := ⟨SYS_ZON_STATE n, 31, 31⟩
abbrev SYS_SEC_STATE (n : Nat) : Nat := 0x0040 + n
abbrev SYS_SEC_STATE_REQ (n : Nat) : Field := ⟨SYS_SEC_STATE n, 2, 0⟩
abbrev SYS_SEC_STATE_EREQ (n : Nat) : Field := ⟨SYS_SEC_STATE n, 6, 4⟩
abbrev SYS_SEC_STATE_ACTUAL (n : Nat) : Field := ⟨SYS_SEC_STATE n, 10, 8⟩
abbrev SYS_SEC_STATE_MISMATCH (n : Nat) : Field := ⟨SYS_SEC_STATE n, 11, 11⟩
abbrev SYS_SEC_STATE_CAUSE (n : Nat) : Field := ⟨SYS_SEC_STATE n, 15, 12⟩
abbrev SYS_SEC_STATE_NON (n : Nat) : Field := ⟨SYS_SEC_STATE n, 25, 16⟩
abbrev SYS_SEC_STATE_ANY_MM (n : Nat) : Field := ⟨SYS_SEC_STATE n, 26, 26⟩
abbrev SYS_SEC_STATE_ANY_FLT (n : Nat) : Field := ⟨SYS_SEC_STATE n, 27, 27⟩
abbrev SYS_SEC_STATE_FAULT (n : Nat) : Field := ⟨SYS_SEC_STATE n, 28, 28⟩
abbrev SYS_SEC_STATE_HOLDER (n : Nat) : Field := ⟨SYS_SEC_STATE n, 30, 29⟩
abbrev SYS_SEC_STATE_LEASED (n : Nat) : Field := ⟨SYS_SEC_STATE n, 31, 31⟩
abbrev SCH_CH_STATE (n : Nat) : Nat := 0x0D00 + n
abbrev SCH_CH_STATE_REQ (n : Nat) : Field := ⟨SCH_CH_STATE n, 2, 0⟩
abbrev SCH_CH_STATE_EREQ (n : Nat) : Field := ⟨SCH_CH_STATE n, 6, 4⟩
abbrev SCH_CH_STATE_ACTUAL (n : Nat) : Field := ⟨SCH_CH_STATE n, 10, 8⟩
abbrev SCH_CH_STATE_MISMATCH (n : Nat) : Field := ⟨SCH_CH_STATE n, 11, 11⟩
abbrev SCH_CH_STATE_CAUSE (n : Nat) : Field := ⟨SCH_CH_STATE n, 15, 12⟩
abbrev SCH_CH_STATE_NON (n : Nat) : Field := ⟨SCH_CH_STATE n, 25, 16⟩
abbrev SCH_CH_STATE_ANY_MM (n : Nat) : Field := ⟨SCH_CH_STATE n, 26, 26⟩
abbrev SCH_CH_STATE_ANY_FLT (n : Nat) : Field := ⟨SCH_CH_STATE n, 27, 27⟩
abbrev SCH_CH_STATE_FAULT (n : Nat) : Field := ⟨SCH_CH_STATE n, 28, 28⟩
abbrev SCH_CH_STATE_HOLDER (n : Nat) : Field := ⟨SCH_CH_STATE n, 30, 29⟩
abbrev SCH_CH_STATE_LEASED (n : Nat) : Field := ⟨SCH_CH_STATE n, 31, 31⟩
abbrev HIF_STAT : Nat := 0x0100
abbrev HIF_STAT_ATT : Field := ⟨HIF_STAT, 3, 0⟩
abbrev HIF_STAT_OWNER : Field := ⟨HIF_STAT, 5, 4⟩
abbrev HIF_STAT_OWNER_V : Field := ⟨HIF_STAT, 6, 6⟩
abbrev HIF_STAT_SERVICE : Field := ⟨HIF_STAT, 9, 8⟩
abbrev HIF_STAT_SERVICE_V : Field := ⟨HIF_STAT, 10, 10⟩
abbrev HIF_CNT_UNBOUND : Nat := 0x0101
abbrev HIF_CNT_UNBOUND_CNT : Field := ⟨HIF_CNT_UNBOUND, 31, 0⟩
abbrev HIF_H_CFG (n : Nat) : Nat := 0x0110 + 8 * n
abbrev HIF_H_CFG_PORT (n : Nat) : Field := ⟨HIF_H_CFG n, 1, 0⟩
abbrev HIF_H_CFG_ROLES (n : Nat) : Field := ⟨HIF_H_CFG n, 7, 4⟩
abbrev HIF_H_CFG_KA (n : Nat) : Field := ⟨HIF_H_CFG n, 29, 16⟩
abbrev HIF_H_STAT (n : Nat) : Nat := 0x0111 + 8 * n
abbrev HIF_H_STAT_ATT (n : Nat) : Field := ⟨HIF_H_STAT n, 0, 0⟩
abbrev HIF_H_STAT_ROLE (n : Nat) : Field := ⟨HIF_H_STAT n, 2, 1⟩
abbrev HIF_H_STAT_UNREL (n : Nat) : Field := ⟨HIF_H_STAT n, 15, 8⟩
abbrev HIF_H_STAT_REQFREE (n : Nat) : Field := ⟨HIF_H_STAT n, 26, 16⟩
abbrev HIF_H_STAT_RSPFULL (n : Nat) : Field := ⟨HIF_H_STAT n, 31, 31⟩
abbrev HIF_H_UDP_IP (n : Nat) : Nat := 0x0112 + 8 * n
abbrev HIF_H_UDP_IP_VAL (n : Nat) : Field := ⟨HIF_H_UDP_IP n, 31, 0⟩
abbrev HIF_H_UDP_PORT (n : Nat) : Nat := 0x0113 + 8 * n
abbrev HIF_H_UDP_PORT_VAL (n : Nat) : Field := ⟨HIF_H_UDP_PORT n, 15, 0⟩
abbrev HIF_H_NOTE (n : Nat) : Nat := 0x0114 + 8 * n
abbrev HIF_H_NOTE_MASK (n : Nat) : Field := ⟨HIF_H_NOTE n, 6, 0⟩
abbrev HIF_H_CNT_ACC (n : Nat) : Nat := 0x0115 + 8 * n
abbrev HIF_H_CNT_ACC_CNT (n : Nat) : Field := ⟨HIF_H_CNT_ACC n, 31, 0⟩
abbrev HIF_H_CNT_REJ (n : Nat) : Nat := 0x0116 + 8 * n
abbrev HIF_H_CNT_REJ_CNT (n : Nat) : Field := ⟨HIF_H_CNT_REJ n, 31, 0⟩
abbrev HIF_H_CNT_DROP (n : Nat) : Nat := 0x0117 + 8 * n
abbrev HIF_H_CNT_DROP_UNITS (n : Nat) : Field := ⟨HIF_H_CNT_DROP n, 15, 0⟩
abbrev HIF_H_CNT_DROP_NOTE (n : Nat) : Field := ⟨HIF_H_CNT_DROP n, 31, 16⟩
abbrev HIF_CANB : Nat := 0x0140
abbrev HIF_CANB_RXID : Field := ⟨HIF_CANB, 10, 0⟩
abbrev HIF_CANB_TXID : Field := ⟨HIF_CANB, 26, 16⟩
abbrev HIF_LS_LOOP : Nat := 0x0150
abbrev HIF_LS_LOOP_HOLDER : Field := ⟨HIF_LS_LOOP, 31, 0⟩
abbrev HIF_LS_LOOPV : Nat := 0x0151
abbrev HIF_LS_LOOPV_V : Field := ⟨HIF_LS_LOOPV, 15, 0⟩
abbrev HIF_LS_PWM : Nat := 0x0152
abbrev HIF_LS_PWM_HOLDER : Field := ⟨HIF_LS_PWM, 15, 0⟩
abbrev HIF_LS_PWM_V : Field := ⟨HIF_LS_PWM, 23, 16⟩
abbrev HIF_ISO_CFG : Nat := 0x0160
abbrev HIF_ISO_CFG_NSEC : Field := ⟨HIF_ISO_CFG, 6, 0⟩
abbrev HIF_ISO_CFG_ZONES : Field := ⟨HIF_ISO_CFG, 15, 8⟩
abbrev HIF_ISO_ZMAP (n : Nat) : Nat := 0x0168 + n
abbrev HIF_ISO_ZMAP_LOOP (n : Nat) : Field := ⟨HIF_ISO_ZMAP n, 3, 0⟩
abbrev HIF_ISO_ZMAP_EN (n : Nat) : Field := ⟨HIF_ISO_ZMAP n, 4, 4⟩
abbrev HIF_ISO_ZMAP_SCALE (n : Nat) : Field := ⟨HIF_ISO_ZMAP n, 31, 16⟩
abbrev MON_CTRL : Nat := 0x0200
abbrev MON_CTRL_AVS : Field := ⟨MON_CTRL, 1, 0⟩
abbrev MON_STAT : Nat := 0x0201
abbrev MON_STAT_G : Field := ⟨MON_STAT, 1, 0⟩
abbrev MON_STAT_TW : Field := ⟨MON_STAT, 2, 2⟩
abbrev MON_STAT_TC : Field := ⟨MON_STAT, 3, 3⟩
abbrev MON_STAT_VLIM : Field := ⟨MON_STAT, 4, 4⟩
abbrev MON_STAT_BUSY : Field := ⟨MON_STAT, 5, 5⟩
abbrev MON_AVS_SET : Nat := 0x0202
abbrev MON_AVS_SET_MV : Field := ⟨MON_AVS_SET, 9, 0⟩
abbrev MON_AVS_STAT : Nat := 0x0203
abbrev MON_AVS_STAT_VREQ : Field := ⟨MON_AVS_STAT, 9, 0⟩
abbrev MON_AVS_STAT_VREAD : Field := ⟨MON_AVS_STAT, 25, 16⟩
abbrev MON_SLACK_CFG : Nat := 0x0204
abbrev MON_SLACK_CFG_S_LOW : Field := ⟨MON_SLACK_CFG, 7, 0⟩
abbrev MON_SLACK_CFG_S_HIGH : Field := ⟨MON_SLACK_CFG, 15, 8⟩
abbrev MON_SLACK_CFG_S_CRIT : Field := ⟨MON_SLACK_CFG, 23, 16⟩
abbrev MON_SLACK_CFG_DN_T : Field := ⟨MON_SLACK_CFG, 31, 24⟩
abbrev MON_SLACK : Nat := 0x0205
abbrev MON_SLACK_SMIN : Field := ⟨MON_SLACK, 7, 0⟩
abbrev MON_SLACK_LIM : Field := ⟨MON_SLACK, 10, 8⟩
abbrev MON_SLACK_PMIN : Field := ⟨MON_SLACK, 23, 16⟩
abbrev MON_SLACK_LIFE_MIN : Field := ⟨MON_SLACK, 31, 24⟩
abbrev MON_AGE : Nat := 0x0206
abbrev MON_AGE_RO : Field := ⟨MON_AGE, 15, 0⟩
abbrev MON_AGE_VSHIFT : Field := ⟨MON_AGE, 25, 16⟩
abbrev MON_PLOGIC : Nat := 0x0207
abbrev MON_PLOGIC_MW : Field := ⟨MON_PLOGIC, 15, 0⟩
abbrev MON_TCASE : Nat := 0x0208
abbrev MON_TCASE_VAL : Field := ⟨MON_TCASE, 15, 0⟩
abbrev MON_FLT : Nat := 0x0209
abbrev MON_FLT_TWARN : Field := ⟨MON_FLT, 0, 0⟩
abbrev MON_FLT_TCRIT : Field := ⟨MON_FLT, 1, 1⟩
abbrev MON_FLT_TSD : Field := ⟨MON_FLT, 2, 2⟩
abbrev MON_FLT_VUV : Field := ⟨MON_FLT, 3, 3⟩
abbrev MON_FLT_VOV : Field := ⟨MON_FLT, 4, 4⟩
abbrev MON_FLT_AGE_ALM : Field := ⟨MON_FLT, 5, 5⟩
abbrev MON_FLT_AVS_FLT : Field := ⟨MON_FLT, 6, 6⟩
abbrev MON_IRQ : Nat := 0x020A
abbrev MON_IRQ_FLT : Field := ⟨MON_IRQ, 0, 0⟩
abbrev MON_IEN : Nat := 0x020B
abbrev MON_IEN_EN : Field := ⟨MON_IEN, 0, 0⟩
abbrev MON_CNT_VREQ : Nat := 0x020C
abbrev MON_CNT_VREQ_CNT : Field := ⟨MON_CNT_VREQ, 31, 0⟩
abbrev MON_CNT_AVSERR : Nat := 0x020D
abbrev MON_CNT_AVSERR_CNT : Field := ⟨MON_CNT_AVSERR, 31, 0⟩
abbrev MON_TS (n : Nat) : Nat := 0x0210 + n
abbrev MON_TS_T (n : Nat) : Field := ⟨MON_TS n, 15, 0⟩
abbrev MON_TS_MAX (n : Nat) : Field := ⟨MON_TS n, 31, 16⟩
abbrev MON_TLIM (n : Nat) : Nat := 0x0220 + n
abbrev MON_TLIM_WARN (n : Nat) : Field := ⟨MON_TLIM n, 7, 0⟩
abbrev MON_TLIM_CRIT (n : Nat) : Field := ⟨MON_TLIM n, 15, 8⟩
abbrev MON_VM (n : Nat) : Nat := 0x0230 + n
abbrev MON_VM_VAL (n : Nat) : Field := ⟨MON_VM n, 15, 0⟩
abbrev MON_VM_LO (n : Nat) : Field := ⟨MON_VM n, 16, 16⟩
abbrev MON_VM_HI (n : Nat) : Field := ⟨MON_VM n, 17, 17⟩
abbrev MON_VLIM (n : Nat) : Nat := 0x0240 + n
abbrev MON_VLIM_LO (n : Nat) : Field := ⟨MON_VLIM n, 15, 0⟩
abbrev MON_VLIM_HI (n : Nat) : Field := ⟨MON_VLIM n, 31, 16⟩
abbrev MON_PM (n : Nat) : Nat := 0x0250 + n
abbrev MON_PM_VAL (n : Nat) : Field := ⟨MON_PM n, 23, 0⟩
abbrev REC_CTRL : Nat := 0x0300
abbrev REC_CTRL_FRZ_MAX : Field := ⟨REC_CTRL, 9, 0⟩
abbrev REC_STAT : Nat := 0x0301
abbrev REC_STAT_NEXT : Field := ⟨REC_STAT, 14, 0⟩
abbrev REC_STAT_FULL : Field := ⟨REC_STAT, 15, 15⟩
abbrev REC_STAT_FROZEN : Field := ⟨REC_STAT, 16, 16⟩
abbrev REC_STAT_FRZ_SRC : Field := ⟨REC_STAT, 19, 17⟩
abbrev REC_STAT_FILL : Field := ⟨REC_STAT, 26, 20⟩
abbrev REC_STAT_CLR_BUSY : Field := ⟨REC_STAT, 27, 27⟩
abbrev REC_STAT_KEY : Field := ⟨REC_STAT, 28, 28⟩
abbrev REC_STAT_LOCK : Field := ⟨REC_STAT, 29, 29⟩
abbrev REC_OPSEC : Nat := 0x0302
abbrev REC_OPSEC_VAL : Field := ⟨REC_OPSEC, 31, 0⟩
abbrev REC_PCYC : Nat := 0x0303
abbrev REC_PCYC_VAL : Field := ⟨REC_PCYC, 23, 0⟩
abbrev REC_CNT_LOST : Nat := 0x0304
abbrev REC_CNT_LOST_CNT : Field := ⟨REC_CNT_LOST, 31, 0⟩
abbrev REC_CNT_FULL : Nat := 0x0305
abbrev REC_CNT_FULL_CNT : Field := ⟨REC_CNT_FULL, 31, 0⟩
abbrev REC_CNT_AUTHFAIL : Nat := 0x0306
abbrev REC_CNT_AUTHFAIL_CNT : Field := ⟨REC_CNT_AUTHFAIL, 31, 0⟩
abbrev REC_CNT_CRC : Nat := 0x0307
abbrev REC_CNT_CRC_CNT : Field := ⟨REC_CNT_CRC, 31, 0⟩
abbrev CLK_STAT : Nat := 0x0400
abbrev CLK_STAT_D_LOCK : Field := ⟨CLK_STAT, 0, 0⟩
abbrev CLK_STAT_P_LOCK : Field := ⟨CLK_STAT, 1, 1⟩
abbrev CLK_STAT_G_LOCK : Field := ⟨CLK_STAT, 2, 2⟩
abbrev CLK_STAT_TCXO_OK : Field := ⟨CLK_STAT, 3, 3⟩
abbrev CLK_STAT_D_UNL : Field := ⟨CLK_STAT, 4, 4⟩
abbrev CLK_STAT_P_UNL : Field := ⟨CLK_STAT, 5, 5⟩
abbrev CLK_STAT_G_UNL : Field := ⟨CLK_STAT, 6, 6⟩
abbrev CLK_RST_CAUSE : Nat := 0x0401
abbrev CLK_RST_CAUSE_POR : Field := ⟨CLK_RST_CAUSE, 0, 0⟩
abbrev CLK_RST_CAUSE_PIN : Field := ⟨CLK_RST_CAUSE, 1, 1⟩
abbrev CLK_RST_CAUSE_BOR : Field := ⟨CLK_RST_CAUSE, 2, 2⟩
abbrev CLK_RST_CAUSE_TSD : Field := ⟨CLK_RST_CAUSE, 3, 3⟩
abbrev CLK_RST_CAUSE_CLKLOSS : Field := ⟨CLK_RST_CAUSE, 4, 4⟩
abbrev CLK_RST_CAUSE_SWRST : Field := ⟨CLK_RST_CAUSE, 5, 5⟩
abbrev CLK_RST_CAUSE_SUPV : Field := ⟨CLK_RST_CAUSE, 6, 6⟩
abbrev CLK_BRST : Nat := 0x0402
abbrev CLK_BRST_KIN : Field := ⟨CLK_BRST, 0, 0⟩
abbrev CLK_BRST_MAP : Field := ⟨CLK_BRST, 1, 1⟩
abbrev CLK_BRST_SCH : Field := ⟨CLK_BRST, 2, 2⟩
abbrev CLK_BRST_ACT : Field := ⟨CLK_BRST, 3, 3⟩
abbrev CLK_BRST_DRV : Field := ⟨CLK_BRST, 4, 4⟩
abbrev CLK_BRST_FJL_A : Field := ⟨CLK_BRST, 5, 5⟩
abbrev CLK_BRST_FJL_B : Field := ⟨CLK_BRST, 6, 6⟩
abbrev CLK_BRST_CLE : Field := ⟨CLK_BRST, 7, 7⟩
abbrev CLK_BRST_PWM : Field := ⟨CLK_BRST, 8, 8⟩
abbrev CLK_BRST_ENC_SNS : Field := ⟨CLK_BRST, 9, 9⟩
abbrev CLK_BRST_ETH : Field := ⟨CLK_BRST, 10, 10⟩
abbrev CLK_BRST_CAN : Field := ⟨CLK_BRST, 19, 16⟩
abbrev CLK_XCFG : Nat := 0x0403
abbrev CLK_XCFG_TMO : Field := ⟨CLK_XCFG, 16, 0⟩
abbrev CLK_XFLT : Nat := 0x0404
abbrev CLK_XFLT_CROSS_TIMEOUT : Field := ⟨CLK_XFLT, 13, 0⟩
abbrev CLK_XFLT_CROSS_RESYNC : Field := ⟨CLK_XFLT, 29, 16⟩
abbrev CLK_CNT_UNLOCK : Nat := 0x0405
abbrev CLK_CNT_UNLOCK_CNT : Field := ⟨CLK_CNT_UNLOCK, 31, 0⟩
abbrev CLK_X_CNT (n : Nat) : Nat := 0x0410 + n
abbrev CLK_X_CNT_COALESCED (n : Nat) : Field := ⟨CLK_X_CNT n, 15, 0⟩
abbrev CLK_X_CNT_DISC (n : Nat) : Field := ⟨CLK_X_CNT n, 31, 16⟩
abbrev CLK_X_EVT (n : Nat) : Nat := 0x0420 + n
abbrev CLK_X_EVT_TMO (n : Nat) : Field := ⟨CLK_X_EVT n, 7, 0⟩
abbrev CLK_X_EVT_RESYNC (n : Nat) : Field := ⟨CLK_X_EVT n, 15, 8⟩
abbrev CLK_X_EVT_STATE (n : Nat) : Field := ⟨CLK_X_EVT n, 18, 16⟩
abbrev KIN_CTRL : Nat := 0x0800
abbrev KIN_CTRL_EN : Field := ⟨KIN_CTRL, 0, 0⟩
abbrev KIN_CTRL_MODEL : Field := ⟨KIN_CTRL, 1, 1⟩
abbrev KIN_CTRL_HITCH_SRC : Field := ⟨KIN_CTRL, 3, 2⟩
abbrev KIN_CTRL_IMU_EN : Field := ⟨KIN_CTRL, 4, 4⟩
abbrev KIN_CTRL_SLIP_EN : Field := ⟨KIN_CTRL, 5, 5⟩
abbrev KIN_CTRL_WHL_EN : Field := ⟨KIN_CTRL, 11, 8⟩
abbrev KIN_CTRL_ISO_EN : Field := ⟨KIN_CTRL, 13, 12⟩
abbrev KIN_CTRL_ISOBUS_EN : Field := ⟨KIN_CTRL, 14, 14⟩
abbrev KIN_CTRL_DIR_SRC : Field := ⟨KIN_CTRL, 18, 16⟩
abbrev KIN_CTRL_MINCLS : Field := ⟨KIN_CTRL, 23, 20⟩
abbrev KIN_STAT : Nat := 0x0801
abbrev KIN_STAT_MOTION_VALID : Field := ⟨KIN_STAT, 0, 0⟩
abbrev KIN_STAT_POSE_VALID : Field := ⟨KIN_STAT, 1, 1⟩
abbrev KIN_STAT_STILL : Field := ⟨KIN_STAT, 2, 2⟩
abbrev KIN_STAT_BLEND : Field := ⟨KIN_STAT, 3, 3⟩
abbrev KIN_STAT_DIR_UNK : Field := ⟨KIN_STAT, 4, 4⟩
abbrev KIN_STAT_REV : Field := ⟨KIN_STAT, 5, 5⟩
abbrev KIN_STAT_HITCH_EST : Field := ⟨KIN_STAT, 6, 6⟩
abbrev KIN_STAT_SAT : Field := ⟨KIN_STAT, 7, 7⟩
abbrev KIN_STAT_CLASS : Field := ⟨KIN_STAT, 11, 8⟩
abbrev KIN_STAT_GNSS_TYPE : Field := ⟨KIN_STAT, 14, 12⟩
abbrev KIN_STAT_HDG_SRC : Field := ⟨KIN_STAT, 18, 16⟩
abbrev KIN_STAT_WHL_FLT : Field := ⟨KIN_STAT, 27, 24⟩
abbrev KIN_STAT_HENC_FLT : Field := ⟨KIN_STAT, 28, 28⟩
abbrev KIN_STAT_NEAR_SAT : Field := ⟨KIN_STAT, 29, 29⟩
abbrev KIN_STAT_TRL_INV : Field := ⟨KIN_STAT, 30, 30⟩
abbrev KIN_BLEND_DIST : Nat := 0x0802
abbrev KIN_BLEND_DIST_VAL : Field := ⟨KIN_BLEND_DIST, 14, 0⟩
abbrev KIN_DR_LIM : Nat := 0x0803
abbrev KIN_DR_LIM_DIST_WI : Field := ⟨KIN_DR_LIM, 7, 0⟩
abbrev KIN_DR_LIM_DIST_WW : Field := ⟨KIN_DR_LIM, 15, 8⟩
abbrev KIN_DR_LIM_DIST_W1 : Field := ⟨KIN_DR_LIM, 23, 16⟩
abbrev KIN_DR_LIM_TIME_I : Field := ⟨KIN_DR_LIM, 31, 24⟩
abbrev KIN_GAIN : Nat := 0x0804
abbrev KIN_GAIN_POS : Field := ⟨KIN_GAIN, 7, 0⟩
abbrev KIN_GAIN_HDG : Field := ⟨KIN_GAIN, 15, 8⟩
abbrev KIN_GAIN_GATE : Field := ⟨KIN_GAIN, 31, 16⟩
abbrev KIN_STILL : Nat := 0x0805
abbrev KIN_STILL_VAL : Field := ⟨KIN_STILL, 7, 0⟩
abbrev KIN_STILL_YAWR : Field := ⟨KIN_STILL, 15, 8⟩
abbrev KIN_STILL_TIME : Field := ⟨KIN_STILL, 23, 16⟩
abbrev KIN_HENC : Nat := 0x0806
abbrev KIN_HENC_PORT : Field := ⟨KIN_HENC, 2, 0⟩
abbrev KIN_HENC_SIGN : Field := ⟨KIN_HENC, 3, 3⟩
abbrev KIN_HENC_OFFSET : Field := ⟨KIN_HENC, 31, 16⟩
abbrev KIN_TRL_AXLE : Nat := 0x0807
abbrev KIN_TRL_AXLE_VAL : Field := ⟨KIN_TRL_AXLE, 31, 0⟩
abbrev KIN_ANT (n k : Nat) : Nat := 0x0808 + 4 * n + k
abbrev KIN_ANT_VAL (n k : Nat) : Field := ⟨KIN_ANT n k, 31, 0⟩
abbrev KIN_HITCH_X : Nat := 0x0810
abbrev KIN_HITCH_X_VAL : Field := ⟨KIN_HITCH_X, 31, 0⟩
abbrev KIN_HITCH_Y : Nat := 0x0811
abbrev KIN_HITCH_Y_VAL : Field := ⟨KIN_HITCH_Y, 31, 0⟩
abbrev KIN_WHL_SCALE (n : Nat) : Nat := 0x0814 + n
abbrev KIN_WHL_SCALE_VAL (n : Nat) : Field := ⟨KIN_WHL_SCALE n, 31, 0⟩
abbrev KIN_WHL_Y (n : Nat) : Nat := 0x0818 + n
abbrev KIN_WHL_Y_VAL (n : Nat) : Field := ⟨KIN_WHL_Y n, 31, 0⟩
abbrev KIN_WHL_LRN (n : Nat) : Nat := 0x081C + n
abbrev KIN_WHL_LRN_VAL (n : Nat) : Field := ⟨KIN_WHL_LRN n, 31, 0⟩
abbrev KIN_WGT : Nat := 0x0820
abbrev KIN_WGT_GNSS : Field := ⟨KIN_WGT, 7, 0⟩
abbrev KIN_WGT_WHEEL : Field := ⟨KIN_WGT, 15, 8⟩
abbrev KIN_WGT_ISO : Field := ⟨KIN_WGT, 23, 16⟩
abbrev KIN_WGT_ISOBUS : Field := ⟨KIN_WGT, 31, 24⟩
abbrev KIN_IMU_CFG : Nat := 0x0821
abbrev KIN_IMU_CFG_YAWMNT : Field := ⟨KIN_IMU_CFG, 15, 0⟩
abbrev KIN_IMU_CFG_ZUP : Field := ⟨KIN_IMU_CFG, 16, 16⟩
abbrev KIN_IMU_CFG_BIAS_LRN : Field := ⟨KIN_IMU_CFG, 17, 17⟩
abbrev KIN_IMU_GBIAS : Nat := 0x0822
abbrev KIN_IMU_GBIAS_VAL : Field := ⟨KIN_IMU_GBIAS, 31, 0⟩
abbrev KIN_POS_E_LO : Nat := 0x0830
abbrev KIN_POS_E_LO_VAL : Field := ⟨KIN_POS_E_LO, 31, 0⟩
abbrev KIN_POS_E_HI : Nat := 0x0831
abbrev KIN_POS_E_HI_VAL : Field := ⟨KIN_POS_E_HI, 31, 0⟩
abbrev KIN_POS_N_LO : Nat := 0x0832
abbrev KIN_POS_N_LO_VAL : Field := ⟨KIN_POS_N_LO, 31, 0⟩
abbrev KIN_POS_N_HI : Nat := 0x0833
abbrev KIN_POS_N_HI_VAL : Field := ⟨KIN_POS_N_HI, 31, 0⟩
abbrev KIN_HDG : Nat := 0x0834
abbrev KIN_HDG_VAL : Field := ⟨KIN_HDG, 31, 0⟩
abbrev KIN_SPD : Nat := 0x0835
abbrev KIN_SPD_VAL : Field := ⟨KIN_SPD, 31, 0⟩
abbrev KIN_LAT : Nat := 0x0836
abbrev KIN_LAT_VAL : Field := ⟨KIN_LAT, 31, 0⟩
abbrev KIN_YAWR : Nat := 0x0837
abbrev KIN_YAWR_VAL : Field := ⟨KIN_YAWR, 31, 0⟩
abbrev KIN_ACC : Nat := 0x0838
abbrev KIN_ACC_VAL : Field := ⟨KIN_ACC, 31, 0⟩
abbrev KIN_HITCH_ANG : Nat := 0x0839
abbrev KIN_HITCH_ANG_VAL : Field := ⟨KIN_HITCH_ANG, 31, 0⟩
abbrev KIN_IMP_HDG : Nat := 0x083A
abbrev KIN_IMP_HDG_VAL : Field := ⟨KIN_IMP_HDG, 31, 0⟩
abbrev KIN_IMP_YAWR : Nat := 0x083B
abbrev KIN_IMP_YAWR_VAL : Field := ⟨KIN_IMP_YAWR, 31, 0⟩
abbrev KIN_SIGMA : Nat := 0x083C
abbrev KIN_SIGMA_VAL : Field := ⟨KIN_SIGMA, 31, 0⟩
abbrev KIN_DR_DIST : Nat := 0x083D
abbrev KIN_DR_DIST_VAL : Field := ⟨KIN_DR_DIST, 31, 0⟩
abbrev KIN_POSE_STEP : Nat := 0x083E
abbrev KIN_POSE_STEP_VAL : Field := ⟨KIN_POSE_STEP, 31, 0⟩
abbrev KIN_IMP_E_LO : Nat := 0x0840
abbrev KIN_IMP_E_LO_VAL : Field := ⟨KIN_IMP_E_LO, 31, 0⟩
abbrev KIN_IMP_E_HI : Nat := 0x0841
abbrev KIN_IMP_E_HI_VAL : Field := ⟨KIN_IMP_E_HI, 31, 0⟩
abbrev KIN_IMP_N_LO : Nat := 0x0842
abbrev KIN_IMP_N_LO_VAL : Field := ⟨KIN_IMP_N_LO, 31, 0⟩
abbrev KIN_IMP_N_HI : Nat := 0x0843
abbrev KIN_IMP_N_HI_VAL : Field := ⟨KIN_IMP_N_HI, 31, 0⟩
abbrev KIN_CNT_GATE : Nat := 0x0848
abbrev KIN_CNT_GATE_CNT : Field := ⟨KIN_CNT_GATE, 31, 0⟩
abbrev KIN_CNT_STALE : Nat := 0x0849
abbrev KIN_CNT_STALE_CNT : Field := ⟨KIN_CNT_STALE, 31, 0⟩
abbrev KIN_CNT_HANDOVER : Nat := 0x084A
abbrev KIN_CNT_HANDOVER_CNT : Field := ⟨KIN_CNT_HANDOVER, 31, 0⟩
abbrev KIN_CH_SEL : Nat := 0x0900
abbrev KIN_CH_SEL_CH : Field := ⟨KIN_CH_SEL, 8, 0⟩
abbrev KIN_CH_STEP : Nat := 0x0901
abbrev KIN_CH_STEP_VAL : Field := ⟨KIN_CH_STEP, 31, 0⟩
abbrev KIN_CH_PC_LO : Nat := 0x0902
abbrev KIN_CH_PC_LO_VAL : Field := ⟨KIN_CH_PC_LO, 31, 0⟩
abbrev KIN_CH_PC_HI : Nat := 0x0903
abbrev KIN_CH_PC_HI_VAL : Field := ⟨KIN_CH_PC_HI, 31, 0⟩
abbrev KIN_CH_SPD : Nat := 0x0904
abbrev KIN_CH_SPD_VAL : Field := ⟨KIN_CH_SPD, 31, 0⟩
abbrev KIN_CH_ACC : Nat := 0x0905
abbrev KIN_CH_ACC_VAL : Field := ⟨KIN_CH_ACC, 31, 0⟩
abbrev KIN_CH_VLAT : Nat := 0x0906
abbrev KIN_CH_VLAT_VAL : Field := ⟨KIN_CH_VLAT, 31, 0⟩
abbrev KIN_CH_E_LO : Nat := 0x0907
abbrev KIN_CH_E_LO_VAL : Field := ⟨KIN_CH_E_LO, 31, 0⟩
abbrev KIN_CH_E_HI : Nat := 0x0908
abbrev KIN_CH_E_HI_VAL : Field := ⟨KIN_CH_E_HI, 31, 0⟩
abbrev KIN_CH_N_LO : Nat := 0x0909
abbrev KIN_CH_N_LO_VAL : Field := ⟨KIN_CH_N_LO, 31, 0⟩
abbrev KIN_CH_N_HI : Nat := 0x090A
abbrev KIN_CH_N_HI_VAL : Field := ⟨KIN_CH_N_HI, 31, 0⟩
abbrev KIN_CH_FLAGS : Nat := 0x090B
abbrev KIN_CH_FLAGS_BODY : Field := ⟨KIN_CH_FLAGS, 0, 0⟩
abbrev KIN_CH_FLAGS_IN_USE : Field := ⟨KIN_CH_FLAGS, 1, 1⟩
abbrev KIN_CH_FLAGS_STILL : Field := ⟨KIN_CH_FLAGS, 2, 2⟩
abbrev KIN_CH_FLAGS_REV : Field := ⟨KIN_CH_FLAGS, 3, 3⟩
abbrev KIN_CH_FLAGS_POSE_V : Field := ⟨KIN_CH_FLAGS, 4, 4⟩
abbrev KIN_CH_FLAGS_MOTION_V : Field := ⟨KIN_CH_FLAGS, 5, 5⟩
abbrev MAP_CTRL : Nat := 0x0A00
abbrev MAP_CTRL_EN : Field := ⟨MAP_CTRL, 0, 0⟩
abbrev MAP_CTRL_CELL : Field := ⟨MAP_CTRL, 2, 1⟩
abbrev MAP_CTRL_RX_EN : Field := ⟨MAP_CTRL, 3, 3⟩
abbrev MAP_CTRL_MARK_EN : Field := ⟨MAP_CTRL, 4, 4⟩
abbrev MAP_CTRL_FULL_OFF : Field := ⟨MAP_CTRL, 5, 5⟩
abbrev MAP_CTRL_OOG_EXC : Field := ⟨MAP_CTRL, 6, 6⟩
abbrev MAP_CTRL_EXC_NOPOSE : Field := ⟨MAP_CTRL, 7, 7⟩
abbrev MAP_STAT : Nat := 0x0A01
abbrev MAP_STAT_TILES : Field := ⟨MAP_STAT, 14, 0⟩
abbrev MAP_STAT_FULL : Field := ⟨MAP_STAT, 15, 15⟩
abbrev MAP_STAT_DBLKS : Field := ⟨MAP_STAT, 26, 16⟩
abbrev MAP_STAT_DFULL : Field := ⟨MAP_STAT, 27, 27⟩
abbrev MAP_STAT_OOG : Field := ⟨MAP_STAT, 28, 28⟩
abbrev MAP_STAT_EXC_ANY : Field := ⟨MAP_STAT, 29, 29⟩
abbrev MAP_STAT_CLR_BUSY : Field := ⟨MAP_STAT, 30, 30⟩
abbrev MAP_THR : Nat := 0x0A02
abbrev MAP_THR_OFF : Field := ⟨MAP_THR, 7, 0⟩
abbrev MAP_THR_ON : Field := ⟨MAP_THR, 15, 8⟩
abbrev MAP_THR_EXC : Field := ⟨MAP_THR, 23, 16⟩
abbrev MAP_PROBE : Nat := 0x0A03
abbrev MAP_PROBE_MARGIN : Field := ⟨MAP_PROBE, 6, 0⟩
abbrev MAP_PROBE_LEN : Field := ⟨MAP_PROBE, 25, 16⟩
abbrev MAP_TC : Nat := 0x0A04
abbrev MAP_TC_MIN : Field := ⟨MAP_TC, 15, 0⟩
abbrev MAP_TC_MAX : Field := ⟨MAP_TC, 31, 16⟩
abbrev MAP_CLR : Nat := 0x0A05
abbrev MAP_CLR_COV : Field := ⟨MAP_CLR, 0, 0⟩
abbrev MAP_CLR_EXC : Field := ⟨MAP_CLR, 1, 1⟩
abbrev MAP_CLR_ZONE : Field := ⟨MAP_CLR, 2, 2⟩
abbrev MAP_CLR_ALL : Field := ⟨MAP_CLR, 3, 3⟩
abbrev MAP_ORG_LAT : Nat := 0x0A08
abbrev MAP_ORG_LAT_VAL : Field := ⟨MAP_ORG_LAT, 31, 0⟩
abbrev MAP_ORG_LON : Nat := 0x0A09
abbrev MAP_ORG_LON_VAL : Field := ⟨MAP_ORG_LON, 31, 0⟩
abbrev MAP_ORG_H : Nat := 0x0A0A
abbrev MAP_ORG_H_VAL : Field := ⟨MAP_ORG_H, 31, 0⟩
abbrev MAP_CNT_MISS : Nat := 0x0A10
abbrev MAP_CNT_MISS_CNT : Field := ⟨MAP_CNT_MISS, 31, 0⟩
abbrev MAP_CNT_LOST : Nat := 0x0A11
abbrev MAP_CNT_LOST_CNT : Field := ⟨MAP_CNT_LOST, 31, 0⟩
abbrev MAP_CNT_EST : Nat := 0x0A12
abbrev MAP_CNT_EST_CNT : Field := ⟨MAP_CNT_EST, 31, 0⟩
abbrev MAP_CNT_REPOST : Nat := 0x0A13
abbrev MAP_CNT_REPOST_CNT : Field := ⟨MAP_CNT_REPOST, 31, 0⟩
abbrev MAP_CNT_OOG : Nat := 0x0A14
abbrev MAP_CNT_OOG_CNT : Field := ⟨MAP_CNT_OOG, 31, 0⟩
abbrev MAP_UNMARK_DIST : Nat := 0x0A15
abbrev MAP_UNMARK_DIST_CNT : Field := ⟨MAP_UNMARK_DIST, 31, 0⟩
abbrev MAP_ZONE (n : Nat) : Nat := 0x0A18 + n
abbrev MAP_ZONE_TC_EN (n : Nat) : Field := ⟨MAP_ZONE n, 0, 0⟩
abbrev MAP_ZONE_ZRATE (n : Nat) : Field := ⟨MAP_ZONE n, 31, 16⟩
abbrev MAP_PLY_CTRL : Nat := 0x0A20
abbrev MAP_PLY_CTRL_GO : Field := ⟨MAP_PLY_CTRL, 0, 0⟩
abbrev MAP_PLY_STAT : Nat := 0x0A21
abbrev MAP_PLY_STAT_BUSY : Field := ⟨MAP_PLY_STAT, 0, 0⟩
abbrev MAP_PLY_STAT_ERR : Field := ⟨MAP_PLY_STAT, 1, 1⟩
abbrev MAP_PLY_STAT_PART : Field := ⟨MAP_PLY_STAT, 2, 2⟩
abbrev MAP_PLY_STAT_ERR_POLY : Field := ⟨MAP_PLY_STAT, 13, 8⟩
abbrev MAP_PLY_STAT_PASSES : Field := ⟨MAP_PLY_STAT, 31, 16⟩
abbrev MAP_CH_SEL : Nat := 0x0B00
abbrev MAP_CH_SEL_CH : Field := ⟨MAP_CH_SEL, 8, 0⟩
abbrev MAP_CH_STEP : Nat := 0x0B01
abbrev MAP_CH_STEP_VAL : Field := ⟨MAP_CH_STEP, 31, 0⟩
abbrev MAP_CH_TEST : Nat := 0x0B02
abbrev MAP_CH_TEST_N : Field := ⟨MAP_CH_TEST, 8, 0⟩
abbrev MAP_CH_TEST_B : Field := ⟨MAP_CH_TEST, 17, 9⟩
abbrev MAP_CH_TEST_X : Field := ⟨MAP_CH_TEST, 26, 18⟩
abbrev MAP_CH_TEST_DES : Field := ⟨MAP_CH_TEST, 27, 27⟩
abbrev MAP_CH_TEST_TESTED : Field := ⟨MAP_CH_TEST, 28, 28⟩
abbrev MAP_CH_TEST_MISS : Field := ⟨MAP_CH_TEST, 29, 29⟩
abbrev MAP_CH_TEST_OOG : Field := ⟨MAP_CH_TEST, 30, 30⟩
abbrev MAP_CH_PROBE_LO : Nat := 0x0B03
abbrev MAP_CH_PROBE_LO_VAL : Field := ⟨MAP_CH_PROBE_LO, 31, 0⟩
abbrev MAP_CH_PROBE_HI : Nat := 0x0B04
abbrev MAP_CH_PROBE_HI_VAL : Field := ⟨MAP_CH_PROBE_HI, 31, 0⟩
abbrev MAP_CH_RX : Nat := 0x0B05
abbrev MAP_CH_RX_ZVAL : Field := ⟨MAP_CH_RX, 3, 0⟩
abbrev MAP_CH_RX_RATE : Field := ⟨MAP_CH_RX, 31, 16⟩
abbrev MAP_CH_TC : Nat := 0x0B06
abbrev MAP_CH_TC_K : Field := ⟨MAP_CH_TC, 15, 0⟩
abbrev MAP_CH_MARK : Nat := 0x0B07
abbrev MAP_CH_MARK_OPEN : Field := ⟨MAP_CH_MARK, 0, 0⟩
abbrev MAP_CH_MARK_EST : Field := ⟨MAP_CH_MARK, 1, 1⟩
abbrev MAP_CH_CELLS : Nat := 0x0B08
abbrev MAP_CH_CELLS_CNT : Field := ⟨MAP_CH_CELLS, 31, 0⟩
abbrev SCH_CTRL : Nat := 0x0C00
abbrev SCH_CTRL_EN : Field := ⟨SCH_CTRL, 0, 0⟩
abbrev SCH_CTRL_ACC_EN : Field := ⟨SCH_CTRL, 1, 1⟩
abbrev SCH_CTRL_INV_EN : Field := ⟨SCH_CTRL, 2, 2⟩
abbrev SCH_CTRL_RETIME_EN : Field := ⟨SCH_CTRL, 3, 3⟩
abbrev SCH_STAT : Nat := 0x0C01
abbrev SCH_STAT_FREE : Field := ⟨SCH_STAT, 10, 0⟩
abbrev SCH_STAT_MIN_FREE : Field := ⟨SCH_STAT, 26, 16⟩
abbrev SCH_STAT_QUOTA_ONLY : Field := ⟨SCH_STAT, 27, 27⟩
abbrev SCH_STAT_EMPTY : Field := ⟨SCH_STAT, 28, 28⟩
abbrev SCH_LATE_WIN : Nat := 0x0C02
abbrev SCH_LATE_WIN_VAL : Field := ⟨SCH_LATE_WIN, 8, 0⟩
abbrev SCH_QUOTA : Nat := 0x0C03
abbrev SCH_QUOTA_VAL : Field := ⟨SCH_QUOTA, 8, 0⟩
abbrev SCH_HORIZON : Nat := 0x0C04
abbrev SCH_HORIZON_TIME : Field := ⟨SCH_HORIZON, 10, 0⟩
abbrev SCH_HORIZON_DIST : Field := ⟨SCH_HORIZON, 21, 16⟩
abbrev SCH_CONF_TMO : Nat := 0x0C05
abbrev SCH_CONF_TMO_VAL : Field := ⟨SCH_CONF_TMO, 7, 0⟩
abbrev SCH_RETAIN : Nat := 0x0C06
abbrev SCH_RETAIN_VAL : Field := ⟨SCH_RETAIN, 15, 0⟩
abbrev SCH_RETIME : Nat := 0x0C07
abbrev SCH_RETIME_TOL : Field := ⟨SCH_RETIME, 7, 0⟩
abbrev SCH_HOST_LIM (n : Nat) : Nat := 0x0C08 + n
abbrev SCH_HOST_LIM_LIM (n : Nat) : Field := ⟨SCH_HOST_LIM n, 10, 0⟩
abbrev SCH_HOST_LIM_USED (n : Nat) : Field := ⟨SCH_HOST_LIM n, 26, 16⟩
abbrev SCH_CNT_LATE : Nat := 0x0C10
abbrev SCH_CNT_LATE_CNT : Field := ⟨SCH_CNT_LATE, 31, 0⟩
abbrev SCH_CNT_PASSED : Nat := 0x0C11
abbrev SCH_CNT_PASSED_CNT : Field := ⟨SCH_CNT_PASSED, 31, 0⟩
abbrev SCH_CNT_POOLFULL : Nat := 0x0C12
abbrev SCH_CNT_POOLFULL_CNT : Field := ⟨SCH_CNT_POOLFULL, 31, 0⟩
abbrev SCH_CNT_ONDROP : Nat := 0x0C13
abbrev SCH_CNT_ONDROP_CNT : Field := ⟨SCH_CNT_ONDROP, 31, 0⟩
abbrev SCH_CNT_EOFF : Nat := 0x0C14
abbrev SCH_CNT_EOFF_CNT : Field := ⟨SCH_CNT_EOFF, 31, 0⟩
abbrev SCH_CNT_DEFER : Nat := 0x0C15
abbrev SCH_CNT_DEFER_CNT : Field := ⟨SCH_CNT_DEFER, 31, 0⟩
abbrev SCH_CNT_HOLD : Nat := 0x0C16
abbrev SCH_CNT_HOLD_CNT : Field := ⟨SCH_CNT_HOLD, 31, 0⟩
abbrev SCH_CNT_SPEC_CXL : Nat := 0x0C17
abbrev SCH_CNT_SPEC_CXL_CNT : Field := ⟨SCH_CNT_SPEC_CXL, 31, 0⟩
abbrev SCH_CNT_SPEC_EXEC : Nat := 0x0C18
abbrev SCH_CNT_SPEC_EXEC_CNT : Field := ⟨SCH_CNT_SPEC_EXEC, 31, 0⟩
abbrev SCH_CNT_RETIME : Nat := 0x0C19
abbrev SCH_CNT_RETIME_CNT : Field := ⟨SCH_CNT_RETIME, 31, 0⟩
abbrev SCH_CNT_HORIZON : Nat := 0x0C1A
abbrev SCH_CNT_HORIZON_CNT : Field := ⟨SCH_CNT_HORIZON, 31, 0⟩
abbrev SCH_CNT_NOCONF : Nat := 0x0C1B
abbrev SCH_CNT_NOCONF_CNT : Field := ⟨SCH_CNT_NOCONF, 31, 0⟩
abbrev SCH_SLOT_SEL : Nat := 0x0C20
abbrev SCH_SLOT_SEL_SLOT : Field := ⟨SCH_SLOT_SEL, 9, 0⟩
abbrev SCH_SLOT_STEP : Nat := 0x0C21
abbrev SCH_SLOT_STEP_VAL : Field := ⟨SCH_SLOT_STEP, 31, 0⟩
abbrev SCH_SLOT_STAT : Nat := 0x0C30
abbrev SCH_SLOT_STAT_VAL : Field := ⟨SCH_SLOT_STAT, 31, 0⟩
abbrev SCH_SLOT_W (n : Nat) : Nat := 0x0C31 + n
abbrev SCH_SLOT_W_VAL (n : Nat) : Field := ⟨SCH_SLOT_W n, 31, 0⟩
abbrev SCH_CH_SEL : Nat := 0x0C40
abbrev SCH_CH_SEL_CH : Field := ⟨SCH_CH_SEL, 8, 0⟩
abbrev SCH_CH_STEP : Nat := 0x0C41
abbrev SCH_CH_STEP_VAL : Field := ⟨SCH_CH_STEP, 31, 0⟩
abbrev SCH_CH_INFO : Nat := 0x0C42
abbrev SCH_CH_INFO_NPEND : Field := ⟨SCH_CH_INFO, 10, 0⟩
abbrev SCH_CH_INFO_LAST : Field := ⟨SCH_CH_INFO, 13, 12⟩
abbrev SCH_CH_INFO_HELD : Field := ⟨SCH_CH_INFO, 14, 14⟩
abbrev SCH_CH_D_ON : Nat := 0x0C43
abbrev SCH_CH_D_ON_VAL : Field := ⟨SCH_CH_D_ON, 20, 0⟩
abbrev SCH_CH_D_OFF : Nat := 0x0C44
abbrev SCH_CH_D_OFF_VAL : Field := ⟨SCH_CH_D_OFF, 20, 0⟩
abbrev SCH_CH_LERR : Nat := 0x0C45
abbrev SCH_CH_LERR_VAL : Field := ⟨SCH_CH_LERR, 31, 0⟩
abbrev SCH_CH_LLATE : Nat := 0x0C46
abbrev SCH_CH_LLATE_VAL : Field := ⟨SCH_CH_LLATE, 31, 0⟩
abbrev ACT_CTRL : Nat := 0x0F00
abbrev ACT_CTRL_EN : Field := ⟨ACT_CTRL, 0, 0⟩
abbrev ACT_CTRL_AUTO_REF : Field := ⟨ACT_CTRL, 1, 1⟩
abbrev ACT_STAT : Nat := 0x0F01
abbrev ACT_STAT_N_WARN : Field := ⟨ACT_STAT, 9, 0⟩
abbrev ACT_STAT_N_ALM : Field := ⟨ACT_STAT, 19, 10⟩
abbrev ACT_STAT_N_NOSIG : Field := ⟨ACT_STAT, 29, 20⟩
abbrev ACT_LRN : Nat := 0x0F02
abbrev ACT_LRN_W : Field := ⟨ACT_LRN, 7, 0⟩
abbrev ACT_LRN_MIN_N : Field := ⟨ACT_LRN, 11, 8⟩
abbrev ACT_LRN_PRIOR_N : Field := ⟨ACT_LRN, 15, 12⟩
abbrev ACT_LRN_REJ_MAX : Field := ⟨ACT_LRN, 19, 16⟩
abbrev ACT_LRN_MISS_MAX : Field := ⟨ACT_LRN, 27, 20⟩
abbrev ACT_GATE : Nat := 0x0F03
abbrev ACT_GATE_ABS : Field := ⟨ACT_GATE, 15, 0⟩
abbrev ACT_GATE_REL : Field := ⟨ACT_GATE, 23, 16⟩
abbrev ACT_WEAR : Nat := 0x0F04
abbrev ACT_WEAR_WARN : Field := ⟨ACT_WEAR, 7, 0⟩
abbrev ACT_WEAR_LIMIT : Field := ⟨ACT_WEAR, 15, 8⟩
abbrev ACT_DEF_ON : Nat := 0x0F05
abbrev ACT_DEF_ON_VAL : Field := ⟨ACT_DEF_ON, 16, 0⟩
abbrev ACT_DEF_OFF : Nat := 0x0F06
abbrev ACT_DEF_OFF_VAL : Field := ⟨ACT_DEF_OFF, 16, 0⟩
abbrev ACT_CNT_DET : Nat := 0x0F08
abbrev ACT_CNT_DET_CNT : Field := ⟨ACT_CNT_DET, 31, 0⟩
abbrev ACT_CNT_REJ : Nat := 0x0F09
abbrev ACT_CNT_REJ_CNT : Field := ⟨ACT_CNT_REJ, 31, 0⟩
abbrev ACT_CNT_MISS : Nat := 0x0F0A
abbrev ACT_CNT_MISS_CNT : Field := ⟨ACT_CNT_MISS, 31, 0⟩
abbrev ACT_CNT_MASK : Nat := 0x0F0B
abbrev ACT_CNT_MASK_CNT : Field := ⟨ACT_CNT_MASK, 31, 0⟩
abbrev ACT_CNT_ABORT : Nat := 0x0F0C
abbrev ACT_CNT_ABORT_CNT : Field := ⟨ACT_CNT_ABORT, 31, 0⟩
abbrev ACT_CNT_DIST : Nat := 0x0F0D
abbrev ACT_CNT_DIST_CNT : Field := ⟨ACT_CNT_DIST, 31, 0⟩
abbrev ACT_PRF_WON (n : Nat) : Nat := 0x0F10 + 4 * n
abbrev ACT_PRF_WON_START (n : Nat) : Field := ⟨ACT_PRF_WON n, 15, 0⟩
abbrev ACT_PRF_WON_LEN (n : Nat) : Field := ⟨ACT_PRF_WON n, 31, 16⟩
abbrev ACT_PRF_WOFF (n : Nat) : Nat := 0x0F11 + 4 * n
abbrev ACT_PRF_WOFF_START (n : Nat) : Field := ⟨ACT_PRF_WOFF n, 15, 0⟩
abbrev ACT_PRF_WOFF_LEN (n : Nat) : Field := ⟨ACT_PRF_WOFF n, 31, 16⟩
abbrev ACT_PRF_PULL (n : Nat) : Nat := 0x0F12 + 4 * n
abbrev ACT_PRF_PULL_DIP_MIN (n : Nat) : Field := ⟨ACT_PRF_PULL n, 11, 0⟩
abbrev ACT_PRF_PULL_SMOOTH (n : Nat) : Field := ⟨ACT_PRF_PULL n, 18, 16⟩
abbrev ACT_PRF_REL (n : Nat) : Nat := 0x0F13 + 4 * n
abbrev ACT_PRF_REL_HUMP_MIN (n : Nat) : Field := ⟨ACT_PRF_REL n, 11, 0⟩
abbrev ACT_PRF_REL_RMODE (n : Nat) : Field := ⟨ACT_PRF_REL n, 13, 12⟩
abbrev ACT_PRF_REL_KNEE (n : Nat) : Field := ⟨ACT_PRF_REL n, 23, 16⟩
abbrev ACT_CH_SEL : Nat := 0x0F40
abbrev ACT_CH_SEL_CH : Field := ⟨ACT_CH_SEL, 8, 0⟩
abbrev ACT_CH_STEP : Nat := 0x0F41
abbrev ACT_CH_STEP_VAL : Field := ⟨ACT_CH_STEP, 31, 0⟩
abbrev ACT_CH_LAST_ON : Nat := 0x0F42
abbrev ACT_CH_LAST_ON_M : Field := ⟨ACT_CH_LAST_ON, 16, 0⟩
abbrev ACT_CH_LAST_ON_RES : Field := ⟨ACT_CH_LAST_ON, 19, 17⟩
abbrev ACT_CH_LAST_OFF : Nat := 0x0F43
abbrev ACT_CH_LAST_OFF_M : Field := ⟨ACT_CH_LAST_OFF, 16, 0⟩
abbrev ACT_CH_LAST_OFF_RES : Field := ⟨ACT_CH_LAST_OFF, 19, 17⟩
abbrev ACT_CH_DRIFT : Nat := 0x0F44
abbrev ACT_CH_DRIFT_ON : Field := ⟨ACT_CH_DRIFT, 15, 0⟩
abbrev ACT_CH_DRIFT_OFF : Field := ⟨ACT_CH_DRIFT, 31, 16⟩
abbrev ACT_CH_ALM : Nat := 0x0F45
abbrev ACT_CH_ALM_FLAGS : Field := ⟨ACT_CH_ALM, 5, 0⟩
abbrev ACT_CH_ALM_STEPCHG : Field := ⟨ACT_CH_ALM, 6, 6⟩
abbrev DRV_CTRL : Nat := 0x1000
abbrev DRV_CTRL_EN : Field := ⟨DRV_CTRL, 0, 0⟩
abbrev DRV_CTRL_RESUME_ALL : Field := ⟨DRV_CTRL, 1, 1⟩
abbrev DRV_STAT : Nat := 0x1001
abbrev DRV_STAT_EN_A : Field := ⟨DRV_STAT, 0, 0⟩
abbrev DRV_STAT_EN_B_N : Field := ⟨DRV_STAT, 1, 1⟩
abbrev DRV_STAT_EN_OK : Field := ⟨DRV_STAT, 2, 2⟩
abbrev DRV_STAT_FORCED : Field := ⟨DRV_STAT, 3, 3⟩
abbrev DRV_STAT_KSTAGE : Field := ⟨DRV_STAT, 5, 4⟩
abbrev DRV_STAT_GRP_FLT : Field := ⟨DRV_STAT, 15, 8⟩
abbrev DRV_STAT_GRP_ON : Field := ⟨DRV_STAT, 23, 16⟩
abbrev DRV_KET_CFG : Nat := 0x1008
abbrev DRV_KET_CFG_BUDGET : Field := ⟨DRV_KET_CFG, 7, 0⟩
abbrev DRV_KET_CFG_TAU : Field := ⟨DRV_KET_CFG, 10, 8⟩
abbrev DRV_KET_CFG_STAG_EN : Field := ⟨DRV_KET_CFG, 12, 12⟩
abbrev DRV_KET_CFG_LIM_EN : Field := ⟨DRV_KET_CFG, 13, 13⟩
abbrev DRV_KET_STAT : Nat := 0x1009
abbrev DRV_KET_STAT_PF : Field := ⟨DRV_KET_STAT, 15, 0⟩
abbrev DRV_KET_STAT_PK : Field := ⟨DRV_KET_STAT, 31, 16⟩
abbrev DRV_KET_EFF : Nat := 0x100A
abbrev DRV_KET_EFF_EFFB : Field := ⟨DRV_KET_EFF, 7, 0⟩
abbrev DRV_KET_EFF_PLOGIC : Field := ⟨DRV_KET_EFF, 15, 8⟩
abbrev DRV_KET_MODEL : Nat := 0x100B
abbrev DRV_KET_MODEL_RLS : Field := ⟨DRV_KET_MODEL, 7, 0⟩
abbrev DRV_KET_MODEL_RFW : Field := ⟨DRV_KET_MODEL, 15, 8⟩
abbrev DRV_KET_MODEL_RHS : Field := ⟨DRV_KET_MODEL, 23, 16⟩
abbrev DRV_KET_MODEL_TSW : Field := ⟨DRV_KET_MODEL, 31, 24⟩
abbrev DRV_KET_LIM (n : Nat) : Nat := 0x1010 + n
abbrev DRV_KET_LIM_LIM (n : Nat) : Field := ⟨DRV_KET_LIM n, 6, 0⟩
abbrev DRV_KET_LIM_NON (n : Nat) : Field := ⟨DRV_KET_LIM n, 13, 8⟩
abbrev DRV_GRP_CTRL (n : Nat) : Nat := 0x1020 + 8 * n
abbrev DRV_GRP_CTRL_EN (n : Nat) : Field := ⟨DRV_GRP_CTRL n, 0, 0⟩
abbrev DRV_GRP_CTRL_STAG_FORCE (n : Nat) : Field := ⟨DRV_GRP_CTRL n, 1, 1⟩
abbrev DRV_GRP_CTRL_CHOP (n : Nat) : Field := ⟨DRV_GRP_CTRL n, 12, 8⟩
abbrev DRV_GRP_CTRL_UV_TH (n : Nat) : Field := ⟨DRV_GRP_CTRL n, 23, 16⟩
abbrev DRV_GRP_STAT (n : Nat) : Nat := 0x1021 + 8 * n
abbrev DRV_GRP_STAT_HS_ON (n : Nat) : Field := ⟨DRV_GRP_STAT n, 0, 0⟩
abbrev DRV_GRP_STAT_PEAKING (n : Nat) : Field := ⟨DRV_GRP_STAT n, 1, 1⟩
abbrev DRV_GRP_STAT_PEAK_CH (n : Nat) : Field := ⟨DRV_GRP_STAT n, 3, 2⟩
abbrev DRV_GRP_STAT_NWAIT (n : Nat) : Field := ⟨DRV_GRP_STAT n, 5, 4⟩
abbrev DRV_GRP_STAT_STAG (n : Nat) : Field := ⟨DRV_GRP_STAT n, 6, 6⟩
abbrev DRV_GRP_STAT_UV (n : Nat) : Field := ⟨DRV_GRP_STAT n, 8, 8⟩
abbrev DRV_GRP_STAT_OV (n : Nat) : Field := ⟨DRV_GRP_STAT n, 9, 9⟩
abbrev DRV_GRP_MEAS (n : Nat) : Nat := 0x1022 + 8 * n
abbrev DRV_GRP_MEAS_VBAT (n : Nat) : Field := ⟨DRV_GRP_MEAS n, 15, 0⟩
abbrev DRV_GRP_MEAS_IHS (n : Nat) : Field := ⟨DRV_GRP_MEAS n, 31, 16⟩
abbrev DRV_GRP_FLT (n : Nat) : Nat := 0x1023 + 8 * n
abbrev DRV_GRP_FLT_UV (n : Nat) : Field := ⟨DRV_GRP_FLT n, 0, 0⟩
abbrev DRV_GRP_FLT_OV (n : Nat) : Field := ⟨DRV_GRP_FLT n, 1, 1⟩
abbrev DRV_GRP_FLT_HS_OC (n : Nat) : Field := ⟨DRV_GRP_FLT n, 2, 2⟩
abbrev DRV_GRP_FLT_HS_OT (n : Nat) : Field := ⟨DRV_GRP_FLT n, 3, 3⟩
abbrev DRV_GRP_FLT_SG (n : Nat) : Field := ⟨DRV_GRP_FLT n, 4, 4⟩
abbrev DRV_GRP_DIAG (n : Nat) : Nat := 0x1024 + 8 * n
abbrev DRV_GRP_DIAG_OL_I (n : Nat) : Field := ⟨DRV_GRP_DIAG n, 7, 0⟩
abbrev DRV_GRP_DIAG_OL_T (n : Nat) : Field := ⟨DRV_GRP_DIAG n, 15, 8⟩
abbrev DRV_GRP_DIAG_SG_I (n : Nat) : Field := ⟨DRV_GRP_DIAG n, 23, 16⟩
abbrev DRV_CNT_ENLOSS : Nat := 0x1060
abbrev DRV_CNT_ENLOSS_CNT : Field := ⟨DRV_CNT_ENLOSS, 31, 0⟩
abbrev DRV_CNT_DEFER : Nat := 0x1061
abbrev DRV_CNT_DEFER_CNT : Field := ⟨DRV_CNT_DEFER, 31, 0⟩
abbrev DRV_CNT_OL : Nat := 0x1062
abbrev DRV_CNT_OL_CNT : Field := ⟨DRV_CNT_OL, 31, 0⟩
abbrev DRV_CNT_SC : Nat := 0x1063
abbrev DRV_CNT_SC_CNT : Field := ⟨DRV_CNT_SC, 31, 0⟩
abbrev DRV_CNT_OT : Nat := 0x1064
abbrev DRV_CNT_OT_CNT : Field := ⟨DRV_CNT_OT, 31, 0⟩
abbrev DRV_CNT_SUP : Nat := 0x1065
abbrev DRV_CNT_SUP_CNT : Field := ⟨DRV_CNT_SUP, 31, 0⟩
abbrev DRV_CNT_KOFF : Nat := 0x1066
abbrev DRV_CNT_KOFF_CNT : Field := ⟨DRV_CNT_KOFF, 31, 0⟩
abbrev DRV_CNT_SKIP : Nat := 0x1067
abbrev DRV_CNT_SKIP_CNT : Field := ⟨DRV_CNT_SKIP, 31, 0⟩
abbrev DRV_CH_MODE (n : Nat) : Nat := 0x1100 + 8 * n
abbrev DRV_CH_MODE_MODE (n : Nat) : Field := ⟨DRV_CH_MODE n, 1, 0⟩
abbrev DRV_CH_MODE_PAIR (n : Nat) : Field := ⟨DRV_CH_MODE n, 2, 2⟩
abbrev DRV_CH_MODE_PRIO (n : Nat) : Field := ⟨DRV_CH_MODE n, 6, 4⟩
abbrev DRV_CH_MODE_RESUME (n : Nat) : Field := ⟨DRV_CH_MODE n, 8, 8⟩
abbrev DRV_CH_MODE_DIAG_OFF (n : Nat) : Field := ⟨DRV_CH_MODE n, 9, 9⟩
abbrev DRV_CH_PEAK (n : Nat) : Nat := 0x1101 + 8 * n
abbrev DRV_CH_PEAK_I_PEAK (n : Nat) : Field := ⟨DRV_CH_PEAK n, 13, 0⟩
abbrev DRV_CH_PEAK_T_PEAK (n : Nat) : Field := ⟨DRV_CH_PEAK n, 24, 16⟩
abbrev DRV_CH_HOLD (n : Nat) : Nat := 0x1102 + 8 * n
abbrev DRV_CH_HOLD_I_HOLD (n : Nat) : Field := ⟨DRV_CH_HOLD n, 12, 0⟩
abbrev DRV_CH_PWM (n : Nat) : Nat := 0x1103 + 8 * n
abbrev DRV_CH_PWM_FREQ (n : Nat) : Field := ⟨DRV_CH_PWM n, 9, 0⟩
abbrev DRV_CH_PWM_AUTO_STAG (n : Nat) : Field := ⟨DRV_CH_PWM n, 10, 10⟩
abbrev DRV_CH_PWM_PHASE (n : Nat) : Field := ⟨DRV_CH_PWM n, 23, 16⟩
abbrev DRV_CH_PWM_TMIN (n : Nat) : Field := ⟨DRV_CH_PWM n, 31, 24⟩
abbrev DRV_CH_DITH (n : Nat) : Nat := 0x1104 + 8 * n
abbrev DRV_CH_DITH_DFREQ (n : Nat) : Field := ⟨DRV_CH_DITH n, 8, 0⟩
abbrev DRV_CH_DITH_DAMP (n : Nat) : Field := ⟨DRV_CH_DITH n, 21, 16⟩
abbrev DRV_CH_DITH_DSHAPE (n : Nat) : Field := ⟨DRV_CH_DITH n, 24, 24⟩
abbrev DRV_CH_LOOP (n : Nat) : Nat := 0x1105 + 8 * n
abbrev DRV_CH_LOOP_KP (n : Nat) : Field := ⟨DRV_CH_LOOP n, 7, 0⟩
abbrev DRV_CH_LOOP_KI (n : Nat) : Field := ⟨DRV_CH_LOOP n, 15, 8⟩
abbrev DRV_CH_LOOP_COIL_R (n : Nat) : Field := ⟨DRV_CH_LOOP n, 31, 16⟩
abbrev DRV_CH_RMAP (n : Nat) : Nat := 0x1106 + 8 * n
abbrev DRV_CH_RMAP_GAIN (n : Nat) : Field := ⟨DRV_CH_RMAP n, 15, 0⟩
abbrev DRV_CH_RMAP_OFFSET (n : Nat) : Field := ⟨DRV_CH_RMAP n, 31, 16⟩
abbrev DRV_CH_SET (n : Nat) : Nat := 0x1107 + 8 * n
abbrev DRV_CH_SET_VAL (n : Nat) : Field := ⟨DRV_CH_SET n, 15, 0⟩
abbrev DRV_CH_STAT (n : Nat) : Nat := 0x1200 + 4 * n
abbrev DRV_CH_STAT_STATE (n : Nat) : Field := ⟨DRV_CH_STAT n, 2, 0⟩
abbrev DRV_CH_STAT_FORCED (n : Nat) : Field := ⟨DRV_CH_STAT n, 3, 3⟩
abbrev DRV_CH_STAT_LIMIT (n : Nat) : Field := ⟨DRV_CH_STAT n, 4, 4⟩
abbrev DRV_CH_STAT_PAIRED (n : Nat) : Field := ⟨DRV_CH_STAT n, 5, 5⟩
abbrev DRV_CH_STAT_DEFER_LAST (n : Nat) : Field := ⟨DRV_CH_STAT n, 31, 16⟩
abbrev DRV_CH_FLT (n : Nat) : Nat := 0x1201 + 4 * n
abbrev DRV_CH_FLT_OL_ON (n : Nat) : Field := ⟨DRV_CH_FLT n, 0, 0⟩
abbrev DRV_CH_FLT_OL_OFF (n : Nat) : Field := ⟨DRV_CH_FLT n, 1, 1⟩
abbrev DRV_CH_FLT_SC (n : Nat) : Field := ⟨DRV_CH_FLT n, 2, 2⟩
abbrev DRV_CH_FLT_OT (n : Nat) : Field := ⟨DRV_CH_FLT n, 3, 3⟩
abbrev DRV_CH_FLT_OT_WARN (n : Nat) : Field := ⟨DRV_CH_FLT n, 4, 4⟩
abbrev DRV_CH_FLT_NOCFG (n : Nat) : Field := ⟨DRV_CH_FLT n, 5, 5⟩
abbrev DRV_CH_FLT_KZERO (n : Nat) : Field := ⟨DRV_CH_FLT n, 6, 6⟩
abbrev DRV_CH_FLT_PAIRFLT (n : Nat) : Field := ⟨DRV_CH_FLT n, 7, 7⟩
abbrev DRV_CH_I (n : Nat) : Nat := 0x1202 + 4 * n
abbrev DRV_CH_I_MEAN (n : Nat) : Field := ⟨DRV_CH_I n, 15, 0⟩
abbrev DRV_CH_I_MAX (n : Nat) : Field := ⟨DRV_CH_I n, 31, 16⟩
abbrev DRV_CH_OUT (n : Nat) : Nat := 0x1203 + 4 * n
abbrev DRV_CH_OUT_VAL (n : Nat) : Field := ⟨DRV_CH_OUT n, 15, 0⟩
abbrev DRV_CH_OUT_SRC (n : Nat) : Field := ⟨DRV_CH_OUT n, 16, 16⟩
abbrev DRV_CH_OUT_PHASE (n : Nat) : Field := ⟨DRV_CH_OUT n, 31, 24⟩
abbrev FJL_CTRL (n : Nat) : Nat := 0x1400 + 0x100 * n
abbrev FJL_CTRL_EN (n : Nat) : Field := ⟨FJL_CTRL n, 0, 0⟩
abbrev FJL_CTRL_SAFE (n : Nat) : Field := ⟨FJL_CTRL n, 1, 1⟩
abbrev FJL_CTRL_HEAL (n : Nat) : Field := ⟨FJL_CTRL n, 2, 2⟩
abbrev FJL_CTRL_RESUME_ALL (n : Nat) : Field := ⟨FJL_CTRL n, 3, 3⟩
abbrev FJL_CTRL_NNODES (n : Nat) : Field := ⟨FJL_CTRL n, 12, 8⟩
abbrev FJL_CTRL_WD (n : Nat) : Field := ⟨FJL_CTRL n, 23, 16⟩
abbrev FJL_CTRL_RETRY (n : Nat) : Field := ⟨FJL_CTRL n, 27, 24⟩
abbrev FJL_STAT (n : Nat) : Nat := 0x1401 + 0x100 * n
abbrev FJL_STAT_STATE (n : Nat) : Field := ⟨FJL_STAT n, 2, 0⟩
abbrev FJL_STAT_SAFE_ACT (n : Nat) : Field := ⟨FJL_STAT n, 3, 3⟩
abbrev FJL_STAT_NFOUND (n : Nat) : Field := ⟨FJL_STAT n, 12, 8⟩
abbrev FJL_STAT_BRK_POS (n : Nat) : Field := ⟨FJL_STAT n, 20, 16⟩
abbrev FJL_STAT_LOCK (n : Nat) : Field := ⟨FJL_STAT n, 24, 24⟩
abbrev FJL_STAT_CONT (n : Nat) : Field := ⟨FJL_STAT n, 25, 25⟩
abbrev FJL_STAT_P0_LOS (n : Nat) : Field := ⟨FJL_STAT n, 26, 26⟩
abbrev FJL_STAT_P1_LOS (n : Nat) : Field := ⟨FJL_STAT n, 27, 27⟩
abbrev FJL_STAT_ENUM_ERR (n : Nat) : Field := ⟨FJL_STAT n, 28, 28⟩
abbrev FJL_LEAD (n : Nat) : Nat := 0x1402 + 0x100 * n
abbrev FJL_LEAD_MIN (n : Nat) : Field := ⟨FJL_LEAD n, 9, 0⟩
abbrev FJL_LEAD_ADD (n : Nat) : Field := ⟨FJL_LEAD n, 25, 16⟩
abbrev FJL_RT_LO (n : Nat) : Nat := 0x1403 + 0x100 * n
abbrev FJL_RT_LO_VAL (n : Nat) : Field := ⟨FJL_RT_LO n, 31, 0⟩
abbrev FJL_RT_HI (n : Nat) : Nat := 0x1404 + 0x100 * n
abbrev FJL_RT_HI_VAL (n : Nat) : Field := ⟨FJL_RT_HI n, 31, 0⟩
abbrev FJL_RATE (n : Nat) : Nat := 0x1405 + 0x100 * n
abbrev FJL_RATE_VTOL (n : Nat) : Field := ⟨FJL_RATE n, 9, 0⟩
abbrev FJL_LOOP (n : Nat) : Nat := 0x1406 + 0x100 * n
abbrev FJL_LOOP_VAL (n : Nat) : Field := ⟨FJL_LOOP n, 31, 0⟩
abbrev FJL_CNT_CRC (n : Nat) : Nat := 0x1410 + 0x100 * n
abbrev FJL_CNT_CRC_CNT (n : Nat) : Field := ⟨FJL_CNT_CRC n, 31, 0⟩
abbrev FJL_CNT_NORSP (n : Nat) : Nat := 0x1411 + 0x100 * n
abbrev FJL_CNT_NORSP_CNT (n : Nat) : Field := ⟨FJL_CNT_NORSP n, 31, 0⟩
abbrev FJL_CNT_LATE (n : Nat) : Nat := 0x1412 + 0x100 * n
abbrev FJL_CNT_LATE_CNT (n : Nat) : Field := ⟨FJL_CNT_LATE n, 31, 0⟩
abbrev FJL_CNT_QOVF (n : Nat) : Nat := 0x1413 + 0x100 * n
abbrev FJL_CNT_QOVF_CNT (n : Nat) : Field := ⟨FJL_CNT_QOVF n, 31, 0⟩
abbrev FJL_CNT_BADRPT (n : Nat) : Nat := 0x1414 + 0x100 * n
abbrev FJL_CNT_BADRPT_CNT (n : Nat) : Field := ⟨FJL_CNT_BADRPT n, 31, 0⟩
abbrev FJL_CNT_RLOST (n : Nat) : Nat := 0x1415 + 0x100 * n
abbrev FJL_CNT_RLOST_CNT (n : Nat) : Field := ⟨FJL_CNT_RLOST n, 31, 0⟩
abbrev FJL_CNT_BREAK (n : Nat) : Nat := 0x1416 + 0x100 * n
abbrev FJL_CNT_BREAK_CNT (n : Nat) : Field := ⟨FJL_CNT_BREAK n, 31, 0⟩
abbrev FJL_CNT_SAFE (n : Nat) : Nat := 0x1417 + 0x100 * n
abbrev FJL_CNT_SAFE_CNT (n : Nat) : Field := ⟨FJL_CNT_SAFE n, 31, 0⟩
abbrev FJL_NODE_STAT (n k : Nat) : Nat := 0x1440 + 0x100 * n + 4 * k
abbrev FJL_NODE_STAT_PRESENT (n k : Nat) : Field := ⟨FJL_NODE_STAT n k, 0, 0⟩
abbrev FJL_NODE_STAT_REACH (n k : Nat) : Field := ⟨FJL_NODE_STAT n k, 1, 1⟩
abbrev FJL_NODE_STAT_VIA (n k : Nat) : Field := ⟨FJL_NODE_STAT n k, 2, 2⟩
abbrev FJL_NODE_STAT_NSTATE (n k : Nat) : Field := ⟨FJL_NODE_STAT n k, 4, 3⟩
abbrev FJL_NODE_STAT_FLAGS (n k : Nat) : Field := ⟨FJL_NODE_STAT n k, 9, 5⟩
abbrev FJL_NODE_STAT_OUT (n k : Nat) : Field := ⟨FJL_NODE_STAT n k, 23, 16⟩
abbrev FJL_NODE_DLY (n k : Nat) : Nat := 0x1441 + 0x100 * n + 4 * k
abbrev FJL_NODE_DLY_TPATH (n k : Nat) : Field := ⟨FJL_NODE_DLY n k, 15, 0⟩
abbrev FJL_NODE_DLY_DLINK (n k : Nat) : Field := ⟨FJL_NODE_DLY n k, 27, 16⟩
abbrev FJL_NODE_RMAP (n k : Nat) : Nat := 0x1442 + 0x100 * n + 4 * k
abbrev FJL_NODE_RMAP_GAIN (n k : Nat) : Field := ⟨FJL_NODE_RMAP n k, 15, 0⟩
abbrev FJL_NODE_RMAP_OFFSET (n k : Nat) : Field := ⟨FJL_NODE_RMAP n k, 31, 16⟩
abbrev FJL_NODE_CTRL (n k : Nat) : Nat := 0x1443 + 0x100 * n + 4 * k
abbrev FJL_NODE_CTRL_RESUME (n k : Nat) : Field := ⟨FJL_NODE_CTRL n k, 0, 0⟩
abbrev FJL_NODE_CTRL_CLR_FLT (n k : Nat) : Field := ⟨FJL_NODE_CTRL n k, 1, 1⟩
abbrev FJL_NODE_CTRL_LFWD (n k : Nat) : Field := ⟨FJL_NODE_CTRL n k, 31, 16⟩
abbrev FJL_CH_SEL (n : Nat) : Nat := 0x14C0 + 0x100 * n
abbrev FJL_CH_SEL_CH (n : Nat) : Field := ⟨FJL_CH_SEL n, 8, 0⟩
abbrev FJL_CH_MODE (n : Nat) : Nat := 0x14C1 + 0x100 * n
abbrev FJL_CH_MODE_MODE (n : Nat) : Field := ⟨FJL_CH_MODE n, 1, 0⟩
abbrev FJL_CH_PEAK (n : Nat) : Nat := 0x14C2 + 0x100 * n
abbrev FJL_CH_PEAK_I_PEAK (n : Nat) : Field := ⟨FJL_CH_PEAK n, 13, 0⟩
abbrev FJL_CH_PEAK_T_PEAK (n : Nat) : Field := ⟨FJL_CH_PEAK n, 24, 16⟩
abbrev FJL_CH_HOLD (n : Nat) : Nat := 0x14C3 + 0x100 * n
abbrev FJL_CH_HOLD_I_HOLD (n : Nat) : Field := ⟨FJL_CH_HOLD n, 12, 0⟩
abbrev FJL_CH_PWM (n : Nat) : Nat := 0x14C4 + 0x100 * n
abbrev FJL_CH_PWM_FREQ (n : Nat) : Field := ⟨FJL_CH_PWM n, 9, 0⟩
abbrev FJL_CH_PWM_PHASE (n : Nat) : Field := ⟨FJL_CH_PWM n, 23, 16⟩
abbrev FJL_CH_PWM_TMIN (n : Nat) : Field := ⟨FJL_CH_PWM n, 31, 24⟩
abbrev FJL_CH_DITH (n : Nat) : Nat := 0x14C5 + 0x100 * n
abbrev FJL_CH_DITH_DFREQ (n : Nat) : Field := ⟨FJL_CH_DITH n, 8, 0⟩
abbrev FJL_CH_DITH_DAMP (n : Nat) : Field := ⟨FJL_CH_DITH n, 21, 16⟩
abbrev FJL_CH_DITH_DSHAPE (n : Nat) : Field := ⟨FJL_CH_DITH n, 24, 24⟩
abbrev FJL_CH_SET (n : Nat) : Nat := 0x14C6 + 0x100 * n
abbrev FJL_CH_SET_VAL (n : Nat) : Field := ⟨FJL_CH_SET n, 15, 0⟩
abbrev FJL_CH_APPLY (n : Nat) : Nat := 0x14C7 + 0x100 * n
abbrev FJL_CH_APPLY_GO (n : Nat) : Field := ⟨FJL_CH_APPLY n, 0, 0⟩
abbrev FJL_CH_APPLY_BUSY (n : Nat) : Field := ⟨FJL_CH_APPLY n, 1, 1⟩
abbrev FJL_CH_APPLY_RSP (n : Nat) : Field := ⟨FJL_CH_APPLY n, 3, 2⟩
abbrev FJL_CH_APPLY_ACKED (n : Nat) : Field := ⟨FJL_CH_APPLY n, 4, 4⟩
abbrev FJL_CH_STAT (n : Nat) : Nat := 0x14C8 + 0x100 * n
abbrev FJL_CH_STAT_OUT (n : Nat) : Field := ⟨FJL_CH_STAT n, 0, 0⟩
abbrev FJL_CH_STAT_FCODE (n : Nat) : Field := ⟨FJL_CH_STAT n, 15, 8⟩
abbrev FJL_CH_STAT_VSENT (n : Nat) : Field := ⟨FJL_CH_STAT n, 31, 16⟩
abbrev CLE_LP_CTRL (n : Nat) : Nat := 0x1800 + 0x30 * n
abbrev CLE_LP_CTRL_MODE (n : Nat) : Field := ⟨CLE_LP_CTRL n, 1, 0⟩
abbrev CLE_LP_CTRL_AW (n : Nat) : Field := ⟨CLE_LP_CTRL n, 2, 2⟩
abbrev CLE_LP_CTRL_DSRC (n : Nat) : Field := ⟨CLE_LP_CTRL n, 3, 3⟩
abbrev CLE_LP_CTRL_MTRK (n : Nat) : Field := ⟨CLE_LP_CTRL n, 4, 4⟩
abbrev CLE_LP_CTRL_SAT_OFF (n : Nat) : Field := ⟨CLE_LP_CTRL n, 5, 5⟩
abbrev CLE_LP_CTRL_FRC_EN (n : Nat) : Field := ⟨CLE_LP_CTRL n, 6, 6⟩
abbrev CLE_LP_CTRL_GACC (n : Nat) : Field := ⟨CLE_LP_CTRL n, 7, 7⟩
abbrev CLE_LP_CTRL_NREG (n : Nat) : Field := ⟨CLE_LP_CTRL n, 9, 8⟩
abbrev CLE_LP_CTRL_SVSRC (n : Nat) : Field := ⟨CLE_LP_CTRL n, 11, 10⟩
abbrev CLE_LP_STAT (n : Nat) : Nat := 0x1801 + 0x30 * n
abbrev CLE_LP_STAT_MODE (n : Nat) : Field := ⟨CLE_LP_STAT n, 1, 0⟩
abbrev CLE_LP_STAT_REGION (n : Nat) : Field := ⟨CLE_LP_STAT n, 3, 2⟩
abbrev CLE_LP_STAT_SAT (n : Nat) : Field := ⟨CLE_LP_STAT n, 4, 4⟩
abbrev CLE_LP_STAT_ISAT (n : Nat) : Field := ⟨CLE_LP_STAT n, 5, 5⟩
abbrev CLE_LP_STAT_RAMPING (n : Nat) : Field := ⟨CLE_LP_STAT n, 6, 6⟩
abbrev CLE_LP_STAT_INJ (n : Nat) : Field := ⟨CLE_LP_STAT n, 7, 7⟩
abbrev CLE_LP_STAT_PCNT (n : Nat) : Field := ⟨CLE_LP_STAT n, 31, 16⟩
abbrev CLE_LP_PER (n : Nat) : Nat := 0x1802 + 0x30 * n
abbrev CLE_LP_PER_PERIOD (n : Nat) : Field := ⟨CLE_LP_PER n, 13, 0⟩
abbrev CLE_LP_OPH (n : Nat) : Nat := 0x1803 + 0x30 * n
abbrev CLE_LP_OPH_OPH (n : Nat) : Field := ⟨CLE_LP_OPH n, 20, 0⟩
abbrev CLE_LP_FMT (n : Nat) : Nat := 0x1804 + 0x30 * n
abbrev CLE_LP_FMT_E_IN (n : Nat) : Field := ⟨CLE_LP_FMT n, 5, 0⟩
abbrev CLE_LP_FMT_E_OUT (n : Nat) : Field := ⟨CLE_LP_FMT n, 13, 8⟩
abbrev CLE_LP_MSRC (n : Nat) : Nat := 0x1805 + 0x30 * n
abbrev CLE_LP_MSRC_SRC (n : Nat) : Field := ⟨CLE_LP_MSRC n, 2, 0⟩
abbrev CLE_LP_MSRC_IDX (n : Nat) : Field := ⟨CLE_LP_MSRC n, 7, 4⟩
abbrev CLE_LP_MSC (n : Nat) : Nat := 0x1806 + 0x30 * n
abbrev CLE_LP_MSC_SC (n : Nat) : Field := ⟨CLE_LP_MSC n, 31, 0⟩
abbrev CLE_LP_MOFS (n : Nat) : Nat := 0x1807 + 0x30 * n
abbrev CLE_LP_MOFS_OFS (n : Nat) : Field := ⟨CLE_LP_MOFS n, 31, 0⟩
abbrev CLE_LP_SSRC (n : Nat) : Nat := 0x1808 + 0x30 * n
abbrev CLE_LP_SSRC_SRC (n : Nat) : Field := ⟨CLE_LP_SSRC n, 1, 0⟩
abbrev CLE_LP_SSRC_ZONE (n : Nat) : Field := ⟨CLE_LP_SSRC n, 6, 4⟩
abbrev CLE_LP_SSRC_LOOP (n : Nat) : Field := ⟨CLE_LP_SSRC n, 11, 8⟩
abbrev CLE_LP_SSRC_CH (n : Nat) : Field := ⟨CLE_LP_SSRC n, 24, 16⟩
abbrev CLE_LP_SP (n : Nat) : Nat := 0x1809 + 0x30 * n
abbrev CLE_LP_SP_VAL (n : Nat) : Field := ⟨CLE_LP_SP n, 15, 0⟩
abbrev CLE_LP_RATIO (n : Nat) : Nat := 0x180A + 0x30 * n
abbrev CLE_LP_RATIO_VAL (n : Nat) : Field := ⟨CLE_LP_RATIO n, 31, 0⟩
abbrev CLE_LP_DST (n : Nat) : Nat := 0x180B + 0x30 * n
abbrev CLE_LP_DST_KIND (n : Nat) : Field := ⟨CLE_LP_DST n, 2, 0⟩
abbrev CLE_LP_DST_IDX (n : Nat) : Field := ⟨CLE_LP_DST n, 12, 4⟩
abbrev CLE_LP_DST_PAIR (n : Nat) : Field := ⟨CLE_LP_DST n, 17, 16⟩
abbrev CLE_LP_ULIM (n : Nat) : Nat := 0x180C + 0x30 * n
abbrev CLE_LP_ULIM_UMIN (n : Nat) : Field := ⟨CLE_LP_ULIM n, 15, 0⟩
abbrev CLE_LP_ULIM_UMAX (n : Nat) : Field := ⟨CLE_LP_ULIM n, 31, 16⟩
abbrev CLE_LP_MAN (n : Nat) : Nat := 0x180D + 0x30 * n
abbrev CLE_LP_MAN_MAN (n : Nat) : Field := ⟨CLE_LP_MAN n, 15, 0⟩
abbrev CLE_LP_MAN_OFF_VAL (n : Nat) : Field := ⟨CLE_LP_MAN n, 31, 16⟩
abbrev CLE_LP_RAMP (n : Nat) : Nat := 0x180E + 0x30 * n
abbrev CLE_LP_RAMP_RAMP (n : Nat) : Field := ⟨CLE_LP_RAMP n, 14, 0⟩
abbrev CLE_LP_DF (n : Nat) : Nat := 0x180F + 0x30 * n
abbrev CLE_LP_DF_DF (n : Nat) : Field := ⟨CLE_LP_DF n, 8, 0⟩
abbrev CLE_LP_DF_FFOFS (n : Nat) : Field := ⟨CLE_LP_DF n, 31, 16⟩
abbrev CLE_LP_SCHED (n : Nat) : Nat := 0x1810 + 0x30 * n
abbrev CLE_LP_SCHED_H (n : Nat) : Field := ⟨CLE_LP_SCHED n, 14, 0⟩
abbrev CLE_LP_BND (n : Nat) : Nat := 0x1811 + 0x30 * n
abbrev CLE_LP_BND_B1 (n : Nat) : Field := ⟨CLE_LP_BND n, 15, 0⟩
abbrev CLE_LP_BND_B2 (n : Nat) : Field := ⟨CLE_LP_BND n, 31, 16⟩
abbrev CLE_LP_BND3 (n : Nat) : Nat := 0x1812 + 0x30 * n
abbrev CLE_LP_BND3_B3 (n : Nat) : Field := ⟨CLE_LP_BND3 n, 15, 0⟩
abbrev CLE_LP_SAT (n : Nat) : Nat := 0x1813 + 0x30 * n
abbrev CLE_LP_SAT_SAT_T (n : Nat) : Field := ⟨CLE_LP_SAT n, 15, 0⟩
abbrev CLE_LP_FRCCFG (n : Nat) : Nat := 0x1814 + 0x30 * n
abbrev CLE_LP_FRCCFG_PORT (n : Nat) : Field := ⟨CLE_LP_FRCCFG n, 2, 0⟩
abbrev CLE_LP_FRCCFG_OFFS (n : Nat) : Field := ⟨CLE_LP_FRCCFG n, 15, 8⟩
abbrev CLE_LP_FRCCFG_VDB (n : Nat) : Field := ⟨CLE_LP_FRCCFG n, 31, 16⟩
abbrev CLE_LP_RG_PI (n k : Nat) : Nat := 0x1818 + 0x30 * n + 4 * k
abbrev CLE_LP_RG_PI_KP (n k : Nat) : Field := ⟨CLE_LP_RG_PI n k, 15, 0⟩
abbrev CLE_LP_RG_PI_KI (n k : Nat) : Field := ⟨CLE_LP_RG_PI n k, 31, 16⟩
abbrev CLE_LP_RG_DF (n k : Nat) : Nat := 0x1819 + 0x30 * n + 4 * k
abbrev CLE_LP_RG_DF_KD (n k : Nat) : Field := ⟨CLE_LP_RG_DF n k, 15, 0⟩
abbrev CLE_LP_RG_DF_KFF (n k : Nat) : Field := ⟨CLE_LP_RG_DF n k, 31, 16⟩
abbrev CLE_LP_RG_EXP (n k : Nat) : Nat := 0x181A + 0x30 * n + 4 * k
abbrev CLE_LP_RG_EXP_E_G (n k : Nat) : Field := ⟨CLE_LP_RG_EXP n k, 5, 0⟩
abbrev CLE_LP_RG_ILIM (n k : Nat) : Nat := 0x181B + 0x30 * n + 4 * k
abbrev CLE_LP_RG_ILIM_IMIN (n k : Nat) : Field := ⟨CLE_LP_RG_ILIM n k, 15, 0⟩
abbrev CLE_LP_RG_ILIM_IMAX (n k : Nat) : Field := ⟨CLE_LP_RG_ILIM n k, 31, 16⟩
abbrev CLE_LP_SIG0 (n : Nat) : Nat := 0x1828 + 0x30 * n
abbrev CLE_LP_SIG0_R_EFF (n : Nat) : Field := ⟨CLE_LP_SIG0 n, 15, 0⟩
abbrev CLE_LP_SIG0_Y (n : Nat) : Field := ⟨CLE_LP_SIG0 n, 31, 16⟩
abbrev CLE_LP_SIG1 (n : Nat) : Nat := 0x1829 + 0x30 * n
abbrev CLE_LP_SIG1_E (n : Nat) : Field := ⟨CLE_LP_SIG1 n, 15, 0⟩
abbrev CLE_LP_SIG1_U (n : Nat) : Field := ⟨CLE_LP_SIG1 n, 31, 16⟩
abbrev CLE_LP_INTG (n : Nat) : Nat := 0x182A + 0x30 * n
abbrev CLE_LP_INTG_I (n : Nat) : Field := ⟨CLE_LP_INTG n, 31, 0⟩
abbrev CLE_LP_TRM0 (n : Nat) : Nat := 0x182B + 0x30 * n
abbrev CLE_LP_TRM0_P (n : Nat) : Field := ⟨CLE_LP_TRM0 n, 15, 0⟩
abbrev CLE_LP_TRM0_D (n : Nat) : Field := ⟨CLE_LP_TRM0 n, 31, 16⟩
abbrev CLE_LP_TRM1 (n : Nat) : Nat := 0x182C + 0x30 * n
abbrev CLE_LP_TRM1_FF (n : Nat) : Field := ⟨CLE_LP_TRM1 n, 15, 0⟩
abbrev CLE_LP_TRM1_F (n : Nat) : Field := ⟨CLE_LP_TRM1 n, 31, 16⟩
abbrev CLE_LP_HEAD (n : Nat) : Nat := 0x182D + 0x30 * n
abbrev CLE_LP_HEAD_HIN (n : Nat) : Field := ⟨CLE_LP_HEAD n, 15, 0⟩
abbrev CLE_LP_HEAD_HT (n : Nat) : Field := ⟨CLE_LP_HEAD n, 31, 16⟩
abbrev CLE_LP_SATT (n : Nat) : Nat := 0x182E + 0x30 * n
abbrev CLE_LP_SATT_CUR (n : Nat) : Field := ⟨CLE_LP_SATT n, 15, 0⟩
abbrev CLE_LP_SATT_MAX (n : Nat) : Field := ⟨CLE_LP_SATT n, 31, 16⟩
abbrev CLE_LP_FLT (n : Nat) : Nat := 0x182F + 0x30 * n
abbrev CLE_LP_FLT_SATALM (n : Nat) : Field := ⟨CLE_LP_FLT n, 0, 0⟩
abbrev CLE_LP_FLT_OVF_IN (n : Nat) : Field := ⟨CLE_LP_FLT n, 1, 1⟩
abbrev CLE_LP_FLT_OVF_T (n : Nat) : Field := ⟨CLE_LP_FLT n, 2, 2⟩
abbrev CLE_LP_FLT_STEP (n : Nat) : Field := ⟨CLE_LP_FLT n, 3, 3⟩
abbrev CLE_LP_FLT_DOFF (n : Nat) : Field := ⟨CLE_LP_FLT n, 4, 4⟩
abbrev CLE_LP_FLT_SRCF (n : Nat) : Field := ⟨CLE_LP_FLT n, 5, 5⟩
abbrev CLE_LP_FLT_LEASE (n : Nat) : Field := ⟨CLE_LP_FLT n, 6, 6⟩
abbrev CLE_LP_FLT_OVFCNT (n : Nat) : Field := ⟨CLE_LP_FLT n, 23, 16⟩
abbrev CLE_LP_FLT_STEPCNT (n : Nat) : Field := ⟨CLE_LP_FLT n, 31, 24⟩
abbrev CLE_CTRL : Nat := 0x1B00
abbrev CLE_CTRL_EN : Field := ⟨CLE_CTRL, 0, 0⟩
abbrev CLE_STAT : Nat := 0x1B01
abbrev CLE_STAT_ACTIVE : Field := ⟨CLE_STAT, 15, 0⟩
abbrev CLE_STAT_ALM : Field := ⟨CLE_STAT, 31, 16⟩
abbrev CLE_INJ_CTRL : Nat := 0x1B08
abbrev CLE_INJ_CTRL_LOOP : Field := ⟨CLE_INJ_CTRL, 3, 0⟩
abbrev CLE_INJ_CTRL_POINT : Field := ⟨CLE_INJ_CTRL, 5, 4⟩
abbrev CLE_INJ_CTRL_TYPE : Field := ⟨CLE_INJ_CTRL, 7, 6⟩
abbrev CLE_INJ_CTRL_LOG : Field := ⟨CLE_INJ_CTRL, 8, 8⟩
abbrev CLE_INJ_CTRL_GO : Field := ⟨CLE_INJ_CTRL, 9, 9⟩
abbrev CLE_INJ_CTRL_STOP : Field := ⟨CLE_INJ_CTRL, 10, 10⟩
abbrev CLE_INJ_CTRL_BUSY : Field := ⟨CLE_INJ_CTRL, 11, 11⟩
abbrev CLE_INJ_AMP : Nat := 0x1B09
abbrev CLE_INJ_AMP_AMP : Field := ⟨CLE_INJ_AMP, 15, 0⟩
abbrev CLE_INJ_AMP_OFS : Field := ⟨CLE_INJ_AMP, 31, 16⟩
abbrev CLE_INJ_TIME : Nat := 0x1B0A
abbrev CLE_INJ_TIME_DUR : Field := ⟨CLE_INJ_TIME, 15, 0⟩
abbrev CLE_INJ_TIME_ORDER : Field := ⟨CLE_INJ_TIME, 19, 16⟩
abbrev CLE_INJ_TIME_BITP : Field := ⟨CLE_INJ_TIME, 31, 24⟩
abbrev CLE_INJ_FREQ : Nat := 0x1B0B
abbrev CLE_INJ_FREQ_F0 : Field := ⟨CLE_INJ_FREQ, 15, 0⟩
abbrev CLE_INJ_FREQ_F1 : Field := ⟨CLE_INJ_FREQ, 31, 16⟩
abbrev CLE_CAP_CTRL : Nat := 0x1B10
abbrev CLE_CAP_CTRL_LOOP : Field := ⟨CLE_CAP_CTRL, 3, 0⟩
abbrev CLE_CAP_CTRL_NSIG : Field := ⟨CLE_CAP_CTRL, 5, 4⟩
abbrev CLE_CAP_CTRL_TRIG : Field := ⟨CLE_CAP_CTRL, 10, 8⟩
abbrev CLE_CAP_CTRL_ARM : Field := ⟨CLE_CAP_CTRL, 12, 12⟩
abbrev CLE_CAP_CTRL_ABORT : Field := ⟨CLE_CAP_CTRL, 13, 13⟩
abbrev CLE_CAP_SEL : Nat := 0x1B11
abbrev CLE_CAP_SEL_SIG0 : Field := ⟨CLE_CAP_SEL, 3, 0⟩
abbrev CLE_CAP_SEL_SIG1 : Field := ⟨CLE_CAP_SEL, 7, 4⟩
abbrev CLE_CAP_SEL_SIG2 : Field := ⟨CLE_CAP_SEL, 11, 8⟩
abbrev CLE_CAP_SEL_SIG3 : Field := ⟨CLE_CAP_SEL, 15, 12⟩
abbrev CLE_CAP_SEL_DEC : Field := ⟨CLE_CAP_SEL, 23, 16⟩
abbrev CLE_CAP_PRE : Nat := 0x1B12
abbrev CLE_CAP_PRE_PRE : Field := ⟨CLE_CAP_PRE, 11, 0⟩
abbrev CLE_CAP_PRE_THR : Field := ⟨CLE_CAP_PRE, 31, 16⟩
abbrev CLE_CAP_STAT : Nat := 0x1B13
abbrev CLE_CAP_STAT_STATE : Field := ⟨CLE_CAP_STAT, 1, 0⟩
abbrev CLE_CAP_STAT_TIDX : Field := ⟨CLE_CAP_STAT, 13, 2⟩
abbrev CLE_CAP_STAT_COUNT : Field := ⟨CLE_CAP_STAT, 28, 16⟩
abbrev CLE_CAP_TRIG : Nat := 0x1B14
abbrev CLE_CAP_TRIG_STEP : Field := ⟨CLE_CAP_TRIG, 31, 0⟩
abbrev PWM_GRP_CTRL (n : Nat) : Nat := 0x1C00 + 0x40 * n
abbrev PWM_GRP_CTRL_EN (n : Nat) : Field := ⟨PWM_GRP_CTRL n, 0, 0⟩
abbrev PWM_GRP_CTRL_LDMODE (n : Nat) : Field := ⟨PWM_GRP_CTRL n, 1, 1⟩
abbrev PWM_GRP_CTRL_RESUME (n : Nat) : Field := ⟨PWM_GRP_CTRL n, 2, 2⟩
abbrev PWM_GRP_CTRL_SMODE (n : Nat) : Field := ⟨PWM_GRP_CTRL n, 3, 3⟩
abbrev PWM_GRP_CTRL_PAIR_EN (n : Nat) : Field := ⟨PWM_GRP_CTRL n, 6, 4⟩
abbrev PWM_GRP_CTRL_TRIP_EN (n : Nat) : Field := ⟨PWM_GRP_CTRL n, 9, 8⟩
abbrev PWM_GRP_CTRL_TRIP_POL (n : Nat) : Field := ⟨PWM_GRP_CTRL n, 11, 10⟩
abbrev PWM_GRP_CTRL_START_CNT (n : Nat) : Field := ⟨PWM_GRP_CTRL n, 31, 16⟩
abbrev PWM_GRP_STAT (n : Nat) : Nat := 0x1C01 + 0x40 * n
abbrev PWM_GRP_STAT_RUN (n : Nat) : Field := ⟨PWM_GRP_STAT n, 0, 0⟩
abbrev PWM_GRP_STAT_HIZ (n : Nat) : Field := ⟨PWM_GRP_STAT n, 1, 1⟩
abbrev PWM_GRP_STAT_TRIPPED (n : Nat) : Field := ⟨PWM_GRP_STAT n, 2, 2⟩
abbrev PWM_GRP_STAT_FORCED (n : Nat) : Field := ⟨PWM_GRP_STAT n, 3, 3⟩
abbrev PWM_GRP_STAT_LDARM (n : Nat) : Field := ⟨PWM_GRP_STAT n, 4, 4⟩
abbrev PWM_GRP_STAT_PCNT (n : Nat) : Field := ⟨PWM_GRP_STAT n, 31, 16⟩
abbrev PWM_GRP_PRD (n : Nat) : Nat := 0x1C02 + 0x40 * n
abbrev PWM_GRP_PRD_PRD (n : Nat) : Field := ⟨PWM_GRP_PRD n, 15, 0⟩
abbrev PWM_GRP_PRD_PRD_ACT (n : Nat) : Field := ⟨PWM_GRP_PRD n, 31, 16⟩
abbrev PWM_GRP_DT (n : Nat) : Nat := 0x1C03 + 0x40 * n
abbrev PWM_GRP_DT_DT (n : Nat) : Field := ⟨PWM_GRP_DT n, 9, 0⟩
abbrev PWM_GRP_DT_MIN (n : Nat) : Field := ⟨PWM_GRP_DT n, 23, 16⟩
abbrev PWM_PR_CMP (n k : Nat) : Nat := 0x1C04 + 0x40 * n + k
abbrev PWM_PR_CMP_CMP (n k : Nat) : Field := ⟨PWM_PR_CMP n k, 20, 0⟩
abbrev PWM_PR_ACT (n k : Nat) : Nat := 0x1C08 + 0x40 * n + k
abbrev PWM_PR_ACT_CEFF (n k : Nat) : Field := ⟨PWM_PR_ACT n k, 20, 0⟩
abbrev PWM_PR_ACT_DROP (n k : Nat) : Field := ⟨PWM_PR_ACT n k, 24, 24⟩
abbrev PWM_PR_ACT_STRETCH (n k : Nat) : Field := ⟨PWM_PR_ACT n k, 25, 25⟩
abbrev PWM_PR_LAND (n k : Nat) : Nat := 0x1C0C + 0x40 * n + k
abbrev PWM_PR_LAND_PCNT (n k : Nat) : Field := ⟨PWM_PR_LAND n k, 15, 0⟩
abbrev PWM_PR_LAND_LOOP (n k : Nat) : Field := ⟨PWM_PR_LAND n k, 19, 16⟩
abbrev PWM_PR_LAND_BYLOOP (n k : Nat) : Field := ⟨PWM_PR_LAND n k, 20, 20⟩
abbrev PWM_PR_LAND_PEND (n k : Nat) : Field := ⟨PWM_PR_LAND n k, 24, 24⟩
abbrev PWM_GRP_LAND (n : Nat) : Nat := 0x1C0F + 0x40 * n
abbrev PWM_GRP_LAND_PCNT (n : Nat) : Field := ⟨PWM_GRP_LAND n, 15, 0⟩
abbrev PWM_GRP_LAND_IDX (n : Nat) : Field := ⟨PWM_GRP_LAND n, 21, 16⟩
abbrev PWM_GRP_LAND_PEND (n : Nat) : Field := ⟨PWM_GRP_LAND n, 24, 24⟩
abbrev PWM_GRP_IRQ (n : Nat) : Nat := 0x1C10 + 0x40 * n
abbrev PWM_GRP_IRQ_ZERO (n : Nat) : Field := ⟨PWM_GRP_IRQ n, 0, 0⟩
abbrev PWM_GRP_IRQ_PRD (n : Nat) : Field := ⟨PWM_GRP_IRQ n, 1, 1⟩
abbrev PWM_GRP_IRQ_CMP (n : Nat) : Field := ⟨PWM_GRP_IRQ n, 4, 2⟩
abbrev PWM_GRP_IRQ_TRIP (n : Nat) : Field := ⟨PWM_GRP_IRQ n, 5, 5⟩
abbrev PWM_GRP_IRQ_OVR (n : Nat) : Field := ⟨PWM_GRP_IRQ n, 8, 8⟩
abbrev PWM_GRP_IEN (n : Nat) : Nat := 0x1C11 + 0x40 * n
abbrev PWM_GRP_IEN_EN (n : Nat) : Field := ⟨PWM_GRP_IEN n, 5, 0⟩
abbrev PWM_GRP_IEN_PSC (n : Nat) : Field := ⟨PWM_GRP_IEN n, 19, 16⟩
abbrev PWM_GRP_FLT (n : Nat) : Nat := 0x1C12 + 0x40 * n
abbrev PWM_GRP_FLT_TRIP0 (n : Nat) : Field := ⟨PWM_GRP_FLT n, 0, 0⟩
abbrev PWM_GRP_FLT_TRIP1 (n : Nat) : Field := ⟨PWM_GRP_FLT n, 1, 1⟩
abbrev PWM_GRP_COL (n k : Nat) : Nat := 0x1C13 + 0x40 * n + k
abbrev PWM_GRP_COL_LEN (n k : Nat) : Field := ⟨PWM_GRP_COL n k, 10, 0⟩
abbrev PWM_GRP_COL_MODE (n k : Nat) : Field := ⟨PWM_GRP_COL n k, 12, 12⟩
abbrev PWM_GRP_COL_IN (n k : Nat) : Field := ⟨PWM_GRP_COL n k, 16, 16⟩
abbrev PWM_GRP_COL_ACT (n k : Nat) : Field := ⟨PWM_GRP_COL n k, 17, 17⟩
abbrev PWM_GRP_COL_QUIET (n k : Nat) : Field := ⟨PWM_GRP_COL n k, 18, 18⟩
abbrev PWM_GRP_CNT_TRIP (n : Nat) : Nat := 0x1C15 + 0x40 * n
abbrev PWM_GRP_CNT_TRIP_CNT (n : Nat) : Field := ⟨PWM_GRP_CNT_TRIP n, 31, 0⟩
abbrev PWM_GRP_CNT_SIEVE (n : Nat) : Nat := 0x1C16 + 0x40 * n
abbrev PWM_GRP_CNT_SIEVE_CNT (n : Nat) : Field := ⟨PWM_GRP_CNT_SIEVE n, 31, 0⟩
abbrev PWM_LOADALL : Nat := 0x1F00
abbrev PWM_LOADALL_GRP : Field := ⟨PWM_LOADALL, 7, 0⟩
abbrev PWM_CAL : Nat := 0x1F01
abbrev PWM_CAL_LOCK : Field := ⟨PWM_CAL, 0, 0⟩
abbrev PWM_CAL_TRIM : Field := ⟨PWM_CAL, 15, 8⟩
abbrev PWM_CAL_CALS : Field := ⟨PWM_CAL, 31, 16⟩
abbrev PWM_STAT : Nat := 0x1F02
abbrev PWM_STAT_RUN : Field := ⟨PWM_STAT, 7, 0⟩
abbrev PWM_STAT_HIZ : Field := ⟨PWM_STAT, 15, 8⟩
abbrev PWM_STAT_TRIP : Field := ⟨PWM_STAT, 23, 16⟩
abbrev ENC_PT_CFG (n : Nat) : Nat := 0x2000 + 0x10 * n
abbrev ENC_PT_CFG_MODE (n : Nat) : Field := ⟨ENC_PT_CFG n, 1, 0⟩
abbrev ENC_PT_CFG_QUAD_EN (n : Nat) : Field := ⟨ENC_PT_CFG n, 2, 2⟩
abbrev ENC_PT_CFG_HYST (n : Nat) : Field := ⟨ENC_PT_CFG n, 3, 3⟩
abbrev ENC_PT_CFG_ZMODE (n : Nat) : Field := ⟨ENC_PT_CFG n, 5, 4⟩
abbrev ENC_PT_CFG_GRAY (n : Nat) : Field := ⟨ENC_PT_CFG n, 6, 6⟩
abbrev ENC_PT_CFG_INV (n : Nat) : Field := ⟨ENC_PT_CFG n, 7, 7⟩
abbrev ENC_PT_CFG_FLT (n : Nat) : Field := ⟨ENC_PT_CFG n, 11, 8⟩
abbrev ENC_PT_CFG_QSH (n : Nat) : Field := ⟨ENC_PT_CFG n, 20, 16⟩
abbrev ENC_PT_CFG_ERRB (n : Nat) : Field := ⟨ENC_PT_CFG n, 21, 21⟩
abbrev ENC_PT_WORD (n : Nat) : Nat := 0x2001 + 0x10 * n
abbrev ENC_PT_WORD_NBITS (n : Nat) : Field := ⟨ENC_PT_WORD n, 5, 0⟩
abbrev ENC_PT_WORD_ST (n : Nat) : Field := ⟨ENC_PT_WORD n, 13, 8⟩
abbrev ENC_PT_WORD_DIV (n : Nat) : Field := ⟨ENC_PT_WORD n, 23, 16⟩
abbrev ENC_PT_WORD_TMO (n : Nat) : Field := ⟨ENC_PT_WORD n, 31, 24⟩
abbrev ENC_PT_REQ (n : Nat) : Nat := 0x2002 + 0x10 * n
abbrev ENC_PT_REQ_PER (n : Nat) : Field := ⟨ENC_PT_REQ n, 13, 0⟩
abbrev ENC_PT_REQ_ERR_MAX (n : Nat) : Field := ⟨ENC_PT_REQ n, 19, 16⟩
abbrev ENC_PT_CPR (n : Nat) : Nat := 0x2003 + 0x10 * n
abbrev ENC_PT_CPR_CPR (n : Nat) : Field := ⟨ENC_PT_CPR n, 23, 0⟩
abbrev ENC_PT_WIN (n : Nat) : Nat := 0x2004 + 0x10 * n
abbrev ENC_PT_WIN_WIN (n : Nat) : Field := ⟨ENC_PT_WIN n, 7, 0⟩
abbrev ENC_PT_WIN_ILL_TH (n : Nat) : Field := ⟨ENC_PT_WIN n, 15, 8⟩
abbrev ENC_PT_WIN_ILL_WIN (n : Nat) : Field := ⟨ENC_PT_WIN n, 23, 16⟩
abbrev ENC_PT_STAT (n : Nat) : Nat := 0x2005 + 0x10 * n
abbrev ENC_PT_STAT_STATE (n : Nat) : Field := ⟨ENC_PT_STAT n, 1, 0⟩
abbrev ENC_PT_STAT_REFD (n : Nat) : Field := ⟨ENC_PT_STAT n, 2, 2⟩
abbrev ENC_PT_STAT_FALLBK (n : Nat) : Field := ⟨ENC_PT_STAT n, 3, 3⟩
abbrev ENC_PT_STAT_QFLT (n : Nat) : Field := ⟨ENC_PT_STAT n, 4, 4⟩
abbrev ENC_PT_STAT_DIR (n : Nat) : Field := ⟨ENC_PT_STAT n, 5, 5⟩
abbrev ENC_PT_STAT_LVL (n : Nat) : Field := ⟨ENC_PT_STAT n, 8, 6⟩
abbrev ENC_PT_POS (n : Nat) : Nat := 0x2006 + 0x10 * n
abbrev ENC_PT_POS_VAL (n : Nat) : Field := ⟨ENC_PT_POS n, 31, 0⟩
abbrev ENC_PT_ANG (n : Nat) : Nat := 0x2007 + 0x10 * n
abbrev ENC_PT_ANG_ANG (n : Nat) : Field := ⟨ENC_PT_ANG n, 15, 0⟩
abbrev ENC_PT_ANG_ANGV (n : Nat) : Field := ⟨ENC_PT_ANG n, 16, 16⟩
abbrev ENC_PT_SPD (n : Nat) : Nat := 0x2008 + 0x10 * n
abbrev ENC_PT_SPD_VAL (n : Nat) : Field := ⟨ENC_PT_SPD n, 31, 0⟩
abbrev ENC_PT_AGE (n : Nat) : Nat := 0x2009 + 0x10 * n
abbrev ENC_PT_AGE_POS (n : Nat) : Field := ⟨ENC_PT_AGE n, 15, 0⟩
abbrev ENC_PT_AGE_SPD (n : Nat) : Field := ⟨ENC_PT_AGE n, 31, 16⟩
abbrev ENC_PT_RAW_LO (n : Nat) : Nat := 0x200A + 0x10 * n
abbrev ENC_PT_RAW_LO_VAL (n : Nat) : Field := ⟨ENC_PT_RAW_LO n, 31, 0⟩
abbrev ENC_PT_RAW_HI (n : Nat) : Nat := 0x200B + 0x10 * n
abbrev ENC_PT_RAW_HI_POS (n : Nat) : Field := ⟨ENC_PT_RAW_HI n, 7, 0⟩
abbrev ENC_PT_RAW_HI_NE (n : Nat) : Field := ⟨ENC_PT_RAW_HI n, 8, 8⟩
abbrev ENC_PT_RAW_HI_NW (n : Nat) : Field := ⟨ENC_PT_RAW_HI n, 9, 9⟩
abbrev ENC_PT_IDX (n : Nat) : Nat := 0x200C + 0x10 * n
abbrev ENC_PT_IDX_CAP (n : Nat) : Field := ⟨ENC_PT_IDX n, 31, 0⟩
abbrev ENC_PT_FLT (n : Nat) : Nat := 0x200D + 0x10 * n
abbrev ENC_PT_FLT_SERR (n : Nat) : Field := ⟨ENC_PT_FLT n, 0, 0⟩
abbrev ENC_PT_FLT_ILL (n : Nat) : Field := ⟨ENC_PT_FLT n, 1, 1⟩
abbrev ENC_PT_FLT_NERR (n : Nat) : Field := ⟨ENC_PT_FLT n, 2, 2⟩
abbrev ENC_PT_FLT_NWARN (n : Nat) : Field := ⟨ENC_PT_FLT n, 3, 3⟩
abbrev ENC_PT_CNT (n : Nat) : Nat := 0x200E + 0x10 * n
abbrev ENC_PT_CNT_ILLEGAL (n : Nat) : Field := ⟨ENC_PT_CNT n, 15, 0⟩
abbrev ENC_PT_CNT_SERR (n : Nat) : Field := ⟨ENC_PT_CNT n, 31, 16⟩
abbrev ENC_WH_CFG (n : Nat) : Nat := 0x2080 + 8 * n
abbrev ENC_WH_CFG_MODE (n : Nat) : Field := ⟨ENC_WH_CFG n, 1, 0⟩
abbrev ENC_WH_CFG_HYST (n : Nat) : Field := ⟨ENC_WH_CFG n, 2, 2⟩
abbrev ENC_WH_CFG_INV (n : Nat) : Field := ⟨ENC_WH_CFG n, 3, 3⟩
abbrev ENC_WH_CFG_FLT (n : Nat) : Field := ⟨ENC_WH_CFG n, 11, 8⟩
abbrev ENC_WH_CFG_WIN (n : Nat) : Field := ⟨ENC_WH_CFG n, 23, 16⟩
abbrev ENC_WH_ILL (n : Nat) : Nat := 0x2081 + 8 * n
abbrev ENC_WH_ILL_TH (n : Nat) : Field := ⟨ENC_WH_ILL n, 7, 0⟩
abbrev ENC_WH_ILL_WIN (n : Nat) : Field := ⟨ENC_WH_ILL n, 15, 8⟩
abbrev ENC_WH_STAT (n : Nat) : Nat := 0x2082 + 8 * n
abbrev ENC_WH_STAT_STATE (n : Nat) : Field := ⟨ENC_WH_STAT n, 1, 0⟩
abbrev ENC_WH_STAT_DIRV (n : Nat) : Field := ⟨ENC_WH_STAT n, 2, 2⟩
abbrev ENC_WH_STAT_DIR (n : Nat) : Field := ⟨ENC_WH_STAT n, 3, 3⟩
abbrev ENC_WH_CNT (n : Nat) : Nat := 0x2083 + 8 * n
abbrev ENC_WH_CNT_VAL (n : Nat) : Field := ⟨ENC_WH_CNT n, 31, 0⟩
abbrev ENC_WH_SPD (n : Nat) : Nat := 0x2084 + 8 * n
abbrev ENC_WH_SPD_VAL (n : Nat) : Field := ⟨ENC_WH_SPD n, 31, 0⟩
abbrev ENC_WH_FLT (n : Nat) : Nat := 0x2085 + 8 * n
abbrev ENC_WH_FLT_ILL (n : Nat) : Field := ⟨ENC_WH_FLT n, 0, 0⟩
abbrev ENC_WH_FLT_ILLEGAL (n : Nat) : Field := ⟨ENC_WH_FLT n, 31, 16⟩
abbrev ENC_EMU_CFG (n : Nat) : Nat := 0x20A0 + 4 * n
abbrev ENC_EMU_CFG_EN (n : Nat) : Field := ⟨ENC_EMU_CFG n, 0, 0⟩
abbrev ENC_EMU_CFG_SRC (n : Nat) : Field := ⟨ENC_EMU_CFG n, 3, 1⟩
abbrev ENC_EMU_CFG_FORM (n : Nat) : Field := ⟨ENC_EMU_CFG n, 4, 4⟩
abbrev ENC_EMU_CFG_IDX (n : Nat) : Field := ⟨ENC_EMU_CFG n, 24, 16⟩
abbrev ENC_EMU_RES (n : Nat) : Nat := 0x20A1 + 4 * n
abbrev ENC_EMU_RES_PPM (n : Nat) : Field := ⟨ENC_EMU_RES n, 19, 0⟩
abbrev ENC_EMU_STAT (n : Nat) : Nat := 0x20A2 + 4 * n
abbrev ENC_EMU_STAT_FREQ (n : Nat) : Field := ⟨ENC_EMU_STAT n, 23, 0⟩
abbrev ENC_EMU_STAT_LIMIT (n : Nat) : Field := ⟨ENC_EMU_STAT n, 24, 24⟩
abbrev ENC_STAT : Nat := 0x20C0
abbrev ENC_STAT_PT_FLT : Field := ⟨ENC_STAT, 7, 0⟩
abbrev ENC_STAT_WH_FLT : Field := ⟨ENC_STAT, 11, 8⟩
abbrev ENC_STAT_FALLBK : Field := ⟨ENC_STAT, 23, 16⟩
abbrev SNS_ISO_CFG (n : Nat) : Nat := 0x2100 + 4 * n
abbrev SNS_ISO_CFG_EN (n : Nat) : Field := ⟨SNS_ISO_CFG n, 0, 0⟩
abbrev SNS_ISO_CFG_DIRPIN (n : Nat) : Field := ⟨SNS_ISO_CFG n, 1, 1⟩
abbrev SNS_ISO_CFG_DIRPOL (n : Nat) : Field := ⟨SNS_ISO_CFG n, 2, 2⟩
abbrev SNS_ISO_CFG_WIN (n : Nat) : Field := ⟨SNS_ISO_CFG n, 15, 8⟩
abbrev SNS_ISO_CFG_PPM (n : Nat) : Field := ⟨SNS_ISO_CFG n, 31, 16⟩
abbrev SNS_ISO_SPD (n : Nat) : Nat := 0x2101 + 4 * n
abbrev SNS_ISO_SPD_VAL (n : Nat) : Field := ⟨SNS_ISO_SPD n, 31, 0⟩
abbrev SNS_ISO_STAT (n : Nat) : Nat := 0x2102 + 4 * n
abbrev SNS_ISO_STAT_FREQ (n : Nat) : Field := ⟨SNS_ISO_STAT n, 23, 0⟩
abbrev SNS_ISO_STAT_VALID (n : Nat) : Field := ⟨SNS_ISO_STAT n, 24, 24⟩
abbrev SNS_ISO_STAT_DIRV (n : Nat) : Field := ⟨SNS_ISO_STAT n, 25, 25⟩
abbrev SNS_ISO_STAT_OVF (n : Nat) : Field := ⟨SNS_ISO_STAT n, 26, 26⟩
abbrev SNS_PLS_CFG (n : Nat) : Nat := 0x2110 + 4 * n
abbrev SNS_PLS_CFG_EN (n : Nat) : Field := ⟨SNS_PLS_CFG n, 0, 0⟩
abbrev SNS_PLS_CFG_EDGE (n : Nat) : Field := ⟨SNS_PLS_CFG n, 2, 1⟩
abbrev SNS_PLS_CFG_PU (n : Nat) : Field := ⟨SNS_PLS_CFG n, 3, 3⟩
abbrev SNS_PLS_CFG_DEB (n : Nat) : Field := ⟨SNS_PLS_CFG n, 15, 8⟩
abbrev SNS_PLS_CFG_WIN (n : Nat) : Field := ⟨SNS_PLS_CFG n, 23, 16⟩
abbrev SNS_PLS_TOT (n : Nat) : Nat := 0x2111 + 4 * n
abbrev SNS_PLS_TOT_CNT (n : Nat) : Field := ⟨SNS_PLS_TOT n, 31, 0⟩
abbrev SNS_PLS_FREQ (n : Nat) : Nat := 0x2112 + 4 * n
abbrev SNS_PLS_FREQ_VAL (n : Nat) : Field := ⟨SNS_PLS_FREQ n, 31, 0⟩
abbrev SNS_PLS_STAT (n : Nat) : Nat := 0x2113 + 4 * n
abbrev SNS_PLS_STAT_EDGES (n : Nat) : Field := ⟨SNS_PLS_STAT n, 15, 0⟩
abbrev SNS_PLS_STAT_GLITCH (n : Nat) : Field := ⟨SNS_PLS_STAT n, 31, 16⟩
abbrev SNS_AIN_CFG (n : Nat) : Nat := 0x2140 + 4 * n
abbrev SNS_AIN_CFG_EN (n : Nat) : Field := ⟨SNS_AIN_CFG n, 0, 0⟩
abbrev SNS_AIN_CFG_AVG (n : Nat) : Field := ⟨SNS_AIN_CFG n, 3, 1⟩
abbrev SNS_AIN_CFG_FT (n : Nat) : Field := ⟨SNS_AIN_CFG n, 15, 8⟩
abbrev SNS_AIN_LIM (n : Nat) : Nat := 0x2141 + 4 * n
abbrev SNS_AIN_LIM_LO (n : Nat) : Field := ⟨SNS_AIN_LIM n, 15, 0⟩
abbrev SNS_AIN_LIM_HI (n : Nat) : Field := ⟨SNS_AIN_LIM n, 31, 16⟩
abbrev SNS_AIN_VAL (n : Nat) : Nat := 0x2142 + 4 * n
abbrev SNS_AIN_VAL_CODE (n : Nat) : Field := ⟨SNS_AIN_VAL n, 15, 0⟩
abbrev SNS_AIN_VAL_FAULT (n : Nat) : Field := ⟨SNS_AIN_VAL n, 16, 16⟩
abbrev SNS_AIN_FLT (n : Nat) : Nat := 0x2143 + 4 * n
abbrev SNS_AIN_FLT_LOF (n : Nat) : Field := ⟨SNS_AIN_FLT n, 0, 0⟩
abbrev SNS_AIN_FLT_HIF (n : Nat) : Field := ⟨SNS_AIN_FLT n, 1, 1⟩
abbrev SNS_IMU_CFG : Nat := 0x2180
abbrev SNS_IMU_CFG_EN : Field := ⟨SNS_IMU_CFG, 0, 0⟩
abbrev SNS_IMU_CFG_MODE : Field := ⟨SNS_IMU_CFG, 2, 1⟩
abbrev SNS_IMU_CFG_RDBIT : Field := ⟨SNS_IMU_CFG, 3, 3⟩
abbrev SNS_IMU_CFG_BE : Field := ⟨SNS_IMU_CFG, 4, 4⟩
abbrev SNS_IMU_CFG_DIV : Field := ⟨SNS_IMU_CFG, 15, 8⟩
abbrev SNS_IMU_CFG_TMO : Field := ⟨SNS_IMU_CFG, 23, 16⟩
abbrev SNS_IMU_BURST : Nat := 0x2181
abbrev SNS_IMU_BURST_ADDR : Field := ⟨SNS_IMU_BURST, 7, 0⟩
abbrev SNS_IMU_BURST_LEN : Field := ⟨SNS_IMU_BURST, 12, 8⟩
abbrev SNS_IMU_MAP : Nat := 0x2182
abbrev SNS_IMU_MAP_GX : Field := ⟨SNS_IMU_MAP, 4, 0⟩
abbrev SNS_IMU_MAP_GY : Field := ⟨SNS_IMU_MAP, 9, 5⟩
abbrev SNS_IMU_MAP_GZ : Field := ⟨SNS_IMU_MAP, 14, 10⟩
abbrev SNS_IMU_MAP_AX : Field := ⟨SNS_IMU_MAP, 19, 15⟩
abbrev SNS_IMU_MAP_AY : Field := ⟨SNS_IMU_MAP, 24, 20⟩
abbrev SNS_IMU_MAP_AZ : Field := ⟨SNS_IMU_MAP, 29, 25⟩
abbrev SNS_IMU_GSC : Nat := 0x2183
abbrev SNS_IMU_GSC_VAL : Field := ⟨SNS_IMU_GSC, 31, 0⟩
abbrev SNS_IMU_ASC : Nat := 0x2184
abbrev SNS_IMU_ASC_VAL : Field := ⟨SNS_IMU_ASC, 31, 0⟩
abbrev SNS_IMU_XFER : Nat := 0x2185
abbrev SNS_IMU_XFER_ADDR : Field := ⟨SNS_IMU_XFER, 7, 0⟩
abbrev SNS_IMU_XFER_DATA : Field := ⟨SNS_IMU_XFER, 15, 8⟩
abbrev SNS_IMU_XFER_WR : Field := ⟨SNS_IMU_XFER, 16, 16⟩
abbrev SNS_IMU_XFER_RD : Field := ⟨SNS_IMU_XFER, 17, 17⟩
abbrev SNS_IMU_XFER_BUSY : Field := ⟨SNS_IMU_XFER, 18, 18⟩
abbrev SNS_IMU_XFER_RDATA : Field := ⟨SNS_IMU_XFER, 31, 24⟩
abbrev SNS_IMU_STAT : Nat := 0x2186
abbrev SNS_IMU_STAT_VALID : Field := ⟨SNS_IMU_STAT, 0, 0⟩
abbrev SNS_IMU_STAT_SAT : Field := ⟨SNS_IMU_STAT, 1, 1⟩
abbrev SNS_IMU_STAT_TMOF : Field := ⟨SNS_IMU_STAT, 2, 2⟩
abbrev SNS_IMU_STAT_FAST : Field := ⟨SNS_IMU_STAT, 31, 16⟩
abbrev SNS_IMU_AGE : Nat := 0x2187
abbrev SNS_IMU_AGE_VAL : Field := ⟨SNS_IMU_AGE, 15, 0⟩
abbrev SNS_IMU_GYR (n : Nat) : Nat := 0x2188 + n
abbrev SNS_IMU_GYR_VAL (n : Nat) : Field := ⟨SNS_IMU_GYR n, 31, 0⟩
abbrev SNS_IMU_ACC (n : Nat) : Nat := 0x218B + n
abbrev SNS_IMU_ACC_VAL (n : Nat) : Field := ⟨SNS_IMU_ACC n, 31, 0⟩
abbrev GNS_CTRL : Nat := 0x2400
abbrev GNS_CTRL_CONST : Field := ⟨GNS_CTRL, 2, 0⟩
abbrev GNS_CTRL_BANDS : Field := ⟨GNS_CTRL, 7, 4⟩
abbrev GNS_CTRL_RTK_EN : Field := ⟨GNS_CTRL, 8, 8⟩
abbrev GNS_CTRL_HDG_EN : Field := ⟨GNS_CTRL, 9, 9⟩
abbrev GNS_CTRL_RST : Field := ⟨GNS_CTRL, 31, 31⟩
abbrev GNS_STAT : Nat := 0x2401
abbrev GNS_STAT_TYPE : Field := ⟨GNS_STAT, 2, 0⟩
abbrev GNS_STAT_HDG_V : Field := ⟨GNS_STAT, 3, 3⟩
abbrev GNS_STAT_RF_LOCK : Field := ⟨GNS_STAT, 4, 4⟩
abbrev GNS_STAT_TIMEV : Field := ⟨GNS_STAT, 5, 5⟩
abbrev GNS_STAT_NUSED : Field := ⟨GNS_STAT, 13, 8⟩
abbrev GNS_STAT_NTRK : Field := ⟨GNS_STAT, 23, 16⟩
abbrev GNS_STAT_SRC : Field := ⟨GNS_STAT, 25, 24⟩
abbrev GNS_STAT_SRCV : Field := ⟨GNS_STAT, 26, 26⟩
abbrev GNS_STAT_ANT_FLT : Field := ⟨GNS_STAT, 27, 27⟩
abbrev GNS_FLT : Nat := 0x2402
abbrev GNS_FLT_OPEN0 : Field := ⟨GNS_FLT, 0, 0⟩
abbrev GNS_FLT_SHORT0 : Field := ⟨GNS_FLT, 1, 1⟩
abbrev GNS_FLT_OPEN1 : Field := ⟨GNS_FLT, 2, 2⟩
abbrev GNS_FLT_SHORT1 : Field := ⟨GNS_FLT, 3, 3⟩
abbrev GNS_FLT_AGC_LIM : Field := ⟨GNS_FLT, 4, 4⟩
abbrev GNS_FLT_RTCM_LOST : Field := ⟨GNS_FLT, 5, 5⟩
abbrev GNS_FLT_BASE_CHG : Field := ⟨GNS_FLT, 6, 6⟩
abbrev GNS_ANT_CFG (n : Nat) : Nat := 0x2404 + 4 * n
abbrev GNS_ANT_CFG_BIAS_EN (n : Nat) : Field := ⟨GNS_ANT_CFG n, 0, 0⟩
abbrev GNS_ANT_CFG_ILIM (n : Nat) : Field := ⟨GNS_ANT_CFG n, 15, 8⟩
abbrev GNS_ANT_STAT (n : Nat) : Nat := 0x2405 + 4 * n
abbrev GNS_ANT_STAT_IBIAS (n : Nat) : Field := ⟨GNS_ANT_STAT n, 7, 0⟩
abbrev GNS_ANT_STAT_OPEN (n : Nat) : Field := ⟨GNS_ANT_STAT n, 8, 8⟩
abbrev GNS_ANT_STAT_SHORT (n : Nat) : Field := ⟨GNS_ANT_STAT n, 9, 9⟩
abbrev GNS_ANT_RF (n : Nat) : Nat := 0x2406 + 4 * n
abbrev GNS_ANT_RF_AGC1 (n : Nat) : Field := ⟨GNS_ANT_RF n, 7, 0⟩
abbrev GNS_ANT_RF_AGC5 (n : Nat) : Field := ⟨GNS_ANT_RF n, 15, 8⟩
abbrev GNS_ANT_RF_NF1 (n : Nat) : Field := ⟨GNS_ANT_RF n, 23, 16⟩
abbrev GNS_ANT_RF_NF5 (n : Nat) : Field := ⟨GNS_ANT_RF n, 31, 24⟩
abbrev GNS_ACQ : Nat := 0x2410
abbrev GNS_ACQ_DOPW : Field := ⟨GNS_ACQ, 7, 0⟩
abbrev GNS_ACQ_TCOH : Field := ⟨GNS_ACQ, 11, 8⟩
abbrev GNS_ACQ_NNC : Field := ⟨GNS_ACQ, 15, 12⟩
abbrev GNS_ACQ_THR : Field := ⟨GNS_ACQ, 23, 16⟩
abbrev GNS_AID : Nat := 0x2411
abbrev GNS_AID_CODEW : Field := ⟨GNS_AID, 5, 0⟩
abbrev GNS_AID_FREQW : Field := ⟨GNS_AID, 15, 8⟩
abbrev GNS_AID_TCOH_A : Field := ⟨GNS_AID, 19, 16⟩
abbrev GNS_AID_NNC_A : Field := ⟨GNS_AID, 23, 20⟩
abbrev GNS_AID_HOLD : Field := ⟨GNS_AID, 31, 24⟩
abbrev GNS_TRK : Nat := 0x2412
abbrev GNS_TRK_PLL_BW : Field := ⟨GNS_TRK, 7, 0⟩
abbrev GNS_TRK_FLL_BW : Field := ⟨GNS_TRK, 15, 8⟩
abbrev GNS_TRK_DLL_BW : Field := ⟨GNS_TRK, 23, 16⟩
abbrev GNS_TRK_SPC : Field := ⟨GNS_TRK, 25, 24⟩
abbrev GNS_LOCK : Nat := 0x2413
abbrev GNS_LOCK_PLI_TH : Field := ⟨GNS_LOCK, 7, 0⟩
abbrev GNS_LOCK_LOSS_CN0 : Field := ⟨GNS_LOCK, 15, 8⟩
abbrev GNS_LOCK_LOSS_T : Field := ⟨GNS_LOCK, 23, 16⟩
abbrev GNS_MASK : Nat := 0x2414
abbrev GNS_MASK_ELEV : Field := ⟨GNS_MASK, 7, 0⟩
abbrev GNS_MASK_CN0 : Field := ⟨GNS_MASK, 15, 8⟩
abbrev GNS_RTK : Nat := 0x2418
abbrev GNS_RTK_AGE_MAX : Field := ⟨GNS_RTK, 7, 0⟩
abbrev GNS_RTK_SRC_HOLD : Field := ⟨GNS_RTK, 15, 8⟩
abbrev GNS_RTK_RATIO : Field := ⟨GNS_RTK, 23, 16⟩
abbrev GNS_RTK_STAT : Nat := 0x2419
abbrev GNS_RTK_STAT_AGE : Field := ⟨GNS_RTK_STAT, 15, 0⟩
abbrev GNS_RTK_STAT_STID : Field := ⟨GNS_RTK_STAT, 27, 16⟩
abbrev GNS_HDG_CFG : Nat := 0x241A
abbrev GNS_HDG_CFG_TOL : Field := ⟨GNS_HDG_CFG, 15, 0⟩
abbrev GNS_SOL_STEP : Nat := 0x2420
abbrev GNS_SOL_STEP_VAL : Field := ⟨GNS_SOL_STEP, 31, 0⟩
abbrev GNS_SOL_T_LO : Nat := 0x2421
abbrev GNS_SOL_T_LO_VAL : Field := ⟨GNS_SOL_T_LO, 31, 0⟩
abbrev GNS_SOL_T_HI : Nat := 0x2422
abbrev GNS_SOL_T_HI_VAL : Field := ⟨GNS_SOL_T_HI, 31, 0⟩
abbrev GNS_SOL_LAT_LO : Nat := 0x2423
abbrev GNS_SOL_LAT_LO_VAL : Field := ⟨GNS_SOL_LAT_LO, 31, 0⟩
abbrev GNS_SOL_LAT_HI : Nat := 0x2424
abbrev GNS_SOL_LAT_HI_VAL : Field := ⟨GNS_SOL_LAT_HI, 31, 0⟩
abbrev GNS_SOL_LON_LO : Nat := 0x2425
abbrev GNS_SOL_LON_LO_VAL : Field := ⟨GNS_SOL_LON_LO, 31, 0⟩
abbrev GNS_SOL_LON_HI : Nat := 0x2426
abbrev GNS_SOL_LON_HI_VAL : Field := ⟨GNS_SOL_LON_HI, 31, 0⟩
abbrev GNS_SOL_HGT : Nat := 0x2427
abbrev GNS_SOL_HGT_VAL : Field := ⟨GNS_SOL_HGT, 31, 0⟩
abbrev GNS_SOL_VEL (n : Nat) : Nat := 0x2428 + n
abbrev GNS_SOL_VEL_VAL (n : Nat) : Field := ⟨GNS_SOL_VEL n, 31, 0⟩
abbrev GNS_SOL_SIG : Nat := 0x242B
abbrev GNS_SOL_SIG_H : Field := ⟨GNS_SOL_SIG, 15, 0⟩
abbrev GNS_SOL_SIG_V : Field := ⟨GNS_SOL_SIG, 31, 16⟩
abbrev GNS_SOL_INFO : Nat := 0x242C
abbrev GNS_SOL_INFO_TYPE : Field := ⟨GNS_SOL_INFO, 2, 0⟩
abbrev GNS_SOL_INFO_NSV : Field := ⟨GNS_SOL_INFO, 9, 4⟩
abbrev GNS_SOL_INFO_PDOP : Field := ⟨GNS_SOL_INFO, 23, 16⟩
abbrev GNS_SOL_INFO_LAT : Field := ⟨GNS_SOL_INFO, 31, 24⟩
abbrev GNS_HDG : Nat := 0x242D
abbrev GNS_HDG_VAL : Field := ⟨GNS_HDG, 31, 0⟩
abbrev GNS_HDG_PITCH : Nat := 0x242E
abbrev GNS_HDG_PITCH_VAL : Field := ⟨GNS_HDG_PITCH, 31, 0⟩
abbrev GNS_HDG_INFO : Nat := 0x242F
abbrev GNS_HDG_INFO_SIG : Field := ⟨GNS_HDG_INFO, 15, 0⟩
abbrev GNS_HDG_INFO_LEN : Field := ⟨GNS_HDG_INFO, 31, 16⟩
abbrev GNS_CNT_RTCM : Nat := 0x2430
abbrev GNS_CNT_RTCM_CNT : Field := ⟨GNS_CNT_RTCM, 31, 0⟩
abbrev GNS_CNT_RTCM_CRC : Nat := 0x2431
abbrev GNS_CNT_RTCM_CRC_CNT : Field := ⟨GNS_CNT_RTCM_CRC, 31, 0⟩
abbrev GNS_CNT_RTCM_DISC : Nat := 0x2432
abbrev GNS_CNT_RTCM_DISC_CNT : Field := ⟨GNS_CNT_RTCM_DISC, 31, 0⟩
abbrev GNS_CNT_RTCM_FRGN : Nat := 0x2433
abbrev GNS_CNT_RTCM_FRGN_CNT : Field := ⟨GNS_CNT_RTCM_FRGN, 31, 0⟩
abbrev GNS_CNT_SLIP : Nat := 0x2434
abbrev GNS_CNT_SLIP_CNT : Field := ⟨GNS_CNT_SLIP, 31, 0⟩
abbrev GNS_CNT_LOSS : Nat := 0x2435
abbrev GNS_CNT_LOSS_CNT : Field := ⟨GNS_CNT_LOSS, 31, 0⟩
abbrev GNS_CNT_ACQ : Nat := 0x2436
abbrev GNS_CNT_ACQ_CNT : Field := ⟨GNS_CNT_ACQ, 31, 0⟩
abbrev GNS_CNT_REACQ : Nat := 0x2437
abbrev GNS_CNT_REACQ_CNT : Field := ⟨GNS_CNT_REACQ, 31, 0⟩
abbrev GNS_IRQ : Nat := 0x2438
abbrev GNS_IRQ_MEAS : Field := ⟨GNS_IRQ, 0, 0⟩
abbrev GNS_IRQ_SOL : Field := ⟨GNS_IRQ, 1, 1⟩
abbrev GNS_IRQ_TYPE : Field := ⟨GNS_IRQ, 2, 2⟩
abbrev GNS_IRQ_ANT : Field := ⟨GNS_IRQ, 3, 3⟩
abbrev GNS_IRQ_NAV : Field := ⟨GNS_IRQ, 4, 4⟩
abbrev GNS_IEN : Nat := 0x2439
abbrev GNS_IEN_EN : Field := ⟨GNS_IEN, 4, 0⟩
abbrev GNS_SLOT_SEL : Nat := 0x2500
abbrev GNS_SLOT_SEL_SLOT : Field := ⟨GNS_SLOT_SEL, 7, 0⟩
abbrev GNS_SLOT_EP : Nat := 0x2501
abbrev GNS_SLOT_EP_VAL : Field := ⟨GNS_SLOT_EP, 31, 0⟩
abbrev GNS_SLOT_ID : Nat := 0x2502
abbrev GNS_SLOT_ID_STATE : Field := ⟨GNS_SLOT_ID, 2, 0⟩
abbrev GNS_SLOT_ID_PORT : Field := ⟨GNS_SLOT_ID, 3, 3⟩
abbrev GNS_SLOT_ID_SIG : Field := ⟨GNS_SLOT_ID, 7, 4⟩
abbrev GNS_SLOT_ID_SVID : Field := ⟨GNS_SLOT_ID, 13, 8⟩
abbrev GNS_SLOT_TRK : Nat := 0x2503
abbrev GNS_SLOT_TRK_CN0 : Field := ⟨GNS_SLOT_TRK, 15, 0⟩
abbrev GNS_SLOT_TRK_PLI : Field := ⟨GNS_SLOT_TRK, 23, 16⟩
abbrev GNS_SLOT_TRK_FLAGS : Field := ⟨GNS_SLOT_TRK, 31, 24⟩
abbrev GNS_SLOT_DOPP : Nat := 0x2504
abbrev GNS_SLOT_DOPP_VAL : Field := ⟨GNS_SLOT_DOPP, 31, 0⟩
abbrev GNS_SLOT_LOCK : Nat := 0x2505
abbrev GNS_SLOT_LOCK_LOCKT : Field := ⟨GNS_SLOT_LOCK, 15, 0⟩
abbrev GNS_SLOT_LOCK_SLIPC : Field := ⟨GNS_SLOT_LOCK, 23, 16⟩
abbrev GNS_SLOT_CFG : Nat := 0x2506
abbrev GNS_SLOT_CFG_PIN : Field := ⟨GNS_SLOT_CFG, 0, 0⟩
abbrev GNS_SLOT_CFG_PRIV : Field := ⟨GNS_SLOT_CFG, 1, 1⟩
abbrev GNS_SLOT_CFG_PORT : Field := ⟨GNS_SLOT_CFG, 2, 2⟩
abbrev GNS_SLOT_CFG_SIG : Field := ⟨GNS_SLOT_CFG, 7, 4⟩
abbrev GNS_SLOT_CFG_SVID : Field := ⟨GNS_SLOT_CFG, 13, 8⟩
abbrev GNS_SLOT_SUM (n : Nat) : Nat := 0x2600 + n
abbrev GNS_SLOT_SUM_STATE (n : Nat) : Field := ⟨GNS_SLOT_SUM n, 2, 0⟩
abbrev GNS_SLOT_SUM_PORT (n : Nat) : Field := ⟨GNS_SLOT_SUM n, 3, 3⟩
abbrev GNS_SLOT_SUM_SIG (n : Nat) : Field := ⟨GNS_SLOT_SUM n, 7, 4⟩
abbrev GNS_SLOT_SUM_SVID (n : Nat) : Field := ⟨GNS_SLOT_SUM n, 13, 8⟩
abbrev GNS_SLOT_SUM_CN0 (n : Nat) : Field := ⟨GNS_SLOT_SUM n, 23, 16⟩
abbrev GNS_SLOT_SUM_FLAGS (n : Nat) : Field := ⟨GNS_SLOT_SUM n, 31, 24⟩
abbrev TIM_CTRL : Nat := 0x2800
abbrev TIM_CTRL_SNAP : Field := ⟨TIM_CTRL, 0, 0⟩
abbrev TIM_SNAP_STEP : Nat := 0x2801
abbrev TIM_SNAP_STEP_VAL : Field := ⟨TIM_SNAP_STEP, 31, 0⟩
abbrev TIM_BND_LO : Nat := 0x2802
abbrev TIM_BND_LO_VAL : Field := ⟨TIM_BND_LO, 31, 0⟩
abbrev TIM_BND_HI : Nat := 0x2803
abbrev TIM_BND_HI_VAL : Field := ⟨TIM_BND_HI, 31, 0⟩
abbrev TIM_TB_CTRL (n : Nat) : Nat := 0x2810 + 0x10 * n
abbrev TIM_TB_CTRL_SRC (n : Nat) : Field := ⟨TIM_TB_CTRL n, 1, 0⟩
abbrev TIM_TB_CTRL_FOLLOW (n : Nat) : Field := ⟨TIM_TB_CTRL n, 5, 4⟩
abbrev TIM_TB_CTRL_ADJ (n : Nat) : Field := ⟨TIM_TB_CTRL n, 9, 8⟩
abbrev TIM_TB_CTRL_AT_SEC (n : Nat) : Field := ⟨TIM_TB_CTRL n, 10, 10⟩
abbrev TIM_TB_STAT (n : Nat) : Nat := 0x2811 + 0x10 * n
abbrev TIM_TB_STAT_VALID (n : Nat) : Field := ⟨TIM_TB_STAT n, 0, 0⟩
abbrev TIM_TB_STAT_HOLDOVER (n : Nat) : Field := ⟨TIM_TB_STAT n, 1, 1⟩
abbrev TIM_TB_STAT_LIMIT (n : Nat) : Field := ⟨TIM_TB_STAT n, 2, 2⟩
abbrev TIM_TB_STAT_SLEWING (n : Nat) : Field := ⟨TIM_TB_STAT n, 3, 3⟩
abbrev TIM_TB_STAT_ADJ_PEND (n : Nat) : Field := ⟨TIM_TB_STAT n, 4, 4⟩
abbrev TIM_TB_STAT_STEPPED (n : Nat) : Field := ⟨TIM_TB_STAT n, 8, 8⟩
abbrev TIM_TB_NOW_LO (n : Nat) : Nat := 0x2812 + 0x10 * n
abbrev TIM_TB_NOW_LO_VAL (n : Nat) : Field := ⟨TIM_TB_NOW_LO n, 31, 0⟩
abbrev TIM_TB_NOW_HI (n : Nat) : Nat := 0x2813 + 0x10 * n
abbrev TIM_TB_NOW_HI_VAL (n : Nat) : Field := ⟨TIM_TB_NOW_HI n, 31, 0⟩
abbrev TIM_TB_RATE (n : Nat) : Nat := 0x2814 + 0x10 * n
abbrev TIM_TB_RATE_VAL (n : Nat) : Field := ⟨TIM_TB_RATE n, 31, 0⟩
abbrev TIM_TB_SLEWR (n : Nat) : Nat := 0x2815 + 0x10 * n
abbrev TIM_TB_SLEWR_VAL (n : Nat) : Field := ⟨TIM_TB_SLEWR n, 13, 0⟩
abbrev TIM_TB_ADJ_LO (n : Nat) : Nat := 0x2816 + 0x10 * n
abbrev TIM_TB_ADJ_LO_VAL (n : Nat) : Field := ⟨TIM_TB_ADJ_LO n, 31, 0⟩
abbrev TIM_TB_ADJ_HI (n : Nat) : Nat := 0x2817 + 0x10 * n
abbrev TIM_TB_ADJ_HI_VAL (n : Nat) : Field := ⟨TIM_TB_ADJ_HI n, 31, 0⟩
abbrev TIM_TB_SLEWREM (n : Nat) : Nat := 0x2818 + 0x10 * n
abbrev TIM_TB_SLEWREM_VAL (n : Nat) : Field := ⟨TIM_TB_SLEWREM n, 31, 0⟩
abbrev TIM_TB_SNAP_LO (n : Nat) : Nat := 0x2819 + 0x10 * n
abbrev TIM_TB_SNAP_LO_VAL (n : Nat) : Field := ⟨TIM_TB_SNAP_LO n, 31, 0⟩
abbrev TIM_TB_SNAP_HI (n : Nat) : Nat := 0x281A + 0x10 * n
abbrev TIM_TB_SNAP_HI_VAL (n : Nat) : Field := ⟨TIM_TB_SNAP_HI n, 31, 0⟩
abbrev TIM_TB_ADJSTEP (n : Nat) : Nat := 0x281B + 0x10 * n
abbrev TIM_TB_ADJSTEP_VAL (n : Nat) : Field := ⟨TIM_TB_ADJSTEP n, 31, 0⟩
abbrev TIM_LEAP_CUR : Nat := 0x2850
abbrev TIM_LEAP_CUR_OFS : Field := ⟨TIM_LEAP_CUR, 15, 0⟩
abbrev TIM_LEAP_CUR_VALID : Field := ⟨TIM_LEAP_CUR, 16, 16⟩
abbrev TIM_LEAP_CUR_SRC : Field := ⟨TIM_LEAP_CUR, 17, 17⟩
abbrev TIM_LEAP_NEXT : Nat := 0x2851
abbrev TIM_LEAP_NEXT_OFS : Field := ⟨TIM_LEAP_NEXT, 15, 0⟩
abbrev TIM_LEAP_NEXT_PEND : Field := ⟨TIM_LEAP_NEXT, 16, 16⟩
abbrev TIM_LEAP_AT : Nat := 0x2852
abbrev TIM_LEAP_AT_SEC : Field := ⟨TIM_LEAP_AT, 31, 0⟩
abbrev TIM_HO_CFG : Nat := 0x2858
abbrev TIM_HO_CFG_LIMIT : Field := ⟨TIM_HO_CFG, 15, 0⟩
abbrev TIM_HO_CFG_ACTION : Field := ⟨TIM_HO_CFG, 16, 16⟩
abbrev TIM_HO_CFG_SLEW_MAX : Field := ⟨TIM_HO_CFG, 27, 24⟩
abbrev TIM_HO_MODEL : Nat := 0x2859
abbrev TIM_HO_MODEL_FU : Field := ⟨TIM_HO_MODEL, 15, 0⟩
abbrev TIM_HO_MODEL_AQ : Field := ⟨TIM_HO_MODEL, 31, 16⟩
abbrev TIM_HO_STAT : Nat := 0x285A
abbrev TIM_HO_STAT_T_HO : Field := ⟨TIM_HO_STAT, 15, 0⟩
abbrev TIM_HO_STAT_LRN : Field := ⟨TIM_HO_STAT, 25, 16⟩
abbrev TIM_HO_STAT_LRN_OK : Field := ⟨TIM_HO_STAT, 26, 26⟩
abbrev TIM_HO_UNC : Nat := 0x285B
abbrev TIM_HO_UNC_VAL : Field := ⟨TIM_HO_UNC, 31, 0⟩
abbrev TIM_HO_ERR : Nat := 0x285C
abbrev TIM_HO_ERR_VAL : Field := ⟨TIM_HO_ERR, 31, 0⟩
abbrev TIM_CNT_STEP : Nat := 0x285E
abbrev TIM_CNT_STEP_CNT : Field := ⟨TIM_CNT_STEP, 31, 0⟩
abbrev TIM_CNT_HO : Nat := 0x285F
abbrev TIM_CNT_HO_CNT : Field := ⟨TIM_CNT_HO, 31, 0⟩
abbrev TIM_PPS_CFG (n : Nat) : Nat := 0x2860 + 0x10 * n
abbrev TIM_PPS_CFG_EN (n : Nat) : Field := ⟨TIM_PPS_CFG n, 0, 0⟩
abbrev TIM_PPS_CFG_POL (n : Nat) : Field := ⟨TIM_PPS_CFG n, 1, 1⟩
abbrev TIM_PPS_CFG_TB (n : Nat) : Field := ⟨TIM_PPS_CFG n, 3, 2⟩
abbrev TIM_PPS_CFG_WIDTH (n : Nat) : Field := ⟨TIM_PPS_CFG n, 30, 12⟩
abbrev TIM_PPS_PER (n : Nat) : Nat := 0x2861 + 0x10 * n
abbrev TIM_PPS_PER_PER (n : Nat) : Field := ⟨TIM_PPS_PER n, 9, 0⟩
abbrev TIM_PPS_OFS (n : Nat) : Nat := 0x2862 + 0x10 * n
abbrev TIM_PPS_OFS_VAL (n : Nat) : Field := ⟨TIM_PPS_OFS n, 31, 0⟩
abbrev TIM_PPS_STAT (n : Nat) : Nat := 0x2863 + 0x10 * n
abbrev TIM_PPS_STAT_CNT (n : Nat) : Field := ⟨TIM_PPS_STAT n, 15, 0⟩
abbrev TIM_PPS_STAT_SUPP (n : Nat) : Field := ⟨TIM_PPS_STAT n, 16, 16⟩
abbrev TIM_PPS_MSG (n k : Nat) : Nat := 0x2864 + 0x10 * n + k
abbrev TIM_PPS_MSG_VAL (n k : Nat) : Field := ⟨TIM_PPS_MSG n k, 31, 0⟩
abbrev TIM_IRQ : Nat := 0x2880
abbrev TIM_IRQ_PPS0 : Field := ⟨TIM_IRQ, 0, 0⟩
abbrev TIM_IRQ_PPS1 : Field := ⟨TIM_IRQ, 1, 1⟩
abbrev TIM_IRQ_HO : Field := ⟨TIM_IRQ, 2, 2⟩
abbrev TIM_IRQ_STEP : Field := ⟨TIM_IRQ, 3, 3⟩
abbrev TIM_IRQ_LEAP : Field := ⟨TIM_IRQ, 4, 4⟩
abbrev TIM_IEN : Nat := 0x2881
abbrev TIM_IEN_EN : Field := ⟨TIM_IEN, 4, 0⟩
abbrev ETH_CTRL : Nat := 0x2900
abbrev ETH_CTRL_EN : Field := ⟨ETH_CTRL, 0, 0⟩
abbrev ETH_MAC_LO : Nat := 0x2901
abbrev ETH_MAC_LO_VAL : Field := ⟨ETH_MAC_LO, 31, 0⟩
abbrev ETH_MAC_HI : Nat := 0x2902
abbrev ETH_MAC_HI_VAL : Field := ⟨ETH_MAC_HI, 15, 0⟩
abbrev ETH_IP_ADDR : Nat := 0x2903
abbrev ETH_IP_ADDR_VAL : Field := ⟨ETH_IP_ADDR, 31, 0⟩
abbrev ETH_IP_MASK : Nat := 0x2904
abbrev ETH_IP_MASK_VAL : Field := ⟨ETH_IP_MASK, 31, 0⟩
abbrev ETH_UDP : Nat := 0x2905
abbrev ETH_UDP_PORT : Field := ⟨ETH_UDP, 15, 0⟩
abbrev ETH_SW_CFG : Nat := 0x2908
abbrev ETH_SW_CFG_AGE : Field := ⟨ETH_SW_CFG, 15, 0⟩
abbrev ETH_SW_STAT : Nat := 0x2909
abbrev ETH_SW_STAT_ENTRIES : Field := ⟨ETH_SW_STAT, 10, 0⟩
abbrev ETH_PT_CFG (n : Nat) : Nat := 0x2910 + 0x10 * n
abbrev ETH_PT_CFG_ROLE (n : Nat) : Field := ⟨ETH_PT_CFG n, 0, 0⟩
abbrev ETH_PT_STAT (n : Nat) : Nat := 0x2911 + 0x10 * n
abbrev ETH_PT_STAT_LINK (n : Nat) : Field := ⟨ETH_PT_STAT n, 0, 0⟩
abbrev ETH_PT_STAT_SQI (n : Nat) : Field := ⟨ETH_PT_STAT n, 3, 1⟩
abbrev ETH_PT_STAT_LINKUPS (n : Nat) : Field := ⟨ETH_PT_STAT n, 31, 16⟩
abbrev ETH_PT_LAT (n : Nat) : Nat := 0x2912 + 0x10 * n
abbrev ETH_PT_LAT_ING (n : Nat) : Field := ⟨ETH_PT_LAT n, 15, 0⟩
abbrev ETH_PT_LAT_EGR (n : Nat) : Field := ⟨ETH_PT_LAT n, 31, 16⟩
abbrev ETH_PT_RX (n : Nat) : Nat := 0x2913 + 0x10 * n
abbrev ETH_PT_RX_CNT (n : Nat) : Field := ⟨ETH_PT_RX n, 31, 0⟩
abbrev ETH_PT_TX (n : Nat) : Nat := 0x2914 + 0x10 * n
abbrev ETH_PT_TX_CNT (n : Nat) : Field := ⟨ETH_PT_TX n, 31, 0⟩
abbrev ETH_PT_ERR (n : Nat) : Nat := 0x2915 + 0x10 * n
abbrev ETH_PT_ERR_CNT (n : Nat) : Field := ⟨ETH_PT_ERR n, 31, 0⟩
abbrev ETH_PT_DROP (n : Nat) : Nat := 0x2916 + 0x10 * n
abbrev ETH_PT_DROP_CNT (n : Nat) : Field := ⟨ETH_PT_DROP n, 31, 0⟩
abbrev ETH_BYP_CTRL : Nat := 0x2940
abbrev ETH_BYP_CTRL_INSERT : Field := ⟨ETH_BYP_CTRL, 0, 0⟩
abbrev ETH_BYP_CTRL_BYPASS : Field := ⟨ETH_BYP_CTRL, 1, 1⟩
abbrev ETH_BYP_CTRL_AUTO_INS : Field := ⟨ETH_BYP_CTRL, 2, 2⟩
abbrev ETH_BYP_CTRL_AUTO_BYP : Field := ⟨ETH_BYP_CTRL, 3, 3⟩
abbrev ETH_BYP_CTRL_LOSS_T : Field := ⟨ETH_BYP_CTRL, 15, 8⟩
abbrev ETH_BYP_CTRL_LINK_T : Field := ⟨ETH_BYP_CTRL, 23, 16⟩
abbrev ETH_BYP_STAT : Nat := 0x2941
abbrev ETH_BYP_STAT_STATE : Field := ⟨ETH_BYP_STAT, 2, 0⟩
abbrev ETH_BYP_STAT_SENSE : Field := ⟨ETH_BYP_STAT, 3, 3⟩
abbrev ETH_BYP_STAT_COIL : Field := ⟨ETH_BYP_STAT, 4, 4⟩
abbrev ETH_BYP_STAT_FLT : Field := ⟨ETH_BYP_STAT, 8, 8⟩
abbrev ETH_BYP_STAT_OPER_T : Field := ⟨ETH_BYP_STAT, 31, 16⟩
abbrev ETH_BYP_CNT : Nat := 0x2942
abbrev ETH_BYP_CNT_INS : Field := ⟨ETH_BYP_CNT, 15, 0⟩
abbrev ETH_BYP_CNT_RET : Field := ⟨ETH_BYP_CNT, 31, 16⟩
abbrev PTP_TC_CFG : Nat := 0x2A00
abbrev PTP_TC_CFG_EN : Field := ⟨PTP_TC_CFG, 0, 0⟩
abbrev PTP_TC_CFG_L2 : Field := ⟨PTP_TC_CFG, 1, 1⟩
abbrev PTP_TC_CFG_UDP4 : Field := ⟨PTP_TC_CFG, 2, 2⟩
abbrev PTP_TC_CNT : Nat := 0x2A01
abbrev PTP_TC_CNT_CNT : Field := ⟨PTP_TC_CNT, 31, 0⟩
abbrev PTP_TC_MAXRES : Nat := 0x2A02
abbrev PTP_TC_MAXRES_VAL : Field := ⟨PTP_TC_MAXRES, 31, 0⟩
abbrev PTP_GP_CFG : Nat := 0x2A10
abbrev PTP_GP_CFG_MODE : Field := ⟨PTP_GP_CFG, 1, 0⟩
abbrev PTP_GP_CFG_PORT : Field := ⟨PTP_GP_CFG, 2, 2⟩
abbrev PTP_GP_CFG_GM_CAP : Field := ⟨PTP_GP_CFG, 3, 3⟩
abbrev PTP_GP_CFG_PRIO1 : Field := ⟨PTP_GP_CFG, 15, 8⟩
abbrev PTP_GP_CFG_LOGSYNC : Field := ⟨PTP_GP_CFG, 23, 16⟩
abbrev PTP_GP_STAT : Nat := 0x2A11
abbrev PTP_GP_STAT_ROLE : Field := ⟨PTP_GP_STAT, 1, 0⟩
abbrev PTP_GP_STAT_ASCAP : Field := ⟨PTP_GP_STAT, 3, 2⟩
abbrev PTP_GP_OFFS : Nat := 0x2A12
abbrev PTP_GP_OFFS_VAL : Field := ⟨PTP_GP_OFFS, 31, 0⟩
abbrev PTP_GP_PDLY : Nat := 0x2A13
abbrev PTP_GP_PDLY_P0 : Field := ⟨PTP_GP_PDLY, 15, 0⟩
abbrev PTP_GP_PDLY_P1 : Field := ⟨PTP_GP_PDLY, 31, 16⟩
abbrev PTP_OC_CFG : Nat := 0x2A20
abbrev PTP_OC_CFG_MODE : Field := ⟨PTP_OC_CFG, 1, 0⟩
abbrev PTP_OC_CFG_DOMAIN : Field := ⟨PTP_OC_CFG, 15, 8⟩
abbrev PTP_OC_CFG_TRANSP : Field := ⟨PTP_OC_CFG, 16, 16⟩
abbrev PTP_OC_CFG_PORTS : Field := ⟨PTP_OC_CFG, 18, 17⟩
abbrev PTP_OC_CFG_LOGSYNC : Field := ⟨PTP_OC_CFG, 31, 24⟩
abbrev PTP_OC_STAT : Nat := 0x2A21
abbrev PTP_OC_STAT_STATE : Field := ⟨PTP_OC_STAT, 2, 0⟩
abbrev PTP_OC_STAT_LOCKED : Field := ⟨PTP_OC_STAT, 3, 3⟩
abbrev PTP_OC_OFFS : Nat := 0x2A22
abbrev PTP_OC_OFFS_VAL : Field := ⟨PTP_OC_OFFS, 31, 0⟩
abbrev PTP_OC_MPD : Nat := 0x2A23
abbrev PTP_OC_MPD_VAL : Field := ⟨PTP_OC_MPD, 31, 0⟩
abbrev CAN_CTRL (n : Nat) : Nat := 0x2C00 + 0x100 * n
abbrev CAN_CTRL_EN (n : Nat) : Field := ⟨CAN_CTRL n, 0, 0⟩
abbrev CAN_CTRL_FD_EN (n : Nat) : Field := ⟨CAN_CTRL n, 1, 1⟩
abbrev CAN_CTRL_ISOBUS (n : Nat) : Field := ⟨CAN_CTRL n, 2, 2⟩
abbrev CAN_CTRL_HOSTLINK (n : Nat) : Field := ⟨CAN_CTRL n, 3, 3⟩
abbrev CAN_CTRL_RECOV (n : Nat) : Field := ⟨CAN_CTRL n, 4, 4⟩
abbrev CAN_CTRL_RECOVER (n : Nat) : Field := ⟨CAN_CTRL n, 5, 5⟩
abbrev CAN_CTRL_TSB (n : Nat) : Field := ⟨CAN_CTRL n, 7, 6⟩
abbrev CAN_CTRL_RETRY (n : Nat) : Field := ⟨CAN_CTRL n, 11, 8⟩
abbrev CAN_CTRL_UNLIM (n : Nat) : Field := ⟨CAN_CTRL n, 12, 12⟩
abbrev CAN_STAT (n : Nat) : Nat := 0x2C01 + 0x100 * n
abbrev CAN_STAT_STATE (n : Nat) : Field := ⟨CAN_STAT n, 2, 0⟩
abbrev CAN_STAT_LEC (n : Nat) : Field := ⟨CAN_STAT n, 6, 4⟩
abbrev CAN_STAT_TEC (n : Nat) : Field := ⟨CAN_STAT n, 15, 8⟩
abbrev CAN_STAT_REC (n : Nat) : Field := ⟨CAN_STAT n, 22, 16⟩
abbrev CAN_STAT_RP (n : Nat) : Field := ⟨CAN_STAT n, 23, 23⟩
abbrev CAN_NBT (n : Nat) : Nat := 0x2C02 + 0x100 * n
abbrev CAN_NBT_NBRP (n : Nat) : Field := ⟨CAN_NBT n, 8, 0⟩
abbrev CAN_NBT_NSJW (n : Nat) : Field := ⟨CAN_NBT n, 15, 9⟩
abbrev CAN_NBT_NTSEG1 (n : Nat) : Field := ⟨CAN_NBT n, 23, 16⟩
abbrev CAN_NBT_NTSEG2 (n : Nat) : Field := ⟨CAN_NBT n, 30, 24⟩
abbrev CAN_DBT (n : Nat) : Nat := 0x2C03 + 0x100 * n
abbrev CAN_DBT_DBRP (n : Nat) : Field := ⟨CAN_DBT n, 4, 0⟩
abbrev CAN_DBT_DSJW (n : Nat) : Field := ⟨CAN_DBT n, 11, 8⟩
abbrev CAN_DBT_DTSEG1 (n : Nat) : Field := ⟨CAN_DBT n, 20, 16⟩
abbrev CAN_DBT_DTSEG2 (n : Nat) : Field := ⟨CAN_DBT n, 27, 24⟩
abbrev CAN_DBT_TDC_EN (n : Nat) : Field := ⟨CAN_DBT n, 31, 31⟩
abbrev CAN_TDC (n : Nat) : Nat := 0x2C04 + 0x100 * n
abbrev CAN_TDC_TDCO (n : Nat) : Field := ⟨CAN_TDC n, 6, 0⟩
abbrev CAN_TDC_TDCV (n : Nat) : Field := ⟨CAN_TDC n, 14, 8⟩
abbrev CAN_POOL (n : Nat) : Nat := 0x2C05 + 0x100 * n
abbrev CAN_POOL_BASE (n : Nat) : Field := ⟨CAN_POOL n, 8, 0⟩
abbrev CAN_POOL_SIZE (n : Nat) : Field := ⟨CAN_POOL n, 24, 16⟩
abbrev CAN_ELEM (n : Nat) : Nat := 0x2C06 + 0x100 * n
abbrev CAN_ELEM_TX_N (n : Nat) : Field := ⟨CAN_ELEM n, 6, 0⟩
abbrev CAN_ELEM_TX_DS (n : Nat) : Field := ⟨CAN_ELEM n, 9, 8⟩
abbrev CAN_ELEM_RX_DS (n : Nat) : Field := ⟨CAN_ELEM n, 13, 12⟩
abbrev CAN_BOFF (n : Nat) : Nat := 0x2C07 + 0x100 * n
abbrev CAN_BOFF_BO_DLY (n : Nat) : Field := ⟨CAN_BOFF n, 15, 0⟩
abbrev CAN_TT (n : Nat) : Nat := 0x2C08 + 0x100 * n
abbrev CAN_TT_WIN (n : Nat) : Field := ⟨CAN_TT n, 15, 0⟩
abbrev CAN_TT_LATE_WIN (n : Nat) : Field := ⟨CAN_TT n, 31, 16⟩
abbrev CAN_RXCFG (n : Nat) : Nat := 0x2C09 + 0x100 * n
abbrev CAN_RXCFG_NOMATCH (n : Nat) : Field := ⟨CAN_RXCFG n, 3, 0⟩
abbrev CAN_FIFO_CFG (n k : Nat) : Nat := 0x2C10 + 0x100 * n + k
abbrev CAN_FIFO_CFG_DEPTH (n k : Nat) : Field := ⟨CAN_FIFO_CFG n k, 9, 0⟩
abbrev CAN_FIFO_CFG_HOST (n k : Nat) : Field := ⟨CAN_FIFO_CFG n k, 17, 16⟩
abbrev CAN_FIFO_CFG_FW (n k : Nat) : Field := ⟨CAN_FIFO_CFG n k, 18, 18⟩
abbrev CAN_FIFO_CFG_OVW (n k : Nat) : Field := ⟨CAN_FIFO_CFG n k, 19, 19⟩
abbrev CAN_FIFO_STAT (n k : Nat) : Nat := 0x2C14 + 0x100 * n + k
abbrev CAN_FIFO_STAT_FILL (n k : Nat) : Field := ⟨CAN_FIFO_STAT n k, 9, 0⟩
abbrev CAN_FIFO_STAT_OVF_CNT (n k : Nat) : Field := ⟨CAN_FIFO_STAT n k, 31, 16⟩
abbrev CAN_FLT_ID (n k : Nat) : Nat := 0x2C20 + 0x100 * n + k
abbrev CAN_FLT_ID_ID (n k : Nat) : Field := ⟨CAN_FLT_ID n k, 28, 0⟩
abbrev CAN_FLT_ID_XTD (n k : Nat) : Field := ⟨CAN_FLT_ID n k, 29, 29⟩
abbrev CAN_FLT_ID_EN (n k : Nat) : Field := ⟨CAN_FLT_ID n k, 30, 30⟩
abbrev CAN_FLT_ID_REJ (n k : Nat) : Field := ⟨CAN_FLT_ID n k, 31, 31⟩
abbrev CAN_FLT_MASK (n k : Nat) : Nat := 0x2C40 + 0x100 * n + k
abbrev CAN_FLT_MASK_MASK (n k : Nat) : Field := ⟨CAN_FLT_MASK n k, 28, 0⟩
abbrev CAN_FLT_DST (n k : Nat) : Nat := 0x2C60 + 0x100 * n + k
abbrev CAN_FLT_DST_FIFOS (n k : Nat) : Field := ⟨CAN_FLT_DST n k, 3, 0⟩
abbrev CAN_TXB_STAT (n k : Nat) : Nat := 0x2C80 + 0x100 * n + k
abbrev CAN_TXB_STAT_STATE (n k : Nat) : Field := ⟨CAN_TXB_STAT n k, 3, 0⟩
abbrev CAN_TXB_STAT_BOFF (n k : Nat) : Field := ⟨CAN_TXB_STAT n k, 4, 4⟩
abbrev CAN_TXB_STAT_TT (n k : Nat) : Field := ⟨CAN_TXB_STAT n k, 5, 5⟩
abbrev CAN_TXB_STAT_RSV (n k : Nat) : Field := ⟨CAN_TXB_STAT n k, 6, 6⟩
abbrev CAN_TXB_STAT_OWNER (n k : Nat) : Field := ⟨CAN_TXB_STAT n k, 9, 8⟩
abbrev CAN_TXB_STAT_ATT (n k : Nat) : Field := ⟨CAN_TXB_STAT n k, 15, 12⟩
abbrev CAN_TXB_STAT_TAG (n k : Nat) : Field := ⟨CAN_TXB_STAT n k, 31, 16⟩
abbrev CAN_TXB_SEL (n : Nat) : Nat := 0x2CC0 + 0x100 * n
abbrev CAN_TXB_SEL_BUF (n : Nat) : Field := ⟨CAN_TXB_SEL n, 5, 0⟩
abbrev CAN_TXB_TIME_LO (n : Nat) : Nat := 0x2CC1 + 0x100 * n
abbrev CAN_TXB_TIME_LO_VAL (n : Nat) : Field := ⟨CAN_TXB_TIME_LO n, 31, 0⟩
abbrev CAN_TXB_TIME_HI (n : Nat) : Nat := 0x2CC2 + 0x100 * n
abbrev CAN_TXB_TIME_HI_VAL (n : Nat) : Field := ⟨CAN_TXB_TIME_HI n, 31, 0⟩
abbrev CAN_CNT_TX (n : Nat) : Nat := 0x2CD0 + 0x100 * n
abbrev CAN_CNT_TX_CNT (n : Nat) : Field := ⟨CAN_CNT_TX n, 31, 0⟩
abbrev CAN_CNT_RX (n : Nat) : Nat := 0x2CD1 + 0x100 * n
abbrev CAN_CNT_RX_CNT (n : Nat) : Field := ⟨CAN_CNT_RX n, 31, 0⟩
abbrev CAN_CNT_ERR (n : Nat) : Nat := 0x2CD2 + 0x100 * n
abbrev CAN_CNT_ERR_CNT (n : Nat) : Field := ⟨CAN_CNT_ERR n, 31, 0⟩
abbrev CAN_CNT_BOFF (n : Nat) : Nat := 0x2CD3 + 0x100 * n
abbrev CAN_CNT_BOFF_CNT (n : Nat) : Field := ⟨CAN_CNT_BOFF n, 31, 0⟩
abbrev CAN_CNT_NOACK (n : Nat) : Nat := 0x2CD4 + 0x100 * n
abbrev CAN_CNT_NOACK_CNT (n : Nat) : Field := ⟨CAN_CNT_NOACK n, 31, 0⟩
abbrev CAN_CNT_TTMISS (n : Nat) : Nat := 0x2CD5 + 0x100 * n
abbrev CAN_CNT_TTMISS_CNT (n : Nat) : Field := ⟨CAN_CNT_TTMISS n, 31, 0⟩
abbrev CAN_CNT_LATE (n : Nat) : Nat := 0x2CD6 + 0x100 * n
abbrev CAN_CNT_LATE_CNT (n : Nat) : Field := ⟨CAN_CNT_LATE n, 31, 0⟩
abbrev CAN_CNT_NOMATCH (n : Nat) : Nat := 0x2CD7 + 0x100 * n
abbrev CAN_CNT_NOMATCH_CNT (n : Nat) : Field := ⟨CAN_CNT_NOMATCH n, 31, 0⟩
abbrev CAN_CNT_TRUNC (n : Nat) : Nat := 0x2CD8 + 0x100 * n
abbrev CAN_CNT_TRUNC_CNT (n : Nat) : Field := ⟨CAN_CNT_TRUNC n, 31, 0⟩
abbrev CAN_CNT_ARBLOST (n : Nat) : Nat := 0x2CD9 + 0x100 * n
abbrev CAN_CNT_ARBLOST_CNT (n : Nat) : Field := ⟨CAN_CNT_ARBLOST n, 31, 0⟩
abbrev CAN_IRQ (n : Nat) : Nat := 0x2CE0 + 0x100 * n
abbrev CAN_IRQ_TX (n : Nat) : Field := ⟨CAN_IRQ n, 0, 0⟩
abbrev CAN_IRQ_RX (n : Nat) : Field := ⟨CAN_IRQ n, 1, 1⟩
abbrev CAN_IRQ_PASSIVE (n : Nat) : Field := ⟨CAN_IRQ n, 2, 2⟩
abbrev CAN_IRQ_BOFF (n : Nat) : Field := ⟨CAN_IRQ n, 3, 3⟩
abbrev CAN_IRQ_ACTIVE (n : Nat) : Field := ⟨CAN_IRQ n, 4, 4⟩
abbrev CAN_IRQ_TTMISS (n : Nat) : Field := ⟨CAN_IRQ n, 5, 5⟩
abbrev CAN_IRQ_OVF (n : Nat) : Field := ⟨CAN_IRQ n, 6, 6⟩
abbrev CAN_IEN (n : Nat) : Nat := 0x2CE1 + 0x100 * n
abbrev CAN_IEN_EN (n : Nat) : Field := ⟨CAN_IEN n, 6, 0⟩
abbrev CAN_ISO_CFG : Nat := 0x2CF0
abbrev CAN_ISO_CFG_PREF_SA : Field := ⟨CAN_ISO_CFG, 7, 0⟩
abbrev CAN_ISO_CFG_TC_EN : Field := ⟨CAN_ISO_CFG, 8, 8⟩
abbrev CAN_ISO_STAT : Nat := 0x2CF1
abbrev CAN_ISO_STAT_SA : Field := ⟨CAN_ISO_STAT, 7, 0⟩
abbrev CAN_ISO_STAT_CLAIMED : Field := ⟨CAN_ISO_STAT, 8, 8⟩
abbrev CAN_ISO_STAT_LOST : Field := ⟨CAN_ISO_STAT, 9, 9⟩
abbrev CAN_ISO_NAME_LO : Nat := 0x2CF2
abbrev CAN_ISO_NAME_LO_VAL : Field := ⟨CAN_ISO_NAME_LO, 31, 0⟩
abbrev CAN_ISO_NAME_HI : Nat := 0x2CF3
abbrev CAN_ISO_NAME_HI_VAL : Field := ⟨CAN_ISO_NAME_HI, 31, 0⟩

end Sys2Proof.Machine
end

