-- ==== Sys2Proof/Machine/RegTable.lean ====
section
/-!
DEFINITION. Sys2Proof/Machine/RegTable.lean: one row per register or register array of chapter 19: where it stands
(R472), its whole-register reset value (R473) and the masks of its bits by access code (R7, R8). A page (the index's
high byte) has its own list. An index no row covers is reserved (R9).
-/
namespace Sys2Proof.Machine

/-- Rows of page 0x00. -/
def regPage00 : List RegRow := [
  ⟨0x0000, 1, 1, 1, 1, 0x73400003#32, 0x00000000#32, 0x00000000#32, 0x00000000#32, 0x00000000#32, 0x00000000#32⟩,
  ⟨0x0001, 1, 1, 1, 1, 0x03000000#32, 0x00000000#32, 0x00000000#32, 0x00000000#32, 0x00000000#32, 0x00000000#32⟩,
  ⟨0x0002, 1, 1, 1, 1, 0x00000001#32, 0x00000000#32, 0x00000000#32, 0x00000000#32, 0x00000000#32, 0x00000000#32⟩,
  ⟨0x0004, 2, 1, 1, 1, 0x00000000#32, 0x00000000#32, 0x00000000#32, 0x00000000#32, 0x00000000#32, 0x00000000#32⟩,
  ⟨0x0010, 1, 1, 1, 1, 0x00000000#32, 0x00000000#32, 0x00000000#32, 0x00000000#32, 0x00000000#32, 0x00000000#32⟩,
  ⟨0x0014, 1, 1, 1, 1, 0x00000032#32, 0x000003FF#32, 0x00030000#32, 0x00000000#32, 0x00000000#32, 0x00000000#32⟩,
  ⟨0x0020, 1, 1, 1, 1, 0x0000B000#32, 0x00000007#32, 0x00000000#32, 0x00000000#32, 0x00000000#32, 0x00000000#32⟩,
  ⟨0x0028, 8, 1, 1, 1, 0x0000B007#32, 0x00000007#32, 0x00000000#32, 0x00000000#32, 0x00000000#32, 0x00000000#32⟩,
  ⟨0x0040, 64, 1, 1, 1, 0x0000B007#32, 0x00000007#32, 0x00000000#32, 0x00000000#32, 0x00000000#32, 0x00000000#32⟩]

/-- Rows of page 0x01. -/
def regPage01 : List RegRow := [
  ⟨0x0100, 1, 1, 1, 1, 0x00000000#32, 0x00000000#32, 0x00000000#32, 0x00000000#32, 0x00000000#32, 0x00000000#32⟩,
  ⟨0x0101, 1, 1, 1, 1, 0x00000000#32, 0x00000000#32, 0x00000000#32, 0x00000000#32, 0xFFFFFFFF#32, 0x00000000#32⟩,
  ⟨0x0110, 1, 8, 1, 1, 0x01F400F0#32, 0x3FFF00F3#32, 0x00000000#32, 0x00000000#32, 0x00000000#32, 0x00000000#32⟩,
  ⟨0x0118, 1, 8, 1, 1, 0x01F40023#32, 0x3FFF00F3#32, 0x00000000#32, 0x00000000#32, 0x00000000#32, 0x00000000#32⟩,
  ⟨0x0120, 1, 8, 1, 1, 0x01F40061#32, 0x3FFF00F3#32, 0x00000000#32, 0x00000000#32, 0x00000000#32, 0x00000000#32⟩,
  ⟨0x0128, 1, 8, 1, 1, 0x01F400C2#32, 0x3FFF00F3#32, 0x00000000#32, 0x00000000#32, 0x00000000#32, 0x00000000#32⟩,
  ⟨0x0111, 4, 8, 1, 1, 0x04000000#32, 0x00000000#32, 0x00000000#32, 0x00000000#32, 0x00000000#32, 0x00000000#32⟩,
  ⟨0x0112, 4, 8, 1, 1, 0x00000000#32, 0x00000000#32, 0x00000000#32, 0x00000000#32, 0x00000000#32, 0x00000000#32⟩,
  ⟨0x0113, 4, 8, 1, 1, 0x00000000#32, 0x00000000#32, 0x00000000#32, 0x00000000#32, 0x00000000#32, 0x00000000#32⟩,
  ⟨0x0114, 4, 8, 1, 1, 0x00000000#32, 0x00000000#32, 0x00000000#32, 0x00000000#32, 0x00000000#32, 0x00000000#32⟩,
  ⟨0x0115, 4, 8, 1, 1, 0x00000000#32, 0x00000000#32, 0x00000000#32, 0x00000000#32, 0xFFFFFFFF#32, 0x00000000#32⟩,
  ⟨0x0116, 4, 8, 1, 1, 0x00000000#32, 0x00000000#32, 0x00000000#32, 0x00000000#32, 0xFFFFFFFF#32, 0x00000000#32⟩,
  ⟨0x0117, 4, 8, 1, 1, 0x00000000#32, 0x00000000#32, 0x00000000#32, 0x00000000#32, 0xFFFFFFFF#32, 0x00000000#32⟩,
  ⟨0x0140, 1, 1, 1, 1, 0x06C00640#32, 0x07FF07FF#32, 0x00000000#32, 0x00000000#32, 0x00000000#32, 0x00000000#32⟩,
  ⟨0x0150, 1, 1, 1, 1, 0x00000000#32, 0x00000000#32, 0x00000000#32, 0x00000000#32, 0x00000000#32, 0x00000000#32⟩,
  ⟨0x0151, 1, 1, 1, 1, 0x00000000#32, 0x00000000#32, 0x00000000#32, 0x00000000#32, 0x00000000#32, 0x00000000#32⟩,
  ⟨0x0152, 1, 1, 1, 1, 0x00000000#32, 0x00000000#32, 0x00000000#32, 0x00000000#32, 0x00000000#32, 0x00000000#32⟩,
  ⟨0x0160, 1, 1, 1, 1, 0x00000000#32, 0x0000FF7F#32, 0x00000000#32, 0x00000000#32, 0x00000000#32, 0x00000000#32⟩,
  ⟨0x0168, 8, 1, 1, 1, 0x01000000#32, 0xFFFF001F#32, 0x00000000#32, 0x00000000#32, 0x00000000#32, 0x00000000#32⟩]

/-- Rows of page 0x02. -/
def regPage02 : List RegRow := [
  ⟨0x0200, 1, 1, 1, 1, 0x00000001#32, 0x00000003#32, 0x00000000#32, 0x00000000#32, 0x00000000#32, 0x00000000#32⟩,
  ⟨0x0201, 1, 1, 1, 1, 0x00000000#32, 0x00000000#32, 0x00000000#32, 0x00000000#32, 0x00000000#32, 0x00000000#32⟩,
  ⟨0x0202, 1, 1, 1, 1, 0x00000320#32, 0x000003FF#32, 0x00000000#32, 0x00000000#32, 0x00000000#32, 0x00000000#32⟩,
  ⟨0x0203, 1, 1, 1, 1, 0x00000320#32, 0x00000000#32, 0x00000000#32, 0x00000000#32, 0x00000000#32, 0x00000000#32⟩,
  ⟨0x0204, 1, 1, 1, 1, 0x3C145A32#32, 0xFFFFFFFF#32, 0x00000000#32, 0x00000000#32, 0x00000000#32, 0x00000000#32⟩,
  ⟨0x0205, 1, 1, 1, 1, 0xFFFF00FF#32, 0x00000000#32, 0x00000000#32, 0x00000000#32, 0x00000000#32, 0x00000000#32⟩,
  ⟨0x0206, 1, 1, 1, 1, 0x00000000#32, 0x00000000#32, 0x00000000#32, 0x00000000#32, 0x00000000#32, 0x00000000#32⟩,
  ⟨0x0207, 1, 1, 1, 1, 0x00000000#32, 0x00000000#32, 0x00000000#32, 0x00000000#32, 0x00000000#32, 0x00000000#32⟩,
  ⟨0x0208, 1, 1, 1, 1, 0x00000000#32, 0x00000000#32, 0x00000000#32, 0x00000000#32, 0x00000000#32, 0x00000000#32⟩,
  ⟨0x0209, 1, 1, 1, 1, 0x00000000#32, 0x00000000#32, 0x0000007F#32, 0x00000000#32, 0x00000000#32, 0x00000000#32⟩,
  ⟨0x020A, 1, 1, 1, 1, 0x00000000#32, 0x00000000#32, 0x00000001#32, 0x00000000#32, 0x00000000#32, 0x00000000#32⟩,
  ⟨0x020B, 1, 1, 1, 1, 0x00000000#32, 0x00000001#32, 0x00000000#32, 0x00000000#32, 0x00000000#32, 0x00000000#32⟩,
  ⟨0x020C, 1, 1, 1, 1, 0x00000000#32, 0x00000000#32, 0x00000000#32, 0x00000000#32, 0xFFFFFFFF#32, 0x00000000#32⟩,
  ⟨0x020D, 1, 1, 1, 1, 0x00000000#32, 0x00000000#32, 0x00000000#32, 0x00000000#32, 0xFFFFFFFF#32, 0x00000000#32⟩,
  ⟨0x0210, 12, 1, 1, 1, 0x00000000#32, 0x00000000#32, 0x00000000#32, 0x00000000#32, 0xFFFF0000#32, 0x00000000#32⟩,
  ⟨0x0220, 6, 1, 1, 1, 0x00009187#32, 0x0000FFFF#32, 0x00000000#32, 0x00000000#32, 0x00000000#32, 0x00000000#32⟩,
  ⟨0x0226, 1, 1, 1, 1, 0x00007D73#32, 0x0000FFFF#32, 0x00000000#32, 0x00000000#32, 0x00000000#32, 0x00000000#32⟩,
  ⟨0x0227, 1, 1, 1, 1, 0x00009187#32, 0x0000FFFF#32, 0x00000000#32, 0x00000000#32, 0x00000000#32, 0x00000000#32⟩,
  ⟨0x0228, 4, 1, 1, 1, 0x0000A596#32, 0x0000FFFF#32, 0x00000000#32, 0x00000000#32, 0x00000000#32, 0x00000000#32⟩,
  ⟨0x0230, 16, 1, 1, 1, 0x00000000#32, 0x00000000#32, 0x00000000#32, 0x00000000#32, 0x00000000#32, 0x00000000#32⟩,
  ⟨0x0240, 2, 1, 1, 1, 0x039C02AC#32, 0xFFFFFFFF#32, 0x00000000#32, 0x00000000#32, 0x00000000#32, 0x00000000#32⟩,
  ⟨0x0242, 1, 1, 1, 1, 0x076206AE#32, 0xFFFFFFFF#32, 0x00000000#32, 0x00000000#32, 0x00000000#32, 0x00000000#32⟩,
  ⟨0x0243, 1, 1, 1, 1, 0x0D890C3F#32, 0xFFFFFFFF#32, 0x00000000#32, 0x00000000#32, 0x00000000#32, 0x00000000#32⟩,
  ⟨0x0244, 1, 1, 1, 1, 0x04830415#32, 0xFFFFFFFF#32, 0x00000000#32, 0x00000000#32, 0x00000000#32, 0x00000000#32⟩,
  ⟨0x0245, 1, 1, 1, 1, 0x03B10357#32, 0xFFFFFFFF#32, 0x00000000#32, 0x00000000#32, 0x00000000#32, 0x00000000#32⟩,
  ⟨0x0246, 1, 1, 1, 1, 0x034802F8#32, 0xFFFFFFFF#32, 0x00000000#32, 0x00000000#32, 0x00000000#32, 0x00000000#32⟩,
  ⟨0x0247, 1, 1, 1, 1, 0x157C0BB8#32, 0xFFFFFFFF#32, 0x00000000#32, 0x00000000#32, 0x00000000#32, 0x00000000#32⟩,
  ⟨0x0248, 8, 1, 1, 1, 0x8CA01770#32, 0xFFFFFFFF#32, 0x00000000#32, 0x00000000#32, 0x00000000#32, 0x00000000#32⟩,
  ⟨0x0250, 8, 1, 1, 1, 0x00000000#32, 0x00000000#32, 0x00000000#32, 0x00000000#32, 0x00000000#32, 0x00000000#32⟩]

/-- Rows of page 0x03. -/
def regPage03 : List RegRow := [
  ⟨0x0300, 1, 1, 1, 1, 0x0000000A#32, 0x000003FF#32, 0x00000000#32, 0x00000000#32, 0x00000000#32, 0x00000000#32⟩,
  ⟨0x0301, 1, 1, 1, 1, 0x00000000#32, 0x00000000#32, 0x00000000#32, 0x00000000#32, 0x00000000#32, 0x00000000#32⟩,
  ⟨0x0302, 1, 1, 1, 1, 0x00000000#32, 0x00000000#32, 0x00000000#32, 0x00000000#32, 0x00000000#32, 0x00000000#32⟩,
  ⟨0x0303, 1, 1, 1, 1, 0x00000000#32, 0x00000000#32, 0x00000000#32, 0x00000000#32, 0x00000000#32, 0x00000000#32⟩,
  ⟨0x0304, 1, 1, 1, 1, 0x00000000#32, 0x00000000#32, 0x00000000#32, 0x00000000#32, 0xFFFFFFFF#32, 0x00000000#32⟩,
  ⟨0x0305, 1, 1, 1, 1, 0x00000000#32, 0x00000000#32, 0x00000000#32, 0x00000000#32, 0xFFFFFFFF#32, 0x00000000#32⟩,
  ⟨0x0306, 1, 1, 1, 1, 0x00000000#32, 0x00000000#32, 0x00000000#32, 0x00000000#32, 0xFFFFFFFF#32, 0x00000000#32⟩,
  ⟨0x0307, 1, 1, 1, 1, 0x00000000#32, 0x00000000#32, 0x00000000#32, 0x00000000#32, 0xFFFFFFFF#32, 0x00000000#32⟩]

/-- Rows of page 0x04. -/
def regPage04 : List RegRow := [
  ⟨0x0400, 1, 1, 1, 1, 0x0000000F#32, 0x00000000#32, 0x00000070#32, 0x00000000#32, 0x00000000#32, 0x00000000#32⟩,
  ⟨0x0401, 1, 1, 1, 1, 0x00000001#32, 0x00000000#32, 0x0000007F#32, 0x00000000#32, 0x00000000#32, 0x00000000#32⟩,
  ⟨0x0402, 1, 1, 1, 1, 0x00000000#32, 0x00000000#32, 0x00000000#32, 0x00000000#32, 0x00000000#32, 0x000F07FF#32⟩,
  ⟨0x0403, 1, 1, 1, 1, 0x000003E8#32, 0x0001FFFF#32, 0x00000000#32, 0x00000000#32, 0x00000000#32, 0x00000000#32⟩,
  ⟨0x0404, 1, 1, 1, 1, 0x00000000#32, 0x00000000#32, 0x3FFF3FFF#32, 0x00000000#32, 0x00000000#32, 0x00000000#32⟩,
  ⟨0x0405, 1, 1, 1, 1, 0x00000000#32, 0x00000000#32, 0x00000000#32, 0x00000000#32, 0xFFFFFFFF#32, 0x00000000#32⟩,
  ⟨0x0410, 14, 1, 1, 1, 0x00000000#32, 0x00000000#32, 0x00000000#32, 0x00000000#32, 0xFFFFFFFF#32, 0x00000000#32⟩,
  ⟨0x0420, 14, 1, 1, 1, 0x00000000#32, 0x00000000#32, 0x00000000#32, 0x00000000#32, 0x0000FFFF#32, 0x00000000#32⟩]

/-- Rows of page 0x08. -/
def regPage08 : List RegRow := [
  ⟨0x0800, 1, 1, 1, 1, 0x00760008#32, 0x00F77F3F#32, 0x00000000#32, 0x00000000#32, 0x00000000#32, 0x00000000#32⟩,
  ⟨0x0801, 1, 1, 1, 1, 0x00000000#32, 0x00000000#32, 0x00000000#32, 0x00000000#32, 0x00000000#32, 0x00000000#32⟩,
  ⟨0x0802, 1, 1, 1, 1, 0x000007D0#32, 0x00007FFF#32, 0x00000000#32, 0x00000000#32, 0x00000000#32, 0x00000000#32⟩,
  ⟨0x0803, 1, 1, 1, 1, 0x050A1E64#32, 0xFFFFFFFF#32, 0x00000000#32, 0x00000000#32, 0x00000000#32, 0x00000000#32⟩,
  ⟨0x0804, 1, 1, 1, 1, 0x00C84040#32, 0xFFFFFFFF#32, 0x00000000#32, 0x00000000#32, 0x00000000#32, 0x00000000#32⟩,
  ⟨0x0805, 1, 1, 1, 1, 0x00640A14#32, 0x00FFFFFF#32, 0x00000000#32, 0x00000000#32, 0x00000000#32, 0x00000000#32⟩,
  ⟨0x0806, 1, 1, 1, 1, 0x00000000#32, 0xFFFF000F#32, 0x00000000#32, 0x00000000#32, 0x00000000#32, 0x00000000#32⟩,
  ⟨0x0807, 1, 1, 1, 1, 0x00004E20#32, 0xFFFFFFFF#32, 0x00000000#32, 0x00000000#32, 0x00000000#32, 0x00000000#32⟩,
  ⟨0x0808, 2, 4, 3, 1, 0x00000000#32, 0xFFFFFFFF#32, 0x00000000#32, 0x00000000#32, 0x00000000#32, 0x00000000#32⟩,
  ⟨0x0810, 1, 1, 1, 1, 0x00000000#32, 0xFFFFFFFF#32, 0x00000000#32, 0x00000000#32, 0x00000000#32, 0x00000000#32⟩,
  ⟨0x0811, 1, 1, 1, 1, 0x00000000#32, 0xFFFFFFFF#32, 0x00000000#32, 0x00000000#32, 0x00000000#32, 0x00000000#32⟩,
  ⟨0x0814, 4, 1, 1, 1, 0x00010000#32, 0xFFFFFFFF#32, 0x00000000#32, 0x00000000#32, 0x00000000#32, 0x00000000#32⟩,
  ⟨0x0818, 4, 1, 1, 1, 0x00000000#32, 0xFFFFFFFF#32, 0x00000000#32, 0x00000000#32, 0x00000000#32, 0x00000000#32⟩,
  ⟨0x081C, 4, 1, 1, 1, 0x00010000#32, 0x00000000#32, 0x00000000#32, 0x00000000#32, 0x00000000#32, 0x00000000#32⟩,
  ⟨0x0820, 1, 1, 1, 1, 0x08104080#32, 0xFFFFFFFF#32, 0x00000000#32, 0x00000000#32, 0x00000000#32, 0x00000000#32⟩,
  ⟨0x0821, 1, 1, 1, 1, 0x00020000#32, 0x0003FFFF#32, 0x00000000#32, 0x00000000#32, 0x00000000#32, 0x00000000#32⟩,
  ⟨0x0822, 1, 1, 1, 1, 0x00000000#32, 0x00000000#32, 0x00000000#32, 0x00000000#32, 0x00000000#32, 0x00000000#32⟩,
  ⟨0x0830, 1, 1, 1, 1, 0x00000000#32, 0x00000000#32, 0x00000000#32, 0x00000000#32, 0x00000000#32, 0x00000000#32⟩,
  ⟨0x0831, 1, 1, 1, 1, 0x00000000#32, 0x00000000#32, 0x00000000#32, 0x00000000#32, 0x00000000#32, 0x00000000#32⟩,
  ⟨0x0832, 1, 1, 1, 1, 0x00000000#32, 0x00000000#32, 0x00000000#32, 0x00000000#32, 0x00000000#32, 0x00000000#32⟩,
  ⟨0x0833, 1, 1, 1, 1, 0x00000000#32, 0x00000000#32, 0x00000000#32, 0x00000000#32, 0x00000000#32, 0x00000000#32⟩,
  ⟨0x0834, 1, 1, 1, 1, 0x00000000#32, 0x00000000#32, 0x00000000#32, 0x00000000#32, 0x00000000#32, 0x00000000#32⟩,
  ⟨0x0835, 1, 1, 1, 1, 0x00000000#32, 0x00000000#32, 0x00000000#32, 0x00000000#32, 0x00000000#32, 0x00000000#32⟩,
  ⟨0x0836, 1, 1, 1, 1, 0x00000000#32, 0x00000000#32, 0x00000000#32, 0x00000000#32, 0x00000000#32, 0x00000000#32⟩,
  ⟨0x0837, 1, 1, 1, 1, 0x00000000#32, 0x00000000#32, 0x00000000#32, 0x00000000#32, 0x00000000#32, 0x00000000#32⟩,
  ⟨0x0838, 1, 1, 1, 1, 0x00000000#32, 0x00000000#32, 0x00000000#32, 0x00000000#32, 0x00000000#32, 0x00000000#32⟩,
  ⟨0x0839, 1, 1, 1, 1, 0x00000000#32, 0x00000000#32, 0x00000000#32, 0x00000000#32, 0x00000000#32, 0x00000000#32⟩,
  ⟨0x083A, 1, 1, 1, 1, 0x00000000#32, 0x00000000#32, 0x00000000#32, 0x00000000#32, 0x00000000#32, 0x00000000#32⟩,
  ⟨0x083B, 1, 1, 1, 1, 0x00000000#32, 0x00000000#32, 0x00000000#32, 0x00000000#32, 0x00000000#32, 0x00000000#32⟩,
  ⟨0x083C, 1, 1, 1, 1, 0xFFFFFFFF#32, 0x00000000#32, 0x00000000#32, 0x00000000#32, 0x00000000#32, 0x00000000#32⟩,
  ⟨0x083D, 1, 1, 1, 1, 0x00000000#32, 0x00000000#32, 0x00000000#32, 0x00000000#32, 0x00000000#32, 0x00000000#32⟩,
  ⟨0x083E, 1, 1, 1, 1, 0x00000000#32, 0x00000000#32, 0x00000000#32, 0x00000000#32, 0x00000000#32, 0x00000000#32⟩,
  ⟨0x0840, 1, 1, 1, 1, 0x00000000#32, 0x00000000#32, 0x00000000#32, 0x00000000#32, 0x00000000#32, 0x00000000#32⟩,
  ⟨0x0841, 1, 1, 1, 1, 0x00000000#32, 0x00000000#32, 0x00000000#32, 0x00000000#32, 0x00000000#32, 0x00000000#32⟩,
  ⟨0x0842, 1, 1, 1, 1, 0x00000000#32, 0x00000000#32, 0x00000000#32, 0x00000000#32, 0x00000000#32, 0x00000000#32⟩,
  ⟨0x0843, 1, 1, 1, 1, 0x00000000#32, 0x00000000#32, 0x00000000#32, 0x00000000#32, 0x00000000#32, 0x00000000#32⟩,
  ⟨0x0848, 1, 1, 1, 1, 0x00000000#32, 0x00000000#32, 0x00000000#32, 0x00000000#32, 0xFFFFFFFF#32, 0x00000000#32⟩,
  ⟨0x0849, 1, 1, 1, 1, 0x00000000#32, 0x00000000#32, 0x00000000#32, 0x00000000#32, 0xFFFFFFFF#32, 0x00000000#32⟩,
  ⟨0x084A, 1, 1, 1, 1, 0x00000000#32, 0x00000000#32, 0x00000000#32, 0x00000000#32, 0xFFFFFFFF#32, 0x00000000#32⟩]

/-- Rows of page 0x09. -/
def regPage09 : List RegRow := [
  ⟨0x0900, 1, 1, 1, 1, 0x00000000#32, 0x000001FF#32, 0x00000000#32, 0x00000000#32, 0x00000000#32, 0x00000000#32⟩,
  ⟨0x0901, 1, 1, 1, 1, 0x00000000#32, 0x00000000#32, 0x00000000#32, 0x00000000#32, 0x00000000#32, 0x00000000#32⟩,
  ⟨0x0902, 1, 1, 1, 1, 0x00000000#32, 0x00000000#32, 0x00000000#32, 0x00000000#32, 0x00000000#32, 0x00000000#32⟩,
  ⟨0x0903, 1, 1, 1, 1, 0x00000000#32, 0x00000000#32, 0x00000000#32, 0x00000000#32, 0x00000000#32, 0x00000000#32⟩,
  ⟨0x0904, 1, 1, 1, 1, 0x00000000#32, 0x00000000#32, 0x00000000#32, 0x00000000#32, 0x00000000#32, 0x00000000#32⟩,
  ⟨0x0905, 1, 1, 1, 1, 0x00000000#32, 0x00000000#32, 0x00000000#32, 0x00000000#32, 0x00000000#32, 0x00000000#32⟩,
  ⟨0x0906, 1, 1, 1, 1, 0x00000000#32, 0x00000000#32, 0x00000000#32, 0x00000000#32, 0x00000000#32, 0x00000000#32⟩,
  ⟨0x0907, 1, 1, 1, 1, 0x00000000#32, 0x00000000#32, 0x00000000#32, 0x00000000#32, 0x00000000#32, 0x00000000#32⟩,
  ⟨0x0908, 1, 1, 1, 1, 0x00000000#32, 0x00000000#32, 0x00000000#32, 0x00000000#32, 0x00000000#32, 0x00000000#32⟩,
  ⟨0x0909, 1, 1, 1, 1, 0x00000000#32, 0x00000000#32, 0x00000000#32, 0x00000000#32, 0x00000000#32, 0x00000000#32⟩,
  ⟨0x090A, 1, 1, 1, 1, 0x00000000#32, 0x00000000#32, 0x00000000#32, 0x00000000#32, 0x00000000#32, 0x00000000#32⟩,
  ⟨0x090B, 1, 1, 1, 1, 0x00000000#32, 0x00000000#32, 0x00000000#32, 0x00000000#32, 0x00000000#32, 0x00000000#32⟩]

/-- Rows of page 0x0A. -/
def regPage0A : List RegRow := [
  ⟨0x0A00, 1, 1, 1, 1, 0x000000F2#32, 0x000000FF#32, 0x00000000#32, 0x00000000#32, 0x00000000#32, 0x00000000#32⟩,
  ⟨0x0A01, 1, 1, 1, 1, 0x00000000#32, 0x00000000#32, 0x00000000#32, 0x00000000#32, 0x00000000#32, 0x00000000#32⟩,
  ⟨0x0A02, 1, 1, 1, 1, 0x00004080#32, 0x00FFFFFF#32, 0x00000000#32, 0x00000000#32, 0x00000000#32, 0x00000000#32⟩,
  ⟨0x0A03, 1, 1, 1, 1, 0x00640005#32, 0x03FF007F#32, 0x00000000#32, 0x00000000#32, 0x00000000#32, 0x00000000#32⟩,
  ⟨0x0A04, 1, 1, 1, 1, 0x40000000#32, 0xFFFFFFFF#32, 0x00000000#32, 0x00000000#32, 0x00000000#32, 0x00000000#32⟩,
  ⟨0x0A05, 1, 1, 1, 1, 0x00000000#32, 0x00000000#32, 0x00000000#32, 0x00000000#32, 0x00000000#32, 0x0000000F#32⟩,
  ⟨0x0A08, 1, 1, 1, 1, 0x00000000#32, 0xFFFFFFFF#32, 0x00000000#32, 0x00000000#32, 0x00000000#32, 0x00000000#32⟩,
  ⟨0x0A09, 1, 1, 1, 1, 0x00000000#32, 0xFFFFFFFF#32, 0x00000000#32, 0x00000000#32, 0x00000000#32, 0x00000000#32⟩,
  ⟨0x0A0A, 1, 1, 1, 1, 0x00000000#32, 0xFFFFFFFF#32, 0x00000000#32, 0x00000000#32, 0x00000000#32, 0x00000000#32⟩,
  ⟨0x0A10, 1, 1, 1, 1, 0x00000000#32, 0x00000000#32, 0x00000000#32, 0x00000000#32, 0xFFFFFFFF#32, 0x00000000#32⟩,
  ⟨0x0A11, 1, 1, 1, 1, 0x00000000#32, 0x00000000#32, 0x00000000#32, 0x00000000#32, 0xFFFFFFFF#32, 0x00000000#32⟩,
  ⟨0x0A12, 1, 1, 1, 1, 0x00000000#32, 0x00000000#32, 0x00000000#32, 0x00000000#32, 0xFFFFFFFF#32, 0x00000000#32⟩,
  ⟨0x0A13, 1, 1, 1, 1, 0x00000000#32, 0x00000000#32, 0x00000000#32, 0x00000000#32, 0xFFFFFFFF#32, 0x00000000#32⟩,
  ⟨0x0A14, 1, 1, 1, 1, 0x00000000#32, 0x00000000#32, 0x00000000#32, 0x00000000#32, 0xFFFFFFFF#32, 0x00000000#32⟩,
  ⟨0x0A15, 1, 1, 1, 1, 0x00000000#32, 0x00000000#32, 0x00000000#32, 0x00000000#32, 0xFFFFFFFF#32, 0x00000000#32⟩,
  ⟨0x0A18, 8, 1, 1, 1, 0x00000000#32, 0x00000001#32, 0x00000000#32, 0x00000000#32, 0x00000000#32, 0x00000000#32⟩,
  ⟨0x0A20, 1, 1, 1, 1, 0x00000000#32, 0x00000000#32, 0x00000000#32, 0x00000000#32, 0x00000000#32, 0x00000001#32⟩,
  ⟨0x0A21, 1, 1, 1, 1, 0x00000000#32, 0x00000000#32, 0x00000000#32, 0x00000000#32, 0x00000000#32, 0x00000000#32⟩]

/-- Rows of page 0x0B. -/
def regPage0B : List RegRow := [
  ⟨0x0B00, 1, 1, 1, 1, 0x00000000#32, 0x000001FF#32, 0x00000000#32, 0x00000000#32, 0x00000000#32, 0x00000000#32⟩,
  ⟨0x0B01, 1, 1, 1, 1, 0x00000000#32, 0x00000000#32, 0x00000000#32, 0x00000000#32, 0x00000000#32, 0x00000000#32⟩,
  ⟨0x0B02, 1, 1, 1, 1, 0x00000000#32, 0x00000000#32, 0x00000000#32, 0x00000000#32, 0x00000000#32, 0x00000000#32⟩,
  ⟨0x0B03, 1, 1, 1, 1, 0x00000000#32, 0x00000000#32, 0x00000000#32, 0x00000000#32, 0x00000000#32, 0x00000000#32⟩,
  ⟨0x0B04, 1, 1, 1, 1, 0x00000000#32, 0x00000000#32, 0x00000000#32, 0x00000000#32, 0x00000000#32, 0x00000000#32⟩,
  ⟨0x0B05, 1, 1, 1, 1, 0x00000000#32, 0x00000000#32, 0x00000000#32, 0x00000000#32, 0x00000000#32, 0x00000000#32⟩,
  ⟨0x0B06, 1, 1, 1, 1, 0x00001000#32, 0x00000000#32, 0x00000000#32, 0x00000000#32, 0x00000000#32, 0x00000000#32⟩,
  ⟨0x0B07, 1, 1, 1, 1, 0x00000000#32, 0x00000000#32, 0x00000000#32, 0x00000000#32, 0x00000000#32, 0x00000000#32⟩,
  ⟨0x0B08, 1, 1, 1, 1, 0x00000000#32, 0x00000000#32, 0x00000000#32, 0x00000000#32, 0xFFFFFFFF#32, 0x00000000#32⟩]

/-- Rows of page 0x0C. -/
def regPage0C : List RegRow := [
  ⟨0x0C00, 1, 1, 1, 1, 0x0000000E#32, 0x0000000F#32, 0x00000000#32, 0x00000000#32, 0x00000000#32, 0x00000000#32⟩,
  ⟨0x0C01, 1, 1, 1, 1, 0x04000400#32, 0x00000000#32, 0x00000000#32, 0x00000000#32, 0x07FF0000#32, 0x00000000#32⟩,
  ⟨0x0C02, 1, 1, 1, 1, 0x00000032#32, 0x000001FF#32, 0x00000000#32, 0x00000000#32, 0x00000000#32, 0x00000000#32⟩,
  ⟨0x0C03, 1, 1, 1, 1, 0x00000040#32, 0x000001FF#32, 0x00000000#32, 0x00000000#32, 0x00000000#32, 0x00000000#32⟩,
  ⟨0x0C04, 1, 1, 1, 1, 0x002807D0#32, 0x003F07FF#32, 0x00000000#32, 0x00000000#32, 0x00000000#32, 0x00000000#32⟩,
  ⟨0x0C05, 1, 1, 1, 1, 0x00000032#32, 0x000000FF#32, 0x00000000#32, 0x00000000#32, 0x00000000#32, 0x00000000#32⟩,
  ⟨0x0C06, 1, 1, 1, 1, 0x000003E8#32, 0x0000FFFF#32, 0x00000000#32, 0x00000000#32, 0x00000000#32, 0x00000000#32⟩,
  ⟨0x0C07, 1, 1, 1, 1, 0x00000004#32, 0x000000FF#32, 0x00000000#32, 0x00000000#32, 0x00000000#32, 0x00000000#32⟩,
  ⟨0x0C08, 4, 1, 1, 1, 0x00000100#32, 0x000007FF#32, 0x00000000#32, 0x00000000#32, 0x00000000#32, 0x00000000#32⟩,
  ⟨0x0C10, 1, 1, 1, 1, 0x00000000#32, 0x00000000#32, 0x00000000#32, 0x00000000#32, 0xFFFFFFFF#32, 0x00000000#32⟩,
  ⟨0x0C11, 1, 1, 1, 1, 0x00000000#32, 0x00000000#32, 0x00000000#32, 0x00000000#32, 0xFFFFFFFF#32, 0x00000000#32⟩,
  ⟨0x0C12, 1, 1, 1, 1, 0x00000000#32, 0x00000000#32, 0x00000000#32, 0x00000000#32, 0xFFFFFFFF#32, 0x00000000#32⟩,
  ⟨0x0C13, 1, 1, 1, 1, 0x00000000#32, 0x00000000#32, 0x00000000#32, 0x00000000#32, 0xFFFFFFFF#32, 0x00000000#32⟩,
  ⟨0x0C14, 1, 1, 1, 1, 0x00000000#32, 0x00000000#32, 0x00000000#32, 0x00000000#32, 0xFFFFFFFF#32, 0x00000000#32⟩,
  ⟨0x0C15, 1, 1, 1, 1, 0x00000000#32, 0x00000000#32, 0x00000000#32, 0x00000000#32, 0xFFFFFFFF#32, 0x00000000#32⟩,
  ⟨0x0C16, 1, 1, 1, 1, 0x00000000#32, 0x00000000#32, 0x00000000#32, 0x00000000#32, 0xFFFFFFFF#32, 0x00000000#32⟩,
  ⟨0x0C17, 1, 1, 1, 1, 0x00000000#32, 0x00000000#32, 0x00000000#32, 0x00000000#32, 0xFFFFFFFF#32, 0x00000000#32⟩,
  ⟨0x0C18, 1, 1, 1, 1, 0x00000000#32, 0x00000000#32, 0x00000000#32, 0x00000000#32, 0xFFFFFFFF#32, 0x00000000#32⟩,
  ⟨0x0C19, 1, 1, 1, 1, 0x00000000#32, 0x00000000#32, 0x00000000#32, 0x00000000#32, 0xFFFFFFFF#32, 0x00000000#32⟩,
  ⟨0x0C1A, 1, 1, 1, 1, 0x00000000#32, 0x00000000#32, 0x00000000#32, 0x00000000#32, 0xFFFFFFFF#32, 0x00000000#32⟩,
  ⟨0x0C1B, 1, 1, 1, 1, 0x00000000#32, 0x00000000#32, 0x00000000#32, 0x00000000#32, 0xFFFFFFFF#32, 0x00000000#32⟩,
  ⟨0x0C20, 1, 1, 1, 1, 0x00000000#32, 0x000003FF#32, 0x00000000#32, 0x00000000#32, 0x00000000#32, 0x00000000#32⟩,
  ⟨0x0C21, 1, 1, 1, 1, 0x00000000#32, 0x00000000#32, 0x00000000#32, 0x00000000#32, 0x00000000#32, 0x00000000#32⟩,
  ⟨0x0C30, 1, 1, 1, 1, 0x00000000#32, 0x00000000#32, 0x00000000#32, 0x00000000#32, 0x00000000#32, 0x00000000#32⟩,
  ⟨0x0C31, 15, 1, 1, 1, 0x00000000#32, 0x00000000#32, 0x00000000#32, 0x00000000#32, 0x00000000#32, 0x00000000#32⟩,
  ⟨0x0C40, 1, 1, 1, 1, 0x00000000#32, 0x000001FF#32, 0x00000000#32, 0x00000000#32, 0x00000000#32, 0x00000000#32⟩,
  ⟨0x0C41, 1, 1, 1, 1, 0x00000000#32, 0x00000000#32, 0x00000000#32, 0x00000000#32, 0x00000000#32, 0x00000000#32⟩,
  ⟨0x0C42, 1, 1, 1, 1, 0x00001000#32, 0x00000000#32, 0x00000000#32, 0x00000000#32, 0x00000000#32, 0x00000000#32⟩,
  ⟨0x0C43, 1, 1, 1, 1, 0x00000000#32, 0x00000000#32, 0x00000000#32, 0x00000000#32, 0x00000000#32, 0x00000000#32⟩,
  ⟨0x0C44, 1, 1, 1, 1, 0x00000000#32, 0x00000000#32, 0x00000000#32, 0x00000000#32, 0x00000000#32, 0x00000000#32⟩,
  ⟨0x0C45, 1, 1, 1, 1, 0x00000000#32, 0x00000000#32, 0x00000000#32, 0x00000000#32, 0x00000000#32, 0x00000000#32⟩,
  ⟨0x0C46, 1, 1, 1, 1, 0x00000000#32, 0x00000000#32, 0x00000000#32, 0x00000000#32, 0x00000000#32, 0x00000000#32⟩]

/-- Rows of page 0x0D. -/
def regPage0D : List RegRow := [
  ⟨0x0D00, 512, 1, 1, 1, 0x0000B007#32, 0x00000007#32, 0x00000000#32, 0x00000000#32, 0x00000000#32, 0x00000000#32⟩]

/-- Rows of page 0x0E. -/
def regPage0E : List RegRow := [
  ⟨0x0D00, 512, 1, 1, 1, 0x0000B007#32, 0x00000007#32, 0x00000000#32, 0x00000000#32, 0x00000000#32, 0x00000000#32⟩]

/-- Rows of page 0x0F. -/
def regPage0F : List RegRow := [
  ⟨0x0F00, 1, 1, 1, 1, 0x00000002#32, 0x00000003#32, 0x00000000#32, 0x00000000#32, 0x00000000#32, 0x00000000#32⟩,
  ⟨0x0F01, 1, 1, 1, 1, 0x00000000#32, 0x00000000#32, 0x00000000#32, 0x00000000#32, 0x00000000#32, 0x00000000#32⟩,
  ⟨0x0F02, 1, 1, 1, 1, 0x01058410#32, 0x0FFFFFFF#32, 0x00000000#32, 0x00000000#32, 0x00000000#32, 0x00000000#32⟩,
  ⟨0x0F03, 1, 1, 1, 1, 0x002000C8#32, 0x00FFFFFF#32, 0x00000000#32, 0x00000000#32, 0x00000000#32, 0x00000000#32⟩,
  ⟨0x0F04, 1, 1, 1, 1, 0x00001E0F#32, 0x0000FFFF#32, 0x00000000#32, 0x00000000#32, 0x00000000#32, 0x00000000#32⟩,
  ⟨0x0F05, 1, 1, 1, 1, 0x00000000#32, 0x0001FFFF#32, 0x00000000#32, 0x00000000#32, 0x00000000#32, 0x00000000#32⟩,
  ⟨0x0F06, 1, 1, 1, 1, 0x00000000#32, 0x0001FFFF#32, 0x00000000#32, 0x00000000#32, 0x00000000#32, 0x00000000#32⟩,
  ⟨0x0F08, 1, 1, 1, 1, 0x00000000#32, 0x00000000#32, 0x00000000#32, 0x00000000#32, 0xFFFFFFFF#32, 0x00000000#32⟩,
  ⟨0x0F09, 1, 1, 1, 1, 0x00000000#32, 0x00000000#32, 0x00000000#32, 0x00000000#32, 0xFFFFFFFF#32, 0x00000000#32⟩,
  ⟨0x0F0A, 1, 1, 1, 1, 0x00000000#32, 0x00000000#32, 0x00000000#32, 0x00000000#32, 0xFFFFFFFF#32, 0x00000000#32⟩,
  ⟨0x0F0B, 1, 1, 1, 1, 0x00000000#32, 0x00000000#32, 0x00000000#32, 0x00000000#32, 0xFFFFFFFF#32, 0x00000000#32⟩,
  ⟨0x0F0C, 1, 1, 1, 1, 0x00000000#32, 0x00000000#32, 0x00000000#32, 0x00000000#32, 0xFFFFFFFF#32, 0x00000000#32⟩,
  ⟨0x0F0D, 1, 1, 1, 1, 0x00000000#32, 0x00000000#32, 0x00000000#32, 0x00000000#32, 0xFFFFFFFF#32, 0x00000000#32⟩,
  ⟨0x0F10, 8, 4, 1, 1, 0x00000000#32, 0xFFFFFFFF#32, 0x00000000#32, 0x00000000#32, 0x00000000#32, 0x00000000#32⟩,
  ⟨0x0F11, 8, 4, 1, 1, 0x00000000#32, 0xFFFFFFFF#32, 0x00000000#32, 0x00000000#32, 0x00000000#32, 0x00000000#32⟩,
  ⟨0x0F12, 8, 4, 1, 1, 0x00020000#32, 0x00070FFF#32, 0x00000000#32, 0x00000000#32, 0x00000000#32, 0x00000000#32⟩,
  ⟨0x0F13, 8, 4, 1, 1, 0x00400000#32, 0x00FF3FFF#32, 0x00000000#32, 0x00000000#32, 0x00000000#32, 0x00000000#32⟩,
  ⟨0x0F40, 1, 1, 1, 1, 0x00000000#32, 0x000001FF#32, 0x00000000#32, 0x00000000#32, 0x00000000#32, 0x00000000#32⟩,
  ⟨0x0F41, 1, 1, 1, 1, 0x00000000#32, 0x00000000#32, 0x00000000#32, 0x00000000#32, 0x00000000#32, 0x00000000#32⟩,
  ⟨0x0F42, 1, 1, 1, 1, 0x00000000#32, 0x00000000#32, 0x00000000#32, 0x00000000#32, 0x00000000#32, 0x00000000#32⟩,
  ⟨0x0F43, 1, 1, 1, 1, 0x00000000#32, 0x00000000#32, 0x00000000#32, 0x00000000#32, 0x00000000#32, 0x00000000#32⟩,
  ⟨0x0F44, 1, 1, 1, 1, 0x80008000#32, 0x00000000#32, 0x00000000#32, 0x00000000#32, 0x00000000#32, 0x00000000#32⟩,
  ⟨0x0F45, 1, 1, 1, 1, 0x00000000#32, 0x00000000#32, 0x0000007F#32, 0x00000000#32, 0x00000000#32, 0x00000000#32⟩]

/-- Rows of page 0x10. -/
def regPage10 : List RegRow := [
  ⟨0x1000, 1, 1, 1, 1, 0x00000000#32, 0x00000001#32, 0x00000000#32, 0x00000000#32, 0x00000000#32, 0x00000002#32⟩,
  ⟨0x1001, 1, 1, 1, 1, 0x0000000A#32, 0x00000000#32, 0x00000000#32, 0x00000000#32, 0x00000000#32, 0x00000000#32⟩,
  ⟨0x1008, 1, 1, 1, 1, 0x0000324B#32, 0x000037FF#32, 0x00000000#32, 0x00000000#32, 0x00000000#32, 0x00000000#32⟩,
  ⟨0x1009, 1, 1, 1, 1, 0x00000000#32, 0x00000000#32, 0x00000000#32, 0x00000000#32, 0x00000000#32, 0x00000000#32⟩,
  ⟨0x100A, 1, 1, 1, 1, 0x0000004B#32, 0x00000000#32, 0x00000000#32, 0x00000000#32, 0x00000000#32, 0x00000000#32⟩,
  ⟨0x100B, 1, 1, 1, 1, 0x32146450#32, 0xFFFFFFFF#32, 0x00000000#32, 0x00000000#32, 0x00000000#32, 0x00000000#32⟩,
  ⟨0x1010, 8, 1, 1, 1, 0x00000040#32, 0x00000000#32, 0x00000000#32, 0x00000000#32, 0x00000000#32, 0x00000000#32⟩,
  ⟨0x1020, 8, 8, 1, 1, 0x00321400#32, 0x00FF1F03#32, 0x00000000#32, 0x00000000#32, 0x00000000#32, 0x00000000#32⟩,
  ⟨0x1021, 8, 8, 1, 1, 0x00000000#32, 0x00000000#32, 0x00000000#32, 0x00000000#32, 0x00000000#32, 0x00000000#32⟩,
  ⟨0x1022, 8, 8, 1, 1, 0x00000000#32, 0x00000000#32, 0x00000000#32, 0x00000000#32, 0x00000000#32, 0x00000000#32⟩,
  ⟨0x1023, 8, 8, 1, 1, 0x00000000#32, 0x00000000#32, 0x0000001F#32, 0x00000000#32, 0x00000000#32, 0x00000000#32⟩,
  ⟨0x1024, 8, 8, 1, 1, 0x00141428#32, 0x00FFFFFF#32, 0x00000000#32, 0x00000000#32, 0x00000000#32, 0x00000000#32⟩,
  ⟨0x1060, 1, 1, 1, 1, 0x00000000#32, 0x00000000#32, 0x00000000#32, 0x00000000#32, 0xFFFFFFFF#32, 0x00000000#32⟩,
  ⟨0x1061, 1, 1, 1, 1, 0x00000000#32, 0x00000000#32, 0x00000000#32, 0x00000000#32, 0xFFFFFFFF#32, 0x00000000#32⟩,
  ⟨0x1062, 1, 1, 1, 1, 0x00000000#32, 0x00000000#32, 0x00000000#32, 0x00000000#32, 0xFFFFFFFF#32, 0x00000000#32⟩,
  ⟨0x1063, 1, 1, 1, 1, 0x00000000#32, 0x00000000#32, 0x00000000#32, 0x00000000#32, 0xFFFFFFFF#32, 0x00000000#32⟩,
  ⟨0x1064, 1, 1, 1, 1, 0x00000000#32, 0x00000000#32, 0x00000000#32, 0x00000000#32, 0xFFFFFFFF#32, 0x00000000#32⟩,
  ⟨0x1065, 1, 1, 1, 1, 0x00000000#32, 0x00000000#32, 0x00000000#32, 0x00000000#32, 0xFFFFFFFF#32, 0x00000000#32⟩,
  ⟨0x1066, 1, 1, 1, 1, 0x00000000#32, 0x00000000#32, 0x00000000#32, 0x00000000#32, 0xFFFFFFFF#32, 0x00000000#32⟩,
  ⟨0x1067, 1, 1, 1, 1, 0x00000000#32, 0x00000000#32, 0x00000000#32, 0x00000000#32, 0xFFFFFFFF#32, 0x00000000#32⟩]

/-- Rows of page 0x11. -/
def regPage11 : List RegRow := [
  ⟨0x1100, 32, 8, 1, 1, 0x00000230#32, 0x00000277#32, 0x00000000#32, 0x00000000#32, 0x00000000#32, 0x00000100#32⟩,
  ⟨0x1101, 32, 8, 1, 1, 0x001E07D0#32, 0x01FF3FFF#32, 0x00000000#32, 0x00000000#32, 0x00000000#32, 0x00000000#32⟩,
  ⟨0x1102, 32, 8, 1, 1, 0x000001F4#32, 0x00001FFF#32, 0x00000000#32, 0x00000000#32, 0x00000000#32, 0x00000000#32⟩,
  ⟨0x1103, 32, 8, 1, 1, 0x14000464#32, 0xFFFF07FF#32, 0x00000000#32, 0x00000000#32, 0x00000000#32, 0x00000000#32⟩,
  ⟨0x1104, 32, 8, 1, 1, 0x000A0064#32, 0x013F01FF#32, 0x00000000#32, 0x00000000#32, 0x00000000#32, 0x00000000#32⟩,
  ⟨0x1105, 32, 8, 1, 1, 0x00000820#32, 0xFFFFFFFF#32, 0x00000000#32, 0x00000000#32, 0x00000000#32, 0x00000000#32⟩,
  ⟨0x1106, 32, 8, 1, 1, 0x00000000#32, 0xFFFFFFFF#32, 0x00000000#32, 0x00000000#32, 0x00000000#32, 0x00000000#32⟩,
  ⟨0x1107, 32, 8, 1, 1, 0x00000000#32, 0x0000FFFF#32, 0x00000000#32, 0x00000000#32, 0x00000000#32, 0x00000000#32⟩]

/-- Rows of page 0x12. -/
def regPage12 : List RegRow := [
  ⟨0x1200, 32, 4, 1, 1, 0x00000008#32, 0x00000000#32, 0x00000000#32, 0x00000000#32, 0x00000000#32, 0x00000000#32⟩,
  ⟨0x1201, 32, 4, 1, 1, 0x00000000#32, 0x00000000#32, 0x000000FF#32, 0x00000000#32, 0x00000000#32, 0x00000000#32⟩,
  ⟨0x1202, 32, 4, 1, 1, 0x00000000#32, 0x00000000#32, 0x00000000#32, 0x00000000#32, 0xFFFF0000#32, 0x00000000#32⟩,
  ⟨0x1203, 32, 4, 1, 1, 0x00000000#32, 0x00000000#32, 0x00000000#32, 0x00000000#32, 0x00000000#32, 0x00000000#32⟩]

/-- Rows of page 0x14. -/
def regPage14 : List RegRow := [
  ⟨0x1400, 2, 256, 1, 1, 0x03140000#32, 0x0FFF1F03#32, 0x00000000#32, 0x00000000#32, 0x00000000#32, 0x0000000C#32⟩,
  ⟨0x1401, 2, 256, 1, 1, 0x00000000#32, 0x00000000#32, 0x00000000#32, 0x00000000#32, 0x00000000#32, 0x00000000#32⟩,
  ⟨0x1402, 2, 256, 1, 1, 0x000000C8#32, 0x03FF03FF#32, 0x00000000#32, 0x00000000#32, 0x00000000#32, 0x00000000#32⟩,
  ⟨0x1403, 2, 256, 1, 1, 0x00000000#32, 0x00000000#32, 0x00000000#32, 0x00000000#32, 0x00000000#32, 0x00000000#32⟩,
  ⟨0x1404, 2, 256, 1, 1, 0x00000000#32, 0x00000000#32, 0x00000000#32, 0x00000000#32, 0x00000000#32, 0x00000000#32⟩,
  ⟨0x1405, 2, 256, 1, 1, 0x00000005#32, 0x000003FF#32, 0x00000000#32, 0x00000000#32, 0x00000000#32, 0x00000000#32⟩,
  ⟨0x1406, 2, 256, 1, 1, 0x00000000#32, 0x00000000#32, 0x00000000#32, 0x00000000#32, 0x00000000#32, 0x00000000#32⟩,
  ⟨0x1410, 2, 256, 1, 1, 0x00000000#32, 0x00000000#32, 0x00000000#32, 0x00000000#32, 0xFFFFFFFF#32, 0x00000000#32⟩,
  ⟨0x1411, 2, 256, 1, 1, 0x00000000#32, 0x00000000#32, 0x00000000#32, 0x00000000#32, 0xFFFFFFFF#32, 0x00000000#32⟩,
  ⟨0x1412, 2, 256, 1, 1, 0x00000000#32, 0x00000000#32, 0x00000000#32, 0x00000000#32, 0xFFFFFFFF#32, 0x00000000#32⟩,
  ⟨0x1413, 2, 256, 1, 1, 0x00000000#32, 0x00000000#32, 0x00000000#32, 0x00000000#32, 0xFFFFFFFF#32, 0x00000000#32⟩,
  ⟨0x1414, 2, 256, 1, 1, 0x00000000#32, 0x00000000#32, 0x00000000#32, 0x00000000#32, 0xFFFFFFFF#32, 0x00000000#32⟩,
  ⟨0x1415, 2, 256, 1, 1, 0x00000000#32, 0x00000000#32, 0x00000000#32, 0x00000000#32, 0xFFFFFFFF#32, 0x00000000#32⟩,
  ⟨0x1416, 2, 256, 1, 1, 0x00000000#32, 0x00000000#32, 0x00000000#32, 0x00000000#32, 0xFFFFFFFF#32, 0x00000000#32⟩,
  ⟨0x1417, 2, 256, 1, 1, 0x00000000#32, 0x00000000#32, 0x00000000#32, 0x00000000#32, 0xFFFFFFFF#32, 0x00000000#32⟩,
  ⟨0x1440, 2, 256, 30, 4, 0x00000000#32, 0x00000000#32, 0x00000000#32, 0x00000000#32, 0x00000000#32, 0x00000000#32⟩,
  ⟨0x1441, 2, 256, 30, 4, 0x00000000#32, 0x00000000#32, 0x00000000#32, 0x00000000#32, 0x00000000#32, 0x00000000#32⟩,
  ⟨0x1442, 2, 256, 30, 4, 0x00000000#32, 0xFFFFFFFF#32, 0x00000000#32, 0x00000000#32, 0x00000000#32, 0x00000000#32⟩,
  ⟨0x1443, 2, 256, 30, 4, 0x00000000#32, 0x00000000#32, 0x00000000#32, 0x00000000#32, 0x00000000#32, 0x00000003#32⟩,
  ⟨0x14C0, 1, 256, 1, 1, 0x00000020#32, 0x000001FF#32, 0x00000000#32, 0x00000000#32, 0x00000000#32, 0x00000000#32⟩,
  ⟨0x14C1, 2, 256, 1, 1, 0x00000000#32, 0x00000003#32, 0x00000000#32, 0x00000000#32, 0x00000000#32, 0x00000000#32⟩,
  ⟨0x14C2, 2, 256, 1, 1, 0x001E07D0#32, 0x01FF3FFF#32, 0x00000000#32, 0x00000000#32, 0x00000000#32, 0x00000000#32⟩,
  ⟨0x14C3, 2, 256, 1, 1, 0x000001F4#32, 0x00001FFF#32, 0x00000000#32, 0x00000000#32, 0x00000000#32, 0x00000000#32⟩,
  ⟨0x14C4, 2, 256, 1, 1, 0x14000064#32, 0xFFFF03FF#32, 0x00000000#32, 0x00000000#32, 0x00000000#32, 0x00000000#32⟩,
  ⟨0x14C5, 2, 256, 1, 1, 0x000A0064#32, 0x013F01FF#32, 0x00000000#32, 0x00000000#32, 0x00000000#32, 0x00000000#32⟩,
  ⟨0x14C6, 2, 256, 1, 1, 0x00000000#32, 0x0000FFFF#32, 0x00000000#32, 0x00000000#32, 0x00000000#32, 0x00000000#32⟩,
  ⟨0x14C7, 2, 256, 1, 1, 0x00000000#32, 0x00000000#32, 0x00000000#32, 0x00000000#32, 0x00000000#32, 0x00000001#32⟩,
  ⟨0x14C8, 2, 256, 1, 1, 0x00000000#32, 0x00000000#32, 0x00000000#32, 0x00000000#32, 0x00000000#32, 0x00000000#32⟩]

/-- Rows of page 0x15. -/
def regPage15 : List RegRow := [
  ⟨0x1400, 2, 256, 1, 1, 0x03140000#32, 0x0FFF1F03#32, 0x00000000#32, 0x00000000#32, 0x00000000#32, 0x0000000C#32⟩,
  ⟨0x1401, 2, 256, 1, 1, 0x00000000#32, 0x00000000#32, 0x00000000#32, 0x00000000#32, 0x00000000#32, 0x00000000#32⟩,
  ⟨0x1402, 2, 256, 1, 1, 0x000000C8#32, 0x03FF03FF#32, 0x00000000#32, 0x00000000#32, 0x00000000#32, 0x00000000#32⟩,
  ⟨0x1403, 2, 256, 1, 1, 0x00000000#32, 0x00000000#32, 0x00000000#32, 0x00000000#32, 0x00000000#32, 0x00000000#32⟩,
  ⟨0x1404, 2, 256, 1, 1, 0x00000000#32, 0x00000000#32, 0x00000000#32, 0x00000000#32, 0x00000000#32, 0x00000000#32⟩,
  ⟨0x1405, 2, 256, 1, 1, 0x00000005#32, 0x000003FF#32, 0x00000000#32, 0x00000000#32, 0x00000000#32, 0x00000000#32⟩,
  ⟨0x1406, 2, 256, 1, 1, 0x00000000#32, 0x00000000#32, 0x00000000#32, 0x00000000#32, 0x00000000#32, 0x00000000#32⟩,
  ⟨0x1410, 2, 256, 1, 1, 0x00000000#32, 0x00000000#32, 0x00000000#32, 0x00000000#32, 0xFFFFFFFF#32, 0x00000000#32⟩,
  ⟨0x1411, 2, 256, 1, 1, 0x00000000#32, 0x00000000#32, 0x00000000#32, 0x00000000#32, 0xFFFFFFFF#32, 0x00000000#32⟩,
  ⟨0x1412, 2, 256, 1, 1, 0x00000000#32, 0x00000000#32, 0x00000000#32, 0x00000000#32, 0xFFFFFFFF#32, 0x00000000#32⟩,
  ⟨0x1413, 2, 256, 1, 1, 0x00000000#32, 0x00000000#32, 0x00000000#32, 0x00000000#32, 0xFFFFFFFF#32, 0x00000000#32⟩,
  ⟨0x1414, 2, 256, 1, 1, 0x00000000#32, 0x00000000#32, 0x00000000#32, 0x00000000#32, 0xFFFFFFFF#32, 0x00000000#32⟩,
  ⟨0x1415, 2, 256, 1, 1, 0x00000000#32, 0x00000000#32, 0x00000000#32, 0x00000000#32, 0xFFFFFFFF#32, 0x00000000#32⟩,
  ⟨0x1416, 2, 256, 1, 1, 0x00000000#32, 0x00000000#32, 0x00000000#32, 0x00000000#32, 0xFFFFFFFF#32, 0x00000000#32⟩,
  ⟨0x1417, 2, 256, 1, 1, 0x00000000#32, 0x00000000#32, 0x00000000#32, 0x00000000#32, 0xFFFFFFFF#32, 0x00000000#32⟩,
  ⟨0x1440, 2, 256, 30, 4, 0x00000000#32, 0x00000000#32, 0x00000000#32, 0x00000000#32, 0x00000000#32, 0x00000000#32⟩,
  ⟨0x1441, 2, 256, 30, 4, 0x00000000#32, 0x00000000#32, 0x00000000#32, 0x00000000#32, 0x00000000#32, 0x00000000#32⟩,
  ⟨0x1442, 2, 256, 30, 4, 0x00000000#32, 0xFFFFFFFF#32, 0x00000000#32, 0x00000000#32, 0x00000000#32, 0x00000000#32⟩,
  ⟨0x1443, 2, 256, 30, 4, 0x00000000#32, 0x00000000#32, 0x00000000#32, 0x00000000#32, 0x00000000#32, 0x00000003#32⟩,
  ⟨0x15C0, 1, 256, 1, 1, 0x00000110#32, 0x000001FF#32, 0x00000000#32, 0x00000000#32, 0x00000000#32, 0x00000000#32⟩,
  ⟨0x14C1, 2, 256, 1, 1, 0x00000000#32, 0x00000003#32, 0x00000000#32, 0x00000000#32, 0x00000000#32, 0x00000000#32⟩,
  ⟨0x14C2, 2, 256, 1, 1, 0x001E07D0#32, 0x01FF3FFF#32, 0x00000000#32, 0x00000000#32, 0x00000000#32, 0x00000000#32⟩,
  ⟨0x14C3, 2, 256, 1, 1, 0x000001F4#32, 0x00001FFF#32, 0x00000000#32, 0x00000000#32, 0x00000000#32, 0x00000000#32⟩,
  ⟨0x14C4, 2, 256, 1, 1, 0x14000064#32, 0xFFFF03FF#32, 0x00000000#32, 0x00000000#32, 0x00000000#32, 0x00000000#32⟩,
  ⟨0x14C5, 2, 256, 1, 1, 0x000A0064#32, 0x013F01FF#32, 0x00000000#32, 0x00000000#32, 0x00000000#32, 0x00000000#32⟩,
  ⟨0x14C6, 2, 256, 1, 1, 0x00000000#32, 0x0000FFFF#32, 0x00000000#32, 0x00000000#32, 0x00000000#32, 0x00000000#32⟩,
  ⟨0x14C7, 2, 256, 1, 1, 0x00000000#32, 0x00000000#32, 0x00000000#32, 0x00000000#32, 0x00000000#32, 0x00000001#32⟩,
  ⟨0x14C8, 2, 256, 1, 1, 0x00000000#32, 0x00000000#32, 0x00000000#32, 0x00000000#32, 0x00000000#32, 0x00000000#32⟩]

/-- Rows of page 0x18. -/
def regPage18 : List RegRow := [
  ⟨0x1800, 16, 48, 1, 1, 0x00000094#32, 0x00000FFF#32, 0x00000000#32, 0x00000000#32, 0x00000000#32, 0x00000000#32⟩,
  ⟨0x1801, 16, 48, 1, 1, 0x00000000#32, 0x00000000#32, 0x00000000#32, 0x00000000#32, 0x00000000#32, 0x00000000#32⟩,
  ⟨0x1802, 16, 48, 1, 1, 0x000003E8#32, 0x00003FFF#32, 0x00000000#32, 0x00000000#32, 0x00000000#32, 0x00000000#32⟩,
  ⟨0x1803, 16, 48, 1, 1, 0x00000030#32, 0x001FFFFF#32, 0x00000000#32, 0x00000000#32, 0x00000000#32, 0x00000000#32⟩,
  ⟨0x1804, 16, 48, 1, 1, 0x00001120#32, 0x00003F3F#32, 0x00000000#32, 0x00000000#32, 0x00000000#32, 0x00000000#32⟩,
  ⟨0x1805, 16, 48, 1, 1, 0x00000007#32, 0x000000F7#32, 0x00000000#32, 0x00000000#32, 0x00000000#32, 0x00000000#32⟩,
  ⟨0x1806, 16, 48, 1, 1, 0x00010000#32, 0xFFFFFFFF#32, 0x00000000#32, 0x00000000#32, 0x00000000#32, 0x00000000#32⟩,
  ⟨0x1807, 16, 48, 1, 1, 0x00000000#32, 0xFFFFFFFF#32, 0x00000000#32, 0x00000000#32, 0x00000000#32, 0x00000000#32⟩,
  ⟨0x1808, 16, 48, 1, 1, 0x00000000#32, 0x01FF0F73#32, 0x00000000#32, 0x00000000#32, 0x00000000#32, 0x00000000#32⟩,
  ⟨0x1809, 16, 48, 1, 1, 0x00000000#32, 0x0000FFFF#32, 0x00000000#32, 0x00000000#32, 0x00000000#32, 0x00000000#32⟩,
  ⟨0x180A, 16, 48, 1, 1, 0x00000000#32, 0xFFFFFFFF#32, 0x00000000#32, 0x00000000#32, 0x00000000#32, 0x00000000#32⟩,
  ⟨0x180B, 16, 48, 1, 1, 0x00000000#32, 0x00031FF7#32, 0x00000000#32, 0x00000000#32, 0x00000000#32, 0x00000000#32⟩,
  ⟨0x180C, 16, 48, 1, 1, 0x7FFF0000#32, 0xFFFFFFFF#32, 0x00000000#32, 0x00000000#32, 0x00000000#32, 0x00000000#32⟩,
  ⟨0x180D, 16, 48, 1, 1, 0x00000000#32, 0xFFFFFFFF#32, 0x00000000#32, 0x00000000#32, 0x00000000#32, 0x00000000#32⟩,
  ⟨0x180E, 16, 48, 1, 1, 0x00000000#32, 0x00007FFF#32, 0x00000000#32, 0x00000000#32, 0x00000000#32, 0x00000000#32⟩,
  ⟨0x180F, 16, 48, 1, 1, 0x00000100#32, 0xFFFF01FF#32, 0x00000000#32, 0x00000000#32, 0x00000000#32, 0x00000000#32⟩,
  ⟨0x1810, 16, 48, 1, 1, 0x00000000#32, 0x00007FFF#32, 0x00000000#32, 0x00000000#32, 0x00000000#32, 0x00000000#32⟩,
  ⟨0x1811, 16, 48, 1, 1, 0x00000000#32, 0xFFFFFFFF#32, 0x00000000#32, 0x00000000#32, 0x00000000#32, 0x00000000#32⟩,
  ⟨0x1812, 16, 48, 1, 1, 0x00000000#32, 0x0000FFFF#32, 0x00000000#32, 0x00000000#32, 0x00000000#32, 0x00000000#32⟩,
  ⟨0x1813, 16, 48, 1, 1, 0x00001388#32, 0x0000FFFF#32, 0x00000000#32, 0x00000000#32, 0x00000000#32, 0x00000000#32⟩,
  ⟨0x1814, 16, 48, 1, 1, 0x00000000#32, 0xFFFFFF07#32, 0x00000000#32, 0x00000000#32, 0x00000000#32, 0x00000000#32⟩,
  ⟨0x1818, 16, 48, 4, 4, 0x00000000#32, 0xFFFFFFFF#32, 0x00000000#32, 0x00000000#32, 0x00000000#32, 0x00000000#32⟩,
  ⟨0x1819, 16, 48, 4, 4, 0x00000000#32, 0xFFFFFFFF#32, 0x00000000#32, 0x00000000#32, 0x00000000#32, 0x00000000#32⟩,
  ⟨0x181A, 16, 48, 4, 4, 0x00000020#32, 0x0000003F#32, 0x00000000#32, 0x00000000#32, 0x00000000#32, 0x00000000#32⟩,
  ⟨0x181B, 16, 48, 4, 4, 0x7FFF8001#32, 0xFFFFFFFF#32, 0x00000000#32, 0x00000000#32, 0x00000000#32, 0x00000000#32⟩,
  ⟨0x1828, 16, 48, 1, 1, 0x00000000#32, 0x00000000#32, 0x00000000#32, 0x00000000#32, 0x00000000#32, 0x00000000#32⟩,
  ⟨0x1829, 16, 48, 1, 1, 0x00000000#32, 0x00000000#32, 0x00000000#32, 0x00000000#32, 0x00000000#32, 0x00000000#32⟩,
  ⟨0x182A, 16, 48, 1, 1, 0x00000000#32, 0x00000000#32, 0x00000000#32, 0x00000000#32, 0x00000000#32, 0x00000000#32⟩,
  ⟨0x182B, 16, 48, 1, 1, 0x00000000#32, 0x00000000#32, 0x00000000#32, 0x00000000#32, 0x00000000#32, 0x00000000#32⟩,
  ⟨0x182C, 16, 48, 1, 1, 0x00000000#32, 0x00000000#32, 0x00000000#32, 0x00000000#32, 0x00000000#32, 0x00000000#32⟩,
  ⟨0x182D, 16, 48, 1, 1, 0x00000000#32, 0x00000000#32, 0x00000000#32, 0x00000000#32, 0xFFFFFFFF#32, 0x00000000#32⟩,
  ⟨0x182E, 16, 48, 1, 1, 0x00000000#32, 0x00000000#32, 0x00000000#32, 0x00000000#32, 0xFFFF0000#32, 0x00000000#32⟩,
  ⟨0x182F, 16, 48, 1, 1, 0x00000000#32, 0x00000000#32, 0x0000007F#32, 0x00000000#32, 0xFFFF0000#32, 0x00000000#32⟩]

/-- Rows of page 0x19. -/
def regPage19 : List RegRow := [
  ⟨0x1800, 16, 48, 1, 1, 0x00000094#32, 0x00000FFF#32, 0x00000000#32, 0x00000000#32, 0x00000000#32, 0x00000000#32⟩,
  ⟨0x1801, 16, 48, 1, 1, 0x00000000#32, 0x00000000#32, 0x00000000#32, 0x00000000#32, 0x00000000#32, 0x00000000#32⟩,
  ⟨0x1802, 16, 48, 1, 1, 0x000003E8#32, 0x00003FFF#32, 0x00000000#32, 0x00000000#32, 0x00000000#32, 0x00000000#32⟩,
  ⟨0x1803, 16, 48, 1, 1, 0x00000030#32, 0x001FFFFF#32, 0x00000000#32, 0x00000000#32, 0x00000000#32, 0x00000000#32⟩,
  ⟨0x1804, 16, 48, 1, 1, 0x00001120#32, 0x00003F3F#32, 0x00000000#32, 0x00000000#32, 0x00000000#32, 0x00000000#32⟩,
  ⟨0x1805, 16, 48, 1, 1, 0x00000007#32, 0x000000F7#32, 0x00000000#32, 0x00000000#32, 0x00000000#32, 0x00000000#32⟩,
  ⟨0x1806, 16, 48, 1, 1, 0x00010000#32, 0xFFFFFFFF#32, 0x00000000#32, 0x00000000#32, 0x00000000#32, 0x00000000#32⟩,
  ⟨0x1807, 16, 48, 1, 1, 0x00000000#32, 0xFFFFFFFF#32, 0x00000000#32, 0x00000000#32, 0x00000000#32, 0x00000000#32⟩,
  ⟨0x1808, 16, 48, 1, 1, 0x00000000#32, 0x01FF0F73#32, 0x00000000#32, 0x00000000#32, 0x00000000#32, 0x00000000#32⟩,
  ⟨0x1809, 16, 48, 1, 1, 0x00000000#32, 0x0000FFFF#32, 0x00000000#32, 0x00000000#32, 0x00000000#32, 0x00000000#32⟩,
  ⟨0x180A, 16, 48, 1, 1, 0x00000000#32, 0xFFFFFFFF#32, 0x00000000#32, 0x00000000#32, 0x00000000#32, 0x00000000#32⟩,
  ⟨0x180B, 16, 48, 1, 1, 0x00000000#32, 0x00031FF7#32, 0x00000000#32, 0x00000000#32, 0x00000000#32, 0x00000000#32⟩,
  ⟨0x180C, 16, 48, 1, 1, 0x7FFF0000#32, 0xFFFFFFFF#32, 0x00000000#32, 0x00000000#32, 0x00000000#32, 0x00000000#32⟩,
  ⟨0x180D, 16, 48, 1, 1, 0x00000000#32, 0xFFFFFFFF#32, 0x00000000#32, 0x00000000#32, 0x00000000#32, 0x00000000#32⟩,
  ⟨0x180E, 16, 48, 1, 1, 0x00000000#32, 0x00007FFF#32, 0x00000000#32, 0x00000000#32, 0x00000000#32, 0x00000000#32⟩,
  ⟨0x180F, 16, 48, 1, 1, 0x00000100#32, 0xFFFF01FF#32, 0x00000000#32, 0x00000000#32, 0x00000000#32, 0x00000000#32⟩,
  ⟨0x1810, 16, 48, 1, 1, 0x00000000#32, 0x00007FFF#32, 0x00000000#32, 0x00000000#32, 0x00000000#32, 0x00000000#32⟩,
  ⟨0x1811, 16, 48, 1, 1, 0x00000000#32, 0xFFFFFFFF#32, 0x00000000#32, 0x00000000#32, 0x00000000#32, 0x00000000#32⟩,
  ⟨0x1812, 16, 48, 1, 1, 0x00000000#32, 0x0000FFFF#32, 0x00000000#32, 0x00000000#32, 0x00000000#32, 0x00000000#32⟩,
  ⟨0x1813, 16, 48, 1, 1, 0x00001388#32, 0x0000FFFF#32, 0x00000000#32, 0x00000000#32, 0x00000000#32, 0x00000000#32⟩,
  ⟨0x1814, 16, 48, 1, 1, 0x00000000#32, 0xFFFFFF07#32, 0x00000000#32, 0x00000000#32, 0x00000000#32, 0x00000000#32⟩,
  ⟨0x1818, 16, 48, 4, 4, 0x00000000#32, 0xFFFFFFFF#32, 0x00000000#32, 0x00000000#32, 0x00000000#32, 0x00000000#32⟩,
  ⟨0x1819, 16, 48, 4, 4, 0x00000000#32, 0xFFFFFFFF#32, 0x00000000#32, 0x00000000#32, 0x00000000#32, 0x00000000#32⟩,
  ⟨0x181A, 16, 48, 4, 4, 0x00000020#32, 0x0000003F#32, 0x00000000#32, 0x00000000#32, 0x00000000#32, 0x00000000#32⟩,
  ⟨0x181B, 16, 48, 4, 4, 0x7FFF8001#32, 0xFFFFFFFF#32, 0x00000000#32, 0x00000000#32, 0x00000000#32, 0x00000000#32⟩,
  ⟨0x1828, 16, 48, 1, 1, 0x00000000#32, 0x00000000#32, 0x00000000#32, 0x00000000#32, 0x00000000#32, 0x00000000#32⟩,
  ⟨0x1829, 16, 48, 1, 1, 0x00000000#32, 0x00000000#32, 0x00000000#32, 0x00000000#32, 0x00000000#32, 0x00000000#32⟩,
  ⟨0x182A, 16, 48, 1, 1, 0x00000000#32, 0x00000000#32, 0x00000000#32, 0x00000000#32, 0x00000000#32, 0x00000000#32⟩,
  ⟨0x182B, 16, 48, 1, 1, 0x00000000#32, 0x00000000#32, 0x00000000#32, 0x00000000#32, 0x00000000#32, 0x00000000#32⟩,
  ⟨0x182C, 16, 48, 1, 1, 0x00000000#32, 0x00000000#32, 0x00000000#32, 0x00000000#32, 0x00000000#32, 0x00000000#32⟩,
  ⟨0x182D, 16, 48, 1, 1, 0x00000000#32, 0x00000000#32, 0x00000000#32, 0x00000000#32, 0xFFFFFFFF#32, 0x00000000#32⟩,
  ⟨0x182E, 16, 48, 1, 1, 0x00000000#32, 0x00000000#32, 0x00000000#32, 0x00000000#32, 0xFFFF0000#32, 0x00000000#32⟩,
  ⟨0x182F, 16, 48, 1, 1, 0x00000000#32, 0x00000000#32, 0x0000007F#32, 0x00000000#32, 0xFFFF0000#32, 0x00000000#32⟩]

/-- Rows of page 0x1A. -/
def regPage1A : List RegRow := [
  ⟨0x1800, 16, 48, 1, 1, 0x00000094#32, 0x00000FFF#32, 0x00000000#32, 0x00000000#32, 0x00000000#32, 0x00000000#32⟩,
  ⟨0x1801, 16, 48, 1, 1, 0x00000000#32, 0x00000000#32, 0x00000000#32, 0x00000000#32, 0x00000000#32, 0x00000000#32⟩,
  ⟨0x1802, 16, 48, 1, 1, 0x000003E8#32, 0x00003FFF#32, 0x00000000#32, 0x00000000#32, 0x00000000#32, 0x00000000#32⟩,
  ⟨0x1803, 16, 48, 1, 1, 0x00000030#32, 0x001FFFFF#32, 0x00000000#32, 0x00000000#32, 0x00000000#32, 0x00000000#32⟩,
  ⟨0x1804, 16, 48, 1, 1, 0x00001120#32, 0x00003F3F#32, 0x00000000#32, 0x00000000#32, 0x00000000#32, 0x00000000#32⟩,
  ⟨0x1805, 16, 48, 1, 1, 0x00000007#32, 0x000000F7#32, 0x00000000#32, 0x00000000#32, 0x00000000#32, 0x00000000#32⟩,
  ⟨0x1806, 16, 48, 1, 1, 0x00010000#32, 0xFFFFFFFF#32, 0x00000000#32, 0x00000000#32, 0x00000000#32, 0x00000000#32⟩,
  ⟨0x1807, 16, 48, 1, 1, 0x00000000#32, 0xFFFFFFFF#32, 0x00000000#32, 0x00000000#32, 0x00000000#32, 0x00000000#32⟩,
  ⟨0x1808, 16, 48, 1, 1, 0x00000000#32, 0x01FF0F73#32, 0x00000000#32, 0x00000000#32, 0x00000000#32, 0x00000000#32⟩,
  ⟨0x1809, 16, 48, 1, 1, 0x00000000#32, 0x0000FFFF#32, 0x00000000#32, 0x00000000#32, 0x00000000#32, 0x00000000#32⟩,
  ⟨0x180A, 16, 48, 1, 1, 0x00000000#32, 0xFFFFFFFF#32, 0x00000000#32, 0x00000000#32, 0x00000000#32, 0x00000000#32⟩,
  ⟨0x180B, 16, 48, 1, 1, 0x00000000#32, 0x00031FF7#32, 0x00000000#32, 0x00000000#32, 0x00000000#32, 0x00000000#32⟩,
  ⟨0x180C, 16, 48, 1, 1, 0x7FFF0000#32, 0xFFFFFFFF#32, 0x00000000#32, 0x00000000#32, 0x00000000#32, 0x00000000#32⟩,
  ⟨0x180D, 16, 48, 1, 1, 0x00000000#32, 0xFFFFFFFF#32, 0x00000000#32, 0x00000000#32, 0x00000000#32, 0x00000000#32⟩,
  ⟨0x180E, 16, 48, 1, 1, 0x00000000#32, 0x00007FFF#32, 0x00000000#32, 0x00000000#32, 0x00000000#32, 0x00000000#32⟩,
  ⟨0x180F, 16, 48, 1, 1, 0x00000100#32, 0xFFFF01FF#32, 0x00000000#32, 0x00000000#32, 0x00000000#32, 0x00000000#32⟩,
  ⟨0x1810, 16, 48, 1, 1, 0x00000000#32, 0x00007FFF#32, 0x00000000#32, 0x00000000#32, 0x00000000#32, 0x00000000#32⟩,
  ⟨0x1811, 16, 48, 1, 1, 0x00000000#32, 0xFFFFFFFF#32, 0x00000000#32, 0x00000000#32, 0x00000000#32, 0x00000000#32⟩,
  ⟨0x1812, 16, 48, 1, 1, 0x00000000#32, 0x0000FFFF#32, 0x00000000#32, 0x00000000#32, 0x00000000#32, 0x00000000#32⟩,
  ⟨0x1813, 16, 48, 1, 1, 0x00001388#32, 0x0000FFFF#32, 0x00000000#32, 0x00000000#32, 0x00000000#32, 0x00000000#32⟩,
  ⟨0x1814, 16, 48, 1, 1, 0x00000000#32, 0xFFFFFF07#32, 0x00000000#32, 0x00000000#32, 0x00000000#32, 0x00000000#32⟩,
  ⟨0x1818, 16, 48, 4, 4, 0x00000000#32, 0xFFFFFFFF#32, 0x00000000#32, 0x00000000#32, 0x00000000#32, 0x00000000#32⟩,
  ⟨0x1819, 16, 48, 4, 4, 0x00000000#32, 0xFFFFFFFF#32, 0x00000000#32, 0x00000000#32, 0x00000000#32, 0x00000000#32⟩,
  ⟨0x181A, 16, 48, 4, 4, 0x00000020#32, 0x0000003F#32, 0x00000000#32, 0x00000000#32, 0x00000000#32, 0x00000000#32⟩,
  ⟨0x181B, 16, 48, 4, 4, 0x7FFF8001#32, 0xFFFFFFFF#32, 0x00000000#32, 0x00000000#32, 0x00000000#32, 0x00000000#32⟩,
  ⟨0x1828, 16, 48, 1, 1, 0x00000000#32, 0x00000000#32, 0x00000000#32, 0x00000000#32, 0x00000000#32, 0x00000000#32⟩,
  ⟨0x1829, 16, 48, 1, 1, 0x00000000#32, 0x00000000#32, 0x00000000#32, 0x00000000#32, 0x00000000#32, 0x00000000#32⟩,
  ⟨0x182A, 16, 48, 1, 1, 0x00000000#32, 0x00000000#32, 0x00000000#32, 0x00000000#32, 0x00000000#32, 0x00000000#32⟩,
  ⟨0x182B, 16, 48, 1, 1, 0x00000000#32, 0x00000000#32, 0x00000000#32, 0x00000000#32, 0x00000000#32, 0x00000000#32⟩,
  ⟨0x182C, 16, 48, 1, 1, 0x00000000#32, 0x00000000#32, 0x00000000#32, 0x00000000#32, 0x00000000#32, 0x00000000#32⟩,
  ⟨0x182D, 16, 48, 1, 1, 0x00000000#32, 0x00000000#32, 0x00000000#32, 0x00000000#32, 0xFFFFFFFF#32, 0x00000000#32⟩,
  ⟨0x182E, 16, 48, 1, 1, 0x00000000#32, 0x00000000#32, 0x00000000#32, 0x00000000#32, 0xFFFF0000#32, 0x00000000#32⟩,
  ⟨0x182F, 16, 48, 1, 1, 0x00000000#32, 0x00000000#32, 0x0000007F#32, 0x00000000#32, 0xFFFF0000#32, 0x00000000#32⟩]

/-- Rows of page 0x1B. -/
def regPage1B : List RegRow := [
  ⟨0x1B00, 1, 1, 1, 1, 0x00000000#32, 0x00000001#32, 0x00000000#32, 0x00000000#32, 0x00000000#32, 0x00000000#32⟩,
  ⟨0x1B01, 1, 1, 1, 1, 0x00000000#32, 0x00000000#32, 0x00000000#32, 0x00000000#32, 0x00000000#32, 0x00000000#32⟩,
  ⟨0x1B08, 1, 1, 1, 1, 0x00000000#32, 0x000001FF#32, 0x00000000#32, 0x00000000#32, 0x00000000#32, 0x00000600#32⟩,
  ⟨0x1B09, 1, 1, 1, 1, 0x00000000#32, 0xFFFFFFFF#32, 0x00000000#32, 0x00000000#32, 0x00000000#32, 0x00000000#32⟩,
  ⟨0x1B0A, 1, 1, 1, 1, 0x010B03E8#32, 0xFF0FFFFF#32, 0x00000000#32, 0x00000000#32, 0x00000000#32, 0x00000000#32⟩,
  ⟨0x1B0B, 1, 1, 1, 1, 0x0064000A#32, 0xFFFFFFFF#32, 0x00000000#32, 0x00000000#32, 0x00000000#32, 0x00000000#32⟩,
  ⟨0x1B10, 1, 1, 1, 1, 0x00000000#32, 0x0000073F#32, 0x00000000#32, 0x00000000#32, 0x00000000#32, 0x00003000#32⟩,
  ⟨0x1B11, 1, 1, 1, 1, 0x00013204#32, 0x00FFFFFF#32, 0x00000000#32, 0x00000000#32, 0x00000000#32, 0x00000000#32⟩,
  ⟨0x1B12, 1, 1, 1, 1, 0x00000000#32, 0xFFFF0FFF#32, 0x00000000#32, 0x00000000#32, 0x00000000#32, 0x00000000#32⟩,
  ⟨0x1B13, 1, 1, 1, 1, 0x00000000#32, 0x00000000#32, 0x00000000#32, 0x00000000#32, 0x00000000#32, 0x00000000#32⟩,
  ⟨0x1B14, 1, 1, 1, 1, 0x00000000#32, 0x00000000#32, 0x00000000#32, 0x00000000#32, 0x00000000#32, 0x00000000#32⟩]

/-- Rows of page 0x1C. -/
def regPage1C : List RegRow := [
  ⟨0x1C00, 8, 64, 1, 1, 0x00000300#32, 0xFFFF0F7B#32, 0x00000000#32, 0x00000000#32, 0x00000000#32, 0x00000004#32⟩,
  ⟨0x1C01, 8, 64, 1, 1, 0x00000002#32, 0x00000000#32, 0x00000000#32, 0x00000000#32, 0x00000000#32, 0x00000000#32⟩,
  ⟨0x1C02, 8, 64, 1, 1, 0x27102710#32, 0x0000FFFF#32, 0x00000000#32, 0x00000000#32, 0x00000000#32, 0x00000000#32⟩,
  ⟨0x1C03, 8, 64, 1, 1, 0x001400C8#32, 0x00FF03FF#32, 0x00000000#32, 0x00000000#32, 0x00000000#32, 0x00000000#32⟩,
  ⟨0x1C04, 8, 64, 3, 1, 0x00000000#32, 0x001FFFFF#32, 0x00000000#32, 0x00000000#32, 0x00000000#32, 0x00000000#32⟩,
  ⟨0x1C08, 8, 64, 3, 1, 0x00000000#32, 0x00000000#32, 0x00000000#32, 0x00000000#32, 0x00000000#32, 0x00000000#32⟩,
  ⟨0x1C0C, 8, 64, 3, 1, 0x00000000#32, 0x00000000#32, 0x00000000#32, 0x00000000#32, 0x00000000#32, 0x00000000#32⟩,
  ⟨0x1C0F, 8, 64, 1, 1, 0x00000000#32, 0x00000000#32, 0x00000000#32, 0x00000000#32, 0x00000000#32, 0x00000000#32⟩,
  ⟨0x1C10, 8, 64, 1, 1, 0x00000000#32, 0x00000000#32, 0x0000013F#32, 0x00000000#32, 0x00000000#32, 0x00000000#32⟩,
  ⟨0x1C11, 8, 64, 1, 1, 0x00000000#32, 0x000F003F#32, 0x00000000#32, 0x00000000#32, 0x00000000#32, 0x00000000#32⟩,
  ⟨0x1C12, 8, 64, 1, 1, 0x00000000#32, 0x00000000#32, 0x00000003#32, 0x00000000#32, 0x00000000#32, 0x00000000#32⟩,
  ⟨0x1C13, 8, 64, 2, 1, 0x00000028#32, 0x000017FF#32, 0x00000000#32, 0x00000000#32, 0x00000000#32, 0x00000000#32⟩,
  ⟨0x1C15, 8, 64, 1, 1, 0x00000000#32, 0x00000000#32, 0x00000000#32, 0x00000000#32, 0xFFFFFFFF#32, 0x00000000#32⟩,
  ⟨0x1C16, 8, 64, 1, 1, 0x00000000#32, 0x00000000#32, 0x00000000#32, 0x00000000#32, 0xFFFFFFFF#32, 0x00000000#32⟩]

/-- Rows of page 0x1D. -/
def regPage1D : List RegRow := [
  ⟨0x1C00, 8, 64, 1, 1, 0x00000300#32, 0xFFFF0F7B#32, 0x00000000#32, 0x00000000#32, 0x00000000#32, 0x00000004#32⟩,
  ⟨0x1C01, 8, 64, 1, 1, 0x00000002#32, 0x00000000#32, 0x00000000#32, 0x00000000#32, 0x00000000#32, 0x00000000#32⟩,
  ⟨0x1C02, 8, 64, 1, 1, 0x27102710#32, 0x0000FFFF#32, 0x00000000#32, 0x00000000#32, 0x00000000#32, 0x00000000#32⟩,
  ⟨0x1C03, 8, 64, 1, 1, 0x001400C8#32, 0x00FF03FF#32, 0x00000000#32, 0x00000000#32, 0x00000000#32, 0x00000000#32⟩,
  ⟨0x1C04, 8, 64, 3, 1, 0x00000000#32, 0x001FFFFF#32, 0x00000000#32, 0x00000000#32, 0x00000000#32, 0x00000000#32⟩,
  ⟨0x1C08, 8, 64, 3, 1, 0x00000000#32, 0x00000000#32, 0x00000000#32, 0x00000000#32, 0x00000000#32, 0x00000000#32⟩,
  ⟨0x1C0C, 8, 64, 3, 1, 0x00000000#32, 0x00000000#32, 0x00000000#32, 0x00000000#32, 0x00000000#32, 0x00000000#32⟩,
  ⟨0x1C0F, 8, 64, 1, 1, 0x00000000#32, 0x00000000#32, 0x00000000#32, 0x00000000#32, 0x00000000#32, 0x00000000#32⟩,
  ⟨0x1C10, 8, 64, 1, 1, 0x00000000#32, 0x00000000#32, 0x0000013F#32, 0x00000000#32, 0x00000000#32, 0x00000000#32⟩,
  ⟨0x1C11, 8, 64, 1, 1, 0x00000000#32, 0x000F003F#32, 0x00000000#32, 0x00000000#32, 0x00000000#32, 0x00000000#32⟩,
  ⟨0x1C12, 8, 64, 1, 1, 0x00000000#32, 0x00000000#32, 0x00000003#32, 0x00000000#32, 0x00000000#32, 0x00000000#32⟩,
  ⟨0x1C13, 8, 64, 2, 1, 0x00000028#32, 0x000017FF#32, 0x00000000#32, 0x00000000#32, 0x00000000#32, 0x00000000#32⟩,
  ⟨0x1C15, 8, 64, 1, 1, 0x00000000#32, 0x00000000#32, 0x00000000#32, 0x00000000#32, 0xFFFFFFFF#32, 0x00000000#32⟩,
  ⟨0x1C16, 8, 64, 1, 1, 0x00000000#32, 0x00000000#32, 0x00000000#32, 0x00000000#32, 0xFFFFFFFF#32, 0x00000000#32⟩]

/-- Rows of page 0x1F. -/
def regPage1F : List RegRow := [
  ⟨0x1F00, 1, 1, 1, 1, 0x00000000#32, 0x00000000#32, 0x00000000#32, 0x000000FF#32, 0x00000000#32, 0x00000000#32⟩,
  ⟨0x1F01, 1, 1, 1, 1, 0x00008000#32, 0x00000000#32, 0x00000000#32, 0x00000000#32, 0x00000000#32, 0x00000000#32⟩,
  ⟨0x1F02, 1, 1, 1, 1, 0x0000FF00#32, 0x00000000#32, 0x00000000#32, 0x00000000#32, 0x00000000#32, 0x00000000#32⟩]

/-- Rows of page 0x20. -/
def regPage20 : List RegRow := [
  ⟨0x2000, 8, 16, 1, 1, 0x00200208#32, 0x003F0FFF#32, 0x00000000#32, 0x00000000#32, 0x00000000#32, 0x00000000#32⟩,
  ⟨0x2001, 8, 16, 1, 1, 0x14130D0D#32, 0xFFFF3F3F#32, 0x00000000#32, 0x00000000#32, 0x00000000#32, 0x00000000#32⟩,
  ⟨0x2002, 8, 16, 1, 1, 0x000300FA#32, 0x000F3FFF#32, 0x00000000#32, 0x00000000#32, 0x00000000#32, 0x00000000#32⟩,
  ⟨0x2003, 8, 16, 1, 1, 0x00000000#32, 0x00FFFFFF#32, 0x00000000#32, 0x00000000#32, 0x00000000#32, 0x00000000#32⟩,
  ⟨0x2004, 8, 16, 1, 1, 0x00640814#32, 0x00FFFFFF#32, 0x00000000#32, 0x00000000#32, 0x00000000#32, 0x00000000#32⟩,
  ⟨0x2005, 8, 16, 1, 1, 0x00000000#32, 0x00000000#32, 0x00000000#32, 0x00000000#32, 0x00000000#32, 0x00000000#32⟩,
  ⟨0x2006, 8, 16, 1, 1, 0x00000000#32, 0x00000000#32, 0x00000000#32, 0x00000000#32, 0x00000000#32, 0x00000000#32⟩,
  ⟨0x2007, 8, 16, 1, 1, 0x00000000#32, 0x00000000#32, 0x00000000#32, 0x00000000#32, 0x00000000#32, 0x00000000#32⟩,
  ⟨0x2008, 8, 16, 1, 1, 0x00000000#32, 0x00000000#32, 0x00000000#32, 0x00000000#32, 0x00000000#32, 0x00000000#32⟩,
  ⟨0x2009, 8, 16, 1, 1, 0xFFFFFFFF#32, 0x00000000#32, 0x00000000#32, 0x00000000#32, 0x00000000#32, 0x00000000#32⟩,
  ⟨0x200A, 8, 16, 1, 1, 0x00000000#32, 0x00000000#32, 0x00000000#32, 0x00000000#32, 0x00000000#32, 0x00000000#32⟩,
  ⟨0x200B, 8, 16, 1, 1, 0x00000300#32, 0x00000000#32, 0x00000000#32, 0x00000000#32, 0x00000000#32, 0x00000000#32⟩,
  ⟨0x200C, 8, 16, 1, 1, 0x00000000#32, 0x00000000#32, 0x00000000#32, 0x00000000#32, 0x00000000#32, 0x00000000#32⟩,
  ⟨0x200D, 8, 16, 1, 1, 0x00000000#32, 0x00000000#32, 0x0000000F#32, 0x00000000#32, 0x00000000#32, 0x00000000#32⟩,
  ⟨0x200E, 8, 16, 1, 1, 0x00000000#32, 0x00000000#32, 0x00000000#32, 0x00000000#32, 0xFFFFFFFF#32, 0x00000000#32⟩,
  ⟨0x2080, 4, 8, 1, 1, 0x00080204#32, 0x00FF0F0F#32, 0x00000000#32, 0x00000000#32, 0x00000000#32, 0x00000000#32⟩,
  ⟨0x2081, 4, 8, 1, 1, 0x00006408#32, 0x0000FFFF#32, 0x00000000#32, 0x00000000#32, 0x00000000#32, 0x00000000#32⟩,
  ⟨0x2082, 4, 8, 1, 1, 0x00000000#32, 0x00000000#32, 0x00000000#32, 0x00000000#32, 0x00000000#32, 0x00000000#32⟩,
  ⟨0x2083, 4, 8, 1, 1, 0x00000000#32, 0x00000000#32, 0x00000000#32, 0x00000000#32, 0x00000000#32, 0x00000000#32⟩,
  ⟨0x2084, 4, 8, 1, 1, 0x00000000#32, 0x00000000#32, 0x00000000#32, 0x00000000#32, 0x00000000#32, 0x00000000#32⟩,
  ⟨0x2085, 4, 8, 1, 1, 0x00000000#32, 0x00000000#32, 0x00000001#32, 0x00000000#32, 0xFFFF0000#32, 0x00000000#32⟩,
  ⟨0x20A0, 2, 4, 1, 1, 0x00000000#32, 0x01FF001F#32, 0x00000000#32, 0x00000000#32, 0x00000000#32, 0x00000000#32⟩,
  ⟨0x20A1, 2, 4, 1, 1, 0x000032C8#32, 0x000FFFFF#32, 0x00000000#32, 0x00000000#32, 0x00000000#32, 0x00000000#32⟩,
  ⟨0x20A2, 2, 4, 1, 1, 0x00000000#32, 0x00000000#32, 0x00000000#32, 0x00000000#32, 0x00000000#32, 0x00000000#32⟩,
  ⟨0x20C0, 1, 1, 1, 1, 0x00000000#32, 0x00000000#32, 0x00000000#32, 0x00000000#32, 0x00000000#32, 0x00000000#32⟩]

/-- Rows of page 0x21. -/
def regPage21 : List RegRow := [
  ⟨0x2100, 2, 4, 1, 1, 0x32C82800#32, 0xFFFFFF07#32, 0x00000000#32, 0x00000000#32, 0x00000000#32, 0x00000000#32⟩,
  ⟨0x2101, 2, 4, 1, 1, 0x00000000#32, 0x00000000#32, 0x00000000#32, 0x00000000#32, 0x00000000#32, 0x00000000#32⟩,
  ⟨0x2102, 2, 4, 1, 1, 0x00000000#32, 0x00000000#32, 0x00000000#32, 0x00000000#32, 0x00000000#32, 0x00000000#32⟩,
  ⟨0x2110, 8, 4, 1, 1, 0x00C80002#32, 0x00FFFF0F#32, 0x00000000#32, 0x00000000#32, 0x00000000#32, 0x00000000#32⟩,
  ⟨0x2111, 8, 4, 1, 1, 0x00000000#32, 0x00000000#32, 0x00000000#32, 0x00000000#32, 0x00000000#32, 0x00000000#32⟩,
  ⟨0x2112, 8, 4, 1, 1, 0x00000000#32, 0x00000000#32, 0x00000000#32, 0x00000000#32, 0x00000000#32, 0x00000000#32⟩,
  ⟨0x2113, 8, 4, 1, 1, 0x00000000#32, 0x00000000#32, 0x00000000#32, 0x00000000#32, 0xFFFF0000#32, 0x00000000#32⟩,
  ⟨0x2140, 16, 4, 1, 1, 0x00000A06#32, 0x0000FF0F#32, 0x00000000#32, 0x00000000#32, 0x00000000#32, 0x00000000#32⟩,
  ⟨0x2141, 16, 4, 1, 1, 0xFFFF0000#32, 0xFFFFFFFF#32, 0x00000000#32, 0x00000000#32, 0x00000000#32, 0x00000000#32⟩,
  ⟨0x2142, 16, 4, 1, 1, 0x00000000#32, 0x00000000#32, 0x00000000#32, 0x00000000#32, 0x00000000#32, 0x00000000#32⟩,
  ⟨0x2143, 16, 4, 1, 1, 0x00000000#32, 0x00000000#32, 0x00000003#32, 0x00000000#32, 0x00000000#32, 0x00000000#32⟩,
  ⟨0x2180, 1, 1, 1, 1, 0x00051316#32, 0x00FFFF1F#32, 0x00000000#32, 0x00000000#32, 0x00000000#32, 0x00000000#32⟩,
  ⟨0x2181, 1, 1, 1, 1, 0x00000C00#32, 0x00001FFF#32, 0x00000000#32, 0x00000000#32, 0x00000000#32, 0x00000000#32⟩,
  ⟨0x2182, 1, 1, 1, 1, 0x14831040#32, 0x3FFFFFFF#32, 0x00000000#32, 0x00000000#32, 0x00000000#32, 0x00000000#32⟩,
  ⟨0x2183, 1, 1, 1, 1, 0x00000000#32, 0xFFFFFFFF#32, 0x00000000#32, 0x00000000#32, 0x00000000#32, 0x00000000#32⟩,
  ⟨0x2184, 1, 1, 1, 1, 0x00000000#32, 0xFFFFFFFF#32, 0x00000000#32, 0x00000000#32, 0x00000000#32, 0x00000000#32⟩,
  ⟨0x2185, 1, 1, 1, 1, 0x00000000#32, 0x0000FFFF#32, 0x00000000#32, 0x00000000#32, 0x00000000#32, 0x00030000#32⟩,
  ⟨0x2186, 1, 1, 1, 1, 0x00000000#32, 0x00000000#32, 0x00000004#32, 0x00000000#32, 0xFFFF0000#32, 0x00000000#32⟩,
  ⟨0x2187, 1, 1, 1, 1, 0x0000FFFF#32, 0x00000000#32, 0x00000000#32, 0x00000000#32, 0x00000000#32, 0x00000000#32⟩,
  ⟨0x2188, 3, 1, 1, 1, 0x00000000#32, 0x00000000#32, 0x00000000#32, 0x00000000#32, 0x00000000#32, 0x00000000#32⟩,
  ⟨0x218B, 3, 1, 1, 1, 0x00000000#32, 0x00000000#32, 0x00000000#32, 0x00000000#32, 0x00000000#32, 0x00000000#32⟩]

/-- Rows of page 0x24. -/
def regPage24 : List RegRow := [
  ⟨0x2400, 1, 1, 1, 1, 0x000003F7#32, 0x000003F7#32, 0x00000000#32, 0x00000000#32, 0x00000000#32, 0x80000000#32⟩,
  ⟨0x2401, 1, 1, 1, 1, 0x00000000#32, 0x00000000#32, 0x00000000#32, 0x00000000#32, 0x00000000#32, 0x00000000#32⟩,
  ⟨0x2402, 1, 1, 1, 1, 0x00000000#32, 0x00000000#32, 0x0000007F#32, 0x00000000#32, 0x00000000#32, 0x00000000#32⟩,
  ⟨0x2404, 2, 4, 1, 1, 0x00006401#32, 0x0000FF01#32, 0x00000000#32, 0x00000000#32, 0x00000000#32, 0x00000000#32⟩,
  ⟨0x2405, 2, 4, 1, 1, 0x00000000#32, 0x00000000#32, 0x00000000#32, 0x00000000#32, 0x00000000#32, 0x00000000#32⟩,
  ⟨0x2406, 2, 4, 1, 1, 0x00000000#32, 0x00000000#32, 0x00000000#32, 0x00000000#32, 0x00000000#32, 0x00000000#32⟩,
  ⟨0x2410, 1, 1, 1, 1, 0x00344132#32, 0x00FFFFFF#32, 0x00000000#32, 0x00000000#32, 0x00000000#32, 0x00000000#32⟩,
  ⟨0x2411, 1, 1, 1, 1, 0x3C241904#32, 0xFFFFFF3F#32, 0x00000000#32, 0x00000000#32, 0x00000000#32, 0x00000000#32⟩,
  ⟨0x2412, 1, 1, 1, 1, 0x00320A0F#32, 0x03FFFFFF#32, 0x00000000#32, 0x00000000#32, 0x00000000#32, 0x00000000#32⟩,
  ⟨0x2413, 1, 1, 1, 1, 0x003217CD#32, 0x00FFFFFF#32, 0x00000000#32, 0x00000000#32, 0x00000000#32, 0x00000000#32⟩,
  ⟨0x2414, 1, 1, 1, 1, 0x00001E0A#32, 0x0000FFFF#32, 0x00000000#32, 0x00000000#32, 0x00000000#32, 0x00000000#32⟩,
  ⟨0x2418, 1, 1, 1, 1, 0x001E050A#32, 0x00FFFFFF#32, 0x00000000#32, 0x00000000#32, 0x00000000#32, 0x00000000#32⟩,
  ⟨0x2419, 1, 1, 1, 1, 0x0000FFFF#32, 0x00000000#32, 0x00000000#32, 0x00000000#32, 0x00000000#32, 0x00000000#32⟩,
  ⟨0x241A, 1, 1, 1, 1, 0x00000014#32, 0x0000FFFF#32, 0x00000000#32, 0x00000000#32, 0x00000000#32, 0x00000000#32⟩,
  ⟨0x2420, 1, 1, 1, 1, 0x00000000#32, 0x00000000#32, 0x00000000#32, 0x00000000#32, 0x00000000#32, 0x00000000#32⟩,
  ⟨0x2421, 1, 1, 1, 1, 0x00000000#32, 0x00000000#32, 0x00000000#32, 0x00000000#32, 0x00000000#32, 0x00000000#32⟩,
  ⟨0x2422, 1, 1, 1, 1, 0x00000000#32, 0x00000000#32, 0x00000000#32, 0x00000000#32, 0x00000000#32, 0x00000000#32⟩,
  ⟨0x2423, 1, 1, 1, 1, 0x00000000#32, 0x00000000#32, 0x00000000#32, 0x00000000#32, 0x00000000#32, 0x00000000#32⟩,
  ⟨0x2424, 1, 1, 1, 1, 0x00000000#32, 0x00000000#32, 0x00000000#32, 0x00000000#32, 0x00000000#32, 0x00000000#32⟩,
  ⟨0x2425, 1, 1, 1, 1, 0x00000000#32, 0x00000000#32, 0x00000000#32, 0x00000000#32, 0x00000000#32, 0x00000000#32⟩,
  ⟨0x2426, 1, 1, 1, 1, 0x00000000#32, 0x00000000#32, 0x00000000#32, 0x00000000#32, 0x00000000#32, 0x00000000#32⟩,
  ⟨0x2427, 1, 1, 1, 1, 0x00000000#32, 0x00000000#32, 0x00000000#32, 0x00000000#32, 0x00000000#32, 0x00000000#32⟩,
  ⟨0x2428, 3, 1, 1, 1, 0x00000000#32, 0x00000000#32, 0x00000000#32, 0x00000000#32, 0x00000000#32, 0x00000000#32⟩,
  ⟨0x242B, 1, 1, 1, 1, 0xFFFFFFFF#32, 0x00000000#32, 0x00000000#32, 0x00000000#32, 0x00000000#32, 0x00000000#32⟩,
  ⟨0x242C, 1, 1, 1, 1, 0x00FF0000#32, 0x00000000#32, 0x00000000#32, 0x00000000#32, 0x00000000#32, 0x00000000#32⟩,
  ⟨0x242D, 1, 1, 1, 1, 0x00000000#32, 0x00000000#32, 0x00000000#32, 0x00000000#32, 0x00000000#32, 0x00000000#32⟩,
  ⟨0x242E, 1, 1, 1, 1, 0x00000000#32, 0x00000000#32, 0x00000000#32, 0x00000000#32, 0x00000000#32, 0x00000000#32⟩,
  ⟨0x242F, 1, 1, 1, 1, 0x0000FFFF#32, 0x00000000#32, 0x00000000#32, 0x00000000#32, 0x00000000#32, 0x00000000#32⟩,
  ⟨0x2430, 1, 1, 1, 1, 0x00000000#32, 0x00000000#32, 0x00000000#32, 0x00000000#32, 0xFFFFFFFF#32, 0x00000000#32⟩,
  ⟨0x2431, 1, 1, 1, 1, 0x00000000#32, 0x00000000#32, 0x00000000#32, 0x00000000#32, 0xFFFFFFFF#32, 0x00000000#32⟩,
  ⟨0x2432, 1, 1, 1, 1, 0x00000000#32, 0x00000000#32, 0x00000000#32, 0x00000000#32, 0xFFFFFFFF#32, 0x00000000#32⟩,
  ⟨0x2433, 1, 1, 1, 1, 0x00000000#32, 0x00000000#32, 0x00000000#32, 0x00000000#32, 0xFFFFFFFF#32, 0x00000000#32⟩,
  ⟨0x2434, 1, 1, 1, 1, 0x00000000#32, 0x00000000#32, 0x00000000#32, 0x00000000#32, 0xFFFFFFFF#32, 0x00000000#32⟩,
  ⟨0x2435, 1, 1, 1, 1, 0x00000000#32, 0x00000000#32, 0x00000000#32, 0x00000000#32, 0xFFFFFFFF#32, 0x00000000#32⟩,
  ⟨0x2436, 1, 1, 1, 1, 0x00000000#32, 0x00000000#32, 0x00000000#32, 0x00000000#32, 0xFFFFFFFF#32, 0x00000000#32⟩,
  ⟨0x2437, 1, 1, 1, 1, 0x00000000#32, 0x00000000#32, 0x00000000#32, 0x00000000#32, 0xFFFFFFFF#32, 0x00000000#32⟩,
  ⟨0x2438, 1, 1, 1, 1, 0x00000000#32, 0x00000000#32, 0x0000001F#32, 0x00000000#32, 0x00000000#32, 0x00000000#32⟩,
  ⟨0x2439, 1, 1, 1, 1, 0x00000000#32, 0x0000001F#32, 0x00000000#32, 0x00000000#32, 0x00000000#32, 0x00000000#32⟩]

/-- Rows of page 0x25. -/
def regPage25 : List RegRow := [
  ⟨0x2500, 1, 1, 1, 1, 0x00000000#32, 0x000000FF#32, 0x00000000#32, 0x00000000#32, 0x00000000#32, 0x00000000#32⟩,
  ⟨0x2501, 1, 1, 1, 1, 0x00000000#32, 0x00000000#32, 0x00000000#32, 0x00000000#32, 0x00000000#32, 0x00000000#32⟩,
  ⟨0x2502, 1, 1, 1, 1, 0x00000000#32, 0x00000000#32, 0x00000000#32, 0x00000000#32, 0x00000000#32, 0x00000000#32⟩,
  ⟨0x2503, 1, 1, 1, 1, 0x00000000#32, 0x00000000#32, 0x00000000#32, 0x00000000#32, 0x00000000#32, 0x00000000#32⟩,
  ⟨0x2504, 1, 1, 1, 1, 0x00000000#32, 0x00000000#32, 0x00000000#32, 0x00000000#32, 0x00000000#32, 0x00000000#32⟩,
  ⟨0x2505, 1, 1, 1, 1, 0x00000000#32, 0x00000000#32, 0x00000000#32, 0x00000000#32, 0x00000000#32, 0x00000000#32⟩,
  ⟨0x2506, 1, 1, 1, 1, 0x00000000#32, 0x00003FF7#32, 0x00000000#32, 0x00000000#32, 0x00000000#32, 0x00000000#32⟩]

/-- Rows of page 0x26. -/
def regPage26 : List RegRow := [
  ⟨0x2600, 192, 1, 1, 1, 0x00000000#32, 0x00000000#32, 0x00000000#32, 0x00000000#32, 0x00000000#32, 0x00000000#32⟩]

/-- Rows of page 0x28. -/
def regPage28 : List RegRow := [
  ⟨0x2800, 1, 1, 1, 1, 0x00000000#32, 0x00000000#32, 0x00000000#32, 0x00000000#32, 0x00000000#32, 0x00000001#32⟩,
  ⟨0x2801, 1, 1, 1, 1, 0x00000000#32, 0x00000000#32, 0x00000000#32, 0x00000000#32, 0x00000000#32, 0x00000000#32⟩,
  ⟨0x2802, 1, 1, 1, 1, 0x00000000#32, 0x00000000#32, 0x00000000#32, 0x00000000#32, 0x00000000#32, 0x00000000#32⟩,
  ⟨0x2803, 1, 1, 1, 1, 0x00000000#32, 0x00000000#32, 0x00000000#32, 0x00000000#32, 0x00000000#32, 0x00000000#32⟩,
  ⟨0x2810, 1, 16, 1, 1, 0x00000001#32, 0x00000433#32, 0x00000000#32, 0x00000000#32, 0x00000000#32, 0x00000300#32⟩,
  ⟨0x2820, 3, 16, 1, 1, 0x00000000#32, 0x00000433#32, 0x00000000#32, 0x00000000#32, 0x00000000#32, 0x00000300#32⟩,
  ⟨0x2811, 1, 16, 1, 1, 0x00000000#32, 0x00000000#32, 0x00000100#32, 0x00000000#32, 0x00000000#32, 0x00000000#32⟩,
  ⟨0x2821, 3, 16, 1, 1, 0x00000001#32, 0x00000000#32, 0x00000100#32, 0x00000000#32, 0x00000000#32, 0x00000000#32⟩,
  ⟨0x2812, 4, 16, 1, 1, 0x00000000#32, 0x00000000#32, 0x00000000#32, 0x00000000#32, 0x00000000#32, 0x00000000#32⟩,
  ⟨0x2813, 4, 16, 1, 1, 0x00000000#32, 0x00000000#32, 0x00000000#32, 0x00000000#32, 0x00000000#32, 0x00000000#32⟩,
  ⟨0x2814, 4, 16, 1, 1, 0x00000000#32, 0xFFFFFFFF#32, 0x00000000#32, 0x00000000#32, 0x00000000#32, 0x00000000#32⟩,
  ⟨0x2815, 4, 16, 1, 1, 0x000003E8#32, 0x00003FFF#32, 0x00000000#32, 0x00000000#32, 0x00000000#32, 0x00000000#32⟩,
  ⟨0x2816, 4, 16, 1, 1, 0x00000000#32, 0xFFFFFFFF#32, 0x00000000#32, 0x00000000#32, 0x00000000#32, 0x00000000#32⟩,
  ⟨0x2817, 4, 16, 1, 1, 0x00000000#32, 0xFFFFFFFF#32, 0x00000000#32, 0x00000000#32, 0x00000000#32, 0x00000000#32⟩,
  ⟨0x2818, 4, 16, 1, 1, 0x00000000#32, 0x00000000#32, 0x00000000#32, 0x00000000#32, 0x00000000#32, 0x00000000#32⟩,
  ⟨0x2819, 4, 16, 1, 1, 0x00000000#32, 0x00000000#32, 0x00000000#32, 0x00000000#32, 0x00000000#32, 0x00000000#32⟩,
  ⟨0x281A, 4, 16, 1, 1, 0x00000000#32, 0x00000000#32, 0x00000000#32, 0x00000000#32, 0x00000000#32, 0x00000000#32⟩,
  ⟨0x281B, 4, 16, 1, 1, 0x00000000#32, 0x00000000#32, 0x00000000#32, 0x00000000#32, 0x00000000#32, 0x00000000#32⟩,
  ⟨0x2850, 1, 1, 1, 1, 0x00000000#32, 0x0000FFFF#32, 0x00000000#32, 0x00000000#32, 0x00000000#32, 0x00000000#32⟩,
  ⟨0x2851, 1, 1, 1, 1, 0x00000000#32, 0x0001FFFF#32, 0x00000000#32, 0x00000000#32, 0x00000000#32, 0x00000000#32⟩,
  ⟨0x2852, 1, 1, 1, 1, 0x00000000#32, 0xFFFFFFFF#32, 0x00000000#32, 0x00000000#32, 0x00000000#32, 0x00000000#32⟩,
  ⟨0x2858, 1, 1, 1, 1, 0x0A000258#32, 0x0F01FFFF#32, 0x00000000#32, 0x00000000#32, 0x00000000#32, 0x00000000#32⟩,
  ⟨0x2859, 1, 1, 1, 1, 0x00320032#32, 0xFFFFFFFF#32, 0x00000000#32, 0x00000000#32, 0x00000000#32, 0x00000000#32⟩,
  ⟨0x285A, 1, 1, 1, 1, 0x00000000#32, 0x00000000#32, 0x00000000#32, 0x00000000#32, 0x00000000#32, 0x00000000#32⟩,
  ⟨0x285B, 1, 1, 1, 1, 0xFFFFFFFF#32, 0x00000000#32, 0x00000000#32, 0x00000000#32, 0x00000000#32, 0x00000000#32⟩,
  ⟨0x285C, 1, 1, 1, 1, 0x00000000#32, 0x00000000#32, 0x00000000#32, 0x00000000#32, 0x00000000#32, 0x00000000#32⟩,
  ⟨0x285E, 1, 1, 1, 1, 0x00000000#32, 0x00000000#32, 0x00000000#32, 0x00000000#32, 0xFFFFFFFF#32, 0x00000000#32⟩,
  ⟨0x285F, 1, 1, 1, 1, 0x00000000#32, 0x00000000#32, 0x00000000#32, 0x00000000#32, 0xFFFFFFFF#32, 0x00000000#32⟩,
  ⟨0x2860, 2, 16, 1, 1, 0x186A0000#32, 0x7FFFF00F#32, 0x00000000#32, 0x00000000#32, 0x00000000#32, 0x00000000#32⟩,
  ⟨0x2861, 2, 16, 1, 1, 0x000003E8#32, 0x000003FF#32, 0x00000000#32, 0x00000000#32, 0x00000000#32, 0x00000000#32⟩,
  ⟨0x2862, 2, 16, 1, 1, 0x00000000#32, 0xFFFFFFFF#32, 0x00000000#32, 0x00000000#32, 0x00000000#32, 0x00000000#32⟩,
  ⟨0x2863, 2, 16, 1, 1, 0x00010000#32, 0x00000000#32, 0x00000000#32, 0x00000000#32, 0x00000000#32, 0x00000000#32⟩,
  ⟨0x2864, 2, 16, 6, 1, 0x00000000#32, 0x00000000#32, 0x00000000#32, 0x00000000#32, 0x00000000#32, 0x00000000#32⟩,
  ⟨0x2880, 1, 1, 1, 1, 0x00000000#32, 0x00000000#32, 0x0000001F#32, 0x00000000#32, 0x00000000#32, 0x00000000#32⟩,
  ⟨0x2881, 1, 1, 1, 1, 0x00000000#32, 0x0000001F#32, 0x00000000#32, 0x00000000#32, 0x00000000#32, 0x00000000#32⟩]

/-- Rows of page 0x29. -/
def regPage29 : List RegRow := [
  ⟨0x2900, 1, 1, 1, 1, 0x00000000#32, 0x00000001#32, 0x00000000#32, 0x00000000#32, 0x00000000#32, 0x00000000#32⟩,
  ⟨0x2901, 1, 1, 1, 1, 0x00000000#32, 0xFFFFFFFF#32, 0x00000000#32, 0x00000000#32, 0x00000000#32, 0x00000000#32⟩,
  ⟨0x2902, 1, 1, 1, 1, 0x00000000#32, 0x0000FFFF#32, 0x00000000#32, 0x00000000#32, 0x00000000#32, 0x00000000#32⟩,
  ⟨0x2903, 1, 1, 1, 1, 0x00000000#32, 0xFFFFFFFF#32, 0x00000000#32, 0x00000000#32, 0x00000000#32, 0x00000000#32⟩,
  ⟨0x2904, 1, 1, 1, 1, 0xFFFFFF00#32, 0xFFFFFFFF#32, 0x00000000#32, 0x00000000#32, 0x00000000#32, 0x00000000#32⟩,
  ⟨0x2905, 1, 1, 1, 1, 0x0000B798#32, 0x0000FFFF#32, 0x00000000#32, 0x00000000#32, 0x00000000#32, 0x00000000#32⟩,
  ⟨0x2908, 1, 1, 1, 1, 0x0000012C#32, 0x0000FFFF#32, 0x00000000#32, 0x00000000#32, 0x00000000#32, 0x00000000#32⟩,
  ⟨0x2909, 1, 1, 1, 1, 0x00000000#32, 0x00000000#32, 0x00000000#32, 0x00000000#32, 0x00000000#32, 0x00000000#32⟩,
  ⟨0x2910, 1, 16, 1, 1, 0x00000001#32, 0x00000001#32, 0x00000000#32, 0x00000000#32, 0x00000000#32, 0x00000000#32⟩,
  ⟨0x2920, 1, 16, 1, 1, 0x00000000#32, 0x00000001#32, 0x00000000#32, 0x00000000#32, 0x00000000#32, 0x00000000#32⟩,
  ⟨0x2911, 2, 16, 1, 1, 0x00000000#32, 0x00000000#32, 0x00000000#32, 0x00000000#32, 0xFFFF0000#32, 0x00000000#32⟩,
  ⟨0x2912, 2, 16, 1, 1, 0x01280206#32, 0xFFFFFFFF#32, 0x00000000#32, 0x00000000#32, 0x00000000#32, 0x00000000#32⟩,
  ⟨0x2913, 2, 16, 1, 1, 0x00000000#32, 0x00000000#32, 0x00000000#32, 0x00000000#32, 0xFFFFFFFF#32, 0x00000000#32⟩,
  ⟨0x2914, 2, 16, 1, 1, 0x00000000#32, 0x00000000#32, 0x00000000#32, 0x00000000#32, 0xFFFFFFFF#32, 0x00000000#32⟩,
  ⟨0x2915, 2, 16, 1, 1, 0x00000000#32, 0x00000000#32, 0x00000000#32, 0x00000000#32, 0xFFFFFFFF#32, 0x00000000#32⟩,
  ⟨0x2916, 2, 16, 1, 1, 0x00000000#32, 0x00000000#32, 0x00000000#32, 0x00000000#32, 0xFFFFFFFF#32, 0x00000000#32⟩,
  ⟨0x2940, 1, 1, 1, 1, 0x00320A08#32, 0x00FFFF0C#32, 0x00000000#32, 0x00000000#32, 0x00000000#32, 0x00000003#32⟩,
  ⟨0x2941, 1, 1, 1, 1, 0x00000000#32, 0x00000000#32, 0x00000100#32, 0x00000000#32, 0x00000000#32, 0x00000000#32⟩,
  ⟨0x2942, 1, 1, 1, 1, 0x00000000#32, 0x00000000#32, 0x00000000#32, 0x00000000#32, 0xFFFFFFFF#32, 0x00000000#32⟩]

/-- Rows of page 0x2A. -/
def regPage2A : List RegRow := [
  ⟨0x2A00, 1, 1, 1, 1, 0x00000007#32, 0x00000007#32, 0x00000000#32, 0x00000000#32, 0x00000000#32, 0x00000000#32⟩,
  ⟨0x2A01, 1, 1, 1, 1, 0x00000000#32, 0x00000000#32, 0x00000000#32, 0x00000000#32, 0xFFFFFFFF#32, 0x00000000#32⟩,
  ⟨0x2A02, 1, 1, 1, 1, 0x00000000#32, 0x00000000#32, 0x00000000#32, 0x00000000#32, 0xFFFFFFFF#32, 0x00000000#32⟩,
  ⟨0x2A10, 1, 1, 1, 1, 0x00FDF600#32, 0x00FFFF0F#32, 0x00000000#32, 0x00000000#32, 0x00000000#32, 0x00000000#32⟩,
  ⟨0x2A11, 1, 1, 1, 1, 0x00000000#32, 0x00000000#32, 0x00000000#32, 0x00000000#32, 0x00000000#32, 0x00000000#32⟩,
  ⟨0x2A12, 1, 1, 1, 1, 0x00000000#32, 0x00000000#32, 0x00000000#32, 0x00000000#32, 0x00000000#32, 0x00000000#32⟩,
  ⟨0x2A13, 1, 1, 1, 1, 0x00000000#32, 0x00000000#32, 0x00000000#32, 0x00000000#32, 0x00000000#32, 0x00000000#32⟩,
  ⟨0x2A20, 1, 1, 1, 1, 0x00060000#32, 0xFF07FF03#32, 0x00000000#32, 0x00000000#32, 0x00000000#32, 0x00000000#32⟩,
  ⟨0x2A21, 1, 1, 1, 1, 0x00000000#32, 0x00000000#32, 0x00000000#32, 0x00000000#32, 0x00000000#32, 0x00000000#32⟩,
  ⟨0x2A22, 1, 1, 1, 1, 0x00000000#32, 0x00000000#32, 0x00000000#32, 0x00000000#32, 0x00000000#32, 0x00000000#32⟩,
  ⟨0x2A23, 1, 1, 1, 1, 0x00000000#32, 0x00000000#32, 0x00000000#32, 0x00000000#32, 0x00000000#32, 0x00000000#32⟩]

/-- Rows of page 0x2C. -/
def regPage2C : List RegRow := [
  ⟨0x2C00, 4, 256, 1, 1, 0x00000F00#32, 0x00001FD7#32, 0x00000000#32, 0x00000000#32, 0x00000000#32, 0x00000020#32⟩,
  ⟨0x2C01, 4, 256, 1, 1, 0x00000000#32, 0x00000000#32, 0x00000000#32, 0x00000000#32, 0x00000000#32, 0x00000000#32⟩,
  ⟨0x2C02, 4, 256, 1, 1, 0x0A451404#32, 0x7FFFFFFF#32, 0x00000000#32, 0x00000000#32, 0x00000000#32, 0x00000000#32⟩,
  ⟨0x2C03, 4, 256, 1, 1, 0x081F0801#32, 0x8F1F0F1F#32, 0x00000000#32, 0x00000000#32, 0x00000000#32, 0x00000000#32⟩,
  ⟨0x2C04, 4, 256, 1, 1, 0x00000000#32, 0x0000007F#32, 0x00000000#32, 0x00000000#32, 0x00000000#32, 0x00000000#32⟩,
  ⟨0x2C05, 4, 256, 1, 1, 0x00000000#32, 0x01FF01FF#32, 0x00000000#32, 0x00000000#32, 0x00000000#32, 0x00000000#32⟩,
  ⟨0x2C06, 4, 256, 1, 1, 0x00000000#32, 0x0000337F#32, 0x00000000#32, 0x00000000#32, 0x00000000#32, 0x00000000#32⟩,
  ⟨0x2C07, 4, 256, 1, 1, 0x00000000#32, 0x0000FFFF#32, 0x00000000#32, 0x00000000#32, 0x00000000#32, 0x00000000#32⟩,
  ⟨0x2C08, 4, 256, 1, 1, 0x000001F4#32, 0xFFFFFFFF#32, 0x00000000#32, 0x00000000#32, 0x00000000#32, 0x00000000#32⟩,
  ⟨0x2C09, 4, 256, 1, 1, 0x00000000#32, 0x0000000F#32, 0x00000000#32, 0x00000000#32, 0x00000000#32, 0x00000000#32⟩,
  ⟨0x2C10, 4, 256, 4, 1, 0x00000000#32, 0x000B03FF#32, 0x00000000#32, 0x00000000#32, 0x00000000#32, 0x00000000#32⟩,
  ⟨0x2C14, 4, 256, 4, 1, 0x00000000#32, 0x00000000#32, 0x00000000#32, 0x00000000#32, 0xFFFF0000#32, 0x00000000#32⟩,
  ⟨0x2C20, 4, 256, 32, 1, 0x00000000#32, 0xFFFFFFFF#32, 0x00000000#32, 0x00000000#32, 0x00000000#32, 0x00000000#32⟩,
  ⟨0x2C40, 4, 256, 32, 1, 0x1FFFFFFF#32, 0x1FFFFFFF#32, 0x00000000#32, 0x00000000#32, 0x00000000#32, 0x00000000#32⟩,
  ⟨0x2C60, 4, 256, 32, 1, 0x00000000#32, 0x0000000F#32, 0x00000000#32, 0x00000000#32, 0x00000000#32, 0x00000000#32⟩,
  ⟨0x2C80, 4, 256, 64, 1, 0x00000000#32, 0x00000000#32, 0x00000000#32, 0x00000000#32, 0x00000000#32, 0x00000000#32⟩,
  ⟨0x2CC0, 4, 256, 1, 1, 0x00000000#32, 0x0000003F#32, 0x00000000#32, 0x00000000#32, 0x00000000#32, 0x00000000#32⟩,
  ⟨0x2CC1, 4, 256, 1, 1, 0x00000000#32, 0x00000000#32, 0x00000000#32, 0x00000000#32, 0x00000000#32, 0x00000000#32⟩,
  ⟨0x2CC2, 4, 256, 1, 1, 0x00000000#32, 0x00000000#32, 0x00000000#32, 0x00000000#32, 0x00000000#32, 0x00000000#32⟩,
  ⟨0x2CD0, 4, 256, 1, 1, 0x00000000#32, 0x00000000#32, 0x00000000#32, 0x00000000#32, 0xFFFFFFFF#32, 0x00000000#32⟩,
  ⟨0x2CD1, 4, 256, 1, 1, 0x00000000#32, 0x00000000#32, 0x00000000#32, 0x00000000#32, 0xFFFFFFFF#32, 0x00000000#32⟩,
  ⟨0x2CD2, 4, 256, 1, 1, 0x00000000#32, 0x00000000#32, 0x00000000#32, 0x00000000#32, 0xFFFFFFFF#32, 0x00000000#32⟩,
  ⟨0x2CD3, 4, 256, 1, 1, 0x00000000#32, 0x00000000#32, 0x00000000#32, 0x00000000#32, 0xFFFFFFFF#32, 0x00000000#32⟩,
  ⟨0x2CD4, 4, 256, 1, 1, 0x00000000#32, 0x00000000#32, 0x00000000#32, 0x00000000#32, 0xFFFFFFFF#32, 0x00000000#32⟩,
  ⟨0x2CD5, 4, 256, 1, 1, 0x00000000#32, 0x00000000#32, 0x00000000#32, 0x00000000#32, 0xFFFFFFFF#32, 0x00000000#32⟩,
  ⟨0x2CD6, 4, 256, 1, 1, 0x00000000#32, 0x00000000#32, 0x00000000#32, 0x00000000#32, 0xFFFFFFFF#32, 0x00000000#32⟩,
  ⟨0x2CD7, 4, 256, 1, 1, 0x00000000#32, 0x00000000#32, 0x00000000#32, 0x00000000#32, 0xFFFFFFFF#32, 0x00000000#32⟩,
  ⟨0x2CD8, 4, 256, 1, 1, 0x00000000#32, 0x00000000#32, 0x00000000#32, 0x00000000#32, 0xFFFFFFFF#32, 0x00000000#32⟩,
  ⟨0x2CD9, 4, 256, 1, 1, 0x00000000#32, 0x00000000#32, 0x00000000#32, 0x00000000#32, 0xFFFFFFFF#32, 0x00000000#32⟩,
  ⟨0x2CE0, 4, 256, 1, 1, 0x00000000#32, 0x00000000#32, 0x0000007F#32, 0x00000000#32, 0x00000000#32, 0x00000000#32⟩,
  ⟨0x2CE1, 4, 256, 1, 1, 0x00000000#32, 0x0000007F#32, 0x00000000#32, 0x00000000#32, 0x00000000#32, 0x00000000#32⟩,
  ⟨0x2CF0, 1, 1, 1, 1, 0x00000080#32, 0x000001FF#32, 0x00000000#32, 0x00000000#32, 0x00000000#32, 0x00000000#32⟩,
  ⟨0x2CF1, 1, 1, 1, 1, 0x000000FE#32, 0x00000000#32, 0x00000200#32, 0x00000000#32, 0x00000000#32, 0x00000000#32⟩,
  ⟨0x2CF2, 1, 1, 1, 1, 0x00000000#32, 0xFFFFFFFF#32, 0x00000000#32, 0x00000000#32, 0x00000000#32, 0x00000000#32⟩,
  ⟨0x2CF3, 1, 1, 1, 1, 0x00000000#32, 0xFFFFFFFF#32, 0x00000000#32, 0x00000000#32, 0x00000000#32, 0x00000000#32⟩]

/-- Rows of page 0x2D. -/
def regPage2D : List RegRow := [
  ⟨0x2C00, 4, 256, 1, 1, 0x00000F00#32, 0x00001FD7#32, 0x00000000#32, 0x00000000#32, 0x00000000#32, 0x00000020#32⟩,
  ⟨0x2C01, 4, 256, 1, 1, 0x00000000#32, 0x00000000#32, 0x00000000#32, 0x00000000#32, 0x00000000#32, 0x00000000#32⟩,
  ⟨0x2C02, 4, 256, 1, 1, 0x0A451404#32, 0x7FFFFFFF#32, 0x00000000#32, 0x00000000#32, 0x00000000#32, 0x00000000#32⟩,
  ⟨0x2C03, 4, 256, 1, 1, 0x081F0801#32, 0x8F1F0F1F#32, 0x00000000#32, 0x00000000#32, 0x00000000#32, 0x00000000#32⟩,
  ⟨0x2C04, 4, 256, 1, 1, 0x00000000#32, 0x0000007F#32, 0x00000000#32, 0x00000000#32, 0x00000000#32, 0x00000000#32⟩,
  ⟨0x2C05, 4, 256, 1, 1, 0x00000000#32, 0x01FF01FF#32, 0x00000000#32, 0x00000000#32, 0x00000000#32, 0x00000000#32⟩,
  ⟨0x2C06, 4, 256, 1, 1, 0x00000000#32, 0x0000337F#32, 0x00000000#32, 0x00000000#32, 0x00000000#32, 0x00000000#32⟩,
  ⟨0x2C07, 4, 256, 1, 1, 0x00000000#32, 0x0000FFFF#32, 0x00000000#32, 0x00000000#32, 0x00000000#32, 0x00000000#32⟩,
  ⟨0x2C08, 4, 256, 1, 1, 0x000001F4#32, 0xFFFFFFFF#32, 0x00000000#32, 0x00000000#32, 0x00000000#32, 0x00000000#32⟩,
  ⟨0x2C09, 4, 256, 1, 1, 0x00000000#32, 0x0000000F#32, 0x00000000#32, 0x00000000#32, 0x00000000#32, 0x00000000#32⟩,
  ⟨0x2C10, 4, 256, 4, 1, 0x00000000#32, 0x000B03FF#32, 0x00000000#32, 0x00000000#32, 0x00000000#32, 0x00000000#32⟩,
  ⟨0x2C14, 4, 256, 4, 1, 0x00000000#32, 0x00000000#32, 0x00000000#32, 0x00000000#32, 0xFFFF0000#32, 0x00000000#32⟩,
  ⟨0x2C20, 4, 256, 32, 1, 0x00000000#32, 0xFFFFFFFF#32, 0x00000000#32, 0x00000000#32, 0x00000000#32, 0x00000000#32⟩,
  ⟨0x2C40, 4, 256, 32, 1, 0x1FFFFFFF#32, 0x1FFFFFFF#32, 0x00000000#32, 0x00000000#32, 0x00000000#32, 0x00000000#32⟩,
  ⟨0x2C60, 4, 256, 32, 1, 0x00000000#32, 0x0000000F#32, 0x00000000#32, 0x00000000#32, 0x00000000#32, 0x00000000#32⟩,
  ⟨0x2C80, 4, 256, 64, 1, 0x00000000#32, 0x00000000#32, 0x00000000#32, 0x00000000#32, 0x00000000#32, 0x00000000#32⟩,
  ⟨0x2CC0, 4, 256, 1, 1, 0x00000000#32, 0x0000003F#32, 0x00000000#32, 0x00000000#32, 0x00000000#32, 0x00000000#32⟩,
  ⟨0x2CC1, 4, 256, 1, 1, 0x00000000#32, 0x00000000#32, 0x00000000#32, 0x00000000#32, 0x00000000#32, 0x00000000#32⟩,
  ⟨0x2CC2, 4, 256, 1, 1, 0x00000000#32, 0x00000000#32, 0x00000000#32, 0x00000000#32, 0x00000000#32, 0x00000000#32⟩,
  ⟨0x2CD0, 4, 256, 1, 1, 0x00000000#32, 0x00000000#32, 0x00000000#32, 0x00000000#32, 0xFFFFFFFF#32, 0x00000000#32⟩,
  ⟨0x2CD1, 4, 256, 1, 1, 0x00000000#32, 0x00000000#32, 0x00000000#32, 0x00000000#32, 0xFFFFFFFF#32, 0x00000000#32⟩,
  ⟨0x2CD2, 4, 256, 1, 1, 0x00000000#32, 0x00000000#32, 0x00000000#32, 0x00000000#32, 0xFFFFFFFF#32, 0x00000000#32⟩,
  ⟨0x2CD3, 4, 256, 1, 1, 0x00000000#32, 0x00000000#32, 0x00000000#32, 0x00000000#32, 0xFFFFFFFF#32, 0x00000000#32⟩,
  ⟨0x2CD4, 4, 256, 1, 1, 0x00000000#32, 0x00000000#32, 0x00000000#32, 0x00000000#32, 0xFFFFFFFF#32, 0x00000000#32⟩,
  ⟨0x2CD5, 4, 256, 1, 1, 0x00000000#32, 0x00000000#32, 0x00000000#32, 0x00000000#32, 0xFFFFFFFF#32, 0x00000000#32⟩,
  ⟨0x2CD6, 4, 256, 1, 1, 0x00000000#32, 0x00000000#32, 0x00000000#32, 0x00000000#32, 0xFFFFFFFF#32, 0x00000000#32⟩,
  ⟨0x2CD7, 4, 256, 1, 1, 0x00000000#32, 0x00000000#32, 0x00000000#32, 0x00000000#32, 0xFFFFFFFF#32, 0x00000000#32⟩,
  ⟨0x2CD8, 4, 256, 1, 1, 0x00000000#32, 0x00000000#32, 0x00000000#32, 0x00000000#32, 0xFFFFFFFF#32, 0x00000000#32⟩,
  ⟨0x2CD9, 4, 256, 1, 1, 0x00000000#32, 0x00000000#32, 0x00000000#32, 0x00000000#32, 0xFFFFFFFF#32, 0x00000000#32⟩,
  ⟨0x2CE0, 4, 256, 1, 1, 0x00000000#32, 0x00000000#32, 0x0000007F#32, 0x00000000#32, 0x00000000#32, 0x00000000#32⟩,
  ⟨0x2CE1, 4, 256, 1, 1, 0x00000000#32, 0x0000007F#32, 0x00000000#32, 0x00000000#32, 0x00000000#32, 0x00000000#32⟩]

/-- Rows of page 0x2E. -/
def regPage2E : List RegRow := [
  ⟨0x2C00, 4, 256, 1, 1, 0x00000F00#32, 0x00001FD7#32, 0x00000000#32, 0x00000000#32, 0x00000000#32, 0x00000020#32⟩,
  ⟨0x2C01, 4, 256, 1, 1, 0x00000000#32, 0x00000000#32, 0x00000000#32, 0x00000000#32, 0x00000000#32, 0x00000000#32⟩,
  ⟨0x2C02, 4, 256, 1, 1, 0x0A451404#32, 0x7FFFFFFF#32, 0x00000000#32, 0x00000000#32, 0x00000000#32, 0x00000000#32⟩,
  ⟨0x2C03, 4, 256, 1, 1, 0x081F0801#32, 0x8F1F0F1F#32, 0x00000000#32, 0x00000000#32, 0x00000000#32, 0x00000000#32⟩,
  ⟨0x2C04, 4, 256, 1, 1, 0x00000000#32, 0x0000007F#32, 0x00000000#32, 0x00000000#32, 0x00000000#32, 0x00000000#32⟩,
  ⟨0x2C05, 4, 256, 1, 1, 0x00000000#32, 0x01FF01FF#32, 0x00000000#32, 0x00000000#32, 0x00000000#32, 0x00000000#32⟩,
  ⟨0x2C06, 4, 256, 1, 1, 0x00000000#32, 0x0000337F#32, 0x00000000#32, 0x00000000#32, 0x00000000#32, 0x00000000#32⟩,
  ⟨0x2C07, 4, 256, 1, 1, 0x00000000#32, 0x0000FFFF#32, 0x00000000#32, 0x00000000#32, 0x00000000#32, 0x00000000#32⟩,
  ⟨0x2C08, 4, 256, 1, 1, 0x000001F4#32, 0xFFFFFFFF#32, 0x00000000#32, 0x00000000#32, 0x00000000#32, 0x00000000#32⟩,
  ⟨0x2C09, 4, 256, 1, 1, 0x00000000#32, 0x0000000F#32, 0x00000000#32, 0x00000000#32, 0x00000000#32, 0x00000000#32⟩,
  ⟨0x2C10, 4, 256, 4, 1, 0x00000000#32, 0x000B03FF#32, 0x00000000#32, 0x00000000#32, 0x00000000#32, 0x00000000#32⟩,
  ⟨0x2C14, 4, 256, 4, 1, 0x00000000#32, 0x00000000#32, 0x00000000#32, 0x00000000#32, 0xFFFF0000#32, 0x00000000#32⟩,
  ⟨0x2C20, 4, 256, 32, 1, 0x00000000#32, 0xFFFFFFFF#32, 0x00000000#32, 0x00000000#32, 0x00000000#32, 0x00000000#32⟩,
  ⟨0x2C40, 4, 256, 32, 1, 0x1FFFFFFF#32, 0x1FFFFFFF#32, 0x00000000#32, 0x00000000#32, 0x00000000#32, 0x00000000#32⟩,
  ⟨0x2C60, 4, 256, 32, 1, 0x00000000#32, 0x0000000F#32, 0x00000000#32, 0x00000000#32, 0x00000000#32, 0x00000000#32⟩,
  ⟨0x2C80, 4, 256, 64, 1, 0x00000000#32, 0x00000000#32, 0x00000000#32, 0x00000000#32, 0x00000000#32, 0x00000000#32⟩,
  ⟨0x2CC0, 4, 256, 1, 1, 0x00000000#32, 0x0000003F#32, 0x00000000#32, 0x00000000#32, 0x00000000#32, 0x00000000#32⟩,
  ⟨0x2CC1, 4, 256, 1, 1, 0x00000000#32, 0x00000000#32, 0x00000000#32, 0x00000000#32, 0x00000000#32, 0x00000000#32⟩,
  ⟨0x2CC2, 4, 256, 1, 1, 0x00000000#32, 0x00000000#32, 0x00000000#32, 0x00000000#32, 0x00000000#32, 0x00000000#32⟩,
  ⟨0x2CD0, 4, 256, 1, 1, 0x00000000#32, 0x00000000#32, 0x00000000#32, 0x00000000#32, 0xFFFFFFFF#32, 0x00000000#32⟩,
  ⟨0x2CD1, 4, 256, 1, 1, 0x00000000#32, 0x00000000#32, 0x00000000#32, 0x00000000#32, 0xFFFFFFFF#32, 0x00000000#32⟩,
  ⟨0x2CD2, 4, 256, 1, 1, 0x00000000#32, 0x00000000#32, 0x00000000#32, 0x00000000#32, 0xFFFFFFFF#32, 0x00000000#32⟩,
  ⟨0x2CD3, 4, 256, 1, 1, 0x00000000#32, 0x00000000#32, 0x00000000#32, 0x00000000#32, 0xFFFFFFFF#32, 0x00000000#32⟩,
  ⟨0x2CD4, 4, 256, 1, 1, 0x00000000#32, 0x00000000#32, 0x00000000#32, 0x00000000#32, 0xFFFFFFFF#32, 0x00000000#32⟩,
  ⟨0x2CD5, 4, 256, 1, 1, 0x00000000#32, 0x00000000#32, 0x00000000#32, 0x00000000#32, 0xFFFFFFFF#32, 0x00000000#32⟩,
  ⟨0x2CD6, 4, 256, 1, 1, 0x00000000#32, 0x00000000#32, 0x00000000#32, 0x00000000#32, 0xFFFFFFFF#32, 0x00000000#32⟩,
  ⟨0x2CD7, 4, 256, 1, 1, 0x00000000#32, 0x00000000#32, 0x00000000#32, 0x00000000#32, 0xFFFFFFFF#32, 0x00000000#32⟩,
  ⟨0x2CD8, 4, 256, 1, 1, 0x00000000#32, 0x00000000#32, 0x00000000#32, 0x00000000#32, 0xFFFFFFFF#32, 0x00000000#32⟩,
  ⟨0x2CD9, 4, 256, 1, 1, 0x00000000#32, 0x00000000#32, 0x00000000#32, 0x00000000#32, 0xFFFFFFFF#32, 0x00000000#32⟩,
  ⟨0x2CE0, 4, 256, 1, 1, 0x00000000#32, 0x00000000#32, 0x0000007F#32, 0x00000000#32, 0x00000000#32, 0x00000000#32⟩,
  ⟨0x2CE1, 4, 256, 1, 1, 0x00000000#32, 0x0000007F#32, 0x00000000#32, 0x00000000#32, 0x00000000#32, 0x00000000#32⟩]

/-- Rows of page 0x2F. -/
def regPage2F : List RegRow := [
  ⟨0x2C00, 4, 256, 1, 1, 0x00000F00#32, 0x00001FD7#32, 0x00000000#32, 0x00000000#32, 0x00000000#32, 0x00000020#32⟩,
  ⟨0x2C01, 4, 256, 1, 1, 0x00000000#32, 0x00000000#32, 0x00000000#32, 0x00000000#32, 0x00000000#32, 0x00000000#32⟩,
  ⟨0x2C02, 4, 256, 1, 1, 0x0A451404#32, 0x7FFFFFFF#32, 0x00000000#32, 0x00000000#32, 0x00000000#32, 0x00000000#32⟩,
  ⟨0x2C03, 4, 256, 1, 1, 0x081F0801#32, 0x8F1F0F1F#32, 0x00000000#32, 0x00000000#32, 0x00000000#32, 0x00000000#32⟩,
  ⟨0x2C04, 4, 256, 1, 1, 0x00000000#32, 0x0000007F#32, 0x00000000#32, 0x00000000#32, 0x00000000#32, 0x00000000#32⟩,
  ⟨0x2C05, 4, 256, 1, 1, 0x00000000#32, 0x01FF01FF#32, 0x00000000#32, 0x00000000#32, 0x00000000#32, 0x00000000#32⟩,
  ⟨0x2C06, 4, 256, 1, 1, 0x00000000#32, 0x0000337F#32, 0x00000000#32, 0x00000000#32, 0x00000000#32, 0x00000000#32⟩,
  ⟨0x2C07, 4, 256, 1, 1, 0x00000000#32, 0x0000FFFF#32, 0x00000000#32, 0x00000000#32, 0x00000000#32, 0x00000000#32⟩,
  ⟨0x2C08, 4, 256, 1, 1, 0x000001F4#32, 0xFFFFFFFF#32, 0x00000000#32, 0x00000000#32, 0x00000000#32, 0x00000000#32⟩,
  ⟨0x2C09, 4, 256, 1, 1, 0x00000000#32, 0x0000000F#32, 0x00000000#32, 0x00000000#32, 0x00000000#32, 0x00000000#32⟩,
  ⟨0x2C10, 4, 256, 4, 1, 0x00000000#32, 0x000B03FF#32, 0x00000000#32, 0x00000000#32, 0x00000000#32, 0x00000000#32⟩,
  ⟨0x2C14, 4, 256, 4, 1, 0x00000000#32, 0x00000000#32, 0x00000000#32, 0x00000000#32, 0xFFFF0000#32, 0x00000000#32⟩,
  ⟨0x2C20, 4, 256, 32, 1, 0x00000000#32, 0xFFFFFFFF#32, 0x00000000#32, 0x00000000#32, 0x00000000#32, 0x00000000#32⟩,
  ⟨0x2C40, 4, 256, 32, 1, 0x1FFFFFFF#32, 0x1FFFFFFF#32, 0x00000000#32, 0x00000000#32, 0x00000000#32, 0x00000000#32⟩,
  ⟨0x2C60, 4, 256, 32, 1, 0x00000000#32, 0x0000000F#32, 0x00000000#32, 0x00000000#32, 0x00000000#32, 0x00000000#32⟩,
  ⟨0x2C80, 4, 256, 64, 1, 0x00000000#32, 0x00000000#32, 0x00000000#32, 0x00000000#32, 0x00000000#32, 0x00000000#32⟩,
  ⟨0x2CC0, 4, 256, 1, 1, 0x00000000#32, 0x0000003F#32, 0x00000000#32, 0x00000000#32, 0x00000000#32, 0x00000000#32⟩,
  ⟨0x2CC1, 4, 256, 1, 1, 0x00000000#32, 0x00000000#32, 0x00000000#32, 0x00000000#32, 0x00000000#32, 0x00000000#32⟩,
  ⟨0x2CC2, 4, 256, 1, 1, 0x00000000#32, 0x00000000#32, 0x00000000#32, 0x00000000#32, 0x00000000#32, 0x00000000#32⟩,
  ⟨0x2CD0, 4, 256, 1, 1, 0x00000000#32, 0x00000000#32, 0x00000000#32, 0x00000000#32, 0xFFFFFFFF#32, 0x00000000#32⟩,
  ⟨0x2CD1, 4, 256, 1, 1, 0x00000000#32, 0x00000000#32, 0x00000000#32, 0x00000000#32, 0xFFFFFFFF#32, 0x00000000#32⟩,
  ⟨0x2CD2, 4, 256, 1, 1, 0x00000000#32, 0x00000000#32, 0x00000000#32, 0x00000000#32, 0xFFFFFFFF#32, 0x00000000#32⟩,
  ⟨0x2CD3, 4, 256, 1, 1, 0x00000000#32, 0x00000000#32, 0x00000000#32, 0x00000000#32, 0xFFFFFFFF#32, 0x00000000#32⟩,
  ⟨0x2CD4, 4, 256, 1, 1, 0x00000000#32, 0x00000000#32, 0x00000000#32, 0x00000000#32, 0xFFFFFFFF#32, 0x00000000#32⟩,
  ⟨0x2CD5, 4, 256, 1, 1, 0x00000000#32, 0x00000000#32, 0x00000000#32, 0x00000000#32, 0xFFFFFFFF#32, 0x00000000#32⟩,
  ⟨0x2CD6, 4, 256, 1, 1, 0x00000000#32, 0x00000000#32, 0x00000000#32, 0x00000000#32, 0xFFFFFFFF#32, 0x00000000#32⟩,
  ⟨0x2CD7, 4, 256, 1, 1, 0x00000000#32, 0x00000000#32, 0x00000000#32, 0x00000000#32, 0xFFFFFFFF#32, 0x00000000#32⟩,
  ⟨0x2CD8, 4, 256, 1, 1, 0x00000000#32, 0x00000000#32, 0x00000000#32, 0x00000000#32, 0xFFFFFFFF#32, 0x00000000#32⟩,
  ⟨0x2CD9, 4, 256, 1, 1, 0x00000000#32, 0x00000000#32, 0x00000000#32, 0x00000000#32, 0xFFFFFFFF#32, 0x00000000#32⟩,
  ⟨0x2CE0, 4, 256, 1, 1, 0x00000000#32, 0x00000000#32, 0x0000007F#32, 0x00000000#32, 0x00000000#32, 0x00000000#32⟩,
  ⟨0x2CE1, 4, 256, 1, 1, 0x00000000#32, 0x0000007F#32, 0x00000000#32, 0x00000000#32, 0x00000000#32, 0x00000000#32⟩]

/-- The rows of a page (R472). -/
def regPage (p : Nat) : List RegRow :=
  match p with
  | 0x00 => regPage00
  | 0x01 => regPage01
  | 0x02 => regPage02
  | 0x03 => regPage03
  | 0x04 => regPage04
  | 0x08 => regPage08
  | 0x09 => regPage09
  | 0x0A => regPage0A
  | 0x0B => regPage0B
  | 0x0C => regPage0C
  | 0x0D => regPage0D
  | 0x0E => regPage0E
  | 0x0F => regPage0F
  | 0x10 => regPage10
  | 0x11 => regPage11
  | 0x12 => regPage12
  | 0x14 => regPage14
  | 0x15 => regPage15
  | 0x18 => regPage18
  | 0x19 => regPage19
  | 0x1A => regPage1A
  | 0x1B => regPage1B
  | 0x1C => regPage1C
  | 0x1D => regPage1D
  | 0x1F => regPage1F
  | 0x20 => regPage20
  | 0x21 => regPage21
  | 0x24 => regPage24
  | 0x25 => regPage25
  | 0x26 => regPage26
  | 0x28 => regPage28
  | 0x29 => regPage29
  | 0x2A => regPage2A
  | 0x2C => regPage2C
  | 0x2D => regPage2D
  | 0x2E => regPage2E
  | 0x2F => regPage2F
  | _ => []

end Sys2Proof.Machine
end

