-- ==== Sys2Proof/Machine/Sparse.lean ====
section
/-!
DEFINITION. Sys2Proof/Machine/Sparse.lean: reading and writing a sparse table. The table's default is a function of the
index; a write of the default removes the entry, so that equal tables are equal lists (the canonical form `sparseWf`).
-/
namespace Sys2Proof.Machine

/-- The value at index `i`: the listed one, else the default. -/
def sparseGet {α : Type} (d : Nat → α) : Sparse α → Nat → α
  | [], i => d i
  | (k, v) :: r, i => if i = k then v else sparseGet d r i

/-- Insert or replace the entry of index `i`, keeping the order. -/
def sparsePut {α : Type} : Sparse α → Nat → α → Sparse α
  | [], i, v => [(i, v)]
  | (k, w) :: r, i, v =>
    if i = k then (i, v) :: r else if i < k then (i, v) :: (k, w) :: r else (k, w) :: sparsePut r i v

/-- Remove what is listed for index `i`. -/
def sparseDel {α : Type} : Sparse α → Nat → Sparse α
  | [], _ => []
  | (k, w) :: r, i => if i = k then sparseDel r i else (k, w) :: sparseDel r i

/-- Write `v` at index `i`: the default is not listed. -/
def sparseSet {α : Type} [DecidableEq α] (d : Nat → α) (m : Sparse α) (i : Nat) (v : α) : Sparse α :=
  if v = d i then sparseDel m i else sparsePut m i v

/-- Change the value at index `i`. -/
def sparseMod {α : Type} [DecidableEq α] (d : Nat → α) (m : Sparse α) (i : Nat) (f : α → α) : Sparse α :=
  sparseSet d m i (f (sparseGet d m i))

/-- Drop every entry whose index satisfies `p`: those indices read the default again. -/
def sparseDrop {α : Type} (p : Nat → Bool) (m : Sparse α) : Sparse α := m.filter (fun e => !p e.1)

/-- The indices that are listed. -/
def sparseKeys {α : Type} (m : Sparse α) : List Nat := m.map (·.1)

/-- Indices strictly rise. -/
def sparseSorted {α : Type} : Sparse α → Bool
  | [] => true
  | [_] => true
  | (k, _) :: (l, w) :: r => decide (k < l) && sparseSorted ((l, w) :: r)

/-- The canonical form: indices strictly rise and no listed value is the default. -/
def sparseWf {α : Type} [DecidableEq α] (d : Nat → α) (m : Sparse α) : Bool :=
  sparseSorted m && m.all (fun e => decide (e.2 ≠ d e.1))

end Sys2Proof.Machine
end

