-- ==== Sys2Proof/Machine/Regs.lean ====
section
/-!
DEFINITION. Sys2Proof/Machine/Regs.lean: the register store. A register is held once, in a sparse table from its index to
its 32 bits; an index that is not listed holds the reset value of chapter 19 (R473). A field is read and written here.
-/
namespace Sys2Proof.Machine

/-- Index `i` is an instance of the row (R472). -/
def rowHas (r : RegRow) (i : Nat) : Bool :=
  decide (r.base ≤ i) &&
    (List.range r.n2).any fun k =>
      decide (r.base + r.s2 * k ≤ i) &&
        (decide ((i - (r.base + r.s2 * k)) % r.s1 = 0) && decide ((i - (r.base + r.s2 * k)) / r.s1 < r.n1))

/-- The row of chapter 19 that an index belongs to; none for a reserved index (R9, R472). -/
def regRow (i : Nat) : Option RegRow := (regPage (i / 256)).find? (rowHas · i)

/-- The index is assigned (R472). -/
def regAssigned (i : Nat) : Bool := (regRow i).isSome

/-- The whole-register reset value (R473); a reserved index reads 0 (R9). -/
def regReset (i : Nat) : Word := match regRow i with
  | some r => r.reset
  | none => 0

/-- The mask of bits `hi` down to `lo`. -/
def bitMask (hi lo : Nat) : Word := BitVec.ofNat 32 ((2 ^ (hi - lo + 1) - 1) * 2 ^ lo)

/-- Bits `hi` down to `lo` of a word, as a number. -/
def bitsOf (w : Word) (hi lo : Nat) : Nat := w.toNat / 2 ^ lo % 2 ^ (hi - lo + 1)

/-- The word with bits `hi` down to `lo` replaced by the low bits of `v`. -/
def bitsSet (w : Word) (hi lo : Nat) (v : Nat) : Word :=
  (w &&& ~~~ (bitMask hi lo)) ||| BitVec.ofNat 32 (v % 2 ^ (hi - lo + 1) * 2 ^ lo)

/-- A two's-complement number of `n` bits (R6). -/
def signed (n : Nat) (v : Nat) : Int := if v % 2 ^ n < 2 ^ (n - 1) then (v % 2 ^ n : Nat) else ((v % 2 ^ n : Nat) : Int) - 2 ^ n

/-- The low `n` bits of an integer, in two's complement (R6). -/
def unsigned (n : Nat) (v : Int) : Nat := (v % (2 ^ n : Int)).toNat

/-- Hold an integer between two bounds. -/
def clampI (lo hi v : Int) : Int := if v < lo then lo else if hi < v then hi else v

/-- Hold a natural number between two bounds. -/
def clampN (lo hi v : Nat) : Nat := if v < lo then lo else if hi < v then hi else v

/-- Integer division rounded to the nearest, halves away from zero (the divisor is positive). -/
def roundDiv (a : Int) (b : Nat) : Int :=
  if 0 ≤ a then (2 * a + b) / (2 * b) else -((2 * (-a) + b) / (2 * b))

/-- What the rules of a block say of a register write: accepted, or refused for want of a lease on another resource, as a wrong
state, or as an invalid value. -/
inductive Verdict where
  | ok
  | lease
  | wrong
  | invalid
  deriving DecidableEq, Repr

/-- Accept, or refuse as invalid. -/
def valid (b : Bool) : Verdict := if b then .ok else .invalid

/-- Refuse as a wrong state unless the condition holds; a lease or an invalid value is named before a wrong state (R390). -/
def inState (b : Bool) (v : Verdict) : Verdict := match v with
  | .lease => .lease
  | .invalid => .invalid
  | .wrong => .wrong
  | .ok => if b then .ok else .wrong

/-- A number lies between two bounds. -/
def inRange (lo hi v : Nat) : Bool := decide (lo ≤ v ∧ v ≤ hi)

/-- Two words differ in bits `hi` down to `lo`. -/
def bitsDiffer (a b : Word) (hi lo : Nat) : Bool := decide (bitsOf a hi lo ≠ bitsOf b hi lo)

end Sys2Proof.Machine
end

