-- ==== Sys2Proof/Machine/Angle.lean ====
section
/-!
DEFINITION. Sys2Proof/Machine/Angle.lean: sine and cosine of 32-bit binary angles to 24 fractional bits (R52), and the
conversion of turns to radians.
-/
namespace Sys2Proof.Machine

/-- 2π in 2^−48. -/
def twoPiQ48 : Int := 1768559438007110

/-- The angle's remainder about the nearest quarter turn, in radians, 2^−48. -/
def quarterRem (θ : Nat) : Int :=
  (signed 30 ((θ + 2 ^ 29) % 2 ^ 30 + 2 ^ 29) : Int) * twoPiQ48 / 2 ^ 32

/-- The nearest quarter turn, 0 to 3. -/
def quarterOf (θ : Nat) : Nat := (θ % 2 ^ 32 + 2 ^ 29) / 2 ^ 30 % 4

/-- One term of a power series: the term times x²/d. -/
def nextTerm (t x2 : Int) (d : Int) : Int := t * x2 / 2 ^ 48 / d

/-- Sine of a small angle in radians, 2^−48, by its power series. -/
def sinSmall (x : Int) : Int :=
  let x2 := x * x / 2 ^ 48
  let t3 := nextTerm x x2 6
  let t5 := nextTerm t3 x2 20
  let t7 := nextTerm t5 x2 42
  let t9 := nextTerm t7 x2 72
  let t11 := nextTerm t9 x2 110
  x - t3 + t5 - t7 + t9 - t11

/-- Cosine of a small angle in radians, 2^−48, by its power series. -/
def cosSmall (x : Int) : Int :=
  let x2 := x * x / 2 ^ 48
  let t2 := nextTerm (2 ^ 48) x2 2
  let t4 := nextTerm t2 x2 12
  let t6 := nextTerm t4 x2 30
  let t8 := nextTerm t6 x2 56
  let t10 := nextTerm t8 x2 90
  let t12 := nextTerm t10 x2 132
  2 ^ 48 - t2 + t4 - t6 + t8 - t10 + t12

/-- The sine, 2^−48. -/
def sinFull (θ : Nat) : Int :=
  let x := quarterRem θ
  match quarterOf θ with
  | 0 => sinSmall x
  | 1 => cosSmall x
  | 2 => -(sinSmall x)
  | _ => -(cosSmall x)

/-- The sine to 24 fractional bits, to the nearest. -/
def sinNear (θ : Nat) : Int := roundDiv (sinFull θ) (2 ^ 24)

/-- Sine of the CORDIC unit to 24 fractional bits: one of the two neighbours of the exact value, which one is free (log
entry 7). R52 allows an error of 2^−22; the 0.1 mm in 1,000 m of R53 leave no more than this. -/
def sinQ24 (θ : Nat) : Int :=
  let x := sinFull θ
  let lo := x.fdiv (2 ^ 24)
  if x = lo * 2 ^ 24 then lo else if Config.cordicSinUp (θ % 2 ^ 32) then lo + 1 else lo

/-- Cosine of the CORDIC unit: the sine a quarter turn on (R52). -/
def cosQ24 (θ : Nat) : Int := sinQ24 (θ + 2 ^ 30)

/-- A value in a signed register format of `w` bits (R52). The spec does not say what a value outside the format becomes:
there the result is free within the format (log entry 7). -/
def fit (w : Nat) (x : Int) : Int :=
  if -(2 ^ (w - 1)) ≤ x ∧ x < 2 ^ (w - 1) then x else signed w (unsigned w (Config.outOfFormat w x))

/-- A length (in any unit) times a yaw rate (2^−32 turn/s): the speed in that unit per second, before rounding times 2^80. -/
def yawTimes (r len : Int) : Int := r * len * twoPiQ48

end Sys2Proof.Machine
end

