-- ==== Sys2Proof/Machine/State.lean ====
section
/-!
DEFINITION. Sys2Proof/Machine/State.lean: the whole state of the QLM7340, as plain data, and its reset value.
-/
namespace Sys2Proof.Machine

/-- Why a command can stop the block. -/
inductive Fault where
  /-- The operands name no instance of the part (a channel 32, a slot 4), or an instant outside the step that runs: no such
  command can reach the device. Raised by every meaning through `answer`. Safe: the model stops where there is nothing that the
  hardware could do. -/
  | noInstance
  deriving DecidableEq, Repr

/-- Why a command can be without a meaning. -/
inductive Refusal where
  /-- A row of the command table that the model gives no meaning: raised by no arm of this model. Safe. -/
  | notModelled (mnemonic : String)
  deriving DecidableEq, Repr

/-- Everything the spec gives the device. A register that is only stored and read is in `regs`; what the blocks keep beside
their registers is in one record per block. -/
structure State where
  /-- Registers of the indexes 0x0000 to 0xFFFF (chapter 19), those that differ from their reset value (log entry 1). -/
  regs : Sparse Word
  /-- Entries of the tables of TABLE_READ and TABLE_WRITE (R407, R473) that differ from zero bytes: key: the base of the table plus the entry (tableBase). -/
  tables : Sparse (List Byte)
  /-- Position and motion (chapter 2). -/
  kin : KinState
  /-- Supervision, enable pins, phase of the firmware, resets in force (chapters 1, 17, 18). -/
  sys : SysState
  /-- Images, banks and the choice of the loader (chapter 18). -/
  boot : BootState
  /-- Health monitoring (chapter 16). -/
  mon : MonState
  /-- Host slots, their rings, leases and windows (chapter 14). -/
  hif : HifState
  /-- The event recorder (chapter 15). -/
  recd : RecState
  /-- The event slots of the scheduler (chapter 3). -/
  sch : SchState
  /-- The map memory and its passes (chapter 4). -/
  map : MapState
  /-- Timing of the actuators (chapter 5). -/
  act : ActState
  /-- Output stages (chapter 6). -/
  drv : DrvState
  /-- The two rings (chapter 7). -/
  fjl : FjlState
  /-- PWM groups (chapter 9), by group. -/
  pwm : Sparse PwmGrp
  /-- The loop engine (chapter 8). -/
  cle : CleState
  /-- Shaft, wheel, flow and analogue inputs and the IMU (chapter 10). -/
  enc : EncState
  /-- The GNSS receiver (chapter 11). -/
  gns : GnsState
  /-- Time bases and pulse outputs (chapter 12). -/
  tim : TimState
  /-- The network switch, its PTP instances and the relay (chapter 12). -/
  eth : EthState
  /-- The CAN controllers (chapter 13). -/
  can : CanState
  /-- The last step boundary that has passed, in kinematic steps of 250 µs since the data path left reset: SYS_STEP_CNT is its low 32 bits (R19). -/
  now : Nat
  /-- The MODEL's own: how many free values have been taken (log entry 2). -/
  free : Nat
  /-- Commands that wait, first in, first out. -/
  pending : List Sys2Proof.Instr
  deriving DecidableEq, Repr

/-- The device at the release of its power-on reset, before POWER_UP: each register at its reset value (`regs` lists none), nothing
stored, no command waiting (log entry 9). -/
def State.reset : State :=
  { regs := [], tables := [], kin := KinState.reset, sys := SysState.reset, boot := BootState.reset, mon := MonState.reset, hif := HifState.reset,
    recd := RecState.reset, sch := SchState.reset, map := MapState.reset, act := ActState.reset,
    drv := DrvState.reset, fjl := FjlState.reset, pwm := [], cle := CleState.reset, enc := EncState.reset,
    gns := GnsState.reset, tim := TimState.reset, eth := EthState.reset, can := CanState.reset, now := 0, free := 0, pending := [] }

end Sys2Proof.Machine
end

