-- ==== Sys2Proof/Machine/Ops.lean ====
section
/-!
DEFINITION. Sys2Proof/Machine/Ops.lean: the named operations that every family uses: registers and fields, counters,
the step stamp, event records (chapter 15), results and notifications (chapter 14), IRQ flags, leases.
-/
namespace Sys2Proof.Machine

/-- The outcome of a meaning: the next state where the command names instances the part has, else the fault. -/
def answer (ok : Bool) (s : State) : Host.Outcome State Fault Refusal := if ok then .next s else .fault .noInstance

/-! ### Registers and fields -/

/-- A register's 32 bits. -/
def rd (s : State) (i : Nat) : Word := sparseGet regReset s.regs i

/-- Write a register's 32 bits. -/
def wr (s : State) (i : Nat) (v : Word) : State := { s with regs := sparseSet regReset s.regs i v }

/-- A field's value. -/
def getF (s : State) (f : Field) : Nat := bitsOf (rd s f.reg) f.hi f.lo

/-- A field as a flag. -/
def flag (s : State) (f : Field) : Bool := decide (getF s f ≠ 0)

/-- A signed field's value (R6). -/
def getI (s : State) (f : Field) : Int := signed f.width (getF s f)

/-- Write a field; the other bits of its register keep their values. -/
def setF (s : State) (f : Field) (v : Nat) : State := wr s f.reg (bitsSet (rd s f.reg) f.hi f.lo v)

/-- Write a flag. -/
def setB (s : State) (f : Field) (b : Bool) : State := setF s f (if b then 1 else 0)

/-- Write a signed field (R6). -/
def setI (s : State) (f : Field) (v : Int) : State := setF s f (unsigned f.width v)

/-- Add to a counter field, which stops at its largest value. -/
def bump (s : State) (f : Field) (n : Nat := 1) : State := setF s f (min (getF s f + n) (2 ^ f.width - 1))

/-- The word that a write of `v` under a mask presents to a register that holds `old` (R7, R406): RW bits merged, W1C, W1S and
WO bits as written, the others as they stand. -/
def presented (r : RegRow) (old mask v : Word) : Word :=
  let act := r.w1c ||| r.w1s ||| r.wo
  (old &&& ~~~ act &&& ~~~ (mask &&& r.rw)) ||| (v &&& mask &&& (r.rw ||| act))

/-- Take a presented word: RW and WO bits are stored, a 1 in a W1C bit clears it, a 1 in a W1S bit sets it (R7). -/
def commitReg (s : State) (i : Nat) (v : Word) : State := match regRow i with
  | none => s
  | some r =>
    let set := r.rw ||| r.wo
    wr s i ((((rd s i) &&& ~~~ set) ||| (v &&& set) ||| (v &&& r.w1s)) &&& ~~~ (v &&& r.w1c))

/-- Return every register whose index satisfies `p` to its reset value. -/
def resetRegs (s : State) (p : Nat → Bool) : State := { s with regs := sparseDrop p s.regs }

/-- A 64-bit value held in a LO and HI register pair. -/
def rdPair (s : State) (lo hi : Nat) : Nat := (rd s lo).toNat + 2 ^ 32 * (rd s hi).toNat

/-- Write a 64-bit value to a LO and HI register pair. -/
def wrPair (s : State) (lo hi : Nat) (v : Nat) : State :=
  wr (wr s lo (BitVec.ofNat 32 v)) hi (BitVec.ofNat 32 (v / 2 ^ 32))

/-! ### The step stamp -/

/-- SYS_STEP_CNT: the number of step boundaries since reset, modulo 2^32 (R18). -/
def stepCnt (s : State) : Word := BitVec.ofNat 32 s.now

/-- The boundary from which an effect taken now is in force (R41): the next one. -/
def nextStep (s : State) : Word := BitVec.ofNat 32 (s.now + 1)

/-- The step that an event of now is stamped with: a mailbox command acts at the coming boundary. -/
def eventStep (s : State) : Word := if s.sys.atBoundary then nextStep s else stepCnt s

/-- Steps from stamp `a` to stamp `b` (R18). -/
def stepsFrom (a b : Word) : Nat := (b - a).toNat

/-! ### Event records -/

/-- Number of places in the staging FIFO (R415). -/
def stagingSize : Nat := 64

/-- The stamps and flags of an event that occurs now (R412, R413). -/
def stampEvent (s : State) (code inst : Nat) (val : List Byte) : RecEntry :=
  { code := code, hold := decide (s.sys.phase = .held), frz := s.recd.freeze.isSome, opsec := rd s REC_OPSEC,
    pcyc := getF s REC_PCYC_VAL, frac := min 255 (s.recd.fracSteps * 256 / 4000), step := eventStep s, inst := inst,
    val := val }

/-- The write engine takes the oldest staged entry, unless it is busy or nothing may be written (R414 to R417, R422).
At index 16,383 the entry is discarded and LOG_FULL takes its place (R416). -/
def recTake (s : State) : State :=
  match s.recd.writing, s.recd.staging with
  | none, e :: r =>
    if s.recd.freeze.isSome || s.recd.clearing.isSome || s.recd.searching || s.recd.full then s
    else if s.recd.next = 16383 then
      let s := bump s REC_CNT_FULL_CNT
      { s with recd := { s.recd with staging := r, writing := some (stampEvent s 0x0002 0xFFFF [], s.recd.lost), lost := 0 } }
    else { s with recd := { s.recd with staging := r, writing := some (e, s.recd.lost), lost := 0 } }
  | _, _ => s

/-- An event occurs: it enters staging, or is dropped and counted (R415, R416). -/
def record (s : State) (code inst : Nat) (val : List Byte) : State :=
  if s.recd.full then bump s REC_CNT_FULL_CNT
  else if s.recd.staging.length < stagingSize then
    recTake { s with recd := { s.recd with staging := s.recd.staging ++ [stampEvent s code inst val] } }
  else bump { s with recd := { s.recd with lost := s.recd.lost + 1 } } REC_CNT_LOST_CNT

/-- The instance code of a record that names none (R412). -/
def noInst : Nat := 0xFFFF

/-! ### Host slots, results and notifications -/

def slotOf (s : State) (h : Nat) : HostSlot := sparseGet (fun _ => HostSlot.reset) s.hif.slots h

def modSlot (s : State) (h : Nat) (f : HostSlot → HostSlot) : State :=
  { s with hif := { s.hif with slots := sparseMod (fun _ => HostSlot.reset) s.hif.slots h f } }

/-- Slot `h` is attached (R381). -/
def attached (s : State) (h : Nat) : Bool := flag s (HIF_H_STAT_ATT h)

/-- Role of slot `h`: 0 OWNER, 1 OPERATOR, 2 OBSERVER, 3 SERVICE (R395). -/
def roleOf (s : State) (h : Nat) : Nat := getF s (HIF_H_STAT_ROLE h)

/-- Port of slot `h`: 0 SPI, 1 UDP, 2 CAN_B, 3 ISOBUS (R381). -/
def portOf (s : State) (h : Nat) : Nat := getF s (HIF_H_CFG_PORT h)

/-- Bytes of a frame or result in a ring: a 12-byte header and the payload, padded to a multiple of 4 (R387, R388). -/
def frameSize (payload : Nat) : Nat := 12 + (payload + 3) / 4 * 4

/-- Bytes of each ring (chapter 14: 4 KiB). -/
def ringBytes : Nat := 4096

/-- Bytes of the response ring in use: posted results, and the room kept for commands in progress (R393). -/
def rspUsed (h : HostSlot) : Nat :=
  (h.unrel.map fun r => frameSize r.payload.length).sum + (h.deferred.map fun d => frameSize d.body.length).sum

/-- Bytes of the request ring in use: a frame that was rejected on arrival takes none. -/
def reqUsed (h : HostSlot) : Nat := (h.ring.map fun f => if f.reject = 0 then frameSize f.payload.length else 0).sum

/-- Release the oldest result (R392). -/
def dropOldest (h : HostSlot) : HostSlot :=
  match h.unrel with
  | [] => h
  | r :: rest => { h with unrel := rest, last := some r }

/-- Unreleased results beyond which no command starts (R393). -/
def maxUnreleased : Nat := 128

/-- On UDP and CAN_B, where every result is sent when it is posted, release the oldest results until `need` bytes and one
result fit (R392); `n` bounds the results looked at. -/
def makeRoom : Nat → Nat → HostSlot → HostSlot
  | 0, _, h => h
  | n + 1, need, h => if rspUsed h + need ≤ ringBytes ∧ h.unrel.length < maxUnreleased then h else makeRoom n need (dropOldest h)

/-- Make room for a posting of `need` bytes where the slot's port allows it (R392). -/
def roomFor (s : State) (h need : Nat) : State :=
  if portOf s h = 1 || portOf s h = 2 then modSlot s h fun hs => makeRoom hs.unrel.length need hs else s

/-- A result as it is sent: padded to a multiple of 4 bytes (R388). -/
def resultBytes (r : Result) (ready : Bool) : List Byte :=
  leBytes 2 r.payload.length ++ leBytes 1 r.code ++ leBytes 1 r.status ++ leBytes 1 r.rseq ++ leBytes 1 (bit ready 0) ++ leBytes 2 r.htag
    ++ leBytes 4 r.step.toNat ++ r.payload ++ List.replicate ((4 - r.payload.length % 4) % 4) 0#8

/-- The shortest CAN FD frame that holds `n` bytes. -/
def fdLength (n : Nat) : Nat := if n ≤ 8 then n else ([12, 16, 20, 24, 32, 48, 64].find? fun m => decide (n ≤ m)).getD 64

/-- The segments of a message on CAN_B, from SEG `k` on (R385); `fuel` bounds them. -/
def canbSegments : Nat → Nat → List Byte → List (List Byte)
  | 0, _, _ => []
  | fuel + 1, k, b =>
    if b.length ≤ 63 then [leBytes 1 (k % 128 + 128) ++ b ++ List.replicate (fdLength (b.length + 1) - (b.length + 1)) 0#8]
    else (leBytes 1 (k % 128) ++ b.take 63) :: canbSegments fuel (k + 1) (b.drop 63)

/-- Results packed into datagrams of up to 1,472 bytes, in order (R384). -/
def datagrams : List Byte → List (List Byte) → List (List Byte)
  | cur, [] => if cur.isEmpty then [] else [cur]
  | cur, b :: l => if cur.length + b.length ≤ 1472 then datagrams (cur ++ b) l else cur :: datagrams b l

/-- The transport units in which a port sends results by itself: 1 UDP, 2 CAN_B (R384, R385). -/
def transportUnits (port : Nat) (l : List Result) : List (List Byte) :=
  let b := l.map fun r => resultBytes r true
  if port = 2 then b.flatMap fun x => canbSegments (x.length + 1) 0 x else datagrams [] b

/-- Results of slot `h`, or of none (255), are sent on a port that sends by itself (R384, R385). -/
def sendResults (s : State) (h port : Nat) (l : List Result) : State :=
  { s with hif := { s.hif with sent := s.hif.sent ++ l.map fun r => (h, r), units := (transportUnits port l).map fun u => (h, u) } }

/-- Append a frame to a slot's response ring with the next RSEQ, and send it where the port sends by itself
(R384, R385, R388, R391). -/
def postFrame (s : State) (h code status htag : Nat) (step : Word) (payload : List Byte) : State :=
  let s := roomFor s h (frameSize payload.length)
  let q := ((slotOf s h).rseq + 1) % 256
  let r : Result := { code := code, status := status, rseq := q, htag := htag, step := step, payload := payload }
  let s := modSlot s h fun hs => { hs with unrel := hs.unrel ++ [r], rseq := q }
  if portOf s h = 1 || portOf s h = 2 then sendResults s h (portOf s h) [r] else s

/-- Post a result; a status other than OK is counted (R411). -/
def postResult (s : State) (h code status htag : Nat) (step : Word) (body : List Byte) : State :=
  postFrame (if status = 0 then s else bump s (HIF_H_CNT_REJ_CNT h)) h code status htag step body

/-- Two commands have a target in common (R40). -/
def shareBlock (a b : List Nat) : Bool := a.any b.contains

/-- The first response that may be posted: it waits for nothing but its turn, and no earlier command to the same target is still
without its response (R40); and what remains. -/
def findDue : List Deferred → List Deferred → Option (Deferred × List Deferred)
  | _, [] => none
  | ahead, d :: l =>
    if d.wait = 7 ∧ !(ahead.any fun x => shareBlock x.blocks d.blocks) then some (d, ahead.reverse ++ l) else findDue (d :: ahead) l

/-- Post the responses of a slot that are due, in order (R40, R391); `n` bounds them. They name the step of now (R41, R388). -/
def postReady : Nat → State → Nat → State
  | 0, s, _ => s
  | n + 1, s, h =>
    match findDue [] (slotOf s h).deferred with
    | none => s
    | some (d, l) => postReady n (postResult (modSlot s h fun x => { x with deferred := l }) h d.code d.status d.htag (stepCnt s) d.body) h

/-- What a response waits for once an event of kind `w` has come. The end of a map clear and a measurement epoch come into force at
the next boundary (R146, R322). -/
def waitAfter (w : Nat) (d : Deferred) : Nat :=
  if d.wait = w then (if w ≤ 1 then 6 else 7) else if d.wait = 5 ∧ w ≤ 1 then 1 - w else d.wait

/-- An event that responses wait for has come: those that now wait for nothing are posted (R391). -/
def postDeferred (s : State) (w : Nat) : State :=
  [0, 1, 2, 3].foldl (fun s h =>
    let s := modSlot s h fun x => { x with deferred := x.deferred.map fun d => { d with wait := waitAfter w d } }
    postReady (slotOf s h).deferred.length s h) s

/-- There is room for a frame of this payload in the response ring, counting what R392 lets go. -/
def hasRoom (s : State) (h payload : Nat) : Bool :=
  decide (rspUsed (slotOf (roomFor s h (frameSize payload)) h) + frameSize payload ≤ ringBytes)

/-- Post the notifications that LEASE_LOST owes, oldest first, as long as room exists (R402). -/
def payOwed : Nat → State → Nat → State
  | 0, s, _ => s
  | n + 1, s, h =>
    match (slotOf s h).owed with
    | [] => s
    | p :: rest =>
      if hasRoom s h p.length then
        payOwed n (modSlot (postFrame s h 0xF0 0 0 (eventStep s) p) h fun hs => { hs with owed := rest }) h
      else s

/-- A notification that is dropped, and counted, where no room is (PPS and IRQ of R402). -/
def notify (s : State) (h : Nat) (payload : List Byte) : State :=
  if hasRoom s h payload.length then postFrame s h 0xF0 0 0 (eventStep s) payload
  else bump s (HIF_H_CNT_DROP_NOTE h)

/-- A LEASE_LOST notification: it waits for room (R402). -/
def notifyLost (s : State) (h : Nat) (payload : List Byte) : State :=
  let s := modSlot s h fun hs => { hs with owed := hs.owed ++ [payload] }
  payOwed (slotOf s h).owed.length s h

/-- The slot has an unreleased IRQ notification of the register (R402). -/
def irqOutstanding (s : State) (h irq : Nat) : Bool :=
  (slotOf s h).unrel.any fun r => decide (r.code = 0xF0 ∧ leAt r.payload 0 1 = 2 ∧ leAt r.payload 4 2 = irq)

/-- The four host slots, in ascending order. -/
def hostSlots : List Nat := [0, 1, 2, 3]

/-- A flag of a block's IRQ register, with its enable bit `en` and its NOTIFY_CFG bit `nb`, is set: going from 0 to 1
while enabled it is notified to every slot that enabled the block and holds no unreleased notification of it (R402). -/
def raiseIrq (s : State) (f en : Field) (nb : Nat) : State :=
  if flag s f then s
  else
    let s := setF s f 1
    if flag s en then
      hostSlots.foldl (fun s h =>
        if attached s h && (getF s (HIF_H_NOTE_MASK h)).testBit nb && !irqOutstanding s h f.reg then
          notify s h ([2#8, 0#8, 0#8, 0#8] ++ leBytes 2 f.reg ++ [0#8, 0#8] ++ leBytes 4 (rd s f.reg).toNat)
        else s) s
    else s

/-! ### Leases -/

/-- Kinds of resources, as LEASE codes them (R408). -/
def kImpl : Nat := 0
def kZone : Nat := 1
def kSec : Nat := 2
def kCh : Nat := 3
def kLoop : Nat := 4
def kPwm : Nat := 5

/-- The number of resources of a kind. -/
def kindSize : Nat → Nat
  | 0 => 1
  | 1 => 8
  | 2 => 64
  | 3 => 512
  | 4 => 16
  | 5 => 8
  | _ => 0

/-- One key for every resource: kind and number. -/
def resKey (kind n : Nat) : Nat := kind * 1024 + n

/-- The state word of an implement, zone, section or channel resource (R26). -/
def stateWord (kind n : Nat) : Nat :=
  match kind with
  | 0 => SYS_IMPL_STATE
  | 1 => SYS_ZON_STATE n
  | 2 => SYS_SEC_STATE n
  | _ => SCH_CH_STATE n

/-- The holder of a resource's lease, as the HOLDER and LEASED fields and the HIF_LS registers show it (R26, R398). -/
def holderOf (s : State) (kind n : Nat) : Option Nat :=
  if kind ≤ 3 then
    let w := rd s (stateWord kind n)
    if bitsOf w 31 31 = 1 then some (bitsOf w 30 29) else none
  else if kind = 4 then
    if (rd s HIF_LS_LOOPV).toNat.testBit n then some (bitsOf (rd s HIF_LS_LOOP) (2 * n + 1) (2 * n)) else none
  else
    if (getF s HIF_LS_PWM_V).testBit n then some (bitsOf (rd s HIF_LS_PWM) (2 * n + 1) (2 * n)) else none

/-- Record the holder of a resource's lease. -/
def setHolder (s : State) (kind n : Nat) (h : Option Nat) : State :=
  let v := h.getD 0
  let b := if h.isSome then 1 else 0
  if kind ≤ 3 then
    let i := stateWord kind n
    wr s i (bitsSet (bitsSet (rd s i) 31 31 b) 30 29 v)
  else if kind = 4 then
    let s := wr s HIF_LS_LOOPV (bitsSet (rd s HIF_LS_LOOPV) n n b)
    wr s HIF_LS_LOOP (bitsSet (rd s HIF_LS_LOOP) (2 * n + 1) (2 * n) v)
  else
    wr s HIF_LS_PWM (bitsSet (bitsSet (rd s HIF_LS_PWM) (16 + n) (16 + n) b) (2 * n + 1) (2 * n) v)

/-- Slot `h` holds the lease on the resource. -/
def holds (s : State) (h kind n : Nat) : Bool := decide (holderOf s kind n = some h)

/-! ### Free values -/

/-- A fresh index of free values: the counter is read and advanced. -/
def fresh (s : State) : Nat × State := (s.free, { s with free := s.free + 1 })

end Sys2Proof.Machine
end

