-- ==== Sys2Proof/Machine/Tables.lean ====
section
/-!
DEFINITION. Sys2Proof/Machine/Tables.lean: the writeable tables of chapter 19 (R474), held as bytes, entry by entry, and
the fields of their entries (R5, R6).
-/
namespace Sys2Proof.Machine

/-- The tables of R474 that hold stored entries. -/
inductive TableId where
  | geo | zon | sec | ply | rtt | dly | frc | ttm
  deriving DecidableEq, Repr

/-- The first key of a table in the store. -/
def tableBase : TableId → Nat
  | .geo => 0x00000
  | .zon => 0x01000
  | .sec => 0x02000
  | .rtt => 0x03000
  | .dly => 0x04000
  | .frc => 0x05000
  | .ttm => 0x07000
  | .ply => 0x10000

/-- Bytes of an entry (R407, R474). -/
def tableSize : TableId → Nat
  | .geo => 16
  | .zon => 16
  | .sec => 8
  | .rtt => 4
  | .dly => 32
  | .frc => 4
  | .ttm => 16
  | .ply => 8

/-- Entries of a table (R474). -/
def tableCount : TableId → Nat
  | .geo => 512
  | .zon => 8
  | .sec => 576
  | .rtt => 136
  | .dly => 512
  | .frc => 4096
  | .ttm => 1040
  | .ply => 16448

/-- The size of the entry with a key. -/
def keySize (k : Nat) : Nat :=
  if k < 0x02000 then 16 else if k < 0x03000 then 8 else if k < 0x04000 then 4 else if k < 0x05000 then 32
  else if k < 0x07000 then 4 else if k < 0x10000 then 16 else 8

/-- Every entry is zero after reset (R474). -/
def zeroEntry (k : Nat) : List Byte := List.replicate (keySize k) 0#8

/-- The first `n` bytes of a byte string that zeros follow. -/
def fitTo (n : Nat) (b : List Byte) : List Byte := b.take n ++ List.replicate (n - b.length) 0#8

/-- An entry's bytes: as many as the table gives its entries. -/
def tget (s : State) (t : TableId) (n : Nat) : List Byte := fitTo (tableSize t) (sparseGet zeroEntry s.tables (tableBase t + n))

/-- Write an entry's bytes. -/
def tput (s : State) (t : TableId) (n : Nat) (b : List Byte) : State :=
  { s with tables := sparseSet zeroEntry s.tables (tableBase t + n) b }

/-- An unsigned field of an entry. -/
def tnat (s : State) (t : TableId) (n off len : Nat) : Nat := leAt (tget s t n) off len

/-- A signed field of an entry. -/
def tint (s : State) (t : TableId) (n off len : Nat) : Int := signed (8 * len) (leAt (tget s t n) off len)

/-- Replace bytes of a byte string. -/
def putBytes (b : List Byte) (off : Nat) (v : List Byte) : List Byte := b.take off ++ v ++ b.drop (off + v.length)

/-- Write an unsigned field of an entry. -/
def tsetNat (s : State) (t : TableId) (n off len v : Nat) : State :=
  tput s t n (putBytes (tget s t n) off (leBytes len v))

/-- The entries of a table that are listed, by number. -/
def tkeys (s : State) (t : TableId) : List Nat :=
  (sparseKeys s.tables).filterMap fun k =>
    if tableBase t ≤ k ∧ k < tableBase t + tableCount t then some (k - tableBase t) else none

/-- Return a table's entries to zero. -/
def tclear (s : State) (t : TableId) : State :=
  { s with tables := sparseDrop (fun k => decide (tableBase t ≤ k ∧ k < tableBase t + tableCount t)) s.tables }

/-! ### Membership (R22, R23, R78) -/

/-- The channel belongs to a section (R22, R78). -/
def chUsed (s : State) (c : Nat) : Bool := decide (tnat s .sec c 0 1 ≥ 128)

/-- The section of a channel (R78). -/
def chSection (s : State) (c : Nat) : Nat := tnat s .sec c 0 1 % 64

/-- The zone of a section (R78). -/
def secZone (s : State) (m : Nat) : Nat := tnat s .sec (512 + m) 0 1 % 8

/-- The zone of a channel (R23). -/
def chZone (s : State) (c : Nat) : Nat := secZone s (chSection s c)

/-- The channels in use, in ascending order. -/
def usedChannels (s : State) : List Nat := (tkeys s .sec).filter fun c => decide (c < 512) && chUsed s c

/-- A channel is local to DRV: CH000 to CH031 (R81). -/
def isLocal (c : Nat) : Bool := decide (c < 32)

end Sys2Proof.Machine
end

