-- ==== Sys2Proof/Machine/Kin.lean ====
section
/-!
DEFINITION. Sys2Proof/Machine/Kin.lean: KIN (chapter 2): steps 1 to 3 of the kinematic step. Products and quotients are
taken exactly and rounded once, to the nearest (R53 bounds the error and gives no bits: log entry 7). A value of R52's
formats goes through `fit`.
-/
namespace Sys2Proof.Machine

/-! ### Constants -/

/-- 1 km/h, 2 km/h and 2 °/s in the units of R52. -/
def kmh1 : Int := 277778
def kmh2 : Int := 555556
def dps2 : Int := 23860929

/-- Steps in a millisecond (R19: a step is 250 µs). -/
def stepsPerMs : Nat := 4

/-- The magnitude of an integer as an integer. -/
def absI (x : Int) : Int := if 0 ≤ x then x else -x

/-- A 32-bit angle from an integer. -/
def angle (x : Int) : Nat := unsigned 32 x

/-! ### Angles of vectors -/

/-- The sine, 2^−48, of an angle of the first quarter turn in 2^−35 turn. -/
def sinFine (θ : Nat) : Int :=
  if θ ≤ 2 ^ 32 then sinSmall ((θ : Int) * twoPiQ48 / 2 ^ 35) else cosSmall ((2 ^ 33 - (θ : Int)) * twoPiQ48 / 2 ^ 35)

/-- Bisect a quarter turn for the angle whose tangent is y/x, both not negative, in 2^−35 turn; `n` halvings of `w`. -/
def atanBisect : Nat → Nat → Nat → Int → Int → Nat
  | 0, a, _, _, _ => a
  | n + 1, a, w, y, x =>
    let m := a + w / 2
    if sinFine m * x ≤ sinFine (2 ^ 33 - m) * y then atanBisect n m (w - w / 2) y x else atanBisect n a (w / 2) y x

/-- The angle of a vector, clockwise from its first component (2^−32 turn, to the nearest); the zero vector gives 0. -/
def atan2Turn (y x : Int) : Nat :=
  if y = 0 ∧ x = 0 then 0
  else
    let q := (atanBisect 33 0 (2 ^ 33) (absI y) (absI x) + 4) / 8
    if 0 ≤ y then (if 0 ≤ x then q else 2 ^ 31 - q) else (if 0 ≤ x then angle (-(q : Int)) else 2 ^ 31 + q)

/-! ### Inputs latched at the step boundary (R19, R295) -/

/-- The IMU is enabled and its last sample is valid (R294, R295). -/
def imuOk (s : State) : Bool := flag s KIN_CTRL_IMU_EN && flag s SNS_IMU_STAT_VALID && !flag s SNS_IMU_STAT_SAT

/-- IMU yaw rate in the carrier frame, less its learned bias (R61). -/
def imuYaw (s : State) : Int :=
  let g := getI s (SNS_IMU_GYR_VAL 2)
  (if flag s KIN_IMU_CFG_ZUP then -g else g) - getI s KIN_IMU_GBIAS_VAL

/-- IMU acceleration along the carrier x axis, µm/s² (R63). -/
def imuAcc (s : State) : Int :=
  let m := getF s KIN_IMU_CFG_YAWMNT * 2 ^ 16
  let ay := getI s (SNS_IMU_ACC_VAL 1)
  roundDiv (getI s (SNS_IMU_ACC_VAL 0) * cosQ24 m - (if flag s KIN_IMU_CFG_ZUP then -ay else ay) * sinQ24 m) (2 ^ 24)

/-- Wheel `n` is a valid speed source (R60, R288). -/
def wheelOk (s : State) (n : Nat) : Bool :=
  (getF s KIN_CTRL_WHL_EN).testBit n && decide (getF s (ENC_WH_STAT_STATE n) = 1) && !(getF s KIN_STAT_WHL_FLT).testBit n

/-- Counts of wheel `n` since the last boundary (R288). -/
def wheelDelta (s : State) (n : Nat) : Int :=
  signed 32 (unsigned 32 ((rd s (ENC_WH_CNT n)).toNat - (sparseGet (fun _ => 0) s.kin.src.whlCnt n : Nat)))

/-- Nominal distance of a number of counts, µm (KIN_WHL_SCALE is 2^−16 mm a count). -/
def wheelDist (s : State) (n : Nat) (counts : Int) : Int :=
  roundDiv (counts * ((rd s (KIN_WHL_SCALE n)).toNat * 1000)) (2 ^ 16)

/-- Speed of wheel `n` as counted in this step, times its learned scale, µm/s. -/
def wheelSpeed (s : State) (n : Nat) : Int :=
  roundDiv (wheelDelta s n * ((rd s (KIN_WHL_SCALE n)).toNat * 1000 * 4000) * (rd s (KIN_WHL_LRN n)).toNat) (2 ^ 32)

/-- ISO 11786 input `i` is a valid speed source (R289). -/
def isoOk (s : State) (i : Nat) : Bool := (getF s KIN_CTRL_ISO_EN).testBit i && flag s (SNS_ISO_STAT_VALID i)

/-- ISOBUS is a valid speed source (R376). -/
def isobusOk (s : State) : Bool := flag s KIN_CTRL_ISOBUS_EN && s.kin.iso.isSome

/-- GNSS is present (R59, R443): a usable solution was latched less than 150 ms ago and PLL_G is locked. -/
def gnssHere (s : State) : Bool :=
  flag s CLK_STAT_G_LOCK && match s.kin.watch.gnssAge with
    | some n => decide (n < 150 * stepsPerMs)
    | none => false

/-- The speed sources that are valid and weighted: bits 0 GNSS, 1 to 4 wheels, 5 and 6 ISO 11786, 7 ISOBUS. -/
def validSources (s : State) : List Nat :=
  (List.range 8).filter fun k =>
    if k = 0 then gnssHere s else if k < 5 then wheelOk s (k - 1) else if k < 7 then isoOk s (k - 5) else isobusOk s

/-- Weight of a speed source (KIN_WGT). -/
def sourceWeight (s : State) (k : Nat) : Nat :=
  if k = 0 then getF s KIN_WGT_GNSS else if k < 5 then getF s KIN_WGT_WHEEL else if k < 7 then getF s KIN_WGT_ISO
  else getF s KIN_WGT_ISOBUS

/-- "Wheels" of R69: any wheel, ISO 11786 input or ISOBUS speed. -/
def anyWheels (l : List Nat) : Bool := l.any (0 < ·)

/-! ### Yaw rate and direction (R61, R62) -/

/-- The pair of valid wheels with the largest separation of at least 500 mm (R61, R69). -/
def wheelPair (s : State) : Option (Nat × Nat) :=
  let sep := fun (p : Nat × Nat) => absI (getI s (KIN_WHL_Y_VAL p.1) - getI s (KIN_WHL_Y_VAL p.2))
  let ps := [(0, 1), (0, 2), (0, 3), (1, 2), (1, 3), (2, 3)].filter fun p =>
    wheelOk s p.1 && wheelOk s p.2 && decide (2000 ≤ sep p)
  ps.foldl (fun b p => match b with
    | none => some p
    | some q => if sep q < sep p then some p else b) none

/-- The direction of travel from KIN_CTRL.DIR_SRC: `some true` is reverse; `none` where no valid source is named (R62). -/
def travelDir (s : State) : Option Bool :=
  let d := getF s KIN_CTRL_DIR_SRC
  if d < 4 then
    if decide (getF s (ENC_WH_STAT_STATE d) = 1) && flag s (ENC_WH_STAT_DIRV d) then some (flag s (ENC_WH_STAT_DIR d)) else none
  else if d < 6 then
    if flag s (SNS_ISO_STAT_VALID (d - 4)) && flag s (SNS_ISO_STAT_DIRV (d - 4)) then some (decide (getI s (SNS_ISO_SPD_VAL (d - 4)) < 0))
    else none
  else if d = 6 then match s.kin.iso with
    | some m => if m.dirKnown then some m.rev else none
    | none => none
  else none

/-- The course over ground may correct the heading: |u| is at least 1 km/h (R61). A direction that is unknown is taken
as forward (R62). -/
def courseUsable (s : State) : Bool := decide (kmh1 ≤ absI s.kin.car.u)

/-- The heading comes from the course over ground (R61). -/
def onCourse (s : State) : Bool :=
  gnssHere s && !(s.kin.lastSol.map (·.hdgV)).getD true && courseUsable s

/-- Forward travel is assumed: no direction is known and the heading comes from the course over ground (R62). -/
def assumedForward (s : State) : Bool := (travelDir s).isNone && onCourse s

/-- A speed whose source gives no direction takes the sign of the direction of travel; where forward travel is assumed no
speed is negative (R62). -/
def withDir (s : State) (known : Bool) (v : Int) : Int :=
  if assumedForward s then absI v else if known then v else if travelDir s = some true then -(absI v) else absI v

/-- Yaw rate from the difference of two wheels' speeds: (v₁ − v₂)/(y₂ − y₁), as a wheel at y runs at u − r·y. A wheel without
a direction of its own takes the sign that R62 gives it in the mean; R61 states none (DEDUCED, log entry 45). -/
def pairYaw (s : State) (p : Nat × Nat) : Int :=
  let v := fun (n : Nat) => withDir s (flag s (ENC_WH_STAT_DIRV n)) (wheelSpeed s n)
  let dy := getI s (KIN_WHL_Y_VAL p.2) - getI s (KIN_WHL_Y_VAL p.1)
  let num := (v p.1 - v p.2) * 2 ^ 80
  let den := absI dy * 250 * twoPiQ48
  roundDiv (if 0 ≤ dy then num else -num) den.toNat

/-- The yaw rate and its source: 2 IMU, 1 baseline rate, 3 wheels, 0 none (R61). -/
def yawRate (s : State) : Int × Nat :=
  if imuOk s then (imuYaw s, 2)
  else if gnssHere s && s.kin.src.hdgRate.isSome then (s.kin.src.hdgRate.getD 0, 1)
  else match wheelPair s with
    | some p => (pairYaw s p, 3)
    | none => (0, 0)

/-- The speed that source `k` reports for the CRP (chapter 2, Speed and yaw rate): a wheel at y runs at u − r·y. -/
def sourceSpeed (s : State) (r : Int) (k : Nat) : Int :=
  if k = 0 then s.kin.src.gnssU
  else if k < 5 then
    let n := k - 1
    withDir s (flag s (ENC_WH_STAT_DIRV n)) (wheelSpeed s n) + roundDiv (yawTimes r (getI s (KIN_WHL_Y_VAL n) * 250)) (2 ^ 80)
  else if k < 7 then withDir s (flag s (SNS_ISO_STAT_DIRV (k - 5))) (getI s (SNS_ISO_SPD_VAL (k - 5)))
  else match s.kin.iso with
    | some m => withDir s m.dirKnown (if m.rev then -m.speed else m.speed)
    | none => 0

/-- The weighted mean of the valid sources; `none` where every weight is 0. -/
def meanSpeed (s : State) (r : Int) (l : List Nat) : Option Int :=
  let w := (l.map fun k => sourceWeight s k).sum
  if w = 0 then none
  else some (roundDiv ((l.map fun k => (sourceWeight s k : Int) * sourceSpeed s r k).sum) w)

/-! ### Classes and validity (R69, R70) -/

/-- The class of R69 from the sources present. -/
def sourceClass (s : State) (l : List Nat) : Nat :=
  let weighted := decide ((l.map fun k => sourceWeight s k).sum ≠ 0)
  if l ≠ [] ∧ ¬weighted then 0
  else if gnssHere s then
    match s.kin.lastSol with
    | some x => if x.type = 4 then 1 else if x.type = 3 then 2 else 3
    | none => 0
  else if anyWheels l then (if imuOk s then 4 else if (wheelPair s).isSome then 5 else 6)
  else if imuOk s then 7 else 0

/-- The DIST limit of a dead-reckoning class in 1/4,000 µm (KIN_DR_LIM is in metres). -/
def classDist (s : State) (c : Nat) : Nat :=
  (if c = 4 then getF s KIN_DR_LIM_DIST_WI else if c = 5 then getF s KIN_DR_LIM_DIST_WW else getF s KIN_DR_LIM_DIST_W1)
    * 4000000000

/-- A limit of the class has been passed (R69): by distance for classes 4 to 6, by time for class 7. -/
def limitPassed (s : State) (c : Nat) : Bool :=
  if c = 4 ∨ c = 5 ∨ c = 6 then decide (classDist s c ≤ s.kin.watch.drDist)
  else if c = 7 then decide (getF s KIN_DR_LIM_TIME_I * 100 * stepsPerMs ≤ s.kin.watch.drSteps)
  else false

/-- Latch a passed limit: the validity it governs stays 0 until GNSS is present again (R69). -/
def latchLimit (s : State) (c : Nat) : State :=
  if limitPassed s c then
    { s with kin := { s.kin with watch := { s.kin.watch with
        poseGone := true, motionGone := s.kin.watch.motionGone || decide (6 ≤ c) } } }
  else s

/-- Set CLASS and the two validities (R69, R70). -/
def setValidity (s : State) (c : Nat) : State :=
  let w := s.kin.watch
  let pose := decide (c ≠ 0) && (decide (c ≤ 3) || (w.gnssAge.isSome && !w.poseGone)) && decide (c ≤ getF s KIN_CTRL_MINCLS)
  let motion := decide (c ≠ 0) && (decide (c ≤ 3) || !w.motionGone)
  setB (setB (setF s KIN_STAT_CLASS c) KIN_STAT_POSE_VALID pose) KIN_STAT_MOTION_VALID motion

/-- The channel's zone is on the trailed body (R48). -/
def onTrailed (s : State) (c : Nat) : Bool :=
  flag s KIN_CTRL_MODEL && s.kin.trailed && decide (tnat s .zon (chZone s c) 12 1 = 1)

/-- The validities of a channel's body (R55). -/
def chPoseValid (s : State) (c : Nat) : Bool := flag s KIN_STAT_POSE_VALID && !(onTrailed s c && flag s KIN_STAT_TRL_INV)

def chMotionValid (s : State) (c : Nat) : Bool := flag s KIN_STAT_MOTION_VALID && !(onTrailed s c && flag s KIN_STAT_TRL_INV)

/-! ### Hand-over (R66, R67) -/

/-- D_blend in 2^−24 × 0.25 mm (KIN_BLEND_DIST is in mm). -/
def blendDist (s : State) : Nat := getF s KIN_BLEND_DIST_VAL * 4 * 2 ^ 24

/-- What remains of a captured offset. -/
def remains (b : Blend) (x : Int) : Int := if b.dist = 0 then 0 else roundDiv (x * b.left) b.dist

/-- What remains of the offsets of a hand-over. -/
def offsets (s : State) : Blend := match s.kin.blend with
  | some b => { e := remains b b.e, n := remains b b.n, psi := remains b b.psi, u := remains b b.u, gamma := remains b b.gamma,
                dist := 0, left := 0 }
  | none => { e := 0, n := 0, psi := 0, u := 0, gamma := 0, dist := 0, left := 0 }

/-- Start the blend of offsets between the output and the newest estimate over the full D_blend (R66, R67). -/
def capture (s : State) (o : Blend) : State :=
  let any := decide (o.e ≠ 0) || decide (o.n ≠ 0) || decide (o.psi ≠ 0) || decide (o.u ≠ 0) || decide (o.gamma ≠ 0)
  let b : Blend := { o with dist := blendDist s, left := blendDist s }
  setB { s with kin := { s.kin with blend := if any then some b else none } } KIN_STAT_BLEND any

/-- A hand-over is counted (R66, R68). -/
def countHandOver (s : State) : State := bump s KIN_CNT_HANDOVER_CNT

/-- Reduce the blend by the distance `d` µm of this step and return the increments of position and heading (R66). -/
def blendStep (b : Blend) (d : Nat) : Blend × Int × Int × Int :=
  let b' := { b with left := b.left - d }
  (b', remains b' b.e - remains b b.e, remains b' b.n - remains b b.n, remains b' b.psi - remains b b.psi)

/-! ### GNSS corrections (R65, R68) -/

/-- Move antenna 0's position to the CRP with heading ψ (chapter 2, Inputs); result in 2^−8 × 0.25 mm. -/
def solToCrp (s : State) (x : KinSol) (psi : Nat) : Int × Int :=
  let ax := getI s (KIN_ANT_VAL 0 0)
  let ay := getI s (KIN_ANT_VAL 0 1)
  (x.e * 256 - roundDiv (ax * sinQ24 psi + ay * cosQ24 psi) (2 ^ 16),
   x.n * 256 - roundDiv (ax * cosQ24 psi - ay * sinQ24 psi) (2 ^ 16))

/-- Heading of the carrier that a baseline heading stands for: less the body angle of the antenna baseline. -/
def baselineHeading (s : State) (x : KinSol) : Nat :=
  let dx := getI s (KIN_ANT_VAL 1 0) - getI s (KIN_ANT_VAL 0 0)
  let dy := getI s (KIN_ANT_VAL 1 1) - getI s (KIN_ANT_VAL 0 1)
  angle ((x.hdg : Int) - atan2Turn dy dx)

/-- Heading from the course over ground; reverse travel turns it by half a turn (R61, R62). -/
def courseHeading (s : State) (x : KinSol) : Nat :=
  let c := atan2Turn x.vE x.vN
  if travelDir s = some true then angle ((c : Int) + 2 ^ 31) else c

/-- The heading a solution gives, if any (R61). -/
def solHeading (s : State) (x : KinSol) : Option Nat :=
  if x.hdgV then some (baselineHeading s x) else if courseUsable s then some (courseHeading s x) else none

/-- The carrier's pose as it is estimated: the output less what remains of a hand-over offset (R66). -/
def poseNow (s : State) (st : Word) : PoseMark :=
  let o := offsets s
  { step := st, e := s.kin.car.e - o.e, n := s.kin.car.n - o.n, psi := angle ((s.kin.car.psi : Int) - o.psi) }

/-- The pose kept for a step; the present pose where none is kept. -/
def poseAt (s : State) (st : Word) : PoseMark :=
  (s.kin.hist.find? (fun p => decide (p.step = st))).getD (poseNow s st)

/-- The kept poses move with the estimate at a jump of it. -/
def shiftMarks (s : State) (dE dN dP : Int) : State :=
  { s with kin := { s.kin with hist := s.kin.hist.map fun p =>
    { p with e := p.e + dE, n := p.n + dN, psi := angle ((p.psi : Int) + dP) } } }

/-- Spread increments of the next step, and what is left (R65). -/
def spreadStep (c : Spread) : Option Spread × Int × Int × Int :=
  let part := fun (t : Int) (k : Nat) => roundDiv (t * k) 200
  let k := c.done + 1
  let inc := fun (t : Int) => part t k - part t c.done
  (if k < 200 then some { c with done := k } else none, inc c.e, inc c.n, inc c.psi)

/-- Squared position gate: KIN_GAIN.GATE in mm, in 2^−8 × 0.25 mm. -/
def gateUnits (s : State) : Int := (getF s KIN_GAIN_GATE : Int) * 4 * 256

/-- GNSS velocity in the carrier frame at the CRP, µm/s: along and across (chapter 2, Speed and yaw rate; R63). Where forward
travel is assumed the carrier points along the course (R62). -/
def solVelocity (s : State) (x : KinSol) : Int × Int :=
  let psi := if assumedForward s then courseHeading s x else s.kin.car.psi
  let along := roundDiv (x.vN * cosQ24 psi + x.vE * sinQ24 psi) (2 ^ 24)
  let across := roundDiv (x.vE * cosQ24 psi - x.vN * sinQ24 psi) (2 ^ 24)
  let r := s.kin.car.r
  (along + roundDiv (yawTimes r (getI s (KIN_ANT_VAL 0 1) * 250)) (2 ^ 80),
   across - roundDiv (yawTimes r (getI s (KIN_ANT_VAL 0 0) * 250)) (2 ^ 80))

/-- Learned wheel scales move at a solution (R60). -/
def learnWheels (s : State) (x : KinSol) (speed : Int) : State :=
  let ok := (decide (x.type = 3) || decide (x.type = 4)) && decide (kmh2 ≤ speed) && decide (absI s.kin.car.r < dps2)
  let s := match s.kin.src.lrnPrev with
    | some (v0, st0) =>
      if ok && s.kin.src.lrnOk then
        let dist := roundDiv ((v0 + speed) * (stepsFrom st0 x.step : Nat)) 8000
        [0, 1, 2, 3].foldl (fun s n =>
          let cnt := absI (wheelDist s n (sparseGet (fun _ => 0) s.kin.src.whlAcc n))
          if wheelOk s n && decide (0 < cnt) then
            let old : Int := (rd s (KIN_WHL_LRN n)).toNat
            let new := old + roundDiv (roundDiv (dist * 2 ^ 16) cnt.toNat - old) 256
            let s := wr s (KIN_WHL_LRN n) (BitVec.ofInt 32 new)
            if new * 1000 < 800 * 2 ^ 16 ∨ 1200 * 2 ^ 16 < new * 1000 then
              record (setF s KIN_STAT_WHL_FLT (getF s KIN_STAT_WHL_FLT ||| 2 ^ n)) 0x3001 n (leBytes 4 (unsigned 32 new))
            else s
          else s) s
      else s
    | none => s
  { s with kin := { s.kin with src := { s.kin.src with
      whlAcc := [], lrnPrev := if ok then some (speed, x.step) else none, lrnOk := ok } } }

/-- Turn the carrier by half a turn where forward travel is assumed and the course points backwards: a reversal is shown as a
heading change of 180° (R62). -/
def reversal (s : State) (x : KinSol) : State :=
  if assumedForward s && decide (2 ^ 30 < absI (signed 32 (angle ((courseHeading s x : Int) - s.kin.car.psi)))) then
    shiftMarks { s with kin := { s.kin with car := { s.kin.car with psi := angle ((s.kin.car.psi : Int) + 2 ^ 31) } } } 0 0 (2 ^ 31)
  else s

/-- The speeds and the heading rate that a solution gives from its epoch on (R61, R63). -/
def takeVelocity (s : State) (x : KinSol) : State :=
  let rate := match s.kin.src.hdgPrev, x.hdgV with
    | some (h0, st0), true =>
      let k := stepsFrom st0 x.step
      if k = 0 then none else some (roundDiv (signed 32 (angle ((x.hdg : Int) - h0)) * 4000) k)
    | _, _ => none
  let v := solVelocity s x
  { s with kin := { s.kin with src := { s.kin.src with
    gnssU := v.1, gnssW := v.2, hdgRate := rate, hdgPrev := if x.hdgV then some (x.hdg, x.step) else none } } }

/-- The residual between a solution and a kept pose: east, north and heading (R65). Where the heading is taken at once it is
also the heading at the epoch (R68). -/
def residual (s : State) (x : KinSol) (p : PoseMark) (atOnce : Bool) : Int × Int × Int :=
  let hd := solHeading s x
  let crp := solToCrp s x (if atOnce then hd.getD p.psi else p.psi)
  (crp.1 - p.e, crp.2 - p.n, match hd with
    | some h => signed 32 (angle ((h : Int) - p.psi))
    | none => 0)

/-- The new position and heading at once, without a blend (R68). -/
def jumpNow (s : State) (d : Int × Int × Int) : State :=
  let o := offsets s
  let c := s.kin.car
  let car := { c with e := c.e - o.e + d.1, n := c.n - o.n + d.2.1, psi := angle ((c.psi : Int) - o.psi + d.2.2) }
  let s := capture (shiftMarks s d.1 d.2.1 d.2.2) { o with e := 0, n := 0, psi := 0 }
  countHandOver { s with kin := { s.kin with car := car, corr := none, watch := { s.kin.watch with rejects := 0 } } }

/-- The position and heading of a solution are handed over: the output stays and the difference is blended (R66, R67). -/
def jumpBlended (s : State) (d : Int × Int × Int) : State :=
  let o := offsets s
  let s := capture (shiftMarks s d.1 d.2.1 d.2.2) { o with e := o.e - d.1, n := o.n - d.2.1, psi := o.psi - d.2.2 }
  countHandOver { s with kin := { s.kin with corr := none, watch := { s.kin.watch with rejects := 0 } } }

/-- A routine correction, or a residual beyond the gate; the third in a row is a discontinuity (R65). -/
def routine (s : State) (d : Int × Int × Int) : State × Bool :=
  if d.1 * d.1 + d.2.1 * d.2.1 ≤ gateUnits s * gateUnits s then
    let g := fun (f : Field) (d : Int) => roundDiv (d * getF s f) 256
    ({ s with kin := { s.kin with
      corr := some { e := g KIN_GAIN_POS d.1, n := g KIN_GAIN_POS d.2.1, psi := g KIN_GAIN_HDG d.2.2, done := 0 },
      watch := { s.kin.watch with rejects := 0 } } }, false)
  else
    let s := bump s KIN_CNT_GATE_CNT
    if 2 ≤ s.kin.watch.rejects then (jumpBlended s d, true)
    else ({ s with kin := { s.kin with watch := { s.kin.watch with rejects := s.kin.watch.rejects + 1 } } }, false)

/-- Latch a usable solution: velocities, heading rate, and its position and heading: at once, handed over with a change of class,
or as a routine correction (R59 to R61, R65 to R68). In class 0 position and heading are held (R69). Also answers whether a
hand-over has been counted. -/
def latchUsable (s : State) (x : KinSol) : State × Bool :=
  let s := { s with kin := { s.kin with
    lastSol := some x,
    watch := { s.kin.watch with gnssAge := some 0, drDist := 0, drSteps := 0, poseGone := false, motionGone := false } } }
  let s := takeVelocity (reversal s x) x
  let s := learnWheels s x (absI s.kin.src.gnssU)
  let was := s.kin.watch.cls
  let c := sourceClass s (validSources s)
  let back := decide (was = 0) || decide (4 ≤ was)
  if c = 0 then (s, false)
  else if back && !flag s KIN_STAT_POSE_VALID then (jumpNow s (residual s x (poseAt s x.step) true), true)
  else if c ≠ was then (jumpBlended s (residual s x (poseAt s x.step) false), true)
  else routine s (residual s x (poseAt s x.step) false)

/-- The uncertainty of the solution in use (R73). -/
def showSigma (s : State) (x : KinSol) : State :=
  wr s KIN_SIGMA (BitVec.ofNat 32 (min 0xFFFF x.sigma + 2 ^ 16 * (if x.hdgV then min 0xFFFF x.hdgSig else 0xFFFF)))

/-- Latch the solution that waits: none, one that is stale, one of TYPE 0, or a usable one (R59). -/
def latchSol (s : State) : State × Bool :=
  match s.kin.sol with
  | none => (s, false)
  | some x =>
    let s := { s with kin := { s.kin with sol := none } }
    if 1024 < stepsFrom x.step (stepCnt s) then (bump s KIN_CNT_STALE_CNT, false)
    else if x.type = 0 then (s, false)
    else latchUsable (showSigma s x) x

/-- GNSS comes into use between two solutions, after class 0 with its held pose: the pose of the last one is taken at once (R68,
log entry 46). -/
def firstPose (r : State × Bool) : State × Bool :=
  let c := sourceClass r.1 (validSources r.1)
  if decide (r.1.kin.watch.cls = 0) && !r.2 && decide (1 ≤ c ∧ c ≤ 3) then
    match r.1.kin.lastSol with
    | some x => (jumpNow r.1 (residual r.1 x (poseNow r.1 x.step) true), true)
    | none => r
  else r

/-! ### The hitch encoder (R54) -/

/-- Read the encoder angle: σ·(ANG − OFFSET), signed, 2^−32 turn (R54). -/
def hencAngle (s : State) : Int :=
  let p := getF s KIN_HENC_PORT
  let d := signed 16 (unsigned 16 ((getF s (ENC_PT_ANG_ANG p) : Int) - getF s KIN_HENC_OFFSET))
  (if flag s KIN_HENC_SIGN then -d else d) * 2 ^ 16

/-- ±80° in 2^−32 turn. -/
def deg80 : Int := 954437177

/-- The encoder is good now: no port fault, a valid word within 10 ms, within ±80° (R54). -/
def hencGoodNow (s : State) : Bool :=
  let p := getF s KIN_HENC_PORT
  decide (getF s (ENC_PT_STAT_STATE p) ≠ 3) && decide (getF s (ENC_PT_STAT_STATE p) ≠ 0) && flag s (ENC_PT_ANG_ANGV p)
    && decide (getF s (ENC_PT_AGE_POS p) ≤ 10000) && decide (absI (hencAngle s) ≤ deg80)

/-- The encoder fails: the estimate goes on, from the last good angle unless it was in use, or the trailed body is unusable
(R54). -/
def hencFail (s : State) : State :=
  let g := if flag s KIN_STAT_HITCH_EST then s.kin.gammaEst else s.kin.watch.hencLast
  { (setB s KIN_STAT_HENC_FLT true) with kin := { s.kin with gammaEst := g, watch := { s.kin.watch with hencGood := 0 } } }

/-- The encoder's angle is taken: through a blend where it has the estimate as its fallback, else at once (R54, R66, R68). -/
def hencTake (s : State) : State :=
  let g := hencAngle s
  let o := offsets s
  let k := { s.kin with hencHist := [g], watch := { s.kin.watch with hencLast := g } }
  let d := signed 32 (angle (s.kin.gamma - g))
  countHandOver (capture { s with kin := k } { o with gamma := if getF s KIN_CTRL_HITCH_SRC = 2 then d else 0 })

/-- The encoder returns (R54). -/
def hencReturn (s : State) : State := hencTake (setB s KIN_STAT_HENC_FLT false)

/-- The hitch encoder is used: trailed model and an encoder source (R45, R54). -/
def hencUsed (s : State) : Bool := flag s KIN_CTRL_MODEL && decide (getF s KIN_CTRL_HITCH_SRC ≠ 1)

/-- What KIN_STAT shows of the hitch angle: from the estimate, or without a source (R54, R55). -/
def showHitch (s : State) : State :=
  let flt := flag s KIN_STAT_HENC_FLT
  let src := getF s KIN_CTRL_HITCH_SRC
  let model := flag s KIN_CTRL_MODEL
  setB (setB s KIN_STAT_TRL_INV (model && flt && decide (src = 0))) KIN_STAT_HITCH_EST (model && (decide (src = 1) || (flt && decide (src = 2))))

/-- An encoder that has not failed: its angle, first taken over where the estimate was in use before (R54). -/
def hencGoodStep (s : State) : State :=
  if flag s KIN_STAT_HITCH_EST then hencTake s
  else
    let g := hencAngle s
    { s with kin := { s.kin with watch := { s.kin.watch with hencLast := g }, hencHist := (g :: s.kin.hencHist).take 5 } }

/-- An encoder that has failed: it returns after 100 ms of valid words (R54). -/
def hencFltStep (s : State) : State :=
  let n := if hencGoodNow s then s.kin.watch.hencGood + 1 else 0
  let s := { s with kin := { s.kin with watch := { s.kin.watch with hencGood := n } } }
  if 100 * stepsPerMs ≤ n then hencReturn s else s

/-- Leave the encoder: the estimate goes on from the last good angle (R54). -/
def hencLeave (s : State) : State :=
  let s := if flag s KIN_STAT_HITCH_EST then s else { s with kin := { s.kin with gammaEst := s.kin.watch.hencLast } }
  setB s KIN_STAT_HENC_FLT false

/-- Follow the encoder's condition at a boundary (R54). -/
def hencStep (s : State) : State :=
  showHitch (if !hencUsed s then hencLeave s
    else if flag s KIN_STAT_HENC_FLT then hencFltStep s
    else if hencGoodNow s then hencGoodStep s
    else hencFail s)

/-! ### Propagation (chapter 2) -/

/-- What a step adds to a sum kept in a unit of `den` parts: whole units and the parts left over. -/
def carry (parts x : Int) (den : Nat) : Int × Int := ((parts + x).fdiv den, (parts + x).fmod den)

/-- Parts of a position unit (2^−8 × 0.25 mm) in a product of µm/s, 2^−24 and one step. -/
def distParts : Nat := 1000000 * 2 ^ 16

/-- Advance a body's pose by one step with correction increments (chapter 2, Propagation of the carrier); what is below the
unit is kept for the next step (R53). -/
def advance (b : Body) (cE cN cP : Int) : Body :=
  let m := angle ((b.psi : Int) + roundDiv b.r 8000)
  let e := carry b.eR (b.u * sinQ24 m + b.w * cosQ24 m) distParts
  let n := carry b.nR (b.u * cosQ24 m - b.w * sinQ24 m) distParts
  let p := carry b.psiR b.r 4000
  { b with
    e := fit 48 (b.e + e.1 + cE), n := fit 48 (b.n + n.1 + cN), psi := angle ((b.psi : Int) + p.1 + cP),
    eR := e.2, nR := n.2, psiR := p.2 }

/-- A point (x, y) of a body frame (2^−24 × 0.25 mm) placed in the LTP, 2^−8 × 0.25 mm. -/
def placePoint (b : Body) (x y : Int) : Int × Int :=
  (b.e + roundDiv (x * sinQ24 b.psi + y * cosQ24 b.psi) (2 ^ 40), b.n + roundDiv (x * cosQ24 b.psi - y * sinQ24 b.psi) (2 ^ 40))

/-- The change of a filtered quantity over 16 steps, per second (R63, log entry 7). -/
def rate16 (now : Int) (old : Option Int) : Int :=
  match old with
  | some v => fit 32 ((now - v) * 250)
  | none => 0

/-- The value 16 steps ago of the quantity at place `k` of the filter memory. -/
def filtOld (s : State) (k : Nat) : Option Int := (s.kin.filt[15]?).bind fun l => l[k]?

/-- The hitch angle comes from the estimate (R54). -/
def hitchEst (s : State) : Bool := flag s KIN_STAT_HITCH_EST

/-- The hitch angle: the encoder's last angle or the estimate, and what remains of a hand-over offset (R54, R66). -/
def hitchAngle (s : State) : Int :=
  signed 32 (angle ((if hitchEst s then s.kin.gammaEst else s.kin.watch.hencLast) + (offsets s).gamma))

/-- Rate of the encoder angle, differenced over 4 steps. -/
def hencRate (s : State) : Int := match s.kin.hencHist with
  | now :: rest => (match rest[3]? with
    | some o => signed 32 (angle (now - o)) * 1000
    | none => 0)
  | [] => 0

/-- The trailed body's motion and the hitch angle's advance (chapter 2, Propagation of a trailed body); at standstill the
trailed body stands too (R64). -/
def trailMotion (s : State) : State :=
  let c := s.kin.car
  let still := flag s KIN_STAT_STILL
  let vx := c.u - roundDiv (yawTimes c.r (getI s KIN_HITCH_Y_VAL * 250)) (2 ^ 80)
  let vy := c.w + roundDiv (yawTimes c.r (getI s KIN_HITCH_X_VAL * 250)) (2 ^ 80)
  let g := hitchAngle s
  let ui := fit 32 (roundDiv (vx * cosQ24 (angle g) - vy * sinQ24 (angle g)) (2 ^ 24))
  let wi := fit 32 (roundDiv (vx * sinQ24 (angle g) + vy * cosQ24 (angle g)) (2 ^ 24))
  let ri := if still then 0
    else if hitchEst s then fit 32 (roundDiv (wi * 2 ^ 80) (getF s KIN_TRL_AXLE_VAL * 250 * twoPiQ48.toNat))
    else fit 32 (c.r - hencRate s)
  let est := if hitchEst s then signed 32 (angle (s.kin.gammaEst + roundDiv (c.r - ri) 4000)) else s.kin.gammaEst
  let t := { s.kin.trl with u := ui, w := wi, r := ri, a := rate16 ui (filtOld s 3), alpha := rate16 ri (filtOld s 4),
                            wdot := rate16 wi (filtOld s 5) }
  let s := { s with kin := { s.kin with trl := t, gammaEst := est } }
  { s with kin := { s.kin with gamma := hitchAngle s } }

/-- The trailed body's motion; under the rigid model the implement is the carrier (R45). -/
def implementMotion (s : State) : State :=
  if flag s KIN_CTRL_MODEL then trailMotion s else { s with kin := { s.kin with trl := s.kin.car, gamma := 0 } }

/-- The implement's place: the hitch pivot, placed by the carrier (chapter 2, Propagation of a trailed body). -/
def implementPose (s : State) : State :=
  if flag s KIN_CTRL_MODEL then
    let c := s.kin.car
    let p := placePoint c (getI s KIN_HITCH_X_VAL * 2 ^ 24) (getI s KIN_HITCH_Y_VAL * 2 ^ 24)
    { s with kin := { s.kin with trl := { s.kin.trl with
      e := fit 48 p.1, n := fit 48 p.2, psi := angle ((c.psi : Int) - s.kin.gamma) } } }
  else { s with kin := { s.kin with trl := s.kin.car } }

/-! ### Channels (R56 to R58) -/

/-- Body coordinates of a channel's outlet, 2^−24 × 0.25 mm (R51). -/
def outletAt (s : State) (c : Nat) : Int × Int :=
  let z := chZone s c
  let yaw := tnat s .zon z 8 4
  let x := tint s .geo c 0 4
  let y := tint s .geo c 4 4
  (tint s .zon z 0 4 * 2 ^ 24 + (x * cosQ24 yaw - y * sinQ24 yaw), tint s .zon z 4 4 * 2 ^ 24 + (x * sinQ24 yaw + y * cosQ24 yaw))

/-- What KIN holds for a channel. -/
def chKin (s : State) (c : Nat) : ChKin := sparseGet (fun _ => ChKin.zero) s.kin.ch c

/-- Bounds of a path coordinate in 2^−24 × 0.25 mm (R57). -/
def pcMax : Int := (2 ^ 39 - 1) * 2 ^ 24
def pcMin : Int := -(2 ^ 39 * 2 ^ 24)

/-- The path coordinate in 0.25 mm: an arithmetic shift (R52). -/
def pcUnits (x : Int) : Int := x.fdiv (2 ^ 24)

/-- Path advance of one step at a path speed: round(ṡ·Δt / q) (chapter 2, Channels). -/
def pathAdvance (v : Int) : Int := roundDiv (v * 2 ^ 24) 1000000

/-- The body of a channel (R48). -/
def chBody (s : State) (c : Nat) : Body := if onTrailed s c then s.kin.trl else s.kin.car

/-- Keep what KIN holds for a channel. -/
def setChKin (s : State) (c : Nat) (k : ChKin) : State :=
  { s with kin := { s.kin with ch := sparseSet (fun _ => ChKin.zero) s.kin.ch c k } }

/-- Form a channel's speed, acceleration and coordinate (chapter 2, Channels; R57). -/
def channelMove (s : State) (c : Nat) : State :=
  let b := chBody s c
  let yaw := tnat s .zon (chZone s c) 8 4
  let o := outletAt s c
  let mv := chMotionValid s c
  let k := chKin s c
  let cy := cosQ24 yaw
  let sy := sinQ24 yaw
  let vx := b.u * 2 ^ 104 - yawTimes b.r (o.2 * 250)
  let vy := b.w * 2 ^ 104 + yawTimes b.r (o.1 * 250)
  let ax := b.a * 2 ^ 104 - yawTimes b.alpha (o.2 * 250)
  let ay := b.wdot * 2 ^ 104 + yawTimes b.alpha (o.1 * 250)
  let value := fun (x : Int) => if mv then fit 32 (roundDiv x (2 ^ 128)) else 0
  let sd := value (vx * cy + vy * sy)
  let raw := k.s + pathAdvance sd
  let s' := clampI pcMin pcMax raw
  let st := if raw ≠ s' then setB s KIN_STAT_SAT true else s
  let st := if (2 ^ 38 : Int) < pcUnits s' ∨ pcUnits s' < -(2 ^ 38) then setB st KIN_STAT_NEAR_SAT true else st
  setChKin st c { k with s := s', sdot := sd, vlat := value (vy * cy - vx * sy), sddot := value (ax * cy + ay * sy) }

/-- A channel at standstill (R58). -/
def chStill (s : State) (c : Nat) : Bool := decide (absI (chKin s c).sdot < (getF s KIN_STILL_VAL : Int) * 1000)

/-- A channel in reverse (R58). -/
def chReverse (s : State) (c : Nat) : Bool := decide ((chKin s c).sdot < 0) && !chStill s c

/-- KIN_CH_FLAGS of a channel in use, as the phases of this step leave them (R74). -/
def chFlags (s : State) (c : Nat) : Nat :=
  let b := fun (x : Bool) (i : Nat) => if x then 2 ^ i else 0
  b (onTrailed s c) 0 + 2 + b (chStill s c) 2 + b (chReverse s c) 3 + b (chPoseValid s c) 4 + b (chMotionValid s c) 5

/-- Place a channel's outlet at the pose predicted for the coming boundary, and form its flags (chapter 2, Channels; R74). -/
def channelPlace (s : State) (c : Nat) : State :=
  let o := outletAt s c
  let p := placePoint (advance (chBody s c) 0 0 0) o.1 o.2
  setChKin s c { chKin s c with e := p.1, n := p.2, flags := chFlags s c }

/-- A channel that no section uses keeps its coordinate and has neither speed nor flags (R74, log entry 47). -/
def channelRest (s : State) (c : Nat) : State :=
  if chUsed s c then s else setChKin s c { chKin s c with sdot := 0, vlat := 0, sddot := 0, flags := 0 }

/-! ### The step (R19, steps 1 to 3) -/

/-- The standstill thresholds hold in this step (R64). -/
def stillNow (s : State) (u r : Int) : Bool :=
  decide (absI u < (getF s KIN_STILL_VAL : Int) * 1000) && decide (absI r * 36000 < (getF s KIN_STILL_YAWR : Int) * 2 ^ 32)
    && [0, 1, 2, 3].all fun n => decide (wheelDelta s n = 0)

/-- The standstill conditions have held for KIN_STILL.TIME (R64). -/
def stillDue (s : State) : Bool := decide (getF s KIN_STILL_TIME * stepsPerMs ≤ s.kin.watch.still) && decide (0 < s.kin.watch.still)

/-- Force the motion values to 0 at standstill; the gyro bias is learned, by a law the spec does not give (R64). -/
def applyStill (s : State) : State :=
  let s := setB s KIN_STAT_STILL true
  let s := { s with kin := { s.kin with car := { s.kin.car with u := 0, w := 0, r := 0, a := 0, alpha := 0 },
                                        src := { s.kin.src with est := 0 } } }
  if flag s KIN_IMU_CFG_BIAS_LRN && imuOk s then
    let f := fresh s
    wr f.2 KIN_IMU_GBIAS (Config.freeWord f.1)
  else s

/-- Heading source of KIN_STAT.HDG_SRC in class `c` (R61, R69). -/
def headingSource (s : State) (c rsrc : Nat) : Nat :=
  let turned := if rsrc = 2 then 2 else if rsrc = 3 then 3 else 0
  if c = 0 then 0
  else match gnssHere s, s.kin.lastSol with
    | true, some x => if x.hdgV then 1 else if courseUsable s then 4 else turned
    | _, _ => turned

/-- A step in the age of GNSS and in the dead-reckoning distance and time (R59, R69). -/
def watchStep (s : State) (u : Int) : State :=
  let w := s.kin.watch
  let here := gnssHere s
  { s with kin := { s.kin with watch := { w with
    gnssAge := w.gnssAge.map (· + 1),
    drDist := if here then 0 else w.drDist + (absI u).toNat,
    drSteps := if here then 0 else w.drSteps + 1 } } }

/-- The forward speed that class `c` estimates, without a hand-over offset (R69). -/
def speedEst (s : State) (c : Nat) (r : Int) (l : List Nat) : Int :=
  if c = 0 then 0
  else match meanSpeed s r l with
    | some v => fit 32 v
    | none => if c = 7 then fit 32 (s.kin.src.est + roundDiv (imuAcc s) 4000) else 0

/-- R66: a wheel dropping out of the mean, or a change between two classes of R69, hands the speed over; `counted`: a hand-over
of this boundary is counted already. The first class after class 0 takes its speed as it is (DESIGN CHOICE, log entry 46). -/
def speedHandOver (s : State) (c : Nat) (est : Int) (used : Nat) (counted : Bool) : State :=
  let was := s.kin.watch.cls
  let dropped := [1, 2, 3, 4].any fun k => s.kin.src.used.testBit k && !used.testBit k
  if c ≠ 0 ∧ was ≠ 0 ∧ (c ≠ was ∨ dropped = true) then
    let s := capture s { offsets s with u := s.kin.car.u - est }
    if counted then s else countHandOver s
  else s

/-- Motion of the carrier in this step: sources, class, yaw rate, speed, accelerations (R61 to R64, R69). -/
def carrierMotion (s : State) (counted : Bool) : State :=
  let l := validSources s
  let c := sourceClass s l
  let yr := yawRate s
  let r := if c = 6 ∨ c = 0 then 0 else fit 32 yr.1
  let est := speedEst s c r l
  let usedNow := (l.map fun k => 2 ^ k).sum
  let s := speedHandOver s c est usedNow counted
  let u := if c = 0 then 0 else fit 32 (est + (offsets s).u)
  let s := setValidity (latchLimit s c) c
  let s := setB s KIN_STAT_DIR_UNK (travelDir s).isNone
  let w := if flag s KIN_CTRL_SLIP_EN && decide (c ≠ 0) && gnssHere s && (s.kin.lastSol.map (·.hdgV)).getD false && decide (kmh1 ≤ absI u)
    then fit 32 s.kin.src.gnssW else 0
  let still := if stillNow s u r then s.kin.watch.still + 1 else 0
  let a := if imuOk s then fit 32 (imuAcc s) else rate16 u (filtOld s 0)
  let car := { s.kin.car with u := u, w := w, r := r, a := a, alpha := rate16 r (filtOld s 1), wdot := rate16 w (filtOld s 2) }
  let s := { s with kin := { s.kin with car := car, corr := if c = 0 then none else s.kin.corr,
                                        watch := { s.kin.watch with still := still, cls := c },
                                        src := { s.kin.src with used := usedNow, est := est } } }
  let s := if stillDue s then applyStill s else setB s KIN_STAT_STILL false
  let s := setF s KIN_STAT_HDG_SRC (headingSource s c yr.2)
  setB s KIN_STAT_REV (decide (s.kin.car.u < 0))

/-- Take the counts of the wheels at the boundary (R288) and add them up for R60. -/
def takeCounts (s : State) : State :=
  let acc := [0, 1, 2, 3].foldl (fun m n => sparseMod (fun _ => (0 : Int)) m n (· + wheelDelta s n)) s.kin.src.whlAcc
  let cnt := [0, 1, 2, 3].foldl (fun m n => sparseSet (fun _ => 0) m n (rd s (ENC_WH_CNT n)).toNat) s.kin.src.whlCnt
  { s with kin := { s.kin with src := { s.kin.src with
      whlAcc := acc, whlCnt := cnt,
      lrnOk := s.kin.src.lrnOk && decide (absI s.kin.car.r < dps2) && decide (kmh2 ≤ absI s.kin.src.gnssU),
      gnssU := if imuOk s then s.kin.src.gnssU + roundDiv (imuAcc s) 4000 else s.kin.src.gnssU } } }

/-- The path coordinates of the channels in use. -/
def coordsOf (s : State) : List (Nat × Int) := (usedChannels s).map fun c => (c, (chKin s c).s)

/-- The largest |Δs| of the channels in use in this step, or the CRP's distance if none is in use, in 2^−24 × 0.25 mm (R66);
`old`: the coordinates before the step. -/
def largestMove (s : State) (old : List (Nat × Int)) : Nat :=
  match old with
  | [] => (absI (pathAdvance s.kin.car.u)).toNat
  | l => (l.map fun x => (absI ((chKin s x.1).s - x.2)).toNat).foldl max 0

/-- Show the pose in the registers (R73). -/
def showPose (s : State) : State :=
  let c := s.kin.car
  let i := s.kin.trl
  let put := fun (s : State) (f : Nat) (v : Int) => wr s f (BitVec.ofInt 32 v)
  let pos := fun (s : State) (lo hi : Nat) (v : Int) => wrPair s lo hi (unsigned 64 (v.fdiv 256))
  let s := pos s KIN_POS_E_LO KIN_POS_E_HI c.e
  let s := pos s KIN_POS_N_LO KIN_POS_N_HI c.n
  let s := put s KIN_HDG c.psi
  let s := put s KIN_SPD c.u
  let s := put s KIN_LAT c.w
  let s := put s KIN_YAWR c.r
  let s := put s KIN_ACC c.a
  let s := put s KIN_HITCH_ANG (if flag s KIN_CTRL_MODEL then s.kin.gamma else 0)
  let s := put s KIN_IMP_HDG i.psi
  let s := put s KIN_IMP_YAWR i.r
  let s := put s KIN_DR_DIST (min (s.kin.watch.drDist / 4000000) 0xFFFFFFFF : Nat)
  let s := wr s KIN_POSE_STEP (stepCnt s)
  let s := pos s KIN_IMP_E_LO KIN_IMP_E_HI i.e
  pos s KIN_IMP_N_LO KIN_IMP_N_HI i.n

/-- Correction and blend increments of this step, and the propagation of the carrier; `d`: how far the machine moved (R65, R66). -/
def propagate (s : State) (d : Nat) : State :=
  let sp := match s.kin.corr with
    | some c => spreadStep c
    | none => (none, 0, 0, 0)
  let bl := match s.kin.blend with
    | some b =>
      let x := blendStep b d
      (if x.1.left = 0 then none else some x.1, x.2)
    | none => (none, 0, 0, 0)
  let car := advance s.kin.car (sp.2.1 + bl.2.1) (sp.2.2.1 + bl.2.2.1) (sp.2.2.2 + bl.2.2.2)
  let s := { s with kin := { s.kin with car := car, corr := sp.1, blend := bl.1 } }
  implementPose (setB s KIN_STAT_BLEND s.kin.blend.isSome)

/-- Remember the pose and the filtered quantities of this step. -/
def remember (s : State) : State :=
  let c := s.kin.car
  let t := s.kin.trl
  { s with kin := { s.kin with
    hist := (poseNow s (stepCnt s) :: s.kin.hist).take 1024,
    filt := ([c.u, c.r, c.w, t.u, t.r, t.w] :: s.kin.filt).take 16 } }

/-- The carrier stands where the last solution puts it, at the CRP (R72). -/
def poseFromSol (s : State) : State := match s.kin.lastSol with
  | some x =>
    let psi := if x.hdgV then baselineHeading s x else s.kin.car.psi
    let p := solToCrp s x psi
    { s with kin := { s.kin with car := { s.kin.car with
      e := fit 48 p.1, n := fit 48 p.2, psi := psi, eR := 0, nR := 0, psiR := 0 } } }
  | none => s

/-- A solution while EN is 0; one that is stale is counted (R59, R72). -/
def idleSol (s : State) : State :=
  match s.kin.sol with
  | none => s
  | some x =>
    let s := { s with kin := { s.kin with sol := none } }
    if 1024 < stepsFrom x.step (stepCnt s) then bump s KIN_CNT_STALE_CNT
    else if x.type = 0 then s
    else showSigma { s with kin := { s.kin with lastSol := some x, watch := { s.kin.watch with gnssAge := some 0 } } } x

/-- KIN while EN is 0: both validities and CLASS are 0, nothing moves and the pose shows the solution at the CRP (R57, R72). -/
def kinIdle (s : State) : State :=
  let s := setF s KIN_STAT_CLASS 0
  let s := setB (setB s KIN_STAT_POSE_VALID false) KIN_STAT_MOTION_VALID false
  let s := idleSol { s with kin := { s.kin with watch := { s.kin.watch with gnssAge := s.kin.watch.gnssAge.map (· + 1), cls := 0 } } }
  let s := if gnssHere s then poseFromSol s else s
  let rest := fun (b : Body) => { b with u := 0, w := 0, r := 0, a := 0, alpha := 0, wdot := 0 }
  implementPose { s with kin := { s.kin with car := rest s.kin.car, trl := rest s.kin.trl,
                                             gamma := if flag s KIN_CTRL_MODEL then s.kin.gamma else 0 } }

/-- TYPE of the solution in use, 0 while GNSS is not present (R59). -/
def showType (s : State) : State :=
  setF s KIN_STAT_GNSS_TYPE (if gnssHere s then (s.kin.lastSol.map (·.type)).getD 0 else 0)

/-- Steps 1 and 2 while EN is 1: sources, motion, propagation; and the coordinates of step 3 on the way, as a blend goes with
them (R66). -/
def kinRun (s : State) : State :=
  let r := firstPose (latchSol s)
  let s := carrierMotion (hencStep r.1) r.2
  let s := takeCounts s
  let s := implementMotion (watchStep s s.kin.car.u)
  let old := coordsOf s
  let s := (usedChannels s).foldl channelMove s
  propagate s (largestMove s old)

/-- R48: the trailed body carries its zones from the first step in which KIN is enabled with the trailed model. -/
def noteTrailed (s : State) : State :=
  { s with kin := { s.kin with trailed := flag s KIN_CTRL_MODEL && (flag s KIN_CTRL_EN || s.kin.trailed) } }

/-- Steps 1 to 3 of the kinematic step for KIN (R19). -/
def kinStep (s : State) : State :=
  let s := noteTrailed s
  let s := if flag s KIN_CTRL_EN then kinRun s
    else
      let s := takeCounts (kinIdle s)
      (usedChannels s).foldl channelMove s
  let s := remember s
  let s := showPose (showType s)
  let s := (usedChannels s).foldl channelPlace s
  (s.kin.ch.map (·.1)).foldl channelRest s

/-- EN becomes 1: learned scales are 1.0 again, excluded wheels return, and dead reckoning counts from here; propagation starts
from the latest solution where GNSS is present, or from the held pose (R60, R69, R72). -/
def kinEnable (s : State) : State :=
  let s := [0, 1, 2, 3].foldl (fun s n => wr s (KIN_WHL_LRN n) 0x00010000#32) s
  let s := setF s KIN_STAT_WHL_FLT 0
  let age := if gnssHere s then s.kin.watch.gnssAge else none
  let s := { s with kin := { s.kin with
    watch := { KinWatch.zero with gnssAge := age, hencLast := s.kin.watch.hencLast }, corr := none, blend := none, filt := [],
    src := { KinSrc.zero with whlCnt := s.kin.src.whlCnt } } }
  match age, s.kin.lastSol with
  | some _, some x => takeVelocity (poseFromSol s) x
  | _, _ => s

/-- EN becomes 0 (R72). -/
def kinDisable (s : State) : State :=
  let s := setB (setB (setF s KIN_STAT_CLASS 0) KIN_STAT_POSE_VALID false) KIN_STAT_MOTION_VALID false
  let s := [KIN_STAT_STILL, KIN_STAT_BLEND, KIN_STAT_DIR_UNK, KIN_STAT_REV, KIN_STAT_HITCH_EST, KIN_STAT_HENC_FLT,
    KIN_STAT_TRL_INV].foldl (fun s f => setB s f false) s
  { (setF s KIN_STAT_HDG_SRC 0) with kin := { s.kin with corr := none, blend := none, watch := { s.kin.watch with hencGood := 0 } } }

/-! ### Events of KIN as rows of their own -/

/-- GNSS_LOST: no usable solution for 150 ms: class and validities are those of the sources that remain (R59, R69). -/
def gnssLost (s : State) : State :=
  if flag s KIN_CTRL_EN && !gnssHere s then
    let c := sourceClass s (validSources s)
    setValidity (latchLimit s c) c
  else s

/-- STANDSTILL: the conditions have held for KIN_STILL.TIME (R64). -/
def standstill (s : State) : State := if flag s KIN_CTRL_EN && stillDue s then applyStill s else s

/-- HITCH_ENCODER_FAIL (R54). -/
def hitchFail (s : State) : State :=
  if flag s KIN_CTRL_EN && hencUsed s && !flag s KIN_STAT_HENC_FLT && !hencGoodNow s then showHitch (hencFail s) else s

/-- HITCH_ENCODER_RETURN: valid words within ±80° for 100 ms (R54). -/
def hitchReturn (s : State) : State :=
  if flag s KIN_CTRL_EN && hencUsed s && flag s KIN_STAT_HENC_FLT && hencGoodNow s && decide (100 * stepsPerMs ≤ s.kin.watch.hencGood)
    then showHitch (hencReturn s) else s

/-- DR_LIMIT_PASSED: the limit of the present class has been passed (R69). -/
def drLimit (s : State) : State :=
  let c := getF s KIN_STAT_CLASS
  if flag s KIN_CTRL_EN && limitPassed s c then setValidity (latchLimit s c) c else s

def execGnssLost (s : State) : Host.Outcome State Fault Refusal := .next (gnssLost s)

def execStandstill (s : State) : Host.Outcome State Fault Refusal := .next (standstill s)

def execHitchEncoderFail (s : State) : Host.Outcome State Fault Refusal := .next (hitchFail s)

def execHitchEncoderReturn (s : State) : Host.Outcome State Fault Refusal := .next (hitchReturn s)

def execDrLimitPassed (s : State) : Host.Outcome State Fault Refusal := .next (drLimit s)

/-! ### The channel window (R74) -/

/-- The values of the KIN channel window for channel `c`, as latched by a write to KIN_CH_SEL: those of the last completed
step (R74). -/
def kinWindow (s : State) (c : Nat) : List (Nat × Word) :=
  let k := chKin s c
  let p := fun (v : Int) (i : Nat) => BitVec.ofNat 32 (unsigned 64 v / 2 ^ (32 * i))
  [(KIN_CH_STEP, stepCnt s), (KIN_CH_PC_LO, p (pcUnits k.s) 0), (KIN_CH_PC_HI, p (pcUnits k.s) 1),
   (KIN_CH_SPD, BitVec.ofInt 32 k.sdot), (KIN_CH_ACC, BitVec.ofInt 32 k.sddot), (KIN_CH_VLAT, BitVec.ofInt 32 k.vlat),
   (KIN_CH_E_LO, p (k.e.fdiv 256) 0), (KIN_CH_E_HI, p (k.e.fdiv 256) 1), (KIN_CH_N_LO, p (k.n.fdiv 256) 0),
   (KIN_CH_N_HI, p (k.n.fdiv 256) 1), (KIN_CH_FLAGS, BitVec.ofNat 32 k.flags)]

/-- The rules of a write to a KIN register: the value stored, or `none` where it is refused as invalid (chapter 2). -/
def kinStore (i : Nat) (v : Word) : Option Word :=
  if i = KIN_CTRL then
    if bitsOf v 3 2 = 3 then none else some (bitsSet v 23 20 (min 7 (bitsOf v 23 20)))
  else if i = KIN_BLEND_DIST then some (bitsSet v 14 0 (clampN 100 20000 (bitsOf v 14 0)))
  else if i = KIN_TRL_AXLE then if 4000 ≤ v.toInt ∧ v.toInt ≤ 120000 then some v else none
  else some v

/-- Registers that are written only while KIN_CTRL.EN is 0 (R46). -/
def kinFrozen (i : Nat) : Bool :=
  decide (i = KIN_TRL_AXLE) || decide (0x0808 ≤ i ∧ i ≤ 0x080E) || decide (i = KIN_HITCH_X) || decide (i = KIN_HITCH_Y)
    || decide (0x0818 ≤ i ∧ i ≤ 0x081B)

end Sys2Proof.Machine
end

