-- ==== Sys2Proof/Machine/SchBase.lean ====
section
/-!
DEFINITION. Sys2Proof/Machine/SchBase.lean: the Ladle (chapter 3): slots, their allocation and release, the words in which
a slot is shown, live delays, and the instants of the 5 ns grid.
-/
namespace Sys2Proof.Machine

/-! ### Instants -/

/-- 5 ns slots in a step (R19). -/
def slotsPerStep : Nat := 50000

/-- The instant of the present step boundary. -/
def nowTick (s : State) : Nat := s.now * slotsPerStep

/-- 5 ns slots in 10 µs, in 1 µs, in 0.1 ms and in 1 ms. -/
def per10us : Nat := 2000
def perUs : Nat := 200
def per100us : Nat := 20000
def perMs : Nat := 200000

/-! ### Single events over crossing 1 (R445)

Every source of events has a line of its own (DEDUCED, log entry 73). SCLK and EDGE come from one VCO, and every EDGE edge is an edge of
SCLK too (R441): the toggle is usable after 3 SCLK cycles and the acknowledgement is seen at the fourth EDGE edge. -/

/-- EDGE cycles from a toggle to the edge that ends its acknowledge phase. -/
def ackEdges : Nat := 4

/-- A line at an instant, and the events coalesced in phases that have ended by then. An event in the edge that ends a phase belongs
to it; a phase with events ends with one toggle, which opens the next. -/
def settleLine (x : EdgeLine) (t : Nat) : EdgeLine × Nat := match x.since with
  | none => (EdgeLine.idle, 0)
  | some a =>
    if t ≤ a + ackEdges then (x, 0)
    else if x.waits = 0 then (EdgeLine.idle, 0)
    else if t ≤ a + 2 * ackEdges then ({ since := some (a + ackEdges), waits := 0 }, x.waits - 1)
    else (EdgeLine.idle, x.waits - 1)

def lineAt (s : State) (l : Nat) : EdgeLine := sparseGet (fun _ => EdgeLine.idle) s.sys.lines l

def setLine (s : State) (l : Nat) (x : EdgeLine) : State :=
  { s with sys := { s.sys with lines := sparseSet (fun _ => EdgeLine.idle) s.sys.lines l x } }

/-- Phases that have ended leave their coalesced events in CLK_X_CNT.COALESCED. -/
def settleAt (s : State) (l t : Nat) : State :=
  let x := settleLine (lineAt s l) t
  bump (setLine s l x.1) (CLK_X_CNT_COALESCED 1) x.2

/-- An event arrives at the source of a line: the first toggles it, one in an acknowledge phase waits. -/
def edgeEvent (s : State) (l t : Nat) : State :=
  let s := settleAt s l t
  let x := lineAt s l
  setLine s l (if x.since.isSome then { x with waits := x.waits + 1 } else { x with since := some t })

/-- Crossing 1 at a step boundary: phases that have ended are counted, and STATE shows whether an event is in flight. -/
def crossBoundary (s : State) : State :=
  let s := (s.sys.lines.map (·.1)).foldl (fun s l => settleAt s l (nowTick s)) s
  setF s (CLK_X_EVT_STATE 1) (if s.sys.lines.isEmpty then 0 else 1)

/-- A source in reset sends nothing further (R447). -/
def dropLines (s : State) (p : Nat → Bool) : State := { s with sys := { s.sys with lines := sparseDrop p s.sys.lines } }

/-- Insert into an ordered list, after the elements that `le` puts before it. -/
def insertBy {α : Type} (le : α → α → Bool) (x : α) : List α → List α
  | [] => [x]
  | y :: r => if le x y then x :: y :: r else y :: insertBy le x r

/-- Sort a list; equal elements keep their order. -/
def sortBy {α : Type} (le : α → α → Bool) (l : List α) : List α := l.foldr (insertBy le) []

/-! ### Slots -/

/-- Number of slots (chapter 3). -/
def ladleSize : Nat := 1024

def evDef : Nat → EvSlot := fun _ => EvSlot.reset

def slotAt (s : State) (i : Nat) : EvSlot := sparseGet evDef s.sch.slots i

def modSlotAt (s : State) (i : Nat) (f : EvSlot → EvSlot) : State :=
  { s with sch := { s.sch with slots := sparseMod evDef s.sch.slots i f } }

def chSch (s : State) (c : Nat) : ChSch := sparseGet (fun _ => ChSch.reset) s.sch.ch c

def modChSch (s : State) (c : Nat) (f : ChSch → ChSch) : State :=
  { s with sch := { s.sch with ch := sparseMod (fun _ => ChSch.reset) s.sch.ch c f } }

/-- States of R80. -/
def stFree : Nat := 0
def stPending : Nat := 1
def stArmed : Nat := 2
def stLate : Nat := 3
def stIssued : Nat := 4
def stConfirmed : Nat := 5
def stDone : Nat := 6
def stCancelled : Nat := 7
def stPassed : Nat := 8

/-- The terminal states (R80). -/
def isTerminal (st : Nat) : Bool := decide (5 ≤ st)

/-- Slots in use. -/
def slotsInUse (s : State) : List Nat :=
  (s.sch.slots.filter fun e => decide (e.2.state ≠ stFree)).map (·.1)

/-- Slots in use whose content satisfies `p`. -/
def slotsWhere (s : State) (p : EvSlot → Bool) : List Nat :=
  (s.sch.slots.filter fun e => decide (e.2.state ≠ stFree) && p e.2).map (·.1)

def freeCount (s : State) : Nat := ladleSize - (slotsInUse s).length

/-- Slots that a host has in use (R95). -/
def hostUse (s : State) (h : Nat) : Nat := (slotsWhere s fun e => decide (e.d.origin = 1 ∧ e.d.host = h)).length

/-- Show the pool in SCH_STAT and SCH_HOST_LIM (chapter 3, SCH registers). -/
def showPool (s : State) : State :=
  let n := freeCount s
  let s := setF s SCH_STAT_FREE n
  let s := setF s SCH_STAT_MIN_FREE (min n (getF s SCH_STAT_MIN_FREE))
  let s := setB s SCH_STAT_QUOTA_ONLY (decide (n ≤ getF s SCH_QUOTA_VAL))
  let s := setB s SCH_STAT_EMPTY (decide (n = 0))
  hostSlots.foldl (fun s h => setF s (SCH_HOST_LIM_USED h) (hostUse s h)) s

/-- The first index from `i` on that is not in an ascending list. -/
def firstGap : List Nat → Nat → Nat
  | [], i => i
  | k :: r, i => if i = k then firstGap r (i + 1) else i

/-- The FREE slot that has been free for the longest time; a slot that was never used comes first, lowest index first (R77). -/
def longestFree (s : State) : Option Nat :=
  let g := firstGap (sparseKeys s.sch.slots) 0
  if g < ladleSize then some g
  else
    (s.sch.slots.foldl (fun (b : Option (Nat × Nat)) e =>
      if e.2.state = stFree then
        match b with
        | none => some (e.1, e.2.freed)
        | some x => if e.2.freed < x.2 then some (e.1, e.2.freed) else b
      else b) none).map (·.1)

/-- The quota rule of R95 lets an event of this origin and action take a slot. -/
def mayAllocate (s : State) (d : EvDesc) : Bool :=
  let n := freeCount s
  if d.origin ≠ 1 ∧ d.action = 1 then decide (0 < n)
  else decide (getF s SCH_QUOTA_VAL < n)
    && (decide (d.origin ≠ 1) || decide (hostUse s d.host < getF s (SCH_HOST_LIM_LIM d.host)))

/-- Put an event into slot `i`: PENDING with the next GEN (R76, R77, R81). -/
def fillSlot (s : State) (i : Nat) (d : EvDesc) (step : Word) : State :=
  showPool (modSlotAt s i fun e =>
    { EvSlot.reset with state := stPending, gen := (e.gen + 1) % 256, d := d, postStep := step, freed := e.freed })

/-- A slot becomes FREE: its content is cleared but for GEN (R82). -/
def freeSlot (s : State) (i : Nat) : State :=
  let q := s.sch.freeSeq + 1
  let s := modSlotAt s i fun e => { EvSlot.reset with gen := e.gen, freed := q }
  showPool { s with sch := { s.sch with freeSeq := q } }

/-- A slot takes a terminal state at the boundary that opens step `k` (R81, R82). -/
def endSlotAt (s : State) (i st k : Nat) : State :=
  modSlotAt s i fun e => { e with state := st, tr := { e.tr with endStep := k } }

/-- A slot takes a terminal state within a step: the transition takes effect at the coming boundary (R81). -/
def endSlot (s : State) (i st : Nat) : State := endSlotAt s i st (s.now + 1)

/-- Change the flags of a slot. -/
def modFlags (s : State) (i : Nat) (f : EvFlags → EvFlags) : State := modSlotAt s i fun e => { e with f := f e.f }

/-- The slot holds the edge that a reference names, and is in use. -/
def liveRef (s : State) (r : Nat × Nat) : Bool :=
  decide ((slotAt s r.1).gen = r.2) && decide ((slotAt s r.1).state ≠ stFree)

/-! ### Slot words (R76) -/

/-- Words 0 to 15 of a slot (R76). -/
def slotWords (e : EvSlot) : List Word :=
  let n := fun (x : Nat) => BitVec.ofNat 32 x
  let t := unsigned 40 e.d.tgt
  if e.state = stFree then n (e.gen * 2 ^ 24) :: List.replicate 15 0#32
  else
    [n (e.state + e.d.action * 2 ^ 4 + e.d.origin * 2 ^ 6 + e.d.ch * 2 ^ 8 + e.d.host * 2 ^ 17 + bit e.d.rev 19 + bit e.d.retain 20
        + bit e.f.lateF 21 + bit e.f.spec 22 + bit e.f.defer 23 + e.gen * 2 ^ 24),
     n t,
     n (t / 2 ^ 32 + bit e.f.phase 8 + bit e.d.punit 9 + bit e.f.noconf 10 + bit e.f.blocked 11 + bit e.f.horizon 12
        + bit e.f.held 13 + bit e.f.cxl 14 + bit e.f.exec 15 + e.d.tag * 2 ^ 16),
     n e.d.param, e.postStep, e.u.fireStep, n e.u.fireOfs, n (e.u.dUsed % 2 ^ 21),
     n (e.u.dAct % 2 ^ 17 + e.u.dDefer % 2 ^ 15 * 2 ^ 17), n (e.u.dFluid + e.u.dLink % 2 ^ 16 * 2 ^ 16),
     BitVec.ofInt 32 e.u.err, BitVec.ofInt 32 e.u.merr, n e.u.unwant, n (e.u.measDly % 2 ^ 17),
     n (match e.link with | some l => l % 1024 + 2 ^ 10 | none => 0), 0#32]

/-! ### Live delays (R83, R160) -/

/-- Word of DLY of a direction: EST, SRC and N. -/
def dlyWord (s : State) (c dir : Nat) : Nat := tnat s .dly c (4 * dir) 4

def dlyEst (s : State) (c dir : Nat) : Nat := dlyWord s c dir % 2 ^ 17
def dlySrc (s : State) (c dir : Nat) : Nat := dlyWord s c dir / 2 ^ 17 % 8
def dlyN (s : State) (c dir : Nat) : Nat := dlyWord s c dir / 2 ^ 20
def dlyStat (s : State) (c dir : Nat) : Nat := tnat s .dly c (8 + 4 * dir) 4 % 2 ^ 17
def dlyRef (s : State) (c dir : Nat) : Nat := tnat s .dly c (16 + 4 * dir) 4 % 2 ^ 17
def dlyConf (s : State) (c : Nat) : Nat := tnat s .dly c 24 4

/-- The fallback delay of a direction (R160). -/
def dlyDefault (s : State) (dir : Nat) : Nat := if dir = 0 then getF s ACT_DEF_ON_VAL else getF s ACT_DEF_OFF_VAL

/-- The source of the delay in use: learned, node and seeded estimates, the static value, the default (R160). -/
def delaySource (s : State) (c dir : Nat) : Nat :=
  let k := dlySrc s c dir
  if k = 2 ∨ k = 3 ∨ k = 4 then k else if dlyStat s c dir ≠ 0 then 1 else 0

/-- The live delay of a channel and direction, 10 µs (R160). -/
def liveDelay (s : State) (c dir : Nat) : Nat :=
  let k := delaySource s c dir
  if 2 ≤ k then dlyEst s c dir else if k = 1 then dlyStat s c dir else dlyDefault s dir

/-- SEC.D_FLUID of a channel, 10 µs (R78). -/
def fluidDelay (s : State) (c : Nat) : Nat := tnat s .sec c 2 2

/-- Ring, node address less 1 and node channel of a remote channel (R194). -/
def ringOf (c : Nat) : Nat := (c - 32) / 240
def nodeOf (c : Nat) : Nat := (c - 32) % 240 / 8
def nodeCh (c : Nat) : Nat := (c - 32) % 8

/-- D_link of a channel, µs (R83, R213). -/
def linkLead (s : State) (c : Nat) : Nat :=
  if isLocal c then 0 else getF s (FJL_NODE_DLY_DLINK (ringOf c) (nodeOf c))

/-! ### Requests and actual state -/

/-- Requests of a state word (R26). -/
def rqOff : Nat := 0
def rqAuto : Nat := 1
def rqOn : Nat := 2
def rqTest : Nat := 3
def rqInherit : Nat := 7

/-- The effective request of a channel from the requests on its path (R22, R24). -/
def effRequest (s : State) (c : Nat) : Nat :=
  if !chUsed s c then rqOff
  else
    let l := [getF s (SCH_CH_STATE_REQ c), getF s (SYS_SEC_STATE_REQ (chSection s c)), getF s (SYS_ZON_STATE_REQ (chZone s c)),
      getF s SYS_IMPL_STATE_REQ]
    if l.any (fun r => decide (r = rqOff)) then rqOff
    else (l.find? fun r => decide (r ≠ rqInherit)).getD rqOff

/-- The state that SCH last issued: 0 OFF, 1 ON, 2 MODULATED (R34). -/
def issuedState (s : State) (c : Nat) : Nat := sparseGet (fun _ => 0) s.sys.expected c

/-- Note the state that SCH issues and where it comes from (R29, R34). An OFF that the map still gives a channel in TEST is no ON
issued since its request became TEST: the note stands. -/
def noteIssued (s : State) (c st origin : Nat) : State :=
  let was := sparseGet (fun _ => 0) s.sys.lastOrigin c
  let from_ := if st = 0 ∧ origin = 1 ∧ was = 0 ∧ effRequest s c = rqTest then 0 else origin
  { s with sys := { s.sys with
    expected := sparseSet (fun _ => 0) s.sys.expected c st, lastOrigin := sparseSet (fun _ => 0) s.sys.lastOrigin c from_ } }

/-- The mode of a channel's output stage: DRV_CH_MODE, or the mode in force at its node (R176, R219). -/
def outMode (s : State) (c : Nat) : Nat :=
  if isLocal c then getF s (DRV_CH_MODE_MODE c) else (sparseGet (fun _ => RemCh.reset) s.fjl.ch c).mode

/-- The state that an ON edge issues on this channel: ON, or MODULATED in the modulated modes (R168). -/
def onState (s : State) (c : Nat) : Nat := if 2 ≤ outMode s c then 2 else 1

/-! ### Protective causes (R29) -/

/-- Protective causes that hold for a channel: bit k for cause k. -/
def protBits (s : State) (c : Nat) : Nat := sparseGet (fun _ => 0) s.sys.protCause c

def setProt (s : State) (c k : Nat) : State :=
  { s with sys := { s.sys with protCause := sparseSet (fun _ => 0) s.sys.protCause c (protBits s c ||| 2 ^ k) } }

/-- The output is energised or the channel re-commanded: no past cause remains (R29). -/
def clearProt (s : State) (c : Nat) : State :=
  { s with sys := { s.sys with protCause := sparseSet (fun _ => 0) s.sys.protCause c 0 } }

/-- Both hardware enables are active (R15). -/
def enablesOk (s : State) : Bool := s.sys.enA && !s.sys.enBN

end Sys2Proof.Machine
end

