-- ==== Sys2Proof/Machine/Act.lean ====
section
/-!
DEFINITION. Sys2Proof/Machine/Act.lean: actuator timing (chapter 5): detection windows, results, motion reports, the
learning filter, drift, table DLY and the ACT channel window.
-/
namespace Sys2Proof.Machine

/-! ### State of a channel -/

def learnKey (c dir : Nat) : Nat := 2 * c + dir

def learnAt (s : State) (c dir : Nat) : Learn := sparseGet (fun _ => Learn.reset) s.act.learn (learnKey c dir)

def modLearn (s : State) (c dir : Nat) (f : Learn → Learn) : State :=
  { s with act := { s.act with learn := sparseMod (fun _ => Learn.reset) s.act.learn (learnKey c dir) f } }

def winAt (s : State) (c : Nat) : Option ActWin := sparseGet (fun _ => none) s.act.win c

def setWin (s : State) (c : Nat) (w : Option ActWin) : State :=
  { s with act := { s.act with win := sparseSet (fun _ => none) s.act.win c w } }

def swingsAt (s : State) (c : Nat) : List Swing := sparseGet (fun _ => []) s.act.swings c

def setSwings (s : State) (c : Nat) (l : List Swing) : State :=
  { s with act := { s.act with swings := sparseSet (fun _ => []) s.act.swings c l } }

/-- Note a switching of the output; those older than 2 s are dropped, but for the last of them. -/
def addSwing (s : State) (c : Nat) (w : Swing) : State :=
  let l := swingsAt s c
  let old := nowTick s - 2000 * perMs
  setSwings s c (w :: (l.takeWhile fun x => decide (old ≤ x.tick)) ++ (l.dropWhile fun x => decide (old ≤ x.tick)).take 1)

/-! ### Flags of DLY word 7 (R161, R162) -/

def dlyFlags (s : State) (c : Nat) : Nat := tnat s .dly c 28 4

/-- Count the channels with flags in ACT_STAT. -/
def showActStat (s : State) : State :=
  let l := (tkeys s .dly).map fun c => dlyFlags s c
  let n := fun (p : Nat → Bool) => (l.filter p).length
  let s := setF s ACT_STAT_N_WARN (n fun w => w.testBit 0 || w.testBit 2)
  let s := setF s ACT_STAT_N_ALM (n fun w => w.testBit 1 || w.testBit 3)
  setF s ACT_STAT_N_NOSIG (n fun w => w.testBit 4 || w.testBit 5)

def setDlyFlags (s : State) (c w : Nat) : State := showActStat (tsetNat s .dly c 28 4 w)

/-- Set one of the six flags; going from 0 to 1 it is recorded with d̂ and REF (R161). -/
def raiseDlyFlag (s : State) (c k dir : Nat) : State :=
  if (dlyFlags s c).testBit k then s
  else
    record (setDlyFlags s c (dlyFlags s c + 2 ^ k)) 0x5002 c
      (leBytes 1 k ++ leBytes 4 (dlyEst s c dir) ++ leBytes 4 (dlyRef s c dir))

/-- Show MISSRUN: the larger of the two directions (R162). -/
def showMissRun (s : State) (c : Nat) : State :=
  tsetNat s .dly c 29 1 (min 255 (max (learnAt s c 0).missRun (learnAt s c 1).missRun))

/-! ### Closing a window (R153, R154) -/

/-- The counter of a result code (R153). -/
def resultCounter (r : Nat) : Option Field :=
  match r with
  | 1 => some ACT_CNT_DET_CNT
  | 2 => some ACT_CNT_REJ_CNT
  | 3 => some ACT_CNT_MISS_CNT
  | 4 => some ACT_CNT_MASK_CNT
  | 5 => some ACT_CNT_ABORT_CNT
  | 6 => some ACT_CNT_DIST_CNT
  | _ => none

/-- Store a result in LAST of its direction and count it (R153). -/
def storeResult (s : State) (c dir r m : Nat) : State :=
  let s := modLearn s c dir fun l => { l with lastM := m, lastRes := r }
  match resultCounter r with
  | some f => bump s f
  | none => s

/-- A result joins or ends the run of MISS and MASKED results; MISS_MAX of them set NOSIG (R161). -/
def missResult (s : State) (c dir r : Nat) : State :=
  if r = 3 ∨ r = 4 then
    let n := (learnAt s c dir).missRun + 1
    let s := showMissRun (modLearn s c dir fun l => { l with missRun := n }) c
    let m := getF s ACT_LRN_MISS_MAX
    if m ≠ 0 ∧ m ≤ n then raiseDlyFlag s c (4 + dir) dir else s
  else showMissRun (modLearn s c dir fun l => { l with missRun := 0 }) c

/-- Close the window of a channel, if one is open, with a result without a feature. -/
def closeWindow (s : State) (c r : Nat) : State :=
  match winAt s c with
  | some w => missResult (storeResult (setWin s c none) c w.dir r 0) c w.dir r
  | none => s

/-- The pin instant of a channel's next edge ends its window; what the window has found by then is reported yet (R154). -/
def cutWindow (s : State) (c t : Nat) : State :=
  match winAt s c with
  | some w =>
    let s := setWin s c none
    { s with act := { s.act with cut := s.act.cut ++ [(c, { w with stop := min w.stop t })] } }
  | none => s

/-! ### Opening a window (R151, R152, R155) -/

/-- Profile of a channel (R162). -/
def profileOf (s : State) (c : Nat) : Nat := dlyConf s c % 8

def relSense (s : State) (c : Nat) : Bool := (dlyConf s c).testBit 5

/-- START and LEN of a direction's window, 10 µs. -/
def winStart (s : State) (c dir : Nat) : Nat :=
  if dir = 0 then getF s (ACT_PRF_WON_START (profileOf s c)) else getF s (ACT_PRF_WOFF_START (profileOf s c))

def winLen (s : State) (c dir : Nat) : Nat :=
  if dir = 0 then getF s (ACT_PRF_WON_LEN (profileOf s c)) else getF s (ACT_PRF_WOFF_LEN (profileOf s c))

/-- The window that an edge at `te` opens (R149 to R152, R155). -/
def newWindow (s : State) (c dir te : Nat) (slot : Option (Nat × Nat)) (trail modul : Bool) : ActWin :=
  let p := profileOf s c
  let a := te + winStart s c dir * per10us
  { dir := dir, te := te, start := a, stop := a + winLen s c dir * per10us, slot := slot, trail := trail, modul := modul,
    taps := 2 ^ getF s (ACT_PRF_PULL_SMOOTH p)
    thr := if dir = 0 then getF s (ACT_PRF_PULL_DIP_MIN p) else getF s (ACT_PRF_REL_HUMP_MIN p)
    knee := if dir = 1 ∧ getF s (ACT_PRF_REL_RMODE p) = 1 then some (getF s (ACT_PRF_REL_KNEE p)) else none
    masked := false }

/-- An edge reaches the pin of a local channel at `te`: the window before it ends, and its own opens where R155 and R152 let it.
`mod`: an edge of the modulation. -/
def pinEdge (s : State) (c dir te : Nat) (slot : Option (Nat × Nat)) (trail modul : Bool) : State :=
  let s := cutWindow s c te
  if flag s ACT_CTRL_EN && decide (winLen s c dir ≠ 0) && decide (outMode s c ≠ 3) && (decide (dir = 0) || relSense s c) then
    setWin s c (some (newWindow s c dir te slot trail modul))
  else storeResult s c dir 0 0

/-! ### Motion (R87, R129, R148, R154) -/

/-- A motion reported at `at_` still confirms the edge of a slot: within D_ACT and SCH_CONF_TMO after the instant (R81, R156). The
leading edge of a PULSE ends no wait. -/
def inTime (s : State) (e : EvSlot) (trail : Bool) (at_ : Nat) : Bool :=
  (decide (e.d.action = 3) && !trail) || decide (at_ ≤ e.tr.fireAt + e.u.dAct * per10us + getF s SCH_CONF_TMO_VAL * perMs)

/-- Tell the switching and the slot of an edge about its measured motion, which is reported at `at_`: `m` in 10 µs. -/
def placeMotion (s : State) (c dir te tm m at_ : Nat) (slot : Option (Nat × Nat)) (trail : Bool) : State :=
  let s := setSwings s c ((swingsAt s c).map fun w =>
    if w.isOpen = decide (dir = 0) ∧ w.tick = te ∧ w.motion = none then { w with motion := some tm } else w)
  match slot with
  | none => s
  | some r =>
    if liveRef s r && inTime s (slotAt s r.1) trail at_ then
      modSlotAt s r.1 fun e => { e with
        u := { e.u with measDly := if e.d.action = 3 && !trail then e.u.measDly else m },
        tr := if trail then { e.tr with trailM := some tm } else { e.tr with leadM := some tm } }
    else s

/-- A motion falls within 50 µs of the start or end of another channel's peak phase in the group (R153, R183). -/
def disturbed (s : State) (c tm : Nat) : Bool :=
  let g := sparseGet (fun _ => DrvGrp.reset) s.drv.grp (c / 4)
  g.marks.any fun p => decide (p.1 ≠ c) && decide (tm ≤ p.2 + 50 * perUs ∧ p.2 ≤ tm + 50 * perUs)

/-- A measured delay in 10 µs, rounded to the nearest (R148). -/
def delayUnits (ticks : Nat) : Nat := (ticks + per10us / 2) / per10us

/-! ### The Tongs (R148 to R152) -/

/-- A moving average of `n` samples, times `n`. -/
def sums (n : Nat) : List Nat → List Nat
  | [] => []
  | x :: r =>
    let w := (x :: r).take n
    if w.length < n then [] else w.sum :: sums n r

/-- The smoothed current, times `n`, of samples of 1 µs from `t0` on, each at its instant less the group delay (R149). -/
def smoothed (n t0 : Nat) (l : List Nat) : List (Nat × Int) :=
  ((sums n l).zipIdx 0).map fun p => (t0 + perUs * p.2 + 100 * (n - 1), (p.1 : Int))

/-- The samples from the one on at which a dip is recognised: the current lies `k` or more below the largest before it (R150). A
current of 8,000 mA is 4,096 LSB. -/
def dipFrom (k : Int) : List (Nat × Int) → Int → List (Nat × Int)
  | [], _ => []
  | p :: r, pk =>
    let pk := max pk p.2
    if k ≤ (pk - p.2) * 8000 then p :: r else dipFrom k r pk

/-- The lowest point from there on, and the instant at which the current has risen by half of `k` above it (R150). -/
def lowestAt (k : Int) : List (Nat × Int) → Nat × Int → (Nat × Int) × Option Nat
  | [], b => (b, none)
  | p :: r, b => if p.2 < b.2 then lowestAt k r p else if k ≤ (p.2 - b.2) * 16000 then (b, some p.1) else lowestAt k r b

/-- The vertex of the parabola through the samples about `t`, 5 ns from `t` (R149). -/
def vertex (l : List (Nat × Int)) (t : Nat) : Int :=
  let at_ := fun (x : Nat) => (l.find? fun p => decide (p.1 = x)).map (·.2)
  match at_ (t - perUs), at_ t, at_ (t + perUs) with
  | some a, some b, some c => if a - 2 * b + c ≤ 0 then 0 else roundDiv (100 * (a - c)) (a - 2 * b + c).toNat
  | _, _, _ => 0

/-- What the Tongs have found in a window: the motion, when it was recognised, and when it is decided (R150, R152). -/
structure Feature where
  tm : Nat
  seen : Nat
  decided : Nat
  deriving DecidableEq, Repr

/-- The first dip of a window, or the first hump, which is a dip of the negated current (R150, R152). One that has not recovered by the
window's end, `last` being at or after it, is taken at its lowest point. -/
def findDip (w : ActWin) (l : List (Nat × Int)) (last : Nat) : Option Feature :=
  let l := if w.dir = 0 then l else l.map fun p => (p.1, -p.2)
  let k : Int := (w.thr * w.taps * 4096 : Nat)
  let inside := l.filter fun p => decide (w.start ≤ p.1 ∧ p.1 ≤ w.stop)
  match inside with
  | [] => none
  | f :: _ => match dipFrom k inside f.2 with
    | [] => none
    | p :: r =>
      let x := lowestAt k r p
      let tm := ((x.1.1 : Int) + vertex l x.1.1).toNat
      match x.2 with
      | some t => some { tm := tm, seen := p.1, decided := t }
      | none => if w.stop ≤ last then some { tm := tm, seen := p.1, decided := w.stop } else none

/-- Instants and magnitudes of the slope between consecutive samples. -/
def slopes : List (Nat × Int) → List (Nat × Nat)
  | p :: q :: r => (p.1, (q.2 - p.2).natAbs) :: slopes (q :: r)
  | _ => []

/-- The first instant after which the slope stays below `k`/256 of its largest value so far for 50 µs; `top`: that value, `run`: since
when and how long it has stayed below (R152). -/
def kneeIn (k : Nat) : List (Nat × Nat) → Nat → Nat × Nat → Option Nat
  | [], _, _ => none
  | p :: r, top, run =>
    let top := max top p.2
    if p.2 * 256 < k * top then
      let run := if run.2 = 0 then (p.1, 1) else (run.1, run.2 + 1)
      if 50 ≤ run.2 then some run.1 else kneeIn k r top run
    else kneeIn k r top (0, 0)

/-- What the Tongs find in a window from samples of 1 µs from `t0` on: they reach back to the window's start (R148 to R152). -/
def tongsFind (w : ActWin) (t0 : Nat) (l : List Nat) : Option Feature :=
  let x := smoothed w.taps t0 l
  let last := t0 + perUs * (l.length - 1)
  if w.start < t0 then none
  else match w.knee with
    | none => findDip w x last
    | some k => (kneeIn k (slopes (x.filter fun p => decide (w.start ≤ p.1 ∧ p.1 ≤ w.stop))) 0 (0, 0)).map fun t =>
        { tm := t, seen := t, decided := t + 50 * perUs }

/-- The instant at which a feature is reported: 50 µs after the motion at the earliest (R150). -/
def Feature.due (f : Feature) : Nat := max f.decided (f.tm + 50 * perUs)

/-- The parabola of R149 places a knee too, without saying how three samples of a knee do so: within half a sample its place is free
(log entry 60). -/
def placeFeature (s : State) (w : ActWin) (f : Feature) : State × Nat :=
  if w.knee.isSome then
    let x := fresh s
    (x.2, ((f.tm : Int) + clampI (-100) 100 (Config.freeInt x.1)).toNat)
  else (s, f.tm)

/-- A motion of a window is reported (R150, R153, R154). DETECTED waits for the filter at the next boundary (R157); DISTURBED is
settled at once. -/
def tongsReport (s : State) (c : Nat) (w : ActWin) (f : Feature) : State :=
  let p := placeFeature s w f
  let m := delayUnits (p.2 - w.te)
  let s := placeMotion p.1 c w.dir w.te p.2 m f.due w.slot w.trail
  if disturbed s c p.2 then missResult (storeResult s c w.dir 6 m) c w.dir 6
  else { s with act := { s.act with waiting := s.act.waiting ++ [{ ch := c, dir := w.dir, m := m, node := false, modul := w.modul }] } }

/-- The samples show a feature of the window whose report is due. -/
def reportDue (w : ActWin) (t0 : Nat) (l : List Nat) : Option Feature :=
  match tongsFind w t0 l with
  | some f => if f.due ≤ t0 + perUs * (l.length - 1) then some f else none
  | none => none

/-- The windows of a channel that may still be reported: those cut short, and the open one. -/
def windowsOf (s : State) (c : Nat) : List ActWin :=
  ((s.act.cut.filter fun e => decide (e.1 = c)).map (·.2)) ++ (winAt s c).toList

/-- Take a window away. -/
def dropWindow (s : State) (c : Nat) (w : ActWin) : State :=
  if winAt s c = some w then setWin s c none else { s with act := { s.act with cut := s.act.cut.erase (c, w) } }

/-! ### The learning filter (R157 to R161) -/

/-- d̂ of a direction, 10/256 µs. -/
def dHat (s : State) (c dir : Nat) : Nat := ((dlyEst s c dir : Int) * 256 + (learnAt s c dir).frac).toNat

/-- Write d̂, SRC and n_eff: EST is rounded to the nearest 10 µs (R157, R162). -/
def setEstimate (s : State) (c dir d src n : Nat) : State :=
  let d := min d (100000 * 256)
  let e := (d + 128) / 256
  let s := modLearn s c dir fun l => { l with frac := (d : Int) - 256 * e }
  tsetNat s .dly c (4 * dir) 4 (e + src * 2 ^ 17 + min n 4095 * 2 ^ 20)

/-- REF is captured: n_eff has reached MIN_N from `before` while REF is 0 (R161). -/
def captureRef (s : State) (c dir before : Nat) : State :=
  let minN := getF s ACT_LRN_MIN_N
  if flag s ACT_CTRL_AUTO_REF && decide (before < minN ∨ before = 0) && decide (minN ≤ dlyN s c dir) && decide (dlyRef s c dir = 0)
    then tsetNat s .dly c (16 + 4 * dir) 4 (dlyEst s c dir) else s

/-- Capture REF and evaluate drift after an accepted measurement: `before`, n_eff before it (R161). -/
def evalDrift (s : State) (c dir before : Nat) : State :=
  let s := captureRef s c dir before
  let ref := 256 * dlyRef s c dir
  if ref = 0 ∨ dlyN s c dir < getF s ACT_LRN_MIN_N then s
  else
    let dev : Int := (dHat s c dir : Int) - ref
    let s := modLearn s c dir fun l => { l with drift := some (clampI (-32767) 32767 (roundDiv (dev * 1000) ref)) }
    let beyond := fun (pc : Nat) => decide ((pc * ref : Int) ≤ 100 * absI dev)
    let s := if beyond (getF s ACT_WEAR_WARN) then raiseDlyFlag s c (2 * dir) dir else s
    if beyond (getF s ACT_WEAR_LIMIT) then raiseDlyFlag s c (2 * dir + 1) dir else s

/-- The gate, 10 µs (R157). -/
def gateWidth (s : State) (d : Nat) : Nat := max (getF s ACT_GATE_ABS * 256) (d * getF s ACT_GATE_REL / 256)

/-- A rejected measurement: it joins the run on its side of d̂, and a full run resets the estimate (R157). -/
def rejectMeas (s : State) (q : Meas) (d : Nat) : State :=
  let l := learnAt s q.ch q.dir
  let before := dlyN s q.ch q.dir
  let up := decide (d < q.m * 256)
  let same := decide (0 < l.runN) && decide (l.runUp = up)
  let n := if same then l.runN + 1 else 1
  let sum := if same then l.runSum + q.m else q.m
  let s := storeResult s q.ch q.dir 2 q.m
  let s := tsetNat s .dly q.ch 30 2 (min 0xFFFF (tnat s .dly q.ch 30 2 + 1))
  let rm := getF s ACT_LRN_REJ_MAX
  if 0 < rm ∧ n = rm then
    let s := modLearn s q.ch q.dir fun l => { l with runN := 0, runSum := 0 }
    let s := setEstimate s q.ch q.dir (roundDiv (sum * 256) n).toNat (if q.node then 4 else 3) rm
    let s := setDlyFlags s q.ch (dlyFlags s q.ch ||| 2 ^ 6)
    let s := record s 0x5001 q.ch (leBytes 1 q.dir ++ leBytes 4 (dlyEst s q.ch q.dir))
    evalDrift s q.ch q.dir before
  else modLearn s q.ch q.dir fun l => { l with runN := n, runSum := sum, runUp := up }

/-- An accepted measurement moves the estimate (R157). -/
def acceptMeas (s : State) (q : Meas) (d : Nat) : State :=
  let src := dlySrc s q.ch q.dir
  let fresh := decide (src < 2)
  let n := if fresh then 0 else dlyN s q.ch q.dir
  let w := max (max 1 (getF s ACT_LRN_W)) (256 / (n + 1))
  let d0 : Int := if fresh then 0 else d
  let d' := d0 + roundDiv (((q.m * 256 : Nat) - d0) * w) 256
  let s := storeResult s q.ch q.dir 1 q.m
  let s := modLearn s q.ch q.dir fun l => { l with runN := 0, runSum := 0 }
  evalDrift (setEstimate s q.ch q.dir d'.toNat (if q.node then 4 else 3) (n + 1)) q.ch q.dir n

/-- Learning is disabled for a measurement: by NOLRN, by NOPWM for an edge of the modulation, or with EN (R155, R157). -/
def notLearned (s : State) (q : Meas) : Bool :=
  (q.modul && (dlyConf s q.ch).testBit 4) || (dlyConf s q.ch).testBit 3 || !flag s ACT_CTRL_EN

/-- Filter one measurement (R157, R159). -/
def filterMeas (s : State) (q : Meas) : State :=
  let s := missResult s q.ch q.dir 1
  if notLearned s q then storeResult s q.ch q.dir 1 q.m
  else
    let d := dHat s q.ch q.dir
    let known := decide (2 ≤ dlySrc s q.ch q.dir)
    if known && decide (getF s ACT_LRN_MIN_N ≤ dlyN s q.ch q.dir)
        && decide ((gateWidth s d : Int) < absI ((q.m * 256 : Nat) - (d : Int))) then rejectMeas s q d
    else acceptMeas s q d

/-- Windows whose time for a report is over at a boundary close: MASKED at their start, MISS at their end, and ABORTED where the next edge
cut them short (R151, R153, R154). -/
def settleWindows (s : State) : State :=
  let t := nowTick s
  let done := fun (w : ActWin) => decide (w.stop + 50 * perUs ≤ t)
  let s := (s.act.cut.filter fun e => done e.2).foldl (fun s e => missResult (storeResult (dropWindow s e.1 e.2) e.1 e.2.dir 5 0) e.1 e.2.dir 5) s
  (sparseKeys s.act.win).foldl (fun s c => match winAt s c with
    | some w => if w.masked && decide (w.start ≤ t) then closeWindow s c 4 else if done w then closeWindow s c 3 else s
    | none => s) s

/-- Drift is not evaluated while REF is 0 or n_eff is below MIN_N (R161). -/
def clearDrift (s : State) : State :=
  (sparseKeys s.act.learn).foldl (fun s k =>
    if dlyRef s (k / 2) (k % 2) = 0 ∨ dlyN s (k / 2) (k % 2) < getF s ACT_LRN_MIN_N then modLearn s (k / 2) (k % 2) fun l => { l with drift := none }
    else s) s

/-- At a step boundary the waiting measurements are filtered (R157, R158). -/
def actBoundary (s : State) : State :=
  let s := settleWindows s
  let l := s.act.waiting
  clearDrift (l.foldl filterMeas { s with act := { s.act with waiting := [] } })

/-- A node reports a result for an edge at `te`, which arrives at `at_` (R156): DISTURBED and the results without a feature are decided
by the node. -/
def nodeResult (s : State) (c dir te res tm m at_ : Nat) (slot : Option (Nat × Nat)) (trail modul : Bool) : State :=
  if res = 1 ∨ res = 6 then
    let s := placeMotion s c dir te tm m at_ slot trail
    if res = 6 then missResult (storeResult s c dir 6 m) c dir 6
    else { s with act := { s.act with waiting := s.act.waiting ++ [{ ch := c, dir := dir, m := m, node := true, modul := modul }] } }
  else if res = 0 then storeResult s c dir 0 0
  else missResult (storeResult s c dir res 0) c dir res

/-! ### Table DLY (R162) -/

/-- An entry of a DLY write is within its rules: EST, STAT and REF at most 100,000 and reserved fields zero. -/
def dlyValid (b : List Byte) : Bool :=
  [0, 4].all (fun o => decide (leAt b o 4 % 2 ^ 17 ≤ 100000)) && [8, 12, 16, 20].all (fun o => decide (leAt b o 4 ≤ 100000))
    && decide (leAt b 24 4 < 256)

/-- Take one entry of a DLY write (R161, R162). -/
def dlyWrite (s : State) (c : Nat) (b : List Byte) : State :=
  let conf := leAt b 24 4
  let s := tput s .dly c (((tget s .dly c).take 8) ++ ((b.drop 8).take 16) ++ leBytes 4 (conf % 64) ++ (tget s .dly c).drop 28)
  [0, 1].foldl (fun s dir =>
    if conf.testBit (6 + dir) then
      let n := dlyN s c dir
      let s := modLearn s c dir fun l => { l with runN := 0, runSum := 0 }
      captureRef (setEstimate s c dir (leAt b (4 * dir) 4 % 2 ^ 17 * 256) 2 (getF s ACT_LRN_PRIOR_N)) c dir n
    else s) s

/-- An entry as it is read: SRC names the source of the value in use (R160, R162). -/
def dlyRead (s : State) (c : Nat) : List Byte :=
  let w := fun dir => leBytes 4 (dlyEst s c dir + delaySource s c dir * 2 ^ 17 + dlyN s c dir * 2 ^ 20)
  w 0 ++ w 1 ++ (tget s .dly c).drop 8

/-! ### Rows -/

/-- The samples of a channel's current, as 12-bit words (chapter 5, Signals and smoothing). -/
def samplesOk (l : List Nat) : Bool := l.all fun x => decide (x < 4096)

/-- MOTION_REPORT: from the samples of channel `c` from `t0` on, 1 µs apart, the Tongs report a motion of the first of its windows in
which one is due (R148 to R154). -/
def motionReport (s : State) (c t0 : Nat) (l : List Nat) : State :=
  match (windowsOf s c).find? fun w => (reportDue w t0 l).isSome with
  | some w => (match reportDue w t0 l with
    | some f => tongsReport (dropWindow s c w) c w f
    | none => s)
  | none => s

def execMotionReport (c t0 : Nat) (l : List Nat) (s : State) : Host.Outcome State Fault Refusal :=
  answer (decide (c < 32) && samplesOk l) (motionReport s c t0 l)

/-- Clear flags of word 7: the six flags and STEPCHG (R163). -/
def clearAlarm (s : State) (c v : Nat) : State := setDlyFlags s c (dlyFlags s c &&& (0xFFFFFFFF - v % 128))

/-! ### The channel window (R163) -/

def driftWord (o : Option Int) : Nat := match o with
  | some v => unsigned 16 v
  | none => 0x8000

/-- The values of the ACT channel window for channel `c` (R163). -/
def actWindow (s : State) (c : Nat) : List (Nat × Word) :=
  let a := learnAt s c 0
  let b := learnAt s c 1
  [(ACT_CH_STEP, stepCnt s), (ACT_CH_LAST_ON, BitVec.ofNat 32 (min a.lastM 0x1FFFF + a.lastRes * 2 ^ 17)),
   (ACT_CH_LAST_OFF, BitVec.ofNat 32 (min b.lastM 0x1FFFF + b.lastRes * 2 ^ 17)),
   (ACT_CH_DRIFT, BitVec.ofNat 32 (driftWord a.drift + driftWord b.drift * 2 ^ 16)),
   (ACT_CH_ALM, BitVec.ofNat 32 (dlyFlags s c % 128))]

/-- The rules of a write to an ACT register: the value stored, or none where it is invalid. -/
def actStore (i : Nat) (v : Word) : Option Word :=
  if i = ACT_LRN then some (if bitsOf v 7 0 = 0 then bitsSet v 7 0 1 else v)
  else if i = ACT_WEAR then if bitsOf v 15 8 < bitsOf v 7 0 then none else some v
  else if i = ACT_DEF_ON ∨ i = ACT_DEF_OFF then some (bitsSet v 16 0 (min 100000 (bitsOf v 16 0)))
  else if 0x0F10 ≤ i ∧ i < 0x0F30 then
    if i % 4 ≤ 1 then if 65535 < bitsOf v 15 0 + bitsOf v 31 16 then none else some v
    else if i % 4 = 2 then if 4 < bitsOf v 18 16 then none else some v
    else if 1 < bitsOf v 13 12 then none else some v
  else some v

/-- A reset of ACT (R39, R162). -/
def actReset (s : State) : State :=
  { tclear (resetRegs s fun i => decide (i / 256 = 0x0F)) .dly with act := ActState.reset }

end Sys2Proof.Machine
end

