-- ==== Sys2Proof/Machine/Drv.lean ====
section
/-!
DEFINITION. Sys2Proof/Machine/Drv.lean: the local valve drivers (chapter 6): edges at the pin, peak arbitration,
modulation, the value in force, protections, the enables' forced-off state, re-commands and the Kettle.
-/
namespace Sys2Proof.Machine

/-! ### Access -/

def drvChans : List Nat := List.range 32

def drvGroups : List Nat := List.range 8

/-- The group of a local channel and its channels (R164). -/
def groupOf (c : Nat) : Nat := c / 4

def groupChans (g : Nat) : List Nat := [4 * g, 4 * g + 1, 4 * g + 2, 4 * g + 3]

def drvCh (s : State) (c : Nat) : DrvCh := sparseGet (fun _ => DrvCh.reset) s.drv.ch c

def modDrvCh (s : State) (c : Nat) (f : DrvCh → DrvCh) : State :=
  { s with drv := { s.drv with ch := sparseMod (fun _ => DrvCh.reset) s.drv.ch c f } }

def drvGrp (s : State) (g : Nat) : DrvGrp := sparseGet (fun _ => DrvGrp.reset) s.drv.grp g

/-- The channel's partner follows it (R180). -/
def paired (s : State) (c : Nat) : Bool := flag s (DRV_CH_MODE_PAIR (c / 2 * 2))

/-- The channel whose edges and settings drive the output: the even one of a pair (R180). -/
def leadCh (s : State) (c : Nat) : Nat := if paired s c then c / 2 * 2 else c

/-- Change a group's arbitration and show it in DRV_GRP_STAT. -/
def modDrvGrp (s : State) (g : Nat) (f : DrvGrp → DrvGrp) : State :=
  let s := { s with drv := { s.drv with grp := sparseMod (fun _ => DrvGrp.reset) s.drv.grp g f } }
  let x := drvGrp s g
  let s := setB s (DRV_GRP_STAT_PEAKING g) x.peak.isSome
  let s := setF s (DRV_GRP_STAT_PEAK_CH g) (match x.peak with | some p => p.1 % 4 | none => 0)
  setF s (DRV_GRP_STAT_NWAIT g) x.queue.length

/-- STATE codes of DRV_CH_STAT. -/
def dsOff : Nat := 0
def dsWait : Nat := 1
def dsPeak : Nat := 2
def dsHold : Nat := 3
def dsLow : Nat := 4
def dsProp : Nat := 5
def dsRelease : Nat := 6

/-- Set STATE of a channel, and of its partner in a pair (R180). -/
def setDrvState (s : State) (c st : Nat) : State :=
  let s := setF s (DRV_CH_STAT_STATE c) st
  if paired s c && decide (c % 2 = 0) then setF s (DRV_CH_STAT_STATE (c + 1)) st else s

/-! ### What permits an output (R30, R166, R168, R184, R187, R191) -/

def chHold (s : State) (c : Nat) : Nat := sparseGet (fun _ => 0) s.drv.chHold c
def grpHold (s : State) (g : Nat) : Nat := sparseGet (fun _ => 0) s.drv.grpHold g

/-- The high-side switch of a group is closed (R166). -/
def hsMayClose (s : State) (g : Nat) : Bool :=
  flag s DRV_CTRL_EN && flag s (DRV_GRP_CTRL_EN g) && enablesOk s && !s.sys.tripped && decide (grpHold s g = 0)

/-- Priority class of a channel: the even channel's in a pair (R180, R191). -/
def prioOf (s : State) (c : Nat) : Nat := getF s (DRV_CH_MODE_PRIO (leadCh s c))

def limOf (s : State) (c : Nat) : Nat := getF s (DRV_KET_LIM_LIM (prioOf s c))

def forcedOff (s : State) (c : Nat) : Bool := flag s (DRV_CH_STAT_FORCED c)

/-- No configuration lets the channel be energised: MODE OFF, high-side switch open or DRV_CTRL.EN 0 (R168). -/
def unconfigured (s : State) (c : Nat) : Bool :=
  decide (getF s (DRV_CH_MODE_MODE c) = 0) || !flag s (DRV_GRP_STAT_HS_ON (groupOf c)) || !flag s DRV_CTRL_EN

/-- A protective stage holds the channel off (R31). -/
def protectedOff (s : State) (c : Nat) : Bool :=
  forcedOff s c || decide (chHold s c ≠ 0) || (paired s c && decide (chHold s (c / 2 * 2) ≠ 0 ∨ chHold s (c / 2 * 2 + 1) ≠ 0))
    || decide (grpHold s (groupOf c) ≠ 0) || decide (limOf s c = 0)

/-- The slot of an edge completes as BLOCKED (R106). -/
def blockSlot (s : State) (slot : Option Nat) : State :=
  match slot with
  | some i => modFlags s i fun f => { f with blocked := true }
  | none => s

/-- Reference to the slot of an edge with its GEN. -/
def slotRef (s : State) (slot : Option Nat) : Option (Nat × Nat) := slot.map fun i => (i, (slotAt s i).gen)

/-- The edge is the trailing edge of a PULSE (R75). -/
def isTrail (s : State) (e : Edge) : Bool :=
  match e.slot with
  | some i => decide ((slotAt s i).d.action = 3) && decide (e.kind = 1)
  | none => false

/-- Show the high-side switches in DRV_GRP_STAT and DRV_STAT (R166). -/
def showGroups (s : State) : State :=
  let s := drvGroups.foldl (fun s g => setB s (DRV_GRP_STAT_HS_ON g) (hsMayClose s g)) s
  let s := setF s DRV_STAT_GRP_ON ((drvGroups.map fun g => bit (flag s (DRV_GRP_STAT_HS_ON g)) g).sum)
  setF s DRV_STAT_GRP_FLT ((drvGroups.map fun g => bit (decide (grpHold s g ≠ 0)) g).sum)

/-! ### The value in force (R176, R177) -/

/-- V_base of a RATE event, × 65,536 (R176, R216). -/
def rateBase (offset : Int) (gain rate : Nat) : Int := offset * 65536 + (rate * gain : Nat)

/-- V_max of a local channel (R176, R499). -/
def vMax (s : State) (c : Nat) : Nat :=
  if outMode s c = 2 then 1000
  else ((if paired s c then 6000 else 3000) * 200 + (200 + getF s (DRV_CH_DITH_DAMP c)) / 2) / (200 + getF s (DRV_CH_DITH_DAMP c))

/-- The turn factor that applies to a channel, 4.12 (R138, R176). -/
def turnFactor (s : State) (c : Nat) : Nat :=
  if flag s (MAP_ZONE_TC_EN (chZone s c)) then (sparseGet (fun _ => ChMap.reset) s.map.ch c).k else 0x1000

/-- V as R176 forms it from V_base, the turn factor and the Kettle limit. -/
def formValue (s : State) (c : Nat) : Nat :=
  let v := roundDiv ((drvCh s c).vbase * turnFactor s c * limOf s c) (65536 * 4096 * 64)
  (clampI 0 (vMax s c) v).toNat

/-- The value in force V of a channel (R176). -/
def valueInForce (s : State) (c : Nat) : Nat := (drvCh s c).val

/-- Form V of a channel and report it in DRV_CH_OUT (R176). -/
def showValue (s : State) (c : Nat) : State :=
  let s := modDrvCh s c fun d => { d with val := if 2 ≤ outMode s c then formValue s c else 0 }
  let s := setF s (DRV_CH_OUT_VAL c) (valueInForce s c)
  let s := setB s (DRV_CH_OUT_SRC c) (drvCh s c).fromRate
  setF s (DRV_CH_OUT_PHASE c) (drvCh s c).phase

/-- DRV_CH_SET supplies V_base (R176). -/
def setBase (s : State) (c v : Nat) : State :=
  modDrvCh s c fun d => { d with vbase := (v : Int) * 65536, fromRate := false }

/-- A RATE event reaches a local channel (R176, R177). A protective stage suppresses its effect on the output, and its slot is BLOCKED
(R106); V_base follows the event all the same (DESIGN CHOICE, log entry 61). -/
def rateEdge (s : State) (e : Edge) : State :=
  let gain := getF s (DRV_CH_RMAP_GAIN e.ch)
  let s := if protectedOff s e.ch then blockSlot s e.slot else s
  if gain = 0 ∨ getF s (DRV_CH_MODE_MODE e.ch) < 2 then s
  else
    let v := rateBase (getI s (DRV_CH_RMAP_OFFSET e.ch)) gain e.rate
    showValue (modDrvCh s e.ch fun d => { d with vbase := v, fromRate := true }) e.ch

/-! ### The grid (R173, R174) -/

/-- Twice 10^9 slots of 5 ns: 10 s. -/
def tenSec : Nat := 2000000000

def tminOf (s : State) (c : Nat) : Nat := getF s (DRV_CH_PWM_TMIN c) * per100us

/-- Period and on time of a channel, 5 ns (R173). -/
def pwmPeriod (s : State) (c : Nat) : Nat := tenSec / max 1 (drvCh s c).freq

def pwmOn (s : State) (c : Nat) : Nat := (valueInForce s c * tenSec + max 1 (drvCh s c).freq * 500) / (max 1 (drvCh s c).freq * 1000)

/-- The instant of rise j: t_ref + (j + φ/256)·P, to the nearest 5 ns (R173). -/
def gridRise (s : State) (c j : Nat) : Nat :=
  let d := drvCh s c
  let f := max 1 d.freq
  d.tref + ((256 * j + d.phase) * tenSec + 128 * f) / (256 * f)

/-- The first rise after instant `t` (R173). -/
def riseAfter (s : State) (c t : Nat) : Nat :=
  let j := (t - (drvCh s c).tref) / max 1 (pwmPeriod s c)
  let cand := [j - 1, j, j + 1, j + 2].map fun k => gridRise s c k
  (cand.find? fun x => decide (t < x)).getD (gridRise s c (j + 3))

/-- Rule 1 of R174: the on time is too short for any pulse. -/
def noPulse (s : State) (c : Nat) : Bool := decide (pwmOn s c < tminOf s c)

/-- Rule 2 of R174: the low phase is too short for any fall. -/
def staysOpen (s : State) (c : Nat) : Bool := decide (pwmPeriod s c < pwmOn s c + tminOf s c)

/-- MODE becomes NOZZLE_PWM at instant `t`, or FREQ or the written PHASE comes into force there: t_ref moves there. The next rise of an
open channel is the first one of the new grid that is not before the one due (R173, R174; DEDUCED, log entry 61). -/
def regrid (s : State) (c t : Nat) : State :=
  let ph := getF s (DRV_CH_PWM_PHASE c)
  let due := (drvCh s c).rise
  let s := modDrvCh s c fun d => { d with
    tref := t, freq := getF s (DRV_CH_PWM_FREQ c), written := ph, phase := if s.drv.stag && flag s (DRV_CH_PWM_AUTO_STAG c) then d.phase else ph }
  match due with
  | some r => modDrvCh s c fun d => { d with rise := some (riseAfter s c (r - 1)) }
  | none => s

/-- FREQ and PHASE as they were written come into force at a boundary (R169, R173). -/
def gridBoundary (s : State) (c : Nat) : State :=
  let d := drvCh s c
  if d.freq = getF s (DRV_CH_PWM_FREQ c) ∧ d.written = getF s (DRV_CH_PWM_PHASE c) then s else regrid s c (nowTick s)

/-- The Kettle gives a channel another phase: the next rise is delayed, never advanced (R174, R190). -/
def rephase (s : State) (c φ : Nat) : State :=
  if (drvCh s c).phase = φ then s
  else
    let old := (drvCh s c).rise
    let s := modDrvCh s c fun d => { d with phase := φ }
    match old with
    | some t => modDrvCh s c fun d => { d with rise := some (riseAfter s c (t - 1)) }
    | none => s

/-! ### Peak arbitration (R181 to R183) -/

/-- T_PEAK of a channel in 5 ns. -/
def peakTime (s : State) (c : Nat) : Nat := getF s (DRV_CH_PEAK_T_PEAK c) * per100us

/-- A peak phase of channel `c` starts at `t` (R171, R181). -/
def startPeak (s : State) (c t : Nat) : State :=
  let s := modDrvGrp s (groupOf c) fun g =>
    { g with peak := some (c, t, t + peakTime s c), marks := (c, t) :: (g.marks.filter fun p => decide (t ≤ p.2 + 1000 * perMs)) }
  let s := modDrvCh s c fun d => { d with coil := true }
  clearProt (setDrvState s c dsPeak) c

/-- The delay by which an edge's motion is estimated: that of its slot at the hand-over, or the live one where it has no slot (R131). -/
def edgeDelay (s : State) (e : Edge) : Nat := if e.slot.isSome then e.delay else liveDelay s e.ch e.kind

/-- The opening edge of a channel reaches the pin at `t`; `due`: when it fell due (R167, R171, R174). Without a pulse the pin stays
still, and no window opens (R155, R174). -/
def openAt (s : State) (e : Edge) (due t : Nat) : State :=
  let c := e.ch
  let still := decide (getF s (DRV_CH_MODE_MODE c) = 2) && noPulse s c
  let s := if still then storeResult s c 0 0 0 else pinEdge s c 0 t (slotRef s e.slot) false false
  let s := addSwing s c { isOpen := true, tick := t, est := edgeDelay s e, motion := none, slot := slotRef s e.slot }
  let s := modDrvCh s c fun d => { d with isOpen := true, te := t, sensed := false, first := true }
  match getF s (DRV_CH_MODE_MODE c) with
  | 1 => startPeak s c t
  | 2 =>
    let s := modDrvCh s c fun d => { d with rise := some (riseAfter s c t), fall := none }
    if still then clearProt (setDrvState s c dsLow) c
    else
      let s := startPeak s c t
      if staysOpen s c then s
      else modDrvCh s c fun d => { d with fall := some (max (due + pwmOn s c) (if due < t then t + tminOf s c else 0)) }
  | _ =>
    let s := modDrvCh s c fun d => { d with integ := 0, coil := decide (0 < valueInForce s c) }
    clearProt (setDrvState s c dsProp) c

/-- A pulse rise of an open channel at `t`, with its grid fall (R174, R175). -/
def pulseAt (s : State) (c t : Nat) : State :=
  let s := pinEdge s c 0 t none false true
  startPeak (modDrvCh s c fun d => { d with first := false }) c t

/-- The wait of a granted channel is shown and counted; a grant in the slot in which the edge fell due is none (R183). -/
def noteWait (s : State) (w : Waiting) (t : Nat) : State :=
  if t ≤ w.due then s
  else bump (setF s (DRV_CH_STAT_DEFER_LAST w.ch) (min 0xFFFF ((t - w.due) / per10us))) DRV_CNT_DEFER_CNT

/-- The slot of an edge that was held for its peak fires at its grant, `t` (R80, R94: the slot is ARMED while DRV holds the edge). -/
def refire (s : State) (i : Option Nat) (t : Nat) : State :=
  match i with
  | some i => modSlotAt s i fun e => { e with tr := { e.tr with fireAt := if e.d.action = 3 then e.tr.fireAt else t } }
  | none => s

/-- Grant the first waiting channel of a group with its pin edge at `t`; a pulse of which less than TMIN would remain is
omitted (R175, R181). `n` bounds the channels looked at. -/
def grantNext : Nat → State → Nat → Nat → State
  | 0, s, _, _ => s
  | n + 1, s, g, t =>
    match (drvGrp s g).queue with
    | [] => s
    | w :: rest =>
      let s := modDrvGrp s g fun x => { x with queue := rest }
      match w.edge with
      | some e => openAt (refire (noteWait s w t) e.slot t) e w.due t
      | none =>
        let short := match (drvCh s w.ch).fall with
          | some f => decide (f < t + tminOf s w.ch)
          | none => false
        if short then
          grantNext n (setDrvState (modDrvCh (bump s DRV_CNT_SKIP_CNT) w.ch fun d => { d with fall := none }) w.ch dsLow) g t
        else pulseAt (noteWait s w t) w.ch t

/-- The peak in progress of a group ends at `stop`; the next pin edge is at `next` (R171, R181). -/
def endPeak (s : State) (g stop next : Nat) : State :=
  match (drvGrp s g).peak with
  | none => s
  | some p =>
    let s := modDrvGrp s g fun x => { x with peak := none, marks := (p.1, stop) :: x.marks }
    grantNext (drvGrp s g).queue.length s g next

/-- T_PEAK of the channel in peak phase expires: it goes to hold, and the next one is granted (R171). -/
def peakExpires (s : State) (g : Nat) : State :=
  match (drvGrp s g).peak with
  | none => s
  | some p => endPeak (setDrvState s p.1 dsHold) g p.2.2 p.2.2

/-- End the peaks that are over by instant `t`. -/
def settlePeaks : Nat → State → Nat → Nat → State
  | 0, s, _, _ => s
  | n + 1, s, g, t =>
    match (drvGrp s g).peak with
    | some p => if p.2.2 ≤ t then settlePeaks n (peakExpires s g) g t else s
    | none => s

/-- Insert a waiting channel: in the order due, then by channel number (R181). -/
def enqueue (l : List Waiting) (w : Waiting) : List Waiting :=
  (l.takeWhile fun x => decide (x.due < w.due) || (decide (x.due = w.due) && decide (x.ch < w.ch))) ++ w
    :: (l.dropWhile fun x => decide (x.due < w.due) || (decide (x.due = w.due) && decide (x.ch < w.ch)))

/-- An ON edge of the channel takes a peak phase (R178, R181). -/
def takesPeak (s : State) (c : Nat) : Bool :=
  isLocal c && (decide (getF s (DRV_CH_MODE_MODE c) = 1) || (decide (getF s (DRV_CH_MODE_MODE c) = 2) && !noPulse s c))

/-- An edge in the issue stage whose peak comes before one of channel `c` that fell due at `t` (R181). -/
def peakAhead (s : State) (c t : Nat) (e : Edge) : Bool :=
  decide (e.kind = 0) && decide (groupOf e.ch = groupOf c) && takesPeak s e.ch
    && (decide (e.tick < t) || (decide (e.tick = t) && decide (e.ch < c)))

/-- Another channel of the group is in peak phase at `t`, or has an edge due in the same slot and a lower number (R181). -/
def mustWait (s : State) (c t : Nat) : Bool :=
  let g := drvGrp s (groupOf c)
  (match g.peak with
    | some p => decide (p.1 ≠ c) && decide (t < p.2.2)
    | none => false)
  || !g.queue.isEmpty || s.sch.edges.any (peakAhead s c t)

/-- A channel waits for its peak: STATE WAIT, CAUSE 0xA for an edge (R182). -/
def waitPeak (s : State) (w : Waiting) : State :=
  setDrvState (modDrvGrp s (groupOf w.ch) fun g => { g with queue := enqueue g.queue w }) w.ch dsWait

/-- Where no peak is in progress the queue moves on at `t`, unless an edge that goes before it has not left the issue stage yet
(R181). -/
def idleGrant (s : State) (g t : Nat) : State :=
  match (drvGrp s g).peak, (drvGrp s g).queue with
  | none, w :: _ => if s.sch.edges.any (peakAhead s w.ch w.due) then s else grantNext (drvGrp s g).queue.length s g t
  | _, _ => s

/-- Leave the queue. -/
def dropWaiting (s : State) (c : Nat) : State :=
  modDrvGrp s (groupOf c) fun g => { g with queue := g.queue.filter fun w => decide (w.ch ≠ c) }

def waitingOf (s : State) (c : Nat) : Option Waiting := (drvGrp s (groupOf c)).queue.find? fun w => decide (w.ch = c)

/-! ### Edges at the pin (R167, R168, R171, R172, R182) -/

/-- The channel is open, or will be at its grant. -/
def openOrWaiting (s : State) (c : Nat) : Bool := (drvCh s c).isOpen || (waitingOf s c).isSome

/-- An opening edge that has no effect at the pin: it opens no window, and the queue of its group moves on (R153, R155, R169). -/
def stillEdge (s : State) (e : Edge) : State := idleGrant (storeResult s e.ch 0 0 0) (groupOf e.ch) e.tick

/-- An opening edge leaves the issue stage. -/
def openEdge (s : State) (e : Edge) : State :=
  let c := e.ch
  let s := noteIssued s c (onState s c) e.origin
  if unconfigured s c then stillEdge (blockSlot (setProt (setB s (DRV_CH_FLT_NOCFG c) true) c 3) e.slot) e
  else if protectedOff s c then stillEdge (blockSlot s e.slot) e
  else if openOrWaiting s c then stillEdge s e
  else
    let s := settlePeaks 8 s (groupOf c) e.tick
    if takesPeak s c && mustWait s c e.tick then
      idleGrant (waitPeak s { ch := c, due := e.tick, edge := some e }) (groupOf c) e.tick
    else openAt s e e.tick e.tick

/-- The output of an open channel closes at `t`; a peak of it ends, and the next pin edge of the group is at `next`. -/
def releaseAt (s : State) (c t next : Nat) (sense : Bool) : State :=
  let s := modDrvCh s c fun d => { d with isOpen := false, coil := false, rise := none, fall := none, sensed := sense, duty := 0 }
  let s := setDrvState s c (if sense then dsRelease else dsOff)
  match (drvGrp s (groupOf c)).peak with
  | some p => if p.1 = c then endPeak s (groupOf c) t next else s
  | none => s

/-- A closing edge leaves the issue stage. One that moves no switch opens no window (R153, R155). -/
def closeEdge (s : State) (e : Edge) : State :=
  let c := e.ch
  let s := noteIssued s c 0 e.origin
  match waitingOf s c with
  | some w =>
    -- R182: the waiting edge leaves the queue; an ON completes with NOCONF
    let s := storeResult (storeResult (setDrvState (dropWaiting s c) c dsOff) c 0 0 0) c 1 0 0
    let s := modDrvCh s c fun d => { d with isOpen := false, rise := none, fall := none }
    match w.edge with
    | some x => (match x.slot with
      | some i => modFlags s i fun f => { f with noconf := true }
      | none => s)
    | none => addSwing s c { isOpen := false, tick := e.tick, est := edgeDelay s e, motion := none, slot := slotRef s e.slot }
  | none =>
    if protectedOff s c then storeResult (blockSlot s e.slot) c 1 0 0
    else if !(drvCh s c).isOpen then storeResult s c 1 0 0
    else
      let s := settlePeaks 8 s (groupOf c) e.tick
      let d := drvCh s c
      let sense := relSense s c && decide (getF s (DRV_CH_MODE_MODE c) ≠ 3) && (d.coil || d.sensed)
      let s := if d.coil then pinEdge s c 1 e.tick (slotRef s e.slot) (isTrail s e) false else storeResult s c 1 0 0
      let s := addSwing s c { isOpen := false, tick := e.tick, est := edgeDelay s e, motion := none, slot := slotRef s e.slot }
      releaseAt s c e.tick e.tick sense

/-- The earliest edge of a channel in the issue stage (R86). -/
def firstEdge (s : State) (c : Nat) : Option Edge :=
  (s.sch.edges.filter fun e => decide (e.ch = c)).foldl (fun b e => match b with
    | none => some e
    | some x => if e.tick < x.tick then some e else b) none

/-- Remove an edge from the issue stage. -/
def takeEdge (s : State) (e : Edge) : State := { s with sch := { s.sch with edges := s.sch.edges.erase e } }

/-- Fire the earliest edge of a channel (R3, R86). -/
def fireEdge (s : State) (c : Nat) : State :=
  match firstEdge s c with
  | none => s
  | some e =>
    let s := takeEdge s e
    if e.kind = 0 then openEdge s e else if e.kind = 1 then closeEdge s e else rateEdge s e

/-- EDGE_FIRE: the next edge of channel `c` leaves the issue stage at its instant (R86). -/
def execEdgeFire (c : Nat) (s : State) : Host.Outcome State Fault Refusal := answer (decide (c < 32)) (fireEdge s c)

/-- The channel is in peak phase at `t` (R171, R181). -/
def inPeak (s : State) (c t : Nat) : Bool := match (drvGrp s (groupOf c)).peak with
  | some p => decide (p.1 = c ∧ p.2.1 ≤ t ∧ t < p.2.2)
  | none => false

/-- The current reaches I_PEAK at `t`, with the samples of the channel from `t0` on: regulation starts. An ON window in which no dip has
been recognised closes MASKED, at its start where that is still to come (R151, R171). -/
def peakReached (s : State) (c t t0 : Nat) (l : List Nat) : State :=
  match winAt s c with
  | some w =>
    let seen := match tongsFind { w with stop := min w.stop t } t0 l with
      | some f => decide (f.seen ≤ t)
      | none => false
    if w.dir ≠ 0 || !inPeak s c t || seen then s
    else if t < w.start then setWin s c (some { w with masked := true })
    else closeWindow s c 4
  | none => s

/-- PEAK_CURRENT_REACHED (R151, R171). -/
def execPeakCurrentReached (c t t0 : Nat) (l : List Nat) (s : State) : Host.Outcome State Fault Refusal :=
  answer (decide (c < 32) && samplesOk l) (peakReached s c t t0 l)

/-- PEAK_END: T_PEAK of group `g`'s peak expires (R171). -/
def execPeakEnd (g : Nat) (s : State) : Host.Outcome State Fault Refusal := answer (decide (g < 8)) (peakExpires s g)

/-- The fall of a pulse of an open channel at `t`: the release starts, and a peak of the channel ends (R172, R174, R181). -/
def pinFall (s : State) (c t : Nat) : State :=
  let s := pinEdge s c 1 t none false true
  let s := modDrvCh s c fun d => { d with coil := false, fall := none, sensed := relSense s c }
  let s := setDrvState s c dsLow
  match (drvGrp s (groupOf c)).peak with
  | some p => if p.1 = c then endPeak s (groupOf c) t t else s
  | none => s

/-- A pulse that still waits for its peak when the next rise comes is omitted where its grid fall leaves it no time (R175). -/
def omitWaiting (s : State) (c t : Nat) : State :=
  match waitingOf s c, (drvCh s c).fall with
  | some w, some f => if w.edge.isNone ∧ f < t + tminOf s c then
      modDrvCh (dropWaiting (bump s DRV_CNT_SKIP_CNT) c) c fun d => { d with fall := none } else s
  | _, _ => s

/-- A grid rise of an open NOZZLE_PWM channel (R174, R175). -/
def gridRiseEdge (s : State) (c : Nat) : State :=
  match (drvCh s c).rise with
  | none => s
  | some t =>
    let s := omitWaiting (settlePeaks 8 s (groupOf c) t) c t
    let s := modDrvCh s c fun d => { d with rise := some (riseAfter s c t) }
    let on := (drvCh s c).coil
    -- the first pulse closes at t_e + h whatever rise falls within it
    if (waitingOf s c).isSome || (on && (drvCh s c).fall.isSome) then s
    else if noPulse s c then (if on then pinFall s c t else s)
    else
      let s := modDrvCh s c fun d => { d with fall := if staysOpen s c then none else some (t + pwmOn s c) }
      if on then s
      else if mustWait s c t then idleGrant (waitPeak s { ch := c, due := t, edge := none }) (groupOf c) t
      else pulseAt s c t

/-- GRID_RISE (R174). -/
def execGridRise (c : Nat) (s : State) : Host.Outcome State Fault Refusal :=
  answer (decide (c < 32)) (if (drvCh s c).isOpen then gridRiseEdge s c else s)

/-- The fall of a pulse: the valve stays open through the next rise where less than TMIN would remain (R174). -/
def pulseFall (s : State) (c : Nat) : State :=
  match (drvCh s c).fall with
  | none => s
  | some t =>
    let s := modDrvCh s c fun d => { d with fall := none }
    let through := match (drvCh s c).rise with
      | some r => decide (r < t + tminOf s c)
      | none => false
    if through || !(drvCh s c).coil then s else pinFall s c t

/-- PULSE_FALL (R174). -/
def execPulseFall (c : Nat) (s : State) : Host.Outcome State Fault Refusal :=
  answer (decide (c < 32)) (if (drvCh s c).isOpen then pulseFall s c else s)

/-- The freewheel switch of a sensed release opens (R172). -/
def endSensed (s : State) (c : Nat) : State :=
  if (drvCh s c).sensed then
    let s := modDrvCh s c fun d => { d with sensed := false }
    if getF s (DRV_CH_STAT_STATE c) = dsRelease then setDrvState s c dsOff else s
  else s

/-- SENSED_RELEASE_END (R172). -/
def execSensedReleaseEnd (c : Nat) (s : State) : Host.Outcome State Fault Refusal := answer (decide (c < 32)) (endSensed s c)

/-- The samples of the channel's current from `t0` on reach the end of its window without a feature: MISS. An OFF window's end also ends
a sensed release (R151, R154, R172). -/
def windowEnds (s : State) (c t0 : Nat) (l : List Nat) : State :=
  match winAt s c with
  | some w =>
    if t0 + perUs * (l.length - 1) < w.stop ∨ (tongsFind w t0 l).isSome then s
    else
      let s := closeWindow s c (if w.masked then 4 else 3)
      if w.dir = 1 then endSensed s c else s
  | none => s

/-- WINDOW_CLOSE (R151, R154). -/
def execWindowClose (c t0 : Nat) (l : List Nat) (s : State) : Host.Outcome State Fault Refusal :=
  answer (decide (c < 32) && samplesOk l) (windowEnds s c t0 l)

/-! ### Protective OFF (R31, R181, R182, R187) -/

/-- One channel is switched off at `t` and released through the clamp; its waiting edge is BLOCKED (R31, R182). -/
def shutChannel (s : State) (t c : Nat) : State :=
  let s := match waitingOf s c with
    | some w => storeResult (setDrvState (dropWaiting (match w.edge with | some e => blockSlot s e.slot | none => s) c) c dsOff) c 0 0 0
    | none => s
  if (drvCh s c).isOpen then
    let s := storeResult (if (drvCh s c).coil then cutWindow s c t else s) c 1 0 0
    let s := addSwing s c { isOpen := false, tick := t, est := liveDelay s c 1, motion := none, slot := none }
    releaseAt s c t (t + 40) false
  else setDrvState (modDrvCh s c fun d => { d with sensed := false }) c dsOff

/-- A protective stage takes one channel at `t`: CAUSE `k` holds and the coil is released (R29, R31). -/
def offChannel (s : State) (k t : Nat) (c : Nat) : State := shutChannel (setProt s c k) t c

/-- A protective OFF of a channel: both channels of a pair (R180). -/
def protOff (s : State) (k t c : Nat) : State :=
  if paired s c then offChannel (offChannel s k t (c / 2 * 2)) k t (c / 2 * 2 + 1) else offChannel s k t c

/-- Set a flag of DRV_CH_FLT; a setting is recorded (R187). -/
def setChFlag (s : State) (c k : Nat) : State :=
  if (rd s (DRV_CH_FLT c)).toNat.testBit k then s
  else record (wr s (DRV_CH_FLT c) (bitsSet (rd s (DRV_CH_FLT c)) k k 1)) 0x2002 c (leBytes 1 k)

/-- Set a flag of DRV_GRP_FLT; a setting is recorded (R187). -/
def setGrpFlag (s : State) (g k : Nat) : State :=
  if (rd s (DRV_GRP_FLT g)).toNat.testBit k then s
  else record (wr s (DRV_GRP_FLT g) (bitsSet (rd s (DRV_GRP_FLT g)) k k 1)) 0x2002 (0x100 + g) (leBytes 1 k)

/-- Put or lift a bit of a set of bits by index. -/
def bitPut (m : Sparse Nat) (i k : Nat) (b : Bool) : Sparse Nat :=
  sparseMod (fun _ => 0) m i fun v => if b then v ||| 2 ^ k else if v.testBit k then v - 2 ^ k else v

def holdCh (s : State) (c k : Nat) (b : Bool) : State := { s with drv := { s.drv with chHold := bitPut s.drv.chHold c k b } }

def holdGrp (s : State) (g k : Nat) (b : Bool) : State :=
  showGroups { s with drv := { s.drv with grpHold := bitPut s.drv.grpHold g k b } }

def condCh (s : State) (c k : Nat) (b : Bool) : State := { s with drv := { s.drv with chCond := bitPut s.drv.chCond c k b } }

def condGrp (s : State) (g k : Nat) (b : Bool) : State := { s with drv := { s.drv with grpCond := bitPut s.drv.grpCond g k b } }

/-- The condition of protection `k` of channel or group `i` is present (R187, R188). -/
def condOf (m : Sparse Nat) (i k : Nat) : Bool := (sparseGet (fun _ => 0) m i).testBit k

/-- A channel protection trips: hold, flag, PAIRFLT of a pair, counter and OFF (R180, R187). -/
def chTrip (s : State) (c k t : Nat) (cnt : Field) : State :=
  let s := bump (setChFlag (holdCh s c k true) c k) cnt
  let s := if paired s c then setChFlag s (c / 2 * 2) 7 else s
  protOff s 3 t c

/-- Every waiting edge of a group leaves the queue and is BLOCKED (R182, R184). -/
def blockQueue (s : State) (g : Nat) : State :=
  let q := (drvGrp s g).queue
  modDrvGrp (q.foldl (fun s w => storeResult (setDrvState (blockSlot s (w.edge.bind (·.slot))) w.ch dsOff) w.ch 0 0 0) s) g fun x => { x with queue := [] }

/-- A group protection trips: every channel of the group is switched off (R187). -/
def grpProtect (s : State) (g k t : Nat) (cnt : Field) : State :=
  let s := bump (setGrpFlag (holdGrp s g k true) g k) cnt
  (groupChans g).foldl (offChannel · 3 t ·) (blockQueue s g)

/-- OPEN_LOAD_ON at instant `t` (R187). -/
def execOpenLoadOn (c t : Nat) (s : State) : Host.Outcome State Fault Refusal :=
  answer (decide (c < 32)) (if (drvCh s (leadCh s c)).coil then chTrip (condCh s c 0 true) c 0 t DRV_CNT_OL_CNT else s)

/-- OPEN_LOAD_OFF, of a channel that is off: a low phase of its modulation is not (R187). -/
def execOpenLoadOff (c : Nat) (s : State) : Host.Outcome State Fault Refusal :=
  answer (decide (c < 32))
    (if flag s (DRV_CH_MODE_DIAG_OFF c) && flag s (DRV_GRP_STAT_HS_ON (groupOf c)) && !(drvCh s (leadCh s c)).isOpen
        && !condOf s.drv.grpCond (groupOf c) 4
      then setChFlag (condCh s c 1 true) c 1 else s)

/-- LS_OVERCURRENT (R187). -/
def execLsOvercurrent (c t : Nat) (s : State) : Host.Outcome State Fault Refusal :=
  answer (decide (c < 32)) (if (drvCh s (leadCh s c)).coil then chTrip (condCh s c 2 true) c 2 t DRV_CNT_SC_CNT else s)

/-- SHORT_TO_GROUND on the pin of channel `c`, while no channel of its group has a low-side or freewheel switch closed: the group is
switched off, and the pin shows OL_OFF (R187). -/
def execShortToGround (c t : Nat) (s : State) : Host.Outcome State Fault Refusal :=
  let g := groupOf c
  answer (decide (c < 32))
    (if flag s (DRV_GRP_STAT_HS_ON g) && (groupChans g).all (fun x => !(drvCh s x).coil && !(drvCh s x).sensed) then
      grpProtect (condGrp (setChFlag (condCh s c 1 true) c 1) g 4 true) g 4 t DRV_CNT_SC_CNT
    else s)

/-- HS_OVERCURRENT (R187). -/
def execHsOvercurrent (g t : Nat) (s : State) : Host.Outcome State Fault Refusal :=
  answer (decide (g < 8)) (if flag s (DRV_GRP_STAT_HS_ON g) then grpProtect (condGrp s g 2 true) g 2 t DRV_CNT_SC_CNT else s)

/-- CH_OVERTEMP (R187). -/
def execChOvertemp (c t : Nat) (s : State) : Host.Outcome State Fault Refusal :=
  answer (decide (c < 32)) (if condOf s.drv.chCond c 3 then s else chTrip (condCh s c 3 true) c 3 t DRV_CNT_OT_CNT)

/-- TEMP_WARNING (R187). -/
def execTempWarning (c : Nat) (s : State) : Host.Outcome State Fault Refusal := answer (decide (c < 32)) (setChFlag s c 4)

/-- HS_OVERTEMP (R187). -/
def execHsOvertemp (g t : Nat) (s : State) : Host.Outcome State Fault Refusal :=
  answer (decide (g < 8)) (if condOf s.drv.grpCond g 3 then s else grpProtect (condGrp s g 3 true) g 3 t DRV_CNT_OT_CNT)

/-- GROUP_UNDERVOLTAGE (R187). -/
def execGroupUndervoltage (g t : Nat) (s : State) : Host.Outcome State Fault Refusal :=
  answer (decide (g < 8)) 
    (if condOf s.drv.grpCond g 0 then s
     else grpProtect (condGrp (setB s (DRV_GRP_STAT_UV g) true) g 0 true) g 0 t DRV_CNT_SUP_CNT)

/-- GROUP_OVERVOLTAGE (R187). -/
def execGroupOvervoltage (g t : Nat) (s : State) : Host.Outcome State Fault Refusal :=
  answer (decide (g < 8)) 
    (if condOf s.drv.grpCond g 1 then s
     else grpProtect (condGrp (setB s (DRV_GRP_STAT_OV g) true) g 1 true) g 1 t DRV_CNT_SUP_CNT)

/-- The condition of a protection clears: bit `k` of DRV_CH_FLT or, with `grp`, of DRV_GRP_FLT. An automatic protection (OT,
HS_OT, UV, OV) releases: the flag stays, and the output does not restart. A latched one stays in force, but the next clear of
its flag now releases it (R188). -/
def protectionClears (s : State) (grp : Bool) (n k : Nat) : State :=
  if grp then
    let s := if k = 0 then setB s (DRV_GRP_STAT_UV n) false else if k = 1 then setB s (DRV_GRP_STAT_OV n) false else s
    let s := condGrp s n k false
    if k = 0 ∨ k = 1 ∨ k = 3 then holdGrp s n k false else s
  else
    let s := condCh s n k false
    if k = 3 then holdCh s n k false else s

/-- AUTO_PROTECTION_RELEASE: `grp` names a group; `k` is the protection's bit in DRV_GRP_FLT (0 to 4) or DRV_CH_FLT (0 to 3). -/
def execAutoProtectionRelease (grp : Bool) (n k : Nat) (s : State) : Host.Outcome State Fault Refusal :=
  answer (if grp then decide (n < 8) && decide (k < 5) else decide (n < 32) && decide (k < 4)) (protectionClears s grp n k)

/-- A W1C write to DRV_CH_FLT: a latched protection is released unless its condition persists, in which case its flag is set
again at once (R188). -/
def clearChFlags (s : State) (c v : Nat) : State :=
  let w := (rd s (DRV_CH_FLT c)).toNat &&& v
  let s := wr s (DRV_CH_FLT c) (BitVec.ofNat 32 ((rd s (DRV_CH_FLT c)).toNat - w))
  [0, 1, 2].foldl (fun s k =>
    if w.testBit k then
      if condOf s.drv.chCond c k then setChFlag s c k else holdCh s c k false
    else s) s

/-- A W1C write to DRV_GRP_FLT: HS_OC and SG are latched (R187, R188). -/
def clearGrpFlags (s : State) (g v : Nat) : State :=
  let w := (rd s (DRV_GRP_FLT g)).toNat &&& v
  let s := wr s (DRV_GRP_FLT g) (BitVec.ofNat 32 ((rd s (DRV_GRP_FLT g)).toNat - w))
  [2, 4].foldl (fun s k =>
    if w.testBit k then
      if condOf s.drv.grpCond g k then setGrpFlag s g k else holdGrp s g k false
    else s) s

/-! ### Forced off and re-command (R15, R16, R184 to R186) -/

/-- Every local channel is forced off, with CAUSE 0x1 or 0x2 (R184). -/
def forceDrv (s : State) (k t : Nat) : State :=
  let s := drvGroups.foldl blockQueue s
  let s := drvChans.foldl (fun s c => setB (offChannel s k t c) (DRV_CH_STAT_FORCED c) true) s
  showGroups (bump (setB s DRV_STAT_FORCED true) DRV_CNT_ENLOSS_CNT)

/-- DRV_STAT.FORCED clears when both enables are active and no channel remains FORCED (R185). -/
def showForced (s : State) : State :=
  if enablesOk s && drvChans.all (fun c => !forcedOff s c) then setB s DRV_STAT_FORCED false else s

/-- A re-command of a local channel: FORCED clears while the enables are active, and past causes end (R29, R185). -/
def recommandOne (s : State) (c : Nat) : State :=
  if enablesOk s && !s.sys.tripped then showForced (clearProt (setB s (DRV_CH_STAT_FORCED c) false) c) else s

/-- A re-command of a channel and, as its switches follow it, of the partner that it leads (R180, R185). -/
def recommandLocal (s : State) (c : Nat) : State :=
  let s := recommandOne s c
  if paired s c && decide (c % 2 = 0) then recommandOne s (c + 1) else s

/-- Put an edge into the issue stage. -/
def handEdge (s : State) (e : Edge) : State := { s with sch := { s.sch with edges := s.sch.edges ++ [e] } }

/-- RESUME of a local channel: FORCED clears, and the state of AUTO or ON is applied again from the first slot of the step
after the boundary at which it acts (R186). -/
def resumeLocal (s : State) (c : Nat) : State :=
  let s := recommandLocal s c
  let r := effRequest s c
  let opens := decide (r = rqOn) || (decide (r = rqAuto) && decide (issuedState s c ≠ 0))
  if enablesOk s && !s.sys.tripped && !protectedOff s c && opens && !openOrWaiting s c then
    handEdge s { ch := c, kind := 0, tick := nowTick s + 2 * slotsPerStep, slot := none, rate := 0, origin := 1, delay := liveDelay s c 0 }
  else s

/-! ### A write of the mode and the pair (R169, R180) -/

/-- The channel is off and idle (R169). -/
def modeIdle (s : State) (c : Nat) : Bool :=
  !openOrWaiting s c && (slotsWhere s fun e => decide (e.d.ch = c) && (decide (e.state = stArmed) || decide (e.state = stLate))).isEmpty

/-- DRV_CH_MODE.MODE comes into force (R169, R173). -/
def modeEffect (s : State) (c old : Nat) : State :=
  if getF s (DRV_CH_MODE_MODE c) = 2 ∧ old ≠ 2 then regrid s c (nowTick s + slotsPerStep) else s

/-- DRV_CH_MODE.PAIR comes into force (R180). -/
def pairEffect (s : State) (c : Nat) : State :=
  let p := paired s c
  setB (setB s (DRV_CH_STAT_PAIRED c) p) (DRV_CH_STAT_PAIRED (c + 1)) p

/-! ### The Kettle (R189 to R191) -/

/-- Driver-die temperature, 0.1 °C: the highest of T8 to T11 (R189). -/
def driverTemp (s : State) : Int := [8, 9, 10, 11].foldl (fun m i => max m (getI s (MON_TS_T i))) (-2000)

/-- Dissipation of one sum in the tick, µW (R189). -/
def sumPower (s : State) (x : DrvSum) : Nat :=
  let tf : Nat := (clampI 0 100000 (10000 + 4 * (driverTemp s - 250))).toNat
  if x.kind = 0 then x.v * getF s DRV_KET_MODEL_RLS * tf / (1000000 * 10000)
  else if x.kind = 1 then x.v * getF s DRV_KET_MODEL_RFW * tf / (1000000 * 10000)
  else if x.kind = 2 then x.v * getF s DRV_KET_MODEL_RHS * tf / (1000000 * 10000)
  else if x.kind = 3 then x.v / 1000
  else if x.kind = 4 then x.v * getF s DRV_KET_MODEL_TSW / 1000000
  else 0

/-- Show the 1 ms means of a tick (DRV_CH_I, DRV_GRP_MEAS). -/
def showSum (s : State) (x : DrvSum) : State :=
  if x.kind = 5 then setF s (DRV_CH_I_MEAN (x.n % 32)) (min 0xFFFF x.v)
  else if x.kind = 6 then setF s (DRV_CH_I_MAX (x.n % 32)) (max (getF s (DRV_CH_I_MAX (x.n % 32))) (min 0xFFFF x.v))
  else if x.kind = 7 then setF s (DRV_GRP_MEAS_VBAT (x.n % 8)) (min 0xFFFF x.v)
  else if x.kind = 8 then setF s (DRV_GRP_MEAS_IHS (x.n % 8)) (min 0xFFFF x.v)
  else s

/-- KETTLE_TICK: P_k and P_f from the sums of the tick's samples (R189). -/
def execKettleTick (l : List DrvSum) (s : State) : Host.Outcome State Fault Refusal :=
  let pk := (l.map (sumPower s)).sum
  let tau := 256 * 2 ^ getF s DRV_KET_CFG_TAU
  let pf := ((s.drv.pf : Int) + roundDiv ((pk : Int) - s.drv.pf) tau).toNat
  let s := l.foldl showSum { s with drv := { s.drv with pf := pf } }
  let s := setF s DRV_KET_STAT_PF (min 0xFFFF ((pf + 500) / 1000))
  answer (l.all fun x => decide (x.n < 32)) (setF s DRV_KET_STAT_PK (min 0xFFFF ((pk + 500) / 1000)))

/-- Energised local channels of a class (R191). -/
def classOn (s : State) (p : Nat) : List Nat :=
  drvChans.filter fun c => (drvCh s c).isOpen && decide (getF s (DRV_CH_MODE_PRIO c) = p)

/-- Show the energised channels of each class and LIMIT of each channel. -/
def showClasses (s : State) : State :=
  let s := (List.range 8).foldl (fun s p => setF s (DRV_KET_LIM_NON p) (classOn s p).length) s
  drvChans.foldl (fun s c => setB s (DRV_CH_STAT_LIMIT c) (decide (limOf s c < 64))) s

/-- Show which groups stagger their carriers (R190). -/
def showStagger (s : State) : State :=
  drvGroups.foldl (fun s g => setB s (DRV_GRP_STAT_STAG g) (s.drv.stag || flag s (DRV_GRP_CTRL_STAG_FORCE g))) s

/-- Stagger or align the carriers, and spread or restore the phases of the groups' NOZZLE_PWM channels (R190). -/
def applyStagger (s : State) : State :=
  drvChans.foldl (fun s c =>
    if getF s (DRV_CH_MODE_MODE c) = 2 ∧ flag s (DRV_CH_PWM_AUTO_STAG c) then
      let mates := (groupChans (groupOf c)).filter fun x => decide (getF s (DRV_CH_MODE_MODE x) = 2) && flag s (DRV_CH_PWM_AUTO_STAG x)
        && decide ((drvCh s x).freq = (drvCh s c).freq)
      let i := (mates.filter fun x => decide (x < c)).length
      rephase s c (if s.drv.stag then 256 * i / max 1 mates.length else (drvCh s c).written)
    else s) (showStagger s)

/-- The effective budget B in mW (R190). -/
def budget (s : State) : Nat := min (getF s DRV_KET_CFG_BUDGET * 100) (14000 - getF s MON_PLOGIC_MW)

/-- Switch off the energised channels of a class whose limit reached 0 (R191). -/
def classOff (s : State) (p t : Nat) : State :=
  (classOn s p).foldl (fun s c => bump (offChannel (setB s (DRV_CH_FLT_KZERO c) true) 4 t c) DRV_CNT_KOFF_CNT) s

/-- Lower or raise the limits by one adjustment (R191). -/
def adjustLimits (s : State) (pf b t : Nat) : State :=
  if b ≤ pf then
    match (List.range 7).find? fun p => decide (0 < getF s (DRV_KET_LIM_LIM p)) && !(classOn s p).isEmpty with
    | some p =>
      let n := getF s (DRV_KET_LIM_LIM p) - 4
      let s := setF s (DRV_KET_LIM_LIM p) n
      if n = 0 then classOff s p t else s
    | none => s
  else if 10 * pf < 9 * b then
    match (List.range 7).reverse.find? fun p => decide (getF s (DRV_KET_LIM_LIM p) < 64) with
    | some p => setF s (DRV_KET_LIM_LIM p) (getF s (DRV_KET_LIM_LIM p) + 1)
    | none => s
  else s

/-- The Kettle's evaluation at instant `t` (R190, R191). -/
def kettleEval (s : State) (t : Nat) : State :=
  let s := setF (setF s DRV_KET_EFF_PLOGIC (min 255 ((getF s MON_PLOGIC_MW + 50) / 100))) DRV_KET_EFF_EFFB (min 255 ((budget s + 50) / 100))
  let b := budget s * 1000
  let pf := s.drv.pf
  let stag := if s.drv.stag then decide (60 * b ≤ 100 * pf) else flag s DRV_KET_CFG_STAG_EN && decide (75 * b ≤ 100 * pf)
  let s := applyStagger { s with drv := { s.drv with stag := stag } }
  let lim := s.drv.lim || (flag s DRV_KET_CFG_LIM_EN && decide (b ≤ pf))
  let s := if lim then adjustLimits s pf b t else s
  let full := (List.range 7).all fun p => decide (getF s (DRV_KET_LIM_LIM p) = 64)
  let lim := lim && !(full && decide (pf < b))
  let none_ := (List.range 7).all fun p => (classOn s p).isEmpty || decide (getF s (DRV_KET_LIM_LIM p) = 0)
  let isOver := decide (b ≤ pf) && (s.drv.isOver || (lim && none_))
  let s := if isOver && !s.drv.isOver then record s 0x2003 noInst (leBytes 2 (min 0xFFFF ((pf + 500) / 1000))) else s
  let s := { s with drv := { s.drv with lim := lim, isOver := isOver } }
  showClasses (setF s DRV_STAT_KSTAGE (if isOver then 3 else if lim then 2 else if stag then 1 else 0))

/-- KETTLE_EVALUATION at instant `t` (R190). -/
def execKettleEvaluation (t : Nat) (s : State) : Host.Outcome State Fault Refusal := .next (kettleEval s t)

/-! ### The current loop (R178, R179) -/

/-- w(t) of the dither in 2^−16: a triangle from its zero crossing, or a square (R179). -/
def ditherWave (s : State) (c t : Nat) : Int :=
  let ph := (t - (drvCh s c).te) * getF s (DRV_CH_DITH_DFREQ c) % 200000000
  if flag s (DRV_CH_DITH_DSHAPE c) then (if ph < 100000000 then 65536 else -65536)
  else if ph < 50000000 then ph * 65536 / 50000000
  else if ph < 150000000 then 65536 - ((ph - 50000000 : Nat) * 65536 / 50000000 : Nat)
  else -65536 + ((ph - 150000000 : Nat) * 65536 / 50000000 : Nat)

/-- One chop period of a PROPORTIONAL channel at instant `t` with the mean current of the last period, mA (R178). An upper limit 1 − ff
below 0 leaves the integrator at its lower one. -/
def loopPeriod (s : State) (t : Nat) (x : Nat × Nat) : State :=
  let c := x.1
  let d := drvCh s c
  if d.isOpen && decide (outMode s c = 3) then
    let v := valueInForce s c
    let iset := roundDiv ((v : Int) * (200 * 65536 + (getF s (DRV_CH_DITH_DAMP c) : Int) * ditherWave s c t)) (200 * 256)
    let e := iset - (x.2 : Int) * 256
    let one : Int := 2 ^ 20
    let vb := max 1 (getF s (DRV_GRP_MEAS_VBAT (groupOf c)))
    let ff := roundDiv (iset * getF s (DRV_CH_LOOP_COIL_R c) * 4096) (1000 * vb)
    let i := max 0 (min (one - ff) (d.integ + roundDiv (e * getF s (DRV_CH_LOOP_KI c)) 256))
    let u := clampI 0 one (ff + roundDiv (e * getF s (DRV_CH_LOOP_KP c) * 16) 256 + i)
    modDrvCh s c fun d => { d with integ := i, duty := if v = 0 then 0 else u.toNat, coil := decide (0 < v) }
  else s

/-- CHOP_PERIOD of group `g` at instant `t`: the channels in a current loop with their mean currents (R170, R178). -/
def execChopPeriod (g t : Nat) (l : List (Nat × Nat)) (s : State) : Host.Outcome State Fault Refusal :=
  answer (decide (g < 8) && l.all fun x => decide (groupOf x.1 = g)) (l.foldl (loopPeriod · t ·) s)

/-! ### The step boundary -/

/-- At a step boundary DRV takes the enables, the switches, the grids and the values in force (R166, R169, R176). -/
def drvBoundary (s : State) : State :=
  let s := showStagger (showGroups s)
  let s := setB (setB (setB s DRV_STAT_EN_A s.sys.enA) DRV_STAT_EN_B_N s.sys.enBN) DRV_STAT_EN_OK (enablesOk s)
  showClasses (drvChans.foldl (fun s c => showValue (gridBoundary s c) c) (showForced s))

/-- ACTUAL of a local channel (R26, R33): the drive state of its switch, MODULATED in the modulated modes. -/
def actualLocal (s : State) (c : Nat) : Nat :=
  let d := drvCh s (leadCh s c)
  if !d.isOpen then 0 else if getF s (DRV_CH_MODE_MODE (leadCh s c)) = 1 then 1 else 2

/-- FAULT of a local channel: a flag other than OT_WARN and KZERO is set on it or its group (R187, R188, R191). -/
def faultLocal (s : State) (c : Nat) : Bool :=
  decide ((rd s (DRV_CH_FLT c)).toNat &&& 0xAF ≠ 0) || decide ((rd s (DRV_GRP_FLT (groupOf c))).toNat &&& 0x1F ≠ 0)

/-! ### Register rules (R169, R180, R193, R499) -/

/-- Upper limits of I_PEAK and I_HOLD of a channel (R499). -/
def pairLimit (s : State) (c lim pairLim : Nat) : Nat := if paired s c && decide (c % 2 = 0) then pairLim else lim

/-- The rules of a write to a DRV register: the value stored, or none where it is invalid (R171, R180, R193, R499). -/
def drvStore (s : State) (i : Nat) (v : Word) : Option Word :=
  let ok := fun (b : Bool) => if b then some v else none
  if i = DRV_KET_CFG then ok (inRange 10 98 (bitsOf v 7 0) && decide (bitsOf v 10 8 ≤ 4))
  else if i = DRV_KET_MODEL then ok (decide (bitsOf v 7 0 ≠ 0 ∧ bitsOf v 15 8 ≠ 0 ∧ bitsOf v 23 16 ≠ 0))
  else if 0x1020 ≤ i ∧ i < 0x1060 then
    if i % 8 = 0 then ok (inRange 2 25 (bitsOf v 12 8) && inRange 45 160 (bitsOf v 23 16))
    else if i % 8 = 4 then ok (decide (10 ≤ bitsOf v 7 0) && decide (1 ≤ bitsOf v 15 8) && decide (5 ≤ bitsOf v 23 16))
    else some v
  else if 0x1100 ≤ i ∧ i < 0x1200 then
    let c := (i - 0x1100) / 8
    match i % 8 with
    | 0 => ok (!(decide (c % 2 = 1) && decide (bitsOf v 2 2 = 1)))
    | 1 => ok (inRange 100 (pairLimit s c 6000 10000) (bitsOf v 13 0) && inRange 1 500 (bitsOf v 24 16)
        && decide (getF s (DRV_CH_HOLD_I_HOLD c) ≤ bitsOf v 13 0))
    | 2 => ok (inRange 50 (pairLimit s c 3000 6000) (bitsOf v 12 0) && decide (bitsOf v 12 0 ≤ getF s (DRV_CH_PEAK_I_PEAK c)))
    | 3 => ok (inRange 50 1000 (bitsOf v 9 0) && decide (1 ≤ bitsOf v 31 24))
    | 4 => ok (inRange 50 400 (bitsOf v 8 0) && decide (bitsOf v 21 16 ≤ 50))
    | 7 => ok (decide (bitsOf v 15 0 ≤ if getF s (DRV_CH_MODE_MODE c) = 2 then 1000 else 6000))
    | _ => some v
  else some v

/-- A reset of DRV (R14, R39): every output off and FORCED (R185). -/
def drvReset (s : State) : State :=
  let s := resetRegs s fun i => decide (0x1000 ≤ i ∧ i < 0x1300)
  let s := { s with drv := DrvState.reset,
                    sch := { s.sch with edges := s.sch.edges.filter fun e => !isLocal e.ch } }
  let s := setB (setB (setB s DRV_STAT_EN_A s.sys.enA) DRV_STAT_EN_B_N s.sys.enBN) DRV_STAT_EN_OK (enablesOk s)
  drvChans.foldl (fun s c => setProt s c 1) s

end Sys2Proof.Machine
end

