-- ==== Sys2Proof/Machine/Predict.lean ====
section
/-!
DEFINITION. Sys2Proof/Machine/Predict.lean: the prediction of SCH (R83 to R86), taken exactly: coordinates are scaled by
2^25·10^18 per µm and times are half nanoseconds, so that q(τ) and its comparisons have no rounding. The queues of the
rings, into which remote commands go, stand here too (R207, R210).
-/
namespace Sys2Proof.Machine

/-! ### Coordinates -/

/-- The scale of a µm. -/
def umScale : Int := 2 ^ 25 * 10 ^ 18

/-- The scale of a unit of 0.25 mm. -/
def unitScale : Int := 250 * umScale

/-- A channel's state at t_b (R85). -/
structure Motion where
  /-- Coordinate, scaled. -/
  s : Int
  /-- µm/s and µm/s². -/
  v : Int
  a : Int
  deriving DecidableEq, Repr

/-- The state of a channel as KIN left it: s̈ is 0 where ACC_EN is 0 (R85). -/
def motionOf (s : State) (c : Nat) : Motion :=
  let k := chKin s c
  { s := k.s * (500 * 10 ^ 18), v := k.sdot, a := if flag s SCH_CTRL_ACC_EN then k.sddot else 0 }

/-- q at `h` half nanoseconds after t_b, or the stopping point where the channel is predicted to stop before (R85). -/
def qAt (m : Motion) (h : Int) : Int :=
  let v' := m.v * 2000000000 + m.a * h
  if m.v ≠ 0 ∧ m.a ≠ 0 ∧ ((0 < m.v ∧ v' < 0) ∨ (m.v < 0 ∧ 0 < v')) then
    m.s - (if 0 < m.a then m.v * m.v * (2 ^ 24 * 10 ^ 18) / m.a else -(m.v * m.v * (2 ^ 24 * 10 ^ 18) / (-m.a)))
  else m.s + m.v * h * (2 ^ 24 * 10 ^ 9) + m.a * h * h * 2 ^ 22

/-- A scaled distance in 0.25 mm, to the nearest. -/
def toUnits (x : Int) : Int := roundDiv x (250 * 2 ^ 25 * 10 ^ 18)

/-! ### Look-ahead (R83, R84) -/

/-- The horizon for a speed, µs (R84). -/
def horizonUs (s : State) (v : Int) : Nat :=
  let t := getF s SCH_HORIZON_TIME * 1000
  if v = 0 then t else min t (getF s SCH_HORIZON_DIST * 10 ^ 12 / (absI v).toNat)

/-- The look-ahead time without deferral and without horizon, µs: `kind` 0 ON, 1 OFF, 2 RATE (R83). -/
def lookAheadRaw (s : State) (c kind : Nat) : Nat :=
  10 * ((if kind = 2 then 0 else liveDelay s c kind) + fluidDelay s c) + linkLead s c

/-- The look-ahead time D, µs, held within the horizon (R84). -/
def lookAhead (s : State) (c kind : Nat) : Nat := min (lookAheadRaw s c kind) (horizonUs s (chKin s c).sdot)

/-! ### Due, late or not yet (R86, R88, R90) -/

/-- What a prediction says of an event. -/
inductive Due where
  | notYet
  /-- Due on time: τ* in 5 ns, 0 to 50,000. -/
  | due (n : Nat)
  /-- Already reached: scaled distance beyond the target in the approach direction. -/
  | past (e : Int)
  deriving DecidableEq, Repr

/-- The target is reached at `h`. -/
def beyond (m : Motion) (t : Int) (rev : Bool) (h : Int) : Int := if rev then t - qAt m h else qAt m h - t

/-- The smallest n in `lo` to `lo + w` such that the target is reached half a slot after slot n: the nearest slot to τ* (R86). -/
def findSlot : Nat → Motion → Int → Bool → Int → Nat → Nat → Nat
  | 0, _, _, _, _, lo, _ => lo
  | f + 1, m, t, rev, d, lo, w =>
    if w = 0 then lo
    else
      let mid := lo + w / 2
      if 0 ≤ beyond m t rev (d + 10 * mid + 5) then findSlot f m t rev d lo (w / 2) else findSlot f m t rev d (mid + 1) (w - w / 2 - 1)

/-- The channel moves in the approach direction (R88). -/
def approaches (s : State) (c : Nat) (rev : Bool) : Bool :=
  !chStill s c && (if rev then decide ((chKin s c).sdot < 0) else decide (0 < (chKin s c).sdot))

/-- Judge an event with target `tgt` (0.25 mm) and look-ahead `d` µs (R86, R88, R90). -/
def judge (s : State) (c : Nat) (tgt : Int) (rev : Bool) (d : Nat) : Due :=
  if !approaches s c rev then .notYet
  else
    let m := motionOf s c
    let t := tgt * unitScale
    let h : Int := (d : Int) * 2000
    if 0 ≤ beyond m t rev h then .past (beyond m t rev h)
    else if 0 ≤ beyond m t rev (h + 500000) then .due (findSlot 17 m t rev h 0 50000)
    else .notYet

/-- The coordinate of a channel at boundary t_b in 0.25 mm. -/
def coordNow (s : State) (c : Nat) : Int := pcUnits (chKin s c).s

/-! ### Coordinates at past instants (R87) -/

/-- Interpolate the coordinate at an instant between the boundaries kept; 2^−24 × 0.25 mm. -/
def coordAt (path : List (Nat × Int)) (tick : Nat) : Int :=
  let b := tick / slotsPerStep
  let at_ := fun (n : Nat) => (path.find? fun p => decide (p.1 = n)).map (·.2)
  match at_ b, at_ (b + 1) with
  | some x, some y => x + roundDiv ((y - x) * (tick % slotsPerStep : Nat)) slotsPerStep
  | some x, none => x
  | none, some y => y
  | none, none => (path.getLast?.map (·.2)).getD 0

/-! ### Peak-phase deferral (R94) -/

/-- Requests for a peak that come before a candidate instant `t` of channel `c`: instant, channel, length. -/
def peakRequests (s : State) (c t : Nat) : List (Nat × Nat × Nat) :=
  let g := groupOf c
  let q := (drvGrp s g).queue.map fun w => (w.due, w.ch, peakTime s w.ch)
  let e := (s.sch.edges.filter fun e => decide (e.kind = 0) && isLocal e.ch && decide (groupOf e.ch = g) && decide (e.ch ≠ c)
      && (decide (e.tick < t) || (decide (e.tick = t) && decide (e.ch < c)))
      && (decide (getF s (DRV_CH_MODE_MODE e.ch) = 1) || (decide (getF s (DRV_CH_MODE_MODE e.ch) = 2) && !noPulse s e.ch))).map
    fun e => (e.tick, e.ch, peakTime s e.ch)
  let r := (groupChans g).flatMap fun x =>
    if decide (x ≠ c) && (drvCh s x).isOpen && decide (getF s (DRV_CH_MODE_MODE x) = 2) && !noPulse s x && !staysOpen s x then
      match (drvCh s x).rise with
      | some u => ((List.range 64).map fun k => u + k * pwmPeriod s x).filterMap fun u => if u < t then some (u, x, peakTime s x) else none
      | none => []
    else []
  q ++ sortBy (fun a b => decide (a.1 < b.1) || (decide (a.1 = b.1) && decide (a.2.1 ≤ b.2.1))) (e ++ r)

/-- The instant of a closing edge already handed over for a channel, after `t`. -/
def closingAfter (s : State) (c t : Nat) : Option Nat :=
  (s.sch.edges.filter fun e => decide (e.ch = c) && decide (e.kind = 1) && decide (t < e.tick)).foldl (fun b e => match b with
    | none => some e.tick
    | some x => some (min x e.tick)) none

/-- The end of a peak of channel `c` that starts at `t` and lasts `n`. -/
def peakStop (s : State) (c t n : Nat) : Nat := match closingAfter s c t with
  | some x => min (t + n) x
  | none => t + n

/-- e_g: the earliest pin instant at which a peak phase can start for an ON edge of channel `c` due at `t` (R94). -/
def earliestPeak (s : State) (c t : Nat) : Nat :=
  let busy := match (drvGrp s (groupOf c)).peak with
    | some p => if p.1 = c then 0 else min p.2.2 (peakStop s p.1 p.2.1 (p.2.2 - p.2.1))
    | none => 0
  (peakRequests s c t).foldl (fun f r => peakStop s r.2.1 (max r.1 f) r.2.2) busy

/-! ### Ring queues (R201, R207, R210) -/

def ringAt (s : State) (r : Nat) : RingState := sparseGet (fun _ => RingState.reset) s.fjl.rings r

def modRing (s : State) (r : Nat) (f : RingState → RingState) : State :=
  { s with fjl := { s.fjl with rings := sparseMod (fun _ => RingState.reset) s.fjl.rings r f } }

/-- Node with address `n + 1` on ring `r`. -/
def nodeAt (s : State) (r n : Nat) : RingNode := sparseGet (fun _ => RingNode.reset) (ringAt s r).nodes n

def modNode (s : State) (r n : Nat) (f : RingNode → RingNode) : State :=
  modRing s r fun x => { x with nodes := sparseMod (fun _ => RingNode.reset) x.nodes n f }

def remCh (s : State) (c : Nat) : RemCh := sparseGet (fun _ => RemCh.reset) s.fjl.ch c

def modRemCh (s : State) (c : Nat) (f : RemCh → RemCh) : State :=
  { s with fjl := { s.fjl with ch := sparseMod (fun _ => RemCh.reset) s.fjl.ch c f } }

/-- Ring time of an instant, ns (R201). -/
def ringNs (s : State) (r tick : Nat) : Nat := tick * 5 - (ringAt s r).start * 250000

/-- States of a ring (R205). -/
def rsOff : Nat := 0
def rsEnum : Nat := 1
def rsSync : Nat := 2
def rsOper : Nat := 3
def rsBroken : Nat := 4
def rsFault : Nat := 5

def ringState (s : State) (r : Nat) : Nat := getF s (FJL_STAT_STATE r)

/-- Commands and reports run (R205). -/
def ringRuns (s : State) (r : Nat) : Bool := decide (ringState s r = rsOper ∨ ringState s r = rsBroken)

/-- The SAFE flag of the CYC sets (R205, R222, R223). -/
def ringSafe (s : State) (r : Nat) : Bool :=
  !ringRuns s r || !enablesOk s || s.sys.tripped || flag s (FJL_CTRL_SAFE r)

/-- A protective stage of the ring holds a remote channel off, or its output has not been re-commanded since (R16, R222, R223). -/
def remoteHeld (s : State) (c : Nat) : Bool := ringSafe s (ringOf c) || (remCh s c).forced

/-- The channel's node takes ring commands: its address is fitted (R195). -/
def nodeFitted (s : State) (c : Nat) : Bool := decide (nodeOf c < getF s (FJL_CTRL_NNODES (ringOf c)))

/-- The value that a RATE entry carries for a remote channel (R216). -/
def remoteValue (s : State) (c : Nat) : Nat :=
  let vmax := if (remCh s c).mode = 3 then 3000 else 1000
  (clampI 0 vmax (roundDiv ((remCh s c).vbase * turnFactor s c) (65536 * 4096))).toNat

/-- A RATE event gives a remote channel its V_base, unless GAIN is 0 (R216). -/
def remoteRate (s : State) (c rate : Nat) : State :=
  let g := getF s (FJL_NODE_RMAP_GAIN (ringOf c) (nodeOf c))
  let o := getI s (FJL_NODE_RMAP_OFFSET (ringOf c) (nodeOf c))
  if g = 0 then s else modRemCh s c fun x => { x with vbase := rateBase o g rate }

/-- The ring time of the boundary that opens the step of an instant, ns: a command handed over for it is committed to the cycles of
that step (R210). -/
def committedNs (s : State) (r tick : Nat) : Nat := ringNs s r (tick / slotsPerStep * slotsPerStep)

/-- Put a command into the queue of a channel's node. -/
def pushCmd (s : State) (c : Nat) (q : RingCmd) : State :=
  modNode s (ringOf c) (nodeOf c) fun n => { n with queue := n.queue ++ [q] }

/-- Queue a command for a remote channel: `kind` 0 ON, 1 OFF, 2 RATE with a rate, leaving the master at `tick` and executed
D_link later (R86, R207, R210). A channel without a fitted node, or one that a protective stage holds, has it suppressed: its
slot is BLOCKED (R106); V_base follows a RATE all the same (R216). -/
def queueRemote (s : State) (c kind tick rate : Nat) (slot : Option Nat) : State :=
  let s := if kind = 2 then remoteRate s c rate else s
  if !nodeFitted s c || remoteHeld s c then blockSlot s slot
  else
    let r := ringOf c
    pushCmd s c { op := kind + 1, k := nodeCh c, tag := 255, tx := ringNs s r (tick + linkLead s c * perUs),
                  param := if kind = 2 then remoteValue s c else 0, slot := slot, sent := 0, after := committedNs s r tick,
                  counted := false }

/-- The tag that carries the command of kind `kind` of a slot at its node. -/
def tagOf (s : State) (c i kind : Nat) : Option Nat :=
  ((nodeAt s (ringOf c) (nodeOf c)).tags.find? fun t => match t.2 with
    | some x => decide (x.slot = some i) && x.busy && decide (x.op = kind + 1)
    | none => false).map (·.1)

/-- A tag that is not busy: one never used, else the one whose last command is oldest. -/
def freeTag (x : RingNode) : Option Nat :=
  let l := (List.range 15).map fun t => (t, sparseGet (fun _ => none) x.tags t)
  let l := l.filter fun p => match p.2 with
    | some g => !g.busy
    | none => true
  let age := fun (p : Nat × Option RingTag) => match p.2 with | some g => g.tx + 1 | none => 0
  (l.foldl (fun b p => match b with
    | none => some p
    | some q => if age p < age q then some p else b) none).map (·.1)

/-- Put a tag into the CANCEL that waits for a node, or into a new one, not sent before `after` (R214). -/
def queueCancel (s : State) (r n tag after : Nat) : State :=
  let s := modNode s r n fun x => { x with tags := sparseMod (fun _ => none) x.tags tag fun o => o.map fun t => { t with cxl := true } }
  let add := fun (q : RingCmd) => if q.op = 4 ∧ q.sent = 0 then { q with tx := q.tx ||| 2 ^ tag, after := max q.after after } else q
  let fresh : RingCmd := { op := 4, k := 0, tag := 255, tx := 2 ^ tag, param := 0, slot := none, sent := 0, after := after, counted := false }
  modNode s r n fun x =>
    if x.queue.any fun q => decide (q.op = 4 ∧ q.sent = 0) then { x with queue := x.queue.map add }
    else { x with queue := fresh :: x.queue }

end Sys2Proof.Machine
end

