-- ==== Sys2Proof/Machine/MapStore.lean ====
section
/-!
DEFINITION. Sys2Proof/Machine/MapStore.lean: the map store (chapter 4): the grid, the two-level directory, cells and
fills, allocation at first touch, tile transfer, clears, polygons and rasterisation.
-/
namespace Sys2Proof.Machine

/-! ### The grid (R109 to R113) -/

/-- Cell size in mm (R110). -/
def cellMm (s : State) : Nat := match getF s MAP_CTRL_CELL with
  | 0 => 50
  | 1 => 100
  | 2 => 200
  | _ => 250

/-- Cell size in 2^−8 × 0.25 mm. -/
def cellUnits (s : State) : Int := (cellMm s : Int) * 1024

/-- Grid coordinate of an LTP coordinate in 2^−8 × 0.25 mm (R111). -/
def gridOf (s : State) (x : Int) : Int := x.fdiv (cellUnits s) + 16384

def insideGrid (x y : Int) : Bool := decide (0 ≤ x ∧ x ≤ 32767 ∧ 0 ≤ y ∧ y ≤ 32767)

/-! ### The directory (R115 to R117) -/

/-- Square of a tile and the tile's place in it (R115). -/
def squareOf (tx ty : Nat) : Nat := ty / 8 * 64 + tx / 8

def placeOf (tx ty : Nat) : Nat := ty % 8 * 8 + tx % 8

def squareFill (s : State) (q : Nat) : Nat := sparseGet (fun _ => 0) s.map.fill q

def blockAt (s : State) (q : Nat) : Option DirBlock := sparseGet (fun _ => none) s.map.blocks q

def tileNone : Tile := { base := 0, cells := [], phys := 0 }

/-- The allocated tile at (tx, ty), if any. -/
def tileAt (s : State) (tx ty : Nat) : Option Tile :=
  (blockAt s (squareOf tx ty)).bind fun b => (b.tiles.find? fun t => decide (t.1 = placeOf tx ty)).map (·.2)

/-- The fill byte of a tile: its own with a directory block, else the square's (R115). -/
def tileFill (s : State) (tx ty : Nat) : Nat := match blockAt s (squareOf tx ty) with
  | some b => sparseGet (fun _ => b.base) b.fills (placeOf tx ty)
  | none => squareFill s (squareOf tx ty)

/-- A cell's byte at offset `o` of a tile (R111, R114). -/
def cellIn (s : State) (tx ty o : Nat) : Nat := match tileAt s tx ty with
  | some t => sparseGet (fun _ => t.base) t.cells o
  | none => tileFill s tx ty

/-- A cell's byte by grid coordinates; outside the grid only EXC shows (R113). -/
def cellAt (s : State) (x y : Int) : Nat :=
  if insideGrid x y then
    let x := x.toNat
    let y := y.toNat
    cellIn s (x / 64) (y / 64) (64 * (y % 64) + x % 64)
  else if flag s MAP_CTRL_OOG_EXC then 4 else 0

def cellCount (b : Nat) : Nat := b % 4
def cellExc (b : Nat) : Bool := b.testBit 2
def cellZone (b : Nat) : Nat := b / 16 % 16

/-- A cell value with its reserved bit cleared (R114). -/
def cleanCell (b : Nat) : Nat := b % 8 + b / 16 % 16 * 16

/-- Physical tiles and directory blocks in use. -/
def tilesUsed (s : State) : Nat := (s.map.blocks.map fun e => match e.2 with | some b => b.tiles.length | none => 0).sum

def blocksUsed (s : State) : Nat := s.map.blocks.length

/-- Show the store in MAP_STAT. -/
def showStore (s : State) : State := setF (setF s MAP_STAT_TILES (tilesUsed s)) MAP_STAT_DBLKS (blocksUsed s)

/-! ### The tile cache (R115, R119) -/

/-- Tiles that the cache holds (chapter 4, Tile cache). -/
def cacheSize : Nat := 256

/-- Index of a tile: that of its MDR entry (R115). -/
def tileIndex (tx ty : Nat) : Nat := 512 * ty + tx

def cached (s : State) (t : Nat) : Bool := s.map.cache.any fun e => decide (e.1 = t)

/-- A tile is used in the cache, and written where `w`: it is brought in if need be, and the tile used least recently makes room. -/
def useTile (s : State) (t : Nat) (w : Bool) : State :=
  let was := s.map.cache.any fun e => decide (e.1 = t) && e.2
  if s.map.cache.head? = some (t, w || was) then s
  else { s with map := { s.map with cache := ((t, w || was) :: s.map.cache.filter fun e => decide (e.1 ≠ t)).take cacheSize } }

/-- A tile that is freed leaves the cache. -/
def uncache (s : State) (t : Nat) : State :=
  { s with map := { s.map with cache := s.map.cache.filter fun e => decide (e.1 ≠ t) } }

def setBlock (s : State) (q : Nat) (b : Option DirBlock) : State :=
  { s with map := { s.map with blocks := sparseSet (fun _ => none) s.map.blocks q b } }

/-- The store is full for a write: it is discarded and counted, and FULL or DFULL is set, the first time with a record (R118). -/
def storeFull (s : State) (f : Field) (which : Nat) : State :=
  let s := if flag s f then s else record (setB s f true) 0x3003 noInst (leBytes 1 which)
  bump s MAP_CNT_LOST_CNT

/-- Take a directory block for a square; none where all 1,024 are in use (R116, R118). -/
def takeBlock (s : State) (q : Nat) : State × Bool :=
  match blockAt s q with
  | some _ => (s, true)
  | none =>
    if blocksUsed s < 1024 then
      let b : DirBlock := { fills := [], tiles := [], base := squareFill s q }
      (setBlock s q (some b), true)
    else (storeFull s MAP_STAT_DFULL 1, false)

def putTile (s : State) (tx ty : Nat) (t : Option Tile) : State :=
  match blockAt s (squareOf tx ty) with
  | none => s
  | some b => setBlock s (squareOf tx ty) (some { b with tiles := match t with
      | some x => sparsePut b.tiles (placeOf tx ty) x
      | none => sparseDel b.tiles (placeOf tx ty) })

/-- Allocate a tile at its first touch, filled with its fill (R116, R118). Which physical tile is taken is not stated: its
number is a free value (log entry 2). -/
def touchTile (s : State) (tx ty : Nat) : State × Bool :=
  match tileAt s tx ty with
  | some _ => (s, true)
  | none =>
    if tilesUsed s < 16384 then
      let fill := tileFill s tx ty
      let b := takeBlock s (squareOf tx ty)
      if b.2 then
        let f := fresh b.1
        (putTile f.2 tx ty (some { base := fill, cells := [], phys := f.1 }), true)
      else (b.1, false)
    else (storeFull s MAP_STAT_FULL 0, false)

/-- Note an EXC bit that is written (MAP_STAT.EXC_ANY). -/
def noteExc (s : State) (v : Nat) : State := if cellExc v then setB s MAP_STAT_EXC_ANY true else s

/-- Write cells of a tile, each an offset and a value; where none differs from what the tile shows, nothing is touched (R116). -/
def putCells (s : State) (tx ty : Nat) (l : List (Nat × Nat)) : State :=
  let exc := fun (s : State) => if l.any fun p => cellExc p.2 then setB s MAP_STAT_EXC_ANY true else s
  if l.all fun p => decide (cellIn s tx ty p.1 = p.2) then exc s
  else
    let t := touchTile s tx ty
    if t.2 then
      match tileAt t.1 tx ty with
      | some x =>
        let y := { x with cells := l.foldl (fun m p => sparseSet (fun _ => x.base) m p.1 p.2) x.cells }
        exc (useTile (putTile t.1 tx ty (some y)) (tileIndex tx ty) true)
      | none => t.1
    else t.1

/-- Write a cell of a tile (R116). -/
def putCell (s : State) (tx ty o v : Nat) : State := putCells s tx ty [(o, v)]

/-- Give an unallocated tile a fill of its own (R116). -/
def putFill (s : State) (tx ty v : Nat) : State × Bool :=
  if tileFill s tx ty = v then (noteExc s v, true)
  else
    let b := takeBlock s (squareOf tx ty)
    if b.2 then
      match blockAt b.1 (squareOf tx ty) with
      | some d => (noteExc (setBlock b.1 (squareOf tx ty)
          (some { d with fills := sparseSet (fun _ => d.base) d.fills (placeOf tx ty) v })) v, true)
      | none => (b.1, false)
    else (b.1, false)

/-- Add a mark to a cell by grid coordinates (R113, R130); the flag says that a cell was incremented or found inside. -/
def markCell (s : State) (x y : Int) : State :=
  if insideGrid x y then
    let tx := x.toNat / 64
    let ty := y.toNat / 64
    let o := 64 * (y.toNat % 64) + x.toNat % 64
    let v := cellIn s tx ty o
    if cellCount v = 3 then s else putCell s tx ty o (v + 1)
  else bump s MAP_CNT_LOST_CNT

/-! ### MDR (R115) -/

/-- The MDR entry of a tile (R115). -/
def mdrEntry (s : State) (n : Nat) : List Byte :=
  let tx := n % 512
  let ty := n / 512
  let blk := bit (blockAt s (squareOf tx ty)).isSome 17
  let hit := bit (cached s n) 16 + bit (s.map.cache.any fun e => decide (e.1 = n) && e.2) 15
  let v := match tileAt s tx ty with
    | some t => (Config.freeWord t.phys).toNat % 2 ^ 14 + 2 ^ 14
    | none => 0
  leBytes 4 (v + hit + blk + tileFill s tx ty * 2 ^ 24)

/-! ### Tile transfer (R143, R144) -/

/-- TILE_READ's response for a valid request (R143). -/
def tileRead (s : State) (tx ty chunk : Nat) : List Byte :=
  let al := (tileAt s tx ty).isSome
  leBytes 2 tx ++ leBytes 2 ty ++ leBytes 1 chunk ++ leBytes 1 (bit al 0) ++ leBytes 1 (tileFill s tx ty) ++ [0#8]
    ++ leBytes 4 (nextStep s).toNat
    ++ if al then (List.range 1024).map fun o => BitVec.ofNat 8 (cellIn s tx ty (1024 * chunk + o)) else []

/-- An allocated tile is read through the cache (chapter 4, Tile cache). -/
def fetchTile (s : State) (tx ty : Nat) : State := if (tileAt s tx ty).isSome then useTile s (tileIndex tx ty) false else s

/-- MERGE of an old and a new cell value (R144). -/
def mergeCell (old new : Nat) : Nat :=
  max (cellCount old) (cellCount new) + bit (cellExc old || cellExc new) 2
    + 16 * (if cellZone new = 0 then cellZone old else cellZone new)

/-- The new value of a cell under REPLACE or MERGE (R144). -/
def newCell (mode old new : Nat) : Nat := if mode = 0 then cleanCell new else mergeCell old (cleanCell new)

/-- Write the 1,024 cells of a chunk (R144). -/
def writeChunk (s : State) (tx ty chunk mode : Nat) (b : List Byte) : State :=
  putCells s tx ty ((b.zipIdx 0).map fun p => (1024 * chunk + p.2, newCell mode (cellIn s tx ty (1024 * chunk + p.2)) p.1.toNat))

/-- Change every listed cell and the base of a tile. -/
def mapTile (t : Tile) (f : Nat → Nat) : Tile :=
  { t with base := f t.base,
           cells := t.cells.foldl (fun m e => sparseSet (fun _ => f t.base) m e.1 (f e.2)) [] }

/-- A whole-tile write: REPLACE frees the tile and sets its fill, MERGE merges the fill into every cell (R144). -/
def writeWhole (s : State) (tx ty mode fillv : Nat) : State :=
  if mode = 0 then (putFill (uncache (putTile s tx ty none) (tileIndex tx ty)) tx ty (cleanCell fillv)).1
  else match tileAt s tx ty with
    | some t => noteExc (useTile (putTile s tx ty (some (mapTile t fun v => mergeCell v (cleanCell fillv)))) (tileIndex tx ty) true) (cleanCell fillv)
    | none => (putFill s tx ty (mergeCell (tileFill s tx ty) (cleanCell fillv))).1

/-- TILE_WRITE of a valid request, and its response (R144). -/
def tileWrite (s : State) (b : List Byte) : State × List Byte :=
  let tx := leAt b 0 2
  let ty := leAt b 2 2
  let chunk := leAt b 4 1
  let mode := leAt b 5 1
  let s := if chunk = 0xFF then writeWhole s tx ty mode (leAt b 6 1) else writeChunk s tx ty chunk mode (b.drop 8)
  let s := showStore s
  (s, b.take 8 ++ leBytes 1 (bit (tileAt s tx ty).isSome 0) ++ [0#8, 0#8, 0#8] ++ leBytes 4 (nextStep s).toNat)

/-- A TILE_WRITE request is valid (R144). -/
def tileWriteOk (b : List Byte) : Bool :=
  let chunk := leAt b 4 1
  decide (leAt b 0 2 ≤ 511 ∧ leAt b 2 2 ≤ 511 ∧ leAt b 5 1 ≤ 1 ∧ leAt b 7 1 = 0)
    && (if chunk = 0xFF then decide (b.length = 8) else decide (chunk ≤ 3 ∧ b.length = 1032))

/-- A TILE_READ request is valid (R143). -/
def tileReadOk (b : List Byte) : Bool :=
  decide (leAt b 0 2 ≤ 511 ∧ leAt b 2 2 ≤ 511 ∧ leAt b 4 1 ≤ 3) && decide (leAt b 5 3 = 0)

/-! ### Clears (R146) -/

/-- Apply a change to every cell and fill. -/
def mapCells (s : State) (f : Nat → Nat) : State :=
  let blk := fun (b : DirBlock) => ({ fills := b.fills.foldl (fun m e => sparseSet (fun _ => f b.base) m e.1 (f e.2)) [],
                                      tiles := b.tiles.map fun t => (t.1, mapTile t.2 f), base := f b.base } : DirBlock)
  { s with map := { s.map with
    fill := s.map.fill.foldl (fun m e => sparseSet (fun _ => 0) m e.1 (f e.2)) [],
    blocks := s.map.blocks.map fun e => (e.1, e.2.map blk) } }

/-- A clear goes over the allocated tiles through the cache, square by square in rising order (DESIGN CHOICE, log entry 53). -/
def clearThroughCache (s : State) : State :=
  s.map.blocks.foldl (fun s e => match e.2 with
    | some b => b.tiles.foldl (fun s t =>
        useTile s (tileIndex (e.1 % 64 * 8 + t.1 % 8) (e.1 / 64 * 8 + t.1 / 8)) true) s
    | none => s) s

/-- The clear with the MAP_CLR bits `v` completes (R146). -/
def applyClear (s : State) (v : Nat) : State :=
  if v.testBit 3 then
    let s := { s with map := { s.map with fill := [], blocks := [], cache := [] } }
    setB (setB (setB (showStore s) MAP_STAT_FULL false) MAP_STAT_DFULL false) MAP_STAT_EXC_ANY false
  else
    let keep := fun (c : Nat) => (if v.testBit 0 then 0 else cellCount c) + (if v.testBit 1 then 0 else bit (cellExc c) 2)
      + 16 * (if v.testBit 2 then 0 else cellZone c)
    let s := clearThroughCache (mapCells s keep)
    let s := if v.testBit 1 then setB s MAP_STAT_EXC_ANY false else s
    -- R118: FULL and DFULL clear only under MAP_CLR; R146 names ALL for them
    s

/-- A write of MAP_CLR starts a clear (R146). -/
def startClear (s : State) (h v : Nat) : State :=
  if v % 16 = 0 then s
  else
    let s := record s 0x3007 h (leBytes 1 (v % 16))
    setB { s with map := { s.map with clear := some { clr := v % 16, slot := h } } } MAP_STAT_CLR_BUSY true

/-- MAP_CLEAR_DONE: the clear that runs completes (R146). -/
def clearDone (s : State) : State :=
  match s.map.clear with
  | none => s
  | some j => setB { applyClear s j.clr with map := { (applyClear s j.clr).map with clear := none } } MAP_STAT_CLR_BUSY false

/-! ### Polygons (R139 to R142) -/

/-- A polygon header of PLY (R139). -/
structure PolyHead where
  kind : Nat
  zval : Nat
  resv : Bool
  count : Nat
  first : Nat
  deriving DecidableEq, Repr

def polyHead (s : State) (p : Nat) : PolyHead :=
  let b := tget s .ply p
  { kind := leAt b 0 1 % 16, zval := leAt b 0 1 / 16, resv := decide (leAt b 1 1 ≠ 0 ∨ leAt b 6 2 ≠ 0), count := leAt b 2 2,
    first := leAt b 4 2 }

/-- A header in use breaks a rule of R141. -/
def polyBad (h : PolyHead) : Bool :=
  decide (3 < h.kind) || (decide (h.kind ≠ 0)
    && (decide (h.count < 3 ∨ 4096 < h.count ∨ 16384 < h.first + h.count) || h.resv))

/-- The vertices of a polygon in 2^−8 × 0.25 mm. -/
def polyVerts (s : State) (h : PolyHead) : List (Int × Int) :=
  (List.range h.count).map fun i => (tint s .ply (64 + h.first + i) 0 4 * 256, tint s .ply (64 + h.first + i) 4 4 * 256)

/-- An edge crosses the ray from a point to the east (even-odd rule). An edge counts from its lower end up to, but not at, its upper
end, and a point on the edge is not west of it: R140 does not say on which side such a centre lies (DESIGN CHOICE, log entry 54). -/
def crosses (px py : Int) (a b : Int × Int) : Bool :=
  if decide (a.2 ≤ py) = decide (b.2 ≤ py) then false
  else
    -- the crossing's east coordinate is beyond px
    if a.2 < b.2 then decide (0 < (b.1 - a.1) * (py - a.2) - (px - a.1) * (b.2 - a.2))
    else decide (0 < (a.1 - b.1) * (py - b.2) - (px - b.1) * (a.2 - b.2))

/-- A point is inside a closed polygon under the even-odd rule (R140). -/
def insidePoly (px py : Int) (v : List (Int × Int)) : Bool :=
  ((v.zip (v.drop 1 ++ v.take 1)).filter fun e => crosses px py e.1 e.2).length % 2 = 1

/-- The polygons in use with their vertices, in index order. -/
def polys (s : State) : List (PolyHead × List (Int × Int)) :=
  ((List.range 64).map (polyHead s)).filterMap fun h => if h.kind = 0 then none else some (h, polyVerts s h)

/-- EXC and ZONE of a point from the polygons (R140): bit 2 and bits 4 to 7 of a cell. -/
def polyCell (l : List (PolyHead × List (Int × Int))) (px py : Int) : Nat :=
  let hits := l.filter fun h => insidePoly px py h.2
  let bounds := l.any fun h => decide (h.1.kind = 1)
  let exc := (bounds && !hits.any fun h => decide (h.1.kind = 1)) || hits.any fun h => decide (h.1.kind = 2)
  bit exc 2 + 16 * ((hits.filter fun h => decide (h.1.kind = 3)).getLast?.map (·.1.zval)).getD 0

/-- The centre of a cell in 2^−8 × 0.25 mm. -/
def cellCentre (s : State) (g : Nat) : Int := ((g : Int) - 16384) * cellUnits s + cellUnits s / 2

/-- A segment meets a box: it has a point whose both coordinates lie in the box or on its border (exact; separating axes). That an
edge which only touches a tile's border crosses it is the model's choice (log entry 54). -/
def meetsBox (x0 x1 y0 y1 : Int) (a b : Int × Int) : Bool :=
  decide (min a.1 b.1 ≤ x1 ∧ x0 ≤ max a.1 b.1 ∧ min a.2 b.2 ≤ y1 ∧ y0 ≤ max a.2 b.2) &&
    (let c := fun (x y : Int) => (b.1 - a.1) * (y - a.2) - (b.2 - a.2) * (x - a.1)
     let l := [c x0 y0, c x0 y1, c x1 y0, c x1 y1]
     l.any (fun v => decide (0 ≤ v)) && l.any (fun v => decide (v ≤ 0)))

/-- The polygons have an edge in the square of tiles from (tx, ty), `n` tiles wide. -/
def edgeIn (s : State) (l : List (PolyHead × List (Int × Int))) (tx ty n : Nat) : Bool :=
  let lo := fun (t : Nat) => ((64 * t : Nat) - 16384 : Int) * cellUnits s
  l.any fun h => (h.2.zip (h.2.drop 1 ++ h.2.take 1)).any fun e => meetsBox (lo tx) (lo (tx + n)) (lo ty) (lo (ty + n)) e.1 e.2

/-- Keep COUNT and take EXC and ZONE of a pass (R140). -/
def passCell (old new : Nat) : Nat := cellCount old + new

/-- The cells of a pass over a tile (R140). -/
def passCells (s : State) (l : List (PolyHead × List (Int × Int))) (tx ty : Nat) : List (Nat × Nat) :=
  (List.range 4096).map fun o =>
    (o, passCell (cellIn s tx ty o) (polyCell l (cellCentre s (64 * tx + o % 64)) (cellCentre s (64 * ty + o / 64))))

/-- A tile finds no store: it receives a fill with EXC = 1, and the pass is PART (R141). Without a directory block the tile has no fill
but its square's, which receives the EXC then (DESIGN CHOICE, log entry 54). -/
def passFails (s : State) (tx ty : Nat) : State :=
  let s := setB (noteExc s 4) MAP_PLY_STAT_PART true
  let q := squareOf tx ty
  match blockAt s q with
  | some b => setBlock s q (some { b with fills := sparseSet (fun _ => b.base) b.fills (placeOf tx ty) (tileFill s tx ty ||| 4) })
  | none => { s with map := { s.map with fill := sparseSet (fun _ => 0) s.map.fill q (squareFill s q ||| 4) } }

/-- The pass over a tile: cells where an edge crosses or the tile is allocated, else the fill (R140, R141). -/
def passOne (s : State) (l : List (PolyHead × List (Int × Int))) (tx ty : Nat) : State :=
  if (tileAt s tx ty).isSome || edgeIn s l tx ty 1 then
    let p := passCells s l tx ty
    let t := putCells s tx ty p
    if p.all fun e => decide (cellIn t tx ty e.1 = e.2) then t else passFails t tx ty
  else
    let v := polyCell l (cellCentre s (64 * tx)) (cellCentre s (64 * ty))
    let t := putFill s tx ty (passCell (tileFill s tx ty) v)
    if t.2 then t.1 else passFails t.1 tx ty

/-- A square whose 64 tiles are unallocated with equal fills gives its block back (R117). -/
def tidySquare (s : State) (q : Nat) : State :=
  match blockAt s q with
  | none => s
  | some b =>
    let v := sparseGet (fun _ => b.base) b.fills 0
    if b.tiles.isEmpty && (List.range 64).all fun p => decide (sparseGet (fun _ => b.base) b.fills p = v) then
      let s := setBlock s q none
      { s with map := { s.map with fill := sparseSet (fun _ => 0) s.map.fill q v } }
    else s

/-- The pass over a square of 8 × 8 tiles (R140). -/
def passSquare (l : List (PolyHead × List (Int × Int))) (s : State) (q : Nat) : State :=
  let tx := q % 64 * 8
  let ty := q / 64 * 8
  if (blockAt s q).isNone && !edgeIn s l tx ty 8 then
    let v := passCell (squareFill s q) (polyCell l (cellCentre s (64 * tx)) (cellCentre s (64 * ty)))
    noteExc { s with map := { s.map with fill := sparseSet (fun _ => 0) s.map.fill q v } } v
  else
    let s := (List.range 64).foldl (fun s p => passOne s l (tx + p % 8) (ty + p / 8)) s
    tidySquare s q

/-- MAP_PLY_CTRL.GO: the headers are checked and the pass starts (R140 to R142). -/
def rasterGo (s : State) : State :=
  if flag s MAP_PLY_STAT_BUSY then s
  else match (List.range 64).find? fun p => polyBad (polyHead s p) with
    | some p => setF (setB s MAP_PLY_STAT_ERR true) MAP_PLY_STAT_ERR_POLY p
    | none =>
      let s := setB (setB (setB s MAP_PLY_STAT_ERR false) MAP_PLY_STAT_PART false) MAP_PLY_STAT_BUSY true
      { s with map := { s.map with pass := some { clr := 0, slot := 0 } } }

/-- RASTER_PASS_END: the pass completes; its values come into force (R140, R142). -/
def rasterEnd (s : State) : State :=
  match s.map.pass with
  | none => s
  | some _ =>
    let s := (List.range 4096).foldl (passSquare (polys s)) s
    let s := showStore (setB s MAP_PLY_STAT_BUSY false)
    let s := bump s MAP_PLY_STAT_PASSES
    record { s with map := { s.map with pass := none } } 0x3006 noInst (leBytes 4 (rd s MAP_PLY_STAT).toNat)

def execRasterPassEnd (s : State) : Host.Outcome State Fault Refusal := .next (rasterEnd s)

end Sys2Proof.Machine
end

