-- ==== Sys2Proof/Machine/MapTest.lean ====
section
/-!
DEFINITION. Sys2Proof/Machine/MapTest.lean: the footprint test (R121 to R123): probe time, probe coordinate and point, the
samples of the footprint and what they count, and the exclusion condition.
-/
namespace Sys2Proof.Machine

def chMap (s : State) (c : Nat) : ChMap := sparseGet (fun _ => ChMap.reset) s.map.ch c

def modChMap (s : State) (c : Nat) (f : ChMap → ChMap) : State :=
  { s with map := { s.map with ch := sparseMod (fun _ => ChMap.reset) s.map.ch c f } }

/-- P, µs: the longer look-ahead and the margin, within the horizon (R121). -/
def probeTime (s : State) (c : Nat) : Nat :=
  min (max (lookAhead s c 0) (lookAhead s c 1) + getF s MAP_PROBE_MARGIN * 1000) (horizonUs s (chKin s c).sdot)

/-- s_p, scaled (R121). -/
def probeCoord (s : State) (c : Nat) : Int := qAt (motionOf s c) ((probeTime s c : Int) * 2000)

/-- Turn a vector (x along, y to the right) by a heading: east and north. -/
def turnVec (h : Nat) (x y : Int) : Int × Int :=
  (roundDiv (x * sinQ24 h + y * cosQ24 h) (2 ^ 24), roundDiv (x * cosQ24 h - y * sinQ24 h) (2 ^ 24))

/-- Heading of the zone x axis at the predicted position, with part of the turn during P: `k` halves (R121, R122). -/
def probeHeading (s : State) (c p k : Nat) : Nat :=
  let b := chBody s c
  angle (((advance b 0 0 0).psi : Int) + tnat s .zon (chZone s c) 8 4 + roundDiv (b.r * p * k) 2000000)

/-- The probe point, 2^−8 × 0.25 mm: the predicted position moved by the ground velocity times P along the arc (R121). -/
def probePoint (s : State) (c p : Nat) : Int × Int :=
  let k := chKin s c
  let d := turnVec (probeHeading s c p 1) (roundDiv (k.sdot * p * 1024) 1000000000) (roundDiv (k.vlat * p * 1024) 1000000000)
  (k.e + d.1, k.n + d.2)

/-- Width of a channel's band, mm (R49). -/
def chWidth (s : State) (c : Nat) : Nat := tnat s .geo c 8 2

/-- The nearest integer of a quotient. -/
def roundNat (a b : Nat) : Nat := (2 * a + b) / (2 * b)

/-- Grid coordinates of the samples of a rectangle centred on a point and turned to a heading (R122). -/
def footCells (s : State) (c : Nat) (p : Int × Int) (h : Nat) : List (Int × Int) :=
  let cm := cellMm s
  let w := max (chWidth s c) cm
  let l := max (getF s MAP_PROBE_LEN) cm
  let na := min 32 (max 1 (roundNat w cm))
  let nl := min 8 (max 1 (roundNat l cm))
  let off := fun (i n len : Nat) => ((2 * i + 1 : Nat) - (n : Int)) * (len * 1024 : Nat) / (2 * n : Nat)
  (List.range nl).flatMap fun j => (List.range na).map fun i =>
    let d := turnVec h (off j nl l) (off i na w)
    (gridOf s (p.1 + d.1), gridOf s (p.2 + d.2))

/-- The counts of a test (R122). -/
structure FootCount where
  n : Nat
  b : Nat
  x : Nat
  oog : Bool
  deriving DecidableEq, Repr

/-- Rate of a zone's table at a prescription zone (R135, R136). -/
def rttRate (s : State) (t i : Nat) : Nat := tnat s .rtt (16 * t + i) 0 2

/-- A sample falls in an unallocated tile while the store is full and FULL_OFF is set (R118). -/
def fullOff (s : State) (x y : Int) : Bool :=
  insideGrid x y && flag s MAP_CTRL_FULL_OFF && (flag s MAP_STAT_FULL || flag s MAP_STAT_DFULL)
    && (tileAt s (x.toNat / 64) (y.toNat / 64)).isNone

/-- Count the samples of a footprint for a channel (R113, R118, R122). -/
def countFoot (s : State) (c : Nat) (l : List (Int × Int)) : FootCount :=
  let auto := decide (effRequest s c = rqAuto) && flag s MAP_CTRL_RX_EN
  l.foldl (fun f p =>
    let v := cellAt s p.1 p.2
    let exc := cellExc v || fullOff s p.1 p.2
    let blk := exc || decide (0 < cellCount v) || (auto && decide (rttRate s (chZone s c) (cellZone v) = 0))
    { n := f.n + 1, b := f.b + (if blk then 1 else 0), x := f.x + (if exc then 1 else 0), oog := f.oog || !insideGrid p.1 p.2 })
    { n := 0, b := 0, x := 0, oog := false }

/-- The samples of a channel's test at its probe point (R121, R122). -/
def probeCells (s : State) (c : Nat) : List (Int × Int) :=
  let p := probeTime s c
  footCells s c (probePoint s c p) (probeHeading s c p 2)

/-- The test of a channel at its probe point (R121, R122). -/
def probeTest (s : State) (c : Nat) : FootCount := countFoot s c (probeCells s c)

/-- The allocated tiles in which samples of a footprint fall, without repeats. -/
def footTiles (s : State) (l : List (Int × Int)) : List Nat :=
  (l.filterMap fun p =>
    if insideGrid p.1 p.2 ∧ (tileAt s (p.1.toNat / 64) (p.2.toNat / 64)).isSome then some (tileIndex (p.1.toNat / 64) (p.2.toNat / 64))
    else none).dedup

/-- The exclusion condition of R123. -/
def excluded (s : State) (f : FootCount) : Bool := decide (getF s MAP_THR_EXC * f.n < 256 * f.x)

/-- Exclusion cannot be tested for a channel (R134). -/
def untestable (s : State) (c : Nat) : Bool := !chPoseValid s c || !flag s MAP_CTRL_EN

/-- Exclusion cannot be tested, and manual ON is held off for it (R134). -/
def excUntested (s : State) (c : Nat) : Bool := untestable s c && flag s MAP_CTRL_EXC_NOPOSE && flag s MAP_STAT_EXC_ANY

/-- A host ON or PULSE in AUTO is suppressed at hand-over (R98). -/
def hostOnBlocked (s : State) (c : Nat) : Bool := if untestable s c then excUntested s c else excluded s (probeTest s c)

/-- A sample of the footprint at the present predicted position is excluded (R127). -/
def excludedHere (s : State) (c : Nat) : Bool :=
  let k := chKin s c
  decide (0 < (countFoot s c (footCells s c (k.e, k.n) (probeHeading s c 0 0))).x)

end Sys2Proof.Machine
end

