-- ==== Sys2Proof/Machine/Sch.lean ====
section
/-!
DEFINITION. Sys2Proof/Machine/Sch.lean: look-ahead scheduling (chapter 3): hand-over, order, late and passed targets,
pulses, cancels and inverse actions, retiming, confirmation, changes of request, and host posts.
-/
namespace Sys2Proof.Machine

/-! ### Hand-over -/

/-- The instant of an action at the master or the pin of an edge at `at_`: less the lead of a remote channel (R86). -/
def leaveTick (s : State) (c at_ : Nat) : Nat := at_ - linkLead s c * perUs

/-- The last instant already given to an edge of a channel (R93). -/
def lastGiven (s : State) (c : Nat) : Nat :=
  let e := (s.sch.edges.filter fun e => decide (e.ch = c)).map (·.tick)
  let l := (slotsWhere s fun e => decide (e.d.ch = c) && (decide (e.state = stArmed) || decide (e.state = stLate) || e.f.phase)).map
    fun i => leaveTick s c (slotAt s i).tr.fireAt
  (e ++ l).foldl max 0

/-- Hand an edge to the local issue stage, or a command to the ring, for instant `tick` (R86). -/
def giveEdge (s : State) (c kind tick rate : Nat) (slot : Option Nat) (origin : Nat) : State :=
  let delay := if kind = 2 then 0 else liveDelay s c kind
  if isLocal c then handEdge s { ch := c, kind := kind, tick := tick, slot := slot, rate := rate, origin := origin, delay := delay }
  else queueRemote (if kind = 2 ∨ slot.isSome then s else noteIssued s c (if kind = 0 then onState s c else 0) origin) c kind tick
    rate slot

/-- Origin class of an event for CAUSE: map 1, host and inverse 2 (R29). -/
def originClass (d : EvDesc) : Nat := if d.origin = 0 then 1 else 2

/-- The edge that a slot handed over last: 0 ON, 1 OFF, 2 RATE. -/
def givenKind (e : EvSlot) : Nat := if e.d.action = 3 then (if e.tr.trailed then 1 else 0) else e.d.action

/-- The channel is ON, or will be after the edges in the issue stage or, for a remote one, after its commands in flight (R102). -/
def willBeOn (s : State) (c : Nat) : Bool :=
  let last := if isLocal c then ((s.sch.edges.filter fun e => decide (e.ch = c) && decide (e.kind < 2)).getLast?).map (·.kind)
    else ((slotsWhere s fun e => decide (e.d.ch = c) && decide (e.state = stArmed ∨ e.state = stLate) && !e.f.blocked
        && decide (givenKind e < 2)).foldl (fun (b : Option (Nat × Nat)) i =>
      let e := slotAt s i
      match b with
      | some x => if x.1 ≤ e.tr.fireAt then some (e.tr.fireAt, givenKind e) else b
      | none => some (e.tr.fireAt, givenKind e)) none).map (·.2)
  match last with
  | some k => decide (k = 0)
  | none => decide (issuedState s c ≠ 0)

/-- The channel is held off for want of a pose or of tests (R71, R128, R134). -/
def heldOff (s : State) (c : Nat) : Bool := decide ((chMap s c).hold ≠ 0)

/-- Record what a hand-over used, in words 5 to 10 of the slot (R76); `wait`: the peak-phase deferral in 5 ns. D is held within the
horizon with it (R84). -/
def noteUse (s : State) (i c kind tick wait : Nat) (err : Int) (lead : Bool) : State :=
  let raw := lookAheadRaw s c kind + wait / perUs
  let d := min raw (horizonUs s (chKin s c).sdot)
  modSlotAt s i fun e => { e with
    u := { e.u with
      fireStep := if lead then BitVec.ofNat 32 (tick / slotsPerStep) else e.u.fireStep
      fireOfs := if lead then tick % slotsPerStep else e.u.fireOfs
      dUsed := d, dAct := if kind = 2 then 0 else liveDelay s c kind, dDefer := wait / per10us
      dFluid := fluidDelay s c, dLink := linkLead s c, err := err }
    f := { e.f with horizon := decide (d < raw), defer := decide (0 < wait) } }

/-- HORIZON counts once for an event; `wait`: the peak-phase deferral in 5 ns (R84). -/
def noteHorizon (s : State) (i c kind wait : Nat) : State :=
  if horizonUs s (chKin s c).sdot < lookAheadRaw s c kind + wait / perUs ∧ !(slotAt s i).f.horizon then
    bump (modFlags s i fun f => { f with horizon := true }) SCH_CNT_HORIZON_CNT
  else s

/-- The slot's edge is the trailing edge of a PULSE: its leading edge has been handed over (R75). -/
def onTrail (e : EvSlot) : Bool := decide (e.d.action = 3) && (e.f.phase || e.tr.trailed)

/-- The kind of edge that a slot hands over now: 0 ON, 1 OFF, 2 RATE (R75). -/
def slotKind (e : EvSlot) : Nat := if e.d.action = 3 then (if onTrail e then 1 else 0) else e.d.action

/-- The slot has an edge that is not yet handed over: it is PENDING, or a PULSE in PHASE 1, which is ARMED or LATE since its
leading edge was handed over (R75, R76, R81). -/
def awaits (e : EvSlot) : Bool :=
  decide (e.state = stPending) || (decide (e.d.action = 3) && e.f.phase && !e.f.blocked && !e.f.noconf
    && decide (e.state = stArmed ∨ e.state = stLate))

/-- Half nanoseconds from the boundary at which SCH knows the channel to the acting of an edge that fires at `tick` (R85). -/
def actHalfNs (s : State) (c kind tick : Nat) : Int :=
  (lookAhead s c kind : Int) * 2000 + ((tick : Int) - (s.now + 1) * slotsPerStep) * 10

/-- Predicted overshoot beyond `tgt`, 0.25 mm, of an edge that fires at `tick` (R76). -/
def overshoot (s : State) (c kind : Nat) (tgt : Int) (rev : Bool) (tick : Nat) : Int :=
  toUnits (beyond (motionOf s c) (tgt * unitScale) rev (actHalfNs s c kind tick))

/-- How long DRV holds an ON edge of `c` due at `tick` for its peak phase, 5 ns (R94). -/
def peakWait (s : State) (c kind tick : Nat) : Nat :=
  if kind = 0 ∧ takesPeak s c then earliestPeak s c tick - tick else 0

/-- Record a hand-over in the slot: what it used, its ERR, which grows by the way that a peak-phase deferral costs, HORIZON,
DEFER and their counters (R76, R84, R94). -/
def noteHand (s : State) (i c kind tick : Nat) (late lead : Bool) (err : Int) : State :=
  let e := slotAt s i
  let wait := peakWait s c kind tick
  let err := if 0 < wait then err + (overshoot s c kind e.d.tgt e.d.rev (tick + wait) - overshoot s c kind e.d.tgt e.d.rev tick) else err
  let s := if 0 < wait then bump s SCH_CNT_DEFER_CNT else s
  let s := noteUse (noteHorizon s i c kind wait) i c kind tick wait err lead
  if late || decide (0 < wait) then modChSch s c fun x => { x with llate := err } else s

/-- Hand over the edge of slot `i` for `tick`: ARMED on time, LATE otherwise; `err` in 0.25 mm (R86, R90, R93, R94, R98). An ON of a
channel that is held off is suppressed in the manner of R98 (R71, R128, R134; DESIGN CHOICE, log entry 59). HELD goes at the hand-over:
R76 does not say whether it stays (DESIGN CHOICE, log entry 48). -/
def handSlot (s : State) (i tick : Nat) (late : Bool) (err : Int) : State :=
  let e := slotAt s i
  let c := e.d.ch
  let kind := slotKind e
  let lead := !onTrail e
  let was := willBeOn s c
  let at_ := tick + linkLead s c * perUs
  if decide (kind = 0) && (heldOff s c || (decide (e.d.origin = 1) && decide (effRequest s c = rqAuto) && hostOnBlocked s c)) then
    -- suppressed, not handed over
    let s := noteUse (noteHorizon s i c kind 0) i c kind tick 0 err lead
    let s := { s with sys := { s.sys with lastOrigin := sparseSet (fun _ => 0) s.sys.lastOrigin c 1 } }
    modSlotAt s i fun e => { e with
      state := if late then stLate else stArmed
      f := { e.f with blocked := true, lateF := e.f.lateF || late, held := false }
      tr := { e.tr with fireAt := at_, exclOff := true } }
  else
    let wait := peakWait s c kind tick
    let s := noteHand s i c kind tick late lead err
    let s := giveEdge s c kind tick (if kind = 2 then e.d.param % 65536 else 0) (some i) (originClass e.d)
    let act := tick + wait + lookAhead s c kind * perUs
    modSlotAt s i fun e => { e with
      state := if !lead && decide (e.state ≠ stPending) then e.state else if late then stLate else stArmed
      f := { e.f with phase := decide (e.d.action = 3) && lead, lateF := e.f.lateF || late, held := false }
      tr := { e.tr with fireAt := at_, trailed := !lead, leadAct := if lead then act else e.tr.leadAct, wasOn := was } }

/-- An event record of R90: ACTION and e. -/
def lateRecord (s : State) (code : Nat) (e : EvSlot) (err : Int) : State :=
  record s code e.d.ch (leBytes 1 e.d.action ++ leBytes 4 (unsigned 32 err))

/-- The target of the edge that a slot hands over now: a distance-length trailing edge adds the length (R75). -/
def slotTarget (e : EvSlot) : Int :=
  if onTrail e && !e.d.punit then (if e.d.rev then e.d.tgt - e.d.param else e.d.tgt + e.d.param) else e.d.tgt

/-- The edge is a time-length trailing edge, which is placed by instant (R75, R90). -/
def timedTrail (e : EvSlot) : Bool := onTrail e && e.d.punit

/-- The edge falls due while one with an earlier target has not left: HELD, counted once (R93). -/
def holdSlot (s : State) (i : Nat) : State :=
  if (slotAt s i).f.held then s else bump (modFlags s i fun f => { f with held := true }) SCH_CNT_HOLD_CNT

/-- Release a held edge as LATE at `tick`, whatever the late window. Its ERR is the overshoot predicted there, and it counts in
SCH_CNT_LATE but writes no LATE record: R93 does not say which effects of R90 it takes (DESIGN CHOICE, log entry 48). -/
def releaseHeld (s : State) (i tick : Nat) : State :=
  let e := slotAt s i
  handSlot (bump s SCH_CNT_LATE_CNT) i tick true (overshoot s e.d.ch (slotKind e) (slotTarget e) e.d.rev tick)

/-- The target lies behind the channel beyond the late window (R90, R91). -/
def passSlot (s : State) (i : Nat) (err : Int) : State :=
  let s := lateRecord (bump s SCH_CNT_PASSED_CNT) 0x4002 (slotAt s i) err
  let s := modChSch s (slotAt s i).d.ch fun x => { x with llate := err }
  endSlot (modSlotAt s i fun e => { e with u := { e.u with err := err }, f := { e.f with held := false } }) i stPassed

/-- Within the late window (R90). -/
def inLateWindow (s : State) (x : Int) : Bool := decide (x ≤ (getF s SCH_LATE_WIN_VAL : Int) * 1000 * umScale)

/-- Judge slot `i` with the tick `b` of the boundary that opens the step for its edge; `held`: an event with an earlier target has
not been handed over; `gave`: one has been in this step. Answers the state and whether the slot's edge is still not handed over
(R86, R90, R93). -/
def judgeSlot (s : State) (i b : Nat) (held gave : Bool) : State × Bool :=
  let e := slotAt s i
  let c := e.d.ch
  let kind := slotKind e
  let s := noteHorizon s i c kind 0
  let last := lastGiven s c
  let next := max b (last + 1)
  match judge s c (slotTarget e) e.d.rev (lookAhead s c kind) with
  | .notYet => if e.f.held && gave && !held then (releaseHeld s i next, false) else (s, true)
  | .due n =>
    if held then (holdSlot s i, true)
    else if e.f.held then (releaseHeld s i next, false)
    else if gave && decide (b + n < last) then (releaseHeld (holdSlot s i) i next, false)
    else (handSlot s i (max (b + n) next) false 0, false)
  | .past x =>
    let err := toUnits x
    if held then (holdSlot s i, true)
    else if e.f.held then (releaseHeld s i next, false)
    else if gave && decide (b < last) then (releaseHeld (holdSlot s i) i next, false)
    else if inLateWindow s x || onTrail e then (handSlot (lateRecord (bump s SCH_CNT_LATE_CNT) 0x4001 e err) i next true err, false)
    else (passSlot s i err, false)

/-- A time-length trailing edge falls due at its own instant (R75, R90). -/
def judgeTrail (s : State) (i b : Nat) : State :=
  let e := slotAt s i
  let c := e.d.ch
  let act := e.tr.leadAct + e.d.param * perUs
  let at_ := max (act - lookAhead s c 1 * perUs) (leaveTick s c e.tr.fireAt + 1)
  let s := modSlotAt s i fun e => { e with tr := { e.tr with trailAct := act } }
  if b + slotsPerStep ≤ at_ then s
  else if b ≤ at_ then handSlot s i (max at_ (lastGiven s c + 1)) false 0
  else
    let err := toUnits (absI (chKin s c).sdot * ((b - at_ : Nat) * 10) * (2 ^ 24 * 10 ^ 9))
    handSlot (lateRecord (bump s SCH_CNT_LATE_CNT) 0x4001 e err) i (max b (lastGiven s c + 1)) true err

/-- Order of equal targets: ON and PULSE, then RATE, then OFF (R93). -/
def actionRank (e : EvSlot) : Nat := match slotKind e with
  | 0 => 0
  | 2 => 1
  | _ => 2

/-- Slots of a channel with an edge to hand over in one approach direction, in the order of their targets along it (R93). -/
def pendingOrder (s : State) (c : Nat) (rev : Bool) : List Nat :=
  let key := fun i => (if rev then -(slotTarget (slotAt s i)) else slotTarget (slotAt s i))
  sortBy (fun a b => decide (key a < key b) || (decide (key a = key b) && decide (actionRank (slotAt s a) ≤ actionRank (slotAt s b))))
    (slotsWhere s fun e => awaits e && decide (e.d.ch = c) && decide (e.d.rev = rev) && !timedTrail e)

/-- Phase 5 for one channel (R19, R85 to R94). -/
def schChannel (b : Nat) (s : State) (c : Nat) : State :=
  let s := (slotsWhere s fun e => awaits e && decide (e.d.ch = c) && timedTrail e).foldl (fun s i => judgeTrail s i b) s
  [false, true].foldl (fun s rev =>
    ((pendingOrder s c rev).foldl (fun (p : State × Bool × Bool) i =>
      let r := judgeSlot p.1 i b p.2.1 p.2.2
      (r.1, p.2.1 || r.2, p.2.2 || (!r.2 && decide ((slotAt r.1 i).state ≠ stPassed)))) (s, false, false)).1) s

/-- Channels with slots in use, without repeats, ascending. -/
def slotChannels (s : State) : List Nat :=
  (sortBy (fun a b => decide (a ≤ b)) ((slotsInUse s).map fun i => (slotAt s i).d.ch)).dedup

/-! ### Slotless edges (R92, R97) -/

/-- An edge without a slot at the first 5 ns slot of the step that opens at `b` (R92, R97); an ON that waits for its peak counts
(R94). -/
def giveSlotless (s : State) (c kind b origin : Nat) : State :=
  let tick := max b (lastGiven s c + 1)
  giveEdge (if 0 < peakWait s c kind tick then bump s SCH_CNT_DEFER_CNT else s) c kind tick 0 none origin

/-- An OFF finds no free slot: the channel is switched off without one (R97). -/
def slotlessOff (s : State) (c b origin : Nat) : State :=
  record (bump (giveSlotless s c 1 b origin) SCH_CNT_EOFF_CNT) 0x4003 c []

/-! ### Inverse actions (R102) -/

/-- Issue the inverse of the edge of slot `i`, which fires although it was cancelled, for the step that opens at `b` (R101, R102). -/
def inverse (s : State) (i b : Nat) : State :=
  let e := slotAt s i
  let c := e.d.ch
  let idle := decide (e.d.action = 1) && !e.tr.wasOn
  let r := effRequest s c
  let call := if e.d.action = 0 then true else if heldOff s c then false else if e.d.action = 1 then !idle && decide (r = rqAuto ∨ r = rqOn) else false
  let kind := if e.d.action = 0 then 1 else 0
  let pair : CxlPair := { ch := c, action := e.d.action, a := (i, e.gen), b := none, idle := idle, aDone := false, bDone := false,
                          aM := none, bM := none, bEst := 0, path := e.tr.path }
  let put := fun (s : State) (p : CxlPair) => { s with sch := { s.sch with pairs := s.sch.pairs ++ [p] } }
  if e.d.action ≥ 2 then s
  else if !call || !flag s SCH_CTRL_INV_EN then put s pair
  else
    let d : EvDesc := { EvDesc.zero with action := kind, origin := 2, ch := c, tgt := coordNow s c, rev := decide ((chKin s c).sdot < 0) }
    match (if mayAllocate s d then longestFree s else none) with
    | none =>
      let s := if kind = 1 then slotlessOff s c b 2 else record s 0x4004 c []
      put s pair
    | some j =>
      let s := fillSlot s j d (stepCnt s)
      let s := modSlotAt (modSlotAt s i fun e => { e with link := some j }) j fun e => { e with link := some i }
      let tick := max b (lastGiven s c + 1)
      let s := noteHand s j c kind tick false true 0
      let s := giveEdge s c kind tick 0 (some j) 2
      let at_ := tick + linkLead s c * perUs
      let s := modSlotAt s j fun e => { e with state := stArmed, tr := { e.tr with fireAt := at_, wasOn := true } }
      put s { pair with b := some (j, (slotAt s j).gen), bEst := at_ + liveDelay s c kind * per10us }

/-- UNWANT of a pair whose switchings are resolved (R102). -/
def unwantOf (p : CxlPair) : Nat :=
  match p.aM with
  | none => 0
  | some a =>
    if p.idle then 0
    else match p.b with
      | none => 0xFFFFFFFF
      | some _ =>
        let d := roundDiv (coordAt p.path a - coordAt p.path (p.bM.getD p.bEst)) (2 ^ 24)
        min (absI d).toNat 0xFFFFFFFE

/-- Follow a pair at a boundary: note ends and motions, and settle it once both switchings are resolved (R102). -/
def followPair (s : State) (p : CxlPair) : State × Option CxlPair :=
  let ended := fun (r : Nat × Nat) => !liveRef s r || isTerminal (slotAt s r.1).state
  let motion := fun (r : Nat × Nat) (o : Option Nat) => if liveRef s r then (match (slotAt s r.1).tr.leadM with | some t => some t | none => o) else o
  let p := { p with aM := motion p.a p.aM, aDone := p.aDone || ended p.a }
  let p := match p.b with
    | some r =>
      let e := slotAt s r.1
      { p with bM := motion r p.bM, bDone := p.bDone || ended r,
               bEst := if liveRef s r then e.tr.fireAt + e.u.dAct * per10us else p.bEst }
    | none => { p with bDone := true }
  if p.aDone && p.bDone then
    let u := unwantOf p
    let s := if liveRef s p.a then modSlotAt s p.a.1 fun e => { e with u := { e.u with unwant := u } } else s
    (record (bump s SCH_CNT_SPEC_EXEC_CNT) 0x4005 p.ch (leBytes 1 p.action ++ leBytes 4 u), none)
  else (s, some p)

/-! ### Cancel (R25, R101, R103) -/

/-- Result codes of R100. -/
def rcCancelled : Nat := 0
def rcCxlSent : Nat := 1
def rcInverse : Nat := 2
def rcTooLate : Nat := 3
def rcStale : Nat := 4
def rcReleased : Nat := 5
def rcNotOwn : Nat := 6

/-- The tag under which a command that is withdrawn unsent is cancelled at its node (R103). -/
def unsentTag (s : State) (c t : Nat) (q : RingCmd) : State :=
  let g : RingTag := { busy := true, slot := q.slot, k := q.k, op := q.op, tx := q.tx, rsp := 4, free := none, cxl := false }
  modNode s (ringOf c) (nodeOf c) fun x => { x with tags := sparsePut x.tags t (some g) }

/-- The state that a withdrawn slot takes: PENDING for a retiming, else CANCELLED (R103, R104). -/
def withdrawnState (e : EvSlot) : Nat := if e.tr.retime then stPending else stCancelled

/-- Withdraw the command of kind `kind` of a remote slot by a cancel frame (R103, R214). A command that has not been sent leaves the
queue and its tag is cancelled at the node, which then knows no such command; without a free tag the slot is withdrawn at once
(DESIGN CHOICE, log entry 49). -/
def withdrawRemote (s : State) (i kind at_ : Nat) : State :=
  let c := (slotAt s i).d.ch
  let r := ringOf c
  let n := nodeOf c
  let after := ringNs s r at_ + 1000
  let mine := fun (q : RingCmd) => decide (q.slot = some i) && decide (q.sent = 0) && decide (q.op ≠ 4)
  let unsent := (nodeAt s r n).queue.find? fun q => mine q && decide (q.op = kind + 1)
  let s := modNode s r n fun x => { x with queue := x.queue.filter fun q => !mine q }
  match unsent with
  | some q => (match freeTag (nodeAt s r n) with
    | some t => queueCancel (unsentTag s c t q) r n t after
    | none => modSlotAt s i fun e => { e with tr := { e.tr with next := some (withdrawnState e) } })
  | none => (match tagOf s c i kind with
    | some t => queueCancel s r n t after
    | none => s)

/-- Cancel slot `i`; `at_`: the boundary at which the cancel comes into force; `b`: the one that opens the step for an
inverse action (R101). Answers the result code of R100. -/
def cancelSlot (s : State) (i at_ b : Nat) : State × Nat :=
  let e := slotAt s i
  if awaits e && onTrail e then
    if e.f.cxl then (s, rcInverse)
    else
      let s := modFlags s i fun f => { f with cxl := true }
      (handSlot s i (max b (lastGiven s e.d.ch + 1)) false 0, rcInverse)
  else if e.state = stPending then (endSlotAt s i stCancelled (at_ / slotsPerStep), rcCancelled)
  else if e.state = stArmed ∨ e.state = stLate then
    if e.f.cxl then (s, if isLocal e.d.ch || onTrail e then rcInverse else rcCxlSent)
    else if isLocal e.d.ch || onTrail e then
      let s := modFlags s i fun f => { f with cxl := true }
      (if e.f.blocked then s else inverse s i b, rcInverse)
    else
      let s := modSlotAt s i fun e => { e with f := { e.f with cxl := true },
                                               tr := { e.tr with retime := false, next := e.tr.next.map fun _ => stCancelled } }
      (if e.tr.retime then s else withdrawRemote s i (givenKind e) at_, rcCxlSent)
  else (s, rcTooLate)

/-- An effective request permits an event of this origin and action (R25). -/
def permits (r : Nat) (d : EvDesc) : Bool :=
  if d.origin = 2 then decide (d.action = 1) || decide (r = rqAuto ∨ r = rqOn)
  else if r = rqAuto then true
  else if r = rqOn then decide (d.origin = 0)
  else if r = rqTest then decide (d.origin = 1)
  else false

/-- Cancel the slots that satisfy `p`. -/
def cancelWhere (s : State) (at_ b : Nat) (p : EvSlot → Bool) : State :=
  (slotsWhere s fun e => !isTerminal e.state && decide (e.state ≠ stIssued) && !e.f.cxl && p e).foldl
    (fun s i => (cancelSlot s i at_ b).1) s

/-- A change of a channel's effective request at a boundary (R25, R92, R127, R134). -/
def requestChange (s : State) (c : Nat) : State :=
  let r := effRequest s c
  let old := (chSch s c).eff
  if r = old then s
  else
    let b := nowTick s + slotsPerStep
    let s := modChSch s c fun x => { x with eff := r }
    let s := if r = rqTest ∨ old = rqTest then modChSch s c fun x => { x with tests := (s.now, decide (r = rqTest)) :: x.tests.take 1100 } else s
    let s := if r = rqTest then { s with sys := { s.sys with lastOrigin := sparseSet (fun _ => 0) s.sys.lastOrigin c 0 } } else s
    let s := cancelWhere s (nowTick s) b fun e => decide (e.d.ch = c) && !permits r e.d
    if r = rqOff then giveSlotless s c 1 b 1
    else if r = rqOn then
      let hold := if chPoseValid s c && flag s MAP_CTRL_EN then excludedHere s c else excUntested s c
      if hold then
        let s := modChMap s c fun m => { m with des := false }
        giveSlotless s c 1 b 1
      else giveSlotless s c 0 b 1
    else s

/-- Channels whose effective request may have changed: those in use, and those whose last one was not OFF. -/
def requestChannels (s : State) : List Nat :=
  (sortBy (fun a b => decide (a ≤ b)) (usedChannels s ++ sparseKeys s.sch.ch)).dedup

/-! ### Confirmation (R81, R87, R105) -/

/-- The edge whose motion completes a slot: T of R87, 2^−24 × 0.25 mm. -/
def measTarget (e : EvSlot) : Int :=
  if e.d.action = 3 ∧ e.d.punit then coordAt e.tr.path e.tr.trailAct
  else (if e.d.action = 3 then (if e.d.rev then e.d.tgt - e.d.param else e.d.tgt + e.d.param) else e.d.tgt) * 2 ^ 24

/-- MERR of a confirmed slot (R87). -/
def measError (e : EvSlot) (tm : Nat) : Int :=
  let b := tm / slotsPerStep
  let at_ := fun (n : Nat) => ((e.tr.path.find? fun p => decide (p.1 = n)).map (·.2)).getD (coordAt e.tr.path tm)
  -- ṡ(t_m)·D_fluid: the coordinate's advance in a step, times 10 µs units of D_fluid, over 25
  let travel := roundDiv ((at_ (b + 1) - at_ b) * e.u.dFluid) 25
  let x := coordAt e.tr.path tm + travel - measTarget e
  roundDiv (if e.d.rev then -x else x) (2 ^ 24)

/-- The boundaries that MERR needs have passed: a time-length trailing edge's T lies at its acting instant (R87). -/
def measReady (s : State) (e : EvSlot) : Bool := !(decide (e.d.action = 3) && e.d.punit) || decide (e.tr.trailAct ≤ nowTick s)

/-- The confirmation time of an ISSUED slot has run out (R81). -/
def confirmDue (s : State) (e : EvSlot) : Bool :=
  decide (e.state = stIssued) && decide (e.tr.fireAt + e.u.dAct * per10us + getF s SCH_CONF_TMO_VAL * perMs ≤ nowTick s)

/-- A slot completes without a measurement at the boundary that opens step `k` (R81, R105). -/
def completeNoconf (s : State) (i k : Nat) : State :=
  endSlotAt (bump (modFlags s i fun f => { f with noconf := true }) SCH_CNT_NOCONF_CNT) i stDone k

/-- The firing instant of a slot has passed; a remote channel's issued state follows its command here, a local one's at the
pin (R34, R81, R212). -/
def issueSlot (s : State) (i : Nat) : State :=
  let e := slotAt s i
  let s := modSlotAt s i fun e => { e with state := stIssued }
  let kind := if e.d.action = 3 then 1 else e.d.action
  if isLocal e.d.ch || e.tr.exclOff || decide (kind = 2) then s
  else noteIssued s e.d.ch (if kind = 0 then onState s e.d.ch else 0) (originClass e.d)

/-- DRV holds the slot's edge for its peak (R94). -/
def heldEdge (s : State) (i : Nat) : Bool :=
  let c := (slotAt s i).d.ch
  isLocal c && (match waitingOf s c with
    | some w => (match w.edge with
      | some x => decide (x.slot = some i)
      | none => false)
    | none => false)

/-- A withdrawal that the node has acknowledged takes effect: CANCELLED, or PENDING again after a retiming; a PULSE's leading edge is
then to be handed over again, or its trailing edge (R103, R104). -/
def withdrawnSlot (s : State) (i : Nat) : State :=
  match (slotAt s i).tr.next with
  | some st =>
    let s := modSlotAt s i fun e => { e with tr := { e.tr with next := none, retime := false, fireAt := 0, trailed := false },
                                             f := { e.f with spec := false, phase := e.tr.trailed } }
    if st = stCancelled then endSlotAt s i stCancelled s.now else modSlotAt s i fun e => { e with state := stPending }
  | none => s

/-- An ISSUED slot completes: RATE, BLOCKED and NOCONF at once, else with the motion of its last edge (R81, R87, R105). -/
def settleSlot (s : State) (i : Nat) : State :=
  let e := slotAt s i
  if e.d.action = 2 ∨ e.f.blocked then endSlotAt s i stDone s.now
  else if e.f.noconf then completeNoconf s i s.now
  else
    let m := if e.d.action = 3 then (if e.tr.leadM.isSome then e.tr.trailM else none) else e.tr.leadM
    match m with
    | some tm =>
      if measReady s e then
        let x := measError e tm
        let s := modChSch s e.d.ch fun h => { h with lerr := x }
        endSlotAt (modSlotAt s i fun e => { e with u := { e.u with merr := x } }) i stConfirmed s.now
      else s
    | none => if confirmDue s e then completeNoconf s i s.now else s

/-- The transitions of a slot at a boundary (R81, R82). -/
def slotBoundary (s : State) (i : Nat) : State :=
  let s := withdrawnSlot s i
  let e := slotAt s i
  let s := if decide (e.state = stArmed ∨ e.state = stLate) && decide (e.tr.fireAt ≤ nowTick s) && !heldEdge s i
      && !(awaits e && onTrail e) then issueSlot (modFlags s i fun f => { f with phase := false }) i else s
  if (slotAt s i).state = stIssued then settleSlot s i else s

/-- A terminal slot is released: at the next boundary, or after SCH_RETAIN (R82). -/
def retainDue (s : State) (e : EvSlot) : Bool :=
  isTerminal e.state && (if e.d.retain then decide (getF s SCH_RETAIN_VAL * stepsPerMs ≤ s.now - e.tr.endStep) else decide (e.tr.endStep < s.now))

def releaseDue (s : State) (i : Nat) : State := if retainDue s (slotAt s i) then freeSlot s i else s

/-- A map event that PASSED while DES still calls for it is posted again (R126). -/
def notePassed (s : State) (i : Nat) : State :=
  let e := slotAt s i
  if e.state = stPassed ∧ e.d.origin = 0 ∧ e.d.action < 2 ∧ e.tr.endStep = s.now then
    let f := fun (m : ChMap) => if m.ev = some (i, e.gen) ∧ m.des = decide (e.d.action = 0) then { m with again := true } else m
    modChMap s e.d.ch f
  else s

/-- A remote slot whose command was executed although cancelled gets its inverse at the boundary after the node's reply, acting
D_link later (R103, R215). -/
def remoteExec (s : State) (i : Nat) : State :=
  let e := slotAt s i
  if !isLocal e.d.ch && e.f.exec && e.f.cxl && e.link.isNone && decide (e.state = stArmed ∨ e.state = stLate ∨ e.state = stIssued)
      && !s.sch.pairs.any (fun p => decide (p.a = (i, e.gen))) then inverse s i (nowTick s)
  else s

/-- The boundary's part of SCH: transitions, pairs, releases, inverse actions of executed commands, changes of request, and the
clearing of EN (R25, R81, R82, R103, R107). -/
def schBoundary (s : State) : State :=
  let l := slotsInUse s
  let s := l.foldl notePassed s
  let s := l.foldl releaseDue s
  let s := (slotsInUse s).foldl slotBoundary s
  let p := s.sch.pairs
  let s := p.foldl (fun s q =>
    let r := followPair s q
    { r.1 with sch := { r.1.sch with pairs := r.1.sch.pairs ++ r.2.toList } }) { s with sch := { s.sch with pairs := [] } }
  let s := (slotsInUse s).foldl remoteExec s
  let s := (requestChannels s).foldl requestChange s
  let on := flag s SCH_CTRL_EN
  let s := if s.sch.en && !on then cancelWhere s (nowTick s) (nowTick s + slotsPerStep) fun _ => true else s
  { s with sch := { s.sch with en := on } }

/-! ### Remote slots in phase 5 (R103, R104, R215) -/

/-- A command of a slot is in flight that may be retimed: the remote slot is ARMED, sent and not being withdrawn; the leading edge of
a PULSE until its trailing edge is handed over (R104). -/
def mayRetime (s : State) (e : EvSlot) : Bool :=
  !isLocal e.d.ch && decide (e.state = stArmed) && !e.f.cxl && !e.tr.retime && decide (e.d.origin ≠ 2)
    && !(e.tr.trailed && e.d.punit) && e.f.spec && !e.f.blocked && flag s SCH_CTRL_RETIME_EN && decide (nowTick s < e.tr.fireAt)

/-- The target of the edge in flight (R75). -/
def givenTarget (e : EvSlot) : Int := if e.d.action = 3 ∧ !e.tr.trailed then e.d.tgt else slotTarget e

/-- A REPLACE with the new instant (R104, R215). -/
def sendReplace (s : State) (i kind new : Nat) : State :=
  let e := slotAt s i
  let c := e.d.ch
  let r := ringOf c
  let leave := new - linkLead s c * perUs
  match tagOf s c i kind with
  | some tg =>
    let s := pushCmd s c { op := 5, k := nodeCh c, tag := tg, tx := ringNs s r new, param := 0, slot := some i, sent := 0,
                           after := committedNs s r (nowTick s + slotsPerStep), counted := false }
    bump (modSlotAt s i fun e => { e with
      tr := { e.tr with fireAt := new }
      u := if e.tr.trailed then e.u
        else { e.u with fireStep := BitVec.ofNat 32 (leave / slotsPerStep), fireOfs := leave % slotsPerStep, err := 0 } })
      SCH_CNT_RETIME_CNT
  | none => s

/-- Retime an ARMED remote command (R104, R215). Where the channel no longer approaches the target, R104 gives no new instant: the
command stands (DESIGN CHOICE, log entry 50). -/
def retime (s : State) (i : Nat) : State :=
  let e := slotAt s i
  let c := e.d.ch
  if !mayRetime s e || !approaches s c e.d.rev then s
  else
    let m := motionOf s c
    let kind := givenKind e
    let lead := linkLead s c * perUs
    let d0 : Int := ((lookAhead s c kind - linkLead s c : Nat) : Int) * 2000
    let t := givenTarget e * unitScale
    let b := nowTick s + slotsPerStep
    let span := lead + slotsPerStep
    -- the way between the instant sent and the new one is what the place would be off
    let off := beyond m t e.d.rev (d0 + ((e.tr.fireAt : Int) - b) * 10)
    if absI off ≤ (getF s SCH_RETIME_TOL : Int) * unitScale then s
    else if e.tr.fireAt < nowTick s + lead then modSlotAt s i fun e => { e with u := { e.u with err := toUnits off } }
    else if 0 ≤ beyond m t e.d.rev d0 then sendReplace s i kind b
    else if 0 ≤ beyond m t e.d.rev (d0 + 10 * span) then sendReplace s i kind (b + findSlot 32 m t e.d.rev d0 0 span)
    else withdrawRemote (modSlotAt s i fun e => { e with tr := { e.tr with retime := true } }) i kind b

/-- Keep the coordinates at boundaries that MERR and UNWANT need (R87, R102). -/
def tracePaths (s : State) : State :=
  let s := (slotsWhere s fun e => decide (2 ≤ e.state ∧ e.state ≤ 4) || e.f.phase).foldl (fun s i =>
    let x := (chKin s (slotAt s i).d.ch).s
    modSlotAt s i fun e => { e with tr := { e.tr with path := (s.now + 1, x) :: e.tr.path.take 8192 } }) s
  { s with sch := { s.sch with pairs := s.sch.pairs.map fun p => { p with path := (s.now + 1, (chKin s p.ch).s) :: p.path.take 8192 } } }

/-- Keep what the windows show of this step (R108). -/
def latchSch (s : State) : State :=
  let d := (usedChannels s).map fun c => (c, lookAhead s c 0, lookAhead s c 1)
  { s with sch := { s.sch with shown := s.sch.slots, shownCh := s.sch.ch, shownLast := s.sys.expected, shownD := d } }

/-- Phase 5 of the step (R19): prediction, hand-over, retiming. -/
def schStep (s : State) : State :=
  let b := nowTick s + slotsPerStep
  let s := (slotsInUse s).foldl retime s
  let s := if flag s SCH_CTRL_EN then (slotChannels s).foldl (schChannel b) s else s
  latchSch (tracePaths s)

/-! ### Map events (R95 to R97, R125, R126) -/

/-- Post a map event: its slot, or none where it is refused (R95, R96); an OFF that finds no slot is made without one (R97). -/
def postMap (s : State) (c action : Nat) (tgt : Int) (param : Nat) : State × Option (Nat × Nat) :=
  let d : EvDesc := { EvDesc.zero with action := action, ch := c, tgt := tgt, param := param, rev := decide ((chKin s c).sdot < 0) }
  if !flag s SCH_CTRL_EN then (s, none)
  else match (if mayAllocate s d then longestFree s else none) with
    | some i =>
      let s := fillSlot s i d (stepCnt s)
      (s, some (i, (slotAt s i).gen))
    | none =>
      if action = 1 then (slotlessOff s c (nowTick s + slotsPerStep) 1, none)
      else (bump s SCH_CNT_ONDROP_CNT, none)

/-! ### Host posts (R89, R91, R98, R99) -/

/-- A descriptor of EVENT_POST (R99). -/
structure PostDesc where
  d : EvDesc
  cur : Bool
  rel : Bool
  ok : Bool
  deriving DecidableEq, Repr

/-- Read a descriptor (R76, R99). -/
def postDesc (h : Nat) (b : List Byte) : PostDesc :=
  let w0 := leAt b 0 4
  let act := w0 / 2 ^ 10 % 4
  let dir := w0 / 2 ^ 12 % 4
  let w2 := leAt b 8 4
  let p := leAt b 12 4
  let pok := if act = 2 then decide (p < 2 ^ 16) else if act = 3 then decide (0 < p ∧ p < 2 ^ 24) else decide (p = 0)
  { d := { action := act, origin := 1, ch := w0 % 512, host := h, rev := decide (dir = 1), retain := w0.testBit 14, tag := w0 / 2 ^ 16,
           tgt := signed 40 (leAt b 4 5), punit := w0.testBit 15, param := p },
    cur := decide (dir = 2), rel := w2.testBit 8,
    ok := decide (dir ≠ 3) && !w0.testBit 9 && decide (w2 / 2 ^ 9 = 0) && pok }

/-- The event of a descriptor at acceptance: CUR and REL are resolved (R89, R99). -/
def resolveDesc (s : State) (p : PostDesc) : EvDesc :=
  { p.d with rev := if p.cur then decide ((chKin s p.d.ch).sdot < 0) && !chStill s p.d.ch else p.d.rev,
             tgt := if p.rel then signed 40 (unsigned 40 (coordNow s p.d.ch + p.d.tgt)) else p.d.tgt }

/-- The event would be PASSED at acceptance (R90, R91). -/
def passedNow (s : State) (d : EvDesc) : Bool :=
  match judge s d.ch d.tgt d.rev (lookAhead s d.ch (if d.action = 3 then 0 else d.action)) with
  | .past x => decide ((getF s SCH_LATE_WIN_VAL : Int) * 1000 * umScale < x)
  | _ => false

/-- Accept one event: its 4-byte entry of the response, or none where no slot can be given (R90, R91, R95, R99). -/
def acceptPost (s : State) (d : EvDesc) : State × Option Nat :=
  let noSlot := 2 ^ 22 + stPassed * 2 ^ 18
  if passedNow s d && !d.retain then
    let err := match judge s d.ch d.tgt d.rev (lookAhead s d.ch (if d.action = 3 then 0 else d.action)) with
      | .past x => toUnits x
      | _ => 0
    let s := lateRecord (bump s SCH_CNT_PASSED_CNT) 0x4002 { EvSlot.reset with d := d } err
    (modChSch s d.ch fun x => { x with llate := err }, some noSlot)
  else match (if mayAllocate s d then longestFree s else none) with
    | none => (s, none)
    | some i =>
      let s := fillSlot s i d (nextStep s)
      let before := (pendingOrder s d.ch d.rev).takeWhile fun j => decide (j ≠ i)
      let late := match judge s d.ch d.tgt d.rev (lookAhead s d.ch (slotKind (slotAt s i))) with
        | .past _ => true
        | _ => false
      let s := if late then (judgeSlot s i (nowTick s + 2 * slotsPerStep) (!before.isEmpty && !passedNow s d) false).1 else s
      let e := slotAt s i
      (s, some (i + e.gen * 2 ^ 10 + (if e.state = stArmed then stLate else e.state) * 2 ^ 18))

/-- Accept the descriptors in order; none where the pool runs out (R96). -/
def acceptAll : State → List PostDesc → List Nat → Option (State × List Nat)
  | s, [], acc => some (s, acc.reverse)
  | s, p :: r, acc => match acceptPost s (resolveDesc s p) with
    | (s, some x) => acceptAll s r (x :: acc)
    | (_, none) => none

/-! ### Rows -/

/-- CONFIRM_TIMEOUT of slot `i`: no motion report arrived in time (R81, R105). -/
def execConfirmTimeout (i : Nat) (s : State) : Host.Outcome State Fault Refusal :=
  answer (decide (i < ladleSize)) (let e := slotAt s i
    if confirmDue s e && !e.f.blocked && decide (e.d.action ≠ 2) then completeNoconf s i (s.now + 1) else s)

/-- RETAIN_TIMEOUT of slot `i` (R82). -/
def execRetainTimeout (i : Nat) (s : State) : Host.Outcome State Fault Refusal :=
  answer (decide (i < ladleSize)) (if (slotAt s i).d.retain then releaseDue s i else s)

/-! ### The windows (R108) and register rules -/

/-- The values of the slot window, from the last completed step (R108). -/
def slotWindow (s : State) (i : Nat) : List (Nat × Word) :=
  let w := slotWords (sparseGet evDef s.sch.shown i)
  (SCH_SLOT_STEP, stepCnt s) :: (List.range 16).map fun n => (SCH_SLOT_STAT + n, w.getD n 0)

/-- The values of the SCH channel window, from the last completed step (R108). -/
def schChWindow (s : State) (c : Nat) : List (Nat × Word) :=
  let l := (s.sch.shown.filter fun e => decide (e.2.state ≠ stFree) && decide (e.2.d.ch = c)).map (·.2)
  let n := (l.filter fun e => !isTerminal e.state).length
  let last := match sparseGet (fun _ => 0) s.sch.shownLast c with
    | 0 => 1
    | 1 => 0
    | _ => 2
  let d := sparseGet (fun c => (lookAhead s c 0, lookAhead s c 1)) s.sch.shownD c
  let x := sparseGet (fun _ => ChSch.reset) s.sch.shownCh c
  [(SCH_CH_STEP, stepCnt s), (SCH_CH_INFO, BitVec.ofNat 32 (n + last * 2 ^ 12 + bit (l.any (·.f.held)) 14)),
   (SCH_CH_D_ON, BitVec.ofNat 32 d.1), (SCH_CH_D_OFF, BitVec.ofNat 32 d.2),
   (SCH_CH_LERR, BitVec.ofInt 32 x.lerr), (SCH_CH_LLATE, BitVec.ofInt 32 x.llate)]

/-- The rules of a write to an SCH register: values beyond a range are stored as the nearest limit; LIM above 1,024 is
refused (chapter 3, SCH registers). -/
def schStore (i : Nat) (v : Word) : Option Word :=
  let lim := fun (hi lo a b : Nat) => some (bitsSet v hi lo (clampN a b (bitsOf v hi lo)))
  if i = SCH_LATE_WIN then lim 8 0 0 500
  else if i = SCH_QUOTA then lim 8 0 0 256
  else if i = SCH_HORIZON then some (bitsSet (bitsSet v 10 0 (clampN 1 2000 (bitsOf v 10 0))) 21 16 (clampN 1 40 (bitsOf v 21 16)))
  else if i = SCH_CONF_TMO then lim 7 0 1 255
  else if i = SCH_RETAIN then lim 15 0 1 60000
  else if 0x0C08 ≤ i ∧ i ≤ 0x0C0B then if 1024 < bitsOf v 10 0 then none else some v
  else some v

/-- Every output of SCH goes off: local ones at once, remote ones by a command without a slot (R14, R107). -/
def schOutputsOff (s : State) : State :=
  let s := drvChans.foldl (fun s c => if openOrWaiting s c then shutChannel s (nowTick s) c else s) s
  ((usedChannels s).filter fun c => !isLocal c && decide (issuedState s c ≠ 0)).foldl
    (fun s c => giveEdge s c 1 (nowTick s) 0 none 1) s

/-- A reset of SCH frees every slot and switches its outputs off; its registers and tables take their reset values, but for the
lease that a state word shows (R14, R107, R398, R450). -/
def schReset (s : State) : State :=
  let s := schOutputsOff s
  let keep := (s.regs.filter fun e => decide (0x0D00 ≤ e.1 ∧ e.1 < 0x0F00)).map fun e => (e.1, e.2 &&& 0xE0000000#32)
  let s := { (tclear (resetRegs s fun i => decide (0x0C00 ≤ i ∧ i < 0x0F00)) .sec) with sch := SchState.reset }
  let s := keep.foldl (fun s e => wr s e.1 (e.2 ||| regReset e.1)) s
  { s with sys := { s.sys with expected := [], lastOrigin := [] } }

end Sys2Proof.Machine
end

