-- ==== Sys2Proof/Machine/MapStep.lean ====
section
/-!
DEFINITION. Sys2Proof/Machine/MapStep.lean: phase 4 of the step (R19): footprint decisions and map events (R120 to R128,
R136), holding off (R71, R128, R134), marking as applied (R129 to R133), turn factors and zone rates (R137, R138).
-/
namespace Sys2Proof.Machine

/-! ### Holding a channel off (R71, R128, R134) -/

/-- CAUSE with which a channel is held off now, else 0. -/
def holdCause (s : State) (c : Nat) : Nat :=
  let r := effRequest s c
  if r = rqAuto then
    if !flag s MAP_CTRL_EN then 8 else if chPoseValid s c && chMotionValid s c then 0 else 9
  else if r = rqOn then (if excUntested s c then 8 else 0)
  else 0

/-- A map event of a channel still in PENDING (R125). -/
def pendingMap (s : State) (c action : Nat) : List Nat :=
  slotsWhere s fun e => decide (e.state = stPending) && decide (e.d.ch = c) && decide (e.d.origin = 0) && decide (e.d.action = action)

/-- The state in which the map's decision leaves a channel at its present place: an event that is still PENDING changes it later. -/
def desiredNow (s : State) (c : Nat) : Bool :=
  if (chMap s c).des then (pendingMap s c 0).isEmpty else !(pendingMap s c 1).isEmpty

/-- The channel applies under its request ON although exclusion cannot be tested (R134). -/
def appliesUntested (s : State) (c : Nat) : Bool := decide (effRequest s c = rqOn) && untestable s c && !excUntested s c

/-- Hold a channel off by an OFF without a slot, which follows what was handed over before it; end the hold with the state that is
desired, and let a channel in ON apply where exclusion cannot be tested (R71, R128, R134). -/
def holdStep (s : State) (c : Nat) : State :=
  let m := chMap s c
  let new := holdCause s c
  let free := appliesUntested s c
  let on := willBeOn s c
  let tested := decide (effRequest s c = rqAuto ∨ effRequest s c = rqOn) && !untestable s c
  let b := nowTick s + slotsPerStep
  let s := modChMap s c fun m => { m with hold := new, free := free }
  if new ≠ 0 then (if m.hold = 0 ∧ on then giveSlotless s c 1 b 1 else s)
  else if !on && ((free && !m.free) || (decide (m.hold ≠ 0) && tested && desiredNow s c)) then giveSlotless s c 0 b 1
  else s

/-! ### The decision of a test (R123 to R126, R136) -/

/-- The last test was excluded, and nothing else kept the channel off: an ON after it is decided by exclusion. Where the exclusion and
the coverage clear in one step, θ_on decides (R124; DESIGN CHOICE, log entry 55). -/
def exclusionHeld (s : State) (c : Nat) : Bool :=
  let m := chMap s c
  decide (getF s MAP_THR_EXC * m.n < 256 * m.x) && decide (256 * m.b ≤ getF s MAP_THR_ON * m.n)

/-- The new DES, whether exclusion decided it, and the threshold crossed (R123, R124). -/
def decide123 (s : State) (c : Nat) (f : FootCount) : Bool × Bool × Nat :=
  let des := (chMap s c).des
  let auto := decide (effRequest s c = rqAuto)
  if excluded s f then (false, true, getF s MAP_THR_EXC)
  else if auto && des && decide (getF s MAP_THR_OFF * f.n ≤ 256 * f.b) then (false, false, getF s MAP_THR_OFF)
  else if auto && !des && decide (256 * f.b ≤ getF s MAP_THR_ON * f.n) then
    if exclusionHeld s c then (true, true, getF s MAP_THR_EXC) else (true, false, getF s MAP_THR_ON)
  else if !auto && !des then (true, true, getF s MAP_THR_EXC)
  else (des, false, 0)

/-- The target of a change, 0.25 mm: interpolated between the tests of two consecutive steps, else s_p (R124). Where f is the same in
both, which R124's quotient leaves open, it is s_p too (DESIGN CHOICE, log entry 55). -/
def changeTarget (s : State) (c : Nat) (f : FootCount) (sp dir : Int) (byExc : Bool) (θ : Nat) : Int :=
  let m := chMap s c
  -- f as a fraction over both sample counts
  let q := fun (x n : Nat) => ((256 * x * n : Nat) : Int)
  let f1 := if byExc then q f.x m.n else q f.b m.n
  let f0 := if byExc then q m.x f.n else q m.b f.n
  let den := f1 - f0
  if m.step = some (s.now - 1) ∧ 0 < s.now ∧ m.dir = dir ∧ den ≠ 0 then
    let num := (θ : Int) * ((f.n * m.n : Nat) : Int) - f0
    let up := (sp - m.probe) * (if den < 0 then -num else num)
    toUnits (m.probe + up / absI den)
  else toUnits sp

/-- Post the event of a change of DES, or withdraw the pending one of the opposite action (R96, R125, R126). An event that SCH refuses
because SCH_CTRL.EN is 0 is posted again as one refused under R96 is: R126 does not name it (DESIGN CHOICE, log entry 56). -/
def postChange (s : State) (c : Nat) (des : Bool) (tgt : Int) : State :=
  let opp := pendingMap s c (if des then 1 else 0)
  match opp with
  | i :: _ =>
    let s := (cancelSlot s i (nowTick s) (nowTick s + slotsPerStep)).1
    modChMap s c fun m => { m with ev := none, again := false }
  | [] =>
    let p := postMap s c (if des then 0 else 1) tgt 0
    let again := p.2.isNone && (des || !flag s SCH_CTRL_EN)
    modChMap p.1 c fun m => { m with ev := p.2, again := again }

/-- An event that PASSED or was refused is replaced while DES still calls for it, in the next step, with the target s_p of that step
(R126). While the channel is held off the replacement waits. -/
def repost (s : State) (c : Nat) : State :=
  let m := chMap s c
  if !m.again || !flag s SCH_CTRL_EN || decide (m.hold ≠ 0) then s
  else
    let s := modChMap (bump s MAP_CNT_REPOST_CNT) c fun m => { m with again := false }
    if m.des then
      let p := postMap s c 0 (toUnits (probeCoord s c)) 0
      modChMap p.1 c fun m => { m with ev := p.2, again := p.2.isNone }
    else giveSlotless s c 1 (nowTick s + slotsPerStep) 1

/-- A change of the rate at the probe point is posted (R136). The first test with a rate, which has no earlier test to change from,
posts it too (DESIGN CHOICE, log entry 57). -/
def rateStep (s : State) (c zval : Nat) (sp : Int) : State :=
  if flag s MAP_CTRL_RX_EN then
    let r := rttRate s (chZone s c) zval
    if (chMap s c).rate = some r then s
    else
      let p := postMap s c 2 (toUnits sp) r
      if p.2.isSome then modChMap p.1 c fun m => { m with rate := some r } else p.1
  else modChMap s c fun m => { m with rate := none }

/-- The tiles that the probe point of a channel reaches within the following two steps are brought into the cache (chapter 4, Tile
cache). -/
def prefetch (s : State) (c : Nat) : State :=
  [1, 2].foldl (fun s k =>
    let p := probePoint s c (probeTime s c + 250 * k)
    let x := gridOf s p.1
    let y := gridOf s p.2
    if insideGrid x y then fetchTile s (x.toNat / 64) (y.toNat / 64) else s) s

/-- The tiles under a footprint are in the cache at the moment of the test: always while the conditions of R119 hold, else free for
tiles that have to be brought in. Afterwards they are there. -/
def cacheTiles (s : State) (l : List Nat) : State × Bool :=
  let use := fun (s : State) => l.foldl (fun s t => useTile s t false) s
  if l.all (cached s) || s.map.calm then (use s, true)
  else
    let f := fresh s
    (use f.2, Config.freeBool f.1)

/-- The first test of a channel that is on under its request ON finds it excluded: DES is OFF without a change, so R125 posts nothing.
It goes off at the probe point, or at once where its footprint is excluded already, as in R127 (DESIGN CHOICE, log entry 55). -/
def startExcluded (s : State) (c : Nat) (sp : Int) : State :=
  if excludedHere s c then giveSlotless s c 1 (nowTick s + slotsPerStep) 1
  else
    let p := postMap s c 1 (toUnits sp) 0
    modChMap p.1 c fun m => { m with ev := p.2 }

/-- The decision of a resolved test and its event (R123 to R126, R136). -/
def takeTest (s : State) (c : Nat) (f : FootCount) : State :=
  let sp := probeCoord s c
  let dir : Int := if (chKin s c).sdot < 0 then -1 else 1
  let pp := probePoint s c (probeTime s c)
  let zval := cellZone (cellAt s (gridOf s pp.1) (gridOf s pp.2))
  let m := chMap s c
  let d := decide123 s c f
  let tgt := changeTarget s c f sp dir d.2.1 d.2.2
  let s := if d.1 ≠ m.des then postChange (modChMap s c fun m => { m with des := d.1 }) c d.1 tgt
    else if !d.1 && !m.tested && decide (effRequest s c = rqOn) && willBeOn s c && (pendingMap s c 1).isEmpty then
      startExcluded s c sp
    else s
  modChMap (rateStep s c zval sp) c fun m => { m with n := f.n, b := f.b, x := f.x, tested := true, miss := false, probe := sp, dir := dir,
                                                      step := some s.now, zval := zval }

/-- One channel's test (R119 to R126). Answers whether a sample fell outside the grid. -/
def testChannel (s : State) (c : Nat) : State × Bool :=
  let s := repost s c
  if chStill s c || !chPoseValid s c then (modChMap s c fun m => { m with tested := false, miss := false }, false)
  else
    let cells := probeCells s c
    let f := countFoot s c cells
    let t := cacheTiles s (footTiles s cells)
    let s := prefetch t.1 c
    let pp := probePoint s c (probeTime s c)
    let s := modChMap s c fun m => { m with oog := f.oog, tile := some (gridOf s pp.1 / 64, gridOf s pp.2 / 64) }
    if t.2 then (takeTest s c f, f.oog)
    else (modChMap (bump s MAP_CNT_MISS_CNT) c fun m => { m with tested := false, miss := true }, f.oog)

/-- The channel is tested in this step (R120). -/
def isTested (s : State) (c : Nat) : Bool :=
  flag s MAP_CTRL_EN && chUsed s c && decide (effRequest s c = rqAuto ∨ effRequest s c = rqOn)

/-- Tile of a channel's probe point. -/
def probeTile (s : State) (c : Nat) : Int × Int :=
  let p := probePoint s c (probeTime s c)
  (gridOf s p.1 / 64, gridOf s p.2 / 64)

/-- Tile of the point that is marked for a channel in this step (R130). -/
def markTile (s : State) (c : Nat) : Option (Int × Int) :=
  ((s.map.hist.find? fun b => decide (b.step = s.now - 63)).bind fun b => b.bands.find? fun x => decide (x.ch = c)).map
    fun b => (gridOf s ((b.lE + b.rE) / 2) / 64, gridOf s ((b.lN + b.rN) / 2) / 64)

/-- The conditions of R119: speeds, the number of tiles, and the moves of the probe points. Where no tile is allocated nothing can miss. -/
def isCalm (s : State) : Bool :=
  s.map.blocks.isEmpty ||
    (let l := usedChannels s
     let probed := (l.filter (isTested s)).map fun c => (c, probeTile s c)
     let near := fun (a b : Int) => decide (absI (a - b) ≤ 1)
     l.all (fun c => decide (absI (chKin s c).sdot ≤ 16666666))
       && decide ((probed.map (·.2) ++ l.filterMap (markTile s)).dedup.length ≤ 192)
       && (s.map.moved || s.kin.blend.isSome || probed.all fun p => match (chMap s p.1).tile with
         | some t => near t.1 p.2.1 && near t.2 p.2.2
         | none => true))

/-- Channels that MAP has tested or tests. -/
def mapChannels (s : State) : List Nat :=
  (sortBy (fun a b => decide (a ≤ b)) (usedChannels s ++ sparseKeys s.map.ch)).dedup

/-- Tests start: DES is OFF for every channel (R128). -/
def startTests (s : State) : State :=
  (sparseKeys s.map.ch).foldl (fun s c => modChMap s c fun m => { m with des := false, tested := false, step := none, tile := none, again := false }) s

/-- Decisions of the step: tests of the channels in AUTO and ON; others are not tested, and their DES is OFF when they are
tested again (R120, R123, R128). -/
def mapTests (s : State) : State × Bool :=
  let on := flag s MAP_CTRL_EN
  let s := if on && !s.map.en then startTests s else s
  let s := { s with map := { s.map with calm := isCalm s, en := on } }
  (mapChannels s).foldl (fun (p : State × Bool) c =>
    let s := if chUsed s c then holdStep p.1 c else p.1
    if isTested s c then
      let t := testChannel s c
      (t.1, p.2 || t.2)
    else (modChMap s c fun m => { m with des := false, tested := false, miss := false, step := none, tile := none, rate := none, again := false },
      p.2)) (s, false)

/-! ### Marking (R129 to R133) -/

/-- A channel's band at the present boundary (R130). -/
def bandOf (s : State) (c : Nat) : Band :=
  let b := chBody s c
  let o := outletAt s c
  let p := placePoint b o.1 o.2
  let h := angle ((b.psi : Int) + tnat s .zon (chZone s c) 8 4)
  let w : Int := (max (chWidth s c) (cellMm s) : Nat) * 512
  let d := turnVec h 0 w
  { ch := c, lE := p.1 - d.1, lN := p.2 - d.2, rE := p.1 + d.1, rN := p.2 + d.2 }

/-- Keep the bands of the last 66 boundaries. -/
def keepBands (s : State) : State :=
  let l := ((usedChannels s).filter fun c => chPoseValid s c).map (bandOf s)
  let b : BandSet := { step := s.now, dist := (roundDiv (absI s.kin.car.u) 4000).toNat, bands := l }
  { s with map := { s.map with hist := (b :: s.map.hist).take 66 } }

/-- The motion instant of a switching, or its estimate (R131). -/
def swingAt (w : Swing) : Nat := w.motion.getD (w.tick + w.est * per10us)

/-- The open intervals of a channel within `a` to `b` from its switchings, oldest first; `open_`: open at the start. -/
def openSpans : List Swing → Nat → Nat → Bool → List (Nat × Nat)
  | [], a, b, open_ => if open_ && decide (a < b) then [(a, b)] else []
  | w :: r, a, b, open_ =>
    let t := max a (min b (swingAt w))
    (if open_ && decide (a < t) then [(a, t)] else []) ++ openSpans r t b w.isOpen

/-- The channel is in TEST in the step that ends at boundary `n`: a request changes at boundaries only (R25, R129). -/
def inTest (s : State) (c n : Nat) : Bool := (((chSch s c).tests.find? fun p => decide (p.1 < n)).map (·.2)).getD false

/-- The ground-open intervals of a channel in the step that ends at boundary `n`, in 5 ns from its start (R129). -/
def groundOpen (s : State) (c n : Nat) : List (Nat × Nat) :=
  let fl := fluidDelay s c * per10us
  let a := (n - 1) * slotsPerStep - fl
  let l := sortBy (fun x y => decide (swingAt x ≤ swingAt y)) (swingsAt s c).reverse
  let before := l.filter fun w => decide (swingAt w ≤ a)
  let after := l.filter fun w => decide (a < swingAt w)
  let open_ := match before.getLast? with
    | some w => w.isOpen
    | none => false
  if inTest s c n then [] else (openSpans after a (a + slotsPerStep) open_).map fun p => (p.1 - a, p.2 - a)

/-- Estimates used for the step that ends at boundary `n` are counted and stand, whatever is reported later (R131). -/
def fixEstimates (s : State) (c n : Nat) : State :=
  let fl := fluidDelay s c * per10us
  let b := n * slotsPerStep - fl
  let used := (swingsAt s c).filter fun w => w.motion.isNone && decide (swingAt w ≤ b)
  let meas := (swingsAt s c).any fun w => w.motion.isSome && decide (swingAt w ≤ b) && decide (b < swingAt w + slotsPerStep)
  if used.isEmpty then (if meas then modChMap s c fun m => { m with est := false } else s)
  else
    let s := setSwings s c ((swingsAt s c).map fun w => if w.motion.isNone ∧ swingAt w ≤ b then { w with motion := some (swingAt w) } else w)
    modChMap (bump s MAP_CNT_EST_CNT used.length) c fun m => { m with est := true }

/-- Cross product of (b − a) and (p − a). -/
def cross (a b p : Int × Int) : Int := (b.1 - a.1) * (p.2 - a.2) - (b.2 - a.2) * (p.1 - a.1)

/-- A point lies on a segment. -/
def onSegment (a b p : Int × Int) : Bool :=
  decide (cross a b p = 0) && decide (min a.1 b.1 ≤ p.1 ∧ p.1 ≤ max a.1 b.1 ∧ min a.2 b.2 ≤ p.2 ∧ p.2 ≤ max a.2 b.2)

/-- A centre is inside the area swept from band l0–r0 to band l1–r1; on its boundary only at the left end or on the first
band (R130). -/
def insideSwept (l0 r0 l1 r1 p : Int × Int) : Bool :=
  if onSegment l1 r1 p || onSegment r0 r1 p then false
  else if onSegment l0 l1 p || onSegment l0 r0 p then true
  else insidePoly p.1 p.2 [l0, l1, r1, r0]

/-- A point between two at `t` of 50,000. -/
def between (a b : Int × Int) (t : Nat) : Int × Int :=
  (a.1 + roundDiv ((b.1 - a.1) * t) slotsPerStep, a.2 + roundDiv ((b.2 - a.2) * t) slotsPerStep)

/-- Mark the cells whose centres lie in one trimmed area (R113, R130). Answers whether a mark fell outside the grid. -/
def markSpan (s : State) (c : Nat) (x y : Band) (t : Nat × Nat) : State × Bool :=
  let l0 := between (x.lE, x.lN) (y.lE, y.lN) t.1
  let r0 := between (x.rE, x.rN) (y.rE, y.rN) t.1
  let l1 := between (x.lE, x.lN) (y.lE, y.lN) t.2
  let r1 := between (x.rE, x.rN) (y.rE, y.rN) t.2
  let lo := fun (f : Int × Int → Int) => gridOf s (min (min (f l0) (f r0)) (min (f l1) (f r1)))
  let hi := fun (f : Int × Int → Int) => gridOf s (max (max (f l0) (f r0)) (max (f l1) (f r1)))
  let x0 := lo (·.1)
  let y0 := lo (·.2)
  let nx := (hi (·.1) - x0 + 1).toNat
  let ny := (hi (·.2) - y0 + 1).toNat
  let u := cellUnits s
  (List.range ny).foldl (fun p j => (List.range nx).foldl (fun (p : State × Bool) i =>
    let gx := x0 + i
    let gy := y0 + j
    if insideSwept l0 r0 l1 r1 ((gx - 16384) * u + u / 2, (gy - 16384) * u + u / 2) then
      let old := cellAt p.1 gx gy
      let s := markCell p.1 gx gy
      let n := if insideGrid gx gy ∧ cellAt s gx gy ≠ old then 1 else 0
      (modChMap s c fun m => { m with cells := min 0xFFFFFFFF (m.cells + n) }, p.2 || !insideGrid gx gy)
    else p) p) (s, false)

/-- What is to be marked for one channel for the step that ends at boundary `n` (R130, R131, R133). Answers the state, the mark, and
whether the channel was ground-open without one. -/
def markChannel (s : State) (c n : Nat) : State × Option MarkJob × Bool :=
  let spans := groundOpen s c n
  let s := fixEstimates s c n
  let s := modChMap s c fun m => { m with open_ := !spans.isEmpty }
  if spans.isEmpty then (s, none, false)
  else
    let band := fun (k : Nat) => (s.map.hist.find? fun b => decide (b.step = k)).bind fun b => b.bands.find? fun x => decide (x.ch = c)
    match band (n - 1), band n with
    | some x, some y =>
      (s, if flag s MAP_CTRL_EN && flag s MAP_CTRL_MARK_EN then some { ch := c, step := n, x := x, y := y, spans := spans } else none, false)
    | _, _ => (s, none, true)

/-- The allocated tiles in the box about the bands of a mark. -/
def markTiles (s : State) (j : MarkJob) : List Nat :=
  let lo := fun (f : Band → Int) (g : Band → Int) => gridOf s (min (min (f j.x) (g j.x)) (min (f j.y) (g j.y))) / 64
  let hi := fun (f : Band → Int) (g : Band → Int) => gridOf s (max (max (f j.x) (g j.x)) (max (f j.y) (g j.y))) / 64
  let x0 := lo (·.lE) (·.rE)
  let y0 := lo (·.lN) (·.rN)
  let nx := (hi (·.lE) (·.rE) - x0 + 1).toNat
  let ny := (hi (·.lN) (·.rN) - y0 + 1).toNat
  footTiles s ((List.range ny).flatMap fun b => (List.range nx).map fun a => (64 * (x0 + a), 64 * (y0 + b)))

/-- Make one mark, or leave it waiting: for an earlier one of its channel, or for a tile that does not reach the cache in time. One
that has waited for 1,024 steps is discarded (R132). Answers the state, the marks that wait, and whether a mark fell outside the
grid. -/
def markOne (p : State × List MarkJob × Bool) (j : MarkJob) : State × List MarkJob × Bool :=
  let s := p.1
  if j.step + 1024 < s.now then (bump s MAP_CNT_LOST_CNT, p.2)
  else if p.2.1.any (fun w => decide (w.ch = j.ch)) || !flag s MAP_CTRL_EN then (s, p.2.1 ++ [j], p.2.2)
  else
    let t := cacheTiles s (markTiles s j)
    if t.2 then
      let r := j.spans.foldl (fun (q : State × Bool) t =>
        let m := markSpan q.1 j.ch j.x j.y t
        (m.1, q.2 || m.2)) (t.1, false)
      (r.1, p.2.1, p.2.2 || r.2)
    else (t.1, p.2.1 ++ [j], p.2.2)

/-- Unmarked application starts, goes on or ends (R133). -/
def unmarkedStep (s : State) (n : Nat) (un : Bool) : State :=
  let d := ((s.map.hist.find? fun b => decide (b.step = n)).map (·.dist)).getD 0
  let rec_ := fun (s : State) (code : Nat) => record s code noInst (leBytes 4 (rd s MAP_UNMARK_DIST).toNat)
  if un then
    let s := if s.map.unmarked then s else rec_ { s with map := { s.map with unmarked := true } } 0x3004
    let t := s.map.unmarkUm + d
    bump { s with map := { s.map with unmarkUm := t % 1000 } } MAP_UNMARK_DIST_CNT (t / 1000)
  else if s.map.unmarked then rec_ { s with map := { s.map with unmarked := false } } 0x3005
  else s

/-- Mark the step that ended 63 boundaries ago, after the marks that still wait (R130, R132). -/
def mapMarks (s : State) : State × Bool :=
  if s.now < 64 then (s, false)
  else
    let n := s.now - 63
    let r := (sparseKeys s.act.swings).foldl (fun (p : State × List MarkJob × Bool) c =>
      let q := markChannel p.1 c n
      (q.1, p.2.1 ++ q.2.1.toList, p.2.2 || q.2.2)) (s, [], false)
    let m := (r.1.map.late ++ r.2.1).foldl markOne (r.1, [], false)
    let s := { m.1 with map := { m.1.map with late := m.2.1 } }
    (unmarkedStep (showStore s) n r.2.2, m.2.2)

/-- OOG of the step (R113). -/
def oogStep (s : State) (oog : Bool) : State :=
  let s := setB s MAP_STAT_OOG oog
  if oog then
    let s := if 1000 * stepsPerMs ≤ s.map.oogAge then record s 0x3002 noInst [] else s
    bump { s with map := { s.map with oogAge := 0 } } MAP_CNT_OOG_CNT
  else { s with map := { s.map with oogAge := min (1000 * stepsPerMs) (s.map.oogAge + 1) } }

/-! ### Turn factors and zone rates (R137, R138) -/

/-- Weights of a set of channels: their widths, or 1 each where every width is 0. -/
def weightOf (s : State) (l : List Nat) (c : Nat) : Nat := if (l.map (chWidth s)).sum = 0 then 1 else chWidth s c

/-- Channels in use of a zone. -/
def zoneChans (s : State) (z : Nat) : List Nat := (usedChannels s).filter fun c => decide (chZone s c = z)

/-- k of a channel, 4.12 (R138). -/
def turnK (s : State) (l : List Nat) (c : Nat) : Nat :=
  let w := (l.map (weightOf s l)).sum
  let m := (l.map fun x => (weightOf s l x : Int) * (chKin s x).sdot).sum
  if absI m < (getF s KIN_STILL_VAL : Int) * 1000 * w ∨ m = 0 then 0x1000
  else
    let num := (chKin s c).sdot * 4096 * w
    let k := roundDiv (if m < 0 then -num else num) (absI m).toNat
    (clampI (getF s MAP_TC_MIN) (getF s MAP_TC_MAX) k).toNat

/-- The rate in force on a channel (R136), to be kept with the step. R137 does not say what it is while RX_EN is 0 or while the channel
is not tested: 0, and that of the zone tested last (DESIGN CHOICE, log entry 57). -/
def chRate (s : State) (c : Nat) : Nat := if flag s MAP_CTRL_RX_EN then rttRate s (chZone s c) (chMap s c).zval else 0

/-- ACTUAL of a channel as its state word shows it. -/
def shownActual (s : State) (c : Nat) : Nat := getF s (SCH_CH_STATE_ACTUAL c)

/-- Turn factors and rate of one zone (R137, R138). ZRATE is rounded to the nearest (DESIGN CHOICE, log entry 57). -/
def zoneStep (s : State) (z : Nat) : State :=
  let l := zoneChans s z
  let tc := flag s (MAP_ZONE_TC_EN z)
  let ks := l.map fun c => (c, if tc then turnK s l c else 0x1000, chRate s c)
  let s := ks.foldl (fun s p => modChMap s p.1 fun m => { m with k := p.2.1, inForce := p.2.2 }) s
  let on := l.filter fun c => decide (shownActual s c = 1 ∨ shownActual s c = 2)
  let w := (on.map (weightOf s on)).sum
  setF s (MAP_ZONE_ZRATE z) (if w = 0 then 0 else roundNat ((on.map fun c => weightOf s on c * chRate s c).sum) w)

/-- MAP while EN is 0 withdraws its pending events (R128). -/
def mapIdle (s : State) : State :=
  cancelWhere s (nowTick s) (nowTick s + slotsPerStep) fun e => decide (e.d.origin = 0) && decide (e.state = stPending) && !e.f.phase

/-- Phase 4 of the step (R19). -/
def mapStep (s : State) : State :=
  let s := keepBands s
  let s := if flag s MAP_CTRL_EN then s else mapIdle s
  let t := mapTests s
  let s := (List.range 8).foldl zoneStep t.1
  let m := mapMarks s
  oogStep { m.1 with map := { m.1.map with moved := false } } (t.2 || m.2)

/-! ### The origin (R109) -/

/-- The words of MAP_ORG. -/
def originWords (s : State) : List Word := [rd s MAP_ORG_LAT, rd s MAP_ORG_LON, rd s MAP_ORG_H]

/-- A new origin comes into force in KIN and MAP: the positions of KIN move into its plane, and no cell moves. The spec names no
ellipsoid, so where a point comes to lie is free; the bands of marks that are still to be made stay in the plane in which their
ground was passed (R109; DESIGN CHOICE, log entry 58). -/
def originBoundary (s : State) : State :=
  let org := originWords s
  if org = s.map.org then s
  else
    let mv := fun (e n : Int) => (Config.movedEast (s.map.org ++ org) e n, Config.movedNorth (s.map.org ++ org) e n)
    let body := fun (b : Body) => { b with e := (mv b.e b.n).1, n := (mv b.e b.n).2 }
    let sol := fun (x : KinSol) => { x with e := (mv (x.e * 256) (x.n * 256)).1 / 256, n := (mv (x.e * 256) (x.n * 256)).2 / 256 }
    let k := s.kin
    { s with
      map := { s.map with org := org, moved := true }
      kin := { k with car := body k.car, trl := body k.trl, hist := k.hist.map fun p => { p with e := (mv p.e p.n).1, n := (mv p.e p.n).2 }
                      sol := k.sol.map sol, lastSol := k.lastSol.map sol
                      ch := k.ch.map fun c => (c.1, { c.2 with e := (mv c.2.e c.2.n).1, n := (mv c.2.e c.2.n).2 }) } }

/-! ### The channel window (R147) and register rules -/

/-- The values of the MAP channel window; reading CELLS clears it, so the latch leaves it in place. -/
def mapWindow (s : State) (c : Nat) : List (Nat × Word) :=
  let m := chMap s c
  let n := fun (x : Nat) => BitVec.ofNat 32 x
  let p := unsigned 64 (toUnits m.probe)
  [(MAP_CH_STEP, stepCnt s),
   (MAP_CH_TEST, n (m.n + m.b * 2 ^ 9 + m.x * 2 ^ 18 + bit m.des 27 + bit m.tested 28 + bit m.miss 29 + bit m.oog 30)),
   (MAP_CH_PROBE_LO, n p), (MAP_CH_PROBE_HI, n (p / 2 ^ 32)),
   (MAP_CH_RX, n (m.zval + m.inForce * 2 ^ 16)), (MAP_CH_TC, n m.k), (MAP_CH_MARK, n (bit m.open_ 0 + bit m.est 1)),
   (MAP_CH_CELLS, n m.cells)]

/-- The rules of a write to a MAP register: the value stored, or none where it is invalid (chapter 4, MAP registers). -/
def mapStore (i : Nat) (v : Word) : Option Word :=
  if i = MAP_THR then if bitsOf v 15 8 < bitsOf v 7 0 then some v else none
  else if i = MAP_PROBE then some (bitsSet (bitsSet v 6 0 (min 100 (bitsOf v 6 0))) 25 16 (min 1000 (bitsOf v 25 16)))
  else if i = MAP_TC then if bitsOf v 31 16 < bitsOf v 15 0 then none else some v
  else if i = MAP_ORG_LAT then if -(2 ^ 30 : Int) ≤ v.toInt ∧ v.toInt ≤ 2 ^ 30 then some v else none
  else some v

/-- A reset of MAP: its registers and tables take their reset values. Map DRAM survives a block reset only as far as the
directory, which does not: every fill is 0 (R39, R116). -/
def mapReset (s : State) : State :=
  let s := tclear (tclear (resetRegs s fun i => decide (0x0A00 ≤ i ∧ i < 0x0C00)) .ply) .rtt
  { s with map := { MapState.reset with org := s.map.org } }

end Sys2Proof.Machine
end

