-- ==== Sys2Proof/Machine/RingFrame.lean ====
section
/-!
DEFINITION. Sys2Proof/Machine/RingFrame.lean: what the ring master sends, as characters (R198 to R203, R207, R220): ordered sets,
the CYC, the frame with its command areas and its service block, the answers to probes; and the fields of the areas that come back.
-/
namespace Sys2Proof.Machine

/-! ### Characters (R199) -/

/-- A character of a ring. -/
inductive RingChar where
  /-- K28.5, fill. -/
  | idle
  /-- K28.1, before a CYC. -/
  | cyc
  /-- K27.7. -/
  | sof
  /-- K29.7. -/
  | eof
  /-- K30.7. -/
  | abort
  /-- K23.7. -/
  | safe
  /-- K28.7, before the ID of a PROBE. -/
  | probe
  /-- K28.3, before ID and TURN of an ECHO. -/
  | echo
  | data (b : Byte)
  deriving DecidableEq, Repr

/-- Characters of a cycle (R200). -/
def cycleChars : Nat := 1000

/-! ### Fields that the master fills in -/

/-- The eight bytes of a command entry as the master sends it (R207). -/
def entryBytes (q : RingCmd) : List Byte :=
  if q.op = 4 then leBytes 1 4 ++ leBytes 1 0 ++ leBytes 2 q.tx ++ leBytes 2 0 ++ leBytes 2 0
  else leBytes 1 (q.op + 8 * q.k) ++ leBytes 1 q.tag ++ leBytes 4 q.tx ++ leBytes 2 q.param

/-- A command area with up to two entries; an unused entry is a NOP (R200, R207). -/
def cmdArea (l : List RingCmd) : List Byte :=
  let b := (l.flatMap entryBytes).take 16
  withCrc (b ++ List.replicate (16 - b.length) 0#8)

/-- The service block of a request, or the empty one (R220). -/
def svcBlock (q : Option Service) : List Byte := match q with
  | some q => withCrc (leBytes 1 q.addr ++ leBytes 1 q.sop ++ (q.data ++ List.replicate (48 - q.data.length) 0#8))
  | none => withCrc (List.replicate 50 0#8)

/-- The bytes of a CYC that leaves `port`, with its CRC: RT, ACC, FLAGS with DIR of the port (R202). -/
def cycBytes (t : RingTx) (port : Nat) : List Byte :=
  withCrc (leBytes 6 t.rt ++ leBytes 4 0 ++ leBytes 1 (t.flags + 4 * port) ++ [0#8])

/-- The frame header: RING and DIR, CYCNO, SEQ (R200). -/
def headerBytes (t : RingTx) (r port : Nat) : List Byte :=
  let seq := t.rt / 50000
  leBytes 1 (r + 2 * port) ++ leBytes 1 (seq % 5) ++ leBytes 2 seq

/-- The block of node `n + 1`: its command area, and its report area, which the node alone fills. What the master puts there is
not stated: zeros, whose CRC is wrong (DESIGN CHOICE, log entry 62). -/
def nodeBlock (t : RingTx) (n : Nat) : List Byte :=
  sparseGet (fun _ => cmdArea []) t.areas n ++ List.replicate 12 0#8

/-- The 1,000 characters of a cycle, but for the answers to probes (R200). -/
def frameChars (t : RingTx) (r port : Nat) : List RingChar :=
  [.cyc] ++ (cycBytes t port).map .data ++ List.replicate 4 .idle ++ [.sof] ++ (headerBytes t r port).map .data
    ++ ((List.range 30).flatMap fun n => (nodeBlock t n).map .data) ++ t.svc.map .data ++ [.eof] ++ List.replicate 23 .idle

/-- The characters of an ECHO (R199). -/
def echoChars (e : RingEcho) : List RingChar := [.echo, .data e.id] ++ (leBytes 2 e.turn).map .data

/-- The character of a cycle from which on an ECHO stands: the first one at or after its departure. -/
def echoPlace (e : RingEcho) : Nat := (16 * e.at_ + e.turn + 799) / 800

/-- Put characters in the place of others. -/
def overlay (l new : List RingChar) (i : Nat) : List RingChar := l.take i ++ new ++ l.drop (i + new.length)

/-- What a transmitter sends in a cycle's time (R198 to R203, R222). -/
def portChars (t : RingTx) (r port : Nat) : List RingChar :=
  match if port = 0 then t.p0 else t.p1 with
  | .zero => []
  | .idle => List.replicate cycleChars .idle
  | .abort => .abort :: List.replicate 4 .safe ++ List.replicate (cycleChars - 5) .idle
  | .cycle => (t.echoes.filter fun e => decide (e.port = port)).foldl (fun l e => overlay l (echoChars e) (echoPlace e)) (frameChars t r port)

/-! ### Fields of what comes back -/

/-- RSP of entry `i` of a command area (R207). -/
def rspOf (b : List Byte) (i : Nat) : Nat := leAt b (8 * i) 1 / 64

/-- EXEC and CXL of a CANCEL in entry `i` (R207). -/
def execOf (b : List Byte) (i : Nat) : Nat := leAt b (8 * i + 4) 2
def cxlOf (b : List Byte) (i : Nat) : Nat := leAt b (8 * i + 6) 2

/-- RSP of a service block: 0 none, 1 OK, 2 BUSY, 3 REJECTED; 4 where the block is lost (R220). -/
def svcRsp (b : RingBack) : Nat := if areaOk 50 b.svc then leAt b.svc 1 1 / 64 else 4

/-- The data of a service block. -/
def svcData (b : RingBack) : List Byte := (b.svc.drop 2).take 48

/-! ### Answers to probes (R203) -/

/-- The master answers a PROBE of a neighbour in the cycles whose SEQ is a multiple of 16, in the closing IDLE run, provided that
the ECHO ends there. TURN is free within 600 ns. -/
def answerProbe (r : Nat) (s : State) (p : RingProbe) : State :=
  if (ringAt s r).seq % 16 = 0 ∧ 48850 ≤ p.at_ ∧ p.at_ ≤ 49150 then
    let f := fresh s
    let turn := (Config.freeWord f.1).toNat % 9601
    modRing f.2 r fun x => { x with tx := { x.tx with echoes := x.tx.echoes ++ [{ port := p.port, id := p.id, at_ := p.at_, turn := turn }] } }
  else s

end Sys2Proof.Machine
end

