-- ==== Sys2Proof/Machine/Fjl.lean ====
section
/-!
DEFINITION. Sys2Proof/Machine/Fjl.lean: the ring master (chapter 7): states of a ring, enumeration, service requests,
command areas and their answers, reports, lead times, safe state, breaks and re-commands. One RING_CYCLE sends a cycle and
takes what comes back of it.
-/
namespace Sys2Proof.Machine

/-- A ring changes its state, with a record (R205). Cycles without a report of a node are counted from the entry into SYNC, and anew
from the entry into OPER or BROKEN (R219). -/
def setRingState (s : State) (r new : Nat) : State :=
  let old := ringState s r
  if old = new then s
  else
    let s := record (setF s (FJL_STAT_STATE r) new) 0x6001 r (leBytes 1 old ++ leBytes 1 new)
    let s := if new = rsSync ∨ old = rsSync then modRing s r fun x => { x with operAge := 0 } else s
    if new = rsOper then modRing s r fun x => { x with missed := 0 } else s

/-- Channel of a node (R194). -/
def chanOf (r n k : Nat) : Nat := 32 + 240 * r + 8 * n + k

def nodeCount : Nat := 30

/-- Ring time at the start of the present cycle (R200, R201). -/
def cycleNs (s : State) (r : Nat) : Nat := (ringAt s r).seq * 50000

/-- The 5 ns instant of a ring time (R201). -/
def ringTick (s : State) (r ns : Nat) : Nat := ((ringAt s r).start * 250000 + ns) / 5

/-! ### Safe state (R222, R223) -/

/-- A closing edge of a remote channel that the safe state makes, if it was open. -/
def safeSwing (t : Nat) (s : State) (c : Nat) : State :=
  match swingsAt s c with
  | w :: _ => if w.isOpen then addSwing s c { isOpen := false, tick := t, est := liveDelay s c 1, motion := none, slot := none } else s
  | [] => s

/-- A tag whose command the node has discarded is free a millisecond after the master stopped to send it (R209, R222). -/
def RingTag.settle (ns : Nat) (g : RingTag) : RingTag :=
  if g.busy && g.free.isNone then { g with free := some (ns + 1000000) } else g

/-- The node drops every held command: their slots are BLOCKED (R222). -/
def dropNode (r : Nat) (s : State) (n : Nat) : State :=
  let x := nodeAt s r n
  let s := x.queue.foldl (fun s q => blockSlot s q.slot) s
  let s := x.tags.foldl (fun s t => match t.2 with
    | some g => (match g.slot with
      | some i => if g.busy && decide ((slotAt s i).state = stArmed ∨ (slotAt s i).state = stLate) then blockSlot s (some i) else s
      | none => s)
    | none => s) s
  modNode s r n fun x => { x with queue := [], tags := x.tags.map fun t => (t.1, t.2.map (RingTag.settle (cycleNs s r))) }

/-- Every channel of a ring needs a re-command (R16, R223). -/
def forceRing (s : State) (r : Nat) : State :=
  { s with fjl := { s.fjl with ch := s.fjl.ch.map fun e => if ringOf e.1 = r then (e.1, { e.2 with forced := true }) else e } }

/-- A ring goes safe at instant `t`: its channels need a re-command; `k` is the CAUSE that holds for them (R29, R222, R223). -/
def ringGoSafe (s : State) (r k t : Nat) : State :=
  let s := (List.range nodeCount).foldl (dropNode r) s
  let s := (List.range 240).foldl (fun s i =>
    let c := 32 + 240 * r + i
    if chUsed s c then safeSwing t (if k = 0 then s else setProt s c k) c else s) s
  setB (forceRing s r) (FJL_STAT_SAFE_ACT r) (decide (ringState s r ≠ rsOff))

/-- A ring's transmitters end the frame in progress with ABORT and send four SAFE (R222). -/
def abortFrame (s : State) (r : Nat) : State :=
  bump (modRing s r fun x => { x with tx := { x.tx with p0 := .abort, p1 := .abort } }) (FJL_CNT_SAFE_CNT r)

/-- The SAFE sequence of an enable loss or a supervision trip; a ring without cycles has no frame in progress (R222). -/
def safeSequence (s : State) (k t : Nat) : State :=
  [0, 1].foldl (fun s r => if ringState s r = rsOff then ringGoSafe s r k t else abortFrame (ringGoSafe s r k t) r) s

/-- A re-command of a remote channel, once no enable, trip or SAFE flag of the host holds its ring safe (R223). -/
def recommandRemote (s : State) (c : Nat) : State :=
  if enablesOk s && !s.sys.tripped && !flag s (FJL_CTRL_SAFE (ringOf c)) then clearProt (modRemCh s c fun x => { x with forced := false }) c
  else s

/-- A re-command of a channel (R185, R223). -/
def recommand (s : State) (c : Nat) : State := if isLocal c then recommandLocal s c else recommandRemote s c

/-- RESUME of a remote channel: as RESUME of a local one, with an ON at the earliest instant of the ring, provided that no other
protective OFF holds it (R186, R223). -/
def resumeRemote (s : State) (c : Nat) : State :=
  let s := recommandRemote s c
  let q := effRequest s c
  let opens := decide (q = rqOn) || (decide (q = rqAuto) && decide (issuedState s c ≠ 0))
  if !remoteHeld s c && opens then giveEdge s c 0 (nowTick s + 2 * slotsPerStep) 0 none 1 else s

/-! ### Stored channel configuration (R221) -/

/-- A stored configuration word: offset 1 MODE, 2 PEAK, 3 HOLD, 4 PWM, 5 DITH, 6 SET. -/
def fjlCfg (s : State) (c o : Nat) : Word := sparseGet (fun k => regReset (FJL_CH_SEL 0 + k % 16)) s.fjl.cfg (16 * c + o)

def setFjlCfg (s : State) (c o : Nat) (v : Word) : State :=
  { s with fjl := { s.fjl with cfg := sparseSet (fun k => regReset (FJL_CH_SEL 0 + k % 16)) s.fjl.cfg (16 * c + o) v } }

/-- The 48 data bytes of a CFG_CH (R220). -/
def cfgChData (s : State) (c : Nat) : List Byte :=
  let w := fjlCfg s c
  let p := profileOf s c
  let b := fun (n v : Nat) => leBytes n v
  b 1 (nodeCh c) ++ b 1 (bitsOf (w 1) 1 0) ++ b 2 (bitsOf (w 2) 13 0) ++ b 2 (bitsOf (w 2) 24 16) ++ b 2 (bitsOf (w 3) 12 0)
    ++ b 2 (bitsOf (w 4) 9 0) ++ b 1 (bitsOf (w 4) 23 16) ++ b 1 (bitsOf (w 4) 31 24) ++ b 2 (bitsOf (w 5) 8 0) ++ b 1 (bitsOf (w 5) 21 16)
    ++ b 1 (bitsOf (w 5) 24 24) ++ b 4 (rd s (ACT_PRF_WON p)).toNat ++ b 4 (rd s (ACT_PRF_WOFF p)).toNat
    ++ b 2 (getF s (ACT_PRF_PULL_DIP_MIN p)) ++ b 1 (getF s (ACT_PRF_PULL_SMOOTH p)) ++ b 2 (getF s (ACT_PRF_REL_HUMP_MIN p))
    ++ b 1 (getF s (ACT_PRF_REL_RMODE p)) ++ b 1 (getF s (ACT_PRF_REL_KNEE p)) ++ b 1 (if relSense s c then 1 else 0) ++ List.replicate 16 0#8

/-- Queue CFG_CH for a channel (R221). -/
def sendCfgCh (s : State) (c : Nat) : State :=
  let r := ringOf c
  let q : Service := { addr := nodeOf c + 1, sop := 4, data := cfgChData s c }
  modRing (modRemCh s c fun x => { x with busy := true, acked := false }) r fun x => { x with svc := x.svc ++ [q] }

/-- CH_APPLY.GO may be taken: a change of MODE needs the channel off and idle (R169, R221). -/
def applyOk (s : State) (c : Nat) : Bool :=
  decide (bitsOf (fjlCfg s c 1) 1 0 = (remCh s c).mode)
    || (decide (getF s (SCH_CH_STATE_ACTUAL c) = 0)
      && (slotsWhere s fun e => decide (e.d.ch = c) && (decide (e.state = stArmed) || decide (e.state = stLate))).isEmpty)

/-- DLY's PRF or REL_SENSE, or the profile they name, changed: the node is told, from SYNC on (R221). -/
def refreshCfg (s : State) (c : Nat) : State :=
  if !isLocal c && (ringRuns s (ringOf c) || decide (ringState s (ringOf c) = rsSync)) && (nodeAt s (ringOf c) (nodeOf c)).found then
    sendCfgCh s c
  else s

/-- Profile `p` changed: every remote channel that names it is told (R221). -/
def refreshProfile (s : State) (p : Nat) : State :=
  ((List.range 480).map (· + 32)).foldl (fun s c => if profileOf s c = p then refreshCfg s c else s) s

/-! ### Service answers (R205, R206, R213, R220) -/

/-- D_link of a node from its T_path and T_proc (R213). -/
def leadTime (s : State) (r n tpath : Nat) : Nat :=
  let t := 200000 + (42 + 30 * n) * 50 + tpath + (nodeAt s r n).tproc
  min 4095 (max (getF s (FJL_LEAD_MIN r)) ((t + 999) / 1000) + getF s (FJL_LEAD_ADD r))

/-- A node's delay has been read (R213). -/
def setDelay (s : State) (r n tpath : Nat) : State :=
  setF (modNode s r n fun x => { x with tpath := some tpath }) (FJL_NODE_DLY_TPATH r n) (min 0xFFFF tpath)

/-- D_link of the ring's nodes at a step boundary, from T_path and FJL_LEAD as they stand (R213). -/
def showLead (r : Nat) (s : State) (n : Nat) : State := match (nodeAt s r n).tpath with
  | some t => setF s (FJL_NODE_DLY_DLINK r n) (leadTime s r n t)
  | none => s

/-- IDENT of a node is taken: L_fwd, T_proc; false where R206 does not accept it. -/
def takeIdent (s : State) (r n : Nat) (d : List Byte) : State × Bool :=
  let lf := leAt d 12 2
  let tp := leAt d 14 2
  let s := modNode s r n fun x => { x with identified := true, lfwd := lf, tproc := tp }
  (setF s (FJL_NODE_CTRL_LFWD r n) lf, decide (leAt d 16 1 = 8 ∧ lf ≤ 320 * 16 ∧ tp ≤ 5000))

/-- Nodes found on a ring, ascending. -/
def foundNodes (s : State) (r : Nat) : List Nat := (List.range nodeCount).filter fun n => (nodeAt s r n).found

/-- A node has taken an address (R205). -/
def nodeFound (s : State) (r n via : Nat) : State :=
  let s := modNode s r n fun x => { x with found := true }
  setF (setB s (FJL_NODE_STAT_PRESENT r n) true) (FJL_NODE_STAT_VIA r n) via

/-- Enumeration fails (R206). -/
def enumFail (s : State) (r : Nat) : State := setRingState (setB s (FJL_STAT_ENUM_ERR r) true) r rsFault

/-- All nodes are identified: SYNC sends CFG_NODE and every CFG_CH, and reads the delays (R205). -/
def enterSync (s : State) (r : Nat) : State :=
  let l := foundNodes s r
  let conf := l.map fun n => ({ addr := n + 1, sop := 3, data := leBytes 1 (getF s (FJL_CTRL_WD r)) ++ [1#8] } : Service)
  let dly := l.map fun n => ({ addr := n + 1, sop := 9, data := [] } : Service)
  let s := modRing (setRingState s r rsSync) r fun x => { x with svc := conf }
  let s := l.foldl (fun s n => (List.range 8).foldl (fun s k => sendCfgCh s (chanOf r n k)) s) s
  modRing s r fun x => { x with svc := x.svc ++ dly }

/-- Go on to IDENT, or straight to SYNC where no node was found on a broken ring (R205, R206). -/
def enterIdent (s : State) (r : Nat) : State :=
  if (foundNodes s r).isEmpty then enterSync s r else modRing s r fun x => { x with enumStep := 4 }

/-- The node whose IDENT is read next. -/
def identNext (s : State) (r : Nat) : Option Nat := (foundNodes s r).find? fun n => !(nodeAt s r n).identified

/-- Cycles without a valid report area (R219). -/
def silentCycles (s : State) (r n : Nat) : Nat := match (nodeAt s r n).silent with
  | some k => k
  | none => (ringAt s r).operAge

/-- A node has sent a valid report area in the last 4 cycles, or its first ones are not due yet (R219, R224). -/
def inReach (s : State) (r n : Nat) : Bool := decide (silentCycles s r n < 4)

/-- The oldest waiting request that can be delivered: one for a node out of reach waits for the node (DESIGN CHOICE, log entry 62). -/
def svcHead (s : State) (r : Nat) : Option Service :=
  (ringAt s r).svc.find? fun q => decide (q.addr = 0xFF) || inReach s r (q.addr - 1)

/-- The node whose delay is read next, in turn (R213). -/
def delayNext (s : State) (r : Nat) : Option Nat :=
  let l := (foundNodes s r).filter (inReach s r)
  match l.find? fun n => decide ((ringAt s r).delayAddr ≤ n + 1) with
  | some n => some n
  | none => l.head?

/-- The request that the service block carries in this cycle (R205, R213, R220). -/
def svcRequest (s : State) (r : Nat) : Option Service :=
  let x := ringAt s r
  let setAddr : Option Service := if 1 ≤ x.nextAddr ∧ x.nextAddr ≤ nodeCount then some { addr := 0xFF, sop := 1, data := leBytes 1 x.nextAddr } else none
  if ringState s r = rsEnum then
    match x.enumStep with
    | 0 | 1 => some { addr := 0xFF, sop := 7, data := [] }
    | 2 | 3 => setAddr
    | _ => (identNext s r).map fun n => { addr := n + 1, sop := 2, data := [] }
  else if ringState s r = rsFault then none
  else match svcHead s r with
    | some q => some q
    | none => (delayNext s r).map fun n => { addr := n + 1, sop := 9, data := [] }

/-- The service block came back with nothing heard of it: it is sent again, as after BUSY (R220). Where neither it nor the frame
came back, there is no node on that side. -/
def svcAgain (b : RingBack) : Bool := decide (svcRsp b = 2) || (decide (svcRsp b = 4) && (b.returned || !b.svc.isEmpty))

/-- One cycle of enumeration with its service answer (R205, R206). A REJECTED IDENT accepts no node. -/
def enumCycle (s : State) (r : Nat) (b : RingBack) : State :=
  let x := ringAt s r
  let nn := getF s (FJL_CTRL_NNODES r)
  match x.enumStep with
  | 0 => modRing s r fun x => { x with enumStep := 1 }
  | 1 => modRing s r fun x => { x with enumStep := 2, nextAddr := 1 }
  | 2 =>
    if svcAgain b ∧ x.nextAddr ≤ nodeCount then s
    else if svcRsp b = 1 ∧ x.nextAddr ≤ nodeCount then modRing (nodeFound s r (x.nextAddr - 1) 0) r fun x => { x with nextAddr := x.nextAddr + 1 }
    else if b.returned then
      (if x.nextAddr - 1 = nn then enterIdent s r else enumFail s r)
    else modRing s r fun x => { x with enumStep := 3, nextAddr := nn, open_ := true }
  | 3 =>
    if x.nextAddr = 0 ∨ (nodeAt s r (x.nextAddr - 1)).found then enterIdent s r
    else if svcAgain b then s
    else if svcRsp b = 1 then modRing (nodeFound s r (x.nextAddr - 1) 1) r fun x => { x with nextAddr := x.nextAddr - 1 }
    else enterIdent s r
  | _ =>
    match identNext s r with
    | none => enterSync s r
    | some n =>
      if svcRsp b = 1 then
        let t := takeIdent s r n (svcData b)
        if t.2 then (if (identNext t.1 r).isNone then enterSync t.1 r else t.1) else enumFail t.1 r
      else if svcRsp b = 3 then enumFail s r
      else s

/-- A CFG_CH was answered: the channel holds its configuration if no newer one waits; a new MODE is in force from the next boundary
(R221). -/
def cfgAnswer (s : State) (r : Nat) (q : Service) (rsp : Nat) (more : Bool) : State :=
  let c := chanOf r (q.addr - 1) (leAt q.data 0 1 % 8)
  let ok := decide (rsp = 1)
  modRemCh s c fun x =>
    { x with busy := more, rsp := rsp, acked := ok && !more, modeNext := if ok then some (leAt q.data 1 1 % 4) else x.modeNext }

/-- The answer of the service block outside enumeration: OK and REJECTED end a request, a broadcast ends when it has come back, and
BUSY and a lost one repeat it (R213, R220). -/
def serviceAnswer (s : State) (r : Nat) (b : RingBack) : State :=
  let ok := decide (svcRsp b = 1)
  match svcHead s r with
  | none => (match delayNext s r with
    | none => s
    | some n =>
      if svcRsp b = 2 ∨ svcRsp b = 4 then s
      else modRing (if ok then setDelay s r n (leAt (svcData b) 0 4) else s) r fun x => { x with delayAddr := n + 2 })
  | some q =>
    if ok ∨ svcRsp b = 3 ∨ (q.addr = 0xFF ∧ svcRsp b = 0) then
      let rest := (ringAt s r).svc.erase q
      let s := modRing s r fun x => { x with svc := rest }
      if q.sop = 3 then (if ok then modNode s r (q.addr - 1) fun x => { x with configured := true } else s)
      else if q.sop = 4 then
        cfgAnswer s r q (svcRsp b) (rest.any fun z => decide (z.sop = 4 ∧ z.addr = q.addr) && decide (leAt z.data 0 1 = leAt q.data 0 1))
      else if q.sop = 9 then (if ok then setDelay s r (q.addr - 1) (leAt (svcData b) 0 4) else s)
      else s
    else s

/-! ### Command areas (R209 to R211) -/

/-- Order of the entries of a command area (R210). -/
def cmdRank (q : RingCmd) : Nat × Nat × Nat :=
  if q.op = 4 then (0, 0, 0)
  else if 0 < q.sent then (1, 0, 0)
  else if q.op = 5 then (2, 0, 0)
  else (3, q.tx, if q.op = 2 then 0 else if q.op = 3 then 1 else 2)

def rankLe (a b : Nat × Nat × Nat) : Bool :=
  decide (a.1 < b.1) || (decide (a.1 = b.1) && (decide (a.2.1 < b.2.1) || (decide (a.2.1 = b.2.1) && decide (a.2.2 ≤ b.2.2))))

/-- Give a new command its tag, or none where all 15 are busy (R209). -/
def takeTag (x : RingNode) (q : RingCmd) : Option (RingNode × RingCmd) :=
  if q.op = 4 ∨ q.op = 5 ∨ 0 < q.sent then some (x, q)
  else if q.op = 3 ∧ q.slot = none then some (x, { q with tag := 15 })
  else match freeTag x with
    | none => none
    | some t =>
      let g : RingTag := { busy := true, slot := q.slot, k := q.k, op := q.op, tx := q.tx, rsp := 0, free := none, cxl := false }
      some ({ x with tags := sparsePut x.tags t (some g) }, { q with tag := t })

/-- Fill up to two entries of a node's command area, whose transmission starts at `now`, from its queue (R207, R209, R210, R214).
Answers the node with the rest of its queue, the entries, and how many commands were newly found to wait for a tag. -/
def fillArea (now : Nat) : Nat → RingNode → List RingCmd → List RingCmd → Nat → RingNode × List RingCmd × Nat
  | 0, x, left, out, w => ({ x with queue := left }, out, w)
  | _ + 1, x, [], out, w => ({ x with queue := [] }, out, w)
  | f + 1, x, q :: r, out, w =>
    if 2 ≤ out.length ∨ now < q.after then
      let t := fillArea now f x r out w
      ({ t.1 with queue := q :: t.1.queue }, t.2)
    else match takeTag x q with
      | some p => fillArea now f p.1 r (out ++ [{ p.2 with sent := p.2.sent + 1 }]) w
      | none =>
        let t := fillArea now f x r out (if q.counted then w else w + 1)
        ({ t.1 with queue := { q with counted := true } :: t.1.queue }, t.2)

/-- A busy tag becomes free when its time has come (R209). -/
def tagsDue (x : RingNode) (ns : Nat) : RingNode :=
  { x with tags := x.tags.map fun t => (t.1, t.2.map fun g => match g.free with
      | some f => if f ≤ ns then { g with busy := false } else g
      | none => g) }

/-- Change the record of a tag. -/
def modTag (s : State) (r n t : Nat) (f : RingTag → RingTag) : State :=
  modNode s r n fun x => { x with tags := x.tags.map fun e => if e.1 = t then (e.1, e.2.map f) else e }

def tagAt (s : State) (r n t : Nat) : Option RingTag := sparseGet (fun _ => none) (nodeAt s r n).tags t

/-- An entry fails after its last resend: the slot completes with NOCONF (R105, R211). The tag is free a millisecond later, or at
the instant known before (R209). -/
def entryLost (s : State) (r n : Nat) (q : RingCmd) : State :=
  let ns := cycleNs s r + 1000000
  let s := modTag s r n q.tag fun g =>
    { g with rsp := if q.op = 5 then g.rsp else 5, free := some (match g.free with | some f => min f ns | none => ns) }
  match q.slot with
  | some i => modFlags s i fun f => { f with noconf := true }
  | none => s

/-- A withdrawn command: its tag is free, no switching comes, and its slot goes CANCELLED or back to PENDING (R103, R104, R214). -/
def tagWithdrawn (s : State) (r n t : Nat) (g : RingTag) : State :=
  let s := modTag s r n t fun g => { g with busy := false, cxl := false, rsp := 4 }
  let c := chanOf r n g.k
  let s := setSwings s c ((swingsAt s c).filter fun w => !(decide (w.tick = ringTick s r g.tx) && w.motion.isNone && decide (g.slot.isSome)))
  match g.slot with
  | some i => modSlotAt s i fun e => { e with tr := { e.tr with next := some (withdrawnState e) } }
  | none => s

/-- The node had executed: the slot continues as a cancelled one, a withdrawal by retiming too (R103, R104, R214). -/
def tagExecuted (s : State) (r n t : Nat) (g : RingTag) : State :=
  let s := modTag s r n t fun g => { g with cxl := false }
  match g.slot with
  | some i => modSlotAt s i fun e => { e with f := { e.f with exec := true, cxl := true }, tr := { e.tr with retime := false } }
  | none => s

/-- The node's answer to tag `t` of a CANCEL (R214). It sets neither bit for a tag it holds no command of: a command that had never
been sent is withdrawn. -/
def cancelAnswer (r n : Nat) (cxl exec : Nat) (s : State) (t : Nat) : State :=
  match tagAt s r n t with
  | none => s
  | some g =>
    if cxl.testBit t || decide (g.rsp = 4) then tagWithdrawn s r n t g
    else if exec.testBit t then tagExecuted s r n t g
    else s

/-- Resend an entry, or give it up after RETRY resends (R211, R214). -/
def resend (s : State) (r n : Nat) (q : RingCmd) : State :=
  if q.sent ≤ getF s (FJL_CTRL_RETRY r) then modNode s r n fun x => { x with queue := x.queue ++ [q] }
  else if q.op = 4 then (List.range 15).foldl (fun s t => if q.tx.testBit t then cancelAnswer r n 0 (2 ^ t) s t else s) s
  else entryLost s r n q

/-- The response of a node to an ON, OFF or RATE (R208): the switching is noted for marks. -/
def commandAnswer (s : State) (r n : Nat) (q : RingCmd) (rsp : Nat) : State :=
  let c := chanOf r n q.k
  if rsp = 3 then
    let s := modTag s r n q.tag fun g => { g with rsp := 3, free := some (cycleNs s r + 1000000) }
    blockSlot s q.slot
  else
    let s := modTag s r n q.tag fun g => { g with rsp := rsp, free := some (q.tx + 1000000) }
    if q.op = 3 then s
    else
      let kind := q.op - 1
      let est := match q.slot with | some i => (slotAt s i).u.dAct | none => liveDelay s c kind
      addSwing s c { isOpen := decide (kind = 0), tick := ringTick s r q.tx, est := est, motion := none, slot := slotRef s q.slot }

/-- What came back of entry `i` of the command area `a` (R208, R211, R214). -/
def entryAnswer (s : State) (r n : Nat) (q : RingCmd) (a : List Byte) (i : Nat) : State :=
  let rsp := rspOf a i
  if !areaOk 16 a then resend s r n q
  else if rsp = 0 then resend (bump s (FJL_CNT_NORSP_CNT r)) r n q
  else if q.op = 4 then
    (if rsp = 1 then (List.range 15).foldl (fun s t => if q.tx.testBit t then cancelAnswer r n (cxlOf a i) (execOf a i) s t else s) s
    else resend s r n q)
  else if q.op = 5 then
    (if rsp = 1 then
      let s := modTag s r n q.tag fun g => { g with tx := q.tx, free := some (q.tx + 1000000) }
      match q.slot with
      | some i =>
        let c := (slotAt s i).d.ch
        setSwings s c ((swingsAt s c).map fun w => if w.slot = slotRef s (some i) ∧ w.motion = none then { w with tick := ringTick s r q.tx } else w)
      | none => s
    else match q.slot, tagAt s r n q.tag with
      | some i, some g => modSlotAt s i fun e => { e with tr := { e.tr with fireAt := ringTick s r g.tx } }
      | _, _ => s)
  else commandAnswer s r n q rsp

/-! ### Reports (R217, R218, R224, R225) -/

/-- A 32-bit ring time resolved to within 2^31 ns of the present (R201). -/
def resolveNs (s : State) (r v : Nat) : Nat :=
  let now : Int := cycleNs s r
  (now + signed 32 (unsigned 32 ((v : Int) - now))).toNat

/-- The tag of a MOTION report is unknown: it was never used or holds another channel, a RATE, the other direction, or a command
that the node did not execute (R156). -/
def tagForeign (g : RingTag) (k dir : Nat) : Bool :=
  decide (g.k ≠ k) || decide (g.op ≠ dir + 1) || decide (g.rsp = 3 ∨ g.rsp = 4)

/-- A report entry of a node (R156, R218). -/
def takeReport (s : State) (r n : Nat) (e : List Byte) : State :=
  let ty := leAt e 0 1 % 16
  let k := leAt e 0 1 / 16 % 8
  let c := chanOf r n k
  let b1 := leAt e 1 1
  let bad := bump s (FJL_CNT_BADRPT_CNT r)
  match ty with
  | 0 => s
  | 1 =>
    let tag := b1 % 16
    let res := b1 / 16 % 8
    let dir := b1 / 128
    let tm := ringTick s r (resolveNs s r (leAt e 2 4))
    let at_ := ringTick s r (cycleNs s r)
    if res = 2 ∨ res = 7 then bad
    else if tag = 15 then nodeResult s c dir 0 res tm (leAt e 6 2) at_ none false true
    else match tagAt s r n tag with
      | some g =>
        if tagForeign g k dir then bad
        else
          let trail := match g.slot with
            | some i => decide ((slotAt s i).d.action = 3) && decide (g.op = 2)
            | none => false
          nodeResult s c dir (ringTick s r g.tx) res tm (leAt e 6 2) at_ (slotRef s g.slot) trail false
      | none => bad
  | 2 =>
    match tagAt s r n (b1 % 16) with
    | some g =>
      let s := bump s (FJL_CNT_LATE_CNT r)
      match g.slot with
      | some i =>
        let d := roundDiv (absI (chKin s c).sdot * leAt e 6 2) 250000000
        modSlotAt s i fun e => { e with u := { e.u with err := e.u.err + d } }
      | none => s
    | none => bad
  | 3 => modRemCh s c fun x => { x with fcode := b1 }
  | 4 => modRemCh s c fun x => { x with fcode := if x.fcode = b1 then 0 else x.fcode }
  | _ => bad

/-- Show whether a node is reachable; a loss, and the return after one, are recorded (R224). -/
def setReach (s : State) (r n : Nat) (reach : Bool) : State :=
  if flag s (FJL_NODE_STAT_REACH r n) = reach then s
  else
    let lost := (nodeAt s r n).lost
    let s := modNode (setB s (FJL_NODE_STAT_REACH r n) reach) r n fun x => { x with lost := !reach }
    if reach then (if lost then record s 0x6003 (32 * r + n + 1) [] else s) else record s 0x6002 (32 * r + n + 1) []

/-- The report area of a node, good or bad (R217 to R219). -/
def takeArea (s : State) (r : Nat) (b : NodeBack) : State :=
  let n := b.node
  if !areaOk 10 b.rpt then bump (bump s (FJL_CNT_CRC_CNT r)) (FJL_CNT_RLOST_CNT r)
  else
    let status := leAt b.rpt 0 1
    let rovf := status.testBit 3 && !(getF s (FJL_NODE_STAT_FLAGS r n)).testBit 1
    let s := modNode s r n fun x => { x with silent := some 0 }
    let s := setF s (FJL_NODE_STAT_NSTATE r n) (status % 4)
    let s := setF s (FJL_NODE_STAT_FLAGS r n) (status / 4 % 32)
    let s := setF (setF s (FJL_NODE_STAT_OUT r n) (leAt b.rpt 1 1)) (FJL_NODE_STAT_VIA r n) (b.via % 2)
    let s := if rovf then bump s (FJL_CNT_RLOST_CNT r) else s
    takeReport (setReach s r n true) r n ((b.rpt.drop 2).take 8)

/-! ### Breaks (R226 to R228) -/

/-- A break is declared: counter, BRK_POS, record (R226). -/
def declareBreak (s : State) (r pos : Nat) : State :=
  record (setF (bump s (FJL_CNT_BREAK_CNT r)) (FJL_STAT_BRK_POS r) pos) 0x6004 r (leBytes 1 pos)

/-- OPER becomes BROKEN (R226). -/
def breakRing (s : State) (r pos : Nat) : State :=
  if ringState s r = rsOper then setF (setRingState (declareBreak s r pos) r rsBroken) (FJL_LOOP_VAL r) 0 else s

/-- The highest address that was served from port 0 (R227). -/
def servedFrom0 (b : RingBack) : Nat :=
  (b.nodes.filter fun n => areaOk 10 n.rpt && decide (n.via = 0)).foldl (fun m n => max m (n.node + 1)) 0

/-- Loss of signal at the master's ports (R198). -/
def showLos (s : State) (r : Nat) (b : RingBack) : State := setB (setB s (FJL_STAT_P0_LOS r) b.p0Los) (FJL_STAT_P1_LOS r) b.p1Los

/-- The second cycle after HEAL has not returned: the break is declared again, and UNWRAP is no longer sent (R226, R228). -/
def healFailed (s : State) (r : Nat) (b : RingBack) : State :=
  declareBreak (modRing s r fun x => { x with missed := 0, healing := false, svc := x.svc.filter fun q => decide (q.sop ≠ 8) }) r (servedFrom0 b)

/-- Follow the return of the frame: breaks in OPER, healing in BROKEN (R226, R228). -/
def continuity (s : State) (r : Nat) (b : RingBack) : State :=
  let losDn := (foundNodes s r).any fun n => (getF s (FJL_NODE_STAT_FLAGS r n)).testBit 3
  let s := setB s (FJL_STAT_CONT r) (!losDn && !b.p0Los && !b.p1Los)
  if ringState s r = rsOper then
    if b.returned then setF (modRing s r fun x => { x with missed := 0 }) (FJL_LOOP_VAL r) b.loopNs
    else modRing s r fun x => { x with missed := x.missed + 1 }
  else if ringState s r = rsBroken then
    let s := setF s (FJL_STAT_BRK_POS r) (servedFrom0 b)
    if (ringAt s r).healing then
      if b.returned then setRingState (modRing s r fun x => { x with healing := false, open_ := false }) r rsOper
      else if 1 ≤ (ringAt s r).missed then healFailed s r b
      else modRing s r fun x => { x with missed := x.missed + 1 }
    else s
  else s

/-- A break is declared where R226 calls for it. -/
def breakCheck (s : State) (r : Nat) (b : RingBack) : State :=
  if b.p1Los ∨ 2 ≤ (ringAt s r).missed then breakRing s r (servedFrom0 b) else s

/-! ### One cycle (R200) -/

/-- The ring sends on both of its ports: BROKEN, and what leads to it once the frame has not returned (R205, R227, R228). -/
def twoEnded (s : State) (r : Nat) : Bool :=
  if ringState s r = rsBroken then !(ringAt s r).healing
  else (ringAt s r).open_ && decide (ringState s r = rsEnum ∨ ringState s r = rsSync)

/-- A cycle starts: its CYC, its service block and its ports (R198, R200, R202). -/
def startCycle (s : State) (r : Nat) : State :=
  let t : RingTx :=
    { p0 := .cycle, p1 := if twoEnded s r then .cycle else .idle, rt := cycleNs s r,
      flags := bit (ringSafe s r) 0 + bit (twoEnded s r) 1, areas := [], svc := svcBlock (svcRequest s r), echoes := [] }
  modRing s r fun x => { x with tx := t }

/-- Ring time at which node `n`'s command area starts to leave the master (R200). -/
def areaStart (s : State) (r n : Nat) : Nat := cycleNs s r + (24 + 30 * n) * 50

/-- What sending an entry leaves: SPEC in its slot, a cancel frame counted, the value of a RATE (R76, R103, R216). -/
def noteSent (r n : Nat) (s : State) (q : RingCmd) : State :=
  let s := match q.slot with
    | some i => if q.op < 4 then modFlags s i fun f => { f with spec := true } else s
    | none => s
  if q.op = 4 then bump s SCH_CNT_SPEC_CXL_CNT
  else if q.op = 3 then modRemCh s (chanOf r n q.k) fun x => { x with vsent := q.param }
  else s

/-- Fill the command area of a node (R207, R209, R210). -/
def sendArea (s : State) (r n : Nat) : State × List RingCmd :=
  let x := tagsDue (nodeAt s r n) (cycleNs s r)
  let t := if ringRuns s r && !ringSafe s r then
      fillArea (areaStart s r n) x.queue.length x (sortBy (fun p q => rankLe (cmdRank p) (cmdRank q)) x.queue) [] 0
    else (x, [], 0)
  let s := bump (modNode s r n fun _ => t.1) (FJL_CNT_QOVF_CNT r) t.2.2
  let s := if t.2.1.isEmpty then s
    else modRing s r fun x => { x with tx := { x.tx with areas := sparsePut x.tx.areas n (cmdArea t.2.1) } }
  (t.2.1.foldl (noteSent r n) s, t.2.1)

/-- Send the areas of one node and take them back (R207 to R219). -/
def nodeCycle (r : Nat) (b : RingBack) (s : State) (n : Nat) : State :=
  let p := sendArea s r n
  let s := modNode p.1 r n fun x => { x with silent := x.silent.map (· + 1) }
  match b.nodes.find? fun z => decide (z.node = n) && (nodeAt s r n).found with
  | some z =>
    let s := if areaOk 16 z.cmd then s else bump s (FJL_CNT_CRC_CNT r)
    let s := (p.2.zipIdx 0).foldl (fun s e => entryAnswer s r n e.1 z.cmd e.2) s
    takeArea s r z
  | none => p.2.foldl (fun s q => resend s r n q) s

/-- Commands that did not find an entry in the five cycles of their step are counted (R210). -/
def countDelayed (s : State) (r n : Nat) : State :=
  let late := fun (q : RingCmd) => decide (q.op < 4) && decide (q.sent = 0) && decide (q.after ≤ cycleNs s r) && !q.counted
  let k := ((nodeAt s r n).queue.filter late).length
  if k = 0 then s
  else bump (modNode s r n fun x => { x with queue := x.queue.map fun q => if late q then { q with counted := true } else q })
    (FJL_CNT_QOVF_CNT r) k

/-- SYNC ends when every reachable node is locked and configured and its delay is known, and at once where there is none (R205). -/
def syncDone (s : State) (r : Nat) : State :=
  let l := (foundNodes s r).filter (inReach s r)
  if (svcHead s r).isNone && l.all (fun n => (getF s (FJL_NODE_STAT_FLAGS r n)).testBit 4 && (nodeAt s r n).configured) then
    setRingState s r (if (ringAt s r).open_ then rsBroken else rsOper)
  else s

/-- Show reachable nodes, their lock and the SAFE flag (FJL_STAT). -/
def showRing (s : State) (r : Nat) : State :=
  let s := (foundNodes s r).foldl (fun s n => if inReach s r n then s else setReach s r n false) s
  let l := (foundNodes s r).filter fun n => flag s (FJL_NODE_STAT_REACH r n)
  let s := setF s (FJL_STAT_NFOUND r) l.length
  let s := setB s (FJL_STAT_LOCK r) (!l.isEmpty && l.all fun n => (getF s (FJL_NODE_STAT_FLAGS r n)).testBit 4)
  setB s (FJL_STAT_SAFE_ACT r) (decide (ringState s r ≠ rsOff) && ringSafe s r)

/-- One service exchange: enumeration, or the request in the block (R205, R220). -/
def serviceCycle (s : State) (r : Nat) (b : RingBack) : State :=
  let s := if areaOk 50 b.svc || b.svc.isEmpty then s else bump s (FJL_CNT_CRC_CNT r)
  if ringState s r = rsEnum then enumCycle s r b
  else if ringState s r = rsFault then s
  else if ringState s r = rsSync then syncDone (serviceAnswer s r b) r
  else serviceAnswer s r b

/-- One ring cycle with what came back of it. A ring without cycles shows loss of signal only (R198). -/
def ringCycle (s : State) (r : Nat) (b : RingBack) : State :=
  let s := showLos s r b
  if ringState s r = rsOff then s
  else
    let s := startCycle (modRing s r fun x => { x with operAge := x.operAge + 1 }) r
    let s := if b.returned && !areaOk 12 b.cyc then bump s (FJL_CNT_CRC_CNT r) else s
    let s := (List.range nodeCount).foldl (nodeCycle r b) s
    let s := breakCheck (continuity (serviceCycle s r b) r b) r b
    let s := b.probes.foldl (answerProbe r) s
    let s := if (ringAt s r).seq % 5 = 4 then (List.range nodeCount).foldl (fun s n => countDelayed s r n) s else s
    showRing (modRing s r fun x => { x with seq := x.seq + 1 }) r

def execRingCycle (r : Nat) (b : RingBack) (s : State) : Host.Outcome State Fault Refusal :=
  answer (decide (r < 2) && (b.nodes.all fun n => decide (n.node < nodeCount)) && b.probes.all fun p => decide (p.port < 2)) (ringCycle s r b)

/-- RING_BREAK with the highest address still served from port 0 (R226). -/
def execRingBreak (r pos : Nat) (s : State) : Host.Outcome State Fault Refusal :=
  answer (decide (r < 2 ∧ pos ≤ nodeCount)) (breakRing s r pos)

/-- REPORT_AREA_TIMEOUT of node `n + 1`: after 4 cycles without a valid area it is not reachable (R219, R224). -/
def execReportAreaTimeout (r n : Nat) (s : State) : Host.Outcome State Fault Refusal :=
  answer (decide (r < 2 ∧ n < nodeCount)) (if ringRuns s r && !inReach s r n then setReach s r n false else s)

/-- TAG_RELEASE: a tag whose time has come is free again (R209). -/
def execTagRelease (r n t : Nat) (s : State) : Host.Outcome State Fault Refusal :=
  answer (decide (r < 2 ∧ n < nodeCount ∧ t < 15)) (match tagAt s r n t with
    | some g => match g.free with
      | some f => if f ≤ cycleNs s r then modTag s r n t fun g => { g with busy := false } else s
      | none => s
    | none => s)

/-! ### The step boundary (R195, R201, R212, R216, R219) -/

/-- The ring stops: no node is reachable, and its transmitters go idle; what the nodes reported and their delays stand (R205). -/
def ringStop (s : State) (r : Nat) : State :=
  let s := ringGoSafe s r 0 (nowTick s)
  let s := setB (setRingState s r rsOff) (FJL_STAT_ENUM_ERR r) false
  let s := (List.range nodeCount).foldl (fun s n => setB s (FJL_NODE_STAT_REACH r n) false) s
  let s := setB (setB (setF s (FJL_STAT_NFOUND r) 0) (FJL_STAT_LOCK r) false) (FJL_STAT_SAFE_ACT r) false
  modRing s r fun x => { RingState.reset with start := x.start }

/-- FJL_CTRL.EN in force: enumeration starts, or the ring stops (R205). -/
def ringEnable (s : State) (r : Nat) : State :=
  let on := flag s (FJL_CTRL_EN r)
  if on && decide (ringState s r = rsOff) then
    let s := modRing s r fun x => { RingState.reset with start := s.now, tx := x.tx }
    let s := (List.range nodeCount).foldl (fun s n => resetRegs s fun i => decide (i = FJL_NODE_STAT r n ∨ i = FJL_NODE_DLY r n)) s
    setRingState s r rsEnum
  else if !on && decide (ringState s r ≠ rsOff) then ringStop s r
  else s

/-- The value that a remote channel was sent last, or that the newest waiting RATE will send (R216). -/
def valueSent (s : State) (c : Nat) : Nat :=
  match (nodeAt s (ringOf c) (nodeOf c)).queue.filter fun q => decide (q.op = 3 ∧ q.k = nodeCh c) with
  | [] => (remCh s c).vsent
  | q :: l => (l.getLastD q).param

/-- An untracked RATE where V has moved by more than VTOL, for the earliest instant of the cycles that start now (R210, R216). -/
def rateRefresh (s : State) (c : Nat) : State :=
  let r := ringOf c
  let v := remoteValue s c
  let was := valueSent s c
  let d := if v < was then was - v else v - was
  if ringRuns s r && decide (2 ≤ (remCh s c).mode) && nodeFitted s c && decide (getF s (FJL_RATE_VTOL r) < d) then
    pushCmd s c { op := 3, k := nodeCh c, tag := 255, tx := ringNs s r (nowTick s) + linkLead s c * 1000, param := v,
                  slot := none, sent := 0, after := committedNs s r (nowTick s), counted := false }
  else s

/-- A MODE that the node has taken is in force (R221). -/
def takeMode (s : State) (c : Nat) : State := match (remCh s c).modeNext with
  | some m => modRemCh s c fun x => { x with mode := m, modeNext := none }
  | none => s

/-- A ring at a step boundary: EN, and while it runs, ring time, D_link and the SAFE flag; without cycles, idle characters
(R198, R201, R213). -/
def ringBoundary (s : State) (r : Nat) : State :=
  let s := ringEnable s r
  if ringState s r = rsOff then modRing s r fun x => { x with tx := { x.tx with p0 := .idle, p1 := .idle } }
  else
    let s := wrPair s (FJL_RT_LO r) (FJL_RT_HI r) (ringNs s r (nowTick s))
    let s := (foundNodes s r).foldl (showLead r) s
    setB s (FJL_STAT_SAFE_ACT r) (ringSafe s r)

/-- FJL at a step boundary. -/
def fjlBoundary (s : State) : State :=
  let s := [0, 1].foldl ringBoundary s
  let s := ((s.fjl.ch.map (·.1))).foldl takeMode s
  ((usedChannels s).filter fun c => !isLocal c).foldl rateRefresh s

/-- ACTUAL of a remote channel, and whether it is the ring's or the node's fault (R219). -/
def actualRemote (s : State) (c : Nat) : Nat :=
  let r := ringOf c
  let n := nodeOf c
  if !ringRuns s r || !nodeFitted s c then 0
  else
    let k := silentCycles s r n
    let wd := getF s (FJL_CTRL_WD r) + 4
    if k < 4 then
      if (nodeAt s r n).silent.isNone then 0
      else if (getF s (FJL_NODE_STAT_OUT r n)).testBit (nodeCh c) && decide (getF s (FJL_NODE_STAT_NSTATE r n) ≠ 2) then
        (if 2 ≤ (remCh s c).mode then 2 else 1)
      else 0
    else if k < wd then 4
    else 0

/-- The node of a remote channel is in its safe state, not fitted or lost, or the channel has a fault: CAUSE 0x5, 0x1 or 0x2
(R195, R219, R225). -/
def remoteSafe (s : State) (c : Nat) : Bool :=
  let r := ringOf c
  let n := nodeOf c
  !ringRuns s r || !nodeFitted s c || decide (getF s (FJL_CTRL_WD r) + 4 ≤ silentCycles s r n)
    || (decide (getF s (FJL_NODE_STAT_NSTATE r n) = 2) && (nodeAt s r n).silent.isSome)

/-! ### The channel window and register rules (R195, R221, R230) -/

/-- The channel window of ring `r` for channel `c`: stored configuration and live status, as offset and value. -/
def fjlWindow (s : State) (c o : Nat) : Word :=
  let x := remCh s c
  if o = 7 then BitVec.ofNat 32 (bit x.busy 1 + x.rsp * 4 + bit x.acked 4)
  else if o = 8 then
    BitVec.ofNat 32 (bit ((getF s (FJL_NODE_STAT_OUT (ringOf c) (nodeOf c))).testBit (nodeCh c)) 0 + x.fcode * 256 + x.vsent * 65536)
  else fjlCfg s c o

/-- The rules of a write to a ring register: the value stored, or none where it is invalid (R195, R230). EN = 1 is judged on the
NNODES that stood before the item (R406). -/
def fjlStore (s : State) (i : Nat) (v : Word) : Option Word :=
  let ok := fun (b : Bool) => if b then some v else none
  let r := (i - 0x1400) / 256
  match i % 256 with
  | 0 => ok (decide (bitsOf v 12 8 ≤ 30) && decide (2 ≤ bitsOf v 23 16)
      && !(decide (bitsOf v 0 0 = 1) && !flag s (FJL_CTRL_EN r) && decide (getF s (FJL_CTRL_NNODES r) = 0)))
  | 2 => ok (inRange 200 1000 (bitsOf v 9 0) && decide (bitsOf v 25 16 ≤ 1000))
  | 0xC0 => ok (inRange (32 + 240 * ((i - 0x1400) / 256)) (32 + 240 * ((i - 0x1400) / 256) + 239) (bitsOf v 8 0))
  | _ => some v

/-- The rules of a write to the configuration of channel `c` at offset `o` of the window (chapter 7, FJL registers). -/
def fjlCfgStore (s : State) (c o : Nat) (v : Word) : Option Word :=
  let ok := fun (b : Bool) => if b then some v else none
  match o with
  | 2 => ok (inRange 100 6000 (bitsOf v 13 0) && inRange 1 500 (bitsOf v 24 16) && decide (bitsOf (fjlCfg s c 3) 12 0 ≤ bitsOf v 13 0))
  | 3 => ok (inRange 50 3000 (bitsOf v 12 0) && decide (bitsOf v 12 0 ≤ bitsOf (fjlCfg s c 2) 13 0))
  | 4 => ok (inRange 50 1000 (bitsOf v 9 0) && decide (1 ≤ bitsOf v 31 24))
  | 5 => ok (inRange 50 400 (bitsOf v 8 0) && decide (bitsOf v 21 16 ≤ 50))
  | 6 => ok (decide (bitsOf v 15 0 ≤ if bitsOf (fjlCfg s c 1) 1 0 = 2 then 1000 else 3000))
  | _ => some v

/-- HEAL: UNWRAP is sent and the ring waits for the return of its frame (R228). -/
def heal (s : State) (r : Nat) : State :=
  if ringState s r = rsBroken ∧ flag s (FJL_STAT_CONT r) then
    let q : Service := { addr := 0xFF, sop := 8, data := [] }
    modRing s r fun x => { x with svc := q :: x.svc, healing := true, missed := 0, open_ := false }
  else s

/-- CLR_FLT for every channel of a node (R225). -/
def nodeClear (s : State) (r n : Nat) : State :=
  let q : Service := { addr := n + 1, sop := 6, data := [0xFF#8] }
  if (nodeAt s r n).found then modRing s r fun x => { x with svc := x.svc ++ [q] } else s

/-- FJL_CTRL.SAFE in force: set, the nodes go safe; cleared, R223 applies. -/
def safeWrite (s : State) (r : Nat) (old : Bool) : State :=
  if flag s (FJL_CTRL_SAFE r) && !old then ringGoSafe s r 0 (nowTick s + slotsPerStep) else s

/-- A reset of a ring (R39). -/
def fjlReset (s : State) (r : Nat) : State :=
  let mine := fun (c : Nat) => decide (32 ≤ c) && decide (ringOf c = r)
  let s := resetRegs s fun i => decide (i / 256 = 0x14 + r)
  { s with fjl := { rings := sparseDrop (fun k => decide (k = r)) s.fjl.rings, ch := sparseDrop mine s.fjl.ch,
                    cfg := sparseDrop (fun k => mine (k / 16)) s.fjl.cfg } }

end Sys2Proof.Machine
end

