-- ==== Sys2Proof/Machine/Pwm.lean ====
section
/-!
DEFINITION. Sys2Proof/Machine/Pwm.lean: the motor PWM groups (chapter 9): counters and period boundaries, compare and dead
time, the Sieve, shadow values and their copy, starts, stops, trips and interrupts.
-/
namespace Sys2Proof.Machine

def pwmGroups : List Nat := [0, 1, 2, 3, 4, 5, 6, 7]

def pwmAt (s : State) (g : Nat) : PwmGrp := sparseGet (fun _ => PwmGrp.reset) s.pwm g

def modPwm (s : State) (g : Nat) (f : PwmGrp → PwmGrp) : State :=
  { s with pwm := sparseMod (fun _ => PwmGrp.reset) s.pwm g f }

def pwmRuns (s : State) (g : Nat) : Bool := flag s (PWM_GRP_STAT_RUN g)

def pwmTripped (s : State) (g : Nat) : Bool := flag s (PWM_GRP_FLT_TRIP0 g) || flag s (PWM_GRP_FLT_TRIP1 g)

/-- A protective stage holds the group off (R246, R273, R276). -/
def pwmHeldOff (s : State) (g : Nat) : Bool :=
  pwmTripped s g || flag s (PWM_GRP_STAT_FORCED g) || !enablesOk s || s.sys.tripped

/-- Set one bit of a field's range. -/
def setBitF (s : State) (f : Field) (k : Nat) (b : Bool) : State := setB s ⟨f.reg, f.lo + k, f.lo + k⟩ b

/-- Show a group in PWM_GRP_STAT and PWM_STAT. -/
def showPwm (s : State) (g : Nat) : State :=
  let hiz := !pwmRuns s g || (pwmAt s g).pairs.all (fun p => !p.driven)
  let s := setB s (PWM_GRP_STAT_HIZ g) hiz
  let s := setB s (PWM_GRP_STAT_TRIPPED g) (pwmTripped s g)
  let s := setB s (PWM_GRP_STAT_LDARM g) (pwmAt s g).armed.isSome
  let s := setBitF s PWM_STAT_RUN g (pwmRuns s g)
  setBitF (setBitF s PWM_STAT_HIZ g hiz) PWM_STAT_TRIP g (pwmTripped s g)

/-! ### Compare, Sieve and dead time (R261 to R265) -/

/-- The compare value in force: within the period, and on the 5 ns grid while LOCK is 0 (R262, R266). -/
def pwmCompare (s : State) (x : PwmSet) (p : Nat) : Nat :=
  let c := min (x.cmp.getD p 0) (32 * x.prd)
  if flag s PWM_CAL_LOCK then c else c / 32 * 32

/-- c_eff, and whether the Sieve dropped or stretched a pulse (R265). -/
def sieve (x : PwmSet) (stretch : Bool) (c : Nat) : Nat × Bool × Bool :=
  let t := 32 * x.prd
  let m := 32 * x.min
  let d := 32 * x.dt
  if x.min = 0 ∨ c = 0 ∨ t ≤ c then (c, false, false)
  else if c < m + d then (if stretch then (m + d, false, true) else (0, true, false))
  else if t < c + m + d then (if stretch then (t - m - d, false, true) else (t, true, false))
  else (c, false, false)

/-- S takes a level at instant `t` (156.25 ps): turn-off at once, turn-on after the dead time (R263). -/
def pairEdge (p : PwmPair) (dt : Nat) (new : Bool) (t : Nat) : PwmPair :=
  if !p.driven then { p with s := new, h := none, l := none }
  else if p.s = new then p
  else if new then { p with s := true, l := none, h := some (t + 32 * dt) }
  else { p with s := false, h := none, l := some (t + 32 * dt) }

/-- A pair begins low, and its first rise follows as if S had taken its level now (R271). -/
def pairBegin (p : PwmPair) (dt : Nat) (lvl : Bool) (t : Nat) : PwmPair :=
  { p with s := lvl, driven := true, h := if lvl then some (t + 32 * dt) else none, l := if lvl then none else some (t + 32 * dt) }

/-- Form c_eff of every pair for the period that starts, and count the period if the Sieve changed one (R265). -/
def formCompares (s : State) (g : Nat) : State :=
  let x := (pwmAt s g).act
  let st := flag s (PWM_GRP_CTRL_SMODE g)
  let l := [0, 1, 2].map fun p => sieve x st (pwmCompare s x p)
  let s := modPwm s g fun y => { y with pairs := (y.pairs.zip l).map fun q => { q.1 with c := q.2.1 } }
  let s := (l.zipIdx 0).foldl (fun s q =>
    setB (setB (setF s (PWM_PR_ACT_CEFF g q.2) q.1.1) (PWM_PR_ACT_DROP g q.2) q.1.2.1) (PWM_PR_ACT_STRETCH g q.2) q.1.2.2) s
  if l.any fun q => q.2.1 || q.2.2 then bump s (PWM_GRP_CNT_SIEVE_CNT g) else s

/-! ### Shadow values (R267 to R270) -/

/-- A write completes: the shadow set takes it. -/
def takeWrite (x : PwmGrp) (w : PwmWrite) : PwmGrp :=
  let sh := x.shadow
  let sh := if w.off = 2 then { sh with prd := bitsOf w.v 15 0 }
    else if w.off = 3 then { sh with dt := bitsOf w.v 9 0, min := bitsOf w.v 23 16 }
    else { sh with cmp := sh.cmp.set (w.off - 4) (bitsOf w.v 20 0) }
  { x with shadow := sh, waits := if w.off ∈ x.waits then x.waits else x.waits ++ [w.off] }

/-- The writes that are complete at instant `t` (R268). -/
def takeWrites (s : State) (g t : Nat) : State :=
  modPwm s g fun x =>
    (sortBy (fun a b => decide (a.at_ ≤ b.at_)) (x.writes.filter fun w => decide (w.at_ ≤ t))).foldl takeWrite { x with writes := x.writes.filter fun w => decide (t < w.at_) }

/-- A value of the register at an offset still waits for its copy. -/
def stillPends (x : PwmGrp) (off : Nat) : Bool := x.writes.any fun w => decide (w.off = off)

/-- Note in LAND the period in which a write takes effect (R269). -/
def noteLand (g pcnt : Nat) (s : State) (off : Nat) : State :=
  let pend := stillPends (pwmAt s g) off
  if off < 4 then
    let s := setF (setF s (PWM_GRP_LAND_PCNT g) pcnt) (PWM_GRP_LAND_IDX g) off
    setB s (PWM_GRP_LAND_PEND g) (stillPends (pwmAt s g) 2 || stillPends (pwmAt s g) 3)
  else if off < 7 then setB (setF s (PWM_PR_LAND_PCNT g (off - 4)) pcnt) (PWM_PR_LAND_PEND g (off - 4)) pend
  else s

/-- The whole shadow set is copied to the active set at the boundary edge `t`. The copy clears a load-all that is armed by then; one
that is armed later stays (R267, R268). -/
def copyShadow (s : State) (g t : Nat) : State :=
  let w := (pwmAt s g).waits
  let late := match (pwmAt s g).armed with
    | some a => decide (t < a)
    | none => false
  let s := modPwm s g fun x => { x with act := x.shadow, waits := [], armed := if late then x.armed else none }
  let s := setF s (PWM_GRP_PRD_PRD_ACT g) (pwmAt s g).act.prd
  let s := if late then s else setBitF s PWM_LOADALL_GRP g false
  w.foldl (noteLand g (getF s (PWM_GRP_STAT_PCNT g))) s

/-- A shadow register is written: the register shows the value, which completes at `t` (R268, R269). -/
def shadowWrite (s : State) (g off : Nat) (v : Word) (t : Nat) (loop : Option Nat) : State :=
  let w : PwmWrite := { at_ := t, off := off, v := v, loop := loop }
  let s := modPwm s g fun x => { x with writes := x.writes ++ [w] }
  if off < 4 then setB (setF s (PWM_GRP_LAND_IDX g) off) (PWM_GRP_LAND_PEND g) true
  else
    let s := setB (setB s (PWM_PR_LAND_PEND g (off - 4)) true) (PWM_PR_LAND_BYLOOP g (off - 4)) loop.isSome
    setF s (PWM_PR_LAND_LOOP g (off - 4)) (loop.getD 0)

/-- The instant at which a host's shadow write completes: 5 ns after the boundary at which it comes into force (R268). -/
def hostWriteAt (s : State) : Nat := nowTick s + slotsPerStep + 1

/-- A loop writes the compare of a pair: CMP = round(u·32·PRD) with the shadow PRD at instant `t`; `num`/`den` is u (R270). -/
def loopCompare (s : State) (g p : Nat) (num den : Int) (t n : Nat) : State :=
  let prd := (pwmAt (takeWrites s g t) g).shadow.prd
  let v := (clampI 0 (32 * prd) (roundDiv (num * (32 * prd)) den.toNat)).toNat
  shadowWrite (setF s (PWM_PR_CMP_CMP g p) v) g (4 + p) (BitVec.ofNat 32 v) t (some n)

/-- PWM_LOADALL arms load-all copies; one that is armed already stands (R267, R268). -/
def armLoadAll (s : State) (v : Nat) : State :=
  pwmGroups.foldl (fun s g =>
    if v.testBit g then
      let a := (pwmAt s g).armed.getD (hostWriteAt s)
      showPwm (setBitF (modPwm s g fun x => { x with armed := some a }) PWM_LOADALL_GRP g true) g
    else s) s

/-! ### Interrupts (R277) -/

/-- A flag of PWM_GRP_IRQ falls due: it is set, or OVR where it is still set. -/
def pwmFlag (s : State) (g k : Nat) : State :=
  let f : Field := ⟨PWM_GRP_IRQ g, k, k⟩
  if flag s f then setB s (PWM_GRP_IRQ_OVR g) true else raiseIrq s f ⟨PWM_GRP_IEN g, k, k⟩ 2

/-- An event of a type occurs: 0 ZERO, 1 PRD, 2 to 4 CMP; every (PSC + 1)-th one falls due. -/
def pwmEvent (s : State) (g k : Nat) : State :=
  let n := (pwmAt s g).occ.getD k 0 + 1
  if getF s (PWM_GRP_IEN_PSC g) < n then pwmFlag (modPwm s g fun x => { x with occ := x.occ.set k 0 }) g k
  else modPwm s g fun x => { x with occ := x.occ.set k n }

/-! ### The period (R260, R261, R267) -/

/-- The counter reaches c_eff of a pair (R261, R263, R277). -/
def compareEvent (s : State) (g p : Nat) : State :=
  let x := pwmAt s g
  let q := x.pairs.getD p PwmPair.reset
  if pwmRuns s g && q.s && decide (0 < q.c ∧ q.c < 32 * x.act.prd) then
    let q := pairEdge q x.act.dt false (32 * x.start + q.c)
    pwmEvent (modPwm s g fun x => { x with pairs := x.pairs.set p q }) g (2 + p)
  else s

/-- The counter reaches PRD − 1 (R277). -/
def periodEvent (s : State) (g : Nat) : State :=
  if pwmRuns s g && !(pwmAt s g).prdDone then pwmEvent (modPwm s g fun x => { x with prdDone := true }) g 1 else s

/-- A pair at a period boundary: a newly enabled one begins, the others take the level of S (R261, R271). -/
def pairBoundary (dt t : Nat) (en : Bool) (p : PwmPair) : PwmPair :=
  if en && !p.driven then pairBegin p dt (decide (0 < p.c)) t else pairEdge p dt (decide (0 < p.c)) t

/-- A period boundary: events of the period that ends which have not been given are given first (R260, R265, R267, R277). -/
def periodBoundary (s : State) (g : Nat) : State :=
  if !pwmRuns s g then s
  else
    let s := periodEvent (compareEvent (compareEvent (compareEvent s g 0) g 1) g 2) g
    let s := modPwm s g fun x => { x with start := x.start + x.act.prd, prdDone := false }
    let t := (pwmAt s g).start
    let s := setF s (PWM_GRP_STAT_PCNT g) ((getF s (PWM_GRP_STAT_PCNT g) + 1) % 65536)
    let s := takeWrites s g t
    let load := match (pwmAt s g).armed with
      | some a => decide (a ≤ t)
      | none => false
    let s := if !flag s (PWM_GRP_CTRL_LDMODE g) || load then copyShadow s g t else s
    let s := formCompares s g
    let en := getF s (PWM_GRP_CTRL_PAIR_EN g)
    let s := modPwm s g fun x => { x with
      pairs := (x.pairs.zipIdx 0).map fun q => pairBoundary x.act.dt (32 * x.start) (en.testBit q.2) q.1 }
    pwmEvent (showPwm s g) g 0

def execPeriodBoundary (g : Nat) (s : State) : Host.Outcome State Fault Refusal := answer (decide (g < 8)) (periodBoundary s g)

def execPwmCmpEvent (g p : Nat) (s : State) : Host.Outcome State Fault Refusal :=
  answer (decide (g < 8 ∧ p < 3)) (compareEvent s g p)

def execPwmPrdEvent (g : Nat) (s : State) : Host.Outcome State Fault Refusal := answer (decide (g < 8)) (periodEvent s g)

/-! ### Starting and stopping (R271, R275, R276) -/

/-- The group starts at the next step boundary. -/
def startPwm (s : State) (g : Nat) : State :=
  let b := nowTick s + slotsPerStep
  let s := setB (setB (setF s (PWM_GRP_STAT_PCNT g) 0) (PWM_GRP_STAT_RUN g) true) (PWM_GRP_STAT_FORCED g) false
  let s := formCompares (copyShadow (takeWrites s g b) g b) g
  let x := pwmAt s g
  let n := min (getF s (PWM_GRP_CTRL_START_CNT g)) (x.act.prd - 1)
  let en := getF s (PWM_GRP_CTRL_PAIR_EN g)
  let one := fun (q : PwmPair × Nat) =>
    let lvl := decide (32 * n < q.1.c)
    if en.testBit q.2 then pairBegin q.1 x.act.dt lvl (32 * b) else { q.1 with s := lvl, h := none, l := none, driven := false }
  showPwm (modPwm s g fun x => { x with
    start := b - n, occ := [0, 0, 0, 0, 0], prdDone := decide (x.act.prd ≤ n + 1),
    pairs := (x.pairs.zipIdx 0).map one }) g

/-- Every output becomes high impedance and the counter stops. -/
def stopPwm (s : State) (g : Nat) : State :=
  let s := setB s (PWM_GRP_STAT_RUN g) false
  showPwm (modPwm s g fun x => { x with pairs := x.pairs.map fun p => { p with driven := false, h := none, l := none, s := false } }) g

/-- A start or a RESUME is possible (R271, R275). -/
def startOk (s : State) (g : Nat) : Bool := !pwmTripped s g && enablesOk s && !s.sys.tripped

/-- RESUME: the group restarts (R275). A group that runs is not disturbed. -/
def resumePwm (s : State) (g : Nat) : State := if pwmRuns s g then s else startPwm s g

/-- Enable loss or a supervision trip: every running group is forced off (R276). -/
def forcePwm (s : State) : State :=
  pwmGroups.foldl (fun s g => if pwmRuns s g then stopPwm (setB s (PWM_GRP_STAT_FORCED g) true) g else s) s

/-- PWM_GRP_CTRL comes into force: EN and PAIR_EN (R271). -/
def pwmCtrlEffect (s : State) (g : Nat) (old : Word) : State :=
  let was := decide (bitsOf old 0 0 = 1)
  if flag s (PWM_GRP_CTRL_EN g) && !was then startPwm s g
  else if !flag s (PWM_GRP_CTRL_EN g) && was then stopPwm s g
  else
    let en := getF s (PWM_GRP_CTRL_PAIR_EN g)
    showPwm (modPwm s g fun x => { x with
      pairs := (x.pairs.zipIdx 0).map fun q => if en.testBit q.2 then q.1 else { q.1 with driven := false, h := none, l := none } }) g

/-! ### Trips (R272 to R274) -/

/-- The filter output of a trip input becomes active (R273). -/
def pwmTrip (s : State) (g i : Nat) : State :=
  let s := setB s ⟨PWM_GRP_FLT g, i, i⟩ true
  let s := pwmFlag (stopPwm s g) g 5
  record (bump s (PWM_GRP_CNT_TRIP_CNT g)) 0x2004 g (leBytes 1 i)

/-- `n` samples of one level pass a filter of length `len`: an active sample counts up to `len` and the output is active there. An
inactive one ends the count, or in integrating mode lowers it. When an active output becomes inactive is not stated: at the first
inactive sample, or in integrating mode where the counter reaches 0 (DESIGN CHOICE, log entry 64). -/
def TripFilter.run (len : Nat) (integ : Bool) (f : TripFilter) (active : Bool) (n : Nat) : TripFilter :=
  if n = 0 then f
  else if active then
    let c := min len (f.count + n)
    { count := c, act := f.act || decide (len ≤ c), quiet := 0 }
  else
    let c := if integ then f.count - n else 0
    { count := c, act := f.act && integ && decide (0 < c), quiet := f.quiet + n }

/-- The filter of a trip input. -/
def tripFilter (s : State) (g i : Nat) : TripFilter := (pwmAt s g).filt.getD i TripFilter.reset

/-- Show a trip input: its level, the filter output and QUIET (R272). -/
def showTrip (s : State) (g i : Nat) (active : Bool) : State :=
  let f := tripFilter s g i
  let s := setB (setB s (PWM_GRP_COL_IN g i) active) (PWM_GRP_COL_ACT g i) f.act
  setB s (PWM_GRP_COL_QUIET g i) (!active && decide (getF s (PWM_GRP_COL_LEN g i) ≤ f.quiet))

/-- A run of samples of one pin level, the first at `t`, reaches a trip input: where the filter output becomes active, the group trips
(R272, R273). The event crosses to the data path (R444). -/
def tripRun (g i t : Nat) (s : State) (r : Bool × Nat) : State :=
  let active := r.1 == (getF s (PWM_GRP_CTRL_TRIP_POL g)).testBit i
  let f := tripFilter s g i
  let f' := TripFilter.run (getF s (PWM_GRP_COL_LEN g i)) (flag s (PWM_GRP_COL_MODE g i)) f active r.2
  let s := showTrip (modPwm s g fun x => { x with filt := x.filt.set i f' }) g i active
  if f'.act && !f.act then pwmTrip (edgeEvent s (11 + 2 * g + i) (t + (getF s (PWM_GRP_COL_LEN g i) - f.count - 1))) g i else s

/-- Runs of samples, one after another. -/
def tripRuns (g i : Nat) (s : State) (t : Nat) : List (Bool × Nat) → State
  | [] => s
  | r :: l => tripRuns g i (tripRun g i t s r) (t + r.2) l

/-- The samples of a trip input pass; one whose TRIP_EN bit is 0 is not sampled (R272). -/
def tripPin (s : State) (p : TripPin) : State :=
  if (getF s (PWM_GRP_CTRL_TRIP_EN p.g)).testBit p.i then tripRuns p.g p.i s p.t p.runs else s

def tripPinOk (p : TripPin) : Bool := decide (p.g < 8 ∧ p.i < 2)

/-- PWM_TRIP: the samples that a trip input takes on the way to its trip. -/
def execPwmTrip (p : TripPin) (s : State) : Host.Outcome State Fault Refusal := answer (tripPinOk p) (tripPin s p)

/-- A request to clear trip flags is accepted (R274). -/
def tripClearOk (s : State) (g v : Nat) : Bool :=
  [0, 1].all fun i => !v.testBit i || !flag s ⟨PWM_GRP_FLT g, i, i⟩ || flag s (PWM_GRP_COL_QUIET g i)
    || !(getF s (PWM_GRP_CTRL_TRIP_EN g)).testBit i

/-- DELAY_LINE_LOCK with the trim code that the loop found (R262). -/
def execDelayLineLock (trim : Nat) (s : State) : Host.Outcome State Fault Refusal :=
  let s' := setF (setB s PWM_CAL_LOCK true) PWM_CAL_TRIM trim
  answer (decide (trim < 256)) (setF s' PWM_CAL_CALS ((getF s' PWM_CAL_CALS + 1) % 65536))

/-! ### Register rules (R266, R271, R274, R275, R279) -/

/-- The value that a write stores (R272). -/
def pwmStore (i : Nat) (v : Word) : Word :=
  if 0x1C00 ≤ i ∧ i < 0x1E00 ∧ (i % 64 = 0x13 ∨ i % 64 = 0x14) then (if bitsOf v 10 0 = 0 then bitsSet v 10 0 1 else v) else v

/-- The rules of a write of `v` to a PWM register that holds `old`. -/
def pwmCheck (s : State) (i : Nat) (old v : Word) : Verdict :=
  if 0x1C00 ≤ i ∧ i < 0x1E00 then
    let g := (i - 0x1C00) / 64
    let run := pwmRuns s g
    match i % 64 with
    | 0 =>
      let start := decide (bitsOf old 0 0 = 0 ∧ bitsOf v 0 0 = 1)
      let conf := bitsDiffer old v 1 1 || bitsDiffer old v 3 3 || bitsDiffer old v 11 8 || bitsDiffer old v 31 16
      inState (!(run && conf)) (inState (!start || startOk s g)
        (inState (decide (bitsOf v 2 2 = 0) || (startOk s g && decide (bitsOf old 0 0 = 1)))
          (valid (decide (bitsOf v 31 16 < getF s (PWM_GRP_PRD_PRD g))))))
    | 2 => valid (inRange 20 65535 (bitsOf v 15 0) && decide (2 * (getF s (PWM_GRP_DT_MIN g) + getF s (PWM_GRP_DT_DT g)) ≤ bitsOf v 15 0))
    | 3 => valid (decide (bitsOf v 9 0 ≤ 512) && decide (2 * (bitsOf v 23 16 + bitsOf v 9 0) ≤ getF s (PWM_GRP_PRD_PRD g)))
    | 4 => valid (decide (bitsOf v 20 0 ≤ 32 * getF s (PWM_GRP_PRD_PRD g)))
    | 5 => valid (decide (bitsOf v 20 0 ≤ 32 * getF s (PWM_GRP_PRD_PRD g)))
    | 6 => valid (decide (bitsOf v 20 0 ≤ 32 * getF s (PWM_GRP_PRD_PRD g)))
    | 0x12 => inState (tripClearOk s g v.toNat) .ok
    | 0x13 => inState (!run) .ok
    | 0x14 => inState (!run) .ok
    | _ => .ok
  else .ok

/-- A reset of PWM: the delay line is trimmed anew, so LOCK starts at 0 (R14, R39, R262). -/
def pwmReset (s : State) : State :=
  { dropLines (resetRegs s fun i => decide (0x1C00 ≤ i ∧ i < 0x2000)) (fun l => decide (11 ≤ l)) with pwm := [] }

end Sys2Proof.Machine
end

