-- ==== Sys2Proof/Machine/Tim.lean ====
section
/-!
DEFINITION. Sys2Proof/Machine/Tim.lean: the time bases, steering, holdover, leap seconds and pulse outputs (chapter 12). The
instant of a tick of the present step count on the scale of StateNet is `absTick`.
-/
namespace Sys2Proof.Machine

/-- Units of a time base in one ns: 2^40 × 10^9. -/
def tbUnit : Int := 2 ^ 40 * 1000000000

/-- Edges of the 200 MHz clock in a second. -/
def ticksPerSec : Nat := 200000000

/-- The instant, since power-up, of a 5 ns tick of the present step count. -/
def absTick (s : State) (t : Nat) : Nat := s.tim.base + t

/-- The next step boundary, at which what is written now comes into force (R41). -/
def nextBoundary (s : State) : Nat := absTick s (nowTick s + slotsPerStep)

/-- A tick lies in the present step; while the data path is in reset no step ends. -/
def inThisStep (s : State) (t : Nat) : Bool := decide (nowTick s ≤ t) && (!s.sys.running || decide (t ≤ nowTick s + slotsPerStep))

def timeBase (s : State) (n : Nat) : TimeBase := sparseGet (fun _ => TimeBase.reset) s.tim.tb n

def modTb (s : State) (n : Nat) (f : TimeBase → TimeBase) : State :=
  { s with tim := { s.tim with tb := sparseMod (fun _ => TimeBase.reset) s.tim.tb n f } }

def ppsOut (s : State) (x : Nat) : Pps := sparseGet (fun _ => Pps.reset) s.tim.pps x

def modPps (s : State) (x : Nat) (f : Pps → Pps) : State :=
  { s with tim := { s.tim with pps := sparseMod (fun _ => Pps.reset) s.tim.pps x f } }

/-- SRC of a time base; that of TB0 is SERVO (R324). -/
def tbSrc (s : State) (n : Nat) : Nat := if n = 0 then 1 else getF s (TIM_TB_CTRL_SRC n)

/-- The signed ADJ of a time base, in units (R325). -/
def tbAdj (s : State) (n : Nat) : Int := signed 64 (rdPair s (TIM_TB_ADJ_LO n) (TIM_TB_ADJ_HI n)) * tbUnit

/-- What one edge adds without slew: 5 ns × (1 + RATE·2^−40) (R323). -/
def tbEdge (s : State) (n : Nat) : Int := 5 * 1000000000 * (2 ^ 40 + getI s (TIM_TB_RATE_VAL n))

/-- The part of a slew that `d` edges remove (R325). -/
def slewPart (b : TimeBase) (d : Nat) : Int :=
  let m : Int := d * (5 * b.slewr * 2 ^ 40)
  clampI (-m) m b.slew

/-- The value of a time base that does not follow another one, at an instant. DESIGN CHOICE (log entry 67): exact, where the spec
holds 32 fractional bits and does not say how it rounds. -/
def tbOwn (s : State) (n t : Nat) : Int :=
  let b := timeBase s n
  let d := t - b.at_
  b.val + d * tbEdge s n + slewPart b d

/-- The time base that a time base follows, through others where need be, and the sum of their offsets (R324). -/
def tbRoot (s : State) : Nat → Nat → Nat × Int
  | 0, n => (n, 0)
  | k + 1, n =>
    if tbSrc s n = 2 then
      let r := tbRoot s k (getF s (TIM_TB_CTRL_FOLLOW n))
      (r.1, r.2 + tbAdj s n)
    else (n, 0)

/-- 2^64 ns: a count wraps there (R323). -/
def tbSpan : Int := 2 ^ 64 * tbUnit

/-- The value of a time base at an instant (R323, R324). -/
def tbAt (s : State) (n t : Nat) : Int :=
  let r := tbRoot s 3 n
  (tbOwn s r.1 t + r.2) % tbSpan

/-- What the edge that ends at an instant has added. -/
def tbLastEdge (s : State) (n t : Nat) : Int :=
  let m := (tbRoot s 3 n).1
  let b := timeBase s m
  tbEdge s m + (slewPart b (t - b.at_) - slewPart b (t - b.at_ - 1))

/-- The count in ns (R323): it wraps at 2^64. -/
def tbNs (v : Int) : Nat := (v / tbUnit % 2 ^ 64).toNat

/-- Hold a time base at an instant, so that its rate or its slew may change. -/
def tbSync (s : State) (n t : Nat) : State :=
  let v := tbAt s n t
  modTb s n fun b => { b with at_ := t, val := v, slew := b.slew - slewPart b (t - b.at_) }

/-- Show SLEWREM, SLEWING and ADJ_PEND. -/
def showTb (s : State) (n t : Nat) : State :=
  let b := timeBase s n
  let r := b.slew - slewPart b (t - b.at_)
  let s := setI s (TIM_TB_SLEWREM_VAL n) (clampI (-2147483648) 2147483647 (roundDiv r tbUnit.toNat))
  setB (setB s (TIM_TB_STAT_SLEWING n) (decide (r ≠ 0))) (TIM_TB_STAT_ADJ_PEND n) b.pend.isSome

/-- The value before the first STEP or SET of an instant, if there was one. -/
def beforeStep (b : TimeBase) (t : Nat) : Option Int :=
  match b.stepped with
  | some (u, v) => if u = t then some v else none
  | none => none

/-- A step or set puts the value `v` in force at an instant (R325): it discards the slew remainder, but for a SLEW of the same
boundary, which comes last. One of TB0 is recorded, with the flag `initial`. -/
def tbJump (s : State) (n t : Nat) (v : Int) : State :=
  let old := tbAt s n t
  let init := (timeBase s n).initial
  let s := modTb s n fun b =>
    { b with at_ := t, val := v, slew := if b.slewAt = some t then b.slew else 0, stepped := some (t, (beforeStep b t).getD old) }
  let s := bump (setB s (TIM_TB_STAT_STEPPED n) true) TIM_CNT_STEP_CNT
  let s := setF s (TIM_TB_ADJSTEP_VAL n) ((t - s.tim.base + slotsPerStep - 1) / slotsPerStep)
  let s := showTb s n t
  if n = 0 then
    let s := { s with gns := { s.gns with clkStep := true } }
    let d := roundDiv (v - old) tbUnit.toNat
    let s := record s 0x9005 noInst (leBytes 8 (unsigned 64 d) ++ leBytes 1 (bit init 0))
    let s := raiseIrq s TIM_IRQ_STEP ⟨TIM_IEN, 3, 3⟩ 4
    if init then setB s (TIM_TB_STAT_VALID 0) true else s
  else s

/-- A slew of `d` units at `rate` ns/s replaces the remainder (R325). -/
def tbSlew (s : State) (n t : Nat) (d : Int) (rate : Nat) : State :=
  showTb (modTb (tbSync s n t) n fun b => { b with slew := d, slewr := rate }) n t

/-- A new rate applies from an instant (R323, R325). -/
def tbRate (s : State) (n t : Nat) (rate : Int) : State := setI (tbSync s n t) (TIM_TB_RATE_VAL n) rate

/-! ### What a host writes (R324 to R326) -/

/-- The sum of the host's STEPs of this boundary. -/
def stepsAt (b : TimeBase) (t : Nat) : Int :=
  match b.steps with
  | some (u, d) => if u = t then d else 0
  | none => 0

/-- The action that TIM_TB_CTRL.ADJ names comes into force at a boundary: 1 STEP, 2 SLEW, 3 SET. Those of one boundary act in the
order SET, STEP, SLEW, whichever was written first (R325). DESIGN CHOICE (log entry 67): a STEP that waits for its second is
replaced by another one, and stands when a SET or a STEP without AT_SEC comes. -/
def tbAction (s : State) (n t a : Nat) : State :=
  match a with
  | 1 =>
    let d := tbAdj s n
    if flag s (TIM_TB_CTRL_AT_SEC n) then showTb (modTb s n fun b => { b with pend := some d }) n t
    else modTb (tbJump s n t (tbAt s n t + d)) n fun b => { b with steps := some (t, stepsAt b t + d) }
  | 2 => modTb (tbSlew s n t (tbAdj s n) (getF s (TIM_TB_SLEWR_VAL n))) n fun b => { b with slewAt := some t }
  | 3 => tbJump s n t (rdPair s (TIM_TB_ADJ_LO n) (TIM_TB_ADJ_HI n) * tbUnit + stepsAt (timeBase s n) t)
  | _ => s

/-- SRC of a time base changed from `old`: the count goes on from where it stands, or follows (R324). -/
def tbSourceChange (s : State) (n t : Nat) (old : Int) : State :=
  showTb (modTb s n fun b => { b with at_ := t, val := old, slew := 0, pend := none }) n t

/-- SNAP (R326). -/
def tbSnap (s : State) : State :=
  let t := nextBoundary s
  let s := [0, 1, 2, 3].foldl (fun s n => wrPair s (TIM_TB_SNAP_LO n) (TIM_TB_SNAP_HI n) (tbNs (tbAt s n t))) s
  wr s TIM_SNAP_STEP (nextStep s)

/-- A whole second lies between the last two edges of a time base at an instant. -/
def secondHere (s : State) (n t : Nat) : Bool :=
  decide ((tbAt s n t - tbLastEdge s n t) / (tbUnit * 1000000000) < tbAt s n t / (tbUnit * 1000000000))

/-- STEP_AT_SECOND: the STEP that waits takes effect at the first edge of a whole second (R325). -/
def stepAtSecond (s : State) (n t : Nat) : State :=
  match (timeBase s n).pend with
  | some d =>
    if secondHere s n t then
      showTb (modTb (tbJump s n t (tbAt s n t + d)) n fun b => { b with pend := none, initial := false }) n t
    else s
  | none => s

def execStepAtSecond (n t : Nat) (s : State) : Host.Outcome State Fault Refusal :=
  answer (decide (n < 4) && inThisStep s t) (stepAtSecond s n (absTick s t))

/-- SLEW_COMPLETE: the remainder has reached 0 (R325). -/
def slewComplete (s : State) (n t : Nat) : State :=
  let s' := showTb s n t
  if flag s' (TIM_TB_STAT_SLEWING n) then s else tbSync s' n t

def execSlewComplete (n t : Nat) (s : State) : Host.Outcome State Fault Refusal :=
  answer (decide (n < 4) && inThisStep s t) (slewComplete s n (absTick s t))

/-! ### TB0 and GNSS time (R327 to R333) -/

/-- The case temperature, signed, as MON_TCASE shows it (R329). -/
def caseTemp (s : State) : Int := getI s MON_TCASE_VAL

/-- The uncertainty of TB0 at an instant, ns, saturating (R330). -/
def tbUnc (s : State) (t : Nat) : Nat :=
  if !flag s (TIM_TB_STAT_HOLDOVER 0) then s.tim.unc
  else
    let d := t - s.tim.hoAt
    min 0xFFFFFFFF (s.tim.unc + s.tim.hoF * d / ticksPerSec
      + getF s TIM_HO_MODEL_AQ * d * d / (2000 * ticksPerSec * ticksPerSec))

/-- A time TB0 has been disciplined passes: minutes of learning (R329). -/
def learn (s : State) (t : Nat) : State :=
  let c := caseTemp s
  let ok := match s.tim.learnT with
    | some c0 => decide (-50 ≤ c - c0 ∧ c - c0 ≤ 50)
    | none => false
  let s := if ok then { s with tim := { s.tim with learned := s.tim.learned + (t - s.tim.steered) } }
    else { s with tim := { s.tim with learned := 0, learnT := some c } }
  let m := min 1023 (s.tim.learned / (60 * ticksPerSec))
  setB (setF s TIM_HO_STAT_LRN m) TIM_HO_STAT_LRN_OK (decide (10 ≤ m))

/-- Return from holdover (R330, R333): `e` is TB0 minus GNSS time, units. -/
def holdoverExit (s : State) (t : Nat) (e : Int) : State :=
  let u := tbUnc s t
  let s := setF s TIM_HO_STAT_T_HO (min 65535 ((t - s.tim.hoAt) / ticksPerSec))
  let s := setB (setB s (TIM_TB_STAT_HOLDOVER 0) false) (TIM_TB_STAT_LIMIT 0) false
  let ns := clampI (-2147483648) 2147483647 (roundDiv e tbUnit.toNat)
  let s := record (setI s TIM_HO_ERR_VAL ns) 0x9007 noInst (leBytes 4 u ++ leBytes 4 (unsigned 32 ns))
  let s := raiseIrq s TIM_IRQ_HO ⟨TIM_IEN, 2, 2⟩ 4
  if -1000000 * tbUnit ≤ e ∧ e ≤ 1000000 * tbUnit then
    tbSlew { s with tim := { s.tim with back := true } } 0 t (-e) (getF s TIM_HO_CFG_SLEW_MAX * 1000)
  else showTb (modTb (tbSync s 0 t) 0 fun b => { b with slew := 0, pend := some (-e) }) 0 t

/-- The slew that ended the last holdover still runs (R333). -/
def slewsBack (s : State) (t : Nat) : Bool :=
  let b := timeBase s 0
  s.tim.back && decide (b.slew - slewPart b (t - b.at_) ≠ 0)

/-- A steering update of TB0 (R329, R333): error `e` in units, new RATE, uncertainty in ns, slew rate in ns/s. DEDUCED (log entry
67) from the example after R337: the slew that ends a holdover runs to its end before ordinary steering slews again. -/
def steer (s : State) (t : Nat) (e rate : Int) (unc slewr : Nat) : State :=
  let s1 := if flag s (TIM_TB_STAT_VALID 0) then
      (if flag s (TIM_TB_STAT_HOLDOVER 0) then holdoverExit s t e
       else
         let s := learn s t
         if (timeBase s 0).pend.isSome || slewsBack s t then s
         else tbSlew { s with tim := { s.tim with back := false } } 0 t (-e) (clampN 1 1000 slewr))
    else if (timeBase s 0).pend.isSome then s
    else showTb (modTb s 0 fun b => { b with pend := some (-e), initial := true }) 0 t
  let s2 := tbRate s1 0 t (clampI (-2147483648) 2147483647 rate)
  setF { s2 with tim := { s2.tim with steered := t, unc := min 0xFFFFFFFF unc } } TIM_HO_UNC_VAL (min 0xFFFFFFFF unc)

/-- HOLDOVER_ENTRY: no steering update for 1 s (R330). -/
def holdoverEntry (s : State) (t : Nat) : State :=
  if flag s (TIM_TB_STAT_VALID 0) && !flag s (TIM_TB_STAT_HOLDOVER 0) && decide (s.tim.steered + ticksPerSec ≤ t) then
    let f := if flag s TIM_HO_STAT_LRN_OK then getF s TIM_HO_MODEL_FU else 500
    let s := { s with tim := { s.tim with hoAt := t, hoF := f } }
    let s := setF (setB s (TIM_TB_STAT_HOLDOVER 0) true) TIM_HO_STAT_T_HO 0
    let s := record (bump s TIM_CNT_HO_CNT) 0x9006 noInst (leBytes 4 s.tim.unc)
    raiseIrq s TIM_IRQ_HO ⟨TIM_IEN, 2, 2⟩ 4
  else s

def execHoldoverEntry (t : Nat) (s : State) : Host.Outcome State Fault Refusal :=
  answer (inThisStep s t) (holdoverEntry s (absTick s t))

/-- HOLDOVER_LIMIT (R332). -/
def holdoverLimit (s : State) (t : Nat) : State :=
  if flag s (TIM_TB_STAT_HOLDOVER 0) && !flag s (TIM_TB_STAT_LIMIT 0)
      && decide (s.tim.hoAt + getF s TIM_HO_CFG_LIMIT * ticksPerSec ≤ t) then
    record (setB s (TIM_TB_STAT_LIMIT 0) true) 0x9008 noInst (leBytes 1 (getF s TIM_HO_CFG_ACTION))
  else s

def execHoldoverLimit (t : Nat) (s : State) : Host.Outcome State Fault Refusal :=
  answer (inThisStep s t) (holdoverLimit s (absTick s t))

/-- LEAP_SECOND: TB0 has reached the second TIM_LEAP_AT.SEC (R327). -/
def leapSecond (s : State) (t : Nat) : State :=
  if flag s TIM_LEAP_NEXT_PEND && decide ((getF s TIM_LEAP_AT_SEC : Int) * 1000000000 * tbUnit ≤ tbAt s 0 t) then
    let s := setF s TIM_LEAP_CUR_OFS (getF s TIM_LEAP_NEXT_OFS)
    raiseIrq (setB s TIM_LEAP_NEXT_PEND false) TIM_IRQ_LEAP ⟨TIM_IEN, 4, 4⟩ 4
  else s

def execLeapSecond (t : Nat) (s : State) : Host.Outcome State Fault Refusal :=
  answer (inThisStep s t) (leapSecond s (absTick s t))

/-- Leap-second data of a navigation message: it replaces a host value (R328). -/
def leapDecoded (s : State) (l : LeapData) : State :=
  let s := setB (setB (setI s TIM_LEAP_CUR_OFS l.cur) TIM_LEAP_CUR_VALID true) TIM_LEAP_CUR_SRC false
  setF (setB (setI s TIM_LEAP_NEXT_OFS l.next) TIM_LEAP_NEXT_PEND l.pend) TIM_LEAP_AT_SEC l.sec

/-! ### Pulse outputs (R334 to R337) -/

/-- The time base of an output. -/
def ppsTb (s : State) (x : Nat) : Nat := if x = 0 then 0 else getF s (TIM_PPS_CFG_TB x)

/-- Its period, units. -/
def ppsPeriod (s : State) (x : Nat) : Int := (if x = 0 then 1000 else (getF s (TIM_PPS_PER_PER x) : Int)) * 1000000 * tbUnit

/-- The instance of PTP that owns a time base has locked, or no instance owns it (R337). -/
def ownerLocked (s : State) (n : Nat) : Bool :=
  if n = 1 ∧ tbSrc s 1 = 1 then s.eth.gpLocked
  else if n = 2 ∧ tbSrc s 2 = 1 then flag s PTP_OC_STAT_LOCKED
  else true

/-- No pulse is produced (R337). -/
def ppsOff (s : State) (x : Nat) : Bool :=
  let n := ppsTb s x
  !flag s (TIM_PPS_CFG_EN x)
    || (decide (n = 0) && (!flag s (TIM_TB_STAT_VALID 0) || (flag s (TIM_TB_STAT_LIMIT 0) && !flag s TIM_HO_CFG_ACTION)))
    || !ownerLocked s n

def showPps (s : State) (x : Nat) : State := setB s (TIM_PPS_STAT_SUPP x) (ppsOff s x)

/-- The step of a time base that takes effect at an instant: its value before and after (R335). A STEP that waits for a second
which falls at this instant counts, whether its own row came before or comes after. -/
def stepHere (s : State) (n t : Nat) : Option (Int × Int) :=
  let r := tbRoot s 3 n
  match beforeStep (timeBase s r.1) t, (timeBase s r.1).pend with
  | some v, _ => some ((v + r.2) % tbSpan, tbAt s n t)
  | none, some d => if secondHere s r.1 t then some (tbAt s n t, (tbAt s n t + d) % tbSpan) else none
  | none, none => none

/-- The nominal instant that an edge reaches, if there is one: the last multiple of the period, plus OFS, at or before `v` and
after `v` less the edge (R334). -/
def nominal (s : State) (x : Nat) (v edge : Int) : Option Int :=
  let p := ppsPeriod s x
  let o := getI s (TIM_PPS_OFS_VAL x) * tbUnit
  let n := (v - o) / p * p + o
  if v - edge < n then some n else none

/-- The pulse message (R336). -/
def ppsMessage (s : State) (x t : Nat) (n v : Int) (step : Bool) : List Byte :=
  let b := ppsTb s x
  let own := decide (b = 0)
  let st := fun (f : Nat → Field) => flag s (f b)
  let fl := bit (st TIM_TB_STAT_VALID) 0 + bit (st TIM_TB_STAT_HOLDOVER) 1 + bit (st TIM_TB_STAT_LIMIT) 2
    + bit (decide ((timeBase s b).slew - slewPart (timeBase s b) (t - (timeBase s b).at_) ≠ 0)) 3 + bit step 4
    + bit (own && flag s TIM_HO_STAT_LRN_OK) 5
  let q := (v - n) * 1000 / tbUnit
  leBytes 4 (ppsOut s x).seq ++ leBytes 1 (x + 2 * b) ++ leBytes 1 fl
    ++ leBytes 2 (if own then getF s TIM_LEAP_CUR_OFS else 0) ++ leBytes 8 (tbNs n) ++ leBytes 4 q.toNat
    ++ leBytes 4 (if own then tbUnc s t else 0)

/-- A pulse leaves (R334 to R336). -/
def ppsPulse (s : State) (x t : Nat) : State :=
  let b := ppsTb s x
  let old := stepHere s b t
  let v := (old.map (·.1)).getD (tbAt s b t)
  match nominal s x v (tbLastEdge s b t) with
  | none => s
  | some n =>
    let early := match (ppsOut s x).notBefore with
      | some m => decide (n < m)
      | none => false
    if ppsOff s x || early then s
    else
      let s := edgeEvent s (9 + x) (t - s.tim.base)
      let msg := ppsMessage s x t n v old.isSome
      let nb := old.map fun p => p.2 + ppsPeriod s x / 2
      let s := modPps s x fun p =>
        { p with seq := (p.seq + 1) % 2 ^ 32, stop := some (t + getF s (TIM_PPS_CFG_WIDTH x) * perUs), notBefore := nb }
      let s := setF s (TIM_PPS_STAT_CNT x) ((getF s (TIM_PPS_STAT_CNT x) + 1) % 65536)
      let s := (List.range 6).foldl (fun s k => wr s (TIM_PPS_MSG x k) (wordAt msg (4 * k))) s
      let s := hostSlots.foldl (fun s h =>
        if attached s h && (getF s (HIF_H_NOTE_MASK h)).testBit x then notify s h ([1#8, 0#8, 0#8, 0#8] ++ msg) else s) s
      raiseIrq s ⟨TIM_IRQ, x, x⟩ ⟨TIM_IEN, x, x⟩ 4

def execPpsPulse (x t : Nat) (s : State) : Host.Outcome State Fault Refusal :=
  answer (decide (x < 2) && inThisStep s t) (ppsPulse s x (absTick s t))

/-- PPS_PULSE_END: WIDTH has elapsed and the pin is inactive (R334, R337). -/
def ppsEnd (s : State) (x t : Nat) : State :=
  match (ppsOut s x).stop with
  | some u => if u ≤ t then modPps s x fun p => { p with stop := none } else s
  | none => s

def execPpsPulseEnd (x t : Nat) (s : State) : Host.Outcome State Fault Refusal :=
  answer (decide (x < 2) && inThisStep s t) (ppsEnd s x (absTick s t))

/-! ### Step boundaries and registers -/

/-- TIM at the boundary that the present count has reached: TIM_BND, holdover and what is shown (R326, R330). -/
def timBoundary (s : State) : State :=
  let t := absTick s (nowTick s)
  let s := holdoverLimit (holdoverEntry s t) t
  let s := wrPair s TIM_BND_LO TIM_BND_HI (tbNs (tbAt s 0 t))
  let s := if flag s (TIM_TB_STAT_HOLDOVER 0) then
      setF (setF s TIM_HO_UNC_VAL (tbUnc s t)) TIM_HO_STAT_T_HO (min 65535 ((t - s.tim.hoAt) / ticksPerSec))
    else s
  let s := [0, 1, 2, 3].foldl (fun s n => showTb s n t) s
  showPps (showPps s 0) 1

/-- A PTP instance owns the time base (R324, R342). -/
def ptpOwns (s : State) (n : Nat) : Bool :=
  (decide (n = 1) && decide (getF s PTP_GP_STAT_ROLE = 1) && decide (getF s PTP_GP_CFG_MODE ≠ 0))
    || (decide (n = 2) && decide (getF s PTP_OC_CFG_MODE = 1) && inRange 2 3 (getF s PTP_OC_STAT_STATE))

/-- SRC 1 is not for a host; SRC 2 names another base that does not follow (R324). -/
def srcValid (s : State) (n src f : Nat) : Bool :=
  decide (src ≠ 1 ∧ src ≠ 3) && !(decide (src = 2) && (decide (f = n) || decide (tbSrc s f = 2)))

/-- Page 0x28: only OWNER and SERVICE write, but for SNAP, TB3 and PPS1 (R350). -/
def timFree (i : Nat) : Bool := decide (i = TIM_CTRL) || inRange 0x2840 0x284F i || inRange 0x2870 0x287F i

/-- The value that a write stores: SRC of TB0 and the fixed fields of PPS0 keep theirs (R324). -/
def timStore (i : Nat) (v : Word) : Word :=
  if i = 0x2810 then bitsSet v 1 0 1
  else if i = 0x2860 then bitsSet v 3 2 0
  else if i = 0x2861 then bitsSet v 9 0 1000
  else v

/-- The rules of a write of `v` to a TIM register that holds `old`. -/
def timCheck (s : State) (i : Nat) (old v : Word) : Verdict :=
  if 0x2810 ≤ i ∧ i < 0x2850 then
    let n := (i - 0x2810) / 16
    let src := tbSrc s n
    let own := decide (n = 0) || ptpOwns s n
    match i % 16 with
    | 0 =>
      let a := bitsOf v 9 8
      let chg := decide (n ≠ 0) && (bitsDiffer old v 1 0 || (decide (bitsOf v 1 0 = 2) && bitsDiffer old v 5 4))
      let newSrc := if n = 0 then 1 else bitsOf v 1 0
      if chg && ptpOwns s n then .wrong
      else if chg && !srcValid s n newSrc (bitsOf v 5 4) then .invalid
      else inState (decide (a = 0) || decide (src = 0)) .ok
    | 4 => inState (!own && decide (src ≠ 2)) .ok
    | 5 => valid (inRange 1 10000 (bitsOf v 13 0))
    | 6 => inState (!ptpOwns s n) .ok
    | 7 => inState (!ptpOwns s n) .ok
    | _ => .ok
  else if i = TIM_LEAP_CUR ∨ i = TIM_LEAP_NEXT ∨ i = TIM_LEAP_AT then inState (!flag s TIM_LEAP_CUR_VALID) .ok
  else if i = TIM_HO_CFG then valid (decide (1 ≤ bitsOf v 15 0) && inRange 1 10 (bitsOf v 27 24))
  else if i = TIM_HO_MODEL then valid (inRange 1 1000 (bitsOf v 15 0))
  else if i = 0x2860 ∨ i = 0x2870 then
    let per := if i = 0x2860 then 1000 else getF s (TIM_PPS_PER_PER 1)
    valid (inRange 1 500000 (bitsOf v 30 12) && decide (bitsOf v 30 12 < per * 1000))
  else if i = 0x2871 then
    let p := bitsOf v 9 0
    let o := getI s (TIM_PPS_OFS_VAL 1)
    valid (inRange 1 1000 p && decide (getF s (TIM_PPS_CFG_WIDTH 1) < p * 1000) && decide (-(p * 500000 : Int) ≤ o ∧ o ≤ p * 500000))
  else if i = 0x2862 ∨ i = 0x2872 then
    let p : Int := if i = 0x2862 then 1000 else getF s (TIM_PPS_PER_PER 1)
    valid (decide (-(p * 500000) ≤ v.toInt ∧ v.toInt ≤ p * 500000))
  else .ok

/-- What a TIM register that held `old` does at the boundary at which it comes into force, by the values of the time bases
`was` before the writes: source changes, then rate, SET, STEP and SLEW (R325). -/
def timEffect (s0 s : State) (i : Nat) (old : Word) : State :=
  let t := nextBoundary s
  if 0x2810 ≤ i ∧ i < 0x2850 then
    let n := (i - 0x2810) / 16
    let was := tbAt s0 n t
    match i % 16 with
    | 0 =>
      let a := getF s (TIM_TB_CTRL_ADJ n)
      let s := setF s (TIM_TB_CTRL_ADJ n) 0
      let s := if bitsDiffer old (rd s i) 1 0 || (decide (tbSrc s n = 2) && bitsDiffer old (rd s i) 5 4)
        then tbSourceChange s n t was else s
      tbAction s n t a
    | 4 =>
      let b := timeBase s0 n
      modTb s n fun x => { x with at_ := t, val := was, slew := x.slew - slewPart b (t - b.at_) }
    | _ => s
  else if i = TIM_CTRL then (if flag s TIM_CTRL_SNAP then tbSnap (setF s TIM_CTRL_SNAP 0) else s)
  else if i = TIM_LEAP_CUR ∨ i = TIM_LEAP_NEXT ∨ i = TIM_LEAP_AT then setB s TIM_LEAP_CUR_SRC true
  else if i = 0x2870 ∧ bitsDiffer old (rd s i) 3 2 then showPps (modPps s 1 fun p => { p with notBefore := none }) 1
  else if i = 0x2860 ∨ i = 0x2870 then showPps (showPps s 0) 1
  else s

/-- A reset of TIM sets TB1 to TB3, the outputs and the registers; TB0 and what disciplines it stay (R14, R39, R450). -/
def timReset (s : State) : State :=
  let keep := fun (i : Nat) => inRange 0x2810 0x281F i || inRange 0x2850 0x285F i
  let s := resetRegs s fun i => decide (i / 256 = 0x28) && !keep i
  let t := absTick s (nowTick s)
  let s := { s with tim := { s.tim with tb := sparseDrop (fun n => decide (n ≠ 0)) s.tim.tb, pps := [] } }
  [1, 2, 3].foldl (fun s n => modTb s n fun b => { b with at_ := t }) s

end Sys2Proof.Machine
end

