-- ==== Sys2Proof/Machine/Gns.lean ====
section
/-!
DEFINITION. Sys2Proof/Machine/Gns.lean: the GNSS receiver (chapter 11): slots, acquisition, measurement epochs, navigation
units, solutions, corrections and antenna bias.
-/
namespace Sys2Proof.Machine

def gnsSlots : List Nat := List.range 192

def gnsAt (s : State) (i : Nat) : GnsSlot := sparseGet (fun _ => GnsSlot.reset) s.gns.slots i

def modGns (s : State) (i : Nat) (f : GnsSlot → GnsSlot) : State :=
  { s with gns := { s.gns with slots := sparseMod (fun _ => GnsSlot.reset) s.gns.slots i f } }

/-! ### Slot states (R303) -/

def gsIdle : Nat := 0
def gsSearch : Nat := 1
def gsAided : Nat := 2
def gsPullin : Nat := 3
def gsTrack : Nat := 4
def gsLost : Nat := 5

/-- A signal and satellite of R302. -/
def signalOk (sig svid : Nat) : Bool :=
  match sig % 4 with
  | 0 => inRange 1 32 svid && decide (sig < 8)
  | 1 => inRange 1 36 svid && decide (sig < 8)
  | 2 => inRange 1 63 svid && decide (sig < 8)
  | _ => false

/-- The constellation and the band of the port are enabled (R302, R304). -/
def signalOn (s : State) (sig port : Nat) : Bool :=
  (getF s GNS_CTRL_CONST).testBit (sig % 4) && (getF s GNS_CTRL_BANDS).testBit (2 * port + sig / 4)

/-- The slot is assigned to the signal. -/
def tracks (g : GnsSlot) (sig svid port : Nat) : Bool :=
  decide (g.state ≠ gsIdle) && decide (g.sig = sig ∧ g.svid = svid ∧ g.port = port)

/-- A slot other than `i` is assigned to the signal. -/
def otherSlot (s : State) (i sig svid port : Nat) : Option Nat :=
  gnsSlots.find? fun j => decide (j ≠ i) && tracks (gnsAt s j) sig svid port

/-- A slot in TRACK on the signal. -/
def trackedAs (s : State) (sig svid port : Nat) : Bool :=
  gnsSlots.any fun j => tracks (gnsAt s j) sig svid port && decide ((gnsAt s j).state = gsTrack)

/-- A signal starts in PULLIN: the satellite's L1 signal of its port, or its counterpart of port 0, is in TRACK (R303). -/
def startsDirect (s : State) (sig svid port : Nat) : Bool :=
  (decide (4 ≤ sig) && trackedAs s (sig % 4) svid port) || (decide (port = 1) && trackedAs s sig svid 0)

/-- A slot passes to PULLIN: tracking starts (R309, R310, R311). -/
def toPullin (g : GnsSlot) : GnsSlot :=
  { g with state := gsPullin, confirm := false, dwells := 0, passed := true, half := decide (g.sig = 0), carr := 0 }

/-- A slot as it stands after release to IDLE. -/
def released (g : GnsSlot) : GnsSlot := { GnsSlot.reset with cfg := g.cfg, cfgNew := g.cfgNew }

/-- The slot is marked PRIV (R306). -/
def privOf (g : GnsSlot) : Bool := g.privFw || g.cfg.getLsbD 1

/-! ### Assignment (R303) -/

/-- The order in which free slots are filled: port 0 first, then its L1 band, then the highest elevation. -/
def candLe (a b : GnsCand) : Bool :=
  let k := fun (c : GnsCand) => 2 * c.port + c.sig / 4
  decide (k a < k b) || (decide (k a = k b) && decide (b.elev ≤ a.elev))

/-- A signal that may be given a slot: enabled, above the mask and in no slot. -/
def mayAssign (s : State) (c : GnsCand) : Bool :=
  signalOk c.sig c.svid && decide (c.port < 2) && signalOn s c.sig c.port
    && decide (getF s GNS_MASK_ELEV * 1000 < c.elev) && gnsSlots.all fun j => !tracks (gnsAt s j) c.sig c.svid c.port

/-- The firmware gives a signal an IDLE slot. DESIGN CHOICE (log entry 66): the one with the lowest number. -/
def assignOne (s : State) (c : GnsCand) : State :=
  if mayAssign s c then
    match gnsSlots.find? fun j => decide ((gnsAt s j).state = gsIdle) with
    | some j =>
      let a := { released (gnsAt s j) with state := gsSearch, sig := c.sig, svid := c.svid, port := c.port }
      let d := startsDirect s c.sig c.svid c.port
      modGns s j fun _ => if d then toPullin a else a
    | none => s
  else s

/-- SLOT_ASSIGN: the firmware, while it runs, assigns IDLE slots to the signals it predicts (R298, R303). -/
def assignSlots (s : State) : State := if s.sys.phase = .up then (sortBy candLe s.gns.sky).foldl assignOne s else s

/-- A slot that has no signal to track yet. -/
def waitsSignal (g : GnsSlot) : Bool := decide (g.state = gsSearch ∨ g.state = gsAided ∨ g.state = gsLost)

/-- A slot is started in PULLIN from the slot that tracks the satellite's other signal. DEDUCED (log entry 66) from the example
under R307: lost slots too. -/
def startDirect (s : State) (i : Nat) : State :=
  let g := gnsAt s i
  if waitsSignal g && startsDirect s g.sig g.svid g.port then modGns s i toPullin else s

/-! ### Acquisition (R305, R306) -/

/-- Doppler bins, 1/(2·`tcoh`) ms apart, that cover ± `half` Hz around the prediction. DESIGN CHOICE (log entry 66): a range that
is no whole number of bins is covered by one more on each side. -/
def searchBins (half tcoh : Nat) : Nat := 2 * ((half * tcoh + 499) / 500) + 1

/-- Dwells of the window of an aided search: bins, by groups of 64 code cells half a chip apart (R306). -/
def aidedDwells (s : State) : Nat :=
  searchBins (10 * getF s GNS_AID_FREQW) (getF s GNS_AID_TCOH_A) * ((4 * getF s GNS_AID_CODEW + 1 + 63) / 64)

/-- The next dwell of a serial search. DESIGN CHOICE (log entry 66): after the last bin the search begins again. -/
def nextBin (s : State) (g : GnsSlot) : Nat :=
  if g.dwells + 1 < searchBins (100 * getF s GNS_ACQ_DOPW) (getF s GNS_ACQ_TCOH) then g.dwells + 1 else 0

/-- A dwell of the serial-search engine ends (R305): it detects, the repeated dwell confirms, or the search moves on. -/
def acqDwell (s : State) (i : Nat) (detected : Bool) : State :=
  let g := gnsAt s i
  if g.state = gsSearch then
    if detected && g.confirm then bump (modGns s i toPullin) GNS_CNT_ACQ_CNT
    else if detected then modGns s i fun g => { g with confirm := true }
    else modGns s i fun _ => { g with confirm := false, dwells := nextBin s g }
  else s

def execAcqDwell (i : Nat) (detected : Bool) (s : State) : Host.Outcome State Fault Refusal :=
  answer (decide (i < 192)) (acqDwell s i detected)

/-- The conditions of R306 for aided reacquisition; `eph`: the satellite's ephemeris is valid. -/
def aidedOk (s : State) (i t : Nat) (eph : Bool) : Bool :=
  let hold := getF s GNS_AID_HOLD * ticksPerSec
  decide (t ≤ (gnsAt s i).lostAt + hold) && flag s (TIM_TB_STAT_VALID 0) && eph
    && (flag s KIN_STAT_POSE_VALID || match s.gns.solAt with
      | some u => decide (t ≤ u + hold)
      | none => false)

/-- A dwell of an aided engine without a detection: the window is searched on, and exhausted the slot passes to SEARCH. -/
def aidedMiss (s : State) (i : Nat) : State :=
  let g := gnsAt s i
  if g.dwells + 1 < aidedDwells s then modGns s i fun _ => { g with state := gsAided, confirm := false, dwells := g.dwells + 1 }
  else modGns s i fun _ => { g with state := gsSearch, confirm := false, dwells := 0 }

/-- A dwell of an aided engine ends (R306). -/
def aidedSearch (s : State) (i t : Nat) (eph detected : Bool) : State :=
  let g := gnsAt s i
  if g.state = gsAided ∨ (g.state = gsLost ∧ aidedOk s i t eph) then
    if detected && g.confirm then
      bump (modGns s i fun g => { toPullin g with aided := true }) GNS_CNT_REACQ_CNT
    else if detected then modGns s i fun g => { g with state := gsAided, confirm := true }
    else aidedMiss s i
  else s

def execAidedSearch (i t : Nat) (eph detected : Bool) (s : State) : Host.Outcome State Fault Refusal :=
  answer (decide (i < 192) && inThisStep s t) (aidedSearch s i (absTick s t) eph detected)

/-- PH_LOCK (R309). -/
def phLock (s : State) (pli : Nat) : Bool := decide (getF s GNS_LOCK_PLI_TH ≤ pli)

/-- PULLIN_TO_TRACK (R309): `l` holds CODE_LOCK and PLI of every 1 ms up to now, of which both locks have held for the last 20. -/
def pullinToTrack (s : State) (i : Nat) (l : List (Bool × Nat)) : State :=
  let r := l.reverse.take 20
  if (gnsAt s i).state = gsPullin ∧ r.length = 20 ∧ (r.all fun p => p.1 && phLock s p.2) then
    modGns s i fun g => { g with state := gsTrack }
  else s

def execPullinToTrack (i : Nat) (l : List (Bool × Nat)) (s : State) : Host.Outcome State Fault Refusal :=
  answer (decide (i < 192)) (pullinToTrack s i l)

/-- R309: C/N0 has stayed below LOSS_CN0 for LOSS_T, or CODE_LOCK has been false for 200 ms; `l` holds C/N0 in 0.01 dB-Hz and
CODE_LOCK of every 10 ms up to now. -/
def lossDue (s : State) (l : List (Nat × Bool)) : Bool :=
  let a := l.reverse.take (getF s GNS_LOCK_LOSS_T)
  let b := l.reverse.take 20
  (decide (a.length = getF s GNS_LOCK_LOSS_T) && a.all fun p => decide (p.1 < 100 * getF s GNS_LOCK_LOSS_CN0))
    || (decide (b.length = 20) && b.all fun p => !p.2)

/-- TRACK_LOSS (R309). -/
def trackLoss (s : State) (i t : Nat) (l : List (Nat × Bool)) : State :=
  if (gnsAt s i).state = gsTrack ∧ lossDue s l then
    bump (modGns s i fun g => { g with state := gsLost, lostAt := t, passed := true, confirm := false, dwells := 0 }) GNS_CNT_LOSS_CNT
  else s

def execTrackLoss (i t : Nat) (l : List (Nat × Bool)) (s : State) : Host.Outcome State Fault Refusal :=
  answer (decide (i < 192) && inThisStep s t) (trackLoss s i (absTick s t) l)

/-- LOST_HOLD_EXPIRY: the slot is released, and the firmware assigns it again (R303). DEDUCED (log entry 66): a pinned slot, which
is never reassigned, searches (R304). -/
def lostExpiry (s : State) (i t : Nat) : State :=
  let g := gnsAt s i
  if g.state = gsLost ∧ g.lostAt + getF s GNS_AID_HOLD * ticksPerSec ≤ t then
    assignSlots (modGns s i fun g => if g.pin then { g with state := gsSearch } else released g)
  else s

def execLostHoldExpiry (i t : Nat) (s : State) : Host.Outcome State Fault Refusal :=
  answer (decide (i < 192) && inThisStep s t) (lostExpiry s i (absTick s t))

/-! ### Measurement epochs (R304, R310 to R314, R322) -/

/-- A written GNS_SLOT_CFG comes into force (R304). DEDUCED (log entry 66): the signal is tracked in another slot when that slot is
assigned to it, whatever its state. -/
def applyPin (s : State) (i : Nat) : State :=
  let g := gnsAt s i
  if !g.cfgNew then s
  else
    let s := modGns s i fun g => { g with cfgNew := false }
    if g.cfg.getLsbD 0 then
      let sig := bitsOf g.cfg 7 4
      let svid := bitsOf g.cfg 13 8
      let port := bitsOf g.cfg 2 2
      match otherSlot s i sig svid port with
      | some j =>
        let o := gnsAt s j
        modGns (modGns s j released) i fun g => { o with pin := true, cfg := g.cfg, cfgNew := false }
      | none =>
        if tracks g sig svid port then modGns s i fun g => { g with pin := true }
        else modGns s i fun g => { released g with state := gsSearch, pin := true, sig := sig, svid := svid, port := port }
    else modGns s i fun g => { g with pin := false }

/-- Slots of a constellation or band that is off are released, pinned ones too (R322). -/
def dropDisabled (s : State) (i : Nat) : State :=
  let g := gnsAt s i
  if g.state ≠ gsIdle ∧ !signalOn s g.sig g.port then modGns s i fun _ => GnsSlot.reset else s

/-- Byte 3 of a record (R314). -/
def slotFlags (s : State) (m : SlotMeas) (g : GnsSlot) (slip : Bool) : Nat :=
  bit m.codeLock 0 + bit (phLock s m.pli) 1 + bit g.half 2 + bit slip 3 + bit m.towV 4
    + bit (privOf g) 5 + bit g.aided 6

/-- The record of a slot (R314). -/
def slotRecord (i : Nat) (m : SlotMeas) (g : GnsSlot) : List Byte :=
  leBytes 1 i ++ leBytes 1 (g.sig + 16 * g.port) ++ leBytes 1 g.svid ++ leBytes 1 g.flags ++ leBytes 4 m.codeph
    ++ leBytes 4 m.txms ++ leBytes 6 (unsigned 48 g.carr) ++ leBytes 4 (unsigned 32 m.dopp) ++ leBytes 2 m.cn0
    ++ leBytes 2 (min 65535 (g.age / 2)) ++ leBytes 1 g.slipc ++ leBytes 1 m.pli ++ leBytes 2 m.cstd ++ leBytes 2 0

/-- PH_LOCK was false in an integration since the last epoch, or the phase from the PLL differs from the Doppler integral by more
than 0.25 cycle over an interval (R311). -/
def phaseBroken (s : State) (m : SlotMeas) : Bool :=
  !phLock s m.pli || (m.plis.any fun p => !phLock s p) || m.diffs.any fun d => decide (16384 < d.natAbs)

/-- Latch a slot in PULLIN or TRACK (R310, R311): the slot and its record. DESIGN CHOICE (log entry 66): the half-cycle correction
is added. -/
def latchSlot (s : State) (m : SlotMeas) : State × List (List Byte) :=
  let g := gnsAt s m.slot
  if g.state = gsPullin ∨ g.state = gsTrack then
    let fix := g.half && decide (m.polarity ≠ 0)
    let inv := fix && decide (m.polarity = 2)
    let slip := phaseBroken s m || g.passed || decide (g.state = gsPullin) || inv
    let g := { g with
      half := g.half && !fix
      carr := g.carr + m.dcarr + (if inv then 32768 else 0)
      age := if slip then 0 else g.age + 1
      slipc := if slip then (g.slipc + 1) % 256 else g.slipc
      cn0 := m.cn0
      pli := m.pli
      dopp := m.dopp
      passed := false }
    let g := { g with flags := slotFlags s m g slip }
    let s := modGns s m.slot fun _ => { g with aided := false }
    (if slip then bump s GNS_CNT_SLIP_CNT else s, [slotRecord m.slot m g])
  else (s, [])

/-- Latch every slot that has a measurement, in ascending slot order. -/
def latchSlots (s : State) : List SlotMeas → State × List (List Byte)
  | [] => (s, [])
  | m :: r =>
    let a := latchSlot s m
    let b := latchSlots a.1 r
    (b.1, a.2 ++ b.2)

/-- GNS_SLOT_SUM of a slot. -/
def sumWord (g : GnsSlot) : Word :=
  BitVec.ofNat 32 (g.state + g.port * 8 + g.sig * 16 + g.svid * 256 + min 255 (g.cn0 / 100) * 65536 + g.flags * 16777216)

/-- The front end of a port (R299, R300): OPEN ends when bias current flows. -/
def latchPort (s : State) (q : Nat) (r : PortRf) : State :=
  let s := wr s (GNS_ANT_RF q) (BitVec.ofNat 32 (r.agc1 % 256 + r.agc5 % 256 * 256 + r.nf1 % 256 * 65536 + r.nf5 % 256 * 16777216))
  let s := setF s (GNS_ANT_STAT_IBIAS q) (min 255 r.ibias)
  let s := if 3 ≤ r.ibias then setB s (GNS_ANT_STAT_OPEN q) false else s
  if r.atMin then setB s GNS_FLT_AGC_LIM true else s

/-- ANT_FLT. -/
def showAnt (s : State) : State :=
  setB s GNS_STAT_ANT_FLT ([0, 1].any fun q => flag s (GNS_ANT_STAT_OPEN q) || flag s (GNS_ANT_STAT_SHORT q))

/-- A 50 ms instant of TB0 lies at the last edge before an instant (R312). -/
def epochHere (s : State) (t : Nat) : Bool :=
  decide ((tbAt s 0 t - tbLastEdge s 0 t) / (tbUnit * 50000000) < tbAt s 0 t / (tbUnit * 50000000))

/-- GNS_CTRL.RST: the registers, slots and stored data take their reset values, and TB0 is no longer valid (R298, R329). -/
def gnsReset (s : State) : State :=
  let s := { resetRegs s (fun i => inRange 0x24 0x27 (i / 256)) with gns := GnsState.reset }
  let s := setB (setB (setB s (TIM_TB_STAT_VALID 0) false) (TIM_TB_STAT_HOLDOVER 0) false) (TIM_TB_STAT_LIMIT 0) false
  showPps (showPps (modTb s 0 fun b => { b with pend := none, initial := false }) 0) 1

/-- What a GNS register does when it comes into force. -/
def gnsEffect (s : State) (i : Nat) : State :=
  if i = GNS_CTRL ∧ flag s GNS_CTRL_RST then gnsReset s
  else if i = GNS_ANT_CFG 0 ∨ i = GNS_ANT_CFG 1 then
    let q := (i - GNS_ANT_CFG 0) / 4
    if flag s (GNS_ANT_CFG_BIAS_EN q) then s
    else
      let s := { s with gns := { s.gns with shortAt := sparseSet (fun _ => none) s.gns.shortAt q none } }
      showAnt (setB (setB s (GNS_ANT_STAT_OPEN q) false) (GNS_ANT_STAT_SHORT q) false)
  else s

/-- Registers written since the last epoch come into force, in the order of their indices (R322). -/
def takeWritten (s : State) : State :=
  let l := s.gns.waiting
  let s := { s with gns := { s.gns with waiting := [] } }
  l.foldl (fun s e => gnsEffect (commitReg s e.1 e.2) e.1) s

/-- What an epoch shows of a slot without a record. DESIGN CHOICE (log entry 66): its last measured values, and of the flags PRIV. -/
def showSlot (g : GnsSlot) : GnsSlot :=
  if g.state = gsPullin ∨ g.state = gsTrack then g else { g with flags := bit (privOf g) 5 }

/-- The slots are shown as the epoch leaves them: GNS_SLOT_SUM, NTRK and what the window latches (R322). -/
def showSlots (s : State) : State :=
  let s := gnsSlots.foldl (fun s i => wr s (GNS_SLOT_SUM i) (sumWord (showSlot (gnsAt s i)))) s
  let n := (gnsSlots.filter fun i => decide ((gnsAt s i).state = gsTrack)).length
  setF { s with gns := { s.gns with shown := s.gns.slots } } GNS_STAT_NTRK n

/-- The firmware hands on what it predicts (R303). -/
def takeSky (s : State) (sky : List GnsCand) : State :=
  if s.sys.phase = .up then { s with gns := { s.gns with sky := sky } } else s

/-- A measurement epoch at an instant (R312); none while PLL_G is unlocked (R443). -/
def measEpoch (s : State) (t : Nat) (l : List SlotMeas) (sky : List GnsCand) (r0 r1 : PortRf) (lock : Bool) : State :=
  if !epochHere s t || !flag s CLK_STAT_G_LOCK then s
  else
    let s := gnsSlots.foldl startDirect (takeSky s sky)
    let s := gnsSlots.foldl dropDisabled (gnsSlots.foldl applyPin (postDeferred (takeWritten s) 1))
    let a := latchSlots s l
    let s := a.1
    let tep := (tbAt s 0 t / (tbUnit * 50000000) * 50000000 % 2 ^ 64).toNat
    let last := s.gns.epochs.head?
    let e : GnsEpoch :=
      { seq := s.gns.seq, tep := tep, step := stepCnt s, tb0v := flag s (TIM_TB_STAT_VALID 0), clkStep := s.gns.clkStep,
        clkb := (last.map (·.clkb)).getD 0, clkd := (last.map (·.clkd)).getD 0, recs := a.2 }
    let s := { s with gns := { s.gns with
      epochs := (e :: s.gns.epochs).take 4
      seq := if s.gns.seq = 0xFFFFFFFE then 0 else s.gns.seq + 1
      clkStep := false } }
    let s := assignSlots (setB (showSlots s) GNS_STAT_RF_LOCK lock)
    raiseIrq (showAnt (latchPort (latchPort s 0 r0) 1 r1)) GNS_IRQ_MEAS ⟨GNS_IEN, 0, 0⟩ 3

/-- Measurements name slots of the part, in ascending order. -/
def measOrdered : List SlotMeas → Bool
  | [] => true
  | [m] => decide (m.slot < 192)
  | m :: n :: r => decide (m.slot < n.slot) && measOrdered (n :: r)

def execMeasEpoch (t : Nat) (l : List SlotMeas) (sky : List GnsCand) (r0 r1 : PortRf) (lock : Bool) (s : State) :
    Host.Outcome State Fault Refusal :=
  answer (inThisStep s t && measOrdered l) (measEpoch s (absTick s t) l sky r0 r1 lock)

/-- The epoch that a request names (R313). -/
def epochOf (s : State) (n : Nat) : Option GnsEpoch :=
  if n = 0xFFFFFFFF then s.gns.epochs.head? else s.gns.epochs.find? fun e => decide (e.seq = n)

/-- The response of GNS_MEAS_READ (R313). The header's times of an epoch that is not held are free values. -/
def measRead (s : State) (n first count : Nat) : State × List Byte :=
  match epochOf s n with
  | some e =>
    (s, leBytes 4 e.seq ++ leBytes 8 e.tep ++ leBytes 4 e.step.toNat ++ leBytes 2 e.recs.length
      ++ leBytes 1 (bit e.tb0v 0 + bit e.clkStep 1) ++ leBytes 1 0 ++ leBytes 4 (unsigned 32 e.clkb)
      ++ leBytes 4 (unsigned 32 e.clkd) ++ leBytes 4 0 ++ ((e.recs.drop first).take count).flatten)
  | none =>
    let f := fresh s
    let free := fun (a b : Nat) => (List.range b).map fun k => Config.freeByte f.1 (a + k)
    (f.2, leBytes 4 n ++ free 0 12 ++ leBytes 2 0 ++ leBytes 1 4 ++ leBytes 1 0 ++ free 12 8 ++ leBytes 4 0)

/-! ### Navigation units (R315, R316, R328) -/

/-- Bits of a unit (R315): for B1C `unit` 0 is subframe 2 and 1 subframe 3. -/
def unitBits (sig unit : Nat) : Nat :=
  match sig with
  | 0 => 300
  | 1 => 240
  | 2 => if unit = 0 then 600 else 264
  | 4 => 300
  | 5 => 244
  | _ => 288

/-- Bytes of bits, the first one in bit 7 of the first byte, padded to 64 bytes (R316). -/
def packBits : Nat → List Bool → List Byte
  | 0, _ => []
  | n + 1, b =>
    BitVec.ofNat 8 ((List.range 8).foldl (fun a k => 2 * a + bit (b.getD k false) 0) 0) :: packBits n (b.drop 8)

/-- Store one unit. -/
def storeUnit (s : State) (i unit status : Nat) (ok : Bool) (edge : Nat) (b : List Bool) : State :=
  let g := gnsAt s i
  let bytes := leBytes 4 s.gns.navSeq ++ leBytes 1 i ++ leBytes 1 (g.sig + 16 * g.port) ++ leBytes 1 g.svid
    ++ leBytes 1 (bit ok 0 + unit * 2) ++ leBytes 2 status ++ leBytes 2 b.length ++ leBytes 4 (edge / 100 % 2 ^ 32)
    ++ packBits 64 b
  let l := s.gns.nav ++ [{ seq := s.gns.navSeq, bytes := bytes }]
  { s with gns := { s.gns with nav := l.drop (l.length - 512), navSeq := (s.gns.navSeq + 1) % 2 ^ 32 } }

/-- A unit is complete (R315, R316): the parity or CRC result, the TB0 time of its first bit edge in ns and its bits; what it
completes of the leap-second data. STATUS is stated for LNAV only; of another signal it is a free value. -/
def navUnit (s : State) (i unit status : Nat) (ok : Bool) (edge : Nat) (b : List Bool) (leap : Option LeapData) : State :=
  let g := gnsAt s i
  let lnav := decide (g.sig = 0)
  let ok := if lnav then decide (status % 1024 = 1023) else ok
  let f := fresh s
  let s := if lnav then s else f.2
  let st := if lnav then status % 1024 else (Config.freeWord f.1).toNat % 65536
  let s := if g.sig = 2 ∧ unit = 0 then
      (List.range 8).foldl (fun s k => storeUnit s i 0 st ok edge ((b.drop (75 * k)).take 75)) s
    else storeUnit s i unit st ok edge b
  let s := match leap with
    | some l => if ok ∧ s.sys.phase = .up then leapDecoded s l else s
    | none => s
  raiseIrq s GNS_IRQ_NAV ⟨GNS_IEN, 4, 4⟩ 3

def execNavUnit (i unit status : Nat) (ok : Bool) (edge : Nat) (b : List Bool) (leap : Option LeapData) (s : State) :
    Host.Outcome State Fault Refusal :=
  let g := gnsAt s i
  answer (decide (i < 192 ∧ (unit = 0 ∨ (unit = 1 ∧ g.sig = 2)) ∧ b.length = unitBits g.sig unit))
    (if g.state = gsPullin ∨ g.state = gsTrack then navUnit s i unit status ok edge b leap else s)

/-- The response of GNS_NAV_READ (R316): sequence numbers are compared modulo 2^32. -/
def navRead (s : State) (next count : Nat) : List Byte :=
  let oldest := match s.gns.nav with
    | [] => s.gns.navSeq
    | u :: _ => u.seq
  let ahead := (next + 2 ^ 32 - oldest) % 2 ^ 32
  let skip := if ahead < 2 ^ 31 then ahead else 0
  let l := (s.gns.nav.drop skip).take count
  leBytes 4 oldest ++ leBytes 1 l.length ++ (l.map (·.bytes)).flatten

/-! ### Solutions (R317 to R319) -/

/-- The measured baseline is within TOL of the distance of the antennas (R319). -/
def baselineOk (s : State) (len : Nat) : Bool :=
  let d := fun (k : Nat) => getI s (KIN_ANT_VAL 1 k) - getI s (KIN_ANT_VAL 0 k)
  let d2 := d 0 * d 0 + d 1 * d 1 + d 2 * d 2
  let tol : Int := 4 * getF s GNS_HDG_CFG_TOL
  let l : Int := 4 * len
  let lo := max 0 (l - tol)
  decide (lo * lo ≤ d2 ∧ d2 ≤ (l + tol) * (l + tol))

/-- Corrections exist and are no older than AGE_MAX (R317, R318). -/
def corrFresh (s : State) (t : Nat) : Bool :=
  match s.gns.corrAt with
  | some u => decide (t ≤ u + getF s GNS_RTK_AGE_MAX * ticksPerSec)
  | none => false

/-- Show the correction age (R317). -/
def showAge (s : State) (t : Nat) : State :=
  setF s GNS_RTK_STAT_AGE (match s.gns.corrAt with
    | some u => min 65535 ((t - u) / 20000000)
    | none => 65535)

/-- The solution type changes (R318). -/
def setSolType (s : State) (ty : Nat) : State :=
  let chg := decide (getF s GNS_STAT_TYPE ≠ ty)
  let s := setF (setF s GNS_STAT_TYPE ty) GNS_SOL_INFO_TYPE ty
  if chg then raiseIrq s GNS_IRQ_TYPE ⟨GNS_IEN, 2, 2⟩ 3 else s

/-- Write a signed 40-bit angle to a register pair, sign-extended to 64 bits. -/
def wrSigned (s : State) (lo hi : Nat) (v : Int) : State := wrPair s lo hi (unsigned 64 v)

/-- Slots of a solution that count: they track the signal, with C/N0 of at least the mask (R317). -/
def usable (s : State) (x : SolIn) : List Nat :=
  (x.used.filter fun i => decide (i < 192)).filter fun i =>
    let g := gnsAt s i
    decide (g.state = gsPullin ∨ g.state = gsTrack) && decide (100 * getF s GNS_MASK_CN0 ≤ g.cn0)

/-- The satellites of slots: constellation and SVID. -/
def satellites (s : State) (l : List Nat) : List (Nat × Nat) := (l.map fun i => ((gnsAt s i).sig % 4, (gnsAt s i).svid)).dedup

/-- Satellites used in the solution (R317). -/
def satsUsed (s : State) (x : SolIn) : Nat := (satellites s (usable s x)).length

/-- Satellites used whose phase is continuous: SLIP is clear (R318). -/
def satsHeld (s : State) (x : SolIn) : Nat :=
  (satellites s ((usable s x).filter fun i => !(gnsAt s i).flags.testBit 3)).length

/-- The type of the solution (R317, R318): single takes 4 satellites and one more for each further constellation; types 2 to 4
take corrections in force; fixed takes the ratio and 5 satellites with phase continuity, else it falls back to float. -/
def solType (s : State) (t : Nat) (x : SolIn) : Nat :=
  let n := ((satellites s (usable s x)).map (·.1)).dedup.length
  if x.type = 0 ∨ satsUsed s x < 3 + max 1 n then 0
  else if x.type = 1 ∨ !flag s GNS_CTRL_RTK_EN ∨ !corrFresh s t then 1
  else if x.type = 4 ∧ (x.ratio < getF s GNS_RTK_RATIO ∨ satsHeld s x < 5) then 3
  else x.type

/-- The firmware computes the solution of the last epoch (R317 to R319) and steers TB0 (R329). -/
def solution (s : State) (t : Nat) (x : SolIn) : State :=
  match s.gns.epochs with
  | [] => s
  | e :: rest =>
    if s.sys.phase ≠ .up then s
    else
      let ty := solType s t x
      let nsv := satsUsed s x
      let port1 := gnsSlots.any fun i => decide ((gnsAt s i).state = gsTrack ∧ (gnsAt s i).port = 1)
      let hv := flag s GNS_CTRL_HDG_EN && port1 && x.fixed && baselineOk s x.len
      let s := { s with gns := { s.gns with epochs := { e with clkb := x.err, clkd := x.clkd } :: rest } }
      let s := wrPair (wr s GNS_SOL_STEP e.step) GNS_SOL_T_LO GNS_SOL_T_HI e.tep
      let s := wrSigned (wrSigned s GNS_SOL_LAT_LO GNS_SOL_LAT_HI x.lat) GNS_SOL_LON_LO GNS_SOL_LON_HI x.lon
      let s := setI s GNS_SOL_HGT_VAL x.hgt
      let s := setI (setI (setI s (GNS_SOL_VEL_VAL 0) x.vE) (GNS_SOL_VEL_VAL 1) x.vN) (GNS_SOL_VEL_VAL 2) x.vU
      let s := setF (setF s GNS_SOL_SIG_H (min 65535 x.sigH)) GNS_SOL_SIG_V (min 65535 x.sigV)
      let s := setF (setF (setF s GNS_SOL_INFO_NSV nsv) GNS_SOL_INFO_PDOP (min 255 x.pdop)) GNS_SOL_INFO_LAT x.latency
      let s := setF (setI (setF s GNS_HDG_VAL x.hdg) GNS_HDG_PITCH_VAL x.pitch) GNS_HDG_INFO_SIG (min 65535 x.hdgSig)
      let s := setB (setF s GNS_HDG_INFO_LEN (min 65535 x.len)) GNS_STAT_HDG_V hv
      let s := setF (setB s GNS_STAT_TIMEV (flag s GNS_STAT_TIMEV || decide (1 ≤ ty))) GNS_STAT_NUSED nsv
      let s := gnsSlots.foldl (fun s i => modGns s i fun g => { g with privFw := x.priv.contains i }) s
      let k : KinSol :=
        { step := e.step, e := x.e, n := x.n, vE := x.vE, vN := x.vN, type := ty, sigma := x.sigH, hdgV := hv, hdg := x.hdg,
          hdgSig := x.hdgSig }
      let s := { s with kin := { s.kin with sol := some k } }
      let s := raiseIrq (setSolType (showAge s t) ty) GNS_IRQ_SOL ⟨GNS_IEN, 1, 1⟩ 3
      if 1 ≤ ty then
        steer { s with gns := { s.gns with solAt := some t } } t (x.err * (tbUnit / 100)) x.rate x.unc x.slewr
      else s

def execSolution (t : Nat) (x : SolIn) (s : State) : Host.Outcome State Fault Refusal :=
  answer (inThisStep s t && decide (x.type ≤ 4 ∧ x.latency ≤ 35 ∧ x.priv.length ≤ 24)) (solution s (absTick s t) x)

/-! ### Corrections (R318, R320, R321) -/

/-- One bit of CRC-24Q. -/
def crc24Bit (c : Nat) : Nat := if 2 ^ 23 ≤ c then (2 * c % 2 ^ 24) ^^^ 0x864CFB else 2 * c

/-- One byte of CRC-24Q. -/
def crc24Byte (c : Nat) (b : Byte) : Nat := (List.range 8).foldl (fun c _ => crc24Bit c) (c ^^^ (b.toNat * 65536))

/-- CRC-24Q. The polynomial is that of RTCM 10403.3, which the spec names (R320). -/
def crc24q (l : List Byte) : Nat := l.foldl crc24Byte 0

/-- `n` bits of a message from bit `o`, most significant first. -/
def rtcmBits (m : List Byte) (o n : Nat) : Nat :=
  (List.range n).foldl (fun a k => 2 * a + bit ((m.getD ((o + k) / 8) 0).getLsbD (7 - (o + k) % 8)) 0) 0

/-- Message types of R4. -/
def rtcmKnown (ty : Nat) : Bool :=
  [1005, 1006, 1033, 1074, 1075, 1077, 1094, 1095, 1097, 1124, 1125, 1127].contains ty

/-- The message is 1005 or 1006. -/
def rtcmBase (ty : Nat) : Bool := decide (ty = 1005 ∨ ty = 1006)

/-- The base of a message 1005 or 1006: ID and position, 0.1 mm. -/
def basePosition (m : List Byte) : Nat × Int × Int × Int :=
  (rtcmBits m 12 12, signed 38 (rtcmBits m 34 38), signed 38 (rtcmBits m 74 38), signed 38 (rtcmBits m 114 38))

/-- The base has changed: another ID, or a position more than 0.1 m away (R318). -/
def baseMoved (a b : Nat × Int × Int × Int) : Bool :=
  let d := fun (x y : Int) => (x - y) * (x - y)
  decide (a.1 ≠ b.1) || decide (1000000 < d a.2.1 b.2.1 + d a.2.2.1 b.2.2.1 + d a.2.2.2 b.2.2.2)

/-- A message of the source is used (R318, R320). -/
def useMessage (s : State) (t ty : Nat) (m : List Byte) : State :=
  let s := bump s GNS_CNT_RTCM_CNT
  if ty = 1033 then { s with gns := { s.gns with rcv1033 := m } }
  else if rtcmBase ty then
    let b := basePosition m
    let chg := match s.gns.base with
      | some a => baseMoved a b
      | none => false
    let s := setF { s with gns := { s.gns with base := some b } } GNS_RTK_STAT_STID b.1
    if chg then record (setB s GNS_FLT_BASE_CHG true) 0x9003 noInst (leBytes 2 b.1) else s
  else showAge { s with gns := { s.gns with corrAt := some t, lost := false } } t

/-- A valid frame from slot `h` (R320, R321). -/
def rtcmFrame (s : State) (h t : Nat) (m : List Byte) : State :=
  let ty := rtcmBits m 0 12
  if !rtcmKnown ty then bump s GNS_CNT_RTCM_DISC_CNT
  else
    let free := !flag s GNS_STAT_SRCV
    if !free && decide (getF s GNS_STAT_SRC ≠ h) then bump s GNS_CNT_RTCM_FRGN_CNT
    else
      let take := free && decide (ty ≠ 1033)
      let s1 := if take then
          let chg := match s.gns.lastSrc with
            | some o => decide (o ≠ h)
            | none => false
          let s := setB (setF { s with gns := { s.gns with lastSrc := some h } } GNS_STAT_SRC h) GNS_STAT_SRCV true
          if chg then record s 0x9004 noInst (leBytes 2 h) else s
        else s
      useMessage { s1 with gns := { s1.gns with srcAt := if free && !take then s1.gns.srcAt else t } } t ty m

/-- Read frames from the front of a byte string; what is left is an incomplete frame (R320). `n` bounds the steps. -/
def rtcmParse : Nat → State → Nat → Nat → List Byte → State × List Byte
  | 0, s, _, _, b => (s, b)
  | n + 1, s, h, t, b =>
    match b with
    | [] => (s, [])
    | x :: r =>
      if x ≠ 0xD3#8 then rtcmParse n s h t r
      else if b.length < 3 then (s, b)
      else
        let len := (b.getD 1 0).toNat % 4 * 256 + (b.getD 2 0).toNat
        if b.length < len + 6 then (s, b)
        else if crc24q (b.take (len + 6)) = 0 then
          rtcmParse n (rtcmFrame s h t ((b.drop 3).take len)) h t (b.drop (len + 6))
        else rtcmParse n (bump s GNS_CNT_RTCM_CRC_CNT) h t r

/-- Bytes of RTCM_WRITE from slot `h` (R320). -/
def rtcmFeed (s : State) (h : Nat) (b : List Byte) : State :=
  let all := sparseGet (fun _ => []) s.gns.rtcm h ++ b
  let r := rtcmParse (all.length + 1) s h (nextBoundary s) all
  { r.1 with gns := { r.1.gns with rtcm := sparseSet (fun _ => []) r.1.gns.rtcm h r.2 } }

/-- CORRECTION_AGE_EXCEEDED (R318). -/
def ageExceeded (s : State) (t : Nat) : State :=
  if s.gns.corrAt.isSome && !corrFresh s t && !s.gns.lost then
    let s := setB { s with gns := { s.gns with lost := true } } GNS_FLT_RTCM_LOST true
    let s := record s 0x9002 noInst (leBytes 2 (getF s GNS_RTK_STAT_STID))
    showAge (if 2 ≤ getF s GNS_STAT_TYPE then setSolType s 1 else s) t
  else s

def execCorrectionAgeExceeded (t : Nat) (s : State) : Host.Outcome State Fault Refusal :=
  answer (inThisStep s t) (ageExceeded s (absTick s t))

/-- SOURCE_HOLD_EXPIRY (R321). -/
def sourceExpiry (s : State) (t : Nat) : State :=
  if flag s GNS_STAT_SRCV && decide (s.gns.srcAt + getF s GNS_RTK_SRC_HOLD * ticksPerSec ≤ t) then
    setB s GNS_STAT_SRCV false
  else s

def execSourceHoldExpiry (t : Nat) (s : State) : Host.Outcome State Fault Refusal :=
  answer (inThisStep s t) (sourceExpiry s (absTick s t))

/-! ### Antenna bias (R300) -/

/-- A condition of a port's bias is set: 0 OPEN, 1 SHORT. -/
def antFault (s : State) (q k : Nat) : State :=
  let f : Field := ⟨GNS_FLT, 2 * q + k, 2 * q + k⟩
  let s := setB s ⟨GNS_ANT_STAT q, 8 + k, 8 + k⟩ true
  let s := if flag s f then s
    else raiseIrq (record (setB s f true) 0x9001 q (leBytes 1 k)) GNS_IRQ_ANT ⟨GNS_IEN, 3, 3⟩ 3
  showAnt s

def execAntOpen (q : Nat) (s : State) : Host.Outcome State Fault Refusal :=
  answer (decide (q < 2)) (if flag s (GNS_ANT_CFG_BIAS_EN q) then antFault s q 0 else s)

def biasShort (s : State) (q : Nat) : Option Nat := sparseGet (fun _ => none) s.gns.shortAt q

/-- ANT_SHORT: SHORT is set and the switch opens. -/
def antShort (s : State) (q t : Nat) : State :=
  if flag s (GNS_ANT_CFG_BIAS_EN q) && (biasShort s q).isNone then
    antFault { s with gns := { s.gns with shortAt := sparseSet (fun _ => none) s.gns.shortAt q (some t) } } q 1
  else s

def execAntShort (q t : Nat) (s : State) : Host.Outcome State Fault Refusal :=
  answer (decide (q < 2) && inThisStep s t) (antShort s q (absTick s t))

/-- BIAS_RECLOSE: the switch closes again after 1 s. -/
def biasReclose (s : State) (q t : Nat) : State :=
  match biasShort s q with
  | some u =>
    if u + ticksPerSec ≤ t then
      showAnt (setB { s with gns := { s.gns with shortAt := sparseSet (fun _ => none) s.gns.shortAt q none } }
        (GNS_ANT_STAT_SHORT q) false)
    else s
  | none => s

def execBiasReclose (q t : Nat) (s : State) : Host.Outcome State Fault Refusal :=
  answer (decide (q < 2) && inThisStep s t) (biasReclose s q (absTick s t))

/-! ### Registers (R298, R304, R322) -/

/-- The values of the GNSS slot window, from the last completed epoch (R322). -/
def gnsWindow (s : State) (i : Nat) : List (Nat × Word) :=
  let g := showSlot (sparseGet (fun _ => GnsSlot.reset) s.gns.shown i)
  let ep := match s.gns.epochs with
    | [] => 0
    | e :: _ => e.seq
  [(GNS_SLOT_EP, BitVec.ofNat 32 ep), (GNS_SLOT_ID, BitVec.ofNat 32 (g.state + g.port * 8 + g.sig * 16 + g.svid * 256)),
   (GNS_SLOT_TRK, BitVec.ofNat 32 (g.cn0 % 65536 + g.pli * 65536 + g.flags * 16777216)),
   (GNS_SLOT_DOPP, BitVec.ofNat 32 (unsigned 32 g.dopp)),
   (GNS_SLOT_LOCK, BitVec.ofNat 32 (min 65535 (g.age / 2) + g.slipc * 65536))]

/-- A write of GNS_SLOT_CFG for a slot is valid (R304). -/
def pinValid (s : State) (i : Nat) (v : Word) : Bool :=
  let sig := bitsOf v 7 4
  let svid := bitsOf v 13 8
  let port := bitsOf v 2 2
  let other := gnsSlots.any fun j =>
    let c := (gnsAt s j).cfg
    decide (j ≠ i) && c.getLsbD 0 && decide (bitsOf c 7 4 = sig ∧ bitsOf c 13 8 = svid ∧ bitsOf c 2 2 = port)
  !v.getLsbD 0 || (signalOk sig svid && signalOn s sig port && !other)

/-- GNS_SLOT_CFG of a slot is written: it comes into force at the next epoch (R304). -/
def slotPin (s : State) (i : Nat) (v : Word) : State := modGns s i fun g => { g with cfg := v, cfgNew := true }

/-- The rules of a write to a GNS register. -/
def gnsCheck (i : Nat) (v : Word) : Verdict :=
  if i = GNS_ANT_CFG 0 ∨ i = GNS_ANT_CFG 1 then valid (inRange 20 150 (bitsOf v 15 8))
  else if i = GNS_ACQ then
    valid (inRange 10 100 (bitsOf v 7 0) && inRange 1 10 (bitsOf v 11 8) && decide (1 ≤ bitsOf v 15 12) && inRange 24 80 (bitsOf v 23 16))
  else if i = GNS_AID then
    valid (inRange 1 32 (bitsOf v 5 0) && inRange 1 100 (bitsOf v 15 8) && inRange 1 10 (bitsOf v 19 16)
      && decide (1 ≤ bitsOf v 23 20) && decide (1 ≤ bitsOf v 31 24))
  else if i = GNS_TRK then
    valid (inRange 2 50 (bitsOf v 7 0) && inRange 1 50 (bitsOf v 15 8) && inRange 5 200 (bitsOf v 23 16) && decide (bitsOf v 25 24 ≠ 3))
  else if i = GNS_LOCK then valid (inRange 15 40 (bitsOf v 15 8) && decide (1 ≤ bitsOf v 23 16))
  else if i = GNS_MASK then valid (decide (bitsOf v 7 0 ≤ 45) && inRange 15 45 (bitsOf v 15 8))
  else if i = GNS_RTK then valid (inRange 1 60 (bitsOf v 7 0) && inRange 1 60 (bitsOf v 15 8) && inRange 15 100 (bitsOf v 23 16))
  else if i = GNS_HDG_CFG then valid (inRange 1 500 (bitsOf v 15 0))
  else if i = GNS_SLOT_SEL then valid (decide (bitsOf v 7 0 < 192))
  else .ok

end Sys2Proof.Machine
end

