-- ==== Sys2Proof/Machine/Eth.lean ====
section
/-!
DEFINITION. Sys2Proof/Machine/Eth.lean: the switch, the transparent clock, the PTP instances and the bypass relay
(chapter 12).
-/
namespace Sys2Proof.Machine

/-! ### States (R347, R348) -/

def byBypass : Nat := 0
def byInserting : Nat := 1
def byInserted : Nat := 2
def byReturning : Nat := 3
def byFault : Nat := 4

def relayState (s : State) : Nat := getF s ETH_BYP_STAT_STATE

/-- 5 ns edges in 10 ms. -/
def per10ms : Nat := 2000000

def linkUp (s : State) (p : Nat) : Bool := flag s (ETH_PT_STAT_LINK p)

/-- A port gains or loses its link at an instant (R338). -/
def setLink (s : State) (p t : Nat) (up : Bool) : State :=
  if linkUp s p = up then s
  else
    let s := setB s (ETH_PT_STAT_LINK p) up
    let s := { s with eth := { s.eth with downAt := sparseSet (fun _ => none) s.eth.downAt p (if up then none else some t) } }
    if up then bump s (ETH_PT_STAT_LINKUPS p) else s

def setCoil (s : State) (t : Nat) (on : Bool) : State :=
  if flag s ETH_BYP_STAT_COIL = on then s
  else { setB s ETH_BYP_STAT_COIL on with eth := { s.eth with coilAt := t } }

/-! ### Insertion and return (R347, R348) -/

/-- The conditions of INSERT (R347). -/
def insertOk (s : State) : Bool := flag s ETH_CTRL_EN && decide (relayState s = byBypass) && linkUp s 0 && linkUp s 1

/-- Insertion starts at an instant: 0 by a host, 1 by itself. -/
def insertStart (s : State) (t cause : Nat) : State :=
  let s := setLink (setLink s 0 t false) 1 t false
  let s := setF (setCoil s t true) ETH_BYP_STAT_STATE byInserting
  { s with eth := { s.eth with cause := cause } }

/-- The relay is in bypass: the return ends (R348). -/
def returnEnd (s : State) : State :=
  let s := bump (setF s ETH_BYP_STAT_STATE byBypass) ETH_BYP_CNT_RET
  record s 0xA002 noInst (leBytes 1 s.eth.cause)

/-- The relay returns to bypass: the causes are those of R348. -/
def returnStart (s : State) (t cause : Nat) : State :=
  let s := setF (setCoil s t false) ETH_BYP_STAT_STATE byReturning
  let s := { s with eth := { s.eth with cause := cause } }
  if flag s ETH_BYP_STAT_SENSE then s else returnEnd s

/-- BYPASS written by a host (R348). -/
def bypassWrite (s : State) (t : Nat) : State :=
  if relayState s = byInserting ∨ relayState s = byInserted then returnStart s t 0 else s

/-- AUTO_INSERT at a step boundary (R347). In test mode AUTO_INS is treated as 0 (R463). -/
def autoInsert (s : State) (t : Nat) : State :=
  if flag s ETH_BYP_CTRL_AUTO_INS && decide (s.boot.nextMode ≠ 2) && insertOk s then insertStart s t 1 else s

def execAutoInsert (s : State) : Host.Outcome State Fault Refusal := .next (autoInsert s (absTick s (nowTick s)))

/-- BYP_SENSE takes a level (R346 to R348). -/
def senseChange (s : State) (lvl : Bool) (t : Nat) : State :=
  if flag s ETH_BYP_STAT_SENSE = lvl then s
  else
    let s := setF (setB s ETH_BYP_STAT_SENSE lvl) ETH_BYP_STAT_OPER_T (min 65535 ((t - s.eth.coilAt) / per10us))
    let s := { s with eth := { s.eth with senseAt := t } }
    if relayState s = byReturning ∧ lvl = false then returnEnd s else s

def execBypSenseChange (lvl : Bool) (t : Nat) (s : State) : Host.Outcome State Fault Refusal :=
  answer (inThisStep s t) (senseChange s lvl (absTick s t))

/-- INSERTION_COMPLETE (R347). -/
def insertionDone (s : State) : State :=
  if decide (relayState s = byInserting) && flag s ETH_BYP_STAT_SENSE && linkUp s 0 && linkUp s 1 then
    record (bump (setF s ETH_BYP_STAT_STATE byInserted) ETH_BYP_CNT_INS) 0xA001 noInst (leBytes 1 s.eth.cause)
  else s

def execInsertionComplete (s : State) : Host.Outcome State Fault Refusal := .next (insertionDone s)

/-- LINK_TIMEOUT (R347). -/
def linkTimeout (s : State) (t : Nat) : State :=
  if decide (relayState s = byInserting) && flag s ETH_BYP_STAT_SENSE && !(linkUp s 0 && linkUp s 1)
      && decide (s.eth.senseAt + getF s ETH_BYP_CTRL_LINK_T * per10ms ≤ t) then returnStart s t 2
  else s

def execLinkTimeout (t : Nat) (s : State) : Host.Outcome State Fault Refusal :=
  answer (inThisStep s t) (linkTimeout s (absTick s t))

/-- RELAY_FAULT: coil and sense have disagreed for 20 ms (R347, R348). -/
def relayFault (s : State) (t : Nat) : State :=
  if decide (flag s ETH_BYP_STAT_COIL ≠ flag s ETH_BYP_STAT_SENSE) && decide (relayState s ≠ byFault)
      && decide (max s.eth.coilAt s.eth.senseAt + 2 * per10ms ≤ t) then
    let v := bit (flag s ETH_BYP_STAT_COIL) 0 + bit (flag s ETH_BYP_STAT_SENSE) 1
    record (setB (setF (setCoil s t false) ETH_BYP_STAT_STATE byFault) ETH_BYP_STAT_FLT true) 0xA003 noInst (leBytes 1 v)
  else s

def execRelayFault (t : Nat) (s : State) : Host.Outcome State Fault Refusal :=
  answer (inThisStep s t) (relayFault s (absTick s t))

/-- LINK_LOSS, judged at a step boundary (R348). -/
def linkLoss (s : State) (t : Nat) : State :=
  let gone := [0, 1].any fun p => match sparseGet (fun _ => none) s.eth.downAt p with
    | some u => decide (u + getF s ETH_BYP_CTRL_LOSS_T * per10ms ≤ t)
    | none => false
  if flag s ETH_BYP_CTRL_AUTO_BYP && decide (relayState s = byInserted) && gone then returnStart s t 1 else s

def execLinkLoss (s : State) : Host.Outcome State Fault Refusal := .next (linkLoss s (absTick s (nowTick s)))

/-- A write of 1 to FLT (R348). DESIGN CHOICE (log entry 68): while coil or sense does not show bypass, FLT stays set. -/
def relayFaultClear (s : State) : State :=
  if flag s ETH_BYP_STAT_FLT && !flag s ETH_BYP_STAT_COIL && !flag s ETH_BYP_STAT_SENSE then
    let s := setB s ETH_BYP_STAT_FLT false
    if relayState s = byFault then setF s ETH_BYP_STAT_STATE byBypass else s
  else s

/-- PHY_LINK_CHANGE (R338): a port that is off has no link. `sqi`: signal quality of the link, 0 without one. -/
def phyLinkChange (s : State) (p : Nat) (up : Bool) (sqi t : Nat) : State :=
  if up && !flag s ETH_CTRL_EN then s else setF (setLink s p t up) (ETH_PT_STAT_SQI p) (if up then sqi else 0)

def execPhyLinkChange (p : Nat) (up : Bool) (sqi t : Nat) (s : State) : Host.Outcome State Fault Refusal :=
  answer (decide (p < 2 ∧ sqi < 8) && inThisStep s t) (phyLinkChange s p up sqi (absTick s t))

/-- ETH at a step boundary. -/
def ethBoundary (s : State) : State :=
  let t := absTick s (nowTick s)
  autoInsert (linkLoss (relayFault (linkTimeout s t) t) t) t

/-! ### PTP instances (R342 to R345) -/

/-- TB1 or TB2 takes its source from an instance: 0 HOST, 1 SERVO, 2 FOLLOW TB0 with ADJ 0. DEDUCED (log entry 68) from R342: an
instance without a reference does not own its time base, which the host then adjusts. -/
def ptpSource (s : State) (n src t : Nat) : State :=
  if tbSrc s n = src ∧ (src ≠ 2 ∨ (getF s (TIM_TB_CTRL_FOLLOW n) = 0 ∧ tbAdj s n = 0)) then s
  else
    let was := tbAt s n t
    let s := setF s (TIM_TB_CTRL_SRC n) src
    let s := if src = 2 then wrPair (setF s (TIM_TB_CTRL_FOLLOW n) 0) (TIM_TB_ADJ_LO n) (TIM_TB_ADJ_HI n) 0 else s
    tbSourceChange s n t was

/-- The gPTP instance takes a role (R343): 0 disabled, 1 slave, 2 grandmaster, 3 listening. -/
def gpRole (s : State) (r t : Nat) : State :=
  let s := setF s PTP_GP_STAT_ROLE r
  ptpSource s 1 (if r = 1 then 1 else if r = 2 then 2 else 0) t

/-- The ordinary clock takes a state (R344). -/
def ocState (s : State) (x t : Nat) : State :=
  let s := setF s PTP_OC_STAT_STATE x
  ptpSource s 2 (if x = 2 ∨ x = 3 then 1 else if x = 4 then 2 else 0) t

/-- PTP_GP_CFG comes into force. PRESUMED (log entry 68): an instance that may be grandmaster is one until it hears a better
master (R343). -/
def gpConfig (s : State) (t : Nat) : State :=
  let m := getF s PTP_GP_CFG_MODE
  if m = 0 then gpRole { s with eth := { s.eth with gpLocked := false } } 0 t
  else if getF s PTP_GP_STAT_ROLE = 1 then s
  else gpRole s (if flag s PTP_GP_CFG_GM_CAP then 2 else 3) t

/-- PTP_OC_CFG comes into force (R344). -/
def ocConfig (s : State) (t : Nat) : State :=
  match getF s PTP_OC_CFG_MODE with
  | 0 => ocState (setB s PTP_OC_STAT_LOCKED false) 0 t
  | 1 => if inRange 1 3 (getF s PTP_OC_STAT_STATE) then s else ocState (setB s PTP_OC_STAT_LOCKED false) 1 t
  | _ => if getF s PTP_OC_STAT_STATE = 4 then s else ocState (setB s PTP_OC_STAT_LOCKED false) 4 t

/-- The servo of a slave sets the rate of its time base, and steps it where the instance says so (R324). -/
def ptpSteer (s : State) (n : Nat) (u : PtpUpdate) (t : Nat) : State :=
  let s := match u.step with
    | some d => tbJump s n t (tbAt s n t + d * tbUnit)
    | none => s
  tbRate s n t (clampI (-2147483648) 2147483647 u.rate)

/-- What an instance concludes from a message that line port `p` received (R342 to R344). -/
def ptpUpdate (s : State) (p : Nat) (u : PtpUpdate) (t : Nat) : State :=
  if s.sys.phase ≠ .up then s
  else if u.inst = 0 then
    if getF s PTP_GP_CFG_MODE = 0 then s
    else
      let r := if u.role = 2 ∧ !flag s PTP_GP_CFG_GM_CAP then 3 else u.role
      let s := gpRole { s with eth := { s.eth with gpLocked := s.eth.gpLocked || (decide (r = 1) && u.locked) } } r t
      let s := setF (setI s PTP_GP_OFFS_VAL u.offs) PTP_GP_STAT_ASCAP (u.asCap % 4)
      let s := setF s (if p = 0 then PTP_GP_PDLY_P0 else PTP_GP_PDLY_P1) (min 65535 u.delay)
      if r = 1 then ptpSteer s 1 u t else s
  else
    if getF s PTP_OC_CFG_MODE ≠ 1 then s
    else
      let lk := u.locked || flag s PTP_OC_STAT_LOCKED
      let s := ocState s (if u.role = 1 then (if u.locked then 3 else 2) else 1) t
      let s := setF (setI (setB s PTP_OC_STAT_LOCKED lk) PTP_OC_OFFS_VAL u.offs) PTP_OC_MPD_VAL (u.delay % 2 ^ 32)
      if u.role = 1 then ptpSteer s 2 u t else s

/-- PTP_MASTER_LOSS (R342): the time base keeps its rate. -/
def masterLoss (s : State) (i t : Nat) : State :=
  if s.sys.phase ≠ .up then s
  else if i = 0 then (if getF s PTP_GP_STAT_ROLE = 1 then gpRole s 3 t else s)
  else if inRange 2 3 (getF s PTP_OC_STAT_STATE) then ocState s 1 t else s

def execPtpMasterLoss (i t : Nat) (s : State) : Host.Outcome State Fault Refusal :=
  answer (decide (i < 2) && inThisStep s t) (masterLoss s i (absTick s t))

/-- 5 ns edges in the interval that LOGSYNC of an instance gives (R343, R344). -/
def syncTicks (s : State) (i : Nat) : Nat :=
  let l := signed 8 (if i = 0 then getF s PTP_GP_CFG_LOGSYNC else getF s PTP_OC_CFG_LOGSYNC)
  ticksPerSec * 2 ^ (l + 7).toNat / 128

/-- The interval has elapsed since the last Sync of an instance. -/
def syncDue (s : State) (i t : Nat) : Bool :=
  match sparseGet (fun _ => none) s.eth.syncAt i with
  | some u => decide (u + syncTicks s i ≤ t)
  | none => true

/-- SYNC_INTERVAL: an instance in master role sends Sync on its line ports (R343, R344, R346). -/
def syncInterval (s : State) (i t : Nat) : State :=
  let master := if i = 0 then decide (getF s PTP_GP_STAT_ROLE = 2) else decide (getF s PTP_OC_STAT_STATE = 4)
  let ports := [0, 1].filter fun p =>
    if i = 0 then decide (getF s PTP_GP_CFG_MODE = 2) || decide (getF s PTP_GP_CFG_PORT = p)
    else (getF s PTP_OC_CFG_PORTS).testBit p
  if decide (s.sys.phase = .up) && master && decide (relayState s = byInserted) && syncDue s i t then
    let s := { s with eth := { s.eth with syncAt := sparseSet (fun _ => none) s.eth.syncAt i (some t) } }
    ports.foldl (fun s p => if linkUp s p then bump s (ETH_PT_TX_CNT p) else s) s
  else s

def execSyncInterval (i t : Nat) (s : State) : Host.Outcome State Fault Refusal :=
  answer (decide (i < 2) && inThisStep s t) (syncInterval s i (absTick s t))

/-! ### The switch (R339 to R341) -/

/-- A number of `n` bytes at an offset, most significant first. -/
def beAt (b : List Byte) (o n : Nat) : Nat := leNat ((b.drop o).take n).reverse

/-- ETH_MAC (R338). -/
def ownMac (s : State) : Nat := getF s ETH_MAC_HI_VAL * 2 ^ 32 + getF s ETH_MAC_LO_VAL

/-- Group address: bit 0 of the first byte. -/
def isGroup (mac : Nat) : Bool := (mac / 2 ^ 40).testBit 0

def gptpMac : Nat := 0x0180C200000E

/-- Learn a source address (R339). DESIGN CHOICE (log entry 68): with 1,024 learned, no further one is. -/
def learnAddr (s : State) (mac p t : Nat) : State :=
  let l := s.eth.table.filter fun a => decide (a.mac ≠ mac)
  if isGroup mac ∨ 1024 ≤ l.length then s
  else
    let l := { mac := mac, port := p, seen := t } :: l
    setF { s with eth := { s.eth with table := l } } ETH_SW_STAT_ENTRIES l.length

/-- ADDRESS_AGEING (R339). -/
def ageAddr (s : State) (mac t : Nat) : State :=
  let l := s.eth.table.filter fun a => decide (a.mac ≠ mac) || decide (t < a.seen + getF s ETH_SW_CFG_AGE * ticksPerSec)
  setF { s with eth := { s.eth with table := l } } ETH_SW_STAT_ENTRIES l.length

def execAddressAgeing (mac t : Nat) (s : State) : Host.Outcome State Fault Refusal :=
  answer (inThisStep s t) (ageAddr s mac (absTick s t))

/-- Offset of the UDP header of an IPv4 frame, and its destination port. -/
def udpHeader (b : List Byte) : Option (Nat × Nat) :=
  if beAt b 12 2 = 0x0800 ∧ beAt b 23 1 = 17 then
    let u := 14 + beAt b 14 1 % 16 * 4
    some (u, beAt b (u + 2) 2)
  else none

/-- Offset of the PTP header of a frame, with the offset of its UDP checksum where it is carried in UDP (R341). -/
def ptpHeader (b : List Byte) : Option (Nat × Option Nat) :=
  if beAt b 12 2 = 0x88F7 then some (14, none)
  else match udpHeader b with
    | some (u, d) => if d = 319 then some (u + 8, some (u + 6)) else none
    | none => none

/-- A PTP frame: the offset of its header, and that it is carried in UDP. PRESUMED (log entry 68): general messages go to UDP port
320, as IEEE 1588 has it. -/
def ptpFrame (b : List Byte) : Option (Nat × Bool) :=
  if beAt b 12 2 = 0x88F7 then some (14, false)
  else match udpHeader b with
    | some (u, d) => if d = 319 ∨ d = 320 then some (u + 8, true) else none
    | none => none

/-- A PTP frame that line port `p` received is one of the instance's: its port, its transport and its domain (R343, R344). The
place of domainNumber is PRESUMED (log entry 68). -/
def ptpTakes (s : State) (inst p : Nat) (b : List Byte) : Bool :=
  match ptpFrame b with
  | none => false
  | some (o, udp) =>
    let sdo := beAt b o 1 / 16
    if inst = 0 then
      let m := getF s PTP_GP_CFG_MODE
      decide (sdo = 1) && !udp && (decide (m = 2) || (decide (m = 1) && decide (getF s PTP_GP_CFG_PORT = p)))
    else
      decide (sdo = 0) && decide (udp = flag s PTP_OC_CFG_TRANSP) && decide (beAt b (o + 4) 1 = getF s PTP_OC_CFG_DOMAIN)
        && (getF s PTP_OC_CFG_PORTS).testBit p

/-- The frame is one that the transparent clock corrects (R341). -/
def tcApplies (s : State) (b : List Byte) : Option (Nat × Option Nat) :=
  match ptpHeader b with
  | some (o, c) =>
    let sdo := beAt b o 1 / 16
    let on := flag s PTP_TC_CFG_EN && (if c.isNone then flag s PTP_TC_CFG_L2 else flag s PTP_TC_CFG_UDP4)
    if on && decide (beAt b o 1 % 16 ≤ 3) && decide (beAt b (o + 1) 1 % 16 = 2)
      && (decide (sdo = 0) || (decide (sdo = 1) && decide (getF s PTP_GP_CFG_MODE = 0)))
    then some (o, c) else none
  | none => none

/-- One's complement sum of 16-bit words, folded. -/
def onesSum (l : List Nat) : Nat :=
  let x := l.sum
  let x := x % 65536 + x / 65536
  x % 65536 + x / 65536

/-- The UDP checksum after 4 words have changed; 0 stays 0 (R341). -/
def newChecksum (old : Nat) (was now : List Nat) : Nat :=
  if old = 0 then 0
  else
    let x := 65535 - onesSum ((65535 - old) :: (was.map (65535 - ·) ++ now))
    if x = 0 then 65535 else x

/-- Residence time of a frame between the line ports, ns (R340, R341). -/
def residence (s : State) (f : EthFrame) (out : Nat) : Nat :=
  (f.tx - f.rx) * 5 + getF s (ETH_PT_LAT_EGR out) + getF s (ETH_PT_LAT_ING f.port)

/-- Add the residence to the correctionField (R341). -/
def correctFrame (s : State) (f : EthFrame) (out : Nat) : State × List Byte :=
  match tcApplies s f.bytes with
  | none => (s, f.bytes)
  | some (o, c) =>
    let r := residence s f out
    let v := (beAt f.bytes (o + 8) 8 + r * 65536) % 2 ^ 64
    let words := fun (b : List Byte) => [beAt b (o + 8) 2, beAt b (o + 10) 2, beAt b (o + 12) 2, beAt b (o + 14) 2]
    let put := fun (b : List Byte) (o : Nat) (x : List Byte) => b.take o ++ x ++ b.drop (o + x.length)
    let b := put f.bytes (o + 8) (leBytes 8 v).reverse
    let b := match c with
      | some k => put b k (leBytes 2 (newChecksum (beAt b k 2) (words f.bytes) (words b))).reverse
      | none => b
    let s := bump s PTP_TC_CNT_CNT
    (setF s PTP_TC_MAXRES_VAL (max (getF s PTP_TC_MAXRES_VAL) (min 0xFFFFFFFF r)), b)

/-- Send a frame on the other line port, or drop it where the queue is full (R339). -/
def forwardFrame (s : State) (f : EthFrame) : State :=
  let q := 1 - f.port
  if f.full then bump s (ETH_PT_DROP_CNT q)
  else
    let c := correctFrame s f q
    let s := bump c.1 (ETH_PT_TX_CNT q)
    { s with eth := { s.eth with out := sparseSet (fun _ => []) s.eth.out q c.2 } }

/-- An address resolution request for ETH_IP_ADDR (R338). The layout of such frames is PRESUMED (log entry 68). -/
def arpRequest (s : State) (b : List Byte) : Bool :=
  decide (beAt b 12 2 = 0x0806 ∧ beAt b 20 2 = 1 ∧ beAt b 38 4 = getF s ETH_IP_ADDR_VAL)

/-- The answer to an address resolution request, of 60 bytes (R338). -/
def arpReply (s : State) (b : List Byte) : List Byte :=
  let mac := (leBytes 6 (ownMac s)).reverse
  (b.drop 6).take 6 ++ mac ++ [0x08#8, 0x06#8] ++ (b.drop 14).take 6 ++ [0x00#8, 0x02#8] ++ mac
    ++ (leBytes 4 (getF s ETH_IP_ADDR_VAL)).reverse ++ (b.drop 22).take 10 ++ List.replicate 18 0

/-- The device's own MAC sends a frame on a line port (R338). -/
def sendOwn (s : State) (p : Nat) (b : List Byte) : State :=
  bump { s with eth := { s.eth with out := sparseSet (fun _ => []) s.eth.out p b } } (ETH_PT_TX_CNT p)

/-- Hand a frame to the internal port: address resolution is answered, and a PTP instance may use it (R338, R342). -/
def internalFrame (s : State) (f : EthFrame) (t : Nat) : State :=
  let s := { s with eth := { s.eth with out := sparseSet (fun _ => []) s.eth.out 2 f.bytes } }
  let s := if arpRequest s f.bytes then sendOwn s f.port (arpReply s f.bytes) else s
  match f.ptp with
  | some u => if ptpTakes s u.inst f.port f.bytes then ptpUpdate s f.port u t else s
  | none => s

/-- A broadcast address resolution request that names ETH_IP_ADDR (R339). -/
def arpForUs (s : State) (b : List Byte) : Bool :=
  decide (beAt b 0 6 = 0xFFFFFFFFFFFF ∧ beAt b 12 2 = 0x0806 ∧ beAt b 38 4 = getF s ETH_IP_ADDR_VAL)

/-- Forwarding of an accepted frame (R339, R343, R346). -/
def switchFrame (s : State) (f : EthFrame) (t : Nat) : State :=
  let dst := beAt f.bytes 0 6
  let s := learnAddr s (beAt f.bytes 6 6) f.port t
  if dst = ownMac s ∨ arpForUs s f.bytes then internalFrame s f t
  else if dst = gptpMac then
    match getF s PTP_GP_CFG_MODE with
    | 0 => forwardFrame s f
    | 1 => if getF s PTP_GP_CFG_PORT = f.port then internalFrame s f t else s
    | _ => internalFrame s f t
  else if isGroup dst then
    let s := forwardFrame s f
    if (ptpFrame f.bytes).isSome ∧ getF s PTP_OC_CFG_MODE ≠ 0 then internalFrame s f t else s
  else match s.eth.table.find? fun a => decide (a.mac = dst) with
    | some a => if a.port = f.port then s else forwardFrame s f
    | none => forwardFrame s f

/-- ETH_FRAME_RX (R339): the length counts the FCS. DESIGN CHOICE (log entry 68): frames below 64 bytes are dropped uncounted. -/
def frameRx (s : State) (f : EthFrame) : State :=
  if !flag s ETH_CTRL_EN then s
  else
    let len := f.bytes.length + 4
    if !f.fcsOk ∨ 1536 < len then bump s (ETH_PT_ERR_CNT f.port)
    else if len < 64 then s
    else
      let s := bump s (ETH_PT_RX_CNT f.port)
      if relayState s = byInserted then switchFrame s f (absTick s f.rx) else s

def execEthFrameRx (f : EthFrame) (s : State) : Host.Outcome State Fault Refusal :=
  answer (decide (f.port < 2 ∧ f.rx ≤ f.tx) && inThisStep s f.rx) (frameRx s f)

/-! ### Registers (R347, R350) -/

/-- A logSyncInterval of −7 to +4. -/
def logSyncOk (v : Nat) : Bool := decide (v ≤ 4 ∨ 249 ≤ v)

/-- The rules of a write of `v` to an ETH or PTP register that holds `old`. -/
def ethCheck (s : State) (i : Nat) (v : Word) : Verdict :=
  let byp := decide (relayState s = byBypass)
  if inRange ETH_MAC_LO ETH_UDP i || decide (i = ETH_PT_CFG 0) || decide (i = ETH_PT_CFG 1) then inState byp .ok
  else if i = ETH_SW_CFG then valid (decide (10 ≤ bitsOf v 15 0))
  else if i = ETH_BYP_CTRL then
    if bitsOf v 1 0 = 3 ∨ bitsOf v 15 8 = 0 ∨ bitsOf v 23 16 = 0 then .invalid
    else inState (decide (bitsOf v 0 0 = 0) || insertOk s) .ok
  else if i = PTP_GP_CFG then valid (decide (bitsOf v 1 0 ≠ 3) && logSyncOk (bitsOf v 23 16))
  else if i = PTP_OC_CFG then valid (decide (bitsOf v 1 0 ≠ 3) && logSyncOk (bitsOf v 31 24))
  else .ok

/-- What an ETH or PTP register does when it comes into force. -/
def ethEffect (s : State) (i : Nat) (old : Word) : State :=
  let t := nextBoundary s
  if i = ETH_CTRL then (if flag s ETH_CTRL_EN then s else setLink (setLink s 0 t false) 1 t false)
  else if i = ETH_BYP_CTRL then
    let ins := flag s ETH_BYP_CTRL_INSERT
    let byp := flag s ETH_BYP_CTRL_BYPASS
    let s := setF s ⟨ETH_BYP_CTRL, 1, 0⟩ 0
    if ins then insertStart s t 0 else if byp then bypassWrite s t else s
  else if i = PTP_GP_CFG ∧ old ≠ rd s i then gpConfig s t
  else if i = PTP_OC_CFG ∧ old ≠ rd s i then ocConfig s t
  else s

/-- A reset of ETH: the coil goes low; BYP_SENSE stays what its pin shows (R14, R348, R349). -/
def ethReset (s : State) : State :=
  let sense := flag s ETH_BYP_STAT_SENSE
  let t := absTick s (nowTick s)
  let coil := flag s ETH_BYP_STAT_COIL
  let s := resetRegs s fun i => decide (i / 256 = 0x29 ∨ i / 256 = 0x2A)
  let e := { EthState.reset with coilAt := if coil then t else s.eth.coilAt, senseAt := s.eth.senseAt, wasIn := s.eth.wasIn }
  setB { s with eth := e } ETH_BYP_STAT_SENSE sense

end Sys2Proof.Machine
end

