-- ==== Sys2Proof/Machine/Can.lean ====
section
/-!
DEFINITION. Sys2Proof/Machine/Can.lean: the CAN controllers (chapter 13): transmit buffers, FIFOs and filters, the schedule
matrix TTM, fault confinement, ISOBUS and the host commands CAN_SEND, CAN_RECV and CAN_ABORT.
-/
namespace Sys2Proof.Machine

def canCtls : List Nat := [0, 1, 2, 3]

def ctlAt (s : State) (x : Nat) : CanCtl := sparseGet (fun _ => CanCtl.reset) s.can.ctl x

def modCtl (s : State) (x : Nat) (f : CanCtl → CanCtl) : State :=
  { s with can := { s.can with ctl := sparseMod (fun _ => CanCtl.reset) s.can.ctl x f } }

def bufAt (s : State) (x b : Nat) : CanBuf := sparseGet (fun _ => CanBuf.reset) (ctlAt s x).bufs b

def modBuf (s : State) (x b : Nat) (f : CanBuf → CanBuf) : State :=
  modCtl s x fun c => { c with bufs := sparseMod (fun _ => CanBuf.reset) c.bufs b f }

def fifoAt (s : State) (x f : Nat) : CanFifo := sparseGet (fun _ => CanFifo.reset) (ctlAt s x).fifos f

/-- Change a FIFO and show its fill. -/
def setFifo (s : State) (x f : Nat) (q : CanFifo) : State :=
  let s := modCtl s x fun c => { c with fifos := sparseSet (fun _ => CanFifo.reset) c.fifos f q }
  setF s (CAN_FIFO_STAT_FILL x f) q.elems.length

/-! ### States (R358, R372) -/

def csOff : Nat := 0
def csSync : Nat := 1
def csActive : Nat := 2
def csPassive : Nat := 3
def csBusOff : Nat := 4
def csRecovering : Nat := 5

def canState (s : State) (x : Nat) : Nat := getF s (CAN_STAT_STATE x)

/-- The controller takes part in bus traffic. -/
def onBus (s : State) (x : Nat) : Bool := decide (canState s x = csActive ∨ canState s x = csPassive)

def tbFree : Nat := 0
def tbReady : Nat := 1
def tbPending : Nat := 2
def tbActive : Nat := 3
def tbSent : Nat := 4
def tbNoAck : Nat := 5
def tbRetryExh : Nat := 6
def tbAborted : Nat := 7
def tbLate : Nat := 8

def txState (s : State) (x b : Nat) : Nat := getF s (CAN_TXB_STAT_STATE x b)

/-- Show a buffer's state; a controller has 64 buffers. -/
def setTx (s : State) (x b st : Nat) : State := if b < 64 then setF s (CAN_TXB_STAT_STATE x b) st else s

/-- FREE or a terminal state (R358, R363). -/
def txIdle (st : Nat) : Bool := decide (st = tbFree ∨ 4 ≤ st)

/-- The buffers of the controller. -/
def canBufs (s : State) (x : Nat) : List Nat := List.range (min 64 (getF s (CAN_ELEM_TX_N x)))

/-- A CAN interrupt flag. -/
def canIrq (s : State) (x k : Nat) : State := raiseIrq s ⟨CAN_IRQ x, k, k⟩ ⟨CAN_IEN x, k, k⟩ 5

/-! ### TTM (R368, R369) -/

def rowByte (s : State) (r : Nat) : Nat := tnat s .ttm (1024 + r) 8 1
def rowCtl (s : State) (r : Nat) : Nat := rowByte s r % 4
def rowTb (s : State) (r : Nat) : Nat := rowByte s r / 4 % 4
def rowEn (s : State) (r : Nat) : Bool := (rowByte s r).testBit 4
def rowPeriod (s : State) (r : Nat) : Nat := tnat s .ttm (1024 + r) 0 4
def slotEn (s : State) (e : Nat) : Bool := (tnat s .ttm e 5 1).testBit 0
def slotBuf (s : State) (e : Nat) : Nat := tnat s .ttm e 4 1

/-- The enabled slots of the matrix: their columns are in use. -/
def ttSlots (s : State) : List Nat :=
  (tkeys s .ttm).filter fun e => decide (e < 1024) && slotEn s e && decide (e % 64 < tnat s .ttm (1024 + e / 64) 9 1)

/-- The slot that names a buffer. -/
def ttNames (s : State) (x b : Nat) : Option Nat := (ttSlots s).find? fun e => decide (rowCtl s (e / 64) = x ∧ slotBuf s e = b)

/-- The buffer is reserved for the firmware (R376, R377). -/
def txReserved (s : State) (x b : Nat) : Bool :=
  (decide (x = 0) && flag s (CAN_CTRL_ISOBUS 0) && decide (b < 32)) || (decide (x = 1) && flag s (CAN_CTRL_HOSTLINK 1) && decide (b < 8))

/-- Show TT and RSV of every buffer, and FW of the FIFOs. -/
def showCan (s : State) (x : Nat) : State :=
  let s := (List.range 64).foldl (fun s b =>
    setB (setB s (CAN_TXB_STAT_TT x b) (ttNames s x b).isSome) (CAN_TXB_STAT_RSV x b) (txReserved s x b)) s
  setB s (CAN_FIFO_CFG_FW x 0) (txReserved s x 0)

/-- Status bytes of an entry: a write does not change them (R368). -/
def ttmMerge (n : Nat) (old new : List Byte) : List Byte :=
  let o := if n < 1024 then 8 else 12
  let l := if n < 1024 then 5 else 4
  putBytes new o ((old.drop o).take l)

/-- The fields of an entry are in range, and reserved ones are 0 (R368, R369). -/
def ttmEntryOk (s : State) (n : Nat) (b : List Byte) : Bool :=
  if n < 1024 then
    let used := decide ((leAt b 5 1).testBit 0)
    decide (leAt b 4 1 < 64) && decide (leAt b 5 1 < 4) && decide (leAt b 6 2 = 0) && decide (leAt b 13 3 = 0)
      && (!used || decide (leAt b 0 4 < rowPeriod s (n / 64)))
  else
    let p := leAt b 0 4
    let zero := b.all fun y => decide (y = 0#8)
    let live := inRange 100 60000000 p && decide (leAt b 4 4 < p) && inRange 1 64 (leAt b 9 1)
    decide (leAt b 8 1 < 32) && decide (leAt b 10 2 = 0) && (live || zero)

/-- No element of a list relates to a later one. -/
def noPair {α : Type} (r : α → α → Bool) : List α → Bool
  | [] => true
  | a :: l => l.all (fun b => !r a b) && noPair r l

/-- The relations of R369 between the slots of the matrix. -/
def ttmTableOk (s : State) : Bool :=
  let l := ttSlots s
  let off := fun (e : Nat) => tnat s .ttm e 0 4
  noPair (fun a b => (decide (a / 64 = b / 64) && decide (off a = off b))
      || (decide (rowCtl s (a / 64) = rowCtl s (b / 64)) && decide (slotBuf s a = slotBuf s b))) l
    && l.all fun e =>
      let x := rowCtl s (e / 64)
      decide (slotBuf s e < getF s (CAN_ELEM_TX_N x)) && !txReserved s x (slotBuf s e) && decide (off e < rowPeriod s (e / 64))

/-! ### Arbitration (R359) -/

/-- The order of frames on the bus: the first 11 bits, then an 11-bit identifier first, then the other 18 bits, then the
buffer. -/
def busKey (s : State) (x b : Nat) : List Nat :=
  let w := (bufAt s x b).w0
  let ext := bitsOf w 29 29
  let id := bitsOf w 28 0
  [if ext = 1 then id / 2 ^ 18 else id, ext, if ext = 1 then id % 2 ^ 18 else 0, b]

/-- Lexicographic order. -/
def keyLe : List Nat → List Nat → Bool
  | a :: r, b :: q => decide (a < b) || (decide (a = b) && keyLe r q)
  | _, _ => true

/-- The first of a list by an order. -/
def firstBy {α : Type} (le : α → α → Bool) : List α → Option α
  | [] => none
  | a :: l => match firstBy le l with
    | some b => if le a b then some a else some b
    | none => some a

/-- The buffer that is offered next becomes ACTIVE, if none is (R359). DEDUCED (log entry 69): it is chosen when the last frame of
the controller has ended or it becomes eligible, and again when it has lost arbitration. -/
def offer (s : State) (x : Nat) : State :=
  if onBus s x && (ctlAt s x).active.isNone then
    match firstBy (fun a b => keyLe (busKey s x a) (busKey s x b))
      ((canBufs s x).filter fun b => decide (txState s x b = tbPending) && (bufAt s x b).eligible) with
    | some b => setTx (modCtl s x fun c => { c with active := some b }) x b tbActive
    | none => s
  else s

/-! ### Outcomes of buffers (R358, R360, R361, R370) -/

/-- A buffer takes a terminal state; one that a TTM slot names goes to READY after SENT, and after a failure keeps its content
for its slots (R369, R370). -/
def endTx (s : State) (x b st : Nat) : State :=
  let tt := (ttNames s x b).isSome && decide (st ≠ tbAborted)
  let s := modBuf s x b fun q => { q with eligible := false, abort := false, slot := none, ended := false }
  setTx s x b (if tt then tbReady else st)

/-- A slot is missed (R370). -/
def slotMissed (s : State) (x e : Nat) : State :=
  let s := tsetNat (tsetNat s .ttm e 10 2 (min 65535 (tnat s .ttm e 10 2 + 1))) .ttm e 12 1 2
  let s := canIrq (bump s (CAN_CNT_TTMISS_CNT x)) x 5
  if sparseGet (fun _ => false) s.can.missed e then s
  else record { s with can := { s.can with missed := sparseSet (fun _ => false) s.can.missed e true } } 0xA007 e []

/-- The count of a time base in ns at an instant. -/
def tbCount (s : State) (n t : Nat) : Nat := tbNs (tbAt s n t)

/-- A transmit-at-time frame has missed its window at an instant (R361). -/
def tooLate (s : State) (x b t : Nat) : Bool :=
  let q := bufAt s x b
  let w := getF s (CAN_TT_LATE_WIN x)
  q.at_ && decide (w ≠ 0) && decide (q.time + w * 1000 ≤ tbCount s q.tb t)

def goLate (s : State) (x b : Nat) : State := bump (endTx s x b tbLate) (CAN_CNT_LATE_CNT x)

/-- A failed attempt of the active buffer (R360, R365, R370). -/
def attemptFailed (s : State) (x b t : Nat) (ack : Bool) : State :=
  let s := modBuf s x b fun q => { q with att := q.att + 1, onlyAck := q.onlyAck && ack }
  let q := bufAt s x b
  let s := setF s (CAN_TXB_STAT_ATT x b) (min 15 q.att)
  let again := q.unlim || decide (q.att ≤ q.retry)
  if q.abort then endTx s x b tbAborted
  else match q.slot with
    | some (e, _) => if again then setTx s x b tbPending else endTx (slotMissed s x e) x b tbReady
    | none =>
      if !again then endTx s x b (if q.onlyAck then tbNoAck else tbRetryExh)
      else if tooLate s x b t then goLate s x b
      else setTx s x b tbPending

/-- A successful attempt of the active buffer (R360, R361, R370). -/
def attemptDone (s : State) (x b sof : Nat) : State :=
  let s := canIrq (bump s (CAN_CNT_TX_CNT x)) x 0
  let q := bufAt s x b
  let s := modBuf s x b fun q => { q with sof := tbCount s (getF s (CAN_CTRL_TSB x)) sof, fresh := if q.slot.isSome then false else q.fresh }
  let s := match q.slot with
    | some (e, _) =>
      let s := tsetNat (tsetNat s .ttm e 8 2 (min 65535 (tnat s .ttm e 8 2 + 1))) .ttm e 12 1 1
      { s with can := { s.can with missed := sparseSet (fun _ => false) s.can.missed e false } }
    | none => s
  endTx s x b tbSent

/-! ### Fault confinement (R372 to R375) -/

/-- Show TEC and REC. -/
def showErr (s : State) (x : Nat) : State :=
  let c := ctlAt s x
  let s := setF (setF s (CAN_STAT_TEC x) (min 255 c.tec)) (CAN_STAT_REC x) (min 127 c.recv)
  setB s (CAN_STAT_RP x) (decide (128 ≤ c.recv))

/-- The bytes of an error state record: TEC and REC. -/
def errBytes (s : State) (x : Nat) : List Byte := leBytes 1 (min 255 (ctlAt s x).tec) ++ leBytes 1 (min 255 (ctlAt s x).recv)

/-- Set BOFF on every buffer that is PENDING during bus-off (R374). -/
def markBoff (s : State) (x : Nat) : State :=
  if canState s x = csBusOff ∨ canState s x = csRecovering then
    (canBufs s x).foldl (fun s b => if txState s x b = tbPending then setB s (CAN_TXB_STAT_BOFF x b) true else s) s
  else s

/-- The frame in progress goes back to PENDING without an attempt being counted (R359, R374). -/
def withdrawActive (s : State) (x : Nat) : State :=
  match (ctlAt s x).active with
  | some b =>
    let s := modCtl s x fun c => { c with active := none }
    if (bufAt s x b).abort then endTx s x b tbAborted
    else if (bufAt s x b).ended then endTx s x b tbReady
    else setTx s x b tbPending
  | none => s

/-- The error state follows TEC and REC at an instant (R372, R374). -/
def errState (s : State) (x t : Nat) : State :=
  let s := showErr s x
  let c := ctlAt s x
  let st := canState s x
  if !onBus s x then s
  else if 255 < c.tec then
    let s := setF (withdrawActive s x) (CAN_STAT_STATE x) csBusOff
    let s := modCtl s x fun c => { c with offAt := t }
    let s := markBoff (bump s (CAN_CNT_BOFF_CNT x)) x
    canIrq (record s 0xA005 x (errBytes s x)) x 3
  else if 128 ≤ c.tec ∨ 128 ≤ c.recv then
    if st = csPassive then s
    else
      let s := setF s (CAN_STAT_STATE x) csPassive
      canIrq (record s 0xA004 x (errBytes s x)) x 2
  else if st = csActive then s
  else
    let s := setF s (CAN_STAT_STATE x) csActive
    canIrq (record s 0xA006 x (errBytes s x)) x 4

/-- CAN_ERROR (R372, R373): `lec` the kind of error; `tx`: as a transmitter; `dom`: a dominant bit was seen while the error flag
was sent or right after it; `exempt`: a case for which the standard leaves the counter unchanged. -/
def canError (s : State) (x t lec : Nat) (tx dom exempt : Bool) : State :=
  if !onBus s x then s
  else
    let s := setF (bump s (CAN_CNT_ERR_CNT x)) (CAN_STAT_LEC x) lec
    let s := if tx && decide (lec = 3) then bump s (CAN_CNT_NOACK_CNT x) else s
    let keep := exempt || (tx && decide (lec = 3) && decide (canState s x = csPassive) && !dom)
    let s := if keep then s
      else if tx then modCtl s x fun c => { c with tec := c.tec + 8 }
      else modCtl s x fun c => { c with recv := c.recv + (if dom then 8 else 1) }
    errState s x t

def execCanError (x t lec : Nat) (tx dom exempt : Bool) (s : State) : Host.Outcome State Fault Refusal :=
  answer (decide (x < 4 ∧ 1 ≤ lec ∧ lec ≤ 6) && inThisStep s t) (canError s x (absTick s t) lec tx dom exempt)

/-- The transmitter delay that the controller has measured in an FD frame it sent (R353). -/
def showTdcv (s : State) (x b tdcv : Nat) : State :=
  if (bufAt s x b).w1.getLsbD 4 && flag s (CAN_DBT_TDC_EN x) then setF s (CAN_TDC_TDCV x) tdcv else s

/-- TX_ATTEMPT_END (R360): `lec` 0 for success, else the error that CAN_ERROR has counted; `sof` the start of frame; `tdcv` the
transmitter delay, which counts for an FD frame. -/
def txEnd (s : State) (x t sof lec tdcv : Nat) : State :=
  match (ctlAt s x).active with
  | none => s
  | some b =>
    let s := showTdcv s x b tdcv
    let s := modCtl s x fun c => { c with active := none, tec := if lec = 0 then c.tec - 1 else c.tec }
    let s := if lec = 0 then setF s (CAN_STAT_LEC x) 0 else s
    let s := if lec = 0 then attemptDone s x b sof else attemptFailed s x b t (decide (lec = 3))
    offer (errState s x t) x

def execTxAttemptEnd (x t sof lec tdcv : Nat) (s : State) : Host.Outcome State Fault Refusal :=
  answer (decide (x < 4 ∧ lec ≤ 6 ∧ tdcv < 128) && inThisStep s t) (txEnd s x (absTick s t) (absTick s sof) lec tdcv)

/-- BUS_SYNC: 11 recessive bits have been seen (R354). -/
def busSync (s : State) (x : Nat) : State :=
  if canState s x = csSync then offer (setF s (CAN_STAT_STATE x) csActive) x else s

def execBusSync (x : Nat) (s : State) : Host.Outcome State Fault Refusal := answer (decide (x < 4)) (busSync s x)

/-- BO_DELAY_EXPIRY (R375). -/
def boDelay (s : State) (x t : Nat) : State :=
  if decide (canState s x = csBusOff) && !flag s (CAN_CTRL_RECOV x)
      && decide ((ctlAt s x).offAt + getF s (CAN_BOFF_BO_DLY x) * perMs ≤ t) then setF s (CAN_STAT_STATE x) csRecovering
  else s

def execBoDelayExpiry (x t : Nat) (s : State) : Host.Outcome State Fault Refusal :=
  answer (decide (x < 4) && inThisStep s t) (boDelay s x (absTick s t))

/-- RECOVERY_DONE (R375). -/
def recoveryDone (s : State) (x : Nat) : State :=
  if canState s x = csRecovering then
    let s := showErr (modCtl s x fun c => { c with tec := 0, recv := 0 }) x
    let s := setF s (CAN_STAT_STATE x) csActive
    offer (canIrq (record s 0xA006 x (errBytes s x)) x 4) x
  else s

def execRecoveryDone (x : Nat) (s : State) : Host.Outcome State Fault Refusal := answer (decide (x < 4)) (recoveryDone s x)

/-! ### Reception (R355, R357, R366, R367) -/

/-- Data bytes of a DLC (R355). -/
def dlcLen (fdf : Bool) (dlc : Nat) : Nat :=
  if dlc ≤ 8 then dlc else if !fdf then 8 else [12, 16, 20, 24, 32, 48, 64].getD (dlc - 9) 64

/-- Data size of an element code (R356). -/
def elemSize (c : Nat) : Nat := 8 * 2 ^ c

/-- Filter `k` matches (R366). -/
def filterHit (s : State) (x k : Nat) (f : CanFrame) : Bool :=
  flag s (CAN_FLT_ID_EN x k) && decide (flag s (CAN_FLT_ID_XTD x k) = f.xtd)
    && decide ((f.id ^^^ getF s (CAN_FLT_ID_ID x k)) &&& getF s (CAN_FLT_MASK_MASK x k) = 0)

/-- Store an element in a FIFO (R367). A FIFO of the firmware is emptied by it while it runs. -/
def storeElem (s : State) (x f : Nat) (e : CanElem) : State :=
  if flag s (CAN_FIFO_CFG_FW x f) && decide (s.sys.phase = .up) then s
  else
    let q := fifoAt s x f
    if q.elems.length < getF s (CAN_FIFO_CFG_DEPTH x f) then canIrq (setFifo s x f { q with elems := q.elems ++ [e] }) x 1
    else
      let s := canIrq (bump s (CAN_FIFO_STAT_OVF_CNT x f)) x 6
      if flag s (CAN_FIFO_CFG_OVW x f) && !q.elems.isEmpty then
        canIrq (setFifo s x f { elems := q.elems.drop 1 ++ [e], ovf := true }) x 1
      else setFifo s x f { q with ovf := true }

/-- The firmware runs again and empties its FIFOs (R376 to R378). -/
def canRestart (s : State) : State :=
  [0, 1].foldl (fun s x => if flag s (CAN_FIFO_CFG_FW x 0) then setFifo s x 0 CanFifo.reset else s) s

/-- The stored element of a frame (R355, R357). -/
def rxElem (s : State) (x t flt : Nat) (f : CanFrame) : CanElem :=
  let n := if f.rtr then 0 else dlcLen f.fdf f.dlc
  let ds := elemSize (getF s (CAN_ELEM_RX_DS x))
  let w0 := f.id + bit f.xtd 29 + bit f.rtr 30
  let w1 := f.dlc + bit f.fdf 4 + bit f.brs 5 + bit f.esi 6 + flt * 65536
  { bytes := leBytes 4 w0 ++ leBytes 4 w1 ++ leBytes 8 (tbCount s (getF s (CAN_CTRL_TSB x)) t) ++ (f.data.take n).take ds,
    cut := decide (ds < n) }

/-- An ISO 11783-7 speed and direction message on CAN_A, passed to KIN (R376): the wheel-based and the ground-based one. -/
def isoMessage (s : State) (f : CanFrame) : State :=
  let pgn := f.id / 256 % 2 ^ 18
  if f.xtd && (decide (pgn = 0xFE48) || decide (pgn = 0xFE49)) && decide (8 ≤ f.data.length) then
    let v := leAt f.data 0 2
    let d := leAt f.data 7 1 % 4
    if v ≤ 0xFAFF then
      { s with kin := { s.kin with iso := some { speed := v * 1000, dirKnown := decide (d ≤ 1), rev := decide (d = 0) } } }
    else { s with kin := { s.kin with iso := none } }
  else s

/-- REC after a frame received without error (R372): from above 127 the standard allows 119 to 127. -/
def recvDown (s : State) (x : Nat) : State :=
  let c := ctlAt s x
  if 127 < c.recv then
    let f := fresh s
    modCtl f.2 x fun c => { c with recv := (clampI 119 127 (Config.freeInt f.1)).toNat }
  else modCtl s x fun c => { c with recv := c.recv - 1 }

/-- Filter a frame and store its copies (R366). -/
def filterFrame (s : State) (x t : Nat) (f : CanFrame) : State :=
  let hit := (List.range 32).find? fun k => filterHit s x k f
  let s := if hit.isNone then bump s (CAN_CNT_NOMATCH_CNT x) else s
  let dst := match hit with
    | some k => if flag s (CAN_FLT_ID_REJ x k) then 0 else getF s (CAN_FLT_DST_FIFOS x k)
    | none => getF s (CAN_RXCFG_NOMATCH x)
  let e := rxElem s x t (hit.getD 31) f
  let s := if e.cut && decide (dst ≠ 0) then bump s (CAN_CNT_TRUNC_CNT x) else s
  [0, 1, 2, 3].foldl (fun s k => if dst.testBit k then storeElem s x k e else s) s

/-- CAN_FRAME_RX (R366): `lost`: the active buffer lost arbitration to it. To a classic controller an FD frame is a form error
(R351). -/
def canRx (s : State) (x t : Nat) (f : CanFrame) (lost : Bool) : State :=
  if !onBus s x then s
  else
    let s := if lost && (ctlAt s x).active.isSome then bump (withdrawActive s x) (CAN_CNT_ARBLOST_CNT x) else s
    if f.fdf && !flag s (CAN_CTRL_FD_EN x) then offer (canError s x t 2 false false false) x
    else
      let s := errState (recvDown (bump s (CAN_CNT_RX_CNT x)) x) x t
      let s := if decide (x = 0) && flag s (CAN_CTRL_ISOBUS 0) && decide (s.sys.phase = .up) then isoMessage s f else s
      offer (filterFrame s x t f) x

/-- A frame of the bus is well formed (R355). -/
def frameOk (f : CanFrame) : Bool :=
  decide (f.id < if f.xtd then 2 ^ 29 else 2 ^ 11) && decide (f.dlc < 16) && !(f.rtr && f.fdf) && !(f.brs && !f.fdf)
    && decide (f.data.length = if f.rtr then 0 else dlcLen f.fdf f.dlc)

def execCanFrameRx (x t : Nat) (f : CanFrame) (lost : Bool) (s : State) : Host.Outcome State Fault Refusal :=
  answer (decide (x < 4) && inThisStep s t && frameOk f) (canRx s x (absTick s t) f lost)

/-! ### Instants (R361, R370) -/

/-- TRANSMIT_AT_TIME (R361). -/
def atTime (s : State) (x b t : Nat) : State :=
  let q := bufAt s x b
  if decide (txState s x b = tbPending) && q.at_ && !q.eligible && decide (q.time ≤ tbCount s q.tb t) then
    offer (modBuf s x b fun q => { q with eligible := true }) x
  else s

def execTransmitAtTime (x b t : Nat) (s : State) : Host.Outcome State Fault Refusal :=
  answer (decide (x < 4 ∧ b < 64) && inThisStep s t) (atTime s x b (absTick s t))

/-- LATE_WIN_EXPIRY (R361, R374). -/
def lateExpiry (s : State) (x b t : Nat) : State :=
  if txState s x b = tbPending ∧ tooLate s x b t then goLate s x b else s

def execLateWinExpiry (x b t : Nat) (s : State) : Host.Outcome State Fault Refusal :=
  answer (decide (x < 4 ∧ b < 64) && inThisStep s t) (lateExpiry s x b (absTick s t))

/-- The instant of a slot lies at the last edge before an instant (R368). -/
def slotHere (s : State) (r e t : Nat) : Bool :=
  let n := rowTb s r
  let us := tbUnit * 1000
  let o : Int := (tnat s .ttm (1024 + r) 4 4 + tnat s .ttm e 0 4) * us
  let p : Int := rowPeriod s r * us
  let v := tbAt s n t
  decide ((v - tbLastEdge s n t - o) / p < (v - o) / p)

/-- TT_SLOT (R370): a slot instant comes. DEDUCED (log entry 69): to a controller that is off it does nothing. -/
def ttSlot (s : State) (r c t : Nat) : State :=
  let e := 64 * r + c
  if rowEn s r && (ttSlots s).contains e && slotHere s r e t then
    let x := rowCtl s r
    let b := slotBuf s e
    let q := bufAt s x b
    let fresh := (tnat s .ttm e 5 1).testBit 1
    if canState s x = csOff then s
    else if decide (txState s x b = tbReady) && (!fresh || q.fresh) then
      let s := modBuf s x b fun q => { q with
        eligible := true, att := 0, onlyAck := true, fresh := false, ended := false, slot := some (e, t + getF s (CAN_TT_WIN x) * perUs) }
      offer (markBoff (setTx s x b tbPending) x) x
    else tsetNat s .ttm e 12 1 3
  else s

def execTtSlot (r c t : Nat) (s : State) : Host.Outcome State Fault Refusal :=
  answer (decide (r < 16 ∧ c < 64) && inThisStep s t) (ttSlot s r c (absTick s t))

/-- TT_WINDOW_EXPIRY (R370): a frame that is ACTIVE completes and no longer counts for the slot. -/
def ttWindow (s : State) (r c t : Nat) : State :=
  let e := 64 * r + c
  let x := rowCtl s r
  let b := slotBuf s e
  match (bufAt s x b).slot with
  | some (k, d) =>
    if k = e ∧ d ≤ t then
      let s := slotMissed s x e
      if txState s x b = tbActive then modBuf s x b fun q => { q with slot := none, ended := true, retry := 0, unlim := false }
      else endTx s x b tbReady
    else s
  | none => s

def execTtWindowExpiry (r c t : Nat) (s : State) : Host.Outcome State Fault Refusal :=
  answer (decide (r < 16 ∧ c < 64) && inThisStep s t) (ttWindow s r c (absTick s t))

/-- CYC of every enabled row at a step boundary (R368): cycles started in the step. -/
def canBoundary (s : State) : State :=
  let t := absTick s (nowTick s)
  (List.range 16).foldl (fun s r =>
    if rowEn s r && decide (rowPeriod s r ≠ 0) then
      let n := rowTb s r
      let us := tbUnit * 1000
      let o : Int := tnat s .ttm (1024 + r) 4 4 * us
      let p : Int := rowPeriod s r * us
      let v := tbAt s n t
      let k := (v - o) / p - (v - slotsPerStep * tbLastEdge s n t - o) / p
      if k = 0 then s else tsetNat s .ttm (1024 + r) 12 4 ((tnat s .ttm (1024 + r) 12 4 + k.toNat) % 2 ^ 32)
    else s) s

/-! ### Commands (R363 to R365) -/

/-- A response: the state, the status of R390 and the payload. -/
structure Reply where
  s : State
  status : Nat
  body : List Byte
  deriving DecidableEq, Repr

def stOk : Nat := 0
def stUnknownCmd : Nat := 1
def stUnknownIndex : Nat := 2
def stInvalid : Nat := 3
def stWrong : Nat := 4
def stLease : Nat := 5
def stHeld : Nat := 6
def stLength : Nat := 7
def stPoolFull : Nat := 8
def stNotAttached : Nat := 9
def stRoleTaken : Nat := 10
def stAuth : Nat := 11

/-- A refused command changes nothing. -/
def refuse (s : State) (st : Nat) : Reply := { s := s, status := st, body := [] }

/-- Length of the data of an item of CAN_SEND, padded (R363). -/
def itemData (b : List Byte) : Nat :=
  let w1 := leAt b 12 4
  if (leAt b 8 4).testBit 30 then 0 else dlcLen (w1.testBit 4) (w1 % 16)

/-- Cut the items of CAN_SEND; none where the bytes do not match the count. -/
def sendItems : Nat → List Byte → Option (List (List Byte))
  | 0, b => if b.isEmpty then some [] else none
  | n + 1, b =>
    let l := 24 + (itemData b + 3) / 4 * 4
    if b.length < 24 ∨ b.length < l then none
    else match sendItems n (b.drop l) with
      | some r => some (b.take l :: r)
      | none => none

/-- The header of a transmit request is valid (R351, R355, R357, R363, R376). DEDUCED (log entry 69): ESI and FILTER, which do not
apply to a request, may hold anything. -/
def headerOk (s : State) (x : Nat) (i : List Byte) : Bool :=
  let w0 := wordAt i 8
  let w1 := wordAt i 12
  let fdf := w1.getLsbD 4
  decide (leAt i 1 1 < 16) && decide (leAt i 4 4 = 0) && !((leAt i 1 1).testBit 0 && (leAt i 1 1).testBit 3)
    && decide (bitsOf w0 31 31 = 0) && (w0.getLsbD 29 || decide (bitsOf w0 28 11 = 0))
    && !(w0.getLsbD 30 && fdf) && !(w1.getLsbD 5 && !fdf) && decide (bitsOf w1 7 7 = 0 ∧ bitsOf w1 15 14 = 0 ∧ bitsOf w1 31 21 = 0)
    && !(fdf && !flag s (CAN_CTRL_FD_EN x)) && decide (itemData i ≤ elemSize (getF s (CAN_ELEM_TX_DS x)))
    && !(decide (x = 0) && flag s (CAN_CTRL_ISOBUS 0) && !(w0.getLsbD 29 && decide (bitsOf w0 7 0 = getF s CAN_ISO_STAT_SA)))

/-- The buffers that BUF = 0xFF may take, lowest first (R363). -/
def freeBufs (s : State) (x : Nat) (used : List Nat) : List Nat :=
  (canBufs s x).filter fun b =>
    txIdle (txState s x b) && (ttNames s x b).isNone && !txReserved s x b && !used.contains b

/-- Check the items and give each its buffer, or the first status that fails (R363, R390). -/
def sendPlan (s : State) (x : Nat) : List (List Byte) → List Nat → Nat × List (Nat × List Byte)
  | [], _ => (stOk, [])
  | i :: r, used =>
    let b := leAt i 0 1
    let load := (leAt i 1 1).testBit 3
    let tt := (ttNames s x b).isSome
    let named := decide (b ≠ 0xFF)
    if !headerOk s x i || (named && (decide (getF s (CAN_ELEM_TX_N x) ≤ b) || txReserved s x b || decide (tt ≠ load)))
        || (!named && load) then (stInvalid, [])
    else if !flag s (CAN_CTRL_EN x) || (named && (decide (txState s x b = tbPending ∨ txState s x b = tbActive) || used.contains b))
        || (decide (x = 0) && flag s (CAN_CTRL_ISOBUS 0) && !flag s CAN_ISO_STAT_CLAIMED) then (stWrong, [])
    else match (if named then some b else (freeBufs s x used).head?) with
      | none => (stPoolFull, [])
      | some k =>
        let p := sendPlan s x r (k :: used)
        if p.1 = stOk then (stOk, (k, i) :: p.2) else p

/-- Load a buffer (R355, R358, R360, R361). -/
def loadBuf (s : State) (x h b : Nat) (i : List Byte) : State :=
  let w1 := wordAt i 12
  let c := leAt i 1 1
  let rdef := w1.getLsbD 13
  let tt := c.testBit 3
  let t := nextBoundary s
  let at_ := c.testBit 0
  let s := modBuf s x b fun q => { q with
    w0 := wordAt i 8
    w1 := w1
    data := (i.drop 24).take (itemData i)
    time := leAt i 16 8
    at_ := at_
    tb := c / 2 % 4
    retry := if rdef then getF s (CAN_CTRL_RETRY x) else bitsOf w1 11 8
    unlim := if rdef then flag s (CAN_CTRL_UNLIM x) else w1.getLsbD 12
    eligible := !tt && (!at_ || decide (leAt i 16 8 ≤ tbCount s (c / 2 % 4) t))
    att := 0
    onlyAck := true
    seq := (q.seq + 1) % 256
    fresh := tt
    abort := false
    slot := none
    ended := false }
  let s := setF (setF (setF s (CAN_TXB_STAT_OWNER x b) h) (CAN_TXB_STAT_TAG x b) (leAt i 2 2)) (CAN_TXB_STAT_ATT x b) 0
  let s := setTx (setB s (CAN_TXB_STAT_BOFF x b) false) x b (if tt then tbReady else tbPending)
  if !tt && tooLate s x b t then goLate s x b else markBoff s x

/-- CAN_SEND from slot `h` (R363). -/
def canSend (s : State) (h : Nat) (p : List Byte) : Reply :=
  let x := leAt p 0 1
  if roleOf s h = 2 then refuse s stLease
  else if 3 < x ∨ leAt p 2 2 ≠ 0 then refuse s stInvalid
  else match sendItems (leAt p 1 1) (p.drop 4) with
    | none => refuse s stLength
    | some l =>
      let plan := sendPlan s x l []
      if plan.1 ≠ stOk then refuse s plan.1
      else
        let s := offer (plan.2.foldl (fun s q => loadBuf s x h q.1 q.2) s) x
        let out := plan.2.flatMap fun q => leBytes 1 q.1 ++ leBytes 1 (bufAt s x q.1).seq ++ leBytes 2 0
        { s := s, status := stOk, body := leBytes 1 x ++ leBytes 1 l.length ++ leBytes 2 0 ++ out }

/-- The count fields of CAN_SEND fit its length (R363, R389). -/
def canSendLen (p : List Byte) : Bool := decide (leAt p 1 1 ≤ 16) && (sendItems (leAt p 1 1) (p.drop 4)).isSome

/-- CAN_RECV from slot `h` (R364). -/
def canRecv (s : State) (h : Nat) (p : List Byte) : Reply :=
  let x := leAt p 0 1
  let f := leAt p 1 1
  let n := leAt p 2 1
  if 3 < x ∨ 3 < f then refuse s stInvalid
  else if flag s (CAN_FIFO_CFG_FW x f) ∨ getF s (CAN_FIFO_CFG_HOST x f) ≠ h then refuse s stLease
  else if leAt p 3 1 ≠ 0 then refuse s stInvalid
  else
    let q := fifoAt s x f
    let l := q.elems.take n
    let left := q.elems.drop n
    let s := setFifo s x f { elems := left, ovf := false }
    let cut := l.any (·.cut)
    let pad := fun (e : CanElem) => e.bytes ++ List.replicate ((4 - e.bytes.length % 4) % 4) 0#8
    { s := s, status := stOk,
      body := leBytes 2 l.length ++ leBytes 1 left.length ++ leBytes 1 (bit q.ovf 0 + bit cut 1) ++ l.flatMap pad }

/-- CAN_ABORT from slot `h` (R365): only buffers that the slot loaded. -/
def canAbort (s : State) (h : Nat) (p : List Byte) : Reply :=
  let x := leAt p 0 1
  let m := leAt p 2 8
  if roleOf s h = 2 then refuse s stLease
  else if 3 < x ∨ leAt p 1 1 ≠ 0 then refuse s stInvalid
  else
    let mine := fun (b : Nat) => m.testBit b && decide (txState s x b ≠ tbFree) && decide (getF s (CAN_TXB_STAT_OWNER x b) = h)
      && !txReserved s x b
    let goes := fun (b : Nat) => mine b && decide (txState s x b = tbPending ∨ txState s x b = tbReady ∨ txState s x b = tbActive)
    let l := (List.range 64).filter goes
    let out := l.foldl (fun s b =>
      if txState s x b = tbActive then modBuf s x b fun q => { q with abort := true } else endTx s x b tbAborted) s
    let mask := (l.map fun b => 2 ^ b).sum
    { s := out, status := stOk, body := leBytes 8 mask ++ leBytes 8 (m - mask) }

/-! ### ISOBUS (R376) and the processor hold (R378) -/

/-- ADDRESS_CLAIMED. -/
def addressClaimed (s : State) (sa : Nat) : State :=
  if flag s (CAN_CTRL_ISOBUS 0) && onBus s 0 && decide (s.sys.phase = .up) then
    setB (setF s CAN_ISO_STAT_SA sa) CAN_ISO_STAT_CLAIMED true
  else s

def execAddressClaimed (sa : Nat) (s : State) : Host.Outcome State Fault Refusal :=
  answer (decide (sa < 254)) (addressClaimed s sa)

/-- ADDRESS_LOST. -/
def addressLost (s : State) : State :=
  if flag s CAN_ISO_STAT_CLAIMED then
    let sa := getF s CAN_ISO_STAT_SA
    let s := setB (setB (setF s CAN_ISO_STAT_SA 0xFE) CAN_ISO_STAT_CLAIMED false) CAN_ISO_STAT_LOST true
    record s 0xA008 noInst (leBytes 1 sa)
  else s

def execAddressLost (s : State) : Host.Outcome State Fault Refusal := .next (addressLost s)

/-- At the start of the processor hold the firmware's buffers of CAN_A go to ABORTED (R378). -/
def canHold (s : State) : State :=
  if flag s (CAN_CTRL_ISOBUS 0) then
    (List.range 32).foldl (fun s b =>
      if txState s 0 b = tbActive then modBuf s 0 b fun q => { q with abort := true }
      else if txState s 0 b = tbPending ∨ txState s 0 b = tbReady then endTx s 0 b tbAborted
      else s) s
  else s

/-! ### Registers (R351 to R356, R376, R377, R380) -/

/-- Bytes that a controller needs (R356). -/
def poolNeed (s : State) (x : Nat) : Nat :=
  getF s (CAN_ELEM_TX_N x) * (16 + elemSize (getF s (CAN_ELEM_TX_DS x)))
    + ([0, 1, 2, 3].map fun f => getF s (CAN_FIFO_CFG_DEPTH x f)).sum * (16 + elemSize (getF s (CAN_ELEM_RX_DS x)))

/-- The region of a controller fits the pool and meets no other (R356). -/
def poolOk (s : State) (x : Nat) : Bool :=
  let b := getF s (CAN_POOL_BASE x)
  let n := getF s (CAN_POOL_SIZE x)
  decide (poolNeed s x ≤ n * 1024) && decide (b + n ≤ 256)
    && canCtls.all fun y =>
      let c := getF s (CAN_POOL_BASE y)
      let m := getF s (CAN_POOL_SIZE y)
      decide (y = x) || decide (m = 0) || decide (n = 0) || decide (b + n ≤ c) || decide (c + m ≤ b)

/-- f_N is 250 kbit/s (R352, R376). -/
def rate250 (s : State) (x : Nat) : Bool :=
  decide (getF s (CAN_NBT_NBRP x) * (1 + getF s (CAN_NBT_NTSEG1 x) + getF s (CAN_NBT_NTSEG2 x)) = 320)

/-- The rules of a write of `v` to a CAN register that holds `old`. -/
def canCheck (s : State) (i : Nat) (old v : Word) : Verdict :=
  let x := (i - 0x2C00) / 256
  let o := i % 256
  let off := !flag s (CAN_CTRL_EN x)
  let link := decide (x = 1) && flag s (CAN_CTRL_HOSTLINK 1)
  let fwFlt := decide (x = 0) && flag s (CAN_CTRL_ISOBUS 0)
  let changed := decide (old ≠ v)
  if o = 0 then
    let en := decide (bitsOf old 0 0 = 0 ∧ bitsOf v 0 0 = 1)
    let iso := decide (x = 0 ∧ bitsOf v 2 2 = 1)
    if en && (!poolOk s x || (iso && (decide (bitsOf v 1 1 = 1) || !rate250 s x))) then .invalid
    else inState (off || !(bitsDiffer old v 1 1 || (decide (x = 0) && bitsDiffer old v 2 2)))
      (inState (decide (bitsOf v 5 5 = 0) || decide (canState s x = csBusOff)) .ok)
  else if o = 2 then
    let n := bitsOf v 8 0 * (1 + bitsOf v 23 16 + bitsOf v 30 24)
    let ok := inRange 1 256 (bitsOf v 8 0) && inRange 1 127 (bitsOf v 15 9) && decide (2 ≤ bitsOf v 23 16)
      && decide (2 ≤ bitsOf v 30 24) && decide (bitsOf v 15 9 ≤ bitsOf v 30 24) && decide (80 ≤ n)
    if ok then inState (off && !link) .ok else .invalid
  else if o = 3 then
    let n := bitsOf v 4 0 * (1 + bitsOf v 20 16 + bitsOf v 27 24)
    let ok := decide (1 ≤ bitsOf v 4 0) && decide (1 ≤ bitsOf v 11 8) && decide (1 ≤ bitsOf v 20 16)
      && decide (1 ≤ bitsOf v 27 24) && decide (bitsOf v 11 8 ≤ bitsOf v 27 24) && decide (10 ≤ n)
    if ok then inState (off && !link) .ok else .invalid
  else if o = 5 then
    if bitsOf v 8 0 ≤ 255 ∧ bitsOf v 24 16 ≤ 256 then inState (off && !link) .ok else .invalid
  else if o = 6 then
    if bitsOf v 6 0 ≤ 64 then inState (off && !link) .ok else .invalid
  else if o = 8 then valid (decide (10 ≤ bitsOf v 15 0))
  else if inRange 0x10 0x13 o then inState (off || !bitsDiffer old v 9 0) .ok
  else if inRange 0x20 0x7F o then
    inState (!(changed && ((link && decide (o % 32 < 8)) || (fwFlt && decide (o % 32 < 16))))) .ok
  else if o = 0xF2 ∨ o = 0xF3 then inState (!flag s (CAN_CTRL_ISOBUS 0)) .ok
  else .ok

/-- The value that a write stores: ISOBUS reads 0 but on CAN_A. -/
def canStore (i : Nat) (v : Word) : Word :=
  if i = 0x2D00 ∨ i = 0x2E00 ∨ i = 0x2F00 then bitsSet v 2 2 0 else v

/-- CAN_CTRL.EN comes into force (R354, R358). -/
def canEnable (s : State) (x : Nat) (was : Bool) : State :=
  let en := flag s (CAN_CTRL_EN x)
  let s := showCan s x
  if en && !was then
    let s := (List.range 64).foldl (fun s b => setB (setTx s x b tbFree) (CAN_TXB_STAT_BOFF x b) false) s
    showErr (modCtl (setF s (CAN_STAT_STATE x) csSync) x fun c => { c with active := none, tec := 0, recv := 0 }) x
  else if !en && was then
    let s := (List.range 64).foldl (fun s b =>
      if txState s x b = tbPending ∨ txState s x b = tbActive then
        setTx (modBuf s x b fun q => { q with eligible := false, slot := none, abort := false, ended := false }) x b tbAborted
      else s) s
    showErr (modCtl (setF s (CAN_STAT_STATE x) csOff) x fun c => { c with active := none, tec := 0, recv := 0 }) x
  else s

/-- RECOVER (R375). DESIGN CHOICE (log entry 69): in AUTO recovery starts by itself, and the write has no effect. -/
def canRecover (s : State) (x : Nat) : State :=
  if flag s (CAN_CTRL_RECOV x) && decide (canState s x = csBusOff) then setF s (CAN_STAT_STATE x) csRecovering else s

/-- What a CAN register that held `old` does when it comes into force. -/
def canEffect (s : State) (i : Nat) (old : Word) : State :=
  let x := (i - 0x2C00) / 256
  if i % 256 = 0 then
    let r := flag s (CAN_CTRL_RECOVER x)
    let s := canEnable (setF s (CAN_CTRL_RECOVER x) 0) x (decide (bitsOf old 0 0 = 1))
    if r then canRecover s x else s
  else s

/-- CAN_TXB_TIME of the buffer selected (R361). -/
def txbTime (s : State) (x b : Nat) : Nat := (bufAt s x b).sof

/-- TTM has been written: what its slots name is shown (R369). -/
def ttmEffect (s : State) : State := canCtls.foldl showCan s

/-- A reset of one controller, and of TTM rows that name it (R378, R450). -/
def canReset (s : State) (x : Nat) : State :=
  let s := resetRegs s fun i => decide (i / 256 = 0x2C + x)
  let rows := (List.range 16).filter fun r => decide (rowCtl s r = x)
  let s := { s with can := { s.can with ctl := sparseDrop (fun k => decide (k = x)) s.can.ctl } }
  rows.foldl (fun s r =>
    (List.range 64).foldl (fun s c => tput s .ttm (64 * r + c) (List.replicate 16 0#8)) (tput s .ttm (1024 + r) (List.replicate 16 0#8))) s

end Sys2Proof.Machine
end

