-- ==== Sys2Proof/Machine/Enc.lean ====
section
/-!
DEFINITION. Sys2Proof/Machine/Enc.lean: shaft ports, wheels, speed signals, encoder emulation, flow meters, analogue inputs
and the IMU port (chapter 10). Counting inputs are numbered as in `Counter`.
-/
namespace Sys2Proof.Machine

/-! ### Access -/

def cntAt (s : State) (u : Nat) : Counter := sparseGet (fun _ => Counter.reset) s.enc.cnt u

def modCnt (s : State) (u : Nat) (f : Counter → Counter) : State :=
  { s with enc := { s.enc with cnt := sparseMod (fun _ => Counter.reset) s.enc.cnt u f } }

def serAt (s : State) (p : Nat) : Serial := sparseGet (fun _ => Serial.reset) s.enc.ser p

def modSer (s : State) (p : Nat) (f : Serial → Serial) : State :=
  { s with enc := { s.enc with ser := sparseMod (fun _ => Serial.reset) s.enc.ser p f } }

def modEmu (s : State) (k : Nat) (f : Emu → Emu) : State :=
  { s with enc := { s.enc with emu := sparseMod (fun _ => Emu.reset) s.enc.emu k f } }

def modAin (s : State) (a : Nat) (f : Ain → Ain) : State :=
  { s with enc := { s.enc with ain := sparseMod (fun _ => Ain.reset) s.enc.ain a f } }

/-- States of a port and of a wheel (R281, R288). -/
def esOff : Nat := 0
def esSerial : Nat := 1
def esQuad : Nat := 2
def esFault : Nat := 3

def portState (s : State) (p : Nat) : Nat := getF s (ENC_PT_STAT_STATE p)

/-- The port is configured for a serial mode (R281). -/
def serialMode (s : State) (p : Nat) : Bool := decide (getF s (ENC_PT_CFG_MODE p) = 1 ∨ getF s (ENC_PT_CFG_MODE p) = 2)

/-- A port or wheel counts A and B (R281, R288). -/
def counts (s : State) (u : Nat) : Bool :=
  if u < 8 then decide (portState s u ≠ esOff) && (decide (getF s (ENC_PT_CFG_MODE u) = 3) || flag s (ENC_PT_CFG_QUAD_EN u))
  else decide (getF s (ENC_WH_CFG_MODE (u - 8)) = 1) && decide (getF s (ENC_WH_STAT_STATE (u - 8)) ≠ esOff)

/-- An input measures speed. -/
def unitOn (s : State) (u : Nat) : Bool :=
  if u < 8 then decide (portState s u ≠ esOff)
  else if u < 12 then decide (getF s (ENC_WH_STAT_STATE (u - 8)) ≠ esOff)
  else if u < 14 then flag s (SNS_ISO_CFG_EN (u - 12))
  else flag s (SNS_PLS_CFG_EN (u - 14))

/-- WIN of an input, in 0.5 ms (R287). -/
def unitWin (s : State) (u : Nat) : Nat :=
  max 1 (if u < 8 then getF s (ENC_PT_WIN_WIN u) else if u < 12 then getF s (ENC_WH_CFG_WIN (u - 8))
    else if u < 14 then getF s (SNS_ISO_CFG_WIN (u - 12)) else getF s (SNS_PLS_CFG_WIN (u - 14)))

/-- The count whose change gives the speed: C_rep, or POS of a port in SERIAL (R287). -/
def windowCount (s : State) (u : Nat) : Int :=
  if u < 8 ∧ portState s u = esSerial then ((rd s (ENC_PT_POS u)).toNat : Int) else (cntAt s u).rep

/-- Show a speed in counts/s. -/
def showSpeed (s : State) (u : Nat) (v : Int) : State :=
  if u < 8 then wr s (ENC_PT_SPD u) (BitVec.ofInt 32 v) else if u < 12 then wr s (ENC_WH_SPD (u - 8)) (BitVec.ofInt 32 v)
  else if u < 14 then wr s (SNS_ISO_SPD (u - 12)) (BitVec.ofInt 32 v) else wr s (SNS_PLS_FREQ (u - 14)) (BitVec.ofInt 32 v)

/-- The speed windows of an input start anew at instant `t`; SPD reads 0 until the first full one (R287). -/
def startWindow (s : State) (u t : Nat) : State :=
  let w := windowCount s u
  showSpeed (modCnt s u fun c => { c with win := t, winAt := w, edges := 0, fast := false }) u 0

/-- Show faults and fallbacks in ENC_STAT. -/
def showEnc (s : State) : State :=
  let sum := fun (n : Nat) (f : Nat → Bool) => ((List.range n).map fun i => bit (f i) i).sum
  let s := setF s ENC_STAT_PT_FLT (sum 8 fun p => decide (portState s p = esFault))
  let s := setF s ENC_STAT_WH_FLT (sum 4 fun w => decide (getF s (ENC_WH_STAT_STATE w) = esFault))
  setF s ENC_STAT_FALLBK (sum 8 fun p => flag s (ENC_PT_STAT_FALLBK p))

/-! ### Positions (R283, R285, R286) -/

/-- The single-turn bits of a position, left-aligned in 16 bits (R283). -/
def serialAngle (s : State) (p pos : Nat) : Nat :=
  let st := getF s (ENC_PT_WORD_ST p)
  let x := pos % 2 ^ st
  if st ≤ 16 then x * 2 ^ (16 - st) else x / 2 ^ (st - 16)

/-- Set ANG and ANGV. -/
def setAngle (s : State) (p ang : Nat) (v : Bool) : State := setB (setF s (ENC_PT_ANG_ANG p) ang) (ENC_PT_ANG_ANGV p) v

/-- ANG of a port in QUAD without fallback (R286). -/
def quadAngle (s : State) (p : Nat) : State :=
  let cpr := getF s (ENC_PT_CPR_CPR p)
  if cpr = 0 ∨ !flag s (ENC_PT_STAT_REFD p) then setB s (ENC_PT_ANG_ANGV p) false
  else
    let ref : Int := if getF s (ENC_PT_CFG_ZMODE p) = 0 then (rd s (ENC_PT_IDX p)).toInt else 0
    setAngle s p ((((cntAt s p).rep - ref) % cpr) * 65536 / cpr).toNat true

/-- POS and ANG follow the reported count in QUAD: directly, or from the last word on fallback (R283, R285, R286). -/
def followCount (s : State) (p t : Nat) : State :=
  if portState s p = esQuad then
    let s := modSer s p fun x => { x with posAt := some t }
    if flag s (ENC_PT_STAT_FALLBK p) then
      let x := serAt s p
      let pos : Int := (x.word.getD 0 : Nat) + ((cntAt s p).rep - x.fbRep) * 2 ^ getF s (ENC_PT_CFG_QSH p)
      setAngle (wr s (ENC_PT_POS p) (BitVec.ofInt 32 pos)) p (serialAngle s p (unsigned 40 pos)) true
    else quadAngle (wr s (ENC_PT_POS p) (BitVec.ofInt 32 (cntAt s p).rep)) p
  else s

/-- C_rep follows C_raw (R285). -/
def reportCount (s : State) (u t : Nat) : State :=
  let c := cntAt s u
  let hyst := if u < 8 then flag s (ENC_PT_CFG_HYST u) else flag s (ENC_WH_CFG_HYST (u - 8))
  let rep := if hyst then min c.raw (max c.rep (c.raw - 1)) else c.raw
  if rep = c.rep then s
  else
    let s := modCnt s u fun c => { c with rep := rep }
    let down := decide (rep < c.rep)
    if u < 8 then followCount (setB s (ENC_PT_STAT_DIR u) down) u t
    else setB (wr s (ENC_WH_CNT (u - 8)) (BitVec.ofInt 32 rep)) (ENC_WH_STAT_DIR (u - 8)) down

/-- The count is set to 0 by an index (R286). -/
def zeroCount (s : State) (p t : Nat) : State := followCount (modCnt s p fun c => { c with raw := 0, rep := 0 }) p t

/-! ### Faults (R281, R284, R288) -/

/-- A port or wheel changes its state: its speed windows start anew at boundary `t` (R287). -/
def setUnitState (s : State) (u st t : Nat) : State :=
  let s := if u < 8 then setF s (ENC_PT_STAT_STATE u) st else setF s (ENC_WH_STAT_STATE (u - 8)) st
  showEnc (startWindow s u t)

/-- Instance code of a record (R412). -/
def unitInst (u : Nat) : Nat := if u < 8 then u else 0x10 + (u - 8)

/-- Entry to FAULT, at once (R281); the speed windows start at the boundary that follows (R287). -/
def enterFault (s : State) (u : Nat) : State :=
  let s := setUnitState s u esFault (nowTick s + slotsPerStep)
  record (if u < 8 then setB (modSer s u fun x => { x with ret := none }) (ENC_PT_ANG_ANGV u) false else s) 0x8001 (unitInst u) []

/-- TH and WIN (in 5 ns) of the illegal windows. -/
def illTh (s : State) (u : Nat) : Nat := if u < 8 then getF s (ENC_PT_WIN_ILL_TH u) else getF s (ENC_WH_ILL_TH (u - 8))

def illWin (s : State) (u : Nat) : Nat :=
  max 1 (if u < 8 then getF s (ENC_PT_WIN_ILL_WIN u) else getF s (ENC_WH_ILL_WIN (u - 8))) * perMs

/-- The illegal count of the window that contains `t`. -/
def illIn (s : State) (u t : Nat) : Nat :=
  let c := cntAt s u
  if t < c.illWin + illWin s u then c.ill else 0

/-- An illegal transition at `t` (R284, R288). -/
def illegal (s : State) (u t : Nat) : State :=
  let s := if u < 8 then bump s (ENC_PT_CNT_ILLEGAL u) else bump s (ENC_WH_FLT_ILLEGAL (u - 8))
  let w := illWin s u
  let s := modCnt s u fun c => if t < c.illWin + w then { c with ill := c.ill + 1 }
    else { c with illWin := c.illWin + (t - c.illWin) / w * w, ill := 1 }
  if illTh s u = 0 ∨ (cntAt s u).ill < illTh s u then s
  else if u < 8 then
    let s := setB s (ENC_PT_FLT_ILL u) true
    if portState s u = esQuad then enterFault s u
    else if portState s u = esSerial then setB s (ENC_PT_STAT_QFLT u) true
    else s
  else
    let s := setB s (ENC_WH_FLT_ILL (u - 8)) true
    if getF s (ENC_WH_STAT_STATE (u - 8)) = esFault then s else enterFault s u

/-! ### Quadrature, index and pulses (R284 to R288) -/

/-- Position of a pair of levels in the sequence in which A leads B. -/
def quadPos (a b : Bool) : Nat := match a, b with
  | false, false => 0
  | true, false => 1
  | true, true => 2
  | false, true => 3

/-- Move the raw count. -/
def moveCount (s : State) (u t : Nat) (d : Int) : State :=
  let inv := if u < 8 then flag s (ENC_PT_CFG_INV u) else flag s (ENC_WH_CFG_INV (u - 8))
  reportCount (modCnt s u fun c => { c with raw := c.raw + if inv then -d else d }) u t

/-- Copy levels to the emulation outputs that take this source (R290): `src` 2 a wheel, 3 an ISO 11786 input. -/
def copyEmu (s : State) (src idx : Nat) (a b : Bool) : State :=
  [0, 1].foldl (fun s k =>
    if flag s (ENC_EMU_CFG_EN k) && decide (getF s (ENC_EMU_CFG_SRC k) = src) && decide (getF s (ENC_EMU_CFG_IDX k) = idx) then
      modEmu s k fun e => { e with a := a, b := b }
    else s) s

/-- FLT of a port or wheel. -/
def fltOf (s : State) (u : Nat) : Nat := if u < 8 then getF s (ENC_PT_CFG_FLT u) else getF s (ENC_WH_CFG_FLT (u - 8))

/-- The levels of A and B of a port or wheel have become `a` and `b` for `n` samples at instant `t`: the glitch filter takes them after
FLT + 1 samples (R284). -/
def quadChange (s : State) (u : Nat) (a b : Bool) (n t : Nat) : State :=
  if n ≤ fltOf s u then s
  else
    let c := cntAt s u
    let d := (quadPos a b + 4 - quadPos c.a c.b) % 4
    let s := modCnt s u fun c => { c with a := a, b := b }
    let s := if u < 8 then setF s (ENC_PT_STAT_LVL u) (bit a 0 + bit b 1 + bit ((getF s (ENC_PT_STAT_LVL u)).testBit 2) 2)
      else copyEmu s 2 (u - 8) a b
    if !counts s u then s
    else if d = 2 then illegal s u t
    else if d = 1 then moveCount s u t 1
    else if d = 3 then moveCount s u t (-1)
    else s

/-- QUAD_TRANSITION of port `u` (0 to 7) or wheel `u − 8` (8 to 11). -/
def execQuadTransition (u : Nat) (a b : Bool) (n t : Nat) (s : State) : Host.Outcome State Fault Refusal :=
  answer (decide (u < 12)) (quadChange s u a b n t)

/-- Z of a port has taken a level for `n` samples: a rising edge of the filtered Z captures the count (R284, R286). -/
def indexEdge (s : State) (p : Nat) (z : Bool) (n t : Nat) : State :=
  let was := (getF s (ENC_PT_STAT_LVL p)).testBit 2
  if n ≤ fltOf s p ∨ z = was then s
  else
    let s := setF s (ENC_PT_STAT_LVL p) (getF s (ENC_PT_STAT_LVL p) % 4 + bit z 2)
    if !z || !counts s p then s
    else
      let s := edgeEvent s p t
      let s := setB (wr s (ENC_PT_IDX p) (BitVec.ofInt 32 (cntAt s p).rep)) (ENC_PT_STAT_REFD p) true
      let m := getF s (ENC_PT_CFG_ZMODE p)
      if m = 2 ∨ (m = 1 ∧ !(serAt s p).zDone) then zeroCount (modSer s p fun x => { x with zDone := true }) p t
      else followCount s p t

def execIndexEdge (p : Nat) (z : Bool) (n t : Nat) (s : State) : Host.Outcome State Fault Refusal :=
  answer (decide (p < 8)) (indexEdge s p z n t)

/-- An edge of A of a wheel in a pulse mode that has lasted `n` samples, with the level of B (R284, R288). -/
def wheelPulse (s : State) (w : Nat) (rising bHigh : Bool) (n t : Nat) : State :=
  if n ≤ fltOf s (8 + w) then s
  else
    let s := copyEmu (modCnt s (8 + w) fun c => { c with a := rising, b := bHigh }) 2 w rising bHigh
    let m := getF s (ENC_WH_CFG_MODE w)
    if !rising || decide (getF s (ENC_WH_STAT_STATE w) = esOff) then s
    else if m = 2 then moveCount s (8 + w) t (if bHigh then 1 else -1)
    else if m = 3 then reportCount (modCnt s (8 + w) fun c => { c with raw := c.raw + 1 }) (8 + w) t
    else s

def execWheelPulse (w : Nat) (rising bHigh : Bool) (n t : Nat) (s : State) : Host.Outcome State Fault Refusal :=
  answer (decide (w < 4)) (wheelPulse s w rising bHigh n t)

/-! ### Serial reads (R281 to R283) -/

/-- A read starts at t_a + n·PER (R282). -/
def serialStart (s : State) (p : Nat) : State :=
  if serialMode s p ∧ portState s p ≠ esOff then
    let per := getF s (ENC_PT_REQ_PER p) * perUs
    modSer s p fun x => { x with reading := some (x.ta + x.n * per), n := x.n + 1 }
  else s

def execSerialReadStart (p : Nat) (s : State) : Host.Outcome State Fault Refusal := answer (decide (p < 8)) (serialStart s p)

/-- Gray code to binary, for words of up to 40 bits. -/
def grayToBin (n : Nat) : Nat := (List.range 40).foldl (fun a k => a ^^^ (n / 2 ^ (k + 1))) n

/-- CRC-6 with polynomial 0x43 over `n` bits, first bit most significant (R282; start value 0: log entry 30). -/
def crc6 (bits n : Nat) : Nat :=
  (List.range n).foldl (fun c k => (c * 2 % 64) ^^^ (if bits.testBit (n - 1 - k) != c.testBit 5 then 3 else 0)) 0

/-- The frame of a word is good: DAT of SSI high before it and low after it; a BiSS-C start bit within TMO (R282). -/
def framed (s : State) (p : Nat) (w : SerialWord) : Bool :=
  if getF s (ENC_PT_CFG_MODE p) = 1 then w.idle && w.stop
  else match w.startUs with
    | some n => decide (n ≤ getF s (ENC_PT_WORD_TMO p))
    | none => false

/-- A word is valid (R282). -/
def wordOk (s : State) (p : Nat) (w : SerialWord) : Bool :=
  if !framed s p w then false
  else if getF s (ENC_PT_CFG_MODE p) = 1 then true
  else
    let n := getF s (ENC_PT_WORD_NBITS p)
    let e := flag s (ENC_PT_CFG_ERRB p)
    let all := if e then w.bits % 2 ^ n * 4 + bit w.ne 1 + bit w.nw 0 else w.bits % 2 ^ n
    decide (w.crc % 64 = 63 - crc6 all (if e then n + 2 else n)) && (w.ne || !e)

/-- POS and ANG take a word's position (R283). -/
def placeWord (s : State) (p v t : Nat) : State :=
  setAngle (wr (modSer s p fun x => { x with word := some v, posAt := some t }) (ENC_PT_POS p) (BitVec.ofNat 32 v)) p (serialAngle s p v) true

/-- A valid word at its sample instant: RAW, and POS and ANG in SERIAL; on fallback, the return at the next boundary (R281, R283). -/
def takeWord (s : State) (p v t : Nat) : State :=
  let s := setF (wr s (ENC_PT_RAW_LO p) (BitVec.ofNat 32 v)) (ENC_PT_RAW_HI_POS p) (v / 2 ^ 32)
  let s := modSer s p fun x => { x with fails := 0 }
  if portState s p = esSerial then placeWord s p v t
  else if portState s p = esQuad ∧ flag s (ENC_PT_STAT_FALLBK p) ∧ (serAt s p).back then
    modSer s p fun x => { x with back := false, ret := some (v, t) }
  else s

/-- The return from fallback at a boundary: POS takes the word's value (R281). -/
def endFallback (s : State) (p : Nat) : State := match (serAt s p).ret with
  | none => s
  | some r =>
    let d := BitVec.ofNat 32 r.1 - rd s (ENC_PT_POS p)
    let s := placeWord (setB (modSer s p fun x => { x with ret := none }) (ENC_PT_STAT_FALLBK p) false) p r.1 r.2
    record (setUnitState s p esSerial (nowTick s)) 0x8003 p (leBytes 4 d.toNat)

/-- A read fails: the one that was to end a fallback does not (R281). -/
def readFails (s : State) (p : Nat) : State :=
  let s := bump (modSer s p fun x => { x with fails := x.fails + 1 }) (ENC_PT_CNT_SERR p)
  if portState s p = esSerial ∧ getF s (ENC_PT_REQ_ERR_MAX p) ≤ (serAt s p).fails then
    let s := setB s (ENC_PT_FLT_SERR p) true
    if flag s (ENC_PT_CFG_QUAD_EN p) && !flag s (ENC_PT_STAT_QFLT p) then
      let rep := (cntAt s p).rep
      let s := setB (modSer s p fun x => { x with fbRep := rep, back := false }) (ENC_PT_STAT_FALLBK p) true
      record (setUnitState s p esQuad (nowTick s + slotsPerStep)) 0x8002 p []
    else enterFault s p
  else if portState s p ≠ esSerial ∧ (serAt s p).back then
    setB (modSer s p fun x => { x with back := false }) (ENC_PT_FLT_SERR p) true
  else s

/-- SERIAL_READ_DONE with the word as received (R282, R283). -/
def serialDone (s : State) (p : Nat) (w : SerialWord) : State :=
  match (serAt s p).reading with
  | none => s
  | some t =>
    let s := modSer s p fun x => { x with reading := none }
    let biss := decide (getF s (ENC_PT_CFG_MODE p) = 2) && flag s (ENC_PT_CFG_ERRB p) && framed s p w
    let s := if biss then setB (setB s (ENC_PT_RAW_HI_NE p) w.ne) (ENC_PT_RAW_HI_NW p) w.nw else s
    let s := if biss && !w.ne then setB s (ENC_PT_FLT_NERR p) true else s
    let s := if biss && !w.nw then setB s (ENC_PT_FLT_NWARN p) true else s
    if wordOk s p w then
      let v := w.bits % 2 ^ getF s (ENC_PT_WORD_NBITS p)
      takeWord s p (if getF s (ENC_PT_CFG_MODE p) = 1 ∧ flag s (ENC_PT_CFG_GRAY p) then grayToBin v else v) t
    else readFails s p

def execSerialReadDone (p : Nat) (w : SerialWord) (s : State) : Host.Outcome State Fault Refusal :=
  answer (decide (p < 8)) (serialDone s p w)

/-! ### Modes, and the release of faults (R281) -/

/-- ENC_PT_CFG.MODE came into force at the next boundary (R281). -/
def portMode (s : State) (p : Nat) : State :=
  let b := nowTick s + slotsPerStep
  let m := getF s (ENC_PT_CFG_MODE p)
  let s := setB (setB s (ENC_PT_STAT_FALLBK p) false) (ENC_PT_STAT_QFLT p) false
  let s := modSer s p fun x => { x with ta := b, n := 0, reading := none, fails := 0, back := false, ret := none, zDone := false, word := none }
  let s := modCnt s p fun c => { c with ill := 0, illWin := b }
  if m = 0 then setUnitState (setB s (ENC_PT_ANG_ANGV p) false) p esOff b
  else followCount (setUnitState s p (if m = 3 then esQuad else esSerial) b) p b

/-- ENC_WH_CFG.MODE came into force (R288). -/
def wheelMode (s : State) (w : Nat) : State :=
  let b := nowTick s + slotsPerStep
  let m := getF s (ENC_WH_CFG_MODE w)
  let s := modCnt s (8 + w) fun c => { c with ill := 0, illWin := b }
  let s := setB s (ENC_WH_STAT_DIRV w) (decide (m = 1 ∨ m = 2))
  setUnitState s (8 + w) (if m = 0 then esOff else esSerial) b

/-- The condition of a port's SERR or ILL is present (R281). -/
def serrHere (s : State) (p : Nat) : Bool := decide (getF s (ENC_PT_REQ_ERR_MAX p) ≤ (serAt s p).fails)

def illHere (s : State) (u : Nat) : Bool := decide (illTh s u ≠ 0) && decide (illTh s u ≤ illIn s u (nowTick s + slotsPerStep))

/-- A W1C write to ENC_PT_FLT: a flag whose condition persists stays; the release of FAULT, the end of a fallback, and QFLT
(R281, R284). -/
def portFltClear (s : State) (p v : Nat) : State :=
  let serr := v.testBit 0 && flag s (ENC_PT_FLT_SERR p) && (flag s (ENC_PT_STAT_FALLBK p) || !serrHere s p)
  let ill := v.testBit 1 && flag s (ENC_PT_FLT_ILL p) && !illHere s p
  let s := if serr then setB s (ENC_PT_FLT_SERR p) false else s
  let s := if ill then setB (setB s (ENC_PT_FLT_ILL p) false) (ENC_PT_STAT_QFLT p) false else s
  let s := if v.testBit 2 then setB s (ENC_PT_FLT_NERR p) false else s
  let s := if v.testBit 3 then setB s (ENC_PT_FLT_NWARN p) false else s
  if portState s p = esFault then
    if (serr || ill) && !flag s (ENC_PT_FLT_SERR p) && !flag s (ENC_PT_FLT_ILL p) then
      let b := nowTick s + slotsPerStep
      let s := setB (modSer s p fun x => { x with zDone := false }) (ENC_PT_STAT_REFD p) false
      let s := setB s (ENC_PT_STAT_FALLBK p) false
      followCount (setUnitState s p (if serialMode s p then esSerial else esQuad) b) p b
    else s
  else if serr ∧ flag s (ENC_PT_STAT_FALLBK p) then modSer s p fun x => { x with back := true }
  else s

/-- A W1C write to ENC_WH_FLT (R288). -/
def wheelFltClear (s : State) (w v : Nat) : State :=
  if v.testBit 0 && flag s (ENC_WH_FLT_ILL w) && !illHere s (8 + w) then
    let s := setB s (ENC_WH_FLT_ILL w) false
    if getF s (ENC_WH_STAT_STATE w) = esFault then setUnitState s (8 + w) esSerial (nowTick s + slotsPerStep) else s
  else s

/-! ### Speed windows (R287, R289, R291) -/

/-- The end of a speed window. -/
def windowEnd (s : State) (u : Nat) : State :=
  if !unitOn s u then s
  else
    let n := unitWin s u
    let c := cntAt s u
    let t := c.win + n * 100000
    let v := windowCount s u
    let dv := if u < 8 ∧ portState s u = esSerial then
        signed (min 32 (getF s (ENC_PT_WORD_NBITS u))) (unsigned (min 32 (getF s (ENC_PT_WORD_NBITS u))) (v - c.winAt))
      else v - c.winAt
    let s := modCnt s u fun c => { c with win := t, winAt := v, edges := 0, fast := false }
    if u < 12 then
      let flt := if u < 8 then decide (portState s u = esFault) else decide (getF s (ENC_WH_STAT_STATE (u - 8)) = esFault)
      let s := if u < 8 then modSer s u fun x => { x with spdAt := some t } else s
      showSpeed s u (if flt then 0 else roundDiv (dv * 1000000) (n * 500))
    else if u < 14 then
      let i := u - 12
      let spd := roundDiv ((c.edges : Int) * 100000000000000) (n * 500 * max 1 (getF s (SNS_ISO_CFG_PPM i)))
      let back := flag s (SNS_ISO_CFG_DIRPIN i) && (c.b == flag s (SNS_ISO_CFG_DIRPOL i))
      let s := showSpeed s u (if back then -spd else spd)
      let s := setF s (SNS_ISO_STAT_FREQ i) (min 0xFFFFFF (roundDiv ((c.edges : Int) * 100000000) (n * 500)).toNat)
      let s := setB s (SNS_ISO_STAT_DIRV i) (flag s (SNS_ISO_CFG_DIRPIN i))
      if c.fast then s else setB (setB s (SNS_ISO_STAT_OVF i) false) (SNS_ISO_STAT_VALID i) true
    else
      let s := setF s (SNS_PLS_STAT_EDGES (u - 14)) (min 65535 c.edges)
      showSpeed s u (roundDiv ((c.edges : Int) * 1000000000) (n * 500))

def execSpeedWindowEnd (u : Nat) (s : State) : Host.Outcome State Fault Refusal := answer (decide (u < 22)) (windowEnd s u)

/-- An edge on SPD_IN_i or on SPD_DIR_i at instant `t` (R289, R290). -/
def speedEdge (s : State) (i : Nat) (dir level : Bool) (t : Nat) : State :=
  let u := 12 + i
  let c := cntAt s u
  let s := modCnt s u fun c => if dir then { c with b := level } else { c with a := level }
  let s := copyEmu s 3 i (cntAt s u).a (cntAt s u).b
  if dir || !level || !unitOn s u then s
  else
    let fast := match c.lastEdge with
      | some x => decide (t < x + per100us)
      | none => false
    let s := modCnt s u fun c => { c with edges := c.edges + 1, lastEdge := some t, fast := c.fast || fast }
    if fast then setB (setB s (SNS_ISO_STAT_OVF i) true) (SNS_ISO_STAT_VALID i) false else s

def execSpeedSignalEdge (i : Nat) (dir level : Bool) (t : Nat) (s : State) : Host.Outcome State Fault Refusal :=
  answer (decide (i < 2)) (speedEdge s i dir level t)

/-- A level on PLS_IN_f that came with an edge and lasted `len` × 10 ns (R291). -/
def flowEdge (s : State) (f : Nat) (rising : Bool) (len : Nat) : State :=
  if !flag s (SNS_PLS_CFG_EN f) then s
  else if len < max 1 (getF s (SNS_PLS_CFG_DEB f) * 100) then bump s (SNS_PLS_STAT_GLITCH f)
  else if (getF s (SNS_PLS_CFG_EDGE f)).testBit (if rising then 0 else 1) then
    wr (modCnt s (14 + f) fun c => { c with edges := c.edges + 1 }) (SNS_PLS_TOT f) (rd s (SNS_PLS_TOT f) + 1)
  else s

def execFlowEdge (f : Nat) (rising : Bool) (len : Nat) (s : State) : Host.Outcome State Fault Refusal :=
  answer (decide (f < 8)) (flowEdge s f rising len)

/-! ### Emulation (R290) -/

/-- Speed of an emulation output's source, µm/s; none for a copied source. -/
def emuSpeed (s : State) (k : Nat) : Option Int :=
  match getF s (ENC_EMU_CFG_SRC k) with
  | 0 => some (if flag s KIN_STAT_MOTION_VALID then s.kin.car.u else 0)
  | 1 => some (if flag s KIN_STAT_MOTION_VALID then (chKin s (getF s (ENC_EMU_CFG_IDX k))).sdot else 0)
  | _ => none

/-- 100 kHz, and one turn of the accumulator: |v|·PPM is in 10^−8 Hz, and the clock runs at 200 MHz (R290). -/
def emuLimit : Nat := 100000 * 10 ^ 8

def emuTurn : Nat := 200000000 * 10 ^ 8

def emuAt (s : State) (k : Nat) : Emu := sparseGet (fun _ => Emu.reset) s.enc.emu k

/-- The accumulator of an output runs on to instant `t`. -/
def emuRun (s : State) (k t : Nat) : State := modEmu s k fun e => { e with acc := e.acc + e.rate * (t - e.at_), at_ := max e.at_ t }

/-- The frequency is taken at a step boundary, without a phase step (R290). -/
def emuBoundary (s : State) (k : Nat) : State :=
  let v := match emuSpeed s k with
    | some v => if flag s (ENC_EMU_CFG_EN k) then v else 0
    | none => 0
  let f := (absI v).toNat * getF s (ENC_EMU_RES_PPM k)
  let s := modEmu (emuRun s k (nowTick s)) k fun e => { e with rate := min emuLimit f, fwd := if v = 0 then e.fwd else decide (0 < v) }
  setB (setF s (ENC_EMU_STAT_FREQ k) (roundDiv (min emuLimit f : Nat) 1000000).toNat) (ENC_EMU_STAT_LIMIT k) (decide (emuLimit < f))

/-- The accumulator has passed the next edge of an output at instant `t`: a quarter of a turn in quadrature, half a turn of pulses. -/
def emuEdge (s : State) (k t : Nat) : State :=
  let s := emuRun s k t
  let form := flag s (ENC_EMU_CFG_FORM k)
  let way := if form then emuTurn / 2 else emuTurn / 4
  if !flag s (ENC_EMU_CFG_EN k) || decide (2 ≤ getF s (ENC_EMU_CFG_SRC k)) || decide ((emuAt s k).acc < way) then s
  else if form then modEmu s k fun e => { e with acc := e.acc - way, a := !e.a, b := e.fwd }
  else modEmu s k fun e =>
    let q := if e.fwd then (e.phase + 1) % 4 else (e.phase + 3) % 4
    { e with acc := e.acc - way, phase := q, a := decide (q = 1 ∨ q = 2), b := decide (q = 2 ∨ q = 3) }

def execEmuOutputEdge (k t : Nat) (s : State) : Host.Outcome State Fault Refusal := answer (decide (k < 2)) (emuEdge s k t)

/-! ### Analogue inputs (R292) -/

/-- Conversions in FT milliseconds. -/
def ainTime (s : State) (a : Nat) : Nat := getF s (SNS_AIN_CFG_FT a) * 100

def ainAt (s : State) (a : Nat) : Ain := sparseGet (fun _ => Ain.reset) s.enc.ain a

/-- FAULT is set once CODE has been beyond a limit for FT. -/
def ainFault (s : State) (a : Nat) : State :=
  if flag s (SNS_AIN_CFG_EN a) && !flag s (SNS_AIN_VAL_FAULT a) && decide (0 < (ainAt s a).out ∧ ainTime s a ≤ (ainAt s a).out) then
    let high := decide (getF s (SNS_AIN_LIM_HI a) < getF s (SNS_AIN_VAL_CODE a))
    let s := setB (setB s (SNS_AIN_VAL_FAULT a) true) (if high then SNS_AIN_FLT_HIF a else SNS_AIN_FLT_LOF a) true
    record s 0x8004 a (leBytes 1 (if high then 1 else 0))
  else s

/-- FAULT clears once CODE has been back within its limits for FT. -/
def ainClear (s : State) (a : Nat) : State :=
  if flag s (SNS_AIN_VAL_FAULT a) && decide (0 < (ainAt s a).within ∧ ainTime s a ≤ (ainAt s a).within) then
    setB s (SNS_AIN_VAL_FAULT a) false
  else s

/-- A conversion with its code. -/
def ainConvert (s : State) (a code : Nat) : State :=
  if !flag s (SNS_AIN_CFG_EN a) then s
  else
    let s := modAin s a fun x => { x with conv := (code :: x.conv).take 128 }
    let l := (ainAt s a).conv.take (2 ^ getF s (SNS_AIN_CFG_AVG a))
    let c := (roundDiv (l.sum : Nat) (max 1 l.length)).toNat
    let s := setF s (SNS_AIN_VAL_CODE a) c
    let outside := decide (c < getF s (SNS_AIN_LIM_LO a) ∨ getF s (SNS_AIN_LIM_HI a) < c)
    let s := modAin s a fun x => if outside then { x with out := x.out + 1, within := 0 } else { x with out := 0, within := x.within + 1 }
    ainClear (ainFault s a) a

def execAinConversion (a code : Nat) (s : State) : Host.Outcome State Fault Refusal :=
  answer (decide (a < 16 ∧ code < 65536)) (ainConvert s a code)

def execAinFault (a : Nat) (s : State) : Host.Outcome State Fault Refusal := answer (decide (a < 16)) (ainFault s a)

def execAinFaultClear (a : Nat) (s : State) : Host.Outcome State Fault Refusal := answer (decide (a < 16)) (ainClear s a)

/-! ### The IMU (R293, R294) -/

/-- A signed 16-bit field of a burst. -/
def imuField (s : State) (b : List Byte) (f : Field) : Int :=
  let o := getF s f
  let x := leAt b o 1
  let y := leAt b (o + 1) 1
  signed 16 (if flag s SNS_IMU_CFG_BE then x * 256 + y else y * 256 + x)

/-- The byte that starts a transfer with the IMU: the register with the read flag in bit 7 (R293). -/
def imuAddr (s : State) (addr : Nat) (read : Bool) : Byte := BitVec.ofNat 8 (addr % 128 + bit (read != flag s SNS_IMU_CFG_RDBIT) 7)

/-- A DRDY edge at `t` with the burst that is read (R293, R294). An axis outside 32 bits has no stated value. -/
def imuDrdy (s : State) (t : Nat) (b : List Byte) : State :=
  if !flag s SNS_IMU_CFG_EN then s
  else
    let s := edgeEvent s 8 t
    let early := match s.enc.drdy with
      | some x => decide (t < x + 475 * perUs)
      | none => false
    if early then bump s SNS_IMU_STAT_FAST
    else
      let tx := [imuAddr s (getF s SNS_IMU_BURST_ADDR) true]
      let s := { s with enc := { s.enc with drdy := some t, imuDead := false, imuTx := tx } }
      let g := [SNS_IMU_MAP_GX, SNS_IMU_MAP_GY, SNS_IMU_MAP_GZ].map (imuField s b)
      let a := [SNS_IMU_MAP_AX, SNS_IMU_MAP_AY, SNS_IMU_MAP_AZ].map (imuField s b)
      let s := (g.zipIdx 0).foldl (fun s x => wr s (SNS_IMU_GYR x.2) (BitVec.ofInt 32 (fit 32 (x.1 * (rd s SNS_IMU_GSC).toNat)))) s
      let s := (a.zipIdx 0).foldl (fun s x => wr s (SNS_IMU_ACC x.2) (BitVec.ofInt 32 (fit 32 (roundDiv (x.1 * (rd s SNS_IMU_ASC).toNat) 256)))) s
      setB (setB s SNS_IMU_STAT_VALID true) SNS_IMU_STAT_SAT ((g ++ a).any fun x => decide (x = -32768 ∨ x = 32767))

def execImuDrdy (t : Nat) (b : List Byte) (s : State) : Host.Outcome State Fault Refusal :=
  answer (decide (b.length = getF s SNS_IMU_BURST_LEN)) (imuDrdy s t b)

/-- No edge has been accepted for TMO ms at instant `t` (R294). -/
def imuTimeout (s : State) (t : Nat) : State :=
  if flag s SNS_IMU_CFG_EN && !s.enc.imuDead && decide (s.enc.drdy.getD s.enc.imuOn + getF s SNS_IMU_CFG_TMO * perMs ≤ t) then
    let s := setB (setB { s with enc := { s.enc with imuDead := true } } SNS_IMU_STAT_VALID false) SNS_IMU_STAT_TMOF true
    record s 0x8005 noInst []
  else s

def execImuTimeout (t : Nat) (s : State) : Host.Outcome State Fault Refusal := .next (imuTimeout s t)

/-- SNS_IMU_CFG.EN came into force. -/
def imuEnable (s : State) : State :=
  { setB s SNS_IMU_STAT_VALID false with enc := { s.enc with drdy := none, imuOn := nowTick s + slotsPerStep, imuDead := false } }

/-- A transfer of one register starts by SNS_IMU_XFER (R294): what the device sends. -/
def imuXfer (s : State) (write : Bool) : State :=
  let a := imuAddr s (getF s SNS_IMU_XFER_ADDR) (!write)
  { s with enc := { s.enc with imuTx := if write then [a, BitVec.ofNat 8 (getF s SNS_IMU_XFER_DATA)] else [a] } }

/-- A read of one IMU register by SNS_IMU_XFER returns what the IMU sends (R294). -/
def imuRead (s : State) (v : Nat) : State := setF s SNS_IMU_XFER_RDATA v

/-! ### The step boundary -/

/-- Age of a sample instant at the last step boundary, µs. -/
def ageOf (s : State) (t : Option Nat) : Nat := match t with
  | some x => min 0xFFFF ((nowTick s - x) / perUs)
  | none => 0xFFFF

/-- A speed window that starts at this boundary takes its opening count here (R287). -/
def openWindow (s : State) (u : Nat) : State :=
  if (cntAt s u).win = nowTick s then
    let w := windowCount s u
    modCnt s u fun c => { c with winAt := w, edges := 0, fast := false }
  else s

/-- ENC and SNS at a step boundary: returns from fallback, opening speed windows, ages, emulation frequencies, the IMU's timeout (R281,
R287, R290, R294, R295). -/
def encBoundary (s : State) : State :=
  let s := (sparseKeys s.enc.ser).foldl endFallback s
  let s := (sparseKeys s.enc.cnt).foldl openWindow s
  let s := (sparseKeys s.enc.ser).foldl (fun s p =>
    setF (setF s (ENC_PT_AGE_POS p) (ageOf s (serAt s p).posAt)) (ENC_PT_AGE_SPD p) (ageOf s (serAt s p).spdAt)) s
  let s := setF s SNS_IMU_AGE_VAL (ageOf s s.enc.drdy)
  imuTimeout (emuBoundary (emuBoundary s 0) 1) (nowTick s)

/-! ### Register rules (R282, R294, R296) -/

/-- The unit is the source of a loop that is not OFF: MSRC code and number, or FRC's port (R296). -/
def loopUses (s : State) (src idx : Nat) : Bool :=
  (List.range 16).any fun n =>
    decide (getF s (CLE_LP_STAT_MODE n) ≠ 0)
      && ((decide (getF s (CLE_LP_MSRC_SRC n) = src) && decide (getF s (CLE_LP_MSRC_IDX n) = idx))
        || (decide (src = 2 ∨ src = 3) && flag s (CLE_LP_CTRL_FRC_EN n) && decide (getF s (CLE_LP_FRCCFG_PORT n) = idx)))

/-- A port may not be turned off (R296). -/
def portUsed (s : State) (p : Nat) : Bool :=
  loopUses s 2 p || loopUses s 3 p
    || (flag s KIN_CTRL_EN && hencUsed s && decide (getF s KIN_HENC_PORT = p))

/-- The read time of a word fits the period: (NBITS + 10) clock periods and 25 µs of rest (R282). -/
def readFits (nbits dv per : Nat) : Bool := decide ((nbits + 10) * (dv + 1) * 10 + 25000 ≤ per * 1000)

/-- Register rules of a shaft port at offset `o`. -/
def portCheck (s : State) (p o : Nat) (old v : Word) : Verdict :=
  let off := decide (portState s p = esOff)
  match o with
  | 0 =>
    let conf := bitsDiffer old v 2 2 || bitsDiffer old v 6 6 || bitsDiffer old v 21 20 || bitsDiffer old v 19 16
    inState (off || !(conf || (bitsDiffer old v 1 0 && decide (bitsOf v 1 0 ≠ 0))))
      (inState (!(decide (bitsOf old 1 0 ≠ 0 ∧ bitsOf v 1 0 = 0) && portUsed s p))
        (valid (decide (bitsOf v 5 4 ≠ 3) && decide (bitsOf v 20 16 ≤ 24))))
  | 1 =>
    inState (off || !(bitsDiffer old v 13 0))
      (valid (inRange 1 40 (bitsOf v 5 0) && inRange 1 32 (bitsOf v 13 8) && decide (bitsOf v 13 8 ≤ bitsOf v 5 0) && inRange 9 199 (bitsOf v 23 16)
        && decide (1 ≤ bitsOf v 31 24) && readFits (bitsOf v 5 0) (bitsOf v 23 16) (getF s (ENC_PT_REQ_PER p))))
  | 2 => valid (inRange 50 10000 (bitsOf v 13 0) && inRange 1 15 (bitsOf v 19 16)
      && readFits (getF s (ENC_PT_WORD_NBITS p)) (getF s (ENC_PT_WORD_DIV p)) (bitsOf v 13 0))
  | 3 => inState (off || !bitsDiffer old v 23 0) .ok
  | 4 => valid (inRange 1 200 (bitsOf v 7 0) && decide (1 ≤ bitsOf v 23 16))
  | _ => .ok

/-- Register rules of ENC and SNS (R294, R296). -/
def encCheck (s : State) (i : Nat) (old v : Word) : Verdict :=
  if 0x2000 ≤ i ∧ i < 0x2080 then portCheck s ((i - 0x2000) / 16) (i % 16) old v
  else if 0x2080 ≤ i ∧ i < 0x20A0 then
    let w := (i - 0x2080) / 8
    match i % 8 with
    | 0 =>
      inState (!(bitsDiffer old v 1 0 && decide (bitsOf old 1 0 ≠ 0 ∧ bitsOf v 1 0 ≠ 0)))
        (inState (!(decide (bitsOf old 1 0 ≠ 0 ∧ bitsOf v 1 0 = 0) && flag s KIN_CTRL_EN && (getF s KIN_CTRL_WHL_EN).testBit w))
          (valid (inRange 1 200 (bitsOf v 23 16))))
    | 1 => valid (decide (1 ≤ bitsOf v 15 8))
    | _ => .ok
  else if 0x20A0 ≤ i ∧ i < 0x20A8 then
    if i % 4 = 0 then inState (!(decide (bitsOf old 0 0 = 1) && (bitsDiffer old v 4 1 || bitsDiffer old v 24 16)))
      (valid (decide (bitsOf v 3 1 ≤ 3) && (match bitsOf v 3 1 with
        | 2 => decide (bitsOf v 24 16 < 4)
        | 3 => decide (bitsOf v 24 16 < 2)
        | _ => true)))
    else if i % 4 = 1 then valid (inRange 1 1000000 (bitsOf v 19 0))
    else .ok
  else if 0x2100 ≤ i ∧ i < 0x2108 then
    if i % 4 = 0 then
      inState (!(decide (bitsOf old 0 0 = 1 ∧ bitsOf v 0 0 = 0) && flag s KIN_CTRL_EN && (getF s KIN_CTRL_ISO_EN).testBit ((i - 0x2100) / 4)))
        (valid (inRange 1 200 (bitsOf v 15 8) && decide (100 ≤ bitsOf v 31 16)))
    else .ok
  else if 0x2110 ≤ i ∧ i < 0x2130 then
    if i % 4 = 0 then inState (!(decide (bitsOf old 0 0 = 1 ∧ bitsOf v 0 0 = 0) && loopUses s 1 ((i - 0x2110) / 4)))
      (valid (decide (bitsOf v 2 1 ≠ 0) && inRange 1 200 (bitsOf v 23 16)))
    else .ok
  else if 0x2140 ≤ i ∧ i < 0x2180 then
    if i % 4 = 0 then inState (!(decide (bitsOf old 0 0 = 1 ∧ bitsOf v 0 0 = 0) && loopUses s 0 ((i - 0x2140) / 4))) (valid (decide (1 ≤ bitsOf v 15 8)))
    else if i % 4 = 1 then valid (decide (bitsOf v 15 0 ≤ bitsOf v 31 16))
    else .ok
  else if i = SNS_IMU_CFG then
    inState (!(decide (bitsOf old 0 0 = 1) && bitsDiffer old v 23 1))
      (inState (!(decide (bitsOf old 0 0 = 1 ∧ bitsOf v 0 0 = 0) && flag s KIN_CTRL_EN && flag s KIN_CTRL_IMU_EN))
        (valid (inRange 9 199 (bitsOf v 15 8) && decide (1 ≤ bitsOf v 23 16)
          && (decide (bitsOf v 0 0 = 0) || [SNS_IMU_MAP_GX, SNS_IMU_MAP_GY, SNS_IMU_MAP_GZ, SNS_IMU_MAP_AX, SNS_IMU_MAP_AY, SNS_IMU_MAP_AZ].all
            fun f => decide (getF s f + 2 ≤ getF s SNS_IMU_BURST_LEN)))))
  else if i = SNS_IMU_BURST then inState (!(flag s SNS_IMU_CFG_EN && decide (old ≠ v))) (valid (inRange 2 24 (bitsOf v 12 8)))
  else if i = SNS_IMU_MAP then inState (!(flag s SNS_IMU_CFG_EN && decide (old ≠ v))) .ok
  else if i = SNS_IMU_XFER then inState (!(flag s SNS_IMU_CFG_EN && decide (bitsOf v 17 16 ≠ 0))) .ok
  else .ok

/-- What a write to an ENC or SNS register that changed it does beside storing it (R281, R282, R287, R290, R292, R294). -/
def encEffect (s : State) (i : Nat) (old : Word) : State :=
  let b := nowTick s + slotsPerStep
  let new := rd s i
  if 0x2000 ≤ i ∧ i < 0x2080 then
    let p := (i - 0x2000) / 16
    match i % 16 with
    | 0 => if bitsDiffer old new 1 0 then portMode s p else if bitsDiffer old new 3 3 then reportCount s p b else s
    | 2 => if bitsDiffer old new 13 0 then modSer s p fun x => { x with ta := b, n := 0 } else s
    | 4 => if bitsDiffer old new 7 0 then startWindow s p b else s
    | _ => s
  else if 0x2080 ≤ i ∧ i < 0x20A0 then
    let w := (i - 0x2080) / 8
    if i % 8 ≠ 0 then s
    else if bitsDiffer old new 1 0 then wheelMode s w
    else
      let s := if bitsDiffer old new 2 2 then reportCount s (8 + w) b else s
      if bitsDiffer old new 23 16 then startWindow s (8 + w) b else s
  else if 0x20A0 ≤ i ∧ i < 0x20A8 then
    let k := (i - 0x20A0) / 4
    if i % 4 ≠ 0 then s
    else if bitsOf new 0 0 = 0 then modEmu s k fun _ => Emu.reset
    else if bitsOf old 0 0 = 1 then s
    else
      let src := bitsOf new 3 1
      let c := cntAt s ((if src = 2 then 8 else 12) + bitsOf new 24 16)
      modEmu s k fun e => { e with at_ := b, a := decide (2 ≤ src) && c.a, b := decide (2 ≤ src) && c.b }
  else if 0x2100 ≤ i ∧ i < 0x2108 then
    let k := (i - 0x2100) / 4
    let s := if i % 4 = 0 then setB s (SNS_ISO_STAT_DIRV k) (bitsOf new 1 1 = 1) else s
    if i % 4 = 0 ∧ (bitsDiffer old new 0 0 ∨ bitsDiffer old new 15 8) then
      let s := startWindow (modCnt s (12 + k) fun c => { c with lastEdge := none }) (12 + k) b
      if bitsDiffer old new 0 0 then setB (setB s (SNS_ISO_STAT_VALID k) false) (SNS_ISO_STAT_OVF k) false else s
    else s
  else if 0x2110 ≤ i ∧ i < 0x2130 then
    if i % 4 = 0 ∧ (bitsDiffer old new 0 0 ∨ bitsDiffer old new 23 16) then startWindow s (14 + (i - 0x2110) / 4) b else s
  else if 0x2140 ≤ i ∧ i < 0x2180 then
    if i % 4 = 0 ∧ bitsDiffer old new 0 0 then
      setB (modAin s ((i - 0x2140) / 4) fun _ => Ain.reset) (SNS_AIN_VAL_FAULT ((i - 0x2140) / 4)) false
    else s
  else if i = SNS_IMU_CFG then (if bitsDiffer old new 0 0 then imuEnable s else s)
  else s

/-- A reset of ENC and SNS (R39). -/
def encReset (s : State) : State :=
  let s := dropLines s fun l => decide (l ≤ 8)
  { resetRegs s (fun i => decide (i / 256 = 0x20 ∨ i / 256 = 0x21)) with enc := EncState.reset }

end Sys2Proof.Machine
end

