-- ==== Sys2Proof/Machine/Cle.lean ====
section
/-!
DEFINITION. Sys2Proof/Machine/Cle.lean: the control loop engine (chapter 8): numbers, measurements and setpoints, one period,
gain regions, friction, outputs, modes, saturation supervision, injection and capture.
-/
namespace Sys2Proof.Machine

def loopsAll : List Nat := List.range 16

def loopAt (s : State) (n : Nat) : Loop := sparseGet (fun _ => Loop.reset) s.cle.loops n

def modLoop (s : State) (n : Nat) (f : Loop → Loop) : State :=
  { s with cle := { s.cle with loops := sparseMod (fun _ => Loop.reset) s.cle.loops n f } }

/-! ### Numbers (R231 to R235) -/

def sat16 (x : Int) : Int := clampI (-32767) 32767 x

def sat32 (x : Int) : Int := clampI (-2147483647) 2147483647 x

/-- round(x·2^k), halves away from zero. -/
def scale2 (x k : Int) : Int := if 0 ≤ k then x * 2 ^ k.toNat else roundDiv x (2 ^ (-k).toNat)

/-- A magnitude as CLE_LP_HEAD shows it: 0xFFFF for a value that saturated. -/
def headOf (x : Int) : Nat := if 32767 < absI x then 0xFFFF else (absI x).toNat

/-- Truncation towards zero. -/
def truncDiv (a : Int) (b : Nat) : Int := if 0 ≤ a then a / b else -((-a) / b)

def eIn (s : State) (n : Nat) : Int := getF s (CLE_LP_FMT_E_IN n)
def eOut (s : State) (n : Nat) : Int := getF s (CLE_LP_FMT_E_OUT n)

/-! ### Measurement and setpoint (R236 to R239) -/

/-- The raw value of the measurement source (R236, R295). -/
def measRaw (s : State) (n : Nat) : Int :=
  let i := getF s (CLE_LP_MSRC_IDX n)
  match getF s (CLE_LP_MSRC_SRC n) with
  | 0 => getF s (SNS_AIN_VAL_CODE i)
  | 1 => (rd s (SNS_PLS_FREQ i)).toInt
  | 2 => (rd s (ENC_PT_SPD i)).toInt
  | 3 => (rd s (ENC_PT_POS i)).toInt
  | _ => 0

/-- The measurement source reports a fault (R237, R295). -/
def measFault (s : State) (n : Nat) : Bool :=
  let i := getF s (CLE_LP_MSRC_IDX n)
  match getF s (CLE_LP_MSRC_SRC n) with
  | 0 => flag s (SNS_AIN_VAL_FAULT i)
  | 2 => decide (portState s i = esFault)
  | 3 => decide (portState s i = esFault)
  | _ => false

/-- No measurement source is selected. -/
def noMeas (s : State) (n : Nat) : Bool := decide (getF s (CLE_LP_MSRC_SRC n) = 7)

/-- y before saturation (R236). -/
def measValue (s : State) (n : Nat) : Int :=
  if noMeas s n then 0 else roundDiv ((measRaw s n - (rd s (CLE_LP_MOFS n)).toInt) * (rd s (CLE_LP_MSC n)).toInt) 65536

/-- v of GEAR at `t` with R239's terms, × 200,000,000: speed in µm/s, acceleration in µm/s², of boundary `b`. -/
def gearAt (s : State) (n t b : Nat) (v a : Int) : Int :=
  v * 200000000 + (if flag s (CLE_LP_CTRL_GACC n) then a * ((t : Int) - b) else 0)

/-- v of GEAR at sample instant `t`, × 200,000,000, from the most recent completed phase 3 (R239). Phase 3 of the present step is
complete 120 µs after its boundary; whether it is before that is free (log entry 63). -/
def gearSpeed (s : State) (n t : Nat) : State × Int :=
  let c := getF s (CLE_LP_SSRC_CH n)
  if !flag s KIN_STAT_MOTION_VALID || !chUsed s c then (s, 0)
  else
    let x := loopAt s n
    let k := chKin s c
    let new := gearAt s n t (nowTick s) k.sdot k.sddot
    if nowTick s + 120 * perUs ≤ t then (s, new)
    else
      let f := fresh s
      (f.2, if Config.freeBool f.1 then new else gearAt s n t (nowTick s - slotsPerStep) x.gearV x.gearA)

/-- The setpoint r before saturation, at sample instant `t` (R238, R239). -/
def setpoint (s : State) (n t : Nat) : State × Int :=
  let ratio := (rd s (CLE_LP_RATIO n)).toInt
  match getF s (CLE_LP_SSRC_SRC n) with
  | 0 => (s, getI s (CLE_LP_SP_VAL n))
  | 1 => (s, roundDiv (getF s (MAP_ZONE_ZRATE (getF s (CLE_LP_SSRC_ZONE n))) * ratio) (2 ^ 24))
  | 2 =>
    let v := gearSpeed s n t
    (v.1, roundDiv (v.2 * ratio) (2 ^ 24 * 200000000))
  | _ =>
    let m := getF s (CLE_LP_SSRC_LOOP n)
    (s, scale2 (loopAt s m).written (eOut s m - eIn s n))

/-! ### Friction and cogging (R241, R242) -/

/-- F before saturation. -/
def frictionTerm (s : State) (n : Nat) : Int :=
  let p := getF s (CLE_LP_FRCCFG_PORT n)
  if !flag s (CLE_LP_CTRL_FRC_EN n) || decide (portState s p = esFault) then 0
  else
    let i := (getF s (ENC_PT_ANG_ANG p) / 256 + getF s (CLE_LP_FRCCFG_OFFS n)) % 256
    let cog := tint s .frc (256 * n + i) 0 2
    let fric := tint s .frc (256 * n + i) 2 2
    let w := (rd s (ENC_PT_SPD p)).toInt
    let vdb := getF s (CLE_LP_FRCCFG_VDB n)
    let sign : Int := if 0 < w then 1 else if w < 0 then -1 else 0
    cog + (if vdb = 0 ∨ (vdb : Int) ≤ absI w then fric * sign else roundDiv (fric * w) vdb)

def frcFault (s : State) (n : Nat) : Bool :=
  flag s (CLE_LP_CTRL_FRC_EN n) && decide (portState s (getF s (CLE_LP_FRCCFG_PORT n)) = esFault)

/-! ### Destinations (R244 to R246) -/

/-- The destination: kind, index and pair. -/
def dstKind (s : State) (n : Nat) : Nat := getF s (CLE_LP_DST_KIND n)
def dstIdx (s : State) (n : Nat) : Nat := getF s (CLE_LP_DST_IDX n)
def dstPair (s : State) (n : Nat) : Nat := getF s (CLE_LP_DST_PAIR n)

/-- A protective stage holds the destination off (R246). -/
def dstHeld (s : State) (n : Nat) : Bool :=
  match dstKind s n with
  | 1 => pwmHeldOff s (dstIdx s n)
  | 2 => pwmHeldOff s (dstIdx s n)
  | 3 => protectedOff s (dstIdx s n) || !enablesOk s || s.sys.tripped
  | 4 => remoteHeld s (dstIdx s n) || remoteSafe s (dstIdx s n) || decide ((remCh s (dstIdx s n)).fcode ≠ 0)
  | _ => false

/-- The leased resource of the destination: kind and number. -/
def dstRes (s : State) (n : Nat) : Option (Nat × Nat) :=
  match dstKind s n with
  | 1 => some (kPwm, dstIdx s n)
  | 2 => some (kPwm, dstIdx s n)
  | 3 => some (kCh, dstIdx s n)
  | 4 => some (kCh, dstIdx s n)
  | _ => none

/-- Slot `h` may drive the loop's destination. -/
def dstLeased (s : State) (h n : Nat) : Bool := match dstRes s n with
  | some r => holds s h r.1 r.2
  | none => true

/-- A loop in MANUAL or AUTO names the destination (R245). -/
def loopDrives (s : State) (kind idx pair : Nat) : Bool :=
  loopsAll.any fun n => decide (getF s (CLE_LP_STAT_MODE n) ≠ 0) && decide (dstIdx s n = idx)
    && (if kind = 1 then decide (dstKind s n = 2) || (decide (dstKind s n = 1) && decide (dstPair s n = pair)) else decide (dstKind s n = kind))

/-- The value in force of a remote channel's SET register is written (R216). -/
def remoteSet (s : State) (c v : Nat) : State :=
  modRemCh (setFjlCfg s c 6 (bitsSet (fjlCfg s c 6) 15 0 v)) c fun x => { x with vbase := (v : Int) * 65536 }

/-- Write u, a mantissa at E_OUT, to the destination at instant `t` (R244, R270). -/
def writeDst (s : State) (n t : Nat) (u : Int) : State :=
  let k := eOut s n - 32
  let num := if 0 ≤ k then u * 2 ^ k.toNat else u
  let den : Int := if 0 ≤ k then 1 else 2 ^ (-k).toNat
  let i := dstIdx s n
  match dstKind s n with
  | 1 => loopCompare s i (dstPair s n) num den t n
  | 2 => [0, 1, 2].foldl (fun s p => loopCompare s i p num den t n) s
  | 3 =>
    let v := (clampI 0 (if getF s (DRV_CH_MODE_MODE i) = 2 then 1000 else 6000) (roundDiv num den.toNat)).toNat
    setBase (setF s (DRV_CH_SET_VAL i) v) i v
  | 4 => remoteSet s i (clampI 0 (if bitsOf (fjlCfg s i 1) 1 0 = 2 then 1000 else 3000) (roundDiv num den.toNat)).toNat
  | _ => s

/-- LOOP_OUTPUT: at t_k + OPH the loop writes its output (R243, R244, R246). -/
def loopOutput (s : State) (n : Nat) : State :=
  match (loopAt s n).out with
  | none => s
  | some o =>
    let s := modLoop s n fun x => { x with out := none, written := o.2 }
    if dstHeld s n then s else writeDst s n o.1 o.2

def execLoopOutput (n : Nat) (s : State) : Host.Outcome State Fault Refusal := answer (decide (n < 16)) (loopOutput s n)

/-! ### Gain regions (R248) -/

/-- Bound k of a loop, 1 to 3. -/
def bound (s : State) (n k : Nat) : Int :=
  if k = 1 then getI s (CLE_LP_BND_B1 n) else if k = 2 then getI s (CLE_LP_BND_B2 n) else getI s (CLE_LP_BND3_B3 n)

/-- The region that follows `g`; `entry`: without hysteresis, after reset and from OFF. Above NREG the bound is +∞ (R248). -/
def regionOf (s : State) (n g : Nat) (sv : Int) (entry : Bool) : Nat :=
  let nreg := getF s (CLE_LP_CTRL_NREG n)
  let h : Int := getF s (CLE_LP_SCHED_H n)
  if entry then ((List.range nreg).filter fun k => decide (bound s n (k + 1) ≤ sv)).length
  else if g < nreg ∧ bound s n (g + 1) + h ≤ sv then g + 1
  else if 0 < g ∧ (nreg < g ∨ sv < bound s n g - h) then g - 1
  else g

/-! ### Injection (R255) -/

/-- The sweep angle in 2^−32 turn at `t` µs after the first sample, linear. -/
def sweepAngle (s : State) (t : Nat) : Nat :=
  let d := getF s CLE_INJ_TIME_DUR
  let f0 : Int := getF s CLE_INJ_FREQ_F0
  let f1 : Int := getF s CLE_INJ_FREQ_F1
  ((f0 * t * 2 * d * 1000 + (f1 - f0) * t * t) * 2 ^ 32 / (20000000000 * max 1 d) % 2 ^ 32).toNat

/-- Show the end of the injection. -/
def endInject (s : State) : State :=
  match s.cle.inj with
  | none => s
  | some j =>
    let s := { s with cle := { s.cle with inj := none } }
    setB (setB s CLE_INJ_CTRL_BUSY false) (CLE_LP_STAT_INJ j.loop) false

/-- Time after the first injected sample, µs. -/
def injectTime (s : State) (j : Inject) (k : Nat) : Nat := (k - j.k0.getD k) * getF s (CLE_LP_PER_PERIOD j.loop)

/-- The injection has lasted DUR. -/
def injectOver (s : State) (j : Inject) : Bool :=
  j.k0.isSome && decide (getF s CLE_INJ_TIME_DUR * 1000 ≤ injectTime s j (loopAt s j.loop).k)

/-- The PRBS bit of the period `m` periods after the first injected one: a sequence of 2^ORDER − 1 bits, each held for BITP
periods. Which sequence of that length it is, is free (R255). -/
def prbsBit (s : State) (m : Nat) : Bool :=
  let n := getF s CLE_INJ_TIME_ORDER
  Config.prbsBit n (m / max 1 (getF s CLE_INJ_TIME_BITP) % (2 ^ n - 1))

/-- j in the period of sample `k` of loop `n`, and whether this is the first injected sample (R255). The phase of an exponential sweep
between two frequencies is a free value. -/
def injectValue (s : State) (n k : Nat) : State × Int × Bool :=
  match s.cle.inj with
  | none => (s, 0, false)
  | some j =>
    if j.loop ≠ n then (s, 0, false)
    else if injectOver s j then (endInject s, 0, false)
    else
      let first := j.k0.isNone
      let j := { j with k0 := some (j.k0.getD k) }
      let s := setB { s with cle := { s.cle with inj := some j } } (CLE_LP_STAT_INJ n) true
      let amp : Int := getF s CLE_INJ_AMP_AMP
      let ofs := getI s CLE_INJ_AMP_OFS
      let m := k - j.k0.getD k
      match getF s CLE_INJ_CTRL_TYPE with
      | 0 => (s, ofs + amp, first)
      | 1 =>
        if flag s CLE_INJ_CTRL_LOG && decide (getF s CLE_INJ_FREQ_F0 ≠ getF s CLE_INJ_FREQ_F1) then
          let f := fresh s
          (f.2, ofs + roundDiv (amp * sinNear (Config.freeWord f.1).toNat) (2 ^ 24), first)
        else (s, ofs + roundDiv (amp * sinNear (sweepAngle s (injectTime s j k))) (2 ^ 24), first)
      | _ => (s, if prbsBit s m then ofs + amp else ofs - amp, first)

/-- INJECTION_END: DUR has expired. -/
def injectionEnd (s : State) : State := match s.cle.inj with
  | some j => if injectOver s j then endInject s else s
  | none => s

def execInjectionEnd (s : State) : Host.Outcome State Fault Refusal := .next (injectionEnd s)

/-- GO may start (R255). -/
def injectCheck (s : State) (h : Nat) (v : Word) : Verdict :=
  let n := bitsOf v 3 0
  let pt := bitsOf v 5 4
  let m := getF s (CLE_LP_STAT_MODE n)
  let per := getF s (CLE_LP_PER_PERIOD n)
  inState (holds s h kLoop n && !flag s CLE_INJ_CTRL_BUSY && (if pt = 2 then decide (m = 1 ∨ m = 2) else decide (m = 2)))
    (valid (decide (4 * getF s CLE_INJ_FREQ_F0 * per ≤ 10000000 ∧ 4 * getF s CLE_INJ_FREQ_F1 * per ≤ 10000000)))

/-- GO and STOP of CLE_INJ_CTRL come into force. -/
def injectCtrl (s : State) (v : Word) : State :=
  let s := if bitsOf v 10 10 = 1 then endInject s else s
  if bitsOf v 9 9 = 1 then
    let j : Inject := { loop := getF s CLE_INJ_CTRL_LOOP, point := getF s CLE_INJ_CTRL_POINT, k0 := none }
    setB { s with cle := { s.cle with inj := some j } } CLE_INJ_CTRL_BUSY true
  else s

/-! ### Capture (R256, R257) -/

def capIdle : Nat := 0
def capArmed : Nat := 1
def capRun : Nat := 2
def capDone : Nat := 3

/-- Signals per period. -/
def capSignals (s : State) : Nat := if getF s CLE_CAP_CTRL_NSIG = 2 then 4 else getF s CLE_CAP_CTRL_NSIG + 1

def setCap (s : State) (l : List Word) (skip : Nat) : State :=
  setF { s with cle := { s.cle with cap := { entries := l, skip := skip } } } CLE_CAP_STAT_COUNT l.length

/-- The trigger occurs. -/
def capTrigger (s : State) : State :=
  if getF s CLE_CAP_STAT_STATE = capArmed then
    let s := setF (setF s CLE_CAP_STAT_STATE capRun) CLE_CAP_STAT_TIDX s.cle.cap.entries.length
    wr s CLE_CAP_TRIG (stepCnt s)
  else s

/-- The signals of a period in the order of their codes: mantissa and exponent. -/
def capEntries (s : State) (k : Nat) (sig : List (Int × Nat)) : List Word :=
  (List.range (capSignals s)).map fun q =>
    let c := bitsOf (rd s CLE_CAP_SEL) (4 * q + 3) (4 * q)
    let x := sig.getD c (0, 0)
    BitVec.ofNat 32 (unsigned 16 x.1 + x.2 % 64 * 2 ^ 16 + q * 2 ^ 22 + k % 256 * 2 ^ 24)

/-- Capture one period of the loop (R256). -/
def capPeriod (s : State) (n k : Nat) (sig : List (Int × Nat)) : State :=
  let st := getF s CLE_CAP_STAT_STATE
  if getF s CLE_CAP_CTRL_LOOP ≠ n ∨ (st ≠ capArmed ∧ st ≠ capRun) then s
  else
    let dec := if getF s CLE_CAP_SEL_DEC = 0 then 256 else getF s CLE_CAP_SEL_DEC
    if s.cle.cap.skip % dec ≠ 0 then setCap s s.cle.cap.entries (s.cle.cap.skip + 1)
    else
      let l := s.cle.cap.entries ++ capEntries s k sig
      if st = capArmed then setCap s (l.drop (l.length - getF s CLE_CAP_PRE_PRE)) (s.cle.cap.skip + 1)
      else
        let s := setCap s (l.take 4096) (s.cle.cap.skip + 1)
        if 4096 ≤ l.length then setF s CLE_CAP_STAT_STATE capDone else s

/-- ARM and ABORT of CLE_CAP_CTRL come into force. -/
def capCtrl (s : State) (v : Word) : State :=
  let clear := fun (s : State) => setF (setCap s [] 0) CLE_CAP_STAT_TIDX 0
  let s := if bitsOf v 13 13 = 1 then setF (clear s) CLE_CAP_STAT_STATE capIdle else s
  if bitsOf v 12 12 = 1 then
    let s := setF (clear s) CLE_CAP_STAT_STATE capArmed
    if getF s CLE_CAP_CTRL_TRIG = 0 then capTrigger s else s
  else s

/-! ### One period (R240) -/

/-- Set a flag of CLE_LP_FLT and show SATALM in CLE_STAT. -/
def loopFlag (s : State) (n : Nat) (f : Field) : State :=
  let s := setB s f true
  setBitF s CLE_STAT_ALM n (flag s (CLE_LP_FLT_SATALM n))

/-- MODE is changed by the device. -/
def forceMode (s : State) (n m : Nat) : State := setF s (CLE_LP_CTRL_MODE n) m

/-- The saturation timer has reached SAT_T (R254). -/
def satDue (s : State) (n : Nat) : Bool :=
  let x := loopAt s n
  decide (x.mode = 2) && !x.alarmed && decide (0 < getF s (CLE_LP_SAT_SAT_T n) ∧ getF s (CLE_LP_SAT_SAT_T n) * 1000 ≤ x.satUs)

/-- SATALM (R254). -/
def satAlarm (s : State) (n : Nat) : State :=
  if satDue s n then
    let m := (loopAt s n).mode
    let s := loopFlag (modLoop s n fun x => { x with alarmed := true }) n (CLE_LP_FLT_SATALM n)
    let s := record s 0x7004 n (leBytes 1 m)
    let s := if getF s CLE_CAP_CTRL_TRIG = 4 ∧ getF s CLE_CAP_CTRL_LOOP = n then capTrigger s else s
    if flag s (CLE_LP_CTRL_SAT_OFF n) then forceMode s n 0 else s
  else s

/-- SATURATION_ALARM of loop `n`. -/
def execSaturationAlarm (n : Nat) (s : State) : Host.Outcome State Fault Refusal := answer (decide (n < 16)) (satAlarm s n)

/-- What a source fault and a destination held off do before the period's computation (R237, R242, R246). -/
def loopGuards (s : State) (n : Nat) : State :=
  let x := loopAt s n
  let s := if dstHeld s n && decide (x.mode ≠ 0) then
      record (forceMode (loopFlag s n (CLE_LP_FLT_DOFF n)) n 0) 0x7002 n (leBytes 1 x.mode)
    else s
  let s := if measFault s n then
      let s := loopFlag s n (CLE_LP_FLT_SRCF n)
      if getF s (CLE_LP_CTRL_MODE n) = 2 then
        record (setI (forceMode s n 1) (CLE_LP_MAN_MAN n) x.u) 0x7001 n (leBytes 1 2)
      else s
    else s
  if frcFault s n then loopFlag s n (CLE_LP_FLT_SRCF n) else s

/-- A sample of a loop: the whole computation of a period (R240, R248 to R251, R254). -/
def loopSample (s : State) (n : Nat) : State :=
  if !flag s CLE_CTRL_EN then s
  else
    let x := loopAt s n
    let t := x.ta + x.k * getF s (CLE_LP_PER_PERIOD n) * perUs
    let held := dstHeld s n
    let s := loopGuards s n
    let mode := getF s (CLE_LP_CTRL_MODE n)
    let changed := decide (mode ≠ x.mode)
    let s := if changed && (s.cle.inj.map (·.loop)) == some n then endInject s else s
    let inj := injectValue s n x.k
    let s := inj.1
    let j := inj.2.1
    let pt := (s.cle.inj.map (·.point)).getD 3
    let jOf := fun (p : Nat) => if pt = p then j else 0
    -- IN stage
    let y0 := sat16 (measValue s n) + jOf 1
    let y := sat16 y0
    let sp := setpoint s n t
    let s := sp.1
    let r0 := sp.2
    let r := sat16 r0
    let ramp : Int := getF s (CLE_LP_RAMP_RAMP n)
    -- the first sample in AUTO starts from the measurement (R250)
    let rEff := if mode ≠ 2 ∨ changed then y else if ramp = 0 then r else x.rEff + clampI (-ramp) ramp (r - x.rEff)
    let e0 := rEff + jOf 0 - y
    let e := sat16 e0
    let firstAuto := decide (mode = 2) && changed
    let yPrev := if firstAuto then y else x.yPrev
    let ePrev := if firstAuto then e else x.ePrev
    -- region
    let sv := match getF s (CLE_LP_CTRL_SVSRC n) with
      | 0 => rEff
      | 1 => y
      | 2 => absI e
      | _ => x.u
    let g := regionOf s n x.g sv (!x.placed || (decide (x.mode = 0) && decide (mode ≠ 0)))
    let sh := eIn s n + getF s (CLE_LP_RG_EXP_E_G n g) - eOut s n - 32
    -- terms
    let p0 := scale2 (getI s (CLE_LP_RG_PI_KP n g) * e) sh
    let d0 := scale2 (if flag s (CLE_LP_CTRL_DSRC n) then getI s (CLE_LP_RG_DF_KD n g) * (e - ePrev)
      else -(getI s (CLE_LP_RG_DF_KD n g) * (y - yPrev))) sh
    let d := x.d + truncDiv (getF s (CLE_LP_DF_DF n) * (sat16 d0 - x.d)) 256
    let d := if mode = 0 ∧ changed then 0 else d
    let ff00 := scale2 (getI s (CLE_LP_RG_DF_KFF n g) * rEff) sh
    let ff0 := sat16 ff00 + getI s (CLE_LP_DF_FFOFS n)
    let ff := sat16 ff0
    let f0 := frictionTerm s n
    let f := sat16 f0
    let p := sat16 p0
    let jo := jOf 2
    -- integrator
    let imin := 65536 * getI s (CLE_LP_RG_ILIM_IMIN n g)
    let imax := 65536 * getI s (CLE_LP_RG_ILIM_IMAX n g)
    let target : Option Int :=
      if mode ≠ 2 then none
      else if firstAuto then some (if x.mode = 0 then getI s (CLE_LP_MAN_OFF_VAL n) else x.u)
      else if g ≠ x.g ∨ x.preset then some x.u
      else none
    let di0 := scale2 (getI s (CLE_LP_RG_PI_KI n g) * e) (sh + 16)
    let want := match target with
      | some u => 65536 * (u - p - d - ff - f - jo)
      | none => x.integ + sat32 di0
    let integrate := decide (mode = 2) && (target.isSome || !(flag s (CLE_LP_CTRL_AW n) && x.satPrev))
    let i := if mode = 0 then 0 else if integrate then clampI imin imax want else x.integ
    let stepped := target.isSome && decide (i ≠ want)
    -- output
    let umin := getI s (CLE_LP_ULIM_UMIN n)
    let umax := getI s (CLE_LP_ULIM_UMAX n)
    let uPre := if mode = 1 then getI s (CLE_LP_MAN_MAN n) + jo else p + roundDiv i 65536 + d + ff + f + jo
    let u := if mode = 0 then (if changed then getI s (CLE_LP_MAN_OFF_VAL n) else x.u) else clampI umin umax uPre
    let ki := getI s (CLE_LP_RG_PI_KI n g)
    let ke := (if ki = 0 then getI s (CLE_LP_RG_PI_KP n g) else ki) * e
    let sat := decide (mode = 2) && ((decide (umax ≤ uPre) && decide (0 < ke)) || (decide (uPre ≤ umin) && decide (ke < 0)))
    let satUs := if sat then x.satUs + getF s (CLE_LP_PER_PERIOD n) else 0
    let out : Option (Nat × Int) := if mode ≠ 0 ∨ (changed ∧ !held) then some (t + getF s (CLE_LP_OPH_OPH n), u) else none
    let x' : Loop := { x with
      mode := mode, k := x.k + 1, integ := i, d := d, rEff := rEff, yPrev := y, ePrev := e, u := u, satPrev := sat, g := g, placed := true,
      preset := false, out := out, satUs := satUs, alarmed := x.alarmed && sat }
    let s := modLoop s n fun _ => x'
    -- overflow and headroom (R234, R235)
    let big := fun (v : Int) => decide (32767 < absI v)
    let ovfIn := big (measValue s n) || big y0 || big r0 || big e0
    let ovfT := big p0 || big d0 || big ff00 || big ff0 || big f0 || (integrate && target.isNone && decide (2147483647 < absI di0))
    let s := if ovfIn then loopFlag s n (CLE_LP_FLT_OVF_IN n) else s
    let s := if ovfT then loopFlag s n (CLE_LP_FLT_OVF_T n) else s
    let s := if ovfIn || ovfT then bump s (CLE_LP_FLT_OVFCNT n) else s
    let hin := [measValue s n, y0, r0, e0].foldl (fun m v => max m (headOf v)) (getF s (CLE_LP_HEAD_HIN n))
    let ht := [p0, if big d0 then d0 else d, ff00, ff0, f0].foldl (fun m v => max m (headOf v)) (getF s (CLE_LP_HEAD_HT n))
    let s := setF (setF s (CLE_LP_HEAD_HIN n) hin) (CLE_LP_HEAD_HT n) ht
    let s := if stepped then bump (loopFlag s n (CLE_LP_FLT_STEP n)) (CLE_LP_FLT_STEPCNT n) else s
    -- read-back
    let s := if mode = 2 ∧ flag s (CLE_LP_CTRL_MTRK n) then setI s (CLE_LP_MAN_MAN n) u else s
    let s := setF (setF s (CLE_LP_STAT_MODE n) mode) (CLE_LP_STAT_REGION n) g
    let s := setB (setB s (CLE_LP_STAT_SAT n) sat) (CLE_LP_STAT_ISAT n) (decide (i = imin ∨ i = imax))
    let s := setB s (CLE_LP_STAT_RAMPING n) (decide (mode = 2) && decide (rEff ≠ r))
    let s := setF s (CLE_LP_STAT_PCNT n) (x.k % 65536)
    let s := setBitF s CLE_STAT_ACTIVE n (decide (mode ≠ 0))
    let s := setI (setI s (CLE_LP_SIG0_R_EFF n) rEff) (CLE_LP_SIG0_Y n) y
    let s := setI (setI s (CLE_LP_SIG1_E n) e) (CLE_LP_SIG1_U n) u
    let s := wr s (CLE_LP_INTG n) (BitVec.ofInt 32 i)
    let s := setI (setI s (CLE_LP_TRM0_P n) p) (CLE_LP_TRM0_D n) d
    let s := setI (setI s (CLE_LP_TRM1_FF n) ff) (CLE_LP_TRM1_F n) f
    let cur := min 0xFFFF (satUs / 1000)
    let s := setF (setF s (CLE_LP_SATT_CUR n) cur) (CLE_LP_SATT_MAX n) (max cur (getF s (CLE_LP_SATT_MAX n)))
    let s := satAlarm s n
    -- capture (R256)
    let trig := getF s CLE_CAP_CTRL_TRIG
    let hit := (decide (trig = 1) && inj.2.2) || (decide (trig = 2) && changed) || (decide (trig = 3) && decide (g ≠ x.g))
      || (decide (trig = 5) && decide ((getF s CLE_CAP_PRE_THR : Int) ≤ absI e))
    let s := if hit && decide (getF s CLE_CAP_CTRL_LOOP = n) then capTrigger s else s
    let ei := (eIn s n).toNat
    let eo := (eOut s n).toNat
    let svx := if getF s (CLE_LP_CTRL_SVSRC n) = 3 then eo else ei
    capPeriod s n x.k [(r, ei), (rEff, ei), (y, ei), (e, ei), (u, eo), (sat16 uPre, eo), (i / 65536, eo), (d, eo), (ff, eo), (f, eo),
      (sat16 j, if pt = 2 then eo else ei), (sv, svx), ((g : Int), 32)]

/-- LOOP_SAMPLE of loop `n` (R240). -/
def execLoopSample (n : Nat) (s : State) : Host.Outcome State Fault Refusal := answer (decide (n < 16)) (loopSample s n)

/-! ### Modes, leases and the engine's enable (R250 to R253) -/

/-- The lease on the loop or on its destination is lost (R253). -/
def loopLeaseLost (s : State) (n : Nat) : State :=
  let m := (loopAt s n).mode
  if m = 0 ∧ getF s (CLE_LP_CTRL_MODE n) = 0 then s
  else record (forceMode (loopFlag s n (CLE_LP_FLT_LEASE n)) n 0) 0x7003 n (leBytes 1 m)

/-- CLE_CTRL.EN came into force (R243, R253). -/
def cleEnable (s : State) : State :=
  let b := nowTick s + slotsPerStep
  if flag s CLE_CTRL_EN then loopsAll.foldl (fun s n => modLoop s n fun x => { x with ta := b, k := 0 }) s
  else loopsAll.foldl (fun s n =>
    let x := loopAt s n
    let s := forceMode s n 0
    if x.mode = 0 then s
    else
      let s := modLoop s n fun x => { x with
        mode := 0, integ := 0, d := 0, satUs := 0, satPrev := false, alarmed := false,
        out := some (b + getF s (CLE_LP_OPH_OPH n), getI s (CLE_LP_MAN_OFF_VAL n)) }
      let s := if (s.cle.inj.map (·.loop)) == some n then endInject s else s
      let s := setBitF (setF s (CLE_LP_STAT_MODE n) 0) CLE_STAT_ACTIVE n false
      setF (setB s (CLE_LP_STAT_SAT n) false) (CLE_LP_SATT_CUR n) 0) s

/-- At a step boundary, before phase 3, the loops take the speeds of their GEAR channels (R239). -/
def cleBoundary (s : State) : State :=
  (loopsAll.filter fun n => decide (getF s (CLE_LP_SSRC_SRC n) = 2)).foldl (fun s n =>
    let k := chKin s (getF s (CLE_LP_SSRC_CH n))
    modLoop s n fun x => { x with gearV := k.sdot, gearA := k.sddot }) s

/-! ### Register rules (R238, R243, R245, R248, R250, R252, R255, R256, R258) -/

/-- The loop is OFF. -/
def loopOff (s : State) (n : Nat) : Bool := decide (getF s (CLE_LP_STAT_MODE n) = 0 ∧ getF s (CLE_LP_CTRL_MODE n) = 0)

/-- Signed mantissas of a word are within ±32,767 (R231): the halves named. -/
def mantOk (v : Word) (lo hi : Bool) : Bool := (!lo || decide (bitsOf v 15 0 ≠ 0x8000)) && (!hi || decide (bitsOf v 31 16 ≠ 0x8000))

def half (v : Word) (hi : Bool) : Int := signed 16 (if hi then bitsOf v 31 16 else bitsOf v 15 0)

/-- A measurement source that exists (CLE_LP_MSRC). -/
def msrcOk (v : Word) : Bool := match bitsOf v 2 0 with
  | 0 => true
  | 1 => decide (bitsOf v 7 4 < 8)
  | 2 => decide (bitsOf v 7 4 < 8)
  | 3 => decide (bitsOf v 7 4 < 8)
  | 7 => true
  | _ => false

/-- A destination that exists (R244). -/
def dstOk (v : Word) : Bool :=
  let i := bitsOf v 12 4
  match bitsOf v 2 0 with
  | 0 => true
  | 1 => decide (i < 8 ∧ bitsOf v 17 16 < 3)
  | 2 => decide (i < 8)
  | 3 => decide (i < 32)
  | 4 => decide (32 ≤ i)
  | _ => false

/-- Another loop names the destination (R245). -/
def dstTaken (s : State) (n : Nat) (v : Word) : Bool :=
  let k := bitsOf v 2 0
  let i := bitsOf v 12 4
  decide (k ≠ 0) && loopsAll.any fun m => decide (m ≠ n) && decide (dstIdx s m = i) &&
    (if k ≤ 2 then (decide (dstKind s m = 1 ∨ dstKind s m = 2) && (decide (k = 2) || decide (dstKind s m = 2) || decide (dstPair s m = bitsOf v 17 16)))
      else decide (dstKind s m = k))

/-- Slot `h` leases the destination that a word names (R245). -/
def dstWordLeased (s : State) (h : Nat) (v : Word) : Bool := match bitsOf v 2 0 with
  | 0 => true
  | 1 => holds s h kPwm (bitsOf v 12 4)
  | 2 => holds s h kPwm (bitsOf v 12 4)
  | _ => holds s h kCh (bitsOf v 12 4)

/-- A write of MODE (R250, R252). -/
def modeCheck (s : State) (h n m : Nat) : Verdict :=
  if m = 0 then .ok
  else if m = 3 then .invalid
  else inState (flag s CLE_CTRL_EN && !dstHeld s n && dstLeased s h n && (decide (m = 1) || (!noMeas s n && !measFault s n))) .ok

/-- The value that a write of a CLE register stores (R243). -/
def cleStore (i : Nat) (v : Word) : Word :=
  if 0x1800 ≤ i ∧ i < 0x1B00 ∧ (i - 0x1800) % 48 = 3 then (if bitsOf v 20 0 < 48 then bitsSet v 20 0 48 else v) else v

/-- Register rules of loop `n` at offset `o`. -/
def loopCheck (s : State) (h n o : Nat) (v : Word) : Verdict :=
  match o with
  | 0 => modeCheck s h n (bitsOf v 1 0)
  | 2 => valid (inRange 50 10000 (bitsOf v 13 0) && decide (getF s (CLE_LP_OPH_OPH n) < bitsOf v 13 0 * 200))
  | 3 => valid (decide (bitsOf v 20 0 < getF s (CLE_LP_PER_PERIOD n) * 200))
  | 4 => inState (loopOff s n) .ok
  | 5 => inState (loopOff s n) (valid (msrcOk v))
  | 8 => inState (loopOff s n) (valid (!(decide (bitsOf v 1 0 = 3) && decide (bitsOf v 11 8 = n))))
  | 9 => valid (mantOk v true false)
  | 0xB =>
    if !dstOk v then .invalid else if !dstWordLeased s h v then .lease else inState (loopOff s n && !dstTaken s n v) .ok
  | 0xC => valid (mantOk v true true && decide (half v false ≤ half v true))
  | 0xD => valid (mantOk v true true)
  | 0xF => valid (inRange 1 256 (bitsOf v 8 0) && mantOk v false true)
  | 0x11 => valid (mantOk v true true && decide (half v false ≤ half v true) && decide (half v true ≤ getI s (CLE_LP_BND3_B3 n)))
  | 0x12 => valid (mantOk v true false && decide (getI s (CLE_LP_BND_B2 n) ≤ half v false))
  | _ =>
    if 0x18 ≤ o ∧ o < 0x28 then
      match o % 4 with
      | 0 => valid (mantOk v true true)
      | 1 => valid (mantOk v true true)
      | 3 => valid (mantOk v true true && decide (half v false ≤ half v true))
      | _ => .ok
    else .ok

/-- Register rules of CLE for a write by slot `h`. -/
def cleCheck (s : State) (h i : Nat) (v : Word) : Verdict :=
  if 0x1800 ≤ i ∧ i < 0x1B00 then loopCheck s h ((i - 0x1800) / 48) ((i - 0x1800) % 48) v
  else if i = CLE_INJ_CTRL then
    if bitsOf v 5 4 = 3 ∨ bitsOf v 7 6 = 3 then .invalid else if bitsOf v 9 9 = 1 then injectCheck s h v else .ok
  else if i = CLE_INJ_AMP then valid (decide (bitsOf v 15 0 ≤ 32767) && mantOk v false true)
  else if i = CLE_INJ_TIME then valid (decide (1 ≤ bitsOf v 15 0 ∧ 7 ≤ bitsOf v 19 16 ∧ 1 ≤ bitsOf v 31 24))
  else if i = CLE_INJ_FREQ then valid (decide (1 ≤ bitsOf v 15 0 ∧ 1 ≤ bitsOf v 31 16))
  else if i = CLE_CAP_CTRL then
    inState (decide (bitsOf v 12 12 = 0) || decide (getF s CLE_CAP_STAT_STATE = capIdle ∨ getF s CLE_CAP_STAT_STATE = capDone))
      (valid (decide (bitsOf v 5 4 ≠ 3 ∧ bitsOf v 10 8 ≤ 5)))
  else if i = CLE_CAP_SEL then valid ((List.range 4).all fun q => decide (bitsOf v (4 * q + 3) (4 * q) < 0xD))
  else .ok

/-- What a write `v` to a CLE register does beside storing it (R243, R247, R249, R253, R255, R256). -/
def cleEffect (s : State) (i : Nat) (old v : Word) : State :=
  let b := nowTick s + slotsPerStep
  if 0x1800 ≤ i ∧ i < 0x1B00 then
    let n := (i - 0x1800) / 48
    let o := (i - 0x1800) % 48
    if o = 2 then modLoop s n fun x => { x with ta := b, k := 0 }
    else if 0x18 ≤ o ∧ o < 0x28 ∧ (o - 0x18) / 4 = (loopAt s n).g then modLoop s n fun x => { x with preset := true }
    else if o = 0x2F then setBitF s CLE_STAT_ALM n (flag s (CLE_LP_FLT_SATALM n))
    else s
  else if i = CLE_CTRL then (if old = rd s i then s else cleEnable s)
  else if i = CLE_INJ_CTRL then injectCtrl s v
  else if i = CLE_CAP_CTRL then capCtrl s v
  else s

/-- A reset of CLE resets every register and FRC (R253). -/
def cleReset (s : State) : State :=
  { tclear (resetRegs s fun i => decide (0x1800 ≤ i ∧ i < 0x1C00)) .frc with cle := CleState.reset }

/-- An entry of an FRC write: COG and FRIC are not −32,768 (R241). -/
def frcValid (b : List Byte) : Bool := decide (leAt b 0 2 ≠ 0x8000 ∧ leAt b 2 2 ≠ 0x8000)

end Sys2Proof.Machine
end

