-- ==== Sys2Proof/Machine/Rec.lean ====
section
/-!
DEFINITION. Sys2Proof/Machine/Rec.lean: the event recorder (chapter 15): the write engine, the search for NEXT, freezes,
reading, authorised clearing and its challenge.
-/
namespace Sys2Proof.Machine

def modRec (s : State) (f : RecState → RecState) : State := { s with recd := f s.recd }

/-- A free record (R412). -/
def freeRecord (_ : Nat) : List Byte := List.replicate 32 0xFF#8

/-- The record at an index. -/
def logAt (s : State) (i : Nat) : List Byte := sparseGet freeRecord s.recd.log i

/-- The 32 bytes of a record (R412): VAL is padded to 10 bytes. -/
def recBytes (e : RecEntry) (lost i : Nat) : List Byte :=
  let v := e.val.take 10
  let b := leBytes 2 e.code ++ leBytes 1 (min 255 lost) ++ leBytes 1 (bit e.hold 0 + bit e.frz 1) ++ leBytes 4 e.opsec.toNat
    ++ leBytes 3 e.pcyc ++ leBytes 1 e.frac ++ leBytes 4 e.step.toNat ++ leBytes 2 e.inst
    ++ v ++ List.replicate (10 - v.length) 0#8 ++ leBytes 2 i
  b ++ leBytes 2 (crc16 b).toNat

/-- The last index, which takes only LOG_FULL (R416). -/
def lastRecord : Nat := 16383

/-- RECORD_WRITTEN: the record stands at NEXT, and the next entry is taken; after LOG_FULL the log is full (R415, R416). -/
def recordWritten (s : State) : State :=
  match s.recd.writing with
  | none => s
  | some (e, lost) =>
    let i := s.recd.next
    let s := modRec s fun r => { r with log := sparseSet freeRecord r.log i (recBytes e lost i), next := i + 1, writing := none }
    if i = lastRecord then
      let n := s.recd.staging.length
      bump (modRec s fun r => { r with full := true, staging := [] }) REC_CNT_FULL_CNT n
    else recTake s

def execRecordWritten (s : State) : Host.Outcome State Fault Refusal := .next (recordWritten s)

/-- The lowest free index of a log, from `i` on (R414). -/
def firstFree : Sparse (List Byte) → Nat → Nat
  | [], i => i
  | (k, _) :: r, i => if k = i then firstFree r (i + 1) else i

/-- The CRC of a record is good (R412). -/
def recCrcOk (b : List Byte) : Bool := decide (leAt b 30 2 = (crc16 (b.take 30)).toNat)

/-- NEXT_SEARCH_DONE: NEXT is found and POWER_UP is written before any staged entry (R414). -/
def searchDone (s : State) : State :=
  if !s.recd.searching then s
  else
    let n := firstFree s.recd.log 0
    let bad := ((s.recd.log.filter fun e => decide (e.1 < n)).filter fun e => !recCrcOk e.2).length
    let s := bump (modRec s fun r => { r with searching := false, next := n, full := decide (lastRecord < n) }) REC_CNT_CRC_CNT bad
    let up := { stampEvent s 0x0003 noInst (leBytes 2 bad) with hold := false, frz := false }
    if lastRecord < n then
      let k := s.recd.staging.length + 1
      bump (modRec s fun r => { r with staging := [] }) REC_CNT_FULL_CNT k
    else if n = lastRecord then
      bump (modRec s fun r => { r with writing := some (stampEvent s 0x0002 noInst [], 0) }) REC_CNT_FULL_CNT
    else modRec s fun r => { r with writing := some (up, 0) }

def execNextSearchDone (s : State) : Host.Outcome State Fault Refusal := .next (searchDone s)

/-! ### Freezing (R417) -/

/-- A party freezes the log: 0 to 3 a slot, 4 the window. -/
def freezeLog (s : State) (p : Nat) : State :=
  modRec s fun r => { r with freeze := some p, freezeAt := absTick s (nowTick s) }

/-- The freeze ends and writing resumes. -/
def endFreeze (s : State) : State :=
  if s.recd.freeze.isSome then recTake (modRec s fun r => { r with freeze := none }) else s

/-- FREEZE_TMO. -/
def freezeTimeout (s : State) (t : Nat) : State :=
  match s.recd.freeze with
  | some p =>
    if s.recd.freezeAt + getF s REC_CTRL_FRZ_MAX * ticksPerSec ≤ t then record (endFreeze s) 0x0004 p [] else s
  | none => s

def execFreezeTmo (t : Nat) (s : State) : Host.Outcome State Fault Refusal :=
  answer (inThisStep s t) (freezeTimeout s (absTick s t))

/-- A freeze of a detaching slot ends (R417). -/
def releaseFreeze (s : State) (p : Nat) : State := if s.recd.freeze = some p then endFreeze s else s

/-! ### The stamps (R413) -/

/-- OPSEC_SAVE: a second of operation has passed. -/
def opsecSave (s : State) : State :=
  let s := bump s REC_OPSEC_VAL
  modRec s fun r => { r with fracSteps := 0, savedOpsec := rd s REC_OPSEC, savedPcyc := getF s REC_PCYC_VAL }

def execOpsecSave (s : State) : Host.Outcome State Fault Refusal := .next (opsecSave s)

/-- What a loss of power leaves of the log. How much of a record in progress has been written, and which records a clear in progress
has reached, is not given: free values, of index `f` (R414, R422). -/
def logAfterLoss (old : RecState) (f : Nat) : Sparse (List Byte) :=
  let l := if old.clearing.isSome then old.log.filter fun e => (Config.freeByte f e.1).getLsbD 0 else old.log
  match old.writing with
  | some (e, lost) =>
    let k := (clampI 0 32 (Config.freeInt f)).toNat
    sparseSet freeRecord l old.next ((recBytes e lost old.next).take k ++ List.replicate (32 - k) 0xFF#8)
  | none => l

/-- A power-up of the recorder (R413, R414, R422, R425). -/
def recPowerUp (s : State) (old : RecState) (t : Nat) : State :=
  let f := fresh s
  let s := if old.clearing.isSome || old.writing.isSome then f.2 else s
  let p := min 0xFFFFFF (old.savedPcyc + 1)
  let s := setF (wr s REC_OPSEC old.savedOpsec) REC_PCYC_VAL p
  let r := { RecState.reset with
    log := logAfterLoss old f.1
    searching := true
    savedOpsec := old.savedOpsec
    savedPcyc := p
    fails := old.fails
    savedLock := old.savedLock
    lock := old.savedLock
    lockAt := t
    key := old.key }
  { s with recd := r }

/-! ### Challenge and clear (R421, R422) -/

/-- The parameters of a MAC: NONCE, SERIAL, SLOT. -/
def macText (nonce : List Byte) (h : Nat) : List Byte := nonce ++ leBytes 8 Config.serial.toNat ++ leBytes 1 h

/-- A nonce valid for the slot. -/
def nonceOf (s : State) (h : Nat) : Option (List Byte) := match s.recd.nonce with
  | some (g, n) => if g = h then some n else none
  | none => none

/-- A MAC over the challenge of slot `h`, followed by `more`, is right. -/
def macOk (s : State) (h : Nat) (more mac : List Byte) : Bool :=
  match nonceOf s h, s.recd.key with
  | some n, some k => decide (hmacSha256 k (macText n h ++ more) = mac)
  | _, _ => false

/-- A failed check (R422). -/
def authFail (s : State) (h : Nat) : State :=
  let n := s.recd.fails + 1
  let s := bump (modRec s fun r => { r with nonce := none, fails := n }) REC_CNT_AUTHFAIL_CNT
  let s := record s 0x0005 h (leBytes 1 (min 255 n))
  if n % 3 = 0 then
    modRec s fun r => { r with lock := true, savedLock := true, lockAt := absTick s (nowTick s) }
  else s

/-- LOCKOUT_END. -/
def lockoutEnd (s : State) (t : Nat) : State :=
  if s.recd.lock && decide (s.recd.lockAt + 60 * ticksPerSec ≤ t) then modRec s fun r => { r with lock := false, savedLock := false }
  else s

def execLockoutEnd (t : Nat) (s : State) : Host.Outcome State Fault Refusal :=
  answer (inThisStep s t) (lockoutEnd s (absTick s t))

/-- NONCE_EXPIRY. -/
def nonceExpiry (s : State) (t : Nat) : State :=
  if s.recd.nonce.isSome && decide (s.recd.nonceAt + 60 * ticksPerSec ≤ t) then modRec s fun r => { r with nonce := none } else s

def execNonceExpiry (t : Nat) (s : State) : Host.Outcome State Fault Refusal :=
  answer (inThisStep s t) (nonceExpiry s (absTick s t))

/-- The clear starts: the freeze ends, a write in progress is completed and then free (R422). -/
def startClearLog (s : State) (h : Nat) : State :=
  let n := s.recd.next + (if s.recd.writing.isSome then 1 else 0)
  modRec s fun r => { r with
    freeze := none, nonce := none, writing := none, fails := 0,
    clearing := some { slot := h, prevNext := n, failures := r.fails } }

/-- Every record is free and CLEARED stands at index 0 (R422). DEDUCED (log entry 70): it carries every loss that no record has
reported yet. -/
def finishClear (s : State) (c : RecClear) : State :=
  let e := stampEvent s 0x0001 c.slot (leBytes 2 c.prevNext ++ leBytes 1 (min 255 c.failures))
  recTake (modRec s fun r => { r with
    log := sparseSet freeRecord [] 0 (recBytes e r.lost 0), next := 1, full := false, clearing := none, lost := 0 })

/-! ### What is shown (R423, R425) -/

/-- REC_STAT. -/
def recStat (s : State) : Word :=
  let r := s.recd
  BitVec.ofNat 32 (r.next + bit r.full 15 + bit r.freeze.isSome 16 + r.freeze.getD 0 * 2 ^ 17 + r.staging.length * 2 ^ 20
    + bit r.clearing.isSome 27 + bit r.key.isSome 28 + bit r.lock 29)

/-- A word of the cursor window, 0 to 9 for window addresses 0x10 to 0x19 (R423). -/
def cursorWord (s : State) (k : Nat) : Word :=
  let r := s.recd
  match k with
  | 0 => BitVec.ofNat 32 (r.cursor + bit (decide (r.freeze = some 4)) 16)
  | 1 => BitVec.ofNat 32 (r.next + bit r.full 15 + bit r.freeze.isSome 16 + r.staging.length * 2 ^ 17)
  | w => if r.next ≤ r.cursor then 0xFFFFFFFF#32 else wordAt (logAt s r.cursor) (4 * (w - 2))

/-- The response of REC_READ (R418). -/
def recReadBody (s : State) (first count : Nat) : List Byte :=
  let n := min count (s.recd.next - first)
  leBytes 2 first ++ leBytes 2 n ++ leBytes 2 s.recd.next ++ leBytes 1 (bit s.recd.full 0 + bit s.recd.freeze.isSome 1) ++ leBytes 1 0
    ++ (List.range n).flatMap fun k => logAt s (first + k)

end Sys2Proof.Machine
end

