-- ==== Sys2Proof/Machine/Mon.lean ====
section
/-!
DEFINITION. Sys2Proof/Machine/Mon.lean: health monitoring (chapter 16): samples and their limits, slack, the core voltage
and its guard levels, life drift and logic dissipation. Monitors are numbered as in MonState.
-/
namespace Sys2Proof.Machine

def modMon (s : State) (f : MonState → MonState) : State := { s with mon := f s.mon }

/-- A flag of MON_FLT is set; MON_IRQ follows only if it was 0 (R427). -/
def monFault (s : State) (f : Field) : State := if flag s f then s else raiseIrq (setB s f true) MON_IRQ_FLT MON_IEN_EN 6

/-! ### Samples (R426) -/

/-- Samples in a mean. -/
def meanOf : Nat := 16

/-- The mean of the samples of a monitor, rounded to the nearest. -/
def monMean (s : State) (m : Nat) : Int :=
  let l := sparseGet (fun _ => []) s.mon.samples m
  if l.isEmpty then 0 else roundDiv l.sum l.length

/-- A sample enters. -/
def takeSample (s : State) (m : Nat) (v : Int) : State :=
  modMon s fun x => { x with samples := sparseMod (fun _ => []) x.samples m fun l => (v :: l).take meanOf }

/-- The number of the monitor at a place of MON_SAMPLE's list: T0 to T11, V0 to V15, P0 to P3. -/
def sampleMonitor (k : Nat) : Nat := if k < 12 then k else k + 4

/-- Show the value of a monitor in its register, and a temperature's MAX. -/
def showSample (s : State) (m : Nat) : State :=
  let v := monMean s m
  if m < 12 then
    let top := match sparseGet (fun _ => (none : Option Int)) s.mon.peak m with
      | some x => max x v
      | none => v
    let s := modMon s fun x => { x with peak := sparseSet (fun _ => none) x.peak m (some top) }
    setI (setI s (MON_TS_T m) (clampI (-32768) 32767 v)) (MON_TS_MAX m) (clampI (-32768) 32767 top)
  else if m < 32 then setF s (MON_VM_VAL (m - 16)) (min 65535 v.toNat)
  else setF s (MON_PM_VAL (m - 32)) (min 16777215 v.toNat)

/-- A read of MON_TS clears MAX: the highest value is sought anew (chapter 16, MON registers). -/
def monRead (s : State) (i : Nat) : State :=
  if 0x0210 ≤ i ∧ i < 0x021C then modMon s fun x => { x with peak := sparseDel x.peak (i - 0x0210) } else s

/-! ### Limits (R427): number 2i is the warning and 2i+1 the critical limit of Ti; 24+2v the low, 25+2v the high one of Vv -/

def limits : List Nat := List.range 56

/-- The monitor of a limit. -/
def limitMonitor (k : Nat) : Nat := if k < 24 then k / 2 else 16 + (k - 24) / 2

/-- The limit's value: 0.1 °C or mV. -/
def limitValue (s : State) (k : Nat) : Int :=
  if k < 24 then 10 * (if k % 2 = 0 then getF s (MON_TLIM_WARN (k / 2)) else getF s (MON_TLIM_CRIT (k / 2)))
  else if k % 2 = 0 then getF s (MON_VLIM_LO ((k - 24) / 2)) else getF s (MON_VLIM_HI ((k - 24) / 2))

/-- The limit is a low one. -/
def lowLimit (k : Nat) : Bool := decide (24 ≤ k ∧ k % 2 = 0)

/-- The value is at or beyond the limit. -/
def isBeyond (s : State) (k : Nat) : Bool :=
  let v := monMean s (limitMonitor k)
  let l := limitValue s k
  if lowLimit k then decide (v ≤ l) else decide (l ≤ v)

/-- The value is back inside the limit by 2 °C or 1 %. -/
def isInside (s : State) (k : Nat) : Bool :=
  let v := monMean s (limitMonitor k)
  let l := limitValue s k
  if k < 24 then decide (v + 20 ≤ l)
  else if lowLimit k then decide (101 * l ≤ 100 * v) else decide (100 * v ≤ 99 * l)

def limitHeld (s : State) (k : Nat) : Bool := sparseGet (fun _ => false) s.mon.reached k

/-- Count the samples beyond a limit and inside it. -/
def countLimit (s : State) (k : Nat) : State :=
  let up := fun (b : Bool) (top n : Nat) => if b then min top (n + 1) else 0
  let b := isBeyond s k
  let i := isInside s k
  modMon s fun x => { x with
    beyond := sparseMod (fun _ => 0) x.beyond k (up b 10)
    inside := sparseMod (fun _ => 0) x.inside k (up i 100) }

/-- Show the limits that are reached now. -/
def showLimits (s : State) : State :=
  let any := fun (p : Nat → Bool) => limits.any fun k => p k && limitHeld s k
  let s := setB s MON_STAT_TW (any fun k => decide (k < 24 ∧ k % 2 = 0))
  let s := setB s MON_STAT_TC (any fun k => decide (k < 24 ∧ k % 2 = 1))
  let s := setB s MON_STAT_VLIM (any fun k => decide (24 ≤ k))
  (List.range 16).foldl (fun s v => setB (setB s (MON_VM_LO v) (limitHeld s (24 + 2 * v))) (MON_VM_HI v) (limitHeld s (25 + 2 * v))) s

def setReached (s : State) (k : Nat) (b : Bool) : State :=
  showLimits (modMon s fun x => { x with reached := sparseSet (fun _ => false) x.reached k b })

/-- LIMIT_REACHED: ten samples at or beyond the limit. -/
def limitReached (s : State) (k : Nat) : State :=
  if limitHeld s k || decide (sparseGet (fun _ => 0) s.mon.beyond k < 10) then s
  else
    let v := unsigned 16 (monMean s (limitMonitor k))
    let s := setReached s k true
    if k < 24 then
      let s := record s (if k % 2 = 0 then 0xD001 else 0xD002) (k / 2) (leBytes 2 v)
      monFault s (if k % 2 = 0 then MON_FLT_TWARN else MON_FLT_TCRIT)
    else
      let s := record s 0xD004 ((k - 24) / 2) (leBytes 2 v ++ leBytes 1 (k % 2))
      monFault s (if k % 2 = 0 then MON_FLT_VUV else MON_FLT_VOV)

/-- LIMIT_LEFT: a hundred samples back inside. -/
def limitLeft (s : State) (k : Nat) : State :=
  if limitHeld s k && decide (100 ≤ sparseGet (fun _ => 0) s.mon.inside k) then setReached s k false else s

/-- LIMIT_REACHED, by limit number. -/
def execLimitReached (k : Nat) (s : State) : Host.Outcome State Fault Refusal := answer (decide (k < 56)) (limitReached s k)

/-- LIMIT_LEFT, by limit number. -/
def execLimitLeft (k : Nat) (s : State) : Host.Outcome State Fault Refusal := answer (decide (k < 56)) (limitLeft s k)

/-- MON_SAMPLE: values in 0.1 °C, mV and kHz. -/
def monSample (s : State) (l : List Int) : State :=
  let s := (l.zipIdx).foldl (fun s e => showSample (takeSample s (sampleMonitor e.2) e.1) (sampleMonitor e.2)) s
  let s := setI s MON_TCASE_VAL (clampI (-32768) 32767 (monMean s 6))
  let s := limits.foldl countLimit s
  limits.foldl (fun s k => limitLeft (limitReached s k) k) s

/-- MON_SAMPLE: T0 to T11, V0 to V15 and P0 to P3, in this order. -/
def execMonSample (l : List Int) (s : State) : Host.Outcome State Fault Refusal :=
  answer (decide (l.length = 32)) (if s.sys.inReset then s else monSample s l)

/-! ### Core voltage (R431, R432) -/

/-- AVS modes. -/
def avsAuto : Nat := 1
def avsFixed : Nat := 2

/-- Largest and smallest request, mV. -/
def vTop : Nat := 880
def vBottom : Nat := 720

/-- Put the request in force in its registers and in the control area (R436). -/
def showRequest (s : State) (mv : Nat) : State :=
  let s := setI (setF s MON_AVS_STAT_VREQ mv) MON_AGE_VSHIFT ((mv : Int) - 800)
  modMon s fun x => { x with savedReq := mv }

/-- A request is written to the regulator; it replaces one that is outstanding (R431). Cause as in 0xD007 (R438). -/
def avsRequest (s : State) (mv cause : Nat) : State :=
  let old := getF s MON_AVS_STAT_VREQ
  let s := bump (setB (showRequest s mv) MON_STAT_BUSY true) MON_CNT_VREQ_CNT
  if mv = old then s else record s 0xD007 noInst (leBytes 2 mv ++ leBytes 1 (getF s MON_SLACK_SMIN) ++ leBytes 1 cause)

/-- AUTO adjusts the voltage: it is selected and no AVSBus fault is in force (R432). -/
def autoRuns (s : State) : Bool := decide (getF s MON_CTRL_AVS = avsAuto) && !s.mon.avsDead

/-- The read-back agrees with V0 and with the request (R432). -/
def readbackOk (s : State) (answered : Bool) (mv : Nat) : Bool :=
  let near := fun (a : Nat) => decide (a ≤ mv + 15 ∧ mv ≤ a + 15)
  answered && near (getF s (MON_VM_VAL 0)) && near (getF s MON_AVS_STAT_VREQ)

/-- AVS_READBACK. -/
def avsReadback (s : State) (answered : Bool) (mv : Nat) : State :=
  if !flag s MON_STAT_BUSY then s
  else
    let ok := readbackOk s answered mv
    let s := setB s MON_STAT_BUSY false
    let s := if answered then setF s MON_AVS_STAT_VREAD (min 1023 mv) else s
    if ok then
      let s := modMon s fun x => { x with avsFails := 0 }
      if s.mon.avsAck then setB (modMon s fun x => { x with avsDead := false, avsAck := false }) MON_FLT_AVS_FLT false else s
    else
      let n := s.mon.avsFails + 1
      let s := bump (modMon s fun x => { x with avsFails := n % 3 }) MON_CNT_AVSERR_CNT
      if n < 3 then s
      else
        let s := modMon s fun x => { x with avsDead := true, avsAck := false }
        let s := record s 0xD00A noInst (leBytes 2 (getF s MON_AVS_STAT_VREQ) ++ leBytes 2 (getF s MON_AVS_STAT_VREAD))
        monFault s MON_FLT_AVS_FLT

/-- AVS_READBACK: whether the regulator answered, and the voltage it named. -/
def execAvsReadback (answered : Bool) (mv : Nat) (s : State) : Host.Outcome State Fault Refusal := .next (avsReadback s answered mv)

/-- VCORE_OVERVOLTAGE (R428): V0 in mV. -/
def vcoreOver (s : State) (v0 : Nat) : State :=
  if v0 ≤ 920 then s
  else
    let s := record s 0xD006 noInst (leBytes 2 v0)
    let s := avsRequest s 800 1
    monFault (setF (setF s MON_CTRL_AVS avsFixed) MON_AVS_SET_MV 800) MON_FLT_VOV

def execVcoreOvervoltage (v0 : Nat) (s : State) : Host.Outcome State Fault Refusal := .next (vcoreOver s v0)

/-! ### Slack (R429, R433) -/

/-- Runs in a second. -/
def runsPerSec : Nat := 100

/-- What G adds to the slack of replica `p`, ps (R429, R433). -/
def guardCredit (s : State) (p : Nat) : Nat := if 6 ≤ p then 2500 * getF s MON_STAT_G else 0

/-- The lower of two slacks with their replicas; the first where they are equal. -/
def lowerOf (a b : Nat × Nat) : Nat × Nat := if b.1 < a.1 then b else a

/-- The lowest of a list of slacks; an empty list has none. -/
def lowest : List (Nat × Nat) → Nat × Nat
  | [] => (255, 0)
  | a :: r => r.foldl lowerOf a

/-- S_min and its replica. -/
def sMin (s : State) : Nat × Nat := lowest s.mon.slackRuns

/-- LIFE_MIN falls: it is stored with the request in force (R429, R433, R436). -/
def lifeMin (s : State) (v : Nat) : State :=
  if v < getF s MON_SLACK_LIFE_MIN then
    modMon (setF s MON_SLACK_LIFE_MIN v) fun x => { x with savedLife := v, lifeReq := getF s MON_AVS_STAT_VREQ }
  else s

/-- The emergency branch of R433 applies to a slack. -/
def emergency (s : State) (v : Nat) : Bool :=
  autoRuns s && decide (v < getF s MON_SLACK_CFG_S_CRIT) && decide (getF s MON_AVS_STAT_VREQ < vTop)
    && decide (s.mon.slackRuns.length = runsPerSec)

/-- SLACK_RUN: the slacks of P4 to P7, ps. -/
def slackRun (s : State) (l : List Nat) : State :=
  let s := (l.zipIdx).foldl (fun s e => setF s (MON_PM_VAL (4 + e.2)) (min 16777215 e.1)) s
  let r := lowest ((l.zipIdx).map fun e => (e.1 + guardCredit s (4 + e.2), 4 + e.2))
  let s := modMon s fun x => { x with slackRuns := (r :: x.slackRuns).take runsPerSec }
  let m := min 255 (sMin s).1
  let s := setF (setF s MON_SLACK_SMIN m) MON_SLACK_LIM (sMin s).2
  let s := lifeMin (setF s MON_SLACK_PMIN (min m (getF s MON_SLACK_PMIN))) m
  if emergency s r.1 then avsRequest s (min vTop (getF s MON_AVS_STAT_VREQ + 20)) 1 else s

def execSlackRun (l : List Nat) (s : State) : Host.Outcome State Fault Refusal :=
  answer (decide (l.length = 4)) (if s.sys.inReset then s else slackRun s l)

/-- V_floor (R433). -/
def vFloor (s : State) : Nat := max vBottom (s.mon.lifeReq - 40)

/-- A shortfall at the top of the range: a guard level, or the alarm (R433, R435). -/
def guardOrAlarm (s : State) : State :=
  let m := sMin s
  let g := s.mon.guardNext.getD (getF s MON_STAT_G)
  if 6 ≤ m.2 ∧ g < 3 then
    record (modMon s fun x => { x with guardNext := some (g + 1) }) 0xD008 noInst (leBytes 1 (g + 1) ++ leBytes 1 m.2)
  else if flag s MON_FLT_AGE_ALM then s
  else
    let s := record s 0xD009 noInst (leBytes 1 (min 255 m.1) ++ leBytes 2 (getF s MON_AVS_STAT_VREQ))
    monFault s MON_FLT_AGE_ALM

/-- A guard level comes into force at a step boundary, the next one, and is stored (R434, R436). Outside the data path's run it has no
footprint test or mark to split. -/
def monBoundary (s : State) : State := match s.mon.guardNext with
  | some g => modMon (setF s MON_STAT_G g) fun x => { x with savedG := g, guardNext := none }
  | none => s

/-- AVS_EVALUATION (R433): in OFF and FIXED, V is taken as 880 mV. -/
def avsEvaluate (s : State) : State :=
  if s.mon.slackRuns.length < runsPerSec then s
  else
    let auto := autoRuns s
    let v := if auto then getF s MON_AVS_STAT_VREQ else vTop
    let m := (sMin s).1
    let none_ := modMon s fun x => { x with surplus := 0 }
    if m < getF s MON_SLACK_CFG_S_CRIT ∧ v < vTop then avsRequest none_ (min vTop (v + 20)) 1
    else if m < getF s MON_SLACK_CFG_S_LOW then
      if v < vTop then avsRequest none_ (min vTop (v + 5)) 0 else guardOrAlarm none_
    else if getF s MON_SLACK_CFG_S_HIGH < m then
      let n := s.mon.surplus + 1
      if auto && decide (10 * getF s MON_SLACK_CFG_DN_T ≤ n) && decide (vFloor s < v) then
        avsRequest none_ (max (vFloor s) (v - 5)) 0
      else modMon s fun x => { x with surplus := n }
    else none_

def execAvsEvaluation (s : State) : Host.Outcome State Fault Refusal := .next (if s.sys.inReset then s else avsEvaluate s)

/-! ### Logic dissipation (R437) and life drift (R430) -/

/-- 2^(1/200) × 2^40. -/
def root200 : Nat := 1103328855631

/-- 2^(n/200) × 2^40, for n below 200. -/
def pow200 : Nat → Nat
  | 0 => 2 ^ 40
  | n + 1 => pow200 n * root200 / 2 ^ 40

/-- P_leak(T_max), for a leakage in mW at 85 °C and a temperature in 0.1 °C. -/
def leakage (leak : Nat) (t : Int) : Nat :=
  let d := t - 850
  let q := d / 200
  let m := leak * pow200 (d % 200).toNat
  if 0 ≤ q then m * 2 ^ q.toNat / 2 ^ 40 else m / 2 ^ (40 + (-q).toNat)

/-- T_max. -/
def tMax (s : State) : Int := ((List.range 6).map fun i => getI s (MON_TS_T i)).foldl max (-32768)

/-- LOGIC_DISSIPATION: the weighted activity of the last 16 ms and the production leakage, mW. -/
def logicDissipation (s : State) (dyn leak : Nat) : State :=
  let v := getF s (MON_VM_VAL 0)
  setF s MON_PLOGIC_MW (min 65535 (v * v * dyn / 640000 + leakage leak (tMax s)))

def execLogicDissipation (dyn leak : Nat) (s : State) : Host.Outcome State Fault Refusal := .next (logicDissipation s dyn leak)

/-- LIFE_DRIFT: acts while T0 lies within 50 ± 2 °C. -/
def lifeDrift (s : State) : State :=
  let t := getI s (MON_TS_T 0)
  if t < 480 ∨ 520 < t then s
  else
    let f := (roundDiv (((List.range 4).map fun p => (getF s (MON_PM_VAL p) : Int)).sum) 4).toNat
    match s.mon.savedBase with
    | none => modMon s fun x => { x with savedBase := some f }
    | some b =>
      let ro := if b ≤ f then 0 else min 65535 ((b - f) * 10000 / b)
      let s := modMon (setF s MON_AGE_RO ro) fun x => { x with savedRo := ro }
      if s.mon.roMult < ro / 50 then record (modMon s fun x => { x with roMult := ro / 50 }) 0xD00B noInst (leBytes 2 ro) else s

def execLifeDrift (s : State) : Host.Outcome State Fault Refusal := .next (lifeDrift s)

/-! ### Writes and resets -/

/-- Check a write of a MON register (R432, R440). -/
def monCheck (i : Nat) (v : Word) : Verdict :=
  let f := fun hi lo => bitsOf v hi lo
  if i = MON_CTRL then valid (decide (f 1 0 ≠ 3))
  else if i = MON_AVS_SET then valid (inRange vBottom vTop (f 9 0))
  else if i = MON_SLACK_CFG then valid (decide (f 23 16 < f 7 0) && decide (f 7 0 < f 15 8) && decide (1 ≤ f 31 24))
  else if 0x0220 ≤ i ∧ i < 0x022C then valid (decide (f 7 0 ≤ 155) && inRange 1 170 (f 15 8) && decide (f 7 0 < f 15 8))
  else if 0x0240 ≤ i ∧ i < 0x0250 then valid (decide (f 15 0 < f 31 16))
  else .ok

/-- A written mode or MV is written to the regulator at the boundary (R432). -/
def avsWritten (s : State) : State :=
  let m := getF s MON_CTRL_AVS
  if m = avsFixed then avsRequest s (getF s MON_AVS_SET_MV) 2
  else if m = avsAuto ∧ (!s.mon.avsDead || s.mon.avsAck) then avsRequest s (getF s MON_AVS_STAT_VREQ) 2
  else s

/-- What a MON write does beside the store. -/
def monEffect (s : State) (i : Nat) : State :=
  if i = MON_CTRL then avsWritten s
  else if i = MON_AVS_SET then if getF s MON_CTRL_AVS = avsFixed then avsWritten s else s
  else s

/-- MON leaves reset: the stored values return and the stored request is written (R436, R449). -/
def monRestart (s : State) : State :=
  let x := s.mon
  let s := setF s MON_STAT_G x.savedG
  let s := setF s MON_SLACK_LIFE_MIN x.savedLife
  let s := setF s MON_AGE_RO x.savedRo
  bump (setB (showRequest s x.savedReq) MON_STAT_BUSY true) MON_CNT_VREQ_CNT

/-- What a reset leaves of MON beside its registers. -/
def monReset (s : State) : State :=
  modMon s fun x => { MonState.reset with
    lifeReq := x.lifeReq
    savedReq := x.savedReq
    savedG := x.savedG
    savedLife := x.savedLife
    savedBase := x.savedBase
    savedRo := x.savedRo
    roMult := x.roMult
    borMark := x.borMark
    tsdMark := x.tsdMark }

end Sys2Proof.Machine
end

