-- ==== Sys2Proof/Machine/Lease.lean ====
section
/-!
DEFINITION. Sys2Proof/Machine/Lease.lean: leases (R398 to R400): granting, taking and losing them, what a lost lease sets
down, and the detachment of a slot (R397, R401).
-/
namespace Sys2Proof.Machine

def modHif (s : State) (f : HifState → HifState) : State := { s with hif := f s.hif }

/-- A resource: kind and number. -/
abbrev Res := Nat × Nat

def resOf (r : Res) : Nat := resKey r.1 r.2

/-- Every resource of the part, by kind and number. -/
def allRes : List Res := [0, 1, 2, 3, 4, 5].flatMap fun k => (List.range (kindSize k)).map fun n => (k, n)

/-- The resources that a slot holds. -/
def heldBy (s : State) (h : Nat) : List Res := allRes.filter fun r => holds s h r.1 r.2

/-- The LEASE item of a resource (R408). -/
def itemBytes (r : Res) : List Byte := leBytes 1 r.1 ++ leBytes 1 0 ++ leBytes 2 r.2

/-- Channels that a state word's request governs (R22). -/
def resChannels (s : State) (r : Res) : List Nat :=
  match r.1 with
  | 0 => usedChannels s
  | 1 => (usedChannels s).filter fun c => decide (chZone s c = r.2)
  | 2 => (usedChannels s).filter fun c => decide (chSection s c = r.2)
  | 3 => [r.2]
  | _ => []

/-- Resources below an item, for MEMBERS = 1 (R398). -/
def membersOf (s : State) (r : Res) : List Res :=
  let secs := fun (p : Nat → Bool) => (List.range 64).filter p
  let chans := fun (l : List Nat) => ((usedChannels s).filter fun c => l.contains (chSection s c)).map fun c => (kCh, c)
  match r.1 with
  | 0 => (List.range 8).map (fun z => (kZone, z)) ++ (List.range 64).map (fun m => (kSec, m)) ++ chans (List.range 64)
  | 1 =>
    let l := secs fun m => decide (secZone s m = r.2)
    l.map (fun m => (kSec, m)) ++ chans l
  | 2 => chans [r.2]
  | _ => []

/-! ### Losing a lease (R399) -/

/-- A loop whose destination is the resource goes OFF with it (R253). -/
def dropDriven (s : State) (r : Res) : State :=
  loopsAll.foldl (fun s n => if dstRes s n = some r then loopLeaseLost s n else s) s

/-- A resource is set down at the next step boundary (R399). -/
def putDown (s : State) (r : Res) : State :=
  let s := dropDriven s r
  if r.1 ≤ 3 then
    let i := stateWord r.1 r.2
    let s := modHif (wr s i (bitsSet (rd s i) 2 0 rqOff)) fun x => { x with setDown := sparseSet (fun _ => false) x.setDown (resOf r) true }
    let l := resChannels s r
    cancelWhere s (nowTick s + slotsPerStep) (nowTick s + 2 * slotsPerStep) fun e => decide (e.d.origin = 1) && l.contains e.d.ch
  else if r.1 = kLoop then loopLeaseLost s r.2
  else stopPwm (setB s (PWM_GRP_CTRL_EN r.2) false) r.2

/-- The LEASE_LOST notification of a resource (R402). -/
def lostNote (r : Res) (reason : Nat) (new : Option Nat) : List Byte :=
  [3#8, 0#8, 0#8, 0#8] ++ itemBytes r ++ leBytes 1 reason ++ leBytes 1 (new.getD 255)

/-- One resource is lost; its holder hears of it unless it has detached (R399). -/
def loseOne (s : State) (r : Res) (reason : Nat) (new : Option Nat) : State :=
  match holderOf s r.1 r.2 with
  | none => s
  | some h =>
    let s := modHif (setHolder s r.1 r.2 none) fun x => { x with tie := sparseDel x.tie (resOf r) }
    let s := putDown s r
    if attached s h then notifyLost s h (lostNote r reason new) else s

/-- Resources that a slot holds only as members of one of these. -/
def tiedTo (s : State) (h : Nat) (l : List Res) : List Res :=
  (heldBy s h).filter fun r => match sparseGet (fun _ => (none : Option Nat)) s.hif.tie (resOf r) with
    | some k => l.any fun q => decide (resOf q = k)
    | none => false

/-- A slot loses resources, and the member leases tied to them that the same command does not name (R399). -/
def loseAll (s : State) (h : Nat) (l : List Res) (reason : Nat) (new : Option Nat) : State :=
  let t := (tiedTo s h l).filter fun r => !l.contains r
  let s := l.foldl (fun s r => loseOne s r reason new) s
  t.foldl (fun s r => loseOne s r 3 none) s

/-! ### What HIF_STAT shows -/

/-- The slot that holds a role, if any. -/
def roleHolder (s : State) (role : Nat) : Option Nat := hostSlots.find? fun h => attached s h && decide (roleOf s h = role)

/-- Show attachments and the holders of OWNER and SERVICE (R411). -/
def showHif (s : State) : State :=
  let s := hostSlots.foldl (fun s h => setB s ⟨HIF_STAT, h, h⟩ (attached s h)) s
  let o := roleHolder s 0
  let v := roleHolder s 3
  let s := setB (setF s HIF_STAT_OWNER (o.getD 0)) HIF_STAT_OWNER_V o.isSome
  setB (setF s HIF_STAT_SERVICE (v.getD 0)) HIF_STAT_SERVICE_V v.isSome

/-! ### Images and the open update (R458, R459) -/

def imageAt (s : State) (i : Nat) : ImageRec := sparseGet (fun _ => ImageRec.empty) s.boot.images i

def modBoot (s : State) (f : BootState → BootState) : State := { s with boot := f s.boot }

/-- Show the boot record's states (R471). -/
def showImages (s : State) : State :=
  [0, 1].foldl (fun s i =>
    let x := imageAt s i
    setF (setF s (SYS_IMG_STATE i) x.state) (SYS_IMG_SVN i) (if x.state = 0 then 0 else x.head.svn)) s

def setImage (s : State) (i : Nat) (x : ImageRec) : State :=
  showImages (modBoot s fun b => { b with images := sparseSet (fun _ => ImageRec.empty) b.images i x })

/-- Show the open update (R471). -/
def showUpdate (s : State) : State :=
  let u := s.boot.update
  setF (setB s SYS_BOOT_UPD_OPEN u.isSome) SYS_BOOT_UPD_SLOT ((u.map (·.slot)).getD 0)

/-- The open update closes and leaves the image EMPTY (R459). -/
def closeUpdate (s : State) : State := match s.boot.update with
  | some u => showUpdate (modBoot (setImage s u.image ImageRec.empty) fun b => { b with update := none })
  | none => s

/-! ### Detachment (R397, R401) -/

/-- A slot is detached: `cause` as in 0x1003 (R397). -/
def detach (s : State) (h cause : Nat) : State :=
  if !attached s h then s
  else
    let n := (slotOf s h).ring.length
    let s := record s 0x1003 h (leBytes 1 cause)
    let s := setF (setB (setF s (HIF_H_STAT_ROLE h) 0) (HIF_H_STAT_ATT h) false) (HIF_H_NOTE_MASK h) 0
    let s := wr (wr s (HIF_H_UDP_IP h) 0) (HIF_H_UDP_PORT h) 0
    let s := bump (modSlot s h fun x => { x with ring := [], deferred := [], owed := [], reasm := none }) (HIF_H_CNT_DROP_UNITS h) n
    let s := showHif (loseAll s h (heldBy s h) 0 none)
    let s := releaseFreeze s h
    let s := if (s.boot.update.map (·.slot)) == some h then closeUpdate s else s
    if portOf s h = 2 then showCan (setB s (CAN_CTRL_HOSTLINK 1) false) 1 else s

/-! ### LEASE and RELEASE (R396, R398, R408) -/

/-- The role of a slot may hold a lease of this kind (R396). -/
def mayHold (role kind : Nat) : Bool := decide (role = 0 ∨ role = 3) || (decide (role = 1) && decide (kind ≠ 0))

/-- A slot may take a lease from another one (R396). -/
def mayTake (s : State) (h g : Nat) : Bool :=
  decide (roleOf s h = 3) || (decide (roleOf s h = 0) && decide (roleOf s g = 1))

/-- The items of a payload: kind, the reserved byte and the number. -/
def leaseItems (p : List Byte) : List (Nat × Nat × Nat) :=
  (List.range (leAt p 0 2)).map fun k => (leAt p (4 + 4 * k) 1, leAt p (5 + 4 * k) 1, leAt p (6 + 4 * k) 2)

/-- The resources of one item. -/
def itemRes (s : State) (members : Bool) (r : Res) : List Res := r :: (if members then membersOf s r else [])

/-- The response of LEASE and RELEASE (R408). -/
def leaseBody (n pos holder : Nat) : List Byte := leBytes 2 n ++ leBytes 2 pos ++ leBytes 1 holder

/-- What stands against an item of LEASE: the status, and the holder of the resource that stands in its way. -/
def itemRefusal (s : State) (h flags : Nat) (i : Nat × Nat × Nat) : Option (Nat × Nat) :=
  let r : Res := (i.1, i.2.2)
  let holder := (holderOf s r.1 r.2).getD 255
  if !mayHold (roleOf s h) i.1 then some (stLease, 255)
  else if !(decide (flags < 4) && decide (i.2.1 = 0) && decide (i.2.2 < kindSize i.1)) then some (stInvalid, if i.2.2 < kindSize i.1 then holder else 255)
  else
    let blocked := (itemRes s (flags.testBit 0) r).findSome? fun q => match holderOf s q.1 q.2 with
      | some g => if g ≠ h ∧ !(flags.testBit 1 && mayTake s h g) then some g else none
      | none => none
    blocked.map fun g => (stHeld, g)

/-- The first item that is refused: position, status, holder. -/
def firstRefusal (s : State) (h flags : Nat) : List (Nat × Nat × Nat) → Nat → Option (Nat × Nat × Nat)
  | [], _ => none
  | i :: l, k => match itemRefusal s h flags i with
    | some x => some (k, x.1, x.2)
    | none => firstRefusal s h flags l (k + 1)

/-- Give slot `h` a resource as an item of its own, or as a member of item `k` (R398). -/
def grant (s : State) (h : Nat) (named : List Res) (k : Res) (r : Res) : State :=
  if r = k then modHif (setHolder s r.1 r.2 (some h)) fun x => { x with tie := sparseDel x.tie (resOf r) }
  else if holds s h r.1 r.2 || named.contains r then s
  else modHif (setHolder s r.1 r.2 (some h)) fun x => { x with tie := sparseSet (fun _ => none) x.tie (resOf r) (some (resOf k)) }

/-- LEASE (R398): granted in whole or refused in whole. -/
def leaseCmd (s : State) (h : Nat) (p : List Byte) : Reply :=
  let items := leaseItems p
  let flags := leAt p 2 1
  match firstRefusal s h flags items 0 with
  | some x => { s := s, status := x.2.1, body := leaseBody 0 x.1 x.2.2 }
  | none =>
    if 4 ≤ flags ∨ leAt p 3 1 ≠ 0 then { s := s, status := stInvalid, body := leaseBody 0 0 255 }
    else
      let named := items.map fun i => ((i.1, i.2.2) : Res)
      let all := (named.flatMap (itemRes s (flags.testBit 0))).dedup
      let s := hostSlots.foldl (fun s g =>
        if g = h then s else loseAll s g (all.filter fun r => holds s g r.1 r.2) 1 (some h)) s
      let s := named.foldl (fun s k => (itemRes s (flags.testBit 0) k).foldl (fun s r => grant s h named k r) s) s
      { s := s, status := stOk, body := leaseBody all.length 0xFFFF 255 }

/-- What stands against an item of RELEASE. -/
def releaseBad (flags : Nat) (i : Nat × Nat × Nat) : Bool :=
  !(decide (flags < 2) && decide (i.2.1 = 0) && (decide (i.1 = 255) || decide (i.2.2 < kindSize i.1)))

/-- RELEASE (R399): items that the slot does not hold are ignored. -/
def releaseCmd (s : State) (h : Nat) (p : List Byte) : Reply :=
  let items := leaseItems p
  let flags := leAt p 2 1
  if roleOf s h = 2 ∧ !items.isEmpty then { s := s, status := stLease, body := leaseBody 0 0 255 }
  else if 2 ≤ flags ∨ leAt p 3 1 ≠ 0 then { s := s, status := stInvalid, body := leaseBody 0 0 255 }
  else
    let bad := items.findIdx fun i => releaseBad flags i
    if bad < items.length then { s := s, status := stInvalid, body := leaseBody 0 bad 255 }
    else
      let l := (items.flatMap fun i =>
        if i.1 = 255 then heldBy s h else itemRes s (flags.testBit 0) (i.1, i.2.2)).dedup.filter fun r => holds s h r.1 r.2
      let tied := (tiedTo s h l).filter fun r => !l.contains r
      { s := loseAll s h l 0 none, status := stOk, body := leaseBody (l.length + tied.length) 0xFFFF 255 }

/-- A change of role: leases that the new role may not hold are lost (R395). -/
def roleLeases (s : State) (h role : Nat) : State :=
  loseAll s h ((heldBy s h).filter fun r => !mayHold role r.1) 2 none

end Sys2Proof.Machine
end

