-- ==== Sys2Proof/Machine/Sup.lean ====
section
/-!
DEFINITION. Sys2Proof/Machine/Sup.lean: state words and their roll-up (R26 to R35), the hardware enables (R15, R16) and the
supervision of the processors (R36).
-/
namespace Sys2Proof.Machine

/-! ### State words of channels -/

/-- Code of UNKNOWN in ACTUAL. -/
def acUnknown : Nat := 4

/-- ACTUAL of a channel (R22, R33). -/
def chActual (s : State) (c : Nat) : Nat :=
  if !chUsed s c then 0 else if isLocal c then actualLocal s c else actualRemote s c

/-- FAULT of a channel (R26). -/
def chFault (s : State) (c : Nat) : Bool := if isLocal c then faultLocal s c else decide ((remCh s c).fcode ≠ 0)

/-- The resources on a channel's path (R22). -/
def pathOf (s : State) (c : Nat) : List Res := [(kCh, c), (kSec, chSection s c), (kZone, chZone s c), (kImpl, 0)]

/-- A lost lease has set down a request on the path, and that request has not been written since (R399). -/
def setDownPath (s : State) (c : Nat) : Bool :=
  (pathOf s c).any fun r => sparseGet (fun _ => false) s.hif.setDown (resOf r)

/-- The enables, or the forced-off state that their loss left, hold the channel off (R29). -/
def enableCause (s : State) (c : Nat) : Bool :=
  !enablesOk s || (protBits s c).testBit 1 || (isLocal c && forcedOff s c && !(protBits s c).testBit 2)

/-- MAP holds the channel off, or has not yet switched it on; an ON that waits for its peak is DRV's (R29, R182). -/
def mapHolds (s : State) (c : Nat) : Bool :=
  let m := chMap s c
  let eff := effRequest s c
  decide (m.hold = 8) || (decide (eff = rqOn) && !untestable s c && !m.des)
    || (decide (eff = rqAuto) && (!m.des || m.again || (slotsWhere s fun e => decide (e.d.ch = c) && decide (e.d.origin = 0)
      && decide (e.d.action = 0) && decide (e.state = stPending ∨ e.state = stArmed ∨ e.state = stLate)).any fun i => !heldEdge s i))

/-- A protection of DRV, the Kettle, or a ring or node fault holds the channel off now (R29, R191, R219, R225). -/
def protNow (s : State) (c : Nat) : Nat → Bool
  | 3 => isLocal c && decide (chHold s c ≠ 0 ∨ grpHold s (groupOf c) ≠ 0)
  | 4 => isLocal c && decide (limOf s c = 0)
  | _ => !isLocal c && (remoteSafe s c || decide ((remCh s c).fcode ≠ 0))

/-- The causes 0x3 to 0x5 that hold now go on holding after their stage has released; a remote output that is energised ends
them (R29). A ring that is not yet running, or a node that is not fitted, decides nothing. -/
def latchProt (s : State) (c : Nat) : State :=
  let run := isLocal c || decide ((remCh s c).fcode ≠ 0) || (ringRuns s (ringOf c) && nodeFitted s c)
    || decide (ringState s (ringOf c) = rsFault)
  let s := if !isLocal c && decide (chActual s c = 1 ∨ chActual s c = 2) then clearProt s c else s
  [3, 4, 5].foldl (fun s k => if run && protNow s c k then setProt s c k else s) s

/-- The causes that may hold for a channel, in the order of R29. -/
def causesOf (s : State) (c : Nat) : List (Nat × Bool) :=
  let p := protBits s c
  let eff := effRequest s c
  let last := sparseGet (fun _ => 0) s.sys.lastOrigin c
  let off := decide (issuedState s c = 0)
  [(0xB, !chUsed s c), (1, enableCause s c), (2, s.sys.tripped || p.testBit 2),
   (3, p.testBit 3 || protNow s c 3), (4, p.testBit 4 || protNow s c 4), (5, p.testBit 5 || protNow s c 5),
   (6, decide (eff = rqOff) && setDownPath s c), (7, decide (eff = rqOff)), (9, decide (eff = rqAuto) && !(chPoseValid s c && chMotionValid s c)),
   (8, mapHolds s c),
   (0xC, off && (decide (last = 2) || (decide (eff = rqTest) && decide (last = 0)))), (0xA, isLocal c && (waitingOf s c).isSome)]

/-- CAUSE of a channel (R29): where no other cause holds, MAP has not yet switched it on. -/
def chCause (s : State) (c : Nat) : Nat :=
  if chActual s c ≠ 0 then 0 else ((causesOf s c).find? (·.2)).elim 8 (·.1)

/-- The state differs from the expected one (R34). -/
def differsNow (s : State) (c : Nat) : Bool :=
  let a := chActual s c
  let e := effRequest s c
  if e = rqOff then decide (a ≠ 0)
  else if e = rqOn then decide (a = 0)
  else decide (a = 0) != decide (issuedState s c = 0)

/-- Boundaries at which the states must have differed: 1 ms for a local and 2 ms for a remote channel (R34). -/
def graceOf (c : Nat) : Nat := if isLocal c then 5 else 9

def differCount (s : State) (c : Nat) : Nat := sparseGet (fun _ => 0) s.sys.differ c

def setDiffer (s : State) (c n : Nat) : State := { s with sys := { s.sys with differ := sparseSet (fun _ => 0) s.sys.differ c n } }

/-- Count a boundary for MISMATCH: time with CAUSE 0xA does not count, and UNKNOWN is not compared (R34, R35). -/
def countDiffer (s : State) (c : Nat) : State :=
  if chActual s c = acUnknown ∨ !differsNow s c then setDiffer s c 0
  else if chCause s c = 0xA then s
  else setDiffer s c (min (graceOf c) (differCount s c + 1))

/-- MISMATCH is due (R34). -/
def mismatchDue (s : State) (c : Nat) : Bool := decide (graceOf c ≤ differCount s c)

/-- Bits of a state word below HOLDER and above REQ (R26). -/
def wordBits (ereq actual : Nat) (mm : Bool) (cause non : Nat) (anyMm anyFlt fault : Bool) : Nat :=
  ereq * 2 ^ 4 + actual * 2 ^ 8 + bit mm 11 + cause * 2 ^ 12 + non * 2 ^ 16 + bit anyMm 26 + bit anyFlt 27 + bit fault 28

/-- Put what the data path shows into a state word: REQ, HOLDER and LEASED stand (R27). -/
def showWord (s : State) (i v : Nat) : State := wr s i ((rd s i &&& 0xE0000007#32) ||| BitVec.ofNat 32 v)

/-- The state word of a channel at a boundary; a setting of MISMATCH is recorded (R28, R34). -/
def showChannel (s : State) (c : Nat) : State :=
  let s := countDiffer (latchProt s c) c
  let mm := mismatchDue s c
  let a := chActual s c
  let e := effRequest s c
  let k := chCause s c
  let f := chFault s c
  let was := flag s (SCH_CH_STATE_MISMATCH c)
  let s := showWord s (SCH_CH_STATE c) (wordBits e a mm k (if a = 1 ∨ a = 2 then 1 else 0) mm f f)
  if mm && !was then record s 0x1002 c (leBytes 1 e ++ leBytes 1 a ++ leBytes 1 k) else s

/-- MISMATCH_SET of a channel. -/
def mismatchSet (s : State) (c : Nat) : State :=
  if mismatchDue s c && !flag s (SCH_CH_STATE_MISMATCH c) then
    let s := setB (setB s (SCH_CH_STATE_MISMATCH c) true) (SCH_CH_STATE_ANY_MM c) true
    record s 0x1002 c (leBytes 1 (getF s (SCH_CH_STATE_EREQ c)) ++ leBytes 1 (getF s (SCH_CH_STATE_ACTUAL c)) ++ leBytes 1 (getF s (SCH_CH_STATE_CAUSE c)))
  else s

def execMismatchSet (c : Nat) (s : State) : Host.Outcome State Fault Refusal := answer (decide (c < 512)) (mismatchSet s c)

/-! ### Roll-up (R28) -/

/-- EREQ of an aggregate level from the requests on its path, nearest first (R24, R26). -/
def ereqOf (l : List Nat) : Nat :=
  if l.any fun r => decide (r = rqOff) then rqOff else (l.find? fun r => decide (r ≠ rqInherit)).getD rqOff

/-- ACTUAL of a level from its members in use (R28). -/
def levelActual (l : List Nat) : Nat :=
  if l.all fun a => decide (a ≠ 1 ∧ a ≠ 2) then 0
  else if l.all fun a => decide (a = 1) then 1
  else if l.all fun a => decide (a = 1 ∨ a = 2) then 2
  else 3

/-- CAUSE of a level: the causes of its members that are OFF, and its ACTUAL (R28). -/
def levelCause (members : Bool) (actual : Nat) (l : List Nat) : Nat :=
  if !members then 0xB
  else if actual = 1 ∨ actual = 2 then 0
  else match l with
    | [] => 0
    | k :: r => if r.all fun x => decide (x = k) then k else 0xF

/-- The state word of an aggregate level from its member channels in use (R28). R26 gives an expected state to channels only:
that MISMATCH reads 0 at the other levels is the model's choice (log entry 44). -/
def showLevel (s : State) (i ereq : Nat) (l : List Nat) : State :=
  let act := fun (c : Nat) => getF s (SCH_CH_STATE_ACTUAL c)
  let a := levelActual (l.map act)
  let k := levelCause (!l.isEmpty) a ((l.filter fun c => decide (act c = 0)).map fun c => getF s (SCH_CH_STATE_CAUSE c))
  let non := (l.filter fun c => decide (act c = 1 ∨ act c = 2)).length
  showWord s i (wordBits ereq a false k non (l.any fun c => flag s (SCH_CH_STATE_MISMATCH c)) (l.any fun c => flag s (SCH_CH_STATE_FAULT c)) false)

/-- Channels whose state word may differ from its reset value: those in use, those whose word differs now, and those with a fault.
The word of every other channel stands at the value that R26 and R29 give an unused channel. -/
def wordChannels (s : State) : List Nat :=
  let l := (sparseKeys s.regs).filter fun i => decide (0x0D00 ≤ i ∧ i < 0x0F00)
  let faulty := (drvChans ++ sparseKeys s.fjl.ch).filter (chFault s)
  (sortBy (fun a b => decide (a ≤ b)) (usedChannels s ++ (l.map fun i => i - 0x0D00) ++ faulty)).dedup

/-- The state words of one boundary, from the channels upwards (R28). -/
def rollUp (s : State) : State :=
  let s := (wordChannels s).foldl showChannel s
  let used := usedChannels s
  let ri := getF s SYS_IMPL_STATE_REQ
  let rz := fun (z : Nat) => getF s (SYS_ZON_STATE_REQ z)
  let s := (List.range 64).foldl (fun s m =>
    showLevel s (SYS_SEC_STATE m) (ereqOf [getF s (SYS_SEC_STATE_REQ m), rz (secZone s m), ri]) (used.filter fun c => decide (chSection s c = m))) s
  let s := (List.range 8).foldl (fun s z => showLevel s (SYS_ZON_STATE z) (ereqOf [rz z, ri]) (used.filter fun c => decide (chZone s c = z))) s
  showLevel s SYS_IMPL_STATE (ereqOf [ri]) used

/-! ### Enables (R15, R16, R184) -/

/-- ENABLE_LOSS at instant `t`: the levels at OUT_EN_A and OUT_EN_B_N. -/
def enableLoss (s : State) (a bn : Bool) (t : Nat) : State :=
  let was := enablesOk s
  let s := { s with sys := { s.sys with enA := a, enBN := bn } }
  if was && !enablesOk s && s.sys.running then
    let s := record s 0x2001 noInst (leBytes 1 (bit a 0 + bit bn 1))
    forcePwm (safeSequence (forceDrv s 1 t) 1 t)
  else s

/-- ENABLE_LOSS: at least one of the levels is inactive. -/
def execEnableLoss (a bn : Bool) (t : Nat) (s : State) : Host.Outcome State Fault Refusal :=
  answer ((!a || bn) && inThisStep s t) (enableLoss s a bn t)

/-- ENABLE_RESTORED: nothing restarts by itself (R16). -/
def enableRestored (s : State) : State := { s with sys := { s.sys with enA := true, enBN := false } }

def execEnableRestored (s : State) : Host.Outcome State Fault Refusal := .next (enableRestored s)

/-! ### Supervision (R36, R401, R443) -/

/-- Mode of the device: 0 service, 1 start-up, 2 test, 3 recovery. -/
def setMode (s : State) (m : Nat) : State := setF s SYS_BOOT_MODE m

/-- What a trip takes from the hosts: every slot is detached and every frame that waits is discarded (R401). -/
def dropHosts (s : State) : State :=
  hostSlots.foldl (fun s h =>
    let s := detach s h 2
    let n := (slotOf s h).ring.length
    bump (modSlot s h fun x => { x with ring := [], reasm := none }) (HIF_H_CNT_DROP_UNITS h) n) s

/-- A supervision trip at instant `t`: `ls` for a lockstep difference, else a heartbeat timeout (R36). -/
def supervisionTrip (s : State) (t : Nat) (ls : Bool) : State :=
  let s := setB s (if ls then SYS_SUPV_CTRL_LS_ERR else SYS_SUPV_CTRL_HB_ERR) true
  let s := bump s SYS_SUPV_CTRL_TRIPS
  let s := { s with sys := { s.sys with tripped := true, phase := .held } }
  let s := forcePwm (safeSequence (forceDrv s 2 t) 2 t)
  let s := setMode (setB s CLK_RST_CAUSE_SUPV true) 1
  let v := bit (flag s SYS_SUPV_CTRL_LS_ERR) 0 + bit (flag s SYS_SUPV_CTRL_HB_ERR) 1
  let s := record s 0x1001 noInst (leBytes 1 v ++ leBytes 1 (getF s SYS_SUPV_CTRL_TRIPS))
  let s := canHold (closeUpdate (endFreeze (dropHosts s)))
  modBoot s fun b => { b with trips := absTick s t :: b.trips }

/-- The processors run from the loader's choice of an image on, in recovery too, while no reset and no trip holds them. -/
def processorsRun (s : State) : Bool := !s.sys.inReset && decide (s.sys.phase ≠ .held ∧ s.sys.phase ≠ .loading)

def execLockstepError (t : Nat) (s : State) : Host.Outcome State Fault Refusal :=
  answer (inThisStep s t) (if processorsRun s then supervisionTrip s t true else s)

/-- HEARTBEAT_TIMEOUT: the firmware, which writes the heartbeat, is up. -/
def execHeartbeatTimeout (t : Nat) (s : State) : Host.Outcome State Fault Refusal :=
  answer (inThisStep s t) (if s.sys.phase = .up then supervisionTrip s t false else s)

end Sys2Proof.Machine
end

