-- ==== Sys2Proof/Machine/Reset.lean ====
section
/-!
DEFINITION. Sys2Proof/Machine/Reset.lean: block resets (R450), device resets (R448, R449) and what survives them.
-/
namespace Sys2Proof.Machine

/-! ### Blocks -/

/-- A reset of KIN sets every path coordinate to 0 (R57). -/
def kinReset (s : State) : State :=
  let s := tclear (tclear (resetRegs s fun i => decide (0x0800 ≤ i ∧ i < 0x0A00)) .geo) .zon
  { s with kin := KinState.reset }

/-- Bits of CLK_BRST in use (R450). -/
def brstBits : List Nat := [0, 1, 2, 3, 4, 5, 6, 7, 8, 9, 10, 16, 17, 18, 19]

/-- Reset the block of a bit of CLK_BRST. -/
def blockReset (s : State) (k : Nat) : State :=
  match k with
  | 0 => kinReset s
  | 1 => mapReset s
  | 2 => schReset s
  | 3 => actReset s
  | 4 => drvReset s
  | 5 => fjlReset s 0
  | 6 => fjlReset s 1
  | 7 => cleReset s
  | 8 => pwmReset s
  | 9 => encReset s
  | 10 => ethReset s
  | 16 => canReset s 0
  | 17 => canReset s 1
  | 18 => canReset s 2
  | 19 => canReset s 3
  | _ => s

/-- A unit of ENC or SNS is the source of a loop that is not OFF, or is named by KIN while it runs (R296, R450). -/
def encUsed (s : State) : Bool :=
  let loop := loopsAll.any fun n => decide (getF s (CLE_LP_STAT_MODE n) ≠ 0) &&
    (decide (getF s (CLE_LP_MSRC_SRC n) ≠ 0 ∧ getF s (CLE_LP_MSRC_SRC n) ≠ 7) || flag s (CLE_LP_CTRL_FRC_EN n))
  let kin := flag s KIN_CTRL_EN && (decide (getF s KIN_CTRL_WHL_EN ≠ 0) || decide (getF s KIN_CTRL_ISO_EN ≠ 0) || flag s KIN_CTRL_IMU_EN
    || hencUsed s)
  loop || kin

/-- The block's enable is 1, or its reset is refused for another reason (R450). -/
def blockBusy (s : State) (k : Nat) : Bool :=
  match k with
  | 0 => flag s KIN_CTRL_EN || flag s SCH_CTRL_EN
  | 1 => flag s MAP_CTRL_EN
  | 2 => flag s SCH_CTRL_EN
  | 3 => flag s ACT_CTRL_EN
  | 4 => flag s DRV_CTRL_EN
  | 5 => flag s (FJL_CTRL_EN 0)
  | 6 => flag s (FJL_CTRL_EN 1)
  | 7 => flag s CLE_CTRL_EN
  | 8 => pwmGroups.any fun g => flag s (PWM_GRP_CTRL_EN g)
  | 9 => encUsed s
  | 10 => flag s ETH_CTRL_EN
  | 16 => flag s (CAN_CTRL_EN 0)
  | 17 => flag s (CAN_CTRL_EN 1)
  | 18 => flag s (CAN_CTRL_EN 2)
  | 19 => flag s (CAN_CTRL_EN 3)
  | _ => false

/-- A write of CLK_BRST is accepted (R450). -/
def brstOk (s : State) (v : Nat) : Bool := brstBits.all fun k => !(v.testBit k && blockBusy s k)

/-- Blocks are reset at the next step boundary, and released at the following one (R450). -/
def brstWrite (s : State) (h v : Nat) : State :=
  let l := brstBits.filter fun k => v.testBit k
  if l.isEmpty then s
  else
    let s := l.foldl (fun s k =>
      let s := blockReset s k
      { s with sys := { s.sys with brst := sparsePut s.sys.brst k (s.now + 2) } }) s
    record s 0x1105 h (leBytes 4 (l.map fun k => 2 ^ k).sum)

/-- Blocks whose reset is over are released. -/
def brstRelease (s : State) : State := { s with sys := { s.sys with brst := s.sys.brst.filter fun e => decide (s.now < e.2) } }

/-- BLOCK_RESET_RELEASE of a block: it is released at its boundary (R450). -/
def execBlockResetRelease (k : Nat) (s : State) : Host.Outcome State Fault Refusal :=
  answer (brstBits.contains k)
    { s with sys := { s.sys with brst := s.sys.brst.filter fun e => !(decide (e.1 = k) && decide (e.2 ≤ s.now)) } }

/-! ### Device resets -/

/-- The data path at its reset values: every block but GNS and TB0 (R449). The step count restarts. -/
def dataReset (s : State) (t : Nat) : State :=
  let s := { s with now := 0, tim := { s.tim with base := t } }
  let s := brstBits.foldl blockReset s
  let s := resetRegs s fun i => decide (0x10 ≤ i ∧ i < 0x100) || decide (i / 256 = 0x0D ∨ i / 256 = 0x0E)
  let s := timReset { s with tables := [], can := CanState.reset }
  { s with sys := { SysState.reset with
    inReset := s.sys.inReset
    phase := s.sys.phase
    enA := s.sys.enA
    enBN := s.sys.enBN
    pllPHold := s.sys.pllPHold
    sources := s.sys.sources } }

/-- A bank whose writing was cut off fails its CRC (R466). -/
def cutSave (s : State) : State := match s.boot.saving with
  | some x => modBoot s fun b => { b with banks := sparseSet (fun _ => CfgBank.empty) b.banks x.1 CfgBank.empty, saving := none }
  | none => s

/-- Bits of CLK_STAT that show what the clocks do now (R442). -/
def clkLive : Word := 0xF#32

/-- A device reset begins at instant `t` with the cause of bit `k` of CLK_RST_CAUSE (R448, R449). -/
def deviceReset (s : State) (t k : Nat) : State :=
  let st := getF s ETH_BYP_STAT_STATE
  let s := { s with eth := { s.eth with wasIn := s.eth.wasIn || decide (st = 1 ∨ st = 2) } }
  let s := endFreeze (cutSave (closeUpdate s))
  let cause := rd s CLK_RST_CAUSE ||| BitVec.ofNat 32 (2 ^ k)
  let live := rd s CLK_STAT &&& clkLive
  let s := dataReset s (absTick s t)
  let keep := fun (i : Nat) => decide (i = CLK_RST_CAUSE ∨ i = CLK_CNT_UNLOCK ∨ i = CLK_XCFG)
  let s := resetRegs s fun i => decide (i < 0x300) || (decide (i / 256 = 4) && !keep i)
  let s := wr (wr s CLK_RST_CAUSE cause) CLK_STAT live
  let s := monReset { s with hif := HifState.reset }
  let s := { s with sys := { s.sys with inReset := true, phase := .loading, sources := s.sys.sources ||| 2 ^ k } }
  modBoot s fun b => { b with
    running := 0, nextMode := 0, trips := [], lastSave := none, restart := false, second := false, causeBits := b.causeBits ||| 2 ^ k }

end Sys2Proof.Machine
end

