-- ==== Sys2Proof/Machine/Boot.lean ====
section
/-!
DEFINITION. Sys2Proof/Machine/Boot.lean: start-up, images, firmware update and the persistent configuration (chapter 18).
-/
namespace Sys2Proof.Machine

/-- Image states (R458). -/
def imEmpty : Nat := 0
def imUntested : Nat := 1
def imTrial : Nat := 2
def imValid : Nat := 3
def imBad : Nat := 4

def imageState (s : State) (i : Nat) : Nat := (imageAt s i).state

def setImageState (s : State) (i st : Nat) : State := setImage s i { imageAt s i with state := st }

/-! ### The persistent configuration (R466, R467) -/

/-- Registers of the persistent set, with the bits that belong to it (R467). -/
def persistent : List (Nat × Word) :=
  ([HIF_H_CFG 0, HIF_H_CFG 1, HIF_H_CFG 2, HIF_H_CFG 3, HIF_CANB, HIF_ISO_CFG] ++ (List.range 8).map HIF_ISO_ZMAP
    ++ [ETH_MAC_LO, ETH_MAC_HI, ETH_IP_ADDR, ETH_IP_MASK, ETH_UDP, ETH_PT_CFG 0, ETH_PT_CFG 1, ETH_PT_LAT 0, ETH_PT_LAT 1,
        CAN_ISO_NAME_LO, CAN_ISO_NAME_HI, CAN_ISO_CFG, ACT_LRN, ACT_GATE, ACT_WEAR, ACT_DEF_ON, ACT_DEF_OFF]
    ++ (List.range 32).map fun k => 0x0F10 + k).map (fun i => (i, 0xFFFFFFFF#32))
  ++ [(ETH_BYP_CTRL, 0x00FFFF0C#32), (SYS_SUPV_CTRL, 0x000003FF#32)]

/-- An entry of DLY as it is saved: SEED bits name the estimates to return, and word 7 is not saved (R467). -/
def savedDly (s : State) (c : Nat) : List Byte :=
  let b := tget s .dly c
  let conf := leAt b 24 4 % 64 + bit (decide (2 ≤ dlySrc s c 0)) 6 + bit (decide (2 ≤ dlySrc s c 1)) 7
  b.take 24 ++ leBytes 4 conf ++ [0#8, 0#8, 0#8, 0#8]

/-- The content of a bank (R467). -/
def bankContent (s : State) (seq : Nat) : CfgBank :=
  { valid := true, seq := seq, regs := persistent.foldl (fun m e => sparsePut m e.1 (rd s e.1 &&& e.2)) [],
    dly := (tkeys s .dly).foldl (fun m c => sparsePut m c (savedDly s c)) [] }

def bankAt (s : State) (k : Nat) : CfgBank := sparseGet (fun _ => CfgBank.empty) s.boot.banks k

def setBank (s : State) (k : Nat) (b : CfgBank) : State :=
  modBoot s fun x => { x with banks := sparseSet (fun _ => CfgBank.empty) x.banks k b }

/-- The valid bank with the higher sequence number (R467). -/
def newestBank (s : State) : Option Nat :=
  let a := bankAt s 0
  let b := bankAt s 1
  if a.valid && b.valid then some (if a.seq < b.seq then 1 else 0)
  else if a.valid then some 0 else if b.valid then some 1 else none

/-- Apply a bank (R467): DLY as a table write. -/
def applyBank (s : State) (k : Nat) : State :=
  let b := bankAt s k
  let s := persistent.foldl (fun s e => wr s e.1 ((rd s e.1 &&& ~~~ e.2) ||| sparseGet regReset b.regs e.1 &&& e.2)) s
  let s := b.dly.foldl (fun s e => dlyWrite s e.1 e.2) s
  setB (setB s SYS_BOOT_CFG_BANK (decide (k = 1))) SYS_BOOT_CFG_DEF false

/-- Step 8 of the sequence (R454, R467). -/
def applyConfig (s : State) : State := match newestBank s with
  | some k => applyBank s k
  | none => record (setB s SYS_BOOT_CFG_DEF true) 0xE007 noInst []

/-! ### Choosing an image (R458, R460, R464) -/

/-- Where recovery is entered with the data path running, after supervision trips, no actuating enable stays set, the outputs take
the states of R14 and the relay returns to bypass (R464). The data path is not reset: a trip resets the processors only (R448, R456),
so SYS_STEP_CNT counts on and SYS_SUPV_CTRL stands (R18, R37). -/
def recoveryOff (s : State) : State :=
  let s := pwmGroups.foldl (fun s g => if pwmRuns s g then stopPwm (setB s (PWM_GRP_CTRL_EN g) false) g else s) s
  let s := setB (setB (setB s DRV_CTRL_EN false) (FJL_CTRL_EN 0) false) (FJL_CTRL_EN 1) false
  let s := cleEnable (setB s CLE_CTRL_EN false)
  let s := [0, 1].foldl (fun s k => setB (setB s (ENC_EMU_CFG_EN k) false) (TIM_PPS_CFG_EN k) false) s
  if relayState s = byInserting ∨ relayState s = byInserted then returnStart s (absTick s (nowTick s)) 3 else s

/-- Recovery is entered: the recovery monitor serves the SPI slot (R464). -/
def enterRecovery (s : State) (cause : Nat) : State :=
  let s := if s.sys.running then recoveryOff s else s
  let s := { s with sys := { s.sys with phase := .recovery, tripped := false } }
  let s := setMode (setF (setF s SYS_BOOT_RCAUSE cause) SYS_FW_MAJOR 0) 3
  record (modBoot s fun b => { b with restart := false, nextMode := 0 }) 0xE008 noInst (leBytes 1 cause)

/-- The loader takes an image for verification (R454, step 6). -/
def tryImage (s : State) (i : Nat) : State :=
  { modBoot s (fun b => { b with running := i }) with sys := { s.sys with phase := .verifying } }

/-- The other image is tried if it is VALID, else recovery is entered (R456, R458). -/
def tryOther (s : State) (i cause : Nat) : State :=
  let o := 1 - i
  let s := modBoot s fun b => { b with second := true }
  if imageState s o = imValid then tryImage s o else enterRecovery s cause

/-- A TRIAL image has ended without a commit (R460). -/
def rejectTrial (s : State) (i : Nat) : State :=
  record (modBoot (setImageState s i imBad) fun b => { b with trialRan := false }) 0xE003 i []

/-- Step 5 of the sequence: the boot record, BOOT_SEL_N and the choice (R454, R458, R460). -/
def chooseImage (s : State) : State :=
  let s := showImages (modBoot s fun b => { b with second := false })
  let p := s.boot.preferred
  let trialEnded := decide (imageState s p = imTrial) && s.boot.trialRan
  let s := if trialEnded then rejectTrial s p else s
  if s.boot.bootSelLow then enterRecovery s 1
  else if s.boot.nextMode = 3 then enterRecovery s 3
  else if imageState s p = imTrial ∨ imageState s p = imValid then tryImage s p
  else tryOther s p 2

/-- What is wrong with an image: REASON of FW_END, 0 for nothing (R457, R459). -/
def imageReason (s : State) (x : ImageHead) : Nat :=
  if !x.sigOk then 2
  else if !x.stepping then 3
  else if bitsOf x.version 31 24 ≠ 3 then 4
  else if x.svn < s.boot.minSvn then 5
  else 0

/-- TB1 to TB3 start from 0 where the data path leaves reset (R449). -/
def startBases (s : State) : State := [1, 2, 3].foldl (fun s n => modTb s n fun b => { b with at_ := s.tim.base, val := 0 }) s

/-- Kind of a boot, as its record tells it (R470). -/
def bootKind (s : State) (i : Nat) : Nat :=
  if s.boot.restart then 3 else if imageState s i = imTrial then 2 else if i ≠ s.boot.preferred then 1 else 0

/-- Steps 7 to 9: the blocks leave reset, the configuration is applied and the firmware is up (R454, R456, R463). -/
def bootDone (s : State) (i t : Nat) : State :=
  let restart := s.sys.running
  let test := decide (s.boot.nextMode = 2)
  let v := (imageAt s i).head.version
  let kind := bootKind s i
  let s := if restart then s else startBases { s with now := 0, tim := { s.tim with base := absTick s t } }
  let s := { s with sys := { s.sys with phase := .up, running := true, tripped := false } }
  let s := if restart then canRestart s else if test then s else applyConfig s
  let s := wr (setMode s (if test then 2 else 0)) SYS_FW v
  let s := setF (setB s SYS_BOOT_TRIAL (decide (imageState s i = imTrial))) SYS_BOOT_IMG i
  let n := min 65535 (s.boot.boots + 1)
  let s := setF (setB s SYS_BOOT_FALLBK (decide (i ≠ s.boot.preferred))) SYS_BOOT_BOOTS n
  let s := modBoot s fun b => { b with
    boots := n, restart := false, second := false, nextMode := if test then 2 else 0, trialRan := decide (imageState s i = imTrial) }
  let s := record s 0xE001 i (leBytes 4 v.toNat ++ leBytes 1 kind)
  let s := if test && !restart then record s 0xE00A s.boot.testSlot [] else s
  if !test && decide (s.recd.freeze = some 4) then endFreeze s else s

/-- IMAGE_VERIFIED at instant `t`: the check of the chosen image has ended (R457, R458). -/
def imageVerified (s : State) (t : Nat) : State :=
  if s.sys.phase ≠ .verifying then s
  else
    let i := s.boot.running
    let r := imageReason s (imageAt s i).head
    if r = 0 then bootDone s i t
    else
      let s := record (setImageState s i imBad) 0xE002 i (leBytes 1 r)
      if s.boot.second then enterRecovery s 2 else tryOther s i 2

def execImageVerified (t : Nat) (s : State) : Host.Outcome State Fault Refusal :=
  answer (inThisStep s t) (imageVerified s t)

/-- The latest trip is the third within 600 s of the first (R456). -/
def repeatedTrips (s : State) : Bool := match s.boot.trips with
  | a :: _ :: c :: _ => decide (a ≤ c + 600 * ticksPerSec)
  | _ => false

/-- FIRMWARE_RESTART after a supervision trip (R443, R456, R460). A trip in recovery leads back into recovery, which only a reset
leaves (R464). -/
def firmwareRestart (s : State) : State :=
  if s.sys.phase ≠ .held ∨ s.sys.pllPHold then s
  else
    let i := s.boot.running
    let r := getF s SYS_BOOT_RCAUSE
    let s := modBoot s fun b => { b with restart := true, second := false }
    let s := setF (setF s (CLK_X_EVT_STATE 2) 0) (CLK_X_EVT_STATE 3) 0
    if r ≠ 0 then enterRecovery s r
    else if imageState s i = imTrial then tryOther (rejectTrial s i) i 2
    else if repeatedTrips s then tryOther (modBoot s fun b => { b with trips := [] }) i 4
    else tryImage s i

def execFirmwareRestart (s : State) : Host.Outcome State Fault Refusal := .next (firmwareRestart s)

/-! ### The end of a reset and power-up (R428, R449, R454) -/

/-- Records that a brown-out or a thermal shutdown left to be written (R428). -/
def markRecords (s : State) : State :=
  let s := match s.mon.borMark with
    | some x => record s 0xD005 x.1 (leBytes 4 x.2.toNat)
    | none => s
  let s := match s.mon.tsdMark with
    | some x => monFault (record s 0xD003 x.1 (leBytes 4 x.2.toNat)) MON_FLT_TSD
    | none => s
  modMon s fun x => { x with borMark := none, tsdMark := none }

/-- Least length of a device reset: 10 µs (R449). -/
def resetLeast : Nat := 2000

/-- A source of the reset ends at instant `t`; with the last one the reset ends, and start-up goes on from step 3. -/
def sourceEnds (s : State) (t k : Nat) : State :=
  if !s.sys.inReset ∨ t < resetLeast then s
  else
    let left := s.sys.sources &&& (127 - 2 ^ k)
    let s := { s with sys := { s.sys with sources := left } }
    if left ≠ 0 then s
    else
      let s := { s with sys := { s.sys with inReset := false }, tim := { s.tim with base := absTick s t } }
      let s := record s 0x1101 noInst (leBytes 1 s.boot.causeBits)
      let s := if s.eth.wasIn then { record s 0xA002 noInst (leBytes 1 3) with eth := { s.eth with wasIn := false } } else s
      let s := markRecords (monRestart s)
      chooseImage (modBoot s fun b => { b with causeBits := 0 })

/-- POWER_UP: all but the ferroelectric store and the serial NOR takes its reset value, and steps 1 to 5 run (R449, R454).
The operand is the level of BOOT_SEL_N at step 5 (R465). -/
def powerUp (s : State) (bootSelLow : Bool) : State :=
  let s := cutSave s
  let old := s.recd
  let b := s.boot
  let m := (monReset s).mon
  let en := s.sys
  let s := { State.reset with pending := s.pending, free := s.free, mon := m }
  let s := { s with sys := { s.sys with enA := en.enA, enBN := en.enBN } }
  let s := recPowerUp s old 0
  let s := { s with boot := { BootState.reset with
    images := b.images
    preferred := b.preferred
    minSvn := b.minSvn
    banks := b.banks
    bootSelLow := bootSelLow
    trialRan := b.trialRan } }
  chooseImage (markRecords (record (monRestart s) 0x1101 noInst (leBytes 1 1)))

def execPowerUp (bootSelLow : Bool) (s : State) : Host.Outcome State Fault Refusal := .next (powerUp s bootSelLow)

/-- RESET_ENDED at instant `t`: RESET_N has returned high, or a software reset is over; the level of BOOT_SEL_N is the one that
step 5 samples (R448, R449, R465). -/
def resetEnded (s : State) (t : Nat) (bootSelLow : Bool) : State :=
  let s := modBoot s fun b => { b with bootSelLow := bootSelLow }
  if s.sys.sources.testBit 1 then
    sourceEnds { s with sys := { s.sys with sources := s.sys.sources &&& (127 - 32) } } t 1
  else sourceEnds s t 5

def execResetEnded (t : Nat) (bootSelLow : Bool) (s : State) : Host.Outcome State Fault Refusal :=
  answer (inThisStep s t) (resetEnded s t bootSelLow)

/-! ### Firmware update (R459 to R461, R468) -/

/-- Roles of the firmware commands (R468). -/
def ownerOrService (s : State) (h : Nat) : Bool := decide (roleOf s h = 0 ∨ roleOf s h = 3)

/-- The 16 bytes that FW_INFO gives of an image. -/
def imageInfo (s : State) (i : Nat) : List Byte :=
  let x := imageAt s i
  if x.state = imEmpty then List.replicate 16 0#8
  else
    let size := match x.bytes with
      | some b => leBytes 4 b.length ++ leBytes 4 (crc32 (b.drop 256)).toNat
      | none => leBytes 4 Config.deliveredLength.toNat ++ leBytes 4 Config.deliveredCrc.toNat
    leBytes 1 x.state ++ leBytes 1 0 ++ leBytes 2 x.head.svn ++ leBytes 4 x.head.version.toNat ++ size

/-- A trial runs (R460). -/
def trialRuns (s : State) : Bool := decide (s.sys.phase = .up) && decide (imageState s s.boot.running = imTrial)

/-- FW_INFO. -/
def fwInfo (s : State) (h : Nat) : Reply :=
  if !ownerOrService s h then refuse s stLease
  else
    { s := s, status := stOk,
      body := leBytes 1 s.boot.running ++ leBytes 1 s.boot.preferred ++ leBytes 1 (bit (trialRuns s) 0) ++ leBytes 1 0
        ++ imageInfo s 0 ++ imageInfo s 1 }

/-- FW_BEGIN: accepted, it opens the update, and the slot is erased (R459). The response waits for FW_ERASE_DONE. -/
def fwBegin (s : State) (h : Nat) (p : List Byte) : Reply :=
  let i := leAt p 0 1
  let n := leAt p 4 4
  if !ownerOrService s h then refuse s stLease
  else if !(decide (i < 2) && decide (leAt p 1 3 = 0) && inRange 256 12582912 n && decide (n % 4 = 0)) then refuse s stInvalid
  else if s.boot.update.isSome || (decide (s.sys.phase = .up) && decide (i = s.boot.running)) then refuse s stWrong
  else
    let u : Update := { slot := h, image := i, length := n, written := [], erasing := true }
    { s := showUpdate (modBoot (setImage s i ImageRec.empty) fun b => { b with update := some u }), status := stOk, body := leBytes 1 i }

/-- FW_DATA (R459). -/
def fwData (s : State) (h : Nat) (p : List Byte) : Reply :=
  if !ownerOrService s h then refuse s stLease
  else match s.boot.update with
    | none => refuse s stWrong
    | some u =>
      let d := p.drop 4
      if u.slot ≠ h ∨ u.erasing then refuse s stWrong
      else if leAt p 0 4 ≠ u.written.length ∨ u.length < u.written.length + d.length then refuse s stInvalid
      else
        let w := u.written ++ d
        { s := modBoot s fun b => { b with update := some { u with written := w } }, status := stOk, body := leBytes 4 w.length }

/-- FW_END: what the header and its signature say is the operand of the row (R457, R459). -/
def fwEnd (s : State) (h : Nat) (x : ImageHead) : Reply :=
  if !ownerOrService s h then refuse s stLease
  else match s.boot.update with
    | none => refuse s stWrong
    | some u =>
      if u.slot ≠ h ∨ u.erasing then refuse s stWrong
      else
        let r := if u.written.length < u.length then 1 else imageReason s x
        let st := if r = 0 then imUntested else imBad
        let s := setImage s u.image { state := st, head := x, bytes := some u.written }
        let s := showUpdate (modBoot s fun b => { b with update := none })
        let s := if r = 0 then record s 0xE005 u.image (leBytes 4 x.version.toNat) else s
        { s := s, status := if r = 0 then stOk else stAuth, body := leBytes 1 st ++ leBytes 1 r }

/-- Every enable that R461 names is 0. -/
def mayReset (s : State) : Bool :=
  !(flag s DRV_CTRL_EN || flag s (FJL_CTRL_EN 0) || flag s (FJL_CTRL_EN 1) || flag s CLE_CTRL_EN
    || pwmGroups.any fun g => flag s (PWM_GRP_CTRL_EN g))

/-- A software reset at the next step boundary, to start in a mode (R461, R462). -/
def softReset (s : State) (mode h : Nat) : State :=
  let s := deviceReset s (if s.sys.running then nowTick s + slotsPerStep else nowTick s) 5
  modBoot s fun b => { b with nextMode := mode, testSlot := h }

/-- FW_ACTIVATE: accepted, it has no response and resets the device (R459, R461). -/
def fwActivate (s : State) (h : Nat) (p : List Byte) : Reply :=
  let i := leAt p 0 1
  if !ownerOrService s h then refuse s stLease
  else if !(decide (i < 2) && decide (leAt p 1 3 = 0)) then refuse s stInvalid
  else
    let st := imageState s i
    if !(decide (st = imUntested ∨ st = imValid) && mayReset s) then refuse s stWrong
    else
      let s := if st = imUntested then modBoot (setImageState s i imTrial) fun b => { b with trialRan := false } else s
      { s := softReset (modBoot s fun b => { b with preferred := i }) 0 h, status := stOk, body := [] }

/-- FW_COMMIT (R460). -/
def fwCommit (s : State) (h : Nat) : Reply :=
  if !ownerOrService s h then refuse s stLease
  else
    let i := s.boot.running
    let s := if !trialRuns s then s
      else
        let v := (imageAt s i).head.svn
        let s := modBoot (setImageState s i imValid) fun b => { b with minSvn := v, trialRan := false }
        let o := imageAt s (1 - i)
        let s := if o.state ≠ imEmpty ∧ o.head.svn < v then setImageState s (1 - i) imBad else s
        record (setB s SYS_BOOT_TRIAL false) 0xE004 i (leBytes 2 v)
    { s := s, status := stOk, body := leBytes 1 (imageState s i) }

/-- SYS_RESET (R461, R462, R468). -/
def sysReset (s : State) (h : Nat) (p : List Byte) : Reply :=
  let m := leAt p 0 1
  if !ownerOrService s h || (decide (m = 2 ∨ m = 3) && decide (roleOf s h ≠ 3)) then refuse s stLease
  else if !(decide (m = 0 ∨ m = 2 ∨ m = 3) && decide (leAt p 1 3 = 0)) then refuse s stInvalid
  else if !mayReset s then refuse s stWrong
  else { s := softReset s m h, status := stOk, body := [] }

/-! ### CFG (R466, R468) -/

/-- Test mode runs (R463). -/
def testMode (s : State) : Bool := decide (getF s SYS_BOOT_MODE = 2)

/-- CFG SAVE: the set is taken, and its writing into the older bank begins. The response waits for CFG_SAVE_DONE. -/
def cfgSave (s : State) (h : Nat) (p : List Byte) : Reply :=
  let now := absTick s (nowTick s)
  let recent := match s.boot.lastSave with
    | some t => decide (now < t + 10 * ticksPerSec)
    | none => false
  if !ownerOrService s h then refuse s stLease
  else if leAt p 1 3 ≠ 0 then refuse s stInvalid
  else if recent || testMode s || s.boot.saving.isSome then refuse s stWrong
  else
    let k := match newestBank s with
      | some 0 => 1
      | _ => 0
    let seq := (max (bankAt s 0).seq (bankAt s 1).seq + 1) % 2 ^ 32
    let c := bankContent s seq
    { s := modBoot (setBank s k CfgBank.empty) fun b => { b with saving := some (k, c), lastSave := some now },
      status := stOk, body := leBytes 1 k ++ leBytes 3 0 ++ leBytes 4 seq }

/-- The bank is written (R466). -/
def saveDone (s : State) : State := match s.boot.saving with
  | some x => record (modBoot (setBank s x.1 x.2) fun b => { b with saving := none }) 0xE006 x.1 (leBytes 4 x.2.seq)
  | none => s

/-- CFG ERASE. -/
def cfgErase (s : State) (h : Nat) (p : List Byte) : Reply :=
  if roleOf s h ≠ 3 then refuse s stLease
  else if leAt p 1 3 ≠ 0 then refuse s stInvalid
  else if testMode s then refuse s stWrong
  else { s := modBoot s fun b => { b with banks := [] }, status := stOk, body := [] }

/-- CFG KEY_SET (R422, R466). -/
def keySet (s : State) (h : Nat) (p : List Byte) : Reply :=
  let key := (p.drop 4).take 32
  let mac := p.drop 36
  let put := fun (s : State) => modRec s fun r => { r with key := some key }
  if roleOf s h ≠ 3 then refuse s stLease
  else if leAt p 1 3 ≠ 0 then refuse s stInvalid
  else if testMode s then refuse s stWrong
  else if s.recd.key.isNone then { s := record (put s) 0xE009 h (leBytes 1 0), status := stOk, body := [] }
  else if macOk s h key mac then
    { s := record (modRec (put s) fun r => { r with nonce := none, fails := 0 }) 0xE009 h (leBytes 1 1), status := stOk, body := [] }
  else { s := authFail s h, status := stAuth, body := [] }

end Sys2Proof.Machine
end

