-- ==== Sys2Proof/Machine/Clk.lean ====
section
/-!
DEFINITION. Sys2Proof/Machine/Clk.lean: loss of clocks and of lock, crossings, and the sources of device resets
(chapters 16 and 17).
-/
namespace Sys2Proof.Machine

/-! ### Reset sources (R428, R448) -/

/-- RESET_N has been low for `ns` nanoseconds at instant `t` (R448): under 1 µs nothing happens, from 10 µs on the device is reset. In
between either may happen; which one is free. -/
def resetPulse (s : State) (t ns : Nat) : State :=
  if ns < 1000 then s
  else if 10000 ≤ ns then deviceReset s t 1
  else
    let f := fresh s
    if Config.freeBool f.1 then deviceReset f.2 t 1 else f.2

def execResetN (t ns : Nat) (s : State) : Host.Outcome State Fault Refusal := answer (inThisStep s t) (resetPulse s t ns)

/-- BROWN_OUT seen by voltage monitor `v`, V0, V2 or V3, at instant `t` (R428). -/
def brownOut (s : State) (v t : Nat) : State :=
  deviceReset (modMon s fun x => { x with borMark := some (v, rd s REC_OPSEC) }) t 2

def execBrownOut (v t : Nat) (s : State) : Host.Outcome State Fault Refusal :=
  answer (decide (v = 0 ∨ v = 2 ∨ v = 3) && inThisStep s t) (brownOut s v t)

def execBrownOutRelease (t : Nat) (s : State) : Host.Outcome State Fault Refusal := answer (inThisStep s t) (sourceEnds s t 2)

/-- THERMAL_SHUTDOWN seen by temperature monitor `i`, T0 to T5, at instant `t` (R428). -/
def thermalShutdown (s : State) (i t : Nat) : State :=
  deviceReset (modMon s fun x => { x with tsdMark := some (i, rd s REC_OPSEC) }) t 3

def execThermalShutdown (i t : Nat) (s : State) : Host.Outcome State Fault Refusal :=
  answer (decide (i < 6) && inThisStep s t) (thermalShutdown s i t)

def execThermalShutdownRelease (t : Nat) (s : State) : Host.Outcome State Fault Refusal :=
  answer (inThisStep s t) (sourceEnds s t 3)

/-! ### Clocks (R442, R443) -/

/-- A loss of lock or of the TCXO is counted and recorded: 0 PLL_D, 1 PLL_P, 2 PLL_G, 3 TCXO. -/
def clockLost (s : State) (k : Nat) : State := record (bump s CLK_CNT_UNLOCK_CNT) 0x1102 k []

/-- PLL_D is locked and the TCXO is present. -/
def clocksOk (s : State) : Bool := flag s CLK_STAT_D_LOCK && flag s CLK_STAT_TCXO_OK

/-- CLKLOSS ends where both of its conditions hold. -/
def clocksBack (s : State) (t : Nat) : State := if clocksOk s then sourceEnds s t 4 else s

/-- TCXO_MISSING. -/
def tcxoMissing (s : State) (t : Nat) : State :=
  if flag s CLK_STAT_TCXO_OK then deviceReset (setB (clockLost s 3) CLK_STAT_TCXO_OK false) t 4 else s

def execTcxoMissing (t : Nat) (s : State) : Host.Outcome State Fault Refusal := answer (inThisStep s t) (tcxoMissing s t)

/-- TCXO_PRESENT. -/
def execTcxoPresent (t : Nat) (s : State) : Host.Outcome State Fault Refusal :=
  answer (inThisStep s t) (clocksBack (setB s CLK_STAT_TCXO_OK true) t)

/-- Lock of a PLL: 0 PLL_D, 1 PLL_P, 2 PLL_G. -/
def lockField (k : Nat) : Field := ⟨CLK_STAT, k, k⟩

/-- Sticky loss of lock of a PLL. -/
def unlockField (k : Nat) : Field := ⟨CLK_STAT, k + 4, k + 4⟩

/-- PLL_LOCK. -/
def pllLock (s : State) (k t : Nat) : State :=
  let s := setB s (lockField k) true
  if k = 0 then clocksBack s t
  else if k = 1 then { s with sys := { s.sys with pllPHold := false } }
  else s

def execPllLock (k t : Nat) (s : State) : Host.Outcome State Fault Refusal :=
  answer (decide (k < 3) && inThisStep s t) (pllLock s k t)

/-- PLL_G has lost lock: slots that pull in or track are lost, and so is GNSS for KIN (R443). -/
def gnssClockLost (s : State) (t : Nat) : State :=
  let s := (List.range 192).foldl (fun s i =>
    let st := (gnsAt s i).state
    if st = gsPullin ∨ st = gsTrack then
      bump (modGns s i fun g => { g with state := gsLost, lostAt := t, passed := true, confirm := false }) GNS_CNT_LOSS_CNT
    else s) s
  gnssLost { s with kin := { s.kin with watch := { s.kin.watch with gnssAge := s.kin.watch.gnssAge.map (max · (150 * stepsPerMs)) } } }

/-- PLL_UNLOCK: each PLL has its own response (R443). -/
def pllUnlock (s : State) (k t : Nat) : State :=
  if !flag s (lockField k) then s
  else
    let s := setB (clockLost s k) (lockField k) false
    if k = 0 then setB (deviceReset s t 4) (unlockField 0) true
    else
      let s := setB s (unlockField k) true
      if k = 1 then
        let s := if processorsRun s then supervisionTrip s t false else s
        { s with sys := { s.sys with pllPHold := true } }
      else gnssClockLost s (absTick s t)

def execPllUnlock (k t : Nat) (s : State) : Host.Outcome State Fault Refusal :=
  answer (decide (k < 3) && inThisStep s t) (pllUnlock s k t)

/-! ### Crossings (R446, R447) -/

/-- Units discarded on a crossing are counted. -/
def countDisc (s : State) (x units : Nat) : State := bump s (CLK_X_CNT_DISC x) units

/-- CROSS_TIMEOUT of a crossing with a side that may stop, 2 to 13: the waiting units are discarded (R446). On crossings 6 and 7
the transaction ends SHORT (R383). In a device reset both sides are reset and nothing is counted. -/
def crossTimeout (s : State) (x units : Nat) : State :=
  if s.sys.inReset then s
  else
    let s := bump (countDisc s x units) (CLK_X_EVT_TMO x)
    let s := setB s ⟨CLK_XFLT, x, x⟩ true
    let s := if x = 6 ∨ x = 7 then { s with hif := { s.hif with last := 2, winShort := min 255 (s.hif.winShort + 1) } } else s
    record s 0x1103 x (leBytes 2 (min 65535 units))

def execCrossTimeout (x units : Nat) (s : State) : Host.Outcome State Fault Refusal :=
  answer (decide (2 ≤ x ∧ x < 14)) (crossTimeout s x units)

/-- CROSS_RESYNC of an F or H crossing, 2 to 13: the units in flight are discarded (R447). Crossings 2 and 3 resynchronise until the
processors leave their reset. In a device reset both sides are reset and nothing is counted. -/
def crossResync (s : State) (x units : Nat) : State :=
  if s.sys.inReset then s
  else
    let s := bump (countDisc s x units) (CLK_X_EVT_RESYNC x)
    let s := if x < 4 ∧ s.sys.phase = .held then setF s (CLK_X_EVT_STATE x) 3 else s
    record (setB s ⟨CLK_XFLT, 16 + x, 16 + x⟩ true) 0x1104 x (leBytes 2 (min 65535 units))

def execCrossResync (x units : Nat) (s : State) : Host.Outcome State Fault Refusal :=
  answer (decide (2 ≤ x ∧ x < 14)) (crossResync s x units)

end Sys2Proof.Machine
end

