-- ==== Sys2Proof/Machine/View.lean ====
section
/-!
DEFINITION. Sys2Proof/Machine/View.lean: what a host reads from a register: the slots' own selectors and windows (R498),
values that no register cell holds, the latches of register pairs (R12), and what a read clears (R7, R10).
-/
namespace Sys2Proof.Machine

/-! ### The slots' own registers (R498) -/

/-- A value of the slot's own copy of a selector or window register. -/
def winGet (s : State) (h i : Nat) : Word := sparseGet regReset (slotOf s h).win i

/-- Write it. -/
def winSet (s : State) (h i : Nat) (v : Word) : State :=
  modSlot s h fun x => { x with win := sparseSet regReset x.win i v }

/-- Latch a window for the slot. -/
def winLatch (s : State) (h : Nat) (l : List (Nat × Word)) : State := l.foldl (fun s e => winSet s h e.1 e.2) s

/-- The page of a ring. -/
def ringPage (i : Nat) : Bool := inRange 0x1400 0x15FF i

/-- The page of a CAN controller. -/
def canPage (i : Nat) : Bool := inRange 0x2C00 0x2FFF i

/-- Selector registers, one per slot (R498). -/
def isSelector (i : Nat) : Bool :=
  [KIN_CH_SEL, SCH_SLOT_SEL, SCH_CH_SEL, MAP_CH_SEL, ACT_CH_SEL, GNS_SLOT_SEL, FJL_CH_SEL 0, FJL_CH_SEL 1,
   CAN_TXB_SEL 0, CAN_TXB_SEL 1, CAN_TXB_SEL 2, CAN_TXB_SEL 3].contains i

/-- Registers of which each slot holds a latched copy. -/
def isWindow (i : Nat) : Bool :=
  inRange 0x0900 0x090B i || inRange 0x0B00 0x0B08 i || inRange 0x0C20 0x0C21 i || inRange 0x0C30 0x0C3F i
    || inRange 0x0C40 0x0C46 i || inRange 0x0F40 0x0F45 i || inRange 0x2500 0x2505 i

/-- The channel that the slot's FJL_CH_SEL of the register's ring names. -/
def ringSel (s : State) (h i : Nat) : Nat := bitsOf (winGet s h (FJL_CH_SEL ((i - 0x1400) / 256))) 8 0

/-- A register of the FJL channel window: its offset from the selector. -/
def ringWin (i : Nat) : Option Nat := if ringPage i && inRange 0xC1 0xC8 (i % 256) then some (i % 256 - 0xC0) else none

/-- A GNSS register whose write waits for the next epoch (R322). -/
def gnsWaits (i : Nat) : Bool := inRange 0x2400 0x24FF i

/-! ### Values formed when they are read -/

/-- HIF_H_STAT: the rings are shown beside the attachment (R411); `full`: a command waits (R393). -/
def hostStat (s : State) (h : Nat) (full : Bool) : Word :=
  let x := slotOf s h
  let w := bitsSet (bitsSet (rd s (HIF_H_STAT h)) 15 8 (min 255 x.unrel.length)) 26 16 ((ringBytes - reqUsed x) / 4)
  bitsSet w 31 31 (bit full 0)

/-- The boundary at which what runs now acts (R41): the coming one for a command, else the last one passed. -/
def readTick (s : State) : Nat := if s.sys.atBoundary then nextBoundary s else absTick s (nowTick s)

/-- NOW of a time base at the step boundary of the read. -/
def tbNowWord (s : State) (i : Nat) : Word :=
  let v := tbNs (tbAt s ((i - 0x2810) / 16) (readTick s))
  BitVec.ofNat 32 (if i % 16 = 2 then v else v / 2 ^ 32)

/-- The 32 bits that slot `h` sees at an assigned index. `full`: RSPFULL of each slot. -/
def regView (s : State) (full : Nat → Bool) (h i : Nat) : Word :=
  if isWindow i || isSelector i then winGet s h i
  else match ringWin i with
    | some o => fjlWindow s (ringSel s h i) o
    | none =>
      if canPage i && inRange 0xC1 0xC2 (i % 256) then
        let x := (i - 0x2C00) / 256
        let v := txbTime s x (bitsOf (winGet s h (CAN_TXB_SEL x)) 5 0)
        BitVec.ofNat 32 (if i % 256 = 0xC1 then v else v / 2 ^ 32)
      else if i = GNS_SLOT_CFG then (gnsAt s (bitsOf (winGet s h GNS_SLOT_SEL) 7 0)).cfg
      else if gnsWaits i then
        match sparseGet (fun _ => none) (s.gns.waiting.map fun e => (e.1, some e.2)) i, regRow i with
        | some v, some r => (rd s i &&& ~~~ r.rw) ||| (v &&& r.rw)
        | _, _ => rd s i
      else if i = SYS_STEP_CNT then eventStep s
      else if i = REC_STAT then recStat s
      else if inRange 0x0110 0x012F i && decide (i % 8 = 1) then hostStat s ((i - 0x0110) / 8) (full ((i - 0x0110) / 8))
      else if inRange 0x2810 0x284F i && (decide (i % 16 = 2) || decide (i % 16 = 3)) then tbNowWord s i
      else rd s i

/-! ### Register pairs (R12) -/

/-- The LO registers that latch their HI, which is the next index. -/
def isLo (i : Nat) : Bool :=
  [0x0830, 0x0832, 0x0840, 0x0842, 0x0902, 0x0907, 0x0909, 0x0B03, 0x1403, 0x1503, 0x2421, 0x2423, 0x2425, 0x2802].contains i
    || (inRange 0x2810 0x284F i && [2, 6, 9].contains (i % 16)) || (canPage i && decide (i % 256 = 0xC1))

/-- A read of one register by a slot: its value, and what the read leaves. RC fields clear unless the read peeks (R405).
A reserved index reads 0 and stands unchanged (R9). -/
def readReg (s : State) (full : Nat → Bool) (h : Nat) (peek : Bool) (i : Nat) : State × Word :=
  match regRow i with
  | none => (s, 0)
  | some r =>
    let w := regView s full h i &&& ~~~ r.wo
    let w := match sparseGet (fun _ => none) (slotOf s h).hiLatch i with
      | some v => v
      | none => w
    let s := if isLo i then
        modSlot s h fun x => { x with hiLatch := sparsePut x.hiLatch (i + 1) (some (regView s full h (i + 1))) }
      else s
    if peek then (s, w)
    else if i = MAP_CH_CELLS then
      let c := bitsOf (winGet s h MAP_CH_SEL) 8 0
      (winSet (modChMap s c fun x => { x with cells := x.cells - w.toNat }) h i 0, w)
    else if r.rc = 0 then (monRead s i, w)
    else if i = SCH_STAT then (setF s SCH_STAT_MIN_FREE (getF s SCH_STAT_FREE), w)
    else (monRead (wr s i (rd s i &&& ~~~ r.rc)) i, w)

end Sys2Proof.Machine
end

