-- ==== Sys2Proof/Machine/Write.lean ====
section
/-!
DEFINITION. Sys2Proof/Machine/Write.lean: a host's writes of registers: who may write what (R27, R396, R498 and the rule of
each chapter), the checks of a value and of the state in the order of R390, the store (R7, R8), and what a write sets off.
-/
namespace Sys2Proof.Machine

/-- One item of PARAM_WRITE (R406). -/
structure WItem where
  idx : Nat
  mask : Word
  value : Word
  /-- A reserved byte of the item is not zero. -/
  resv : Bool
  deriving DecidableEq, Repr

/-- The bits of a register that a write may change or act on (R7). -/
def writable (r : RegRow) : Word := r.rw ||| r.w1c ||| r.w1s ||| r.wo

/-- The resource whose state word an index is (R26). -/
def stateRes (i : Nat) : Option Res :=
  if i = SYS_IMPL_STATE then some (kImpl, 0)
  else if inRange 0x0028 0x002F i then some (kZone, i - 0x0028)
  else if inRange 0x0040 0x007F i then some (kSec, i - 0x0040)
  else if inRange 0x0D00 0x0EFF i then some (kCh, i - 0x0D00)
  else none

/-- The channel that the slot's own ACT_CH_SEL names. -/
def actSel (s : State) (h : Nat) : Nat := bitsOf (winGet s h ACT_CH_SEL) 8 0

/-! ### Who may write (R396) -/

/-- Slot `h` holds the lease on every used channel of a node (R230). -/
def holdsNode (s : State) (h r k : Nat) : Bool :=
  (List.range 8).all fun j => !chUsed s (chanOf r k j) || holds s h kCh (chanOf r k j)

/-- Slot `h` holds every group that a bit of PWM_LOADALL names (R279). -/
def holdsGroups (s : State) (h : Nat) (v : Word) : Bool :=
  pwmGroups.all fun g => !v.getLsbD g || holds s h kPwm g

/-- The gate of a ring's registers (R230). -/
def mayWriteRing (s : State) (h i : Nat) (mask : Word) : Bool :=
  let r := (i - 0x1400) / 256
  let o := i % 256
  if o = 0 then ownerOrService s h || decide (mask &&& 0x0FFF1F07#32 = 0)
  else if inRange 0x40 0xB7 o then decide (roleOf s h ≠ 2) && holdsNode s h r ((o - 0x40) / 4)
  else if inRange 0xC1 0xC7 o then holds s h kCh (ringSel s h i)
  else ownerOrService s h

/-- The gate of a DRV register (R193): for a pair, the lease is that of the even channel. -/
def mayWriteDrv (s : State) (h i : Nat) (mask : Word) : Bool :=
  if inRange 0x1100 0x11FF i then holds s h kCh (leadCh s ((i - 0x1100) / 8))
  else if inRange 0x1200 0x127F i then holds s h kCh (leadCh s ((i - 0x1200) / 4))
  else if i = DRV_CTRL then ownerOrService s h || decide (mask &&& 1#32 = 0)
  else ownerOrService s h

/-- The gate of a CLE register (R258). GO by a slot without the lease is refused as a wrong state (R255). -/
def mayWriteCle (s : State) (h i : Nat) (v : Word) : Bool :=
  if i < 0x1B00 then holds s h kLoop ((i - 0x1800) / 48)
  else if i = CLE_CTRL then ownerOrService s h
  else if i = CLE_INJ_CTRL then v.getLsbD 9 || holds s h kLoop (bitsOf v 3 0)
  else if i < CLE_CAP_CTRL then holds s h kLoop (getF s CLE_INJ_CTRL_LOOP)
  else if i = CLE_CAP_CTRL then holds s h kLoop (bitsOf v 3 0)
  else holds s h kLoop (getF s CLE_CAP_CTRL_LOOP)

/-- Slot `h` may write the bits of a mask in a register; `v`: the word presented. -/
def mayWrite (s : State) (h i : Nat) (mask v : Word) : Bool :=
  if isSelector i then true
  else match stateRes i with
    | some r => holds s h r.1 r.2
    | none =>
      if i = SYS_SUPV_CTRL then ownerOrService s h || (decide (roleOf s h ≠ 2) && decide (bitsOf mask 9 0 = 0))
      else if i = ACT_CH_ALM then holds s h kCh (actSel s h)
      else if inRange 0x1000 0x12FF i then mayWriteDrv s h i mask
      else if ringPage i then mayWriteRing s h i mask
      else if inRange 0x1800 0x1BFF i then mayWriteCle s h i v
      else if inRange 0x1C00 0x1DFF i then holds s h kPwm ((i - 0x1C00) / 64)
      else if i = PWM_LOADALL then holdsGroups s h v
      else timFree i || ownerOrService s h

/-! ### The value that is stored -/

/-- REQ of a state word (R27). -/
def reqOk (r : Res) (v : Word) : Bool :=
  let q := bitsOf v 2 0
  decide (q < 3) || (decide (q = 3) && decide (r.1 = kCh)) || (decide (q = 7) && decide (r.1 ≠ kImpl))

/-- The registers of supervision, HIF, MON, REC and CLK: pages 0x00 to 0x04 (R36, R411, R425, R440, R453). -/
def sysStore (s : State) (i : Nat) (v : Word) : Option Word :=
  let ok := fun (b : Bool) => if b then some v else none
  match stateRes i with
  | some r => ok (reqOk r v)
  | none =>
    if i = SYS_SUPV_CTRL then some (bitsSet v 9 0 (clampN 10 1000 (bitsOf v 9 0)))
    else if inRange 0x0110 0x012F i && decide (i % 8 = 0) then
      let h := (i - 0x0110) / 8
      let p := bitsOf v 1 0
      ok ((decide (p = 1) || hostSlots.all fun g => decide (g = h) || decide (portOf s g ≠ p)) && inRange 20 10000 (bitsOf v 29 16))
    else if i = HIF_ISO_CFG then ok (decide (bitsOf v 6 0 ≤ 64))
    else if i = REC_CTRL then ok (inRange 1 600 (bitsOf v 9 0))
    else if i = CLK_XCFG then ok (inRange 10 100000 (bitsOf v 16 0))
    else some v

/-- What a write stores, or none where the value is refused as invalid. -/
def storeValue (s : State) (h i : Nat) (v : Word) : Option Word :=
  let p := i / 256
  if p < 5 ∨ p = 0x0D ∨ p = 0x0E then sysStore s i v
  else if p < 0x0A then kinStore i v
  else if p < 0x0C then mapStore i v
  else if p = 0x0C then schStore i v
  else if p = 0x0F then actStore i v
  else if p < 0x13 then drvStore s i v
  else if ringPage i then
    match ringWin i with
    | some o => fjlCfgStore s (ringSel s h i) o v
    | none => fjlStore s i v
  else if inRange 0x1800 0x1BFF i then some (cleStore i v)
  else if inRange 0x1C00 0x1FFF i then some (pwmStore i v)
  else if i = GNS_SLOT_CFG then if pinValid s (bitsOf (winGet s h GNS_SLOT_SEL) 7 0) v then some v else none
  else if p = 0x28 then some (timStore i v)
  else if canPage i then some (canStore i v)
  else some v

/-! ### The rules of state -/

/-- An energised local channel (R166). -/
def energisedIn (s : State) (l : List Nat) : Bool := l.any fun c => (drvCh s c).isOpen

/-- MAP_CTRL, MAP_CLR and the origin (R109, R110, R146). -/
def mapRule (s : State) (i : Nat) (old v : Word) : Bool :=
  let en := flag s MAP_CTRL_EN
  let busy := flag s MAP_STAT_CLR_BUSY
  if i = MAP_CTRL then
    let cell := bitsDiffer old v 2 1 && (en || decide (getF s MAP_STAT_TILES ≠ 0) || decide (getF s MAP_STAT_DBLKS ≠ 0))
    !cell && !(decide (bitsOf v 0 0 = 1) && busy)
  else if i = MAP_CLR then !en && !busy
  else if inRange MAP_ORG_LAT MAP_ORG_H i then !en
  else true

/-- DRV (R166, R169, R180, R245). -/
def drvRule (s : State) (i : Nat) (old v : Word) : Bool :=
  if i = DRV_CTRL then !(bitsDiffer old v 0 0 && decide (bitsOf v 0 0 = 0) && energisedIn s drvChans)
  else if inRange 0x1020 0x105F i && decide (i % 8 = 0) then
    !(bitsDiffer old v 0 0 && decide (bitsOf v 0 0 = 0) && energisedIn s (groupChans ((i - 0x1020) / 8)))
  else if inRange 0x1100 0x11FF i then
    let c := (i - 0x1100) / 8
    if i % 8 = 0 then
      let move := bitsDiffer old v 1 0 || bitsDiffer old v 2 2
      let join := bitsDiffer old v 2 2 && decide (bitsOf v 2 2 = 1)
      (!move || modeIdle s c) && (!join || (!chUsed s (c + 1) && decide (getF s (DRV_CH_MODE_MODE (c + 1)) = 0)))
    else if i % 8 = 7 then !loopDrives s 3 c 0
    else true
  else true

/-- FJL (R195, R221, R245). -/
def ringRule (s : State) (h i : Nat) (mask v : Word) : Bool :=
  let r := (i - 0x1400) / 256
  match ringWin i with
  | some 6 => !loopDrives s 4 (ringSel s h i) 0
  | some 7 => !v.getLsbD 0 || applyOk s (ringSel s h i)
  | some _ => true
  | none => if i % 256 = 0 then !(flag s (FJL_CTRL_EN r) && decide (bitsOf mask 12 8 ≠ 0)) else true

/-- HIF (R411). -/
def hifRule (s : State) (i : Nat) : Bool :=
  if inRange 0x0110 0x012F i && decide (i % 8 = 0) then !attached s ((i - 0x0110) / 8)
  else if i = HIF_CANB then hostSlots.all fun h => !attached s h || decide (portOf s h ≠ 2)
  else true

/-- The rules of the register's chapter for a value that passed `storeValue`. -/
def stateRule (s : State) (h i : Nat) (mask old v : Word) : Verdict :=
  let p := i / 256
  if p = 1 then inState (hifRule s i) .ok
  else if p = 2 then monCheck i v
  else if i = CLK_BRST then inState (brstOk s v.toNat) .ok
  else if p = 8 then
    inState (!(flag s KIN_CTRL_EN && (kinFrozen i || (decide (i = KIN_CTRL) && bitsDiffer old v 1 1)))) .ok
  else if p = 0x0A then inState (mapRule s i old v) .ok
  else if inRange 0x10 0x12 p then inState (drvRule s i old v) .ok
  else if ringPage i then inState (ringRule s h i mask v) .ok
  else if inRange 0x18 0x1B p then cleCheck s h i v
  else if inRange 0x1C 0x1D p && inRange 4 6 (i % 64) && loopDrives s 1 ((i - 0x1C00) / 64) (i % 64 - 4) then
    inState false (pwmCheck s i old v)
  else if inRange 0x1C 0x1F p then pwmCheck s i old v
  else if inRange 0x20 0x21 p then encCheck s i old v
  else if inRange 0x24 0x27 p then gnsCheck i v
  else if p = 0x28 then timCheck s i old v
  else if inRange 0x29 0x2A p then ethCheck s i v
  else if canPage i then canCheck s i old v
  else .ok

/-! ### The store -/

/-- Registers whose W1C bits their block clears itself. -/
def clearsItself (i : Nat) : Bool :=
  (inRange 0x1200 0x127F i && decide (i % 4 = 1)) || (inRange 0x1020 0x105F i && decide (i % 8 = 3))
    || (inRange 0x2000 0x207F i && decide (i % 16 = 13)) || (inRange 0x2080 0x209F i && decide (i % 8 = 5))
    || decide (i = ETH_BYP_STAT)

/-- The latched window that a selector opens (R74, R108, R147, R163, R322). -/
def windowOf (s : State) (i : Nat) (v : Word) : List (Nat × Word) :=
  let c := bitsOf v 8 0
  if i = KIN_CH_SEL then kinWindow s c
  else if i = SCH_SLOT_SEL then slotWindow s (bitsOf v 9 0)
  else if i = SCH_CH_SEL then schChWindow s c
  else if i = MAP_CH_SEL then mapWindow s c
  else if i = ACT_CH_SEL then actWindow s c
  else if i = GNS_SLOT_SEL then gnsWindow s (bitsOf v 7 0)
  else []

/-- A GNSS register waits for the next epoch; what it was given before waits with it (R322). -/
def gnsPut (s : State) (i : Nat) (v : Word) : State :=
  match regRow i with
  | none => s
  | some r =>
    let was := sparseGet (fun _ => 0#32) s.gns.waiting i
    let act := r.w1c ||| r.w1s ||| r.wo
    { s with gns := { s.gns with waiting := sparsePut s.gns.waiting i ((v &&& r.rw) ||| ((v ||| was) &&& act)) } }

/-- Store the word that a write presents, without what it sets off. -/
def storeItem (s : State) (h i : Nat) (v : Word) : State :=
  if isSelector i then winLatch (winSet s h i v) h (windowOf s i v)
  else match ringWin i with
    | some o => if o = 7 then s else setFjlCfg s (ringSel s h i) o v
    | none =>
      if i = ACT_CH_ALM then s
      else if i = GNS_SLOT_CFG then slotPin s (bitsOf (winGet s h GNS_SLOT_SEL) 7 0) v
      else if gnsWaits i then gnsPut s i v
      else if clearsItself i then s
      else commitReg s i v

/-- WO bits read 0: they are dropped once they have acted (R7). -/
def scrub (s : State) (i : Nat) : State := match regRow i with
  | some r => if r.wo = 0 then s else wr s i (rd s i &&& ~~~ r.wo)
  | none => s

/-! ### What a write sets off -/

/-- A state word is written: channels whose effective request changes are commanded anew (R16, R185, R223), and a resource set
down by a lost lease is so no longer (R399). `s0`: before the write. -/
def requestEffect (s0 s : State) (r : Res) : State :=
  let s := modHif s fun x => { x with setDown := sparseSet (fun _ => false) x.setDown (resOf r) false }
  (resChannels s r).foldl (fun s c => if effRequest s0 c = effRequest s c then s else recommand s c) s

/-- KIN and MAP. -/
def kinMapEffect (s : State) (h i : Nat) (old v : Word) : State :=
  if i = KIN_CTRL then
    if !bitsDiffer old v 0 0 then s else if flag s KIN_CTRL_EN then kinEnable s else kinDisable s
  else if i = MAP_CLR then startClear s h (bitsOf v 3 0)
  else if i = MAP_PLY_CTRL ∧ v.getLsbD 0 then rasterGo s
  else s

/-- RESUME_ALL of DRV: the local channels that the writer leases (R186). A channel that follows its partner is re-commanded, and has no
state of its own to apply again (R180). -/
def resumeAll (s : State) (h : Nat) : State :=
  (drvChans.filter fun c => holds s h kCh c).foldl (fun s c => if c = leadCh s c then resumeLocal s c else recommandOne s c) s

/-- DRV_CH_MODE comes into force (R169, R180, R186). -/
def drvModeEffect (s : State) (c : Nat) (old v : Word) : State :=
  let s := if bitsDiffer old v 1 0 then modeEffect s c (bitsOf old 1 0) else s
  let s := if bitsDiffer old v 2 2 then pairEffect s c else s
  if v.getLsbD 8 then resumeLocal s (leadCh s c) else s

/-- DRV. -/
def drvEffect (s : State) (h i : Nat) (old v : Word) : State :=
  if i = DRV_CTRL then (if v.getLsbD 1 then resumeAll s h else s)
  else if inRange 0x1020 0x105F i && decide (i % 8 = 3) then clearGrpFlags s ((i - 0x1020) / 8) v.toNat
  else if inRange 0x1100 0x11FF i then
    let c := (i - 0x1100) / 8
    if i % 8 = 0 then drvModeEffect s c old v
    else if i % 8 = 7 then setBase s c (bitsOf v 15 0)
    else s
  else if inRange 0x1200 0x127F i && decide (i % 4 = 1) then clearChFlags s ((i - 0x1200) / 4) v.toNat
  else s

/-- Remote channels that a RESUME of the writer names: of a ring, or of one node of it (R223). -/
def resumeRing (s : State) (h r : Nat) (node : Option Nat) : State :=
  ((usedChannels s).filter fun c => !isLocal c && decide (ringOf c = r) && holds s h kCh c
    && (node.isNone || decide (node = some (nodeOf c)))).foldl resumeRemote s

/-- FJL. -/
def ringEffect (s : State) (h i : Nat) (old v : Word) : State :=
  let r := (i - 0x1400) / 256
  let o := i % 256
  if o = 0 then
    let s := safeWrite s r (old.getLsbD 1)
    let s := if v.getLsbD 2 then heal s r else s
    if v.getLsbD 3 then resumeRing s h r none else s
  else if inRange 0x40 0xB7 o && decide (o % 4 = 3) then
    let k := (o - 0x40) / 4
    let s := if v.getLsbD 1 then nodeClear s r k else s
    if v.getLsbD 0 then resumeRing s h r (some k) else s
  else if o = 0xC6 then remoteSet s (ringSel s h i) (bitsOf v 15 0)
  else if o = 0xC7 ∧ v.getLsbD 0 then sendCfgCh s (ringSel s h i)
  else s

/-- PWM (R267 to R275). -/
def pwmEffect (s : State) (i : Nat) (old v : Word) : State :=
  if i = PWM_LOADALL then armLoadAll s (bitsOf v 7 0)
  else if 0x1E00 ≤ i then s
  else
    let g := (i - 0x1C00) / 64
    match i % 64 with
    | 0 =>
      let s := if old ||| 4#32 = rd s i ||| 4#32 then s else pwmCtrlEffect s g old
      if v.getLsbD 2 then resumePwm s g else s
    | 2 => shadowWrite s g 2 v (hostWriteAt s) none
    | 3 => shadowWrite s g 3 v (hostWriteAt s) none
    | 4 => shadowWrite s g 4 v (hostWriteAt s) none
    | 5 => shadowWrite s g 5 v (hostWriteAt s) none
    | 6 => shadowWrite s g 6 v (hostWriteAt s) none
    | 0x12 => showPwm s g
    | _ => s

/-- ENC and SNS. A read of an IMU register by PARAM_WRITE returns a value that the IMU sends: it is free (R294). -/
def encWrite (s : State) (i : Nat) (old v : Word) : State :=
  if inRange 0x2000 0x207F i && decide (i % 16 = 13) then portFltClear s ((i - 0x2000) / 16) v.toNat
  else if inRange 0x2080 0x209F i && decide (i % 8 = 5) then wheelFltClear s ((i - 0x2080) / 8) v.toNat
  else if i = SNS_IMU_XFER then
    let s := if v.getLsbD 16 then imuXfer s true else s
    if v.getLsbD 17 then
      let f := fresh (imuXfer s false)
      imuRead f.2 (Config.freeWord f.1).toNat
    else s
  else encEffect s i old

/-- The alarm flags of the channel that the slot's selector names (R163). -/
def alarmWrite (s : State) (h : Nat) (v : Word) : State :=
  let c := actSel s h
  let s := clearAlarm s c v.toNat
  winSet s h ACT_CH_ALM (BitVec.ofNat 32 (dlyFlags s c % 128))

/-- What a write of `v` sets off in the register's block; `s0`: before the command, `old`: what the register held. -/
def writeEffect (s0 s1 s : State) (h i : Nat) (old v : Word) : State :=
  let p := i / 256
  match stateRes i with
  | some r => requestEffect s1 s r
  | none =>
    if isSelector i then s
    else if i = MON_FLT then
      if v.getLsbD 6 && s.mon.avsDead then modMon s fun x => { x with avsAck := true } else s
    else if p = 2 then monEffect s i
    else if i = SCH_QUOTA then showPool s
    else if i = CLK_BRST then brstWrite s h v.toNat
    else if inRange 8 0x0B p then kinMapEffect s h i old v
    else if i = ACT_CH_ALM then alarmWrite s h v
    else if inRange 0x0F10 0x0F2F i then (if old = rd s i then s else refreshProfile s ((i - 0x0F10) / 4))
    else if inRange 0x10 0x12 p then drvEffect s h i old v
    else if ringPage i then ringEffect s h i old v
    else if inRange 0x18 0x1B p then cleEffect s i old v
    else if inRange 0x1C 0x1F p then pwmEffect s i old v
    else if inRange 0x20 0x21 p then encWrite s i old v
    else if p = 0x28 then timEffect s0 s i old
    else if i = ETH_BYP_STAT then (if v.getLsbD 8 then relayFaultClear s else s)
    else if inRange 0x29 0x2A p then ethEffect s i old
    else if canPage i then canEffect s i old
    else s

/-! ### One item, and a whole command (R406) -/

/-- RSPFULL is of no interest to a write. -/
def viewOf (s : State) (h i : Nat) : Word := regView s (fun _ => false) h i

/-- The word that an item presents to its register. -/
def itemWord (s : State) (h : Nat) (w : WItem) : Word := match regRow w.idx with
  | some r => presented r (viewOf s h w.idx) w.mask w.value
  | none => 0

/-- A write that touches no bit that can be written is ignored (R7, R8). -/
def touches (w : WItem) : Bool := match regRow w.idx with
  | some r => decide (w.mask &&& writable r ≠ 0)
  | none => false

/-- The status of a verdict. -/
def verdictStatus : Verdict → Nat
  | .ok => stOk
  | .lease => stLease
  | .wrong => stWrong
  | .invalid => stInvalid

/-- Check one item, in the order of R390. -/
def checkItem (s : State) (h : Nat) (w : WItem) : Nat :=
  if !regAssigned w.idx then stUnknownIndex
  else if !touches w then (if w.resv then stInvalid else stOk)
  else
    let pv := itemWord s h w
    if !mayWrite s h w.idx w.mask pv then stLease
    else if w.resv then stInvalid
    else match storeValue s h w.idx pv with
      | none => stInvalid
      | some v => verdictStatus (stateRule s h w.idx w.mask (viewOf s h w.idx) v)

/-- The value that an item stores; the item has been checked. -/
def itemValue (s : State) (h : Nat) (w : WItem) : Word := (storeValue s h w.idx (itemWord s h w)).getD 0

/-- Store an item on the copy against which later items are checked (R406). -/
def noteItem (s : State) (h : Nat) (w : WItem) : State :=
  if touches w then scrub (storeItem s h w.idx (itemValue s h w)) w.idx else s

/-- An item comes into force. `s0`: before the command. -/
def takeItem (s0 s : State) (h : Nat) (w : WItem) : State :=
  if touches w then
    let old := viewOf s h w.idx
    let v := itemValue s h w
    scrub (writeEffect s0 s (storeItem s h w.idx v) h w.idx old v) w.idx
  else s

/-- A trip clear of a PWM group (R274). -/
def isTripClear (w : WItem) : Bool := inRange 0x1C00 0x1DFF w.idx && decide (w.idx % 64 = 0x12)

/-- Trip clears of the command that will be accepted are evaluated before a RESUME of it (R275). -/
def preClear (s : State) (h : Nat) (l : List WItem) : State :=
  l.foldl (fun s w => if isTripClear w && decide (checkItem s h w = stOk) then noteItem s h w else s) s

/-- Check the items in order against the values that the items before them leave: the first failure, at its position. -/
def checkItems (s : State) (h : Nat) : List WItem → Nat → Option (Nat × Nat)
  | [], _ => none
  | w :: l, k =>
    let st := checkItem s h w
    if st = stOk then checkItems (noteItem s h w) h l (k + 1) else some (k, st)

/-- The items of a command come into force at one boundary, in order. -/
def takeItems (s : State) (h : Nat) (l : List WItem) : State :=
  (l.filter isTripClear ++ l.filter fun w => !isTripClear w).foldl (fun t w => takeItem s t h w) s

/-- A command of items: all of them, or the position and the status of the first failure (R406). -/
def writeItems (s : State) (h : Nat) (l : List WItem) : State × Option (Nat × Nat) :=
  match checkItems (preClear s h l) h l 0 with
  | some e => (s, some e)
  | none => (takeItems s h l, none)

/-- A write of one register under a mask by an attached slot: refused, it changes nothing. -/
def writeOne (s : State) (h i : Nat) (mask v : Word) : State :=
  if attached s h then (writeItems s h [{ idx := i, mask := mask, value := v, resv := false }]).1 else s

end Sys2Proof.Machine
end

