-- ==== Sys2Proof/Machine/Target.lean ====
section
/-!
DEFINITION. Sys2Proof/Machine/Target.lean: what a mailbox command names: the tables by their identifiers (R407), the items of a
PARAM_WRITE (R406), and the target of R40. The model takes a target as its block, so that commands to two instances of one block
complete in the order of acceptance too, which R40 allows (log entry 75).
-/
namespace Sys2Proof.Machine

/-- A table named by its identifier: stored, or one that presents a state. -/
inductive TableName where
  | stored (t : TableId)
  | mdr
  | slt
  | cap
  deriving DecidableEq, Repr

/-- The table that three letters name. -/
def tableNamed (b : List Byte) : Option TableName :=
  if b = [0x47#8, 0x45#8, 0x4F#8] then some (.stored .geo)
  else if b = [0x5A#8, 0x4F#8, 0x4E#8] then some (.stored .zon)
  else if b = [0x53#8, 0x45#8, 0x43#8] then some (.stored .sec)
  else if b = [0x50#8, 0x4C#8, 0x59#8] then some (.stored .ply)
  else if b = [0x52#8, 0x54#8, 0x54#8] then some (.stored .rtt)
  else if b = [0x44#8, 0x4C#8, 0x59#8] then some (.stored .dly)
  else if b = [0x46#8, 0x52#8, 0x43#8] then some (.stored .frc)
  else if b = [0x54#8, 0x54#8, 0x4D#8] then some (.stored .ttm)
  else if b = [0x4D#8, 0x44#8, 0x52#8] then some .mdr
  else if b = [0x53#8, 0x4C#8, 0x54#8] then some .slt
  else if b = [0x43#8, 0x41#8, 0x50#8] then some .cap
  else none

/-- The items of a PARAM_WRITE. -/
def writeReq (p : List Byte) : List WItem :=
  (List.range (leAt p 0 2)).map fun k =>
    let o := 4 + 12 * k
    { idx := leAt p o 2, mask := wordAt p (o + 4), value := wordAt p (o + 8), resv := decide (leAt p (o + 2) 2 ≠ 0) }

/-- The payload of a PARAM_WRITE of these items. -/
def writePayload (l : List WItem) : List Byte :=
  leBytes 2 l.length ++ [0#8, 0#8]
    ++ l.flatMap fun w => leBytes 2 w.idx ++ leBytes 2 (bit w.resv 0) ++ leBytes 4 w.mask.toNat ++ leBytes 4 w.value.toNat

/-- The block of a page, as its first page (the page map of chapter 1). -/
def pageBlock (p : Nat) : Nat :=
  if p = 0x0E ∨ p = 0x0D then 0x0C
  else if p = 0x12 ∨ p = 0x11 then 0x10
  else if inRange 0x18 0x1F p ∨ inRange 0x24 0x27 p ∨ inRange 0x2C 0x2F p then p / 4 * 4
  else if p = 9 ∨ p = 0x0B ∨ p = 0x15 ∨ p = 0x21 then p - 1
  else if p = 0x2A then 0x29
  else p

/-- The block of a table, by the chapter that defines it. -/
def tableBlock : TableName → Nat
  | .stored .geo => 0x08
  | .stored .zon => 0x08
  | .stored .sec => 0x0C
  | .stored .ply => 0x0A
  | .stored .rtt => 0x0A
  | .stored .dly => 0x0F
  | .stored .frc => 0x18
  | .stored .ttm => 0x2C
  | .mdr => 0x0A
  | .slt => 0x0C
  | .cap => 0x18

/-- Stands for the boot record, the images and the configuration banks, which have no page. -/
def bootBlock : Nat := 0x100

/-- The blocks that a command targets (R40). A FENCE and a code that is not known target none. -/
def cmdBlocks (code : Nat) (p : List Byte) : List Nat :=
  if code = 0x08 then
    ((List.range (leAt p 0 2)).flatMap fun k =>
      let i := leAt p (4 + 4 * k) 2
      let n := leAt p (6 + 4 * k) 2
      if n = 0 then [] else (List.range ((i + n - 1) / 256 + 1 - i / 256)).map fun j => pageBlock (i / 256 + j)).dedup
  else if code = 0x09 then ((writeReq p).map fun w => pageBlock (w.idx / 256)).dedup
  else if code = 0x0A ∨ code = 0x0B then ((tableNamed (p.take 3)).map tableBlock).toList
  else if code = 0x04 then []
  else if code ≤ 0x06 ∨ code = 0x0C ∨ code = 0x0D then [0x01]
  else if code = 0x10 ∨ code = 0x11 then [0x0C]
  else if code = 0x18 ∨ code = 0x19 then [0x0A]
  else if inRange 0x20 0x22 code then [0x24]
  else if inRange 0x28 0x2A code then [0x2C]
  else if inRange 0x30 0x33 code then [0x03]
  else if inRange 0x38 0x3F code then [bootBlock]
  else []

/-- The blocks that a frame targets. -/
def frameBlocks (f : Frame) : List Nat := cmdBlocks f.code f.payload

end Sys2Proof.Machine
end

