-- ==== Sys2Proof/Machine/Hif.lean ====
section
/-!
DEFINITION. Sys2Proof/Machine/Hif.lean: the ports (chapter 14): frames and their arrival (R381 to R390), results and their
release (R391, R392), the SPI transactions and the direct window (R382, R383, R409, R423), UDP (R384), CAN_B (R385), the
keep-alive (R397) and the task-controller client (R386).
-/
namespace Sys2Proof.Machine

/-- Codes of the mailbox commands (R403). -/
def knownCodes : List Nat :=
  [0x00, 0x01, 0x02, 0x03, 0x04, 0x05, 0x06, 0x08, 0x09, 0x0A, 0x0B, 0x0C, 0x0D, 0x10, 0x11, 0x18, 0x19, 0x20, 0x21, 0x22] ++
  [0x28, 0x29, 0x2A, 0x30, 0x31, 0x32, 0x33, 0x38, 0x39, 0x3A, 0x3B, 0x3C, 0x3D, 0x3E, 0x3F]

/-- Mailboxes are served: by the firmware, or for the SPI slot by the recovery monitor (R455, R464). -/
def served (s : State) : Bool := decide (s.sys.phase = .up) || decide (s.sys.phase = .recovery)

/-- The slot bound to SPI (R381). -/
def spiSlot (s : State) : Option Nat := hostSlots.find? fun h => decide (portOf s h = 0)

/-- The largest LEN of a port (R389). -/
def portMax (s : State) (h : Nat) : Nat := if portOf s h = 1 then 1460 else 4084

/-! ### Results (R388, R392) -/

/-- The result that a read of a slot returns, and its READY (R392). -/
def currentResult (s : State) (h : Nat) : Option (Result × Bool) :=
  let x := slotOf s h
  match x.unrel, x.last with
  | r :: _, _ => some (r, true)
  | [], some r => some (r, false)
  | [], none => none

/-- Release the oldest `n` results. -/
def releaseOldest : Nat → HostSlot → HostSlot
  | 0, h => h
  | n + 1, h => releaseOldest n (dropOldest h)

/-- An acknowledgement: it releases the named result and those before it; one that names none is counted (R392). -/
def ackResult (s : State) (h seq : Nat) : State :=
  let l := (slotOf s h).unrel
  let i := l.findIdx fun r => decide (r.rseq = seq)
  if i < l.length then
    let s := modSlot s h (releaseOldest (i + 1))
    payOwed (slotOf s h).owed.length s h
  else modHif s fun x => { x with winBadAck := min 255 (x.winBadAck + 1) }

/-! ### The arrival of a frame (R387, R389, R390) -/

/-- What a header says. -/
structure Header where
  len : Nat
  code : Nat
  flags : Nat
  ackseq : Nat
  htag : Nat
  /-- A reserved bit is set. -/
  bad : Bool
  deriving DecidableEq, Repr

def headerOf (b : List Byte) : Header :=
  { len := leAt b 0 2 % 4096, code := leAt b 2 1, flags := leAt b 3 1, ackseq := leAt b 4 1, htag := leAt b 6 2,
    bad := decide (4096 ≤ leAt b 0 2 ∨ 4 ≤ leAt b 3 1 ∨ leAt b 5 1 ≠ 0 ∨ leAt b 8 4 ≠ 0) }

/-- A frame of this code waits in the slot's ring. -/
def waits (s : State) (h code : Nat) : Bool := (slotOf s h).ring.any fun f => decide (f.code = code ∧ f.reject = 0)

/-- A UDP slot that is not attached and has no ATTACH waiting gives its binding up (R384). -/
def unbindUdp (s : State) (h : Nat) : State :=
  if portOf s h = 1 ∧ !attached s h ∧ !waits s h 0x02 then wr (wr s (HIF_H_UDP_IP h) 0) (HIF_H_UDP_PORT h) 0 else s

/-- Put a frame into the slot's ring, in its place in the order of acceptance (R394). `status`: as in `Frame.reject`. -/
def putFrame (s : State) (h : Nat) (x : Header) (payload : List Byte) (status : Nat) : State :=
  let s := modSlot s h fun q => { q with
    ring := q.ring ++ [{ code := x.code, ordered := x.flags.testBit 0, htag := x.htag, payload := payload, seq := s.hif.accepted, reject := status }] }
  { s with hif := { s.hif with accepted := s.hif.accepted + 1 } }

/-- An earlier command of the slot to the same target has not completed. -/
def behind (s : State) (h : Nat) (b : List Nat) : Bool :=
  ((slotOf s h).ring.any fun g => shareBlock (frameBlocks g) b) || (slotOf s h).deferred.any fun d => shareBlock d.blocks b

/-- A frame that is rejected when it arrives completes at once, but after the earlier commands to its target (R40, R44); without
room for the response it is dropped (R389). -/
def rejectFrame (s : State) (h : Nat) (x : Header) (payload : List Byte) (status : Nat) : State :=
  let s := if behind s h (cmdBlocks x.code payload) then putFrame s h x payload status
    else if hasRoom s h 0 then postResult s h x.code status x.htag (stepCnt s) []
    else bump s (HIF_H_CNT_DROP_UNITS h)
  unbindUdp s h

/-- The status that a frame earns when it arrives; a slot counts as attached once its ATTACH is accepted (R381, R390).
`bad`: the first three cases of R389. -/
def arrivalStatus (s : State) (h : Nat) (x : Header) (bad : Bool) : Nat :=
  if bad then stLength
  else if x.bad then stInvalid
  else if !attached s h && !waits s h 0x02 && decide (x.code ≠ 1 ∧ x.code ≠ 2) then stNotAttached
  else if !knownCodes.contains x.code then stUnknownCmd
  else stOk

/-- One frame of slot `h` arrives at instant `t`: header, payload, whether an earlier frame of the unit or this one is cut or
finds no room. -/
def frameArrives (s : State) (h t : Nat) (x : Header) (payload : List Byte) (bad : Bool) : State :=
  let s := bump (modSlot s h fun q => { q with heard := t }) (HIF_H_CNT_ACC_CNT h)
  let s := if !bad && x.flags.testBit 1 then ackResult s h x.ackseq else s
  let st := arrivalStatus s h x bad
  if st = stOk then putFrame s h x payload 0 else rejectFrame s h x payload st

/-- The frames of a transport unit, for one slot (R389): `n` bounds them; `full`: an earlier frame found no room. Trailing
bytes shorter than a header are padding. -/
def unitFrames : Nat → State → Nat → Nat → Bool → List Byte → State
  | 0, s, _, _, _, _ => s
  | n + 1, s, h, t, full, b =>
    if b.length < 12 then s
    else
      let x := headerOf b
      let rest := b.drop 12
      let cut := decide (rest.length < x.len)
      let full := full || decide (ringBytes < reqUsed (slotOf s h) + frameSize x.len)
      let s := frameArrives s h t x (rest.take x.len) (full || cut || decide (portMax s h < x.len))
      if cut then s else unitFrames n s h t full (rest.drop ((x.len + 3) / 4 * 4))

/-- A unit arrives for a slot. -/
def unitArrives (s : State) (h t : Nat) (b : List Byte) : State := unitFrames (b.length / 12) s h t false b

/-- Frames of a unit that no slot takes are counted (R381, R384). -/
def countUnbound : Nat → State → List Byte → State
  | 0, s, _ => s
  | n + 1, s, b =>
    if b.length < 12 then s
    else
      let x := headerOf b
      let s := bump s HIF_CNT_UNBOUND_CNT
      if b.length - 12 < x.len then s else countUnbound n s (b.drop (frameSize x.len))

/-! ### IDENTIFY (R404) -/

/-- The payload of IDENTIFY for a slot, or for a UDP source that has none: slot 0xFF, port UDP, no roles. -/
def identifyBody (s : State) (h : Option Nat) : List Byte :=
  leBytes 4 (rd s SYS_ID).toNat ++ leBytes 4 (rd s SYS_FW).toNat ++ leBytes 8 Config.serial.toNat
    ++ (match h with
      | some h =>
        leBytes 1 h ++ leBytes 1 (portOf s h) ++ leBytes 1 (getF s (HIF_H_CFG_ROLES h))
          ++ leBytes 1 (if attached s h then roleOf s h else 255)
      | none => [0xFF#8, 1#8, 0#8, 0xFF#8])
    ++ leBytes 1 s.boot.running ++ leBytes 3 0

/-! ### SPI (R382, R383) -/

/-- The firmware's state as WIN_STAT shows it: FWUP, the slot, IRQ, MODE, counts (R409). -/
def winStat (s : State) : Word :=
  let h := (spiSlot s).getD 0
  let x := slotOf s h
  let own := (spiSlot s).isSome
  BitVec.ofNat 32 (bit (served s) 0 + bit (own && attached s h) 1 + h * 4 + bit (own && !x.unrel.isEmpty) 4
    + getF s SYS_BOOT_MODE * 32 + (if own then min 255 x.unrel.length else 0) * 256
    + (ringBytes - (if own then reqUsed x else 0)) / 4 * 65536)

/-- WIN_HEAD (R409). -/
def winHead (s : State) : Word := match (spiSlot s).bind (currentResult s) with
  | some (r, ready) => BitVec.ofNat 32 (r.rseq + bit ready 8 + frameSize r.payload.length * 65536)
  | none => 0

/-- The device is in service: the cursor window does not act (R423). -/
def inService (s : State) : Bool := decide (getF s SYS_BOOT_MODE = 0)

/-- A register of the direct window (R409, R423). -/
def winWord (s : State) (a : Nat) : Word :=
  if a = 0 then rd s SYS_ID
  else if a = 1 then winStat s
  else if a = 2 then winHead s
  else if a = 4 then
    BitVec.ofNat 32 (s.hif.winCrc + s.hif.winShort * 256 + s.hif.winBadAck * 65536 + s.hif.last * 2 ^ 24)
  else if a = 8 then stepCnt s
  else if a = 9 then rd s SYS_IMPL_STATE
  else if a = 0x0A then rd s SYS_SUPV_CTRL
  else if a = 0x0B then
    BitVec.ofNat 32 (getF s DRV_STAT_EN_A + 2 * getF s DRV_STAT_EN_B_N + 4 * getF s DRV_STAT_FORCED)
  else if inRange 0x10 0x19 a && !inService s then cursorWord s (a - 0x10)
  else 0

/-- What a read of window addresses leaves: the RC fields of WIN_ERR, and INDEX after a read of 0x19 (R409, R423). -/
def winReadDone (s : State) (a n : Nat) : State :=
  let s := if a ≤ 4 ∧ 4 < a + n then modHif s fun x => { x with winCrc := 0, winShort := 0, winBadAck := 0 } else s
  if a ≤ 0x19 ∧ 0x19 < a + n ∧ !inService s then modRec s fun r => { r with cursor := min 16383 (r.cursor + 1) } else s

/-- A write of REC_CUR (R417, R423). -/
def cursorWrite (s : State) (v : Word) : State :=
  if inService s then s
  else
    let s := modRec s fun r => { r with cursor := bitsOf v 13 0 }
    if v.getLsbD 16 then (if s.recd.freeze.isNone then freezeLog s 4 else s) else releaseFreeze s 4

/-- A write of one window register (R409): WIN_ACK only while the SPI slot is attached. -/
def winWrite (s : State) (a : Nat) (v : Word) : State :=
  if a = 3 then
    match spiSlot s with
    | some h => if attached s h then ackResult s h (bitsOf v 7 0) else s
    | none => s
  else if a = 0x10 then cursorWrite s v
  else s

/-- The words of a write. -/
def winWrites : State → Nat → List Word → State
  | s, _, [] => s
  | s, a, v :: l => winWrites (winWrite s a v) (a + 1) l

/-- Why a transaction is discarded: LAST (R383). -/
def ltOk : Nat := 0
def ltCrc : Nat := 1
def ltShort : Nat := 2
def ltBadOp : Nat := 3
def ltFwDown : Nat := 4

/-- Data bytes N of a transaction. -/
def spiN (m : List Byte) : Nat := leAt m 2 2

/-- OP, N or the window address is bad, or the firmware does not serve mailboxes (R383). -/
def spiBadOp (m : List Byte) : Bool :=
  let op := leAt m 0 1
  let n := spiN m
  !inRange 1 4 op || decide (n % 4 ≠ 0) || decide (4096 < n) || (decide (op < 3) && decide (0x40 < leAt m 1 1 + n / 4))

/-- The transaction is refused for its header. -/
def spiRefused (s : State) (m : List Byte) : Bool := spiBadOp m || (decide (3 ≤ leAt m 0 1) && !served s)

/-- LAST that a transaction earns, its cases in the order of R383. -/
def spiResult (s : State) (m : List Byte) : Nat :=
  let op := leAt m 0 1
  let n := spiN m
  let reads := decide (op = 1 ∨ op = 4)
  if m.length < 6 then ltShort
  else if (m.drop 4).take 2 ≠ crcBytes (m.take 4) then ltCrc
  else if m.length < (if reads then 10 else 8) + n then ltShort
  else if spiBadOp m then ltBadOp
  else if 3 ≤ op ∧ !served s then ltFwDown
  else if !reads ∧ (m.drop (6 + n)).take 2 ≠ crcBytes ((m.drop 6).take n) then ltCrc
  else ltOk

/-- The data that a read returns (R382, R383). -/
def spiData (s : State) (m : List Byte) : List Byte :=
  let n := spiN m
  if leAt m 0 1 = 1 then wordBytes ((List.range (n / 4)).map fun k => winWord s (leAt m 1 1 + k))
  else
    let b := match (spiSlot s).bind (currentResult s) with
      | some (r, ready) => resultBytes r ready
      | none => []
    (b ++ List.replicate n 0#8).take n

/-- What HIF_MISO carries after the header of a transaction (R382, R383): after a header whose CRC fails 0xFF, in a write 0xFF, in a
read the turn-around, the data and their CRC. What a read that is refused carries, or a transaction of an unknown OP, is not given:
free values, of index `f`. -/
def spiTail (s : State) (m : List Byte) (f : Nat) : List Byte :=
  let op := leAt m 0 1
  let ff := List.replicate m.length 0xFF#8
  if (m.drop 4).take 2 ≠ crcBytes (m.take 4) ∨ op = 2 ∨ op = 3 then ff
  else if spiRefused s m then (List.range (m.length - 6)).map (Config.freeByte f)
  else
    let d := spiData s m
    [0xFF#8, 0xFF#8] ++ d ++ crcBytes d ++ ff

/-- The bytes on HIF_MISO in a transaction. -/
def spiMiso (s : State) (m : List Byte) (f : Nat) : List Byte :=
  let free := (ringBytes - reqUsed (slotOf s ((spiSlot s).getD 0))) / 4
  let head := leBytes 1 s.hif.last ++ leBytes 1 (bitsOf (winStat s) 7 0) ++ leBytes 2 free
  let head := head ++ crcBytes head
  (head ++ spiTail s m f).take m.length

/-- The effect of an accepted transaction. -/
def spiEffect (s : State) (m : List Byte) (t : Nat) : State :=
  let n := spiN m
  let d := (m.drop 6).take n
  match leAt m 0 1 with
  | 1 => winReadDone s (leAt m 1 1) (n / 4)
  | 2 => winWrites s (leAt m 1 1) ((List.range (n / 4)).map fun k => wordAt d (4 * k))
  | 3 => match spiSlot s with
    | some h => unitArrives s h t d
    | none => countUnbound (d.length / 12) s d
  | _ => s

/-- A whole SPI transaction, ending at instant `t`: `m` are the bytes on HIF_MOSI. A discarded one changes nothing but what
WIN_ERR and LAST report. -/
def spiTransaction (s : State) (m : List Byte) (t : Nat) : State :=
  if s.sys.inReset then s
  else
    let r := spiResult s m
    let out := spiMiso s m (fresh s).1
    let s := if spiRefused s m then (fresh s).2 else s
    let s := if r = ltOk then spiEffect s m t else s
    modHif s fun x => { x with
      miso := out
      last := r
      winCrc := if r = ltCrc then min 255 (x.winCrc + 1) else x.winCrc
      winShort := if r = ltShort ∨ r = ltBadOp then min 255 (x.winShort + 1) else x.winShort }

/-- The transaction is of this kind: its OP says so, or says nothing that is known. -/
def spiKind (op : Nat) (m : List Byte) : Bool := decide (leAt m 0 1 = op) || !inRange 1 4 (leAt m 0 1)

/-- A transaction with one data word, as a host forms it. -/
def spiWord (a : Nat) (v : Word) : List Byte :=
  let head := [2#8] ++ leBytes 1 a ++ leBytes 2 4
  let d := leBytes 4 v.toNat
  head ++ crcBytes head ++ d ++ crcBytes d

def execWinRead (mosi : List Byte) (t : Nat) (s : State) : Host.Outcome State Fault Refusal :=
  answer (inThisStep s t && spiKind 1 mosi) (spiTransaction s mosi (absTick s t))

def execWinWrite (mosi : List Byte) (t : Nat) (s : State) : Host.Outcome State Fault Refusal :=
  answer (inThisStep s t && spiKind 2 mosi) (spiTransaction s mosi (absTick s t))

def execReqWrite (mosi : List Byte) (t : Nat) (s : State) : Host.Outcome State Fault Refusal :=
  answer (inThisStep s t && spiKind 3 mosi) (spiTransaction s mosi (absTick s t))

def execRspRead (mosi : List Byte) (t : Nat) (s : State) : Host.Outcome State Fault Refusal :=
  answer (inThisStep s t && spiKind 4 mosi) (spiTransaction s mosi (absTick s t))

/-- WIN_ACK: a WIN_WRITE of SEQ (R392). -/
def execWinAck (seq t : Nat) (s : State) : Host.Outcome State Fault Refusal :=
  answer (inThisStep s t && decide (seq < 256)) (spiTransaction s (spiWord 3 (BitVec.ofNat 32 seq)) (absTick s t))

/-- WINDOW_FREEZE: a WIN_WRITE of REC_CUR with INDEX and FREEZE (R423). -/
def execWindowFreeze (idx : Nat) (freeze : Bool) (t : Nat) (s : State) : Host.Outcome State Fault Refusal :=
  answer (inThisStep s t && decide (idx < 16384))
    (spiTransaction s (spiWord 0x10 (BitVec.ofNat 32 (idx + bit freeze 16))) (absTick s t))

/-! ### UDP (R384) -/

/-- The UDP slot bound to a source. -/
def udpSlot (s : State) (ip port : Word) : Option Nat :=
  hostSlots.find? fun h => decide (portOf s h = 1) && decide (rd s (HIF_H_UDP_IP h) = ip) && decide (rd s (HIF_H_UDP_PORT h) = port)
    && (attached s h || waits s h 0x02)

/-- The lowest UDP slot that is free to be bound. -/
def freeUdpSlot (s : State) : Option Nat :=
  hostSlots.find? fun h => decide (portOf s h = 1) && !attached s h && !waits s h 0x02

/-- One frame of a datagram: to the slot bound to its source; an ATTACH binds one; IDENTIFY is answered; others count. -/
def udpFrame (s : State) (ip port : Word) (t : Nat) (x : Header) (payload : List Byte) (cut full : Bool) : State × Bool :=
  let put := fun (s : State) (h : Nat) =>
    let full := full || decide (ringBytes < reqUsed (slotOf s h) + frameSize x.len)
    (frameArrives s h t x payload (full || cut || decide (1460 < x.len)), full)
  match udpSlot s ip port with
  | some h => put s h
  | none =>
    if x.code = 2 then
      match freeUdpSlot s with
      | some h => put (wr (wr s (HIF_H_UDP_IP h) ip) (HIF_H_UDP_PORT h) port) h
      | none => (bump s HIF_CNT_UNBOUND_CNT, full)
    else if x.code = 1 then
      if cut ∨ x.bad ∨ 1460 < x.len then (s, full)
      else
        let body := if x.len = 0 then identifyBody s none else []
        let r : Result := { code := 1, status := if x.len = 0 then stOk else stLength, rseq := 0, htag := x.htag, step := stepCnt s, payload := body }
        (sendResults s 255 1 [r], full)
    else (bump s HIF_CNT_UNBOUND_CNT, full)

/-- The frames of a datagram; `n` bounds them. -/
def udpFrames : Nat → State → Word → Word → Nat → Bool → List Byte → State
  | 0, s, _, _, _, _, _ => s
  | n + 1, s, ip, port, t, full, b =>
    if b.length < 12 then s
    else
      let x := headerOf b
      let rest := b.drop 12
      let cut := decide (rest.length < x.len)
      let r := udpFrame s ip port t x (rest.take x.len) cut full
      if cut then r.1 else udpFrames n r.1 ip port t r.2 (rest.drop ((x.len + 3) / 4 * 4))

/-- UDP_DATAGRAM from a source, whole: only through an inserted relay and while the firmware serves (R346, R384, R455). -/
def udpDatagram (s : State) (ip port : Word) (b : List Byte) (t : Nat) : State :=
  if s.sys.phase = .up ∧ relayState s = byInserted ∧ b.length ≤ 1472 then udpFrames (b.length / 12) s ip port t false b else s

def execUdpDatagram (ip port : Word) (b : List Byte) (t : Nat) (s : State) : Host.Outcome State Fault Refusal :=
  answer (inThisStep s t && decide (port.toNat < 65536)) (udpDatagram s ip port b (absTick s t))

/-! ### CAN_B (R385) -/

/-- The slot bound to CAN_B. -/
def canbSlot (s : State) : Option Nat := hostSlots.find? fun h => decide (portOf s h = 2)

/-- The device discards a message that is being put together. -/
def dropMessage (s : State) (h : Nat) : State :=
  if (slotOf s h).reasm.isSome then bump (modSlot s h fun x => { x with reasm := none }) (HIF_H_CNT_DROP_UNITS h) else s

/-- The bytes of a message that is whole: its header says how long it is. -/
def messageWhole (b : List Byte) : Bool := decide (12 ≤ b.length) && decide (frameSize (headerOf b).len ≤ b.length)

/-- A segment arrives for slot `h`: byte 0 is SEG and LAST. A message begins with SEG 0. -/
def segment (s : State) (h t : Nat) (b : List Byte) : State :=
  let seg := leAt b 0 1 % 128
  let last := decide (128 ≤ leAt b 0 1)
  let cur := (slotOf s h).reasm
  let begun := match cur with
    | some r => decide (seg = r.nextSeg)
    | none => decide (seg = 0)
  let s := if begun then s else dropMessage s h
  if !begun && decide (seg ≠ 0) then s
  else
    let bytes := (if begun then (cur.map (·.bytes)).getD [] else []) ++ b.drop 1
    if last then
      let s := modSlot s h fun x => { x with reasm := none }
      if messageWhole bytes then unitArrives s h t (bytes.take (frameSize (headerOf bytes).len))
      else bump s (HIF_H_CNT_DROP_UNITS h)
    else modSlot s h fun x => { x with reasm := some { nextSeg := (seg + 1) % 128, bytes := bytes, heard := t } }

/-- CANB_SEGMENT: the data of one CAN FD frame on HIF_CANB.RXID (R381, R385, R455). A message that no slot takes is counted with its
last segment. -/
def canbSegment (s : State) (t : Nat) (b : List Byte) : State :=
  if s.sys.phase = .up ∧ flag s (CAN_CTRL_EN 1) ∧ flag s (CAN_CTRL_FD_EN 1) then
    match canbSlot s with
    | some h => segment s h t b
    | none => if 128 ≤ leAt b 0 1 then bump s HIF_CNT_UNBOUND_CNT else s
  else s

def execCanbSegment (b : List Byte) (t : Nat) (s : State) : Host.Outcome State Fault Refusal :=
  answer (inThisStep s t && inRange 1 64 b.length) (canbSegment s (absTick s t) b)

/-- More than 10 ms have passed since the last segment (R385). -/
def segmentTimeout (s : State) (t : Nat) : State := match canbSlot s with
  | some h => match (slotOf s h).reasm with
    | some r => if r.heard + 10 * 200000 < t then dropMessage s h else s
    | none => s
  | none => s

def execSegmentTimeout (t : Nat) (s : State) : Host.Outcome State Fault Refusal :=
  answer (inThisStep s t) (segmentTimeout s (absTick s t))

/-! ### The keep-alive (R397) -/

/-- The keep-alive of a slot has expired at an instant; it does not apply to the ISOBUS slot (R386). -/
def kaExpired (s : State) (h t : Nat) : Bool :=
  attached s h && decide (portOf s h ≠ 3) && decide ((slotOf s h).heard + (slotOf s h).ka * 200000 ≤ t)

def execKeepAliveExpiry (h t : Nat) (s : State) : Host.Outcome State Fault Refusal :=
  answer (decide (h < 4) && inThisStep s t) (if kaExpired s h (absTick s t) then detach s h 1 else s)

/-- At a step boundary: the responses of commands that come into force at it are posted (R41); keep-alives and segment timeouts that
are overdue. -/
def hifBoundary (s : State) : State :=
  let t := absTick s (nowTick s)
  let s := postDeferred s 6
  let s := hostSlots.foldl (fun s h => if kaExpired s h t then detach s h 1 else s) s
  hostSlots.foldl (fun s h => payOwed (slotOf s h).owed.length s h) (segmentTimeout s t)

/-! ### Attachment (R395, R397, R404) -/

/-- A slot becomes attached in a role: its selectors return to their reset values, and SESSION counts (R404, R498). -/
def attachSlot (s : State) (h role ka : Nat) : State :=
  let s := if attached s h then s
    else modSlot s h fun x => { x with win := [], session := x.session % (2 ^ 32 - 1) + 1 }
  let s := setF (setB s (HIF_H_STAT_ATT h) true) (HIF_H_STAT_ROLE h) role
  let s := modSlot s h fun x => { x with ka := if ka = 0 then getF s (HIF_H_CFG_KA h) else ka }
  showHif (if portOf s h = 2 then showCan (setB s (CAN_CTRL_HOSTLINK 1) true) 1 else s)

/-! ### ISOBUS (R386) -/

/-- The slot bound to ISOBUS. -/
def isoSlot (s : State) : Option Nat := hostSlots.find? fun h => decide (portOf s h = 3)

/-- The LEASE command that the client's attachment issues: its sections and zones, without members. -/
def isoLease (s : State) : List Byte :=
  let secs := (List.range (getF s HIF_ISO_CFG_NSEC)).map fun k => (kSec, k)
  let zones := ((List.range 8).filter fun z => (getF s HIF_ISO_CFG_ZONES).testBit z).map fun z => (kZone, z)
  leBytes 2 (secs.length + zones.length) ++ [0#8, 0#8] ++ (secs ++ zones).flatMap itemBytes

/-- TC_CONNECT: the slot attaches as OPERATOR where its ROLES permit it and it carries the firmware's client (R386, R395). -/
def tcConnect (s : State) : State := match isoSlot s with
  | some h =>
    if s.sys.phase = .up ∧ !testMode s ∧ !attached s h ∧ flag s CAN_ISO_STAT_CLAIMED ∧ (getF s (HIF_H_CFG_ROLES h)).testBit 1 then
      let s := attachSlot s h 1 0
      (leaseCmd s h (isoLease s)).s
    else s
  | none => s

def execTcConnect (s : State) : Host.Outcome State Fault Refusal := .next (tcConnect s)

/-- TC_DISCONNECT: the slot detaches. The cause that its record names is not given: it is free (R397, R424). -/
def tcDisconnect (s : State) : State := match isoSlot s with
  | some h =>
    if attached s h then
      let f := fresh s
      detach f.2 h (Config.freeByte f.1 0).toNat
    else s
  | none => s

def execTcDisconnect (s : State) : Host.Outcome State Fault Refusal := .next (tcDisconnect s)

end Sys2Proof.Machine
end

