-- ==== Sys2Proof/Machine/Cmds.lean ====
section
/-!
DEFINITION. Sys2Proof/Machine/Cmds.lean: the mailbox commands (R390, R393, R403 to R408 and the chapters that define them):
when a command starts, the checks of its frame, its execution and its response.
-/
namespace Sys2Proof.Machine

/-! ### Tables (R407, R474) -/

def entrySize : TableName → Nat
  | .stored t => tableSize t
  | .mdr => 4
  | .slt => 64
  | .cap => 4

def entryCount : TableName → Nat
  | .stored t => tableCount t
  | .mdr => 262144
  | .slt => 1024
  | .cap => 4096

/-- The table that a request names. -/
def reqTable (p : List Byte) : Option TableName := tableNamed (p.take 3)
def reqFirst (p : List Byte) : Nat := leAt p 4 4
def reqCount (p : List Byte) : Nat := leAt p 8 2

/-! ### The frame checks of a command (R389, R403) -/

/-- The number of registers that a PARAM_READ names. -/
def readTotal (p : List Byte) : Nat := ((List.range (leAt p 0 2)).map fun k => leAt p (6 + 4 * k) 2).sum

/-- The largest payload that a response can have, by the count fields of its request (R389, R393). -/
def maxBody (code : Nat) (p : List Byte) : Nat :=
  match code with
  | 0x01 => 24
  | 0x02 => 8
  | 0x06 => 4
  | 0x08 => 4 + 4 * readTotal p
  | 0x09 => 4
  | 0x0A => 12 + reqCount p * ((reqTable p).elim 0 entrySize)
  | 0x0B => 12
  | 0x0C => 5
  | 0x0D => 5
  | 0x10 => 4 + 4 * leAt p 0 2
  | 0x11 => 4 + 4 * leAt p 2 2
  | 0x18 => 1036
  | 0x19 => 16
  | 0x20 => 32 + 32 * min 120 (leAt p 6 2)
  | 0x21 => 5 + 80 * leAt p 4 1
  | 0x28 => 4 + 4 * leAt p 1 1
  | 0x29 => 4 + 80 * leAt p 2 1
  | 0x2A => 16
  | 0x30 => 8 + 32 * leAt p 2 2
  | 0x31 => 4
  | 0x32 => 18
  | 0x38 => 36
  | 0x39 => 1
  | 0x3A => 4
  | 0x3B => 2
  | 0x3D => 1
  | 0x3E => 8
  | _ => 0

/-- LEN is what the command and its count fields ask for, and no count exceeds its maximum; `port`: the largest LEN. -/
def lenOk (code port : Nat) (p : List Byte) : Bool :=
  let n := p.length
  let items := fun (c m size : Nat) => decide (4 ≤ n) && decide (c ≤ m) && decide (n = 4 + size * c)
  match code with
  | 0x02 => decide (n = 4)
  | 0x05 => decide (n = 4)
  | 0x06 => decide (n = 4)
  | 0x08 => items (leAt p 0 2) 255 4 && decide (readTotal p ≤ if port < 4084 then 364 else 1020)
  | 0x09 => items (leAt p 0 2) 255 12
  | 0x0A => decide (n = 12)
  | 0x0B => inRange 12 4084 n && (match reqTable p with
      | some t => decide (n = 12 + entrySize t * reqCount p)
      | none => true)
  | 0x0C => items (leAt p 0 2) 72 4
  | 0x0D => items (leAt p 0 2) 72 4
  | 0x10 => items (leAt p 0 2) 64 16
  | 0x11 => items (leAt p 2 2) 128 4
  | 0x18 => decide (n = 8)
  | 0x19 => inRange 8 1032 n
  | 0x20 => decide (n = 8)
  | 0x21 => decide (n = 5) && decide (leAt p 4 1 ≤ 40)
  | 0x22 => decide (n ≤ 1024)
  | 0x28 => inRange 4 1412 n && canSendLen p
  | 0x29 => decide (n = 4) && decide (leAt p 2 1 ≤ 32)
  | 0x2A => decide (n = 10)
  | 0x30 => decide (n = 4) && decide (leAt p 2 2 ≤ if port < 4084 then 45 else 120)
  | 0x31 => decide (n = 4)
  | 0x33 => decide (n = 32)
  | 0x39 => decide (n = 8)
  | 0x3A => inRange 8 1028 n && decide (n % 4 = 0)
  | 0x3C => decide (n = 4)
  | 0x3E => if leAt p 0 1 = 2 then decide (n = 36) || decide (n = 68) else decide (n = 4)
  | 0x3F => decide (n = 4)
  | _ => decide (n = 0)

/-- The length check of a frame: the command's own, and the largest response against the port (R389). -/
def frameLenOk (s : State) (h : Nat) (f : Frame) : Bool :=
  lenOk f.code (portMax s h) f.payload && decide (maxBody f.code f.payload ≤ portMax s h)

/-! ### When a command starts (R42, R393) -/

/-- Commands whose effect is on the data path: it comes into force at the coming boundary, which the response names and after which
it is posted (R41). -/
def stepCodes : List Nat := [0x09, 0x0B, 0x0C, 0x0D, 0x10, 0x11, 0x19, 0x28, 0x29, 0x2A]

/-- Every command of the slot that has started has completed (R42). -/
def allDone (s : State) (h : Nat) : Bool :=
  (slotOf s h).deferred.isEmpty && !(s.sys.running && decide ((slotOf s h).ranIn = some s.now))

/-- The slot may start a command whose response may have this payload (R393). -/
def rspRoom (s : State) (h body : Nat) : Bool :=
  let x := slotOf (roomFor s h (frameSize body)) h
  decide (x.unrel.length < maxUnreleased) && decide (rspUsed x + frameSize body ≤ ringBytes) && x.owed.isEmpty

/-- The largest response of a frame: one that will be refused for its length has no payload. -/
def bodyBound (s : State) (h : Nat) (f : Frame) : Nat := if frameLenOk s h f ∧ f.reject = 0 then maxBody f.code f.payload else 0

/-- The front command of a slot waits for room (R393). -/
def rspFull (s : State) (h : Nat) : Bool := match (slotOf s h).ring with
  | f :: _ => !rspRoom s h (bodyBound s h f)
  | [] => false

/-- A write that triggers `bits` of a register. -/
def triggers (l : List WItem) (i : Nat) (bits : Word) : Bool :=
  l.any fun w => decide (w.idx = i) && decide (w.mask &&& w.value &&& bits ≠ 0)

/-- A clear of the map holds the command back (R146). -/
def clearWaits (s : State) (f : Frame) : Bool :=
  flag s MAP_STAT_CLR_BUSY && (decide (f.code = 0x18) || decide (f.code = 0x19)
    || (decide (f.code = 0x09) && triggers (writeReq f.payload) MAP_PLY_CTRL 1))

/-- A write whose effect waits for the next measurement epoch (R322). -/
def epochItem (w : WItem) : Bool := touches w && gnsWaits w.idx || (decide (w.idx = GNS_SLOT_CFG) && touches w)

/-- What the response of an accepted PARAM_WRITE waits for: the end of a map clear, an epoch, or both. -/
def writeWait (l : List WItem) : Option Nat :=
  let clr := triggers l MAP_CLR 0xF
  let ep := l.any epochItem
  if clr && ep then some 5 else if clr then some 0 else if ep then some 1 else none

/-- A command of any slot to the same target waits for an event, and this one has an effect that would come into force before it
(R40, R43). One that will be refused is not held, nor is one that waits for the same event. -/
def targetHeld (s : State) (h : Nat) (f : Frame) : Bool :=
  let held := fun (w : Option Nat) => hostSlots.any fun g => (slotOf s g).deferred.any fun d =>
    decide (d.wait ≤ 5) && decide (some d.wait ≠ w) && shareBlock d.blocks (frameBlocks f)
  if f.code = 0x09 then held (writeWait (writeReq f.payload)) && (writeItems s h (writeReq f.payload)).2.isNone
  else stepCodes.contains f.code && held none

/-- A command may start, but for the order among the commands that wait: it is served, its response has room (R393), FENCE and
ORDERED find every earlier command completed (R42), and what its chapter makes it wait for has come. -/
def mayStart (s : State) (h : Nat) (f : Frame) : Bool :=
  served s && (decide (s.sys.phase = .up) || decide (spiSlot s = some h)) && rspRoom s h (bodyBound s h f)
    && (!(f.ordered || decide (f.code = 0x04)) || allDone s h) && !clearWaits s f && !targetHeld s h f
    && !(decide (f.code = 0x03) && (slotOf s h).deferred.any fun d => shareBlock d.blocks (frameBlocks f))
    && !(inRange 0x30 0x37 f.code && (slotOf s h).deferred.any fun d => decide (d.wait = 2))
    && !(inRange 0x38 0x3F f.code && (slotOf s h).deferred.any fun d => inRange 3 4 d.wait)

/-- A command may start before one of the same slot that was accepted earlier and still waits: they have no target in common
(R40), neither is a FENCE and the later one is not ORDERED (R42), and the earlier one does not wait for room (R393). -/
def mayPass (s : State) (h : Nat) (f g : Frame) : Bool :=
  decide (g.code ≠ 0x04) && decide (f.code ≠ 0x04) && !f.ordered && !shareBlock (frameBlocks g) (frameBlocks f)
    && rspRoom s h (bodyBound s h g)

/-- The first frame of a ring that satisfies `ok` beside the frames ahead of it, and what remains. -/
def pickFrom (ok : List Frame → Frame → Bool) : List Frame → List Frame → Option (Frame × List Frame)
  | _, [] => none
  | ahead, f :: l => if ok ahead f then some (f, ahead ++ l) else pickFrom ok (ahead ++ [f]) l

/-- The frame may start in its own slot, beside the frames ahead of it. -/
def ownTurn (s : State) (h : Nat) (ahead : List Frame) (f : Frame) : Bool := mayStart s h f && ahead.all (mayPass s h f)

/-- No frame of another slot to the same target was accepted earlier and could start (R43). One that its own FENCE or ORDERED flag
holds does not hold others back. -/
def firstInOrder (s : State) (h : Nat) (b : List Nat) (seq : Nat) : Bool :=
  hostSlots.all fun g => decide (g = h) ||
    (pickFrom (fun ahead x => decide (x.seq < seq) && shareBlock (frameBlocks x) b && ownTurn s g ahead x) [] (slotOf s g).ring).isNone

/-- The next frame of a kind that slot `h` starts, and what remains in its ring. -/
def nextFrame (s : State) (h : Nat) (kind : Frame → Bool) : Option (Frame × List Frame) :=
  pickFrom (fun ahead f => kind f && ownTurn s h ahead f && firstInOrder s h (frameBlocks f) f.seq) [] (slotOf s h).ring

/-! ### Execution -/

/-- What a command answers: its reply, the event that the response waits for, or none at all (R461). -/
structure CmdOut where
  r : Reply
  wait : Option Nat
  silent : Bool

def plain (r : Reply) : CmdOut := { r := r, wait := none, silent := false }

/-- An answer without effect. -/
def okBody (s : State) (b : List Byte) : Reply := { s := s, status := stOk, body := b }

/-- The commands of the recovery monitor (R464). -/
def recoveryServes (code : Nat) (p : List Byte) : Bool :=
  [0x00, 0x01, 0x02, 0x03, 0x38, 0x39, 0x3A, 0x3B, 0x3C, 0x3F].contains code
    || (decide (code = 0x3E) && decide (leAt p 0 1 = 1))
    || (decide (code = 0x08) && (List.range (leAt p 0 2)).all fun k => decide (leAt p (4 + 4 * k) 2 + leAt p (6 + 4 * k) 2 ≤ 0x0500))

/-- What stands against a frame before its command is looked at (R390). -/
def precheck (s : State) (h : Nat) (f : Frame) : Nat :=
  if f.reject ≠ 0 then f.reject
  else if !attached s h && decide (f.code ≠ 1 ∧ f.code ≠ 2) then stNotAttached
  else if !frameLenOk s h f then stLength
  else if s.sys.phase = .recovery ∧ !recoveryServes f.code f.payload then stWrong
  else stOk

/-- A command to one of these blocks comes into force at the coming boundary. -/
def pendingAt (s : State) (b : List Nat) : Bool :=
  hostSlots.any fun g => (slotOf s g).deferred.any fun d => decide (d.wait = 6) && shareBlock d.blocks b

/-- The command belongs to the coming boundary: its own effect does, or what it reads does (R41, R405). -/
def atNext (s : State) (f : Frame) : Bool := s.sys.running && (stepCodes.contains f.code || pendingAt s (frameBlocks f))

/-- What the response of a command waits for (R40, R41); `w`: the event that the command itself waits for. -/
def answerWait (s : State) (h : Nat) (f : Frame) (w : Option Nat) (status : Nat) : Option Nat :=
  if status = stOk ∧ w.isSome then w
  else if s.sys.running && (pendingAt s (frameBlocks f) || (decide (status = stOk) && stepCodes.contains f.code)) then some 6
  else if (slotOf s h).deferred.any fun d => shareBlock d.blocks (frameBlocks f) then some 7
  else none

/-- Give the response of a command: at once, or kept until it is due (R391). `w`: what it waits for. -/
def respond (s : State) (h : Nat) (f : Frame) (o : CmdOut) (w : Option Nat) : State :=
  if o.r.status = stOk ∧ o.silent then s
  else match w with
    | some w => modSlot s h fun x => { x with
        deferred := x.deferred ++ [{ code := f.code, htag := f.htag, wait := w, status := o.r.status, body := o.r.body, blocks := frameBlocks f }] }
    | none => postResult s h f.code o.r.status f.htag (stepCnt s) o.r.body

/-- Start the next command of a slot of this kind, if there is one. -/
def runCmd (s : State) (h : Nat) (kind : Frame → Bool) (run : State → List Byte → CmdOut) : State :=
  match nextFrame s h kind with
  | none => s
  | some (f, rest) =>
    let s := modSlot s h fun x => { x with ring := rest }
    let st := precheck s h f
    let s := { s with sys := { s.sys with atBoundary := atNext s f } }
    let o := if st = stOk then run s f.payload else plain (refuse s st)
    let s := respond o.r.s h f o (answerWait s h f o.wait o.r.status)
    { s with sys := { s.sys with atBoundary := false } }

/-- A frame with this code. -/
def isCode (c : Nat) (f : Frame) : Bool := decide (f.code = c)

/-- Run a command that answers at once. -/
def runPlain (s : State) (h code : Nat) (run : State → List Byte → Reply) : State :=
  runCmd s h (isCode code) fun s p => plain (run s p)

/-- A row of a mailbox command of slot `h`. -/
def row (h : Nat) (s : State) : Host.Outcome State Fault Refusal := answer (decide (h < 4)) s

/-! ### Commands of chapter 14 (R404) -/

def execNop (h : Nat) (s : State) : Host.Outcome State Fault Refusal := row h (runPlain s h 0x00 fun s _ => okBody s [])

def execIdentify (h : Nat) (s : State) : Host.Outcome State Fault Refusal :=
  row h (runPlain s h 0x01 fun s _ => okBody s (identifyBody s (some h)))

/-- What stands against an ATTACH (R385, R395, R404, R463, R464). -/
def attachStatus (s : State) (h : Nat) (p : List Byte) : Nat :=
  let role := leAt p 0 1
  let ka := leAt p 2 2
  if role < 4 ∧ (!(getF s (HIF_H_CFG_ROLES h)).testBit role ∨ (testMode s ∧ role ≠ 3)) then stLease
  else if 4 ≤ role ∨ leAt p 1 1 ≠ 0 ∨ !(decide (ka = 0) || inRange 20 10000 ka) then stInvalid
  else if (s.sys.phase = .recovery ∧ role ≠ 3) ∨ (portOf s h = 2 ∧ !flag s (CAN_CTRL_FD_EN 1)) then stWrong
  else if (role = 0 ∨ role = 3) ∧ hostSlots.any fun g => decide (g ≠ h) && attached s g && decide (roleOf s g = role) then stRoleTaken
  else stOk

/-- ATTACH: attach, or change the role (R395). -/
def attachCmd (s : State) (h : Nat) (p : List Byte) : Reply :=
  let st := attachStatus s h p
  if st ≠ stOk then refuse (unbindUdp s h) st
  else
    let role := leAt p 0 1
    let s := if attached s h ∧ roleOf s h ≠ role then roleLeases s h role else s
    let s := attachSlot s h role (leAt p 2 2)
    okBody s (leBytes 1 h ++ leBytes 1 role ++ leBytes 2 (slotOf s h).ka ++ leBytes 4 (slotOf s h).session)

def execAttach (h : Nat) (s : State) : Host.Outcome State Fault Refusal := row h (runPlain s h 0x02 fun s p => attachCmd s h p)

/-- DETACH: the slot is detached after its response (R397). -/
def detachCmd (s : State) (h : Nat) : State :=
  let due := match nextFrame s h (isCode 0x03) with
    | some (f, _) => decide (precheck s h f = stOk)
    | none => false
  let t := runPlain s h 0x03 fun s _ => okBody s []
  if due then detach t h 0 else t

def execDetach (h : Nat) (s : State) : Host.Outcome State Fault Refusal := row h (detachCmd s h)

def execFence (h : Nat) (s : State) : Host.Outcome State Fault Refusal := row h (runPlain s h 0x04 fun s _ => okBody s [])

/-- RSP_REPEAT: the unreleased results from FROM on are sent again, on a port that sends by itself (R404). -/
def repeatCmd (s : State) (h : Nat) (p : List Byte) : Reply :=
  let l := (slotOf s h).unrel.dropWhile fun r => decide (r.rseq ≠ leAt p 0 1)
  if leAt p 1 3 ≠ 0 ∨ l.isEmpty then refuse s stInvalid
  else if portOf s h = 1 ∨ portOf s h = 2 then okBody (sendResults s h (portOf s h) l) []
  else okBody s []

def execRspRepeat (h : Nat) (s : State) : Host.Outcome State Fault Refusal := row h (runPlain s h 0x05 fun s p => repeatCmd s h p)

/-- NOTIFY_CFG (R404). -/
def notifyCfg (s : State) (h : Nat) (p : List Byte) : Reply :=
  let m := leAt p 0 4
  if 128 ≤ m then refuse s stInvalid else okBody (setF s (HIF_H_NOTE_MASK h) m) (leBytes 4 m)

def execNotifyCfg (h : Nat) (s : State) : Host.Outcome State Fault Refusal := row h (runPlain s h 0x06 fun s p => notifyCfg s h p)

/-! ### PARAM_READ and PARAM_WRITE (R405, R406) -/

/-- The indices that a PARAM_READ names, in request order. -/
def readIndices (p : List Byte) : List Nat :=
  (List.range (leAt p 0 2)).flatMap fun k => (List.range (leAt p (6 + 4 * k) 2)).map fun j => leAt p (4 + 4 * k) 2 + j

/-- Read registers in order. -/
def readRegs (h : Nat) (peek : Bool) (s : State) (l : List Nat) : State × List Word :=
  let full := fun g => rspFull s g
  l.foldl (fun a i =>
    let r := readReg a.1 full h peek i
    (r.1, a.2 ++ [r.2])) (s, [])

/-- PARAM_READ. An item of NUM 0 reads nothing. -/
def paramRead (s : State) (h : Nat) (p : List Byte) : Reply :=
  let past := (List.range (leAt p 0 2)).any fun k => decide (0x10000 < leAt p (4 + 4 * k) 2 + leAt p (6 + 4 * k) 2)
  if 2 ≤ leAt p 2 2 ∨ past then refuse s stInvalid
  else
    let l := readIndices p
    let bad := l.findIdx fun i => !regAssigned i
    let r := readRegs h (decide (leAt p 2 2 = 1) || decide (roleOf s h = 2)) s l
    let st := if bad < l.length then stUnknownIndex else stOk
    { s := r.1, status := st, body := leBytes 2 l.length ++ leBytes 2 (if bad < l.length then bad else 0xFFFF) ++ wordBytes r.2 }

def execParamRead (h : Nat) (s : State) : Host.Outcome State Fault Refusal := row h (runPlain s h 0x08 fun s p => paramRead s h p)

/-- The body of a PARAM_WRITE response. -/
def writeBody (done pos : Nat) : List Byte := leBytes 2 done ++ leBytes 2 pos

/-- PARAM_WRITE. -/
def paramWrite (s : State) (h : Nat) (p : List Byte) : CmdOut :=
  let l := writeReq p
  let w := writeItems s h l
  match w.2 with
  | some e => plain { s := s, status := e.2, body := writeBody 0 e.1 }
  | none =>
    if leAt p 2 2 ≠ 0 then plain { s := s, status := stInvalid, body := writeBody 0 0 }
    else { r := { s := w.1, status := stOk, body := writeBody l.length 0xFFFF }, wait := writeWait l, silent := false }

def execParamWrite (h : Nat) (s : State) : Host.Outcome State Fault Refusal :=
  row h (runCmd s h (isCode 0x09) fun s p => paramWrite s h p)

/-! ### TABLE_READ and TABLE_WRITE (R407) -/

/-- The bytes of an entry as it is read; `f`: index of the free values that entries of CAP beyond its end return. -/
def readEntry (s : State) (f : Nat) (t : TableName) (n : Nat) : List Byte :=
  match t with
  | .stored .dly => dlyRead s n
  | .stored t => tget s t n
  | .mdr => mdrEntry s n
  | .slt => wordBytes (slotWords (slotAt s n))
  | .cap => match s.cle.cap.entries[n]? with
    | some w => leBytes 4 w.toNat
    | none => (List.range 4).map fun k => Config.freeByte f (4 * n + k)

/-- The reserved bytes of a table request are zero and it stays within the table. -/
def tableReqOk (t : TableName) (p : List Byte) : Bool :=
  decide (leAt p 3 1 = 0) && decide (leAt p 10 2 = 0) && decide (reqFirst p + reqCount p ≤ entryCount t)

/-- TABLE_READ. -/
def tableRead (s : State) (p : List Byte) : Reply :=
  match reqTable p with
  | none => refuse s stUnknownIndex
  | some t =>
    if !tableReqOk t p then refuse s stInvalid
    else if t = .cap ∧ getF s CLE_CAP_STAT_STATE ≠ capIdle ∧ getF s CLE_CAP_STAT_STATE ≠ capDone then refuse s stWrong
    else
      let f := if t = .cap then fresh s else (0, s)
      okBody f.2 (p ++ (List.range (reqCount p)).flatMap fun k => readEntry s f.1 t (reqFirst p + k))

def execTableRead (h : Nat) (s : State) : Host.Outcome State Fault Refusal := row h (runPlain s h 0x0A fun s p => tableRead s p)

def tableInt (b : List Byte) (o : Nat) (n : Nat) : Int := signed (8 * n) (leAt b o n)

def within (m : Int) (v : Int) : Bool := decide (-m ≤ v ∧ v ≤ m)

/-- The rules of an entry's values: ZON and GEO (R46 to R49), SEC (R78, R79, R180), RTT, DLY, FRC, TTM. -/
def entryOk (s : State) (t : TableId) (n : Nat) (b : List Byte) : Bool :=
  match t with
  | .geo => within 200000 (tableInt b 0 4) && within 200000 (tableInt b 4 4) && decide (leAt b 8 2 ≤ 20000) && decide (leAt b 10 6 = 0)
  | .zon => within 400000 (tableInt b 0 4) && within 400000 (tableInt b 4 4) && decide (leAt b 12 1 ≤ 1) && decide (leAt b 13 3 = 0)
  | .sec =>
    if n < 512 then
      decide (leAt b 0 1 % 128 < 64) && decide (leAt b 1 1 = 0) && decide (leAt b 2 2 ≤ 50000) && decide (leAt b 4 4 = 0)
        && !(isLocal n && paired s n && decide (n % 2 = 1) && decide (128 ≤ leAt b 0 1))
    else decide (leAt b 0 1 < 8) && decide (leAt b 1 7 = 0)
  | .ply => true
  | .rtt => if n < 128 then decide (leAt b 2 2 = 0) else decide (leAt b 0 4 < 2 ^ 26)
  | .dly => dlyValid b
  | .frc => frcValid b
  | .ttm => ttmEntryOk s n b

/-- A slot may write entry `n` of a table (R396). -/
def mayWriteEntry (s : State) (h : Nat) (t : TableId) (n : Nat) : Bool :=
  match t with
  | .dly => holds s h kCh n
  | .frc => holds s h kLoop (n / 256)
  | _ => ownerOrService s h

/-- Write one entry. -/
def putEntry (s : State) (t : TableId) (n : Nat) (b : List Byte) : State :=
  match t with
  | .dly =>
    let old := leAt (tget s .dly n) 24 4
    let s := dlyWrite s n b
    if leAt (tget s .dly n) 24 4 ≠ old then refreshCfg s n else s
  | .ttm => tput s .ttm n (ttmMerge n (tget s .ttm n) b)
  | _ => tput s t n b

/-- The entries of a write: number and bytes. -/
def writeEntries (t : TableId) (p : List Byte) : List (Nat × List Byte) :=
  (List.range (reqCount p)).map fun k => (reqFirst p + k, (p.drop (12 + tableSize t * k)).take (tableSize t))

/-- What stands against the entries of a write: the first failure, entry by entry (R390). -/
def entriesStatus (s : State) (h : Nat) (t : TableId) (p : List Byte) : Nat :=
  let bad := (writeEntries t p).findSome? fun e =>
    if e.1 < tableCount t ∧ !mayWriteEntry s h t e.1 then some stLease
    else if tableCount t ≤ e.1 ∨ !entryOk s t e.1 e.2 then some stInvalid
    else none
  match bad with
  | some st => st
  | none => if tableReqOk (.stored t) p then stOk else stInvalid

/-- A write of TTM also keeps the relations of the matrix (R369); PLY is not written while a pass runs (R139). -/
def tableRule (s : State) (t : TableId) : Nat :=
  if t = .ttm ∧ !ttmTableOk s then stInvalid
  else if t = .ply ∧ flag s MAP_PLY_STAT_BUSY then stWrong
  else stOk

/-- Whether a slot's role permits it to write tables at all. -/
def tableRole (s : State) (h : Nat) (t : TableId) : Bool :=
  match t with
  | .dly => decide (roleOf s h ≠ 2)
  | .frc => decide (roleOf s h ≠ 2)
  | _ => ownerOrService s h

/-- TABLE_WRITE: checked in whole, and in force at one boundary. -/
def tableWrite (s : State) (h : Nat) (p : List Byte) : Reply :=
  match reqTable p with
  | none => if roleOf s h = 2 then refuse s stLease else refuse s stUnknownIndex
  | some (.stored t) =>
    if !tableRole s h t then refuse s stLease
    else
      let st := entriesStatus s h t p
      if st ≠ stOk then refuse s st
      else
        let s' := (writeEntries t p).foldl (fun s e => putEntry s t e.1 e.2) s
        let st := tableRule s' t
        if st ≠ stOk then refuse s st
        else okBody (if t = .ttm then ttmEffect s' else s') (p.take 12)
  | some _ => if roleOf s h = 2 then refuse s stLease else refuse s stInvalid

def execTableWrite (h : Nat) (s : State) : Host.Outcome State Fault Refusal := row h (runPlain s h 0x0B fun s p => tableWrite s h p)

/-! ### Leases (R398, R399, R408) -/

def execLease (h : Nat) (s : State) : Host.Outcome State Fault Refusal := row h (runPlain s h 0x0C fun s p => leaseCmd s h p)

def execRelease (h : Nat) (s : State) : Host.Outcome State Fault Refusal := row h (runPlain s h 0x0D fun s p => releaseCmd s h p)

/-! ### Events (R98 to R101) -/

/-- What stands against a descriptor (R98, R99). -/
def postRefusal (s : State) (h : Nat) (p : PostDesc) : Option Nat :=
  let q := effRequest s p.d.ch
  if !holds s h kCh p.d.ch then some stLease
  else if !p.ok then some stInvalid
  else if !flag s SCH_CTRL_EN || !(decide (q = rqAuto) || decide (q = rqTest)) then some stWrong
  else none

/-- EVENT_POST (R96, R98, R99). -/
def eventPost (s : State) (h : Nat) (p : List Byte) : Reply :=
  let l := (List.range (leAt p 0 2)).map fun k => postDesc h ((p.drop (4 + 16 * k)).take 16)
  if roleOf s h = 2 then refuse s stLease
  else match l.findSome? (postRefusal s h) with
    | some st => refuse s st
    | none =>
      if leAt p 2 2 ≠ 0 then refuse s stInvalid
      else match acceptAll s l [] with
        | some r => okBody r.1 (leBytes 2 l.length ++ leBytes 2 0 ++ r.2.flatMap (leBytes 4))
        | none => refuse (bump s SCH_CNT_POOLFULL_CNT) stPoolFull

def execEventPost (h : Nat) (s : State) : Host.Outcome State Fault Refusal := row h (runPlain s h 0x10 fun s p => eventPost s h p)

/-- Cancel by handle (R100, R101). -/
def cancelHandle (s : State) (h v : Nat) : State × Nat :=
  let i := v % 1024
  let e := slotAt s i
  if e.state = stFree ∨ e.gen ≠ v / 1024 then (s, rcStale)
  else if !(decide (e.d.origin = 1 ∧ e.d.host = h) || holds s h kCh e.d.ch) then (s, rcNotOwn)
  else if isTerminal e.state && e.d.retain then (freeSlot s i, rcReleased)
  else cancelSlot s i (nowTick s + slotsPerStep) (nowTick s + 2 * slotsPerStep)

/-- Cancel on channels: the host's own events, and with ALL_ORIGIN map events too; answers how many were affected, and a code for them
together: INVERSE where an edge fires, else CXL_SENT where a command is withdrawn on the ring, else CANCELLED. R100 gives one code to
an item with several events without saying which (DESIGN CHOICE, log entry 51). -/
def cancelChannels (s : State) (h : Nat) (all : Bool) (l : List Nat) : State × Nat × Nat :=
  let hit := slotsWhere s fun e => !isTerminal e.state && decide (e.state ≠ stIssued) && !e.f.cxl && l.contains e.d.ch
    && (decide (e.d.origin = 1 ∧ e.d.host = h) || (all && decide (e.d.origin = 0)))
  let r := hit.foldl (fun (p : State × Nat) i =>
    let q := cancelSlot p.1 i (nowTick s + slotsPerStep) (nowTick s + 2 * slotsPerStep)
    (q.1, max p.2 q.2)) (s, rcCancelled)
  (r.1, r.2, hit.length)

/-- The channels that an item of a scope names. -/
def cancelTargets (s : State) (scope v : Nat) : List Nat :=
  if scope = 1 then [v] else (usedChannels s).filter fun c => decide (chSection s c = v)

/-- One item: its result word. -/
def cancelItem (s : State) (h scope : Nat) (all : Bool) (v : Nat) : State × Nat :=
  if scope = 0 then cancelHandle s h v
  else
    let r := cancelChannels s h all (cancelTargets s scope v)
    (r.1, r.2.1 + 16 * r.2.2)

/-- The items in order. -/
def cancelItems (h scope : Nat) (all : Bool) : State → List Nat → State × List Nat
  | s, [] => (s, [])
  | s, v :: l =>
    let r := cancelItem s h scope all v
    let q := cancelItems h scope all r.1 l
    (q.1, r.2 :: q.2)

/-- EVENT_CANCEL (R100). -/
def eventCancel (s : State) (h : Nat) (p : List Byte) : Reply :=
  let scope := leAt p 0 1
  let all := decide (leAt p 1 1 % 2 = 1)
  let l := (List.range (leAt p 2 2)).map fun k => leAt p (4 + 4 * k) 4
  let lim := if scope = 0 then 2 ^ 18 else if scope = 1 then 512 else 64
  let bad := l.findSome? fun v =>
    if 0 < scope ∧ scope < 3 ∧ all ∧ v < lim ∧ !(cancelTargets s scope v).all (holds s h kCh) then some stLease
    else if lim ≤ v then some stInvalid
    else none
  if roleOf s h = 2 then refuse s stLease
  else match bad with
    | some st => refuse s st
    | none =>
      if 3 ≤ scope ∨ 2 ≤ leAt p 1 1 then refuse s stInvalid
      else
        let r := cancelItems h scope all s l
        okBody r.1 (p.take 4 ++ r.2.flatMap (leBytes 4))

def execEventCancel (h : Nat) (s : State) : Host.Outcome State Fault Refusal := row h (runPlain s h 0x11 fun s p => eventCancel s h p)

/-! ### The map (R143, R144) -/

def execTileRead (h : Nat) (s : State) : Host.Outcome State Fault Refusal :=
  row h (runPlain s h 0x18 fun s p =>
    if tileReadOk p then okBody (fetchTile s (leAt p 0 2) (leAt p 2 2)) (tileRead s (leAt p 0 2) (leAt p 2 2) (leAt p 4 1)) else refuse s stInvalid)

/-- TILE_WRITE. -/
def tileWriteCmd (s : State) (h : Nat) (p : List Byte) : Reply :=
  if !ownerOrService s h then refuse s stLease
  else if !tileWriteOk p then refuse s stInvalid
  else if flag s MAP_PLY_STAT_BUSY then refuse s stWrong
  else
    let r := tileWrite s p
    okBody r.1 r.2

def execTileWrite (h : Nat) (s : State) : Host.Outcome State Fault Refusal := row h (runPlain s h 0x19 fun s p => tileWriteCmd s h p)

/-! ### GNSS (R313, R316, R320) -/

/-- GNS_MEAS_READ. -/
def measCmd (s : State) (p : List Byte) : Reply :=
  if 120 < leAt p 6 2 then refuse s stInvalid
  else
    let r := measRead s (leAt p 0 4) (leAt p 4 2) (leAt p 6 2)
    okBody r.1 r.2

def execGnsMeasRead (h : Nat) (s : State) : Host.Outcome State Fault Refusal := row h (runPlain s h 0x20 fun s p => measCmd s p)

def execGnsNavRead (h : Nat) (s : State) : Host.Outcome State Fault Refusal :=
  row h (runPlain s h 0x21 fun s p => okBody s (navRead s (leAt p 0 4) (leAt p 4 1)))

def execRtcmWrite (h : Nat) (s : State) : Host.Outcome State Fault Refusal :=
  row h (runPlain s h 0x22 fun s p => okBody (rtcmFeed s h p) [])

/-! ### CAN (R363 to R365) -/

def execCanSend (h : Nat) (s : State) : Host.Outcome State Fault Refusal := row h (runPlain s h 0x28 fun s p => canSend s h p)

def execCanRecv (h : Nat) (s : State) : Host.Outcome State Fault Refusal := row h (runPlain s h 0x29 fun s p => canRecv s h p)

def execCanAbort (h : Nat) (s : State) : Host.Outcome State Fault Refusal := row h (runPlain s h 0x2A fun s p => canAbort s h p)

/-! ### The recorder (R418 to R422) -/

def execRecRead (h : Nat) (s : State) : Host.Outcome State Fault Refusal :=
  row h (runPlain s h 0x30 fun s p =>
    if roleOf s h = 1 then refuse s stLease
    else if 16383 < leAt p 0 2 then refuse s stInvalid
    else if !inService s then refuse s stWrong
    else okBody s (recReadBody s (leAt p 0 2) (leAt p 2 2)))

/-- REC_FREEZE. -/
def freezeCmd (s : State) (h : Nat) (p : List Byte) : Reply :=
  let op := leAt p 0 1
  let body := fun (s : State) => okBody s (leBytes 1 (bit s.recd.freeze.isSome 0) ++ [0#8] ++ leBytes 2 s.recd.next)
  if !ownerOrService s h then refuse s stLease
  else if 1 < op ∨ leAt p 1 3 ≠ 0 then refuse s stInvalid
  else if !inService s then refuse s stWrong
  else if op = 0 then body (releaseFreeze s h)
  else match s.recd.freeze with
    | none => body (freezeLog s h)
    | some g => if g = h then body s else refuse s stWrong

def execRecFreeze (h : Nat) (s : State) : Host.Outcome State Fault Refusal := row h (runPlain s h 0x31 fun s p => freezeCmd s h p)

/-- REC_CHALLENGE: the nonce comes from the device's random source. -/
def challengeCmd (s : State) (h : Nat) : Reply :=
  if !ownerOrService s h then refuse s stLease
  else if !inService s || s.recd.key.isNone || s.recd.lock then refuse s stWrong
  else
    let f := fresh s
    let n := (List.range 16).map fun k => Config.randomByte f.1 k
    let s := modRec f.2 fun r => { r with nonce := some (h, n), nonceAt := absTick s (nowTick s) }
    okBody s (n ++ leBytes 2 s.recd.next)

def execRecChallenge (h : Nat) (s : State) : Host.Outcome State Fault Refusal := row h (runPlain s h 0x32 fun s _ => challengeCmd s h)

/-- REC_CLEAR: the response follows the clear (R422). -/
def clearCmd (s : State) (h : Nat) (p : List Byte) : CmdOut :=
  if !ownerOrService s h then plain (refuse s stLease)
  else if !inService s then plain (refuse s stWrong)
  else if macOk s h [] p then { r := okBody (startClearLog s h) [], wait := some 2, silent := false }
  else plain (refuse (authFail s h) stAuth)

def execRecClear (h : Nat) (s : State) : Host.Outcome State Fault Refusal :=
  row h (runCmd s h (isCode 0x33) fun s p => clearCmd s h p)

/-- CLEAR_DONE (R422). -/
def clearLogDone (s : State) : State := match s.recd.clearing with
  | some c => postDeferred (finishClear s c) 2
  | none => s

def execClearDone (s : State) : Host.Outcome State Fault Refusal := .next (clearLogDone s)

/-! ### Firmware, configuration and reset (R459 to R468) -/

def execFwInfo (h : Nat) (s : State) : Host.Outcome State Fault Refusal := row h (runPlain s h 0x38 fun s _ => fwInfo s h)

def execFwBegin (h : Nat) (s : State) : Host.Outcome State Fault Refusal :=
  row h (runCmd s h (isCode 0x39) fun s p => { r := fwBegin s h p, wait := some 3, silent := false })

/-- FW_ERASE_DONE: the slot is erased, and the response is posted (R459). -/
def eraseDone (s : State) : State := match s.boot.update with
  | some u => if u.erasing then postDeferred (modBoot s fun b => { b with update := some { u with erasing := false } }) 3 else s
  | none => s

def execFwEraseDone (s : State) : Host.Outcome State Fault Refusal := .next (eraseDone s)

def execFwData (h : Nat) (s : State) : Host.Outcome State Fault Refusal := row h (runPlain s h 0x3A fun s p => fwData s h p)

/-- FW_END; `x`: what the image's header and its signature say. -/
def execFwEnd (h : Nat) (x : ImageHead) (s : State) : Host.Outcome State Fault Refusal := row h (runPlain s h 0x3B fun s _ => fwEnd s h x)

def execFwActivate (h : Nat) (s : State) : Host.Outcome State Fault Refusal :=
  row h (runCmd s h (isCode 0x3C) fun s p => { r := fwActivate s h p, wait := none, silent := true })

def execFwCommit (h : Nat) (s : State) : Host.Outcome State Fault Refusal := row h (runPlain s h 0x3D fun s _ => fwCommit s h)

/-- A CFG frame with an operation. -/
def isCfg (p : Nat → Bool) (f : Frame) : Bool := decide (f.code = 0x3E) && p (leAt f.payload 0 1)

/-- CFG SAVE; a frame with a reserved operation is refused here (R466). -/
def execCfgSave (h : Nat) (s : State) : Host.Outcome State Fault Refusal :=
  row h (runCmd s h (isCfg fun op => decide (op ≠ 1 ∧ op ≠ 2)) fun s p =>
    { r := if leAt p 0 1 = 0 ∨ !ownerOrService s h then cfgSave s h p else refuse s stInvalid, wait := some 4, silent := false })

/-- CFG_SAVE_DONE: the bank is written, and the response is posted (R466). -/
def execCfgSaveDone (s : State) : Host.Outcome State Fault Refusal :=
  .next (if s.boot.saving.isSome then postDeferred (saveDone s) 4 else s)

def execCfgErase (h : Nat) (s : State) : Host.Outcome State Fault Refusal :=
  row h (runCmd s h (isCfg fun op => decide (op = 1)) fun s p => plain (cfgErase s h p))

def execKeySet (h : Nat) (s : State) : Host.Outcome State Fault Refusal :=
  row h (runCmd s h (isCfg fun op => decide (op = 2)) fun s p => plain (keySet s h p))

def execSysReset (h : Nat) (s : State) : Host.Outcome State Fault Refusal :=
  row h (runCmd s h (isCode 0x3F) fun s p => { r := sysReset s h p, wait := none, silent := true })

/-! ### Ends of map clears (R146) -/

/-- MAP_CLEAR_DONE: the clear is complete, and the response is posted. -/
def execMapClearDone (s : State) : Host.Outcome State Fault Refusal :=
  .next (if s.map.clear.isSome then postDeferred (clearDone s) 0 else s)

end Sys2Proof.Machine
end

