-- ==== Sys2Proof/Machine/Rows.lean ====
section
/-!
DEFINITION. Sys2Proof/Machine/Rows.lean: the commands that are a host's write of one register. Each is the same checked
write that PARAM_WRITE makes (R406), by slot `h`, and comes into force at the coming boundary; refused, it changes nothing.
-/
namespace Sys2Proof.Machine

/-- A host's write of registers as the frame it is. -/
def rowFrame (s : State) (l : List WItem) : Frame :=
  { code := 0x09, ordered := false, htag := 0, payload := writePayload l, seq := s.hif.accepted, reject := 0 }

/-- The write may start now: no earlier command of its host or to its target holds it back (R40, R42, R43), and no clear of the map
does (R146). -/
def rowStarts (s : State) (h : Nat) (l : List WItem) : Bool :=
  let f := rowFrame s l
  (slotOf s h).ring.all (mayPass s h f) && !clearWaits s f && !targetHeld s h f && firstInOrder s h (frameBlocks f) f.seq

/-- A write that may not start waits in the slot's ring as a PARAM_WRITE; without room there it is refused (R389). -/
def queueRow (s : State) (h : Nat) (l : List WItem) : State :=
  let x : Header := { len := 4 + 12 * l.length, code := 0x09, flags := 0, ackseq := 0, htag := 0, bad := false }
  if reqUsed (slotOf s h) + frameSize x.len ≤ ringBytes then putFrame s h x (writePayload l) 0 else rejectFrame s h x (writePayload l) stLength

/-- Register items written by an attached slot while the firmware serves: the state after, and whether they came into force. Refused,
they change nothing. -/
def hostItems (s : State) (h : Nat) (l : List WItem) : State × Bool :=
  if attached s h && decide (s.sys.phase = .up) then
    if rowStarts s h l then
      let r := writeItems { s with sys := { s.sys with atBoundary := true } } h l
      if r.2.isNone then
        (modSlot { r.1 with sys := { r.1.sys with atBoundary := false } } h fun x => { x with ranIn := some s.now }, true)
      else (s, false)
    else (queueRow s h l, false)
  else (s, false)

/-- One item. -/
def item (i : Nat) (mask v : Word) : WItem := { idx := i, mask := mask, value := v, resv := false }

/-- A field as a mask and a value in place. -/
def fieldItem (f : Field) (v : Nat) : WItem :=
  item f.reg (bitMask f.hi f.lo) (BitVec.ofNat 32 (v % 2 ^ f.width * 2 ^ f.lo))

/-- Write one field. -/
def hostField (s : State) (h : Nat) (f : Field) (v : Nat) : State := (hostItems s h [fieldItem f v]).1

/-- Write a flag. -/
def hostFlag (s : State) (h : Nat) (f : Field) (b : Bool) : State := hostField s h f (bit b 0)

/-- The answer of a row that names instances of the part. -/
def rowOf (h : Nat) (ok : Bool) (s : State) : Host.Outcome State Fault Refusal := answer (decide (h < 4) && ok) s

/-! ### DRV -/

def execDrvEn (h : Nat) (en : Bool) (s : State) : Host.Outcome State Fault Refusal := rowOf h true (hostFlag s h DRV_CTRL_EN en)

def execGroupEn (h g : Nat) (en : Bool) (s : State) : Host.Outcome State Fault Refusal :=
  rowOf h (decide (g < 8)) (hostFlag s h (DRV_GRP_CTRL_EN g) en)

def execResume (h c : Nat) (s : State) : Host.Outcome State Fault Refusal :=
  rowOf h (decide (c < 32)) (hostFlag s h (DRV_CH_MODE_RESUME c) true)

def execResumeAll (h : Nat) (s : State) : Host.Outcome State Fault Refusal := rowOf h true (hostFlag s h DRV_CTRL_RESUME_ALL true)

def execDrvModeWrite (h c mode : Nat) (s : State) : Host.Outcome State Fault Refusal :=
  rowOf h (decide (c < 32 ∧ mode < 4)) (hostField s h (DRV_CH_MODE_MODE c) mode)

def execPairWrite (h c : Nat) (pair : Bool) (s : State) : Host.Outcome State Fault Refusal :=
  rowOf h (decide (c < 32)) (hostFlag s h (DRV_CH_MODE_PAIR c) pair)

/-- The flags of a channel, or of a group where `grp`. -/
def execProtectionFlagClear (h : Nat) (grp : Bool) (n : Nat) (flags : Word) (s : State) : Host.Outcome State Fault Refusal :=
  rowOf h (decide (n < if grp then 8 else 32))
    (hostItems s h [item (if grp then DRV_GRP_FLT n else DRV_CH_FLT n) flags flags]).1

/-! ### FJL -/

def execFjlEn (h r : Nat) (en : Bool) (s : State) : Host.Outcome State Fault Refusal :=
  rowOf h (decide (r < 2)) (hostFlag s h (FJL_CTRL_EN r) en)

def execHeal (h r : Nat) (s : State) : Host.Outcome State Fault Refusal := rowOf h (decide (r < 2)) (hostFlag s h (FJL_CTRL_HEAL r) true)

def execFjlResumeAll (h r : Nat) (s : State) : Host.Outcome State Fault Refusal :=
  rowOf h (decide (r < 2)) (hostFlag s h (FJL_CTRL_RESUME_ALL r) true)

def execRingSafeWrite (h r : Nat) (safe : Bool) (s : State) : Host.Outcome State Fault Refusal :=
  rowOf h (decide (r < 2)) (hostFlag s h (FJL_CTRL_SAFE r) safe)

def execNodeResume (h r n : Nat) (s : State) : Host.Outcome State Fault Refusal :=
  rowOf h (decide (r < 2 ∧ n < 30)) (hostFlag s h (FJL_NODE_CTRL_RESUME r n) true)

def execNodeClrFlt (h r n : Nat) (s : State) : Host.Outcome State Fault Refusal :=
  rowOf h (decide (r < 2 ∧ n < 30)) (hostFlag s h (FJL_NODE_CTRL_CLR_FLT r n) true)

/-- GO for the channel that the slot's own FJL_CH_SEL of the ring names. -/
def execChApply (h r : Nat) (s : State) : Host.Outcome State Fault Refusal :=
  rowOf h (decide (r < 2)) (hostFlag s h (FJL_CH_APPLY_GO r) true)

/-! ### CLE -/

def execLoopModeWrite (h n mode : Nat) (s : State) : Host.Outcome State Fault Refusal :=
  rowOf h (decide (n < 16 ∧ mode < 4)) (hostField s h (CLE_LP_CTRL_MODE n) mode)

def execCleEn (h : Nat) (en : Bool) (s : State) : Host.Outcome State Fault Refusal := rowOf h true (hostFlag s h CLE_CTRL_EN en)

/-- GO with the fields LOOP, POINT, TYPE and LOG of the same write. -/
def execInjGo (h : Nat) (setting : Nat) (s : State) : Host.Outcome State Fault Refusal :=
  rowOf h (decide (setting < 512)) (hostItems s h [item CLE_INJ_CTRL 0x3FF#32 (BitVec.ofNat 32 (setting + 512))]).1

def execInjStop (h : Nat) (s : State) : Host.Outcome State Fault Refusal := rowOf h true (hostFlag s h CLE_INJ_CTRL_STOP true)

/-- ARM with the fields LOOP, NSIG and TRIG of the same write. -/
def execCapArm (h : Nat) (setting : Nat) (s : State) : Host.Outcome State Fault Refusal :=
  rowOf h (decide (setting < 2048)) (hostItems s h [item CLE_CAP_CTRL 0x17FF#32 (BitVec.ofNat 32 (setting + 4096))]).1

def execCapAbort (h : Nat) (s : State) : Host.Outcome State Fault Refusal := rowOf h true (hostFlag s h CLE_CAP_CTRL_ABORT true)

/-! ### PWM -/

/-- A host's write of a shadow register of a group: PRD (2), DT and MIN (3), or CMP of pair `off` − 4. What a loop writes is part
of LOOP_OUTPUT (R244). -/
def execShadowWrite (h g off : Nat) (mask v : Word) (s : State) : Host.Outcome State Fault Refusal :=
  rowOf h (decide (g < 8) && inRange 2 6 off) (hostItems s h [item (PWM_GRP_CTRL g + off) mask v]).1

def execPwmLoadall (h groups : Nat) (s : State) : Host.Outcome State Fault Refusal :=
  rowOf h (decide (groups < 256)) (hostItems s h [item PWM_LOADALL 0xFF#32 (BitVec.ofNat 32 groups)]).1

def execPwmStart (h g : Nat) (en : Bool) (s : State) : Host.Outcome State Fault Refusal :=
  rowOf h (decide (g < 8)) (hostFlag s h (PWM_GRP_CTRL_EN g) en)

def execTripClear (h g trips : Nat) (s : State) : Host.Outcome State Fault Refusal :=
  rowOf h (decide (g < 8 ∧ trips < 4)) (hostItems s h [item (PWM_GRP_FLT g) 3#32 (BitVec.ofNat 32 trips)]).1

def execPwmResume (h g : Nat) (s : State) : Host.Outcome State Fault Refusal :=
  rowOf h (decide (g < 8)) (hostFlag s h (PWM_GRP_CTRL_RESUME g) true)

/-! ### ENC and SNS -/

def execPortModeWrite (h p mode : Nat) (s : State) : Host.Outcome State Fault Refusal :=
  rowOf h (regAssigned (ENC_PT_CFG p) && decide (p < 8 ∧ mode < 4)) (hostField s h (ENC_PT_CFG_MODE p) mode)

def execPortFaultClear (h p flags : Nat) (s : State) : Host.Outcome State Fault Refusal :=
  rowOf h (regAssigned (ENC_PT_FLT p) && decide (p < 8 ∧ flags < 16)) (hostItems s h [item (ENC_PT_FLT p) 0xF#32 (BitVec.ofNat 32 flags)]).1

/-- One register of the IMU is written. -/
def execImuXferWrite (h addr data : Nat) (s : State) : Host.Outcome State Fault Refusal :=
  rowOf h (decide (addr < 256 ∧ data < 256)) (hostItems s h [item SNS_IMU_XFER 0x1FFFF#32 (BitVec.ofNat 32 (addr + data * 256 + 65536))]).1

/-- One register of the IMU is read; `back`: what the IMU sends. -/
def execImuXferRead (h addr back : Nat) (s : State) : Host.Outcome State Fault Refusal :=
  let r := hostItems s h [item SNS_IMU_XFER 0x200FF#32 (BitVec.ofNat 32 (addr + 131072))]
  rowOf h (decide (addr < 256 ∧ back < 256)) (if r.2 then imuRead r.1 back else r.1)

/-! ### GNS -/

def execGnsRst (h : Nat) (s : State) : Host.Outcome State Fault Refusal := rowOf h true (hostFlag s h GNS_CTRL_RST true)

/-- GNS_SLOT_CFG of the slot that the writer's GNS_SLOT_SEL names. -/
def execSlotPin (h : Nat) (v : Word) (s : State) : Host.Outcome State Fault Refusal :=
  rowOf h true (hostItems s h [item GNS_SLOT_CFG 0xFFFFFFFF#32 v]).1

/-! ### TIM -/

def execTbSnap (h : Nat) (s : State) : Host.Outcome State Fault Refusal := rowOf h true (hostFlag s h ⟨TIM_CTRL, 0, 0⟩ true)

/-- ADJ of a time base (1 STEP, 2 SLEW, 3 SET) written with its adjustment value, in one command (R325). -/
def tbItems (n action : Nat) (atSec : Bool) (adj : BitVec 64) : List WItem :=
  [item (TIM_TB_ADJ_LO n) 0xFFFFFFFF#32 (adj.setWidth 32), item (TIM_TB_ADJ_HI n) 0xFFFFFFFF#32 ((adj >>> 32).setWidth 32),
    item (TIM_TB_CTRL n) 0x700#32 (BitVec.ofNat 32 (action * 256 + bit atSec 10))]

/-- Adjust a time base. -/
def tbAdjust (s : State) (h n action : Nat) (atSec : Bool) (adj : BitVec 64) : State := (hostItems s h (tbItems n action atSec adj)).1

def execTbSet (h n : Nat) (adj : BitVec 64) (s : State) : Host.Outcome State Fault Refusal :=
  rowOf h (decide (n < 4)) (tbAdjust s h n 3 false adj)

def execTbStep (h n : Nat) (atSec : Bool) (adj : BitVec 64) (s : State) : Host.Outcome State Fault Refusal :=
  rowOf h (decide (n < 4)) (tbAdjust s h n 1 atSec adj)

def execTbSlew (h n : Nat) (adj : BitVec 64) (s : State) : Host.Outcome State Fault Refusal :=
  rowOf h (decide (n < 4)) (tbAdjust s h n 2 false adj)

/-! ### ETH -/

def execInsert (h : Nat) (s : State) : Host.Outcome State Fault Refusal := rowOf h true (hostFlag s h ETH_BYP_CTRL_INSERT true)

def execBypass (h : Nat) (s : State) : Host.Outcome State Fault Refusal := rowOf h true (hostFlag s h ETH_BYP_CTRL_BYPASS true)

def execRelayFaultClear (h : Nat) (s : State) : Host.Outcome State Fault Refusal := rowOf h true (hostFlag s h ETH_BYP_STAT_FLT true)

/-! ### CAN -/

def execCanEn (h x : Nat) (en : Bool) (s : State) : Host.Outcome State Fault Refusal :=
  rowOf h (decide (x < 4)) (hostFlag s h (CAN_CTRL_EN x) en)

def execRecover (h x : Nat) (s : State) : Host.Outcome State Fault Refusal :=
  rowOf h (decide (x < 4)) (hostFlag s h (CAN_CTRL_RECOVER x) true)

/-! ### MON and CLK -/

/-- MON_CTRL.AVS, or MON_AVS_SET.MV where `set`. -/
def execAvsModeWrite (h : Nat) (set : Bool) (v : Nat) (s : State) : Host.Outcome State Fault Refusal :=
  rowOf h (decide (v < if set then 1024 else 4)) (if set then hostField s h MON_AVS_SET_MV v else hostField s h MON_CTRL_AVS v)

def execBlockReset (h : Nat) (v : Word) (s : State) : Host.Outcome State Fault Refusal :=
  rowOf h true (hostItems s h [item CLK_BRST 0x000F07FF#32 v]).1

/-! ### State words, KIN, MAP, SCH, ACT -/

/-- The state word of an implement, zone, section or channel (R27). -/
def execStateWordWrite (h kind n : Nat) (v : Word) (s : State) : Host.Outcome State Fault Refusal :=
  rowOf h (decide (kind < 4 ∧ n < kindSize kind)) (hostItems s h [item (stateWord kind n) 0xFFFFFFFF#32 v]).1

def execKinEn (h : Nat) (en : Bool) (s : State) : Host.Outcome State Fault Refusal := rowOf h true (hostFlag s h KIN_CTRL_EN en)

def execSchEn (h : Nat) (en : Bool) (s : State) : Host.Outcome State Fault Refusal := rowOf h true (hostFlag s h SCH_CTRL_EN en)

def execMapEn (h : Nat) (en : Bool) (s : State) : Host.Outcome State Fault Refusal := rowOf h true (hostFlag s h MAP_CTRL_EN en)

def execKinChSel (h : Nat) (v : Word) (s : State) : Host.Outcome State Fault Refusal :=
  rowOf h true (hostItems s h [item KIN_CH_SEL 0xFFFFFFFF#32 v]).1

def execSchSlotSel (h : Nat) (v : Word) (s : State) : Host.Outcome State Fault Refusal :=
  rowOf h true (hostItems s h [item SCH_SLOT_SEL 0xFFFFFFFF#32 v]).1

def execSchChSel (h : Nat) (v : Word) (s : State) : Host.Outcome State Fault Refusal :=
  rowOf h true (hostItems s h [item SCH_CH_SEL 0xFFFFFFFF#32 v]).1

def execMapChSel (h : Nat) (v : Word) (s : State) : Host.Outcome State Fault Refusal :=
  rowOf h true (hostItems s h [item MAP_CH_SEL 0xFFFFFFFF#32 v]).1

def execActChSel (h : Nat) (v : Word) (s : State) : Host.Outcome State Fault Refusal :=
  rowOf h true (hostItems s h [item ACT_CH_SEL 0xFFFFFFFF#32 v]).1

def execGnsSlotSel (h : Nat) (v : Word) (s : State) : Host.Outcome State Fault Refusal :=
  rowOf h true (hostItems s h [item GNS_SLOT_SEL 0xFFFFFFFF#32 v]).1

/-- The flags of the channel that the slot's own ACT_CH_SEL names. -/
def execAlarmFlagClear (h flags : Nat) (s : State) : Host.Outcome State Fault Refusal :=
  rowOf h (decide (flags < 128)) (hostItems s h [item ACT_CH_ALM 0x7F#32 (BitVec.ofNat 32 flags)]).1

def execClrCov (h : Nat) (s : State) : Host.Outcome State Fault Refusal := rowOf h true (hostFlag s h MAP_CLR_COV true)

def execClrExc (h : Nat) (s : State) : Host.Outcome State Fault Refusal := rowOf h true (hostFlag s h MAP_CLR_EXC true)

def execClrZone (h : Nat) (s : State) : Host.Outcome State Fault Refusal := rowOf h true (hostFlag s h MAP_CLR_ZONE true)

def execClrAll (h : Nat) (s : State) : Host.Outcome State Fault Refusal := rowOf h true (hostFlag s h MAP_CLR_ALL true)

/-- GO: while a clear of the map runs it waits, and runs once the clear is complete (R146). -/
def execRasterGo (h : Nat) (s : State) : Host.Outcome State Fault Refusal := rowOf h true (hostFlag s h MAP_PLY_CTRL_GO true)

end Sys2Proof.Machine
end

