-- ==== Sys2Proof/Machine/Kstep.lean ====
section
/-!
DEFINITION. Sys2Proof/Machine/Kstep.lean: the kinematic step (R19): what falls due at a step boundary, in the order in which
the data path takes it, and the phases of the step.
-/
namespace Sys2Proof.Machine

/-! ### The task controller (R386) -/

/-- The setpoint of a zone becomes the mantissa of its loop: SETPOINT × SCALE in 2^−8, rounded to the nearest. A product outside
the mantissa has no stated value: it is free. -/
def tcSetpoint (s : State) (h z v : Nat) : State :=
  let n := getF s (HIF_ISO_ZMAP_LOOP z)
  if flag s (HIF_ISO_ZMAP_EN z) && holds s h kLoop n then
    let m := (v * getF s (HIF_ISO_ZMAP_SCALE z) + 128) / 256
    let p := if m < 32768 then (m, s) else
      let f := fresh s
      ((Config.freeWord f.1).toNat % 65536, f.2)
    (writeItems p.2 h [item (CLE_LP_SP n) 0x0000FFFF#32 (BitVec.ofNat 32 p.1)]).1
  else s

/-- What the task controller asked for since the last boundary comes into force. -/
def tcValue (s : State) (v : TcValue) : State := match isoSlot s with
  | none => s
  | some h =>
    if !attached s h then s
    else match v with
      | .sec k on =>
        if k < getF s HIF_ISO_CFG_NSEC then (writeItems s h [item (SYS_SEC_STATE k) 7#32 (if on then 1#32 else 0#32)]).1 else s
      | .rate z x => tcSetpoint s h z x

/-! ### The recorder's limits (R417, R421, R422) -/

/-- Limits of time that are overdue at a boundary. -/
def recBoundary (s : State) : State :=
  let t := absTick s (nowTick s)
  nonceExpiry (lockoutEnd (freezeTimeout s t) t) t

/-! ### The step (R19) -/

/-- Commands of the task controller come into force as every management change does: at the boundary of the coming step. -/
def stepCommands (s : State) (tc : List TcValue) : State :=
  let s := { s with sys := { s.sys with atBoundary := true } }
  let s := tc.foldl tcValue s
  { s with sys := { s.sys with atBoundary := false } }

/-- The boundary is passed: SYS_STEP_CNT counts. -/
def passBoundary (s : State) : State :=
  { s with now := s.now + 1, recd := { s.recd with fracSteps := s.recd.fracSteps + 1 } }

/-- Phase 1: inputs are latched and everything that falls due at the boundary is taken. -/
def boundaryPhase (s : State) (pins : List TripPin) : State :=
  let s := crossBoundary (pins.foldl tripPin (brstRelease s))
  let s := cleBoundary (encBoundary (originBoundary s))
  let s := schBoundary (actBoundary s)
  let s := fjlBoundary (drvBoundary s)
  let s := canBoundary (ethBoundary (timBoundary s))
  recBoundary (monBoundary (hifBoundary s))

/-- Phases 2 to 5: KIN, MAP and SCH. -/
def kinematicPhases (s : State) : State := schStep (mapStep (kinStep s))

/-- A kinematic step; without a running data path no step boundary comes (R449). -/
def kinematicStep (s : State) (pins : List TripPin) (tc : List TcValue) : State :=
  if s.sys.running then kinematicPhases (rollUp (boundaryPhase (passBoundary (stepCommands s tc)) pins)) else s

/-- A value of the task controller names a section or zone of the part. -/
def tcOk : TcValue → Bool
  | .sec k _ => decide (k < 64)
  | .rate z x => decide (z < 8 ∧ x < 2 ^ 32)

def execKinematicStep (pins : List TripPin) (tc : List TcValue) (s : State) : Host.Outcome State Fault Refusal :=
  answer (pins.all tripPinOk && tc.all tcOk) (kinematicStep s pins tc)

end Sys2Proof.Machine
end

