-- ==== Sys2Proof/Machine/Dispatch.lean ====
section
/-!
DEFINITION. Sys2Proof/Machine/Dispatch.lean: every command and its meaning, in the order of spec/opcode_table.json.
-/
namespace Sys2Proof.Machine

def exec (i : Instr) (s : State) : Host.Outcome State Fault Refusal :=
  match i with
  | .powerUp bootSelLow => Sys2Proof.Machine.execPowerUp bootSelLow s
  | .resetN t ns => Sys2Proof.Machine.execResetN t ns s
  | .brownOut v t => Sys2Proof.Machine.execBrownOut v t s
  | .brownOutRelease t => Sys2Proof.Machine.execBrownOutRelease t s
  | .thermalShutdown j t => Sys2Proof.Machine.execThermalShutdown j t s
  | .thermalShutdownRelease t => Sys2Proof.Machine.execThermalShutdownRelease t s
  | .vcoreOvervoltage v0 => Sys2Proof.Machine.execVcoreOvervoltage v0 s
  | .tcxoMissing t => Sys2Proof.Machine.execTcxoMissing t s
  | .tcxoPresent t => Sys2Proof.Machine.execTcxoPresent t s
  | .pllLock k t => Sys2Proof.Machine.execPllLock k t s
  | .pllUnlock k t => Sys2Proof.Machine.execPllUnlock k t s
  | .lockstepError t => Sys2Proof.Machine.execLockstepError t s
  | .heartbeatTimeout t => Sys2Proof.Machine.execHeartbeatTimeout t s
  | .firmwareRestart => Sys2Proof.Machine.execFirmwareRestart s
  | .imageVerified t => Sys2Proof.Machine.execImageVerified t s
  | .enableLoss a bn t => Sys2Proof.Machine.execEnableLoss a bn t s
  | .enableRestored => Sys2Proof.Machine.execEnableRestored s
  | .kinematicStep pins tc => Sys2Proof.Machine.execKinematicStep pins tc s
  | .retainTimeout j => Sys2Proof.Machine.execRetainTimeout j s
  | .confirmTimeout j => Sys2Proof.Machine.execConfirmTimeout j s
  | .mismatchSet c => Sys2Proof.Machine.execMismatchSet c s
  | .gnssLost => Sys2Proof.Machine.execGnssLost s
  | .standstill => Sys2Proof.Machine.execStandstill s
  | .hitchEncoderFail => Sys2Proof.Machine.execHitchEncoderFail s
  | .hitchEncoderReturn => Sys2Proof.Machine.execHitchEncoderReturn s
  | .drLimitPassed => Sys2Proof.Machine.execDrLimitPassed s
  | .edgeFire c => Sys2Proof.Machine.execEdgeFire c s
  | .peakCurrentReached c t t0 l => Sys2Proof.Machine.execPeakCurrentReached c t t0 l s
  | .peakEnd g => Sys2Proof.Machine.execPeakEnd g s
  | .gridRise c => Sys2Proof.Machine.execGridRise c s
  | .pulseFall c => Sys2Proof.Machine.execPulseFall c s
  | .sensedReleaseEnd c => Sys2Proof.Machine.execSensedReleaseEnd c s
  | .motionReport c t0 l => Sys2Proof.Machine.execMotionReport c t0 l s
  | .windowClose c t0 l => Sys2Proof.Machine.execWindowClose c t0 l s
  | .openLoadOn c t => Sys2Proof.Machine.execOpenLoadOn c t s
  | .openLoadOff c => Sys2Proof.Machine.execOpenLoadOff c s
  | .lsOvercurrent c t => Sys2Proof.Machine.execLsOvercurrent c t s
  | .shortToGround c t => Sys2Proof.Machine.execShortToGround c t s
  | .hsOvercurrent g t => Sys2Proof.Machine.execHsOvercurrent g t s
  | .chOvertemp c t => Sys2Proof.Machine.execChOvertemp c t s
  | .tempWarning c => Sys2Proof.Machine.execTempWarning c s
  | .hsOvertemp g t => Sys2Proof.Machine.execHsOvertemp g t s
  | .groupUndervoltage g t => Sys2Proof.Machine.execGroupUndervoltage g t s
  | .groupOvervoltage g t => Sys2Proof.Machine.execGroupOvervoltage g t s
  | .autoProtectionRelease grp n k => Sys2Proof.Machine.execAutoProtectionRelease grp n k s
  | .kettleTick l => Sys2Proof.Machine.execKettleTick l s
  | .kettleEvaluation t => Sys2Proof.Machine.execKettleEvaluation t s
  | .drvEn h en => Sys2Proof.Machine.execDrvEn h en s
  | .groupEn h g en => Sys2Proof.Machine.execGroupEn h g en s
  | .resume h c => Sys2Proof.Machine.execResume h c s
  | .resumeAll h => Sys2Proof.Machine.execResumeAll h s
  | .drvModeWrite h c mode => Sys2Proof.Machine.execDrvModeWrite h c mode s
  | .pairWrite h c pair => Sys2Proof.Machine.execPairWrite h c pair s
  | .protectionFlagClear h grp n flags => Sys2Proof.Machine.execProtectionFlagClear h grp n flags s
  | .ringCycle r b => Sys2Proof.Machine.execRingCycle r b s
  | .ringBreak r pos => Sys2Proof.Machine.execRingBreak r pos s
  | .reportAreaTimeout r n => Sys2Proof.Machine.execReportAreaTimeout r n s
  | .tagRelease r n t => Sys2Proof.Machine.execTagRelease r n t s
  | .fjlEn h r en => Sys2Proof.Machine.execFjlEn h r en s
  | .heal h r => Sys2Proof.Machine.execHeal h r s
  | .fjlResumeAll h r => Sys2Proof.Machine.execFjlResumeAll h r s
  | .ringSafeWrite h r safe => Sys2Proof.Machine.execRingSafeWrite h r safe s
  | .nodeResume h r n => Sys2Proof.Machine.execNodeResume h r n s
  | .nodeClrFlt h r n => Sys2Proof.Machine.execNodeClrFlt h r n s
  | .chApply h r => Sys2Proof.Machine.execChApply h r s
  | .loopSample n => Sys2Proof.Machine.execLoopSample n s
  | .loopOutput n => Sys2Proof.Machine.execLoopOutput n s
  | .saturationAlarm n => Sys2Proof.Machine.execSaturationAlarm n s
  | .loopModeWrite h n mode => Sys2Proof.Machine.execLoopModeWrite h n mode s
  | .cleEn h en => Sys2Proof.Machine.execCleEn h en s
  | .injGo h setting => Sys2Proof.Machine.execInjGo h setting s
  | .injStop h => Sys2Proof.Machine.execInjStop h s
  | .injectionEnd => Sys2Proof.Machine.execInjectionEnd s
  | .capArm h setting => Sys2Proof.Machine.execCapArm h setting s
  | .capAbort h => Sys2Proof.Machine.execCapAbort h s
  | .periodBoundary g => Sys2Proof.Machine.execPeriodBoundary g s
  | .shadowWrite h g off mask v => Sys2Proof.Machine.execShadowWrite h g off mask v s
  | .pwmLoadall h groups => Sys2Proof.Machine.execPwmLoadall h groups s
  | .pwmStart h g en => Sys2Proof.Machine.execPwmStart h g en s
  | .pwmTrip p => Sys2Proof.Machine.execPwmTrip p s
  | .tripClear h g trips => Sys2Proof.Machine.execTripClear h g trips s
  | .pwmResume h g => Sys2Proof.Machine.execPwmResume h g s
  | .delayLineLock trim => Sys2Proof.Machine.execDelayLineLock trim s
  | .serialReadStart p => Sys2Proof.Machine.execSerialReadStart p s
  | .serialReadDone p w => Sys2Proof.Machine.execSerialReadDone p w s
  | .quadTransition u a b n t => Sys2Proof.Machine.execQuadTransition u a b n t s
  | .indexEdge p z n t => Sys2Proof.Machine.execIndexEdge p z n t s
  | .speedWindowEnd u => Sys2Proof.Machine.execSpeedWindowEnd u s
  | .wheelPulse w rising bHigh n t => Sys2Proof.Machine.execWheelPulse w rising bHigh n t s
  | .flowEdge f rising len => Sys2Proof.Machine.execFlowEdge f rising len s
  | .portModeWrite h p mode => Sys2Proof.Machine.execPortModeWrite h p mode s
  | .portFaultClear h p flags => Sys2Proof.Machine.execPortFaultClear h p flags s
  | .ainConversion a code => Sys2Proof.Machine.execAinConversion a code s
  | .ainFault a => Sys2Proof.Machine.execAinFault a s
  | .ainFaultClear a => Sys2Proof.Machine.execAinFaultClear a s
  | .imuDrdy t b => Sys2Proof.Machine.execImuDrdy t b s
  | .imuTimeout t => Sys2Proof.Machine.execImuTimeout t s
  | .imuXferWrite h addr data => Sys2Proof.Machine.execImuXferWrite h addr data s
  | .imuXferRead h addr back => Sys2Proof.Machine.execImuXferRead h addr back s
  | .measEpoch t l sky r0 r1 lock => Sys2Proof.Machine.execMeasEpoch t l sky r0 r1 lock s
  | .solution t x => Sys2Proof.Machine.execSolution t x s
  | .acqDwell j detected => Sys2Proof.Machine.execAcqDwell j detected s
  | .aidedSearch j t eph detected => Sys2Proof.Machine.execAidedSearch j t eph detected s
  | .pullinToTrack j l => Sys2Proof.Machine.execPullinToTrack j l s
  | .trackLoss j t l => Sys2Proof.Machine.execTrackLoss j t l s
  | .lostHoldExpiry j t => Sys2Proof.Machine.execLostHoldExpiry j t s
  | .navUnit j unit status ok edge b leap => Sys2Proof.Machine.execNavUnit j unit status ok edge b leap s
  | .antOpen q => Sys2Proof.Machine.execAntOpen q s
  | .antShort q t => Sys2Proof.Machine.execAntShort q t s
  | .biasReclose q t => Sys2Proof.Machine.execBiasReclose q t s
  | .correctionAgeExceeded t => Sys2Proof.Machine.execCorrectionAgeExceeded t s
  | .sourceHoldExpiry t => Sys2Proof.Machine.execSourceHoldExpiry t s
  | .gnsRst h => Sys2Proof.Machine.execGnsRst h s
  | .slotPin h v => Sys2Proof.Machine.execSlotPin h v s
  | .ppsPulse x t => Sys2Proof.Machine.execPpsPulse x t s
  | .holdoverEntry t => Sys2Proof.Machine.execHoldoverEntry t s
  | .holdoverLimit t => Sys2Proof.Machine.execHoldoverLimit t s
  | .leapSecond t => Sys2Proof.Machine.execLeapSecond t s
  | .tbSnap h => Sys2Proof.Machine.execTbSnap h s
  | .tbSet h n adj => Sys2Proof.Machine.execTbSet h n adj s
  | .tbStep h n atSec adj => Sys2Proof.Machine.execTbStep h n atSec adj s
  | .tbSlew h n adj => Sys2Proof.Machine.execTbSlew h n adj s
  | .stepAtSecond n t => Sys2Proof.Machine.execStepAtSecond n t s
  | .slewComplete n t => Sys2Proof.Machine.execSlewComplete n t s
  | .ethFrameRx f => Sys2Proof.Machine.execEthFrameRx f s
  | .insert h => Sys2Proof.Machine.execInsert h s
  | .autoInsert => Sys2Proof.Machine.execAutoInsert s
  | .bypSenseChange lvl t => Sys2Proof.Machine.execBypSenseChange lvl t s
  | .insertionComplete => Sys2Proof.Machine.execInsertionComplete s
  | .linkTimeout t => Sys2Proof.Machine.execLinkTimeout t s
  | .relayFault t => Sys2Proof.Machine.execRelayFault t s
  | .bypass h => Sys2Proof.Machine.execBypass h s
  | .linkLoss => Sys2Proof.Machine.execLinkLoss s
  | .relayFaultClear h => Sys2Proof.Machine.execRelayFaultClear h s
  | .canEn h x en => Sys2Proof.Machine.execCanEn h x en s
  | .busSync x => Sys2Proof.Machine.execBusSync x s
  | .canFrameRx x t f lost => Sys2Proof.Machine.execCanFrameRx x t f lost s
  | .txAttemptEnd x t sof lec tdcv => Sys2Proof.Machine.execTxAttemptEnd x t sof lec tdcv s
  | .canError x t lec tx dom exempt => Sys2Proof.Machine.execCanError x t lec tx dom exempt s
  | .transmitAtTime x b t => Sys2Proof.Machine.execTransmitAtTime x b t s
  | .lateWinExpiry x b t => Sys2Proof.Machine.execLateWinExpiry x b t s
  | .ttSlot r c t => Sys2Proof.Machine.execTtSlot r c t s
  | .ttWindowExpiry r c t => Sys2Proof.Machine.execTtWindowExpiry r c t s
  | .boDelayExpiry x t => Sys2Proof.Machine.execBoDelayExpiry x t s
  | .recover h x => Sys2Proof.Machine.execRecover h x s
  | .recoveryDone x => Sys2Proof.Machine.execRecoveryDone x s
  | .addressClaimed sa => Sys2Proof.Machine.execAddressClaimed sa s
  | .addressLost => Sys2Proof.Machine.execAddressLost s
  | .nextSearchDone => Sys2Proof.Machine.execNextSearchDone s
  | .recordWritten => Sys2Proof.Machine.execRecordWritten s
  | .freezeTmo t => Sys2Proof.Machine.execFreezeTmo t s
  | .clearDone => Sys2Proof.Machine.execClearDone s
  | .lockoutEnd t => Sys2Proof.Machine.execLockoutEnd t s
  | .nonceExpiry t => Sys2Proof.Machine.execNonceExpiry t s
  | .opsecSave => Sys2Proof.Machine.execOpsecSave s
  | .monSample l => Sys2Proof.Machine.execMonSample l s
  | .limitReached k => Sys2Proof.Machine.execLimitReached k s
  | .limitLeft k => Sys2Proof.Machine.execLimitLeft k s
  | .slackRun l => Sys2Proof.Machine.execSlackRun l s
  | .avsEvaluation => Sys2Proof.Machine.execAvsEvaluation s
  | .avsReadback answered mv => Sys2Proof.Machine.execAvsReadback answered mv s
  | .avsModeWrite h set v => Sys2Proof.Machine.execAvsModeWrite h set v s
  | .logicDissipation dyn leak => Sys2Proof.Machine.execLogicDissipation dyn leak s
  | .lifeDrift => Sys2Proof.Machine.execLifeDrift s
  | .crossTimeout x units => Sys2Proof.Machine.execCrossTimeout x units s
  | .crossResync x units => Sys2Proof.Machine.execCrossResync x units s
  | .blockReset h v => Sys2Proof.Machine.execBlockReset h v s
  | .blockResetRelease k => Sys2Proof.Machine.execBlockResetRelease k s
  | .winRead mosi t => Sys2Proof.Machine.execWinRead mosi t s
  | .winWrite mosi t => Sys2Proof.Machine.execWinWrite mosi t s
  | .winAck seq t => Sys2Proof.Machine.execWinAck seq t s
  | .windowFreeze idx freeze t => Sys2Proof.Machine.execWindowFreeze idx freeze t s
  | .reqWrite mosi t => Sys2Proof.Machine.execReqWrite mosi t s
  | .rspRead mosi t => Sys2Proof.Machine.execRspRead mosi t s
  | .udpDatagram ip port b t => Sys2Proof.Machine.execUdpDatagram ip port b t s
  | .canbSegment b t => Sys2Proof.Machine.execCanbSegment b t s
  | .segmentTimeout t => Sys2Proof.Machine.execSegmentTimeout t s
  | .keepAliveExpiry h t => Sys2Proof.Machine.execKeepAliveExpiry h t s
  | .tcConnect => Sys2Proof.Machine.execTcConnect s
  | .tcDisconnect => Sys2Proof.Machine.execTcDisconnect s
  | .nop h => Sys2Proof.Machine.execNop h s
  | .identify h => Sys2Proof.Machine.execIdentify h s
  | .attach h => Sys2Proof.Machine.execAttach h s
  | .detach h => Sys2Proof.Machine.execDetach h s
  | .fence h => Sys2Proof.Machine.execFence h s
  | .rspRepeat h => Sys2Proof.Machine.execRspRepeat h s
  | .notifyCfg h => Sys2Proof.Machine.execNotifyCfg h s
  | .paramRead h => Sys2Proof.Machine.execParamRead h s
  | .paramWrite h => Sys2Proof.Machine.execParamWrite h s
  | .stateWordWrite h kind n v => Sys2Proof.Machine.execStateWordWrite h kind n v s
  | .kinEn h en => Sys2Proof.Machine.execKinEn h en s
  | .schEn h en => Sys2Proof.Machine.execSchEn h en s
  | .mapEn h en => Sys2Proof.Machine.execMapEn h en s
  | .kinChSel h v => Sys2Proof.Machine.execKinChSel h v s
  | .schSlotSel h v => Sys2Proof.Machine.execSchSlotSel h v s
  | .schChSel h v => Sys2Proof.Machine.execSchChSel h v s
  | .mapChSel h v => Sys2Proof.Machine.execMapChSel h v s
  | .actChSel h v => Sys2Proof.Machine.execActChSel h v s
  | .gnsSlotSel h v => Sys2Proof.Machine.execGnsSlotSel h v s
  | .alarmFlagClear h flags => Sys2Proof.Machine.execAlarmFlagClear h flags s
  | .clrCov h => Sys2Proof.Machine.execClrCov h s
  | .clrExc h => Sys2Proof.Machine.execClrExc h s
  | .clrZone h => Sys2Proof.Machine.execClrZone h s
  | .clrAll h => Sys2Proof.Machine.execClrAll h s
  | .mapClearDone => Sys2Proof.Machine.execMapClearDone s
  | .rasterGo h => Sys2Proof.Machine.execRasterGo h s
  | .rasterPassEnd => Sys2Proof.Machine.execRasterPassEnd s
  | .tableRead h => Sys2Proof.Machine.execTableRead h s
  | .tableWrite h => Sys2Proof.Machine.execTableWrite h s
  | .lease h => Sys2Proof.Machine.execLease h s
  | .release h => Sys2Proof.Machine.execRelease h s
  | .eventPost h => Sys2Proof.Machine.execEventPost h s
  | .eventCancel h => Sys2Proof.Machine.execEventCancel h s
  | .tileRead h => Sys2Proof.Machine.execTileRead h s
  | .tileWrite h => Sys2Proof.Machine.execTileWrite h s
  | .gnsMeasRead h => Sys2Proof.Machine.execGnsMeasRead h s
  | .gnsNavRead h => Sys2Proof.Machine.execGnsNavRead h s
  | .rtcmWrite h => Sys2Proof.Machine.execRtcmWrite h s
  | .canSend h => Sys2Proof.Machine.execCanSend h s
  | .canRecv h => Sys2Proof.Machine.execCanRecv h s
  | .canAbort h => Sys2Proof.Machine.execCanAbort h s
  | .recRead h => Sys2Proof.Machine.execRecRead h s
  | .recFreeze h => Sys2Proof.Machine.execRecFreeze h s
  | .recChallenge h => Sys2Proof.Machine.execRecChallenge h s
  | .recClear h => Sys2Proof.Machine.execRecClear h s
  | .fwInfo h => Sys2Proof.Machine.execFwInfo h s
  | .fwBegin h => Sys2Proof.Machine.execFwBegin h s
  | .fwData h => Sys2Proof.Machine.execFwData h s
  | .fwEnd h x => Sys2Proof.Machine.execFwEnd h x s
  | .fwActivate h => Sys2Proof.Machine.execFwActivate h s
  | .fwCommit h => Sys2Proof.Machine.execFwCommit h s
  | .cfgSave h => Sys2Proof.Machine.execCfgSave h s
  | .cfgErase h => Sys2Proof.Machine.execCfgErase h s
  | .keySet h => Sys2Proof.Machine.execKeySet h s
  | .sysReset h => Sys2Proof.Machine.execSysReset h s
  | .resetEnded t bootSelLow => Sys2Proof.Machine.execResetEnded t bootSelLow s
  | .phyLinkChange p up sqi t => Sys2Proof.Machine.execPhyLinkChange p up sqi t s
  | .pwmCmpEvent g p => Sys2Proof.Machine.execPwmCmpEvent g p s
  | .pwmPrdEvent g => Sys2Proof.Machine.execPwmPrdEvent g s
  | .chopPeriod g t l => Sys2Proof.Machine.execChopPeriod g t l s
  | .ppsPulseEnd x t => Sys2Proof.Machine.execPpsPulseEnd x t s
  | .emuOutputEdge k t => Sys2Proof.Machine.execEmuOutputEdge k t s
  | .speedSignalEdge j dir level t => Sys2Proof.Machine.execSpeedSignalEdge j dir level t s
  | .fwEraseDone => Sys2Proof.Machine.execFwEraseDone s
  | .cfgSaveDone => Sys2Proof.Machine.execCfgSaveDone s
  | .addressAgeing mac t => Sys2Proof.Machine.execAddressAgeing mac t s
  | .ptpMasterLoss j t => Sys2Proof.Machine.execPtpMasterLoss j t s
  | .syncInterval j t => Sys2Proof.Machine.execSyncInterval j t s

end Sys2Proof.Machine
end

