-- ==== Sys2Proof/WellFormed.lean ====
section
/-!
DEFINITION. Sys2Proof/WellFormed.lean: which operands a command can have at all. A command names a host slot, a channel, a
group, a ring, a port and so on of the part, and a value of the width of what it writes; another operand names no
instance of the part, and its meaning stops with Fault.noInstance (log entry 5).
-/
namespace Sys2Proof

open Sys2Proof.Machine

/-- The operands of the command name instances that the part has. -/
def Instr.wf : Instr → Bool
  | .powerUp _ => true
  | .resetN _ _ => true
  | .brownOut v _ => decide (v = 0 ∨ v = 2 ∨ v = 3)
  | .brownOutRelease _ => true
  | .thermalShutdown i _ => decide (i < 6)
  | .thermalShutdownRelease _ => true
  | .vcoreOvervoltage _ => true
  | .tcxoMissing _ => true
  | .tcxoPresent _ => true
  | .pllLock k _ => decide (k < 3)
  | .pllUnlock k _ => decide (k < 3)
  | .lockstepError _ => true
  | .heartbeatTimeout _ => true
  | .firmwareRestart => true
  | .imageVerified _ => true
  | .enableLoss a bn _ => (!a || bn)
  | .enableRestored => true
  | .kinematicStep pins tc => pins.all tripPinOk && tc.all tcOk
  | .retainTimeout i => decide (i < ladleSize)
  | .confirmTimeout i => decide (i < ladleSize)
  | .mismatchSet c => decide (c < 512)
  | .gnssLost => true
  | .standstill => true
  | .hitchEncoderFail => true
  | .hitchEncoderReturn => true
  | .drLimitPassed => true
  | .edgeFire c => decide (c < 32)
  | .peakCurrentReached c _ _ l => decide (c < 32) && samplesOk l
  | .peakEnd g => decide (g < 8)
  | .gridRise c => decide (c < 32)
  | .pulseFall c => decide (c < 32)
  | .sensedReleaseEnd c => decide (c < 32)
  | .motionReport c _ l => decide (c < 32) && samplesOk l
  | .windowClose c _ l => decide (c < 32) && samplesOk l
  | .openLoadOn c _ => decide (c < 32)
  | .openLoadOff c => decide (c < 32)
  | .lsOvercurrent c _ => decide (c < 32)
  | .shortToGround c _ => decide (c < 32)
  | .hsOvercurrent g _ => decide (g < 8)
  | .chOvertemp c _ => decide (c < 32)
  | .tempWarning c => decide (c < 32)
  | .hsOvertemp g _ => decide (g < 8)
  | .groupUndervoltage g _ => decide (g < 8)
  | .groupOvervoltage g _ => decide (g < 8)
  | .autoProtectionRelease grp n k => if grp then decide (n < 8) && decide (k < 5) else decide (n < 32) && decide (k < 4)
  | .kettleTick l => l.all fun x => decide (x.n < 32)
  | .kettleEvaluation _ => true
  | .drvEn h _ => decide (h < 4)
  | .groupEn h g _ => decide (h < 4) && decide (g < 8)
  | .resume h c => decide (h < 4) && decide (c < 32)
  | .resumeAll h => decide (h < 4)
  | .drvModeWrite h c mode => decide (h < 4) && decide (c < 32 ∧ mode < 4)
  | .pairWrite h c _ => decide (h < 4) && decide (c < 32)
  | .protectionFlagClear h grp n _ => decide (h < 4) && decide (n < if grp then 8 else 32)
  | .ringCycle r b =>
    decide (r < 2) && (b.nodes.all fun n => decide (n.node < nodeCount)) && b.probes.all fun p => decide (p.port < 2)
  | .ringBreak r pos => decide (r < 2 ∧ pos ≤ nodeCount)
  | .reportAreaTimeout r n => decide (r < 2 ∧ n < nodeCount)
  | .tagRelease r n t => decide (r < 2 ∧ n < nodeCount ∧ t < 15)
  | .fjlEn h r _ => decide (h < 4) && decide (r < 2)
  | .heal h r => decide (h < 4) && decide (r < 2)
  | .fjlResumeAll h r => decide (h < 4) && decide (r < 2)
  | .ringSafeWrite h r _ => decide (h < 4) && decide (r < 2)
  | .nodeResume h r n => decide (h < 4) && decide (r < 2 ∧ n < 30)
  | .nodeClrFlt h r n => decide (h < 4) && decide (r < 2 ∧ n < 30)
  | .chApply h r => decide (h < 4) && decide (r < 2)
  | .loopSample n => decide (n < 16)
  | .loopOutput n => decide (n < 16)
  | .saturationAlarm n => decide (n < 16)
  | .loopModeWrite h n mode => decide (h < 4) && decide (n < 16 ∧ mode < 4)
  | .cleEn h _ => decide (h < 4)
  | .injGo h setting => decide (h < 4) && decide (setting < 512)
  | .injStop h => decide (h < 4)
  | .injectionEnd => true
  | .capArm h setting => decide (h < 4) && decide (setting < 2048)
  | .capAbort h => decide (h < 4)
  | .periodBoundary g => decide (g < 8)
  | .shadowWrite h g off _ _ => decide (h < 4) && decide (g < 8) && inRange 2 6 off
  | .pwmLoadall h groups => decide (h < 4) && decide (groups < 256)
  | .pwmStart h g _ => decide (h < 4) && decide (g < 8)
  | .pwmTrip p => tripPinOk p
  | .tripClear h g trips => decide (h < 4) && decide (g < 8 ∧ trips < 4)
  | .pwmResume h g => decide (h < 4) && decide (g < 8)
  | .delayLineLock trim => decide (trim < 256)
  | .serialReadStart p => decide (p < 8)
  | .serialReadDone p _ => decide (p < 8)
  | .quadTransition u _ _ _ _ => decide (u < 12)
  | .indexEdge p _ _ _ => decide (p < 8)
  | .speedWindowEnd u => decide (u < 22)
  | .wheelPulse w _ _ _ _ => decide (w < 4)
  | .flowEdge f _ _ => decide (f < 8)
  | .portModeWrite h p mode => decide (h < 4) && regAssigned (ENC_PT_CFG p) && decide (p < 8 ∧ mode < 4)
  | .portFaultClear h p flags => decide (h < 4) && regAssigned (ENC_PT_FLT p) && decide (p < 8 ∧ flags < 16)
  | .ainConversion a code => decide (a < 16 ∧ code < 65536)
  | .ainFault a => decide (a < 16)
  | .ainFaultClear a => decide (a < 16)
  | .imuDrdy _ _ => true
  | .imuTimeout _ => true
  | .imuXferWrite h addr data => decide (h < 4) && decide (addr < 256 ∧ data < 256)
  | .imuXferRead h addr back => decide (h < 4) && decide (addr < 256 ∧ back < 256)
  | .measEpoch _ l _ _ _ _ => measOrdered l
  | .solution _ x => decide (x.type ≤ 4 ∧ x.latency ≤ 35 ∧ x.priv.length ≤ 24)
  | .acqDwell i _ => decide (i < 192)
  | .aidedSearch i _ _ _ => decide (i < 192)
  | .pullinToTrack i _ => decide (i < 192)
  | .trackLoss i _ _ => decide (i < 192)
  | .lostHoldExpiry i _ => decide (i < 192)
  | .navUnit i unit _ _ _ _ _ => decide (i < 192 ∧ unit < 2)
  | .antOpen q => decide (q < 2)
  | .antShort q _ => decide (q < 2)
  | .biasReclose q _ => decide (q < 2)
  | .correctionAgeExceeded _ => true
  | .sourceHoldExpiry _ => true
  | .gnsRst h => decide (h < 4)
  | .slotPin h _ => decide (h < 4)
  | .ppsPulse x _ => decide (x < 2)
  | .holdoverEntry _ => true
  | .holdoverLimit _ => true
  | .leapSecond _ => true
  | .tbSnap h => decide (h < 4)
  | .tbSet h n _ => decide (h < 4) && decide (n < 4)
  | .tbStep h n _ _ => decide (h < 4) && decide (n < 4)
  | .tbSlew h n _ => decide (h < 4) && decide (n < 4)
  | .stepAtSecond n _ => decide (n < 4)
  | .slewComplete n _ => decide (n < 4)
  | .ethFrameRx f => decide (f.port < 2 ∧ f.rx ≤ f.tx)
  | .insert h => decide (h < 4)
  | .autoInsert => true
  | .bypSenseChange _ _ => true
  | .insertionComplete => true
  | .linkTimeout _ => true
  | .relayFault _ => true
  | .bypass h => decide (h < 4)
  | .linkLoss => true
  | .relayFaultClear h => decide (h < 4)
  | .canEn h x _ => decide (h < 4) && decide (x < 4)
  | .busSync x => decide (x < 4)
  | .canFrameRx x _ f _ => decide (x < 4) && frameOk f
  | .txAttemptEnd x _ _ lec tdcv => decide (x < 4 ∧ lec ≤ 6 ∧ tdcv < 128)
  | .canError x _ lec _ _ _ => decide (x < 4 ∧ 1 ≤ lec ∧ lec ≤ 6)
  | .transmitAtTime x b _ => decide (x < 4 ∧ b < 64)
  | .lateWinExpiry x b _ => decide (x < 4 ∧ b < 64)
  | .ttSlot r c _ => decide (r < 16 ∧ c < 64)
  | .ttWindowExpiry r c _ => decide (r < 16 ∧ c < 64)
  | .boDelayExpiry x _ => decide (x < 4)
  | .recover h x => decide (h < 4) && decide (x < 4)
  | .recoveryDone x => decide (x < 4)
  | .addressClaimed sa => decide (sa < 254)
  | .addressLost => true
  | .nextSearchDone => true
  | .recordWritten => true
  | .freezeTmo _ => true
  | .clearDone => true
  | .lockoutEnd _ => true
  | .nonceExpiry _ => true
  | .opsecSave => true
  | .monSample l => decide (l.length = 32)
  | .limitReached k => decide (k < 56)
  | .limitLeft k => decide (k < 56)
  | .slackRun l => decide (l.length = 4)
  | .avsEvaluation => true
  | .avsReadback _ _ => true
  | .avsModeWrite h set v => decide (h < 4) && decide (v < if set then 1024 else 4)
  | .logicDissipation _ _ => true
  | .lifeDrift => true
  | .crossTimeout x _ => decide (2 ≤ x ∧ x < 14)
  | .crossResync x _ => decide (2 ≤ x ∧ x < 14)
  | .blockReset h _ => decide (h < 4)
  | .blockResetRelease k => brstBits.contains k
  | .winRead mosi _ => spiKind 1 mosi
  | .winWrite mosi _ => spiKind 2 mosi
  | .winAck seq _ => decide (seq < 256)
  | .windowFreeze idx _ _ => decide (idx < 16384)
  | .reqWrite mosi _ => spiKind 3 mosi
  | .rspRead mosi _ => spiKind 4 mosi
  | .udpDatagram _ port _ _ => decide (port.toNat < 65536)
  | .canbSegment b _ => inRange 1 64 b.length
  | .segmentTimeout _ => true
  | .keepAliveExpiry h _ => decide (h < 4)
  | .tcConnect => true
  | .tcDisconnect => true
  | .nop h => decide (h < 4)
  | .identify h => decide (h < 4)
  | .attach h => decide (h < 4)
  | .detach h => decide (h < 4)
  | .fence h => decide (h < 4)
  | .rspRepeat h => decide (h < 4)
  | .notifyCfg h => decide (h < 4)
  | .paramRead h => decide (h < 4)
  | .paramWrite h => decide (h < 4)
  | .stateWordWrite h kind n _ => decide (h < 4) && decide (kind < 4 ∧ n < kindSize kind)
  | .kinEn h _ => decide (h < 4)
  | .schEn h _ => decide (h < 4)
  | .mapEn h _ => decide (h < 4)
  | .kinChSel h _ => decide (h < 4)
  | .schSlotSel h _ => decide (h < 4)
  | .schChSel h _ => decide (h < 4)
  | .mapChSel h _ => decide (h < 4)
  | .actChSel h _ => decide (h < 4)
  | .gnsSlotSel h _ => decide (h < 4)
  | .alarmFlagClear h flags => decide (h < 4) && decide (flags < 128)
  | .clrCov h => decide (h < 4)
  | .clrExc h => decide (h < 4)
  | .clrZone h => decide (h < 4)
  | .clrAll h => decide (h < 4)
  | .mapClearDone => true
  | .rasterGo h => decide (h < 4)
  | .rasterPassEnd => true
  | .tableRead h => decide (h < 4)
  | .tableWrite h => decide (h < 4)
  | .lease h => decide (h < 4)
  | .release h => decide (h < 4)
  | .eventPost h => decide (h < 4)
  | .eventCancel h => decide (h < 4)
  | .tileRead h => decide (h < 4)
  | .tileWrite h => decide (h < 4)
  | .gnsMeasRead h => decide (h < 4)
  | .gnsNavRead h => decide (h < 4)
  | .rtcmWrite h => decide (h < 4)
  | .canSend h => decide (h < 4)
  | .canRecv h => decide (h < 4)
  | .canAbort h => decide (h < 4)
  | .recRead h => decide (h < 4)
  | .recFreeze h => decide (h < 4)
  | .recChallenge h => decide (h < 4)
  | .recClear h => decide (h < 4)
  | .fwInfo h => decide (h < 4)
  | .fwBegin h => decide (h < 4)
  | .fwData h => decide (h < 4)
  | .fwEnd h _ => decide (h < 4)
  | .fwActivate h => decide (h < 4)
  | .fwCommit h => decide (h < 4)
  | .cfgSave h => decide (h < 4)
  | .cfgErase h => decide (h < 4)
  | .keySet h => decide (h < 4)
  | .sysReset h => decide (h < 4)
  | .resetEnded _ _ => true
  | .phyLinkChange p _ sqi _ => decide (p < 2 ∧ sqi < 8)
  | .pwmCmpEvent g p => decide (g < 8 ∧ p < 3)
  | .pwmPrdEvent g => decide (g < 8)
  | .chopPeriod g _ l => decide (g < 8) && l.all fun x => decide (groupOf x.1 = g)
  | .ppsPulseEnd x _ => decide (x < 2)
  | .emuOutputEdge k _ => decide (k < 2)
  | .speedSignalEdge i _ _ _ => decide (i < 2)
  | .fwEraseDone => true
  | .cfgSaveDone => true
  | .addressAgeing _ _ => true
  | .ptpMasterLoss i _ => decide (i < 2)
  | .syncInterval i _ => decide (i < 2)

/-- The host slot that a command names: the slot that writes, posts or times out. -/
def Instr.host : Instr → Option Nat
  | .powerUp _ => none
  | .resetN _ _ => none
  | .brownOut _ _ => none
  | .brownOutRelease _ => none
  | .thermalShutdown _ _ => none
  | .thermalShutdownRelease _ => none
  | .vcoreOvervoltage _ => none
  | .tcxoMissing _ => none
  | .tcxoPresent _ => none
  | .pllLock _ _ => none
  | .pllUnlock _ _ => none
  | .lockstepError _ => none
  | .heartbeatTimeout _ => none
  | .firmwareRestart => none
  | .imageVerified _ => none
  | .enableLoss _ _ _ => none
  | .enableRestored => none
  | .kinematicStep _ _ => none
  | .retainTimeout _ => none
  | .confirmTimeout _ => none
  | .mismatchSet _ => none
  | .gnssLost => none
  | .standstill => none
  | .hitchEncoderFail => none
  | .hitchEncoderReturn => none
  | .drLimitPassed => none
  | .edgeFire _ => none
  | .peakCurrentReached _ _ _ _ => none
  | .peakEnd _ => none
  | .gridRise _ => none
  | .pulseFall _ => none
  | .sensedReleaseEnd _ => none
  | .motionReport _ _ _ => none
  | .windowClose _ _ _ => none
  | .openLoadOn _ _ => none
  | .openLoadOff _ => none
  | .lsOvercurrent _ _ => none
  | .shortToGround _ _ => none
  | .hsOvercurrent _ _ => none
  | .chOvertemp _ _ => none
  | .tempWarning _ => none
  | .hsOvertemp _ _ => none
  | .groupUndervoltage _ _ => none
  | .groupOvervoltage _ _ => none
  | .autoProtectionRelease _ _ _ => none
  | .kettleTick _ => none
  | .kettleEvaluation _ => none
  | .drvEn h _ => some h
  | .groupEn h _ _ => some h
  | .resume h _ => some h
  | .resumeAll h => some h
  | .drvModeWrite h _ _ => some h
  | .pairWrite h _ _ => some h
  | .protectionFlagClear h _ _ _ => some h
  | .ringCycle _ _ => none
  | .ringBreak _ _ => none
  | .reportAreaTimeout _ _ => none
  | .tagRelease _ _ _ => none
  | .fjlEn h _ _ => some h
  | .heal h _ => some h
  | .fjlResumeAll h _ => some h
  | .ringSafeWrite h _ _ => some h
  | .nodeResume h _ _ => some h
  | .nodeClrFlt h _ _ => some h
  | .chApply h _ => some h
  | .loopSample _ => none
  | .loopOutput _ => none
  | .saturationAlarm _ => none
  | .loopModeWrite h _ _ => some h
  | .cleEn h _ => some h
  | .injGo h _ => some h
  | .injStop h => some h
  | .injectionEnd => none
  | .capArm h _ => some h
  | .capAbort h => some h
  | .periodBoundary _ => none
  | .shadowWrite h _ _ _ _ => some h
  | .pwmLoadall h _ => some h
  | .pwmStart h _ _ => some h
  | .pwmTrip _ => none
  | .tripClear h _ _ => some h
  | .pwmResume h _ => some h
  | .delayLineLock _ => none
  | .serialReadStart _ => none
  | .serialReadDone _ _ => none
  | .quadTransition _ _ _ _ _ => none
  | .indexEdge _ _ _ _ => none
  | .speedWindowEnd _ => none
  | .wheelPulse _ _ _ _ _ => none
  | .flowEdge _ _ _ => none
  | .portModeWrite h _ _ => some h
  | .portFaultClear h _ _ => some h
  | .ainConversion _ _ => none
  | .ainFault _ => none
  | .ainFaultClear _ => none
  | .imuDrdy _ _ => none
  | .imuTimeout _ => none
  | .imuXferWrite h _ _ => some h
  | .imuXferRead h _ _ => some h
  | .measEpoch _ _ _ _ _ _ => none
  | .solution _ _ => none
  | .acqDwell _ _ => none
  | .aidedSearch _ _ _ _ => none
  | .pullinToTrack _ _ => none
  | .trackLoss _ _ _ => none
  | .lostHoldExpiry _ _ => none
  | .navUnit _ _ _ _ _ _ _ => none
  | .antOpen _ => none
  | .antShort _ _ => none
  | .biasReclose _ _ => none
  | .correctionAgeExceeded _ => none
  | .sourceHoldExpiry _ => none
  | .gnsRst h => some h
  | .slotPin h _ => some h
  | .ppsPulse _ _ => none
  | .holdoverEntry _ => none
  | .holdoverLimit _ => none
  | .leapSecond _ => none
  | .tbSnap h => some h
  | .tbSet h _ _ => some h
  | .tbStep h _ _ _ => some h
  | .tbSlew h _ _ => some h
  | .stepAtSecond _ _ => none
  | .slewComplete _ _ => none
  | .ethFrameRx _ => none
  | .insert h => some h
  | .autoInsert => none
  | .bypSenseChange _ _ => none
  | .insertionComplete => none
  | .linkTimeout _ => none
  | .relayFault _ => none
  | .bypass h => some h
  | .linkLoss => none
  | .relayFaultClear h => some h
  | .canEn h _ _ => some h
  | .busSync _ => none
  | .canFrameRx _ _ _ _ => none
  | .txAttemptEnd _ _ _ _ _ => none
  | .canError _ _ _ _ _ _ => none
  | .transmitAtTime _ _ _ => none
  | .lateWinExpiry _ _ _ => none
  | .ttSlot _ _ _ => none
  | .ttWindowExpiry _ _ _ => none
  | .boDelayExpiry _ _ => none
  | .recover h _ => some h
  | .recoveryDone _ => none
  | .addressClaimed _ => none
  | .addressLost => none
  | .nextSearchDone => none
  | .recordWritten => none
  | .freezeTmo _ => none
  | .clearDone => none
  | .lockoutEnd _ => none
  | .nonceExpiry _ => none
  | .opsecSave => none
  | .monSample _ => none
  | .limitReached _ => none
  | .limitLeft _ => none
  | .slackRun _ => none
  | .avsEvaluation => none
  | .avsReadback _ _ => none
  | .avsModeWrite h _ _ => some h
  | .logicDissipation _ _ => none
  | .lifeDrift => none
  | .crossTimeout _ _ => none
  | .crossResync _ _ => none
  | .blockReset h _ => some h
  | .blockResetRelease _ => none
  | .winRead _ _ => none
  | .winWrite _ _ => none
  | .winAck _ _ => none
  | .windowFreeze _ _ _ => none
  | .reqWrite _ _ => none
  | .rspRead _ _ => none
  | .udpDatagram _ _ _ _ => none
  | .canbSegment _ _ => none
  | .segmentTimeout _ => none
  | .keepAliveExpiry h _ => some h
  | .tcConnect => none
  | .tcDisconnect => none
  | .nop h => some h
  | .identify h => some h
  | .attach h => some h
  | .detach h => some h
  | .fence h => some h
  | .rspRepeat h => some h
  | .notifyCfg h => some h
  | .paramRead h => some h
  | .paramWrite h => some h
  | .stateWordWrite h _ _ _ => some h
  | .kinEn h _ => some h
  | .schEn h _ => some h
  | .mapEn h _ => some h
  | .kinChSel h _ => some h
  | .schSlotSel h _ => some h
  | .schChSel h _ => some h
  | .mapChSel h _ => some h
  | .actChSel h _ => some h
  | .gnsSlotSel h _ => some h
  | .alarmFlagClear h _ => some h
  | .clrCov h => some h
  | .clrExc h => some h
  | .clrZone h => some h
  | .clrAll h => some h
  | .mapClearDone => none
  | .rasterGo h => some h
  | .rasterPassEnd => none
  | .tableRead h => some h
  | .tableWrite h => some h
  | .lease h => some h
  | .release h => some h
  | .eventPost h => some h
  | .eventCancel h => some h
  | .tileRead h => some h
  | .tileWrite h => some h
  | .gnsMeasRead h => some h
  | .gnsNavRead h => some h
  | .rtcmWrite h => some h
  | .canSend h => some h
  | .canRecv h => some h
  | .canAbort h => some h
  | .recRead h => some h
  | .recFreeze h => some h
  | .recChallenge h => some h
  | .recClear h => some h
  | .fwInfo h => some h
  | .fwBegin h => some h
  | .fwData h => some h
  | .fwEnd h _ => some h
  | .fwActivate h => some h
  | .fwCommit h => some h
  | .cfgSave h => some h
  | .cfgErase h => some h
  | .keySet h => some h
  | .sysReset h => some h
  | .resetEnded _ _ => none
  | .phyLinkChange _ _ _ _ => none
  | .pwmCmpEvent _ _ => none
  | .pwmPrdEvent _ => none
  | .chopPeriod _ _ _ => none
  | .ppsPulseEnd _ _ => none
  | .emuOutputEdge _ _ => none
  | .speedSignalEdge _ _ _ _ => none
  | .fwEraseDone => none
  | .cfgSaveDone => none
  | .addressAgeing _ _ => none
  | .ptpMasterLoss _ _ => none
  | .syncInterval _ _ => none

end Sys2Proof
end

