-- ==== Sys2Proof/Laws/PerInstr.lean ====
section
/-!
SUPPORT. Sys2Proof/Laws/PerInstr.lean: statements made of every command, one lemma per constructor.
-/
namespace Sys2Proof.Laws.HostSlot

open Sys2Proof Sys2Proof.Machine

/-- A well-formed command that names a host slot names one of the four (R381). -/
def Statement (i : Instr) : Prop := i.wf = true → ∀ h, i.host = some h → h < 4

theorem slot_of {h : Nat} (w : decide (h < 4) = true) {k : Nat} (e : some h = some k) : k < 4 := by
  cases e; exact of_decide_eq_true w

theorem slot_and {h : Nat} {b : Bool} (w : (decide (h < 4) && b) = true) {k : Nat} (e : some h = some k) : k < 4 :=
  slot_of ((Bool.and_eq_true_iff.1 w).1) e

theorem slot_and2 {h : Nat} {b c : Bool} (w : (decide (h < 4) && b && c) = true) {k : Nat} (e : some h = some k) : k < 4 :=
  slot_and ((Bool.and_eq_true_iff.1 w).1) e

theorem powerUp (bootSelLow : Bool) : Statement (.powerUp bootSelLow) := fun _ _ e => nomatch e

theorem resetN (t : Nat) (ns : Nat) : Statement (.resetN t ns) := fun _ _ e => nomatch e

theorem brownOut (v : Nat) (t : Nat) : Statement (.brownOut v t) := fun _ _ e => nomatch e

theorem brownOutRelease (t : Nat) : Statement (.brownOutRelease t) := fun _ _ e => nomatch e

theorem thermalShutdown (i : Nat) (t : Nat) : Statement (.thermalShutdown i t) := fun _ _ e => nomatch e

theorem thermalShutdownRelease (t : Nat) : Statement (.thermalShutdownRelease t) := fun _ _ e => nomatch e

theorem vcoreOvervoltage (v0 : Nat) : Statement (.vcoreOvervoltage v0) := fun _ _ e => nomatch e

theorem tcxoMissing (t : Nat) : Statement (.tcxoMissing t) := fun _ _ e => nomatch e

theorem tcxoPresent (t : Nat) : Statement (.tcxoPresent t) := fun _ _ e => nomatch e

theorem pllLock (k : Nat) (t : Nat) : Statement (.pllLock k t) := fun _ _ e => nomatch e

theorem pllUnlock (k : Nat) (t : Nat) : Statement (.pllUnlock k t) := fun _ _ e => nomatch e

theorem lockstepError (t : Nat) : Statement (.lockstepError t) := fun _ _ e => nomatch e

theorem heartbeatTimeout (t : Nat) : Statement (.heartbeatTimeout t) := fun _ _ e => nomatch e

theorem firmwareRestart : Statement .firmwareRestart := fun _ _ e => nomatch e

theorem imageVerified (t : Nat) : Statement (.imageVerified t) := fun _ _ e => nomatch e

theorem enableLoss (a : Bool) (bn : Bool) (t : Nat) : Statement (.enableLoss a bn t) := fun _ _ e => nomatch e

theorem enableRestored : Statement .enableRestored := fun _ _ e => nomatch e

theorem kinematicStep (pins : List TripPin) (tc : List TcValue) : Statement (.kinematicStep pins tc) := fun _ _ e => nomatch e

theorem retainTimeout (i : Nat) : Statement (.retainTimeout i) := fun _ _ e => nomatch e

theorem confirmTimeout (i : Nat) : Statement (.confirmTimeout i) := fun _ _ e => nomatch e

theorem mismatchSet (c : Nat) : Statement (.mismatchSet c) := fun _ _ e => nomatch e

theorem gnssLost : Statement .gnssLost := fun _ _ e => nomatch e

theorem standstill : Statement .standstill := fun _ _ e => nomatch e

theorem hitchEncoderFail : Statement .hitchEncoderFail := fun _ _ e => nomatch e

theorem hitchEncoderReturn : Statement .hitchEncoderReturn := fun _ _ e => nomatch e

theorem drLimitPassed : Statement .drLimitPassed := fun _ _ e => nomatch e

theorem edgeFire (c : Nat) : Statement (.edgeFire c) := fun _ _ e => nomatch e

theorem peakCurrentReached (c : Nat) (t : Nat) (t0 : Nat) (l : List Nat) : Statement (.peakCurrentReached c t t0 l) := fun _ _ e => nomatch e

theorem peakEnd (g : Nat) : Statement (.peakEnd g) := fun _ _ e => nomatch e

theorem gridRise (c : Nat) : Statement (.gridRise c) := fun _ _ e => nomatch e

theorem pulseFall (c : Nat) : Statement (.pulseFall c) := fun _ _ e => nomatch e

theorem sensedReleaseEnd (c : Nat) : Statement (.sensedReleaseEnd c) := fun _ _ e => nomatch e

theorem motionReport (c : Nat) (t0 : Nat) (l : List Nat) : Statement (.motionReport c t0 l) := fun _ _ e => nomatch e

theorem windowClose (c : Nat) (t0 : Nat) (l : List Nat) : Statement (.windowClose c t0 l) := fun _ _ e => nomatch e

theorem openLoadOn (c : Nat) (t : Nat) : Statement (.openLoadOn c t) := fun _ _ e => nomatch e

theorem openLoadOff (c : Nat) : Statement (.openLoadOff c) := fun _ _ e => nomatch e

theorem lsOvercurrent (c : Nat) (t : Nat) : Statement (.lsOvercurrent c t) := fun _ _ e => nomatch e

theorem shortToGround (c : Nat) (t : Nat) : Statement (.shortToGround c t) := fun _ _ e => nomatch e

theorem hsOvercurrent (g : Nat) (t : Nat) : Statement (.hsOvercurrent g t) := fun _ _ e => nomatch e

theorem chOvertemp (c : Nat) (t : Nat) : Statement (.chOvertemp c t) := fun _ _ e => nomatch e

theorem tempWarning (c : Nat) : Statement (.tempWarning c) := fun _ _ e => nomatch e

theorem hsOvertemp (g : Nat) (t : Nat) : Statement (.hsOvertemp g t) := fun _ _ e => nomatch e

theorem groupUndervoltage (g : Nat) (t : Nat) : Statement (.groupUndervoltage g t) := fun _ _ e => nomatch e

theorem groupOvervoltage (g : Nat) (t : Nat) : Statement (.groupOvervoltage g t) := fun _ _ e => nomatch e

theorem autoProtectionRelease (grp : Bool) (n : Nat) (k : Nat) : Statement (.autoProtectionRelease grp n k) := fun _ _ e => nomatch e

theorem kettleTick (l : List DrvSum) : Statement (.kettleTick l) := fun _ _ e => nomatch e

theorem kettleEvaluation (t : Nat) : Statement (.kettleEvaluation t) := fun _ _ e => nomatch e

theorem drvEn (h : Nat) (en : Bool) : Statement (.drvEn h en) := fun w _ e => slot_of w e

theorem groupEn (h : Nat) (g : Nat) (en : Bool) : Statement (.groupEn h g en) := fun w _ e => slot_and w e

theorem resume (h : Nat) (c : Nat) : Statement (.resume h c) := fun w _ e => slot_and w e

theorem resumeAll (h : Nat) : Statement (.resumeAll h) := fun w _ e => slot_of w e

theorem drvModeWrite (h : Nat) (c : Nat) (mode : Nat) : Statement (.drvModeWrite h c mode) := fun w _ e => slot_and w e

theorem pairWrite (h : Nat) (c : Nat) (pair : Bool) : Statement (.pairWrite h c pair) := fun w _ e => slot_and w e

theorem protectionFlagClear (h : Nat) (grp : Bool) (n : Nat) (flags : Word) : Statement (.protectionFlagClear h grp n flags) := fun w _ e => slot_and w e

theorem ringCycle (r : Nat) (b : RingBack) : Statement (.ringCycle r b) := fun _ _ e => nomatch e

theorem ringBreak (r : Nat) (pos : Nat) : Statement (.ringBreak r pos) := fun _ _ e => nomatch e

theorem reportAreaTimeout (r : Nat) (n : Nat) : Statement (.reportAreaTimeout r n) := fun _ _ e => nomatch e

theorem tagRelease (r : Nat) (n : Nat) (t : Nat) : Statement (.tagRelease r n t) := fun _ _ e => nomatch e

theorem fjlEn (h : Nat) (r : Nat) (en : Bool) : Statement (.fjlEn h r en) := fun w _ e => slot_and w e

theorem heal (h : Nat) (r : Nat) : Statement (.heal h r) := fun w _ e => slot_and w e

theorem fjlResumeAll (h : Nat) (r : Nat) : Statement (.fjlResumeAll h r) := fun w _ e => slot_and w e

theorem ringSafeWrite (h : Nat) (r : Nat) (safe : Bool) : Statement (.ringSafeWrite h r safe) := fun w _ e => slot_and w e

theorem nodeResume (h : Nat) (r : Nat) (n : Nat) : Statement (.nodeResume h r n) := fun w _ e => slot_and w e

theorem nodeClrFlt (h : Nat) (r : Nat) (n : Nat) : Statement (.nodeClrFlt h r n) := fun w _ e => slot_and w e

theorem chApply (h : Nat) (r : Nat) : Statement (.chApply h r) := fun w _ e => slot_and w e

theorem loopSample (n : Nat) : Statement (.loopSample n) := fun _ _ e => nomatch e

theorem loopOutput (n : Nat) : Statement (.loopOutput n) := fun _ _ e => nomatch e

theorem saturationAlarm (n : Nat) : Statement (.saturationAlarm n) := fun _ _ e => nomatch e

theorem loopModeWrite (h : Nat) (n : Nat) (mode : Nat) : Statement (.loopModeWrite h n mode) := fun w _ e => slot_and w e

theorem cleEn (h : Nat) (en : Bool) : Statement (.cleEn h en) := fun w _ e => slot_of w e

theorem injGo (h : Nat) (setting : Nat) : Statement (.injGo h setting) := fun w _ e => slot_and w e

theorem injStop (h : Nat) : Statement (.injStop h) := fun w _ e => slot_of w e

theorem injectionEnd : Statement .injectionEnd := fun _ _ e => nomatch e

theorem capArm (h : Nat) (setting : Nat) : Statement (.capArm h setting) := fun w _ e => slot_and w e

theorem capAbort (h : Nat) : Statement (.capAbort h) := fun w _ e => slot_of w e

theorem periodBoundary (g : Nat) : Statement (.periodBoundary g) := fun _ _ e => nomatch e

theorem shadowWrite (h : Nat) (g : Nat) (off : Nat) (mask : Word) (v : Word) : Statement (.shadowWrite h g off mask v) := fun w _ e => slot_and2 w e

theorem pwmLoadall (h : Nat) (groups : Nat) : Statement (.pwmLoadall h groups) := fun w _ e => slot_and w e

theorem pwmStart (h : Nat) (g : Nat) (en : Bool) : Statement (.pwmStart h g en) := fun w _ e => slot_and w e

theorem pwmTrip (p : TripPin) : Statement (.pwmTrip p) := fun _ _ e => nomatch e

theorem tripClear (h : Nat) (g : Nat) (trips : Nat) : Statement (.tripClear h g trips) := fun w _ e => slot_and w e

theorem pwmResume (h : Nat) (g : Nat) : Statement (.pwmResume h g) := fun w _ e => slot_and w e

theorem delayLineLock (trim : Nat) : Statement (.delayLineLock trim) := fun _ _ e => nomatch e

theorem serialReadStart (p : Nat) : Statement (.serialReadStart p) := fun _ _ e => nomatch e

theorem serialReadDone (p : Nat) (w : SerialWord) : Statement (.serialReadDone p w) := fun _ _ e => nomatch e

theorem quadTransition (u : Nat) (a : Bool) (b : Bool) (n : Nat) (t : Nat) : Statement (.quadTransition u a b n t) := fun _ _ e => nomatch e

theorem indexEdge (p : Nat) (z : Bool) (n : Nat) (t : Nat) : Statement (.indexEdge p z n t) := fun _ _ e => nomatch e

theorem speedWindowEnd (u : Nat) : Statement (.speedWindowEnd u) := fun _ _ e => nomatch e

theorem wheelPulse (w : Nat) (rising : Bool) (bHigh : Bool) (n : Nat) (t : Nat) : Statement (.wheelPulse w rising bHigh n t) := fun _ _ e => nomatch e

theorem flowEdge (f : Nat) (rising : Bool) (len : Nat) : Statement (.flowEdge f rising len) := fun _ _ e => nomatch e

theorem portModeWrite (h : Nat) (p : Nat) (mode : Nat) : Statement (.portModeWrite h p mode) := fun w _ e => slot_and2 w e

theorem portFaultClear (h : Nat) (p : Nat) (flags : Nat) : Statement (.portFaultClear h p flags) := fun w _ e => slot_and2 w e

theorem ainConversion (a : Nat) (code : Nat) : Statement (.ainConversion a code) := fun _ _ e => nomatch e

theorem ainFault (a : Nat) : Statement (.ainFault a) := fun _ _ e => nomatch e

theorem ainFaultClear (a : Nat) : Statement (.ainFaultClear a) := fun _ _ e => nomatch e

theorem imuDrdy (t : Nat) (b : List Byte) : Statement (.imuDrdy t b) := fun _ _ e => nomatch e

theorem imuTimeout (t : Nat) : Statement (.imuTimeout t) := fun _ _ e => nomatch e

theorem imuXferWrite (h : Nat) (addr : Nat) (data : Nat) : Statement (.imuXferWrite h addr data) := fun w _ e => slot_and w e

theorem imuXferRead (h : Nat) (addr : Nat) (back : Nat) : Statement (.imuXferRead h addr back) := fun w _ e => slot_and w e

theorem measEpoch (t : Nat) (l : List SlotMeas) (sky : List GnsCand) (r0 : PortRf) (r1 : PortRf) (lock : Bool) : Statement (.measEpoch t l sky r0 r1 lock) := fun _ _ e => nomatch e

theorem solution (t : Nat) (x : SolIn) : Statement (.solution t x) := fun _ _ e => nomatch e

theorem acqDwell (i : Nat) (detected : Bool) : Statement (.acqDwell i detected) := fun _ _ e => nomatch e

theorem aidedSearch (i : Nat) (t : Nat) (eph : Bool) (detected : Bool) : Statement (.aidedSearch i t eph detected) := fun _ _ e => nomatch e

theorem pullinToTrack (i : Nat) (l : List (Bool × Nat)) : Statement (.pullinToTrack i l) := fun _ _ e => nomatch e

theorem trackLoss (i : Nat) (t : Nat) (l : List (Nat × Bool)) : Statement (.trackLoss i t l) := fun _ _ e => nomatch e

theorem lostHoldExpiry (i : Nat) (t : Nat) : Statement (.lostHoldExpiry i t) := fun _ _ e => nomatch e

theorem navUnit (i : Nat) (unit : Nat) (status : Nat) (ok : Bool) (edge : Nat) (b : List Bool) (leap : Option LeapData) : Statement (.navUnit i unit status ok edge b leap) := fun _ _ e => nomatch e

theorem antOpen (q : Nat) : Statement (.antOpen q) := fun _ _ e => nomatch e

theorem antShort (q : Nat) (t : Nat) : Statement (.antShort q t) := fun _ _ e => nomatch e

theorem biasReclose (q : Nat) (t : Nat) : Statement (.biasReclose q t) := fun _ _ e => nomatch e

theorem correctionAgeExceeded (t : Nat) : Statement (.correctionAgeExceeded t) := fun _ _ e => nomatch e

theorem sourceHoldExpiry (t : Nat) : Statement (.sourceHoldExpiry t) := fun _ _ e => nomatch e

theorem gnsRst (h : Nat) : Statement (.gnsRst h) := fun w _ e => slot_of w e

theorem slotPin (h : Nat) (v : Word) : Statement (.slotPin h v) := fun w _ e => slot_of w e

theorem ppsPulse (x : Nat) (t : Nat) : Statement (.ppsPulse x t) := fun _ _ e => nomatch e

theorem holdoverEntry (t : Nat) : Statement (.holdoverEntry t) := fun _ _ e => nomatch e

theorem holdoverLimit (t : Nat) : Statement (.holdoverLimit t) := fun _ _ e => nomatch e

theorem leapSecond (t : Nat) : Statement (.leapSecond t) := fun _ _ e => nomatch e

theorem tbSnap (h : Nat) : Statement (.tbSnap h) := fun w _ e => slot_of w e

theorem tbSet (h : Nat) (n : Nat) (adj : BitVec 64) : Statement (.tbSet h n adj) := fun w _ e => slot_and w e

theorem tbStep (h : Nat) (n : Nat) (atSec : Bool) (adj : BitVec 64) : Statement (.tbStep h n atSec adj) := fun w _ e => slot_and w e

theorem tbSlew (h : Nat) (n : Nat) (adj : BitVec 64) : Statement (.tbSlew h n adj) := fun w _ e => slot_and w e

theorem stepAtSecond (n : Nat) (t : Nat) : Statement (.stepAtSecond n t) := fun _ _ e => nomatch e

theorem slewComplete (n : Nat) (t : Nat) : Statement (.slewComplete n t) := fun _ _ e => nomatch e

theorem ethFrameRx (f : EthFrame) : Statement (.ethFrameRx f) := fun _ _ e => nomatch e

theorem insert (h : Nat) : Statement (.insert h) := fun w _ e => slot_of w e

theorem autoInsert : Statement .autoInsert := fun _ _ e => nomatch e

theorem bypSenseChange (lvl : Bool) (t : Nat) : Statement (.bypSenseChange lvl t) := fun _ _ e => nomatch e

theorem insertionComplete : Statement .insertionComplete := fun _ _ e => nomatch e

theorem linkTimeout (t : Nat) : Statement (.linkTimeout t) := fun _ _ e => nomatch e

theorem relayFault (t : Nat) : Statement (.relayFault t) := fun _ _ e => nomatch e

theorem bypass (h : Nat) : Statement (.bypass h) := fun w _ e => slot_of w e

theorem linkLoss : Statement .linkLoss := fun _ _ e => nomatch e

theorem relayFaultClear (h : Nat) : Statement (.relayFaultClear h) := fun w _ e => slot_of w e

theorem canEn (h : Nat) (x : Nat) (en : Bool) : Statement (.canEn h x en) := fun w _ e => slot_and w e

theorem busSync (x : Nat) : Statement (.busSync x) := fun _ _ e => nomatch e

theorem canFrameRx (x : Nat) (t : Nat) (f : CanFrame) (lost : Bool) : Statement (.canFrameRx x t f lost) := fun _ _ e => nomatch e

theorem txAttemptEnd (x : Nat) (t : Nat) (sof : Nat) (lec : Nat) (tdcv : Nat) : Statement (.txAttemptEnd x t sof lec tdcv) := fun _ _ e => nomatch e

theorem canError (x : Nat) (t : Nat) (lec : Nat) (tx : Bool) (dom : Bool) (exempt : Bool) : Statement (.canError x t lec tx dom exempt) := fun _ _ e => nomatch e

theorem transmitAtTime (x : Nat) (b : Nat) (t : Nat) : Statement (.transmitAtTime x b t) := fun _ _ e => nomatch e

theorem lateWinExpiry (x : Nat) (b : Nat) (t : Nat) : Statement (.lateWinExpiry x b t) := fun _ _ e => nomatch e

theorem ttSlot (r : Nat) (c : Nat) (t : Nat) : Statement (.ttSlot r c t) := fun _ _ e => nomatch e

theorem ttWindowExpiry (r : Nat) (c : Nat) (t : Nat) : Statement (.ttWindowExpiry r c t) := fun _ _ e => nomatch e

theorem boDelayExpiry (x : Nat) (t : Nat) : Statement (.boDelayExpiry x t) := fun _ _ e => nomatch e

theorem recover (h : Nat) (x : Nat) : Statement (.recover h x) := fun w _ e => slot_and w e

theorem recoveryDone (x : Nat) : Statement (.recoveryDone x) := fun _ _ e => nomatch e

theorem addressClaimed (sa : Nat) : Statement (.addressClaimed sa) := fun _ _ e => nomatch e

theorem addressLost : Statement .addressLost := fun _ _ e => nomatch e

theorem nextSearchDone : Statement .nextSearchDone := fun _ _ e => nomatch e

theorem recordWritten : Statement .recordWritten := fun _ _ e => nomatch e

theorem freezeTmo (t : Nat) : Statement (.freezeTmo t) := fun _ _ e => nomatch e

theorem clearDone : Statement .clearDone := fun _ _ e => nomatch e

theorem lockoutEnd (t : Nat) : Statement (.lockoutEnd t) := fun _ _ e => nomatch e

theorem nonceExpiry (t : Nat) : Statement (.nonceExpiry t) := fun _ _ e => nomatch e

theorem opsecSave : Statement .opsecSave := fun _ _ e => nomatch e

theorem monSample (l : List Int) : Statement (.monSample l) := fun _ _ e => nomatch e

theorem limitReached (k : Nat) : Statement (.limitReached k) := fun _ _ e => nomatch e

theorem limitLeft (k : Nat) : Statement (.limitLeft k) := fun _ _ e => nomatch e

theorem slackRun (l : List Nat) : Statement (.slackRun l) := fun _ _ e => nomatch e

theorem avsEvaluation : Statement .avsEvaluation := fun _ _ e => nomatch e

theorem avsReadback (answered : Bool) (mv : Nat) : Statement (.avsReadback answered mv) := fun _ _ e => nomatch e

theorem avsModeWrite (h : Nat) (set : Bool) (v : Nat) : Statement (.avsModeWrite h set v) := fun w _ e => slot_and w e

theorem logicDissipation (dyn : Nat) (leak : Nat) : Statement (.logicDissipation dyn leak) := fun _ _ e => nomatch e

theorem lifeDrift : Statement .lifeDrift := fun _ _ e => nomatch e

theorem crossTimeout (x : Nat) (units : Nat) : Statement (.crossTimeout x units) := fun _ _ e => nomatch e

theorem crossResync (x : Nat) (units : Nat) : Statement (.crossResync x units) := fun _ _ e => nomatch e

theorem blockReset (h : Nat) (v : Word) : Statement (.blockReset h v) := fun w _ e => slot_of w e

theorem blockResetRelease (k : Nat) : Statement (.blockResetRelease k) := fun _ _ e => nomatch e

theorem winRead (mosi : List Byte) (t : Nat) : Statement (.winRead mosi t) := fun _ _ e => nomatch e

theorem winWrite (mosi : List Byte) (t : Nat) : Statement (.winWrite mosi t) := fun _ _ e => nomatch e

theorem winAck (seq : Nat) (t : Nat) : Statement (.winAck seq t) := fun _ _ e => nomatch e

theorem windowFreeze (idx : Nat) (freeze : Bool) (t : Nat) : Statement (.windowFreeze idx freeze t) := fun _ _ e => nomatch e

theorem reqWrite (mosi : List Byte) (t : Nat) : Statement (.reqWrite mosi t) := fun _ _ e => nomatch e

theorem rspRead (mosi : List Byte) (t : Nat) : Statement (.rspRead mosi t) := fun _ _ e => nomatch e

theorem udpDatagram (ip : Word) (port : Word) (b : List Byte) (t : Nat) : Statement (.udpDatagram ip port b t) := fun _ _ e => nomatch e

theorem canbSegment (b : List Byte) (t : Nat) : Statement (.canbSegment b t) := fun _ _ e => nomatch e

theorem segmentTimeout (t : Nat) : Statement (.segmentTimeout t) := fun _ _ e => nomatch e

theorem keepAliveExpiry (h : Nat) (t : Nat) : Statement (.keepAliveExpiry h t) := fun w _ e => slot_of w e

theorem tcConnect : Statement .tcConnect := fun _ _ e => nomatch e

theorem tcDisconnect : Statement .tcDisconnect := fun _ _ e => nomatch e

theorem nop (h : Nat) : Statement (.nop h) := fun w _ e => slot_of w e

theorem identify (h : Nat) : Statement (.identify h) := fun w _ e => slot_of w e

theorem attach (h : Nat) : Statement (.attach h) := fun w _ e => slot_of w e

theorem detach (h : Nat) : Statement (.detach h) := fun w _ e => slot_of w e

theorem fence (h : Nat) : Statement (.fence h) := fun w _ e => slot_of w e

theorem rspRepeat (h : Nat) : Statement (.rspRepeat h) := fun w _ e => slot_of w e

theorem notifyCfg (h : Nat) : Statement (.notifyCfg h) := fun w _ e => slot_of w e

theorem paramRead (h : Nat) : Statement (.paramRead h) := fun w _ e => slot_of w e

theorem paramWrite (h : Nat) : Statement (.paramWrite h) := fun w _ e => slot_of w e

theorem stateWordWrite (h : Nat) (kind : Nat) (n : Nat) (v : Word) : Statement (.stateWordWrite h kind n v) := fun w _ e => slot_and w e

theorem kinEn (h : Nat) (en : Bool) : Statement (.kinEn h en) := fun w _ e => slot_of w e

theorem schEn (h : Nat) (en : Bool) : Statement (.schEn h en) := fun w _ e => slot_of w e

theorem mapEn (h : Nat) (en : Bool) : Statement (.mapEn h en) := fun w _ e => slot_of w e

theorem kinChSel (h : Nat) (v : Word) : Statement (.kinChSel h v) := fun w _ e => slot_of w e

theorem schSlotSel (h : Nat) (v : Word) : Statement (.schSlotSel h v) := fun w _ e => slot_of w e

theorem schChSel (h : Nat) (v : Word) : Statement (.schChSel h v) := fun w _ e => slot_of w e

theorem mapChSel (h : Nat) (v : Word) : Statement (.mapChSel h v) := fun w _ e => slot_of w e

theorem actChSel (h : Nat) (v : Word) : Statement (.actChSel h v) := fun w _ e => slot_of w e

theorem gnsSlotSel (h : Nat) (v : Word) : Statement (.gnsSlotSel h v) := fun w _ e => slot_of w e

theorem alarmFlagClear (h : Nat) (flags : Nat) : Statement (.alarmFlagClear h flags) := fun w _ e => slot_and w e

theorem clrCov (h : Nat) : Statement (.clrCov h) := fun w _ e => slot_of w e

theorem clrExc (h : Nat) : Statement (.clrExc h) := fun w _ e => slot_of w e

theorem clrZone (h : Nat) : Statement (.clrZone h) := fun w _ e => slot_of w e

theorem clrAll (h : Nat) : Statement (.clrAll h) := fun w _ e => slot_of w e

theorem mapClearDone : Statement .mapClearDone := fun _ _ e => nomatch e

theorem rasterGo (h : Nat) : Statement (.rasterGo h) := fun w _ e => slot_of w e

theorem rasterPassEnd : Statement .rasterPassEnd := fun _ _ e => nomatch e

theorem tableRead (h : Nat) : Statement (.tableRead h) := fun w _ e => slot_of w e

theorem tableWrite (h : Nat) : Statement (.tableWrite h) := fun w _ e => slot_of w e

theorem lease (h : Nat) : Statement (.lease h) := fun w _ e => slot_of w e

theorem release (h : Nat) : Statement (.release h) := fun w _ e => slot_of w e

theorem eventPost (h : Nat) : Statement (.eventPost h) := fun w _ e => slot_of w e

theorem eventCancel (h : Nat) : Statement (.eventCancel h) := fun w _ e => slot_of w e

theorem tileRead (h : Nat) : Statement (.tileRead h) := fun w _ e => slot_of w e

theorem tileWrite (h : Nat) : Statement (.tileWrite h) := fun w _ e => slot_of w e

theorem gnsMeasRead (h : Nat) : Statement (.gnsMeasRead h) := fun w _ e => slot_of w e

theorem gnsNavRead (h : Nat) : Statement (.gnsNavRead h) := fun w _ e => slot_of w e

theorem rtcmWrite (h : Nat) : Statement (.rtcmWrite h) := fun w _ e => slot_of w e

theorem canSend (h : Nat) : Statement (.canSend h) := fun w _ e => slot_of w e

theorem canRecv (h : Nat) : Statement (.canRecv h) := fun w _ e => slot_of w e

theorem canAbort (h : Nat) : Statement (.canAbort h) := fun w _ e => slot_of w e

theorem recRead (h : Nat) : Statement (.recRead h) := fun w _ e => slot_of w e

theorem recFreeze (h : Nat) : Statement (.recFreeze h) := fun w _ e => slot_of w e

theorem recChallenge (h : Nat) : Statement (.recChallenge h) := fun w _ e => slot_of w e

theorem recClear (h : Nat) : Statement (.recClear h) := fun w _ e => slot_of w e

theorem fwInfo (h : Nat) : Statement (.fwInfo h) := fun w _ e => slot_of w e

theorem fwBegin (h : Nat) : Statement (.fwBegin h) := fun w _ e => slot_of w e

theorem fwData (h : Nat) : Statement (.fwData h) := fun w _ e => slot_of w e

theorem fwEnd (h : Nat) (x : ImageHead) : Statement (.fwEnd h x) := fun w _ e => slot_of w e

theorem fwActivate (h : Nat) : Statement (.fwActivate h) := fun w _ e => slot_of w e

theorem fwCommit (h : Nat) : Statement (.fwCommit h) := fun w _ e => slot_of w e

theorem cfgSave (h : Nat) : Statement (.cfgSave h) := fun w _ e => slot_of w e

theorem cfgErase (h : Nat) : Statement (.cfgErase h) := fun w _ e => slot_of w e

theorem keySet (h : Nat) : Statement (.keySet h) := fun w _ e => slot_of w e

theorem sysReset (h : Nat) : Statement (.sysReset h) := fun w _ e => slot_of w e

theorem resetEnded (t : Nat) (bootSelLow : Bool) : Statement (.resetEnded t bootSelLow) := fun _ _ e => nomatch e

theorem phyLinkChange (p : Nat) (up : Bool) (sqi : Nat) (t : Nat) : Statement (.phyLinkChange p up sqi t) := fun _ _ e => nomatch e

theorem pwmCmpEvent (g : Nat) (p : Nat) : Statement (.pwmCmpEvent g p) := fun _ _ e => nomatch e

theorem pwmPrdEvent (g : Nat) : Statement (.pwmPrdEvent g) := fun _ _ e => nomatch e

theorem chopPeriod (g : Nat) (t : Nat) (l : List (Nat × Nat)) : Statement (.chopPeriod g t l) := fun _ _ e => nomatch e

theorem ppsPulseEnd (x : Nat) (t : Nat) : Statement (.ppsPulseEnd x t) := fun _ _ e => nomatch e

theorem emuOutputEdge (k : Nat) (t : Nat) : Statement (.emuOutputEdge k t) := fun _ _ e => nomatch e

theorem speedSignalEdge (i : Nat) (dir : Bool) (level : Bool) (t : Nat) : Statement (.speedSignalEdge i dir level t) := fun _ _ e => nomatch e

theorem fwEraseDone : Statement .fwEraseDone := fun _ _ e => nomatch e

theorem cfgSaveDone : Statement .cfgSaveDone := fun _ _ e => nomatch e

theorem addressAgeing (mac : Nat) (t : Nat) : Statement (.addressAgeing mac t) := fun _ _ e => nomatch e

theorem ptpMasterLoss (i : Nat) (t : Nat) : Statement (.ptpMasterLoss i t) := fun _ _ e => nomatch e

theorem syncInterval (i : Nat) (t : Nat) : Statement (.syncInterval i t) := fun _ _ e => nomatch e

end Sys2Proof.Laws.HostSlot
end

