-- ==== Sys2Proof/Machine/Pins.lean ====
section
/-!
DEFINITION. Sys2Proof/Machine/Pins.lean: the ball map (R475, R476) and what the device puts on each ball in every state (R479, R480,
with the tables of R192, R198, R278, R297, R301, R349, R379, R410, R439, R452 and R465). Every state of a pin is a function of State:
no pin has a memory of its own.
-/
namespace Sys2Proof.Machine

/-- The names of the balls (R476). -/
inductive Ball where
  | drvLs (n : Nat)
  | drvHs (g : Nat)
  | vbat (g : Nat)
  | pgnd
  | gnd
  | agnd
  | vcore
  | vaux
  | vio
  | dnu
  | outEnA
  | outEnBN
  | pwmH (g p : Nat)
  | pwmL (g p : Nat)
  | pwmTrip (g i : Nat)
  | encClk (p : Nat)
  | encDat (p : Nat)
  | encA (p : Nat)
  | encB (p : Nat)
  | encZ (p : Nat)
  | whlA (w : Nat)
  | whlB (w : Nat)
  | spdIn (i : Nat)
  | spdDir (i : Nat)
  | emuA (k : Nat)
  | emuB (k : Nat)
  | plsIn (f : Nat)
  | ain (a : Nat)
  | canTx (x : Nat)
  | canRx (x : Nat)
  | hifSck
  | hifMosi
  | hifMiso
  | hifCsN
  | hifIrqN
  | imuSck
  | imuMosi
  | imuMiso
  | imuCsN
  | imuDrdy
  | avsClk
  | avsMdata
  | avsSdata
  | resetN
  | bootSelN
  | bypCoil
  | bypSense
  | pps (x : Nat)
  /-- Transmit and receive pairs of port `p` of ring `r`, positive or negative line. -/
  | ringTx (r p : Nat) (pos : Bool)
  | ringRx (r p : Nat) (pos : Bool)
  | eth (p : Nat) (pos : Bool)
  | antRf (q : Nat)
  | antVbias
  deriving DecidableEq, Repr

/-! ### The ball map (R475, R476) -/

/-- A row of eight balls of a ring, from column 23 on. -/
def ringBall (r c : Nat) : Ball :=
  let k := c - 23
  if k / 2 % 2 = 0 then .ringTx r (k / 4) (k % 2 = 0) else .ringRx r (k / 4) (k % 2 = 0)

/-- Row 15. -/
def row15 (c : Nat) : Ball :=
  if c ≤ 8 then .encZ (c - 1)
  else if c ≤ 16 then if c % 2 = 1 then .whlA ((c - 9) / 2) else .whlB ((c - 9) / 2)
  else if c ≤ 20 then if c % 2 = 1 then .spdIn ((c - 17) / 2) else .spdDir ((c - 17) / 2)
  else if c ≤ 24 then if c % 2 = 1 then .emuA ((c - 21) / 2) else .emuB ((c - 21) / 2)
  else .plsIn (c - 25)

/-- Row 14. -/
def row14 (c : Nat) : Ball := match (c - 1) % 4 with
  | 0 => .encClk ((c - 1) / 4)
  | 1 => .encDat ((c - 1) / 4)
  | 2 => .encA ((c - 1) / 4)
  | _ => .encB ((c - 1) / 4)

/-- Columns 1 to 10 of rows 16 to 27. -/
def leftBall (r c : Nat) : Ball :=
  if r ≤ 17 then if c ≤ 8 then .ain (8 * (r - 16) + c - 1) else .agnd
  else if r ≤ 19 then .agnd
  else if r = 20 then
    if 8 < c then .gnd else if c % 2 = 1 then .canTx ((c - 1) / 2) else .canRx ((c - 1) / 2)
  else if r = 21 then
    [Ball.hifSck, .hifMosi, .hifMiso, .hifCsN, .hifIrqN, .imuSck, .imuMosi, .imuMiso, .imuCsN, .imuDrdy].getD (c - 1) .gnd
  else if r = 22 then
    [Ball.avsClk, .avsMdata, .avsSdata, .resetN, .bootSelN, .bypCoil, .bypSense, .pps 0, .pps 1].getD (c - 1) .gnd
  else if r ≤ 24 then .vio
  else if r ≤ 26 then .vaux
  else .gnd

/-- Columns 23 to 32 of rows 16 to 27. -/
def rightBall (r c : Nat) : Ball :=
  if (r = 22 ∨ r = 18) ∧ c ≤ 30 then ringBall (if r = 22 then 0 else 1) c
  else if r = 20 ∧ (c = 24 ∨ c = 25) then .eth 0 (c = 24)
  else if r = 20 ∧ (c = 29 ∨ c = 30) then .eth 1 (c = 29)
  else if r = 24 ∧ c = 26 then .antRf 0
  else if r = 24 ∧ c = 30 then .antRf 1
  else if r = 27 ∧ c ≤ 24 then .antVbias
  else .gnd

/-- The ball at a row and a column, both 1 to 32 (R475, R476). -/
def ballAt (r c : Nat) : Ball :=
  if r ≤ 3 then .drvLs (c - 1)
  else if r ≤ 5 then .drvHs ((c - 1) / 4)
  else if r ≤ 7 then .vbat ((c - 1) / 4)
  else if r ≤ 10 then .pgnd
  else if r = 11 then if c = 16 then .outEnA else if c = 17 then .outEnBN else .gnd
  else if r = 12 then if c % 4 = 0 then .pwmTrip ((c - 1) / 4) 0 else .pwmH ((c - 1) / 4) ((c - 1) % 4)
  else if r = 13 then if c % 4 = 0 then .pwmTrip ((c - 1) / 4) 1 else .pwmL ((c - 1) / 4) ((c - 1) % 4)
  else if r = 14 then row14 c
  else if r = 15 then row15 c
  else if r ≤ 27 then
    if c ≤ 10 then leftBall r c
    else if c ≤ 22 then if (r + c) % 2 = 0 then .vcore else .gnd
    else rightBall r c
  else if r = 32 ∧ c ≤ 16 then .dnu
  else .gnd

/-! ### What a pin does -/

/-- What the device puts on a ball. -/
inductive PinState where
  | highZ
  /-- An input that acts, or one that is ignored; `pullUp`: its pull-up to VIO is on. -/
  | input (acts pullUp : Bool)
  /-- Driven to a steady logic level. -/
  | level (high : Bool)
  /-- Driven through a transfer or by a line coder: the wave itself is not held. -/
  | wave
  /-- An open drain that pulls low. -/
  | openLow
  /-- A high-side switch, closed or open with 10 kΩ to PGND. -/
  | highSide (closed : Bool)
  /-- Low-side and freewheel switches and the off-state diagnostic sink; the clamp is always active. -/
  | lowSide (low freewheel sink : Bool)
  /-- A ring transmitter: cycles, idle characters, or differential zero at common-mode level. -/
  | cycles
  | idleChars
  | zero
  /-- A terminated ring receiver, on or ignored. -/
  | receiver (on : Bool)
  /-- An analogue input, converted or not. -/
  | analogue (converted : Bool)
  /-- A radio input with its antenna bias switch: the current limit in mA while it is closed. -/
  | radio (bias : Option Nat)
  | supply
  deriving DecidableEq, Repr

/-- VIO lies below its brown-out threshold: the device is unpowered, whatever the other supplies are (R480). -/
def unpowered (s : State) : Bool :=
  s.sys.inReset && s.sys.sources.testBit 2 && decide (s.mon.borMark.map (·.1) = some 3)

/-- A block of the data path is in reset: until step 7 of R454, and by its bit of CLK_BRST (R450). -/
def held (s : State) (k : Nat) : Bool := !s.sys.running || (s.sys.brst.map (·.1)).contains k

/-- The level of a PWM pin at an instant: H and L are high from the instants that the pair holds (R263). -/
def pwmPin (s : State) (g p t : Nat) (upper : Bool) : PinState :=
  let x := (pwmAt s g).pairs.getD p PwmPair.reset
  if held s 8 || !x.driven then .highZ
  else match (if upper then x.h else x.l) with
    | some a => .level (decide (a ≤ 32 * t))
    | none => .level false

/-- The driver pins (R192). -/
def lowSidePin (s : State) (n : Nat) : PinState :=
  let x := drvCh s (leadCh s n)
  if held s 4 then .lowSide false false false
  else .lowSide x.coil x.sensed (!x.isOpen && !x.sensed && flag s (DRV_CH_MODE_DIAG_OFF n))

/-- The ring transmitters (R198). -/
def ringPin (s : State) (r : Nat) : PinState :=
  if held s (5 + r) then .zero else if flag s (FJL_CTRL_EN r) then .cycles else .idleChars

/-- PPS outputs: active until the end of the pulse, else inactive; low in reset (R334, R337, R349). -/
def ppsPin (s : State) (x t : Nat) : PinState :=
  if held s 32 then .level false
  else
    let active := match (ppsOut s x).stop with
      | some u => decide (absTick s t < u)
      | none => false
    .level (active != flag s (TIM_PPS_CFG_POL x))

/-- AVS_CLK and AVS_MDATA: driven in a transfer and idle high; high impedance in reset but for the write of R436 (R439). -/
def avsPin (s : State) : PinState :=
  if s.sys.inReset then .highZ
  else if flag s MON_STAT_BUSY then .wave
  else if s.sys.running then .level true else .highZ

/-- The state of a ball of a powered device at instant `t`. -/
def livePin (s : State) (t : Nat) : Ball → PinState
  | .drvLs n => lowSidePin s n
  | .drvHs g => .highSide (!held s 4 && flag s (DRV_GRP_STAT_HS_ON g))
  | .outEnA => .input true false
  | .outEnBN => .input true true
  | .pwmH g p => pwmPin s g p t true
  | .pwmL g p => pwmPin s g p t false
  | .pwmTrip _ _ => .input (!held s 8) false
  | .encClk _ => if held s 9 then .highZ else .level true
  | .encDat _ | .encA _ | .encB _ | .encZ _ | .whlA _ | .whlB _ | .spdIn _ | .spdDir _ | .imuMiso | .imuDrdy => .input (!held s 9) false
  | .emuA k => .level (!held s 9 && flag s (ENC_EMU_CFG_EN k) && (emuAt s k).a)
  | .emuB k => .level (!held s 9 && flag s (ENC_EMU_CFG_EN k) && (emuAt s k).b)
  | .plsIn f => .input (!held s 9) (!held s 9 && flag s (SNS_PLS_CFG_PU f))
  | .ain _ => .analogue (!held s 9)
  | .imuSck | .imuMosi | .imuCsN => if !held s 9 && flag s SNS_IMU_CFG_EN then .wave else .highZ
  | .canTx x => if held s (16 + x) || !flag s (CAN_CTRL_EN x) then .level true else .wave
  | .canRx x => .input (!held s (16 + x) && flag s (CAN_CTRL_EN x)) false
  | .hifSck | .hifMosi => .input (!s.sys.inReset) false
  | .hifCsN => .input (!s.sys.inReset) true
  | .hifMiso => .highZ
  | .hifIrqN =>
    if !s.sys.inReset && (match spiSlot s with
      | some h => !(slotOf s h).unrel.isEmpty
      | none => false) then .openLow else .highZ
  | .avsClk | .avsMdata => avsPin s
  | .avsSdata => .input (!s.sys.inReset) false
  | .resetN => .input true true
  | .bootSelN => .input (decide (s.sys.phase = .loading)) true
  | .bypCoil => .level (!held s 10 && flag s ETH_BYP_STAT_COIL)
  | .bypSense => .input true true
  | .pps x => ppsPin s x t
  | .ringTx r _ _ => ringPin s r
  | .ringRx r _ _ => .receiver (!held s (5 + r))
  | .eth _ _ => if held s 10 then .highZ else .wave
  | .antRf q => .radio (if flag s (GNS_ANT_CFG_BIAS_EN q) && (biasShort s q).isNone then some (getF s (GNS_ANT_CFG_ILIM q)) else none)
  | .vbat _ | .pgnd | .gnd | .agnd | .vcore | .vaux | .vio | .dnu | .antVbias => .supply

/-- The state of a ball of an unpowered device: nothing is driven, the switches are held open and the clamps stay active. -/
def deadPin : Ball → PinState
  | .drvLs _ => .lowSide false false false
  | .drvHs _ => .highSide false
  | .antRf _ => .radio none
  | .vbat _ | .pgnd | .gnd | .agnd | .vcore | .vaux | .vio | .dnu | .antVbias => .supply
  | _ => .highZ

/-- What the device puts on a ball at instant `t` (R479, R480). HIF_MISO is driven only inside a transaction, which is one row. -/
def pinAt (s : State) (t : Nat) (b : Ball) : PinState := if unpowered s then deadPin b else livePin s t b

/-! ### The package (R490, R494): what the system designer's figures come to -/

/-- Energy of one release into the clamp, nJ: coil µH, current mA, supply mV below 50 V; the clamp at its minimum of 50 V. -/
def clampEnergy (coil current supply : Nat) : Nat := coil * current * current * 50000 / (2 * 1000 * (50000 - supply))

/-- Highest junction temperatures of the logic die and the driver die, 0.1 °C: case 0.1 °C, dissipations mW. -/
def junctions (tc : Int) (logic drv : Nat) : Int × Int :=
  (tc + (12 * logic + 6 * drv : Nat) / 1000, tc + (6 * logic + 20 * drv : Nat) / 1000)

end Sys2Proof.Machine
end

