-- ==== Sys2Proof/Safety.lean ====
section
/-!
DEFINITION. Sys2Proof/Safety.lean: which commands the block takes in a state, what a healthy state is, and what it is for the block's
outputs to be down. The statements speak in these terms.
-/
namespace Sys2Proof.Machine

/-- What the command says of the moment fits the state: its instant `t` lies in the step that runs, and a received burst
or navigation unit has the length that is asked for (R293, R315). -/
def fits (i : Instr) (s : State) : Bool :=
  match i with
  | .powerUp _ => true
  | .resetN t _ => inThisStep s t
  | .brownOut _ t => inThisStep s t
  | .brownOutRelease t => inThisStep s t
  | .thermalShutdown _ t => inThisStep s t
  | .thermalShutdownRelease t => inThisStep s t
  | .vcoreOvervoltage _ => true
  | .tcxoMissing t => inThisStep s t
  | .tcxoPresent t => inThisStep s t
  | .pllLock _ t => inThisStep s t
  | .pllUnlock _ t => inThisStep s t
  | .lockstepError t => inThisStep s t
  | .heartbeatTimeout t => inThisStep s t
  | .firmwareRestart => true
  | .imageVerified t => inThisStep s t
  | .enableLoss _ _ t => inThisStep s t
  | .enableRestored => true
  | .kinematicStep _ _ => true
  | .retainTimeout _ => true
  | .confirmTimeout _ => true
  | .mismatchSet _ => true
  | .gnssLost => true
  | .standstill => true
  | .hitchEncoderFail => true
  | .hitchEncoderReturn => true
  | .drLimitPassed => true
  | .edgeFire _ => true
  | .peakCurrentReached _ _ _ _ => true
  | .peakEnd _ => true
  | .gridRise _ => true
  | .pulseFall _ => true
  | .sensedReleaseEnd _ => true
  | .motionReport _ _ _ => true
  | .windowClose _ _ _ => true
  | .openLoadOn _ _ => true
  | .openLoadOff _ => true
  | .lsOvercurrent _ _ => true
  | .shortToGround _ _ => true
  | .hsOvercurrent _ _ => true
  | .chOvertemp _ _ => true
  | .tempWarning _ => true
  | .hsOvertemp _ _ => true
  | .groupUndervoltage _ _ => true
  | .groupOvervoltage _ _ => true
  | .autoProtectionRelease _ _ _ => true
  | .kettleTick _ => true
  | .kettleEvaluation _ => true
  | .drvEn _ _ => true
  | .groupEn _ _ _ => true
  | .resume _ _ => true
  | .resumeAll _ => true
  | .drvModeWrite _ _ _ => true
  | .pairWrite _ _ _ => true
  | .protectionFlagClear _ _ _ _ => true
  | .ringCycle _ _ => true
  | .ringBreak _ _ => true
  | .reportAreaTimeout _ _ => true
  | .tagRelease _ _ _ => true
  | .fjlEn _ _ _ => true
  | .heal _ _ => true
  | .fjlResumeAll _ _ => true
  | .ringSafeWrite _ _ _ => true
  | .nodeResume _ _ _ => true
  | .nodeClrFlt _ _ _ => true
  | .chApply _ _ => true
  | .loopSample _ => true
  | .loopOutput _ => true
  | .saturationAlarm _ => true
  | .loopModeWrite _ _ _ => true
  | .cleEn _ _ => true
  | .injGo _ _ => true
  | .injStop _ => true
  | .injectionEnd => true
  | .capArm _ _ => true
  | .capAbort _ => true
  | .periodBoundary _ => true
  | .shadowWrite _ _ _ _ _ => true
  | .pwmLoadall _ _ => true
  | .pwmStart _ _ _ => true
  | .pwmTrip _ => true
  | .tripClear _ _ _ => true
  | .pwmResume _ _ => true
  | .delayLineLock _ => true
  | .serialReadStart _ => true
  | .serialReadDone _ _ => true
  | .quadTransition _ _ _ _ _ => true
  | .indexEdge _ _ _ _ => true
  | .speedWindowEnd _ => true
  | .wheelPulse _ _ _ _ _ => true
  | .flowEdge _ _ _ => true
  | .portModeWrite _ _ _ => true
  | .portFaultClear _ _ _ => true
  | .ainConversion _ _ => true
  | .ainFault _ => true
  | .ainFaultClear _ => true
  | .imuDrdy _ b => decide (b.length = getF s SNS_IMU_BURST_LEN)
  | .imuTimeout _ => true
  | .imuXferWrite _ _ _ => true
  | .imuXferRead _ _ _ => true
  | .measEpoch t _ _ _ _ _ => inThisStep s t
  | .solution t _ => inThisStep s t
  | .acqDwell _ _ => true
  | .aidedSearch _ t _ _ => inThisStep s t
  | .pullinToTrack _ _ => true
  | .trackLoss _ t _ => inThisStep s t
  | .lostHoldExpiry _ t => inThisStep s t
  | .navUnit i unit _ _ _ b _ => (unit = 0 || decide ((gnsAt s i).sig = 2)) && decide (b.length = unitBits (gnsAt s i).sig unit)
  | .antOpen _ => true
  | .antShort _ t => inThisStep s t
  | .biasReclose _ t => inThisStep s t
  | .correctionAgeExceeded t => inThisStep s t
  | .sourceHoldExpiry t => inThisStep s t
  | .gnsRst _ => true
  | .slotPin _ _ => true
  | .ppsPulse _ t => inThisStep s t
  | .holdoverEntry t => inThisStep s t
  | .holdoverLimit t => inThisStep s t
  | .leapSecond t => inThisStep s t
  | .tbSnap _ => true
  | .tbSet _ _ _ => true
  | .tbStep _ _ _ _ => true
  | .tbSlew _ _ _ => true
  | .stepAtSecond _ t => inThisStep s t
  | .slewComplete _ t => inThisStep s t
  | .ethFrameRx f => inThisStep s f.rx
  | .insert _ => true
  | .autoInsert => true
  | .bypSenseChange _ t => inThisStep s t
  | .insertionComplete => true
  | .linkTimeout t => inThisStep s t
  | .relayFault t => inThisStep s t
  | .bypass _ => true
  | .linkLoss => true
  | .relayFaultClear _ => true
  | .canEn _ _ _ => true
  | .busSync _ => true
  | .canFrameRx _ t _ _ => inThisStep s t
  | .txAttemptEnd _ t _ _ _ => inThisStep s t
  | .canError _ t _ _ _ _ => inThisStep s t
  | .transmitAtTime _ _ t => inThisStep s t
  | .lateWinExpiry _ _ t => inThisStep s t
  | .ttSlot _ _ t => inThisStep s t
  | .ttWindowExpiry _ _ t => inThisStep s t
  | .boDelayExpiry _ t => inThisStep s t
  | .recover _ _ => true
  | .recoveryDone _ => true
  | .addressClaimed _ => true
  | .addressLost => true
  | .nextSearchDone => true
  | .recordWritten => true
  | .freezeTmo t => inThisStep s t
  | .clearDone => true
  | .lockoutEnd t => inThisStep s t
  | .nonceExpiry t => inThisStep s t
  | .opsecSave => true
  | .monSample _ => true
  | .limitReached _ => true
  | .limitLeft _ => true
  | .slackRun _ => true
  | .avsEvaluation => true
  | .avsReadback _ _ => true
  | .avsModeWrite _ _ _ => true
  | .logicDissipation _ _ => true
  | .lifeDrift => true
  | .crossTimeout _ _ => true
  | .crossResync _ _ => true
  | .blockReset _ _ => true
  | .blockResetRelease _ => true
  | .winRead _ t => inThisStep s t
  | .winWrite _ t => inThisStep s t
  | .winAck _ t => inThisStep s t
  | .windowFreeze _ _ t => inThisStep s t
  | .reqWrite _ t => inThisStep s t
  | .rspRead _ t => inThisStep s t
  | .udpDatagram _ _ _ t => inThisStep s t
  | .canbSegment _ t => inThisStep s t
  | .segmentTimeout t => inThisStep s t
  | .keepAliveExpiry _ t => inThisStep s t
  | .tcConnect => true
  | .tcDisconnect => true
  | .nop _ => true
  | .identify _ => true
  | .attach _ => true
  | .detach _ => true
  | .fence _ => true
  | .rspRepeat _ => true
  | .notifyCfg _ => true
  | .paramRead _ => true
  | .paramWrite _ => true
  | .stateWordWrite _ _ _ _ => true
  | .kinEn _ _ => true
  | .schEn _ _ => true
  | .mapEn _ _ => true
  | .kinChSel _ _ => true
  | .schSlotSel _ _ => true
  | .schChSel _ _ => true
  | .mapChSel _ _ => true
  | .actChSel _ _ => true
  | .gnsSlotSel _ _ => true
  | .alarmFlagClear _ _ => true
  | .clrCov _ => true
  | .clrExc _ => true
  | .clrZone _ => true
  | .clrAll _ => true
  | .mapClearDone => true
  | .rasterGo _ => true
  | .rasterPassEnd => true
  | .tableRead _ => true
  | .tableWrite _ => true
  | .lease _ => true
  | .release _ => true
  | .eventPost _ => true
  | .eventCancel _ => true
  | .tileRead _ => true
  | .tileWrite _ => true
  | .gnsMeasRead _ => true
  | .gnsNavRead _ => true
  | .rtcmWrite _ => true
  | .canSend _ => true
  | .canRecv _ => true
  | .canAbort _ => true
  | .recRead _ => true
  | .recFreeze _ => true
  | .recChallenge _ => true
  | .recClear _ => true
  | .fwInfo _ => true
  | .fwBegin _ => true
  | .fwData _ => true
  | .fwEnd _ _ => true
  | .fwActivate _ => true
  | .fwCommit _ => true
  | .cfgSave _ => true
  | .cfgErase _ => true
  | .keySet _ => true
  | .sysReset _ => true
  | .resetEnded t _ => inThisStep s t
  | .phyLinkChange _ _ _ t => inThisStep s t
  | .pwmCmpEvent _ _ => true
  | .pwmPrdEvent _ => true
  | .chopPeriod _ _ _ => true
  | .ppsPulseEnd _ t => inThisStep s t
  | .emuOutputEdge _ _ => true
  | .speedSignalEdge _ _ _ _ => true
  | .fwEraseDone => true
  | .cfgSaveDone => true
  | .addressAgeing _ t => inThisStep s t
  | .ptpMasterLoss _ t => inThisStep s t
  | .syncInterval _ t => inThisStep s t

/-- The block takes the command: its operands name instances and fit the moment. -/
def admits (i : Instr) (s : State) : Bool := i.wf && fits i s


/-- A command answers a next state with a property. -/
def answers (i : Instr) (s : State) (p : State → Prop) : Prop := ∃ t, exec i s = .next t ∧ p t

/-- Registers and tables are in canonical form: indexes strictly rise and no entry equals its reset value. -/
def State.canonical (s : State) : Bool := sparseWf regReset s.regs && sparseWf zeroEntry s.tables

/-- The parts of the state beside the command queue. -/
inductive Part where
  | regs | tables | kin | sys | boot | mon | hif | recd | sch | map | act | drv | fjl | pwm | cle | enc | gns | tim | eth | can | now | free
  deriving DecidableEq, Repr

/-- Two states agree on a part. -/
def samePart (s t : State) : Part → Prop
  | .regs => t.regs = s.regs
  | .tables => t.tables = s.tables
  | .kin => t.kin = s.kin
  | .sys => t.sys = s.sys
  | .boot => t.boot = s.boot
  | .mon => t.mon = s.mon
  | .hif => t.hif = s.hif
  | .recd => t.recd = s.recd
  | .sch => t.sch = s.sch
  | .map => t.map = s.map
  | .act => t.act = s.act
  | .drv => t.drv = s.drv
  | .fjl => t.fjl = s.fjl
  | .pwm => t.pwm = s.pwm
  | .cle => t.cle = s.cle
  | .enc => t.enc = s.enc
  | .gns => t.gns = s.gns
  | .tim => t.tim = s.tim
  | .eth => t.eth = s.eth
  | .can => t.can = s.can
  | .now => t.now = s.now
  | .free => t.free = s.free

/-- Every part but those named. -/
def allBut (l : List Part) : List Part :=
  [.regs, .tables, .kin, .sys, .boot, .mon, .hif, .recd, .sch, .map, .act, .drv, .fjl, .pwm, .cle, .enc, .gns, .tim, .eth, .can, .now, .free].filter fun p => !l.contains p

/-- The parts of the state that a command can change; every other part it leaves as it is. A host's register write may reach
what any register can set off, so it reaches all but the start-up and the step count. -/
def reach (i : Instr) : List Part :=
  match i with
  | .powerUp _ => allBut []
  | .resetN _ _ => allBut [.gns]
  | .brownOut _ _ => allBut [.gns, .free]
  | .brownOutRelease _ => [.regs, .sys, .boot, .mon, .hif, .recd, .pwm, .cle, .tim, .eth]
  | .thermalShutdown _ _ => allBut [.gns, .free]
  | .thermalShutdownRelease _ => [.regs, .sys, .boot, .mon, .hif, .recd, .pwm, .cle, .tim, .eth]
  | .vcoreOvervoltage _ => [.regs, .mon, .hif, .recd]
  | .tcxoMissing _ => allBut [.gns, .free]
  | .tcxoPresent _ => [.regs, .sys, .boot, .mon, .hif, .recd, .pwm, .cle, .tim, .eth]
  | .pllLock _ _ => [.regs, .sys, .boot, .mon, .hif, .recd, .pwm, .cle, .tim, .eth]
  | .pllUnlock _ _ => allBut []
  | .lockstepError _ => [.regs, .sys, .boot, .hif, .recd, .sch, .act, .drv, .fjl, .pwm, .can, .free]
  | .heartbeatTimeout _ => [.regs, .sys, .boot, .hif, .recd, .sch, .act, .drv, .fjl, .pwm, .can, .free]
  | .firmwareRestart => [.regs, .sys, .boot, .recd, .pwm, .cle, .eth]
  | .imageVerified _ => [.regs, .tables, .sys, .boot, .recd, .act, .pwm, .cle, .tim, .eth, .can, .now]
  | .enableLoss _ _ _ => [.regs, .sys, .recd, .sch, .act, .drv, .fjl, .pwm]
  | .enableRestored => [.sys]
  | .kinematicStep _ _ => allBut []
  | .retainTimeout _ => [.regs, .sch]
  | .confirmTimeout _ => [.regs, .sch]
  | .mismatchSet _ => [.regs, .recd]
  | .gnssLost => [.regs, .kin]
  | .standstill => [.regs, .kin, .free]
  | .hitchEncoderFail => [.regs, .kin]
  | .hitchEncoderReturn => [.regs, .kin]
  | .drLimitPassed => [.regs, .kin]
  | .edgeFire _ => [.regs, .sys, .sch, .act, .drv]
  | .peakCurrentReached _ _ _ _ => [.regs, .tables, .recd, .act]
  | .peakEnd _ => [.regs, .sys, .sch, .act, .drv]
  | .gridRise _ => [.regs, .sys, .sch, .act, .drv]
  | .pulseFall _ => [.regs, .sys, .sch, .act, .drv]
  | .sensedReleaseEnd _ => [.regs, .drv]
  | .motionReport _ _ _ => [.regs, .tables, .recd, .sch, .act, .free]
  | .windowClose _ _ _ => [.regs, .tables, .recd, .act, .drv]
  | .openLoadOn _ _ => [.regs, .sys, .recd, .sch, .act, .drv]
  | .openLoadOff _ => [.regs, .recd, .drv]
  | .lsOvercurrent _ _ => [.regs, .sys, .recd, .sch, .act, .drv]
  | .shortToGround _ _ => [.regs, .sys, .recd, .sch, .act, .drv]
  | .hsOvercurrent _ _ => [.regs, .sys, .recd, .sch, .act, .drv]
  | .chOvertemp _ _ => [.regs, .sys, .recd, .sch, .act, .drv]
  | .tempWarning _ => [.regs, .recd]
  | .hsOvertemp _ _ => [.regs, .sys, .recd, .sch, .act, .drv]
  | .groupUndervoltage _ _ => [.regs, .sys, .recd, .sch, .act, .drv]
  | .groupOvervoltage _ _ => [.regs, .sys, .recd, .sch, .act, .drv]
  | .autoProtectionRelease _ _ _ => [.regs, .drv]
  | .kettleTick _ => [.regs, .drv]
  | .kettleEvaluation _ => [.regs, .sys, .recd, .sch, .act, .drv]
  | .drvEn _ _ => allBut [.boot, .now]
  | .groupEn _ _ _ => allBut [.boot, .now]
  | .resume _ _ => allBut [.boot, .now]
  | .resumeAll _ => allBut [.boot, .now]
  | .drvModeWrite _ _ _ => allBut [.boot, .now]
  | .pairWrite _ _ _ => allBut [.boot, .now]
  | .protectionFlagClear _ _ _ _ => allBut [.boot, .now]
  | .ringCycle _ _ => [.regs, .tables, .recd, .sch, .act, .fjl, .free]
  | .ringBreak _ _ => [.regs, .recd, .fjl]
  | .reportAreaTimeout _ _ => [.regs, .recd, .fjl]
  | .tagRelease _ _ _ => [.fjl]
  | .fjlEn _ _ _ => allBut [.boot, .now]
  | .heal _ _ => allBut [.boot, .now]
  | .fjlResumeAll _ _ => allBut [.boot, .now]
  | .ringSafeWrite _ _ _ => allBut [.boot, .now]
  | .nodeResume _ _ _ => allBut [.boot, .now]
  | .nodeClrFlt _ _ _ => allBut [.boot, .now]
  | .chApply _ _ => allBut [.boot, .now]
  | .loopSample _ => [.regs, .recd, .cle, .free]
  | .loopOutput _ => [.regs, .drv, .fjl, .pwm, .cle]
  | .saturationAlarm _ => [.regs, .recd, .cle]
  | .loopModeWrite _ _ _ => allBut [.boot, .now]
  | .cleEn _ _ => allBut [.boot, .now]
  | .injGo _ _ => allBut [.boot, .now]
  | .injStop _ => allBut [.boot, .now]
  | .injectionEnd => [.regs, .cle]
  | .capArm _ _ => allBut [.boot, .now]
  | .capAbort _ => allBut [.boot, .now]
  | .periodBoundary _ => [.regs, .hif, .pwm]
  | .shadowWrite _ _ _ _ _ => allBut [.boot, .now]
  | .pwmLoadall _ _ => allBut [.boot, .now]
  | .pwmStart _ _ _ => allBut [.boot, .now]
  | .pwmTrip _ => [.regs, .sys, .hif, .recd, .pwm]
  | .tripClear _ _ _ => allBut [.boot, .now]
  | .pwmResume _ _ => allBut [.boot, .now]
  | .delayLineLock _ => [.regs]
  | .serialReadStart _ => [.enc]
  | .serialReadDone _ _ => [.regs, .recd, .enc]
  | .quadTransition _ _ _ _ _ => [.regs, .recd, .enc]
  | .indexEdge _ _ _ _ => [.regs, .sys, .enc]
  | .speedWindowEnd _ => [.regs, .enc]
  | .wheelPulse _ _ _ _ _ => [.regs, .enc]
  | .flowEdge _ _ _ => [.regs, .enc]
  | .portModeWrite _ _ _ => allBut [.boot, .now]
  | .portFaultClear _ _ _ => allBut [.boot, .now]
  | .ainConversion _ _ => [.regs, .recd, .enc]
  | .ainFault _ => [.regs, .recd]
  | .ainFaultClear _ => [.regs]
  | .imuDrdy _ _ => [.regs, .sys, .enc]
  | .imuTimeout _ => [.regs, .recd, .enc]
  | .imuXferWrite _ _ _ => allBut [.boot, .now]
  | .imuXferRead _ _ _ => allBut [.boot, .now]
  | .measEpoch _ _ _ _ _ _ => [.regs, .hif, .gns, .tim]
  | .solution _ _ => [.regs, .kin, .hif, .recd, .gns, .tim]
  | .acqDwell _ _ => [.regs, .gns]
  | .aidedSearch _ _ _ _ => [.regs, .gns]
  | .pullinToTrack _ _ => [.gns]
  | .trackLoss _ _ _ => [.regs, .gns]
  | .lostHoldExpiry _ _ => [.gns]
  | .navUnit _ _ _ _ _ _ _ => [.regs, .hif, .gns, .free]
  | .antOpen _ => [.regs, .hif, .recd]
  | .antShort _ _ => [.regs, .hif, .recd, .gns]
  | .biasReclose _ _ => [.regs, .gns]
  | .correctionAgeExceeded _ => [.regs, .hif, .recd, .gns]
  | .sourceHoldExpiry _ => [.regs]
  | .gnsRst _ => allBut [.boot, .now]
  | .slotPin _ _ => allBut [.boot, .now]
  | .ppsPulse _ _ => [.regs, .sys, .hif, .tim]
  | .holdoverEntry _ => [.regs, .hif, .recd, .tim]
  | .holdoverLimit _ => [.regs, .recd]
  | .leapSecond _ => [.regs, .hif]
  | .tbSnap _ => allBut [.boot, .now]
  | .tbSet _ _ _ => allBut [.boot, .now]
  | .tbStep _ _ _ _ => allBut [.boot, .now]
  | .tbSlew _ _ _ => allBut [.boot, .now]
  | .stepAtSecond _ _ => [.regs, .hif, .recd, .gns, .tim]
  | .slewComplete _ _ => [.regs, .tim]
  | .ethFrameRx _ => [.regs, .hif, .recd, .gns, .tim, .eth]
  | .insert _ => allBut [.boot, .now]
  | .autoInsert => [.regs, .eth]
  | .bypSenseChange _ _ => [.regs, .recd, .eth]
  | .insertionComplete => [.regs, .recd]
  | .linkTimeout _ => [.regs, .recd, .eth]
  | .relayFault _ => [.regs, .recd, .eth]
  | .bypass _ => allBut [.boot, .now]
  | .linkLoss => [.regs, .recd, .eth]
  | .relayFaultClear _ => allBut [.boot, .now]
  | .canEn _ _ _ => allBut [.boot, .now]
  | .busSync _ => [.regs, .can]
  | .canFrameRx _ _ _ _ => [.regs, .kin, .hif, .recd, .can, .free]
  | .txAttemptEnd _ _ _ _ _ => [.regs, .tables, .hif, .recd, .can, .free]
  | .canError _ _ _ _ _ _ => [.regs, .hif, .recd, .can]
  | .transmitAtTime _ _ _ => [.regs, .can]
  | .lateWinExpiry _ _ _ => [.regs, .can]
  | .ttSlot _ _ _ => [.regs, .tables, .can, .free]
  | .ttWindowExpiry _ _ _ => [.regs, .tables, .hif, .recd, .can]
  | .boDelayExpiry _ _ => [.regs]
  | .recover _ _ => allBut [.boot, .now]
  | .recoveryDone _ => [.regs, .hif, .recd, .can]
  | .addressClaimed _ => [.regs]
  | .addressLost => [.regs, .recd]
  | .nextSearchDone => [.regs, .recd]
  | .recordWritten => [.regs, .recd]
  | .freezeTmo _ => [.regs, .recd]
  | .clearDone => [.regs, .hif, .recd]
  | .lockoutEnd _ => [.recd]
  | .nonceExpiry _ => [.recd]
  | .opsecSave => [.regs, .recd]
  | .monSample _ => [.regs, .mon, .hif, .recd]
  | .limitReached _ => [.regs, .mon, .hif, .recd]
  | .limitLeft _ => [.regs, .mon]
  | .slackRun _ => [.regs, .mon, .recd]
  | .avsEvaluation => [.regs, .mon, .hif, .recd]
  | .avsReadback _ _ => [.regs, .mon, .hif, .recd]
  | .avsModeWrite _ _ _ => allBut [.boot, .now]
  | .logicDissipation _ _ => [.regs]
  | .lifeDrift => [.regs, .mon, .recd]
  | .crossTimeout _ _ => [.regs, .hif, .recd]
  | .crossResync _ _ => [.regs, .recd]
  | .blockReset _ _ => allBut [.boot, .now]
  | .blockResetRelease _ => [.sys]
  | .winRead _ _ => [.regs, .hif, .recd, .free]
  | .winWrite _ _ => [.regs, .hif, .recd, .free]
  | .winAck _ _ => [.regs, .hif, .recd, .free]
  | .windowFreeze _ _ _ => [.regs, .hif, .recd, .free]
  | .reqWrite _ _ => [.regs, .hif, .recd, .free]
  | .rspRead _ _ => [.regs, .hif, .recd, .free]
  | .udpDatagram _ _ _ _ => [.regs, .hif]
  | .canbSegment _ _ => [.regs, .hif]
  | .segmentTimeout _ => [.regs, .hif]
  | .keepAliveExpiry _ _ => [.regs, .sys, .boot, .hif, .recd, .sch, .fjl, .pwm, .free]
  | .tcConnect => [.regs, .sys, .hif, .recd, .sch, .fjl, .pwm, .free]
  | .tcDisconnect => [.regs, .sys, .boot, .hif, .recd, .sch, .fjl, .pwm, .free]
  | .nop _ => [.regs, .sys, .hif]
  | .identify _ => [.regs, .sys, .hif]
  | .attach _ => [.regs, .sys, .hif, .recd, .sch, .fjl, .pwm, .free]
  | .detach _ => [.regs, .sys, .boot, .hif, .recd, .sch, .fjl, .pwm, .free]
  | .fence _ => [.regs, .sys, .hif]
  | .rspRepeat _ => [.regs, .sys, .hif]
  | .notifyCfg _ => [.regs, .sys, .hif]
  | .paramRead _ => [.regs, .sys, .mon, .hif, .map]
  | .paramWrite _ => allBut [.boot, .now]
  | .stateWordWrite _ _ _ _ => allBut [.boot, .now]
  | .kinEn _ _ => allBut [.boot, .now]
  | .schEn _ _ => allBut [.boot, .now]
  | .mapEn _ _ => allBut [.boot, .now]
  | .kinChSel _ _ => allBut [.boot, .now]
  | .schSlotSel _ _ => allBut [.boot, .now]
  | .schChSel _ _ => allBut [.boot, .now]
  | .mapChSel _ _ => allBut [.boot, .now]
  | .actChSel _ _ => allBut [.boot, .now]
  | .gnsSlotSel _ _ => allBut [.boot, .now]
  | .alarmFlagClear _ _ => allBut [.boot, .now]
  | .clrCov _ => allBut [.boot, .now]
  | .clrExc _ => allBut [.boot, .now]
  | .clrZone _ => allBut [.boot, .now]
  | .clrAll _ => allBut [.boot, .now]
  | .mapClearDone => [.regs, .hif, .map]
  | .rasterGo _ => allBut [.boot, .now]
  | .rasterPassEnd => [.regs, .recd, .map, .free]
  | .tableRead _ => [.regs, .sys, .hif, .free]
  | .tableWrite _ => [.regs, .tables, .sys, .hif, .act, .fjl]
  | .lease _ => [.regs, .sys, .hif, .recd, .sch, .fjl, .pwm, .free]
  | .release _ => [.regs, .sys, .hif, .recd, .sch, .fjl, .pwm, .free]
  | .eventPost _ => [.regs, .sys, .hif, .recd, .sch, .fjl]
  | .eventCancel _ => [.regs, .sys, .hif, .recd, .sch, .fjl, .free]
  | .tileRead _ => [.regs, .sys, .hif, .map]
  | .tileWrite _ => [.regs, .sys, .hif, .recd, .map, .free]
  | .gnsMeasRead _ => [.regs, .sys, .hif, .free]
  | .gnsNavRead _ => [.regs, .sys, .hif]
  | .rtcmWrite _ => [.regs, .sys, .hif, .recd, .gns]
  | .canSend _ => [.regs, .sys, .hif, .can, .free]
  | .canRecv _ => [.regs, .sys, .hif, .can]
  | .canAbort _ => [.regs, .sys, .hif, .can]
  | .recRead _ => [.regs, .sys, .hif]
  | .recFreeze _ => [.regs, .sys, .hif, .recd]
  | .recChallenge _ => [.regs, .sys, .hif, .recd, .free]
  | .recClear _ => [.regs, .sys, .hif, .recd]
  | .fwInfo _ => [.regs, .sys, .hif]
  | .fwBegin _ => [.regs, .sys, .boot, .hif]
  | .fwData _ => [.regs, .sys, .boot, .hif]
  | .fwEnd _ _ => [.regs, .sys, .boot, .hif, .recd]
  | .fwActivate _ => allBut [.gns, .free]
  | .fwCommit _ => [.regs, .sys, .boot, .hif, .recd]
  | .cfgSave _ => [.regs, .sys, .boot, .hif]
  | .cfgErase _ => [.regs, .sys, .boot, .hif]
  | .keySet _ => [.regs, .sys, .hif, .recd]
  | .sysReset _ => allBut [.gns, .free]
  | .resetEnded _ _ => [.regs, .sys, .boot, .mon, .hif, .recd, .pwm, .cle, .tim, .eth]
  | .phyLinkChange _ _ _ _ => [.regs, .eth]
  | .pwmCmpEvent _ _ => [.regs, .hif, .pwm]
  | .pwmPrdEvent _ => [.regs, .hif, .pwm]
  | .chopPeriod _ _ _ => [.drv]
  | .ppsPulseEnd _ _ => [.tim]
  | .emuOutputEdge _ _ => [.enc]
  | .speedSignalEdge _ _ _ _ => [.regs, .enc]
  | .fwEraseDone => [.regs, .boot, .hif]
  | .cfgSaveDone => [.regs, .boot, .hif, .recd]
  | .addressAgeing _ _ => [.regs, .eth]
  | .ptpMasterLoss _ _ => [.regs, .tim]
  | .syncInterval _ _ => [.regs, .eth]

/-- Every register but those listed reads as before. -/
def regsBut (s t : State) (l : List Nat) : Prop := ∀ j, j ∉ l → rd t j = rd s j

/-- Every part of the state but those listed stands, and so do the commands that wait. -/
def partsBut (s t : State) (l : List Part) : Prop := (∀ p, p ∉ l → samePart s t p) ∧ t.pending = s.pending

/-- The counters that recording an event (R416) and notifying a host (R402) may advance. -/
def tally : List Nat :=
  [REC_CNT_LOST, REC_CNT_FULL, HIF_H_CNT_DROP 0, HIF_H_CNT_DROP 1, HIF_H_CNT_DROP 2, HIF_H_CNT_DROP 3]

/-- Slot `h` exists, is attached, and the firmware serves it. -/
def serves (s : State) (h : Nat) : Prop := h < 4 ∧ attached s h = true ∧ s.sys.phase = .up

end Sys2Proof.Machine
end

