-- ==== Sys2Proof/Certificates/Slice0/Obligations.lean ====
section
/-!
DEFINITION. Sys2Proof/Certificates/Slice0/Obligations.lean: the statements made of the block. `answers c s p` (Safety.lean) says
that command `c` answers a next state with property `p` in state `s`; `regsBut s t l` that every register outside `l` reads in
`t` as in `s`, and `partsBut s t l` that every part of the state outside `l`, and the queue, stands.
-/

open Sys2Proof Sys2Proof.Machine

/-- Slot `h` has been detached (R397). -/
def detached (s t : State) (h : Nat) : Prop :=
  attached t h = false ∧ roleOf t h = 0 ∧ (slotOf t h).ring = [] ∧ (slotOf t h).deferred = [] ∧ (slotOf t h).owed = [] ∧
  rd t (HIF_H_UDP_IP h) = 0 ∧ rd t (HIF_H_UDP_PORT h) = 0 ∧ getF t (HIF_H_NOTE_MASK h) = 0 ∧ (∀ r ∈ allRes, holds t h r.1 r.2 = false) ∧
  t.recd.freeze ≠ some h ∧ (t.boot.update.map (·.slot)) ≠ some h ∧
  ∀ g < 4, g ≠ h → attached t g = attached s g ∧ roleOf t g = roleOf s g ∧ (slotOf t g).ring = (slotOf s g).ring

/-- The frame at the front of a slot's request ring. -/
def front (s : State) (h : Nat) : Frame := (slotOf s h).ring.headD { code := 256, ordered := false, htag := 0, payload := [], seq := 0, reject := 0 }

/-- Its payload. -/
def req (s : State) (h : Nat) : List Byte := (front s h).payload

/-- The front frame of slot `h` has this code, starts now, and nothing stands against it before its command is looked at
(R42, R389, R390, R393), and no other slot has an earlier command to its target (R43). -/
def starts (s : State) (h code : Nat) : Prop :=
  h < 4 ∧ s.sys.phase = .up ∧ (slotOf s h).ring ≠ [] ∧ (front s h).code = code ∧ mayStart s h (front s h) = true ∧
  firstInOrder s h (frameBlocks (front s h)) (front s h).seq = true ∧ precheck s h (front s h) = stOk

/-- What the command works on: the frame has left the ring, and it is known whether the command acts at the coming boundary (R41). -/
def begun (s : State) (h : Nat) : State :=
  { modSlot s h fun x => { x with ring := x.ring.tail } with sys := { s.sys with atBoundary := atNext s (front s h) } }

/-- The last result posted to slot `h`. -/
def lastResult (t : State) (h : Nat) : Option Result := (slotOf t h).unrel.getLast?

/-- The response of the front command of slot `h` as it is kept until it is due. -/
def keptResponse (s : State) (h wait status : Nat) (body : List Byte) : Deferred :=
  { code := (front s h).code, htag := (front s h).htag, wait := wait, status := status, body := body, blocks := frameBlocks (front s h) }

/-- The command has its response with this status and payload: it stands at the end of the slot's results and names the step of now,
or, where the effect comes into force at the coming boundary or an earlier command to the same target has no response yet, it is kept
until then (R40, R41). -/
def responded (s t : State) (h status : Nat) (body : List Byte) : Prop :=
  (answerWait s h (front s h) none status = none → lastResult t h =
    some { code := (front s h).code, status := status, rseq := (slotOf t h).rseq, htag := (front s h).htag, step := stepCnt s, payload := body }) ∧
  (∀ w, answerWait s h (front s h) none status = some w → (slotOf t h).deferred.getLast? = some (keptResponse s h w status body)) ∧
  t.sys.atBoundary = false

/-- It was answered OK. -/
def answered (s t : State) (h : Nat) (body : List Byte) : Prop := responded s t h stOk body ∧ (slotOf t h).ring = (slotOf s h).ring.tail

/-- It was accepted, and its response waits for an event (R391). -/
def accepted (s t : State) (h wait : Nat) (body : List Byte) : Prop :=
  (slotOf t h).deferred = (slotOf s h).deferred ++ [keptResponse s h wait stOk body] ∧
  (slotOf t h).ring = (slotOf s h).ring.tail ∧ (slotOf t h).unrel = (slotOf s h).unrel

/-- No other slot was touched. -/
def otherSlots (s t : State) (h : Nat) : Prop := ∀ g, g ≠ h → slotOf t g = slotOf s g

/-- The payload of the response of the front command of slot `h`, which was OK: of the last result, or of the response kept until it
is due. -/
def bodyOf (s t : State) (h : Nat) : List Byte :=
  if answerWait s h (front s h) none stOk = none then ((lastResult t h).map (·.payload)).getD []
  else ((slotOf t h).deferred.getLast?.map (·.body)).getD []

/-- A write of one flag, as an item. -/
def putFlag (f : Field) (b : Bool) : List WItem := [fieldItem f (bit b 0)]

/-- A write of one field, as an item. -/
def putField (f : Field) (v : Nat) : List WItem := [fieldItem f v]

/-- A write of these items by slot `h` starts at once: no command that was accepted earlier, and no clear of the map, holds it back
(R40, R42, R43, R146). -/
def startsNow (s : State) (h : Nat) (l : List WItem) : Prop := rowStarts s h l = true

/-- A write by slot `h` leaves every part of the state as it is but those listed; of the host interface it only notes the step in
which the slot's last command ran (R42). -/
def wroteBut (s t : State) (h : Nat) (l : List Part) : Prop :=
  partsBut s t (.hif :: l) ∧ t.hif = (modSlot s h fun x => { x with ranIn := some s.now }).hif
/-- What a step is; the idling on an empty queue is the model's choice (log entry 9). -/
def Obligations.StepRunsTheFrontCommand : Prop :=
  (∀ (c : Instr) (s : State) (rest : List Instr), s.pending = c :: rest → step s = exec c { s with pending := rest }) ∧
  (∀ s : State, s.pending = [] → step s = .next s)

/-- Where a command answers at all, and the frame that holds of every command. Stopping at an operand that names no instance is the
model's choice (log entry 5). -/
def Obligations.CommandsAnswerWhereAdmitted : Prop :=
  ∀ (i : Instr) (s : State),
    (admits i s = true → answers i s (fun t => (∀ p, p ∉ reach i → samePart s t p) ∧ t.pending = s.pending ∧ s.free ≤ t.free)) ∧
    (admits i s = false → exec i s = .fault .noInstance)

/-- The invariant of the representation (log entry 1), over every command. -/
def Obligations.EveryStepKeepsTheCanonicalForm : Prop :=
  ∀ s t : State, s.canonical = true → step s = .next t → t.canonical = true

/-- Registers and the reset values that chapter 19 gives them, from every page. -/
def resetSamples : List (Nat × Nat) :=
  [(SYS_ID, 0x73400003), (SYS_SUPV_CTRL, 0x32), (HIF_H_CFG 0, 0x01F400F0), (HIF_H_CFG 3, 0x01F400C2), (HIF_H_STAT 2, 0x04000000),
   (MON_SLACK_CFG, 0x3C145A32), (MON_TLIM 6, 0x7D73), (REC_CTRL, 0xA), (CLK_STAT, 0xF), (CLK_RST_CAUSE, 1), (KIN_CTRL, 0x00760008),
   (KIN_WGT, 0x08104080), (MAP_CTRL, 0xF2), (MAP_THR, 0x4080), (SCH_CTRL, 0xE), (SCH_QUOTA, 0x40), (SCH_CH_STATE 511, 0xB007), (SYS_IMPL_STATE, 0xB000),
   (ACT_CTRL, 2), (DRV_STAT, 0xA), (DRV_CH_PEAK 31, 0x001E07D0), (FJL_CTRL 1, 0x03140000), (CLE_LP_FMT 15, 0x1120), (PWM_GRP_PRD 7, 0x27102710),
   (ENC_PT_WORD 7, 0x14130D0D), (SNS_IMU_MAP, 0x14831040), (GNS_CTRL, 0x3F7), (TIM_TB_SLEWR 3, 0x3E8), (ETH_UDP, 0xB798)]

/-- The reset state. -/
def Obligations.ResetLeavesTheResetValues : Prop :=
  State.reset.pending = [] ∧ State.reset.tables = [] ∧ State.reset.canonical = true ∧
  (∀ e ∈ resetSamples, rd State.reset e.1 = BitVec.ofNat 32 e.2) ∧ (∀ h < 4, attached State.reset h = false ∧ (slotOf State.reset h).ring = []) ∧
  ∀ g < 8, flag State.reset (DRV_GRP_CTRL_EN g) = false ∧ flag State.reset (PWM_GRP_CTRL_EN g) = false

/-- R381, for every command. -/
def Obligations.HostRowsNameOneOfFourSlots : Prop := ∀ i : Instr, Sys2Proof.Laws.HostSlot.Statement i

/-- The PARAM_WRITE at the front of the ring has this one item. -/
def writesOne (s : State) (h : Nat) : Option WItem := match writeReq (req s h) with
  | [w] => if leAt (req s h) 2 2 = 0 then some w else none
  | _ => none

/-- R9. -/
def Obligations.RuleOfUnknownIndices : Prop :=
  (∀ (s : State) (h : Nat), starts s h 0x08 → leAt (req s h) 0 2 = 1 → leAt (req s h) 6 2 = 1 → leAt (req s h) 2 2 < 2 →
    regAssigned (leAt (req s h) 4 2) = false → answers (.paramRead h) s (fun t =>
      responded s t h stUnknownIndex (leBytes 2 1 ++ leBytes 2 0 ++ leBytes 4 0) ∧ regsBut s t [HIF_H_CNT_REJ h] ∧ otherSlots s t h ∧
      partsBut s t [.regs, .sys, .hif])) ∧
  (∀ (s : State) (h : Nat) (w : WItem), starts s h 0x09 → writesOne s h = some w → regAssigned w.idx = false → answers (.paramWrite h) s (fun t =>
    responded s t h stUnknownIndex (leBytes 2 0 ++ leBytes 2 0) ∧ regsBut s t [HIF_H_CNT_REJ h] ∧ otherSlots s t h ∧ partsBut s t [.regs, .sys, .hif]))

/-- The REQ code that an item presents. -/
def newReq (s : State) (w : WItem) : Nat := bitsOf ((rd s w.idx &&& ~~~ w.mask) ||| (w.value &&& w.mask)) 2 0

/-- The code is assigned, and permitted at this level: 0 OFF, 1 AUTO, 2 ON, 3 TEST at channels, 7 INHERIT below the implement. -/
def reqPermitted (r : Res) (q : Nat) : Prop := q < 3 ∨ (q = 3 ∧ r.1 = kCh) ∨ (q = 7 ∧ r.1 ≠ kImpl)

/-- R27. -/
def Obligations.RuleOfStateWords : Prop :=
  ∀ (s : State) (h : Nat) (w : WItem) (r : Res), starts s h 0x09 → writesOne s h = some w → w.resv = false → stateRes w.idx = some r →
    w.mask &&& 7#32 ≠ 0 →
    (holds s h r.1 r.2 = false → answers (.paramWrite h) s (fun t => responded s t h stLease (leBytes 2 0 ++ leBytes 2 0) ∧ regsBut s t [HIF_H_CNT_REJ h])) ∧
    (holds s h r.1 r.2 = true → ¬ reqPermitted r (newReq s w) → answers (.paramWrite h) s (fun t =>
      responded s t h stInvalid (leBytes 2 0 ++ leBytes 2 0) ∧ regsBut s t [HIF_H_CNT_REJ h])) ∧
    (holds s h r.1 r.2 = true → reqPermitted r (newReq s w) → answers (.paramWrite h) s (fun t =>
      responded s t h stOk (leBytes 2 1 ++ leBytes 2 0xFFFF) ∧ rd t w.idx = bitsSet (rd s w.idx) 2 0 (newReq s w)))

/-- R50. -/
def Obligations.RuleOfFrameTables : Prop :=
  ∀ (s : State) (h : Nat) (b : TableId), starts s h 0x0B → reqTable (req s h) = some (.stored b) → (b = .geo ∨ b = .zon) → ownerOrService s h = true →
    ((writeEntries b (req s h)).any fun e => !entryOk s b e.1 e.2) = true →
    answers (.tableWrite h) s (fun t => responded s t h stInvalid [] ∧ t.tables = s.tables ∧ regsBut s t [HIF_H_CNT_REJ h] ∧ otherSlots s t h ∧
      partsBut s t [.regs, .sys, .hif])

/-- R91. -/
def Obligations.RuleOfPassedPosts : Prop :=
  ∀ (s : State) (h : Nat), starts s h 0x10 → roleOf s h ≠ 2 → leAt (req s h) 0 2 = 1 → leAt (req s h) 2 2 = 0 →
    postRefusal s h (postDesc h (((req s h).drop 4).take 16)) = none → passedNow s (resolveDesc s (postDesc h (((req s h).drop 4).take 16))) = true →
    ((resolveDesc s (postDesc h (((req s h).drop 4).take 16))).retain = false → answers (.eventPost h) s (fun t => t.sch.slots = s.sch.slots ∧
      answered s t h (leBytes 2 1 ++ leBytes 2 0 ++ leBytes 4 (2 ^ 22 + stPassed * 2 ^ 18)))) ∧
    (∀ i, (resolveDesc s (postDesc h (((req s h).drop 4).take 16))).retain = true → mayAllocate s (resolveDesc s (postDesc h (((req s h).drop 4).take 16))) = true →
      longestFree s = some i → answers (.eventPost h) s (fun t => (slotAt t i).state ≠ stFree ∧
        (slotAt t i).d = resolveDesc s (postDesc h (((req s h).drop 4).take 16))))

/-- R110. -/
def Obligations.RuleOfCellSize : Prop :=
  (∀ s : State, cellMm s = [50, 100, 200, 250].getD (getF s MAP_CTRL_CELL) 0) ∧ cellMm State.reset = 100 ∧
  (∀ (s : State) (h : Nat) (w : WItem), starts s h 0x09 → ownerOrService s h = true → writesOne s h = some w → w.resv = false → w.idx = MAP_CTRL →
    bitsOf ((rd s MAP_CTRL &&& ~~~ w.mask) ||| (w.value &&& w.mask)) 2 1 ≠ getF s MAP_CTRL_CELL →
    (flag s MAP_CTRL_EN = true ∨ getF s MAP_STAT_TILES ≠ 0 ∨ getF s MAP_STAT_DBLKS ≠ 0) → answers (.paramWrite h) s (fun t =>
      responded s t h stWrong (leBytes 2 0 ++ leBytes 2 0) ∧ regsBut s t [HIF_H_CNT_REJ h] ∧ otherSlots s t h ∧ partsBut s t [.regs, .sys, .hif]))

/-- R194: the model numbers nodes from 0, node `n` being the one with address `n + 1`. -/
def Obligations.RuleOfRingChannels : Prop :=
  (∀ r < 2, ∀ a, 1 ≤ a → a ≤ 30 → ∀ k < 8, chanOf r (a - 1) k = 32 + 240 * r + 8 * (a - 1) + k ∧ ringOf (chanOf r (a - 1) k) = r ∧
    nodeOf (chanOf r (a - 1) k) = a - 1 ∧ nodeCh (chanOf r (a - 1) k) = k) ∧
  (∀ c, (32 ≤ c ∧ c ≤ 271) ↔ (isLocal c = false ∧ ringOf c = 0)) ∧ (∀ c, (272 ≤ c ∧ c ≤ 511) ↔ (isLocal c = false ∧ ringOf c = 1))

/-- R419. -/
def Obligations.RuleOfFreezes : Prop :=
  ∀ (s : State) (h : Nat), starts s h 0x31 → ownerOrService s h = true → leAt (req s h) 1 3 = 0 → inService s = true →
    (leAt (req s h) 0 1 = 1 → s.recd.freeze = none → answers (.recFreeze h) s (fun t => t.recd.freeze = some h ∧ answered s t h ([1#8, 0#8] ++ leBytes 2 s.recd.next))) ∧
    (leAt (req s h) 0 1 = 0 → s.recd.freeze = some h → answers (.recFreeze h) s (fun t => t.recd.freeze = none ∧ answered s t h ([0#8, 0#8] ++ leBytes 2 s.recd.next))) ∧
    (leAt (req s h) 0 1 = 0 → s.recd.freeze ≠ some h → answers (.recFreeze h) s (fun t =>
      answered s t h ([BitVec.ofNat 8 (bit s.recd.freeze.isSome 0), 0#8] ++ leBytes 2 s.recd.next) ∧ t.regs = s.regs ∧ otherSlots s t h ∧ partsBut s t [.sys, .hif])) ∧
    (1 < leAt (req s h) 0 1 → answers (.recFreeze h) s (fun t => responded s t h stInvalid [] ∧ regsBut s t [HIF_H_CNT_REJ h] ∧ otherSlots s t h ∧
      partsBut s t [.regs, .sys, .hif]))

/-- R421. -/
def Obligations.RuleOfChallenges : Prop :=
  (∀ (s : State) (h : Nat), starts s h 0x32 → ownerOrService s h = true → inService s = true →
    (s.recd.key.isSome = true → s.recd.lock = false → answers (.recChallenge h) s (fun t =>
      answered s t h ((List.range 16).map (fun k => Config.randomByte s.free k) ++ leBytes 2 s.recd.next) ∧
      t.recd.nonce = some (h, (List.range 16).map fun k => Config.randomByte s.free k) ∧ t.recd.nonceAt = absTick s (nowTick s) ∧ t.free = s.free + 1)) ∧
    ((s.recd.key = none ∨ s.recd.lock = true) → answers (.recChallenge h) s (fun t => responded s t h stWrong [] ∧ t.recd = s.recd))) ∧
  (∀ (s : State) (g h : Nat) (n : List Byte), s.recd.nonce = some (g, n) → nonceOf s h = if g = h then some n else none) ∧
  (∀ (s : State) (h : Nat), starts s h 0x33 → ownerOrService s h = true → inService s = true → answers (.recClear h) s (fun t => t.recd.nonce = none)) ∧
  (∀ (s : State) (t₀ : Nat), inThisStep s t₀ = true → s.recd.nonceAt + 60 * ticksPerSec ≤ absTick s t₀ → answers (.nonceExpiry t₀) s (fun t => t.recd.nonce = none))

/-- The range or nominal value of each monitored supply, mV, by R500 and R432: V0 to V6 are widened by 5 %. -/
def supplies : List (Nat × Nat) := [(720, 880), (720, 880), (1800, 1800), (3300, 3300), (1100, 1100), (900, 900), (800, 800)]

/-- R500. -/
def Obligations.RuleOfMonitorLimits : Prop :=
  (∀ k < 7, 100 * getF State.reset (MON_VLIM_LO k) = 95 * (supplies.getD k (0, 0)).1 ∧ 100 * getF State.reset (MON_VLIM_HI k) = 105 * (supplies.getD k (0, 0)).2) ∧
  getF State.reset (MON_VLIM_LO 7) = 3000 ∧ getF State.reset (MON_VLIM_HI 7) = 5500 ∧
  ∀ k, 8 ≤ k → k < 16 → getF State.reset (MON_VLIM_LO k) = 6000 ∧ getF State.reset (MON_VLIM_HI k) = 36000

/-- A protection of channel `c` has tripped: condition and hold are noted, its flag is set, its counter has advanced. -/
def chTripped (s t : State) (c k : Nat) (cnt : Field) : Prop :=
  condOf t.drv.chCond c k = true ∧ (chHold t c).testBit k = true ∧ (rd t (DRV_CH_FLT c)).getLsbD k = true ∧
  getF t cnt = min (getF s cnt + 1) (2 ^ 32 - 1)

/-- The output of channel `c` is closed. -/
def chClosed (t : State) (c : Nat) : Prop := (drvCh t c).isOpen = false ∧ getF t (DRV_CH_STAT_STATE c) = 0

/-- A protection of group `g` has tripped, and the group is off. -/
def grpTripped (s t : State) (g k : Nat) (cnt : Field) : Prop :=
  condOf t.drv.grpCond g k = true ∧ (grpHold t g).testBit k = true ∧ (rd t (DRV_GRP_FLT g)).getLsbD k = true ∧
  getF t cnt = min (getF s cnt + 1) (2 ^ 32 - 1) ∧ flag t (DRV_GRP_STAT_HS_ON g) = false ∧ (drvGrp t g).queue = [] ∧
  ∀ c ∈ groupChans g, (drvCh t c).isOpen = false

/-- Trips of channels and groups switch off; warnings set only their flag. R187: open load, low-side overcurrent and overtemperature of a channel. R187: the protections of a group. R187: the two detections that are no protective OFF. -/
def Obligations.DriverTripsAndWarnings : Prop :=
  (∀ (s : State) (c t₀ : Nat), c < 32 →
      ((drvCh s (leadCh s c)).coil = true →
        answers (.openLoadOn c t₀) s (fun t => chTripped s t c 0 DRV_CNT_OL_CNT ∧ ((drvGrp s (groupOf c)).queue = [] → chClosed t c)) ∧
        answers (.lsOvercurrent c t₀) s (fun t => chTripped s t c 2 DRV_CNT_SC_CNT ∧ ((drvGrp s (groupOf c)).queue = [] → chClosed t c))) ∧
      (condOf s.drv.chCond c 3 = false →
        answers (.chOvertemp c t₀) s (fun t => chTripped s t c 3 DRV_CNT_OT_CNT ∧ ((drvGrp s (groupOf c)).queue = [] → chClosed t c)))) ∧
  ((∀ (s : State) (c t₀ : Nat), c < 32 → flag s (DRV_GRP_STAT_HS_ON (groupOf c)) = true →
      (∀ x ∈ groupChans (groupOf c), (drvCh s x).coil = false ∧ (drvCh s x).sensed = false) →
      answers (.shortToGround c t₀) s (fun t => grpTripped s t (groupOf c) 4 DRV_CNT_SC_CNT ∧
        condOf t.drv.chCond c 1 = true ∧ (rd t (DRV_CH_FLT c)).getLsbD 1 = true)) ∧
    (∀ (s : State) (g t₀ : Nat), g < 8 →
      (flag s (DRV_GRP_STAT_HS_ON g) = true → answers (.hsOvercurrent g t₀) s (fun t => grpTripped s t g 2 DRV_CNT_SC_CNT)) ∧
      (condOf s.drv.grpCond g 3 = false → answers (.hsOvertemp g t₀) s (fun t => grpTripped s t g 3 DRV_CNT_OT_CNT)) ∧
      (condOf s.drv.grpCond g 0 = false → answers (.groupUndervoltage g t₀) s (fun t =>
        grpTripped s t g 0 DRV_CNT_SUP_CNT ∧ flag t (DRV_GRP_STAT_UV g) = true)) ∧
      (condOf s.drv.grpCond g 1 = false → answers (.groupOvervoltage g t₀) s (fun t =>
        grpTripped s t g 1 DRV_CNT_SUP_CNT ∧ flag t (DRV_GRP_STAT_OV g) = true)))) ∧
  (∀ (s : State) (c : Nat), c < 32 →
      answers (.tempWarning c) s (fun t =>
        flag t (DRV_CH_FLT_OT_WARN c) = true ∧ (∀ k < 32, k ≠ 4 → (rd t (DRV_CH_FLT c)).getLsbD k = (rd s (DRV_CH_FLT c)).getLsbD k) ∧
        regsBut s t (DRV_CH_FLT c :: tally) ∧ partsBut s t [.regs, .recd]) ∧
      (flag s (DRV_CH_MODE_DIAG_OFF c) = true → flag s (DRV_GRP_STAT_HS_ON (groupOf c)) = true → (drvCh s (leadCh s c)).isOpen = false →
        condOf s.drv.grpCond (groupOf c) 4 = false →
        answers (.openLoadOff c) s (fun t =>
          condOf t.drv.chCond c 1 = true ∧ (rd t (DRV_CH_FLT c)).getLsbD 1 = true ∧
          (∀ k < 32, k ≠ 1 → (rd t (DRV_CH_FLT c)).getLsbD k = (rd s (DRV_CH_FLT c)).getLsbD k) ∧
          t.drv.ch = s.drv.ch ∧ t.drv.chHold = s.drv.chHold ∧
          regsBut s t (DRV_CH_FLT c :: tally) ∧ partsBut s t [.regs, .drv, .recd])))

/-- Edges reach the pin, peaks and pulses end, and the kettle follows the budget. R86, R167, R171, R172, R176: the three kinds of edge. R171 to R174, R150, R151, R153: what the pins report ends or moves on. R178, R189, R190: the thermal budget and the current loop. -/
def Obligations.DriverEdgesPulsesAndKettle : Prop :=
  (∀ (s : State) (c : Nat) (e : Edge), c < 32 → firstEdge s c = some e →
      (e.kind = 0 → unconfigured s c = false → protectedOff s c = false → openOrWaiting s c = false →
        getF s (DRV_CH_MODE_MODE c) = 1 → (drvGrp s (groupOf c)).peak = none → (drvGrp s (groupOf c)).queue = [] → s.sch.edges = [e] →
        answers (.edgeFire c) s (fun t => t.sch.edges = [] ∧ (drvCh t c).isOpen = true ∧ (drvCh t c).te = e.tick ∧
          (drvGrp t (groupOf c)).peak = some (c, e.tick, e.tick + peakTime s c) ∧ getF t (DRV_CH_STAT_STATE c) = 2)) ∧
      (e.kind = 1 → waitingOf s c = none → protectedOff s c = false → (drvCh s c).isOpen = true → (drvGrp s (groupOf c)).peak = none →
        answers (.edgeFire c) s (fun t => t.sch.edges = s.sch.edges.erase e ∧ (drvCh t c).isOpen = false ∧ (drvCh t c).coil = false)) ∧
      (2 ≤ e.kind → getF s (DRV_CH_RMAP_GAIN c) ≠ 0 → 2 ≤ getF s (DRV_CH_MODE_MODE c) →
        answers (.edgeFire c) s (fun t => t.sch.edges = s.sch.edges.erase e ∧
          (drvCh t c).vbase = getI s (DRV_CH_RMAP_OFFSET c) * 65536 + ((e.rate * getF s (DRV_CH_RMAP_GAIN c) : Nat) : Int) ∧
          (drvCh t c).fromRate = true ∧ regsBut s t [DRV_CH_OUT c] ∧ partsBut s t [.regs, .sch, .drv]))) ∧
  ((∀ (s : State) (g c a b : Nat), g < 8 → c < 32 → (drvGrp s g).peak = some (c, a, b) → (drvGrp s g).queue = [] → paired s c = false →
      answers (.peakEnd g) s (fun t => (drvGrp t g).peak = none ∧ getF t (DRV_CH_STAT_STATE c) = 3 ∧
        regsBut s t [DRV_CH_STAT c, DRV_GRP_STAT g] ∧ partsBut s t [.regs, .drv])) ∧
    (∀ (s : State) (c r : Nat), c < 32 → (drvCh s c).isOpen = true → (drvCh s c).coil = true → (drvCh s c).rise = some r →
      (drvCh s c).fall = none → (drvGrp s (groupOf c)).peak = none → waitingOf s c = none → noPulse s c = false → staysOpen s c = false →
      answers (.gridRise c) s (fun t => (drvCh t c).rise = some (riseAfter s c r) ∧ (drvCh t c).fall = some (r + pwmOn s c) ∧
        (drvCh t c).isOpen = true ∧ regsBut s t [] ∧ partsBut s t [.drv])) ∧
    (∀ (s : State) (c f : Nat), c < 32 → (drvCh s c).isOpen = true → (drvCh s c).coil = true → (drvCh s c).fall = some f →
      (∀ r ∈ (drvCh s c).rise, f + tminOf s c ≤ r) → (drvGrp s (groupOf c)).peak = none →
      answers (.pulseFall c) s (fun t => (drvCh t c).coil = false ∧ (drvCh t c).fall = none ∧ (drvCh t c).isOpen = true ∧
        getF t (DRV_CH_STAT_STATE c) = 4)) ∧
    (∀ (s : State) (c : Nat), c < 32 → (drvCh s c).sensed = true → getF s (DRV_CH_STAT_STATE c) = 6 → paired s c = false →
      answers (.sensedReleaseEnd c) s (fun t => (drvCh t c).sensed = false ∧ getF t (DRV_CH_STAT_STATE c) = 0 ∧
        regsBut s t [DRV_CH_STAT c] ∧ partsBut s t [.regs, .drv])) ∧
    (∀ (s : State) (c : Nat) (w : ActWin), c < 32 → winAt s c = some w →
      (∀ t₁ t₀ l, w.dir = 0 → inPeak s c t₁ = true → (∀ x ∈ l, x < 4096) → (∀ f ∈ tongsFind { w with stop := min w.stop t₁ } t₀ l, t₁ < f.seen) →
        answers (.peakCurrentReached c t₁ t₀ l) s (fun t =>
          (t₁ < w.start → winAt t c = some { w with masked := true } ∧ t.regs = s.regs ∧ partsBut s t [.act]) ∧
          (w.start ≤ t₁ → winAt t c = none ∧ (learnAt t c 0).lastRes = 4 ∧ getF t ACT_CNT_MASK_CNT = min (getF s ACT_CNT_MASK_CNT + 1) (2 ^ 32 - 1)))) ∧
      (∀ t₀ l, (∀ x ∈ l, x < 4096) → w.stop ≤ t₀ + perUs * (l.length - 1) → tongsFind w t₀ l = none →
        answers (.windowClose c t₀ l) s (fun t => winAt t c = none ∧ (learnAt t c w.dir).lastRes = (if w.masked then 4 else 3) ∧
          getF t ACT_CNT_MISS_CNT = min (getF s ACT_CNT_MISS_CNT + bit (!w.masked) 0) (2 ^ 32 - 1) ∧ (w.dir = 1 → (drvCh t c).sensed = false)))) ∧
    (∀ (s : State) (c t₀ : Nat) (l : List Nat) (w : ActWin) (f : Feature), c < 32 → (∀ x ∈ l, x < 4096) → (windowsOf s c).head? = some w →
      reportDue w t₀ l = some f → w.knee = none → disturbed s c f.tm = false →
      answers (.motionReport c t₀ l) s (fun t => (windowsOf t c).length + 1 = (windowsOf s c).length ∧
        t.act.waiting = s.act.waiting ++ [{ ch := c, dir := w.dir, m := delayUnits (f.tm - w.te), node := false, modul := w.modul }] ∧
        t.regs = s.regs ∧ partsBut s t [.sch, .act]))) ∧
  ((∀ (s : State) (l : List DrvSum), (∀ x ∈ l, x.n < 32) → answers (.kettleTick l) s (fun t =>
      t.drv.pf = ((s.drv.pf : Int) + roundDiv ((((l.map (sumPower s)).sum : Nat) : Int) - s.drv.pf) (256 * 2 ^ getF s DRV_KET_CFG_TAU)).toNat ∧
      getF t DRV_KET_STAT_PK = min 0xFFFF (((l.map (sumPower s)).sum + 500) / 1000) ∧
      getF t DRV_KET_STAT_PF = min 0xFFFF ((t.drv.pf + 500) / 1000) ∧ t.drv.ch = s.drv.ch ∧ partsBut s t [.regs, .drv])) ∧
    (∀ (s : State) (t₀ : Nat), answers (.kettleEvaluation t₀) s (fun t =>
      getF t DRV_KET_EFF_EFFB = min 255 ((budget s + 50) / 100) ∧
      t.drv.stag = (if s.drv.stag then decide (60 * (budget s * 1000) ≤ 100 * s.drv.pf)
        else flag s DRV_KET_CFG_STAG_EN && decide (75 * (budget s * 1000) ≤ 100 * s.drv.pf)) ∧
      (s.drv.lim = false → flag s DRV_KET_CFG_LIM_EN = true → budget s * 1000 ≤ s.drv.pf → t.drv.lim = true) ∧ t.drv.pf = s.drv.pf)) ∧
    (∀ (s : State) (g t₀ : Nat) (l : List (Nat × Nat)), g < 8 → (∀ x ∈ l, groupOf x.1 = g) →
      answers (.chopPeriod g t₀ l) s (fun t => t.regs = s.regs ∧ partsBut s t [.drv] ∧
        ∀ c < 32, (groupOf c ≠ g ∨ (drvCh s c).isOpen = false ∨ outMode s c ≠ 3) → drvCh t c = drvCh s c)))

/-- Host writes of the drivers; a protection that is released restarts nothing. R188: an automatic protection is released by its condition alone; its flag remains, and the output does not restart. R166, R169, R180, R193: the configuration writes of DRV. R185, R186, R188, R193: re-commands and flag clears. -/
def Obligations.DriverHostWritesAndRelease : Prop :=
  ((∀ (s : State) (c k : Nat), c < 32 → k < 4 → answers (.autoProtectionRelease false c k) s (fun t =>
      condOf t.drv.chCond c k = false ∧ (chHold t c).testBit k = (decide (k ≠ 3) && (chHold s c).testBit k) ∧
      t.drv.ch = s.drv.ch ∧ t.regs = s.regs ∧ partsBut s t [.drv])) ∧
    (∀ (s : State) (g k : Nat), g < 8 → k < 5 → answers (.autoProtectionRelease true g k) s (fun t =>
      condOf t.drv.grpCond g k = false ∧
      (grpHold t g).testBit k = (decide (k = 2 ∨ k = 4) && (grpHold s g).testBit k) ∧
      t.drv.ch = s.drv.ch ∧ (∀ x < 8, rd t (DRV_GRP_FLT x) = rd s (DRV_GRP_FLT x)) ∧ (∀ x < 32, rd t (DRV_CH_FLT x) = rd s (DRV_CH_FLT x)) ∧
      partsBut s t [.regs, .drv]))) ∧
  ((∀ (s : State) (h : Nat) (en : Bool), serves s h → ownerOrService s h = true → (en = false → energisedIn s drvChans = false) →
      startsNow s h (putFlag DRV_CTRL_EN en) → answers (.drvEn h en) s (fun t => flag t DRV_CTRL_EN = en ∧ regsBut s t [DRV_CTRL] ∧ wroteBut s t h [.regs, .sys])) ∧
    (∀ (s : State) (h g : Nat) (en : Bool), serves s h → g < 8 → ownerOrService s h = true → (en = false → energisedIn s (groupChans g) = false) →
      inRange 2 25 (bitsOf (rd s (DRV_GRP_CTRL g)) 12 8) = true → inRange 45 160 (bitsOf (rd s (DRV_GRP_CTRL g)) 23 16) = true →
      startsNow s h (putFlag (DRV_GRP_CTRL_EN g) en) → answers (.groupEn h g en) s (fun t => flag t (DRV_GRP_CTRL_EN g) = en ∧ regsBut s t [DRV_GRP_CTRL g] ∧ wroteBut s t h [.regs, .sys])) ∧
    (∀ (s : State) (h c m : Nat), serves s h → c < 32 → m < 4 → holds s h kCh (leadCh s c) = true → modeIdle s c = true →
      (c % 2 = 1 → flag s (DRV_CH_MODE_PAIR c) = false) →
      startsNow s h (putField (DRV_CH_MODE_MODE c) m) → answers (.drvModeWrite h c m) s (fun t => getF t (DRV_CH_MODE_MODE c) = m ∧ regsBut s t [DRV_CH_MODE c] ∧ wroteBut s t h [.regs, .sys, .drv])) ∧
    (∀ (s : State) (h c : Nat) (p : Bool), serves s h → c < 32 → c % 2 = 0 → holds s h kCh (leadCh s c) = true → modeIdle s c = true →
      (p = true → chUsed s (c + 1) = false ∧ getF s (DRV_CH_MODE_MODE (c + 1)) = 0) →
      startsNow s h (putFlag (DRV_CH_MODE_PAIR c) p) → answers (.pairWrite h c p) s (fun t => flag t (DRV_CH_MODE_PAIR c) = p ∧
        (flag s (DRV_CH_MODE_PAIR c) ≠ p → flag t (DRV_CH_STAT_PAIRED c) = p ∧ flag t (DRV_CH_STAT_PAIRED (c + 1)) = p) ∧
        regsBut s t [DRV_CH_MODE c, DRV_CH_STAT c, DRV_CH_STAT (c + 1)] ∧ wroteBut s t h [.regs, .sys])) ∧
    (∀ (s : State) (h c : Nat), serves s h → c < 32 → c % 2 = 1 → startsNow s h (putFlag (DRV_CH_MODE_PAIR c) true) → answers (.pairWrite h c true) s (fun t => t = s))) ∧
  ((∀ (s : State) (h c : Nat), serves s h → c < 32 → holds s h kCh (leadCh s c) = true → (c % 2 = 1 → flag s (DRV_CH_MODE_PAIR c) = false) →
      enablesOk s = true → s.sys.tripped = false →
      startsNow s h (putFlag (DRV_CH_MODE_RESUME c) true) → answers (.resume h c) s (fun t => flag t (DRV_CH_STAT_FORCED (leadCh s c)) = false ∧
        (paired s (leadCh s c) = true → flag t (DRV_CH_STAT_FORCED (leadCh s c + 1)) = false) ∧ t.drv = s.drv ∧ t.sys = { s.sys with atBoundary := false, protCause := t.sys.protCause })) ∧
    (∀ (s : State) (h : Nat), serves s h → enablesOk s = true → s.sys.tripped = false →
      startsNow s h (putFlag DRV_CTRL_RESUME_ALL true) → answers (.resumeAll h) s (fun t => (∀ c < 32, holds s h kCh c = true → flag t (DRV_CH_STAT_FORCED c) = false) ∧ t.drv = s.drv)) ∧
    (∀ (s : State) (h c : Nat) (w : Word), serves s h → c < 32 → holds s h kCh (leadCh s c) = true →
      startsNow s h [item (DRV_CH_FLT c) w w] → answers (.protectionFlagClear h false c w) s (fun t => ∀ k < 8,
        (rd t (DRV_CH_FLT c)).getLsbD k = ((rd s (DRV_CH_FLT c)).getLsbD k && (!w.getLsbD k || (decide (k < 3) && condOf s.drv.chCond c k))) ∧
        (k < 3 → w.getLsbD k = true → (rd s (DRV_CH_FLT c)).getLsbD k = true → condOf s.drv.chCond c k = false → (chHold t c).testBit k = false))) ∧
    (∀ (s : State) (h g : Nat) (w : Word), serves s h → g < 8 → ownerOrService s h = true →
      startsNow s h [item (DRV_GRP_FLT g) w w] → answers (.protectionFlagClear h true g w) s (fun t => ∀ k < 5,
        (rd t (DRV_GRP_FLT g)).getLsbD k = ((rd s (DRV_GRP_FLT g)).getLsbD k && (!w.getLsbD k || (decide (k = 2 ∨ k = 4) && condOf s.drv.grpCond g k))) ∧
        ((k = 2 ∨ k = 4) → w.getLsbD k = true → (rd s (DRV_GRP_FLT g)).getLsbD k = true → condOf s.drv.grpCond g k = false → (grpHold t g).testBit k = false))))

/-- Ring cycles, breaks and the writes that control a ring. R200, R205, R209, R219, R224, R226: the ring's own events. R195, R205, R221 to R225, R228, R230. -/
def Obligations.RingCyclesAndControls : Prop :=
  ((∀ (s : State) (r : Nat) (b : RingBack), r < 2 → (∀ x ∈ b.nodes, x.node < 30) → (∀ x ∈ b.probes, x.port < 2) →
      (ringState s r = 0 → answers (.ringCycle r b) s (fun t => flag t (FJL_STAT_P0_LOS r) = b.p0Los ∧ flag t (FJL_STAT_P1_LOS r) = b.p1Los ∧
        ringState t r = 0 ∧ regsBut s t [FJL_STAT r] ∧ partsBut s t [.regs])) ∧
      (ringState s r ≠ 0 → answers (.ringCycle r b) s (fun t => (ringAt t r).seq = (ringAt s r).seq + 1)) ∧
      (ringState s r = 1 → (ringAt s r).enumStep = 0 → answers (.ringCycle r b) s (fun t =>
        (ringAt t r).enumStep = 1 ∧ ringState t r = 1))) ∧
    (∀ (s : State) (r pos : Nat), r < 2 → pos ≤ 30 → ringState s r = 3 →
      answers (.ringBreak r pos) s (fun t => ringState t r = 4 ∧ getF t (FJL_STAT_BRK_POS r) = pos ∧ getF t (FJL_LOOP_VAL r) = 0 ∧
        getF t (FJL_CNT_BREAK_CNT r) = min (getF s (FJL_CNT_BREAK_CNT r) + 1) (2 ^ 32 - 1) ∧
        regsBut s t (FJL_STAT r :: FJL_CNT_BREAK r :: FJL_LOOP r :: tally) ∧ partsBut s t [.regs, .recd])) ∧
    (∀ (s : State) (r n : Nat), r < 2 → n < 30 → ringRuns s r = true → 4 ≤ silentCycles s r n →
      answers (.reportAreaTimeout r n) s (fun t => flag t (FJL_NODE_STAT_REACH r n) = false ∧
        regsBut s t (FJL_NODE_STAT r n :: tally) ∧ partsBut s t [.regs, .recd])) ∧
    (∀ (s : State) (r n k f : Nat) (g : RingTag), r < 2 → n < 30 → k < 15 → tagAt s r n k = some g → g.free = some f → f ≤ cycleNs s r →
      answers (.tagRelease r n k) s (fun t => tagAt t r n k = some { g with busy := false } ∧ t.regs = s.regs ∧ partsBut s t [.fjl]))) ∧
  ((∀ (s : State) (h r : Nat), serves s h → r < 2 → ownerOrService s h = true → getF s (FJL_CTRL_NNODES r) ≤ 30 → 2 ≤ getF s (FJL_CTRL_WD r) →
      (∀ en, (en = true → getF s (FJL_CTRL_NNODES r) ≠ 0) → startsNow s h (putFlag (FJL_CTRL_EN r) en) → answers (.fjlEn h r en) s (fun t =>
        flag t (FJL_CTRL_EN r) = en ∧ regsBut s t [FJL_CTRL r] ∧ wroteBut s t h [.regs, .sys])) ∧
      (ringState s r = 4 → flag s (FJL_STAT_CONT r) = true → startsNow s h (putFlag (FJL_CTRL_HEAL r) true) → answers (.heal h r) s (fun t =>
        (ringAt t r).healing = true ∧ (ringAt t r).svc = { addr := 0xFF, sop := 8, data := [] } :: (ringAt s r).svc ∧ wroteBut s t h [.regs, .sys, .fjl])) ∧
      (∀ v, startsNow s h (putFlag (FJL_CTRL_SAFE r) v) → answers (.ringSafeWrite h r v) s (fun t => flag t (FJL_CTRL_SAFE r) = v ∧
        (v = true → flag s (FJL_CTRL_SAFE r) = false → flag t (FJL_STAT_SAFE_ACT r) = decide (ringState s r ≠ 0) ∧
          ∀ c ∈ usedChannels s, 32 ≤ c → ringOf c = r → (remCh t c).forced = true)))) ∧
    (∀ (s : State) (h r : Nat), serves s h → r < 2 → getF s (FJL_CTRL_NNODES r) ≤ 30 → 2 ≤ getF s (FJL_CTRL_WD r) →
      enablesOk s = true → s.sys.tripped = false → flag s (FJL_CTRL_SAFE r) = false →
      startsNow s h (putFlag (FJL_CTRL_RESUME_ALL r) true) → answers (.fjlResumeAll h r) s (fun t => ∀ c ∈ usedChannels s, 32 ≤ c → ringOf c = r → holds s h kCh c = true → (remCh t c).forced = false)) ∧
    (∀ (s : State) (h r n : Nat), serves s h → r < 2 → n < 30 → roleOf s h ≠ 2 → holdsNode s h r n = true →
      (enablesOk s = true → s.sys.tripped = false → flag s (FJL_CTRL_SAFE r) = false → startsNow s h (putFlag (FJL_NODE_CTRL_RESUME r n) true) → answers (.nodeResume h r n) s (fun t =>
        ∀ c ∈ usedChannels s, 32 ≤ c → ringOf c = r → nodeOf c = n → (remCh t c).forced = false)) ∧
      ((nodeAt s r n).found = true → startsNow s h (putFlag (FJL_NODE_CTRL_CLR_FLT r n) true) → answers (.nodeClrFlt h r n) s (fun t =>
        (ringAt t r).svc = (ringAt s r).svc ++ [{ addr := n + 1, sop := 6, data := [0xFF#8] }] ∧ wroteBut s t h [.regs, .sys, .fjl]))) ∧
    (∀ (s : State) (h r : Nat), serves s h → r < 2 → holds s h kCh (ringSel s h (FJL_CH_APPLY r)) = true → applyOk s (ringSel s h (FJL_CH_APPLY r)) = true →
      startsNow s h (putFlag (FJL_CH_APPLY_GO r) true) → answers (.chApply h r) s (fun t => (remCh t (ringSel s h (FJL_CH_APPLY r))).busy = true ∧ (remCh t (ringSel s h (FJL_CH_APPLY r))).acked = false ∧
        (ringAt t (ringOf (ringSel s h (FJL_CH_APPLY r)))).svc = (ringAt s (ringOf (ringSel s h (FJL_CH_APPLY r)))).svc ++
          [{ addr := nodeOf (ringSel s h (FJL_CH_APPLY r)) + 1, sop := 4, data := cfgChData s (ringSel s h (FJL_CH_APPLY r)) }] ∧
        regsBut s t [FJL_CH_APPLY r] ∧ wroteBut s t h [.regs, .sys, .fjl])))

/-- Every local channel is closed and forced off. -/
def allForcedOff (t : State) : Prop :=
  flag t DRV_STAT_FORCED = true ∧ ∀ c < 32, (drvCh t c).isOpen = false ∧ flag t (DRV_CH_STAT_FORCED c) = true

/-- What a supervision trip at instant `t₀` leaves. -/
def tripped (s t : State) (t₀ : Nat) (err : Field) : Prop :=
  flag t err = true ∧ getF t SYS_SUPV_CTRL_TRIPS = min (getF s SYS_SUPV_CTRL_TRIPS + 1) (2 ^ SYS_SUPV_CTRL_TRIPS.width - 1) ∧
  flag t CLK_RST_CAUSE_SUPV = true ∧ t.sys.phase = .held ∧ t.sys.tripped = true ∧ allForcedOff t ∧
  (∀ h < 4, attached t h = false ∧ (slotOf t h).ring = []) ∧ t.boot.trips = absTick s t₀ :: s.boot.trips

/-- Enable loss and supervision trips stop the part. R15, R16, R184: the hardware enables. R36, R401: supervision. -/
def Obligations.ForcedStops : Prop :=
  ((∀ (s : State) (a bn : Bool) (t₀ : Nat), (!a || bn) = true → inThisStep s t₀ = true →
      (enablesOk s = true → s.sys.running = true → answers (.enableLoss a bn t₀) s (fun t => t.sys.enA = a ∧ t.sys.enBN = bn ∧ allForcedOff t ∧
        getF t DRV_CNT_ENLOSS_CNT = min (getF s DRV_CNT_ENLOSS_CNT + 1) (2 ^ 32 - 1) ∧ (∀ r < 2, flag t (FJL_STAT_SAFE_ACT r) = decide (ringState s r ≠ 0)))) ∧
      ((enablesOk s = false ∨ s.sys.running = false) → answers (.enableLoss a bn t₀) s (fun t => t = { s with sys := { s.sys with enA := a, enBN := bn } }))) ∧
    (∀ s : State, answers .enableRestored s (fun t => t = { s with sys := { s.sys with enA := true, enBN := false } }))) ∧
  (∀ (s : State) (t₀ : Nat), inThisStep s t₀ = true →
      (processorsRun s = true → answers (.lockstepError t₀) s (fun t => tripped s t t₀ SYS_SUPV_CTRL_LS_ERR)) ∧
      (s.sys.phase = .up → answers (.heartbeatTimeout t₀) s (fun t => tripped s t t₀ SYS_SUPV_CTRL_HB_ERR)))

/-- Step boundaries, slot timeouts, and the sources of motion. R18, R19, R73: the step count and the stamp of the pose. R34, R81, R82, R105. R54, R59, R64, R69: events of the position block. -/
def Obligations.StepsTimeoutsAndMotion : Prop :=
  (∀ (s : State) (pins : List TripPin) (tc : List TcValue), pins.all tripPinOk = true → tc.all tcOk = true →
      (s.sys.running = true → answers (.kinematicStep pins tc) s (fun t => t.now = s.now + 1 ∧ rd t KIN_POSE_STEP = BitVec.ofNat 32 (s.now + 1) ∧
        t.pending = s.pending)) ∧
      (s.sys.running = false → answers (.kinematicStep pins tc) s (fun t => t = s))) ∧
  ((∀ (s : State) (c : Nat), c < 512 → mismatchDue s c = true → flag s (SCH_CH_STATE_MISMATCH c) = false →
      answers (.mismatchSet c) s (fun t => flag t (SCH_CH_STATE_MISMATCH c) = true ∧ flag t (SCH_CH_STATE_ANY_MM c) = true ∧
        getF t (SCH_CH_STATE_REQ c) = getF s (SCH_CH_STATE_REQ c) ∧ holderOf t kCh c = holderOf s kCh c ∧
        regsBut s t (SCH_CH_STATE c :: tally) ∧ partsBut s t [.regs, .recd])) ∧
    (∀ (s : State) (i : Nat), i < 1024 → confirmDue s (slotAt s i) = true → (slotAt s i).f.blocked = false → (slotAt s i).d.action ≠ 2 →
      answers (.confirmTimeout i) s (fun t => (slotAt t i).state = stDone ∧ (slotAt t i).f.noconf = true ∧ (slotAt t i).d = (slotAt s i).d ∧
        getF t SCH_CNT_NOCONF_CNT = min (getF s SCH_CNT_NOCONF_CNT + 1) (2 ^ 32 - 1) ∧
        (∀ j < 1024, j ≠ i → slotAt t j = slotAt s j) ∧ regsBut s t [SCH_CNT_NOCONF] ∧ partsBut s t [.regs, .sch])) ∧
    (∀ (s : State) (i : Nat), i < 1024 → (slotAt s i).d.retain = true → retainDue s (slotAt s i) = true →
      answers (.retainTimeout i) s (fun t => (slotAt t i).state = stFree ∧ (slotAt t i).gen = (slotAt s i).gen ∧
        (∀ j < 1024, j ≠ i → slotAt t j = slotAt s j) ∧ partsBut s t [.regs, .sch]))) ∧
  ((∀ s : State, flag s KIN_CTRL_EN = true →
      (gnssHere s = false → answers .gnssLost s (fun t => getF t KIN_STAT_CLASS = sourceClass s (validSources s) ∧
        (sourceClass s (validSources s) = 0 → flag t KIN_STAT_POSE_VALID = false ∧ flag t KIN_STAT_MOTION_VALID = false) ∧
        regsBut s t [KIN_STAT] ∧ partsBut s t [.regs, .kin])) ∧
      (stillDue s = true → answers .standstill s (fun t => flag t KIN_STAT_STILL = true ∧ t.kin.car.u = 0 ∧ t.kin.car.w = 0 ∧ t.kin.car.r = 0 ∧
        regsBut s t [KIN_STAT, KIN_IMU_GBIAS] ∧ (flag s KIN_IMU_CFG_BIAS_LRN = false → regsBut s t [KIN_STAT]) ∧ partsBut s t [.regs, .kin, .free])) ∧
      (limitPassed s (getF s KIN_STAT_CLASS) = true → answers .drLimitPassed s (fun t => flag t KIN_STAT_POSE_VALID = false ∧
        (6 ≤ getF s KIN_STAT_CLASS → flag t KIN_STAT_MOTION_VALID = false) ∧ getF t KIN_STAT_CLASS = getF s KIN_STAT_CLASS ∧
        regsBut s t [KIN_STAT] ∧ partsBut s t [.regs, .kin]))) ∧
    (∀ s : State, flag s KIN_CTRL_EN = true → hencUsed s = true → flag s KIN_STAT_HENC_FLT = false → hencGoodNow s = false →
      answers .hitchEncoderFail s (fun t => flag t KIN_STAT_HENC_FLT = true ∧ (getF s KIN_CTRL_HITCH_SRC = 0 → flag t KIN_STAT_TRL_INV = true) ∧
        (getF s KIN_CTRL_HITCH_SRC = 2 → flag t KIN_STAT_HITCH_EST = true ∧ (flag s KIN_STAT_HITCH_EST = false → t.kin.gammaEst = s.kin.watch.hencLast)) ∧
        regsBut s t [KIN_STAT] ∧ partsBut s t [.regs, .kin])) ∧
    (∀ s : State, flag s KIN_CTRL_EN = true → hencUsed s = true → flag s KIN_STAT_HENC_FLT = true → hencGoodNow s = true → 400 ≤ s.kin.watch.hencGood →
      answers .hitchEncoderReturn s (fun t => flag t KIN_STAT_HENC_FLT = false ∧
        flag t KIN_STAT_TRL_INV = false ∧ t.kin.watch.hencLast = hencAngle s ∧ getF t KIN_CNT_HANDOVER_CNT = min (getF s KIN_CNT_HANDOVER_CNT + 1) (2 ^ 32 - 1) ∧
        (getF s KIN_CTRL_HITCH_SRC = 2 → flag t KIN_STAT_HITCH_EST = false) ∧ regsBut s t [KIN_STAT, KIN_CNT_HANDOVER] ∧ partsBut s t [.regs, .kin])))

/-- Time bases take their adjustments, and their events fall due. R324 to R326, R350: what a host does to the time bases. R325, R327, R330, R332: events of the time bases at instant `t₀`. -/
def Obligations.TimeBasesAndTheirEvents : Prop :=
  ((∀ (s : State) (h : Nat), serves s h → startsNow s h (putFlag ⟨TIM_CTRL, 0, 0⟩ true) → answers (.tbSnap h) s (fun t =>
      (∀ n < 4, rdPair t (TIM_TB_SNAP_LO n) (TIM_TB_SNAP_HI n) = tbNs (tbAt s n (nextBoundary s))) ∧ rd t TIM_SNAP_STEP = nextStep s ∧
      regsBut s t [TIM_CTRL, TIM_SNAP_STEP, TIM_TB_SNAP_LO 0, TIM_TB_SNAP_HI 0, TIM_TB_SNAP_LO 1, TIM_TB_SNAP_HI 1, TIM_TB_SNAP_LO 2,
        TIM_TB_SNAP_HI 2, TIM_TB_SNAP_LO 3, TIM_TB_SNAP_HI 3] ∧ wroteBut s t h [.regs, .sys])) ∧
    (∀ (s : State) (h n : Nat) (adj : BitVec 64), serves s h → n < 4 → (n = 3 ∨ ownerOrService s h = true) → ptpOwns s n = false → tbSrc s n = 0 →
      (startsNow s h (tbItems n 3 false adj) → answers (.tbSet h n adj) s (fun t => (timeBase t n).at_ = nextBoundary s ∧ (timeBase t n).val = adj.toNat * tbUnit + stepsAt (timeBase s n) (nextBoundary s) ∧
        ((timeBase s n).slewAt ≠ some (nextBoundary s) → (timeBase t n).slew = 0) ∧
        flag t (TIM_TB_STAT_STEPPED n) = true ∧ getF t TIM_CNT_STEP_CNT = min (getF s TIM_CNT_STEP_CNT + 1) (2 ^ 32 - 1) ∧
        (∀ m < 4, m ≠ n → timeBase t m = timeBase s m))) ∧
      (startsNow s h (tbItems n 1 false adj) → answers (.tbStep h n false adj) s (fun t => (timeBase t n).at_ = nextBoundary s ∧
        (timeBase t n).val = tbAt s n (nextBoundary s) + adj.toInt * tbUnit ∧ flag t (TIM_TB_STAT_STEPPED n) = true ∧
        (∀ m < 4, m ≠ n → timeBase t m = timeBase s m))) ∧
      (startsNow s h (tbItems n 1 true adj) → answers (.tbStep h n true adj) s (fun t => timeBase t n = { timeBase s n with pend := some (adj.toInt * tbUnit) } ∧
        flag t (TIM_TB_STAT_ADJ_PEND n) = true ∧ (∀ m < 4, m ≠ n → timeBase t m = timeBase s m))) ∧
      (startsNow s h (tbItems n 2 false adj) → answers (.tbSlew h n adj) s (fun t => (timeBase t n).slew = adj.toInt * tbUnit ∧ (timeBase t n).slewr = getF s (TIM_TB_SLEWR_VAL n) ∧
        (timeBase t n).val = tbAt s n (nextBoundary s) ∧ (∀ m < 4, m ≠ n → timeBase t m = timeBase s m))))) ∧
  (∀ (s : State) (t₀ : Nat), inThisStep s t₀ = true →
      (flag s (TIM_TB_STAT_VALID 0) = true → flag s (TIM_TB_STAT_HOLDOVER 0) = false → s.tim.steered + ticksPerSec ≤ absTick s t₀ →
        answers (.holdoverEntry t₀) s (fun t => flag t (TIM_TB_STAT_HOLDOVER 0) = true ∧ getF t TIM_HO_STAT_T_HO = 0 ∧ t.tim.hoAt = absTick s t₀ ∧
          t.tim.hoF = (if flag s TIM_HO_STAT_LRN_OK then getF s TIM_HO_MODEL_FU else 500) ∧ flag t TIM_IRQ_HO = true ∧
          getF t TIM_CNT_HO_CNT = min (getF s TIM_CNT_HO_CNT + 1) (2 ^ 32 - 1) ∧
          regsBut s t (TIM_TB_STAT 0 :: TIM_HO_STAT :: TIM_CNT_HO :: TIM_IRQ :: tally) ∧ partsBut s t [.regs, .tim, .recd, .hif])) ∧
      (flag s (TIM_TB_STAT_HOLDOVER 0) = true → flag s (TIM_TB_STAT_LIMIT 0) = false →
        s.tim.hoAt + getF s TIM_HO_CFG_LIMIT * ticksPerSec ≤ absTick s t₀ →
        answers (.holdoverLimit t₀) s (fun t => flag t (TIM_TB_STAT_LIMIT 0) = true ∧ flag t (TIM_TB_STAT_HOLDOVER 0) = true ∧
          regsBut s t (TIM_TB_STAT 0 :: tally) ∧ partsBut s t [.regs, .recd])) ∧
      (flag s TIM_LEAP_NEXT_PEND = true → (getF s TIM_LEAP_AT_SEC : Int) * 1000000000 * tbUnit ≤ tbAt s 0 (absTick s t₀) →
        answers (.leapSecond t₀) s (fun t => getF t TIM_LEAP_CUR_OFS = getF s TIM_LEAP_NEXT_OFS ∧ flag t TIM_LEAP_NEXT_PEND = false ∧
          flag t TIM_IRQ_LEAP = true ∧ regsBut s t (TIM_LEAP_CUR :: TIM_LEAP_NEXT :: TIM_IRQ :: tally) ∧ partsBut s t [.regs, .hif])) ∧
      (∀ (n : Nat) (d : Int), n < 4 → (timeBase s n).pend = some d → secondHere s n (absTick s t₀) = true →
        answers (.stepAtSecond n t₀) s (fun t => (timeBase t n).pend = none ∧ (timeBase t n).at_ = absTick s t₀ ∧
          (timeBase t n).val = tbAt s n (absTick s t₀) + d ∧ flag t (TIM_TB_STAT_STEPPED n) = true ∧ flag t (TIM_TB_STAT_ADJ_PEND n) = false)) ∧
      (∀ n, n < 4 → (timeBase s n).slew = slewPart (timeBase s n) (absTick s t₀ - (timeBase s n).at_) →
        answers (.slewComplete n t₀) s (fun t => flag t (TIM_TB_STAT_SLEWING n) = false ∧ (timeBase t n).slew = 0 ∧
          (timeBase t n).at_ = absTick s t₀ ∧ (timeBase t n).val = tbAt s n (absTick s t₀) ∧
          regsBut s t [TIM_TB_STAT n, TIM_TB_SLEWREM n] ∧ partsBut s t [.regs, .tim])))

/-- R334 to R337: the pulse outputs. -/
def Obligations.PulsesLeaveAndEnd : Prop :=
  ∀ (s : State) (x t₀ : Nat), x < 2 → inThisStep s t₀ = true →
    (stepHere s (ppsTb s x) (absTick s t₀) = none → (ppsOut s x).notBefore = none → ppsOff s x = false →
      (nominal s x (tbAt s (ppsTb s x) (absTick s t₀)) (tbLastEdge s (ppsTb s x) (absTick s t₀))).isSome = true →
      answers (.ppsPulse x t₀) s (fun t => (ppsOut t x).seq = ((ppsOut s x).seq + 1) % 2 ^ 32 ∧
        (ppsOut t x).stop = some (absTick s t₀ + getF s (TIM_PPS_CFG_WIDTH x) * 200) ∧
        getF t (TIM_PPS_STAT_CNT x) = (getF s (TIM_PPS_STAT_CNT x) + 1) % 65536 ∧ (rd t TIM_IRQ).getLsbD x = true ∧
        regsBut s t ([TIM_PPS_STAT x, TIM_PPS_MSG x 0, TIM_PPS_MSG x 1, TIM_PPS_MSG x 2, TIM_PPS_MSG x 3, TIM_PPS_MSG x 4, TIM_PPS_MSG x 5, TIM_IRQ, CLK_X_CNT 1] ++ tally) ∧
        partsBut s t [.regs, .sys, .tim, .hif])) ∧
    (∀ u, (ppsOut s x).stop = some u → u ≤ absTick s t₀ →
      answers (.ppsPulseEnd x t₀) s (fun t => (ppsOut t x).stop = none ∧ t.regs = s.regs ∧ partsBut s t [.tim]))

/-- The relay is being inserted: the coil is energised, and both links are given up. -/
def inserting (t : State) (cause : Nat) : Prop :=
  relayState t = byInserting ∧ flag t ETH_BYP_STAT_COIL = true ∧ linkUp t 0 = false ∧ linkUp t 1 = false ∧ t.eth.cause = cause

/-- The relay returns for `cause`: at once to bypass where the sense input is inactive. -/
def returning (s t : State) (cause : Nat) : Prop :=
  relayState t = (if flag s ETH_BYP_STAT_SENSE then byReturning else byBypass) ∧ flag t ETH_BYP_STAT_COIL = false ∧ t.eth.cause = cause

/-- Relay insertion and return; the switch and PTP. R346 to R348: the bypass relay. R338 to R344: the switch and the PTP instances. -/
def Obligations.RelayAndSwitch : Prop :=
  ((∀ (s : State) (h : Nat), serves s h → ownerOrService s h = true → getF s ETH_BYP_CTRL_LINK_T ≠ 0 → getF s ETH_BYP_CTRL_LOSS_T ≠ 0 →
      (insertOk s = true → flag s ETH_BYP_CTRL_BYPASS = false → startsNow s h (putFlag ETH_BYP_CTRL_INSERT true) → answers (.insert h) s (fun t => inserting t 0)) ∧
      (flag s ETH_BYP_CTRL_INSERT = false → (relayState s = byInserting ∨ relayState s = byInserted) →
        startsNow s h (putFlag ETH_BYP_CTRL_BYPASS true) → answers (.bypass h) s (fun t => returning s t 0))) ∧
    (∀ (s : State) (h : Nat), serves s h → ownerOrService s h = true → flag s ETH_BYP_STAT_FLT = true → flag s ETH_BYP_STAT_COIL = false →
      flag s ETH_BYP_STAT_SENSE = false → startsNow s h (putFlag ETH_BYP_STAT_FLT true) → answers (.relayFaultClear h) s (fun t => flag t ETH_BYP_STAT_FLT = false ∧
        relayState t = (if relayState s = byFault then byBypass else relayState s) ∧ regsBut s t [ETH_BYP_STAT] ∧ wroteBut s t h [.regs, .sys])) ∧
    (∀ s : State, flag s ETH_BYP_CTRL_AUTO_INS = true → s.boot.nextMode ≠ 2 → insertOk s = true → answers .autoInsert s (fun t => inserting t 1 ∧ partsBut s t [.regs, .eth])) ∧
    (∀ s : State, relayState s = byInserting → flag s ETH_BYP_STAT_SENSE = true → linkUp s 0 = true → linkUp s 1 = true →
      answers .insertionComplete s (fun t => relayState t = byInserted ∧ getF t ETH_BYP_CNT_INS = min (getF s ETH_BYP_CNT_INS + 1) 65535 ∧
        regsBut s t (ETH_BYP_STAT :: ETH_BYP_CNT :: tally) ∧ partsBut s t [.regs, .recd])) ∧
    (∀ s : State, flag s ETH_BYP_CTRL_AUTO_BYP = true → relayState s = byInserted →
      ([0, 1].any fun p => (sparseGet (fun _ => none) s.eth.downAt p).any fun u => decide (u + getF s ETH_BYP_CTRL_LOSS_T * per10ms ≤ absTick s (nowTick s))) = true →
      answers .linkLoss s (fun t => returning s t 1)) ∧
    (∀ (s : State) (t₀ : Nat), inThisStep s t₀ = true →
      (relayState s = byInserting → flag s ETH_BYP_STAT_SENSE = true → (linkUp s 0 && linkUp s 1) = false →
        s.eth.senseAt + getF s ETH_BYP_CTRL_LINK_T * per10ms ≤ absTick s t₀ → answers (.linkTimeout t₀) s (fun t => returning s t 2)) ∧
      (∀ lvl, flag s ETH_BYP_STAT_SENSE ≠ lvl → answers (.bypSenseChange lvl t₀) s (fun t => flag t ETH_BYP_STAT_SENSE = lvl ∧
        t.eth.senseAt = absTick s t₀ ∧ relayState t = (if relayState s = byReturning ∧ lvl = false then byBypass else relayState s))) ∧
      (flag s ETH_BYP_STAT_COIL ≠ flag s ETH_BYP_STAT_SENSE → relayState s ≠ byFault → max s.eth.coilAt s.eth.senseAt + 2 * per10ms ≤ absTick s t₀ →
        answers (.relayFault t₀) s (fun t => relayState t = byFault ∧ flag t ETH_BYP_STAT_FLT = true ∧ flag t ETH_BYP_STAT_COIL = false ∧
          regsBut s t (ETH_BYP_STAT :: tally) ∧ partsBut s t [.regs, .eth, .recd])))) ∧
  ((∀ (s : State) (f : EthFrame), f.port < 2 → f.rx ≤ f.tx → inThisStep s f.rx = true → flag s ETH_CTRL_EN = true →
      ((f.fcsOk = false ∨ 1532 < f.bytes.length) → answers (.ethFrameRx f) s (fun t =>
        getF t (ETH_PT_ERR_CNT f.port) = min (getF s (ETH_PT_ERR_CNT f.port) + 1) (2 ^ 32 - 1) ∧ regsBut s t [ETH_PT_ERR f.port] ∧ partsBut s t [.regs])) ∧
      (f.fcsOk = true → 60 ≤ f.bytes.length → f.bytes.length ≤ 1532 →
        (relayState s ≠ byInserted → answers (.ethFrameRx f) s (fun t =>
          getF t (ETH_PT_RX_CNT f.port) = min (getF s (ETH_PT_RX_CNT f.port) + 1) (2 ^ 32 - 1) ∧ regsBut s t [ETH_PT_RX f.port] ∧ partsBut s t [.regs])) ∧
        (relayState s = byInserted → f.full = false → beAt f.bytes 0 6 ≠ ownMac s → arpForUs s f.bytes = false → beAt f.bytes 0 6 ≠ gptpMac →
          isGroup (beAt f.bytes 0 6) = true → tcApplies s f.bytes = none →
          answers (.ethFrameRx f) s (fun t => getF t (ETH_PT_TX_CNT (1 - f.port)) = min (getF s (ETH_PT_TX_CNT (1 - f.port)) + 1) (2 ^ 32 - 1) ∧
            sparseGet (fun _ => []) t.eth.out (1 - f.port) = f.bytes)))) ∧
    (∀ (s : State) (t₀ : Nat), inThisStep s t₀ = true →
      (∀ p up q, p < 2 → q < 8 → (up = true → flag s ETH_CTRL_EN = true) → answers (.phyLinkChange p up q t₀) s (fun t => linkUp t p = up ∧
        getF t (ETH_PT_STAT_SQI p) = (if up then q else 0) ∧
        (linkUp s p ≠ up → sparseGet (fun _ => none) t.eth.downAt p = (if up then none else some (absTick s t₀))) ∧
        regsBut s t [ETH_PT_STAT p] ∧ partsBut s t [.regs, .eth])) ∧
      (∀ mac, answers (.addressAgeing mac t₀) s (fun t => (∀ a ∈ t.eth.table, a ∈ s.eth.table) ∧
        (∀ a ∈ s.eth.table, a ∈ t.eth.table ↔ (a.mac ≠ mac ∨ absTick s t₀ < a.seen + getF s ETH_SW_CFG_AGE * ticksPerSec)) ∧
        regsBut s t [ETH_SW_STAT] ∧ partsBut s t [.regs, .eth])) ∧
      (s.sys.phase = .up → getF s PTP_GP_STAT_ROLE = 1 → answers (.ptpMasterLoss 0 t₀) s (fun t => getF t PTP_GP_STAT_ROLE = 3 ∧
        tbSrc t 1 = 0 ∧ tbAt t 1 (absTick s t₀) = tbAt s 1 (absTick s t₀))) ∧
      (s.sys.phase = .up → (getF s PTP_OC_STAT_STATE = 2 ∨ getF s PTP_OC_STAT_STATE = 3) → answers (.ptpMasterLoss 1 t₀) s (fun t =>
        getF t PTP_OC_STAT_STATE = 1 ∧ tbSrc t 2 = 0 ∧ tbAt t 2 (absTick s t₀) = tbAt s 2 (absTick s t₀)))) ∧
    (∀ (s : State) (t₀ : Nat), inThisStep s t₀ = true → s.sys.phase = .up → relayState s = byInserted → getF s PTP_OC_STAT_STATE = 4 →
      syncDue s 1 (absTick s t₀) = true → answers (.syncInterval 1 t₀) s (fun t =>
      ∀ p < 2, getF t (ETH_PT_TX_CNT p) = (if (getF s PTP_OC_CFG_PORTS).testBit p && linkUp s p
        then min (getF s (ETH_PT_TX_CNT p) + 1) (2 ^ 32 - 1) else getF s (ETH_PT_TX_CNT p)))))

/-- CAN fault confinement, enabling and disabling. R354, R372 to R375: fault confinement. R354, R356, R358: CAN_CTRL.EN. -/
def Obligations.CanErrorsAndEnables : Prop :=
  ((∀ (s : State) (x : Nat), x < 4 → canState s x = csSync → answers (.busSync x) s (fun t =>
      canState t x = csActive ∧ regsBut s t (CAN_STAT x :: (canBufs s x).map (CAN_TXB_STAT x)) ∧ partsBut s t [.regs, .can])) ∧
    (∀ (s : State) (x t₀ lec : Nat) (tx dom : Bool), x < 4 → inThisStep s t₀ = true → onBus s x = true → 1 ≤ lec → lec ≤ 6 → (tx = true → lec ≠ 3) →
      answers (.canError x t₀ lec tx dom false) s (fun t =>
        getF t (CAN_CNT_ERR_CNT x) = min (getF s (CAN_CNT_ERR_CNT x) + 1) (2 ^ 32 - 1) ∧ getF t (CAN_STAT_LEC x) = lec ∧
        (ctlAt t x).tec = (ctlAt s x).tec + (if tx then 8 else 0) ∧
        (ctlAt t x).recv = (ctlAt s x).recv + (if tx then 0 else if dom then 8 else 1) ∧
        canState t x = (if 255 < (ctlAt t x).tec then csBusOff else if 128 ≤ (ctlAt t x).tec ∨ 128 ≤ (ctlAt t x).recv then csPassive else csActive) ∧
        partsBut s t [.regs, .hif, .recd, .can])) ∧
    (∀ (s : State) (x t₀ : Nat), x < 4 → inThisStep s t₀ = true → canState s x = csBusOff → flag s (CAN_CTRL_RECOV x) = false →
      (ctlAt s x).offAt + getF s (CAN_BOFF_BO_DLY x) * perMs ≤ absTick s t₀ →
      answers (.boDelayExpiry x t₀) s (fun t => canState t x = csRecovering ∧ regsBut s t [CAN_STAT x] ∧ partsBut s t [.regs])) ∧
    (∀ (s : State) (h x : Nat), serves s h → x < 4 → ownerOrService s h = true → canState s x = csBusOff → flag s (CAN_CTRL_RECOV x) = true →
      startsNow s h (putFlag (CAN_CTRL_RECOVER x) true) → answers (.recover h x) s (fun t => canState t x = csRecovering ∧ flag t (CAN_CTRL_RECOVER x) = false ∧ flag t (CAN_CTRL_EN x) = flag s (CAN_CTRL_EN x) ∧
        wroteBut s t h [.regs, .sys])) ∧
    (∀ (s : State) (x : Nat), x < 4 → canState s x = csRecovering → answers (.recoveryDone x) s (fun t =>
      canState t x = csActive ∧ (ctlAt t x).tec = 0 ∧ (ctlAt t x).recv = 0 ∧ getF t (CAN_STAT_TEC x) = 0 ∧ getF t (CAN_STAT_REC x) = 0 ∧
      flag t (CAN_IRQ_ACTIVE x) = true ∧ partsBut s t [.regs, .hif, .recd, .can]))) ∧
  ((∀ (s : State) (h x : Nat), serves s h → x < 4 → ownerOrService s h = true → flag s (CAN_CTRL_EN x) = false → flag s (CAN_CTRL_ISOBUS x) = false → poolOk s x = true →
      startsNow s h (putFlag (CAN_CTRL_EN x) true) → answers (.canEn h x true) s (fun t => flag t (CAN_CTRL_EN x) = true ∧ canState t x = csSync ∧ (∀ b < 64, txState t x b = tbFree) ∧
        (ctlAt t x).active = none ∧ (ctlAt t x).tec = 0 ∧ (ctlAt t x).recv = 0 ∧ wroteBut s t h [.regs, .sys, .can])) ∧
    (∀ (s : State) (h x : Nat), serves s h → x < 4 → ownerOrService s h = true → flag s (CAN_CTRL_EN x) = true →
      startsNow s h (putFlag (CAN_CTRL_EN x) false) → answers (.canEn h x false) s (fun t => flag t (CAN_CTRL_EN x) = false ∧ canState t x = csOff ∧
        (∀ b < 64, txState t x b = (if txState s x b = tbPending ∨ txState s x b = tbActive then tbAborted else txState s x b)) ∧
        (ctlAt t x).active = none ∧ (ctlAt t x).tec = 0 ∧ (ctlAt t x).recv = 0 ∧ wroteBut s t h [.regs, .sys, .can])))

/-- CAN frames in and out, TTM slots and the ISOBUS address. R360, R361, R366, R367: reception and the outcomes of transmit buffers. R368 to R370, R376: the schedule matrix and ISOBUS. -/
def Obligations.CanFramesAndSlots : Prop :=
  ((∀ (s : State) (x t₀ : Nat) (f : CanFrame) (lost : Bool), x < 4 → inThisStep s t₀ = true → frameOk f = true → onBus s x = true →
      (f.fdf = true → flag s (CAN_CTRL_FD_EN x) = true) →
      answers (.canFrameRx x t₀ f lost) s (fun t =>
        getF t (CAN_CNT_RX_CNT x) = min (getF s (CAN_CNT_RX_CNT x) + 1) (2 ^ 32 - 1) ∧
        ((∀ k < 32, filterHit s x k f = false) → getF t (CAN_CNT_NOMATCH_CNT x) = min (getF s (CAN_CNT_NOMATCH_CNT x) + 1) (2 ^ 32 - 1)) ∧
        partsBut s t [.regs, .kin, .hif, .recd, .can, .free]) ∧
      (∀ k j, (List.range 32).find? (fun k => filterHit s x k f) = some k → flag s (CAN_FLT_ID_REJ x k) = false → j < 4 →
        (getF s (CAN_FLT_DST_FIFOS x k)).testBit j = true → flag s (CAN_FIFO_CFG_FW x j) = false →
        (fifoAt s x j).elems.length < getF s (CAN_FIFO_CFG_DEPTH x j) →
        answers (.canFrameRx x t₀ f lost) s (fun t => (fifoAt t x j).elems = (fifoAt s x j).elems ++ [rxElem s x (absTick s t₀) k f]))) ∧
    (∀ (s : State) (x t₀ sof lec v b : Nat), x < 4 → b < 64 → v < 128 → inThisStep s t₀ = true → lec ≤ 6 → (ctlAt s x).active = some b → (bufAt s x b).slot = none →
      ttNames s x b = none → (bufAt s x b).abort = false →
      (lec = 0 → answers (.txAttemptEnd x t₀ sof 0 v) s (fun t => txState t x b = tbSent ∧ (ctlAt t x).active ≠ some b ∧
        getF t (CAN_CNT_TX_CNT x) = min (getF s (CAN_CNT_TX_CNT x) + 1) (2 ^ 32 - 1) ∧ (ctlAt t x).tec = (ctlAt s x).tec - 1 ∧ flag t (CAN_IRQ_TX x) = true)) ∧
      (lec ≠ 0 → answers (.txAttemptEnd x t₀ sof lec v) s (fun t => (bufAt t x b).att = (bufAt s x b).att + 1 ∧ getF t (CAN_TXB_STAT_ATT x b) = min 15 ((bufAt s x b).att + 1) ∧
        (((bufAt s x b).unlim = true ∨ (bufAt s x b).att < (bufAt s x b).retry) → tooLate s x b (absTick s t₀) = false → txState t x b = tbPending ∨ txState t x b = tbActive) ∧
        ((bufAt s x b).unlim = false → (bufAt s x b).retry ≤ (bufAt s x b).att →
          txState t x b = (if (bufAt s x b).onlyAck ∧ lec = 3 then tbNoAck else tbRetryExh))))) ∧
    (∀ (s : State) (x b t₀ : Nat), x < 4 → b < 64 → inThisStep s t₀ = true → txState s x b = tbPending →
      ((bufAt s x b).at_ = true → (bufAt s x b).eligible = false → (bufAt s x b).time ≤ tbCount s (bufAt s x b).tb (absTick s t₀) →
        answers (.transmitAtTime x b t₀) s (fun t => (bufAt t x b).eligible = true ∧ (b ∈ canBufs s x → onBus s x = true → (ctlAt t x).active ≠ none) ∧
          regsBut s t ((canBufs s x).map (CAN_TXB_STAT x)) ∧ partsBut s t [.regs, .can])) ∧
      (tooLate s x b (absTick s t₀) = true → ttNames s x b = none → answers (.lateWinExpiry x b t₀) s (fun t => txState t x b = tbLate ∧
        getF t (CAN_CNT_LATE_CNT x) = min (getF s (CAN_CNT_LATE_CNT x) + 1) (2 ^ 32 - 1) ∧ regsBut s t [CAN_TXB_STAT x b, CAN_CNT_LATE x] ∧
        partsBut s t [.regs, .can])))) ∧
  ((∀ (s : State) (r c t₀ : Nat), r < 16 → c < 64 → inThisStep s t₀ = true → slotBuf s (64 * r + c) < 64 →
      (rowEn s r = true → 64 * r + c ∈ ttSlots s → slotHere s r (64 * r + c) (absTick s t₀) = true → canState s (rowCtl s r) ≠ csOff →
        (txState s (rowCtl s r) (slotBuf s (64 * r + c)) = tbReady → (tnat s .ttm (64 * r + c) 5 1).testBit 1 = false →
          answers (.ttSlot r c t₀) s (fun t =>
            (txState t (rowCtl s r) (slotBuf s (64 * r + c)) = tbPending ∨ txState t (rowCtl s r) (slotBuf s (64 * r + c)) = tbActive) ∧
            (bufAt t (rowCtl s r) (slotBuf s (64 * r + c))).slot = some (64 * r + c, absTick s t₀ + getF s (CAN_TT_WIN (rowCtl s r)) * perUs) ∧
            partsBut s t [.regs, .can])) ∧
        (txState s (rowCtl s r) (slotBuf s (64 * r + c)) ≠ tbReady →
          answers (.ttSlot r c t₀) s (fun t => tnat t .ttm (64 * r + c) 12 1 = 3 ∧ t.regs = s.regs ∧ t.can = s.can ∧ partsBut s t [.tables]))) ∧
      (∀ d, (bufAt s (rowCtl s r) (slotBuf s (64 * r + c))).slot = some (64 * r + c, d) → d ≤ absTick s t₀ →
        txState s (rowCtl s r) (slotBuf s (64 * r + c)) = tbPending →
        answers (.ttWindowExpiry r c t₀) s (fun t => txState t (rowCtl s r) (slotBuf s (64 * r + c)) = tbReady ∧
          getF t (CAN_CNT_TTMISS_CNT (rowCtl s r)) = min (getF s (CAN_CNT_TTMISS_CNT (rowCtl s r)) + 1) (2 ^ 32 - 1) ∧
          flag t (CAN_IRQ_TTMISS (rowCtl s r)) = true ∧ tnat t .ttm (64 * r + c) 12 1 = 2 ∧ partsBut s t [.regs, .tables, .hif, .recd, .can]))) ∧
    (∀ (s : State) (sa : Nat), sa < 254 → flag s (CAN_CTRL_ISOBUS 0) = true → onBus s 0 = true → s.sys.phase = .up →
      answers (.addressClaimed sa) s (fun t => getF t CAN_ISO_STAT_SA = sa ∧ flag t CAN_ISO_STAT_CLAIMED = true ∧ regsBut s t [CAN_ISO_STAT] ∧ partsBut s t [.regs])) ∧
    (∀ s : State, flag s CAN_ISO_STAT_CLAIMED = true → answers .addressLost s (fun t => getF t CAN_ISO_STAT_SA = 0xFE ∧ flag t CAN_ISO_STAT_CLAIMED = false ∧
      flag t CAN_ISO_STAT_LOST = true ∧ regsBut s t (CAN_ISO_STAT :: tally) ∧ partsBut s t [.regs, .recd])))

/-- The instant of the loop's next sample (R243). -/
def sampleInstant (s : State) (n : Nat) : Nat := (loopAt s n).ta + (loopAt s n).k * getF s (CLE_LP_PER_PERIOD n) * perUs

/-- The exponent of the gains of the loop's region (R233, R240). -/
def gainExp (s : State) (n : Nat) : Int := eIn s n + getF s (CLE_LP_RG_EXP_E_G n (loopAt s n).g) - eOut s n - 32

/-- The effective setpoint of a loop that stays in AUTO (R251). -/
def rampedSetpoint (s : State) (n : Nat) : Int :=
  if getF s (CLE_LP_RAMP_RAMP n) = 0 then sat16 (setpoint s n (sampleInstant s n)).2
  else (loopAt s n).rEff + clampI (-(getF s (CLE_LP_RAMP_RAMP n) : Int)) (getF s (CLE_LP_RAMP_RAMP n))
    (sat16 (setpoint s n (sampleInstant s n)).2 - (loopAt s n).rEff)

/-- R238, R240, R243, R251: one period in AUTO. -/
def Obligations.AutoPeriodComputation : Prop :=
  ∀ (s : State) (n : Nat), n < 16 → flag s CLE_CTRL_EN = true → getF s (CLE_LP_CTRL_MODE n) = 2 → (loopAt s n).mode = 2 →
    dstHeld s n = false → measFault s n = false → frcFault s n = false → s.cle.inj = none → (loopAt s n).preset = false →
    answers (.loopSample n) s (fun t =>
      (loopAt t n).mode = 2 ∧ (loopAt t n).k = (loopAt s n).k + 1 ∧ (loopAt t n).yPrev = sat16 (measValue s n) ∧
      (loopAt t n).rEff = rampedSetpoint s n ∧
      (loopAt t n).ePrev = sat16 ((loopAt t n).rEff - (loopAt t n).yPrev) ∧
      ((loopAt t n).g = (loopAt s n).g →
        (loopAt t n).integ = (if flag s (CLE_LP_CTRL_AW n) && (loopAt s n).satPrev then (loopAt s n).integ
          else clampI (65536 * getI s (CLE_LP_RG_ILIM_IMIN n (loopAt s n).g)) (65536 * getI s (CLE_LP_RG_ILIM_IMAX n (loopAt s n).g))
            ((loopAt s n).integ + sat32 (scale2 (getI s (CLE_LP_RG_PI_KI n (loopAt s n).g) * (loopAt t n).ePrev) (gainExp s n + 16)))) ∧
        (loopAt t n).u = clampI (getI s (CLE_LP_ULIM_UMIN n)) (getI s (CLE_LP_ULIM_UMAX n))
          (sat16 (scale2 (getI s (CLE_LP_RG_PI_KP n (loopAt s n).g) * (loopAt t n).ePrev) (gainExp s n)) + roundDiv (loopAt t n).integ 65536 +
            (loopAt t n).d + sat16 (sat16 (scale2 (getI s (CLE_LP_RG_DF_KFF n (loopAt s n).g) * (loopAt t n).rEff) (gainExp s n)) +
              getI s (CLE_LP_DF_FFOFS n)) + sat16 (frictionTerm s n)) ∧
        (loopAt t n).out = some (sampleInstant s n + getF s (CLE_LP_OPH_OPH n), (loopAt t n).u)) ∧
      getF t (CLE_LP_STAT_MODE n) = 2 ∧ getF t (CLE_LP_STAT_PCNT n) = (loopAt s n).k % 65536)

/-- The shadow PRD of a group once the writes due by `t` have landed. -/
def landedPeriod (s : State) (g t : Nat) : Nat := (pwmAt (takeWrites s g t) g).shadow.prd

/-- The compare value of output `u` of loop `n` at instant `t`: round(u·32·PRD), within the period (R270). -/
def loopCompareOf (s : State) (n t : Nat) (u : Int) : Nat :=
  (clampI 0 (32 * landedPeriod s (dstIdx s n) t)
    (roundDiv (u * (32 * landedPeriod s (dstIdx s n) t)) (2 ^ (32 - eOut s n).toNat))).toNat

/-- Loop samples in manual and held off, outputs and the saturation alarm. R240, R246, R250, R253: MANUAL, and the hold-off. R244, R246, R254, R270: outputs and the saturation alarm. -/
def Obligations.LoopSamplesAndOutputs : Prop :=
  (∀ (s : State) (n : Nat), n < 16 →
      (flag s CLE_CTRL_EN = false → answers (.loopSample n) s (fun t => t = s)) ∧
      (flag s CLE_CTRL_EN = true → getF s (CLE_LP_CTRL_MODE n) = 1 → (loopAt s n).mode = 1 → dstHeld s n = false → s.cle.inj = none →
        answers (.loopSample n) s (fun t => (loopAt t n).mode = 1 ∧ (loopAt t n).integ = (loopAt s n).integ ∧
          (loopAt t n).u = clampI (getI s (CLE_LP_ULIM_UMIN n)) (getI s (CLE_LP_ULIM_UMAX n)) (getI s (CLE_LP_MAN_MAN n)) ∧
          (loopAt t n).out = some (sampleInstant s n + getF s (CLE_LP_OPH_OPH n), (loopAt t n).u) ∧
          partsBut s t [.regs, .recd, .cle])) ∧
      (flag s CLE_CTRL_EN = true → (loopAt s n).mode = 1 ∨ (loopAt s n).mode = 2 → dstHeld s n = true → s.cle.inj = none →
        answers (.loopSample n) s (fun t => (loopAt t n).mode = 0 ∧ getF t (CLE_LP_CTRL_MODE n) = 0 ∧ getF t (CLE_LP_STAT_MODE n) = 0 ∧
          flag t (CLE_LP_FLT_DOFF n) = true ∧ (loopAt t n).integ = 0 ∧ (loopAt t n).out = none ∧ partsBut s t [.regs, .recd, .cle]))) ∧
  ((∀ (s : State) (n at_ : Nat) (u : Int), n < 16 → (loopAt s n).out = some (at_, u) →
      answers (.loopOutput n) s (fun t => (loopAt t n).out = none ∧ (loopAt t n).written = u ∧
        ((dstHeld s n = true ∨ dstKind s n = 0) → t.regs = s.regs ∧ partsBut s t [.cle]) ∧
        (dstHeld s n = false → dstKind s n = 3 → dstIdx s n < 32 → eOut s n ≤ 32 →
          (getF t (DRV_CH_SET_VAL (dstIdx s n)) : Int) =
            clampI 0 (if getF s (DRV_CH_MODE_MODE (dstIdx s n)) = 2 then 1000 else 6000) (roundDiv u (2 ^ (32 - eOut s n).toNat)) ∧
          regsBut s t [DRV_CH_SET (dstIdx s n)] ∧ partsBut s t [.regs, .cle, .drv]) ∧
        (dstHeld s n = false → dstKind s n = 1 → dstIdx s n < 8 → dstPair s n < 3 → eOut s n ≤ 32 →
          getF t (PWM_PR_CMP_CMP (dstIdx s n) (dstPair s n)) = loopCompareOf s n at_ u ∧
            (pwmAt t (dstIdx s n)).writes = (pwmAt s (dstIdx s n)).writes ++ [{ at_ := at_, off := 4 + dstPair s n, v := BitVec.ofNat 32 (loopCompareOf s n at_ u), loop := some n }] ∧
            getF t (PWM_PR_LAND_LOOP (dstIdx s n) (dstPair s n)) = n ∧ flag t (PWM_PR_LAND_BYLOOP (dstIdx s n) (dstPair s n)) = true ∧
            partsBut s t [.regs, .cle, .pwm]))) ∧
    (∀ (s : State) (n : Nat), n < 16 → satDue s n = true → answers (.saturationAlarm n) s (fun t => (loopAt t n).alarmed = true ∧
      flag t (CLE_LP_FLT_SATALM n) = true ∧ getF t (CLE_LP_CTRL_MODE n) = (if flag s (CLE_LP_CTRL_SAT_OFF n) then 0 else getF s (CLE_LP_CTRL_MODE n)) ∧
      (rd t CLE_STAT).getLsbD (16 + n) = true ∧ partsBut s t [.regs, .recd, .cle])))

/-- Loop modes, the engine enable, injection and capture. R243, R250, R252, R253: modes. R255, R256, R258: injection and capture. -/
def Obligations.LoopModesInjectionAndCapture : Prop :=
  ((∀ (s : State) (h n m : Nat), serves s h → n < 16 → m < 3 → holds s h kLoop n = true → modeCheck s h n m = .ok →
      startsNow s h (putField (CLE_LP_CTRL_MODE n) m) → answers (.loopModeWrite h n m) s (fun t => getF t (CLE_LP_CTRL_MODE n) = m ∧ regsBut s t [CLE_LP_CTRL n] ∧ wroteBut s t h [.regs, .sys])) ∧
    (∀ (s : State) (h : Nat), serves s h → ownerOrService s h = true →
      (flag s CLE_CTRL_EN = false → startsNow s h (putFlag CLE_CTRL_EN true) → answers (.cleEn h true) s (fun t => flag t CLE_CTRL_EN = true ∧
        (∀ n < 16, (loopAt t n).ta = nowTick s + slotsPerStep ∧ (loopAt t n).k = 0 ∧ (loopAt t n).mode = (loopAt s n).mode) ∧
        regsBut s t [CLE_CTRL] ∧ wroteBut s t h [.regs, .sys, .cle])) ∧
      (flag s CLE_CTRL_EN = true → startsNow s h (putFlag CLE_CTRL_EN false) → answers (.cleEn h false) s (fun t => flag t CLE_CTRL_EN = false ∧ (∀ n < 16, (loopAt t n).mode = 0 ∧
        getF t (CLE_LP_CTRL_MODE n) = 0 ∧ ((loopAt s n).mode ≠ 0 →
          (loopAt t n).integ = 0 ∧ (loopAt t n).out = some (nowTick s + slotsPerStep + getF s (CLE_LP_OPH_OPH n), getI s (CLE_LP_MAN_OFF_VAL n)))) ∧
        wroteBut s t h [.regs, .sys, .cle])))) ∧
  ((∀ (s : State) (h k : Nat), serves s h → k < 512 → k / 16 % 4 ≠ 3 → k / 64 % 4 ≠ 3 → injectCheck s h (BitVec.ofNat 32 k) = .ok →
      startsNow s h [item CLE_INJ_CTRL 0x3FF#32 (BitVec.ofNat 32 (k + 512))] → answers (.injGo h k) s (fun t => t.cle = { s.cle with inj := some { loop := k % 16, point := k / 16 % 4, k0 := none } } ∧
        flag t CLE_INJ_CTRL_BUSY = true ∧ getF t CLE_INJ_CTRL_LOOP = k % 16 ∧ getF t CLE_INJ_CTRL_POINT = k / 16 % 4 ∧
        getF t CLE_INJ_CTRL_TYPE = k / 64 % 4 ∧ regsBut s t [CLE_INJ_CTRL] ∧ wroteBut s t h [.regs, .sys, .cle])) ∧
    (∀ (s : State) (j : Inject), s.cle.inj = some j → j.loop < 16 →
      (∀ h, serves s h → holds s h kLoop (getF s CLE_INJ_CTRL_LOOP) = true → getF s CLE_INJ_CTRL_POINT ≠ 3 → getF s CLE_INJ_CTRL_TYPE ≠ 3 →
        startsNow s h (putFlag CLE_INJ_CTRL_STOP true) → answers (.injStop h) s (fun t => t.cle = { s.cle with inj := none } ∧ flag t CLE_INJ_CTRL_BUSY = false ∧ flag t (CLE_LP_STAT_INJ j.loop) = false ∧
          regsBut s t [CLE_INJ_CTRL, CLE_LP_STAT j.loop] ∧ wroteBut s t h [.regs, .sys, .cle])) ∧
      (injectOver s j = true → answers .injectionEnd s (fun t => t.cle = { s.cle with inj := none } ∧ flag t CLE_INJ_CTRL_BUSY = false ∧
        flag t (CLE_LP_STAT_INJ j.loop) = false ∧ regsBut s t [CLE_INJ_CTRL, CLE_LP_STAT j.loop] ∧ partsBut s t [.regs, .cle]))) ∧
    (∀ (s : State) (h k : Nat), serves s h → k < 2048 → k / 16 % 4 ≠ 3 → k / 256 ≤ 5 → holds s h kLoop (k % 16) = true →
      (getF s CLE_CAP_STAT_STATE = capIdle ∨ getF s CLE_CAP_STAT_STATE = capDone) →
      startsNow s h [item CLE_CAP_CTRL 0x17FF#32 (BitVec.ofNat 32 (k + 4096))] → answers (.capArm h k) s (fun t => getF t CLE_CAP_STAT_STATE = (if k / 256 = 0 then capRun else capArmed) ∧ getF t CLE_CAP_STAT_COUNT = 0 ∧
        getF t CLE_CAP_STAT_TIDX = 0 ∧ t.cle = { s.cle with cap := { entries := [], skip := 0 } } ∧ getF t CLE_CAP_CTRL_LOOP = k % 16 ∧
        getF t CLE_CAP_CTRL_NSIG = k / 16 % 4 ∧ getF t CLE_CAP_CTRL_TRIG = k / 256 ∧ regsBut s t [CLE_CAP_CTRL, CLE_CAP_STAT, CLE_CAP_TRIG] ∧
        wroteBut s t h [.regs, .sys, .cle])) ∧
    (∀ (s : State) (h : Nat), serves s h → holds s h kLoop (getF s CLE_CAP_CTRL_LOOP) = true → getF s CLE_CAP_CTRL_NSIG ≠ 3 → getF s CLE_CAP_CTRL_TRIG ≤ 5 →
      startsNow s h (putFlag CLE_CAP_CTRL_ABORT true) → answers (.capAbort h) s (fun t => getF t CLE_CAP_STAT_STATE = capIdle ∧ getF t CLE_CAP_STAT_COUNT = 0 ∧
        t.cle = { s.cle with cap := { entries := [], skip := 0 } } ∧ regsBut s t [CLE_CAP_CTRL, CLE_CAP_STAT] ∧ wroteBut s t h [.regs, .sys, .cle])))

/-- PWM periods, compares, starts, trips and stops. R260 to R263, R267, R277: periods, compares and the delay line. R271 to R276: starts, trips, clears and RESUME. -/
def Obligations.PwmPeriodsStartsAndTrips : Prop :=
  ((∀ (s : State) (g : Nat), g < 8 → pwmRuns s g = true →
      answers (.periodBoundary g) s (fun t => (pwmAt t g).start = (pwmAt s g).start + (pwmAt s g).act.prd ∧ (pwmAt t g).prdDone = false ∧
        getF t (PWM_GRP_STAT_PCNT g) = (getF s (PWM_GRP_STAT_PCNT g) + 1) % 65536 ∧ pwmRuns t g = true ∧
        (flag s (PWM_GRP_CTRL_LDMODE g) = false → (pwmAt t g).act = (pwmAt t g).shadow ∧ (pwmAt t g).waits = [] ∧
          (pwmAt t g).armed = (pwmAt s g).armed.filter fun a => decide ((pwmAt t g).start < a)) ∧
        (flag s (PWM_GRP_CTRL_LDMODE g) = true → (pwmAt s g).armed = none → (pwmAt t g).act = (pwmAt s g).act) ∧
        (∀ k < 8, k ≠ g → pwmAt t k = pwmAt s k) ∧ partsBut s t [.regs, .hif, .pwm])) ∧
    (∀ (s : State) (g p : Nat) (q : PwmPair), g < 8 → p < 3 → pwmRuns s g = true → (pwmAt s g).pairs[p]? = some q → q.s = true → 0 < q.c →
      q.c < 32 * (pwmAt s g).act.prd →
      answers (.pwmCmpEvent g p) s (fun t => (pwmAt t g).pairs[p]? = some { q with
          s := false, h := none, l := if q.driven then some (32 * (pwmAt s g).start + q.c + 32 * (pwmAt s g).act.dt) else none } ∧
        (getF s (PWM_GRP_IEN_PSC g) < (pwmAt s g).occ.getD (2 + p) 0 + 1 → (rd t (PWM_GRP_IRQ g)).getLsbD (2 + p) = true) ∧
        regsBut s t (PWM_GRP_IRQ g :: tally) ∧ partsBut s t [.regs, .hif, .pwm])) ∧
    (∀ (s : State) (g : Nat), g < 8 → pwmRuns s g = true → (pwmAt s g).prdDone = false →
      answers (.pwmPrdEvent g) s (fun t => (pwmAt t g).prdDone = true ∧
        (getF s (PWM_GRP_IEN_PSC g) < (pwmAt s g).occ.getD 1 0 + 1 → (rd t (PWM_GRP_IRQ g)).getLsbD 1 = true) ∧
        ((pwmAt s g).occ.getD 1 0 + 1 ≤ getF s (PWM_GRP_IEN_PSC g) → t.regs = s.regs) ∧
        regsBut s t (PWM_GRP_IRQ g :: tally) ∧ partsBut s t [.regs, .hif, .pwm])) ∧
    (∀ (s : State) (c : Nat), c < 256 → answers (.delayLineLock c) s (fun t => flag t PWM_CAL_LOCK = true ∧ getF t PWM_CAL_TRIM = c ∧
      getF t PWM_CAL_CALS = (getF s PWM_CAL_CALS + 1) % 65536 ∧ regsBut s t [PWM_CAL] ∧ partsBut s t [.regs]))) ∧
  ((∀ (s : State) (h g : Nat), serves s h → g < 8 → holds s h kPwm g = true → getF s (PWM_GRP_CTRL_START_CNT g) < getF s (PWM_GRP_PRD_PRD g) →
      (flag s (PWM_GRP_CTRL_EN g) = false → startOk s g = true → startsNow s h (putFlag (PWM_GRP_CTRL_EN g) true) → answers (.pwmStart h g true) s (fun t => flag t (PWM_GRP_CTRL_EN g) = true ∧
        pwmRuns t g = true ∧ getF t (PWM_GRP_STAT_PCNT g) = 0 ∧ flag t (PWM_GRP_STAT_FORCED g) = false ∧ (pwmAt t g).act = (pwmAt t g).shadow ∧
        (pwmAt t g).start + min (getF s (PWM_GRP_CTRL_START_CNT g)) ((pwmAt t g).act.prd - 1) = max (nowTick s + slotsPerStep) (min (getF s (PWM_GRP_CTRL_START_CNT g)) ((pwmAt t g).act.prd - 1)) ∧
        wroteBut s t h [.regs, .sys, .pwm])) ∧
      (flag s (PWM_GRP_CTRL_EN g) = true → startsNow s h (putFlag (PWM_GRP_CTRL_EN g) false) → answers (.pwmStart h g false) s (fun t => flag t (PWM_GRP_CTRL_EN g) = false ∧
        pwmRuns t g = false ∧ flag t (PWM_GRP_STAT_HIZ g) = true ∧ (∀ q ∈ (pwmAt t g).pairs, q.driven = false) ∧
        regsBut s t [PWM_GRP_CTRL g, PWM_GRP_STAT g, PWM_STAT] ∧ wroteBut s t h [.regs, .sys, .pwm])) ∧
      (flag s (PWM_GRP_CTRL_EN g) = true → startOk s g = true → startsNow s h (putFlag (PWM_GRP_CTRL_RESUME g) true) → answers (.pwmResume h g) s (fun t => pwmRuns t g = true ∧ flag t (PWM_GRP_CTRL_EN g) = true ∧
        (pwmRuns s g = false → getF t (PWM_GRP_STAT_PCNT g) = 0 ∧ flag t (PWM_GRP_STAT_FORCED g) = false) ∧
        (pwmRuns s g = true → pwmAt t g = pwmAt s g ∧ regsBut s t [PWM_GRP_CTRL g]) ∧ wroteBut s t h [.regs, .sys, .pwm]))) ∧
    (∀ (s : State) (g i n t₀ : Nat), g < 8 → i < 2 → (getF s (PWM_GRP_CTRL_TRIP_EN g)).testBit i = true → 0 < n →
      (tripFilter s g i).act = false → getF s (PWM_GRP_COL_LEN g i) ≤ (tripFilter s g i).count + n →
      answers (.pwmTrip { g := g, i := i, t := t₀, runs := [((getF s (PWM_GRP_CTRL_TRIP_POL g)).testBit i, n)] }) s (fun t => pwmRuns t g = false ∧ flag t (PWM_GRP_STAT_HIZ g) = true ∧ flag t ⟨PWM_GRP_FLT g, i, i⟩ = true ∧
        (rd t (PWM_GRP_IRQ g)).getLsbD 5 = true ∧ getF t (PWM_GRP_CNT_TRIP_CNT g) = min (getF s (PWM_GRP_CNT_TRIP_CNT g) + 1) (2 ^ 32 - 1) ∧
        (∀ q ∈ (pwmAt t g).pairs, q.driven = false) ∧
        regsBut s t ([PWM_GRP_STAT g, PWM_STAT, PWM_GRP_COL g i, PWM_GRP_FLT g, PWM_GRP_IRQ g, PWM_GRP_CNT_TRIP g, CLK_X_CNT 1] ++ tally) ∧
        partsBut s t [.regs, .sys, .hif, .recd, .pwm])) ∧
    (∀ (s : State) (h g v : Nat), serves s h → g < 8 → v < 4 → holds s h kPwm g = true → tripClearOk s g v = true →
      startsNow s h [item (PWM_GRP_FLT g) 3#32 (BitVec.ofNat 32 v)] → answers (.tripClear h g v) s (fun t => (∀ i < 2, (rd t (PWM_GRP_FLT g)).getLsbD i = ((rd s (PWM_GRP_FLT g)).getLsbD i && !v.testBit i)) ∧
        flag t (PWM_GRP_STAT_TRIPPED g) = pwmTripped t g ∧ pwmRuns t g = pwmRuns s g ∧
        regsBut s t [PWM_GRP_FLT g, PWM_GRP_STAT g, PWM_STAT] ∧ wroteBut s t h [.regs, .sys])))

/-- The word that a shadow write leaves in its register: its item checked bit by bit (R425). -/
def shadowWord (s : State) (h g off : Nat) (mask v : Word) : Word := itemWord s h (item (PWM_GRP_CTRL g + off) mask v)

/-- R245, R266 to R269, R279: shadow writes and PWM_LOADALL. -/
def Obligations.PwmShadowWrites : Prop :=
  (∀ (s : State) (h g off : Nat) (mask v : Word), serves s h → g < 8 → 2 ≤ off → off ≤ 6 → touches (item (PWM_GRP_CTRL g + off) mask v) = true →
    holds s h kPwm g = true → pwmCheck s (PWM_GRP_CTRL g + off) (rd s (PWM_GRP_CTRL g + off)) (shadowWord s h g off mask v) = .ok →
    (4 ≤ off → loopDrives s 1 g (off - 4) = false) →
    startsNow s h [item (PWM_GRP_CTRL g + off) mask v] → answers (.shadowWrite h g off mask v) s (fun t => rd t (PWM_GRP_CTRL g + off) = shadowWord s h g off mask v ∧
      (pwmAt t g).writes = (pwmAt s g).writes ++ [{ at_ := hostWriteAt s, off := off, v := shadowWord s h g off mask v, loop := none }] ∧
      (pwmAt t g).act = (pwmAt s g).act ∧ (pwmAt t g).shadow = (pwmAt s g).shadow ∧
      (off < 4 → flag t (PWM_GRP_LAND_PEND g) = true ∧ getF t (PWM_GRP_LAND_IDX g) = off % 4) ∧
      (4 ≤ off → flag t (PWM_PR_LAND_PEND g (off - 4)) = true ∧ flag t (PWM_PR_LAND_BYLOOP g (off - 4)) = false) ∧
      regsBut s t [PWM_GRP_CTRL g + off, if off < 4 then PWM_GRP_LAND g else PWM_PR_LAND g (off - 4)] ∧ wroteBut s t h [.regs, .sys, .pwm])) ∧
  (∀ (s : State) (h v : Nat), serves s h → v < 256 → (∀ g < 8, v.testBit g = true → holds s h kPwm g = true) →
    startsNow s h [item PWM_LOADALL 0xFF#32 (BitVec.ofNat 32 v)] → answers (.pwmLoadall h v) s (fun t => ∀ g < 8,
      (v.testBit g = true → (pwmAt t g).armed = some ((pwmAt s g).armed.getD (hostWriteAt s)) ∧ flag t (PWM_GRP_STAT_LDARM g) = true ∧ (rd t PWM_LOADALL).getLsbD g = true) ∧
      (v.testBit g = false → pwmAt t g = pwmAt s g)))

/-- The way between two edges of an emulation output: half a turn of pulses, a quarter in quadrature (R290). -/
def emuWay (s : State) (k : Nat) : Nat := if flag s (ENC_EMU_CFG_FORM k) then emuTurn / 2 else emuTurn / 4

/-- Counting inputs, speeds and the encoder emulation. R284 to R286, R288, R289, R291: the counting inputs. R287, R290, R291: speeds and the encoder emulation. -/
def Obligations.CountersSpeedsAndEmulation : Prop :=
  ((∀ (s : State) (u : Nat) (a b : Bool) (n t₀ d : Nat), u < 12 → fltOf s u < n → counts s u = true → (quadPos a b + 4 - quadPos (cntAt s u).a (cntAt s u).b) % 4 = d →
      answers (.quadTransition u a b n t₀) s (fun t => ((cntAt t u).a = a ∧ (cntAt t u).b = b) ∧
        ((d = 1 ∨ d = 3) → (cntAt t u).raw = (cntAt s u).raw +
          (if (if u < 8 then flag s (ENC_PT_CFG_INV u) else flag s (ENC_WH_CFG_INV (u - 8))) = decide (d = 1) then -1 else 1)) ∧
        ((d = 1 ∨ d = 3) → (if u < 8 then flag s (ENC_PT_CFG_HYST u) else flag s (ENC_WH_CFG_HYST (u - 8))) = false →
          (cntAt t u).rep = (cntAt t u).raw ∧
          (u < 8 → portState s u = esQuad → flag s (ENC_PT_STAT_FALLBK u) = false → (cntAt t u).raw ≠ (cntAt s u).rep →
            rd t (ENC_PT_POS u) = BitVec.ofInt 32 (cntAt t u).raw)) ∧
        (d = 2 → (cntAt t u).raw = (cntAt s u).raw ∧ (u < 8 → getF t (ENC_PT_CNT_ILLEGAL u) = min (getF s (ENC_PT_CNT_ILLEGAL u) + 1) 65535) ∧
          (8 ≤ u → getF t (ENC_WH_FLT_ILLEGAL (u - 8)) = min (getF s (ENC_WH_FLT_ILLEGAL (u - 8)) + 1) 65535)) ∧ partsBut s t [.regs, .recd, .enc])) ∧
    (∀ (s : State) (p n t₀ : Nat), p < 8 → fltOf s p < n → (getF s (ENC_PT_STAT_LVL p)).testBit 2 = false → counts s p = true →
      answers (.indexEdge p true n t₀) s (fun t =>
      rd t (ENC_PT_IDX p) = BitVec.ofInt 32 (cntAt s p).rep ∧ flag t (ENC_PT_STAT_REFD p) = true ∧
      (getF s (ENC_PT_CFG_ZMODE p) = 2 → (cntAt t p).raw = 0 ∧ (cntAt t p).rep = 0) ∧
      (getF s (ENC_PT_CFG_ZMODE p) = 0 → cntAt t p = cntAt s p) ∧
      regsBut s t [ENC_PT_IDX p, ENC_PT_STAT p, ENC_PT_POS p, ENC_PT_ANG p, CLK_X_CNT 1] ∧ partsBut s t [.regs, .sys, .enc])) ∧
    (∀ (s : State) (w n t₀ : Nat) (b : Bool), w < 4 → fltOf s (8 + w) < n → getF s (ENC_WH_STAT_STATE w) ≠ esOff →
      (getF s (ENC_WH_CFG_MODE w) = 3 → answers (.wheelPulse w true b n t₀) s (fun t => (cntAt t (8 + w)).raw = (cntAt s (8 + w)).raw + 1)) ∧
      (getF s (ENC_WH_CFG_MODE w) = 2 → answers (.wheelPulse w true b n t₀) s (fun t => (cntAt t (8 + w)).raw = (cntAt s (8 + w)).raw +
        (if flag s (ENC_WH_CFG_INV w) = b then -1 else 1))) ∧
      answers (.wheelPulse w false b n t₀) s (fun t => (cntAt t (8 + w)).raw = (cntAt s (8 + w)).raw ∧ t.regs = s.regs ∧ partsBut s t [.enc])) ∧
    (∀ (s : State) (f n : Nat) (r : Bool), f < 8 → flag s (SNS_PLS_CFG_EN f) = true →
      (n < max 1 (getF s (SNS_PLS_CFG_DEB f) * 100) → answers (.flowEdge f r n) s (fun t =>
        getF t (SNS_PLS_STAT_GLITCH f) = min (getF s (SNS_PLS_STAT_GLITCH f) + 1) 65535 ∧ regsBut s t [SNS_PLS_STAT f] ∧ partsBut s t [.regs])) ∧
      (max 1 (getF s (SNS_PLS_CFG_DEB f) * 100) ≤ n → (getF s (SNS_PLS_CFG_EDGE f)).testBit (if r then 0 else 1) = true →
        answers (.flowEdge f r n) s (fun t => rd t (SNS_PLS_TOT f) = rd s (SNS_PLS_TOT f) + 1 ∧ (cntAt t (14 + f)).edges = (cntAt s (14 + f)).edges + 1 ∧
          regsBut s t [SNS_PLS_TOT f] ∧ partsBut s t [.regs, .enc]))) ∧
    (∀ (s : State) (i t₀ : Nat) (l : Bool), i < 2 → flag s (SNS_ISO_CFG_EN i) = true →
      answers (.speedSignalEdge i true l t₀) s (fun t => (cntAt t (12 + i)).b = l ∧ (cntAt t (12 + i)).edges = (cntAt s (12 + i)).edges ∧
        t.regs = s.regs ∧ partsBut s t [.enc]) ∧
      answers (.speedSignalEdge i false true t₀) s (fun t => (cntAt t (12 + i)).edges = (cntAt s (12 + i)).edges + 1 ∧ (cntAt t (12 + i)).lastEdge = some t₀ ∧
        (∀ u, (cntAt s (12 + i)).lastEdge = some u → t₀ < u + per100us → flag t (SNS_ISO_STAT_OVF i) = true ∧ flag t (SNS_ISO_STAT_VALID i) = false) ∧
        regsBut s t [SNS_ISO_STAT i] ∧ partsBut s t [.regs, .enc]))) ∧
  ((∀ (s : State) (u : Nat), unitOn s u = true →
      (u < 8 → portState s u = esQuad → answers (.speedWindowEnd u) s (fun t =>
        rd t (ENC_PT_SPD u) = BitVec.ofInt 32 (roundDiv (((cntAt s u).rep - (cntAt s u).winAt) * 1000000) (unitWin s u * 500)) ∧
        (cntAt t u).win = (cntAt s u).win + unitWin s u * 100000 ∧ (cntAt t u).winAt = (cntAt s u).rep ∧
        regsBut s t [ENC_PT_SPD u] ∧ partsBut s t [.regs, .enc])) ∧
      (8 ≤ u → u < 12 → getF s (ENC_WH_STAT_STATE (u - 8)) ≠ esFault → answers (.speedWindowEnd u) s (fun t =>
        rd t (ENC_WH_SPD (u - 8)) = BitVec.ofInt 32 (roundDiv (((cntAt s u).rep - (cntAt s u).winAt) * 1000000) (unitWin s u * 500)) ∧
        (cntAt t u).win = (cntAt s u).win + unitWin s u * 100000 ∧ (cntAt t u).winAt = (cntAt s u).rep ∧
        regsBut s t [ENC_WH_SPD (u - 8)] ∧ partsBut s t [.regs, .enc])) ∧
      (14 ≤ u → u < 22 → answers (.speedWindowEnd u) s (fun t =>
        rd t (SNS_PLS_FREQ (u - 14)) = BitVec.ofInt 32 (roundDiv (((cntAt s u).edges : Int) * 1000000000) (unitWin s u * 500)) ∧
        getF t (SNS_PLS_STAT_EDGES (u - 14)) = min 65535 (cntAt s u).edges ∧ (cntAt t u).edges = 0 ∧
        regsBut s t [SNS_PLS_FREQ (u - 14), SNS_PLS_STAT (u - 14)] ∧ partsBut s t [.regs, .enc]))) ∧
    (∀ (s : State) (k t₀ : Nat), k < 2 → flag s (ENC_EMU_CFG_EN k) = true → getF s (ENC_EMU_CFG_SRC k) < 2 → emuWay s k ≤ (emuAt (emuRun s k t₀) k).acc →
      answers (.emuOutputEdge k t₀) s (fun t => (emuAt t k).acc + emuWay s k = (emuAt (emuRun s k t₀) k).acc ∧
        (if flag s (ENC_EMU_CFG_FORM k) then (emuAt t k).a = !(emuAt s k).a ∧ (emuAt t k).b = (emuAt s k).fwd
          else (emuAt t k).phase = (if (emuAt s k).fwd then (emuAt s k).phase + 1 else (emuAt s k).phase + 3) % 4 ∧
            (emuAt t k).a = decide ((emuAt t k).phase = 1 ∨ (emuAt t k).phase = 2) ∧ (emuAt t k).b = decide ((emuAt t k).phase = 2 ∨ (emuAt t k).phase = 3)) ∧
        t.regs = s.regs ∧ partsBut s t [.enc])))

/-- The value of a word: its NBITS low bits. -/
def wordValue (s : State) (p : Nat) (w : SerialWord) : Nat := w.bits % 2 ^ getF s (ENC_PT_WORD_NBITS p)

/-- R281 to R284: serial ports. -/
def Obligations.SerialEncoders : Prop :=
  (∀ (s : State) (p : Nat), p < 8 → serialMode s p = true → portState s p ≠ esOff → answers (.serialReadStart p) s (fun t =>
    (serAt t p).reading = some ((serAt s p).ta + (serAt s p).n * (getF s (ENC_PT_REQ_PER p) * perUs)) ∧ (serAt t p).n = (serAt s p).n + 1 ∧
    t.regs = s.regs ∧ partsBut s t [.enc])) ∧
  (∀ (s : State) (p i : Nat) (w : SerialWord), p < 8 → (serAt s p).reading = some i → getF s (ENC_PT_CFG_MODE p) = 1 → portState s p = esSerial →
    (framed s p w = true → flag s (ENC_PT_CFG_GRAY p) = false → answers (.serialReadDone p w) s (fun t =>
      (serAt t p).word = some (wordValue s p w) ∧ (serAt t p).fails = 0 ∧ (serAt t p).reading = none ∧ (serAt t p).posAt = some i ∧
      rd t (ENC_PT_RAW_LO p) = BitVec.ofNat 32 (wordValue s p w) ∧ rd t (ENC_PT_POS p) = BitVec.ofNat 32 (wordValue s p w) ∧
      getF t (ENC_PT_ANG_ANG p) = serialAngle s p (wordValue s p w) % 65536 ∧ flag t (ENC_PT_ANG_ANGV p) = true ∧
      regsBut s t [ENC_PT_RAW_LO p, ENC_PT_RAW_HI p, ENC_PT_POS p, ENC_PT_ANG p] ∧ partsBut s t [.regs, .enc])) ∧
    (framed s p w = false → answers (.serialReadDone p w) s (fun t => (serAt t p).fails = (serAt s p).fails + 1 ∧ (serAt t p).reading = none ∧
      getF t (ENC_PT_CNT_SERR p) = min (getF s (ENC_PT_CNT_SERR p) + 1) 65535 ∧
      ((serAt s p).fails + 1 < getF s (ENC_PT_REQ_ERR_MAX p) → portState t p = esSerial ∧ regsBut s t [ENC_PT_CNT p]) ∧
      (getF s (ENC_PT_REQ_ERR_MAX p) ≤ (serAt s p).fails + 1 → flag t (ENC_PT_FLT_SERR p) = true ∧
        (if flag s (ENC_PT_CFG_QUAD_EN p) && !flag s (ENC_PT_STAT_QFLT p) then portState t p = esQuad ∧ flag t (ENC_PT_STAT_FALLBK p) = true
          else portState t p = esFault ∧ flag t (ENC_PT_ANG_ANGV p) = false)) ∧ partsBut s t [.regs, .recd, .enc]))) ∧
  (∀ (s : State) (h p m : Nat), serves s h → ownerOrService s h = true → p < 8 → regAssigned (ENC_PT_CFG p) = true → m < 4 →
    getF s (ENC_PT_CFG_ZMODE p) ≠ 3 → bitsOf (rd s (ENC_PT_CFG p)) 20 16 ≤ 24 → getF s (ENC_PT_CFG_MODE p) ≠ m →
    (m ≠ 0 → portState s p = esOff → startsNow s h (putField (ENC_PT_CFG_MODE p) m) → answers (.portModeWrite h p m) s (fun t => getF t (ENC_PT_CFG_MODE p) = m ∧
      portState t p = (if m = 3 then esQuad else esSerial) ∧ (serAt t p).fails = 0 ∧ (serAt t p).n = 0 ∧ (serAt t p).ta = nowTick s + slotsPerStep ∧
      wroteBut s t h [.regs, .sys, .enc])) ∧
    (m = 0 → portUsed s p = false →
      startsNow s h (putField (ENC_PT_CFG_MODE p) 0) → answers (.portModeWrite h p 0) s (fun t => getF t (ENC_PT_CFG_MODE p) = 0 ∧ portState t p = esOff ∧ flag t (ENC_PT_ANG_ANGV p) = false ∧
        wroteBut s t h [.regs, .sys, .enc]))) ∧
  (∀ (s : State) (h p : Nat), serves s h → ownerOrService s h = true → p < 8 → regAssigned (ENC_PT_FLT p) = true → portState s p = esFault →
    serrHere s p = false → illHere s p = false → (flag s (ENC_PT_FLT_SERR p) || flag s (ENC_PT_FLT_ILL p)) = true →
    startsNow s h [item (ENC_PT_FLT p) 0xF#32 (BitVec.ofNat 32 15)] → answers (.portFaultClear h p 15) s (fun t => portState t p = (if serialMode s p then esSerial else esQuad) ∧ rd t (ENC_PT_FLT p) &&& 15#32 = 0 ∧
      flag t (ENC_PT_STAT_REFD p) = false ∧ flag t (ENC_PT_STAT_FALLBK p) = false ∧ wroteBut s t h [.regs, .sys, .enc]))

/-- The conversions that a mean with the new one takes (R292). -/
def averaged (s : State) (a c : Nat) : List Nat := ((c :: (ainAt s a).conv).take 128).take (2 ^ getF s (SNS_AIN_CFG_AVG a))

/-- R292 to R294: the analogue inputs and the IMU. -/
def Obligations.AnalogueInputsAndImu : Prop :=
  (∀ (s : State) (a c : Nat), a < 16 → c < 65536 →
    (flag s (SNS_AIN_CFG_EN a) = true → answers (.ainConversion a c) s (fun t =>
      getF t (SNS_AIN_VAL_CODE a) = (roundDiv ((averaged s a c).sum : Nat) (averaged s a c).length).toNat % 65536 ∧ (ainAt t a).conv = (c :: (ainAt s a).conv).take 128 ∧
      regsBut s t (SNS_AIN_VAL a :: SNS_AIN_FLT a :: tally) ∧ partsBut s t [.regs, .recd, .enc])) ∧
    (flag s (SNS_AIN_CFG_EN a) = true → flag s (SNS_AIN_VAL_FAULT a) = false → 0 < (ainAt s a).out → ainTime s a ≤ (ainAt s a).out →
      answers (.ainFault a) s (fun t => flag t (SNS_AIN_VAL_FAULT a) = true ∧
        flag t (if getF s (SNS_AIN_LIM_HI a) < getF s (SNS_AIN_VAL_CODE a) then SNS_AIN_FLT_HIF a else SNS_AIN_FLT_LOF a) = true ∧
        regsBut s t (SNS_AIN_VAL a :: SNS_AIN_FLT a :: tally) ∧ partsBut s t [.regs, .recd])) ∧
    (flag s (SNS_AIN_VAL_FAULT a) = true → 0 < (ainAt s a).within → ainTime s a ≤ (ainAt s a).within →
      answers (.ainFaultClear a) s (fun t => flag t (SNS_AIN_VAL_FAULT a) = false ∧ getF t (SNS_AIN_VAL_CODE a) = getF s (SNS_AIN_VAL_CODE a) ∧
        regsBut s t [SNS_AIN_VAL a] ∧ partsBut s t [.regs]))) ∧
  (∀ (s : State) (t₀ : Nat), flag s SNS_IMU_CFG_EN = true →
    (∀ b : List Byte, b.length = getF s SNS_IMU_BURST_LEN →
      ((∀ u ∈ s.enc.drdy, u + 475 * perUs ≤ t₀) → answers (.imuDrdy t₀ b) s (fun t => t.enc.drdy = some t₀ ∧ flag t SNS_IMU_STAT_VALID = true ∧
        rd t (SNS_IMU_GYR 0) = BitVec.ofInt 32 (fit 32 (imuField s b SNS_IMU_MAP_GX * (rd s SNS_IMU_GSC).toNat)) ∧
        rd t (SNS_IMU_GYR 2) = BitVec.ofInt 32 (fit 32 (imuField s b SNS_IMU_MAP_GZ * (rd s SNS_IMU_GSC).toNat)) ∧
        rd t (SNS_IMU_ACC 1) = BitVec.ofInt 32 (fit 32 (roundDiv (imuField s b SNS_IMU_MAP_AY * (rd s SNS_IMU_ASC).toNat) 256)) ∧
        regsBut s t [SNS_IMU_STAT, SNS_IMU_GYR 0, SNS_IMU_GYR 1, SNS_IMU_GYR 2, SNS_IMU_ACC 0, SNS_IMU_ACC 1, SNS_IMU_ACC 2, CLK_X_CNT 1] ∧ partsBut s t [.regs, .sys, .enc])) ∧
      (∀ u, s.enc.drdy = some u → t₀ < u + 475 * perUs → answers (.imuDrdy t₀ b) s (fun t =>
        getF t SNS_IMU_STAT_FAST = min (getF s SNS_IMU_STAT_FAST + 1) 65535 ∧ regsBut s t [SNS_IMU_STAT, CLK_X_CNT 1] ∧ partsBut s t [.regs, .sys]))) ∧
    (s.enc.imuDead = false → s.enc.drdy.getD s.enc.imuOn + getF s SNS_IMU_CFG_TMO * perMs ≤ t₀ →
      answers (.imuTimeout t₀) s (fun t => flag t SNS_IMU_STAT_VALID = false ∧ flag t SNS_IMU_STAT_TMOF = true ∧ t.enc.imuDead = true ∧
        regsBut s t (SNS_IMU_STAT :: tally) ∧ partsBut s t [.regs, .recd, .enc]))) ∧
  (∀ (s : State) (h addr b : Nat), serves s h → ownerOrService s h = true → addr < 256 → b < 256 → flag s SNS_IMU_CFG_EN = false →
    (startsNow s h [item SNS_IMU_XFER 0x1FFFF#32 (BitVec.ofNat 32 (addr + b * 256 + 65536))] → answers (.imuXferWrite h addr b) s (fun t => getF t SNS_IMU_XFER_ADDR = addr ∧ getF t SNS_IMU_XFER_DATA = b ∧ flag t SNS_IMU_XFER_WR = false ∧
      regsBut s t [SNS_IMU_XFER] ∧ wroteBut s t h [.regs, .sys, .enc])) ∧
    (startsNow s h [item SNS_IMU_XFER 0x200FF#32 (BitVec.ofNat 32 (addr + 131072))] → answers (.imuXferRead h addr b) s (fun t => getF t SNS_IMU_XFER_ADDR = addr ∧ getF t SNS_IMU_XFER_RDATA = b ∧ flag t SNS_IMU_XFER_RD = false ∧
      regsBut s t [SNS_IMU_XFER] ∧ wroteBut s t h [.regs, .sys, .enc, .free])))

/-- Only slot `i` may have changed. -/
def onlyGnsSlot (s t : State) (i : Nat) : Prop := ∀ j < 192, j ≠ i → gnsAt t j = gnsAt s j

/-- R303 to R306, R309: slot states. -/
def Obligations.GnssSlotStates : Prop :=
  (∀ (s : State) (i : Nat), i < 192 → (gnsAt s i).state = gsSearch →
    answers (.acqDwell i false) s (fun t => gnsAt t i = { gnsAt s i with confirm := false, dwells := nextBin s (gnsAt s i) } ∧
      t.regs = s.regs ∧ onlyGnsSlot s t i ∧ partsBut s t [.gns]) ∧
    answers (.acqDwell i true) s (fun t => gnsAt t i = (if (gnsAt s i).confirm then toPullin (gnsAt s i) else { gnsAt s i with confirm := true }) ∧
      getF t GNS_CNT_ACQ_CNT = min (getF s GNS_CNT_ACQ_CNT + bit (gnsAt s i).confirm 0) (2 ^ GNS_CNT_ACQ_CNT.width - 1) ∧ onlyGnsSlot s t i ∧
      regsBut s t [GNS_CNT_ACQ] ∧ partsBut s t [.regs, .gns])) ∧
  (∀ (s : State) (i t₀ : Nat), i < 192 → inThisStep s t₀ = true →
    (∀ e, (gnsAt s i).state = gsAided ∨ ((gnsAt s i).state = gsLost ∧ aidedOk s i (absTick s t₀) e = true) →
      answers (.aidedSearch i t₀ e true) s (fun t => gnsAt t i = (if (gnsAt s i).confirm then { toPullin (gnsAt s i) with aided := true }
          else { gnsAt s i with state := gsAided, confirm := true }) ∧
        getF t GNS_CNT_REACQ_CNT = min (getF s GNS_CNT_REACQ_CNT + bit (gnsAt s i).confirm 0) (2 ^ GNS_CNT_REACQ_CNT.width - 1) ∧ onlyGnsSlot s t i ∧
        regsBut s t [GNS_CNT_REACQ] ∧ partsBut s t [.regs, .gns]) ∧
      answers (.aidedSearch i t₀ e false) s (fun t => gnsAt t i = (if (gnsAt s i).dwells + 1 < aidedDwells s
          then { gnsAt s i with state := gsAided, confirm := false, dwells := (gnsAt s i).dwells + 1 }
          else { gnsAt s i with state := gsSearch, confirm := false, dwells := 0 }) ∧
        onlyGnsSlot s t i ∧ t.regs = s.regs ∧ partsBut s t [.gns])) ∧
    (∀ l : List (Nat × Bool), (gnsAt s i).state = gsTrack → lossDue s l = true →
      answers (.trackLoss i t₀ l) s (fun t => (gnsAt t i).state = gsLost ∧ (gnsAt t i).lostAt = absTick s t₀ ∧
        getF t GNS_CNT_LOSS_CNT = min (getF s GNS_CNT_LOSS_CNT + 1) (2 ^ GNS_CNT_LOSS_CNT.width - 1) ∧ onlyGnsSlot s t i ∧
        regsBut s t [GNS_CNT_LOSS] ∧ partsBut s t [.regs, .gns])) ∧
    ((gnsAt s i).state = gsLost → (gnsAt s i).lostAt + getF s GNS_AID_HOLD * ticksPerSec ≤ absTick s t₀ →
      answers (.lostHoldExpiry i t₀) s (fun t => ((gnsAt s i).pin = true → (gnsAt t i).state = gsSearch) ∧
        ((gnsAt s i).pin = false → s.gns.sky = [] ∨ s.sys.phase ≠ .up → (gnsAt t i).state = gsIdle ∧ onlyGnsSlot s t i) ∧
        (∀ j < 192, j ≠ i → (gnsAt s j).state ≠ gsIdle → gnsAt t j = gnsAt s j) ∧
        (gnsAt t i).cfg = (gnsAt s i).cfg ∧ t.regs = s.regs ∧ partsBut s t [.gns]))) ∧
  (∀ (s : State) (i : Nat) (l : List (Bool × Nat)), i < 192 → (gnsAt s i).state = gsPullin → 20 ≤ l.length →
    (∀ p ∈ l.reverse.take 20, p.1 = true ∧ getF s GNS_LOCK_PLI_TH ≤ p.2) →
    answers (.pullinToTrack i l) s (fun t => gnsAt t i = { gnsAt s i with state := gsTrack } ∧ onlyGnsSlot s t i ∧ t.regs = s.regs ∧ partsBut s t [.gns]))

/-- Measurement epochs, solutions and navigation units. R298, R310 to R313, R322, R329: epochs. R315 to R319: solutions and navigation units. -/
def Obligations.EpochsSolutionsAndNavigationUnits : Prop :=
  ((∀ (s : State) (t₀ : Nat) (l : List SlotMeas) (sky : List GnsCand) (r0 r1 : PortRf) (lock : Bool), inThisStep s t₀ = true → measOrdered l = true →
      epochHere s (absTick s t₀) = true → flag s CLK_STAT_G_LOCK = true → s.gns.waiting = [] →
      answers (.measEpoch t₀ l sky r0 r1 lock) s (fun t =>
        t.gns.epochs.head?.map (fun e => (e.seq, e.step, e.tb0v, e.clkStep)) =
          some (s.gns.seq, stepCnt s, flag s (TIM_TB_STAT_VALID 0), s.gns.clkStep) ∧
        t.gns.epochs.head?.map (fun e => (e.tep : Int)) = some (tbAt s 0 (absTick s t₀) / (tbUnit * 50000000) * 50000000 % 2 ^ 64) ∧
        t.gns.epochs.tail = s.gns.epochs.take 3 ∧ t.gns.seq = (if s.gns.seq = 0xFFFFFFFE then 0 else s.gns.seq + 1) ∧ t.gns.clkStep = false ∧
        flag t GNS_STAT_RF_LOCK = lock ∧ flag t GNS_IRQ_MEAS = true)) ∧
    (∀ (s : State) (t₀ : Nat) (m : SlotMeas) (sky : List GnsCand) (r0 r1 : PortRf) (lock : Bool), inThisStep s t₀ = true → m.slot < 192 →
      epochHere s (absTick s t₀) = true → flag s CLK_STAT_G_LOCK = true → s.gns.waiting = [] → (∀ i < 192, (gnsAt s i).cfgNew = false) →
      (gnsAt s m.slot).state = gsTrack → signalOn s (gnsAt s m.slot).sig (gnsAt s m.slot).port = true → (gnsAt s m.slot).half = false →
      answers (.measEpoch t₀ [m] sky r0 r1 lock) s (fun t => (gnsAt t m.slot).carr = (gnsAt s m.slot).carr + m.dcarr ∧ (gnsAt t m.slot).state = gsTrack ∧
        (phaseBroken s m = false → (gnsAt s m.slot).passed = false → (gnsAt t m.slot).age = (gnsAt s m.slot).age + 1 ∧
          (gnsAt t m.slot).slipc = (gnsAt s m.slot).slipc) ∧
        (phaseBroken s m = true → (gnsAt t m.slot).age = 0 ∧ (gnsAt t m.slot).slipc = ((gnsAt s m.slot).slipc + 1) % 256) ∧
        (t.gns.epochs.head?.map fun e => e.recs.length) = some 1)) ∧
    (∀ (s : State) (h : Nat), serves s h → ownerOrService s h = true →
      startsNow s h (putFlag GNS_CTRL_RST true) → answers (.gnsRst h) s (fun t => bitsOf (sparseGet (fun _ => 0#32) t.gns.waiting GNS_CTRL) 31 31 = 1 ∧ t.gns.slots = s.gns.slots ∧
        regsBut s t [GNS_CTRL] ∧ wroteBut s t h [.regs, .sys, .gns])) ∧
    (∀ (s : State) (t₀ : Nat) (w : Word) (sky : List GnsCand) (r0 r1 : PortRf) (lock : Bool), inThisStep s t₀ = true → epochHere s (absTick s t₀) = true →
      flag s CLK_STAT_G_LOCK = true → s.gns.waiting = [(GNS_CTRL, w)] → bitsOf w 31 31 = 1 →
      answers (.measEpoch t₀ [] sky r0 r1 lock) s (fun t => (∀ i < 192, (gnsAt t i).state = gsIdle) ∧ t.gns.seq = 1 ∧ t.gns.waiting = [] ∧
        rd t GNS_CTRL = regReset GNS_CTRL ∧ flag t (TIM_TB_STAT_VALID 0) = false))) ∧
  ((∀ (s : State) (t₀ : Nat) (x : SolIn) (e : GnsEpoch) (rest : List GnsEpoch), inThisStep s t₀ = true → x.type ≤ 4 → x.latency ≤ 35 →
      x.priv.length ≤ 24 → s.gns.epochs = e :: rest → s.sys.phase = .up →
      answers (.solution t₀ x) s (fun t => rd t GNS_SOL_STEP = e.step ∧ rdPair t GNS_SOL_T_LO GNS_SOL_T_HI = e.tep % 2 ^ 64 ∧
        rdPair t GNS_SOL_LAT_LO GNS_SOL_LAT_HI = unsigned 64 x.lat ∧ rdPair t GNS_SOL_LON_LO GNS_SOL_LON_HI = unsigned 64 x.lon ∧
        getF t GNS_STAT_NUSED = satsUsed s x % 64 ∧ flag t GNS_IRQ_SOL = true ∧
        getF t GNS_STAT_TYPE = solType s (absTick s t₀) x ∧ (flag s GNS_CTRL_RTK_EN = false ∨ corrFresh s (absTick s t₀) = false → getF t GNS_STAT_TYPE ≤ 1) ∧
        t.kin.sol.map (fun k => (k.step, k.e, k.n, k.vE, k.vN, k.sigma)) = some (e.step, x.e, x.n, x.vE, x.vN, x.sigH))) ∧
    (∀ (s : State) (i unit st edge : Nat) (ok : Bool) (b : List Bool), i < 192 → (unit = 0 ∨ (unit = 1 ∧ (gnsAt s i).sig = 2)) →
      b.length = unitBits (gnsAt s i).sig unit → ((gnsAt s i).state = gsPullin ∨ (gnsAt s i).state = gsTrack) →
      answers (.navUnit i unit st ok edge b none) s (fun t => flag t GNS_IRQ_NAV = true ∧ t.gns.slots = s.gns.slots ∧
        t.gns.navSeq % 2 ^ 32 = (s.gns.navSeq + (if (gnsAt s i).sig = 2 ∧ unit = 0 then 8 else 1)) % 2 ^ 32 ∧
        ((gnsAt s i).sig = 0 → t.gns.nav.getLast?.map (·.bytes) = some (leBytes 4 s.gns.navSeq ++ leBytes 1 i ++ leBytes 1 (16 * (gnsAt s i).port) ++
          leBytes 1 (gnsAt s i).svid ++ leBytes 1 (bit (decide (st % 1024 = 1023)) 0 + unit * 2) ++ leBytes 2 (st % 1024) ++ leBytes 2 300 ++
          leBytes 4 (edge / 100 % 2 ^ 32) ++ packBits 64 b) ∧ t.free = s.free) ∧
        regsBut s t (GNS_IRQ :: tally) ∧ partsBut s t [.regs, .hif, .gns, .free])))

/-- R300, R304, R318, R321: antenna bias, corrections and pins. -/
def Obligations.AntennaBiasAndCorrections : Prop :=
  (∀ (s : State) (q : Nat), q < 2 → flag s (GNS_ANT_CFG_BIAS_EN q) = true →
    answers (.antOpen q) s (fun t => flag t (GNS_ANT_STAT_OPEN q) = true ∧ flag t GNS_STAT_ANT_FLT = true ∧ flag t ⟨GNS_FLT, 2 * q, 2 * q⟩ = true ∧
      (flag s ⟨GNS_FLT, 2 * q, 2 * q⟩ = false → flag t GNS_IRQ_ANT = true) ∧
      regsBut s t (GNS_ANT_STAT q :: GNS_FLT :: GNS_STAT :: GNS_IRQ :: tally) ∧ partsBut s t [.regs, .hif, .recd])) ∧
  (∀ (s : State) (q t₀ : Nat), q < 2 → inThisStep s t₀ = true →
    (flag s (GNS_ANT_CFG_BIAS_EN q) = true → biasShort s q = none →
      answers (.antShort q t₀) s (fun t => flag t (GNS_ANT_STAT_SHORT q) = true ∧ flag t GNS_STAT_ANT_FLT = true ∧ biasShort t q = some (absTick s t₀) ∧
        flag t ⟨GNS_FLT, 2 * q + 1, 2 * q + 1⟩ = true ∧ regsBut s t (GNS_ANT_STAT q :: GNS_FLT :: GNS_STAT :: GNS_IRQ :: tally) ∧
        partsBut s t [.regs, .hif, .recd, .gns])) ∧
    (∀ u, biasShort s q = some u → u + ticksPerSec ≤ absTick s t₀ →
      answers (.biasReclose q t₀) s (fun t => biasShort t q = none ∧ flag t (GNS_ANT_STAT_SHORT q) = false ∧
        regsBut s t [GNS_ANT_STAT q, GNS_STAT] ∧ partsBut s t [.regs, .gns]))) ∧
  (∀ (s : State) (t₀ : Nat), inThisStep s t₀ = true →
    (s.gns.corrAt ≠ none → corrFresh s (absTick s t₀) = false → s.gns.lost = false →
      answers (.correctionAgeExceeded t₀) s (fun t => t.gns.lost = true ∧ flag t GNS_FLT_RTCM_LOST = true ∧
        getF t GNS_STAT_TYPE = min 1 (getF s GNS_STAT_TYPE) ∧
        regsBut s t (GNS_FLT :: GNS_STAT :: GNS_SOL_INFO :: GNS_IRQ :: GNS_RTK_STAT :: tally) ∧ partsBut s t [.regs, .hif, .recd, .gns])) ∧
    (flag s GNS_STAT_SRCV = true → s.gns.srcAt + getF s GNS_RTK_SRC_HOLD * ticksPerSec ≤ absTick s t₀ →
      answers (.sourceHoldExpiry t₀) s (fun t => flag t GNS_STAT_SRCV = false ∧ regsBut s t [GNS_STAT] ∧ partsBut s t [.regs]))) ∧
  (∀ (s : State) (h i : Nat) (v : Word), serves s h → ownerOrService s h = true → bitsOf (winGet s h GNS_SLOT_SEL) 7 0 = i →
    pinValid s i (v &&& 0x3FF7#32) = true →
    startsNow s h [item GNS_SLOT_CFG 0xFFFFFFFF#32 v] → answers (.slotPin h v) s (fun t => (gnsAt t i).cfg &&& 0x3FF7#32 = v &&& 0x3FF7#32 ∧ (gnsAt t i).cfgNew = true ∧ (gnsAt t i).state = (gnsAt s i).state ∧
      onlyGnsSlot s t i ∧ regsBut s t [GNS_SLOT_CFG] ∧ wroteBut s t h [.regs, .sys, .gns]))

/-- R412 to R417, R421, R422: the recorder's own events. -/
def Obligations.RecorderWritesAndLimits : Prop :=
  (∀ (s : State) (e : RecEntry) (l : Nat), s.recd.writing = some (e, l) →
    answers .recordWritten s (fun t => logAt t s.recd.next = recBytes e l s.recd.next ∧ t.recd.next = s.recd.next + 1 ∧
      (∀ i < 20, i ≠ s.recd.next → logAt t i = logAt s i) ∧
      (s.recd.next = 16383 → t.recd.full = true ∧ t.recd.staging = [] ∧ t.recd.writing = none) ∧
      (s.recd.next < 16382 → s.recd.freeze = none → s.recd.clearing = none → s.recd.searching = false → s.recd.full = false →
        t.recd.staging = s.recd.staging.tail ∧ t.recd.writing = s.recd.staging.head?.map fun x => (x, s.recd.lost)) ∧
      regsBut s t [REC_CNT_FULL] ∧ partsBut s t [.regs, .recd])) ∧
  (∀ s : State, s.recd.searching = true → answers .nextSearchDone s (fun t => t.recd.searching = false ∧ t.recd.next = firstFree s.recd.log 0 ∧
    (t.recd.next < 16383 → (t.recd.writing.map fun w => w.1.code) = some 3 ∧ t.recd.staging = s.recd.staging) ∧ t.recd.log = s.recd.log ∧
    partsBut s t [.regs, .recd])) ∧
  (∀ s : State, answers .opsecSave s (fun t => getF t REC_OPSEC_VAL = min (getF s REC_OPSEC_VAL + 1) (2 ^ 32 - 1) ∧ t.recd.savedOpsec = rd t REC_OPSEC ∧
    t.recd.fracSteps = 0 ∧ regsBut s t [REC_OPSEC] ∧ partsBut s t [.regs, .recd])) ∧
  (∀ (s : State) (t₀ : Nat), inThisStep s t₀ = true →
    (∀ p, s.recd.freeze = some p → s.recd.freezeAt + getF s REC_CTRL_FRZ_MAX * ticksPerSec ≤ absTick s t₀ →
      answers (.freezeTmo t₀) s (fun t => t.recd.freeze = none ∧ t.recd.log = s.recd.log ∧ partsBut s t [.regs, .recd])) ∧
    (s.recd.lock = true → s.recd.lockAt + 60 * ticksPerSec ≤ absTick s t₀ → answers (.lockoutEnd t₀) s (fun t =>
      t.recd = { s.recd with lock := false, savedLock := false } ∧ t.regs = s.regs ∧ partsBut s t [.recd])) ∧
    (s.recd.nonce ≠ none → s.recd.nonceAt + 60 * ticksPerSec ≤ absTick s t₀ → answers (.nonceExpiry t₀) s (fun t =>
      t.recd = { s.recd with nonce := none } ∧ t.regs = s.regs ∧ partsBut s t [.recd]))) ∧
  (∀ (s : State) (c : RecClear), s.recd.clearing = some c → answers .clearDone s (fun t => leAt (logAt t 0) 0 2 = 1 ∧ leAt (logAt t 0) 16 2 = c.slot % 65536 ∧
    (∀ i < 20, 0 < i → logAt t i = freeRecord i) ∧ t.recd.next = 1 ∧ t.recd.full = false ∧ t.recd.clearing = none ∧ partsBut s t [.regs, .recd, .hif]))

/-- Samples, limits and slack; the core voltage. R426, R427, R429, R430, R437: monitors. R428, R431 to R433: the core voltage. -/
def Obligations.MonitorsAndCoreVoltage : Prop :=
  ((∀ (s : State) (l : List Int), l.length = 32 → s.sys.inReset = false → answers (.monSample l) s (fun t =>
      (∀ k < 32, sparseGet (fun _ => []) t.mon.samples (sampleMonitor k) = (l.getD k 0 :: sparseGet (fun _ => []) s.mon.samples (sampleMonitor k)).take 16) ∧
      (∀ m < 12, getI t (MON_TS_T m) = clampI (-32768) 32767 (monMean t m)) ∧ (∀ v < 16, getF t (MON_VM_VAL v) = min 65535 (monMean t (16 + v)).toNat) ∧
      (∀ p < 4, getF t (MON_PM_VAL p) = min 16777215 (monMean t (32 + p)).toNat) ∧ partsBut s t [.regs, .mon, .hif, .recd])) ∧
    (∀ (s : State) (k : Nat), k < 56 →
      (limitHeld s k = false → 10 ≤ sparseGet (fun _ => 0) s.mon.beyond k → answers (.limitReached k) s (fun t => limitHeld t k = true ∧
        (∀ j < 56, j ≠ k → limitHeld t j = limitHeld s j) ∧
        flag t (if k < 24 then (if k % 2 = 0 then MON_FLT_TWARN else MON_FLT_TCRIT) else (if k % 2 = 0 then MON_FLT_VUV else MON_FLT_VOV)) = true ∧
        flag t (if k < 24 then (if k % 2 = 0 then MON_STAT_TW else MON_STAT_TC) else MON_STAT_VLIM) = true ∧ partsBut s t [.regs, .mon, .hif, .recd])) ∧
      (limitHeld s k = true → 100 ≤ sparseGet (fun _ => 0) s.mon.inside k → answers (.limitLeft k) s (fun t => limitHeld t k = false ∧
        (∀ j < 56, j ≠ k → limitHeld t j = limitHeld s j) ∧ regsBut s t (MON_STAT :: (List.range 16).map MON_VM) ∧ partsBut s t [.regs, .mon]))) ∧
    (∀ (s : State) (l : List Nat), l.length = 4 → s.sys.inReset = false → answers (.slackRun l) s (fun t =>
      (∀ p < 4, getF t (MON_PM_VAL (4 + p)) = min 16777215 (l.getD p 0)) ∧ getF t MON_SLACK_SMIN = min 255 (sMin t).1 ∧
      t.mon.slackRuns.tail = (s.mon.slackRuns.take 99) ∧ getF t MON_SLACK_LIFE_MIN = min (getF s MON_SLACK_LIFE_MIN) (getF t MON_SLACK_SMIN) ∧
      getF t MON_SLACK_PMIN = min (getF s MON_SLACK_PMIN) (getF t MON_SLACK_SMIN) ∧ partsBut s t [.regs, .mon, .recd])) ∧
    (∀ (s : State) (d k : Nat), answers (.logicDissipation d k) s (fun t =>
      getF t MON_PLOGIC_MW = min 65535 (getF s (MON_VM_VAL 0) * getF s (MON_VM_VAL 0) * d / 640000 + leakage k (tMax s)) ∧
      regsBut s t [MON_PLOGIC] ∧ partsBut s t [.regs])) ∧
    (∀ s : State, 480 ≤ getI s (MON_TS_T 0) → getI s (MON_TS_T 0) ≤ 520 →
      (s.mon.savedBase = none → answers .lifeDrift s (fun t => t.mon.savedBase =
        some (roundDiv (((List.range 4).map fun p => (getF s (MON_PM_VAL p) : Int)).sum) 4).toNat ∧ t.regs = s.regs ∧ partsBut s t [.mon])) ∧
      (∀ b, s.mon.savedBase = some b → answers .lifeDrift s (fun t => t.mon.savedBase = some b ∧ getF t MON_AGE_RO =
        (if (b : Int) ≤ roundDiv (((List.range 4).map fun p => (getF s (MON_PM_VAL p) : Int)).sum) 4 then 0 else
          min 65535 ((b - (roundDiv (((List.range 4).map fun p => (getF s (MON_PM_VAL p) : Int)).sum) 4).toNat) * 10000 / b)) ∧
        partsBut s t [.regs, .mon, .recd])))) ∧
  ((∀ s : State, s.sys.inReset = false → 100 ≤ s.mon.slackRuns.length → autoRuns s = true → getF s MON_AVS_STAT_VREQ < 880 →
      ((sMin s).1 < getF s MON_SLACK_CFG_S_CRIT → answers .avsEvaluation s (fun t => getF t MON_AVS_STAT_VREQ = min 880 (getF s MON_AVS_STAT_VREQ + 20) ∧
        flag t MON_STAT_BUSY = true ∧ t.mon.savedReq = getF t MON_AVS_STAT_VREQ)) ∧
      (getF s MON_SLACK_CFG_S_CRIT ≤ (sMin s).1 → (sMin s).1 < getF s MON_SLACK_CFG_S_LOW → answers .avsEvaluation s (fun t =>
        getF t MON_AVS_STAT_VREQ = min 880 (getF s MON_AVS_STAT_VREQ + 5) ∧ flag t MON_STAT_BUSY = true ∧ t.mon.savedReq = getF t MON_AVS_STAT_VREQ))) ∧
    (∀ (s : State) (a : Bool) (mv : Nat), flag s MON_STAT_BUSY = true →
      (readbackOk s a mv = true → answers (.avsReadback a mv) s (fun t => flag t MON_STAT_BUSY = false ∧ t.mon.avsFails = 0 ∧
        getF t MON_AVS_STAT_VREAD = min 1023 mv ∧ getF t MON_AVS_STAT_VREQ = getF s MON_AVS_STAT_VREQ ∧ partsBut s t [.regs, .mon])) ∧
      (readbackOk s a mv = false → answers (.avsReadback a mv) s (fun t => flag t MON_STAT_BUSY = false ∧
        getF t MON_CNT_AVSERR_CNT = min (getF s MON_CNT_AVSERR_CNT + 1) (2 ^ MON_CNT_AVSERR_CNT.width - 1) ∧
        (s.mon.avsFails + 1 < 3 → t.mon.avsFails = s.mon.avsFails + 1 ∧ t.mon.avsDead = s.mon.avsDead) ∧
        (s.mon.avsFails = 2 → t.mon.avsDead = true ∧ flag t MON_FLT_AVS_FLT = true) ∧ partsBut s t [.regs, .mon, .hif, .recd]))) ∧
    (∀ (s : State) (v0 : Nat), 920 < v0 → answers (.vcoreOvervoltage v0) s (fun t => getF t MON_CTRL_AVS = 2 ∧ getF t MON_AVS_SET_MV = 800 ∧
      getF t MON_AVS_STAT_VREQ = 800 ∧ flag t MON_STAT_BUSY = true ∧ flag t MON_FLT_VOV = true ∧ partsBut s t [.regs, .mon, .hif, .recd])) ∧
    (∀ (s : State) (h v : Nat), serves s h → ownerOrService s h = true →
      (v < 3 → startsNow s h (putField MON_CTRL_AVS v) → answers (.avsModeWrite h false v) s (fun t => getF t MON_CTRL_AVS = v ∧
        (v = 2 → getF t MON_AVS_STAT_VREQ = getF s MON_AVS_SET_MV ∧ flag t MON_STAT_BUSY = true) ∧ wroteBut s t h [.regs, .sys, .mon, .recd])) ∧
      (720 ≤ v → v ≤ 880 → startsNow s h (putField MON_AVS_SET_MV v) → answers (.avsModeWrite h true v) s (fun t => getF t MON_AVS_SET_MV = v ∧ getF t MON_CTRL_AVS = getF s MON_CTRL_AVS ∧
        (getF s MON_CTRL_AVS = 2 → getF t MON_AVS_STAT_VREQ = v) ∧ wroteBut s t h [.regs, .sys, .mon, .recd]))))

/-- R446, R447, R450: crossings and block resets. -/
def Obligations.CrossingsAndBlockResets : Prop :=
  (∀ (s : State) (x n : Nat), 2 ≤ x → x < 14 → s.sys.inReset = false →
    answers (.crossTimeout x n) s (fun t => getF t (CLK_X_CNT_DISC x) = min (getF s (CLK_X_CNT_DISC x) + n) (2 ^ (CLK_X_CNT_DISC x).width - 1) ∧
      getF t (CLK_X_EVT_TMO x) = min (getF s (CLK_X_EVT_TMO x) + 1) (2 ^ (CLK_X_EVT_TMO x).width - 1) ∧ (rd t CLK_XFLT).getLsbD x = true ∧
      regsBut s t ([CLK_X_CNT x, CLK_X_EVT x, CLK_XFLT] ++ tally) ∧ partsBut s t [.regs, .hif, .recd]) ∧
    answers (.crossResync x n) s (fun t => getF t (CLK_X_CNT_DISC x) = min (getF s (CLK_X_CNT_DISC x) + n) (2 ^ (CLK_X_CNT_DISC x).width - 1) ∧
      getF t (CLK_X_EVT_RESYNC x) = min (getF s (CLK_X_EVT_RESYNC x) + 1) (2 ^ (CLK_X_EVT_RESYNC x).width - 1) ∧ (rd t CLK_XFLT).getLsbD (16 + x) = true ∧
      regsBut s t ([CLK_X_CNT x, CLK_X_EVT x, CLK_XFLT] ++ tally) ∧ partsBut s t [.regs, .recd])) ∧
  (∀ (s : State) (h : Nat) (v : Word), serves s h → ownerOrService s h = true →
    (brstOk s (v &&& 0x000F07FF#32).toNat = true → startsNow s h [item CLK_BRST 0x000F07FF#32 v] → answers (.blockReset h v) s (fun t =>
      (v.getLsbD 8 = true → t.pwm = [] ∧ (∀ i, 0x1C00 ≤ i → i < 0x2000 → rd t i = regReset i) ∧ sparseGet (fun _ => 0) t.sys.brst 8 = s.now + 2) ∧
      (v.getLsbD 9 = true → t.enc = EncState.reset ∧ (∀ i, 0x2000 ≤ i → i < 0x2200 → rd t i = regReset i) ∧ sparseGet (fun _ => 0) t.sys.brst 9 = s.now + 2) ∧
      (v.getLsbD 7 = true → t.cle = CleState.reset ∧ (∀ i, 0x1800 ≤ i → i < 0x1C00 → rd t i = regReset i)) ∧
      (∀ k ∈ brstBits, v.getLsbD k = true → sparseGet (fun _ => 0) t.sys.brst k = s.now + 2))) ∧
    (brstOk s (v &&& 0x000F07FF#32).toNat = false → startsNow s h [item CLK_BRST 0x000F07FF#32 v] → answers (.blockReset h v) s (fun t => t = s))) ∧
  (∀ (s : State) (k : Nat), k ∈ brstBits → answers (.blockResetRelease k) s (fun t =>
    t.sys = { s.sys with brst := s.sys.brst.filter fun e => !(decide (e.1 = k) && decide (e.2 ≤ s.now)) } ∧ t.regs = s.regs ∧ partsBut s t [.sys]))

/-- A device reset has begun with the cause of bit `k`. -/
def resetBegun (s t : State) (k : Nat) : Prop :=
  t.sys.inReset = true ∧ t.sys.phase = .loading ∧ t.sys.running = false ∧ t.sys.sources.testBit k = true ∧ t.now = 0 ∧ t.hif = HifState.reset ∧
  (rd t CLK_RST_CAUSE).getLsbD k = true ∧ (∀ j < 6, (rd s CLK_RST_CAUSE).getLsbD j = true → (rd t CLK_RST_CAUSE).getLsbD j = true) ∧
  t.drv = DrvState.reset ∧ t.pwm = [] ∧ t.cle = CleState.reset ∧ t.kin = KinState.reset ∧ t.tables = [] ∧ t.recd.log = s.recd.log ∧ t.pending = s.pending

/-- The reset has ended, and the preferred image is verified. -/
def loaderVerifies (s t : State) : Prop := t.sys.inReset = false ∧ t.sys.phase = .verifying ∧ t.boot.running = s.boot.preferred

/-- The loader will verify the preferred image. -/
def preferredReady (s : State) : Prop := imageState s s.boot.preferred = imValid ∧ s.boot.nextMode ≠ 3

/-- Device resets begin by every cause, and end with the last source. R428, R442, R443, R448, R449: device resets and losses of lock. R448, R449, R454, R458, R464, R465: the ends of resets. -/
def Obligations.DeviceResetsBeginAndEnd : Prop :=
  (∀ (s : State) (t₀ : Nat), inThisStep s t₀ = true →
      (∀ ns, 10000 ≤ ns → answers (.resetN t₀ ns) s (fun t => resetBegun s t 1)) ∧
      (∀ ns, ns < 1000 → answers (.resetN t₀ ns) s (fun t => t = s)) ∧
      (∀ v, (v = 0 ∨ v = 2 ∨ v = 3) → answers (.brownOut v t₀) s (fun t => resetBegun s t 2 ∧ t.mon.borMark = some (v, rd s REC_OPSEC))) ∧
      (∀ i, i < 6 → answers (.thermalShutdown i t₀) s (fun t => resetBegun s t 3 ∧ t.mon.tsdMark = some (i, rd s REC_OPSEC))) ∧
      (flag s CLK_STAT_TCXO_OK = true → answers (.tcxoMissing t₀) s (fun t => resetBegun s t 4 ∧ flag t CLK_STAT_TCXO_OK = false)) ∧
      (flag s CLK_STAT_D_LOCK = true → answers (.pllUnlock 0 t₀) s (fun t => resetBegun s t 4 ∧ flag t CLK_STAT_D_LOCK = false ∧ flag t (unlockField 0) = true)) ∧
      (flag s CLK_STAT_P_LOCK = true → answers (.pllUnlock 1 t₀) s (fun t => t.sys.pllPHold = true ∧ flag t CLK_STAT_P_LOCK = false ∧
        flag t (unlockField 1) = true ∧ (s.sys.inReset = false → s.sys.phase ≠ .loading → t.sys.phase = .held))) ∧
      (flag s CLK_STAT_G_LOCK = true → answers (.pllUnlock 2 t₀) s (fun t => flag t CLK_STAT_G_LOCK = false ∧ flag t (unlockField 2) = true ∧
        (∀ i < 192, (gnsAt t i).state = (if (gnsAt s i).state = gsPullin ∨ (gnsAt s i).state = gsTrack then gsLost else (gnsAt s i).state)))) ∧
      answers (.pllLock 1 t₀) s (fun t => flag t CLK_STAT_P_LOCK = true ∧ t.sys = { s.sys with pllPHold := false } ∧ regsBut s t [CLK_STAT] ∧ partsBut s t [.regs, .sys]) ∧
      answers (.pllLock 2 t₀) s (fun t => flag t CLK_STAT_G_LOCK = true ∧ regsBut s t [CLK_STAT] ∧ partsBut s t [.regs])) ∧
  ((∀ (s : State) (t₀ : Nat), inThisStep s t₀ = true → 2000 ≤ t₀ → s.sys.inReset = true →
      (preferredReady s → s.boot.bootSelLow = false →
        (s.sys.sources = 4 → answers (.brownOutRelease t₀) s (fun t => loaderVerifies s t)) ∧
        (s.sys.sources = 8 → answers (.thermalShutdownRelease t₀) s (fun t => loaderVerifies s t)) ∧
        (s.sys.sources = 16 → flag s CLK_STAT_D_LOCK = true → answers (.tcxoPresent t₀) s (fun t => loaderVerifies s t ∧ flag t CLK_STAT_TCXO_OK = true)) ∧
        (s.sys.sources = 16 → flag s CLK_STAT_TCXO_OK = true → answers (.pllLock 0 t₀) s (fun t => loaderVerifies s t ∧ flag t CLK_STAT_D_LOCK = true))) ∧
      (preferredReady s → (s.sys.sources = 2 ∨ s.sys.sources = 32) → answers (.resetEnded t₀ false) s (fun t => loaderVerifies s t)) ∧
      ((s.sys.sources = 2 ∨ s.sys.sources = 32) → answers (.resetEnded t₀ true) s (fun t => t.sys.inReset = false ∧ t.sys.phase = .recovery)) ∧
      (s.sys.sources = 12 → answers (.brownOutRelease t₀) s (fun t => t.sys = { s.sys with sources := 8 } ∧ t.regs = s.regs ∧ partsBut s t [.sys]))) ∧
    (∀ (s : State) (low : Bool), imageState s s.boot.preferred = imValid → answers (.powerUp low) s (fun t => t.sys.inReset = false ∧
      t.sys.phase = (if low then .recovery else .verifying) ∧ (low = false → t.boot.running = s.boot.preferred) ∧ t.now = 0 ∧ t.hif = HifState.reset ∧
      t.recd.searching = true ∧ (s.recd.writing = none → s.recd.clearing = none → t.recd.log = s.recd.log) ∧ t.boot.images = s.boot.images ∧ t.boot.preferred = s.boot.preferred ∧
      getF t REC_PCYC_VAL = min 0xFFFFFF (s.recd.savedPcyc + 1) ∧ t.pending = s.pending)))

/-- R454 to R458, R464: verification and restart. -/
def Obligations.ImagesAreVerifiedAndRestarted : Prop :=
  (∀ (s : State) (t₀ : Nat), inThisStep s t₀ = true → s.sys.phase = .verifying →
    (imageReason s (imageAt s s.boot.running).head = 0 → answers (.imageVerified t₀) s (fun t => t.sys.phase = .up ∧ t.sys.running = true ∧
      t.sys.tripped = false ∧ rd t SYS_FW = (imageAt s s.boot.running).head.version ∧ getF t SYS_BOOT_IMG = s.boot.running % 2 ∧
      t.boot.running = s.boot.running ∧ t.boot.restart = false ∧ t.boot.images = s.boot.images)) ∧
    (imageReason s (imageAt s s.boot.running).head ≠ 0 → s.boot.running < 2 → answers (.imageVerified t₀) s (fun t =>
      imageState t s.boot.running = imBad ∧
      (s.boot.second = false → imageState s (1 - s.boot.running) = imValid → t.sys.phase = .verifying ∧ t.boot.running = 1 - s.boot.running) ∧
      ((s.boot.second = true ∨ imageState s (1 - s.boot.running) ≠ imValid) → t.sys.phase = .recovery ∧ t.sys.running = s.sys.running)))) ∧
  (∀ s : State, s.sys.phase = .held → s.sys.pllPHold = false → getF s SYS_BOOT_RCAUSE ≠ 0 → answers .firmwareRestart s (fun t =>
    t.sys.phase = .recovery ∧ getF t SYS_BOOT_RCAUSE = getF s SYS_BOOT_RCAUSE ∧ t.sys.running = s.sys.running)) ∧
  (∀ s : State, s.sys.phase = .held → s.sys.pllPHold = false → getF s SYS_BOOT_RCAUSE = 0 → imageState s s.boot.running = imValid → s.boot.running < 2 →
    (repeatedTrips s = false → answers .firmwareRestart s (fun t => t.sys = { s.sys with phase := .verifying } ∧ t.boot.running = s.boot.running ∧
      t.boot.restart = true ∧ regsBut s t [CLK_X_EVT 2, CLK_X_EVT 3] ∧ partsBut s t [.regs, .sys, .boot])) ∧
    (repeatedTrips s = true → answers .firmwareRestart s (fun t =>
      (imageState s (1 - s.boot.running) = imValid → t.sys.phase = .verifying ∧ t.boot.running = 1 - s.boot.running) ∧
      (imageState s (1 - s.boot.running) ≠ imValid → t.sys.phase = .recovery ∧ t.sys.running = s.sys.running ∧ getF t SYS_BOOT_RCAUSE = 4))))

/-- A transaction of kind `op` that is accepted. -/
def sound (s : State) (op : Nat) (m : List Byte) : Prop := leAt m 0 1 = op ∧ spiResult s m = ltOk

/-- What a discarded transaction leaves (R383). What HIF_MISO carries in the data of a read that is refused is free. -/
def discarded (s t : State) (m : List Byte) : Prop :=
  t = { (if spiRefused s m then (fresh s).2 else s) with hif := { s.hif with
    miso := spiMiso s m (fresh s).1
    last := spiResult s m
    winCrc := if spiResult s m = ltCrc then min 255 (s.hif.winCrc + 1) else s.hif.winCrc
    winShort := if spiResult s m = ltShort ∨ spiResult s m = ltBadOp then min 255 (s.hif.winShort + 1) else s.hif.winShort } }

/-- SPI transactions, window acknowledgements and freezes. R382, R383, R409, R423: SPI transactions. R391, R392, R409, R417, R423: writes of the direct window. -/
def Obligations.TransactionsAndWindows : Prop :=
  (∀ (s : State) (m : List Byte) (t₀ : Nat), s.sys.inReset = false → inThisStep s t₀ = true →
      (spiResult s m ≠ ltOk →
        (spiKind 1 m = true → answers (.winRead m t₀) s (fun t => discarded s t m)) ∧ (spiKind 2 m = true → answers (.winWrite m t₀) s (fun t => discarded s t m)) ∧
        (spiKind 3 m = true → answers (.reqWrite m t₀) s (fun t => discarded s t m)) ∧ (spiKind 4 m = true → answers (.rspRead m t₀) s (fun t => discarded s t m))) ∧
      (sound s 1 m → answers (.winRead m t₀) s (fun t => t.hif.last = 0 ∧
        (t.hif.miso.drop 8).take (spiN m) = wordBytes ((List.range (spiN m / 4)).map fun k => winWord s (leAt m 1 1 + k)) ∧
        t.hif.slots = s.hif.slots ∧ regsBut s t [] ∧ partsBut s t [.hif, .recd])) ∧
      (sound s 4 m → answers (.rspRead m t₀) s (fun t => t.hif.last = 0 ∧ (t.hif.miso.drop 8).take (spiN m) = spiData s m ∧
        t.hif.slots = s.hif.slots ∧ partsBut s t [.hif])) ∧
      (sound s 2 m → leAt m 1 1 = 0x10 → spiN m = 4 → inService s = false → answers (.winWrite m t₀) s (fun t => t.hif.last = 0 ∧
        t.recd.cursor = leAt m 6 4 % 16384 ∧ t.hif.slots = s.hif.slots ∧ regsBut s t tally ∧ partsBut s t [.regs, .hif, .recd]))) ∧
  ((∀ (s : State) (h t₀ : Nat), s.sys.inReset = false → inThisStep s t₀ = true → spiSlot s = some h → attached s h = true → (slotOf s h).owed = [] →
      (∀ r rest, (slotOf s h).unrel = r :: rest → r.rseq < 256 → answers (.winAck r.rseq t₀) s (fun t => (slotOf t h).unrel = rest ∧ (slotOf t h).last = some r ∧
        t.hif.last = 0 ∧ (slotOf t h).ring = (slotOf s h).ring ∧ (∀ g, g ≠ h → slotOf t g = slotOf s g) ∧ partsBut s t [.hif])) ∧
      (∀ q < 256, (slotOf s h).unrel.all (fun x => decide (x.rseq ≠ q)) = true → answers (.winAck q t₀) s (fun t => t.hif.slots = s.hif.slots ∧
        t.hif.winBadAck = min 255 (s.hif.winBadAck + 1) ∧ partsBut s t [.hif]))) ∧
    (∀ (s : State) (i t₀ : Nat), s.sys.inReset = false → inThisStep s t₀ = true → i < 16384 →
      (inService s = true → answers (.windowFreeze i true t₀) s (fun t => partsBut s t [.hif]) ∧ answers (.windowFreeze i false t₀) s (fun t => partsBut s t [.hif])) ∧
      (inService s = false →
        answers (.windowFreeze i true t₀) s (fun t => t.recd.cursor = i ∧ t.recd.log = s.recd.log ∧
          (s.recd.freeze = none → t.recd.freeze = some 4 ∧ t.recd.freezeAt = absTick s (nowTick s)) ∧ (s.recd.freeze.isSome = true → t.recd.freeze = s.recd.freeze) ∧
          partsBut s t [.hif, .recd]) ∧
        answers (.windowFreeze i false t₀) s (fun t => t.recd.cursor = i ∧ (s.recd.freeze = some 4 → t.recd.freeze = none) ∧
          (s.recd.freeze ≠ some 4 → t.recd.freeze = s.recd.freeze) ∧ regsBut s t tally ∧ partsBut s t [.regs, .hif, .recd]))))

/-- A unit of one whole frame that R389 does not reject on a port with this largest LEN, acknowledges nothing and has a known code. -/
def lone (b : List Byte) (most : Nat) : Prop :=
  12 ≤ b.length ∧ (headerOf b).bad = false ∧ (headerOf b).len ≤ most ∧ b.length = frameSize (headerOf b).len ∧ (headerOf b).flags.testBit 1 = false ∧
  knownCodes.contains (headerOf b).code = true

/-- The frame of such a unit. -/
def frameOf (s : State) (b : List Byte) : Frame :=
  { code := (headerOf b).code, ordered := (headerOf b).flags.testBit 0, htag := (headerOf b).htag, payload := (b.drop 12).take (headerOf b).len,
    seq := s.hif.accepted, reject := 0 }

/-- The frame has joined the ring of slot `h` at an instant. -/
def joined (s t : State) (h at_ : Nat) (b : List Byte) (reasm : Option Reasm) : Prop :=
  slotOf t h = { slotOf s h with ring := (slotOf s h).ring ++ [frameOf s b], heard := at_, reasm := reasm } ∧
  getF t (HIF_H_CNT_ACC_CNT h) = min (getF s (HIF_H_CNT_ACC_CNT h) + 1) (2 ^ 32 - 1) ∧ (∀ g, g ≠ h → slotOf t g = slotOf s g)

/-- Room for the frame in the request ring (R387, R389). -/
def roomFor1 (s : State) (h : Nat) (b : List Byte) : Prop := reqUsed (slotOf s h) + frameSize (headerOf b).len ≤ ringBytes

/-- CAN_B carries host segments (R381, R385, R455). -/
def canbOn (s : State) : Prop := s.sys.phase = .up ∧ flag s (CAN_CTRL_EN 1) = true ∧ flag s (CAN_CTRL_FD_EN 1) = true

/-- R381 to R390: the arrival of frames. -/
def Obligations.FramesReachTheirRings : Prop :=
  (∀ (s : State) (m : List Byte) (h t₀ : Nat), s.sys.inReset = false → inThisStep s t₀ = true → sound s 3 m → spiSlot s = some h → attached s h = true →
    lone ((m.drop 6).take (spiN m)) 4084 → roomFor1 s h ((m.drop 6).take (spiN m)) →
    answers (.reqWrite m t₀) s (fun t => joined s t h (absTick s t₀) ((m.drop 6).take (spiN m)) (slotOf s h).reasm ∧ t.hif.last = 0 ∧
      regsBut s t [HIF_H_CNT_ACC h] ∧ partsBut s t [.regs, .hif])) ∧
  (∀ (s : State) (ip port : Word) (b : List Byte) (h t₀ : Nat), inThisStep s t₀ = true → port.toNat < 65536 → s.sys.phase = .up → relayState s = byInserted →
    udpSlot s ip port = some h → attached s h = true → lone b 1460 → roomFor1 s h b →
    answers (.udpDatagram ip port b t₀) s (fun t => joined s t h (absTick s t₀) b (slotOf s h).reasm ∧
      regsBut s t [HIF_H_CNT_ACC h] ∧ partsBut s t [.regs, .hif])) ∧
  (∀ (s : State) (b : List Byte) (h t₀ : Nat) (r : Reasm), inThisStep s t₀ = true → canbOn s → canbSlot s = some h → attached s h = true →
    (slotOf s h).reasm = some r → inRange 1 64 b.length = true → leAt b 0 1 = 128 + r.nextSeg → r.nextSeg < 128 →
    lone (r.bytes ++ b.drop 1) 4084 → roomFor1 s h (r.bytes ++ b.drop 1) →
    answers (.canbSegment b t₀) s (fun t => joined s t h (absTick s t₀) (r.bytes ++ b.drop 1) none ∧
      regsBut s t [HIF_H_CNT_ACC h] ∧ partsBut s t [.regs, .hif]))

/-- R384, R385, R404: bindings and segments. -/
def Obligations.UdpBindingAndSegments : Prop :=
  (∀ (s : State) (ip port : Word) (b : List Byte) (t₀ : Nat), inThisStep s t₀ = true → port.toNat < 65536 →
    (relayState s ≠ byInserted → answers (.udpDatagram ip port b t₀) s (fun t => t = s)) ∧
    (s.sys.phase = .up → relayState s = byInserted → udpSlot s ip port = none → lone b 1460 →
      (∀ h, freeUdpSlot s = some h → (headerOf b).code = 2 → roomFor1 s h b → answers (.udpDatagram ip port b t₀) s (fun t =>
        joined s t h (absTick s t₀) b (slotOf s h).reasm ∧ rd t (HIF_H_UDP_IP h) = ip ∧ rd t (HIF_H_UDP_PORT h) = port ∧
        regsBut s t [HIF_H_UDP_IP h, HIF_H_UDP_PORT h, HIF_H_CNT_ACC h] ∧ partsBut s t [.regs, .hif])) ∧
      ((headerOf b).code = 1 → (headerOf b).len = 0 → answers (.udpDatagram ip port b t₀) s (fun t => t.hif.slots = s.hif.slots ∧
        t.hif.sent = s.hif.sent ++ [(255, { code := 1, status := stOk, rseq := 0, htag := (headerOf b).htag, step := stepCnt s, payload := identifyBody s none })] ∧
        partsBut s t [.hif])) ∧
      ((headerOf b).code ≠ 1 → (headerOf b).code ≠ 2 → answers (.udpDatagram ip port b t₀) s (fun t =>
        getF t HIF_CNT_UNBOUND_CNT = min (getF s HIF_CNT_UNBOUND_CNT + 1) (2 ^ 32 - 1) ∧ regsBut s t [HIF_CNT_UNBOUND] ∧ partsBut s t [.regs])))) ∧
  (∀ (s : State) (b : List Byte) (h t₀ : Nat), inThisStep s t₀ = true → canbOn s → canbSlot s = some h → inRange 1 64 b.length = true →
    ((slotOf s h).reasm = none → leAt b 0 1 = 0 → answers (.canbSegment b t₀) s (fun t =>
      slotOf t h = { slotOf s h with reasm := some { nextSeg := 1, bytes := b.drop 1, heard := absTick s t₀ } } ∧
      (∀ g, g ≠ h → slotOf t g = slotOf s g) ∧ partsBut s t [.hif])) ∧
    (∀ r, (slotOf s h).reasm = some r → leAt b 0 1 % 128 ≠ r.nextSeg → leAt b 0 1 % 128 ≠ 0 → answers (.canbSegment b t₀) s (fun t =>
      slotOf t h = { slotOf s h with reasm := none } ∧ getF t (HIF_H_CNT_DROP_UNITS h) = min (getF s (HIF_H_CNT_DROP_UNITS h) + 1) 65535 ∧
      (∀ g, g ≠ h → slotOf t g = slotOf s g) ∧ regsBut s t [HIF_H_CNT_DROP h] ∧ partsBut s t [.regs, .hif]))) ∧
  (∀ (s : State) (h t₀ : Nat) (r : Reasm), inThisStep s t₀ = true → canbSlot s = some h → (slotOf s h).reasm = some r → r.heard + 10 * 200000 < absTick s t₀ →
    answers (.segmentTimeout t₀) s (fun t => slotOf t h = { slotOf s h with reasm := none } ∧
      getF t (HIF_H_CNT_DROP_UNITS h) = min (getF s (HIF_H_CNT_DROP_UNITS h) + 1) 65535 ∧
      (∀ g, g ≠ h → slotOf t g = slotOf s g) ∧ regsBut s t [HIF_H_CNT_DROP h] ∧ partsBut s t [.regs, .hif]))

/-- R386, R397, R401: attachments that end or begin without a frame. -/
def Obligations.AttachmentsEnd : Prop :=
  (∀ (s : State) (h t₀ : Nat), h < 4 → inThisStep s t₀ = true → attached s h = true → portOf s h ≠ 3 →
    ((slotOf s h).heard + (slotOf s h).ka * 200000 ≤ absTick s t₀ → answers (.keepAliveExpiry h t₀) s (fun t => detached s t h)) ∧
    (absTick s t₀ < (slotOf s h).heard + (slotOf s h).ka * 200000 → answers (.keepAliveExpiry h t₀) s (fun t => t = s))) ∧
  (∀ (s : State) (h : Nat), isoSlot s = some h → attached s h = true → answers .tcDisconnect s (fun t => detached s t h)) ∧
  (∀ (s : State) (h : Nat), isoSlot s = some h → attached s h = false → s.sys.phase = .up → testMode s = false → flag s CAN_ISO_STAT_CLAIMED = true →
    (getF s (HIF_H_CFG_ROLES h)).testBit 1 = true → answers .tcConnect s (fun t => attached t h = true ∧ roleOf t h = 1 ∧
      (slotOf t h).session = (slotOf s h).session % (2 ^ 32 - 1) + 1 ∧ (slotOf t h).ka = getF s (HIF_H_CFG_KA h) ∧
      (getF s HIF_ISO_CFG_NSEC ≤ 64 → (∀ k < getF s HIF_ISO_CFG_NSEC, holderOf s kSec k = none) →
        (∀ z < 8, (getF s HIF_ISO_CFG_ZONES).testBit z = true → holderOf s kZone z = none) →
        (∀ k < getF s HIF_ISO_CFG_NSEC, holderOf t kSec k = some h) ∧ (∀ z < 8, (getF s HIF_ISO_CFG_ZONES).testBit z = true → holderOf t kZone z = some h)) ∧
      ∀ g < 4, g ≠ h → attached t g = attached s g ∧ roleOf t g = roleOf s g))

/-- Mailbox commands without an effect on the part; attaching and detaching. R391, R402 to R404: the commands that only answer. R395, R397, R404, R498: attachment. -/
def Obligations.SessionCommands : Prop :=
  (∀ (s : State) (h : Nat),
      (starts s h 0x00 → answers (.nop h) s (fun t => answered s t h [] ∧ t.regs = s.regs ∧ otherSlots s t h ∧ partsBut s t [.sys, .hif])) ∧
      (starts s h 0x04 → answers (.fence h) s (fun t => answered s t h [] ∧ t.regs = s.regs ∧ otherSlots s t h ∧ partsBut s t [.sys, .hif])) ∧
      (starts s h 0x01 → answers (.identify h) s (fun t => answered s t h (identifyBody s (some h)) ∧ t.regs = s.regs ∧ otherSlots s t h ∧
        partsBut s t [.sys, .hif])) ∧
      (starts s h 0x05 → leAt (req s h) 1 3 = 0 → ((slotOf s h).unrel.any fun r => decide (r.rseq = leAt (req s h) 0 1)) = true →
        answers (.rspRepeat h) s (fun t => answered s t h [] ∧ t.regs = s.regs ∧ otherSlots s t h ∧
          ((portOf s h = 1 ∨ portOf s h = 2) → t.hif.sent.dropLast =
            s.hif.sent ++ ((slotOf s h).unrel.dropWhile fun r => decide (r.rseq ≠ leAt (req s h) 0 1)).map fun r => (h, r)) ∧ partsBut s t [.sys, .hif])) ∧
      (starts s h 0x06 →
        (leAt (req s h) 0 4 < 128 → answers (.notifyCfg h) s (fun t => answered s t h (leBytes 4 (leAt (req s h) 0 4)) ∧
          getF t (HIF_H_NOTE_MASK h) = leAt (req s h) 0 4 ∧ regsBut s t [HIF_H_NOTE h] ∧ otherSlots s t h ∧ partsBut s t [.regs, .sys, .hif])) ∧
        (128 ≤ leAt (req s h) 0 4 → answers (.notifyCfg h) s (fun t => responded s t h stInvalid [] ∧
          getF t (HIF_H_CNT_REJ_CNT h) = min (getF s (HIF_H_CNT_REJ_CNT h) + 1) (2 ^ 32 - 1) ∧ regsBut s t [HIF_H_CNT_REJ h] ∧ otherSlots s t h ∧
          partsBut s t [.regs, .sys, .hif])))) ∧
  (∀ (s : State) (h : Nat),
      (starts s h 0x02 → attachStatus s h (req s h) = stOk → attached s h = false → answers (.attach h) s (fun t =>
        attached t h = true ∧ roleOf t h = leAt (req s h) 0 1 ∧ (slotOf t h).win = [] ∧ (slotOf t h).hiLatch = [] ∧
        (slotOf t h).session = (slotOf s h).session % (2 ^ 32 - 1) + 1 ∧
        (slotOf t h).ka = (if leAt (req s h) 2 2 = 0 then getF s (HIF_H_CFG_KA h) else leAt (req s h) 2 2) ∧
        answered s t h (leBytes 1 h ++ leBytes 1 (leAt (req s h) 0 1) ++ leBytes 2 (slotOf t h).ka ++ leBytes 4 (slotOf t h).session) ∧
        (∀ g < 4, g ≠ h → attached t g = attached s g ∧ roleOf t g = roleOf s g) ∧ otherSlots s t h ∧ partsBut s t [.regs, .sys, .hif])) ∧
      (starts s h 0x03 → answers (.detach h) s (fun t => detached s t h)))

/-- PARAM_READ asks for one register. -/
def readsOne (s : State) (h : Nat) (peek : Bool) : Prop :=
  leAt (req s h) 0 2 = 1 ∧ leAt (req s h) 2 2 = (if peek then 1 else 0) ∧ leAt (req s h) 6 2 = 1

/-- That register. -/
def asked (s : State) (h : Nat) : Nat := leAt (req s h) 4 2

/-- A register of the device's own pages 0x16 to 0x23, which show what they hold, without a latched copy. -/
def shown (s : State) (h i : Nat) : Prop := 0x1600 ≤ i ∧ i < 0x2400 ∧ sparseGet (fun _ => none) (slotOf s h).hiLatch i = (none : Option Word)

/-- The outcome of the items of the PARAM_WRITE at the front of the ring. -/
def itemsOutcome (s : State) (h : Nat) : State × Option (Nat × Nat) := writeItems (begun s h) h (writeReq (req s h))

/-- Parameters are read, and written in whole or not at all. R7, R12, R405: reads of registers. R406, R390: writes of registers. -/
def Obligations.ParametersAreReadAndWritten : Prop :=
  (∀ (s : State) (h : Nat), starts s h 0x08 →
      (∀ r, regRow (asked s h) = some r → readsOne s h true → answers (.paramRead h) s (fun t =>
        answered s t h (leBytes 2 1 ++ leBytes 2 0xFFFF ++ leBytes 4 ((readReg (begun s h) (rspFull (begun s h)) h true (asked s h)).2).toNat) ∧
        t.regs = s.regs ∧ otherSlots s t h ∧ partsBut s t [.sys, .hif])) ∧
      (∀ r, regRow (asked s h) = some r → shown s h (asked s h) →
        (readsOne s h true → answers (.paramRead h) s (fun t =>
          answered s t h (leBytes 2 1 ++ leBytes 2 0xFFFF ++ leBytes 4 (rd s (asked s h) &&& ~~~ r.wo).toNat))) ∧
        (readsOne s h false → roleOf s h ≠ 2 → answers (.paramRead h) s (fun t =>
          answered s t h (leBytes 2 1 ++ leBytes 2 0xFFFF ++ leBytes 4 (rd s (asked s h) &&& ~~~ r.wo).toNat) ∧
          rd t (asked s h) = rd s (asked s h) &&& ~~~ r.rc ∧ regsBut s t [asked s h] ∧ partsBut s t [.regs, .sys, .hif]))) ∧
      (regAssigned (asked s h) = false → readsOne s h true → answers (.paramRead h) s (fun t =>
        responded s t h stUnknownIndex (leBytes 2 1 ++ leBytes 2 0 ++ leBytes 4 0) ∧ regsBut s t [HIF_H_CNT_REJ h] ∧ partsBut s t [.regs, .sys, .hif]))) ∧
  (∀ (s : State) (h : Nat), starts s h 0x09 →
      ((itemsOutcome s h).2 = none → leAt (req s h) 2 2 = 0 → writeWait (writeReq (req s h)) = none → answers (.paramWrite h) s (fun t =>
        t.regs = (itemsOutcome s h).1.regs ∧ partsBut (itemsOutcome s h).1 t [.sys, .hif] ∧
        (t.sys = { (itemsOutcome s h).1.sys with atBoundary := false }) ∧
        responded s t h stOk (leBytes 2 (leAt (req s h) 0 2) ++ leBytes 2 0xFFFF))) ∧
      (∀ e, (itemsOutcome s h).2 = some e → answers (.paramWrite h) s (fun t =>
        responded s t h e.2 (leBytes 2 0 ++ leBytes 2 e.1) ∧ e.2 ≠ stOk ∧ regsBut s t [HIF_H_CNT_REJ h] ∧ otherSlots s t h ∧ partsBut s t [.regs, .sys, .hif])))

/-- Tables whose entries are stored as they are written. -/
def wholeTables : List TableId := [.geo, .zon, .sec, .ply, .rtt, .frc]

/-- R407, R474: tables. -/
def Obligations.TablesAreReadAndWritten : Prop :=
  (∀ (s : State) (h : Nat) (b : TableId), starts s h 0x0A → reqTable (req s h) = some (.stored b) → b ≠ .dly → tableReqOk (.stored b) (req s h) = true →
    answers (.tableRead h) s (fun t =>
      answered s t h (req s h ++ (List.range (reqCount (req s h))).flatMap fun k => tget s b (reqFirst (req s h) + k)) ∧
      t.regs = s.regs ∧ otherSlots s t h ∧ partsBut s t [.sys, .hif])) ∧
  (∀ (s : State) (h : Nat) (b : TableId), starts s h 0x0B → reqTable (req s h) = some (.stored b) → b ∈ wholeTables → tableRole s h b = true →
    entriesStatus s h b (req s h) = stOk → (b = .ply → flag s MAP_PLY_STAT_BUSY = false) →
    answers (.tableWrite h) s (fun t => answered s t h ((req s h).take 12) ∧
      (∀ e ∈ writeEntries b (req s h), tget t b e.1 = e.2) ∧
      (∀ n, (n < reqFirst (req s h) ∨ reqFirst (req s h) + reqCount (req s h) ≤ n) → tget t b n = tget s b n) ∧
      (∀ c n, c ≠ b → tget t c n = tget s c n) ∧ t.regs = s.regs ∧ otherSlots s t h ∧ partsBut s t [.tables, .sys, .hif]))

/-- The resources that a LEASE asks for. -/
def wanted (s : State) (h : Nat) : List Res :=
  ((leaseItems (req s h)).flatMap fun i => itemRes s ((leAt (req s h) 2 1).testBit 0) (i.1, i.2.2)).dedup

/-- R396, R398, R399, R408: leases. -/
def Obligations.LeasesAreGrantedAndReleased : Prop :=
  (∀ (s : State) (h : Nat), starts s h 0x0C →
    (firstRefusal s h (leAt (req s h) 2 1) (leaseItems (req s h)) 0 = none → leAt (req s h) 2 1 < 4 → leAt (req s h) 3 1 = 0 →
      answers (.lease h) s (fun t => answered s t h (leaseBody (wanted s h).length 0xFFFF 255) ∧ (∀ r ∈ wanted s h, holds t h r.1 r.2 = true) ∧
        (∀ r ∈ allRes, r ∉ wanted s h → holds t h r.1 r.2 = holds s h r.1 r.2))) ∧
    (∀ x, firstRefusal s h (leAt (req s h) 2 1) (leaseItems (req s h)) 0 = some x → answers (.lease h) s (fun t =>
      responded s t h x.2.1 (leaseBody 0 x.1 x.2.2) ∧ regsBut s t [HIF_H_CNT_REJ h] ∧ otherSlots s t h ∧ partsBut s t [.regs, .sys, .hif]))) ∧
  (∀ (s : State) (h : Nat), starts s h 0x0D → roleOf s h ≠ 2 → leAt (req s h) 2 1 < 2 → leAt (req s h) 3 1 = 0 →
    ((leaseItems (req s h)).any (releaseBad (leAt (req s h) 2 1))) = false →
    answers (.release h) s (fun t => (∀ i ∈ leaseItems (req s h), (i.1 = 255 → heldBy t h = []) ∧ (i.1 ≠ 255 → holds t h i.1 i.2.2 = false)) ∧
      (∀ r ∈ allRes, ∀ g < 4, holds t g r.1 r.2 = true → holds s g r.1 r.2 = true) ∧ t.tables = s.tables))

/-- The one descriptor of an EVENT_POST. -/
def posted (s : State) (h : Nat) : PostDesc := postDesc h (((req s h).drop 4).take 16)

/-- The slot that a handle of an EVENT_CANCEL names. -/
def handled (s : State) (h : Nat) : Nat := leAt (req s h) 4 4 % 1024

/-- R77, R95, R96, R98 to R101: events of hosts. -/
def Obligations.EventsArePostedAndCancelled : Prop :=
  (∀ (s : State) (h i : Nat), starts s h 0x10 → roleOf s h ≠ 2 → leAt (req s h) 0 2 = 1 → leAt (req s h) 2 2 = 0 → postRefusal s h (posted s h) = none →
    passedNow s (resolveDesc s (posted s h)) = false →
    (mayAllocate s (resolveDesc s (posted s h)) = true → longestFree s = some i → answers (.eventPost h) s (fun t =>
      (slotAt t i).d = resolveDesc s (posted s h) ∧ (slotAt t i).state ≠ stFree ∧ (slotAt t i).gen = ((slotAt s i).gen + 1) % 256 ∧
      (slotAt t i).postStep = nextStep s ∧ (∀ j, j ≠ i → slotAt t j = slotAt s j) ∧
      answered s t h (leBytes 2 1 ++ leBytes 2 0 ++ leBytes 4 (i + (slotAt t i).gen * 2 ^ 10 +
        (if (slotAt t i).state = stArmed then stLate else (slotAt t i).state) * 2 ^ 18)) ∧ otherSlots s t h)) ∧
    ((mayAllocate s (resolveDesc s (posted s h)) = false ∨ longestFree s = none) → answers (.eventPost h) s (fun t =>
      responded s t h stPoolFull [] ∧ getF t SCH_CNT_POOLFULL_CNT = min (getF s SCH_CNT_POOLFULL_CNT + 1) (2 ^ 32 - 1) ∧
      regsBut s t [SCH_CNT_POOLFULL, HIF_H_CNT_REJ h] ∧ otherSlots s t h ∧ partsBut s t [.regs, .sys, .hif]))) ∧
  (∀ (s : State) (h : Nat), starts s h 0x11 → roleOf s h ≠ 2 → leAt (req s h) 0 1 = 0 → leAt (req s h) 1 1 < 2 → leAt (req s h) 2 2 = 1 → leAt (req s h) 4 4 < 2 ^ 18 →
    ((slotAt s (handled s h)).state = stPending → (slotAt s (handled s h)).gen = leAt (req s h) 4 4 / 1024 →
      (slotAt s (handled s h)).d.origin = 1 → (slotAt s (handled s h)).d.host = h → onTrail (slotAt s (handled s h)) = false →
      answers (.eventCancel h) s (fun t => (slotAt t (handled s h)).state = stCancelled ∧ (slotAt t (handled s h)).gen = (slotAt s (handled s h)).gen ∧
        (∀ j, j ≠ handled s h → slotAt t j = slotAt s j) ∧ answered s t h ((req s h).take 4 ++ leBytes 4 rcCancelled) ∧
        t.regs = s.regs ∧ otherSlots s t h ∧ partsBut s t [.sch, .sys, .hif])) ∧
    (((slotAt s (handled s h)).state = stFree ∨ (slotAt s (handled s h)).gen ≠ leAt (req s h) 4 4 / 1024) → answers (.eventCancel h) s (fun t =>
      answered s t h ((req s h).take 4 ++ leBytes 4 rcStale) ∧ t.regs = s.regs ∧ otherSlots s t h ∧ partsBut s t [.sys, .hif])) ∧
    (5 ≤ (slotAt s (handled s h)).state → (slotAt s (handled s h)).gen = leAt (req s h) 4 4 / 1024 → (slotAt s (handled s h)).d.retain = true →
      (slotAt s (handled s h)).d.origin = 1 → (slotAt s (handled s h)).d.host = h → answers (.eventCancel h) s (fun t =>
      (slotAt t (handled s h)).state = stFree ∧ (slotAt t (handled s h)).gen = (slotAt s (handled s h)).gen ∧
      (∀ j, j ≠ handled s h → slotAt t j = slotAt s j) ∧ answered s t h ((req s h).take 4 ++ leBytes 4 rcReleased) ∧ otherSlots s t h)))

/-- The tile that a request names. -/
def tileX (s : State) (h : Nat) : Nat := leAt (req s h) 0 2
def tileY (s : State) (h : Nat) : Nat := leAt (req s h) 2 2
def chunkOf (s : State) (h : Nat) : Nat := leAt (req s h) 4 1

/-- R313, R316, R318, R320, R321. -/
def Obligations.MeasurementsAndCorrections : Prop :=
  (∀ (s : State) (h : Nat), starts s h 0x20 → leAt (req s h) 6 2 ≤ 120 →
    (∀ e, epochOf s (leAt (req s h) 0 4) = some e → answers (.gnsMeasRead h) s (fun t => responded s t h stOk (bodyOf s t h) ∧
      leAt (bodyOf s t h) 0 4 = e.seq % 2 ^ 32 ∧ leAt (bodyOf s t h) 16 2 = e.recs.length % 65536 ∧
      (bodyOf s t h).drop 32 = ((e.recs.drop (leAt (req s h) 4 2)).take (leAt (req s h) 6 2)).flatten ∧
      t.regs = s.regs ∧ otherSlots s t h ∧ partsBut s t [.sys, .hif])) ∧
    (epochOf s (leAt (req s h) 0 4) = none → answers (.gnsMeasRead h) s (fun t => responded s t h stOk (bodyOf s t h) ∧
      leAt (bodyOf s t h) 0 4 = leAt (req s h) 0 4 ∧ leAt (bodyOf s t h) 16 2 = 0 ∧ leAt (bodyOf s t h) 18 1 = 4 ∧ (bodyOf s t h).length = 32 ∧
      t.regs = s.regs ∧ otherSlots s t h ∧ partsBut s t [.sys, .hif, .free]))) ∧
  (∀ (s : State) (h : Nat), starts s h 0x21 → answers (.gnsNavRead h) s (fun t =>
    answered s t h (navRead s (leAt (req s h) 0 4) (leAt (req s h) 4 1)) ∧ t.regs = s.regs ∧ otherSlots s t h ∧ partsBut s t [.sys, .hif])) ∧
  (∀ (s : State) (h : Nat), starts s h 0x22 → sparseGet (fun _ => []) s.gns.rtcm h = ([] : List Byte) →
    ((req s h).all (fun b => decide (b ≠ 0xD3#8)) = true → answers (.rtcmWrite h) s (fun t => answered s t h [] ∧ (∀ g, sparseGet (fun _ => []) t.gns.rtcm g = sparseGet (fun _ => []) s.gns.rtcm g) ∧
      { t.gns with rtcm := s.gns.rtcm } = s.gns ∧ t.regs = s.regs ∧
      otherSlots s t h ∧ partsBut s t [.gns, .sys, .hif])) ∧
    ((req s h).getD 0 0 = 0xD3#8 → (req s h).length = ((req s h).getD 1 0).toNat % 4 * 256 + ((req s h).getD 2 0).toNat + 6 → crc24q (req s h) = 0 →
      rtcmKnown (rtcmBits ((req s h).drop 3) 0 12) = true → rtcmBits ((req s h).drop 3) 0 12 ∉ [1005, 1006, 1033] → 5 ≤ (req s h).length - 3 →
      flag s GNS_STAT_SRCV = false →
      answers (.rtcmWrite h) s (fun t => answered s t h [] ∧ flag t GNS_STAT_SRCV = true ∧ getF t GNS_STAT_SRC = h ∧ t.gns.srcAt = nextBoundary s ∧
        t.gns.corrAt = some (nextBoundary s) ∧ t.gns.lost = false ∧ getF t GNS_CNT_RTCM_CNT = min (getF s GNS_CNT_RTCM_CNT + 1) (2 ^ GNS_CNT_RTCM_CNT.width - 1) ∧
        otherSlots s t h ∧ partsBut s t [.regs, .gns, .sys, .hif, .recd])))

/-- The controller that a CAN command names. -/
def canOf (s : State) (h : Nat) : Nat := leAt (req s h) 0 1

/-- The buffers that a CAN_ABORT names and that the slot loaded and may abort. -/
def abortable (s : State) (h b : Nat) : Bool :=
  (leAt (req s h) 2 8).testBit b && decide (getF s (CAN_TXB_STAT_OWNER (canOf s h) b) = h) && !txReserved s (canOf s h) b

/-- The buffer and the item of a CAN_SEND of one item that may be sent (R363). -/
def sendsOne (s : State) (h : Nat) : Option (Nat × List Byte) := match sendItems (leAt (req s h) 1 1) ((req s h).drop 4) with
  | some [i] => if (sendPlan s (canOf s h) [i] []).1 = stOk then (sendPlan s (canOf s h) [i] []).2.head? else none
  | _ => none

/-- R358, R363 to R365: the CAN commands. -/
def Obligations.CanCommands : Prop :=
  (∀ (s : State) (h b : Nat) (i : List Byte), starts s h 0x28 → roleOf s h ≠ 2 → canOf s h < 4 → leAt (req s h) 2 2 = 0 →
    sendsOne s h = some (b, i) →
    answers (.canSend h) s (fun t => (bufAt t (canOf s h) b).w0 = wordAt i 8 ∧ (bufAt t (canOf s h) b).w1 = wordAt i 12 ∧
      (bufAt t (canOf s h) b).data = (i.drop 24).take (itemData i) ∧ (bufAt t (canOf s h) b).seq = ((bufAt s (canOf s h) b).seq + 1) % 256 ∧
      getF t (CAN_TXB_STAT_OWNER (canOf s h) b) = h ∧ getF t (CAN_TXB_STAT_TAG (canOf s h) b) = leAt i 2 2 ∧ txState t (canOf s h) b ≠ tbFree ∧
      answered s t h (leBytes 1 (canOf s h) ++ [1#8, 0#8, 0#8] ++ leBytes 1 b ++ leBytes 1 (((bufAt s (canOf s h) b).seq + 1) % 256) ++ [0#8, 0#8]) ∧
      (∀ y < 4, y ≠ canOf s h → ctlAt t y = ctlAt s y) ∧ otherSlots s t h)) ∧
  (∀ (s : State) (h : Nat), starts s h 0x29 → canOf s h < 4 → leAt (req s h) 1 1 < 4 → leAt (req s h) 3 1 = 0 →
    flag s (CAN_FIFO_CFG_FW (canOf s h) (leAt (req s h) 1 1)) = false → getF s (CAN_FIFO_CFG_HOST (canOf s h) (leAt (req s h) 1 1)) = h →
    answers (.canRecv h) s (fun t =>
      (fifoAt t (canOf s h) (leAt (req s h) 1 1)).elems = (fifoAt s (canOf s h) (leAt (req s h) 1 1)).elems.drop (leAt (req s h) 2 1) ∧
      (fifoAt t (canOf s h) (leAt (req s h) 1 1)).ovf = false ∧
      leAt (bodyOf s t h) 0 2 = min (leAt (req s h) 2 1) (fifoAt s (canOf s h) (leAt (req s h) 1 1)).elems.length ∧
      (bodyOf s t h).drop 4 = ((fifoAt s (canOf s h) (leAt (req s h) 1 1)).elems.take (leAt (req s h) 2 1)).flatMap (fun e =>
        e.bytes ++ List.replicate ((4 - e.bytes.length % 4) % 4) 0#8) ∧ responded s t h stOk (bodyOf s t h) ∧
      regsBut s t [CAN_FIFO_STAT (canOf s h) (leAt (req s h) 1 1)] ∧ otherSlots s t h ∧ partsBut s t [.regs, .can, .sys, .hif])) ∧
  (∀ (s : State) (h : Nat), starts s h 0x2A → roleOf s h ≠ 2 → canOf s h < 4 → leAt (req s h) 1 1 = 0 →
    answers (.canAbort h) s (fun t =>
      (∀ b < 64, abortable s h b = true → (txState s (canOf s h) b = tbPending ∨ txState s (canOf s h) b = tbReady) → txState t (canOf s h) b = tbAborted) ∧
      (∀ b < 64, abortable s h b = true → txState s (canOf s h) b = tbActive → txState t (canOf s h) b = tbActive ∧ (bufAt t (canOf s h) b).abort = true) ∧
      (∀ b < 64, abortable s h b = false → txState t (canOf s h) b = txState s (canOf s h) b ∧ bufAt t (canOf s h) b = bufAt s (canOf s h) b) ∧
      responded s t h stOk (bodyOf s t h) ∧ otherSlots s t h ∧ partsBut s t [.regs, .can, .sys, .hif]))

/-- R417 to R422: the recorder's commands. -/
def Obligations.RecorderCommands : Prop :=
  (∀ (s : State) (h : Nat), starts s h 0x30 → roleOf s h ≠ 1 → leAt (req s h) 0 2 < 16384 → inService s = true → answers (.recRead h) s (fun t =>
    answered s t h (recReadBody s (leAt (req s h) 0 2) (leAt (req s h) 2 2)) ∧ t.regs = s.regs ∧ otherSlots s t h ∧ partsBut s t [.sys, .hif])) ∧
  (∀ (s : State) (h : Nat), starts s h 0x31 → ownerOrService s h = true → leAt (req s h) 1 3 = 0 → inService s = true →
    (leAt (req s h) 0 1 = 1 → s.recd.freeze = none → answers (.recFreeze h) s (fun t => t.recd.freeze = some h ∧ t.recd.log = s.recd.log ∧
      answered s t h ([1#8, 0#8] ++ leBytes 2 s.recd.next) ∧ t.regs = s.regs ∧ otherSlots s t h ∧ partsBut s t [.recd, .sys, .hif])) ∧
    (leAt (req s h) 0 1 = 0 → s.recd.freeze = some h → answers (.recFreeze h) s (fun t => t.recd.freeze = none ∧ t.recd.log = s.recd.log ∧
      answered s t h ([0#8, 0#8] ++ leBytes 2 s.recd.next) ∧ regsBut s t tally ∧ otherSlots s t h ∧ partsBut s t [.regs, .recd, .sys, .hif]))) ∧
  (∀ (s : State) (h : Nat), starts s h 0x32 → ownerOrService s h = true → inService s = true → s.recd.key.isSome = true → s.recd.lock = false →
    answers (.recChallenge h) s (fun t => answered s t h (bodyOf s t h) ∧ (bodyOf s t h).length = 18 ∧ t.recd.nonce = some (h, (bodyOf s t h).take 16) ∧
      (bodyOf s t h).drop 16 = leBytes 2 s.recd.next ∧ t.recd = { s.recd with nonce := t.recd.nonce, nonceAt := absTick s (nowTick s) } ∧
      t.free = s.free + 1 ∧ t.regs = s.regs ∧ otherSlots s t h ∧ partsBut s t [.recd, .free, .sys, .hif])) ∧
  (∀ (s : State) (h : Nat), starts s h 0x33 → ownerOrService s h = true → inService s = true →
    (macOk s h [] (req s h) = true → answers (.recClear h) s (fun t => accepted s t h 2 [] ∧ t.recd.clearing.isSome = true ∧ t.recd.nonce = none ∧
      t.recd.fails = 0 ∧ t.recd.log = s.recd.log ∧ t.regs = s.regs ∧ otherSlots s t h ∧ partsBut s t [.recd, .sys, .hif])) ∧
    (macOk s h [] (req s h) = false → answers (.recClear h) s (fun t => responded s t h stAuth [] ∧ t.recd.nonce = none ∧ t.recd.fails = s.recd.fails + 1 ∧
      t.recd.log = s.recd.log ∧ ((s.recd.fails + 1) % 3 = 0 → t.recd.lock = true ∧ t.recd.lockAt = absTick s (nowTick s)) ∧
      regsBut s t (REC_CNT_AUTHFAIL :: HIF_H_CNT_REJ h :: tally) ∧ otherSlots s t h ∧ partsBut s t [.regs, .recd, .sys, .hif])))

/-- R458 to R460, R468: images. -/
def Obligations.FirmwareUpdates : Prop :=
  (∀ (s : State) (h : Nat), ownerOrService s h = true →
    (starts s h 0x38 → answers (.fwInfo h) s (fun t => answered s t h (leBytes 1 s.boot.running ++ leBytes 1 s.boot.preferred ++
      leBytes 1 (bit (trialRuns s) 0) ++ [0#8] ++ imageInfo s 0 ++ imageInfo s 1) ∧ t.regs = s.regs ∧ otherSlots s t h ∧ partsBut s t [.sys, .hif])) ∧
    (starts s h 0x39 → leAt (req s h) 0 1 < 2 → leAt (req s h) 1 3 = 0 → inRange 256 12582912 (leAt (req s h) 4 4) = true → leAt (req s h) 4 4 % 4 = 0 →
      s.boot.update = none → leAt (req s h) 0 1 ≠ s.boot.running → answers (.fwBegin h) s (fun t =>
        t.boot.update = some { slot := h, image := leAt (req s h) 0 1, length := leAt (req s h) 4 4, written := [], erasing := true } ∧
        imageAt t (leAt (req s h) 0 1) = ImageRec.empty ∧ imageAt t (1 - leAt (req s h) 0 1) = imageAt s (1 - leAt (req s h) 0 1) ∧
        flag t SYS_BOOT_UPD_OPEN = true ∧ getF t SYS_BOOT_UPD_SLOT = h ∧ accepted s t h 3 (leBytes 1 (leAt (req s h) 0 1)) ∧ otherSlots s t h ∧
        partsBut s t [.regs, .boot, .sys, .hif])) ∧
    (∀ u, s.boot.update = some u → u.slot = h → u.erasing = false → starts s h 0x3A → leAt (req s h) 0 4 = u.written.length → u.written.length + ((req s h).drop 4).length ≤ u.length →
      answers (.fwData h) s (fun t => t.boot.update = some { u with written := u.written ++ (req s h).drop 4 } ∧
        answered s t h (leBytes 4 (u.written.length + ((req s h).drop 4).length)) ∧ t.regs = s.regs ∧ t.boot.images = s.boot.images ∧ otherSlots s t h ∧
        partsBut s t [.boot, .sys, .hif])) ∧
    (∀ u x, s.boot.update = some u → u.slot = h → u.erasing = false → starts s h 0x3B → u.image < 2 →
      (u.length ≤ u.written.length → imageReason s x = 0 → answers (.fwEnd h x) s (fun t =>
        imageAt t u.image = { state := imUntested, head := x, bytes := some u.written } ∧ t.boot.update = none ∧ getF t (SYS_IMG_STATE u.image) = imUntested ∧
        flag t SYS_BOOT_UPD_OPEN = false ∧ responded s t h stOk [BitVec.ofNat 8 imUntested, 0#8] ∧ otherSlots s t h ∧ partsBut s t [.regs, .boot, .recd, .sys, .hif])) ∧
      ((u.written.length < u.length ∨ imageReason s x ≠ 0) → answers (.fwEnd h x) s (fun t => (imageAt t u.image).state = imBad ∧ t.boot.update = none ∧
        responded s t h stAuth [BitVec.ofNat 8 imBad, BitVec.ofNat 8 (if u.written.length < u.length then 1 else imageReason s x)] ∧ otherSlots s t h ∧
        partsBut s t [.regs, .boot, .sys, .hif]))) ∧
    (starts s h 0x3D →
      (trialRuns s = true → s.boot.running < 2 → answers (.fwCommit h) s (fun t => imageState t s.boot.running = imValid ∧
        t.boot.minSvn = (imageAt s s.boot.running).head.svn ∧ flag t SYS_BOOT_TRIAL = false ∧ answered s t h [BitVec.ofNat 8 imValid] ∧ otherSlots s t h ∧
        partsBut s t [.regs, .boot, .recd, .sys, .hif])) ∧
      (trialRuns s = false → answers (.fwCommit h) s (fun t => answered s t h (leBytes 1 (imageState s s.boot.running)) ∧ t.boot = s.boot ∧ t.regs = s.regs ∧
        otherSlots s t h ∧ partsBut s t [.sys, .hif])))) ∧
  (∀ (s : State) (u : Update), s.boot.update = some u → u.erasing = true → answers .fwEraseDone s (fun t =>
    t.boot = { s.boot with update := some { u with erasing := false } } ∧ regsBut s t ((List.range 4).map HIF_H_CNT_REJ) ∧ (∀ h < 4, (slotOf t h).ring = (slotOf s h).ring ∧
      (slotOf t h).deferred.any (fun d => decide (d.wait = 3)) = false) ∧ partsBut s t [.regs, .boot, .hif]))

/-- The front frame is a CFG of this operation. -/
def cfgStarts (s : State) (h op : Nat) : Prop := starts s h 0x3E ∧ leAt (req s h) 0 1 = op ∧ leAt (req s h) 1 3 = 0

/-- The bank that the next save goes to (R466). -/
def olderBank (s : State) : Nat := if newestBank s = some 0 then 1 else 0

/-- The last save began at least 10 s ago (R466). -/
def saveAllowed (s : State) : Bool := match s.boot.lastSave with
  | some t => decide (t + 10 * ticksPerSec ≤ absTick s (nowTick s))
  | none => true

/-- R422, R466 to R468: the persistent configuration. -/
def Obligations.ConfigurationAndKeys : Prop :=
  (∀ (s : State) (h : Nat), cfgStarts s h 0 → ownerOrService s h = true → testMode s = false → s.boot.saving = none → saveAllowed s = true →
    answers (.cfgSave h) s (fun t => (t.boot.saving.map (·.1)) = some (olderBank s) ∧ (bankAt t (olderBank s)).valid = false ∧
      bankAt t (1 - olderBank s) = bankAt s (1 - olderBank s) ∧ (∀ b, t.boot.saving.map (·.2) = some b → b.valid = true ∧
        ∀ e ∈ persistent, sparseGet regReset b.regs e.1 &&& e.2 = rd s e.1 &&& e.2) ∧
      t.boot.lastSave = some (absTick s (nowTick s)) ∧ t.regs = s.regs ∧ (slotOf t h).deferred.length = (slotOf s h).deferred.length + 1 ∧ otherSlots s t h ∧
      partsBut s t [.boot, .sys, .hif])) ∧
  (∀ (s : State) (x : Nat × CfgBank), s.boot.saving = some x → x.1 < 2 → answers .cfgSaveDone s (fun t => bankAt t x.1 = x.2 ∧ bankAt t (1 - x.1) = bankAt s (1 - x.1) ∧
    t.boot.saving = none ∧ (∀ h < 4, (slotOf t h).deferred.any (fun d => decide (d.wait = 4)) = false) ∧ regsBut s t (tally ++ (List.range 4).map HIF_H_CNT_REJ) ∧ partsBut s t [.regs, .boot, .recd, .hif])) ∧
  (∀ (s : State) (h : Nat), roleOf s h = 3 → testMode s = false →
    (cfgStarts s h 1 → answers (.cfgErase h) s (fun t => (∀ k, bankAt t k = CfgBank.empty) ∧ answered s t h [] ∧ t.regs = s.regs ∧ otherSlots s t h ∧
      partsBut s t [.boot, .sys, .hif])) ∧
    (cfgStarts s h 2 → s.recd.key = none → answers (.keySet h) s (fun t => t.recd.key = some (((req s h).drop 4).take 32) ∧ answered s t h [] ∧
      regsBut s t tally ∧ otherSlots s t h ∧ partsBut s t [.regs, .recd, .sys, .hif])) ∧
    (cfgStarts s h 2 → s.recd.key.isSome = true →
      (macOk s h (((req s h).drop 4).take 32) ((req s h).drop 36) = true → answers (.keySet h) s (fun t =>
        t.recd.key = some (((req s h).drop 4).take 32) ∧ t.recd.nonce = none ∧ t.recd.fails = 0 ∧ answered s t h [] ∧ otherSlots s t h ∧
        partsBut s t [.regs, .recd, .sys, .hif])) ∧
      (macOk s h (((req s h).drop 4).take 32) ((req s h).drop 36) = false → answers (.keySet h) s (fun t =>
        t.recd.key = s.recd.key ∧ t.recd.nonce = none ∧ t.recd.fails = s.recd.fails + 1 ∧ responded s t h stAuth [] ∧ otherSlots s t h ∧
        partsBut s t [.regs, .recd, .sys, .hif]))))

/-- The device has been reset by software (R449, R450, R461). -/
def softwareReset (t : State) : Prop :=
  t.sys.inReset = true ∧ t.sys.running = false ∧ t.sys.sources.testBit 5 = true ∧ (∀ g < 4, attached t g = false ∧ (slotOf t g).ring = []) ∧
  flag t DRV_CTRL_EN = false ∧ flag t CLE_CTRL_EN = false

/-- R450, R459 to R462, R468: resets that a command asks for. -/
def Obligations.ResetsByCommand : Prop :=
  (∀ (s : State) (h : Nat), starts s h 0x3F → ownerOrService s h = true → leAt (req s h) 1 3 = 0 →
    (leAt (req s h) 0 1 = 0 ∨ ((leAt (req s h) 0 1 = 2 ∨ leAt (req s h) 0 1 = 3) ∧ roleOf s h = 3)) →
    (mayReset s = true → answers (.sysReset h) s (fun t => softwareReset t ∧ t.boot.nextMode = leAt (req s h) 0 1 ∧ t.boot.preferred = s.boot.preferred ∧
      t.recd.log = s.recd.log ∧ (s.boot.update = none → t.boot.images = s.boot.images) ∧ (s.boot.saving = none → t.boot.banks = s.boot.banks))) ∧
    (mayReset s = false → answers (.sysReset h) s (fun t => responded s t h stWrong [] ∧ regsBut s t [HIF_H_CNT_REJ h] ∧ otherSlots s t h ∧
      partsBut s t [.regs, .sys, .hif]))) ∧
  (∀ (s : State) (h : Nat), starts s h 0x3C → ownerOrService s h = true → leAt (req s h) 0 1 < 2 → leAt (req s h) 1 3 = 0 →
    (imageState s (leAt (req s h) 0 1) = imUntested ∨ imageState s (leAt (req s h) 0 1) = imValid) →
    (mayReset s = true → answers (.fwActivate h) s (fun t => softwareReset t ∧ t.boot.preferred = leAt (req s h) 0 1 ∧ t.boot.nextMode = 0 ∧
      (s.boot.update = none → imageAt t (1 - leAt (req s h) 0 1) = imageAt s (1 - leAt (req s h) 0 1) ∧
        imageState t (leAt (req s h) 0 1) = if imageState s (leAt (req s h) 0 1) = imUntested then imTrial else imValid))) ∧
    (mayReset s = false → answers (.fwActivate h) s (fun t => responded s t h stWrong [] ∧ t.boot = s.boot ∧ regsBut s t [HIF_H_CNT_REJ h] ∧ otherSlots s t h ∧
      partsBut s t [.regs, .sys, .hif])))

/-- Selector `i` of slot `h` holds `v`, and the window is what the device shows of that object; nobody else notices. -/
def opensWindow (s t : State) (h i : Nat) (v : Word) : Prop :=
  winGet t h i = v ∧ (∀ e ∈ windowOf s i v, winGet t h e.1 = e.2) ∧ t.regs = s.regs ∧ otherSlots s t h ∧ t.sys = { s.sys with atBoundary := false } ∧
  partsBut s t [.sys, .hif]

/-- R74, R108, R147, R163, R322, R498: selectors. -/
def Obligations.SelectorsOpenTheSlotsOwnWindow : Prop :=
  (∀ (s : State) (h c : Nat), serves s h → c < 512 →
    (startsNow s h [item KIN_CH_SEL 0xFFFFFFFF#32 (BitVec.ofNat 32 c)] → answers (.kinChSel h (BitVec.ofNat 32 c)) s (fun t => opensWindow s t h KIN_CH_SEL (BitVec.ofNat 32 c))) ∧
    (startsNow s h [item SCH_CH_SEL 0xFFFFFFFF#32 (BitVec.ofNat 32 c)] → answers (.schChSel h (BitVec.ofNat 32 c)) s (fun t => opensWindow s t h SCH_CH_SEL (BitVec.ofNat 32 c))) ∧
    (startsNow s h [item MAP_CH_SEL 0xFFFFFFFF#32 (BitVec.ofNat 32 c)] → answers (.mapChSel h (BitVec.ofNat 32 c)) s (fun t => opensWindow s t h MAP_CH_SEL (BitVec.ofNat 32 c))) ∧
    (startsNow s h [item ACT_CH_SEL 0xFFFFFFFF#32 (BitVec.ofNat 32 c)] → answers (.actChSel h (BitVec.ofNat 32 c)) s (fun t => opensWindow s t h ACT_CH_SEL (BitVec.ofNat 32 c)))) ∧
  (∀ (s : State) (h i : Nat), serves s h →
    (i < 1024 → startsNow s h [item SCH_SLOT_SEL 0xFFFFFFFF#32 (BitVec.ofNat 32 i)] → answers (.schSlotSel h (BitVec.ofNat 32 i)) s (fun t => opensWindow s t h SCH_SLOT_SEL (BitVec.ofNat 32 i))) ∧
    (i < 192 → startsNow s h [item GNS_SLOT_SEL 0xFFFFFFFF#32 (BitVec.ofNat 32 i)] → answers (.gnsSlotSel h (BitVec.ofNat 32 i)) s (fun t => opensWindow s t h GNS_SLOT_SEL (BitVec.ofNat 32 i))))

/-- R22, R27, R46, R72, R109, R163, R396: state words and enables. -/
def Obligations.StateWordsAndEnables : Prop :=
  (∀ (s : State) (h k n : Nat) (v : Word), serves s h → k < 4 → n < kindSize k →
    (holds s h k n = true → reqOk (k, n) v = true → v = v &&& 7#32 → startsNow s h [item (stateWord k n) 0xFFFFFFFF#32 v] → answers (.stateWordWrite h k n v) s (fun t =>
      bitsOf (rd t (stateWord k n)) 2 0 = v.toNat ∧ holderOf t k n = holderOf s k n ∧ sparseGet (fun _ => false) t.hif.setDown (resKey k n) = false ∧
      t.sys.atBoundary = false)) ∧
    (holds s h k n = false → startsNow s h [item (stateWord k n) 0xFFFFFFFF#32 v] → answers (.stateWordWrite h k n v) s (fun t => t = s))) ∧
  (∀ (s : State) (h : Nat) (en : Bool), serves s h →
    (ownerOrService s h = true →
      (bitsOf (rd s KIN_CTRL) 3 2 ≠ 3 → startsNow s h (putFlag KIN_CTRL_EN en) → answers (.kinEn h en) s (fun t => flag t KIN_CTRL_EN = en ∧
        (en = false → flag s KIN_CTRL_EN = true → getF t KIN_STAT_CLASS = 0 ∧ flag t KIN_STAT_POSE_VALID = false ∧ flag t KIN_STAT_MOTION_VALID = false) ∧
        wroteBut s t h [.regs, .kin, .sys])) ∧
      (startsNow s h (putFlag SCH_CTRL_EN en) → answers (.schEn h en) s (fun t => flag t SCH_CTRL_EN = en ∧ regsBut s t [SCH_CTRL] ∧ wroteBut s t h [.regs, .sys])) ∧
      ((en = false ∨ flag s MAP_STAT_CLR_BUSY = false) → startsNow s h (putFlag MAP_CTRL_EN en) → answers (.mapEn h en) s (fun t => flag t MAP_CTRL_EN = en ∧
        (∀ x y o, cellIn t x y o = cellIn s x y o) ∧ regsBut s t [MAP_CTRL] ∧ wroteBut s t h [.regs, .map, .sys])) ∧
      (flag s MAP_STAT_CLR_BUSY = true → startsNow s h (putFlag MAP_CTRL_EN true) → answers (.mapEn h true) s (fun t => t = s))) ∧
    (ownerOrService s h = false → (startsNow s h (putFlag KIN_CTRL_EN en) → answers (.kinEn h en) s (fun t => t = s)) ∧ (startsNow s h (putFlag SCH_CTRL_EN en) → answers (.schEn h en) s (fun t => t = s)) ∧ (startsNow s h (putFlag MAP_CTRL_EN en) → answers (.mapEn h en) s (fun t => t = s)))) ∧
  (∀ (s : State) (h c f : Nat), serves s h → actSel s h = c → holds s h kCh c = true → f < 128 → 0 < f →
    startsNow s h [item ACT_CH_ALM 0x7F#32 (BitVec.ofNat 32 f)] → answers (.alarmFlagClear h f) s (fun t => (∀ b < 32, (dlyFlags t c).testBit b = ((dlyFlags s c).testBit b && !f.testBit b)) ∧
      (∀ d, d ≠ c → tget t .dly d = tget s .dly d) ∧ (∀ b n, b ≠ .dly → tget t b n = tget s b n) ∧ regsBut s t [ACT_STAT] ∧ otherSlots s t h ∧
      wroteBut s t h [.regs, .tables, .sys, .hif]))

/-- A clear of this kind has started. -/
def clearStarted (s t : State) (h bits : Nat) : Prop :=
  flag t MAP_STAT_CLR_BUSY = true ∧ t.map = { s.map with clear := some { clr := bits, slot := h } } ∧ rd t MAP_CLR = rd s MAP_CLR &&& ~~~ 15#32 ∧
  regsBut s t (MAP_STAT :: MAP_CLR :: tally) ∧ wroteBut s t h [.regs, .map, .recd, .sys]

/-- No polygon header breaks a rule (R141). -/
def headersOk (s : State) : Bool := (List.range 64).all fun p => !polyBad (polyHead s p)

/-- Tiles are read and written, the map is cleared, and passes run. R114, R116, R143, R144, R146: tiles. R139 to R142, R146: clears and passes. -/
def Obligations.TilesClearsAndPasses : Prop :=
  ((∀ (s : State) (h : Nat), starts s h 0x18 → tileReadOk (req s h) = true → answers (.tileRead h) s (fun t =>
      answered s t h (tileRead s (tileX s h) (tileY s h) (chunkOf s h)) ∧ t.regs = s.regs ∧ (∀ x y o, cellIn t x y o = cellIn s x y o) ∧
      otherSlots s t h ∧ partsBut s t [.map, .sys, .hif])) ∧
    (∀ (s : State) (h : Nat), starts s h 0x19 → ownerOrService s h = true → tileWriteOk (req s h) = true → flag s MAP_PLY_STAT_BUSY = false →
      chunkOf s h ≤ 3 → leAt (req s h) 5 1 = 0 → (tileAt s (tileX s h) (tileY s h)).isSome = true →
      answers (.tileWrite h) s (fun t =>
        (∀ k < 1024, cellIn t (tileX s h) (tileY s h) (1024 * chunkOf s h + k) = cleanCell (leAt (req s h) (8 + k) 1)) ∧
        (∀ o, (o < 1024 * chunkOf s h ∨ 1024 * chunkOf s h + 1024 ≤ o) → cellIn t (tileX s h) (tileY s h) o = cellIn s (tileX s h) (tileY s h) o) ∧
        (∀ x < 512, ∀ y < 512, ∀ o, (x ≠ tileX s h ∨ y ≠ tileY s h) → cellIn t x y o = cellIn s x y o) ∧
        answered s t h ((req s h).take 8 ++ [1#8, 0#8, 0#8, 0#8] ++ leBytes 4 (nextStep s).toNat) ∧
        regsBut s t [MAP_STAT] ∧ otherSlots s t h ∧ partsBut s t [.regs, .map, .sys, .hif])) ∧
    (∀ (s : State) (j : MapJob), s.map.clear = some j → j.clr.testBit 3 = true → answers .mapClearDone s (fun t => t.map.clear = none ∧
      flag t MAP_STAT_CLR_BUSY = false ∧ (∀ x y o, cellIn t x y o = 0) ∧ t.tables = s.tables ∧ (∀ h < 4, (slotOf t h).ring = (slotOf s h).ring)))) ∧
  ((∀ (s : State) (h : Nat), serves s h → ownerOrService s h = true → flag s MAP_CTRL_EN = false → flag s MAP_STAT_CLR_BUSY = false →
      (startsNow s h (putFlag MAP_CLR_COV true) → answers (.clrCov h) s (fun t => clearStarted s t h 1)) ∧ (startsNow s h (putFlag MAP_CLR_EXC true) → answers (.clrExc h) s (fun t => clearStarted s t h 2)) ∧
      (startsNow s h (putFlag MAP_CLR_ZONE true) → answers (.clrZone h) s (fun t => clearStarted s t h 4)) ∧ (startsNow s h (putFlag MAP_CLR_ALL true) → answers (.clrAll h) s (fun t => clearStarted s t h 8))) ∧
    (∀ (s : State) (h : Nat), serves s h → ownerOrService s h = true →
      (flag s MAP_STAT_CLR_BUSY = true → reqUsed (slotOf s h) + frameSize 16 ≤ ringBytes → answers (.rasterGo h) s (fun t =>
        slotOf t h = { slotOf s h with ring := (slotOf s h).ring ++ [rowFrame s (putFlag MAP_PLY_CTRL_GO true)] } ∧
        otherSlots s t h ∧ partsBut s t [.hif])) ∧
      (flag s MAP_STAT_CLR_BUSY = false → flag s MAP_PLY_STAT_BUSY = false →
        (headersOk s = true → startsNow s h (putFlag MAP_PLY_CTRL_GO true) → answers (.rasterGo h) s (fun t => flag t MAP_PLY_STAT_BUSY = true ∧ flag t MAP_PLY_STAT_ERR = false ∧
          flag t MAP_PLY_STAT_PART = false ∧ t.map.pass.isSome = true ∧ (∀ x y o, cellIn t x y o = cellIn s x y o) ∧
          regsBut s t [MAP_PLY_STAT, MAP_PLY_CTRL] ∧ wroteBut s t h [.regs, .map, .sys])) ∧
        (∀ p < 64, polyBad (polyHead s p) = true → ((List.range p).all fun q => !polyBad (polyHead s q)) = true → startsNow s h (putFlag MAP_PLY_CTRL_GO true) → answers (.rasterGo h) s (fun t =>
          flag t MAP_PLY_STAT_BUSY = false ∧ flag t MAP_PLY_STAT_ERR = true ∧ getF t MAP_PLY_STAT_ERR_POLY = p ∧
          regsBut s t [MAP_PLY_STAT, MAP_PLY_CTRL] ∧ wroteBut s t h [.regs, .sys])))) ∧
    (∀ s : State, s.map.pass.isSome = true → answers .rasterPassEnd s (fun t => flag t MAP_PLY_STAT_BUSY = false ∧ t.map.pass = none ∧
      getF t MAP_PLY_STAT_PASSES = min (getF s MAP_PLY_STAT_PASSES + 1) 65535 ∧ t.map.clear = s.map.clear ∧ t.map.ch = s.map.ch ∧
      regsBut s t (MAP_STAT :: MAP_PLY_STAT :: MAP_CNT_LOST :: tally) ∧ partsBut s t [.regs, .map, .recd, .free])))

/-- R14, R192, R198, R263, R278, R291, R349, R379, R479, R480: the outputs in reset. -/
def Obligations.OutputsStandInReset : Prop :=
  ∀ (s : State) (t : Nat), s.sys.running = false →
    (∀ n, pinAt s t (.drvLs n) = .lowSide false false false) ∧ (∀ g, pinAt s t (.drvHs g) = .highSide false) ∧
    (∀ g p, pinAt s t (.pwmH g p) = .highZ ∧ pinAt s t (.pwmL g p) = .highZ) ∧ (∀ p, pinAt s t (.encClk p) = .highZ) ∧
    (unpowered s = false → (∀ r p pos, pinAt s t (.ringTx r p pos) = .zero) ∧ (∀ k, pinAt s t (.emuA k) = .level false ∧ pinAt s t (.emuB k) = .level false) ∧
      (∀ x, pinAt s t (.pps x) = .level false ∧ pinAt s t (.canTx x) = .level true)) ∧
    (unpowered s = true → (∀ r p pos, pinAt s t (.ringTx r p pos) = .highZ) ∧ (∀ k, pinAt s t (.emuA k) = .highZ ∧ pinAt s t (.emuB k) = .highZ) ∧
      (∀ x, pinAt s t (.pps x) = .highZ ∧ pinAt s t (.canTx x) = .highZ))
end

