-- ==== Sys2Proof/Laws/Sparse.lean ====
section
/-!
SUPPORT. Sys2Proof/Laws/Sparse.lean: sparse tables: a read after a write, and every operation keeps the canonical form.
-/
namespace Sys2Proof.Machine

variable {α : Type}

/-- The first index of a table is above `k`, or the table is empty. -/
def sparseAbove (k : Nat) : Sparse α → Bool
  | [] => true
  | (l, _) :: _ => decide (k < l)

theorem sparseSorted_cons (k : Nat) (v : α) (m : Sparse α) :
    sparseSorted ((k, v) :: m) = (sparseAbove k m && sparseSorted m) := by
  cases m with
  | nil => rfl
  | cons e r => obtain ⟨l, w⟩ := e; rfl

theorem sparseAbove_trans {k l : Nat} (h : k < l) (m : Sparse α) (hm : sparseAbove l m = true) : sparseAbove k m = true := by
  cases m with
  | nil => rfl
  | cons e r => simp only [sparseAbove, decide_eq_true_eq] at *; omega

theorem sparsePut_above {k i : Nat} {v : α} {m : Sparse α} (h : k < i) (hm : sparseAbove k m = true) :
    sparseAbove k (sparsePut m i v) = true := by
  cases m with
  | nil => simpa [sparsePut, sparseAbove] using h
  | cons e r =>
    obtain ⟨l, w⟩ := e
    simp only [sparseAbove, decide_eq_true_eq] at hm
    simp only [sparsePut]
    split
    · simpa [sparseAbove] using h
    · split <;> simpa [sparseAbove] using by assumption

theorem sparsePut_sorted (m : Sparse α) (i : Nat) (v : α) (h : sparseSorted m = true) :
    sparseSorted (sparsePut m i v) = true := by
  induction m with
  | nil => rfl
  | cons e r ih =>
    obtain ⟨k, w⟩ := e
    have h' := h
    rw [sparseSorted_cons, Bool.and_eq_true] at h'
    simp only [sparsePut]
    split
    · subst_vars; rw [sparseSorted_cons, Bool.and_eq_true]; exact h'
    · split
      · rw [sparseSorted_cons, Bool.and_eq_true]
        exact ⟨by simpa [sparseAbove] using by assumption, h⟩
      · rw [sparseSorted_cons, Bool.and_eq_true]
        exact ⟨sparsePut_above (by omega) h'.1, ih h'.2⟩

theorem sparseDel_above {k i : Nat} {m : Sparse α} (h : sparseSorted m = true) (hm : sparseAbove k m = true) :
    sparseAbove k (sparseDel m i) = true := by
  induction m with
  | nil => rfl
  | cons e r ih =>
    obtain ⟨l, w⟩ := e
    rw [sparseSorted_cons, Bool.and_eq_true] at h
    have hm' : k < l := by simpa [sparseAbove] using hm
    simp only [sparseDel]
    split
    · exact ih h.2 (sparseAbove_trans hm' r h.1)
    · simpa [sparseAbove] using hm'

theorem sparseDel_sorted (m : Sparse α) (i : Nat) (h : sparseSorted m = true) : sparseSorted (sparseDel m i) = true := by
  induction m with
  | nil => rfl
  | cons e r ih =>
    obtain ⟨k, w⟩ := e
    rw [sparseSorted_cons, Bool.and_eq_true] at h
    simp only [sparseDel]
    split
    · exact ih h.2
    · rw [sparseSorted_cons, Bool.and_eq_true]; exact ⟨sparseDel_above h.2 h.1, ih h.2⟩

theorem sparsePut_all (p : Nat × α → Bool) (m : Sparse α) (i : Nat) (v : α) (hv : p (i, v) = true) (h : m.all p = true) :
    (sparsePut m i v).all p = true := by
  induction m with
  | nil => simp [sparsePut, hv]
  | cons e r ih =>
    obtain ⟨k, w⟩ := e
    simp only [List.all_cons, Bool.and_eq_true] at h
    simp only [sparsePut]
    split
    · simp only [List.all_cons, Bool.and_eq_true]; exact ⟨hv, h.2⟩
    · split
      · simp only [List.all_cons, Bool.and_eq_true]; exact ⟨hv, h.1, h.2⟩
      · simp only [List.all_cons, Bool.and_eq_true]; exact ⟨h.1, ih h.2⟩

theorem sparseDel_all (p : Nat × α → Bool) (m : Sparse α) (i : Nat) (h : m.all p = true) :
    (sparseDel m i).all p = true := by
  induction m with
  | nil => rfl
  | cons e r ih =>
    obtain ⟨k, w⟩ := e
    simp only [List.all_cons, Bool.and_eq_true] at h
    simp only [sparseDel]
    split
    · exact ih h.2
    · simp only [List.all_cons, Bool.and_eq_true]; exact ⟨h.1, ih h.2⟩

/-- A write keeps the canonical form. -/
theorem sparseSet_wf [DecidableEq α] (d : Nat → α) (m : Sparse α) (i : Nat) (v : α) (h : sparseWf d m = true) :
    sparseWf d (sparseSet d m i v) = true := by
  simp only [sparseWf, Bool.and_eq_true] at h ⊢
  unfold sparseSet
  split
  · exact ⟨sparseDel_sorted m i h.1, sparseDel_all _ m i h.2⟩
  · exact ⟨sparsePut_sorted m i v h.1, sparsePut_all _ m i v (by simpa using by assumption) h.2⟩

theorem sparseAbove_filter (p : Nat × α → Bool) (k : Nat) (m : Sparse α) (h : sparseSorted m = true)
    (hk : sparseAbove k m = true) : sparseAbove k (m.filter p) = true := by
  induction m with
  | nil => rfl
  | cons e r ih =>
    obtain ⟨l, w⟩ := e
    rw [sparseSorted_cons, Bool.and_eq_true] at h
    have hk' : k < l := by simpa [sparseAbove] using hk
    rw [List.filter_cons]
    split
    · simpa [sparseAbove] using hk'
    · exact ih h.2 (sparseAbove_trans hk' r h.1)

theorem filter_sorted (p : Nat × α → Bool) (m : Sparse α) (h : sparseSorted m = true) : sparseSorted (m.filter p) = true := by
  induction m with
  | nil => rfl
  | cons e r ih =>
    obtain ⟨k, w⟩ := e
    rw [sparseSorted_cons, Bool.and_eq_true] at h
    rw [List.filter_cons]
    split
    · rw [sparseSorted_cons, Bool.and_eq_true]; exact ⟨sparseAbove_filter p k r h.2 h.1, ih h.2⟩
    · exact ih h.2

/-- Dropping entries keeps the canonical form. -/
theorem sparseDrop_wf [DecidableEq α] (d : Nat → α) (p : Nat → Bool) (m : Sparse α) (h : sparseWf d m = true) :
    sparseWf d (sparseDrop p m) = true := by
  simp only [sparseWf, Bool.and_eq_true, sparseDrop] at h ⊢
  refine ⟨filter_sorted _ m h.1, ?_⟩
  rw [List.all_eq_true] at h ⊢
  intro x hx
  exact h.2 x (List.mem_of_mem_filter hx)

/-- A put is read back. -/
theorem sparseGet_put (d : Nat → α) (m : Sparse α) (i : Nat) (v : α) : sparseGet d (sparsePut m i v) i = v := by
  induction m with
  | nil => simp [sparsePut, sparseGet]
  | cons e r ih =>
    obtain ⟨k, w⟩ := e
    simp only [sparsePut]
    split
    · simp [sparseGet]
    · split
      · simp [sparseGet]
      · simp [sparseGet, *]

/-- A put leaves every other index alone. -/
theorem sparseGet_put_ne (d : Nat → α) (m : Sparse α) (i j : Nat) (v : α) (h : j ≠ i) :
    sparseGet d (sparsePut m i v) j = sparseGet d m j := by
  induction m with
  | nil => simp [sparsePut, sparseGet, h]
  | cons e r ih =>
    obtain ⟨k, w⟩ := e
    simp only [sparsePut]
    split
    · subst_vars; simp [sparseGet, h]
    · split
      · simp [sparseGet, h]
      · simp [sparseGet, ih]

/-- After a removal the default is read. -/
theorem sparseGet_del (d : Nat → α) (m : Sparse α) (i : Nat) : sparseGet d (sparseDel m i) i = d i := by
  induction m with
  | nil => rfl
  | cons e r ih =>
    obtain ⟨k, w⟩ := e
    simp only [sparseDel]
    split
    · exact ih
    · simp [sparseGet, *]

/-- A removal leaves every other index alone. -/
theorem sparseGet_del_ne (d : Nat → α) (m : Sparse α) (i j : Nat) (h : j ≠ i) :
    sparseGet d (sparseDel m i) j = sparseGet d m j := by
  induction m with
  | nil => rfl
  | cons e r ih =>
    obtain ⟨k, w⟩ := e
    simp only [sparseDel]
    split
    · subst_vars; simp [sparseGet, h, ih]
    · simp [sparseGet, ih]

/-- A write is read back. -/
theorem sparseGet_set [DecidableEq α] (d : Nat → α) (m : Sparse α) (i : Nat) (v : α) :
    sparseGet d (sparseSet d m i v) i = v := by
  unfold sparseSet
  split
  · rw [sparseGet_del d m i]; exact Eq.symm (by assumption)
  · exact sparseGet_put d m i v

/-- A write leaves every other index alone. -/
theorem sparseGet_set_ne [DecidableEq α] (d : Nat → α) (m : Sparse α) (i j : Nat) (v : α) (h : j ≠ i) :
    sparseGet d (sparseSet d m i v) j = sparseGet d m j := by
  unfold sparseSet
  split
  · exact sparseGet_del_ne d m i j h
  · exact sparseGet_put_ne d m i j v h

/-- A change is read back. -/
theorem sparseGet_mod [DecidableEq α] (d : Nat → α) (m : Sparse α) (i : Nat) (f : α → α) :
    sparseGet d (sparseMod d m i f) i = f (sparseGet d m i) := sparseGet_set d m i _

/-- A change leaves every other index alone. -/
theorem sparseGet_mod_ne [DecidableEq α] (d : Nat → α) (m : Sparse α) (i j : Nat) (f : α → α) (h : j ≠ i) :
    sparseGet d (sparseMod d m i f) j = sparseGet d m j := sparseGet_set_ne d m i j _ h

/-- After a drop the dropped indexes read the default and the others as before. -/
theorem sparseGet_drop (d : Nat → α) (p : Nat → Bool) (m : Sparse α) (j : Nat) :
    sparseGet d (sparseDrop p m) j = if p j then d j else sparseGet d m j := by
  induction m with
  | nil => simp [sparseDrop, sparseGet]
  | cons e r ih =>
    obtain ⟨k, w⟩ := e
    unfold sparseDrop at ih ⊢
    rw [List.filter_cons]
    by_cases hk : p k = true
    · simp only [hk, Bool.not_true, Bool.false_eq_true, if_false]
      rw [ih]
      by_cases hjk : j = k
      · subst hjk; simp [hk]
      · simp [sparseGet, hjk]
    · have hk' : p k = false := by simpa using hk
      simp only [hk', Bool.not_false, if_true]
      by_cases hjk : j = k
      · subst hjk; simp [sparseGet, hk']
      · simp only [sparseGet, hjk, if_false]; exact ih

theorem sparseWf_sorted [DecidableEq α] {d : Nat → α} {m : Sparse α} (h : sparseWf d m = true) : sparseSorted m = true := by
  simp only [sparseWf, Bool.and_eq_true] at h
  exact h.1

/-- The empty table is canonical. -/
theorem sparseWf_nil [DecidableEq α] (d : Nat → α) : sparseWf d ([] : Sparse α) = true := rfl

end Sys2Proof.Machine
end

