-- ==== Sys2Proof/Laws/Keeps.lean ====
section
/-!
SUPPORT. Sys2Proof/Laws/Keeps.lean: what the operations of the block leave alone. `Keeps R s t` says that from `s` to `t` the
command queue stands, free values are only taken, canonical registers and tables stay so, and every part of the state outside
`R` is as it was. For an operation `f` the lemma `f_keeps` says this of `f`, with the parts that `f` can reach.
-/
namespace Sys2Proof.Machine

/-- From `s` to `t` the queue stands, free values are only taken, registers and tables stay canonical, and the parts outside `R` stand. -/
structure Keeps (R : Part → Prop) (s t : State) : Prop where
  pending : t.pending = s.pending
  free : s.free ≤ t.free
  regs : sparseWf regReset s.regs = true → sparseWf regReset t.regs = true
  tables : sparseWf zeroEntry s.tables = true → sparseWf zeroEntry t.tables = true
  same : ∀ p, ¬ R p → samePart s t p

/-- The parts of a list may change. -/
def Allows (R : Part → Prop) (l : List Part) : Prop := ∀ p ∈ l, R p

/-- For an operation that answers a state and a value. -/
def PKeeps {α : Type} (R : Part → Prop) (b : State) (p : State × α) : Prop := Keeps R b p.1

/-- For the reply of a command. -/
def RKeeps (R : Part → Prop) (b : State) (r : Reply) : Prop := Keeps R b r.s

/-- For a command's reply and what it waits for. -/
def CKeeps (R : Part → Prop) (b : State) (c : CmdOut) : Prop := RKeeps R b c.r

/-- For a meaning: its next state, where it answers one. -/
def OKeeps (R : Part → Prop) (b : State) (o : Host.Outcome State Fault Refusal) : Prop := ∀ t, o = .next t → Keeps R b t

variable {R : Part → Prop} {b s t : State}

theorem Allows.sub {l m : List Part} (h : Allows R l) (k : ∀ p ∈ m, p ∈ l) : Allows R m := fun p hp => h p (k p hp)

theorem samePart_refl (s : State) (p : Part) : samePart s s p := by cases p <;> rfl

theorem Keeps.refl (R : Part → Prop) (s : State) : Keeps R s s := ⟨rfl, Nat.le_refl _, id, id, fun p _ => samePart_refl s p⟩

/-- A state that differs in parts that may change only. -/
theorem Keeps.of (h : Keeps R b s) (hp : t.pending = s.pending) (hf : s.free ≤ t.free)
    (hr : sparseWf regReset s.regs = true → sparseWf regReset t.regs = true)
    (ht : sparseWf zeroEntry s.tables = true → sparseWf zeroEntry t.tables = true)
    (hs : ∀ p, ¬ R p → samePart s t p) : Keeps R b t := by
  refine ⟨hp.trans h.pending, Nat.le_trans h.free hf, fun k => hr (h.regs k), fun k => ht (h.tables k), fun p k => ?_⟩
  have x := h.same p k
  have y := hs p k
  cases p <;> exact Eq.trans y x

theorem Keeps.put_kin {x} (hr : R .kin) (h : Keeps R b s) :
    Keeps R b ⟨s.regs, s.tables, x, s.sys, s.boot, s.mon, s.hif, s.recd, s.sch, s.map, s.act, s.drv, s.fjl, s.pwm, s.cle, s.enc,
    s.gns, s.tim, s.eth, s.can, s.now, s.free, s.pending⟩ :=
  h.of rfl (Nat.le_refl _) id id fun p k => by cases p <;> first | rfl | exact absurd hr k

theorem Keeps.put_sys {x} (hr : R .sys) (h : Keeps R b s) :
    Keeps R b ⟨s.regs, s.tables, s.kin, x, s.boot, s.mon, s.hif, s.recd, s.sch, s.map, s.act, s.drv, s.fjl, s.pwm, s.cle, s.enc,
    s.gns, s.tim, s.eth, s.can, s.now, s.free, s.pending⟩ :=
  h.of rfl (Nat.le_refl _) id id fun p k => by cases p <;> first | rfl | exact absurd hr k

theorem Keeps.put_boot {x} (hr : R .boot) (h : Keeps R b s) :
    Keeps R b ⟨s.regs, s.tables, s.kin, s.sys, x, s.mon, s.hif, s.recd, s.sch, s.map, s.act, s.drv, s.fjl, s.pwm, s.cle, s.enc,
    s.gns, s.tim, s.eth, s.can, s.now, s.free, s.pending⟩ :=
  h.of rfl (Nat.le_refl _) id id fun p k => by cases p <;> first | rfl | exact absurd hr k

theorem Keeps.put_mon {x} (hr : R .mon) (h : Keeps R b s) :
    Keeps R b ⟨s.regs, s.tables, s.kin, s.sys, s.boot, x, s.hif, s.recd, s.sch, s.map, s.act, s.drv, s.fjl, s.pwm, s.cle, s.enc,
    s.gns, s.tim, s.eth, s.can, s.now, s.free, s.pending⟩ :=
  h.of rfl (Nat.le_refl _) id id fun p k => by cases p <;> first | rfl | exact absurd hr k

theorem Keeps.put_hif {x} (hr : R .hif) (h : Keeps R b s) :
    Keeps R b ⟨s.regs, s.tables, s.kin, s.sys, s.boot, s.mon, x, s.recd, s.sch, s.map, s.act, s.drv, s.fjl, s.pwm, s.cle, s.enc,
    s.gns, s.tim, s.eth, s.can, s.now, s.free, s.pending⟩ :=
  h.of rfl (Nat.le_refl _) id id fun p k => by cases p <;> first | rfl | exact absurd hr k

theorem Keeps.put_recd {x} (hr : R .recd) (h : Keeps R b s) :
    Keeps R b ⟨s.regs, s.tables, s.kin, s.sys, s.boot, s.mon, s.hif, x, s.sch, s.map, s.act, s.drv, s.fjl, s.pwm, s.cle, s.enc,
    s.gns, s.tim, s.eth, s.can, s.now, s.free, s.pending⟩ :=
  h.of rfl (Nat.le_refl _) id id fun p k => by cases p <;> first | rfl | exact absurd hr k

theorem Keeps.put_sch {x} (hr : R .sch) (h : Keeps R b s) :
    Keeps R b ⟨s.regs, s.tables, s.kin, s.sys, s.boot, s.mon, s.hif, s.recd, x, s.map, s.act, s.drv, s.fjl, s.pwm, s.cle, s.enc,
    s.gns, s.tim, s.eth, s.can, s.now, s.free, s.pending⟩ :=
  h.of rfl (Nat.le_refl _) id id fun p k => by cases p <;> first | rfl | exact absurd hr k

theorem Keeps.put_map {x} (hr : R .map) (h : Keeps R b s) :
    Keeps R b ⟨s.regs, s.tables, s.kin, s.sys, s.boot, s.mon, s.hif, s.recd, s.sch, x, s.act, s.drv, s.fjl, s.pwm, s.cle, s.enc,
    s.gns, s.tim, s.eth, s.can, s.now, s.free, s.pending⟩ :=
  h.of rfl (Nat.le_refl _) id id fun p k => by cases p <;> first | rfl | exact absurd hr k

theorem Keeps.put_act {x} (hr : R .act) (h : Keeps R b s) :
    Keeps R b ⟨s.regs, s.tables, s.kin, s.sys, s.boot, s.mon, s.hif, s.recd, s.sch, s.map, x, s.drv, s.fjl, s.pwm, s.cle, s.enc,
    s.gns, s.tim, s.eth, s.can, s.now, s.free, s.pending⟩ :=
  h.of rfl (Nat.le_refl _) id id fun p k => by cases p <;> first | rfl | exact absurd hr k

theorem Keeps.put_drv {x} (hr : R .drv) (h : Keeps R b s) :
    Keeps R b ⟨s.regs, s.tables, s.kin, s.sys, s.boot, s.mon, s.hif, s.recd, s.sch, s.map, s.act, x, s.fjl, s.pwm, s.cle, s.enc,
    s.gns, s.tim, s.eth, s.can, s.now, s.free, s.pending⟩ :=
  h.of rfl (Nat.le_refl _) id id fun p k => by cases p <;> first | rfl | exact absurd hr k

theorem Keeps.put_fjl {x} (hr : R .fjl) (h : Keeps R b s) :
    Keeps R b ⟨s.regs, s.tables, s.kin, s.sys, s.boot, s.mon, s.hif, s.recd, s.sch, s.map, s.act, s.drv, x, s.pwm, s.cle, s.enc,
    s.gns, s.tim, s.eth, s.can, s.now, s.free, s.pending⟩ :=
  h.of rfl (Nat.le_refl _) id id fun p k => by cases p <;> first | rfl | exact absurd hr k

theorem Keeps.put_pwm {x} (hr : R .pwm) (h : Keeps R b s) :
    Keeps R b ⟨s.regs, s.tables, s.kin, s.sys, s.boot, s.mon, s.hif, s.recd, s.sch, s.map, s.act, s.drv, s.fjl, x, s.cle, s.enc,
    s.gns, s.tim, s.eth, s.can, s.now, s.free, s.pending⟩ :=
  h.of rfl (Nat.le_refl _) id id fun p k => by cases p <;> first | rfl | exact absurd hr k

theorem Keeps.put_cle {x} (hr : R .cle) (h : Keeps R b s) :
    Keeps R b ⟨s.regs, s.tables, s.kin, s.sys, s.boot, s.mon, s.hif, s.recd, s.sch, s.map, s.act, s.drv, s.fjl, s.pwm, x, s.enc,
    s.gns, s.tim, s.eth, s.can, s.now, s.free, s.pending⟩ :=
  h.of rfl (Nat.le_refl _) id id fun p k => by cases p <;> first | rfl | exact absurd hr k

theorem Keeps.put_enc {x} (hr : R .enc) (h : Keeps R b s) :
    Keeps R b ⟨s.regs, s.tables, s.kin, s.sys, s.boot, s.mon, s.hif, s.recd, s.sch, s.map, s.act, s.drv, s.fjl, s.pwm, s.cle, x,
    s.gns, s.tim, s.eth, s.can, s.now, s.free, s.pending⟩ :=
  h.of rfl (Nat.le_refl _) id id fun p k => by cases p <;> first | rfl | exact absurd hr k

theorem Keeps.put_gns {x} (hr : R .gns) (h : Keeps R b s) :
    Keeps R b ⟨s.regs, s.tables, s.kin, s.sys, s.boot, s.mon, s.hif, s.recd, s.sch, s.map, s.act, s.drv, s.fjl, s.pwm, s.cle,
    s.enc, x, s.tim, s.eth, s.can, s.now, s.free, s.pending⟩ :=
  h.of rfl (Nat.le_refl _) id id fun p k => by cases p <;> first | rfl | exact absurd hr k

theorem Keeps.put_tim {x} (hr : R .tim) (h : Keeps R b s) :
    Keeps R b ⟨s.regs, s.tables, s.kin, s.sys, s.boot, s.mon, s.hif, s.recd, s.sch, s.map, s.act, s.drv, s.fjl, s.pwm, s.cle,
    s.enc, s.gns, x, s.eth, s.can, s.now, s.free, s.pending⟩ :=
  h.of rfl (Nat.le_refl _) id id fun p k => by cases p <;> first | rfl | exact absurd hr k

theorem Keeps.put_eth {x} (hr : R .eth) (h : Keeps R b s) :
    Keeps R b ⟨s.regs, s.tables, s.kin, s.sys, s.boot, s.mon, s.hif, s.recd, s.sch, s.map, s.act, s.drv, s.fjl, s.pwm, s.cle,
    s.enc, s.gns, s.tim, x, s.can, s.now, s.free, s.pending⟩ :=
  h.of rfl (Nat.le_refl _) id id fun p k => by cases p <;> first | rfl | exact absurd hr k

theorem Keeps.put_can {x} (hr : R .can) (h : Keeps R b s) :
    Keeps R b ⟨s.regs, s.tables, s.kin, s.sys, s.boot, s.mon, s.hif, s.recd, s.sch, s.map, s.act, s.drv, s.fjl, s.pwm, s.cle,
    s.enc, s.gns, s.tim, s.eth, x, s.now, s.free, s.pending⟩ :=
  h.of rfl (Nat.le_refl _) id id fun p k => by cases p <;> first | rfl | exact absurd hr k

theorem Keeps.put_now {x} (hr : R .now) (h : Keeps R b s) :
    Keeps R b ⟨s.regs, s.tables, s.kin, s.sys, s.boot, s.mon, s.hif, s.recd, s.sch, s.map, s.act, s.drv, s.fjl, s.pwm, s.cle,
    s.enc, s.gns, s.tim, s.eth, s.can, x, s.free, s.pending⟩ :=
  h.of rfl (Nat.le_refl _) id id fun p k => by cases p <;> first | rfl | exact absurd hr k

theorem Keeps.put {x_kin x_sys x_boot x_mon x_hif x_recd x_sch x_map x_act x_drv x_fjl x_pwm x_cle x_enc x_gns x_tim x_eth x_can x_now}
    (h : Keeps R b s)
    (h_kin : R .kin ∨ x_kin = s.kin) (h_sys : R .sys ∨ x_sys = s.sys) (h_boot : R .boot ∨ x_boot = s.boot) (h_mon : R .mon ∨
    x_mon = s.mon) (h_hif : R .hif ∨ x_hif = s.hif) (h_recd : R .recd ∨ x_recd = s.recd) (h_sch : R .sch ∨ x_sch = s.sch) (h_map
    : R .map ∨ x_map = s.map) (h_act : R .act ∨ x_act = s.act) (h_drv : R .drv ∨ x_drv = s.drv) (h_fjl : R .fjl ∨ x_fjl = s.fjl)
    (h_pwm : R .pwm ∨ x_pwm = s.pwm) (h_cle : R .cle ∨ x_cle = s.cle) (h_enc : R .enc ∨ x_enc = s.enc) (h_gns : R .gns ∨ x_gns =
    s.gns) (h_tim : R .tim ∨ x_tim = s.tim) (h_eth : R .eth ∨ x_eth = s.eth) (h_can : R .can ∨ x_can = s.can) (h_now : R .now ∨
    x_now = s.now) :
    Keeps R b ⟨s.regs, s.tables, x_kin, x_sys, x_boot, x_mon, x_hif, x_recd, x_sch, x_map, x_act, x_drv, x_fjl, x_pwm, x_cle,
    x_enc, x_gns, x_tim, x_eth, x_can, x_now, s.free, s.pending⟩ :=
  h.of rfl (Nat.le_refl _) id id fun p k => by
    cases p <;> first | rfl | (exact Or.elim (by assumption) (absurd · k) id)

theorem Keeps.noTables {x_kin x_sys x_boot x_mon x_hif x_recd x_sch x_map x_act x_drv x_fjl x_pwm x_cle x_enc x_gns x_tim x_eth x_can x_now}
    (hr : R .tables) (h : Keeps R b s)
    (h_kin : R .kin ∨ x_kin = s.kin) (h_sys : R .sys ∨ x_sys = s.sys) (h_boot : R .boot ∨ x_boot = s.boot) (h_mon : R .mon ∨
    x_mon = s.mon) (h_hif : R .hif ∨ x_hif = s.hif) (h_recd : R .recd ∨ x_recd = s.recd) (h_sch : R .sch ∨ x_sch = s.sch) (h_map
    : R .map ∨ x_map = s.map) (h_act : R .act ∨ x_act = s.act) (h_drv : R .drv ∨ x_drv = s.drv) (h_fjl : R .fjl ∨ x_fjl = s.fjl)
    (h_pwm : R .pwm ∨ x_pwm = s.pwm) (h_cle : R .cle ∨ x_cle = s.cle) (h_enc : R .enc ∨ x_enc = s.enc) (h_gns : R .gns ∨ x_gns =
    s.gns) (h_tim : R .tim ∨ x_tim = s.tim) (h_eth : R .eth ∨ x_eth = s.eth) (h_can : R .can ∨ x_can = s.can) (h_now : R .now ∨
    x_now = s.now) :
    Keeps R b ⟨s.regs, [], x_kin, x_sys, x_boot, x_mon, x_hif, x_recd, x_sch, x_map, x_act, x_drv, x_fjl, x_pwm, x_cle, x_enc,
    x_gns, x_tim, x_eth, x_can, x_now, s.free, s.pending⟩ :=
  h.of rfl (Nat.le_refl _) id (fun _ => sparseWf_nil _) fun p k => by
    cases p <;> first | rfl | exact absurd hr k | (exact Or.elim (by assumption) (absurd · k) id)

theorem Keeps.ite {c : Prop} [Decidable c] (h : Keeps R b s) (k : Keeps R b t) : Keeps R b (if c then s else t) := by
  split <;> assumption

theorem Keeps.foldl {α : Type} {f : State → α → State} (hf : ∀ t, Keeps R b t → ∀ x, Keeps R b (f t x)) {l : List α} {s : State}
    (h : Keeps R b s) : Keeps R b (l.foldl f s) := by
  induction l generalizing s with
  | nil => exact h
  | cons x r ih => exact ih (hf s h x)

theorem PKeeps.mk {α : Type} {x : α} (h : Keeps R b s) : PKeeps R b (s, x) := h

theorem PKeeps.fst {α : Type} {p : State × α} (h : PKeeps R b p) : Keeps R b p.1 := h

theorem PKeeps.of_eq {α : Type} {x : α} {p : State × α} (e : p = (t, x)) (h : PKeeps R b p) : Keeps R b t := by
  subst e; exact h

theorem PKeeps.foldl {α β : Type} {f : State × β → α → State × β} (hf : ∀ t, PKeeps R b t → ∀ x, PKeeps R b (f t x))
    {l : List α} {s : State × β} (h : PKeeps R b s) : PKeeps R b (l.foldl f s) := by
  induction l generalizing s with
  | nil => exact h
  | cons x r ih => exact ih (hf s h x)

theorem RKeeps.mk {st : Nat} {l : List Byte} (h : Keeps R b s) : RKeeps R b ⟨s, st, l⟩ := h

theorem RKeeps.state {r : Reply} (h : RKeeps R b r) : Keeps R b r.s := h

theorem CKeeps.mk {r : Reply} {w : Option Nat} {q : Bool} (h : RKeeps R b r) : CKeeps R b ⟨r, w, q⟩ := h

theorem CKeeps.r {c : CmdOut} (h : CKeeps R b c) : RKeeps R b c.r := h

theorem OKeeps.answer {ok : Bool} (h : Keeps R b s) : OKeeps R b (answer ok s) := by
  intro t e
  unfold Machine.answer at e
  split at e
  · cases e; exact h
  · cases e

theorem OKeeps.next (h : Keeps R b s) : OKeeps R b (.next s) := by
  intro t e
  cases e; exact h

theorem wr_keeps (s : State) (i : Nat) (v : Word) (h_r : Allows R [.regs]) (h : Keeps R b s) : Keeps R b (wr s i v) :=
  h.of rfl (Nat.le_refl _) (sparseSet_wf _ _ _ _) id fun p k => by
    cases p <;> first | rfl | exact absurd (h_r _ (List.mem_singleton.2 rfl)) k

theorem resetRegs_keeps (s : State) (p : Nat → Bool) (h_r : Allows R [.regs]) (h : Keeps R b s) : Keeps R b (resetRegs s p) :=
  h.of rfl (Nat.le_refl _) (sparseDrop_wf _ _ _) id fun p k => by
    cases p <;> first | rfl | exact absurd (h_r _ (List.mem_singleton.2 rfl)) k

theorem fresh_keeps (s : State) (h_r : Allows R [.free]) (h : Keeps R b s) : Keeps R b (fresh s).2 :=
  h.of rfl (Nat.le_succ _) id id fun p k => by
    cases p <;> first | rfl | exact absurd (h_r _ (List.mem_singleton.2 rfl)) k

theorem fresh_keeps_eq {n : Nat} (e : fresh s = (n, t)) (h_r : Allows R [.free]) (h : Keeps R b s) : Keeps R b t := by
  have k := fresh_keeps s h_r h
  rwa [e] at k

theorem tput_keeps (s : State) (t : TableId) (n : Nat) (l : List Byte) (h_r : Allows R [.tables]) (h : Keeps R b s) :
    Keeps R b (tput s t n l) :=
  h.of rfl (Nat.le_refl _) id (sparseSet_wf _ _ _ _) fun p k => by
    cases p <;> first | rfl | exact absurd (h_r _ (List.mem_singleton.2 rfl)) k

theorem tclear_keeps (s : State) (t : TableId) (h_r : Allows R [.tables]) (h : Keeps R b s) : Keeps R b (tclear s t) :=
  h.of rfl (Nat.le_refl _) id (fun k => by
    simp only [tclear]; exact sparseDrop_wf _ _ _ k) fun p k => by
    cases p <;> first | rfl | exact absurd (h_r _ (List.mem_singleton.2 rfl)) k

end Sys2Proof.Machine
end

