-- ==== Sys2Proof/Laws/KeepsOps.lean ====
section
/-!
SUPPORT. Sys2Proof/Laws/KeepsOps.lean: the operations of Machine/Ops.lean keep what `Keeps` names.
-/
namespace Sys2Proof.Machine

theorem setF_keeps {R : Part → Prop} {b₀ : State} (s : State) (f : Field) (v : Nat) (h_R : Allows R [.regs]) (h_s : Keeps R b₀ s) : Keeps R b₀ (setF s f v) := by
  unfold setF
  repeat' first
    | with_reducible assumption
    | with_reducible apply wr_keeps

theorem setB_keeps {R : Part → Prop} {b₀ : State} (s : State) (f : Field) (b : Bool) (h_R : Allows R [.regs]) (h_s : Keeps R b₀ s) : Keeps R b₀ (setB s f b) := by
  unfold setB
  repeat' first
    | with_reducible assumption
    | with_reducible apply setF_keeps

theorem setI_keeps {R : Part → Prop} {b₀ : State} (s : State) (f : Field) (v : Int) (h_R : Allows R [.regs]) (h_s : Keeps R b₀ s) : Keeps R b₀ (setI s f v) := by
  unfold setI
  repeat' first
    | with_reducible assumption
    | with_reducible apply setF_keeps

theorem bump_keeps {R : Part → Prop} {b₀ : State} (s : State) (f : Field) (n : Nat) (h_R : Allows R [.regs]) (h_s : Keeps R b₀ s) : Keeps R b₀ (bump s f n) := by
  unfold bump
  repeat' first
    | with_reducible assumption
    | with_reducible apply setF_keeps

theorem commitReg_keeps {R : Part → Prop} {b₀ : State} (s : State) (i : Nat) (v : Word) (h_R : Allows R [.regs]) (h_s : Keeps R b₀ s) : Keeps R b₀ (commitReg s i v) := by
  unfold commitReg
  repeat' first
    | with_reducible assumption
    | with_reducible apply wr_keeps
    | with_reducible apply Keeps.ite
    | extract_lets
    | split

theorem wrPair_keeps {R : Part → Prop} {b₀ : State} (s : State) (lo hi : Nat) (v : Nat) (h_R : Allows R [.regs]) (h_s : Keeps R b₀ s) : Keeps R b₀ (wrPair s lo hi v) := by
  unfold wrPair
  repeat' first
    | with_reducible assumption
    | with_reducible apply wr_keeps

theorem recTake_keeps {R : Part → Prop} {b₀ : State} (s : State) (h_R : Allows R [.regs, .recd]) (h_s : Keeps R b₀ s) : Keeps R b₀ (recTake s) := by
  unfold recTake
  have r_recd : R .recd := h_R _ (by decide)
  repeat' first
    | with_reducible assumption
    | (refine Allows.sub h_R ?_; decide)
    | with_reducible apply bump_keeps
    | with_reducible apply Keeps.ite
    | extract_lets
    | fail_if_no_progress (with_reducible refine Keeps.put_recd r_recd ?_)
    | split

theorem record_keeps {R : Part → Prop} {b₀ : State} (s : State) (code inst : Nat) (val : List Byte) (h_R : Allows R [.regs, .recd]) (h_s : Keeps R b₀ s) : Keeps R b₀ (record s code inst val) := by
  unfold record
  have r_recd : R .recd := h_R _ (by decide)
  repeat' first
    | with_reducible assumption
    | (refine Allows.sub h_R ?_; decide)
    | with_reducible apply recTake_keeps
    | with_reducible apply bump_keeps
    | with_reducible apply Keeps.ite
    | extract_lets
    | fail_if_no_progress (with_reducible refine Keeps.put_recd r_recd ?_)

theorem modSlot_keeps {R : Part → Prop} {b₀ : State} (s : State) (h : Nat) (f : HostSlot → HostSlot) (h_R : Allows R [.hif]) (h_s : Keeps R b₀ s) : Keeps R b₀ (modSlot s h f) := by
  unfold modSlot
  have r_hif : R .hif := h_R _ (by decide)
  repeat' first
    | with_reducible assumption
    | with_reducible apply Keeps.ite
    | extract_lets
    | fail_if_no_progress (with_reducible refine Keeps.put_hif r_hif ?_)

theorem roomFor_keeps {R : Part → Prop} {b₀ : State} (s : State) (h need : Nat) (h_R : Allows R [.hif]) (h_s : Keeps R b₀ s) : Keeps R b₀ (roomFor s h need) := by
  unfold roomFor
  repeat' first
    | with_reducible assumption
    | with_reducible apply modSlot_keeps
    | with_reducible apply Keeps.ite

theorem sendResults_keeps {R : Part → Prop} {b₀ : State} (s : State) (h port : Nat) (l : List Result) (h_R : Allows R [.hif]) (h_s : Keeps R b₀ s) : Keeps R b₀ (sendResults s h port l) := by
  unfold sendResults
  have r_hif : R .hif := h_R _ (by decide)
  repeat' first
    | with_reducible assumption
    | with_reducible apply Keeps.ite
    | extract_lets
    | fail_if_no_progress (with_reducible refine Keeps.put_hif r_hif ?_)

theorem postFrame_keeps {R : Part → Prop} {b₀ : State} (s : State) (h code status htag : Nat) (step : Word) (payload : List Byte) (h_R : Allows R [.hif]) (h_s : Keeps R b₀ s) : Keeps R b₀ (postFrame s h code status htag step payload) := by
  unfold postFrame
  repeat' first
    | with_reducible assumption
    | with_reducible apply sendResults_keeps
    | with_reducible apply roomFor_keeps
    | with_reducible apply modSlot_keeps
    | with_reducible apply Keeps.ite

theorem postResult_keeps {R : Part → Prop} {b₀ : State} (s : State) (h code status htag : Nat) (step : Word) (body : List Byte) (h_R : Allows R [.regs, .hif]) (h_s : Keeps R b₀ s) : Keeps R b₀ (postResult s h code status htag step body) := by
  unfold postResult
  repeat' first
    | with_reducible assumption
    | (refine Allows.sub h_R ?_; decide)
    | with_reducible apply postFrame_keeps
    | with_reducible apply bump_keeps
    | with_reducible apply Keeps.ite

theorem postReady_keeps {R : Part → Prop} {b₀ : State} (n : Nat) (s : State) (h : Nat) (h_R : Allows R [.regs, .hif]) (h_s : Keeps R b₀ s) : Keeps R b₀ (postReady n s h) := by
  induction n generalizing s with
  | zero => exact h_s
  | succ n ih =>
    unfold postReady
    repeat' first
      | (refine Allows.sub h_R ?_; decide)
      | with_reducible assumption
      | with_reducible apply ih
      | with_reducible apply postResult_keeps
      | with_reducible apply modSlot_keeps
      | split

theorem postDeferred_keeps {R : Part → Prop} {b₀ : State} (s : State) (w : Nat) (h_R : Allows R [.regs, .hif]) (h_s : Keeps R b₀ s) : Keeps R b₀ (postDeferred s w) := by
  unfold postDeferred
  repeat' first
    | with_reducible assumption
    | (refine Allows.sub h_R ?_; decide)
    | with_reducible apply postReady_keeps
    | with_reducible apply modSlot_keeps
    | with_reducible apply Keeps.foldl
    | intro _ _ _

theorem payOwed_keeps {R : Part → Prop} {b₀ : State} (n : Nat) (s : State) (h : Nat) (h_R : Allows R [.hif]) (h_s : Keeps R b₀ s) : Keeps R b₀ (payOwed n s h) := by
  induction n generalizing s with
  | zero => exact h_s
  | succ n ih =>
    unfold payOwed
    split
    · exact h_s
    · split
      · exact ih _ (modSlot_keeps _ _ _ (h_R.sub (by decide)) (postFrame_keeps _ _ _ _ _ _ _ (h_R.sub (by decide)) h_s))
      · exact h_s

theorem notify_keeps {R : Part → Prop} {b₀ : State} (s : State) (h : Nat) (payload : List Byte) (h_R : Allows R [.regs, .hif]) (h_s : Keeps R b₀ s) : Keeps R b₀ (notify s h payload) := by
  unfold notify
  repeat' first
    | with_reducible assumption
    | (refine Allows.sub h_R ?_; decide)
    | with_reducible apply postFrame_keeps
    | with_reducible apply bump_keeps
    | with_reducible apply Keeps.ite

theorem notifyLost_keeps {R : Part → Prop} {b₀ : State} (s : State) (h : Nat) (payload : List Byte) (h_R : Allows R [.hif]) (h_s : Keeps R b₀ s) : Keeps R b₀ (notifyLost s h payload) := by
  unfold notifyLost
  repeat' first
    | with_reducible assumption
    | with_reducible apply payOwed_keeps
    | with_reducible apply modSlot_keeps

theorem raiseIrq_keeps {R : Part → Prop} {b₀ : State} (s : State) (f en : Field) (nb : Nat) (h_R : Allows R [.regs, .hif]) (h_s : Keeps R b₀ s) : Keeps R b₀ (raiseIrq s f en nb) := by
  unfold raiseIrq
  repeat' first
    | with_reducible assumption
    | (refine Allows.sub h_R ?_; decide)
    | with_reducible apply notify_keeps
    | with_reducible apply setF_keeps
    | with_reducible apply Keeps.foldl
    | intro _ _ _
    | with_reducible apply Keeps.ite

theorem setHolder_keeps {R : Part → Prop} {b₀ : State} (s : State) (kind n : Nat) (h : Option Nat) (h_R : Allows R [.regs]) (h_s : Keeps R b₀ s) : Keeps R b₀ (setHolder s kind n h) := by
  unfold setHolder
  repeat' first
    | with_reducible assumption
    | with_reducible apply wr_keeps
    | with_reducible apply Keeps.ite

end Sys2Proof.Machine
end

