-- ==== Sys2Proof/Laws/KeepsTables.lean ====
section
/-!
SUPPORT. Sys2Proof/Laws/KeepsTables.lean: the operations of Machine/Tables.lean keep what `Keeps` names.
-/
namespace Sys2Proof.Machine

theorem tsetNat_keeps {R : Part → Prop} {b₀ : State} (s : State) (t : TableId) (n off len v : Nat) (h_R : Allows R [.tables]) (h_s : Keeps R b₀ s) : Keeps R b₀ (tsetNat s t n off len v) := by
  unfold tsetNat
  repeat' first
    | with_reducible assumption
    | with_reducible apply tput_keeps

end Sys2Proof.Machine
end

