-- ==== Sys2Proof/Laws/KeepsKin.lean ====
section
/-!
SUPPORT. Sys2Proof/Laws/KeepsKin.lean: the operations of Machine/Kin.lean keep what `Keeps` names.
-/
namespace Sys2Proof.Machine

theorem latchLimit_keeps {R : Part → Prop} {b₀ : State} (s : State) (c : Nat) (h_R : Allows R [.kin]) (h_s : Keeps R b₀ s) : Keeps R b₀ (latchLimit s c) := by
  unfold latchLimit
  have r_kin : R .kin := h_R _ (by decide)
  repeat' first
    | with_reducible assumption
    | with_reducible apply Keeps.ite
    | extract_lets
    | fail_if_no_progress (with_reducible refine Keeps.put_kin r_kin ?_)

theorem setValidity_keeps {R : Part → Prop} {b₀ : State} (s : State) (c : Nat) (h_R : Allows R [.regs]) (h_s : Keeps R b₀ s) : Keeps R b₀ (setValidity s c) := by
  unfold setValidity
  repeat' first
    | with_reducible assumption
    | with_reducible apply setB_keeps
    | with_reducible apply setF_keeps

theorem capture_keeps {R : Part → Prop} {b₀ : State} (s : State) (o : Blend) (h_R : Allows R [.regs, .kin]) (h_s : Keeps R b₀ s) : Keeps R b₀ (capture s o) := by
  unfold capture
  have r_kin : R .kin := h_R _ (by decide)
  repeat' first
    | with_reducible assumption
    | (refine Allows.sub h_R ?_; decide)
    | with_reducible apply setB_keeps
    | with_reducible apply Keeps.ite
    | extract_lets
    | fail_if_no_progress (with_reducible refine Keeps.put_kin r_kin ?_)

theorem countHandOver_keeps {R : Part → Prop} {b₀ : State} (s : State) (h_R : Allows R [.regs]) (h_s : Keeps R b₀ s) : Keeps R b₀ (countHandOver s) := by
  unfold countHandOver
  repeat' first
    | with_reducible assumption
    | with_reducible apply bump_keeps

theorem shiftMarks_keeps {R : Part → Prop} {b₀ : State} (s : State) (dE dN dP : Int) (h_R : Allows R [.kin]) (h_s : Keeps R b₀ s) : Keeps R b₀ (shiftMarks s dE dN dP) := by
  unfold shiftMarks
  have r_kin : R .kin := h_R _ (by decide)
  repeat' first
    | with_reducible assumption
    | with_reducible apply Keeps.ite
    | extract_lets
    | fail_if_no_progress (with_reducible refine Keeps.put_kin r_kin ?_)

theorem learnWheels_keeps {R : Part → Prop} {b₀ : State} (s : State) (x : KinSol) (speed : Int) (h_R : Allows R [.regs, .kin, .recd]) (h_s : Keeps R b₀ s) : Keeps R b₀ (learnWheels s x speed) := by
  unfold learnWheels
  have r_kin : R .kin := h_R _ (by decide)
  repeat' first
    | with_reducible assumption
    | (refine Allows.sub h_R ?_; decide)
    | with_reducible apply record_keeps
    | with_reducible apply setF_keeps
    | with_reducible apply wr_keeps
    | with_reducible apply Keeps.foldl
    | intro _ _ _
    | with_reducible apply Keeps.ite
    | extract_lets
    | fail_if_no_progress (with_reducible refine Keeps.put_kin r_kin ?_)
    | split
    | intro _
    | fail_if_no_progress beta_reduce
    | dsimp +zetaDelta only

theorem reversal_keeps {R : Part → Prop} {b₀ : State} (s : State) (x : KinSol) (h_R : Allows R [.kin]) (h_s : Keeps R b₀ s) : Keeps R b₀ (reversal s x) := by
  unfold reversal
  have r_kin : R .kin := h_R _ (by decide)
  repeat' first
    | with_reducible assumption
    | with_reducible apply shiftMarks_keeps
    | with_reducible apply Keeps.ite
    | extract_lets
    | fail_if_no_progress (with_reducible refine Keeps.put_kin r_kin ?_)

theorem takeVelocity_keeps {R : Part → Prop} {b₀ : State} (s : State) (x : KinSol) (h_R : Allows R [.kin]) (h_s : Keeps R b₀ s) : Keeps R b₀ (takeVelocity s x) := by
  unfold takeVelocity
  have r_kin : R .kin := h_R _ (by decide)
  repeat' first
    | with_reducible assumption
    | with_reducible apply Keeps.ite
    | extract_lets
    | fail_if_no_progress (with_reducible refine Keeps.put_kin r_kin ?_)

theorem jumpNow_keeps {R : Part → Prop} {b₀ : State} (s : State) (d : Int × Int × Int) (h_R : Allows R [.regs, .kin]) (h_s : Keeps R b₀ s) : Keeps R b₀ (jumpNow s d) := by
  unfold jumpNow
  have r_kin : R .kin := h_R _ (by decide)
  repeat' first
    | with_reducible assumption
    | (refine Allows.sub h_R ?_; decide)
    | with_reducible apply shiftMarks_keeps
    | with_reducible apply countHandOver_keeps
    | with_reducible apply capture_keeps
    | with_reducible apply Keeps.ite
    | extract_lets
    | fail_if_no_progress (with_reducible refine Keeps.put_kin r_kin ?_)

theorem jumpBlended_keeps {R : Part → Prop} {b₀ : State} (s : State) (d : Int × Int × Int) (h_R : Allows R [.regs, .kin]) (h_s : Keeps R b₀ s) : Keeps R b₀ (jumpBlended s d) := by
  unfold jumpBlended
  have r_kin : R .kin := h_R _ (by decide)
  repeat' first
    | with_reducible assumption
    | (refine Allows.sub h_R ?_; decide)
    | with_reducible apply shiftMarks_keeps
    | with_reducible apply countHandOver_keeps
    | with_reducible apply capture_keeps
    | with_reducible apply Keeps.ite
    | extract_lets
    | fail_if_no_progress (with_reducible refine Keeps.put_kin r_kin ?_)

theorem routine_keeps {R : Part → Prop} {b₀ : State} (s : State) (d : Int × Int × Int) (h_R : Allows R [.regs, .kin]) (h_s : Keeps R b₀ s) : PKeeps R b₀ (routine s d) := by
  unfold routine
  have r_kin : R .kin := h_R _ (by decide)
  repeat' first
    | with_reducible assumption
    | (refine Allows.sub h_R ?_; decide)
    | with_reducible apply jumpBlended_keeps
    | with_reducible apply bump_keeps
    | with_reducible apply PKeeps.fst
    | (refine PKeeps.of_eq ‹_› ?_)
    | extract_lets
    | fail_if_no_progress (with_reducible refine Keeps.put_kin r_kin ?_)
    | split
    | intro _
    | fail_if_no_progress beta_reduce
    | with_reducible apply PKeeps.foldl
    | dsimp +zetaDelta only
    | with_reducible apply PKeeps.mk

theorem latchUsable_keeps {R : Part → Prop} {b₀ : State} (s : State) (x : KinSol) (h_R : Allows R [.regs, .kin, .recd]) (h_s : Keeps R b₀ s) : PKeeps R b₀ (latchUsable s x) := by
  unfold latchUsable
  have r_kin : R .kin := h_R _ (by decide)
  repeat' first
    | with_reducible assumption
    | (refine Allows.sub h_R ?_; decide)
    | with_reducible apply routine_keeps
    | with_reducible apply jumpBlended_keeps
    | with_reducible apply jumpNow_keeps
    | with_reducible apply takeVelocity_keeps
    | with_reducible apply reversal_keeps
    | with_reducible apply learnWheels_keeps
    | with_reducible apply PKeeps.fst
    | (refine PKeeps.of_eq ‹_› ?_)
    | extract_lets
    | fail_if_no_progress (with_reducible refine Keeps.put_kin r_kin ?_)
    | split
    | intro _
    | fail_if_no_progress beta_reduce
    | with_reducible apply PKeeps.foldl
    | dsimp +zetaDelta only
    | with_reducible apply PKeeps.mk

theorem showSigma_keeps {R : Part → Prop} {b₀ : State} (s : State) (x : KinSol) (h_R : Allows R [.regs]) (h_s : Keeps R b₀ s) : Keeps R b₀ (showSigma s x) := by
  unfold showSigma
  repeat' first
    | with_reducible assumption
    | with_reducible apply wr_keeps

theorem latchSol_keeps {R : Part → Prop} {b₀ : State} (s : State) (h_R : Allows R [.regs, .kin, .recd]) (h_s : Keeps R b₀ s) : PKeeps R b₀ (latchSol s) := by
  unfold latchSol
  have r_kin : R .kin := h_R _ (by decide)
  repeat' first
    | with_reducible assumption
    | (refine Allows.sub h_R ?_; decide)
    | with_reducible apply showSigma_keeps
    | with_reducible apply latchUsable_keeps
    | with_reducible apply bump_keeps
    | with_reducible apply PKeeps.fst
    | (refine PKeeps.of_eq ‹_› ?_)
    | extract_lets
    | fail_if_no_progress (with_reducible refine Keeps.put_kin r_kin ?_)
    | split
    | intro _
    | fail_if_no_progress beta_reduce
    | with_reducible apply PKeeps.foldl
    | dsimp +zetaDelta only
    | with_reducible apply PKeeps.mk

theorem firstPose_keeps {R : Part → Prop} {b₀ : State} (r : State × Bool) (h_R : Allows R [.regs, .kin]) (h_r : PKeeps R b₀ r) :
    PKeeps R b₀ (firstPose r) := by
  unfold firstPose
  extract_lets
  split
  · split
    · exact jumpNow_keeps _ _ (h_R.sub (by decide)) h_r
    · exact h_r
  · exact h_r

theorem hencFail_keeps {R : Part → Prop} {b₀ : State} (s : State) (h_R : Allows R [.regs, .kin]) (h_s : Keeps R b₀ s) : Keeps R b₀ (hencFail s) := by
  unfold hencFail
  have r_kin : R .kin := h_R _ (by decide)
  repeat' first
    | with_reducible assumption
    | (refine Allows.sub h_R ?_; decide)
    | with_reducible apply setB_keeps
    | with_reducible apply Keeps.ite
    | extract_lets
    | fail_if_no_progress (with_reducible refine Keeps.put_kin r_kin ?_)

theorem hencTake_keeps {R : Part → Prop} {b₀ : State} (s : State) (h_R : Allows R [.regs, .kin]) (h_s : Keeps R b₀ s) : Keeps R b₀ (hencTake s) := by
  unfold hencTake
  have r_kin : R .kin := h_R _ (by decide)
  repeat' first
    | with_reducible assumption
    | (refine Allows.sub h_R ?_; decide)
    | with_reducible apply countHandOver_keeps
    | with_reducible apply capture_keeps
    | with_reducible apply Keeps.ite
    | extract_lets
    | fail_if_no_progress (with_reducible refine Keeps.put_kin r_kin ?_)

theorem hencReturn_keeps {R : Part → Prop} {b₀ : State} (s : State) (h_R : Allows R [.regs, .kin]) (h_s : Keeps R b₀ s) : Keeps R b₀ (hencReturn s) := by
  unfold hencReturn
  repeat' first
    | with_reducible assumption
    | (refine Allows.sub h_R ?_; decide)
    | with_reducible apply hencTake_keeps
    | with_reducible apply setB_keeps

theorem showHitch_keeps {R : Part → Prop} {b₀ : State} (s : State) (h_R : Allows R [.regs]) (h_s : Keeps R b₀ s) : Keeps R b₀ (showHitch s) := by
  unfold showHitch
  repeat' first
    | with_reducible assumption
    | with_reducible apply setB_keeps

theorem hencGoodStep_keeps {R : Part → Prop} {b₀ : State} (s : State) (h_R : Allows R [.regs, .kin]) (h_s : Keeps R b₀ s) : Keeps R b₀ (hencGoodStep s) := by
  unfold hencGoodStep
  have r_kin : R .kin := h_R _ (by decide)
  repeat' first
    | with_reducible assumption
    | with_reducible apply hencTake_keeps
    | with_reducible apply Keeps.ite
    | extract_lets
    | fail_if_no_progress (with_reducible refine Keeps.put_kin r_kin ?_)

theorem hencFltStep_keeps {R : Part → Prop} {b₀ : State} (s : State) (h_R : Allows R [.regs, .kin]) (h_s : Keeps R b₀ s) : Keeps R b₀ (hencFltStep s) := by
  unfold hencFltStep
  have r_kin : R .kin := h_R _ (by decide)
  repeat' first
    | with_reducible assumption
    | with_reducible apply hencReturn_keeps
    | with_reducible apply Keeps.ite
    | extract_lets
    | fail_if_no_progress (with_reducible refine Keeps.put_kin r_kin ?_)

theorem hencLeave_keeps {R : Part → Prop} {b₀ : State} (s : State) (h_R : Allows R [.regs, .kin]) (h_s : Keeps R b₀ s) : Keeps R b₀ (hencLeave s) := by
  unfold hencLeave
  have r_kin : R .kin := h_R _ (by decide)
  repeat' first
    | with_reducible assumption
    | (refine Allows.sub h_R ?_; decide)
    | with_reducible apply setB_keeps
    | with_reducible apply Keeps.ite
    | extract_lets
    | fail_if_no_progress (with_reducible refine Keeps.put_kin r_kin ?_)

theorem hencStep_keeps {R : Part → Prop} {b₀ : State} (s : State) (h_R : Allows R [.regs, .kin]) (h_s : Keeps R b₀ s) : Keeps R b₀ (hencStep s) := by
  unfold hencStep
  repeat' first
    | with_reducible assumption
    | (refine Allows.sub h_R ?_; decide)
    | with_reducible apply hencLeave_keeps
    | with_reducible apply hencFltStep_keeps
    | with_reducible apply hencGoodStep_keeps
    | with_reducible apply showHitch_keeps
    | with_reducible apply hencFail_keeps
    | with_reducible apply Keeps.ite

theorem trailMotion_keeps {R : Part → Prop} {b₀ : State} (s : State) (h_R : Allows R [.kin]) (h_s : Keeps R b₀ s) : Keeps R b₀ (trailMotion s) := by
  unfold trailMotion
  have r_kin : R .kin := h_R _ (by decide)
  repeat' first
    | with_reducible assumption
    | with_reducible apply Keeps.ite
    | extract_lets
    | fail_if_no_progress (with_reducible refine Keeps.put_kin r_kin ?_)

theorem implementMotion_keeps {R : Part → Prop} {b₀ : State} (s : State) (h_R : Allows R [.kin]) (h_s : Keeps R b₀ s) : Keeps R b₀ (implementMotion s) := by
  unfold implementMotion
  have r_kin : R .kin := h_R _ (by decide)
  repeat' first
    | with_reducible assumption
    | with_reducible apply trailMotion_keeps
    | with_reducible apply Keeps.ite
    | extract_lets
    | fail_if_no_progress (with_reducible refine Keeps.put_kin r_kin ?_)

theorem implementPose_keeps {R : Part → Prop} {b₀ : State} (s : State) (h_R : Allows R [.kin]) (h_s : Keeps R b₀ s) : Keeps R b₀ (implementPose s) := by
  unfold implementPose
  have r_kin : R .kin := h_R _ (by decide)
  repeat' first
    | with_reducible assumption
    | with_reducible apply Keeps.ite
    | extract_lets
    | fail_if_no_progress (with_reducible refine Keeps.put_kin r_kin ?_)

theorem setChKin_keeps {R : Part → Prop} {b₀ : State} (s : State) (c : Nat) (k : ChKin) (h_R : Allows R [.kin]) (h_s : Keeps R b₀ s) : Keeps R b₀ (setChKin s c k) := by
  unfold setChKin
  have r_kin : R .kin := h_R _ (by decide)
  repeat' first
    | with_reducible assumption
    | with_reducible apply Keeps.ite
    | extract_lets
    | fail_if_no_progress (with_reducible refine Keeps.put_kin r_kin ?_)

theorem channelMove_keeps {R : Part → Prop} {b₀ : State} (s : State) (c : Nat) (h_R : Allows R [.regs, .kin]) (h_s : Keeps R b₀ s) : Keeps R b₀ (channelMove s c) := by
  unfold channelMove
  repeat' first
    | with_reducible assumption
    | (refine Allows.sub h_R ?_; decide)
    | with_reducible apply setChKin_keeps
    | with_reducible apply setB_keeps
    | with_reducible apply Keeps.ite

theorem channelPlace_keeps {R : Part → Prop} {b₀ : State} (s : State) (c : Nat) (h_R : Allows R [.kin]) (h_s : Keeps R b₀ s) : Keeps R b₀ (channelPlace s c) := by
  unfold channelPlace
  repeat' first
    | with_reducible assumption
    | with_reducible apply setChKin_keeps

theorem channelRest_keeps {R : Part → Prop} {b₀ : State} (s : State) (c : Nat) (h_R : Allows R [.kin]) (h_s : Keeps R b₀ s) : Keeps R b₀ (channelRest s c) := by
  unfold channelRest
  repeat' first
    | with_reducible assumption
    | with_reducible apply setChKin_keeps
    | with_reducible apply Keeps.ite

theorem applyStill_keeps {R : Part → Prop} {b₀ : State} (s : State) (h_R : Allows R [.regs, .kin, .free]) (h_s : Keeps R b₀ s) : Keeps R b₀ (applyStill s) := by
  unfold applyStill
  have r_kin : R .kin := h_R _ (by decide)
  repeat' first
    | with_reducible assumption
    | (refine Allows.sub h_R ?_; decide)
    | with_reducible apply fresh_keeps
    | with_reducible apply setB_keeps
    | with_reducible apply wr_keeps
    | (refine fresh_keeps_eq ‹_› ?_ ?_)
    | with_reducible apply Keeps.ite
    | extract_lets
    | fail_if_no_progress (with_reducible refine Keeps.put_kin r_kin ?_)

theorem watchStep_keeps {R : Part → Prop} {b₀ : State} (s : State) (u : Int) (h_R : Allows R [.kin]) (h_s : Keeps R b₀ s) : Keeps R b₀ (watchStep s u) := by
  unfold watchStep
  have r_kin : R .kin := h_R _ (by decide)
  repeat' first
    | with_reducible assumption
    | with_reducible apply Keeps.ite
    | extract_lets
    | fail_if_no_progress (with_reducible refine Keeps.put_kin r_kin ?_)

theorem speedHandOver_keeps {R : Part → Prop} {b₀ : State} (s : State) (c : Nat) (est : Int) (used : Nat) (counted : Bool) (h_R : Allows R [.regs, .kin]) (h_s : Keeps R b₀ s) : Keeps R b₀ (speedHandOver s c est used counted) := by
  unfold speedHandOver
  repeat' first
    | with_reducible assumption
    | (refine Allows.sub h_R ?_; decide)
    | with_reducible apply countHandOver_keeps
    | with_reducible apply capture_keeps
    | with_reducible apply Keeps.ite

theorem carrierMotion_keeps {R : Part → Prop} {b₀ : State} (s : State) (counted : Bool) (h_R : Allows R [.regs, .kin, .free]) (h_s : Keeps R b₀ s) : Keeps R b₀ (carrierMotion s counted) := by
  unfold carrierMotion
  have r_kin : R .kin := h_R _ (by decide)
  repeat' first
    | with_reducible assumption
    | (refine Allows.sub h_R ?_; decide)
    | with_reducible apply speedHandOver_keeps
    | with_reducible apply applyStill_keeps
    | with_reducible apply setValidity_keeps
    | with_reducible apply latchLimit_keeps
    | with_reducible apply setB_keeps
    | with_reducible apply setF_keeps
    | with_reducible apply Keeps.ite
    | extract_lets
    | fail_if_no_progress (with_reducible refine Keeps.put_kin r_kin ?_)

theorem takeCounts_keeps {R : Part → Prop} {b₀ : State} (s : State) (h_R : Allows R [.kin]) (h_s : Keeps R b₀ s) : Keeps R b₀ (takeCounts s) := by
  unfold takeCounts
  have r_kin : R .kin := h_R _ (by decide)
  repeat' first
    | with_reducible assumption
    | with_reducible apply Keeps.foldl
    | intro _ _ _
    | with_reducible apply Keeps.ite
    | extract_lets
    | fail_if_no_progress (with_reducible refine Keeps.put_kin r_kin ?_)

theorem showPose_keeps {R : Part → Prop} {b₀ : State} (s : State) (h_R : Allows R [.regs]) (h_s : Keeps R b₀ s) : Keeps R b₀ (showPose s) := by
  unfold showPose
  repeat' first
    | with_reducible assumption
    | with_reducible apply wrPair_keeps
    | with_reducible apply wr_keeps

theorem propagate_keeps {R : Part → Prop} {b₀ : State} (s : State) (d : Nat) (h_R : Allows R [.regs, .kin]) (h_s : Keeps R b₀ s) : Keeps R b₀ (propagate s d) := by
  unfold propagate
  have r_kin : R .kin := h_R _ (by decide)
  repeat' first
    | with_reducible assumption
    | (refine Allows.sub h_R ?_; decide)
    | with_reducible apply implementPose_keeps
    | with_reducible apply setB_keeps
    | with_reducible apply Keeps.ite
    | extract_lets
    | fail_if_no_progress (with_reducible refine Keeps.put_kin r_kin ?_)

theorem remember_keeps {R : Part → Prop} {b₀ : State} (s : State) (h_R : Allows R [.kin]) (h_s : Keeps R b₀ s) : Keeps R b₀ (remember s) := by
  unfold remember
  have r_kin : R .kin := h_R _ (by decide)
  repeat' first
    | with_reducible assumption
    | with_reducible apply Keeps.ite
    | extract_lets
    | fail_if_no_progress (with_reducible refine Keeps.put_kin r_kin ?_)

theorem poseFromSol_keeps {R : Part → Prop} {b₀ : State} (s : State) (h_R : Allows R [.kin]) (h_s : Keeps R b₀ s) : Keeps R b₀ (poseFromSol s) := by
  unfold poseFromSol
  have r_kin : R .kin := h_R _ (by decide)
  repeat' first
    | with_reducible assumption
    | with_reducible apply Keeps.ite
    | extract_lets
    | fail_if_no_progress (with_reducible refine Keeps.put_kin r_kin ?_)
    | split

theorem idleSol_keeps {R : Part → Prop} {b₀ : State} (s : State) (h_R : Allows R [.regs, .kin]) (h_s : Keeps R b₀ s) : Keeps R b₀ (idleSol s) := by
  unfold idleSol
  have r_kin : R .kin := h_R _ (by decide)
  repeat' first
    | with_reducible assumption
    | (refine Allows.sub h_R ?_; decide)
    | with_reducible apply showSigma_keeps
    | with_reducible apply bump_keeps
    | with_reducible apply Keeps.ite
    | extract_lets
    | fail_if_no_progress (with_reducible refine Keeps.put_kin r_kin ?_)
    | split

theorem kinIdle_keeps {R : Part → Prop} {b₀ : State} (s : State) (h_R : Allows R [.regs, .kin]) (h_s : Keeps R b₀ s) : Keeps R b₀ (kinIdle s) := by
  unfold kinIdle
  have r_kin : R .kin := h_R _ (by decide)
  repeat' first
    | with_reducible assumption
    | (refine Allows.sub h_R ?_; decide)
    | with_reducible apply idleSol_keeps
    | with_reducible apply poseFromSol_keeps
    | with_reducible apply implementPose_keeps
    | with_reducible apply setB_keeps
    | with_reducible apply setF_keeps
    | with_reducible apply Keeps.ite
    | extract_lets
    | fail_if_no_progress (with_reducible refine Keeps.put_kin r_kin ?_)

theorem showType_keeps {R : Part → Prop} {b₀ : State} (s : State) (h_R : Allows R [.regs]) (h_s : Keeps R b₀ s) : Keeps R b₀ (showType s) := by
  unfold showType
  repeat' first
    | with_reducible assumption
    | with_reducible apply setF_keeps

theorem kinRun_keeps {R : Part → Prop} {b₀ : State} (s : State) (h_R : Allows R [.regs, .kin, .recd, .free]) (h_s : Keeps R b₀ s) : Keeps R b₀ (kinRun s) := by
  unfold kinRun
  repeat' first
    | with_reducible assumption
    | (refine Allows.sub h_R ?_; decide)
    | with_reducible apply propagate_keeps
    | with_reducible apply takeCounts_keeps
    | with_reducible apply carrierMotion_keeps
    | with_reducible apply watchStep_keeps
    | with_reducible apply channelMove_keeps
    | with_reducible apply implementMotion_keeps
    | with_reducible apply hencStep_keeps
    | with_reducible apply firstPose_keeps
    | with_reducible apply latchSol_keeps
    | with_reducible apply PKeeps.fst
    | (refine PKeeps.of_eq ‹_› ?_)
    | with_reducible apply Keeps.foldl
    | intro _ _ _

theorem noteTrailed_keeps {R : Part → Prop} {b₀ : State} (s : State) (h_R : Allows R [.kin]) (h_s : Keeps R b₀ s) : Keeps R b₀ (noteTrailed s) := by
  unfold noteTrailed
  have r_kin : R .kin := h_R _ (by decide)
  repeat' first
    | with_reducible assumption
    | with_reducible apply Keeps.ite
    | extract_lets
    | fail_if_no_progress (with_reducible refine Keeps.put_kin r_kin ?_)

theorem kinStep_keeps {R : Part → Prop} {b₀ : State} (s : State) (h_R : Allows R [.regs, .kin, .recd, .free]) (h_s : Keeps R b₀ s) : Keeps R b₀ (kinStep s) := by
  unfold kinStep
  repeat' first
    | with_reducible assumption
    | (refine Allows.sub h_R ?_; decide)
    | with_reducible apply noteTrailed_keeps
    | with_reducible apply kinRun_keeps
    | with_reducible apply showType_keeps
    | with_reducible apply kinIdle_keeps
    | with_reducible apply remember_keeps
    | with_reducible apply showPose_keeps
    | with_reducible apply takeCounts_keeps
    | with_reducible apply channelRest_keeps
    | with_reducible apply channelPlace_keeps
    | with_reducible apply channelMove_keeps
    | with_reducible apply Keeps.foldl
    | intro _ _ _
    | with_reducible apply Keeps.ite

theorem kinEnable_keeps {R : Part → Prop} {b₀ : State} (s : State) (h_R : Allows R [.regs, .kin]) (h_s : Keeps R b₀ s) : Keeps R b₀ (kinEnable s) := by
  unfold kinEnable
  have r_kin : R .kin := h_R _ (by decide)
  repeat' first
    | with_reducible assumption
    | (refine Allows.sub h_R ?_; decide)
    | with_reducible apply poseFromSol_keeps
    | with_reducible apply takeVelocity_keeps
    | with_reducible apply setF_keeps
    | with_reducible apply wr_keeps
    | with_reducible apply Keeps.foldl
    | intro _ _ _
    | with_reducible apply Keeps.ite
    | extract_lets
    | fail_if_no_progress (with_reducible refine Keeps.put_kin r_kin ?_)
    | split

theorem kinDisable_keeps {R : Part → Prop} {b₀ : State} (s : State) (h_R : Allows R [.regs, .kin]) (h_s : Keeps R b₀ s) : Keeps R b₀ (kinDisable s) := by
  unfold kinDisable
  have r_kin : R .kin := h_R _ (by decide)
  repeat' first
    | with_reducible assumption
    | (refine Allows.sub h_R ?_; decide)
    | with_reducible apply setB_keeps
    | with_reducible apply setF_keeps
    | with_reducible apply Keeps.foldl
    | intro _ _ _
    | with_reducible apply Keeps.ite
    | extract_lets
    | fail_if_no_progress (with_reducible refine Keeps.put_kin r_kin ?_)

theorem gnssLost_keeps {R : Part → Prop} {b₀ : State} (s : State) (h_R : Allows R [.regs, .kin]) (h_s : Keeps R b₀ s) : Keeps R b₀ (gnssLost s) := by
  unfold gnssLost
  repeat' first
    | with_reducible assumption
    | (refine Allows.sub h_R ?_; decide)
    | with_reducible apply setValidity_keeps
    | with_reducible apply latchLimit_keeps
    | with_reducible apply Keeps.ite

theorem standstill_keeps {R : Part → Prop} {b₀ : State} (s : State) (h_R : Allows R [.regs, .kin, .free]) (h_s : Keeps R b₀ s) : Keeps R b₀ (standstill s) := by
  unfold standstill
  repeat' first
    | with_reducible assumption
    | with_reducible apply applyStill_keeps
    | with_reducible apply Keeps.ite

theorem hitchFail_keeps {R : Part → Prop} {b₀ : State} (s : State) (h_R : Allows R [.regs, .kin]) (h_s : Keeps R b₀ s) : Keeps R b₀ (hitchFail s) := by
  unfold hitchFail
  repeat' first
    | with_reducible assumption
    | (refine Allows.sub h_R ?_; decide)
    | with_reducible apply showHitch_keeps
    | with_reducible apply hencFail_keeps
    | with_reducible apply Keeps.ite

theorem hitchReturn_keeps {R : Part → Prop} {b₀ : State} (s : State) (h_R : Allows R [.regs, .kin]) (h_s : Keeps R b₀ s) : Keeps R b₀ (hitchReturn s) := by
  unfold hitchReturn
  repeat' first
    | with_reducible assumption
    | (refine Allows.sub h_R ?_; decide)
    | with_reducible apply showHitch_keeps
    | with_reducible apply hencReturn_keeps
    | with_reducible apply Keeps.ite

theorem drLimit_keeps {R : Part → Prop} {b₀ : State} (s : State) (h_R : Allows R [.regs, .kin]) (h_s : Keeps R b₀ s) : Keeps R b₀ (drLimit s) := by
  unfold drLimit
  repeat' first
    | with_reducible assumption
    | (refine Allows.sub h_R ?_; decide)
    | with_reducible apply setValidity_keeps
    | with_reducible apply latchLimit_keeps
    | with_reducible apply Keeps.ite

theorem execGnssLost_keeps {R : Part → Prop} {b₀ : State} (s : State) (h_R : Allows R [.regs, .kin]) (h_s : Keeps R b₀ s) : OKeeps R b₀ (execGnssLost s) := by
  unfold execGnssLost
  repeat' first
    | with_reducible assumption
    | with_reducible apply gnssLost_keeps
    | with_reducible apply OKeeps.answer
    | with_reducible apply OKeeps.next

theorem execStandstill_keeps {R : Part → Prop} {b₀ : State} (s : State) (h_R : Allows R [.regs, .kin, .free]) (h_s : Keeps R b₀ s) : OKeeps R b₀ (execStandstill s) := by
  unfold execStandstill
  repeat' first
    | with_reducible assumption
    | with_reducible apply standstill_keeps
    | with_reducible apply OKeeps.answer
    | with_reducible apply OKeeps.next

theorem execHitchEncoderFail_keeps {R : Part → Prop} {b₀ : State} (s : State) (h_R : Allows R [.regs, .kin]) (h_s : Keeps R b₀ s) : OKeeps R b₀ (execHitchEncoderFail s) := by
  unfold execHitchEncoderFail
  repeat' first
    | with_reducible assumption
    | with_reducible apply hitchFail_keeps
    | with_reducible apply OKeeps.answer
    | with_reducible apply OKeeps.next

theorem execHitchEncoderReturn_keeps {R : Part → Prop} {b₀ : State} (s : State) (h_R : Allows R [.regs, .kin]) (h_s : Keeps R b₀ s) : OKeeps R b₀ (execHitchEncoderReturn s) := by
  unfold execHitchEncoderReturn
  repeat' first
    | with_reducible assumption
    | with_reducible apply hitchReturn_keeps
    | with_reducible apply OKeeps.answer
    | with_reducible apply OKeeps.next

theorem execDrLimitPassed_keeps {R : Part → Prop} {b₀ : State} (s : State) (h_R : Allows R [.regs, .kin]) (h_s : Keeps R b₀ s) : OKeeps R b₀ (execDrLimitPassed s) := by
  unfold execDrLimitPassed
  repeat' first
    | with_reducible assumption
    | with_reducible apply drLimit_keeps
    | with_reducible apply OKeeps.answer
    | with_reducible apply OKeeps.next

end Sys2Proof.Machine
end

