-- ==== Sys2Proof/Laws/KeepsSchBase.lean ====
section
/-!
SUPPORT. Sys2Proof/Laws/KeepsSchBase.lean: the operations of Machine/SchBase.lean keep what `Keeps` names.
-/
namespace Sys2Proof.Machine

theorem setLine_keeps {R : Part → Prop} {b₀ : State} (s : State) (l : Nat) (x : EdgeLine) (h_R : Allows R [.sys]) (h_s : Keeps R b₀ s) : Keeps R b₀ (setLine s l x) := by
  unfold setLine
  have r_sys : R .sys := h_R _ (by decide)
  repeat' first
    | with_reducible assumption
    | with_reducible apply Keeps.ite
    | extract_lets
    | fail_if_no_progress (with_reducible refine Keeps.put_sys r_sys ?_)

theorem settleAt_keeps {R : Part → Prop} {b₀ : State} (s : State) (l t : Nat) (h_R : Allows R [.regs, .sys]) (h_s : Keeps R b₀ s) : Keeps R b₀ (settleAt s l t) := by
  unfold settleAt
  repeat' first
    | with_reducible assumption
    | (refine Allows.sub h_R ?_; decide)
    | with_reducible apply setLine_keeps
    | with_reducible apply bump_keeps

theorem edgeEvent_keeps {R : Part → Prop} {b₀ : State} (s : State) (l t : Nat) (h_R : Allows R [.regs, .sys]) (h_s : Keeps R b₀ s) : Keeps R b₀ (edgeEvent s l t) := by
  unfold edgeEvent
  repeat' first
    | with_reducible assumption
    | (refine Allows.sub h_R ?_; decide)
    | with_reducible apply settleAt_keeps
    | with_reducible apply setLine_keeps

theorem crossBoundary_keeps {R : Part → Prop} {b₀ : State} (s : State) (h_R : Allows R [.regs, .sys]) (h_s : Keeps R b₀ s) : Keeps R b₀ (crossBoundary s) := by
  unfold crossBoundary
  repeat' first
    | with_reducible assumption
    | (refine Allows.sub h_R ?_; decide)
    | with_reducible apply settleAt_keeps
    | with_reducible apply setF_keeps
    | with_reducible apply Keeps.foldl
    | intro _ _ _

theorem dropLines_keeps {R : Part → Prop} {b₀ : State} (s : State) (p : Nat → Bool) (h_R : Allows R [.sys]) (h_s : Keeps R b₀ s) : Keeps R b₀ (dropLines s p) := by
  unfold dropLines
  have r_sys : R .sys := h_R _ (by decide)
  repeat' first
    | with_reducible assumption
    | with_reducible apply Keeps.ite
    | extract_lets
    | fail_if_no_progress (with_reducible refine Keeps.put_sys r_sys ?_)

theorem modSlotAt_keeps {R : Part → Prop} {b₀ : State} (s : State) (i : Nat) (f : EvSlot → EvSlot) (h_R : Allows R [.sch]) (h_s : Keeps R b₀ s) : Keeps R b₀ (modSlotAt s i f) := by
  unfold modSlotAt
  have r_sch : R .sch := h_R _ (by decide)
  repeat' first
    | with_reducible assumption
    | with_reducible apply Keeps.ite
    | extract_lets
    | fail_if_no_progress (with_reducible refine Keeps.put_sch r_sch ?_)

theorem modChSch_keeps {R : Part → Prop} {b₀ : State} (s : State) (c : Nat) (f : ChSch → ChSch) (h_R : Allows R [.sch]) (h_s : Keeps R b₀ s) : Keeps R b₀ (modChSch s c f) := by
  unfold modChSch
  have r_sch : R .sch := h_R _ (by decide)
  repeat' first
    | with_reducible assumption
    | with_reducible apply Keeps.ite
    | extract_lets
    | fail_if_no_progress (with_reducible refine Keeps.put_sch r_sch ?_)

theorem showPool_keeps {R : Part → Prop} {b₀ : State} (s : State) (h_R : Allows R [.regs]) (h_s : Keeps R b₀ s) : Keeps R b₀ (showPool s) := by
  unfold showPool
  repeat' first
    | with_reducible assumption
    | with_reducible apply setB_keeps
    | with_reducible apply setF_keeps
    | with_reducible apply Keeps.foldl
    | intro _ _ _

theorem fillSlot_keeps {R : Part → Prop} {b₀ : State} (s : State) (i : Nat) (d : EvDesc) (step : Word) (h_R : Allows R [.regs, .sch]) (h_s : Keeps R b₀ s) : Keeps R b₀ (fillSlot s i d step) := by
  unfold fillSlot
  repeat' first
    | with_reducible assumption
    | (refine Allows.sub h_R ?_; decide)
    | with_reducible apply showPool_keeps
    | with_reducible apply modSlotAt_keeps

theorem freeSlot_keeps {R : Part → Prop} {b₀ : State} (s : State) (i : Nat) (h_R : Allows R [.regs, .sch]) (h_s : Keeps R b₀ s) : Keeps R b₀ (freeSlot s i) := by
  unfold freeSlot
  have r_sch : R .sch := h_R _ (by decide)
  repeat' first
    | with_reducible assumption
    | (refine Allows.sub h_R ?_; decide)
    | with_reducible apply showPool_keeps
    | with_reducible apply modSlotAt_keeps
    | with_reducible apply Keeps.ite
    | extract_lets
    | fail_if_no_progress (with_reducible refine Keeps.put_sch r_sch ?_)

theorem endSlotAt_keeps {R : Part → Prop} {b₀ : State} (s : State) (i st k : Nat) (h_R : Allows R [.sch]) (h_s : Keeps R b₀ s) : Keeps R b₀ (endSlotAt s i st k) := by
  unfold endSlotAt
  repeat' first
    | with_reducible assumption
    | with_reducible apply modSlotAt_keeps

theorem endSlot_keeps {R : Part → Prop} {b₀ : State} (s : State) (i st : Nat) (h_R : Allows R [.sch]) (h_s : Keeps R b₀ s) : Keeps R b₀ (endSlot s i st) := by
  unfold endSlot
  repeat' first
    | with_reducible assumption
    | with_reducible apply endSlotAt_keeps

theorem modFlags_keeps {R : Part → Prop} {b₀ : State} (s : State) (i : Nat) (f : EvFlags → EvFlags) (h_R : Allows R [.sch]) (h_s : Keeps R b₀ s) : Keeps R b₀ (modFlags s i f) := by
  unfold modFlags
  repeat' first
    | with_reducible assumption
    | with_reducible apply modSlotAt_keeps

theorem noteIssued_keeps {R : Part → Prop} {b₀ : State} (s : State) (c st origin : Nat) (h_R : Allows R [.sys]) (h_s : Keeps R b₀ s) : Keeps R b₀ (noteIssued s c st origin) := by
  unfold noteIssued
  have r_sys : R .sys := h_R _ (by decide)
  repeat' first
    | with_reducible assumption
    | with_reducible apply Keeps.ite
    | extract_lets
    | fail_if_no_progress (with_reducible refine Keeps.put_sys r_sys ?_)

theorem setProt_keeps {R : Part → Prop} {b₀ : State} (s : State) (c k : Nat) (h_R : Allows R [.sys]) (h_s : Keeps R b₀ s) : Keeps R b₀ (setProt s c k) := by
  unfold setProt
  have r_sys : R .sys := h_R _ (by decide)
  repeat' first
    | with_reducible assumption
    | with_reducible apply Keeps.ite
    | extract_lets
    | fail_if_no_progress (with_reducible refine Keeps.put_sys r_sys ?_)

theorem clearProt_keeps {R : Part → Prop} {b₀ : State} (s : State) (c : Nat) (h_R : Allows R [.sys]) (h_s : Keeps R b₀ s) : Keeps R b₀ (clearProt s c) := by
  unfold clearProt
  have r_sys : R .sys := h_R _ (by decide)
  repeat' first
    | with_reducible assumption
    | with_reducible apply Keeps.ite
    | extract_lets
    | fail_if_no_progress (with_reducible refine Keeps.put_sys r_sys ?_)

end Sys2Proof.Machine
end

