-- ==== Sys2Proof/Laws/KeepsAct.lean ====
section
/-!
SUPPORT. Sys2Proof/Laws/KeepsAct.lean: the operations of Machine/Act.lean keep what `Keeps` names.
-/
namespace Sys2Proof.Machine

theorem modLearn_keeps {R : Part → Prop} {b₀ : State} (s : State) (c dir : Nat) (f : Learn → Learn) (h_R : Allows R [.act]) (h_s : Keeps R b₀ s) : Keeps R b₀ (modLearn s c dir f) := by
  unfold modLearn
  have r_act : R .act := h_R _ (by decide)
  repeat' first
    | with_reducible assumption
    | with_reducible apply Keeps.ite
    | extract_lets
    | fail_if_no_progress (with_reducible refine Keeps.put_act r_act ?_)

theorem setWin_keeps {R : Part → Prop} {b₀ : State} (s : State) (c : Nat) (w : Option ActWin) (h_R : Allows R [.act]) (h_s : Keeps R b₀ s) : Keeps R b₀ (setWin s c w) := by
  unfold setWin
  have r_act : R .act := h_R _ (by decide)
  repeat' first
    | with_reducible assumption
    | with_reducible apply Keeps.ite
    | extract_lets
    | fail_if_no_progress (with_reducible refine Keeps.put_act r_act ?_)

theorem setSwings_keeps {R : Part → Prop} {b₀ : State} (s : State) (c : Nat) (l : List Swing) (h_R : Allows R [.act]) (h_s : Keeps R b₀ s) : Keeps R b₀ (setSwings s c l) := by
  unfold setSwings
  have r_act : R .act := h_R _ (by decide)
  repeat' first
    | with_reducible assumption
    | with_reducible apply Keeps.ite
    | extract_lets
    | fail_if_no_progress (with_reducible refine Keeps.put_act r_act ?_)

theorem addSwing_keeps {R : Part → Prop} {b₀ : State} (s : State) (c : Nat) (w : Swing) (h_R : Allows R [.act]) (h_s : Keeps R b₀ s) : Keeps R b₀ (addSwing s c w) := by
  unfold addSwing
  repeat' first
    | with_reducible assumption
    | with_reducible apply setSwings_keeps

theorem showActStat_keeps {R : Part → Prop} {b₀ : State} (s : State) (h_R : Allows R [.regs]) (h_s : Keeps R b₀ s) : Keeps R b₀ (showActStat s) := by
  unfold showActStat
  repeat' first
    | with_reducible assumption
    | with_reducible apply setF_keeps

theorem setDlyFlags_keeps {R : Part → Prop} {b₀ : State} (s : State) (c w : Nat) (h_R : Allows R [.regs, .tables]) (h_s : Keeps R b₀ s) : Keeps R b₀ (setDlyFlags s c w) := by
  unfold setDlyFlags
  repeat' first
    | with_reducible assumption
    | (refine Allows.sub h_R ?_; decide)
    | with_reducible apply showActStat_keeps
    | with_reducible apply tsetNat_keeps

theorem raiseDlyFlag_keeps {R : Part → Prop} {b₀ : State} (s : State) (c k dir : Nat) (h_R : Allows R [.regs, .tables, .recd]) (h_s : Keeps R b₀ s) : Keeps R b₀ (raiseDlyFlag s c k dir) := by
  unfold raiseDlyFlag
  repeat' first
    | with_reducible assumption
    | (refine Allows.sub h_R ?_; decide)
    | with_reducible apply setDlyFlags_keeps
    | with_reducible apply record_keeps
    | with_reducible apply Keeps.ite

theorem showMissRun_keeps {R : Part → Prop} {b₀ : State} (s : State) (c : Nat) (h_R : Allows R [.tables]) (h_s : Keeps R b₀ s) : Keeps R b₀ (showMissRun s c) := by
  unfold showMissRun
  repeat' first
    | with_reducible assumption
    | with_reducible apply tsetNat_keeps

theorem storeResult_keeps {R : Part → Prop} {b₀ : State} (s : State) (c dir r m : Nat) (h_R : Allows R [.regs, .act]) (h_s : Keeps R b₀ s) : Keeps R b₀ (storeResult s c dir r m) := by
  unfold storeResult
  repeat' first
    | with_reducible assumption
    | (refine Allows.sub h_R ?_; decide)
    | with_reducible apply modLearn_keeps
    | with_reducible apply bump_keeps
    | with_reducible apply Keeps.ite
    | extract_lets
    | split

theorem missResult_keeps {R : Part → Prop} {b₀ : State} (s : State) (c dir r : Nat) (h_R : Allows R [.regs, .tables, .recd, .act]) (h_s : Keeps R b₀ s) : Keeps R b₀ (missResult s c dir r) := by
  unfold missResult
  repeat' first
    | with_reducible assumption
    | (refine Allows.sub h_R ?_; decide)
    | with_reducible apply showMissRun_keeps
    | with_reducible apply raiseDlyFlag_keeps
    | with_reducible apply modLearn_keeps
    | with_reducible apply Keeps.ite

theorem closeWindow_keeps {R : Part → Prop} {b₀ : State} (s : State) (c r : Nat) (h_R : Allows R [.regs, .tables, .recd, .act]) (h_s : Keeps R b₀ s) : Keeps R b₀ (closeWindow s c r) := by
  unfold closeWindow
  repeat' first
    | with_reducible assumption
    | (refine Allows.sub h_R ?_; decide)
    | with_reducible apply missResult_keeps
    | with_reducible apply storeResult_keeps
    | with_reducible apply setWin_keeps
    | with_reducible apply Keeps.ite
    | extract_lets
    | split

theorem cutWindow_keeps {R : Part → Prop} {b₀ : State} (s : State) (c t : Nat) (h_R : Allows R [.act]) (h_s : Keeps R b₀ s) : Keeps R b₀ (cutWindow s c t) := by
  unfold cutWindow
  have r_act : R .act := h_R _ (by decide)
  repeat' first
    | with_reducible assumption
    | with_reducible apply setWin_keeps
    | with_reducible apply Keeps.ite
    | extract_lets
    | fail_if_no_progress (with_reducible refine Keeps.put_act r_act ?_)
    | split

theorem pinEdge_keeps {R : Part → Prop} {b₀ : State} (s : State) (c dir te : Nat) (slot : Option (Nat × Nat)) (trail modul : Bool) (h_R : Allows R [.regs, .act]) (h_s : Keeps R b₀ s) : Keeps R b₀ (pinEdge s c dir te slot trail modul) := by
  unfold pinEdge
  repeat' first
    | with_reducible assumption
    | (refine Allows.sub h_R ?_; decide)
    | with_reducible apply cutWindow_keeps
    | with_reducible apply storeResult_keeps
    | with_reducible apply setWin_keeps
    | with_reducible apply Keeps.ite

theorem placeMotion_keeps {R : Part → Prop} {b₀ : State} (s : State) (c dir te tm m at_ : Nat) (slot : Option (Nat × Nat)) (trail : Bool) (h_R : Allows R [.sch, .act]) (h_s : Keeps R b₀ s) : Keeps R b₀ (placeMotion s c dir te tm m at_ slot trail) := by
  unfold placeMotion
  repeat' first
    | with_reducible assumption
    | (refine Allows.sub h_R ?_; decide)
    | with_reducible apply setSwings_keeps
    | with_reducible apply modSlotAt_keeps
    | with_reducible apply Keeps.ite
    | extract_lets
    | split

theorem placeFeature_keeps {R : Part → Prop} {b₀ : State} (s : State) (w : ActWin) (f : Feature) (h_R : Allows R [.free]) (h_s : Keeps R b₀ s) : PKeeps R b₀ (placeFeature s w f) := by
  unfold placeFeature
  repeat' first
    | with_reducible assumption
    | with_reducible apply fresh_keeps
    | with_reducible apply PKeeps.fst
    | (refine PKeeps.of_eq ‹_› ?_)
    | (refine fresh_keeps_eq ‹_› ?_ ?_)
    | extract_lets
    | split
    | intro _
    | fail_if_no_progress beta_reduce
    | with_reducible apply PKeeps.foldl
    | dsimp +zetaDelta only
    | with_reducible apply PKeeps.mk

theorem tongsReport_keeps {R : Part → Prop} {b₀ : State} (s : State) (c : Nat) (w : ActWin) (f : Feature) (h_R : Allows R [.regs, .tables, .recd, .sch, .act, .free]) (h_s : Keeps R b₀ s) : Keeps R b₀ (tongsReport s c w f) := by
  unfold tongsReport
  have r_act : R .act := h_R _ (by decide)
  repeat' first
    | with_reducible assumption
    | (refine Allows.sub h_R ?_; decide)
    | with_reducible apply placeFeature_keeps
    | with_reducible apply placeMotion_keeps
    | with_reducible apply missResult_keeps
    | with_reducible apply storeResult_keeps
    | with_reducible apply PKeeps.fst
    | (refine PKeeps.of_eq ‹_› ?_)
    | with_reducible apply Keeps.ite
    | extract_lets
    | fail_if_no_progress (with_reducible refine Keeps.put_act r_act ?_)

theorem dropWindow_keeps {R : Part → Prop} {b₀ : State} (s : State) (c : Nat) (w : ActWin) (h_R : Allows R [.act]) (h_s : Keeps R b₀ s) : Keeps R b₀ (dropWindow s c w) := by
  unfold dropWindow
  have r_act : R .act := h_R _ (by decide)
  repeat' first
    | with_reducible assumption
    | with_reducible apply setWin_keeps
    | with_reducible apply Keeps.ite
    | extract_lets
    | fail_if_no_progress (with_reducible refine Keeps.put_act r_act ?_)

theorem setEstimate_keeps {R : Part → Prop} {b₀ : State} (s : State) (c dir d src n : Nat) (h_R : Allows R [.tables, .act]) (h_s : Keeps R b₀ s) : Keeps R b₀ (setEstimate s c dir d src n) := by
  unfold setEstimate
  repeat' first
    | with_reducible assumption
    | (refine Allows.sub h_R ?_; decide)
    | with_reducible apply modLearn_keeps
    | with_reducible apply tsetNat_keeps

theorem captureRef_keeps {R : Part → Prop} {b₀ : State} (s : State) (c dir before : Nat) (h_R : Allows R [.tables]) (h_s : Keeps R b₀ s) : Keeps R b₀ (captureRef s c dir before) := by
  unfold captureRef
  repeat' first
    | with_reducible assumption
    | with_reducible apply tsetNat_keeps
    | with_reducible apply Keeps.ite

theorem evalDrift_keeps {R : Part → Prop} {b₀ : State} (s : State) (c dir before : Nat) (h_R : Allows R [.regs, .tables, .recd, .act]) (h_s : Keeps R b₀ s) : Keeps R b₀ (evalDrift s c dir before) := by
  unfold evalDrift
  repeat' first
    | with_reducible assumption
    | (refine Allows.sub h_R ?_; decide)
    | with_reducible apply captureRef_keeps
    | with_reducible apply raiseDlyFlag_keeps
    | with_reducible apply modLearn_keeps
    | with_reducible apply Keeps.ite

theorem rejectMeas_keeps {R : Part → Prop} {b₀ : State} (s : State) (q : Meas) (d : Nat) (h_R : Allows R [.regs, .tables, .recd, .act]) (h_s : Keeps R b₀ s) : Keeps R b₀ (rejectMeas s q d) := by
  unfold rejectMeas
  repeat' first
    | with_reducible assumption
    | (refine Allows.sub h_R ?_; decide)
    | with_reducible apply evalDrift_keeps
    | with_reducible apply setEstimate_keeps
    | with_reducible apply storeResult_keeps
    | with_reducible apply setDlyFlags_keeps
    | with_reducible apply modLearn_keeps
    | with_reducible apply tsetNat_keeps
    | with_reducible apply record_keeps
    | with_reducible apply Keeps.ite

theorem acceptMeas_keeps {R : Part → Prop} {b₀ : State} (s : State) (q : Meas) (d : Nat) (h_R : Allows R [.regs, .tables, .recd, .act, .free]) (h_s : Keeps R b₀ s) : Keeps R b₀ (acceptMeas s q d) := by
  unfold acceptMeas
  repeat' first
    | with_reducible assumption
    | (refine Allows.sub h_R ?_; decide)
    | with_reducible apply evalDrift_keeps
    | with_reducible apply setEstimate_keeps
    | with_reducible apply storeResult_keeps
    | with_reducible apply modLearn_keeps

theorem filterMeas_keeps {R : Part → Prop} {b₀ : State} (s : State) (q : Meas) (h_R : Allows R [.regs, .tables, .recd, .act, .free]) (h_s : Keeps R b₀ s) : Keeps R b₀ (filterMeas s q) := by
  unfold filterMeas
  repeat' first
    | with_reducible assumption
    | (refine Allows.sub h_R ?_; decide)
    | with_reducible apply acceptMeas_keeps
    | with_reducible apply rejectMeas_keeps
    | with_reducible apply missResult_keeps
    | with_reducible apply storeResult_keeps
    | with_reducible apply Keeps.ite

theorem settleWindows_keeps {R : Part → Prop} {b₀ : State} (s : State) (h_R : Allows R [.regs, .tables, .recd, .act]) (h_s : Keeps R b₀ s) : Keeps R b₀ (settleWindows s) := by
  unfold settleWindows
  repeat' first
    | with_reducible assumption
    | (refine Allows.sub h_R ?_; decide)
    | with_reducible apply dropWindow_keeps
    | with_reducible apply closeWindow_keeps
    | with_reducible apply missResult_keeps
    | with_reducible apply storeResult_keeps
    | with_reducible apply Keeps.foldl
    | intro _ _ _
    | with_reducible apply Keeps.ite
    | extract_lets
    | split

theorem clearDrift_keeps {R : Part → Prop} {b₀ : State} (s : State) (h_R : Allows R [.act]) (h_s : Keeps R b₀ s) : Keeps R b₀ (clearDrift s) := by
  unfold clearDrift
  repeat' first
    | with_reducible assumption
    | with_reducible apply modLearn_keeps
    | with_reducible apply Keeps.foldl
    | intro _ _ _
    | with_reducible apply Keeps.ite

theorem actBoundary_keeps {R : Part → Prop} {b₀ : State} (s : State) (h_R : Allows R [.regs, .tables, .recd, .act, .free]) (h_s : Keeps R b₀ s) : Keeps R b₀ (actBoundary s) := by
  unfold actBoundary
  have r_act : R .act := h_R _ (by decide)
  repeat' first
    | with_reducible assumption
    | (refine Allows.sub h_R ?_; decide)
    | with_reducible apply clearDrift_keeps
    | with_reducible apply settleWindows_keeps
    | with_reducible apply filterMeas_keeps
    | with_reducible apply Keeps.foldl
    | intro _ _ _
    | with_reducible apply Keeps.ite
    | extract_lets
    | fail_if_no_progress (with_reducible refine Keeps.put_act r_act ?_)

theorem nodeResult_keeps {R : Part → Prop} {b₀ : State} (s : State) (c dir te res tm m at_ : Nat) (slot : Option (Nat × Nat)) (trail modul : Bool) (h_R : Allows R [.regs, .tables, .recd, .sch, .act]) (h_s : Keeps R b₀ s) : Keeps R b₀ (nodeResult s c dir te res tm m at_ slot trail modul) := by
  unfold nodeResult
  have r_act : R .act := h_R _ (by decide)
  repeat' first
    | with_reducible assumption
    | (refine Allows.sub h_R ?_; decide)
    | with_reducible apply placeMotion_keeps
    | with_reducible apply missResult_keeps
    | with_reducible apply storeResult_keeps
    | with_reducible apply Keeps.ite
    | extract_lets
    | fail_if_no_progress (with_reducible refine Keeps.put_act r_act ?_)

theorem dlyWrite_keeps {R : Part → Prop} {b₀ : State} (s : State) (c : Nat) (b : List Byte) (h_R : Allows R [.tables, .act]) (h_s : Keeps R b₀ s) : Keeps R b₀ (dlyWrite s c b) := by
  unfold dlyWrite
  repeat' first
    | with_reducible assumption
    | (refine Allows.sub h_R ?_; decide)
    | with_reducible apply captureRef_keeps
    | with_reducible apply setEstimate_keeps
    | with_reducible apply modLearn_keeps
    | with_reducible apply tput_keeps
    | with_reducible apply Keeps.foldl
    | intro _ _ _
    | with_reducible apply Keeps.ite

theorem motionReport_keeps {R : Part → Prop} {b₀ : State} (s : State) (c t0 : Nat) (l : List Nat) (h_R : Allows R [.regs, .tables, .recd, .sch, .act, .free]) (h_s : Keeps R b₀ s) : Keeps R b₀ (motionReport s c t0 l) := by
  unfold motionReport
  repeat' first
    | with_reducible assumption
    | (refine Allows.sub h_R ?_; decide)
    | with_reducible apply dropWindow_keeps
    | with_reducible apply tongsReport_keeps
    | with_reducible apply Keeps.ite
    | extract_lets
    | split

theorem execMotionReport_keeps {R : Part → Prop} {b₀ : State} (c t0 : Nat) (l : List Nat) (s : State) (h_R : Allows R [.regs, .tables, .recd, .sch, .act, .free]) (h_s : Keeps R b₀ s) : OKeeps R b₀ (execMotionReport c t0 l s) := by
  unfold execMotionReport
  repeat' first
    | with_reducible assumption
    | with_reducible apply motionReport_keeps
    | with_reducible apply OKeeps.answer

theorem clearAlarm_keeps {R : Part → Prop} {b₀ : State} (s : State) (c v : Nat) (h_R : Allows R [.regs, .tables]) (h_s : Keeps R b₀ s) : Keeps R b₀ (clearAlarm s c v) := by
  unfold clearAlarm
  repeat' first
    | with_reducible assumption
    | with_reducible apply setDlyFlags_keeps

theorem actReset_keeps {R : Part → Prop} {b₀ : State} (s : State) (h_R : Allows R [.regs, .tables, .act]) (h_s : Keeps R b₀ s) : Keeps R b₀ (actReset s) := by
  unfold actReset
  have r_act : R .act := h_R _ (by decide)
  repeat' first
    | with_reducible assumption
    | (refine Allows.sub h_R ?_; decide)
    | with_reducible apply tclear_keeps
    | with_reducible apply resetRegs_keeps
    | with_reducible apply Keeps.ite
    | extract_lets
    | fail_if_no_progress (with_reducible refine Keeps.put_act r_act ?_)

end Sys2Proof.Machine
end

