-- ==== Sys2Proof/Laws/KeepsDrv.lean ====
section
/-!
SUPPORT. Sys2Proof/Laws/KeepsDrv.lean: the operations of Machine/Drv.lean keep what `Keeps` names.
-/
namespace Sys2Proof.Machine

theorem modDrvCh_keeps {R : Part → Prop} {b₀ : State} (s : State) (c : Nat) (f : DrvCh → DrvCh) (h_R : Allows R [.drv]) (h_s : Keeps R b₀ s) : Keeps R b₀ (modDrvCh s c f) := by
  unfold modDrvCh
  have r_drv : R .drv := h_R _ (by decide)
  repeat' first
    | with_reducible assumption
    | with_reducible apply Keeps.ite
    | extract_lets
    | fail_if_no_progress (with_reducible refine Keeps.put_drv r_drv ?_)

theorem modDrvGrp_keeps {R : Part → Prop} {b₀ : State} (s : State) (g : Nat) (f : DrvGrp → DrvGrp) (h_R : Allows R [.regs, .drv]) (h_s : Keeps R b₀ s) : Keeps R b₀ (modDrvGrp s g f) := by
  unfold modDrvGrp
  have r_drv : R .drv := h_R _ (by decide)
  repeat' first
    | with_reducible assumption
    | (refine Allows.sub h_R ?_; decide)
    | with_reducible apply setB_keeps
    | with_reducible apply setF_keeps
    | with_reducible apply Keeps.ite
    | extract_lets
    | fail_if_no_progress (with_reducible refine Keeps.put_drv r_drv ?_)

theorem setDrvState_keeps {R : Part → Prop} {b₀ : State} (s : State) (c st : Nat) (h_R : Allows R [.regs]) (h_s : Keeps R b₀ s) : Keeps R b₀ (setDrvState s c st) := by
  unfold setDrvState
  repeat' first
    | with_reducible assumption
    | with_reducible apply setF_keeps
    | with_reducible apply Keeps.ite

theorem blockSlot_keeps {R : Part → Prop} {b₀ : State} (s : State) (slot : Option Nat) (h_R : Allows R [.sch]) (h_s : Keeps R b₀ s) : Keeps R b₀ (blockSlot s slot) := by
  unfold blockSlot
  repeat' first
    | with_reducible assumption
    | with_reducible apply modFlags_keeps
    | with_reducible apply Keeps.ite
    | extract_lets
    | split

theorem showGroups_keeps {R : Part → Prop} {b₀ : State} (s : State) (h_R : Allows R [.regs]) (h_s : Keeps R b₀ s) : Keeps R b₀ (showGroups s) := by
  unfold showGroups
  repeat' first
    | with_reducible assumption
    | with_reducible apply setB_keeps
    | with_reducible apply setF_keeps
    | with_reducible apply Keeps.foldl
    | intro _ _ _

theorem showValue_keeps {R : Part → Prop} {b₀ : State} (s : State) (c : Nat) (h_R : Allows R [.regs, .drv]) (h_s : Keeps R b₀ s) : Keeps R b₀ (showValue s c) := by
  unfold showValue
  repeat' first
    | with_reducible assumption
    | (refine Allows.sub h_R ?_; decide)
    | with_reducible apply modDrvCh_keeps
    | with_reducible apply setB_keeps
    | with_reducible apply setF_keeps

theorem setBase_keeps {R : Part → Prop} {b₀ : State} (s : State) (c v : Nat) (h_R : Allows R [.drv]) (h_s : Keeps R b₀ s) : Keeps R b₀ (setBase s c v) := by
  unfold setBase
  repeat' first
    | with_reducible assumption
    | with_reducible apply modDrvCh_keeps

theorem rateEdge_keeps {R : Part → Prop} {b₀ : State} (s : State) (e : Edge) (h_R : Allows R [.regs, .sch, .drv]) (h_s : Keeps R b₀ s) : Keeps R b₀ (rateEdge s e) := by
  unfold rateEdge
  repeat' first
    | with_reducible assumption
    | (refine Allows.sub h_R ?_; decide)
    | with_reducible apply showValue_keeps
    | with_reducible apply blockSlot_keeps
    | with_reducible apply modDrvCh_keeps
    | with_reducible apply Keeps.ite

theorem regrid_keeps {R : Part → Prop} {b₀ : State} (s : State) (c t : Nat) (h_R : Allows R [.drv]) (h_s : Keeps R b₀ s) : Keeps R b₀ (regrid s c t) := by
  unfold regrid
  repeat' first
    | with_reducible assumption
    | with_reducible apply modDrvCh_keeps
    | with_reducible apply Keeps.ite
    | extract_lets
    | split
    | intro _
    | fail_if_no_progress beta_reduce
    | dsimp +zetaDelta only

theorem gridBoundary_keeps {R : Part → Prop} {b₀ : State} (s : State) (c : Nat) (h_R : Allows R [.drv]) (h_s : Keeps R b₀ s) : Keeps R b₀ (gridBoundary s c) := by
  unfold gridBoundary
  repeat' first
    | with_reducible assumption
    | with_reducible apply regrid_keeps
    | with_reducible apply Keeps.ite

theorem rephase_keeps {R : Part → Prop} {b₀ : State} (s : State) (c φ : Nat) (h_R : Allows R [.drv]) (h_s : Keeps R b₀ s) : Keeps R b₀ (rephase s c φ) := by
  unfold rephase
  repeat' first
    | with_reducible assumption
    | with_reducible apply modDrvCh_keeps
    | with_reducible apply Keeps.ite
    | extract_lets
    | split
    | intro _
    | fail_if_no_progress beta_reduce
    | dsimp +zetaDelta only

theorem startPeak_keeps {R : Part → Prop} {b₀ : State} (s : State) (c t : Nat) (h_R : Allows R [.regs, .sys, .drv]) (h_s : Keeps R b₀ s) : Keeps R b₀ (startPeak s c t) := by
  unfold startPeak
  repeat' first
    | with_reducible assumption
    | (refine Allows.sub h_R ?_; decide)
    | with_reducible apply setDrvState_keeps
    | with_reducible apply modDrvGrp_keeps
    | with_reducible apply modDrvCh_keeps
    | with_reducible apply clearProt_keeps

theorem openAt_keeps {R : Part → Prop} {b₀ : State} (s : State) (e : Edge) (due t : Nat) (h_R : Allows R [.regs, .sys, .act, .drv]) (h_s : Keeps R b₀ s) : Keeps R b₀ (openAt s e due t) := by
  unfold openAt
  repeat' first
    | with_reducible assumption
    | (refine Allows.sub h_R ?_; decide)
    | with_reducible apply startPeak_keeps
    | with_reducible apply setDrvState_keeps
    | with_reducible apply modDrvCh_keeps
    | with_reducible apply pinEdge_keeps
    | with_reducible apply storeResult_keeps
    | with_reducible apply addSwing_keeps
    | with_reducible apply clearProt_keeps
    | with_reducible apply Keeps.ite
    | extract_lets
    | split

theorem pulseAt_keeps {R : Part → Prop} {b₀ : State} (s : State) (c t : Nat) (h_R : Allows R [.regs, .sys, .act, .drv]) (h_s : Keeps R b₀ s) : Keeps R b₀ (pulseAt s c t) := by
  unfold pulseAt
  repeat' first
    | with_reducible assumption
    | (refine Allows.sub h_R ?_; decide)
    | with_reducible apply startPeak_keeps
    | with_reducible apply modDrvCh_keeps
    | with_reducible apply pinEdge_keeps

theorem noteWait_keeps {R : Part → Prop} {b₀ : State} (s : State) (w : Waiting) (t : Nat) (h_R : Allows R [.regs]) (h_s : Keeps R b₀ s) : Keeps R b₀ (noteWait s w t) := by
  unfold noteWait
  repeat' first
    | with_reducible assumption
    | with_reducible apply bump_keeps
    | with_reducible apply setF_keeps
    | with_reducible apply Keeps.ite

theorem refire_keeps {R : Part → Prop} {b₀ : State} (s : State) (i : Option Nat) (t : Nat) (h_R : Allows R [.sch]) (h_s : Keeps R b₀ s) : Keeps R b₀ (refire s i t) := by
  unfold refire
  repeat' first
    | with_reducible assumption
    | with_reducible apply modSlotAt_keeps
    | with_reducible apply Keeps.ite
    | extract_lets
    | split

theorem grantNext_keeps {R : Part → Prop} {b₀ : State} (n : Nat) (s : State) (g t : Nat) (h_R : Allows R [.regs, .sys, .sch, .act, .drv]) (h_s : Keeps R b₀ s) : Keeps R b₀ (grantNext n s g t) := by
  induction n generalizing s with
  | zero => exact h_s
  | succ n ih =>
    unfold grantNext
    repeat' first
      | (refine Allows.sub h_R ?_; decide)
      | with_reducible assumption
      | with_reducible apply ih
      | with_reducible apply openAt_keeps
      | with_reducible apply pulseAt_keeps
      | with_reducible apply refire_keeps
      | with_reducible apply noteWait_keeps
      | with_reducible apply setDrvState_keeps
      | with_reducible apply modDrvCh_keeps
      | with_reducible apply modDrvGrp_keeps
      | with_reducible apply bump_keeps
      | extract_lets
      | split

theorem endPeak_keeps {R : Part → Prop} {b₀ : State} (s : State) (g stop next : Nat) (h_R : Allows R [.regs, .sys, .sch, .act, .drv]) (h_s : Keeps R b₀ s) : Keeps R b₀ (endPeak s g stop next) := by
  unfold endPeak
  repeat' first
    | with_reducible assumption
    | (refine Allows.sub h_R ?_; decide)
    | with_reducible apply grantNext_keeps
    | with_reducible apply modDrvGrp_keeps
    | with_reducible apply Keeps.ite
    | extract_lets
    | split

theorem peakExpires_keeps {R : Part → Prop} {b₀ : State} (s : State) (g : Nat) (h_R : Allows R [.regs, .sys, .sch, .act, .drv]) (h_s : Keeps R b₀ s) : Keeps R b₀ (peakExpires s g) := by
  unfold peakExpires
  repeat' first
    | with_reducible assumption
    | (refine Allows.sub h_R ?_; decide)
    | with_reducible apply endPeak_keeps
    | with_reducible apply setDrvState_keeps
    | with_reducible apply Keeps.ite
    | extract_lets
    | split

theorem settlePeaks_keeps {R : Part → Prop} {b₀ : State} (n : Nat) (s : State) (g t : Nat) (h_R : Allows R [.regs, .sys, .sch, .act, .drv]) (h_s : Keeps R b₀ s) : Keeps R b₀ (settlePeaks n s g t) := by
  induction n generalizing s with
  | zero => exact h_s
  | succ n ih =>
    unfold settlePeaks
    split
    · split
      · exact ih _ (peakExpires_keeps _ _ (h_R.sub (by decide)) h_s)
      · exact h_s
    · exact h_s

theorem waitPeak_keeps {R : Part → Prop} {b₀ : State} (s : State) (w : Waiting) (h_R : Allows R [.regs, .drv]) (h_s : Keeps R b₀ s) : Keeps R b₀ (waitPeak s w) := by
  unfold waitPeak
  repeat' first
    | with_reducible assumption
    | (refine Allows.sub h_R ?_; decide)
    | with_reducible apply setDrvState_keeps
    | with_reducible apply modDrvGrp_keeps

theorem idleGrant_keeps {R : Part → Prop} {b₀ : State} (s : State) (g t : Nat) (h_R : Allows R [.regs, .sys, .sch, .act, .drv]) (h_s : Keeps R b₀ s) : Keeps R b₀ (idleGrant s g t) := by
  unfold idleGrant
  repeat' first
    | with_reducible assumption
    | with_reducible apply grantNext_keeps
    | with_reducible apply Keeps.ite
    | extract_lets
    | split

theorem dropWaiting_keeps {R : Part → Prop} {b₀ : State} (s : State) (c : Nat) (h_R : Allows R [.regs, .drv]) (h_s : Keeps R b₀ s) : Keeps R b₀ (dropWaiting s c) := by
  unfold dropWaiting
  repeat' first
    | with_reducible assumption
    | with_reducible apply modDrvGrp_keeps

theorem stillEdge_keeps {R : Part → Prop} {b₀ : State} (s : State) (e : Edge) (h_R : Allows R [.regs, .sys, .sch, .act, .drv]) (h_s : Keeps R b₀ s) : Keeps R b₀ (stillEdge s e) := by
  unfold stillEdge
  repeat' first
    | with_reducible assumption
    | (refine Allows.sub h_R ?_; decide)
    | with_reducible apply idleGrant_keeps
    | with_reducible apply storeResult_keeps

theorem openEdge_keeps {R : Part → Prop} {b₀ : State} (s : State) (e : Edge) (h_R : Allows R [.regs, .sys, .sch, .act, .drv]) (h_s : Keeps R b₀ s) : Keeps R b₀ (openEdge s e) := by
  unfold openEdge
  repeat' first
    | with_reducible assumption
    | (refine Allows.sub h_R ?_; decide)
    | with_reducible apply stillEdge_keeps
    | with_reducible apply idleGrant_keeps
    | with_reducible apply waitPeak_keeps
    | with_reducible apply settlePeaks_keeps
    | with_reducible apply openAt_keeps
    | with_reducible apply blockSlot_keeps
    | with_reducible apply setProt_keeps
    | with_reducible apply noteIssued_keeps
    | with_reducible apply setB_keeps
    | with_reducible apply Keeps.ite

theorem releaseAt_keeps {R : Part → Prop} {b₀ : State} (s : State) (c t next : Nat) (sense : Bool) (h_R : Allows R [.regs, .sys, .sch, .act, .drv]) (h_s : Keeps R b₀ s) : Keeps R b₀ (releaseAt s c t next sense) := by
  unfold releaseAt
  repeat' first
    | with_reducible assumption
    | (refine Allows.sub h_R ?_; decide)
    | with_reducible apply endPeak_keeps
    | with_reducible apply setDrvState_keeps
    | with_reducible apply modDrvCh_keeps
    | with_reducible apply Keeps.ite
    | extract_lets
    | split

theorem closeEdge_keeps {R : Part → Prop} {b₀ : State} (s : State) (e : Edge) (h_R : Allows R [.regs, .sys, .sch, .act, .drv]) (h_s : Keeps R b₀ s) : Keeps R b₀ (closeEdge s e) := by
  unfold closeEdge
  repeat' first
    | with_reducible assumption
    | (refine Allows.sub h_R ?_; decide)
    | with_reducible apply releaseAt_keeps
    | with_reducible apply dropWaiting_keeps
    | with_reducible apply settlePeaks_keeps
    | with_reducible apply blockSlot_keeps
    | with_reducible apply setDrvState_keeps
    | with_reducible apply modDrvCh_keeps
    | with_reducible apply pinEdge_keeps
    | with_reducible apply storeResult_keeps
    | with_reducible apply addSwing_keeps
    | with_reducible apply noteIssued_keeps
    | with_reducible apply modFlags_keeps
    | with_reducible apply Keeps.ite
    | extract_lets
    | split

theorem takeEdge_keeps {R : Part → Prop} {b₀ : State} (s : State) (e : Edge) (h_R : Allows R [.sch]) (h_s : Keeps R b₀ s) : Keeps R b₀ (takeEdge s e) := by
  unfold takeEdge
  have r_sch : R .sch := h_R _ (by decide)
  repeat' first
    | with_reducible assumption
    | with_reducible apply Keeps.ite
    | extract_lets
    | fail_if_no_progress (with_reducible refine Keeps.put_sch r_sch ?_)

theorem fireEdge_keeps {R : Part → Prop} {b₀ : State} (s : State) (c : Nat) (h_R : Allows R [.regs, .sys, .sch, .act, .drv]) (h_s : Keeps R b₀ s) : Keeps R b₀ (fireEdge s c) := by
  unfold fireEdge
  repeat' first
    | with_reducible assumption
    | (refine Allows.sub h_R ?_; decide)
    | with_reducible apply takeEdge_keeps
    | with_reducible apply closeEdge_keeps
    | with_reducible apply openEdge_keeps
    | with_reducible apply rateEdge_keeps
    | with_reducible apply Keeps.ite
    | extract_lets
    | split

theorem execEdgeFire_keeps {R : Part → Prop} {b₀ : State} (c : Nat) (s : State) (h_R : Allows R [.regs, .sys, .sch, .act, .drv]) (h_s : Keeps R b₀ s) : OKeeps R b₀ (execEdgeFire c s) := by
  unfold execEdgeFire
  repeat' first
    | with_reducible assumption
    | with_reducible apply fireEdge_keeps
    | with_reducible apply OKeeps.answer

theorem peakReached_keeps {R : Part → Prop} {b₀ : State} (s : State) (c t t0 : Nat) (l : List Nat) (h_R : Allows R [.regs, .tables, .recd, .act]) (h_s : Keeps R b₀ s) : Keeps R b₀ (peakReached s c t t0 l) := by
  unfold peakReached
  repeat' first
    | with_reducible assumption
    | (refine Allows.sub h_R ?_; decide)
    | with_reducible apply closeWindow_keeps
    | with_reducible apply setWin_keeps
    | with_reducible apply Keeps.ite
    | extract_lets
    | split

theorem execPeakCurrentReached_keeps {R : Part → Prop} {b₀ : State} (c t t0 : Nat) (l : List Nat) (s : State) (h_R : Allows R [.regs, .tables, .recd, .act]) (h_s : Keeps R b₀ s) : OKeeps R b₀ (execPeakCurrentReached c t t0 l s) := by
  unfold execPeakCurrentReached
  repeat' first
    | with_reducible assumption
    | with_reducible apply peakReached_keeps
    | with_reducible apply OKeeps.answer

theorem execPeakEnd_keeps {R : Part → Prop} {b₀ : State} (g : Nat) (s : State) (h_R : Allows R [.regs, .sys, .sch, .act, .drv]) (h_s : Keeps R b₀ s) : OKeeps R b₀ (execPeakEnd g s) := by
  unfold execPeakEnd
  repeat' first
    | with_reducible assumption
    | with_reducible apply peakExpires_keeps
    | with_reducible apply OKeeps.answer

theorem pinFall_keeps {R : Part → Prop} {b₀ : State} (s : State) (c t : Nat) (h_R : Allows R [.regs, .sys, .sch, .act, .drv]) (h_s : Keeps R b₀ s) : Keeps R b₀ (pinFall s c t) := by
  unfold pinFall
  repeat' first
    | with_reducible assumption
    | (refine Allows.sub h_R ?_; decide)
    | with_reducible apply endPeak_keeps
    | with_reducible apply setDrvState_keeps
    | with_reducible apply modDrvCh_keeps
    | with_reducible apply pinEdge_keeps
    | with_reducible apply Keeps.ite
    | extract_lets
    | split

theorem omitWaiting_keeps {R : Part → Prop} {b₀ : State} (s : State) (c t : Nat) (h_R : Allows R [.regs, .drv]) (h_s : Keeps R b₀ s) : Keeps R b₀ (omitWaiting s c t) := by
  unfold omitWaiting
  repeat' first
    | with_reducible assumption
    | (refine Allows.sub h_R ?_; decide)
    | with_reducible apply dropWaiting_keeps
    | with_reducible apply modDrvCh_keeps
    | with_reducible apply bump_keeps
    | with_reducible apply Keeps.ite
    | extract_lets
    | split

theorem gridRiseEdge_keeps {R : Part → Prop} {b₀ : State} (s : State) (c : Nat) (h_R : Allows R [.regs, .sys, .sch, .act, .drv]) (h_s : Keeps R b₀ s) : Keeps R b₀ (gridRiseEdge s c) := by
  unfold gridRiseEdge
  repeat' first
    | with_reducible assumption
    | (refine Allows.sub h_R ?_; decide)
    | with_reducible apply omitWaiting_keeps
    | with_reducible apply pinFall_keeps
    | with_reducible apply idleGrant_keeps
    | with_reducible apply waitPeak_keeps
    | with_reducible apply settlePeaks_keeps
    | with_reducible apply pulseAt_keeps
    | with_reducible apply modDrvCh_keeps
    | with_reducible apply Keeps.ite
    | extract_lets
    | split

theorem execGridRise_keeps {R : Part → Prop} {b₀ : State} (c : Nat) (s : State) (h_R : Allows R [.regs, .sys, .sch, .act, .drv]) (h_s : Keeps R b₀ s) : OKeeps R b₀ (execGridRise c s) := by
  unfold execGridRise
  repeat' first
    | with_reducible assumption
    | with_reducible apply gridRiseEdge_keeps
    | with_reducible apply OKeeps.answer
    | with_reducible apply OKeeps.next
    | extract_lets
    | split

theorem pulseFall_keeps {R : Part → Prop} {b₀ : State} (s : State) (c : Nat) (h_R : Allows R [.regs, .sys, .sch, .act, .drv]) (h_s : Keeps R b₀ s) : Keeps R b₀ (pulseFall s c) := by
  unfold pulseFall
  repeat' first
    | with_reducible assumption
    | (refine Allows.sub h_R ?_; decide)
    | with_reducible apply pinFall_keeps
    | with_reducible apply modDrvCh_keeps
    | with_reducible apply Keeps.ite
    | extract_lets
    | split

theorem execPulseFall_keeps {R : Part → Prop} {b₀ : State} (c : Nat) (s : State) (h_R : Allows R [.regs, .sys, .sch, .act, .drv]) (h_s : Keeps R b₀ s) : OKeeps R b₀ (execPulseFall c s) := by
  unfold execPulseFall
  repeat' first
    | with_reducible assumption
    | with_reducible apply pulseFall_keeps
    | with_reducible apply OKeeps.answer
    | with_reducible apply OKeeps.next
    | extract_lets
    | split

theorem endSensed_keeps {R : Part → Prop} {b₀ : State} (s : State) (c : Nat) (h_R : Allows R [.regs, .drv]) (h_s : Keeps R b₀ s) : Keeps R b₀ (endSensed s c) := by
  unfold endSensed
  repeat' first
    | with_reducible assumption
    | (refine Allows.sub h_R ?_; decide)
    | with_reducible apply setDrvState_keeps
    | with_reducible apply modDrvCh_keeps
    | with_reducible apply Keeps.ite

theorem execSensedReleaseEnd_keeps {R : Part → Prop} {b₀ : State} (c : Nat) (s : State) (h_R : Allows R [.regs, .drv]) (h_s : Keeps R b₀ s) : OKeeps R b₀ (execSensedReleaseEnd c s) := by
  unfold execSensedReleaseEnd
  repeat' first
    | with_reducible assumption
    | with_reducible apply endSensed_keeps
    | with_reducible apply OKeeps.answer

theorem windowEnds_keeps {R : Part → Prop} {b₀ : State} (s : State) (c t0 : Nat) (l : List Nat) (h_R : Allows R [.regs, .tables, .recd, .act, .drv]) (h_s : Keeps R b₀ s) : Keeps R b₀ (windowEnds s c t0 l) := by
  unfold windowEnds
  repeat' first
    | with_reducible assumption
    | (refine Allows.sub h_R ?_; decide)
    | with_reducible apply endSensed_keeps
    | with_reducible apply closeWindow_keeps
    | with_reducible apply Keeps.ite
    | extract_lets
    | split

theorem execWindowClose_keeps {R : Part → Prop} {b₀ : State} (c t0 : Nat) (l : List Nat) (s : State) (h_R : Allows R [.regs, .tables, .recd, .act, .drv]) (h_s : Keeps R b₀ s) : OKeeps R b₀ (execWindowClose c t0 l s) := by
  unfold execWindowClose
  repeat' first
    | with_reducible assumption
    | with_reducible apply windowEnds_keeps
    | with_reducible apply OKeeps.answer

theorem shutChannel_keeps {R : Part → Prop} {b₀ : State} (s : State) (t c : Nat) (h_R : Allows R [.regs, .sys, .sch, .act, .drv]) (h_s : Keeps R b₀ s) : Keeps R b₀ (shutChannel s t c) := by
  unfold shutChannel
  repeat' first
    | with_reducible assumption
    | (refine Allows.sub h_R ?_; decide)
    | with_reducible apply releaseAt_keeps
    | with_reducible apply dropWaiting_keeps
    | with_reducible apply blockSlot_keeps
    | with_reducible apply setDrvState_keeps
    | with_reducible apply modDrvCh_keeps
    | with_reducible apply cutWindow_keeps
    | with_reducible apply storeResult_keeps
    | with_reducible apply addSwing_keeps
    | with_reducible apply Keeps.ite
    | extract_lets
    | split

theorem offChannel_keeps {R : Part → Prop} {b₀ : State} (s : State) (k t : Nat) (c : Nat) (h_R : Allows R [.regs, .sys, .sch, .act, .drv]) (h_s : Keeps R b₀ s) : Keeps R b₀ (offChannel s k t c) := by
  unfold offChannel
  repeat' first
    | with_reducible assumption
    | (refine Allows.sub h_R ?_; decide)
    | with_reducible apply shutChannel_keeps
    | with_reducible apply setProt_keeps

theorem protOff_keeps {R : Part → Prop} {b₀ : State} (s : State) (k t c : Nat) (h_R : Allows R [.regs, .sys, .sch, .act, .drv]) (h_s : Keeps R b₀ s) : Keeps R b₀ (protOff s k t c) := by
  unfold protOff
  repeat' first
    | with_reducible assumption
    | with_reducible apply offChannel_keeps
    | with_reducible apply Keeps.ite

theorem setChFlag_keeps {R : Part → Prop} {b₀ : State} (s : State) (c k : Nat) (h_R : Allows R [.regs, .recd]) (h_s : Keeps R b₀ s) : Keeps R b₀ (setChFlag s c k) := by
  unfold setChFlag
  repeat' first
    | with_reducible assumption
    | (refine Allows.sub h_R ?_; decide)
    | with_reducible apply record_keeps
    | with_reducible apply wr_keeps
    | with_reducible apply Keeps.ite

theorem setGrpFlag_keeps {R : Part → Prop} {b₀ : State} (s : State) (g k : Nat) (h_R : Allows R [.regs, .recd]) (h_s : Keeps R b₀ s) : Keeps R b₀ (setGrpFlag s g k) := by
  unfold setGrpFlag
  repeat' first
    | with_reducible assumption
    | (refine Allows.sub h_R ?_; decide)
    | with_reducible apply record_keeps
    | with_reducible apply wr_keeps
    | with_reducible apply Keeps.ite

theorem holdCh_keeps {R : Part → Prop} {b₀ : State} (s : State) (c k : Nat) (b : Bool) (h_R : Allows R [.drv]) (h_s : Keeps R b₀ s) : Keeps R b₀ (holdCh s c k b) := by
  unfold holdCh
  have r_drv : R .drv := h_R _ (by decide)
  repeat' first
    | with_reducible assumption
    | with_reducible apply Keeps.ite
    | extract_lets
    | fail_if_no_progress (with_reducible refine Keeps.put_drv r_drv ?_)

theorem holdGrp_keeps {R : Part → Prop} {b₀ : State} (s : State) (g k : Nat) (b : Bool) (h_R : Allows R [.regs, .drv]) (h_s : Keeps R b₀ s) : Keeps R b₀ (holdGrp s g k b) := by
  unfold holdGrp
  have r_drv : R .drv := h_R _ (by decide)
  repeat' first
    | with_reducible assumption
    | (refine Allows.sub h_R ?_; decide)
    | with_reducible apply showGroups_keeps
    | with_reducible apply Keeps.ite
    | extract_lets
    | fail_if_no_progress (with_reducible refine Keeps.put_drv r_drv ?_)

theorem condCh_keeps {R : Part → Prop} {b₀ : State} (s : State) (c k : Nat) (b : Bool) (h_R : Allows R [.drv]) (h_s : Keeps R b₀ s) : Keeps R b₀ (condCh s c k b) := by
  unfold condCh
  have r_drv : R .drv := h_R _ (by decide)
  repeat' first
    | with_reducible assumption
    | with_reducible apply Keeps.ite
    | extract_lets
    | fail_if_no_progress (with_reducible refine Keeps.put_drv r_drv ?_)

theorem condGrp_keeps {R : Part → Prop} {b₀ : State} (s : State) (g k : Nat) (b : Bool) (h_R : Allows R [.drv]) (h_s : Keeps R b₀ s) : Keeps R b₀ (condGrp s g k b) := by
  unfold condGrp
  have r_drv : R .drv := h_R _ (by decide)
  repeat' first
    | with_reducible assumption
    | with_reducible apply Keeps.ite
    | extract_lets
    | fail_if_no_progress (with_reducible refine Keeps.put_drv r_drv ?_)

theorem chTrip_keeps {R : Part → Prop} {b₀ : State} (s : State) (c k t : Nat) (cnt : Field) (h_R : Allows R [.regs, .sys, .recd, .sch, .act, .drv]) (h_s : Keeps R b₀ s) : Keeps R b₀ (chTrip s c k t cnt) := by
  unfold chTrip
  repeat' first
    | with_reducible assumption
    | (refine Allows.sub h_R ?_; decide)
    | with_reducible apply holdCh_keeps
    | with_reducible apply setChFlag_keeps
    | with_reducible apply protOff_keeps
    | with_reducible apply bump_keeps
    | with_reducible apply Keeps.ite

theorem blockQueue_keeps {R : Part → Prop} {b₀ : State} (s : State) (g : Nat) (h_R : Allows R [.regs, .sch, .act, .drv]) (h_s : Keeps R b₀ s) : Keeps R b₀ (blockQueue s g) := by
  unfold blockQueue
  repeat' first
    | with_reducible assumption
    | (refine Allows.sub h_R ?_; decide)
    | with_reducible apply blockSlot_keeps
    | with_reducible apply setDrvState_keeps
    | with_reducible apply modDrvGrp_keeps
    | with_reducible apply storeResult_keeps
    | with_reducible apply Keeps.foldl
    | intro _ _ _

theorem grpProtect_keeps {R : Part → Prop} {b₀ : State} (s : State) (g k t : Nat) (cnt : Field) (h_R : Allows R [.regs, .sys, .recd, .sch, .act, .drv]) (h_s : Keeps R b₀ s) : Keeps R b₀ (grpProtect s g k t cnt) := by
  unfold grpProtect
  repeat' first
    | with_reducible assumption
    | (refine Allows.sub h_R ?_; decide)
    | with_reducible apply blockQueue_keeps
    | with_reducible apply holdGrp_keeps
    | with_reducible apply setGrpFlag_keeps
    | with_reducible apply offChannel_keeps
    | with_reducible apply bump_keeps
    | with_reducible apply Keeps.foldl
    | intro _ _ _

theorem execOpenLoadOn_keeps {R : Part → Prop} {b₀ : State} (c t : Nat) (s : State) (h_R : Allows R [.regs, .sys, .recd, .sch, .act, .drv]) (h_s : Keeps R b₀ s) : OKeeps R b₀ (execOpenLoadOn c t s) := by
  unfold execOpenLoadOn
  repeat' first
    | with_reducible assumption
    | (refine Allows.sub h_R ?_; decide)
    | with_reducible apply chTrip_keeps
    | with_reducible apply condCh_keeps
    | with_reducible apply OKeeps.answer
    | with_reducible apply OKeeps.next
    | extract_lets
    | split

theorem execOpenLoadOff_keeps {R : Part → Prop} {b₀ : State} (c : Nat) (s : State) (h_R : Allows R [.regs, .recd, .drv]) (h_s : Keeps R b₀ s) : OKeeps R b₀ (execOpenLoadOff c s) := by
  unfold execOpenLoadOff
  repeat' first
    | with_reducible assumption
    | (refine Allows.sub h_R ?_; decide)
    | with_reducible apply condCh_keeps
    | with_reducible apply setChFlag_keeps
    | with_reducible apply OKeeps.answer
    | with_reducible apply OKeeps.next
    | extract_lets
    | split

theorem execLsOvercurrent_keeps {R : Part → Prop} {b₀ : State} (c t : Nat) (s : State) (h_R : Allows R [.regs, .sys, .recd, .sch, .act, .drv]) (h_s : Keeps R b₀ s) : OKeeps R b₀ (execLsOvercurrent c t s) := by
  unfold execLsOvercurrent
  repeat' first
    | with_reducible assumption
    | (refine Allows.sub h_R ?_; decide)
    | with_reducible apply chTrip_keeps
    | with_reducible apply condCh_keeps
    | with_reducible apply OKeeps.answer
    | with_reducible apply OKeeps.next
    | extract_lets
    | split

theorem execShortToGround_keeps {R : Part → Prop} {b₀ : State} (c t : Nat) (s : State) (h_R : Allows R [.regs, .sys, .recd, .sch, .act, .drv]) (h_s : Keeps R b₀ s) : OKeeps R b₀ (execShortToGround c t s) := by
  unfold execShortToGround
  repeat' first
    | with_reducible assumption
    | (refine Allows.sub h_R ?_; decide)
    | with_reducible apply grpProtect_keeps
    | with_reducible apply condGrp_keeps
    | with_reducible apply condCh_keeps
    | with_reducible apply setChFlag_keeps
    | with_reducible apply OKeeps.answer
    | with_reducible apply OKeeps.next
    | extract_lets
    | split

theorem execHsOvercurrent_keeps {R : Part → Prop} {b₀ : State} (g t : Nat) (s : State) (h_R : Allows R [.regs, .sys, .recd, .sch, .act, .drv]) (h_s : Keeps R b₀ s) : OKeeps R b₀ (execHsOvercurrent g t s) := by
  unfold execHsOvercurrent
  repeat' first
    | with_reducible assumption
    | (refine Allows.sub h_R ?_; decide)
    | with_reducible apply grpProtect_keeps
    | with_reducible apply condGrp_keeps
    | with_reducible apply OKeeps.answer
    | with_reducible apply OKeeps.next
    | extract_lets
    | split

theorem execChOvertemp_keeps {R : Part → Prop} {b₀ : State} (c t : Nat) (s : State) (h_R : Allows R [.regs, .sys, .recd, .sch, .act, .drv]) (h_s : Keeps R b₀ s) : OKeeps R b₀ (execChOvertemp c t s) := by
  unfold execChOvertemp
  repeat' first
    | with_reducible assumption
    | (refine Allows.sub h_R ?_; decide)
    | with_reducible apply chTrip_keeps
    | with_reducible apply condCh_keeps
    | with_reducible apply OKeeps.answer
    | with_reducible apply OKeeps.next
    | extract_lets
    | split

theorem execTempWarning_keeps {R : Part → Prop} {b₀ : State} (c : Nat) (s : State) (h_R : Allows R [.regs, .recd]) (h_s : Keeps R b₀ s) : OKeeps R b₀ (execTempWarning c s) := by
  unfold execTempWarning
  repeat' first
    | with_reducible assumption
    | with_reducible apply setChFlag_keeps
    | with_reducible apply OKeeps.answer

theorem execHsOvertemp_keeps {R : Part → Prop} {b₀ : State} (g t : Nat) (s : State) (h_R : Allows R [.regs, .sys, .recd, .sch, .act, .drv]) (h_s : Keeps R b₀ s) : OKeeps R b₀ (execHsOvertemp g t s) := by
  unfold execHsOvertemp
  repeat' first
    | with_reducible assumption
    | (refine Allows.sub h_R ?_; decide)
    | with_reducible apply grpProtect_keeps
    | with_reducible apply condGrp_keeps
    | with_reducible apply OKeeps.answer
    | with_reducible apply OKeeps.next
    | extract_lets
    | split

theorem execGroupUndervoltage_keeps {R : Part → Prop} {b₀ : State} (g t : Nat) (s : State) (h_R : Allows R [.regs, .sys, .recd, .sch, .act, .drv]) (h_s : Keeps R b₀ s) : OKeeps R b₀ (execGroupUndervoltage g t s) := by
  unfold execGroupUndervoltage
  repeat' first
    | with_reducible assumption
    | (refine Allows.sub h_R ?_; decide)
    | with_reducible apply grpProtect_keeps
    | with_reducible apply condGrp_keeps
    | with_reducible apply setB_keeps
    | with_reducible apply OKeeps.answer
    | with_reducible apply OKeeps.next
    | extract_lets
    | split

theorem execGroupOvervoltage_keeps {R : Part → Prop} {b₀ : State} (g t : Nat) (s : State) (h_R : Allows R [.regs, .sys, .recd, .sch, .act, .drv]) (h_s : Keeps R b₀ s) : OKeeps R b₀ (execGroupOvervoltage g t s) := by
  unfold execGroupOvervoltage
  repeat' first
    | with_reducible assumption
    | (refine Allows.sub h_R ?_; decide)
    | with_reducible apply grpProtect_keeps
    | with_reducible apply condGrp_keeps
    | with_reducible apply setB_keeps
    | with_reducible apply OKeeps.answer
    | with_reducible apply OKeeps.next
    | extract_lets
    | split

theorem protectionClears_keeps {R : Part → Prop} {b₀ : State} (s : State) (grp : Bool) (n k : Nat) (h_R : Allows R [.regs, .drv]) (h_s : Keeps R b₀ s) : Keeps R b₀ (protectionClears s grp n k) := by
  unfold protectionClears
  repeat' first
    | with_reducible assumption
    | (refine Allows.sub h_R ?_; decide)
    | with_reducible apply condGrp_keeps
    | with_reducible apply condCh_keeps
    | with_reducible apply holdGrp_keeps
    | with_reducible apply holdCh_keeps
    | with_reducible apply setB_keeps
    | with_reducible apply Keeps.ite

theorem execAutoProtectionRelease_keeps {R : Part → Prop} {b₀ : State} (grp : Bool) (n k : Nat) (s : State) (h_R : Allows R [.regs, .drv]) (h_s : Keeps R b₀ s) : OKeeps R b₀ (execAutoProtectionRelease grp n k s) := by
  unfold execAutoProtectionRelease
  repeat' first
    | with_reducible assumption
    | with_reducible apply protectionClears_keeps
    | with_reducible apply OKeeps.answer

theorem clearChFlags_keeps {R : Part → Prop} {b₀ : State} (s : State) (c v : Nat) (h_R : Allows R [.regs, .recd, .drv]) (h_s : Keeps R b₀ s) : Keeps R b₀ (clearChFlags s c v) := by
  unfold clearChFlags
  repeat' first
    | with_reducible assumption
    | (refine Allows.sub h_R ?_; decide)
    | with_reducible apply holdCh_keeps
    | with_reducible apply setChFlag_keeps
    | with_reducible apply wr_keeps
    | with_reducible apply Keeps.foldl
    | intro _ _ _
    | with_reducible apply Keeps.ite

theorem clearGrpFlags_keeps {R : Part → Prop} {b₀ : State} (s : State) (g v : Nat) (h_R : Allows R [.regs, .recd, .drv]) (h_s : Keeps R b₀ s) : Keeps R b₀ (clearGrpFlags s g v) := by
  unfold clearGrpFlags
  repeat' first
    | with_reducible assumption
    | (refine Allows.sub h_R ?_; decide)
    | with_reducible apply holdGrp_keeps
    | with_reducible apply setGrpFlag_keeps
    | with_reducible apply wr_keeps
    | with_reducible apply Keeps.foldl
    | intro _ _ _
    | with_reducible apply Keeps.ite

theorem forceDrv_keeps {R : Part → Prop} {b₀ : State} (s : State) (k t : Nat) (h_R : Allows R [.regs, .sys, .sch, .act, .drv]) (h_s : Keeps R b₀ s) : Keeps R b₀ (forceDrv s k t) := by
  unfold forceDrv
  repeat' first
    | with_reducible assumption
    | (refine Allows.sub h_R ?_; decide)
    | with_reducible apply blockQueue_keeps
    | with_reducible apply offChannel_keeps
    | with_reducible apply showGroups_keeps
    | with_reducible apply bump_keeps
    | with_reducible apply setB_keeps
    | with_reducible apply Keeps.foldl
    | intro _ _ _

theorem showForced_keeps {R : Part → Prop} {b₀ : State} (s : State) (h_R : Allows R [.regs]) (h_s : Keeps R b₀ s) : Keeps R b₀ (showForced s) := by
  unfold showForced
  repeat' first
    | with_reducible assumption
    | with_reducible apply setB_keeps
    | with_reducible apply Keeps.ite

theorem recommandOne_keeps {R : Part → Prop} {b₀ : State} (s : State) (c : Nat) (h_R : Allows R [.regs, .sys]) (h_s : Keeps R b₀ s) : Keeps R b₀ (recommandOne s c) := by
  unfold recommandOne
  repeat' first
    | with_reducible assumption
    | (refine Allows.sub h_R ?_; decide)
    | with_reducible apply showForced_keeps
    | with_reducible apply clearProt_keeps
    | with_reducible apply setB_keeps
    | with_reducible apply Keeps.ite

theorem recommandLocal_keeps {R : Part → Prop} {b₀ : State} (s : State) (c : Nat) (h_R : Allows R [.regs, .sys]) (h_s : Keeps R b₀ s) : Keeps R b₀ (recommandLocal s c) := by
  unfold recommandLocal
  repeat' first
    | with_reducible assumption
    | with_reducible apply recommandOne_keeps
    | with_reducible apply Keeps.ite

theorem handEdge_keeps {R : Part → Prop} {b₀ : State} (s : State) (e : Edge) (h_R : Allows R [.sch]) (h_s : Keeps R b₀ s) : Keeps R b₀ (handEdge s e) := by
  unfold handEdge
  have r_sch : R .sch := h_R _ (by decide)
  repeat' first
    | with_reducible assumption
    | with_reducible apply Keeps.ite
    | extract_lets
    | fail_if_no_progress (with_reducible refine Keeps.put_sch r_sch ?_)

theorem resumeLocal_keeps {R : Part → Prop} {b₀ : State} (s : State) (c : Nat) (h_R : Allows R [.regs, .sys, .sch]) (h_s : Keeps R b₀ s) : Keeps R b₀ (resumeLocal s c) := by
  unfold resumeLocal
  repeat' first
    | with_reducible assumption
    | (refine Allows.sub h_R ?_; decide)
    | with_reducible apply handEdge_keeps
    | with_reducible apply recommandLocal_keeps
    | with_reducible apply Keeps.ite

theorem modeEffect_keeps {R : Part → Prop} {b₀ : State} (s : State) (c old : Nat) (h_R : Allows R [.drv]) (h_s : Keeps R b₀ s) : Keeps R b₀ (modeEffect s c old) := by
  unfold modeEffect
  repeat' first
    | with_reducible assumption
    | with_reducible apply regrid_keeps
    | with_reducible apply Keeps.ite

theorem pairEffect_keeps {R : Part → Prop} {b₀ : State} (s : State) (c : Nat) (h_R : Allows R [.regs]) (h_s : Keeps R b₀ s) : Keeps R b₀ (pairEffect s c) := by
  unfold pairEffect
  repeat' first
    | with_reducible assumption
    | with_reducible apply setB_keeps

theorem showSum_keeps {R : Part → Prop} {b₀ : State} (s : State) (x : DrvSum) (h_R : Allows R [.regs]) (h_s : Keeps R b₀ s) : Keeps R b₀ (showSum s x) := by
  unfold showSum
  repeat' first
    | with_reducible assumption
    | with_reducible apply setF_keeps
    | with_reducible apply Keeps.ite

theorem execKettleTick_keeps {R : Part → Prop} {b₀ : State} (l : List DrvSum) (s : State) (h_R : Allows R [.regs, .drv]) (h_s : Keeps R b₀ s) : OKeeps R b₀ (execKettleTick l s) := by
  unfold execKettleTick
  have r_drv : R .drv := h_R _ (by decide)
  repeat' first
    | with_reducible assumption
    | (refine Allows.sub h_R ?_; decide)
    | with_reducible apply showSum_keeps
    | with_reducible apply setF_keeps
    | with_reducible apply Keeps.foldl
    | intro _ _ _
    | with_reducible apply OKeeps.answer
    | with_reducible apply OKeeps.next
    | extract_lets
    | fail_if_no_progress (with_reducible refine Keeps.put_drv r_drv ?_)

theorem showClasses_keeps {R : Part → Prop} {b₀ : State} (s : State) (h_R : Allows R [.regs]) (h_s : Keeps R b₀ s) : Keeps R b₀ (showClasses s) := by
  unfold showClasses
  repeat' first
    | with_reducible assumption
    | with_reducible apply setB_keeps
    | with_reducible apply setF_keeps
    | with_reducible apply Keeps.foldl
    | intro _ _ _

theorem showStagger_keeps {R : Part → Prop} {b₀ : State} (s : State) (h_R : Allows R [.regs]) (h_s : Keeps R b₀ s) : Keeps R b₀ (showStagger s) := by
  unfold showStagger
  repeat' first
    | with_reducible assumption
    | with_reducible apply setB_keeps
    | with_reducible apply Keeps.foldl
    | intro _ _ _

theorem applyStagger_keeps {R : Part → Prop} {b₀ : State} (s : State) (h_R : Allows R [.regs, .drv]) (h_s : Keeps R b₀ s) : Keeps R b₀ (applyStagger s) := by
  unfold applyStagger
  repeat' first
    | with_reducible assumption
    | (refine Allows.sub h_R ?_; decide)
    | with_reducible apply showStagger_keeps
    | with_reducible apply rephase_keeps
    | with_reducible apply Keeps.foldl
    | intro _ _ _
    | with_reducible apply Keeps.ite

theorem classOff_keeps {R : Part → Prop} {b₀ : State} (s : State) (p t : Nat) (h_R : Allows R [.regs, .sys, .sch, .act, .drv]) (h_s : Keeps R b₀ s) : Keeps R b₀ (classOff s p t) := by
  unfold classOff
  repeat' first
    | with_reducible assumption
    | (refine Allows.sub h_R ?_; decide)
    | with_reducible apply offChannel_keeps
    | with_reducible apply bump_keeps
    | with_reducible apply setB_keeps
    | with_reducible apply Keeps.foldl
    | intro _ _ _

theorem adjustLimits_keeps {R : Part → Prop} {b₀ : State} (s : State) (pf b t : Nat) (h_R : Allows R [.regs, .sys, .sch, .act, .drv]) (h_s : Keeps R b₀ s) : Keeps R b₀ (adjustLimits s pf b t) := by
  unfold adjustLimits
  repeat' first
    | with_reducible assumption
    | (refine Allows.sub h_R ?_; decide)
    | with_reducible apply classOff_keeps
    | with_reducible apply setF_keeps
    | with_reducible apply Keeps.ite
    | extract_lets
    | split

theorem kettleEval_keeps {R : Part → Prop} {b₀ : State} (s : State) (t : Nat) (h_R : Allows R [.regs, .sys, .recd, .sch, .act, .drv]) (h_s : Keeps R b₀ s) : Keeps R b₀ (kettleEval s t) := by
  unfold kettleEval
  have r_drv : R .drv := h_R _ (by decide)
  repeat' first
    | with_reducible assumption
    | (refine Allows.sub h_R ?_; decide)
    | with_reducible apply adjustLimits_keeps
    | with_reducible apply applyStagger_keeps
    | with_reducible apply showClasses_keeps
    | with_reducible apply record_keeps
    | with_reducible apply setF_keeps
    | with_reducible apply Keeps.ite
    | extract_lets
    | fail_if_no_progress (with_reducible refine Keeps.put_drv r_drv ?_)

theorem execKettleEvaluation_keeps {R : Part → Prop} {b₀ : State} (t : Nat) (s : State) (h_R : Allows R [.regs, .sys, .recd, .sch, .act, .drv]) (h_s : Keeps R b₀ s) : OKeeps R b₀ (execKettleEvaluation t s) := by
  unfold execKettleEvaluation
  repeat' first
    | with_reducible assumption
    | with_reducible apply kettleEval_keeps
    | with_reducible apply OKeeps.answer
    | with_reducible apply OKeeps.next

theorem loopPeriod_keeps {R : Part → Prop} {b₀ : State} (s : State) (t : Nat) (x : Nat × Nat) (h_R : Allows R [.drv]) (h_s : Keeps R b₀ s) : Keeps R b₀ (loopPeriod s t x) := by
  unfold loopPeriod
  repeat' first
    | with_reducible assumption
    | with_reducible apply modDrvCh_keeps
    | with_reducible apply Keeps.ite

theorem execChopPeriod_keeps {R : Part → Prop} {b₀ : State} (g t : Nat) (l : List (Nat × Nat)) (s : State) (h_R : Allows R [.drv]) (h_s : Keeps R b₀ s) : OKeeps R b₀ (execChopPeriod g t l s) := by
  unfold execChopPeriod
  repeat' first
    | with_reducible assumption
    | with_reducible apply loopPeriod_keeps
    | with_reducible apply Keeps.foldl
    | intro _ _ _
    | with_reducible apply OKeeps.answer

theorem drvBoundary_keeps {R : Part → Prop} {b₀ : State} (s : State) (h_R : Allows R [.regs, .drv]) (h_s : Keeps R b₀ s) : Keeps R b₀ (drvBoundary s) := by
  unfold drvBoundary
  repeat' first
    | with_reducible assumption
    | (refine Allows.sub h_R ?_; decide)
    | with_reducible apply showStagger_keeps
    | with_reducible apply showClasses_keeps
    | with_reducible apply showForced_keeps
    | with_reducible apply gridBoundary_keeps
    | with_reducible apply showValue_keeps
    | with_reducible apply showGroups_keeps
    | with_reducible apply setB_keeps
    | with_reducible apply Keeps.foldl
    | intro _ _ _

theorem drvReset_keeps {R : Part → Prop} {b₀ : State} (s : State) (h_R : Allows R [.regs, .sys, .sch, .drv]) (h_s : Keeps R b₀ s) : Keeps R b₀ (drvReset s) := by
  unfold drvReset
  have r_sch : R .sch := h_R _ (by decide)
  have r_drv : R .drv := h_R _ (by decide)
  repeat' first
    | with_reducible assumption
    | (refine Allows.sub h_R ?_; decide)
    | with_reducible apply setProt_keeps
    | with_reducible apply resetRegs_keeps
    | with_reducible apply setB_keeps
    | with_reducible apply Keeps.foldl
    | intro _ _ _
    | with_reducible apply Keeps.ite
    | extract_lets
    | fail_if_no_progress (with_reducible refine Keeps.put ?_ (.inr rfl) (.inr rfl) (.inr rfl) (.inr rfl) (.inr rfl) (.inr rfl) (.inl r_sch) (.inr rfl) (.inr rfl) (.inl r_drv) (.inr rfl) (.inr rfl) (.inr rfl) (.inr rfl) (.inr rfl) (.inr rfl) (.inr rfl) (.inr rfl) (.inr rfl))

end Sys2Proof.Machine
end

