-- ==== Sys2Proof/Laws/KeepsPredict.lean ====
section
/-!
SUPPORT. Sys2Proof/Laws/KeepsPredict.lean: the operations of Machine/Predict.lean keep what `Keeps` names.
-/
namespace Sys2Proof.Machine

theorem modRing_keeps {R : Part → Prop} {b₀ : State} (s : State) (r : Nat) (f : RingState → RingState) (h_R : Allows R [.fjl]) (h_s : Keeps R b₀ s) : Keeps R b₀ (modRing s r f) := by
  unfold modRing
  have r_fjl : R .fjl := h_R _ (by decide)
  repeat' first
    | with_reducible assumption
    | with_reducible apply Keeps.ite
    | extract_lets
    | fail_if_no_progress (with_reducible refine Keeps.put_fjl r_fjl ?_)

theorem modNode_keeps {R : Part → Prop} {b₀ : State} (s : State) (r n : Nat) (f : RingNode → RingNode) (h_R : Allows R [.fjl]) (h_s : Keeps R b₀ s) : Keeps R b₀ (modNode s r n f) := by
  unfold modNode
  repeat' first
    | with_reducible assumption
    | with_reducible apply modRing_keeps

theorem modRemCh_keeps {R : Part → Prop} {b₀ : State} (s : State) (c : Nat) (f : RemCh → RemCh) (h_R : Allows R [.fjl]) (h_s : Keeps R b₀ s) : Keeps R b₀ (modRemCh s c f) := by
  unfold modRemCh
  have r_fjl : R .fjl := h_R _ (by decide)
  repeat' first
    | with_reducible assumption
    | with_reducible apply Keeps.ite
    | extract_lets
    | fail_if_no_progress (with_reducible refine Keeps.put_fjl r_fjl ?_)

theorem remoteRate_keeps {R : Part → Prop} {b₀ : State} (s : State) (c rate : Nat) (h_R : Allows R [.fjl]) (h_s : Keeps R b₀ s) : Keeps R b₀ (remoteRate s c rate) := by
  unfold remoteRate
  repeat' first
    | with_reducible assumption
    | with_reducible apply modRemCh_keeps
    | with_reducible apply Keeps.ite

theorem pushCmd_keeps {R : Part → Prop} {b₀ : State} (s : State) (c : Nat) (q : RingCmd) (h_R : Allows R [.fjl]) (h_s : Keeps R b₀ s) : Keeps R b₀ (pushCmd s c q) := by
  unfold pushCmd
  repeat' first
    | with_reducible assumption
    | with_reducible apply modNode_keeps

theorem queueRemote_keeps {R : Part → Prop} {b₀ : State} (s : State) (c kind tick rate : Nat) (slot : Option Nat) (h_R : Allows R [.sch, .fjl]) (h_s : Keeps R b₀ s) : Keeps R b₀ (queueRemote s c kind tick rate slot) := by
  unfold queueRemote
  repeat' first
    | with_reducible assumption
    | (refine Allows.sub h_R ?_; decide)
    | with_reducible apply pushCmd_keeps
    | with_reducible apply remoteRate_keeps
    | with_reducible apply blockSlot_keeps
    | with_reducible apply Keeps.ite

theorem queueCancel_keeps {R : Part → Prop} {b₀ : State} (s : State) (r n tag after : Nat) (h_R : Allows R [.fjl, .free]) (h_s : Keeps R b₀ s) : Keeps R b₀ (queueCancel s r n tag after) := by
  unfold queueCancel
  repeat' first
    | with_reducible assumption
    | (refine Allows.sub h_R ?_; decide)
    | with_reducible apply modNode_keeps

end Sys2Proof.Machine
end

