-- ==== Sys2Proof/Laws/KeepsMapStore.lean ====
section
/-!
SUPPORT. Sys2Proof/Laws/KeepsMapStore.lean: the operations of Machine/MapStore.lean keep what `Keeps` names.
-/
namespace Sys2Proof.Machine

theorem showStore_keeps {R : Part → Prop} {b₀ : State} (s : State) (h_R : Allows R [.regs]) (h_s : Keeps R b₀ s) : Keeps R b₀ (showStore s) := by
  unfold showStore
  repeat' first
    | with_reducible assumption
    | with_reducible apply setF_keeps

theorem useTile_keeps {R : Part → Prop} {b₀ : State} (s : State) (t : Nat) (w : Bool) (h_R : Allows R [.map]) (h_s : Keeps R b₀ s) : Keeps R b₀ (useTile s t w) := by
  unfold useTile
  have r_map : R .map := h_R _ (by decide)
  repeat' first
    | with_reducible assumption
    | with_reducible apply Keeps.ite
    | extract_lets
    | fail_if_no_progress (with_reducible refine Keeps.put_map r_map ?_)

theorem uncache_keeps {R : Part → Prop} {b₀ : State} (s : State) (t : Nat) (h_R : Allows R [.map]) (h_s : Keeps R b₀ s) : Keeps R b₀ (uncache s t) := by
  unfold uncache
  have r_map : R .map := h_R _ (by decide)
  repeat' first
    | with_reducible assumption
    | with_reducible apply Keeps.ite
    | extract_lets
    | fail_if_no_progress (with_reducible refine Keeps.put_map r_map ?_)

theorem setBlock_keeps {R : Part → Prop} {b₀ : State} (s : State) (q : Nat) (b : Option DirBlock) (h_R : Allows R [.map]) (h_s : Keeps R b₀ s) : Keeps R b₀ (setBlock s q b) := by
  unfold setBlock
  have r_map : R .map := h_R _ (by decide)
  repeat' first
    | with_reducible assumption
    | with_reducible apply Keeps.ite
    | extract_lets
    | fail_if_no_progress (with_reducible refine Keeps.put_map r_map ?_)

theorem storeFull_keeps {R : Part → Prop} {b₀ : State} (s : State) (f : Field) (which : Nat) (h_R : Allows R [.regs, .recd]) (h_s : Keeps R b₀ s) : Keeps R b₀ (storeFull s f which) := by
  unfold storeFull
  repeat' first
    | with_reducible assumption
    | (refine Allows.sub h_R ?_; decide)
    | with_reducible apply record_keeps
    | with_reducible apply bump_keeps
    | with_reducible apply setB_keeps
    | with_reducible apply Keeps.ite

theorem takeBlock_keeps {R : Part → Prop} {b₀ : State} (s : State) (q : Nat) (h_R : Allows R [.regs, .recd, .map]) (h_s : Keeps R b₀ s) : PKeeps R b₀ (takeBlock s q) := by
  unfold takeBlock
  repeat' first
    | with_reducible assumption
    | (refine Allows.sub h_R ?_; decide)
    | with_reducible apply storeFull_keeps
    | with_reducible apply setBlock_keeps
    | with_reducible apply PKeeps.fst
    | (refine PKeeps.of_eq ‹_› ?_)
    | extract_lets
    | split
    | intro _
    | fail_if_no_progress beta_reduce
    | with_reducible apply PKeeps.foldl
    | dsimp +zetaDelta only
    | with_reducible apply PKeeps.mk

theorem putTile_keeps {R : Part → Prop} {b₀ : State} (s : State) (tx ty : Nat) (t : Option Tile) (h_R : Allows R [.map]) (h_s : Keeps R b₀ s) : Keeps R b₀ (putTile s tx ty t) := by
  unfold putTile
  repeat' first
    | with_reducible assumption
    | with_reducible apply setBlock_keeps
    | with_reducible apply Keeps.ite
    | extract_lets
    | split

theorem touchTile_keeps {R : Part → Prop} {b₀ : State} (s : State) (tx ty : Nat) (h_R : Allows R [.regs, .recd, .map, .free]) (h_s : Keeps R b₀ s) : PKeeps R b₀ (touchTile s tx ty) := by
  unfold touchTile
  repeat' first
    | with_reducible assumption
    | (refine Allows.sub h_R ?_; decide)
    | with_reducible apply putTile_keeps
    | with_reducible apply takeBlock_keeps
    | with_reducible apply storeFull_keeps
    | with_reducible apply fresh_keeps
    | with_reducible apply PKeeps.fst
    | (refine PKeeps.of_eq ‹_› ?_)
    | (refine fresh_keeps_eq ‹_› ?_ ?_)
    | extract_lets
    | split
    | intro _
    | fail_if_no_progress beta_reduce
    | with_reducible apply PKeeps.foldl
    | dsimp +zetaDelta only
    | with_reducible apply PKeeps.mk

theorem noteExc_keeps {R : Part → Prop} {b₀ : State} (s : State) (v : Nat) (h_R : Allows R [.regs]) (h_s : Keeps R b₀ s) : Keeps R b₀ (noteExc s v) := by
  unfold noteExc
  repeat' first
    | with_reducible assumption
    | with_reducible apply setB_keeps
    | with_reducible apply Keeps.ite

theorem putCells_keeps {R : Part → Prop} {b₀ : State} (s : State) (tx ty : Nat) (l : List (Nat × Nat)) (h_R : Allows R [.regs, .recd, .map, .free]) (h_s : Keeps R b₀ s) : Keeps R b₀ (putCells s tx ty l) := by
  unfold putCells
  repeat' first
    | with_reducible assumption
    | (refine Allows.sub h_R ?_; decide)
    | with_reducible apply touchTile_keeps
    | with_reducible apply putTile_keeps
    | with_reducible apply useTile_keeps
    | with_reducible apply setB_keeps
    | with_reducible apply PKeeps.fst
    | (refine PKeeps.of_eq ‹_› ?_)
    | with_reducible apply Keeps.foldl
    | intro _ _ _
    | with_reducible apply Keeps.ite
    | extract_lets
    | split

theorem putCell_keeps {R : Part → Prop} {b₀ : State} (s : State) (tx ty o v : Nat) (h_R : Allows R [.regs, .recd, .map, .free]) (h_s : Keeps R b₀ s) : Keeps R b₀ (putCell s tx ty o v) := by
  unfold putCell
  repeat' first
    | with_reducible assumption
    | with_reducible apply putCells_keeps

theorem putFill_keeps {R : Part → Prop} {b₀ : State} (s : State) (tx ty v : Nat) (h_R : Allows R [.regs, .recd, .map]) (h_s : Keeps R b₀ s) : PKeeps R b₀ (putFill s tx ty v) := by
  unfold putFill
  repeat' first
    | with_reducible assumption
    | (refine Allows.sub h_R ?_; decide)
    | with_reducible apply noteExc_keeps
    | with_reducible apply takeBlock_keeps
    | with_reducible apply setBlock_keeps
    | with_reducible apply PKeeps.fst
    | (refine PKeeps.of_eq ‹_› ?_)
    | extract_lets
    | split
    | intro _
    | fail_if_no_progress beta_reduce
    | with_reducible apply PKeeps.foldl
    | dsimp +zetaDelta only
    | with_reducible apply PKeeps.mk

theorem markCell_keeps {R : Part → Prop} {b₀ : State} (s : State) (x y : Int) (h_R : Allows R [.regs, .recd, .map, .free]) (h_s : Keeps R b₀ s) : Keeps R b₀ (markCell s x y) := by
  unfold markCell
  repeat' first
    | with_reducible assumption
    | (refine Allows.sub h_R ?_; decide)
    | with_reducible apply putCell_keeps
    | with_reducible apply bump_keeps
    | with_reducible apply Keeps.ite

theorem fetchTile_keeps {R : Part → Prop} {b₀ : State} (s : State) (tx ty : Nat) (h_R : Allows R [.map]) (h_s : Keeps R b₀ s) : Keeps R b₀ (fetchTile s tx ty) := by
  unfold fetchTile
  repeat' first
    | with_reducible assumption
    | with_reducible apply useTile_keeps
    | with_reducible apply Keeps.ite

theorem writeChunk_keeps {R : Part → Prop} {b₀ : State} (s : State) (tx ty chunk mode : Nat) (b : List Byte) (h_R : Allows R [.regs, .recd, .map, .free]) (h_s : Keeps R b₀ s) : Keeps R b₀ (writeChunk s tx ty chunk mode b) := by
  unfold writeChunk
  repeat' first
    | with_reducible assumption
    | with_reducible apply putCells_keeps

theorem writeWhole_keeps {R : Part → Prop} {b₀ : State} (s : State) (tx ty mode fillv : Nat) (h_R : Allows R [.regs, .recd, .map]) (h_s : Keeps R b₀ s) : Keeps R b₀ (writeWhole s tx ty mode fillv) := by
  unfold writeWhole
  repeat' first
    | with_reducible assumption
    | (refine Allows.sub h_R ?_; decide)
    | with_reducible apply putFill_keeps
    | with_reducible apply noteExc_keeps
    | with_reducible apply putTile_keeps
    | with_reducible apply uncache_keeps
    | with_reducible apply useTile_keeps
    | with_reducible apply PKeeps.fst
    | (refine PKeeps.of_eq ‹_› ?_)
    | with_reducible apply Keeps.ite
    | extract_lets
    | split

theorem tileWrite_keeps {R : Part → Prop} {b₀ : State} (s : State) (b : List Byte) (h_R : Allows R [.regs, .recd, .map, .free]) (h_s : Keeps R b₀ s) : PKeeps R b₀ (tileWrite s b) := by
  unfold tileWrite
  repeat' first
    | with_reducible assumption
    | (refine Allows.sub h_R ?_; decide)
    | with_reducible apply writeWhole_keeps
    | with_reducible apply writeChunk_keeps
    | with_reducible apply showStore_keeps
    | with_reducible apply PKeeps.fst
    | (refine PKeeps.of_eq ‹_› ?_)
    | extract_lets
    | split
    | intro _
    | fail_if_no_progress beta_reduce
    | with_reducible apply PKeeps.foldl
    | dsimp +zetaDelta only
    | with_reducible apply PKeeps.mk

theorem mapCells_keeps {R : Part → Prop} {b₀ : State} (s : State) (f : Nat → Nat) (h_R : Allows R [.map]) (h_s : Keeps R b₀ s) : Keeps R b₀ (mapCells s f) := by
  unfold mapCells
  have r_map : R .map := h_R _ (by decide)
  repeat' first
    | with_reducible assumption
    | with_reducible apply Keeps.foldl
    | intro _ _ _
    | with_reducible apply Keeps.ite
    | extract_lets
    | fail_if_no_progress (with_reducible refine Keeps.put_map r_map ?_)

theorem clearThroughCache_keeps {R : Part → Prop} {b₀ : State} (s : State) (h_R : Allows R [.map]) (h_s : Keeps R b₀ s) : Keeps R b₀ (clearThroughCache s) := by
  unfold clearThroughCache
  repeat' first
    | with_reducible assumption
    | with_reducible apply useTile_keeps
    | with_reducible apply Keeps.foldl
    | intro _ _ _
    | with_reducible apply Keeps.ite
    | extract_lets
    | split

theorem applyClear_keeps {R : Part → Prop} {b₀ : State} (s : State) (v : Nat) (h_R : Allows R [.regs, .map]) (h_s : Keeps R b₀ s) : Keeps R b₀ (applyClear s v) := by
  unfold applyClear
  have r_map : R .map := h_R _ (by decide)
  repeat' first
    | with_reducible assumption
    | (refine Allows.sub h_R ?_; decide)
    | with_reducible apply clearThroughCache_keeps
    | with_reducible apply mapCells_keeps
    | with_reducible apply showStore_keeps
    | with_reducible apply setB_keeps
    | with_reducible apply Keeps.ite
    | extract_lets
    | fail_if_no_progress (with_reducible refine Keeps.put_map r_map ?_)

theorem startClear_keeps {R : Part → Prop} {b₀ : State} (s : State) (h v : Nat) (h_R : Allows R [.regs, .recd, .map]) (h_s : Keeps R b₀ s) : Keeps R b₀ (startClear s h v) := by
  unfold startClear
  have r_map : R .map := h_R _ (by decide)
  repeat' first
    | with_reducible assumption
    | (refine Allows.sub h_R ?_; decide)
    | with_reducible apply record_keeps
    | with_reducible apply setB_keeps
    | with_reducible apply Keeps.ite
    | extract_lets
    | fail_if_no_progress (with_reducible refine Keeps.put_map r_map ?_)

theorem clearDone_keeps {R : Part → Prop} {b₀ : State} (s : State) (h_R : Allows R [.regs, .map]) (h_s : Keeps R b₀ s) : Keeps R b₀ (clearDone s) := by
  unfold clearDone
  have r_map : R .map := h_R _ (by decide)
  repeat' first
    | with_reducible assumption
    | (refine Allows.sub h_R ?_; decide)
    | with_reducible apply applyClear_keeps
    | with_reducible apply setB_keeps
    | with_reducible apply Keeps.ite
    | extract_lets
    | fail_if_no_progress (with_reducible refine Keeps.put_map r_map ?_)
    | split

theorem passFails_keeps {R : Part → Prop} {b₀ : State} (s : State) (tx ty : Nat) (h_R : Allows R [.regs, .map]) (h_s : Keeps R b₀ s) : Keeps R b₀ (passFails s tx ty) := by
  unfold passFails
  have r_map : R .map := h_R _ (by decide)
  repeat' first
    | with_reducible assumption
    | (refine Allows.sub h_R ?_; decide)
    | with_reducible apply noteExc_keeps
    | with_reducible apply setBlock_keeps
    | with_reducible apply setB_keeps
    | with_reducible apply Keeps.ite
    | extract_lets
    | fail_if_no_progress (with_reducible refine Keeps.put_map r_map ?_)
    | split

theorem passOne_keeps {R : Part → Prop} {b₀ : State} (s : State) (l : List (PolyHead × List (Int × Int))) (tx ty : Nat) (h_R : Allows R [.regs, .recd, .map, .free]) (h_s : Keeps R b₀ s) : Keeps R b₀ (passOne s l tx ty) := by
  unfold passOne
  repeat' first
    | with_reducible assumption
    | (refine Allows.sub h_R ?_; decide)
    | with_reducible apply passFails_keeps
    | with_reducible apply putFill_keeps
    | with_reducible apply putCells_keeps
    | with_reducible apply PKeeps.fst
    | (refine PKeeps.of_eq ‹_› ?_)
    | with_reducible apply Keeps.ite

theorem tidySquare_keeps {R : Part → Prop} {b₀ : State} (s : State) (q : Nat) (h_R : Allows R [.map]) (h_s : Keeps R b₀ s) : Keeps R b₀ (tidySquare s q) := by
  unfold tidySquare
  have r_map : R .map := h_R _ (by decide)
  repeat' first
    | with_reducible assumption
    | with_reducible apply setBlock_keeps
    | with_reducible apply Keeps.ite
    | extract_lets
    | fail_if_no_progress (with_reducible refine Keeps.put_map r_map ?_)
    | split

theorem passSquare_keeps {R : Part → Prop} {b₀ : State} (l : List (PolyHead × List (Int × Int))) (s : State) (q : Nat) (h_R : Allows R [.regs, .recd, .map, .free]) (h_s : Keeps R b₀ s) : Keeps R b₀ (passSquare l s q) := by
  unfold passSquare
  have r_map : R .map := h_R _ (by decide)
  repeat' first
    | with_reducible assumption
    | (refine Allows.sub h_R ?_; decide)
    | with_reducible apply tidySquare_keeps
    | with_reducible apply passOne_keeps
    | with_reducible apply noteExc_keeps
    | with_reducible apply Keeps.foldl
    | intro _ _ _
    | with_reducible apply Keeps.ite
    | extract_lets
    | fail_if_no_progress (with_reducible refine Keeps.put_map r_map ?_)

theorem rasterGo_keeps {R : Part → Prop} {b₀ : State} (s : State) (h_R : Allows R [.regs, .map]) (h_s : Keeps R b₀ s) : Keeps R b₀ (rasterGo s) := by
  unfold rasterGo
  have r_map : R .map := h_R _ (by decide)
  repeat' first
    | with_reducible assumption
    | (refine Allows.sub h_R ?_; decide)
    | with_reducible apply setB_keeps
    | with_reducible apply setF_keeps
    | with_reducible apply Keeps.ite
    | extract_lets
    | fail_if_no_progress (with_reducible refine Keeps.put_map r_map ?_)
    | split

theorem rasterEnd_keeps {R : Part → Prop} {b₀ : State} (s : State) (h_R : Allows R [.regs, .recd, .map, .free]) (h_s : Keeps R b₀ s) : Keeps R b₀ (rasterEnd s) := by
  unfold rasterEnd
  have r_map : R .map := h_R _ (by decide)
  repeat' first
    | with_reducible assumption
    | (refine Allows.sub h_R ?_; decide)
    | with_reducible apply passSquare_keeps
    | with_reducible apply showStore_keeps
    | with_reducible apply record_keeps
    | with_reducible apply bump_keeps
    | with_reducible apply setB_keeps
    | with_reducible apply Keeps.foldl
    | intro _ _ _
    | with_reducible apply Keeps.ite
    | extract_lets
    | fail_if_no_progress (with_reducible refine Keeps.put_map r_map ?_)
    | split

theorem execRasterPassEnd_keeps {R : Part → Prop} {b₀ : State} (s : State) (h_R : Allows R [.regs, .recd, .map, .free]) (h_s : Keeps R b₀ s) : OKeeps R b₀ (execRasterPassEnd s) := by
  unfold execRasterPassEnd
  repeat' first
    | with_reducible assumption
    | with_reducible apply rasterEnd_keeps
    | with_reducible apply OKeeps.answer
    | with_reducible apply OKeeps.next

end Sys2Proof.Machine
end

