-- ==== Sys2Proof/Laws/KeepsMapTest.lean ====
section
/-!
SUPPORT. Sys2Proof/Laws/KeepsMapTest.lean: the operations of Machine/MapTest.lean keep what `Keeps` names.
-/
namespace Sys2Proof.Machine

theorem modChMap_keeps {R : Part → Prop} {b₀ : State} (s : State) (c : Nat) (f : ChMap → ChMap) (h_R : Allows R [.map]) (h_s : Keeps R b₀ s) : Keeps R b₀ (modChMap s c f) := by
  unfold modChMap
  have r_map : R .map := h_R _ (by decide)
  repeat' first
    | with_reducible assumption
    | with_reducible apply Keeps.ite
    | extract_lets
    | fail_if_no_progress (with_reducible refine Keeps.put_map r_map ?_)

end Sys2Proof.Machine
end

