-- ==== Sys2Proof/Laws/KeepsSch.lean ====
section
/-!
SUPPORT. Sys2Proof/Laws/KeepsSch.lean: the operations of Machine/Sch.lean keep what `Keeps` names.
-/
namespace Sys2Proof.Machine

theorem giveEdge_keeps {R : Part → Prop} {b₀ : State} (s : State) (c kind tick rate : Nat) (slot : Option Nat) (origin : Nat) (h_R : Allows R [.sys, .sch, .fjl]) (h_s : Keeps R b₀ s) : Keeps R b₀ (giveEdge s c kind tick rate slot origin) := by
  unfold giveEdge
  repeat' first
    | with_reducible assumption
    | (refine Allows.sub h_R ?_; decide)
    | with_reducible apply queueRemote_keeps
    | with_reducible apply handEdge_keeps
    | with_reducible apply noteIssued_keeps
    | with_reducible apply Keeps.ite

theorem noteUse_keeps {R : Part → Prop} {b₀ : State} (s : State) (i c kind tick wait : Nat) (err : Int) (lead : Bool) (h_R : Allows R [.sch]) (h_s : Keeps R b₀ s) : Keeps R b₀ (noteUse s i c kind tick wait err lead) := by
  unfold noteUse
  repeat' first
    | with_reducible assumption
    | with_reducible apply modSlotAt_keeps

theorem noteHorizon_keeps {R : Part → Prop} {b₀ : State} (s : State) (i c kind wait : Nat) (h_R : Allows R [.regs, .sch]) (h_s : Keeps R b₀ s) : Keeps R b₀ (noteHorizon s i c kind wait) := by
  unfold noteHorizon
  repeat' first
    | with_reducible assumption
    | (refine Allows.sub h_R ?_; decide)
    | with_reducible apply modFlags_keeps
    | with_reducible apply bump_keeps
    | with_reducible apply Keeps.ite

theorem noteHand_keeps {R : Part → Prop} {b₀ : State} (s : State) (i c kind tick : Nat) (late lead : Bool) (err : Int) (h_R : Allows R [.regs, .sch]) (h_s : Keeps R b₀ s) : Keeps R b₀ (noteHand s i c kind tick late lead err) := by
  unfold noteHand
  repeat' first
    | with_reducible assumption
    | (refine Allows.sub h_R ?_; decide)
    | with_reducible apply noteHorizon_keeps
    | with_reducible apply noteUse_keeps
    | with_reducible apply modChSch_keeps
    | with_reducible apply bump_keeps
    | with_reducible apply Keeps.ite

theorem handSlot_keeps {R : Part → Prop} {b₀ : State} (s : State) (i tick : Nat) (late : Bool) (err : Int) (h_R : Allows R [.regs, .sys, .sch, .fjl]) (h_s : Keeps R b₀ s) : Keeps R b₀ (handSlot s i tick late err) := by
  unfold handSlot
  have r_sys : R .sys := h_R _ (by decide)
  repeat' first
    | with_reducible assumption
    | (refine Allows.sub h_R ?_; decide)
    | with_reducible apply noteHand_keeps
    | with_reducible apply noteHorizon_keeps
    | with_reducible apply noteUse_keeps
    | with_reducible apply giveEdge_keeps
    | with_reducible apply modSlotAt_keeps
    | with_reducible apply Keeps.ite
    | extract_lets
    | fail_if_no_progress (with_reducible refine Keeps.put_sys r_sys ?_)

theorem lateRecord_keeps {R : Part → Prop} {b₀ : State} (s : State) (code : Nat) (e : EvSlot) (err : Int) (h_R : Allows R [.regs, .recd]) (h_s : Keeps R b₀ s) : Keeps R b₀ (lateRecord s code e err) := by
  unfold lateRecord
  repeat' first
    | with_reducible assumption
    | with_reducible apply record_keeps

theorem holdSlot_keeps {R : Part → Prop} {b₀ : State} (s : State) (i : Nat) (h_R : Allows R [.regs, .sch]) (h_s : Keeps R b₀ s) : Keeps R b₀ (holdSlot s i) := by
  unfold holdSlot
  repeat' first
    | with_reducible assumption
    | (refine Allows.sub h_R ?_; decide)
    | with_reducible apply modFlags_keeps
    | with_reducible apply bump_keeps
    | with_reducible apply Keeps.ite

theorem releaseHeld_keeps {R : Part → Prop} {b₀ : State} (s : State) (i tick : Nat) (h_R : Allows R [.regs, .sys, .sch, .fjl]) (h_s : Keeps R b₀ s) : Keeps R b₀ (releaseHeld s i tick) := by
  unfold releaseHeld
  repeat' first
    | with_reducible assumption
    | (refine Allows.sub h_R ?_; decide)
    | with_reducible apply handSlot_keeps
    | with_reducible apply bump_keeps

theorem passSlot_keeps {R : Part → Prop} {b₀ : State} (s : State) (i : Nat) (err : Int) (h_R : Allows R [.regs, .recd, .sch]) (h_s : Keeps R b₀ s) : Keeps R b₀ (passSlot s i err) := by
  unfold passSlot
  repeat' first
    | with_reducible assumption
    | (refine Allows.sub h_R ?_; decide)
    | with_reducible apply lateRecord_keeps
    | with_reducible apply endSlot_keeps
    | with_reducible apply modChSch_keeps
    | with_reducible apply modSlotAt_keeps
    | with_reducible apply bump_keeps

theorem judgeSlot_keeps {R : Part → Prop} {b₀ : State} (s : State) (i b : Nat) (held gave : Bool) (h_R : Allows R [.regs, .sys, .recd, .sch, .fjl]) (h_s : Keeps R b₀ s) : PKeeps R b₀ (judgeSlot s i b held gave) := by
  unfold judgeSlot
  repeat' first
    | with_reducible assumption
    | (refine Allows.sub h_R ?_; decide)
    | with_reducible apply passSlot_keeps
    | with_reducible apply releaseHeld_keeps
    | with_reducible apply holdSlot_keeps
    | with_reducible apply lateRecord_keeps
    | with_reducible apply handSlot_keeps
    | with_reducible apply noteHorizon_keeps
    | with_reducible apply bump_keeps
    | with_reducible apply PKeeps.fst
    | (refine PKeeps.of_eq ‹_› ?_)
    | extract_lets
    | split
    | intro _
    | fail_if_no_progress beta_reduce
    | with_reducible apply PKeeps.foldl
    | dsimp +zetaDelta only
    | with_reducible apply PKeeps.mk

theorem judgeTrail_keeps {R : Part → Prop} {b₀ : State} (s : State) (i b : Nat) (h_R : Allows R [.regs, .sys, .recd, .sch, .fjl]) (h_s : Keeps R b₀ s) : Keeps R b₀ (judgeTrail s i b) := by
  unfold judgeTrail
  repeat' first
    | with_reducible assumption
    | (refine Allows.sub h_R ?_; decide)
    | with_reducible apply lateRecord_keeps
    | with_reducible apply handSlot_keeps
    | with_reducible apply modSlotAt_keeps
    | with_reducible apply bump_keeps
    | with_reducible apply Keeps.ite

theorem schChannel_keeps {R : Part → Prop} {b₀ : State} (b : Nat) (s : State) (c : Nat) (h_R : Allows R [.regs, .sys, .recd, .sch, .fjl]) (h_s : Keeps R b₀ s) : Keeps R b₀ (schChannel b s c) := by
  unfold schChannel
  repeat' first
    | with_reducible assumption
    | with_reducible apply judgeTrail_keeps
    | with_reducible apply judgeSlot_keeps
    | with_reducible apply PKeeps.fst
    | (refine PKeeps.of_eq ‹_› ?_)
    | with_reducible apply Keeps.foldl
    | intro _ _ _
    | with_reducible apply Keeps.ite
    | extract_lets
    | split
    | intro _
    | fail_if_no_progress beta_reduce
    | with_reducible apply PKeeps.foldl
    | dsimp +zetaDelta only
    | with_reducible apply PKeeps.mk

theorem giveSlotless_keeps {R : Part → Prop} {b₀ : State} (s : State) (c kind b origin : Nat) (h_R : Allows R [.regs, .sys, .sch, .fjl]) (h_s : Keeps R b₀ s) : Keeps R b₀ (giveSlotless s c kind b origin) := by
  unfold giveSlotless
  repeat' first
    | with_reducible assumption
    | (refine Allows.sub h_R ?_; decide)
    | with_reducible apply giveEdge_keeps
    | with_reducible apply bump_keeps
    | with_reducible apply Keeps.ite

theorem slotlessOff_keeps {R : Part → Prop} {b₀ : State} (s : State) (c b origin : Nat) (h_R : Allows R [.regs, .sys, .recd, .sch, .fjl]) (h_s : Keeps R b₀ s) : Keeps R b₀ (slotlessOff s c b origin) := by
  unfold slotlessOff
  repeat' first
    | with_reducible assumption
    | (refine Allows.sub h_R ?_; decide)
    | with_reducible apply giveSlotless_keeps
    | with_reducible apply record_keeps
    | with_reducible apply bump_keeps

theorem inverse_keeps {R : Part → Prop} {b₀ : State} (s : State) (i b : Nat) (h_R : Allows R [.regs, .sys, .recd, .sch, .fjl]) (h_s : Keeps R b₀ s) : Keeps R b₀ (inverse s i b) := by
  unfold inverse
  have r_sch : R .sch := h_R _ (by decide)
  repeat' first
    | with_reducible assumption
    | (refine Allows.sub h_R ?_; decide)
    | with_reducible apply slotlessOff_keeps
    | with_reducible apply noteHand_keeps
    | with_reducible apply giveEdge_keeps
    | with_reducible apply fillSlot_keeps
    | with_reducible apply modSlotAt_keeps
    | with_reducible apply record_keeps
    | with_reducible apply Keeps.ite
    | extract_lets
    | fail_if_no_progress (with_reducible refine Keeps.put_sch r_sch ?_)
    | split

theorem followPair_keeps {R : Part → Prop} {b₀ : State} (s : State) (p : CxlPair) (h_R : Allows R [.regs, .recd, .sch]) (h_s : Keeps R b₀ s) : PKeeps R b₀ (followPair s p) := by
  unfold followPair
  repeat' first
    | with_reducible assumption
    | (refine Allows.sub h_R ?_; decide)
    | with_reducible apply modSlotAt_keeps
    | with_reducible apply record_keeps
    | with_reducible apply bump_keeps
    | with_reducible apply PKeeps.fst
    | (refine PKeeps.of_eq ‹_› ?_)
    | extract_lets
    | split
    | intro _
    | fail_if_no_progress beta_reduce
    | with_reducible apply PKeeps.foldl
    | dsimp +zetaDelta only
    | with_reducible apply PKeeps.mk

theorem unsentTag_keeps {R : Part → Prop} {b₀ : State} (s : State) (c t : Nat) (q : RingCmd) (h_R : Allows R [.fjl]) (h_s : Keeps R b₀ s) : Keeps R b₀ (unsentTag s c t q) := by
  unfold unsentTag
  repeat' first
    | with_reducible assumption
    | with_reducible apply modNode_keeps

theorem withdrawRemote_keeps {R : Part → Prop} {b₀ : State} (s : State) (i kind at_ : Nat) (h_R : Allows R [.sch, .fjl, .free]) (h_s : Keeps R b₀ s) : Keeps R b₀ (withdrawRemote s i kind at_) := by
  unfold withdrawRemote
  repeat' first
    | with_reducible assumption
    | (refine Allows.sub h_R ?_; decide)
    | with_reducible apply unsentTag_keeps
    | with_reducible apply queueCancel_keeps
    | with_reducible apply modNode_keeps
    | with_reducible apply modSlotAt_keeps
    | with_reducible apply Keeps.ite
    | extract_lets
    | split
    | intro _
    | fail_if_no_progress beta_reduce
    | dsimp +zetaDelta only

theorem cancelSlot_keeps {R : Part → Prop} {b₀ : State} (s : State) (i at_ b : Nat) (h_R : Allows R [.regs, .sys, .recd, .sch, .fjl, .free]) (h_s : Keeps R b₀ s) : PKeeps R b₀ (cancelSlot s i at_ b) := by
  unfold cancelSlot
  repeat' first
    | with_reducible assumption
    | (refine Allows.sub h_R ?_; decide)
    | with_reducible apply withdrawRemote_keeps
    | with_reducible apply inverse_keeps
    | with_reducible apply handSlot_keeps
    | with_reducible apply modFlags_keeps
    | with_reducible apply endSlotAt_keeps
    | with_reducible apply modSlotAt_keeps
    | with_reducible apply PKeeps.fst
    | (refine PKeeps.of_eq ‹_› ?_)
    | extract_lets
    | split
    | intro _
    | fail_if_no_progress beta_reduce
    | with_reducible apply PKeeps.foldl
    | dsimp +zetaDelta only
    | with_reducible apply PKeeps.mk

theorem cancelWhere_keeps {R : Part → Prop} {b₀ : State} (s : State) (at_ b : Nat) (p : EvSlot → Bool) (h_R : Allows R [.regs, .sys, .recd, .sch, .fjl, .free]) (h_s : Keeps R b₀ s) : Keeps R b₀ (cancelWhere s at_ b p) := by
  unfold cancelWhere
  repeat' first
    | with_reducible assumption
    | with_reducible apply cancelSlot_keeps
    | with_reducible apply PKeeps.fst
    | (refine PKeeps.of_eq ‹_› ?_)
    | with_reducible apply Keeps.foldl
    | intro _ _ _

theorem requestChange_keeps {R : Part → Prop} {b₀ : State} (s : State) (c : Nat) (h_R : Allows R [.regs, .sys, .recd, .sch, .map, .fjl, .free]) (h_s : Keeps R b₀ s) : Keeps R b₀ (requestChange s c) := by
  unfold requestChange
  have r_sys : R .sys := h_R _ (by decide)
  repeat' first
    | with_reducible assumption
    | (refine Allows.sub h_R ?_; decide)
    | with_reducible apply cancelWhere_keeps
    | with_reducible apply giveSlotless_keeps
    | with_reducible apply modChMap_keeps
    | with_reducible apply modChSch_keeps
    | with_reducible apply Keeps.ite
    | extract_lets
    | fail_if_no_progress (with_reducible refine Keeps.put_sys r_sys ?_)

theorem completeNoconf_keeps {R : Part → Prop} {b₀ : State} (s : State) (i k : Nat) (h_R : Allows R [.regs, .sch]) (h_s : Keeps R b₀ s) : Keeps R b₀ (completeNoconf s i k) := by
  unfold completeNoconf
  repeat' first
    | with_reducible assumption
    | (refine Allows.sub h_R ?_; decide)
    | with_reducible apply modFlags_keeps
    | with_reducible apply endSlotAt_keeps
    | with_reducible apply bump_keeps

theorem issueSlot_keeps {R : Part → Prop} {b₀ : State} (s : State) (i : Nat) (h_R : Allows R [.sys, .sch]) (h_s : Keeps R b₀ s) : Keeps R b₀ (issueSlot s i) := by
  unfold issueSlot
  repeat' first
    | with_reducible assumption
    | (refine Allows.sub h_R ?_; decide)
    | with_reducible apply noteIssued_keeps
    | with_reducible apply modSlotAt_keeps
    | with_reducible apply Keeps.ite

theorem withdrawnSlot_keeps {R : Part → Prop} {b₀ : State} (s : State) (i : Nat) (h_R : Allows R [.sch]) (h_s : Keeps R b₀ s) : Keeps R b₀ (withdrawnSlot s i) := by
  unfold withdrawnSlot
  repeat' first
    | with_reducible assumption
    | with_reducible apply endSlotAt_keeps
    | with_reducible apply modSlotAt_keeps
    | with_reducible apply Keeps.ite
    | extract_lets
    | split

theorem settleSlot_keeps {R : Part → Prop} {b₀ : State} (s : State) (i : Nat) (h_R : Allows R [.regs, .sch]) (h_s : Keeps R b₀ s) : Keeps R b₀ (settleSlot s i) := by
  unfold settleSlot
  repeat' first
    | with_reducible assumption
    | (refine Allows.sub h_R ?_; decide)
    | with_reducible apply completeNoconf_keeps
    | with_reducible apply endSlotAt_keeps
    | with_reducible apply modChSch_keeps
    | with_reducible apply modSlotAt_keeps
    | with_reducible apply Keeps.ite
    | extract_lets
    | split
    | intro _
    | fail_if_no_progress beta_reduce
    | dsimp +zetaDelta only

theorem slotBoundary_keeps {R : Part → Prop} {b₀ : State} (s : State) (i : Nat) (h_R : Allows R [.regs, .sys, .sch]) (h_s : Keeps R b₀ s) : Keeps R b₀ (slotBoundary s i) := by
  unfold slotBoundary
  repeat' first
    | with_reducible assumption
    | (refine Allows.sub h_R ?_; decide)
    | with_reducible apply settleSlot_keeps
    | with_reducible apply withdrawnSlot_keeps
    | with_reducible apply issueSlot_keeps
    | with_reducible apply modFlags_keeps
    | with_reducible apply Keeps.ite

theorem releaseDue_keeps {R : Part → Prop} {b₀ : State} (s : State) (i : Nat) (h_R : Allows R [.regs, .sch]) (h_s : Keeps R b₀ s) : Keeps R b₀ (releaseDue s i) := by
  unfold releaseDue
  repeat' first
    | with_reducible assumption
    | with_reducible apply freeSlot_keeps
    | with_reducible apply Keeps.ite

theorem notePassed_keeps {R : Part → Prop} {b₀ : State} (s : State) (i : Nat) (h_R : Allows R [.map]) (h_s : Keeps R b₀ s) : Keeps R b₀ (notePassed s i) := by
  unfold notePassed
  repeat' first
    | with_reducible assumption
    | with_reducible apply modChMap_keeps
    | with_reducible apply Keeps.ite

theorem remoteExec_keeps {R : Part → Prop} {b₀ : State} (s : State) (i : Nat) (h_R : Allows R [.regs, .sys, .recd, .sch, .fjl]) (h_s : Keeps R b₀ s) : Keeps R b₀ (remoteExec s i) := by
  unfold remoteExec
  repeat' first
    | with_reducible assumption
    | with_reducible apply inverse_keeps
    | with_reducible apply Keeps.ite

theorem schBoundary_keeps {R : Part → Prop} {b₀ : State} (s : State) (h_R : Allows R [.regs, .sys, .recd, .sch, .map, .fjl, .free]) (h_s : Keeps R b₀ s) : Keeps R b₀ (schBoundary s) := by
  unfold schBoundary
  have r_sch : R .sch := h_R _ (by decide)
  repeat' first
    | with_reducible assumption
    | (refine Allows.sub h_R ?_; decide)
    | with_reducible apply remoteExec_keeps
    | with_reducible apply notePassed_keeps
    | with_reducible apply releaseDue_keeps
    | with_reducible apply slotBoundary_keeps
    | with_reducible apply requestChange_keeps
    | with_reducible apply cancelWhere_keeps
    | with_reducible apply followPair_keeps
    | with_reducible apply PKeeps.fst
    | (refine PKeeps.of_eq ‹_› ?_)
    | with_reducible apply Keeps.foldl
    | intro _ _ _
    | with_reducible apply Keeps.ite
    | extract_lets
    | fail_if_no_progress (with_reducible refine Keeps.put_sch r_sch ?_)

theorem sendReplace_keeps {R : Part → Prop} {b₀ : State} (s : State) (i kind new : Nat) (h_R : Allows R [.regs, .sch, .fjl]) (h_s : Keeps R b₀ s) : Keeps R b₀ (sendReplace s i kind new) := by
  unfold sendReplace
  repeat' first
    | with_reducible assumption
    | (refine Allows.sub h_R ?_; decide)
    | with_reducible apply pushCmd_keeps
    | with_reducible apply modSlotAt_keeps
    | with_reducible apply bump_keeps
    | with_reducible apply Keeps.ite
    | extract_lets
    | split

theorem retime_keeps {R : Part → Prop} {b₀ : State} (s : State) (i : Nat) (h_R : Allows R [.regs, .sch, .fjl, .free]) (h_s : Keeps R b₀ s) : Keeps R b₀ (retime s i) := by
  unfold retime
  repeat' first
    | with_reducible assumption
    | (refine Allows.sub h_R ?_; decide)
    | with_reducible apply sendReplace_keeps
    | with_reducible apply withdrawRemote_keeps
    | with_reducible apply modSlotAt_keeps
    | with_reducible apply Keeps.ite

theorem tracePaths_keeps {R : Part → Prop} {b₀ : State} (s : State) (h_R : Allows R [.sch]) (h_s : Keeps R b₀ s) : Keeps R b₀ (tracePaths s) := by
  unfold tracePaths
  have r_sch : R .sch := h_R _ (by decide)
  repeat' first
    | with_reducible assumption
    | with_reducible apply modSlotAt_keeps
    | with_reducible apply Keeps.foldl
    | intro _ _ _
    | with_reducible apply Keeps.ite
    | extract_lets
    | fail_if_no_progress (with_reducible refine Keeps.put_sch r_sch ?_)

theorem latchSch_keeps {R : Part → Prop} {b₀ : State} (s : State) (h_R : Allows R [.sch]) (h_s : Keeps R b₀ s) : Keeps R b₀ (latchSch s) := by
  unfold latchSch
  have r_sch : R .sch := h_R _ (by decide)
  repeat' first
    | with_reducible assumption
    | with_reducible apply Keeps.ite
    | extract_lets
    | fail_if_no_progress (with_reducible refine Keeps.put_sch r_sch ?_)

theorem schStep_keeps {R : Part → Prop} {b₀ : State} (s : State) (h_R : Allows R [.regs, .sys, .recd, .sch, .fjl, .free]) (h_s : Keeps R b₀ s) : Keeps R b₀ (schStep s) := by
  unfold schStep
  repeat' first
    | with_reducible assumption
    | (refine Allows.sub h_R ?_; decide)
    | with_reducible apply latchSch_keeps
    | with_reducible apply tracePaths_keeps
    | with_reducible apply retime_keeps
    | with_reducible apply schChannel_keeps
    | with_reducible apply Keeps.foldl
    | intro _ _ _
    | with_reducible apply Keeps.ite

theorem postMap_keeps {R : Part → Prop} {b₀ : State} (s : State) (c action : Nat) (tgt : Int) (param : Nat) (h_R : Allows R [.regs, .sys, .recd, .sch, .fjl]) (h_s : Keeps R b₀ s) : PKeeps R b₀ (postMap s c action tgt param) := by
  unfold postMap
  repeat' first
    | with_reducible assumption
    | (refine Allows.sub h_R ?_; decide)
    | with_reducible apply slotlessOff_keeps
    | with_reducible apply fillSlot_keeps
    | with_reducible apply bump_keeps
    | with_reducible apply PKeeps.fst
    | (refine PKeeps.of_eq ‹_› ?_)
    | extract_lets
    | split
    | intro _
    | fail_if_no_progress beta_reduce
    | with_reducible apply PKeeps.foldl
    | dsimp +zetaDelta only
    | with_reducible apply PKeeps.mk

theorem acceptPost_keeps {R : Part → Prop} {b₀ : State} (s : State) (d : EvDesc) (h_R : Allows R [.regs, .sys, .recd, .sch, .fjl]) (h_s : Keeps R b₀ s) : PKeeps R b₀ (acceptPost s d) := by
  unfold acceptPost
  repeat' first
    | with_reducible assumption
    | (refine Allows.sub h_R ?_; decide)
    | with_reducible apply judgeSlot_keeps
    | with_reducible apply lateRecord_keeps
    | with_reducible apply fillSlot_keeps
    | with_reducible apply modChSch_keeps
    | with_reducible apply bump_keeps
    | with_reducible apply PKeeps.fst
    | (refine PKeeps.of_eq ‹_› ?_)
    | extract_lets
    | split
    | intro _
    | fail_if_no_progress beta_reduce
    | with_reducible apply PKeeps.foldl
    | dsimp +zetaDelta only
    | with_reducible apply PKeeps.mk

theorem acceptAll_keeps {R : Part → Prop} {b₀ : State} (s : State) (l : List PostDesc) (a : List Nat) (t : State) (r : List Nat)
    (e : acceptAll s l a = some (t, r)) (h_R : Allows R [.regs, .sys, .recd, .sch, .fjl]) (h_s : Keeps R b₀ s) : Keeps R b₀ t := by
  induction l generalizing s a with
  | nil => unfold acceptAll at e; cases e; exact h_s
  | cons p l ih =>
    unfold acceptAll at e
    split at e
    · exact ih _ _ e (PKeeps.of_eq ‹_› (acceptPost_keeps _ _ (h_R.sub (by decide)) h_s))
    · cases e

theorem execConfirmTimeout_keeps {R : Part → Prop} {b₀ : State} (i : Nat) (s : State) (h_R : Allows R [.regs, .sch]) (h_s : Keeps R b₀ s) : OKeeps R b₀ (execConfirmTimeout i s) := by
  unfold execConfirmTimeout
  repeat' first
    | with_reducible assumption
    | with_reducible apply completeNoconf_keeps
    | with_reducible apply OKeeps.answer
    | with_reducible apply OKeeps.next
    | extract_lets
    | split

theorem execRetainTimeout_keeps {R : Part → Prop} {b₀ : State} (i : Nat) (s : State) (h_R : Allows R [.regs, .sch]) (h_s : Keeps R b₀ s) : OKeeps R b₀ (execRetainTimeout i s) := by
  unfold execRetainTimeout
  repeat' first
    | with_reducible assumption
    | with_reducible apply releaseDue_keeps
    | with_reducible apply OKeeps.answer
    | with_reducible apply OKeeps.next
    | extract_lets
    | split

theorem schOutputsOff_keeps {R : Part → Prop} {b₀ : State} (s : State) (h_R : Allows R [.regs, .sys, .sch, .act, .drv, .fjl]) (h_s : Keeps R b₀ s) : Keeps R b₀ (schOutputsOff s) := by
  unfold schOutputsOff
  repeat' first
    | with_reducible assumption
    | (refine Allows.sub h_R ?_; decide)
    | with_reducible apply giveEdge_keeps
    | with_reducible apply shutChannel_keeps
    | with_reducible apply Keeps.foldl
    | intro _ _ _
    | with_reducible apply Keeps.ite

theorem schReset_keeps {R : Part → Prop} {b₀ : State} (s : State) (h_R : Allows R [.regs, .tables, .sys, .sch, .act, .drv, .fjl]) (h_s : Keeps R b₀ s) : Keeps R b₀ (schReset s) := by
  unfold schReset
  have r_sys : R .sys := h_R _ (by decide)
  have r_sch : R .sch := h_R _ (by decide)
  repeat' first
    | with_reducible assumption
    | (refine Allows.sub h_R ?_; decide)
    | with_reducible apply schOutputsOff_keeps
    | with_reducible apply tclear_keeps
    | with_reducible apply resetRegs_keeps
    | with_reducible apply wr_keeps
    | with_reducible apply Keeps.foldl
    | intro _ _ _
    | with_reducible apply Keeps.ite
    | extract_lets
    | fail_if_no_progress (with_reducible refine Keeps.put ?_ (.inr rfl) (.inl r_sys) (.inr rfl) (.inr rfl) (.inr rfl) (.inr rfl) (.inl r_sch) (.inr rfl) (.inr rfl) (.inr rfl) (.inr rfl) (.inr rfl) (.inr rfl) (.inr rfl) (.inr rfl) (.inr rfl) (.inr rfl) (.inr rfl) (.inr rfl))

end Sys2Proof.Machine
end

