-- ==== Sys2Proof/Laws/KeepsMapStep.lean ====
section
/-!
SUPPORT. Sys2Proof/Laws/KeepsMapStep.lean: the operations of Machine/MapStep.lean keep what `Keeps` names.
-/
namespace Sys2Proof.Machine

theorem holdStep_keeps {R : Part → Prop} {b₀ : State} (s : State) (c : Nat) (h_R : Allows R [.regs, .sys, .sch, .map, .fjl]) (h_s : Keeps R b₀ s) : Keeps R b₀ (holdStep s c) := by
  unfold holdStep
  repeat' first
    | with_reducible assumption
    | (refine Allows.sub h_R ?_; decide)
    | with_reducible apply giveSlotless_keeps
    | with_reducible apply modChMap_keeps
    | with_reducible apply Keeps.ite

theorem postChange_keeps {R : Part → Prop} {b₀ : State} (s : State) (c : Nat) (des : Bool) (tgt : Int) (h_R : Allows R [.regs, .sys, .recd, .sch, .map, .fjl, .free]) (h_s : Keeps R b₀ s) : Keeps R b₀ (postChange s c des tgt) := by
  unfold postChange
  repeat' first
    | with_reducible assumption
    | (refine Allows.sub h_R ?_; decide)
    | with_reducible apply postMap_keeps
    | with_reducible apply cancelSlot_keeps
    | with_reducible apply modChMap_keeps
    | with_reducible apply PKeeps.fst
    | (refine PKeeps.of_eq ‹_› ?_)
    | with_reducible apply Keeps.ite
    | extract_lets
    | split
    | intro _
    | fail_if_no_progress beta_reduce
    | with_reducible apply PKeeps.foldl
    | dsimp +zetaDelta only

theorem repost_keeps {R : Part → Prop} {b₀ : State} (s : State) (c : Nat) (h_R : Allows R [.regs, .sys, .recd, .sch, .map, .fjl]) (h_s : Keeps R b₀ s) : Keeps R b₀ (repost s c) := by
  unfold repost
  repeat' first
    | with_reducible assumption
    | (refine Allows.sub h_R ?_; decide)
    | with_reducible apply postMap_keeps
    | with_reducible apply giveSlotless_keeps
    | with_reducible apply modChMap_keeps
    | with_reducible apply bump_keeps
    | with_reducible apply PKeeps.fst
    | (refine PKeeps.of_eq ‹_› ?_)
    | with_reducible apply Keeps.ite

theorem rateStep_keeps {R : Part → Prop} {b₀ : State} (s : State) (c zval : Nat) (sp : Int) (h_R : Allows R [.regs, .sys, .recd, .sch, .map, .fjl]) (h_s : Keeps R b₀ s) : Keeps R b₀ (rateStep s c zval sp) := by
  unfold rateStep
  repeat' first
    | with_reducible assumption
    | (refine Allows.sub h_R ?_; decide)
    | with_reducible apply postMap_keeps
    | with_reducible apply modChMap_keeps
    | with_reducible apply PKeeps.fst
    | (refine PKeeps.of_eq ‹_› ?_)
    | with_reducible apply Keeps.ite

theorem prefetch_keeps {R : Part → Prop} {b₀ : State} (s : State) (c : Nat) (h_R : Allows R [.map]) (h_s : Keeps R b₀ s) : Keeps R b₀ (prefetch s c) := by
  unfold prefetch
  repeat' first
    | with_reducible assumption
    | with_reducible apply fetchTile_keeps
    | with_reducible apply Keeps.foldl
    | intro _ _ _
    | with_reducible apply Keeps.ite

theorem cacheTiles_keeps {R : Part → Prop} {b₀ : State} (s : State) (l : List Nat) (h_R : Allows R [.map, .free]) (h_s : Keeps R b₀ s) : PKeeps R b₀ (cacheTiles s l) := by
  unfold cacheTiles
  repeat' first
    | with_reducible assumption
    | (refine Allows.sub h_R ?_; decide)
    | with_reducible apply useTile_keeps
    | with_reducible apply fresh_keeps
    | with_reducible apply PKeeps.fst
    | (refine PKeeps.of_eq ‹_› ?_)
    | (refine fresh_keeps_eq ‹_› ?_ ?_)
    | with_reducible apply Keeps.foldl
    | intro _ _ _
    | extract_lets
    | split
    | intro _
    | fail_if_no_progress beta_reduce
    | with_reducible apply PKeeps.foldl
    | dsimp +zetaDelta only
    | with_reducible apply PKeeps.mk

theorem startExcluded_keeps {R : Part → Prop} {b₀ : State} (s : State) (c : Nat) (sp : Int) (h_R : Allows R [.regs, .sys, .recd, .sch, .map, .fjl]) (h_s : Keeps R b₀ s) : Keeps R b₀ (startExcluded s c sp) := by
  unfold startExcluded
  repeat' first
    | with_reducible assumption
    | (refine Allows.sub h_R ?_; decide)
    | with_reducible apply postMap_keeps
    | with_reducible apply giveSlotless_keeps
    | with_reducible apply modChMap_keeps
    | with_reducible apply PKeeps.fst
    | (refine PKeeps.of_eq ‹_› ?_)
    | with_reducible apply Keeps.ite

theorem takeTest_keeps {R : Part → Prop} {b₀ : State} (s : State) (c : Nat) (f : FootCount) (h_R : Allows R [.regs, .sys, .recd, .sch, .map, .fjl, .free]) (h_s : Keeps R b₀ s) : Keeps R b₀ (takeTest s c f) := by
  unfold takeTest
  repeat' first
    | with_reducible assumption
    | (refine Allows.sub h_R ?_; decide)
    | with_reducible apply startExcluded_keeps
    | with_reducible apply rateStep_keeps
    | with_reducible apply postChange_keeps
    | with_reducible apply modChMap_keeps
    | with_reducible apply Keeps.ite

theorem testChannel_keeps {R : Part → Prop} {b₀ : State} (s : State) (c : Nat) (h_R : Allows R [.regs, .sys, .recd, .sch, .map, .fjl, .free]) (h_s : Keeps R b₀ s) : PKeeps R b₀ (testChannel s c) := by
  unfold testChannel
  repeat' first
    | with_reducible assumption
    | (refine Allows.sub h_R ?_; decide)
    | with_reducible apply takeTest_keeps
    | with_reducible apply cacheTiles_keeps
    | with_reducible apply prefetch_keeps
    | with_reducible apply repost_keeps
    | with_reducible apply modChMap_keeps
    | with_reducible apply bump_keeps
    | with_reducible apply PKeeps.fst
    | (refine PKeeps.of_eq ‹_› ?_)
    | extract_lets
    | split
    | intro _
    | fail_if_no_progress beta_reduce
    | with_reducible apply PKeeps.foldl
    | dsimp +zetaDelta only
    | with_reducible apply PKeeps.mk

theorem startTests_keeps {R : Part → Prop} {b₀ : State} (s : State) (h_R : Allows R [.map]) (h_s : Keeps R b₀ s) : Keeps R b₀ (startTests s) := by
  unfold startTests
  repeat' first
    | with_reducible assumption
    | with_reducible apply modChMap_keeps
    | with_reducible apply Keeps.foldl
    | intro _ _ _

theorem mapTests_keeps {R : Part → Prop} {b₀ : State} (s : State) (h_R : Allows R [.regs, .sys, .recd, .sch, .map, .fjl, .free]) (h_s : Keeps R b₀ s) : PKeeps R b₀ (mapTests s) := by
  unfold mapTests
  have r_map : R .map := h_R _ (by decide)
  repeat' first
    | with_reducible assumption
    | (refine Allows.sub h_R ?_; decide)
    | with_reducible apply startTests_keeps
    | with_reducible apply testChannel_keeps
    | with_reducible apply holdStep_keeps
    | with_reducible apply modChMap_keeps
    | with_reducible apply PKeeps.fst
    | (refine PKeeps.of_eq ‹_› ?_)
    | with_reducible apply Keeps.foldl
    | intro _ _ _
    | extract_lets
    | fail_if_no_progress (with_reducible refine Keeps.put_map r_map ?_)
    | split
    | intro _
    | fail_if_no_progress beta_reduce
    | with_reducible apply PKeeps.foldl
    | dsimp +zetaDelta only
    | with_reducible apply PKeeps.mk

theorem keepBands_keeps {R : Part → Prop} {b₀ : State} (s : State) (h_R : Allows R [.map]) (h_s : Keeps R b₀ s) : Keeps R b₀ (keepBands s) := by
  unfold keepBands
  have r_map : R .map := h_R _ (by decide)
  repeat' first
    | with_reducible assumption
    | with_reducible apply Keeps.ite
    | extract_lets
    | fail_if_no_progress (with_reducible refine Keeps.put_map r_map ?_)

theorem fixEstimates_keeps {R : Part → Prop} {b₀ : State} (s : State) (c n : Nat) (h_R : Allows R [.regs, .map, .act]) (h_s : Keeps R b₀ s) : Keeps R b₀ (fixEstimates s c n) := by
  unfold fixEstimates
  repeat' first
    | with_reducible assumption
    | (refine Allows.sub h_R ?_; decide)
    | with_reducible apply modChMap_keeps
    | with_reducible apply setSwings_keeps
    | with_reducible apply bump_keeps
    | with_reducible apply Keeps.ite

theorem markSpan_keeps {R : Part → Prop} {b₀ : State} (s : State) (c : Nat) (x y : Band) (t : Nat × Nat) (h_R : Allows R [.regs, .recd, .map, .free]) (h_s : Keeps R b₀ s) : PKeeps R b₀ (markSpan s c x y t) := by
  unfold markSpan
  repeat' first
    | with_reducible assumption
    | (refine Allows.sub h_R ?_; decide)
    | with_reducible apply modChMap_keeps
    | with_reducible apply markCell_keeps
    | with_reducible apply PKeeps.fst
    | (refine PKeeps.of_eq ‹_› ?_)
    | with_reducible apply Keeps.foldl
    | intro _ _ _
    | extract_lets
    | split
    | intro _
    | fail_if_no_progress beta_reduce
    | with_reducible apply PKeeps.foldl
    | dsimp +zetaDelta only
    | with_reducible apply PKeeps.mk

theorem markChannel_keeps {R : Part → Prop} {b₀ : State} (s : State) (c n : Nat) (h_R : Allows R [.regs, .map, .act]) (h_s : Keeps R b₀ s) : PKeeps R b₀ (markChannel s c n) := by
  unfold markChannel
  repeat' first
    | with_reducible assumption
    | (refine Allows.sub h_R ?_; decide)
    | with_reducible apply fixEstimates_keeps
    | with_reducible apply modChMap_keeps
    | with_reducible apply PKeeps.fst
    | (refine PKeeps.of_eq ‹_› ?_)
    | extract_lets
    | split
    | intro _
    | fail_if_no_progress beta_reduce
    | with_reducible apply PKeeps.foldl
    | dsimp +zetaDelta only
    | with_reducible apply PKeeps.mk

theorem markOne_keeps {R : Part → Prop} {b₀ : State} (p : State × List MarkJob × Bool) (j : MarkJob) (h_R : Allows R [.regs, .recd, .map, .free])
    (h_p : PKeeps R b₀ p) : PKeeps R b₀ (markOne p j) := by
  unfold markOne
  extract_lets s t r
  have h_s : Keeps R b₀ s := h_p
  have h_t : PKeeps R b₀ t := cacheTiles_keeps _ _ (h_R.sub (by decide)) h_s
  split
  · exact bump_keeps _ _ _ (h_R.sub (by decide)) h_s
  · split
    · exact h_s
    · split
      · have h_r : PKeeps R b₀ r :=
          PKeeps.foldl (fun q h x => PKeeps.mk (markSpan_keeps q.1 _ _ _ x (h_R.sub (by decide)) h.fst).fst) (PKeeps.mk h_t.fst)
        exact PKeeps.mk h_r.fst
      · exact h_t.fst

theorem unmarkedStep_keeps {R : Part → Prop} {b₀ : State} (s : State) (n : Nat) (un : Bool) (h_R : Allows R [.regs, .recd, .map]) (h_s : Keeps R b₀ s) : Keeps R b₀ (unmarkedStep s n un) := by
  unfold unmarkedStep
  have r_map : R .map := h_R _ (by decide)
  repeat' first
    | with_reducible assumption
    | (refine Allows.sub h_R ?_; decide)
    | with_reducible apply record_keeps
    | with_reducible apply bump_keeps
    | with_reducible apply Keeps.ite
    | extract_lets
    | fail_if_no_progress (with_reducible refine Keeps.put_map r_map ?_)

theorem mapMarks_keeps {R : Part → Prop} {b₀ : State} (s : State) (h_R : Allows R [.regs, .recd, .map, .act, .free]) (h_s : Keeps R b₀ s) : PKeeps R b₀ (mapMarks s) := by
  unfold mapMarks
  split
  · exact h_s
  · extract_lets n r m s'
    have h_r : PKeeps R b₀ r := PKeeps.foldl (fun p h c => PKeeps.mk (markChannel_keeps p.1 c n (h_R.sub (by decide)) h.fst).fst) (PKeeps.mk h_s)
    have h_m : PKeeps R b₀ m := PKeeps.foldl (fun p h j => markOne_keeps p j (h_R.sub (by decide)) h) (PKeeps.mk h_r.fst)
    exact unmarkedStep_keeps _ _ _ (h_R.sub (by decide)) (showStore_keeps _ (h_R.sub (by decide))
      (Keeps.put_map (h_R _ (by decide)) h_m.fst))

theorem oogStep_keeps {R : Part → Prop} {b₀ : State} (s : State) (oog : Bool) (h_R : Allows R [.regs, .recd, .map]) (h_s : Keeps R b₀ s) : Keeps R b₀ (oogStep s oog) := by
  unfold oogStep
  have r_map : R .map := h_R _ (by decide)
  repeat' first
    | with_reducible assumption
    | (refine Allows.sub h_R ?_; decide)
    | with_reducible apply record_keeps
    | with_reducible apply bump_keeps
    | with_reducible apply setB_keeps
    | with_reducible apply Keeps.ite
    | extract_lets
    | fail_if_no_progress (with_reducible refine Keeps.put_map r_map ?_)

theorem zoneStep_keeps {R : Part → Prop} {b₀ : State} (s : State) (z : Nat) (h_R : Allows R [.regs, .map]) (h_s : Keeps R b₀ s) : Keeps R b₀ (zoneStep s z) := by
  unfold zoneStep
  repeat' first
    | with_reducible assumption
    | (refine Allows.sub h_R ?_; decide)
    | with_reducible apply modChMap_keeps
    | with_reducible apply setF_keeps
    | with_reducible apply Keeps.foldl
    | intro _ _ _

theorem mapIdle_keeps {R : Part → Prop} {b₀ : State} (s : State) (h_R : Allows R [.regs, .sys, .recd, .sch, .fjl, .free]) (h_s : Keeps R b₀ s) : Keeps R b₀ (mapIdle s) := by
  unfold mapIdle
  repeat' first
    | with_reducible assumption
    | with_reducible apply cancelWhere_keeps

theorem mapStep_keeps {R : Part → Prop} {b₀ : State} (s : State) (h_R : Allows R [.regs, .sys, .recd, .sch, .map, .act, .fjl, .free]) (h_s : Keeps R b₀ s) : Keeps R b₀ (mapStep s) := by
  unfold mapStep
  have r_map : R .map := h_R _ (by decide)
  repeat' first
    | with_reducible assumption
    | (refine Allows.sub h_R ?_; decide)
    | with_reducible apply mapIdle_keeps
    | with_reducible apply zoneStep_keeps
    | with_reducible apply oogStep_keeps
    | with_reducible apply mapMarks_keeps
    | with_reducible apply keepBands_keeps
    | with_reducible apply mapTests_keeps
    | with_reducible apply PKeeps.fst
    | (refine PKeeps.of_eq ‹_› ?_)
    | with_reducible apply Keeps.foldl
    | intro _ _ _
    | with_reducible apply Keeps.ite
    | extract_lets
    | fail_if_no_progress (with_reducible refine Keeps.put_map r_map ?_)

theorem originBoundary_keeps {R : Part → Prop} {b₀ : State} (s : State) (h_R : Allows R [.kin, .map]) (h_s : Keeps R b₀ s) : Keeps R b₀ (originBoundary s) := by
  unfold originBoundary
  have r_kin : R .kin := h_R _ (by decide)
  have r_map : R .map := h_R _ (by decide)
  repeat' first
    | with_reducible assumption
    | with_reducible apply Keeps.ite
    | extract_lets
    | fail_if_no_progress (with_reducible refine Keeps.put ?_ (.inl r_kin) (.inr rfl) (.inr rfl) (.inr rfl) (.inr rfl) (.inr rfl) (.inr rfl) (.inl r_map) (.inr rfl) (.inr rfl) (.inr rfl) (.inr rfl) (.inr rfl) (.inr rfl) (.inr rfl) (.inr rfl) (.inr rfl) (.inr rfl) (.inr rfl))

theorem mapReset_keeps {R : Part → Prop} {b₀ : State} (s : State) (h_R : Allows R [.regs, .tables, .map]) (h_s : Keeps R b₀ s) : Keeps R b₀ (mapReset s) := by
  unfold mapReset
  have r_map : R .map := h_R _ (by decide)
  repeat' first
    | with_reducible assumption
    | (refine Allows.sub h_R ?_; decide)
    | with_reducible apply tclear_keeps
    | with_reducible apply resetRegs_keeps
    | with_reducible apply Keeps.ite
    | extract_lets
    | fail_if_no_progress (with_reducible refine Keeps.put_map r_map ?_)

end Sys2Proof.Machine
end

