-- ==== Sys2Proof/Laws/KeepsRingFrame.lean ====
section
/-!
SUPPORT. Sys2Proof/Laws/KeepsRingFrame.lean: the operations of Machine/RingFrame.lean keep what `Keeps` names.
-/
namespace Sys2Proof.Machine

theorem answerProbe_keeps {R : Part → Prop} {b₀ : State} (r : Nat) (s : State) (p : RingProbe) (h_R : Allows R [.fjl, .free]) (h_s : Keeps R b₀ s) : Keeps R b₀ (answerProbe r s p) := by
  unfold answerProbe
  repeat' first
    | with_reducible assumption
    | (refine Allows.sub h_R ?_; decide)
    | with_reducible apply modRing_keeps
    | with_reducible apply fresh_keeps
    | (refine fresh_keeps_eq ‹_› ?_ ?_)
    | with_reducible apply Keeps.ite

end Sys2Proof.Machine
end

