-- ==== Sys2Proof/Laws/KeepsFjl.lean ====
section
/-!
SUPPORT. Sys2Proof/Laws/KeepsFjl.lean: the operations of Machine/Fjl.lean keep what `Keeps` names.
-/
namespace Sys2Proof.Machine

theorem setRingState_keeps {R : Part → Prop} {b₀ : State} (s : State) (r new : Nat) (h_R : Allows R [.regs, .recd, .fjl]) (h_s : Keeps R b₀ s) : Keeps R b₀ (setRingState s r new) := by
  unfold setRingState
  repeat' first
    | with_reducible assumption
    | (refine Allows.sub h_R ?_; decide)
    | with_reducible apply modRing_keeps
    | with_reducible apply record_keeps
    | with_reducible apply setF_keeps
    | with_reducible apply Keeps.ite

theorem safeSwing_keeps {R : Part → Prop} {b₀ : State} (t : Nat) (s : State) (c : Nat) (h_R : Allows R [.act]) (h_s : Keeps R b₀ s) : Keeps R b₀ (safeSwing t s c) := by
  unfold safeSwing
  repeat' first
    | with_reducible assumption
    | with_reducible apply addSwing_keeps
    | with_reducible apply Keeps.ite
    | extract_lets
    | split

theorem dropNode_keeps {R : Part → Prop} {b₀ : State} (r : Nat) (s : State) (n : Nat) (h_R : Allows R [.sch, .fjl]) (h_s : Keeps R b₀ s) : Keeps R b₀ (dropNode r s n) := by
  unfold dropNode
  repeat' first
    | with_reducible assumption
    | (refine Allows.sub h_R ?_; decide)
    | with_reducible apply modNode_keeps
    | with_reducible apply blockSlot_keeps
    | with_reducible apply Keeps.foldl
    | intro _ _ _
    | with_reducible apply Keeps.ite
    | extract_lets
    | split

theorem forceRing_keeps {R : Part → Prop} {b₀ : State} (s : State) (r : Nat) (h_R : Allows R [.fjl]) (h_s : Keeps R b₀ s) : Keeps R b₀ (forceRing s r) := by
  unfold forceRing
  have r_fjl : R .fjl := h_R _ (by decide)
  repeat' first
    | with_reducible assumption
    | with_reducible apply Keeps.ite
    | extract_lets
    | fail_if_no_progress (with_reducible refine Keeps.put_fjl r_fjl ?_)

theorem ringGoSafe_keeps {R : Part → Prop} {b₀ : State} (s : State) (r k t : Nat) (h_R : Allows R [.regs, .sys, .sch, .act, .fjl]) (h_s : Keeps R b₀ s) : Keeps R b₀ (ringGoSafe s r k t) := by
  unfold ringGoSafe
  repeat' first
    | with_reducible assumption
    | (refine Allows.sub h_R ?_; decide)
    | with_reducible apply forceRing_keeps
    | with_reducible apply dropNode_keeps
    | with_reducible apply safeSwing_keeps
    | with_reducible apply setProt_keeps
    | with_reducible apply setB_keeps
    | with_reducible apply Keeps.foldl
    | intro _ _ _
    | with_reducible apply Keeps.ite

theorem abortFrame_keeps {R : Part → Prop} {b₀ : State} (s : State) (r : Nat) (h_R : Allows R [.regs, .fjl]) (h_s : Keeps R b₀ s) : Keeps R b₀ (abortFrame s r) := by
  unfold abortFrame
  repeat' first
    | with_reducible assumption
    | (refine Allows.sub h_R ?_; decide)
    | with_reducible apply modRing_keeps
    | with_reducible apply bump_keeps

theorem safeSequence_keeps {R : Part → Prop} {b₀ : State} (s : State) (k t : Nat) (h_R : Allows R [.regs, .sys, .sch, .act, .fjl]) (h_s : Keeps R b₀ s) : Keeps R b₀ (safeSequence s k t) := by
  unfold safeSequence
  repeat' first
    | with_reducible assumption
    | (refine Allows.sub h_R ?_; decide)
    | with_reducible apply abortFrame_keeps
    | with_reducible apply ringGoSafe_keeps
    | with_reducible apply Keeps.foldl
    | intro _ _ _
    | with_reducible apply Keeps.ite

theorem recommandRemote_keeps {R : Part → Prop} {b₀ : State} (s : State) (c : Nat) (h_R : Allows R [.sys, .fjl]) (h_s : Keeps R b₀ s) : Keeps R b₀ (recommandRemote s c) := by
  unfold recommandRemote
  repeat' first
    | with_reducible assumption
    | (refine Allows.sub h_R ?_; decide)
    | with_reducible apply modRemCh_keeps
    | with_reducible apply clearProt_keeps
    | with_reducible apply Keeps.ite

theorem recommand_keeps {R : Part → Prop} {b₀ : State} (s : State) (c : Nat) (h_R : Allows R [.regs, .sys, .fjl]) (h_s : Keeps R b₀ s) : Keeps R b₀ (recommand s c) := by
  unfold recommand
  repeat' first
    | with_reducible assumption
    | (refine Allows.sub h_R ?_; decide)
    | with_reducible apply recommandRemote_keeps
    | with_reducible apply recommandLocal_keeps
    | with_reducible apply Keeps.ite

theorem resumeRemote_keeps {R : Part → Prop} {b₀ : State} (s : State) (c : Nat) (h_R : Allows R [.sys, .sch, .fjl]) (h_s : Keeps R b₀ s) : Keeps R b₀ (resumeRemote s c) := by
  unfold resumeRemote
  repeat' first
    | with_reducible assumption
    | (refine Allows.sub h_R ?_; decide)
    | with_reducible apply recommandRemote_keeps
    | with_reducible apply giveEdge_keeps
    | with_reducible apply Keeps.ite

theorem setFjlCfg_keeps {R : Part → Prop} {b₀ : State} (s : State) (c o : Nat) (v : Word) (h_R : Allows R [.fjl]) (h_s : Keeps R b₀ s) : Keeps R b₀ (setFjlCfg s c o v) := by
  unfold setFjlCfg
  have r_fjl : R .fjl := h_R _ (by decide)
  repeat' first
    | with_reducible assumption
    | with_reducible apply Keeps.ite
    | extract_lets
    | fail_if_no_progress (with_reducible refine Keeps.put_fjl r_fjl ?_)

theorem sendCfgCh_keeps {R : Part → Prop} {b₀ : State} (s : State) (c : Nat) (h_R : Allows R [.fjl]) (h_s : Keeps R b₀ s) : Keeps R b₀ (sendCfgCh s c) := by
  unfold sendCfgCh
  repeat' first
    | with_reducible assumption
    | with_reducible apply modRemCh_keeps
    | with_reducible apply modRing_keeps

theorem refreshCfg_keeps {R : Part → Prop} {b₀ : State} (s : State) (c : Nat) (h_R : Allows R [.fjl]) (h_s : Keeps R b₀ s) : Keeps R b₀ (refreshCfg s c) := by
  unfold refreshCfg
  repeat' first
    | with_reducible assumption
    | with_reducible apply sendCfgCh_keeps
    | with_reducible apply Keeps.ite

theorem refreshProfile_keeps {R : Part → Prop} {b₀ : State} (s : State) (p : Nat) (h_R : Allows R [.fjl]) (h_s : Keeps R b₀ s) : Keeps R b₀ (refreshProfile s p) := by
  unfold refreshProfile
  repeat' first
    | with_reducible assumption
    | with_reducible apply refreshCfg_keeps
    | with_reducible apply Keeps.foldl
    | intro _ _ _
    | with_reducible apply Keeps.ite

theorem setDelay_keeps {R : Part → Prop} {b₀ : State} (s : State) (r n tpath : Nat) (h_R : Allows R [.regs, .fjl]) (h_s : Keeps R b₀ s) : Keeps R b₀ (setDelay s r n tpath) := by
  unfold setDelay
  repeat' first
    | with_reducible assumption
    | (refine Allows.sub h_R ?_; decide)
    | with_reducible apply modNode_keeps
    | with_reducible apply setF_keeps

theorem showLead_keeps {R : Part → Prop} {b₀ : State} (r : Nat) (s : State) (n : Nat) (h_R : Allows R [.regs]) (h_s : Keeps R b₀ s) : Keeps R b₀ (showLead r s n) := by
  unfold showLead
  repeat' first
    | with_reducible assumption
    | with_reducible apply setF_keeps
    | with_reducible apply Keeps.ite
    | extract_lets
    | split

theorem takeIdent_keeps {R : Part → Prop} {b₀ : State} (s : State) (r n : Nat) (d : List Byte) (h_R : Allows R [.regs, .fjl]) (h_s : Keeps R b₀ s) : PKeeps R b₀ (takeIdent s r n d) := by
  unfold takeIdent
  repeat' first
    | with_reducible assumption
    | (refine Allows.sub h_R ?_; decide)
    | with_reducible apply modNode_keeps
    | with_reducible apply setF_keeps
    | with_reducible apply PKeeps.fst
    | (refine PKeeps.of_eq ‹_› ?_)
    | extract_lets
    | split
    | intro _
    | fail_if_no_progress beta_reduce
    | with_reducible apply PKeeps.foldl
    | dsimp +zetaDelta only
    | with_reducible apply PKeeps.mk

theorem nodeFound_keeps {R : Part → Prop} {b₀ : State} (s : State) (r n via : Nat) (h_R : Allows R [.regs, .fjl]) (h_s : Keeps R b₀ s) : Keeps R b₀ (nodeFound s r n via) := by
  unfold nodeFound
  repeat' first
    | with_reducible assumption
    | (refine Allows.sub h_R ?_; decide)
    | with_reducible apply modNode_keeps
    | with_reducible apply setB_keeps
    | with_reducible apply setF_keeps

theorem enumFail_keeps {R : Part → Prop} {b₀ : State} (s : State) (r : Nat) (h_R : Allows R [.regs, .recd, .fjl]) (h_s : Keeps R b₀ s) : Keeps R b₀ (enumFail s r) := by
  unfold enumFail
  repeat' first
    | with_reducible assumption
    | (refine Allows.sub h_R ?_; decide)
    | with_reducible apply setRingState_keeps
    | with_reducible apply setB_keeps

theorem enterSync_keeps {R : Part → Prop} {b₀ : State} (s : State) (r : Nat) (h_R : Allows R [.regs, .recd, .fjl]) (h_s : Keeps R b₀ s) : Keeps R b₀ (enterSync s r) := by
  unfold enterSync
  repeat' first
    | with_reducible assumption
    | (refine Allows.sub h_R ?_; decide)
    | with_reducible apply sendCfgCh_keeps
    | with_reducible apply setRingState_keeps
    | with_reducible apply modRing_keeps
    | with_reducible apply Keeps.foldl
    | intro _ _ _

theorem enterIdent_keeps {R : Part → Prop} {b₀ : State} (s : State) (r : Nat) (h_R : Allows R [.regs, .recd, .fjl]) (h_s : Keeps R b₀ s) : Keeps R b₀ (enterIdent s r) := by
  unfold enterIdent
  repeat' first
    | with_reducible assumption
    | (refine Allows.sub h_R ?_; decide)
    | with_reducible apply enterSync_keeps
    | with_reducible apply modRing_keeps
    | with_reducible apply Keeps.ite

theorem enumCycle_keeps {R : Part → Prop} {b₀ : State} (s : State) (r : Nat) (b : RingBack) (h_R : Allows R [.regs, .recd, .fjl]) (h_s : Keeps R b₀ s) : Keeps R b₀ (enumCycle s r b) := by
  unfold enumCycle
  repeat' first
    | with_reducible assumption
    | (refine Allows.sub h_R ?_; decide)
    | with_reducible apply enterIdent_keeps
    | with_reducible apply enterSync_keeps
    | with_reducible apply enumFail_keeps
    | with_reducible apply nodeFound_keeps
    | with_reducible apply takeIdent_keeps
    | with_reducible apply modRing_keeps
    | with_reducible apply PKeeps.fst
    | (refine PKeeps.of_eq ‹_› ?_)
    | with_reducible apply Keeps.ite
    | extract_lets
    | split

theorem cfgAnswer_keeps {R : Part → Prop} {b₀ : State} (s : State) (r : Nat) (q : Service) (rsp : Nat) (more : Bool) (h_R : Allows R [.fjl]) (h_s : Keeps R b₀ s) : Keeps R b₀ (cfgAnswer s r q rsp more) := by
  unfold cfgAnswer
  repeat' first
    | with_reducible assumption
    | with_reducible apply modRemCh_keeps

theorem serviceAnswer_keeps {R : Part → Prop} {b₀ : State} (s : State) (r : Nat) (b : RingBack) (h_R : Allows R [.regs, .fjl]) (h_s : Keeps R b₀ s) : Keeps R b₀ (serviceAnswer s r b) := by
  unfold serviceAnswer
  repeat' first
    | with_reducible assumption
    | (refine Allows.sub h_R ?_; decide)
    | with_reducible apply cfgAnswer_keeps
    | with_reducible apply setDelay_keeps
    | with_reducible apply modNode_keeps
    | with_reducible apply modRing_keeps
    | with_reducible apply Keeps.ite
    | extract_lets
    | split

theorem modTag_keeps {R : Part → Prop} {b₀ : State} (s : State) (r n t : Nat) (f : RingTag → RingTag) (h_R : Allows R [.fjl]) (h_s : Keeps R b₀ s) : Keeps R b₀ (modTag s r n t f) := by
  unfold modTag
  repeat' first
    | with_reducible assumption
    | with_reducible apply modNode_keeps

theorem entryLost_keeps {R : Part → Prop} {b₀ : State} (s : State) (r n : Nat) (q : RingCmd) (h_R : Allows R [.sch, .fjl]) (h_s : Keeps R b₀ s) : Keeps R b₀ (entryLost s r n q) := by
  unfold entryLost
  repeat' first
    | with_reducible assumption
    | (refine Allows.sub h_R ?_; decide)
    | with_reducible apply modTag_keeps
    | with_reducible apply modFlags_keeps
    | with_reducible apply Keeps.ite
    | extract_lets
    | split

theorem tagWithdrawn_keeps {R : Part → Prop} {b₀ : State} (s : State) (r n t : Nat) (g : RingTag) (h_R : Allows R [.sch, .act, .fjl]) (h_s : Keeps R b₀ s) : Keeps R b₀ (tagWithdrawn s r n t g) := by
  unfold tagWithdrawn
  repeat' first
    | with_reducible assumption
    | (refine Allows.sub h_R ?_; decide)
    | with_reducible apply modTag_keeps
    | with_reducible apply setSwings_keeps
    | with_reducible apply modSlotAt_keeps
    | with_reducible apply Keeps.ite
    | extract_lets
    | split

theorem tagExecuted_keeps {R : Part → Prop} {b₀ : State} (s : State) (r n t : Nat) (g : RingTag) (h_R : Allows R [.regs, .sch, .fjl, .free]) (h_s : Keeps R b₀ s) : Keeps R b₀ (tagExecuted s r n t g) := by
  unfold tagExecuted
  repeat' first
    | with_reducible assumption
    | (refine Allows.sub h_R ?_; decide)
    | with_reducible apply modTag_keeps
    | with_reducible apply retime_keeps
    | with_reducible apply modSlotAt_keeps
    | with_reducible apply Keeps.ite
    | extract_lets
    | split

theorem cancelAnswer_keeps {R : Part → Prop} {b₀ : State} (r n : Nat) (cxl exec : Nat) (s : State) (t : Nat) (h_R : Allows R [.regs, .sch, .act, .fjl, .free]) (h_s : Keeps R b₀ s) : Keeps R b₀ (cancelAnswer r n cxl exec s t) := by
  unfold cancelAnswer
  repeat' first
    | with_reducible assumption
    | (refine Allows.sub h_R ?_; decide)
    | with_reducible apply tagExecuted_keeps
    | with_reducible apply tagWithdrawn_keeps
    | with_reducible apply Keeps.ite
    | extract_lets
    | split

theorem resend_keeps {R : Part → Prop} {b₀ : State} (s : State) (r n : Nat) (q : RingCmd) (h_R : Allows R [.regs, .sch, .act, .fjl, .free]) (h_s : Keeps R b₀ s) : Keeps R b₀ (resend s r n q) := by
  unfold resend
  repeat' first
    | with_reducible assumption
    | (refine Allows.sub h_R ?_; decide)
    | with_reducible apply cancelAnswer_keeps
    | with_reducible apply entryLost_keeps
    | with_reducible apply modNode_keeps
    | with_reducible apply Keeps.foldl
    | intro _ _ _
    | with_reducible apply Keeps.ite

theorem commandAnswer_keeps {R : Part → Prop} {b₀ : State} (s : State) (r n : Nat) (q : RingCmd) (rsp : Nat) (h_R : Allows R [.sch, .act, .fjl]) (h_s : Keeps R b₀ s) : Keeps R b₀ (commandAnswer s r n q rsp) := by
  unfold commandAnswer
  repeat' first
    | with_reducible assumption
    | (refine Allows.sub h_R ?_; decide)
    | with_reducible apply modTag_keeps
    | with_reducible apply blockSlot_keeps
    | with_reducible apply addSwing_keeps
    | with_reducible apply Keeps.ite

theorem entryAnswer_keeps {R : Part → Prop} {b₀ : State} (s : State) (r n : Nat) (q : RingCmd) (a : List Byte) (i : Nat) (h_R : Allows R [.regs, .sch, .act, .fjl, .free]) (h_s : Keeps R b₀ s) : Keeps R b₀ (entryAnswer s r n q a i) := by
  unfold entryAnswer
  repeat' first
    | with_reducible assumption
    | (refine Allows.sub h_R ?_; decide)
    | with_reducible apply commandAnswer_keeps
    | with_reducible apply resend_keeps
    | with_reducible apply cancelAnswer_keeps
    | with_reducible apply modTag_keeps
    | with_reducible apply setSwings_keeps
    | with_reducible apply modSlotAt_keeps
    | with_reducible apply bump_keeps
    | with_reducible apply Keeps.foldl
    | intro _ _ _
    | with_reducible apply Keeps.ite
    | extract_lets
    | split

theorem takeReport_keeps {R : Part → Prop} {b₀ : State} (s : State) (r n : Nat) (e : List Byte) (h_R : Allows R [.regs, .tables, .recd, .sch, .act, .fjl]) (h_s : Keeps R b₀ s) : Keeps R b₀ (takeReport s r n e) := by
  unfold takeReport
  repeat' first
    | with_reducible assumption
    | (refine Allows.sub h_R ?_; decide)
    | with_reducible apply modRemCh_keeps
    | with_reducible apply nodeResult_keeps
    | with_reducible apply modSlotAt_keeps
    | with_reducible apply bump_keeps
    | with_reducible apply Keeps.ite
    | extract_lets
    | split
    | intro _
    | fail_if_no_progress beta_reduce
    | dsimp +zetaDelta only

theorem setReach_keeps {R : Part → Prop} {b₀ : State} (s : State) (r n : Nat) (reach : Bool) (h_R : Allows R [.regs, .recd, .fjl]) (h_s : Keeps R b₀ s) : Keeps R b₀ (setReach s r n reach) := by
  unfold setReach
  repeat' first
    | with_reducible assumption
    | (refine Allows.sub h_R ?_; decide)
    | with_reducible apply modNode_keeps
    | with_reducible apply record_keeps
    | with_reducible apply setB_keeps
    | with_reducible apply Keeps.ite

theorem takeArea_keeps {R : Part → Prop} {b₀ : State} (s : State) (r : Nat) (b : NodeBack) (h_R : Allows R [.regs, .tables, .recd, .sch, .act, .fjl]) (h_s : Keeps R b₀ s) : Keeps R b₀ (takeArea s r b) := by
  unfold takeArea
  repeat' first
    | with_reducible assumption
    | (refine Allows.sub h_R ?_; decide)
    | with_reducible apply setReach_keeps
    | with_reducible apply takeReport_keeps
    | with_reducible apply modNode_keeps
    | with_reducible apply bump_keeps
    | with_reducible apply setF_keeps
    | with_reducible apply Keeps.ite

theorem declareBreak_keeps {R : Part → Prop} {b₀ : State} (s : State) (r pos : Nat) (h_R : Allows R [.regs, .recd]) (h_s : Keeps R b₀ s) : Keeps R b₀ (declareBreak s r pos) := by
  unfold declareBreak
  repeat' first
    | with_reducible assumption
    | (refine Allows.sub h_R ?_; decide)
    | with_reducible apply record_keeps
    | with_reducible apply bump_keeps
    | with_reducible apply setF_keeps

theorem breakRing_keeps {R : Part → Prop} {b₀ : State} (s : State) (r pos : Nat) (h_R : Allows R [.regs, .recd, .fjl]) (h_s : Keeps R b₀ s) : Keeps R b₀ (breakRing s r pos) := by
  unfold breakRing
  repeat' first
    | with_reducible assumption
    | (refine Allows.sub h_R ?_; decide)
    | with_reducible apply declareBreak_keeps
    | with_reducible apply setRingState_keeps
    | with_reducible apply setF_keeps
    | with_reducible apply Keeps.ite

theorem showLos_keeps {R : Part → Prop} {b₀ : State} (s : State) (r : Nat) (b : RingBack) (h_R : Allows R [.regs]) (h_s : Keeps R b₀ s) : Keeps R b₀ (showLos s r b) := by
  unfold showLos
  repeat' first
    | with_reducible assumption
    | with_reducible apply setB_keeps

theorem healFailed_keeps {R : Part → Prop} {b₀ : State} (s : State) (r : Nat) (b : RingBack) (h_R : Allows R [.regs, .recd, .fjl]) (h_s : Keeps R b₀ s) : Keeps R b₀ (healFailed s r b) := by
  unfold healFailed
  repeat' first
    | with_reducible assumption
    | (refine Allows.sub h_R ?_; decide)
    | with_reducible apply declareBreak_keeps
    | with_reducible apply modRing_keeps

theorem continuity_keeps {R : Part → Prop} {b₀ : State} (s : State) (r : Nat) (b : RingBack) (h_R : Allows R [.regs, .recd, .fjl]) (h_s : Keeps R b₀ s) : Keeps R b₀ (continuity s r b) := by
  unfold continuity
  repeat' first
    | with_reducible assumption
    | (refine Allows.sub h_R ?_; decide)
    | with_reducible apply healFailed_keeps
    | with_reducible apply setRingState_keeps
    | with_reducible apply modRing_keeps
    | with_reducible apply setB_keeps
    | with_reducible apply setF_keeps
    | with_reducible apply Keeps.ite

theorem breakCheck_keeps {R : Part → Prop} {b₀ : State} (s : State) (r : Nat) (b : RingBack) (h_R : Allows R [.regs, .recd, .fjl]) (h_s : Keeps R b₀ s) : Keeps R b₀ (breakCheck s r b) := by
  unfold breakCheck
  repeat' first
    | with_reducible assumption
    | with_reducible apply breakRing_keeps
    | with_reducible apply Keeps.ite

theorem startCycle_keeps {R : Part → Prop} {b₀ : State} (s : State) (r : Nat) (h_R : Allows R [.fjl]) (h_s : Keeps R b₀ s) : Keeps R b₀ (startCycle s r) := by
  unfold startCycle
  repeat' first
    | with_reducible assumption
    | with_reducible apply modRing_keeps

theorem noteSent_keeps {R : Part → Prop} {b₀ : State} (r n : Nat) (s : State) (q : RingCmd) (h_R : Allows R [.regs, .sch, .fjl]) (h_s : Keeps R b₀ s) : Keeps R b₀ (noteSent r n s q) := by
  unfold noteSent
  repeat' first
    | with_reducible assumption
    | (refine Allows.sub h_R ?_; decide)
    | with_reducible apply modRemCh_keeps
    | with_reducible apply modFlags_keeps
    | with_reducible apply bump_keeps
    | with_reducible apply Keeps.ite
    | extract_lets
    | split

theorem sendArea_keeps {R : Part → Prop} {b₀ : State} (s : State) (r n : Nat) (h_R : Allows R [.regs, .sch, .fjl]) (h_s : Keeps R b₀ s) : PKeeps R b₀ (sendArea s r n) := by
  unfold sendArea
  repeat' first
    | with_reducible assumption
    | (refine Allows.sub h_R ?_; decide)
    | with_reducible apply noteSent_keeps
    | with_reducible apply modNode_keeps
    | with_reducible apply modRing_keeps
    | with_reducible apply bump_keeps
    | with_reducible apply PKeeps.fst
    | (refine PKeeps.of_eq ‹_› ?_)
    | with_reducible apply Keeps.foldl
    | intro _ _ _
    | extract_lets
    | split
    | intro _
    | fail_if_no_progress beta_reduce
    | with_reducible apply PKeeps.foldl
    | dsimp +zetaDelta only
    | with_reducible apply PKeeps.mk

theorem nodeCycle_keeps {R : Part → Prop} {b₀ : State} (r : Nat) (b : RingBack) (s : State) (n : Nat) (h_R : Allows R [.regs, .tables, .recd, .sch, .act, .fjl, .free]) (h_s : Keeps R b₀ s) : Keeps R b₀ (nodeCycle r b s n) := by
  unfold nodeCycle
  repeat' first
    | with_reducible assumption
    | (refine Allows.sub h_R ?_; decide)
    | with_reducible apply sendArea_keeps
    | with_reducible apply takeArea_keeps
    | with_reducible apply entryAnswer_keeps
    | with_reducible apply resend_keeps
    | with_reducible apply modNode_keeps
    | with_reducible apply bump_keeps
    | with_reducible apply PKeeps.fst
    | (refine PKeeps.of_eq ‹_› ?_)
    | with_reducible apply Keeps.foldl
    | intro _ _ _
    | with_reducible apply Keeps.ite
    | extract_lets
    | split

theorem countDelayed_keeps {R : Part → Prop} {b₀ : State} (s : State) (r n : Nat) (h_R : Allows R [.regs, .fjl]) (h_s : Keeps R b₀ s) : Keeps R b₀ (countDelayed s r n) := by
  unfold countDelayed
  repeat' first
    | with_reducible assumption
    | (refine Allows.sub h_R ?_; decide)
    | with_reducible apply modNode_keeps
    | with_reducible apply bump_keeps
    | with_reducible apply Keeps.ite

theorem syncDone_keeps {R : Part → Prop} {b₀ : State} (s : State) (r : Nat) (h_R : Allows R [.regs, .recd, .fjl]) (h_s : Keeps R b₀ s) : Keeps R b₀ (syncDone s r) := by
  unfold syncDone
  repeat' first
    | with_reducible assumption
    | with_reducible apply setRingState_keeps
    | with_reducible apply Keeps.ite

theorem showRing_keeps {R : Part → Prop} {b₀ : State} (s : State) (r : Nat) (h_R : Allows R [.regs, .recd, .fjl]) (h_s : Keeps R b₀ s) : Keeps R b₀ (showRing s r) := by
  unfold showRing
  repeat' first
    | with_reducible assumption
    | (refine Allows.sub h_R ?_; decide)
    | with_reducible apply setReach_keeps
    | with_reducible apply setB_keeps
    | with_reducible apply setF_keeps
    | with_reducible apply Keeps.foldl
    | intro _ _ _
    | with_reducible apply Keeps.ite

theorem serviceCycle_keeps {R : Part → Prop} {b₀ : State} (s : State) (r : Nat) (b : RingBack) (h_R : Allows R [.regs, .recd, .fjl]) (h_s : Keeps R b₀ s) : Keeps R b₀ (serviceCycle s r b) := by
  unfold serviceCycle
  repeat' first
    | with_reducible assumption
    | (refine Allows.sub h_R ?_; decide)
    | with_reducible apply syncDone_keeps
    | with_reducible apply serviceAnswer_keeps
    | with_reducible apply enumCycle_keeps
    | with_reducible apply bump_keeps
    | with_reducible apply Keeps.ite

theorem ringCycle_keeps {R : Part → Prop} {b₀ : State} (s : State) (r : Nat) (b : RingBack) (h_R : Allows R [.regs, .tables, .recd, .sch, .act, .fjl, .free]) (h_s : Keeps R b₀ s) : Keeps R b₀ (ringCycle s r b) := by
  unfold ringCycle
  repeat' first
    | with_reducible assumption
    | (refine Allows.sub h_R ?_; decide)
    | with_reducible apply serviceCycle_keeps
    | with_reducible apply showRing_keeps
    | with_reducible apply countDelayed_keeps
    | with_reducible apply nodeCycle_keeps
    | with_reducible apply startCycle_keeps
    | with_reducible apply breakCheck_keeps
    | with_reducible apply continuity_keeps
    | with_reducible apply showLos_keeps
    | with_reducible apply answerProbe_keeps
    | with_reducible apply modRing_keeps
    | with_reducible apply bump_keeps
    | with_reducible apply Keeps.foldl
    | intro _ _ _
    | with_reducible apply Keeps.ite

theorem execRingCycle_keeps {R : Part → Prop} {b₀ : State} (r : Nat) (b : RingBack) (s : State) (h_R : Allows R [.regs, .tables, .recd, .sch, .act, .fjl, .free]) (h_s : Keeps R b₀ s) : OKeeps R b₀ (execRingCycle r b s) := by
  unfold execRingCycle
  repeat' first
    | with_reducible assumption
    | with_reducible apply ringCycle_keeps
    | with_reducible apply OKeeps.answer

theorem execRingBreak_keeps {R : Part → Prop} {b₀ : State} (r pos : Nat) (s : State) (h_R : Allows R [.regs, .recd, .fjl]) (h_s : Keeps R b₀ s) : OKeeps R b₀ (execRingBreak r pos s) := by
  unfold execRingBreak
  repeat' first
    | with_reducible assumption
    | with_reducible apply breakRing_keeps
    | with_reducible apply OKeeps.answer

theorem execReportAreaTimeout_keeps {R : Part → Prop} {b₀ : State} (r n : Nat) (s : State) (h_R : Allows R [.regs, .recd, .fjl]) (h_s : Keeps R b₀ s) : OKeeps R b₀ (execReportAreaTimeout r n s) := by
  unfold execReportAreaTimeout
  repeat' first
    | with_reducible assumption
    | with_reducible apply setReach_keeps
    | with_reducible apply OKeeps.answer
    | with_reducible apply OKeeps.next
    | extract_lets
    | split

theorem execTagRelease_keeps {R : Part → Prop} {b₀ : State} (r n t : Nat) (s : State) (h_R : Allows R [.fjl]) (h_s : Keeps R b₀ s) : OKeeps R b₀ (execTagRelease r n t s) := by
  unfold execTagRelease
  repeat' first
    | with_reducible assumption
    | with_reducible apply modTag_keeps
    | with_reducible apply OKeeps.answer
    | with_reducible apply OKeeps.next
    | extract_lets
    | split

theorem ringStop_keeps {R : Part → Prop} {b₀ : State} (s : State) (r : Nat) (h_R : Allows R [.regs, .sys, .recd, .sch, .act, .fjl]) (h_s : Keeps R b₀ s) : Keeps R b₀ (ringStop s r) := by
  unfold ringStop
  repeat' first
    | with_reducible assumption
    | (refine Allows.sub h_R ?_; decide)
    | with_reducible apply ringGoSafe_keeps
    | with_reducible apply setRingState_keeps
    | with_reducible apply modRing_keeps
    | with_reducible apply setB_keeps
    | with_reducible apply setF_keeps
    | with_reducible apply Keeps.foldl
    | intro _ _ _

theorem ringEnable_keeps {R : Part → Prop} {b₀ : State} (s : State) (r : Nat) (h_R : Allows R [.regs, .sys, .recd, .sch, .act, .fjl]) (h_s : Keeps R b₀ s) : Keeps R b₀ (ringEnable s r) := by
  unfold ringEnable
  repeat' first
    | with_reducible assumption
    | (refine Allows.sub h_R ?_; decide)
    | with_reducible apply ringStop_keeps
    | with_reducible apply setRingState_keeps
    | with_reducible apply modRing_keeps
    | with_reducible apply resetRegs_keeps
    | with_reducible apply Keeps.foldl
    | intro _ _ _
    | with_reducible apply Keeps.ite

theorem rateRefresh_keeps {R : Part → Prop} {b₀ : State} (s : State) (c : Nat) (h_R : Allows R [.fjl]) (h_s : Keeps R b₀ s) : Keeps R b₀ (rateRefresh s c) := by
  unfold rateRefresh
  repeat' first
    | with_reducible assumption
    | with_reducible apply pushCmd_keeps
    | with_reducible apply Keeps.ite

theorem takeMode_keeps {R : Part → Prop} {b₀ : State} (s : State) (c : Nat) (h_R : Allows R [.fjl]) (h_s : Keeps R b₀ s) : Keeps R b₀ (takeMode s c) := by
  unfold takeMode
  repeat' first
    | with_reducible assumption
    | with_reducible apply modRemCh_keeps
    | with_reducible apply Keeps.ite
    | extract_lets
    | split

theorem ringBoundary_keeps {R : Part → Prop} {b₀ : State} (s : State) (r : Nat) (h_R : Allows R [.regs, .sys, .recd, .sch, .act, .fjl]) (h_s : Keeps R b₀ s) : Keeps R b₀ (ringBoundary s r) := by
  unfold ringBoundary
  repeat' first
    | with_reducible assumption
    | (refine Allows.sub h_R ?_; decide)
    | with_reducible apply ringEnable_keeps
    | with_reducible apply showLead_keeps
    | with_reducible apply modRing_keeps
    | with_reducible apply wrPair_keeps
    | with_reducible apply setB_keeps
    | with_reducible apply Keeps.foldl
    | intro _ _ _
    | with_reducible apply Keeps.ite

theorem fjlBoundary_keeps {R : Part → Prop} {b₀ : State} (s : State) (h_R : Allows R [.regs, .sys, .recd, .sch, .act, .fjl]) (h_s : Keeps R b₀ s) : Keeps R b₀ (fjlBoundary s) := by
  unfold fjlBoundary
  repeat' first
    | with_reducible assumption
    | (refine Allows.sub h_R ?_; decide)
    | with_reducible apply ringBoundary_keeps
    | with_reducible apply takeMode_keeps
    | with_reducible apply rateRefresh_keeps
    | with_reducible apply Keeps.foldl
    | intro _ _ _

theorem heal_keeps {R : Part → Prop} {b₀ : State} (s : State) (r : Nat) (h_R : Allows R [.fjl]) (h_s : Keeps R b₀ s) : Keeps R b₀ (heal s r) := by
  unfold heal
  repeat' first
    | with_reducible assumption
    | with_reducible apply modRing_keeps
    | with_reducible apply Keeps.ite

theorem nodeClear_keeps {R : Part → Prop} {b₀ : State} (s : State) (r n : Nat) (h_R : Allows R [.fjl]) (h_s : Keeps R b₀ s) : Keeps R b₀ (nodeClear s r n) := by
  unfold nodeClear
  repeat' first
    | with_reducible assumption
    | with_reducible apply modRing_keeps
    | with_reducible apply Keeps.ite

theorem safeWrite_keeps {R : Part → Prop} {b₀ : State} (s : State) (r : Nat) (old : Bool) (h_R : Allows R [.regs, .sys, .sch, .act, .fjl]) (h_s : Keeps R b₀ s) : Keeps R b₀ (safeWrite s r old) := by
  unfold safeWrite
  repeat' first
    | with_reducible assumption
    | with_reducible apply ringGoSafe_keeps
    | with_reducible apply Keeps.ite

theorem fjlReset_keeps {R : Part → Prop} {b₀ : State} (s : State) (r : Nat) (h_R : Allows R [.regs, .fjl]) (h_s : Keeps R b₀ s) : Keeps R b₀ (fjlReset s r) := by
  unfold fjlReset
  have r_fjl : R .fjl := h_R _ (by decide)
  repeat' first
    | with_reducible assumption
    | (refine Allows.sub h_R ?_; decide)
    | with_reducible apply resetRegs_keeps
    | with_reducible apply Keeps.ite
    | extract_lets
    | fail_if_no_progress (with_reducible refine Keeps.put_fjl r_fjl ?_)

end Sys2Proof.Machine
end

