-- ==== Sys2Proof/Laws/KeepsPwm.lean ====
section
/-!
SUPPORT. Sys2Proof/Laws/KeepsPwm.lean: the operations of Machine/Pwm.lean keep what `Keeps` names.
-/
namespace Sys2Proof.Machine

theorem modPwm_keeps {R : Part → Prop} {b₀ : State} (s : State) (g : Nat) (f : PwmGrp → PwmGrp) (h_R : Allows R [.pwm]) (h_s : Keeps R b₀ s) : Keeps R b₀ (modPwm s g f) := by
  unfold modPwm
  have r_pwm : R .pwm := h_R _ (by decide)
  repeat' first
    | with_reducible assumption
    | with_reducible apply Keeps.ite
    | extract_lets
    | fail_if_no_progress (with_reducible refine Keeps.put_pwm r_pwm ?_)

theorem setBitF_keeps {R : Part → Prop} {b₀ : State} (s : State) (f : Field) (k : Nat) (b : Bool) (h_R : Allows R [.regs]) (h_s : Keeps R b₀ s) : Keeps R b₀ (setBitF s f k b) := by
  unfold setBitF
  repeat' first
    | with_reducible assumption
    | with_reducible apply setB_keeps

theorem showPwm_keeps {R : Part → Prop} {b₀ : State} (s : State) (g : Nat) (h_R : Allows R [.regs]) (h_s : Keeps R b₀ s) : Keeps R b₀ (showPwm s g) := by
  unfold showPwm
  repeat' first
    | with_reducible assumption
    | with_reducible apply setBitF_keeps
    | with_reducible apply setB_keeps

theorem formCompares_keeps {R : Part → Prop} {b₀ : State} (s : State) (g : Nat) (h_R : Allows R [.regs, .pwm]) (h_s : Keeps R b₀ s) : Keeps R b₀ (formCompares s g) := by
  unfold formCompares
  repeat' first
    | with_reducible assumption
    | (refine Allows.sub h_R ?_; decide)
    | with_reducible apply modPwm_keeps
    | with_reducible apply bump_keeps
    | with_reducible apply setB_keeps
    | with_reducible apply setF_keeps
    | with_reducible apply Keeps.foldl
    | intro _ _ _
    | with_reducible apply Keeps.ite

theorem takeWrites_keeps {R : Part → Prop} {b₀ : State} (s : State) (g t : Nat) (h_R : Allows R [.pwm]) (h_s : Keeps R b₀ s) : Keeps R b₀ (takeWrites s g t) := by
  unfold takeWrites
  repeat' first
    | with_reducible assumption
    | with_reducible apply modPwm_keeps

theorem noteLand_keeps {R : Part → Prop} {b₀ : State} (g pcnt : Nat) (s : State) (off : Nat) (h_R : Allows R [.regs]) (h_s : Keeps R b₀ s) : Keeps R b₀ (noteLand g pcnt s off) := by
  unfold noteLand
  repeat' first
    | with_reducible assumption
    | with_reducible apply setB_keeps
    | with_reducible apply setF_keeps
    | with_reducible apply Keeps.ite

theorem copyShadow_keeps {R : Part → Prop} {b₀ : State} (s : State) (g t : Nat) (h_R : Allows R [.regs, .pwm]) (h_s : Keeps R b₀ s) : Keeps R b₀ (copyShadow s g t) := by
  unfold copyShadow
  repeat' first
    | with_reducible assumption
    | (refine Allows.sub h_R ?_; decide)
    | with_reducible apply noteLand_keeps
    | with_reducible apply setBitF_keeps
    | with_reducible apply modPwm_keeps
    | with_reducible apply setF_keeps
    | with_reducible apply Keeps.foldl
    | intro _ _ _
    | with_reducible apply Keeps.ite

theorem shadowWrite_keeps {R : Part → Prop} {b₀ : State} (s : State) (g off : Nat) (v : Word) (t : Nat) (loop : Option Nat) (h_R : Allows R [.regs, .pwm]) (h_s : Keeps R b₀ s) : Keeps R b₀ (shadowWrite s g off v t loop) := by
  unfold shadowWrite
  repeat' first
    | with_reducible assumption
    | (refine Allows.sub h_R ?_; decide)
    | with_reducible apply modPwm_keeps
    | with_reducible apply setB_keeps
    | with_reducible apply setF_keeps
    | with_reducible apply Keeps.ite

theorem loopCompare_keeps {R : Part → Prop} {b₀ : State} (s : State) (g p : Nat) (num den : Int) (t n : Nat) (h_R : Allows R [.regs, .pwm]) (h_s : Keeps R b₀ s) : Keeps R b₀ (loopCompare s g p num den t n) := by
  unfold loopCompare
  repeat' first
    | with_reducible assumption
    | (refine Allows.sub h_R ?_; decide)
    | with_reducible apply shadowWrite_keeps
    | with_reducible apply takeWrites_keeps
    | with_reducible apply setF_keeps

theorem armLoadAll_keeps {R : Part → Prop} {b₀ : State} (s : State) (v : Nat) (h_R : Allows R [.regs, .pwm]) (h_s : Keeps R b₀ s) : Keeps R b₀ (armLoadAll s v) := by
  unfold armLoadAll
  repeat' first
    | with_reducible assumption
    | (refine Allows.sub h_R ?_; decide)
    | with_reducible apply showPwm_keeps
    | with_reducible apply setBitF_keeps
    | with_reducible apply modPwm_keeps
    | with_reducible apply Keeps.foldl
    | intro _ _ _
    | with_reducible apply Keeps.ite

theorem pwmFlag_keeps {R : Part → Prop} {b₀ : State} (s : State) (g k : Nat) (h_R : Allows R [.regs, .hif]) (h_s : Keeps R b₀ s) : Keeps R b₀ (pwmFlag s g k) := by
  unfold pwmFlag
  repeat' first
    | with_reducible assumption
    | (refine Allows.sub h_R ?_; decide)
    | with_reducible apply raiseIrq_keeps
    | with_reducible apply setB_keeps
    | with_reducible apply Keeps.ite

theorem pwmEvent_keeps {R : Part → Prop} {b₀ : State} (s : State) (g k : Nat) (h_R : Allows R [.regs, .hif, .pwm]) (h_s : Keeps R b₀ s) : Keeps R b₀ (pwmEvent s g k) := by
  unfold pwmEvent
  repeat' first
    | with_reducible assumption
    | (refine Allows.sub h_R ?_; decide)
    | with_reducible apply pwmFlag_keeps
    | with_reducible apply modPwm_keeps
    | with_reducible apply Keeps.ite

theorem compareEvent_keeps {R : Part → Prop} {b₀ : State} (s : State) (g p : Nat) (h_R : Allows R [.regs, .hif, .pwm]) (h_s : Keeps R b₀ s) : Keeps R b₀ (compareEvent s g p) := by
  unfold compareEvent
  repeat' first
    | with_reducible assumption
    | (refine Allows.sub h_R ?_; decide)
    | with_reducible apply pwmEvent_keeps
    | with_reducible apply modPwm_keeps
    | with_reducible apply Keeps.ite

theorem periodEvent_keeps {R : Part → Prop} {b₀ : State} (s : State) (g : Nat) (h_R : Allows R [.regs, .hif, .pwm]) (h_s : Keeps R b₀ s) : Keeps R b₀ (periodEvent s g) := by
  unfold periodEvent
  repeat' first
    | with_reducible assumption
    | (refine Allows.sub h_R ?_; decide)
    | with_reducible apply pwmEvent_keeps
    | with_reducible apply modPwm_keeps
    | with_reducible apply Keeps.ite

theorem periodBoundary_keeps {R : Part → Prop} {b₀ : State} (s : State) (g : Nat) (h_R : Allows R [.regs, .hif, .pwm]) (h_s : Keeps R b₀ s) : Keeps R b₀ (periodBoundary s g) := by
  unfold periodBoundary
  repeat' first
    | with_reducible assumption
    | (refine Allows.sub h_R ?_; decide)
    | with_reducible apply periodEvent_keeps
    | with_reducible apply compareEvent_keeps
    | with_reducible apply pwmEvent_keeps
    | with_reducible apply copyShadow_keeps
    | with_reducible apply takeWrites_keeps
    | with_reducible apply formCompares_keeps
    | with_reducible apply showPwm_keeps
    | with_reducible apply modPwm_keeps
    | with_reducible apply setF_keeps
    | with_reducible apply Keeps.ite

theorem execPeriodBoundary_keeps {R : Part → Prop} {b₀ : State} (g : Nat) (s : State) (h_R : Allows R [.regs, .hif, .pwm]) (h_s : Keeps R b₀ s) : OKeeps R b₀ (execPeriodBoundary g s) := by
  unfold execPeriodBoundary
  repeat' first
    | with_reducible assumption
    | with_reducible apply periodBoundary_keeps
    | with_reducible apply OKeeps.answer

theorem execPwmCmpEvent_keeps {R : Part → Prop} {b₀ : State} (g p : Nat) (s : State) (h_R : Allows R [.regs, .hif, .pwm]) (h_s : Keeps R b₀ s) : OKeeps R b₀ (execPwmCmpEvent g p s) := by
  unfold execPwmCmpEvent
  repeat' first
    | with_reducible assumption
    | with_reducible apply compareEvent_keeps
    | with_reducible apply OKeeps.answer

theorem execPwmPrdEvent_keeps {R : Part → Prop} {b₀ : State} (g : Nat) (s : State) (h_R : Allows R [.regs, .hif, .pwm]) (h_s : Keeps R b₀ s) : OKeeps R b₀ (execPwmPrdEvent g s) := by
  unfold execPwmPrdEvent
  repeat' first
    | with_reducible assumption
    | with_reducible apply periodEvent_keeps
    | with_reducible apply OKeeps.answer

theorem startPwm_keeps {R : Part → Prop} {b₀ : State} (s : State) (g : Nat) (h_R : Allows R [.regs, .pwm]) (h_s : Keeps R b₀ s) : Keeps R b₀ (startPwm s g) := by
  unfold startPwm
  repeat' first
    | with_reducible assumption
    | (refine Allows.sub h_R ?_; decide)
    | with_reducible apply copyShadow_keeps
    | with_reducible apply takeWrites_keeps
    | with_reducible apply formCompares_keeps
    | with_reducible apply showPwm_keeps
    | with_reducible apply modPwm_keeps
    | with_reducible apply setB_keeps
    | with_reducible apply setF_keeps

theorem stopPwm_keeps {R : Part → Prop} {b₀ : State} (s : State) (g : Nat) (h_R : Allows R [.regs, .pwm]) (h_s : Keeps R b₀ s) : Keeps R b₀ (stopPwm s g) := by
  unfold stopPwm
  repeat' first
    | with_reducible assumption
    | (refine Allows.sub h_R ?_; decide)
    | with_reducible apply showPwm_keeps
    | with_reducible apply modPwm_keeps
    | with_reducible apply setB_keeps

theorem resumePwm_keeps {R : Part → Prop} {b₀ : State} (s : State) (g : Nat) (h_R : Allows R [.regs, .pwm]) (h_s : Keeps R b₀ s) : Keeps R b₀ (resumePwm s g) := by
  unfold resumePwm
  repeat' first
    | with_reducible assumption
    | with_reducible apply startPwm_keeps
    | with_reducible apply Keeps.ite

theorem forcePwm_keeps {R : Part → Prop} {b₀ : State} (s : State) (h_R : Allows R [.regs, .pwm]) (h_s : Keeps R b₀ s) : Keeps R b₀ (forcePwm s) := by
  unfold forcePwm
  repeat' first
    | with_reducible assumption
    | (refine Allows.sub h_R ?_; decide)
    | with_reducible apply stopPwm_keeps
    | with_reducible apply setB_keeps
    | with_reducible apply Keeps.foldl
    | intro _ _ _
    | with_reducible apply Keeps.ite

theorem pwmCtrlEffect_keeps {R : Part → Prop} {b₀ : State} (s : State) (g : Nat) (old : Word) (h_R : Allows R [.regs, .pwm]) (h_s : Keeps R b₀ s) : Keeps R b₀ (pwmCtrlEffect s g old) := by
  unfold pwmCtrlEffect
  repeat' first
    | with_reducible assumption
    | (refine Allows.sub h_R ?_; decide)
    | with_reducible apply stopPwm_keeps
    | with_reducible apply startPwm_keeps
    | with_reducible apply showPwm_keeps
    | with_reducible apply modPwm_keeps
    | with_reducible apply Keeps.ite

theorem pwmTrip_keeps {R : Part → Prop} {b₀ : State} (s : State) (g i : Nat) (h_R : Allows R [.regs, .hif, .recd, .pwm]) (h_s : Keeps R b₀ s) : Keeps R b₀ (pwmTrip s g i) := by
  unfold pwmTrip
  repeat' first
    | with_reducible assumption
    | (refine Allows.sub h_R ?_; decide)
    | with_reducible apply stopPwm_keeps
    | with_reducible apply pwmFlag_keeps
    | with_reducible apply record_keeps
    | with_reducible apply bump_keeps
    | with_reducible apply setB_keeps

theorem showTrip_keeps {R : Part → Prop} {b₀ : State} (s : State) (g i : Nat) (active : Bool) (h_R : Allows R [.regs]) (h_s : Keeps R b₀ s) : Keeps R b₀ (showTrip s g i active) := by
  unfold showTrip
  repeat' first
    | with_reducible assumption
    | with_reducible apply setB_keeps

theorem tripRun_keeps {R : Part → Prop} {b₀ : State} (g i t : Nat) (s : State) (r : Bool × Nat) (h_R : Allows R [.regs, .sys, .hif, .recd, .pwm]) (h_s : Keeps R b₀ s) : Keeps R b₀ (tripRun g i t s r) := by
  unfold tripRun
  repeat' first
    | with_reducible assumption
    | (refine Allows.sub h_R ?_; decide)
    | with_reducible apply showTrip_keeps
    | with_reducible apply pwmTrip_keeps
    | with_reducible apply modPwm_keeps
    | with_reducible apply edgeEvent_keeps
    | with_reducible apply Keeps.ite

theorem tripRuns_keeps {R : Part → Prop} {b₀ : State} (g i : Nat) (s : State) (t : Nat) (l : List (Bool × Nat)) (h_R : Allows R [.regs, .sys, .hif, .recd, .pwm]) (h_s : Keeps R b₀ s) : Keeps R b₀ (tripRuns g i s t l) := by
  induction l generalizing s t with
  | nil => exact h_s
  | cons r l ih => exact ih _ _ (tripRun_keeps _ _ _ _ _ (h_R.sub (by decide)) h_s)

theorem tripPin_keeps {R : Part → Prop} {b₀ : State} (s : State) (p : TripPin) (h_R : Allows R [.regs, .sys, .hif, .recd, .pwm]) (h_s : Keeps R b₀ s) : Keeps R b₀ (tripPin s p) := by
  unfold tripPin
  repeat' first
    | with_reducible assumption
    | with_reducible apply tripRuns_keeps
    | with_reducible apply Keeps.ite

theorem execPwmTrip_keeps {R : Part → Prop} {b₀ : State} (p : TripPin) (s : State) (h_R : Allows R [.regs, .sys, .hif, .recd, .pwm]) (h_s : Keeps R b₀ s) : OKeeps R b₀ (execPwmTrip p s) := by
  unfold execPwmTrip
  repeat' first
    | with_reducible assumption
    | with_reducible apply tripPin_keeps
    | with_reducible apply OKeeps.answer

theorem execDelayLineLock_keeps {R : Part → Prop} {b₀ : State} (trim : Nat) (s : State) (h_R : Allows R [.regs]) (h_s : Keeps R b₀ s) : OKeeps R b₀ (execDelayLineLock trim s) := by
  unfold execDelayLineLock
  repeat' first
    | with_reducible assumption
    | with_reducible apply setB_keeps
    | with_reducible apply setF_keeps
    | with_reducible apply OKeeps.answer

theorem pwmReset_keeps {R : Part → Prop} {b₀ : State} (s : State) (h_R : Allows R [.regs, .sys, .pwm]) (h_s : Keeps R b₀ s) : Keeps R b₀ (pwmReset s) := by
  unfold pwmReset
  have r_pwm : R .pwm := h_R _ (by decide)
  repeat' first
    | with_reducible assumption
    | (refine Allows.sub h_R ?_; decide)
    | with_reducible apply dropLines_keeps
    | with_reducible apply resetRegs_keeps
    | with_reducible apply Keeps.ite
    | extract_lets
    | fail_if_no_progress (with_reducible refine Keeps.put_pwm r_pwm ?_)

end Sys2Proof.Machine
end

