-- ==== Sys2Proof/Laws/KeepsEnc.lean ====
section
/-!
SUPPORT. Sys2Proof/Laws/KeepsEnc.lean: the operations of Machine/Enc.lean keep what `Keeps` names.
-/
namespace Sys2Proof.Machine

theorem modCnt_keeps {R : Part → Prop} {b₀ : State} (s : State) (u : Nat) (f : Counter → Counter) (h_R : Allows R [.enc]) (h_s : Keeps R b₀ s) : Keeps R b₀ (modCnt s u f) := by
  unfold modCnt
  have r_enc : R .enc := h_R _ (by decide)
  repeat' first
    | with_reducible assumption
    | with_reducible apply Keeps.ite
    | extract_lets
    | fail_if_no_progress (with_reducible refine Keeps.put_enc r_enc ?_)

theorem modSer_keeps {R : Part → Prop} {b₀ : State} (s : State) (p : Nat) (f : Serial → Serial) (h_R : Allows R [.enc]) (h_s : Keeps R b₀ s) : Keeps R b₀ (modSer s p f) := by
  unfold modSer
  have r_enc : R .enc := h_R _ (by decide)
  repeat' first
    | with_reducible assumption
    | with_reducible apply Keeps.ite
    | extract_lets
    | fail_if_no_progress (with_reducible refine Keeps.put_enc r_enc ?_)

theorem modEmu_keeps {R : Part → Prop} {b₀ : State} (s : State) (k : Nat) (f : Emu → Emu) (h_R : Allows R [.enc]) (h_s : Keeps R b₀ s) : Keeps R b₀ (modEmu s k f) := by
  unfold modEmu
  have r_enc : R .enc := h_R _ (by decide)
  repeat' first
    | with_reducible assumption
    | with_reducible apply Keeps.ite
    | extract_lets
    | fail_if_no_progress (with_reducible refine Keeps.put_enc r_enc ?_)

theorem modAin_keeps {R : Part → Prop} {b₀ : State} (s : State) (a : Nat) (f : Ain → Ain) (h_R : Allows R [.enc]) (h_s : Keeps R b₀ s) : Keeps R b₀ (modAin s a f) := by
  unfold modAin
  have r_enc : R .enc := h_R _ (by decide)
  repeat' first
    | with_reducible assumption
    | with_reducible apply Keeps.ite
    | extract_lets
    | fail_if_no_progress (with_reducible refine Keeps.put_enc r_enc ?_)

theorem showSpeed_keeps {R : Part → Prop} {b₀ : State} (s : State) (u : Nat) (v : Int) (h_R : Allows R [.regs]) (h_s : Keeps R b₀ s) : Keeps R b₀ (showSpeed s u v) := by
  unfold showSpeed
  repeat' first
    | with_reducible assumption
    | with_reducible apply wr_keeps
    | with_reducible apply Keeps.ite

theorem startWindow_keeps {R : Part → Prop} {b₀ : State} (s : State) (u t : Nat) (h_R : Allows R [.regs, .enc]) (h_s : Keeps R b₀ s) : Keeps R b₀ (startWindow s u t) := by
  unfold startWindow
  repeat' first
    | with_reducible assumption
    | (refine Allows.sub h_R ?_; decide)
    | with_reducible apply showSpeed_keeps
    | with_reducible apply modCnt_keeps

theorem showEnc_keeps {R : Part → Prop} {b₀ : State} (s : State) (h_R : Allows R [.regs]) (h_s : Keeps R b₀ s) : Keeps R b₀ (showEnc s) := by
  unfold showEnc
  repeat' first
    | with_reducible assumption
    | with_reducible apply setF_keeps

theorem setAngle_keeps {R : Part → Prop} {b₀ : State} (s : State) (p ang : Nat) (v : Bool) (h_R : Allows R [.regs]) (h_s : Keeps R b₀ s) : Keeps R b₀ (setAngle s p ang v) := by
  unfold setAngle
  repeat' first
    | with_reducible assumption
    | with_reducible apply setB_keeps
    | with_reducible apply setF_keeps

theorem quadAngle_keeps {R : Part → Prop} {b₀ : State} (s : State) (p : Nat) (h_R : Allows R [.regs]) (h_s : Keeps R b₀ s) : Keeps R b₀ (quadAngle s p) := by
  unfold quadAngle
  repeat' first
    | with_reducible assumption
    | with_reducible apply setAngle_keeps
    | with_reducible apply setB_keeps
    | with_reducible apply Keeps.ite

theorem followCount_keeps {R : Part → Prop} {b₀ : State} (s : State) (p t : Nat) (h_R : Allows R [.regs, .enc]) (h_s : Keeps R b₀ s) : Keeps R b₀ (followCount s p t) := by
  unfold followCount
  repeat' first
    | with_reducible assumption
    | (refine Allows.sub h_R ?_; decide)
    | with_reducible apply quadAngle_keeps
    | with_reducible apply setAngle_keeps
    | with_reducible apply modSer_keeps
    | with_reducible apply wr_keeps
    | with_reducible apply Keeps.ite

theorem reportCount_keeps {R : Part → Prop} {b₀ : State} (s : State) (u t : Nat) (h_R : Allows R [.regs, .enc]) (h_s : Keeps R b₀ s) : Keeps R b₀ (reportCount s u t) := by
  unfold reportCount
  repeat' first
    | with_reducible assumption
    | (refine Allows.sub h_R ?_; decide)
    | with_reducible apply followCount_keeps
    | with_reducible apply modCnt_keeps
    | with_reducible apply setB_keeps
    | with_reducible apply wr_keeps
    | with_reducible apply Keeps.ite

theorem zeroCount_keeps {R : Part → Prop} {b₀ : State} (s : State) (p t : Nat) (h_R : Allows R [.regs, .enc]) (h_s : Keeps R b₀ s) : Keeps R b₀ (zeroCount s p t) := by
  unfold zeroCount
  repeat' first
    | with_reducible assumption
    | (refine Allows.sub h_R ?_; decide)
    | with_reducible apply followCount_keeps
    | with_reducible apply modCnt_keeps

theorem setUnitState_keeps {R : Part → Prop} {b₀ : State} (s : State) (u st t : Nat) (h_R : Allows R [.regs, .enc]) (h_s : Keeps R b₀ s) : Keeps R b₀ (setUnitState s u st t) := by
  unfold setUnitState
  repeat' first
    | with_reducible assumption
    | (refine Allows.sub h_R ?_; decide)
    | with_reducible apply showEnc_keeps
    | with_reducible apply startWindow_keeps
    | with_reducible apply setF_keeps
    | with_reducible apply Keeps.ite

theorem enterFault_keeps {R : Part → Prop} {b₀ : State} (s : State) (u : Nat) (h_R : Allows R [.regs, .recd, .enc]) (h_s : Keeps R b₀ s) : Keeps R b₀ (enterFault s u) := by
  unfold enterFault
  repeat' first
    | with_reducible assumption
    | (refine Allows.sub h_R ?_; decide)
    | with_reducible apply setUnitState_keeps
    | with_reducible apply modSer_keeps
    | with_reducible apply record_keeps
    | with_reducible apply setB_keeps
    | with_reducible apply Keeps.ite

theorem illegal_keeps {R : Part → Prop} {b₀ : State} (s : State) (u t : Nat) (h_R : Allows R [.regs, .recd, .enc]) (h_s : Keeps R b₀ s) : Keeps R b₀ (illegal s u t) := by
  unfold illegal
  repeat' first
    | with_reducible assumption
    | (refine Allows.sub h_R ?_; decide)
    | with_reducible apply enterFault_keeps
    | with_reducible apply modCnt_keeps
    | with_reducible apply bump_keeps
    | with_reducible apply setB_keeps
    | with_reducible apply Keeps.ite

theorem moveCount_keeps {R : Part → Prop} {b₀ : State} (s : State) (u t : Nat) (d : Int) (h_R : Allows R [.regs, .enc]) (h_s : Keeps R b₀ s) : Keeps R b₀ (moveCount s u t d) := by
  unfold moveCount
  repeat' first
    | with_reducible assumption
    | (refine Allows.sub h_R ?_; decide)
    | with_reducible apply reportCount_keeps
    | with_reducible apply modCnt_keeps

theorem copyEmu_keeps {R : Part → Prop} {b₀ : State} (s : State) (src idx : Nat) (a b : Bool) (h_R : Allows R [.enc]) (h_s : Keeps R b₀ s) : Keeps R b₀ (copyEmu s src idx a b) := by
  unfold copyEmu
  repeat' first
    | with_reducible assumption
    | with_reducible apply modEmu_keeps
    | with_reducible apply Keeps.foldl
    | intro _ _ _
    | with_reducible apply Keeps.ite

theorem quadChange_keeps {R : Part → Prop} {b₀ : State} (s : State) (u : Nat) (a b : Bool) (n t : Nat) (h_R : Allows R [.regs, .recd, .enc]) (h_s : Keeps R b₀ s) : Keeps R b₀ (quadChange s u a b n t) := by
  unfold quadChange
  repeat' first
    | with_reducible assumption
    | (refine Allows.sub h_R ?_; decide)
    | with_reducible apply copyEmu_keeps
    | with_reducible apply moveCount_keeps
    | with_reducible apply illegal_keeps
    | with_reducible apply modCnt_keeps
    | with_reducible apply setF_keeps
    | with_reducible apply Keeps.ite

theorem execQuadTransition_keeps {R : Part → Prop} {b₀ : State} (u : Nat) (a b : Bool) (n t : Nat) (s : State) (h_R : Allows R [.regs, .recd, .enc]) (h_s : Keeps R b₀ s) : OKeeps R b₀ (execQuadTransition u a b n t s) := by
  unfold execQuadTransition
  repeat' first
    | with_reducible assumption
    | with_reducible apply quadChange_keeps
    | with_reducible apply OKeeps.answer

theorem indexEdge_keeps {R : Part → Prop} {b₀ : State} (s : State) (p : Nat) (z : Bool) (n t : Nat) (h_R : Allows R [.regs, .sys, .enc]) (h_s : Keeps R b₀ s) : Keeps R b₀ (indexEdge s p z n t) := by
  unfold indexEdge
  repeat' first
    | with_reducible assumption
    | (refine Allows.sub h_R ?_; decide)
    | with_reducible apply zeroCount_keeps
    | with_reducible apply followCount_keeps
    | with_reducible apply modSer_keeps
    | with_reducible apply edgeEvent_keeps
    | with_reducible apply setB_keeps
    | with_reducible apply setF_keeps
    | with_reducible apply wr_keeps
    | with_reducible apply Keeps.ite

theorem execIndexEdge_keeps {R : Part → Prop} {b₀ : State} (p : Nat) (z : Bool) (n t : Nat) (s : State) (h_R : Allows R [.regs, .sys, .enc]) (h_s : Keeps R b₀ s) : OKeeps R b₀ (execIndexEdge p z n t s) := by
  unfold execIndexEdge
  repeat' first
    | with_reducible assumption
    | with_reducible apply indexEdge_keeps
    | with_reducible apply OKeeps.answer

theorem wheelPulse_keeps {R : Part → Prop} {b₀ : State} (s : State) (w : Nat) (rising bHigh : Bool) (n t : Nat) (h_R : Allows R [.regs, .enc]) (h_s : Keeps R b₀ s) : Keeps R b₀ (wheelPulse s w rising bHigh n t) := by
  unfold wheelPulse
  repeat' first
    | with_reducible assumption
    | (refine Allows.sub h_R ?_; decide)
    | with_reducible apply copyEmu_keeps
    | with_reducible apply moveCount_keeps
    | with_reducible apply reportCount_keeps
    | with_reducible apply modCnt_keeps
    | with_reducible apply Keeps.ite

theorem execWheelPulse_keeps {R : Part → Prop} {b₀ : State} (w : Nat) (rising bHigh : Bool) (n t : Nat) (s : State) (h_R : Allows R [.regs, .enc]) (h_s : Keeps R b₀ s) : OKeeps R b₀ (execWheelPulse w rising bHigh n t s) := by
  unfold execWheelPulse
  repeat' first
    | with_reducible assumption
    | with_reducible apply wheelPulse_keeps
    | with_reducible apply OKeeps.answer

theorem serialStart_keeps {R : Part → Prop} {b₀ : State} (s : State) (p : Nat) (h_R : Allows R [.enc]) (h_s : Keeps R b₀ s) : Keeps R b₀ (serialStart s p) := by
  unfold serialStart
  repeat' first
    | with_reducible assumption
    | with_reducible apply modSer_keeps
    | with_reducible apply Keeps.ite

theorem execSerialReadStart_keeps {R : Part → Prop} {b₀ : State} (p : Nat) (s : State) (h_R : Allows R [.enc]) (h_s : Keeps R b₀ s) : OKeeps R b₀ (execSerialReadStart p s) := by
  unfold execSerialReadStart
  repeat' first
    | with_reducible assumption
    | with_reducible apply serialStart_keeps
    | with_reducible apply OKeeps.answer

theorem placeWord_keeps {R : Part → Prop} {b₀ : State} (s : State) (p v t : Nat) (h_R : Allows R [.regs, .enc]) (h_s : Keeps R b₀ s) : Keeps R b₀ (placeWord s p v t) := by
  unfold placeWord
  repeat' first
    | with_reducible assumption
    | (refine Allows.sub h_R ?_; decide)
    | with_reducible apply setAngle_keeps
    | with_reducible apply modSer_keeps
    | with_reducible apply wr_keeps

theorem takeWord_keeps {R : Part → Prop} {b₀ : State} (s : State) (p v t : Nat) (h_R : Allows R [.regs, .enc]) (h_s : Keeps R b₀ s) : Keeps R b₀ (takeWord s p v t) := by
  unfold takeWord
  repeat' first
    | with_reducible assumption
    | (refine Allows.sub h_R ?_; decide)
    | with_reducible apply placeWord_keeps
    | with_reducible apply modSer_keeps
    | with_reducible apply setF_keeps
    | with_reducible apply wr_keeps
    | with_reducible apply Keeps.ite

theorem endFallback_keeps {R : Part → Prop} {b₀ : State} (s : State) (p : Nat) (h_R : Allows R [.regs, .recd, .enc]) (h_s : Keeps R b₀ s) : Keeps R b₀ (endFallback s p) := by
  unfold endFallback
  repeat' first
    | with_reducible assumption
    | (refine Allows.sub h_R ?_; decide)
    | with_reducible apply placeWord_keeps
    | with_reducible apply setUnitState_keeps
    | with_reducible apply modSer_keeps
    | with_reducible apply record_keeps
    | with_reducible apply setB_keeps
    | with_reducible apply Keeps.ite
    | extract_lets
    | split

theorem readFails_keeps {R : Part → Prop} {b₀ : State} (s : State) (p : Nat) (h_R : Allows R [.regs, .recd, .enc]) (h_s : Keeps R b₀ s) : Keeps R b₀ (readFails s p) := by
  unfold readFails
  repeat' first
    | with_reducible assumption
    | (refine Allows.sub h_R ?_; decide)
    | with_reducible apply enterFault_keeps
    | with_reducible apply setUnitState_keeps
    | with_reducible apply modSer_keeps
    | with_reducible apply record_keeps
    | with_reducible apply bump_keeps
    | with_reducible apply setB_keeps
    | with_reducible apply Keeps.ite

theorem serialDone_keeps {R : Part → Prop} {b₀ : State} (s : State) (p : Nat) (w : SerialWord) (h_R : Allows R [.regs, .recd, .enc]) (h_s : Keeps R b₀ s) : Keeps R b₀ (serialDone s p w) := by
  unfold serialDone
  repeat' first
    | with_reducible assumption
    | (refine Allows.sub h_R ?_; decide)
    | with_reducible apply readFails_keeps
    | with_reducible apply takeWord_keeps
    | with_reducible apply modSer_keeps
    | with_reducible apply setB_keeps
    | with_reducible apply Keeps.ite
    | extract_lets
    | split

theorem execSerialReadDone_keeps {R : Part → Prop} {b₀ : State} (p : Nat) (w : SerialWord) (s : State) (h_R : Allows R [.regs, .recd, .enc]) (h_s : Keeps R b₀ s) : OKeeps R b₀ (execSerialReadDone p w s) := by
  unfold execSerialReadDone
  repeat' first
    | with_reducible assumption
    | with_reducible apply serialDone_keeps
    | with_reducible apply OKeeps.answer

theorem portMode_keeps {R : Part → Prop} {b₀ : State} (s : State) (p : Nat) (h_R : Allows R [.regs, .enc]) (h_s : Keeps R b₀ s) : Keeps R b₀ (portMode s p) := by
  unfold portMode
  repeat' first
    | with_reducible assumption
    | (refine Allows.sub h_R ?_; decide)
    | with_reducible apply setUnitState_keeps
    | with_reducible apply followCount_keeps
    | with_reducible apply modSer_keeps
    | with_reducible apply modCnt_keeps
    | with_reducible apply setB_keeps
    | with_reducible apply Keeps.ite

theorem wheelMode_keeps {R : Part → Prop} {b₀ : State} (s : State) (w : Nat) (h_R : Allows R [.regs, .enc]) (h_s : Keeps R b₀ s) : Keeps R b₀ (wheelMode s w) := by
  unfold wheelMode
  repeat' first
    | with_reducible assumption
    | (refine Allows.sub h_R ?_; decide)
    | with_reducible apply setUnitState_keeps
    | with_reducible apply modCnt_keeps
    | with_reducible apply setB_keeps

theorem portFltClear_keeps {R : Part → Prop} {b₀ : State} (s : State) (p v : Nat) (h_R : Allows R [.regs, .enc]) (h_s : Keeps R b₀ s) : Keeps R b₀ (portFltClear s p v) := by
  unfold portFltClear
  repeat' first
    | with_reducible assumption
    | (refine Allows.sub h_R ?_; decide)
    | with_reducible apply setUnitState_keeps
    | with_reducible apply followCount_keeps
    | with_reducible apply modSer_keeps
    | with_reducible apply setB_keeps
    | with_reducible apply Keeps.ite

theorem wheelFltClear_keeps {R : Part → Prop} {b₀ : State} (s : State) (w v : Nat) (h_R : Allows R [.regs, .enc]) (h_s : Keeps R b₀ s) : Keeps R b₀ (wheelFltClear s w v) := by
  unfold wheelFltClear
  repeat' first
    | with_reducible assumption
    | (refine Allows.sub h_R ?_; decide)
    | with_reducible apply setUnitState_keeps
    | with_reducible apply setB_keeps
    | with_reducible apply Keeps.ite

theorem windowEnd_keeps {R : Part → Prop} {b₀ : State} (s : State) (u : Nat) (h_R : Allows R [.regs, .enc]) (h_s : Keeps R b₀ s) : Keeps R b₀ (windowEnd s u) := by
  unfold windowEnd
  repeat' first
    | with_reducible assumption
    | (refine Allows.sub h_R ?_; decide)
    | with_reducible apply showSpeed_keeps
    | with_reducible apply modSer_keeps
    | with_reducible apply modCnt_keeps
    | with_reducible apply setB_keeps
    | with_reducible apply setF_keeps
    | with_reducible apply Keeps.ite

theorem execSpeedWindowEnd_keeps {R : Part → Prop} {b₀ : State} (u : Nat) (s : State) (h_R : Allows R [.regs, .enc]) (h_s : Keeps R b₀ s) : OKeeps R b₀ (execSpeedWindowEnd u s) := by
  unfold execSpeedWindowEnd
  repeat' first
    | with_reducible assumption
    | with_reducible apply windowEnd_keeps
    | with_reducible apply OKeeps.answer

theorem speedEdge_keeps {R : Part → Prop} {b₀ : State} (s : State) (i : Nat) (dir level : Bool) (t : Nat) (h_R : Allows R [.regs, .enc]) (h_s : Keeps R b₀ s) : Keeps R b₀ (speedEdge s i dir level t) := by
  unfold speedEdge
  repeat' first
    | with_reducible assumption
    | (refine Allows.sub h_R ?_; decide)
    | with_reducible apply copyEmu_keeps
    | with_reducible apply modCnt_keeps
    | with_reducible apply setB_keeps
    | with_reducible apply Keeps.ite

theorem execSpeedSignalEdge_keeps {R : Part → Prop} {b₀ : State} (i : Nat) (dir level : Bool) (t : Nat) (s : State) (h_R : Allows R [.regs, .enc]) (h_s : Keeps R b₀ s) : OKeeps R b₀ (execSpeedSignalEdge i dir level t s) := by
  unfold execSpeedSignalEdge
  repeat' first
    | with_reducible assumption
    | with_reducible apply speedEdge_keeps
    | with_reducible apply OKeeps.answer

theorem flowEdge_keeps {R : Part → Prop} {b₀ : State} (s : State) (f : Nat) (rising : Bool) (len : Nat) (h_R : Allows R [.regs, .enc]) (h_s : Keeps R b₀ s) : Keeps R b₀ (flowEdge s f rising len) := by
  unfold flowEdge
  repeat' first
    | with_reducible assumption
    | (refine Allows.sub h_R ?_; decide)
    | with_reducible apply modCnt_keeps
    | with_reducible apply bump_keeps
    | with_reducible apply wr_keeps
    | with_reducible apply Keeps.ite

theorem execFlowEdge_keeps {R : Part → Prop} {b₀ : State} (f : Nat) (rising : Bool) (len : Nat) (s : State) (h_R : Allows R [.regs, .enc]) (h_s : Keeps R b₀ s) : OKeeps R b₀ (execFlowEdge f rising len s) := by
  unfold execFlowEdge
  repeat' first
    | with_reducible assumption
    | with_reducible apply flowEdge_keeps
    | with_reducible apply OKeeps.answer

theorem emuRun_keeps {R : Part → Prop} {b₀ : State} (s : State) (k t : Nat) (h_R : Allows R [.enc]) (h_s : Keeps R b₀ s) : Keeps R b₀ (emuRun s k t) := by
  unfold emuRun
  repeat' first
    | with_reducible assumption
    | with_reducible apply modEmu_keeps

theorem emuBoundary_keeps {R : Part → Prop} {b₀ : State} (s : State) (k : Nat) (h_R : Allows R [.regs, .enc]) (h_s : Keeps R b₀ s) : Keeps R b₀ (emuBoundary s k) := by
  unfold emuBoundary
  repeat' first
    | with_reducible assumption
    | (refine Allows.sub h_R ?_; decide)
    | with_reducible apply emuRun_keeps
    | with_reducible apply modEmu_keeps
    | with_reducible apply setB_keeps
    | with_reducible apply setF_keeps

theorem emuEdge_keeps {R : Part → Prop} {b₀ : State} (s : State) (k t : Nat) (h_R : Allows R [.enc]) (h_s : Keeps R b₀ s) : Keeps R b₀ (emuEdge s k t) := by
  unfold emuEdge
  repeat' first
    | with_reducible assumption
    | with_reducible apply emuRun_keeps
    | with_reducible apply modEmu_keeps
    | with_reducible apply Keeps.ite

theorem execEmuOutputEdge_keeps {R : Part → Prop} {b₀ : State} (k t : Nat) (s : State) (h_R : Allows R [.enc]) (h_s : Keeps R b₀ s) : OKeeps R b₀ (execEmuOutputEdge k t s) := by
  unfold execEmuOutputEdge
  repeat' first
    | with_reducible assumption
    | with_reducible apply emuEdge_keeps
    | with_reducible apply OKeeps.answer

theorem ainFault_keeps {R : Part → Prop} {b₀ : State} (s : State) (a : Nat) (h_R : Allows R [.regs, .recd]) (h_s : Keeps R b₀ s) : Keeps R b₀ (ainFault s a) := by
  unfold ainFault
  repeat' first
    | with_reducible assumption
    | (refine Allows.sub h_R ?_; decide)
    | with_reducible apply record_keeps
    | with_reducible apply setB_keeps
    | with_reducible apply Keeps.ite

theorem ainClear_keeps {R : Part → Prop} {b₀ : State} (s : State) (a : Nat) (h_R : Allows R [.regs]) (h_s : Keeps R b₀ s) : Keeps R b₀ (ainClear s a) := by
  unfold ainClear
  repeat' first
    | with_reducible assumption
    | with_reducible apply setB_keeps
    | with_reducible apply Keeps.ite

theorem ainConvert_keeps {R : Part → Prop} {b₀ : State} (s : State) (a code : Nat) (h_R : Allows R [.regs, .recd, .enc]) (h_s : Keeps R b₀ s) : Keeps R b₀ (ainConvert s a code) := by
  unfold ainConvert
  repeat' first
    | with_reducible assumption
    | (refine Allows.sub h_R ?_; decide)
    | with_reducible apply ainClear_keeps
    | with_reducible apply ainFault_keeps
    | with_reducible apply modAin_keeps
    | with_reducible apply setF_keeps
    | with_reducible apply Keeps.ite

theorem execAinConversion_keeps {R : Part → Prop} {b₀ : State} (a code : Nat) (s : State) (h_R : Allows R [.regs, .recd, .enc]) (h_s : Keeps R b₀ s) : OKeeps R b₀ (execAinConversion a code s) := by
  unfold execAinConversion
  repeat' first
    | with_reducible assumption
    | with_reducible apply ainConvert_keeps
    | with_reducible apply OKeeps.answer

theorem execAinFault_keeps {R : Part → Prop} {b₀ : State} (a : Nat) (s : State) (h_R : Allows R [.regs, .recd]) (h_s : Keeps R b₀ s) : OKeeps R b₀ (execAinFault a s) := by
  unfold execAinFault
  repeat' first
    | with_reducible assumption
    | with_reducible apply ainFault_keeps
    | with_reducible apply OKeeps.answer

theorem execAinFaultClear_keeps {R : Part → Prop} {b₀ : State} (a : Nat) (s : State) (h_R : Allows R [.regs]) (h_s : Keeps R b₀ s) : OKeeps R b₀ (execAinFaultClear a s) := by
  unfold execAinFaultClear
  repeat' first
    | with_reducible assumption
    | with_reducible apply ainClear_keeps
    | with_reducible apply OKeeps.answer

theorem imuDrdy_keeps {R : Part → Prop} {b₀ : State} (s : State) (t : Nat) (b : List Byte) (h_R : Allows R [.regs, .sys, .enc]) (h_s : Keeps R b₀ s) : Keeps R b₀ (imuDrdy s t b) := by
  unfold imuDrdy
  have r_enc : R .enc := h_R _ (by decide)
  repeat' first
    | with_reducible assumption
    | (refine Allows.sub h_R ?_; decide)
    | with_reducible apply edgeEvent_keeps
    | with_reducible apply bump_keeps
    | with_reducible apply setB_keeps
    | with_reducible apply wr_keeps
    | with_reducible apply Keeps.foldl
    | intro _ _ _
    | with_reducible apply Keeps.ite
    | extract_lets
    | fail_if_no_progress (with_reducible refine Keeps.put_enc r_enc ?_)

theorem execImuDrdy_keeps {R : Part → Prop} {b₀ : State} (t : Nat) (b : List Byte) (s : State) (h_R : Allows R [.regs, .sys, .enc]) (h_s : Keeps R b₀ s) : OKeeps R b₀ (execImuDrdy t b s) := by
  unfold execImuDrdy
  repeat' first
    | with_reducible assumption
    | with_reducible apply imuDrdy_keeps
    | with_reducible apply OKeeps.answer

theorem imuTimeout_keeps {R : Part → Prop} {b₀ : State} (s : State) (t : Nat) (h_R : Allows R [.regs, .recd, .enc]) (h_s : Keeps R b₀ s) : Keeps R b₀ (imuTimeout s t) := by
  unfold imuTimeout
  have r_enc : R .enc := h_R _ (by decide)
  repeat' first
    | with_reducible assumption
    | (refine Allows.sub h_R ?_; decide)
    | with_reducible apply record_keeps
    | with_reducible apply setB_keeps
    | with_reducible apply Keeps.ite
    | extract_lets
    | fail_if_no_progress (with_reducible refine Keeps.put_enc r_enc ?_)

theorem execImuTimeout_keeps {R : Part → Prop} {b₀ : State} (t : Nat) (s : State) (h_R : Allows R [.regs, .recd, .enc]) (h_s : Keeps R b₀ s) : OKeeps R b₀ (execImuTimeout t s) := by
  unfold execImuTimeout
  repeat' first
    | with_reducible assumption
    | with_reducible apply imuTimeout_keeps
    | with_reducible apply OKeeps.answer
    | with_reducible apply OKeeps.next

theorem imuEnable_keeps {R : Part → Prop} {b₀ : State} (s : State) (h_R : Allows R [.regs, .enc]) (h_s : Keeps R b₀ s) : Keeps R b₀ (imuEnable s) := by
  unfold imuEnable
  have r_enc : R .enc := h_R _ (by decide)
  repeat' first
    | with_reducible assumption
    | (refine Allows.sub h_R ?_; decide)
    | with_reducible apply setB_keeps
    | with_reducible apply Keeps.ite
    | extract_lets
    | fail_if_no_progress (with_reducible refine Keeps.put_enc r_enc ?_)

theorem imuXfer_keeps {R : Part → Prop} {b₀ : State} (s : State) (write : Bool) (h_R : Allows R [.enc]) (h_s : Keeps R b₀ s) : Keeps R b₀ (imuXfer s write) := by
  unfold imuXfer
  have r_enc : R .enc := h_R _ (by decide)
  repeat' first
    | with_reducible assumption
    | with_reducible apply Keeps.ite
    | extract_lets
    | fail_if_no_progress (with_reducible refine Keeps.put_enc r_enc ?_)

theorem imuRead_keeps {R : Part → Prop} {b₀ : State} (s : State) (v : Nat) (h_R : Allows R [.regs]) (h_s : Keeps R b₀ s) : Keeps R b₀ (imuRead s v) := by
  unfold imuRead
  repeat' first
    | with_reducible assumption
    | with_reducible apply setF_keeps

theorem openWindow_keeps {R : Part → Prop} {b₀ : State} (s : State) (u : Nat) (h_R : Allows R [.enc]) (h_s : Keeps R b₀ s) : Keeps R b₀ (openWindow s u) := by
  unfold openWindow
  repeat' first
    | with_reducible assumption
    | with_reducible apply modCnt_keeps
    | with_reducible apply Keeps.ite

theorem encBoundary_keeps {R : Part → Prop} {b₀ : State} (s : State) (h_R : Allows R [.regs, .recd, .enc]) (h_s : Keeps R b₀ s) : Keeps R b₀ (encBoundary s) := by
  unfold encBoundary
  repeat' first
    | with_reducible assumption
    | (refine Allows.sub h_R ?_; decide)
    | with_reducible apply openWindow_keeps
    | with_reducible apply imuTimeout_keeps
    | with_reducible apply emuBoundary_keeps
    | with_reducible apply endFallback_keeps
    | with_reducible apply setF_keeps
    | with_reducible apply Keeps.foldl
    | intro _ _ _

theorem encEffect_keeps {R : Part → Prop} {b₀ : State} (s : State) (i : Nat) (old : Word) (h_R : Allows R [.regs, .enc]) (h_s : Keeps R b₀ s) : Keeps R b₀ (encEffect s i old) := by
  unfold encEffect
  repeat' first
    | with_reducible assumption
    | (refine Allows.sub h_R ?_; decide)
    | with_reducible apply imuEnable_keeps
    | with_reducible apply wheelMode_keeps
    | with_reducible apply portMode_keeps
    | with_reducible apply reportCount_keeps
    | with_reducible apply startWindow_keeps
    | with_reducible apply modAin_keeps
    | with_reducible apply modEmu_keeps
    | with_reducible apply modSer_keeps
    | with_reducible apply modCnt_keeps
    | with_reducible apply setB_keeps
    | with_reducible apply Keeps.ite
    | extract_lets
    | split

theorem encReset_keeps {R : Part → Prop} {b₀ : State} (s : State) (h_R : Allows R [.regs, .sys, .enc]) (h_s : Keeps R b₀ s) : Keeps R b₀ (encReset s) := by
  unfold encReset
  have r_enc : R .enc := h_R _ (by decide)
  repeat' first
    | with_reducible assumption
    | (refine Allows.sub h_R ?_; decide)
    | with_reducible apply dropLines_keeps
    | with_reducible apply resetRegs_keeps
    | with_reducible apply Keeps.ite
    | extract_lets
    | fail_if_no_progress (with_reducible refine Keeps.put_enc r_enc ?_)

end Sys2Proof.Machine
end

