-- ==== Sys2Proof/Laws/KeepsCle.lean ====
section
/-!
SUPPORT. Sys2Proof/Laws/KeepsCle.lean: the operations of Machine/Cle.lean keep what `Keeps` names.
-/
namespace Sys2Proof.Machine

theorem modLoop_keeps {R : Part → Prop} {b₀ : State} (s : State) (n : Nat) (f : Loop → Loop) (h_R : Allows R [.cle]) (h_s : Keeps R b₀ s) : Keeps R b₀ (modLoop s n f) := by
  unfold modLoop
  have r_cle : R .cle := h_R _ (by decide)
  repeat' first
    | with_reducible assumption
    | with_reducible apply Keeps.ite
    | extract_lets
    | fail_if_no_progress (with_reducible refine Keeps.put_cle r_cle ?_)

theorem gearSpeed_keeps {R : Part → Prop} {b₀ : State} (s : State) (n t : Nat) (h_R : Allows R [.free]) (h_s : Keeps R b₀ s) : PKeeps R b₀ (gearSpeed s n t) := by
  unfold gearSpeed
  repeat' first
    | with_reducible assumption
    | with_reducible apply fresh_keeps
    | with_reducible apply PKeeps.fst
    | (refine PKeeps.of_eq ‹_› ?_)
    | (refine fresh_keeps_eq ‹_› ?_ ?_)
    | extract_lets
    | split
    | intro _
    | fail_if_no_progress beta_reduce
    | with_reducible apply PKeeps.foldl
    | dsimp +zetaDelta only
    | with_reducible apply PKeeps.mk

theorem setpoint_keeps {R : Part → Prop} {b₀ : State} (s : State) (n t : Nat) (h_R : Allows R [.free]) (h_s : Keeps R b₀ s) : PKeeps R b₀ (setpoint s n t) := by
  unfold setpoint
  repeat' first
    | with_reducible assumption
    | with_reducible apply gearSpeed_keeps
    | with_reducible apply PKeeps.fst
    | (refine PKeeps.of_eq ‹_› ?_)
    | extract_lets
    | split
    | intro _
    | fail_if_no_progress beta_reduce
    | with_reducible apply PKeeps.foldl
    | dsimp +zetaDelta only
    | with_reducible apply PKeeps.mk

theorem remoteSet_keeps {R : Part → Prop} {b₀ : State} (s : State) (c v : Nat) (h_R : Allows R [.fjl]) (h_s : Keeps R b₀ s) : Keeps R b₀ (remoteSet s c v) := by
  unfold remoteSet
  repeat' first
    | with_reducible assumption
    | with_reducible apply setFjlCfg_keeps
    | with_reducible apply modRemCh_keeps

theorem writeDst_keeps {R : Part → Prop} {b₀ : State} (s : State) (n t : Nat) (u : Int) (h_R : Allows R [.regs, .drv, .fjl, .pwm]) (h_s : Keeps R b₀ s) : Keeps R b₀ (writeDst s n t u) := by
  unfold writeDst
  repeat' first
    | with_reducible assumption
    | (refine Allows.sub h_R ?_; decide)
    | with_reducible apply remoteSet_keeps
    | with_reducible apply loopCompare_keeps
    | with_reducible apply setBase_keeps
    | with_reducible apply setF_keeps
    | with_reducible apply Keeps.foldl
    | intro _ _ _
    | with_reducible apply Keeps.ite
    | extract_lets
    | split

theorem loopOutput_keeps {R : Part → Prop} {b₀ : State} (s : State) (n : Nat) (h_R : Allows R [.regs, .drv, .fjl, .pwm, .cle]) (h_s : Keeps R b₀ s) : Keeps R b₀ (loopOutput s n) := by
  unfold loopOutput
  repeat' first
    | with_reducible assumption
    | (refine Allows.sub h_R ?_; decide)
    | with_reducible apply writeDst_keeps
    | with_reducible apply modLoop_keeps
    | with_reducible apply Keeps.ite
    | extract_lets
    | split

theorem execLoopOutput_keeps {R : Part → Prop} {b₀ : State} (n : Nat) (s : State) (h_R : Allows R [.regs, .drv, .fjl, .pwm, .cle]) (h_s : Keeps R b₀ s) : OKeeps R b₀ (execLoopOutput n s) := by
  unfold execLoopOutput
  repeat' first
    | with_reducible assumption
    | with_reducible apply loopOutput_keeps
    | with_reducible apply OKeeps.answer

theorem endInject_keeps {R : Part → Prop} {b₀ : State} (s : State) (h_R : Allows R [.regs, .cle]) (h_s : Keeps R b₀ s) : Keeps R b₀ (endInject s) := by
  unfold endInject
  have r_cle : R .cle := h_R _ (by decide)
  repeat' first
    | with_reducible assumption
    | (refine Allows.sub h_R ?_; decide)
    | with_reducible apply setB_keeps
    | with_reducible apply Keeps.ite
    | extract_lets
    | fail_if_no_progress (with_reducible refine Keeps.put_cle r_cle ?_)
    | split

theorem injectValue_keeps {R : Part → Prop} {b₀ : State} (s : State) (n k : Nat) (h_R : Allows R [.regs, .cle, .free]) (h_s : Keeps R b₀ s) : PKeeps R b₀ (injectValue s n k) := by
  unfold injectValue
  have r_cle : R .cle := h_R _ (by decide)
  repeat' first
    | with_reducible assumption
    | (refine Allows.sub h_R ?_; decide)
    | with_reducible apply endInject_keeps
    | with_reducible apply fresh_keeps
    | with_reducible apply setB_keeps
    | with_reducible apply PKeeps.fst
    | (refine PKeeps.of_eq ‹_› ?_)
    | (refine fresh_keeps_eq ‹_› ?_ ?_)
    | extract_lets
    | fail_if_no_progress (with_reducible refine Keeps.put_cle r_cle ?_)
    | split
    | intro _
    | fail_if_no_progress beta_reduce
    | with_reducible apply PKeeps.foldl
    | dsimp +zetaDelta only
    | with_reducible apply PKeeps.mk

theorem injectionEnd_keeps {R : Part → Prop} {b₀ : State} (s : State) (h_R : Allows R [.regs, .cle]) (h_s : Keeps R b₀ s) : Keeps R b₀ (injectionEnd s) := by
  unfold injectionEnd
  repeat' first
    | with_reducible assumption
    | with_reducible apply endInject_keeps
    | with_reducible apply Keeps.ite
    | extract_lets
    | split

theorem execInjectionEnd_keeps {R : Part → Prop} {b₀ : State} (s : State) (h_R : Allows R [.regs, .cle]) (h_s : Keeps R b₀ s) : OKeeps R b₀ (execInjectionEnd s) := by
  unfold execInjectionEnd
  repeat' first
    | with_reducible assumption
    | with_reducible apply injectionEnd_keeps
    | with_reducible apply OKeeps.answer
    | with_reducible apply OKeeps.next

theorem injectCtrl_keeps {R : Part → Prop} {b₀ : State} (s : State) (v : Word) (h_R : Allows R [.regs, .cle]) (h_s : Keeps R b₀ s) : Keeps R b₀ (injectCtrl s v) := by
  unfold injectCtrl
  have r_cle : R .cle := h_R _ (by decide)
  repeat' first
    | with_reducible assumption
    | (refine Allows.sub h_R ?_; decide)
    | with_reducible apply endInject_keeps
    | with_reducible apply setB_keeps
    | with_reducible apply Keeps.ite
    | extract_lets
    | fail_if_no_progress (with_reducible refine Keeps.put_cle r_cle ?_)

theorem setCap_keeps {R : Part → Prop} {b₀ : State} (s : State) (l : List Word) (skip : Nat) (h_R : Allows R [.regs, .cle]) (h_s : Keeps R b₀ s) : Keeps R b₀ (setCap s l skip) := by
  unfold setCap
  have r_cle : R .cle := h_R _ (by decide)
  repeat' first
    | with_reducible assumption
    | (refine Allows.sub h_R ?_; decide)
    | with_reducible apply setF_keeps
    | with_reducible apply Keeps.ite
    | extract_lets
    | fail_if_no_progress (with_reducible refine Keeps.put_cle r_cle ?_)

theorem capTrigger_keeps {R : Part → Prop} {b₀ : State} (s : State) (h_R : Allows R [.regs]) (h_s : Keeps R b₀ s) : Keeps R b₀ (capTrigger s) := by
  unfold capTrigger
  repeat' first
    | with_reducible assumption
    | with_reducible apply setF_keeps
    | with_reducible apply wr_keeps
    | with_reducible apply Keeps.ite

theorem capPeriod_keeps {R : Part → Prop} {b₀ : State} (s : State) (n k : Nat) (sig : List (Int × Nat)) (h_R : Allows R [.regs, .cle]) (h_s : Keeps R b₀ s) : Keeps R b₀ (capPeriod s n k sig) := by
  unfold capPeriod
  repeat' first
    | with_reducible assumption
    | (refine Allows.sub h_R ?_; decide)
    | with_reducible apply setCap_keeps
    | with_reducible apply setF_keeps
    | with_reducible apply Keeps.ite

theorem capCtrl_keeps {R : Part → Prop} {b₀ : State} (s : State) (v : Word) (h_R : Allows R [.regs, .cle]) (h_s : Keeps R b₀ s) : Keeps R b₀ (capCtrl s v) := by
  unfold capCtrl
  repeat' first
    | with_reducible assumption
    | (refine Allows.sub h_R ?_; decide)
    | with_reducible apply capTrigger_keeps
    | with_reducible apply setCap_keeps
    | with_reducible apply setF_keeps
    | with_reducible apply Keeps.ite

theorem loopFlag_keeps {R : Part → Prop} {b₀ : State} (s : State) (n : Nat) (f : Field) (h_R : Allows R [.regs]) (h_s : Keeps R b₀ s) : Keeps R b₀ (loopFlag s n f) := by
  unfold loopFlag
  repeat' first
    | with_reducible assumption
    | with_reducible apply setBitF_keeps
    | with_reducible apply setB_keeps

theorem forceMode_keeps {R : Part → Prop} {b₀ : State} (s : State) (n m : Nat) (h_R : Allows R [.regs]) (h_s : Keeps R b₀ s) : Keeps R b₀ (forceMode s n m) := by
  unfold forceMode
  repeat' first
    | with_reducible assumption
    | with_reducible apply setF_keeps

theorem satAlarm_keeps {R : Part → Prop} {b₀ : State} (s : State) (n : Nat) (h_R : Allows R [.regs, .recd, .cle]) (h_s : Keeps R b₀ s) : Keeps R b₀ (satAlarm s n) := by
  unfold satAlarm
  repeat' first
    | with_reducible assumption
    | (refine Allows.sub h_R ?_; decide)
    | with_reducible apply forceMode_keeps
    | with_reducible apply loopFlag_keeps
    | with_reducible apply capTrigger_keeps
    | with_reducible apply modLoop_keeps
    | with_reducible apply record_keeps
    | with_reducible apply Keeps.ite

theorem execSaturationAlarm_keeps {R : Part → Prop} {b₀ : State} (n : Nat) (s : State) (h_R : Allows R [.regs, .recd, .cle]) (h_s : Keeps R b₀ s) : OKeeps R b₀ (execSaturationAlarm n s) := by
  unfold execSaturationAlarm
  repeat' first
    | with_reducible assumption
    | with_reducible apply satAlarm_keeps
    | with_reducible apply OKeeps.answer

theorem loopGuards_keeps {R : Part → Prop} {b₀ : State} (s : State) (n : Nat) (h_R : Allows R [.regs, .recd]) (h_s : Keeps R b₀ s) : Keeps R b₀ (loopGuards s n) := by
  unfold loopGuards
  repeat' first
    | with_reducible assumption
    | (refine Allows.sub h_R ?_; decide)
    | with_reducible apply forceMode_keeps
    | with_reducible apply loopFlag_keeps
    | with_reducible apply record_keeps
    | with_reducible apply setI_keeps
    | with_reducible apply Keeps.ite

theorem loopSample_keeps {R : Part → Prop} {b₀ : State} (s : State) (n : Nat) (h_R : Allows R [.regs, .recd, .cle, .free]) (h_s : Keeps R b₀ s) : Keeps R b₀ (loopSample s n) := by
  unfold loopSample
  repeat' first
    | with_reducible assumption
    | (refine Allows.sub h_R ?_; decide)
    | with_reducible apply loopGuards_keeps
    | with_reducible apply satAlarm_keeps
    | with_reducible apply loopFlag_keeps
    | with_reducible apply capPeriod_keeps
    | with_reducible apply capTrigger_keeps
    | with_reducible apply injectValue_keeps
    | with_reducible apply endInject_keeps
    | with_reducible apply setpoint_keeps
    | with_reducible apply modLoop_keeps
    | with_reducible apply setBitF_keeps
    | with_reducible apply bump_keeps
    | with_reducible apply setI_keeps
    | with_reducible apply setB_keeps
    | with_reducible apply setF_keeps
    | with_reducible apply wr_keeps
    | with_reducible apply PKeeps.fst
    | (refine PKeeps.of_eq ‹_› ?_)
    | with_reducible apply Keeps.foldl
    | intro _ _ _
    | with_reducible apply Keeps.ite

theorem execLoopSample_keeps {R : Part → Prop} {b₀ : State} (n : Nat) (s : State) (h_R : Allows R [.regs, .recd, .cle, .free]) (h_s : Keeps R b₀ s) : OKeeps R b₀ (execLoopSample n s) := by
  unfold execLoopSample
  repeat' first
    | with_reducible assumption
    | with_reducible apply loopSample_keeps
    | with_reducible apply OKeeps.answer

theorem loopLeaseLost_keeps {R : Part → Prop} {b₀ : State} (s : State) (n : Nat) (h_R : Allows R [.regs, .recd]) (h_s : Keeps R b₀ s) : Keeps R b₀ (loopLeaseLost s n) := by
  unfold loopLeaseLost
  repeat' first
    | with_reducible assumption
    | (refine Allows.sub h_R ?_; decide)
    | with_reducible apply forceMode_keeps
    | with_reducible apply loopFlag_keeps
    | with_reducible apply record_keeps
    | with_reducible apply Keeps.ite

theorem cleEnable_keeps {R : Part → Prop} {b₀ : State} (s : State) (h_R : Allows R [.regs, .cle]) (h_s : Keeps R b₀ s) : Keeps R b₀ (cleEnable s) := by
  unfold cleEnable
  repeat' first
    | with_reducible assumption
    | (refine Allows.sub h_R ?_; decide)
    | with_reducible apply forceMode_keeps
    | with_reducible apply endInject_keeps
    | with_reducible apply modLoop_keeps
    | with_reducible apply setBitF_keeps
    | with_reducible apply setB_keeps
    | with_reducible apply setF_keeps
    | with_reducible apply Keeps.foldl
    | intro _ _ _
    | with_reducible apply Keeps.ite

theorem cleBoundary_keeps {R : Part → Prop} {b₀ : State} (s : State) (h_R : Allows R [.cle]) (h_s : Keeps R b₀ s) : Keeps R b₀ (cleBoundary s) := by
  unfold cleBoundary
  repeat' first
    | with_reducible assumption
    | with_reducible apply modLoop_keeps
    | with_reducible apply Keeps.foldl
    | intro _ _ _

theorem cleEffect_keeps {R : Part → Prop} {b₀ : State} (s : State) (i : Nat) (old v : Word) (h_R : Allows R [.regs, .cle]) (h_s : Keeps R b₀ s) : Keeps R b₀ (cleEffect s i old v) := by
  unfold cleEffect
  repeat' first
    | with_reducible assumption
    | (refine Allows.sub h_R ?_; decide)
    | with_reducible apply cleEnable_keeps
    | with_reducible apply capCtrl_keeps
    | with_reducible apply injectCtrl_keeps
    | with_reducible apply modLoop_keeps
    | with_reducible apply setBitF_keeps
    | with_reducible apply Keeps.ite

theorem cleReset_keeps {R : Part → Prop} {b₀ : State} (s : State) (h_R : Allows R [.regs, .tables, .cle]) (h_s : Keeps R b₀ s) : Keeps R b₀ (cleReset s) := by
  unfold cleReset
  have r_cle : R .cle := h_R _ (by decide)
  repeat' first
    | with_reducible assumption
    | (refine Allows.sub h_R ?_; decide)
    | with_reducible apply tclear_keeps
    | with_reducible apply resetRegs_keeps
    | with_reducible apply Keeps.ite
    | extract_lets
    | fail_if_no_progress (with_reducible refine Keeps.put_cle r_cle ?_)

end Sys2Proof.Machine
end

