-- ==== Sys2Proof/Laws/KeepsTim.lean ====
section
/-!
SUPPORT. Sys2Proof/Laws/KeepsTim.lean: the operations of Machine/Tim.lean keep what `Keeps` names.
-/
namespace Sys2Proof.Machine

theorem modTb_keeps {R : Part → Prop} {b₀ : State} (s : State) (n : Nat) (f : TimeBase → TimeBase) (h_R : Allows R [.tim]) (h_s : Keeps R b₀ s) : Keeps R b₀ (modTb s n f) := by
  unfold modTb
  have r_tim : R .tim := h_R _ (by decide)
  repeat' first
    | with_reducible assumption
    | with_reducible apply Keeps.ite
    | extract_lets
    | fail_if_no_progress (with_reducible refine Keeps.put_tim r_tim ?_)

theorem modPps_keeps {R : Part → Prop} {b₀ : State} (s : State) (x : Nat) (f : Pps → Pps) (h_R : Allows R [.tim]) (h_s : Keeps R b₀ s) : Keeps R b₀ (modPps s x f) := by
  unfold modPps
  have r_tim : R .tim := h_R _ (by decide)
  repeat' first
    | with_reducible assumption
    | with_reducible apply Keeps.ite
    | extract_lets
    | fail_if_no_progress (with_reducible refine Keeps.put_tim r_tim ?_)

theorem tbSync_keeps {R : Part → Prop} {b₀ : State} (s : State) (n t : Nat) (h_R : Allows R [.tim]) (h_s : Keeps R b₀ s) : Keeps R b₀ (tbSync s n t) := by
  unfold tbSync
  repeat' first
    | with_reducible assumption
    | with_reducible apply modTb_keeps

theorem showTb_keeps {R : Part → Prop} {b₀ : State} (s : State) (n t : Nat) (h_R : Allows R [.regs]) (h_s : Keeps R b₀ s) : Keeps R b₀ (showTb s n t) := by
  unfold showTb
  repeat' first
    | with_reducible assumption
    | with_reducible apply setI_keeps
    | with_reducible apply setB_keeps

theorem tbJump_keeps {R : Part → Prop} {b₀ : State} (s : State) (n t : Nat) (v : Int) (h_R : Allows R [.regs, .hif, .recd, .gns, .tim]) (h_s : Keeps R b₀ s) : Keeps R b₀ (tbJump s n t v) := by
  unfold tbJump
  have r_gns : R .gns := h_R _ (by decide)
  repeat' first
    | with_reducible assumption
    | (refine Allows.sub h_R ?_; decide)
    | with_reducible apply showTb_keeps
    | with_reducible apply modTb_keeps
    | with_reducible apply raiseIrq_keeps
    | with_reducible apply record_keeps
    | with_reducible apply bump_keeps
    | with_reducible apply setB_keeps
    | with_reducible apply setF_keeps
    | with_reducible apply Keeps.ite
    | extract_lets
    | fail_if_no_progress (with_reducible refine Keeps.put_gns r_gns ?_)

theorem tbSlew_keeps {R : Part → Prop} {b₀ : State} (s : State) (n t : Nat) (d : Int) (rate : Nat) (h_R : Allows R [.regs, .tim]) (h_s : Keeps R b₀ s) : Keeps R b₀ (tbSlew s n t d rate) := by
  unfold tbSlew
  repeat' first
    | with_reducible assumption
    | (refine Allows.sub h_R ?_; decide)
    | with_reducible apply showTb_keeps
    | with_reducible apply tbSync_keeps
    | with_reducible apply modTb_keeps

theorem tbRate_keeps {R : Part → Prop} {b₀ : State} (s : State) (n t : Nat) (rate : Int) (h_R : Allows R [.regs, .tim]) (h_s : Keeps R b₀ s) : Keeps R b₀ (tbRate s n t rate) := by
  unfold tbRate
  repeat' first
    | with_reducible assumption
    | (refine Allows.sub h_R ?_; decide)
    | with_reducible apply tbSync_keeps
    | with_reducible apply setI_keeps

theorem tbAction_keeps {R : Part → Prop} {b₀ : State} (s : State) (n t a : Nat) (h_R : Allows R [.regs, .hif, .recd, .gns, .tim]) (h_s : Keeps R b₀ s) : Keeps R b₀ (tbAction s n t a) := by
  unfold tbAction
  repeat' first
    | with_reducible assumption
    | (refine Allows.sub h_R ?_; decide)
    | with_reducible apply tbSlew_keeps
    | with_reducible apply tbJump_keeps
    | with_reducible apply showTb_keeps
    | with_reducible apply modTb_keeps
    | with_reducible apply Keeps.ite
    | extract_lets
    | split

theorem tbSourceChange_keeps {R : Part → Prop} {b₀ : State} (s : State) (n t : Nat) (old : Int) (h_R : Allows R [.regs, .tim]) (h_s : Keeps R b₀ s) : Keeps R b₀ (tbSourceChange s n t old) := by
  unfold tbSourceChange
  repeat' first
    | with_reducible assumption
    | (refine Allows.sub h_R ?_; decide)
    | with_reducible apply showTb_keeps
    | with_reducible apply modTb_keeps

theorem tbSnap_keeps {R : Part → Prop} {b₀ : State} (s : State) (h_R : Allows R [.regs]) (h_s : Keeps R b₀ s) : Keeps R b₀ (tbSnap s) := by
  unfold tbSnap
  repeat' first
    | with_reducible assumption
    | with_reducible apply wrPair_keeps
    | with_reducible apply wr_keeps
    | with_reducible apply Keeps.foldl
    | intro _ _ _

theorem stepAtSecond_keeps {R : Part → Prop} {b₀ : State} (s : State) (n t : Nat) (h_R : Allows R [.regs, .hif, .recd, .gns, .tim]) (h_s : Keeps R b₀ s) : Keeps R b₀ (stepAtSecond s n t) := by
  unfold stepAtSecond
  repeat' first
    | with_reducible assumption
    | (refine Allows.sub h_R ?_; decide)
    | with_reducible apply tbJump_keeps
    | with_reducible apply showTb_keeps
    | with_reducible apply modTb_keeps
    | with_reducible apply Keeps.ite
    | extract_lets
    | split

theorem execStepAtSecond_keeps {R : Part → Prop} {b₀ : State} (n t : Nat) (s : State) (h_R : Allows R [.regs, .hif, .recd, .gns, .tim]) (h_s : Keeps R b₀ s) : OKeeps R b₀ (execStepAtSecond n t s) := by
  unfold execStepAtSecond
  repeat' first
    | with_reducible assumption
    | with_reducible apply stepAtSecond_keeps
    | with_reducible apply OKeeps.answer

theorem slewComplete_keeps {R : Part → Prop} {b₀ : State} (s : State) (n t : Nat) (h_R : Allows R [.regs, .tim]) (h_s : Keeps R b₀ s) : Keeps R b₀ (slewComplete s n t) := by
  unfold slewComplete
  repeat' first
    | with_reducible assumption
    | (refine Allows.sub h_R ?_; decide)
    | with_reducible apply showTb_keeps
    | with_reducible apply tbSync_keeps
    | with_reducible apply Keeps.ite

theorem execSlewComplete_keeps {R : Part → Prop} {b₀ : State} (n t : Nat) (s : State) (h_R : Allows R [.regs, .tim]) (h_s : Keeps R b₀ s) : OKeeps R b₀ (execSlewComplete n t s) := by
  unfold execSlewComplete
  repeat' first
    | with_reducible assumption
    | with_reducible apply slewComplete_keeps
    | with_reducible apply OKeeps.answer

theorem learn_keeps {R : Part → Prop} {b₀ : State} (s : State) (t : Nat) (h_R : Allows R [.regs, .tim]) (h_s : Keeps R b₀ s) : Keeps R b₀ (learn s t) := by
  unfold learn
  have r_tim : R .tim := h_R _ (by decide)
  repeat' first
    | with_reducible assumption
    | (refine Allows.sub h_R ?_; decide)
    | with_reducible apply setB_keeps
    | with_reducible apply setF_keeps
    | with_reducible apply Keeps.ite
    | extract_lets
    | fail_if_no_progress (with_reducible refine Keeps.put_tim r_tim ?_)

theorem holdoverExit_keeps {R : Part → Prop} {b₀ : State} (s : State) (t : Nat) (e : Int) (h_R : Allows R [.regs, .hif, .recd, .tim]) (h_s : Keeps R b₀ s) : Keeps R b₀ (holdoverExit s t e) := by
  unfold holdoverExit
  have r_tim : R .tim := h_R _ (by decide)
  repeat' first
    | with_reducible assumption
    | (refine Allows.sub h_R ?_; decide)
    | with_reducible apply tbSlew_keeps
    | with_reducible apply showTb_keeps
    | with_reducible apply tbSync_keeps
    | with_reducible apply modTb_keeps
    | with_reducible apply raiseIrq_keeps
    | with_reducible apply record_keeps
    | with_reducible apply setI_keeps
    | with_reducible apply setB_keeps
    | with_reducible apply setF_keeps
    | with_reducible apply Keeps.ite
    | extract_lets
    | fail_if_no_progress (with_reducible refine Keeps.put_tim r_tim ?_)

theorem steer_keeps {R : Part → Prop} {b₀ : State} (s : State) (t : Nat) (e rate : Int) (unc slewr : Nat) (h_R : Allows R [.regs, .hif, .recd, .tim]) (h_s : Keeps R b₀ s) : Keeps R b₀ (steer s t e rate unc slewr) := by
  unfold steer
  have r_tim : R .tim := h_R _ (by decide)
  repeat' first
    | with_reducible assumption
    | (refine Allows.sub h_R ?_; decide)
    | with_reducible apply holdoverExit_keeps
    | with_reducible apply learn_keeps
    | with_reducible apply tbRate_keeps
    | with_reducible apply tbSlew_keeps
    | with_reducible apply showTb_keeps
    | with_reducible apply modTb_keeps
    | with_reducible apply setF_keeps
    | with_reducible apply Keeps.ite
    | extract_lets
    | fail_if_no_progress (with_reducible refine Keeps.put_tim r_tim ?_)

theorem holdoverEntry_keeps {R : Part → Prop} {b₀ : State} (s : State) (t : Nat) (h_R : Allows R [.regs, .hif, .recd, .tim]) (h_s : Keeps R b₀ s) : Keeps R b₀ (holdoverEntry s t) := by
  unfold holdoverEntry
  have r_tim : R .tim := h_R _ (by decide)
  repeat' first
    | with_reducible assumption
    | (refine Allows.sub h_R ?_; decide)
    | with_reducible apply raiseIrq_keeps
    | with_reducible apply record_keeps
    | with_reducible apply bump_keeps
    | with_reducible apply setB_keeps
    | with_reducible apply setF_keeps
    | with_reducible apply Keeps.ite
    | extract_lets
    | fail_if_no_progress (with_reducible refine Keeps.put_tim r_tim ?_)

theorem execHoldoverEntry_keeps {R : Part → Prop} {b₀ : State} (t : Nat) (s : State) (h_R : Allows R [.regs, .hif, .recd, .tim]) (h_s : Keeps R b₀ s) : OKeeps R b₀ (execHoldoverEntry t s) := by
  unfold execHoldoverEntry
  repeat' first
    | with_reducible assumption
    | with_reducible apply holdoverEntry_keeps
    | with_reducible apply OKeeps.answer

theorem holdoverLimit_keeps {R : Part → Prop} {b₀ : State} (s : State) (t : Nat) (h_R : Allows R [.regs, .recd]) (h_s : Keeps R b₀ s) : Keeps R b₀ (holdoverLimit s t) := by
  unfold holdoverLimit
  repeat' first
    | with_reducible assumption
    | (refine Allows.sub h_R ?_; decide)
    | with_reducible apply record_keeps
    | with_reducible apply setB_keeps
    | with_reducible apply Keeps.ite

theorem execHoldoverLimit_keeps {R : Part → Prop} {b₀ : State} (t : Nat) (s : State) (h_R : Allows R [.regs, .recd]) (h_s : Keeps R b₀ s) : OKeeps R b₀ (execHoldoverLimit t s) := by
  unfold execHoldoverLimit
  repeat' first
    | with_reducible assumption
    | with_reducible apply holdoverLimit_keeps
    | with_reducible apply OKeeps.answer

theorem leapSecond_keeps {R : Part → Prop} {b₀ : State} (s : State) (t : Nat) (h_R : Allows R [.regs, .hif]) (h_s : Keeps R b₀ s) : Keeps R b₀ (leapSecond s t) := by
  unfold leapSecond
  repeat' first
    | with_reducible assumption
    | (refine Allows.sub h_R ?_; decide)
    | with_reducible apply raiseIrq_keeps
    | with_reducible apply setB_keeps
    | with_reducible apply setF_keeps
    | with_reducible apply Keeps.ite

theorem execLeapSecond_keeps {R : Part → Prop} {b₀ : State} (t : Nat) (s : State) (h_R : Allows R [.regs, .hif]) (h_s : Keeps R b₀ s) : OKeeps R b₀ (execLeapSecond t s) := by
  unfold execLeapSecond
  repeat' first
    | with_reducible assumption
    | with_reducible apply leapSecond_keeps
    | with_reducible apply OKeeps.answer

theorem leapDecoded_keeps {R : Part → Prop} {b₀ : State} (s : State) (l : LeapData) (h_R : Allows R [.regs]) (h_s : Keeps R b₀ s) : Keeps R b₀ (leapDecoded s l) := by
  unfold leapDecoded
  repeat' first
    | with_reducible assumption
    | with_reducible apply setI_keeps
    | with_reducible apply setB_keeps
    | with_reducible apply setF_keeps

theorem showPps_keeps {R : Part → Prop} {b₀ : State} (s : State) (x : Nat) (h_R : Allows R [.regs]) (h_s : Keeps R b₀ s) : Keeps R b₀ (showPps s x) := by
  unfold showPps
  repeat' first
    | with_reducible assumption
    | with_reducible apply setB_keeps

theorem ppsPulse_keeps {R : Part → Prop} {b₀ : State} (s : State) (x t : Nat) (h_R : Allows R [.regs, .sys, .hif, .tim]) (h_s : Keeps R b₀ s) : Keeps R b₀ (ppsPulse s x t) := by
  unfold ppsPulse
  repeat' first
    | with_reducible assumption
    | (refine Allows.sub h_R ?_; decide)
    | with_reducible apply modPps_keeps
    | with_reducible apply edgeEvent_keeps
    | with_reducible apply raiseIrq_keeps
    | with_reducible apply notify_keeps
    | with_reducible apply setF_keeps
    | with_reducible apply wr_keeps
    | with_reducible apply Keeps.foldl
    | intro _ _ _
    | with_reducible apply Keeps.ite
    | extract_lets
    | split

theorem execPpsPulse_keeps {R : Part → Prop} {b₀ : State} (x t : Nat) (s : State) (h_R : Allows R [.regs, .sys, .hif, .tim]) (h_s : Keeps R b₀ s) : OKeeps R b₀ (execPpsPulse x t s) := by
  unfold execPpsPulse
  repeat' first
    | with_reducible assumption
    | with_reducible apply ppsPulse_keeps
    | with_reducible apply OKeeps.answer

theorem ppsEnd_keeps {R : Part → Prop} {b₀ : State} (s : State) (x t : Nat) (h_R : Allows R [.tim]) (h_s : Keeps R b₀ s) : Keeps R b₀ (ppsEnd s x t) := by
  unfold ppsEnd
  repeat' first
    | with_reducible assumption
    | with_reducible apply modPps_keeps
    | with_reducible apply Keeps.ite
    | extract_lets
    | split

theorem execPpsPulseEnd_keeps {R : Part → Prop} {b₀ : State} (x t : Nat) (s : State) (h_R : Allows R [.tim]) (h_s : Keeps R b₀ s) : OKeeps R b₀ (execPpsPulseEnd x t s) := by
  unfold execPpsPulseEnd
  repeat' first
    | with_reducible assumption
    | with_reducible apply ppsEnd_keeps
    | with_reducible apply OKeeps.answer

theorem timBoundary_keeps {R : Part → Prop} {b₀ : State} (s : State) (h_R : Allows R [.regs, .hif, .recd, .tim]) (h_s : Keeps R b₀ s) : Keeps R b₀ (timBoundary s) := by
  unfold timBoundary
  repeat' first
    | with_reducible assumption
    | (refine Allows.sub h_R ?_; decide)
    | with_reducible apply showPps_keeps
    | with_reducible apply holdoverLimit_keeps
    | with_reducible apply holdoverEntry_keeps
    | with_reducible apply showTb_keeps
    | with_reducible apply wrPair_keeps
    | with_reducible apply setF_keeps
    | with_reducible apply Keeps.foldl
    | intro _ _ _
    | with_reducible apply Keeps.ite

theorem timEffect_keeps {R : Part → Prop} {b₀ : State} (s0 s : State) (i : Nat) (old : Word) (h_R : Allows R [.regs, .hif, .recd, .gns, .tim]) (h_s0 : Keeps R b₀ s0) (h_s : Keeps R b₀ s) : Keeps R b₀ (timEffect s0 s i old) := by
  unfold timEffect
  repeat' first
    | with_reducible assumption
    | (refine Allows.sub h_R ?_; decide)
    | with_reducible apply showPps_keeps
    | with_reducible apply tbSnap_keeps
    | with_reducible apply tbSourceChange_keeps
    | with_reducible apply tbAction_keeps
    | with_reducible apply modPps_keeps
    | with_reducible apply modTb_keeps
    | with_reducible apply setB_keeps
    | with_reducible apply setF_keeps
    | with_reducible apply Keeps.ite
    | extract_lets
    | split

theorem timReset_keeps {R : Part → Prop} {b₀ : State} (s : State) (h_R : Allows R [.regs, .tim]) (h_s : Keeps R b₀ s) : Keeps R b₀ (timReset s) := by
  unfold timReset
  have r_tim : R .tim := h_R _ (by decide)
  repeat' first
    | with_reducible assumption
    | (refine Allows.sub h_R ?_; decide)
    | with_reducible apply modTb_keeps
    | with_reducible apply resetRegs_keeps
    | with_reducible apply Keeps.foldl
    | intro _ _ _
    | with_reducible apply Keeps.ite
    | extract_lets
    | fail_if_no_progress (with_reducible refine Keeps.put_tim r_tim ?_)

end Sys2Proof.Machine
end

