-- ==== Sys2Proof/Laws/KeepsGns.lean ====
section
/-!
SUPPORT. Sys2Proof/Laws/KeepsGns.lean: the operations of Machine/Gns.lean keep what `Keeps` names.
-/
namespace Sys2Proof.Machine

theorem modGns_keeps {R : Part → Prop} {b₀ : State} (s : State) (i : Nat) (f : GnsSlot → GnsSlot) (h_R : Allows R [.gns]) (h_s : Keeps R b₀ s) : Keeps R b₀ (modGns s i f) := by
  unfold modGns
  have r_gns : R .gns := h_R _ (by decide)
  repeat' first
    | with_reducible assumption
    | with_reducible apply Keeps.ite
    | extract_lets
    | fail_if_no_progress (with_reducible refine Keeps.put_gns r_gns ?_)

theorem assignOne_keeps {R : Part → Prop} {b₀ : State} (s : State) (c : GnsCand) (h_R : Allows R [.gns]) (h_s : Keeps R b₀ s) : Keeps R b₀ (assignOne s c) := by
  unfold assignOne
  repeat' first
    | with_reducible assumption
    | with_reducible apply modGns_keeps
    | with_reducible apply Keeps.ite
    | extract_lets
    | split

theorem assignSlots_keeps {R : Part → Prop} {b₀ : State} (s : State) (h_R : Allows R [.gns]) (h_s : Keeps R b₀ s) : Keeps R b₀ (assignSlots s) := by
  unfold assignSlots
  repeat' first
    | with_reducible assumption
    | with_reducible apply assignOne_keeps
    | with_reducible apply Keeps.foldl
    | intro _ _ _
    | with_reducible apply Keeps.ite

theorem startDirect_keeps {R : Part → Prop} {b₀ : State} (s : State) (i : Nat) (h_R : Allows R [.gns]) (h_s : Keeps R b₀ s) : Keeps R b₀ (startDirect s i) := by
  unfold startDirect
  repeat' first
    | with_reducible assumption
    | with_reducible apply modGns_keeps
    | with_reducible apply Keeps.ite

theorem acqDwell_keeps {R : Part → Prop} {b₀ : State} (s : State) (i : Nat) (detected : Bool) (h_R : Allows R [.regs, .gns]) (h_s : Keeps R b₀ s) : Keeps R b₀ (acqDwell s i detected) := by
  unfold acqDwell
  repeat' first
    | with_reducible assumption
    | (refine Allows.sub h_R ?_; decide)
    | with_reducible apply modGns_keeps
    | with_reducible apply bump_keeps
    | with_reducible apply Keeps.ite

theorem execAcqDwell_keeps {R : Part → Prop} {b₀ : State} (i : Nat) (detected : Bool) (s : State) (h_R : Allows R [.regs, .gns]) (h_s : Keeps R b₀ s) : OKeeps R b₀ (execAcqDwell i detected s) := by
  unfold execAcqDwell
  repeat' first
    | with_reducible assumption
    | with_reducible apply acqDwell_keeps
    | with_reducible apply OKeeps.answer

theorem aidedMiss_keeps {R : Part → Prop} {b₀ : State} (s : State) (i : Nat) (h_R : Allows R [.gns]) (h_s : Keeps R b₀ s) : Keeps R b₀ (aidedMiss s i) := by
  unfold aidedMiss
  repeat' first
    | with_reducible assumption
    | with_reducible apply modGns_keeps
    | with_reducible apply Keeps.ite

theorem aidedSearch_keeps {R : Part → Prop} {b₀ : State} (s : State) (i t : Nat) (eph detected : Bool) (h_R : Allows R [.regs, .gns]) (h_s : Keeps R b₀ s) : Keeps R b₀ (aidedSearch s i t eph detected) := by
  unfold aidedSearch
  repeat' first
    | with_reducible assumption
    | (refine Allows.sub h_R ?_; decide)
    | with_reducible apply aidedMiss_keeps
    | with_reducible apply modGns_keeps
    | with_reducible apply bump_keeps
    | with_reducible apply Keeps.ite

theorem execAidedSearch_keeps {R : Part → Prop} {b₀ : State} (i t : Nat) (eph detected : Bool) (s : State) (h_R : Allows R [.regs, .gns]) (h_s : Keeps R b₀ s) : OKeeps R b₀ (execAidedSearch i t eph detected s) := by
  unfold execAidedSearch
  repeat' first
    | with_reducible assumption
    | with_reducible apply aidedSearch_keeps
    | with_reducible apply OKeeps.answer

theorem pullinToTrack_keeps {R : Part → Prop} {b₀ : State} (s : State) (i : Nat) (l : List (Bool × Nat)) (h_R : Allows R [.gns]) (h_s : Keeps R b₀ s) : Keeps R b₀ (pullinToTrack s i l) := by
  unfold pullinToTrack
  repeat' first
    | with_reducible assumption
    | with_reducible apply modGns_keeps
    | with_reducible apply Keeps.ite

theorem execPullinToTrack_keeps {R : Part → Prop} {b₀ : State} (i : Nat) (l : List (Bool × Nat)) (s : State) (h_R : Allows R [.gns]) (h_s : Keeps R b₀ s) : OKeeps R b₀ (execPullinToTrack i l s) := by
  unfold execPullinToTrack
  repeat' first
    | with_reducible assumption
    | with_reducible apply pullinToTrack_keeps
    | with_reducible apply OKeeps.answer

theorem trackLoss_keeps {R : Part → Prop} {b₀ : State} (s : State) (i t : Nat) (l : List (Nat × Bool)) (h_R : Allows R [.regs, .gns]) (h_s : Keeps R b₀ s) : Keeps R b₀ (trackLoss s i t l) := by
  unfold trackLoss
  repeat' first
    | with_reducible assumption
    | (refine Allows.sub h_R ?_; decide)
    | with_reducible apply modGns_keeps
    | with_reducible apply bump_keeps
    | with_reducible apply Keeps.ite

theorem execTrackLoss_keeps {R : Part → Prop} {b₀ : State} (i t : Nat) (l : List (Nat × Bool)) (s : State) (h_R : Allows R [.regs, .gns]) (h_s : Keeps R b₀ s) : OKeeps R b₀ (execTrackLoss i t l s) := by
  unfold execTrackLoss
  repeat' first
    | with_reducible assumption
    | with_reducible apply trackLoss_keeps
    | with_reducible apply OKeeps.answer

theorem lostExpiry_keeps {R : Part → Prop} {b₀ : State} (s : State) (i t : Nat) (h_R : Allows R [.gns]) (h_s : Keeps R b₀ s) : Keeps R b₀ (lostExpiry s i t) := by
  unfold lostExpiry
  repeat' first
    | with_reducible assumption
    | with_reducible apply assignSlots_keeps
    | with_reducible apply modGns_keeps
    | with_reducible apply Keeps.ite

theorem execLostHoldExpiry_keeps {R : Part → Prop} {b₀ : State} (i t : Nat) (s : State) (h_R : Allows R [.gns]) (h_s : Keeps R b₀ s) : OKeeps R b₀ (execLostHoldExpiry i t s) := by
  unfold execLostHoldExpiry
  repeat' first
    | with_reducible assumption
    | with_reducible apply lostExpiry_keeps
    | with_reducible apply OKeeps.answer

theorem applyPin_keeps {R : Part → Prop} {b₀ : State} (s : State) (i : Nat) (h_R : Allows R [.gns]) (h_s : Keeps R b₀ s) : Keeps R b₀ (applyPin s i) := by
  unfold applyPin
  repeat' first
    | with_reducible assumption
    | with_reducible apply modGns_keeps
    | with_reducible apply Keeps.ite
    | extract_lets
    | split

theorem dropDisabled_keeps {R : Part → Prop} {b₀ : State} (s : State) (i : Nat) (h_R : Allows R [.gns]) (h_s : Keeps R b₀ s) : Keeps R b₀ (dropDisabled s i) := by
  unfold dropDisabled
  repeat' first
    | with_reducible assumption
    | with_reducible apply modGns_keeps
    | with_reducible apply Keeps.ite

theorem latchSlot_keeps {R : Part → Prop} {b₀ : State} (s : State) (m : SlotMeas) (h_R : Allows R [.regs, .gns]) (h_s : Keeps R b₀ s) : PKeeps R b₀ (latchSlot s m) := by
  unfold latchSlot
  repeat' first
    | with_reducible assumption
    | (refine Allows.sub h_R ?_; decide)
    | with_reducible apply modGns_keeps
    | with_reducible apply bump_keeps
    | with_reducible apply PKeeps.fst
    | (refine PKeeps.of_eq ‹_› ?_)
    | extract_lets
    | split
    | intro _
    | fail_if_no_progress beta_reduce
    | with_reducible apply PKeeps.foldl
    | dsimp +zetaDelta only
    | with_reducible apply PKeeps.mk

theorem latchSlots_keeps {R : Part → Prop} {b₀ : State} (s : State) (l : List SlotMeas) (h_R : Allows R [.regs, .gns]) (h_s : Keeps R b₀ s) : PKeeps R b₀ (latchSlots s l) := by
  induction l generalizing s with
  | nil => exact h_s
  | cons m r ih => exact ih _ (latchSlot_keeps _ _ (h_R.sub (by decide)) h_s)

theorem latchPort_keeps {R : Part → Prop} {b₀ : State} (s : State) (q : Nat) (r : PortRf) (h_R : Allows R [.regs]) (h_s : Keeps R b₀ s) : Keeps R b₀ (latchPort s q r) := by
  unfold latchPort
  repeat' first
    | with_reducible assumption
    | with_reducible apply setB_keeps
    | with_reducible apply setF_keeps
    | with_reducible apply wr_keeps
    | with_reducible apply Keeps.ite

theorem showAnt_keeps {R : Part → Prop} {b₀ : State} (s : State) (h_R : Allows R [.regs]) (h_s : Keeps R b₀ s) : Keeps R b₀ (showAnt s) := by
  unfold showAnt
  repeat' first
    | with_reducible assumption
    | with_reducible apply setB_keeps

theorem gnsReset_keeps {R : Part → Prop} {b₀ : State} (s : State) (h_R : Allows R [.regs, .gns, .tim]) (h_s : Keeps R b₀ s) : Keeps R b₀ (gnsReset s) := by
  unfold gnsReset
  have r_gns : R .gns := h_R _ (by decide)
  repeat' first
    | with_reducible assumption
    | (refine Allows.sub h_R ?_; decide)
    | with_reducible apply showPps_keeps
    | with_reducible apply modTb_keeps
    | with_reducible apply resetRegs_keeps
    | with_reducible apply setB_keeps
    | with_reducible apply Keeps.ite
    | extract_lets
    | fail_if_no_progress (with_reducible refine Keeps.put_gns r_gns ?_)

theorem gnsEffect_keeps {R : Part → Prop} {b₀ : State} (s : State) (i : Nat) (h_R : Allows R [.regs, .gns, .tim]) (h_s : Keeps R b₀ s) : Keeps R b₀ (gnsEffect s i) := by
  unfold gnsEffect
  have r_gns : R .gns := h_R _ (by decide)
  repeat' first
    | with_reducible assumption
    | (refine Allows.sub h_R ?_; decide)
    | with_reducible apply gnsReset_keeps
    | with_reducible apply showAnt_keeps
    | with_reducible apply setB_keeps
    | with_reducible apply Keeps.ite
    | extract_lets
    | fail_if_no_progress (with_reducible refine Keeps.put_gns r_gns ?_)

theorem takeWritten_keeps {R : Part → Prop} {b₀ : State} (s : State) (h_R : Allows R [.regs, .gns, .tim]) (h_s : Keeps R b₀ s) : Keeps R b₀ (takeWritten s) := by
  unfold takeWritten
  have r_gns : R .gns := h_R _ (by decide)
  repeat' first
    | with_reducible assumption
    | (refine Allows.sub h_R ?_; decide)
    | with_reducible apply gnsEffect_keeps
    | with_reducible apply commitReg_keeps
    | with_reducible apply Keeps.foldl
    | intro _ _ _
    | with_reducible apply Keeps.ite
    | extract_lets
    | fail_if_no_progress (with_reducible refine Keeps.put_gns r_gns ?_)

theorem showSlots_keeps {R : Part → Prop} {b₀ : State} (s : State) (h_R : Allows R [.regs, .gns]) (h_s : Keeps R b₀ s) : Keeps R b₀ (showSlots s) := by
  unfold showSlots
  have r_gns : R .gns := h_R _ (by decide)
  repeat' first
    | with_reducible assumption
    | (refine Allows.sub h_R ?_; decide)
    | with_reducible apply setF_keeps
    | with_reducible apply wr_keeps
    | with_reducible apply Keeps.foldl
    | intro _ _ _
    | with_reducible apply Keeps.ite
    | extract_lets
    | fail_if_no_progress (with_reducible refine Keeps.put_gns r_gns ?_)

theorem takeSky_keeps {R : Part → Prop} {b₀ : State} (s : State) (sky : List GnsCand) (h_R : Allows R [.gns]) (h_s : Keeps R b₀ s) : Keeps R b₀ (takeSky s sky) := by
  unfold takeSky
  have r_gns : R .gns := h_R _ (by decide)
  repeat' first
    | with_reducible assumption
    | with_reducible apply Keeps.ite
    | extract_lets
    | fail_if_no_progress (with_reducible refine Keeps.put_gns r_gns ?_)

theorem measEpoch_keeps {R : Part → Prop} {b₀ : State} (s : State) (t : Nat) (l : List SlotMeas) (sky : List GnsCand) (r0 r1 : PortRf) (lock : Bool) (h_R : Allows R [.regs, .hif, .gns, .tim]) (h_s : Keeps R b₀ s) : Keeps R b₀ (measEpoch s t l sky r0 r1 lock) := by
  unfold measEpoch
  have r_gns : R .gns := h_R _ (by decide)
  repeat' first
    | with_reducible assumption
    | (refine Allows.sub h_R ?_; decide)
    | with_reducible apply takeSky_keeps
    | with_reducible apply showSlots_keeps
    | with_reducible apply takeWritten_keeps
    | with_reducible apply showAnt_keeps
    | with_reducible apply latchPort_keeps
    | with_reducible apply latchSlots_keeps
    | with_reducible apply dropDisabled_keeps
    | with_reducible apply applyPin_keeps
    | with_reducible apply startDirect_keeps
    | with_reducible apply assignSlots_keeps
    | with_reducible apply raiseIrq_keeps
    | with_reducible apply postDeferred_keeps
    | with_reducible apply setB_keeps
    | with_reducible apply PKeeps.fst
    | (refine PKeeps.of_eq ‹_› ?_)
    | with_reducible apply Keeps.foldl
    | intro _ _ _
    | with_reducible apply Keeps.ite
    | extract_lets
    | fail_if_no_progress (with_reducible refine Keeps.put_gns r_gns ?_)

theorem execMeasEpoch_keeps {R : Part → Prop} {b₀ : State} (t : Nat) (l : List SlotMeas) (sky : List GnsCand) (r0 r1 : PortRf) (lock : Bool) (s : State) (h_R : Allows R [.regs, .hif, .gns, .tim]) (h_s : Keeps R b₀ s) : OKeeps R b₀ (execMeasEpoch t l sky r0 r1 lock s) := by
  unfold execMeasEpoch
  repeat' first
    | with_reducible assumption
    | with_reducible apply measEpoch_keeps
    | with_reducible apply OKeeps.answer

theorem measRead_keeps {R : Part → Prop} {b₀ : State} (s : State) (n first count : Nat) (h_R : Allows R [.free]) (h_s : Keeps R b₀ s) : PKeeps R b₀ (measRead s n first count) := by
  unfold measRead
  repeat' first
    | with_reducible assumption
    | with_reducible apply fresh_keeps
    | with_reducible apply PKeeps.fst
    | (refine PKeeps.of_eq ‹_› ?_)
    | (refine fresh_keeps_eq ‹_› ?_ ?_)
    | extract_lets
    | split
    | intro _
    | fail_if_no_progress beta_reduce
    | with_reducible apply PKeeps.foldl
    | dsimp +zetaDelta only
    | with_reducible apply PKeeps.mk

theorem storeUnit_keeps {R : Part → Prop} {b₀ : State} (s : State) (i unit status : Nat) (ok : Bool) (edge : Nat) (b : List Bool) (h_R : Allows R [.gns]) (h_s : Keeps R b₀ s) : Keeps R b₀ (storeUnit s i unit status ok edge b) := by
  unfold storeUnit
  have r_gns : R .gns := h_R _ (by decide)
  repeat' first
    | with_reducible assumption
    | with_reducible apply Keeps.ite
    | extract_lets
    | fail_if_no_progress (with_reducible refine Keeps.put_gns r_gns ?_)

theorem navUnit_keeps {R : Part → Prop} {b₀ : State} (s : State) (i unit status : Nat) (ok : Bool) (edge : Nat) (b : List Bool) (leap : Option LeapData) (h_R : Allows R [.regs, .hif, .gns, .free]) (h_s : Keeps R b₀ s) : Keeps R b₀ (navUnit s i unit status ok edge b leap) := by
  unfold navUnit
  repeat' first
    | with_reducible assumption
    | (refine Allows.sub h_R ?_; decide)
    | with_reducible apply storeUnit_keeps
    | with_reducible apply leapDecoded_keeps
    | with_reducible apply fresh_keeps
    | with_reducible apply raiseIrq_keeps
    | (refine fresh_keeps_eq ‹_› ?_ ?_)
    | with_reducible apply Keeps.foldl
    | intro _ _ _
    | with_reducible apply Keeps.ite
    | extract_lets
    | split

theorem execNavUnit_keeps {R : Part → Prop} {b₀ : State} (i unit status : Nat) (ok : Bool) (edge : Nat) (b : List Bool) (leap : Option LeapData) (s : State) (h_R : Allows R [.regs, .hif, .gns, .free]) (h_s : Keeps R b₀ s) : OKeeps R b₀ (execNavUnit i unit status ok edge b leap s) := by
  unfold execNavUnit
  repeat' first
    | with_reducible assumption
    | with_reducible apply navUnit_keeps
    | with_reducible apply OKeeps.answer
    | with_reducible apply OKeeps.next
    | extract_lets
    | split

theorem showAge_keeps {R : Part → Prop} {b₀ : State} (s : State) (t : Nat) (h_R : Allows R [.regs]) (h_s : Keeps R b₀ s) : Keeps R b₀ (showAge s t) := by
  unfold showAge
  repeat' first
    | with_reducible assumption
    | with_reducible apply setF_keeps

theorem setSolType_keeps {R : Part → Prop} {b₀ : State} (s : State) (ty : Nat) (h_R : Allows R [.regs, .hif]) (h_s : Keeps R b₀ s) : Keeps R b₀ (setSolType s ty) := by
  unfold setSolType
  repeat' first
    | with_reducible assumption
    | (refine Allows.sub h_R ?_; decide)
    | with_reducible apply raiseIrq_keeps
    | with_reducible apply setF_keeps
    | with_reducible apply Keeps.ite

theorem wrSigned_keeps {R : Part → Prop} {b₀ : State} (s : State) (lo hi : Nat) (v : Int) (h_R : Allows R [.regs]) (h_s : Keeps R b₀ s) : Keeps R b₀ (wrSigned s lo hi v) := by
  unfold wrSigned
  repeat' first
    | with_reducible assumption
    | with_reducible apply wrPair_keeps

theorem solution_keeps {R : Part → Prop} {b₀ : State} (s : State) (t : Nat) (x : SolIn) (h_R : Allows R [.regs, .kin, .hif, .recd, .gns, .tim]) (h_s : Keeps R b₀ s) : Keeps R b₀ (solution s t x) := by
  unfold solution
  have r_kin : R .kin := h_R _ (by decide)
  have r_gns : R .gns := h_R _ (by decide)
  repeat' first
    | with_reducible assumption
    | (refine Allows.sub h_R ?_; decide)
    | with_reducible apply wrSigned_keeps
    | with_reducible apply setSolType_keeps
    | with_reducible apply showAge_keeps
    | with_reducible apply modGns_keeps
    | with_reducible apply steer_keeps
    | with_reducible apply raiseIrq_keeps
    | with_reducible apply wrPair_keeps
    | with_reducible apply setI_keeps
    | with_reducible apply setB_keeps
    | with_reducible apply setF_keeps
    | with_reducible apply wr_keeps
    | with_reducible apply Keeps.foldl
    | intro _ _ _
    | with_reducible apply Keeps.ite
    | extract_lets
    | fail_if_no_progress (with_reducible refine Keeps.put ?_ (.inl r_kin) (.inr rfl) (.inr rfl) (.inr rfl) (.inr rfl) (.inr rfl) (.inr rfl) (.inr rfl) (.inr rfl) (.inr rfl) (.inr rfl) (.inr rfl) (.inr rfl) (.inr rfl) (.inl r_gns) (.inr rfl) (.inr rfl) (.inr rfl) (.inr rfl))
    | split

theorem execSolution_keeps {R : Part → Prop} {b₀ : State} (t : Nat) (x : SolIn) (s : State) (h_R : Allows R [.regs, .kin, .hif, .recd, .gns, .tim]) (h_s : Keeps R b₀ s) : OKeeps R b₀ (execSolution t x s) := by
  unfold execSolution
  repeat' first
    | with_reducible assumption
    | with_reducible apply solution_keeps
    | with_reducible apply OKeeps.answer

theorem useMessage_keeps {R : Part → Prop} {b₀ : State} (s : State) (t ty : Nat) (m : List Byte) (h_R : Allows R [.regs, .recd, .gns]) (h_s : Keeps R b₀ s) : Keeps R b₀ (useMessage s t ty m) := by
  unfold useMessage
  have r_gns : R .gns := h_R _ (by decide)
  repeat' first
    | with_reducible assumption
    | (refine Allows.sub h_R ?_; decide)
    | with_reducible apply showAge_keeps
    | with_reducible apply record_keeps
    | with_reducible apply bump_keeps
    | with_reducible apply setB_keeps
    | with_reducible apply setF_keeps
    | with_reducible apply Keeps.ite
    | extract_lets
    | fail_if_no_progress (with_reducible refine Keeps.put_gns r_gns ?_)

theorem rtcmFrame_keeps {R : Part → Prop} {b₀ : State} (s : State) (h t : Nat) (m : List Byte) (h_R : Allows R [.regs, .recd, .gns]) (h_s : Keeps R b₀ s) : Keeps R b₀ (rtcmFrame s h t m) := by
  unfold rtcmFrame
  have r_gns : R .gns := h_R _ (by decide)
  repeat' first
    | with_reducible assumption
    | (refine Allows.sub h_R ?_; decide)
    | with_reducible apply useMessage_keeps
    | with_reducible apply record_keeps
    | with_reducible apply bump_keeps
    | with_reducible apply setB_keeps
    | with_reducible apply setF_keeps
    | with_reducible apply Keeps.ite
    | extract_lets
    | fail_if_no_progress (with_reducible refine Keeps.put_gns r_gns ?_)

theorem rtcmParse_keeps {R : Part → Prop} {b₀ : State} (n : Nat) (s : State) (h t : Nat) (l : List Byte) (h_R : Allows R [.regs, .recd, .gns]) (h_s : Keeps R b₀ s) :
    PKeeps R b₀ (rtcmParse n s h t l) := by
  induction n generalizing s l with
  | zero => exact h_s
  | succ n ih =>
    unfold rtcmParse
    repeat' first
      | (refine Allows.sub h_R ?_; decide)
      | exact h_s
      | with_reducible apply ih
      | with_reducible assumption
      | with_reducible apply rtcmFrame_keeps
      | with_reducible apply bump_keeps
      | extract_lets
      | split

theorem rtcmFeed_keeps {R : Part → Prop} {b₀ : State} (s : State) (h : Nat) (b : List Byte) (h_R : Allows R [.regs, .recd, .gns]) (h_s : Keeps R b₀ s) : Keeps R b₀ (rtcmFeed s h b) := by
  unfold rtcmFeed
  have r_gns : R .gns := h_R _ (by decide)
  repeat' first
    | with_reducible assumption
    | with_reducible apply rtcmParse_keeps
    | with_reducible apply PKeeps.fst
    | (refine PKeeps.of_eq ‹_› ?_)
    | with_reducible apply Keeps.ite
    | extract_lets
    | fail_if_no_progress (with_reducible refine Keeps.put_gns r_gns ?_)

theorem ageExceeded_keeps {R : Part → Prop} {b₀ : State} (s : State) (t : Nat) (h_R : Allows R [.regs, .hif, .recd, .gns]) (h_s : Keeps R b₀ s) : Keeps R b₀ (ageExceeded s t) := by
  unfold ageExceeded
  have r_gns : R .gns := h_R _ (by decide)
  repeat' first
    | with_reducible assumption
    | (refine Allows.sub h_R ?_; decide)
    | with_reducible apply setSolType_keeps
    | with_reducible apply showAge_keeps
    | with_reducible apply record_keeps
    | with_reducible apply setB_keeps
    | with_reducible apply Keeps.ite
    | extract_lets
    | fail_if_no_progress (with_reducible refine Keeps.put_gns r_gns ?_)

theorem execCorrectionAgeExceeded_keeps {R : Part → Prop} {b₀ : State} (t : Nat) (s : State) (h_R : Allows R [.regs, .hif, .recd, .gns]) (h_s : Keeps R b₀ s) : OKeeps R b₀ (execCorrectionAgeExceeded t s) := by
  unfold execCorrectionAgeExceeded
  repeat' first
    | with_reducible assumption
    | with_reducible apply ageExceeded_keeps
    | with_reducible apply OKeeps.answer

theorem sourceExpiry_keeps {R : Part → Prop} {b₀ : State} (s : State) (t : Nat) (h_R : Allows R [.regs]) (h_s : Keeps R b₀ s) : Keeps R b₀ (sourceExpiry s t) := by
  unfold sourceExpiry
  repeat' first
    | with_reducible assumption
    | with_reducible apply setB_keeps
    | with_reducible apply Keeps.ite

theorem execSourceHoldExpiry_keeps {R : Part → Prop} {b₀ : State} (t : Nat) (s : State) (h_R : Allows R [.regs]) (h_s : Keeps R b₀ s) : OKeeps R b₀ (execSourceHoldExpiry t s) := by
  unfold execSourceHoldExpiry
  repeat' first
    | with_reducible assumption
    | with_reducible apply sourceExpiry_keeps
    | with_reducible apply OKeeps.answer

theorem antFault_keeps {R : Part → Prop} {b₀ : State} (s : State) (q k : Nat) (h_R : Allows R [.regs, .hif, .recd]) (h_s : Keeps R b₀ s) : Keeps R b₀ (antFault s q k) := by
  unfold antFault
  repeat' first
    | with_reducible assumption
    | (refine Allows.sub h_R ?_; decide)
    | with_reducible apply showAnt_keeps
    | with_reducible apply raiseIrq_keeps
    | with_reducible apply record_keeps
    | with_reducible apply setB_keeps
    | with_reducible apply Keeps.ite

theorem execAntOpen_keeps {R : Part → Prop} {b₀ : State} (q : Nat) (s : State) (h_R : Allows R [.regs, .hif, .recd]) (h_s : Keeps R b₀ s) : OKeeps R b₀ (execAntOpen q s) := by
  unfold execAntOpen
  repeat' first
    | with_reducible assumption
    | with_reducible apply antFault_keeps
    | with_reducible apply OKeeps.answer
    | with_reducible apply OKeeps.next
    | extract_lets
    | split

theorem antShort_keeps {R : Part → Prop} {b₀ : State} (s : State) (q t : Nat) (h_R : Allows R [.regs, .hif, .recd, .gns]) (h_s : Keeps R b₀ s) : Keeps R b₀ (antShort s q t) := by
  unfold antShort
  have r_gns : R .gns := h_R _ (by decide)
  repeat' first
    | with_reducible assumption
    | (refine Allows.sub h_R ?_; decide)
    | with_reducible apply antFault_keeps
    | with_reducible apply Keeps.ite
    | extract_lets
    | fail_if_no_progress (with_reducible refine Keeps.put_gns r_gns ?_)

theorem execAntShort_keeps {R : Part → Prop} {b₀ : State} (q t : Nat) (s : State) (h_R : Allows R [.regs, .hif, .recd, .gns]) (h_s : Keeps R b₀ s) : OKeeps R b₀ (execAntShort q t s) := by
  unfold execAntShort
  repeat' first
    | with_reducible assumption
    | with_reducible apply antShort_keeps
    | with_reducible apply OKeeps.answer

theorem biasReclose_keeps {R : Part → Prop} {b₀ : State} (s : State) (q t : Nat) (h_R : Allows R [.regs, .gns]) (h_s : Keeps R b₀ s) : Keeps R b₀ (biasReclose s q t) := by
  unfold biasReclose
  have r_gns : R .gns := h_R _ (by decide)
  repeat' first
    | with_reducible assumption
    | (refine Allows.sub h_R ?_; decide)
    | with_reducible apply showAnt_keeps
    | with_reducible apply setB_keeps
    | with_reducible apply Keeps.ite
    | extract_lets
    | fail_if_no_progress (with_reducible refine Keeps.put_gns r_gns ?_)
    | split

theorem execBiasReclose_keeps {R : Part → Prop} {b₀ : State} (q t : Nat) (s : State) (h_R : Allows R [.regs, .gns]) (h_s : Keeps R b₀ s) : OKeeps R b₀ (execBiasReclose q t s) := by
  unfold execBiasReclose
  repeat' first
    | with_reducible assumption
    | with_reducible apply biasReclose_keeps
    | with_reducible apply OKeeps.answer

theorem slotPin_keeps {R : Part → Prop} {b₀ : State} (s : State) (i : Nat) (v : Word) (h_R : Allows R [.gns]) (h_s : Keeps R b₀ s) : Keeps R b₀ (slotPin s i v) := by
  unfold slotPin
  repeat' first
    | with_reducible assumption
    | with_reducible apply modGns_keeps

end Sys2Proof.Machine
end

