-- ==== Sys2Proof/Laws/KeepsEth.lean ====
section
/-!
SUPPORT. Sys2Proof/Laws/KeepsEth.lean: the operations of Machine/Eth.lean keep what `Keeps` names.
-/
namespace Sys2Proof.Machine

theorem setLink_keeps {R : Part → Prop} {b₀ : State} (s : State) (p t : Nat) (up : Bool) (h_R : Allows R [.regs, .eth]) (h_s : Keeps R b₀ s) : Keeps R b₀ (setLink s p t up) := by
  unfold setLink
  have r_eth : R .eth := h_R _ (by decide)
  repeat' first
    | with_reducible assumption
    | (refine Allows.sub h_R ?_; decide)
    | with_reducible apply bump_keeps
    | with_reducible apply setB_keeps
    | with_reducible apply Keeps.ite
    | extract_lets
    | fail_if_no_progress (with_reducible refine Keeps.put_eth r_eth ?_)

theorem setCoil_keeps {R : Part → Prop} {b₀ : State} (s : State) (t : Nat) (on : Bool) (h_R : Allows R [.regs, .eth]) (h_s : Keeps R b₀ s) : Keeps R b₀ (setCoil s t on) := by
  unfold setCoil
  have r_eth : R .eth := h_R _ (by decide)
  repeat' first
    | with_reducible assumption
    | (refine Allows.sub h_R ?_; decide)
    | with_reducible apply setB_keeps
    | with_reducible apply Keeps.ite
    | extract_lets
    | fail_if_no_progress (with_reducible refine Keeps.put_eth r_eth ?_)

theorem insertStart_keeps {R : Part → Prop} {b₀ : State} (s : State) (t cause : Nat) (h_R : Allows R [.regs, .eth]) (h_s : Keeps R b₀ s) : Keeps R b₀ (insertStart s t cause) := by
  unfold insertStart
  have r_eth : R .eth := h_R _ (by decide)
  repeat' first
    | with_reducible assumption
    | (refine Allows.sub h_R ?_; decide)
    | with_reducible apply setCoil_keeps
    | with_reducible apply setLink_keeps
    | with_reducible apply setF_keeps
    | with_reducible apply Keeps.ite
    | extract_lets
    | fail_if_no_progress (with_reducible refine Keeps.put_eth r_eth ?_)

theorem returnEnd_keeps {R : Part → Prop} {b₀ : State} (s : State) (h_R : Allows R [.regs, .recd]) (h_s : Keeps R b₀ s) : Keeps R b₀ (returnEnd s) := by
  unfold returnEnd
  repeat' first
    | with_reducible assumption
    | (refine Allows.sub h_R ?_; decide)
    | with_reducible apply record_keeps
    | with_reducible apply bump_keeps
    | with_reducible apply setF_keeps

theorem returnStart_keeps {R : Part → Prop} {b₀ : State} (s : State) (t cause : Nat) (h_R : Allows R [.regs, .recd, .eth]) (h_s : Keeps R b₀ s) : Keeps R b₀ (returnStart s t cause) := by
  unfold returnStart
  have r_eth : R .eth := h_R _ (by decide)
  repeat' first
    | with_reducible assumption
    | (refine Allows.sub h_R ?_; decide)
    | with_reducible apply returnEnd_keeps
    | with_reducible apply setCoil_keeps
    | with_reducible apply setF_keeps
    | with_reducible apply Keeps.ite
    | extract_lets
    | fail_if_no_progress (with_reducible refine Keeps.put_eth r_eth ?_)

theorem bypassWrite_keeps {R : Part → Prop} {b₀ : State} (s : State) (t : Nat) (h_R : Allows R [.regs, .recd, .eth]) (h_s : Keeps R b₀ s) : Keeps R b₀ (bypassWrite s t) := by
  unfold bypassWrite
  repeat' first
    | with_reducible assumption
    | with_reducible apply returnStart_keeps
    | with_reducible apply Keeps.ite

theorem autoInsert_keeps {R : Part → Prop} {b₀ : State} (s : State) (t : Nat) (h_R : Allows R [.regs, .eth]) (h_s : Keeps R b₀ s) : Keeps R b₀ (autoInsert s t) := by
  unfold autoInsert
  repeat' first
    | with_reducible assumption
    | with_reducible apply insertStart_keeps
    | with_reducible apply Keeps.ite

theorem execAutoInsert_keeps {R : Part → Prop} {b₀ : State} (s : State) (h_R : Allows R [.regs, .eth]) (h_s : Keeps R b₀ s) : OKeeps R b₀ (execAutoInsert s) := by
  unfold execAutoInsert
  repeat' first
    | with_reducible assumption
    | with_reducible apply autoInsert_keeps
    | with_reducible apply OKeeps.answer
    | with_reducible apply OKeeps.next

theorem senseChange_keeps {R : Part → Prop} {b₀ : State} (s : State) (lvl : Bool) (t : Nat) (h_R : Allows R [.regs, .recd, .eth]) (h_s : Keeps R b₀ s) : Keeps R b₀ (senseChange s lvl t) := by
  unfold senseChange
  have r_eth : R .eth := h_R _ (by decide)
  repeat' first
    | with_reducible assumption
    | (refine Allows.sub h_R ?_; decide)
    | with_reducible apply returnEnd_keeps
    | with_reducible apply setB_keeps
    | with_reducible apply setF_keeps
    | with_reducible apply Keeps.ite
    | extract_lets
    | fail_if_no_progress (with_reducible refine Keeps.put_eth r_eth ?_)

theorem execBypSenseChange_keeps {R : Part → Prop} {b₀ : State} (lvl : Bool) (t : Nat) (s : State) (h_R : Allows R [.regs, .recd, .eth]) (h_s : Keeps R b₀ s) : OKeeps R b₀ (execBypSenseChange lvl t s) := by
  unfold execBypSenseChange
  repeat' first
    | with_reducible assumption
    | with_reducible apply senseChange_keeps
    | with_reducible apply OKeeps.answer

theorem insertionDone_keeps {R : Part → Prop} {b₀ : State} (s : State) (h_R : Allows R [.regs, .recd]) (h_s : Keeps R b₀ s) : Keeps R b₀ (insertionDone s) := by
  unfold insertionDone
  repeat' first
    | with_reducible assumption
    | (refine Allows.sub h_R ?_; decide)
    | with_reducible apply record_keeps
    | with_reducible apply bump_keeps
    | with_reducible apply setF_keeps
    | with_reducible apply Keeps.ite

theorem execInsertionComplete_keeps {R : Part → Prop} {b₀ : State} (s : State) (h_R : Allows R [.regs, .recd]) (h_s : Keeps R b₀ s) : OKeeps R b₀ (execInsertionComplete s) := by
  unfold execInsertionComplete
  repeat' first
    | with_reducible assumption
    | with_reducible apply insertionDone_keeps
    | with_reducible apply OKeeps.answer
    | with_reducible apply OKeeps.next

theorem linkTimeout_keeps {R : Part → Prop} {b₀ : State} (s : State) (t : Nat) (h_R : Allows R [.regs, .recd, .eth]) (h_s : Keeps R b₀ s) : Keeps R b₀ (linkTimeout s t) := by
  unfold linkTimeout
  repeat' first
    | with_reducible assumption
    | with_reducible apply returnStart_keeps
    | with_reducible apply Keeps.ite

theorem execLinkTimeout_keeps {R : Part → Prop} {b₀ : State} (t : Nat) (s : State) (h_R : Allows R [.regs, .recd, .eth]) (h_s : Keeps R b₀ s) : OKeeps R b₀ (execLinkTimeout t s) := by
  unfold execLinkTimeout
  repeat' first
    | with_reducible assumption
    | with_reducible apply linkTimeout_keeps
    | with_reducible apply OKeeps.answer

theorem relayFault_keeps {R : Part → Prop} {b₀ : State} (s : State) (t : Nat) (h_R : Allows R [.regs, .recd, .eth]) (h_s : Keeps R b₀ s) : Keeps R b₀ (relayFault s t) := by
  unfold relayFault
  repeat' first
    | with_reducible assumption
    | (refine Allows.sub h_R ?_; decide)
    | with_reducible apply setCoil_keeps
    | with_reducible apply record_keeps
    | with_reducible apply setB_keeps
    | with_reducible apply setF_keeps
    | with_reducible apply Keeps.ite

theorem execRelayFault_keeps {R : Part → Prop} {b₀ : State} (t : Nat) (s : State) (h_R : Allows R [.regs, .recd, .eth]) (h_s : Keeps R b₀ s) : OKeeps R b₀ (execRelayFault t s) := by
  unfold execRelayFault
  repeat' first
    | with_reducible assumption
    | with_reducible apply relayFault_keeps
    | with_reducible apply OKeeps.answer

theorem linkLoss_keeps {R : Part → Prop} {b₀ : State} (s : State) (t : Nat) (h_R : Allows R [.regs, .recd, .eth]) (h_s : Keeps R b₀ s) : Keeps R b₀ (linkLoss s t) := by
  unfold linkLoss
  repeat' first
    | with_reducible assumption
    | with_reducible apply returnStart_keeps
    | with_reducible apply Keeps.ite

theorem execLinkLoss_keeps {R : Part → Prop} {b₀ : State} (s : State) (h_R : Allows R [.regs, .recd, .eth]) (h_s : Keeps R b₀ s) : OKeeps R b₀ (execLinkLoss s) := by
  unfold execLinkLoss
  repeat' first
    | with_reducible assumption
    | with_reducible apply linkLoss_keeps
    | with_reducible apply OKeeps.answer
    | with_reducible apply OKeeps.next

theorem relayFaultClear_keeps {R : Part → Prop} {b₀ : State} (s : State) (h_R : Allows R [.regs]) (h_s : Keeps R b₀ s) : Keeps R b₀ (relayFaultClear s) := by
  unfold relayFaultClear
  repeat' first
    | with_reducible assumption
    | with_reducible apply setB_keeps
    | with_reducible apply setF_keeps
    | with_reducible apply Keeps.ite

theorem phyLinkChange_keeps {R : Part → Prop} {b₀ : State} (s : State) (p : Nat) (up : Bool) (sqi t : Nat) (h_R : Allows R [.regs, .eth]) (h_s : Keeps R b₀ s) : Keeps R b₀ (phyLinkChange s p up sqi t) := by
  unfold phyLinkChange
  repeat' first
    | with_reducible assumption
    | (refine Allows.sub h_R ?_; decide)
    | with_reducible apply setLink_keeps
    | with_reducible apply setF_keeps
    | with_reducible apply Keeps.ite

theorem execPhyLinkChange_keeps {R : Part → Prop} {b₀ : State} (p : Nat) (up : Bool) (sqi t : Nat) (s : State) (h_R : Allows R [.regs, .eth]) (h_s : Keeps R b₀ s) : OKeeps R b₀ (execPhyLinkChange p up sqi t s) := by
  unfold execPhyLinkChange
  repeat' first
    | with_reducible assumption
    | with_reducible apply phyLinkChange_keeps
    | with_reducible apply OKeeps.answer

theorem ethBoundary_keeps {R : Part → Prop} {b₀ : State} (s : State) (h_R : Allows R [.regs, .recd, .eth]) (h_s : Keeps R b₀ s) : Keeps R b₀ (ethBoundary s) := by
  unfold ethBoundary
  repeat' first
    | with_reducible assumption
    | (refine Allows.sub h_R ?_; decide)
    | with_reducible apply linkLoss_keeps
    | with_reducible apply relayFault_keeps
    | with_reducible apply linkTimeout_keeps
    | with_reducible apply autoInsert_keeps

theorem ptpSource_keeps {R : Part → Prop} {b₀ : State} (s : State) (n src t : Nat) (h_R : Allows R [.regs, .tim]) (h_s : Keeps R b₀ s) : Keeps R b₀ (ptpSource s n src t) := by
  unfold ptpSource
  repeat' first
    | with_reducible assumption
    | (refine Allows.sub h_R ?_; decide)
    | with_reducible apply tbSourceChange_keeps
    | with_reducible apply wrPair_keeps
    | with_reducible apply setF_keeps
    | with_reducible apply Keeps.ite

theorem gpRole_keeps {R : Part → Prop} {b₀ : State} (s : State) (r t : Nat) (h_R : Allows R [.regs, .tim]) (h_s : Keeps R b₀ s) : Keeps R b₀ (gpRole s r t) := by
  unfold gpRole
  repeat' first
    | with_reducible assumption
    | (refine Allows.sub h_R ?_; decide)
    | with_reducible apply ptpSource_keeps
    | with_reducible apply setF_keeps

theorem ocState_keeps {R : Part → Prop} {b₀ : State} (s : State) (x t : Nat) (h_R : Allows R [.regs, .tim]) (h_s : Keeps R b₀ s) : Keeps R b₀ (ocState s x t) := by
  unfold ocState
  repeat' first
    | with_reducible assumption
    | (refine Allows.sub h_R ?_; decide)
    | with_reducible apply ptpSource_keeps
    | with_reducible apply setF_keeps

theorem gpConfig_keeps {R : Part → Prop} {b₀ : State} (s : State) (t : Nat) (h_R : Allows R [.regs, .tim, .eth]) (h_s : Keeps R b₀ s) : Keeps R b₀ (gpConfig s t) := by
  unfold gpConfig
  have r_eth : R .eth := h_R _ (by decide)
  repeat' first
    | with_reducible assumption
    | (refine Allows.sub h_R ?_; decide)
    | with_reducible apply gpRole_keeps
    | with_reducible apply Keeps.ite
    | extract_lets
    | fail_if_no_progress (with_reducible refine Keeps.put_eth r_eth ?_)

theorem ocConfig_keeps {R : Part → Prop} {b₀ : State} (s : State) (t : Nat) (h_R : Allows R [.regs, .tim]) (h_s : Keeps R b₀ s) : Keeps R b₀ (ocConfig s t) := by
  unfold ocConfig
  repeat' first
    | with_reducible assumption
    | (refine Allows.sub h_R ?_; decide)
    | with_reducible apply ocState_keeps
    | with_reducible apply setB_keeps
    | with_reducible apply Keeps.ite
    | extract_lets
    | split

theorem ptpSteer_keeps {R : Part → Prop} {b₀ : State} (s : State) (n : Nat) (u : PtpUpdate) (t : Nat) (h_R : Allows R [.regs, .hif, .recd, .gns, .tim]) (h_s : Keeps R b₀ s) : Keeps R b₀ (ptpSteer s n u t) := by
  unfold ptpSteer
  repeat' first
    | with_reducible assumption
    | (refine Allows.sub h_R ?_; decide)
    | with_reducible apply tbRate_keeps
    | with_reducible apply tbJump_keeps
    | with_reducible apply Keeps.ite
    | extract_lets
    | split

theorem ptpUpdate_keeps {R : Part → Prop} {b₀ : State} (s : State) (p : Nat) (u : PtpUpdate) (t : Nat) (h_R : Allows R [.regs, .hif, .recd, .gns, .tim, .eth]) (h_s : Keeps R b₀ s) : Keeps R b₀ (ptpUpdate s p u t) := by
  unfold ptpUpdate
  have r_eth : R .eth := h_R _ (by decide)
  repeat' first
    | with_reducible assumption
    | (refine Allows.sub h_R ?_; decide)
    | with_reducible apply ptpSteer_keeps
    | with_reducible apply ocState_keeps
    | with_reducible apply gpRole_keeps
    | with_reducible apply setI_keeps
    | with_reducible apply setB_keeps
    | with_reducible apply setF_keeps
    | with_reducible apply Keeps.ite
    | extract_lets
    | fail_if_no_progress (with_reducible refine Keeps.put_eth r_eth ?_)

theorem masterLoss_keeps {R : Part → Prop} {b₀ : State} (s : State) (i t : Nat) (h_R : Allows R [.regs, .tim]) (h_s : Keeps R b₀ s) : Keeps R b₀ (masterLoss s i t) := by
  unfold masterLoss
  repeat' first
    | with_reducible assumption
    | with_reducible apply ocState_keeps
    | with_reducible apply gpRole_keeps
    | with_reducible apply Keeps.ite

theorem execPtpMasterLoss_keeps {R : Part → Prop} {b₀ : State} (i t : Nat) (s : State) (h_R : Allows R [.regs, .tim]) (h_s : Keeps R b₀ s) : OKeeps R b₀ (execPtpMasterLoss i t s) := by
  unfold execPtpMasterLoss
  repeat' first
    | with_reducible assumption
    | with_reducible apply masterLoss_keeps
    | with_reducible apply OKeeps.answer

theorem syncInterval_keeps {R : Part → Prop} {b₀ : State} (s : State) (i t : Nat) (h_R : Allows R [.regs, .eth]) (h_s : Keeps R b₀ s) : Keeps R b₀ (syncInterval s i t) := by
  unfold syncInterval
  have r_eth : R .eth := h_R _ (by decide)
  repeat' first
    | with_reducible assumption
    | (refine Allows.sub h_R ?_; decide)
    | with_reducible apply bump_keeps
    | with_reducible apply Keeps.foldl
    | intro _ _ _
    | with_reducible apply Keeps.ite
    | extract_lets
    | fail_if_no_progress (with_reducible refine Keeps.put_eth r_eth ?_)

theorem execSyncInterval_keeps {R : Part → Prop} {b₀ : State} (i t : Nat) (s : State) (h_R : Allows R [.regs, .eth]) (h_s : Keeps R b₀ s) : OKeeps R b₀ (execSyncInterval i t s) := by
  unfold execSyncInterval
  repeat' first
    | with_reducible assumption
    | with_reducible apply syncInterval_keeps
    | with_reducible apply OKeeps.answer

theorem learnAddr_keeps {R : Part → Prop} {b₀ : State} (s : State) (mac p t : Nat) (h_R : Allows R [.regs, .eth]) (h_s : Keeps R b₀ s) : Keeps R b₀ (learnAddr s mac p t) := by
  unfold learnAddr
  have r_eth : R .eth := h_R _ (by decide)
  repeat' first
    | with_reducible assumption
    | (refine Allows.sub h_R ?_; decide)
    | with_reducible apply setF_keeps
    | with_reducible apply Keeps.ite
    | extract_lets
    | fail_if_no_progress (with_reducible refine Keeps.put_eth r_eth ?_)

theorem ageAddr_keeps {R : Part → Prop} {b₀ : State} (s : State) (mac t : Nat) (h_R : Allows R [.regs, .eth]) (h_s : Keeps R b₀ s) : Keeps R b₀ (ageAddr s mac t) := by
  unfold ageAddr
  have r_eth : R .eth := h_R _ (by decide)
  repeat' first
    | with_reducible assumption
    | (refine Allows.sub h_R ?_; decide)
    | with_reducible apply setF_keeps
    | with_reducible apply Keeps.ite
    | extract_lets
    | fail_if_no_progress (with_reducible refine Keeps.put_eth r_eth ?_)

theorem execAddressAgeing_keeps {R : Part → Prop} {b₀ : State} (mac t : Nat) (s : State) (h_R : Allows R [.regs, .eth]) (h_s : Keeps R b₀ s) : OKeeps R b₀ (execAddressAgeing mac t s) := by
  unfold execAddressAgeing
  repeat' first
    | with_reducible assumption
    | with_reducible apply ageAddr_keeps
    | with_reducible apply OKeeps.answer

theorem correctFrame_keeps {R : Part → Prop} {b₀ : State} (s : State) (f : EthFrame) (out : Nat) (h_R : Allows R [.regs]) (h_s : Keeps R b₀ s) : PKeeps R b₀ (correctFrame s f out) := by
  unfold correctFrame
  repeat' first
    | with_reducible assumption
    | with_reducible apply bump_keeps
    | with_reducible apply setF_keeps
    | with_reducible apply PKeeps.fst
    | (refine PKeeps.of_eq ‹_› ?_)
    | extract_lets
    | split
    | intro _
    | fail_if_no_progress beta_reduce
    | with_reducible apply PKeeps.foldl
    | dsimp +zetaDelta only
    | with_reducible apply PKeeps.mk

theorem forwardFrame_keeps {R : Part → Prop} {b₀ : State} (s : State) (f : EthFrame) (h_R : Allows R [.regs, .eth]) (h_s : Keeps R b₀ s) : Keeps R b₀ (forwardFrame s f) := by
  unfold forwardFrame
  have r_eth : R .eth := h_R _ (by decide)
  repeat' first
    | with_reducible assumption
    | (refine Allows.sub h_R ?_; decide)
    | with_reducible apply correctFrame_keeps
    | with_reducible apply bump_keeps
    | with_reducible apply PKeeps.fst
    | (refine PKeeps.of_eq ‹_› ?_)
    | with_reducible apply Keeps.ite
    | extract_lets
    | fail_if_no_progress (with_reducible refine Keeps.put_eth r_eth ?_)

theorem sendOwn_keeps {R : Part → Prop} {b₀ : State} (s : State) (p : Nat) (b : List Byte) (h_R : Allows R [.regs, .eth]) (h_s : Keeps R b₀ s) : Keeps R b₀ (sendOwn s p b) := by
  unfold sendOwn
  have r_eth : R .eth := h_R _ (by decide)
  repeat' first
    | with_reducible assumption
    | (refine Allows.sub h_R ?_; decide)
    | with_reducible apply bump_keeps
    | with_reducible apply Keeps.ite
    | extract_lets
    | fail_if_no_progress (with_reducible refine Keeps.put_eth r_eth ?_)

theorem internalFrame_keeps {R : Part → Prop} {b₀ : State} (s : State) (f : EthFrame) (t : Nat) (h_R : Allows R [.regs, .hif, .recd, .gns, .tim, .eth]) (h_s : Keeps R b₀ s) : Keeps R b₀ (internalFrame s f t) := by
  unfold internalFrame
  have r_eth : R .eth := h_R _ (by decide)
  repeat' first
    | with_reducible assumption
    | (refine Allows.sub h_R ?_; decide)
    | with_reducible apply sendOwn_keeps
    | with_reducible apply ptpUpdate_keeps
    | with_reducible apply Keeps.ite
    | extract_lets
    | fail_if_no_progress (with_reducible refine Keeps.put_eth r_eth ?_)
    | split

theorem switchFrame_keeps {R : Part → Prop} {b₀ : State} (s : State) (f : EthFrame) (t : Nat) (h_R : Allows R [.regs, .hif, .recd, .gns, .tim, .eth]) (h_s : Keeps R b₀ s) : Keeps R b₀ (switchFrame s f t) := by
  unfold switchFrame
  repeat' first
    | with_reducible assumption
    | (refine Allows.sub h_R ?_; decide)
    | with_reducible apply internalFrame_keeps
    | with_reducible apply forwardFrame_keeps
    | with_reducible apply learnAddr_keeps
    | with_reducible apply Keeps.ite
    | extract_lets
    | split

theorem frameRx_keeps {R : Part → Prop} {b₀ : State} (s : State) (f : EthFrame) (h_R : Allows R [.regs, .hif, .recd, .gns, .tim, .eth]) (h_s : Keeps R b₀ s) : Keeps R b₀ (frameRx s f) := by
  unfold frameRx
  repeat' first
    | with_reducible assumption
    | (refine Allows.sub h_R ?_; decide)
    | with_reducible apply switchFrame_keeps
    | with_reducible apply bump_keeps
    | with_reducible apply Keeps.ite

theorem execEthFrameRx_keeps {R : Part → Prop} {b₀ : State} (f : EthFrame) (s : State) (h_R : Allows R [.regs, .hif, .recd, .gns, .tim, .eth]) (h_s : Keeps R b₀ s) : OKeeps R b₀ (execEthFrameRx f s) := by
  unfold execEthFrameRx
  repeat' first
    | with_reducible assumption
    | with_reducible apply frameRx_keeps
    | with_reducible apply OKeeps.answer

theorem ethEffect_keeps {R : Part → Prop} {b₀ : State} (s : State) (i : Nat) (old : Word) (h_R : Allows R [.regs, .recd, .tim, .eth]) (h_s : Keeps R b₀ s) : Keeps R b₀ (ethEffect s i old) := by
  unfold ethEffect
  repeat' first
    | with_reducible assumption
    | (refine Allows.sub h_R ?_; decide)
    | with_reducible apply ocConfig_keeps
    | with_reducible apply gpConfig_keeps
    | with_reducible apply bypassWrite_keeps
    | with_reducible apply insertStart_keeps
    | with_reducible apply setLink_keeps
    | with_reducible apply setF_keeps
    | with_reducible apply Keeps.ite

theorem ethReset_keeps {R : Part → Prop} {b₀ : State} (s : State) (h_R : Allows R [.regs, .eth]) (h_s : Keeps R b₀ s) : Keeps R b₀ (ethReset s) := by
  unfold ethReset
  have r_eth : R .eth := h_R _ (by decide)
  repeat' first
    | with_reducible assumption
    | (refine Allows.sub h_R ?_; decide)
    | with_reducible apply resetRegs_keeps
    | with_reducible apply setB_keeps
    | with_reducible apply Keeps.ite
    | extract_lets
    | fail_if_no_progress (with_reducible refine Keeps.put_eth r_eth ?_)

end Sys2Proof.Machine
end

