-- ==== Sys2Proof/Laws/KeepsCan.lean ====
section
/-!
SUPPORT. Sys2Proof/Laws/KeepsCan.lean: the operations of Machine/Can.lean keep what `Keeps` names.
-/
namespace Sys2Proof.Machine

theorem modCtl_keeps {R : Part → Prop} {b₀ : State} (s : State) (x : Nat) (f : CanCtl → CanCtl) (h_R : Allows R [.can]) (h_s : Keeps R b₀ s) : Keeps R b₀ (modCtl s x f) := by
  unfold modCtl
  have r_can : R .can := h_R _ (by decide)
  repeat' first
    | with_reducible assumption
    | with_reducible apply Keeps.ite
    | extract_lets
    | fail_if_no_progress (with_reducible refine Keeps.put_can r_can ?_)

theorem modBuf_keeps {R : Part → Prop} {b₀ : State} (s : State) (x b : Nat) (f : CanBuf → CanBuf) (h_R : Allows R [.can]) (h_s : Keeps R b₀ s) : Keeps R b₀ (modBuf s x b f) := by
  unfold modBuf
  repeat' first
    | with_reducible assumption
    | with_reducible apply modCtl_keeps

theorem setFifo_keeps {R : Part → Prop} {b₀ : State} (s : State) (x f : Nat) (q : CanFifo) (h_R : Allows R [.regs, .can]) (h_s : Keeps R b₀ s) : Keeps R b₀ (setFifo s x f q) := by
  unfold setFifo
  repeat' first
    | with_reducible assumption
    | (refine Allows.sub h_R ?_; decide)
    | with_reducible apply modCtl_keeps
    | with_reducible apply setF_keeps

theorem setTx_keeps {R : Part → Prop} {b₀ : State} (s : State) (x b st : Nat) (h_R : Allows R [.regs]) (h_s : Keeps R b₀ s) : Keeps R b₀ (setTx s x b st) := by
  unfold setTx
  repeat' first
    | with_reducible assumption
    | with_reducible apply setF_keeps
    | with_reducible apply Keeps.ite

theorem canIrq_keeps {R : Part → Prop} {b₀ : State} (s : State) (x k : Nat) (h_R : Allows R [.regs, .hif]) (h_s : Keeps R b₀ s) : Keeps R b₀ (canIrq s x k) := by
  unfold canIrq
  repeat' first
    | with_reducible assumption
    | with_reducible apply raiseIrq_keeps

theorem showCan_keeps {R : Part → Prop} {b₀ : State} (s : State) (x : Nat) (h_R : Allows R [.regs]) (h_s : Keeps R b₀ s) : Keeps R b₀ (showCan s x) := by
  unfold showCan
  repeat' first
    | with_reducible assumption
    | with_reducible apply setB_keeps
    | with_reducible apply Keeps.foldl
    | intro _ _ _

theorem offer_keeps {R : Part → Prop} {b₀ : State} (s : State) (x : Nat) (h_R : Allows R [.regs, .can]) (h_s : Keeps R b₀ s) : Keeps R b₀ (offer s x) := by
  unfold offer
  repeat' first
    | with_reducible assumption
    | (refine Allows.sub h_R ?_; decide)
    | with_reducible apply setTx_keeps
    | with_reducible apply modCtl_keeps
    | with_reducible apply Keeps.ite
    | extract_lets
    | split

theorem endTx_keeps {R : Part → Prop} {b₀ : State} (s : State) (x b st : Nat) (h_R : Allows R [.regs, .can]) (h_s : Keeps R b₀ s) : Keeps R b₀ (endTx s x b st) := by
  unfold endTx
  repeat' first
    | with_reducible assumption
    | (refine Allows.sub h_R ?_; decide)
    | with_reducible apply setTx_keeps
    | with_reducible apply modBuf_keeps

theorem slotMissed_keeps {R : Part → Prop} {b₀ : State} (s : State) (x e : Nat) (h_R : Allows R [.regs, .tables, .hif, .recd, .can]) (h_s : Keeps R b₀ s) : Keeps R b₀ (slotMissed s x e) := by
  unfold slotMissed
  have r_can : R .can := h_R _ (by decide)
  repeat' first
    | with_reducible assumption
    | (refine Allows.sub h_R ?_; decide)
    | with_reducible apply canIrq_keeps
    | with_reducible apply tsetNat_keeps
    | with_reducible apply record_keeps
    | with_reducible apply bump_keeps
    | with_reducible apply Keeps.ite
    | extract_lets
    | fail_if_no_progress (with_reducible refine Keeps.put_can r_can ?_)

theorem goLate_keeps {R : Part → Prop} {b₀ : State} (s : State) (x b : Nat) (h_R : Allows R [.regs, .can]) (h_s : Keeps R b₀ s) : Keeps R b₀ (goLate s x b) := by
  unfold goLate
  repeat' first
    | with_reducible assumption
    | (refine Allows.sub h_R ?_; decide)
    | with_reducible apply endTx_keeps
    | with_reducible apply bump_keeps

theorem attemptFailed_keeps {R : Part → Prop} {b₀ : State} (s : State) (x b t : Nat) (ack : Bool) (h_R : Allows R [.regs, .tables, .hif, .recd, .can]) (h_s : Keeps R b₀ s) : Keeps R b₀ (attemptFailed s x b t ack) := by
  unfold attemptFailed
  repeat' first
    | with_reducible assumption
    | (refine Allows.sub h_R ?_; decide)
    | with_reducible apply goLate_keeps
    | with_reducible apply slotMissed_keeps
    | with_reducible apply endTx_keeps
    | with_reducible apply setTx_keeps
    | with_reducible apply modBuf_keeps
    | with_reducible apply setF_keeps
    | with_reducible apply Keeps.ite
    | extract_lets
    | split

theorem attemptDone_keeps {R : Part → Prop} {b₀ : State} (s : State) (x b sof : Nat) (h_R : Allows R [.regs, .tables, .hif, .can, .free]) (h_s : Keeps R b₀ s) : Keeps R b₀ (attemptDone s x b sof) := by
  unfold attemptDone
  have r_can : R .can := h_R _ (by decide)
  repeat' first
    | with_reducible assumption
    | (refine Allows.sub h_R ?_; decide)
    | with_reducible apply endTx_keeps
    | with_reducible apply canIrq_keeps
    | with_reducible apply modBuf_keeps
    | with_reducible apply tsetNat_keeps
    | with_reducible apply fresh_keeps
    | with_reducible apply bump_keeps
    | (refine fresh_keeps_eq ‹_› ?_ ?_)
    | with_reducible apply Keeps.ite
    | extract_lets
    | fail_if_no_progress (with_reducible refine Keeps.put_can r_can ?_)
    | split

theorem showErr_keeps {R : Part → Prop} {b₀ : State} (s : State) (x : Nat) (h_R : Allows R [.regs]) (h_s : Keeps R b₀ s) : Keeps R b₀ (showErr s x) := by
  unfold showErr
  repeat' first
    | with_reducible assumption
    | with_reducible apply setB_keeps
    | with_reducible apply setF_keeps

theorem markBoff_keeps {R : Part → Prop} {b₀ : State} (s : State) (x : Nat) (h_R : Allows R [.regs]) (h_s : Keeps R b₀ s) : Keeps R b₀ (markBoff s x) := by
  unfold markBoff
  repeat' first
    | with_reducible assumption
    | with_reducible apply setB_keeps
    | with_reducible apply Keeps.foldl
    | intro _ _ _
    | with_reducible apply Keeps.ite

theorem withdrawActive_keeps {R : Part → Prop} {b₀ : State} (s : State) (x : Nat) (h_R : Allows R [.regs, .can]) (h_s : Keeps R b₀ s) : Keeps R b₀ (withdrawActive s x) := by
  unfold withdrawActive
  repeat' first
    | with_reducible assumption
    | (refine Allows.sub h_R ?_; decide)
    | with_reducible apply endTx_keeps
    | with_reducible apply setTx_keeps
    | with_reducible apply modCtl_keeps
    | with_reducible apply Keeps.ite
    | extract_lets
    | split

theorem errState_keeps {R : Part → Prop} {b₀ : State} (s : State) (x t : Nat) (h_R : Allows R [.regs, .hif, .recd, .can]) (h_s : Keeps R b₀ s) : Keeps R b₀ (errState s x t) := by
  unfold errState
  repeat' first
    | with_reducible assumption
    | (refine Allows.sub h_R ?_; decide)
    | with_reducible apply withdrawActive_keeps
    | with_reducible apply markBoff_keeps
    | with_reducible apply showErr_keeps
    | with_reducible apply canIrq_keeps
    | with_reducible apply modCtl_keeps
    | with_reducible apply record_keeps
    | with_reducible apply bump_keeps
    | with_reducible apply setF_keeps
    | with_reducible apply Keeps.ite

theorem canError_keeps {R : Part → Prop} {b₀ : State} (s : State) (x t lec : Nat) (tx dom exempt : Bool) (h_R : Allows R [.regs, .hif, .recd, .can]) (h_s : Keeps R b₀ s) : Keeps R b₀ (canError s x t lec tx dom exempt) := by
  unfold canError
  repeat' first
    | with_reducible assumption
    | (refine Allows.sub h_R ?_; decide)
    | with_reducible apply errState_keeps
    | with_reducible apply modCtl_keeps
    | with_reducible apply bump_keeps
    | with_reducible apply setF_keeps
    | with_reducible apply Keeps.ite

theorem execCanError_keeps {R : Part → Prop} {b₀ : State} (x t lec : Nat) (tx dom exempt : Bool) (s : State) (h_R : Allows R [.regs, .hif, .recd, .can]) (h_s : Keeps R b₀ s) : OKeeps R b₀ (execCanError x t lec tx dom exempt s) := by
  unfold execCanError
  repeat' first
    | with_reducible assumption
    | with_reducible apply canError_keeps
    | with_reducible apply OKeeps.answer

theorem showTdcv_keeps {R : Part → Prop} {b₀ : State} (s : State) (x b tdcv : Nat) (h_R : Allows R [.regs]) (h_s : Keeps R b₀ s) : Keeps R b₀ (showTdcv s x b tdcv) := by
  unfold showTdcv
  repeat' first
    | with_reducible assumption
    | with_reducible apply setF_keeps
    | with_reducible apply Keeps.ite

theorem txEnd_keeps {R : Part → Prop} {b₀ : State} (s : State) (x t sof lec tdcv : Nat) (h_R : Allows R [.regs, .tables, .hif, .recd, .can, .free]) (h_s : Keeps R b₀ s) : Keeps R b₀ (txEnd s x t sof lec tdcv) := by
  unfold txEnd
  repeat' first
    | with_reducible assumption
    | (refine Allows.sub h_R ?_; decide)
    | with_reducible apply showTdcv_keeps
    | with_reducible apply errState_keeps
    | with_reducible apply attemptDone_keeps
    | with_reducible apply attemptFailed_keeps
    | with_reducible apply offer_keeps
    | with_reducible apply modCtl_keeps
    | with_reducible apply setF_keeps
    | with_reducible apply Keeps.ite
    | extract_lets
    | split

theorem execTxAttemptEnd_keeps {R : Part → Prop} {b₀ : State} (x t sof lec tdcv : Nat) (s : State) (h_R : Allows R [.regs, .tables, .hif, .recd, .can, .free]) (h_s : Keeps R b₀ s) : OKeeps R b₀ (execTxAttemptEnd x t sof lec tdcv s) := by
  unfold execTxAttemptEnd
  repeat' first
    | with_reducible assumption
    | with_reducible apply txEnd_keeps
    | with_reducible apply OKeeps.answer

theorem busSync_keeps {R : Part → Prop} {b₀ : State} (s : State) (x : Nat) (h_R : Allows R [.regs, .can]) (h_s : Keeps R b₀ s) : Keeps R b₀ (busSync s x) := by
  unfold busSync
  repeat' first
    | with_reducible assumption
    | (refine Allows.sub h_R ?_; decide)
    | with_reducible apply offer_keeps
    | with_reducible apply setF_keeps
    | with_reducible apply Keeps.ite

theorem execBusSync_keeps {R : Part → Prop} {b₀ : State} (x : Nat) (s : State) (h_R : Allows R [.regs, .can]) (h_s : Keeps R b₀ s) : OKeeps R b₀ (execBusSync x s) := by
  unfold execBusSync
  repeat' first
    | with_reducible assumption
    | with_reducible apply busSync_keeps
    | with_reducible apply OKeeps.answer

theorem boDelay_keeps {R : Part → Prop} {b₀ : State} (s : State) (x t : Nat) (h_R : Allows R [.regs]) (h_s : Keeps R b₀ s) : Keeps R b₀ (boDelay s x t) := by
  unfold boDelay
  repeat' first
    | with_reducible assumption
    | with_reducible apply setF_keeps
    | with_reducible apply Keeps.ite

theorem execBoDelayExpiry_keeps {R : Part → Prop} {b₀ : State} (x t : Nat) (s : State) (h_R : Allows R [.regs]) (h_s : Keeps R b₀ s) : OKeeps R b₀ (execBoDelayExpiry x t s) := by
  unfold execBoDelayExpiry
  repeat' first
    | with_reducible assumption
    | with_reducible apply boDelay_keeps
    | with_reducible apply OKeeps.answer

theorem recoveryDone_keeps {R : Part → Prop} {b₀ : State} (s : State) (x : Nat) (h_R : Allows R [.regs, .hif, .recd, .can]) (h_s : Keeps R b₀ s) : Keeps R b₀ (recoveryDone s x) := by
  unfold recoveryDone
  repeat' first
    | with_reducible assumption
    | (refine Allows.sub h_R ?_; decide)
    | with_reducible apply showErr_keeps
    | with_reducible apply offer_keeps
    | with_reducible apply canIrq_keeps
    | with_reducible apply modCtl_keeps
    | with_reducible apply record_keeps
    | with_reducible apply setF_keeps
    | with_reducible apply Keeps.ite

theorem execRecoveryDone_keeps {R : Part → Prop} {b₀ : State} (x : Nat) (s : State) (h_R : Allows R [.regs, .hif, .recd, .can]) (h_s : Keeps R b₀ s) : OKeeps R b₀ (execRecoveryDone x s) := by
  unfold execRecoveryDone
  repeat' first
    | with_reducible assumption
    | with_reducible apply recoveryDone_keeps
    | with_reducible apply OKeeps.answer

theorem storeElem_keeps {R : Part → Prop} {b₀ : State} (s : State) (x f : Nat) (e : CanElem) (h_R : Allows R [.regs, .hif, .can]) (h_s : Keeps R b₀ s) : Keeps R b₀ (storeElem s x f e) := by
  unfold storeElem
  repeat' first
    | with_reducible assumption
    | (refine Allows.sub h_R ?_; decide)
    | with_reducible apply canIrq_keeps
    | with_reducible apply setFifo_keeps
    | with_reducible apply bump_keeps
    | with_reducible apply Keeps.ite

theorem canRestart_keeps {R : Part → Prop} {b₀ : State} (s : State) (h_R : Allows R [.regs, .can]) (h_s : Keeps R b₀ s) : Keeps R b₀ (canRestart s) := by
  unfold canRestart
  repeat' first
    | with_reducible assumption
    | with_reducible apply setFifo_keeps
    | with_reducible apply Keeps.foldl
    | intro _ _ _
    | with_reducible apply Keeps.ite

theorem isoMessage_keeps {R : Part → Prop} {b₀ : State} (s : State) (f : CanFrame) (h_R : Allows R [.kin]) (h_s : Keeps R b₀ s) : Keeps R b₀ (isoMessage s f) := by
  unfold isoMessage
  have r_kin : R .kin := h_R _ (by decide)
  repeat' first
    | with_reducible assumption
    | with_reducible apply Keeps.ite
    | extract_lets
    | fail_if_no_progress (with_reducible refine Keeps.put_kin r_kin ?_)

theorem recvDown_keeps {R : Part → Prop} {b₀ : State} (s : State) (x : Nat) (h_R : Allows R [.can, .free]) (h_s : Keeps R b₀ s) : Keeps R b₀ (recvDown s x) := by
  unfold recvDown
  repeat' first
    | with_reducible assumption
    | (refine Allows.sub h_R ?_; decide)
    | with_reducible apply modCtl_keeps
    | with_reducible apply fresh_keeps
    | (refine fresh_keeps_eq ‹_› ?_ ?_)
    | with_reducible apply Keeps.ite

theorem filterFrame_keeps {R : Part → Prop} {b₀ : State} (s : State) (x t : Nat) (f : CanFrame) (h_R : Allows R [.regs, .hif, .can]) (h_s : Keeps R b₀ s) : Keeps R b₀ (filterFrame s x t f) := by
  unfold filterFrame
  repeat' first
    | with_reducible assumption
    | (refine Allows.sub h_R ?_; decide)
    | with_reducible apply storeElem_keeps
    | with_reducible apply bump_keeps
    | with_reducible apply Keeps.foldl
    | intro _ _ _
    | with_reducible apply Keeps.ite

theorem canRx_keeps {R : Part → Prop} {b₀ : State} (s : State) (x t : Nat) (f : CanFrame) (lost : Bool) (h_R : Allows R [.regs, .kin, .hif, .recd, .can, .free]) (h_s : Keeps R b₀ s) : Keeps R b₀ (canRx s x t f lost) := by
  unfold canRx
  repeat' first
    | with_reducible assumption
    | (refine Allows.sub h_R ?_; decide)
    | with_reducible apply filterFrame_keeps
    | with_reducible apply recvDown_keeps
    | with_reducible apply isoMessage_keeps
    | with_reducible apply canError_keeps
    | with_reducible apply errState_keeps
    | with_reducible apply withdrawActive_keeps
    | with_reducible apply offer_keeps
    | with_reducible apply bump_keeps
    | with_reducible apply Keeps.ite

theorem execCanFrameRx_keeps {R : Part → Prop} {b₀ : State} (x t : Nat) (f : CanFrame) (lost : Bool) (s : State) (h_R : Allows R [.regs, .kin, .hif, .recd, .can, .free]) (h_s : Keeps R b₀ s) : OKeeps R b₀ (execCanFrameRx x t f lost s) := by
  unfold execCanFrameRx
  repeat' first
    | with_reducible assumption
    | with_reducible apply canRx_keeps
    | with_reducible apply OKeeps.answer

theorem atTime_keeps {R : Part → Prop} {b₀ : State} (s : State) (x b t : Nat) (h_R : Allows R [.regs, .can]) (h_s : Keeps R b₀ s) : Keeps R b₀ (atTime s x b t) := by
  unfold atTime
  repeat' first
    | with_reducible assumption
    | (refine Allows.sub h_R ?_; decide)
    | with_reducible apply offer_keeps
    | with_reducible apply modBuf_keeps
    | with_reducible apply Keeps.ite

theorem execTransmitAtTime_keeps {R : Part → Prop} {b₀ : State} (x b t : Nat) (s : State) (h_R : Allows R [.regs, .can]) (h_s : Keeps R b₀ s) : OKeeps R b₀ (execTransmitAtTime x b t s) := by
  unfold execTransmitAtTime
  repeat' first
    | with_reducible assumption
    | with_reducible apply atTime_keeps
    | with_reducible apply OKeeps.answer

theorem lateExpiry_keeps {R : Part → Prop} {b₀ : State} (s : State) (x b t : Nat) (h_R : Allows R [.regs, .can]) (h_s : Keeps R b₀ s) : Keeps R b₀ (lateExpiry s x b t) := by
  unfold lateExpiry
  repeat' first
    | with_reducible assumption
    | with_reducible apply goLate_keeps
    | with_reducible apply Keeps.ite

theorem execLateWinExpiry_keeps {R : Part → Prop} {b₀ : State} (x b t : Nat) (s : State) (h_R : Allows R [.regs, .can]) (h_s : Keeps R b₀ s) : OKeeps R b₀ (execLateWinExpiry x b t s) := by
  unfold execLateWinExpiry
  repeat' first
    | with_reducible assumption
    | with_reducible apply lateExpiry_keeps
    | with_reducible apply OKeeps.answer

theorem ttSlot_keeps {R : Part → Prop} {b₀ : State} (s : State) (r c t : Nat) (h_R : Allows R [.regs, .tables, .can, .free]) (h_s : Keeps R b₀ s) : Keeps R b₀ (ttSlot s r c t) := by
  unfold ttSlot
  repeat' first
    | with_reducible assumption
    | (refine Allows.sub h_R ?_; decide)
    | with_reducible apply markBoff_keeps
    | with_reducible apply offer_keeps
    | with_reducible apply setTx_keeps
    | with_reducible apply modBuf_keeps
    | with_reducible apply tsetNat_keeps
    | with_reducible apply fresh_keeps
    | (refine fresh_keeps_eq ‹_› ?_ ?_)
    | with_reducible apply Keeps.ite

theorem execTtSlot_keeps {R : Part → Prop} {b₀ : State} (r c t : Nat) (s : State) (h_R : Allows R [.regs, .tables, .can, .free]) (h_s : Keeps R b₀ s) : OKeeps R b₀ (execTtSlot r c t s) := by
  unfold execTtSlot
  repeat' first
    | with_reducible assumption
    | with_reducible apply ttSlot_keeps
    | with_reducible apply OKeeps.answer

theorem ttWindow_keeps {R : Part → Prop} {b₀ : State} (s : State) (r c t : Nat) (h_R : Allows R [.regs, .tables, .hif, .recd, .can]) (h_s : Keeps R b₀ s) : Keeps R b₀ (ttWindow s r c t) := by
  unfold ttWindow
  repeat' first
    | with_reducible assumption
    | (refine Allows.sub h_R ?_; decide)
    | with_reducible apply slotMissed_keeps
    | with_reducible apply endTx_keeps
    | with_reducible apply modBuf_keeps
    | with_reducible apply Keeps.ite
    | extract_lets
    | split

theorem execTtWindowExpiry_keeps {R : Part → Prop} {b₀ : State} (r c t : Nat) (s : State) (h_R : Allows R [.regs, .tables, .hif, .recd, .can]) (h_s : Keeps R b₀ s) : OKeeps R b₀ (execTtWindowExpiry r c t s) := by
  unfold execTtWindowExpiry
  repeat' first
    | with_reducible assumption
    | with_reducible apply ttWindow_keeps
    | with_reducible apply OKeeps.answer

theorem canBoundary_keeps {R : Part → Prop} {b₀ : State} (s : State) (h_R : Allows R [.tables]) (h_s : Keeps R b₀ s) : Keeps R b₀ (canBoundary s) := by
  unfold canBoundary
  repeat' first
    | with_reducible assumption
    | with_reducible apply tsetNat_keeps
    | with_reducible apply Keeps.foldl
    | intro _ _ _
    | with_reducible apply Keeps.ite

theorem refuse_keeps {R : Part → Prop} {b₀ : State} (s : State) (st : Nat) (h_R : Allows R []) (h_s : Keeps R b₀ s) : RKeeps R b₀ (refuse s st) := by
  unfold refuse
  repeat' first
    | with_reducible assumption
    | with_reducible apply RKeeps.state
    | extract_lets
    | split
    | intro _
    | fail_if_no_progress beta_reduce
    | dsimp +zetaDelta only
    | with_reducible apply RKeeps.mk

theorem loadBuf_keeps {R : Part → Prop} {b₀ : State} (s : State) (x h b : Nat) (i : List Byte) (h_R : Allows R [.regs, .can, .free]) (h_s : Keeps R b₀ s) : Keeps R b₀ (loadBuf s x h b i) := by
  unfold loadBuf
  repeat' first
    | with_reducible assumption
    | (refine Allows.sub h_R ?_; decide)
    | with_reducible apply markBoff_keeps
    | with_reducible apply goLate_keeps
    | with_reducible apply setTx_keeps
    | with_reducible apply modBuf_keeps
    | with_reducible apply fresh_keeps
    | with_reducible apply setB_keeps
    | with_reducible apply setF_keeps
    | (refine fresh_keeps_eq ‹_› ?_ ?_)
    | with_reducible apply Keeps.ite

theorem canSend_keeps {R : Part → Prop} {b₀ : State} (s : State) (h : Nat) (p : List Byte) (h_R : Allows R [.regs, .can, .free]) (h_s : Keeps R b₀ s) : RKeeps R b₀ (canSend s h p) := by
  unfold canSend
  repeat' first
    | with_reducible assumption
    | (refine Allows.sub h_R ?_; decide)
    | with_reducible apply loadBuf_keeps
    | with_reducible apply refuse_keeps
    | with_reducible apply offer_keeps
    | with_reducible apply RKeeps.state
    | with_reducible apply Keeps.foldl
    | intro _ _ _
    | extract_lets
    | split
    | intro _
    | fail_if_no_progress beta_reduce
    | dsimp +zetaDelta only
    | with_reducible apply RKeeps.mk

theorem canRecv_keeps {R : Part → Prop} {b₀ : State} (s : State) (h : Nat) (p : List Byte) (h_R : Allows R [.regs, .can]) (h_s : Keeps R b₀ s) : RKeeps R b₀ (canRecv s h p) := by
  unfold canRecv
  repeat' first
    | with_reducible assumption
    | (refine Allows.sub h_R ?_; decide)
    | with_reducible apply refuse_keeps
    | with_reducible apply setFifo_keeps
    | with_reducible apply RKeeps.state
    | extract_lets
    | split
    | intro _
    | fail_if_no_progress beta_reduce
    | dsimp +zetaDelta only
    | with_reducible apply RKeeps.mk

theorem canAbort_keeps {R : Part → Prop} {b₀ : State} (s : State) (h : Nat) (p : List Byte) (h_R : Allows R [.regs, .can]) (h_s : Keeps R b₀ s) : RKeeps R b₀ (canAbort s h p) := by
  unfold canAbort
  repeat' first
    | with_reducible assumption
    | (refine Allows.sub h_R ?_; decide)
    | with_reducible apply refuse_keeps
    | with_reducible apply endTx_keeps
    | with_reducible apply modBuf_keeps
    | with_reducible apply RKeeps.state
    | with_reducible apply Keeps.foldl
    | intro _ _ _
    | extract_lets
    | split
    | intro _
    | fail_if_no_progress beta_reduce
    | dsimp +zetaDelta only
    | with_reducible apply RKeeps.mk

theorem addressClaimed_keeps {R : Part → Prop} {b₀ : State} (s : State) (sa : Nat) (h_R : Allows R [.regs]) (h_s : Keeps R b₀ s) : Keeps R b₀ (addressClaimed s sa) := by
  unfold addressClaimed
  repeat' first
    | with_reducible assumption
    | with_reducible apply setB_keeps
    | with_reducible apply setF_keeps
    | with_reducible apply Keeps.ite

theorem execAddressClaimed_keeps {R : Part → Prop} {b₀ : State} (sa : Nat) (s : State) (h_R : Allows R [.regs]) (h_s : Keeps R b₀ s) : OKeeps R b₀ (execAddressClaimed sa s) := by
  unfold execAddressClaimed
  repeat' first
    | with_reducible assumption
    | with_reducible apply addressClaimed_keeps
    | with_reducible apply OKeeps.answer

theorem addressLost_keeps {R : Part → Prop} {b₀ : State} (s : State) (h_R : Allows R [.regs, .recd]) (h_s : Keeps R b₀ s) : Keeps R b₀ (addressLost s) := by
  unfold addressLost
  repeat' first
    | with_reducible assumption
    | (refine Allows.sub h_R ?_; decide)
    | with_reducible apply record_keeps
    | with_reducible apply setB_keeps
    | with_reducible apply setF_keeps
    | with_reducible apply Keeps.ite

theorem execAddressLost_keeps {R : Part → Prop} {b₀ : State} (s : State) (h_R : Allows R [.regs, .recd]) (h_s : Keeps R b₀ s) : OKeeps R b₀ (execAddressLost s) := by
  unfold execAddressLost
  repeat' first
    | with_reducible assumption
    | with_reducible apply addressLost_keeps
    | with_reducible apply OKeeps.answer
    | with_reducible apply OKeeps.next

theorem canHold_keeps {R : Part → Prop} {b₀ : State} (s : State) (h_R : Allows R [.regs, .can]) (h_s : Keeps R b₀ s) : Keeps R b₀ (canHold s) := by
  unfold canHold
  repeat' first
    | with_reducible assumption
    | (refine Allows.sub h_R ?_; decide)
    | with_reducible apply endTx_keeps
    | with_reducible apply modBuf_keeps
    | with_reducible apply Keeps.foldl
    | intro _ _ _
    | with_reducible apply Keeps.ite

theorem canEnable_keeps {R : Part → Prop} {b₀ : State} (s : State) (x : Nat) (was : Bool) (h_R : Allows R [.regs, .can]) (h_s : Keeps R b₀ s) : Keeps R b₀ (canEnable s x was) := by
  unfold canEnable
  repeat' first
    | with_reducible assumption
    | (refine Allows.sub h_R ?_; decide)
    | with_reducible apply showErr_keeps
    | with_reducible apply showCan_keeps
    | with_reducible apply setTx_keeps
    | with_reducible apply modBuf_keeps
    | with_reducible apply modCtl_keeps
    | with_reducible apply setB_keeps
    | with_reducible apply setF_keeps
    | with_reducible apply Keeps.foldl
    | intro _ _ _
    | with_reducible apply Keeps.ite

theorem canRecover_keeps {R : Part → Prop} {b₀ : State} (s : State) (x : Nat) (h_R : Allows R [.regs]) (h_s : Keeps R b₀ s) : Keeps R b₀ (canRecover s x) := by
  unfold canRecover
  repeat' first
    | with_reducible assumption
    | with_reducible apply setF_keeps
    | with_reducible apply Keeps.ite

theorem canEffect_keeps {R : Part → Prop} {b₀ : State} (s : State) (i : Nat) (old : Word) (h_R : Allows R [.regs, .can]) (h_s : Keeps R b₀ s) : Keeps R b₀ (canEffect s i old) := by
  unfold canEffect
  repeat' first
    | with_reducible assumption
    | (refine Allows.sub h_R ?_; decide)
    | with_reducible apply canRecover_keeps
    | with_reducible apply canEnable_keeps
    | with_reducible apply setF_keeps
    | with_reducible apply Keeps.ite

theorem ttmEffect_keeps {R : Part → Prop} {b₀ : State} (s : State) (h_R : Allows R [.regs]) (h_s : Keeps R b₀ s) : Keeps R b₀ (ttmEffect s) := by
  unfold ttmEffect
  repeat' first
    | with_reducible assumption
    | with_reducible apply showCan_keeps
    | with_reducible apply Keeps.foldl
    | intro _ _ _

theorem canReset_keeps {R : Part → Prop} {b₀ : State} (s : State) (x : Nat) (h_R : Allows R [.regs, .tables, .can]) (h_s : Keeps R b₀ s) : Keeps R b₀ (canReset s x) := by
  unfold canReset
  have r_can : R .can := h_R _ (by decide)
  repeat' first
    | with_reducible assumption
    | (refine Allows.sub h_R ?_; decide)
    | with_reducible apply tput_keeps
    | with_reducible apply resetRegs_keeps
    | with_reducible apply Keeps.foldl
    | intro _ _ _
    | with_reducible apply Keeps.ite
    | extract_lets
    | fail_if_no_progress (with_reducible refine Keeps.put_can r_can ?_)

end Sys2Proof.Machine
end

