-- ==== Sys2Proof/Laws/KeepsRec.lean ====
section
/-!
SUPPORT. Sys2Proof/Laws/KeepsRec.lean: the operations of Machine/Rec.lean keep what `Keeps` names.
-/
namespace Sys2Proof.Machine

theorem modRec_keeps {R : Part → Prop} {b₀ : State} (s : State) (f : RecState → RecState) (h_R : Allows R [.recd]) (h_s : Keeps R b₀ s) : Keeps R b₀ (modRec s f) := by
  unfold modRec
  have r_recd : R .recd := h_R _ (by decide)
  repeat' first
    | with_reducible assumption
    | with_reducible apply Keeps.ite
    | extract_lets
    | fail_if_no_progress (with_reducible refine Keeps.put_recd r_recd ?_)

theorem recordWritten_keeps {R : Part → Prop} {b₀ : State} (s : State) (h_R : Allows R [.regs, .recd]) (h_s : Keeps R b₀ s) : Keeps R b₀ (recordWritten s) := by
  unfold recordWritten
  repeat' first
    | with_reducible assumption
    | (refine Allows.sub h_R ?_; decide)
    | with_reducible apply modRec_keeps
    | with_reducible apply recTake_keeps
    | with_reducible apply bump_keeps
    | with_reducible apply Keeps.ite
    | extract_lets
    | split

theorem execRecordWritten_keeps {R : Part → Prop} {b₀ : State} (s : State) (h_R : Allows R [.regs, .recd]) (h_s : Keeps R b₀ s) : OKeeps R b₀ (execRecordWritten s) := by
  unfold execRecordWritten
  repeat' first
    | with_reducible assumption
    | with_reducible apply recordWritten_keeps
    | with_reducible apply OKeeps.answer
    | with_reducible apply OKeeps.next

theorem searchDone_keeps {R : Part → Prop} {b₀ : State} (s : State) (h_R : Allows R [.regs, .recd]) (h_s : Keeps R b₀ s) : Keeps R b₀ (searchDone s) := by
  unfold searchDone
  repeat' first
    | with_reducible assumption
    | (refine Allows.sub h_R ?_; decide)
    | with_reducible apply modRec_keeps
    | with_reducible apply bump_keeps
    | with_reducible apply Keeps.ite

theorem execNextSearchDone_keeps {R : Part → Prop} {b₀ : State} (s : State) (h_R : Allows R [.regs, .recd]) (h_s : Keeps R b₀ s) : OKeeps R b₀ (execNextSearchDone s) := by
  unfold execNextSearchDone
  repeat' first
    | with_reducible assumption
    | with_reducible apply searchDone_keeps
    | with_reducible apply OKeeps.answer
    | with_reducible apply OKeeps.next

theorem freezeLog_keeps {R : Part → Prop} {b₀ : State} (s : State) (p : Nat) (h_R : Allows R [.recd]) (h_s : Keeps R b₀ s) : Keeps R b₀ (freezeLog s p) := by
  unfold freezeLog
  repeat' first
    | with_reducible assumption
    | with_reducible apply modRec_keeps

theorem endFreeze_keeps {R : Part → Prop} {b₀ : State} (s : State) (h_R : Allows R [.regs, .recd]) (h_s : Keeps R b₀ s) : Keeps R b₀ (endFreeze s) := by
  unfold endFreeze
  repeat' first
    | with_reducible assumption
    | (refine Allows.sub h_R ?_; decide)
    | with_reducible apply modRec_keeps
    | with_reducible apply recTake_keeps
    | with_reducible apply Keeps.ite

theorem freezeTimeout_keeps {R : Part → Prop} {b₀ : State} (s : State) (t : Nat) (h_R : Allows R [.regs, .recd]) (h_s : Keeps R b₀ s) : Keeps R b₀ (freezeTimeout s t) := by
  unfold freezeTimeout
  repeat' first
    | with_reducible assumption
    | with_reducible apply endFreeze_keeps
    | with_reducible apply record_keeps
    | with_reducible apply Keeps.ite
    | extract_lets
    | split

theorem execFreezeTmo_keeps {R : Part → Prop} {b₀ : State} (t : Nat) (s : State) (h_R : Allows R [.regs, .recd]) (h_s : Keeps R b₀ s) : OKeeps R b₀ (execFreezeTmo t s) := by
  unfold execFreezeTmo
  repeat' first
    | with_reducible assumption
    | with_reducible apply freezeTimeout_keeps
    | with_reducible apply OKeeps.answer

theorem releaseFreeze_keeps {R : Part → Prop} {b₀ : State} (s : State) (p : Nat) (h_R : Allows R [.regs, .recd]) (h_s : Keeps R b₀ s) : Keeps R b₀ (releaseFreeze s p) := by
  unfold releaseFreeze
  repeat' first
    | with_reducible assumption
    | with_reducible apply endFreeze_keeps
    | with_reducible apply Keeps.ite

theorem opsecSave_keeps {R : Part → Prop} {b₀ : State} (s : State) (h_R : Allows R [.regs, .recd]) (h_s : Keeps R b₀ s) : Keeps R b₀ (opsecSave s) := by
  unfold opsecSave
  repeat' first
    | with_reducible assumption
    | (refine Allows.sub h_R ?_; decide)
    | with_reducible apply modRec_keeps
    | with_reducible apply bump_keeps

theorem execOpsecSave_keeps {R : Part → Prop} {b₀ : State} (s : State) (h_R : Allows R [.regs, .recd]) (h_s : Keeps R b₀ s) : OKeeps R b₀ (execOpsecSave s) := by
  unfold execOpsecSave
  repeat' first
    | with_reducible assumption
    | with_reducible apply opsecSave_keeps
    | with_reducible apply OKeeps.answer
    | with_reducible apply OKeeps.next

theorem recPowerUp_keeps {R : Part → Prop} {b₀ : State} (s : State) (old : RecState) (t : Nat) (h_R : Allows R [.regs, .recd, .free]) (h_s : Keeps R b₀ s) : Keeps R b₀ (recPowerUp s old t) := by
  unfold recPowerUp
  have r_recd : R .recd := h_R _ (by decide)
  repeat' first
    | with_reducible assumption
    | (refine Allows.sub h_R ?_; decide)
    | with_reducible apply fresh_keeps
    | with_reducible apply setF_keeps
    | with_reducible apply wr_keeps
    | (refine fresh_keeps_eq ‹_› ?_ ?_)
    | with_reducible apply Keeps.ite
    | extract_lets
    | fail_if_no_progress (with_reducible refine Keeps.put_recd r_recd ?_)

theorem authFail_keeps {R : Part → Prop} {b₀ : State} (s : State) (h : Nat) (h_R : Allows R [.regs, .recd]) (h_s : Keeps R b₀ s) : Keeps R b₀ (authFail s h) := by
  unfold authFail
  repeat' first
    | with_reducible assumption
    | (refine Allows.sub h_R ?_; decide)
    | with_reducible apply modRec_keeps
    | with_reducible apply record_keeps
    | with_reducible apply bump_keeps
    | with_reducible apply Keeps.ite

theorem lockoutEnd_keeps {R : Part → Prop} {b₀ : State} (s : State) (t : Nat) (h_R : Allows R [.recd]) (h_s : Keeps R b₀ s) : Keeps R b₀ (lockoutEnd s t) := by
  unfold lockoutEnd
  repeat' first
    | with_reducible assumption
    | with_reducible apply modRec_keeps
    | with_reducible apply Keeps.ite

theorem execLockoutEnd_keeps {R : Part → Prop} {b₀ : State} (t : Nat) (s : State) (h_R : Allows R [.recd]) (h_s : Keeps R b₀ s) : OKeeps R b₀ (execLockoutEnd t s) := by
  unfold execLockoutEnd
  repeat' first
    | with_reducible assumption
    | with_reducible apply lockoutEnd_keeps
    | with_reducible apply OKeeps.answer

theorem nonceExpiry_keeps {R : Part → Prop} {b₀ : State} (s : State) (t : Nat) (h_R : Allows R [.recd]) (h_s : Keeps R b₀ s) : Keeps R b₀ (nonceExpiry s t) := by
  unfold nonceExpiry
  repeat' first
    | with_reducible assumption
    | with_reducible apply modRec_keeps
    | with_reducible apply Keeps.ite

theorem execNonceExpiry_keeps {R : Part → Prop} {b₀ : State} (t : Nat) (s : State) (h_R : Allows R [.recd]) (h_s : Keeps R b₀ s) : OKeeps R b₀ (execNonceExpiry t s) := by
  unfold execNonceExpiry
  repeat' first
    | with_reducible assumption
    | with_reducible apply nonceExpiry_keeps
    | with_reducible apply OKeeps.answer

theorem startClearLog_keeps {R : Part → Prop} {b₀ : State} (s : State) (h : Nat) (h_R : Allows R [.recd]) (h_s : Keeps R b₀ s) : Keeps R b₀ (startClearLog s h) := by
  unfold startClearLog
  repeat' first
    | with_reducible assumption
    | with_reducible apply modRec_keeps

theorem finishClear_keeps {R : Part → Prop} {b₀ : State} (s : State) (c : RecClear) (h_R : Allows R [.regs, .recd]) (h_s : Keeps R b₀ s) : Keeps R b₀ (finishClear s c) := by
  unfold finishClear
  repeat' first
    | with_reducible assumption
    | (refine Allows.sub h_R ?_; decide)
    | with_reducible apply modRec_keeps
    | with_reducible apply recTake_keeps

end Sys2Proof.Machine
end

