-- ==== Sys2Proof/Laws/KeepsMon.lean ====
section
/-!
SUPPORT. Sys2Proof/Laws/KeepsMon.lean: the operations of Machine/Mon.lean keep what `Keeps` names.
-/
namespace Sys2Proof.Machine

theorem modMon_keeps {R : Part → Prop} {b₀ : State} (s : State) (f : MonState → MonState) (h_R : Allows R [.mon]) (h_s : Keeps R b₀ s) : Keeps R b₀ (modMon s f) := by
  unfold modMon
  have r_mon : R .mon := h_R _ (by decide)
  repeat' first
    | with_reducible assumption
    | with_reducible apply Keeps.ite
    | extract_lets
    | fail_if_no_progress (with_reducible refine Keeps.put_mon r_mon ?_)

theorem monFault_keeps {R : Part → Prop} {b₀ : State} (s : State) (f : Field) (h_R : Allows R [.regs, .hif]) (h_s : Keeps R b₀ s) : Keeps R b₀ (monFault s f) := by
  unfold monFault
  repeat' first
    | with_reducible assumption
    | (refine Allows.sub h_R ?_; decide)
    | with_reducible apply raiseIrq_keeps
    | with_reducible apply setB_keeps
    | with_reducible apply Keeps.ite

theorem takeSample_keeps {R : Part → Prop} {b₀ : State} (s : State) (m : Nat) (v : Int) (h_R : Allows R [.mon]) (h_s : Keeps R b₀ s) : Keeps R b₀ (takeSample s m v) := by
  unfold takeSample
  repeat' first
    | with_reducible assumption
    | with_reducible apply modMon_keeps

theorem showSample_keeps {R : Part → Prop} {b₀ : State} (s : State) (m : Nat) (h_R : Allows R [.regs, .mon]) (h_s : Keeps R b₀ s) : Keeps R b₀ (showSample s m) := by
  unfold showSample
  repeat' first
    | with_reducible assumption
    | (refine Allows.sub h_R ?_; decide)
    | with_reducible apply modMon_keeps
    | with_reducible apply setI_keeps
    | with_reducible apply setF_keeps
    | with_reducible apply Keeps.ite

theorem monRead_keeps {R : Part → Prop} {b₀ : State} (s : State) (i : Nat) (h_R : Allows R [.mon]) (h_s : Keeps R b₀ s) : Keeps R b₀ (monRead s i) := by
  unfold monRead
  repeat' first
    | with_reducible assumption
    | with_reducible apply modMon_keeps
    | with_reducible apply Keeps.ite

theorem countLimit_keeps {R : Part → Prop} {b₀ : State} (s : State) (k : Nat) (h_R : Allows R [.mon]) (h_s : Keeps R b₀ s) : Keeps R b₀ (countLimit s k) := by
  unfold countLimit
  repeat' first
    | with_reducible assumption
    | with_reducible apply modMon_keeps

theorem showLimits_keeps {R : Part → Prop} {b₀ : State} (s : State) (h_R : Allows R [.regs]) (h_s : Keeps R b₀ s) : Keeps R b₀ (showLimits s) := by
  unfold showLimits
  repeat' first
    | with_reducible assumption
    | with_reducible apply setB_keeps
    | with_reducible apply Keeps.foldl
    | intro _ _ _

theorem setReached_keeps {R : Part → Prop} {b₀ : State} (s : State) (k : Nat) (b : Bool) (h_R : Allows R [.regs, .mon]) (h_s : Keeps R b₀ s) : Keeps R b₀ (setReached s k b) := by
  unfold setReached
  repeat' first
    | with_reducible assumption
    | (refine Allows.sub h_R ?_; decide)
    | with_reducible apply showLimits_keeps
    | with_reducible apply modMon_keeps

theorem limitReached_keeps {R : Part → Prop} {b₀ : State} (s : State) (k : Nat) (h_R : Allows R [.regs, .mon, .hif, .recd]) (h_s : Keeps R b₀ s) : Keeps R b₀ (limitReached s k) := by
  unfold limitReached
  repeat' first
    | with_reducible assumption
    | (refine Allows.sub h_R ?_; decide)
    | with_reducible apply setReached_keeps
    | with_reducible apply monFault_keeps
    | with_reducible apply record_keeps
    | with_reducible apply Keeps.ite

theorem limitLeft_keeps {R : Part → Prop} {b₀ : State} (s : State) (k : Nat) (h_R : Allows R [.regs, .mon]) (h_s : Keeps R b₀ s) : Keeps R b₀ (limitLeft s k) := by
  unfold limitLeft
  repeat' first
    | with_reducible assumption
    | with_reducible apply setReached_keeps
    | with_reducible apply Keeps.ite

theorem execLimitReached_keeps {R : Part → Prop} {b₀ : State} (k : Nat) (s : State) (h_R : Allows R [.regs, .mon, .hif, .recd]) (h_s : Keeps R b₀ s) : OKeeps R b₀ (execLimitReached k s) := by
  unfold execLimitReached
  repeat' first
    | with_reducible assumption
    | with_reducible apply limitReached_keeps
    | with_reducible apply OKeeps.answer

theorem execLimitLeft_keeps {R : Part → Prop} {b₀ : State} (k : Nat) (s : State) (h_R : Allows R [.regs, .mon]) (h_s : Keeps R b₀ s) : OKeeps R b₀ (execLimitLeft k s) := by
  unfold execLimitLeft
  repeat' first
    | with_reducible assumption
    | with_reducible apply limitLeft_keeps
    | with_reducible apply OKeeps.answer

theorem monSample_keeps {R : Part → Prop} {b₀ : State} (s : State) (l : List Int) (h_R : Allows R [.regs, .mon, .hif, .recd]) (h_s : Keeps R b₀ s) : Keeps R b₀ (monSample s l) := by
  unfold monSample
  repeat' first
    | with_reducible assumption
    | (refine Allows.sub h_R ?_; decide)
    | with_reducible apply limitLeft_keeps
    | with_reducible apply limitReached_keeps
    | with_reducible apply countLimit_keeps
    | with_reducible apply showSample_keeps
    | with_reducible apply takeSample_keeps
    | with_reducible apply setI_keeps
    | with_reducible apply Keeps.foldl
    | intro _ _ _

theorem execMonSample_keeps {R : Part → Prop} {b₀ : State} (l : List Int) (s : State) (h_R : Allows R [.regs, .mon, .hif, .recd]) (h_s : Keeps R b₀ s) : OKeeps R b₀ (execMonSample l s) := by
  unfold execMonSample
  repeat' first
    | with_reducible assumption
    | with_reducible apply monSample_keeps
    | with_reducible apply OKeeps.answer
    | with_reducible apply OKeeps.next
    | extract_lets
    | split

theorem showRequest_keeps {R : Part → Prop} {b₀ : State} (s : State) (mv : Nat) (h_R : Allows R [.regs, .mon]) (h_s : Keeps R b₀ s) : Keeps R b₀ (showRequest s mv) := by
  unfold showRequest
  repeat' first
    | with_reducible assumption
    | (refine Allows.sub h_R ?_; decide)
    | with_reducible apply modMon_keeps
    | with_reducible apply setI_keeps
    | with_reducible apply setF_keeps

theorem avsRequest_keeps {R : Part → Prop} {b₀ : State} (s : State) (mv cause : Nat) (h_R : Allows R [.regs, .mon, .recd]) (h_s : Keeps R b₀ s) : Keeps R b₀ (avsRequest s mv cause) := by
  unfold avsRequest
  repeat' first
    | with_reducible assumption
    | (refine Allows.sub h_R ?_; decide)
    | with_reducible apply showRequest_keeps
    | with_reducible apply record_keeps
    | with_reducible apply bump_keeps
    | with_reducible apply setB_keeps
    | with_reducible apply Keeps.ite

theorem avsReadback_keeps {R : Part → Prop} {b₀ : State} (s : State) (answered : Bool) (mv : Nat) (h_R : Allows R [.regs, .mon, .hif, .recd]) (h_s : Keeps R b₀ s) : Keeps R b₀ (avsReadback s answered mv) := by
  unfold avsReadback
  repeat' first
    | with_reducible assumption
    | (refine Allows.sub h_R ?_; decide)
    | with_reducible apply monFault_keeps
    | with_reducible apply modMon_keeps
    | with_reducible apply record_keeps
    | with_reducible apply bump_keeps
    | with_reducible apply setB_keeps
    | with_reducible apply setF_keeps
    | with_reducible apply Keeps.ite

theorem execAvsReadback_keeps {R : Part → Prop} {b₀ : State} (answered : Bool) (mv : Nat) (s : State) (h_R : Allows R [.regs, .mon, .hif, .recd]) (h_s : Keeps R b₀ s) : OKeeps R b₀ (execAvsReadback answered mv s) := by
  unfold execAvsReadback
  repeat' first
    | with_reducible assumption
    | with_reducible apply avsReadback_keeps
    | with_reducible apply OKeeps.answer
    | with_reducible apply OKeeps.next

theorem vcoreOver_keeps {R : Part → Prop} {b₀ : State} (s : State) (v0 : Nat) (h_R : Allows R [.regs, .mon, .hif, .recd]) (h_s : Keeps R b₀ s) : Keeps R b₀ (vcoreOver s v0) := by
  unfold vcoreOver
  repeat' first
    | with_reducible assumption
    | (refine Allows.sub h_R ?_; decide)
    | with_reducible apply avsRequest_keeps
    | with_reducible apply monFault_keeps
    | with_reducible apply record_keeps
    | with_reducible apply setF_keeps
    | with_reducible apply Keeps.ite

theorem execVcoreOvervoltage_keeps {R : Part → Prop} {b₀ : State} (v0 : Nat) (s : State) (h_R : Allows R [.regs, .mon, .hif, .recd]) (h_s : Keeps R b₀ s) : OKeeps R b₀ (execVcoreOvervoltage v0 s) := by
  unfold execVcoreOvervoltage
  repeat' first
    | with_reducible assumption
    | with_reducible apply vcoreOver_keeps
    | with_reducible apply OKeeps.answer
    | with_reducible apply OKeeps.next

theorem lifeMin_keeps {R : Part → Prop} {b₀ : State} (s : State) (v : Nat) (h_R : Allows R [.regs, .mon]) (h_s : Keeps R b₀ s) : Keeps R b₀ (lifeMin s v) := by
  unfold lifeMin
  repeat' first
    | with_reducible assumption
    | (refine Allows.sub h_R ?_; decide)
    | with_reducible apply modMon_keeps
    | with_reducible apply setF_keeps
    | with_reducible apply Keeps.ite

theorem slackRun_keeps {R : Part → Prop} {b₀ : State} (s : State) (l : List Nat) (h_R : Allows R [.regs, .mon, .recd]) (h_s : Keeps R b₀ s) : Keeps R b₀ (slackRun s l) := by
  unfold slackRun
  repeat' first
    | with_reducible assumption
    | (refine Allows.sub h_R ?_; decide)
    | with_reducible apply lifeMin_keeps
    | with_reducible apply avsRequest_keeps
    | with_reducible apply modMon_keeps
    | with_reducible apply setF_keeps
    | with_reducible apply Keeps.foldl
    | intro _ _ _
    | with_reducible apply Keeps.ite

theorem execSlackRun_keeps {R : Part → Prop} {b₀ : State} (l : List Nat) (s : State) (h_R : Allows R [.regs, .mon, .recd]) (h_s : Keeps R b₀ s) : OKeeps R b₀ (execSlackRun l s) := by
  unfold execSlackRun
  repeat' first
    | with_reducible assumption
    | with_reducible apply slackRun_keeps
    | with_reducible apply OKeeps.answer
    | with_reducible apply OKeeps.next
    | extract_lets
    | split

theorem guardOrAlarm_keeps {R : Part → Prop} {b₀ : State} (s : State) (h_R : Allows R [.regs, .mon, .hif, .recd]) (h_s : Keeps R b₀ s) : Keeps R b₀ (guardOrAlarm s) := by
  unfold guardOrAlarm
  repeat' first
    | with_reducible assumption
    | (refine Allows.sub h_R ?_; decide)
    | with_reducible apply monFault_keeps
    | with_reducible apply modMon_keeps
    | with_reducible apply record_keeps
    | with_reducible apply Keeps.ite

theorem monBoundary_keeps {R : Part → Prop} {b₀ : State} (s : State) (h_R : Allows R [.regs, .mon]) (h_s : Keeps R b₀ s) : Keeps R b₀ (monBoundary s) := by
  unfold monBoundary
  repeat' first
    | with_reducible assumption
    | (refine Allows.sub h_R ?_; decide)
    | with_reducible apply modMon_keeps
    | with_reducible apply setF_keeps
    | with_reducible apply Keeps.ite
    | extract_lets
    | split

theorem avsEvaluate_keeps {R : Part → Prop} {b₀ : State} (s : State) (h_R : Allows R [.regs, .mon, .hif, .recd]) (h_s : Keeps R b₀ s) : Keeps R b₀ (avsEvaluate s) := by
  unfold avsEvaluate
  repeat' first
    | with_reducible assumption
    | (refine Allows.sub h_R ?_; decide)
    | with_reducible apply guardOrAlarm_keeps
    | with_reducible apply avsRequest_keeps
    | with_reducible apply modMon_keeps
    | with_reducible apply Keeps.ite

theorem execAvsEvaluation_keeps {R : Part → Prop} {b₀ : State} (s : State) (h_R : Allows R [.regs, .mon, .hif, .recd]) (h_s : Keeps R b₀ s) : OKeeps R b₀ (execAvsEvaluation s) := by
  unfold execAvsEvaluation
  repeat' first
    | with_reducible assumption
    | with_reducible apply avsEvaluate_keeps
    | with_reducible apply OKeeps.answer
    | with_reducible apply OKeeps.next
    | extract_lets
    | split

theorem logicDissipation_keeps {R : Part → Prop} {b₀ : State} (s : State) (dyn leak : Nat) (h_R : Allows R [.regs]) (h_s : Keeps R b₀ s) : Keeps R b₀ (logicDissipation s dyn leak) := by
  unfold logicDissipation
  repeat' first
    | with_reducible assumption
    | with_reducible apply setF_keeps

theorem execLogicDissipation_keeps {R : Part → Prop} {b₀ : State} (dyn leak : Nat) (s : State) (h_R : Allows R [.regs]) (h_s : Keeps R b₀ s) : OKeeps R b₀ (execLogicDissipation dyn leak s) := by
  unfold execLogicDissipation
  repeat' first
    | with_reducible assumption
    | with_reducible apply logicDissipation_keeps
    | with_reducible apply OKeeps.answer
    | with_reducible apply OKeeps.next

theorem lifeDrift_keeps {R : Part → Prop} {b₀ : State} (s : State) (h_R : Allows R [.regs, .mon, .recd]) (h_s : Keeps R b₀ s) : Keeps R b₀ (lifeDrift s) := by
  unfold lifeDrift
  repeat' first
    | with_reducible assumption
    | (refine Allows.sub h_R ?_; decide)
    | with_reducible apply modMon_keeps
    | with_reducible apply record_keeps
    | with_reducible apply setF_keeps
    | with_reducible apply Keeps.ite
    | extract_lets
    | split

theorem execLifeDrift_keeps {R : Part → Prop} {b₀ : State} (s : State) (h_R : Allows R [.regs, .mon, .recd]) (h_s : Keeps R b₀ s) : OKeeps R b₀ (execLifeDrift s) := by
  unfold execLifeDrift
  repeat' first
    | with_reducible assumption
    | with_reducible apply lifeDrift_keeps
    | with_reducible apply OKeeps.answer
    | with_reducible apply OKeeps.next

theorem avsWritten_keeps {R : Part → Prop} {b₀ : State} (s : State) (h_R : Allows R [.regs, .mon, .recd]) (h_s : Keeps R b₀ s) : Keeps R b₀ (avsWritten s) := by
  unfold avsWritten
  repeat' first
    | with_reducible assumption
    | with_reducible apply avsRequest_keeps
    | with_reducible apply Keeps.ite

theorem monEffect_keeps {R : Part → Prop} {b₀ : State} (s : State) (i : Nat) (h_R : Allows R [.regs, .mon, .recd]) (h_s : Keeps R b₀ s) : Keeps R b₀ (monEffect s i) := by
  unfold monEffect
  repeat' first
    | with_reducible assumption
    | with_reducible apply avsWritten_keeps
    | with_reducible apply Keeps.ite

theorem monRestart_keeps {R : Part → Prop} {b₀ : State} (s : State) (h_R : Allows R [.regs, .mon]) (h_s : Keeps R b₀ s) : Keeps R b₀ (monRestart s) := by
  unfold monRestart
  repeat' first
    | with_reducible assumption
    | (refine Allows.sub h_R ?_; decide)
    | with_reducible apply showRequest_keeps
    | with_reducible apply bump_keeps
    | with_reducible apply setB_keeps
    | with_reducible apply setF_keeps

theorem monReset_keeps {R : Part → Prop} {b₀ : State} (s : State) (h_R : Allows R [.mon]) (h_s : Keeps R b₀ s) : Keeps R b₀ (monReset s) := by
  unfold monReset
  repeat' first
    | with_reducible assumption
    | with_reducible apply modMon_keeps

end Sys2Proof.Machine
end

