-- ==== Sys2Proof/Laws/KeepsLease.lean ====
section
/-!
SUPPORT. Sys2Proof/Laws/KeepsLease.lean: the operations of Machine/Lease.lean keep what `Keeps` names.
-/
namespace Sys2Proof.Machine

theorem modHif_keeps {R : Part → Prop} {b₀ : State} (s : State) (f : HifState → HifState) (h_R : Allows R [.hif]) (h_s : Keeps R b₀ s) : Keeps R b₀ (modHif s f) := by
  unfold modHif
  have r_hif : R .hif := h_R _ (by decide)
  repeat' first
    | with_reducible assumption
    | with_reducible apply Keeps.ite
    | extract_lets
    | fail_if_no_progress (with_reducible refine Keeps.put_hif r_hif ?_)

theorem dropDriven_keeps {R : Part → Prop} {b₀ : State} (s : State) (r : Res) (h_R : Allows R [.regs, .recd]) (h_s : Keeps R b₀ s) : Keeps R b₀ (dropDriven s r) := by
  unfold dropDriven
  repeat' first
    | with_reducible assumption
    | with_reducible apply loopLeaseLost_keeps
    | with_reducible apply Keeps.foldl
    | intro _ _ _
    | with_reducible apply Keeps.ite

theorem putDown_keeps {R : Part → Prop} {b₀ : State} (s : State) (r : Res) (h_R : Allows R [.regs, .sys, .hif, .recd, .sch, .fjl, .pwm, .free]) (h_s : Keeps R b₀ s) : Keeps R b₀ (putDown s r) := by
  unfold putDown
  repeat' first
    | with_reducible assumption
    | (refine Allows.sub h_R ?_; decide)
    | with_reducible apply dropDriven_keeps
    | with_reducible apply modHif_keeps
    | with_reducible apply loopLeaseLost_keeps
    | with_reducible apply stopPwm_keeps
    | with_reducible apply cancelWhere_keeps
    | with_reducible apply setB_keeps
    | with_reducible apply wr_keeps
    | with_reducible apply Keeps.ite

theorem loseOne_keeps {R : Part → Prop} {b₀ : State} (s : State) (r : Res) (reason : Nat) (new : Option Nat) (h_R : Allows R [.regs, .sys, .hif, .recd, .sch, .fjl, .pwm, .free]) (h_s : Keeps R b₀ s) : Keeps R b₀ (loseOne s r reason new) := by
  unfold loseOne
  repeat' first
    | with_reducible assumption
    | (refine Allows.sub h_R ?_; decide)
    | with_reducible apply putDown_keeps
    | with_reducible apply modHif_keeps
    | with_reducible apply setHolder_keeps
    | with_reducible apply notifyLost_keeps
    | with_reducible apply Keeps.ite
    | extract_lets
    | split

theorem loseAll_keeps {R : Part → Prop} {b₀ : State} (s : State) (h : Nat) (l : List Res) (reason : Nat) (new : Option Nat) (h_R : Allows R [.regs, .sys, .hif, .recd, .sch, .fjl, .pwm, .free]) (h_s : Keeps R b₀ s) : Keeps R b₀ (loseAll s h l reason new) := by
  unfold loseAll
  repeat' first
    | with_reducible assumption
    | with_reducible apply loseOne_keeps
    | with_reducible apply Keeps.foldl
    | intro _ _ _

theorem showHif_keeps {R : Part → Prop} {b₀ : State} (s : State) (h_R : Allows R [.regs]) (h_s : Keeps R b₀ s) : Keeps R b₀ (showHif s) := by
  unfold showHif
  repeat' first
    | with_reducible assumption
    | with_reducible apply setB_keeps
    | with_reducible apply setF_keeps
    | with_reducible apply Keeps.foldl
    | intro _ _ _

theorem modBoot_keeps {R : Part → Prop} {b₀ : State} (s : State) (f : BootState → BootState) (h_R : Allows R [.boot]) (h_s : Keeps R b₀ s) : Keeps R b₀ (modBoot s f) := by
  unfold modBoot
  have r_boot : R .boot := h_R _ (by decide)
  repeat' first
    | with_reducible assumption
    | with_reducible apply Keeps.ite
    | extract_lets
    | fail_if_no_progress (with_reducible refine Keeps.put_boot r_boot ?_)

theorem showImages_keeps {R : Part → Prop} {b₀ : State} (s : State) (h_R : Allows R [.regs]) (h_s : Keeps R b₀ s) : Keeps R b₀ (showImages s) := by
  unfold showImages
  repeat' first
    | with_reducible assumption
    | with_reducible apply setF_keeps
    | with_reducible apply Keeps.foldl
    | intro _ _ _

theorem setImage_keeps {R : Part → Prop} {b₀ : State} (s : State) (i : Nat) (x : ImageRec) (h_R : Allows R [.regs, .boot]) (h_s : Keeps R b₀ s) : Keeps R b₀ (setImage s i x) := by
  unfold setImage
  repeat' first
    | with_reducible assumption
    | (refine Allows.sub h_R ?_; decide)
    | with_reducible apply showImages_keeps
    | with_reducible apply modBoot_keeps

theorem showUpdate_keeps {R : Part → Prop} {b₀ : State} (s : State) (h_R : Allows R [.regs]) (h_s : Keeps R b₀ s) : Keeps R b₀ (showUpdate s) := by
  unfold showUpdate
  repeat' first
    | with_reducible assumption
    | with_reducible apply setB_keeps
    | with_reducible apply setF_keeps

theorem closeUpdate_keeps {R : Part → Prop} {b₀ : State} (s : State) (h_R : Allows R [.regs, .boot]) (h_s : Keeps R b₀ s) : Keeps R b₀ (closeUpdate s) := by
  unfold closeUpdate
  repeat' first
    | with_reducible assumption
    | (refine Allows.sub h_R ?_; decide)
    | with_reducible apply showUpdate_keeps
    | with_reducible apply setImage_keeps
    | with_reducible apply modBoot_keeps
    | with_reducible apply Keeps.ite
    | extract_lets
    | split

theorem detach_keeps {R : Part → Prop} {b₀ : State} (s : State) (h cause : Nat) (h_R : Allows R [.regs, .sys, .boot, .hif, .recd, .sch, .fjl, .pwm, .free]) (h_s : Keeps R b₀ s) : Keeps R b₀ (detach s h cause) := by
  unfold detach
  repeat' first
    | with_reducible assumption
    | (refine Allows.sub h_R ?_; decide)
    | with_reducible apply closeUpdate_keeps
    | with_reducible apply showHif_keeps
    | with_reducible apply loseAll_keeps
    | with_reducible apply releaseFreeze_keeps
    | with_reducible apply showCan_keeps
    | with_reducible apply modSlot_keeps
    | with_reducible apply record_keeps
    | with_reducible apply bump_keeps
    | with_reducible apply setB_keeps
    | with_reducible apply setF_keeps
    | with_reducible apply wr_keeps
    | with_reducible apply Keeps.ite

theorem grant_keeps {R : Part → Prop} {b₀ : State} (s : State) (h : Nat) (named : List Res) (k : Res) (r : Res) (h_R : Allows R [.regs, .hif]) (h_s : Keeps R b₀ s) : Keeps R b₀ (grant s h named k r) := by
  unfold grant
  repeat' first
    | with_reducible assumption
    | (refine Allows.sub h_R ?_; decide)
    | with_reducible apply modHif_keeps
    | with_reducible apply setHolder_keeps
    | with_reducible apply Keeps.ite

theorem leaseCmd_keeps {R : Part → Prop} {b₀ : State} (s : State) (h : Nat) (p : List Byte) (h_R : Allows R [.regs, .sys, .hif, .recd, .sch, .fjl, .pwm, .free]) (h_s : Keeps R b₀ s) : RKeeps R b₀ (leaseCmd s h p) := by
  unfold leaseCmd
  repeat' first
    | with_reducible assumption
    | (refine Allows.sub h_R ?_; decide)
    | with_reducible apply grant_keeps
    | with_reducible apply loseAll_keeps
    | with_reducible apply RKeeps.state
    | with_reducible apply Keeps.foldl
    | intro _ _ _
    | extract_lets
    | split
    | intro _
    | fail_if_no_progress beta_reduce
    | dsimp +zetaDelta only
    | with_reducible apply RKeeps.mk

theorem releaseCmd_keeps {R : Part → Prop} {b₀ : State} (s : State) (h : Nat) (p : List Byte) (h_R : Allows R [.regs, .sys, .hif, .recd, .sch, .fjl, .pwm, .free]) (h_s : Keeps R b₀ s) : RKeeps R b₀ (releaseCmd s h p) := by
  unfold releaseCmd
  repeat' first
    | with_reducible assumption
    | with_reducible apply loseAll_keeps
    | with_reducible apply RKeeps.state
    | extract_lets
    | split
    | intro _
    | fail_if_no_progress beta_reduce
    | dsimp +zetaDelta only
    | with_reducible apply RKeeps.mk

theorem roleLeases_keeps {R : Part → Prop} {b₀ : State} (s : State) (h role : Nat) (h_R : Allows R [.regs, .sys, .hif, .recd, .sch, .fjl, .pwm, .free]) (h_s : Keeps R b₀ s) : Keeps R b₀ (roleLeases s h role) := by
  unfold roleLeases
  repeat' first
    | with_reducible assumption
    | with_reducible apply loseAll_keeps

end Sys2Proof.Machine
end

