-- ==== Sys2Proof/Laws/KeepsSup.lean ====
section
/-!
SUPPORT. Sys2Proof/Laws/KeepsSup.lean: the operations of Machine/Sup.lean keep what `Keeps` names.
-/
namespace Sys2Proof.Machine

theorem latchProt_keeps {R : Part → Prop} {b₀ : State} (s : State) (c : Nat) (h_R : Allows R [.sys]) (h_s : Keeps R b₀ s) : Keeps R b₀ (latchProt s c) := by
  unfold latchProt
  repeat' first
    | with_reducible assumption
    | with_reducible apply clearProt_keeps
    | with_reducible apply setProt_keeps
    | with_reducible apply Keeps.foldl
    | intro _ _ _
    | with_reducible apply Keeps.ite

theorem setDiffer_keeps {R : Part → Prop} {b₀ : State} (s : State) (c n : Nat) (h_R : Allows R [.sys]) (h_s : Keeps R b₀ s) : Keeps R b₀ (setDiffer s c n) := by
  unfold setDiffer
  have r_sys : R .sys := h_R _ (by decide)
  repeat' first
    | with_reducible assumption
    | with_reducible apply Keeps.ite
    | extract_lets
    | fail_if_no_progress (with_reducible refine Keeps.put_sys r_sys ?_)

theorem countDiffer_keeps {R : Part → Prop} {b₀ : State} (s : State) (c : Nat) (h_R : Allows R [.sys]) (h_s : Keeps R b₀ s) : Keeps R b₀ (countDiffer s c) := by
  unfold countDiffer
  repeat' first
    | with_reducible assumption
    | with_reducible apply setDiffer_keeps
    | with_reducible apply Keeps.ite

theorem showWord_keeps {R : Part → Prop} {b₀ : State} (s : State) (i v : Nat) (h_R : Allows R [.regs]) (h_s : Keeps R b₀ s) : Keeps R b₀ (showWord s i v) := by
  unfold showWord
  repeat' first
    | with_reducible assumption
    | with_reducible apply wr_keeps

theorem showChannel_keeps {R : Part → Prop} {b₀ : State} (s : State) (c : Nat) (h_R : Allows R [.regs, .sys, .recd]) (h_s : Keeps R b₀ s) : Keeps R b₀ (showChannel s c) := by
  unfold showChannel
  repeat' first
    | with_reducible assumption
    | (refine Allows.sub h_R ?_; decide)
    | with_reducible apply showWord_keeps
    | with_reducible apply countDiffer_keeps
    | with_reducible apply latchProt_keeps
    | with_reducible apply record_keeps
    | with_reducible apply Keeps.ite

theorem mismatchSet_keeps {R : Part → Prop} {b₀ : State} (s : State) (c : Nat) (h_R : Allows R [.regs, .recd]) (h_s : Keeps R b₀ s) : Keeps R b₀ (mismatchSet s c) := by
  unfold mismatchSet
  repeat' first
    | with_reducible assumption
    | (refine Allows.sub h_R ?_; decide)
    | with_reducible apply record_keeps
    | with_reducible apply setB_keeps
    | with_reducible apply Keeps.ite

theorem execMismatchSet_keeps {R : Part → Prop} {b₀ : State} (c : Nat) (s : State) (h_R : Allows R [.regs, .recd]) (h_s : Keeps R b₀ s) : OKeeps R b₀ (execMismatchSet c s) := by
  unfold execMismatchSet
  repeat' first
    | with_reducible assumption
    | with_reducible apply mismatchSet_keeps
    | with_reducible apply OKeeps.answer

theorem showLevel_keeps {R : Part → Prop} {b₀ : State} (s : State) (i ereq : Nat) (l : List Nat) (h_R : Allows R [.regs]) (h_s : Keeps R b₀ s) : Keeps R b₀ (showLevel s i ereq l) := by
  unfold showLevel
  repeat' first
    | with_reducible assumption
    | with_reducible apply showWord_keeps

theorem rollUp_keeps {R : Part → Prop} {b₀ : State} (s : State) (h_R : Allows R [.regs, .sys, .recd]) (h_s : Keeps R b₀ s) : Keeps R b₀ (rollUp s) := by
  unfold rollUp
  repeat' first
    | with_reducible assumption
    | (refine Allows.sub h_R ?_; decide)
    | with_reducible apply showLevel_keeps
    | with_reducible apply showChannel_keeps
    | with_reducible apply Keeps.foldl
    | intro _ _ _

theorem enableLoss_keeps {R : Part → Prop} {b₀ : State} (s : State) (a bn : Bool) (t : Nat) (h_R : Allows R [.regs, .sys, .recd, .sch, .act, .drv, .fjl, .pwm]) (h_s : Keeps R b₀ s) : Keeps R b₀ (enableLoss s a bn t) := by
  unfold enableLoss
  have r_sys : R .sys := h_R _ (by decide)
  repeat' first
    | with_reducible assumption
    | (refine Allows.sub h_R ?_; decide)
    | with_reducible apply forcePwm_keeps
    | with_reducible apply safeSequence_keeps
    | with_reducible apply forceDrv_keeps
    | with_reducible apply record_keeps
    | with_reducible apply Keeps.ite
    | extract_lets
    | fail_if_no_progress (with_reducible refine Keeps.put_sys r_sys ?_)

theorem execEnableLoss_keeps {R : Part → Prop} {b₀ : State} (a bn : Bool) (t : Nat) (s : State) (h_R : Allows R [.regs, .sys, .recd, .sch, .act, .drv, .fjl, .pwm]) (h_s : Keeps R b₀ s) : OKeeps R b₀ (execEnableLoss a bn t s) := by
  unfold execEnableLoss
  repeat' first
    | with_reducible assumption
    | with_reducible apply enableLoss_keeps
    | with_reducible apply OKeeps.answer

theorem enableRestored_keeps {R : Part → Prop} {b₀ : State} (s : State) (h_R : Allows R [.sys]) (h_s : Keeps R b₀ s) : Keeps R b₀ (enableRestored s) := by
  unfold enableRestored
  have r_sys : R .sys := h_R _ (by decide)
  repeat' first
    | with_reducible assumption
    | with_reducible apply Keeps.ite
    | extract_lets
    | fail_if_no_progress (with_reducible refine Keeps.put_sys r_sys ?_)

theorem execEnableRestored_keeps {R : Part → Prop} {b₀ : State} (s : State) (h_R : Allows R [.sys]) (h_s : Keeps R b₀ s) : OKeeps R b₀ (execEnableRestored s) := by
  unfold execEnableRestored
  repeat' first
    | with_reducible assumption
    | with_reducible apply enableRestored_keeps
    | with_reducible apply OKeeps.answer
    | with_reducible apply OKeeps.next

theorem setMode_keeps {R : Part → Prop} {b₀ : State} (s : State) (m : Nat) (h_R : Allows R [.regs]) (h_s : Keeps R b₀ s) : Keeps R b₀ (setMode s m) := by
  unfold setMode
  repeat' first
    | with_reducible assumption
    | with_reducible apply setF_keeps

theorem dropHosts_keeps {R : Part → Prop} {b₀ : State} (s : State) (h_R : Allows R [.regs, .sys, .boot, .hif, .recd, .sch, .fjl, .pwm, .free]) (h_s : Keeps R b₀ s) : Keeps R b₀ (dropHosts s) := by
  unfold dropHosts
  repeat' first
    | with_reducible assumption
    | (refine Allows.sub h_R ?_; decide)
    | with_reducible apply detach_keeps
    | with_reducible apply modSlot_keeps
    | with_reducible apply bump_keeps
    | with_reducible apply Keeps.foldl
    | intro _ _ _

theorem supervisionTrip_keeps {R : Part → Prop} {b₀ : State} (s : State) (t : Nat) (ls : Bool) (h_R : Allows R [.regs, .sys, .boot, .hif, .recd, .sch, .act, .drv, .fjl, .pwm, .can, .free]) (h_s : Keeps R b₀ s) : Keeps R b₀ (supervisionTrip s t ls) := by
  unfold supervisionTrip
  have r_sys : R .sys := h_R _ (by decide)
  repeat' first
    | with_reducible assumption
    | (refine Allows.sub h_R ?_; decide)
    | with_reducible apply dropHosts_keeps
    | with_reducible apply setMode_keeps
    | with_reducible apply closeUpdate_keeps
    | with_reducible apply modBoot_keeps
    | with_reducible apply endFreeze_keeps
    | with_reducible apply canHold_keeps
    | with_reducible apply forcePwm_keeps
    | with_reducible apply safeSequence_keeps
    | with_reducible apply forceDrv_keeps
    | with_reducible apply record_keeps
    | with_reducible apply bump_keeps
    | with_reducible apply setB_keeps
    | with_reducible apply Keeps.ite
    | extract_lets
    | fail_if_no_progress (with_reducible refine Keeps.put_sys r_sys ?_)

theorem execLockstepError_keeps {R : Part → Prop} {b₀ : State} (t : Nat) (s : State) (h_R : Allows R [.regs, .sys, .boot, .hif, .recd, .sch, .act, .drv, .fjl, .pwm, .can, .free]) (h_s : Keeps R b₀ s) : OKeeps R b₀ (execLockstepError t s) := by
  unfold execLockstepError
  repeat' first
    | with_reducible assumption
    | with_reducible apply supervisionTrip_keeps
    | with_reducible apply OKeeps.answer
    | with_reducible apply OKeeps.next
    | extract_lets
    | split

theorem execHeartbeatTimeout_keeps {R : Part → Prop} {b₀ : State} (t : Nat) (s : State) (h_R : Allows R [.regs, .sys, .boot, .hif, .recd, .sch, .act, .drv, .fjl, .pwm, .can, .free]) (h_s : Keeps R b₀ s) : OKeeps R b₀ (execHeartbeatTimeout t s) := by
  unfold execHeartbeatTimeout
  repeat' first
    | with_reducible assumption
    | with_reducible apply supervisionTrip_keeps
    | with_reducible apply OKeeps.answer
    | with_reducible apply OKeeps.next
    | extract_lets
    | split

end Sys2Proof.Machine
end

