-- ==== Sys2Proof/Laws/KeepsReset.lean ====
section
/-!
SUPPORT. Sys2Proof/Laws/KeepsReset.lean: the operations of Machine/Reset.lean keep what `Keeps` names.
-/
namespace Sys2Proof.Machine

theorem kinReset_keeps {R : Part → Prop} {b₀ : State} (s : State) (h_R : Allows R [.regs, .tables, .kin]) (h_s : Keeps R b₀ s) : Keeps R b₀ (kinReset s) := by
  unfold kinReset
  have r_kin : R .kin := h_R _ (by decide)
  repeat' first
    | with_reducible assumption
    | (refine Allows.sub h_R ?_; decide)
    | with_reducible apply tclear_keeps
    | with_reducible apply resetRegs_keeps
    | with_reducible apply Keeps.ite
    | extract_lets
    | fail_if_no_progress (with_reducible refine Keeps.put_kin r_kin ?_)

theorem blockReset_keeps {R : Part → Prop} {b₀ : State} (s : State) (k : Nat) (h_R : Allows R [.regs, .tables, .kin, .sys, .sch, .map, .act, .drv, .fjl, .pwm, .cle, .enc, .eth, .can]) (h_s : Keeps R b₀ s) : Keeps R b₀ (blockReset s k) := by
  unfold blockReset
  repeat' first
    | with_reducible assumption
    | (refine Allows.sub h_R ?_; decide)
    | with_reducible apply kinReset_keeps
    | with_reducible apply canReset_keeps
    | with_reducible apply ethReset_keeps
    | with_reducible apply cleReset_keeps
    | with_reducible apply encReset_keeps
    | with_reducible apply pwmReset_keeps
    | with_reducible apply fjlReset_keeps
    | with_reducible apply mapReset_keeps
    | with_reducible apply schReset_keeps
    | with_reducible apply drvReset_keeps
    | with_reducible apply actReset_keeps
    | with_reducible apply Keeps.ite
    | extract_lets
    | split

theorem brstWrite_keeps {R : Part → Prop} {b₀ : State} (s : State) (h v : Nat) (h_R : Allows R [.regs, .tables, .kin, .sys, .recd, .sch, .map, .act, .drv, .fjl, .pwm, .cle, .enc, .eth, .can]) (h_s : Keeps R b₀ s) : Keeps R b₀ (brstWrite s h v) := by
  unfold brstWrite
  have r_sys : R .sys := h_R _ (by decide)
  repeat' first
    | with_reducible assumption
    | (refine Allows.sub h_R ?_; decide)
    | with_reducible apply blockReset_keeps
    | with_reducible apply record_keeps
    | with_reducible apply Keeps.foldl
    | intro _ _ _
    | with_reducible apply Keeps.ite
    | extract_lets
    | fail_if_no_progress (with_reducible refine Keeps.put_sys r_sys ?_)

theorem brstRelease_keeps {R : Part → Prop} {b₀ : State} (s : State) (h_R : Allows R [.sys]) (h_s : Keeps R b₀ s) : Keeps R b₀ (brstRelease s) := by
  unfold brstRelease
  have r_sys : R .sys := h_R _ (by decide)
  repeat' first
    | with_reducible assumption
    | with_reducible apply Keeps.ite
    | extract_lets
    | fail_if_no_progress (with_reducible refine Keeps.put_sys r_sys ?_)

theorem execBlockResetRelease_keeps {R : Part → Prop} {b₀ : State} (k : Nat) (s : State) (h_R : Allows R [.sys]) (h_s : Keeps R b₀ s) : OKeeps R b₀ (execBlockResetRelease k s) := by
  unfold execBlockResetRelease
  have r_sys : R .sys := h_R _ (by decide)
  repeat' first
    | with_reducible assumption
    | with_reducible apply OKeeps.answer
    | with_reducible apply OKeeps.next
    | extract_lets
    | fail_if_no_progress (with_reducible refine Keeps.put_sys r_sys ?_)

theorem dataReset_keeps {R : Part → Prop} {b₀ : State} (s : State) (t : Nat) (h_R : Allows R [.regs, .tables, .kin, .sys, .sch, .map, .act, .drv, .fjl, .pwm, .cle, .enc, .tim, .eth, .can, .now]) (h_s : Keeps R b₀ s) : Keeps R b₀ (dataReset s t) := by
  unfold dataReset
  have r_tables : R .tables := h_R _ (by decide)
  have r_sys : R .sys := h_R _ (by decide)
  have r_tim : R .tim := h_R _ (by decide)
  have r_can : R .can := h_R _ (by decide)
  have r_now : R .now := h_R _ (by decide)
  repeat' first
    | with_reducible assumption
    | (refine Allows.sub h_R ?_; decide)
    | with_reducible apply blockReset_keeps
    | with_reducible apply timReset_keeps
    | with_reducible apply resetRegs_keeps
    | with_reducible apply Keeps.foldl
    | intro _ _ _
    | with_reducible apply Keeps.ite
    | extract_lets
    | fail_if_no_progress (with_reducible refine Keeps.put ?_ (.inr rfl) (.inl r_sys) (.inr rfl) (.inr rfl) (.inr rfl) (.inr rfl) (.inr rfl) (.inr rfl) (.inr rfl) (.inr rfl) (.inr rfl) (.inr rfl) (.inr rfl) (.inr rfl) (.inr rfl) (.inl r_tim) (.inr rfl) (.inl r_can) (.inl r_now))
    | fail_if_no_progress (with_reducible refine Keeps.noTables r_tables ?_ (.inr rfl) (.inl r_sys) (.inr rfl) (.inr rfl) (.inr rfl) (.inr rfl) (.inr rfl) (.inr rfl) (.inr rfl) (.inr rfl) (.inr rfl) (.inr rfl) (.inr rfl) (.inr rfl) (.inr rfl) (.inl r_tim) (.inr rfl) (.inl r_can) (.inl r_now))

theorem cutSave_keeps {R : Part → Prop} {b₀ : State} (s : State) (h_R : Allows R [.boot]) (h_s : Keeps R b₀ s) : Keeps R b₀ (cutSave s) := by
  unfold cutSave
  repeat' first
    | with_reducible assumption
    | with_reducible apply modBoot_keeps
    | with_reducible apply Keeps.ite
    | extract_lets
    | split

theorem deviceReset_keeps {R : Part → Prop} {b₀ : State} (s : State) (t k : Nat) (h_R : Allows R [.regs, .tables, .kin, .sys, .boot, .mon, .hif, .recd, .sch, .map, .act, .drv, .fjl, .pwm, .cle, .enc, .tim, .eth, .can, .now]) (h_s : Keeps R b₀ s) : Keeps R b₀ (deviceReset s t k) := by
  unfold deviceReset
  have r_sys : R .sys := h_R _ (by decide)
  have r_hif : R .hif := h_R _ (by decide)
  have r_eth : R .eth := h_R _ (by decide)
  repeat' first
    | with_reducible assumption
    | (refine Allows.sub h_R ?_; decide)
    | with_reducible apply cutSave_keeps
    | with_reducible apply dataReset_keeps
    | with_reducible apply closeUpdate_keeps
    | with_reducible apply modBoot_keeps
    | with_reducible apply monReset_keeps
    | with_reducible apply endFreeze_keeps
    | with_reducible apply resetRegs_keeps
    | with_reducible apply wr_keeps
    | with_reducible apply Keeps.ite
    | extract_lets
    | fail_if_no_progress (with_reducible refine Keeps.put ?_ (.inr rfl) (.inl r_sys) (.inr rfl) (.inr rfl) (.inl r_hif) (.inr rfl) (.inr rfl) (.inr rfl) (.inr rfl) (.inr rfl) (.inr rfl) (.inr rfl) (.inr rfl) (.inr rfl) (.inr rfl) (.inr rfl) (.inl r_eth) (.inr rfl) (.inr rfl))

end Sys2Proof.Machine
end

