-- ==== Sys2Proof/Laws/KeepsBoot.lean ====
section
/-!
SUPPORT. Sys2Proof/Laws/KeepsBoot.lean: the operations of Machine/Boot.lean keep what `Keeps` names.
-/
namespace Sys2Proof.Machine

theorem setImageState_keeps {R : Part → Prop} {b₀ : State} (s : State) (i st : Nat) (h_R : Allows R [.regs, .boot]) (h_s : Keeps R b₀ s) : Keeps R b₀ (setImageState s i st) := by
  unfold setImageState
  repeat' first
    | with_reducible assumption
    | with_reducible apply setImage_keeps

theorem setBank_keeps {R : Part → Prop} {b₀ : State} (s : State) (k : Nat) (b : CfgBank) (h_R : Allows R [.boot]) (h_s : Keeps R b₀ s) : Keeps R b₀ (setBank s k b) := by
  unfold setBank
  repeat' first
    | with_reducible assumption
    | with_reducible apply modBoot_keeps

theorem applyBank_keeps {R : Part → Prop} {b₀ : State} (s : State) (k : Nat) (h_R : Allows R [.regs, .tables, .act]) (h_s : Keeps R b₀ s) : Keeps R b₀ (applyBank s k) := by
  unfold applyBank
  repeat' first
    | with_reducible assumption
    | (refine Allows.sub h_R ?_; decide)
    | with_reducible apply dlyWrite_keeps
    | with_reducible apply setB_keeps
    | with_reducible apply wr_keeps
    | with_reducible apply Keeps.foldl
    | intro _ _ _

theorem applyConfig_keeps {R : Part → Prop} {b₀ : State} (s : State) (h_R : Allows R [.regs, .tables, .recd, .act]) (h_s : Keeps R b₀ s) : Keeps R b₀ (applyConfig s) := by
  unfold applyConfig
  repeat' first
    | with_reducible assumption
    | (refine Allows.sub h_R ?_; decide)
    | with_reducible apply applyBank_keeps
    | with_reducible apply record_keeps
    | with_reducible apply setB_keeps
    | with_reducible apply Keeps.ite
    | extract_lets
    | split

theorem recoveryOff_keeps {R : Part → Prop} {b₀ : State} (s : State) (h_R : Allows R [.regs, .recd, .pwm, .cle, .eth]) (h_s : Keeps R b₀ s) : Keeps R b₀ (recoveryOff s) := by
  unfold recoveryOff
  repeat' first
    | with_reducible assumption
    | (refine Allows.sub h_R ?_; decide)
    | with_reducible apply returnStart_keeps
    | with_reducible apply cleEnable_keeps
    | with_reducible apply stopPwm_keeps
    | with_reducible apply setB_keeps
    | with_reducible apply Keeps.foldl
    | intro _ _ _
    | with_reducible apply Keeps.ite

theorem enterRecovery_keeps {R : Part → Prop} {b₀ : State} (s : State) (cause : Nat) (h_R : Allows R [.regs, .sys, .boot, .recd, .pwm, .cle, .eth]) (h_s : Keeps R b₀ s) : Keeps R b₀ (enterRecovery s cause) := by
  unfold enterRecovery
  have r_sys : R .sys := h_R _ (by decide)
  repeat' first
    | with_reducible assumption
    | (refine Allows.sub h_R ?_; decide)
    | with_reducible apply recoveryOff_keeps
    | with_reducible apply setMode_keeps
    | with_reducible apply modBoot_keeps
    | with_reducible apply record_keeps
    | with_reducible apply setF_keeps
    | with_reducible apply Keeps.ite
    | extract_lets
    | fail_if_no_progress (with_reducible refine Keeps.put_sys r_sys ?_)

theorem tryImage_keeps {R : Part → Prop} {b₀ : State} (s : State) (i : Nat) (h_R : Allows R [.sys, .boot]) (h_s : Keeps R b₀ s) : Keeps R b₀ (tryImage s i) := by
  unfold tryImage
  have r_sys : R .sys := h_R _ (by decide)
  repeat' first
    | with_reducible assumption
    | (refine Allows.sub h_R ?_; decide)
    | with_reducible apply modBoot_keeps
    | with_reducible apply Keeps.ite
    | extract_lets
    | fail_if_no_progress (with_reducible refine Keeps.put_sys r_sys ?_)

theorem tryOther_keeps {R : Part → Prop} {b₀ : State} (s : State) (i cause : Nat) (h_R : Allows R [.regs, .sys, .boot, .recd, .pwm, .cle, .eth]) (h_s : Keeps R b₀ s) : Keeps R b₀ (tryOther s i cause) := by
  unfold tryOther
  repeat' first
    | with_reducible assumption
    | (refine Allows.sub h_R ?_; decide)
    | with_reducible apply tryImage_keeps
    | with_reducible apply enterRecovery_keeps
    | with_reducible apply modBoot_keeps
    | with_reducible apply Keeps.ite

theorem rejectTrial_keeps {R : Part → Prop} {b₀ : State} (s : State) (i : Nat) (h_R : Allows R [.regs, .boot, .recd]) (h_s : Keeps R b₀ s) : Keeps R b₀ (rejectTrial s i) := by
  unfold rejectTrial
  repeat' first
    | with_reducible assumption
    | (refine Allows.sub h_R ?_; decide)
    | with_reducible apply setImageState_keeps
    | with_reducible apply modBoot_keeps
    | with_reducible apply record_keeps

theorem chooseImage_keeps {R : Part → Prop} {b₀ : State} (s : State) (h_R : Allows R [.regs, .sys, .boot, .recd, .pwm, .cle, .eth]) (h_s : Keeps R b₀ s) : Keeps R b₀ (chooseImage s) := by
  unfold chooseImage
  repeat' first
    | with_reducible assumption
    | (refine Allows.sub h_R ?_; decide)
    | with_reducible apply rejectTrial_keeps
    | with_reducible apply tryOther_keeps
    | with_reducible apply tryImage_keeps
    | with_reducible apply enterRecovery_keeps
    | with_reducible apply showImages_keeps
    | with_reducible apply modBoot_keeps
    | with_reducible apply Keeps.ite

theorem startBases_keeps {R : Part → Prop} {b₀ : State} (s : State) (h_R : Allows R [.tim]) (h_s : Keeps R b₀ s) : Keeps R b₀ (startBases s) := by
  unfold startBases
  repeat' first
    | with_reducible assumption
    | with_reducible apply modTb_keeps
    | with_reducible apply Keeps.foldl
    | intro _ _ _

theorem bootDone_keeps {R : Part → Prop} {b₀ : State} (s : State) (i t : Nat) (h_R : Allows R [.regs, .tables, .sys, .boot, .recd, .act, .tim, .can, .now]) (h_s : Keeps R b₀ s) : Keeps R b₀ (bootDone s i t) := by
  unfold bootDone
  have r_sys : R .sys := h_R _ (by decide)
  have r_tim : R .tim := h_R _ (by decide)
  have r_now : R .now := h_R _ (by decide)
  repeat' first
    | with_reducible assumption
    | (refine Allows.sub h_R ?_; decide)
    | with_reducible apply startBases_keeps
    | with_reducible apply applyConfig_keeps
    | with_reducible apply setMode_keeps
    | with_reducible apply modBoot_keeps
    | with_reducible apply endFreeze_keeps
    | with_reducible apply canRestart_keeps
    | with_reducible apply record_keeps
    | with_reducible apply setB_keeps
    | with_reducible apply setF_keeps
    | with_reducible apply wr_keeps
    | with_reducible apply Keeps.ite
    | extract_lets
    | fail_if_no_progress (with_reducible refine Keeps.put ?_ (.inr rfl) (.inl r_sys) (.inr rfl) (.inr rfl) (.inr rfl) (.inr rfl) (.inr rfl) (.inr rfl) (.inr rfl) (.inr rfl) (.inr rfl) (.inr rfl) (.inr rfl) (.inr rfl) (.inr rfl) (.inl r_tim) (.inr rfl) (.inr rfl) (.inl r_now))

theorem imageVerified_keeps {R : Part → Prop} {b₀ : State} (s : State) (t : Nat) (h_R : Allows R [.regs, .tables, .sys, .boot, .recd, .act, .pwm, .cle, .tim, .eth, .can, .now]) (h_s : Keeps R b₀ s) : Keeps R b₀ (imageVerified s t) := by
  unfold imageVerified
  repeat' first
    | with_reducible assumption
    | (refine Allows.sub h_R ?_; decide)
    | with_reducible apply bootDone_keeps
    | with_reducible apply tryOther_keeps
    | with_reducible apply enterRecovery_keeps
    | with_reducible apply setImageState_keeps
    | with_reducible apply record_keeps
    | with_reducible apply Keeps.ite

theorem execImageVerified_keeps {R : Part → Prop} {b₀ : State} (t : Nat) (s : State) (h_R : Allows R [.regs, .tables, .sys, .boot, .recd, .act, .pwm, .cle, .tim, .eth, .can, .now]) (h_s : Keeps R b₀ s) : OKeeps R b₀ (execImageVerified t s) := by
  unfold execImageVerified
  repeat' first
    | with_reducible assumption
    | with_reducible apply imageVerified_keeps
    | with_reducible apply OKeeps.answer

theorem firmwareRestart_keeps {R : Part → Prop} {b₀ : State} (s : State) (h_R : Allows R [.regs, .sys, .boot, .recd, .pwm, .cle, .eth]) (h_s : Keeps R b₀ s) : Keeps R b₀ (firmwareRestart s) := by
  unfold firmwareRestart
  repeat' first
    | with_reducible assumption
    | (refine Allows.sub h_R ?_; decide)
    | with_reducible apply rejectTrial_keeps
    | with_reducible apply tryOther_keeps
    | with_reducible apply tryImage_keeps
    | with_reducible apply enterRecovery_keeps
    | with_reducible apply modBoot_keeps
    | with_reducible apply setF_keeps
    | with_reducible apply Keeps.ite

theorem execFirmwareRestart_keeps {R : Part → Prop} {b₀ : State} (s : State) (h_R : Allows R [.regs, .sys, .boot, .recd, .pwm, .cle, .eth]) (h_s : Keeps R b₀ s) : OKeeps R b₀ (execFirmwareRestart s) := by
  unfold execFirmwareRestart
  repeat' first
    | with_reducible assumption
    | with_reducible apply firmwareRestart_keeps
    | with_reducible apply OKeeps.answer
    | with_reducible apply OKeeps.next

theorem markRecords_keeps {R : Part → Prop} {b₀ : State} (s : State) (h_R : Allows R [.regs, .mon, .hif, .recd]) (h_s : Keeps R b₀ s) : Keeps R b₀ (markRecords s) := by
  unfold markRecords
  repeat' first
    | with_reducible assumption
    | (refine Allows.sub h_R ?_; decide)
    | with_reducible apply monFault_keeps
    | with_reducible apply modMon_keeps
    | with_reducible apply record_keeps
    | with_reducible apply Keeps.ite
    | extract_lets
    | split

theorem sourceEnds_keeps {R : Part → Prop} {b₀ : State} (s : State) (t k : Nat) (h_R : Allows R [.regs, .sys, .boot, .mon, .hif, .recd, .pwm, .cle, .tim, .eth]) (h_s : Keeps R b₀ s) : Keeps R b₀ (sourceEnds s t k) := by
  unfold sourceEnds
  have r_sys : R .sys := h_R _ (by decide)
  have r_tim : R .tim := h_R _ (by decide)
  have r_eth : R .eth := h_R _ (by decide)
  repeat' first
    | with_reducible assumption
    | (refine Allows.sub h_R ?_; decide)
    | with_reducible apply markRecords_keeps
    | with_reducible apply chooseImage_keeps
    | with_reducible apply modBoot_keeps
    | with_reducible apply monRestart_keeps
    | with_reducible apply record_keeps
    | with_reducible apply Keeps.ite
    | extract_lets
    | fail_if_no_progress (with_reducible refine Keeps.put ?_ (.inr rfl) (.inl r_sys) (.inr rfl) (.inr rfl) (.inr rfl) (.inr rfl) (.inr rfl) (.inr rfl) (.inr rfl) (.inr rfl) (.inr rfl) (.inr rfl) (.inr rfl) (.inr rfl) (.inr rfl) (.inl r_tim) (.inl r_eth) (.inr rfl) (.inr rfl))

theorem powerUp_keeps {R : Part → Prop} {b₀ : State} (s : State) (bootSelLow : Bool)
    (h_R : Allows R [.regs, .tables, .kin, .sys, .boot, .mon, .hif, .recd, .sch, .map, .act, .drv, .fjl, .pwm, .cle, .enc, .gns, .tim, .eth, .can, .now, .free]) (h_s : Keeps R b₀ s) : Keeps R b₀ (powerUp s bootSelLow) := by
  have h1 : Keeps R b₀ (cutSave s) := cutSave_keeps _ (h_R.sub (by decide)) h_s
  have all : ∀ p, R p := fun p => h_R p (by cases p <;> decide)
  have k : ∀ m, Keeps R b₀ { State.reset with pending := (cutSave s).pending, free := (cutSave s).free, mon := m } := fun m =>
    ⟨h1.pending, h1.free, fun _ => sparseWf_nil _, fun _ => sparseWf_nil _, fun p h => absurd (all p) h⟩
  have sub : ∀ l, Allows R l := fun l p _ => all p
  unfold powerUp
  exact chooseImage_keeps _ (sub _) (markRecords_keeps _ (sub _) (record_keeps _ _ _ _ (sub _) (monRestart_keeps _ (sub _)
    (Keeps.put_boot (all _) (recPowerUp_keeps _ _ _ (sub _) (Keeps.put_sys (all _) (k _)))))))

theorem execPowerUp_keeps {R : Part → Prop} {b₀ : State} (bootSelLow : Bool) (s : State) (h_R : Allows R [.regs, .tables, .kin, .sys, .boot, .mon, .hif, .recd, .sch, .map, .act, .drv, .fjl, .pwm, .cle, .enc, .gns, .tim, .eth, .can, .now, .free]) (h_s : Keeps R b₀ s) : OKeeps R b₀ (execPowerUp bootSelLow s) := by
  unfold execPowerUp
  repeat' first
    | with_reducible assumption
    | with_reducible apply powerUp_keeps
    | with_reducible apply OKeeps.answer
    | with_reducible apply OKeeps.next

theorem resetEnded_keeps {R : Part → Prop} {b₀ : State} (s : State) (t : Nat) (bootSelLow : Bool) (h_R : Allows R [.regs, .sys, .boot, .mon, .hif, .recd, .pwm, .cle, .tim, .eth]) (h_s : Keeps R b₀ s) : Keeps R b₀ (resetEnded s t bootSelLow) := by
  unfold resetEnded
  have r_sys : R .sys := h_R _ (by decide)
  repeat' first
    | with_reducible assumption
    | (refine Allows.sub h_R ?_; decide)
    | with_reducible apply sourceEnds_keeps
    | with_reducible apply modBoot_keeps
    | with_reducible apply Keeps.ite
    | extract_lets
    | fail_if_no_progress (with_reducible refine Keeps.put_sys r_sys ?_)

theorem execResetEnded_keeps {R : Part → Prop} {b₀ : State} (t : Nat) (bootSelLow : Bool) (s : State) (h_R : Allows R [.regs, .sys, .boot, .mon, .hif, .recd, .pwm, .cle, .tim, .eth]) (h_s : Keeps R b₀ s) : OKeeps R b₀ (execResetEnded t bootSelLow s) := by
  unfold execResetEnded
  repeat' first
    | with_reducible assumption
    | with_reducible apply resetEnded_keeps
    | with_reducible apply OKeeps.answer

theorem fwInfo_keeps {R : Part → Prop} {b₀ : State} (s : State) (h : Nat) (h_R : Allows R []) (h_s : Keeps R b₀ s) : RKeeps R b₀ (fwInfo s h) := by
  unfold fwInfo
  repeat' first
    | with_reducible assumption
    | with_reducible apply refuse_keeps
    | with_reducible apply RKeeps.state
    | extract_lets
    | split
    | intro _
    | fail_if_no_progress beta_reduce
    | dsimp +zetaDelta only
    | with_reducible apply RKeeps.mk

theorem fwBegin_keeps {R : Part → Prop} {b₀ : State} (s : State) (h : Nat) (p : List Byte) (h_R : Allows R [.regs, .boot]) (h_s : Keeps R b₀ s) : RKeeps R b₀ (fwBegin s h p) := by
  unfold fwBegin
  repeat' first
    | with_reducible assumption
    | (refine Allows.sub h_R ?_; decide)
    | with_reducible apply showUpdate_keeps
    | with_reducible apply setImage_keeps
    | with_reducible apply modBoot_keeps
    | with_reducible apply refuse_keeps
    | with_reducible apply RKeeps.state
    | extract_lets
    | split
    | intro _
    | fail_if_no_progress beta_reduce
    | dsimp +zetaDelta only
    | with_reducible apply RKeeps.mk

theorem fwData_keeps {R : Part → Prop} {b₀ : State} (s : State) (h : Nat) (p : List Byte) (h_R : Allows R [.boot]) (h_s : Keeps R b₀ s) : RKeeps R b₀ (fwData s h p) := by
  unfold fwData
  repeat' first
    | with_reducible assumption
    | (refine Allows.sub h_R ?_; decide)
    | with_reducible apply modBoot_keeps
    | with_reducible apply refuse_keeps
    | with_reducible apply RKeeps.state
    | extract_lets
    | split
    | intro _
    | fail_if_no_progress beta_reduce
    | dsimp +zetaDelta only
    | with_reducible apply RKeeps.mk

theorem fwEnd_keeps {R : Part → Prop} {b₀ : State} (s : State) (h : Nat) (x : ImageHead) (h_R : Allows R [.regs, .boot, .recd]) (h_s : Keeps R b₀ s) : RKeeps R b₀ (fwEnd s h x) := by
  unfold fwEnd
  repeat' first
    | with_reducible assumption
    | (refine Allows.sub h_R ?_; decide)
    | with_reducible apply showUpdate_keeps
    | with_reducible apply setImage_keeps
    | with_reducible apply modBoot_keeps
    | with_reducible apply refuse_keeps
    | with_reducible apply record_keeps
    | with_reducible apply RKeeps.state
    | extract_lets
    | split
    | intro _
    | fail_if_no_progress beta_reduce
    | dsimp +zetaDelta only
    | with_reducible apply RKeeps.mk

theorem softReset_keeps {R : Part → Prop} {b₀ : State} (s : State) (mode h : Nat) (h_R : Allows R [.regs, .tables, .kin, .sys, .boot, .mon, .hif, .recd, .sch, .map, .act, .drv, .fjl, .pwm, .cle, .enc, .tim, .eth, .can, .now]) (h_s : Keeps R b₀ s) : Keeps R b₀ (softReset s mode h) := by
  unfold softReset
  repeat' first
    | with_reducible assumption
    | (refine Allows.sub h_R ?_; decide)
    | with_reducible apply deviceReset_keeps
    | with_reducible apply modBoot_keeps

theorem fwActivate_keeps {R : Part → Prop} {b₀ : State} (s : State) (h : Nat) (p : List Byte) (h_R : Allows R [.regs, .tables, .kin, .sys, .boot, .mon, .hif, .recd, .sch, .map, .act, .drv, .fjl, .pwm, .cle, .enc, .tim, .eth, .can, .now]) (h_s : Keeps R b₀ s) : RKeeps R b₀ (fwActivate s h p) := by
  unfold fwActivate
  repeat' first
    | with_reducible assumption
    | (refine Allows.sub h_R ?_; decide)
    | with_reducible apply softReset_keeps
    | with_reducible apply setImageState_keeps
    | with_reducible apply modBoot_keeps
    | with_reducible apply refuse_keeps
    | with_reducible apply RKeeps.state
    | extract_lets
    | split
    | intro _
    | fail_if_no_progress beta_reduce
    | dsimp +zetaDelta only
    | with_reducible apply RKeeps.mk

theorem fwCommit_keeps {R : Part → Prop} {b₀ : State} (s : State) (h : Nat) (h_R : Allows R [.regs, .boot, .recd]) (h_s : Keeps R b₀ s) : RKeeps R b₀ (fwCommit s h) := by
  unfold fwCommit
  repeat' first
    | with_reducible assumption
    | (refine Allows.sub h_R ?_; decide)
    | with_reducible apply setImageState_keeps
    | with_reducible apply modBoot_keeps
    | with_reducible apply refuse_keeps
    | with_reducible apply record_keeps
    | with_reducible apply setB_keeps
    | with_reducible apply RKeeps.state
    | extract_lets
    | split
    | intro _
    | fail_if_no_progress beta_reduce
    | dsimp +zetaDelta only
    | with_reducible apply RKeeps.mk

theorem sysReset_keeps {R : Part → Prop} {b₀ : State} (s : State) (h : Nat) (p : List Byte) (h_R : Allows R [.regs, .tables, .kin, .sys, .boot, .mon, .hif, .recd, .sch, .map, .act, .drv, .fjl, .pwm, .cle, .enc, .tim, .eth, .can, .now]) (h_s : Keeps R b₀ s) : RKeeps R b₀ (sysReset s h p) := by
  unfold sysReset
  repeat' first
    | with_reducible assumption
    | (refine Allows.sub h_R ?_; decide)
    | with_reducible apply softReset_keeps
    | with_reducible apply refuse_keeps
    | with_reducible apply RKeeps.state
    | extract_lets
    | split
    | intro _
    | fail_if_no_progress beta_reduce
    | dsimp +zetaDelta only
    | with_reducible apply RKeeps.mk

theorem cfgSave_keeps {R : Part → Prop} {b₀ : State} (s : State) (h : Nat) (p : List Byte) (h_R : Allows R [.boot]) (h_s : Keeps R b₀ s) : RKeeps R b₀ (cfgSave s h p) := by
  unfold cfgSave
  repeat' first
    | with_reducible assumption
    | (refine Allows.sub h_R ?_; decide)
    | with_reducible apply setBank_keeps
    | with_reducible apply modBoot_keeps
    | with_reducible apply refuse_keeps
    | with_reducible apply RKeeps.state
    | extract_lets
    | split
    | intro _
    | fail_if_no_progress beta_reduce
    | dsimp +zetaDelta only
    | with_reducible apply RKeeps.mk

theorem saveDone_keeps {R : Part → Prop} {b₀ : State} (s : State) (h_R : Allows R [.regs, .boot, .recd]) (h_s : Keeps R b₀ s) : Keeps R b₀ (saveDone s) := by
  unfold saveDone
  repeat' first
    | with_reducible assumption
    | (refine Allows.sub h_R ?_; decide)
    | with_reducible apply setBank_keeps
    | with_reducible apply modBoot_keeps
    | with_reducible apply record_keeps
    | with_reducible apply Keeps.ite
    | extract_lets
    | split

theorem cfgErase_keeps {R : Part → Prop} {b₀ : State} (s : State) (h : Nat) (p : List Byte) (h_R : Allows R [.boot]) (h_s : Keeps R b₀ s) : RKeeps R b₀ (cfgErase s h p) := by
  unfold cfgErase
  repeat' first
    | with_reducible assumption
    | (refine Allows.sub h_R ?_; decide)
    | with_reducible apply modBoot_keeps
    | with_reducible apply refuse_keeps
    | with_reducible apply RKeeps.state
    | extract_lets
    | split
    | intro _
    | fail_if_no_progress beta_reduce
    | dsimp +zetaDelta only
    | with_reducible apply RKeeps.mk

theorem keySet_keeps {R : Part → Prop} {b₀ : State} (s : State) (h : Nat) (p : List Byte) (h_R : Allows R [.regs, .recd]) (h_s : Keeps R b₀ s) : RKeeps R b₀ (keySet s h p) := by
  unfold keySet
  repeat' first
    | with_reducible assumption
    | (refine Allows.sub h_R ?_; decide)
    | with_reducible apply authFail_keeps
    | with_reducible apply modRec_keeps
    | with_reducible apply refuse_keeps
    | with_reducible apply record_keeps
    | with_reducible apply RKeeps.state
    | extract_lets
    | split
    | intro _
    | fail_if_no_progress beta_reduce
    | dsimp +zetaDelta only
    | with_reducible apply RKeeps.mk

end Sys2Proof.Machine
end

