-- ==== Sys2Proof/Laws/KeepsClk.lean ====
section
/-!
SUPPORT. Sys2Proof/Laws/KeepsClk.lean: the operations of Machine/Clk.lean keep what `Keeps` names.
-/
namespace Sys2Proof.Machine

theorem resetPulse_keeps {R : Part → Prop} {b₀ : State} (s : State) (t ns : Nat) (h_R : Allows R [.regs, .tables, .kin, .sys, .boot, .mon, .hif, .recd, .sch, .map, .act, .drv, .fjl, .pwm, .cle, .enc, .tim, .eth, .can, .now, .free]) (h_s : Keeps R b₀ s) : Keeps R b₀ (resetPulse s t ns) := by
  unfold resetPulse
  repeat' first
    | with_reducible assumption
    | (refine Allows.sub h_R ?_; decide)
    | with_reducible apply deviceReset_keeps
    | with_reducible apply fresh_keeps
    | (refine fresh_keeps_eq ‹_› ?_ ?_)
    | with_reducible apply Keeps.ite

theorem execResetN_keeps {R : Part → Prop} {b₀ : State} (t ns : Nat) (s : State) (h_R : Allows R [.regs, .tables, .kin, .sys, .boot, .mon, .hif, .recd, .sch, .map, .act, .drv, .fjl, .pwm, .cle, .enc, .tim, .eth, .can, .now, .free]) (h_s : Keeps R b₀ s) : OKeeps R b₀ (execResetN t ns s) := by
  unfold execResetN
  repeat' first
    | with_reducible assumption
    | with_reducible apply resetPulse_keeps
    | with_reducible apply OKeeps.answer

theorem brownOut_keeps {R : Part → Prop} {b₀ : State} (s : State) (v t : Nat) (h_R : Allows R [.regs, .tables, .kin, .sys, .boot, .mon, .hif, .recd, .sch, .map, .act, .drv, .fjl, .pwm, .cle, .enc, .tim, .eth, .can, .now]) (h_s : Keeps R b₀ s) : Keeps R b₀ (brownOut s v t) := by
  unfold brownOut
  repeat' first
    | with_reducible assumption
    | (refine Allows.sub h_R ?_; decide)
    | with_reducible apply deviceReset_keeps
    | with_reducible apply modMon_keeps

theorem execBrownOut_keeps {R : Part → Prop} {b₀ : State} (v t : Nat) (s : State) (h_R : Allows R [.regs, .tables, .kin, .sys, .boot, .mon, .hif, .recd, .sch, .map, .act, .drv, .fjl, .pwm, .cle, .enc, .tim, .eth, .can, .now]) (h_s : Keeps R b₀ s) : OKeeps R b₀ (execBrownOut v t s) := by
  unfold execBrownOut
  repeat' first
    | with_reducible assumption
    | with_reducible apply brownOut_keeps
    | with_reducible apply OKeeps.answer

theorem execBrownOutRelease_keeps {R : Part → Prop} {b₀ : State} (t : Nat) (s : State) (h_R : Allows R [.regs, .sys, .boot, .mon, .hif, .recd, .pwm, .cle, .tim, .eth]) (h_s : Keeps R b₀ s) : OKeeps R b₀ (execBrownOutRelease t s) := by
  unfold execBrownOutRelease
  repeat' first
    | with_reducible assumption
    | with_reducible apply sourceEnds_keeps
    | with_reducible apply OKeeps.answer

theorem thermalShutdown_keeps {R : Part → Prop} {b₀ : State} (s : State) (i t : Nat) (h_R : Allows R [.regs, .tables, .kin, .sys, .boot, .mon, .hif, .recd, .sch, .map, .act, .drv, .fjl, .pwm, .cle, .enc, .tim, .eth, .can, .now]) (h_s : Keeps R b₀ s) : Keeps R b₀ (thermalShutdown s i t) := by
  unfold thermalShutdown
  repeat' first
    | with_reducible assumption
    | (refine Allows.sub h_R ?_; decide)
    | with_reducible apply deviceReset_keeps
    | with_reducible apply modMon_keeps

theorem execThermalShutdown_keeps {R : Part → Prop} {b₀ : State} (i t : Nat) (s : State) (h_R : Allows R [.regs, .tables, .kin, .sys, .boot, .mon, .hif, .recd, .sch, .map, .act, .drv, .fjl, .pwm, .cle, .enc, .tim, .eth, .can, .now]) (h_s : Keeps R b₀ s) : OKeeps R b₀ (execThermalShutdown i t s) := by
  unfold execThermalShutdown
  repeat' first
    | with_reducible assumption
    | with_reducible apply thermalShutdown_keeps
    | with_reducible apply OKeeps.answer

theorem execThermalShutdownRelease_keeps {R : Part → Prop} {b₀ : State} (t : Nat) (s : State) (h_R : Allows R [.regs, .sys, .boot, .mon, .hif, .recd, .pwm, .cle, .tim, .eth]) (h_s : Keeps R b₀ s) : OKeeps R b₀ (execThermalShutdownRelease t s) := by
  unfold execThermalShutdownRelease
  repeat' first
    | with_reducible assumption
    | with_reducible apply sourceEnds_keeps
    | with_reducible apply OKeeps.answer

theorem clockLost_keeps {R : Part → Prop} {b₀ : State} (s : State) (k : Nat) (h_R : Allows R [.regs, .recd]) (h_s : Keeps R b₀ s) : Keeps R b₀ (clockLost s k) := by
  unfold clockLost
  repeat' first
    | with_reducible assumption
    | (refine Allows.sub h_R ?_; decide)
    | with_reducible apply record_keeps
    | with_reducible apply bump_keeps

theorem clocksBack_keeps {R : Part → Prop} {b₀ : State} (s : State) (t : Nat) (h_R : Allows R [.regs, .sys, .boot, .mon, .hif, .recd, .pwm, .cle, .tim, .eth]) (h_s : Keeps R b₀ s) : Keeps R b₀ (clocksBack s t) := by
  unfold clocksBack
  repeat' first
    | with_reducible assumption
    | with_reducible apply sourceEnds_keeps
    | with_reducible apply Keeps.ite

theorem tcxoMissing_keeps {R : Part → Prop} {b₀ : State} (s : State) (t : Nat) (h_R : Allows R [.regs, .tables, .kin, .sys, .boot, .mon, .hif, .recd, .sch, .map, .act, .drv, .fjl, .pwm, .cle, .enc, .tim, .eth, .can, .now]) (h_s : Keeps R b₀ s) : Keeps R b₀ (tcxoMissing s t) := by
  unfold tcxoMissing
  repeat' first
    | with_reducible assumption
    | (refine Allows.sub h_R ?_; decide)
    | with_reducible apply clockLost_keeps
    | with_reducible apply deviceReset_keeps
    | with_reducible apply setB_keeps
    | with_reducible apply Keeps.ite

theorem execTcxoMissing_keeps {R : Part → Prop} {b₀ : State} (t : Nat) (s : State) (h_R : Allows R [.regs, .tables, .kin, .sys, .boot, .mon, .hif, .recd, .sch, .map, .act, .drv, .fjl, .pwm, .cle, .enc, .tim, .eth, .can, .now]) (h_s : Keeps R b₀ s) : OKeeps R b₀ (execTcxoMissing t s) := by
  unfold execTcxoMissing
  repeat' first
    | with_reducible assumption
    | with_reducible apply tcxoMissing_keeps
    | with_reducible apply OKeeps.answer

theorem execTcxoPresent_keeps {R : Part → Prop} {b₀ : State} (t : Nat) (s : State) (h_R : Allows R [.regs, .sys, .boot, .mon, .hif, .recd, .pwm, .cle, .tim, .eth]) (h_s : Keeps R b₀ s) : OKeeps R b₀ (execTcxoPresent t s) := by
  unfold execTcxoPresent
  repeat' first
    | with_reducible assumption
    | (refine Allows.sub h_R ?_; decide)
    | with_reducible apply clocksBack_keeps
    | with_reducible apply setB_keeps
    | with_reducible apply OKeeps.answer

theorem pllLock_keeps {R : Part → Prop} {b₀ : State} (s : State) (k t : Nat) (h_R : Allows R [.regs, .sys, .boot, .mon, .hif, .recd, .pwm, .cle, .tim, .eth]) (h_s : Keeps R b₀ s) : Keeps R b₀ (pllLock s k t) := by
  unfold pllLock
  have r_sys : R .sys := h_R _ (by decide)
  repeat' first
    | with_reducible assumption
    | (refine Allows.sub h_R ?_; decide)
    | with_reducible apply clocksBack_keeps
    | with_reducible apply setB_keeps
    | with_reducible apply Keeps.ite
    | extract_lets
    | fail_if_no_progress (with_reducible refine Keeps.put_sys r_sys ?_)

theorem execPllLock_keeps {R : Part → Prop} {b₀ : State} (k t : Nat) (s : State) (h_R : Allows R [.regs, .sys, .boot, .mon, .hif, .recd, .pwm, .cle, .tim, .eth]) (h_s : Keeps R b₀ s) : OKeeps R b₀ (execPllLock k t s) := by
  unfold execPllLock
  repeat' first
    | with_reducible assumption
    | with_reducible apply pllLock_keeps
    | with_reducible apply OKeeps.answer

theorem gnssClockLost_keeps {R : Part → Prop} {b₀ : State} (s : State) (t : Nat) (h_R : Allows R [.regs, .kin, .gns]) (h_s : Keeps R b₀ s) : Keeps R b₀ (gnssClockLost s t) := by
  unfold gnssClockLost
  have r_kin : R .kin := h_R _ (by decide)
  repeat' first
    | with_reducible assumption
    | (refine Allows.sub h_R ?_; decide)
    | with_reducible apply modGns_keeps
    | with_reducible apply gnssLost_keeps
    | with_reducible apply bump_keeps
    | with_reducible apply Keeps.foldl
    | intro _ _ _
    | with_reducible apply Keeps.ite
    | extract_lets
    | fail_if_no_progress (with_reducible refine Keeps.put_kin r_kin ?_)

theorem pllUnlock_keeps {R : Part → Prop} {b₀ : State} (s : State) (k t : Nat) (h_R : Allows R [.regs, .tables, .kin, .sys, .boot, .mon, .hif, .recd, .sch, .map, .act, .drv, .fjl, .pwm, .cle, .enc, .gns, .tim, .eth, .can, .now, .free]) (h_s : Keeps R b₀ s) : Keeps R b₀ (pllUnlock s k t) := by
  unfold pllUnlock
  have r_sys : R .sys := h_R _ (by decide)
  repeat' first
    | with_reducible assumption
    | (refine Allows.sub h_R ?_; decide)
    | with_reducible apply gnssClockLost_keeps
    | with_reducible apply clockLost_keeps
    | with_reducible apply deviceReset_keeps
    | with_reducible apply supervisionTrip_keeps
    | with_reducible apply setB_keeps
    | with_reducible apply Keeps.ite
    | extract_lets
    | fail_if_no_progress (with_reducible refine Keeps.put_sys r_sys ?_)

theorem execPllUnlock_keeps {R : Part → Prop} {b₀ : State} (k t : Nat) (s : State) (h_R : Allows R [.regs, .tables, .kin, .sys, .boot, .mon, .hif, .recd, .sch, .map, .act, .drv, .fjl, .pwm, .cle, .enc, .gns, .tim, .eth, .can, .now, .free]) (h_s : Keeps R b₀ s) : OKeeps R b₀ (execPllUnlock k t s) := by
  unfold execPllUnlock
  repeat' first
    | with_reducible assumption
    | with_reducible apply pllUnlock_keeps
    | with_reducible apply OKeeps.answer

theorem countDisc_keeps {R : Part → Prop} {b₀ : State} (s : State) (x units : Nat) (h_R : Allows R [.regs]) (h_s : Keeps R b₀ s) : Keeps R b₀ (countDisc s x units) := by
  unfold countDisc
  repeat' first
    | with_reducible assumption
    | with_reducible apply bump_keeps

theorem crossTimeout_keeps {R : Part → Prop} {b₀ : State} (s : State) (x units : Nat) (h_R : Allows R [.regs, .hif, .recd]) (h_s : Keeps R b₀ s) : Keeps R b₀ (crossTimeout s x units) := by
  unfold crossTimeout
  have r_hif : R .hif := h_R _ (by decide)
  repeat' first
    | with_reducible assumption
    | (refine Allows.sub h_R ?_; decide)
    | with_reducible apply countDisc_keeps
    | with_reducible apply record_keeps
    | with_reducible apply bump_keeps
    | with_reducible apply setB_keeps
    | with_reducible apply Keeps.ite
    | extract_lets
    | fail_if_no_progress (with_reducible refine Keeps.put_hif r_hif ?_)

theorem execCrossTimeout_keeps {R : Part → Prop} {b₀ : State} (x units : Nat) (s : State) (h_R : Allows R [.regs, .hif, .recd]) (h_s : Keeps R b₀ s) : OKeeps R b₀ (execCrossTimeout x units s) := by
  unfold execCrossTimeout
  repeat' first
    | with_reducible assumption
    | with_reducible apply crossTimeout_keeps
    | with_reducible apply OKeeps.answer

theorem crossResync_keeps {R : Part → Prop} {b₀ : State} (s : State) (x units : Nat) (h_R : Allows R [.regs, .recd]) (h_s : Keeps R b₀ s) : Keeps R b₀ (crossResync s x units) := by
  unfold crossResync
  repeat' first
    | with_reducible assumption
    | (refine Allows.sub h_R ?_; decide)
    | with_reducible apply countDisc_keeps
    | with_reducible apply record_keeps
    | with_reducible apply bump_keeps
    | with_reducible apply setB_keeps
    | with_reducible apply setF_keeps
    | with_reducible apply Keeps.ite

theorem execCrossResync_keeps {R : Part → Prop} {b₀ : State} (x units : Nat) (s : State) (h_R : Allows R [.regs, .recd]) (h_s : Keeps R b₀ s) : OKeeps R b₀ (execCrossResync x units s) := by
  unfold execCrossResync
  repeat' first
    | with_reducible assumption
    | with_reducible apply crossResync_keeps
    | with_reducible apply OKeeps.answer

end Sys2Proof.Machine
end

