-- ==== Sys2Proof/Laws/KeepsView.lean ====
section
/-!
SUPPORT. Sys2Proof/Laws/KeepsView.lean: the operations of Machine/View.lean keep what `Keeps` names.
-/
namespace Sys2Proof.Machine

theorem winSet_keeps {R : Part → Prop} {b₀ : State} (s : State) (h i : Nat) (v : Word) (h_R : Allows R [.hif]) (h_s : Keeps R b₀ s) : Keeps R b₀ (winSet s h i v) := by
  unfold winSet
  repeat' first
    | with_reducible assumption
    | with_reducible apply modSlot_keeps

theorem winLatch_keeps {R : Part → Prop} {b₀ : State} (s : State) (h : Nat) (l : List (Nat × Word)) (h_R : Allows R [.hif]) (h_s : Keeps R b₀ s) : Keeps R b₀ (winLatch s h l) := by
  unfold winLatch
  repeat' first
    | with_reducible assumption
    | with_reducible apply winSet_keeps
    | with_reducible apply Keeps.foldl
    | intro _ _ _

theorem readReg_keeps {R : Part → Prop} {b₀ : State} (s : State) (full : Nat → Bool) (h : Nat) (peek : Bool) (i : Nat) (h_R : Allows R [.regs, .mon, .hif, .map]) (h_s : Keeps R b₀ s) : PKeeps R b₀ (readReg s full h peek i) := by
  unfold readReg
  repeat' first
    | with_reducible assumption
    | (refine Allows.sub h_R ?_; decide)
    | with_reducible apply winSet_keeps
    | with_reducible apply monRead_keeps
    | with_reducible apply modChMap_keeps
    | with_reducible apply modSlot_keeps
    | with_reducible apply setF_keeps
    | with_reducible apply wr_keeps
    | with_reducible apply PKeeps.fst
    | (refine PKeeps.of_eq ‹_› ?_)
    | extract_lets
    | split
    | intro _
    | fail_if_no_progress beta_reduce
    | with_reducible apply PKeeps.foldl
    | dsimp +zetaDelta only
    | with_reducible apply PKeeps.mk

end Sys2Proof.Machine
end

