-- ==== Sys2Proof/Laws/KeepsWrite.lean ====
section
/-!
SUPPORT. Sys2Proof/Laws/KeepsWrite.lean: the operations of Machine/Write.lean keep what `Keeps` names.
-/
namespace Sys2Proof.Machine

theorem gnsPut_keeps {R : Part → Prop} {b₀ : State} (s : State) (i : Nat) (v : Word) (h_R : Allows R [.gns]) (h_s : Keeps R b₀ s) : Keeps R b₀ (gnsPut s i v) := by
  unfold gnsPut
  have r_gns : R .gns := h_R _ (by decide)
  repeat' first
    | with_reducible assumption
    | with_reducible apply Keeps.ite
    | extract_lets
    | fail_if_no_progress (with_reducible refine Keeps.put_gns r_gns ?_)
    | split

theorem storeItem_keeps {R : Part → Prop} {b₀ : State} (s : State) (h i : Nat) (v : Word) (h_R : Allows R [.regs, .hif, .fjl, .gns]) (h_s : Keeps R b₀ s) : Keeps R b₀ (storeItem s h i v) := by
  unfold storeItem
  repeat' first
    | with_reducible assumption
    | (refine Allows.sub h_R ?_; decide)
    | with_reducible apply gnsPut_keeps
    | with_reducible apply winLatch_keeps
    | with_reducible apply winSet_keeps
    | with_reducible apply slotPin_keeps
    | with_reducible apply setFjlCfg_keeps
    | with_reducible apply commitReg_keeps
    | with_reducible apply Keeps.ite
    | extract_lets
    | split

theorem scrub_keeps {R : Part → Prop} {b₀ : State} (s : State) (i : Nat) (h_R : Allows R [.regs]) (h_s : Keeps R b₀ s) : Keeps R b₀ (scrub s i) := by
  unfold scrub
  repeat' first
    | with_reducible assumption
    | with_reducible apply wr_keeps
    | with_reducible apply Keeps.ite
    | extract_lets
    | split

theorem requestEffect_keeps {R : Part → Prop} {b₀ : State} (s0 s : State) (r : Res) (h_R : Allows R [.regs, .sys, .hif, .fjl]) (h_s0 : Keeps R b₀ s0) (h_s : Keeps R b₀ s) : Keeps R b₀ (requestEffect s0 s r) := by
  unfold requestEffect
  repeat' first
    | with_reducible assumption
    | (refine Allows.sub h_R ?_; decide)
    | with_reducible apply modHif_keeps
    | with_reducible apply recommand_keeps
    | with_reducible apply Keeps.foldl
    | intro _ _ _
    | with_reducible apply Keeps.ite

theorem kinMapEffect_keeps {R : Part → Prop} {b₀ : State} (s : State) (h i : Nat) (old v : Word) (h_R : Allows R [.regs, .kin, .recd, .map]) (h_s : Keeps R b₀ s) : Keeps R b₀ (kinMapEffect s h i old v) := by
  unfold kinMapEffect
  repeat' first
    | with_reducible assumption
    | (refine Allows.sub h_R ?_; decide)
    | with_reducible apply rasterGo_keeps
    | with_reducible apply startClear_keeps
    | with_reducible apply kinDisable_keeps
    | with_reducible apply kinEnable_keeps
    | with_reducible apply Keeps.ite

theorem resumeAll_keeps {R : Part → Prop} {b₀ : State} (s : State) (h : Nat) (h_R : Allows R [.regs, .sys, .sch]) (h_s : Keeps R b₀ s) : Keeps R b₀ (resumeAll s h) := by
  unfold resumeAll
  repeat' first
    | with_reducible assumption
    | (refine Allows.sub h_R ?_; decide)
    | with_reducible apply resumeLocal_keeps
    | with_reducible apply recommandOne_keeps
    | with_reducible apply Keeps.foldl
    | intro _ _ _
    | with_reducible apply Keeps.ite

theorem drvModeEffect_keeps {R : Part → Prop} {b₀ : State} (s : State) (c : Nat) (old v : Word) (h_R : Allows R [.regs, .sys, .sch, .drv]) (h_s : Keeps R b₀ s) : Keeps R b₀ (drvModeEffect s c old v) := by
  unfold drvModeEffect
  repeat' first
    | with_reducible assumption
    | (refine Allows.sub h_R ?_; decide)
    | with_reducible apply pairEffect_keeps
    | with_reducible apply modeEffect_keeps
    | with_reducible apply resumeLocal_keeps
    | with_reducible apply Keeps.ite

theorem drvEffect_keeps {R : Part → Prop} {b₀ : State} (s : State) (h i : Nat) (old v : Word) (h_R : Allows R [.regs, .sys, .recd, .sch, .drv]) (h_s : Keeps R b₀ s) : Keeps R b₀ (drvEffect s h i old v) := by
  unfold drvEffect
  repeat' first
    | with_reducible assumption
    | (refine Allows.sub h_R ?_; decide)
    | with_reducible apply drvModeEffect_keeps
    | with_reducible apply resumeAll_keeps
    | with_reducible apply clearGrpFlags_keeps
    | with_reducible apply clearChFlags_keeps
    | with_reducible apply setBase_keeps
    | with_reducible apply Keeps.ite

theorem resumeRing_keeps {R : Part → Prop} {b₀ : State} (s : State) (h r : Nat) (node : Option Nat) (h_R : Allows R [.sys, .sch, .fjl]) (h_s : Keeps R b₀ s) : Keeps R b₀ (resumeRing s h r node) := by
  unfold resumeRing
  repeat' first
    | with_reducible assumption
    | with_reducible apply resumeRemote_keeps
    | with_reducible apply Keeps.foldl
    | intro _ _ _

theorem ringEffect_keeps {R : Part → Prop} {b₀ : State} (s : State) (h i : Nat) (old v : Word) (h_R : Allows R [.regs, .sys, .sch, .act, .fjl]) (h_s : Keeps R b₀ s) : Keeps R b₀ (ringEffect s h i old v) := by
  unfold ringEffect
  repeat' first
    | with_reducible assumption
    | (refine Allows.sub h_R ?_; decide)
    | with_reducible apply resumeRing_keeps
    | with_reducible apply remoteSet_keeps
    | with_reducible apply safeWrite_keeps
    | with_reducible apply nodeClear_keeps
    | with_reducible apply heal_keeps
    | with_reducible apply sendCfgCh_keeps
    | with_reducible apply Keeps.ite

theorem pwmEffect_keeps {R : Part → Prop} {b₀ : State} (s : State) (i : Nat) (old v : Word) (h_R : Allows R [.regs, .pwm]) (h_s : Keeps R b₀ s) : Keeps R b₀ (pwmEffect s i old v) := by
  unfold pwmEffect
  repeat' first
    | with_reducible assumption
    | (refine Allows.sub h_R ?_; decide)
    | with_reducible apply pwmCtrlEffect_keeps
    | with_reducible apply resumePwm_keeps
    | with_reducible apply armLoadAll_keeps
    | with_reducible apply shadowWrite_keeps
    | with_reducible apply showPwm_keeps
    | with_reducible apply Keeps.ite
    | extract_lets
    | split

theorem encWrite_keeps {R : Part → Prop} {b₀ : State} (s : State) (i : Nat) (old v : Word) (h_R : Allows R [.regs, .enc, .free]) (h_s : Keeps R b₀ s) : Keeps R b₀ (encWrite s i old v) := by
  unfold encWrite
  repeat' first
    | with_reducible assumption
    | (refine Allows.sub h_R ?_; decide)
    | with_reducible apply encEffect_keeps
    | with_reducible apply imuRead_keeps
    | with_reducible apply imuXfer_keeps
    | with_reducible apply wheelFltClear_keeps
    | with_reducible apply portFltClear_keeps
    | with_reducible apply fresh_keeps
    | (refine fresh_keeps_eq ‹_› ?_ ?_)
    | with_reducible apply Keeps.ite

theorem alarmWrite_keeps {R : Part → Prop} {b₀ : State} (s : State) (h : Nat) (v : Word) (h_R : Allows R [.regs, .tables, .hif]) (h_s : Keeps R b₀ s) : Keeps R b₀ (alarmWrite s h v) := by
  unfold alarmWrite
  repeat' first
    | with_reducible assumption
    | (refine Allows.sub h_R ?_; decide)
    | with_reducible apply winSet_keeps
    | with_reducible apply clearAlarm_keeps

theorem writeEffect_keeps {R : Part → Prop} {b₀ : State} (s0 s1 s : State) (h i : Nat) (old v : Word) (h_R : Allows R [.regs, .tables, .kin, .sys, .mon, .hif, .recd, .sch, .map, .act, .drv, .fjl, .pwm, .cle, .enc, .gns, .tim, .eth, .can, .free]) (h_s0 : Keeps R b₀ s0) (h_s1 : Keeps R b₀ s1) (h_s : Keeps R b₀ s) : Keeps R b₀ (writeEffect s0 s1 s h i old v) := by
  unfold writeEffect
  repeat' first
    | with_reducible assumption
    | (refine Allows.sub h_R ?_; decide)
    | with_reducible apply alarmWrite_keeps
    | with_reducible apply encWrite_keeps
    | with_reducible apply pwmEffect_keeps
    | with_reducible apply ringEffect_keeps
    | with_reducible apply drvEffect_keeps
    | with_reducible apply kinMapEffect_keeps
    | with_reducible apply requestEffect_keeps
    | with_reducible apply brstWrite_keeps
    | with_reducible apply monEffect_keeps
    | with_reducible apply modMon_keeps
    | with_reducible apply canEffect_keeps
    | with_reducible apply ethEffect_keeps
    | with_reducible apply relayFaultClear_keeps
    | with_reducible apply timEffect_keeps
    | with_reducible apply cleEffect_keeps
    | with_reducible apply refreshProfile_keeps
    | with_reducible apply showPool_keeps
    | with_reducible apply Keeps.ite
    | extract_lets
    | split

theorem noteItem_keeps {R : Part → Prop} {b₀ : State} (s : State) (h : Nat) (w : WItem) (h_R : Allows R [.regs, .hif, .fjl, .gns]) (h_s : Keeps R b₀ s) : Keeps R b₀ (noteItem s h w) := by
  unfold noteItem
  repeat' first
    | with_reducible assumption
    | (refine Allows.sub h_R ?_; decide)
    | with_reducible apply scrub_keeps
    | with_reducible apply storeItem_keeps
    | with_reducible apply Keeps.ite

theorem takeItem_keeps {R : Part → Prop} {b₀ : State} (s0 s : State) (h : Nat) (w : WItem) (h_R : Allows R [.regs, .tables, .kin, .sys, .mon, .hif, .recd, .sch, .map, .act, .drv, .fjl, .pwm, .cle, .enc, .gns, .tim, .eth, .can, .free]) (h_s0 : Keeps R b₀ s0) (h_s : Keeps R b₀ s) : Keeps R b₀ (takeItem s0 s h w) := by
  unfold takeItem
  repeat' first
    | with_reducible assumption
    | (refine Allows.sub h_R ?_; decide)
    | with_reducible apply writeEffect_keeps
    | with_reducible apply scrub_keeps
    | with_reducible apply storeItem_keeps
    | with_reducible apply Keeps.ite

theorem preClear_keeps {R : Part → Prop} {b₀ : State} (s : State) (h : Nat) (l : List WItem) (h_R : Allows R [.regs, .hif, .fjl, .gns]) (h_s : Keeps R b₀ s) : Keeps R b₀ (preClear s h l) := by
  unfold preClear
  repeat' first
    | with_reducible assumption
    | with_reducible apply noteItem_keeps
    | with_reducible apply Keeps.foldl
    | intro _ _ _
    | with_reducible apply Keeps.ite

theorem takeItems_keeps {R : Part → Prop} {b₀ : State} (s : State) (h : Nat) (l : List WItem) (h_R : Allows R [.regs, .tables, .kin, .sys, .mon, .hif, .recd, .sch, .map, .act, .drv, .fjl, .pwm, .cle, .enc, .gns, .tim, .eth, .can, .free]) (h_s : Keeps R b₀ s) : Keeps R b₀ (takeItems s h l) := by
  unfold takeItems
  repeat' first
    | with_reducible assumption
    | with_reducible apply takeItem_keeps
    | with_reducible apply Keeps.foldl
    | intro _ _ _

theorem writeItems_keeps {R : Part → Prop} {b₀ : State} (s : State) (h : Nat) (l : List WItem) (h_R : Allows R [.regs, .tables, .kin, .sys, .mon, .hif, .recd, .sch, .map, .act, .drv, .fjl, .pwm, .cle, .enc, .gns, .tim, .eth, .can, .free]) (h_s : Keeps R b₀ s) : PKeeps R b₀ (writeItems s h l) := by
  unfold writeItems
  repeat' first
    | with_reducible assumption
    | with_reducible apply takeItems_keeps
    | with_reducible apply preClear_keeps
    | with_reducible apply PKeeps.fst
    | (refine PKeeps.of_eq ‹_› ?_)
    | extract_lets
    | split
    | intro _
    | fail_if_no_progress beta_reduce
    | with_reducible apply PKeeps.foldl
    | dsimp +zetaDelta only
    | with_reducible apply PKeeps.mk

theorem writeOne_keeps {R : Part → Prop} {b₀ : State} (s : State) (h i : Nat) (mask v : Word) (h_R : Allows R [.regs, .tables, .kin, .sys, .mon, .hif, .recd, .sch, .map, .act, .drv, .fjl, .pwm, .cle, .enc, .gns, .tim, .eth, .can, .free]) (h_s : Keeps R b₀ s) : Keeps R b₀ (writeOne s h i mask v) := by
  unfold writeOne
  repeat' first
    | with_reducible assumption
    | with_reducible apply writeItems_keeps
    | with_reducible apply PKeeps.fst
    | (refine PKeeps.of_eq ‹_› ?_)
    | with_reducible apply Keeps.ite

end Sys2Proof.Machine
end

