-- ==== Sys2Proof/Laws/KeepsHif.lean ====
section
/-!
SUPPORT. Sys2Proof/Laws/KeepsHif.lean: the operations of Machine/Hif.lean keep what `Keeps` names.
-/
namespace Sys2Proof.Machine

theorem ackResult_keeps {R : Part → Prop} {b₀ : State} (s : State) (h seq : Nat) (h_R : Allows R [.hif]) (h_s : Keeps R b₀ s) : Keeps R b₀ (ackResult s h seq) := by
  unfold ackResult
  repeat' first
    | with_reducible assumption
    | with_reducible apply modHif_keeps
    | with_reducible apply payOwed_keeps
    | with_reducible apply modSlot_keeps
    | with_reducible apply Keeps.ite

theorem unbindUdp_keeps {R : Part → Prop} {b₀ : State} (s : State) (h : Nat) (h_R : Allows R [.regs]) (h_s : Keeps R b₀ s) : Keeps R b₀ (unbindUdp s h) := by
  unfold unbindUdp
  repeat' first
    | with_reducible assumption
    | with_reducible apply wr_keeps
    | with_reducible apply Keeps.ite

theorem putFrame_keeps {R : Part → Prop} {b₀ : State} (s : State) (h : Nat) (x : Header) (payload : List Byte) (status : Nat) (h_R : Allows R [.hif]) (h_s : Keeps R b₀ s) : Keeps R b₀ (putFrame s h x payload status) := by
  unfold putFrame
  have r_hif : R .hif := h_R _ (by decide)
  repeat' first
    | with_reducible assumption
    | with_reducible apply modSlot_keeps
    | with_reducible apply Keeps.ite
    | extract_lets
    | fail_if_no_progress (with_reducible refine Keeps.put_hif r_hif ?_)

theorem rejectFrame_keeps {R : Part → Prop} {b₀ : State} (s : State) (h : Nat) (x : Header) (payload : List Byte) (status : Nat) (h_R : Allows R [.regs, .hif]) (h_s : Keeps R b₀ s) : Keeps R b₀ (rejectFrame s h x payload status) := by
  unfold rejectFrame
  repeat' first
    | with_reducible assumption
    | (refine Allows.sub h_R ?_; decide)
    | with_reducible apply putFrame_keeps
    | with_reducible apply unbindUdp_keeps
    | with_reducible apply postResult_keeps
    | with_reducible apply bump_keeps
    | with_reducible apply Keeps.ite

theorem frameArrives_keeps {R : Part → Prop} {b₀ : State} (s : State) (h t : Nat) (x : Header) (payload : List Byte) (bad : Bool) (h_R : Allows R [.regs, .hif]) (h_s : Keeps R b₀ s) : Keeps R b₀ (frameArrives s h t x payload bad) := by
  unfold frameArrives
  repeat' first
    | with_reducible assumption
    | (refine Allows.sub h_R ?_; decide)
    | with_reducible apply rejectFrame_keeps
    | with_reducible apply putFrame_keeps
    | with_reducible apply ackResult_keeps
    | with_reducible apply modSlot_keeps
    | with_reducible apply bump_keeps
    | with_reducible apply Keeps.ite

theorem unitFrames_keeps {R : Part → Prop} {b₀ : State} (n : Nat) (s : State) (h t : Nat) (full : Bool) (l : List Byte) (h_R : Allows R [.regs, .hif]) (h_s : Keeps R b₀ s) :
    Keeps R b₀ (unitFrames n s h t full l) := by
  induction n generalizing s full l with
  | zero => exact h_s
  | succ n ih =>
    unfold unitFrames
    repeat' first
      | (refine Allows.sub h_R ?_; decide)
      | with_reducible assumption
      | with_reducible apply ih
      | with_reducible apply frameArrives_keeps
      | extract_lets
      | split

theorem unitArrives_keeps {R : Part → Prop} {b₀ : State} (s : State) (h t : Nat) (b : List Byte) (h_R : Allows R [.regs, .hif]) (h_s : Keeps R b₀ s) : Keeps R b₀ (unitArrives s h t b) := by
  unfold unitArrives
  repeat' first
    | with_reducible assumption
    | with_reducible apply unitFrames_keeps

theorem countUnbound_keeps {R : Part → Prop} {b₀ : State} (n : Nat) (s : State) (l : List Byte) (h_R : Allows R [.regs]) (h_s : Keeps R b₀ s) : Keeps R b₀ (countUnbound n s l) := by
  induction n generalizing s l with
  | zero => exact h_s
  | succ n ih =>
    unfold countUnbound
    repeat' first
      | (refine Allows.sub h_R ?_; decide)
      | with_reducible assumption
      | with_reducible apply ih
      | with_reducible apply bump_keeps
      | extract_lets
      | split

theorem winReadDone_keeps {R : Part → Prop} {b₀ : State} (s : State) (a n : Nat) (h_R : Allows R [.hif, .recd]) (h_s : Keeps R b₀ s) : Keeps R b₀ (winReadDone s a n) := by
  unfold winReadDone
  repeat' first
    | with_reducible assumption
    | (refine Allows.sub h_R ?_; decide)
    | with_reducible apply modHif_keeps
    | with_reducible apply modRec_keeps
    | with_reducible apply Keeps.ite

theorem cursorWrite_keeps {R : Part → Prop} {b₀ : State} (s : State) (v : Word) (h_R : Allows R [.regs, .recd]) (h_s : Keeps R b₀ s) : Keeps R b₀ (cursorWrite s v) := by
  unfold cursorWrite
  repeat' first
    | with_reducible assumption
    | (refine Allows.sub h_R ?_; decide)
    | with_reducible apply releaseFreeze_keeps
    | with_reducible apply freezeLog_keeps
    | with_reducible apply modRec_keeps
    | with_reducible apply Keeps.ite

theorem winWrite_keeps {R : Part → Prop} {b₀ : State} (s : State) (a : Nat) (v : Word) (h_R : Allows R [.regs, .hif, .recd]) (h_s : Keeps R b₀ s) : Keeps R b₀ (winWrite s a v) := by
  unfold winWrite
  repeat' first
    | with_reducible assumption
    | (refine Allows.sub h_R ?_; decide)
    | with_reducible apply cursorWrite_keeps
    | with_reducible apply ackResult_keeps
    | with_reducible apply Keeps.ite
    | extract_lets
    | split

theorem winWrites_keeps {R : Part → Prop} {b₀ : State} (s : State) (a : Nat) (l : List Word) (h_R : Allows R [.regs, .hif, .recd]) (h_s : Keeps R b₀ s) : Keeps R b₀ (winWrites s a l) := by
  induction l generalizing s a with
  | nil => unfold winWrites; exact h_s
  | cons v l ih => unfold winWrites; exact ih _ _ (winWrite_keeps _ _ _ (h_R.sub (by decide)) h_s)

theorem spiEffect_keeps {R : Part → Prop} {b₀ : State} (s : State) (m : List Byte) (t : Nat) (h_R : Allows R [.regs, .hif, .recd]) (h_s : Keeps R b₀ s) : Keeps R b₀ (spiEffect s m t) := by
  unfold spiEffect
  repeat' first
    | with_reducible assumption
    | (refine Allows.sub h_R ?_; decide)
    | with_reducible apply winWrites_keeps
    | with_reducible apply winReadDone_keeps
    | with_reducible apply countUnbound_keeps
    | with_reducible apply unitArrives_keeps
    | with_reducible apply Keeps.ite
    | extract_lets
    | split

theorem spiTransaction_keeps {R : Part → Prop} {b₀ : State} (s : State) (m : List Byte) (t : Nat) (h_R : Allows R [.regs, .hif, .recd, .free]) (h_s : Keeps R b₀ s) : Keeps R b₀ (spiTransaction s m t) := by
  unfold spiTransaction
  repeat' first
    | with_reducible assumption
    | (refine Allows.sub h_R ?_; decide)
    | with_reducible apply spiEffect_keeps
    | with_reducible apply modHif_keeps
    | with_reducible apply fresh_keeps
    | (refine fresh_keeps_eq ‹_› ?_ ?_)
    | with_reducible apply Keeps.ite

theorem execWinRead_keeps {R : Part → Prop} {b₀ : State} (mosi : List Byte) (t : Nat) (s : State) (h_R : Allows R [.regs, .hif, .recd, .free]) (h_s : Keeps R b₀ s) : OKeeps R b₀ (execWinRead mosi t s) := by
  unfold execWinRead
  repeat' first
    | with_reducible assumption
    | with_reducible apply spiTransaction_keeps
    | with_reducible apply OKeeps.answer

theorem execWinWrite_keeps {R : Part → Prop} {b₀ : State} (mosi : List Byte) (t : Nat) (s : State) (h_R : Allows R [.regs, .hif, .recd, .free]) (h_s : Keeps R b₀ s) : OKeeps R b₀ (execWinWrite mosi t s) := by
  unfold execWinWrite
  repeat' first
    | with_reducible assumption
    | with_reducible apply spiTransaction_keeps
    | with_reducible apply OKeeps.answer

theorem execReqWrite_keeps {R : Part → Prop} {b₀ : State} (mosi : List Byte) (t : Nat) (s : State) (h_R : Allows R [.regs, .hif, .recd, .free]) (h_s : Keeps R b₀ s) : OKeeps R b₀ (execReqWrite mosi t s) := by
  unfold execReqWrite
  repeat' first
    | with_reducible assumption
    | with_reducible apply spiTransaction_keeps
    | with_reducible apply OKeeps.answer

theorem execRspRead_keeps {R : Part → Prop} {b₀ : State} (mosi : List Byte) (t : Nat) (s : State) (h_R : Allows R [.regs, .hif, .recd, .free]) (h_s : Keeps R b₀ s) : OKeeps R b₀ (execRspRead mosi t s) := by
  unfold execRspRead
  repeat' first
    | with_reducible assumption
    | with_reducible apply spiTransaction_keeps
    | with_reducible apply OKeeps.answer

theorem execWinAck_keeps {R : Part → Prop} {b₀ : State} (seq t : Nat) (s : State) (h_R : Allows R [.regs, .hif, .recd, .free]) (h_s : Keeps R b₀ s) : OKeeps R b₀ (execWinAck seq t s) := by
  unfold execWinAck
  repeat' first
    | with_reducible assumption
    | with_reducible apply spiTransaction_keeps
    | with_reducible apply OKeeps.answer

theorem execWindowFreeze_keeps {R : Part → Prop} {b₀ : State} (idx : Nat) (freeze : Bool) (t : Nat) (s : State) (h_R : Allows R [.regs, .hif, .recd, .free]) (h_s : Keeps R b₀ s) : OKeeps R b₀ (execWindowFreeze idx freeze t s) := by
  unfold execWindowFreeze
  repeat' first
    | with_reducible assumption
    | with_reducible apply spiTransaction_keeps
    | with_reducible apply OKeeps.answer

theorem udpFrame_keeps {R : Part → Prop} {b₀ : State} (s : State) (ip port : Word) (t : Nat) (x : Header) (payload : List Byte) (cut full : Bool) (h_R : Allows R [.regs, .hif]) (h_s : Keeps R b₀ s) : PKeeps R b₀ (udpFrame s ip port t x payload cut full) := by
  unfold udpFrame
  repeat' first
    | with_reducible assumption
    | (refine Allows.sub h_R ?_; decide)
    | with_reducible apply frameArrives_keeps
    | with_reducible apply sendResults_keeps
    | with_reducible apply bump_keeps
    | with_reducible apply wr_keeps
    | with_reducible apply PKeeps.fst
    | (refine PKeeps.of_eq ‹_› ?_)
    | extract_lets
    | split
    | intro _
    | fail_if_no_progress beta_reduce
    | with_reducible apply PKeeps.foldl
    | dsimp +zetaDelta only
    | with_reducible apply PKeeps.mk

theorem udpFrames_keeps {R : Part → Prop} {b₀ : State} (n : Nat) (s : State) (ip port : Word) (t : Nat) (full : Bool) (l : List Byte)
    (h_R : Allows R [.regs, .hif]) (h_s : Keeps R b₀ s) : Keeps R b₀ (udpFrames n s ip port t full l) := by
  induction n generalizing s full l with
  | zero => exact h_s
  | succ n ih =>
    unfold udpFrames
    repeat' first
      | (refine Allows.sub h_R ?_; decide)
      | with_reducible assumption
      | with_reducible apply ih
      | with_reducible apply PKeeps.fst
      | with_reducible apply udpFrame_keeps
      | extract_lets
      | split

theorem udpDatagram_keeps {R : Part → Prop} {b₀ : State} (s : State) (ip port : Word) (b : List Byte) (t : Nat) (h_R : Allows R [.regs, .hif]) (h_s : Keeps R b₀ s) : Keeps R b₀ (udpDatagram s ip port b t) := by
  unfold udpDatagram
  repeat' first
    | with_reducible assumption
    | with_reducible apply udpFrames_keeps
    | with_reducible apply Keeps.ite

theorem execUdpDatagram_keeps {R : Part → Prop} {b₀ : State} (ip port : Word) (b : List Byte) (t : Nat) (s : State) (h_R : Allows R [.regs, .hif]) (h_s : Keeps R b₀ s) : OKeeps R b₀ (execUdpDatagram ip port b t s) := by
  unfold execUdpDatagram
  repeat' first
    | with_reducible assumption
    | with_reducible apply udpDatagram_keeps
    | with_reducible apply OKeeps.answer

theorem dropMessage_keeps {R : Part → Prop} {b₀ : State} (s : State) (h : Nat) (h_R : Allows R [.regs, .hif]) (h_s : Keeps R b₀ s) : Keeps R b₀ (dropMessage s h) := by
  unfold dropMessage
  repeat' first
    | with_reducible assumption
    | (refine Allows.sub h_R ?_; decide)
    | with_reducible apply modSlot_keeps
    | with_reducible apply bump_keeps
    | with_reducible apply Keeps.ite

theorem segment_keeps {R : Part → Prop} {b₀ : State} (s : State) (h t : Nat) (b : List Byte) (h_R : Allows R [.regs, .hif]) (h_s : Keeps R b₀ s) : Keeps R b₀ (segment s h t b) := by
  unfold segment
  repeat' first
    | with_reducible assumption
    | (refine Allows.sub h_R ?_; decide)
    | with_reducible apply dropMessage_keeps
    | with_reducible apply unitArrives_keeps
    | with_reducible apply modSlot_keeps
    | with_reducible apply bump_keeps
    | with_reducible apply Keeps.ite

theorem canbSegment_keeps {R : Part → Prop} {b₀ : State} (s : State) (t : Nat) (b : List Byte) (h_R : Allows R [.regs, .hif]) (h_s : Keeps R b₀ s) : Keeps R b₀ (canbSegment s t b) := by
  unfold canbSegment
  repeat' first
    | with_reducible assumption
    | (refine Allows.sub h_R ?_; decide)
    | with_reducible apply segment_keeps
    | with_reducible apply bump_keeps
    | with_reducible apply Keeps.ite
    | extract_lets
    | split

theorem execCanbSegment_keeps {R : Part → Prop} {b₀ : State} (b : List Byte) (t : Nat) (s : State) (h_R : Allows R [.regs, .hif]) (h_s : Keeps R b₀ s) : OKeeps R b₀ (execCanbSegment b t s) := by
  unfold execCanbSegment
  repeat' first
    | with_reducible assumption
    | with_reducible apply canbSegment_keeps
    | with_reducible apply OKeeps.answer

theorem segmentTimeout_keeps {R : Part → Prop} {b₀ : State} (s : State) (t : Nat) (h_R : Allows R [.regs, .hif]) (h_s : Keeps R b₀ s) : Keeps R b₀ (segmentTimeout s t) := by
  unfold segmentTimeout
  repeat' first
    | with_reducible assumption
    | with_reducible apply dropMessage_keeps
    | with_reducible apply Keeps.ite
    | extract_lets
    | split

theorem execSegmentTimeout_keeps {R : Part → Prop} {b₀ : State} (t : Nat) (s : State) (h_R : Allows R [.regs, .hif]) (h_s : Keeps R b₀ s) : OKeeps R b₀ (execSegmentTimeout t s) := by
  unfold execSegmentTimeout
  repeat' first
    | with_reducible assumption
    | with_reducible apply segmentTimeout_keeps
    | with_reducible apply OKeeps.answer

theorem execKeepAliveExpiry_keeps {R : Part → Prop} {b₀ : State} (h t : Nat) (s : State) (h_R : Allows R [.regs, .sys, .boot, .hif, .recd, .sch, .fjl, .pwm, .free]) (h_s : Keeps R b₀ s) : OKeeps R b₀ (execKeepAliveExpiry h t s) := by
  unfold execKeepAliveExpiry
  repeat' first
    | with_reducible assumption
    | with_reducible apply detach_keeps
    | with_reducible apply OKeeps.answer
    | with_reducible apply OKeeps.next
    | extract_lets
    | split

theorem hifBoundary_keeps {R : Part → Prop} {b₀ : State} (s : State) (h_R : Allows R [.regs, .sys, .boot, .hif, .recd, .sch, .fjl, .pwm, .free]) (h_s : Keeps R b₀ s) : Keeps R b₀ (hifBoundary s) := by
  unfold hifBoundary
  repeat' first
    | with_reducible assumption
    | (refine Allows.sub h_R ?_; decide)
    | with_reducible apply segmentTimeout_keeps
    | with_reducible apply detach_keeps
    | with_reducible apply payOwed_keeps
    | with_reducible apply postDeferred_keeps
    | with_reducible apply Keeps.foldl
    | intro _ _ _
    | with_reducible apply Keeps.ite

theorem attachSlot_keeps {R : Part → Prop} {b₀ : State} (s : State) (h role ka : Nat) (h_R : Allows R [.regs, .hif]) (h_s : Keeps R b₀ s) : Keeps R b₀ (attachSlot s h role ka) := by
  unfold attachSlot
  repeat' first
    | with_reducible assumption
    | (refine Allows.sub h_R ?_; decide)
    | with_reducible apply showHif_keeps
    | with_reducible apply showCan_keeps
    | with_reducible apply modSlot_keeps
    | with_reducible apply setB_keeps
    | with_reducible apply setF_keeps
    | with_reducible apply Keeps.ite

theorem tcConnect_keeps {R : Part → Prop} {b₀ : State} (s : State) (h_R : Allows R [.regs, .sys, .hif, .recd, .sch, .fjl, .pwm, .free]) (h_s : Keeps R b₀ s) : Keeps R b₀ (tcConnect s) := by
  unfold tcConnect
  repeat' first
    | with_reducible assumption
    | (refine Allows.sub h_R ?_; decide)
    | with_reducible apply attachSlot_keeps
    | with_reducible apply leaseCmd_keeps
    | with_reducible apply RKeeps.state
    | with_reducible apply Keeps.ite
    | extract_lets
    | split

theorem execTcConnect_keeps {R : Part → Prop} {b₀ : State} (s : State) (h_R : Allows R [.regs, .sys, .hif, .recd, .sch, .fjl, .pwm, .free]) (h_s : Keeps R b₀ s) : OKeeps R b₀ (execTcConnect s) := by
  unfold execTcConnect
  repeat' first
    | with_reducible assumption
    | with_reducible apply tcConnect_keeps
    | with_reducible apply OKeeps.answer
    | with_reducible apply OKeeps.next

theorem tcDisconnect_keeps {R : Part → Prop} {b₀ : State} (s : State) (h_R : Allows R [.regs, .sys, .boot, .hif, .recd, .sch, .fjl, .pwm, .free]) (h_s : Keeps R b₀ s) : Keeps R b₀ (tcDisconnect s) := by
  unfold tcDisconnect
  repeat' first
    | with_reducible assumption
    | (refine Allows.sub h_R ?_; decide)
    | with_reducible apply detach_keeps
    | with_reducible apply fresh_keeps
    | (refine fresh_keeps_eq ‹_› ?_ ?_)
    | with_reducible apply Keeps.ite
    | extract_lets
    | split

theorem execTcDisconnect_keeps {R : Part → Prop} {b₀ : State} (s : State) (h_R : Allows R [.regs, .sys, .boot, .hif, .recd, .sch, .fjl, .pwm, .free]) (h_s : Keeps R b₀ s) : OKeeps R b₀ (execTcDisconnect s) := by
  unfold execTcDisconnect
  repeat' first
    | with_reducible assumption
    | with_reducible apply tcDisconnect_keeps
    | with_reducible apply OKeeps.answer
    | with_reducible apply OKeeps.next

end Sys2Proof.Machine
end

