-- ==== Sys2Proof/Laws/KeepsCmds.lean ====
section
/-!
SUPPORT. Sys2Proof/Laws/KeepsCmds.lean: the operations of Machine/Cmds.lean keep what `Keeps` names.
-/
namespace Sys2Proof.Machine

theorem plain_keeps {R : Part → Prop} {b₀ : State} (r : Reply) (h_R : Allows R []) (h_r : RKeeps R b₀ r) : CKeeps R b₀ (plain r) := by
  unfold plain
  repeat' first
    | with_reducible assumption
    | with_reducible apply RKeeps.state
    | with_reducible apply CKeeps.r
    | extract_lets
    | split
    | intro _
    | fail_if_no_progress beta_reduce
    | dsimp +zetaDelta only
    | with_reducible apply RKeeps.mk
    | with_reducible apply CKeeps.mk

theorem okBody_keeps {R : Part → Prop} {b₀ : State} (s : State) (b : List Byte) (h_R : Allows R []) (h_s : Keeps R b₀ s) : RKeeps R b₀ (okBody s b) := by
  unfold okBody
  repeat' first
    | with_reducible assumption
    | with_reducible apply RKeeps.state
    | extract_lets
    | split
    | intro _
    | fail_if_no_progress beta_reduce
    | dsimp +zetaDelta only
    | with_reducible apply RKeeps.mk

theorem respond_keeps {R : Part → Prop} {b₀ : State} (s : State) (h : Nat) (f : Frame) (o : CmdOut) (w : Option Nat) (h_R : Allows R [.regs, .hif]) (h_s : Keeps R b₀ s) (h_o : CKeeps R b₀ o) : Keeps R b₀ (respond s h f o w) := by
  unfold respond
  repeat' first
    | with_reducible assumption
    | (refine Allows.sub h_R ?_; decide)
    | with_reducible apply postResult_keeps
    | with_reducible apply modSlot_keeps
    | with_reducible apply Keeps.ite
    | extract_lets
    | split

theorem runCmd_keeps {R : Part → Prop} {b₀ : State} (s : State) (h : Nat) (kind : Frame → Bool) (run : State → List Byte → CmdOut) (h_R : Allows R [.regs, .sys, .hif]) (h_s : Keeps R b₀ s) (h_run : ∀ t p, Keeps R b₀ t → CKeeps R b₀ (run t p)) : Keeps R b₀ (runCmd s h kind run) := by
  unfold runCmd
  have r_sys : R .sys := h_R _ (by decide)
  repeat' first
    | with_reducible assumption
    | (refine Allows.sub h_R ?_; decide)
    | with_reducible apply respond_keeps
    | with_reducible apply plain_keeps
    | with_reducible apply refuse_keeps
    | with_reducible apply modSlot_keeps
    | with_reducible apply RKeeps.state
    | with_reducible apply CKeeps.r
    | with_reducible apply Keeps.ite
    | (apply h_run)
    | extract_lets
    | fail_if_no_progress (with_reducible refine Keeps.put_sys r_sys ?_)
    | split
    | intro _
    | fail_if_no_progress beta_reduce
    | dsimp +zetaDelta only

theorem runPlain_keeps {R : Part → Prop} {b₀ : State} (s : State) (h code : Nat) (run : State → List Byte → Reply) (h_R : Allows R [.regs, .sys, .hif]) (h_s : Keeps R b₀ s) (h_run : ∀ t p, Keeps R b₀ t → RKeeps R b₀ (run t p)) : Keeps R b₀ (runPlain s h code run) := by
  unfold runPlain
  repeat' first
    | with_reducible assumption
    | with_reducible apply runCmd_keeps
    | with_reducible apply plain_keeps
    | with_reducible apply CKeeps.r
    | with_reducible apply Keeps.ite
    | (apply h_run)

theorem row_keeps {R : Part → Prop} {b₀ : State} (h : Nat) (s : State) (h_R : Allows R []) (h_s : Keeps R b₀ s) : OKeeps R b₀ (row h s) := by
  unfold row
  repeat' first
    | with_reducible assumption
    | with_reducible apply OKeeps.answer

theorem execNop_keeps {R : Part → Prop} {b₀ : State} (h : Nat) (s : State) (h_R : Allows R [.regs, .sys, .hif]) (h_s : Keeps R b₀ s) : OKeeps R b₀ (execNop h s) := by
  unfold execNop
  repeat' first
    | with_reducible assumption
    | (refine Allows.sub h_R ?_; decide)
    | with_reducible apply row_keeps
    | with_reducible apply runPlain_keeps
    | with_reducible apply okBody_keeps
    | with_reducible apply RKeeps.state
    | with_reducible apply OKeeps.answer
    | with_reducible apply OKeeps.next
    | extract_lets
    | split
    | intro _

theorem execIdentify_keeps {R : Part → Prop} {b₀ : State} (h : Nat) (s : State) (h_R : Allows R [.regs, .sys, .hif]) (h_s : Keeps R b₀ s) : OKeeps R b₀ (execIdentify h s) := by
  unfold execIdentify
  repeat' first
    | with_reducible assumption
    | (refine Allows.sub h_R ?_; decide)
    | with_reducible apply row_keeps
    | with_reducible apply runPlain_keeps
    | with_reducible apply okBody_keeps
    | with_reducible apply RKeeps.state
    | with_reducible apply OKeeps.answer
    | with_reducible apply OKeeps.next
    | extract_lets
    | split
    | intro _

theorem attachCmd_keeps {R : Part → Prop} {b₀ : State} (s : State) (h : Nat) (p : List Byte) (h_R : Allows R [.regs, .sys, .hif, .recd, .sch, .fjl, .pwm, .free]) (h_s : Keeps R b₀ s) : RKeeps R b₀ (attachCmd s h p) := by
  unfold attachCmd
  repeat' first
    | with_reducible assumption
    | (refine Allows.sub h_R ?_; decide)
    | with_reducible apply okBody_keeps
    | with_reducible apply attachSlot_keeps
    | with_reducible apply unbindUdp_keeps
    | with_reducible apply roleLeases_keeps
    | with_reducible apply refuse_keeps
    | with_reducible apply RKeeps.state
    | extract_lets
    | split
    | intro _
    | fail_if_no_progress beta_reduce
    | dsimp +zetaDelta only

theorem execAttach_keeps {R : Part → Prop} {b₀ : State} (h : Nat) (s : State) (h_R : Allows R [.regs, .sys, .hif, .recd, .sch, .fjl, .pwm, .free]) (h_s : Keeps R b₀ s) : OKeeps R b₀ (execAttach h s) := by
  unfold execAttach
  repeat' first
    | with_reducible assumption
    | (refine Allows.sub h_R ?_; decide)
    | with_reducible apply attachCmd_keeps
    | with_reducible apply row_keeps
    | with_reducible apply runPlain_keeps
    | with_reducible apply RKeeps.state
    | with_reducible apply OKeeps.answer
    | with_reducible apply OKeeps.next
    | extract_lets
    | split
    | intro _

theorem detachCmd_keeps {R : Part → Prop} {b₀ : State} (s : State) (h : Nat) (h_R : Allows R [.regs, .sys, .boot, .hif, .recd, .sch, .fjl, .pwm, .free]) (h_s : Keeps R b₀ s) : Keeps R b₀ (detachCmd s h) := by
  unfold detachCmd
  repeat' first
    | with_reducible assumption
    | (refine Allows.sub h_R ?_; decide)
    | with_reducible apply runPlain_keeps
    | with_reducible apply okBody_keeps
    | with_reducible apply detach_keeps
    | with_reducible apply RKeeps.state
    | with_reducible apply Keeps.ite
    | extract_lets
    | split
    | intro _

theorem execDetach_keeps {R : Part → Prop} {b₀ : State} (h : Nat) (s : State) (h_R : Allows R [.regs, .sys, .boot, .hif, .recd, .sch, .fjl, .pwm, .free]) (h_s : Keeps R b₀ s) : OKeeps R b₀ (execDetach h s) := by
  unfold execDetach
  repeat' first
    | with_reducible assumption
    | (refine Allows.sub h_R ?_; decide)
    | with_reducible apply detachCmd_keeps
    | with_reducible apply row_keeps

theorem execFence_keeps {R : Part → Prop} {b₀ : State} (h : Nat) (s : State) (h_R : Allows R [.regs, .sys, .hif]) (h_s : Keeps R b₀ s) : OKeeps R b₀ (execFence h s) := by
  unfold execFence
  repeat' first
    | with_reducible assumption
    | (refine Allows.sub h_R ?_; decide)
    | with_reducible apply row_keeps
    | with_reducible apply runPlain_keeps
    | with_reducible apply okBody_keeps
    | with_reducible apply RKeeps.state
    | with_reducible apply OKeeps.answer
    | with_reducible apply OKeeps.next
    | extract_lets
    | split
    | intro _

theorem repeatCmd_keeps {R : Part → Prop} {b₀ : State} (s : State) (h : Nat) (p : List Byte) (h_R : Allows R [.hif]) (h_s : Keeps R b₀ s) : RKeeps R b₀ (repeatCmd s h p) := by
  unfold repeatCmd
  repeat' first
    | with_reducible assumption
    | (refine Allows.sub h_R ?_; decide)
    | with_reducible apply okBody_keeps
    | with_reducible apply refuse_keeps
    | with_reducible apply sendResults_keeps
    | with_reducible apply RKeeps.state
    | extract_lets
    | split

theorem execRspRepeat_keeps {R : Part → Prop} {b₀ : State} (h : Nat) (s : State) (h_R : Allows R [.regs, .sys, .hif]) (h_s : Keeps R b₀ s) : OKeeps R b₀ (execRspRepeat h s) := by
  unfold execRspRepeat
  repeat' first
    | with_reducible assumption
    | (refine Allows.sub h_R ?_; decide)
    | with_reducible apply repeatCmd_keeps
    | with_reducible apply row_keeps
    | with_reducible apply runPlain_keeps
    | with_reducible apply RKeeps.state
    | with_reducible apply OKeeps.answer
    | with_reducible apply OKeeps.next
    | extract_lets
    | split
    | intro _

theorem notifyCfg_keeps {R : Part → Prop} {b₀ : State} (s : State) (h : Nat) (p : List Byte) (h_R : Allows R [.regs]) (h_s : Keeps R b₀ s) : RKeeps R b₀ (notifyCfg s h p) := by
  unfold notifyCfg
  repeat' first
    | with_reducible assumption
    | (refine Allows.sub h_R ?_; decide)
    | with_reducible apply okBody_keeps
    | with_reducible apply refuse_keeps
    | with_reducible apply setF_keeps
    | with_reducible apply RKeeps.state
    | extract_lets
    | split

theorem execNotifyCfg_keeps {R : Part → Prop} {b₀ : State} (h : Nat) (s : State) (h_R : Allows R [.regs, .sys, .hif]) (h_s : Keeps R b₀ s) : OKeeps R b₀ (execNotifyCfg h s) := by
  unfold execNotifyCfg
  repeat' first
    | with_reducible assumption
    | (refine Allows.sub h_R ?_; decide)
    | with_reducible apply notifyCfg_keeps
    | with_reducible apply row_keeps
    | with_reducible apply runPlain_keeps
    | with_reducible apply RKeeps.state
    | with_reducible apply OKeeps.answer
    | with_reducible apply OKeeps.next
    | extract_lets
    | split
    | intro _

theorem readRegs_keeps {R : Part → Prop} {b₀ : State} (h : Nat) (peek : Bool) (s : State) (l : List Nat) (h_R : Allows R [.regs, .mon, .hif, .map]) (h_s : Keeps R b₀ s) : PKeeps R b₀ (readRegs h peek s l) := by
  unfold readRegs
  repeat' first
    | with_reducible assumption
    | with_reducible apply readReg_keeps
    | with_reducible apply PKeeps.fst
    | (refine PKeeps.of_eq ‹_› ?_)
    | with_reducible apply Keeps.foldl
    | intro _ _ _
    | extract_lets
    | split
    | intro _
    | fail_if_no_progress beta_reduce
    | with_reducible apply PKeeps.foldl
    | dsimp +zetaDelta only
    | with_reducible apply PKeeps.mk

theorem paramRead_keeps {R : Part → Prop} {b₀ : State} (s : State) (h : Nat) (p : List Byte) (h_R : Allows R [.regs, .mon, .hif, .map]) (h_s : Keeps R b₀ s) : RKeeps R b₀ (paramRead s h p) := by
  unfold paramRead
  repeat' first
    | with_reducible assumption
    | (refine Allows.sub h_R ?_; decide)
    | with_reducible apply readRegs_keeps
    | with_reducible apply refuse_keeps
    | with_reducible apply PKeeps.fst
    | (refine PKeeps.of_eq ‹_› ?_)
    | with_reducible apply RKeeps.state
    | extract_lets
    | split
    | intro _
    | fail_if_no_progress beta_reduce
    | with_reducible apply PKeeps.foldl
    | dsimp +zetaDelta only
    | with_reducible apply PKeeps.mk
    | with_reducible apply RKeeps.mk

theorem execParamRead_keeps {R : Part → Prop} {b₀ : State} (h : Nat) (s : State) (h_R : Allows R [.regs, .sys, .mon, .hif, .map]) (h_s : Keeps R b₀ s) : OKeeps R b₀ (execParamRead h s) := by
  unfold execParamRead
  repeat' first
    | with_reducible assumption
    | (refine Allows.sub h_R ?_; decide)
    | with_reducible apply paramRead_keeps
    | with_reducible apply row_keeps
    | with_reducible apply runPlain_keeps
    | with_reducible apply RKeeps.state
    | with_reducible apply OKeeps.answer
    | with_reducible apply OKeeps.next
    | extract_lets
    | split
    | intro _

theorem paramWrite_keeps {R : Part → Prop} {b₀ : State} (s : State) (h : Nat) (p : List Byte) (h_R : Allows R [.regs, .tables, .kin, .sys, .mon, .hif, .recd, .sch, .map, .act, .drv, .fjl, .pwm, .cle, .enc, .gns, .tim, .eth, .can, .free]) (h_s : Keeps R b₀ s) : CKeeps R b₀ (paramWrite s h p) := by
  unfold paramWrite
  repeat' first
    | with_reducible assumption
    | (refine Allows.sub h_R ?_; decide)
    | with_reducible apply plain_keeps
    | with_reducible apply writeItems_keeps
    | with_reducible apply PKeeps.fst
    | (refine PKeeps.of_eq ‹_› ?_)
    | with_reducible apply RKeeps.state
    | with_reducible apply CKeeps.r
    | extract_lets
    | split
    | intro _
    | fail_if_no_progress beta_reduce
    | with_reducible apply PKeeps.foldl
    | dsimp +zetaDelta only
    | with_reducible apply PKeeps.mk
    | with_reducible apply RKeeps.mk
    | with_reducible apply CKeeps.mk

theorem execParamWrite_keeps {R : Part → Prop} {b₀ : State} (h : Nat) (s : State) (h_R : Allows R [.regs, .tables, .kin, .sys, .mon, .hif, .recd, .sch, .map, .act, .drv, .fjl, .pwm, .cle, .enc, .gns, .tim, .eth, .can, .free]) (h_s : Keeps R b₀ s) : OKeeps R b₀ (execParamWrite h s) := by
  unfold execParamWrite
  repeat' first
    | with_reducible assumption
    | (refine Allows.sub h_R ?_; decide)
    | with_reducible apply paramWrite_keeps
    | with_reducible apply row_keeps
    | with_reducible apply runCmd_keeps
    | with_reducible apply CKeeps.r
    | with_reducible apply OKeeps.answer
    | with_reducible apply OKeeps.next
    | extract_lets
    | split
    | intro _

theorem tableRead_keeps {R : Part → Prop} {b₀ : State} (s : State) (p : List Byte) (h_R : Allows R [.free]) (h_s : Keeps R b₀ s) : RKeeps R b₀ (tableRead s p) := by
  unfold tableRead
  repeat' first
    | with_reducible assumption
    | (refine Allows.sub h_R ?_; decide)
    | with_reducible apply okBody_keeps
    | with_reducible apply refuse_keeps
    | with_reducible apply fresh_keeps
    | with_reducible apply RKeeps.state
    | (refine fresh_keeps_eq ‹_› ?_ ?_)
    | extract_lets
    | split
    | intro _
    | fail_if_no_progress beta_reduce
    | dsimp +zetaDelta only

theorem execTableRead_keeps {R : Part → Prop} {b₀ : State} (h : Nat) (s : State) (h_R : Allows R [.regs, .sys, .hif, .free]) (h_s : Keeps R b₀ s) : OKeeps R b₀ (execTableRead h s) := by
  unfold execTableRead
  repeat' first
    | with_reducible assumption
    | (refine Allows.sub h_R ?_; decide)
    | with_reducible apply tableRead_keeps
    | with_reducible apply row_keeps
    | with_reducible apply runPlain_keeps
    | with_reducible apply RKeeps.state
    | with_reducible apply OKeeps.answer
    | with_reducible apply OKeeps.next
    | extract_lets
    | split
    | intro _

theorem putEntry_keeps {R : Part → Prop} {b₀ : State} (s : State) (t : TableId) (n : Nat) (b : List Byte) (h_R : Allows R [.tables, .act, .fjl]) (h_s : Keeps R b₀ s) : Keeps R b₀ (putEntry s t n b) := by
  unfold putEntry
  repeat' first
    | with_reducible assumption
    | (refine Allows.sub h_R ?_; decide)
    | with_reducible apply refreshCfg_keeps
    | with_reducible apply dlyWrite_keeps
    | with_reducible apply tput_keeps
    | with_reducible apply Keeps.ite
    | extract_lets
    | split

theorem tableWrite_keeps {R : Part → Prop} {b₀ : State} (s : State) (h : Nat) (p : List Byte) (h_R : Allows R [.regs, .tables, .act, .fjl]) (h_s : Keeps R b₀ s) : RKeeps R b₀ (tableWrite s h p) := by
  unfold tableWrite
  repeat' first
    | with_reducible assumption
    | (refine Allows.sub h_R ?_; decide)
    | with_reducible apply putEntry_keeps
    | with_reducible apply okBody_keeps
    | with_reducible apply ttmEffect_keeps
    | with_reducible apply refuse_keeps
    | with_reducible apply RKeeps.state
    | with_reducible apply Keeps.foldl
    | intro _ _ _
    | extract_lets
    | split

theorem execTableWrite_keeps {R : Part → Prop} {b₀ : State} (h : Nat) (s : State) (h_R : Allows R [.regs, .tables, .sys, .hif, .act, .fjl]) (h_s : Keeps R b₀ s) : OKeeps R b₀ (execTableWrite h s) := by
  unfold execTableWrite
  repeat' first
    | with_reducible assumption
    | (refine Allows.sub h_R ?_; decide)
    | with_reducible apply tableWrite_keeps
    | with_reducible apply row_keeps
    | with_reducible apply runPlain_keeps
    | with_reducible apply RKeeps.state
    | with_reducible apply OKeeps.answer
    | with_reducible apply OKeeps.next
    | extract_lets
    | split
    | intro _

theorem execLease_keeps {R : Part → Prop} {b₀ : State} (h : Nat) (s : State) (h_R : Allows R [.regs, .sys, .hif, .recd, .sch, .fjl, .pwm, .free]) (h_s : Keeps R b₀ s) : OKeeps R b₀ (execLease h s) := by
  unfold execLease
  repeat' first
    | with_reducible assumption
    | (refine Allows.sub h_R ?_; decide)
    | with_reducible apply row_keeps
    | with_reducible apply runPlain_keeps
    | with_reducible apply leaseCmd_keeps
    | with_reducible apply RKeeps.state
    | with_reducible apply OKeeps.answer
    | with_reducible apply OKeeps.next
    | extract_lets
    | split
    | intro _

theorem execRelease_keeps {R : Part → Prop} {b₀ : State} (h : Nat) (s : State) (h_R : Allows R [.regs, .sys, .hif, .recd, .sch, .fjl, .pwm, .free]) (h_s : Keeps R b₀ s) : OKeeps R b₀ (execRelease h s) := by
  unfold execRelease
  repeat' first
    | with_reducible assumption
    | (refine Allows.sub h_R ?_; decide)
    | with_reducible apply row_keeps
    | with_reducible apply runPlain_keeps
    | with_reducible apply releaseCmd_keeps
    | with_reducible apply RKeeps.state
    | with_reducible apply OKeeps.answer
    | with_reducible apply OKeeps.next
    | extract_lets
    | split
    | intro _

theorem eventPost_keeps {R : Part → Prop} {b₀ : State} (s : State) (h : Nat) (p : List Byte) (h_R : Allows R [.regs, .sys, .recd, .sch, .fjl]) (h_s : Keeps R b₀ s) : RKeeps R b₀ (eventPost s h p) := by
  unfold eventPost
  extract_lets l
  split
  · exact refuse_keeps _ _ (h_R.sub (by decide)) h_s
  · split
    · exact refuse_keeps _ _ (h_R.sub (by decide)) h_s
    · split
      · exact refuse_keeps _ _ (h_R.sub (by decide)) h_s
      · split
        · exact okBody_keeps _ _ (h_R.sub (by decide)) (acceptAll_keeps _ _ _ _ _ (by assumption) (h_R.sub (by decide)) h_s)
        · exact refuse_keeps _ _ (h_R.sub (by decide)) (bump_keeps _ _ _ (h_R.sub (by decide)) h_s)

theorem execEventPost_keeps {R : Part → Prop} {b₀ : State} (h : Nat) (s : State) (h_R : Allows R [.regs, .sys, .hif, .recd, .sch, .fjl]) (h_s : Keeps R b₀ s) : OKeeps R b₀ (execEventPost h s) := by
  unfold execEventPost
  repeat' first
    | with_reducible assumption
    | (refine Allows.sub h_R ?_; decide)
    | with_reducible apply eventPost_keeps
    | with_reducible apply row_keeps
    | with_reducible apply runPlain_keeps
    | with_reducible apply RKeeps.state
    | with_reducible apply OKeeps.answer
    | with_reducible apply OKeeps.next
    | extract_lets
    | split
    | intro _

theorem cancelHandle_keeps {R : Part → Prop} {b₀ : State} (s : State) (h v : Nat) (h_R : Allows R [.regs, .sys, .recd, .sch, .fjl, .free]) (h_s : Keeps R b₀ s) : PKeeps R b₀ (cancelHandle s h v) := by
  unfold cancelHandle
  repeat' first
    | with_reducible assumption
    | (refine Allows.sub h_R ?_; decide)
    | with_reducible apply cancelSlot_keeps
    | with_reducible apply freeSlot_keeps
    | with_reducible apply PKeeps.fst
    | (refine PKeeps.of_eq ‹_› ?_)
    | extract_lets
    | split
    | intro _
    | fail_if_no_progress beta_reduce
    | with_reducible apply PKeeps.foldl
    | dsimp +zetaDelta only
    | with_reducible apply PKeeps.mk

theorem cancelChannels_keeps {R : Part → Prop} {b₀ : State} (s : State) (h : Nat) (all : Bool) (l : List Nat) (h_R : Allows R [.regs, .sys, .recd, .sch, .fjl, .free]) (h_s : Keeps R b₀ s) : PKeeps R b₀ (cancelChannels s h all l) := by
  unfold cancelChannels
  repeat' first
    | with_reducible assumption
    | with_reducible apply cancelSlot_keeps
    | with_reducible apply PKeeps.fst
    | (refine PKeeps.of_eq ‹_› ?_)
    | with_reducible apply Keeps.foldl
    | intro _ _ _
    | extract_lets
    | split
    | intro _
    | fail_if_no_progress beta_reduce
    | with_reducible apply PKeeps.foldl
    | dsimp +zetaDelta only
    | with_reducible apply PKeeps.mk

theorem cancelItem_keeps {R : Part → Prop} {b₀ : State} (s : State) (h scope : Nat) (all : Bool) (v : Nat) (h_R : Allows R [.regs, .sys, .recd, .sch, .fjl, .free]) (h_s : Keeps R b₀ s) : PKeeps R b₀ (cancelItem s h scope all v) := by
  unfold cancelItem
  repeat' first
    | with_reducible assumption
    | with_reducible apply cancelChannels_keeps
    | with_reducible apply cancelHandle_keeps
    | with_reducible apply PKeeps.fst
    | (refine PKeeps.of_eq ‹_› ?_)
    | extract_lets
    | split
    | intro _
    | fail_if_no_progress beta_reduce
    | with_reducible apply PKeeps.foldl
    | dsimp +zetaDelta only
    | with_reducible apply PKeeps.mk

theorem cancelItems_keeps {R : Part → Prop} {b₀ : State} (h scope : Nat) (all : Bool) (s : State) (l : List Nat) (h_R : Allows R [.regs, .sys, .recd, .sch, .fjl, .free]) (h_s : Keeps R b₀ s) :
    PKeeps R b₀ (cancelItems h scope all s l) := by
  induction l generalizing s with
  | nil => unfold cancelItems; exact h_s
  | cons v l ih => unfold cancelItems; exact ih _ (cancelItem_keeps _ _ _ _ _ (h_R.sub (by decide)) h_s)

theorem eventCancel_keeps {R : Part → Prop} {b₀ : State} (s : State) (h : Nat) (p : List Byte) (h_R : Allows R [.regs, .sys, .recd, .sch, .fjl, .free]) (h_s : Keeps R b₀ s) : RKeeps R b₀ (eventCancel s h p) := by
  unfold eventCancel
  repeat' first
    | with_reducible assumption
    | (refine Allows.sub h_R ?_; decide)
    | with_reducible apply cancelItems_keeps
    | with_reducible apply okBody_keeps
    | with_reducible apply refuse_keeps
    | with_reducible apply PKeeps.fst
    | (refine PKeeps.of_eq ‹_› ?_)
    | with_reducible apply RKeeps.state
    | extract_lets
    | split
    | intro _
    | fail_if_no_progress beta_reduce
    | with_reducible apply PKeeps.foldl
    | dsimp +zetaDelta only

theorem execEventCancel_keeps {R : Part → Prop} {b₀ : State} (h : Nat) (s : State) (h_R : Allows R [.regs, .sys, .hif, .recd, .sch, .fjl, .free]) (h_s : Keeps R b₀ s) : OKeeps R b₀ (execEventCancel h s) := by
  unfold execEventCancel
  repeat' first
    | with_reducible assumption
    | (refine Allows.sub h_R ?_; decide)
    | with_reducible apply eventCancel_keeps
    | with_reducible apply row_keeps
    | with_reducible apply runPlain_keeps
    | with_reducible apply RKeeps.state
    | with_reducible apply OKeeps.answer
    | with_reducible apply OKeeps.next
    | extract_lets
    | split
    | intro _

theorem execTileRead_keeps {R : Part → Prop} {b₀ : State} (h : Nat) (s : State) (h_R : Allows R [.regs, .sys, .hif, .map]) (h_s : Keeps R b₀ s) : OKeeps R b₀ (execTileRead h s) := by
  unfold execTileRead
  repeat' first
    | with_reducible assumption
    | (refine Allows.sub h_R ?_; decide)
    | with_reducible apply row_keeps
    | with_reducible apply runPlain_keeps
    | with_reducible apply okBody_keeps
    | with_reducible apply refuse_keeps
    | with_reducible apply fetchTile_keeps
    | with_reducible apply RKeeps.state
    | with_reducible apply OKeeps.answer
    | with_reducible apply OKeeps.next
    | extract_lets
    | split
    | intro _

theorem tileWriteCmd_keeps {R : Part → Prop} {b₀ : State} (s : State) (h : Nat) (p : List Byte) (h_R : Allows R [.regs, .recd, .map, .free]) (h_s : Keeps R b₀ s) : RKeeps R b₀ (tileWriteCmd s h p) := by
  unfold tileWriteCmd
  repeat' first
    | with_reducible assumption
    | (refine Allows.sub h_R ?_; decide)
    | with_reducible apply okBody_keeps
    | with_reducible apply refuse_keeps
    | with_reducible apply tileWrite_keeps
    | with_reducible apply PKeeps.fst
    | (refine PKeeps.of_eq ‹_› ?_)
    | with_reducible apply RKeeps.state
    | extract_lets
    | split

theorem execTileWrite_keeps {R : Part → Prop} {b₀ : State} (h : Nat) (s : State) (h_R : Allows R [.regs, .sys, .hif, .recd, .map, .free]) (h_s : Keeps R b₀ s) : OKeeps R b₀ (execTileWrite h s) := by
  unfold execTileWrite
  repeat' first
    | with_reducible assumption
    | (refine Allows.sub h_R ?_; decide)
    | with_reducible apply tileWriteCmd_keeps
    | with_reducible apply row_keeps
    | with_reducible apply runPlain_keeps
    | with_reducible apply RKeeps.state
    | with_reducible apply OKeeps.answer
    | with_reducible apply OKeeps.next
    | extract_lets
    | split
    | intro _

theorem measCmd_keeps {R : Part → Prop} {b₀ : State} (s : State) (p : List Byte) (h_R : Allows R [.free]) (h_s : Keeps R b₀ s) : RKeeps R b₀ (measCmd s p) := by
  unfold measCmd
  repeat' first
    | with_reducible assumption
    | (refine Allows.sub h_R ?_; decide)
    | with_reducible apply okBody_keeps
    | with_reducible apply refuse_keeps
    | with_reducible apply measRead_keeps
    | with_reducible apply PKeeps.fst
    | (refine PKeeps.of_eq ‹_› ?_)
    | with_reducible apply RKeeps.state
    | extract_lets
    | split

theorem execGnsMeasRead_keeps {R : Part → Prop} {b₀ : State} (h : Nat) (s : State) (h_R : Allows R [.regs, .sys, .hif, .free]) (h_s : Keeps R b₀ s) : OKeeps R b₀ (execGnsMeasRead h s) := by
  unfold execGnsMeasRead
  repeat' first
    | with_reducible assumption
    | (refine Allows.sub h_R ?_; decide)
    | with_reducible apply measCmd_keeps
    | with_reducible apply row_keeps
    | with_reducible apply runPlain_keeps
    | with_reducible apply RKeeps.state
    | with_reducible apply OKeeps.answer
    | with_reducible apply OKeeps.next
    | extract_lets
    | split
    | intro _

theorem execGnsNavRead_keeps {R : Part → Prop} {b₀ : State} (h : Nat) (s : State) (h_R : Allows R [.regs, .sys, .hif]) (h_s : Keeps R b₀ s) : OKeeps R b₀ (execGnsNavRead h s) := by
  unfold execGnsNavRead
  repeat' first
    | with_reducible assumption
    | (refine Allows.sub h_R ?_; decide)
    | with_reducible apply row_keeps
    | with_reducible apply runPlain_keeps
    | with_reducible apply okBody_keeps
    | with_reducible apply RKeeps.state
    | with_reducible apply OKeeps.answer
    | with_reducible apply OKeeps.next
    | extract_lets
    | split
    | intro _

theorem execRtcmWrite_keeps {R : Part → Prop} {b₀ : State} (h : Nat) (s : State) (h_R : Allows R [.regs, .sys, .hif, .recd, .gns]) (h_s : Keeps R b₀ s) : OKeeps R b₀ (execRtcmWrite h s) := by
  unfold execRtcmWrite
  repeat' first
    | with_reducible assumption
    | (refine Allows.sub h_R ?_; decide)
    | with_reducible apply row_keeps
    | with_reducible apply runPlain_keeps
    | with_reducible apply okBody_keeps
    | with_reducible apply rtcmFeed_keeps
    | with_reducible apply RKeeps.state
    | with_reducible apply OKeeps.answer
    | with_reducible apply OKeeps.next
    | extract_lets
    | split
    | intro _

theorem execCanSend_keeps {R : Part → Prop} {b₀ : State} (h : Nat) (s : State) (h_R : Allows R [.regs, .sys, .hif, .can, .free]) (h_s : Keeps R b₀ s) : OKeeps R b₀ (execCanSend h s) := by
  unfold execCanSend
  repeat' first
    | with_reducible assumption
    | (refine Allows.sub h_R ?_; decide)
    | with_reducible apply row_keeps
    | with_reducible apply runPlain_keeps
    | with_reducible apply canSend_keeps
    | with_reducible apply RKeeps.state
    | with_reducible apply OKeeps.answer
    | with_reducible apply OKeeps.next
    | extract_lets
    | split
    | intro _

theorem execCanRecv_keeps {R : Part → Prop} {b₀ : State} (h : Nat) (s : State) (h_R : Allows R [.regs, .sys, .hif, .can]) (h_s : Keeps R b₀ s) : OKeeps R b₀ (execCanRecv h s) := by
  unfold execCanRecv
  repeat' first
    | with_reducible assumption
    | (refine Allows.sub h_R ?_; decide)
    | with_reducible apply row_keeps
    | with_reducible apply runPlain_keeps
    | with_reducible apply canRecv_keeps
    | with_reducible apply RKeeps.state
    | with_reducible apply OKeeps.answer
    | with_reducible apply OKeeps.next
    | extract_lets
    | split
    | intro _

theorem execCanAbort_keeps {R : Part → Prop} {b₀ : State} (h : Nat) (s : State) (h_R : Allows R [.regs, .sys, .hif, .can]) (h_s : Keeps R b₀ s) : OKeeps R b₀ (execCanAbort h s) := by
  unfold execCanAbort
  repeat' first
    | with_reducible assumption
    | (refine Allows.sub h_R ?_; decide)
    | with_reducible apply row_keeps
    | with_reducible apply runPlain_keeps
    | with_reducible apply canAbort_keeps
    | with_reducible apply RKeeps.state
    | with_reducible apply OKeeps.answer
    | with_reducible apply OKeeps.next
    | extract_lets
    | split
    | intro _

theorem execRecRead_keeps {R : Part → Prop} {b₀ : State} (h : Nat) (s : State) (h_R : Allows R [.regs, .sys, .hif]) (h_s : Keeps R b₀ s) : OKeeps R b₀ (execRecRead h s) := by
  unfold execRecRead
  repeat' first
    | with_reducible assumption
    | (refine Allows.sub h_R ?_; decide)
    | with_reducible apply row_keeps
    | with_reducible apply runPlain_keeps
    | with_reducible apply okBody_keeps
    | with_reducible apply refuse_keeps
    | with_reducible apply RKeeps.state
    | with_reducible apply OKeeps.answer
    | with_reducible apply OKeeps.next
    | extract_lets
    | split
    | intro _

theorem freezeCmd_keeps {R : Part → Prop} {b₀ : State} (s : State) (h : Nat) (p : List Byte) (h_R : Allows R [.regs, .recd]) (h_s : Keeps R b₀ s) : RKeeps R b₀ (freezeCmd s h p) := by
  unfold freezeCmd
  repeat' first
    | with_reducible assumption
    | (refine Allows.sub h_R ?_; decide)
    | with_reducible apply okBody_keeps
    | with_reducible apply releaseFreeze_keeps
    | with_reducible apply freezeLog_keeps
    | with_reducible apply refuse_keeps
    | with_reducible apply RKeeps.state
    | extract_lets
    | split

theorem execRecFreeze_keeps {R : Part → Prop} {b₀ : State} (h : Nat) (s : State) (h_R : Allows R [.regs, .sys, .hif, .recd]) (h_s : Keeps R b₀ s) : OKeeps R b₀ (execRecFreeze h s) := by
  unfold execRecFreeze
  repeat' first
    | with_reducible assumption
    | (refine Allows.sub h_R ?_; decide)
    | with_reducible apply freezeCmd_keeps
    | with_reducible apply row_keeps
    | with_reducible apply runPlain_keeps
    | with_reducible apply RKeeps.state
    | with_reducible apply OKeeps.answer
    | with_reducible apply OKeeps.next
    | extract_lets
    | split
    | intro _

theorem challengeCmd_keeps {R : Part → Prop} {b₀ : State} (s : State) (h : Nat) (h_R : Allows R [.recd, .free]) (h_s : Keeps R b₀ s) : RKeeps R b₀ (challengeCmd s h) := by
  unfold challengeCmd
  repeat' first
    | with_reducible assumption
    | (refine Allows.sub h_R ?_; decide)
    | with_reducible apply okBody_keeps
    | with_reducible apply modRec_keeps
    | with_reducible apply refuse_keeps
    | with_reducible apply fresh_keeps
    | with_reducible apply RKeeps.state
    | (refine fresh_keeps_eq ‹_› ?_ ?_)
    | extract_lets
    | split

theorem execRecChallenge_keeps {R : Part → Prop} {b₀ : State} (h : Nat) (s : State) (h_R : Allows R [.regs, .sys, .hif, .recd, .free]) (h_s : Keeps R b₀ s) : OKeeps R b₀ (execRecChallenge h s) := by
  unfold execRecChallenge
  repeat' first
    | with_reducible assumption
    | (refine Allows.sub h_R ?_; decide)
    | with_reducible apply challengeCmd_keeps
    | with_reducible apply row_keeps
    | with_reducible apply runPlain_keeps
    | with_reducible apply RKeeps.state
    | with_reducible apply OKeeps.answer
    | with_reducible apply OKeeps.next
    | extract_lets
    | split
    | intro _

theorem clearCmd_keeps {R : Part → Prop} {b₀ : State} (s : State) (h : Nat) (p : List Byte) (h_R : Allows R [.regs, .recd]) (h_s : Keeps R b₀ s) : CKeeps R b₀ (clearCmd s h p) := by
  unfold clearCmd
  repeat' first
    | with_reducible assumption
    | (refine Allows.sub h_R ?_; decide)
    | with_reducible apply okBody_keeps
    | with_reducible apply plain_keeps
    | with_reducible apply startClearLog_keeps
    | with_reducible apply authFail_keeps
    | with_reducible apply refuse_keeps
    | with_reducible apply RKeeps.state
    | with_reducible apply CKeeps.r
    | extract_lets
    | split
    | intro _
    | fail_if_no_progress beta_reduce
    | dsimp +zetaDelta only
    | with_reducible apply RKeeps.mk
    | with_reducible apply CKeeps.mk

theorem execRecClear_keeps {R : Part → Prop} {b₀ : State} (h : Nat) (s : State) (h_R : Allows R [.regs, .sys, .hif, .recd]) (h_s : Keeps R b₀ s) : OKeeps R b₀ (execRecClear h s) := by
  unfold execRecClear
  repeat' first
    | with_reducible assumption
    | (refine Allows.sub h_R ?_; decide)
    | with_reducible apply clearCmd_keeps
    | with_reducible apply row_keeps
    | with_reducible apply runCmd_keeps
    | with_reducible apply CKeeps.r
    | with_reducible apply OKeeps.answer
    | with_reducible apply OKeeps.next
    | extract_lets
    | split
    | intro _

theorem clearLogDone_keeps {R : Part → Prop} {b₀ : State} (s : State) (h_R : Allows R [.regs, .hif, .recd]) (h_s : Keeps R b₀ s) : Keeps R b₀ (clearLogDone s) := by
  unfold clearLogDone
  repeat' first
    | with_reducible assumption
    | (refine Allows.sub h_R ?_; decide)
    | with_reducible apply finishClear_keeps
    | with_reducible apply postDeferred_keeps
    | with_reducible apply Keeps.ite
    | extract_lets
    | split

theorem execClearDone_keeps {R : Part → Prop} {b₀ : State} (s : State) (h_R : Allows R [.regs, .hif, .recd]) (h_s : Keeps R b₀ s) : OKeeps R b₀ (execClearDone s) := by
  unfold execClearDone
  repeat' first
    | with_reducible assumption
    | with_reducible apply clearLogDone_keeps
    | with_reducible apply OKeeps.answer
    | with_reducible apply OKeeps.next

theorem execFwInfo_keeps {R : Part → Prop} {b₀ : State} (h : Nat) (s : State) (h_R : Allows R [.regs, .sys, .hif]) (h_s : Keeps R b₀ s) : OKeeps R b₀ (execFwInfo h s) := by
  unfold execFwInfo
  repeat' first
    | with_reducible assumption
    | (refine Allows.sub h_R ?_; decide)
    | with_reducible apply row_keeps
    | with_reducible apply runPlain_keeps
    | with_reducible apply fwInfo_keeps
    | with_reducible apply RKeeps.state
    | with_reducible apply OKeeps.answer
    | with_reducible apply OKeeps.next
    | extract_lets
    | split
    | intro _

theorem execFwBegin_keeps {R : Part → Prop} {b₀ : State} (h : Nat) (s : State) (h_R : Allows R [.regs, .sys, .boot, .hif]) (h_s : Keeps R b₀ s) : OKeeps R b₀ (execFwBegin h s) := by
  unfold execFwBegin
  repeat' first
    | with_reducible assumption
    | (refine Allows.sub h_R ?_; decide)
    | with_reducible apply row_keeps
    | with_reducible apply runCmd_keeps
    | with_reducible apply fwBegin_keeps
    | with_reducible apply RKeeps.state
    | with_reducible apply OKeeps.answer
    | with_reducible apply OKeeps.next
    | extract_lets
    | split
    | intro _
    | fail_if_no_progress beta_reduce
    | dsimp +zetaDelta only
    | with_reducible apply RKeeps.mk
    | with_reducible apply CKeeps.mk

theorem eraseDone_keeps {R : Part → Prop} {b₀ : State} (s : State) (h_R : Allows R [.regs, .boot, .hif]) (h_s : Keeps R b₀ s) : Keeps R b₀ (eraseDone s) := by
  unfold eraseDone
  repeat' first
    | with_reducible assumption
    | (refine Allows.sub h_R ?_; decide)
    | with_reducible apply modBoot_keeps
    | with_reducible apply postDeferred_keeps
    | with_reducible apply Keeps.ite
    | extract_lets
    | split

theorem execFwEraseDone_keeps {R : Part → Prop} {b₀ : State} (s : State) (h_R : Allows R [.regs, .boot, .hif]) (h_s : Keeps R b₀ s) : OKeeps R b₀ (execFwEraseDone s) := by
  unfold execFwEraseDone
  repeat' first
    | with_reducible assumption
    | with_reducible apply eraseDone_keeps
    | with_reducible apply OKeeps.answer
    | with_reducible apply OKeeps.next

theorem execFwData_keeps {R : Part → Prop} {b₀ : State} (h : Nat) (s : State) (h_R : Allows R [.regs, .sys, .boot, .hif]) (h_s : Keeps R b₀ s) : OKeeps R b₀ (execFwData h s) := by
  unfold execFwData
  repeat' first
    | with_reducible assumption
    | (refine Allows.sub h_R ?_; decide)
    | with_reducible apply row_keeps
    | with_reducible apply runPlain_keeps
    | with_reducible apply fwData_keeps
    | with_reducible apply RKeeps.state
    | with_reducible apply OKeeps.answer
    | with_reducible apply OKeeps.next
    | extract_lets
    | split
    | intro _

theorem execFwEnd_keeps {R : Part → Prop} {b₀ : State} (h : Nat) (x : ImageHead) (s : State) (h_R : Allows R [.regs, .sys, .boot, .hif, .recd]) (h_s : Keeps R b₀ s) : OKeeps R b₀ (execFwEnd h x s) := by
  unfold execFwEnd
  repeat' first
    | with_reducible assumption
    | (refine Allows.sub h_R ?_; decide)
    | with_reducible apply row_keeps
    | with_reducible apply runPlain_keeps
    | with_reducible apply fwEnd_keeps
    | with_reducible apply RKeeps.state
    | with_reducible apply OKeeps.answer
    | with_reducible apply OKeeps.next
    | extract_lets
    | split
    | intro _

theorem execFwActivate_keeps {R : Part → Prop} {b₀ : State} (h : Nat) (s : State) (h_R : Allows R [.regs, .tables, .kin, .sys, .boot, .mon, .hif, .recd, .sch, .map, .act, .drv, .fjl, .pwm, .cle, .enc, .tim, .eth, .can, .now]) (h_s : Keeps R b₀ s) : OKeeps R b₀ (execFwActivate h s) := by
  unfold execFwActivate
  repeat' first
    | with_reducible assumption
    | (refine Allows.sub h_R ?_; decide)
    | with_reducible apply row_keeps
    | with_reducible apply runCmd_keeps
    | with_reducible apply fwActivate_keeps
    | with_reducible apply RKeeps.state
    | with_reducible apply OKeeps.answer
    | with_reducible apply OKeeps.next
    | extract_lets
    | split
    | intro _
    | fail_if_no_progress beta_reduce
    | dsimp +zetaDelta only
    | with_reducible apply RKeeps.mk
    | with_reducible apply CKeeps.mk

theorem execFwCommit_keeps {R : Part → Prop} {b₀ : State} (h : Nat) (s : State) (h_R : Allows R [.regs, .sys, .boot, .hif, .recd]) (h_s : Keeps R b₀ s) : OKeeps R b₀ (execFwCommit h s) := by
  unfold execFwCommit
  repeat' first
    | with_reducible assumption
    | (refine Allows.sub h_R ?_; decide)
    | with_reducible apply row_keeps
    | with_reducible apply runPlain_keeps
    | with_reducible apply fwCommit_keeps
    | with_reducible apply RKeeps.state
    | with_reducible apply OKeeps.answer
    | with_reducible apply OKeeps.next
    | extract_lets
    | split
    | intro _

theorem execCfgSave_keeps {R : Part → Prop} {b₀ : State} (h : Nat) (s : State) (h_R : Allows R [.regs, .sys, .boot, .hif]) (h_s : Keeps R b₀ s) : OKeeps R b₀ (execCfgSave h s) := by
  unfold execCfgSave
  repeat' first
    | with_reducible assumption
    | (refine Allows.sub h_R ?_; decide)
    | with_reducible apply row_keeps
    | with_reducible apply runCmd_keeps
    | with_reducible apply cfgSave_keeps
    | with_reducible apply refuse_keeps
    | with_reducible apply RKeeps.state
    | with_reducible apply OKeeps.answer
    | with_reducible apply OKeeps.next
    | extract_lets
    | split
    | intro _
    | fail_if_no_progress beta_reduce
    | dsimp +zetaDelta only
    | with_reducible apply RKeeps.mk
    | with_reducible apply CKeeps.mk

theorem execCfgSaveDone_keeps {R : Part → Prop} {b₀ : State} (s : State) (h_R : Allows R [.regs, .boot, .hif, .recd]) (h_s : Keeps R b₀ s) : OKeeps R b₀ (execCfgSaveDone s) := by
  unfold execCfgSaveDone
  repeat' first
    | with_reducible assumption
    | (refine Allows.sub h_R ?_; decide)
    | with_reducible apply saveDone_keeps
    | with_reducible apply postDeferred_keeps
    | with_reducible apply OKeeps.answer
    | with_reducible apply OKeeps.next
    | extract_lets
    | split

theorem execCfgErase_keeps {R : Part → Prop} {b₀ : State} (h : Nat) (s : State) (h_R : Allows R [.regs, .sys, .boot, .hif]) (h_s : Keeps R b₀ s) : OKeeps R b₀ (execCfgErase h s) := by
  unfold execCfgErase
  repeat' first
    | with_reducible assumption
    | (refine Allows.sub h_R ?_; decide)
    | with_reducible apply row_keeps
    | with_reducible apply runCmd_keeps
    | with_reducible apply plain_keeps
    | with_reducible apply cfgErase_keeps
    | with_reducible apply RKeeps.state
    | with_reducible apply CKeeps.r
    | with_reducible apply OKeeps.answer
    | with_reducible apply OKeeps.next
    | extract_lets
    | split
    | intro _

theorem execKeySet_keeps {R : Part → Prop} {b₀ : State} (h : Nat) (s : State) (h_R : Allows R [.regs, .sys, .hif, .recd]) (h_s : Keeps R b₀ s) : OKeeps R b₀ (execKeySet h s) := by
  unfold execKeySet
  repeat' first
    | with_reducible assumption
    | (refine Allows.sub h_R ?_; decide)
    | with_reducible apply row_keeps
    | with_reducible apply runCmd_keeps
    | with_reducible apply plain_keeps
    | with_reducible apply keySet_keeps
    | with_reducible apply RKeeps.state
    | with_reducible apply CKeeps.r
    | with_reducible apply OKeeps.answer
    | with_reducible apply OKeeps.next
    | extract_lets
    | split
    | intro _

theorem execSysReset_keeps {R : Part → Prop} {b₀ : State} (h : Nat) (s : State) (h_R : Allows R [.regs, .tables, .kin, .sys, .boot, .mon, .hif, .recd, .sch, .map, .act, .drv, .fjl, .pwm, .cle, .enc, .tim, .eth, .can, .now]) (h_s : Keeps R b₀ s) : OKeeps R b₀ (execSysReset h s) := by
  unfold execSysReset
  repeat' first
    | with_reducible assumption
    | (refine Allows.sub h_R ?_; decide)
    | with_reducible apply row_keeps
    | with_reducible apply runCmd_keeps
    | with_reducible apply sysReset_keeps
    | with_reducible apply RKeeps.state
    | with_reducible apply OKeeps.answer
    | with_reducible apply OKeeps.next
    | extract_lets
    | split
    | intro _
    | fail_if_no_progress beta_reduce
    | dsimp +zetaDelta only
    | with_reducible apply RKeeps.mk
    | with_reducible apply CKeeps.mk

theorem execMapClearDone_keeps {R : Part → Prop} {b₀ : State} (s : State) (h_R : Allows R [.regs, .hif, .map]) (h_s : Keeps R b₀ s) : OKeeps R b₀ (execMapClearDone s) := by
  unfold execMapClearDone
  repeat' first
    | with_reducible assumption
    | (refine Allows.sub h_R ?_; decide)
    | with_reducible apply clearDone_keeps
    | with_reducible apply postDeferred_keeps
    | with_reducible apply OKeeps.answer
    | with_reducible apply OKeeps.next
    | extract_lets
    | split

end Sys2Proof.Machine
end

