-- ==== Sys2Proof/Laws/KeepsRows.lean ====
section
/-!
SUPPORT. Sys2Proof/Laws/KeepsRows.lean: the operations of Machine/Rows.lean keep what `Keeps` names.
-/
namespace Sys2Proof.Machine

theorem queueRow_keeps {R : Part → Prop} {b₀ : State} (s : State) (h : Nat) (l : List WItem) (h_R : Allows R [.regs, .hif]) (h_s : Keeps R b₀ s) : Keeps R b₀ (queueRow s h l) := by
  unfold queueRow
  repeat' first
    | with_reducible assumption
    | (refine Allows.sub h_R ?_; decide)
    | with_reducible apply rejectFrame_keeps
    | with_reducible apply putFrame_keeps
    | with_reducible apply Keeps.ite

theorem hostItems_keeps {R : Part → Prop} {b₀ : State} (s : State) (h : Nat) (l : List WItem) (h_R : Allows R [.regs, .tables, .kin, .sys, .mon, .hif, .recd, .sch, .map, .act, .drv, .fjl, .pwm, .cle, .enc, .gns, .tim, .eth, .can, .free]) (h_s : Keeps R b₀ s) : PKeeps R b₀ (hostItems s h l) := by
  unfold hostItems
  have r_sys : R .sys := h_R _ (by decide)
  repeat' first
    | with_reducible assumption
    | (refine Allows.sub h_R ?_; decide)
    | with_reducible apply queueRow_keeps
    | with_reducible apply writeItems_keeps
    | with_reducible apply modSlot_keeps
    | with_reducible apply PKeeps.fst
    | (refine PKeeps.of_eq ‹_› ?_)
    | extract_lets
    | fail_if_no_progress (with_reducible refine Keeps.put_sys r_sys ?_)
    | split
    | intro _
    | fail_if_no_progress beta_reduce
    | with_reducible apply PKeeps.foldl
    | dsimp +zetaDelta only
    | with_reducible apply PKeeps.mk

theorem hostField_keeps {R : Part → Prop} {b₀ : State} (s : State) (h : Nat) (f : Field) (v : Nat) (h_R : Allows R [.regs, .tables, .kin, .sys, .mon, .hif, .recd, .sch, .map, .act, .drv, .fjl, .pwm, .cle, .enc, .gns, .tim, .eth, .can, .free]) (h_s : Keeps R b₀ s) : Keeps R b₀ (hostField s h f v) := by
  unfold hostField
  repeat' first
    | with_reducible assumption
    | with_reducible apply hostItems_keeps
    | with_reducible apply PKeeps.fst

theorem hostFlag_keeps {R : Part → Prop} {b₀ : State} (s : State) (h : Nat) (f : Field) (b : Bool) (h_R : Allows R [.regs, .tables, .kin, .sys, .mon, .hif, .recd, .sch, .map, .act, .drv, .fjl, .pwm, .cle, .enc, .gns, .tim, .eth, .can, .free]) (h_s : Keeps R b₀ s) : Keeps R b₀ (hostFlag s h f b) := by
  unfold hostFlag
  repeat' first
    | with_reducible assumption
    | with_reducible apply hostField_keeps

theorem rowOf_keeps {R : Part → Prop} {b₀ : State} (h : Nat) (ok : Bool) (s : State) (h_R : Allows R []) (h_s : Keeps R b₀ s) : OKeeps R b₀ (rowOf h ok s) := by
  unfold rowOf
  repeat' first
    | with_reducible assumption
    | with_reducible apply OKeeps.answer

theorem execDrvEn_keeps {R : Part → Prop} {b₀ : State} (h : Nat) (en : Bool) (s : State) (h_R : Allows R [.regs, .tables, .kin, .sys, .mon, .hif, .recd, .sch, .map, .act, .drv, .fjl, .pwm, .cle, .enc, .gns, .tim, .eth, .can, .free]) (h_s : Keeps R b₀ s) : OKeeps R b₀ (execDrvEn h en s) := by
  unfold execDrvEn
  repeat' first
    | with_reducible assumption
    | (refine Allows.sub h_R ?_; decide)
    | with_reducible apply rowOf_keeps
    | with_reducible apply hostFlag_keeps

theorem execGroupEn_keeps {R : Part → Prop} {b₀ : State} (h g : Nat) (en : Bool) (s : State) (h_R : Allows R [.regs, .tables, .kin, .sys, .mon, .hif, .recd, .sch, .map, .act, .drv, .fjl, .pwm, .cle, .enc, .gns, .tim, .eth, .can, .free]) (h_s : Keeps R b₀ s) : OKeeps R b₀ (execGroupEn h g en s) := by
  unfold execGroupEn
  repeat' first
    | with_reducible assumption
    | (refine Allows.sub h_R ?_; decide)
    | with_reducible apply rowOf_keeps
    | with_reducible apply hostFlag_keeps

theorem execResume_keeps {R : Part → Prop} {b₀ : State} (h c : Nat) (s : State) (h_R : Allows R [.regs, .tables, .kin, .sys, .mon, .hif, .recd, .sch, .map, .act, .drv, .fjl, .pwm, .cle, .enc, .gns, .tim, .eth, .can, .free]) (h_s : Keeps R b₀ s) : OKeeps R b₀ (execResume h c s) := by
  unfold execResume
  repeat' first
    | with_reducible assumption
    | (refine Allows.sub h_R ?_; decide)
    | with_reducible apply rowOf_keeps
    | with_reducible apply hostFlag_keeps

theorem execResumeAll_keeps {R : Part → Prop} {b₀ : State} (h : Nat) (s : State) (h_R : Allows R [.regs, .tables, .kin, .sys, .mon, .hif, .recd, .sch, .map, .act, .drv, .fjl, .pwm, .cle, .enc, .gns, .tim, .eth, .can, .free]) (h_s : Keeps R b₀ s) : OKeeps R b₀ (execResumeAll h s) := by
  unfold execResumeAll
  repeat' first
    | with_reducible assumption
    | (refine Allows.sub h_R ?_; decide)
    | with_reducible apply rowOf_keeps
    | with_reducible apply hostFlag_keeps

theorem execDrvModeWrite_keeps {R : Part → Prop} {b₀ : State} (h c mode : Nat) (s : State) (h_R : Allows R [.regs, .tables, .kin, .sys, .mon, .hif, .recd, .sch, .map, .act, .drv, .fjl, .pwm, .cle, .enc, .gns, .tim, .eth, .can, .free]) (h_s : Keeps R b₀ s) : OKeeps R b₀ (execDrvModeWrite h c mode s) := by
  unfold execDrvModeWrite
  repeat' first
    | with_reducible assumption
    | (refine Allows.sub h_R ?_; decide)
    | with_reducible apply rowOf_keeps
    | with_reducible apply hostField_keeps

theorem execPairWrite_keeps {R : Part → Prop} {b₀ : State} (h c : Nat) (pair : Bool) (s : State) (h_R : Allows R [.regs, .tables, .kin, .sys, .mon, .hif, .recd, .sch, .map, .act, .drv, .fjl, .pwm, .cle, .enc, .gns, .tim, .eth, .can, .free]) (h_s : Keeps R b₀ s) : OKeeps R b₀ (execPairWrite h c pair s) := by
  unfold execPairWrite
  repeat' first
    | with_reducible assumption
    | (refine Allows.sub h_R ?_; decide)
    | with_reducible apply rowOf_keeps
    | with_reducible apply hostFlag_keeps

theorem execProtectionFlagClear_keeps {R : Part → Prop} {b₀ : State} (h : Nat) (grp : Bool) (n : Nat) (flags : Word) (s : State) (h_R : Allows R [.regs, .tables, .kin, .sys, .mon, .hif, .recd, .sch, .map, .act, .drv, .fjl, .pwm, .cle, .enc, .gns, .tim, .eth, .can, .free]) (h_s : Keeps R b₀ s) : OKeeps R b₀ (execProtectionFlagClear h grp n flags s) := by
  unfold execProtectionFlagClear
  repeat' first
    | with_reducible assumption
    | (refine Allows.sub h_R ?_; decide)
    | with_reducible apply rowOf_keeps
    | with_reducible apply hostItems_keeps
    | with_reducible apply PKeeps.fst

theorem execFjlEn_keeps {R : Part → Prop} {b₀ : State} (h r : Nat) (en : Bool) (s : State) (h_R : Allows R [.regs, .tables, .kin, .sys, .mon, .hif, .recd, .sch, .map, .act, .drv, .fjl, .pwm, .cle, .enc, .gns, .tim, .eth, .can, .free]) (h_s : Keeps R b₀ s) : OKeeps R b₀ (execFjlEn h r en s) := by
  unfold execFjlEn
  repeat' first
    | with_reducible assumption
    | (refine Allows.sub h_R ?_; decide)
    | with_reducible apply rowOf_keeps
    | with_reducible apply hostFlag_keeps

theorem execHeal_keeps {R : Part → Prop} {b₀ : State} (h r : Nat) (s : State) (h_R : Allows R [.regs, .tables, .kin, .sys, .mon, .hif, .recd, .sch, .map, .act, .drv, .fjl, .pwm, .cle, .enc, .gns, .tim, .eth, .can, .free]) (h_s : Keeps R b₀ s) : OKeeps R b₀ (execHeal h r s) := by
  unfold execHeal
  repeat' first
    | with_reducible assumption
    | (refine Allows.sub h_R ?_; decide)
    | with_reducible apply rowOf_keeps
    | with_reducible apply hostFlag_keeps

theorem execFjlResumeAll_keeps {R : Part → Prop} {b₀ : State} (h r : Nat) (s : State) (h_R : Allows R [.regs, .tables, .kin, .sys, .mon, .hif, .recd, .sch, .map, .act, .drv, .fjl, .pwm, .cle, .enc, .gns, .tim, .eth, .can, .free]) (h_s : Keeps R b₀ s) : OKeeps R b₀ (execFjlResumeAll h r s) := by
  unfold execFjlResumeAll
  repeat' first
    | with_reducible assumption
    | (refine Allows.sub h_R ?_; decide)
    | with_reducible apply rowOf_keeps
    | with_reducible apply hostFlag_keeps

theorem execRingSafeWrite_keeps {R : Part → Prop} {b₀ : State} (h r : Nat) (safe : Bool) (s : State) (h_R : Allows R [.regs, .tables, .kin, .sys, .mon, .hif, .recd, .sch, .map, .act, .drv, .fjl, .pwm, .cle, .enc, .gns, .tim, .eth, .can, .free]) (h_s : Keeps R b₀ s) : OKeeps R b₀ (execRingSafeWrite h r safe s) := by
  unfold execRingSafeWrite
  repeat' first
    | with_reducible assumption
    | (refine Allows.sub h_R ?_; decide)
    | with_reducible apply rowOf_keeps
    | with_reducible apply hostFlag_keeps

theorem execNodeResume_keeps {R : Part → Prop} {b₀ : State} (h r n : Nat) (s : State) (h_R : Allows R [.regs, .tables, .kin, .sys, .mon, .hif, .recd, .sch, .map, .act, .drv, .fjl, .pwm, .cle, .enc, .gns, .tim, .eth, .can, .free]) (h_s : Keeps R b₀ s) : OKeeps R b₀ (execNodeResume h r n s) := by
  unfold execNodeResume
  repeat' first
    | with_reducible assumption
    | (refine Allows.sub h_R ?_; decide)
    | with_reducible apply rowOf_keeps
    | with_reducible apply hostFlag_keeps

theorem execNodeClrFlt_keeps {R : Part → Prop} {b₀ : State} (h r n : Nat) (s : State) (h_R : Allows R [.regs, .tables, .kin, .sys, .mon, .hif, .recd, .sch, .map, .act, .drv, .fjl, .pwm, .cle, .enc, .gns, .tim, .eth, .can, .free]) (h_s : Keeps R b₀ s) : OKeeps R b₀ (execNodeClrFlt h r n s) := by
  unfold execNodeClrFlt
  repeat' first
    | with_reducible assumption
    | (refine Allows.sub h_R ?_; decide)
    | with_reducible apply rowOf_keeps
    | with_reducible apply hostFlag_keeps

theorem execChApply_keeps {R : Part → Prop} {b₀ : State} (h r : Nat) (s : State) (h_R : Allows R [.regs, .tables, .kin, .sys, .mon, .hif, .recd, .sch, .map, .act, .drv, .fjl, .pwm, .cle, .enc, .gns, .tim, .eth, .can, .free]) (h_s : Keeps R b₀ s) : OKeeps R b₀ (execChApply h r s) := by
  unfold execChApply
  repeat' first
    | with_reducible assumption
    | (refine Allows.sub h_R ?_; decide)
    | with_reducible apply rowOf_keeps
    | with_reducible apply hostFlag_keeps

theorem execLoopModeWrite_keeps {R : Part → Prop} {b₀ : State} (h n mode : Nat) (s : State) (h_R : Allows R [.regs, .tables, .kin, .sys, .mon, .hif, .recd, .sch, .map, .act, .drv, .fjl, .pwm, .cle, .enc, .gns, .tim, .eth, .can, .free]) (h_s : Keeps R b₀ s) : OKeeps R b₀ (execLoopModeWrite h n mode s) := by
  unfold execLoopModeWrite
  repeat' first
    | with_reducible assumption
    | (refine Allows.sub h_R ?_; decide)
    | with_reducible apply rowOf_keeps
    | with_reducible apply hostField_keeps

theorem execCleEn_keeps {R : Part → Prop} {b₀ : State} (h : Nat) (en : Bool) (s : State) (h_R : Allows R [.regs, .tables, .kin, .sys, .mon, .hif, .recd, .sch, .map, .act, .drv, .fjl, .pwm, .cle, .enc, .gns, .tim, .eth, .can, .free]) (h_s : Keeps R b₀ s) : OKeeps R b₀ (execCleEn h en s) := by
  unfold execCleEn
  repeat' first
    | with_reducible assumption
    | (refine Allows.sub h_R ?_; decide)
    | with_reducible apply rowOf_keeps
    | with_reducible apply hostFlag_keeps

theorem execInjGo_keeps {R : Part → Prop} {b₀ : State} (h : Nat) (setting : Nat) (s : State) (h_R : Allows R [.regs, .tables, .kin, .sys, .mon, .hif, .recd, .sch, .map, .act, .drv, .fjl, .pwm, .cle, .enc, .gns, .tim, .eth, .can, .free]) (h_s : Keeps R b₀ s) : OKeeps R b₀ (execInjGo h setting s) := by
  unfold execInjGo
  repeat' first
    | with_reducible assumption
    | (refine Allows.sub h_R ?_; decide)
    | with_reducible apply rowOf_keeps
    | with_reducible apply hostItems_keeps
    | with_reducible apply PKeeps.fst

theorem execInjStop_keeps {R : Part → Prop} {b₀ : State} (h : Nat) (s : State) (h_R : Allows R [.regs, .tables, .kin, .sys, .mon, .hif, .recd, .sch, .map, .act, .drv, .fjl, .pwm, .cle, .enc, .gns, .tim, .eth, .can, .free]) (h_s : Keeps R b₀ s) : OKeeps R b₀ (execInjStop h s) := by
  unfold execInjStop
  repeat' first
    | with_reducible assumption
    | (refine Allows.sub h_R ?_; decide)
    | with_reducible apply rowOf_keeps
    | with_reducible apply hostFlag_keeps

theorem execCapArm_keeps {R : Part → Prop} {b₀ : State} (h : Nat) (setting : Nat) (s : State) (h_R : Allows R [.regs, .tables, .kin, .sys, .mon, .hif, .recd, .sch, .map, .act, .drv, .fjl, .pwm, .cle, .enc, .gns, .tim, .eth, .can, .free]) (h_s : Keeps R b₀ s) : OKeeps R b₀ (execCapArm h setting s) := by
  unfold execCapArm
  repeat' first
    | with_reducible assumption
    | (refine Allows.sub h_R ?_; decide)
    | with_reducible apply rowOf_keeps
    | with_reducible apply hostItems_keeps
    | with_reducible apply PKeeps.fst

theorem execCapAbort_keeps {R : Part → Prop} {b₀ : State} (h : Nat) (s : State) (h_R : Allows R [.regs, .tables, .kin, .sys, .mon, .hif, .recd, .sch, .map, .act, .drv, .fjl, .pwm, .cle, .enc, .gns, .tim, .eth, .can, .free]) (h_s : Keeps R b₀ s) : OKeeps R b₀ (execCapAbort h s) := by
  unfold execCapAbort
  repeat' first
    | with_reducible assumption
    | (refine Allows.sub h_R ?_; decide)
    | with_reducible apply rowOf_keeps
    | with_reducible apply hostFlag_keeps

theorem execShadowWrite_keeps {R : Part → Prop} {b₀ : State} (h g off : Nat) (mask v : Word) (s : State) (h_R : Allows R [.regs, .tables, .kin, .sys, .mon, .hif, .recd, .sch, .map, .act, .drv, .fjl, .pwm, .cle, .enc, .gns, .tim, .eth, .can, .free]) (h_s : Keeps R b₀ s) : OKeeps R b₀ (execShadowWrite h g off mask v s) := by
  unfold execShadowWrite
  repeat' first
    | with_reducible assumption
    | (refine Allows.sub h_R ?_; decide)
    | with_reducible apply rowOf_keeps
    | with_reducible apply hostItems_keeps
    | with_reducible apply PKeeps.fst

theorem execPwmLoadall_keeps {R : Part → Prop} {b₀ : State} (h groups : Nat) (s : State) (h_R : Allows R [.regs, .tables, .kin, .sys, .mon, .hif, .recd, .sch, .map, .act, .drv, .fjl, .pwm, .cle, .enc, .gns, .tim, .eth, .can, .free]) (h_s : Keeps R b₀ s) : OKeeps R b₀ (execPwmLoadall h groups s) := by
  unfold execPwmLoadall
  repeat' first
    | with_reducible assumption
    | (refine Allows.sub h_R ?_; decide)
    | with_reducible apply rowOf_keeps
    | with_reducible apply hostItems_keeps
    | with_reducible apply PKeeps.fst

theorem execPwmStart_keeps {R : Part → Prop} {b₀ : State} (h g : Nat) (en : Bool) (s : State) (h_R : Allows R [.regs, .tables, .kin, .sys, .mon, .hif, .recd, .sch, .map, .act, .drv, .fjl, .pwm, .cle, .enc, .gns, .tim, .eth, .can, .free]) (h_s : Keeps R b₀ s) : OKeeps R b₀ (execPwmStart h g en s) := by
  unfold execPwmStart
  repeat' first
    | with_reducible assumption
    | (refine Allows.sub h_R ?_; decide)
    | with_reducible apply rowOf_keeps
    | with_reducible apply hostFlag_keeps

theorem execTripClear_keeps {R : Part → Prop} {b₀ : State} (h g trips : Nat) (s : State) (h_R : Allows R [.regs, .tables, .kin, .sys, .mon, .hif, .recd, .sch, .map, .act, .drv, .fjl, .pwm, .cle, .enc, .gns, .tim, .eth, .can, .free]) (h_s : Keeps R b₀ s) : OKeeps R b₀ (execTripClear h g trips s) := by
  unfold execTripClear
  repeat' first
    | with_reducible assumption
    | (refine Allows.sub h_R ?_; decide)
    | with_reducible apply rowOf_keeps
    | with_reducible apply hostItems_keeps
    | with_reducible apply PKeeps.fst

theorem execPwmResume_keeps {R : Part → Prop} {b₀ : State} (h g : Nat) (s : State) (h_R : Allows R [.regs, .tables, .kin, .sys, .mon, .hif, .recd, .sch, .map, .act, .drv, .fjl, .pwm, .cle, .enc, .gns, .tim, .eth, .can, .free]) (h_s : Keeps R b₀ s) : OKeeps R b₀ (execPwmResume h g s) := by
  unfold execPwmResume
  repeat' first
    | with_reducible assumption
    | (refine Allows.sub h_R ?_; decide)
    | with_reducible apply rowOf_keeps
    | with_reducible apply hostFlag_keeps

theorem execPortModeWrite_keeps {R : Part → Prop} {b₀ : State} (h p mode : Nat) (s : State) (h_R : Allows R [.regs, .tables, .kin, .sys, .mon, .hif, .recd, .sch, .map, .act, .drv, .fjl, .pwm, .cle, .enc, .gns, .tim, .eth, .can, .free]) (h_s : Keeps R b₀ s) : OKeeps R b₀ (execPortModeWrite h p mode s) := by
  unfold execPortModeWrite
  repeat' first
    | with_reducible assumption
    | (refine Allows.sub h_R ?_; decide)
    | with_reducible apply rowOf_keeps
    | with_reducible apply hostField_keeps

theorem execPortFaultClear_keeps {R : Part → Prop} {b₀ : State} (h p flags : Nat) (s : State) (h_R : Allows R [.regs, .tables, .kin, .sys, .mon, .hif, .recd, .sch, .map, .act, .drv, .fjl, .pwm, .cle, .enc, .gns, .tim, .eth, .can, .free]) (h_s : Keeps R b₀ s) : OKeeps R b₀ (execPortFaultClear h p flags s) := by
  unfold execPortFaultClear
  repeat' first
    | with_reducible assumption
    | (refine Allows.sub h_R ?_; decide)
    | with_reducible apply rowOf_keeps
    | with_reducible apply hostItems_keeps
    | with_reducible apply PKeeps.fst

theorem execImuXferWrite_keeps {R : Part → Prop} {b₀ : State} (h addr data : Nat) (s : State) (h_R : Allows R [.regs, .tables, .kin, .sys, .mon, .hif, .recd, .sch, .map, .act, .drv, .fjl, .pwm, .cle, .enc, .gns, .tim, .eth, .can, .free]) (h_s : Keeps R b₀ s) : OKeeps R b₀ (execImuXferWrite h addr data s) := by
  unfold execImuXferWrite
  repeat' first
    | with_reducible assumption
    | (refine Allows.sub h_R ?_; decide)
    | with_reducible apply rowOf_keeps
    | with_reducible apply hostItems_keeps
    | with_reducible apply PKeeps.fst

theorem execImuXferRead_keeps {R : Part → Prop} {b₀ : State} (h addr back : Nat) (s : State) (h_R : Allows R [.regs, .tables, .kin, .sys, .mon, .hif, .recd, .sch, .map, .act, .drv, .fjl, .pwm, .cle, .enc, .gns, .tim, .eth, .can, .free]) (h_s : Keeps R b₀ s) : OKeeps R b₀ (execImuXferRead h addr back s) := by
  unfold execImuXferRead
  repeat' first
    | with_reducible assumption
    | (refine Allows.sub h_R ?_; decide)
    | with_reducible apply rowOf_keeps
    | with_reducible apply hostItems_keeps
    | with_reducible apply imuRead_keeps
    | with_reducible apply PKeeps.fst
    | (refine PKeeps.of_eq ‹_› ?_)
    | with_reducible apply OKeeps.answer
    | with_reducible apply OKeeps.next
    | extract_lets
    | split

theorem execGnsRst_keeps {R : Part → Prop} {b₀ : State} (h : Nat) (s : State) (h_R : Allows R [.regs, .tables, .kin, .sys, .mon, .hif, .recd, .sch, .map, .act, .drv, .fjl, .pwm, .cle, .enc, .gns, .tim, .eth, .can, .free]) (h_s : Keeps R b₀ s) : OKeeps R b₀ (execGnsRst h s) := by
  unfold execGnsRst
  repeat' first
    | with_reducible assumption
    | (refine Allows.sub h_R ?_; decide)
    | with_reducible apply rowOf_keeps
    | with_reducible apply hostFlag_keeps

theorem execSlotPin_keeps {R : Part → Prop} {b₀ : State} (h : Nat) (v : Word) (s : State) (h_R : Allows R [.regs, .tables, .kin, .sys, .mon, .hif, .recd, .sch, .map, .act, .drv, .fjl, .pwm, .cle, .enc, .gns, .tim, .eth, .can, .free]) (h_s : Keeps R b₀ s) : OKeeps R b₀ (execSlotPin h v s) := by
  unfold execSlotPin
  repeat' first
    | with_reducible assumption
    | (refine Allows.sub h_R ?_; decide)
    | with_reducible apply rowOf_keeps
    | with_reducible apply hostItems_keeps
    | with_reducible apply PKeeps.fst

theorem execTbSnap_keeps {R : Part → Prop} {b₀ : State} (h : Nat) (s : State) (h_R : Allows R [.regs, .tables, .kin, .sys, .mon, .hif, .recd, .sch, .map, .act, .drv, .fjl, .pwm, .cle, .enc, .gns, .tim, .eth, .can, .free]) (h_s : Keeps R b₀ s) : OKeeps R b₀ (execTbSnap h s) := by
  unfold execTbSnap
  repeat' first
    | with_reducible assumption
    | (refine Allows.sub h_R ?_; decide)
    | with_reducible apply rowOf_keeps
    | with_reducible apply hostFlag_keeps

theorem tbAdjust_keeps {R : Part → Prop} {b₀ : State} (s : State) (h n action : Nat) (atSec : Bool) (adj : BitVec 64) (h_R : Allows R [.regs, .tables, .kin, .sys, .mon, .hif, .recd, .sch, .map, .act, .drv, .fjl, .pwm, .cle, .enc, .gns, .tim, .eth, .can, .free]) (h_s : Keeps R b₀ s) : Keeps R b₀ (tbAdjust s h n action atSec adj) := by
  unfold tbAdjust
  repeat' first
    | with_reducible assumption
    | with_reducible apply hostItems_keeps
    | with_reducible apply PKeeps.fst

theorem execTbSet_keeps {R : Part → Prop} {b₀ : State} (h n : Nat) (adj : BitVec 64) (s : State) (h_R : Allows R [.regs, .tables, .kin, .sys, .mon, .hif, .recd, .sch, .map, .act, .drv, .fjl, .pwm, .cle, .enc, .gns, .tim, .eth, .can, .free]) (h_s : Keeps R b₀ s) : OKeeps R b₀ (execTbSet h n adj s) := by
  unfold execTbSet
  repeat' first
    | with_reducible assumption
    | (refine Allows.sub h_R ?_; decide)
    | with_reducible apply tbAdjust_keeps
    | with_reducible apply rowOf_keeps

theorem execTbStep_keeps {R : Part → Prop} {b₀ : State} (h n : Nat) (atSec : Bool) (adj : BitVec 64) (s : State) (h_R : Allows R [.regs, .tables, .kin, .sys, .mon, .hif, .recd, .sch, .map, .act, .drv, .fjl, .pwm, .cle, .enc, .gns, .tim, .eth, .can, .free]) (h_s : Keeps R b₀ s) : OKeeps R b₀ (execTbStep h n atSec adj s) := by
  unfold execTbStep
  repeat' first
    | with_reducible assumption
    | (refine Allows.sub h_R ?_; decide)
    | with_reducible apply tbAdjust_keeps
    | with_reducible apply rowOf_keeps

theorem execTbSlew_keeps {R : Part → Prop} {b₀ : State} (h n : Nat) (adj : BitVec 64) (s : State) (h_R : Allows R [.regs, .tables, .kin, .sys, .mon, .hif, .recd, .sch, .map, .act, .drv, .fjl, .pwm, .cle, .enc, .gns, .tim, .eth, .can, .free]) (h_s : Keeps R b₀ s) : OKeeps R b₀ (execTbSlew h n adj s) := by
  unfold execTbSlew
  repeat' first
    | with_reducible assumption
    | (refine Allows.sub h_R ?_; decide)
    | with_reducible apply tbAdjust_keeps
    | with_reducible apply rowOf_keeps

theorem execInsert_keeps {R : Part → Prop} {b₀ : State} (h : Nat) (s : State) (h_R : Allows R [.regs, .tables, .kin, .sys, .mon, .hif, .recd, .sch, .map, .act, .drv, .fjl, .pwm, .cle, .enc, .gns, .tim, .eth, .can, .free]) (h_s : Keeps R b₀ s) : OKeeps R b₀ (execInsert h s) := by
  unfold execInsert
  repeat' first
    | with_reducible assumption
    | (refine Allows.sub h_R ?_; decide)
    | with_reducible apply rowOf_keeps
    | with_reducible apply hostFlag_keeps

theorem execBypass_keeps {R : Part → Prop} {b₀ : State} (h : Nat) (s : State) (h_R : Allows R [.regs, .tables, .kin, .sys, .mon, .hif, .recd, .sch, .map, .act, .drv, .fjl, .pwm, .cle, .enc, .gns, .tim, .eth, .can, .free]) (h_s : Keeps R b₀ s) : OKeeps R b₀ (execBypass h s) := by
  unfold execBypass
  repeat' first
    | with_reducible assumption
    | (refine Allows.sub h_R ?_; decide)
    | with_reducible apply rowOf_keeps
    | with_reducible apply hostFlag_keeps

theorem execRelayFaultClear_keeps {R : Part → Prop} {b₀ : State} (h : Nat) (s : State) (h_R : Allows R [.regs, .tables, .kin, .sys, .mon, .hif, .recd, .sch, .map, .act, .drv, .fjl, .pwm, .cle, .enc, .gns, .tim, .eth, .can, .free]) (h_s : Keeps R b₀ s) : OKeeps R b₀ (execRelayFaultClear h s) := by
  unfold execRelayFaultClear
  repeat' first
    | with_reducible assumption
    | (refine Allows.sub h_R ?_; decide)
    | with_reducible apply rowOf_keeps
    | with_reducible apply hostFlag_keeps

theorem execCanEn_keeps {R : Part → Prop} {b₀ : State} (h x : Nat) (en : Bool) (s : State) (h_R : Allows R [.regs, .tables, .kin, .sys, .mon, .hif, .recd, .sch, .map, .act, .drv, .fjl, .pwm, .cle, .enc, .gns, .tim, .eth, .can, .free]) (h_s : Keeps R b₀ s) : OKeeps R b₀ (execCanEn h x en s) := by
  unfold execCanEn
  repeat' first
    | with_reducible assumption
    | (refine Allows.sub h_R ?_; decide)
    | with_reducible apply rowOf_keeps
    | with_reducible apply hostFlag_keeps

theorem execRecover_keeps {R : Part → Prop} {b₀ : State} (h x : Nat) (s : State) (h_R : Allows R [.regs, .tables, .kin, .sys, .mon, .hif, .recd, .sch, .map, .act, .drv, .fjl, .pwm, .cle, .enc, .gns, .tim, .eth, .can, .free]) (h_s : Keeps R b₀ s) : OKeeps R b₀ (execRecover h x s) := by
  unfold execRecover
  repeat' first
    | with_reducible assumption
    | (refine Allows.sub h_R ?_; decide)
    | with_reducible apply rowOf_keeps
    | with_reducible apply hostFlag_keeps

theorem execAvsModeWrite_keeps {R : Part → Prop} {b₀ : State} (h : Nat) (set : Bool) (v : Nat) (s : State) (h_R : Allows R [.regs, .tables, .kin, .sys, .mon, .hif, .recd, .sch, .map, .act, .drv, .fjl, .pwm, .cle, .enc, .gns, .tim, .eth, .can, .free]) (h_s : Keeps R b₀ s) : OKeeps R b₀ (execAvsModeWrite h set v s) := by
  unfold execAvsModeWrite
  repeat' first
    | with_reducible assumption
    | (refine Allows.sub h_R ?_; decide)
    | with_reducible apply rowOf_keeps
    | with_reducible apply hostField_keeps
    | with_reducible apply OKeeps.answer
    | with_reducible apply OKeeps.next
    | extract_lets
    | split

theorem execBlockReset_keeps {R : Part → Prop} {b₀ : State} (h : Nat) (v : Word) (s : State) (h_R : Allows R [.regs, .tables, .kin, .sys, .mon, .hif, .recd, .sch, .map, .act, .drv, .fjl, .pwm, .cle, .enc, .gns, .tim, .eth, .can, .free]) (h_s : Keeps R b₀ s) : OKeeps R b₀ (execBlockReset h v s) := by
  unfold execBlockReset
  repeat' first
    | with_reducible assumption
    | (refine Allows.sub h_R ?_; decide)
    | with_reducible apply rowOf_keeps
    | with_reducible apply hostItems_keeps
    | with_reducible apply PKeeps.fst

theorem execStateWordWrite_keeps {R : Part → Prop} {b₀ : State} (h kind n : Nat) (v : Word) (s : State) (h_R : Allows R [.regs, .tables, .kin, .sys, .mon, .hif, .recd, .sch, .map, .act, .drv, .fjl, .pwm, .cle, .enc, .gns, .tim, .eth, .can, .free]) (h_s : Keeps R b₀ s) : OKeeps R b₀ (execStateWordWrite h kind n v s) := by
  unfold execStateWordWrite
  repeat' first
    | with_reducible assumption
    | (refine Allows.sub h_R ?_; decide)
    | with_reducible apply rowOf_keeps
    | with_reducible apply hostItems_keeps
    | with_reducible apply PKeeps.fst

theorem execKinEn_keeps {R : Part → Prop} {b₀ : State} (h : Nat) (en : Bool) (s : State) (h_R : Allows R [.regs, .tables, .kin, .sys, .mon, .hif, .recd, .sch, .map, .act, .drv, .fjl, .pwm, .cle, .enc, .gns, .tim, .eth, .can, .free]) (h_s : Keeps R b₀ s) : OKeeps R b₀ (execKinEn h en s) := by
  unfold execKinEn
  repeat' first
    | with_reducible assumption
    | (refine Allows.sub h_R ?_; decide)
    | with_reducible apply rowOf_keeps
    | with_reducible apply hostFlag_keeps

theorem execSchEn_keeps {R : Part → Prop} {b₀ : State} (h : Nat) (en : Bool) (s : State) (h_R : Allows R [.regs, .tables, .kin, .sys, .mon, .hif, .recd, .sch, .map, .act, .drv, .fjl, .pwm, .cle, .enc, .gns, .tim, .eth, .can, .free]) (h_s : Keeps R b₀ s) : OKeeps R b₀ (execSchEn h en s) := by
  unfold execSchEn
  repeat' first
    | with_reducible assumption
    | (refine Allows.sub h_R ?_; decide)
    | with_reducible apply rowOf_keeps
    | with_reducible apply hostFlag_keeps

theorem execMapEn_keeps {R : Part → Prop} {b₀ : State} (h : Nat) (en : Bool) (s : State) (h_R : Allows R [.regs, .tables, .kin, .sys, .mon, .hif, .recd, .sch, .map, .act, .drv, .fjl, .pwm, .cle, .enc, .gns, .tim, .eth, .can, .free]) (h_s : Keeps R b₀ s) : OKeeps R b₀ (execMapEn h en s) := by
  unfold execMapEn
  repeat' first
    | with_reducible assumption
    | (refine Allows.sub h_R ?_; decide)
    | with_reducible apply rowOf_keeps
    | with_reducible apply hostFlag_keeps

theorem execKinChSel_keeps {R : Part → Prop} {b₀ : State} (h : Nat) (v : Word) (s : State) (h_R : Allows R [.regs, .tables, .kin, .sys, .mon, .hif, .recd, .sch, .map, .act, .drv, .fjl, .pwm, .cle, .enc, .gns, .tim, .eth, .can, .free]) (h_s : Keeps R b₀ s) : OKeeps R b₀ (execKinChSel h v s) := by
  unfold execKinChSel
  repeat' first
    | with_reducible assumption
    | (refine Allows.sub h_R ?_; decide)
    | with_reducible apply rowOf_keeps
    | with_reducible apply hostItems_keeps
    | with_reducible apply PKeeps.fst

theorem execSchSlotSel_keeps {R : Part → Prop} {b₀ : State} (h : Nat) (v : Word) (s : State) (h_R : Allows R [.regs, .tables, .kin, .sys, .mon, .hif, .recd, .sch, .map, .act, .drv, .fjl, .pwm, .cle, .enc, .gns, .tim, .eth, .can, .free]) (h_s : Keeps R b₀ s) : OKeeps R b₀ (execSchSlotSel h v s) := by
  unfold execSchSlotSel
  repeat' first
    | with_reducible assumption
    | (refine Allows.sub h_R ?_; decide)
    | with_reducible apply rowOf_keeps
    | with_reducible apply hostItems_keeps
    | with_reducible apply PKeeps.fst

theorem execSchChSel_keeps {R : Part → Prop} {b₀ : State} (h : Nat) (v : Word) (s : State) (h_R : Allows R [.regs, .tables, .kin, .sys, .mon, .hif, .recd, .sch, .map, .act, .drv, .fjl, .pwm, .cle, .enc, .gns, .tim, .eth, .can, .free]) (h_s : Keeps R b₀ s) : OKeeps R b₀ (execSchChSel h v s) := by
  unfold execSchChSel
  repeat' first
    | with_reducible assumption
    | (refine Allows.sub h_R ?_; decide)
    | with_reducible apply rowOf_keeps
    | with_reducible apply hostItems_keeps
    | with_reducible apply PKeeps.fst

theorem execMapChSel_keeps {R : Part → Prop} {b₀ : State} (h : Nat) (v : Word) (s : State) (h_R : Allows R [.regs, .tables, .kin, .sys, .mon, .hif, .recd, .sch, .map, .act, .drv, .fjl, .pwm, .cle, .enc, .gns, .tim, .eth, .can, .free]) (h_s : Keeps R b₀ s) : OKeeps R b₀ (execMapChSel h v s) := by
  unfold execMapChSel
  repeat' first
    | with_reducible assumption
    | (refine Allows.sub h_R ?_; decide)
    | with_reducible apply rowOf_keeps
    | with_reducible apply hostItems_keeps
    | with_reducible apply PKeeps.fst

theorem execActChSel_keeps {R : Part → Prop} {b₀ : State} (h : Nat) (v : Word) (s : State) (h_R : Allows R [.regs, .tables, .kin, .sys, .mon, .hif, .recd, .sch, .map, .act, .drv, .fjl, .pwm, .cle, .enc, .gns, .tim, .eth, .can, .free]) (h_s : Keeps R b₀ s) : OKeeps R b₀ (execActChSel h v s) := by
  unfold execActChSel
  repeat' first
    | with_reducible assumption
    | (refine Allows.sub h_R ?_; decide)
    | with_reducible apply rowOf_keeps
    | with_reducible apply hostItems_keeps
    | with_reducible apply PKeeps.fst

theorem execGnsSlotSel_keeps {R : Part → Prop} {b₀ : State} (h : Nat) (v : Word) (s : State) (h_R : Allows R [.regs, .tables, .kin, .sys, .mon, .hif, .recd, .sch, .map, .act, .drv, .fjl, .pwm, .cle, .enc, .gns, .tim, .eth, .can, .free]) (h_s : Keeps R b₀ s) : OKeeps R b₀ (execGnsSlotSel h v s) := by
  unfold execGnsSlotSel
  repeat' first
    | with_reducible assumption
    | (refine Allows.sub h_R ?_; decide)
    | with_reducible apply rowOf_keeps
    | with_reducible apply hostItems_keeps
    | with_reducible apply PKeeps.fst

theorem execAlarmFlagClear_keeps {R : Part → Prop} {b₀ : State} (h flags : Nat) (s : State) (h_R : Allows R [.regs, .tables, .kin, .sys, .mon, .hif, .recd, .sch, .map, .act, .drv, .fjl, .pwm, .cle, .enc, .gns, .tim, .eth, .can, .free]) (h_s : Keeps R b₀ s) : OKeeps R b₀ (execAlarmFlagClear h flags s) := by
  unfold execAlarmFlagClear
  repeat' first
    | with_reducible assumption
    | (refine Allows.sub h_R ?_; decide)
    | with_reducible apply rowOf_keeps
    | with_reducible apply hostItems_keeps
    | with_reducible apply PKeeps.fst

theorem execClrCov_keeps {R : Part → Prop} {b₀ : State} (h : Nat) (s : State) (h_R : Allows R [.regs, .tables, .kin, .sys, .mon, .hif, .recd, .sch, .map, .act, .drv, .fjl, .pwm, .cle, .enc, .gns, .tim, .eth, .can, .free]) (h_s : Keeps R b₀ s) : OKeeps R b₀ (execClrCov h s) := by
  unfold execClrCov
  repeat' first
    | with_reducible assumption
    | (refine Allows.sub h_R ?_; decide)
    | with_reducible apply rowOf_keeps
    | with_reducible apply hostFlag_keeps

theorem execClrExc_keeps {R : Part → Prop} {b₀ : State} (h : Nat) (s : State) (h_R : Allows R [.regs, .tables, .kin, .sys, .mon, .hif, .recd, .sch, .map, .act, .drv, .fjl, .pwm, .cle, .enc, .gns, .tim, .eth, .can, .free]) (h_s : Keeps R b₀ s) : OKeeps R b₀ (execClrExc h s) := by
  unfold execClrExc
  repeat' first
    | with_reducible assumption
    | (refine Allows.sub h_R ?_; decide)
    | with_reducible apply rowOf_keeps
    | with_reducible apply hostFlag_keeps

theorem execClrZone_keeps {R : Part → Prop} {b₀ : State} (h : Nat) (s : State) (h_R : Allows R [.regs, .tables, .kin, .sys, .mon, .hif, .recd, .sch, .map, .act, .drv, .fjl, .pwm, .cle, .enc, .gns, .tim, .eth, .can, .free]) (h_s : Keeps R b₀ s) : OKeeps R b₀ (execClrZone h s) := by
  unfold execClrZone
  repeat' first
    | with_reducible assumption
    | (refine Allows.sub h_R ?_; decide)
    | with_reducible apply rowOf_keeps
    | with_reducible apply hostFlag_keeps

theorem execClrAll_keeps {R : Part → Prop} {b₀ : State} (h : Nat) (s : State) (h_R : Allows R [.regs, .tables, .kin, .sys, .mon, .hif, .recd, .sch, .map, .act, .drv, .fjl, .pwm, .cle, .enc, .gns, .tim, .eth, .can, .free]) (h_s : Keeps R b₀ s) : OKeeps R b₀ (execClrAll h s) := by
  unfold execClrAll
  repeat' first
    | with_reducible assumption
    | (refine Allows.sub h_R ?_; decide)
    | with_reducible apply rowOf_keeps
    | with_reducible apply hostFlag_keeps

theorem execRasterGo_keeps {R : Part → Prop} {b₀ : State} (h : Nat) (s : State) (h_R : Allows R [.regs, .tables, .kin, .sys, .mon, .hif, .recd, .sch, .map, .act, .drv, .fjl, .pwm, .cle, .enc, .gns, .tim, .eth, .can, .free]) (h_s : Keeps R b₀ s) : OKeeps R b₀ (execRasterGo h s) := by
  unfold execRasterGo
  repeat' first
    | with_reducible assumption
    | (refine Allows.sub h_R ?_; decide)
    | with_reducible apply rowOf_keeps
    | with_reducible apply hostFlag_keeps

end Sys2Proof.Machine
end

