-- ==== Sys2Proof/Laws/KeepsKstep.lean ====
section
/-!
SUPPORT. Sys2Proof/Laws/KeepsKstep.lean: the operations of Machine/Kstep.lean keep what `Keeps` names.
-/
namespace Sys2Proof.Machine

theorem tcSetpoint_keeps {R : Part → Prop} {b₀ : State} (s : State) (h z v : Nat) (h_R : Allows R [.regs, .tables, .kin, .sys, .mon, .hif, .recd, .sch, .map, .act, .drv, .fjl, .pwm, .cle, .enc, .gns, .tim, .eth, .can, .free]) (h_s : Keeps R b₀ s) : Keeps R b₀ (tcSetpoint s h z v) := by
  unfold tcSetpoint
  repeat' first
    | with_reducible assumption
    | (refine Allows.sub h_R ?_; decide)
    | with_reducible apply writeItems_keeps
    | with_reducible apply fresh_keeps
    | with_reducible apply PKeeps.fst
    | (refine PKeeps.of_eq ‹_› ?_)
    | (refine fresh_keeps_eq ‹_› ?_ ?_)
    | with_reducible apply Keeps.ite
    | extract_lets
    | split

theorem tcValue_keeps {R : Part → Prop} {b₀ : State} (s : State) (v : TcValue) (h_R : Allows R [.regs, .tables, .kin, .sys, .mon, .hif, .recd, .sch, .map, .act, .drv, .fjl, .pwm, .cle, .enc, .gns, .tim, .eth, .can, .free]) (h_s : Keeps R b₀ s) : Keeps R b₀ (tcValue s v) := by
  unfold tcValue
  repeat' first
    | with_reducible assumption
    | with_reducible apply tcSetpoint_keeps
    | with_reducible apply writeItems_keeps
    | with_reducible apply PKeeps.fst
    | (refine PKeeps.of_eq ‹_› ?_)
    | with_reducible apply Keeps.ite
    | extract_lets
    | split

theorem recBoundary_keeps {R : Part → Prop} {b₀ : State} (s : State) (h_R : Allows R [.regs, .recd]) (h_s : Keeps R b₀ s) : Keeps R b₀ (recBoundary s) := by
  unfold recBoundary
  repeat' first
    | with_reducible assumption
    | (refine Allows.sub h_R ?_; decide)
    | with_reducible apply nonceExpiry_keeps
    | with_reducible apply lockoutEnd_keeps
    | with_reducible apply freezeTimeout_keeps

theorem stepCommands_keeps {R : Part → Prop} {b₀ : State} (s : State) (tc : List TcValue) (h_R : Allows R [.regs, .tables, .kin, .sys, .mon, .hif, .recd, .sch, .map, .act, .drv, .fjl, .pwm, .cle, .enc, .gns, .tim, .eth, .can, .free]) (h_s : Keeps R b₀ s) : Keeps R b₀ (stepCommands s tc) := by
  unfold stepCommands
  have r_sys : R .sys := h_R _ (by decide)
  repeat' first
    | with_reducible assumption
    | with_reducible apply tcValue_keeps
    | with_reducible apply Keeps.foldl
    | intro _ _ _
    | with_reducible apply Keeps.ite
    | extract_lets
    | fail_if_no_progress (with_reducible refine Keeps.put_sys r_sys ?_)

theorem passBoundary_keeps {R : Part → Prop} {b₀ : State} (s : State) (h_R : Allows R [.recd, .now]) (h_s : Keeps R b₀ s) : Keeps R b₀ (passBoundary s) := by
  unfold passBoundary
  have r_recd : R .recd := h_R _ (by decide)
  have r_now : R .now := h_R _ (by decide)
  repeat' first
    | with_reducible assumption
    | with_reducible apply Keeps.ite
    | extract_lets
    | fail_if_no_progress (with_reducible refine Keeps.put ?_ (.inr rfl) (.inr rfl) (.inr rfl) (.inr rfl) (.inr rfl) (.inl r_recd) (.inr rfl) (.inr rfl) (.inr rfl) (.inr rfl) (.inr rfl) (.inr rfl) (.inr rfl) (.inr rfl) (.inr rfl) (.inr rfl) (.inr rfl) (.inr rfl) (.inl r_now))

theorem boundaryPhase_keeps {R : Part → Prop} {b₀ : State} (s : State) (pins : List TripPin) (h_R : Allows R [.regs, .tables, .kin, .sys, .boot, .mon, .hif, .recd, .sch, .map, .act, .drv, .fjl, .pwm, .cle, .enc, .tim, .eth, .free]) (h_s : Keeps R b₀ s) : Keeps R b₀ (boundaryPhase s pins) := by
  unfold boundaryPhase
  repeat' first
    | with_reducible assumption
    | (refine Allows.sub h_R ?_; decide)
    | with_reducible apply recBoundary_keeps
    | with_reducible apply hifBoundary_keeps
    | with_reducible apply brstRelease_keeps
    | with_reducible apply monBoundary_keeps
    | with_reducible apply canBoundary_keeps
    | with_reducible apply ethBoundary_keeps
    | with_reducible apply timBoundary_keeps
    | with_reducible apply cleBoundary_keeps
    | with_reducible apply encBoundary_keeps
    | with_reducible apply tripPin_keeps
    | with_reducible apply fjlBoundary_keeps
    | with_reducible apply originBoundary_keeps
    | with_reducible apply schBoundary_keeps
    | with_reducible apply drvBoundary_keeps
    | with_reducible apply actBoundary_keeps
    | with_reducible apply crossBoundary_keeps
    | with_reducible apply Keeps.foldl
    | intro _ _ _

theorem kinematicPhases_keeps {R : Part → Prop} {b₀ : State} (s : State) (h_R : Allows R [.regs, .kin, .sys, .recd, .sch, .map, .act, .fjl, .free]) (h_s : Keeps R b₀ s) : Keeps R b₀ (kinematicPhases s) := by
  unfold kinematicPhases
  repeat' first
    | with_reducible assumption
    | (refine Allows.sub h_R ?_; decide)
    | with_reducible apply mapStep_keeps
    | with_reducible apply schStep_keeps
    | with_reducible apply kinStep_keeps

theorem kinematicStep_keeps {R : Part → Prop} {b₀ : State} (s : State) (pins : List TripPin) (tc : List TcValue) (h_R : Allows R [.regs, .tables, .kin, .sys, .boot, .mon, .hif, .recd, .sch, .map, .act, .drv, .fjl, .pwm, .cle, .enc, .gns, .tim, .eth, .can, .now, .free]) (h_s : Keeps R b₀ s) : Keeps R b₀ (kinematicStep s pins tc) := by
  unfold kinematicStep
  repeat' first
    | with_reducible assumption
    | (refine Allows.sub h_R ?_; decide)
    | with_reducible apply kinematicPhases_keeps
    | with_reducible apply boundaryPhase_keeps
    | with_reducible apply passBoundary_keeps
    | with_reducible apply stepCommands_keeps
    | with_reducible apply rollUp_keeps
    | with_reducible apply Keeps.ite

theorem execKinematicStep_keeps {R : Part → Prop} {b₀ : State} (pins : List TripPin) (tc : List TcValue) (s : State) (h_R : Allows R [.regs, .tables, .kin, .sys, .boot, .mon, .hif, .recd, .sch, .map, .act, .drv, .fjl, .pwm, .cle, .enc, .gns, .tim, .eth, .can, .now, .free]) (h_s : Keeps R b₀ s) : OKeeps R b₀ (execKinematicStep pins tc s) := by
  unfold execKinematicStep
  repeat' first
    | with_reducible assumption
    | with_reducible apply kinematicStep_keeps
    | with_reducible apply OKeeps.answer

end Sys2Proof.Machine
end

