-- ==== Sys2Proof/Laws/Regs.lean ====
section
/-!
SUPPORT. Sys2Proof/Laws/Regs.lean: registers and fields: what is read after a write of a register or of a field.
-/
namespace Sys2Proof.Machine

theorem getLsbD_bitMask (hi lo j : Nat) : (bitMask hi lo).getLsbD j = (decide (j < 32) && (decide (lo ≤ j) && decide (j - lo < hi - lo + 1))) := by
  simp only [bitMask, BitVec.getLsbD_ofNat, Nat.testBit_mul_two_pow, Nat.testBit_two_pow_sub_one]

theorem getLsbD_bitsSet (w : Word) (hi lo v j : Nat) (h : lo ≤ hi) :
    (bitsSet w hi lo v).getLsbD j = if lo ≤ j ∧ j ≤ hi ∧ j < 32 then v.testBit (j - lo) else w.getLsbD j := by
  by_cases hj : j < 32
  · simp only [bitsSet, BitVec.getLsbD_or, BitVec.getLsbD_and, BitVec.getLsbD_not, getLsbD_bitMask, BitVec.getLsbD_ofNat,
      Nat.testBit_mul_two_pow, Nat.testBit_mod_two_pow, hj, decide_true, Bool.true_and]
    by_cases h1 : lo ≤ j
    · by_cases h2 : j ≤ hi
      · have h3 : j - lo < hi - lo + 1 := by omega
        simp [h1, h2, h3, hj]
      · have h3 : ¬ (j - lo < hi - lo + 1) := by omega
        simp [h1, h2, h3]
    · simp [h1]
  · have h1 : ¬ (lo ≤ j ∧ j ≤ hi ∧ j < 32) := by omega
    rw [if_neg h1, BitVec.getLsbD_of_ge _ _ (by omega), BitVec.getLsbD_of_ge _ _ (by omega)]

theorem testBit_bitsOf (w : Word) (hi lo i : Nat) : (bitsOf w hi lo).testBit i = (decide (i < hi - lo + 1) && w.getLsbD (lo + i)) := by
  simp only [bitsOf, Nat.testBit_mod_two_pow, Nat.testBit_div_two_pow, BitVec.testBit_toNat]
  rw [Nat.add_comm i lo]

/-- A field reads what was put into it. -/
theorem bitsOf_bitsSet (w : Word) (hi lo v : Nat) (h : lo ≤ hi) (h2 : hi < 32) :
    bitsOf (bitsSet w hi lo v) hi lo = v % 2 ^ (hi - lo + 1) := by
  apply Nat.eq_of_testBit_eq
  intro i
  rw [testBit_bitsOf, getLsbD_bitsSet _ _ _ _ _ h, Nat.testBit_mod_two_pow]
  by_cases hi' : i < hi - lo + 1
  · have : lo ≤ lo + i ∧ lo + i ≤ hi ∧ lo + i < 32 := by omega
    rw [if_pos this]; simp [hi']
  · simp [hi']

/-- A field beside the one that was written reads as before. -/
theorem bitsOf_bitsSet_ne (w : Word) (hi lo hi' lo' v : Nat) (h : lo ≤ hi) (h' : lo' ≤ hi') (hd : hi < lo' ∨ hi' < lo) :
    bitsOf (bitsSet w hi lo v) hi' lo' = bitsOf w hi' lo' := by
  apply Nat.eq_of_testBit_eq
  intro i
  rw [testBit_bitsOf, testBit_bitsOf, getLsbD_bitsSet _ _ _ _ _ h]
  by_cases hi'' : i < hi' - lo' + 1
  · have : ¬ (lo ≤ lo' + i ∧ lo' + i ≤ hi ∧ lo' + i < 32) := by omega
    rw [if_neg this]
  · simp [hi'']

theorem bitsOf_lt (w : Word) (hi lo : Nat) : bitsOf w hi lo < 2 ^ (hi - lo + 1) := Nat.mod_lt _ (Nat.two_pow_pos _)

/-- A register reads what was written into it, and every other register reads as before. -/
theorem rd_wr (s : State) (i j : Nat) (v : Word) : rd (wr s i v) j = if j = i then v else rd s j := by
  unfold rd wr
  split
  · subst_vars; exact sparseGet_set _ _ _ _
  · exact sparseGet_set_ne _ _ _ _ _ (by assumption)

theorem rd_wr_self (s : State) (i : Nat) (v : Word) : rd (wr s i v) i = v := by rw [rd_wr, if_pos rfl]

theorem rd_wr_ne (s : State) (i j : Nat) (v : Word) (h : j ≠ i) : rd (wr s i v) j = rd s j := by rw [rd_wr, if_neg h]

theorem rd_setF (s : State) (f : Field) (v j : Nat) :
    rd (setF s f v) j = if j = f.reg then bitsSet (rd s f.reg) f.hi f.lo v else rd s j := rd_wr _ _ _ _

theorem rd_setF_ne (s : State) (f : Field) (v j : Nat) (h : j ≠ f.reg) : rd (setF s f v) j = rd s j := rd_wr_ne _ _ _ _ h

theorem rd_setB_ne (s : State) (f : Field) (b : Bool) (j : Nat) (h : j ≠ f.reg) : rd (setB s f b) j = rd s j := rd_wr_ne _ _ _ _ h

theorem rd_setI_ne (s : State) (f : Field) (v : Int) (j : Nat) (h : j ≠ f.reg) : rd (setI s f v) j = rd s j := rd_wr_ne _ _ _ _ h

theorem rd_bump_ne (s : State) (f : Field) (n j : Nat) (h : j ≠ f.reg) : rd (bump s f n) j = rd s j := rd_wr_ne _ _ _ _ h

/-- A field reads what was written into it. -/
theorem getF_setF (s : State) (f : Field) (v : Nat) (hf : f.lo ≤ f.hi ∧ f.hi < 32) :
    getF (setF s f v) f = v % 2 ^ (f.hi - f.lo + 1) := by
  unfold getF
  rw [rd_setF, if_pos rfl, bitsOf_bitsSet _ _ _ _ hf.1 hf.2]

/-- A field of another register, or beside the one that was written, reads as before. -/
theorem getF_setF_ne (s : State) (f g : Field) (v : Nat) (hf : f.lo ≤ f.hi) (hg : g.lo ≤ g.hi)
    (hd : g.reg ≠ f.reg ∨ f.hi < g.lo ∨ g.hi < f.lo) : getF (setF s f v) g = getF s g := by
  unfold getF
  rw [rd_setF]
  split
  · rename_i e
    rw [bitsOf_bitsSet_ne _ _ _ _ _ _ hf hg (by tauto), e]
  · rfl

/-- A counter field adds, and stops at its largest value. -/
theorem getF_bump (s : State) (f : Field) (n : Nat) (hf : f.lo ≤ f.hi ∧ f.hi < 32) :
    getF (bump s f n) f = min (getF s f + n) (2 ^ (f.hi - f.lo + 1) - 1) := by
  unfold bump
  rw [getF_setF _ _ _ hf]
  exact Nat.mod_eq_of_lt (Nat.lt_of_le_of_lt (Nat.min_le_right _ _) (Nat.sub_lt (Nat.two_pow_pos _) (by decide)))

/-- A flag reads what was written into it. -/
theorem flag_setB (s : State) (f : Field) (b : Bool) (hf : f.lo ≤ f.hi ∧ f.hi < 32) : flag (setB s f b) f = b := by
  unfold flag setB
  rw [getF_setF _ _ _ hf]
  cases b
  · simp
  · have : 1 < 2 ^ (f.hi - f.lo + 1) := Nat.one_lt_two_pow (by omega)
    simp [Nat.mod_eq_of_lt this]

theorem flag_setB_ne (s : State) (f g : Field) (b : Bool) (hf : f.lo ≤ f.hi) (hg : g.lo ≤ g.hi)
    (hd : g.reg ≠ f.reg ∨ f.hi < g.lo ∨ g.hi < f.lo) : flag (setB s f b) g = flag s g := by
  unfold flag setB
  rw [getF_setF_ne _ _ _ _ hf hg hd]

/-- After a reset of registers those that it names read their reset values and the others read as before. -/
theorem rd_resetRegs (s : State) (p : Nat → Bool) (j : Nat) : rd (resetRegs s p) j = if p j then regReset j else rd s j := by
  unfold rd resetRegs
  exact sparseGet_drop _ _ _ _

end Sys2Proof.Machine
end

