-- ==== Sys2Proof/Laws/State.lean ====
section
/-!
SUPPORT. Sys2Proof/Laws/State.lean: the named updates of State leave the other fields as they are; one lemma per update and
field, each true by unfolding.
-/
namespace Sys2Proof.Machine

@[simp] theorem wr_tables (s : State) (i : Nat) (v : Word) : (wr s i v).tables = s.tables := rfl
@[simp] theorem wr_kin (s : State) (i : Nat) (v : Word) : (wr s i v).kin = s.kin := rfl
@[simp] theorem wr_sys (s : State) (i : Nat) (v : Word) : (wr s i v).sys = s.sys := rfl
@[simp] theorem wr_boot (s : State) (i : Nat) (v : Word) : (wr s i v).boot = s.boot := rfl
@[simp] theorem wr_mon (s : State) (i : Nat) (v : Word) : (wr s i v).mon = s.mon := rfl
@[simp] theorem wr_hif (s : State) (i : Nat) (v : Word) : (wr s i v).hif = s.hif := rfl
@[simp] theorem wr_recd (s : State) (i : Nat) (v : Word) : (wr s i v).recd = s.recd := rfl
@[simp] theorem wr_sch (s : State) (i : Nat) (v : Word) : (wr s i v).sch = s.sch := rfl
@[simp] theorem wr_map (s : State) (i : Nat) (v : Word) : (wr s i v).map = s.map := rfl
@[simp] theorem wr_act (s : State) (i : Nat) (v : Word) : (wr s i v).act = s.act := rfl
@[simp] theorem wr_drv (s : State) (i : Nat) (v : Word) : (wr s i v).drv = s.drv := rfl
@[simp] theorem wr_fjl (s : State) (i : Nat) (v : Word) : (wr s i v).fjl = s.fjl := rfl
@[simp] theorem wr_pwm (s : State) (i : Nat) (v : Word) : (wr s i v).pwm = s.pwm := rfl
@[simp] theorem wr_cle (s : State) (i : Nat) (v : Word) : (wr s i v).cle = s.cle := rfl
@[simp] theorem wr_enc (s : State) (i : Nat) (v : Word) : (wr s i v).enc = s.enc := rfl
@[simp] theorem wr_gns (s : State) (i : Nat) (v : Word) : (wr s i v).gns = s.gns := rfl
@[simp] theorem wr_tim (s : State) (i : Nat) (v : Word) : (wr s i v).tim = s.tim := rfl
@[simp] theorem wr_eth (s : State) (i : Nat) (v : Word) : (wr s i v).eth = s.eth := rfl
@[simp] theorem wr_can (s : State) (i : Nat) (v : Word) : (wr s i v).can = s.can := rfl
@[simp] theorem wr_now (s : State) (i : Nat) (v : Word) : (wr s i v).now = s.now := rfl
@[simp] theorem wr_free (s : State) (i : Nat) (v : Word) : (wr s i v).free = s.free := rfl
@[simp] theorem wr_pending (s : State) (i : Nat) (v : Word) : (wr s i v).pending = s.pending := rfl

@[simp] theorem setF_tables (s : State) (f : Field) (v : Nat) : (setF s f v).tables = s.tables := rfl
@[simp] theorem setF_kin (s : State) (f : Field) (v : Nat) : (setF s f v).kin = s.kin := rfl
@[simp] theorem setF_sys (s : State) (f : Field) (v : Nat) : (setF s f v).sys = s.sys := rfl
@[simp] theorem setF_boot (s : State) (f : Field) (v : Nat) : (setF s f v).boot = s.boot := rfl
@[simp] theorem setF_mon (s : State) (f : Field) (v : Nat) : (setF s f v).mon = s.mon := rfl
@[simp] theorem setF_hif (s : State) (f : Field) (v : Nat) : (setF s f v).hif = s.hif := rfl
@[simp] theorem setF_recd (s : State) (f : Field) (v : Nat) : (setF s f v).recd = s.recd := rfl
@[simp] theorem setF_sch (s : State) (f : Field) (v : Nat) : (setF s f v).sch = s.sch := rfl
@[simp] theorem setF_map (s : State) (f : Field) (v : Nat) : (setF s f v).map = s.map := rfl
@[simp] theorem setF_act (s : State) (f : Field) (v : Nat) : (setF s f v).act = s.act := rfl
@[simp] theorem setF_drv (s : State) (f : Field) (v : Nat) : (setF s f v).drv = s.drv := rfl
@[simp] theorem setF_fjl (s : State) (f : Field) (v : Nat) : (setF s f v).fjl = s.fjl := rfl
@[simp] theorem setF_pwm (s : State) (f : Field) (v : Nat) : (setF s f v).pwm = s.pwm := rfl
@[simp] theorem setF_cle (s : State) (f : Field) (v : Nat) : (setF s f v).cle = s.cle := rfl
@[simp] theorem setF_enc (s : State) (f : Field) (v : Nat) : (setF s f v).enc = s.enc := rfl
@[simp] theorem setF_gns (s : State) (f : Field) (v : Nat) : (setF s f v).gns = s.gns := rfl
@[simp] theorem setF_tim (s : State) (f : Field) (v : Nat) : (setF s f v).tim = s.tim := rfl
@[simp] theorem setF_eth (s : State) (f : Field) (v : Nat) : (setF s f v).eth = s.eth := rfl
@[simp] theorem setF_can (s : State) (f : Field) (v : Nat) : (setF s f v).can = s.can := rfl
@[simp] theorem setF_now (s : State) (f : Field) (v : Nat) : (setF s f v).now = s.now := rfl
@[simp] theorem setF_free (s : State) (f : Field) (v : Nat) : (setF s f v).free = s.free := rfl
@[simp] theorem setF_pending (s : State) (f : Field) (v : Nat) : (setF s f v).pending = s.pending := rfl

@[simp] theorem setB_tables (s : State) (f : Field) (b : Bool) : (setB s f b).tables = s.tables := rfl
@[simp] theorem setB_kin (s : State) (f : Field) (b : Bool) : (setB s f b).kin = s.kin := rfl
@[simp] theorem setB_sys (s : State) (f : Field) (b : Bool) : (setB s f b).sys = s.sys := rfl
@[simp] theorem setB_boot (s : State) (f : Field) (b : Bool) : (setB s f b).boot = s.boot := rfl
@[simp] theorem setB_mon (s : State) (f : Field) (b : Bool) : (setB s f b).mon = s.mon := rfl
@[simp] theorem setB_hif (s : State) (f : Field) (b : Bool) : (setB s f b).hif = s.hif := rfl
@[simp] theorem setB_recd (s : State) (f : Field) (b : Bool) : (setB s f b).recd = s.recd := rfl
@[simp] theorem setB_sch (s : State) (f : Field) (b : Bool) : (setB s f b).sch = s.sch := rfl
@[simp] theorem setB_map (s : State) (f : Field) (b : Bool) : (setB s f b).map = s.map := rfl
@[simp] theorem setB_act (s : State) (f : Field) (b : Bool) : (setB s f b).act = s.act := rfl
@[simp] theorem setB_drv (s : State) (f : Field) (b : Bool) : (setB s f b).drv = s.drv := rfl
@[simp] theorem setB_fjl (s : State) (f : Field) (b : Bool) : (setB s f b).fjl = s.fjl := rfl
@[simp] theorem setB_pwm (s : State) (f : Field) (b : Bool) : (setB s f b).pwm = s.pwm := rfl
@[simp] theorem setB_cle (s : State) (f : Field) (b : Bool) : (setB s f b).cle = s.cle := rfl
@[simp] theorem setB_enc (s : State) (f : Field) (b : Bool) : (setB s f b).enc = s.enc := rfl
@[simp] theorem setB_gns (s : State) (f : Field) (b : Bool) : (setB s f b).gns = s.gns := rfl
@[simp] theorem setB_tim (s : State) (f : Field) (b : Bool) : (setB s f b).tim = s.tim := rfl
@[simp] theorem setB_eth (s : State) (f : Field) (b : Bool) : (setB s f b).eth = s.eth := rfl
@[simp] theorem setB_can (s : State) (f : Field) (b : Bool) : (setB s f b).can = s.can := rfl
@[simp] theorem setB_now (s : State) (f : Field) (b : Bool) : (setB s f b).now = s.now := rfl
@[simp] theorem setB_free (s : State) (f : Field) (b : Bool) : (setB s f b).free = s.free := rfl
@[simp] theorem setB_pending (s : State) (f : Field) (b : Bool) : (setB s f b).pending = s.pending := rfl

@[simp] theorem setI_tables (s : State) (f : Field) (v : Int) : (setI s f v).tables = s.tables := rfl
@[simp] theorem setI_kin (s : State) (f : Field) (v : Int) : (setI s f v).kin = s.kin := rfl
@[simp] theorem setI_sys (s : State) (f : Field) (v : Int) : (setI s f v).sys = s.sys := rfl
@[simp] theorem setI_boot (s : State) (f : Field) (v : Int) : (setI s f v).boot = s.boot := rfl
@[simp] theorem setI_mon (s : State) (f : Field) (v : Int) : (setI s f v).mon = s.mon := rfl
@[simp] theorem setI_hif (s : State) (f : Field) (v : Int) : (setI s f v).hif = s.hif := rfl
@[simp] theorem setI_recd (s : State) (f : Field) (v : Int) : (setI s f v).recd = s.recd := rfl
@[simp] theorem setI_sch (s : State) (f : Field) (v : Int) : (setI s f v).sch = s.sch := rfl
@[simp] theorem setI_map (s : State) (f : Field) (v : Int) : (setI s f v).map = s.map := rfl
@[simp] theorem setI_act (s : State) (f : Field) (v : Int) : (setI s f v).act = s.act := rfl
@[simp] theorem setI_drv (s : State) (f : Field) (v : Int) : (setI s f v).drv = s.drv := rfl
@[simp] theorem setI_fjl (s : State) (f : Field) (v : Int) : (setI s f v).fjl = s.fjl := rfl
@[simp] theorem setI_pwm (s : State) (f : Field) (v : Int) : (setI s f v).pwm = s.pwm := rfl
@[simp] theorem setI_cle (s : State) (f : Field) (v : Int) : (setI s f v).cle = s.cle := rfl
@[simp] theorem setI_enc (s : State) (f : Field) (v : Int) : (setI s f v).enc = s.enc := rfl
@[simp] theorem setI_gns (s : State) (f : Field) (v : Int) : (setI s f v).gns = s.gns := rfl
@[simp] theorem setI_tim (s : State) (f : Field) (v : Int) : (setI s f v).tim = s.tim := rfl
@[simp] theorem setI_eth (s : State) (f : Field) (v : Int) : (setI s f v).eth = s.eth := rfl
@[simp] theorem setI_can (s : State) (f : Field) (v : Int) : (setI s f v).can = s.can := rfl
@[simp] theorem setI_now (s : State) (f : Field) (v : Int) : (setI s f v).now = s.now := rfl
@[simp] theorem setI_free (s : State) (f : Field) (v : Int) : (setI s f v).free = s.free := rfl
@[simp] theorem setI_pending (s : State) (f : Field) (v : Int) : (setI s f v).pending = s.pending := rfl

@[simp] theorem bump_tables (s : State) (f : Field) (n : Nat) : (bump s f n).tables = s.tables := rfl
@[simp] theorem bump_kin (s : State) (f : Field) (n : Nat) : (bump s f n).kin = s.kin := rfl
@[simp] theorem bump_sys (s : State) (f : Field) (n : Nat) : (bump s f n).sys = s.sys := rfl
@[simp] theorem bump_boot (s : State) (f : Field) (n : Nat) : (bump s f n).boot = s.boot := rfl
@[simp] theorem bump_mon (s : State) (f : Field) (n : Nat) : (bump s f n).mon = s.mon := rfl
@[simp] theorem bump_hif (s : State) (f : Field) (n : Nat) : (bump s f n).hif = s.hif := rfl
@[simp] theorem bump_recd (s : State) (f : Field) (n : Nat) : (bump s f n).recd = s.recd := rfl
@[simp] theorem bump_sch (s : State) (f : Field) (n : Nat) : (bump s f n).sch = s.sch := rfl
@[simp] theorem bump_map (s : State) (f : Field) (n : Nat) : (bump s f n).map = s.map := rfl
@[simp] theorem bump_act (s : State) (f : Field) (n : Nat) : (bump s f n).act = s.act := rfl
@[simp] theorem bump_drv (s : State) (f : Field) (n : Nat) : (bump s f n).drv = s.drv := rfl
@[simp] theorem bump_fjl (s : State) (f : Field) (n : Nat) : (bump s f n).fjl = s.fjl := rfl
@[simp] theorem bump_pwm (s : State) (f : Field) (n : Nat) : (bump s f n).pwm = s.pwm := rfl
@[simp] theorem bump_cle (s : State) (f : Field) (n : Nat) : (bump s f n).cle = s.cle := rfl
@[simp] theorem bump_enc (s : State) (f : Field) (n : Nat) : (bump s f n).enc = s.enc := rfl
@[simp] theorem bump_gns (s : State) (f : Field) (n : Nat) : (bump s f n).gns = s.gns := rfl
@[simp] theorem bump_tim (s : State) (f : Field) (n : Nat) : (bump s f n).tim = s.tim := rfl
@[simp] theorem bump_eth (s : State) (f : Field) (n : Nat) : (bump s f n).eth = s.eth := rfl
@[simp] theorem bump_can (s : State) (f : Field) (n : Nat) : (bump s f n).can = s.can := rfl
@[simp] theorem bump_now (s : State) (f : Field) (n : Nat) : (bump s f n).now = s.now := rfl
@[simp] theorem bump_free (s : State) (f : Field) (n : Nat) : (bump s f n).free = s.free := rfl
@[simp] theorem bump_pending (s : State) (f : Field) (n : Nat) : (bump s f n).pending = s.pending := rfl

@[simp] theorem wrPair_tables (s : State) (lo hi : Nat) (v : Nat) : (wrPair s lo hi v).tables = s.tables := rfl
@[simp] theorem wrPair_kin (s : State) (lo hi : Nat) (v : Nat) : (wrPair s lo hi v).kin = s.kin := rfl
@[simp] theorem wrPair_sys (s : State) (lo hi : Nat) (v : Nat) : (wrPair s lo hi v).sys = s.sys := rfl
@[simp] theorem wrPair_boot (s : State) (lo hi : Nat) (v : Nat) : (wrPair s lo hi v).boot = s.boot := rfl
@[simp] theorem wrPair_mon (s : State) (lo hi : Nat) (v : Nat) : (wrPair s lo hi v).mon = s.mon := rfl
@[simp] theorem wrPair_hif (s : State) (lo hi : Nat) (v : Nat) : (wrPair s lo hi v).hif = s.hif := rfl
@[simp] theorem wrPair_recd (s : State) (lo hi : Nat) (v : Nat) : (wrPair s lo hi v).recd = s.recd := rfl
@[simp] theorem wrPair_sch (s : State) (lo hi : Nat) (v : Nat) : (wrPair s lo hi v).sch = s.sch := rfl
@[simp] theorem wrPair_map (s : State) (lo hi : Nat) (v : Nat) : (wrPair s lo hi v).map = s.map := rfl
@[simp] theorem wrPair_act (s : State) (lo hi : Nat) (v : Nat) : (wrPair s lo hi v).act = s.act := rfl
@[simp] theorem wrPair_drv (s : State) (lo hi : Nat) (v : Nat) : (wrPair s lo hi v).drv = s.drv := rfl
@[simp] theorem wrPair_fjl (s : State) (lo hi : Nat) (v : Nat) : (wrPair s lo hi v).fjl = s.fjl := rfl
@[simp] theorem wrPair_pwm (s : State) (lo hi : Nat) (v : Nat) : (wrPair s lo hi v).pwm = s.pwm := rfl
@[simp] theorem wrPair_cle (s : State) (lo hi : Nat) (v : Nat) : (wrPair s lo hi v).cle = s.cle := rfl
@[simp] theorem wrPair_enc (s : State) (lo hi : Nat) (v : Nat) : (wrPair s lo hi v).enc = s.enc := rfl
@[simp] theorem wrPair_gns (s : State) (lo hi : Nat) (v : Nat) : (wrPair s lo hi v).gns = s.gns := rfl
@[simp] theorem wrPair_tim (s : State) (lo hi : Nat) (v : Nat) : (wrPair s lo hi v).tim = s.tim := rfl
@[simp] theorem wrPair_eth (s : State) (lo hi : Nat) (v : Nat) : (wrPair s lo hi v).eth = s.eth := rfl
@[simp] theorem wrPair_can (s : State) (lo hi : Nat) (v : Nat) : (wrPair s lo hi v).can = s.can := rfl
@[simp] theorem wrPair_now (s : State) (lo hi : Nat) (v : Nat) : (wrPair s lo hi v).now = s.now := rfl
@[simp] theorem wrPair_free (s : State) (lo hi : Nat) (v : Nat) : (wrPair s lo hi v).free = s.free := rfl
@[simp] theorem wrPair_pending (s : State) (lo hi : Nat) (v : Nat) : (wrPair s lo hi v).pending = s.pending := rfl

@[simp] theorem resetRegs_tables (s : State) (p : Nat → Bool) : (resetRegs s p).tables = s.tables := rfl
@[simp] theorem resetRegs_kin (s : State) (p : Nat → Bool) : (resetRegs s p).kin = s.kin := rfl
@[simp] theorem resetRegs_sys (s : State) (p : Nat → Bool) : (resetRegs s p).sys = s.sys := rfl
@[simp] theorem resetRegs_boot (s : State) (p : Nat → Bool) : (resetRegs s p).boot = s.boot := rfl
@[simp] theorem resetRegs_mon (s : State) (p : Nat → Bool) : (resetRegs s p).mon = s.mon := rfl
@[simp] theorem resetRegs_hif (s : State) (p : Nat → Bool) : (resetRegs s p).hif = s.hif := rfl
@[simp] theorem resetRegs_recd (s : State) (p : Nat → Bool) : (resetRegs s p).recd = s.recd := rfl
@[simp] theorem resetRegs_sch (s : State) (p : Nat → Bool) : (resetRegs s p).sch = s.sch := rfl
@[simp] theorem resetRegs_map (s : State) (p : Nat → Bool) : (resetRegs s p).map = s.map := rfl
@[simp] theorem resetRegs_act (s : State) (p : Nat → Bool) : (resetRegs s p).act = s.act := rfl
@[simp] theorem resetRegs_drv (s : State) (p : Nat → Bool) : (resetRegs s p).drv = s.drv := rfl
@[simp] theorem resetRegs_fjl (s : State) (p : Nat → Bool) : (resetRegs s p).fjl = s.fjl := rfl
@[simp] theorem resetRegs_pwm (s : State) (p : Nat → Bool) : (resetRegs s p).pwm = s.pwm := rfl
@[simp] theorem resetRegs_cle (s : State) (p : Nat → Bool) : (resetRegs s p).cle = s.cle := rfl
@[simp] theorem resetRegs_enc (s : State) (p : Nat → Bool) : (resetRegs s p).enc = s.enc := rfl
@[simp] theorem resetRegs_gns (s : State) (p : Nat → Bool) : (resetRegs s p).gns = s.gns := rfl
@[simp] theorem resetRegs_tim (s : State) (p : Nat → Bool) : (resetRegs s p).tim = s.tim := rfl
@[simp] theorem resetRegs_eth (s : State) (p : Nat → Bool) : (resetRegs s p).eth = s.eth := rfl
@[simp] theorem resetRegs_can (s : State) (p : Nat → Bool) : (resetRegs s p).can = s.can := rfl
@[simp] theorem resetRegs_now (s : State) (p : Nat → Bool) : (resetRegs s p).now = s.now := rfl
@[simp] theorem resetRegs_free (s : State) (p : Nat → Bool) : (resetRegs s p).free = s.free := rfl
@[simp] theorem resetRegs_pending (s : State) (p : Nat → Bool) : (resetRegs s p).pending = s.pending := rfl

@[simp] theorem tput_regs (s : State) (t : TableId) (n : Nat) (b : List Byte) : (tput s t n b).regs = s.regs := rfl
@[simp] theorem tput_kin (s : State) (t : TableId) (n : Nat) (b : List Byte) : (tput s t n b).kin = s.kin := rfl
@[simp] theorem tput_sys (s : State) (t : TableId) (n : Nat) (b : List Byte) : (tput s t n b).sys = s.sys := rfl
@[simp] theorem tput_boot (s : State) (t : TableId) (n : Nat) (b : List Byte) : (tput s t n b).boot = s.boot := rfl
@[simp] theorem tput_mon (s : State) (t : TableId) (n : Nat) (b : List Byte) : (tput s t n b).mon = s.mon := rfl
@[simp] theorem tput_hif (s : State) (t : TableId) (n : Nat) (b : List Byte) : (tput s t n b).hif = s.hif := rfl
@[simp] theorem tput_recd (s : State) (t : TableId) (n : Nat) (b : List Byte) : (tput s t n b).recd = s.recd := rfl
@[simp] theorem tput_sch (s : State) (t : TableId) (n : Nat) (b : List Byte) : (tput s t n b).sch = s.sch := rfl
@[simp] theorem tput_map (s : State) (t : TableId) (n : Nat) (b : List Byte) : (tput s t n b).map = s.map := rfl
@[simp] theorem tput_act (s : State) (t : TableId) (n : Nat) (b : List Byte) : (tput s t n b).act = s.act := rfl
@[simp] theorem tput_drv (s : State) (t : TableId) (n : Nat) (b : List Byte) : (tput s t n b).drv = s.drv := rfl
@[simp] theorem tput_fjl (s : State) (t : TableId) (n : Nat) (b : List Byte) : (tput s t n b).fjl = s.fjl := rfl
@[simp] theorem tput_pwm (s : State) (t : TableId) (n : Nat) (b : List Byte) : (tput s t n b).pwm = s.pwm := rfl
@[simp] theorem tput_cle (s : State) (t : TableId) (n : Nat) (b : List Byte) : (tput s t n b).cle = s.cle := rfl
@[simp] theorem tput_enc (s : State) (t : TableId) (n : Nat) (b : List Byte) : (tput s t n b).enc = s.enc := rfl
@[simp] theorem tput_gns (s : State) (t : TableId) (n : Nat) (b : List Byte) : (tput s t n b).gns = s.gns := rfl
@[simp] theorem tput_tim (s : State) (t : TableId) (n : Nat) (b : List Byte) : (tput s t n b).tim = s.tim := rfl
@[simp] theorem tput_eth (s : State) (t : TableId) (n : Nat) (b : List Byte) : (tput s t n b).eth = s.eth := rfl
@[simp] theorem tput_can (s : State) (t : TableId) (n : Nat) (b : List Byte) : (tput s t n b).can = s.can := rfl
@[simp] theorem tput_now (s : State) (t : TableId) (n : Nat) (b : List Byte) : (tput s t n b).now = s.now := rfl
@[simp] theorem tput_free (s : State) (t : TableId) (n : Nat) (b : List Byte) : (tput s t n b).free = s.free := rfl
@[simp] theorem tput_pending (s : State) (t : TableId) (n : Nat) (b : List Byte) : (tput s t n b).pending = s.pending := rfl

@[simp] theorem tclear_regs (s : State) (t : TableId) : (tclear s t).regs = s.regs := rfl
@[simp] theorem tclear_kin (s : State) (t : TableId) : (tclear s t).kin = s.kin := rfl
@[simp] theorem tclear_sys (s : State) (t : TableId) : (tclear s t).sys = s.sys := rfl
@[simp] theorem tclear_boot (s : State) (t : TableId) : (tclear s t).boot = s.boot := rfl
@[simp] theorem tclear_mon (s : State) (t : TableId) : (tclear s t).mon = s.mon := rfl
@[simp] theorem tclear_hif (s : State) (t : TableId) : (tclear s t).hif = s.hif := rfl
@[simp] theorem tclear_recd (s : State) (t : TableId) : (tclear s t).recd = s.recd := rfl
@[simp] theorem tclear_sch (s : State) (t : TableId) : (tclear s t).sch = s.sch := rfl
@[simp] theorem tclear_map (s : State) (t : TableId) : (tclear s t).map = s.map := rfl
@[simp] theorem tclear_act (s : State) (t : TableId) : (tclear s t).act = s.act := rfl
@[simp] theorem tclear_drv (s : State) (t : TableId) : (tclear s t).drv = s.drv := rfl
@[simp] theorem tclear_fjl (s : State) (t : TableId) : (tclear s t).fjl = s.fjl := rfl
@[simp] theorem tclear_pwm (s : State) (t : TableId) : (tclear s t).pwm = s.pwm := rfl
@[simp] theorem tclear_cle (s : State) (t : TableId) : (tclear s t).cle = s.cle := rfl
@[simp] theorem tclear_enc (s : State) (t : TableId) : (tclear s t).enc = s.enc := rfl
@[simp] theorem tclear_gns (s : State) (t : TableId) : (tclear s t).gns = s.gns := rfl
@[simp] theorem tclear_tim (s : State) (t : TableId) : (tclear s t).tim = s.tim := rfl
@[simp] theorem tclear_eth (s : State) (t : TableId) : (tclear s t).eth = s.eth := rfl
@[simp] theorem tclear_can (s : State) (t : TableId) : (tclear s t).can = s.can := rfl
@[simp] theorem tclear_now (s : State) (t : TableId) : (tclear s t).now = s.now := rfl
@[simp] theorem tclear_free (s : State) (t : TableId) : (tclear s t).free = s.free := rfl
@[simp] theorem tclear_pending (s : State) (t : TableId) : (tclear s t).pending = s.pending := rfl

@[simp] theorem modSlot_regs (s : State) (h : Nat) (f : HostSlot → HostSlot) : (modSlot s h f).regs = s.regs := rfl
@[simp] theorem modSlot_tables (s : State) (h : Nat) (f : HostSlot → HostSlot) : (modSlot s h f).tables = s.tables := rfl
@[simp] theorem modSlot_kin (s : State) (h : Nat) (f : HostSlot → HostSlot) : (modSlot s h f).kin = s.kin := rfl
@[simp] theorem modSlot_sys (s : State) (h : Nat) (f : HostSlot → HostSlot) : (modSlot s h f).sys = s.sys := rfl
@[simp] theorem modSlot_boot (s : State) (h : Nat) (f : HostSlot → HostSlot) : (modSlot s h f).boot = s.boot := rfl
@[simp] theorem modSlot_mon (s : State) (h : Nat) (f : HostSlot → HostSlot) : (modSlot s h f).mon = s.mon := rfl
@[simp] theorem modSlot_recd (s : State) (h : Nat) (f : HostSlot → HostSlot) : (modSlot s h f).recd = s.recd := rfl
@[simp] theorem modSlot_sch (s : State) (h : Nat) (f : HostSlot → HostSlot) : (modSlot s h f).sch = s.sch := rfl
@[simp] theorem modSlot_map (s : State) (h : Nat) (f : HostSlot → HostSlot) : (modSlot s h f).map = s.map := rfl
@[simp] theorem modSlot_act (s : State) (h : Nat) (f : HostSlot → HostSlot) : (modSlot s h f).act = s.act := rfl
@[simp] theorem modSlot_drv (s : State) (h : Nat) (f : HostSlot → HostSlot) : (modSlot s h f).drv = s.drv := rfl
@[simp] theorem modSlot_fjl (s : State) (h : Nat) (f : HostSlot → HostSlot) : (modSlot s h f).fjl = s.fjl := rfl
@[simp] theorem modSlot_pwm (s : State) (h : Nat) (f : HostSlot → HostSlot) : (modSlot s h f).pwm = s.pwm := rfl
@[simp] theorem modSlot_cle (s : State) (h : Nat) (f : HostSlot → HostSlot) : (modSlot s h f).cle = s.cle := rfl
@[simp] theorem modSlot_enc (s : State) (h : Nat) (f : HostSlot → HostSlot) : (modSlot s h f).enc = s.enc := rfl
@[simp] theorem modSlot_gns (s : State) (h : Nat) (f : HostSlot → HostSlot) : (modSlot s h f).gns = s.gns := rfl
@[simp] theorem modSlot_tim (s : State) (h : Nat) (f : HostSlot → HostSlot) : (modSlot s h f).tim = s.tim := rfl
@[simp] theorem modSlot_eth (s : State) (h : Nat) (f : HostSlot → HostSlot) : (modSlot s h f).eth = s.eth := rfl
@[simp] theorem modSlot_can (s : State) (h : Nat) (f : HostSlot → HostSlot) : (modSlot s h f).can = s.can := rfl
@[simp] theorem modSlot_now (s : State) (h : Nat) (f : HostSlot → HostSlot) : (modSlot s h f).now = s.now := rfl
@[simp] theorem modSlot_free (s : State) (h : Nat) (f : HostSlot → HostSlot) : (modSlot s h f).free = s.free := rfl
@[simp] theorem modSlot_pending (s : State) (h : Nat) (f : HostSlot → HostSlot) : (modSlot s h f).pending = s.pending := rfl

@[simp] theorem modHif_regs (s : State) (f : HifState → HifState) : (modHif s f).regs = s.regs := rfl
@[simp] theorem modHif_tables (s : State) (f : HifState → HifState) : (modHif s f).tables = s.tables := rfl
@[simp] theorem modHif_kin (s : State) (f : HifState → HifState) : (modHif s f).kin = s.kin := rfl
@[simp] theorem modHif_sys (s : State) (f : HifState → HifState) : (modHif s f).sys = s.sys := rfl
@[simp] theorem modHif_boot (s : State) (f : HifState → HifState) : (modHif s f).boot = s.boot := rfl
@[simp] theorem modHif_mon (s : State) (f : HifState → HifState) : (modHif s f).mon = s.mon := rfl
@[simp] theorem modHif_recd (s : State) (f : HifState → HifState) : (modHif s f).recd = s.recd := rfl
@[simp] theorem modHif_sch (s : State) (f : HifState → HifState) : (modHif s f).sch = s.sch := rfl
@[simp] theorem modHif_map (s : State) (f : HifState → HifState) : (modHif s f).map = s.map := rfl
@[simp] theorem modHif_act (s : State) (f : HifState → HifState) : (modHif s f).act = s.act := rfl
@[simp] theorem modHif_drv (s : State) (f : HifState → HifState) : (modHif s f).drv = s.drv := rfl
@[simp] theorem modHif_fjl (s : State) (f : HifState → HifState) : (modHif s f).fjl = s.fjl := rfl
@[simp] theorem modHif_pwm (s : State) (f : HifState → HifState) : (modHif s f).pwm = s.pwm := rfl
@[simp] theorem modHif_cle (s : State) (f : HifState → HifState) : (modHif s f).cle = s.cle := rfl
@[simp] theorem modHif_enc (s : State) (f : HifState → HifState) : (modHif s f).enc = s.enc := rfl
@[simp] theorem modHif_gns (s : State) (f : HifState → HifState) : (modHif s f).gns = s.gns := rfl
@[simp] theorem modHif_tim (s : State) (f : HifState → HifState) : (modHif s f).tim = s.tim := rfl
@[simp] theorem modHif_eth (s : State) (f : HifState → HifState) : (modHif s f).eth = s.eth := rfl
@[simp] theorem modHif_can (s : State) (f : HifState → HifState) : (modHif s f).can = s.can := rfl
@[simp] theorem modHif_now (s : State) (f : HifState → HifState) : (modHif s f).now = s.now := rfl
@[simp] theorem modHif_free (s : State) (f : HifState → HifState) : (modHif s f).free = s.free := rfl
@[simp] theorem modHif_pending (s : State) (f : HifState → HifState) : (modHif s f).pending = s.pending := rfl

@[simp] theorem modBoot_regs (s : State) (f : BootState → BootState) : (modBoot s f).regs = s.regs := rfl
@[simp] theorem modBoot_tables (s : State) (f : BootState → BootState) : (modBoot s f).tables = s.tables := rfl
@[simp] theorem modBoot_kin (s : State) (f : BootState → BootState) : (modBoot s f).kin = s.kin := rfl
@[simp] theorem modBoot_sys (s : State) (f : BootState → BootState) : (modBoot s f).sys = s.sys := rfl
@[simp] theorem modBoot_mon (s : State) (f : BootState → BootState) : (modBoot s f).mon = s.mon := rfl
@[simp] theorem modBoot_hif (s : State) (f : BootState → BootState) : (modBoot s f).hif = s.hif := rfl
@[simp] theorem modBoot_recd (s : State) (f : BootState → BootState) : (modBoot s f).recd = s.recd := rfl
@[simp] theorem modBoot_sch (s : State) (f : BootState → BootState) : (modBoot s f).sch = s.sch := rfl
@[simp] theorem modBoot_map (s : State) (f : BootState → BootState) : (modBoot s f).map = s.map := rfl
@[simp] theorem modBoot_act (s : State) (f : BootState → BootState) : (modBoot s f).act = s.act := rfl
@[simp] theorem modBoot_drv (s : State) (f : BootState → BootState) : (modBoot s f).drv = s.drv := rfl
@[simp] theorem modBoot_fjl (s : State) (f : BootState → BootState) : (modBoot s f).fjl = s.fjl := rfl
@[simp] theorem modBoot_pwm (s : State) (f : BootState → BootState) : (modBoot s f).pwm = s.pwm := rfl
@[simp] theorem modBoot_cle (s : State) (f : BootState → BootState) : (modBoot s f).cle = s.cle := rfl
@[simp] theorem modBoot_enc (s : State) (f : BootState → BootState) : (modBoot s f).enc = s.enc := rfl
@[simp] theorem modBoot_gns (s : State) (f : BootState → BootState) : (modBoot s f).gns = s.gns := rfl
@[simp] theorem modBoot_tim (s : State) (f : BootState → BootState) : (modBoot s f).tim = s.tim := rfl
@[simp] theorem modBoot_eth (s : State) (f : BootState → BootState) : (modBoot s f).eth = s.eth := rfl
@[simp] theorem modBoot_can (s : State) (f : BootState → BootState) : (modBoot s f).can = s.can := rfl
@[simp] theorem modBoot_now (s : State) (f : BootState → BootState) : (modBoot s f).now = s.now := rfl
@[simp] theorem modBoot_free (s : State) (f : BootState → BootState) : (modBoot s f).free = s.free := rfl
@[simp] theorem modBoot_pending (s : State) (f : BootState → BootState) : (modBoot s f).pending = s.pending := rfl

@[simp] theorem modMon_regs (s : State) (f : MonState → MonState) : (modMon s f).regs = s.regs := rfl
@[simp] theorem modMon_tables (s : State) (f : MonState → MonState) : (modMon s f).tables = s.tables := rfl
@[simp] theorem modMon_kin (s : State) (f : MonState → MonState) : (modMon s f).kin = s.kin := rfl
@[simp] theorem modMon_sys (s : State) (f : MonState → MonState) : (modMon s f).sys = s.sys := rfl
@[simp] theorem modMon_boot (s : State) (f : MonState → MonState) : (modMon s f).boot = s.boot := rfl
@[simp] theorem modMon_hif (s : State) (f : MonState → MonState) : (modMon s f).hif = s.hif := rfl
@[simp] theorem modMon_recd (s : State) (f : MonState → MonState) : (modMon s f).recd = s.recd := rfl
@[simp] theorem modMon_sch (s : State) (f : MonState → MonState) : (modMon s f).sch = s.sch := rfl
@[simp] theorem modMon_map (s : State) (f : MonState → MonState) : (modMon s f).map = s.map := rfl
@[simp] theorem modMon_act (s : State) (f : MonState → MonState) : (modMon s f).act = s.act := rfl
@[simp] theorem modMon_drv (s : State) (f : MonState → MonState) : (modMon s f).drv = s.drv := rfl
@[simp] theorem modMon_fjl (s : State) (f : MonState → MonState) : (modMon s f).fjl = s.fjl := rfl
@[simp] theorem modMon_pwm (s : State) (f : MonState → MonState) : (modMon s f).pwm = s.pwm := rfl
@[simp] theorem modMon_cle (s : State) (f : MonState → MonState) : (modMon s f).cle = s.cle := rfl
@[simp] theorem modMon_enc (s : State) (f : MonState → MonState) : (modMon s f).enc = s.enc := rfl
@[simp] theorem modMon_gns (s : State) (f : MonState → MonState) : (modMon s f).gns = s.gns := rfl
@[simp] theorem modMon_tim (s : State) (f : MonState → MonState) : (modMon s f).tim = s.tim := rfl
@[simp] theorem modMon_eth (s : State) (f : MonState → MonState) : (modMon s f).eth = s.eth := rfl
@[simp] theorem modMon_can (s : State) (f : MonState → MonState) : (modMon s f).can = s.can := rfl
@[simp] theorem modMon_now (s : State) (f : MonState → MonState) : (modMon s f).now = s.now := rfl
@[simp] theorem modMon_free (s : State) (f : MonState → MonState) : (modMon s f).free = s.free := rfl
@[simp] theorem modMon_pending (s : State) (f : MonState → MonState) : (modMon s f).pending = s.pending := rfl

@[simp] theorem modRec_regs (s : State) (f : RecState → RecState) : (modRec s f).regs = s.regs := rfl
@[simp] theorem modRec_tables (s : State) (f : RecState → RecState) : (modRec s f).tables = s.tables := rfl
@[simp] theorem modRec_kin (s : State) (f : RecState → RecState) : (modRec s f).kin = s.kin := rfl
@[simp] theorem modRec_sys (s : State) (f : RecState → RecState) : (modRec s f).sys = s.sys := rfl
@[simp] theorem modRec_boot (s : State) (f : RecState → RecState) : (modRec s f).boot = s.boot := rfl
@[simp] theorem modRec_mon (s : State) (f : RecState → RecState) : (modRec s f).mon = s.mon := rfl
@[simp] theorem modRec_hif (s : State) (f : RecState → RecState) : (modRec s f).hif = s.hif := rfl
@[simp] theorem modRec_sch (s : State) (f : RecState → RecState) : (modRec s f).sch = s.sch := rfl
@[simp] theorem modRec_map (s : State) (f : RecState → RecState) : (modRec s f).map = s.map := rfl
@[simp] theorem modRec_act (s : State) (f : RecState → RecState) : (modRec s f).act = s.act := rfl
@[simp] theorem modRec_drv (s : State) (f : RecState → RecState) : (modRec s f).drv = s.drv := rfl
@[simp] theorem modRec_fjl (s : State) (f : RecState → RecState) : (modRec s f).fjl = s.fjl := rfl
@[simp] theorem modRec_pwm (s : State) (f : RecState → RecState) : (modRec s f).pwm = s.pwm := rfl
@[simp] theorem modRec_cle (s : State) (f : RecState → RecState) : (modRec s f).cle = s.cle := rfl
@[simp] theorem modRec_enc (s : State) (f : RecState → RecState) : (modRec s f).enc = s.enc := rfl
@[simp] theorem modRec_gns (s : State) (f : RecState → RecState) : (modRec s f).gns = s.gns := rfl
@[simp] theorem modRec_tim (s : State) (f : RecState → RecState) : (modRec s f).tim = s.tim := rfl
@[simp] theorem modRec_eth (s : State) (f : RecState → RecState) : (modRec s f).eth = s.eth := rfl
@[simp] theorem modRec_can (s : State) (f : RecState → RecState) : (modRec s f).can = s.can := rfl
@[simp] theorem modRec_now (s : State) (f : RecState → RecState) : (modRec s f).now = s.now := rfl
@[simp] theorem modRec_free (s : State) (f : RecState → RecState) : (modRec s f).free = s.free := rfl
@[simp] theorem modRec_pending (s : State) (f : RecState → RecState) : (modRec s f).pending = s.pending := rfl

@[simp] theorem modSlotAt_regs (s : State) (i : Nat) (f : EvSlot → EvSlot) : (modSlotAt s i f).regs = s.regs := rfl
@[simp] theorem modSlotAt_tables (s : State) (i : Nat) (f : EvSlot → EvSlot) : (modSlotAt s i f).tables = s.tables := rfl
@[simp] theorem modSlotAt_kin (s : State) (i : Nat) (f : EvSlot → EvSlot) : (modSlotAt s i f).kin = s.kin := rfl
@[simp] theorem modSlotAt_sys (s : State) (i : Nat) (f : EvSlot → EvSlot) : (modSlotAt s i f).sys = s.sys := rfl
@[simp] theorem modSlotAt_boot (s : State) (i : Nat) (f : EvSlot → EvSlot) : (modSlotAt s i f).boot = s.boot := rfl
@[simp] theorem modSlotAt_mon (s : State) (i : Nat) (f : EvSlot → EvSlot) : (modSlotAt s i f).mon = s.mon := rfl
@[simp] theorem modSlotAt_hif (s : State) (i : Nat) (f : EvSlot → EvSlot) : (modSlotAt s i f).hif = s.hif := rfl
@[simp] theorem modSlotAt_recd (s : State) (i : Nat) (f : EvSlot → EvSlot) : (modSlotAt s i f).recd = s.recd := rfl
@[simp] theorem modSlotAt_map (s : State) (i : Nat) (f : EvSlot → EvSlot) : (modSlotAt s i f).map = s.map := rfl
@[simp] theorem modSlotAt_act (s : State) (i : Nat) (f : EvSlot → EvSlot) : (modSlotAt s i f).act = s.act := rfl
@[simp] theorem modSlotAt_drv (s : State) (i : Nat) (f : EvSlot → EvSlot) : (modSlotAt s i f).drv = s.drv := rfl
@[simp] theorem modSlotAt_fjl (s : State) (i : Nat) (f : EvSlot → EvSlot) : (modSlotAt s i f).fjl = s.fjl := rfl
@[simp] theorem modSlotAt_pwm (s : State) (i : Nat) (f : EvSlot → EvSlot) : (modSlotAt s i f).pwm = s.pwm := rfl
@[simp] theorem modSlotAt_cle (s : State) (i : Nat) (f : EvSlot → EvSlot) : (modSlotAt s i f).cle = s.cle := rfl
@[simp] theorem modSlotAt_enc (s : State) (i : Nat) (f : EvSlot → EvSlot) : (modSlotAt s i f).enc = s.enc := rfl
@[simp] theorem modSlotAt_gns (s : State) (i : Nat) (f : EvSlot → EvSlot) : (modSlotAt s i f).gns = s.gns := rfl
@[simp] theorem modSlotAt_tim (s : State) (i : Nat) (f : EvSlot → EvSlot) : (modSlotAt s i f).tim = s.tim := rfl
@[simp] theorem modSlotAt_eth (s : State) (i : Nat) (f : EvSlot → EvSlot) : (modSlotAt s i f).eth = s.eth := rfl
@[simp] theorem modSlotAt_can (s : State) (i : Nat) (f : EvSlot → EvSlot) : (modSlotAt s i f).can = s.can := rfl
@[simp] theorem modSlotAt_now (s : State) (i : Nat) (f : EvSlot → EvSlot) : (modSlotAt s i f).now = s.now := rfl
@[simp] theorem modSlotAt_free (s : State) (i : Nat) (f : EvSlot → EvSlot) : (modSlotAt s i f).free = s.free := rfl
@[simp] theorem modSlotAt_pending (s : State) (i : Nat) (f : EvSlot → EvSlot) : (modSlotAt s i f).pending = s.pending := rfl

@[simp] theorem modChSch_regs (s : State) (c : Nat) (f : ChSch → ChSch) : (modChSch s c f).regs = s.regs := rfl
@[simp] theorem modChSch_tables (s : State) (c : Nat) (f : ChSch → ChSch) : (modChSch s c f).tables = s.tables := rfl
@[simp] theorem modChSch_kin (s : State) (c : Nat) (f : ChSch → ChSch) : (modChSch s c f).kin = s.kin := rfl
@[simp] theorem modChSch_sys (s : State) (c : Nat) (f : ChSch → ChSch) : (modChSch s c f).sys = s.sys := rfl
@[simp] theorem modChSch_boot (s : State) (c : Nat) (f : ChSch → ChSch) : (modChSch s c f).boot = s.boot := rfl
@[simp] theorem modChSch_mon (s : State) (c : Nat) (f : ChSch → ChSch) : (modChSch s c f).mon = s.mon := rfl
@[simp] theorem modChSch_hif (s : State) (c : Nat) (f : ChSch → ChSch) : (modChSch s c f).hif = s.hif := rfl
@[simp] theorem modChSch_recd (s : State) (c : Nat) (f : ChSch → ChSch) : (modChSch s c f).recd = s.recd := rfl
@[simp] theorem modChSch_map (s : State) (c : Nat) (f : ChSch → ChSch) : (modChSch s c f).map = s.map := rfl
@[simp] theorem modChSch_act (s : State) (c : Nat) (f : ChSch → ChSch) : (modChSch s c f).act = s.act := rfl
@[simp] theorem modChSch_drv (s : State) (c : Nat) (f : ChSch → ChSch) : (modChSch s c f).drv = s.drv := rfl
@[simp] theorem modChSch_fjl (s : State) (c : Nat) (f : ChSch → ChSch) : (modChSch s c f).fjl = s.fjl := rfl
@[simp] theorem modChSch_pwm (s : State) (c : Nat) (f : ChSch → ChSch) : (modChSch s c f).pwm = s.pwm := rfl
@[simp] theorem modChSch_cle (s : State) (c : Nat) (f : ChSch → ChSch) : (modChSch s c f).cle = s.cle := rfl
@[simp] theorem modChSch_enc (s : State) (c : Nat) (f : ChSch → ChSch) : (modChSch s c f).enc = s.enc := rfl
@[simp] theorem modChSch_gns (s : State) (c : Nat) (f : ChSch → ChSch) : (modChSch s c f).gns = s.gns := rfl
@[simp] theorem modChSch_tim (s : State) (c : Nat) (f : ChSch → ChSch) : (modChSch s c f).tim = s.tim := rfl
@[simp] theorem modChSch_eth (s : State) (c : Nat) (f : ChSch → ChSch) : (modChSch s c f).eth = s.eth := rfl
@[simp] theorem modChSch_can (s : State) (c : Nat) (f : ChSch → ChSch) : (modChSch s c f).can = s.can := rfl
@[simp] theorem modChSch_now (s : State) (c : Nat) (f : ChSch → ChSch) : (modChSch s c f).now = s.now := rfl
@[simp] theorem modChSch_free (s : State) (c : Nat) (f : ChSch → ChSch) : (modChSch s c f).free = s.free := rfl
@[simp] theorem modChSch_pending (s : State) (c : Nat) (f : ChSch → ChSch) : (modChSch s c f).pending = s.pending := rfl

@[simp] theorem modLearn_regs (s : State) (c dir : Nat) (f : Learn → Learn) : (modLearn s c dir f).regs = s.regs := rfl
@[simp] theorem modLearn_tables (s : State) (c dir : Nat) (f : Learn → Learn) : (modLearn s c dir f).tables = s.tables := rfl
@[simp] theorem modLearn_kin (s : State) (c dir : Nat) (f : Learn → Learn) : (modLearn s c dir f).kin = s.kin := rfl
@[simp] theorem modLearn_sys (s : State) (c dir : Nat) (f : Learn → Learn) : (modLearn s c dir f).sys = s.sys := rfl
@[simp] theorem modLearn_boot (s : State) (c dir : Nat) (f : Learn → Learn) : (modLearn s c dir f).boot = s.boot := rfl
@[simp] theorem modLearn_mon (s : State) (c dir : Nat) (f : Learn → Learn) : (modLearn s c dir f).mon = s.mon := rfl
@[simp] theorem modLearn_hif (s : State) (c dir : Nat) (f : Learn → Learn) : (modLearn s c dir f).hif = s.hif := rfl
@[simp] theorem modLearn_recd (s : State) (c dir : Nat) (f : Learn → Learn) : (modLearn s c dir f).recd = s.recd := rfl
@[simp] theorem modLearn_sch (s : State) (c dir : Nat) (f : Learn → Learn) : (modLearn s c dir f).sch = s.sch := rfl
@[simp] theorem modLearn_map (s : State) (c dir : Nat) (f : Learn → Learn) : (modLearn s c dir f).map = s.map := rfl
@[simp] theorem modLearn_drv (s : State) (c dir : Nat) (f : Learn → Learn) : (modLearn s c dir f).drv = s.drv := rfl
@[simp] theorem modLearn_fjl (s : State) (c dir : Nat) (f : Learn → Learn) : (modLearn s c dir f).fjl = s.fjl := rfl
@[simp] theorem modLearn_pwm (s : State) (c dir : Nat) (f : Learn → Learn) : (modLearn s c dir f).pwm = s.pwm := rfl
@[simp] theorem modLearn_cle (s : State) (c dir : Nat) (f : Learn → Learn) : (modLearn s c dir f).cle = s.cle := rfl
@[simp] theorem modLearn_enc (s : State) (c dir : Nat) (f : Learn → Learn) : (modLearn s c dir f).enc = s.enc := rfl
@[simp] theorem modLearn_gns (s : State) (c dir : Nat) (f : Learn → Learn) : (modLearn s c dir f).gns = s.gns := rfl
@[simp] theorem modLearn_tim (s : State) (c dir : Nat) (f : Learn → Learn) : (modLearn s c dir f).tim = s.tim := rfl
@[simp] theorem modLearn_eth (s : State) (c dir : Nat) (f : Learn → Learn) : (modLearn s c dir f).eth = s.eth := rfl
@[simp] theorem modLearn_can (s : State) (c dir : Nat) (f : Learn → Learn) : (modLearn s c dir f).can = s.can := rfl
@[simp] theorem modLearn_now (s : State) (c dir : Nat) (f : Learn → Learn) : (modLearn s c dir f).now = s.now := rfl
@[simp] theorem modLearn_free (s : State) (c dir : Nat) (f : Learn → Learn) : (modLearn s c dir f).free = s.free := rfl
@[simp] theorem modLearn_pending (s : State) (c dir : Nat) (f : Learn → Learn) : (modLearn s c dir f).pending = s.pending := rfl

@[simp] theorem modDrvCh_regs (s : State) (c : Nat) (f : DrvCh → DrvCh) : (modDrvCh s c f).regs = s.regs := rfl
@[simp] theorem modDrvCh_tables (s : State) (c : Nat) (f : DrvCh → DrvCh) : (modDrvCh s c f).tables = s.tables := rfl
@[simp] theorem modDrvCh_kin (s : State) (c : Nat) (f : DrvCh → DrvCh) : (modDrvCh s c f).kin = s.kin := rfl
@[simp] theorem modDrvCh_sys (s : State) (c : Nat) (f : DrvCh → DrvCh) : (modDrvCh s c f).sys = s.sys := rfl
@[simp] theorem modDrvCh_boot (s : State) (c : Nat) (f : DrvCh → DrvCh) : (modDrvCh s c f).boot = s.boot := rfl
@[simp] theorem modDrvCh_mon (s : State) (c : Nat) (f : DrvCh → DrvCh) : (modDrvCh s c f).mon = s.mon := rfl
@[simp] theorem modDrvCh_hif (s : State) (c : Nat) (f : DrvCh → DrvCh) : (modDrvCh s c f).hif = s.hif := rfl
@[simp] theorem modDrvCh_recd (s : State) (c : Nat) (f : DrvCh → DrvCh) : (modDrvCh s c f).recd = s.recd := rfl
@[simp] theorem modDrvCh_sch (s : State) (c : Nat) (f : DrvCh → DrvCh) : (modDrvCh s c f).sch = s.sch := rfl
@[simp] theorem modDrvCh_map (s : State) (c : Nat) (f : DrvCh → DrvCh) : (modDrvCh s c f).map = s.map := rfl
@[simp] theorem modDrvCh_act (s : State) (c : Nat) (f : DrvCh → DrvCh) : (modDrvCh s c f).act = s.act := rfl
@[simp] theorem modDrvCh_fjl (s : State) (c : Nat) (f : DrvCh → DrvCh) : (modDrvCh s c f).fjl = s.fjl := rfl
@[simp] theorem modDrvCh_pwm (s : State) (c : Nat) (f : DrvCh → DrvCh) : (modDrvCh s c f).pwm = s.pwm := rfl
@[simp] theorem modDrvCh_cle (s : State) (c : Nat) (f : DrvCh → DrvCh) : (modDrvCh s c f).cle = s.cle := rfl
@[simp] theorem modDrvCh_enc (s : State) (c : Nat) (f : DrvCh → DrvCh) : (modDrvCh s c f).enc = s.enc := rfl
@[simp] theorem modDrvCh_gns (s : State) (c : Nat) (f : DrvCh → DrvCh) : (modDrvCh s c f).gns = s.gns := rfl
@[simp] theorem modDrvCh_tim (s : State) (c : Nat) (f : DrvCh → DrvCh) : (modDrvCh s c f).tim = s.tim := rfl
@[simp] theorem modDrvCh_eth (s : State) (c : Nat) (f : DrvCh → DrvCh) : (modDrvCh s c f).eth = s.eth := rfl
@[simp] theorem modDrvCh_can (s : State) (c : Nat) (f : DrvCh → DrvCh) : (modDrvCh s c f).can = s.can := rfl
@[simp] theorem modDrvCh_now (s : State) (c : Nat) (f : DrvCh → DrvCh) : (modDrvCh s c f).now = s.now := rfl
@[simp] theorem modDrvCh_free (s : State) (c : Nat) (f : DrvCh → DrvCh) : (modDrvCh s c f).free = s.free := rfl
@[simp] theorem modDrvCh_pending (s : State) (c : Nat) (f : DrvCh → DrvCh) : (modDrvCh s c f).pending = s.pending := rfl

@[simp] theorem modDrvGrp_tables (s : State) (g : Nat) (f : DrvGrp → DrvGrp) : (modDrvGrp s g f).tables = s.tables := rfl
@[simp] theorem modDrvGrp_kin (s : State) (g : Nat) (f : DrvGrp → DrvGrp) : (modDrvGrp s g f).kin = s.kin := rfl
@[simp] theorem modDrvGrp_sys (s : State) (g : Nat) (f : DrvGrp → DrvGrp) : (modDrvGrp s g f).sys = s.sys := rfl
@[simp] theorem modDrvGrp_boot (s : State) (g : Nat) (f : DrvGrp → DrvGrp) : (modDrvGrp s g f).boot = s.boot := rfl
@[simp] theorem modDrvGrp_mon (s : State) (g : Nat) (f : DrvGrp → DrvGrp) : (modDrvGrp s g f).mon = s.mon := rfl
@[simp] theorem modDrvGrp_hif (s : State) (g : Nat) (f : DrvGrp → DrvGrp) : (modDrvGrp s g f).hif = s.hif := rfl
@[simp] theorem modDrvGrp_recd (s : State) (g : Nat) (f : DrvGrp → DrvGrp) : (modDrvGrp s g f).recd = s.recd := rfl
@[simp] theorem modDrvGrp_sch (s : State) (g : Nat) (f : DrvGrp → DrvGrp) : (modDrvGrp s g f).sch = s.sch := rfl
@[simp] theorem modDrvGrp_map (s : State) (g : Nat) (f : DrvGrp → DrvGrp) : (modDrvGrp s g f).map = s.map := rfl
@[simp] theorem modDrvGrp_act (s : State) (g : Nat) (f : DrvGrp → DrvGrp) : (modDrvGrp s g f).act = s.act := rfl
@[simp] theorem modDrvGrp_fjl (s : State) (g : Nat) (f : DrvGrp → DrvGrp) : (modDrvGrp s g f).fjl = s.fjl := rfl
@[simp] theorem modDrvGrp_pwm (s : State) (g : Nat) (f : DrvGrp → DrvGrp) : (modDrvGrp s g f).pwm = s.pwm := rfl
@[simp] theorem modDrvGrp_cle (s : State) (g : Nat) (f : DrvGrp → DrvGrp) : (modDrvGrp s g f).cle = s.cle := rfl
@[simp] theorem modDrvGrp_enc (s : State) (g : Nat) (f : DrvGrp → DrvGrp) : (modDrvGrp s g f).enc = s.enc := rfl
@[simp] theorem modDrvGrp_gns (s : State) (g : Nat) (f : DrvGrp → DrvGrp) : (modDrvGrp s g f).gns = s.gns := rfl
@[simp] theorem modDrvGrp_tim (s : State) (g : Nat) (f : DrvGrp → DrvGrp) : (modDrvGrp s g f).tim = s.tim := rfl
@[simp] theorem modDrvGrp_eth (s : State) (g : Nat) (f : DrvGrp → DrvGrp) : (modDrvGrp s g f).eth = s.eth := rfl
@[simp] theorem modDrvGrp_can (s : State) (g : Nat) (f : DrvGrp → DrvGrp) : (modDrvGrp s g f).can = s.can := rfl
@[simp] theorem modDrvGrp_now (s : State) (g : Nat) (f : DrvGrp → DrvGrp) : (modDrvGrp s g f).now = s.now := rfl
@[simp] theorem modDrvGrp_free (s : State) (g : Nat) (f : DrvGrp → DrvGrp) : (modDrvGrp s g f).free = s.free := rfl
@[simp] theorem modDrvGrp_pending (s : State) (g : Nat) (f : DrvGrp → DrvGrp) : (modDrvGrp s g f).pending = s.pending := rfl

@[simp] theorem modRing_regs (s : State) (r : Nat) (f : RingState → RingState) : (modRing s r f).regs = s.regs := rfl
@[simp] theorem modRing_tables (s : State) (r : Nat) (f : RingState → RingState) : (modRing s r f).tables = s.tables := rfl
@[simp] theorem modRing_kin (s : State) (r : Nat) (f : RingState → RingState) : (modRing s r f).kin = s.kin := rfl
@[simp] theorem modRing_sys (s : State) (r : Nat) (f : RingState → RingState) : (modRing s r f).sys = s.sys := rfl
@[simp] theorem modRing_boot (s : State) (r : Nat) (f : RingState → RingState) : (modRing s r f).boot = s.boot := rfl
@[simp] theorem modRing_mon (s : State) (r : Nat) (f : RingState → RingState) : (modRing s r f).mon = s.mon := rfl
@[simp] theorem modRing_hif (s : State) (r : Nat) (f : RingState → RingState) : (modRing s r f).hif = s.hif := rfl
@[simp] theorem modRing_recd (s : State) (r : Nat) (f : RingState → RingState) : (modRing s r f).recd = s.recd := rfl
@[simp] theorem modRing_sch (s : State) (r : Nat) (f : RingState → RingState) : (modRing s r f).sch = s.sch := rfl
@[simp] theorem modRing_map (s : State) (r : Nat) (f : RingState → RingState) : (modRing s r f).map = s.map := rfl
@[simp] theorem modRing_act (s : State) (r : Nat) (f : RingState → RingState) : (modRing s r f).act = s.act := rfl
@[simp] theorem modRing_drv (s : State) (r : Nat) (f : RingState → RingState) : (modRing s r f).drv = s.drv := rfl
@[simp] theorem modRing_pwm (s : State) (r : Nat) (f : RingState → RingState) : (modRing s r f).pwm = s.pwm := rfl
@[simp] theorem modRing_cle (s : State) (r : Nat) (f : RingState → RingState) : (modRing s r f).cle = s.cle := rfl
@[simp] theorem modRing_enc (s : State) (r : Nat) (f : RingState → RingState) : (modRing s r f).enc = s.enc := rfl
@[simp] theorem modRing_gns (s : State) (r : Nat) (f : RingState → RingState) : (modRing s r f).gns = s.gns := rfl
@[simp] theorem modRing_tim (s : State) (r : Nat) (f : RingState → RingState) : (modRing s r f).tim = s.tim := rfl
@[simp] theorem modRing_eth (s : State) (r : Nat) (f : RingState → RingState) : (modRing s r f).eth = s.eth := rfl
@[simp] theorem modRing_can (s : State) (r : Nat) (f : RingState → RingState) : (modRing s r f).can = s.can := rfl
@[simp] theorem modRing_now (s : State) (r : Nat) (f : RingState → RingState) : (modRing s r f).now = s.now := rfl
@[simp] theorem modRing_free (s : State) (r : Nat) (f : RingState → RingState) : (modRing s r f).free = s.free := rfl
@[simp] theorem modRing_pending (s : State) (r : Nat) (f : RingState → RingState) : (modRing s r f).pending = s.pending := rfl

@[simp] theorem modNode_regs (s : State) (r n : Nat) (f : RingNode → RingNode) : (modNode s r n f).regs = s.regs := rfl
@[simp] theorem modNode_tables (s : State) (r n : Nat) (f : RingNode → RingNode) : (modNode s r n f).tables = s.tables := rfl
@[simp] theorem modNode_kin (s : State) (r n : Nat) (f : RingNode → RingNode) : (modNode s r n f).kin = s.kin := rfl
@[simp] theorem modNode_sys (s : State) (r n : Nat) (f : RingNode → RingNode) : (modNode s r n f).sys = s.sys := rfl
@[simp] theorem modNode_boot (s : State) (r n : Nat) (f : RingNode → RingNode) : (modNode s r n f).boot = s.boot := rfl
@[simp] theorem modNode_mon (s : State) (r n : Nat) (f : RingNode → RingNode) : (modNode s r n f).mon = s.mon := rfl
@[simp] theorem modNode_hif (s : State) (r n : Nat) (f : RingNode → RingNode) : (modNode s r n f).hif = s.hif := rfl
@[simp] theorem modNode_recd (s : State) (r n : Nat) (f : RingNode → RingNode) : (modNode s r n f).recd = s.recd := rfl
@[simp] theorem modNode_sch (s : State) (r n : Nat) (f : RingNode → RingNode) : (modNode s r n f).sch = s.sch := rfl
@[simp] theorem modNode_map (s : State) (r n : Nat) (f : RingNode → RingNode) : (modNode s r n f).map = s.map := rfl
@[simp] theorem modNode_act (s : State) (r n : Nat) (f : RingNode → RingNode) : (modNode s r n f).act = s.act := rfl
@[simp] theorem modNode_drv (s : State) (r n : Nat) (f : RingNode → RingNode) : (modNode s r n f).drv = s.drv := rfl
@[simp] theorem modNode_pwm (s : State) (r n : Nat) (f : RingNode → RingNode) : (modNode s r n f).pwm = s.pwm := rfl
@[simp] theorem modNode_cle (s : State) (r n : Nat) (f : RingNode → RingNode) : (modNode s r n f).cle = s.cle := rfl
@[simp] theorem modNode_enc (s : State) (r n : Nat) (f : RingNode → RingNode) : (modNode s r n f).enc = s.enc := rfl
@[simp] theorem modNode_gns (s : State) (r n : Nat) (f : RingNode → RingNode) : (modNode s r n f).gns = s.gns := rfl
@[simp] theorem modNode_tim (s : State) (r n : Nat) (f : RingNode → RingNode) : (modNode s r n f).tim = s.tim := rfl
@[simp] theorem modNode_eth (s : State) (r n : Nat) (f : RingNode → RingNode) : (modNode s r n f).eth = s.eth := rfl
@[simp] theorem modNode_can (s : State) (r n : Nat) (f : RingNode → RingNode) : (modNode s r n f).can = s.can := rfl
@[simp] theorem modNode_now (s : State) (r n : Nat) (f : RingNode → RingNode) : (modNode s r n f).now = s.now := rfl
@[simp] theorem modNode_free (s : State) (r n : Nat) (f : RingNode → RingNode) : (modNode s r n f).free = s.free := rfl
@[simp] theorem modNode_pending (s : State) (r n : Nat) (f : RingNode → RingNode) : (modNode s r n f).pending = s.pending := rfl

@[simp] theorem modRemCh_regs (s : State) (c : Nat) (f : RemCh → RemCh) : (modRemCh s c f).regs = s.regs := rfl
@[simp] theorem modRemCh_tables (s : State) (c : Nat) (f : RemCh → RemCh) : (modRemCh s c f).tables = s.tables := rfl
@[simp] theorem modRemCh_kin (s : State) (c : Nat) (f : RemCh → RemCh) : (modRemCh s c f).kin = s.kin := rfl
@[simp] theorem modRemCh_sys (s : State) (c : Nat) (f : RemCh → RemCh) : (modRemCh s c f).sys = s.sys := rfl
@[simp] theorem modRemCh_boot (s : State) (c : Nat) (f : RemCh → RemCh) : (modRemCh s c f).boot = s.boot := rfl
@[simp] theorem modRemCh_mon (s : State) (c : Nat) (f : RemCh → RemCh) : (modRemCh s c f).mon = s.mon := rfl
@[simp] theorem modRemCh_hif (s : State) (c : Nat) (f : RemCh → RemCh) : (modRemCh s c f).hif = s.hif := rfl
@[simp] theorem modRemCh_recd (s : State) (c : Nat) (f : RemCh → RemCh) : (modRemCh s c f).recd = s.recd := rfl
@[simp] theorem modRemCh_sch (s : State) (c : Nat) (f : RemCh → RemCh) : (modRemCh s c f).sch = s.sch := rfl
@[simp] theorem modRemCh_map (s : State) (c : Nat) (f : RemCh → RemCh) : (modRemCh s c f).map = s.map := rfl
@[simp] theorem modRemCh_act (s : State) (c : Nat) (f : RemCh → RemCh) : (modRemCh s c f).act = s.act := rfl
@[simp] theorem modRemCh_drv (s : State) (c : Nat) (f : RemCh → RemCh) : (modRemCh s c f).drv = s.drv := rfl
@[simp] theorem modRemCh_pwm (s : State) (c : Nat) (f : RemCh → RemCh) : (modRemCh s c f).pwm = s.pwm := rfl
@[simp] theorem modRemCh_cle (s : State) (c : Nat) (f : RemCh → RemCh) : (modRemCh s c f).cle = s.cle := rfl
@[simp] theorem modRemCh_enc (s : State) (c : Nat) (f : RemCh → RemCh) : (modRemCh s c f).enc = s.enc := rfl
@[simp] theorem modRemCh_gns (s : State) (c : Nat) (f : RemCh → RemCh) : (modRemCh s c f).gns = s.gns := rfl
@[simp] theorem modRemCh_tim (s : State) (c : Nat) (f : RemCh → RemCh) : (modRemCh s c f).tim = s.tim := rfl
@[simp] theorem modRemCh_eth (s : State) (c : Nat) (f : RemCh → RemCh) : (modRemCh s c f).eth = s.eth := rfl
@[simp] theorem modRemCh_can (s : State) (c : Nat) (f : RemCh → RemCh) : (modRemCh s c f).can = s.can := rfl
@[simp] theorem modRemCh_now (s : State) (c : Nat) (f : RemCh → RemCh) : (modRemCh s c f).now = s.now := rfl
@[simp] theorem modRemCh_free (s : State) (c : Nat) (f : RemCh → RemCh) : (modRemCh s c f).free = s.free := rfl
@[simp] theorem modRemCh_pending (s : State) (c : Nat) (f : RemCh → RemCh) : (modRemCh s c f).pending = s.pending := rfl

@[simp] theorem modPwm_regs (s : State) (g : Nat) (f : PwmGrp → PwmGrp) : (modPwm s g f).regs = s.regs := rfl
@[simp] theorem modPwm_tables (s : State) (g : Nat) (f : PwmGrp → PwmGrp) : (modPwm s g f).tables = s.tables := rfl
@[simp] theorem modPwm_kin (s : State) (g : Nat) (f : PwmGrp → PwmGrp) : (modPwm s g f).kin = s.kin := rfl
@[simp] theorem modPwm_sys (s : State) (g : Nat) (f : PwmGrp → PwmGrp) : (modPwm s g f).sys = s.sys := rfl
@[simp] theorem modPwm_boot (s : State) (g : Nat) (f : PwmGrp → PwmGrp) : (modPwm s g f).boot = s.boot := rfl
@[simp] theorem modPwm_mon (s : State) (g : Nat) (f : PwmGrp → PwmGrp) : (modPwm s g f).mon = s.mon := rfl
@[simp] theorem modPwm_hif (s : State) (g : Nat) (f : PwmGrp → PwmGrp) : (modPwm s g f).hif = s.hif := rfl
@[simp] theorem modPwm_recd (s : State) (g : Nat) (f : PwmGrp → PwmGrp) : (modPwm s g f).recd = s.recd := rfl
@[simp] theorem modPwm_sch (s : State) (g : Nat) (f : PwmGrp → PwmGrp) : (modPwm s g f).sch = s.sch := rfl
@[simp] theorem modPwm_map (s : State) (g : Nat) (f : PwmGrp → PwmGrp) : (modPwm s g f).map = s.map := rfl
@[simp] theorem modPwm_act (s : State) (g : Nat) (f : PwmGrp → PwmGrp) : (modPwm s g f).act = s.act := rfl
@[simp] theorem modPwm_drv (s : State) (g : Nat) (f : PwmGrp → PwmGrp) : (modPwm s g f).drv = s.drv := rfl
@[simp] theorem modPwm_fjl (s : State) (g : Nat) (f : PwmGrp → PwmGrp) : (modPwm s g f).fjl = s.fjl := rfl
@[simp] theorem modPwm_cle (s : State) (g : Nat) (f : PwmGrp → PwmGrp) : (modPwm s g f).cle = s.cle := rfl
@[simp] theorem modPwm_enc (s : State) (g : Nat) (f : PwmGrp → PwmGrp) : (modPwm s g f).enc = s.enc := rfl
@[simp] theorem modPwm_gns (s : State) (g : Nat) (f : PwmGrp → PwmGrp) : (modPwm s g f).gns = s.gns := rfl
@[simp] theorem modPwm_tim (s : State) (g : Nat) (f : PwmGrp → PwmGrp) : (modPwm s g f).tim = s.tim := rfl
@[simp] theorem modPwm_eth (s : State) (g : Nat) (f : PwmGrp → PwmGrp) : (modPwm s g f).eth = s.eth := rfl
@[simp] theorem modPwm_can (s : State) (g : Nat) (f : PwmGrp → PwmGrp) : (modPwm s g f).can = s.can := rfl
@[simp] theorem modPwm_now (s : State) (g : Nat) (f : PwmGrp → PwmGrp) : (modPwm s g f).now = s.now := rfl
@[simp] theorem modPwm_free (s : State) (g : Nat) (f : PwmGrp → PwmGrp) : (modPwm s g f).free = s.free := rfl
@[simp] theorem modPwm_pending (s : State) (g : Nat) (f : PwmGrp → PwmGrp) : (modPwm s g f).pending = s.pending := rfl

@[simp] theorem modLoop_regs (s : State) (n : Nat) (f : Loop → Loop) : (modLoop s n f).regs = s.regs := rfl
@[simp] theorem modLoop_tables (s : State) (n : Nat) (f : Loop → Loop) : (modLoop s n f).tables = s.tables := rfl
@[simp] theorem modLoop_kin (s : State) (n : Nat) (f : Loop → Loop) : (modLoop s n f).kin = s.kin := rfl
@[simp] theorem modLoop_sys (s : State) (n : Nat) (f : Loop → Loop) : (modLoop s n f).sys = s.sys := rfl
@[simp] theorem modLoop_boot (s : State) (n : Nat) (f : Loop → Loop) : (modLoop s n f).boot = s.boot := rfl
@[simp] theorem modLoop_mon (s : State) (n : Nat) (f : Loop → Loop) : (modLoop s n f).mon = s.mon := rfl
@[simp] theorem modLoop_hif (s : State) (n : Nat) (f : Loop → Loop) : (modLoop s n f).hif = s.hif := rfl
@[simp] theorem modLoop_recd (s : State) (n : Nat) (f : Loop → Loop) : (modLoop s n f).recd = s.recd := rfl
@[simp] theorem modLoop_sch (s : State) (n : Nat) (f : Loop → Loop) : (modLoop s n f).sch = s.sch := rfl
@[simp] theorem modLoop_map (s : State) (n : Nat) (f : Loop → Loop) : (modLoop s n f).map = s.map := rfl
@[simp] theorem modLoop_act (s : State) (n : Nat) (f : Loop → Loop) : (modLoop s n f).act = s.act := rfl
@[simp] theorem modLoop_drv (s : State) (n : Nat) (f : Loop → Loop) : (modLoop s n f).drv = s.drv := rfl
@[simp] theorem modLoop_fjl (s : State) (n : Nat) (f : Loop → Loop) : (modLoop s n f).fjl = s.fjl := rfl
@[simp] theorem modLoop_pwm (s : State) (n : Nat) (f : Loop → Loop) : (modLoop s n f).pwm = s.pwm := rfl
@[simp] theorem modLoop_enc (s : State) (n : Nat) (f : Loop → Loop) : (modLoop s n f).enc = s.enc := rfl
@[simp] theorem modLoop_gns (s : State) (n : Nat) (f : Loop → Loop) : (modLoop s n f).gns = s.gns := rfl
@[simp] theorem modLoop_tim (s : State) (n : Nat) (f : Loop → Loop) : (modLoop s n f).tim = s.tim := rfl
@[simp] theorem modLoop_eth (s : State) (n : Nat) (f : Loop → Loop) : (modLoop s n f).eth = s.eth := rfl
@[simp] theorem modLoop_can (s : State) (n : Nat) (f : Loop → Loop) : (modLoop s n f).can = s.can := rfl
@[simp] theorem modLoop_now (s : State) (n : Nat) (f : Loop → Loop) : (modLoop s n f).now = s.now := rfl
@[simp] theorem modLoop_free (s : State) (n : Nat) (f : Loop → Loop) : (modLoop s n f).free = s.free := rfl
@[simp] theorem modLoop_pending (s : State) (n : Nat) (f : Loop → Loop) : (modLoop s n f).pending = s.pending := rfl

@[simp] theorem modCnt_regs (s : State) (u : Nat) (f : Counter → Counter) : (modCnt s u f).regs = s.regs := rfl
@[simp] theorem modCnt_tables (s : State) (u : Nat) (f : Counter → Counter) : (modCnt s u f).tables = s.tables := rfl
@[simp] theorem modCnt_kin (s : State) (u : Nat) (f : Counter → Counter) : (modCnt s u f).kin = s.kin := rfl
@[simp] theorem modCnt_sys (s : State) (u : Nat) (f : Counter → Counter) : (modCnt s u f).sys = s.sys := rfl
@[simp] theorem modCnt_boot (s : State) (u : Nat) (f : Counter → Counter) : (modCnt s u f).boot = s.boot := rfl
@[simp] theorem modCnt_mon (s : State) (u : Nat) (f : Counter → Counter) : (modCnt s u f).mon = s.mon := rfl
@[simp] theorem modCnt_hif (s : State) (u : Nat) (f : Counter → Counter) : (modCnt s u f).hif = s.hif := rfl
@[simp] theorem modCnt_recd (s : State) (u : Nat) (f : Counter → Counter) : (modCnt s u f).recd = s.recd := rfl
@[simp] theorem modCnt_sch (s : State) (u : Nat) (f : Counter → Counter) : (modCnt s u f).sch = s.sch := rfl
@[simp] theorem modCnt_map (s : State) (u : Nat) (f : Counter → Counter) : (modCnt s u f).map = s.map := rfl
@[simp] theorem modCnt_act (s : State) (u : Nat) (f : Counter → Counter) : (modCnt s u f).act = s.act := rfl
@[simp] theorem modCnt_drv (s : State) (u : Nat) (f : Counter → Counter) : (modCnt s u f).drv = s.drv := rfl
@[simp] theorem modCnt_fjl (s : State) (u : Nat) (f : Counter → Counter) : (modCnt s u f).fjl = s.fjl := rfl
@[simp] theorem modCnt_pwm (s : State) (u : Nat) (f : Counter → Counter) : (modCnt s u f).pwm = s.pwm := rfl
@[simp] theorem modCnt_cle (s : State) (u : Nat) (f : Counter → Counter) : (modCnt s u f).cle = s.cle := rfl
@[simp] theorem modCnt_gns (s : State) (u : Nat) (f : Counter → Counter) : (modCnt s u f).gns = s.gns := rfl
@[simp] theorem modCnt_tim (s : State) (u : Nat) (f : Counter → Counter) : (modCnt s u f).tim = s.tim := rfl
@[simp] theorem modCnt_eth (s : State) (u : Nat) (f : Counter → Counter) : (modCnt s u f).eth = s.eth := rfl
@[simp] theorem modCnt_can (s : State) (u : Nat) (f : Counter → Counter) : (modCnt s u f).can = s.can := rfl
@[simp] theorem modCnt_now (s : State) (u : Nat) (f : Counter → Counter) : (modCnt s u f).now = s.now := rfl
@[simp] theorem modCnt_free (s : State) (u : Nat) (f : Counter → Counter) : (modCnt s u f).free = s.free := rfl
@[simp] theorem modCnt_pending (s : State) (u : Nat) (f : Counter → Counter) : (modCnt s u f).pending = s.pending := rfl

@[simp] theorem modSer_regs (s : State) (p : Nat) (f : Serial → Serial) : (modSer s p f).regs = s.regs := rfl
@[simp] theorem modSer_tables (s : State) (p : Nat) (f : Serial → Serial) : (modSer s p f).tables = s.tables := rfl
@[simp] theorem modSer_kin (s : State) (p : Nat) (f : Serial → Serial) : (modSer s p f).kin = s.kin := rfl
@[simp] theorem modSer_sys (s : State) (p : Nat) (f : Serial → Serial) : (modSer s p f).sys = s.sys := rfl
@[simp] theorem modSer_boot (s : State) (p : Nat) (f : Serial → Serial) : (modSer s p f).boot = s.boot := rfl
@[simp] theorem modSer_mon (s : State) (p : Nat) (f : Serial → Serial) : (modSer s p f).mon = s.mon := rfl
@[simp] theorem modSer_hif (s : State) (p : Nat) (f : Serial → Serial) : (modSer s p f).hif = s.hif := rfl
@[simp] theorem modSer_recd (s : State) (p : Nat) (f : Serial → Serial) : (modSer s p f).recd = s.recd := rfl
@[simp] theorem modSer_sch (s : State) (p : Nat) (f : Serial → Serial) : (modSer s p f).sch = s.sch := rfl
@[simp] theorem modSer_map (s : State) (p : Nat) (f : Serial → Serial) : (modSer s p f).map = s.map := rfl
@[simp] theorem modSer_act (s : State) (p : Nat) (f : Serial → Serial) : (modSer s p f).act = s.act := rfl
@[simp] theorem modSer_drv (s : State) (p : Nat) (f : Serial → Serial) : (modSer s p f).drv = s.drv := rfl
@[simp] theorem modSer_fjl (s : State) (p : Nat) (f : Serial → Serial) : (modSer s p f).fjl = s.fjl := rfl
@[simp] theorem modSer_pwm (s : State) (p : Nat) (f : Serial → Serial) : (modSer s p f).pwm = s.pwm := rfl
@[simp] theorem modSer_cle (s : State) (p : Nat) (f : Serial → Serial) : (modSer s p f).cle = s.cle := rfl
@[simp] theorem modSer_gns (s : State) (p : Nat) (f : Serial → Serial) : (modSer s p f).gns = s.gns := rfl
@[simp] theorem modSer_tim (s : State) (p : Nat) (f : Serial → Serial) : (modSer s p f).tim = s.tim := rfl
@[simp] theorem modSer_eth (s : State) (p : Nat) (f : Serial → Serial) : (modSer s p f).eth = s.eth := rfl
@[simp] theorem modSer_can (s : State) (p : Nat) (f : Serial → Serial) : (modSer s p f).can = s.can := rfl
@[simp] theorem modSer_now (s : State) (p : Nat) (f : Serial → Serial) : (modSer s p f).now = s.now := rfl
@[simp] theorem modSer_free (s : State) (p : Nat) (f : Serial → Serial) : (modSer s p f).free = s.free := rfl
@[simp] theorem modSer_pending (s : State) (p : Nat) (f : Serial → Serial) : (modSer s p f).pending = s.pending := rfl

@[simp] theorem modTb_regs (s : State) (n : Nat) (f : TimeBase → TimeBase) : (modTb s n f).regs = s.regs := rfl
@[simp] theorem modTb_tables (s : State) (n : Nat) (f : TimeBase → TimeBase) : (modTb s n f).tables = s.tables := rfl
@[simp] theorem modTb_kin (s : State) (n : Nat) (f : TimeBase → TimeBase) : (modTb s n f).kin = s.kin := rfl
@[simp] theorem modTb_sys (s : State) (n : Nat) (f : TimeBase → TimeBase) : (modTb s n f).sys = s.sys := rfl
@[simp] theorem modTb_boot (s : State) (n : Nat) (f : TimeBase → TimeBase) : (modTb s n f).boot = s.boot := rfl
@[simp] theorem modTb_mon (s : State) (n : Nat) (f : TimeBase → TimeBase) : (modTb s n f).mon = s.mon := rfl
@[simp] theorem modTb_hif (s : State) (n : Nat) (f : TimeBase → TimeBase) : (modTb s n f).hif = s.hif := rfl
@[simp] theorem modTb_recd (s : State) (n : Nat) (f : TimeBase → TimeBase) : (modTb s n f).recd = s.recd := rfl
@[simp] theorem modTb_sch (s : State) (n : Nat) (f : TimeBase → TimeBase) : (modTb s n f).sch = s.sch := rfl
@[simp] theorem modTb_map (s : State) (n : Nat) (f : TimeBase → TimeBase) : (modTb s n f).map = s.map := rfl
@[simp] theorem modTb_act (s : State) (n : Nat) (f : TimeBase → TimeBase) : (modTb s n f).act = s.act := rfl
@[simp] theorem modTb_drv (s : State) (n : Nat) (f : TimeBase → TimeBase) : (modTb s n f).drv = s.drv := rfl
@[simp] theorem modTb_fjl (s : State) (n : Nat) (f : TimeBase → TimeBase) : (modTb s n f).fjl = s.fjl := rfl
@[simp] theorem modTb_pwm (s : State) (n : Nat) (f : TimeBase → TimeBase) : (modTb s n f).pwm = s.pwm := rfl
@[simp] theorem modTb_cle (s : State) (n : Nat) (f : TimeBase → TimeBase) : (modTb s n f).cle = s.cle := rfl
@[simp] theorem modTb_enc (s : State) (n : Nat) (f : TimeBase → TimeBase) : (modTb s n f).enc = s.enc := rfl
@[simp] theorem modTb_gns (s : State) (n : Nat) (f : TimeBase → TimeBase) : (modTb s n f).gns = s.gns := rfl
@[simp] theorem modTb_eth (s : State) (n : Nat) (f : TimeBase → TimeBase) : (modTb s n f).eth = s.eth := rfl
@[simp] theorem modTb_can (s : State) (n : Nat) (f : TimeBase → TimeBase) : (modTb s n f).can = s.can := rfl
@[simp] theorem modTb_now (s : State) (n : Nat) (f : TimeBase → TimeBase) : (modTb s n f).now = s.now := rfl
@[simp] theorem modTb_free (s : State) (n : Nat) (f : TimeBase → TimeBase) : (modTb s n f).free = s.free := rfl
@[simp] theorem modTb_pending (s : State) (n : Nat) (f : TimeBase → TimeBase) : (modTb s n f).pending = s.pending := rfl

@[simp] theorem modPps_regs (s : State) (x : Nat) (f : Pps → Pps) : (modPps s x f).regs = s.regs := rfl
@[simp] theorem modPps_tables (s : State) (x : Nat) (f : Pps → Pps) : (modPps s x f).tables = s.tables := rfl
@[simp] theorem modPps_kin (s : State) (x : Nat) (f : Pps → Pps) : (modPps s x f).kin = s.kin := rfl
@[simp] theorem modPps_sys (s : State) (x : Nat) (f : Pps → Pps) : (modPps s x f).sys = s.sys := rfl
@[simp] theorem modPps_boot (s : State) (x : Nat) (f : Pps → Pps) : (modPps s x f).boot = s.boot := rfl
@[simp] theorem modPps_mon (s : State) (x : Nat) (f : Pps → Pps) : (modPps s x f).mon = s.mon := rfl
@[simp] theorem modPps_hif (s : State) (x : Nat) (f : Pps → Pps) : (modPps s x f).hif = s.hif := rfl
@[simp] theorem modPps_recd (s : State) (x : Nat) (f : Pps → Pps) : (modPps s x f).recd = s.recd := rfl
@[simp] theorem modPps_sch (s : State) (x : Nat) (f : Pps → Pps) : (modPps s x f).sch = s.sch := rfl
@[simp] theorem modPps_map (s : State) (x : Nat) (f : Pps → Pps) : (modPps s x f).map = s.map := rfl
@[simp] theorem modPps_act (s : State) (x : Nat) (f : Pps → Pps) : (modPps s x f).act = s.act := rfl
@[simp] theorem modPps_drv (s : State) (x : Nat) (f : Pps → Pps) : (modPps s x f).drv = s.drv := rfl
@[simp] theorem modPps_fjl (s : State) (x : Nat) (f : Pps → Pps) : (modPps s x f).fjl = s.fjl := rfl
@[simp] theorem modPps_pwm (s : State) (x : Nat) (f : Pps → Pps) : (modPps s x f).pwm = s.pwm := rfl
@[simp] theorem modPps_cle (s : State) (x : Nat) (f : Pps → Pps) : (modPps s x f).cle = s.cle := rfl
@[simp] theorem modPps_enc (s : State) (x : Nat) (f : Pps → Pps) : (modPps s x f).enc = s.enc := rfl
@[simp] theorem modPps_gns (s : State) (x : Nat) (f : Pps → Pps) : (modPps s x f).gns = s.gns := rfl
@[simp] theorem modPps_eth (s : State) (x : Nat) (f : Pps → Pps) : (modPps s x f).eth = s.eth := rfl
@[simp] theorem modPps_can (s : State) (x : Nat) (f : Pps → Pps) : (modPps s x f).can = s.can := rfl
@[simp] theorem modPps_now (s : State) (x : Nat) (f : Pps → Pps) : (modPps s x f).now = s.now := rfl
@[simp] theorem modPps_free (s : State) (x : Nat) (f : Pps → Pps) : (modPps s x f).free = s.free := rfl
@[simp] theorem modPps_pending (s : State) (x : Nat) (f : Pps → Pps) : (modPps s x f).pending = s.pending := rfl

@[simp] theorem modGns_regs (s : State) (i : Nat) (f : GnsSlot → GnsSlot) : (modGns s i f).regs = s.regs := rfl
@[simp] theorem modGns_tables (s : State) (i : Nat) (f : GnsSlot → GnsSlot) : (modGns s i f).tables = s.tables := rfl
@[simp] theorem modGns_kin (s : State) (i : Nat) (f : GnsSlot → GnsSlot) : (modGns s i f).kin = s.kin := rfl
@[simp] theorem modGns_sys (s : State) (i : Nat) (f : GnsSlot → GnsSlot) : (modGns s i f).sys = s.sys := rfl
@[simp] theorem modGns_boot (s : State) (i : Nat) (f : GnsSlot → GnsSlot) : (modGns s i f).boot = s.boot := rfl
@[simp] theorem modGns_mon (s : State) (i : Nat) (f : GnsSlot → GnsSlot) : (modGns s i f).mon = s.mon := rfl
@[simp] theorem modGns_hif (s : State) (i : Nat) (f : GnsSlot → GnsSlot) : (modGns s i f).hif = s.hif := rfl
@[simp] theorem modGns_recd (s : State) (i : Nat) (f : GnsSlot → GnsSlot) : (modGns s i f).recd = s.recd := rfl
@[simp] theorem modGns_sch (s : State) (i : Nat) (f : GnsSlot → GnsSlot) : (modGns s i f).sch = s.sch := rfl
@[simp] theorem modGns_map (s : State) (i : Nat) (f : GnsSlot → GnsSlot) : (modGns s i f).map = s.map := rfl
@[simp] theorem modGns_act (s : State) (i : Nat) (f : GnsSlot → GnsSlot) : (modGns s i f).act = s.act := rfl
@[simp] theorem modGns_drv (s : State) (i : Nat) (f : GnsSlot → GnsSlot) : (modGns s i f).drv = s.drv := rfl
@[simp] theorem modGns_fjl (s : State) (i : Nat) (f : GnsSlot → GnsSlot) : (modGns s i f).fjl = s.fjl := rfl
@[simp] theorem modGns_pwm (s : State) (i : Nat) (f : GnsSlot → GnsSlot) : (modGns s i f).pwm = s.pwm := rfl
@[simp] theorem modGns_cle (s : State) (i : Nat) (f : GnsSlot → GnsSlot) : (modGns s i f).cle = s.cle := rfl
@[simp] theorem modGns_enc (s : State) (i : Nat) (f : GnsSlot → GnsSlot) : (modGns s i f).enc = s.enc := rfl
@[simp] theorem modGns_tim (s : State) (i : Nat) (f : GnsSlot → GnsSlot) : (modGns s i f).tim = s.tim := rfl
@[simp] theorem modGns_eth (s : State) (i : Nat) (f : GnsSlot → GnsSlot) : (modGns s i f).eth = s.eth := rfl
@[simp] theorem modGns_can (s : State) (i : Nat) (f : GnsSlot → GnsSlot) : (modGns s i f).can = s.can := rfl
@[simp] theorem modGns_now (s : State) (i : Nat) (f : GnsSlot → GnsSlot) : (modGns s i f).now = s.now := rfl
@[simp] theorem modGns_free (s : State) (i : Nat) (f : GnsSlot → GnsSlot) : (modGns s i f).free = s.free := rfl
@[simp] theorem modGns_pending (s : State) (i : Nat) (f : GnsSlot → GnsSlot) : (modGns s i f).pending = s.pending := rfl

@[simp] theorem modCtl_regs (s : State) (x : Nat) (f : CanCtl → CanCtl) : (modCtl s x f).regs = s.regs := rfl
@[simp] theorem modCtl_tables (s : State) (x : Nat) (f : CanCtl → CanCtl) : (modCtl s x f).tables = s.tables := rfl
@[simp] theorem modCtl_kin (s : State) (x : Nat) (f : CanCtl → CanCtl) : (modCtl s x f).kin = s.kin := rfl
@[simp] theorem modCtl_sys (s : State) (x : Nat) (f : CanCtl → CanCtl) : (modCtl s x f).sys = s.sys := rfl
@[simp] theorem modCtl_boot (s : State) (x : Nat) (f : CanCtl → CanCtl) : (modCtl s x f).boot = s.boot := rfl
@[simp] theorem modCtl_mon (s : State) (x : Nat) (f : CanCtl → CanCtl) : (modCtl s x f).mon = s.mon := rfl
@[simp] theorem modCtl_hif (s : State) (x : Nat) (f : CanCtl → CanCtl) : (modCtl s x f).hif = s.hif := rfl
@[simp] theorem modCtl_recd (s : State) (x : Nat) (f : CanCtl → CanCtl) : (modCtl s x f).recd = s.recd := rfl
@[simp] theorem modCtl_sch (s : State) (x : Nat) (f : CanCtl → CanCtl) : (modCtl s x f).sch = s.sch := rfl
@[simp] theorem modCtl_map (s : State) (x : Nat) (f : CanCtl → CanCtl) : (modCtl s x f).map = s.map := rfl
@[simp] theorem modCtl_act (s : State) (x : Nat) (f : CanCtl → CanCtl) : (modCtl s x f).act = s.act := rfl
@[simp] theorem modCtl_drv (s : State) (x : Nat) (f : CanCtl → CanCtl) : (modCtl s x f).drv = s.drv := rfl
@[simp] theorem modCtl_fjl (s : State) (x : Nat) (f : CanCtl → CanCtl) : (modCtl s x f).fjl = s.fjl := rfl
@[simp] theorem modCtl_pwm (s : State) (x : Nat) (f : CanCtl → CanCtl) : (modCtl s x f).pwm = s.pwm := rfl
@[simp] theorem modCtl_cle (s : State) (x : Nat) (f : CanCtl → CanCtl) : (modCtl s x f).cle = s.cle := rfl
@[simp] theorem modCtl_enc (s : State) (x : Nat) (f : CanCtl → CanCtl) : (modCtl s x f).enc = s.enc := rfl
@[simp] theorem modCtl_gns (s : State) (x : Nat) (f : CanCtl → CanCtl) : (modCtl s x f).gns = s.gns := rfl
@[simp] theorem modCtl_tim (s : State) (x : Nat) (f : CanCtl → CanCtl) : (modCtl s x f).tim = s.tim := rfl
@[simp] theorem modCtl_eth (s : State) (x : Nat) (f : CanCtl → CanCtl) : (modCtl s x f).eth = s.eth := rfl
@[simp] theorem modCtl_now (s : State) (x : Nat) (f : CanCtl → CanCtl) : (modCtl s x f).now = s.now := rfl
@[simp] theorem modCtl_free (s : State) (x : Nat) (f : CanCtl → CanCtl) : (modCtl s x f).free = s.free := rfl
@[simp] theorem modCtl_pending (s : State) (x : Nat) (f : CanCtl → CanCtl) : (modCtl s x f).pending = s.pending := rfl

@[simp] theorem modBuf_regs (s : State) (x b : Nat) (f : CanBuf → CanBuf) : (modBuf s x b f).regs = s.regs := rfl
@[simp] theorem modBuf_tables (s : State) (x b : Nat) (f : CanBuf → CanBuf) : (modBuf s x b f).tables = s.tables := rfl
@[simp] theorem modBuf_kin (s : State) (x b : Nat) (f : CanBuf → CanBuf) : (modBuf s x b f).kin = s.kin := rfl
@[simp] theorem modBuf_sys (s : State) (x b : Nat) (f : CanBuf → CanBuf) : (modBuf s x b f).sys = s.sys := rfl
@[simp] theorem modBuf_boot (s : State) (x b : Nat) (f : CanBuf → CanBuf) : (modBuf s x b f).boot = s.boot := rfl
@[simp] theorem modBuf_mon (s : State) (x b : Nat) (f : CanBuf → CanBuf) : (modBuf s x b f).mon = s.mon := rfl
@[simp] theorem modBuf_hif (s : State) (x b : Nat) (f : CanBuf → CanBuf) : (modBuf s x b f).hif = s.hif := rfl
@[simp] theorem modBuf_recd (s : State) (x b : Nat) (f : CanBuf → CanBuf) : (modBuf s x b f).recd = s.recd := rfl
@[simp] theorem modBuf_sch (s : State) (x b : Nat) (f : CanBuf → CanBuf) : (modBuf s x b f).sch = s.sch := rfl
@[simp] theorem modBuf_map (s : State) (x b : Nat) (f : CanBuf → CanBuf) : (modBuf s x b f).map = s.map := rfl
@[simp] theorem modBuf_act (s : State) (x b : Nat) (f : CanBuf → CanBuf) : (modBuf s x b f).act = s.act := rfl
@[simp] theorem modBuf_drv (s : State) (x b : Nat) (f : CanBuf → CanBuf) : (modBuf s x b f).drv = s.drv := rfl
@[simp] theorem modBuf_fjl (s : State) (x b : Nat) (f : CanBuf → CanBuf) : (modBuf s x b f).fjl = s.fjl := rfl
@[simp] theorem modBuf_pwm (s : State) (x b : Nat) (f : CanBuf → CanBuf) : (modBuf s x b f).pwm = s.pwm := rfl
@[simp] theorem modBuf_cle (s : State) (x b : Nat) (f : CanBuf → CanBuf) : (modBuf s x b f).cle = s.cle := rfl
@[simp] theorem modBuf_enc (s : State) (x b : Nat) (f : CanBuf → CanBuf) : (modBuf s x b f).enc = s.enc := rfl
@[simp] theorem modBuf_gns (s : State) (x b : Nat) (f : CanBuf → CanBuf) : (modBuf s x b f).gns = s.gns := rfl
@[simp] theorem modBuf_tim (s : State) (x b : Nat) (f : CanBuf → CanBuf) : (modBuf s x b f).tim = s.tim := rfl
@[simp] theorem modBuf_eth (s : State) (x b : Nat) (f : CanBuf → CanBuf) : (modBuf s x b f).eth = s.eth := rfl
@[simp] theorem modBuf_now (s : State) (x b : Nat) (f : CanBuf → CanBuf) : (modBuf s x b f).now = s.now := rfl
@[simp] theorem modBuf_free (s : State) (x b : Nat) (f : CanBuf → CanBuf) : (modBuf s x b f).free = s.free := rfl
@[simp] theorem modBuf_pending (s : State) (x b : Nat) (f : CanBuf → CanBuf) : (modBuf s x b f).pending = s.pending := rfl

@[simp] theorem setMode_tables (s : State) (m : Nat) : (setMode s m).tables = s.tables := rfl
@[simp] theorem setMode_kin (s : State) (m : Nat) : (setMode s m).kin = s.kin := rfl
@[simp] theorem setMode_sys (s : State) (m : Nat) : (setMode s m).sys = s.sys := rfl
@[simp] theorem setMode_boot (s : State) (m : Nat) : (setMode s m).boot = s.boot := rfl
@[simp] theorem setMode_mon (s : State) (m : Nat) : (setMode s m).mon = s.mon := rfl
@[simp] theorem setMode_hif (s : State) (m : Nat) : (setMode s m).hif = s.hif := rfl
@[simp] theorem setMode_recd (s : State) (m : Nat) : (setMode s m).recd = s.recd := rfl
@[simp] theorem setMode_sch (s : State) (m : Nat) : (setMode s m).sch = s.sch := rfl
@[simp] theorem setMode_map (s : State) (m : Nat) : (setMode s m).map = s.map := rfl
@[simp] theorem setMode_act (s : State) (m : Nat) : (setMode s m).act = s.act := rfl
@[simp] theorem setMode_drv (s : State) (m : Nat) : (setMode s m).drv = s.drv := rfl
@[simp] theorem setMode_fjl (s : State) (m : Nat) : (setMode s m).fjl = s.fjl := rfl
@[simp] theorem setMode_pwm (s : State) (m : Nat) : (setMode s m).pwm = s.pwm := rfl
@[simp] theorem setMode_cle (s : State) (m : Nat) : (setMode s m).cle = s.cle := rfl
@[simp] theorem setMode_enc (s : State) (m : Nat) : (setMode s m).enc = s.enc := rfl
@[simp] theorem setMode_gns (s : State) (m : Nat) : (setMode s m).gns = s.gns := rfl
@[simp] theorem setMode_tim (s : State) (m : Nat) : (setMode s m).tim = s.tim := rfl
@[simp] theorem setMode_eth (s : State) (m : Nat) : (setMode s m).eth = s.eth := rfl
@[simp] theorem setMode_can (s : State) (m : Nat) : (setMode s m).can = s.can := rfl
@[simp] theorem setMode_now (s : State) (m : Nat) : (setMode s m).now = s.now := rfl
@[simp] theorem setMode_free (s : State) (m : Nat) : (setMode s m).free = s.free := rfl
@[simp] theorem setMode_pending (s : State) (m : Nat) : (setMode s m).pending = s.pending := rfl

end Sys2Proof.Machine
end

