-- ==== Sys2Proof/Tests/Slice0.lean ====
section
/-!
SUPPORT. Sys2Proof/Tests/Slice0.lean: tests of the model. A theorem witness_X meets the hypotheses of each clause of the
statement X (or of the part X of a statement) together, at the largest instance the part has where there is a choice.
-/
namespace Sys2Proof.Tests

open Sys2Proof Sys2Proof.Machine

set_option maxRecDepth 4000
set_option Elab.async false

theorem test_idle : step State.reset = .next State.reset := rfl

/-! ### Values that the spec works out, and published check values -/

/-- Chapter 3, the second worked example, row 4: 0.15 mm short at 1.2 m/s falls due at slot 25,000. -/
theorem test_example_armed_slot :
    findSlot 17 { s := 9927850 * umScale, v := 1200000, a := 0 } (40000 * unitScale) false (60000 * 2000) 0 50000 = 25000 := by decide +kernel

/-- The same example, row 1: a channel that stops within the look-ahead is predicted to stand at 9,999.0 mm. -/
theorem test_example_stopping_point : qAt { s := 9997000 * umScale, v := 100000, a := -2500000 } (60000 * 2000) = 9999000 * umScale := by decide +kernel

/-- Chapter 5's example: the filter moves 3,840 units by a measurement of 3,852 to 3,840.75, shown as 3,841; 4,500 is rejected. -/
def wLearned : State :=
  tput (setF (setF (setF (setB State.reset ACT_CTRL_EN true) ACT_GATE_ABS 200) ACT_GATE_REL 32) ACT_LRN_W 16) .dly 12
    (leBytes 4 0 ++ leBytes 4 (3840 + 3 * 2 ^ 17 + 4095 * 2 ^ 20) ++ List.replicate 24 0#8)
def wMeasOff (m : Nat) : Meas := { ch := 12, dir := 1, m := m, node := false, modul := false }
theorem test_example_filter :
    dHat (filterMeas wLearned (wMeasOff 3852)) 12 1 = 3840 * 256 + 192 ∧ dlyEst (filterMeas wLearned (wMeasOff 3852)) 12 1 = 3841 ∧
    dHat (filterMeas (filterMeas wLearned (wMeasOff 3852)) (wMeasOff 4500)) 12 1 = 3840 * 256 + 192 := by decide +kernel

/-- Chapter 19's example: DRV_CH_PWM of L13. -/
theorem test_example_index : DRV_CH_PWM 13 = 0x116B ∧ rd State.reset 0x116B = 0x14000464#32 := by decide +kernel

/-- "123456789", whose CRC-16, CRC-32 and CRC-24Q are published. -/
def wDigits : List Byte := [0x31#8, 0x32#8, 0x33#8, 0x34#8, 0x35#8, 0x36#8, 0x37#8, 0x38#8, 0x39#8]
theorem test_crcs : crc16 wDigits = 0x29B1#16 ∧ crc32 wDigits = 0xCBF43926#32 ∧ crc24q wDigits = 0xCDE703 := by decide +kernel

/-- The digest of "abc" that FIPS 180-4 publishes. -/
theorem test_sha256_abc : (sha256 [0x61#8, 0x62#8, 0x63#8]).take 4 = [0xBA#8, 0x78#8, 0x16#8, 0xBF#8] := by decide +kernel

theorem witness_StepRunsTheFrontCommand :
    ({ State.reset with pending := [.edgeFire 31] } : State).pending = Instr.edgeFire 31 :: [] ∧ State.reset.pending = [] := ⟨rfl, rfl⟩
theorem witness_CommandsAnswerWhereAdmitted : admits (.edgeFire 31) State.reset = true ∧ admits (.edgeFire 32) State.reset = false := by decide +kernel
theorem witness_EveryStepKeepsTheCanonicalForm : State.reset.canonical = true ∧ step State.reset = .next State.reset := ⟨by decide +kernel, rfl⟩


/-- The device without VIO. -/
def wDead : State :=
  { State.reset with sys := { State.reset.sys with inReset := true, sources := 4 }, mon := { State.reset.mon with borMark := some (3, 0#32) } }
theorem witness_OutputsStandInReset :
    State.reset.sys.running = false ∧ unpowered State.reset = false ∧ wDead.sys.running = false ∧ unpowered wDead = true := by decide +kernel

/-- The firmware serves, the part is enabled, and slots 0 to 3 are attached: slot `h` with role `h`. -/
def wUp : State :=
  let s := [0, 1, 2, 3].foldl (fun s h => setF (setF s (HIF_H_STAT_ATT h) 1) (HIF_H_STAT_ROLE h) h) (setF State.reset SYS_BOOT_MODE 0)
  { s with sys := { s.sys with phase := .up, running := true, enA := true, enBN := false } }

/-- Slot 3 holds the lease. -/
def own (s : State) (kind n : Nat) : State := setHolder s kind n (some 3)

/-- A frame waits in the ring of slot `h`. -/
def frame (s : State) (h code : Nat) (p : List Byte) : State :=
  modSlot s h fun x => { x with ring := [{ code := code, ordered := false, htag := 7, payload := p, seq := 0, reject := 0 }] }

def wReadUnknown : State := frame wUp 3 0x08 (leBytes 2 1 ++ [0#8, 0#8] ++ leBytes 2 0x3000 ++ leBytes 2 1)
def wItem (i : Nat) (v : Word) : WItem := { idx := i, mask := 0xFFFFFFFF#32, value := v, resv := false }
def wItemFrame (s : State) (i v : Nat) : State := frame s 3 0x09 (leBytes 2 1 ++ [0#8, 0#8] ++ leBytes 2 i ++ [0#8, 0#8] ++ leBytes 4 0xFFFFFFFF ++ leBytes 4 v)
def wItemUnknown : WItem := wItem 0x3000 0x5#32
def wWriteUnknown : State := wItemFrame wUp 0x3000 5
def wResCh : Res := (kCh, 511)
def wResImpl : Res := (kImpl, 0)
def wItemOn : WItem := wItem (stateWord kCh 511) 3#32
def wItemInherit : WItem := wItem SYS_IMPL_STATE 7#32
def wStateLess : State := wItemFrame wUp (stateWord kCh 511) 3
def wStateOk : State := wItemFrame (setHolder wUp kCh 511 (some 3)) (stateWord kCh 511) 3
def wStateBad : State := wItemFrame (setHolder wUp kImpl 0 (some 3)) SYS_IMPL_STATE 7
def wGeoT : TableId := .geo
def wGeoBad : State := frame wUp 3 0x0B ([0x47#8, 0x45#8, 0x4F#8, 0#8] ++ leBytes 4 511 ++ leBytes 2 1 ++ [0#8, 0#8] ++ leBytes 4 200001 ++ List.replicate 12 0#8)

/-- Channel 511 is in use, held by slot 3 and requested AUTO; the scheduler runs with no late window. -/
def wSchOn : State :=
  setF (setF (setF (setF (setF (setF (own (tput wUp .sec 511 (leBytes 8 0x80)) kCh 511) SCH_CTRL_EN 1) (SCH_CH_STATE_REQ 511) rqAuto) (SYS_SEC_STATE_REQ 0) rqAuto) (SYS_ZON_STATE_REQ 0) rqAuto)
    SYS_IMPL_STATE_REQ rqAuto) SCH_LATE_WIN_VAL 0

/-- An event of channel 511 whose position the channel has passed, without and with RETAIN. -/
def wSchMoves : State := { wSchOn with kin := { wSchOn.kin with ch := [(511, { ChKin.zero with sdot := 2 ^ 42 })] } }
def wPassOf (w0 : Nat) : State := frame wSchMoves 3 0x10 (leBytes 2 1 ++ leBytes 2 0 ++ leBytes 4 w0 ++ leBytes 5 (unsigned 40 (-30000)) ++ leBytes 1 0 ++ leBytes 2 0 ++ leBytes 4 0)
def wPassed : State := wPassOf 511
def wPassedKept : State := wPassOf (511 + 2 ^ 14)
def wItemCell : WItem := wItem MAP_CTRL 4#32
def wCell : State := wItemFrame (setF wUp MAP_STAT_TILES 1) MAP_CTRL 4
def wFreezeOf (s : State) (op : Byte) : State := frame s 3 0x31 [op, 0#8, 0#8, 0#8]
def wFreezeOn : State := wFreezeOf wUp 1
def wFreezeOff : State := wFreezeOf { wUp with recd := { wUp.recd with freeze := some 3 } } 0
def wFreezeOther : State := wFreezeOf { wUp with recd := { wUp.recd with freeze := some 2 } } 0
def wFreezeBad : State := wFreezeOf wUp 2
def wAsk : State := frame { wUp with recd := { wUp.recd with key := some [1#8] } } 3 0x32 []
def wAskNone : State := frame wUp 3 0x32 []
def wNonceBytes : List Byte := [1#8, 2#8]
def wNonced : State := { wUp with recd := { wUp.recd with nonce := some (3, wNonceBytes), nonceAt := 5 } }
def wClearAsk : State := frame wUp 3 0x33 (List.replicate 32 0#8)
def wNonceOld : State := { wNonced with tim := { wNonced.tim with base := 1000000000000 } }

theorem witness_RuleOfUnknownIndices :
    (starts wReadUnknown 3 0x08 ∧ leAt (req wReadUnknown 3) 0 2 = 1 ∧ leAt (req wReadUnknown 3) 6 2 = 1 ∧ leAt (req wReadUnknown 3) 2 2 < 2 ∧
      regAssigned (leAt (req wReadUnknown 3) 4 2) = false) ∧
    (starts wWriteUnknown 3 0x09 ∧ writesOne wWriteUnknown 3 = some wItemUnknown ∧ regAssigned wItemUnknown.idx = false) := by
  unfold starts
  refine ⟨?_, ?_⟩ <;> decide +kernel

theorem witness_RuleOfStateWords :
    (starts wStateLess 3 0x09 ∧ writesOne wStateLess 3 = some wItemOn ∧ wItemOn.resv = false ∧ stateRes wItemOn.idx = some wResCh ∧ wItemOn.mask &&&
      7#32 ≠ 0 ∧ holds wStateLess 3 wResCh.1 wResCh.2 = false) ∧
    (starts wStateBad 3 0x09 ∧ writesOne wStateBad 3 = some wItemInherit ∧ wItemInherit.resv = false ∧ stateRes wItemInherit.idx = some wResImpl ∧
      wItemInherit.mask &&& 7#32 ≠ 0 ∧ holds wStateBad 3 wResImpl.1 wResImpl.2 = true ∧ ¬ reqPermitted wResImpl (newReq wStateBad wItemInherit)) ∧
    (starts wStateOk 3 0x09 ∧ writesOne wStateOk 3 = some wItemOn ∧ wItemOn.resv = false ∧ stateRes wItemOn.idx = some wResCh ∧ wItemOn.mask &&& 7#32
      ≠ 0 ∧ holds wStateOk 3 wResCh.1 wResCh.2 = true ∧ reqPermitted wResCh (newReq wStateOk wItemOn)) := by
  unfold starts reqPermitted
  refine ⟨?_, ?_, ?_⟩ <;> decide +kernel

theorem witness_RuleOfFrameTables :
    starts wGeoBad 3 0x0B ∧ reqTable (req wGeoBad 3) = some (.stored wGeoT) ∧ (wGeoT = .geo ∨ wGeoT = .zon) ∧ ownerOrService wGeoBad 3 = true ∧
      ((writeEntries wGeoT (req wGeoBad 3)).any fun e => !entryOk wGeoBad wGeoT e.1 e.2) = true := by
  unfold starts
  decide +kernel

theorem witness_RuleOfPassedPosts :
    (starts wPassed 3 0x10 ∧ roleOf wPassed 3 ≠ 2 ∧ leAt (req wPassed 3) 0 2 = 1 ∧ leAt (req wPassed 3) 2 2 = 0 ∧ postRefusal wPassed 3 (postDesc 3
      (((req wPassed 3).drop 4).take 16)) = none ∧ passedNow wPassed (resolveDesc wPassed (postDesc 3 (((req wPassed 3).drop 4).take 16))) = true ∧
      (resolveDesc wPassed (postDesc 3 (((req wPassed 3).drop 4).take 16))).retain = false) ∧
    (starts wPassedKept 3 0x10 ∧ roleOf wPassedKept 3 ≠ 2 ∧ leAt (req wPassedKept 3) 0 2 = 1 ∧ leAt (req wPassedKept 3) 2 2 = 0 ∧ postRefusal
      wPassedKept 3 (postDesc 3 (((req wPassedKept 3).drop 4).take 16)) = none ∧ passedNow wPassedKept (resolveDesc wPassedKept (postDesc 3 (((req
      wPassedKept 3).drop 4).take 16))) = true ∧ (resolveDesc wPassedKept (postDesc 3 (((req wPassedKept 3).drop 4).take 16))).retain = true ∧
      mayAllocate wPassedKept (resolveDesc wPassedKept (postDesc 3 (((req wPassedKept 3).drop 4).take 16))) = true ∧ longestFree wPassedKept = some
      ((longestFree wPassedKept).get (by decide +kernel))) := by
  unfold starts
  refine ⟨?_, ?_⟩ <;> decide +kernel

theorem witness_RuleOfCellSize :
    starts wCell 3 0x09 ∧ ownerOrService wCell 3 = true ∧ writesOne wCell 3 = some wItemCell ∧ wItemCell.resv = false ∧ wItemCell.idx = MAP_CTRL ∧
      bitsOf ((rd wCell MAP_CTRL &&& ~~~ wItemCell.mask) ||| (wItemCell.value &&& wItemCell.mask)) 2 1 ≠ getF wCell MAP_CTRL_CELL ∧ (flag wCell
      MAP_CTRL_EN = true ∨ getF wCell MAP_STAT_TILES ≠ 0 ∨ getF wCell MAP_STAT_DBLKS ≠ 0) := by
  unfold starts
  decide +kernel

theorem witness_RuleOfRingChannels :
    1 < 2 ∧ 1 ≤ 30 ∧ 30 ≤ 30 ∧ 7 < 8 := by
  decide +kernel

theorem witness_RuleOfFreezes :
    (starts wFreezeOn 3 0x31 ∧ ownerOrService wFreezeOn 3 = true ∧ leAt (req wFreezeOn 3) 1 3 = 0 ∧ inService wFreezeOn = true ∧ leAt (req wFreezeOn
      3) 0 1 = 1 ∧ wFreezeOn.recd.freeze = none) ∧
    (starts wFreezeOff 3 0x31 ∧ ownerOrService wFreezeOff 3 = true ∧ leAt (req wFreezeOff 3) 1 3 = 0 ∧ inService wFreezeOff = true ∧ leAt (req
      wFreezeOff 3) 0 1 = 0 ∧ wFreezeOff.recd.freeze = some 3) ∧
    (starts wFreezeOther 3 0x31 ∧ ownerOrService wFreezeOther 3 = true ∧ leAt (req wFreezeOther 3) 1 3 = 0 ∧ inService wFreezeOther = true ∧ leAt (req
      wFreezeOther 3) 0 1 = 0 ∧ wFreezeOther.recd.freeze ≠ some 3) ∧
    (starts wFreezeBad 3 0x31 ∧ ownerOrService wFreezeBad 3 = true ∧ leAt (req wFreezeBad 3) 1 3 = 0 ∧ inService wFreezeBad = true ∧ 1 < leAt (req
      wFreezeBad 3) 0 1) := by
  unfold starts
  refine ⟨?_, ?_, ?_, ?_⟩ <;> decide +kernel

theorem witness_RuleOfChallenges :
    (starts wAsk 3 0x32 ∧ ownerOrService wAsk 3 = true ∧ inService wAsk = true ∧ wAsk.recd.key.isSome = true ∧ wAsk.recd.lock = false) ∧
    (starts wAskNone 3 0x32 ∧ ownerOrService wAskNone 3 = true ∧ inService wAskNone = true ∧ (wAskNone.recd.key = none ∨ wAskNone.recd.lock = true)) ∧
    (wNonced.recd.nonce = some (3, wNonceBytes)) ∧
    (starts wClearAsk 3 0x33 ∧ ownerOrService wClearAsk 3 = true ∧ inService wClearAsk = true) ∧
    (inThisStep wNonceOld 1023 = true ∧ wNonceOld.recd.nonceAt + 60 * ticksPerSec ≤ absTick wNonceOld 1023) := by
  unfold starts
  refine ⟨?_, ?_, ?_, ?_, ?_⟩ <;> decide +kernel

theorem witness_RuleOfMonitorLimits :
    (6 < 7) ∧
    (8 ≤ 15 ∧ 15 < 16) := by
  refine ⟨?_, ?_⟩ <;> decide +kernel

/-- Channel 31 is in use for peak and hold, its group 7 is on. -/
def wDrv : State :=
  setF (setF (setF (setF (setF (setF wUp DRV_CTRL_EN 1) (DRV_GRP_CTRL_EN 7) 1) (DRV_GRP_STAT_HS_ON 7) 1) (DRV_CH_MODE_MODE 31) 1)
    (DRV_CH_STAT_FORCED 31) 0) (DRV_CH_MODE_DIAG_OFF 31) 1

def wEdge : Edge := { ch := 31, kind := 0, tick := 5, slot := none, rate := 0, delay := 0, origin := 1 }
def wEdgeOff : Edge := { wEdge with kind := 1 }
def wEdgeRate : Edge := { wEdge with kind := 2, rate := 300 }

def wDrvEdge : State := { wDrv with sch := { wDrv.sch with edges := [wEdge] } }
def wDrvOn : State := modDrvCh wDrv 31 fun d => { d with isOpen := true, coil := true, rise := some 900, vbase := 65536 * 500 }
def wDrvFall : State := modDrvCh wDrv 31 fun d => { d with isOpen := true, coil := true, fall := some 900 }
def wDrvOff : State := { wDrvOn with sch := { wDrvOn.sch with edges := [wEdgeOff] } }
def wDrvRate : State := { setF (setF wDrv (DRV_CH_MODE_MODE 31) 3) (DRV_CH_RMAP_GAIN 31) 7 with sch := { wDrv.sch with edges := [wEdgeRate] } }
def wDrvPeak : State := modDrvGrp wDrv 7 fun g => { g with peak := some (31, 1, 2) }
def wDrvSensed : State := setF (modDrvCh wDrv 31 fun d => { d with sensed := true }) (DRV_CH_STAT_STATE 31) 6
def wWin : ActWin :=
  { dir := 0, te := 0, start := 400, stop := 12000, slot := none, trail := false, modul := false, taps := 1, thr := 50, knee := none, masked := false }

/-- The current of a coil, sampled each microsecond: flat, and with a dip of 98 mA whose lowest point is sample 30. -/
def wFlat : List Nat := List.replicate 131 1000
def wDip : List Nat := (List.range 131).map fun i => if 20 ≤ i ∧ i ≤ 40 then 950 + 5 * (i - 30) + 5 * (30 - i) else 1000
def wDrvWin : State := modDrvGrp (setWin wDrvOn 31 (some wWin)) 7 fun g => { g with peak := some (31, 0, 5000) }
def wSums : List DrvSum := [{ kind := 0, n := 31, v := 5 }]
def wChop : List (Nat × Nat) := [(31, 7)]

def wDrvPulse : State := modDrvCh (setF (setF wDrvOn (DRV_CH_MODE_MODE 31) 2) (DRV_CH_SET_VAL 31) 500) 31 fun d => { d with val := 500, freq := 100 }

/-- A dip that is symmetrical about sample 30 places the motion there, 30 µs after the edge, and is reported 50 µs later (R149, R150). -/
theorem test_dip_place : (reportDue wWin 0 wDip).map (fun f => (f.tm, delayUnits (f.tm - wWin.te))) = some (6000, 3) ∧ reportDue wWin 0 (wDip.take 80) = none := by
  decide +kernel

theorem witness_ChannelTripSwitchesOff :
    (31 < 32 ∧ (drvCh wDrvOn (leadCh wDrvOn 31)).coil = true) ∧
    (31 < 32 ∧ condOf wUp.drv.chCond 31 3 = false) := by
  refine ⟨?_, ?_⟩ <;> decide +kernel

theorem witness_GroupTripSwitchesOff :
    (31 < 32 ∧ flag wDrv (DRV_GRP_STAT_HS_ON (groupOf 31)) = true ∧ (∀ x ∈ groupChans (groupOf 31), (drvCh wDrv x).coil = false ∧ (drvCh wDrv
      x).sensed = false)) ∧
    (7 < 8 ∧ flag wDrv (DRV_GRP_STAT_HS_ON 7) = true) ∧
    (7 < 8 ∧ condOf wUp.drv.grpCond 7 3 = false) ∧
    (7 < 8 ∧ condOf wUp.drv.grpCond 7 0 = false) ∧
    (7 < 8 ∧ condOf wUp.drv.grpCond 7 1 = false) := by
  refine ⟨?_, ?_, ?_, ?_, ?_⟩ <;> decide +kernel

theorem witness_WarningsSetOnlyTheirFlag :
    (31 < 32) ∧
    (31 < 32 ∧ flag wDrv (DRV_CH_MODE_DIAG_OFF 31) = true ∧ flag wDrv (DRV_GRP_STAT_HS_ON (groupOf 31)) = true ∧ (drvCh wDrv (leadCh wDrv 31)).isOpen
      = false ∧ condOf wDrv.drv.grpCond (groupOf 31) 4 = false) := by
  refine ⟨?_, ?_⟩ <;> decide +kernel

theorem witness_ProtectionReleaseRestartsNothing :
    (31 < 32 ∧ 3 < 4) ∧
    (7 < 8 ∧ 4 < 5) := by
  refine ⟨?_, ?_⟩ <;> decide +kernel

theorem witness_EdgesReachThePin :
    (31 < 32 ∧ firstEdge wDrvEdge 31 = some wEdge ∧ wEdge.kind = 0 ∧ unconfigured wDrvEdge 31 = false ∧ protectedOff wDrvEdge 31 = false ∧
      openOrWaiting wDrvEdge 31 = false ∧ getF wDrvEdge (DRV_CH_MODE_MODE 31) = 1 ∧ (drvGrp wDrvEdge (groupOf 31)).peak = none ∧ (drvGrp wDrvEdge
      (groupOf 31)).queue = [] ∧ wDrvEdge.sch.edges = [wEdge]) ∧
    (31 < 32 ∧ firstEdge wDrvOff 31 = some wEdgeOff ∧ wEdgeOff.kind = 1 ∧ waitingOf wDrvOff 31 = none ∧ protectedOff wDrvOff 31 = false ∧ (drvCh
      wDrvOff 31).isOpen = true ∧ (drvGrp wDrvOff (groupOf 31)).peak = none) ∧
    (31 < 32 ∧ firstEdge wDrvRate 31 = some wEdgeRate ∧ 2 ≤ wEdgeRate.kind ∧ getF wDrvRate (DRV_CH_RMAP_GAIN 31) ≠ 0 ∧ 2 ≤ getF wDrvRate
      (DRV_CH_MODE_MODE 31)) := by
  refine ⟨?_, ?_, ?_⟩ <;> decide +kernel

theorem witness_PeakAndPulseEvents :
    (7 < 8 ∧ 31 < 32 ∧ (drvGrp wDrvPeak 7).peak = some (31, 1, 2) ∧ (drvGrp wDrvPeak 7).queue = [] ∧ paired wDrvPeak 31 = false) ∧
    (31 < 32 ∧ (drvCh wDrvPulse 31).isOpen = true ∧ (drvCh wDrvPulse 31).coil = true ∧ (drvCh wDrvPulse 31).rise = some 900 ∧ (drvCh wDrvPulse
      31).fall = none ∧ (drvGrp wDrvPulse (groupOf 31)).peak = none ∧ waitingOf wDrvPulse 31 = none ∧ noPulse wDrvPulse 31 = false ∧ staysOpen
      wDrvPulse 31 = false) ∧
    (31 < 32 ∧ (drvCh wDrvFall 31).isOpen = true ∧ (drvCh wDrvFall 31).coil = true ∧ (drvCh wDrvFall 31).fall = some (((drvCh wDrvFall 31).fall).get
      (by decide +kernel)) ∧ (∀ r ∈ (drvCh wDrvFall 31).rise, (((drvCh wDrvFall 31).fall).get (by decide +kernel)) + tminOf wDrvFall 31 ≤ r) ∧ (drvGrp
      wDrvFall (groupOf 31)).peak = none) ∧
    (31 < 32 ∧ (drvCh wDrvSensed 31).sensed = true ∧ getF wDrvSensed (DRV_CH_STAT_STATE 31) = 6 ∧ paired wDrvSensed 31 = false) ∧
    (31 < 32 ∧ winAt wDrvWin 31 = some wWin ∧ wWin.dir = 0 ∧ inPeak wDrvWin 31 1023 = true ∧ (∀ x ∈ wFlat, x < 4096) ∧ (∀ f ∈ tongsFind { wWin with
      stop := min wWin.stop 1023 } 200 wFlat, 1023 < f.seen)) ∧
    (31 < 32 ∧ winAt wDrvWin 31 = some wWin ∧ (∀ x ∈ wFlat, x < 4096) ∧ wWin.stop ≤ 200 + perUs * (wFlat.length - 1) ∧ tongsFind wWin 200 wFlat =
      none) ∧
    (31 < 32 ∧ (∀ x ∈ wDip, x < 4096) ∧ (windowsOf wDrvWin 31).head? = some wWin ∧ reportDue wWin 200 wDip = some ((reportDue wWin 200 wDip).get
      (by decide +kernel)) ∧ wWin.knee = none ∧ disturbed wDrvWin 31 ((reportDue wWin 200 wDip).get (by decide +kernel)).tm = false) := by
  refine ⟨?_, ?_, ?_, ?_, ?_, ?_, ?_⟩ <;> decide +kernel

theorem witness_KettleFollowsTheBudget :
    ((∀ x ∈ wSums, x.n < 32)) ∧
    (7 < 8 ∧ (∀ x ∈ wChop, groupOf x.1 = 7)) := by
  refine ⟨?_, ?_⟩ <;> decide +kernel

/-- The drivers are enabled, slot 3 holds channels 30 and 31. -/
def wDrvHost : State := own (own (setF (setF wUp DRV_CTRL_EN 1) (DRV_GRP_CTRL_EN 7) 1) kCh 31) kCh 30

theorem witness_DriverEnablesAndModes :
    (serves wUp 3 ∧ ownerOrService wUp 3 = true ∧ (true = false → energisedIn wUp drvChans = false) ∧ startsNow wUp 3 (putFlag DRV_CTRL_EN true)) ∧
    (serves wUp 3 ∧ 7 < 8 ∧ ownerOrService wUp 3 = true ∧ (true = false → energisedIn wUp (groupChans 7) = false) ∧ inRange 2 25 (bitsOf (rd wUp
      (DRV_GRP_CTRL 7)) 12 8) = true ∧ inRange 45 160 (bitsOf (rd wUp (DRV_GRP_CTRL 7)) 23 16) = true ∧ startsNow wUp 3 (putFlag (DRV_GRP_CTRL_EN 7)
      true)) ∧
    (serves wDrvHost 3 ∧ 31 < 32 ∧ 3 < 4 ∧ holds wDrvHost 3 kCh (leadCh wDrvHost 31) = true ∧ modeIdle wDrvHost 31 = true ∧ (31 % 2 = 1 → flag
      wDrvHost (DRV_CH_MODE_PAIR 31) = false) ∧ startsNow wDrvHost 3 (putField (DRV_CH_MODE_MODE 31) 3)) ∧
    (serves wDrvHost 3 ∧ 30 < 32 ∧ 30 % 2 = 0 ∧ holds wDrvHost 3 kCh (leadCh wDrvHost 30) = true ∧ modeIdle wDrvHost 30 = true ∧ (true = true → chUsed
      wDrvHost (30 + 1) = false) ∧ getF wDrvHost (DRV_CH_MODE_MODE (30 + 1)) = 0 ∧ startsNow wDrvHost 3 (putFlag (DRV_CH_MODE_PAIR 30) true)) ∧
    (serves wUp 3 ∧ 31 < 32 ∧ 31 % 2 = 1 ∧ startsNow wUp 3 (putFlag (DRV_CH_MODE_PAIR 31) true)) := by
  unfold startsNow serves
  refine ⟨?_, ?_, ?_, ?_, ?_⟩ <;> decide +kernel

theorem witness_DriverResumeAndFlagClear :
    (serves wDrvHost 3 ∧ 31 < 32 ∧ holds wDrvHost 3 kCh (leadCh wDrvHost 31) = true ∧ (31 % 2 = 1 → flag wDrvHost (DRV_CH_MODE_PAIR 31) = false) ∧
      enablesOk wDrvHost = true ∧ wDrvHost.sys.tripped = false ∧ startsNow wDrvHost 3 (putFlag (DRV_CH_MODE_RESUME 31) true)) ∧
    (serves wUp 3 ∧ enablesOk wUp = true ∧ wUp.sys.tripped = false ∧ startsNow wUp 3 (putFlag DRV_CTRL_RESUME_ALL true)) ∧
    (serves wDrvHost 3 ∧ 31 < 32 ∧ holds wDrvHost 3 kCh (leadCh wDrvHost 31) = true ∧ startsNow wDrvHost 3 [item (DRV_CH_FLT 31) 0xFFFFFFFF#32
      0xFFFFFFFF#32]) ∧
    (serves wUp 3 ∧ 7 < 8 ∧ ownerOrService wUp 3 = true ∧ startsNow wUp 3 [item (DRV_GRP_FLT 7) 0xFFFFFFFF#32 0xFFFFFFFF#32]) := by
  unfold startsNow serves
  refine ⟨?_, ?_, ?_, ?_⟩ <;> decide +kernel

def wBack : RingBack := { returned := true, loopNs := 9000, p0Los := false, p1Los := true, cyc := [], nodes := [], svc := [], probes := [] }
def wTag : RingTag := { busy := true, slot := none, k := 0, op := 0, tx := 0, rsp := 2, free := some 3, cxl := false }

/-- Ring 1 enumerates. -/
def wEnum : State := setF wUp (FJL_STAT_STATE 1) 1

/-- Ring 1 runs, node 29 is found, silent, and owns a tag; slot 3 holds its last channel, which is in use. -/
def wRing : State :=
  modNode (own (tput (setF (setF wUp (FJL_STAT_STATE 1) 3) (FJL_CTRL_NNODES 1) 30) .sec 511 (leBytes 8 0x80)) kCh 511) 1 29 fun x =>
    { x with found := true, silent := some 4, tags := [(14, some wTag)] }
def wRingSel : State := winSet wRing 3 (FJL_CH_SEL 1) 511#32

/-- Ring 1 is broken, and its return is whole again. -/
def wBroken : State := setF (setF wRing (FJL_STAT_STATE 1) 4) (FJL_STAT_CONT 1) 1
def wTagDue : State := modRing wRing 1 fun x => { x with seq := 1 }

/-- A cycle is 1,000 characters long (R200). -/
theorem test_cycle_length : (frameChars { RingTx.reset with svc := svcBlock none } 1 0).length = 1000 := by decide +kernel

theorem witness_RingCyclesAndBreaks :
    (1 < 2 ∧ (∀ x ∈ wBack.nodes, x.node < 30) ∧ (∀ x ∈ wBack.probes, x.port < 2) ∧ ringState wUp 1 = 0) ∧
    (1 < 2 ∧ (∀ x ∈ wBack.nodes, x.node < 30) ∧ (∀ x ∈ wBack.probes, x.port < 2) ∧ ringState wEnum 1 ≠ 0) ∧
    (1 < 2 ∧ (∀ x ∈ wBack.nodes, x.node < 30) ∧ (∀ x ∈ wBack.probes, x.port < 2) ∧ ringState wEnum 1 = 1 ∧ (ringAt wEnum 1).enumStep = 0) ∧
    (1 < 2 ∧ 30 ≤ 30 ∧ ringState wRing 1 = 3) ∧
    (1 < 2 ∧ 29 < 30 ∧ ringRuns wRing 1 = true ∧ 4 ≤ silentCycles wRing 1 29) ∧
    (1 < 2 ∧ 29 < 30 ∧ 14 < 15 ∧ tagAt wTagDue 1 29 14 = some wTag ∧ wTag.free = some 3 ∧ 3 ≤ cycleNs wTagDue 1) := by
  refine ⟨?_, ?_, ?_, ?_, ?_, ?_⟩ <;> decide +kernel

theorem witness_RingControlWrites :
    (serves wUp 3 ∧ 1 < 2 ∧ ownerOrService wUp 3 = true ∧ getF wUp (FJL_CTRL_NNODES 1) ≤ 30 ∧ 2 ≤ getF wUp (FJL_CTRL_WD 1) ∧ (false = true → getF wUp
      (FJL_CTRL_NNODES 1) ≠ 0) ∧ startsNow wUp 3 (putFlag (FJL_CTRL_EN 1) false)) ∧
    (serves wBroken 3 ∧ 1 < 2 ∧ ownerOrService wBroken 3 = true ∧ getF wBroken (FJL_CTRL_NNODES 1) ≤ 30 ∧ 2 ≤ getF wBroken (FJL_CTRL_WD 1) ∧ ringState
      wBroken 1 = 4 ∧ flag wBroken (FJL_STAT_CONT 1) = true ∧ startsNow wBroken 3 (putFlag (FJL_CTRL_HEAL 1) true)) ∧
    (serves wUp 3 ∧ 1 < 2 ∧ ownerOrService wUp 3 = true ∧ getF wUp (FJL_CTRL_NNODES 1) ≤ 30 ∧ 2 ≤ getF wUp (FJL_CTRL_WD 1) ∧ startsNow wUp 3 (putFlag
      (FJL_CTRL_SAFE 1) true)) ∧
    (serves wUp 3 ∧ 1 < 2 ∧ getF wUp (FJL_CTRL_NNODES 1) ≤ 30 ∧ 2 ≤ getF wUp (FJL_CTRL_WD 1) ∧ enablesOk wUp = true ∧ wUp.sys.tripped = false ∧ flag
      wUp (FJL_CTRL_SAFE 1) = false ∧ startsNow wUp 3 (putFlag (FJL_CTRL_RESUME_ALL 1) true)) ∧
    (serves wUp 3 ∧ 1 < 2 ∧ 29 < 30 ∧ roleOf wUp 3 ≠ 2 ∧ holdsNode wUp 3 1 29 = true ∧ enablesOk wUp = true ∧ wUp.sys.tripped = false ∧ flag wUp
      (FJL_CTRL_SAFE 1) = false ∧ startsNow wUp 3 (putFlag (FJL_NODE_CTRL_RESUME 1 29) true)) ∧
    (serves wRing 3 ∧ 1 < 2 ∧ 29 < 30 ∧ roleOf wRing 3 ≠ 2 ∧ holdsNode wRing 3 1 29 = true ∧ (nodeAt wRing 1 29).found = true ∧ startsNow wRing 3
      (putFlag (FJL_NODE_CTRL_CLR_FLT 1 29) true)) ∧
    (serves wRingSel 3 ∧ 1 < 2 ∧ holds wRingSel 3 kCh (ringSel wRingSel 3 (FJL_CH_APPLY 1)) = true ∧ applyOk wRingSel (ringSel wRingSel 3
      (FJL_CH_APPLY 1)) = true ∧ startsNow wRingSel 3 (putFlag (FJL_CH_APPLY_GO 1) true)) := by
  unfold startsNow serves
  refine ⟨?_, ?_, ?_, ?_, ?_, ?_, ?_⟩ <;> decide +kernel

def wPins : List TripPin := []
def wTcs : List TcValue := []

/-- Channel 511 differs for longer than its grace, slot 1023 awaits its confirmation. -/
def wSup : State :=
  let s := modSlotAt wUp 1023 fun e => { e with state := stIssued }
  setF { s with now := 5000, sys := { s.sys with differ := [(511, 100000)] } } KIN_CTRL_EN 1
def wSupRetain : State := modSlotAt wSup 1023 fun e => { e with state := stDone, d := { e.d with retain := true } }
def wStopped : State := { wUp with sys := { wUp.sys with running := false, enBN := true } }
def wStill : State := { wSup with kin := { wSup.kin with watch := { wSup.kin.watch with still := 100000, drDist := 1000000000, drSteps := 10000000 } } }
def wDr : State := setF wStill KIN_STAT_CLASS 7
def wHencBad : State := setF (setF wSup KIN_CTRL_MODEL 1) KIN_CTRL_HITCH_SRC 0
def wHencBack : State :=
  { setF (setF (setF (setF wHencBad KIN_STAT_HENC_FLT 1) (ENC_PT_STAT_STATE 0) 2) (ENC_PT_ANG_ANGV 0) 1) (ENC_PT_AGE_POS 0) 0 with
    kin := { wHencBad.kin with watch := { wHencBad.kin.watch with hencGood := 400 } } }

theorem witness_StepBoundaryCounts :
    (wPins.all tripPinOk = true ∧ wTcs.all tcOk = true ∧ wUp.sys.running = true) ∧
    (wPins.all tripPinOk = true ∧ wTcs.all tcOk = true ∧ wStopped.sys.running = false) := by
  refine ⟨?_, ?_⟩ <;> decide +kernel

theorem witness_EnableLossForcesOutputsOff :
    ((!true || true) = true ∧ inThisStep wUp 1023 = true ∧ enablesOk wUp = true ∧ wUp.sys.running = true) ∧
    ((!true || true) = true ∧ inThisStep wStopped 1023 = true ∧ (enablesOk wStopped = false ∨ wStopped.sys.running = false)) := by
  refine ⟨?_, ?_⟩ <;> decide +kernel

theorem witness_SupervisionTripHoldsTheProcessors :
    (inThisStep wUp 1023 = true ∧ processorsRun wUp = true) ∧
    (inThisStep wUp 1023 = true ∧ wUp.sys.phase = .up) := by
  refine ⟨?_, ?_⟩ <;> decide +kernel

theorem witness_StateWordAndSlotTimeouts :
    (511 < 512 ∧ mismatchDue wSup 511 = true ∧ flag wSup (SCH_CH_STATE_MISMATCH 511) = false) ∧
    (1023 < 1024 ∧ confirmDue wSup (slotAt wSup 1023) = true ∧ (slotAt wSup 1023).f.blocked = false ∧ (slotAt wSup 1023).d.action ≠ 2) ∧
    (1023 < 1024 ∧ (slotAt wSupRetain 1023).d.retain = true ∧ retainDue wSupRetain (slotAt wSupRetain 1023) = true) := by
  refine ⟨?_, ?_, ?_⟩ <;> decide +kernel

theorem witness_MotionSourcesAndLimits :
    (flag wSup KIN_CTRL_EN = true ∧ gnssHere wSup = false) ∧
    (flag wStill KIN_CTRL_EN = true ∧ stillDue wStill = true) ∧
    (flag wDr KIN_CTRL_EN = true ∧ limitPassed wDr (getF wDr KIN_STAT_CLASS) = true) ∧
    (flag wHencBad KIN_CTRL_EN = true ∧ hencUsed wHencBad = true ∧ flag wHencBad KIN_STAT_HENC_FLT = false ∧ hencGoodNow wHencBad = false) ∧
    (flag wHencBack KIN_CTRL_EN = true ∧ hencUsed wHencBack = true ∧ flag wHencBack KIN_STAT_HENC_FLT = true ∧ hencGoodNow wHencBack = true ∧ 400 ≤
      wHencBack.kin.watch.hencGood) := by
  refine ⟨?_, ?_, ?_, ?_, ?_⟩ <;> decide +kernel

def wHo : State := setF (setF wUp (TIM_TB_STAT_VALID 0) 1) TIM_LEAP_NEXT_PEND 1
def late (s : State) : State := { s with tim := { s.tim with base := 1000000000000 } }
def wHoLate : State := late wHo
def wHoIn : State := setF wHoLate (TIM_TB_STAT_HOLDOVER 0) 1
def wLeap : State := modTb (setF wHo TIM_LEAP_AT_SEC 0) 3 fun b => { b with pend := some 1000, slew := 0 }
def wPps : State := setF (setF wHo (TIM_PPS_CFG_EN 1) 1) (TIM_PPS_CFG_TB 1) 3
def wPpsHigh : State := modPps wPps 1 fun x => { x with stop := some 0 }
def wAdj : BitVec 64 := 0xFFFFFFFFFFFFFFFF#64

/-- Both line ports have their link. -/
def wEth : State := setF (setF (setF (setF (setF wUp ETH_CTRL_EN 1) (ETH_PT_STAT_LINK 0) 1) (ETH_PT_STAT_LINK 1) 1) ETH_BYP_CTRL_AUTO_INS 1) ETH_BYP_CTRL_AUTO_BYP 1
def wEthIns : State := setF (setF (setF wEth ETH_BYP_STAT_STATE byInserting) ETH_BYP_STAT_SENSE 1) ETH_BYP_STAT_COIL 1
def wEthIn : State := setF (setF wEthIns ETH_BYP_STAT_STATE byInserted) PTP_OC_STAT_STATE 4
def wEthLoss : State := { late wEthIn with eth := { wEthIn.eth with downAt := [(0, some 0)] } }
def wEthSlow : State := late (setF wEthIns (ETH_PT_STAT_LINK 1) 0)
def wRelayBad : State := late (setF (setF wEth ETH_BYP_STAT_COIL 1) ETH_BYP_STAT_SENSE 0)
def wRelayFlt : State := setF wEth ETH_BYP_STAT_FLT 1
def wPtp : State := setF (setF wEth PTP_GP_STAT_ROLE 1) PTP_OC_STAT_STATE 2
def wFrame : EthFrame := { port := 1, bytes := List.replicate 60 0xFF#8, fcsOk := true, rx := 0, tx := 0, full := false, ptp := none }
def wFrameBad : EthFrame := { wFrame with fcsOk := false }

theorem witness_TimeBaseAdjustments :
    (serves wUp 3 ∧ startsNow wUp 3 (putFlag ⟨TIM_CTRL, 0, 0⟩ true)) ∧
    (serves wUp 3 ∧ 3 < 4 ∧ (3 = 3 ∨ ownerOrService wUp 3 = true) ∧ ptpOwns wUp 3 = false ∧ tbSrc wUp 3 = 0 ∧ startsNow wUp 3 (tbItems 3 3 false
      wAdj)) ∧
    (serves wUp 3 ∧ 3 < 4 ∧ (3 = 3 ∨ ownerOrService wUp 3 = true) ∧ ptpOwns wUp 3 = false ∧ tbSrc wUp 3 = 0 ∧ startsNow wUp 3 (tbItems 3 1 false
      wAdj)) ∧
    (serves wUp 3 ∧ 3 < 4 ∧ (3 = 3 ∨ ownerOrService wUp 3 = true) ∧ ptpOwns wUp 3 = false ∧ tbSrc wUp 3 = 0 ∧ startsNow wUp 3 (tbItems 3 1 true wAdj)) ∧
    (serves wUp 3 ∧ 3 < 4 ∧ (3 = 3 ∨ ownerOrService wUp 3 = true) ∧ ptpOwns wUp 3 = false ∧ tbSrc wUp 3 = 0 ∧ startsNow wUp 3 (tbItems 3 2 false
      wAdj)) := by
  unfold startsNow serves
  refine ⟨?_, ?_, ?_, ?_, ?_⟩ <;> decide +kernel

theorem witness_TimeEventsAndHoldover :
    (inThisStep wHoLate 1023 = true ∧ flag wHoLate (TIM_TB_STAT_VALID 0) = true ∧ flag wHoLate (TIM_TB_STAT_HOLDOVER 0) = false ∧ wHoLate.tim.steered
      + ticksPerSec ≤ absTick wHoLate 1023) ∧
    (inThisStep wHoIn 1023 = true ∧ flag wHoIn (TIM_TB_STAT_HOLDOVER 0) = true ∧ flag wHoIn (TIM_TB_STAT_LIMIT 0) = false ∧ wHoIn.tim.hoAt + getF
      wHoIn TIM_HO_CFG_LIMIT * ticksPerSec ≤ absTick wHoIn 1023) ∧
    (inThisStep wHo 1023 = true ∧ flag wHo TIM_LEAP_NEXT_PEND = true ∧ (getF wHo TIM_LEAP_AT_SEC : Int) * 1000000000 * tbUnit ≤ tbAt wHo 0 (absTick
      wHo 1023)) ∧
    (inThisStep wLeap 0 = true ∧ 3 < 4 ∧ (timeBase wLeap 3).pend = some 1000 ∧ secondHere wLeap 3 (absTick wLeap 0) = true) ∧
    (inThisStep wUp 1023 = true ∧ 3 < 4 ∧ (timeBase wUp 3).slew = slewPart (timeBase wUp 3) (absTick wUp 1023 - (timeBase wUp 3).at_)) := by
  refine ⟨?_, ?_, ?_, ?_, ?_⟩ <;> decide +kernel

theorem witness_PulsesLeaveAndEnd :
    (1 < 2 ∧ inThisStep wPps 0 = true ∧ stepHere wPps (ppsTb wPps 1) (absTick wPps 0) = none ∧ (ppsOut wPps 1).notBefore = none ∧ ppsOff wPps 1 =
      false ∧ (nominal wPps 1 (tbAt wPps (ppsTb wPps 1) (absTick wPps 0)) (tbLastEdge wPps (ppsTb wPps 1) (absTick wPps 0))).isSome = true) ∧
    (1 < 2 ∧ inThisStep wPpsHigh 1023 = true ∧ (ppsOut wPpsHigh 1).stop = some (((ppsOut wPpsHigh 1).stop).get (by decide +kernel)) ∧ (((ppsOut
      wPpsHigh 1).stop).get (by decide +kernel)) ≤ absTick wPpsHigh 1023) := by
  refine ⟨?_, ?_⟩ <;> decide +kernel

theorem witness_RelayInsertionAndReturn :
    (serves wEth 3 ∧ ownerOrService wEth 3 = true ∧ getF wEth ETH_BYP_CTRL_LINK_T ≠ 0 ∧ getF wEth ETH_BYP_CTRL_LOSS_T ≠ 0 ∧ insertOk wEth = true ∧
      flag wEth ETH_BYP_CTRL_BYPASS = false ∧ startsNow wEth 3 (putFlag ETH_BYP_CTRL_INSERT true)) ∧
    (serves wEthIns 3 ∧ ownerOrService wEthIns 3 = true ∧ getF wEthIns ETH_BYP_CTRL_LINK_T ≠ 0 ∧ getF wEthIns ETH_BYP_CTRL_LOSS_T ≠ 0 ∧ flag wEthIns
      ETH_BYP_CTRL_INSERT = false ∧ (relayState wEthIns = byInserting ∨ relayState wEthIns = byInserted) ∧ startsNow wEthIns 3 (putFlag
      ETH_BYP_CTRL_BYPASS true)) ∧
    (serves wRelayFlt 3 ∧ ownerOrService wRelayFlt 3 = true ∧ flag wRelayFlt ETH_BYP_STAT_FLT = true ∧ flag wRelayFlt ETH_BYP_STAT_COIL = false ∧ flag
      wRelayFlt ETH_BYP_STAT_SENSE = false ∧ startsNow wRelayFlt 3 (putFlag ETH_BYP_STAT_FLT true)) ∧
    (flag wEth ETH_BYP_CTRL_AUTO_INS = true ∧ wEth.boot.nextMode ≠ 2 ∧ insertOk wEth = true) ∧
    (relayState wEthIns = byInserting ∧ flag wEthIns ETH_BYP_STAT_SENSE = true ∧ linkUp wEthIns 0 = true ∧ linkUp wEthIns 1 = true) ∧
    (flag wEthLoss ETH_BYP_CTRL_AUTO_BYP = true ∧ relayState wEthLoss = byInserted ∧ ([0, 1].any fun p => (sparseGet (fun _ => none)
      wEthLoss.eth.downAt p).any fun u => decide (u + getF wEthLoss ETH_BYP_CTRL_LOSS_T * per10ms ≤ absTick wEthLoss (nowTick wEthLoss))) = true) ∧
    (inThisStep wEthSlow 1023 = true ∧ relayState wEthSlow = byInserting ∧ flag wEthSlow ETH_BYP_STAT_SENSE = true ∧ (linkUp wEthSlow 0 && linkUp
      wEthSlow 1) = false ∧ wEthSlow.eth.senseAt + getF wEthSlow ETH_BYP_CTRL_LINK_T * per10ms ≤ absTick wEthSlow 1023) ∧
    (inThisStep wUp 1023 = true ∧ flag wUp ETH_BYP_STAT_SENSE ≠ true) ∧
    (inThisStep wRelayBad 1023 = true ∧ flag wRelayBad ETH_BYP_STAT_COIL ≠ flag wRelayBad ETH_BYP_STAT_SENSE ∧ relayState wRelayBad ≠ byFault ∧ max
      wRelayBad.eth.coilAt wRelayBad.eth.senseAt + 2 * per10ms ≤ absTick wRelayBad 1023) := by
  unfold startsNow serves
  refine ⟨?_, ?_, ?_, ?_, ?_, ?_, ?_, ?_, ?_⟩ <;> decide +kernel

theorem witness_SwitchAndPtp :
    (wFrameBad.port < 2 ∧ wFrameBad.rx ≤ wFrameBad.tx ∧ inThisStep wEth wFrameBad.rx = true ∧ flag wEth ETH_CTRL_EN = true ∧ (wFrameBad.fcsOk = false
      ∨ 1532 < wFrameBad.bytes.length)) ∧
    (wFrame.port < 2 ∧ wFrame.rx ≤ wFrame.tx ∧ inThisStep wEth wFrame.rx = true ∧ flag wEth ETH_CTRL_EN = true ∧ wFrame.fcsOk = true ∧ 60 ≤
      wFrame.bytes.length ∧ wFrame.bytes.length ≤ 1532 ∧ relayState wEth ≠ byInserted) ∧
    (wFrame.port < 2 ∧ wFrame.rx ≤ wFrame.tx ∧ inThisStep wEthIn wFrame.rx = true ∧ flag wEthIn ETH_CTRL_EN = true ∧ wFrame.fcsOk = true ∧ 60 ≤
      wFrame.bytes.length ∧ wFrame.bytes.length ≤ 1532 ∧ relayState wEthIn = byInserted ∧ wFrame.full = false ∧ beAt wFrame.bytes 0 6 ≠ ownMac wEthIn
      ∧ arpForUs wEthIn wFrame.bytes = false ∧ beAt wFrame.bytes 0 6 ≠ gptpMac ∧ isGroup (beAt wFrame.bytes 0 6) = true ∧ tcApplies wEthIn
      wFrame.bytes = none) ∧
    (inThisStep wUp 1023 = true ∧ 1 < 2 ∧ 7 < 8 ∧ (false = true → flag wUp ETH_CTRL_EN = true)) ∧
    (inThisStep wUp 1023 = true) ∧
    (inThisStep wPtp 1023 = true ∧ wPtp.sys.phase = .up ∧ getF wPtp PTP_GP_STAT_ROLE = 1) ∧
    (inThisStep wPtp 1023 = true ∧ wPtp.sys.phase = .up ∧ (getF wPtp PTP_OC_STAT_STATE = 2 ∨ getF wPtp PTP_OC_STAT_STATE = 3)) ∧
    (inThisStep wEthIn 1023 = true ∧ wEthIn.sys.phase = .up ∧ relayState wEthIn = byInserted ∧ getF wEthIn PTP_OC_STAT_STATE = 4 ∧ syncDue wEthIn 1
      (absTick wEthIn 1023) = true) := by
  refine ⟨?_, ?_, ?_, ?_, ?_, ?_, ?_, ?_⟩ <;> decide +kernel

/-- CAN_D is on the bus, its buffer 63 is being sent. -/
def wCan : State := modCtl (setF (setF (setF wUp (CAN_CTRL_EN 3) 1) (CAN_STAT_STATE 3) csActive) (CAN_ELEM_TX_N 3) 64) 3 fun c => { c with active := some 63 }
def wCanOff : State := setF wUp (CAN_ELEM_TX_N 3) 0
def wCanSync : State := setF wCan (CAN_STAT_STATE 3) csSync
def wCanBusOff : State := setF { wCan with tim := { wCan.tim with base := 1000000000000 } } (CAN_STAT_STATE 3) csBusOff
def wCanRecov : State := setF wCanBusOff (CAN_CTRL_RECOV 3) 1
def wCanBack : State := setF wCan (CAN_STAT_STATE 3) csRecovering
def wCanFrame : CanFrame := { xtd := false, rtr := false, id := 0x7FF, dlc := 8, fdf := false, brs := false, esi := false, data := List.replicate 8 1#8 }

/-- Filter 31 takes the frame into FIFO 3. -/
def wCanFilter : State := setF (setF (setF (setF wCan (CAN_FLT_ID_EN 3 31) 1) (CAN_FLT_ID_ID 3 31) 0x7FF) (CAN_FLT_DST_FIFOS 3 31) 8) (CAN_FIFO_CFG_DEPTH 3 3) 4

/-- Buffer 63 waits for its instant. -/
def wCanAt : State :=
  modBuf (setF (setF { wCan with tim := { wCan.tim with base := 1000000000000 } } (CAN_TXB_STAT_STATE 3 63) tbPending) (CAN_TT_LATE_WIN 3) 1) 3 63 fun b => { b with at_ := true, time := 0 }

/-- Row 15 of the matrix runs on CAN_D and time base 3; its slot 63 names buffer 63. -/
def wTtm : State :=
  tput (tput wCan .ttm 1039 ([0xE8#8, 3#8, 0#8, 0#8, 0#8, 0#8, 0#8, 0#8, 0x1F#8, 64#8] ++ List.replicate 6 0#8)) .ttm 1023 [0#8, 0#8, 0#8, 0#8, 63#8, 1#8, 0#8, 0#8]
def wTtmReady : State := setF wTtm (CAN_TXB_STAT_STATE 3 63) tbReady
def wTtmOpen : State := modBuf (setF wTtm (CAN_TXB_STAT_STATE 3 63) tbPending) 3 63 fun b => { b with slot := some (1023, 0) }
def wIso : State := setF (setF wUp (CAN_CTRL_ISOBUS 0) 1) (CAN_STAT_STATE 0) csActive
def wClaimed : State := setF wIso CAN_ISO_STAT_CLAIMED 1

theorem witness_CanFaultConfinement :
    (3 < 4 ∧ canState wCanSync 3 = csSync) ∧
    (3 < 4 ∧ inThisStep wCan 1023 = true ∧ onBus wCan 3 = true ∧ 1 ≤ 6 ∧ 6 ≤ 6 ∧ (true = true → 6 ≠ 3)) ∧
    (3 < 4 ∧ inThisStep wCanBusOff 1023 = true ∧ canState wCanBusOff 3 = csBusOff ∧ flag wCanBusOff (CAN_CTRL_RECOV 3) = false ∧ (ctlAt wCanBusOff
      3).offAt + getF wCanBusOff (CAN_BOFF_BO_DLY 3) * perMs ≤ absTick wCanBusOff 1023) ∧
    (serves wCanRecov 3 ∧ 3 < 4 ∧ ownerOrService wCanRecov 3 = true ∧ canState wCanRecov 3 = csBusOff ∧ flag wCanRecov (CAN_CTRL_RECOV 3) = true ∧
      startsNow wCanRecov 3 (putFlag (CAN_CTRL_RECOVER 3) true)) ∧
    (3 < 4 ∧ canState wCanBack 3 = csRecovering) := by
  unfold startsNow serves
  refine ⟨?_, ?_, ?_, ?_, ?_⟩ <;> decide +kernel

theorem witness_CanEnableAndDisable :
    (serves wUp 3 ∧ 3 < 4 ∧ ownerOrService wUp 3 = true ∧ flag wUp (CAN_CTRL_EN 3) = false ∧ flag wUp (CAN_CTRL_ISOBUS 3) = false ∧ poolOk wUp 3 =
      true ∧ startsNow wUp 3 (putFlag (CAN_CTRL_EN 3) true)) ∧
    (serves wCan 3 ∧ 3 < 4 ∧ ownerOrService wCan 3 = true ∧ flag wCan (CAN_CTRL_EN 3) = true ∧ startsNow wCan 3 (putFlag (CAN_CTRL_EN 3) false)) := by
  unfold startsNow serves
  refine ⟨?_, ?_⟩ <;> decide +kernel

theorem witness_CanFramesInAndOut :
    (3 < 4 ∧ inThisStep wCan 1023 = true ∧ frameOk wCanFrame = true ∧ onBus wCan 3 = true ∧ (wCanFrame.fdf = true → flag wCan (CAN_CTRL_FD_EN 3) =
      true)) ∧
    (3 < 4 ∧ inThisStep wCanFilter 1023 = true ∧ frameOk wCanFrame = true ∧ onBus wCanFilter 3 = true ∧ (wCanFrame.fdf = true → flag wCanFilter
      (CAN_CTRL_FD_EN 3) = true) ∧ (List.range 32).find? (fun kk => filterHit wCanFilter 3 kk wCanFrame) = some 31 ∧ flag wCanFilter (CAN_FLT_ID_REJ 3
      31) = false ∧ 3 < 4 ∧ (getF wCanFilter (CAN_FLT_DST_FIFOS 3 31)).testBit 3 = true ∧ flag wCanFilter (CAN_FIFO_CFG_FW 3 3) = false ∧ (fifoAt
      wCanFilter 3 3).elems.length < getF wCanFilter (CAN_FIFO_CFG_DEPTH 3 3)) ∧
    (3 < 4 ∧ 63 < 64 ∧ 54 < 128 ∧ inThisStep wCan 1023 = true ∧ 0 ≤ 6 ∧ (ctlAt wCan 3).active = some 63 ∧ (bufAt wCan 3 63).slot = none ∧ ttNames wCan
      3 63 = none ∧ (bufAt wCan 3 63).abort = false ∧ 0 = 0) ∧
    (3 < 4 ∧ 63 < 64 ∧ 54 < 128 ∧ inThisStep wCan 1023 = true ∧ 6 ≤ 6 ∧ (ctlAt wCan 3).active = some 63 ∧ (bufAt wCan 3 63).slot = none ∧ ttNames wCan
      3 63 = none ∧ (bufAt wCan 3 63).abort = false ∧ 6 ≠ 0) ∧
    (3 < 4 ∧ 63 < 64 ∧ inThisStep wCanAt 1023 = true ∧ txState wCanAt 3 63 = tbPending ∧ (bufAt wCanAt 3 63).at_ = true ∧ (bufAt wCanAt 3 63).eligible
      = false ∧ (bufAt wCanAt 3 63).time ≤ tbCount wCanAt (bufAt wCanAt 3 63).tb (absTick wCanAt 1023)) ∧
    (3 < 4 ∧ 63 < 64 ∧ inThisStep wCanAt 1023 = true ∧ txState wCanAt 3 63 = tbPending ∧ tooLate wCanAt 3 63 (absTick wCanAt 1023) = true ∧ ttNames
      wCanAt 3 63 = none) := by
  refine ⟨?_, ?_, ?_, ?_, ?_, ?_⟩ <;> decide +kernel

theorem witness_TtmSlotsAndIsobusAddress :
    (15 < 16 ∧ 63 < 64 ∧ inThisStep wTtmReady 0 = true ∧ slotBuf wTtmReady (64 * 15 + 63) < 64 ∧ rowEn wTtmReady 15 = true ∧ 64 * 15 + 63 ∈ ttSlots
      wTtmReady ∧ slotHere wTtmReady 15 (64 * 15 + 63) (absTick wTtmReady 0) = true ∧ canState wTtmReady (rowCtl wTtmReady 15) ≠ csOff ∧ txState
      wTtmReady (rowCtl wTtmReady 15) (slotBuf wTtmReady (64 * 15 + 63)) = tbReady ∧ (tnat wTtmReady .ttm (64 * 15 + 63) 5 1).testBit 1 = false) ∧
    (15 < 16 ∧ 63 < 64 ∧ inThisStep wTtm 0 = true ∧ slotBuf wTtm (64 * 15 + 63) < 64 ∧ rowEn wTtm 15 = true ∧ 64 * 15 + 63 ∈ ttSlots wTtm ∧ slotHere
      wTtm 15 (64 * 15 + 63) (absTick wTtm 0) = true ∧ canState wTtm (rowCtl wTtm 15) ≠ csOff ∧ txState wTtm (rowCtl wTtm 15) (slotBuf wTtm (64 * 15 +
      63)) ≠ tbReady) ∧
    (15 < 16 ∧ 63 < 64 ∧ inThisStep wTtmOpen 1023 = true ∧ slotBuf wTtmOpen (64 * 15 + 63) < 64 ∧ (bufAt wTtmOpen (rowCtl wTtmOpen 15) (slotBuf
      wTtmOpen (64 * 15 + 63))).slot = some (64 * 15 + 63, 0) ∧ 0 ≤ absTick wTtmOpen 1023 ∧ txState wTtmOpen (rowCtl wTtmOpen 15) (slotBuf wTtmOpen
      (64 * 15 + 63)) = tbPending) ∧
    (54 < 254 ∧ flag wIso (CAN_CTRL_ISOBUS 0) = true ∧ onBus wIso 0 = true ∧ wIso.sys.phase = .up) ∧
    (flag wClaimed CAN_ISO_STAT_CLAIMED = true) := by
  refine ⟨?_, ?_, ?_, ?_, ?_⟩ <;> decide +kernel

/-- Loop 15 runs in AUTO on a destination that nothing holds off; slot 3 holds the loop. -/
def wLoop : State := modLoop (own (setF (setF wUp CLE_CTRL_EN 1) (CLE_LP_CTRL_MODE 15) 2) kLoop 15) 15 fun x => { x with mode := 2, satUs := 100000000 }
def wLoopMan : State := modLoop (setF wLoop (CLE_LP_CTRL_MODE 15) 1) 15 fun x => { x with mode := 1 }
def wLoopOff : State := { setF (setF wLoopMan (CLE_LP_DST_KIND 15) 1) (CLE_LP_DST_IDX 15) 7 with sys := { wLoopMan.sys with enBN := true } }
def wLoopOut : State := modLoop wLoop 15 fun x => { x with out := some (5, 1) }
def wInj : Inject := { loop := 15, point := 0, k0 := some 0 }
def wInject : State := { setF wLoop CLE_INJ_CTRL_LOOP 15 with cle := { wLoop.cle with inj := some wInj } }
def wInjectOver : State := modLoop wInject 15 fun x => { x with k := 1000000 }
def wCapture : State := setF wLoop CLE_CAP_CTRL_LOOP 15

def wLoopAuto : State := setF wLoop (CLE_LP_STAT_MODE 15) 2

theorem witness_AutoPeriodComputation :
    15 < 16 ∧ flag wLoop CLE_CTRL_EN = true ∧ getF wLoop (CLE_LP_CTRL_MODE 15) = 2 ∧ (loopAt wLoop 15).mode = 2 ∧ dstHeld wLoop 15 = false ∧ measFault
      wLoop 15 = false ∧ frcFault wLoop 15 = false ∧ wLoop.cle.inj = none ∧ (loopAt wLoop 15).preset = false := by
  decide +kernel

theorem witness_LoopSampleInManualAndHeldOff :
    (15 < 16 ∧ flag wUp CLE_CTRL_EN = false) ∧
    (15 < 16 ∧ flag wLoopMan CLE_CTRL_EN = true ∧ getF wLoopMan (CLE_LP_CTRL_MODE 15) = 1 ∧ (loopAt wLoopMan 15).mode = 1 ∧ dstHeld wLoopMan 15 =
      false ∧ wLoopMan.cle.inj = none) ∧
    (15 < 16 ∧ flag wLoopOff CLE_CTRL_EN = true ∧ ((loopAt wLoopOff 15).mode = 1 ∨ (loopAt wLoopOff 15).mode = 2) ∧ dstHeld wLoopOff 15 = true ∧
      wLoopOff.cle.inj = none) := by
  refine ⟨?_, ?_, ?_⟩ <;> decide +kernel

theorem witness_LoopOutputAndAlarm :
    (15 < 16 ∧ (loopAt wLoopOut 15).out = some (5, 1)) ∧
    (15 < 16 ∧ satDue wLoop 15 = true) := by
  refine ⟨?_, ?_⟩ <;> decide +kernel

theorem witness_LoopModesAndEngineEnable :
    (serves wLoop 3 ∧ 15 < 16 ∧ 1 < 3 ∧ holds wLoop 3 kLoop 15 = true ∧ modeCheck wLoop 3 15 1 = .ok ∧ startsNow wLoop 3 (putField (CLE_LP_CTRL_MODE
      15) 1)) ∧
    (serves wUp 3 ∧ ownerOrService wUp 3 = true ∧ flag wUp CLE_CTRL_EN = false ∧ startsNow wUp 3 (putFlag CLE_CTRL_EN true)) ∧
    (serves wLoop 3 ∧ ownerOrService wLoop 3 = true ∧ flag wLoop CLE_CTRL_EN = true ∧ startsNow wLoop 3 (putFlag CLE_CTRL_EN false)) := by
  unfold startsNow serves
  refine ⟨?_, ?_, ?_⟩ <;> decide +kernel

theorem witness_InjectionAndCapture :
    (serves wLoopAuto 3 ∧ 31 < 512 ∧ 31 / 16 % 4 ≠ 3 ∧ 31 / 64 % 4 ≠ 3 ∧ injectCheck wLoopAuto 3 (BitVec.ofNat 32 31) = .ok ∧ startsNow wLoopAuto 3
      [item CLE_INJ_CTRL 0x3FF#32 (BitVec.ofNat 32 (31 + 512))]) ∧
    (wInject.cle.inj = some wInj ∧ wInj.loop < 16 ∧ serves wInject 3 ∧ holds wInject 3 kLoop (getF wInject CLE_INJ_CTRL_LOOP) = true ∧ getF wInject
      CLE_INJ_CTRL_POINT ≠ 3 ∧ getF wInject CLE_INJ_CTRL_TYPE ≠ 3 ∧ startsNow wInject 3 (putFlag CLE_INJ_CTRL_STOP true)) ∧
    (wInjectOver.cle.inj = some wInj ∧ wInj.loop < 16 ∧ injectOver wInjectOver wInj = true) ∧
    (serves wLoop 3 ∧ 31 < 2048 ∧ 31 / 16 % 4 ≠ 3 ∧ 31 / 256 ≤ 5 ∧ holds wLoop 3 kLoop (31 % 16) = true ∧ (getF wLoop CLE_CAP_STAT_STATE = capIdle ∨
      getF wLoop CLE_CAP_STAT_STATE = capDone) ∧ startsNow wLoop 3 [item CLE_CAP_CTRL 0x17FF#32 (BitVec.ofNat 32 (31 + 4096))]) ∧
    (serves wCapture 3 ∧ holds wCapture 3 kLoop (getF wCapture CLE_CAP_CTRL_LOOP) = true ∧ getF wCapture CLE_CAP_CTRL_NSIG ≠ 3 ∧ getF wCapture
      CLE_CAP_CTRL_TRIG ≤ 5 ∧ startsNow wCapture 3 (putFlag CLE_CAP_CTRL_ABORT true)) := by
  unfold startsNow serves
  refine ⟨?_, ?_, ?_, ?_, ?_⟩ <;> decide +kernel

/-- Group 7 runs; slot 3 holds it. -/
def wPwm : State :=
  modPwm (own (setF (setF (setF (setF wUp (PWM_GRP_CTRL_EN 7) 1) (PWM_GRP_STAT_RUN 7) 1) (PWM_GRP_STAT_HIZ 7) 0) (PWM_GRP_CTRL_TRIP_EN 7) 3) kPwm 7) 7 fun x =>
    { x with pairs := [PwmPair.reset, PwmPair.reset, { PwmPair.reset with s := true, c := 16 }] }
def wPwmPair : PwmPair := { PwmPair.reset with s := true, c := 16 }
def wPwmIdle : State := setF (setF wPwm (PWM_GRP_CTRL_EN 7) 0) (PWM_GRP_STAT_RUN 7) 0
def wPwmAll : State := [0, 1, 2, 3, 4, 5, 6, 7].foldl (fun s g => own s kPwm g) wUp

theorem witness_PwmPeriodsAndCompares :
    (7 < 8 ∧ pwmRuns wPwm 7 = true) ∧
    (7 < 8 ∧ 2 < 3 ∧ pwmRuns wPwm 7 = true ∧ (pwmAt wPwm 7).pairs[2]? = some wPwmPair ∧ wPwmPair.s = true ∧ 0 < wPwmPair.c ∧ wPwmPair.c < 32 * (pwmAt
      wPwm 7).act.prd) ∧
    (7 < 8 ∧ pwmRuns wPwm 7 = true ∧ (pwmAt wPwm 7).prdDone = false) ∧
    (54 < 256) := by
  refine ⟨?_, ?_, ?_, ?_⟩ <;> decide +kernel

theorem witness_PwmStartsTripsAndStops :
    (serves wPwmIdle 3 ∧ 7 < 8 ∧ holds wPwmIdle 3 kPwm 7 = true ∧ getF wPwmIdle (PWM_GRP_CTRL_START_CNT 7) < getF wPwmIdle (PWM_GRP_PRD_PRD 7) ∧ flag
      wPwmIdle (PWM_GRP_CTRL_EN 7) = false ∧ startOk wPwmIdle 7 = true ∧ startsNow wPwmIdle 3 (putFlag (PWM_GRP_CTRL_EN 7) true)) ∧
    (serves wPwm 3 ∧ 7 < 8 ∧ holds wPwm 3 kPwm 7 = true ∧ getF wPwm (PWM_GRP_CTRL_START_CNT 7) < getF wPwm (PWM_GRP_PRD_PRD 7) ∧ flag wPwm
      (PWM_GRP_CTRL_EN 7) = true ∧ startsNow wPwm 3 (putFlag (PWM_GRP_CTRL_EN 7) false)) ∧
    (serves wPwm 3 ∧ 7 < 8 ∧ holds wPwm 3 kPwm 7 = true ∧ getF wPwm (PWM_GRP_CTRL_START_CNT 7) < getF wPwm (PWM_GRP_PRD_PRD 7) ∧ flag wPwm
      (PWM_GRP_CTRL_EN 7) = true ∧ startOk wPwm 7 = true ∧ startsNow wPwm 3 (putFlag (PWM_GRP_CTRL_RESUME 7) true)) ∧
    (7 < 8 ∧ 1 < 2 ∧ (getF wUp (PWM_GRP_CTRL_TRIP_EN 7)).testBit 1 = true ∧ 0 < 1023 ∧ (tripFilter wUp 7 1).act = false ∧ getF wUp (PWM_GRP_COL_LEN 7
      1) ≤ (tripFilter wUp 7 1).count + 1023) ∧
    (serves wPwm 3 ∧ 7 < 8 ∧ 3 < 4 ∧ holds wPwm 3 kPwm 7 = true ∧ tripClearOk wPwm 7 3 = true ∧ startsNow wPwm 3 [item (PWM_GRP_FLT 7) 3#32
      (BitVec.ofNat 32 3)]) := by
  unfold startsNow serves
  refine ⟨?_, ?_, ?_, ?_, ?_⟩ <;> decide +kernel

theorem witness_PwmShadowWrites :
    (serves wPwm 3 ∧ 7 < 8 ∧ 2 ≤ 6 ∧ 6 ≤ 6 ∧ touches (item (PWM_GRP_CTRL 7 + 6) 0xFFFFFFFF#32 1#32) = true ∧ holds wPwm 3 kPwm 7 = true ∧ pwmCheck
      wPwm (PWM_GRP_CTRL 7 + 6) (rd wPwm (PWM_GRP_CTRL 7 + 6)) (shadowWord wPwm 3 7 6 0xFFFFFFFF#32 1#32) = .ok ∧ (4 ≤ 6 → loopDrives wPwm 1 7 (6 - 4)
      = false) ∧ startsNow wPwm 3 [item (PWM_GRP_CTRL 7 + 6) 0xFFFFFFFF#32 1#32]) ∧
    (serves wPwmAll 3 ∧ 255 < 256 ∧ (∀ g < 8, (255 : Nat).testBit g = true → holds wPwmAll 3 kPwm g = true) ∧ startsNow wPwmAll 3 [item PWM_LOADALL
      0xFF#32 (BitVec.ofNat 32 255)]) := by
  unfold startsNow serves
  refine ⟨?_, ?_⟩ <;> decide +kernel

/-- Port 7 counts A and B, wheel 3 pulses with a direction, every input is enabled. -/
def wEnc : State :=
  [(ENC_PT_CFG_MODE 7, 3), (ENC_PT_STAT_STATE 7, esQuad), (ENC_WH_CFG_MODE 3, 3), (ENC_WH_STAT_STATE 3, esQuad), (ENC_WH_CFG_MODE 2, 2),
   (ENC_WH_STAT_STATE 2, esQuad), (SNS_PLS_CFG_EN 7, 1), (SNS_PLS_CFG_EDGE 7, 1), (SNS_ISO_CFG_EN 1, 1), (SNS_AIN_CFG_EN 15, 1), (SNS_IMU_CFG_EN, 1),
   (ENC_EMU_CFG_EN 1, 1), (ENC_EMU_STAT_FREQ 1, 100), (ENC_WH_CFG_MODE 1, 1), (ENC_WH_STAT_STATE 1, esQuad)].foldl (fun s e => setF s e.1 e.2) wUp

def wEmu : State := modEmu wEnc 1 fun e => { e with acc := emuTurn }

/-- Port 7 reads a serial encoder. -/
def wSer : State := modSer (setF (setF wUp (ENC_PT_CFG_MODE 7) 1) (ENC_PT_STAT_STATE 7) esSerial) 7 fun x => { x with reading := some 9 }
def wSerFault : State := setF (setF wSer (ENC_PT_STAT_STATE 7) esFault) (ENC_PT_FLT_SERR 7) 1
def wWord : SerialWord := { idle := true, stop := true, startUs := some 0, bits := 5, ne := true, nw := true, crc := 0 }
def wWordBad : SerialWord := { wWord with stop := false }
def wAinOut : State := modAin wEnc 15 fun x => { x with out := 100000, within := 100000 }
def wAinFlt : State := setF wAinOut (SNS_AIN_VAL_FAULT 15) 1
def wBurst : List Byte := List.replicate 12 0#8
def wImu : State := { wEnc with enc := { wEnc.enc with drdy := some 1 } }
def wImuLate : State := setF wEnc SNS_IMU_CFG_TMO 0

theorem witness_CountingInputs :
    (9 < 12 ∧ fltOf wEnc 9 < 1023 ∧ counts wEnc 9 = true ∧ (quadPos true true + 4 - quadPos (cntAt wEnc 9).a (cntAt wEnc 9).b) % 4 = 2) ∧
    (7 < 8 ∧ fltOf wEnc 7 < 1023 ∧ (getF wEnc (ENC_PT_STAT_LVL 7)).testBit 2 = false ∧ counts wEnc 7 = true) ∧
    (3 < 4 ∧ fltOf wEnc (8 + 3) < 1023 ∧ getF wEnc (ENC_WH_STAT_STATE 3) ≠ esOff ∧ getF wEnc (ENC_WH_CFG_MODE 3) = 3) ∧
    (2 < 4 ∧ fltOf wEnc (8 + 2) < 1023 ∧ getF wEnc (ENC_WH_STAT_STATE 2) ≠ esOff ∧ getF wEnc (ENC_WH_CFG_MODE 2) = 2) ∧
    (3 < 4 ∧ fltOf wEnc (8 + 3) < 1023 ∧ getF wEnc (ENC_WH_STAT_STATE 3) ≠ esOff) ∧
    (7 < 8 ∧ flag wEnc (SNS_PLS_CFG_EN 7) = true ∧ 0 < max 1 (getF wEnc (SNS_PLS_CFG_DEB 7) * 100)) ∧
    (7 < 8 ∧ flag wEnc (SNS_PLS_CFG_EN 7) = true ∧ max 1 (getF wEnc (SNS_PLS_CFG_DEB 7) * 100) ≤ 1023 ∧ (getF wEnc (SNS_PLS_CFG_EDGE 7)).testBit (if
      true then 0 else 1) = true) ∧
    (1 < 2 ∧ flag wEnc (SNS_ISO_CFG_EN 1) = true) := by
  refine ⟨?_, ?_, ?_, ?_, ?_, ?_, ?_, ?_⟩ <;> decide +kernel

theorem witness_SpeedsAndEmulation :
    (unitOn wEnc 7 = true ∧ 7 < 8 ∧ portState wEnc 7 = esQuad) ∧
    (unitOn wEnc 11 = true ∧ 8 ≤ 11 ∧ 11 < 12 ∧ getF wEnc (ENC_WH_STAT_STATE (11 - 8)) ≠ esFault) ∧
    (unitOn wEnc 21 = true ∧ 14 ≤ 21 ∧ 21 < 22) ∧
    (1 < 2 ∧ flag wEmu (ENC_EMU_CFG_EN 1) = true ∧ getF wEmu (ENC_EMU_CFG_SRC 1) < 2 ∧ emuWay wEmu 1 ≤ (emuAt (emuRun wEmu 1 1023) 1).acc) := by
  refine ⟨?_, ?_, ?_, ?_⟩ <;> decide +kernel

theorem witness_SerialEncoders :
    (7 < 8 ∧ serialMode wSer 7 = true ∧ portState wSer 7 ≠ esOff) ∧
    (7 < 8 ∧ (serAt wSer 7).reading = some 9 ∧ getF wSer (ENC_PT_CFG_MODE 7) = 1 ∧ portState wSer 7 = esSerial ∧ framed wSer 7 wWord = true ∧ flag
      wSer (ENC_PT_CFG_GRAY 7) = false) ∧
    (7 < 8 ∧ (serAt wSer 7).reading = some 9 ∧ getF wSer (ENC_PT_CFG_MODE 7) = 1 ∧ portState wSer 7 = esSerial ∧ framed wSer 7 wWordBad = false) ∧
    (serves wUp 3 ∧ ownerOrService wUp 3 = true ∧ 7 < 8 ∧ regAssigned (ENC_PT_CFG 7) = true ∧ 3 < 4 ∧ getF wUp (ENC_PT_CFG_ZMODE 7) ≠ 3 ∧ bitsOf (rd
      wUp (ENC_PT_CFG 7)) 20 16 ≤ 24 ∧ getF wUp (ENC_PT_CFG_MODE 7) ≠ 3 ∧ 3 ≠ 0 ∧ portState wUp 7 = esOff ∧ startsNow wUp 3 (putField (ENC_PT_CFG_MODE
      7) 3)) ∧
    (serves wEnc 3 ∧ ownerOrService wEnc 3 = true ∧ 7 < 8 ∧ regAssigned (ENC_PT_CFG 7) = true ∧ 0 < 4 ∧ getF wEnc (ENC_PT_CFG_ZMODE 7) ≠ 3 ∧ bitsOf
      (rd wEnc (ENC_PT_CFG 7)) 20 16 ≤ 24 ∧ getF wEnc (ENC_PT_CFG_MODE 7) ≠ 0 ∧ 0 = 0 ∧ portUsed wEnc 7 = false ∧ startsNow wEnc 3 (putField
      (ENC_PT_CFG_MODE 7) 0)) ∧
    (serves wSerFault 3 ∧ ownerOrService wSerFault 3 = true ∧ 7 < 8 ∧ regAssigned (ENC_PT_FLT 7) = true ∧ portState wSerFault 7 = esFault ∧ serrHere
      wSerFault 7 = false ∧ illHere wSerFault 7 = false ∧ (flag wSerFault (ENC_PT_FLT_SERR 7) || flag wSerFault (ENC_PT_FLT_ILL 7)) = true ∧ startsNow
      wSerFault 3 [item (ENC_PT_FLT 7) 0xF#32 (BitVec.ofNat 32 15)]) := by
  unfold startsNow serves
  refine ⟨?_, ?_, ?_, ?_, ?_, ?_⟩ <;> decide +kernel

theorem witness_AnalogueInputsAndImu :
    (15 < 16 ∧ 1023 < 65536 ∧ flag wEnc (SNS_AIN_CFG_EN 15) = true) ∧
    (15 < 16 ∧ 1023 < 65536 ∧ flag wAinOut (SNS_AIN_CFG_EN 15) = true ∧ flag wAinOut (SNS_AIN_VAL_FAULT 15) = false ∧ 0 < (ainAt wAinOut 15).out ∧
      ainTime wAinOut 15 ≤ (ainAt wAinOut 15).out) ∧
    (15 < 16 ∧ 1023 < 65536 ∧ flag wAinFlt (SNS_AIN_VAL_FAULT 15) = true ∧ 0 < (ainAt wAinFlt 15).within ∧ ainTime wAinFlt 15 ≤ (ainAt wAinFlt
      15).within) ∧
    (flag wEnc SNS_IMU_CFG_EN = true ∧ wBurst.length = getF wEnc SNS_IMU_BURST_LEN ∧ (∀ u ∈ wEnc.enc.drdy, u + 475 * perUs ≤ 1023)) ∧
    (flag wImu SNS_IMU_CFG_EN = true ∧ wBurst.length = getF wImu SNS_IMU_BURST_LEN ∧ wImu.enc.drdy = some ((wImu.enc.drdy).get (by decide +kernel)) ∧
      1023 < ((wImu.enc.drdy).get (by decide +kernel)) + 475 * perUs) ∧
    (flag wImuLate SNS_IMU_CFG_EN = true ∧ wImuLate.enc.imuDead = false ∧ wImuLate.enc.drdy.getD wImuLate.enc.imuOn + getF wImuLate SNS_IMU_CFG_TMO *
      perMs ≤ 1023) ∧
    (serves wUp 3 ∧ ownerOrService wUp 3 = true ∧ 54 < 256 ∧ 54 < 256 ∧ flag wUp SNS_IMU_CFG_EN = false ∧ startsNow wUp 3 [item SNS_IMU_XFER
      0x1FFFF#32 (BitVec.ofNat 32 (54 + 54 * 256 + 65536))]) ∧
    (serves wUp 3 ∧ ownerOrService wUp 3 = true ∧ 54 < 256 ∧ 54 < 256 ∧ flag wUp SNS_IMU_CFG_EN = false ∧ startsNow wUp 3 [item SNS_IMU_XFER
      0x200FF#32 (BitVec.ofNat 32 (54 + 131072))]) := by
  unfold startsNow serves
  refine ⟨?_, ?_, ?_, ?_, ?_, ?_, ?_, ?_⟩ <;> decide +kernel

/-- The receiver is locked, and slot 191 is idle. -/
def wGns : State := setF wUp CLK_STAT_G_LOCK 1
def wRf : PortRf := { agc1 := 1, agc5 := 1, nf1 := 1, nf5 := 1, ibias := 1, atMin := false }
def wMeas : SlotMeas :=
  { slot := 191, codeLock := true, towV := true, plis := [], diffs := [], polarity := 1, codeph := 0, txms := 0, dcarr := 0, dopp := 0, cn0 := 40, pli := 1, cstd := 1 }
def wMeasL : List SlotMeas := [wMeas]
def wSky : List GnsCand := []
def wPli : List (Bool × Nat) := List.replicate 20 (true, 255)
def wWeak : List (Nat × Bool) := List.replicate 20 (0, false)
def wGnsSearch : State := modGns wGns 191 fun g => { g with state := gsSearch, confirm := true }
def wGnsAided : State := modGns wGns 191 fun g => { g with state := gsAided, confirm := true }
def wGnsPull : State := modGns wGns 191 fun g => { g with state := gsPullin, sig := 0, svid := 7 }
def wGnsTrack : State := modGns wGns 191 fun g => { g with state := gsTrack, sig := 0, svid := 7 }
def wGnsLost : State := { modGns wGns 191 fun g => { g with state := gsLost } with tim := { wGns.tim with base := 1000000000000 } }
def wGnsRst : State := { wGns with gns := { wGns.gns with waiting := [(GNS_CTRL, 0x80000000#32)] } }
def wEpoch : GnsEpoch := { seq := 5, tep := 9, step := 3, tb0v := true, clkStep := false, clkb := 0, clkd := 0, recs := [[1#8]] }
def wNoEpochs : List GnsEpoch := []
def wGnsEpoch : State := { wGns with gns := { wGns.gns with epochs := [wEpoch] } }
def wSol : SolIn :=
  { type := 4, used := [], ratio := 500, lat := 1, lon := 2, hgt := 3, e := 4, n := 5, vE := 6, vN := 7, vU := 8, sigH := 9, sigV := 10, pdop := 11, latency := 35,
    fixed := true, hdg := 12, pitch := 13, hdgSig := 14, len := 15, err := 16, clkd := 17, rate := 18, unc := 19, slewr := 20, priv := [] }
def wBits : List Bool := List.replicate 300 true
def wAnt : State := setF (setF wGns (GNS_ANT_CFG_BIAS_EN 0) 1) (GNS_ANT_CFG_BIAS_EN 1) 1
def wAntShort : State := { wAnt with gns := { wAnt.gns with shortAt := [(1, some 0)], corrAt := some 0 }, tim := { wAnt.tim with base := 1000000000000 } }
def wSrc : State := setF wAntShort GNS_STAT_SRCV 1
def wPinSel : State := winSet wGns 3 GNS_SLOT_SEL 191#32

theorem witness_GnssSlotStates :
    (191 < 192 ∧ (gnsAt wGnsSearch 191).state = gsSearch) ∧
    (191 < 192 ∧ inThisStep wGnsAided 1023 = true ∧ ((gnsAt wGnsAided 191).state = gsAided ∨ ((gnsAt wGnsAided 191).state = gsLost ∧ aidedOk wGnsAided
      191 (absTick wGnsAided 1023) 1023 = true))) ∧
    (191 < 192 ∧ inThisStep wGnsTrack 1023 = true ∧ (gnsAt wGnsTrack 191).state = gsTrack ∧ lossDue wGnsTrack wWeak = true) ∧
    (191 < 192 ∧ inThisStep wGnsLost 1023 = true ∧ (gnsAt wGnsLost 191).state = gsLost ∧ (gnsAt wGnsLost 191).lostAt + getF wGnsLost GNS_AID_HOLD *
      ticksPerSec ≤ absTick wGnsLost 1023) ∧
    (191 < 192 ∧ (gnsAt wGnsPull 191).state = gsPullin ∧ 20 ≤ wPli.length ∧ (∀ p ∈ wPli.reverse.take 20, p.1 = true ∧ getF wGnsPull GNS_LOCK_PLI_TH ≤
      p.2)) := by
  refine ⟨?_, ?_, ?_, ?_, ?_⟩ <;> decide +kernel

theorem witness_MeasurementEpochs :
    (inThisStep wUp 0 = true ∧ measOrdered wMeasL = true ∧ epochHere wUp (absTick wUp 0) = true ∧ flag wUp CLK_STAT_G_LOCK = true ∧ wUp.gns.waiting =
      []) ∧
    (inThisStep wGnsTrack 0 = true ∧ wMeas.slot < 192 ∧ epochHere wGnsTrack (absTick wGnsTrack 0) = true ∧ flag wGnsTrack CLK_STAT_G_LOCK = true ∧
      wGnsTrack.gns.waiting = [] ∧ (∀ i < 192, (gnsAt wGnsTrack i).cfgNew = false) ∧ (gnsAt wGnsTrack wMeas.slot).state = gsTrack ∧ signalOn wGnsTrack
      (gnsAt wGnsTrack wMeas.slot).sig (gnsAt wGnsTrack wMeas.slot).port = true ∧ (gnsAt wGnsTrack wMeas.slot).half = false) ∧
    (serves wUp 3 ∧ ownerOrService wUp 3 = true ∧ startsNow wUp 3 (putFlag GNS_CTRL_RST true)) ∧
    (inThisStep wGnsRst 0 = true ∧ epochHere wGnsRst (absTick wGnsRst 0) = true ∧ flag wGnsRst CLK_STAT_G_LOCK = true ∧ wGnsRst.gns.waiting =
      [(GNS_CTRL, 0x80000000#32)] ∧ bitsOf 0x80000000#32 31 31 = 1) := by
  unfold startsNow serves
  refine ⟨?_, ?_, ?_, ?_⟩ <;> decide +kernel

theorem witness_SolutionsAndNavigationUnits :
    (inThisStep wGnsEpoch 1023 = true ∧ wSol.type ≤ 4 ∧ wSol.latency ≤ 35 ∧ wSol.priv.length ≤ 24 ∧ wGnsEpoch.gns.epochs = wEpoch :: wNoEpochs ∧
      wGnsEpoch.sys.phase = .up) ∧
    (191 < 192 ∧ (0 = 0 ∨ (0 = 1 ∧ (gnsAt wGnsPull 191).sig = 2)) ∧ wBits.length = unitBits (gnsAt wGnsPull 191).sig 0 ∧ ((gnsAt wGnsPull 191).state =
      gsPullin ∨ (gnsAt wGnsPull 191).state = gsTrack)) := by
  refine ⟨?_, ?_⟩ <;> decide +kernel

theorem witness_AntennaBiasAndCorrections :
    (1 < 2 ∧ flag wUp (GNS_ANT_CFG_BIAS_EN 1) = true) ∧
    (1 < 2 ∧ inThisStep wUp 1023 = true ∧ flag wUp (GNS_ANT_CFG_BIAS_EN 1) = true ∧ biasShort wUp 1 = none) ∧
    (1 < 2 ∧ inThisStep wAntShort 1023 = true ∧ biasShort wAntShort 1 = some ((biasShort wAntShort 1).get (by decide +kernel)) ∧ ((biasShort wAntShort
      1).get (by decide +kernel)) + ticksPerSec ≤ absTick wAntShort 1023) ∧
    (inThisStep wAntShort 1023 = true ∧ wAntShort.gns.corrAt ≠ none ∧ corrFresh wAntShort (absTick wAntShort 1023) = false ∧ wAntShort.gns.lost =
      false) ∧
    (inThisStep wSrc 1023 = true ∧ flag wSrc GNS_STAT_SRCV = true ∧ wSrc.gns.srcAt + getF wSrc GNS_RTK_SRC_HOLD * ticksPerSec ≤ absTick wSrc 1023) ∧
    (serves wUp 3 ∧ ownerOrService wUp 3 = true ∧ bitsOf (winGet wUp 3 GNS_SLOT_SEL) 7 0 = 0 ∧ pinValid wUp 0 (0x00000000#32 &&& 0x3FF7#32) = true ∧
      startsNow wUp 3 [item GNS_SLOT_CFG 0xFFFFFFFF#32 0x00000000#32]) := by
  unfold startsNow serves
  refine ⟨?_, ?_, ?_, ?_, ?_, ?_⟩ <;> decide +kernel

def wRecEntry : RecEntry := { code := 3, hold := false, frz := false, opsec := 1, pcyc := 2, frac := 0, step := 4, inst := 5, val := [6#8] }
def wRec : State := { wUp with recd := { wUp.recd with writing := some (wRecEntry, 0), next := 16383 } }
def wRecBusy : State :=
  { wUp with tim := { wUp.tim with base := 100000000000 }, recd := { wUp.recd with searching := true, freeze := some 3, lock := true, nonce := some (3, [1#8]), key := some [1#8] } }
def wClear : RecClear := { slot := 3, prevNext := 9, failures := 0 }
def wRecClear : State := { wUp with recd := { wUp.recd with clearing := some wClear } }
def wSamples : List Int := List.replicate 32 500
def wLogic : List Nat := [10, 20, 30, 40]

/-- Limit 55 has been passed for ten samples, the limit before it has been left for a hundred. -/
def wMon : State :=
  { setF wUp (MON_TS_T 0) 500 with mon := { wUp.mon with beyond := [(55, 10)], inside := [(54, 100)], reached := [(54, true)] } }
def wMonBase : State := { wMon with mon := { wMon.mon with savedBase := some 900 } }

/-- AUTO, with a hundred runs of slack 9, respectively 15. -/
def wAvs (n : Nat) : State :=
  { setF (setF (setF wUp MON_CTRL_AVS 1) MON_SLACK_CFG_S_CRIT 10) MON_SLACK_CFG_S_LOW 20 with
    mon := { wUp.mon with slackRuns := List.replicate 100 (n, 3) } }
def wAvsCrit : State := wAvs 9
def wAvsLow : State := wAvs 15
def wAvsBusy : State := setF (setF wUp MON_STAT_BUSY 1) (MON_VM_VAL 0) 800
def wDrvEn : State := setF wUp DRV_CTRL_EN 1

/-- A reset of one source runs, and the preferred image is VALID. -/
def wResetBy (n : Nat) : State := { State.reset with sys := { State.reset.sys with inReset := true, sources := n } }
def wReset1 : State := wResetBy 4
def wReset2 : State := wResetBy 8
def wReset3 : State := wResetBy 16
def wReset4 : State := wResetBy 32
def wReset5 : State := wResetBy 12
def wVerify : State := { wUp with sys := { wUp.sys with phase := .verifying } }
def wVerifyBad : State := { wVerify with boot := { wVerify.boot with minSvn := 1000 } }
def wHeld : State := { wUp with sys := { wUp.sys with phase := .held, tripped := true } }
def wHeldRec : State := setF wHeld SYS_BOOT_RCAUSE 1
def wHeldAgain : State := { wHeld with boot := { wHeld.boot with trips := [3, 2, 1] } }

theorem witness_RecorderWritesAndLimits :
    (wRec.recd.writing = some (wRecEntry, 0)) ∧
    (wRecBusy.recd.searching = true) ∧
    (inThisStep wRecBusy 1023 = true ∧ wRecBusy.recd.freeze = some ((wRecBusy.recd.freeze).get (by decide +kernel)) ∧ wRecBusy.recd.freezeAt + getF
      wRecBusy REC_CTRL_FRZ_MAX * ticksPerSec ≤ absTick wRecBusy 1023) ∧
    (inThisStep wRecBusy 1023 = true ∧ wRecBusy.recd.lock = true ∧ wRecBusy.recd.lockAt + 60 * ticksPerSec ≤ absTick wRecBusy 1023) ∧
    (inThisStep wRecBusy 1023 = true ∧ wRecBusy.recd.nonce ≠ none ∧ wRecBusy.recd.nonceAt + 60 * ticksPerSec ≤ absTick wRecBusy 1023) ∧
    (wRecClear.recd.clearing = some wClear) := by
  refine ⟨?_, ?_, ?_, ?_, ?_, ?_⟩ <;> decide +kernel

theorem witness_MonitorsAndLimits :
    (wSamples.length = 32 ∧ wUp.sys.inReset = false) ∧
    (55 < 56 ∧ limitHeld wMon 55 = false ∧ 10 ≤ sparseGet (fun _ => 0) wMon.mon.beyond 55) ∧
    (54 < 56 ∧ limitHeld wMon 54 = true ∧ 100 ≤ sparseGet (fun _ => 0) wMon.mon.inside 54) ∧
    (wLogic.length = 4 ∧ wUp.sys.inReset = false) ∧
    (480 ≤ getI wMon (MON_TS_T 0) ∧ getI wMon (MON_TS_T 0) ≤ 520 ∧ wMon.mon.savedBase = none) ∧
    (480 ≤ getI wMonBase (MON_TS_T 0) ∧ getI wMonBase (MON_TS_T 0) ≤ 520 ∧ wMonBase.mon.savedBase = some ((wMonBase.mon.savedBase).get
      (by decide +kernel))) := by
  refine ⟨?_, ?_, ?_, ?_, ?_, ?_⟩ <;> decide +kernel

theorem witness_CoreVoltage :
    (wAvsCrit.sys.inReset = false ∧ 100 ≤ wAvsCrit.mon.slackRuns.length ∧ autoRuns wAvsCrit = true ∧ getF wAvsCrit MON_AVS_STAT_VREQ < 880 ∧ (sMin
      wAvsCrit).1 < getF wAvsCrit MON_SLACK_CFG_S_CRIT) ∧
    (wAvsLow.sys.inReset = false ∧ 100 ≤ wAvsLow.mon.slackRuns.length ∧ autoRuns wAvsLow = true ∧ getF wAvsLow MON_AVS_STAT_VREQ < 880 ∧ getF wAvsLow
      MON_SLACK_CFG_S_CRIT ≤ (sMin wAvsLow).1 ∧ (sMin wAvsLow).1 < getF wAvsLow MON_SLACK_CFG_S_LOW) ∧
    (flag wAvsBusy MON_STAT_BUSY = true ∧ readbackOk wAvsBusy true 800 = true) ∧
    (flag wAvsBusy MON_STAT_BUSY = true ∧ readbackOk wAvsBusy true 1023 = false) ∧
    (920 < 1023) ∧
    (serves wUp 3 ∧ ownerOrService wUp 3 = true ∧ 2 < 3 ∧ startsNow wUp 3 (putField MON_CTRL_AVS 2)) ∧
    (serves wUp 3 ∧ ownerOrService wUp 3 = true ∧ 720 ≤ 800 ∧ 800 ≤ 880 ∧ startsNow wUp 3 (putField MON_AVS_SET_MV 800)) := by
  unfold startsNow serves
  refine ⟨?_, ?_, ?_, ?_, ?_, ?_, ?_⟩ <;> decide +kernel

theorem witness_CrossingsAndBlockResets :
    (2 ≤ 13 ∧ 13 < 14 ∧ wUp.sys.inReset = false) ∧
    (serves wUp 3 ∧ ownerOrService wUp 3 = true ∧ brstOk wUp (0xFFFFFFFF#32 &&& 0x000F07FF#32).toNat = true ∧ startsNow wUp 3 [item CLK_BRST
      0x000F07FF#32 0xFFFFFFFF#32]) ∧
    (serves wDrvEn 3 ∧ ownerOrService wDrvEn 3 = true ∧ brstOk wDrvEn (0xFFFFFFFF#32 &&& 0x000F07FF#32).toNat = false ∧ startsNow wDrvEn 3 [item
      CLK_BRST 0x000F07FF#32 0xFFFFFFFF#32]) ∧
    (9 ∈ brstBits) := by
  unfold startsNow serves
  refine ⟨?_, ?_, ?_, ?_⟩ <;> decide +kernel

theorem witness_DeviceResetsBegin :
    (inThisStep wUp 1023 = true ∧ 10000 ≤ 16383) ∧
    (inThisStep wUp 1023 = true ∧ 54 < 1000) ∧
    (inThisStep wUp 1023 = true ∧ (3 = 0 ∨ 3 = 2 ∨ 3 = 3)) ∧
    (inThisStep wUp 1023 = true ∧ 5 < 6) ∧
    (inThisStep wUp 1023 = true ∧ flag wUp CLK_STAT_TCXO_OK = true) ∧
    (inThisStep wUp 1023 = true ∧ flag wUp CLK_STAT_D_LOCK = true) ∧
    (inThisStep wUp 1023 = true ∧ flag wUp CLK_STAT_P_LOCK = true) ∧
    (inThisStep wUp 1023 = true ∧ flag wUp CLK_STAT_G_LOCK = true) ∧
    (inThisStep wUp 1023 = true) := by
  refine ⟨?_, ?_, ?_, ?_, ?_, ?_, ?_, ?_, ?_⟩ <;> decide +kernel

theorem witness_ResetsEndAndImagesAreChosen :
    (inThisStep wReset1 2000 = true ∧ 2000 ≤ 2000 ∧ wReset1.sys.inReset = true ∧ preferredReady wReset1 ∧ wReset1.boot.bootSelLow = false ∧
      wReset1.sys.sources = 4) ∧
    (inThisStep wReset2 2000 = true ∧ 2000 ≤ 2000 ∧ wReset2.sys.inReset = true ∧ preferredReady wReset2 ∧ wReset2.boot.bootSelLow = false ∧
      wReset2.sys.sources = 8) ∧
    (inThisStep wReset3 2000 = true ∧ 2000 ≤ 2000 ∧ wReset3.sys.inReset = true ∧ preferredReady wReset3 ∧ wReset3.boot.bootSelLow = false ∧
      wReset3.sys.sources = 16 ∧ flag wReset3 CLK_STAT_D_LOCK = true) ∧
    (inThisStep wReset3 2000 = true ∧ 2000 ≤ 2000 ∧ wReset3.sys.inReset = true ∧ preferredReady wReset3 ∧ wReset3.boot.bootSelLow = false ∧
      wReset3.sys.sources = 16 ∧ flag wReset3 CLK_STAT_TCXO_OK = true) ∧
    (inThisStep wReset4 2000 = true ∧ 2000 ≤ 2000 ∧ wReset4.sys.inReset = true ∧ preferredReady wReset4 ∧ (wReset4.sys.sources = 2 ∨
      wReset4.sys.sources = 32)) ∧
    (inThisStep wReset4 2000 = true ∧ 2000 ≤ 2000 ∧ wReset4.sys.inReset = true ∧ (wReset4.sys.sources = 2 ∨ wReset4.sys.sources = 32)) ∧
    (inThisStep wReset5 2000 = true ∧ 2000 ≤ 2000 ∧ wReset5.sys.inReset = true ∧ wReset5.sys.sources = 12) ∧
    (imageState wUp wUp.boot.preferred = imValid) := by
  unfold preferredReady
  refine ⟨?_, ?_, ?_, ?_, ?_, ?_, ?_, ?_⟩ <;> decide +kernel

theorem witness_ImagesAreVerifiedAndRestarted :
    (inThisStep wVerify 1023 = true ∧ wVerify.sys.phase = .verifying ∧ imageReason wVerify (imageAt wVerify wVerify.boot.running).head = 0) ∧
    (inThisStep wVerifyBad 1023 = true ∧ wVerifyBad.sys.phase = .verifying ∧ imageReason wVerifyBad (imageAt wVerifyBad wVerifyBad.boot.running).head
      ≠ 0 ∧ wVerifyBad.boot.running < 2) ∧
    (wHeldRec.sys.phase = .held ∧ wHeldRec.sys.pllPHold = false ∧ getF wHeldRec SYS_BOOT_RCAUSE ≠ 0) ∧
    (wHeld.sys.phase = .held ∧ wHeld.sys.pllPHold = false ∧ getF wHeld SYS_BOOT_RCAUSE = 0 ∧ imageState wHeld wHeld.boot.running = imValid ∧
      wHeld.boot.running < 2 ∧ repeatedTrips wHeld = false) ∧
    (wHeldAgain.sys.phase = .held ∧ wHeldAgain.sys.pllPHold = false ∧ getF wHeldAgain SYS_BOOT_RCAUSE = 0 ∧ imageState wHeldAgain
      wHeldAgain.boot.running = imValid ∧ wHeldAgain.boot.running < 2 ∧ repeatedTrips wHeldAgain = true) := by
  refine ⟨?_, ?_, ?_, ?_, ?_⟩ <;> decide +kernel

/-- A transaction with operation `op` from address `a`: `d` is sent, or as many bytes are read. -/
def spiMsg (op a : Nat) (d : List Byte) : List Byte :=
  let head := leBytes 1 op ++ leBytes 1 a ++ leBytes 2 d.length
  head ++ crcBytes head ++ if op = 1 ∨ op = 4 then List.replicate (d.length + 4) 0#8 else d ++ crcBytes d

/-- A frame of a code without a payload. -/
def wNopFrame (code : Nat) : List Byte := [0#8, 0#8] ++ leBytes 1 code ++ [0#8, 0#8, 0#8, 9#8, 0#8, 0#8, 0#8, 0#8, 0#8]
def wMsgRead : List Byte := spiMsg 1 0x3F [0#8, 0#8, 0#8, 0#8]
def wMsgRsp : List Byte := spiMsg 4 0 [0#8, 0#8, 0#8, 0#8]
def wMsgWin : List Byte := spiMsg 2 0x10 [0xFF#8, 0x3F#8, 1#8, 0#8]
def wMsgReq : List Byte := spiMsg 3 0 (wNopFrame 0)
def wMsgBad1 : List Byte := [1#8]
def wMsgBad2 : List Byte := [2#8]
def wMsgBad3 : List Byte := [3#8]
def wMsgBad4 : List Byte := [4#8]
def wFrmNop : List Byte := wNopFrame 0
def wFrmIdent : List Byte := wNopFrame 1
def wFrmAttach : List Byte := wNopFrame 2
def wSeg0 : List Byte := [0#8, 1#8, 2#8]
def wSeg5 : List Byte := [5#8, 1#8, 2#8]
def wSegEnd : List Byte := [130#8] ++ (wNopFrame 0).drop 6

def wService : State := setF wUp SYS_BOOT_MODE 3
def wRes : Result := { code := 1, status := 0, rseq := 255, htag := 1, step := 2, payload := [3#8] }
def wNoResults : List Result := []
def wUnrel : State := modSlot wUp 0 fun x => { x with unrel := [wRes] }

/-- The relay is inserted and slot 2 is bound to a UDP source. -/
def wUdp : State := wr (wr (setF wUp ETH_BYP_STAT_STATE byInserted) (HIF_H_UDP_IP 2) 0xFFFFFFFF#32) (HIF_H_UDP_PORT 2) 1#32
def wUdpFree : State := setF (setF wUp ETH_BYP_STAT_STATE byInserted) (HIF_H_STAT_ATT 2) 0
def wCanb : State := setF (setF wUp (CAN_CTRL_EN 1) 1) (CAN_CTRL_FD_EN 1) 1
def wPart : Reasm := { nextSeg := 2, bytes := (wNopFrame 0).take 6, heard := 0 }
def wCanbPart : State := { modSlot wCanb 3 fun x => { x with reasm := some wPart } with tim := { wCanb.tim with base := 1000000000000 } }
def wLongAgo : State := { wUp with tim := { wUp.tim with base := 1000000000000 } }
def wFresh : State := modSlot wUp 3 fun x => { x with heard := 1, ka := 500 }
def wTc : State := setF (setF (setF wUp (HIF_H_STAT_ATT 1) 0) CAN_ISO_STAT_CLAIMED 1) (HIF_H_CFG_ROLES 1) 15

theorem witness_SpiTransactions :
    (wUp.sys.inReset = false ∧ inThisStep wUp 1023 = true ∧ spiResult wUp wMsgBad1 ≠ ltOk ∧ spiKind 1 wMsgBad1 = true) ∧
    (wUp.sys.inReset = false ∧ inThisStep wUp 1023 = true ∧ spiResult wUp wMsgBad2 ≠ ltOk ∧ spiKind 2 wMsgBad2 = true) ∧
    (wUp.sys.inReset = false ∧ inThisStep wUp 1023 = true ∧ spiResult wUp wMsgBad3 ≠ ltOk ∧ spiKind 3 wMsgBad3 = true) ∧
    (wUp.sys.inReset = false ∧ inThisStep wUp 1023 = true ∧ spiResult wUp wMsgBad4 ≠ ltOk ∧ spiKind 4 wMsgBad4 = true) ∧
    (wUp.sys.inReset = false ∧ inThisStep wUp 1023 = true ∧ sound wUp 1 wMsgRead) ∧
    (wUp.sys.inReset = false ∧ inThisStep wUp 1023 = true ∧ sound wUp 4 wMsgRsp) ∧
    (wService.sys.inReset = false ∧ inThisStep wService 1023 = true ∧ sound wService 2 wMsgWin ∧ leAt wMsgWin 1 1 = 0x10 ∧ spiN wMsgWin = 4 ∧
      inService wService = false) := by
  unfold sound
  refine ⟨?_, ?_, ?_, ?_, ?_, ?_, ?_⟩ <;> decide +kernel

theorem witness_WindowAcknowledgesAndFreezes :
    (wUnrel.sys.inReset = false ∧ inThisStep wUnrel 1023 = true ∧ spiSlot wUnrel = some 0 ∧ attached wUnrel 0 = true ∧ (slotOf wUnrel 0).owed = [] ∧
      (slotOf wUnrel 0).unrel = wRes :: wNoResults ∧ wRes.rseq < 256) ∧
    (wUp.sys.inReset = false ∧ inThisStep wUp 1023 = true ∧ spiSlot wUp = some 0 ∧ attached wUp 0 = true ∧ (slotOf wUp 0).owed = [] ∧ 54 < 256 ∧
      (slotOf wUp 0).unrel.all (fun x => decide (x.rseq ≠ 54)) = true) ∧
    (wUp.sys.inReset = false ∧ inThisStep wUp 1023 = true ∧ 1023 < 16384 ∧ inService wUp = true) ∧
    (wService.sys.inReset = false ∧ inThisStep wService 1023 = true ∧ 1023 < 16384 ∧ inService wService = false) := by
  refine ⟨?_, ?_, ?_, ?_⟩ <;> decide +kernel

theorem witness_FramesReachTheirRings :
    (wUp.sys.inReset = false ∧ inThisStep wUp 1023 = true ∧ sound wUp 3 wMsgReq ∧ spiSlot wUp = some 0 ∧ attached wUp 0 = true ∧ lone ((wMsgReq.drop
      6).take (spiN wMsgReq)) 4084 ∧ roomFor1 wUp 0 ((wMsgReq.drop 6).take (spiN wMsgReq))) ∧
    (inThisStep wUdp 1023 = true ∧ (1#32).toNat < 65536 ∧ wUdp.sys.phase = .up ∧ relayState wUdp = byInserted ∧ udpSlot wUdp 0xFFFFFFFF#32 1#32 = some
      2 ∧ attached wUdp 2 = true ∧ lone wFrmNop 1460 ∧ roomFor1 wUdp 2 wFrmNop) ∧
    (inThisStep wCanbPart 1023 = true ∧ canbOn wCanbPart ∧ canbSlot wCanbPart = some 3 ∧ attached wCanbPart 3 = true ∧ (slotOf wCanbPart 3).reasm =
      some wPart ∧ inRange 1 64 wSegEnd.length = true ∧ leAt wSegEnd 0 1 = 128 + wPart.nextSeg ∧ wPart.nextSeg < 128 ∧ lone (wPart.bytes ++
      wSegEnd.drop 1) 4084 ∧ roomFor1 wCanbPart 3 (wPart.bytes ++ wSegEnd.drop 1)) := by
  unfold sound lone roomFor1 canbOn
  refine ⟨?_, ?_, ?_⟩ <;> decide +kernel

theorem witness_UdpBindingAndSegments :
    (inThisStep wUp 1023 = true ∧ (1#32).toNat < 65536 ∧ relayState wUp ≠ byInserted) ∧
    (inThisStep wUdpFree 1023 = true ∧ (1#32).toNat < 65536 ∧ wUdpFree.sys.phase = .up ∧ relayState wUdpFree = byInserted ∧ udpSlot wUdpFree
      0xFFFFFFFF#32 1#32 = none ∧ lone wFrmAttach 1460 ∧ freeUdpSlot wUdpFree = some ((freeUdpSlot wUdpFree).get (by decide +kernel)) ∧ (headerOf
      wFrmAttach).code = 2 ∧ roomFor1 wUdpFree ((freeUdpSlot wUdpFree).get (by decide +kernel)) wFrmAttach) ∧
    (inThisStep wUdp 1023 = true ∧ (0x0000FFFF#32).toNat < 65536 ∧ wUdp.sys.phase = .up ∧ relayState wUdp = byInserted ∧ udpSlot wUdp 0xFFFFFFFF#32
      0x0000FFFF#32 = none ∧ lone wFrmIdent 1460 ∧ (headerOf wFrmIdent).code = 1 ∧ (headerOf wFrmIdent).len = 0) ∧
    (inThisStep wUdp 1023 = true ∧ (0x0000FFFF#32).toNat < 65536 ∧ wUdp.sys.phase = .up ∧ relayState wUdp = byInserted ∧ udpSlot wUdp 0xFFFFFFFF#32
      0x0000FFFF#32 = none ∧ lone wFrmNop 1460 ∧ (headerOf wFrmNop).code ≠ 1 ∧ (headerOf wFrmNop).code ≠ 2) ∧
    (inThisStep wCanb 1023 = true ∧ canbOn wCanb ∧ canbSlot wCanb = some 3 ∧ inRange 1 64 wFrmNop.length = true ∧ (slotOf wCanb 3).reasm = none ∧ leAt
      wFrmNop 0 1 = 0) ∧
    (inThisStep wCanbPart 1023 = true ∧ canbOn wCanbPart ∧ canbSlot wCanbPart = some 3 ∧ inRange 1 64 wMsgRead.length = true ∧ (slotOf wCanbPart
      3).reasm = some (((slotOf wCanbPart 3).reasm).get (by decide +kernel)) ∧ leAt wMsgRead 0 1 % 128 ≠ (((slotOf wCanbPart 3).reasm).get
      (by decide +kernel)).nextSeg ∧ leAt wMsgRead 0 1 % 128 ≠ 0) ∧
    (inThisStep wCanbPart 1023 = true ∧ canbSlot wCanbPart = some 3 ∧ (slotOf wCanbPart 3).reasm = some wPart ∧ wPart.heard + 10 * 200000 < absTick
      wCanbPart 1023) := by
  unfold lone roomFor1 canbOn
  refine ⟨?_, ?_, ?_, ?_, ?_, ?_, ?_⟩ <;> decide +kernel

theorem witness_AttachmentsEnd :
    (3 < 4 ∧ inThisStep wUp 1023 = true ∧ attached wUp 3 = true ∧ portOf wUp 3 ≠ 3 ∧ (slotOf wUp 3).heard + (slotOf wUp 3).ka * 200000 ≤ absTick wUp
      1023) ∧
    (3 < 4 ∧ inThisStep wFresh 1023 = true ∧ attached wFresh 3 = true ∧ portOf wFresh 3 ≠ 3 ∧ absTick wFresh 1023 < (slotOf wFresh 3).heard + (slotOf
      wFresh 3).ka * 200000) ∧
    (isoSlot wUp = some 1 ∧ attached wUp 1 = true) ∧
    (isoSlot wTc = some 1 ∧ attached wTc 1 = false ∧ wTc.sys.phase = .up ∧ testMode wTc = false ∧ flag wTc CAN_ISO_STAT_CLAIMED = true ∧ (getF wTc
      (HIF_H_CFG_ROLES 1)).testBit 1 = true) := by
  refine ⟨?_, ?_, ?_, ?_⟩ <;> decide +kernel

def wNop : State := frame wUp 3 0x00 []
def wFence : State := frame wUp 3 0x04 []
def wIdent : State := frame wUp 3 0x01 []
def wRepeat : State := frame (modSlot wUp 3 fun x => { x with unrel := [{ code := 0, status := 0, rseq := 255, htag := 1, step := 2, payload := [] }] }) 3 0x05 [255#8, 0#8, 0#8, 0#8]
def wNotify : State := frame wUp 3 0x06 [127#8, 0#8, 0#8, 0#8]
def wNotifyBad : State := frame wUp 3 0x06 [128#8, 0#8, 0#8, 0#8]
def wAttach : State := frame (setF (setF wUp (HIF_H_STAT_ATT 2) 0) (HIF_H_CFG_ROLES 2) 15) 2 0x02 [1#8, 0#8, 0#8, 0#8]
def wDetach : State := frame wUp 3 0x03 []

theorem witness_MailboxCommandsWithoutEffect :
    (starts wNop 3 0x00) ∧
    (starts wFence 3 0x04) ∧
    (starts wIdent 3 0x01) ∧
    (starts wRepeat 3 0x05 ∧ leAt (req wRepeat 3) 1 3 = 0 ∧ ((slotOf wRepeat 3).unrel.any fun r => decide (r.rseq = leAt (req wRepeat 3) 0 1)) = true) ∧
    (starts wNotify 3 0x06 ∧ leAt (req wNotify 3) 0 4 < 128) ∧
    (starts wNotifyBad 3 0x06 ∧ 128 ≤ leAt (req wNotifyBad 3) 0 4) := by
  unfold starts
  refine ⟨?_, ?_, ?_, ?_, ?_, ?_⟩ <;> decide +kernel

theorem witness_AttachAndDetach :
    (starts wAttach 2 0x02 ∧ attachStatus wAttach 2 (req wAttach 2) = stOk ∧ attached wAttach 2 = false) ∧
    (starts wDetach 3 0x03) := by
  unfold starts
  refine ⟨?_, ?_⟩ <;> decide +kernel

/-- PARAM_READ of one register. -/
def readOf (i : Nat) (peek : Bool) : State := frame wUp 3 0x08 (leBytes 2 1 ++ leBytes 2 (if peek then 1 else 0) ++ leBytes 2 i ++ leBytes 2 1)
def wReadPeek : State := readOf (CLE_LP_PER 15) true
def wRead : State := readOf (CLE_LP_PER 15) false
def wReadGap : State := readOf 0xFFFF true

/-- PARAM_WRITE of SCH_QUOTA. -/
def writeOf (v : Nat) : State := frame wUp 3 0x09 (leBytes 2 1 ++ leBytes 2 0 ++ leBytes 2 SCH_QUOTA ++ leBytes 2 0 ++ leBytes 4 0xFFFFFFFF ++ leBytes 4 v)
def wWrite : State := writeOf 100
def wWriteBad : State := frame wUp 3 0x09 (leBytes 2 1 ++ leBytes 2 0 ++ leBytes 2 0xFFFF ++ leBytes 2 0 ++ leBytes 4 0xFFFFFFFF ++ leBytes 4 1)
def wTabRead : State := frame wUp 3 0x0A ([0x47#8, 0x45#8, 0x4F#8, 0#8] ++ leBytes 4 511 ++ leBytes 2 1 ++ [0#8, 0#8])
def wTabWrite : State := frame wUp 3 0x0B ([0x47#8, 0x45#8, 0x4F#8, 0#8] ++ leBytes 4 511 ++ leBytes 2 1 ++ [0#8, 0#8] ++ List.replicate 16 0#8)
def wLease : State := frame wUp 3 0x0C (leBytes 2 1 ++ [0#8, 0#8] ++ [3#8, 0#8] ++ leBytes 2 511)
def wLeaseHeld : State := frame (setHolder wUp kCh 511 (some 0)) 3 0x0C (leBytes 2 1 ++ [0#8, 0#8] ++ [3#8, 0#8] ++ leBytes 2 511)
def wRelease : State := frame (own wUp kCh 511) 3 0x0D (leBytes 2 1 ++ [0#8, 0#8] ++ [3#8, 0#8] ++ leBytes 2 511)
def wGeo : TableId := .geo

theorem witness_ParametersAreRead :
    (starts wReadPeek 3 0x08 ∧ regRow (asked wReadPeek 3) = some ((regRow (asked wReadPeek 3)).get (by decide +kernel)) ∧ readsOne wReadPeek 3 true) ∧
    (starts wReadPeek 3 0x08 ∧ regRow (asked wReadPeek 3) = some ((regRow (asked wReadPeek 3)).get (by decide +kernel)) ∧ shown wReadPeek 3 (asked
      wReadPeek 3) ∧ readsOne wReadPeek 3 true) ∧
    (starts wRead 3 0x08 ∧ regRow (asked wRead 3) = some ((regRow (asked wRead 3)).get (by decide +kernel)) ∧ shown wRead 3 (asked wRead 3) ∧ readsOne
      wRead 3 false ∧ roleOf wRead 3 ≠ 2) ∧
    (starts wReadGap 3 0x08 ∧ regAssigned (asked wReadGap 3) = false ∧ readsOne wReadGap 3 true) := by
  unfold starts readsOne shown
  refine ⟨?_, ?_, ?_, ?_⟩ <;> decide +kernel

theorem witness_ParametersAreWrittenInWholeOrNotAtAll :
    (starts wWrite 3 0x09 ∧ (itemsOutcome wWrite 3).2 = none ∧ leAt (req wWrite 3) 2 2 = 0 ∧ writeWait (writeReq (req wWrite 3)) = none) ∧
    (starts wWriteBad 3 0x09 ∧ (itemsOutcome wWriteBad 3).2 = some (((itemsOutcome wWriteBad 3).2).get (by decide +kernel))) := by
  unfold starts
  refine ⟨?_, ?_⟩ <;> decide +kernel

theorem witness_TablesAreReadAndWritten :
    (starts wTabRead 3 0x0A ∧ reqTable (req wTabRead 3) = some (.stored wGeo) ∧ wGeo ≠ .dly ∧ tableReqOk (.stored wGeo) (req wTabRead 3) = true) ∧
    (starts wTabWrite 3 0x0B ∧ reqTable (req wTabWrite 3) = some (.stored wGeo) ∧ wGeo ∈ wholeTables ∧ tableRole wTabWrite 3 wGeo = true ∧
      entriesStatus wTabWrite 3 wGeo (req wTabWrite 3) = stOk ∧ (wGeo = .ply → flag wTabWrite MAP_PLY_STAT_BUSY = false)) := by
  unfold starts
  refine ⟨?_, ?_⟩ <;> decide +kernel

theorem witness_LeasesAreGrantedAndReleased :
    (starts wLease 3 0x0C ∧ firstRefusal wLease 3 (leAt (req wLease 3) 2 1) (leaseItems (req wLease 3)) 0 = none ∧ leAt (req wLease 3) 2 1 < 4 ∧ leAt
      (req wLease 3) 3 1 = 0) ∧
    (starts wLeaseHeld 3 0x0C ∧ firstRefusal wLeaseHeld 3 (leAt (req wLeaseHeld 3) 2 1) (leaseItems (req wLeaseHeld 3)) 0 = some ((firstRefusal
      wLeaseHeld 3 (leAt (req wLeaseHeld 3) 2 1) (leaseItems (req wLeaseHeld 3)) 0).get (by decide +kernel))) ∧
    (starts wRelease 3 0x0D ∧ roleOf wRelease 3 ≠ 2 ∧ leAt (req wRelease 3) 2 1 < 2 ∧ leAt (req wRelease 3) 3 1 = 0 ∧ ((leaseItems (req wRelease
      3)).any (releaseBad (leAt (req wRelease 3) 2 1))) = false) := by
  unfold starts
  refine ⟨?_, ?_, ?_⟩ <;> decide +kernel

/-- Channel 511 is in use, requested AUTO at every level, and slot 3 holds it; the scheduler runs. -/
def wSch : State :=
  setF (setF (setF (setF (setF (own (tput wUp .sec 511 (leBytes 8 0x80)) kCh 511) SCH_CTRL_EN 1) (SCH_CH_STATE_REQ 511) rqAuto) (SYS_SEC_STATE_REQ 0) rqAuto) (SYS_ZON_STATE_REQ 0) rqAuto)
    SYS_IMPL_STATE_REQ rqAuto

/-- EVENT_POST of one event of channel 511. -/
def postOf (s : State) (w0 : Nat) (tgt : Int) : State :=
  frame s 3 0x10 (leBytes 2 1 ++ leBytes 2 0 ++ leBytes 4 w0 ++ leBytes 5 (unsigned 40 tgt) ++ leBytes 1 0 ++ leBytes 2 0 ++ leBytes 4 0)
def wPost : State := postOf wSch 511 1000000
def wPostFull : State := postOf (setF wSch (SCH_HOST_LIM_LIM 3) 0) 511 1000000

/-- EVENT_CANCEL of slot 1023, generation 255. -/
def cancelOf (s : State) : State := frame s 3 0x11 ([0#8, 0#8, 1#8, 0#8] ++ leBytes 4 (1023 + 255 * 1024))
def wCancel : State := cancelOf (modSlotAt wSch 1023 fun e => { e with state := stPending, gen := 255, d := { e.d with ch := 511, origin := 1, host := 3 } })
def wCancelStale : State := cancelOf wSch
def wCancelDone : State := cancelOf (modSlotAt wSch 1023 fun e => { e with state := stDone, gen := 255, d := { e.d with ch := 511, origin := 1, host := 3, retain := true } })

/-- A tile is allocated, and chunk 3 of it is read or written. -/
def wTile : State := (touchTile wUp 1 1).1
def wTileRead : State := frame wTile 3 0x18 (leBytes 2 1 ++ leBytes 2 1 ++ [3#8, 0#8, 0#8, 0#8])
def wTileWrite : State := frame wTile 3 0x19 (leBytes 2 1 ++ leBytes 2 1 ++ [3#8, 0#8, 0#8, 0#8] ++ List.replicate 1024 1#8)
def wJob : MapJob := { clr := 8, slot := 3 }
def wClearing : State := { wTile with map := { wTile.map with clear := some wJob } }
def wEpochC : GnsEpoch := { seq := 5, tep := 9, step := 3, tb0v := true, clkStep := false, clkb := 0, clkd := 0, recs := [[1#8]] }
def wMeasRead : State := frame { wUp with gns := { wUp.gns with epochs := [wEpochC] } } 3 0x20 (leBytes 4 5 ++ leBytes 2 0 ++ leBytes 2 120)
def wMeasGone : State := frame wUp 3 0x20 (leBytes 4 5 ++ leBytes 2 0 ++ leBytes 2 120)
def wNavRead : State := frame wUp 3 0x21 (leBytes 4 0 ++ [40#8])
def wRtcmNone : State := frame wUp 3 0x22 [1#8, 2#8]

/-- A correction message of type 1074. -/
def wRtcmBody : List Byte := [0xD3#8, 0#8, 7#8, 0x43#8, 0x20#8, 1#8, 2#8, 3#8, 4#8, 5#8]
def wRtcm : State :=
  frame wUp 3 0x22 (wRtcmBody ++ [BitVec.ofNat 8 (crc24q wRtcmBody / 65536), BitVec.ofNat 8 (crc24q wRtcmBody / 256), BitVec.ofNat 8 (crc24q wRtcmBody)])

theorem witness_EventsArePostedAndCancelled :
    (starts wPost 3 0x10 ∧ roleOf wPost 3 ≠ 2 ∧ leAt (req wPost 3) 0 2 = 1 ∧ leAt (req wPost 3) 2 2 = 0 ∧ postRefusal wPost 3 (posted wPost 3) = none
      ∧ passedNow wPost (resolveDesc wPost (posted wPost 3)) = false ∧ mayAllocate wPost (resolveDesc wPost (posted wPost 3)) = true ∧ longestFree
      wPost = some 0) ∧
    (starts wPostFull 3 0x10 ∧ roleOf wPostFull 3 ≠ 2 ∧ leAt (req wPostFull 3) 0 2 = 1 ∧ leAt (req wPostFull 3) 2 2 = 0 ∧ postRefusal wPostFull 3
      (posted wPostFull 3) = none ∧ passedNow wPostFull (resolveDesc wPostFull (posted wPostFull 3)) = false ∧ (mayAllocate wPostFull (resolveDesc
      wPostFull (posted wPostFull 3)) = false ∨ longestFree wPostFull = none)) ∧
    (starts wCancel 3 0x11 ∧ roleOf wCancel 3 ≠ 2 ∧ leAt (req wCancel 3) 0 1 = 0 ∧ leAt (req wCancel 3) 1 1 < 2 ∧ leAt (req wCancel 3) 2 2 = 1 ∧ leAt
      (req wCancel 3) 4 4 < 2 ^ 18 ∧ (slotAt wCancel (handled wCancel 3)).state = stPending ∧ (slotAt wCancel (handled wCancel 3)).gen = leAt (req
      wCancel 3) 4 4 / 1024 ∧ (slotAt wCancel (handled wCancel 3)).d.origin = 1 ∧ (slotAt wCancel (handled wCancel 3)).d.host = 3 ∧ onTrail (slotAt
      wCancel (handled wCancel 3)) = false) ∧
    (starts wCancelStale 3 0x11 ∧ roleOf wCancelStale 3 ≠ 2 ∧ leAt (req wCancelStale 3) 0 1 = 0 ∧ leAt (req wCancelStale 3) 1 1 < 2 ∧ leAt (req
      wCancelStale 3) 2 2 = 1 ∧ leAt (req wCancelStale 3) 4 4 < 2 ^ 18 ∧ ((slotAt wCancelStale (handled wCancelStale 3)).state = stFree ∨ (slotAt
      wCancelStale (handled wCancelStale 3)).gen ≠ leAt (req wCancelStale 3) 4 4 / 1024)) ∧
    (starts wCancelDone 3 0x11 ∧ roleOf wCancelDone 3 ≠ 2 ∧ leAt (req wCancelDone 3) 0 1 = 0 ∧ leAt (req wCancelDone 3) 1 1 < 2 ∧ leAt (req
      wCancelDone 3) 2 2 = 1 ∧ leAt (req wCancelDone 3) 4 4 < 2 ^ 18 ∧ 5 ≤ (slotAt wCancelDone (handled wCancelDone 3)).state ∧ (slotAt wCancelDone
      (handled wCancelDone 3)).gen = leAt (req wCancelDone 3) 4 4 / 1024 ∧ (slotAt wCancelDone (handled wCancelDone 3)).d.retain = true ∧ (slotAt
      wCancelDone (handled wCancelDone 3)).d.origin = 1 ∧ (slotAt wCancelDone (handled wCancelDone 3)).d.host = 3) := by
  unfold starts
  refine ⟨?_, ?_, ?_, ?_, ?_⟩ <;> decide +kernel

theorem witness_TilesAreReadAndWritten :
    (starts wTileRead 3 0x18 ∧ tileReadOk (req wTileRead 3) = true) ∧
    (starts wTileWrite 3 0x19 ∧ ownerOrService wTileWrite 3 = true ∧ tileWriteOk (req wTileWrite 3) = true ∧ flag wTileWrite MAP_PLY_STAT_BUSY = false
      ∧ chunkOf wTileWrite 3 ≤ 3 ∧ leAt (req wTileWrite 3) 5 1 = 0 ∧ (tileAt wTileWrite (tileX wTileWrite 3) (tileY wTileWrite 3)).isSome = true) ∧
    (wClearing.map.clear = some wJob ∧ wJob.clr.testBit 3 = true) := by
  unfold starts
  refine ⟨?_, ?_, ?_⟩ <;> decide +kernel

theorem witness_MeasurementsAndCorrections :
    (starts wMeasRead 3 0x20 ∧ leAt (req wMeasRead 3) 6 2 ≤ 120 ∧ epochOf wMeasRead (leAt (req wMeasRead 3) 0 4) = some ((epochOf wMeasRead (leAt (req
      wMeasRead 3) 0 4)).get (by decide +kernel))) ∧
    (starts wMeasGone 3 0x20 ∧ leAt (req wMeasGone 3) 6 2 ≤ 120 ∧ epochOf wMeasGone (leAt (req wMeasGone 3) 0 4) = none) ∧
    (starts wNavRead 3 0x21) ∧
    (starts wRtcmNone 3 0x22 ∧ sparseGet (fun _ => []) wRtcmNone.gns.rtcm 3 = ([] : List Byte) ∧ (req wRtcmNone 3).all (fun b => decide (b ≠ 0xD3#8))
      = true) ∧
    (starts wRtcm 3 0x22 ∧ sparseGet (fun _ => []) wRtcm.gns.rtcm 3 = ([] : List Byte) ∧ (req wRtcm 3).getD 0 0 = 0xD3#8 ∧ (req wRtcm 3).length =
      ((req wRtcm 3).getD 1 0).toNat % 4 * 256 + ((req wRtcm 3).getD 2 0).toNat + 6 ∧ crc24q (req wRtcm 3) = 0 ∧ rtcmKnown (rtcmBits ((req wRtcm
      3).drop 3) 0 12) = true ∧ rtcmBits ((req wRtcm 3).drop 3) 0 12 ∉ [1005, 1006, 1033] ∧ 5 ≤ (req wRtcm 3).length - 3 ∧ flag wRtcm GNS_STAT_SRCV =
      false) := by
  unfold starts
  refine ⟨?_, ?_, ?_, ?_, ?_⟩ <;> decide +kernel

/-- Controller 3 runs; eight transmit buffers; slot 3 reads its FIFO 3. -/
def wCanUp : State :=
  setF (setF (setF (setF (setF wUp (CAN_CTRL_EN 3) 1) (CAN_ELEM_TX_N 3) 8) (CAN_ELEM_TX_DS 3) 7) (CAN_CTRL_FD_EN 3) 1) (CAN_FIFO_CFG_HOST 3 3) 3
def wCanItem : List Byte := [3#8, 0#8] ++ leBytes 2 9 ++ leBytes 4 0 ++ leBytes 4 0x20000000 ++ leBytes 4 8 ++ leBytes 8 0 ++ List.replicate 8 7#8
def wCanSend : State := frame wCanUp 3 0x28 ([3#8, 1#8, 0#8, 0#8] ++ wCanItem)
def wCanRecv : State := frame wCanUp 3 0x29 [3#8, 3#8, 2#8, 0#8]
def wCanAbort : State :=
  frame (setF (setF wCanUp (CAN_TXB_STAT_STATE 3 3) tbPending) (CAN_TXB_STAT_OWNER 3 3) 3) 3 0x2A ([3#8, 0#8] ++ leBytes 8 0xFF)

/-- The right MAC over a challenge passes. -/
theorem macOk_own (s : State) (h : Nat) (n k more extra mac : List Byte) (hn : nonceOf s h = some n) (hk : s.recd.key = some k)
    (hm : mac = hmacSha256 k (macText n h ++ extra)) (hx : more = extra) : macOk s h more mac = true := by
  subst hm hx
  simp [macOk, hn, hk]

/-- A key is set, and slot 3 has a nonce. -/
def wNonce : List Byte := List.replicate 16 5#8
def wKeyed : State := { wUp with recd := { wUp.recd with key := some [1#8, 2#8, 3#8], nonce := some (3, wNonce) } }
def wKeyedBare : State := { wUp with recd := { wUp.recd with key := some [1#8, 2#8, 3#8] } }
def wRecRead : State := frame wUp 3 0x30 (leBytes 2 16383 ++ leBytes 2 30)
def wFreeze : State := frame wUp 3 0x31 [1#8, 0#8, 0#8, 0#8]
def wUnfreeze : State := frame { wUp with recd := { wUp.recd with freeze := some 3 } } 3 0x31 [0#8, 0#8, 0#8, 0#8]
def wChallenge : State := frame wKeyedBare 3 0x32 []
def wRecClearOk : State := frame wKeyed 3 0x33 (hmacSha256 [1#8, 2#8, 3#8] (macText wNonce 3 ++ []))
def wRecClearBad : State := frame wKeyedBare 3 0x33 (List.replicate 32 0#8)

theorem witness_CanCommands :
    (starts wCanSend 3 0x28 ∧ roleOf wCanSend 3 ≠ 2 ∧ canOf wCanSend 3 < 4 ∧ leAt (req wCanSend 3) 2 2 = 0 ∧ sendsOne wCanSend 3 = some (3, wCanItem)) ∧
    (starts wCanRecv 3 0x29 ∧ canOf wCanRecv 3 < 4 ∧ leAt (req wCanRecv 3) 1 1 < 4 ∧ leAt (req wCanRecv 3) 3 1 = 0 ∧ flag wCanRecv (CAN_FIFO_CFG_FW
      (canOf wCanRecv 3) (leAt (req wCanRecv 3) 1 1)) = false ∧ getF wCanRecv (CAN_FIFO_CFG_HOST (canOf wCanRecv 3) (leAt (req wCanRecv 3) 1 1)) = 3) ∧
    (starts wCanAbort 3 0x2A ∧ roleOf wCanAbort 3 ≠ 2 ∧ canOf wCanAbort 3 < 4 ∧ leAt (req wCanAbort 3) 1 1 = 0) := by
  unfold starts
  refine ⟨?_, ?_, ?_⟩ <;> decide +kernel

theorem witness_RecorderCommands :
    (starts wRecRead 3 0x30 ∧ roleOf wRecRead 3 ≠ 1 ∧ leAt (req wRecRead 3) 0 2 < 16384 ∧ inService wRecRead = true) ∧
    (starts wFreeze 3 0x31 ∧ ownerOrService wFreeze 3 = true ∧ leAt (req wFreeze 3) 1 3 = 0 ∧ inService wFreeze = true ∧ leAt (req wFreeze 3) 0 1 = 1
      ∧ wFreeze.recd.freeze = none) ∧
    (starts wUnfreeze 3 0x31 ∧ ownerOrService wUnfreeze 3 = true ∧ leAt (req wUnfreeze 3) 1 3 = 0 ∧ inService wUnfreeze = true ∧ leAt (req wUnfreeze
      3) 0 1 = 0 ∧ wUnfreeze.recd.freeze = some 3) ∧
    (starts wChallenge 3 0x32 ∧ ownerOrService wChallenge 3 = true ∧ inService wChallenge = true ∧ wChallenge.recd.key.isSome = true ∧
      wChallenge.recd.lock = false) ∧
    (starts wRecClearBad 3 0x33 ∧ ownerOrService wRecClearBad 3 = true ∧ inService wRecClearBad = true ∧ macOk wRecClearBad 3 [] (req wRecClearBad 3)
      = false) := by
  unfold starts
  refine ⟨?_, ?_, ?_, ?_, ?_⟩ <;> decide +kernel

/-- The MAC is the one of the challenge, whatever the serial number. -/
theorem witness_RecorderCommands_mac :
    (starts wRecClearOk 3 0x33 ∧ ownerOrService wRecClearOk 3 = true ∧ inService wRecClearOk = true) ∧ macOk wRecClearOk 3 [] (req wRecClearOk 3) =
      true := by
  refine ⟨?_, macOk_own _ _ _ _ _ _ _ rfl rfl rfl rfl⟩
  unfold starts
  decide +kernel

/-- An update of slot 3 to image 1: `m` of 256 bytes are written. -/
def wUpdate (m : Nat) : Update := { slot := 3, image := 1, length := 256, written := List.replicate m 9#8, erasing := false }
def wUpdating (m : Nat) : State := { wUp with boot := { wUp.boot with update := some (wUpdate m) } }
def wFwInfo : State := frame wUp 3 0x38 []
def wFwBegin : State := frame wUp 3 0x39 ([1#8, 0#8, 0#8, 0#8] ++ leBytes 4 12582912)
def wFwData : State := frame (wUpdating 252) 3 0x3A (leBytes 4 252 ++ List.replicate 4 5#8)
def wFwEnd : State := frame (wUpdating 256) 3 0x3B []
def wFwEndShort : State := frame (wUpdating 255) 3 0x3B []
def wHead : ImageHead := { sigOk := true, stepping := true, version := 0x03000001#32, svn := 9 }
def wFwCommit : State := frame (setImage wUp wUp.boot.running { imageAt wUp wUp.boot.running with state := imTrial }) 3 0x3D []
def wFwCommitNone : State := frame wUp 3 0x3D []
def wErase : Update := { wUpdate 0 with erasing := true }
def wErasing : State := { wUp with boot := { wUp.boot with update := some wErase } }
def wCfgSave : State := frame wUp 3 0x3E [0#8, 0#8, 0#8, 0#8]
def wBank : Nat × CfgBank := (1, { CfgBank.empty with valid := true, seq := 7 })
def wSaving : State := { wUp with boot := { wUp.boot with saving := some wBank } }
def wCfgErase : State := frame wUp 3 0x3E [1#8, 0#8, 0#8, 0#8]
def wNonceK : List Byte := List.replicate 16 5#8
def wNewKey : List Byte := List.replicate 32 4#8
def wKeyFirst : State := frame wUp 3 0x3E ([2#8, 0#8, 0#8, 0#8] ++ wNewKey)
def wKeyNext : State :=
  frame { wUp with recd := { wUp.recd with key := some [1#8, 2#8, 3#8], nonce := some (3, wNonceK) } } 3 0x3E
    ([2#8, 0#8, 0#8, 0#8] ++ wNewKey ++ hmacSha256 [1#8, 2#8, 3#8] (macText wNonceK 3 ++ wNewKey))
def wKeyBad : State :=
  frame { wUp with recd := { wUp.recd with key := some [1#8, 2#8, 3#8] } } 3 0x3E ([2#8, 0#8, 0#8, 0#8] ++ wNewKey ++ List.replicate 32 0#8)
def wSysReset : State := frame wUp 3 0x3F [3#8, 0#8, 0#8, 0#8]
def wSysResetOn : State := setF wSysReset DRV_CTRL_EN 1
def wActivate : State := frame (setImage wUp 1 { state := imUntested, head := wHead, bytes := none }) 3 0x3C [1#8, 0#8, 0#8, 0#8]
def wActivateOn : State := setF wActivate CLE_CTRL_EN 1

theorem witness_FirmwareUpdates :
    (ownerOrService wFwInfo 3 = true ∧ starts wFwInfo 3 0x38) ∧
    (ownerOrService wFwBegin 3 = true ∧ starts wFwBegin 3 0x39 ∧ leAt (req wFwBegin 3) 0 1 < 2 ∧ leAt (req wFwBegin 3) 1 3 = 0 ∧ inRange 256 12582912
      (leAt (req wFwBegin 3) 4 4) = true ∧ leAt (req wFwBegin 3) 4 4 % 4 = 0 ∧ wFwBegin.boot.update = none ∧ leAt (req wFwBegin 3) 0 1 ≠
      wFwBegin.boot.running) ∧
    (ownerOrService wFwData 3 = true ∧ wFwData.boot.update = some (wUpdate 252) ∧ (wUpdate 252).slot = 3 ∧ (wUpdate 252).erasing = false ∧ starts
      wFwData 3 0x3A ∧ leAt (req wFwData 3) 0 4 = (wUpdate 252).written.length ∧ (wUpdate 252).written.length + ((req wFwData 3).drop 4).length ≤
      (wUpdate 252).length) ∧
    (ownerOrService wFwEnd 3 = true ∧ wFwEnd.boot.update = some (wUpdate 256) ∧ (wUpdate 256).slot = 3 ∧ (wUpdate 256).erasing = false ∧ starts wFwEnd
      3 0x3B ∧ (wUpdate 256).image < 2 ∧ (wUpdate 256).length ≤ (wUpdate 256).written.length ∧ imageReason wFwEnd wHead = 0) ∧
    (ownerOrService wFwEndShort 3 = true ∧ wFwEndShort.boot.update = some (wUpdate 255) ∧ (wUpdate 255).slot = 3 ∧ (wUpdate 255).erasing = false ∧
      starts wFwEndShort 3 0x3B ∧ (wUpdate 255).image < 2 ∧ ((wUpdate 255).written.length < (wUpdate 255).length ∨ imageReason wFwEndShort wHead ≠ 0)) ∧
    (ownerOrService wFwCommit 3 = true ∧ starts wFwCommit 3 0x3D ∧ trialRuns wFwCommit = true ∧ wFwCommit.boot.running < 2) ∧
    (ownerOrService wFwCommitNone 3 = true ∧ starts wFwCommitNone 3 0x3D ∧ trialRuns wFwCommitNone = false) ∧
    (wErasing.boot.update = some wErase ∧ wErase.erasing = true) := by
  unfold starts
  refine ⟨?_, ?_, ?_, ?_, ?_, ?_, ?_, ?_⟩ <;> decide +kernel

theorem witness_ConfigurationAndKeys :
    (cfgStarts wCfgSave 3 0 ∧ ownerOrService wCfgSave 3 = true ∧ testMode wCfgSave = false ∧ wCfgSave.boot.saving = none ∧ saveAllowed wCfgSave =
      true) ∧
    (wSaving.boot.saving = some wBank ∧ wBank.1 < 2) ∧
    (roleOf wCfgErase 3 = 3 ∧ testMode wCfgErase = false ∧ cfgStarts wCfgErase 3 1) ∧
    (roleOf wKeyFirst 3 = 3 ∧ testMode wKeyFirst = false ∧ cfgStarts wKeyFirst 3 2 ∧ wKeyFirst.recd.key = none) ∧
    (roleOf wKeyBad 3 = 3 ∧ testMode wKeyBad = false ∧ cfgStarts wKeyBad 3 2 ∧ wKeyBad.recd.key.isSome = true ∧ macOk wKeyBad 3 (((req wKeyBad 3).drop
      4).take 32) ((req wKeyBad 3).drop 36) = false) := by
  unfold cfgStarts starts
  refine ⟨?_, ?_, ?_, ?_, ?_⟩ <;> decide +kernel

/-- The MAC is the one of the challenge, whatever the serial number. -/
theorem witness_ConfigurationAndKeys_mac :
    (roleOf wKeyNext 3 = 3 ∧ testMode wKeyNext = false ∧ cfgStarts wKeyNext 3 2 ∧ wKeyNext.recd.key.isSome = true) ∧ macOk wKeyNext 3 (((req wKeyNext
      3).drop 4).take 32) ((req wKeyNext 3).drop 36) = true := by
  refine ⟨?_, macOk_own _ _ _ _ _ _ _ rfl rfl rfl rfl⟩
  unfold cfgStarts starts
  decide +kernel

theorem witness_ResetsByCommand :
    (starts wSysReset 3 0x3F ∧ ownerOrService wSysReset 3 = true ∧ leAt (req wSysReset 3) 1 3 = 0 ∧ (leAt (req wSysReset 3) 0 1 = 0 ∨ ((leAt (req
      wSysReset 3) 0 1 = 2 ∨ leAt (req wSysReset 3) 0 1 = 3) ∧ roleOf wSysReset 3 = 3)) ∧ mayReset wSysReset = true) ∧
    (starts wSysResetOn 3 0x3F ∧ ownerOrService wSysResetOn 3 = true ∧ leAt (req wSysResetOn 3) 1 3 = 0 ∧ (leAt (req wSysResetOn 3) 0 1 = 0 ∨ ((leAt
      (req wSysResetOn 3) 0 1 = 2 ∨ leAt (req wSysResetOn 3) 0 1 = 3) ∧ roleOf wSysResetOn 3 = 3)) ∧ mayReset wSysResetOn = false) ∧
    (starts wActivate 3 0x3C ∧ ownerOrService wActivate 3 = true ∧ leAt (req wActivate 3) 0 1 < 2 ∧ leAt (req wActivate 3) 1 3 = 0 ∧ (imageState
      wActivate (leAt (req wActivate 3) 0 1) = imUntested ∨ imageState wActivate (leAt (req wActivate 3) 0 1) = imValid) ∧ mayReset wActivate = true) ∧
    (starts wActivateOn 3 0x3C ∧ ownerOrService wActivateOn 3 = true ∧ leAt (req wActivateOn 3) 0 1 < 2 ∧ leAt (req wActivateOn 3) 1 3 = 0 ∧
      (imageState wActivateOn (leAt (req wActivateOn 3) 0 1) = imUntested ∨ imageState wActivateOn (leAt (req wActivateOn 3) 0 1) = imValid) ∧
      mayReset wActivateOn = false) := by
  unfold starts
  refine ⟨?_, ?_, ?_, ?_⟩ <;> decide +kernel

def wAlarms : State := winSet (own (tput wUp .dly 511 (List.replicate 28 0#8 ++ leBytes 4 127)) kCh 511) 3 ACT_CH_SEL 511
def wChHeld : State := own wUp kCh 511
def wSecHeld : State := own wUp kSec 63
def wMapOff : State := setF wUp MAP_CTRL_EN 0
def wMapBusy : State := setF wUp MAP_STAT_CLR_BUSY 1
def wRole1 : State := setF wUp (HIF_H_STAT_ROLE 3) 1
def wPolyBad : State := tput wUp .ply 63 (leBytes 1 5 ++ List.replicate 7 0#8)
def wPass : State := { setF wUp MAP_PLY_STAT_BUSY 1 with map := { wUp.map with pass := some { clr := 0, slot := 3 } } }

theorem witness_SelectorsOpenTheSlotsOwnWindow :
    (serves wUp 3 ∧ 54 < 512 ∧ startsNow wUp 3 [item KIN_CH_SEL 0xFFFFFFFF#32 (BitVec.ofNat 32 54)]) ∧
    (serves wUp 3 ∧ 54 < 512 ∧ startsNow wUp 3 [item SCH_CH_SEL 0xFFFFFFFF#32 (BitVec.ofNat 32 54)]) ∧
    (serves wUp 3 ∧ 54 < 512 ∧ startsNow wUp 3 [item MAP_CH_SEL 0xFFFFFFFF#32 (BitVec.ofNat 32 54)]) ∧
    (serves wUp 3 ∧ 54 < 512 ∧ startsNow wUp 3 [item ACT_CH_SEL 0xFFFFFFFF#32 (BitVec.ofNat 32 54)]) ∧
    (serves wUp 3 ∧ 1023 < 1024 ∧ startsNow wUp 3 [item SCH_SLOT_SEL 0xFFFFFFFF#32 (BitVec.ofNat 32 1023)]) ∧
    (serves wUp 3 ∧ 54 < 192 ∧ startsNow wUp 3 [item GNS_SLOT_SEL 0xFFFFFFFF#32 (BitVec.ofNat 32 54)]) := by
  unfold startsNow serves
  refine ⟨?_, ?_, ?_, ?_, ?_, ?_⟩ <;> decide +kernel

theorem witness_StateWordsAndEnables :
    (serves wAlarms 3 ∧ 3 < 4 ∧ 511 < kindSize 3 ∧ holds wAlarms 3 3 511 = true ∧ reqOk (3, 511) 1#32 = true ∧ 1#32 = 1#32 &&& 7#32 ∧ startsNow
      wAlarms 3 [item (stateWord 3 511) 0xFFFFFFFF#32 1#32]) ∧
    (serves wUp 3 ∧ 3 < 4 ∧ 54 < kindSize 3 ∧ holds wUp 3 3 54 = false ∧ startsNow wUp 3 [item (stateWord 3 54) 0xFFFFFFFF#32 0xFFFFFFFF#32]) ∧
    (serves wUp 3 ∧ ownerOrService wUp 3 = true ∧ bitsOf (rd wUp KIN_CTRL) 3 2 ≠ 3 ∧ startsNow wUp 3 (putFlag KIN_CTRL_EN true)) ∧
    (serves wUp 3 ∧ ownerOrService wUp 3 = true ∧ startsNow wUp 3 (putFlag SCH_CTRL_EN true)) ∧
    (serves wUp 3 ∧ ownerOrService wUp 3 = true ∧ (true = false ∨ flag wUp MAP_STAT_CLR_BUSY = false) ∧ startsNow wUp 3 (putFlag MAP_CTRL_EN true)) ∧
    (serves wMapBusy 3 ∧ ownerOrService wMapBusy 3 = true ∧ flag wMapBusy MAP_STAT_CLR_BUSY = true ∧ startsNow wMapBusy 3 (putFlag MAP_CTRL_EN true)) ∧
    (serves wUp 2 ∧ ownerOrService wUp 2 = false ∧ startsNow wUp 2 (putFlag KIN_CTRL_EN true)) ∧
    (serves wUp 2 ∧ ownerOrService wUp 2 = false ∧ startsNow wUp 2 (putFlag SCH_CTRL_EN true)) ∧
    (serves wUp 2 ∧ ownerOrService wUp 2 = false ∧ startsNow wUp 2 (putFlag MAP_CTRL_EN true)) ∧
    (serves wAlarms 3 ∧ actSel wAlarms 3 = 511 ∧ holds wAlarms 3 kCh 511 = true ∧ 54 < 128 ∧ 0 < 54 ∧ startsNow wAlarms 3 [item ACT_CH_ALM 0x7F#32
      (BitVec.ofNat 32 54)]) := by
  unfold startsNow serves
  refine ⟨?_, ?_, ?_, ?_, ?_, ?_, ?_, ?_, ?_, ?_⟩ <;> decide +kernel

theorem witness_MapClearsAndPasses :
    (serves wUp 3 ∧ ownerOrService wUp 3 = true ∧ flag wUp MAP_CTRL_EN = false ∧ flag wUp MAP_STAT_CLR_BUSY = false ∧ startsNow wUp 3 (putFlag
      MAP_CLR_COV true)) ∧
    (serves wUp 3 ∧ ownerOrService wUp 3 = true ∧ flag wUp MAP_CTRL_EN = false ∧ flag wUp MAP_STAT_CLR_BUSY = false ∧ startsNow wUp 3 (putFlag
      MAP_CLR_EXC true)) ∧
    (serves wUp 3 ∧ ownerOrService wUp 3 = true ∧ flag wUp MAP_CTRL_EN = false ∧ flag wUp MAP_STAT_CLR_BUSY = false ∧ startsNow wUp 3 (putFlag
      MAP_CLR_ZONE true)) ∧
    (serves wUp 3 ∧ ownerOrService wUp 3 = true ∧ flag wUp MAP_CTRL_EN = false ∧ flag wUp MAP_STAT_CLR_BUSY = false ∧ startsNow wUp 3 (putFlag
      MAP_CLR_ALL true)) ∧
    (serves wMapBusy 3 ∧ ownerOrService wMapBusy 3 = true ∧ flag wMapBusy MAP_STAT_CLR_BUSY = true ∧ reqUsed (slotOf wMapBusy 3) + frameSize 16 ≤
      ringBytes) ∧
    (serves wUp 3 ∧ ownerOrService wUp 3 = true ∧ flag wUp MAP_STAT_CLR_BUSY = false ∧ flag wUp MAP_PLY_STAT_BUSY = false ∧ headersOk wUp = true ∧
      startsNow wUp 3 (putFlag MAP_PLY_CTRL_GO true)) ∧
    (serves wPolyBad 3 ∧ ownerOrService wPolyBad 3 = true ∧ flag wPolyBad MAP_STAT_CLR_BUSY = false ∧ flag wPolyBad MAP_PLY_STAT_BUSY = false ∧ 63 <
      64 ∧ polyBad (polyHead wPolyBad 63) = true ∧ ((List.range 63).all fun q => !polyBad (polyHead wPolyBad q)) = true ∧ startsNow wPolyBad 3
      (putFlag MAP_PLY_CTRL_GO true)) ∧
    (wPass.map.pass.isSome = true) := by
  unfold startsNow serves
  refine ⟨?_, ?_, ?_, ?_, ?_, ?_, ?_, ?_⟩ <;> decide +kernel

/-! ### Operands that name no instance of the part are refused -/

theorem test_wf_refuses_1 :
    ([
      .thermalShutdown 6 0, .pllLock 3 0, .pllUnlock 3 0, .retainTimeout ladleSize, .confirmTimeout ladleSize, .mismatchSet 512,
      .edgeFire 32, .peakEnd 8, .gridRise 32, .pulseFall 32, .sensedReleaseEnd 32, .openLoadOn 32 0, .openLoadOff 32, .lsOvercurrent 32 0,
      .shortToGround 32 0, .hsOvercurrent 8 0, .chOvertemp 32 0, .tempWarning 32, .hsOvertemp 8 0, .groupUndervoltage 8 0,
      .groupOvervoltage 8 0, .autoProtectionRelease true 8 0, .autoProtectionRelease true 0 5, .drvEn 4 true, .groupEn 4 0 true,
      .groupEn 0 8 true, .resume 4 0, .resume 0 32, .resumeAll 4, .drvModeWrite 4 0 0, .drvModeWrite 0 32 0, .drvModeWrite 0 0 4] : List Instr).all (fun i => !i.wf) = true := by
  decide +kernel

theorem test_wf_refuses_2 :
    ([
      .pairWrite 4 0 true, .pairWrite 0 32 true, .protectionFlagClear 4 true 0 0#32, .ringBreak 2 0, .ringBreak 0 (nodeCount + 1),
      .reportAreaTimeout 2 0, .reportAreaTimeout 0 nodeCount, .tagRelease 2 0 0, .tagRelease 0 nodeCount 0, .tagRelease 0 0 15,
      .fjlEn 4 0 true, .fjlEn 0 2 true, .heal 4 0, .heal 0 2, .fjlResumeAll 4 0, .fjlResumeAll 0 2, .ringSafeWrite 4 0 true,
      .ringSafeWrite 0 2 true, .nodeResume 4 0 0, .nodeResume 0 2 0, .nodeResume 0 0 30, .nodeClrFlt 4 0 0, .nodeClrFlt 0 2 0,
      .nodeClrFlt 0 0 30, .chApply 4 0, .chApply 0 2, .loopSample 16, .loopOutput 16, .saturationAlarm 16, .loopModeWrite 4 0 0,
      .loopModeWrite 0 16 0, .loopModeWrite 0 0 4] : List Instr).all (fun i => !i.wf) = true := by
  decide +kernel

theorem test_wf_refuses_3 :
    ([
      .cleEn 4 true, .injGo 4 0, .injGo 0 512, .injStop 4, .capArm 4 0, .capArm 0 2048, .capAbort 4, .periodBoundary 8,
      .shadowWrite 4 0 2 0#32 0#32, .shadowWrite 0 8 2 0#32 0#32, .pwmLoadall 4 0, .pwmLoadall 0 256, .pwmStart 4 0 true, .pwmStart 0 8 true,
      .tripClear 4 0 0, .tripClear 0 8 0, .tripClear 0 0 4, .pwmResume 4 0, .pwmResume 0 8, .delayLineLock 256, .serialReadStart 8,
      .quadTransition 12 true true 0 0, .indexEdge 8 true 0 0, .speedWindowEnd 22, .wheelPulse 4 true true 0 0, .flowEdge 8 true 0,
      .portModeWrite 4 0 0, .portModeWrite 0 8 0, .portModeWrite 0 0 4, .portFaultClear 4 0 0, .portFaultClear 0 8 0, .portFaultClear 0 0 16] : List Instr).all (fun i => !i.wf) = true := by
  decide +kernel

theorem test_wf_refuses_4 :
    ([
      .ainConversion 16 0, .ainConversion 0 65536, .ainFault 16, .ainFaultClear 16, .imuXferWrite 4 0 0, .imuXferWrite 0 256 0,
      .imuXferWrite 0 0 256, .imuXferRead 4 0 0, .imuXferRead 0 256 0, .imuXferRead 0 0 256, .acqDwell 192 true,
      .aidedSearch 192 0 true true, .lostHoldExpiry 192 0, .antOpen 2, .antShort 2 0, .biasReclose 2 0, .gnsRst 4, .slotPin 4 0#32,
      .ppsPulse 2 0, .tbSnap 4, .tbSet 4 0 0#64, .tbSet 0 4 0#64, .tbStep 4 0 true 0#64, .tbStep 0 4 true 0#64, .tbSlew 4 0 0#64,
      .tbSlew 0 4 0#64, .stepAtSecond 4 0, .slewComplete 4 0, .insert 4, .bypass 4, .relayFaultClear 4, .canEn 4 0 true] : List Instr).all (fun i => !i.wf) = true := by
  decide +kernel

theorem test_wf_refuses_5 :
    ([
      .canEn 0 4 true, .busSync 4, .txAttemptEnd 4 0 0 0 0, .txAttemptEnd 0 0 0 7 0, .txAttemptEnd 0 0 0 0 128,
      .canError 4 0 1 true true true, .canError 0 0 7 true true true, .transmitAtTime 4 0 0, .transmitAtTime 0 64 0, .lateWinExpiry 4 0 0,
      .lateWinExpiry 0 64 0, .ttSlot 16 0 0, .ttSlot 0 64 0, .ttWindowExpiry 16 0 0, .ttWindowExpiry 0 64 0, .boDelayExpiry 4 0,
      .recover 4 0, .recover 0 4, .recoveryDone 4, .addressClaimed 254, .limitReached 56, .limitLeft 56, .avsModeWrite 4 false 0,
      .crossTimeout 14 0, .crossResync 14 0, .blockReset 4 0#32, .winAck 256 0, .windowFreeze 16384 true 0, .keepAliveExpiry 4 0, .nop 4,
      .identify 4, .attach 4] : List Instr).all (fun i => !i.wf) = true := by
  decide +kernel

theorem test_wf_refuses_6 :
    ([
      .detach 4, .fence 4, .rspRepeat 4, .notifyCfg 4, .paramRead 4, .paramWrite 4, .stateWordWrite 4 0 0 0#32, .stateWordWrite 0 4 0 0#32,
      .kinEn 4 true, .schEn 4 true, .mapEn 4 true, .kinChSel 4 0#32, .schSlotSel 4 0#32, .schChSel 4 0#32, .mapChSel 4 0#32,
      .actChSel 4 0#32, .gnsSlotSel 4 0#32, .alarmFlagClear 4 0, .alarmFlagClear 0 128, .clrCov 4, .clrExc 4, .clrZone 4, .clrAll 4,
      .rasterGo 4, .tableRead 4, .tableWrite 4, .lease 4, .release 4, .eventPost 4, .eventCancel 4, .tileRead 4, .tileWrite 4] : List Instr).all (fun i => !i.wf) = true := by
  decide +kernel

theorem test_wf_refuses_7 :
    ([
      .gnsMeasRead 4, .gnsNavRead 4, .rtcmWrite 4, .canSend 4, .canRecv 4, .canAbort 4, .recRead 4, .recFreeze 4, .recChallenge 4,
      .recClear 4, .fwInfo 4, .fwBegin 4, .fwData 4, .fwActivate 4, .fwCommit 4, .cfgSave 4, .cfgErase 4, .keySet 4, .sysReset 4,
      .phyLinkChange 2 true 0 0, .phyLinkChange 0 true 8 0, .pwmCmpEvent 8 0, .pwmCmpEvent 0 3, .pwmPrdEvent 8, .ppsPulseEnd 2 0,
      .emuOutputEdge 2 0, .speedSignalEdge 2 true true 0, .ptpMasterLoss 2 0, .syncInterval 2 0, .brownOut 1 0,
      .autoProtectionRelease false 32 0, .autoProtectionRelease false 0 4] : List Instr).all (fun i => !i.wf) = true := by
  decide +kernel

theorem test_wf_refuses_8 :
    ([
      .protectionFlagClear 0 true 8 0, .protectionFlagClear 0 false 32 0, .enableLoss true false 0,
      .kinematicStep [{ g := 8, i := 0, t := 0, runs := [] }] [], .kinematicStep [{ g := 0, i := 2, t := 0, runs := [] }] [],
      .pwmTrip { g := 8, i := 0, t := 0, runs := [] }, .peakCurrentReached 32 0 0 [], .motionReport 32 0 [], .motionReport 0 0 [4096],
      .windowClose 32 0 [], .windowClose 0 0 [4096], .peakCurrentReached 0 0 0 [4096], .pullinToTrack 192 [], .trackLoss 192 0 [],
      .kinematicStep [] [.sec 64 true], .kinematicStep [] [.rate 8 0], .kinematicStep [] [.rate 0 (2 ^ 32)],
      .kettleTick [{ kind := 0, n := 32, v := 0 }], .ringCycle 2 wBack,
      .ringCycle 0 { wBack with nodes := [{ node := nodeCount, cmd := [], rpt := [], via := 0 }] },
      .ringCycle 0 { wBack with probes := [{ port := 2, id := 0#8, at_ := 0 }] }, .serialReadDone 8 wWord,
      .measEpoch 0 [{ wMeas with slot := 192 }] [] wRf wRf true, .measEpoch 0 [wMeas, wMeas] [] wRf wRf true,
      .solution 0 { wSol with type := 5 }, .solution 0 { wSol with latency := 36 }, .solution 0 { wSol with priv := List.replicate 25 0 },
      .navUnit 192 0 0 true 0 [] none, .navUnit 0 2 0 true 0 [] none, .ethFrameRx { wFrame with port := 2 },
      .ethFrameRx { wFrame with rx := 1 }, .canFrameRx 4 0 wCanFrame true] : List Instr).all (fun i => !i.wf) = true := by
  decide +kernel

theorem test_wf_refuses_9 :
    ([
      .canFrameRx 0 0 { wCanFrame with id := 2 ^ 11 } true, .canFrameRx 0 0 { wCanFrame with xtd := true, id := 2 ^ 29 } true,
      .canFrameRx 0 0 { wCanFrame with dlc := 16 } true, .canFrameRx 0 0 { wCanFrame with brs := true } true,
      .canFrameRx 0 0 { wCanFrame with rtr := true, fdf := true, data := [] } true, .canFrameRx 0 0 { wCanFrame with data := [] } true,
      .canError 0 0 0 true true true, .crossTimeout 1 0, .crossResync 1 0, .avsModeWrite 0 true 1024, .avsModeWrite 0 false 4,
      .shadowWrite 0 0 1 0 0, .shadowWrite 0 0 7 0 0, .monSample [], .slackRun [], .blockReset 4 0, .blockResetRelease 11, .winRead [2#8] 0,
      .winWrite [1#8] 0, .reqWrite [1#8] 0, .rspRead [1#8] 0, .udpDatagram 0 0x10000#32 [] 0, .canbSegment [] 0,
      .canbSegment (List.replicate 65 0#8) 0, .fwEnd 4 wHead, .chopPeriod 8 0 [], .chopPeriod 0 0 [(31, 0)], .stateWordWrite 0 1 8 0,
      .stateWordWrite 0 0 1 0] : List Instr).all (fun i => !i.wf) = true := by
  decide +kernel

theorem test_wf_admits : ([.edgeFire 31, .groupEn 3 7 true, .ringBreak 1 nodeCount, .loopSample 15, .quadTransition 11 true false 1 0, .acqDwell 191 true, .canFrameRx 3 0 wCanFrame true, .stateWordWrite 3 3 511 0, .eventPost 3, .crossTimeout 13 0] : List Instr).all Instr.wf = true := by
  decide +kernel

/-- An operand that names no instance stops with the fault of its own name, and changes nothing else. -/
theorem test_no_instance : execEdgeFire 32 State.reset = .fault .noInstance := rfl

end Sys2Proof.Tests
end

namespace Sys2Proof.Mailbox

open Sys2Proof Sys2Proof.Machine

/-! ### Bytes (R5) -/

theorem leNat_lt (l : List Byte) : leNat l < 256 ^ l.length := by
  induction l with
  | nil => decide
  | cons b r ih =>
    have hb : b.toNat < 256 := b.isLt
    simp only [leNat, List.length_cons, Nat.pow_succ]
    omega

/-- An `n`-byte number is below `256 ^ n`, whether or not the string reaches that far. -/
theorem leAt_lt (b : List Byte) (o n : Nat) : leAt b o n < 256 ^ n :=
  Nat.lt_of_lt_of_le (leNat_lt _) (Nat.pow_le_pow_right (by decide) (List.length_take_le _ _))

/-! ### One slot among the slots -/

section Slots

variable (s : State) (h g : Nat)

@[simp] theorem slotOf_modSlot (f : HostSlot → HostSlot) : slotOf (modSlot s h f) h = f (slotOf s h) := sparseGet_mod _ _ _ _

variable {g h} in
theorem slotOf_modSlot_ne (f : HostSlot → HostSlot) (hg : g ≠ h) : slotOf (modSlot s h f) g = slotOf s g :=
  sparseGet_mod_ne _ _ _ _ _ hg

@[simp] theorem slotOf_sendResults (port : Nat) (l : List Result) : slotOf (sendResults s h port l) g = slotOf s g := rfl

@[simp] theorem slotOf_bump (f : Field) (n : Nat) : slotOf (bump s f n) g = slotOf s g := rfl

variable {g h} in
theorem slotOf_roomFor_ne (need : Nat) (hg : g ≠ h) : slotOf (roomFor s h need) g = slotOf s g := by
  unfold roomFor
  split
  · exact slotOf_modSlot_ne _ _ hg
  · rfl

/-- A frame put into one slot's response ring leaves the other slots alone. -/
theorem otherSlots_postFrame (code status htag : Nat) (step : Word) (p : List Byte) :
    otherSlots s (postFrame s h code status htag step p) h := by
  intro g hg
  unfold postFrame
  extract_lets s₁ q r s₂
  have h₂ : slotOf s₂ g = slotOf s g := (slotOf_modSlot_ne _ _ hg).trans (slotOf_roomFor_ne _ _ hg)
  split <;> exact h₂

theorem otherSlots_postResult (code status htag : Nat) (step : Word) (p : List Byte) :
    otherSlots s (postResult s h code status htag step p) h := by
  intro g hg
  unfold postResult
  rw [otherSlots_postFrame _ _ _ _ _ _ _ _ hg]
  split
  · rfl
  · exact slotOf_bump _ _ _ _

/-- The frame stands last in the ring, under the RSEQ last given (R388). -/
theorem lastResult_postFrame (code status htag : Nat) (step : Word) (p : List Byte) :
    lastResult (postFrame s h code status htag step p) h = some
      { code := code, status := status, rseq := (slotOf (postFrame s h code status htag step p) h).rseq, htag := htag, step := step,
        payload := p } := by
  unfold lastResult postFrame
  extract_lets s₁ q r s₂
  have h₂ : slotOf s₂ h = { slotOf s₁ h with unrel := (slotOf s₁ h).unrel ++ [r], rseq := q } := slotOf_modSlot _ _ _
  split <;> simp [h₂, r]

theorem regs_postFrame (code status htag : Nat) (step : Word) (p : List Byte) :
    (postFrame s h code status htag step p).regs = s.regs :=
  (postFrame_keeps (R := (· = .hif)) s h code status htag step p (by simp [Allows]) (Keeps.refl _ s)).same .regs (by decide)

/-- Posting a result moves no register but the slot's count of rejections (R411). -/
theorem regsBut_postResult (code status htag : Nat) (step : Word) (p : List Byte) :
    regsBut s (postResult s h code status htag step p) [HIF_H_CNT_REJ h] := by
  intro j hj
  have hj' : j ≠ HIF_H_CNT_REJ h := by simpa using hj
  unfold postResult rd
  rw [regs_postFrame]
  split
  · rfl
  · exact rd_bump_ne _ _ _ _ hj'

end Slots

/-! ### What the kept responses decide (R40, R41) -/

section Kept

variable {s t : State}

/-- Taking a frame out of a request ring leaves the kept responses of every slot. -/
theorem deferred_modSlot_ring (s : State) (h : Nat) (l : List Frame) (g : Nat) :
    (slotOf (modSlot s h fun x => { x with ring := l }) g).deferred = (slotOf s g).deferred := by
  by_cases hg : g = h
  · subst hg
    rw [slotOf_modSlot]
  · rw [slotOf_modSlot_ne _ _ hg]

theorem pendingAt_congr (hd : ∀ g, (slotOf t g).deferred = (slotOf s g).deferred) : pendingAt t = pendingAt s := by
  funext b
  simp only [pendingAt, hd]

theorem atNext_congr (hd : ∀ g, (slotOf t g).deferred = (slotOf s g).deferred) (hr : t.sys.running = s.sys.running) (f : Frame) :
    atNext t f = atNext s f := by
  unfold atNext
  rw [pendingAt_congr hd, hr]

theorem answerWait_congr (hd : ∀ g, (slotOf t g).deferred = (slotOf s g).deferred) (hr : t.sys.running = s.sys.running)
    (h : Nat) (f : Frame) (w : Option Nat) (st : Nat) : answerWait t h f w st = answerWait s h f w st := by
  unfold answerWait
  rw [pendingAt_congr hd, hr, hd h]

end Kept

/-! ### The run of the front command (R42, R393) -/

section Run

variable {s : State} {h code : Nat}

theorem nextFrame_of_starts (hs : starts s h code) : nextFrame s h (isCode code) = some (front s h, (slotOf s h).ring.tail) := by
  obtain ⟨-, -, hring, hcode, hmay, hfirst, -⟩ := hs
  unfold front at *
  unfold nextFrame
  cases hr : (slotOf s h).ring with
  | nil => exact absurd hr hring
  | cons f l =>
    simp only [hr, List.headD_cons] at hcode hmay hfirst
    simp [pickFrom, isCode, ownTurn, hcode, hmay, hfirst]

theorem precheck_of_starts (hs : starts s h code) : precheck s h (front s h) = stOk := by
  obtain ⟨-, -, -, -, -, -, hpre⟩ := hs
  exact hpre

/-- The state that the front command of slot `h` leaves, with what its command made of the state and answers. -/
def completed (s : State) (h : Nat) (o : CmdOut) : State :=
  let t := respond o.r.s h (front s h) o (answerWait s h (front s h) o.wait o.r.status)
  { t with sys := { t.sys with atBoundary := false } }

theorem begun_eq (s : State) (h : Nat) :
    let u := modSlot s h fun x => { x with ring := (slotOf s h).ring.tail }
    begun s h = { u with sys := { u.sys with atBoundary := atNext u (front s h) } } := by
  intro u
  rw [atNext_congr (deferred_modSlot_ring s h _) rfl]
  rfl

theorem slotOf_begun_deferred (s : State) (h g : Nat) : (slotOf (begun s h) g).deferred = (slotOf s g).deferred :=
  deferred_modSlot_ring s h (slotOf s h).ring.tail g

/-- A command that starts runs on the state in which its frame has left the ring. -/
theorem runCmd_of_starts (hs : starts s h code) (run : State → List Byte → CmdOut) :
    runCmd s h (isCode code) run = completed s h (run (begun s h) (req s h)) := by
  have hpre : precheck (modSlot s h fun x => { x with ring := (slotOf s h).ring.tail }) h (front s h) = stOk := precheck_of_starts hs
  unfold runCmd
  rw [nextFrame_of_starts hs]
  simp only [hpre, if_true, ← begun_eq]
  rw [answerWait_congr (slotOf_begun_deferred s h) rfl]
  rfl

theorem row_of_starts (hs : starts s h code) (t : State) : row h t = .next t := by
  obtain ⟨hh, -⟩ := hs
  simp [row, answer, hh]

end Run

/-! ### The response (R40, R41, R391) -/

section Response

variable (s : State) (h : Nat)

theorem otherSlots_begun : otherSlots s (begun s h) h := fun _ hg => slotOf_modSlot_ne s _ hg

theorem keeps_begun : Keeps (· ∈ [.regs, .sys, .hif]) s (begun s h) :=
  Keeps.put_sys (by decide) (modSlot_keeps s h _ (by simp [Allows]) (Keeps.refl _ s))

/-- An answer that is no silent OK and waits for nothing is posted at once. -/
theorem respond_posts {u : State} {f : Frame} {o : CmdOut} (hq : o.silent = false) :
    respond u h f o none = postResult u h f.code o.r.status f.htag (stepCnt u) o.r.body := by
  simp [respond, hq]

/-- One that waits is kept behind those that the slot already keeps. -/
theorem deferred_respond {u : State} {f : Frame} {o : CmdOut} (hq : o.silent = false) (w : Nat) :
    (slotOf (respond u h f o (some w)) h).deferred = (slotOf u h).deferred ++
      [{ code := f.code, htag := f.htag, wait := w, status := o.r.status, body := o.r.body, blocks := frameBlocks f }] := by
  simp [respond, hq]

theorem regsBut_respond {u : State} {f : Frame} {o : CmdOut} (hq : o.silent = false) (w : Option Nat) :
    regsBut u (respond u h f o w) [HIF_H_CNT_REJ h] := by
  cases w with
  | none => rw [respond_posts h hq]; exact regsBut_postResult _ _ _ _ _ _ _
  | some w => simp [respond, hq, regsBut, rd]

theorem otherSlots_respond {u : State} {f : Frame} {o : CmdOut} (hq : o.silent = false) (w : Option Nat) :
    otherSlots u (respond u h f o w) h := by
  cases w with
  | none => rw [respond_posts h hq]; exact otherSlots_postResult _ _ _ _ _ _ _
  | some w =>
    intro g hg
    simp only [respond, hq, Bool.false_eq_true, and_false, if_false]
    exact slotOf_modSlot_ne _ _ hg

/-- A command that waits for no event of its own, and left the step count as it was, has its response. -/
theorem completed_responded {o : CmdOut} (hw : o.wait = none) (hq : o.silent = false) (hn : o.r.s.now = s.now) :
    responded s (completed s h o) h o.r.status o.r.body := by
  have hstep : stepCnt o.r.s = stepCnt s := congrArg (BitVec.ofNat 32) hn
  have hslot : ∀ g, slotOf (completed s h o) g =
      slotOf (respond o.r.s h (front s h) o (answerWait s h (front s h) none o.r.status)) g := fun g => by
    rw [← hw]
    rfl
  refine ⟨fun hnone => ?_, fun w hsome => ?_, rfl⟩
  · rw [lastResult, hslot, hnone, respond_posts h hq, hstep]
    exact lastResult_postFrame _ _ _ _ _ _ _
  · rw [hslot, hsome, deferred_respond h hq, List.getLast?_concat]
    rfl

/-- A command that only answers, at once or in its turn: its response stands, and nothing else has moved but the frame that left the
ring and the count of rejections. -/
theorem completed_without_effect (st : Nat) (body : List Byte) :
    let t := completed s h (plain { s := begun s h, status := st, body := body })
    responded s t h st body ∧ regsBut s t [HIF_H_CNT_REJ h] ∧ otherSlots s t h ∧ partsBut s t [.regs, .sys, .hif] := by
  intro t
  have hkeeps : Keeps (· ∈ [.regs, .sys, .hif]) s t :=
    Keeps.put_sys (by decide) (respond_keeps _ _ _ _ _ (by simp [Allows]) (keeps_begun s h) (keeps_begun s h))
  refine ⟨completed_responded s h rfl rfl rfl, ?_, ?_, hkeeps.same, hkeeps.pending⟩
  · exact regsBut_respond h (u := begun s h) rfl _
  · exact fun g hg => (otherSlots_respond h rfl _ g hg).trans (otherSlots_begun s h g hg)

variable {s h} in
/-- A mailbox row whose command starts and only answers. -/
theorem answers_without_effect {i : Instr} {code st : Nat} {body : List Byte} (run : State → List Byte → CmdOut) (hs : starts s h code)
    (hexec : exec i s = row h (runCmd s h (isCode code) run))
    (hrun : run (begun s h) (req s h) = plain { s := begun s h, status := st, body := body }) :
    answers i s fun t =>
      responded s t h st body ∧ regsBut s t [HIF_H_CNT_REJ h] ∧ otherSlots s t h ∧ partsBut s t [.regs, .sys, .hif] := by
  refine ⟨_, ?_, completed_without_effect s h st body⟩
  rw [hexec, row_of_starts hs, runCmd_of_starts hs, hrun]

end Response

/-! ### Reserved indices (R9) -/

section Reserved

variable (s : State) (h : Nat)

theorem regRow_eq_none {i : Nat} (hi : regAssigned i = false) : regRow i = none := by
  simpa [regAssigned] using hi

theorem readReg_unassigned (full : Nat → Bool) (peek : Bool) {i : Nat} (hi : regAssigned i = false) :
    readReg s full h peek i = (s, 0) := by
  simp [readReg, regRow_eq_none hi]

theorem readIndices_one {p : List Byte} (h1 : leAt p 0 2 = 1) (hn : leAt p 6 2 = 1) : readIndices p = [leAt p 4 2] := by
  simp [readIndices, h1, hn]

/-- PARAM_READ of one reserved index answers the value 0 and takes nothing. -/
theorem paramRead_unassigned {p : List Byte} (h1 : leAt p 0 2 = 1) (hn : leAt p 6 2 = 1) (hp : leAt p 2 2 < 2)
    (hi : regAssigned (leAt p 4 2) = false) :
    paramRead s h p = { s := s, status := stUnknownIndex, body := leBytes 2 1 ++ leBytes 2 0 ++ leBytes 4 0 } := by
  have hpast : ¬ 0x10000 < leAt p 4 2 + 1 := by
    have := leAt_lt p 4 2
    omega
  have hp' : ¬ 2 ≤ leAt p 2 2 := by omega
  simp [paramRead, readIndices_one h1 hn, h1, hn, hp', hpast, hi, readRegs, readReg_unassigned, wordBytes]

theorem checkItem_unassigned {w : WItem} (hi : regAssigned w.idx = false) : checkItem s h w = stUnknownIndex := by
  simp [checkItem, hi]

/-- The request of `writesOne` has that item and no other. -/
theorem writeReq_of_writesOne {s : State} {h : Nat} {w : WItem} (hw : writesOne s h = some w) : writeReq (req s h) = [w] := by
  unfold writesOne at hw
  split at hw
  · next w' hl =>
    obtain ⟨-, rfl⟩ : leAt (req s h) 2 2 = 0 ∧ w' = w := by simpa using hw
    exact hl
  · cases hw

/-- PARAM_WRITE whose first item names a reserved index stops there, whatever the item presents. -/
theorem paramWrite_unassigned {p : List Byte} {w : WItem} {l : List WItem} (hl : writeReq p = w :: l) (hi : regAssigned w.idx = false) :
    paramWrite s h p = plain { s := s, status := stUnknownIndex, body := leBytes 2 0 ++ leBytes 2 0 } := by
  simp [paramWrite, writeItems, hl, checkItems, checkItem_unassigned _ h hi, stUnknownIndex, stOk, writeBody]

end Reserved

/-- Settles O6: run on the state in which it began, each of the two commands answers UNKNOWN_INDEX and returns that state. -/
theorem ruleOfUnknownIndices : Obligations.RuleOfUnknownIndices := by
  unfold Obligations.RuleOfUnknownIndices
  constructor
  · intro s h hs h1 hn hp hi
    have hrun := congrArg plain (paramRead_unassigned (begun s h) h h1 hn hp hi)
    exact answers_without_effect (fun s p => plain (paramRead s h p)) hs rfl hrun
  · intro s h w hs hw hi
    have hrun := paramWrite_unassigned (begun s h) h (writeReq_of_writesOne hw) hi
    exact answers_without_effect (fun s p => paramWrite s h p) hs rfl hrun

end Sys2Proof.Mailbox

namespace Sys2Proof.Mailbox

open Sys2Proof Sys2Proof.Machine

/-! ### The bits of REQ -/

theorem bitsOf_req (v : Word) : bitsOf v 2 0 = (v &&& 7#32).toNat := by
  simpa [bitsOf] using (Nat.and_two_pow_sub_one_eq_mod v.toNat 3).symm

/-- A word whose low three bits are taken from another one. -/
theorem merge_req (a v : Word) : (a &&& ~~~7#32) ||| (v &&& 7#32) = bitsSet a 2 0 (bitsOf v 2 0) := by
  have hv : BitVec.ofNat 32 (bitsOf v 2 0 % 2 ^ (2 - 0 + 1) * 2 ^ 0) = v &&& 7#32 := by
    rw [Nat.mod_eq_of_lt (bitsOf_lt v 2 0), bitsOf_req]
    simp
  rw [bitsSet, hv]
  rfl

/-- Under a mask, a merge that is cut to the mask shows what the whole merge shows. -/
theorem merge_and_and (a m v k : Word) :
    ((a &&& ~~~(m &&& k)) ||| (v &&& m &&& k)) &&& k = ((a &&& ~~~m) ||| (v &&& m)) &&& k := by
  ext j
  cases hk : k[j] <;> simp [hk]

/-! ### State words among the registers (R26) -/

section StateWord

variable {i : Nat} {r : Res}

/-- The state words stand in the upper part of page 0x00 and in pages 0x0D and 0x0E. -/
theorem stateRes_range (hr : stateRes i = some r) : (0x20 ≤ i ∧ i < 0x80) ∨ (0x0D00 ≤ i ∧ i < 0x0F00) := by
  simp only [stateRes, SYS_IMPL_STATE, inRange, decide_eq_true_eq] at hr
  split_ifs at hr <;> omega

/-- REQ is all that a host may write of a state word (R27). -/
theorem regRow_of_stateRes (hr : stateRes i = some r) :
    ∃ row, regRow i = some row ∧ row.rw = 7#32 ∧ row.w1c = 0#32 ∧ row.w1s = 0#32 ∧ row.wo = 0#32 := by
  have hpage0 : ∀ i < 0x80, (stateRes i).isSome →
      ∃ row, regRow i = some row ∧ row.rw = 7#32 ∧ row.w1c = 0#32 ∧ row.w1s = 0#32 ∧ row.wo = 0#32 := by
    decide
  obtain ⟨-, hlt⟩ | ⟨hge, hlt⟩ := stateRes_range hr
  · exact hpage0 i hlt (by simp [hr])
  · obtain hp | hp : i / 256 = 0x0D ∨ i / 256 = 0x0E := by omega
    all_goals
      simp [regRow, hp, regPage, regPage0D, regPage0E, rowHas]
      omega

theorem page_of_stateRes (hr : stateRes i = some r) : i / 256 = 0 ∨ i / 256 = 0x0D ∨ i / 256 = 0x0E := by
  have := stateRes_range hr
  omega

/-- A state word is no selector. -/
theorem isSelector_of_stateRes (hr : stateRes i = some r) : isSelector i = false := by
  have := stateRes_range hr
  simp [isSelector, KIN_CH_SEL, SCH_SLOT_SEL, SCH_CH_SEL, MAP_CH_SEL, ACT_CH_SEL, GNS_SLOT_SEL, FJL_CH_SEL, CAN_TXB_SEL]
  omega

theorem isWindow_of_stateRes (hr : stateRes i = some r) : isWindow i = false := by
  have := stateRes_range hr
  simp [isWindow, inRange]
  omega

theorem ringPage_of_stateRes (hr : stateRes i = some r) : ringPage i = false := by
  have := stateRes_range hr
  simp [ringPage, inRange]
  omega

theorem ringWin_of_stateRes (hr : stateRes i = some r) : ringWin i = none := by
  simp [ringWin, ringPage_of_stateRes hr]

theorem gnsWaits_of_stateRes (hr : stateRes i = some r) : gnsWaits i = false := by
  have := stateRes_range hr
  simp [gnsWaits, inRange]
  omega

theorem canPage_of_stateRes (hr : stateRes i = some r) : canPage i = false := by
  have := stateRes_range hr
  simp [canPage, inRange]
  omega

theorem clearsItself_of_stateRes (hr : stateRes i = some r) : clearsItself i = false := by
  have := stateRes_range hr
  simp [clearsItself, inRange, ETH_BYP_STAT]
  omega

/-- A host sees a state word as it is stored. -/
theorem viewOf_stateWord (s : State) (h : Nat) (hr : stateRes i = some r) : viewOf s h i = rd s i := by
  have hrange := stateRes_range hr
  have h1 : i ≠ GNS_SLOT_CFG := by simp only [GNS_SLOT_CFG]; omega
  have h2 : i ≠ SYS_STEP_CNT := by simp only [SYS_STEP_CNT]; omega
  have h3 : i ≠ REC_STAT := by simp only [REC_STAT]; omega
  have h4 : inRange 0x0110 0x012F i = false := by simp [inRange]; omega
  have h5 : inRange 0x2810 0x284F i = false := by simp [inRange]; omega
  simp [viewOf, regView, isWindow_of_stateRes hr, isSelector_of_stateRes hr, ringWin_of_stateRes hr, canPage_of_stateRes hr,
    gnsWaits_of_stateRes hr, h1, h2, h3, h4, h5]

/-- A state word is its leaseholder's to write (R27, R396). -/
theorem mayWrite_stateWord (s : State) (h : Nat) (mask v : Word) (hr : stateRes i = some r) :
    mayWrite s h i mask v = holds s h r.1 r.2 := by
  simp [mayWrite, isSelector_of_stateRes hr, hr]

/-- The value that is stored is refused for its REQ alone (R27). -/
theorem storeValue_stateWord (s : State) (h : Nat) (v : Word) (hr : stateRes i = some r) :
    storeValue s h i v = if reqOk r v then some v else none := by
  have hp : i / 256 < 5 ∨ i / 256 = 0x0D ∨ i / 256 = 0x0E := by
    have := page_of_stateRes hr
    omega
  simp [storeValue, hp, sysStore, hr]

/-- No rule of state stands against it. -/
theorem stateRule_stateWord (s : State) (h : Nat) (mask old v : Word) (hr : stateRes i = some r) :
    stateRule s h i mask old v = .ok := by
  have hrange := stateRes_range hr
  have hb : i ≠ CLK_BRST := by simp only [CLK_BRST]; omega
  obtain hp | hp | hp := page_of_stateRes hr <;>
    simp [stateRule, hp, hb, inRange, ringPage_of_stateRes hr, canPage_of_stateRes hr]

theorem reqOk_iff (r : Res) (v : Word) : reqOk r v = true ↔ reqPermitted r (bitsOf v 2 0) := by
  simp [reqOk, reqPermitted, or_assoc]

end StateWord

/-! ### One item on a state word (R27, R390) -/

section StateItem

variable {w : WItem} {r : Res}

theorem touches_stateWord (hr : stateRes w.idx = some r) : touches w = decide (w.mask &&& 7#32 ≠ 0#32) := by
  obtain ⟨row, hrow, hrw, hw1c, hw1s, hwo⟩ := regRow_of_stateRes hr
  simp [touches, hrow, writable, hrw, hw1c, hw1s, hwo]

theorem itemWord_stateWord (s : State) (h : Nat) (hr : stateRes w.idx = some r) :
    itemWord s h w = (rd s w.idx &&& ~~~ (w.mask &&& 7#32)) ||| (w.value &&& w.mask &&& 7#32) := by
  obtain ⟨row, hrow, hrw, hw1c, hw1s, hwo⟩ := regRow_of_stateRes hr
  simp [itemWord, hrow, presented, viewOf_stateWord s h hr, hrw, hw1c, hw1s, hwo, -BitVec.reduceNot, -BitVec.reduceAllOnes]

/-- The word that the item presents has the REQ of `newReq`. -/
theorem bitsOf_itemWord (s : State) (h : Nat) (hr : stateRes w.idx = some r) : bitsOf (itemWord s h w) 2 0 = newReq s w := by
  rw [newReq, bitsOf_req, bitsOf_req, itemWord_stateWord s h hr, merge_and_and]

/-- Check of an item that reaches REQ: first the lease, then the code (R27, R390). -/
theorem checkItem_stateWord (s : State) (h : Nat) (hr : stateRes w.idx = some r) (hv : w.resv = false) (hm : w.mask &&& 7#32 ≠ 0#32) :
    checkItem s h w = if holds s h r.1 r.2 then if reqOk r (itemWord s h w) then stOk else stInvalid else stLease := by
  have hassigned : regAssigned w.idx = true := by
    obtain ⟨row, hrow, -⟩ := regRow_of_stateRes hr
    simp [regAssigned, hrow]
  have htouch : touches w = true := by simpa [touches_stateWord hr] using hm
  simp only [checkItem, hassigned, htouch, hv, mayWrite_stateWord _ _ _ _ hr, storeValue_stateWord _ _ _ hr]
  cases holds s h r.1 r.2
  · simp
  · cases reqOk r (itemWord s h w) <;> simp [stateRule_stateWord _ _ _ _ _ hr, verdictStatus]

end StateItem

/-! ### Re-commands leave the state words (R185, R223) -/

section Recommand

variable (s : State) {j : Nat} (hj : j < 0x1000)
include hj

theorem rd_recommandOne (c : Nat) : rd (recommandOne s c) j = rd s j := by
  have hstat : j ≠ DRV_STAT := by simp only [DRV_STAT]; omega
  have hch : j ≠ DRV_CH_STAT c := by simp only [DRV_CH_STAT]; omega
  have hforced : rd (setB s (DRV_CH_STAT_FORCED c) false) j = rd s j := rd_setB_ne _ _ _ _ hch
  unfold recommandOne showForced
  split
  · split
    · exact (rd_setB_ne _ _ _ _ hstat).trans hforced
    · exact hforced
  · rfl

/-- A re-command writes registers of DRV only. -/
theorem rd_recommand (c : Nat) : rd (recommand s c) j = rd s j := by
  unfold recommand recommandLocal recommandRemote
  extract_lets t
  split
  · split
    · rw [rd_recommandOne _ hj, rd_recommandOne _ hj]
    · exact rd_recommandOne _ hj c
  · split <;> rfl

theorem rd_requestEffect (s0 : State) (r : Res) : rd (requestEffect s0 s r) j = rd s j := by
  unfold requestEffect
  refine List.foldlRecOn (motive := fun t => rd t j = rd s j) _ _ rfl fun t ht c _ => ?_
  split
  · exact ht
  · exact (rd_recommand t hj c).trans ht

end Recommand

/-! ### The item comes into force (R27) -/

section TakeStateItem

variable {w : WItem} {r : Res}

/-- An accepted item puts its REQ into the state word; the other fields stand. -/
theorem rd_storeItem_stateWord (s : State) (h : Nat) (v : Word) {i : Nat} (hr : stateRes i = some r) :
    rd (storeItem s h i v) i = bitsSet (rd s i) 2 0 (bitsOf v 2 0) := by
  obtain ⟨row, hrow, hrw, hw1c, hw1s, hwo⟩ := regRow_of_stateRes hr
  have hrange := stateRes_range hr
  have h1 : i ≠ GNS_SLOT_CFG := by simp only [GNS_SLOT_CFG]; omega
  have h2 : i ≠ ACT_CH_ALM := by simp only [ACT_CH_ALM]; omega
  rw [← merge_req]
  simp [storeItem, isSelector_of_stateRes hr, ringWin_of_stateRes hr, gnsWaits_of_stateRes hr, clearsItself_of_stateRes hr, h1, h2,
    commitReg, hrow, rd_wr_self, hrw, hw1c, hw1s, hwo, -BitVec.reduceNot, -BitVec.reduceAllOnes]

theorem scrub_stateWord (s : State) {i : Nat} (hr : stateRes i = some r) : scrub s i = s := by
  obtain ⟨row, hrow, -, -, -, hwo⟩ := regRow_of_stateRes hr
  simp [scrub, hrow, hwo]

theorem rd_takeItem_stateWord (s0 s : State) (h : Nat) (hr : stateRes w.idx = some r) (hm : w.mask &&& 7#32 ≠ 0#32)
    (hok : reqOk r (itemWord s h w) = true) : rd (takeItem s0 s h w) w.idx = bitsSet (rd s w.idx) 2 0 (newReq s w) := by
  have htouch : touches w = true := by simpa [touches_stateWord hr] using hm
  have hlow : w.idx < 0x1000 := by
    have := stateRes_range hr
    omega
  have hvalue : itemValue s h w = itemWord s h w := by simp [itemValue, storeValue_stateWord _ _ _ hr, hok]
  simp only [takeItem, htouch, if_true, scrub_stateWord _ hr, writeEffect, hr, rd_requestEffect _ hlow]
  rw [rd_storeItem_stateWord _ _ _ hr, hvalue, bitsOf_itemWord _ _ hr]

end TakeStateItem

/-! ### PARAM_WRITE of one item (R406) -/

section OneItem

variable {s : State} {h : Nat} {p : List Byte} {w : WItem}

theorem writeItems_one (s : State) (h : Nat) (ht : isTripClear w = false) :
    writeItems s h [w] = if checkItem s h w = stOk then (takeItem s s h w, none) else (s, some (0, checkItem s h w)) := by
  by_cases hc : checkItem s h w = stOk <;> simp [writeItems, preClear, takeItems, checkItems, ht, hc]

/-- Its refusal names the item and changes nothing. -/
theorem paramWrite_refused (hl : writeReq p = [w]) (ht : isTripClear w = false) (hc : checkItem s h w ≠ stOk) :
    paramWrite s h p = plain { s := s, status := checkItem s h w, body := leBytes 2 0 ++ leBytes 2 0 } := by
  simp [paramWrite, hl, writeItems_one s h ht, hc, writeBody]

theorem paramWrite_taken (hl : writeReq p = [w]) (hz : leAt p 2 2 = 0) (ht : isTripClear w = false) (hc : checkItem s h w = stOk) :
    paramWrite s h p =
      { r := { s := takeItem s s h w, status := stOk, body := leBytes 2 1 ++ leBytes 2 0xFFFF }, wait := writeWait [w], silent := false } := by
  simp [paramWrite, hl, hz, writeItems_one s h ht, hc, writeBody]

/-- A write of a state word waits for no event of its own. -/
theorem writeWait_stateWord {r : Res} (hr : stateRes w.idx = some r) : writeWait [w] = none := by
  have hrange := stateRes_range hr
  have h1 : w.idx ≠ MAP_CLR := by simp only [MAP_CLR]; omega
  have h2 : w.idx ≠ GNS_SLOT_CFG := by simp only [GNS_SLOT_CFG]; omega
  simp [writeWait, triggers, epochItem, gnsWaits_of_stateRes hr, h1, h2]

theorem isTripClear_stateWord {r : Res} (hr : stateRes w.idx = some r) : isTripClear w = false := by
  have hrange := stateRes_range hr
  simp [isTripClear, inRange]
  omega

theorem takeItem_now (s : State) (h : Nat) (w : WItem) : (takeItem s s h w).now = s.now :=
  (takeItem_keeps (R := (· ≠ .now)) s s h w (by simp [Allows]) (Keeps.refl _ s) (Keeps.refl _ s)).same .now (by simp)

theorem padding_of_writesOne (hw : writesOne s h = some w) : leAt (req s h) 2 2 = 0 := by
  unfold writesOne at hw
  split at hw
  · next w' hl =>
    obtain ⟨hz, -⟩ : leAt (req s h) 2 2 = 0 ∧ w' = w := by simpa using hw
    exact hz
  · cases hw

end OneItem

/-- A row's command that has run moves no register on its way to the response but the slot's count of rejections. -/
theorem regsBut_completed (s : State) (h : Nat) {o : CmdOut} (hq : o.silent = false) :
    regsBut o.r.s (completed s h o) [HIF_H_CNT_REJ h] :=
  regsBut_respond h hq _

section StateWrite

variable {s : State} {h : Nat} {w : WItem} {r : Res}

/-- A PARAM_WRITE of one state word whose item is refused. -/
theorem stateWrite_refused (hs : starts s h 0x09) (hw : writesOne s h = some w) (hr : stateRes w.idx = some r) {st : Nat}
    (hc : checkItem (begun s h) h w = st) (hst : st ≠ stOk) :
    answers (.paramWrite h) s fun t => responded s t h st (leBytes 2 0 ++ leBytes 2 0) ∧ regsBut s t [HIF_H_CNT_REJ h] := by
  subst hc
  have hrun := paramWrite_refused (writeReq_of_writesOne hw) (isTripClear_stateWord hr) hst
  obtain ⟨t, hexec, hresp, hregs, -⟩ := answers_without_effect (i := .paramWrite h) (fun s p => paramWrite s h p) hs rfl hrun
  exact ⟨t, hexec, hresp, hregs⟩

/-- A PARAM_WRITE of one state word whose item is accepted. -/
theorem stateWrite_taken (hs : starts s h 0x09) (hw : writesOne s h = some w) (hr : stateRes w.idx = some r) (hm : w.mask &&& 7#32 ≠ 0#32)
    (hok : reqOk r (itemWord (begun s h) h w) = true) (hc : checkItem (begun s h) h w = stOk) :
    answers (.paramWrite h) s fun t =>
      responded s t h stOk (leBytes 2 1 ++ leBytes 2 0xFFFF) ∧ rd t w.idx = bitsSet (rd s w.idx) 2 0 (newReq s w) := by
  have hrun := paramWrite_taken (writeReq_of_writesOne hw) (padding_of_writesOne hw) (isTripClear_stateWord hr) hc
  rw [writeWait_stateWord hr] at hrun
  have hcnt : w.idx ∉ [HIF_H_CNT_REJ h] := by
    have hrange := stateRes_range hr
    obtain ⟨hh, -⟩ := hs
    simp only [HIF_H_CNT_REJ, List.mem_singleton]
    omega
  have hexec : exec (.paramWrite h) s = row h (runCmd s h (isCode 0x09) fun s p => paramWrite s h p) := rfl
  rw [row_of_starts hs, runCmd_of_starts hs, hrun] at hexec
  refine ⟨_, hexec, completed_responded s h rfl rfl (takeItem_now _ h w), ?_⟩
  exact (regsBut_completed s h rfl _ hcnt).trans (rd_takeItem_stateWord _ _ h hr hm hok)

end StateWrite

/-- Settles O7: the check of the item on the state in which the command began decides among the three answers. -/
theorem ruleOfStateWords : Obligations.RuleOfStateWords := by
  unfold Obligations.RuleOfStateWords
  intro s h w r hs hw hv hr hm
  have hcheck := checkItem_stateWord (begun s h) h hr hv hm
  have hcode : reqOk r (itemWord (begun s h) h w) = true ↔ reqPermitted r (newReq s w) := by
    rw [reqOk_iff, bitsOf_itemWord _ _ hr]
    rfl
  have hlease : holds (begun s h) h r.1 r.2 = holds s h r.1 r.2 := rfl
  rw [hlease] at hcheck
  refine ⟨fun hno => ?_, fun hyes hbad => ?_, fun hyes hgood => ?_⟩
  · exact stateWrite_refused hs hw hr (by simpa [hno] using hcheck) (by decide)
  · rw [← hcode] at hbad
    exact stateWrite_refused hs hw hr (by simpa [hyes, hbad] using hcheck) (by decide)
  · rw [← hcode] at hgood
    exact stateWrite_taken hs hw hr hm hgood (by simpa [hyes, hgood] using hcheck)

end Sys2Proof.Mailbox

namespace Sys2Proof.Mailbox

open Sys2Proof Sys2Proof.Machine

/-! ### TABLE_WRITE with an entry out of its rules (R50, R390, R407) -/

section TableWrite

variable {s : State} {h : Nat} {b : TableId} {p : List Byte}

theorem mayWriteEntry_geo_zon (s : State) (h n : Nat) (hb : b = .geo ∨ b = .zon) : mayWriteEntry s h b n = ownerOrService s h := by
  obtain rfl | rfl := hb <;> rfl

theorem tableRole_geo_zon (s : State) (h : Nat) (hb : b = .geo ∨ b = .zon) : tableRole s h b = ownerOrService s h := by
  obtain rfl | rfl := hb <;> rfl

/-- The rules of GEO and ZON read the entry alone. -/
theorem entryOk_geo_zon (s t : State) (hb : b = .geo ∨ b = .zon) (e : Nat × List Byte) : entryOk t b e.1 e.2 = entryOk s b e.1 e.2 := by
  obtain rfl | rfl := hb <;> rfl

/-- Where the slot may write every entry, no failure is of the lease, so the first one among entries of which one is bad is INVALID_VALUE. -/
theorem entriesStatus_of_bad_entry (hmay : ∀ n, mayWriteEntry s h b n = true)
    (hbad : ((writeEntries b p).any fun e => !entryOk s b e.1 e.2) = true) : entriesStatus s h b p = stInvalid := by
  obtain ⟨e, he, hnot⟩ := List.any_eq_true.1 hbad
  simp only [entriesStatus, hmay, Bool.not_true, Bool.false_eq_true, and_false, if_false]
  split
  next st hfirst =>
    obtain ⟨e', -, hst⟩ := List.exists_of_findSome?_eq_some hfirst
    split at hst
    · exact (Option.some.inj hst).symm
    · cases hst
  next hnone =>
    have hpass := List.findSome?_eq_none_iff.1 hnone e he
    simp [hnot] at hpass

/-- A write whose entries do not stand the checks answers their status and returns the state it was given. -/
theorem tableWrite_refused (ht : reqTable p = some (.stored b)) (hrole : tableRole s h b = true) {st : Nat}
    (hst : entriesStatus s h b p = st) (hne : st ≠ stOk) : tableWrite s h p = refuse s st := by
  simp [tableWrite, ht, hrole, hst, hne]

end TableWrite

/-- Settles O8: on the state in which the write began, the first failure among its entries is INVALID_VALUE, and that state is
returned. -/
theorem ruleOfFrameTables : Obligations.RuleOfFrameTables := by
  unfold Obligations.RuleOfFrameTables
  intro s h b hs ht hb howner hbad
  have howner' : ownerOrService (begun s h) h = true := howner
  have hmay : ∀ n, mayWriteEntry (begun s h) h b n = true := fun n => (mayWriteEntry_geo_zon _ h n hb).trans howner'
  have hrole : tableRole (begun s h) h b = true := (tableRole_geo_zon _ h hb).trans howner'
  simp only [← entryOk_geo_zon s (begun s h) hb] at hbad
  have hrun := congrArg plain (tableWrite_refused ht hrole (entriesStatus_of_bad_entry hmay hbad) (by decide))
  obtain ⟨t, hexec, hresp, hregs, hslots, hparts⟩ :=
    answers_without_effect (i := .tableWrite h) (fun s p => plain (tableWrite s h p)) hs rfl hrun
  exact ⟨t, hexec, hresp, hparts.1 .tables (by decide), hregs, hslots, hparts⟩

end Sys2Proof.Mailbox

namespace Sys2Proof.Mailbox

open Sys2Proof Sys2Proof.Machine

/-! ### A slot of the pool that holds an event (R80, R82)

Between acceptance and release the scheduler's operations may move a slot's state, flags and trace; its event stands. -/

/-- Slot `i` is in use for the event `d`. -/
def HoldsEvent (i : Nat) (d : EvDesc) (s : State) : Prop := (slotAt s i).state ≠ stFree ∧ (slotAt s i).d = d

section HoldsEvent

variable {i : Nat} {d : EvDesc} {s t : State}

theorem slotAt_modSlotAt_self (s : State) (i : Nat) (f : EvSlot → EvSlot) : slotAt (modSlotAt s i f) i = f (slotAt s i) :=
  sparseGet_mod _ _ _ _

theorem slotAt_modSlotAt_ne (s : State) (f : EvSlot → EvSlot) {i j : Nat} (hij : i ≠ j) : slotAt (modSlotAt s j f) i = slotAt s i :=
  sparseGet_mod_ne _ _ _ _ _ hij

theorem holdsEvent_of_slots (hs : t.sch.slots = s.sch.slots) (h : HoldsEvent i d s) : HoldsEvent i d t := by
  simpa [HoldsEvent, slotAt, hs] using h

/-- A change of any slot that frees no slot in use and leaves the event in it. -/
theorem holdsEvent_modSlotAt {j : Nat} {f : EvSlot → EvSlot} (hstate : ∀ e, e.state ≠ stFree → (f e).state ≠ stFree)
    (hd : ∀ e, (f e).d = e.d) (h : HoldsEvent i d s) : HoldsEvent i d (modSlotAt s j f) := by
  by_cases hij : i = j
  · subst hij
    rw [HoldsEvent, slotAt_modSlotAt_self]
    exact ⟨hstate _ h.1, (hd _).trans h.2⟩
  · rw [HoldsEvent, slotAt_modSlotAt_ne s f hij]
    exact h

theorem holdsEvent_modFlags {j : Nat} {f : EvFlags → EvFlags} (h : HoldsEvent i d s) : HoldsEvent i d (modFlags s j f) :=
  holdsEvent_modSlotAt (fun _ => id) (fun _ => rfl) h

theorem holdsEvent_bump (f : Field) (n : Nat) (h : HoldsEvent i d s) : HoldsEvent i d (bump s f n) := h

theorem holdsEvent_endSlot {j st : Nat} (hst : st ≠ stFree) (h : HoldsEvent i d s) : HoldsEvent i d (endSlot s j st) :=
  holdsEvent_modSlotAt (fun _ _ => hst) (fun _ => rfl) h

theorem sch_showPool (s : State) : (showPool s).sch = s.sch :=
  (showPool_keeps (R := (· = .regs)) s (by simp [Allows]) (Keeps.refl _ s)).same .sch (by decide)

theorem holdsEvent_fillSlot (s : State) (i : Nat) (d : EvDesc) (step : Word) : HoldsEvent i d (fillSlot s i d step) := by
  refine holdsEvent_of_slots (congrArg (·.slots) (sch_showPool _)) ?_
  rw [HoldsEvent, slotAt_modSlotAt_self]
  exact ⟨Nat.one_ne_zero, rfl⟩

end HoldsEvent

/-! ### Hand-over and judgement keep the event in its slot (R86, R90, R93) -/

section Judgement

variable {i : Nat} {d : EvDesc} {s : State}

theorem holdsEvent_noteHorizon (j c kind wait : Nat) (h : HoldsEvent i d s) : HoldsEvent i d (noteHorizon s j c kind wait) := by
  unfold noteHorizon
  split
  · exact holdsEvent_bump _ _ (holdsEvent_modFlags h)
  · exact h

theorem holdsEvent_noteUse (j c kind tick wait : Nat) (err : Int) (lead : Bool) (h : HoldsEvent i d s) :
    HoldsEvent i d (noteUse s j c kind tick wait err lead) :=
  holdsEvent_modSlotAt (fun _ => id) (fun _ => rfl) h

theorem holdsEvent_noteHand (j c kind tick : Nat) (late lead : Bool) (err : Int) (h : HoldsEvent i d s) :
    HoldsEvent i d (noteHand s j c kind tick late lead err) := by
  unfold noteHand
  extract_lets e wait err' s₁ s₂
  have h₁ : HoldsEvent i d s₁ := by
    unfold s₁
    split <;> exact h
  have h₂ : HoldsEvent i d s₂ := holdsEvent_noteUse _ _ _ _ _ _ _ (holdsEvent_noteHorizon _ _ _ _ h₁)
  split <;> exact h₂

theorem holdsEvent_queueRemote (c kind tick rate : Nat) (slot : Option Nat) (h : HoldsEvent i d s) :
    HoldsEvent i d (queueRemote s c kind tick rate slot) := by
  unfold queueRemote
  extract_lets s₁
  have h₁ : HoldsEvent i d s₁ := by
    unfold s₁ remoteRate
    split
    · extract_lets; split <;> exact h
    · exact h
  split
  · cases slot with
    | none => exact h₁
    | some j => exact holdsEvent_modFlags h₁
  · exact h₁

theorem holdsEvent_giveEdge (c kind tick rate : Nat) (slot : Option Nat) (origin : Nat) (h : HoldsEvent i d s) :
    HoldsEvent i d (giveEdge s c kind tick rate slot origin) := by
  unfold giveEdge
  extract_lets delay
  split
  · exact h
  · refine holdsEvent_queueRemote _ _ _ _ _ ?_
    split <;> exact h

theorem holdsEvent_handSlot (j tick : Nat) (late : Bool) (err : Int) (h : HoldsEvent i d s) :
    HoldsEvent i d (handSlot s j tick late err) := by
  have hcode : (if late then stLate else stArmed) ≠ stFree := by cases late <;> decide
  unfold handSlot
  extract_lets e c kind lead was at_
  split
  · have hnoted := holdsEvent_noteUse j c kind tick 0 err lead (holdsEvent_noteHorizon j c kind 0 h)
    exact holdsEvent_modSlotAt (fun _ _ => hcode) (fun _ => rfl) (holdsEvent_of_slots rfl hnoted)
  · refine holdsEvent_modSlotAt (fun e he => ?_) (fun _ => rfl)
      (holdsEvent_giveEdge _ _ _ _ _ _ (holdsEvent_noteHand _ _ _ _ _ _ _ h))
    dsimp only
    split
    · exact he
    · exact hcode

theorem sch_lateRecord (s : State) (code : Nat) (e : EvSlot) (err : Int) : (lateRecord s code e err).sch = s.sch :=
  (lateRecord_keeps (R := (· ∈ [.regs, .recd])) s code e err (by simp [Allows]) (Keeps.refl _ s)).same .sch (by decide)

theorem holdsEvent_lateRecord (code : Nat) (e : EvSlot) (err : Int) (h : HoldsEvent i d s) : HoldsEvent i d (lateRecord s code e err) :=
  holdsEvent_of_slots (congrArg (·.slots) (sch_lateRecord s code e err)) h

theorem holdsEvent_passSlot (j : Nat) (err : Int) (h : HoldsEvent i d s) : HoldsEvent i d (passSlot s j err) := by
  unfold passSlot
  extract_lets s₁ s₂
  have h₁ : HoldsEvent i d s₁ := holdsEvent_lateRecord _ _ _ (holdsEvent_bump _ _ h)
  have h₂ : HoldsEvent i d s₂ := h₁
  exact holdsEvent_endSlot (by decide) (holdsEvent_modSlotAt (fun _ => id) (fun _ => rfl) h₂)

theorem holdsEvent_holdSlot (j : Nat) (h : HoldsEvent i d s) : HoldsEvent i d (holdSlot s j) := by
  unfold holdSlot
  split
  · exact h
  · exact holdsEvent_bump _ _ (holdsEvent_modFlags h)

theorem holdsEvent_releaseHeld (j tick : Nat) (h : HoldsEvent i d s) : HoldsEvent i d (releaseHeld s j tick) :=
  holdsEvent_handSlot _ _ _ _ (holdsEvent_bump _ _ h)

/-- Whatever the judgement of a slot comes to, no slot loses its event by it. -/
theorem holdsEvent_judgeSlot (j b : Nat) (held gave : Bool) (h : HoldsEvent i d s) : HoldsEvent i d (judgeSlot s j b held gave).1 := by
  unfold judgeSlot
  extract_lets e c kind s₁ last next
  have h₁ : HoldsEvent i d s₁ := holdsEvent_noteHorizon _ _ _ _ h
  have hheld : HoldsEvent i d (holdSlot s₁ j) := holdsEvent_holdSlot j h₁
  split
  next =>
    split_ifs <;> dsimp only
    · exact holdsEvent_releaseHeld _ _ h₁
    · exact h₁
  next =>
    split_ifs <;> dsimp only
    · exact hheld
    · exact holdsEvent_releaseHeld _ _ h₁
    · exact holdsEvent_releaseHeld _ _ hheld
    · exact holdsEvent_handSlot _ _ _ _ h₁
  next =>
    extract_lets err
    split_ifs <;> dsimp only
    · exact hheld
    · exact holdsEvent_releaseHeld _ _ h₁
    · exact holdsEvent_releaseHeld _ _ hheld
    · exact holdsEvent_handSlot _ _ _ _ (holdsEvent_lateRecord _ _ _ (holdsEvent_bump _ _ h₁))
    · exact holdsEvent_passSlot _ _ h₁

end Judgement

/-! ### Acceptance of one event (R91, R95, R99) -/

section Acceptance

variable {s : State} {d : EvDesc}

/-- A passed event that is not retained takes no slot and is answered PASSED, with NOSLOT and slot 0 (R91). -/
theorem acceptPost_passed (hpass : passedNow s d = true) (hret : d.retain = false) :
    ∃ t, acceptPost s d = (t, some (2 ^ 22 + stPassed * 2 ^ 18)) ∧ t.sch.slots = s.sch.slots := by
  have hcond : (passedNow s d && !d.retain) = true := by simp [hpass, hret]
  unfold acceptPost
  rw [if_pos hcond]
  exact ⟨_, rfl, congrArg (·.slots) (sch_lateRecord (bump s SCH_CNT_PASSED_CNT) _ _ _)⟩

/-- An event that the pool takes stands in the slot that has been free for the longest time, whatever its judgement (R77, R91). -/
theorem acceptPost_takes_slot {i : Nat} (hkeep : (passedNow s d && !d.retain) = false) (hmay : mayAllocate s d = true)
    (hfree : longestFree s = some i) : ∃ t x, acceptPost s d = (t, some x) ∧ HoldsEvent i d t := by
  have hfill : HoldsEvent i d (fillSlot s i d (nextStep s)) := holdsEvent_fillSlot _ _ _ _
  unfold acceptPost
  rw [if_neg (by simp [hkeep]), if_pos hmay, hfree]
  refine ⟨_, _, rfl, ?_⟩
  split_ifs
  · exact holdsEvent_judgeSlot _ _ _ _ hfill
  · exact hfill

/-- Acceptance moves neither the host interface nor the step count. -/
theorem acceptPost_hif_now {t : State} {x : Option Nat} (ha : acceptPost s d = (t, x)) : t.hif = s.hif ∧ t.now = s.now := by
  have hkeeps : Keeps (· ∈ [.regs, .sys, .recd, .sch, .fjl]) s t :=
    PKeeps.of_eq ha (acceptPost_keeps s d (by simp [Allows]) (Keeps.refl _ s))
  exact ⟨hkeeps.same .hif (by decide), hkeeps.same .now (by decide)⟩

theorem acceptAll_singleton {p : PostDesc} {t : State} {x : Nat} (ha : acceptPost s (resolveDesc s p) = (t, some x)) :
    acceptAll s [p] [] = some (t, [x]) := by
  have hstep : acceptAll s [p] [] = match acceptPost s (resolveDesc s p) with
    | (t, some x) => acceptAll t [] [x]
    | (_, none) => none := rfl
  rw [hstep, ha]
  rfl

/-- EVENT_POST of one descriptor against which nothing stands answers the entry that its acceptance gives. -/
theorem eventPost_one {h x : Nat} {p : List Byte} {t : State} (hrole : roleOf s h ≠ 2) (hone : leAt p 0 2 = 1) (hpad : leAt p 2 2 = 0)
    (hok : postRefusal s h (postDesc h ((p.drop 4).take 16)) = none)
    (ha : acceptPost s (resolveDesc s (postDesc h ((p.drop 4).take 16))) = (t, some x)) :
    eventPost s h p = okBody t (leBytes 2 1 ++ leBytes 2 0 ++ leBytes 4 x) := by
  simp [eventPost, hrole, hone, hpad, hok, acceptAll_singleton ha]

end Acceptance

/-! ### What the response leaves (R40, R391) -/

section AfterResponse

variable (s : State) (h : Nat)

theorem ring_makeRoom (n need : Nat) (x : HostSlot) : (makeRoom n need x).ring = x.ring := by
  induction n generalizing x with
  | zero => rfl
  | succ n ih =>
    unfold makeRoom
    split
    · rfl
    · rw [ih, dropOldest]
      split <;> rfl

theorem ring_roomFor (need : Nat) : (slotOf (roomFor s h need) h).ring = (slotOf s h).ring := by
  unfold roomFor
  split
  · rw [slotOf_modSlot, ring_makeRoom]
  · rfl

/-- A frame put into a slot's response ring leaves its request ring. -/
theorem ring_postFrame (code status htag : Nat) (step : Word) (p : List Byte) :
    (slotOf (postFrame s h code status htag step p) h).ring = (slotOf s h).ring := by
  unfold postFrame
  extract_lets s₁ q r s₂
  have h₂ : (slotOf s₂ h).ring = (slotOf s h).ring := by
    rw [slotOf_modSlot]
    exact ring_roomFor s h _
  split <;> exact h₂

theorem ring_postResult (code status htag : Nat) (step : Word) (p : List Byte) :
    (slotOf (postResult s h code status htag step p) h).ring = (slotOf s h).ring := by
  unfold postResult
  rw [ring_postFrame]
  split <;> rfl

theorem ring_respond {u : State} {f : Frame} {o : CmdOut} (w : Option Nat) : (slotOf (respond u h f o w) h).ring = (slotOf u h).ring := by
  unfold respond
  split
  · rfl
  · cases w with
    | none => exact ring_postResult _ _ _ _ _ _ _
    | some w => simp

/-- Of a command that leaves the host interface alone the request ring shows that its frame has left. -/
theorem ring_completed {o : CmdOut} (hh : o.r.s.hif = (begun s h).hif) : (slotOf (completed s h o) h).ring = (slotOf s h).ring.tail := by
  have hslot : slotOf o.r.s h = slotOf (begun s h) h := by simp only [slotOf, hh]
  have hbegun : (slotOf (begun s h) h).ring = (slotOf s h).ring.tail := congrArg (·.ring) (slotOf_modSlot s h _)
  calc (slotOf (completed s h o) h).ring = (slotOf o.r.s h).ring := ring_respond h _
    _ = (slotOf s h).ring.tail := by rw [hslot, hbegun]

/-- The response moves nothing of the scheduler. -/
theorem sch_completed (o : CmdOut) : (completed s h o).sch = o.r.s.sch :=
  have hkeeps := respond_keeps (R := (· ∈ [.regs, .hif])) o.r.s h (front s h) o (answerWait s h (front s h) o.wait o.r.status)
    (by simp [Allows]) (Keeps.refl _ _) (Keeps.refl _ _)
  hkeeps.same .sch (by decide)

end AfterResponse

/-! ### The state in which a command began shows the scheduler what stood before -/

section Begun

variable (s : State) (h : Nat)

theorem lookAheadRaw_begun (c kind : Nat) : lookAheadRaw (begun s h) c kind = lookAheadRaw s c kind := rfl

theorem lookAhead_begun (c kind : Nat) : lookAhead (begun s h) c kind = lookAhead s c kind := by
  unfold lookAhead
  rw [lookAheadRaw_begun]
  rfl

theorem judge_begun (c : Nat) (tgt : Int) (rev : Bool) (k : Nat) : judge (begun s h) c tgt rev k = judge s c tgt rev k := rfl

theorem passedNow_begun (d : EvDesc) : passedNow (begun s h) d = passedNow s d := by
  unfold passedNow
  rw [judge_begun, lookAhead_begun]
  rfl

end Begun

section EventPost

variable {s : State} {h : Nat}

/-- EVENT_POST of one descriptor that is accepted: its answer, and the pool as acceptance left it. -/
theorem eventPost_answers {t : State} {x : Nat} (hs : starts s h 0x10) (hrole : roleOf s h ≠ 2) (hone : leAt (req s h) 0 2 = 1)
    (hpad : leAt (req s h) 2 2 = 0) (hok : postRefusal s h (posted s h) = none)
    (ha : acceptPost (begun s h) (resolveDesc s (posted s h)) = (t, some x)) :
    answers (.eventPost h) s fun t' => t'.sch = t.sch ∧ answered s t' h (leBytes 2 1 ++ leBytes 2 0 ++ leBytes 4 x) := by
  obtain ⟨hhif, hnow⟩ := acceptPost_hif_now ha
  have hrun : eventPost (begun s h) h (req s h) = okBody t (leBytes 2 1 ++ leBytes 2 0 ++ leBytes 4 x) :=
    eventPost_one hrole hone hpad hok ha
  have hexec : exec (.eventPost h) s = row h (runCmd s h (isCode 0x10) fun s p => plain (eventPost s h p)) := rfl
  rw [row_of_starts hs, runCmd_of_starts hs, hrun] at hexec
  exact ⟨_, hexec, sch_completed s h _, completed_responded s h rfl rfl hnow, ring_completed s h hhif⟩

end EventPost

/-- Settles O9: on the state in which the post began, acceptance leaves the pool alone where nothing is retained; else it fills the slot
that has been free for the longest time, and the judgement that follows leaves the event in it. -/
theorem ruleOfPassedPosts : Obligations.RuleOfPassedPosts := by
  unfold Obligations.RuleOfPassedPosts
  intro s h hs hrole hone hpad hok hpass
  have hpass' : passedNow (begun s h) (resolveDesc s (posted s h)) = true := (passedNow_begun s h _).trans hpass
  refine ⟨fun hret => ?_, fun i hret hmay hfree => ?_⟩
  · obtain ⟨t, ha, hslots⟩ := acceptPost_passed hpass' hret
    obtain ⟨t', hexec, hsch, hans⟩ := eventPost_answers hs hrole hone hpad hok ha
    exact ⟨t', hexec, (congrArg (·.slots) hsch).trans hslots, hans⟩
  · have hkeep : (passedNow (begun s h) (resolveDesc s (posted s h)) && !(resolveDesc s (posted s h)).retain) = false := by
      simp [posted, hret]
    obtain ⟨t, x, ha, hevent⟩ := acceptPost_takes_slot hkeep hmay hfree
    obtain ⟨t', hexec, hsch, -⟩ := eventPost_answers hs hrole hone hpad hok ha
    exact ⟨t', hexec, holdsEvent_of_slots (congrArg (·.slots) hsch) hevent⟩

end Sys2Proof.Mailbox

namespace Sys2Proof.Mailbox

open Sys2Proof Sys2Proof.Machine

/-! ### The cell size (R110) -/

theorem cellMm_eq_getD (s : State) : cellMm s = [50, 100, 200, 250].getD (getF s MAP_CTRL_CELL) 0 := by
  have hcell : getF s MAP_CTRL_CELL < 4 := bitsOf_lt _ 2 1
  unfold cellMm
  generalize getF s MAP_CTRL_CELL = k at hcell
  interval_cases k <;> rfl

/-- A field of the low byte depends on the low byte alone. -/
theorem bitsOf_congr_lowByte {a b : Word} {hi lo : Nat} (hlo : lo ≤ hi) (hhi : hi < 8) (hab : a &&& 0xFF#32 = b &&& 0xFF#32) :
    bitsOf a hi lo = bitsOf b hi lo := by
  refine Nat.eq_of_testBit_eq fun i => ?_
  rw [testBit_bitsOf, testBit_bitsOf]
  by_cases hi' : i < hi - lo + 1
  · have hlow : ∀ j < 8, (0xFF#32).getLsbD j = true := by decide
    have hmask := hlow (lo + i) (by omega)
    have hbit := congrArg (·.getLsbD (lo + i)) hab
    simp only [BitVec.getLsbD_and, hmask, Bool.and_true] at hbit
    rw [hbit]
  · simp [hi']

/-! ### One item on MAP_CTRL (R110, R390, R396) -/

section MapCtrl

variable {w : WItem}

theorem regRow_mapCtrl :
    ∃ row, regRow MAP_CTRL = some row ∧ row.rw = 0xFF#32 ∧ row.w1c = 0#32 ∧ row.w1s = 0#32 ∧ row.wo = 0#32 :=
  ⟨_, rfl, rfl, rfl, rfl, rfl⟩

/-- A host sees MAP_CTRL as it is stored. -/
theorem viewOf_mapCtrl (s : State) (h : Nat) : viewOf s h MAP_CTRL = rd s MAP_CTRL := rfl

theorem mayWrite_mapCtrl (s : State) (h : Nat) (mask v : Word) : mayWrite s h MAP_CTRL mask v = ownerOrService s h := rfl

theorem storeValue_mapCtrl (s : State) (h : Nat) (v : Word) : storeValue s h MAP_CTRL v = some v := rfl

theorem stateRule_mapCtrl (s : State) (h : Nat) (mask old v : Word) :
    stateRule s h MAP_CTRL mask old v = inState (mapRule s MAP_CTRL old v) .ok := rfl

theorem touches_mapCtrl (hi : w.idx = MAP_CTRL) : touches w = decide (w.mask &&& 0xFF#32 ≠ 0#32) := by
  obtain ⟨row, hrow, hrw, hw1c, hw1s, hwo⟩ := regRow_mapCtrl
  simp [touches, hi, hrow, writable, hrw, hw1c, hw1s, hwo]

theorem itemWord_mapCtrl (s : State) (h : Nat) (hi : w.idx = MAP_CTRL) :
    itemWord s h w = (rd s MAP_CTRL &&& ~~~ (w.mask &&& 0xFF#32)) ||| (w.value &&& w.mask &&& 0xFF#32) := by
  obtain ⟨row, hrow, hrw, hw1c, hw1s, hwo⟩ := regRow_mapCtrl
  simp [itemWord, hi, hrow, presented, viewOf_mapCtrl, hrw, hw1c, hw1s, hwo, -BitVec.reduceNot, -BitVec.reduceAllOnes]

/-- The CELL that an item presents to MAP_CTRL. -/
def newCell (s : State) (w : WItem) : Nat := bitsOf ((rd s MAP_CTRL &&& ~~~ w.mask) ||| (w.value &&& w.mask)) 2 1

theorem bitsOf_itemWord_mapCtrl (s : State) (h : Nat) (hi : w.idx = MAP_CTRL) : bitsOf (itemWord s h w) 2 1 = newCell s w := by
  rw [itemWord_mapCtrl s h hi]
  exact bitsOf_congr_lowByte (by decide) (by decide) (merge_and_and _ _ _ _)

/-- An item that touches no bit of MAP_CTRL presents the CELL that stands. -/
theorem touches_of_newCell_ne {s : State} (hi : w.idx = MAP_CTRL) (hne : newCell s w ≠ getF s MAP_CTRL_CELL) : touches w = true := by
  rw [touches_mapCtrl hi, decide_eq_true_eq]
  intro hmask
  refine hne ?_
  rw [← bitsOf_itemWord_mapCtrl s 0 hi, itemWord_mapCtrl s 0 hi, BitVec.and_assoc, hmask, BitVec.not_zero, BitVec.and_allOnes,
    BitVec.and_zero, BitVec.or_zero, getF]

/-- CELL stands while the map is on or holds anything. -/
def CellStands (s : State) : Prop := flag s MAP_CTRL_EN = true ∨ getF s MAP_STAT_TILES ≠ 0 ∨ getF s MAP_STAT_DBLKS ≠ 0

theorem mapRule_of_cellStands {s : State} {old v : Word} (hstands : CellStands s) (hne : bitsOf old 2 1 ≠ bitsOf v 2 1) :
    mapRule s MAP_CTRL old v = false := by
  have hused : (flag s MAP_CTRL_EN || decide (getF s MAP_STAT_TILES ≠ 0) || decide (getF s MAP_STAT_DBLKS ≠ 0)) = true := by
    simpa [CellStands, or_assoc] using hstands
  have hdiff : bitsDiffer old v 2 1 = true := decide_eq_true hne
  simp only [mapRule, if_true, hdiff, hused, Bool.and_true, Bool.not_true, Bool.false_and]

/-- Check of an item that would change CELL while it stands. -/
theorem checkItem_of_cellStands {s : State} {h : Nat} (howner : ownerOrService s h = true) (hv : w.resv = false) (hi : w.idx = MAP_CTRL)
    (hne : newCell s w ≠ getF s MAP_CTRL_CELL) (hstands : CellStands s) : checkItem s h w = stWrong := by
  have hassigned : regAssigned MAP_CTRL = true := rfl
  have hdiff : bitsOf (rd s MAP_CTRL) 2 1 ≠ bitsOf (itemWord s h w) 2 1 := by
    rw [bitsOf_itemWord_mapCtrl s h hi]
    exact hne.symm
  simp only [checkItem, touches_of_newCell_ne hi hne, hv, hi, hassigned, mayWrite_mapCtrl, howner, storeValue_mapCtrl, viewOf_mapCtrl,
    stateRule_mapCtrl, mapRule_of_cellStands hstands hdiff]
  rfl

theorem isTripClear_mapCtrl (hi : w.idx = MAP_CTRL) : isTripClear w = false := by
  simp [isTripClear, hi, inRange]

end MapCtrl

/-- Settles O10: on the state in which the write began, the check of the item answers WRONG_STATE, and that state is returned. -/
theorem ruleOfCellSize : Obligations.RuleOfCellSize := by
  unfold Obligations.RuleOfCellSize
  refine ⟨cellMm_eq_getD, by decide, fun s h w hs howner hw hv hi hne hstands => ?_⟩
  have hcheck : checkItem (begun s h) h w = stWrong := checkItem_of_cellStands howner hv hi hne hstands
  have hrun := paramWrite_refused (writeReq_of_writesOne hw) (isTripClear_mapCtrl hi) (by rw [hcheck]; decide)
  rw [hcheck] at hrun
  exact answers_without_effect (fun s p => paramWrite s h p) hs rfl hrun

end Sys2Proof.Mailbox

namespace Sys2Proof.NozzleRing

open Sys2Proof Sys2Proof.Machine

/-! ### Ring, node and node channel of a remote channel (R194) -/

theorem isLocal_eq_false {c : Nat} : isLocal c = false ↔ 32 ≤ c := by
  rw [isLocal, decide_eq_false_iff_not, Nat.not_lt]

/-- The channels of a ring start at 32 + 240 r, and those of a node at a multiple of 8 beyond that. -/
theorem chanOf_sub_base (r n k : Nat) : chanOf r n k - 32 = 240 * r + (8 * n + k) := by
  unfold chanOf
  omega

section Place
variable {n k : Nat} (r : Nat)

theorem ringOf_chanOf (hn : n < 30) (hk : k < 8) : ringOf (chanOf r n k) = r := by
  have hplace : 8 * n + k < 240 := by omega
  rw [ringOf, chanOf_sub_base, Nat.mul_add_div (by decide), Nat.div_eq_of_lt hplace, Nat.add_zero]

theorem nodeOf_chanOf (hn : n < 30) (hk : k < 8) : nodeOf (chanOf r n k) = n := by
  have hplace : 8 * n + k < 240 := by omega
  rw [nodeOf, chanOf_sub_base, Nat.mul_add_mod, Nat.mod_eq_of_lt hplace, Nat.mul_add_div (by decide), Nat.div_eq_of_lt hk, Nat.add_zero]

theorem nodeCh_chanOf (n : Nat) (hk : k < 8) : nodeCh (chanOf r n k) = k := by
  rw [nodeCh, chanOf_sub_base]
  omega

end Place

/-- Ring `r` carries the 240 channels from 32 + 240 r on. -/
theorem channels_of_ring (r c : Nat) : (32 + 240 * r ≤ c ∧ c ≤ 271 + 240 * r) ↔ (isLocal c = false ∧ ringOf c = r) := by
  rw [isLocal_eq_false, ringOf, Nat.div_eq_iff (by decide)]
  omega

/-- Settles O11: a channel's ring, node and node channel are read back from its number, and the two ranges are those of rings 0 and 1. -/
theorem ruleOfRingChannels : Obligations.RuleOfRingChannels := by
  unfold Obligations.RuleOfRingChannels
  refine ⟨fun r _ a ha ha' k hk => ?_, channels_of_ring 0, channels_of_ring 1⟩
  have hn : a - 1 < 30 := by omega
  exact ⟨rfl, ringOf_chanOf r hn hk, nodeOf_chanOf r hn hk, nodeCh_chanOf r (a - 1) hk⟩

end Sys2Proof.NozzleRing

namespace Sys2Proof.Recorder

open Sys2Proof Sys2Proof.Machine Sys2Proof.Mailbox

/-! ### What the write engine moves of the recorder (R415, R416)

Taking an entry and recording an event work on the queue of entries alone: what is staged, what is being written, what is lost. -/

/-- The recorders agree outside their queues of entries. -/
def SameButQueue (r r' : RecState) : Prop :=
  ∃ staging writing lost, r' = { r with staging := staging, writing := writing, lost := lost }

section SameButQueue
variable {r r' r'' : RecState}

theorem SameButQueue.refl (r : RecState) : SameButQueue r r := ⟨r.staging, r.writing, r.lost, rfl⟩

theorem SameButQueue.trans (h : SameButQueue r r') (h' : SameButQueue r' r'') : SameButQueue r r'' := by
  obtain ⟨_, _, _, rfl⟩ := h
  obtain ⟨l, w, n, rfl⟩ := h'
  exact ⟨l, w, n, rfl⟩

theorem SameButQueue.freeze_eq (h : SameButQueue r r') : r'.freeze = r.freeze := by
  obtain ⟨_, _, _, rfl⟩ := h
  rfl

theorem SameButQueue.next_eq (h : SameButQueue r r') : r'.next = r.next := by
  obtain ⟨_, _, _, rfl⟩ := h
  rfl

theorem SameButQueue.nonce_eq (h : SameButQueue r r') : r'.nonce = r.nonce := by
  obtain ⟨_, _, _, rfl⟩ := h
  rfl

end SameButQueue

theorem sameButQueue_recTake (s : State) : SameButQueue s.recd (recTake s).recd := by
  unfold recTake
  split
  · split_ifs
    · exact .refl _
    · exact ⟨_, _, _, rfl⟩
    · exact ⟨_, _, _, rfl⟩
  · exact .refl _

theorem sameButQueue_record (s : State) (code inst : Nat) (val : List Byte) : SameButQueue s.recd (record s code inst val).recd := by
  unfold record
  split_ifs
  · exact .refl _
  · exact .trans ⟨_, s.recd.writing, s.recd.lost, rfl⟩ (sameButQueue_recTake _)
  · exact ⟨s.recd.staging, s.recd.writing, _, rfl⟩

/-! ### The end of a freeze (R417) -/

/-- The freeze is over, and the write engine has gone on where it may. -/
theorem sameButQueue_endFreeze (s : State) : SameButQueue { s.recd with freeze := none } (endFreeze s).recd := by
  unfold endFreeze
  split_ifs with hfrozen
  · exact sameButQueue_recTake _
  · obtain hnone : s.recd.freeze = none := by simpa using hfrozen
    exact ⟨s.recd.staging, s.recd.writing, s.recd.lost, by rw [← hnone]⟩

/-! ### A failed clear (R422) -/

theorem nonce_authFail (s : State) (h : Nat) : (authFail s h).recd.nonce = none := by
  unfold authFail
  extract_lets n t u
  have hu : u.recd.nonce = none := (sameButQueue_record t _ _ _).nonce_eq
  split_ifs <;> exact hu

/-! ### A command and its response (R40, R391) -/

section Command
variable {s : State} {h code : Nat}

/-- A mailbox row whose command starts answers the state that its run leaves. -/
theorem answers_completed {i : Instr} {o : CmdOut} {P : State → Prop} (run : State → List Byte → CmdOut) (hs : starts s h code)
    (hexec : exec i s = row h (runCmd s h (isCode code) run)) (hrun : run (begun s h) (req s h) = o) (hP : P (completed s h o)) :
    answers i s P :=
  ⟨_, by rw [hexec, row_of_starts hs, runCmd_of_starts hs, hrun], hP⟩

theorem keeps_completed (s : State) (h : Nat) (o : CmdOut) : Keeps (· ∈ [.regs, .sys, .hif]) o.r.s (completed s h o) :=
  Keeps.put_sys (by decide) (respond_keeps _ _ _ _ _ (by simp [Allows]) (Keeps.refl _ _) (Keeps.refl _ _))

@[simp] theorem recd_completed (s : State) (h : Nat) (o : CmdOut) : (completed s h o).recd = o.r.s.recd :=
  (keeps_completed s h o).same .recd (by decide)

@[simp] theorem free_completed (s : State) (h : Nat) (o : CmdOut) : (completed s h o).free = o.r.s.free :=
  (keeps_completed s h o).same .free (by decide)

/-- An OK is counted nowhere (R411). -/
theorem regs_completed_ok {o : CmdOut} (hok : o.r.status = stOk) (hq : o.silent = false) : (completed s h o).regs = o.r.s.regs := by
  change (respond o.r.s h (front s h) o (answerWait s h (front s h) o.wait o.r.status)).regs = o.r.s.regs
  cases answerWait s h (front s h) o.wait o.r.status with
  | none => rw [respond_posts h hq, postResult, regs_postFrame, hok, stOk, if_pos rfl]
  | some w => simp [respond, hq]

/-- A command that answers OK, and left the host interface and the step count as they were. -/
theorem answered_completed {u : State} (body : List Byte) (hhif : u.hif = (begun s h).hif) (hnow : u.now = s.now) :
    answered s (completed s h (plain (okBody u body))) h body :=
  ⟨completed_responded s h rfl rfl hnow, ring_completed s h hhif⟩

/-- A command that answers OK and does nothing moves no register. -/
theorem completed_ok_without_effect (s : State) (h : Nat) (body : List Byte) :
    let t := completed s h (plain (okBody (begun s h) body))
    t.regs = s.regs ∧ otherSlots s t h ∧ partsBut s t [.sys, .hif] := by
  intro t
  obtain ⟨-, -, hslots, hparts, hpending⟩ := completed_without_effect s h stOk body
  have hregs : t.regs = s.regs := regs_completed_ok rfl rfl
  refine ⟨hregs, hslots, fun p hp => ?_, hpending⟩
  by_cases hr : p = .regs
  · subst hr
    exact hregs
  · exact hparts p (by simpa [hr] using hp)

end Command

/-! ### REC_FREEZE (R417, R419) -/

/-- The response of REC_FREEZE: FROZEN and NEXT. -/
def freezeBody (s : State) : List Byte := [BitVec.ofNat 8 (bit s.recd.freeze.isSome 0), 0#8] ++ leBytes 2 s.recd.next

theorem freezeBody_eq {s : State} {frozen : Option Nat} (n : Nat) (hf : s.recd.freeze = frozen) (hn : s.recd.next = n) :
    freezeBody s = [BitVec.ofNat 8 (bit frozen.isSome 0), 0#8] ++ leBytes 2 n := by
  rw [freezeBody, hf, hn]

section FreezeCmd
variable {s : State} {h : Nat} {p : List Byte} (hrole : ownerOrService s h = true)
include hrole

theorem freezeCmd_reserved (hop : 1 < leAt p 0 1) : freezeCmd s h p = refuse s stInvalid := by
  simp [freezeCmd, hrole, hop]

variable (hresv : leAt p 1 3 = 0) (hserv : inService s = true)
include hresv hserv

theorem freezeCmd_release (hop : leAt p 0 1 = 0) : freezeCmd s h p = okBody (releaseFreeze s h) (freezeBody (releaseFreeze s h)) := by
  simp [freezeCmd, hrole, hresv, hserv, hop, freezeBody, leBytes]

theorem freezeCmd_freeze (hop : leAt p 0 1 = 1) (hnone : s.recd.freeze = none) :
    freezeCmd s h p = okBody (freezeLog s h) (freezeBody (freezeLog s h)) := by
  simp [freezeCmd, hrole, hresv, hserv, hop, hnone, freezeBody, leBytes]

end FreezeCmd

/-- Writing on after a freeze moves neither the host interface nor the step count. -/
theorem endFreeze_hif_now (s : State) : (endFreeze s).hif = s.hif ∧ (endFreeze s).now = s.now :=
  have hkeeps := endFreeze_keeps (R := (· ∈ [.regs, .recd])) s (by simp [Allows]) (Keeps.refl _ s)
  ⟨hkeeps.same .hif (by decide), hkeeps.same .now (by decide)⟩

section RecFreeze
variable {s : State} {h : Nat} (hs : starts s h 0x31) (hrole : ownerOrService s h = true)
include hs hrole

theorem recFreeze_reserved (hop : 1 < leAt (req s h) 0 1) : answers (.recFreeze h) s fun t =>
    responded s t h stInvalid [] ∧ regsBut s t [HIF_H_CNT_REJ h] ∧ otherSlots s t h ∧ partsBut s t [.regs, .sys, .hif] :=
  answers_without_effect (fun s p => plain (freezeCmd s h p)) hs rfl (congrArg plain (freezeCmd_reserved (s := begun s h) hrole hop))

variable (hresv : leAt (req s h) 1 3 = 0) (hserv : inService s = true)
include hresv hserv

theorem recFreeze_freezes (hop : leAt (req s h) 0 1 = 1) (hnone : s.recd.freeze = none) : answers (.recFreeze h) s fun t =>
    t.recd.freeze = some h ∧ answered s t h ([1#8, 0#8] ++ leBytes 2 s.recd.next) := by
  have hrun := congrArg plain (freezeCmd_freeze (s := begun s h) hrole hresv hserv hop hnone)
  refine answers_completed (fun s p => plain (freezeCmd s h p)) hs rfl hrun ⟨?_, answered_completed _ rfl rfl⟩
  rw [recd_completed]
  rfl

/-- Of a release shows what `releaseFreeze` makes of the state in which the command began. -/
theorem recFreeze_releases {P : State → Prop} (hop : leAt (req s h) 0 1 = 0)
    (hP : P (completed s h (plain (okBody (releaseFreeze (begun s h) h) (freezeBody (releaseFreeze (begun s h) h)))))) :
    answers (.recFreeze h) s P :=
  have hrun := congrArg plain (freezeCmd_release (s := begun s h) hrole hresv hserv hop)
  answers_completed (fun s p => plain (freezeCmd s h p)) hs rfl hrun hP

theorem recFreeze_released_by_holder (hop : leAt (req s h) 0 1 = 0) (hholds : s.recd.freeze = some h) :
    answers (.recFreeze h) s fun t => t.recd.freeze = none ∧ answered s t h ([0#8, 0#8] ++ leBytes 2 s.recd.next) := by
  have hrel : releaseFreeze (begun s h) h = endFreeze (begun s h) := if_pos hholds
  have hended := sameButQueue_endFreeze (begun s h)
  obtain ⟨hhif, hnow⟩ := endFreeze_hif_now (begun s h)
  refine recFreeze_releases hs hrole hresv hserv hop ?_
  rw [hrel, freezeBody_eq s.recd.next hended.freeze_eq hended.next_eq]
  exact ⟨(congrArg (·.freeze) (recd_completed _ _ _)).trans hended.freeze_eq, answered_completed _ hhif hnow⟩

theorem recFreeze_released_by_other (hop : leAt (req s h) 0 1 = 0) (hother : s.recd.freeze ≠ some h) :
    answers (.recFreeze h) s fun t => answered s t h ([BitVec.ofNat 8 (bit s.recd.freeze.isSome 0), 0#8] ++ leBytes 2 s.recd.next) ∧
      t.regs = s.regs ∧ otherSlots s t h ∧ partsBut s t [.sys, .hif] := by
  have hrel : releaseFreeze (begun s h) h = begun s h := if_neg hother
  refine recFreeze_releases hs hrole hresv hserv hop ?_
  rw [hrel]
  exact ⟨answered_completed _ rfl rfl, completed_ok_without_effect s h _⟩

end RecFreeze

/-- Settles O12: on the state in which the command began, OP decides among freezing, the end of the freeze or no effect, and a refusal. -/
theorem ruleOfFreezes : Obligations.RuleOfFreezes := by
  unfold Obligations.RuleOfFreezes
  intro s h hs hrole hresv hserv
  exact ⟨recFreeze_freezes hs hrole hresv hserv, recFreeze_released_by_holder hs hrole hresv hserv,
    recFreeze_released_by_other hs hrole hresv hserv, recFreeze_reserved hs hrole⟩

/-! ### REC_CHALLENGE (R421) -/

/-- The 16 bytes that the random source gives next. -/
def nextNonce (s : State) : List Byte := (List.range 16).map fun k => Config.randomByte s.free k

/-- The state in which slot `h` has been given the next nonce. -/
def challenged (s : State) (h : Nat) : State :=
  modRec (fresh s).2 fun r => { r with nonce := some (h, nextNonce s), nonceAt := absTick s (nowTick s) }

section ChallengeCmd
variable {s : State} {h : Nat} (hrole : ownerOrService s h = true) (hserv : inService s = true)
include hrole hserv

theorem challengeCmd_gives (hkey : s.recd.key.isSome = true) (hlock : s.recd.lock = false) :
    challengeCmd s h = okBody (challenged s h) (nextNonce s ++ leBytes 2 s.recd.next) := by
  have hkey' : s.recd.key.isNone = false := by simpa [Option.isSome_iff_ne_none] using hkey
  simp only [challengeCmd, hrole, hserv, hkey', hlock]
  rfl

theorem challengeCmd_refused (hno : s.recd.key = none ∨ s.recd.lock = true) : challengeCmd s h = refuse s stWrong := by
  obtain hno | hno := hno <;> simp [challengeCmd, hrole, hserv, hno]

end ChallengeCmd

section RecChallenge
variable {s : State} {h : Nat} (hs : starts s h 0x32) (hrole : ownerOrService s h = true) (hserv : inService s = true)
include hs hrole hserv

theorem recChallenge_gives (hkey : s.recd.key.isSome = true) (hlock : s.recd.lock = false) : answers (.recChallenge h) s fun t =>
    answered s t h (nextNonce s ++ leBytes 2 s.recd.next) ∧ t.recd.nonce = some (h, nextNonce s) ∧
      t.recd.nonceAt = absTick s (nowTick s) ∧ t.free = s.free + 1 := by
  have hrun := congrArg plain (challengeCmd_gives (s := begun s h) hrole hserv hkey hlock)
  refine answers_completed (fun s _ => plain (challengeCmd s h)) hs rfl hrun ⟨answered_completed _ rfl rfl, ?_⟩
  rw [recd_completed, free_completed]
  exact ⟨rfl, rfl, rfl⟩

theorem recChallenge_refused (hno : s.recd.key = none ∨ s.recd.lock = true) :
    answers (.recChallenge h) s fun t => responded s t h stWrong [] ∧ t.recd = s.recd := by
  have hrun := congrArg plain (challengeCmd_refused (s := begun s h) hrole hserv hno)
  obtain ⟨t, hexec, hresp, -, -, hparts⟩ :=
    answers_without_effect (i := .recChallenge h) (fun s _ => plain (challengeCmd s h)) hs rfl hrun
  exact ⟨t, hexec, hresp, hparts.1 .recd (by decide)⟩

end RecChallenge

/-! ### The end of a nonce (R421, R422) -/

theorem nonceOf_of_nonce {s : State} {g : Nat} {n : List Byte} (hn : s.recd.nonce = some (g, n)) (h : Nat) :
    nonceOf s h = if g = h then some n else none := by
  simp only [nonceOf, hn]

/-- A clear by a slot that may clear uses up the nonce, whether its MAC is right or wrong. -/
theorem nonce_clearCmd {s : State} {h : Nat} (hrole : ownerOrService s h = true) (hserv : inService s = true) (p : List Byte) :
    (clearCmd s h p).r.s.recd.nonce = none := by
  simp only [clearCmd, hrole, hserv, Bool.not_true, Bool.false_eq_true, if_false]
  split_ifs
  · rfl
  · exact nonce_authFail s h

theorem recClear_uses_nonce {s : State} {h : Nat} (hs : starts s h 0x33) (hrole : ownerOrService s h = true) (hserv : inService s = true) :
    answers (.recClear h) s fun t => t.recd.nonce = none := by
  refine answers_completed (fun s p => clearCmd s h p) hs rfl rfl ?_
  rw [recd_completed]
  exact nonce_clearCmd (s := begun s h) hrole hserv (req s h)

theorem nonce_nonceExpiry {s : State} {t : Nat} (hdue : s.recd.nonceAt + 60 * ticksPerSec ≤ t) : (nonceExpiry s t).recd.nonce = none := by
  unfold nonceExpiry
  split_ifs with hlive
  · rfl
  · simpa [hdue] using hlive

theorem nonceExpiry_ends_nonce {s : State} {t₀ : Nat} (hstep : inThisStep s t₀ = true)
    (hdue : s.recd.nonceAt + 60 * ticksPerSec ≤ absTick s t₀) : answers (.nonceExpiry t₀) s fun t => t.recd.nonce = none :=
  ⟨_, if_pos hstep, nonce_nonceExpiry hdue⟩

/-- Settles O13: a challenge leaves its own nonce as the only one, and each command that ends a nonce leaves none. -/
theorem ruleOfChallenges : Obligations.RuleOfChallenges := by
  unfold Obligations.RuleOfChallenges
  refine ⟨fun s h hs hrole hserv => ⟨recChallenge_gives hs hrole hserv, recChallenge_refused hs hrole hserv⟩,
    fun s g h n hn => nonceOf_of_nonce hn h, fun s h hs hrole hserv => recClear_uses_nonce hs hrole hserv,
    fun s t₀ hstep hdue => nonceExpiry_ends_nonce hstep hdue⟩

end Sys2Proof.Recorder

namespace Sys2Proof.Health

open Sys2Proof Sys2Proof.Machine

/-! ### The limits of the voltage monitors (R427, R500) -/

/-- The limits, LO and HI in mV, that R500 gives monitor V`k` at reset: 5 % outside the supplies of V0 to V6, the ranges of R482 for
ANT_VBIAS and the eight VBAT. -/
def resetLimits (k : Nat) : Nat × Nat :=
  if k < 7 then (95 * (supplies.getD k (0, 0)).1 / 100, 105 * (supplies.getD k (0, 0)).2 / 100)
  else if k = 7 then (3000, 5500)
  else (6000, 36000)

/-- LO stands in the lower half of the register and HI in the upper half. -/
def limitWord (l : Nat × Nat) : Word := BitVec.ofNat 32 (2 ^ 16 * l.2 + l.1)

theorem getF_monVlim {s : State} {k : Nat} {l : Nat × Nat} (hw : rd s (MON_VLIM k) = limitWord l) (hlo : l.1 < 2 ^ 16) (hhi : l.2 < 2 ^ 16) :
    getF s (MON_VLIM_LO k) = l.1 ∧ getF s (MON_VLIM_HI k) = l.2 := by
  have hnat : (limitWord l).toNat = 2 ^ 16 * l.2 + l.1 := by
    rw [limitWord, BitVec.toNat_ofNat]
    omega
  simp only [getF, bitsOf, hw, hnat]
  omega

theorem rd_reset (i : Nat) : rd State.reset i = regReset i := rfl

/-- The reset words of chapter 19 are the table of R500. -/
theorem regReset_monVlim : ∀ k < 16, regReset (MON_VLIM k) = limitWord (resetLimits k) := by decide

theorem resetLimits_lt : ∀ k < 16, (resetLimits k).1 < 2 ^ 16 ∧ (resetLimits k).2 < 2 ^ 16 := by decide

theorem getF_reset_monVlim {k : Nat} (hk : k < 16) :
    getF State.reset (MON_VLIM_LO k) = (resetLimits k).1 ∧ getF State.reset (MON_VLIM_HI k) = (resetLimits k).2 :=
  getF_monVlim ((rd_reset _).trans (regReset_monVlim k hk)) (resetLimits_lt k hk).1 (resetLimits_lt k hk).2

/-- 5 % of each supply is a whole number of mV, so that its limits are exact. -/
theorem resetLimits_supply : ∀ k < 7, 100 * (resetLimits k).1 = 95 * (supplies.getD k (0, 0)).1 ∧
    100 * (resetLimits k).2 = 105 * (supplies.getD k (0, 0)).2 := by decide

theorem resetLimits_vbat {k : Nat} (hk : 8 ≤ k) : resetLimits k = (6000, 36000) := by
  rw [resetLimits, if_neg (by omega), if_neg (by omega)]

/-- Settles O14: each register's reset word holds the limits of R500, which are read off for the supplies, ANT_VBIAS and VBAT. -/
theorem ruleOfMonitorLimits : Obligations.RuleOfMonitorLimits := by
  unfold Obligations.RuleOfMonitorLimits
  obtain ⟨hlo7, hhi7⟩ := getF_reset_monVlim (k := 7) (by decide)
  refine ⟨fun k hk => ?supply, hlo7, hhi7, fun k h8 hk => ?vbat⟩
  case supply =>
    obtain ⟨hlo, hhi⟩ := getF_reset_monVlim (k := k) (by omega)
    rw [hlo, hhi]
    exact resetLimits_supply k hk
  case vbat => simpa only [resetLimits_vbat h8] using getF_reset_monVlim hk

end Sys2Proof.Health

namespace Sys2Proof.EveryCommand

open Sys2Proof Sys2Proof.Machine

/-! ### What every command leaves alone, and where it answers (R7, log entries 1, 2 and 5) -/

/-- The law of each command's meaning, with the parts that the command reaches. -/
theorem exec_keeps (i : Instr) (s : State) : OKeeps (· ∈ reach i) s (exec i s) :=
  match i with
  | .powerUp _ => execPowerUp_keeps _ s (fun _ hp => hp) (.refl _ s)
  | .resetN _ _ => execResetN_keeps _ _ s (fun _ hp => hp) (.refl _ s)
  | .brownOut _ _ => execBrownOut_keeps _ _ s (fun _ hp => hp) (.refl _ s)
  | .brownOutRelease _ => execBrownOutRelease_keeps _ s (fun _ hp => hp) (.refl _ s)
  | .thermalShutdown _ _ => execThermalShutdown_keeps _ _ s (fun _ hp => hp) (.refl _ s)
  | .thermalShutdownRelease _ => execThermalShutdownRelease_keeps _ s (fun _ hp => hp) (.refl _ s)
  | .vcoreOvervoltage _ => execVcoreOvervoltage_keeps _ s (fun _ hp => hp) (.refl _ s)
  | .tcxoMissing _ => execTcxoMissing_keeps _ s (fun _ hp => hp) (.refl _ s)
  | .tcxoPresent _ => execTcxoPresent_keeps _ s (fun _ hp => hp) (.refl _ s)
  | .pllLock _ _ => execPllLock_keeps _ _ s (fun _ hp => hp) (.refl _ s)
  | .pllUnlock _ _ => execPllUnlock_keeps _ _ s (fun _ hp => hp) (.refl _ s)
  | .lockstepError _ => execLockstepError_keeps _ s (fun _ hp => hp) (.refl _ s)
  | .heartbeatTimeout _ => execHeartbeatTimeout_keeps _ s (fun _ hp => hp) (.refl _ s)
  | .firmwareRestart => execFirmwareRestart_keeps s (fun _ hp => hp) (.refl _ s)
  | .imageVerified _ => execImageVerified_keeps _ s (fun _ hp => hp) (.refl _ s)
  | .enableLoss _ _ _ => execEnableLoss_keeps _ _ _ s (fun _ hp => hp) (.refl _ s)
  | .enableRestored => execEnableRestored_keeps s (fun _ hp => hp) (.refl _ s)
  | .kinematicStep _ _ => execKinematicStep_keeps _ _ s (fun _ hp => hp) (.refl _ s)
  | .retainTimeout _ => execRetainTimeout_keeps _ s (fun _ hp => hp) (.refl _ s)
  | .confirmTimeout _ => execConfirmTimeout_keeps _ s (fun _ hp => hp) (.refl _ s)
  | .mismatchSet _ => execMismatchSet_keeps _ s (fun _ hp => hp) (.refl _ s)
  | .gnssLost => execGnssLost_keeps s (fun _ hp => hp) (.refl _ s)
  | .standstill => execStandstill_keeps s (fun _ hp => hp) (.refl _ s)
  | .hitchEncoderFail => execHitchEncoderFail_keeps s (fun _ hp => hp) (.refl _ s)
  | .hitchEncoderReturn => execHitchEncoderReturn_keeps s (fun _ hp => hp) (.refl _ s)
  | .drLimitPassed => execDrLimitPassed_keeps s (fun _ hp => hp) (.refl _ s)
  | .edgeFire _ => execEdgeFire_keeps _ s (fun _ hp => hp) (.refl _ s)
  | .peakCurrentReached _ _ _ _ => execPeakCurrentReached_keeps _ _ _ _ s (fun _ hp => hp) (.refl _ s)
  | .peakEnd _ => execPeakEnd_keeps _ s (fun _ hp => hp) (.refl _ s)
  | .gridRise _ => execGridRise_keeps _ s (fun _ hp => hp) (.refl _ s)
  | .pulseFall _ => execPulseFall_keeps _ s (fun _ hp => hp) (.refl _ s)
  | .sensedReleaseEnd _ => execSensedReleaseEnd_keeps _ s (fun _ hp => hp) (.refl _ s)
  | .motionReport _ _ _ => execMotionReport_keeps _ _ _ s (fun _ hp => hp) (.refl _ s)
  | .windowClose _ _ _ => execWindowClose_keeps _ _ _ s (fun _ hp => hp) (.refl _ s)
  | .openLoadOn _ _ => execOpenLoadOn_keeps _ _ s (fun _ hp => hp) (.refl _ s)
  | .openLoadOff _ => execOpenLoadOff_keeps _ s (fun _ hp => hp) (.refl _ s)
  | .lsOvercurrent _ _ => execLsOvercurrent_keeps _ _ s (fun _ hp => hp) (.refl _ s)
  | .shortToGround _ _ => execShortToGround_keeps _ _ s (fun _ hp => hp) (.refl _ s)
  | .hsOvercurrent _ _ => execHsOvercurrent_keeps _ _ s (fun _ hp => hp) (.refl _ s)
  | .chOvertemp _ _ => execChOvertemp_keeps _ _ s (fun _ hp => hp) (.refl _ s)
  | .tempWarning _ => execTempWarning_keeps _ s (fun _ hp => hp) (.refl _ s)
  | .hsOvertemp _ _ => execHsOvertemp_keeps _ _ s (fun _ hp => hp) (.refl _ s)
  | .groupUndervoltage _ _ => execGroupUndervoltage_keeps _ _ s (fun _ hp => hp) (.refl _ s)
  | .groupOvervoltage _ _ => execGroupOvervoltage_keeps _ _ s (fun _ hp => hp) (.refl _ s)
  | .autoProtectionRelease _ _ _ => execAutoProtectionRelease_keeps _ _ _ s (fun _ hp => hp) (.refl _ s)
  | .kettleTick _ => execKettleTick_keeps _ s (fun _ hp => hp) (.refl _ s)
  | .kettleEvaluation _ => execKettleEvaluation_keeps _ s (fun _ hp => hp) (.refl _ s)
  | .drvEn _ _ => execDrvEn_keeps _ _ s (fun _ hp => hp) (.refl _ s)
  | .groupEn _ _ _ => execGroupEn_keeps _ _ _ s (fun _ hp => hp) (.refl _ s)
  | .resume _ _ => execResume_keeps _ _ s (fun _ hp => hp) (.refl _ s)
  | .resumeAll _ => execResumeAll_keeps _ s (fun _ hp => hp) (.refl _ s)
  | .drvModeWrite _ _ _ => execDrvModeWrite_keeps _ _ _ s (fun _ hp => hp) (.refl _ s)
  | .pairWrite _ _ _ => execPairWrite_keeps _ _ _ s (fun _ hp => hp) (.refl _ s)
  | .protectionFlagClear _ _ _ _ => execProtectionFlagClear_keeps _ _ _ _ s (fun _ hp => hp) (.refl _ s)
  | .ringCycle _ _ => execRingCycle_keeps _ _ s (fun _ hp => hp) (.refl _ s)
  | .ringBreak _ _ => execRingBreak_keeps _ _ s (fun _ hp => hp) (.refl _ s)
  | .reportAreaTimeout _ _ => execReportAreaTimeout_keeps _ _ s (fun _ hp => hp) (.refl _ s)
  | .tagRelease _ _ _ => execTagRelease_keeps _ _ _ s (fun _ hp => hp) (.refl _ s)
  | .fjlEn _ _ _ => execFjlEn_keeps _ _ _ s (fun _ hp => hp) (.refl _ s)
  | .heal _ _ => execHeal_keeps _ _ s (fun _ hp => hp) (.refl _ s)
  | .fjlResumeAll _ _ => execFjlResumeAll_keeps _ _ s (fun _ hp => hp) (.refl _ s)
  | .ringSafeWrite _ _ _ => execRingSafeWrite_keeps _ _ _ s (fun _ hp => hp) (.refl _ s)
  | .nodeResume _ _ _ => execNodeResume_keeps _ _ _ s (fun _ hp => hp) (.refl _ s)
  | .nodeClrFlt _ _ _ => execNodeClrFlt_keeps _ _ _ s (fun _ hp => hp) (.refl _ s)
  | .chApply _ _ => execChApply_keeps _ _ s (fun _ hp => hp) (.refl _ s)
  | .loopSample _ => execLoopSample_keeps _ s (fun _ hp => hp) (.refl _ s)
  | .loopOutput _ => execLoopOutput_keeps _ s (fun _ hp => hp) (.refl _ s)
  | .saturationAlarm _ => execSaturationAlarm_keeps _ s (fun _ hp => hp) (.refl _ s)
  | .loopModeWrite _ _ _ => execLoopModeWrite_keeps _ _ _ s (fun _ hp => hp) (.refl _ s)
  | .cleEn _ _ => execCleEn_keeps _ _ s (fun _ hp => hp) (.refl _ s)
  | .injGo _ _ => execInjGo_keeps _ _ s (fun _ hp => hp) (.refl _ s)
  | .injStop _ => execInjStop_keeps _ s (fun _ hp => hp) (.refl _ s)
  | .injectionEnd => execInjectionEnd_keeps s (fun _ hp => hp) (.refl _ s)
  | .capArm _ _ => execCapArm_keeps _ _ s (fun _ hp => hp) (.refl _ s)
  | .capAbort _ => execCapAbort_keeps _ s (fun _ hp => hp) (.refl _ s)
  | .periodBoundary _ => execPeriodBoundary_keeps _ s (fun _ hp => hp) (.refl _ s)
  | .shadowWrite _ _ _ _ _ => execShadowWrite_keeps _ _ _ _ _ s (fun _ hp => hp) (.refl _ s)
  | .pwmLoadall _ _ => execPwmLoadall_keeps _ _ s (fun _ hp => hp) (.refl _ s)
  | .pwmStart _ _ _ => execPwmStart_keeps _ _ _ s (fun _ hp => hp) (.refl _ s)
  | .pwmTrip _ => execPwmTrip_keeps _ s (fun _ hp => hp) (.refl _ s)
  | .tripClear _ _ _ => execTripClear_keeps _ _ _ s (fun _ hp => hp) (.refl _ s)
  | .pwmResume _ _ => execPwmResume_keeps _ _ s (fun _ hp => hp) (.refl _ s)
  | .delayLineLock _ => execDelayLineLock_keeps _ s (fun _ hp => hp) (.refl _ s)
  | .serialReadStart _ => execSerialReadStart_keeps _ s (fun _ hp => hp) (.refl _ s)
  | .serialReadDone _ _ => execSerialReadDone_keeps _ _ s (fun _ hp => hp) (.refl _ s)
  | .quadTransition _ _ _ _ _ => execQuadTransition_keeps _ _ _ _ _ s (fun _ hp => hp) (.refl _ s)
  | .indexEdge _ _ _ _ => execIndexEdge_keeps _ _ _ _ s (fun _ hp => hp) (.refl _ s)
  | .speedWindowEnd _ => execSpeedWindowEnd_keeps _ s (fun _ hp => hp) (.refl _ s)
  | .wheelPulse _ _ _ _ _ => execWheelPulse_keeps _ _ _ _ _ s (fun _ hp => hp) (.refl _ s)
  | .flowEdge _ _ _ => execFlowEdge_keeps _ _ _ s (fun _ hp => hp) (.refl _ s)
  | .portModeWrite _ _ _ => execPortModeWrite_keeps _ _ _ s (fun _ hp => hp) (.refl _ s)
  | .portFaultClear _ _ _ => execPortFaultClear_keeps _ _ _ s (fun _ hp => hp) (.refl _ s)
  | .ainConversion _ _ => execAinConversion_keeps _ _ s (fun _ hp => hp) (.refl _ s)
  | .ainFault _ => execAinFault_keeps _ s (fun _ hp => hp) (.refl _ s)
  | .ainFaultClear _ => execAinFaultClear_keeps _ s (fun _ hp => hp) (.refl _ s)
  | .imuDrdy _ _ => execImuDrdy_keeps _ _ s (fun _ hp => hp) (.refl _ s)
  | .imuTimeout _ => execImuTimeout_keeps _ s (fun _ hp => hp) (.refl _ s)
  | .imuXferWrite _ _ _ => execImuXferWrite_keeps _ _ _ s (fun _ hp => hp) (.refl _ s)
  | .imuXferRead _ _ _ => execImuXferRead_keeps _ _ _ s (fun _ hp => hp) (.refl _ s)
  | .measEpoch _ _ _ _ _ _ => execMeasEpoch_keeps _ _ _ _ _ _ s (fun _ hp => hp) (.refl _ s)
  | .solution _ _ => execSolution_keeps _ _ s (fun _ hp => hp) (.refl _ s)
  | .acqDwell _ _ => execAcqDwell_keeps _ _ s (fun _ hp => hp) (.refl _ s)
  | .aidedSearch _ _ _ _ => execAidedSearch_keeps _ _ _ _ s (fun _ hp => hp) (.refl _ s)
  | .pullinToTrack _ _ => execPullinToTrack_keeps _ _ s (fun _ hp => hp) (.refl _ s)
  | .trackLoss _ _ _ => execTrackLoss_keeps _ _ _ s (fun _ hp => hp) (.refl _ s)
  | .lostHoldExpiry _ _ => execLostHoldExpiry_keeps _ _ s (fun _ hp => hp) (.refl _ s)
  | .navUnit _ _ _ _ _ _ _ => execNavUnit_keeps _ _ _ _ _ _ _ s (fun _ hp => hp) (.refl _ s)
  | .antOpen _ => execAntOpen_keeps _ s (fun _ hp => hp) (.refl _ s)
  | .antShort _ _ => execAntShort_keeps _ _ s (fun _ hp => hp) (.refl _ s)
  | .biasReclose _ _ => execBiasReclose_keeps _ _ s (fun _ hp => hp) (.refl _ s)
  | .correctionAgeExceeded _ => execCorrectionAgeExceeded_keeps _ s (fun _ hp => hp) (.refl _ s)
  | .sourceHoldExpiry _ => execSourceHoldExpiry_keeps _ s (fun _ hp => hp) (.refl _ s)
  | .gnsRst _ => execGnsRst_keeps _ s (fun _ hp => hp) (.refl _ s)
  | .slotPin _ _ => execSlotPin_keeps _ _ s (fun _ hp => hp) (.refl _ s)
  | .ppsPulse _ _ => execPpsPulse_keeps _ _ s (fun _ hp => hp) (.refl _ s)
  | .holdoverEntry _ => execHoldoverEntry_keeps _ s (fun _ hp => hp) (.refl _ s)
  | .holdoverLimit _ => execHoldoverLimit_keeps _ s (fun _ hp => hp) (.refl _ s)
  | .leapSecond _ => execLeapSecond_keeps _ s (fun _ hp => hp) (.refl _ s)
  | .tbSnap _ => execTbSnap_keeps _ s (fun _ hp => hp) (.refl _ s)
  | .tbSet _ _ _ => execTbSet_keeps _ _ _ s (fun _ hp => hp) (.refl _ s)
  | .tbStep _ _ _ _ => execTbStep_keeps _ _ _ _ s (fun _ hp => hp) (.refl _ s)
  | .tbSlew _ _ _ => execTbSlew_keeps _ _ _ s (fun _ hp => hp) (.refl _ s)
  | .stepAtSecond _ _ => execStepAtSecond_keeps _ _ s (fun _ hp => hp) (.refl _ s)
  | .slewComplete _ _ => execSlewComplete_keeps _ _ s (fun _ hp => hp) (.refl _ s)
  | .ethFrameRx _ => execEthFrameRx_keeps _ s (fun _ hp => hp) (.refl _ s)
  | .insert _ => execInsert_keeps _ s (fun _ hp => hp) (.refl _ s)
  | .autoInsert => execAutoInsert_keeps s (fun _ hp => hp) (.refl _ s)
  | .bypSenseChange _ _ => execBypSenseChange_keeps _ _ s (fun _ hp => hp) (.refl _ s)
  | .insertionComplete => execInsertionComplete_keeps s (fun _ hp => hp) (.refl _ s)
  | .linkTimeout _ => execLinkTimeout_keeps _ s (fun _ hp => hp) (.refl _ s)
  | .relayFault _ => execRelayFault_keeps _ s (fun _ hp => hp) (.refl _ s)
  | .bypass _ => execBypass_keeps _ s (fun _ hp => hp) (.refl _ s)
  | .linkLoss => execLinkLoss_keeps s (fun _ hp => hp) (.refl _ s)
  | .relayFaultClear _ => execRelayFaultClear_keeps _ s (fun _ hp => hp) (.refl _ s)
  | .canEn _ _ _ => execCanEn_keeps _ _ _ s (fun _ hp => hp) (.refl _ s)
  | .busSync _ => execBusSync_keeps _ s (fun _ hp => hp) (.refl _ s)
  | .canFrameRx _ _ _ _ => execCanFrameRx_keeps _ _ _ _ s (fun _ hp => hp) (.refl _ s)
  | .txAttemptEnd _ _ _ _ _ => execTxAttemptEnd_keeps _ _ _ _ _ s (fun _ hp => hp) (.refl _ s)
  | .canError _ _ _ _ _ _ => execCanError_keeps _ _ _ _ _ _ s (fun _ hp => hp) (.refl _ s)
  | .transmitAtTime _ _ _ => execTransmitAtTime_keeps _ _ _ s (fun _ hp => hp) (.refl _ s)
  | .lateWinExpiry _ _ _ => execLateWinExpiry_keeps _ _ _ s (fun _ hp => hp) (.refl _ s)
  | .ttSlot _ _ _ => execTtSlot_keeps _ _ _ s (fun _ hp => hp) (.refl _ s)
  | .ttWindowExpiry _ _ _ => execTtWindowExpiry_keeps _ _ _ s (fun _ hp => hp) (.refl _ s)
  | .boDelayExpiry _ _ => execBoDelayExpiry_keeps _ _ s (fun _ hp => hp) (.refl _ s)
  | .recover _ _ => execRecover_keeps _ _ s (fun _ hp => hp) (.refl _ s)
  | .recoveryDone _ => execRecoveryDone_keeps _ s (fun _ hp => hp) (.refl _ s)
  | .addressClaimed _ => execAddressClaimed_keeps _ s (fun _ hp => hp) (.refl _ s)
  | .addressLost => execAddressLost_keeps s (fun _ hp => hp) (.refl _ s)
  | .nextSearchDone => execNextSearchDone_keeps s (fun _ hp => hp) (.refl _ s)
  | .recordWritten => execRecordWritten_keeps s (fun _ hp => hp) (.refl _ s)
  | .freezeTmo _ => execFreezeTmo_keeps _ s (fun _ hp => hp) (.refl _ s)
  | .clearDone => execClearDone_keeps s (fun _ hp => hp) (.refl _ s)
  | .lockoutEnd _ => execLockoutEnd_keeps _ s (fun _ hp => hp) (.refl _ s)
  | .nonceExpiry _ => execNonceExpiry_keeps _ s (fun _ hp => hp) (.refl _ s)
  | .opsecSave => execOpsecSave_keeps s (fun _ hp => hp) (.refl _ s)
  | .monSample _ => execMonSample_keeps _ s (fun _ hp => hp) (.refl _ s)
  | .limitReached _ => execLimitReached_keeps _ s (fun _ hp => hp) (.refl _ s)
  | .limitLeft _ => execLimitLeft_keeps _ s (fun _ hp => hp) (.refl _ s)
  | .slackRun _ => execSlackRun_keeps _ s (fun _ hp => hp) (.refl _ s)
  | .avsEvaluation => execAvsEvaluation_keeps s (fun _ hp => hp) (.refl _ s)
  | .avsReadback _ _ => execAvsReadback_keeps _ _ s (fun _ hp => hp) (.refl _ s)
  | .avsModeWrite _ _ _ => execAvsModeWrite_keeps _ _ _ s (fun _ hp => hp) (.refl _ s)
  | .logicDissipation _ _ => execLogicDissipation_keeps _ _ s (fun _ hp => hp) (.refl _ s)
  | .lifeDrift => execLifeDrift_keeps s (fun _ hp => hp) (.refl _ s)
  | .crossTimeout _ _ => execCrossTimeout_keeps _ _ s (fun _ hp => hp) (.refl _ s)
  | .crossResync _ _ => execCrossResync_keeps _ _ s (fun _ hp => hp) (.refl _ s)
  | .blockReset _ _ => execBlockReset_keeps _ _ s (fun _ hp => hp) (.refl _ s)
  | .blockResetRelease _ => execBlockResetRelease_keeps _ s (fun _ hp => hp) (.refl _ s)
  | .winRead _ _ => execWinRead_keeps _ _ s (fun _ hp => hp) (.refl _ s)
  | .winWrite _ _ => execWinWrite_keeps _ _ s (fun _ hp => hp) (.refl _ s)
  | .winAck _ _ => execWinAck_keeps _ _ s (fun _ hp => hp) (.refl _ s)
  | .windowFreeze _ _ _ => execWindowFreeze_keeps _ _ _ s (fun _ hp => hp) (.refl _ s)
  | .reqWrite _ _ => execReqWrite_keeps _ _ s (fun _ hp => hp) (.refl _ s)
  | .rspRead _ _ => execRspRead_keeps _ _ s (fun _ hp => hp) (.refl _ s)
  | .udpDatagram _ _ _ _ => execUdpDatagram_keeps _ _ _ _ s (fun _ hp => hp) (.refl _ s)
  | .canbSegment _ _ => execCanbSegment_keeps _ _ s (fun _ hp => hp) (.refl _ s)
  | .segmentTimeout _ => execSegmentTimeout_keeps _ s (fun _ hp => hp) (.refl _ s)
  | .keepAliveExpiry _ _ => execKeepAliveExpiry_keeps _ _ s (fun _ hp => hp) (.refl _ s)
  | .tcConnect => execTcConnect_keeps s (fun _ hp => hp) (.refl _ s)
  | .tcDisconnect => execTcDisconnect_keeps s (fun _ hp => hp) (.refl _ s)
  | .nop _ => execNop_keeps _ s (fun _ hp => hp) (.refl _ s)
  | .identify _ => execIdentify_keeps _ s (fun _ hp => hp) (.refl _ s)
  | .attach _ => execAttach_keeps _ s (fun _ hp => hp) (.refl _ s)
  | .detach _ => execDetach_keeps _ s (fun _ hp => hp) (.refl _ s)
  | .fence _ => execFence_keeps _ s (fun _ hp => hp) (.refl _ s)
  | .rspRepeat _ => execRspRepeat_keeps _ s (fun _ hp => hp) (.refl _ s)
  | .notifyCfg _ => execNotifyCfg_keeps _ s (fun _ hp => hp) (.refl _ s)
  | .paramRead _ => execParamRead_keeps _ s (fun _ hp => hp) (.refl _ s)
  | .paramWrite _ => execParamWrite_keeps _ s (fun _ hp => hp) (.refl _ s)
  | .stateWordWrite _ _ _ _ => execStateWordWrite_keeps _ _ _ _ s (fun _ hp => hp) (.refl _ s)
  | .kinEn _ _ => execKinEn_keeps _ _ s (fun _ hp => hp) (.refl _ s)
  | .schEn _ _ => execSchEn_keeps _ _ s (fun _ hp => hp) (.refl _ s)
  | .mapEn _ _ => execMapEn_keeps _ _ s (fun _ hp => hp) (.refl _ s)
  | .kinChSel _ _ => execKinChSel_keeps _ _ s (fun _ hp => hp) (.refl _ s)
  | .schSlotSel _ _ => execSchSlotSel_keeps _ _ s (fun _ hp => hp) (.refl _ s)
  | .schChSel _ _ => execSchChSel_keeps _ _ s (fun _ hp => hp) (.refl _ s)
  | .mapChSel _ _ => execMapChSel_keeps _ _ s (fun _ hp => hp) (.refl _ s)
  | .actChSel _ _ => execActChSel_keeps _ _ s (fun _ hp => hp) (.refl _ s)
  | .gnsSlotSel _ _ => execGnsSlotSel_keeps _ _ s (fun _ hp => hp) (.refl _ s)
  | .alarmFlagClear _ _ => execAlarmFlagClear_keeps _ _ s (fun _ hp => hp) (.refl _ s)
  | .clrCov _ => execClrCov_keeps _ s (fun _ hp => hp) (.refl _ s)
  | .clrExc _ => execClrExc_keeps _ s (fun _ hp => hp) (.refl _ s)
  | .clrZone _ => execClrZone_keeps _ s (fun _ hp => hp) (.refl _ s)
  | .clrAll _ => execClrAll_keeps _ s (fun _ hp => hp) (.refl _ s)
  | .mapClearDone => execMapClearDone_keeps s (fun _ hp => hp) (.refl _ s)
  | .rasterGo _ => execRasterGo_keeps _ s (fun _ hp => hp) (.refl _ s)
  | .rasterPassEnd => execRasterPassEnd_keeps s (fun _ hp => hp) (.refl _ s)
  | .tableRead _ => execTableRead_keeps _ s (fun _ hp => hp) (.refl _ s)
  | .tableWrite _ => execTableWrite_keeps _ s (fun _ hp => hp) (.refl _ s)
  | .lease _ => execLease_keeps _ s (fun _ hp => hp) (.refl _ s)
  | .release _ => execRelease_keeps _ s (fun _ hp => hp) (.refl _ s)
  | .eventPost _ => execEventPost_keeps _ s (fun _ hp => hp) (.refl _ s)
  | .eventCancel _ => execEventCancel_keeps _ s (fun _ hp => hp) (.refl _ s)
  | .tileRead _ => execTileRead_keeps _ s (fun _ hp => hp) (.refl _ s)
  | .tileWrite _ => execTileWrite_keeps _ s (fun _ hp => hp) (.refl _ s)
  | .gnsMeasRead _ => execGnsMeasRead_keeps _ s (fun _ hp => hp) (.refl _ s)
  | .gnsNavRead _ => execGnsNavRead_keeps _ s (fun _ hp => hp) (.refl _ s)
  | .rtcmWrite _ => execRtcmWrite_keeps _ s (fun _ hp => hp) (.refl _ s)
  | .canSend _ => execCanSend_keeps _ s (fun _ hp => hp) (.refl _ s)
  | .canRecv _ => execCanRecv_keeps _ s (fun _ hp => hp) (.refl _ s)
  | .canAbort _ => execCanAbort_keeps _ s (fun _ hp => hp) (.refl _ s)
  | .recRead _ => execRecRead_keeps _ s (fun _ hp => hp) (.refl _ s)
  | .recFreeze _ => execRecFreeze_keeps _ s (fun _ hp => hp) (.refl _ s)
  | .recChallenge _ => execRecChallenge_keeps _ s (fun _ hp => hp) (.refl _ s)
  | .recClear _ => execRecClear_keeps _ s (fun _ hp => hp) (.refl _ s)
  | .fwInfo _ => execFwInfo_keeps _ s (fun _ hp => hp) (.refl _ s)
  | .fwBegin _ => execFwBegin_keeps _ s (fun _ hp => hp) (.refl _ s)
  | .fwData _ => execFwData_keeps _ s (fun _ hp => hp) (.refl _ s)
  | .fwEnd _ _ => execFwEnd_keeps _ _ s (fun _ hp => hp) (.refl _ s)
  | .fwActivate _ => execFwActivate_keeps _ s (fun _ hp => hp) (.refl _ s)
  | .fwCommit _ => execFwCommit_keeps _ s (fun _ hp => hp) (.refl _ s)
  | .cfgSave _ => execCfgSave_keeps _ s (fun _ hp => hp) (.refl _ s)
  | .cfgErase _ => execCfgErase_keeps _ s (fun _ hp => hp) (.refl _ s)
  | .keySet _ => execKeySet_keeps _ s (fun _ hp => hp) (.refl _ s)
  | .sysReset _ => execSysReset_keeps _ s (fun _ hp => hp) (.refl _ s)
  | .resetEnded _ _ => execResetEnded_keeps _ _ s (fun _ hp => hp) (.refl _ s)
  | .phyLinkChange _ _ _ _ => execPhyLinkChange_keeps _ _ _ _ s (fun _ hp => hp) (.refl _ s)
  | .pwmCmpEvent _ _ => execPwmCmpEvent_keeps _ _ s (fun _ hp => hp) (.refl _ s)
  | .pwmPrdEvent _ => execPwmPrdEvent_keeps _ s (fun _ hp => hp) (.refl _ s)
  | .chopPeriod _ _ _ => execChopPeriod_keeps _ _ _ s (fun _ hp => hp) (.refl _ s)
  | .ppsPulseEnd _ _ => execPpsPulseEnd_keeps _ _ s (fun _ hp => hp) (.refl _ s)
  | .emuOutputEdge _ _ => execEmuOutputEdge_keeps _ _ s (fun _ hp => hp) (.refl _ s)
  | .speedSignalEdge _ _ _ _ => execSpeedSignalEdge_keeps _ _ _ _ s (fun _ hp => hp) (.refl _ s)
  | .fwEraseDone => execFwEraseDone_keeps s (fun _ hp => hp) (.refl _ s)
  | .cfgSaveDone => execCfgSaveDone_keeps s (fun _ hp => hp) (.refl _ s)
  | .addressAgeing _ _ => execAddressAgeing_keeps _ _ s (fun _ hp => hp) (.refl _ s)
  | .ptpMasterLoss _ _ => execPtpMasterLoss_keeps _ _ s (fun _ hp => hp) (.refl _ s)
  | .syncInterval _ _ => execSyncInterval_keeps _ _ s (fun _ hp => hp) (.refl _ s)

theorem Keeps.canonical {R : Part → Prop} {s t : State} (hkeeps : Keeps R s t) (hs : s.canonical = true) : t.canonical = true := by
  rw [State.canonical, Bool.and_eq_true] at hs ⊢
  exact hs.imp hkeeps.regs hkeeps.tables

/-- Settles O3: the command at the front keeps registers and tables canonical, whichever it is; taking it from the queue, and idling,
touch neither. -/
theorem everyStepKeepsTheCanonicalForm : Obligations.EveryStepKeepsTheCanonicalForm := by
  unfold Obligations.EveryStepKeepsTheCanonicalForm
  intro s t hs hstep
  cases hq : s.pending with
  | nil =>
    obtain rfl : s = t := by simpa [step, hq] using hstep
    exact hs
  | cons c rest =>
    have hexec : exec c { s with pending := rest } = .next t := by simpa only [step, hq] using hstep
    exact Keeps.canonical (exec_keeps c _ t hexec) hs

/-! ### Admission (log entry 5) -/

theorem answer_and_true (ok : Bool) (t : State) : answer ok t = answer (ok && true) t := by rw [Bool.and_true]

theorem answer_and_comm (a b : Bool) (t : State) : answer (a && b) t = answer (b && a) t := by rw [Bool.and_comm]

/-- The meaning of a host row that has more than its slot to check. -/
theorem rowOf_and_assoc (h : Nat) (a b : Bool) (t : State) : rowOf h (a && b) t = answer (decide (h < 4) && a && b && true) t := by
  rw [rowOf, Bool.and_true, Bool.and_assoc]

/-- Every meaning is one `answer`, and what it checks is what `admits` says: in most rows word for word, in host rows and rows without
an instant with nothing of the moment to check. -/
theorem exec_eq_answer (i : Instr) (s : State) : ∃ t, exec i s = answer (admits i s) t := by
  cases i
  case powerUp | resetN | brownOut | brownOutRelease | thermalShutdown | thermalShutdownRelease | vcoreOvervoltage | tcxoMissing |
      tcxoPresent | pllLock | pllUnlock | lockstepError | heartbeatTimeout | firmwareRestart | imageVerified | enableLoss |
      enableRestored | gnssLost | standstill | hitchEncoderFail | hitchEncoderReturn | drLimitPassed | kettleEvaluation | drvEn |
      resumeAll | cleEn | injStop | injectionEnd | capAbort | imuDrdy | imuTimeout | aidedSearch | trackLoss | lostHoldExpiry | antShort
      | biasReclose | correctionAgeExceeded | sourceHoldExpiry | gnsRst | slotPin | ppsPulse | holdoverEntry | holdoverLimit |
      leapSecond | tbSnap | stepAtSecond | slewComplete | ethFrameRx | insert | autoInsert | bypSenseChange | insertionComplete |
      linkTimeout | relayFault | bypass | linkLoss | relayFaultClear | txAttemptEnd | canError | transmitAtTime | lateWinExpiry | ttSlot
      | ttWindowExpiry | boDelayExpiry | addressLost | nextSearchDone | recordWritten | freezeTmo | clearDone | lockoutEnd | nonceExpiry
      | opsecSave | avsEvaluation | avsReadback | logicDissipation | lifeDrift | blockReset | segmentTimeout | keepAliveExpiry |
      tcConnect | tcDisconnect | kinEn | schEn | mapEn | kinChSel | schSlotSel | schChSel | mapChSel | actChSel | gnsSlotSel | clrCov |
      clrExc | clrZone | clrAll | mapClearDone | rasterGo | rasterPassEnd | resetEnded | phyLinkChange | ppsPulseEnd | fwEraseDone |
      cfgSaveDone | addressAgeing | ptpMasterLoss | syncInterval =>
    exact ⟨_, rfl⟩
  case measEpoch | solution | winRead | winWrite | winAck | windowFreeze | reqWrite | rspRead | udpDatagram | canbSegment =>
    exact ⟨_, answer_and_comm _ _ _⟩
  case shadowWrite | portModeWrite | portFaultClear => exact ⟨_, rowOf_and_assoc _ _ _ _⟩
  case canFrameRx =>
    exact ⟨_, congrArg (answer · _) (Bool.and_right_comm _ _ _)⟩
  case navUnit j unit status ok edge b leap =>
    have hunit : (unit = 0 ∨ (unit = 1 ∧ (gnsAt s j).sig = 2)) ↔ unit < 2 ∧ (unit = 0 ∨ (gnsAt s j).sig = 2) := by omega
    refine ⟨_, congrArg (answer · _) ?_⟩
    simp only [admits, Instr.wf, fits, hunit, Bool.decide_and, Bool.decide_or, Bool.and_assoc]
  all_goals exact ⟨_, answer_and_true _ _⟩

/-- Settles O2: an admitted command answers, and its law says what it left; one that is not admitted stops. -/
theorem commandsAnswerWhereAdmitted : Obligations.CommandsAnswerWhereAdmitted := by
  unfold Obligations.CommandsAnswerWhereAdmitted
  intro i s
  obtain ⟨t, hexec⟩ := exec_eq_answer i s
  refine ⟨fun hadm => ?_, fun hnot => by rw [hexec, hnot]; rfl⟩
  rw [hadm] at hexec
  have hkeeps := exec_keeps i s t hexec
  exact ⟨t, hexec, hkeeps.same, hkeeps.pending, hkeeps.free⟩

/-! ### The queue and the slots of host rows -/

/-- Settles O1: by the two cases of `step`. -/
theorem stepRunsTheFrontCommand : Obligations.StepRunsTheFrontCommand := by
  unfold Obligations.StepRunsTheFrontCommand
  exact ⟨fun c s rest hq => by rw [step, hq], fun s hq => by rw [step, hq]⟩

end Sys2Proof.EveryCommand

namespace Sys2Proof.EveryCommand

open Sys2Proof Sys2Proof.Machine Sys2Proof.Laws

/-! ### The slots of host rows (R381) -/

theorem host_lt_four (i : Instr) : HostSlot.Statement i :=
  match i with
  | .powerUp _ => HostSlot.powerUp _
  | .resetN _ _ => HostSlot.resetN _ _
  | .brownOut _ _ => HostSlot.brownOut _ _
  | .brownOutRelease _ => HostSlot.brownOutRelease _
  | .thermalShutdown _ _ => HostSlot.thermalShutdown _ _
  | .thermalShutdownRelease _ => HostSlot.thermalShutdownRelease _
  | .vcoreOvervoltage _ => HostSlot.vcoreOvervoltage _
  | .tcxoMissing _ => HostSlot.tcxoMissing _
  | .tcxoPresent _ => HostSlot.tcxoPresent _
  | .pllLock _ _ => HostSlot.pllLock _ _
  | .pllUnlock _ _ => HostSlot.pllUnlock _ _
  | .lockstepError _ => HostSlot.lockstepError _
  | .heartbeatTimeout _ => HostSlot.heartbeatTimeout _
  | .firmwareRestart => HostSlot.firmwareRestart
  | .imageVerified _ => HostSlot.imageVerified _
  | .enableLoss _ _ _ => HostSlot.enableLoss _ _ _
  | .enableRestored => HostSlot.enableRestored
  | .kinematicStep _ _ => HostSlot.kinematicStep _ _
  | .retainTimeout _ => HostSlot.retainTimeout _
  | .confirmTimeout _ => HostSlot.confirmTimeout _
  | .mismatchSet _ => HostSlot.mismatchSet _
  | .gnssLost => HostSlot.gnssLost
  | .standstill => HostSlot.standstill
  | .hitchEncoderFail => HostSlot.hitchEncoderFail
  | .hitchEncoderReturn => HostSlot.hitchEncoderReturn
  | .drLimitPassed => HostSlot.drLimitPassed
  | .edgeFire _ => HostSlot.edgeFire _
  | .peakCurrentReached _ _ _ _ => HostSlot.peakCurrentReached _ _ _ _
  | .peakEnd _ => HostSlot.peakEnd _
  | .gridRise _ => HostSlot.gridRise _
  | .pulseFall _ => HostSlot.pulseFall _
  | .sensedReleaseEnd _ => HostSlot.sensedReleaseEnd _
  | .motionReport _ _ _ => HostSlot.motionReport _ _ _
  | .windowClose _ _ _ => HostSlot.windowClose _ _ _
  | .openLoadOn _ _ => HostSlot.openLoadOn _ _
  | .openLoadOff _ => HostSlot.openLoadOff _
  | .lsOvercurrent _ _ => HostSlot.lsOvercurrent _ _
  | .shortToGround _ _ => HostSlot.shortToGround _ _
  | .hsOvercurrent _ _ => HostSlot.hsOvercurrent _ _
  | .chOvertemp _ _ => HostSlot.chOvertemp _ _
  | .tempWarning _ => HostSlot.tempWarning _
  | .hsOvertemp _ _ => HostSlot.hsOvertemp _ _
  | .groupUndervoltage _ _ => HostSlot.groupUndervoltage _ _
  | .groupOvervoltage _ _ => HostSlot.groupOvervoltage _ _
  | .autoProtectionRelease _ _ _ => HostSlot.autoProtectionRelease _ _ _
  | .kettleTick _ => HostSlot.kettleTick _
  | .kettleEvaluation _ => HostSlot.kettleEvaluation _
  | .drvEn _ _ => HostSlot.drvEn _ _
  | .groupEn _ _ _ => HostSlot.groupEn _ _ _
  | .resume _ _ => HostSlot.resume _ _
  | .resumeAll _ => HostSlot.resumeAll _
  | .drvModeWrite _ _ _ => HostSlot.drvModeWrite _ _ _
  | .pairWrite _ _ _ => HostSlot.pairWrite _ _ _
  | .protectionFlagClear _ _ _ _ => HostSlot.protectionFlagClear _ _ _ _
  | .ringCycle _ _ => HostSlot.ringCycle _ _
  | .ringBreak _ _ => HostSlot.ringBreak _ _
  | .reportAreaTimeout _ _ => HostSlot.reportAreaTimeout _ _
  | .tagRelease _ _ _ => HostSlot.tagRelease _ _ _
  | .fjlEn _ _ _ => HostSlot.fjlEn _ _ _
  | .heal _ _ => HostSlot.heal _ _
  | .fjlResumeAll _ _ => HostSlot.fjlResumeAll _ _
  | .ringSafeWrite _ _ _ => HostSlot.ringSafeWrite _ _ _
  | .nodeResume _ _ _ => HostSlot.nodeResume _ _ _
  | .nodeClrFlt _ _ _ => HostSlot.nodeClrFlt _ _ _
  | .chApply _ _ => HostSlot.chApply _ _
  | .loopSample _ => HostSlot.loopSample _
  | .loopOutput _ => HostSlot.loopOutput _
  | .saturationAlarm _ => HostSlot.saturationAlarm _
  | .loopModeWrite _ _ _ => HostSlot.loopModeWrite _ _ _
  | .cleEn _ _ => HostSlot.cleEn _ _
  | .injGo _ _ => HostSlot.injGo _ _
  | .injStop _ => HostSlot.injStop _
  | .injectionEnd => HostSlot.injectionEnd
  | .capArm _ _ => HostSlot.capArm _ _
  | .capAbort _ => HostSlot.capAbort _
  | .periodBoundary _ => HostSlot.periodBoundary _
  | .shadowWrite _ _ _ _ _ => HostSlot.shadowWrite _ _ _ _ _
  | .pwmLoadall _ _ => HostSlot.pwmLoadall _ _
  | .pwmStart _ _ _ => HostSlot.pwmStart _ _ _
  | .pwmTrip _ => HostSlot.pwmTrip _
  | .tripClear _ _ _ => HostSlot.tripClear _ _ _
  | .pwmResume _ _ => HostSlot.pwmResume _ _
  | .delayLineLock _ => HostSlot.delayLineLock _
  | .serialReadStart _ => HostSlot.serialReadStart _
  | .serialReadDone _ _ => HostSlot.serialReadDone _ _
  | .quadTransition _ _ _ _ _ => HostSlot.quadTransition _ _ _ _ _
  | .indexEdge _ _ _ _ => HostSlot.indexEdge _ _ _ _
  | .speedWindowEnd _ => HostSlot.speedWindowEnd _
  | .wheelPulse _ _ _ _ _ => HostSlot.wheelPulse _ _ _ _ _
  | .flowEdge _ _ _ => HostSlot.flowEdge _ _ _
  | .portModeWrite _ _ _ => HostSlot.portModeWrite _ _ _
  | .portFaultClear _ _ _ => HostSlot.portFaultClear _ _ _
  | .ainConversion _ _ => HostSlot.ainConversion _ _
  | .ainFault _ => HostSlot.ainFault _
  | .ainFaultClear _ => HostSlot.ainFaultClear _
  | .imuDrdy _ _ => HostSlot.imuDrdy _ _
  | .imuTimeout _ => HostSlot.imuTimeout _
  | .imuXferWrite _ _ _ => HostSlot.imuXferWrite _ _ _
  | .imuXferRead _ _ _ => HostSlot.imuXferRead _ _ _
  | .measEpoch _ _ _ _ _ _ => HostSlot.measEpoch _ _ _ _ _ _
  | .solution _ _ => HostSlot.solution _ _
  | .acqDwell _ _ => HostSlot.acqDwell _ _
  | .aidedSearch _ _ _ _ => HostSlot.aidedSearch _ _ _ _
  | .pullinToTrack _ _ => HostSlot.pullinToTrack _ _
  | .trackLoss _ _ _ => HostSlot.trackLoss _ _ _
  | .lostHoldExpiry _ _ => HostSlot.lostHoldExpiry _ _
  | .navUnit _ _ _ _ _ _ _ => HostSlot.navUnit _ _ _ _ _ _ _
  | .antOpen _ => HostSlot.antOpen _
  | .antShort _ _ => HostSlot.antShort _ _
  | .biasReclose _ _ => HostSlot.biasReclose _ _
  | .correctionAgeExceeded _ => HostSlot.correctionAgeExceeded _
  | .sourceHoldExpiry _ => HostSlot.sourceHoldExpiry _
  | .gnsRst _ => HostSlot.gnsRst _
  | .slotPin _ _ => HostSlot.slotPin _ _
  | .ppsPulse _ _ => HostSlot.ppsPulse _ _
  | .holdoverEntry _ => HostSlot.holdoverEntry _
  | .holdoverLimit _ => HostSlot.holdoverLimit _
  | .leapSecond _ => HostSlot.leapSecond _
  | .tbSnap _ => HostSlot.tbSnap _
  | .tbSet _ _ _ => HostSlot.tbSet _ _ _
  | .tbStep _ _ _ _ => HostSlot.tbStep _ _ _ _
  | .tbSlew _ _ _ => HostSlot.tbSlew _ _ _
  | .stepAtSecond _ _ => HostSlot.stepAtSecond _ _
  | .slewComplete _ _ => HostSlot.slewComplete _ _
  | .ethFrameRx _ => HostSlot.ethFrameRx _
  | .insert _ => HostSlot.insert _
  | .autoInsert => HostSlot.autoInsert
  | .bypSenseChange _ _ => HostSlot.bypSenseChange _ _
  | .insertionComplete => HostSlot.insertionComplete
  | .linkTimeout _ => HostSlot.linkTimeout _
  | .relayFault _ => HostSlot.relayFault _
  | .bypass _ => HostSlot.bypass _
  | .linkLoss => HostSlot.linkLoss
  | .relayFaultClear _ => HostSlot.relayFaultClear _
  | .canEn _ _ _ => HostSlot.canEn _ _ _
  | .busSync _ => HostSlot.busSync _
  | .canFrameRx _ _ _ _ => HostSlot.canFrameRx _ _ _ _
  | .txAttemptEnd _ _ _ _ _ => HostSlot.txAttemptEnd _ _ _ _ _
  | .canError _ _ _ _ _ _ => HostSlot.canError _ _ _ _ _ _
  | .transmitAtTime _ _ _ => HostSlot.transmitAtTime _ _ _
  | .lateWinExpiry _ _ _ => HostSlot.lateWinExpiry _ _ _
  | .ttSlot _ _ _ => HostSlot.ttSlot _ _ _
  | .ttWindowExpiry _ _ _ => HostSlot.ttWindowExpiry _ _ _
  | .boDelayExpiry _ _ => HostSlot.boDelayExpiry _ _
  | .recover _ _ => HostSlot.recover _ _
  | .recoveryDone _ => HostSlot.recoveryDone _
  | .addressClaimed _ => HostSlot.addressClaimed _
  | .addressLost => HostSlot.addressLost
  | .nextSearchDone => HostSlot.nextSearchDone
  | .recordWritten => HostSlot.recordWritten
  | .freezeTmo _ => HostSlot.freezeTmo _
  | .clearDone => HostSlot.clearDone
  | .lockoutEnd _ => HostSlot.lockoutEnd _
  | .nonceExpiry _ => HostSlot.nonceExpiry _
  | .opsecSave => HostSlot.opsecSave
  | .monSample _ => HostSlot.monSample _
  | .limitReached _ => HostSlot.limitReached _
  | .limitLeft _ => HostSlot.limitLeft _
  | .slackRun _ => HostSlot.slackRun _
  | .avsEvaluation => HostSlot.avsEvaluation
  | .avsReadback _ _ => HostSlot.avsReadback _ _
  | .avsModeWrite _ _ _ => HostSlot.avsModeWrite _ _ _
  | .logicDissipation _ _ => HostSlot.logicDissipation _ _
  | .lifeDrift => HostSlot.lifeDrift
  | .crossTimeout _ _ => HostSlot.crossTimeout _ _
  | .crossResync _ _ => HostSlot.crossResync _ _
  | .blockReset _ _ => HostSlot.blockReset _ _
  | .blockResetRelease _ => HostSlot.blockResetRelease _
  | .winRead _ _ => HostSlot.winRead _ _
  | .winWrite _ _ => HostSlot.winWrite _ _
  | .winAck _ _ => HostSlot.winAck _ _
  | .windowFreeze _ _ _ => HostSlot.windowFreeze _ _ _
  | .reqWrite _ _ => HostSlot.reqWrite _ _
  | .rspRead _ _ => HostSlot.rspRead _ _
  | .udpDatagram _ _ _ _ => HostSlot.udpDatagram _ _ _ _
  | .canbSegment _ _ => HostSlot.canbSegment _ _
  | .segmentTimeout _ => HostSlot.segmentTimeout _
  | .keepAliveExpiry _ _ => HostSlot.keepAliveExpiry _ _
  | .tcConnect => HostSlot.tcConnect
  | .tcDisconnect => HostSlot.tcDisconnect
  | .nop _ => HostSlot.nop _
  | .identify _ => HostSlot.identify _
  | .attach _ => HostSlot.attach _
  | .detach _ => HostSlot.detach _
  | .fence _ => HostSlot.fence _
  | .rspRepeat _ => HostSlot.rspRepeat _
  | .notifyCfg _ => HostSlot.notifyCfg _
  | .paramRead _ => HostSlot.paramRead _
  | .paramWrite _ => HostSlot.paramWrite _
  | .stateWordWrite _ _ _ _ => HostSlot.stateWordWrite _ _ _ _
  | .kinEn _ _ => HostSlot.kinEn _ _
  | .schEn _ _ => HostSlot.schEn _ _
  | .mapEn _ _ => HostSlot.mapEn _ _
  | .kinChSel _ _ => HostSlot.kinChSel _ _
  | .schSlotSel _ _ => HostSlot.schSlotSel _ _
  | .schChSel _ _ => HostSlot.schChSel _ _
  | .mapChSel _ _ => HostSlot.mapChSel _ _
  | .actChSel _ _ => HostSlot.actChSel _ _
  | .gnsSlotSel _ _ => HostSlot.gnsSlotSel _ _
  | .alarmFlagClear _ _ => HostSlot.alarmFlagClear _ _
  | .clrCov _ => HostSlot.clrCov _
  | .clrExc _ => HostSlot.clrExc _
  | .clrZone _ => HostSlot.clrZone _
  | .clrAll _ => HostSlot.clrAll _
  | .mapClearDone => HostSlot.mapClearDone
  | .rasterGo _ => HostSlot.rasterGo _
  | .rasterPassEnd => HostSlot.rasterPassEnd
  | .tableRead _ => HostSlot.tableRead _
  | .tableWrite _ => HostSlot.tableWrite _
  | .lease _ => HostSlot.lease _
  | .release _ => HostSlot.release _
  | .eventPost _ => HostSlot.eventPost _
  | .eventCancel _ => HostSlot.eventCancel _
  | .tileRead _ => HostSlot.tileRead _
  | .tileWrite _ => HostSlot.tileWrite _
  | .gnsMeasRead _ => HostSlot.gnsMeasRead _
  | .gnsNavRead _ => HostSlot.gnsNavRead _
  | .rtcmWrite _ => HostSlot.rtcmWrite _
  | .canSend _ => HostSlot.canSend _
  | .canRecv _ => HostSlot.canRecv _
  | .canAbort _ => HostSlot.canAbort _
  | .recRead _ => HostSlot.recRead _
  | .recFreeze _ => HostSlot.recFreeze _
  | .recChallenge _ => HostSlot.recChallenge _
  | .recClear _ => HostSlot.recClear _
  | .fwInfo _ => HostSlot.fwInfo _
  | .fwBegin _ => HostSlot.fwBegin _
  | .fwData _ => HostSlot.fwData _
  | .fwEnd _ _ => HostSlot.fwEnd _ _
  | .fwActivate _ => HostSlot.fwActivate _
  | .fwCommit _ => HostSlot.fwCommit _
  | .cfgSave _ => HostSlot.cfgSave _
  | .cfgErase _ => HostSlot.cfgErase _
  | .keySet _ => HostSlot.keySet _
  | .sysReset _ => HostSlot.sysReset _
  | .resetEnded _ _ => HostSlot.resetEnded _ _
  | .phyLinkChange _ _ _ _ => HostSlot.phyLinkChange _ _ _ _
  | .pwmCmpEvent _ _ => HostSlot.pwmCmpEvent _ _
  | .pwmPrdEvent _ => HostSlot.pwmPrdEvent _
  | .chopPeriod _ _ _ => HostSlot.chopPeriod _ _ _
  | .ppsPulseEnd _ _ => HostSlot.ppsPulseEnd _ _
  | .emuOutputEdge _ _ => HostSlot.emuOutputEdge _ _
  | .speedSignalEdge _ _ _ _ => HostSlot.speedSignalEdge _ _ _ _
  | .fwEraseDone => HostSlot.fwEraseDone
  | .cfgSaveDone => HostSlot.cfgSaveDone
  | .addressAgeing _ _ => HostSlot.addressAgeing _ _
  | .ptpMasterLoss _ _ => HostSlot.ptpMasterLoss _ _
  | .syncInterval _ _ => HostSlot.syncInterval _ _

/-- Settles O5: by the law of each command. -/
theorem hostRowsNameOneOfFourSlots : Obligations.HostRowsNameOneOfFourSlots := by
  unfold Obligations.HostRowsNameOneOfFourSlots
  exact host_lt_four

end Sys2Proof.EveryCommand

namespace Sys2Proof.Reset

open Sys2Proof Sys2Proof.Machine

/-! ### The reset state (R473) -/

theorem rd_reset_samples : ∀ e ∈ resetSamples, rd State.reset e.1 = BitVec.ofNat 32 e.2 := by decide

/-- Settles O4: the reset state holds no entry of its own, so that every register reads its reset word. -/
theorem resetLeavesTheResetValues : Obligations.ResetLeavesTheResetValues := by
  unfold Obligations.ResetLeavesTheResetValues
  have hslots : ∀ h < 4, attached State.reset h = false ∧ (slotOf State.reset h).ring = [] := by decide
  have hgroups : ∀ g < 8, flag State.reset (DRV_GRP_CTRL_EN g) = false ∧ flag State.reset (PWM_GRP_CTRL_EN g) = false := by decide
  exact ⟨rfl, rfl, rfl, rd_reset_samples, hslots, hgroups⟩

/-! ### The pins while the data path stands (R479, R480) -/

section Pins

variable {s : State} {t : Nat}

theorem held_of_stopped (hstop : s.sys.running = false) (k : Nat) : held s k = true := by simp [held, hstop]

theorem pinAt_of_powered (hp : unpowered s = false) (b : Ball) : pinAt s t b = livePin s t b := by simp [pinAt, hp]

theorem pinAt_of_unpowered (hp : unpowered s = true) (b : Ball) : pinAt s t b = deadPin b := by simp [pinAt, hp]

/-- A ball shows what it shows in both tables, where these agree. -/
theorem pinAt_eq {b : Ball} {x : PinState} (hdead : deadPin b = x) (hlive : livePin s t b = x) : pinAt s t b = x := by
  unfold pinAt
  split
  · exact hdead
  · exact hlive

variable (hstop : s.sys.running = false)
include hstop

/-- The outputs of a powered device whose data path stands. -/
theorem livePin_of_stopped :
    (∀ n, livePin s t (.drvLs n) = .lowSide false false false) ∧ (∀ g, livePin s t (.drvHs g) = .highSide false) ∧
    (∀ g p, livePin s t (.pwmH g p) = .highZ ∧ livePin s t (.pwmL g p) = .highZ) ∧ (∀ p, livePin s t (.encClk p) = .highZ) ∧
    (∀ r p pos, livePin s t (.ringTx r p pos) = .zero) ∧ (∀ k, livePin s t (.emuA k) = .level false ∧ livePin s t (.emuB k) = .level false) ∧
    (∀ x, livePin s t (.pps x) = .level false ∧ livePin s t (.canTx x) = .level true) := by
  simp [livePin, lowSidePin, pwmPin, ringPin, ppsPin, held_of_stopped hstop]

end Pins

/-- Settles O60: the tables of a powered and of an unpowered device, and what they agree on. -/
theorem outputsStandInReset : Obligations.OutputsStandInReset := by
  unfold Obligations.OutputsStandInReset
  intro s t hstop
  obtain ⟨hls, hhs, hpwm, hclk, htx, hemu, hlev⟩ := livePin_of_stopped (t := t) hstop
  refine ⟨fun n => pinAt_eq rfl (hls n), fun g => pinAt_eq rfl (hhs g),
    fun g p => ⟨pinAt_eq rfl (hpwm g p).1, pinAt_eq rfl (hpwm g p).2⟩, fun p => pinAt_eq rfl (hclk p), fun hp => ?powered, fun hp => ?dead⟩
  case powered =>
    simp only [pinAt_of_powered hp]
    exact ⟨htx, hemu, hlev⟩
  case dead => simp [pinAt_of_unpowered hp, deadPin]

end Sys2Proof.Reset

namespace Sys2Proof.Frame

open Sys2Proof Sys2Proof.Machine

/-! ### Which registers an operation moves -/

section RegsBut

variable {s t u : State} {l m : List Nat}

theorem regsBut_refl (s : State) (l : List Nat) : regsBut s s l := fun _ _ => rfl

theorem regsBut_of_regs (h : t.regs = s.regs) (l : List Nat) : regsBut s t l := fun j _ => by rw [rd, rd, h]

theorem regsBut_trans (h : regsBut s t l) (k : regsBut t u l) : regsBut s u l := fun j hj => (k j hj).trans (h j hj)

theorem regsBut_mono (h : regsBut s t l) (hlm : l ⊆ m) : regsBut s t m := fun j hj => h j fun hl => hj (hlm hl)

theorem regsBut_put (h : regsBut s t l) (e : u.regs = t.regs) : regsBut s u l := regsBut_trans h (regsBut_of_regs e l)

theorem regsBut_wr (h : regsBut s t l) {i : Nat} (hi : i ∈ l) (v : Word) : regsBut s (wr t i v) l := fun j hj => by
  rw [rd_wr_ne _ _ _ _ (by rintro rfl; exact hj hi)]
  exact h j hj

theorem regsBut_setF (h : regsBut s t l) {f : Field} (hf : f.reg ∈ l) (v : Nat) : regsBut s (setF t f v) l := regsBut_wr h hf _

theorem regsBut_setB (h : regsBut s t l) {f : Field} (hf : f.reg ∈ l) (b : Bool) : regsBut s (setB t f b) l := regsBut_wr h hf _

theorem regsBut_setI (h : regsBut s t l) {f : Field} (hf : f.reg ∈ l) (v : Int) : regsBut s (setI t f v) l := regsBut_wr h hf _

theorem regsBut_bump (h : regsBut s t l) {f : Field} (hf : f.reg ∈ l) (n : Nat) : regsBut s (bump t f n) l := regsBut_wr h hf _

theorem regsBut_foldl {α : Type} {f : State → α → State} {xs : List α} (hf : ∀ x ∈ xs, ∀ t, regsBut s t l → regsBut s (f t x) l)
    (h : regsBut s t l) : regsBut s (xs.foldl f t) l :=
  List.foldlRecOn (motive := fun t => regsBut s t l) xs f h fun t ht x hx => hf x hx t ht

theorem getF_of_regsBut (h : regsBut s t l) {f : Field} (hf : f.reg ∉ l) : getF t f = getF s f := by
  unfold getF
  rw [h _ hf]

theorem flag_of_regsBut (h : regsBut s t l) {f : Field} (hf : f.reg ∉ l) : flag t f = flag s f := by
  unfold flag
  rw [getF_of_regsBut h hf]

end RegsBut

/-! ### Records and notifications (R402, R416) -/

theorem mem_tally {j : Nat} : j ∈ tally ↔ j = 0x304 ∨ j = 0x305 ∨ j = 0x117 ∨ j = 0x11F ∨ j = 0x127 ∨ j = 0x12F := by simp [tally]

/-- The counters of records that are lost. -/
def lossCounters : List Nat := [REC_CNT_LOST, REC_CNT_FULL]

/-- The counters of notifications that are dropped. -/
def dropCounters : List Nat := [HIF_H_CNT_DROP 0, HIF_H_CNT_DROP 1, HIF_H_CNT_DROP 2, HIF_H_CNT_DROP 3]

theorem tally_eq : tally = lossCounters ++ dropCounters := rfl

theorem mem_lossCounters {j : Nat} : j ∈ lossCounters ↔ j = 0x304 ∨ j = 0x305 := by simp [lossCounters]

theorem mem_dropCounters {j : Nat} : j ∈ dropCounters ↔ j = 0x117 ∨ j = 0x11F ∨ j = 0x127 ∨ j = 0x12F := by simp [dropCounters]

theorem lossCounters_subset_tally : lossCounters ⊆ tally := List.subset_append_left _ _

theorem dropCounters_subset_tally : dropCounters ⊆ tally := List.subset_append_right lossCounters _

section Notices

variable {s t : State} {l : List Nat}

theorem regsBut_recTake (s : State) : regsBut s (recTake s) lossCounters := by
  unfold recTake
  split
  · split_ifs
    · exact regsBut_refl _ _
    · exact regsBut_bump (regsBut_refl s _) (by decide) 1
    · exact regsBut_refl _ _
  · exact regsBut_refl _ _

theorem regsBut_record (s : State) (code inst : Nat) (val : List Byte) : regsBut s (record s code inst val) lossCounters := by
  unfold record
  split_ifs
  · exact regsBut_bump (regsBut_refl _ _) (by decide) 1
  · exact regsBut_recTake _
  · exact regsBut_bump (regsBut_refl _ _) (by decide) 1

theorem regsBut_postFrame (s : State) (h code status htag : Nat) (step : Word) (p : List Byte) :
    regsBut s (postFrame s h code status htag step p) l :=
  regsBut_of_regs (Mailbox.regs_postFrame s h code status htag step p) l

theorem regsBut_notify {h : Nat} (hh : HIF_H_CNT_DROP h ∈ l) (s : State) (p : List Byte) : regsBut s (notify s h p) l := by
  unfold notify
  split
  · exact regsBut_postFrame _ _ _ _ _ _ _
  · exact regsBut_bump (regsBut_refl _ _) hh 1

theorem regsBut_raiseIrq (s : State) (f en : Field) (nb : Nat) : regsBut s (raiseIrq s f en nb) (f.reg :: dropCounters) := by
  unfold raiseIrq
  extract_lets s₁
  have hset : regsBut s s₁ (f.reg :: dropCounters) := regsBut_setF (regsBut_refl _ _) List.mem_cons_self 1
  split_ifs
  · exact regsBut_refl _ _
  · refine regsBut_foldl (fun h hh t ht => ?_) hset
    split
    · refine regsBut_trans ht (regsBut_notify (List.mem_cons_of_mem _ ?_) _ _)
      simp only [hostSlots, List.mem_cons, List.not_mem_nil, or_false] at hh
      rcases hh with rfl | rfl | rfl | rfl <;> decide
    · exact ht
  · exact hset

theorem rd_record (s : State) (code inst : Nat) (val : List Byte) {j : Nat} (hj : j ≠ 0x304 ∧ j ≠ 0x305) :
    rd (record s code inst val) j = rd s j :=
  regsBut_record s code inst val j (by rw [mem_lossCounters]; omega)

theorem getF_record (s : State) (code inst : Nat) (val : List Byte) {f : Field} (hf : f.reg ≠ 0x304 ∧ f.reg ≠ 0x305) :
    getF (record s code inst val) f = getF s f :=
  congrArg (bitsOf · f.hi f.lo) (rd_record s code inst val hf)

theorem flag_record (s : State) (code inst : Nat) (val : List Byte) {f : Field} (hf : f.reg ≠ 0x304 ∧ f.reg ≠ 0x305) :
    flag (record s code inst val) f = flag s f :=
  congrArg (fun n => decide (n ≠ 0)) (getF_record s code inst val hf)

/-- Recording an event moves the recorder and its loss counters alone. -/
theorem keeps_record (s : State) (code inst : Nat) (val : List Byte) : Keeps (· ∈ [.regs, .recd]) s (record s code inst val) :=
  record_keeps s code inst val (fun _ hp => hp) (.refl _ s)

/-- Raising an interrupt moves registers and the host interface alone. -/
theorem keeps_raiseIrq (s : State) (f en : Field) (nb : Nat) : Keeps (· ∈ [.regs, .hif]) s (raiseIrq s f en nb) :=
  raiseIrq_keeps s f en nb (fun _ hp => hp) (.refl _ s)

end Notices

/-! ### Which parts an operation moves -/

theorem partsBut_of_keeps {s t : State} {l : List Part} (h : Keeps (· ∈ l) s t) : partsBut s t l := ⟨h.same, h.pending⟩

end Sys2Proof.Frame

namespace Sys2Proof.Counterexample

open Sys2Proof Sys2Proof.Machine

/-- The state after a command, or the state before it where the command answers none. -/
def nextOf (i : Instr) (s : State) : State := match exec i s with
  | .next t => t
  | _ => s

/-- What a command is said to leave holds of the state after it. -/
theorem of_answers {i : Instr} {s : State} {p : State → Prop} (h : answers i s p) : p (nextOf i s) := by
  obtain ⟨t, ht, hp⟩ := h
  rwa [nextOf, ht]

end Sys2Proof.Counterexample

namespace Sys2Proof.DriverTrips

open Sys2Proof Sys2Proof.Machine Sys2Proof.Counterexample

/-- Channel 0 is energised and its group has a peak; a request of a channel 240, which the part does not have, waits for the peak. The
status word of that channel's group would be the fault word of channel 0. -/
def strayRequest : State :=
  modDrvCh (modDrvGrp State.reset 0 fun g => { g with peak := some (0, 0, 0), queue := [{ ch := 240, due := 0, edge := none }] }) 0
    fun d => { d with isOpen := true, coil := true }

theorem strayRequest_coil : (drvCh strayRequest (leadCh strayRequest 0)).coil = true := by decide +kernel

/-- The closing of the group takes the request up, and its status lands on the flag that the trip has just set. -/
theorem strayRequest_loses_flag : (rd (nextOf (.lsOvercurrent 0 0) strayRequest) (DRV_CH_FLT 0)).getLsbD 2 = false := by decide +kernel

/-- Refutes O15: in the ill-formed state `strayRequest` (a waiting request of channel 240, a number no channel has, so no run from reset
reaches it) an overcurrent of channel 0 sets SC in DRV_CH_FLT and loses it again, as the status of the request's group is written over it. -/
theorem not_driverTripsAndWarnings : ¬ Obligations.DriverTripsAndWarnings := by
  unfold Obligations.DriverTripsAndWarnings
  rintro ⟨htrip, -⟩
  obtain ⟨hcoil, -⟩ := htrip strayRequest 0 0 (by decide)
  obtain ⟨-, hls⟩ := hcoil strayRequest_coil
  obtain ⟨⟨-, -, hflag, -⟩, -⟩ := of_answers hls
  exact absurd (strayRequest_loses_flag.symm.trans hflag) (by decide)

end Sys2Proof.DriverTrips

namespace Sys2Proof.Frame

open Sys2Proof Sys2Proof.Machine

/-! ### Answers -/

/-- A command whose operands are taken answers the state it leaves. -/
theorem answers_of_answer {i : Instr} {s t : State} {ok : Bool} {p : State → Prop} (hexec : exec i s = answer ok t) (hok : ok = true)
    (hp : p t) : answers i s p :=
  ⟨t, by rw [hexec, answer, if_pos hok], hp⟩

theorem partsBut_mono {s t : State} {l m : List Part} (h : partsBut s t l) (hlm : l ⊆ m) : partsBut s t m :=
  ⟨fun p hp => h.1 p fun hl => hp (hlm hl), h.2⟩

/-- The same, where the property also speaks of what the command may reach. -/
theorem answers_of_reach {i : Instr} {s t : State} {ok : Bool} {p : State → Prop} (hexec : exec i s = answer ok t) (hok : ok = true)
    (hp : partsBut s t (reach i) → p t) : answers i s p := by
  have hnext : exec i s = .next t := by rw [hexec, answer, if_pos hok]
  have hkeeps := EveryCommand.exec_keeps i s t hnext
  exact ⟨t, hnext, hp ⟨hkeeps.same, hkeeps.pending⟩⟩

/-! ### Fields beside the one that is written -/

/-- Fields `f` and `g` share no bit. -/
abbrev Apart (f g : Field) : Prop := f.lo ≤ f.hi ∧ g.lo ≤ g.hi ∧ (g.reg ≠ f.reg ∨ f.hi < g.lo ∨ g.hi < f.lo)

section Apart

variable {s : State} {f g : Field}

theorem getF_setF_apart (h : Apart f g) (v : Nat) : getF (setF s f v) g = getF s g := getF_setF_ne _ _ _ _ h.1 h.2.1 h.2.2

theorem getF_setB_apart (h : Apart f g) (b : Bool) : getF (setB s f b) g = getF s g := getF_setF_apart h _

theorem getF_setI_apart (h : Apart f g) (v : Int) : getF (setI s f v) g = getF s g := getF_setF_apart h _

theorem getF_bump_apart (h : Apart f g) (n : Nat) : getF (bump s f n) g = getF s g := getF_setF_apart h _

theorem getF_wr_apart {i : Nat} (h : g.reg ≠ i) (v : Word) : getF (wr s i v) g = getF s g :=
  congrArg (bitsOf · g.hi g.lo) (rd_wr_ne _ _ _ _ h)

theorem flag_setF_apart (h : Apart f g) (v : Nat) : flag (setF s f v) g = flag s g := by rw [flag, getF_setF_apart h, flag]

theorem flag_setB_apart (h : Apart f g) (b : Bool) : flag (setB s f b) g = flag s g := flag_setF_apart h _

theorem flag_setI_apart (h : Apart f g) (v : Int) : flag (setI s f v) g = flag s g := flag_setF_apart h _

theorem flag_bump_apart (h : Apart f g) (n : Nat) : flag (bump s f n) g = flag s g := flag_setF_apart h _

theorem flag_wr_apart {i : Nat} (h : g.reg ≠ i) (v : Word) : flag (wr s i v) g = flag s g := by rw [flag, getF_wr_apart h, flag]

/-- Two states that agree in a register agree in its fields. -/
theorem getF_congr {t : State} (h : rd t f.reg = rd s f.reg) : getF t f = getF s f := congrArg (bitsOf · f.hi f.lo) h

theorem flag_congr {t : State} (h : rd t f.reg = rd s f.reg) : flag t f = flag s f := by rw [flag, getF_congr h, flag]

/-- Two states with the same registers read the same. -/
theorem rd_of_regs {t : State} (h : t.regs = s.regs) (i : Nat) : rd t i = rd s i := by unfold rd; rw [h]

theorem getF_of_regs {t : State} (h : t.regs = s.regs) (f : Field) : getF t f = getF s f := getF_congr (rd_of_regs h _)

theorem flag_of_regs {t : State} (h : t.regs = s.regs) (f : Field) : flag t f = flag s f := flag_congr (rd_of_regs h _)

theorem getI_of_regs {t : State} (h : t.regs = s.regs) (f : Field) : getI t f = getI s f := by rw [getI, getF_of_regs h, getI]

/-- What an operation does to the registers does not depend on the other parts. -/
theorem regsBut_before {t u : State} {l : List Nat} (k : regsBut t u l) (e : t.regs = s.regs) : regsBut s u l := fun j hj => by
  rw [k j hj, rd_of_regs e]

end Apart

/-- A flag of one bit is that bit. -/
theorem flag_bit (s : State) (r x : Nat) : flag s ⟨r, x, x⟩ = (rd s r).getLsbD x := by
  have hbit : (bitsOf (rd s r) x x).testBit 0 = (rd s r).getLsbD x := by rw [testBit_bitsOf]; simp
  have hlt : bitsOf (rd s r) x x < 2 := by simpa using bitsOf_lt (rd s r) x x
  rw [flag, getF, ← hbit]
  dsimp only
  interval_cases bitsOf (rd s r) x x <;> rfl

/-- A field is less than its range. -/
theorem getF_lt (s : State) (f : Field) : getF s f < 2 ^ f.width := bitsOf_lt _ _ _

/-! ### Parts -/

/-- An operation that may move the parts of a list may move those of a longer one. -/
theorem allows_of_subset {l m : List Part} (h : m ⊆ l) : Allows (· ∈ l) m := fun _ hp => h hp

theorem keeps_trans {R : Part → Prop} {s t u : State} (h : Keeps R s t) (k : Keeps R t u) : Keeps R s u :=
  h.of k.pending k.free k.regs k.tables k.same

/-! ### Interrupts (R402) -/

section Irq

variable {s : State}

/-- Telling the slots of an interrupt moves the counters of dropped notifications alone. -/
theorem regsBut_tell (l : List Nat) (hl : l ⊆ hostSlots) (p : State → Nat → Bool) (b : State → Nat → List Byte) (s : State) :
    regsBut s (l.foldl (fun s h => if p s h then notify s h (b s h) else s) s) dropCounters := by
  refine regsBut_foldl (fun h hh t ht => ?_) (regsBut_refl s _)
  split
  · refine regsBut_trans ht (regsBut_notify ?_ _ _)
    have hmem := hl hh
    simp only [hostSlots, List.mem_cons, List.not_mem_nil, or_false] at hmem
    rcases hmem with rfl | rfl | rfl | rfl <;> decide
  · exact ht

/-- The interrupt register after a flag has been raised. -/
theorem rd_raiseIrq (s : State) (f en : Field) (nb : Nat) (hf : f.reg ∉ dropCounters) :
    rd (raiseIrq s f en nb) f.reg = if flag s f then rd s f.reg else bitsSet (rd s f.reg) f.hi f.lo 1 := by
  unfold raiseIrq
  split
  · rfl
  · have hset : rd (setF s f 1) f.reg = bitsSet (rd s f.reg) f.hi f.lo 1 := by rw [rd_setF, if_pos rfl]
    dsimp only
    split
    · exact (regsBut_tell hostSlots (List.Subset.refl _) _ _ _ _ hf).trans hset
    · exact hset

theorem flag_raiseIrq (s : State) (f en : Field) (nb : Nat) (hf : f.reg ∉ dropCounters) (hw : f.lo ≤ f.hi ∧ f.hi < 32) :
    flag (raiseIrq s f en nb) f = true := by
  have hset : flag (setB s f true) f = true := flag_setB s f true hw
  rw [flag, getF, rd_raiseIrq s f en nb hf]
  split
  next h => exact h
  next h => rwa [flag, getF, setB, rd_setF, if_pos rfl] at hset

/-- The raised flag is set. -/
theorem getLsbD_raiseIrq (s : State) (r x : Nat) (en : Field) (nb : Nat) (hr : r ∉ dropCounters) (hx : x < 32) :
    (rd (raiseIrq s ⟨r, x, x⟩ en nb) r).getLsbD x = true := by
  rw [← flag_bit]
  exact flag_raiseIrq s ⟨r, x, x⟩ en nb hr ⟨Nat.le_refl _, hx⟩

theorem rd_raiseIrq_ne (s : State) (f en : Field) (nb : Nat) {j : Nat} (hj : j ∉ f.reg :: dropCounters) : rd (raiseIrq s f en nb) j = rd s j :=
  regsBut_raiseIrq s f en nb j hj

/-- A field that shares no bit with the interrupt flag reads as before. -/
theorem getF_raiseIrq_apart {f g : Field} (h : Apart f g) (hd : g.reg ∉ dropCounters) (s : State) (en : Field) (nb : Nat) :
    getF (raiseIrq s f en nb) g = getF s g := by
  by_cases hr : g.reg = f.reg
  · rw [getF, hr, rd_raiseIrq s f en nb (hr ▸ hd)]
    split
    · rw [getF, hr]
    · rw [bitsOf_bitsSet_ne _ _ _ _ _ _ h.1 h.2.1 (by tauto), getF, hr]
  · exact getF_congr (rd_raiseIrq_ne s f en nb (by simp [hr, hd]))

theorem flag_raiseIrq_apart {f g : Field} (h : Apart f g) (hd : g.reg ∉ dropCounters) (s : State) (en : Field) (nb : Nat) :
    flag (raiseIrq s f en nb) g = flag s g := by
  rw [flag, getF_raiseIrq_apart h hd, flag]

end Irq

end Sys2Proof.Frame

namespace Sys2Proof.Pulses

open Sys2Proof Sys2Proof.Machine Sys2Proof.Frame

variable {s : State} {x t : Nat}

theorem ppsOut_modPps (s : State) (x : Nat) (f : Pps → Pps) : ppsOut (modPps s x f) x = f (ppsOut s x) := sparseGet_mod _ _ _ _

theorem regsBut_settleAt (s : State) (l t : Nat) : regsBut s (settleAt s l t) [CLK_X_CNT 1] :=
  regsBut_bump (f := CLK_X_CNT_COALESCED 1) (regsBut_of_regs rfl _) List.mem_cons_self _

/-- An edge that crosses to the processor domain moves the count of coalesced events alone. -/
theorem regsBut_edgeEvent (s : State) (l t : Nat) : regsBut s (edgeEvent s l t) [CLK_X_CNT 1] :=
  regsBut_put (regsBut_settleAt s l t) rfl

theorem edgeEvent_tim (s : State) (l t : Nat) : (edgeEvent s l t).tim = s.tim := by simp [edgeEvent, settleAt, setLine]

/-- The registers of the message of output `x` (R336). -/
def messageRegs (x : Nat) : List Nat := (List.range 6).map (TIM_PPS_MSG x)

theorem mem_messageRegs {j : Nat} : j ∈ messageRegs x ↔ ∃ k < 6, j = TIM_PPS_MSG x k := by simp [messageRegs, eq_comm]

/-- A pulse has left: the edge has crossed, the output is busy until its width has elapsed, and it is counted. -/
def pulseCounted (s : State) (x t : Nat) : State :=
  let e := edgeEvent s (9 + x) (t - s.tim.base)
  let m := modPps e x fun p => { p with seq := (p.seq + 1) % 2 ^ 32, stop := some (t + getF e (TIM_PPS_CFG_WIDTH x) * perUs), notBefore := none }
  setF m (TIM_PPS_STAT_CNT x) ((getF m (TIM_PPS_STAT_CNT x) + 1) % 65536)

/-- The message of a pulse is shown. -/
def messageShown (s : State) (x : Nat) (msg : List Byte) : State :=
  (List.range 6).foldl (fun s k => wr s (TIM_PPS_MSG x k) (wordAt msg (4 * k))) s

/-- The slots that ask for it are told of a pulse. -/
def slotsTold (s : State) (x : Nat) (msg : List Byte) : State :=
  hostSlots.foldl (fun s h => if attached s h && (getF s (HIF_H_NOTE_MASK h)).testBit x then notify s h ([1#8, 0#8, 0#8, 0#8] ++ msg) else s) s

/-- What a pulse at a nominal instant leaves, where no step is in force and nothing suppresses it (R334 to R336). -/
theorem ppsPulse_eq (hstep : stepHere s (ppsTb s x) t = none) (hnb : (ppsOut s x).notBefore = none) (hoff : ppsOff s x = false)
    (hnom : (nominal s x (tbAt s (ppsTb s x) t) (tbLastEdge s (ppsTb s x) t)).isSome = true) :
    ∃ msg, ppsPulse s x t = raiseIrq (slotsTold (messageShown (pulseCounted s x t) x msg) x msg) ⟨TIM_IRQ, x, x⟩ ⟨TIM_IEN, x, x⟩ 4 := by
  obtain ⟨n, hn⟩ := Option.isSome_iff_exists.mp hnom
  refine ⟨ppsMessage (edgeEvent s (9 + x) (t - s.tim.base)) x t n (tbAt s (ppsTb s x) t) false, ?_⟩
  unfold ppsPulse
  simp only [hstep, Option.map_none, Option.getD_none, hn, hoff, hnb, Bool.or_self, Bool.false_eq_true, if_false, Option.isSome_none]
  rfl

theorem regsBut_pulseCounted (s : State) (x t : Nat) : regsBut s (pulseCounted s x t) [TIM_PPS_STAT x, CLK_X_CNT 1] := by
  have hedge : regsBut s (edgeEvent s (9 + x) (t - s.tim.base)) [TIM_PPS_STAT x, CLK_X_CNT 1] :=
    regsBut_mono (regsBut_edgeEvent s _ _) (List.subset_cons_self _ _)
  exact regsBut_setF (regsBut_put hedge rfl) List.mem_cons_self _

theorem regsBut_messageShown (s : State) (x : Nat) (msg : List Byte) : regsBut s (messageShown s x msg) (messageRegs x) :=
  regsBut_foldl (fun _ hk _ ht => regsBut_wr ht (List.mem_map_of_mem hk) _) (regsBut_refl s _)

theorem messageShown_tim (s : State) (x : Nat) (msg : List Byte) : (messageShown s x msg).tim = s.tim := rfl

theorem notify_tim (s : State) (h : Nat) (p : List Byte) : (notify s h p).tim = s.tim :=
  (notify_keeps s h p (R := (· ∈ [.regs, .hif])) (fun _ hp => hp) (.refl _ s)).same .tim (by decide)

theorem slotsTold_tim (s : State) (x : Nat) (msg : List Byte) : (slotsTold s x msg).tim = s.tim :=
  List.foldlRecOn (motive := fun t : State => t.tim = s.tim) hostSlots _ rfl fun t ht h _ => by
    split
    · rw [notify_tim, ht]
    · exact ht

/-- The output after the pulse has left. -/
theorem ppsOut_pulseCounted (s : State) (x t : Nat) : ppsOut (pulseCounted s x t) x =
    { ppsOut s x with seq := ((ppsOut s x).seq + 1) % 2 ^ 32, stop := some (t + getF s (TIM_PPS_CFG_WIDTH x) * perUs), notBefore := none } := by
  have hwidth : getF (edgeEvent s (9 + x) (t - s.tim.base)) (TIM_PPS_CFG_WIDTH x) = getF s (TIM_PPS_CFG_WIDTH x) :=
    getF_of_regsBut (regsBut_edgeEvent s _ _) (by grind)
  have hout : ppsOut (edgeEvent s (9 + x) (t - s.tim.base)) x = ppsOut s x := by rw [ppsOut, edgeEvent_tim, ppsOut]
  unfold pulseCounted
  rw [ppsOut, setF_tim, ← ppsOut, ppsOut_modPps, hwidth, hout]

theorem getF_pulseCounted (s : State) (x t : Nat) :
    getF (pulseCounted s x t) (TIM_PPS_STAT_CNT x) = (getF s (TIM_PPS_STAT_CNT x) + 1) % 65536 := by
  have hcnt : getF (edgeEvent s (9 + x) (t - s.tim.base)) (TIM_PPS_STAT_CNT x) = getF s (TIM_PPS_STAT_CNT x) :=
    getF_of_regsBut (regsBut_edgeEvent s _ _) (by grind)
  unfold pulseCounted
  rw [getF_setF _ _ _ ⟨by grind, by grind⟩]
  change (getF (edgeEvent s (9 + x) (t - s.tim.base)) (TIM_PPS_STAT_CNT x) + 1) % 65536 % 2 ^ 16 = _
  rw [hcnt]; omega

/-- Settles O22: the pulse is counted, its message shown and told, and the interrupt raised, in this order; each step moves registers of
its own. -/
theorem pulsesLeaveAndEnd : Obligations.PulsesLeaveAndEnd := by
  intro s x t₀ hx hnow
  refine ⟨fun hstep hnb hoff hnom => ?_, fun u hu hle => ?_⟩
  · refine answers_of_answer rfl (by simp [hx, hnow]) ?_
    obtain ⟨msg, hmsg⟩ := ppsPulse_eq hstep hnb hoff hnom
    have hshown := regsBut_messageShown (pulseCounted s x (absTick s t₀)) x msg
    have htold : regsBut (messageShown (pulseCounted s x (absTick s t₀)) x msg) (slotsTold _ x msg) dropCounters :=
      regsBut_tell hostSlots (List.Subset.refl _) _ _ _
    have htim : (ppsPulse s x (absTick s t₀)).tim = (pulseCounted s x (absTick s t₀)).tim := by
      rw [hmsg, (keeps_raiseIrq _ _ _ _).same .tim (by decide), slotsTold_tim, messageShown_tim]
    refine ⟨?_, ?_, ?_, ?_, ?_, ?_⟩
    · rw [ppsOut, htim, ← ppsOut, ppsOut_pulseCounted]
    · rw [ppsOut, htim, ← ppsOut, ppsOut_pulseCounted]
      rfl
    · rw [hmsg, getF_raiseIrq_apart (by grind) (by grind [mem_dropCounters]), getF_of_regsBut htold (by grind [mem_dropCounters]),
        getF_of_regsBut hshown (by grind [messageRegs]), getF_pulseCounted]
    · rw [hmsg, getLsbD_raiseIrq _ _ _ _ _ (by decide) (by omega)]
    · rw [hmsg]
      have hcnt := regsBut_pulseCounted s x (absTick s t₀)
      intro j hj
      simp only [List.mem_append, List.mem_cons, List.not_mem_nil, or_false, not_or, mem_tally] at hj
      rw [rd_raiseIrq_ne _ _ _ _ (by grind [mem_dropCounters]), htold j (by grind [mem_dropCounters]),
        hshown j (by grind [mem_messageRegs]), hcnt j (by grind)]
    · exact partsBut_of_keeps (ppsPulse_keeps s x _ (allows_of_subset (by decide)) (.refl _ s))
  · refine answers_of_answer rfl (by simp [hx, hnow]) ?_
    have hend : ppsEnd s x (absTick s t₀) = modPps s x fun p => { p with stop := none } := by simp only [ppsEnd, hu, hle, if_true]
    rw [hend]
    refine ⟨?_, rfl, partsBut_of_keeps (modPps_keeps _ _ _ (fun _ hp => hp) (.refl _ s))⟩
    rw [ppsOut_modPps]

end Sys2Proof.Pulses

namespace Sys2Proof.Drivers

open Sys2Proof Sys2Proof.Machine Sys2Proof.Frame

variable {s t : State} {c d g : Nat}

/-! ### Channels and groups after an operation -/

theorem drvCh_of_drv (h : t.drv = s.drv) (c : Nat) : drvCh t c = drvCh s c := by rw [drvCh, h, drvCh]

theorem drvGrp_of_drv (h : t.drv = s.drv) (g : Nat) : drvGrp t g = drvGrp s g := by rw [drvGrp, h, drvGrp]

@[simp] theorem drvCh_modDrvCh (s : State) (c : Nat) (f : DrvCh → DrvCh) : drvCh (modDrvCh s c f) c = f (drvCh s c) := sparseGet_mod _ _ _ _

theorem drvCh_modDrvCh_ne (s : State) (f : DrvCh → DrvCh) (h : d ≠ c) : drvCh (modDrvCh s c f) d = drvCh s d := sparseGet_mod_ne _ _ _ _ _ h

@[simp] theorem drvGrp_modDrvCh (s : State) (c : Nat) (f : DrvCh → DrvCh) (g : Nat) : drvGrp (modDrvCh s c f) g = drvGrp s g := rfl

@[simp] theorem drvCh_modDrvGrp (s : State) (g : Nat) (f : DrvGrp → DrvGrp) (c : Nat) : drvCh (modDrvGrp s g f) c = drvCh s c := rfl

@[simp] theorem drvGrp_modDrvGrp (s : State) (g : Nat) (f : DrvGrp → DrvGrp) : drvGrp (modDrvGrp s g f) g = f (drvGrp s g) :=
  sparseGet_mod _ _ _ _

theorem drvGrp_modDrvGrp_ne (s : State) (f : DrvGrp → DrvGrp) {k : Nat} (h : k ≠ g) : drvGrp (modDrvGrp s g f) k = drvGrp s k :=
  sparseGet_mod_ne _ _ _ _ _ h

/-- A group's arbitration shows in its status word alone (R181). -/
theorem regsBut_modDrvGrp (s : State) (g : Nat) (f : DrvGrp → DrvGrp) : regsBut s (modDrvGrp s g f) [DRV_GRP_STAT g] := by
  unfold modDrvGrp
  refine regsBut_setF (regsBut_setF (regsBut_setB (regsBut_of_regs rfl _) ?_ _) ?_ _) ?_ _ <;> exact List.mem_cons_self

@[simp] theorem drvCh_setF (s : State) (f : Field) (v c : Nat) : drvCh (setF s f v) c = drvCh s c := rfl
@[simp] theorem drvGrp_setF (s : State) (f : Field) (v g : Nat) : drvGrp (setF s f v) g = drvGrp s g := rfl
@[simp] theorem drvCh_setB (s : State) (f : Field) (b : Bool) (c : Nat) : drvCh (setB s f b) c = drvCh s c := rfl
@[simp] theorem drvGrp_setB (s : State) (f : Field) (b : Bool) (g : Nat) : drvGrp (setB s f b) g = drvGrp s g := rfl

/-! ### STATE of a channel -/

theorem regsBut_setDrvState (s : State) (c st : Nat) : regsBut s (setDrvState s c st) [DRV_CH_STAT c, DRV_CH_STAT (c + 1)] := by
  have hlead : regsBut s (setF s (DRV_CH_STAT_STATE c) st) [DRV_CH_STAT c, DRV_CH_STAT (c + 1)] :=
    regsBut_setF (regsBut_refl _ _) List.mem_cons_self _
  unfold setDrvState
  dsimp only
  split
  · exact regsBut_setF hlead (List.mem_cons_of_mem _ List.mem_cons_self) _
  · exact hlead

theorem paired_of_regsBut {l : List Nat} (h : regsBut s t l) (hd : DRV_CH_MODE (d / 2 * 2) ∉ l) : paired t d = paired s d := flag_of_regsBut h hd

/-- A channel that leads no partner shows its state in its own word alone. -/
theorem regsBut_setDrvState_single (s : State) (st : Nat) (hc : c < 32) (h : paired s c = false) :
    regsBut s (setDrvState s c st) [DRV_CH_STAT c] := by
  have hset : regsBut s (setF s (DRV_CH_STAT_STATE c) st) [DRV_CH_STAT c] := regsBut_setF (regsBut_refl _ _) List.mem_cons_self _
  have hp : paired (setF s (DRV_CH_STAT_STATE c) st) c = false := (paired_of_regsBut hset (by grind)).trans h
  unfold setDrvState
  simpa only [hp, Bool.false_and, Bool.false_eq_true, if_false] using hset

theorem setDrvState_drv (s : State) (c st : Nat) : (setDrvState s c st).drv = s.drv := by
  unfold setDrvState
  dsimp only
  split <;> rfl

@[simp] theorem drvCh_setDrvState (s : State) (c st d : Nat) : drvCh (setDrvState s c st) d = drvCh s d := drvCh_of_drv (setDrvState_drv s c st) d

@[simp] theorem drvGrp_setDrvState (s : State) (c st g : Nat) : drvGrp (setDrvState s c st) g = drvGrp s g := drvGrp_of_drv (setDrvState_drv s c st) g

theorem getF_setDrvState (s : State) (c st : Nat) : getF (setDrvState s c st) (DRV_CH_STAT_STATE c) = st % 8 := by
  unfold setDrvState
  dsimp only
  split
  · rw [getF_setF_apart (by grind), getF_setF _ _ _ (by grind)]
    rfl
  · rw [getF_setF _ _ _ (by grind)]
    rfl

/-! ### Windows and edges at the pin -/

theorem cutWindow_regs (s : State) (c t : Nat) : (cutWindow s c t).regs = s.regs := by unfold cutWindow; split <;> rfl

theorem cutWindow_drv (s : State) (c t : Nat) : (cutWindow s c t).drv = s.drv := by unfold cutWindow; split <;> rfl

theorem cutWindow_sch (s : State) (c t : Nat) : (cutWindow s c t).sch = s.sch := by unfold cutWindow; split <;> rfl

/-- An edge that closes no window counts no result. -/
theorem pinEdge_regs (s : State) (c dir te : Nat) (slot : Option (Nat × Nat)) (trail modul : Bool) :
    (pinEdge s c dir te slot trail modul).regs = s.regs := by
  unfold pinEdge
  dsimp only
  split
  · exact cutWindow_regs s c te
  · exact cutWindow_regs s c te

theorem pinEdge_drv (s : State) (c dir te : Nat) (slot : Option (Nat × Nat)) (trail modul : Bool) :
    (pinEdge s c dir te slot trail modul).drv = s.drv := by
  unfold pinEdge
  dsimp only
  split
  · exact cutWindow_drv s c te
  · exact cutWindow_drv s c te

theorem pinEdge_sch (s : State) (c dir te : Nat) (slot : Option (Nat × Nat)) (trail modul : Bool) :
    (pinEdge s c dir te slot trail modul).sch = s.sch := by
  unfold pinEdge
  dsimp only
  split
  · exact cutWindow_sch s c te
  · exact cutWindow_sch s c te

/-! ### Peaks that do not wait -/

/-- Where nothing waits for a peak, its end grants none. -/
theorem endPeak_of_idle {p : Nat × Nat × Nat} (hp : (drvGrp s g).peak = some p) (hq : (drvGrp s g).queue = []) (stop next : Nat) :
    endPeak s g stop next = modDrvGrp s g fun x => { x with peak := none, marks := (p.1, stop) :: x.marks } := by
  simp only [endPeak, hp, drvGrp_modDrvGrp, hq, List.length_nil, grantNext]

theorem settlePeaks_of_none (hp : (drvGrp s g).peak = none) (n t : Nat) : settlePeaks n s g t = s := by
  cases n with
  | zero => rfl
  | succ n => simp only [settlePeaks, hp]

/-- A channel without a peak leaves the arbitration of its group as it is when it closes. -/
theorem releaseAt_of_none (hp : (drvGrp s (groupOf c)).peak = none) (t next : Nat) (sense : Bool) :
    releaseAt s c t next sense = setDrvState (modDrvCh s c fun d =>
      { d with isOpen := false, coil := false, rise := none, fall := none, sensed := sense, duty := 0 }) c (if sense then dsRelease else dsOff) := by
  simp only [releaseAt, drvGrp_setDrvState, drvGrp_modDrvCh, hp]

/-- A request for a peak need not wait where none is in progress, none waits and no edge goes before it (R181). -/
theorem mustWait_of_idle (hp : (drvGrp s (groupOf c)).peak = none) (hq : (drvGrp s (groupOf c)).queue = []) (he : s.sch.edges = []) (t : Nat) :
    mustWait s c t = false := by
  simp [mustWait, hp, hq, he]

theorem waitingOf_of_idle (hq : (drvGrp s (groupOf c)).queue = []) : waitingOf s c = none := by simp [waitingOf, hq]

/-! ### The edge that fires -/

/-- The earliest edge of a channel is one of its edges. -/
theorem firstEdge_spec {e : Edge} (h : firstEdge s c = some e) : e ∈ s.sch.edges ∧ e.ch = c := by
  have hinv : ∀ x ∈ firstEdge s c, x ∈ s.sch.edges.filter fun e => decide (e.ch = c) := by
    unfold firstEdge
    refine List.foldlRecOn (motive := fun b : Option Edge => ∀ x ∈ b, x ∈ s.sch.edges.filter fun e => decide (e.ch = c)) (b := none) _ _ (by simp) ?_
    intro b hb e he x hx
    match b with
    | none => cases hx; exact he
    | some y =>
      dsimp only at hx
      split at hx
      · cases hx; exact he
      · exact hb x hx
  have hmem := hinv e (by simp [h])
  simpa using hmem

end Sys2Proof.Drivers

namespace Sys2Proof.DriverEdges

open Sys2Proof Sys2Proof.Machine Sys2Proof.Frame Sys2Proof.Drivers

variable {s : State} {c g t : Nat} {e : Edge}

/-! ### Edges (R86, R167, R171, R172, R176) -/

theorem fireEdge_of_first (h : firstEdge s c = some e) : fireEdge s c =
    if e.kind = 0 then openEdge (takeEdge s e) e else if e.kind = 1 then closeEdge (takeEdge s e) e else rateEdge (takeEdge s e) e := by
  simp only [fireEdge, h]

/-- A channel whose opening edge reaches the pin at `t`, before its mode acts. -/
def edgeOpened (s : State) (e : Edge) (t : Nat) : State :=
  let p := pinEdge s e.ch 0 t (slotRef s e.slot) false false
  modDrvCh (addSwing p e.ch { isOpen := true, tick := t, est := edgeDelay p e, motion := none, slot := slotRef p e.slot }) e.ch
    fun d => { d with isOpen := true, te := t, sensed := false, first := true }

theorem edgeOpened_regs (s : State) (e : Edge) (t : Nat) : (edgeOpened s e t).regs = s.regs := pinEdge_regs _ _ _ _ _ _ _

theorem edgeOpened_sch (s : State) (e : Edge) (t : Nat) : (edgeOpened s e t).sch = s.sch := pinEdge_sch _ _ _ _ _ _ _

theorem drvCh_edgeOpened (s : State) (e : Edge) (t : Nat) :
    drvCh (edgeOpened s e t) e.ch = { drvCh s e.ch with isOpen := true, te := t, sensed := false, first := true } := by
  unfold edgeOpened
  rw [drvCh_modDrvCh]
  congr 1 <;> simp [drvCh, addSwing, setSwings, pinEdge_drv]

/-- Opening a PEAK_HOLD channel starts its peak phase at once. -/
theorem openAt_peakHold (hmode : getF s (DRV_CH_MODE_MODE e.ch) = 1) (due t : Nat) :
    openAt s e due t = startPeak (edgeOpened s e t) e.ch t := by
  have hmode' : getF (edgeOpened s e t) (DRV_CH_MODE_MODE e.ch) = 1 := by rw [getF_of_regs (edgeOpened_regs s e t), hmode]
  unfold openAt
  simp only [hmode, Nat.reduceEqDiff, decide_false, Bool.false_and, Bool.false_eq_true, if_false]
  change (match getF (edgeOpened s e t) (DRV_CH_MODE_MODE e.ch) with | 1 => _ | 2 => _ | _ => _) = _
  rw [hmode']
  rfl

/-- An opening edge of a permitted idle PEAK_HOLD channel, with no other peak about, reaches the pin at its instant (R167, R181). -/
theorem openEdge_peakHold (hconf : unconfigured s e.ch = false) (hprot : protectedOff s e.ch = false) (hidle : openOrWaiting s e.ch = false)
    (hmode : getF s (DRV_CH_MODE_MODE e.ch) = 1) (hp : (drvGrp s (groupOf e.ch)).peak = none) (hq : (drvGrp s (groupOf e.ch)).queue = [])
    (he : s.sch.edges = []) :
    openEdge s e = startPeak (edgeOpened (noteIssued s e.ch (onState s e.ch) e.origin) e e.tick) e.ch e.tick := by
  have hconf' : unconfigured (noteIssued s e.ch (onState s e.ch) e.origin) e.ch = false := hconf
  have hprot' : protectedOff (noteIssued s e.ch (onState s e.ch) e.origin) e.ch = false := hprot
  have hidle' : openOrWaiting (noteIssued s e.ch (onState s e.ch) e.origin) e.ch = false := hidle
  have hwait : mustWait (noteIssued s e.ch (onState s e.ch) e.origin) e.ch e.tick = false := mustWait_of_idle hp hq he e.tick
  have hsettle := settlePeaks_of_none (s := noteIssued s e.ch (onState s e.ch) e.origin) hp 8 e.tick
  unfold openEdge
  simp only [hconf', hprot', hidle', hsettle, hwait, Bool.and_false, Bool.false_eq_true, if_false]
  exact openAt_peakHold (s := noteIssued s e.ch (onState s e.ch) e.origin) hmode _ _

/-- What the start of a peak phase leaves (R171). -/
theorem startPeak_spec (s : State) (c t : Nat) :
    drvCh (startPeak s c t) c = { drvCh s c with coil := true } ∧
    (drvGrp (startPeak s c t) (groupOf c)).peak = some (c, t, t + peakTime s c) ∧ getF (startPeak s c t) (DRV_CH_STAT_STATE c) = 2 ∧
    (startPeak s c t).sch = s.sch := by
  unfold startPeak
  dsimp only
  refine ⟨?_, ?_, ?_, ?_⟩
  · change drvCh (setDrvState _ c dsPeak) c = _
    rw [drvCh_setDrvState, drvCh_modDrvCh, drvCh_modDrvGrp]
  · change (drvGrp (setDrvState _ c dsPeak) _).peak = _
    rw [drvGrp_setDrvState, drvGrp_modDrvCh, drvGrp_modDrvGrp]
  · exact getF_setDrvState _ c dsPeak
  · exact (startPeak_keeps s c t (R := (· ∈ [.regs, .sys, .drv])) (fun _ hp => hp) (.refl _ s)).same .sch (by decide)

theorem storeResult_drv (s : State) (c dir r m : Nat) : (storeResult s c dir r m).drv = s.drv :=
  (storeResult_keeps s c dir r m (R := (· ∈ [.regs, .act])) (fun _ hp => hp) (.refl _ s)).same .drv (by decide)

theorem storeResult_sch (s : State) (c dir r m : Nat) : (storeResult s c dir r m).sch = s.sch :=
  (storeResult_keeps s c dir r m (R := (· ∈ [.regs, .act])) (fun _ hp => hp) (.refl _ s)).same .sch (by decide)

/-- A closing edge of an open channel that nothing holds, with no peak in its group, releases it (R172). -/
theorem closeEdge_open (hw : waitingOf s e.ch = none) (hprot : protectedOff s e.ch = false) (hopen : (drvCh s e.ch).isOpen = true)
    (hp : (drvGrp s (groupOf e.ch)).peak = none) :
    ∃ u sense, u.drv = s.drv ∧ u.sch = s.sch ∧ closeEdge s e = releaseAt u e.ch e.tick e.tick sense := by
  have hw' : waitingOf (noteIssued s e.ch 0 e.origin) e.ch = none := hw
  have hprot' : protectedOff (noteIssued s e.ch 0 e.origin) e.ch = false := hprot
  have hopen' : (drvCh (noteIssued s e.ch 0 e.origin) e.ch).isOpen = true := hopen
  have hsettle := settlePeaks_of_none (s := noteIssued s e.ch 0 e.origin) hp 8 e.tick
  unfold closeEdge
  simp only [hw', hprot', hopen', hsettle, Bool.not_true, Bool.false_eq_true, if_false]
  refine ⟨_, _, ?_, ?_, rfl⟩
  · change (ite _ (pinEdge _ _ _ _ _ _ _) (storeResult _ _ _ _ _) : State).drv = _
    split
    · exact pinEdge_drv _ _ _ _ _ _ _
    · exact storeResult_drv _ _ _ _ _
  · change (ite _ (pinEdge _ _ _ _ _ _ _) (storeResult _ _ _ _ _) : State).sch = _
    split
    · exact pinEdge_sch _ _ _ _ _ _ _
    · exact storeResult_sch _ _ _ _ _

/-- The release of a channel without a peak closes it. -/
theorem releaseAt_spec (hp : (drvGrp s (groupOf c)).peak = none) (t next : Nat) (sense : Bool) :
    (drvCh (releaseAt s c t next sense) c).isOpen = false ∧ (drvCh (releaseAt s c t next sense) c).coil = false ∧
    (releaseAt s c t next sense).sch = s.sch := by
  rw [releaseAt_of_none hp, drvCh_setDrvState, drvCh_modDrvCh]
  exact ⟨rfl, rfl, (setDrvState_keeps _ c _ (R := (· ∈ [.regs])) (fun _ hp => hp) (.refl _ _)).same .sch (by decide)⟩

theorem blockSlot_edges (s : State) (o : Option Nat) : (blockSlot s o).sch.edges = s.sch.edges := by cases o <;> rfl

theorem blockSlot_regs (s : State) (o : Option Nat) : (blockSlot s o).regs = s.regs := by cases o <;> rfl

theorem blockSlot_drv (s : State) (o : Option Nat) : (blockSlot s o).drv = s.drv := by cases o <;> rfl

theorem regsBut_showValue (s : State) (c : Nat) : regsBut s (showValue s c) [DRV_CH_OUT c] := by
  unfold showValue
  refine regsBut_setF (regsBut_setB (regsBut_setF (regsBut_of_regs rfl _) ?_ _) ?_ _) ?_ _ <;> exact List.mem_cons_self

theorem drvCh_showValue (s : State) (c : Nat) :
    drvCh (showValue s c) c = { drvCh s c with val := if 2 ≤ outMode s c then formValue s c else 0 } := by
  unfold showValue
  dsimp only
  rw [drvCh_setF, drvCh_setB, drvCh_setF, drvCh_modDrvCh]

/-- A RATE edge of a modulated channel with a gain gives it its base value, whatever holds it off (R176). -/
theorem rateEdge_eq (hgain : getF s (DRV_CH_RMAP_GAIN e.ch) ≠ 0) (hmode : 2 ≤ getF s (DRV_CH_MODE_MODE e.ch)) :
    ∃ u, u.regs = s.regs ∧ u.drv = s.drv ∧ u.sch.edges = s.sch.edges ∧ rateEdge s e = showValue (modDrvCh u e.ch fun d =>
      { d with vbase := rateBase (getI s (DRV_CH_RMAP_OFFSET e.ch)) (getF s (DRV_CH_RMAP_GAIN e.ch)) e.rate, fromRate := true }) e.ch := by
  refine ⟨if protectedOff s e.ch then blockSlot s e.slot else s, ?_, ?_, ?_, ?_⟩
  · split
    · exact blockSlot_regs _ _
    · rfl
  · split
    · exact blockSlot_drv _ _
    · rfl
  · split
    · exact blockSlot_edges _ _
    · rfl
  · have hregs : (if protectedOff s e.ch then blockSlot s e.slot else s).regs = s.regs := by
      split
      · exact blockSlot_regs _ _
      · rfl
    unfold rateEdge
    simp only [hgain, getF_of_regs hregs, getI_of_regs hregs, false_or, Nat.not_lt.mpr hmode, if_false]

/-- EDGE_FIRE of an opening edge of a PEAK_HOLD channel. -/
theorem fireEdge_opening (he : firstEdge s c = some e) (hk : e.kind = 0) (hconf : unconfigured s c = false) (hprot : protectedOff s c = false)
    (hidle : openOrWaiting s c = false) (hmode : getF s (DRV_CH_MODE_MODE c) = 1) (hp : (drvGrp s (groupOf c)).peak = none)
    (hq : (drvGrp s (groupOf c)).queue = []) (honly : s.sch.edges = [e]) :
    (fireEdge s c).sch.edges = [] ∧ (drvCh (fireEdge s c) c).isOpen = true ∧ (drvCh (fireEdge s c) c).te = e.tick ∧
    (drvGrp (fireEdge s c) (groupOf c)).peak = some (c, e.tick, e.tick + peakTime s c) ∧ getF (fireEdge s c) (DRV_CH_STAT_STATE c) = 2 := by
  obtain ⟨-, rfl⟩ := firstEdge_spec he
  have hnone : (takeEdge s e).sch.edges = [] := by simp [takeEdge, honly]
  have hfire : fireEdge s e.ch = startPeak (edgeOpened (noteIssued (takeEdge s e) e.ch (onState (takeEdge s e) e.ch) e.origin) e e.tick) e.ch e.tick := by
    rw [fireEdge_of_first he, if_pos hk]
    exact openEdge_peakHold (s := takeEdge s e) hconf hprot hidle hmode hp hq hnone
  obtain ⟨hch, hpeak, hstate, hsch⟩ :=
    startPeak_spec (edgeOpened (noteIssued (takeEdge s e) e.ch (onState (takeEdge s e) e.ch) e.origin) e e.tick) e.ch e.tick
  rw [hfire, hch, hpeak, hstate, hsch, drvCh_edgeOpened, edgeOpened_sch]
  refine ⟨hnone, rfl, rfl, ?_, rfl⟩
  rw [peakTime, getF_of_regs (edgeOpened_regs _ _ _)]
  rfl

/-- EDGE_FIRE of a closing edge. -/
theorem fireEdge_closing (he : firstEdge s c = some e) (hk : e.kind = 1) (hw : waitingOf s c = none) (hprot : protectedOff s c = false)
    (hopen : (drvCh s c).isOpen = true) (hp : (drvGrp s (groupOf c)).peak = none) :
    (fireEdge s c).sch.edges = s.sch.edges.erase e ∧ (drvCh (fireEdge s c) c).isOpen = false ∧ (drvCh (fireEdge s c) c).coil = false := by
  obtain ⟨-, rfl⟩ := firstEdge_spec he
  obtain ⟨u, sense, hdrv, hsch, hclose⟩ := closeEdge_open (s := takeEdge s e) hw hprot hopen hp
  have hpu : (drvGrp u (groupOf e.ch)).peak = none := by rw [drvGrp_of_drv hdrv]; exact hp
  obtain ⟨hisOpen, hcoil, hedges⟩ := releaseAt_spec hpu e.tick e.tick sense
  rw [fireEdge_of_first he, if_neg (by omega), if_pos hk, hclose, hedges, hsch]
  exact ⟨rfl, hisOpen, hcoil⟩

/-- EDGE_FIRE of a RATE edge. -/
theorem fireEdge_rate (he : firstEdge s c = some e) (hk : 2 ≤ e.kind) (hgain : getF s (DRV_CH_RMAP_GAIN c) ≠ 0)
    (hmode : 2 ≤ getF s (DRV_CH_MODE_MODE c)) :
    (fireEdge s c).sch.edges = s.sch.edges.erase e ∧
    (drvCh (fireEdge s c) c).vbase = getI s (DRV_CH_RMAP_OFFSET c) * 65536 + ((e.rate * getF s (DRV_CH_RMAP_GAIN c) : Nat) : Int) ∧
    (drvCh (fireEdge s c) c).fromRate = true ∧ regsBut s (fireEdge s c) [DRV_CH_OUT c] ∧ partsBut s (fireEdge s c) [.regs, .sch, .drv] := by
  obtain ⟨-, rfl⟩ := firstEdge_spec he
  have hfire : fireEdge s e.ch = rateEdge (takeEdge s e) e := by rw [fireEdge_of_first he, if_neg (by omega), if_neg (by omega)]
  have htake : Keeps (· ∈ [.regs, .sch, .drv]) s (takeEdge s e) := takeEdge_keeps s e (allows_of_subset (by decide)) (.refl _ s)
  have hkeeps := rateEdge_keeps (takeEdge s e) e (allows_of_subset (by decide)) htake
  obtain ⟨u, hregs, hdrv, hedges, hrate⟩ := rateEdge_eq (s := takeEdge s e) hgain hmode
  refine ⟨?_, ?_, ?_, ?_, hfire ▸ partsBut_of_keeps hkeeps⟩
  · rw [hfire, hrate]
    exact hedges
  · rw [hfire, hrate, drvCh_showValue, drvCh_modDrvCh]
    rfl
  · rw [hfire, hrate, drvCh_showValue, drvCh_modDrvCh]
  · rw [hfire, hrate]
    have hu : u.regs = s.regs := hregs
    exact regsBut_trans (regsBut_of_regs (t := modDrvCh u e.ch _) hu _) (regsBut_showValue _ _)

/-! ### Peaks and pulses (R171 to R175) -/

/-- PEAK_END of a group in which nothing waits: the channel holds. -/
theorem peakExpires_idle {a b : Nat} (hc : c < 32) (hp : (drvGrp s g).peak = some (c, a, b)) (hq : (drvGrp s g).queue = [])
    (hpair : paired s c = false) :
    (drvGrp (peakExpires s g) g).peak = none ∧ getF (peakExpires s g) (DRV_CH_STAT_STATE c) = 3 ∧
    regsBut s (peakExpires s g) [DRV_CH_STAT c, DRV_GRP_STAT g] ∧ partsBut s (peakExpires s g) [.regs, .drv] := by
  have hstate := regsBut_setDrvState_single s dsHold hc hpair
  have hend : peakExpires s g = modDrvGrp (setDrvState s c dsHold) g fun x => { x with peak := none, marks := (c, b) :: x.marks } := by
    have hidle := endPeak_of_idle (s := setDrvState s c dsHold) ((drvGrp_setDrvState s c dsHold g).symm ▸ hp)
      ((drvGrp_setDrvState s c dsHold g).symm ▸ hq) b b
    simp only [peakExpires, hp, hidle]
  have hgrp := regsBut_modDrvGrp (setDrvState s c dsHold) g fun x => { x with peak := none, marks := (c, b) :: x.marks }
  rw [hend]
  refine ⟨?_, ?_, ?_, ?_⟩
  · rw [drvGrp_modDrvGrp]
  · rw [getF_of_regsBut hgrp (by grind), getF_setDrvState]
    rfl
  · exact regsBut_trans (regsBut_mono hstate (by simp)) (regsBut_mono hgrp (by simp))
  · exact partsBut_of_keeps (modDrvGrp_keeps _ _ _ (fun _ hp => hp) (setDrvState_keeps s c dsHold (allows_of_subset (by decide)) (.refl _ s)))

/-- The on time and the grid of a channel do not depend on the edges that are due. -/
theorem pwmOn_modDrvCh (f : DrvCh → DrvCh) (hv : (f (drvCh s c)).val = (drvCh s c).val) (hf : (f (drvCh s c)).freq = (drvCh s c).freq) :
    pwmOn (modDrvCh s c f) c = pwmOn s c := by
  simp only [pwmOn, valueInForce, drvCh_modDrvCh, hv, hf]

theorem noPulse_modDrvCh (f : DrvCh → DrvCh) (hv : (f (drvCh s c)).val = (drvCh s c).val) (hf : (f (drvCh s c)).freq = (drvCh s c).freq) :
    noPulse (modDrvCh s c f) c = noPulse s c := by
  simp only [noPulse, pwmOn_modDrvCh f hv hf]
  rfl

theorem staysOpen_modDrvCh (f : DrvCh → DrvCh) (hv : (f (drvCh s c)).val = (drvCh s c).val) (hf : (f (drvCh s c)).freq = (drvCh s c).freq) :
    staysOpen (modDrvCh s c f) c = staysOpen s c := by
  simp only [staysOpen, pwmOn_modDrvCh f hv hf, pwmPeriod, drvCh_modDrvCh, hf]
  rfl

/-- GRID_RISE of a channel whose coil is on without a fall: the next rise and the fall of this pulse fall due. -/
theorem gridRiseEdge_on {r : Nat} (hon : (drvCh s c).coil = true) (hr : (drvCh s c).rise = some r) (hf : (drvCh s c).fall = none)
    (hp : (drvGrp s (groupOf c)).peak = none) (hw : waitingOf s c = none) (hno : noPulse s c = false) (hst : staysOpen s c = false) :
    gridRiseEdge s c = modDrvCh (modDrvCh s c fun d => { d with rise := some (riseAfter s c r) }) c fun d => { d with fall := some (r + pwmOn s c) } := by
  have homit : omitWaiting s c r = s := by simp only [omitWaiting, hw]
  have hw' (f : DrvCh → DrvCh) : waitingOf (modDrvCh s c f) c = none := hw
  unfold gridRiseEdge
  simp only [hr, settlePeaks_of_none hp, homit, drvCh_modDrvCh, hon, hf, hw', Option.isSome_none, Bool.and_false, Bool.or_self, Bool.false_eq_true,
    noPulse_modDrvCh, hno, staysOpen_modDrvCh, hst, pwmOn_modDrvCh, if_false, if_true]

/-- PULSE_FALL, where the next rise is not too near: the coil is off and the channel stays open. -/
theorem pulseFall_ends {f : Nat} (hopen : (drvCh s c).isOpen = true) (hon : (drvCh s c).coil = true) (hf : (drvCh s c).fall = some f)
    (hr : ∀ r ∈ (drvCh s c).rise, f + tminOf s c ≤ r) (hp : (drvGrp s (groupOf c)).peak = none) :
    (drvCh (pulseFall s c) c).coil = false ∧ (drvCh (pulseFall s c) c).fall = none ∧ (drvCh (pulseFall s c) c).isOpen = true ∧
    getF (pulseFall s c) (DRV_CH_STAT_STATE c) = 4 := by
  have hfall : pulseFall s c = pinFall (modDrvCh s c fun d => { d with fall := none }) c f := by
    have htmin : tminOf (modDrvCh s c fun d => { d with fall := none }) c = tminOf s c := rfl
    unfold pulseFall
    simp only [hf, drvCh_modDrvCh, hon, htmin, Bool.not_true, Bool.or_false]
    cases hrise : (drvCh s c).rise with
    | none => simp
    | some r =>
      have hle := hr r (by simp [hrise])
      simp [Nat.not_lt.mpr hle]
  have hdrv (dir t : Nat) (a b : Bool) := pinEdge_drv (modDrvCh s c fun d => { d with fall := none }) c dir t none a b
  have hpin : pinFall (modDrvCh s c fun d => { d with fall := none }) c f = setDrvState (modDrvCh
      (pinEdge (modDrvCh s c fun d => { d with fall := none }) c 1 f none false true) c fun d =>
        { d with coil := false, fall := none, sensed := relSense (pinEdge (modDrvCh s c fun d => { d with fall := none }) c 1 f none false true) c }) c
      dsLow := by
    unfold pinFall
    simp only [drvGrp_setDrvState, drvGrp_modDrvCh, drvGrp_of_drv (hdrv _ _ _ _), hp]
  rw [hfall, hpin, drvCh_setDrvState, drvCh_modDrvCh, getF_setDrvState, drvCh_of_drv (hdrv _ _ _ _), drvCh_modDrvCh]
  exact ⟨rfl, rfl, hopen, rfl⟩

/-- SENSED_RELEASE_END of a channel that releases. -/
theorem endSensed_release (hc : c < 32) (hs : (drvCh s c).sensed = true) (hst : getF s (DRV_CH_STAT_STATE c) = 6) (hpair : paired s c = false) :
    (drvCh (endSensed s c) c).sensed = false ∧ getF (endSensed s c) (DRV_CH_STAT_STATE c) = 0 ∧ regsBut s (endSensed s c) [DRV_CH_STAT c] ∧
    partsBut s (endSensed s c) [.regs, .drv] := by
  have hst' (f : DrvCh → DrvCh) : getF (modDrvCh s c f) (DRV_CH_STAT_STATE c) = dsRelease := hst
  have hend : endSensed s c = setDrvState (modDrvCh s c fun d => { d with sensed := false }) c dsOff := by
    simp only [endSensed, hs, hst', if_true]
  rw [hend]
  refine ⟨?_, ?_, ?_, ?_⟩
  · rw [drvCh_setDrvState, drvCh_modDrvCh]
  · rw [getF_setDrvState]
    rfl
  · exact regsBut_setDrvState_single (s := modDrvCh s c _) dsOff hc hpair
  · exact hend ▸ partsBut_of_keeps (endSensed_keeps s c (fun _ hp => hp) (.refl _ s))

/-- The end of a sensed release leaves none. -/
theorem endSensed_sensed (s : State) (c : Nat) : (drvCh (endSensed s c) c).sensed = false := by
  unfold endSensed
  dsimp only
  split
  · split
    · rw [drvCh_setDrvState, drvCh_modDrvCh]
    · rw [drvCh_modDrvCh]
  next h => exact Bool.not_eq_true _ ▸ h

/-! ### Detection windows (R150, R151, R153) -/

@[simp] theorem winAt_setWin (s : State) (c : Nat) (w : Option ActWin) : winAt (setWin s c w) c = w := sparseGet_set _ _ _ _

@[simp] theorem learnAt_modLearn (s : State) (c dir : Nat) (f : Learn → Learn) : learnAt (modLearn s c dir f) c dir = f (learnAt s c dir) :=
  sparseGet_mod _ _ _ _

theorem raiseDlyFlag_act (s : State) (c k dir : Nat) : (raiseDlyFlag s c k dir).act = s.act :=
  (raiseDlyFlag_keeps s c k dir (R := (· ∈ [.regs, .tables, .recd])) (fun _ hp => hp) (.refl _ s)).same .act (by decide)

theorem showMissRun_act (s : State) (c : Nat) : (showMissRun s c).act = s.act := rfl

/-- A run of results without a motion is counted in the channel's own entry. -/
theorem missResult_act (s : State) (c dir r : Nat) : ∃ n, (missResult s c dir r).act = (modLearn s c dir fun l => { l with missRun := n }).act := by
  unfold missResult
  dsimp only
  split
  · refine ⟨(learnAt s c dir).missRun + 1, ?_⟩
    split
    · rw [raiseDlyFlag_act, showMissRun_act]
    · rfl
  · exact ⟨0, rfl⟩

theorem regsBut_raiseDlyFlag (s : State) (c k dir : Nat) : regsBut s (raiseDlyFlag s c k dir) (ACT_STAT :: lossCounters) := by
  unfold raiseDlyFlag
  split
  · exact regsBut_refl _ _
  · refine regsBut_trans ?_ (regsBut_mono (regsBut_record _ _ _ _) (List.subset_cons_self _ _))
    unfold setDlyFlags showActStat
    refine regsBut_setF (regsBut_setF (regsBut_setF (regsBut_of_regs rfl _) ?_ _) ?_ _) ?_ _ <;> exact List.mem_cons_self

/-- A run of results shows in ACT_STAT, and in a record where it sets a flag. -/
theorem regsBut_missResult (s : State) (c dir r : Nat) : regsBut s (missResult s c dir r) (ACT_STAT :: lossCounters) := by
  unfold missResult
  dsimp only
  split
  · split
    · exact regsBut_before (regsBut_raiseDlyFlag _ _ _ _) rfl
    · exact regsBut_of_regs rfl _
  · exact regsBut_of_regs rfl _

/-- A result is kept as the last one of its direction. -/
theorem learnAt_storeResult (s : State) (c dir r m : Nat) :
    learnAt (storeResult s c dir r m) c dir = { learnAt s c dir with lastM := m, lastRes := r } := by
  unfold storeResult
  dsimp only
  split
  · exact learnAt_modLearn s c dir _
  · exact learnAt_modLearn s c dir _

theorem winAt_storeResult (s : State) (c dir r m d : Nat) : winAt (storeResult s c dir r m) d = winAt s d := by
  unfold storeResult
  dsimp only
  split <;> rfl

/-- A result is counted. -/
theorem storeResult_eq {f : Field} {r : Nat} (h : resultCounter r = some f) (s : State) (c dir m : Nat) :
    storeResult s c dir r m = bump (modLearn s c dir fun l => { l with lastM := m, lastRes := r }) f := by
  simp only [storeResult, h]

theorem getF_missResult (s : State) (c dir r : Nat) {f : Field} (hf : f.reg ∉ ACT_STAT :: lossCounters) : getF (missResult s c dir r) f = getF s f :=
  getF_of_regsBut (regsBut_missResult s c dir r) hf

theorem learnAt_missResult (s : State) (c dir r : Nat) : (learnAt (missResult s c dir r) c dir).lastRes = (learnAt s c dir).lastRes := by
  obtain ⟨n, hn⟩ := missResult_act s c dir r
  rw [learnAt, hn, ← learnAt, learnAt_modLearn]

theorem winAt_missResult (s : State) (c dir r d : Nat) : winAt (missResult s c dir r) d = winAt s d := by
  obtain ⟨n, hn⟩ := missResult_act s c dir r
  rw [winAt, hn]
  rfl

/-- A window that closes without a motion is gone, and its result is the last of its direction. -/
theorem closeWindow_spec {w : ActWin} (hw : winAt s c = some w) (r : Nat) :
    winAt (closeWindow s c r) c = none ∧ (learnAt (closeWindow s c r) c w.dir).lastRes = r := by
  simp only [closeWindow, hw, winAt_missResult, winAt_storeResult, winAt_setWin, learnAt_missResult, learnAt_storeResult, and_self]

/-- The counter of the result advances. -/
theorem getF_closeWindow {w : ActWin} {f k : Field} {r : Nat} (hw : winAt s c = some w) (hr : resultCounter r = some f) (hk : k.reg ∉ ACT_STAT :: lossCounters) :
    getF (closeWindow s c r) k = getF (bump s f) k := by
  simp only [closeWindow, hw, getF_missResult _ _ _ _ hk, storeResult_eq hr]
  rfl

theorem peakReached_early {w : ActWin} {t₁ t₀ : Nat} {l : List Nat} (hw : winAt s c = some w) (hd : w.dir = 0) (hin : inPeak s c t₁ = true)
    (hseen : ∀ f ∈ tongsFind { w with stop := min w.stop t₁ } t₀ l, t₁ < f.seen) :
    peakReached s c t₁ t₀ l = if t₁ < w.start then setWin s c (some { w with masked := true }) else closeWindow s c 4 := by
  unfold peakReached
  simp only [hw, hin]
  cases h : tongsFind { w with stop := min w.stop t₁ } t₀ l with
  | none => simp [hd]
  | some f => simp [hd, hseen f (by simp [h])]

/-- WINDOW_CLOSE of a window whose samples reach its end and show no motion. -/
theorem windowEnds_eq {w : ActWin} {t₀ : Nat} {l : List Nat} (hw : winAt s c = some w) (hend : w.stop ≤ t₀ + perUs * (l.length - 1))
    (hfind : tongsFind w t₀ l = none) :
    windowEnds s c t₀ l = if w.dir = 1 then endSensed (closeWindow s c (if w.masked then 4 else 3)) c
      else closeWindow s c (if w.masked then 4 else 3) := by
  simp only [windowEnds, hw, hfind, Option.isSome_none, Bool.false_eq_true, or_false, Nat.not_lt.mpr hend, if_false]

theorem endSensed_act (s : State) (c : Nat) : (endSensed s c).act = s.act :=
  (endSensed_keeps s c (R := (· ∈ [.regs, .drv])) (fun _ hp => hp) (.refl _ s)).same .act (by decide)

theorem regsBut_endSensed (s : State) (c : Nat) : regsBut s (endSensed s c) [DRV_CH_STAT c, DRV_CH_STAT (c + 1)] := by
  unfold endSensed
  dsimp only
  split
  · split
    · exact regsBut_before (regsBut_setDrvState _ c dsOff) rfl
    · exact regsBut_of_regs rfl _
  · exact regsBut_refl _ _

theorem windowEnds_spec {w : ActWin} {t₀ : Nat} {l : List Nat} (hw : winAt s c = some w) (hend : w.stop ≤ t₀ + perUs * (l.length - 1))
    (hfind : tongsFind w t₀ l = none) :
    winAt (windowEnds s c t₀ l) c = none ∧ (learnAt (windowEnds s c t₀ l) c w.dir).lastRes = (if w.masked then 4 else 3) ∧
    getF (windowEnds s c t₀ l) ACT_CNT_MISS_CNT = min (getF s ACT_CNT_MISS_CNT + bit (!w.masked) 0) (2 ^ 32 - 1) ∧
    (w.dir = 1 → (drvCh (windowEnds s c t₀ l) c).sensed = false) := by
  obtain ⟨hnone, hlast⟩ := closeWindow_spec hw (if w.masked then 4 else 3)
  have hact : (windowEnds s c t₀ l).act = (closeWindow s c (if w.masked then 4 else 3)).act := by
    rw [windowEnds_eq hw hend hfind]
    split
    · exact endSensed_act _ _
    · rfl
  have hcnt : getF (windowEnds s c t₀ l) ACT_CNT_MISS_CNT = getF (closeWindow s c (if w.masked then 4 else 3)) ACT_CNT_MISS_CNT := by
    rw [windowEnds_eq hw hend hfind]
    split
    · exact getF_of_regsBut (regsBut_endSensed _ _) (by grind)
    · rfl
  refine ⟨?_, ?_, ?_, fun hd => ?_⟩
  · rw [winAt, hact]
    exact hnone
  · rw [learnAt, hact]
    exact hlast
  · rw [hcnt]
    cases w.masked with
    | true =>
      simp only [if_true]
      rw [getF_closeWindow (f := ACT_CNT_MASK_CNT) hw rfl (by decide), getF_bump_apart (by decide)]
      have hlt : getF s ACT_CNT_MISS_CNT < 2 ^ 32 := getF_lt s _
      simp only [Bool.not_true, bit, Bool.false_eq_true, if_false, Nat.add_zero]
      omega
    | false =>
      simp only [Bool.false_eq_true, if_false]
      rw [getF_closeWindow (f := ACT_CNT_MISS_CNT) hw rfl (by decide), getF_bump _ _ _ (by decide)]
      rfl
  · rw [windowEnds_eq hw hend hfind, if_pos hd]
    exact endSensed_sensed _ _

/-! ### Motion reports (R148 to R154) -/

theorem placeMotion_keepsBoth (s : State) (c dir te tm m at_ : Nat) (slot : Option (Nat × Nat)) (trail : Bool) :
    Keeps (· ∈ [.sch, .act]) s (placeMotion s c dir te tm m at_ slot trail) :=
  placeMotion_keeps s c dir te tm m at_ slot trail (fun _ hp => hp) (.refl _ s)

/-- A motion is told to the switching and the slot of its edge; windows and measurements stand. -/
theorem placeMotion_act (s : State) (c dir te tm m at_ : Nat) (slot : Option (Nat × Nat)) (trail : Bool) :
    (placeMotion s c dir te tm m at_ slot trail).act.win = s.act.win ∧ (placeMotion s c dir te tm m at_ slot trail).act.cut = s.act.cut ∧
    (placeMotion s c dir te tm m at_ slot trail).act.waiting = s.act.waiting := by
  unfold placeMotion
  dsimp only
  split
  · exact ⟨rfl, rfl, rfl⟩
  · split
    · exact ⟨rfl, rfl, rfl⟩
    · exact ⟨rfl, rfl, rfl⟩

theorem disturbed_of_drv {u : State} (h : u.drv = s.drv) (c tm : Nat) : disturbed u c tm = disturbed s c tm := by rw [disturbed, h, disturbed]

theorem windowsOf_of_act {u v : State} (hw : u.act.win = v.act.win) (hc : u.act.cut = v.act.cut) (c : Nat) : windowsOf u c = windowsOf v c := by
  rw [windowsOf, hc, winAt, hw, ← winAt, windowsOf]

/-- A window that is taken away is one fewer. -/
theorem length_windowsOf_dropWindow {w : ActWin} (hw : w ∈ windowsOf s c) : (windowsOf (dropWindow s c w) c).length + 1 = (windowsOf s c).length := by
  unfold dropWindow
  split
  next h => simp only [windowsOf, winAt_setWin, h, List.length_append, Option.toList_none, Option.toList_some, List.length_nil, List.length_singleton]; rfl
  next h =>
    have hcut : (c, w) ∈ s.act.cut := by
      simp only [windowsOf, List.mem_append, List.mem_map, List.mem_filter, decide_eq_true_eq, Option.mem_toList] at hw
      rcases hw with ⟨⟨d, x⟩, ⟨hmem, rfl⟩, rfl⟩ | hopen
      · exact hmem
      · exact absurd hopen h
    have hlen : ((s.act.cut.erase (c, w)).filter fun e => decide (e.1 = c)).length + 1 = (s.act.cut.filter fun e => decide (e.1 = c)).length := by
      have hmem : (c, w) ∈ s.act.cut.filter fun e => decide (e.1 = c) := by simp [hcut]
      have hpos := List.length_pos_of_mem hmem
      rw [← List.erase_filter, List.length_erase_of_mem hmem]
      omega
    simp only [windowsOf, List.length_append, List.length_map] at hlen ⊢
    change _ + (winAt s c).toList.length + 1 = _
    omega

/-- The report of an undisturbed dip or hump: it waits for the learning filter. -/
theorem tongsReport_dip {w : ActWin} {f : Feature} (hk : w.knee = none) (hd : disturbed s c f.tm = false) :
    ∃ u, Keeps (· ∈ [.sch, .act]) s u ∧ u.act.win = s.act.win ∧ u.act.cut = s.act.cut ∧ u.act.waiting = s.act.waiting ∧
      tongsReport s c w f = { u with act := { u.act with waiting :=
        u.act.waiting ++ [{ ch := c, dir := w.dir, m := delayUnits (f.tm - w.te), node := false, modul := w.modul }] } } := by
  have hkeeps := placeMotion_keepsBoth s c w.dir w.te f.tm (delayUnits (f.tm - w.te)) f.due w.slot w.trail
  obtain ⟨hwin, hcut, hwait⟩ := placeMotion_act s c w.dir w.te f.tm (delayUnits (f.tm - w.te)) f.due w.slot w.trail
  refine ⟨_, hkeeps, hwin, hcut, hwait, ?_⟩
  have hd' := (disturbed_of_drv (hkeeps.same .drv (by decide)) c f.tm).trans hd
  simp only [tongsReport, placeFeature, hk, Option.isSome_none, Bool.false_eq_true, if_false, hd']

/-- MOTION_REPORT takes the first window in which a motion is due. -/
theorem motionReport_first {t₀ : Nat} {l : List Nat} {w : ActWin} {f : Feature} (hw : (windowsOf s c).head? = some w) (hf : reportDue w t₀ l = some f) :
    motionReport s c t₀ l = tongsReport (dropWindow s c w) c w f := by
  have hfind : (windowsOf s c).find? (fun w => (reportDue w t₀ l).isSome) = some w := by
    obtain ⟨rest, hrest⟩ := List.head?_eq_some_iff.mp hw
    rw [hrest, List.find?_cons_of_pos (by simp [hf])]
  simp only [motionReport, hfind, hf]

theorem motionReport_spec {t₀ : Nat} {l : List Nat} {w : ActWin} {f : Feature} (hw : (windowsOf s c).head? = some w) (hf : reportDue w t₀ l = some f)
    (hk : w.knee = none) (hd : disturbed s c f.tm = false) :
    (windowsOf (motionReport s c t₀ l) c).length + 1 = (windowsOf s c).length ∧
    (motionReport s c t₀ l).act.waiting = s.act.waiting ++ [{ ch := c, dir := w.dir, m := delayUnits (f.tm - w.te), node := false, modul := w.modul }] ∧
    (motionReport s c t₀ l).regs = s.regs ∧ partsBut s (motionReport s c t₀ l) [.sch, .act] := by
  have hdrop : Keeps (· ∈ [.sch, .act]) s (dropWindow s c w) := dropWindow_keeps s c w (allows_of_subset (by decide)) (.refl _ s)
  have hwaits : (dropWindow s c w).act.waiting = s.act.waiting := by unfold dropWindow; split <;> rfl
  obtain ⟨u, hkeeps, hwin, hcut, hwait, hu⟩ := tongsReport_dip (w := w) hk ((disturbed_of_drv (hdrop.same .drv (by decide)) c f.tm).trans hd)
  have hreport : motionReport s c t₀ l = _ := (motionReport_first hw hf).trans hu
  have hparts : Keeps (· ∈ [.sch, .act]) s (motionReport s c t₀ l) := by
    rw [hreport]
    exact (keeps_trans hdrop hkeeps).put_act (by decide)
  refine ⟨?_, ?_, hparts.same .regs (by decide), partsBut_of_keeps hparts⟩
  · rw [hreport, ← length_windowsOf_dropWindow (List.mem_of_head? hw)]
    exact congrArg (fun l => l.length + 1) (windowsOf_of_act (v := dropWindow s c w) hwin hcut c)
  · rw [hreport]
    simp only [hwait, hwaits]

/-! ### The Kettle (R189, R190) -/

theorem regsBut_showSum (s : State) (x : DrvSum) :
    regsBut s (showSum s x) [DRV_CH_I (x.n % 32), DRV_GRP_MEAS (x.n % 8)] := by
  unfold showSum
  split_ifs
  · exact regsBut_setF (regsBut_refl _ _) List.mem_cons_self _
  · exact regsBut_setF (regsBut_refl _ _) List.mem_cons_self _
  · exact regsBut_setF (regsBut_refl _ _) (List.mem_cons_of_mem _ List.mem_cons_self) _
  · exact regsBut_setF (regsBut_refl _ _) (List.mem_cons_of_mem _ List.mem_cons_self) _
  · exact regsBut_refl _ _

theorem showSum_drv (s : State) (x : DrvSum) : (showSum s x).drv = s.drv := by
  unfold showSum
  split_ifs <;> rfl

/-- Showing the means of a tick leaves the thermal state. -/
theorem foldl_showSum_drv (l : List DrvSum) (s : State) : (l.foldl showSum s).drv = s.drv :=
  List.foldlRecOn (motive := fun t : State => t.drv = s.drv) l _ rfl fun t ht x _ => (showSum_drv t x).trans ht

theorem kettleTick_answers (s : State) (l : List DrvSum) (hl : ∀ x ∈ l, x.n < 32) : answers (.kettleTick l) s (fun t =>
    t.drv.pf = ((s.drv.pf : Int) + roundDiv ((((l.map (sumPower s)).sum : Nat) : Int) - s.drv.pf) (256 * 2 ^ getF s DRV_KET_CFG_TAU)).toNat ∧
    getF t DRV_KET_STAT_PK = min 0xFFFF (((l.map (sumPower s)).sum + 500) / 1000) ∧
    getF t DRV_KET_STAT_PF = min 0xFFFF ((t.drv.pf + 500) / 1000) ∧ t.drv.ch = s.drv.ch ∧ partsBut s t [.regs, .drv]) := by
  refine answers_of_reach rfl (by simpa using hl) fun hparts => ⟨?_, ?_, ?_, ?_, hparts⟩
  · simp only [setF_drv, foldl_showSum_drv]
  · rw [getF_setF _ _ _ (by decide)]
    exact Nat.mod_eq_of_lt (Nat.lt_succ_of_le (Nat.min_le_left _ _))
  · rw [getF_setF_apart (by decide), getF_setF _ _ _ (by decide)]
    simp only [setF_drv, foldl_showSum_drv]
    exact Nat.mod_eq_of_lt (Nat.lt_succ_of_le (Nat.min_le_left _ _))
  · simp only [setF_drv, foldl_showSum_drv]

/-! ### The current loop (R178) -/

theorem loopPeriod_regs (s : State) (t : Nat) (x : Nat × Nat) : (loopPeriod s t x).regs = s.regs := by
  unfold loopPeriod
  dsimp only
  split <;> rfl

theorem outMode_loopPeriod (s : State) (t : Nat) (x : Nat × Nat) (d : Nat) : outMode (loopPeriod s t x) d = outMode s d := by
  unfold loopPeriod
  dsimp only
  split <;> rfl

/-- The current loop acts on no channel of another group, none that is closed and none in another mode. -/
theorem drvCh_loopPeriod {t d : Nat} {x : Nat × Nat} (h : groupOf d ≠ groupOf x.1 ∨ (drvCh s d).isOpen = false ∨ outMode s d ≠ 3) :
    drvCh (loopPeriod s t x) d = drvCh s d := by
  by_cases hd : d = x.1
  · subst hd
    unfold loopPeriod
    rcases h with h | h | h
    · exact absurd rfl h
    · simp [h]
    · simp [h]
  · unfold loopPeriod
    dsimp only
    split
    · exact drvCh_modDrvCh_ne _ _ hd
    · rfl

theorem foldl_loopPeriod_regs (s : State) (t : Nat) (l : List (Nat × Nat)) : (l.foldl (loopPeriod · t ·) s).regs = s.regs :=
  List.foldlRecOn (motive := fun u : State => u.regs = s.regs) l _ rfl fun u hu x _ => (loopPeriod_regs u t x).trans hu

theorem drvCh_foldl_loopPeriod {t d : Nat} {l : List (Nat × Nat)} (hl : ∀ x ∈ l, groupOf x.1 = g)
    (h : groupOf d ≠ g ∨ (drvCh s d).isOpen = false ∨ outMode s d ≠ 3) : drvCh (l.foldl (loopPeriod · t ·) s) d = drvCh s d := by
  induction l generalizing s with
  | nil => rfl
  | cons x l ih =>
    have hx : drvCh (loopPeriod s t x) d = drvCh s d := drvCh_loopPeriod (by rwa [hl x List.mem_cons_self])
    rw [List.foldl_cons, ih (fun y hy => hl y (List.mem_cons_of_mem _ hy)) (by rwa [hx, outMode_loopPeriod]), hx]

/-! ### What the Kettle goes by, while outputs switch (R190, R191) -/

/-- The Kettle's configuration and what it shows of its budget, its stages and the filtered dissipation are those of state `b`. -/
structure KettleAs (b s : State) : Prop where
  words : ∀ j, DRV_KET_CFG ≤ j → j ≤ DRV_KET_EFF → rd s j = rd b j
  stag : s.drv.stag = b.drv.stag
  lim : s.drv.lim = b.drv.lim
  pf : s.drv.pf = b.drv.pf

namespace KettleAs

variable {b u : State}

theorem refl (s : State) : KettleAs s s := ⟨fun _ _ _ => rfl, rfl, rfl, rfl⟩

theorem put (h : KettleAs b s) (hr : u.regs = s.regs) (hs : u.drv.stag = s.drv.stag) (hl : u.drv.lim = s.drv.lim) (hp : u.drv.pf = s.drv.pf) :
    KettleAs b u := ⟨fun j h₁ h₂ => (rd_of_regs hr _).trans (h.words j h₁ h₂), hs.trans h.stag, hl.trans h.lim, hp.trans h.pf⟩

theorem put_drv (h : KettleAs b s) (hr : u.regs = s.regs) (hd : u.drv = s.drv) : KettleAs b u := h.put hr (by rw [hd]) (by rw [hd]) (by rw [hd])

/-- An operation that moves registers beside those of the Kettle alone. -/
theorem of_regsBut {l : List Nat} (h : KettleAs b s) (hr : regsBut s u l) (hl : ∀ j ∈ l, j < DRV_KET_CFG ∨ DRV_KET_EFF < j) (hd : u.drv = s.drv) :
    KettleAs b u :=
  ⟨fun j h₁ h₂ => (hr j fun hj => by have := hl j hj; omega).trans (h.words j h₁ h₂), by rw [hd, h.stag], by rw [hd, h.lim], by rw [hd, h.pf]⟩

theorem wr (h : KettleAs b s) {i : Nat} (hi : i < DRV_KET_CFG ∨ DRV_KET_EFF < i) (v : Word) : KettleAs b (wr s i v) :=
  h.of_regsBut (regsBut_wr (regsBut_refl s [i]) List.mem_cons_self v) (by simpa using hi) rfl

theorem setF (h : KettleAs b s) {f : Field} (hf : f.reg < DRV_KET_CFG ∨ DRV_KET_EFF < f.reg) (v : Nat) : KettleAs b (setF s f v) := h.wr hf _

theorem setB (h : KettleAs b s) {f : Field} (hf : f.reg < DRV_KET_CFG ∨ DRV_KET_EFF < f.reg) (x : Bool) : KettleAs b (setB s f x) := h.wr hf _

theorem bump (h : KettleAs b s) {f : Field} (hf : f.reg < DRV_KET_CFG ∨ DRV_KET_EFF < f.reg) (n : Nat) : KettleAs b (bump s f n) := h.wr hf _

theorem modDrvCh (h : KettleAs b s) (c : Nat) (f : DrvCh → DrvCh) : KettleAs b (modDrvCh s c f) := h.put rfl rfl rfl rfl

theorem modDrvGrp (h : KettleAs b s) (g : Nat) (f : DrvGrp → DrvGrp) : KettleAs b (modDrvGrp s g f) :=
  have hu : KettleAs b { s with drv := { s.drv with grp := sparseMod (fun _ => DrvGrp.reset) s.drv.grp g f } } := h.put rfl rfl rfl rfl
  ((hu.setB (by grind) _).setF (by grind) _).setF (by grind) _

theorem setDrvState (h : KettleAs b s) (c st : Nat) : KettleAs b (setDrvState s c st) :=
  h.of_regsBut (regsBut_setDrvState s c st) (by grind) (setDrvState_drv s c st)

theorem storeResult (h : KettleAs b s) (c dir r m : Nat) : KettleAs b (storeResult s c dir r m) := by
  unfold Machine.storeResult
  extract_lets u
  have hu : KettleAs b u := h.put_drv rfl rfl
  unfold resultCounter
  split
  next f hf =>
    split at hf <;> cases hf <;> exact hu.bump (by decide) 1
  · exact hu

theorem pinEdge (h : KettleAs b s) (c dir te : Nat) (slot : Option (Nat × Nat)) (trail modul : Bool) :
    KettleAs b (pinEdge s c dir te slot trail modul) :=
  h.put_drv (pinEdge_regs _ _ _ _ _ _ _) (pinEdge_drv _ _ _ _ _ _ _)

theorem blockSlot (h : KettleAs b s) (o : Option Nat) : KettleAs b (blockSlot s o) := h.put_drv (blockSlot_regs _ _) (blockSlot_drv _ _)

theorem cutWindow (h : KettleAs b s) (c t : Nat) : KettleAs b (cutWindow s c t) := h.put_drv (cutWindow_regs _ _ _) (cutWindow_drv _ _ _)

theorem startPeak (h : KettleAs b s) (c t : Nat) : KettleAs b (startPeak s c t) :=
  (((h.modDrvGrp _ _).modDrvCh c _).setDrvState c dsPeak).put_drv rfl rfl

theorem addSwing (h : KettleAs b s) (c : Nat) (w : Swing) : KettleAs b (addSwing s c w) := h.put_drv rfl rfl

theorem clearProt (h : KettleAs b s) (c : Nat) : KettleAs b (clearProt s c) := h.put_drv rfl rfl

theorem openAt (h : KettleAs b s) (e : Edge) (due t : Nat) : KettleAs b (openAt s e due t) := by
  unfold Machine.openAt
  extract_lets c still s₁ s₂ s₃ s₄ s₅
  have h₁ : KettleAs b s₁ := by
    dsimp only [s₁]
    split
    · exact h.storeResult _ _ _ _
    · exact h.pinEdge _ _ _ _ _ _
  have h₃ : KettleAs b s₃ := (h₁.addSwing _ _).modDrvCh _ _
  split
  · exact h₃.startPeak _ _
  · have h₄ : KettleAs b s₄ := h₃.modDrvCh _ _
    split
    · exact (h₄.setDrvState _ _).clearProt _
    · split
      · exact h₄.startPeak _ _
      · exact (h₄.startPeak _ _).modDrvCh _ _
  · exact ((h₃.modDrvCh _ _).setDrvState _ _).clearProt _

theorem noteWait (h : KettleAs b s) (w : Waiting) (t : Nat) : KettleAs b (noteWait s w t) := by
  unfold Machine.noteWait
  split
  · exact h
  · exact (h.setF (by grind) _).bump (by decide) 1

theorem refire (h : KettleAs b s) (i : Option Nat) (t : Nat) : KettleAs b (refire s i t) := by
  cases i with
  | none => exact h
  | some i => exact h.put_drv rfl rfl

theorem pulseAt (h : KettleAs b s) (c t : Nat) : KettleAs b (pulseAt s c t) := ((h.pinEdge _ _ _ _ _ _).modDrvCh _ _).startPeak _ _

theorem grantNext (h : KettleAs b s) (n g t : Nat) : KettleAs b (grantNext n s g t) := by
  induction n generalizing s with
  | zero => exact h
  | succ n ih =>
    unfold Machine.grantNext
    split
    · exact h
    · extract_lets u
      have hu : KettleAs b u := h.modDrvGrp _ _
      split
      · exact ((hu.noteWait _ _).refire _ _).openAt _ _ _
      · split
        · exact ih (((hu.bump (by decide) 1).modDrvCh _ _).setDrvState _ _)
        · exact (hu.noteWait _ _).pulseAt _ _

theorem endPeak (h : KettleAs b s) (g stop next : Nat) : KettleAs b (endPeak s g stop next) := by
  unfold Machine.endPeak
  split
  · exact h
  · exact (h.modDrvGrp _ _).grantNext _ _ _

theorem releaseAt (h : KettleAs b s) (c t next : Nat) (sense : Bool) : KettleAs b (releaseAt s c t next sense) := by
  unfold Machine.releaseAt
  extract_lets u v
  have hv : KettleAs b v := (h.modDrvCh _ _).setDrvState _ _
  split
  · split
    · exact hv.endPeak _ _ _
    · exact hv
  · exact hv

theorem shutChannel (h : KettleAs b s) (t c : Nat) : KettleAs b (shutChannel s t c) := by
  unfold Machine.shutChannel
  extract_lets u v w
  have hu : KettleAs b u := by
    dsimp only [u]
    split
    · refine ((KettleAs.modDrvGrp ?_ _ _).setDrvState _ _).storeResult _ _ _ _
      split
      · exact h.blockSlot _
      · exact h
    · exact h
  split
  · refine ((KettleAs.storeResult ?_ _ _ _ _).addSwing _ _).releaseAt _ _ _ _
    split
    · exact hu.cutWindow _ _
    · exact hu
  · exact (hu.modDrvCh _ _).setDrvState _ _

theorem offChannel (h : KettleAs b s) (k t c : Nat) : KettleAs b (offChannel s k t c) := (h.put_drv rfl rfl : KettleAs b (setProt s c k)).shutChannel t c

theorem classOff (h : KettleAs b s) (p t : Nat) : KettleAs b (classOff s p t) :=
  List.foldlRecOn (motive := KettleAs b) _ _ h fun _ hu c _ => ((hu.setB (by grind) true).offChannel 4 t c).bump (by decide) 1

theorem adjustLimits (h : KettleAs b s) (pf n t : Nat) : KettleAs b (adjustLimits s pf n t) := by
  unfold Machine.adjustLimits
  split
  · split
    · extract_lets m u
      have hu : KettleAs b u := h.setF (by grind) _
      split
      · exact hu.classOff _ _
      · exact hu
    · exact h
  · split
    · split
      · exact h.setF (by grind) _
      · exact h
    · exact h

theorem record (h : KettleAs b s) (code inst : Nat) (val : List Byte) : KettleAs b (record s code inst val) :=
  h.of_regsBut (regsBut_record s code inst val) (by decide) ((keeps_record s code inst val).same .drv (by decide))

theorem rephase (h : KettleAs b s) (c φ : Nat) : KettleAs b (rephase s c φ) := by
  unfold Machine.rephase
  split
  · exact h
  · dsimp only
    split
    · exact (h.modDrvCh _ _).modDrvCh _ _
    · exact h.modDrvCh _ _

theorem showStagger (h : KettleAs b s) : KettleAs b (showStagger s) :=
  List.foldlRecOn (motive := KettleAs b) _ _ h fun _ hu g _ => hu.setB (by grind) _

theorem applyStagger (h : KettleAs b s) : KettleAs b (applyStagger s) :=
  List.foldlRecOn (motive := KettleAs b) _ _ h.showStagger fun u hu c _ => by
    split
    · exact hu.rephase _ _
    · exact hu

theorem showClasses (h : KettleAs b s) : KettleAs b (showClasses s) :=
  List.foldlRecOn (motive := KettleAs b) _ _ (List.foldlRecOn (motive := KettleAs b) _ _ h fun _ hu p _ => hu.setF (by grind) _)
    fun _ hu c _ => hu.setB (by grind) _

end KettleAs

/-- The Kettle takes its budget and its stages at the evaluation, before any output switches. -/
theorem kettleEval_spec (s : State) (t : Nat) :
    getF (kettleEval s t) DRV_KET_EFF_EFFB = min 255 ((budget s + 50) / 100) ∧
    (kettleEval s t).drv.stag = (if s.drv.stag then decide (60 * (budget s * 1000) ≤ 100 * s.drv.pf)
      else flag s DRV_KET_CFG_STAG_EN && decide (75 * (budget s * 1000) ≤ 100 * s.drv.pf)) ∧
    (s.drv.lim = false → flag s DRV_KET_CFG_LIM_EN = true → budget s * 1000 ≤ s.drv.pf → (kettleEval s t).drv.lim = true) ∧
    (kettleEval s t).drv.pf = s.drv.pf := by
  unfold kettleEval
  extract_lets s₁ n pf stag src s₂ lim s₃ full lim' none_ isOver s₄ src' s₅
  have hcfg : rd s₁ DRV_KET_CFG = rd s DRV_KET_CFG := by
    dsimp only [s₁]
    rw [rd_setF_ne _ _ _ _ (by decide), rd_setF_ne _ _ _ _ (by decide)]
  have hbudget : budget s₁ = budget s := by
    dsimp only [s₁, budget]
    rw [getF_congr hcfg, getF_setF_apart (by decide), getF_setF_apart (by decide)]
  have hdrv : s₁.drv = s.drv := rfl
  have h₂ : KettleAs { s₁ with drv := { s₁.drv with stag := stag } } s₂ := (KettleAs.refl _).applyStagger
  have h₃ : KettleAs { s₁ with drv := { s₁.drv with stag := stag } } s₃ := by
    dsimp only [s₃]
    split
    · exact h₂.adjustLimits _ _ _
    · exact h₂
  have h₄ : KettleAs { s₁ with drv := { s₁.drv with stag := stag } } s₄ := by
    dsimp only [s₄]
    split
    · exact h₃.record _ _ _
    · exact h₃
  have h₅ : KettleAs s₅ (showClasses (setF s₅ DRV_STAT_KSTAGE (if isOver then 3 else if lim' then 2 else if stag then 1 else 0))) :=
    ((KettleAs.refl s₅).setF (by decide) _).showClasses
  refine ⟨?_, ?_, fun hlim hen hover => ?_, ?_⟩
  · have heff : rd s₅ DRV_KET_EFF = rd s₁ DRV_KET_EFF := h₄.words _ (by decide) (by decide)
    rw [getF_congr (h₅.words _ (by decide) (by decide)), getF_congr heff]
    dsimp only [s₁]
    rw [getF_setF _ _ _ (by decide)]
    exact Nat.mod_eq_of_lt (Nat.lt_succ_of_le (Nat.min_le_left _ _))
  · rw [h₅.stag]
    change s₄.drv.stag = _
    rw [h₄.stag]
    have hflag : flag s₁ DRV_KET_CFG_STAG_EN = flag s DRV_KET_CFG_STAG_EN := flag_congr hcfg
    simp only [stag, n, pf, hbudget, hflag, hdrv]
  · have hlim₂ : s₂.drv.lim = false := h₂.lim.trans hlim
    have hcfg₂ : rd s₂ DRV_KET_CFG = rd s DRV_KET_CFG := (h₂.words DRV_KET_CFG (by decide) (by decide)).trans hcfg
    have hen₂ : flag s₂ DRV_KET_CFG_LIM_EN = true := (flag_congr hcfg₂).trans hen
    have hover' : n ≤ pf := by
      simpa only [n, pf, hbudget, hdrv] using hover
    rw [h₅.lim]
    change lim' = true
    simp [lim', lim, hlim₂, hen₂, hover', Nat.not_lt.mpr hover']
  · rw [h₅.pf]
    exact h₄.pf

/-- Settles O16, command by command: with no other peak about, an edge, a pulse or a window acts on its own channel alone. -/
theorem driverEdgesPulsesAndKettle : Obligations.DriverEdgesPulsesAndKettle := by
  refine ⟨fun s c e hc he => ⟨fun hk hconf hprot hidle hmode hp hq honly => ?_, fun hk hw hprot hopen hp => ?_, fun hk hgain hmode => ?_⟩,
    ⟨fun s g c a b hg hc hp hq hpair => ?_, fun s c r hc hopen hon hr hf hp hw hno hst => ?_, fun s c f hc hopen hon hf hr hp => ?_,
      fun s c hc hs hst hpair => ?_, fun s c w hc hw => ⟨fun t₁ t₀ l hd hin hl hseen => ?_, fun t₀ l hl hend hfind => ?_⟩,
      fun s c t₀ l w f hc hl hw hf hk hd => ?_⟩,
    kettleTick_answers, fun s t₀ => ⟨_, rfl, kettleEval_spec s t₀⟩, fun s g t₀ l hg hl => ?_⟩
  · exact answers_of_answer rfl (by simpa using hc) (fireEdge_opening he hk hconf hprot hidle hmode hp hq honly)
  · exact answers_of_answer rfl (by simpa using hc) (fireEdge_closing he hk hw hprot hopen hp)
  · exact answers_of_answer rfl (by simpa using hc) (fireEdge_rate he hk hgain hmode)
  · exact answers_of_answer rfl (by simpa using hg) (peakExpires_idle hc hp hq hpair)
  · refine answers_of_answer rfl (by simpa using hc) ?_
    rw [if_pos hopen, gridRiseEdge_on hon hr hf hp hw hno hst, drvCh_modDrvCh, drvCh_modDrvCh]
    exact ⟨rfl, rfl, hopen, regsBut_of_regs rfl _, partsBut_of_keeps (modDrvCh_keeps _ _ _ (fun _ hp => hp) (modDrvCh_keeps _ _ _ (fun _ hp => hp) (.refl _ s)))⟩
  · refine answers_of_answer rfl (by simpa using hc) ?_
    rw [if_pos hopen]
    exact pulseFall_ends hopen hon hf hr hp
  · exact answers_of_answer rfl (by simpa using hc) (endSensed_release hc hs hst hpair)
  · refine answers_of_answer rfl (by simpa [samplesOk, hc] using hl) ⟨fun hearly => ?_, fun hlate => ?_⟩
    · rw [peakReached_early hw hd hin hseen, if_pos hearly]
      exact ⟨winAt_setWin s c _, rfl, partsBut_of_keeps (setWin_keeps _ _ _ (fun _ hp => hp) (.refl _ s))⟩
    · rw [peakReached_early hw hd hin hseen, if_neg (Nat.not_lt.mpr hlate)]
      obtain ⟨hnone, hlast⟩ := closeWindow_spec hw 4
      refine ⟨hnone, hd ▸ hlast, ?_⟩
      rw [getF_closeWindow (f := ACT_CNT_MASK_CNT) hw rfl (by decide), getF_bump _ _ _ (by decide)]
      rfl
  · exact answers_of_answer rfl (by simpa [samplesOk, hc] using hl) (windowEnds_spec hw hend hfind)
  · exact answers_of_answer rfl (by simpa [samplesOk, hc] using hl) (motionReport_spec hw hf hk hd)
  · refine answers_of_reach rfl (by simpa [hg] using hl) fun hparts => ⟨foldl_loopPeriod_regs s t₀ l, hparts, fun c _ hout => ?_⟩
    exact drvCh_foldl_loopPeriod hl hout

end Sys2Proof.DriverEdges

namespace Sys2Proof.Mailbox

open Sys2Proof Sys2Proof.Machine Sys2Proof.Frame Sys2Proof.Recorder

/-! ### What a command that has run leaves of the state (R390, R391) -/

section Completed

variable {s u : State} {h code : Nat} {l : List Part} {body : List Byte}

theorem keeps_begun_ok (s : State) (h : Nat) : Keeps (· ∈ [.sys, .hif]) s (begun s h) :=
  Keeps.put_sys (by decide) (modSlot_keeps s h _ (allows_of_subset (by decide)) (.refl _ s))

theorem otherSlots_of_hif (hhif : u.hif = (begun s h).hif) : otherSlots s u h := fun g hg => by
  rw [slotOf, hhif]
  exact otherSlots_begun s h g hg

theorem otherSlots_completed {o : CmdOut} (hq : o.silent = false) (hu : otherSlots s o.r.s h) : otherSlots s (completed s h o) h :=
  fun g hg => (otherSlots_respond h hq _ g hg).trans (hu g hg)

/-- The parts that a response cannot touch stand as the command left them. -/
theorem samePart_completed (o : CmdOut) {p : Part} (hp : p ∉ [Part.regs, .sys, .hif]) : samePart o.r.s (completed s h o) p :=
  (keeps_completed s h o).same p hp

theorem samePart_completed_ok {o : CmdOut} (hok : o.r.status = stOk) (hq : o.silent = false) {p : Part} (hp : p ∉ [Part.sys, .hif]) :
    samePart o.r.s (completed s h o) p := by
  by_cases hr : p = .regs
  · subst hr
    exact regs_completed_ok hok hq
  · exact samePart_completed o (by simpa [hr] using hp)

theorem samePart_trans {s t u : State} {p : Part} (h : samePart s t p) (k : samePart t u p) : samePart s u p := by
  cases p <;> exact k.trans h

theorem pending_completed (o : CmdOut) : (completed s h o).pending = o.r.s.pending := (keeps_completed s h o).pending

/-- Beside what the command itself may move, an OK moves the slot alone. -/
theorem partsBut_completed_ok {o : CmdOut} (hok : o.r.status = stOk) (hq : o.silent = false) (hu : Keeps (· ∈ l) (begun s h) o.r.s) :
    partsBut s (completed s h o) (l ++ [.sys, .hif]) := by
  refine ⟨fun p hp => ?_, ?_⟩
  · obtain ⟨hl, hp⟩ : p ∉ l ∧ p ∉ [Part.sys, .hif] := by simpa using hp
    exact samePart_trans (samePart_trans ((keeps_begun_ok s h).same p hp) (hu.same p hl)) (samePart_completed_ok hok hq hp)
  · rw [pending_completed, hu.pending, (keeps_begun_ok s h).pending]

/-- A refusal that has an effect also counts (R411). -/
theorem partsBut_completed (o : CmdOut) (hu : Keeps (· ∈ l) (begun s h) o.r.s) :
    partsBut s (completed s h o) (l ++ [.regs, .sys, .hif]) := by
  refine ⟨fun p hp => ?_, ?_⟩
  · obtain ⟨hl, hp⟩ : p ∉ l ∧ p ∉ [Part.regs, .sys, .hif] := by simpa using hp
    exact samePart_trans (samePart_trans ((keeps_begun s h).same p hp) (hu.same p hl)) (samePart_completed o hp)
  · rw [pending_completed, hu.pending, (keeps_begun_ok s h).pending]

/-- The payload of an OK is read back from the response. -/
theorem bodyOf_of_responded {t : State} (ht : responded s t h stOk body) : bodyOf s t h = body := by
  obtain ⟨hnow, hlater, -⟩ := ht
  unfold bodyOf
  cases hw : answerWait s h (front s h) none stOk with
  | none => simp [hnow hw]
  | some w => simp [hlater w hw, keptResponse]

end Completed

/-! ### Rows of commands that start -/

section Rows

variable {s u : State} {h code : Nat} {l : List Part} {body : List Byte} {i : Instr} {P : State → Prop} {run : State → List Byte → CmdOut}

/-- A frame of a narrower kind is found like one of its code. -/
theorem runCmd_of_kind (hs : starts s h code) {kind : Frame → Bool} (hk : kind (front s h) = true) (run : State → List Byte → CmdOut) :
    runCmd s h kind run = completed s h (run (begun s h) (req s h)) := by
  have hnext : nextFrame s h kind = some (front s h, (slotOf s h).ring.tail) := by
    obtain ⟨-, -, hring, -, hmay, hfirst, -⟩ := hs
    unfold front at *
    unfold nextFrame
    cases hr : (slotOf s h).ring with
    | nil => exact absurd hr hring
    | cons f l =>
      simp only [hr, List.headD_cons] at hk hmay hfirst
      simp [pickFrom, ownTurn, hk, hmay, hfirst]
  have hpre : precheck (modSlot s h fun x => { x with ring := (slotOf s h).ring.tail }) h (front s h) = stOk := precheck_of_starts hs
  unfold runCmd
  rw [hnext]
  simp only [hpre, if_true, ← begun_eq]
  rw [answerWait_congr (slotOf_begun_deferred s h) rfl]
  rfl

/-- What such a row answers is what its command, run on the state in which it began, leaves. -/
theorem answers_of_kind {o : CmdOut} {kind : Frame → Bool} (hs : starts s h code) (hk : kind (front s h) = true)
    (hexec : exec i s = row h (runCmd s h kind run)) (hrun : run (begun s h) (req s h) = o) (hP : P (completed s h o)) : answers i s P :=
  ⟨_, by rw [hexec, row_of_starts hs, runCmd_of_kind hs hk, hrun], hP⟩

theorem isCode_front (hs : starts s h code) : isCode code (front s h) = true := decide_eq_true hs.2.2.2.1

/-- A command that answers OK at once or in its turn, having made `u` of the state in which it began. -/
theorem answers_ok_of_kind {kind : Frame → Bool} (hs : starts s h code) (hk : kind (front s h) = true)
    (hexec : exec i s = row h (runCmd s h kind run)) (hrun : run (begun s h) (req s h) = plain (okBody u body))
    (hu : Keeps (· ∈ l) (begun s h) u) (hhif : .hif ∉ l) (hnow : .now ∉ l)
    (hP : ∀ t, (∀ p, p ∉ [Part.sys, .hif] → samePart u t p) → answered s t h body → otherSlots s t h → partsBut s t (l ++ [.sys, .hif]) → P t) :
    answers i s P :=
  answers_of_kind hs hk hexec hrun (hP _ (fun _ hp => samePart_completed_ok rfl rfl hp)
    (answered_completed body (hu.same .hif hhif) (hu.same .now hnow))
    (otherSlots_completed rfl (otherSlots_of_hif (hu.same .hif hhif))) (partsBut_completed_ok rfl rfl hu))

theorem answers_ok (hs : starts s h code) (hexec : exec i s = row h (runCmd s h (isCode code) run))
    (hrun : run (begun s h) (req s h) = plain (okBody u body)) (hu : Keeps (· ∈ l) (begun s h) u) (hhif : .hif ∉ l) (hnow : .now ∉ l)
    (hP : ∀ t, (∀ p, p ∉ [Part.sys, .hif] → samePart u t p) → answered s t h body → otherSlots s t h → partsBut s t (l ++ [.sys, .hif]) → P t) :
    answers i s P :=
  answers_ok_of_kind hs (isCode_front hs) hexec hrun hu hhif hnow hP

/-- A command that only answers OK. -/
theorem answers_ok_only (hs : starts s h code) (hexec : exec i s = row h (runCmd s h (isCode code) run))
    (hrun : run (begun s h) (req s h) = plain (okBody (begun s h) body)) :
    answers i s fun t => answered s t h body ∧ t.regs = s.regs ∧ otherSlots s t h ∧ partsBut s t [.sys, .hif] :=
  answers_ok (l := []) hs hexec hrun (.refl _ _) (by decide) (by decide) fun _ hsame hans hslots hparts =>
    ⟨hans, hsame .regs (by decide), hslots, hparts⟩

/-- A command that is refused, having made `u` of the state in which it began. -/
theorem answers_refused_of_kind {kind : Frame → Bool} {st : Nat} (hs : starts s h code) (hk : kind (front s h) = true)
    (hexec : exec i s = row h (runCmd s h kind run))
    (hrun : run (begun s h) (req s h) = plain { s := u, status := st, body := body })
    (hu : Keeps (· ∈ l) (begun s h) u) (hhif : .hif ∉ l) (hnow : .now ∉ l)
    (hP : ∀ t, (∀ p, p ∉ [Part.regs, .sys, .hif] → samePart u t p) → regsBut u t [HIF_H_CNT_REJ h] → responded s t h st body → otherSlots s t h →
      partsBut s t (l ++ [.regs, .sys, .hif]) → P t) :
    answers i s P :=
  answers_of_kind hs hk hexec hrun (hP _ (fun _ hp => samePart_completed (plain _) hp) (regsBut_completed s h rfl)
    (completed_responded s h rfl rfl (hu.same .now hnow))
    (otherSlots_completed rfl (otherSlots_of_hif (hu.same .hif hhif))) (partsBut_completed _ hu))

theorem answers_refused {st : Nat} (hs : starts s h code) (hexec : exec i s = row h (runCmd s h (isCode code) run))
    (hrun : run (begun s h) (req s h) = plain { s := u, status := st, body := body })
    (hu : Keeps (· ∈ l) (begun s h) u) (hhif : .hif ∉ l) (hnow : .now ∉ l)
    (hP : ∀ t, (∀ p, p ∉ [Part.regs, .sys, .hif] → samePart u t p) → regsBut u t [HIF_H_CNT_REJ h] → responded s t h st body → otherSlots s t h →
      partsBut s t (l ++ [.regs, .sys, .hif]) → P t) :
    answers i s P :=
  answers_refused_of_kind hs (isCode_front hs) hexec hrun hu hhif hnow hP

/-- A response that waits for an event of its command is kept, and nothing is posted. -/
theorem accepted_completed {w : Nat} (hhif : u.hif = (begun s h).hif) :
    accepted s (completed s h { r := okBody u body, wait := some w, silent := false }) h w body := by
  have hslot : slotOf (completed s h { r := okBody u body, wait := some w, silent := false }) h =
      { slotOf (begun s h) h with deferred := (slotOf (begun s h) h).deferred ++ [keptResponse s h w stOk body] } := by
    change slotOf (respond u h (front s h) _ (answerWait s h (front s h) (some w) stOk)) h = _
    have hw : answerWait s h (front s h) (some w) stOk = some w := by simp [answerWait]
    rw [hw]
    simp only [respond, okBody, Bool.false_eq_true, and_false, if_false, slotOf_modSlot]
    rw [slotOf, hhif]
    rfl
  have hbegun : slotOf (begun s h) h = { slotOf s h with ring := (slotOf s h).ring.tail } := slotOf_modSlot s h _
  rw [accepted, hslot, hbegun]
  exact ⟨rfl, rfl, rfl⟩

/-- A command that is accepted, and whose response waits for an event. -/
theorem answers_accepted_of_kind {kind : Frame → Bool} {w : Nat} (hs : starts s h code) (hk : kind (front s h) = true)
    (hexec : exec i s = row h (runCmd s h kind run)) (hrun : run (begun s h) (req s h) = { r := okBody u body, wait := some w, silent := false })
    (hu : Keeps (· ∈ l) (begun s h) u) (hhif : .hif ∉ l)
    (hP : ∀ t, (∀ p, p ∉ [Part.sys, .hif] → samePart u t p) → accepted s t h w body → otherSlots s t h → partsBut s t (l ++ [.sys, .hif]) → P t) :
    answers i s P :=
  answers_of_kind hs hk hexec hrun (hP _ (fun _ hp => samePart_completed_ok rfl rfl hp) (accepted_completed (hu.same .hif hhif))
    (otherSlots_completed rfl (otherSlots_of_hif (hu.same .hif hhif))) (partsBut_completed_ok rfl rfl hu))

theorem answers_accepted {w : Nat} (hs : starts s h code) (hexec : exec i s = row h (runCmd s h (isCode code) run))
    (hrun : run (begun s h) (req s h) = { r := okBody u body, wait := some w, silent := false })
    (hu : Keeps (· ∈ l) (begun s h) u) (hhif : .hif ∉ l)
    (hP : ∀ t, (∀ p, p ∉ [Part.sys, .hif] → samePart u t p) → accepted s t h w body → otherSlots s t h → partsBut s t (l ++ [.sys, .hif]) → P t) :
    answers i s P :=
  answers_accepted_of_kind hs (isCode_front hs) hexec hrun hu hhif hP

end Rows

end Sys2Proof.Mailbox

namespace Sys2Proof.Recorder

open Sys2Proof Sys2Proof.Machine Sys2Proof.Mailbox Sys2Proof.Frame

/-! ### The recorder's commands (R417 to R422) -/

section Commands

variable {s : State} {h : Nat}

theorem recRead_answers (hs : starts s h 0x30) (hrole : roleOf s h ≠ 1) (hfirst : leAt (req s h) 0 2 < 16384) (hserv : inService s = true) :
    answers (.recRead h) s fun t =>
      answered s t h (recReadBody s (leAt (req s h) 0 2) (leAt (req s h) 2 2)) ∧ t.regs = s.regs ∧ otherSlots s t h ∧ partsBut s t [.sys, .hif] := by
  refine answers_ok_only hs rfl ?_
  have hrole' : roleOf (begun s h) h ≠ 1 := hrole
  have hserv' : inService (begun s h) = true := hserv
  have hfirst' : ¬ 16383 < leAt (req s h) 0 2 := by omega
  simp only [hrole', hserv', hfirst', if_false, Bool.not_true, Bool.false_eq_true]
  rfl

theorem sameButQueue_log {r r' : RecState} (h : SameButQueue r r') : r'.log = r.log := by
  obtain ⟨_, _, _, rfl⟩ := h
  rfl

theorem sameButQueue_fails {r r' : RecState} (h : SameButQueue r r') : r'.fails = r.fails := by
  obtain ⟨_, _, _, rfl⟩ := h
  rfl

theorem sameButQueue_key {r r' : RecState} (h : SameButQueue r r') : r'.key = r.key := by
  obtain ⟨_, _, _, rfl⟩ := h
  rfl

section Freeze
variable (hs : starts s h 0x31) (hrole : ownerOrService s h = true) (hresv : leAt (req s h) 1 3 = 0) (hserv : inService s = true)
include hs hrole hresv hserv

theorem recFreeze_by_free_slot (hop : leAt (req s h) 0 1 = 1) (hnone : s.recd.freeze = none) : answers (.recFreeze h) s fun t =>
    t.recd.freeze = some h ∧ t.recd.log = s.recd.log ∧ answered s t h ([1#8, 0#8] ++ leBytes 2 s.recd.next) ∧ t.regs = s.regs ∧
      otherSlots s t h ∧ partsBut s t [.recd, .sys, .hif] := by
  have hrun := congrArg plain (freezeCmd_freeze (s := begun s h) hrole hresv hserv hop hnone)
  refine answers_ok (run := fun s p => plain (freezeCmd s h p)) (l := [.recd]) hs rfl hrun
    (Keeps.put_recd (by decide) (.refl _ _)) (by decide) (by decide) fun t hsame hans hslots hparts => ?_
  have hrecd : t.recd = (freezeLog (begun s h) h).recd := hsame .recd (by decide)
  exact ⟨by rw [hrecd]; rfl, by rw [hrecd]; rfl, hans, hsame .regs (by decide), hslots, hparts⟩

theorem recFreeze_by_holder (hop : leAt (req s h) 0 1 = 0) (hholds : s.recd.freeze = some h) : answers (.recFreeze h) s fun t =>
    t.recd.freeze = none ∧ t.recd.log = s.recd.log ∧ answered s t h ([0#8, 0#8] ++ leBytes 2 s.recd.next) ∧ regsBut s t tally ∧
      otherSlots s t h ∧ partsBut s t [.regs, .recd, .sys, .hif] := by
  have hrel : releaseFreeze (begun s h) h = endFreeze (begun s h) := if_pos hholds
  have hended := sameButQueue_endFreeze (begun s h)
  have hbody := freezeBody_eq s.recd.next hended.freeze_eq hended.next_eq
  have hrun := congrArg plain (freezeCmd_release (s := begun s h) hrole hresv hserv hop)
  rw [hrel, hbody] at hrun
  have hkeeps := endFreeze_keeps (R := (· ∈ [.regs, .recd])) (begun s h) (fun _ hp => hp) (.refl _ _)
  refine answers_ok (run := fun s p => plain (freezeCmd s h p)) hs rfl hrun hkeeps (by decide) (by decide)
    fun t hsame hans hslots hparts => ?_
  have hrecd : t.recd = (endFreeze (begun s h)).recd := hsame .recd (by decide)
  have hregs : regsBut (begun s h) (endFreeze (begun s h)) lossCounters := by
    unfold endFreeze
    split_ifs
    · exact regsBut_before (regsBut_recTake _) rfl
    · exact regsBut_refl _ _
  refine ⟨by rw [hrecd]; exact hended.freeze_eq, by rw [hrecd]; exact (sameButQueue_log hended).trans rfl, hans, ?_, hslots, hparts⟩
  exact regsBut_mono (regsBut_put (regsBut_before hregs rfl) (hsame .regs (by decide))) lossCounters_subset_tally

end Freeze

theorem length_nextNonce (s : State) : (nextNonce s).length = 16 := by simp [nextNonce]

theorem length_leBytes (n v : Nat) : (leBytes n v).length = n := by
  induction n generalizing v with
  | zero => rfl
  | succ n ih => simp [leBytes, ih]

section Service
variable (hrole : ownerOrService s h = true) (hserv : inService s = true)
include hrole hserv

theorem recChallenge_answers (hs : starts s h 0x32) (hkey : s.recd.key.isSome = true) (hlock : s.recd.lock = false) :
    answers (.recChallenge h) s fun t => answered s t h (bodyOf s t h) ∧ (bodyOf s t h).length = 18 ∧ t.recd.nonce = some (h, (bodyOf s t h).take 16) ∧
      (bodyOf s t h).drop 16 = leBytes 2 s.recd.next ∧ t.recd = { s.recd with nonce := t.recd.nonce, nonceAt := absTick s (nowTick s) } ∧
      t.free = s.free + 1 ∧ t.regs = s.regs ∧ otherSlots s t h ∧ partsBut s t [.recd, .free, .sys, .hif] := by
  have hrun := congrArg plain (challengeCmd_gives (s := begun s h) hrole hserv hkey hlock)
  have hkeeps : Keeps (· ∈ [.recd, .free]) (begun s h) (challenged (begun s h) h) :=
    Keeps.put_recd (by decide) (fresh_keeps _ (allows_of_subset (by decide)) (.refl _ _))
  refine answers_ok (run := fun s _ => plain (challengeCmd s h)) hs rfl hrun hkeeps (by decide) (by decide) fun t hsame hans hslots hparts => ?_
  have hrecd : t.recd = { s.recd with nonce := some (h, nextNonce s), nonceAt := absTick s (nowTick s) } := hsame .recd (by decide)
  have hbody : bodyOf s t h = nextNonce s ++ leBytes 2 s.recd.next := bodyOf_of_responded hans.1
  rw [hbody, hrecd]
  refine ⟨hans, ?_, ?_, ?_, rfl, hsame .free (by decide), hsame .regs (by decide), hslots, hparts⟩
  · rw [List.length_append, length_nextNonce, length_leBytes]
  · rw [List.take_left' (length_nextNonce s)]
  · rw [List.drop_left' (length_nextNonce s)]

theorem recClear_accepted (hs : starts s h 0x33) (hmac : macOk s h [] (req s h) = true) : answers (.recClear h) s fun t =>
    accepted s t h 2 [] ∧ t.recd.clearing.isSome = true ∧ t.recd.nonce = none ∧ t.recd.fails = 0 ∧ t.recd.log = s.recd.log ∧
      t.regs = s.regs ∧ otherSlots s t h ∧ partsBut s t [.recd, .sys, .hif] := by
  have hrun : clearCmd (begun s h) h (req s h) = { r := okBody (startClearLog (begun s h) h) [], wait := some 2, silent := false } := by
    have hrole' : ownerOrService (begun s h) h = true := hrole
    have hserv' : inService (begun s h) = true := hserv
    have hmac' : macOk (begun s h) h [] (req s h) = true := hmac
    simp only [clearCmd, hrole', hserv', hmac', Bool.not_true, Bool.false_eq_true, if_false, if_true]
  refine answers_accepted (run := fun s p => clearCmd s h p) (l := [.recd]) hs rfl hrun (Keeps.put_recd (by decide) (.refl _ _)) (by decide)
    fun t hsame hacc hslots hparts => ?_
  have hrecd : t.recd = (startClearLog (begun s h) h).recd := hsame .recd (by decide)
  rw [hrecd]
  exact ⟨hacc, rfl, rfl, rfl, rfl, hsame .regs (by decide), hslots, hparts⟩

end Service

/-- A failed check counts, and every third one locks (R422). -/
theorem authFail_spec (s : State) (h : Nat) :
    (authFail s h).recd.nonce = none ∧ (authFail s h).recd.fails = s.recd.fails + 1 ∧ (authFail s h).recd.log = s.recd.log ∧
      (authFail s h).recd.key = s.recd.key ∧
      ((s.recd.fails + 1) % 3 = 0 → (authFail s h).recd.lock = true ∧ (authFail s h).recd.lockAt = absTick s (nowTick s)) ∧
      regsBut s (authFail s h) (REC_CNT_AUTHFAIL :: lossCounters) := by
  unfold authFail
  extract_lets n t u
  have hq : SameButQueue t.recd u.recd := sameButQueue_record t _ _ _
  have hlog : u.recd.log = s.recd.log := (sameButQueue_log hq).trans rfl
  have hkey : u.recd.key = s.recd.key := (sameButQueue_key hq).trans rfl
  have hfails : u.recd.fails = s.recd.fails + 1 := (sameButQueue_fails hq).trans rfl
  have hcount : regsBut s t (REC_CNT_AUTHFAIL :: lossCounters) := regsBut_setF (regsBut_of_regs rfl _) (by decide) _
  have hregs : regsBut s u (REC_CNT_AUTHFAIL :: lossCounters) :=
    regsBut_trans hcount (regsBut_mono (regsBut_record _ _ _ _) (List.subset_cons_self _ _))
  have hrec := keeps_record t 0x0005 h (leBytes 1 (min 255 n))
  have hat : absTick u (nowTick u) = absTick s (nowTick s) := by
    rw [absTick, nowTick, show u.tim = s.tim from hrec.same .tim (by decide), show u.now = s.now from hrec.same .now (by decide)]
    rfl
  split_ifs with hthird
  · exact ⟨hq.nonce_eq, hfails, hlog, hkey, fun _ => ⟨rfl, hat⟩, regsBut_put hregs rfl⟩
  · exact ⟨hq.nonce_eq, hfails, hlog, hkey, fun h3 => absurd h3 hthird, hregs⟩

theorem recClear_fails (hrole : ownerOrService s h = true) (hserv : inService s = true) (hs : starts s h 0x33)
    (hmac : macOk s h [] (req s h) = false) : answers (.recClear h) s fun t =>
      responded s t h stAuth [] ∧ t.recd.nonce = none ∧ t.recd.fails = s.recd.fails + 1 ∧
      t.recd.log = s.recd.log ∧ ((s.recd.fails + 1) % 3 = 0 → t.recd.lock = true ∧ t.recd.lockAt = absTick s (nowTick s)) ∧
      regsBut s t (REC_CNT_AUTHFAIL :: HIF_H_CNT_REJ h :: tally) ∧ otherSlots s t h ∧ partsBut s t [.regs, .recd, .sys, .hif] := by
  have hrun : clearCmd (begun s h) h (req s h) = plain (refuse (authFail (begun s h) h) stAuth) := by
    have hrole' : ownerOrService (begun s h) h = true := hrole
    have hserv' : inService (begun s h) = true := hserv
    have hmac' : macOk (begun s h) h [] (req s h) = false := hmac
    simp only [clearCmd, hrole', hserv', hmac', Bool.not_true, Bool.false_eq_true, if_false]
  obtain ⟨hnonce, hfails, hlog, -, hlock, hregs⟩ := authFail_spec (begun s h) h
  have hkeeps : Keeps (· ∈ [.regs, .recd]) (begun s h) (authFail (begun s h) h) := authFail_keeps _ h (fun _ hp => hp) (.refl _ _)
  refine answers_refused (run := fun s p => clearCmd s h p) hs rfl hrun hkeeps (by decide) (by decide)
    fun t hsame hrej hresp hslots hparts => ?_
  have hrecd : t.recd = (authFail (begun s h) h).recd := hsame .recd (by decide)
  rw [hrecd]
  refine ⟨hresp, hnonce, hfails, hlog, hlock, ?_, hslots, partsBut_mono hparts (by decide)⟩
  exact regsBut_trans (regsBut_before (regsBut_mono hregs (by simp [lossCounters, tally])) rfl) (regsBut_mono hrej (by simp))

end Commands

/-- Settles O53: each command runs on the state in which it began, and its response and the recorder are read off what it made of it. -/
theorem recorderCommands : Obligations.RecorderCommands := by
  unfold Obligations.RecorderCommands
  exact ⟨fun s h hs hrole hfirst hserv => recRead_answers hs hrole hfirst hserv,
    fun s h hs hrole hresv hserv => ⟨recFreeze_by_free_slot hs hrole hresv hserv, recFreeze_by_holder hs hrole hresv hserv⟩,
    fun s h hs hrole hserv hkey hlock => recChallenge_answers hrole hserv hs hkey hlock,
    fun s h hs hrole hserv => ⟨recClear_accepted hrole hserv hs, recClear_fails hrole hserv hs⟩⟩

end Sys2Proof.Recorder

namespace Sys2Proof.Mailbox

open Sys2Proof Sys2Proof.Machine Sys2Proof.Frame

/-! ### The responses that an event brings (R391) -/

section Kept

variable {s : State} {h : Nat}

/-- What is due leaves a list of kept responses that were kept before. -/
theorem findDue_subset {ahead l r : List Deferred} {d : Deferred} (hf : findDue ahead l = some (d, r)) : ∀ x ∈ r, x ∈ ahead ++ l := by
  induction l generalizing ahead with
  | nil => simp [findDue] at hf
  | cons e l ih =>
    rw [findDue] at hf
    split at hf
    · obtain ⟨rfl, rfl⟩ : e = d ∧ ahead.reverse ++ l = r := by simpa using hf
      intro x hx
      rcases List.mem_append.1 hx with hx | hx
      · simp [List.mem_reverse.1 hx]
      · simp [hx]
    · intro x hx
      have hmem := ih hf x hx
      simp only [List.mem_append, List.mem_cons] at hmem ⊢
      tauto

/-- No response of the slot is kept that was not kept before, and its ring of requests stands. -/
def KeepsFewer (s t : State) (h : Nat) : Prop :=
  (slotOf t h).ring = (slotOf s h).ring ∧ ∀ d ∈ (slotOf t h).deferred, d ∈ (slotOf s h).deferred

theorem KeepsFewer.trans {t u : State} (a : KeepsFewer s t h) (b : KeepsFewer t u h) : KeepsFewer s u h :=
  ⟨b.1.trans a.1, fun d hd => a.2 d (b.2 d hd)⟩

theorem makeRoom_deferred (n need : Nat) (x : HostSlot) : (makeRoom n need x).deferred = x.deferred := by
  induction n generalizing x with
  | zero => rfl
  | succ n ih =>
    rw [makeRoom]
    split
    · rfl
    · exact (ih _).trans (by rw [dropOldest]; split <;> rfl)

theorem deferred_roomFor (s : State) (h need : Nat) : (slotOf (roomFor s h need) h).deferred = (slotOf s h).deferred := by
  unfold roomFor
  split
  · rw [slotOf_modSlot, makeRoom_deferred]
  · rfl

theorem deferred_postFrame (s : State) (h code status htag : Nat) (step : Word) (p : List Byte) :
    (slotOf (postFrame s h code status htag step p) h).deferred = (slotOf s h).deferred := by
  unfold postFrame
  extract_lets s₁ q r s₂
  have h₂ : (slotOf s₂ h).deferred = (slotOf s h).deferred := by rw [slotOf_modSlot]; exact deferred_roomFor s h _
  split <;> exact h₂

theorem deferred_postResult (s : State) (h code status htag : Nat) (step : Word) (p : List Byte) :
    (slotOf (postResult s h code status htag step p) h).deferred = (slotOf s h).deferred := by
  rw [postResult, deferred_postFrame]
  split <;> rfl

theorem postReady_spec (n : Nat) (s : State) (h : Nat) :
    KeepsFewer s (postReady n s h) h ∧ otherSlots s (postReady n s h) h ∧ regsBut s (postReady n s h) [HIF_H_CNT_REJ h] := by
  induction n generalizing s with
  | zero => exact ⟨⟨rfl, fun _ hd => hd⟩, fun _ _ => rfl, regsBut_refl _ _⟩
  | succ n ih =>
    rw [postReady]
    split
    next => exact ⟨⟨rfl, fun _ hd => hd⟩, fun _ _ => rfl, regsBut_refl _ _⟩
    next d l hdue =>
      obtain ⟨hfew, hothers, hregs⟩ :=
        ih (postResult (modSlot s h fun x => { x with deferred := l }) h d.code d.status d.htag (stepCnt s) d.body)
      have hposted : regsBut s (postResult (modSlot s h fun x => { x with deferred := l }) h d.code d.status d.htag (stepCnt s) d.body) [HIF_H_CNT_REJ h] :=
        regsBut_before (regsBut_postResult _ h _ _ _ _ _) (modSlot_regs s h _)
      refine ⟨KeepsFewer.trans ⟨?_, fun x hx => ?_⟩ hfew, fun g hg => ?_, regsBut_trans hposted hregs⟩
      · rw [ring_postResult, slotOf_modSlot]
      · rw [deferred_postResult, slotOf_modSlot] at hx
        simpa using findDue_subset hdue x hx
      · rw [hothers g hg, otherSlots_postResult _ _ _ _ _ _ _ g hg, slotOf_modSlot_ne _ _ hg]

/-- An event of kind `w` comes to the responses of one slot. -/
def postSlot (w : Nat) (s : State) (h : Nat) : State :=
  let u := modSlot s h fun x => { x with deferred := x.deferred.map fun d => { d with wait := waitAfter w d } }
  postReady (slotOf u h).deferred.length u h

theorem postDeferred_eq (s : State) (w : Nat) : postDeferred s w = [0, 1, 2, 3].foldl (postSlot w) s := rfl

/-- The ring of slot `h` stands, and whatever it keeps, an event of kind `w` has come to. -/
def EventCame (w : Nat) (s t : State) (h : Nat) : Prop :=
  (slotOf t h).ring = (slotOf s h).ring ∧ ∀ d ∈ (slotOf t h).deferred, ∃ e : Deferred, d.wait = waitAfter w e

theorem postSlot_spec (w : Nat) (s : State) (h : Nat) :
    EventCame w s (postSlot w s h) h ∧ otherSlots s (postSlot w s h) h ∧ regsBut s (postSlot w s h) [HIF_H_CNT_REJ h] := by
  unfold postSlot
  extract_lets u
  have hu : slotOf u h = { slotOf s h with deferred := (slotOf s h).deferred.map fun d => { d with wait := waitAfter w d } } := slotOf_modSlot _ _ _
  obtain ⟨⟨hring, hfew⟩, hothers, hregs⟩ := postReady_spec (slotOf u h).deferred.length u h
  refine ⟨⟨by rw [hring, hu], fun d hd => ?_⟩, fun g hg => (hothers g hg).trans (slotOf_modSlot_ne _ _ hg), regsBut_before hregs (modSlot_regs s h _)⟩
  have hmem := hfew d hd
  rw [hu] at hmem
  obtain ⟨e, -, rfl⟩ := List.mem_map.1 hmem
  exact ⟨e, rfl⟩

theorem postSlots_spec (w : Nat) (l : List Nat) (hnd : l.Nodup) (s : State) :
    (∀ g, g ∉ l → slotOf (l.foldl (postSlot w) s) g = slotOf s g) ∧ (∀ h ∈ l, EventCame w s (l.foldl (postSlot w) s) h) ∧
      regsBut s (l.foldl (postSlot w) s) (l.map HIF_H_CNT_REJ) := by
  induction l generalizing s with
  | nil => exact ⟨fun _ _ => rfl, fun h hh => absurd hh (by simp), regsBut_refl _ _⟩
  | cons a l ih =>
    obtain ⟨hal, hl⟩ := List.nodup_cons.1 hnd
    obtain ⟨hcame, hothers, hregs⟩ := postSlot_spec w s a
    obtain ⟨hout, hin, hregs'⟩ := ih hl (postSlot w s a)
    refine ⟨fun g hg => ?_, fun h hh => ?_, regsBut_trans (regsBut_mono hregs (by simp)) (regsBut_mono hregs' (by simp))⟩
    · obtain ⟨hga, hgl⟩ : g ≠ a ∧ g ∉ l := by simpa using hg
      exact (hout g hgl).trans (hothers g hga)
    · rw [EventCame, List.foldl_cons]
      by_cases hha : h = a
      · subst hha
        rw [hout h hal]
        exact hcame
      · obtain ⟨hring, hkept⟩ := hin h ((List.mem_cons.1 hh).resolve_left hha)
        exact ⟨hring.trans (by rw [hothers h hha]), hkept⟩

theorem waitAfter_ne {w : Nat} (hw : w < 7) (d : Deferred) : waitAfter w d ≠ w := by
  unfold waitAfter
  split_ifs <;> omega

/-- After an event no slot keeps a response that waits for it, the rings stand, and only the counts of rejections have moved. -/
theorem postDeferred_spec (s : State) {w : Nat} (hw : w < 7) :
    regsBut s (postDeferred s w) ((List.range 4).map HIF_H_CNT_REJ) ∧
      ∀ h < 4, (slotOf (postDeferred s w) h).ring = (slotOf s h).ring ∧
        (slotOf (postDeferred s w) h).deferred.any (fun d => decide (d.wait = w)) = false := by
  obtain ⟨-, hin, hregs⟩ := postSlots_spec w [0, 1, 2, 3] (by decide) s
  refine ⟨hregs, fun h hh => ?_⟩
  obtain ⟨hring, hkept⟩ := hin h (by interval_cases h <;> decide)
  refine ⟨hring, List.any_eq_false.2 fun d hd => ?_⟩
  obtain ⟨e, he⟩ := hkept d hd
  simpa [he] using waitAfter_ne hw e

end Kept

end Sys2Proof.Mailbox

namespace Sys2Proof.Firmware

open Sys2Proof Sys2Proof.Machine Sys2Proof.Mailbox Sys2Proof.Frame Sys2Proof.Recorder

theorem keeps_mono {s t : State} {l m : List Part} (h : Keeps (· ∈ l) s t) (hlm : l ⊆ m) : Keeps (· ∈ m) s t :=
  ⟨h.pending, h.free, h.regs, h.tables, fun p hp => h.same p fun hl => hp (hlm hl)⟩

/-! ### Images and the open update (R458, R459, R471) -/

section Images

variable {s : State}

@[simp] theorem showImages_boot (s : State) : (showImages s).boot = s.boot := rfl

@[simp] theorem showUpdate_boot (s : State) : (showUpdate s).boot = s.boot := rfl

@[simp] theorem modBoot_boot (s : State) (f : BootState → BootState) : (modBoot s f).boot = f s.boot := rfl

@[simp] theorem modBoot_regs (s : State) (f : BootState → BootState) : (modBoot s f).regs = s.regs := rfl

theorem setImage_boot (s : State) (i : Nat) (x : ImageRec) :
    (setImage s i x).boot = { s.boot with images := sparseSet (fun _ => ImageRec.empty) s.boot.images i x } := rfl

@[simp] theorem imageAt_setImage (s : State) (i : Nat) (x : ImageRec) : imageAt (setImage s i x) i = x := sparseGet_set _ _ _ _

theorem imageAt_setImage_ne (s : State) {i j : Nat} (x : ImageRec) (hij : j ≠ i) : imageAt (setImage s i x) j = imageAt s j :=
  sparseGet_set_ne _ _ _ _ _ hij

/-- What depends on the boot record's images alone. -/
theorem imageAt_of_images {t : State} (h : t.boot.images = s.boot.images) (i : Nat) : imageAt t i = imageAt s i := by rw [imageAt, h, imageAt]

theorem getF_showImages (s : State) {i : Nat} (hi : i < 2) : getF (showImages s) (SYS_IMG_STATE i) = (imageAt s i).state % 8 := by
  unfold showImages
  simp only [List.foldl_cons, List.foldl_nil]
  interval_cases i
  · rw [getF_setF_apart (by decide), getF_setF_apart (by decide), getF_setF_apart (by decide), getF_setF _ _ _ (by decide)]
    rfl
  · rw [getF_setF_apart (by decide), getF_setF _ _ _ (by decide)]
    rfl

theorem getF_setImage (s : State) {i : Nat} (hi : i < 2) (x : ImageRec) : getF (setImage s i x) (SYS_IMG_STATE i) = x.state % 8 := by
  have himages : (setImage s i x).boot.images =
      (modBoot s fun b => { b with images := sparseSet (fun _ => ImageRec.empty) b.images i x }).boot.images := rfl
  rw [setImage, getF_showImages _ hi, ← imageAt_of_images himages, imageAt_setImage]

theorem flag_showUpdate (s : State) : flag (showUpdate s) SYS_BOOT_UPD_OPEN = s.boot.update.isSome := by
  rw [showUpdate, flag_setF_apart (by decide), flag_setB _ _ _ (by decide)]

theorem getF_showUpdate (s : State) : getF (showUpdate s) SYS_BOOT_UPD_SLOT = (s.boot.update.map (·.slot)).getD 0 % 4 := by
  rw [showUpdate, getF_setF _ _ _ (by decide)]
  rfl

theorem getF_showUpdate_image (s : State) (i : Nat) : getF (showUpdate s) (SYS_IMG_STATE i) = getF s (SYS_IMG_STATE i) := by
  have hreg : SYS_IMG i ≠ SYS_BOOT := by grind
  rw [showUpdate, getF_setF_apart ⟨by decide, Nat.zero_le 2, .inl hreg⟩, getF_setB_apart ⟨by decide, Nat.zero_le 2, .inl hreg⟩]

theorem record_boot (s : State) (code inst : Nat) (val : List Byte) : (record s code inst val).boot = s.boot :=
  (keeps_record s code inst val).same .boot (by decide)

end Images

/-! ### The commands of an update (R459, R460) -/

/-- The update that FW_BEGIN opens. -/
def newUpdate (h : Nat) (p : List Byte) : Update := { slot := h, image := leAt p 0 1, length := leAt p 4 4, written := [], erasing := true }

/-- The image is empty and the update is open. -/
def opened (s : State) (h : Nat) (p : List Byte) : State :=
  modBoot (setImage s (leAt p 0 1) ImageRec.empty) fun b => { b with update := some (newUpdate h p) }

/-- The update with more bytes written. -/
def filled (s : State) (u : Update) (d : List Byte) : State := modBoot s fun b => { b with update := some { u with written := u.written ++ d } }

theorem fwBegin_taken {s : State} {h : Nat} {p : List Byte} (hrole : ownerOrService s h = true) (himage : leAt p 0 1 < 2) (hresv : leAt p 1 3 = 0)
    (hlen : inRange 256 12582912 (leAt p 4 4) = true) (hwords : leAt p 4 4 % 4 = 0) (hnone : s.boot.update = none) (hruns : leAt p 0 1 ≠ s.boot.running) :
    fwBegin s h p = okBody (showUpdate (opened s h p)) (leBytes 1 (leAt p 0 1)) := by
  simp [fwBegin, hrole, himage, hresv, hlen, hwords, hnone, hruns, okBody, opened, newUpdate]

theorem fwData_taken {s : State} {h : Nat} {p : List Byte} {u : Update} (hrole : ownerOrService s h = true) (hu : s.boot.update = some u) (hslot : u.slot = h)
    (herased : u.erasing = false) (hat : leAt p 0 4 = u.written.length) (hfits : u.written.length + (p.drop 4).length ≤ u.length) :
    fwData s h p = okBody (filled s u (p.drop 4)) (leBytes 4 (u.written.length + (p.drop 4).length)) := by
  have hfits' : ¬ u.length < u.written.length + (p.drop 4).length := Nat.not_lt.2 hfits
  rw [fwData, if_neg (by simp [hrole]), hu]
  dsimp only
  rw [if_neg (by simp [hslot, herased]), if_neg (by tauto), List.length_append]
  rfl

section Commands

variable {s : State} {h : Nat} (hrole : ownerOrService s h = true)
include hrole

theorem fwInfo_answers (hs : starts s h 0x38) : answers (.fwInfo h) s fun t => answered s t h (leBytes 1 s.boot.running ++ leBytes 1 s.boot.preferred ++
    leBytes 1 (bit (trialRuns s) 0) ++ [0#8] ++ imageInfo s 0 ++ imageInfo s 1) ∧ t.regs = s.regs ∧ otherSlots s t h ∧ partsBut s t [.sys, .hif] := by
  refine answers_ok_only hs rfl ?_
  have hrole' : ownerOrService (begun s h) h = true := hrole
  simp only [fwInfo, hrole', Bool.not_true, Bool.false_eq_true, if_false]
  rfl

theorem fwBegin_answers (hs : starts s h 0x39) (himage : leAt (req s h) 0 1 < 2) (hresv : leAt (req s h) 1 3 = 0)
    (hlen : inRange 256 12582912 (leAt (req s h) 4 4) = true) (hwords : leAt (req s h) 4 4 % 4 = 0)
    (hnone : s.boot.update = none) (hruns : leAt (req s h) 0 1 ≠ s.boot.running) : answers (.fwBegin h) s fun t =>
      t.boot.update = some { slot := h, image := leAt (req s h) 0 1, length := leAt (req s h) 4 4, written := [], erasing := true } ∧
      imageAt t (leAt (req s h) 0 1) = ImageRec.empty ∧ imageAt t (1 - leAt (req s h) 0 1) = imageAt s (1 - leAt (req s h) 0 1) ∧
      flag t SYS_BOOT_UPD_OPEN = true ∧ getF t SYS_BOOT_UPD_SLOT = h ∧ accepted s t h 3 (leBytes 1 (leAt (req s h) 0 1)) ∧ otherSlots s t h ∧
      partsBut s t [.regs, .boot, .sys, .hif] := by
  have hrun := fwBegin_taken (s := begun s h) hrole himage hresv hlen hwords hnone hruns
  have hkeeps : Keeps (· ∈ [.regs, .boot]) (begun s h) (showUpdate (opened (begun s h) h (req s h))) :=
    showUpdate_keeps _ (allows_of_subset (by decide)) (modBoot_keeps _ _ (allows_of_subset (by decide)) (setImage_keeps _ _ _ (fun _ hp => hp) (.refl _ _)))
  refine answers_accepted (run := fun s p => { r := fwBegin s h p, wait := some 3, silent := false }) hs rfl (by rw [hrun]) hkeeps (by decide)
    fun t hsame hacc hslots hparts => ?_
  have hboot : t.boot = (opened (begun s h) h (req s h)).boot := hsame .boot (by decide)
  have hregs : t.regs = (showUpdate (opened (begun s h) h (req s h))).regs := hsame .regs (by decide)
  have hother : 1 - leAt (req s h) 0 1 ≠ leAt (req s h) 0 1 := by omega
  have himages : t.boot.images = (setImage (begun s h) (leAt (req s h) 0 1) ImageRec.empty).boot.images := congrArg (·.images) hboot
  refine ⟨by rw [hboot]; rfl, ?_, ?_, ?_, ?_, hacc, hslots, hparts⟩
  · rw [imageAt_of_images himages, imageAt_setImage]
  · rw [imageAt_of_images himages, imageAt_setImage_ne _ _ hother]
    rfl
  · rw [flag_of_regs hregs, flag_showUpdate]
    rfl
  · rw [getF_of_regs hregs, getF_showUpdate]
    exact Nat.mod_eq_of_lt hs.1

theorem fwData_answers {u : Update} (hu : s.boot.update = some u) (hslot : u.slot = h) (herased : u.erasing = false) (hs : starts s h 0x3A)
    (hat : leAt (req s h) 0 4 = u.written.length) (hfits : u.written.length + ((req s h).drop 4).length ≤ u.length) : answers (.fwData h) s fun t =>
      t.boot.update = some { u with written := u.written ++ (req s h).drop 4 } ∧ answered s t h (leBytes 4 (u.written.length + ((req s h).drop 4).length)) ∧
      t.regs = s.regs ∧ t.boot.images = s.boot.images ∧ otherSlots s t h ∧ partsBut s t [.boot, .sys, .hif] := by
  have hrun := congrArg plain (fwData_taken (s := begun s h) hrole hu hslot herased hat hfits)
  refine answers_ok (run := fun s p => plain (fwData s h p)) (l := [.boot]) hs rfl hrun (Keeps.put_boot (by decide) (.refl _ _)) (by decide)
    (by decide) fun t hsame hans hslots hparts => ?_
  have hboot : t.boot = (filled (begun s h) u ((req s h).drop 4)).boot := hsame .boot (by decide)
  exact ⟨by rw [hboot]; rfl, hans, hsame .regs (by decide), by rw [hboot]; rfl, hslots, hparts⟩

/-- The image ends in a state, with what its head says, and the update is closed. -/
def ended (s : State) (u : Update) (x : ImageHead) (st : Nat) : State :=
  showUpdate (modBoot (setImage s u.image { state := st, head := x, bytes := some u.written }) fun b => { b with update := none })

omit hrole in
theorem keeps_ended (s : State) (u : Update) (x : ImageHead) (st : Nat) : Keeps (· ∈ [.regs, .boot]) s (ended s u x st) :=
  showUpdate_keeps _ (allows_of_subset (by decide)) (modBoot_keeps _ _ (allows_of_subset (by decide)) (setImage_keeps _ _ _ (fun _ hp => hp) (.refl _ _)))

omit hrole in
theorem ended_boot (s : State) (u : Update) (x : ImageHead) (st : Nat) :
    (ended s u x st).boot.update = none ∧ imageAt (ended s u x st) u.image = { state := st, head := x, bytes := some u.written } := by
  have himages : (ended s u x st).boot.images = (setImage s u.image { state := st, head := x, bytes := some u.written }).boot.images := by
    rw [ended, showUpdate_boot, modBoot_boot]
  exact ⟨by rw [ended, showUpdate_boot, modBoot_boot], by rw [imageAt_of_images himages, imageAt_setImage]⟩

omit hrole in
theorem getF_ended_image (s : State) {u : Update} (hi : u.image < 2) (x : ImageHead) (st : Nat) : getF (ended s u x st) (SYS_IMG_STATE u.image) = st % 8 := by
  rw [ended, getF_showUpdate_image, getF_of_regs (modBoot_regs _ _), getF_setImage _ hi]

section End
variable {u : Update} {x : ImageHead} (hu : s.boot.update = some u) (hslot : u.slot = h) (herased : u.erasing = false)
include hu hslot herased

theorem fwEnd_sound (hwhole : u.length ≤ u.written.length) (hok : imageReason s x = 0) :
    fwEnd s h x = okBody (record (ended s u x imUntested) 0xE005 u.image (leBytes 4 x.version.toNat)) [BitVec.ofNat 8 imUntested, 0#8] := by
  have hwhole' : ¬ u.written.length < u.length := Nat.not_lt.2 hwhole
  rw [fwEnd, if_neg (by simp [hrole]), hu]
  dsimp only
  rw [if_neg (by simp [hslot, herased]), if_neg hwhole', hok]
  rfl

theorem fwEnd_bad (hbad : u.written.length < u.length ∨ imageReason s x ≠ 0) :
    fwEnd s h x = { s := ended s u x imBad, status := stAuth, body :=
      [BitVec.ofNat 8 imBad, BitVec.ofNat 8 (if u.written.length < u.length then 1 else imageReason s x)] } := by
  rw [fwEnd, if_neg (by simp [hrole]), hu]
  dsimp only
  rw [if_neg (by simp [hslot, herased])]
  have hr : ¬ (if u.written.length < u.length then 1 else imageReason s x) = 0 := by
    split
    · decide
    · exact hbad.resolve_left ‹_›
  generalize (if u.written.length < u.length then 1 else imageReason s x) = r at hr
  simp only [hr, if_false, leBytes]
  rfl

theorem fwEnd_answers_sound (hs : starts s h 0x3B) (hi : u.image < 2) (hwhole : u.length ≤ u.written.length) (hok : imageReason s x = 0) :
    answers (.fwEnd h x) s fun t => imageAt t u.image = { state := imUntested, head := x, bytes := some u.written } ∧ t.boot.update = none ∧
      getF t (SYS_IMG_STATE u.image) = imUntested ∧ flag t SYS_BOOT_UPD_OPEN = false ∧ responded s t h stOk [BitVec.ofNat 8 imUntested, 0#8] ∧
      otherSlots s t h ∧ partsBut s t [.regs, .boot, .recd, .sys, .hif] := by
  have hrun := congrArg plain (fwEnd_sound (s := begun s h) hrole hu hslot herased hwhole hok)
  have hkeeps : Keeps (· ∈ [.regs, .boot, .recd]) (begun s h) (record (ended (begun s h) u x imUntested) 0xE005 u.image (leBytes 4 x.version.toNat)) :=
    record_keeps _ _ _ _ (allows_of_subset (by decide)) (keeps_mono (keeps_ended _ _ _ _) (by decide))
  refine answers_ok (run := fun s _ => plain (fwEnd s h x)) hs rfl hrun hkeeps (by decide) (by decide) fun t hsame hans hslots hparts => ?_
  have hboot := (hsame .boot (by decide)).trans (record_boot _ _ _ _)
  have hregs := hsame .regs (by decide)
  obtain ⟨hclosed, himage⟩ := ended_boot (begun s h) u x imUntested
  refine ⟨(imageAt_of_images (congrArg (·.images) hboot) _).trans himage, (congrArg (·.update) hboot).trans hclosed, ?_, ?_, hans.1, hslots, hparts⟩
  · rw [getF_of_regs hregs, getF_record _ _ _ _ (by grind), getF_ended_image _ hi]
    rfl
  · rw [flag_of_regs hregs, flag_record _ _ _ _ (by decide), ended, flag_showUpdate]
    rfl

theorem fwEnd_answers_bad (hs : starts s h 0x3B) (hbad : u.written.length < u.length ∨ imageReason s x ≠ 0) :
    answers (.fwEnd h x) s fun t => (imageAt t u.image).state = imBad ∧ t.boot.update = none ∧
      responded s t h stAuth [BitVec.ofNat 8 imBad, BitVec.ofNat 8 (if u.written.length < u.length then 1 else imageReason s x)] ∧ otherSlots s t h ∧
      partsBut s t [.regs, .boot, .sys, .hif] := by
  have hrun := congrArg plain (fwEnd_bad (s := begun s h) hrole hu hslot herased hbad)
  refine answers_refused (run := fun s _ => plain (fwEnd s h x)) hs rfl hrun (keeps_ended _ _ _ _) (by decide) (by decide)
    fun t hsame _ hresp hslots hparts => ?_
  have hboot : t.boot = (ended (begun s h) u x imBad).boot := hsame .boot (by decide)
  obtain ⟨hclosed, himage⟩ := ended_boot (begun s h) u x imBad
  refine ⟨?_, (congrArg (·.update) hboot).trans hclosed, hresp, hslots, partsBut_mono hparts (by decide)⟩
  rw [(imageAt_of_images (congrArg (·.images) hboot) _).trans himage]

end End

/-! ### FW_COMMIT (R460) -/

/-- The running image is VALID, and the least SVN is its own. -/
def committed (s : State) : State :=
  modBoot (setImageState s s.boot.running imValid) fun b => { b with minSvn := (imageAt s s.boot.running).head.svn, trialRan := false }

/-- An older image in the other place is marked BAD. -/
def outdated (s : State) (i v : Nat) : State :=
  if (imageAt s i).state ≠ imEmpty ∧ (imageAt s i).head.svn < v then setImageState s i imBad else s

omit hrole in
theorem outdated_spec (s : State) (i v : Nat) : (∀ j, j ≠ i → imageAt (outdated s i v) j = imageAt s j) ∧
    (outdated s i v).boot.minSvn = s.boot.minSvn ∧ Keeps (· ∈ [.regs, .boot]) s (outdated s i v) := by
  unfold outdated
  split_ifs
  · exact ⟨fun j hj => imageAt_setImage_ne _ _ hj, rfl, setImage_keeps _ _ _ (fun _ hp => hp) (.refl _ _)⟩
  · exact ⟨fun _ _ => rfl, rfl, .refl _ _⟩

/-- What a commit makes of the state. -/
def commitDone (s : State) : State :=
  record (setB (outdated (committed s) (1 - s.boot.running) (imageAt s s.boot.running).head.svn) SYS_BOOT_TRIAL false) 0xE004 s.boot.running
    (leBytes 2 (imageAt s s.boot.running).head.svn)

omit hrole in
theorem keeps_commitDone (s : State) : Keeps (· ∈ [.regs, .boot, .recd]) s (commitDone s) := by
  have hcommitted : Keeps (· ∈ [.regs, .boot, .recd]) s (committed s) :=
    modBoot_keeps _ _ (allows_of_subset (by decide)) (setImage_keeps _ _ _ (allows_of_subset (by decide)) (.refl _ _))
  refine record_keeps _ _ _ _ (allows_of_subset (by decide)) (setB_keeps _ _ _ (allows_of_subset (by decide)) ?_)
  unfold outdated
  split_ifs
  · exact setImage_keeps _ _ _ (allows_of_subset (by decide)) hcommitted
  · exact hcommitted

omit hrole in
theorem commitDone_boot (s : State) (hi : s.boot.running < 2) :
    imageState (commitDone s) s.boot.running = imValid ∧ (commitDone s).boot.minSvn = (imageAt s s.boot.running).head.svn := by
  obtain ⟨himages, hsvn, -⟩ := outdated_spec (committed s) (1 - s.boot.running) (imageAt s s.boot.running).head.svn
  have hboot : (commitDone s).boot = (outdated (committed s) (1 - s.boot.running) (imageAt s s.boot.running).head.svn).boot := record_boot _ _ _ _
  constructor
  · have hstands : (committed s).boot.images = (setImageState s s.boot.running imValid).boot.images := by rw [committed, modBoot_boot]
    rw [imageState, imageAt_of_images (congrArg (·.images) hboot), himages _ (by omega), imageAt_of_images hstands, setImageState, imageAt_setImage]
  · rw [hboot, hsvn, committed, modBoot_boot]

theorem fwCommit_trial (htrial : trialRuns s = true) :
    fwCommit s h = okBody (commitDone s) (leBytes 1 (imageState (commitDone s) s.boot.running)) := by
  rw [fwCommit, if_neg (by simp [hrole])]
  simp only [htrial, Bool.not_true, Bool.false_eq_true, if_false]
  rfl

theorem fwCommit_answers_trial (hs : starts s h 0x3D) (htrial : trialRuns s = true) (hi : s.boot.running < 2) :
    answers (.fwCommit h) s fun t => imageState t s.boot.running = imValid ∧
      t.boot.minSvn = (imageAt s s.boot.running).head.svn ∧ flag t SYS_BOOT_TRIAL = false ∧ answered s t h [BitVec.ofNat 8 imValid] ∧ otherSlots s t h ∧
      partsBut s t [.regs, .boot, .recd, .sys, .hif] := by
  obtain ⟨himage, hsvn⟩ := commitDone_boot (begun s h) hi
  have hrun : plain (fwCommit (begun s h) h) = plain (okBody (commitDone (begun s h)) [BitVec.ofNat 8 imValid]) := by
    rw [fwCommit_trial (s := begun s h) hrole htrial, himage]
    rfl
  refine answers_ok (run := fun s _ => plain (fwCommit s h)) hs rfl hrun (keeps_commitDone _) (by decide) (by decide)
    fun t hsame hans hslots hparts => ?_
  have hboot : t.boot = (commitDone (begun s h)).boot := hsame .boot (by decide)
  refine ⟨?_, (congrArg (·.minSvn) hboot).trans hsvn, ?_, hans, hslots, hparts⟩
  · exact (congrArg (·.state) (imageAt_of_images (congrArg (·.images) hboot) _)).trans himage
  · rw [flag_of_regs (hsame .regs (by decide)), commitDone, flag_record _ _ _ _ (by decide), flag_setB _ _ _ (by decide)]

theorem fwCommit_answers_idle (hs : starts s h 0x3D) (htrial : trialRuns s = false) :
    answers (.fwCommit h) s fun t => answered s t h (leBytes 1 (imageState s s.boot.running)) ∧ t.boot = s.boot ∧ t.regs = s.regs ∧
      otherSlots s t h ∧ partsBut s t [.sys, .hif] := by
  have hrun : plain (fwCommit (begun s h) h) = plain (okBody (begun s h) (leBytes 1 (imageState s s.boot.running))) := by
    have hrole' : ownerOrService (begun s h) h = true := hrole
    have htrial' : trialRuns (begun s h) = false := htrial
    rw [fwCommit, if_neg (by simp [hrole'])]
    simp only [htrial', Bool.not_false, if_true]
    rfl
  obtain ⟨t, hexec, hans, hregs, hslots, hparts⟩ := answers_ok_only (i := .fwCommit h) (run := fun s _ => plain (fwCommit s h)) hs rfl hrun
  exact ⟨t, hexec, hans, hparts.1 .boot (by decide), hregs, hslots, hparts⟩

end Commands

/-! ### FW_ERASE_DONE (R459) -/

theorem fwEraseDone_answers {s : State} {u : Update} (hu : s.boot.update = some u) (herasing : u.erasing = true) : answers .fwEraseDone s fun t =>
    t.boot = { s.boot with update := some { u with erasing := false } } ∧ regsBut s t ((List.range 4).map HIF_H_CNT_REJ) ∧
      (∀ h < 4, (slotOf t h).ring = (slotOf s h).ring ∧ (slotOf t h).deferred.any (fun d => decide (d.wait = 3)) = false) ∧
      partsBut s t [.regs, .boot, .hif] := by
  have hexec : exec .fwEraseDone s = .next (postDeferred (modBoot s fun b => { b with update := some { u with erasing := false } }) 3) := by
    change Host.Outcome.next (eraseDone s) = _
    simp only [eraseDone, hu, herasing, if_true]
  obtain ⟨hregs, hslots⟩ := postDeferred_spec (modBoot s fun b => { b with update := some { u with erasing := false } }) (w := 3) (by decide)
  have hkeeps := postDeferred_keeps (R := (· ∈ [.regs, .boot, .hif])) (modBoot s fun b => { b with update := some { u with erasing := false } }) 3
    (allows_of_subset (by decide)) (Keeps.put_boot (by decide) (.refl _ s))
  have hpost := postDeferred_keeps (R := (· ∈ [.regs, .hif])) (modBoot s fun b => { b with update := some { u with erasing := false } }) 3
    (fun _ hp => hp) (.refl _ _)
  exact ⟨_, hexec, hpost.same .boot (by decide), regsBut_before hregs rfl, hslots, partsBut_of_keeps hkeeps⟩

/-- Settles O54: each command of an update runs on the state in which it began; the boot record is read off what it made of it. -/
theorem firmwareUpdates : Obligations.FirmwareUpdates := by
  unfold Obligations.FirmwareUpdates
  refine ⟨fun s h hrole => ⟨fwInfo_answers hrole, ?begin, ?data, ?done, ?commit⟩, fun s u hu herasing => fwEraseDone_answers hu herasing⟩
  case begin => exact fun hs himage hresv hlen hwords hnone hruns => fwBegin_answers hrole hs himage hresv hlen hwords hnone hruns
  case data => exact fun u hu hslot herased hs hat hfits => fwData_answers hrole hu hslot herased hs hat hfits
  case done =>
    exact fun u x hu hslot herased hs hi => ⟨fwEnd_answers_sound hrole hu hslot herased hs hi, fwEnd_answers_bad hrole hu hslot herased hs⟩
  case commit => exact fun hs => ⟨fwCommit_answers_trial hrole hs, fwCommit_answers_idle hrole hs⟩

end Sys2Proof.Firmware

namespace Sys2Proof.Configuration

open Sys2Proof Sys2Proof.Machine Sys2Proof.Mailbox Sys2Proof.Frame Sys2Proof.Recorder Sys2Proof.Firmware

/-! ### The banks of the persistent configuration (R466, R467) -/

section Banks

variable {s : State}

@[simp] theorem bankAt_setBank (s : State) (k : Nat) (b : CfgBank) : bankAt (setBank s k b) k = b := sparseGet_set _ _ _ _

theorem bankAt_setBank_ne (s : State) {k j : Nat} (b : CfgBank) (hj : j ≠ k) : bankAt (setBank s k b) j = bankAt s j :=
  sparseGet_set_ne _ _ _ _ _ hj

theorem bankAt_of_banks {t : State} (h : t.boot.banks = s.boot.banks) (k : Nat) : bankAt t k = bankAt s k := by rw [bankAt, h, bankAt]

/-- Values put under the keys of a list, no key twice, are found there. -/
theorem sparseGet_putAll {α β : Type} (d : Nat → α) (v : Nat × β → α) (l : List (Nat × β)) (hnd : (l.map (·.1)).Nodup) (m : Sparse α) :
    (∀ e ∈ l, sparseGet d (l.foldl (fun m e => sparsePut m e.1 (v e)) m) e.1 = v e) ∧
      ∀ j, j ∉ l.map (·.1) → sparseGet d (l.foldl (fun m e => sparsePut m e.1 (v e)) m) j = sparseGet d m j := by
  induction l generalizing m with
  | nil => simp
  | cons a l ih =>
    obtain ⟨hal, hl⟩ := List.nodup_cons.1 hnd
    obtain ⟨hin, hout⟩ := ih hl (sparsePut m a.1 (v a))
    refine ⟨fun e he => ?_, fun j hj => ?_⟩
    · rcases List.mem_cons.1 he with rfl | he
      · rw [List.foldl_cons, hout _ hal, sparseGet_put]
      · exact hin e he
    · obtain ⟨hja, hjl⟩ : j ≠ a.1 ∧ j ∉ l.map (·.1) := by simpa using hj
      rw [List.foldl_cons, hout j hjl, sparseGet_put_ne _ _ _ _ _ hja]

theorem nodup_persistent : (persistent.map (·.1)).Nodup := by decide +kernel

/-- What a bank holds of a register is what the register reads, as far as it belongs to the set (R467). -/
theorem bankContent_regs (s : State) (seq : Nat) {e : Nat × Word} (he : e ∈ persistent) :
    sparseGet regReset (bankContent s seq).regs e.1 &&& e.2 = rd s e.1 &&& e.2 := by
  have hput := (sparseGet_putAll regReset (fun e => rd s e.1 &&& e.2) persistent nodup_persistent []).1 e he
  rw [bankContent, hput, BitVec.and_assoc, BitVec.and_self]

end Banks

section Cfg

variable {s : State} {h : Nat}

theorem front_isCfg {op : Nat} {p : Nat → Bool} (hs : cfgStarts s h op) (hp : p op = true) : isCfg p (front s h) = true := by
  obtain ⟨⟨-, -, -, hcode, -⟩, hop, -⟩ := hs
  have hpay : leAt (front s h).payload 0 1 = op := hop
  simp [isCfg, hcode, hpay, hp]

/-- The number of the set that is saved next. -/
def nextSeq (s : State) : Nat := (max (bankAt s 0).seq (bankAt s 1).seq + 1) % 2 ^ 32

/-- The set is taken for the older bank, which is invalid until it is written. -/
def savingTo (s : State) : State :=
  modBoot (setBank s (olderBank s) CfgBank.empty) fun b =>
    { b with saving := some (olderBank s, bankContent s (nextSeq s)), lastSave := some (absTick s (nowTick s)) }

theorem olderBank_eq (s : State) : (match newestBank s with | some 0 => 1 | _ => 0) = olderBank s := by
  unfold olderBank
  split <;> simp_all

theorem cfgSave_taken {p : List Byte} (hrole : ownerOrService s h = true) (hresv : leAt p 1 3 = 0) (htest : testMode s = false)
    (hidle : s.boot.saving = none) (hallowed : saveAllowed s = true) :
    cfgSave s h p = okBody (savingTo s) (leBytes 1 (olderBank s) ++ leBytes 3 0 ++ leBytes 4 (nextSeq s)) := by
  have hrecent : ∀ t, s.boot.lastSave = some t → ¬ absTick s (nowTick s) < t + 10 * ticksPerSec := fun t ht => by
    simpa [saveAllowed, ht] using hallowed
  rw [cfgSave]
  extract_lets k seq c
  have hk : k = olderBank s := olderBank_eq s
  rw [if_neg (by simp [hrole]), if_neg (by simp [hresv]), if_neg ?idle]
  · rw [okBody, savingTo, ← hk]
    rfl
  case idle =>
    cases hl : s.boot.lastSave with
    | none => simp [htest, hidle]
    | some t => simp [htest, hidle, hrecent t hl]

/-- What CFG SAVE runs: an operation that is reserved is refused. -/
def saveRun (h : Nat) (s : State) (p : List Byte) : CmdOut :=
  { r := if leAt p 0 1 = 0 ∨ !ownerOrService s h then cfgSave s h p else refuse s stInvalid, wait := some 4, silent := false }

theorem saveRun_of_save {p : List Byte} (hop : leAt p 0 1 = 0) : saveRun h s p = { r := cfgSave s h p, wait := some 4, silent := false } := by
  rw [saveRun, if_pos (.inl hop)]

theorem cfgSave_answers (hs : cfgStarts s h 0) (hrole : ownerOrService s h = true) (htest : testMode s = false) (hidle : s.boot.saving = none)
    (hallowed : saveAllowed s = true) : answers (.cfgSave h) s fun t =>
      (t.boot.saving.map (·.1)) = some (olderBank s) ∧ (bankAt t (olderBank s)).valid = false ∧
      bankAt t (1 - olderBank s) = bankAt s (1 - olderBank s) ∧ (∀ b, t.boot.saving.map (·.2) = some b → b.valid = true ∧
        ∀ e ∈ persistent, sparseGet regReset b.regs e.1 &&& e.2 = rd s e.1 &&& e.2) ∧
      t.boot.lastSave = some (absTick s (nowTick s)) ∧ t.regs = s.regs ∧ (slotOf t h).deferred.length = (slotOf s h).deferred.length + 1 ∧
      otherSlots s t h ∧ partsBut s t [.boot, .sys, .hif] := by
  obtain ⟨hstarts, hop, hresv⟩ := id hs
  have hrun : saveRun h (begun s h) (req s h) = _ :=
    (saveRun_of_save hop).trans (by rw [cfgSave_taken (s := begun s h) hrole hresv htest hidle hallowed])
  refine answers_accepted_of_kind (l := [.boot]) hstarts (front_isCfg (op := 0) (p := fun op => decide (op ≠ 1 ∧ op ≠ 2)) hs (by decide)) rfl hrun
    (modBoot_keeps _ _ (fun _ hp => hp) (modBoot_keeps _ _ (fun _ hp => hp) (.refl _ _))) (by decide) fun t hsame hacc hslots hparts => ?_
  have hboot : t.boot = (savingTo (begun s h)).boot := hsame .boot (by decide)
  have hbanks : t.boot.banks = (setBank (begun s h) (olderBank s) CfgBank.empty).boot.banks := congrArg (·.banks) hboot
  have holder : 1 - olderBank s ≠ olderBank s := by
    unfold olderBank
    split <;> decide
  refine ⟨by rw [hboot]; rfl, ?_, ?_, fun b hb => ?_, by rw [hboot]; rfl, hsame .regs (by decide), ?_, hslots, hparts⟩
  · rw [bankAt_of_banks hbanks, bankAt_setBank]
    rfl
  · rw [bankAt_of_banks hbanks, bankAt_setBank_ne _ _ holder]
    rfl
  · rw [hboot] at hb
    obtain rfl : bankContent (begun s h) (nextSeq (begun s h)) = b := Option.some.inj hb
    exact ⟨rfl, fun e he => bankContent_regs _ _ he⟩
  · rw [hacc.1, List.length_append, List.length_singleton]

/-- CFG_SAVE_DONE: the bank stands, and the response is brought. -/
theorem cfgSaveDone_answers {x : Nat × CfgBank} (hx : s.boot.saving = some x) (hk : x.1 < 2) : answers .cfgSaveDone s fun t =>
    bankAt t x.1 = x.2 ∧ bankAt t (1 - x.1) = bankAt s (1 - x.1) ∧ t.boot.saving = none ∧
      (∀ h < 4, (slotOf t h).deferred.any (fun d => decide (d.wait = 4)) = false) ∧ regsBut s t (tally ++ (List.range 4).map HIF_H_CNT_REJ) ∧
      partsBut s t [.regs, .boot, .recd, .hif] := by
  have hexec : exec .cfgSaveDone s = .next (postDeferred (saveDone s) 4) := by
    change Host.Outcome.next (if s.boot.saving.isSome then postDeferred (saveDone s) 4 else s) = _
    rw [hx, Option.isSome_some, if_pos rfl]
  have hdone : saveDone s = record (modBoot (setBank s x.1 x.2) fun b => { b with saving := none }) 0xE006 x.1 (leBytes 4 x.2.seq) := by
    simp only [saveDone, hx]
  obtain ⟨hregs, hslots⟩ := postDeferred_spec (saveDone s) (w := 4) (by decide)
  have hkeeps : Keeps (· ∈ [.regs, .boot, .recd, .hif]) s (postDeferred (saveDone s) 4) :=
    postDeferred_keeps _ _ (allows_of_subset (by decide)) (saveDone_keeps _ (allows_of_subset (by decide)) (.refl _ _))
  have hboot : (postDeferred (saveDone s) 4).boot = { (setBank s x.1 x.2).boot with saving := none } := by
    have hpost : (postDeferred (saveDone s) 4).boot = (saveDone s).boot :=
      (postDeferred_keeps (R := (· ∈ [.regs, .hif])) (saveDone s) 4 (fun _ hp => hp) (.refl _ _)).same .boot (by decide)
    rw [hpost, hdone, record_boot, modBoot_boot]
  have hbanks : (postDeferred (saveDone s) 4).boot.banks = (setBank s x.1 x.2).boot.banks := by rw [hboot]
  have hother : 1 - x.1 ≠ x.1 := by omega
  refine ⟨_, hexec, ?_, ?_, by rw [hboot], fun h hh => (hslots h hh).2, ?_, partsBut_of_keeps hkeeps⟩
  · rw [bankAt_of_banks hbanks, bankAt_setBank]
  · rw [bankAt_of_banks hbanks, bankAt_setBank_ne _ _ hother]
  · have hrec : regsBut s (saveDone s) lossCounters := by
      rw [hdone]
      exact regsBut_before (regsBut_record _ _ _ _) rfl
    exact regsBut_trans (regsBut_mono hrec (List.subset_append_of_subset_left _ lossCounters_subset_tally))
      (regsBut_mono hregs (List.subset_append_right _ _))

section Service
variable (hrole : roleOf s h = 3) (htest : testMode s = false)
include hrole htest

theorem cfgErase_answers (hs : cfgStarts s h 1) : answers (.cfgErase h) s fun t => (∀ k, bankAt t k = CfgBank.empty) ∧ answered s t h [] ∧
    t.regs = s.regs ∧ otherSlots s t h ∧ partsBut s t [.boot, .sys, .hif] := by
  obtain ⟨hstarts, -, hresv⟩ := id hs
  have hrun : plain (cfgErase (begun s h) h (req s h)) = plain (okBody (modBoot (begun s h) fun b => { b with banks := [] }) []) := by
    have hrole' : roleOf (begun s h) h = 3 := hrole
    have htest' : testMode (begun s h) = false := htest
    rw [cfgErase, if_neg (by simp [hrole']), if_neg (by simp [hresv]), if_neg (by simp [htest'])]
    rfl
  refine answers_ok_of_kind (run := fun s p => plain (cfgErase s h p)) (l := [.boot]) hstarts
    (front_isCfg (op := 1) (p := fun op => decide (op = 1)) hs (by decide)) rfl hrun
    (modBoot_keeps _ _ (fun _ hp => hp) (.refl _ _)) (by decide) (by decide) fun t hsame hans hslots hparts => ?_
  have hbanks : t.boot.banks = [] := congrArg (·.banks) (hsame .boot (by decide))
  exact ⟨fun k => by rw [bankAt, hbanks]; rfl, hans, hsame .regs (by decide), hslots, hparts⟩

omit hrole htest in
theorem isNone_of_isSome {α : Type} {o : Option α} (ho : o.isSome = true) : o.isNone = false := by
  cases o with
  | none => exact absurd ho (by simp)
  | some a => rfl

/-- The key that a KEY_SET names. -/
def newKey (p : List Byte) : List Byte := (p.drop 4).take 32

omit hrole htest in
theorem record_recd_key (s : State) (code inst : Nat) (val : List Byte) :
    (record s code inst val).recd.key = s.recd.key ∧ (record s code inst val).recd.nonce = s.recd.nonce ∧
      (record s code inst val).recd.fails = s.recd.fails :=
  have hq := sameButQueue_record s code inst val
  ⟨sameButQueue_key hq, hq.nonce_eq, sameButQueue_fails hq⟩

section Key
variable (hs : cfgStarts s h 2)
include hs

theorem keySet_first (hnone : s.recd.key = none) : answers (.keySet h) s fun t => t.recd.key = some (newKey (req s h)) ∧ answered s t h [] ∧
    regsBut s t tally ∧ otherSlots s t h ∧ partsBut s t [.regs, .recd, .sys, .hif] := by
  obtain ⟨hstarts, -, hresv⟩ := id hs
  have hrun : plain (keySet (begun s h) h (req s h)) =
      plain (okBody (record (modRec (begun s h) fun r => { r with key := some (newKey (req s h)) }) 0xE009 h (leBytes 1 0)) []) := by
    have hrole' : roleOf (begun s h) h = 3 := hrole
    have htest' : testMode (begun s h) = false := htest
    have hnone' : (begun s h).recd.key = none := hnone
    rw [keySet, if_neg (by simp [hrole']), if_neg (by simp [hresv]), if_neg (by simp [htest']), if_pos (by simp [hnone'])]
    rfl
  refine answers_ok_of_kind (run := fun s p => plain (keySet s h p)) hstarts (front_isCfg (op := 2) (p := fun op => decide (op = 2)) hs (by decide)) rfl hrun
    (record_keeps (R := (· ∈ [.regs, .recd])) _ _ _ _ (fun _ hp => hp) (Keeps.put_recd (by decide) (.refl _ _))) (by decide) (by decide)
    fun t hsame hans hslots hparts => ?_
  have hregs : regsBut s (record (modRec (begun s h) fun r => { r with key := some (newKey (req s h)) }) 0xE009 h (leBytes 1 0)) lossCounters :=
    regsBut_before (t := modRec (begun s h) fun r => { r with key := some (newKey (req s h)) }) (regsBut_record _ _ _ _) rfl
  refine ⟨?_, hans, regsBut_mono (regsBut_put hregs (hsame .regs (by decide))) lossCounters_subset_tally, hslots, hparts⟩
  rw [hsame .recd (by decide), (record_recd_key _ _ _ _).1]
  rfl

variable (hkey : s.recd.key.isSome = true)
include hkey

theorem keySet_next (hmac : macOk s h (newKey (req s h)) ((req s h).drop 36) = true) : answers (.keySet h) s fun t =>
    t.recd.key = some (newKey (req s h)) ∧ t.recd.nonce = none ∧ t.recd.fails = 0 ∧ answered s t h [] ∧ otherSlots s t h ∧
      partsBut s t [.regs, .recd, .sys, .hif] := by
  obtain ⟨hstarts, -, hresv⟩ := id hs
  have hrun : plain (keySet (begun s h) h (req s h)) =
      plain (okBody (record (modRec (begun s h) fun r => { r with key := some (newKey (req s h)), nonce := none, fails := 0 }) 0xE009 h (leBytes 1 1)) []) := by
    have hrole' : roleOf (begun s h) h = 3 := hrole
    have htest' : testMode (begun s h) = false := htest
    have hkey' : (begun s h).recd.key.isNone = false := isNone_of_isSome hkey
    have hmac' : macOk (begun s h) h (newKey (req s h)) ((req s h).drop 36) = true := hmac
    rw [keySet, if_neg (by simp [hrole']), if_neg (by simp [hresv]), if_neg (by simp [htest']), if_neg (by rw [hkey']; decide), ← newKey, if_pos hmac']
    rfl
  refine answers_ok_of_kind (run := fun s p => plain (keySet s h p)) hstarts (front_isCfg (op := 2) (p := fun op => decide (op = 2)) hs (by decide)) rfl hrun
    (record_keeps (R := (· ∈ [.regs, .recd])) _ _ _ _ (fun _ hp => hp) (Keeps.put_recd (by decide) (.refl _ _))) (by decide) (by decide)
    fun t hsame hans hslots hparts => ?_
  obtain ⟨hk, hn, hf⟩ := record_recd_key (modRec (begun s h) fun r => { r with key := some (newKey (req s h)), nonce := none, fails := 0 }) 0xE009 h (leBytes 1 1)
  have hrecd := hsame .recd (by decide)
  exact ⟨by rw [hrecd, hk]; rfl, by rw [hrecd, hn]; rfl, by rw [hrecd, hf]; rfl, hans, hslots, hparts⟩

theorem keySet_fails (hmac : macOk s h (newKey (req s h)) ((req s h).drop 36) = false) : answers (.keySet h) s fun t =>
    t.recd.key = s.recd.key ∧ t.recd.nonce = none ∧ t.recd.fails = s.recd.fails + 1 ∧ responded s t h stAuth [] ∧ otherSlots s t h ∧
      partsBut s t [.regs, .recd, .sys, .hif] := by
  obtain ⟨hstarts, -, hresv⟩ := id hs
  have hrun : plain (keySet (begun s h) h (req s h)) = plain (refuse (authFail (begun s h) h) stAuth) := by
    have hrole' : roleOf (begun s h) h = 3 := hrole
    have htest' : testMode (begun s h) = false := htest
    have hkey' : (begun s h).recd.key.isNone = false := isNone_of_isSome hkey
    have hmac' : macOk (begun s h) h (newKey (req s h)) ((req s h).drop 36) = false := hmac
    rw [keySet, if_neg (by simp [hrole']), if_neg (by simp [hresv]), if_neg (by simp [htest']), if_neg (by rw [hkey']; decide), ← newKey, if_neg (by simp [hmac'])]
    rfl
  obtain ⟨hnonce, hfails, -, hsamekey, -, -⟩ := authFail_spec (begun s h) h
  refine answers_refused_of_kind (run := fun s p => plain (keySet s h p)) hstarts (front_isCfg (op := 2) (p := fun op => decide (op = 2)) hs (by decide)) rfl hrun
    (authFail_keeps (R := (· ∈ [.regs, .recd])) _ h (fun _ hp => hp) (.refl _ _)) (by decide) (by decide) fun t hsame _ hresp hslots hparts => ?_
  have hrecd : t.recd = (authFail (begun s h) h).recd := hsame .recd (by decide)
  rw [hrecd]
  exact ⟨hsamekey, hnonce, hfails, hresp, hslots, partsBut_mono hparts (by decide)⟩

end Key
end Service

end Cfg

/-- Settles O55: a save takes the set for the older bank and its end writes it; the key is set by what its MAC says. -/
theorem configurationAndKeys : Obligations.ConfigurationAndKeys := by
  unfold Obligations.ConfigurationAndKeys
  refine ⟨fun s h hs hrole htest hidle hallowed => cfgSave_answers hs hrole htest hidle hallowed, fun s x hx hk => cfgSaveDone_answers hx hk,
    fun s h hrole htest => ⟨cfgErase_answers hrole htest, ?first, ?next⟩⟩
  case first => exact fun hs hnone => keySet_first hrole htest hs hnone
  case next => exact fun hs hkey => ⟨keySet_next hrole htest hs hkey, keySet_fails hrole htest hs hkey⟩

end Sys2Proof.Configuration

namespace Sys2Proof.Mailbox

open Sys2Proof Sys2Proof.Machine Sys2Proof.Recorder

/-! ### Numbers in byte strings (R5) -/

theorem leNat_leBytes (n v : Nat) : leNat (leBytes n v) = v % 256 ^ n := by
  induction n generalizing v with
  | zero => simp [leBytes, leNat, Nat.mod_one]
  | succ n ih =>
    have hlow : (BitVec.ofNat 8 v).toNat = v % 256 := by simp
    rw [leBytes, leNat, ih, hlow, Nat.pow_succ, Nat.mul_comm (256 ^ n), Nat.mod_mul]

/-- What follows other bytes is read at its place. -/
theorem leAt_append_right {a : List Byte} (b : List Byte) {o : Nat} (n : Nat) (h : a.length ≤ o) : leAt (a ++ b) o n = leAt b (o - a.length) n := by
  rw [leAt, List.drop_append, List.drop_eq_nil_of_le h, List.nil_append, leAt]

theorem leAt_leBytes_append (n v : Nat) (b : List Byte) : leAt (leBytes n v ++ b) 0 n = v % 256 ^ n := by
  rw [leAt, List.drop_zero, List.take_left' (length_leBytes n v), leNat_leBytes]

theorem leAt_leBytes (n v : Nat) : leAt (leBytes n v) 0 n = v % 256 ^ n := by
  simpa using leAt_leBytes_append n v []

end Sys2Proof.Mailbox

namespace Sys2Proof.Corrections

open Sys2Proof Sys2Proof.Machine Sys2Proof.Mailbox Sys2Proof.Frame Sys2Proof.Recorder

/-! ### Measurements and navigation units (R313, R316) -/

section Reads

variable {s : State} {h : Nat}

/-- What GNS_MEAS_READ says of an epoch before its records: sequence number, instant, step; count, flags, a reserved byte, clock. -/
def epochHead (e : GnsEpoch) : List Byte × List Byte :=
  (leBytes 4 e.seq ++ leBytes 8 e.tep ++ leBytes 4 e.step.toNat,
    leBytes 1 (bit e.tb0v 0 + bit e.clkStep 1) ++ leBytes 1 0 ++ leBytes 4 (unsigned 32 e.clkb) ++ leBytes 4 (unsigned 32 e.clkd) ++ leBytes 4 0)

theorem length_epochHead (e : GnsEpoch) : (epochHead e).1.length = 16 ∧ (epochHead e).2.length = 14 := by simp [epochHead, length_leBytes]

/-- The response for an epoch that is held. -/
def epochBody (e : GnsEpoch) (first count : Nat) : List Byte :=
  (epochHead e).1 ++ (leBytes 2 e.recs.length ++ ((epochHead e).2 ++ ((e.recs.drop first).take count).flatten))

theorem measRead_held {n : Nat} {e : GnsEpoch} (he : epochOf s n = some e) (first count : Nat) :
    measRead s n first count = (s, epochBody e first count) := by
  simp only [measRead, he, epochBody, epochHead, List.append_assoc]

theorem epochBody_spec (e : GnsEpoch) (first count : Nat) :
    leAt (epochBody e first count) 0 4 = e.seq % 2 ^ 32 ∧ leAt (epochBody e first count) 16 2 = e.recs.length % 65536 ∧
      (epochBody e first count).drop 32 = ((e.recs.drop first).take count).flatten := by
  obtain ⟨h1, h2⟩ := length_epochHead e
  refine ⟨?_, ?_, ?_⟩
  · rw [epochBody, epochHead]
    simp only [List.append_assoc]
    exact leAt_leBytes_append _ _ _
  · rw [epochBody, leAt_append_right _ _ (by omega), h1]
    exact leAt_leBytes_append _ _ _
  · rw [epochBody, ← List.append_assoc, ← List.append_assoc, List.drop_left']
    simp [h1, h2, length_leBytes]

/-- The twenty bytes of the response that are free where no epoch is held. -/
def freeBytes (s : State) (a b : Nat) : List Byte := (List.range b).map fun k => Config.freeByte (fresh s).1 (a + k)

theorem length_freeBytes (s : State) (a b : Nat) : (freeBytes s a b).length = b := by simp [freeBytes]

/-- The response for an epoch that is not held. -/
def goneBody (s : State) (n : Nat) : List Byte :=
  leBytes 4 n ++ (freeBytes s 0 12 ++ (leBytes 2 0 ++ (leBytes 1 4 ++ (leBytes 1 0 ++ (freeBytes s 12 8 ++ leBytes 4 0)))))

theorem measRead_gone {n : Nat} (he : epochOf s n = none) (first count : Nat) : measRead s n first count = ((fresh s).2, goneBody s n) := by
  simp only [measRead, he, goneBody, freeBytes, List.append_assoc]

theorem goneBody_spec (s : State) (n : Nat) :
    leAt (goneBody s n) 0 4 = n % 2 ^ 32 ∧ leAt (goneBody s n) 16 2 = 0 ∧ leAt (goneBody s n) 18 1 = 4 ∧ (goneBody s n).length = 32 := by
  have hhead : ∀ (m o : Nat), 16 ≤ o → leAt (goneBody s n) o m = leAt (leBytes 2 0 ++ (leBytes 1 4 ++ (leBytes 1 0 ++ (freeBytes s 12 8 ++ leBytes 4 0)))) (o - 16) m := by
    intro m o ho
    rw [goneBody, leAt_append_right _ _ (by rw [length_leBytes]; omega), leAt_append_right _ _ (by rw [length_leBytes, length_freeBytes]; omega),
      length_leBytes, length_freeBytes]
    congr 1
  refine ⟨?_, ?_, ?_, ?_⟩
  · exact leAt_leBytes_append _ _ _
  · rw [hhead _ _ (by decide)]
    exact leAt_leBytes_append _ _ _
  · rw [hhead _ _ (by decide), leAt_append_right _ _ (by rw [length_leBytes]), length_leBytes]
    exact leAt_leBytes_append _ _ _
  · simp [goneBody, length_leBytes, length_freeBytes]

section Meas
variable (hs : starts s h 0x20) (hcount : leAt (req s h) 6 2 ≤ 120)
include hs hcount

theorem gnsMeasRead_held {e : GnsEpoch} (he : epochOf s (leAt (req s h) 0 4) = some e) : answers (.gnsMeasRead h) s fun t =>
    responded s t h stOk (bodyOf s t h) ∧ leAt (bodyOf s t h) 0 4 = e.seq % 2 ^ 32 ∧ leAt (bodyOf s t h) 16 2 = e.recs.length % 65536 ∧
      (bodyOf s t h).drop 32 = ((e.recs.drop (leAt (req s h) 4 2)).take (leAt (req s h) 6 2)).flatten ∧ t.regs = s.regs ∧ otherSlots s t h ∧
      partsBut s t [.sys, .hif] := by
  have hrun : plain (measCmd (begun s h) (req s h)) = plain (okBody (begun s h) (epochBody e (leAt (req s h) 4 2) (leAt (req s h) 6 2))) := by
    rw [measCmd, if_neg (Nat.not_lt.2 hcount), measRead_held (s := begun s h) he]
  obtain ⟨t, hexec, hans, hregs, hslots, hparts⟩ := answers_ok_only (i := .gnsMeasRead h) (run := fun s p => plain (measCmd s p)) hs rfl hrun
  have hbody := bodyOf_of_responded hans.1
  obtain ⟨hseq, hnum, hrecs⟩ := epochBody_spec e (leAt (req s h) 4 2) (leAt (req s h) 6 2)
  refine ⟨t, hexec, ?_⟩
  dsimp only
  rw [hbody]
  exact ⟨hans.1, hseq, hnum, hrecs, hregs, hslots, hparts⟩

theorem gnsMeasRead_gone (he : epochOf s (leAt (req s h) 0 4) = none) : answers (.gnsMeasRead h) s fun t =>
    responded s t h stOk (bodyOf s t h) ∧ leAt (bodyOf s t h) 0 4 = leAt (req s h) 0 4 ∧ leAt (bodyOf s t h) 16 2 = 0 ∧ leAt (bodyOf s t h) 18 1 = 4 ∧
      (bodyOf s t h).length = 32 ∧ t.regs = s.regs ∧ otherSlots s t h ∧ partsBut s t [.sys, .hif, .free] := by
  have hrun : plain (measCmd (begun s h) (req s h)) = plain (okBody (fresh (begun s h)).2 (goneBody (begun s h) (leAt (req s h) 0 4))) := by
    rw [measCmd, if_neg (Nat.not_lt.2 hcount), measRead_gone (s := begun s h) he]
  refine answers_ok (run := fun s p => plain (measCmd s p)) (l := [.free]) hs rfl hrun (fresh_keeps _ (fun _ hp => hp) (.refl _ _)) (by decide) (by decide)
    fun t hsame hans hslots hparts => ?_
  obtain ⟨hseq, hnum, hflag, hlen⟩ := goneBody_spec (begun s h) (leAt (req s h) 0 4)
  rw [bodyOf_of_responded hans.1]
  exact ⟨hans.1, hseq.trans (Nat.mod_eq_of_lt (leAt_lt _ _ _)), hnum, hflag, hlen, hsame .regs (by decide), hslots, partsBut_mono hparts (by decide)⟩

end Meas

theorem gnsNavRead_answers (hs : starts s h 0x21) : answers (.gnsNavRead h) s fun t =>
    answered s t h (navRead s (leAt (req s h) 0 4) (leAt (req s h) 4 1)) ∧ t.regs = s.regs ∧ otherSlots s t h ∧ partsBut s t [.sys, .hif] :=
  answers_ok_only (run := fun s p => plain (okBody s (navRead s (leAt p 0 4) (leAt p 4 1)))) hs rfl rfl

end Reads

/-! ### Corrections (R318, R320, R321) -/

section Rtcm

variable {s : State} {h t : Nat} {b : List Byte}

/-- Bytes that begin no frame are passed over. -/
theorem rtcmParse_of_no_preamble (hb : b.all (fun x => decide (x ≠ 0xD3#8)) = true) {n : Nat} (hn : b.length < n) : rtcmParse n s h t b = (s, []) := by
  induction b generalizing n with
  | nil =>
    obtain ⟨n, rfl⟩ := Nat.exists_eq_succ_of_ne_zero (Nat.ne_of_gt hn)
    rfl
  | cons x r ih =>
    obtain ⟨n, rfl⟩ := Nat.exists_eq_succ_of_ne_zero (Nat.ne_of_gt (Nat.lt_of_le_of_lt (Nat.zero_le _) hn))
    obtain ⟨hx, hr⟩ : x ≠ 0xD3#8 ∧ r.all (fun x => decide (x ≠ 0xD3#8)) = true := by simpa using hb
    have hlen : r.length < n := by simpa using hn
    rw [rtcmParse]
    simp only [hx, ne_eq, not_false_eq_true, if_true]
    exact ih hr hlen

/-- The length that the head of a frame gives its message. -/
def frameLen (b : List Byte) : Nat := (b.getD 1 0).toNat % 4 * 256 + (b.getD 2 0).toNat

/-- A byte string that is one frame with a good CRC is one message. -/
theorem rtcmParse_one (hb : b.getD 0 0 = 0xD3#8) (hlen : b.length = frameLen b + 6) (hcrc : crc24q b = 0) {n : Nat} :
    rtcmParse (n + 2) s h t b = (rtcmFrame s h t ((b.drop 3).take (frameLen b)), []) := by
  obtain ⟨x, r, rfl⟩ : ∃ x r, b = x :: r := List.exists_cons_of_length_pos (by omega)
  have hx : x = 0xD3#8 := hb
  have h3 : ¬ (x :: r).length < 3 := by omega
  have hwhole : ¬ (x :: r).length < frameLen (x :: r) + 6 := by omega
  have htake : (x :: r).take (frameLen (x :: r) + 6) = x :: r := List.take_of_length_le (by omega)
  have hdrop : (x :: r).drop (frameLen (x :: r) + 6) = [] := List.drop_eq_nil_of_le (by omega)
  rw [rtcmParse]
  simp only [hx, ne_eq, not_true_eq_false, if_false]
  rw [hx] at h3 hwhole htake hdrop hcrc
  unfold frameLen at *
  simp only [h3, hwhole, htake, hdrop, hcrc, if_false, if_true]
  rfl

theorem rtcmBits_type (m : List Byte) {n : Nat} (hn : 2 ≤ n) : rtcmBits (m.take n) 0 12 = rtcmBits m 0 12 := by
  refine List.foldl_ext _ _ _ fun a k hk => ?_
  have hk' : (0 + k) / 8 < n := by
    have := List.mem_range.1 hk
    omega
  rw [List.getD_eq_getElem?_getD, List.getD_eq_getElem?_getD, List.getElem?_take_of_lt hk']

/-- Slot `h` becomes the source. -/
def sourced (s : State) (h : Nat) : State :=
  setB (setF { s with gns := { s.gns with lastSrc := some h } } GNS_STAT_SRC h) GNS_STAT_SRCV true

/-- Another slot was the source before. -/
def sourceChanges (s : State) (h : Nat) : Bool := match s.gns.lastSrc with
  | some o => decide (o ≠ h)
  | none => false

/-- The change from another source is recorded. -/
def newSource (s : State) (h : Nat) : State :=
  if sourceChanges s h then record (sourced s h) 0x9004 noInst (leBytes 2 h) else sourced s h

theorem newSource_spec (s : State) {h : Nat} (hh : h < 4) :
    flag (newSource s h) GNS_STAT_SRCV = true ∧ getF (newSource s h) GNS_STAT_SRC = h ∧
      getF (newSource s h) GNS_CNT_RTCM_CNT = getF s GNS_CNT_RTCM_CNT ∧ Keeps (· ∈ [.regs, .gns, .recd]) s (newSource s h) := by
  have hkeeps : Keeps (· ∈ [.regs, .gns, .recd]) s (sourced s h) :=
    setB_keeps _ _ _ (allows_of_subset (by decide)) (setF_keeps _ _ _ (allows_of_subset (by decide)) (Keeps.put_gns (by decide) (.refl _ s)))
  have hflag : flag (sourced s h) GNS_STAT_SRCV = true := flag_setB _ _ _ (by decide)
  have hsrc : getF (sourced s h) GNS_STAT_SRC = h := by
    rw [sourced, getF_setB_apart (by decide), getF_setF _ _ _ (by decide)]
    exact Nat.mod_eq_of_lt hh
  have hcnt : getF (sourced s h) GNS_CNT_RTCM_CNT = getF s GNS_CNT_RTCM_CNT := by
    rw [sourced, getF_setB_apart (by decide), getF_setF_apart (by decide)]
    rfl
  unfold newSource
  split_ifs
  · rw [flag_record _ _ _ _ (by decide), getF_record _ _ _ _ (by decide), getF_record _ _ _ _ (by decide)]
    exact ⟨hflag, hsrc, hcnt, record_keeps _ _ _ _ (allows_of_subset (by decide)) hkeeps⟩
  · exact ⟨hflag, hsrc, hcnt, hkeeps⟩

/-- A message of the source is counted, and the source was heard. -/
def counted (s : State) (t : Nat) : State := bump { s with gns := { s.gns with srcAt := t } } GNS_CNT_RTCM_CNT

/-- The age of the corrections starts anew. -/
def renewed (s : State) (t : Nat) : State := showAge { s with gns := { s.gns with corrAt := some t, lost := false } } t

/-- A message of corrections from the new source. -/
def corrected (s : State) (h t : Nat) : State := renewed (counted (newSource s h) t) t

theorem rtcmFrame_corrections {m : List Byte} (hknown : rtcmKnown (rtcmBits m 0 12) = true) (hty : rtcmBits m 0 12 ∉ [1005, 1006, 1033])
    (hfree : flag s GNS_STAT_SRCV = false) : rtcmFrame s h t m = corrected s h t := by
  obtain ⟨h5, h6, h33⟩ : rtcmBits m 0 12 ≠ 1005 ∧ rtcmBits m 0 12 ≠ 1006 ∧ rtcmBits m 0 12 ≠ 1033 := by simpa using hty
  have hbase : rtcmBase (rtcmBits m 0 12) = false := by simp [rtcmBase, h5, h6]
  simp only [rtcmFrame, useMessage, hknown, hfree, hbase, h33, Bool.not_true, Bool.not_false, Bool.false_eq_true, if_false, Bool.true_and, Bool.false_and,
    ne_eq, not_false_eq_true, decide_true, if_true, Bool.and_true]
  rfl

theorem corrected_spec (s : State) {h : Nat} (hh : h < 4) (t : Nat) :
    flag (corrected s h t) GNS_STAT_SRCV = true ∧ getF (corrected s h t) GNS_STAT_SRC = h ∧ (corrected s h t).gns.srcAt = t ∧
      (corrected s h t).gns.corrAt = some t ∧ (corrected s h t).gns.lost = false ∧
      getF (corrected s h t) GNS_CNT_RTCM_CNT = min (getF s GNS_CNT_RTCM_CNT + 1) (2 ^ GNS_CNT_RTCM_CNT.width - 1) ∧
      Keeps (· ∈ [.regs, .gns, .recd]) s (corrected s h t) := by
  obtain ⟨hflag, hsrc, hcnt, hkeeps⟩ := newSource_spec s hh
  unfold corrected
  refine ⟨?_, ?_, rfl, rfl, rfl, ?_, ?_⟩
  · rw [renewed, showAge, flag_setF_apart (by decide)]
    exact (flag_bump_apart (by decide) 1).trans hflag
  · rw [renewed, showAge, getF_setF_apart (by decide)]
    exact (getF_bump_apart (by decide) 1).trans hsrc
  · rw [renewed, showAge, getF_setF_apart (by decide), ← hcnt]
    exact getF_bump _ GNS_CNT_RTCM_CNT 1 (by decide)
  · exact showAge_keeps _ _ (allows_of_subset (by decide))
      (Keeps.put_gns (by decide) (bump_keeps _ _ _ (allows_of_subset (by decide)) (Keeps.put_gns (by decide) hkeeps)))

section Write
variable (hs : starts s h 0x22) (hempty : sparseGet (fun _ => []) s.gns.rtcm h = ([] : List Byte))
include hs hempty

/-- The state after the bytes of a request have been parsed, nothing being left of them. -/
def drained (u : State) (h : Nat) : State := { u with gns := { u.gns with rtcm := sparseSet (fun _ => []) u.gns.rtcm h [] } }

omit hs hempty in
theorem drained_gns (u : State) (h : Nat) : (drained u h).gns = { u.gns with rtcm := sparseSet (fun _ => []) u.gns.rtcm h [] } := rfl

omit hs in
theorem rtcmFeed_drained {u : State} {p : List Byte} (hp : rtcmParse (p.length + 1) s h (nextBoundary s) p = (u, [])) :
    rtcmFeed s h p = drained u h := by
  simp only [rtcmFeed, hempty, List.nil_append, hp, drained]

theorem rtcmWrite_passes (hp : (req s h).all (fun b => decide (b ≠ 0xD3#8)) = true) : answers (.rtcmWrite h) s fun t =>
    answered s t h [] ∧ (∀ g, sparseGet (fun _ => []) t.gns.rtcm g = sparseGet (fun _ => []) s.gns.rtcm g) ∧
      { t.gns with rtcm := s.gns.rtcm } = s.gns ∧ t.regs = s.regs ∧ otherSlots s t h ∧ partsBut s t [.gns, .sys, .hif] := by
  have hrun := congrArg (fun u => plain (okBody u []))
    (rtcmFeed_drained (s := begun s h) hempty (rtcmParse_of_no_preamble (t := nextBoundary s) hp (Nat.lt_succ_self _)))
  refine answers_ok (run := fun s p => plain (okBody (rtcmFeed s h p) [])) (l := [.gns]) hs rfl hrun (Keeps.put_gns (by decide) (.refl _ _)) (by decide)
    (by decide) fun t hsame hans hslots hparts => ?_
  have hgns : t.gns = { s.gns with rtcm := sparseSet (fun _ => []) s.gns.rtcm h [] } := hsame .gns (by decide)
  refine ⟨hans, fun g => ?_, by rw [hgns], hsame .regs (by decide), hslots, hparts⟩
  rw [hgns]
  by_cases hg : g = h
  · subst hg
    rw [sparseGet_set, hempty]
  · rw [sparseGet_set_ne _ _ _ _ _ hg]

theorem rtcmWrite_one (hpre : (req s h).getD 0 0 = 0xD3#8)
    (hlen : (req s h).length = ((req s h).getD 1 0).toNat % 4 * 256 + ((req s h).getD 2 0).toNat + 6) (hcrc : crc24q (req s h) = 0)
    (hknown : rtcmKnown (rtcmBits ((req s h).drop 3) 0 12) = true) (hty : rtcmBits ((req s h).drop 3) 0 12 ∉ [1005, 1006, 1033])
    (hlong : 5 ≤ (req s h).length - 3) (hfree : flag s GNS_STAT_SRCV = false) : answers (.rtcmWrite h) s fun t =>
      answered s t h [] ∧ flag t GNS_STAT_SRCV = true ∧ getF t GNS_STAT_SRC = h ∧ t.gns.srcAt = nextBoundary s ∧
        t.gns.corrAt = some (nextBoundary s) ∧ t.gns.lost = false ∧ getF t GNS_CNT_RTCM_CNT = min (getF s GNS_CNT_RTCM_CNT + 1) (2 ^ GNS_CNT_RTCM_CNT.width - 1) ∧
        otherSlots s t h ∧ partsBut s t [.regs, .gns, .sys, .hif, .recd] := by
  have hnext : nextBoundary (begun s h) = nextBoundary s := rfl
  have htwo : 2 ≤ frameLen (req s h) := by
    unfold frameLen
    omega
  obtain ⟨n, hn⟩ : ∃ n, (req s h).length + 1 = n + 2 := ⟨(req s h).length - 1, by omega⟩
  have hparse : rtcmParse ((req s h).length + 1) (begun s h) h (nextBoundary (begun s h)) (req s h) = (corrected (begun s h) h (nextBoundary s), []) := by
    rw [hn, rtcmParse_one hpre hlen hcrc, rtcmFrame_corrections (s := begun s h), hnext]
    · rwa [rtcmBits_type _ htwo]
    · rwa [rtcmBits_type _ htwo]
    · exact hfree
  have hrun := congrArg (fun u => plain (okBody u [])) (rtcmFeed_drained (s := begun s h) hempty hparse)
  obtain ⟨hflag, hsrc, hat, hcorr, hlost, hcnt, hkeeps⟩ := corrected_spec (begun s h) hs.1 (nextBoundary s)
  refine answers_ok (run := fun s p => plain (okBody (rtcmFeed s h p) [])) hs rfl hrun (Keeps.put_gns (by decide) hkeeps) (by decide) (by decide)
    fun t hsame hans hslots hparts => ?_
  have hregs : t.regs = (corrected (begun s h) h (nextBoundary s)).regs := hsame .regs (by decide)
  have hgns := (hsame .gns (by decide)).trans (drained_gns (corrected (begun s h) h (nextBoundary s)) h)
  rw [flag_of_regs hregs, getF_of_regs hregs, getF_of_regs hregs, hgns]
  exact ⟨hans, hflag, hsrc, hat, hcorr, hlost, hcnt, hslots, partsBut_mono hparts (by decide)⟩

end Write

end Rtcm

/-- Settles O51: the reads answer what the epoch and the units hold; a request is parsed into frames, and one frame of corrections makes its slot the source. -/
theorem measurementsAndCorrections : Obligations.MeasurementsAndCorrections := by
  unfold Obligations.MeasurementsAndCorrections
  refine ⟨fun s h hs hcount => ⟨fun e he => gnsMeasRead_held hs hcount he, gnsMeasRead_gone hs hcount⟩, fun s h hs => gnsNavRead_answers hs, ?_⟩
  intro s h hs hempty
  exact ⟨rtcmWrite_passes hs hempty, fun hpre hlen hcrc hknown hty hlong hfree => rtcmWrite_one hs hempty hpre hlen hcrc hknown hty hlong hfree⟩

end Sys2Proof.Corrections

namespace Sys2Proof.Sessions

open Sys2Proof Sys2Proof.Machine Sys2Proof.Counterexample

/-- The firmware is up, and slot 0, whose port may take every role, is not attached: its ATTACH as OPERATOR waits. It still keeps the HI
word of a time that a read of its last session latched. -/
def latchedSlot : State :=
  let s := setF { State.reset with sys := { State.reset.sys with phase := .up, running := true } } (HIF_H_CFG_ROLES 0) 15
  modSlot s 0 fun x => { x with
    ring := [{ code := 0x02, ordered := false, htag := 0, payload := [1#8, 0#8, 0#8, 0#8], seq := 0, reject := 0 }],
    hiLatch := [(TIM_TB_NOW_HI 0, some 5#32)] }

theorem latchedSlot_starts : starts latchedSlot 0 0x02 ∧ attachStatus latchedSlot 0 (req latchedSlot 0) = stOk ∧ attached latchedSlot 0 = false := by
  unfold starts
  refine ⟨?_, ?_⟩ <;> decide +kernel

theorem latchedSlot_keeps_latch : (slotOf (nextOf (.attach 0) latchedSlot) 0).hiLatch ≠ [] := by decide +kernel

/-- Refutes O46: a slot that attaches anew keeps the HI words that reads of its last session latched (`attachSlot` clears its selectors alone), as in
`latchedSlot`. -/
theorem not_sessionCommands : ¬ Obligations.SessionCommands := by
  unfold Obligations.SessionCommands
  rintro ⟨-, hsessions⟩
  obtain ⟨hattach, -⟩ := hsessions latchedSlot 0
  obtain ⟨hs, hstatus, hfree⟩ := latchedSlot_starts
  obtain ⟨-, -, -, hlatch, -⟩ := of_answers (hattach hs hstatus hfree)
  exact latchedSlot_keeps_latch hlatch

end Sys2Proof.Sessions

namespace Sys2Proof.Parameters

open Sys2Proof Sys2Proof.Machine Sys2Proof.Mailbox Sys2Proof.Frame Sys2Proof.Recorder

/-! ### Commands that move something of their own slot -/

section Own

variable {s u : State} {h code : Nat} {l : List Part} {body : List Byte} {i : Instr} {P : State → Prop} {run : State → List Byte → CmdOut}

/-- No slot but `h` has moved, and the requests of that one stand. -/
def OwnSlot (s u : State) (h : Nat) : Prop := otherSlots s u h ∧ (slotOf u h).ring = (slotOf s h).ring

theorem OwnSlot.refl (s : State) (h : Nat) : OwnSlot s s h := ⟨fun _ _ => rfl, rfl⟩

theorem ring_begun (s : State) (h : Nat) : (slotOf (begun s h) h).ring = (slotOf s h).ring.tail := by
  rw [show slotOf (begun s h) h = { slotOf s h with ring := (slotOf s h).ring.tail } from slotOf_modSlot s h _]

/-- A command that answers OK and moves, of the host interface, only its own slot beside the requests. -/
theorem answers_ok_own (hs : starts s h code) (hexec : exec i s = row h (runCmd s h (isCode code) run))
    (hrun : run (begun s h) (req s h) = plain (okBody u body)) (hown : OwnSlot (begun s h) u h) (hu : Keeps (· ∈ l) (begun s h) u) (hnow : .now ∉ l)
    (hP : ∀ t, (∀ p, p ∉ [Part.sys, .hif] → samePart u t p) → answered s t h body → otherSlots s t h → partsBut s t (l ++ [.sys, .hif]) → P t) :
    answers i s P := by
  obtain ⟨hothers, hring⟩ := hown
  refine answers_of_kind hs (isCode_front hs) hexec hrun (hP _ (fun _ hp => samePart_completed_ok rfl rfl hp)
    ⟨completed_responded s h rfl rfl (hu.same .now hnow), ?_⟩
    (otherSlots_completed rfl fun g hg => (hothers g hg).trans (otherSlots_begun s h g hg)) (partsBut_completed_ok rfl rfl hu))
  exact (ring_respond h (u := u) _).trans (hring.trans (ring_begun s h))

end Own

/-! ### Reads (R7, R12, R405) -/

section Reads

variable {s : State} {h i : Nat} {r : RegRow} {p : List Byte}

/-- The response that gives one register. -/
def oneWord (w : Word) : List Byte := leBytes 2 1 ++ leBytes 2 0xFFFF ++ leBytes 4 w.toNat

/-- The read is a peek, or the slot observes only. -/
def peeks (s : State) (h : Nat) (p : List Byte) : Bool := decide (leAt p 2 2 = 1) || decide (roleOf s h = 2)

/-- PARAM_READ of one register that is assigned. -/
theorem paramRead_one (h1 : leAt p 0 2 = 1) (hn : leAt p 6 2 = 1) (hp : leAt p 2 2 < 2) (hr : regRow (leAt p 4 2) = some r) :
    paramRead s h p = okBody (readReg s (rspFull s) h (peeks s h p) (leAt p 4 2)).1
      (oneWord (readReg s (rspFull s) h (peeks s h p) (leAt p 4 2)).2) := by
  have hpast : ¬ 0x10000 < leAt p 4 2 + 1 := by
    have := leAt_lt p 4 2
    omega
  have hp' : ¬ 2 ≤ leAt p 2 2 := by omega
  simp [paramRead, readIndices_one h1 hn, h1, hn, hp', hpast, regAssigned, hr, readRegs, wordBytes, okBody, oneWord, peeks]

/-- A HI word may have been latched for the slot, and nothing else has happened. -/
theorem latchHi_spec (s : State) (h : Nat) (c : Bool) (l : Sparse (Option Word) → Sparse (Option Word)) :
    OwnSlot s (if c then modSlot s h fun x => { x with hiLatch := l x.hiLatch } else s) h ∧
      Keeps (· ∈ [.hif]) s (if c then modSlot s h fun x => { x with hiLatch := l x.hiLatch } else s) := by
  split
  · exact ⟨⟨fun g hg => slotOf_modSlot_ne _ _ hg, by rw [slotOf_modSlot]⟩, modSlot_keeps _ _ _ (fun _ hp => hp) (.refl _ _)⟩
  · exact ⟨.refl _ _, .refl _ _⟩

theorem readReg_peek (s : State) (full : Nat → Bool) (h i : Nat) :
    OwnSlot s (readReg s full h true i).1 h ∧ Keeps (· ∈ [.hif]) s (readReg s full h true i).1 := by
  unfold readReg
  split
  · exact ⟨.refl _ _, .refl _ _⟩
  · exact latchHi_spec s h (isLo i) fun l => sparsePut l (i + 1) (some (regView s full h (i + 1)))

section Peek
variable (hs : starts s h 0x08) (hone : readsOne s h true) (hr : regRow (asked s h) = some r)
include hs hone hr

theorem paramRead_peek : answers (.paramRead h) s fun t =>
    answered s t h (leBytes 2 1 ++ leBytes 2 0xFFFF ++ leBytes 4 ((readReg (begun s h) (rspFull (begun s h)) h true (asked s h)).2).toNat) ∧
      t.regs = s.regs ∧ otherSlots s t h ∧ partsBut s t [.sys, .hif] := by
  obtain ⟨h1, hp, hn⟩ := hone
  rw [if_pos rfl] at hp
  have hpeek : peeks (begun s h) h (req s h) = true := by simp [peeks, hp]
  have hrun := congrArg plain (paramRead_one (s := begun s h) (h := h) h1 hn (by omega) hr)
  rw [hpeek] at hrun
  obtain ⟨hown, hkeeps⟩ := readReg_peek (begun s h) (rspFull (begun s h)) h (asked s h)
  exact answers_ok_own (run := fun s p => plain (paramRead s h p)) hs rfl hrun hown hkeeps (by decide)
    fun t hsame hans hslots hparts => ⟨hans, (hsame .regs (by decide)).trans (hkeeps.same .regs (by decide)), hslots, partsBut_mono hparts (by decide)⟩

end Peek

omit s h r p in
theorem page_of_isSelector (hi : isSelector i = true) : i < 0x1600 ∨ 0x2400 ≤ i := by
  have hall : ∀ x ∈ [KIN_CH_SEL, SCH_SLOT_SEL, SCH_CH_SEL, MAP_CH_SEL, ACT_CH_SEL, GNS_SLOT_SEL, FJL_CH_SEL 0, FJL_CH_SEL 1,
      CAN_TXB_SEL 0, CAN_TXB_SEL 1, CAN_TXB_SEL 2, CAN_TXB_SEL 3], x < 0x1600 ∨ 0x2400 ≤ x := by decide
  exact hall i (List.contains_iff_mem.1 hi)

/-- Pages 0x16 to 0x23 hold registers that read what they hold: no slot's own copies, no value formed at the read. -/
theorem regView_shown (full : Nat → Bool) (hlo : 0x1600 ≤ i) (hhi : i < 0x2400) : regView s full h i = rd s i := by
  have hwin : isWindow i = false := by
    simp only [isWindow, inRange, Bool.or_eq_false_iff, decide_eq_false_iff_not]
    omega
  have hsel : isSelector i = false := by
    by_contra hsel
    have := page_of_isSelector (by simpa using hsel)
    omega
  have hring : ringWin i = none := by
    have hpage : ringPage i = false := by simp only [ringPage, inRange, decide_eq_false_iff_not]; omega
    simp [ringWin, hpage]
  have hcan : canPage i = false := by simp only [canPage, inRange, decide_eq_false_iff_not]; omega
  have hgns : gnsWaits i = false := by simp only [gnsWaits, inRange, decide_eq_false_iff_not]; omega
  have hcfg : i ≠ GNS_SLOT_CFG := by grind
  have hstep : i ≠ SYS_STEP_CNT := by grind
  have hrec : i ≠ REC_STAT := by grind
  have hstat : inRange 0x0110 0x012F i = false := by simp only [inRange, decide_eq_false_iff_not]; omega
  have htb : inRange 0x2810 0x284F i = false := by simp only [inRange, decide_eq_false_iff_not]; omega
  simp [regView, hwin, hsel, hring, hcan, hgns, hcfg, hstep, hrec, hstat, htb]

/-- Its word as a read gives it, and what the read leaves. -/
theorem readReg_shown (full : Nat → Bool) (peek : Bool) (hr : regRow i = some r) (hshown : shown s h i) :
    (readReg s full h peek i).2 = rd s i &&& ~~~ r.wo ∧
      (peek = false → rd (readReg s full h false i).1 i = rd s i &&& ~~~ r.rc ∧ regsBut s (readReg s full h false i).1 [i] ∧
        OwnSlot s (readReg s full h false i).1 h ∧ Keeps (· ∈ [.regs]) s (readReg s full h false i).1) := by
  obtain ⟨hlo, hhi, hlatch⟩ := hshown
  have hisLo : isLo i = false := by
    have hcan : canPage i = false := by simp only [canPage, inRange, decide_eq_false_iff_not]; omega
    have htb : inRange 0x2810 0x284F i = false := by simp only [inRange, decide_eq_false_iff_not]; omega
    simp only [isLo, hcan, htb, Bool.false_and, Bool.or_false, List.contains_eq_mem, List.mem_cons, List.not_mem_nil, or_false, decide_eq_false_iff_not]
    omega
  have hcells : i ≠ MAP_CH_CELLS := by grind
  have hsch : i ≠ SCH_STAT := by grind
  have hmon : ∀ t, monRead t i = t := fun t => by rw [monRead, if_neg (by omega)]
  constructor
  · simp only [readReg, hr, hlatch, hisLo, regView_shown full hlo hhi]
    split_ifs <;> rfl
  · intro _
    simp only [readReg, hr, hisLo, Bool.false_eq_true, if_false, hcells, hsch, hmon]
    split_ifs with hrc
    · exact ⟨by rw [hrc]; exact BitVec.and_allOnes.symm, regsBut_refl _ _, .refl _ _, .refl _ _⟩
    · refine ⟨rd_wr_self _ _ _, regsBut_wr (regsBut_refl _ _) (List.mem_singleton_self i) _, ⟨fun _ _ => rfl, rfl⟩, wr_keeps _ _ _ (fun _ hp => hp) (.refl _ _)⟩

section Shown
variable (hs : starts s h 0x08) (hr : regRow (asked s h) = some r) (hshown : shown s h (asked s h))
include hs hr hshown

omit hs hr in
theorem shown_begun : shown (begun s h) h (asked s h) := by
  obtain ⟨hlo, hhi, hlatch⟩ := hshown
  have hslot : slotOf (begun s h) h = { slotOf s h with ring := (slotOf s h).ring.tail } := slotOf_modSlot s h _
  exact ⟨hlo, hhi, by rw [hslot]; exact hlatch⟩

theorem paramRead_shown_peek (hone : readsOne s h true) : answers (.paramRead h) s fun t =>
    answered s t h (leBytes 2 1 ++ leBytes 2 0xFFFF ++ leBytes 4 (rd s (asked s h) &&& ~~~ r.wo).toNat) := by
  obtain ⟨t, hexec, hans, -⟩ := paramRead_peek hs hone hr
  have hword := (readReg_shown (s := begun s h) (rspFull (begun s h)) true hr (shown_begun hshown)).1
  rw [hword] at hans
  exact ⟨t, hexec, hans⟩

theorem paramRead_shown_clears (hone : readsOne s h false) (hrole : roleOf s h ≠ 2) : answers (.paramRead h) s fun t =>
    answered s t h (leBytes 2 1 ++ leBytes 2 0xFFFF ++ leBytes 4 (rd s (asked s h) &&& ~~~ r.wo).toNat) ∧
      rd t (asked s h) = rd s (asked s h) &&& ~~~ r.rc ∧ regsBut s t [asked s h] ∧ partsBut s t [.regs, .sys, .hif] := by
  obtain ⟨h1, hp, hn⟩ := hone
  rw [if_neg (by decide)] at hp
  have hrole' : roleOf (begun s h) h ≠ 2 := hrole
  have hpeek : peeks (begun s h) h (req s h) = false := by simp [peeks, hp, hrole']
  have hrun := congrArg plain (paramRead_one (s := begun s h) (h := h) h1 hn (by omega) hr)
  obtain ⟨hword, hleft⟩ := readReg_shown (s := begun s h) (rspFull (begun s h)) false hr (shown_begun hshown)
  obtain ⟨hrc, hregs, hown, hkeeps⟩ := hleft rfl
  rw [hpeek, show leAt (req s h) 4 2 = asked s h from rfl, hword] at hrun
  refine answers_ok_own (run := fun s p => plain (paramRead s h p)) hs rfl hrun hown hkeeps (by decide)
    fun t hsame hans _ hparts => ⟨hans, ?_, ?_, hparts⟩
  · rw [rd_of_regs (hsame .regs (by decide)), hrc]
    rfl
  · exact regsBut_put (regsBut_before hregs rfl) (hsame .regs (by decide))

end Shown

theorem paramRead_reserved (hs : starts s h 0x08) (hi : regAssigned (asked s h) = false) (hone : readsOne s h true) : answers (.paramRead h) s fun t =>
    responded s t h stUnknownIndex (leBytes 2 1 ++ leBytes 2 0 ++ leBytes 4 0) ∧ regsBut s t [HIF_H_CNT_REJ h] ∧ partsBut s t [.regs, .sys, .hif] := by
  obtain ⟨h1, hp, hn⟩ := hone
  rw [if_pos rfl] at hp
  have hrun := congrArg plain (paramRead_unassigned (begun s h) h h1 hn (by omega) hi)
  obtain ⟨t, hexec, hresp, hregs, -, hparts⟩ := answers_without_effect (i := .paramRead h) (fun s p => plain (paramRead s h p)) hs rfl hrun
  exact ⟨t, hexec, hresp, hregs, hparts⟩

end Reads

/-! ### Writes (R406) -/

section Writes

variable {s : State} {h : Nat}

/-- A failure has a status other than OK. -/
theorem checkItems_ne_ok {l : List WItem} {k : Nat} {e : Nat × Nat} (he : checkItems s h l k = some e) : e.2 ≠ stOk := by
  induction l generalizing s k with
  | nil => cases he
  | cons w l ih =>
    rw [checkItems] at he
    split_ifs at he with hst
    · exact ih he
    · obtain rfl := Option.some.inj he
      exact hst

theorem writeItems_refused {l : List WItem} {e : Nat × Nat} (he : (writeItems s h l).2 = some e) : e.2 ≠ stOk := by
  unfold writeItems at he
  split at he
  next hc =>
    obtain rfl := Option.some.inj he
    exact checkItems_ne_ok hc
  next => cases he

theorem paramWrite_refuses (hs : starts s h 0x09) {e : Nat × Nat} (he : (itemsOutcome s h).2 = some e) : answers (.paramWrite h) s fun t =>
    responded s t h e.2 (leBytes 2 0 ++ leBytes 2 e.1) ∧ e.2 ≠ stOk ∧ regsBut s t [HIF_H_CNT_REJ h] ∧ otherSlots s t h ∧ partsBut s t [.regs, .sys, .hif] := by
  have hrun : paramWrite (begun s h) h (req s h) = plain { s := begun s h, status := e.2, body := writeBody 0 e.1 } := by
    have he' : (writeItems (begun s h) h (writeReq (req s h))).2 = some e := he
    simp only [paramWrite, he']
  obtain ⟨t, hexec, hresp, hregs, hslots, hparts⟩ := answers_without_effect (i := .paramWrite h) (fun s p => paramWrite s h p) hs rfl hrun
  exact ⟨t, hexec, hresp, writeItems_refused he, hregs, hslots, hparts⟩

theorem paramWrite_taken (hs : starts s h 0x09) (hok : (itemsOutcome s h).2 = none) (hpad : leAt (req s h) 2 2 = 0)
    (hwait : writeWait (writeReq (req s h)) = none) : answers (.paramWrite h) s fun t =>
      t.regs = (itemsOutcome s h).1.regs ∧ partsBut (itemsOutcome s h).1 t [.sys, .hif] ∧
        t.sys = { (itemsOutcome s h).1.sys with atBoundary := false } ∧ responded s t h stOk (leBytes 2 (leAt (req s h) 0 2) ++ leBytes 2 0xFFFF) := by
  have hlen : (writeReq (req s h)).length = leAt (req s h) 0 2 := by simp [writeReq]
  have hrun : paramWrite (begun s h) h (req s h) = plain (okBody (itemsOutcome s h).1 (writeBody (leAt (req s h) 0 2) 0xFFFF)) := by
    have hok' : (writeItems (begun s h) h (writeReq (req s h))).2 = none := hok
    simp only [paramWrite, hok', hpad, ne_eq, not_true_eq_false, if_false, hwait, hlen]
    rfl
  have hnow : (itemsOutcome s h).1.now = s.now :=
    (writeItems_keeps (R := (· ≠ .now)) (begun s h) h (writeReq (req s h)) (by simp [Allows]) (.refl _ _)).same .now (by simp)
  refine answers_completed (fun s p => paramWrite s h p) hs rfl hrun ⟨regs_completed_ok rfl rfl, ⟨fun p hp => samePart_completed_ok rfl rfl hp, pending_completed _⟩,
    ?_, completed_responded s h rfl rfl hnow⟩
  have hsys : (respond (itemsOutcome s h).1 h (front s h) (plain (okBody (itemsOutcome s h).1 (writeBody (leAt (req s h) 0 2) 0xFFFF)))
      (answerWait s h (front s h) none stOk)).sys = (itemsOutcome s h).1.sys :=
    (respond_keeps (R := (· ∈ [.regs, .hif])) _ _ _ _ _ (fun _ hp => hp) (.refl _ _) (.refl _ _)).same .sys (by decide)
  exact congrArg (fun x : SysState => { x with atBoundary := false }) hsys

end Writes

/-- Settles O47: a read gives its word and clears at most the RC bits; a write takes its items, or stops at the first that fails. -/
theorem parametersAreReadAndWritten : Obligations.ParametersAreReadAndWritten := by
  unfold Obligations.ParametersAreReadAndWritten
  refine ⟨fun s h hs => ⟨fun r hr hone => paramRead_peek hs hone hr, fun r hr hshown => ⟨paramRead_shown_peek hs hr hshown, paramRead_shown_clears hs hr hshown⟩,
    paramRead_reserved hs⟩, fun s h hs => ⟨paramWrite_taken hs, fun e he => paramWrite_refuses hs he⟩⟩

end Sys2Proof.Parameters

namespace Sys2Proof.Tables

open Sys2Proof Sys2Proof.Machine Sys2Proof.Counterexample

/-- The request that writes the first entry of ZON with an offset of 1 mm. -/
def zonRequest : List Byte := [0x5A#8, 0x4F#8, 0x4E#8, 0#8] ++ leBytes 4 0 ++ leBytes 2 1 ++ leBytes 2 0 ++ leBytes 16 1

/-- The firmware is up, and the OWNER's write of ZON waits in slot 0. -/
def zonWrite : State :=
  let s := setF { State.reset with sys := { State.reset.sys with phase := .up, running := true } } (HIF_H_STAT_ATT 0) 1
  modSlot s 0 fun x => { x with ring := [{ code := 0x0B, ordered := false, htag := 0, payload := zonRequest, seq := 0, reject := 0 }] }

theorem zonWrite_starts : starts zonWrite 0 0x0B ∧ reqTable (req zonWrite 0) = some (.stored .zon) ∧ tableRole zonWrite 0 .zon = true ∧
    entriesStatus zonWrite 0 .zon (req zonWrite 0) = stOk := by
  unfold starts
  refine ⟨?_, ?_⟩ <;> decide +kernel

/-- Counted on past the 512 entries of GEO, ZON is reached. -/
theorem zonWrite_moves_geo : tget (nextOf (.tableWrite 0) zonWrite) .geo (tableBase .zon) ≠ tget zonWrite .geo (tableBase .zon) := by decide +kernel

/-- Refutes O48: the clause on the other tables bounds no entry number, and the tables stand one behind the other in one store. Number 4096 of GEO, which
has 512 entries, is the place of entry 0 of ZON, and `zonWrite` writes that. -/
theorem not_tablesAreReadAndWritten : ¬ Obligations.TablesAreReadAndWritten := by
  unfold Obligations.TablesAreReadAndWritten
  rintro ⟨-, hwrite⟩
  obtain ⟨hs, htable, hrole, hstatus⟩ := zonWrite_starts
  obtain ⟨-, -, -, hothers, -⟩ := of_answers (hwrite zonWrite 0 .zon hs htable (by decide) hrole hstatus (by decide))
  exact zonWrite_moves_geo (hothers .geo (tableBase .zon) (by decide))

end Sys2Proof.Tables

namespace Sys2Proof.Loops

open Sys2Proof Sys2Proof.Machine Sys2Proof.Frame Sys2Proof.Counterexample

/-- Nothing is wrong at the sample of loop `n`: its destination, its measurement and its friction port are sound, and nothing is injected. -/
structure Quiet (s : State) (n : Nat) : Prop where
  runs : flag s CLE_CTRL_EN = true
  held : dstHeld s n = false
  meas : measFault s n = false
  frc : frcFault s n = false
  inj : s.cle.inj = none

theorem loopGuards_quiet {s : State} {n : Nat} (h : Quiet s n) : loopGuards s n = s := by simp [loopGuards, h.held, h.meas, h.frc]

theorem injectValue_none {s : State} {n k : Nat} (h : s.cle.inj = none) : injectValue s n k = (s, 0, false) := by simp [injectValue, h]

theorem endInject_skipped {s : State} (n : Nat) (c : Bool) (h : s.cle.inj = none) :
    (if (c && (s.cle.inj.map (·.loop)) == some n) = true then endInject s else s) = s := by simp [h]

/-- Beside the registers, the records and the engine, a quiet sample moves only what the formation of its setpoint moves. -/
theorem loopSample_keeps_setpoint {s : State} {n : Nat} (h : Quiet s n) :
    Keeps (· ∈ [Part.regs, .recd, .cle]) (setpoint s n (sampleInstant s n)).1 (loopSample s n) := by
  have hR : Allows (· ∈ [Part.regs, .recd, .cle]) [.regs, .recd, .cle] := fun p hp => hp
  unfold loopSample
  rw [if_neg (by simp [h.runs])]
  extract_lets x t held s₁ mode changed s₂ inj s₃ j pt jOf y0 y sp s₄
  have hs₁ : s₁ = s := loopGuards_quiet h
  have hs₂ : s₂ = s₁ := endInject_skipped n changed (hs₁ ▸ h.inj)
  have hs₃ : s₃ = s := by
    simp only [s₃, inj]
    rw [injectValue_none (by rw [hs₂, hs₁]; exact h.inj), hs₂, hs₁]
  have h₀ : Keeps (· ∈ [Part.regs, .recd, .cle]) (setpoint s n (sampleInstant s n)).1 s₄ := by
    simp only [s₄, sp, hs₃]
    exact Keeps.refl ..
  clear_value s₄
  repeat' first
    | with_reducible assumption
    | (refine Allows.sub hR ?_; decide)
    | with_reducible apply capPeriod_keeps
    | with_reducible apply capTrigger_keeps
    | with_reducible apply satAlarm_keeps
    | with_reducible apply loopFlag_keeps
    | with_reducible apply modLoop_keeps
    | with_reducible apply setBitF_keeps
    | with_reducible apply bump_keeps
    | with_reducible apply setI_keeps
    | with_reducible apply setB_keeps
    | with_reducible apply setF_keeps
    | with_reducible apply wr_keeps
    | with_reducible apply Keeps.ite

/-- The engine runs in step 0, and loop 0 is in MANUAL. Its setpoint follows the speed of channel 0, whose phase 3 of the step is not complete yet at
the sample: which boundary's speed is taken is free (log entry 63). -/
def gearedManual : State :=
  let s := setF (setF (setB State.reset CLE_CTRL_EN true) (CLE_LP_CTRL_MODE 0) 1) (CLE_LP_SSRC_SRC 0) 2
  let s := setB (tsetNat s .sec 0 0 1 128) KIN_STAT_MOTION_VALID true
  modLoop s 0 fun x => { x with mode := 1 }

theorem gearedManual_inManual : getF gearedManual (CLE_LP_CTRL_MODE 0) = 1 ∧ (loopAt gearedManual 0).mode = 1 := by
  constructor <;> decide +kernel

theorem gearedManual_quiet : Quiet gearedManual 0 := by
  constructor <;> decide +kernel

theorem setpoint_gearedManual_takes_free : (setpoint gearedManual 0 (sampleInstant gearedManual 0)).1.free ≠ gearedManual.free := by decide +kernel

/-- Refutes O27: a sample in MANUAL forms the setpoint too, and one that follows a channel's speed before phase 3 takes a free value, so the part
`free` of the state does not stand, as in `gearedManual`. -/
theorem not_loopSamplesAndOutputs : ¬ Obligations.LoopSamplesAndOutputs := by
  unfold Obligations.LoopSamplesAndOutputs
  rintro ⟨hsample, -⟩
  obtain ⟨-, hmanual, -⟩ := hsample gearedManual 0 (by decide)
  obtain ⟨hctrl, hmode⟩ := gearedManual_inManual
  have hq := gearedManual_quiet
  obtain ⟨t, hexec, -, -, -, -, hparts⟩ := hmanual hq.runs hctrl hmode hq.held hq.inj
  have ht : loopSample gearedManual 0 = t := Host.Outcome.next.inj hexec
  have hstands : t.free = gearedManual.free := hparts.1 .free (by decide)
  have hmoved : t.free = (setpoint gearedManual 0 (sampleInstant gearedManual 0)).1.free :=
    ht ▸ (loopSample_keeps_setpoint hq).same .free (by decide)
  exact setpoint_gearedManual_takes_free (hmoved.symm.trans hstands)

end Sys2Proof.Loops

namespace Sys2Proof.Loops

open Sys2Proof Sys2Proof.Machine Sys2Proof.Frame

/-- Loop `n` stands as `x`, but for its alarm, and CLE_LP_STAT shows mode `m` and the period count `k`. -/
structure LoopShown (n : Nat) (x : Loop) (m k : Nat) (t : State) : Prop where
  loop : ∃ a, loopAt t n = { x with alarmed := a }
  mode : getF t (CLE_LP_STAT_MODE n) = m
  count : getF t (CLE_LP_STAT_PCNT n) = k

section LoopShown

variable {n m k : Nat} {x : Loop} {s t : State}

theorem loopAt_modLoop_same (s : State) (n : Nat) (f : Loop → Loop) : loopAt (modLoop s n f) n = f (loopAt s n) :=
  sparseGet_mod _ _ _ _

theorem LoopShown.of (h : LoopShown n x m k s) (hl : t.cle.loops = s.cle.loops) (hr : rd t (CLE_LP_STAT n) = rd s (CLE_LP_STAT n)) :
    LoopShown n x m k t := by
  obtain ⟨⟨a, ha⟩, hmode, hcount⟩ := h
  exact ⟨⟨a, by rw [loopAt, hl, ← loopAt, ha]⟩, (getF_congr hr).trans hmode, (getF_congr hr).trans hcount⟩

theorem LoopShown.setF (h : LoopShown n x m k s) {f : Field} (hm : Apart f (CLE_LP_STAT_MODE n)) (hc : Apart f (CLE_LP_STAT_PCNT n)) (v : Nat) :
    LoopShown n x m k (setF s f v) := by
  obtain ⟨hloop, hmode, hcount⟩ := h
  exact ⟨hloop, (getF_setF_apart hm v).trans hmode, (getF_setF_apart hc v).trans hcount⟩

theorem LoopShown.setB (h : LoopShown n x m k s) {f : Field} (hm : Apart f (CLE_LP_STAT_MODE n)) (hc : Apart f (CLE_LP_STAT_PCNT n)) (b : Bool) :
    LoopShown n x m k (setB s f b) := h.setF hm hc _

theorem LoopShown.setI (h : LoopShown n x m k s) {f : Field} (hm : Apart f (CLE_LP_STAT_MODE n)) (hc : Apart f (CLE_LP_STAT_PCNT n)) (v : Int) :
    LoopShown n x m k (setI s f v) := h.setF hm hc _

theorem LoopShown.setActive (h : LoopShown n x m k s) (hn : n < 16) (j : Nat) (b : Bool) : LoopShown n x m k (setBitF s CLE_STAT_ACTIVE j b) :=
  h.setF (by grind) (by grind) _

theorem LoopShown.bump (h : LoopShown n x m k s) {f : Field} (hm : Apart f (CLE_LP_STAT_MODE n)) (hc : Apart f (CLE_LP_STAT_PCNT n)) (v : Nat) :
    LoopShown n x m k (bump s f v) := h.setF hm hc _

theorem LoopShown.wr (h : LoopShown n x m k s) {i : Nat} (hi : CLE_LP_STAT n ≠ i) (v : Word) : LoopShown n x m k (wr s i v) :=
  h.of rfl (rd_wr_ne _ _ _ _ hi)

theorem LoopShown.record (h : LoopShown n x m k s) (code inst : Nat) (val : List Byte) : LoopShown n x m k (record s code inst val) :=
  h.of (congrArg CleState.loops ((keeps_record s code inst val).same .cle (by decide))) (rd_record _ _ _ _ (by grind))

theorem LoopShown.setCap (h : LoopShown n x m k s) (l : List Word) (skip : Nat) : LoopShown n x m k (setCap s l skip) := by
  have hcap : LoopShown n x m k { s with cle := { s.cle with cap := { entries := l, skip := skip } } } := h.of rfl rfl
  exact hcap.setF (by grind) (by grind) _

theorem LoopShown.capTrigger (h : LoopShown n x m k s) : LoopShown n x m k (capTrigger s) := by
  unfold Machine.capTrigger
  split
  · refine LoopShown.wr (LoopShown.setF (LoopShown.setF h ?_ ?_ _) ?_ ?_ _) ?_ _ <;> grind
  · exact h

theorem LoopShown.loopFlag (h : LoopShown n x m k s) {f : Field} (hm : Apart f (CLE_LP_STAT_MODE n)) (hc : Apart f (CLE_LP_STAT_PCNT n)) :
    LoopShown n x m k (loopFlag s n f) := by
  unfold Machine.loopFlag
  refine LoopShown.setF (LoopShown.setF h hm hc _) ?_ ?_ _ <;> grind

theorem LoopShown.satAlarm (h : LoopShown n x m k s) : LoopShown n x m k (satAlarm s n) := by
  unfold Machine.satAlarm
  split
  case isFalse => exact h
  extract_lets m' s₁ s₂ s₃
  have h₁ : LoopShown n x m k s₁ := by
    obtain ⟨⟨a, ha⟩, hmode, hcount⟩ := h
    have hmod : LoopShown n x m k (modLoop s n fun y => { y with alarmed := true }) :=
      ⟨⟨true, by rw [loopAt_modLoop_same, ha]⟩, hmode, hcount⟩
    exact hmod.loopFlag (by grind) (by grind)
  have h₃ : LoopShown n x m k s₃ := by
    unfold s₃
    split
    · exact (h₁.record ..).capTrigger
    · exact h₁.record ..
  split
  · exact h₃.setF (by grind) (by grind) _
  · exact h₃

theorem LoopShown.capPeriod (h : LoopShown n x m k s) (j k' : Nat) (sig : List (Int × Nat)) : LoopShown n x m k (capPeriod s j k' sig) := by
  unfold Machine.capPeriod
  extract_lets st dec l s'
  split_ifs
  · exact h
  · exact h.setCap ..
  · exact h.setCap ..
  · exact LoopShown.setF (h.setCap ..) (by grind) (by grind) _
  · exact h.setCap ..

theorem LoopShown.setMode (h : LoopShown n x m k s) {v : Nat} (hv : v < 4) : LoopShown n x v k (Machine.setF s (CLE_LP_STAT_MODE n) v) := by
  obtain ⟨hloop, -, hcount⟩ := h
  refine ⟨hloop, ?_, (getF_setF_apart (by grind) v).trans hcount⟩
  rw [getF_setF _ _ _ ⟨by simp, by simp⟩]
  exact Nat.mod_eq_of_lt hv

theorem LoopShown.setCount (h : LoopShown n x m k s) (v : Nat) :
    LoopShown n x m (v % 65536) (Machine.setF s (CLE_LP_STAT_PCNT n) (v % 65536)) := by
  obtain ⟨hloop, hmode, -⟩ := h
  refine ⟨hloop, (getF_setF_apart (by grind) _).trans hmode, ?_⟩
  rw [getF_setF _ _ _ ⟨by simp, by simp⟩]
  exact Nat.mod_eq_of_lt (Nat.mod_lt _ (by decide))

theorem LoopShown.ite {c : Prop} [Decidable c] (h : LoopShown n x m k s) (h' : LoopShown n x m k t) : LoopShown n x m k (if c then s else t) := by
  split
  · exact h
  · exact h'

end LoopShown


theorem setpoint_state (s : State) (n t : Nat) : ∃ f, (setpoint s n t).1 = { s with free := f } := by
  unfold setpoint gearSpeed
  extract_lets ratio c x k new f v m
  split
  · exact ⟨s.free, rfl⟩
  · exact ⟨s.free, rfl⟩
  · simp only [v]
    split
    · exact ⟨s.free, rfl⟩
    · split
      · exact ⟨s.free, rfl⟩
      · exact ⟨_, rfl⟩
  · exact ⟨s.free, rfl⟩


/-- The loop `x` that a period in AUTO leaves, of the state `s` before it (R240, R243, R251). -/
structure AutoPeriod (s : State) (n : Nat) (x : Loop) : Prop where
  mode : x.mode = 2
  count : x.k = (loopAt s n).k + 1
  measured : x.yPrev = sat16 (measValue s n)
  ramped : x.rEff = rampedSetpoint s n
  error : x.ePrev = sat16 (x.rEff - x.yPrev)
  integrated : x.g = (loopAt s n).g →
    x.integ = (if flag s (CLE_LP_CTRL_AW n) && (loopAt s n).satPrev then (loopAt s n).integ
      else clampI (65536 * getI s (CLE_LP_RG_ILIM_IMIN n (loopAt s n).g)) (65536 * getI s (CLE_LP_RG_ILIM_IMAX n (loopAt s n).g))
        ((loopAt s n).integ + sat32 (scale2 (getI s (CLE_LP_RG_PI_KI n (loopAt s n).g) * x.ePrev) (gainExp s n + 16))))
  sum : x.g = (loopAt s n).g →
    x.u = clampI (getI s (CLE_LP_ULIM_UMIN n)) (getI s (CLE_LP_ULIM_UMAX n))
      (sat16 (scale2 (getI s (CLE_LP_RG_PI_KP n (loopAt s n).g) * x.ePrev) (gainExp s n)) + roundDiv x.integ 65536 +
        x.d + sat16 (sat16 (scale2 (getI s (CLE_LP_RG_DF_KFF n (loopAt s n).g) * x.rEff) (gainExp s n)) +
          getI s (CLE_LP_DF_FFOFS n)) + sat16 (frictionTerm s n))
  out : x.out = some (sampleInstant s n + getF s (CLE_LP_OPH_OPH n), x.u)

theorem AutoPeriod.withAlarm {s : State} {n : Nat} {x : Loop} (h : AutoPeriod s n x) (a : Bool) : AutoPeriod s n { x with alarmed := a } := by
  obtain ⟨hmode, hcount, hmeasured, hramped, herror, hintegrated, hsum, hout⟩ := h
  exact ⟨hmode, hcount, hmeasured, hramped, herror, hintegrated, hsum, hout⟩

theorem sat16_idem (v : Int) : sat16 (sat16 v) = sat16 v := by
  unfold sat16 clampI
  omega

theorem loopSample_auto {s : State} {n : Nat} (hn : n < 16) (hq : Quiet s n) (hctrl : getF s (CLE_LP_CTRL_MODE n) = 2) (hmode : (loopAt s n).mode = 2)
    (hpreset : (loopAt s n).preset = false) : ∃ x, AutoPeriod s n x ∧ LoopShown n x 2 ((loopAt s n).k % 65536) (loopSample s n) := by
  unfold loopSample
  rw [if_neg (by simp [hq.runs])]
  extract_lets x t held s₁ mode changed s₂ inj s₃ j pt jOf y0 y sp s₄ r0 r ramp rEff e0 e firstAuto yPrev ePrev sv g sh p0 d0 d₀ d ff00 ff0 ff f0 f p jo
    imin imax target di0 want integrate i stepped umin umax uPre u ki ke sat satUs out x' s₅ big ovfIn ovfT s₆ s₇ s₈ hin ht s₉ s₁₀ s₁₁ s₁₂ s₁₃ s₁₄ s₁₅
    s₁₆ s₁₇ s₁₈ s₁₉ s₂₀ s₂₁ cur s₂₂ s₂₃ trig hit s₂₄ ei eo svx
  have hm : mode = 2 := by
    simp only [mode, s₁, loopGuards_quiet hq, hctrl]
  have h₅ : LoopShown n x' (getF s₅ (CLE_LP_STAT_MODE n)) (getF s₅ (CLE_LP_STAT_PCNT n)) s₅ :=
    ⟨⟨x'.alarmed, loopAt_modLoop_same ..⟩, rfl, rfl⟩
  have hx' : AutoPeriod s n x' := by
    have hs₁ : s₁ = s := loopGuards_quiet hq
    have hch : changed = false := by simp [changed, hm, x, hmode]
    have hs₂ : s₂ = s := by simp [s₂, hch, hs₁]
    have hinj : inj = (s, 0, false) := by
      simp only [inj, hs₂]
      exact injectValue_none hq.inj
    have hs₃ : s₃ = s := congrArg Prod.fst hinj
    have hj (p : Nat) : jOf p = 0 := by simp [jOf, j, hinj]
    obtain ⟨fr, hfr⟩ := setpoint_state s n t
    have hs₄ : s₄ = { s with free := fr } := by rw [← hfr, ← hs₃]
    have hy : y = sat16 (measValue s n) := by simp only [y, y0, hj, hs₃, Int.add_zero, sat16_idem]
    have hget (f : Field) : getF s₄ f = getF s f := by rw [hs₄]; rfl
    have hgetI (f : Field) : getI s₄ f = getI s f := by rw [hs₄]; rfl
    have hflag (f : Field) : flag s₄ f = flag s f := by rw [hs₄]; rfl
    have hsh (hg : g = x.g) : sh = gainExp s n := by simp only [sh, hg, hs₄]; rfl
    have hfirst : firstAuto = false := by simp [firstAuto, hch]
    have htarget (hg : g = x.g) : target = none := by simp [target, hm, hfirst, hg, x, hpreset]
    have hr : rEff = rampedSetpoint s n := by
      simp only [rEff, hch, hm, ramp, hget, r, r0, sp, hs₃]
      simp [rampedSetpoint, x, t, sampleInstant]
    have he : e = sat16 (rEff - y) := by simp [e, e0, hj]
    refine ⟨hm, rfl, hy, hr, he, fun (hg : g = x.g) => ?_, fun (hg : g = x.g) => ?_, ?_⟩
    · show i = _
      have hwant : want = x.integ + sat32 di0 := by simp only [want, htarget hg]
      have hint : integrate = !(flag s (CLE_LP_CTRL_AW n) && x.satPrev) := by simp [integrate, hm, htarget hg, hflag]
      simp only [i, hm, hint, hwant, di0, imin, imax, hgetI, hg, hsh hg]
      cases h : flag s (CLE_LP_CTRL_AW n) && x.satPrev <;> rfl
    · show u = _
      have hfric : frictionTerm s₄ n = frictionTerm s n := by rw [hs₄]; rfl
      simp only [u, hm, umin, umax, uPre, p, p0, ff, ff0, ff00, f, f0, jo, hj, hgetI, hg, hsh hg, hfric, Int.add_zero]
      rfl
    · show out = some (_, u)
      simp [out, hm, hget, t, sampleInstant, x]
  clear_value x' s₅
  have h₁₁ : LoopShown n x' (getF s₅ (CLE_LP_STAT_MODE n)) (getF s₅ (CLE_LP_STAT_PCNT n)) s₁₁ := by
    repeat' first
      | with_reducible assumption
      | with_reducible apply LoopShown.ite
      | with_reducible apply LoopShown.loopFlag
      | with_reducible apply LoopShown.bump
      | with_reducible apply LoopShown.setF
      | with_reducible apply LoopShown.setI
      | (clear * -; grind)
  have h₁₂ : LoopShown n x' 2 (getF s₅ (CLE_LP_STAT_PCNT n)) (setF s₁₁ (CLE_LP_STAT_MODE n) mode) := by
    rw [hm]
    exact h₁₁.setMode (by decide)
  have h₁₄ : LoopShown n x' 2 (getF s₅ (CLE_LP_STAT_PCNT n)) s₁₄ := by
    repeat' first
      | with_reducible assumption
      | with_reducible apply LoopShown.setB
      | with_reducible apply LoopShown.setF
      | (clear * -; grind)
  have h₁₅ : LoopShown n x' 2 (x.k % 65536) s₁₅ := h₁₄.setCount _
  clear_value s₁₅
  have h₂₄ : LoopShown n x' 2 (x.k % 65536) s₂₄ := by
    repeat' first
      | with_reducible assumption
      | with_reducible apply LoopShown.ite
      | with_reducible apply LoopShown.capTrigger
      | with_reducible apply LoopShown.satAlarm
      | with_reducible apply LoopShown.setActive
      | with_reducible apply LoopShown.setF
      | with_reducible apply LoopShown.setI
      | with_reducible apply LoopShown.wr
      | (clear * - hn; grind)
  exact ⟨x', hx', h₂₄.capPeriod ..⟩

/-- Settles O26: of a loop that stays in AUTO with nothing injected, the period is its terms one by one; what follows in the sample touches
neither the loop, but for its alarm, nor the mode and count shown. -/
theorem autoPeriodComputation : Obligations.AutoPeriodComputation := by
  unfold Obligations.AutoPeriodComputation
  intro s n hn hen hctrl hmode hheld hmeas hfrc hinj hpreset
  obtain ⟨x, hauto, hshown⟩ := loopSample_auto hn ⟨hen, hheld, hmeas, hfrc, hinj⟩ hctrl hmode hpreset
  obtain ⟨⟨a, hloop⟩, hstat, hcnt⟩ := hshown
  refine answers_of_answer rfl (by simp [hn]) ?_
  obtain ⟨hx, hcount, hmeasured, hramped, herror, hintegrated, hsum, hout⟩ := hloop ▸ hauto.withAlarm a
  exact ⟨hx, hcount, hmeasured, hramped, herror, fun hg => ⟨hintegrated hg, hsum hg, hout⟩, hstat, hcnt⟩

end Sys2Proof.Loops

namespace Sys2Proof.GnssSlots

open Sys2Proof Sys2Proof.Machine Sys2Proof.Frame

section Slots

variable {s : State} {i j : Nat} {f : GnsSlot → GnsSlot}

@[simp] theorem gnsAt_modGns (s : State) (i : Nat) (f : GnsSlot → GnsSlot) : gnsAt (modGns s i f) i = f (gnsAt s i) := sparseGet_mod _ _ _ _

theorem gnsAt_modGns_ne (s : State) (f : GnsSlot → GnsSlot) (h : j ≠ i) : gnsAt (modGns s i f) j = gnsAt s j := sparseGet_mod_ne _ _ _ _ _ h

theorem onlyGnsSlot_modGns (s : State) (i : Nat) (f : GnsSlot → GnsSlot) : onlyGnsSlot s (modGns s i f) i :=
  fun _ _ hj => gnsAt_modGns_ne s f hj

theorem partsBut_modGns (s : State) (i : Nat) (f : GnsSlot → GnsSlot) : partsBut s (modGns s i f) [.gns] :=
  partsBut_of_keeps (modGns_keeps s i f (allows_of_subset (by decide)) (Keeps.refl ..))

theorem partsBut_bump_modGns (s : State) (i : Nat) (f : GnsSlot → GnsSlot) (c : Field) : partsBut s (bump (modGns s i f) c) [.regs, .gns] :=
  partsBut_of_keeps (bump_keeps _ _ _ (allows_of_subset (by decide)) (modGns_keeps s i f (allows_of_subset (by decide)) (Keeps.refl ..)))

theorem regsBut_bump_modGns (s : State) (i : Nat) (f : GnsSlot → GnsSlot) (c : Field) : regsBut s (bump (modGns s i f) c) [c.reg] :=
  regsBut_bump (regsBut_of_regs rfl _) (List.mem_singleton.2 rfl) 1

/-- A counter that does not move stands below its limit. -/
theorem getF_eq_min_add_zero (s : State) (c : Field) : getF s c = min (getF s c + 0) (2 ^ c.width - 1) := by
  have := getF_lt s c
  omega

end Slots

section Search

variable {s : State} {i : Nat}

theorem acqDwell_miss (h : (gnsAt s i).state = gsSearch) :
    acqDwell s i false = modGns s i fun _ => { gnsAt s i with confirm := false, dwells := nextBin s (gnsAt s i) } := by
  simp [acqDwell, h]

theorem acqDwell_hit (h : (gnsAt s i).state = gsSearch) :
    acqDwell s i true = if (gnsAt s i).confirm then bump (modGns s i toPullin) GNS_CNT_ACQ_CNT
      else modGns s i fun g => { g with confirm := true } := by
  simp [acqDwell, h]

theorem aidedSearch_miss {t : Nat} {e : Bool} (h : (gnsAt s i).state = gsAided ∨ ((gnsAt s i).state = gsLost ∧ aidedOk s i t e = true)) :
    aidedSearch s i t e false = modGns s i fun _ => if (gnsAt s i).dwells + 1 < aidedDwells s
      then { gnsAt s i with state := gsAided, confirm := false, dwells := (gnsAt s i).dwells + 1 }
      else { gnsAt s i with state := gsSearch, confirm := false, dwells := 0 } := by
  simp only [aidedSearch, h, if_true, Bool.false_and, Bool.false_eq_true, if_false, aidedMiss]
  split <;> rfl

theorem aidedSearch_hit {t : Nat} {e : Bool} (h : (gnsAt s i).state = gsAided ∨ ((gnsAt s i).state = gsLost ∧ aidedOk s i t e = true)) :
    aidedSearch s i t e true = if (gnsAt s i).confirm then bump (modGns s i fun g => { toPullin g with aided := true }) GNS_CNT_REACQ_CNT
      else modGns s i fun g => { g with state := gsAided, confirm := true } := by
  simp only [aidedSearch, h, if_true, Bool.true_and]

/-- A slot whose detection may confirm another: with the confirmation it changes by `f` and counts, without it it changes by `g`. -/
theorem confirmation_effect (i : Nat) (c : Field) (hc : c.lo ≤ c.hi ∧ c.hi < 32) (f g : GnsSlot → GnsSlot) (conf : Bool) (t : State)
    (ht : t = if conf then bump (modGns s i f) c else modGns s i g) :
    gnsAt t i = (if conf then f (gnsAt s i) else g (gnsAt s i)) ∧ getF t c = min (getF s c + bit conf 0) (2 ^ c.width - 1) ∧
      onlyGnsSlot s t i ∧ regsBut s t [c.reg] ∧ partsBut s t [.regs, .gns] := by
  subst ht
  cases conf
  · exact ⟨gnsAt_modGns .., getF_eq_min_add_zero s c, onlyGnsSlot_modGns _ _ _, regsBut_of_regs rfl _,
      partsBut_mono (partsBut_modGns ..) (by decide)⟩
  · exact ⟨gnsAt_modGns .., getF_bump _ _ _ hc, onlyGnsSlot_modGns _ _ _, regsBut_bump_modGns _ _ _ _, partsBut_bump_modGns ..⟩

end Search

/-- Slots that were in use stand, and so does what a host wrote to any slot. -/
def UsedStand (s t : State) : Prop :=
  ∀ j, ((gnsAt s j).state ≠ gsIdle → gnsAt t j = gnsAt s j) ∧ (gnsAt t j).cfg = (gnsAt s j).cfg

theorem assignOne_used (s : State) (c : GnsCand) : UsedStand s (assignOne s c) := by
  unfold assignOne
  split
  case isFalse => exact fun j => ⟨fun _ => rfl, rfl⟩
  split
  case h_2 => exact fun j => ⟨fun _ => rfl, rfl⟩
  case h_1 k hk =>
    have hidle : (gnsAt s k).state = gsIdle := by simpa using List.find?_some hk
    extract_lets a d
    intro j
    by_cases hj : j = k
    · subst hj
      refine ⟨fun h => absurd hidle h, ?_⟩
      rw [gnsAt_modGns]
      split <;> rfl
    · rw [gnsAt_modGns_ne _ _ hj]
      exact ⟨fun _ => rfl, rfl⟩

theorem UsedStand.trans {s t u : State} (h : UsedStand s t) (k : UsedStand t u) : UsedStand s u := by
  intro j
  obtain ⟨hused, hcfg⟩ := h j
  obtain ⟨kused, kcfg⟩ := k j
  exact ⟨fun hs => (kused (by rwa [hused hs])).trans (hused hs), kcfg.trans hcfg⟩

theorem foldl_assignOne_used (l : List GnsCand) (s : State) : UsedStand s (l.foldl assignOne s) := by
  induction l generalizing s with
  | nil => exact fun j => ⟨fun _ => rfl, rfl⟩
  | cons c l ih => exact (assignOne_used s c).trans (ih _)

theorem assignSlots_used (s : State) : UsedStand s (assignSlots s) := by
  unfold assignSlots
  split
  · exact foldl_assignOne_used _ _
  · exact fun j => ⟨fun _ => rfl, rfl⟩

theorem assignSlots_none {s : State} (h : s.gns.sky = [] ∨ s.sys.phase ≠ .up) : assignSlots s = s := by
  unfold assignSlots
  rcases h with h | h
  · simp [h, sortBy]
  · exact if_neg h

theorem keeps_assignSlots (s : State) : Keeps (· ∈ [.gns]) s (assignSlots s) :=
  assignSlots_keeps _ (allows_of_subset (by decide)) (Keeps.refl ..)

/-- Settles O34: each command changes its slot by one record update; the slots that a release lets the firmware give away are idle ones. -/
theorem gnssSlotStates : Obligations.GnssSlotStates := by
  unfold Obligations.GnssSlotStates
  refine ⟨fun s i hi hsearch => ⟨?_, ?_⟩, fun s i t₀ hi ht => ⟨fun e hmay => ⟨?_, ?_⟩, fun l htrack hloss => ?_, fun hlost hover => ?_⟩,
    fun s i l hi hpull hlen hlock => ?_⟩
  · refine answers_of_answer rfl (by simp [hi]) ?_
    rw [acqDwell_miss hsearch]
    exact ⟨gnsAt_modGns .., rfl, onlyGnsSlot_modGns _ _ _, partsBut_modGns ..⟩
  · refine answers_of_answer rfl (by simp [hi]) ?_
    obtain ⟨hat, hcnt, honly, hregs, hparts⟩ := confirmation_effect i GNS_CNT_ACQ_CNT (by decide) _ _ _ _ (acqDwell_hit hsearch)
    exact ⟨hat, hcnt, honly, hregs, hparts⟩
  · refine answers_of_answer rfl (by simp [hi, ht]) ?_
    exact confirmation_effect i GNS_CNT_REACQ_CNT (by decide) _ _ _ _ (aidedSearch_hit hmay)
  · refine answers_of_answer rfl (by simp [hi, ht]) ?_
    rw [aidedSearch_miss hmay]
    exact ⟨gnsAt_modGns .., onlyGnsSlot_modGns _ _ _, rfl, partsBut_modGns ..⟩
  · refine answers_of_answer rfl (by simp [hi, ht]) ?_
    rw [trackLoss, if_pos ⟨htrack, hloss⟩]
    have hat := gnsAt_modGns s i fun g => { g with state := gsLost, lostAt := absTick s t₀, passed := true, confirm := false, dwells := 0 }
    exact ⟨congrArg GnsSlot.state hat, congrArg GnsSlot.lostAt hat, getF_bump _ _ _ (by decide), onlyGnsSlot_modGns _ _ _, regsBut_bump_modGns _ _ _ _,
      partsBut_bump_modGns ..⟩
  · refine answers_of_answer rfl (by simp [hi, ht]) ?_
    simp only [lostExpiry, if_pos (And.intro hlost hover)]
    set m := modGns s i fun g => if g.pin then { g with state := gsSearch } else released g with hm
    have hat : gnsAt m i = if (gnsAt s i).pin then { gnsAt s i with state := gsSearch } else released (gnsAt s i) := gnsAt_modGns ..
    have hkeeps : Keeps (· ∈ [Part.gns]) s (assignSlots m) :=
      keeps_trans (modGns_keeps s i _ (allows_of_subset (by decide)) (Keeps.refl ..)) (keeps_assignSlots m)
    obtain ⟨hused, hcfg⟩ := assignSlots_used m i
    refine ⟨fun hpin => ?_, fun hpin hnone => ?_, fun j _ hj hjused => ?_, ?_, hkeeps.same .regs (by decide), partsBut_of_keeps hkeeps⟩
    · rw [if_pos hpin] at hat
      rw [hused (by rw [hat]; exact Nat.succ_ne_zero 0), hat]
    · rw [if_neg (by simp [hpin])] at hat
      rw [assignSlots_none (show m.gns.sky = [] ∨ m.sys.phase ≠ .up from hnone), hat]
      exact ⟨rfl, onlyGnsSlot_modGns _ _ _⟩
    · have hsame : gnsAt m j = gnsAt s j := gnsAt_modGns_ne _ _ hj
      rw [(assignSlots_used m j).1 (by rwa [hsame]), hsame]
    · rw [hcfg, hat]
      split <;> rfl
  · refine answers_of_answer rfl (by simp [hi]) ?_
    have hr : (l.reverse.take 20).length = 20 := by simpa using hlen
    have hall : ((l.reverse.take 20).all fun p => p.1 && phLock s p.2) = true := by
      simpa [List.all_eq_true, phLock] using hlock
    rw [pullinToTrack, if_pos ⟨hpull, hr, hall⟩]
    exact ⟨gnsAt_modGns .., onlyGnsSlot_modGns _ _ _, rfl, partsBut_modGns ..⟩

end Sys2Proof.GnssSlots

namespace Sys2Proof.Encoders

open Sys2Proof Sys2Proof.Machine Sys2Proof.Frame

/-! ### Counters, serial ports and emulation outputs -/

section Access

variable {s t : State} {u v : Nat}

@[simp] theorem cntAt_modCnt (s : State) (u : Nat) (f : Counter → Counter) : cntAt (modCnt s u f) u = f (cntAt s u) := sparseGet_mod _ _ _ _

theorem cntAt_modCnt_ne (s : State) (f : Counter → Counter) (h : v ≠ u) : cntAt (modCnt s u f) v = cntAt s v := sparseGet_mod_ne _ _ _ _ _ h

@[simp] theorem serAt_modSer (s : State) (p : Nat) (f : Serial → Serial) : serAt (modSer s p f) p = f (serAt s p) := sparseGet_mod _ _ _ _

@[simp] theorem emuAt_modEmu (s : State) (k : Nat) (f : Emu → Emu) : emuAt (modEmu s k f) k = f (emuAt s k) := sparseGet_mod _ _ _ _

theorem cntAt_of_enc (h : t.enc.cnt = s.enc.cnt) (u : Nat) : cntAt t u = cntAt s u := by rw [cntAt, h, cntAt]

theorem serAt_of_enc (h : t.enc.ser = s.enc.ser) (p : Nat) : serAt t p = serAt s p := by rw [serAt, h, serAt]

@[simp] theorem cntAt_setF (s : State) (f : Field) (x u : Nat) : cntAt (setF s f x) u = cntAt s u := rfl

@[simp] theorem cntAt_setB (s : State) (f : Field) (b : Bool) (u : Nat) : cntAt (setB s f b) u = cntAt s u := rfl

@[simp] theorem cntAt_wr (s : State) (i : Nat) (v : Word) (u : Nat) : cntAt (wr s i v) u = cntAt s u := rfl

@[simp] theorem cntAt_modSer (s : State) (p : Nat) (f : Serial → Serial) (u : Nat) : cntAt (modSer s p f) u = cntAt s u := rfl

@[simp] theorem cntAt_bump (s : State) (f : Field) (n u : Nat) : cntAt (bump s f n) u = cntAt s u := rfl

theorem enc_record (s : State) (code inst : Nat) (val : List Byte) : (record s code inst val).enc = s.enc :=
  (keeps_record s code inst val).same .enc (by decide)

theorem copyEmu_regs (s : State) (src idx : Nat) (a b : Bool) : (copyEmu s src idx a b).regs = s.regs :=
  (copyEmu_keeps (R := (· ∈ [Part.enc])) s src idx a b (allows_of_subset (by decide)) (Keeps.refl ..)).same .regs (by decide)

theorem copyEmu_cnt (s : State) (src idx : Nat) (a b : Bool) : (copyEmu s src idx a b).enc.cnt = s.enc.cnt := by
  unfold copyEmu
  simp only [List.foldl_cons, List.foldl_nil]
  split <;> split <;> rfl

end Access

/-! ### Positions and reported counts (R283, R285, R286) -/

section Positions

variable {s : State} {p t u : Nat}

theorem followCount_cnt (s : State) (p t : Nat) : (followCount s p t).enc.cnt = s.enc.cnt := by
  unfold followCount quadAngle
  split
  · extract_lets s₁ x pos cpr ref
    split
    · rfl
    · split <;> rfl
  · rfl

theorem regsBut_setAngle {l : List Nat} (h : regsBut s t' l) (hp : ENC_PT_ANG p ∈ l) (a : Nat) (v : Bool) : regsBut s (setAngle t' p a v) l :=
  regsBut_setB (regsBut_setF h hp a) hp v

theorem regsBut_quadAngle {l : List Nat} (h : regsBut s t' l) (hp : ENC_PT_ANG p ∈ l) : regsBut s (quadAngle t' p) l := by
  unfold quadAngle
  extract_lets cpr ref
  split
  · exact regsBut_setB h hp _
  · exact regsBut_setAngle h hp _ _

theorem regsBut_followCount (s : State) (p t : Nat) : regsBut s (followCount s p t) [ENC_PT_POS p, ENC_PT_ANG p] := by
  unfold followCount
  split
  · extract_lets s₁ x pos
    have h₁ : regsBut s s₁ [ENC_PT_POS p, ENC_PT_ANG p] := regsBut_of_regs rfl _
    split
    · exact regsBut_setAngle (regsBut_wr h₁ (by simp) _) (by simp) _ _
    · exact regsBut_quadAngle (regsBut_wr h₁ (by simp) _) (by simp)
  · exact regsBut_refl _ _

/-- In QUAD without fallback POS shows the reported count. -/
theorem rd_pos_followCount (hquad : portState s p = esQuad) (hdirect : flag s (ENC_PT_STAT_FALLBK p) = false) :
    rd (followCount s p t) (ENC_PT_POS p) = BitVec.ofInt 32 (cntAt s p).rep := by
  set s₁ := modSer s p fun x => { x with posAt := some t } with hs₁
  have hfall : flag s₁ (ENC_PT_STAT_FALLBK p) = false := hdirect
  have hform : followCount s p t = quadAngle (wr s₁ (ENC_PT_POS p) (BitVec.ofInt 32 (cntAt s p).rep)) p := by
    rw [followCount, if_pos hquad]
    simp only [← hs₁, hfall, Bool.false_eq_true, if_false]
    rfl
  rw [hform, regsBut_quadAngle (regsBut_refl _ [ENC_PT_ANG p]) (List.mem_singleton.2 rfl) (ENC_PT_POS p) (by grind), rd_wr, if_pos rfl]

/-- Hysteresis of a port or wheel (R285). -/
abbrev hystOf (s : State) (u : Nat) : Bool := if u < 8 then flag s (ENC_PT_CFG_HYST u) else flag s (ENC_WH_CFG_HYST (u - 8))

/-- The count that a port or wheel is to report. -/
def reportOf (s : State) (u : Nat) : Int :=
  if hystOf s u then min (cntAt s u).raw (max (cntAt s u).rep ((cntAt s u).raw - 1)) else (cntAt s u).raw

theorem cntAt_reportCount (s : State) (u t : Nat) : cntAt (reportCount s u t) u = { cntAt s u with rep := reportOf s u } := by
  unfold reportCount
  extract_lets c hyst rep s₁ down
  have hrep : reportOf s u = rep := rfl
  rw [hrep]
  split
  case isTrue h => rw [h]
  have h₁ : cntAt s₁ u = { cntAt s u with rep := rep } := cntAt_modCnt ..
  clear_value rep s₁
  split
  · rw [cntAt_of_enc (followCount_cnt ..)]
    exact h₁
  · exact h₁

/-- A reported count that moves on a port in QUAD without fallback moves POS to it. -/
theorem rd_pos_reportCount (hu : u < 8) (hquad : portState s u = esQuad) (hdirect : flag s (ENC_PT_STAT_FALLBK u) = false)
    (hmoves : reportOf s u ≠ (cntAt s u).rep) : rd (reportCount s u t) (ENC_PT_POS u) = BitVec.ofInt 32 (reportOf s u) := by
  unfold reportCount
  extract_lets c hyst rep s₁ down
  rw [if_neg (show ¬ rep = c.rep from hmoves), if_pos hu, rd_pos_followCount]
  · show BitVec.ofInt 32 (cntAt s₁ u).rep = _
    rw [cntAt_modCnt]
    rfl
  · exact (getF_setB_apart (by grind) _).trans hquad
  · exact (flag_setB_apart (by grind) _).trans hdirect

/-- The raw count has moved by `d`, the other way round with INV. -/
abbrev moved (s : State) (u : Nat) (d : Int) : State :=
  modCnt s u fun c => { c with raw := c.raw + if (if u < 8 then flag s (ENC_PT_CFG_INV u) else flag s (ENC_WH_CFG_INV (u - 8))) then -d else d }

theorem cntAt_moveCount (s : State) (u t : Nat) (d : Int) : cntAt (moveCount s u t d) u =
    { cntAt (moved s u d) u with rep := reportOf (moved s u d) u } := cntAt_reportCount ..

end Positions

/-! ### Speed windows and faults (R281, R284, R287, R288) -/

section Faults

variable {s t : State} {u : Nat}

/-- The registers that show the state, the speed and the angle of a port, or the state and the speed of a wheel, and ENC_STAT. -/
def unitRegs (u : Nat) : List Nat :=
  ENC_STAT :: if u < 8 then [ENC_PT_STAT u, ENC_PT_SPD u, ENC_PT_ANG u] else [ENC_WH_STAT (u - 8), ENC_WH_SPD (u - 8)]

theorem unitRegs_port (hu : u < 8) : unitRegs u = [ENC_STAT, ENC_PT_STAT u, ENC_PT_SPD u, ENC_PT_ANG u] := by rw [unitRegs, if_pos hu]

theorem unitRegs_wheel (hu : 8 ≤ u) : unitRegs u = [ENC_STAT, ENC_WH_STAT (u - 8), ENC_WH_SPD (u - 8)] := by rw [unitRegs, if_neg (by omega)]

theorem regsBut_showEnc (s : State) : regsBut s (showEnc s) [ENC_STAT] := by
  unfold showEnc
  exact regsBut_setF (regsBut_setF (regsBut_setF (regsBut_refl _ _) (by simp) _) (by simp) _) (by simp) _

theorem regsBut_showSpeed (hu : u < 12) (s : State) (v : Int) : regsBut s (showSpeed s u v) (unitRegs u) := by
  unfold showSpeed
  by_cases hp : u < 8
  · rw [if_pos hp, unitRegs_port hp]
    exact regsBut_wr (regsBut_refl _ _) (by simp) _
  · rw [if_neg hp, if_pos hu, unitRegs_wheel (by omega)]
    exact regsBut_wr (regsBut_refl _ _) (by simp) _

theorem regsBut_setUnitState (hu : u < 12) (s : State) (st t : Nat) : regsBut s (setUnitState s u st t) (unitRegs u) := by
  unfold setUnitState startWindow
  extract_lets s₁ w
  have h₁ : regsBut s s₁ (unitRegs u) := by
    unfold s₁
    split
    case isTrue hp =>
      rw [unitRegs_port hp]
      exact regsBut_setF (regsBut_refl _ _) (by simp) _
    case isFalse hp =>
      rw [unitRegs_wheel (by omega)]
      exact regsBut_setF (regsBut_refl _ _) (by simp) _
  clear_value s₁ w
  set s₂ := modCnt s₁ u fun c => { c with win := t, winAt := w, edges := 0, fast := false } with hs₂
  have h₂ : regsBut s s₂ (unitRegs u) := regsBut_put h₁ rfl
  clear_value s₂
  exact regsBut_trans (regsBut_trans h₂ (regsBut_showSpeed hu _ _)) (regsBut_mono (regsBut_showEnc _) (by simp [unitRegs]))

theorem regsBut_enterFault (hu : u < 12) (s : State) : regsBut s (enterFault s u) (unitRegs u ++ lossCounters) := by
  unfold enterFault
  extract_lets s₁
  have h₁ : regsBut s s₁ (unitRegs u ++ lossCounters) := regsBut_mono (regsBut_setUnitState hu _ _ _) (List.subset_append_left ..)
  clear_value s₁
  refine regsBut_trans ?_ (regsBut_mono (regsBut_record _ _ _ _) (List.subset_append_right ..))
  split
  case isTrue hp => exact regsBut_setB (regsBut_put h₁ rfl) (by simp [unitRegs_port hp]) _
  case isFalse => exact h₁

/-- The raw count of an input and its filtered levels. -/
def sensed (c : Counter) : Int × Bool × Bool := (c.raw, c.a, c.b)

theorem showEnc_enc (s : State) : (showEnc s).enc = s.enc := rfl

theorem showSpeed_enc (s : State) (u : Nat) (v : Int) : (showSpeed s u v).enc = s.enc := by
  unfold showSpeed
  split_ifs <;> rfl

theorem cntAt_setUnitState (s : State) (u st t : Nat) : ∃ w,
    cntAt (setUnitState s u st t) u = { cntAt s u with win := t, winAt := w, edges := 0, fast := false } := by
  unfold setUnitState startWindow
  extract_lets s₁ w
  refine ⟨w, ?_⟩
  have h₁ : s₁.enc.cnt = s.enc.cnt := by
    unfold s₁
    split <;> rfl
  rw [cntAt_of_enc (congrArg EncState.cnt (showEnc_enc _)), cntAt_of_enc (congrArg EncState.cnt (showSpeed_enc ..)), cntAt_modCnt, cntAt_of_enc h₁]

theorem sensed_enterFault (s : State) (u : Nat) : sensed (cntAt (enterFault s u) u) = sensed (cntAt s u) := by
  obtain ⟨w, hw⟩ := cntAt_setUnitState s u esFault (nowTick s + slotsPerStep)
  have h₁ : sensed (cntAt (setUnitState s u esFault (nowTick s + slotsPerStep)) u) = sensed (cntAt s u) := by rw [hw]; rfl
  simp only [enterFault]
  generalize setUnitState s u esFault (nowTick s + slotsPerStep) = s₁ at h₁ ⊢
  rw [cntAt_of_enc (congrArg EncState.cnt (enc_record ..))]
  split
  · rwa [cntAt_setB, cntAt_modSer]
  · exact h₁

/-- The register and the field that count the illegal transitions of a port or wheel. -/
def illegalCount (u : Nat) : Field := if u < 8 then ENC_PT_CNT_ILLEGAL u else ENC_WH_FLT_ILLEGAL (u - 8)

theorem illegalCount_port (hu : u < 8) : illegalCount u = ENC_PT_CNT_ILLEGAL u := if_pos hu

theorem illegalCount_wheel (hu : 8 ≤ u) : illegalCount u = ENC_WH_FLT_ILLEGAL (u - 8) := if_neg (by omega)

theorem illegalCount_not_unitRegs (hu : u < 12) : (illegalCount u).reg ∉ unitRegs u ++ lossCounters := by
  by_cases hp : u < 8
  · rw [illegalCount_port hp, unitRegs_port hp]
    grind [lossCounters]
  · rw [illegalCount_wheel (by omega), unitRegs_wheel (by omega)]
    grind [lossCounters]

/-- An illegal transition counts one and moves nothing (R284, R288). -/
theorem illegal_effect (hu : u < 12) (s : State) (t : Nat) : sensed (cntAt (illegal s u t) u) = sensed (cntAt s u) ∧
    getF (illegal s u t) (illegalCount u) = min (getF s (illegalCount u) + 1) 65535 := by
  unfold illegal
  extract_lets s₁ w s₂ s₃ s₄
  have hcnt : getF s₁ (illegalCount u) = min (getF s (illegalCount u) + 1) 65535 := by
    by_cases hp : u < 8
    · simp only [s₁, if_pos hp, illegalCount_port hp]
      exact getF_bump _ _ _ ⟨by simp, by simp⟩
    · simp only [s₁, if_neg hp, illegalCount_wheel (show 8 ≤ u by omega)]
      exact getF_bump _ _ _ ⟨by simp, by simp⟩
  have hraw : sensed (cntAt s₂ u) = sensed (cntAt s u) := by
    have h₁ : cntAt s₁ u = cntAt s u := by
      unfold s₁
      split
      · exact cntAt_bump ..
      · exact cntAt_bump ..
    rw [← h₁]
    show sensed (cntAt (modCnt s₁ u _) u) = _
    rw [cntAt_modCnt]
    split <;> rfl
  replace hcnt : getF s₂ (illegalCount u) = min (getF s (illegalCount u) + 1) 65535 := hcnt
  clear_value s₂
  have hfault (x : State) (hx : cntAt x u = cntAt s₂ u) (hget : getF x (illegalCount u) = getF s₂ (illegalCount u)) :
      sensed (cntAt (enterFault x u) u) = sensed (cntAt s u) ∧ getF (enterFault x u) (illegalCount u) = min (getF s (illegalCount u) + 1) 65535 :=
    ⟨(sensed_enterFault x u).trans ((congrArg sensed hx).trans hraw),
      (getF_of_regsBut (regsBut_enterFault hu x) (illegalCount_not_unitRegs hu)).trans (hget.trans hcnt)⟩
  split
  · exact ⟨hraw, hcnt⟩
  split
  case isTrue hp =>
    have h₃ : getF s₃ (illegalCount u) = getF s₂ (illegalCount u) := by
      rw [illegalCount_port hp]
      exact getF_setB_apart (by grind) _
    split
    · exact hfault s₃ (cntAt_setB ..) h₃
    split
    · refine ⟨(congrArg sensed (cntAt_setB ..)).trans ((congrArg sensed (cntAt_setB ..)).trans hraw), ?_⟩
      rw [illegalCount_port hp] at h₃ hcnt ⊢
      exact (getF_setB_apart (by grind) _).trans (h₃.trans hcnt)
    · exact ⟨(congrArg sensed (cntAt_setB ..)).trans hraw, h₃.trans hcnt⟩
  case isFalse hp =>
    have h₄ : getF s₄ (illegalCount u) = getF s₂ (illegalCount u) := by
      rw [illegalCount_wheel (by omega)]
      exact getF_setB_apart (by grind) _
    split
    · exact ⟨(congrArg sensed (cntAt_setB ..)).trans hraw, h₄.trans hcnt⟩
    · exact hfault s₄ (cntAt_setB ..) h₄

end Faults

end Sys2Proof.Encoders

namespace Sys2Proof.Encoders

open Sys2Proof Sys2Proof.Machine Sys2Proof.Frame Sys2Proof.Pulses

/-! ### Levels of A and B, and the transitions they make (R284) -/

section Quadrature

variable {s : State} {u : Nat} {a b : Bool}

/-- The filtered levels of a port or wheel are taken and shown. -/
def takeLevels (s : State) (u : Nat) (a b : Bool) : State :=
  let s := modCnt s u fun c => { c with a := a, b := b }
  if u < 8 then setF s (ENC_PT_STAT_LVL u) (bit a 0 + bit b 1 + bit ((getF s (ENC_PT_STAT_LVL u)).testBit 2) 2) else copyEmu s 2 (u - 8) a b

theorem cntAt_takeLevels (s : State) (u : Nat) (a b : Bool) : cntAt (takeLevels s u a b) u = { cntAt s u with a := a, b := b } := by
  unfold takeLevels
  extract_lets s₁
  have h₁ : cntAt s₁ u = { cntAt s u with a := a, b := b } := cntAt_modCnt ..
  split
  · exact (cntAt_setF ..).trans h₁
  · exact (cntAt_of_enc (copyEmu_cnt ..) u).trans h₁

theorem getF_takeLevels {g : Field} (hg : u < 8 → Apart (ENC_PT_STAT_LVL u) g) : getF (takeLevels s u a b) g = getF s g := by
  unfold takeLevels
  extract_lets s₁
  split
  case isTrue hu => exact getF_setF_apart (hg hu) _
  case isFalse => exact getF_of_regs (copyEmu_regs s₁ _ _ _ _) g

theorem flag_takeLevels {g : Field} (hg : u < 8 → Apart (ENC_PT_STAT_LVL u) g) : flag (takeLevels s u a b) g = flag s g := by
  rw [flag, getF_takeLevels hg, flag]

theorem counts_takeLevels : counts (takeLevels s u a b) u = counts s u := by
  unfold counts portState
  split
  case isTrue hu =>
    rw [getF_takeLevels (by grind), getF_takeLevels (by grind), flag_takeLevels (by grind)]
  case isFalse hu =>
    rw [getF_takeLevels (fun h => absurd h hu), getF_takeLevels (fun h => absurd h hu)]

theorem inv_takeLevels : (if u < 8 then flag (takeLevels s u a b) (ENC_PT_CFG_INV u) else flag (takeLevels s u a b) (ENC_WH_CFG_INV (u - 8))) =
    (if u < 8 then flag s (ENC_PT_CFG_INV u) else flag s (ENC_WH_CFG_INV (u - 8))) := by
  split
  case isTrue hu => exact flag_takeLevels (by grind)
  case isFalse hu => exact flag_takeLevels fun h => absurd h hu

theorem hyst_takeLevels : hystOf (takeLevels s u a b) u = hystOf s u := by
  unfold hystOf
  split
  case isTrue hu => exact flag_takeLevels (by grind)
  case isFalse hu => exact flag_takeLevels fun h => absurd h hu

theorem quadChange_eq {n : Nat} (t d : Nat) (hn : fltOf s u < n) (hcounts : counts s u = true)
    (hd : (quadPos a b + 4 - quadPos (cntAt s u).a (cntAt s u).b) % 4 = d) :
    quadChange s u a b n t = if d = 2 then illegal (takeLevels s u a b) u t else if d = 1 then moveCount (takeLevels s u a b) u t 1
      else if d = 3 then moveCount (takeLevels s u a b) u t (-1) else takeLevels s u a b := by
  have hc : counts (takeLevels s u a b) u = true := counts_takeLevels.trans hcounts
  subst hd
  rw [quadChange, if_neg (by omega)]
  show (if !counts (takeLevels s u a b) u then _ else _) = _
  rw [if_neg (by simp [hc])]
  rfl

/-- What a transition to a neighbour in the sequence leaves: the count moves by one, and without hysteresis the reported count and POS follow. -/
theorem moveCount_takeLevels (t : Nat) (d : Int) :
    ((cntAt (moveCount (takeLevels s u a b) u t d) u).a = a ∧ (cntAt (moveCount (takeLevels s u a b) u t d) u).b = b) ∧
    (cntAt (moveCount (takeLevels s u a b) u t d) u).raw =
      (cntAt s u).raw + (if (if u < 8 then flag s (ENC_PT_CFG_INV u) else flag s (ENC_WH_CFG_INV (u - 8))) then -d else d) ∧
    (hystOf s u = false → (cntAt (moveCount (takeLevels s u a b) u t d) u).rep = (cntAt (moveCount (takeLevels s u a b) u t d) u).raw ∧
      (u < 8 → portState s u = esQuad → flag s (ENC_PT_STAT_FALLBK u) = false →
        (cntAt (moveCount (takeLevels s u a b) u t d) u).raw ≠ (cntAt s u).rep →
        rd (moveCount (takeLevels s u a b) u t d) (ENC_PT_POS u) = BitVec.ofInt 32 (cntAt (moveCount (takeLevels s u a b) u t d) u).raw)) := by
  rw [cntAt_moveCount, cntAt_modCnt, cntAt_takeLevels, inv_takeLevels]
  refine ⟨⟨rfl, rfl⟩, rfl, fun hhyst => ?_⟩
  have hrep : reportOf (moved (takeLevels s u a b) u d) u = (cntAt (moved (takeLevels s u a b) u d) u).raw := by
    have : hystOf (moved (takeLevels s u a b) u d) u = false := (hyst_takeLevels (s := s) (a := a) (b := b)).trans hhyst
    rw [reportOf, this]
    rfl
  have hraw : (cntAt (moved (takeLevels s u a b) u d) u).raw =
      (cntAt s u).raw + (if (if u < 8 then flag s (ENC_PT_CFG_INV u) else flag s (ENC_WH_CFG_INV (u - 8))) then -d else d) := by
    rw [cntAt_modCnt, cntAt_takeLevels, inv_takeLevels]
  refine ⟨hrep.trans hraw, fun hu hquad hdirect hmoves => ?_⟩
  have hold : (cntAt (moved (takeLevels s u a b) u d) u).rep = (cntAt s u).rep := by rw [cntAt_modCnt, cntAt_takeLevels]
  rw [← hraw, ← hrep]
  refine rd_pos_reportCount hu ?_ ?_ ?_
  · exact (getF_takeLevels (g := ENC_PT_STAT_STATE u) (by grind)).trans hquad
  · exact (flag_takeLevels (g := ENC_PT_STAT_FALLBK u) (by grind)).trans hdirect
  · rw [hrep, hraw, hold]
    exact hmoves

end Quadrature

/-! ### Index, wheel pulses, flow and speed signals (R286, R288, R289, R291) -/

section Edges

variable {s : State} {t n : Nat}

theorem quadTransition_effect {u d : Nat} {a b : Bool} (hu : u < 12) (hn : fltOf s u < n) (hcounts : counts s u = true)
    (hd : (quadPos a b + 4 - quadPos (cntAt s u).a (cntAt s u).b) % 4 = d) :
    ((cntAt (quadChange s u a b n t) u).a = a ∧ (cntAt (quadChange s u a b n t) u).b = b) ∧
    ((d = 1 ∨ d = 3) → (cntAt (quadChange s u a b n t) u).raw = (cntAt s u).raw +
      (if (if u < 8 then flag s (ENC_PT_CFG_INV u) else flag s (ENC_WH_CFG_INV (u - 8))) = decide (d = 1) then -1 else 1)) ∧
    ((d = 1 ∨ d = 3) → hystOf s u = false → (cntAt (quadChange s u a b n t) u).rep = (cntAt (quadChange s u a b n t) u).raw ∧
      (u < 8 → portState s u = esQuad → flag s (ENC_PT_STAT_FALLBK u) = false →
        (cntAt (quadChange s u a b n t) u).raw ≠ (cntAt s u).rep →
        rd (quadChange s u a b n t) (ENC_PT_POS u) = BitVec.ofInt 32 (cntAt (quadChange s u a b n t) u).raw)) ∧
    (d = 2 → (cntAt (quadChange s u a b n t) u).raw = (cntAt s u).raw ∧
      getF (quadChange s u a b n t) (illegalCount u) = min (getF s (illegalCount u) + 1) 65535) := by
  rw [quadChange_eq t d hn hcounts hd]
  by_cases h2 : d = 2
  · rw [if_pos h2]
    obtain ⟨hsensed, hcount⟩ := illegal_effect hu (takeLevels s u a b) t
    rw [cntAt_takeLevels] at hsensed
    have hget : getF (takeLevels s u a b) (illegalCount u) = getF s (illegalCount u) :=
      getF_takeLevels fun hp => by rw [illegalCount_port hp]; grind
    rw [hget] at hcount
    simp only [sensed, Prod.mk.injEq] at hsensed
    obtain ⟨hraw, ha, hb⟩ := hsensed
    exact ⟨⟨ha, hb⟩, fun h => absurd h (by omega), fun h => absurd h (by omega), fun _ => ⟨hraw, hcount⟩⟩
  rw [if_neg h2]
  by_cases h1 : d = 1
  · rw [if_pos h1]
    obtain ⟨hlevels, hraw, hrep⟩ := moveCount_takeLevels (s := s) (u := u) (a := a) (b := b) t 1
    exact ⟨hlevels, fun _ => by simpa [h1] using hraw, fun _ => hrep, fun h => absurd h h2⟩
  rw [if_neg h1]
  by_cases h3 : d = 3
  · rw [if_pos h3]
    obtain ⟨hlevels, hraw, hrep⟩ := moveCount_takeLevels (s := s) (u := u) (a := a) (b := b) t (-1)
    refine ⟨hlevels, fun _ => ?_, fun _ => hrep, fun h => absurd h h2⟩
    rw [hraw]
    generalize (if u < 8 then flag s (ENC_PT_CFG_INV u) else flag s (ENC_WH_CFG_INV (u - 8))) = inv
    cases inv <;> simp [h1]
  · rw [if_neg h3, cntAt_takeLevels]
    exact ⟨⟨rfl, rfl⟩, fun h => absurd h (by omega), fun h => absurd h (by omega), fun h => absurd h h2⟩

theorem keeps_quadChange (s : State) (u : Nat) (a b : Bool) (n t : Nat) :
    Keeps (· ∈ [.regs, .recd, .enc]) s (quadChange s u a b n t) :=
  quadChange_keeps _ _ _ _ _ _ (allows_of_subset (by decide)) (Keeps.refl ..)

theorem cntAt_edgeEvent (s : State) (l t u : Nat) : cntAt (edgeEvent s l t) u = cntAt s u :=
  cntAt_of_enc (congrArg EncState.cnt
    ((edgeEvent_keeps (R := (· ∈ [Part.regs, .sys])) s l t (allows_of_subset (by decide)) (Keeps.refl ..)).same .enc (by decide))) u

/-- A rising edge of Z on a counting port: the count is kept in IDX, and REFD is set; what POS and ANG show may change. -/
theorem indexEdge_effect {p : Nat} (hn : fltOf s p < n) (hlow : (getF s (ENC_PT_STAT_LVL p)).testBit 2 = false) (hcounts : counts s p = true)
    (hp : p < 8) : ∃ s₁, cntAt s₁ p = cntAt s p ∧ regsBut s s₁ [ENC_PT_IDX p, ENC_PT_STAT p, CLK_X_CNT 1] ∧
      getF s₁ (ENC_PT_CFG_ZMODE p) = getF s (ENC_PT_CFG_ZMODE p) ∧
      rd s₁ (ENC_PT_IDX p) = BitVec.ofInt 32 (cntAt s p).rep ∧ flag s₁ (ENC_PT_STAT_REFD p) = true ∧
      indexEdge s p true n t =
        if getF s₁ (ENC_PT_CFG_ZMODE p) = 2 ∨ (getF s₁ (ENC_PT_CFG_ZMODE p) = 1 ∧ !(serAt s₁ p).zDone) then
          zeroCount (modSer s₁ p fun x => { x with zDone := true }) p t
        else followCount s₁ p t := by
  unfold indexEdge
  extract_lets was sl se s₁ m
  have hl : regsBut s sl [ENC_PT_STAT p] := regsBut_setF (regsBut_refl _ _) (List.mem_singleton.2 rfl) _
  have hcl : counts sl p = true := by
    rw [← hcounts]
    unfold counts portState
    rw [if_pos hp, if_pos hp, getF_setF_apart (by grind), getF_setF_apart (by grind), flag_setF_apart (by grind)]
  have he : regsBut s se [ENC_PT_STAT p, CLK_X_CNT 1] :=
    regsBut_trans (regsBut_mono hl (by simp)) (regsBut_mono (regsBut_edgeEvent sl p t) (by simp))
  have hcnt : cntAt se p = cntAt s p := (cntAt_edgeEvent sl p t p).trans (cntAt_setF ..)
  have h₁ : regsBut s s₁ [ENC_PT_IDX p, ENC_PT_STAT p, CLK_X_CNT 1] :=
    regsBut_setB (regsBut_wr (regsBut_mono he (by simp)) (by simp) _) (by simp) _
  have hcnt₁ : cntAt s₁ p = cntAt s p := (cntAt_setB ..).trans ((cntAt_wr ..).trans hcnt)
  refine ⟨s₁, hcnt₁, h₁, getF_of_regsBut h₁ (by grind), ?_, ?_, ?_⟩
  · show rd (setB (wr se _ _) _ true) _ = _
    rw [hcnt, rd_setB_ne _ _ _ _ (by grind), rd_wr, if_pos rfl]
  · exact flag_setB _ _ _ (by grind)
  · rw [if_neg (by simp [was, hlow]; omega), if_neg (by simp [hcl])]

theorem cntAt_zeroCount (s : State) (p t : Nat) : cntAt (zeroCount s p t) p = { cntAt s p with raw := 0, rep := 0 } := by
  rw [zeroCount, cntAt_of_enc (followCount_cnt ..), cntAt_modCnt]

theorem regsBut_zeroCount (s : State) (p t : Nat) : regsBut s (zeroCount s p t) [ENC_PT_POS p, ENC_PT_ANG p] :=
  regsBut_before (regsBut_followCount _ _ _) rfl

theorem keeps_indexEdge (s : State) (p : Nat) (z : Bool) (n t : Nat) : Keeps (· ∈ [.regs, .sys, .enc]) s (indexEdge s p z n t) :=
  indexEdge_keeps _ _ _ _ _ (allows_of_subset (by decide)) (Keeps.refl ..)

theorem indexEdge_rising {p : Nat} (hn : fltOf s p < n) (hlow : (getF s (ENC_PT_STAT_LVL p)).testBit 2 = false) (hcounts : counts s p = true)
    (hp : p < 8) : rd (indexEdge s p true n t) (ENC_PT_IDX p) = BitVec.ofInt 32 (cntAt s p).rep ∧ flag (indexEdge s p true n t) (ENC_PT_STAT_REFD p) = true ∧
      (getF s (ENC_PT_CFG_ZMODE p) = 2 → (cntAt (indexEdge s p true n t) p).raw = 0 ∧ (cntAt (indexEdge s p true n t) p).rep = 0) ∧
      (getF s (ENC_PT_CFG_ZMODE p) = 0 → cntAt (indexEdge s p true n t) p = cntAt s p) ∧
      regsBut s (indexEdge s p true n t) [ENC_PT_IDX p, ENC_PT_STAT p, ENC_PT_POS p, ENC_PT_ANG p, CLK_X_CNT 1] := by
  obtain ⟨s₁, hcnt, hregs, hmode, hidx, hrefd, heq⟩ := indexEdge_effect (t := t) hn hlow hcounts hp
  rw [hmode] at heq
  have hshown : regsBut s₁ (indexEdge s p true n t) [ENC_PT_POS p, ENC_PT_ANG p] := by
    rw [heq]
    split
    · exact regsBut_before (regsBut_zeroCount _ _ _) rfl
    · exact regsBut_followCount _ _ _
  refine ⟨(hshown _ (by grind)).trans hidx, (flag_of_regsBut hshown (by grind)).trans hrefd, fun h2 => ?_, fun h0 => ?_,
    regsBut_trans (regsBut_mono hregs (by simp)) (regsBut_mono hshown (by simp))⟩
  · rw [heq, if_pos (Or.inl h2), cntAt_zeroCount]
    exact ⟨rfl, rfl⟩
  · rw [heq, if_neg (by simp [h0]), cntAt_of_enc (followCount_cnt ..), hcnt]

/-- The levels that a pulse input of a wheel takes. -/
def takePulse (s : State) (w : Nat) (rising b : Bool) : State :=
  copyEmu (modCnt s (8 + w) fun c => { c with a := rising, b := b }) 2 w rising b

theorem takePulse_regs (s : State) (w : Nat) (rising b : Bool) : (takePulse s w rising b).regs = s.regs := copyEmu_regs ..

theorem cntAt_takePulse (s : State) (w : Nat) (rising b : Bool) :
    cntAt (takePulse s w rising b) (8 + w) = { cntAt s (8 + w) with a := rising, b := b } := by
  rw [takePulse, cntAt_of_enc (copyEmu_cnt ..), cntAt_modCnt]

theorem wheelPulse_eq {w : Nat} {b : Bool} (hn : fltOf s (8 + w) < n) (hon : getF s (ENC_WH_STAT_STATE w) ≠ esOff) :
    wheelPulse s w true b n t = if getF s (ENC_WH_CFG_MODE w) = 2 then moveCount (takePulse s w true b) (8 + w) t (if b then 1 else -1)
      else if getF s (ENC_WH_CFG_MODE w) = 3 then reportCount (modCnt (takePulse s w true b) (8 + w) fun c => { c with raw := c.raw + 1 }) (8 + w) t
      else takePulse s w true b := by
  have hget (f : Field) : getF (takePulse s w true b) f = getF s f := getF_of_regs (takePulse_regs ..) f
  rw [wheelPulse, if_neg (by omega)]
  show (if (!true || decide (getF (takePulse s w true b) (ENC_WH_STAT_STATE w) = esOff)) = true then _ else
    if getF (takePulse s w true b) (ENC_WH_CFG_MODE w) = 2 then _ else if getF (takePulse s w true b) (ENC_WH_CFG_MODE w) = 3 then _ else _) = _
  rw [hget, hget, if_neg (by simp [hon])]
  rfl

theorem wheelPulse_falling {w : Nat} {b : Bool} (hn : fltOf s (8 + w) < n) : wheelPulse s w false b n t = takePulse s w false b := by
  rw [wheelPulse, if_neg (by omega)]
  rfl

theorem flowEdge_glitch {f len : Nat} {r : Bool} (hen : flag s (SNS_PLS_CFG_EN f) = true) (hlen : len < max 1 (getF s (SNS_PLS_CFG_DEB f) * 100)) :
    flowEdge s f r len = bump s (SNS_PLS_STAT_GLITCH f) := by
  rw [flowEdge, if_neg (by simp [hen]), if_pos hlen]

theorem flowEdge_counts {f len : Nat} {r : Bool} (hen : flag s (SNS_PLS_CFG_EN f) = true) (hlen : max 1 (getF s (SNS_PLS_CFG_DEB f) * 100) ≤ len)
    (hedge : (getF s (SNS_PLS_CFG_EDGE f)).testBit (if r then 0 else 1) = true) : flowEdge s f r len =
      wr (modCnt s (14 + f) fun c => { c with edges := c.edges + 1 }) (SNS_PLS_TOT f) (rd s (SNS_PLS_TOT f) + 1) := by
  rw [flowEdge, if_neg (by simp [hen]), if_neg (by omega), if_pos hedge]

/-- The levels that a speed signal input takes. -/
def takeSignal (s : State) (i : Nat) (dir level : Bool) : State :=
  let u := 12 + i
  let s := modCnt s u fun c => if dir then { c with b := level } else { c with a := level }
  copyEmu s 3 i (cntAt s u).a (cntAt s u).b

theorem takeSignal_regs (s : State) (i : Nat) (dir level : Bool) : (takeSignal s i dir level).regs = s.regs := copyEmu_regs ..

theorem cntAt_takeSignal (s : State) (i : Nat) (dir level : Bool) :
    cntAt (takeSignal s i dir level) (12 + i) =
      if dir then { cntAt s (12 + i) with b := level } else { cntAt s (12 + i) with a := level } := by
  rw [takeSignal, cntAt_of_enc (copyEmu_cnt ..), cntAt_modCnt]

/-- The edge of a speed signal came less than 100 µs after the last one. -/
def tooEarly (s : State) (i t : Nat) : Bool := match (cntAt s (12 + i)).lastEdge with
  | some x => decide (t < x + per100us)
  | none => false

theorem speedEdge_dir (s : State) (i : Nat) (l : Bool) (t : Nat) : speedEdge s i true l t = takeSignal s i true l := rfl

theorem speedEdge_rising {i : Nat} (hi : i < 2) (hen : flag s (SNS_ISO_CFG_EN i) = true) : speedEdge s i false true t =
    let e := modCnt (takeSignal s i false true) (12 + i) fun c =>
      { c with edges := c.edges + 1, lastEdge := some t, fast := c.fast || tooEarly s i t }
    if tooEarly s i t then setB (setB e (SNS_ISO_STAT_OVF i) true) (SNS_ISO_STAT_VALID i) false else e := by
  have hon : unitOn (takeSignal s i false true) (12 + i) = true := by
    rw [unitOn, if_neg (by omega), if_neg (by omega), if_pos (by omega), flag_of_regs (takeSignal_regs ..)]
    simpa using hen
  show (if (false || !true || !unitOn (takeSignal s i false true) (12 + i)) = true then _ else _) = _
  rw [if_neg (by simp [hon])]
  rfl

end Edges

/-! ### Speed windows and the encoder emulation (R287, R290) -/

section Speeds

variable {s : State} {u : Nat}

/-- The next window of an input has begun where this one ended. -/
def nextWindow (s : State) (u : Nat) : State :=
  modCnt s u fun c => { c with win := (cntAt s u).win + unitWin s u * 100000, winAt := windowCount s u, edges := 0, fast := false }

theorem windowEnd_port (hon : unitOn s u = true) (hu : u < 8) (hquad : portState s u = esQuad) : windowEnd s u =
    wr (modSer (nextWindow s u) u fun x => { x with spdAt := some ((cntAt s u).win + unitWin s u * 100000) }) (ENC_PT_SPD u)
      (BitVec.ofInt 32 (roundDiv (((cntAt s u).rep - (cntAt s u).winAt) * 1000000) (unitWin s u * 500))) := by
  have hserial : ¬(u < 8 ∧ portState s u = esSerial) := by simp [hquad, esQuad, esSerial]
  have hfault : portState (nextWindow s u) u ≠ esFault := by
    show portState s u ≠ esFault
    simp [hquad, esQuad, esFault]
  rw [windowEnd, if_neg (by simp [hon])]
  extract_lets n c t v dv s₁ flt s₂ i spd back s₃ s₄ s₅ s₆
  have hdv : dv = (cntAt s u).rep - (cntAt s u).winAt := by
    simp only [dv, if_neg hserial, v, windowCount]
    rfl
  have hflt : flt = false := by
    simp only [flt, if_pos hu]
    exact decide_eq_false hfault
  rw [if_pos (by omega), hflt, if_neg (by decide), hdv]
  simp only [s₂, if_pos hu, showSpeed]
  rfl

theorem windowEnd_wheel (hon : unitOn s u = true) (hlo : 8 ≤ u) (hhi : u < 12) (hfault : getF s (ENC_WH_STAT_STATE (u - 8)) ≠ esFault) :
    windowEnd s u = wr (nextWindow s u) (ENC_WH_SPD (u - 8))
      (BitVec.ofInt 32 (roundDiv (((cntAt s u).rep - (cntAt s u).winAt) * 1000000) (unitWin s u * 500))) := by
  have hserial : ¬(u < 8 ∧ portState s u = esSerial) := by omega
  rw [windowEnd, if_neg (by simp [hon])]
  extract_lets n c t v dv s₁ flt s₂ i spd back s₃ s₄ s₅ s₆
  have hdv : dv = (cntAt s u).rep - (cntAt s u).winAt := by
    simp only [dv, if_neg hserial, v, windowCount]
    rfl
  have hflt : flt = false := by
    simp only [flt, if_neg (show ¬ u < 8 by omega)]
    exact decide_eq_false hfault
  rw [if_pos hhi, hflt, if_neg (by decide), hdv]
  simp only [s₂, if_neg (show ¬ u < 8 by omega), showSpeed, if_pos hhi]
  rfl

theorem windowEnd_flow (hon : unitOn s u = true) (hlo : 14 ≤ u) : windowEnd s u =
    wr (setF (nextWindow s u) (SNS_PLS_STAT_EDGES (u - 14)) (min 65535 (cntAt s u).edges)) (SNS_PLS_FREQ (u - 14))
      (BitVec.ofInt 32 (roundDiv (((cntAt s u).edges : Int) * 1000000000) (unitWin s u * 500))) := by
  rw [windowEnd, if_neg (by simp [hon])]
  extract_lets n c t v dv s₁ flt s₂ i spd back s₃ s₄ s₅ s₆
  rw [if_neg (by omega), if_neg (by omega), showSpeed, if_neg (by omega), if_neg (by omega), if_neg (by omega)]
  rfl

theorem cntAt_nextWindow (s : State) (u : Nat) : cntAt (nextWindow s u) u =
    { cntAt s u with win := (cntAt s u).win + unitWin s u * 100000, winAt := windowCount s u, edges := 0, fast := false } := cntAt_modCnt ..

theorem windowCount_rep (h : ¬(u < 8 ∧ portState s u = esSerial)) : windowCount s u = (cntAt s u).rep := if_neg h

/-- The output of the emulation has passed its next edge. -/
def emuTurned (w : Nat) (form : Bool) (e : Emu) : Emu :=
  if form then { e with acc := e.acc - w, a := !e.a, b := e.fwd }
  else
    let q := if e.fwd then (e.phase + 1) % 4 else (e.phase + 3) % 4
    { e with acc := e.acc - w, phase := q, a := decide (q = 1 ∨ q = 2), b := decide (q = 2 ∨ q = 3) }

theorem emuEdge_eq {k t : Nat} (hen : flag s (ENC_EMU_CFG_EN k) = true) (hsrc : getF s (ENC_EMU_CFG_SRC k) < 2)
    (hacc : emuWay s k ≤ (emuAt (emuRun s k t) k).acc) :
    emuEdge s k t = modEmu (emuRun s k t) k (emuTurned (emuWay s k) (flag s (ENC_EMU_CFG_FORM k))) := by
  have hc : (!flag s (ENC_EMU_CFG_EN k) || decide (2 ≤ getF s (ENC_EMU_CFG_SRC k)) || decide ((emuAt (emuRun s k t) k).acc < emuWay s k)) = false := by
    simp [hen]
    omega
  have hflag (f : Field) : flag (emuRun s k t) f = flag s f := rfl
  have hget (f : Field) : getF (emuRun s k t) f = getF s f := rfl
  unfold emuTurned
  simp only [emuEdge, hflag, hget]
  rw [← emuWay, hc, if_neg (by decide)]
  cases flag s (ENC_EMU_CFG_FORM k)
  · simp only [Bool.false_eq_true, if_false]
  · simp only [if_true]

end Speeds

theorem emuAt_emuRun (s : State) (k t : Nat) :
    emuAt (emuRun s k t) k = { emuAt s k with acc := (emuAt s k).acc + (emuAt s k).rate * (t - (emuAt s k).at_), at_ := max (emuAt s k).at_ t } :=
  emuAt_modEmu ..

theorem keeps_emuEdge (s : State) (k t : Nat) : Keeps (· ∈ [.enc]) s (emuEdge s k t) :=
  emuEdge_keeps _ _ _ (allows_of_subset (by decide)) (Keeps.refl ..)

theorem keeps_wheelPulse (s : State) (w : Nat) (r b : Bool) (n t : Nat) : Keeps (· ∈ [.regs, .enc]) s (wheelPulse s w r b n t) :=
  wheelPulse_keeps _ _ _ _ _ _ (allows_of_subset (by decide)) (Keeps.refl ..)

theorem partsBut_flowEdge (s : State) (f len : Nat) (r : Bool) : partsBut s (flowEdge s f r len) [.regs, .enc] :=
  partsBut_of_keeps (flowEdge_keeps _ _ _ _ (allows_of_subset (by decide)) (Keeps.refl ..))

theorem partsBut_speedEdge (s : State) (i t : Nat) (d l : Bool) : partsBut s (speedEdge s i d l t) [.regs, .enc] :=
  partsBut_of_keeps (speedEdge_keeps _ _ _ _ _ (allows_of_subset (by decide)) (Keeps.refl ..))

theorem partsBut_windowEnd (s : State) (u : Nat) : partsBut s (windowEnd s u) [.regs, .enc] :=
  partsBut_of_keeps (windowEnd_keeps _ _ (allows_of_subset (by decide)) (Keeps.refl ..))

theorem speedEdge_counts {s : State} {i t : Nat} (hi : i < 2) (hen : flag s (SNS_ISO_CFG_EN i) = true) :
    (cntAt (speedEdge s i false true t) (12 + i)).edges = (cntAt s (12 + i)).edges + 1 ∧
    (cntAt (speedEdge s i false true t) (12 + i)).lastEdge = some t ∧
    (∀ u, (cntAt s (12 + i)).lastEdge = some u → t < u + per100us →
      flag (speedEdge s i false true t) (SNS_ISO_STAT_OVF i) = true ∧ flag (speedEdge s i false true t) (SNS_ISO_STAT_VALID i) = false) ∧
    regsBut s (speedEdge s i false true t) [SNS_ISO_STAT i] := by
  rw [speedEdge_rising hi hen]
  extract_lets e
  have hcnt : cntAt e (12 + i) = { cntAt s (12 + i) with
      a := true, edges := (cntAt s (12 + i)).edges + 1, lastEdge := some t, fast := (cntAt s (12 + i)).fast || tooEarly s i t } := by
    rw [cntAt_modCnt, cntAt_takeSignal]
    rfl
  have hregs : regsBut s e [SNS_ISO_STAT i] := regsBut_of_regs (takeSignal_regs s i false true) _
  clear_value e
  by_cases hearly : tooEarly s i t = true
  · rw [if_pos hearly]
    refine ⟨?_, ?_, fun _ _ _ => ⟨?_, flag_setB _ _ _ (by grind)⟩, regsBut_setB (regsBut_setB hregs (by simp) _) (by simp) _⟩
    · rw [cntAt_setB, cntAt_setB, hcnt]
    · rw [cntAt_setB, cntAt_setB, hcnt]
    · rw [flag_setB_apart (by grind)]
      exact flag_setB _ _ _ (by grind)
  · rw [if_neg hearly]
    refine ⟨by rw [hcnt], by rw [hcnt], fun u hu hsoon => absurd ?_ hearly, hregs⟩
    simp [tooEarly, hu, hsoon]

/-- Settles O31: the transitions, edges and window ends each have their equation, and what shows a count touches no count. -/
theorem countersSpeedsAndEmulation : Obligations.CountersSpeedsAndEmulation := by
  unfold Obligations.CountersSpeedsAndEmulation
  refine ⟨⟨fun s u a b n t d hu hn hcounts hd => ?_, fun s p n t hp hn hlow hcounts => ?_, fun s w n t b hw hn hon => ⟨fun hm => ?_, fun hm => ?_, ?_⟩,
    fun s f n r hf hen => ⟨fun hshort => ?_, fun hlong hedge => ?_⟩, fun s i t l hi hen => ⟨?_, ?_⟩⟩,
    fun s u hon => ⟨fun hu hquad => ?_, fun hlo hhi hfault => ?_, fun hlo hhi => ?_⟩, fun s k t hk hen hsrc hacc => ?_⟩
  · obtain ⟨hlevels, hraw, hrep, hillegal⟩ := quadTransition_effect (t := t) hu hn hcounts hd
    refine answers_of_answer rfl (by simp [hu]) ⟨hlevels, hraw, hrep, fun h2 => ?_, partsBut_of_keeps (keeps_quadChange ..)⟩
    obtain ⟨hstands, hcnt⟩ := hillegal h2
    exact ⟨hstands, fun hp => illegalCount_port hp ▸ hcnt, fun hw => illegalCount_wheel hw ▸ hcnt⟩
  · obtain ⟨hidx, hrefd, hzero, hstands, hregs⟩ := indexEdge_rising (t := t) hn hlow hcounts hp
    exact answers_of_answer rfl (by simp [hp]) ⟨hidx, hrefd, hzero, hstands, hregs, partsBut_of_keeps (keeps_indexEdge ..)⟩
  · refine answers_of_answer rfl (by simp [hw]) ?_
    rw [wheelPulse_eq hn hon, if_neg (by simp [hm]), if_pos hm, cntAt_reportCount, cntAt_modCnt, cntAt_takePulse]
  · refine answers_of_answer rfl (by simp [hw]) ?_
    rw [wheelPulse_eq hn hon, if_pos hm, cntAt_moveCount, cntAt_modCnt, cntAt_takePulse]
    have hinv : flag (takePulse s w true b) (ENC_WH_CFG_INV w) = flag s (ENC_WH_CFG_INV w) := flag_of_regs (takePulse_regs ..) _
    simp only [show ¬ 8 + w < 8 by omega, if_false, Nat.add_sub_cancel_left, hinv]
    generalize flag s (ENC_WH_CFG_INV w) = inv
    cases inv <;> cases b <;> rfl
  · refine answers_of_answer rfl (by simp [hw]) ?_
    rw [wheelPulse_falling hn]
    refine ⟨by rw [cntAt_takePulse], takePulse_regs .., ?_⟩
    exact partsBut_of_keeps (copyEmu_keeps _ _ _ _ _ (allows_of_subset (by decide)) (modCnt_keeps _ _ _ (allows_of_subset (by decide)) (Keeps.refl ..)))
  · refine answers_of_answer rfl (by simp [hf]) ?_
    rw [flowEdge_glitch hen hshort]
    exact ⟨getF_bump _ _ _ (by grind), regsBut_bump (regsBut_refl _ _) (by simp) _,
      partsBut_of_keeps (bump_keeps _ _ _ (allows_of_subset (by decide)) (Keeps.refl ..))⟩
  · have hparts := partsBut_flowEdge s f n r
    refine answers_of_answer rfl (by simp [hf]) ?_
    rw [flowEdge_counts hen hlong hedge] at hparts ⊢
    refine ⟨by rw [rd_wr, if_pos rfl], ?_, regsBut_wr (regsBut_of_regs rfl _) (by simp) _, hparts⟩
    rw [cntAt_wr, cntAt_modCnt]
  · refine answers_of_answer rfl (by simp [hi]) ?_
    rw [speedEdge_dir, cntAt_takeSignal]
    exact ⟨rfl, rfl, takeSignal_regs .., partsBut_of_keeps
      (copyEmu_keeps _ _ _ _ _ (allows_of_subset (by decide)) (modCnt_keeps _ _ _ (allows_of_subset (by decide)) (Keeps.refl ..)))⟩
  · obtain ⟨hedges, hlast, hsoon, hregs⟩ := speedEdge_counts (t := t) hi hen
    exact answers_of_answer rfl (by simp [hi]) ⟨hedges, hlast, hsoon, hregs, partsBut_speedEdge ..⟩
  · have hparts := partsBut_windowEnd s u
    refine answers_of_answer rfl (by simp; omega) ?_
    rw [windowEnd_port hon hu hquad] at hparts ⊢
    refine ⟨by rw [rd_wr, if_pos rfl], ?_, ?_, regsBut_wr (regsBut_of_regs rfl _) (by simp) _, hparts⟩
    · rw [cntAt_wr, cntAt_modSer, cntAt_nextWindow]
    · rw [cntAt_wr, cntAt_modSer, cntAt_nextWindow, ← windowCount_rep (by simp [hquad, esQuad, esSerial])]
  · have hparts := partsBut_windowEnd s u
    refine answers_of_answer rfl (by simp; omega) ?_
    rw [windowEnd_wheel hon hlo hhi hfault] at hparts ⊢
    refine ⟨by rw [rd_wr, if_pos rfl], ?_, ?_, regsBut_wr (regsBut_of_regs rfl _) (by simp) _, hparts⟩
    · rw [cntAt_wr, cntAt_nextWindow]
    · rw [cntAt_wr, cntAt_nextWindow, ← windowCount_rep (by omega)]
  · have hparts := partsBut_windowEnd s u
    refine answers_of_answer rfl (by simp [hhi]) ?_
    rw [windowEnd_flow hon hlo] at hparts ⊢
    refine ⟨by rw [rd_wr, if_pos rfl], ?_, ?_, regsBut_wr (regsBut_setF (regsBut_of_regs rfl _) (by simp) _) (by simp) _, hparts⟩
    · rw [getF_wr_apart (by grind), getF_setF _ _ _ (by grind)]
      exact Nat.mod_eq_of_lt (by grind)
    · rw [cntAt_wr, cntAt_setF, cntAt_nextWindow]
  · have hparts := partsBut_of_keeps (keeps_emuEdge s k t)
    refine answers_of_answer rfl (by simp [hk]) ?_
    rw [emuEdge_eq hen hsrc hacc] at hparts ⊢
    refine ⟨?_, ?_, rfl, hparts⟩
    · rw [emuAt_modEmu]
      unfold emuTurned
      cases flag s (ENC_EMU_CFG_FORM k)
      · exact Nat.sub_add_cancel hacc
      · exact Nat.sub_add_cancel hacc
    · rw [emuAt_modEmu, emuAt_emuRun]
      cases flag s (ENC_EMU_CFG_FORM k)
      · refine ⟨?_, rfl, rfl⟩
        show (if (emuAt s k).fwd then _ else _) = _
        split <;> rfl
      · exact ⟨rfl, rfl⟩

end Sys2Proof.Encoders

namespace Sys2Proof.HostWrites

open Sys2Proof Sys2Proof.Machine Sys2Proof.Frame Sys2Proof.Mailbox

/-! ### The write of one register by a host (R6, R41, R406) -/

/-- The state on which a host's write works: its effects come into force at the coming boundary (R41). -/
def ahead (s : State) : State := { s with sys := { s.sys with atBoundary := true } }

/-- The state that a host's write leaves: it is noted in which step the slot's last command ran (R42). -/
def settled (s : State) (h : Nat) (t : State) : State :=
  modSlot { t with sys := { t.sys with atBoundary := false } } h fun x => { x with ranIn := some s.now }

section HostItems

variable {s : State} {h : Nat} {w : WItem}

theorem hostItems_eq {l : List WItem} (hs : serves s h) (hstart : startsNow s h l) : hostItems s h l =
    if (writeItems (ahead s) h l).2.isNone then (settled s h (writeItems (ahead s) h l).1, true) else (s, false) := by
  obtain ⟨-, hatt, hup⟩ := hs
  rw [hostItems, if_pos (by rw [hatt, hup]; rfl), if_pos (show rowStarts s h l = true from hstart)]
  rfl

theorem hostItems_taken {l : List WItem} (hs : serves s h) (hstart : startsNow s h l) (hok : (writeItems (ahead s) h l).2 = none) :
    hostItems s h l = (settled s h (writeItems (ahead s) h l).1, true) := by
  rw [hostItems_eq hs hstart, if_pos (by rw [hok]; rfl)]

theorem hostItems_refused {l : List WItem} (hs : serves s h) (hstart : startsNow s h l) (hno : (writeItems (ahead s) h l).2 ≠ none) :
    hostItems s h l = (s, false) := by
  rw [hostItems_eq hs hstart, if_neg (by simpa using hno)]

theorem hostItems_one (hs : serves s h) (hstart : startsNow s h [w]) (ht : isTripClear w = false) (hc : checkItem (ahead s) h w = stOk) :
    hostItems s h [w] = (settled s h (takeItem (ahead s) (ahead s) h w), true) := by
  have hw := writeItems_one (ahead s) h ht
  rw [if_pos hc] at hw
  rw [hostItems_taken hs hstart (congrArg Prod.snd hw), hw]

theorem hostItems_one_refused (hs : serves s h) (hstart : startsNow s h [w]) (ht : isTripClear w = false) (hc : checkItem (ahead s) h w ≠ stOk) :
    hostItems s h [w] = (s, false) := by
  have hw := writeItems_one (ahead s) h ht
  rw [if_neg hc] at hw
  exact hostItems_refused hs hstart (by rw [hw]; simp)

/-! ### Checks and values -/

theorem checkItem_ok {r : RegRow} {v : Word} (hrow : regRow w.idx = some r) (htouch : w.mask &&& writable r ≠ 0) (hresv : w.resv = false)
    (hmay : mayWrite s h w.idx w.mask (itemWord s h w) = true) (hval : storeValue s h w.idx (itemWord s h w) = some v)
    (hrule : stateRule s h w.idx w.mask (viewOf s h w.idx) v = .ok) : checkItem s h w = stOk := by
  have hassigned : regAssigned w.idx = true := by simp [regAssigned, hrow]
  have ht : touches w = true := by simpa [touches, hrow] using htouch
  simp [checkItem, hassigned, ht, hmay, hresv, hval, hrule, verdictStatus]

theorem takeItem_eq {s0 : State} {r : RegRow} {v : Word} (hrow : regRow w.idx = some r) (htouch : w.mask &&& writable r ≠ 0)
    (hval : storeValue s h w.idx (itemWord s h w) = some v) :
    takeItem s0 s h w = scrub (writeEffect s0 s (storeItem s h w.idx v) h w.idx (viewOf s h w.idx) v) w.idx := by
  have ht : touches w = true := by simpa [touches, hrow] using htouch
  simp [takeItem, ht, itemValue, hval]

/-- A host sees the register as it is stored. -/
def seenAsStored (i : Nat) : Bool :=
  !isWindow i && !isSelector i && (ringWin i).isNone && !(canPage i && inRange 0xC1 0xC2 (i % 256)) && decide (i ≠ GNS_SLOT_CFG) && !gnsWaits i
    && decide (i ≠ SYS_STEP_CNT) && decide (i ≠ REC_STAT) && !(inRange 0x0110 0x012F i && decide (i % 8 = 1))
    && !(inRange 0x2810 0x284F i && (decide (i % 16 = 2) || decide (i % 16 = 3)))

/-- What a host writes to the register goes into its bits as the register's row says (R7). -/
def storedByRow (i : Nat) : Bool :=
  !isSelector i && (ringWin i).isNone && decide (i ≠ ACT_CH_ALM) && decide (i ≠ GNS_SLOT_CFG) && !gnsWaits i && !clearsItself i

theorem viewOf_seen (s : State) (h : Nat) {i : Nat} (hi : seenAsStored i = true) : viewOf s h i = rd s i := by
  simp only [seenAsStored, Bool.and_eq_true, Bool.not_eq_true', decide_eq_true_eq, Option.isNone_iff_eq_none] at hi
  obtain ⟨⟨⟨⟨⟨⟨⟨⟨⟨hwin, hsel⟩, hring⟩, hcan⟩, hpin⟩, hgns⟩, hcnt⟩, hrec⟩, hstat⟩, htb⟩ := hi
  simp only [viewOf, regView, hwin, hsel, hring, hcan, hpin, hgns, hcnt, hrec, hstat, htb, Bool.or_self, Bool.false_eq_true, if_false]

theorem storeItem_byRow (s : State) (h : Nat) (v : Word) {i : Nat} (hi : storedByRow i = true) : storeItem s h i v = commitReg s i v := by
  simp only [storedByRow, Bool.and_eq_true, Bool.not_eq_true', decide_eq_true_eq, Option.isNone_iff_eq_none] at hi
  obtain ⟨⟨⟨⟨⟨hsel, hring⟩, halm⟩, hpin⟩, hgns⟩, hself⟩ := hi
  simp only [storeItem, hsel, hring, halm, hpin, hgns, hself, Bool.false_eq_true, if_false]

theorem storeItem_clearsItself (s : State) (h : Nat) (v : Word) {i : Nat} (hsel : isSelector i = false) (hring : ringWin i = none)
    (halm : i ≠ ACT_CH_ALM) (hpin : i ≠ GNS_SLOT_CFG) (hgns : gnsWaits i = false) (hself : clearsItself i = true) : storeItem s h i v = s := by
  simp only [storeItem, hsel, hring, halm, hpin, hgns, hself, Bool.false_eq_true, if_false, if_true]

theorem itemWord_seen (s : State) (h : Nat) {r : RegRow} (hrow : regRow w.idx = some r) (hi : seenAsStored w.idx = true) :
    itemWord s h w = presented r (rd s w.idx) w.mask w.value := by
  simp [itemWord, hrow, viewOf_seen s h hi]

/-- The word that is stored where a word is presented to a register of this row. -/
def committed (r : RegRow) (old v : Word) : Word :=
  ((old &&& ~~~ (r.rw ||| r.wo)) ||| (v &&& (r.rw ||| r.wo)) ||| (v &&& r.w1s)) &&& ~~~ (v &&& r.w1c)

theorem commitReg_row (s : State) {i : Nat} {r : RegRow} (hrow : regRow i = some r) (v : Word) :
    commitReg s i v = wr s i (committed r (rd s i) v) := by
  simp [commitReg, hrow, committed]

theorem scrub_row (s : State) {i : Nat} {r : RegRow} (hrow : regRow i = some r) : scrub s i = wr s i (rd s i &&& ~~~ r.wo) ∨ scrub s i = s := by
  simp only [scrub, hrow]
  split
  · exact Or.inr rfl
  · exact Or.inl rfl

theorem scrub_noWo (s : State) {i : Nat} {r : RegRow} (hrow : regRow i = some r) (hwo : r.wo = 0) : scrub s i = s := by
  simp [scrub, hrow, hwo]

/-- A write that is accepted, to a register that is seen and stored in the common way. -/
theorem hostItems_byRow {r : RegRow} {v : Word} (hs : serves s h) (hstart : startsNow s h [w]) (ht : isTripClear w = false)
    (hrow : regRow w.idx = some r) (htouch : w.mask &&& writable r ≠ 0) (hresv : w.resv = false) (hseen : seenAsStored w.idx = true)
    (hstored : storedByRow w.idx = true) (hmay : mayWrite (ahead s) h w.idx w.mask (presented r (rd s w.idx) w.mask w.value) = true)
    (hval : storeValue (ahead s) h w.idx (presented r (rd s w.idx) w.mask w.value) = some v)
    (hrule : stateRule (ahead s) h w.idx w.mask (rd s w.idx) v = .ok) :
    hostItems s h [w] = (settled s h (scrub
      (writeEffect (ahead s) (ahead s) (wr (ahead s) w.idx (committed r (rd s w.idx) v)) h w.idx (rd s w.idx) v) w.idx), true) := by
  have hword : itemWord (ahead s) h w = presented r (rd s w.idx) w.mask w.value := itemWord_seen _ h hrow hseen
  have hview : viewOf (ahead s) h w.idx = rd s w.idx := viewOf_seen _ h hseen
  have hc : checkItem (ahead s) h w = stOk :=
    checkItem_ok hrow htouch hresv (by rw [hword]; exact hmay) (by rw [hword]; exact hval) (by rw [hview]; exact hrule)
  rw [hostItems_one hs hstart ht hc, takeItem_eq hrow htouch (by rw [hword]; exact hval), storeItem_byRow _ h v hstored, commitReg_row _ hrow, hview]
  rfl

end HostItems

/-! ### Fields and act bits in the words that are written (R7) -/

section Words

variable {r : RegRow} {old v : Word}

/-- The bits of a register that act when written. -/
abbrev actBits (r : RegRow) : Word := r.w1c ||| r.w1s ||| r.wo

/-- A value in the place of a field lies under the field's mask. -/
theorem placed_and_mask (hi lo n : Nat) :
    BitVec.ofNat 32 (n % 2 ^ (hi - lo + 1) * 2 ^ lo) &&& bitMask hi lo = BitVec.ofNat 32 (n % 2 ^ (hi - lo + 1) * 2 ^ lo) := by
  refine BitVec.eq_of_getLsbD_eq fun j hj => ?_
  rw [BitVec.getLsbD_and, getLsbD_bitMask, BitVec.getLsbD_ofNat, Nat.testBit_mul_two_pow, Nat.testBit_mod_two_pow]
  by_cases hlo : lo ≤ j <;> by_cases hw : j - lo < hi - lo + 1 <;> simp [hlo, hw, hj]

/-- A write under the mask of a field that can be written presents the field with its new value, and no act bit. -/
theorem presented_under_mask {m val : Word} (hval : val &&& m = val) (hrw : m &&& ~~~ r.rw = 0) :
    presented r old m val = (old &&& ~~~ actBits r &&& ~~~ m) ||| val := by
  ext j hj
  have hv := congrArg (·[j]) hval
  have hm := congrArg (·[j]) hrw
  simp only [presented, actBits, BitVec.getElem_or, BitVec.getElem_and, BitVec.getElem_not] at hv hm ⊢
  revert hv hm
  cases m[j] <;> cases val[j] <;> cases r.rw[j] <;> simp

/-- What is stored then: the field has its new value, and bits that only act read 0. -/
theorem committed_under_mask {m val : Word} (hval : val &&& m = val) (hrw : m &&& ~~~ r.rw = 0) (hact : r.rw &&& actBits r = 0) :
    committed r old ((old &&& ~~~ actBits r &&& ~~~ m) ||| val) = (old &&& ~~~ r.wo &&& ~~~ m) ||| val := by
  ext j hj
  have hv := congrArg (·[j]) hval
  have hm := congrArg (·[j]) hrw
  have ha := congrArg (·[j]) hact
  simp only [committed, actBits, BitVec.getElem_or, BitVec.getElem_and, BitVec.getElem_not] at hv hm ha ⊢
  revert hv hm ha
  cases m[j] <;> cases val[j] <;> cases r.rw[j] <;> cases r.w1c[j] <;> cases r.w1s[j] <;> cases r.wo[j] <;> simp

/-- A field that a host may write, in a register that is seen and stored in the common way: its row, with bits that are only written. -/
abbrev FieldOk (f : Field) (r : RegRow) : Prop :=
  regRow f.reg = some r ∧ bitMask f.hi f.lo &&& ~~~ r.rw = 0 ∧ bitMask f.hi f.lo &&& writable r ≠ 0 ∧ r.rw &&& actBits r = 0 ∧
    seenAsStored f.reg = true ∧ storedByRow f.reg = true ∧ (inRange 0x1C00 0x1DFF f.reg && decide (f.reg % 64 = 0x12)) = false

/-- The word that a write of a field presents: the field with its new value, and no bit that acts. -/
def presentedField (s : State) (f : Field) (r : RegRow) (n : Nat) : Word := bitsSet (rd s f.reg &&& ~~~ actBits r) f.hi f.lo n

/-- The word that it stores, where its value is taken as it is. -/
def storedField (s : State) (f : Field) (r : RegRow) (n : Nat) : Word := bitsSet (rd s f.reg &&& ~~~ r.wo) f.hi f.lo n

/-- The state with the field stored, on which the write's effect works. -/
def fieldStored (s : State) (f : Field) (r : RegRow) (n : Nat) : State := wr (ahead s) f.reg (storedField s f r n)

theorem presented_fieldItem {f : Field} (hf : FieldOk f r) (s : State) (n : Nat) :
    presented r (rd s f.reg) (fieldItem f n).mask (fieldItem f n).value = presentedField s f r n := by
  obtain ⟨-, hrw, -⟩ := hf
  exact presented_under_mask (placed_and_mask ..) hrw

theorem committed_presentedField {f : Field} (hf : FieldOk f r) (s : State) (n : Nat) :
    committed r (rd s f.reg) (presentedField s f r n) = storedField s f r n := by
  obtain ⟨-, hrw, -, hact, -⟩ := hf
  exact committed_under_mask (placed_and_mask ..) hrw hact

/-- A write of one field that is accepted. -/
theorem hostItems_field {s : State} {h n : Nat} {f : Field} (hf : FieldOk f r) (hs : serves s h) (hstart : startsNow s h (putField f n))
    (hmay : mayWrite (ahead s) h f.reg (bitMask f.hi f.lo) (presentedField s f r n) = true)
    (hval : storeValue (ahead s) h f.reg (presentedField s f r n) = some (presentedField s f r n))
    (hrule : stateRule (ahead s) h f.reg (bitMask f.hi f.lo) (rd s f.reg) (presentedField s f r n) = .ok) :
    hostItems s h (putField f n) = (settled s h (scrub
      (writeEffect (ahead s) (ahead s) (fieldStored s f r n) h f.reg (rd s f.reg) (presentedField s f r n)) f.reg), true) := by
  have hidx : (fieldItem f n).idx = f.reg := rfl
  have hp := presented_fieldItem hf s n
  have hk := committed_presentedField hf s n
  obtain ⟨hrow, hrw, htouch, hact, hseen, hstored, htrip⟩ := hf
  have := hostItems_byRow (w := fieldItem f n) (v := presentedField s f r n) hs hstart htrip hrow htouch rfl hseen hstored
    (by rw [hidx, hp]; exact hmay) (by rw [hidx, hp]; exact hval) hrule
  rw [hidx, hk] at this
  exact this

end Words

/-! ### What the write leaves -/

section Settled

variable {s t : State} {h : Nat} {l : List Part}

@[simp] theorem settled_regs (s : State) (h : Nat) (t : State) : (settled s h t).regs = t.regs := rfl

theorem regsBut_settled {m : List Nat} (k : regsBut s t m) : regsBut s (settled s h t) m := regsBut_put k rfl

theorem rd_settled (i : Nat) : rd (settled s h t) i = rd t i := rfl

theorem getF_settled (f : Field) : getF (settled s h t) f = getF t f := rfl

theorem flag_settled (f : Field) : flag (settled s h t) f = flag t f := rfl

theorem keeps_ahead (s : State) : Keeps (· ∈ [.sys]) s (ahead s) := Keeps.put_sys (by simp) (Keeps.refl ..)

@[simp] theorem rd_ahead (s : State) (i : Nat) : rd (ahead s) i = rd s i := rfl

@[simp] theorem getF_ahead (s : State) (f : Field) : getF (ahead s) f = getF s f := rfl

@[simp] theorem flag_ahead (s : State) (f : Field) : flag (ahead s) f = flag s f := rfl

@[simp] theorem getI_ahead (s : State) (f : Field) : getI (ahead s) f = getI s f := rfl

@[simp] theorem ownerOrService_ahead (s : State) (h : Nat) : ownerOrService (ahead s) h = ownerOrService s h := rfl

@[simp] theorem holds_ahead (s : State) (h k i : Nat) : holds (ahead s) h k i = holds s h k i := rfl

@[simp] theorem nowTick_ahead (s : State) : nowTick (ahead s) = nowTick s := rfl

theorem settled_same (s t : State) (h : Nat) {p : Part} (hp : p ≠ .hif) (hp' : p ≠ .sys) : samePart t (settled s h t) p := by
  cases p <;> trivial

/-- What works on the coming boundary's state reaches the parts listed and no other; the write then notes the step. -/
theorem wroteBut_settled (hk : Keeps (· ∈ l) (ahead s) t) (hsys : Part.sys ∈ l) (hhif : Part.hif ∉ l) : wroteBut s (settled s h t) h l := by
  refine ⟨⟨fun p hp => ?_, hk.pending⟩, ?_⟩
  · have hne : p ≠ .hif := fun e => hp (e ▸ List.mem_cons_self ..)
    have hnl : p ∉ l := fun e => hp (List.mem_cons_of_mem _ e)
    have hns : p ≠ .sys := fun e => hnl (e ▸ hsys)
    have h₁ := (keeps_ahead s).same p (by simpa using hns)
    have h₂ := hk.same p hnl
    have h₃ := settled_same s t h hne hns
    exact samePart_trans (samePart_trans h₁ h₂) h₃
  · have hif : t.hif = s.hif := hk.same .hif hhif
    show (modSlot _ h _).hif = _
    simp only [modSlot, hif]

end Settled

end Sys2Proof.HostWrites

namespace Sys2Proof.HostWrites

open Sys2Proof Sys2Proof.Machine Sys2Proof.Frame

/-! ### The rules of a write, block by block (R390, R396) -/

section Blocks

variable {s s0 s1 : State} {h i : Nat} {mask old v : Word}

theorem stateRes_none (hi : 0x0F00 ≤ i) : stateRes i = none := by
  simp (disch := omega) only [stateRes, SYS_IMPL_STATE, inRange, decide_eq_true_eq, if_neg]

/-- Pages without a selector and without a state word. -/
def farPage (i : Nat) : Bool := inRange 0x1000 0x13FF i || inRange 0x1800 0x24FF i || inRange 0x2800 0x2BFF i

theorem isSelector_far (hi : farPage i = true) : isSelector i = false := by
  simp [farPage, inRange] at hi
  simp [isSelector, KIN_CH_SEL, SCH_SLOT_SEL, SCH_CH_SEL, MAP_CH_SEL, ACT_CH_SEL, GNS_SLOT_SEL, FJL_CH_SEL, CAN_TXB_SEL]
  omega

theorem mayWrite_pwm (hlo : 0x1C00 ≤ i) (hhi : i < 0x1E00) : mayWrite s h i mask v = holds s h kPwm ((i - 0x1C00) / 64) := by
  have hsel : isSelector i = false := isSelector_far (by simp [farPage, inRange]; omega)
  simp (disch := omega) only [mayWrite, hsel, stateRes_none (show 0x0F00 ≤ i by omega), SYS_SUPV_CTRL, ACT_CH_ALM, inRange, ringPage,
    decide_eq_true_eq, Bool.false_eq_true, if_false, if_neg, if_pos]

theorem writeEffect_pwm (hlo : 0x1C00 ≤ i) (hhi : i < 0x2000) : writeEffect s0 s1 s h i old v = pwmEffect s i old v := by
  have hsel : isSelector i = false := isSelector_far (by simp [farPage, inRange]; omega)
  simp (disch := omega) only [writeEffect, hsel, stateRes_none (show 0x0F00 ≤ i by omega), MON_FLT, SCH_QUOTA, CLK_BRST, ACT_CH_ALM, inRange, ringPage,
    decide_eq_true_eq, Bool.false_eq_true, if_false, if_neg, if_pos]

theorem storeValue_pwm (hlo : 0x1C00 ≤ i) (hhi : i < 0x2000) : storeValue s h i v = some (pwmStore i v) := by
  simp (disch := omega) only [storeValue, inRange, ringPage, decide_eq_true_eq, if_neg, if_pos]

theorem stateRule_pwm (hlo : 0x1C00 ≤ i) (hhi : i < 0x2000)
    (hloop : ¬(i < 0x1E00 ∧ 4 ≤ i % 64 ∧ i % 64 ≤ 6 ∧ loopDrives s 1 ((i - 0x1C00) / 64) (i % 64 - 4) = true)) :
    stateRule s h i mask old v = pwmCheck s i old v := by
  simp (disch := omega) only [stateRule, inRange, ringPage, decide_eq_true_eq, CLK_BRST, if_neg, if_pos]
  refine if_neg fun hc => hloop ?_
  simp only [Bool.and_eq_true, decide_eq_true_eq] at hc
  obtain ⟨⟨hpage, hoff⟩, hdrives⟩ := hc
  exact ⟨by omega, hoff.1, hoff.2, hdrives⟩

theorem mayWrite_drv (hlo : 0x1000 ≤ i) (hhi : i < 0x1300) : mayWrite s h i mask v = mayWriteDrv s h i mask := by
  have hsel : isSelector i = false := isSelector_far (by simp [farPage, inRange]; omega)
  simp (disch := omega) only [mayWrite, hsel, stateRes_none (show 0x0F00 ≤ i by omega), SYS_SUPV_CTRL, ACT_CH_ALM, PWM_LOADALL, inRange, ringPage,
    decide_eq_true_eq, Bool.false_eq_true, if_false, if_neg, if_pos]

theorem writeEffect_drv (hlo : 0x1000 ≤ i) (hhi : i < 0x1300) : writeEffect s0 s1 s h i old v = drvEffect s h i old v := by
  have hsel : isSelector i = false := isSelector_far (by simp [farPage, inRange]; omega)
  simp (disch := omega) only [writeEffect, hsel, stateRes_none (show 0x0F00 ≤ i by omega), MON_FLT, SCH_QUOTA, CLK_BRST, ACT_CH_ALM, ETH_BYP_STAT, inRange, ringPage,
    canPage, decide_eq_true_eq, Bool.false_eq_true, if_false, if_neg, if_pos]

theorem storeValue_drv (hlo : 0x1000 ≤ i) (hhi : i < 0x1300) : storeValue s h i v = drvStore s i v := by
  simp (disch := omega) only [storeValue, GNS_SLOT_CFG, inRange, ringPage, canPage, decide_eq_true_eq, if_neg, if_pos]

theorem stateRule_drv (hlo : 0x1000 ≤ i) (hhi : i < 0x1300) : stateRule s h i mask old v = inState (drvRule s i old v) .ok := by
  simp (disch := omega) only [stateRule, CLK_BRST, inRange, ringPage, canPage, decide_eq_true_eq, Bool.and_eq_true, if_neg, if_pos]

theorem mayWrite_cle (hlo : 0x1800 ≤ i) (hhi : i < 0x1C00) : mayWrite s h i mask v = mayWriteCle s h i v := by
  have hsel : isSelector i = false := isSelector_far (by simp [farPage, inRange]; omega)
  simp (disch := omega) only [mayWrite, hsel, stateRes_none (show 0x0F00 ≤ i by omega), SYS_SUPV_CTRL, ACT_CH_ALM, PWM_LOADALL, inRange, ringPage,
    decide_eq_true_eq, Bool.false_eq_true, if_false, if_neg, if_pos]

theorem writeEffect_cle (hlo : 0x1800 ≤ i) (hhi : i < 0x1C00) : writeEffect s0 s1 s h i old v = cleEffect s i old v := by
  have hsel : isSelector i = false := isSelector_far (by simp [farPage, inRange]; omega)
  simp (disch := omega) only [writeEffect, hsel, stateRes_none (show 0x0F00 ≤ i by omega), MON_FLT, SCH_QUOTA, CLK_BRST, ACT_CH_ALM, ETH_BYP_STAT, inRange, ringPage,
    canPage, decide_eq_true_eq, Bool.false_eq_true, if_false, if_neg, if_pos]

theorem storeValue_cle (hlo : 0x1800 ≤ i) (hhi : i < 0x1C00) : storeValue s h i v = some (cleStore i v) := by
  simp (disch := omega) only [storeValue, GNS_SLOT_CFG, inRange, ringPage, canPage, decide_eq_true_eq, if_neg, if_pos]

theorem stateRule_cle (hlo : 0x1800 ≤ i) (hhi : i < 0x1C00) : stateRule s h i mask old v = cleCheck s h i v := by
  simp (disch := omega) only [stateRule, CLK_BRST, inRange, ringPage, canPage, decide_eq_true_eq, Bool.and_eq_true, if_neg, if_pos]

theorem mayWrite_enc (hlo : 0x2000 ≤ i) (hhi : i < 0x2200) : mayWrite s h i mask v = ownerOrService s h := by
  have hsel : isSelector i = false := isSelector_far (by simp [farPage, inRange]; omega)
  simp (disch := omega) only [mayWrite, hsel, stateRes_none (show 0x0F00 ≤ i by omega), SYS_SUPV_CTRL, ACT_CH_ALM, PWM_LOADALL,  inRange, ringPage,
    decide_eq_true_eq, Bool.false_eq_true, if_false, if_neg]
  simp (disch := omega) [timFree, TIM_CTRL, inRange]
  omega

theorem writeEffect_enc (hlo : 0x2000 ≤ i) (hhi : i < 0x2200) : writeEffect s0 s1 s h i old v = encWrite s i old v := by
  have hsel : isSelector i = false := isSelector_far (by simp [farPage, inRange]; omega)
  simp (disch := omega) only [writeEffect, hsel, stateRes_none (show 0x0F00 ≤ i by omega), MON_FLT, SCH_QUOTA, CLK_BRST, ACT_CH_ALM, ETH_BYP_STAT, inRange, ringPage,
    canPage, decide_eq_true_eq, Bool.false_eq_true, if_false, if_neg, if_pos]

theorem storeValue_enc (hlo : 0x2000 ≤ i) (hhi : i < 0x2200) : storeValue s h i v = some v := by
  simp (disch := omega) only [storeValue, GNS_SLOT_CFG, inRange, ringPage, canPage, decide_eq_true_eq, if_neg]

theorem stateRule_enc (hlo : 0x2000 ≤ i) (hhi : i < 0x2200) : stateRule s h i mask old v = encCheck s i old v := by
  simp (disch := omega) only [stateRule, CLK_BRST, inRange, ringPage, canPage, decide_eq_true_eq, Bool.and_eq_true, if_neg, if_pos]

theorem mayWrite_tim (hlo : 0x2800 ≤ i) (hhi : i < 0x2900) : mayWrite s h i mask v = (timFree i || ownerOrService s h) := by
  have hsel : isSelector i = false := isSelector_far (by simp [farPage, inRange]; omega)
  simp (disch := omega) only [mayWrite, hsel, stateRes_none (show 0x0F00 ≤ i by omega), SYS_SUPV_CTRL, ACT_CH_ALM, PWM_LOADALL, inRange, ringPage,
    decide_eq_true_eq, Bool.false_eq_true, if_false, if_neg]

theorem writeEffect_tim (hlo : 0x2800 ≤ i) (hhi : i < 0x2900) : writeEffect s0 s1 s h i old v = timEffect s0 s i old := by
  have hsel : isSelector i = false := isSelector_far (by simp [farPage, inRange]; omega)
  simp (disch := omega) only [writeEffect, hsel, stateRes_none (show 0x0F00 ≤ i by omega), MON_FLT, SCH_QUOTA, CLK_BRST, ACT_CH_ALM, ETH_BYP_STAT, inRange, ringPage,
    canPage, decide_eq_true_eq, Bool.false_eq_true, if_false, if_neg, if_pos]

theorem storeValue_tim (hlo : 0x2800 ≤ i) (hhi : i < 0x2900) : storeValue s h i v = some (timStore i v) := by
  simp (disch := omega) only [storeValue, GNS_SLOT_CFG, inRange, ringPage, canPage, decide_eq_true_eq, if_neg, if_pos]

theorem stateRule_tim (hlo : 0x2800 ≤ i) (hhi : i < 0x2900) : stateRule s h i mask old v = timCheck s i old v := by
  simp (disch := omega) only [stateRule, CLK_BRST, inRange, ringPage, canPage, decide_eq_true_eq, Bool.and_eq_true, if_neg, if_pos]

end Blocks

end Sys2Proof.HostWrites

namespace Sys2Proof.PwmShadow

open Sys2Proof Sys2Proof.Machine Sys2Proof.Frame Sys2Proof.HostWrites

section Groups

variable {s : State} {g k : Nat}

@[simp] theorem pwmAt_modPwm (s : State) (g : Nat) (f : PwmGrp → PwmGrp) : pwmAt (modPwm s g f) g = f (pwmAt s g) := sparseGet_mod _ _ _ _

theorem pwmAt_modPwm_ne (s : State) (f : PwmGrp → PwmGrp) (h : k ≠ g) : pwmAt (modPwm s g f) k = pwmAt s k := sparseGet_mod_ne _ _ _ _ _ h

@[simp] theorem pwmAt_setF (s : State) (f : Field) (v g : Nat) : pwmAt (setF s f v) g = pwmAt s g := rfl

@[simp] theorem pwmAt_setB (s : State) (f : Field) (b : Bool) (g : Nat) : pwmAt (setB s f b) g = pwmAt s g := rfl

@[simp] theorem pwmAt_wr (s : State) (i : Nat) (v : Word) (g : Nat) : pwmAt (wr s i v) g = pwmAt s g := rfl

@[simp] theorem pwmAt_showPwm (s : State) (k g : Nat) : pwmAt (showPwm s k) g = pwmAt s g := rfl

@[simp] theorem pwmAt_settled (s : State) (h : Nat) (t : State) (g : Nat) : pwmAt (settled s h t) g = pwmAt t g := rfl

end Groups

/-! ### A shadow register that a host writes (R245, R266, R268) -/

section Shadow

variable {s : State} {h g off : Nat} {mask v : Word}

/-- A shadow register of a group is seen and stored in the common way, and none of its bits acts. -/
theorem shadow_register (hg : g < 8) (hlo : 2 ≤ off) (hhi : off ≤ 6) :
    (∃ r, regRow (PWM_GRP_CTRL g + off) = some r ∧ r.w1c = 0 ∧ r.w1s = 0 ∧ r.wo = 0) ∧
      seenAsStored (PWM_GRP_CTRL g + off) = true ∧ storedByRow (PWM_GRP_CTRL g + off) = true := by
  have hall : ∀ g < 8, ∀ off < 7, 2 ≤ off → ((regRow (PWM_GRP_CTRL g + off)).any fun r => decide (r.w1c = 0 ∧ r.w1s = 0 ∧ r.wo = 0)) = true ∧
      seenAsStored (PWM_GRP_CTRL g + off) = true ∧ storedByRow (PWM_GRP_CTRL g + off) = true := by decide
  obtain ⟨hrow, hseen, hstored⟩ := hall g hg off (by omega) hlo
  exact ⟨by simpa [Option.any_eq_true] using hrow, hseen, hstored⟩

/-- A row whose bits can only be written stores the word that is presented. -/
theorem committed_presented {r : RegRow} (hw1c : r.w1c = 0) (hw1s : r.w1s = 0) (hwo : r.wo = 0) (old m val : Word) :
    committed r old (presented r old m val) = presented r old m val := by
  ext j hj
  simp only [committed, presented, hw1c, hw1s, hwo, BitVec.getElem_or, BitVec.getElem_and, BitVec.getElem_not]
  cases old[j] <;> cases m[j] <;> cases val[j] <;> cases r.rw[j] <;> simp

theorem pwmEffect_shadow (hg : g < 8) (hlo : 2 ≤ off) (hhi : off ≤ 6) (old v : Word) :
    pwmEffect s (PWM_GRP_CTRL g + off) old v = shadowWrite s g off v (hostWriteAt s) none := by
  have hdiv : (PWM_GRP_CTRL g + off - 0x1C00) / 64 = g := by simp only [PWM_GRP_CTRL]; omega
  have hmod : (PWM_GRP_CTRL g + off) % 64 = off := by simp only [PWM_GRP_CTRL]; omega
  rw [pwmEffect, if_neg (by simp only [PWM_GRP_CTRL, PWM_LOADALL]; omega), if_neg (by simp only [PWM_GRP_CTRL]; omega)]
  simp only [hdiv, hmod]
  interval_cases off <;> rfl

/-- An accepted host's write of a shadow register: the word is stored, and it waits for its copy. -/
theorem hostItems_shadow (hs : serves s h) (hg : g < 8) (hlo : 2 ≤ off) (hhi : off ≤ 6)
    (htouch : touches (item (PWM_GRP_CTRL g + off) mask v) = true) (hholds : holds s h kPwm g = true)
    (hcheck : pwmCheck s (PWM_GRP_CTRL g + off) (rd s (PWM_GRP_CTRL g + off)) (shadowWord s h g off mask v) = .ok)
    (hloop : 4 ≤ off → loopDrives s 1 g (off - 4) = false) (hstart : startsNow s h [item (PWM_GRP_CTRL g + off) mask v]) :
    hostItems s h [item (PWM_GRP_CTRL g + off) mask v] = (settled s h
      (shadowWrite (wr (ahead s) (PWM_GRP_CTRL g + off) (shadowWord s h g off mask v)) g off (shadowWord s h g off mask v) (hostWriteAt s) none), true) := by
  obtain ⟨⟨r, hrow, hw1c, hw1s, hwo⟩, hseen, hstored⟩ := shadow_register hg hlo hhi
  have hi : 0x1C00 ≤ PWM_GRP_CTRL g + off ∧ PWM_GRP_CTRL g + off < 0x1E00 := by simp only [PWM_GRP_CTRL]; omega
  have hdiv : (PWM_GRP_CTRL g + off - 0x1C00) / 64 = g := by simp only [PWM_GRP_CTRL]; omega
  have hmod : (PWM_GRP_CTRL g + off) % 64 = off := by simp only [PWM_GRP_CTRL]; omega
  have hword : shadowWord s h g off mask v = presented r (rd s (PWM_GRP_CTRL g + off)) mask v := itemWord_seen s h hrow hseen
  have htrip : isTripClear (item (PWM_GRP_CTRL g + off) mask v) = false := by
    simp only [isTripClear, item, hmod]
    simp [show off ≠ 18 by omega]
  have hval : storeValue (ahead s) h (PWM_GRP_CTRL g + off) (presented r (rd s (PWM_GRP_CTRL g + off)) mask v) =
      some (presented r (rd s (PWM_GRP_CTRL g + off)) mask v) := by
    rw [storeValue_pwm hi.1 (by omega), pwmStore, if_neg (by omega)]
  have hrule : stateRule (ahead s) h (PWM_GRP_CTRL g + off) mask (rd s (PWM_GRP_CTRL g + off))
      (presented r (rd s (PWM_GRP_CTRL g + off)) mask v) = .ok := by
    rw [stateRule_pwm hi.1 (by omega), ← hword]
    · exact hcheck
    · rw [hdiv, hmod]
      rintro ⟨-, h4, -, hdrives⟩
      exact absurd (hloop h4) (by rw [show loopDrives s 1 g (off - 4) = true from hdrives]; decide)
  have hmay : mayWrite (ahead s) h (PWM_GRP_CTRL g + off) mask (presented r (rd s (PWM_GRP_CTRL g + off)) mask v) = true := by
    rw [mayWrite_pwm hi.1 hi.2, hdiv]
    exact hholds
  have hmask : mask &&& writable r ≠ 0 := by
    simp only [touches, item, hrow] at htouch
    exact of_decide_eq_true htouch
  have htaken := hostItems_byRow (w := item (PWM_GRP_CTRL g + off) mask v) hs hstart htrip hrow hmask rfl hseen
    hstored hmay hval hrule
  simp only [item] at htaken ⊢
  rw [htaken, committed_presented hw1c hw1s hwo, writeEffect_pwm hi.1 (by omega), pwmEffect_shadow hg hlo hhi, scrub_noWo _ hrow hwo, ← hword]
  rfl

/-- What waits to be copied, and what LAND shows of it. -/
theorem shadowWrite_effect (s : State) (g off : Nat) (v : Word) (t : Nat) :
    pwmAt (shadowWrite s g off v t none) g = { pwmAt s g with writes := (pwmAt s g).writes ++ [{ at_ := t, off := off, v := v, loop := none }] } ∧
    (off < 4 → flag (shadowWrite s g off v t none) (PWM_GRP_LAND_PEND g) = true ∧ getF (shadowWrite s g off v t none) (PWM_GRP_LAND_IDX g) = off) ∧
    (4 ≤ off → flag (shadowWrite s g off v t none) (PWM_PR_LAND_PEND g (off - 4)) = true ∧
      flag (shadowWrite s g off v t none) (PWM_PR_LAND_BYLOOP g (off - 4)) = false) ∧
    regsBut s (shadowWrite s g off v t none) [if off < 4 then PWM_GRP_LAND g else PWM_PR_LAND g (off - 4)] := by
  unfold shadowWrite
  extract_lets w s₁ s₂
  have hat : pwmAt s₁ g = { pwmAt s g with writes := (pwmAt s g).writes ++ [{ at_ := t, off := off, v := v, loop := none }] } := pwmAt_modPwm ..
  by_cases hoff : off < 4
  · rw [if_pos hoff, if_pos hoff]
    refine ⟨hat, fun _ => ⟨flag_setB _ _ _ (by grind), ?_⟩, fun h => absurd hoff (by omega),
      regsBut_setB (regsBut_setF (regsBut_of_regs rfl _) (by simp) _) (by simp) _⟩
    rw [getF_setB_apart (by grind), getF_setF _ _ _ (by grind)]
    exact Nat.mod_eq_of_lt (by grind)
  · rw [if_neg hoff, if_neg hoff]
    refine ⟨hat, fun h => absurd h hoff, fun _ => ⟨?_, ?_⟩, regsBut_setF (regsBut_setB (regsBut_setB (regsBut_of_regs rfl _) (by simp) _) (by simp) _) (by simp) _⟩
    · rw [flag_setF_apart (by grind), flag_setB_apart (by grind), flag_setB _ _ _ (by grind)]
    · rw [flag_setF_apart (by grind), flag_setB _ _ _ (by grind)]
      rfl

end Shadow

/-! ### Load-all copies (R267, R268) -/

section LoadAll

variable {v g : Nat}

/-- The row of PWM_LOADALL. -/
def pwmLoadAllRow : RegRow := ⟨0x1F00, 1, 1, 1, 1, 0, 0, 0, 0xFF#32, 0, 0⟩

/-- One step of `armLoadAll`. -/
def armOne (v : Nat) (s : State) (g : Nat) : State :=
  if v.testBit g then
    showPwm (setBitF (modPwm s g fun x => { x with armed := some ((pwmAt s g).armed.getD (hostWriteAt s)) }) PWM_LOADALL_GRP g true) g
  else s

theorem armLoadAll_eq (s : State) (v : Nat) : armLoadAll s v = pwmGroups.foldl (armOne v) s := rfl

/-- The copies of group `g` are armed, and both registers show it. -/
def Armed (s t : State) (g : Nat) : Prop :=
  (pwmAt t g).armed = some ((pwmAt s g).armed.getD (hostWriteAt s)) ∧ flag t (PWM_GRP_STAT_LDARM g) = true ∧ (rd t PWM_LOADALL).getLsbD g = true

theorem hostWriteAt_armOne (v : Nat) (s : State) (g : Nat) : hostWriteAt (armOne v s g) = hostWriteAt s := by
  unfold armOne
  split <;> rfl

theorem regsBut_showPwm (s : State) (g : Nat) : regsBut s (showPwm s g) [PWM_GRP_STAT g, PWM_STAT] := by
  unfold showPwm
  extract_lets hiz s₁ s₂ s₃ s₄
  have h₁ : regsBut s s₁ [PWM_GRP_STAT g, PWM_STAT] := regsBut_setB (regsBut_refl _ _) (by simp) _
  have h₂ : regsBut s s₂ [PWM_GRP_STAT g, PWM_STAT] := regsBut_setB h₁ (by simp) _
  have h₃ : regsBut s s₃ [PWM_GRP_STAT g, PWM_STAT] := regsBut_setB h₂ (by simp) _
  have h₄ : regsBut s s₄ [PWM_GRP_STAT g, PWM_STAT] := regsBut_setB h₃ (by simp) _
  exact regsBut_setB (regsBut_setB h₄ (by simp) _) (by simp) _

theorem ldarm_showPwm (s : State) (g : Nat) : flag (showPwm s g) (PWM_GRP_STAT_LDARM g) = (pwmAt s g).armed.isSome := by
  unfold showPwm
  extract_lets hiz s₁ s₂ s₃ s₄
  have h₃ : flag s₃ (PWM_GRP_STAT_LDARM g) = (pwmAt s g).armed.isSome := flag_setB _ _ _ (by grind)
  unfold setBitF
  rw [flag_setB_apart (by grind), flag_setB_apart (by grind)]
  exact (flag_setB_apart (by grind) _).trans h₃

theorem loadall_bit (s : State) (k : Nat) (hk : k < 8) (g : Nat) (hg : g < 8) :
    (rd (setBitF s PWM_LOADALL_GRP k true) PWM_LOADALL).getLsbD g = if g = k then true else (rd s PWM_LOADALL).getLsbD g := by
  rw [← flag_bit, ← flag_bit]
  by_cases h : g = k
  · subst h
    rw [if_pos rfl]
    have := flag_setB s ⟨PWM_LOADALL, 0 + g, 0 + g⟩ true (by simp; omega)
    simpa [setBitF] using this
  · rw [if_neg h]
    exact flag_setB_apart (f := ⟨PWM_LOADALL, 0 + k, 0 + k⟩) (g := ⟨PWM_LOADALL, g, g⟩) (by grind) _

theorem armed_armOne (hg : g < 8) (hv : v.testBit g = true) (s : State) : Armed s (armOne v s g) g := by
  unfold armOne
  rw [if_pos hv]
  set m := modPwm s g fun x => { x with armed := some ((pwmAt s g).armed.getD (hostWriteAt s)) } with hm
  have hat : (pwmAt m g).armed = some ((pwmAt s g).armed.getD (hostWriteAt s)) := by rw [hm, pwmAt_modPwm]
  refine ⟨hat, ?_, ?_⟩
  · rw [ldarm_showPwm]
    show (pwmAt m g).armed.isSome = true
    rw [hat]
    rfl
  · rw [regsBut_showPwm _ _ PWM_LOADALL (by grind), loadall_bit _ _ hg _ hg, if_pos rfl]

/-- A step for another group leaves the group, and what is shown of it. -/
theorem armOne_other {k : Nat} (hk : k < 8) (hg : g < 8) (hne : g ≠ k) (v : Nat) (s : State) :
    pwmAt (armOne v s k) g = pwmAt s g ∧ flag (armOne v s k) (PWM_GRP_STAT_LDARM g) = flag s (PWM_GRP_STAT_LDARM g) ∧
      (rd (armOne v s k) PWM_LOADALL).getLsbD g = (rd s PWM_LOADALL).getLsbD g := by
  unfold armOne
  split
  case isFalse => exact ⟨rfl, rfl, rfl⟩
  set m := modPwm s k fun x => { x with armed := some ((pwmAt s k).armed.getD (hostWriteAt s)) } with hm
  refine ⟨(pwmAt_showPwm ..).trans ((pwmAt_setB m _ _ g).trans (pwmAt_modPwm_ne s _ hne)), ?_, ?_⟩
  · rw [flag_of_regsBut (regsBut_showPwm _ _) (by grind)]
    exact flag_setB_apart (by grind) _
  · rw [regsBut_showPwm _ _ PWM_LOADALL (by grind), loadall_bit _ _ hk _ hg, if_neg hne]
    rfl

theorem armLoadAll_fold (l : List Nat) (hl : l.Nodup) (hlt : ∀ k ∈ l, k < 8) (s : State) (hg : g < 8) :
    (g ∈ l → v.testBit g = true → Armed s (l.foldl (armOne v) s) g) ∧
    ((g ∉ l ∨ v.testBit g = false) → pwmAt (l.foldl (armOne v) s) g = pwmAt s g) ∧
    (g ∉ l → flag (l.foldl (armOne v) s) (PWM_GRP_STAT_LDARM g) = flag s (PWM_GRP_STAT_LDARM g) ∧
      (rd (l.foldl (armOne v) s) PWM_LOADALL).getLsbD g = (rd s PWM_LOADALL).getLsbD g) := by
  induction l generalizing s with
  | nil => exact ⟨fun h => absurd h (by simp), fun _ => rfl, fun _ => ⟨rfl, rfl⟩⟩
  | cons k l ih =>
    obtain ⟨hk, hnd⟩ := List.nodup_cons.1 hl
    have hk8 : k < 8 := hlt k (by simp)
    obtain ⟨iarm, iat, ishow⟩ := ih hnd (fun j hj => hlt j (by simp [hj])) (armOne v s k)
    simp only [List.foldl_cons]
    by_cases hgk : g = k
    · subst hgk
      obtain ⟨ildarm, ibit⟩ := ishow hk
      refine ⟨fun _ hv => ?_, fun hno => ?_, fun h => absurd (List.mem_cons_self ..) h⟩
      · obtain ⟨harm, hldarm, hbit⟩ := armed_armOne hg hv s
        exact ⟨by rw [iat (Or.inl hk), harm], by rw [ildarm, hldarm], by rw [ibit, hbit]⟩
      · have hv : v.testBit g = false := by simpa using hno
        rw [iat (Or.inl hk), armOne, if_neg (by simp [hv])]
    · obtain ⟨hat, hldarm, hbit⟩ := armOne_other hk8 hg hgk v s
      refine ⟨fun hmem hv => ?_, fun hno => ?_, fun hno => ?_⟩
      · obtain ⟨harm, hshown⟩ := iarm (by simpa [hgk] using hmem) hv
        rw [hat, hostWriteAt_armOne] at harm
        exact ⟨harm, hshown⟩
      · rw [iat (by simpa [hgk] using hno), hat]
      · obtain ⟨h1, h2⟩ := ishow (by simpa [hgk] using hno)
        exact ⟨h1.trans hldarm, h2.trans hbit⟩

/-- The word that a write of PWM_LOADALL presents that names the groups `v`: the groups stand in its low byte. -/
def loadAllValue (s : State) (v : Nat) : Word := presented pwmLoadAllRow (rd s PWM_LOADALL) 0xFF#32 (BitVec.ofNat 32 v)

theorem getLsbD_loadAllValue (s : State) (v : Nat) {g : Nat} (hg : g < 8) : (loadAllValue s v).getLsbD g = v.testBit g := by
  have hmask : (0xFF#32).getLsbD g = true := by
    have hall : ∀ g < 8, (0xFF#32).getLsbD g = true := by decide
    exact hall g hg
  simp only [loadAllValue, presented, pwmLoadAllRow, BitVec.getLsbD_or, BitVec.getLsbD_and, BitVec.getLsbD_not, BitVec.getLsbD_ofNat, hmask]
  simp [show g < 32 by omega]

theorem bitsOf_loadAllValue (s : State) {v : Nat} (hv : v < 256) : bitsOf (loadAllValue s v) 7 0 = v := by
  refine Nat.eq_of_testBit_eq fun j => ?_
  rw [testBit_bitsOf]
  by_cases hj : j < 8
  · simp [hj, getLsbD_loadAllValue s v hj]
  · have hbit : v.testBit j = false := Nat.testBit_lt_two_pow (lt_of_lt_of_le hv (Nat.pow_le_pow_right (n := 2) (by decide) (by omega : 8 ≤ j)))
    simp [hj, hbit]

theorem hostItems_loadAll {s : State} {h : Nat} (hs : serves s h) (hv : v < 256) (hholds : ∀ g < 8, v.testBit g = true → holds s h kPwm g = true)
    (hstart : startsNow s h [item PWM_LOADALL 0xFF#32 (BitVec.ofNat 32 v)]) : hostItems s h [item PWM_LOADALL 0xFF#32 (BitVec.ofNat 32 v)] =
      (settled s h (armLoadAll (wr (ahead s) PWM_LOADALL (committed pwmLoadAllRow (rd s PWM_LOADALL) (loadAllValue s v))) v), true) := by
  have hmay : mayWrite (ahead s) h PWM_LOADALL 0xFF#32 (loadAllValue s v) = true := by
    show holdsGroups s h (loadAllValue s v) = true
    rw [holdsGroups, List.all_eq_true]
    intro g hg
    have hg8 : g < 8 := by
      have hall : ∀ g ∈ pwmGroups, g < 8 := by decide
      exact hall g hg
    rw [getLsbD_loadAllValue s v hg8]
    cases hb : v.testBit g
    · rfl
    · simpa using hholds g hg8 hb
  have htrip : isTripClear (item PWM_LOADALL 0xFF#32 (BitVec.ofNat 32 v)) = false := rfl
  have hrow : regRow PWM_LOADALL = some pwmLoadAllRow := by decide
  have hseen : seenAsStored PWM_LOADALL = true := by decide
  have hstored : storedByRow PWM_LOADALL = true := by decide
  have htaken := hostItems_byRow (w := item PWM_LOADALL 0xFF#32 (BitVec.ofNat 32 v)) (r := pwmLoadAllRow) (v := loadAllValue s v) hs hstart
    htrip hrow (by show ¬ 0xFF#32 &&& writable pwmLoadAllRow = 0; decide) rfl hseen hstored hmay
    (storeValue_pwm (i := PWM_LOADALL) (by decide) (by decide)) ((stateRule_pwm (i := PWM_LOADALL) (by decide) (by decide) (by simp [PWM_LOADALL])).trans rfl)
  simp only [item] at htaken ⊢
  rw [htaken, writeEffect_pwm (by decide) (by decide), pwmEffect, if_pos rfl, bitsOf_loadAllValue s hv, scrub_noWo _ hrow rfl]

end LoadAll

/-- Settles O30: the write stores its word and queues it; a load-all arms its groups one after the other, each for itself. -/
theorem pwmShadowWrites : Obligations.PwmShadowWrites := by
  unfold Obligations.PwmShadowWrites
  refine ⟨fun s h g off mask v hs hg hlo hhi htouch hholds hcheck hloop hstart => ?_, fun s h v hs hv hholds hstart => ?_⟩
  · refine answers_of_answer rfl (by simp [hs.1, hg, inRange, hlo, hhi]) ?_
    rw [hostItems_shadow hs hg hlo hhi htouch hholds hcheck hloop hstart]
    generalize shadowWord s h g off mask v = x
    set m := wr (ahead s) (PWM_GRP_CTRL g + off) x with hm
    obtain ⟨hat, hgrp, hpair, hregs⟩ := shadowWrite_effect m g off x (hostWriteAt s)
    have hi : PWM_GRP_CTRL g + off ∉ [if off < 4 then PWM_GRP_LAND g else PWM_PR_LAND g (off - 4)] := by
      split <;> simp [PWM_GRP_CTRL, PWM_GRP_LAND, PWM_PR_LAND] <;> omega
    refine ⟨?_, ?_, ?_, ?_, fun h4 => ?_, hpair, ?_, ?_⟩
    · rw [rd_settled, hregs _ hi, hm, rd_wr, if_pos rfl]
    · rw [pwmAt_settled, hat]
      rfl
    · rw [pwmAt_settled, hat]
      rfl
    · rw [pwmAt_settled, hat]
      rfl
    · obtain ⟨hpend, hidx⟩ := hgrp h4
      exact ⟨hpend, hidx.trans (by omega)⟩
    · refine regsBut_settled (regsBut_trans (regsBut_wr (regsBut_of_regs rfl _) (by simp) _) (regsBut_mono hregs (by simp)))
    · refine wroteBut_settled ?_ (by decide) (by decide)
      exact shadowWrite_keeps _ _ _ _ _ _ (allows_of_subset (by decide)) (wr_keeps _ _ _ (allows_of_subset (by decide)) (Keeps.refl ..))
  · refine answers_of_answer rfl (by simp [hs.1, hv]) ?_
    rw [hostItems_loadAll hs hv hholds hstart]
    set m := wr (ahead s) PWM_LOADALL (committed pwmLoadAllRow (rd s PWM_LOADALL) (loadAllValue s v)) with hm
    intro g hg
    obtain ⟨harm, hstands, -⟩ := armLoadAll_fold (v := v) pwmGroups (by decide) (by decide) m hg
    have hmem : g ∈ pwmGroups := by simp [pwmGroups]; omega
    refine ⟨fun hbit => ?_, fun hbit => ?_⟩
    · exact harm hmem hbit
    · exact (pwmAt_settled ..).trans (hstands (Or.inr hbit))

end Sys2Proof.PwmShadow

namespace Sys2Proof.Antennas

open Sys2Proof Sys2Proof.Machine Sys2Proof.Frame Sys2Proof.HostWrites Sys2Proof.GnssSlots

/-! ### Antenna bias (R300) -/

section Bias

variable {s : State} {q k t : Nat}

/-- The registers that a fault of a port's bias may move. -/
abbrev antRegs (q : Nat) : List Nat := GNS_ANT_STAT q :: GNS_FLT :: GNS_STAT :: GNS_IRQ :: tally

theorem flag_showAnt (s : State) (hq : q < 2) (h : flag s (GNS_ANT_STAT_OPEN q) = true ∨ flag s (GNS_ANT_STAT_SHORT q) = true) :
    flag (showAnt s) GNS_STAT_ANT_FLT = true := by
  rw [showAnt, flag_setB _ _ _ (by decide), List.any_eq_true]
  exact ⟨q, by simp; omega, by simpa using h⟩

theorem regsBut_showAnt (s : State) : regsBut s (showAnt s) [GNS_STAT] := regsBut_setB (regsBut_refl _ _) (by decide) _

/-- What a condition of a port's bias leaves: it is shown, its flag and the summary are set, and a flag that is new raises the interrupt. -/
theorem antFault_effect (hq : q < 2) (hk : k < 2) : flag (antFault s q k) ⟨GNS_ANT_STAT q, 8 + k, 8 + k⟩ = true ∧
    flag (antFault s q k) GNS_STAT_ANT_FLT = true ∧ flag (antFault s q k) ⟨GNS_FLT, 2 * q + k, 2 * q + k⟩ = true ∧
    (flag s ⟨GNS_FLT, 2 * q + k, 2 * q + k⟩ = false → flag (antFault s q k) GNS_IRQ_ANT = true) ∧ regsBut s (antFault s q k) (antRegs q) := by
  unfold antFault
  extract_lets f s₁ s₂
  have hf : f.lo ≤ f.hi ∧ f.hi < 32 := by simp only [f]; omega
  have h₁ : regsBut s s₁ (antRegs q) := regsBut_setB (regsBut_refl _ _) (by simp) _
  have hcond : flag s₁ ⟨GNS_ANT_STAT q, 8 + k, 8 + k⟩ = true := flag_setB _ _ _ (by simp; omega)
  have hsame : flag s₁ f = flag s f := flag_setB_apart (by simp only [f]; grind) _
  set n := raiseIrq (record (setB s₁ f true) 0x9001 q (leBytes 1 k)) GNS_IRQ_ANT ⟨GNS_IEN, 3, 3⟩ 3 with hn
  have hnew : regsBut s₁ n (antRegs q) ∧ flag n f = true ∧ flag n ⟨GNS_ANT_STAT q, 8 + k, 8 + k⟩ = true ∧ flag n GNS_IRQ_ANT = true := by
    have hset : regsBut s₁ (setB s₁ f true) (antRegs q) := regsBut_setB (regsBut_refl _ _) (by simp [f]) _
    have hrec : regsBut s₁ (record (setB s₁ f true) 0x9001 q (leBytes 1 k)) (antRegs q) :=
      regsBut_trans hset (regsBut_mono (regsBut_record _ _ _ _) (by simp [antRegs, lossCounters, tally]))
    refine ⟨regsBut_trans hrec (regsBut_mono (regsBut_raiseIrq _ _ _ _) (by simp [antRegs, dropCounters, tally])), ?_, ?_,
      flag_raiseIrq _ _ _ _ (by decide) (by decide)⟩
    · rw [flag_raiseIrq_apart (by simp only [f]; grind) (by simp only [f]; decide), flag_record _ _ _ _ (by simp only [f]; decide), flag_setB _ _ _ hf]
    · rw [flag_raiseIrq_apart (by grind) (by rw [mem_dropCounters]; grind), flag_record _ _ _ _ (by grind), flag_setB_apart (by simp only [f]; grind)]
      exact hcond
  have h₂ : regsBut s₁ s₂ (antRegs q) ∧ flag s₂ f = true ∧ flag s₂ ⟨GNS_ANT_STAT q, 8 + k, 8 + k⟩ = true ∧
      (flag s f = false → flag s₂ GNS_IRQ_ANT = true) := by
    obtain ⟨hregs, hfl, hst, hirq⟩ := hnew
    by_cases hold : flag s₁ f = true
    · rw [show s₂ = s₁ from if_pos hold]
      exact ⟨regsBut_refl _ _, hold, hcond, fun h => absurd (hsame.symm.trans hold) (by simp [h])⟩
    · rw [show s₂ = n from if_neg hold]
      exact ⟨hregs, hfl, hst, fun _ => hirq⟩
  clear_value s₂
  obtain ⟨hregs, hfl, hst, hirq⟩ := h₂
  have hshow := regsBut_showAnt s₂
  refine ⟨?_, ?_, ?_, fun h => ?_, regsBut_trans (regsBut_trans h₁ hregs) (regsBut_mono hshow (by simp))⟩
  · rwa [flag_of_regsBut hshow (by grind)]
  · refine flag_showAnt s₂ hq ?_
    obtain rfl | rfl : k = 0 ∨ k = 1 := by omega
    · exact Or.inl hst
    · exact Or.inr hst
  · rwa [flag_of_regsBut hshow (show GNS_FLT ∉ [GNS_STAT] by decide)]
  · rw [flag_of_regsBut hshow (by decide)]
    exact hirq h

theorem biasShort_set (s : State) (q : Nat) (x : Option Nat) :
    biasShort { s with gns := { s.gns with shortAt := sparseSet (fun _ => none) s.gns.shortAt q x } } q = x := sparseGet_set _ _ _ _

theorem biasShort_antFault (s : State) (q k j : Nat) : biasShort (antFault s q k) j = biasShort s j :=
  congrArg (fun g => sparseGet (fun _ => none) (GnsState.shortAt g) j)
    ((antFault_keeps (R := (· ∈ [Part.regs, .hif, .recd])) s q k (allows_of_subset (by decide)) (Keeps.refl ..)).same .gns (by decide))

end Bias

/-! ### Corrections (R318, R321) -/

section Corrections

variable {s : State} {t : Nat}

/-- The registers that the loss of the corrections may move. -/
abbrev ageRegs : List Nat := GNS_FLT :: GNS_STAT :: GNS_SOL_INFO :: GNS_IRQ :: GNS_RTK_STAT :: tally

theorem setSolType_effect (s : State) {ty : Nat} (hty : ty < 8) : getF (setSolType s ty) GNS_STAT_TYPE = ty ∧
    regsBut s (setSolType s ty) (GNS_STAT :: GNS_SOL_INFO :: GNS_IRQ :: dropCounters) := by
  unfold setSolType
  extract_lets chg s₁
  have hget : getF s₁ GNS_STAT_TYPE = ty := by
    rw [getF_setF_apart (by decide), getF_setF _ _ _ (by decide)]
    exact Nat.mod_eq_of_lt hty
  have hregs : regsBut s s₁ (GNS_STAT :: GNS_SOL_INFO :: GNS_IRQ :: dropCounters) :=
    regsBut_setF (regsBut_setF (regsBut_refl _ _) (by simp) _) (by simp) _
  split
  · exact ⟨(getF_raiseIrq_apart (by decide) (by decide) _ _ _).trans hget,
      regsBut_trans hregs (regsBut_mono (regsBut_raiseIrq _ _ _ _) (by simp))⟩
  · exact ⟨hget, hregs⟩

theorem regsBut_showAge (s : State) (t : Nat) : regsBut s (showAge s t) [GNS_RTK_STAT] := regsBut_setF (regsBut_refl _ _) (by decide) _

theorem ageExceeded_effect (hcorr : s.gns.corrAt ≠ none) (hold : corrFresh s t = false) (hlost : s.gns.lost = false) :
    (ageExceeded s t).gns.lost = true ∧ flag (ageExceeded s t) GNS_FLT_RTCM_LOST = true ∧
      getF (ageExceeded s t) GNS_STAT_TYPE = min 1 (getF s GNS_STAT_TYPE) ∧ regsBut s (ageExceeded s t) ageRegs := by
  unfold ageExceeded
  rw [if_pos (by simp [hold, hlost, Option.isSome_iff_ne_none.2 hcorr])]
  extract_lets g s₁ s₂
  have h₁ : regsBut s s₁ [GNS_FLT] := regsBut_setB (regsBut_of_regs rfl _) (by decide) _
  have h₂ : regsBut s s₂ (GNS_FLT :: lossCounters) :=
    regsBut_trans (regsBut_mono h₁ (by simp)) (regsBut_mono (regsBut_record _ _ _ _) (by simp))
  have hlost₂ : s₂.gns.lost = true := congrArg GnsState.lost ((keeps_record s₁ 0x9002 noInst _).same .gns (by decide))
  have hflag₂ : flag s₂ GNS_FLT_RTCM_LOST = true := (flag_record _ _ _ _ (by decide)).trans (flag_setB _ _ _ (by decide))
  have htype : getF s₂ GNS_STAT_TYPE = getF s GNS_STAT_TYPE := getF_of_regsBut h₂ (by decide)
  set u := if 2 ≤ getF s₂ GNS_STAT_TYPE then setSolType s₂ 1 else s₂ with hu
  have hu' : u.gns = s₂.gns ∧ getF u GNS_STAT_TYPE = min 1 (getF s GNS_STAT_TYPE) ∧
      regsBut s₂ u (GNS_STAT :: GNS_SOL_INFO :: GNS_IRQ :: dropCounters) := by
    obtain ⟨hty, hregs⟩ := setSolType_effect s₂ (ty := 1) (by decide)
    rw [htype] at hu
    by_cases h2 : 2 ≤ getF s GNS_STAT_TYPE
    · rw [hu, if_pos h2]
      exact ⟨(setSolType_keeps (R := (· ∈ [Part.regs, .hif])) s₂ 1 (allows_of_subset (by decide)) (Keeps.refl ..)).same .gns (by decide),
        by omega, hregs⟩
    · rw [hu, if_neg h2]
      exact ⟨rfl, by omega, regsBut_refl _ _⟩
  clear_value u s₂
  obtain ⟨hgns, hty, hregs⟩ := hu'
  have hshow := regsBut_showAge u t
  refine ⟨(congrArg GnsState.lost hgns).trans hlost₂, ?_, ?_, ?_⟩
  · rw [flag_of_regsBut hshow (by decide), flag_of_regsBut hregs (by decide), hflag₂]
  · rw [getF_of_regsBut hshow (by decide), hty]
  · exact regsBut_trans (regsBut_trans (regsBut_mono h₂ (by decide)) (regsBut_mono hregs (by decide))) (regsBut_mono hshow (by decide))

end Corrections

/-! ### Pinned slots (R304) -/

section Pins

variable {s : State} {h i : Nat} {v : Word}

/-- The row of GNS_SLOT_CFG. -/
def slotCfgRow : RegRow := ⟨0x2506, 1, 1, 1, 1, 0, 0x3FF7#32, 0, 0, 0, 0⟩

/-- The word that a write of the whole register presents for a slot whose setting is `old`. -/
def pinWord (old v : Word) : Word := presented slotCfgRow old 0xFFFFFFFF#32 v

theorem pinWord_and (old v : Word) : pinWord old v &&& 0x3FF7#32 = v &&& 0x3FF7#32 := by
  have hones : (0xFFFFFFFF#32) = BitVec.allOnes 32 := by decide
  ext j hj
  simp only [pinWord, presented, slotCfgRow, hones, BitVec.getElem_or, BitVec.getElem_and, BitVec.getElem_not, BitVec.getElem_allOnes]
  cases (0x3FF7#32)[j] <;> simp

/-- A pin is judged by the bits of the register that exist. -/
theorem pinValid_congr {a b : Word} (hab : a &&& 0x3FF7#32 = b &&& 0x3FF7#32) (s : State) (i : Nat) : pinValid s i a = pinValid s i b := by
  have hbit (j : Nat) (hj : (0x3FF7#32).getLsbD j = true) : a.getLsbD j = b.getLsbD j := by
    have := congrArg (·.getLsbD j) hab
    simpa [BitVec.getLsbD_and, hj] using this
  have hbits (hi lo : Nat) (hall : ∀ j < hi - lo + 1, (0x3FF7#32).getLsbD (lo + j) = true) : bitsOf a hi lo = bitsOf b hi lo := by
    refine Nat.eq_of_testBit_eq fun j => ?_
    rw [testBit_bitsOf, testBit_bitsOf]
    by_cases hj : j < hi - lo + 1
    · rw [hbit _ (hall j hj)]
    · simp [hj]
  simp only [pinValid, hbits 7 4 (by decide), hbits 13 8 (by decide), hbits 2 2 (by decide), hbit 0 (by decide)]

theorem hostItems_slotPin (hs : serves s h) (howner : ownerOrService s h = true) (hsel : bitsOf (winGet s h GNS_SLOT_SEL) 7 0 = i)
    (hvalid : pinValid s i (v &&& 0x3FF7#32) = true) (hstart : startsNow s h [item GNS_SLOT_CFG 0xFFFFFFFF#32 v]) :
    hostItems s h [item GNS_SLOT_CFG 0xFFFFFFFF#32 v] = (settled s h (slotPin (ahead s) i (pinWord (gnsAt s i).cfg v)), true) := by
  have hrow : regRow GNS_SLOT_CFG = some slotCfgRow := by decide
  have hview : viewOf (ahead s) h GNS_SLOT_CFG = (gnsAt s i).cfg := by
    rw [← hsel]
    rfl
  have hword : itemWord (ahead s) h (item GNS_SLOT_CFG 0xFFFFFFFF#32 v) = pinWord (gnsAt s i).cfg v := by
    simp only [itemWord, item, hrow, hview]
    rfl
  have hpin : pinValid s i (pinWord (gnsAt s i).cfg v) = true := by
    rw [← hvalid]
    refine pinValid_congr ?_ s i
    rw [pinWord_and, BitVec.and_assoc, BitVec.and_self]
  have hval : storeValue (ahead s) h GNS_SLOT_CFG (itemWord (ahead s) h (item GNS_SLOT_CFG 0xFFFFFFFF#32 v)) = some (pinWord (gnsAt s i).cfg v) := by
    rw [hword]
    show (if pinValid s (bitsOf (winGet s h GNS_SLOT_SEL) 7 0) (pinWord (gnsAt s i).cfg v) = true then _ else none) = _
    rw [hsel, if_pos hpin]
  have htouch : (item GNS_SLOT_CFG 0xFFFFFFFF#32 v).mask &&& writable slotCfgRow ≠ 0 := by
    show ¬ 0xFFFFFFFF#32 &&& writable slotCfgRow = 0
    decide
  have hmay : mayWrite (ahead s) h GNS_SLOT_CFG 0xFFFFFFFF#32 (itemWord (ahead s) h (item GNS_SLOT_CFG 0xFFFFFFFF#32 v)) = true := howner
  have hc : checkItem (ahead s) h (item GNS_SLOT_CFG 0xFFFFFFFF#32 v) = stOk := by
    refine checkItem_ok hrow htouch rfl hmay hval ?_
    simp [stateRule, item, GNS_SLOT_CFG, CLK_BRST, inRange, ringPage, gnsCheck, GNS_ANT_CFG, GNS_ACQ, GNS_AID, GNS_TRK, GNS_LOCK, GNS_MASK, GNS_RTK,
      GNS_HDG_CFG, GNS_SLOT_SEL]
  rw [hostItems_one hs hstart rfl hc, takeItem_eq hrow htouch hval, show (item GNS_SLOT_CFG 0xFFFFFFFF#32 v).idx = GNS_SLOT_CFG from rfl, scrub_noWo _ hrow rfl, ← hsel]
  rfl

end Pins

/-- Settles O36: each condition and expiry has its effect written out; a pin is kept beside the registers, for the next epoch. -/
theorem antennaBiasAndCorrections : Obligations.AntennaBiasAndCorrections := by
  unfold Obligations.AntennaBiasAndCorrections
  refine ⟨fun s q hq hbias => ?_, fun s q t hq ht => ⟨fun hbias hshort => ?_, fun u hshort hover => ?_⟩,
    fun s t ht => ⟨fun hcorr hold hlost => ?_, fun hsrc hover => ?_⟩, fun s h i v hs howner hsel hvalid hstart => ?_⟩
  · obtain ⟨hcond, hsum, hflag, hirq, hregs⟩ := antFault_effect (s := s) hq (k := 0) (by decide)
    refine answers_of_answer rfl (by simp [hq]) ?_
    rw [if_pos hbias]
    exact ⟨hcond, hsum, hflag, hirq, hregs, partsBut_of_keeps (antFault_keeps _ _ _ (allows_of_subset (by decide)) (Keeps.refl ..))⟩
  · set m : State := { s with gns := { s.gns with shortAt := sparseSet (fun _ => none) s.gns.shortAt q (some (absTick s t)) } } with hm
    obtain ⟨hcond, hsum, hflag, -, hregs⟩ := antFault_effect (s := m) hq (k := 1) (by decide)
    have heq : antShort s q (absTick s t) = antFault m q 1 := if_pos (by simp [hbias, hshort])
    refine answers_of_answer rfl (by simp [hq, ht]) ?_
    have hparts := partsBut_of_keeps (antShort_keeps (R := (· ∈ [Part.regs, .hif, .recd, .gns])) s q (absTick s t)
      (allows_of_subset (by decide)) (Keeps.refl ..))
    rw [heq] at hparts ⊢
    exact ⟨hcond, hsum, (biasShort_antFault ..).trans (biasShort_set ..), hflag, regsBut_before hregs rfl, hparts⟩
  · set m : State := { s with gns := { s.gns with shortAt := sparseSet (fun _ => none) s.gns.shortAt q none } } with hm
    have heq : biasReclose s q (absTick s t) = showAnt (setB m (GNS_ANT_STAT_SHORT q) false) := by
      simp only [biasReclose, hshort, if_pos hover]
      rfl
    refine answers_of_answer rfl (by simp [hq, ht]) ?_
    have hparts := partsBut_of_keeps (biasReclose_keeps (R := (· ∈ [Part.regs, .gns])) s q (absTick s t)
      (allows_of_subset (by decide)) (Keeps.refl ..))
    rw [heq] at hparts ⊢
    have hshow := regsBut_showAnt (setB m (GNS_ANT_STAT_SHORT q) false)
    refine ⟨biasShort_set .., ?_, ?_, hparts⟩
    · rw [flag_of_regsBut hshow (by grind), flag_setB _ _ _ (by grind)]
    · exact regsBut_trans (regsBut_setB (regsBut_of_regs rfl _) (by simp) _) (regsBut_mono hshow (by simp))
  · obtain ⟨hl, hflag, htype, hregs⟩ := ageExceeded_effect hcorr hold hlost
    exact answers_of_answer rfl ht ⟨hl, hflag, htype, hregs,
      partsBut_of_keeps (ageExceeded_keeps _ _ (allows_of_subset (by decide)) (Keeps.refl ..))⟩
  · refine answers_of_answer rfl ht ?_
    rw [sourceExpiry, if_pos (by simp [hsrc, hover])]
    exact ⟨flag_setB _ _ _ (by decide), regsBut_setB (regsBut_refl _ _) (by simp) _,
      partsBut_of_keeps (setB_keeps _ _ _ (allows_of_subset (by decide)) (Keeps.refl ..))⟩
  · refine answers_of_answer rfl (by simp [hs.1]) ?_
    rw [hostItems_slotPin hs howner hsel hvalid hstart]
    have hat : gnsAt (settled s h (slotPin (ahead s) i (pinWord (gnsAt s i).cfg v))) i =
        { gnsAt s i with cfg := pinWord (gnsAt s i).cfg v, cfgNew := true } := gnsAt_modGns ..
    rw [hat]
    refine ⟨pinWord_and .., rfl, rfl, fun j _ hj => gnsAt_modGns_ne (ahead s) _ hj, regsBut_settled (regsBut_of_regs rfl _), ?_⟩
    exact wroteBut_settled (modGns_keeps _ _ _ (allows_of_subset (by decide)) (Keeps.refl ..)) (by decide) (by decide)

end Sys2Proof.Antennas

namespace Sys2Proof.HostWrites

open Sys2Proof Sys2Proof.Machine Sys2Proof.Frame

/-! ### Writes of several fields and of bits that act, in a row without bits that are written to be cleared or set (R7) -/

section Merged

variable {r : RegRow} {old m val : Word}

/-- The word that a write under a mask presents, and that is stored: bits that only act are taken from the write. -/
def merged (r : RegRow) (old m val : Word) : Word := (old &&& ~~~ (r.wo ||| (m &&& r.rw))) ||| val

/-- The row has no bits that are written to be cleared or set, and bits that only act are no stored ones. -/
abbrev PlainRow (r : RegRow) : Prop := r.w1c = 0 ∧ r.w1s = 0 ∧ r.rw &&& r.wo = 0

theorem presented_merged (hr : PlainRow r) (hval : val &&& (m &&& (r.rw ||| r.wo)) = val) : presented r old m val = merged r old m val := by
  obtain ⟨hw1c, hw1s, hwo⟩ := hr
  ext j hj
  have hv := congrArg (·[j]) hval
  simp only [presented, merged, hw1c, hw1s, BitVec.getElem_or, BitVec.getElem_and, BitVec.getElem_not] at hv ⊢
  revert hv
  cases m[j] <;> cases val[j] <;> cases r.rw[j] <;> cases r.wo[j] <;> simp

theorem committed_merged (hr : PlainRow r) (hval : val &&& (m &&& (r.rw ||| r.wo)) = val) : committed r old (merged r old m val) = merged r old m val := by
  obtain ⟨hw1c, hw1s, hwo⟩ := hr
  ext j hj
  have hv := congrArg (·[j]) hval
  have hd := congrArg (·[j]) hwo
  simp only [committed, merged, hw1c, hw1s, BitVec.getElem_or, BitVec.getElem_and, BitVec.getElem_not] at hv hd ⊢
  revert hv hd
  cases m[j] <;> cases val[j] <;> cases r.rw[j] <;> cases r.wo[j] <;> simp

/-- A field that the mask covers, or bits that act, show what is written. -/
theorem bitsOf_merged {hi lo : Nat} (hcover : ∀ j < hi - lo + 1, (r.wo ||| (m &&& r.rw)).getLsbD (lo + j) = true) :
    bitsOf (merged r old m val) hi lo = bitsOf val hi lo := by
  refine Nat.eq_of_testBit_eq fun j => ?_
  rw [testBit_bitsOf, testBit_bitsOf]
  by_cases hj : j < hi - lo + 1
  · simp only [merged, BitVec.getLsbD_or, BitVec.getLsbD_and, BitVec.getLsbD_not]
    have hc := hcover j hj
    simp only [BitVec.getLsbD_or, BitVec.getLsbD_and] at hc
    simp [hc]
  · simp [hj]

/-- A field outside the mask stands. -/
theorem bitsOf_merged_ne {hi lo : Nat} (hout : ∀ j < hi - lo + 1, (r.wo ||| (m &&& r.rw)).getLsbD (lo + j) = false ∧ lo + j < 32)
    (hval : val &&& (m &&& (r.rw ||| r.wo)) = val) : bitsOf (merged r old m val) hi lo = bitsOf old hi lo := by
  refine Nat.eq_of_testBit_eq fun j => ?_
  rw [testBit_bitsOf, testBit_bitsOf]
  by_cases hj : j < hi - lo + 1
  · obtain ⟨hc, hlt⟩ := hout j hj
    have hv := congrArg (·.getLsbD (lo + j)) hval
    simp only [BitVec.getLsbD_or, BitVec.getLsbD_and, Bool.or_eq_false_iff] at hc hv
    simp only [merged, BitVec.getLsbD_or, BitVec.getLsbD_and, BitVec.getLsbD_not]
    obtain ⟨hwo, hrw⟩ := hc
    rw [← hv]
    cases hm : m.getLsbD (lo + j) <;> simp_all
  · simp [hj]

theorem getLsbD_merged {j : Nat} (hcover : (r.wo ||| (m &&& r.rw)).getLsbD j = true) : (merged r old m val).getLsbD j = val.getLsbD j := by
  simp only [BitVec.getLsbD_or, BitVec.getLsbD_and] at hcover
  simp only [merged, BitVec.getLsbD_or, BitVec.getLsbD_and, BitVec.getLsbD_not]
  simp [hcover]

/-- Bits that act are dropped once they have acted; the fields beside them stand. -/
theorem bitsOf_scrubbed {w : Word} {hi lo : Nat} (hout : ∀ j < hi - lo + 1, r.wo.getLsbD (lo + j) = false ∧ lo + j < 32) :
    bitsOf (w &&& ~~~ r.wo) hi lo = bitsOf w hi lo := by
  refine Nat.eq_of_testBit_eq fun j => ?_
  rw [testBit_bitsOf, testBit_bitsOf]
  by_cases hj : j < hi - lo + 1
  · obtain ⟨hc, hlt⟩ := hout j hj
    simp only [BitVec.getLsbD_and, BitVec.getLsbD_not, hc, hlt, decide_true, Bool.not_false, Bool.and_self, Bool.and_true]
  · simp [hj]

/-- A register whose bits can be written under a mask, and that is seen and stored in the common way. -/
abbrev MaskOk (i : Nat) (r : RegRow) (m : Word) : Prop :=
  regRow i = some r ∧ PlainRow r ∧ m &&& writable r ≠ 0 ∧ seenAsStored i = true ∧ storedByRow i = true ∧
    (inRange 0x1C00 0x1DFF i && decide (i % 64 = 0x12)) = false

/-- A write under a mask that is accepted with its value taken as it is. -/
theorem hostItems_item {s : State} {h i : Nat} (hi : MaskOk i r m) (hval : val &&& (m &&& (r.rw ||| r.wo)) = val) (hs : serves s h)
    (hstart : startsNow s h [item i m val]) (hmay : mayWrite (ahead s) h i m (merged r (rd s i) m val) = true)
    (hstore : storeValue (ahead s) h i (merged r (rd s i) m val) = some (merged r (rd s i) m val))
    (hrule : stateRule (ahead s) h i m (rd s i) (merged r (rd s i) m val) = .ok) :
    hostItems s h [item i m val] = (settled s h (scrub
      (writeEffect (ahead s) (ahead s) (wr (ahead s) i (merged r (rd s i) m val)) h i (rd s i) (merged r (rd s i) m val)) i), true) := by
  obtain ⟨hrow, hplain, htouch, hseen, hstored, htrip⟩ := hi
  have hp : presented r (rd s i) m val = merged r (rd s i) m val := presented_merged hplain hval
  have := hostItems_byRow (w := item i m val) (r := r) (v := merged r (rd s i) m val) hs hstart htrip hrow htouch rfl hseen hstored
    (by show mayWrite (ahead s) h i m (presented r (rd s i) m val) = true; rw [hp]; exact hmay)
    (by show storeValue (ahead s) h i (presented r (rd s i) m val) = _; rw [hp]; exact hstore) hrule
  rw [show (item i m val).idx = i from rfl, committed_merged hplain hval] at this
  exact this

end Merged

end Sys2Proof.HostWrites

namespace Sys2Proof.Inputs

open Sys2Proof Sys2Proof.Machine Sys2Proof.Frame Sys2Proof.HostWrites Sys2Proof.Pulses

/-! ### The analogue inputs (R292) -/

theorem ainAt_modAin (s : State) (a : Nat) (f : Ain → Ain) : ainAt (modAin s a f) a = f (ainAt s a) := sparseGet_mod _ _ _ _

theorem ainAt_of_enc {s t : State} (h : t.enc = s.enc) (a : Nat) : ainAt t a = ainAt s a := by rw [ainAt, h, ainAt]

/-- The registers of an analogue input that a conversion or a fault may write, with the recorder's counters. -/
abbrev ainRegs (a : Nat) : List Nat := SNS_AIN_VAL a :: SNS_AIN_FLT a :: tally

section Ain

variable {s : State} {a : Nat}

theorem regsBut_ainFault (s : State) : regsBut s (ainFault s a) (ainRegs a) := by
  unfold ainFault
  split
  · extract_lets high s1
    have hset : regsBut s s1 (ainRegs a) := regsBut_setB (regsBut_setB (regsBut_refl _ _) (by simp) _) (by split <;> simp) _
    exact regsBut_trans hset (regsBut_mono (regsBut_record _ _ _ _) fun j hj => by simp [lossCounters_subset_tally hj])
  · exact regsBut_refl _ _

theorem regsBut_ainClear (s : State) : regsBut s (ainClear s a) [SNS_AIN_VAL a] := by
  unfold ainClear
  split
  · exact regsBut_setB (regsBut_refl _ _) (by simp) _
  · exact regsBut_refl _ _

theorem ainFault_enc (s : State) : (ainFault s a).enc = s.enc := by
  unfold ainFault
  split
  · exact Encoders.enc_record ..
  · rfl

theorem ainClear_enc (s : State) : (ainClear s a).enc = s.enc := by
  unfold ainClear
  split <;> rfl

theorem getF_code_ainFault (s : State) : getF (ainFault s a) (SNS_AIN_VAL_CODE a) = getF s (SNS_AIN_VAL_CODE a) := by
  unfold ainFault
  split
  · rw [getF_record _ _ _ _ (by grind), getF_setB_apart (by split <;> grind), getF_setB_apart (by grind)]
  · rfl

theorem getF_code_ainClear (s : State) : getF (ainClear s a) (SNS_AIN_VAL_CODE a) = getF s (SNS_AIN_VAL_CODE a) := by
  unfold ainClear
  split
  · exact getF_setB_apart (by grind) _
  · rfl

/-- The code of a conversion: the rounded mean with the conversions before. -/
def meanCode (s : State) (a c : Nat) : Nat := (roundDiv ((averaged s a c).sum : Nat) (averaged s a c).length).toNat

theorem length_averaged_pos (s : State) (a c : Nat) : 0 < (averaged s a c).length := by
  simp [averaged]

/-- The conversion and its code, before the limits are looked at. -/
def converted (s : State) (a c : Nat) : State :=
  setF (modAin s a fun x => { x with conv := (c :: x.conv).take 128 }) (SNS_AIN_VAL_CODE a) (meanCode s a c)

theorem ainConvert_eq (hen : flag s (SNS_AIN_CFG_EN a) = true) (c : Nat) : ∃ f : Ain → Ain, (∀ x, (f x).conv = x.conv) ∧
    ainConvert s a c = ainClear (ainFault (modAin (converted s a c) a f) a) a := by
  have hmax : max 1 (averaged s a c).length = (averaged s a c).length := Nat.max_eq_right (length_averaged_pos s a c)
  have hmean : (ainAt (modAin s a fun x => { x with conv := (c :: x.conv).take 128 }) a).conv.take (2 ^ getF s (SNS_AIN_CFG_AVG a)) = averaged s a c := by
    rw [ainAt_modAin, averaged]
  rw [ainConvert, if_neg (by simp [hen])]
  extract_lets s1 l code s2 outside s3
  have hcode : s2 = converted s a c := by
    show setF s1 _ (roundDiv _ _).toNat = _
    rw [show l = averaged s a c from hmean, hmax]
    rfl
  refine ⟨fun x => if outside then { x with out := x.out + 1, within := 0 } else { x with out := 0, within := x.within + 1 }, fun x => ?_, ?_⟩
  · dsimp only
    split <;> rfl
  · rw [← hcode]

theorem ainConversion_shown (ha : a < 16) {c : Nat} (hc : c < 65536) (hen : flag s (SNS_AIN_CFG_EN a) = true) : answers (.ainConversion a c) s (fun t =>
    getF t (SNS_AIN_VAL_CODE a) = meanCode s a c % 65536 ∧ (ainAt t a).conv = (c :: (ainAt s a).conv).take 128 ∧
      regsBut s t (ainRegs a) ∧ partsBut s t [.regs, .recd, .enc]) := by
  refine answers_of_answer rfl (by simp [ha, hc]) ?_
  have hparts := partsBut_of_keeps (ainConvert_keeps (R := (· ∈ [Part.regs, .recd, .enc])) s a c (allows_of_subset (by decide)) (Keeps.refl ..))
  obtain ⟨f, hf, heq⟩ := ainConvert_eq hen c
  rw [heq] at hparts ⊢
  refine ⟨?_, ?_, ?_, hparts⟩
  · rw [getF_code_ainClear, getF_code_ainFault]
    exact getF_setF _ _ _ ⟨by simp, by simp⟩
  · rw [ainAt_of_enc ((ainClear_enc _).trans (ainFault_enc _)), ainAt_modAin, hf]
    exact congrArg Ain.conv (ainAt_modAin s a _)
  · have hset : regsBut s (modAin (converted s a c) a f) (ainRegs a) := regsBut_setF (regsBut_refl _ _) (f := SNS_AIN_VAL_CODE a) (by simp) _
    exact regsBut_trans (regsBut_trans hset (regsBut_ainFault _)) (regsBut_mono (regsBut_ainClear _) (by simp))

theorem ainFault_shown (ha : a < 16) (hen : flag s (SNS_AIN_CFG_EN a) = true) (hno : flag s (SNS_AIN_VAL_FAULT a) = false)
    (hout : 0 < (ainAt s a).out) (htime : ainTime s a ≤ (ainAt s a).out) : answers (.ainFault a) s (fun t => flag t (SNS_AIN_VAL_FAULT a) = true ∧
    flag t (if getF s (SNS_AIN_LIM_HI a) < getF s (SNS_AIN_VAL_CODE a) then SNS_AIN_FLT_HIF a else SNS_AIN_FLT_LOF a) = true ∧
    regsBut s t (ainRegs a) ∧ partsBut s t [.regs, .recd]) := by
  refine answers_of_answer rfl (by simp [ha]) ⟨?_, ?_, regsBut_ainFault s,
    partsBut_of_keeps (ainFault_keeps s a (allows_of_subset (by decide)) (Keeps.refl ..))⟩
  · rw [ainFault, if_pos (by simp [hen, hno, hout, htime]), flag_record _ _ _ _ ⟨by grind, by grind⟩, flag_setB_apart (by split <;> grind)]
    exact flag_setB _ _ _ ⟨by simp, by simp⟩
  · rw [ainFault, if_pos (by simp [hen, hno, hout, htime]), flag_record _ _ _ _ (by split <;> exact ⟨by grind, by grind⟩)]
    simp only [decide_eq_true_eq]
    exact flag_setB _ _ _ (by split <;> exact ⟨by simp, by simp⟩)

theorem ainFaultClear_shown (ha : a < 16) (hf : flag s (SNS_AIN_VAL_FAULT a) = true) (hin : 0 < (ainAt s a).within)
    (htime : ainTime s a ≤ (ainAt s a).within) : answers (.ainFaultClear a) s (fun t => flag t (SNS_AIN_VAL_FAULT a) = false ∧
    getF t (SNS_AIN_VAL_CODE a) = getF s (SNS_AIN_VAL_CODE a) ∧ regsBut s t [SNS_AIN_VAL a] ∧ partsBut s t [.regs]) := by
  refine answers_of_answer rfl (by simp [ha]) ⟨?_, getF_code_ainClear s, regsBut_ainClear s,
    partsBut_of_keeps (ainClear_keeps s a (allows_of_subset (by decide)) (Keeps.refl ..))⟩
  rw [ainClear, if_pos (by simp [hf, hin, htime])]
  exact flag_setB _ _ _ ⟨by simp, by simp⟩

end Ain

/-! ### The IMU's burst (R293, R294) -/

section Imu

variable {s : State} {t₀ : Nat} {b : List Byte}

/-- The registers that an accepted burst writes. -/
abbrev imuRegs : List Nat :=
  [SNS_IMU_STAT, SNS_IMU_GYR 0, SNS_IMU_GYR 1, SNS_IMU_GYR 2, SNS_IMU_ACC 0, SNS_IMU_ACC 1, SNS_IMU_ACC 2, CLK_X_CNT 1]

theorem edgeEvent_enc (s : State) (l t : Nat) : (edgeEvent s l t).enc = s.enc := by simp [edgeEvent, settleAt, setLine]

theorem imuField_of_regsBut {u : State} (h : regsBut s u [CLK_X_CNT 1]) (b : List Byte) {f : Field} (hf : f.reg ∉ [CLK_X_CNT 1]) :
    imuField u b f = imuField s b f := by
  simp only [imuField, getF_of_regsBut h hf, flag_of_regsBut h (f := SNS_IMU_CFG_BE) (by decide)]

/-- An edge that is accepted, with the transfer that it starts. -/
def burstStarted (s : State) (t : Nat) : State :=
  { edgeEvent s 8 t with enc := { (edgeEvent s 8 t).enc with drdy := some t, imuDead := false, imuTx := [imuAddr (edgeEvent s 8 t) (getF (edgeEvent s 8 t) SNS_IMU_BURST_ADDR) true] } }

/-- The angular rates are shown. -/
def ratesShown (u : State) (x y z : Int) : State :=
  let show1 (v : State) (k : Nat) (x : Int) := wr v (SNS_IMU_GYR k) (BitVec.ofInt 32 (fit 32 (x * (rd v SNS_IMU_GSC).toNat)))
  show1 (show1 (show1 u 0 x) 1 y) 2 z

/-- The accelerations are shown. -/
def accelerationsShown (u : State) (x y z : Int) : State :=
  let show1 (v : State) (k : Nat) (x : Int) := wr v (SNS_IMU_ACC k) (BitVec.ofInt 32 (fit 32 (roundDiv (x * (rd v SNS_IMU_ASC).toNat) 256)))
  show1 (show1 (show1 u 0 x) 1 y) 2 z

/-- The folds by which the model shows the axes, on two lists of three. -/
theorem foldl_axes (u : State) (x y z x' y' z' : Int) :
    ([x', y', z'].zipIdx 0).foldl (fun s x => wr s (SNS_IMU_ACC x.2) (BitVec.ofInt 32 (fit 32 (roundDiv (x.1 * (rd s SNS_IMU_ASC).toNat) 256))))
      (([x, y, z].zipIdx 0).foldl (fun s x => wr s (SNS_IMU_GYR x.2) (BitVec.ofInt 32 (fit 32 (x.1 * (rd s SNS_IMU_GSC).toNat)))) u) =
    accelerationsShown (ratesShown u x y z) x' y' z' := rfl

/-- All six axes of a burst are shown. -/
def axesShown (s : State) (t : Nat) (b : List Byte) : State :=
  accelerationsShown (ratesShown (burstStarted s t) (imuField s b SNS_IMU_MAP_GX) (imuField s b SNS_IMU_MAP_GY) (imuField s b SNS_IMU_MAP_GZ))
    (imuField s b SNS_IMU_MAP_AX) (imuField s b SNS_IMU_MAP_AY) (imuField s b SNS_IMU_MAP_AZ)

theorem imuDrdy_accepted (hen : flag s SNS_IMU_CFG_EN = true) (hlate : ∀ u ∈ s.enc.drdy, u + 475 * perUs ≤ t₀) :
    ∃ sat, imuDrdy s t₀ b = setB (setB (axesShown s t₀ b) SNS_IMU_STAT_VALID true) SNS_IMU_STAT_SAT sat := by
  have hfield : ∀ f : Field, f.reg ∉ [CLK_X_CNT 1] → imuField (burstStarted s t₀) b f = imuField s b f := fun f hf =>
    imuField_of_regsBut (regsBut_put (regsBut_edgeEvent s 8 t₀) rfl) b hf
  rw [imuDrdy, if_neg (by simp [hen])]
  extract_lets s1 early tx enc s2 g a s3 s4
  have hearly : early = false := by
    simp only [early, s1, edgeEvent_enc]
    cases hd : s.enc.drdy with
    | none => rfl
    | some x => simpa using hlate x hd
  rw [if_neg (by simp [hearly])]
  have hstart : s2 = burstStarted s t₀ := rfl
  have hg : g = [imuField s b SNS_IMU_MAP_GX, imuField s b SNS_IMU_MAP_GY, imuField s b SNS_IMU_MAP_GZ] := by
    simp only [g, hstart, List.map, hfield SNS_IMU_MAP_GX (by decide), hfield SNS_IMU_MAP_GY (by decide), hfield SNS_IMU_MAP_GZ (by decide)]
  have ha : a = [imuField s b SNS_IMU_MAP_AX, imuField s b SNS_IMU_MAP_AY, imuField s b SNS_IMU_MAP_AZ] := by
    simp only [a, hstart, List.map, hfield SNS_IMU_MAP_AX (by decide), hfield SNS_IMU_MAP_AY (by decide), hfield SNS_IMU_MAP_AZ (by decide)]
  have haxes : s4 = axesShown s t₀ b := by
    simp only [s4, s3]
    rw [hg, ha, hstart]
    exact foldl_axes ..
  exact ⟨_, congrArg (fun u => setB (setB u SNS_IMU_STAT_VALID true) SNS_IMU_STAT_SAT _) haxes⟩

theorem regsBut_ratesShown {u : State} (h : regsBut s u imuRegs) (x y z : Int) : regsBut s (ratesShown u x y z) imuRegs :=
  regsBut_wr (regsBut_wr (regsBut_wr h (by simp) _) (by simp) _) (by simp) _

theorem regsBut_accelerationsShown {u : State} (h : regsBut s u imuRegs) (x y z : Int) : regsBut s (accelerationsShown u x y z) imuRegs :=
  regsBut_wr (regsBut_wr (regsBut_wr h (by simp) _) (by simp) _) (by simp) _

theorem regsBut_axesShown (s : State) (t : Nat) (b : List Byte) : regsBut s (axesShown s t b) imuRegs := by
  have hedge : regsBut s (burstStarted s t) imuRegs := regsBut_mono (regsBut_put (regsBut_edgeEvent s 8 t) rfl) (by simp)
  exact regsBut_accelerationsShown (regsBut_ratesShown hedge _ _ _) _ _ _

theorem rd_burstStarted (s : State) (t : Nat) {i : Nat} (hi : i ∉ [CLK_X_CNT 1]) : rd (burstStarted s t) i = rd s i :=
  regsBut_put (regsBut_edgeEvent s 8 t) rfl i hi

theorem rd_accelerationsShown_ne (u : State) (x y z : Int) {i : Nat} (hi : i ∉ [SNS_IMU_ACC 0, SNS_IMU_ACC 1, SNS_IMU_ACC 2]) :
    rd (accelerationsShown u x y z) i = rd u i := by
  simp only [List.mem_cons, List.not_mem_nil, or_false, not_or] at hi
  obtain ⟨h0, h1, h2⟩ := hi
  simp only [accelerationsShown, rd_wr_ne _ _ _ _ h0, rd_wr_ne _ _ _ _ h1, rd_wr_ne _ _ _ _ h2]

theorem rd_ratesShown_ne (u : State) (x y z : Int) {i : Nat} (hi : i ∉ [SNS_IMU_GYR 0, SNS_IMU_GYR 1, SNS_IMU_GYR 2]) :
    rd (ratesShown u x y z) i = rd u i := by
  simp only [List.mem_cons, List.not_mem_nil, or_false, not_or] at hi
  obtain ⟨h0, h1, h2⟩ := hi
  simp only [ratesShown, rd_wr_ne _ _ _ _ h0, rd_wr_ne _ _ _ _ h1, rd_wr_ne _ _ _ _ h2]

theorem rd_axesShown_gyrX (s : State) (t : Nat) (b : List Byte) : rd (axesShown s t b) (SNS_IMU_GYR 0) =
    BitVec.ofInt 32 (fit 32 (imuField s b SNS_IMU_MAP_GX * (rd s SNS_IMU_GSC).toNat)) := by
  rw [axesShown, rd_accelerationsShown_ne _ _ _ _ (by decide), ratesShown, rd_wr_ne _ _ _ _ (by decide), rd_wr_ne _ _ _ _ (by decide), rd_wr_self,
    rd_burstStarted _ _ (by decide)]

theorem rd_axesShown_gyrZ (s : State) (t : Nat) (b : List Byte) : rd (axesShown s t b) (SNS_IMU_GYR 2) =
    BitVec.ofInt 32 (fit 32 (imuField s b SNS_IMU_MAP_GZ * (rd s SNS_IMU_GSC).toNat)) := by
  rw [axesShown, rd_accelerationsShown_ne _ _ _ _ (by decide), ratesShown, rd_wr_self, rd_wr_ne _ _ _ _ (by decide), rd_wr_ne _ _ _ _ (by decide),
    rd_burstStarted _ _ (by decide)]

theorem rd_axesShown_accY (s : State) (t : Nat) (b : List Byte) : rd (axesShown s t b) (SNS_IMU_ACC 1) =
    BitVec.ofInt 32 (fit 32 (roundDiv (imuField s b SNS_IMU_MAP_AY * (rd s SNS_IMU_ASC).toNat) 256)) := by
  rw [axesShown, accelerationsShown, rd_wr_ne _ _ _ _ (by decide), rd_wr_self, rd_wr_ne _ _ _ _ (by decide), rd_ratesShown_ne _ _ _ _ (by decide),
    rd_burstStarted _ _ (by decide)]

theorem imuDrdy_shown (hen : flag s SNS_IMU_CFG_EN = true) (hlen : b.length = getF s SNS_IMU_BURST_LEN)
    (hlate : ∀ u ∈ s.enc.drdy, u + 475 * perUs ≤ t₀) : answers (.imuDrdy t₀ b) s (fun t => t.enc.drdy = some t₀ ∧ flag t SNS_IMU_STAT_VALID = true ∧
    rd t (SNS_IMU_GYR 0) = BitVec.ofInt 32 (fit 32 (imuField s b SNS_IMU_MAP_GX * (rd s SNS_IMU_GSC).toNat)) ∧
    rd t (SNS_IMU_GYR 2) = BitVec.ofInt 32 (fit 32 (imuField s b SNS_IMU_MAP_GZ * (rd s SNS_IMU_GSC).toNat)) ∧
    rd t (SNS_IMU_ACC 1) = BitVec.ofInt 32 (fit 32 (roundDiv (imuField s b SNS_IMU_MAP_AY * (rd s SNS_IMU_ASC).toNat) 256)) ∧
    regsBut s t imuRegs ∧ partsBut s t [.regs, .sys, .enc]) := by
  refine answers_of_answer rfl (by simp [hlen]) ?_
  have hparts := partsBut_of_keeps (imuDrdy_keeps (R := (· ∈ [Part.regs, .sys, .enc])) s t₀ b (allows_of_subset (by decide)) (Keeps.refl ..))
  obtain ⟨sat, heq⟩ := imuDrdy_accepted (b := b) hen hlate
  rw [heq] at hparts ⊢
  have hne : ∀ i v, i ≠ SNS_IMU_STAT →
      (rd (setB (setB (axesShown s t₀ b) SNS_IMU_STAT_VALID true) SNS_IMU_STAT_SAT sat) i = v ↔ rd (axesShown s t₀ b) i = v) :=
    fun i v hi => by rw [rd_setB_ne _ _ _ _ hi, rd_setB_ne _ _ _ _ hi]
  refine ⟨rfl, ?_, ?_, ?_, ?_, regsBut_setB (regsBut_setB (regsBut_axesShown s t₀ b) (by simp) _) (by simp) _, hparts⟩
  · rw [flag_setB_apart (by decide)]
    exact flag_setB _ _ _ ⟨by decide, by decide⟩
  · rw [hne _ _ (by decide)]
    exact rd_axesShown_gyrX ..
  · rw [hne _ _ (by decide)]
    exact rd_axesShown_gyrZ ..
  · rw [hne _ _ (by decide)]
    exact rd_axesShown_accY ..

theorem imuDrdy_tooEarly (hen : flag s SNS_IMU_CFG_EN = true) (hlen : b.length = getF s SNS_IMU_BURST_LEN) {u : Nat} (hu : s.enc.drdy = some u)
    (hearly : t₀ < u + 475 * perUs) : answers (.imuDrdy t₀ b) s (fun t =>
    getF t SNS_IMU_STAT_FAST = min (getF s SNS_IMU_STAT_FAST + 1) 65535 ∧ regsBut s t [SNS_IMU_STAT, CLK_X_CNT 1] ∧ partsBut s t [.regs, .sys]) := by
  have heq : imuDrdy s t₀ b = bump (edgeEvent s 8 t₀) SNS_IMU_STAT_FAST := by
    rw [imuDrdy, if_neg (by simp [hen])]
    extract_lets s1 early
    rw [if_pos (by simp [early, s1, edgeEvent_enc, hu, hearly])]
  refine answers_of_answer (t := bump (edgeEvent s 8 t₀) SNS_IMU_STAT_FAST) (by rw [← heq]; rfl) (by simp [hlen]) ⟨?_, ?_, partsBut_of_keeps ?_⟩
  · rw [getF_bump _ _ _ ⟨by decide, by decide⟩, getF_of_regsBut (regsBut_edgeEvent s 8 t₀) (by decide)]
    rfl
  · exact regsBut_bump (regsBut_mono (regsBut_edgeEvent s 8 t₀) (by simp)) (by simp) _
  · exact bump_keeps _ _ _ (allows_of_subset (by decide)) (edgeEvent_keeps s 8 t₀ (allows_of_subset (by decide)) (Keeps.refl ..))

theorem imuTimeout_shown (hen : flag s SNS_IMU_CFG_EN = true) (hlive : s.enc.imuDead = false)
    (htime : s.enc.drdy.getD s.enc.imuOn + getF s SNS_IMU_CFG_TMO * perMs ≤ t₀) : answers (.imuTimeout t₀) s (fun t =>
    flag t SNS_IMU_STAT_VALID = false ∧ flag t SNS_IMU_STAT_TMOF = true ∧ t.enc.imuDead = true ∧
    regsBut s t (SNS_IMU_STAT :: tally) ∧ partsBut s t [.regs, .recd, .enc]) := by
  refine ⟨_, rfl, ?_⟩
  have hparts := partsBut_of_keeps (imuTimeout_keeps (R := (· ∈ [Part.regs, .recd, .enc])) s t₀ (allows_of_subset (by decide)) (Keeps.refl ..))
  rw [imuTimeout, if_pos (by simp [hen, hlive, htime])] at hparts ⊢
  refine ⟨?_, ?_, ?_, ?_, hparts⟩
  · rw [flag_record _ _ _ _ (by decide), flag_setB_apart (by decide)]
    exact flag_setB _ _ _ ⟨by decide, by decide⟩
  · rw [flag_record _ _ _ _ (by decide)]
    exact flag_setB _ _ _ ⟨by decide, by decide⟩
  · rw [Encoders.enc_record]
    rfl
  · refine regsBut_trans (regsBut_setB (regsBut_setB (regsBut_of_regs rfl _) (by simp) _) (by simp) _) (regsBut_mono (regsBut_record _ _ _ _) fun j hj => ?_)
    simp [lossCounters_subset_tally hj]

end Imu

/-! ### Transfers of one register of the IMU (R294) -/

section Transfers

variable {s : State} {h addr b : Nat}

/-- The row of SNS_IMU_XFER in the register index. -/
def xferRow : RegRow :=
  ⟨0x2185, 1, 1, 1, 1, 0x00000000#32, 0x0000FFFF#32, 0x00000000#32, 0x00000000#32, 0x00000000#32, 0x00030000#32⟩

theorem regRow_xfer : regRow SNS_IMU_XFER = some xferRow := by decide

theorem scrub_xfer (s : State) : scrub s SNS_IMU_XFER = wr s SNS_IMU_XFER (rd s SNS_IMU_XFER &&& ~~~ xferRow.wo) := by
  rw [scrub, regRow_xfer]
  rfl

/-- What the write of a transfer presents and stores, before its bits that act are dropped. -/
def xferWord (s : State) (m : Word) (n : Nat) : Word := merged xferRow (rd s SNS_IMU_XFER) m (BitVec.ofNat 32 n)

/-- A transfer while the port is disabled is taken; its effect is that of the bits that act. -/
theorem hostItems_xfer {m : Word} {n : Nat} (hm : MaskOk SNS_IMU_XFER xferRow m) (hval : BitVec.ofNat 32 n &&& (m &&& (xferRow.rw ||| xferRow.wo)) = BitVec.ofNat 32 n)
    (hs : serves s h) (how : ownerOrService s h = true) (hoff : flag s SNS_IMU_CFG_EN = false)
    (hstart : startsNow s h [item SNS_IMU_XFER m (BitVec.ofNat 32 n)]) :
    hostItems s h [item SNS_IMU_XFER m (BitVec.ofNat 32 n)] = (settled s h (scrub (encWrite (wr (ahead s) SNS_IMU_XFER (xferWord s m n)) SNS_IMU_XFER
      (rd s SNS_IMU_XFER) (xferWord s m n)) SNS_IMU_XFER), true) := by
  rw [hostItems_item hm hval hs hstart ((mayWrite_enc (by decide) (by decide)).trans how) (storeValue_enc (by decide) (by decide)),
    writeEffect_enc (by decide) (by decide), xferWord]
  rw [stateRule_enc (by decide) (by decide)]
  show inState (!(flag s SNS_IMU_CFG_EN && _)) Verdict.ok = _
  rw [hoff]
  rfl

theorem fits_writeWord {n : Nat} (hn : n < 2 ^ 17) : BitVec.ofNat 32 n &&& (0x1FFFF#32 &&& (xferRow.rw ||| xferRow.wo)) = BitVec.ofNat 32 n := by
  refine BitVec.eq_of_toNat_eq ?_
  show (n % 2 ^ 32) &&& (2 ^ 17 - 1) = n % 2 ^ 32
  rw [Nat.and_two_pow_sub_one_eq_mod]
  omega

theorem fits_readWord (haddr : addr < 256) : BitVec.ofNat 32 (addr + 131072) &&& (0x200FF#32 &&& (xferRow.rw ||| xferRow.wo)) = BitVec.ofNat 32 (addr + 131072) := by
  have hor : addr + 131072 = 2 ^ 17 ||| addr := by
    rw [← Nat.mul_one (2 ^ 17), ← Nat.two_pow_add_eq_or_of_lt (by omega), Nat.add_comm]
  have hand : addr &&& 0x200FF = addr := by
    rw [show 0x200FF = 2 ^ 17 ||| (2 ^ 8 - 1) from rfl, Nat.and_or_distrib_left, Nat.and_two_pow_sub_one_eq_mod, Nat.and_two_pow,
      Nat.testBit_lt_two_pow (by omega), Nat.mod_eq_of_lt (by omega)]
    simp
  refine BitVec.eq_of_toNat_eq ?_
  show ((addr + 131072) % 2 ^ 32) &&& 0x200FF = (addr + 131072) % 2 ^ 32
  rw [Nat.mod_eq_of_lt (by omega), hor, Nat.and_or_distrib_right, hand]
  rfl

theorem getLsbD_xferWord {m : Word} {n j : Nat} (hcover : (xferRow.wo ||| (m &&& xferRow.rw)).getLsbD j = true) :
    (xferWord s m n).getLsbD j = decide (n / 2 ^ j % 2 = 1) := by
  have hj : j < 32 := BitVec.lt_of_getLsbD hcover
  rw [xferWord, getLsbD_merged hcover, BitVec.getLsbD_ofNat, decide_eq_true hj, Bool.true_and, Nat.testBit_eq_decide_div_mod_eq]

/-- A field that the mask covers. -/
theorem bitsOf_xferWord {m : Word} {n hi lo : Nat} (hn : n < 2 ^ 32) (hcover : ∀ j < hi - lo + 1, (m &&& xferRow.rw).getLsbD (lo + j) = true) :
    bitsOf (xferWord s m n) hi lo = n / 2 ^ lo % 2 ^ (hi - lo + 1) := by
  rw [xferWord, bitsOf_merged fun j hj => by rw [BitVec.getLsbD_or, hcover j hj, Bool.or_true], bitsOf, BitVec.toNat_ofNat, Nat.mod_eq_of_lt hn]

/-- A bit that acted reads 0. -/
theorem flag_scrubbed (s : State) (w : Word) {j : Nat} (hj : xferRow.wo.getLsbD j = true) : decide (bitsOf (w &&& ~~~ xferRow.wo) j j ≠ 0) = false := by
  have := flag_bit (wr s 0 (w &&& ~~~ xferRow.wo)) 0 j
  rw [flag, getF, rd_wr_self] at this
  rw [this, BitVec.getLsbD_and, BitVec.getLsbD_not, hj]
  simp

theorem encWrite_xfer (s : State) (old v : Word) : encWrite s SNS_IMU_XFER old v =
    (let u := if v.getLsbD 16 then imuXfer s true else s
    if v.getLsbD 17 then imuRead (fresh (imuXfer u false)).2 (Config.freeWord (fresh (imuXfer u false)).1).toNat else u) := rfl

/-- A transfer that writes a register of the IMU, as it leaves the state. -/
def transferWritten (s : State) (w : Word) : State := scrub (imuXfer (wr (ahead s) SNS_IMU_XFER w) true) SNS_IMU_XFER

/-- A transfer that reads a register of the IMU, before the byte is read. -/
def transferRead (s : State) (w : Word) : State :=
  scrub (imuRead (fresh (imuXfer (wr (ahead s) SNS_IMU_XFER w) false)).2
    (Config.freeWord (fresh (imuXfer (wr (ahead s) SNS_IMU_XFER w) false)).1).toNat) SNS_IMU_XFER

theorem hostItems_transferWrite (haddr : addr < 256) (hb : b < 256) (hs : serves s h) (how : ownerOrService s h = true) (hoff : flag s SNS_IMU_CFG_EN = false)
    (hstart : startsNow s h [item SNS_IMU_XFER 0x1FFFF#32 (BitVec.ofNat 32 (addr + b * 256 + 65536))]) :
    hostItems s h [item SNS_IMU_XFER 0x1FFFF#32 (BitVec.ofNat 32 (addr + b * 256 + 65536))] =
      (settled s h (transferWritten s (xferWord s 0x1FFFF#32 (addr + b * 256 + 65536))), true) := by
  rw [hostItems_xfer ⟨regRow_xfer, by decide, by decide, by decide, by decide, by decide⟩ (fits_writeWord (by omega)) hs how hoff hstart, encWrite_xfer,
    getLsbD_xferWord (by decide), getLsbD_xferWord (by decide), decide_eq_true (by omega), decide_eq_false (by omega)]
  rfl

theorem hostItems_transferRead (haddr : addr < 256) (hs : serves s h) (how : ownerOrService s h = true) (hoff : flag s SNS_IMU_CFG_EN = false)
    (hstart : startsNow s h [item SNS_IMU_XFER 0x200FF#32 (BitVec.ofNat 32 (addr + 131072))]) :
    hostItems s h [item SNS_IMU_XFER 0x200FF#32 (BitVec.ofNat 32 (addr + 131072))] = (settled s h (transferRead s (xferWord s 0x200FF#32 (addr + 131072))), true) := by
  rw [hostItems_xfer ⟨regRow_xfer, by decide, by decide, by decide, by decide, by decide⟩ (fits_readWord haddr) hs how hoff hstart, encWrite_xfer,
    getLsbD_xferWord (by decide), getLsbD_xferWord (by decide), decide_eq_false (by omega), decide_eq_true (by omega)]
  rfl

theorem rd_transferWritten (s : State) (w : Word) : rd (transferWritten s w) SNS_IMU_XFER = w &&& ~~~ xferRow.wo := by
  rw [transferWritten, scrub_xfer, rd_wr_self]
  exact congrArg (· &&& ~~~ xferRow.wo) (rd_wr_self (ahead s) SNS_IMU_XFER w)

theorem regsBut_transferWritten (s : State) (w : Word) : regsBut s (transferWritten s w) [SNS_IMU_XFER] := by
  rw [transferWritten, scrub_xfer]
  exact regsBut_wr (regsBut_put (regsBut_wr (regsBut_of_regs rfl _) (i := SNS_IMU_XFER) (by simp) _) rfl) (by simp) _

theorem keeps_transferWritten (s : State) (w : Word) : Keeps (· ∈ [Part.regs, .sys, .enc]) (ahead s) (transferWritten s w) := by
  rw [transferWritten, scrub_xfer]
  exact wr_keeps _ _ _ (allows_of_subset (by decide)) (imuXfer_keeps _ _ (allows_of_subset (by decide))
    (wr_keeps _ _ _ (allows_of_subset (by decide)) (Keeps.refl ..)))

theorem transferWrite_shown (haddr : addr < 256) (hb : b < 256) (hs : serves s h) (how : ownerOrService s h = true) (hoff : flag s SNS_IMU_CFG_EN = false)
    (hstart : startsNow s h [item SNS_IMU_XFER 0x1FFFF#32 (BitVec.ofNat 32 (addr + b * 256 + 65536))]) : answers (.imuXferWrite h addr b) s (fun t =>
    getF t SNS_IMU_XFER_ADDR = addr ∧ getF t SNS_IMU_XFER_DATA = b ∧ flag t SNS_IMU_XFER_WR = false ∧
      regsBut s t [SNS_IMU_XFER] ∧ wroteBut s t h [.regs, .sys, .enc]) := by
  refine answers_of_answer rfl (by simp [hs.1, haddr, hb]) ?_
  rw [hostItems_transferWrite haddr hb hs how hoff hstart]
  have hword := rd_transferWritten s (xferWord s 0x1FFFF#32 (addr + b * 256 + 65536))
  refine ⟨?_, ?_, ?_, regsBut_settled (regsBut_transferWritten _ _), wroteBut_settled (keeps_transferWritten ..) (by decide) (by decide)⟩
  · rw [getF_settled, getF, hword, bitsOf_scrubbed (by decide), bitsOf_xferWord (by omega) (by decide)]
    show (addr + b * 256 + 65536) / 2 ^ 0 % 2 ^ 8 = addr
    omega
  · rw [getF_settled, getF, hword, bitsOf_scrubbed (by decide), bitsOf_xferWord (by omega) (by decide)]
    show (addr + b * 256 + 65536) / 2 ^ 8 % 2 ^ 8 = b
    omega
  · rw [flag_settled, flag, getF, hword]
    exact flag_scrubbed s _ (by decide)

theorem rd_transferRead (s : State) (w : Word) : ∃ v, rd (transferRead s w) SNS_IMU_XFER = bitsSet w 31 24 v &&& ~~~ xferRow.wo := by
  refine ⟨(Config.freeWord s.free).toNat, ?_⟩
  rw [transferRead, scrub_xfer, rd_wr_self, imuRead, rd_setF, if_pos rfl]
  exact congrArg (bitsSet · 31 24 (Config.freeWord s.free).toNat &&& ~~~ xferRow.wo) (rd_wr_self (ahead s) SNS_IMU_XFER w)

theorem regsBut_transferRead (s : State) (w : Word) : regsBut s (transferRead s w) [SNS_IMU_XFER] := by
  rw [transferRead, scrub_xfer]
  refine regsBut_wr (regsBut_setF (regsBut_put (regsBut_wr (regsBut_of_regs rfl _) (i := SNS_IMU_XFER) ?_ w) rfl) ?_ _) ?_ _ <;> simp

theorem keeps_transferRead (s : State) (w : Word) : Keeps (· ∈ [Part.regs, .sys, .enc, .free]) (ahead s) (transferRead s w) := by
  rw [transferRead, scrub_xfer]
  exact wr_keeps _ _ _ (allows_of_subset (by decide)) (imuRead_keeps _ _ (allows_of_subset (by decide)) (fresh_keeps _ (allows_of_subset (by decide))
    (imuXfer_keeps _ _ (allows_of_subset (by decide)) (wr_keeps _ _ _ (allows_of_subset (by decide)) (Keeps.refl ..)))))

theorem transferRead_shown (haddr : addr < 256) (hb : b < 256) (hs : serves s h) (how : ownerOrService s h = true) (hoff : flag s SNS_IMU_CFG_EN = false)
    (hstart : startsNow s h [item SNS_IMU_XFER 0x200FF#32 (BitVec.ofNat 32 (addr + 131072))]) : answers (.imuXferRead h addr b) s (fun t =>
    getF t SNS_IMU_XFER_ADDR = addr ∧ getF t SNS_IMU_XFER_RDATA = b ∧ flag t SNS_IMU_XFER_RD = false ∧
      regsBut s t [SNS_IMU_XFER] ∧ wroteBut s t h [.regs, .sys, .enc, .free]) := by
  refine answers_of_answer rfl (by simp [hs.1, haddr, hb]) ?_
  rw [hostItems_transferRead haddr hs how hoff hstart, if_pos rfl]
  obtain ⟨v, hword⟩ := rd_transferRead s (xferWord s 0x200FF#32 (addr + 131072))
  refine ⟨?_, ?_, ?_, ?_, ?_⟩
  · rw [imuRead, getF_setF_apart (by decide), getF_settled, getF, hword, bitsOf_scrubbed (by decide), bitsOf_bitsSet_ne _ _ _ _ _ _ (by decide) (by decide) (by decide),
      bitsOf_xferWord (by omega) (by decide)]
    show (addr + 131072) / 2 ^ 0 % 2 ^ 8 = addr
    omega
  · exact (getF_setF _ _ _ ⟨by decide, by decide⟩).trans (Nat.mod_eq_of_lt hb)
  · rw [imuRead, flag_setF_apart (by decide), flag_settled, flag, getF, hword]
    exact flag_scrubbed s _ (by decide)
  · exact regsBut_setF (regsBut_settled (regsBut_transferRead _ _)) (by simp) _
  · exact wroteBut_settled (t := imuRead (transferRead s _) b) (imuRead_keeps _ _ (allows_of_subset (by decide)) (keeps_transferRead ..)) (by decide) (by decide)

end Transfers

/-- Settles O33: the mean and the limits of a conversion, the axes of a burst, and a transfer by the bits that act. -/
theorem analogueInputsAndImu : Obligations.AnalogueInputsAndImu := by
  unfold Obligations.AnalogueInputsAndImu
  refine ⟨fun s a c ha hc => ⟨ainConversion_shown ha hc, ainFault_shown ha, ainFaultClear_shown ha⟩,
    fun s t₀ hen => ⟨fun b hlen => ⟨imuDrdy_shown hen hlen, fun u => imuDrdy_tooEarly hen hlen⟩, imuTimeout_shown hen⟩,
    fun s h addr b hs how haddr hb hoff => ⟨transferWrite_shown haddr hb hs how hoff, transferRead_shown haddr hb hs how hoff⟩⟩

end Sys2Proof.Inputs

namespace Sys2Proof.SerialPorts

open Sys2Proof Sys2Proof.Machine Sys2Proof.Frame Sys2Proof.HostWrites Sys2Proof.Encoders

/-! ### What the operations of a port leave of its serial reads and of its state -/

section Ports

variable {s t : State} {p : Nat}

@[simp] theorem serAt_setF (s : State) (f : Field) (x p : Nat) : serAt (setF s f x) p = serAt s p := rfl

@[simp] theorem serAt_setB (s : State) (f : Field) (b : Bool) (p : Nat) : serAt (setB s f b) p = serAt s p := rfl

@[simp] theorem serAt_wr (s : State) (i : Nat) (v : Word) (p : Nat) : serAt (wr s i v) p = serAt s p := rfl

@[simp] theorem serAt_bump (s : State) (f : Field) (n p : Nat) : serAt (bump s f n) p = serAt s p := rfl

@[simp] theorem serAt_modCnt (s : State) (u : Nat) (f : Counter → Counter) (p : Nat) : serAt (modCnt s u f) p = serAt s p := rfl

theorem getF_modSer (s : State) (p : Nat) (f : Serial → Serial) (g : Field) : getF (modSer s p f) g = getF s g := rfl

theorem serAt_record (s : State) (code inst : Nat) (val : List Byte) (p : Nat) : serAt (record s code inst val) p = serAt s p :=
  serAt_of_enc (congrArg EncState.ser (enc_record ..)) p

theorem serAt_setUnitState (s : State) (u st t p : Nat) : serAt (setUnitState s u st t) p = serAt s p := by
  unfold setUnitState
  extract_lets s₁
  have h₁ : serAt s₁ p = serAt s p := by
    dsimp only [s₁]
    split <;> rfl
  refine Eq.trans ?_ h₁
  refine (serAt_of_enc (congrArg EncState.ser (showEnc_enc _)) p).trans ?_
  rw [startWindow]
  exact serAt_of_enc (congrArg EncState.ser (showSpeed_enc _ _ _)) p

theorem serAt_setAngle (s : State) (q a : Nat) (v : Bool) (p : Nat) : serAt (setAngle s q a v) p = serAt s p := rfl

theorem serAt_quadAngle (s : State) (q p : Nat) : serAt (quadAngle s q) p = serAt s p := by
  unfold quadAngle
  extract_lets cpr ref
  split <;> rfl

/-- Following the count moves nothing of the reads but the instant of POS. -/
theorem serAt_followCount (s : State) (p t : Nat) : ∃ x, serAt (followCount s p t) p = { serAt s p with posAt := x } := by
  unfold followCount
  split
  case isFalse => exact ⟨(serAt s p).posAt, rfl⟩
  case isTrue =>
    extract_lets s₁ x pos
    have h₁ : serAt s₁ p = { serAt s p with posAt := some t } := serAt_modSer ..
    refine ⟨some t, Eq.trans ?_ h₁⟩
    split
    · rfl
    · exact (serAt_quadAngle ..).trans rfl

/-- A field of a port that a change of its state does not concern. -/
theorem getF_setUnitState {g : Field} {st b : Nat} (hp : p < 8) (hg : Apart (ENC_PT_STAT_STATE p) g) (hreg : g.reg ≠ ENC_STAT ∧ g.reg ≠ ENC_PT_SPD p) :
    getF (setUnitState s p st b) g = getF s g := by
  unfold setUnitState
  extract_lets s₁
  have h₁ : getF s₁ g = getF s g := by
    dsimp only [s₁]
    rw [if_pos hp]
    exact getF_setF_apart hg _
  refine ((getF_of_regsBut (regsBut_showEnc _) (by simp [hreg.1])).trans ?_).trans h₁
  rw [startWindow, showSpeed, if_pos hp]
  exact getF_wr_apart hreg.2 _

theorem flag_setUnitState {g : Field} {st b : Nat} (hp : p < 8) (hg : Apart (ENC_PT_STAT_STATE p) g) (hreg : g.reg ≠ ENC_STAT ∧ g.reg ≠ ENC_PT_SPD p) :
    flag (setUnitState s p st b) g = flag s g := by rw [flag, getF_setUnitState hp hg hreg, flag]

theorem portState_setUnitState {st b : Nat} (hp : p < 8) (hst : st < 4) : portState (setUnitState s p st b) p = st := by
  unfold setUnitState portState
  extract_lets s₁
  have h₁ : getF s₁ (ENC_PT_STAT_STATE p) = st := by
    dsimp only [s₁]
    rw [if_pos hp, getF_setF _ _ _ ⟨by simp, by simp⟩]
    exact Nat.mod_eq_of_lt hst
  refine ((getF_of_regsBut (regsBut_showEnc _) (by grind)).trans ?_).trans h₁
  rw [startWindow, showSpeed, if_pos hp]
  exact getF_wr_apart (by grind) _

theorem getF_followCount {g : Field} (s : State) (p t : Nat) (hg : g.reg ∉ [ENC_PT_POS p, ENC_PT_ANG p]) : getF (followCount s p t) g = getF s g :=
  getF_of_regsBut (regsBut_followCount s p t) hg

theorem flag_followCount {g : Field} (s : State) (p t : Nat) (hg : g.reg ∉ [ENC_PT_POS p, ENC_PT_ANG p]) : flag (followCount s p t) g = flag s g :=
  flag_of_regsBut (regsBut_followCount s p t) hg

/-- Entry to FAULT: the port's state, its angle's validity, and the reads but a return that waited. -/
theorem enterFault_effect (hp : p < 8) (s : State) : portState (enterFault s p) p = esFault ∧ flag (enterFault s p) (ENC_PT_ANG_ANGV p) = false ∧
    (∃ x, serAt (enterFault s p) p = { serAt s p with ret := x }) ∧
    ∀ g : Field, Apart (ENC_PT_STAT_STATE p) g → g.reg ∉ [ENC_STAT, ENC_PT_SPD p, ENC_PT_ANG p, 0x304, 0x305] → getF (enterFault s p) g = getF s g := by
  unfold enterFault portState
  extract_lets s₁
  have hst : portState s₁ p = esFault := portState_setUnitState hp (by decide)
  rw [if_pos hp]
  refine ⟨?_, ?_, ⟨none, ?_⟩, fun g hg hreg => ?_⟩
  · rw [getF_record _ _ _ _ (by grind), getF_setB_apart (by grind)]
    exact hst
  · rw [flag_record _ _ _ _ (by grind)]
    exact flag_setB _ _ _ ⟨by simp, by simp⟩
  · rw [serAt_record, serAt_setB, serAt_modSer, serAt_setUnitState]
  · simp only [List.mem_cons, List.not_mem_nil, or_false, not_or] at hreg
    obtain ⟨hsum, hspd, hang, hlost, hfull⟩ := hreg
    rw [getF_record _ _ _ _ ⟨hlost, hfull⟩]
    exact (getF_wr_apart hang _).trans (getF_setUnitState hp hg ⟨hsum, hspd⟩)

end Ports

/-! ### Reads (R281 to R283) -/

section Reads

variable {s : State} {p i : Nat} {w : SerialWord}

theorem serialReadStart_shown (hp : p < 8) (hmode : serialMode s p = true) (hon : portState s p ≠ esOff) : answers (.serialReadStart p) s (fun t =>
    (serAt t p).reading = some ((serAt s p).ta + (serAt s p).n * (getF s (ENC_PT_REQ_PER p) * perUs)) ∧ (serAt t p).n = (serAt s p).n + 1 ∧
    t.regs = s.regs ∧ partsBut s t [.enc]) := by
  refine answers_of_answer rfl (by simp [hp]) ?_
  have hparts := partsBut_of_keeps (serialStart_keeps (R := (· ∈ [Part.enc])) s p (allows_of_subset (by decide)) (Keeps.refl ..))
  rw [serialStart, if_pos ⟨hmode, hon⟩] at hparts ⊢
  exact ⟨congrArg Serial.reading (serAt_modSer ..), congrArg Serial.n (serAt_modSer ..), rfl, hparts⟩

/-- The read is over: nothing is being read. -/
abbrev readOver (s : State) (p : Nat) : State := modSer s p fun x => { x with reading := none }

/-- An SSI word has no bits of its own beside its position. -/
theorem serialDone_ssi (hread : (serAt s p).reading = some i) (hmode : getF s (ENC_PT_CFG_MODE p) = 1) :
    serialDone s p w = if framed s p w then
      takeWord (readOver s p) p (if flag s (ENC_PT_CFG_GRAY p) then grayToBin (wordValue s p w) else wordValue s p w) i
      else readFails (readOver s p) p := by
  have hbiss : decide (getF (readOver s p) (ENC_PT_CFG_MODE p) = 2) = false := decide_eq_false (by rw [show getF (readOver s p) _ = 1 from hmode]; decide)
  have hok : wordOk (readOver s p) p w = framed s p w := by
    have hframed : framed (readOver s p) p w = framed s p w := rfl
    rw [wordOk, hframed, if_pos (show getF (readOver s p) _ = 1 from hmode)]
    cases framed s p w <;> rfl
  have hgray : (getF (readOver s p) (ENC_PT_CFG_MODE p) = 1 ∧ flag (readOver s p) (ENC_PT_CFG_GRAY p) = true) ↔ flag s (ENC_PT_CFG_GRAY p) = true :=
    and_iff_right hmode
  simp only [serialDone, hread, hbiss, Bool.false_and, Bool.false_eq_true, if_false, hok, hgray]
  rfl

theorem takeWord_serial {v : Nat} (hserial : portState s p = esSerial) : takeWord s p v i =
    placeWord (modSer (setF (wr s (ENC_PT_RAW_LO p) (BitVec.ofNat 32 v)) (ENC_PT_RAW_HI_POS p) (v / 2 ^ 32)) p fun x => { x with fails := 0 }) p v i := by
  unfold takeWord
  extract_lets s₁ s₂
  refine if_pos ?_
  exact (getF_setF_apart (by grind) _).trans ((getF_wr_apart (by grind) _).trans hserial)

theorem regsBut_placeWord (s : State) (p v i : Nat) : regsBut s (placeWord s p v i) [ENC_PT_POS p, ENC_PT_ANG p] :=
  regsBut_setAngle (regsBut_wr (regsBut_of_regs rfl _) (by simp) _) (by simp) _ _

/-- A word of a port in SERIAL is shown in RAW, POS and ANG. -/
theorem takeWord_effect {v : Nat} (hserial : portState s p = esSerial) :
    (serAt (takeWord s p v i) p = { serAt s p with fails := 0, word := some v, posAt := some i }) ∧
    rd (takeWord s p v i) (ENC_PT_RAW_LO p) = BitVec.ofNat 32 v ∧ rd (takeWord s p v i) (ENC_PT_POS p) = BitVec.ofNat 32 v ∧
    getF (takeWord s p v i) (ENC_PT_ANG_ANG p) = serialAngle s p v % 65536 ∧ flag (takeWord s p v i) (ENC_PT_ANG_ANGV p) = true ∧
    regsBut s (takeWord s p v i) [ENC_PT_RAW_LO p, ENC_PT_RAW_HI p, ENC_PT_POS p, ENC_PT_ANG p] := by
  rw [takeWord_serial hserial]
  set u : State := modSer (setF (wr s (ENC_PT_RAW_LO p) (BitVec.ofNat 32 v)) (ENC_PT_RAW_HI_POS p) (v / 2 ^ 32)) p fun x => { x with fails := 0 } with hu
  have hregs : regsBut s u [ENC_PT_RAW_LO p, ENC_PT_RAW_HI p] := regsBut_put (regsBut_setF (regsBut_wr (regsBut_refl _ _) (by simp) _) (by simp) _) rfl
  have hplace := regsBut_placeWord u p v i
  have hser : serAt u p = { serAt s p with fails := 0 } := serAt_modSer ..
  have hraw : rd u (ENC_PT_RAW_LO p) = BitVec.ofNat 32 v := (rd_setF_ne _ _ _ _ (by grind)).trans (rd_wr_self ..)
  have hangle : serialAngle u p v = serialAngle s p v := by
    rw [serialAngle, getF_of_regsBut hregs (by grind), serialAngle]
  clear_value u
  refine ⟨?_, (hplace _ (by grind)).trans hraw, ?_, ?_, ?_, regsBut_trans (regsBut_mono hregs (by simp)) (regsBut_mono hplace (by simp))⟩
  · refine (serAt_setAngle ..).trans ((serAt_wr ..).trans ((serAt_modSer ..).trans ?_))
    rw [hser]
  · exact (rd_setB_ne _ _ _ _ (by grind)).trans ((rd_setF_ne _ _ _ _ (by grind)).trans (rd_wr_self ..))
  · refine (getF_setB_apart (by grind) _).trans ((getF_setF _ _ _ ⟨by simp, by simp⟩).trans ?_)
    exact congrArg (· % 65536) hangle
  · exact flag_setB _ _ _ ⟨by simp, by simp⟩

theorem serialRead_shown (hp : p < 8) (hread : (serAt s p).reading = some i) (hmode : getF s (ENC_PT_CFG_MODE p) = 1) (hserial : portState s p = esSerial)
    (hframed : framed s p w = true) (hgray : flag s (ENC_PT_CFG_GRAY p) = false) : answers (.serialReadDone p w) s (fun t =>
    (serAt t p).word = some (wordValue s p w) ∧ (serAt t p).fails = 0 ∧ (serAt t p).reading = none ∧ (serAt t p).posAt = some i ∧
    rd t (ENC_PT_RAW_LO p) = BitVec.ofNat 32 (wordValue s p w) ∧ rd t (ENC_PT_POS p) = BitVec.ofNat 32 (wordValue s p w) ∧
    getF t (ENC_PT_ANG_ANG p) = serialAngle s p (wordValue s p w) % 65536 ∧ flag t (ENC_PT_ANG_ANGV p) = true ∧
    regsBut s t [ENC_PT_RAW_LO p, ENC_PT_RAW_HI p, ENC_PT_POS p, ENC_PT_ANG p] ∧ partsBut s t [.regs, .enc]) := by
  have heq : serialDone s p w = takeWord (readOver s p) p (wordValue s p w) i := by
    rw [serialDone_ssi hread hmode, if_pos hframed, if_neg (by simp [hgray])]
  refine answers_of_answer (t := takeWord (readOver s p) p (wordValue s p w) i) (by rw [← heq]; rfl) (by simp [hp]) ?_
  obtain ⟨hser, hraw, hpos, hang, hangv, hregs⟩ := takeWord_effect (s := readOver s p) (p := p) (i := i) (v := wordValue s p w) hserial
  refine ⟨?_, ?_, ?_, ?_, hraw, hpos, hang, hangv, regsBut_before hregs rfl, partsBut_of_keeps ?_⟩
  · rw [hser]
  · rw [hser]
  · rw [hser, serAt_modSer]
  · rw [hser]
  · exact takeWord_keeps _ _ _ _ (allows_of_subset (by decide)) (modSer_keeps _ _ _ (allows_of_subset (by decide)) (Keeps.refl ..))

/-- A read that fails is counted. -/
def failCounted (s : State) (p : Nat) : State := bump (modSer s p fun x => { x with fails := x.fails + 1 }) (ENC_PT_CNT_SERR p)

theorem readFails_below (hserial : portState s p = esSerial) (hmax : (serAt s p).fails + 1 < getF s (ENC_PT_REQ_ERR_MAX p)) : readFails s p = failCounted s p := by
  have hst : portState (failCounted s p) p = esSerial := (getF_bump_apart (by grind) _).trans hserial
  have hlim : getF (failCounted s p) (ENC_PT_REQ_ERR_MAX p) = getF s (ENC_PT_REQ_ERR_MAX p) := getF_bump_apart (by grind) _
  have hser : (serAt (failCounted s p) p).fails = (serAt s p).fails + 1 := congrArg Serial.fails (serAt_modSer ..)
  rw [readFails, ← failCounted, if_neg (by rw [hlim, hser]; omega), if_neg (by simp [hst])]

/-- The flag of a port whose reads have failed ERR_MAX times. -/
def failShown (s : State) (p : Nat) : State := setB (failCounted s p) (ENC_PT_FLT_SERR p) true

/-- The fallback to quadrature of a port whose reads fail. -/
def fallenBack (s : State) (p : Nat) : State :=
  record (setUnitState (setB (modSer (failShown s p) p fun x => { x with fbRep := (cntAt (failShown s p) p).rep, back := false }) (ENC_PT_STAT_FALLBK p) true)
    p esQuad (nowTick s + slotsPerStep)) 0x8002 p []

theorem readFails_limit (hserial : portState s p = esSerial) (hmax : getF s (ENC_PT_REQ_ERR_MAX p) ≤ (serAt s p).fails + 1) :
    readFails s p = if flag s (ENC_PT_CFG_QUAD_EN p) && !flag s (ENC_PT_STAT_QFLT p) then fallenBack s p else enterFault (failShown s p) p := by
  have hst : portState (failCounted s p) p = esSerial := (getF_bump_apart (by grind) _).trans hserial
  have hlim : getF (failCounted s p) (ENC_PT_REQ_ERR_MAX p) = getF s (ENC_PT_REQ_ERR_MAX p) := getF_bump_apart (by grind) _
  have hser : (serAt (failCounted s p) p).fails = (serAt s p).fails + 1 := congrArg Serial.fails (serAt_modSer ..)
  have hen : flag (failShown s p) (ENC_PT_CFG_QUAD_EN p) = flag s (ENC_PT_CFG_QUAD_EN p) := (flag_setB_apart (by grind) _).trans (flag_bump_apart (by grind) _)
  have hqflt : flag (failShown s p) (ENC_PT_STAT_QFLT p) = flag s (ENC_PT_STAT_QFLT p) := (flag_setB_apart (by grind) _).trans (flag_bump_apart (by grind) _)
  rw [readFails, ← failCounted, if_pos ⟨hst, by rw [hlim, hser]; exact hmax⟩, ← hen, ← hqflt]
  rfl

theorem fallback_effect (hp : p < 8) (u : State) (b : Nat) (val : List Byte) :
    portState (record (setUnitState (setB u (ENC_PT_STAT_FALLBK p) true) p esQuad b) 0x8002 p val) p = esQuad ∧
    flag (record (setUnitState (setB u (ENC_PT_STAT_FALLBK p) true) p esQuad b) 0x8002 p val) (ENC_PT_STAT_FALLBK p) = true ∧
    serAt (record (setUnitState (setB u (ENC_PT_STAT_FALLBK p) true) p esQuad b) 0x8002 p val) p = serAt u p ∧
    ∀ g : Field, Apart (ENC_PT_STAT_STATE p) g → Apart (ENC_PT_STAT_FALLBK p) g → g.reg ∉ [ENC_STAT, ENC_PT_SPD p, 0x304, 0x305] →
      getF (record (setUnitState (setB u (ENC_PT_STAT_FALLBK p) true) p esQuad b) 0x8002 p val) g = getF u g := by
  refine ⟨?_, ?_, ?_, fun g hg hg' hreg => ?_⟩
  · rw [portState, getF_record _ _ _ _ (by grind)]
    exact portState_setUnitState hp (by decide)
  · rw [flag_record _ _ _ _ (by grind), flag_setUnitState hp (by grind) (by grind)]
    exact flag_setB _ _ _ ⟨by simp, by simp⟩
  · rw [serAt_record, serAt_setUnitState, serAt_setB]
  · simp only [List.mem_cons, List.not_mem_nil, or_false, not_or] at hreg
    obtain ⟨hsum, hspd, hlost, hfull⟩ := hreg
    rw [getF_record _ _ _ _ ⟨hlost, hfull⟩, getF_setUnitState hp hg ⟨hsum, hspd⟩, getF_setB_apart hg']

theorem fallenBack_effect (hp : p < 8) (s : State) : portState (fallenBack s p) p = esQuad ∧ flag (fallenBack s p) (ENC_PT_STAT_FALLBK p) = true ∧
    (∃ x b, serAt (fallenBack s p) p = { serAt (failShown s p) p with fbRep := x, back := b }) ∧
    ∀ g : Field, Apart (ENC_PT_STAT_STATE p) g → Apart (ENC_PT_STAT_FALLBK p) g → g.reg ∉ [ENC_STAT, ENC_PT_SPD p, 0x304, 0x305] →
      getF (fallenBack s p) g = getF (failShown s p) g := by
  obtain ⟨hst, hfb, hser, hget⟩ := fallback_effect hp
    (modSer (failShown s p) p fun x => { x with fbRep := (cntAt (failShown s p) p).rep, back := false }) (nowTick s + slotsPerStep) []
  refine ⟨hst, hfb, ⟨(cntAt (failShown s p) p).rep, false, hser.trans (serAt_modSer ..)⟩, fun g hg hg' hreg => (hget g hg hg' hreg).trans ?_⟩
  exact getF_of_regs (by simp only [modSer]) g

theorem getF_failShown (s : State) (p : Nat) : getF (failShown s p) (ENC_PT_CNT_SERR p) = min (getF s (ENC_PT_CNT_SERR p) + 1) 65535 :=
  (getF_setB_apart (by grind) _).trans (getF_bump _ _ _ ⟨by simp, by simp⟩)

theorem flag_failShown (s : State) (p : Nat) : flag (failShown s p) (ENC_PT_FLT_SERR p) = true := flag_setB _ _ _ ⟨by simp, by simp⟩

/-- What a failed read leaves of a port in SERIAL. -/
theorem readFails_effect (hp : p < 8) (hserial : portState s p = esSerial) : (serAt (readFails s p) p).fails = (serAt s p).fails + 1 ∧
    (serAt (readFails s p) p).reading = (serAt s p).reading ∧ getF (readFails s p) (ENC_PT_CNT_SERR p) = min (getF s (ENC_PT_CNT_SERR p) + 1) 65535 ∧
    ((serAt s p).fails + 1 < getF s (ENC_PT_REQ_ERR_MAX p) → portState (readFails s p) p = esSerial ∧ regsBut s (readFails s p) [ENC_PT_CNT p]) ∧
    (getF s (ENC_PT_REQ_ERR_MAX p) ≤ (serAt s p).fails + 1 → flag (readFails s p) (ENC_PT_FLT_SERR p) = true ∧
      if flag s (ENC_PT_CFG_QUAD_EN p) && !flag s (ENC_PT_STAT_QFLT p) then
        portState (readFails s p) p = esQuad ∧ flag (readFails s p) (ENC_PT_STAT_FALLBK p) = true
      else portState (readFails s p) p = esFault ∧ flag (readFails s p) (ENC_PT_ANG_ANGV p) = false) := by
  have hcounted : serAt (failCounted s p) p = { serAt s p with fails := (serAt s p).fails + 1 } := serAt_modSer ..
  by_cases hmax : (serAt s p).fails + 1 < getF s (ENC_PT_REQ_ERR_MAX p)
  · rw [readFails_below hserial hmax]
    refine ⟨by rw [hcounted], by rw [hcounted], getF_bump _ _ _ ⟨by simp, by simp⟩, fun _ => ⟨(getF_bump_apart (by grind) _).trans hserial, ?_⟩, fun h => absurd h (by omega)⟩
    exact regsBut_bump (regsBut_of_regs rfl _) (by simp) _
  · have hmax' : getF s (ENC_PT_REQ_ERR_MAX p) ≤ (serAt s p).fails + 1 := by omega
    have hshown : serAt (failShown s p) p = { serAt s p with fails := (serAt s p).fails + 1 } := (serAt_setB ..).trans hcounted
    rw [readFails_limit hserial hmax']
    split
    case isTrue =>
      obtain ⟨hst, hfb, ⟨x, b, hser⟩, hget⟩ := fallenBack_effect hp s
      rw [hser, hshown]
      refine ⟨rfl, rfl, (hget _ (by grind) (by grind) (by grind)).trans (getF_failShown s p), fun h => absurd h hmax, fun _ => ⟨?_, hst, hfb⟩⟩
      rw [flag, hget _ (by grind) (by grind) (by grind)]
      exact flag_failShown s p
    case isFalse =>
      obtain ⟨hst, hangv, ⟨x, hser⟩, hget⟩ := enterFault_effect hp (failShown s p)
      rw [hser, hshown]
      refine ⟨rfl, rfl, (hget _ (by grind) (by grind)).trans (getF_failShown s p), fun h => absurd h hmax, fun _ => ⟨?_, hst, hangv⟩⟩
      rw [flag, hget _ (by grind) (by grind)]
      exact flag_failShown s p

theorem serialFailure_shown (hp : p < 8) (hread : (serAt s p).reading = some i) (hmode : getF s (ENC_PT_CFG_MODE p) = 1) (hserial : portState s p = esSerial)
    (hframed : framed s p w = false) : answers (.serialReadDone p w) s (fun t => (serAt t p).fails = (serAt s p).fails + 1 ∧ (serAt t p).reading = none ∧
    getF t (ENC_PT_CNT_SERR p) = min (getF s (ENC_PT_CNT_SERR p) + 1) 65535 ∧
    ((serAt s p).fails + 1 < getF s (ENC_PT_REQ_ERR_MAX p) → portState t p = esSerial ∧ regsBut s t [ENC_PT_CNT p]) ∧
    (getF s (ENC_PT_REQ_ERR_MAX p) ≤ (serAt s p).fails + 1 → flag t (ENC_PT_FLT_SERR p) = true ∧
      (if flag s (ENC_PT_CFG_QUAD_EN p) && !flag s (ENC_PT_STAT_QFLT p) then portState t p = esQuad ∧ flag t (ENC_PT_STAT_FALLBK p) = true
        else portState t p = esFault ∧ flag t (ENC_PT_ANG_ANGV p) = false)) ∧ partsBut s t [.regs, .recd, .enc]) := by
  have heq : serialDone s p w = readFails (readOver s p) p := by
    rw [serialDone_ssi hread hmode, if_neg (by simp [hframed])]
  refine answers_of_answer (t := readFails (readOver s p) p) (by rw [← heq]; rfl) (by simp [hp]) ?_
  obtain ⟨hfails, hover, hcnt, hbelow, hlimit⟩ := readFails_effect (s := readOver s p) hp hserial
  have hser : serAt (readOver s p) p = { serAt s p with reading := none } := serAt_modSer ..
  rw [hser] at hfails hover hbelow hlimit
  refine ⟨hfails, hover, hcnt, fun h => ?_, hlimit, partsBut_of_keeps ?_⟩
  · obtain ⟨hst, hregs⟩ := hbelow h
    exact ⟨hst, regsBut_before hregs rfl⟩
  · exact readFails_keeps _ _ (allows_of_subset (by decide)) (modSer_keeps _ _ _ (allows_of_subset (by decide)) (Keeps.refl ..))

end Reads

/-! ### Modes that a host writes (R281) -/

section Modes

variable {s : State} {h p m : Nat}

/-- The row of ENC_PT_CFG in the register index. -/
def portCfgRow : RegRow :=
  ⟨0x2000, 8, 16, 1, 1, 0x00200208#32, 0x003F0FFF#32, 0x00000000#32, 0x00000000#32, 0x00000000#32, 0x00000000#32⟩

theorem portMode_field (hp : p < 8) : FieldOk (ENC_PT_CFG_MODE p) portCfgRow := by
  revert p
  decide

theorem and_not_zero (w : Word) : w &&& ~~~ 0 = w := BitVec.and_allOnes

theorem presentedField_noAct {f : Field} {r : RegRow} (hact : actBits r = 0) (s : State) (n : Nat) :
    presentedField s f r n = bitsSet (rd s f.reg) f.hi f.lo n := by
  rw [presentedField, hact, and_not_zero]

theorem fieldStored_noWo {f : Field} {r : RegRow} (hwo : r.wo = 0) (s : State) (n : Nat) : fieldStored s f r n = setF (ahead s) f n := by
  rw [fieldStored, storedField, hwo, and_not_zero]
  rfl

theorem encCheck_port (hp : p < 8) {o : Nat} (ho : o < 16) (old v : Word) : encCheck s (0x2000 + o + 0x10 * p) old v = portCheck s p o old v := by
  rw [encCheck, if_pos (by omega), show (0x2000 + o + 0x10 * p - 0x2000) / 16 = p by omega, show (0x2000 + o + 0x10 * p) % 16 = o by omega]

/-- The mode of a port that is off may be set, and an unused port may be turned off. -/
theorem portCheck_mode (hm : m < 4) (hz : getF s (ENC_PT_CFG_ZMODE p) ≠ 3) (hq : bitsOf (rd s (ENC_PT_CFG p)) 20 16 ≤ 24)
    (hok : m ≠ 0 ∧ portState s p = esOff ∨ m = 0 ∧ portUsed s p = false) :
    portCheck s p 0 (rd s (ENC_PT_CFG p)) (bitsSet (rd s (ENC_PT_CFG p)) 1 0 m) = .ok := by
  have hsame : ∀ hi lo, lo ≤ hi → 1 < lo → bitsOf (bitsSet (rd s (ENC_PT_CFG p)) 1 0 m) hi lo = bitsOf (rd s (ENC_PT_CFG p)) hi lo :=
    fun hi lo hle hlt => bitsOf_bitsSet_ne _ _ _ _ _ _ (by decide) hle (Or.inl hlt)
  have hmode : bitsOf (bitsSet (rd s (ENC_PT_CFG p)) 1 0 m) 1 0 = m := (bitsOf_bitsSet _ _ _ _ (by decide) (by decide)).trans (Nat.mod_eq_of_lt hm)
  have hz' : bitsOf (rd s (ENC_PT_CFG p)) 5 4 ≠ 3 := hz
  simp only [portCheck, bitsDiffer, hmode, hsame 2 2 (by decide) (by decide), hsame 6 6 (by decide) (by decide), hsame 21 20 (by decide) (by decide),
    hsame 19 16 (by decide) (by decide), hsame 5 4 (by decide) (by decide), hsame 20 16 (by decide) (by decide)]
  rcases hok with ⟨hm0, hoff⟩ | ⟨hm0, hun⟩
  · simp [hm0, hoff, hz', hq, inState, valid]
  · simp [hm0, hun, hz', hq, inState, valid]

theorem encWrite_portMode (hp : p < 8) (old v : Word) (hd : bitsOf old 1 0 ≠ getF s (ENC_PT_CFG_MODE p)) : encWrite s (ENC_PT_CFG p) old v = portMode s p := by
  have hdiv : (ENC_PT_CFG p - 0x2000) / 16 = p := by simp only [ENC_PT_CFG]; omega
  have hmod : ENC_PT_CFG p % 16 = 0 := by simp only [ENC_PT_CFG]; omega
  have hlt : 0x2000 ≤ ENC_PT_CFG p ∧ ENC_PT_CFG p < 0x2080 := by simp only [ENC_PT_CFG]; omega
  have hd' : bitsDiffer old (rd s (ENC_PT_CFG p)) 1 0 = true := decide_eq_true hd
  rw [encWrite, if_neg (by simp [hmod]), if_neg (by simp [inRange]; omega), if_neg (by simp only [ENC_PT_CFG, SNS_IMU_XFER]; omega), encEffect]
  simp only [if_pos hlt, hdiv, hmod, hd', if_true]

theorem hostField_portMode (hs : serves s h) (how : ownerOrService s h = true) (hp : p < 8) (hm : m < 4) (hz : getF s (ENC_PT_CFG_ZMODE p) ≠ 3)
    (hq : bitsOf (rd s (ENC_PT_CFG p)) 20 16 ≤ 24) (hne : getF s (ENC_PT_CFG_MODE p) ≠ m) (hok : m ≠ 0 ∧ portState s p = esOff ∨ m = 0 ∧ portUsed s p = false)
    (hstart : startsNow s h (putField (ENC_PT_CFG_MODE p) m)) :
    hostField s h (ENC_PT_CFG_MODE p) m = settled s h (portMode (setF (ahead s) (ENC_PT_CFG_MODE p) m) p) := by
  have hf := portMode_field hp
  have hi : 0x2000 ≤ ENC_PT_CFG p ∧ ENC_PT_CFG p < 0x2200 := by simp only [ENC_PT_CFG]; omega
  have hnew : getF (setF (ahead s) (ENC_PT_CFG_MODE p) m) (ENC_PT_CFG_MODE p) = m := (getF_setF _ _ _ ⟨by simp, by simp⟩).trans (Nat.mod_eq_of_lt hm)
  have := hostItems_field (n := m) hf hs hstart ((mayWrite_enc hi.1 hi.2).trans how) (storeValue_enc hi.1 hi.2) (by
    rw [stateRule_enc hi.1 hi.2, presentedField_noAct (by decide)]
    exact (encCheck_port hp (by decide : 0 < 16) _ _).trans (portCheck_mode (s := ahead s) hm hz hq hok))
  rw [hostField, ← putField, this, writeEffect_enc hi.1 hi.2, fieldStored_noWo rfl, encWrite_portMode hp _ _ (by rw [hnew]; exact hne), scrub_noWo _ hf.1 rfl]

/-- The reads and the counts of a port start anew at boundary `b`. -/
def restarted (s : State) (p b : Nat) : State :=
  modCnt (modSer (setB (setB s (ENC_PT_STAT_FALLBK p) false) (ENC_PT_STAT_QFLT p) false) p fun x =>
    { x with ta := b, n := 0, reading := none, fails := 0, back := false, ret := none, zDone := false, word := none }) p fun c =>
      { c with ill := 0, illWin := b }

theorem serAt_restarted (s : State) (p b : Nat) : serAt (restarted s p b) p =
    { serAt s p with ta := b, n := 0, reading := none, fails := 0, back := false, ret := none, zDone := false, word := none } :=
  (serAt_modCnt ..).trans (serAt_modSer ..)

theorem getF_restarted (s : State) (p b : Nat) {g : Field} (hg : g.reg ≠ ENC_PT_STAT p) : getF (restarted s p b) g = getF s g :=
  (getF_wr_apart hg _).trans (getF_wr_apart hg _)

theorem portMode_eq (s : State) (p : Nat) : portMode s p =
    if getF s (ENC_PT_CFG_MODE p) = 0 then
      setUnitState (setB (restarted s p (nowTick s + slotsPerStep)) (ENC_PT_ANG_ANGV p) false) p esOff (nowTick s + slotsPerStep)
    else followCount (setUnitState (restarted s p (nowTick s + slotsPerStep)) p (if getF s (ENC_PT_CFG_MODE p) = 3 then esQuad else esSerial)
      (nowTick s + slotsPerStep)) p (nowTick s + slotsPerStep) := rfl

/-- A port that is turned off. -/
theorem portMode_off (hp : p < 8) (hm : getF s (ENC_PT_CFG_MODE p) = 0) : getF (portMode s p) (ENC_PT_CFG_MODE p) = 0 ∧
    portState (portMode s p) p = esOff ∧ flag (portMode s p) (ENC_PT_ANG_ANGV p) = false := by
  rw [portMode_eq, if_pos hm]
  generalize nowTick s + slotsPerStep = b
  refine ⟨?_, portState_setUnitState hp (by decide), ?_⟩
  · rw [getF_setUnitState hp (by grind) (by grind), getF_setB_apart (by grind), getF_restarted _ _ _ (by grind), hm]
  · rw [flag_setUnitState hp (by grind) (by grind)]
    exact flag_setB _ _ _ ⟨by simp, by simp⟩

/-- A port that is turned on: its reads start anew, and its state is that of the mode. -/
theorem portMode_on (hp : p < 8) (hm : getF s (ENC_PT_CFG_MODE p) ≠ 0) : getF (portMode s p) (ENC_PT_CFG_MODE p) = getF s (ENC_PT_CFG_MODE p) ∧
    portState (portMode s p) p = (if getF s (ENC_PT_CFG_MODE p) = 3 then esQuad else esSerial) ∧ (serAt (portMode s p) p).fails = 0 ∧
    (serAt (portMode s p) p).n = 0 ∧ (serAt (portMode s p) p).ta = nowTick s + slotsPerStep := by
  rw [portMode_eq, if_neg hm]
  generalize nowTick s + slotsPerStep = b
  obtain ⟨x, hfol⟩ := serAt_followCount (setUnitState (restarted s p b) p (if getF s (ENC_PT_CFG_MODE p) = 3 then esQuad else esSerial) b) p b
  rw [hfol, serAt_setUnitState, serAt_restarted]
  refine ⟨?_, ?_, rfl, rfl, rfl⟩
  · rw [getF_followCount _ _ _ (by grind), getF_setUnitState hp (by grind) (by grind), getF_restarted _ _ _ (by grind)]
  · exact (getF_followCount _ _ _ (by grind)).trans (portState_setUnitState hp (by split <;> decide))

theorem keeps_portMode (s : State) (p m : Nat) : Keeps (· ∈ [Part.regs, .sys, .enc]) (ahead s) (portMode (setF (ahead s) (ENC_PT_CFG_MODE p) m) p) :=
  portMode_keeps _ _ (allows_of_subset (by decide)) (setF_keeps _ _ _ (allows_of_subset (by decide)) (Keeps.refl ..))

theorem portMode_shown (hs : serves s h) (how : ownerOrService s h = true) (hp : p < 8) (hasg : regAssigned (ENC_PT_CFG p) = true) (hm : m < 4)
    (hz : getF s (ENC_PT_CFG_ZMODE p) ≠ 3) (hq : bitsOf (rd s (ENC_PT_CFG p)) 20 16 ≤ 24) (hne : getF s (ENC_PT_CFG_MODE p) ≠ m)
    (hm0 : m ≠ 0) (hoff : portState s p = esOff) (hstart : startsNow s h (putField (ENC_PT_CFG_MODE p) m)) : answers (.portModeWrite h p m) s (fun t =>
    getF t (ENC_PT_CFG_MODE p) = m ∧ portState t p = (if m = 3 then esQuad else esSerial) ∧ (serAt t p).fails = 0 ∧ (serAt t p).n = 0 ∧
    (serAt t p).ta = nowTick s + slotsPerStep ∧ wroteBut s t h [.regs, .sys, .enc]) := by
  refine answers_of_answer rfl (by simp [hs.1, hp, hm, hasg]) ?_
  have hnew : getF (setF (ahead s) (ENC_PT_CFG_MODE p) m) (ENC_PT_CFG_MODE p) = m := (getF_setF _ _ _ ⟨by simp, by simp⟩).trans (Nat.mod_eq_of_lt hm)
  rw [hostField_portMode hs how hp hm hz hq hne (Or.inl ⟨hm0, hoff⟩) hstart]
  obtain ⟨hmode, hst, hfails, hn, hta⟩ := portMode_on (s := setF (ahead s) (ENC_PT_CFG_MODE p) m) hp (by rw [hnew]; exact hm0)
  rw [hnew] at hmode hst
  exact ⟨hmode, hst, hfails, hn, hta, wroteBut_settled (keeps_portMode ..) (by decide) (by decide)⟩

theorem portOff_shown (hs : serves s h) (how : ownerOrService s h = true) (hp : p < 8) (hasg : regAssigned (ENC_PT_CFG p) = true)
    (hz : getF s (ENC_PT_CFG_ZMODE p) ≠ 3) (hq : bitsOf (rd s (ENC_PT_CFG p)) 20 16 ≤ 24) (hne : getF s (ENC_PT_CFG_MODE p) ≠ 0)
    (hun : portUsed s p = false) (hstart : startsNow s h (putField (ENC_PT_CFG_MODE p) 0)) : answers (.portModeWrite h p 0) s (fun t =>
    getF t (ENC_PT_CFG_MODE p) = 0 ∧ portState t p = esOff ∧ flag t (ENC_PT_ANG_ANGV p) = false ∧ wroteBut s t h [.regs, .sys, .enc]) := by
  refine answers_of_answer rfl (by simp [hs.1, hp, hasg]) ?_
  have hnew : getF (setF (ahead s) (ENC_PT_CFG_MODE p) 0) (ENC_PT_CFG_MODE p) = 0 := getF_setF _ _ _ ⟨by simp, by simp⟩
  rw [hostField_portMode hs how hp (by decide) hz hq hne (Or.inr ⟨rfl, hun⟩) hstart]
  obtain ⟨hmode, hst, hangv⟩ := portMode_off hp hnew
  exact ⟨hmode, hst, hangv, wroteBut_settled (keeps_portMode ..) (by decide) (by decide)⟩

end Modes

/-! ### Faults that a host clears (R281, R284) -/

section Faults

variable {s : State} {h p : Nat}

/-- The row of ENC_PT_FLT in the register index. -/
def portFltRow : RegRow :=
  ⟨0x200D, 8, 16, 1, 1, 0x00000000#32, 0x00000000#32, 0x0000000F#32, 0x00000000#32, 0x00000000#32, 0x00000000#32⟩

/-- What a write of ones presents to ENC_PT_FLT. -/
def clearWord (s : State) (p : Nat) : Word := presented portFltRow (rd s (ENC_PT_FLT p)) 0xF#32 (BitVec.ofNat 32 15)

theorem testBit_clearWord (s : State) (p : Nat) {j : Nat} (hj : j < 4) : (clearWord s p).toNat.testBit j = true := by
  rw [BitVec.testBit_toNat]
  interval_cases j <;> simp [clearWord, presented, portFltRow]

theorem hostItems_portFault (hs : serves s h) (how : ownerOrService s h = true) (hp : p < 8)
    (hstart : startsNow s h [item (ENC_PT_FLT p) 0xF#32 (BitVec.ofNat 32 15)]) :
    hostItems s h [item (ENC_PT_FLT p) 0xF#32 (BitVec.ofNat 32 15)] = (settled s h (portFltClear (ahead s) p (clearWord s p).toNat), true) := by
  have hall : ∀ p < 8, regRow (ENC_PT_FLT p) = some portFltRow ∧ seenAsStored (ENC_PT_FLT p) = true ∧ isSelector (ENC_PT_FLT p) = false ∧
    ringWin (ENC_PT_FLT p) = none ∧ gnsWaits (ENC_PT_FLT p) = false ∧ clearsItself (ENC_PT_FLT p) = true ∧
    isTripClear (item (ENC_PT_FLT p) 0xF#32 (BitVec.ofNat 32 15)) = false := by decide
  obtain ⟨hrow, hseen, hsel, hring, hgns, hself, htrip⟩ := hall p hp
  have htouch : (item (ENC_PT_FLT p) 0xF#32 (BitVec.ofNat 32 15)).mask &&& writable portFltRow ≠ 0 := by
    show (0xF#32 &&& writable portFltRow : Word) ≠ 0
    decide
  have hi : 0x2000 ≤ ENC_PT_FLT p ∧ ENC_PT_FLT p < 0x2200 := by simp only [ENC_PT_FLT]; omega
  have hword : itemWord (ahead s) h (item (ENC_PT_FLT p) 0xF#32 (BitVec.ofNat 32 15)) = clearWord s p := itemWord_seen _ h hrow hseen
  have hval : storeValue (ahead s) h (ENC_PT_FLT p) (itemWord (ahead s) h (item (ENC_PT_FLT p) 0xF#32 (BitVec.ofNat 32 15))) = some (clearWord s p) := by
    rw [hword, storeValue_enc hi.1 hi.2]
  have hc : checkItem (ahead s) h (item (ENC_PT_FLT p) 0xF#32 (BitVec.ofNat 32 15)) = stOk := by
    refine checkItem_ok hrow htouch rfl ((mayWrite_enc hi.1 hi.2).trans how) hval ((stateRule_enc hi.1 hi.2).trans ?_)
    exact (encCheck_port hp (by decide : 13 < 16) _ _).trans rfl
  have hdiv : (ENC_PT_FLT p - 0x2000) / 16 = p := by simp only [ENC_PT_FLT]; omega
  have hmod : ENC_PT_FLT p % 16 = 13 := by simp only [ENC_PT_FLT]; omega
  rw [hostItems_one hs hstart htrip hc, takeItem_eq hrow htouch hval]
  rw [show (item (ENC_PT_FLT p) 0xF#32 (BitVec.ofNat 32 15)).idx = ENC_PT_FLT p from rfl, scrub_noWo _ hrow rfl, writeEffect_enc hi.1 hi.2,
    storeItem_clearsItself _ h _ hsel hring (by simp only [ENC_PT_FLT, ACT_CH_ALM]; omega) (by simp only [ENC_PT_FLT, GNS_SLOT_CFG]; omega) hgns hself,
    encWrite, if_pos (by simp [inRange, hmod, hi.1]; omega), hdiv]

/-- The flags SERR and ILL that are set are cleared. -/
def conditionsCleared (s : State) (p : Nat) : State :=
  let u := if flag s (ENC_PT_FLT_SERR p) then setB s (ENC_PT_FLT_SERR p) false else s
  if flag s (ENC_PT_FLT_ILL p) then setB (setB u (ENC_PT_FLT_ILL p) false) (ENC_PT_STAT_QFLT p) false else u

/-- All four flags of a port are cleared. -/
def faultsCleared (s : State) (p : Nat) : State := setB (setB (conditionsCleared s p) (ENC_PT_FLT_NERR p) false) (ENC_PT_FLT_NWARN p) false

theorem serr_conditionsCleared (s : State) (p : Nat) : flag (conditionsCleared s p) (ENC_PT_FLT_SERR p) = false := by
  unfold conditionsCleared
  extract_lets u
  have hu : flag u (ENC_PT_FLT_SERR p) = false := by
    dsimp only [u]
    split
    · exact flag_setB _ _ _ ⟨by simp, by simp⟩
    · simpa using ‹¬flag s (ENC_PT_FLT_SERR p) = true›
  split
  · rw [flag_setB_apart (by grind), flag_setB_apart (by grind), hu]
  · exact hu

theorem ill_conditionsCleared (s : State) (p : Nat) : flag (conditionsCleared s p) (ENC_PT_FLT_ILL p) = false := by
  unfold conditionsCleared
  extract_lets u
  split
  case isTrue =>
    rw [flag_setB_apart (by grind)]
    exact flag_setB _ _ _ ⟨by simp, by simp⟩
  case isFalse hno =>
    have hu : flag u (ENC_PT_FLT_ILL p) = flag s (ENC_PT_FLT_ILL p) := by
      dsimp only [u]
      split
      · exact flag_setB_apart (by grind) _
      · rfl
    rw [hu]
    simpa using hno

/-- What the clearing of the flags does not concern. -/
theorem getF_conditionsCleared {g : Field} (hflt : g.reg ≠ ENC_PT_FLT p) (hq : Apart (ENC_PT_STAT_QFLT p) g) : getF (conditionsCleared s p) g = getF s g := by
  unfold conditionsCleared
  extract_lets u
  have hu : getF u g = getF s g := by
    dsimp only [u]
    split
    · exact getF_wr_apart hflt _
    · rfl
  split
  · rw [getF_setB_apart hq]
    exact (getF_wr_apart hflt _).trans hu
  · exact hu

theorem getF_faultsCleared {g : Field} (hflt : g.reg ≠ ENC_PT_FLT p) (hq : Apart (ENC_PT_STAT_QFLT p) g) : getF (faultsCleared s p) g = getF s g :=
  ((getF_wr_apart hflt _).trans (getF_wr_apart hflt _)).trans (getF_conditionsCleared hflt hq)

theorem faultFlags_faultsCleared (s : State) (p : Nat) : flag (faultsCleared s p) (ENC_PT_FLT_SERR p) = false ∧ flag (faultsCleared s p) (ENC_PT_FLT_ILL p) = false ∧
    flag (faultsCleared s p) (ENC_PT_FLT_NERR p) = false ∧ flag (faultsCleared s p) (ENC_PT_FLT_NWARN p) = false := by
  unfold faultsCleared
  refine ⟨?_, ?_, ?_, flag_setB _ _ _ ⟨by simp, by simp⟩⟩
  · rw [flag_setB_apart (by grind), flag_setB_apart (by grind), serr_conditionsCleared]
  · rw [flag_setB_apart (by grind), flag_setB_apart (by grind), ill_conditionsCleared]
  · rw [flag_setB_apart (by grind)]
    exact flag_setB _ _ _ ⟨by simp, by simp⟩

/-- A faulted port before its state changes. -/
def readyToRun (s : State) (p : Nat) : State :=
  setB (setB (modSer (faultsCleared s p) p fun x => { x with zDone := false }) (ENC_PT_STAT_REFD p) false) (ENC_PT_STAT_FALLBK p) false

theorem getF_readyToRun {g : Field} (hst : g.reg ≠ ENC_PT_STAT p) : getF (readyToRun s p) g = getF (faultsCleared s p) g :=
  (getF_wr_apart hst _).trans ((getF_wr_apart hst _).trans (getF_modSer ..))

/-- A faulted port whose conditions are gone is released to its mode's state. -/
theorem portFltClear_released {v : Nat} (hv : ∀ j < 4, v.testBit j = true) (hst : portState s p = esFault) (hserr : serrHere s p = false)
    (hill : illHere s p = false) (hflag : (flag s (ENC_PT_FLT_SERR p) || flag s (ENC_PT_FLT_ILL p)) = true) : ∃ b, portFltClear s p v =
    followCount (setUnitState (readyToRun s p) p (if serialMode s p then esSerial else esQuad) b) p b := by
  obtain ⟨hs0, hi0, -, -⟩ := faultFlags_faultsCleared s p
  have hstate : portState (faultsCleared s p) p = esFault := (getF_faultsCleared (by grind) (by grind)).trans hst
  have hmode : serialMode (readyToRun s p) p = serialMode s p := by
    rw [serialMode, getF_readyToRun (by grind), getF_faultsCleared (by grind) (by grind), serialMode]
  refine ⟨nowTick (faultsCleared s p) + slotsPerStep, ?_⟩
  unfold portFltClear
  extract_lets serr ill s₁ s₂ s₃ s₄
  have hserr' : serr = flag s (ENC_PT_FLT_SERR p) := by simp [serr, hv 0, hserr]
  have hill' : ill = flag s (ENC_PT_FLT_ILL p) := by simp [ill, hv 1, hill]
  have hcleared : s₄ = faultsCleared s p := by
    simp only [s₄, s₃, s₂, s₁, hserr', hill', hv 2 (by decide), hv 3 (by decide), if_true]
    rfl
  clear_value s₄
  subst hcleared
  rw [if_pos hstate, hserr', hill', hs0, hi0, hflag, if_pos (show (true && !false && !false) = true from rfl), ← hmode]
  exact rfl

theorem rd_flags_followed {b st : Nat} (hp : p < 8) (s : State) :
    rd (followCount (setUnitState (readyToRun s p) p st b) p b) (ENC_PT_FLT p) = rd (faultsCleared s p) (ENC_PT_FLT p) := by
  rw [regsBut_followCount _ _ _ _ (by grind), regsBut_setUnitState (by omega) _ _ _ _ (by rw [unitRegs_port hp]; grind), readyToRun, rd_setB_ne _ _ _ _ (by grind),
    rd_setB_ne _ _ _ _ (by grind)]
  exact rd_of_regs (by simp only [modSer]) _

theorem flag_readyToRun_stat {b st : Nat} (hp : p < 8) {g : Field} (hst : Apart (ENC_PT_STAT_STATE p) g) (hreg : g.reg = ENC_PT_STAT p) :
    flag (followCount (setUnitState (readyToRun s p) p st b) p b) g = flag (readyToRun s p) g := by
  rw [flag_followCount _ _ _ (by rw [hreg]; grind), flag_setUnitState hp hst (by rw [hreg]; grind)]

theorem noFault_and {w : Word} (h : ∀ j < 4, w.getLsbD j = false) : w &&& 15#32 = 0 := by
  ext j hj
  by_cases h4 : j < 4
  · have := h j h4
    rw [BitVec.getLsbD_eq_getElem hj] at this
    simp [this]
  · have : (15#32).getLsbD j = false := by
      revert h4
      revert j
      decide
    rw [BitVec.getLsbD_eq_getElem hj] at this
    simp [this]

theorem portFault_shown (hs : serves s h) (how : ownerOrService s h = true) (hp : p < 8) (hasg : regAssigned (ENC_PT_FLT p) = true)
    (hst : portState s p = esFault) (hserr : serrHere s p = false) (hill : illHere s p = false)
    (hflag : (flag s (ENC_PT_FLT_SERR p) || flag s (ENC_PT_FLT_ILL p)) = true) (hstart : startsNow s h [item (ENC_PT_FLT p) 0xF#32 (BitVec.ofNat 32 15)]) :
    answers (.portFaultClear h p 15) s (fun t => portState t p = (if serialMode s p then esSerial else esQuad) ∧ rd t (ENC_PT_FLT p) &&& 15#32 = 0 ∧
      flag t (ENC_PT_STAT_REFD p) = false ∧ flag t (ENC_PT_STAT_FALLBK p) = false ∧ wroteBut s t h [.regs, .sys, .enc]) := by
  refine answers_of_answer rfl (by simp [hs.1, hp, hasg]) ?_
  have hkeeps : Keeps (· ∈ [Part.regs, .sys, .enc]) (ahead s) (portFltClear (ahead s) p (clearWord s p).toNat) :=
    portFltClear_keeps _ _ _ (allows_of_subset (by decide)) (Keeps.refl ..)
  obtain ⟨b, heq⟩ := portFltClear_released (s := ahead s) (v := (clearWord s p).toNat) (fun j hj => testBit_clearWord s p hj) hst hserr hill hflag
  obtain ⟨hs0, hi0, hn0, hw0⟩ := faultFlags_faultsCleared (ahead s) p
  rw [hostItems_portFault hs how hp hstart]
  rw [heq] at hkeeps ⊢
  refine ⟨?_, noFault_and fun j hj => ?_, ?_, ?_, wroteBut_settled hkeeps (by decide) (by decide)⟩
  · exact (getF_followCount _ _ _ (by grind)).trans (portState_setUnitState hp (by split <;> decide))
  · rw [rd_settled, rd_flags_followed hp]
    rw [flag_bit] at hs0 hi0 hn0 hw0
    interval_cases j
    · exact hs0
    · exact hi0
    · exact hn0
    · exact hw0
  · rw [flag_settled, flag_readyToRun_stat hp (by grind) rfl, readyToRun, flag_setB_apart (by grind)]
    exact flag_setB _ _ _ ⟨by simp, by simp⟩
  · rw [flag_settled, flag_readyToRun_stat hp (by grind) rfl]
    exact flag_setB _ _ _ ⟨by simp, by simp⟩

end Faults

/-- Settles O32: the reads, the failures up to ERR_MAX, the modes and the release of a fault, each with its effect written out. -/
theorem serialEncoders : Obligations.SerialEncoders := by
  unfold Obligations.SerialEncoders
  refine ⟨fun s p => serialReadStart_shown, fun s p i w hp hread hmode hserial => ⟨serialRead_shown hp hread hmode hserial, serialFailure_shown hp hread hmode hserial⟩,
    fun s h p m hs how hp hasg hm hz hq hne => ⟨portMode_shown hs how hp hasg hm hz hq hne, ?_⟩,
    fun s h p hs how hp hasg => portFault_shown hs how hp hasg⟩
  rintro rfl
  exact portOff_shown hs how hp hasg hz hq hne

end Sys2Proof.SerialPorts

namespace Sys2Proof.HostWrites

open Sys2Proof Sys2Proof.Machine Sys2Proof.Frame

/-! ### The word that a write under a mask leaves, bit by bit (R7) -/

section Taken

variable {r : RegRow} {old m val : Word}

/-- The word that a write under a mask stores, before the bits that act are dropped. -/
def takenWord (r : RegRow) (old m val : Word) : Word := merged r old m (val &&& (m &&& (r.rw ||| r.wo)))

/-- A bit that is written is that of the value; one that acts and is not written is 0; every other stands. -/
theorem getLsbD_takenWord (hr : PlainRow r) {j : Nat} (hj : j < 32) : (takenWord r old m val).getLsbD j =
    if m.getLsbD j && (r.rw.getLsbD j || r.wo.getLsbD j) then val.getLsbD j else if r.wo.getLsbD j then false else old.getLsbD j := by
  obtain ⟨-, -, hd⟩ := hr
  have hd := congrArg (·.getLsbD j) hd
  simp only [BitVec.getLsbD_and] at hd
  simp only [takenWord, merged, BitVec.getLsbD_or, BitVec.getLsbD_and, BitVec.getLsbD_not, hj, decide_true, Bool.true_and]
  revert hd
  cases m.getLsbD j <;> cases r.rw.getLsbD j <;> cases r.wo.getLsbD j <;> simp

/-- A field that is written. -/
theorem bitsOf_takenWord (hr : PlainRow r) {hi lo : Nat} (hin : ∀ j < hi - lo + 1, lo + j < 32 ∧ (m &&& (r.rw ||| r.wo)).getLsbD (lo + j) = true) :
    bitsOf (takenWord r old m val) hi lo = bitsOf val hi lo := by
  refine Nat.eq_of_testBit_eq fun j => ?_
  rw [testBit_bitsOf, testBit_bitsOf]
  by_cases hj : j < hi - lo + 1
  · obtain ⟨hlt, hm⟩ := hin j hj
    rw [BitVec.getLsbD_and, BitVec.getLsbD_or] at hm
    rw [getLsbD_takenWord hr hlt, hm, if_pos rfl]
  · simp [hj]

/-- A field that is not written, and whose bits do not act. -/
theorem bitsOf_takenWord_out (hr : PlainRow r) {hi lo : Nat} (hout : ∀ j < hi - lo + 1, lo + j < 32 ∧ (r.wo ||| (m &&& r.rw)).getLsbD (lo + j) = false) :
    bitsOf (takenWord r old m val) hi lo = bitsOf old hi lo := by
  refine Nat.eq_of_testBit_eq fun j => ?_
  rw [testBit_bitsOf, testBit_bitsOf]
  by_cases hj : j < hi - lo + 1
  · obtain ⟨hlt, hc⟩ := hout j hj
    rw [BitVec.getLsbD_or, BitVec.getLsbD_and, Bool.or_eq_false_iff] at hc
    obtain ⟨hwo, hrw⟩ := hc
    rw [getLsbD_takenWord hr hlt, hwo, Bool.or_false, hrw]
    simp
  · simp [hj]

/-- Bits that act and are not written. -/
theorem bitsOf_takenWord_idle (hr : PlainRow r) {hi lo : Nat} (hout : ∀ j < hi - lo + 1, lo + j < 32 ∧ r.wo.getLsbD (lo + j) = true ∧ m.getLsbD (lo + j) = false) :
    bitsOf (takenWord r old m val) hi lo = 0 := by
  refine Nat.eq_of_testBit_eq fun j => ?_
  rw [testBit_bitsOf, Nat.zero_testBit]
  by_cases hj : j < hi - lo + 1
  · obtain ⟨hlt, hwo, hm⟩ := hout j hj
    simp [getLsbD_takenWord hr hlt, hwo, hm]
  · simp [hj]

theorem bitsOf_ofNat {n : Nat} (hn : n < 2 ^ 32) (hi lo : Nat) : bitsOf (BitVec.ofNat 32 n) hi lo = n / 2 ^ lo % 2 ^ (hi - lo + 1) := by
  rw [bitsOf, BitVec.toNat_ofNat, Nat.mod_eq_of_lt hn]

/-- Bits that are not writable make no difference to what is presented. -/
theorem presented_writable (hr : PlainRow r) : presented r old m (val &&& (m &&& (r.rw ||| r.wo))) = presented r old m val := by
  obtain ⟨hw1c, hw1s, -⟩ := hr
  ext j hj
  simp only [presented, hw1c, hw1s, BitVec.getElem_or, BitVec.getElem_and, BitVec.getElem_not]
  cases m[j] <;> cases val[j] <;> cases r.rw[j] <;> cases r.wo[j] <;> simp

/-- A write under a mask that is accepted. -/
theorem hostItems_taken_word {s : State} {h i : Nat} (hi : MaskOk i r m) (hs : serves s h) (hstart : startsNow s h [item i m val])
    (hmay : mayWrite (ahead s) h i m (takenWord r (rd s i) m val) = true)
    (hstore : storeValue (ahead s) h i (takenWord r (rd s i) m val) = some (takenWord r (rd s i) m val))
    (hrule : stateRule (ahead s) h i m (rd s i) (takenWord r (rd s i) m val) = .ok) :
    hostItems s h [item i m val] = (settled s h (scrub
      (writeEffect (ahead s) (ahead s) (wr (ahead s) i (takenWord r (rd s i) m val)) h i (rd s i) (takenWord r (rd s i) m val)) i), true) := by
  obtain ⟨hrow, hplain, htouch, hseen, hstored, htrip⟩ := hi
  have hval : (val &&& (m &&& (r.rw ||| r.wo))) &&& (m &&& (r.rw ||| r.wo)) = val &&& (m &&& (r.rw ||| r.wo)) := by
    rw [BitVec.and_assoc, BitVec.and_self]
  have hp : presented r (rd s i) m val = takenWord r (rd s i) m val := by
    rw [← presented_writable hplain, takenWord]
    exact presented_merged hplain hval
  have := hostItems_byRow (w := item i m val) (r := r) (v := takenWord r (rd s i) m val) hs hstart htrip hrow htouch rfl hseen hstored
    (by show mayWrite (ahead s) h i m (presented r (rd s i) m val) = true; rw [hp]; exact hmay)
    (by show storeValue (ahead s) h i (presented r (rd s i) m val) = _; rw [hp]; exact hstore) hrule
  rw [show (item i m val).idx = i from rfl, takenWord, committed_merged hplain hval] at this
  exact this

end Taken

/-! ### Bits that act are dropped -/

section Scrub

variable {s : State} {i : Nat} {r : RegRow}

theorem scrub_acting (hrow : regRow i = some r) (hwo : r.wo ≠ 0) (s : State) : scrub s i = wr s i (rd s i &&& ~~~ r.wo) := by
  rw [scrub, hrow]
  exact if_neg hwo

/-- A field of the register whose bits do not act. -/
theorem getF_scrub (hrow : regRow i = some r) {hi lo : Nat} (hout : ∀ j < hi - lo + 1, r.wo.getLsbD (lo + j) = false ∧ lo + j < 32) :
    getF (scrub s i) ⟨i, hi, lo⟩ = getF s ⟨i, hi, lo⟩ := by
  rcases scrub_row s hrow with h | h
  · rw [h, getF, rd_wr_self]
    exact bitsOf_scrubbed hout
  · rw [h]

theorem rd_scrub_ne (s : State) {j : Nat} (h : j ≠ i) : rd (scrub s i) j = rd s j := by
  unfold scrub
  split
  · split
    · rfl
    · exact rd_wr_ne _ _ _ _ h
  · rfl

theorem regsBut_scrub {t : State} {l : List Nat} (h : regsBut s t l) (hi : i ∈ l) : regsBut s (scrub t i) l := fun j hj =>
  (rd_scrub_ne t (by rintro rfl; exact hj hi)).trans (h j hj)

theorem scrub_same (s : State) (i : Nat) {p : Part} (hp : p ≠ .regs) : samePart s (scrub s i) p :=
  (scrub_keeps (R := (· ∈ [Part.regs])) s i (allows_of_subset (by decide)) (Keeps.refl ..)).same p (by simpa using hp)

end Scrub

end Sys2Proof.HostWrites

namespace Sys2Proof.LoopWrites

open Sys2Proof Sys2Proof.Machine Sys2Proof.Frame Sys2Proof.HostWrites Sys2Proof.Loops

/-! ### Modes (R250, R252) -/

section Modes

variable {s : State} {h n m : Nat}

/-- The row of CLE_LP_CTRL in the register index. -/
def loopCtrlRow : RegRow :=
  ⟨0x1800, 16, 48, 1, 1, 0x00000094#32, 0x00000FFF#32, 0x00000000#32, 0x00000000#32, 0x00000000#32, 0x00000000#32⟩

theorem loopMode_field (hn : n < 16) : FieldOk (CLE_LP_CTRL_MODE n) loopCtrlRow := by
  revert n
  decide

theorem cleCheck_mode (hn : n < 16) (hm : m < 3) (hcheck : modeCheck s h n m = .ok) :
    cleCheck (ahead s) h (CLE_LP_CTRL n) (bitsSet (rd s (CLE_LP_CTRL n)) 1 0 m) = .ok := by
  have hdiv : (CLE_LP_CTRL n - 0x1800) / 48 = n := by simp only [CLE_LP_CTRL]; omega
  have hmod : (CLE_LP_CTRL n - 0x1800) % 48 = 0 := by simp only [CLE_LP_CTRL]; omega
  rw [cleCheck, if_pos (by simp only [CLE_LP_CTRL]; omega), hdiv, hmod]
  show modeCheck (ahead s) h n (bitsOf (bitsSet _ 1 0 m) 1 0) = .ok
  rw [bitsOf_bitsSet _ _ _ _ (by decide) (by decide), Nat.mod_eq_of_lt (by omega)]
  exact hcheck

theorem cleEffect_mode (hn : n < 16) (old v : Word) : cleEffect s (CLE_LP_CTRL n) old v = s := by
  have hmod : (CLE_LP_CTRL n - 0x1800) % 48 = 0 := by simp only [CLE_LP_CTRL]; omega
  rw [cleEffect]
  simp only [hmod]
  rw [if_pos (by simp only [CLE_LP_CTRL]; omega)]
  rfl

theorem loopModeWrite_shown (hs : serves s h) (hn : n < 16) (hm : m < 3) (hholds : holds s h kLoop n = true) (hcheck : modeCheck s h n m = .ok)
    (hstart : startsNow s h (putField (CLE_LP_CTRL_MODE n) m)) : answers (.loopModeWrite h n m) s (fun t =>
    getF t (CLE_LP_CTRL_MODE n) = m ∧ regsBut s t [CLE_LP_CTRL n] ∧ wroteBut s t h [.regs, .sys]) := by
  have hf := loopMode_field hn
  have hi : 0x1800 ≤ CLE_LP_CTRL n ∧ CLE_LP_CTRL n < 0x1B00 := by simp only [CLE_LP_CTRL]; omega
  have hdiv : (CLE_LP_CTRL n - 0x1800) / 48 = n := by simp only [CLE_LP_CTRL]; omega
  have heq : hostItems s h (putField (CLE_LP_CTRL_MODE n) m) = (settled s h (setF (ahead s) (CLE_LP_CTRL_MODE n) m), true) := by
    rw [hostItems_field (n := m) hf hs hstart]
    · rw [writeEffect_cle hi.1 (by omega), cleEffect_mode hn, SerialPorts.fieldStored_noWo rfl, scrub_noWo _ hf.1 rfl]
    · rw [mayWrite_cle hi.1 (by omega), mayWriteCle, if_pos hi.2, hdiv]
      exact hholds
    · rw [storeValue_cle hi.1 (by omega), cleStore, if_neg (by simp only [CLE_LP_CTRL]; omega)]
    · rw [stateRule_cle hi.1 (by omega), SerialPorts.presentedField_noAct (by decide)]
      exact cleCheck_mode hn hm hcheck
  refine answers_of_answer rfl (by simp [hs.1, hn]; omega) ?_
  rw [hostField, ← putField, heq]
  refine ⟨?_, regsBut_settled (regsBut_setF (regsBut_of_regs rfl _) (by simp) _),
    wroteBut_settled (setF_keeps _ _ _ (allows_of_subset (by decide)) (Keeps.refl ..)) (by decide) (by decide)⟩
  exact (getF_setF _ _ _ ⟨by simp, by simp⟩).trans (Nat.mod_eq_of_lt (by simp; omega))

end Modes

/-! ### The engine's enable (R243, R253) -/

section Enable

variable {s : State} {h n : Nat}

/-- The row of CLE_CTRL in the register index. -/
def engineRow : RegRow :=
  ⟨0x1B00, 1, 1, 1, 1, 0x00000000#32, 0x00000001#32, 0x00000000#32, 0x00000000#32, 0x00000000#32, 0x00000000#32⟩

theorem engine_field : FieldOk CLE_CTRL_EN engineRow := by decide

/-- The state with the engine's enable stored, before it comes into force. -/
def enableStored (s : State) (b : Bool) : State := setB (ahead s) CLE_CTRL_EN b

theorem cleEnable_changed {b : Bool} (hb : flag s CLE_CTRL_EN ≠ b) (v : Word) :
    cleEffect (enableStored s b) CLE_CTRL (rd s CLE_CTRL) v = cleEnable (enableStored s b) := by
  have hne : rd s CLE_CTRL ≠ rd (enableStored s b) CLE_CTRL := fun heq => hb <| by
    rw [← flag_setB (ahead s) CLE_CTRL_EN b ⟨by decide, by decide⟩]
    exact flag_congr heq
  rw [cleEffect, if_neg (by decide), if_pos rfl, if_neg hne]

theorem hostFlag_engine {b : Bool} (hs : serves s h) (how : ownerOrService s h = true) (hb : flag s CLE_CTRL_EN ≠ b)
    (hstart : startsNow s h (putFlag CLE_CTRL_EN b)) : hostFlag s h CLE_CTRL_EN b = settled s h (cleEnable (enableStored s b)) := by
  have heq : hostItems s h (putField CLE_CTRL_EN (bit b 0)) = (settled s h (cleEnable (enableStored s b)), true) := by
    rw [hostItems_field (n := bit b 0) engine_field hs hstart]
    · rw [writeEffect_cle (by decide) (by decide), SerialPorts.fieldStored_noWo rfl, show setF (ahead s) CLE_CTRL_EN (bit b 0) = enableStored s b by cases b <;> rfl,
        cleEnable_changed hb, scrub_noWo _ engine_field.1 rfl]
    · rw [mayWrite_cle (by decide) (by decide)]
      exact how
    · rw [storeValue_cle (by decide) (by decide)]
      rfl
    · rw [stateRule_cle (by decide) (by decide)]
      rfl
  rw [hostFlag, hostField, ← putField, heq]

theorem foldl_modLoop_regs (f : Nat → Loop → Loop) (l : List Nat) (s : State) : (l.foldl (fun u n => modLoop u n (f n)) s).regs = s.regs := by
  induction l generalizing s with
  | nil => rfl
  | cons k ks ih => exact (ih (modLoop s k (f k))).trans rfl

theorem loopAt_modLoop_ne (s : State) (f : Loop → Loop) {k : Nat} (hk : k ≠ n) : loopAt (modLoop s n f) k = loopAt s k := sparseGet_mod_ne _ _ _ _ _ hk

/-- What the engine's enable reads of loop `n` stands: its state and the registers named. -/
def SameLoop (s u : State) (n : Nat) : Prop := loopAt u n = loopAt s n ∧ ∀ i ∈ [CLE_LP_CTRL n, CLE_LP_OPH n, CLE_LP_MAN n, CLE_CTRL], rd u i = rd s i

theorem SameLoop.refl (s : State) (n : Nat) : SameLoop s s n := ⟨rfl, fun _ _ => rfl⟩

theorem SameLoop.trans {u v : State} (h : SameLoop s u n) (k : SameLoop u v n) : SameLoop s v n :=
  ⟨k.1.trans h.1, fun i hi => (k.2 i hi).trans (h.2 i hi)⟩

/-- A fold over other loops leaves loop `n` alone where each of its steps does. -/
theorem foldl_others {f : State → Nat → State} (hf : ∀ u k, k < 16 → k ≠ n → SameLoop u (f u k) n) {l : List Nat} (hl : ∀ k ∈ l, k < 16 ∧ k ≠ n)
    (s : State) : SameLoop s (l.foldl f s) n := by
  induction l generalizing s with
  | nil => exact SameLoop.refl s n
  | cons k ks ih =>
    obtain ⟨hk, hne⟩ := hl k List.mem_cons_self
    exact (hf s k hk hne).trans (ih (fun j hj => hl j (List.mem_cons_of_mem _ hj)) (f s k))

/-- A fold over the loops whose every other step leaves loop `n` alone acts on it by the step of `n` alone. -/
theorem foldl_loops {f : State → Nat → State} (hn : n < 16) (hf : ∀ u k, k < 16 → k ≠ n → SameLoop u (f u k) n) (s : State) :
    ∃ u, SameLoop s u n ∧ SameLoop (f u n) (loopsAll.foldl f s) n := by
  have hmem : n ∈ loopsAll := List.mem_range.2 hn
  have hnodup : loopsAll.Nodup := List.nodup_range
  have hlt : ∀ k ∈ loopsAll, k < 16 := fun k hk => List.mem_range.1 hk
  obtain ⟨pre, post, hsplit⟩ := List.append_of_mem hmem
  rw [hsplit] at hnodup hlt ⊢
  obtain ⟨-, hcons, hdisj⟩ := List.nodup_append.1 hnodup
  rw [List.foldl_append, List.foldl_cons]
  exact ⟨pre.foldl f s, foldl_others hf (fun k hk => ⟨hlt k (by simp [hk]), fun h => hdisj k hk n (by simp) h⟩) s,
    foldl_others hf (fun k hk => ⟨hlt k (by simp [hk]), fun h => (List.nodup_cons.1 hcons).1 (h ▸ hk)⟩) _⟩

theorem sameLoop_modLoop {k : Nat} (hk : k ≠ n) (s : State) (f : Loop → Loop) : SameLoop s (modLoop s k f) n :=
  ⟨loopAt_modLoop_ne s f (Ne.symm hk), fun _ _ => rfl⟩

theorem sameLoop_wr {i : Nat} (hi : i ∉ [CLE_LP_CTRL n, CLE_LP_OPH n, CLE_LP_MAN n, CLE_CTRL]) (s : State) (v : Word) : SameLoop s (wr s i v) n :=
  ⟨rfl, fun j hj => rd_wr_ne _ _ _ _ (by rintro rfl; exact hi hj)⟩

/-- The engine comes into force: every loop samples from the coming boundary, and no register moves. -/
theorem cleEnable_on {e : State} (hon : flag e CLE_CTRL_EN = true) : (cleEnable e).regs = e.regs ∧
    ∀ n < 16, loopAt (cleEnable e) n = { loopAt e n with ta := nowTick e + slotsPerStep, k := 0 } := by
  have hcle : cleEnable e = loopsAll.foldl (fun u n => modLoop u n fun x => { x with ta := nowTick e + slotsPerStep, k := 0 }) e := by
    rw [cleEnable, if_pos hon]
  rw [hcle]
  generalize nowTick e + slotsPerStep = b
  refine ⟨foldl_modLoop_regs (fun _ x => { x with ta := b, k := 0 }) loopsAll e, fun n hn => ?_⟩
  obtain ⟨u, hbefore, hafter⟩ := foldl_loops (f := fun u n => modLoop u n fun x => { x with ta := b, k := 0 }) hn
    (fun u k _ hk => sameLoop_modLoop hk u _) e
  rw [hafter.1, loopAt_modLoop_same, hbefore.1]

theorem loopAt_enableStored (s : State) (b : Bool) (n : Nat) : loopAt (enableStored s b) n = loopAt s n := rfl

theorem regsBut_enableStored (s : State) (b : Bool) : regsBut s (enableStored s b) [CLE_CTRL] := regsBut_setB (regsBut_of_regs rfl _) (by simp) _

theorem flag_enableStored (s : State) (b : Bool) : flag (enableStored s b) CLE_CTRL_EN = b := flag_setB _ _ _ ⟨by decide, by decide⟩

theorem keeps_enableStored (s : State) (b : Bool) : Keeps (· ∈ [Part.regs, .sys, .cle]) (ahead s) (cleEnable (enableStored s b)) :=
  cleEnable_keeps _ (allows_of_subset (by decide)) (setB_keeps _ _ _ (allows_of_subset (by decide)) (Keeps.refl ..))

theorem loopAt_settled (s : State) (h : Nat) (t : State) (n : Nat) : loopAt (settled s h t) n = loopAt t n := rfl

theorem engineOn_shown (hs : serves s h) (how : ownerOrService s h = true) (hoff : flag s CLE_CTRL_EN = false)
    (hstart : startsNow s h (putFlag CLE_CTRL_EN true)) : answers (.cleEn h true) s (fun t => flag t CLE_CTRL_EN = true ∧
    (∀ n < 16, (loopAt t n).ta = nowTick s + slotsPerStep ∧ (loopAt t n).k = 0 ∧ (loopAt t n).mode = (loopAt s n).mode) ∧
    regsBut s t [CLE_CTRL] ∧ wroteBut s t h [.regs, .sys, .cle]) := by
  refine answers_of_answer rfl (by simp [hs.1]) ?_
  rw [hostFlag_engine hs how (by simp [hoff]) hstart]
  obtain ⟨hregs, hloop⟩ := cleEnable_on (flag_enableStored s true)
  refine ⟨(flag_of_regs hregs _).trans (flag_enableStored s true), fun n hn => ?_, regsBut_settled (regsBut_put (regsBut_enableStored s true) hregs),
    wroteBut_settled (keeps_enableStored s true) (by decide) (by decide)⟩
  rw [loopAt_settled, hloop n hn]
  exact ⟨rfl, rfl, rfl⟩

/-- A loop that was not OFF when the engine was disabled: it puts out OFF_VAL after OPH. -/
def stopped (u : State) (n b : Nat) : State :=
  let u := forceMode u n 0
  modLoop u n fun x => { x with
    mode := 0, integ := 0, d := 0, satUs := 0, satPrev := false, alarmed := false,
    out := some (b + getF u (CLE_LP_OPH_OPH n), getI u (CLE_LP_MAN_OFF_VAL n)) }

/-- What a loop that stops shows. -/
def stopShown (u : State) (n : Nat) : State :=
  let u := if (u.cle.inj.map (·.loop)) == some n then endInject u else u
  let u := setBitF (setF u (CLE_LP_STAT_MODE n) 0) CLE_STAT_ACTIVE n false
  setF (setB u (CLE_LP_STAT_SAT n) false) (CLE_LP_SATT_CUR n) 0

/-- What disabling the engine does to loop `n`. -/
def switchOff (b : Nat) (u : State) (n : Nat) : State :=
  if (loopAt u n).mode = 0 then forceMode u n 0 else stopShown (stopped u n b) n

theorem cleEnable_off {e : State} (hoff : flag e CLE_CTRL_EN = false) : cleEnable e = loopsAll.foldl (switchOff (nowTick e + slotsPerStep)) e := by
  rw [cleEnable, if_neg (by simp [hoff])]
  rfl

theorem sameLoop_endInject (u : State) {k : Nat} (hk : (u.cle.inj.map (·.loop)) = some k) : SameLoop u (endInject u) n := by
  unfold endInject
  split
  case h_1 hnone => exact SameLoop.refl u n
  case h_2 j hj =>
    have hloop : j.loop = k := by simpa [hj] using hk
    extract_lets c v
    have hv : SameLoop u v n := ⟨rfl, fun _ _ => rfl⟩
    refine hv.trans ((sameLoop_wr ?_ v _).trans (sameLoop_wr ?_ _ _))
    · grind
    · rw [hloop]
      grind

theorem sameLoop_stopShown (u : State) (k : Nat) : SameLoop u (stopShown u k) n := by
  unfold stopShown
  extract_lets u₁ u₂
  have h₁ : SameLoop u u₁ n := by
    dsimp only [u₁]
    split
    case isTrue hj => exact sameLoop_endInject u (by simpa using hj)
    case isFalse => exact SameLoop.refl u n
  have h₂ : SameLoop u₁ u₂ n := (sameLoop_wr (by grind) _ _).trans (sameLoop_wr (by grind) _ _)
  exact h₁.trans (h₂.trans ((sameLoop_wr (by grind) _ _).trans (sameLoop_wr (by grind) _ _)))

theorem sameLoop_switchOff {k : Nat} (hlt : k < 16) (hk : k ≠ n) (b : Nat) (u : State) : SameLoop u (switchOff b u k) n := by
  have hmode : SameLoop u (forceMode u k 0) n := sameLoop_wr (by grind) _ _
  unfold switchOff
  split
  · exact hmode
  · exact (hmode.trans (sameLoop_modLoop hk _ _)).trans (sameLoop_stopShown _ k)

theorem getF_of_sameLoop {u v : State} (h : SameLoop u v n) {f : Field} (hf : f.reg ∈ [CLE_LP_CTRL n, CLE_LP_OPH n, CLE_LP_MAN n, CLE_CTRL]) : getF v f = getF u f :=
  getF_congr (h.2 _ hf)

/-- Disabling the engine puts loop `n` to OFF; one that was not OFF has its OFF value to put out. -/
theorem loop_switchOff (b n : Nat) (u : State) : (loopAt (switchOff b u n) n).mode = 0 ∧ getF (switchOff b u n) (CLE_LP_CTRL_MODE n) = 0 ∧
    ((loopAt u n).mode ≠ 0 → (loopAt (switchOff b u n) n).integ = 0 ∧
      (loopAt (switchOff b u n) n).out = some (b + getF u (CLE_LP_OPH_OPH n), getI u (CLE_LP_MAN_OFF_VAL n))) := by
  have hmode : getF (forceMode u n 0) (CLE_LP_CTRL_MODE n) = 0 := getF_setF _ _ _ ⟨by simp, by simp⟩
  have hoph : getF (forceMode u n 0) (CLE_LP_OPH_OPH n) = getF u (CLE_LP_OPH_OPH n) := getF_wr_apart (by grind) _
  have hman : getI (forceMode u n 0) (CLE_LP_MAN_OFF_VAL n) = getI u (CLE_LP_MAN_OFF_VAL n) := congrArg (signed _) (getF_wr_apart (by grind) _)
  unfold switchOff
  split
  case isTrue h0 => exact ⟨h0, hmode, fun h => absurd h0 h⟩
  case isFalse h0 =>
    have hshown := sameLoop_stopShown (n := n) (stopped u n b) n
    have hloop : loopAt (stopped u n b) n = { loopAt u n with
        mode := 0, integ := 0, d := 0, satUs := 0, satPrev := false, alarmed := false,
        out := some (b + getF u (CLE_LP_OPH_OPH n), getI u (CLE_LP_MAN_OFF_VAL n)) } := by
      rw [← hoph, ← hman]
      exact loopAt_modLoop_same ..
    rw [hshown.1, hloop, getF_of_sameLoop hshown (by simp)]
    exact ⟨rfl, hmode, fun _ => ⟨rfl, rfl⟩⟩

/-- The engine is disabled. -/
theorem cleEnable_off_effect {e : State} (hoff : flag e CLE_CTRL_EN = false) : flag (cleEnable e) CLE_CTRL_EN = false ∧
    ∀ n < 16, (loopAt (cleEnable e) n).mode = 0 ∧ getF (cleEnable e) (CLE_LP_CTRL_MODE n) = 0 ∧ ((loopAt e n).mode ≠ 0 →
      (loopAt (cleEnable e) n).integ = 0 ∧
      (loopAt (cleEnable e) n).out = some (nowTick e + slotsPerStep + getF e (CLE_LP_OPH_OPH n), getI e (CLE_LP_MAN_OFF_VAL n))) := by
  rw [cleEnable_off hoff]
  generalize nowTick e + slotsPerStep = b
  refine ⟨?_, fun n hn => ?_⟩
  · have hall : SameLoop e (loopsAll.foldl (switchOff b) e) 16 := foldl_others (fun u k hlt hk => sameLoop_switchOff hlt hk b u)
      (fun k hk => ⟨List.mem_range.1 hk, fun h => absurd (List.mem_range.1 hk) (by omega)⟩) e
    exact (flag_congr (hall.2 _ (by simp))).trans hoff
  · obtain ⟨u, hbefore, hafter⟩ := foldl_loops hn (fun u k hlt hk => sameLoop_switchOff hlt hk b u) e
    obtain ⟨hmode, hctrl, hout⟩ := loop_switchOff b n u
    rw [hafter.1, getF_of_sameLoop hafter (by simp), ← getF_of_sameLoop hbefore (f := CLE_LP_OPH_OPH n) (by simp), ← hbefore.1]
    have hman : getI u (CLE_LP_MAN_OFF_VAL n) = getI e (CLE_LP_MAN_OFF_VAL n) := congrArg (signed _) (getF_of_sameLoop hbefore (by simp))
    rw [← hman]
    exact ⟨hmode, hctrl, hout⟩

theorem engineOff_shown (hs : serves s h) (how : ownerOrService s h = true) (hon : flag s CLE_CTRL_EN = true)
    (hstart : startsNow s h (putFlag CLE_CTRL_EN false)) : answers (.cleEn h false) s (fun t => flag t CLE_CTRL_EN = false ∧ (∀ n < 16, (loopAt t n).mode = 0 ∧
      getF t (CLE_LP_CTRL_MODE n) = 0 ∧ ((loopAt s n).mode ≠ 0 →
        (loopAt t n).integ = 0 ∧ (loopAt t n).out = some (nowTick s + slotsPerStep + getF s (CLE_LP_OPH_OPH n), getI s (CLE_LP_MAN_OFF_VAL n)))) ∧
      wroteBut s t h [.regs, .sys, .cle]) := by
  refine answers_of_answer rfl (by simp [hs.1]) ?_
  rw [hostFlag_engine hs how (by simp [hon]) hstart]
  obtain ⟨hen, hloops⟩ := cleEnable_off_effect (flag_enableStored s false)
  refine ⟨hen, fun n hn => ?_, wroteBut_settled (keeps_enableStored s false) (by decide) (by decide)⟩
  have hregs := regsBut_enableStored s false
  have hoph : getF (enableStored s false) (CLE_LP_OPH_OPH n) = getF s (CLE_LP_OPH_OPH n) := getF_of_regsBut hregs (by grind)
  have hman : getI (enableStored s false) (CLE_LP_MAN_OFF_VAL n) = getI s (CLE_LP_MAN_OFF_VAL n) := congrArg (signed _) (getF_of_regsBut hregs (by grind))
  rw [← hoph, ← hman]
  exact hloops n hn

end Enable

/-! ### Injection (R255) -/

section Injection

variable {s : State} {h k : Nat}

/-- The row of CLE_INJ_CTRL in the register index: GO and STOP act. -/
def injectRow : RegRow :=
  ⟨0x1B08, 1, 1, 1, 1, 0x00000000#32, 0x000001FF#32, 0x00000000#32, 0x00000000#32, 0x00000000#32, 0x00000600#32⟩

theorem regRow_inject : regRow CLE_INJ_CTRL = some injectRow := by decide

theorem plain_inject : PlainRow injectRow := by decide

/-- Writes of CLE_INJ_CTRL under these masks are of the common kind. -/
theorem inject_maskOk {m : Word} (hm : m &&& writable injectRow ≠ 0) : MaskOk CLE_INJ_CTRL injectRow m :=
  ⟨regRow_inject, plain_inject, hm, by decide, by decide, by decide⟩

/-- A write of CLE_INJ_CTRL that is accepted acts by GO and STOP. -/
theorem hostItems_inject {m val : Word} (hm : m &&& writable injectRow ≠ 0) (hs : serves s h) (hstart : startsNow s h [item CLE_INJ_CTRL m val])
    (hmay : ((takenWord injectRow (rd s CLE_INJ_CTRL) m val).getLsbD 9 || holds s h kLoop (bitsOf (takenWord injectRow (rd s CLE_INJ_CTRL) m val) 3 0)) = true)
    (hcheck : cleCheck (ahead s) h CLE_INJ_CTRL (takenWord injectRow (rd s CLE_INJ_CTRL) m val) = .ok) :
    hostItems s h [item CLE_INJ_CTRL m val] = (settled s h (scrub (injectCtrl (wr (ahead s) CLE_INJ_CTRL (takenWord injectRow (rd s CLE_INJ_CTRL) m val))
      (takenWord injectRow (rd s CLE_INJ_CTRL) m val)) CLE_INJ_CTRL), true) := by
  rw [hostItems_taken_word (inject_maskOk hm) hs hstart]
  · rw [writeEffect_cle (by decide) (by decide)]
    rfl
  · rw [mayWrite_cle (by decide) (by decide)]
    exact hmay
  · rw [storeValue_cle (by decide) (by decide)]
    rfl
  · rw [stateRule_cle (by decide) (by decide)]
    exact hcheck

/-- GO's rule reads the loop and the point alone. -/
theorem injectCheck_congr {v w : Word} (hl : bitsOf v 3 0 = bitsOf w 3 0) (hp : bitsOf v 5 4 = bitsOf w 5 4) : injectCheck s h v = injectCheck s h w := by
  simp only [injectCheck, hl, hp]

/-- The word that GO stores. -/
abbrev goWord (s : State) (k : Nat) : Word := takenWord injectRow (rd s CLE_INJ_CTRL) 0x3FF#32 (BitVec.ofNat 32 (k + 512))

theorem bitsOf_goWord (hk : k < 512) {hi lo : Nat} (hin : ∀ j < hi - lo + 1, lo + j < 32 ∧ (0x3FF#32 &&& (injectRow.rw ||| injectRow.wo)).getLsbD (lo + j) = true) :
    bitsOf (goWord s k) hi lo = (k + 512) / 2 ^ lo % 2 ^ (hi - lo + 1) := by
  rw [bitsOf_takenWord plain_inject hin, bitsOf_ofNat (by omega)]

theorem injectCtrl_go (hk : k < 512) : injectCtrl (wr (ahead s) CLE_INJ_CTRL (goWord s k)) (goWord s k) =
    setB { wr (ahead s) CLE_INJ_CTRL (goWord s k) with cle := { s.cle with inj := some { loop := k % 16, point := k / 16 % 4, k0 := none } } } CLE_INJ_CTRL_BUSY true := by
  have hstop : bitsOf (goWord s k) 10 10 = 0 := bitsOf_takenWord_idle plain_inject (by decide)
  have hgo : bitsOf (goWord s k) 9 9 = 1 := by
    rw [bitsOf_goWord hk (by decide)]
    omega
  have hloop : getF (wr (ahead s) CLE_INJ_CTRL (goWord s k)) CLE_INJ_CTRL_LOOP = k % 16 := by
    rw [getF, rd_wr_self, bitsOf_goWord hk (by decide)]
    show (k + 512) / 2 ^ 0 % 2 ^ 4 = k % 16
    omega
  have hpoint : getF (wr (ahead s) CLE_INJ_CTRL (goWord s k)) CLE_INJ_CTRL_POINT = k / 16 % 4 := by
    rw [getF, rd_wr_self, bitsOf_goWord hk (by decide)]
    show (k + 512) / 2 ^ 4 % 2 ^ 2 = k / 16 % 4
    omega
  simp only [injectCtrl, hstop, hgo, Nat.zero_ne_one, if_false, if_true, hloop, hpoint]
  rfl

theorem injectRow_fields {hi lo : Nat} (hle : lo ≤ hi) (h8 : hi ≤ 8) : ∀ j < hi - lo + 1, injectRow.wo.getLsbD (lo + j) = false ∧ lo + j < 32 := by
  have hall : ∀ i < 9, injectRow.wo.getLsbD i = false := by decide
  exact fun j hj => ⟨hall _ (by omega), by omega⟩

theorem keeps_inject (s : State) (w v : Word) :
    Keeps (· ∈ [Part.regs, .sys, .cle]) (ahead s) (scrub (injectCtrl (wr (ahead s) CLE_INJ_CTRL w) v) CLE_INJ_CTRL) :=
  scrub_keeps _ _ (allows_of_subset (by decide)) (injectCtrl_keeps _ _ (allows_of_subset (by decide)) (wr_keeps _ _ _ (allows_of_subset (by decide)) (Keeps.refl ..)))

theorem injGo_shown (hs : serves s h) (hk : k < 512) (hpt : k / 16 % 4 ≠ 3) (htype : k / 64 % 4 ≠ 3) (hcheck : injectCheck s h (BitVec.ofNat 32 k) = .ok)
    (hstart : startsNow s h [item CLE_INJ_CTRL 0x3FF#32 (BitVec.ofNat 32 (k + 512))]) : answers (.injGo h k) s (fun t =>
    t.cle = { s.cle with inj := some { loop := k % 16, point := k / 16 % 4, k0 := none } } ∧
      flag t CLE_INJ_CTRL_BUSY = true ∧ getF t CLE_INJ_CTRL_LOOP = k % 16 ∧ getF t CLE_INJ_CTRL_POINT = k / 16 % 4 ∧
      getF t CLE_INJ_CTRL_TYPE = k / 64 % 4 ∧ regsBut s t [CLE_INJ_CTRL] ∧ wroteBut s t h [.regs, .sys, .cle]) := by
  refine answers_of_answer rfl (by simp [hs.1, hk]) ?_
  have hgo : (goWord s k).getLsbD 9 = true := by
    rw [getLsbD_takenWord plain_inject (by decide), if_pos (by decide), BitVec.getLsbD_ofNat, Nat.testBit_eq_decide_div_mod_eq]
    simp
    omega
  have hl : bitsOf (goWord s k) 3 0 = bitsOf (BitVec.ofNat 32 k) 3 0 := by
    rw [bitsOf_goWord hk (by decide), bitsOf_ofNat (by omega)]
    omega
  have hp : bitsOf (goWord s k) 5 4 = bitsOf (BitVec.ofNat 32 k) 5 4 := by
    rw [bitsOf_goWord hk (by decide), bitsOf_ofNat (by omega)]
    omega
  have hp3 : bitsOf (goWord s k) 5 4 ≠ 3 := by
    rw [bitsOf_goWord hk (by decide)]
    omega
  have ht3 : bitsOf (goWord s k) 7 6 ≠ 3 := by
    rw [bitsOf_goWord hk (by decide)]
    omega
  have hgo9 : bitsOf (goWord s k) 9 9 = 1 := by
    rw [bitsOf_goWord hk (by decide)]
    omega
  rw [hostItems_inject (by decide) hs hstart (by rw [hgo]; rfl) ?hrule]
  case hrule =>
    show (if bitsOf (goWord s k) 5 4 = 3 ∨ bitsOf (goWord s k) 7 6 = 3 then Verdict.invalid
      else if bitsOf (goWord s k) 9 9 = 1 then injectCheck (ahead s) h (goWord s k) else .ok) = .ok
    rw [if_neg (by simp [hp3, ht3]), if_pos hgo9, injectCheck_congr hl hp]
    exact hcheck
  rw [injectCtrl_go hk]
  set u : State := setB { wr (ahead s) CLE_INJ_CTRL (goWord s k) with cle := { s.cle with inj := some { loop := k % 16, point := k / 16 % 4, k0 := none } } }
    CLE_INJ_CTRL_BUSY true with hu
  have hfield : ∀ hi lo, lo ≤ hi → hi ≤ 8 → getF (settled s h (scrub u CLE_INJ_CTRL)) ⟨CLE_INJ_CTRL, hi, lo⟩ = bitsOf (goWord s k) hi lo := fun hi lo hle h8 => by
    rw [getF_settled, getF_scrub regRow_inject (injectRow_fields hle h8), hu, getF_setB_apart ⟨by decide, hle, Or.inr (Or.inr (show hi < 11 by omega))⟩]
    exact congrArg (bitsOf · hi lo) (rd_wr_self ..)
  refine ⟨(scrub_same u CLE_INJ_CTRL (p := .cle) (by decide)), ?_, ?_, ?_, ?_, regsBut_settled (regsBut_scrub ?_ (by simp)), wroteBut_settled ?_ (by decide) (by decide)⟩
  · rw [flag_settled, flag, getF_scrub regRow_inject (by decide)]
    exact flag_setB _ _ _ ⟨by decide, by decide⟩
  · rw [hfield 3 0 (by decide) (by decide), bitsOf_goWord hk (by decide)]
    omega
  · rw [hfield 5 4 (by decide) (by decide), bitsOf_goWord hk (by decide)]
    omega
  · rw [hfield 7 6 (by decide) (by decide), bitsOf_goWord hk (by decide)]
    omega
  · exact regsBut_setB (regsBut_put (regsBut_wr (regsBut_of_regs rfl _) (by simp) _) rfl) (by simp) _
  · rw [hu, ← injectCtrl_go hk]
    exact keeps_inject ..

/-- An injection that ends. -/
theorem endInject_some {j : Inject} (hj : s.cle.inj = some j) : endInject s =
    setB (setB { s with cle := { s.cle with inj := none } } CLE_INJ_CTRL_BUSY false) (CLE_LP_STAT_INJ j.loop) false := by
  rw [endInject, hj]

theorem endInject_effect {j : Inject} (hj : s.cle.inj = some j) : (endInject s).cle = { s.cle with inj := none } ∧
    flag (endInject s) CLE_INJ_CTRL_BUSY = false ∧ flag (endInject s) (CLE_LP_STAT_INJ j.loop) = false ∧
    regsBut s (endInject s) [CLE_INJ_CTRL, CLE_LP_STAT j.loop] ∧ getF (endInject s) ⟨CLE_INJ_CTRL, 8, 0⟩ = getF s ⟨CLE_INJ_CTRL, 8, 0⟩ := by
  rw [endInject_some hj]
  refine ⟨rfl, ?_, flag_setB _ _ _ ⟨by simp, by simp⟩, regsBut_setB (regsBut_setB (regsBut_of_regs rfl _) (by simp) _) (by simp) _, ?_⟩
  · rw [flag_setB_apart (by grind)]
    exact flag_setB _ _ _ ⟨by decide, by decide⟩
  · rw [getF_setB_apart (by grind), getF_setB_apart (by decide)]
    rfl

theorem injectionEnd_shown {j : Inject} (hj : s.cle.inj = some j) (hover : injectOver s j = true) : answers .injectionEnd s (fun t =>
    t.cle = { s.cle with inj := none } ∧ flag t CLE_INJ_CTRL_BUSY = false ∧
      flag t (CLE_LP_STAT_INJ j.loop) = false ∧ regsBut s t [CLE_INJ_CTRL, CLE_LP_STAT j.loop] ∧ partsBut s t [.regs, .cle]) := by
  have heq : injectionEnd s = endInject s := by simp only [injectionEnd, hj, hover, if_true]
  refine ⟨endInject s, congrArg _ heq, ?_⟩
  obtain ⟨hcle, hbusy, hinj, hregs, -⟩ := endInject_effect hj
  exact ⟨hcle, hbusy, hinj, hregs, partsBut_of_keeps (endInject_keeps _ (allows_of_subset (by decide)) (Keeps.refl ..))⟩

/-- The word that STOP stores. -/
abbrev stopWord (s : State) : Word := takenWord injectRow (rd s CLE_INJ_CTRL) 0x400#32 0x400#32

theorem stopWord_field {hi lo : Nat} (hle : lo ≤ hi) (h8 : hi ≤ 8) : bitsOf (stopWord s) hi lo = bitsOf (rd s CLE_INJ_CTRL) hi lo := by
  have hall : ∀ i < 9, (injectRow.wo ||| (0x400#32 &&& injectRow.rw)).getLsbD i = false := by decide
  exact bitsOf_takenWord_out plain_inject fun j hj => ⟨by omega, hall _ (by omega)⟩

theorem injectCtrl_stop (s : State) : injectCtrl (wr (ahead s) CLE_INJ_CTRL (stopWord s)) (stopWord s) = endInject (wr (ahead s) CLE_INJ_CTRL (stopWord s)) := by
  have hstop : bitsOf (stopWord s) 10 10 = 1 := (bitsOf_takenWord plain_inject (by decide)).trans (by decide)
  have hgo : bitsOf (stopWord s) 9 9 = 0 := bitsOf_takenWord_idle plain_inject (by decide)
  simp only [injectCtrl, hstop, hgo, Nat.zero_ne_one, if_false, if_true]

theorem injStop_shown {j : Inject} (hj : s.cle.inj = some j) (hs : serves s h) (hholds : holds s h kLoop (getF s CLE_INJ_CTRL_LOOP) = true)
    (hpt : getF s CLE_INJ_CTRL_POINT ≠ 3) (htype : getF s CLE_INJ_CTRL_TYPE ≠ 3) (hstart : startsNow s h (putFlag CLE_INJ_CTRL_STOP true)) :
    answers (.injStop h) s (fun t => t.cle = { s.cle with inj := none } ∧ flag t CLE_INJ_CTRL_BUSY = false ∧ flag t (CLE_LP_STAT_INJ j.loop) = false ∧
      regsBut s t [CLE_INJ_CTRL, CLE_LP_STAT j.loop] ∧ wroteBut s t h [.regs, .sys, .cle]) := by
  refine answers_of_answer rfl (by simp [hs.1]) ?_
  replace hstart : startsNow s h [item CLE_INJ_CTRL 0x400#32 0x400#32] := hstart
  have hitem : hostFlag s h CLE_INJ_CTRL_STOP true = (hostItems s h [item CLE_INJ_CTRL 0x400#32 0x400#32]).1 := rfl
  rw [hitem, hostItems_inject (by decide) hs hstart (by rw [stopWord_field (by decide) (by decide), Bool.or_eq_true]; exact Or.inr hholds) ?hrule, injectCtrl_stop]
  case hrule =>
    show (if bitsOf (stopWord s) 5 4 = 3 ∨ bitsOf (stopWord s) 7 6 = 3 then Verdict.invalid
      else if bitsOf (stopWord s) 9 9 = 1 then injectCheck (ahead s) h (stopWord s) else .ok) = .ok
    rw [stopWord_field (by decide) (by decide), stopWord_field (by decide) (by decide), if_neg (show ¬(bitsOf (rd s CLE_INJ_CTRL) 5 4 = 3 ∨ bitsOf (rd s CLE_INJ_CTRL) 7 6 = 3) from not_or.2 ⟨hpt, htype⟩),
      show bitsOf (stopWord s) 9 9 = 0 from bitsOf_takenWord_idle plain_inject (by decide)]
    rfl
  have hkeeps := keeps_inject s (stopWord s) (stopWord s)
  rw [injectCtrl_stop] at hkeeps
  have hstored : regsBut s (wr (ahead s) CLE_INJ_CTRL (stopWord s)) [CLE_INJ_CTRL, CLE_LP_STAT j.loop] := regsBut_wr (regsBut_of_regs rfl _) (by simp) _
  obtain ⟨hcle, hbusy, hinj, hregs, -⟩ := endInject_effect (s := wr (ahead s) CLE_INJ_CTRL (stopWord s)) hj
  refine ⟨(scrub_same _ CLE_INJ_CTRL (p := .cle) (by decide)).trans hcle, ?_, ?_, regsBut_settled (regsBut_scrub (regsBut_trans hstored hregs) (by simp)),
    wroteBut_settled hkeeps (by decide) (by decide)⟩
  · rw [flag_settled, flag, getF_scrub regRow_inject (by decide)]
    exact hbusy
  · rw [flag_settled, flag_congr (rd_scrub_ne _ (by grind))]
    exact hinj

end Injection

/-! ### Capture (R256) -/

section Capture

variable {s : State} {h k : Nat}

/-- The row of CLE_CAP_CTRL in the register index: ARM and ABORT act. -/
def captureRow : RegRow :=
  ⟨0x1B10, 1, 1, 1, 1, 0x00000000#32, 0x0000073F#32, 0x00000000#32, 0x00000000#32, 0x00000000#32, 0x00003000#32⟩

theorem regRow_capture : regRow CLE_CAP_CTRL = some captureRow := by decide

theorem plain_capture : PlainRow captureRow := by decide

/-- A write of CLE_CAP_CTRL that is accepted acts by ARM and ABORT. -/
theorem hostItems_capture {m val : Word} (hm : m &&& writable captureRow ≠ 0) (hs : serves s h) (hstart : startsNow s h [item CLE_CAP_CTRL m val])
    (hmay : holds s h kLoop (bitsOf (takenWord captureRow (rd s CLE_CAP_CTRL) m val) 3 0) = true)
    (hcheck : cleCheck (ahead s) h CLE_CAP_CTRL (takenWord captureRow (rd s CLE_CAP_CTRL) m val) = .ok) :
    hostItems s h [item CLE_CAP_CTRL m val] = (settled s h (scrub (capCtrl (wr (ahead s) CLE_CAP_CTRL (takenWord captureRow (rd s CLE_CAP_CTRL) m val))
      (takenWord captureRow (rd s CLE_CAP_CTRL) m val)) CLE_CAP_CTRL), true) := by
  rw [hostItems_taken_word ⟨regRow_capture, plain_capture, hm, by decide, by decide, by decide⟩ hs hstart]
  · rw [writeEffect_cle (by decide) (by decide)]
    rfl
  · rw [mayWrite_cle (by decide) (by decide)]
    exact hmay
  · rw [storeValue_cle (by decide) (by decide)]
    rfl
  · rw [stateRule_cle (by decide) (by decide)]
    exact hcheck

/-- The capture buffer is cleared. -/
def captureCleared (s : State) : State := setF (setCap s [] 0) CLE_CAP_STAT_TIDX 0

/-- The capture is armed, and runs at once where the trigger is 0. -/
def captureArmed (s : State) : State :=
  let u := setF (captureCleared s) CLE_CAP_STAT_STATE capArmed
  if getF u CLE_CAP_CTRL_TRIG = 0 then capTrigger u else u

/-- The capture is idle. -/
def captureIdle (s : State) : State := setF (captureCleared s) CLE_CAP_STAT_STATE capIdle

theorem captureCleared_effect (s : State) : getF (captureCleared s) CLE_CAP_STAT_COUNT = 0 ∧ getF (captureCleared s) CLE_CAP_STAT_TIDX = 0 ∧
    (captureCleared s).cle = { s.cle with cap := { entries := [], skip := 0 } } ∧ regsBut s (captureCleared s) [CLE_CAP_STAT] := by
  unfold captureCleared setCap
  refine ⟨?_, getF_setF _ _ _ ⟨by decide, by decide⟩, rfl, regsBut_setF (regsBut_setF (regsBut_of_regs rfl _) (by simp) _) (by simp) _⟩
  rw [getF_setF_apart (by decide)]
  exact getF_setF _ _ _ ⟨by decide, by decide⟩

theorem captureIdle_effect (s : State) : getF (captureIdle s) CLE_CAP_STAT_STATE = capIdle ∧ getF (captureIdle s) CLE_CAP_STAT_COUNT = 0 ∧
    (captureIdle s).cle = { s.cle with cap := { entries := [], skip := 0 } } ∧ regsBut s (captureIdle s) [CLE_CAP_STAT] := by
  obtain ⟨hcount, -, hcle, hregs⟩ := captureCleared_effect s
  exact ⟨getF_setF _ _ _ ⟨by decide, by decide⟩, (getF_setF_apart (by decide) _).trans hcount, hcle, regsBut_setF hregs (by simp) _⟩

/-- The trigger of a capture that is armed. -/
theorem capTrigger_armed (harmed : getF s CLE_CAP_STAT_STATE = capArmed) : getF (capTrigger s) CLE_CAP_STAT_STATE = capRun ∧
    getF (capTrigger s) CLE_CAP_STAT_TIDX = s.cle.cap.entries.length % 4096 ∧ (capTrigger s).cle = s.cle ∧
    getF (capTrigger s) CLE_CAP_STAT_COUNT = getF s CLE_CAP_STAT_COUNT ∧ regsBut s (capTrigger s) [CLE_CAP_STAT, CLE_CAP_TRIG] := by
  rw [capTrigger, if_pos harmed]
  refine ⟨?_, ?_, rfl, ?_, regsBut_wr (regsBut_setF (regsBut_setF (regsBut_refl _ _) (by simp) _) (by simp) _) (by simp) _⟩
  · rw [getF_wr_apart (by decide), getF_setF_apart (by decide)]
    exact getF_setF _ _ _ ⟨by decide, by decide⟩
  · rw [getF_wr_apart (by decide)]
    exact getF_setF _ _ _ ⟨by decide, by decide⟩
  · rw [getF_wr_apart (by decide), getF_setF_apart (by decide), getF_setF_apart (by decide)]

theorem captureArmed_effect (s : State) :
    getF (captureArmed s) CLE_CAP_STAT_STATE = (if getF s CLE_CAP_CTRL_TRIG = 0 then capRun else capArmed) ∧ getF (captureArmed s) CLE_CAP_STAT_COUNT = 0 ∧
    getF (captureArmed s) CLE_CAP_STAT_TIDX = 0 ∧ (captureArmed s).cle = { s.cle with cap := { entries := [], skip := 0 } } ∧
    regsBut s (captureArmed s) [CLE_CAP_STAT, CLE_CAP_TRIG] := by
  obtain ⟨hcount, htidx, hcle, hregs⟩ := captureCleared_effect s
  unfold captureArmed
  extract_lets u
  have harmed : getF u CLE_CAP_STAT_STATE = capArmed := getF_setF _ _ _ ⟨by decide, by decide⟩
  have hcount' : getF u CLE_CAP_STAT_COUNT = 0 := (getF_setF_apart (by decide) _).trans hcount
  have htidx' : getF u CLE_CAP_STAT_TIDX = 0 := (getF_setF_apart (by decide) _).trans htidx
  have hcle' : u.cle = { s.cle with cap := { entries := [], skip := 0 } } := hcle
  have hregs' : regsBut s u [CLE_CAP_STAT, CLE_CAP_TRIG] := regsBut_setF (regsBut_mono hregs (by simp)) (by simp) _
  clear_value u
  rw [getF_of_regsBut hregs' (f := CLE_CAP_CTRL_TRIG) (by decide)]
  split
  · obtain ⟨hst, htrig, hsame, hcnt, hmoved⟩ := capTrigger_armed harmed
    refine ⟨hst, hcnt.trans hcount', htrig.trans ?_, hsame.trans hcle', regsBut_trans hregs' hmoved⟩
    rw [hcle']
    rfl
  · exact ⟨harmed, hcount', htidx', hcle', hregs'⟩

theorem keeps_capture (s : State) (w v : Word) :
    Keeps (· ∈ [Part.regs, .sys, .cle]) (ahead s) (scrub (capCtrl (wr (ahead s) CLE_CAP_CTRL w) v) CLE_CAP_CTRL) :=
  scrub_keeps _ _ (allows_of_subset (by decide)) (capCtrl_keeps _ _ (allows_of_subset (by decide)) (wr_keeps _ _ _ (allows_of_subset (by decide)) (Keeps.refl ..)))

/-- The words that ARM and ABORT store. -/
abbrev armWord (s : State) (k : Nat) : Word := takenWord captureRow (rd s CLE_CAP_CTRL) 0x17FF#32 (BitVec.ofNat 32 (k + 4096))
abbrev abortWord (s : State) : Word := takenWord captureRow (rd s CLE_CAP_CTRL) 0x2000#32 0x2000#32

theorem capCtrl_arm {v : Word} (harm : bitsOf v 12 12 = 1) (habort : bitsOf v 13 13 = 0) : capCtrl s v = captureArmed s := by
  simp only [capCtrl, harm, habort, Nat.zero_ne_one, if_false, if_true]
  rfl

theorem capCtrl_abort {v : Word} (harm : bitsOf v 12 12 = 0) (habort : bitsOf v 13 13 = 1) : capCtrl s v = captureIdle s := by
  simp only [capCtrl, harm, habort, Nat.zero_ne_one, if_false, if_true]
  rfl

theorem bitsOf_armWord (hk : k < 2048) {hi lo : Nat} (hin : ∀ j < hi - lo + 1, lo + j < 32 ∧ (0x17FF#32 &&& (captureRow.rw ||| captureRow.wo)).getLsbD (lo + j) = true) :
    bitsOf (armWord s k) hi lo = (k + 4096) / 2 ^ lo % 2 ^ (hi - lo + 1) := by
  rw [bitsOf_takenWord plain_capture hin, bitsOf_ofNat (by omega)]

theorem capArm_shown (hs : serves s h) (hk : k < 2048) (hsig : k / 16 % 4 ≠ 3) (htrig : k / 256 ≤ 5) (hholds : holds s h kLoop (k % 16) = true)
    (hstate : getF s CLE_CAP_STAT_STATE = capIdle ∨ getF s CLE_CAP_STAT_STATE = capDone)
    (hstart : startsNow s h [item CLE_CAP_CTRL 0x17FF#32 (BitVec.ofNat 32 (k + 4096))]) : answers (.capArm h k) s (fun t =>
      getF t CLE_CAP_STAT_STATE = (if k / 256 = 0 then capRun else capArmed) ∧ getF t CLE_CAP_STAT_COUNT = 0 ∧
      getF t CLE_CAP_STAT_TIDX = 0 ∧ t.cle = { s.cle with cap := { entries := [], skip := 0 } } ∧ getF t CLE_CAP_CTRL_LOOP = k % 16 ∧
      getF t CLE_CAP_CTRL_NSIG = k / 16 % 4 ∧ getF t CLE_CAP_CTRL_TRIG = k / 256 ∧ regsBut s t [CLE_CAP_CTRL, CLE_CAP_STAT, CLE_CAP_TRIG] ∧
      wroteBut s t h [.regs, .sys, .cle]) := by
  refine answers_of_answer rfl (by simp [hs.1, hk]) ?_
  have hloop : bitsOf (armWord s k) 3 0 = k % 16 := by
    rw [bitsOf_armWord hk (by decide)]
    omega
  have hnsig : bitsOf (armWord s k) 5 4 = k / 16 % 4 := by
    rw [bitsOf_armWord hk (by decide)]
    omega
  have htr : bitsOf (armWord s k) 10 8 = k / 256 := by
    rw [bitsOf_armWord hk (by decide)]
    omega
  have harm : bitsOf (armWord s k) 12 12 = 1 := by
    rw [bitsOf_armWord hk (by decide)]
    omega
  have habort : bitsOf (armWord s k) 13 13 = 0 := bitsOf_takenWord_idle plain_capture (by decide)
  rw [hostItems_capture (by decide) hs hstart (by rw [hloop]; exact hholds) ?hrule, capCtrl_arm harm habort]
  case hrule =>
    show inState (decide (bitsOf (armWord s k) 12 12 = 0) || decide (getF s CLE_CAP_STAT_STATE = capIdle ∨ getF s CLE_CAP_STAT_STATE = capDone))
      (valid (decide (bitsOf (armWord s k) 5 4 ≠ 3 ∧ bitsOf (armWord s k) 10 8 ≤ 5))) = .ok
    rw [hnsig, htr, decide_eq_true hstate, decide_eq_true (show k / 16 % 4 ≠ 3 ∧ k / 256 ≤ 5 from ⟨hsig, htrig⟩), Bool.or_true]
    rfl
  have hkeeps := keeps_capture s (armWord s k) (armWord s k)
  rw [capCtrl_arm harm habort] at hkeeps
  obtain ⟨hst, hcount, htidx, hcle, hregs⟩ := captureArmed_effect (wr (ahead s) CLE_CAP_CTRL (armWord s k))
  have hword : rd (captureArmed (wr (ahead s) CLE_CAP_CTRL (armWord s k))) CLE_CAP_CTRL = armWord s k := (hregs _ (by decide)).trans (rd_wr_self ..)
  have hTRIG : getF (wr (ahead s) CLE_CAP_CTRL (armWord s k)) CLE_CAP_CTRL_TRIG = k / 256 := by rw [getF, rd_wr_self, htr]
  rw [hTRIG] at hst
  have hstored : regsBut s (wr (ahead s) CLE_CAP_CTRL (armWord s k)) [CLE_CAP_CTRL, CLE_CAP_STAT, CLE_CAP_TRIG] := regsBut_wr (regsBut_of_regs rfl _) (by simp) _
  generalize captureArmed (wr (ahead s) CLE_CAP_CTRL (armWord s k)) = u at *
  have hstat : ∀ f : Field, f.reg = CLE_CAP_STAT → getF (settled s h (scrub u CLE_CAP_CTRL)) f = getF u f := fun f hf =>
    (getF_settled f).trans (getF_congr (rd_scrub_ne u (by rw [hf]; decide)))
  refine ⟨(hstat _ rfl).trans hst, (hstat _ rfl).trans hcount, (hstat _ rfl).trans htidx, (scrub_same u CLE_CAP_CTRL (p := .cle) (by decide)).trans hcle, ?_, ?_, ?_,
    regsBut_settled (regsBut_scrub (regsBut_trans hstored (regsBut_mono hregs (by simp))) (by simp)), wroteBut_settled hkeeps (by decide) (by decide)⟩
  · rw [getF_settled, getF_scrub regRow_capture (by decide), getF, hword, hloop]
  · rw [getF_settled, getF_scrub regRow_capture (by decide), getF, hword, hnsig]
  · rw [getF_settled, getF_scrub regRow_capture (by decide), getF, hword, htr]

theorem capAbort_shown (hs : serves s h) (hholds : holds s h kLoop (getF s CLE_CAP_CTRL_LOOP) = true) (hsig : getF s CLE_CAP_CTRL_NSIG ≠ 3)
    (htrig : getF s CLE_CAP_CTRL_TRIG ≤ 5) (hstart : startsNow s h (putFlag CLE_CAP_CTRL_ABORT true)) : answers (.capAbort h) s (fun t =>
      getF t CLE_CAP_STAT_STATE = capIdle ∧ getF t CLE_CAP_STAT_COUNT = 0 ∧ t.cle = { s.cle with cap := { entries := [], skip := 0 } } ∧
      regsBut s t [CLE_CAP_CTRL, CLE_CAP_STAT] ∧ wroteBut s t h [.regs, .sys, .cle]) := by
  refine answers_of_answer rfl (by simp [hs.1]) ?_
  replace hstart : startsNow s h [item CLE_CAP_CTRL 0x2000#32 0x2000#32] := hstart
  have hitem : hostFlag s h CLE_CAP_CTRL_ABORT true = (hostItems s h [item CLE_CAP_CTRL 0x2000#32 0x2000#32]).1 := rfl
  have hloop : bitsOf (abortWord s) 3 0 = bitsOf (rd s CLE_CAP_CTRL) 3 0 := bitsOf_takenWord_out plain_capture (by decide)
  have hnsig : bitsOf (abortWord s) 5 4 = bitsOf (rd s CLE_CAP_CTRL) 5 4 := bitsOf_takenWord_out plain_capture (by decide)
  have htr : bitsOf (abortWord s) 10 8 = bitsOf (rd s CLE_CAP_CTRL) 10 8 := bitsOf_takenWord_out plain_capture (by decide)
  have harm : bitsOf (abortWord s) 12 12 = 0 := bitsOf_takenWord_idle plain_capture (by decide)
  have habort : bitsOf (abortWord s) 13 13 = 1 := (bitsOf_takenWord plain_capture (by decide)).trans (by decide)
  rw [hitem, hostItems_capture (by decide) hs hstart (by rw [hloop]; exact hholds) ?hrule, capCtrl_abort harm habort]
  case hrule =>
    show inState (decide (bitsOf (abortWord s) 12 12 = 0) || _) (valid (decide (bitsOf (abortWord s) 5 4 ≠ 3 ∧ bitsOf (abortWord s) 10 8 ≤ 5))) = .ok
    rw [harm, hnsig, htr, decide_eq_true (show bitsOf (rd s CLE_CAP_CTRL) 5 4 ≠ 3 ∧ bitsOf (rd s CLE_CAP_CTRL) 10 8 ≤ 5 from ⟨hsig, htrig⟩)]
    rfl
  have hkeeps := keeps_capture s (abortWord s) (abortWord s)
  rw [capCtrl_abort harm habort] at hkeeps
  obtain ⟨hst, hcount, hcle, hregs⟩ := captureIdle_effect (wr (ahead s) CLE_CAP_CTRL (abortWord s))
  have hstored : regsBut s (wr (ahead s) CLE_CAP_CTRL (abortWord s)) [CLE_CAP_CTRL, CLE_CAP_STAT] := regsBut_wr (regsBut_of_regs rfl _) (by simp) _
  generalize captureIdle (wr (ahead s) CLE_CAP_CTRL (abortWord s)) = u at *
  have hstat : ∀ f : Field, f.reg = CLE_CAP_STAT → getF (settled s h (scrub u CLE_CAP_CTRL)) f = getF u f := fun f hf =>
    (getF_settled f).trans (getF_congr (rd_scrub_ne u (by rw [hf]; decide)))
  exact ⟨(hstat _ rfl).trans hst, (hstat _ rfl).trans hcount, (scrub_same u CLE_CAP_CTRL (p := .cle) (by decide)).trans hcle,
    regsBut_settled (regsBut_scrub (regsBut_trans hstored (regsBut_mono hregs (by simp))) (by simp)), wroteBut_settled hkeeps (by decide) (by decide)⟩

end Capture

/-- Settles O28: modes and enables are written fields; GO, STOP, ARM and ABORT are bits that act and are dropped. -/
theorem loopModesInjectionAndCapture : Obligations.LoopModesInjectionAndCapture := by
  unfold Obligations.LoopModesInjectionAndCapture
  refine ⟨⟨fun s h n m => loopModeWrite_shown, fun s h hs how => ⟨engineOn_shown hs how, engineOff_shown hs how⟩⟩,
    fun s h k => injGo_shown, fun s j hj hl => ⟨fun h => injStop_shown hj, injectionEnd_shown hj⟩, fun s h k => capArm_shown, fun s h => capAbort_shown⟩

end Sys2Proof.LoopWrites

namespace Sys2Proof.CanControllers

open Sys2Proof Sys2Proof.Machine Sys2Proof.Frame

/-! ### Controllers and buffers -/

section Access

variable {s t : State} {x b : Nat}

@[simp] theorem ctlAt_modCtl (s : State) (x : Nat) (f : CanCtl → CanCtl) : ctlAt (modCtl s x f) x = f (ctlAt s x) := sparseGet_mod _ _ _ _

theorem ctlAt_modCtl_ne (s : State) (f : CanCtl → CanCtl) {y : Nat} (h : y ≠ x) : ctlAt (modCtl s x f) y = ctlAt s y := sparseGet_mod_ne _ _ _ _ _ h

theorem ctlAt_of_can (h : t.can = s.can) (x : Nat) : ctlAt t x = ctlAt s x := by rw [ctlAt, h, ctlAt]

@[simp] theorem ctlAt_setF (s : State) (f : Field) (v x : Nat) : ctlAt (setF s f v) x = ctlAt s x := rfl

@[simp] theorem ctlAt_setB (s : State) (f : Field) (v : Bool) (x : Nat) : ctlAt (setB s f v) x = ctlAt s x := rfl

@[simp] theorem ctlAt_bump (s : State) (f : Field) (n x : Nat) : ctlAt (bump s f n) x = ctlAt s x := rfl

@[simp] theorem ctlAt_wr (s : State) (i : Nat) (v : Word) (x : Nat) : ctlAt (wr s i v) x = ctlAt s x := rfl

theorem getF_modCtl (s : State) (x : Nat) (f : CanCtl → CanCtl) (g : Field) : getF (modCtl s x f) g = getF s g := rfl

theorem getF_modBuf (s : State) (x b : Nat) (f : CanBuf → CanBuf) (g : Field) : getF (modBuf s x b f) g = getF s g := rfl

theorem ctlAt_setTx (s : State) (x b st y : Nat) : ctlAt (setTx s x b st) y = ctlAt s y := by
  unfold setTx
  split <;> rfl

theorem ctlAt_canIrq (s : State) (x k y : Nat) : ctlAt (canIrq s x k) y = ctlAt s y :=
  ctlAt_of_can ((keeps_raiseIrq ..).same .can (by decide)) y

theorem ctlAt_record (s : State) (code inst : Nat) (val : List Byte) (y : Nat) : ctlAt (record s code inst val) y = ctlAt s y :=
  ctlAt_of_can ((keeps_record ..).same .can (by decide)) y

/-- The error counters of a controller. -/
def errs (c : CanCtl) : Nat × Nat := (c.tec, c.recv)

theorem errs_modBuf (s : State) (x b : Nat) (f : CanBuf → CanBuf) : errs (ctlAt (modBuf s x b f) x) = errs (ctlAt s x) := by
  rw [modBuf, ctlAt_modCtl]
  rfl

theorem errs_endTx (s : State) (x b st : Nat) : errs (ctlAt (endTx s x b st) x) = errs (ctlAt s x) := by
  unfold endTx
  extract_lets tt u
  exact (congrArg errs (ctlAt_setTx ..)).trans (errs_modBuf ..)

theorem errs_withdrawActive (s : State) (x : Nat) : errs (ctlAt (withdrawActive s x) x) = errs (ctlAt s x) := by
  unfold withdrawActive
  split
  case h_2 => rfl
  case h_1 b hb =>
    extract_lets u
    have hu : errs (ctlAt u x) = errs (ctlAt s x) := (congrArg errs (ctlAt_modCtl ..)).trans rfl
    split_ifs
    · exact (errs_endTx ..).trans hu
    · exact (errs_endTx ..).trans hu
    · exact (congrArg errs (ctlAt_setTx ..)).trans hu

theorem markBoff_can (s : State) (x : Nat) : (markBoff s x).can = s.can :=
  (markBoff_keeps (R := (· ∈ [Part.regs])) s x (allows_of_subset (by decide)) (Keeps.refl ..)).same .can (by decide)

theorem errs_offer (s : State) (x : Nat) : errs (ctlAt (offer s x) x) = errs (ctlAt s x) := by
  unfold offer
  split
  case isFalse => rfl
  case isTrue =>
    split
    · refine (congrArg errs (ctlAt_setTx ..)).trans ?_
      rw [ctlAt_modCtl]
      rfl
    · rfl

end Access

/-! ### The registers that an operation may write -/

section Registers

variable {s : State} {x b : Nat}

/-- The status registers of a controller's transmit buffers. -/
def txRegs (x : Nat) : List Nat := (List.range 64).map (CAN_TXB_STAT x)

theorem mem_txRegs {j : Nat} : j ∈ txRegs x ↔ 0x2C80 + 0x100 * x ≤ j ∧ j < 0x2CC0 + 0x100 * x := by
  simp only [txRegs, List.mem_map, List.mem_range, CAN_TXB_STAT]
  constructor
  · rintro ⟨k, hk, rfl⟩
    omega
  · exact fun h => ⟨j - (0x2C80 + 0x100 * x), by omega, by omega⟩

theorem regsBut_setTx (s : State) (x b st : Nat) : regsBut s (setTx s x b st) (txRegs x) := by
  unfold setTx
  split
  · exact regsBut_setF (regsBut_refl _ _) (mem_txRegs.2 (by simp only [CAN_TXB_STAT]; omega)) _
  · exact regsBut_refl _ _

theorem regsBut_endTx (s : State) (x b st : Nat) : regsBut s (endTx s x b st) (txRegs x) := by
  unfold endTx
  extract_lets tt u
  exact regsBut_before (regsBut_setTx u x b _) rfl

theorem regsBut_withdrawActive (s : State) (x : Nat) : regsBut s (withdrawActive s x) (txRegs x) := by
  unfold withdrawActive
  split
  case h_2 => exact regsBut_refl _ _
  case h_1 b hb =>
    extract_lets u
    have hu : regsBut s u (txRegs x) := regsBut_of_regs rfl _
    split_ifs
    · exact regsBut_trans hu (regsBut_endTx u x b _)
    · exact regsBut_trans hu (regsBut_endTx u x b _)
    · exact regsBut_trans hu (regsBut_setTx u x b _)

theorem regsBut_markBoff (s : State) (x : Nat) : regsBut s (markBoff s x) (txRegs x) := by
  unfold markBoff
  split
  · refine regsBut_foldl (fun b hb t ht => ?_) (regsBut_refl _ _)
    have hlt : b < 64 := by
      have := List.mem_range.1 hb
      omega
    split
    · exact regsBut_setB ht (mem_txRegs.2 (by simp only [CAN_TXB_STAT]; omega)) _
    · exact ht
  · exact regsBut_refl _ _

theorem regsBut_canIrq (s : State) (x k : Nat) : regsBut s (canIrq s x k) (CAN_IRQ x :: dropCounters) := regsBut_raiseIrq s _ _ _

theorem firstBy_mem {α : Type} {le : α → α → Bool} {l : List α} {a : α} (h : firstBy le l = some a) : a ∈ l := by
  induction l with
  | nil => simp [firstBy] at h
  | cons c l ih =>
    simp only [firstBy] at h
    split at h
    case h_1 d hd =>
      split at h
      · simp_all
      · simp only [Option.some.injEq] at h
        subst h
        exact List.mem_cons_of_mem _ (ih hd)
    case h_2 => simp_all

/-- Offering a buffer shows its state alone, and it is one of the controller's own. -/
theorem regsBut_offer (s : State) (x : Nat) : regsBut s (offer s x) ((canBufs s x).map (CAN_TXB_STAT x)) := by
  unfold offer
  split
  case isFalse => exact regsBut_refl _ _
  case isTrue =>
    split
    case h_2 => exact regsBut_refl _ _
    case h_1 b hb =>
      have hmem : b ∈ canBufs s x := (List.mem_filter.1 (firstBy_mem hb)).1
      unfold setTx
      split
      · exact regsBut_setF (regsBut_of_regs rfl _) (f := CAN_TXB_STAT_STATE x b) (List.mem_map.2 ⟨b, hmem, rfl⟩) _
      · exact regsBut_of_regs rfl _

theorem canBufs_subset (s : State) (x : Nat) : (canBufs s x).map (CAN_TXB_STAT x) ⊆ txRegs x := fun j hj => by
  obtain ⟨b, hb, rfl⟩ := List.mem_map.1 hj
  have := List.mem_range.1 hb
  exact mem_txRegs.2 (by simp only [CAN_TXB_STAT]; omega)

end Registers

/-! ### The error state (R372, R374) -/

section Errors

variable {s : State} {x : Nat}

/-- A field that neither the error counters nor the controller's state concern. -/
structure Beside (x : Nat) (g : Field) : Prop where
  state : Apart (CAN_STAT_STATE x) g
  tec : Apart (CAN_STAT_TEC x) g
  rec_ : Apart (CAN_STAT_REC x) g
  rp : Apart (CAN_STAT_RP x) g
  regs : g.reg ∉ txRegs x ∧ g.reg ∉ tally ∧ g.reg ≠ CAN_IRQ x ∧ g.reg ≠ CAN_CNT_BOFF x

theorem ctlAt_showErr (s : State) (x y : Nat) : ctlAt (showErr s x) y = ctlAt s y := rfl

theorem getF_showErr {g : Field} (ht : Apart (CAN_STAT_TEC x) g) (hr : Apart (CAN_STAT_REC x) g) (hp : Apart (CAN_STAT_RP x) g) :
    getF (showErr s x) g = getF s g := by
  unfold showErr
  rw [getF_setB_apart hp, getF_setF_apart hr, getF_setF_apart ht]

theorem canState_showErr (s : State) (x : Nat) : canState (showErr s x) x = canState s x := getF_showErr (by grind) (by grind) (by grind)

/-- The last steps of a change of the error state: it is recorded, and its interrupt flag is raised. -/
theorem told_effect (u : State) (x k code : Nat) (val : List Byte) : (∀ g : Field, g.reg ∉ tally → g.reg ≠ CAN_IRQ x →
      getF (canIrq (record u code x val) x k) g = getF u g) ∧ errs (ctlAt (canIrq (record u code x val) x k) x) = errs (ctlAt u x) := by
  refine ⟨fun g hg hirq => ?_, congrArg errs ((ctlAt_canIrq ..).trans (ctlAt_record ..))⟩
  have hd : g.reg ∉ CAN_IRQ x :: dropCounters := by
    simp only [List.mem_cons, not_or]
    exact ⟨hirq, fun h => hg (dropCounters_subset_tally h)⟩
  have hl : g.reg ∉ lossCounters := fun h => hg (lossCounters_subset_tally h)
  rw [getF_of_regsBut (regsBut_canIrq _ x k) hd, getF_of_regsBut (regsBut_record _ _ _ _) hl]

theorem mem_tally_lt {j : Nat} (h : j ∈ tally) : j < 0x400 := by
  rw [mem_tally] at h
  omega

theorem beside_state_regs (x : Nat) : (CAN_STAT_STATE x).reg ∉ txRegs x ∧ (CAN_STAT_STATE x).reg ∉ tally ∧ (CAN_STAT_STATE x).reg ≠ CAN_IRQ x ∧
    (CAN_STAT_STATE x).reg ≠ CAN_CNT_BOFF x := by
  refine ⟨?_, fun h => absurd (mem_tally_lt h) (by simp only [CAN_STAT]; omega), by simp only [CAN_STAT, CAN_IRQ]; omega,
    by simp only [CAN_STAT, CAN_CNT_BOFF]; omega⟩
  rw [mem_txRegs]
  simp only [CAN_STAT]
  omega

/-- Bus-off is counted, and the buffers that wait are marked. -/
theorem boffCounted_effect (v : State) (x t : Nat) :
    regsBut v (markBoff (bump (modCtl v x fun c => { c with offAt := t }) (CAN_CNT_BOFF_CNT x)) x) (CAN_CNT_BOFF x :: txRegs x) ∧
    errs (ctlAt (markBoff (bump (modCtl v x fun c => { c with offAt := t }) (CAN_CNT_BOFF_CNT x)) x) x) = errs (ctlAt v x) := by
  constructor
  · exact regsBut_trans (regsBut_bump (regsBut_of_regs rfl _) (by simp) _) (regsBut_mono (regsBut_markBoff _ x) (by simp))
  · rw [ctlAt_of_can (markBoff_can ..), ctlAt_bump, ctlAt_modCtl]
    rfl

/-- What a step of the error state leaves: the counters, the state it shows, and the fields beside. -/
def Shows (s u : State) (x st : Nat) : Prop :=
  errs (ctlAt u x) = errs (ctlAt s x) ∧ canState u x = st ∧ ∀ g : Field, Beside x g → getF u g = getF s g

theorem Shows.told {u : State} {st : Nat} (h : Shows s u x st) (k code : Nat) : Shows s (canIrq (record u code x (errBytes u x)) x k) x st := by
  obtain ⟨herrs, hst, hget⟩ := h
  obtain ⟨htold, hterrs⟩ := told_effect u x k code (errBytes u x)
  obtain ⟨-, hstt, hsti, -⟩ := beside_state_regs x
  refine ⟨hterrs.trans herrs, (htold _ hstt hsti).trans hst, fun g hg => ?_⟩
  obtain ⟨-, hgt, hgi, -⟩ := hg.regs
  exact (htold g hgt hgi).trans (hget g hg)

theorem Shows.setState {u : State} {st : Nat} (h : Shows s u x st) {new : Nat} (hnew : new < 8) : Shows s (setF u (CAN_STAT_STATE x) new) x new := by
  obtain ⟨herrs, -, hget⟩ := h
  exact ⟨(congrArg errs (ctlAt_setF ..)).trans herrs, (getF_setF _ _ _ ⟨by simp, by simp⟩).trans (Nat.mod_eq_of_lt hnew),
    fun g hg => (getF_setF_apart hg.state _).trans (hget g hg)⟩

theorem Shows.withdrawn {u : State} {st : Nat} (h : Shows s u x st) : Shows s (withdrawActive u x) x st := by
  obtain ⟨herrs, hst, hget⟩ := h
  obtain ⟨hstx, -⟩ := beside_state_regs x
  exact ⟨(errs_withdrawActive u x).trans herrs, (getF_of_regsBut (regsBut_withdrawActive u x) hstx).trans hst,
    fun g hg => (getF_of_regsBut (regsBut_withdrawActive u x) hg.regs.1).trans (hget g hg)⟩

theorem Shows.boffCounted {u : State} {st : Nat} (h : Shows s u x st) (t : Nat) :
    Shows s (markBoff (bump (modCtl u x fun c => { c with offAt := t }) (CAN_CNT_BOFF_CNT x)) x) x st := by
  obtain ⟨herrs, hst, hget⟩ := h
  obtain ⟨hregs, hboff⟩ := boffCounted_effect u x t
  obtain ⟨hstx, -⟩ := beside_state_regs x
  refine ⟨hboff.trans herrs, (getF_of_regsBut hregs (by simp [hstx])).trans hst, fun g hg => ?_⟩
  obtain ⟨hgx, -, -, hgb⟩ := hg.regs
  exact (getF_of_regsBut hregs (by simp [hgx, hgb])).trans (hget g hg)

theorem shows_showErr (s : State) (x : Nat) : Shows s (showErr s x) x (canState s x) :=
  ⟨congrArg errs (ctlAt_showErr ..), canState_showErr s x, fun _ hg => getF_showErr hg.tec hg.rec_ hg.rp⟩

/-- The error state that the counters ask for. -/
abbrev stateFor (c : CanCtl) : Nat := if 255 < c.tec then csBusOff else if 128 ≤ c.tec ∨ 128 ≤ c.recv then csPassive else csActive

theorem errState_effect (hbus : onBus s x = true) (t : Nat) : Shows s (errState s x t) x (stateFor (ctlAt s x)) := by
  have hshow := shows_showErr s x
  have hbus' : onBus (showErr s x) x = true := by
    rw [onBus, canState_showErr]
    exact hbus
  unfold errState
  extract_lets u c st v w y vp va
  have hc : c = ctlAt s x := rfl
  have hst : st = canState s x := canState_showErr s x
  rw [if_neg (by simp [u, hbus']), hc]
  change Shows s u x _ at hshow
  have hoff : Shows s y x csBusOff := (hshow.withdrawn.setState (by decide)).boffCounted t
  have hpass : Shows s vp x csPassive := hshow.setState (by decide)
  have hact : Shows s va x csActive := hshow.setState (by decide)
  clear_value u y vp va st
  unfold stateFor
  split
  · exact hoff.told 3 0xA005
  split
  · split
    case isTrue h => rwa [← hst, h] at hshow
    case isFalse => exact hpass.told 2 0xA004
  · split
    case isTrue h => rwa [← hst, h] at hshow
    case isFalse => exact hact.told 4 0xA006

end Errors

end Sys2Proof.CanControllers

namespace Sys2Proof.CanControllers

open Sys2Proof Sys2Proof.Machine Sys2Proof.Frame Sys2Proof.HostWrites

/-! ### Errors, bus-off and recovery (R372 to R375) -/

section Confinement

variable {s : State} {x t₀ : Nat}

theorem busSync_shown (hx : x < 4) (hsync : canState s x = csSync) : answers (.busSync x) s (fun t =>
    canState t x = csActive ∧ regsBut s t (CAN_STAT x :: (canBufs s x).map (CAN_TXB_STAT x)) ∧ partsBut s t [.regs, .can]) := by
  refine answers_of_answer rfl (by simp [hx]) ?_
  have hparts := partsBut_of_keeps (busSync_keeps (R := (· ∈ [Part.regs, .can])) s x (allows_of_subset (by decide)) (Keeps.refl ..))
  rw [busSync, if_pos hsync] at hparts ⊢
  have hset : getF (setF s (CAN_STAT_STATE x) csActive) (CAN_STAT_STATE x) = csActive := getF_setF _ _ _ ⟨by simp, by simp⟩
  have hbufs : canBufs (setF s (CAN_STAT_STATE x) csActive) x = canBufs s x := by
    rw [canBufs, getF_setF_apart (by grind), canBufs]
  have hregs : regsBut s (setF s (CAN_STAT_STATE x) csActive) [CAN_STAT x] := regsBut_setF (regsBut_refl _ _) (by simp) _
  have hoffer := regsBut_offer (setF s (CAN_STAT_STATE x) csActive) x
  obtain ⟨hstx, -⟩ := beside_state_regs x
  rw [hbufs] at hoffer
  refine ⟨(getF_of_regsBut hoffer fun h => hstx (canBufs_subset s x h)).trans hset, ?_, hparts⟩
  exact regsBut_trans (regsBut_mono hregs (by simp)) (regsBut_mono hoffer (by simp))

/-- An error is counted and its kind is shown. -/
def errorCounted (s : State) (x lec : Nat) : State := setF (bump s (CAN_CNT_ERR_CNT x)) (CAN_STAT_LEC x) lec

/-- The error counters move. -/
def countersMoved (s : State) (x lec : Nat) (tx dom : Bool) : State :=
  if tx then modCtl (errorCounted s x lec) x fun c => { c with tec := c.tec + 8 }
  else modCtl (errorCounted s x lec) x fun c => { c with recv := c.recv + (if dom then 8 else 1) }

theorem canError_eq {lec : Nat} {tx dom : Bool} (hbus : onBus s x = true) (hack : tx = true → lec ≠ 3) (t : Nat) :
    canError s x t lec tx dom false = errState (countersMoved s x lec tx dom) x t := by
  have hno : (tx && decide (lec = 3)) = false := by
    cases tx
    · rfl
    · simp [hack rfl]
  unfold canError
  rw [if_neg (by simp [hbus])]
  simp only [hno, Bool.false_and, Bool.or_false, Bool.false_eq_true, if_false]
  rfl

theorem getF_countersMoved (s : State) (x lec : Nat) (tx dom : Bool) (g : Field) : getF (countersMoved s x lec tx dom) g = getF (errorCounted s x lec) g := by
  unfold countersMoved
  split
  · exact getF_modCtl ..
  · exact getF_modCtl ..

theorem ctlAt_errorCounted (s : State) (x lec y : Nat) : ctlAt (errorCounted s x lec) y = ctlAt s y := (ctlAt_setF ..).trans (ctlAt_bump ..)

theorem errs_countersMoved (s : State) (x lec : Nat) (tx dom : Bool) : errs (ctlAt (countersMoved s x lec tx dom) x) =
    ((ctlAt s x).tec + (if tx then 8 else 0), (ctlAt s x).recv + (if tx then 0 else if dom then 8 else 1)) := by
  unfold countersMoved
  cases tx
  · rw [if_neg (by decide), ctlAt_modCtl, ctlAt_errorCounted]
    rfl
  · rw [if_pos rfl, ctlAt_modCtl, ctlAt_errorCounted]
    rfl

theorem beside_err (hx : x < 4) : Beside x (CAN_CNT_ERR_CNT x) ∧ Beside x (CAN_STAT_LEC x) := by
  have hreg : ∀ r, (r = 0x2CD2 + 0x100 * x ∨ r = 0x2C01 + 0x100 * x) → r ∉ txRegs x ∧ r ∉ tally ∧ r ≠ CAN_IRQ x ∧ r ≠ CAN_CNT_BOFF x := fun r hr =>
    ⟨by rw [mem_txRegs]; omega, fun h => absurd (mem_tally_lt h) (by omega), by simp only [CAN_IRQ]; omega, by simp only [CAN_CNT_BOFF]; omega⟩
  exact ⟨⟨by grind, by grind, by grind, by grind, hreg _ (Or.inl rfl)⟩, ⟨by grind, by grind, by grind, by grind, hreg _ (Or.inr rfl)⟩⟩

theorem canError_shown {lec : Nat} {tx dom : Bool} (hx : x < 4) (ht : inThisStep s t₀ = true) (hbus : onBus s x = true) (h1 : 1 ≤ lec) (h6 : lec ≤ 6)
    (hack : tx = true → lec ≠ 3) : answers (.canError x t₀ lec tx dom false) s (fun t =>
    getF t (CAN_CNT_ERR_CNT x) = min (getF s (CAN_CNT_ERR_CNT x) + 1) (2 ^ 32 - 1) ∧ getF t (CAN_STAT_LEC x) = lec ∧
    (ctlAt t x).tec = (ctlAt s x).tec + (if tx then 8 else 0) ∧
    (ctlAt t x).recv = (ctlAt s x).recv + (if tx then 0 else if dom then 8 else 1) ∧
    canState t x = stateFor (ctlAt t x) ∧ partsBut s t [.regs, .hif, .recd, .can]) := by
  refine answers_of_answer rfl (by simp [hx, ht, h1, h6]) ?_
  have hparts := partsBut_of_keeps (canError_keeps (R := (· ∈ [Part.regs, .hif, .recd, .can])) s x (absTick s t₀) lec tx dom false
    (allows_of_subset (by decide)) (Keeps.refl ..))
  rw [canError_eq hbus hack] at hparts ⊢
  have hstate : canState (countersMoved s x lec tx dom) x = canState s x :=
    (getF_countersMoved ..).trans ((getF_setF_apart (by grind) _).trans (getF_bump_apart (by grind) _))
  obtain ⟨herrs, hst, hget⟩ := errState_effect (s := countersMoved s x lec tx dom) (by rw [onBus, hstate]; exact hbus) (absTick s t₀)
  obtain ⟨herr, hlec⟩ := beside_err hx
  have hcounts := herrs.trans (errs_countersMoved s x lec tx dom)
  have htec : (ctlAt (errState (countersMoved s x lec tx dom) x (absTick s t₀)) x).tec = (ctlAt s x).tec + (if tx then 8 else 0) := congrArg Prod.fst hcounts
  have hrec : (ctlAt (errState (countersMoved s x lec tx dom) x (absTick s t₀)) x).recv = (ctlAt s x).recv + (if tx then 0 else if dom then 8 else 1) :=
    congrArg Prod.snd hcounts
  refine ⟨?_, ?_, htec, hrec, ?_, hparts⟩
  · rw [hget _ herr, getF_countersMoved, errorCounted, getF_setF_apart (by grind)]
    exact getF_bump _ _ _ ⟨by simp, by simp⟩
  · rw [hget _ hlec, getF_countersMoved]
    exact (getF_setF _ _ _ ⟨by simp, by simp⟩).trans (Nat.mod_eq_of_lt (show lec < 2 ^ 3 by omega))
  · rw [hst]
    have h1 := congrArg Prod.fst herrs
    have h2 := congrArg Prod.snd herrs
    simp only [errs] at h1 h2
    rw [stateFor, stateFor, h1, h2]

theorem boDelay_shown (hx : x < 4) (ht : inThisStep s t₀ = true) (hoff : canState s x = csBusOff) (hauto : flag s (CAN_CTRL_RECOV x) = false)
    (hover : (ctlAt s x).offAt + getF s (CAN_BOFF_BO_DLY x) * perMs ≤ absTick s t₀) : answers (.boDelayExpiry x t₀) s (fun t =>
    canState t x = csRecovering ∧ regsBut s t [CAN_STAT x] ∧ partsBut s t [.regs]) := by
  refine answers_of_answer rfl (by simp [hx, ht]) ?_
  rw [boDelay, if_pos (by simp [hoff, hauto, hover])]
  exact ⟨getF_setF _ _ _ ⟨by simp, by simp⟩, regsBut_setF (regsBut_refl _ _) (by simp) _,
    partsBut_of_keeps (setF_keeps _ _ _ (allows_of_subset (by decide)) (Keeps.refl ..))⟩

/-- The counters of a controller are 0 again, and shown. -/
def recovered (s : State) (x : Nat) : State := setF (showErr (modCtl s x fun c => { c with tec := 0, recv := 0 }) x) (CAN_STAT_STATE x) csActive

theorem showErr_shown (s : State) (x : Nat) : getF (showErr s x) (CAN_STAT_TEC x) = min 255 (ctlAt s x).tec ∧ getF (showErr s x) (CAN_STAT_REC x) = min 127 (ctlAt s x).recv := by
  unfold showErr
  constructor
  · rw [getF_setB_apart (by grind), getF_setF_apart (by grind)]
    refine (getF_setF _ _ _ ⟨by simp, by simp⟩).trans (Nat.mod_eq_of_lt ?_)
    show min 255 _ < 2 ^ 8
    omega
  · rw [getF_setB_apart (by grind)]
    refine (getF_setF _ _ _ ⟨by simp, by simp⟩).trans (Nat.mod_eq_of_lt ?_)
    show min 127 _ < 2 ^ 7
    omega

theorem recovered_effect (s : State) (x : Nat) : errs (ctlAt (recovered s x) x) = (0, 0) ∧ canState (recovered s x) x = csActive ∧
    getF (recovered s x) (CAN_STAT_TEC x) = 0 ∧ getF (recovered s x) (CAN_STAT_REC x) = 0 := by
  have hctl : ctlAt (modCtl s x fun c => { c with tec := 0, recv := 0 }) x = { ctlAt s x with tec := 0, recv := 0 } := ctlAt_modCtl ..
  obtain ⟨htec, hrec⟩ := showErr_shown (modCtl s x fun c => { c with tec := 0, recv := 0 }) x
  rw [hctl] at htec hrec
  refine ⟨?_, getF_setF _ _ _ ⟨by simp, by simp⟩, (getF_setF_apart (by grind) _).trans htec, (getF_setF_apart (by grind) _).trans hrec⟩
  rw [recovered, ctlAt_setF, ctlAt_showErr, hctl]
  rfl

theorem recoveryDone_shown (hx : x < 4) (hrec : canState s x = csRecovering) : answers (.recoveryDone x) s (fun t =>
    canState t x = csActive ∧ (ctlAt t x).tec = 0 ∧ (ctlAt t x).recv = 0 ∧ getF t (CAN_STAT_TEC x) = 0 ∧ getF t (CAN_STAT_REC x) = 0 ∧
    flag t (CAN_IRQ_ACTIVE x) = true ∧ partsBut s t [.regs, .hif, .recd, .can]) := by
  refine answers_of_answer rfl (by simp [hx]) ?_
  have hparts := partsBut_of_keeps (recoveryDone_keeps (R := (· ∈ [Part.regs, .hif, .recd, .can])) s x (allows_of_subset (by decide)) (Keeps.refl ..))
  have heq : recoveryDone s x = offer (canIrq (record (recovered s x) 0xA006 x (errBytes (recovered s x) x)) x 4) x := if_pos hrec
  rw [heq] at hparts ⊢
  obtain ⟨hcnt, hst, htec, hrecv⟩ := recovered_effect s x
  generalize recovered s x = u at *
  obtain ⟨htold, hterrs⟩ := told_effect u x 4 0xA006 (errBytes u x)
  have hoffer := regsBut_mono (regsBut_offer (canIrq (record u 0xA006 x (errBytes u x)) x 4) x) (canBufs_subset _ x)
  have herrs := (errs_offer (canIrq (record u 0xA006 x (errBytes u x)) x 4) x).trans (hterrs.trans hcnt)
  obtain ⟨hstx, hstt, hsti, -⟩ := beside_state_regs x
  have hget : ∀ g : Field, g.reg = CAN_STAT x → getF (offer (canIrq (record u 0xA006 x (errBytes u x)) x 4) x) g = getF u g := fun g hg => by
    rw [getF_of_regsBut hoffer (hg ▸ hstx), htold g (hg ▸ hstt) (hg ▸ hsti)]
  refine ⟨(hget _ rfl).trans hst, congrArg Prod.fst herrs, congrArg Prod.snd herrs, (hget _ rfl).trans htec, (hget _ rfl).trans hrecv, ?_, hparts⟩
  rw [flag_of_regsBut hoffer (by rw [mem_txRegs]; simp only [CAN_IRQ]; omega)]
  refine flag_raiseIrq _ _ _ _ ?_ ⟨by simp, by simp⟩
  rw [mem_dropCounters]
  simp only [CAN_IRQ]
  omega

end Confinement

end Sys2Proof.CanControllers

namespace Sys2Proof.CanControllers

open Sys2Proof Sys2Proof.Machine Sys2Proof.Frame Sys2Proof.HostWrites

/-! ### Writes of CAN_CTRL (R354, R358, R375) -/

section Control

variable {s : State} {h x : Nat}

/-- The row of CAN_CTRL in the register index: RECOVER acts. -/
def canCtrlRow : RegRow :=
  ⟨0x2C00, 4, 256, 1, 1, 0x00000F00#32, 0x00001FD7#32, 0x00000000#32, 0x00000000#32, 0x00000000#32, 0x00000020#32⟩

theorem plain_canCtrl : PlainRow canCtrlRow := by decide

/-- CAN_CTRL is a register of the common kind. -/
theorem canCtrl_register (hx : x < 4) : regRow (CAN_CTRL x) = some canCtrlRow ∧ seenAsStored (CAN_CTRL x) = true ∧ storedByRow (CAN_CTRL x) = true ∧
    isSelector (CAN_CTRL x) = false := by
  revert x
  decide

/-- The word that a write of CAN_CTRL stores. -/
def ctrlWord (s : State) (x : Nat) (m val : Word) : Word := canStore (CAN_CTRL x) (takenWord canCtrlRow (rd s (CAN_CTRL x)) m val)

/-- Storing alters ISOBUS alone. -/
theorem bitsOf_ctrlWord (s : State) (x : Nat) (m val : Word) {hi lo : Nat} (hle : lo ≤ hi) (hapart : hi < 2 ∨ 2 < lo) :
    bitsOf (ctrlWord s x m val) hi lo = bitsOf (takenWord canCtrlRow (rd s (CAN_CTRL x)) m val) hi lo := by
  unfold ctrlWord canStore
  split
  · exact bitsOf_bitsSet_ne _ _ _ _ _ _ (by decide) hle hapart.symm
  · rfl

/-- A field of CAN_CTRL beside the bits written and ISOBUS stands. -/
theorem ctrlWord_stands {m val : Word} {hi lo : Nat} (hle : lo ≤ hi) (hapart : hi < 2 ∨ 2 < lo)
    (hout : ∀ j < hi - lo + 1, lo + j < 32 ∧ (canCtrlRow.wo ||| (m &&& canCtrlRow.rw)).getLsbD (lo + j) = false) :
    bitsOf (ctrlWord s x m val) hi lo = bitsOf (rd s (CAN_CTRL x)) hi lo := by
  rw [bitsOf_ctrlWord s x m val hle hapart, bitsOf_takenWord_out plain_canCtrl hout]

theorem committed_ctrlWord (s : State) (x : Nat) (m val : Word) : committed canCtrlRow (rd s (CAN_CTRL x)) (ctrlWord s x m val) = ctrlWord s x m val := by
  have htaken : ∀ j < 32, (canCtrlRow.rw ||| canCtrlRow.wo).getLsbD j = false →
      (takenWord canCtrlRow (rd s (CAN_CTRL x)) m val).getLsbD j = (rd s (CAN_CTRL x)).getLsbD j := fun j hj hno => by
    rw [BitVec.getLsbD_or, Bool.or_eq_false_iff] at hno
    obtain ⟨hrw, hwo⟩ := hno
    simp [getLsbD_takenWord plain_canCtrl hj, hrw, hwo]
  have hbeside : ∀ j < 32, (canCtrlRow.rw ||| canCtrlRow.wo).getLsbD j = false →
      (ctrlWord s x m val).getLsbD j = (rd s (CAN_CTRL x)).getLsbD j := fun j hj hno => by
    have h2 : j ≠ 2 := by
      rintro rfl
      revert hno
      decide
    have hbit := congrArg (·.testBit 0) (bitsOf_ctrlWord s x m val (le_refl j) (by omega))
    simp only [testBit_bitsOf] at hbit
    simpa using hbit.trans (by simpa using htaken j hj hno)
  refine BitVec.eq_of_getLsbD_eq fun j hj => ?_
  have hw1c : canCtrlRow.w1c = 0 := rfl
  have hw1s : canCtrlRow.w1s = 0 := rfl
  simp only [committed, hw1c, hw1s, BitVec.getLsbD_or, BitVec.getLsbD_and, BitVec.getLsbD_not, hj]
  have := hbeside j hj
  rw [BitVec.getLsbD_or] at this
  revert this
  cases canCtrlRow.rw.getLsbD j <;> cases canCtrlRow.wo.getLsbD j <;> simp
  exact fun h => h.symm

theorem mayWrite_canCtrl (hx : x < 4) (mask v : Word) : mayWrite s h (CAN_CTRL x) mask v = ownerOrService s h := by
  have hi : 0x2C00 ≤ CAN_CTRL x := by simp only [CAN_CTRL]; omega
  simp (disch := omega) only [mayWrite, (canCtrl_register hx).2.2.2, stateRes_none (show 0x0F00 ≤ CAN_CTRL x by omega), SYS_SUPV_CTRL, ACT_CH_ALM, PWM_LOADALL,
    inRange, ringPage, decide_eq_true_eq, Bool.false_eq_true, if_false, if_neg]
  simp (disch := omega) [timFree, TIM_CTRL, inRange]
  omega

theorem writeEffect_canCtrl {s0 s1 : State} (hx : x < 4) (old v : Word) : writeEffect s0 s1 s h (CAN_CTRL x) old v = canEffect s (CAN_CTRL x) old := by
  have hi : 0x2C00 ≤ CAN_CTRL x ∧ CAN_CTRL x < 0x3000 := by simp only [CAN_CTRL]; omega
  simp (disch := omega) only [writeEffect, (canCtrl_register hx).2.2.2, stateRes_none (show 0x0F00 ≤ CAN_CTRL x by omega), MON_FLT, SCH_QUOTA, CLK_BRST, ACT_CH_ALM,
    ETH_BYP_STAT, inRange, ringPage, canPage, decide_eq_true_eq, Bool.false_eq_true, if_false, if_neg, if_pos]

theorem storeValue_canCtrl (hx : x < 4) (v : Word) : storeValue s h (CAN_CTRL x) v = some (canStore (CAN_CTRL x) v) := by
  have hi : 0x2C00 ≤ CAN_CTRL x ∧ CAN_CTRL x < 0x3000 := by simp only [CAN_CTRL]; omega
  simp (disch := omega) only [storeValue, GNS_SLOT_CFG, inRange, ringPage, canPage, decide_eq_true_eq, if_neg, if_pos]

theorem stateRule_canCtrl (hx : x < 4) (mask old v : Word) : stateRule s h (CAN_CTRL x) mask old v = canCheck s (CAN_CTRL x) old v := by
  have hi : 0x2C00 ≤ CAN_CTRL x ∧ CAN_CTRL x < 0x3000 := by simp only [CAN_CTRL]; omega
  simp (disch := omega) only [stateRule, CLK_BRST, inRange, ringPage, canPage, decide_eq_true_eq, Bool.and_eq_true, if_neg, if_pos]

/-- The rule of CAN_CTRL for a write that changes neither FD_EN nor ISOBUS. -/
theorem canCheck_ctrl {m val : Word} (hpool : bitsOf (rd s (CAN_CTRL x)) 0 0 = 0 → bitsOf (ctrlWord s x m val) 0 0 = 1 → poolOk s x = true ∧ flag s (CAN_CTRL_ISOBUS x) = false)
    (hm : (canCtrlRow.wo ||| (m &&& canCtrlRow.rw)) &&& 6#32 = 0) (hx : x < 4)
    (hrec : bitsOf (ctrlWord s x m val) 5 5 = 0 ∨ canState s x = csBusOff) : canCheck s (CAN_CTRL x) (rd s (CAN_CTRL x)) (ctrlWord s x m val) = .ok := by
  have hdiv : (CAN_CTRL x - 0x2C00) / 256 = x := by simp only [CAN_CTRL]; omega
  have hmod : CAN_CTRL x % 256 = 0 := by simp only [CAN_CTRL]; omega
  have hbit : ∀ j < 32, (6#32).getLsbD j = true → (canCtrlRow.wo ||| (m &&& canCtrlRow.rw)).getLsbD j = false := fun j hj hb => by
    have := congrArg (·.getLsbD j) hm
    simpa [BitVec.getLsbD_and, hb] using this
  have hfd : bitsOf (ctrlWord s x m val) 1 1 = bitsOf (rd s (CAN_CTRL x)) 1 1 := ctrlWord_stands (by decide) (by decide) fun j hj => by
    obtain rfl : j = 0 := by omega
    exact ⟨by decide, hbit 1 (by decide) (by decide)⟩
  have hiso : x = 0 → bitsOf (ctrlWord s x m val) 2 2 = bitsOf (rd s (CAN_CTRL x)) 2 2 := by
    rintro rfl
    rw [ctrlWord, canStore, if_neg (by decide)]
    refine bitsOf_takenWord_out plain_canCtrl fun j hj => ?_
    obtain rfl : j = 0 := by omega
    exact ⟨by decide, hbit 2 (by decide) (by decide)⟩
  have hen : (decide (bitsOf (rd s (CAN_CTRL x)) 0 0 = 0 ∧ bitsOf (ctrlWord s x m val) 0 0 = 1) && (!poolOk s x ||
      (decide (x = 0 ∧ bitsOf (ctrlWord s x m val) 2 2 = 1) && (decide (bitsOf (ctrlWord s x m val) 1 1 = 1) || !rate250 s x)))) = false := by
    rw [Bool.and_eq_false_imp, decide_eq_true_eq]
    rintro ⟨h0, h1⟩
    obtain ⟨hpool, hoff⟩ := hpool h0 h1
    have hno : ¬(x = 0 ∧ bitsOf (ctrlWord s x m val) 2 2 = 1) := by
      rintro ⟨hx0, h1⟩
      rw [hiso hx0] at h1
      rw [flag, decide_eq_false_iff_not, not_not] at hoff
      exact absurd (h1.symm.trans hoff) (by decide)
    simp [hpool, hno]
  have hsame : (bitsDiffer (rd s (CAN_CTRL x)) (ctrlWord s x m val) 1 1 || (decide (x = 0) && bitsDiffer (rd s (CAN_CTRL x)) (ctrlWord s x m val) 2 2)) = false := by
    rw [bitsDiffer, hfd, bitsDiffer]
    by_cases hx0 : x = 0
    · simp [hiso hx0]
    · simp [hx0]
  rw [canCheck]
  simp only [hdiv, hmod, if_true, hen, hsame, Bool.false_eq_true, if_false, Bool.not_false, Bool.or_true]
  have hor : (decide (bitsOf (ctrlWord s x m val) 5 5 = 0) || decide (canState s x = csBusOff)) = true := by simpa using hrec
  rw [hor]
  rfl

/-- A write of CAN_CTRL that is accepted. -/
theorem hostItems_canCtrl {m val : Word} (hx : x < 4) (hm : m &&& writable canCtrlRow ≠ 0) (hs : serves s h) (how : ownerOrService s h = true)
    (hstart : startsNow s h [item (CAN_CTRL x) m val])
    (hcheck : canCheck (ahead s) (CAN_CTRL x) (rd s (CAN_CTRL x)) (ctrlWord s x m val) = .ok) :
    hostItems s h [item (CAN_CTRL x) m val] = (settled s h (scrub
      (canEffect (wr (ahead s) (CAN_CTRL x) (ctrlWord s x m val)) (CAN_CTRL x) (rd s (CAN_CTRL x))) (CAN_CTRL x)), true) := by
  obtain ⟨hrow, hseen, hstored, -⟩ := canCtrl_register hx
  have hval : (val &&& (m &&& (canCtrlRow.rw ||| canCtrlRow.wo))) &&& (m &&& (canCtrlRow.rw ||| canCtrlRow.wo)) = val &&& (m &&& (canCtrlRow.rw ||| canCtrlRow.wo)) := by
    rw [BitVec.and_assoc, BitVec.and_self]
  have hp : presented canCtrlRow (rd s (CAN_CTRL x)) m val = takenWord canCtrlRow (rd s (CAN_CTRL x)) m val := by
    rw [← presented_writable plain_canCtrl, takenWord]
    exact presented_merged plain_canCtrl hval
  have htrip : isTripClear (item (CAN_CTRL x) m val) = false := by
    have hno : inRange 0x1C00 0x1DFF (CAN_CTRL x) = false := by
      simp only [inRange, CAN_CTRL, decide_eq_false_iff_not]
      omega
    simp [isTripClear, item, hno]
  have := hostItems_byRow (w := item (CAN_CTRL x) m val) (r := canCtrlRow) (v := ctrlWord s x m val) hs hstart htrip hrow hm rfl hseen hstored
    ((mayWrite_canCtrl hx _ _).trans how)
    (by
      show storeValue (ahead s) h (CAN_CTRL x) (presented canCtrlRow (rd s (CAN_CTRL x)) m val) = _
      rw [hp, storeValue_canCtrl hx, ctrlWord])
    ((stateRule_canCtrl hx _ _ _).trans hcheck)
  rw [show (item (CAN_CTRL x) m val).idx = CAN_CTRL x from rfl, committed_ctrlWord, writeEffect_canCtrl hx] at this
  exact this

/-! ### Effects of the enable -/

theorem getF_showCan {g : Field} (hfw : g.reg ≠ CAN_FIFO_CFG x 0) (hg : ∀ b < 64, Apart (CAN_TXB_STAT_TT x b) g ∧ Apart (CAN_TXB_STAT_RSV x b) g) (s : State) :
    getF (showCan s x) g = getF s g := by
  have hfold : ∀ l : List Nat, (∀ b ∈ l, b < 64) → ∀ u, getF (l.foldl (fun s b =>
      setB (setB s (CAN_TXB_STAT_TT x b) (ttNames s x b).isSome) (CAN_TXB_STAT_RSV x b) (txReserved s x b)) u) g = getF u g := by
    intro l hl
    induction l with
    | nil => exact fun u => rfl
    | cons b bs ih =>
      intro u
      obtain ⟨htt, hrsv⟩ := hg b (hl b List.mem_cons_self)
      exact (ih (fun k hk => hl k (List.mem_cons_of_mem _ hk)) _).trans ((getF_setB_apart hrsv _).trans (getF_setB_apart htt _))
  unfold showCan
  extract_lets u
  exact (getF_wr_apart hfw _).trans (hfold _ (fun b hb => List.mem_range.1 hb) s)

/-- A field outside the transmit buffers and the first FIFO. -/
theorem getF_showCan_other {g : Field} (hg : g.reg ∉ CAN_FIFO_CFG x 0 :: txRegs x) (hw : g.lo ≤ g.hi) (s : State) : getF (showCan s x) g = getF s g := by
  simp only [List.mem_cons, not_or, mem_txRegs] at hg
  obtain ⟨hfw, hout⟩ := hg
  refine getF_showCan hfw (fun b hb => ?_) s
  have hne : g.reg ≠ CAN_TXB_STAT x b := by simp only [CAN_TXB_STAT]; omega
  exact ⟨⟨by simp, hw, Or.inl hne⟩, ⟨by simp, hw, Or.inl hne⟩⟩

theorem txState_showCan (s : State) (x b : Nat) : txState (showCan s x) x b = txState s x b :=
  getF_showCan (by grind) (fun k hk => by grind) s

theorem ctlAt_showCan (s : State) (x y : Nat) : ctlAt (showCan s x) y = ctlAt s y :=
  ctlAt_of_can ((showCan_keeps (R := (· ∈ [Part.regs])) s x (allows_of_subset (by decide)) (Keeps.refl ..)).same .can (by decide)) y

/-- The buffers of a controller that is enabled are free. -/
def buffersFreed (s : State) (x : Nat) : State :=
  (List.range 64).foldl (fun s b => setB (setTx s x b tbFree) (CAN_TXB_STAT_BOFF x b) false) s

theorem txState_setTx {b st : Nat} (hb : b < 64) (hst : st < 16) (s : State) (x : Nat) : txState (setTx s x b st) x b = st := by
  rw [setTx, if_pos hb]
  exact (getF_setF _ _ _ ⟨by simp, by simp⟩).trans (Nat.mod_eq_of_lt hst)

theorem txState_setTx_ne {b k : Nat} (hk : k ≠ b) (s : State) (x st : Nat) : txState (setTx s x b st) x k = txState s x k := by
  unfold setTx
  split
  · exact getF_setF_apart (by grind) _
  · rfl

theorem txState_buffersFreed {b : Nat} (hb : b < 64) (s : State) (x : Nat) : txState (buffersFreed s x) x b = tbFree := by
  have hfold : ∀ l : List Nat, (∀ k ∈ l, k < 64) → ∀ u, (b ∈ l ∨ txState u x b = tbFree) →
      txState (l.foldl (fun s b => setB (setTx s x b tbFree) (CAN_TXB_STAT_BOFF x b) false) u) x b = tbFree := by
    intro l hl
    induction l with
    | nil => exact fun u hu => hu.resolve_left (by simp)
    | cons k ks ih =>
      intro u hu
      refine ih (fun j hj => hl j (List.mem_cons_of_mem _ hj)) _ ?_
      have hboff : txState (setB (setTx u x k tbFree) (CAN_TXB_STAT_BOFF x k) false) x b = txState (setTx u x k tbFree) x b := getF_setB_apart (by grind) _
      by_cases hk : b = k
      · right
        rw [hboff, hk, txState_setTx (hk ▸ hb) (by decide)]
      · rcases hu with hmem | hfree
        · exact Or.inl ((List.mem_cons.1 hmem).resolve_left hk)
        · right
          rw [hboff, txState_setTx_ne hk, hfree]
  exact hfold _ (fun k hk => List.mem_range.1 hk) s (Or.inl (List.mem_range.2 hb))

theorem regsBut_buffersFreed (s : State) (x : Nat) : regsBut s (buffersFreed s x) (txRegs x) := by
  refine regsBut_foldl (fun b hb t ht => ?_) (regsBut_refl _ _)
  have hlt := List.mem_range.1 hb
  exact regsBut_setB (regsBut_trans ht (regsBut_setTx t x b _)) (mem_txRegs.2 (by simp only [CAN_TXB_STAT]; omega)) _

/-- The frames that wait or are sent on a controller that is disabled are aborted. -/
def framesAborted (s : State) (x : Nat) : State :=
  (List.range 64).foldl (fun s b =>
    if txState s x b = tbPending ∨ txState s x b = tbActive then
      setTx (modBuf s x b fun q => { q with eligible := false, slot := none, abort := false, ended := false }) x b tbAborted
    else s) s

theorem txState_framesAborted {b : Nat} (hb : b < 64) (s : State) (x : Nat) : txState (framesAborted s x) x b =
    if txState s x b = tbPending ∨ txState s x b = tbActive then tbAborted else txState s x b := by
  have hfold : ∀ l : List Nat, (∀ k ∈ l, k < 64) → ∀ u, txState (l.foldl (fun s b =>
      if txState s x b = tbPending ∨ txState s x b = tbActive then
        setTx (modBuf s x b fun q => { q with eligible := false, slot := none, abort := false, ended := false }) x b tbAborted
      else s) u) x b = if b ∈ l ∧ (txState u x b = tbPending ∨ txState u x b = tbActive) then tbAborted else txState u x b := by
    intro l hl
    induction l with
    | nil => exact fun u => by simp
    | cons k ks ih =>
      intro u
      rw [List.foldl_cons, ih (fun j hj => hl j (List.mem_cons_of_mem _ hj))]
      by_cases hw : txState u x k = tbPending ∨ txState u x k = tbActive
      · rw [if_pos hw]
        by_cases hk : b = k
        · subst hk
          rw [txState_setTx hb (by decide)]
          have hno : ¬(tbAborted = tbPending ∨ tbAborted = tbActive) := by decide
          rw [if_neg fun h => hno h.2, if_pos ⟨List.mem_cons_self, hw⟩]
        · rw [txState_setTx_ne hk, show ∀ f, txState (modBuf u x k f) x b = txState u x b from fun f => getF_modBuf ..]
          simp [hk]
      · rw [if_neg hw]
        by_cases hk : b = k
        · subst hk
          simp [hw]
        · simp [hk]
  rw [framesAborted, hfold _ (fun k hk => List.mem_range.1 hk)]
  simp [hb]

theorem regsBut_framesAborted (s : State) (x : Nat) : regsBut s (framesAborted s x) (txRegs x) := by
  refine regsBut_foldl (fun b hb t ht => ?_) (regsBut_refl _ _)
  split
  · exact regsBut_trans ht (regsBut_before (regsBut_setTx _ x b _) rfl)
  · exact ht

/-- The controller starts anew in a state, with no frame in progress and its counters 0. -/
def started (s : State) (x st : Nat) : State :=
  showErr (modCtl (setF s (CAN_STAT_STATE x) st) x fun c => { c with active := none, tec := 0, recv := 0 }) x

theorem regsBut_showErr (s : State) (x : Nat) : regsBut s (showErr s x) [CAN_STAT x] :=
  regsBut_setB (regsBut_setF (regsBut_setF (regsBut_refl _ _) (by simp) _) (by simp) _) (by simp) _

theorem regsBut_modCtl (s : State) (x : Nat) (f : CanCtl → CanCtl) (l : List Nat) : regsBut s (modCtl s x f) l := regsBut_of_regs rfl _

theorem started_effect {st : Nat} (hst : st < 8) (s : State) (x : Nat) : canState (started s x st) x = st ∧ (ctlAt (started s x st) x).active = none ∧
    (ctlAt (started s x st) x).tec = 0 ∧ (ctlAt (started s x st) x).recv = 0 ∧ regsBut s (started s x st) [CAN_STAT x] := by
  have hctl : ctlAt (started s x st) x = { ctlAt s x with active := none, tec := 0, recv := 0 } := (ctlAt_showErr ..).trans (ctlAt_modCtl ..)
  rw [hctl]
  refine ⟨?_, rfl, rfl, rfl, ?_⟩
  · refine (canState_showErr ..).trans ((getF_modCtl ..).trans ((getF_setF _ _ _ ⟨by simp, by simp⟩).trans (Nat.mod_eq_of_lt hst)))
  · exact regsBut_trans (regsBut_setF (regsBut_refl _ _) (by simp) _) (regsBut_trans (regsBut_modCtl _ _ _ _) (regsBut_showErr _ _))

theorem canEnable_on (hen : flag s (CAN_CTRL_EN x) = true) : canEnable s x false = started (buffersFreed (showCan s x) x) x csSync := by
  unfold canEnable
  rw [hen]
  rfl

theorem canEnable_off (hen : flag s (CAN_CTRL_EN x) = false) : canEnable s x true = started (framesAborted (showCan s x) x) x csOff := by
  unfold canEnable
  rw [hen]
  rfl

theorem canEnable_same {was : Bool} (hen : flag s (CAN_CTRL_EN x) = was) : canEnable s x was = showCan s x := by
  unfold canEnable
  rw [hen]
  cases was <;> rfl

theorem canEffect_ctrl (hx : x < 4) (old : Word) : canEffect s (CAN_CTRL x) old =
    if flag s (CAN_CTRL_RECOVER x) then canRecover (canEnable (setF s (CAN_CTRL_RECOVER x) 0) x (decide (bitsOf old 0 0 = 1))) x
    else canEnable (setF s (CAN_CTRL_RECOVER x) 0) x (decide (bitsOf old 0 0 = 1)) := by
  have hdiv : (CAN_CTRL x - 0x2C00) / 256 = x := by simp only [CAN_CTRL]; omega
  have hmod : CAN_CTRL x % 256 = 0 := by simp only [CAN_CTRL]; omega
  simp only [canEffect, hdiv, hmod, if_true]

end Control

end Sys2Proof.CanControllers

namespace Sys2Proof.CanControllers

open Sys2Proof Sys2Proof.Machine Sys2Proof.Frame Sys2Proof.HostWrites

section Enables

variable {s : State} {h x : Nat}

/-- The bit that a field of one bit shows. -/
theorem getLsbD_of_bitsOf {w : Word} {j n : Nat} (hw : bitsOf w j j = n) : w.getLsbD j = n.testBit 0 := by
  rw [← hw, testBit_bitsOf]
  simp

/-- The registers that an enable may write. -/
abbrev enableRegs (x : Nat) : List Nat := CAN_FIFO_CFG x 0 :: txRegs x ++ [CAN_STAT x]

theorem regsBut_showCan (s : State) (x : Nat) : regsBut s (showCan s x) (CAN_FIFO_CFG x 0 :: txRegs x) := by
  unfold showCan
  extract_lets u
  have hu : regsBut s u (CAN_FIFO_CFG x 0 :: txRegs x) := by
    refine regsBut_foldl (fun b hb t ht => ?_) (regsBut_refl _ _)
    have hlt := List.mem_range.1 hb
    have hmem : CAN_TXB_STAT x b ∈ CAN_FIFO_CFG x 0 :: txRegs x := List.mem_cons_of_mem _ (mem_txRegs.2 (by simp only [CAN_TXB_STAT]; omega))
    exact regsBut_setB (regsBut_setB ht hmem _) hmem _
  exact regsBut_setB hu List.mem_cons_self _

theorem ctrl_not_enableRegs (x : Nat) : CAN_CTRL x ∉ enableRegs x := by
  simp only [enableRegs, List.cons_append, List.mem_cons, List.mem_append, mem_txRegs, List.not_mem_nil, or_false]
  simp only [CAN_CTRL, CAN_FIFO_CFG, CAN_STAT]
  omega

theorem stat_not_txRegs (x : Nat) : CAN_STAT x ∉ CAN_FIFO_CFG x 0 :: txRegs x := by
  simp only [List.mem_cons, mem_txRegs]
  simp only [CAN_FIFO_CFG, CAN_STAT]
  omega

theorem txb_not_stat (x b : Nat) : CAN_TXB_STAT x b ∉ [CAN_STAT x] := by
  simp only [List.mem_singleton, CAN_TXB_STAT, CAN_STAT]
  omega

/-- The state in which a write of CAN_CTRL comes into force: the word is stored, and RECOVER has been taken. -/
def ctrlStored (s : State) (x : Nat) (w : Word) : State := setF (wr (ahead s) (CAN_CTRL x) w) (CAN_CTRL_RECOVER x) 0

theorem getF_ctrlStored {hi lo : Nat} (hle : lo ≤ hi) (hout : hi < 5 ∨ 5 < lo) (s : State) (x : Nat) (w : Word) :
    getF (ctrlStored s x w) ⟨CAN_CTRL x, hi, lo⟩ = bitsOf w hi lo :=
  (getF_setF_apart ⟨by simp, hle, Or.inr (by simp; omega)⟩ _).trans (congrArg (bitsOf · hi lo) (rd_wr_self ..))

theorem getF_ctrlStored_ne {g : Field} (hg : g.reg ≠ CAN_CTRL x) (s : State) (w : Word) : getF (ctrlStored s x w) g = getF s g :=
  (getF_wr_apart hg _).trans ((getF_wr_apart hg _).trans (getF_ahead ..))

theorem ctlAt_ctrlStored (s : State) (x : Nat) (w : Word) (y : Nat) : ctlAt (ctrlStored s x w) y = ctlAt s y := rfl

/-- What a write of CAN_CTRL does once it is stored. -/
theorem canEffect_stored (hx : x < 4) (w : Word) : canEffect (wr (ahead s) (CAN_CTRL x) w) (CAN_CTRL x) (rd s (CAN_CTRL x)) =
    if w.getLsbD 5 then canRecover (canEnable (ctrlStored s x w) x (flag s (CAN_CTRL_EN x))) x
    else canEnable (ctrlStored s x w) x (flag s (CAN_CTRL_EN x)) := by
  have hrec : flag (wr (ahead s) (CAN_CTRL x) w) (CAN_CTRL_RECOVER x) = w.getLsbD 5 := by
    rw [flag_bit, rd_wr_self]
  have hwas : decide (bitsOf (rd s (CAN_CTRL x)) 0 0 = 1) = flag s (CAN_CTRL_EN x) := by
    have : bitsOf (rd s (CAN_CTRL x)) 0 0 < 2 := bitsOf_lt _ _ _
    rw [flag]
    show decide (bitsOf (rd s (CAN_CTRL x)) 0 0 = 1) = decide (bitsOf (rd s (CAN_CTRL x)) 0 0 ≠ 0)
    grind
  rw [canEffect_ctrl hx, hrec, hwas]
  rfl

/-- What the write leaves: the fields of CAN_CTRL that do not act, and all other registers, are as the effect leaves them. -/
theorem getF_written (hx : x < 4) (u : State) {hi lo : Nat} (hout : ∀ j < hi - lo + 1, canCtrlRow.wo.getLsbD (lo + j) = false ∧ lo + j < 32) :
    getF (settled s h (scrub u (CAN_CTRL x))) ⟨CAN_CTRL x, hi, lo⟩ = getF u ⟨CAN_CTRL x, hi, lo⟩ :=
  (getF_settled _).trans (getF_scrub (canCtrl_register hx).1 hout)

theorem getF_written_ne (u : State) {g : Field} (hg : g.reg ≠ CAN_CTRL x) : getF (settled s h (scrub u (CAN_CTRL x))) g = getF u g :=
  (getF_settled _).trans (getF_congr (rd_scrub_ne u hg))

theorem ctlAt_written (u : State) (y : Nat) : ctlAt (settled s h (scrub u (CAN_CTRL x))) y = ctlAt u y :=
  ctlAt_of_can (scrub_same u (CAN_CTRL x) (p := .can) (by decide)) y

/-- A controller that starts or stops. -/
theorem started_written {u v : State} {st : Nat} (hx : x < 4) (hst : st < 8) (hregs : regsBut u v (CAN_FIFO_CFG x 0 :: txRegs x)) :
    canState (settled s h (scrub (started v x st) (CAN_CTRL x))) x = st ∧
    flag (settled s h (scrub (started v x st) (CAN_CTRL x))) (CAN_CTRL_EN x) = flag u (CAN_CTRL_EN x) ∧
    (∀ b, txState (settled s h (scrub (started v x st) (CAN_CTRL x))) x b = txState v x b) ∧
    (ctlAt (settled s h (scrub (started v x st) (CAN_CTRL x))) x).active = none ∧
    (ctlAt (settled s h (scrub (started v x st) (CAN_CTRL x))) x).tec = 0 ∧ (ctlAt (settled s h (scrub (started v x st) (CAN_CTRL x))) x).recv = 0 := by
  obtain ⟨hstate, hact, htec, hrec, hstarted⟩ := started_effect hst v x
  rw [ctlAt_written]
  refine ⟨(getF_written_ne _ (by grind)).trans hstate, ?_, fun b => ?_, hact, htec, hrec⟩
  · have hall : regsBut u (started v x st) (enableRegs x) := regsBut_trans (regsBut_mono hregs (by simp [enableRegs])) (regsBut_mono hstarted (by simp [enableRegs]))
    rw [flag, getF_written hx _ (by decide), ← flag]
    exact flag_of_regsBut hall (ctrl_not_enableRegs x)
  · refine (getF_written_ne _ ?_).trans (getF_of_regsBut hstarted (txb_not_stat x b))
    simp only [CAN_TXB_STAT, CAN_CTRL]
    omega

theorem keeps_canWritten (s : State) (x : Nat) (w old : Word) :
    Keeps (· ∈ [Part.regs, .sys, .can]) (ahead s) (scrub (canEffect (wr (ahead s) (CAN_CTRL x) w) (CAN_CTRL x) old) (CAN_CTRL x)) :=
  scrub_keeps _ _ (allows_of_subset (by decide)) (canEffect_keeps _ _ _ (allows_of_subset (by decide)) (wr_keeps _ _ _ (allows_of_subset (by decide)) (Keeps.refl ..)))

theorem canOn_shown (hs : serves s h) (hx : x < 4) (how : ownerOrService s h = true) (hoff : flag s (CAN_CTRL_EN x) = false)
    (hiso : flag s (CAN_CTRL_ISOBUS x) = false) (hpool : poolOk s x = true) (hstart : startsNow s h (putFlag (CAN_CTRL_EN x) true)) :
    answers (.canEn h x true) s (fun t => flag t (CAN_CTRL_EN x) = true ∧ canState t x = csSync ∧ (∀ b < 64, txState t x b = tbFree) ∧
      (ctlAt t x).active = none ∧ (ctlAt t x).tec = 0 ∧ (ctlAt t x).recv = 0 ∧ wroteBut s t h [.regs, .sys, .can]) := by
  replace hstart : startsNow s h [item (CAN_CTRL x) 1#32 1#32] := hstart
  refine answers_of_answer (t := (hostItems s h [item (CAN_CTRL x) 1#32 1#32]).1) rfl (by simp [hs.1, hx]) ?_
  have hidle : bitsOf (ctrlWord s x 1#32 1#32) 5 5 = 0 := by
    rw [bitsOf_ctrlWord _ _ _ _ (by decide) (by decide)]
    exact bitsOf_takenWord_idle plain_canCtrl (by decide)
  have hset : bitsOf (ctrlWord s x 1#32 1#32) 0 0 = 1 := by
    rw [bitsOf_ctrlWord _ _ _ _ (by decide) (by decide), bitsOf_takenWord plain_canCtrl (by decide)]
    decide
  have hcheck : canCheck (ahead s) (CAN_CTRL x) (rd s (CAN_CTRL x)) (ctrlWord s x 1#32 1#32) = .ok :=
    canCheck_ctrl (s := s) (fun _ _ => ⟨hpool, hiso⟩) (by decide) hx (Or.inl hidle)
  have hkeeps := keeps_canWritten s x (ctrlWord s x 1#32 1#32) (rd s (CAN_CTRL x))
  rw [hostItems_canCtrl hx (by decide) hs how hstart hcheck]
  have hr : (ctrlWord s x 1#32 1#32).getLsbD 5 = false := (getLsbD_of_bitsOf hidle).trans rfl
  have hen : flag (ctrlStored s x (ctrlWord s x 1#32 1#32)) (CAN_CTRL_EN x) = true := by
    rw [flag, getF_ctrlStored (by decide) (by decide), hset]
    rfl
  rw [canEffect_stored hx, hr, hoff, if_neg (by decide), canEnable_on hen] at hkeeps ⊢
  obtain ⟨hst, hflag, htx, hact, htec, hrec⟩ := started_written (s := s) (h := h) (st := csSync) hx (by decide)
    (regsBut_trans (regsBut_showCan (ctrlStored s x (ctrlWord s x 1#32 1#32)) x) (regsBut_mono (regsBut_buffersFreed _ x) (by simp)))
  exact ⟨hflag.trans hen, hst, fun b hb => (htx b).trans (txState_buffersFreed hb _ x), hact, htec, hrec, wroteBut_settled hkeeps (by decide) (by decide)⟩

theorem canOff_shown (hs : serves s h) (hx : x < 4) (how : ownerOrService s h = true) (hon : flag s (CAN_CTRL_EN x) = true)
    (hstart : startsNow s h (putFlag (CAN_CTRL_EN x) false)) : answers (.canEn h x false) s (fun t =>
      flag t (CAN_CTRL_EN x) = false ∧ canState t x = csOff ∧
      (∀ b < 64, txState t x b = (if txState s x b = tbPending ∨ txState s x b = tbActive then tbAborted else txState s x b)) ∧
      (ctlAt t x).active = none ∧ (ctlAt t x).tec = 0 ∧ (ctlAt t x).recv = 0 ∧ wroteBut s t h [.regs, .sys, .can]) := by
  replace hstart : startsNow s h [item (CAN_CTRL x) 1#32 0#32] := hstart
  refine answers_of_answer (t := (hostItems s h [item (CAN_CTRL x) 1#32 0#32]).1) rfl (by simp [hs.1, hx]) ?_
  have hidle : bitsOf (ctrlWord s x 1#32 0#32) 5 5 = 0 := by
    rw [bitsOf_ctrlWord _ _ _ _ (by decide) (by decide)]
    exact bitsOf_takenWord_idle plain_canCtrl (by decide)
  have hset : bitsOf (ctrlWord s x 1#32 0#32) 0 0 = 0 := by
    rw [bitsOf_ctrlWord _ _ _ _ (by decide) (by decide), bitsOf_takenWord plain_canCtrl (by decide)]
    decide
  have hwas : bitsOf (rd s (CAN_CTRL x)) 0 0 ≠ 0 := of_decide_eq_true hon
  have hcheck : canCheck (ahead s) (CAN_CTRL x) (rd s (CAN_CTRL x)) (ctrlWord s x 1#32 0#32) = .ok :=
    canCheck_ctrl (s := s) (fun h0 _ => absurd h0 hwas) (by decide) hx (Or.inl hidle)
  have hkeeps := keeps_canWritten s x (ctrlWord s x 1#32 0#32) (rd s (CAN_CTRL x))
  rw [hostItems_canCtrl hx (by decide) hs how hstart hcheck]
  have hr : (ctrlWord s x 1#32 0#32).getLsbD 5 = false := (getLsbD_of_bitsOf hidle).trans rfl
  have hen : flag (ctrlStored s x (ctrlWord s x 1#32 0#32)) (CAN_CTRL_EN x) = false := by
    rw [flag, getF_ctrlStored (by decide) (by decide), hset]
    rfl
  rw [canEffect_stored hx, hr, hon, if_neg (by decide), canEnable_off hen] at hkeeps ⊢
  obtain ⟨hst, hflag, htx, hact, htec, hrec⟩ := started_written (s := s) (h := h) (st := csOff) hx (by decide)
    (regsBut_trans (regsBut_showCan (ctrlStored s x (ctrlWord s x 1#32 0#32)) x) (regsBut_mono (regsBut_framesAborted _ x) (by simp)))
  refine ⟨hflag.trans hen, hst, fun b hb => ?_, hact, htec, hrec, wroteBut_settled hkeeps (by decide) (by decide)⟩
  have hsame : txState (showCan (ctrlStored s x (ctrlWord s x 1#32 0#32)) x) x b = txState s x b :=
    (txState_showCan _ x b).trans (getF_ctrlStored_ne (by simp only [CAN_TXB_STAT, CAN_CTRL]; omega) s _)
  rw [htx, txState_framesAborted hb, hsame]

/-- A controller in bus-off that waits for its host starts its recovery. -/
theorem canRecover_busOff {u : State} (hhost : flag u (CAN_CTRL_RECOV x) = true) (hboff : canState u x = csBusOff) :
    canRecover (showCan u x) x = setF (showCan u x) (CAN_STAT_STATE x) csRecovering := by
  have hhost' : flag (showCan u x) (CAN_CTRL_RECOV x) = true := by
    rw [flag, getF_showCan_other (fun hmem => ctrl_not_enableRegs x (List.mem_append_left _ hmem)) (by simp)]
    exact hhost
  have hboff' : canState (showCan u x) x = csBusOff := (getF_showCan_other (stat_not_txRegs x) (by simp) u).trans hboff
  rw [canRecover, hhost', hboff']
  rfl

/-- A bit that acts is 0 when its write is over. -/
theorem flag_scrub_acting {i j : Nat} {r : RegRow} (hrow : regRow i = some r) (hwo : r.wo.getLsbD j = true) (u : State) : flag (scrub u i) ⟨i, j, j⟩ = false := by
  have hne : r.wo ≠ 0 := by
    intro h0
    simp [h0] at hwo
  rw [flag_bit, scrub_acting hrow hne, rd_wr_self, BitVec.getLsbD_and, BitVec.getLsbD_not, hwo]
  simp

theorem recover_shown (hs : serves s h) (hx : x < 4) (how : ownerOrService s h = true) (hboff : canState s x = csBusOff)
    (hhost : flag s (CAN_CTRL_RECOV x) = true) (hstart : startsNow s h (putFlag (CAN_CTRL_RECOVER x) true)) : answers (.recover h x) s (fun t =>
      canState t x = csRecovering ∧ flag t (CAN_CTRL_RECOVER x) = false ∧ flag t (CAN_CTRL_EN x) = flag s (CAN_CTRL_EN x) ∧ wroteBut s t h [.regs, .sys]) := by
  replace hstart : startsNow s h [item (CAN_CTRL x) 0x20#32 0x20#32] := hstart
  refine answers_of_answer (t := (hostItems s h [item (CAN_CTRL x) 0x20#32 0x20#32]).1) rfl (by simp [hs.1, hx]) ?_
  have hset : bitsOf (ctrlWord s x 0x20#32 0x20#32) 5 5 = 1 := by
    rw [bitsOf_ctrlWord _ _ _ _ (by decide) (by decide), bitsOf_takenWord plain_canCtrl (by decide)]
    decide
  have hen : bitsOf (ctrlWord s x 0x20#32 0x20#32) 0 0 = bitsOf (rd s (CAN_CTRL x)) 0 0 := ctrlWord_stands (by decide) (by decide) (by decide)
  have hrec : bitsOf (ctrlWord s x 0x20#32 0x20#32) 4 4 = bitsOf (rd s (CAN_CTRL x)) 4 4 := ctrlWord_stands (by decide) (by decide) (by decide)
  have hcheck : canCheck (ahead s) (CAN_CTRL x) (rd s (CAN_CTRL x)) (ctrlWord s x 0x20#32 0x20#32) = .ok :=
    canCheck_ctrl (s := s) (fun h0 h1 => absurd (h0.symm.trans (hen.symm.trans h1)) (by decide)) (by decide) hx (Or.inr hboff)
  rw [hostItems_canCtrl hx (by decide) hs how hstart hcheck, canEffect_stored hx, getLsbD_of_bitsOf hset, if_pos (by decide)]
  generalize hu : ctrlStored s x (ctrlWord s x 0x20#32 0x20#32) = u
  have huEn : flag u (CAN_CTRL_EN x) = flag s (CAN_CTRL_EN x) := by
    rw [← hu, flag, getF_ctrlStored (by decide) (by decide), hen]
    rfl
  have huHost : flag u (CAN_CTRL_RECOV x) = true := by
    rw [← hu, flag, getF_ctrlStored (by decide) (by decide), hrec]
    exact hhost
  have huState : canState u x = csBusOff := by
    rw [← hu, canState, getF_ctrlStored_ne (by simp only [CAN_STAT, CAN_CTRL]; omega)]
    exact hboff
  have hukeeps : Keeps (· ∈ [Part.regs, .sys]) (ahead s) u := by
    rw [← hu]
    exact setF_keeps _ _ _ (allows_of_subset (by decide)) (wr_keeps _ _ _ (allows_of_subset (by decide)) (Keeps.refl ..))
  rw [canEnable_same huEn, canRecover_busOff huHost huState]
  refine ⟨?_, ?_, ?_, wroteBut_settled ?_ (by decide) (by decide)⟩
  · exact (getF_written_ne _ (by simp only [CAN_STAT, CAN_CTRL]; omega)).trans ((getF_setF _ _ _ ⟨by simp, by simp⟩).trans rfl)
  · exact (flag_settled ..).trans (flag_scrub_acting (canCtrl_register hx).1 (by decide) _)
  · rw [flag, getF_written hx _ (by decide), ← flag]
    refine (flag_of_regsBut (regsBut_setF (l := enableRegs x) (regsBut_mono (regsBut_showCan u x) (by simp [enableRegs])) (by simp [enableRegs]) _) (ctrl_not_enableRegs x)).trans huEn
  · exact scrub_keeps _ _ (allows_of_subset (by decide)) (setF_keeps _ _ _ (allows_of_subset (by decide)) (showCan_keeps _ _ (allows_of_subset (by decide)) hukeeps))

end Enables

/-- Settles O24: the error state follows the counters through `Shows`; the enables act on every buffer. -/
theorem canErrorsAndEnables : Obligations.CanErrorsAndEnables := by
  unfold Obligations.CanErrorsAndEnables
  refine ⟨⟨fun s x => busSync_shown, fun s x t₀ lec tx dom => canError_shown, fun s x t₀ => boDelay_shown, fun s h x => recover_shown,
    fun s x => recoveryDone_shown⟩, fun s h x => canOn_shown, fun s h x => canOff_shown⟩

end Sys2Proof.CanControllers

namespace Sys2Proof.HostWrites

open Sys2Proof Sys2Proof.Machine Sys2Proof.Frame Sys2Proof.Mailbox

/-! ### Writes of several items: each is checked on what those before it leave (R6) -/

section Items

variable {s s0 t : State} {h i : Nat} {r : RegRow} {m val : Word}

theorem itemWord_word (hi : MaskOk i r m) (t : State) (h : Nat) : itemWord t h (item i m val) = takenWord r (rd t i) m val := by
  obtain ⟨hrow, hplain, -, hseen, -⟩ := hi
  have hval : (val &&& (m &&& (r.rw ||| r.wo))) &&& (m &&& (r.rw ||| r.wo)) = val &&& (m &&& (r.rw ||| r.wo)) := by
    rw [BitVec.and_assoc, BitVec.and_self]
  have hw : itemWord t h (item i m val) = presented r (rd t i) m val := by
    rw [itemWord_seen (w := item i m val) t h hrow hseen]
    rfl
  rw [hw, ← presented_writable hplain, takenWord, presented_merged hplain hval]

theorem storeItem_word (hi : MaskOk i r m) (t : State) (h : Nat) :
    storeItem t h i (takenWord r (rd t i) m val) = wr t i (takenWord r (rd t i) m val) := by
  obtain ⟨hrow, hplain, -, -, hstored, -⟩ := hi
  have hval : (val &&& (m &&& (r.rw ||| r.wo))) &&& (m &&& (r.rw ||| r.wo)) = val &&& (m &&& (r.rw ||| r.wo)) := by
    rw [BitVec.and_assoc, BitVec.and_self]
  rw [storeItem_byRow t h _ hstored, commitReg_row t hrow, takenWord, committed_merged hplain hval]

theorem checkItem_word (hi : MaskOk i r m) (hmay : mayWrite t h i m (takenWord r (rd t i) m val) = true)
    (hstore : storeValue t h i (takenWord r (rd t i) m val) = some (takenWord r (rd t i) m val))
    (hrule : stateRule t h i m (rd t i) (takenWord r (rd t i) m val) = .ok) : checkItem t h (item i m val) = stOk := by
  have hword : itemWord t h (item i m val) = takenWord r (rd t i) m val := itemWord_word hi t h
  obtain ⟨hrow, -, htouch, hseen, -⟩ := hi
  have hview : viewOf t h i = rd t i := viewOf_seen t h hseen
  exact checkItem_ok (w := item i m val) (v := takenWord r (rd t i) m val) hrow htouch rfl (by rw [hword]; exact hmay) (by rw [hword]; exact hstore)
    (by rw [show (item i m val).idx = i from rfl, hview]; exact hrule)

theorem takeItem_word (hi : MaskOk i r m) (s0 : State) (hstore : storeValue t h i (takenWord r (rd t i) m val) = some (takenWord r (rd t i) m val)) :
    takeItem s0 t h (item i m val) =
      scrub (writeEffect s0 t (wr t i (takenWord r (rd t i) m val)) h i (rd t i) (takenWord r (rd t i) m val)) i := by
  have hword : itemWord t h (item i m val) = takenWord r (rd t i) m val := itemWord_word hi t h
  have hst := storeItem_word (val := val) hi t h
  obtain ⟨hrow, -, htouch, hseen, -⟩ := hi
  have hview : viewOf t h i = rd t i := viewOf_seen t h hseen
  rw [takeItem_eq (w := item i m val) (v := takenWord r (rd t i) m val) hrow htouch (by rw [hword]; exact hstore),
    show (item i m val).idx = i from rfl, hst, hview]

/-- Between the checks a register without bits that act is stored, and no more. -/
theorem noteItem_word (hi : MaskOk i r m) (hwo : r.wo = 0) (hstore : storeValue t h i (takenWord r (rd t i) m val) = some (takenWord r (rd t i) m val)) :
    noteItem t h (item i m val) = wr t i (takenWord r (rd t i) m val) := by
  have hword : itemWord t h (item i m val) = takenWord r (rd t i) m val := itemWord_word hi t h
  have hst := storeItem_word (val := val) hi t h
  obtain ⟨hrow, -, htouch, -⟩ := hi
  have ht : touches (item i m val) = true := by
    rw [touches, show (item i m val).idx = i from rfl, hrow]
    exact decide_eq_true htouch
  have hiv : itemValue t h (item i m val) = takenWord r (rd t i) m val := by
    rw [itemValue, hword, show (item i m val).idx = i from rfl, hstore]
    rfl
  rw [noteItem, if_pos ht, show (item i m val).idx = i from rfl, hiv, hst, scrub_noWo _ hrow hwo]

/-- A write of three items, none of which clears a trip. -/
theorem hostItems_three {w₁ w₂ w₃ : WItem} (hs : serves s h) (hstart : startsNow s h [w₁, w₂, w₃])
    (ht₁ : isTripClear w₁ = false) (ht₂ : isTripClear w₂ = false) (ht₃ : isTripClear w₃ = false)
    (hc₁ : checkItem (ahead s) h w₁ = stOk) (hc₂ : checkItem (noteItem (ahead s) h w₁) h w₂ = stOk)
    (hc₃ : checkItem (noteItem (noteItem (ahead s) h w₁) h w₂) h w₃ = stOk) :
    hostItems s h [w₁, w₂, w₃] =
      (settled s h (takeItem (ahead s) (takeItem (ahead s) (takeItem (ahead s) (ahead s) h w₁) h w₂) h w₃), true) := by
  have hw : writeItems (ahead s) h [w₁, w₂, w₃] =
      (takeItem (ahead s) (takeItem (ahead s) (takeItem (ahead s) (ahead s) h w₁) h w₂) h w₃, none) := by
    simp [writeItems, preClear, takeItems, checkItems, ht₁, ht₂, ht₃, hc₁, hc₂, hc₃]
  rw [hostItems_taken hs hstart (congrArg Prod.snd hw), hw]

end Items

end Sys2Proof.HostWrites

namespace Sys2Proof.TimeBases

open Sys2Proof Sys2Proof.Machine Sys2Proof.Frame

/-! ### The rules of the time bases (R323 to R325) -/

section Rules

variable {s t : State} {n m : Nat}

theorem timeBase_modTb (s : State) (n : Nat) (f : TimeBase → TimeBase) : timeBase (modTb s n f) n = f (timeBase s n) := sparseGet_mod _ _ _ _

theorem timeBase_modTb_ne (h : m ≠ n) (s : State) (f : TimeBase → TimeBase) : timeBase (modTb s n f) m = timeBase s m := sparseGet_mod_ne _ _ _ _ _ h

theorem timeBase_of_tim (h : t.tim = s.tim) (n : Nat) : timeBase t n = timeBase s n := by rw [timeBase, timeBase, h]

/-- Two states in which every time base runs alike. -/
structure SameTime (s t : State) : Prop where
  tim : t.tim = s.tim
  regs : ∀ m, rd t (TIM_TB_CTRL m) = rd s (TIM_TB_CTRL m) ∧ rd t (TIM_TB_RATE m) = rd s (TIM_TB_RATE m) ∧
    rd t (TIM_TB_ADJ_LO m) = rd s (TIM_TB_ADJ_LO m) ∧ rd t (TIM_TB_ADJ_HI m) = rd s (TIM_TB_ADJ_HI m)

theorem tbRoot_of_same (h : SameTime s t) : ∀ k n, tbRoot t k n = tbRoot s k n
  | 0, _ => rfl
  | k + 1, n => by
    obtain ⟨hctrl, -, hlo, hhi⟩ := h.regs n
    have hsrc : tbSrc t n = tbSrc s n := by rw [tbSrc, tbSrc, getF_congr hctrl]
    have hadj : tbAdj t n = tbAdj s n := by rw [tbAdj, tbAdj, rdPair, rdPair, hlo, hhi]
    rw [tbRoot, tbRoot, hsrc, hadj, getF_congr hctrl, tbRoot_of_same h k]

theorem tbOwn_of_same (htb : timeBase t n = timeBase s n) (hrate : rd t (TIM_TB_RATE n) = rd s (TIM_TB_RATE n)) (τ : Nat) : tbOwn t n τ = tbOwn s n τ := by
  have hedge : tbEdge t n = tbEdge s n := by rw [tbEdge, tbEdge, getI, getI, getF_congr hrate]
  rw [tbOwn, tbOwn, htb, hedge]

theorem tbAt_of_same (h : SameTime s t) (n τ : Nat) : tbAt t n τ = tbAt s n τ := by
  have hroot := tbRoot_of_same h 3 n
  have hown : tbOwn t (tbRoot s 3 n).1 τ = tbOwn s (tbRoot s 3 n).1 τ := tbOwn_of_same (timeBase_of_tim h.tim _) (h.regs _).2.1 τ
  simp only [tbAt, hroot, hown]

/-- A time base that follows no other. -/
theorem tbAt_own (h : tbSrc s n ≠ 2) (τ : Nat) : tbAt s n τ = tbOwn s n τ % tbSpan := by
  have hroot : tbRoot s 3 n = (n, 0) := by rw [tbRoot, if_neg h]
  rw [tbAt, hroot]
  simp

/-! ### What is shown of a time base -/

theorem regsBut_showTb (s : State) (n τ : Nat) : regsBut s (showTb s n τ) [TIM_TB_SLEWREM n, TIM_TB_STAT n] :=
  regsBut_setB (regsBut_setB (regsBut_setI (regsBut_refl _ _) (by simp) _) (by simp) _) (by simp) _

theorem showTb_tim (s : State) (n τ : Nat) : (showTb s n τ).tim = s.tim := rfl

theorem timeBase_showTb (s : State) (n τ m : Nat) : timeBase (showTb s n τ) m = timeBase s m := rfl

/-- Showing a time base moves nothing that time bases run by. -/
theorem sameTime_of_regsBut {l : List Nat} (htim : t.tim = s.tim) (h : regsBut s t l)
    (hl : ∀ m, TIM_TB_CTRL m ∉ l ∧ TIM_TB_RATE m ∉ l ∧ TIM_TB_ADJ_LO m ∉ l ∧ TIM_TB_ADJ_HI m ∉ l) : SameTime s t :=
  ⟨htim, fun m => ⟨h _ (hl m).1, h _ (hl m).2.1, h _ (hl m).2.2.1, h _ (hl m).2.2.2⟩⟩

theorem sameTime_showTb (s : State) (n τ : Nat) : SameTime s (showTb s n τ) :=
  sameTime_of_regsBut rfl (regsBut_showTb s n τ) fun m => by
    simp only [List.mem_cons, List.not_mem_nil, or_false, TIM_TB_CTRL, TIM_TB_RATE, TIM_TB_ADJ_LO, TIM_TB_ADJ_HI, TIM_TB_SLEWREM, TIM_TB_STAT]
    omega

/-- A field of the status that showing does not touch. -/
theorem flag_showTb {j : Nat} (hj : j ≠ 3 ∧ j ≠ 4) (s : State) (n τ : Nat) : flag (showTb s n τ) ⟨TIM_TB_STAT n, j, j⟩ = flag s ⟨TIM_TB_STAT n, j, j⟩ := by
  unfold showTb
  extract_lets b r u
  exact (flag_setB_apart ⟨by simp, by simp, by simp; omega⟩ _).trans
    ((flag_setB_apart ⟨by simp, by simp, by simp; omega⟩ _).trans (flag_setI_apart (by grind) _))

theorem adjPend_showTb (s : State) (n τ : Nat) : flag (showTb s n τ) (TIM_TB_STAT_ADJ_PEND n) = (timeBase s n).pend.isSome :=
  flag_setB _ _ _ ⟨by simp, by simp⟩

theorem slewing_showTb (s : State) (n τ : Nat) : flag (showTb s n τ) (TIM_TB_STAT_SLEWING n) =
    decide ((timeBase s n).slew - slewPart (timeBase s n) (τ - (timeBase s n).at_) ≠ 0) := by
  unfold showTb
  extract_lets b r u
  exact (flag_setB_apart (by grind) _).trans (flag_setB _ _ _ ⟨by simp, by simp⟩)

/-! ### Jumps and slews -/

/-- A time base after a step or a set to `v` at an instant. -/
def jumped (s : State) (n τ : Nat) (v : Int) : TimeBase :=
  { timeBase s n with
    at_ := τ, val := v, slew := if (timeBase s n).slewAt = some τ then (timeBase s n).slew else 0, stepped := some (τ, (beforeStep (timeBase s n) τ).getD (tbAt s n τ)) }

/-- The jump of a time base, before TB0 is recorded. -/
def jumpShown (s : State) (n τ : Nat) (v : Int) : State :=
  let u := modTb s n fun b =>
    { b with at_ := τ, val := v, slew := if b.slewAt = some τ then b.slew else 0, stepped := some (τ, (beforeStep b τ).getD (tbAt s n τ)) }
  let u := bump (setB u (TIM_TB_STAT_STEPPED n) true) TIM_CNT_STEP_CNT
  showTb (setF u (TIM_TB_ADJSTEP_VAL n) ((τ - u.tim.base + slotsPerStep - 1) / slotsPerStep)) n τ

/-- TB0 is recorded. -/
def jumpRecorded (s u : State) (τ : Nat) (v : Int) : State :=
  raiseIrq (record { u with gns := { u.gns with clkStep := true } } 0x9005 noInst
    (leBytes 8 (unsigned 64 (roundDiv (v - tbAt s 0 τ) tbUnit.toNat)) ++ leBytes 1 (bit (timeBase s 0).initial 0))) TIM_IRQ_STEP ⟨TIM_IEN, 3, 3⟩ 4

theorem tbJump_eq (s : State) (n τ : Nat) (v : Int) : tbJump s n τ v =
    if n = 0 then
      if (timeBase s 0).initial then setB (jumpRecorded s (jumpShown s 0 τ v) τ v) (TIM_TB_STAT_VALID 0) true else jumpRecorded s (jumpShown s 0 τ v) τ v
    else jumpShown s n τ v := by
  by_cases hn : n = 0
  · subst hn
    rfl
  · rw [tbJump, if_neg hn, if_neg hn]
    rfl

/-- What holds of a time base that has jumped. -/
structure HasJumped (s t : State) (n τ : Nat) (v : Int) : Prop where
  base : timeBase t n = jumped s n τ v
  others : ∀ m, m ≠ n → timeBase t m = timeBase s m
  stepped : flag t (TIM_TB_STAT_STEPPED n) = true
  counted : getF t TIM_CNT_STEP_CNT = min (getF s TIM_CNT_STEP_CNT + 1) (2 ^ 32 - 1)

theorem jumpShown_effect (hn : n < 4) (s : State) (τ : Nat) (v : Int) : HasJumped s (jumpShown s n τ v) n τ v := by
  refine ⟨timeBase_modTb s n _, fun m hm => timeBase_modTb_ne hm s _, ?_, ?_⟩
  · refine (flag_showTb (by decide) _ n τ).trans ((flag_setF_apart (by grind) _).trans ((flag_bump_apart (by grind) _).trans ?_))
    exact flag_setB _ _ _ ⟨by simp, by simp⟩
  · have hcnt : TIM_CNT_STEP ∉ [TIM_TB_SLEWREM n, TIM_TB_STAT n] := by
      simp only [List.mem_cons, List.not_mem_nil, or_false, TIM_CNT_STEP, TIM_TB_SLEWREM, TIM_TB_STAT]
      omega
    refine (getF_of_regsBut (regsBut_showTb _ n τ) hcnt).trans ((getF_setF_apart (by grind) _).trans ((getF_bump _ _ _ ⟨by decide, by decide⟩).trans ?_))
    rw [getF_setB_apart (by grind), getF_of_regs (modTb_regs ..)]
    rfl

theorem announced_tim (s : State) (code : Nat) (bs : List Byte) (f en : Field) (nb : Nat) : (raiseIrq (record s code noInst bs) f en nb).tim = s.tim :=
  ((keeps_raiseIrq (record s code noInst bs) f en nb).same .tim (by decide)).trans ((keeps_record s code noInst bs).same .tim (by decide))

theorem regsBut_announced (s : State) (code : Nat) (bs : List Byte) (f en : Field) (nb : Nat) :
    regsBut s (raiseIrq (record s code noInst bs) f en nb) (f.reg :: tally) :=
  regsBut_trans (regsBut_mono (regsBut_record _ _ _ _) (List.subset_cons_of_subset _ lossCounters_subset_tally))
    (regsBut_mono (regsBut_raiseIrq _ _ _ _) (List.cons_subset_cons _ dropCounters_subset_tally))

theorem jumpRecorded_effect {u : State} (s : State) (τ : Nat) (v : Int) (h : HasJumped s u n τ v) (hn : n < 4) :
    HasJumped s (jumpRecorded s u τ v) n τ v := by
  have hregs : regsBut u (jumpRecorded s u τ v) (TIM_IRQ :: tally) := regsBut_before (regsBut_announced _ _ _ _ _ _) rfl
  have htim : (jumpRecorded s u τ v).tim = u.tim := by
    rw [jumpRecorded, announced_tim]
  refine ⟨(timeBase_of_tim htim n).trans h.base, fun m hm => (timeBase_of_tim htim m).trans (h.others m hm), ?_, ?_⟩
  · refine (flag_of_regsBut hregs ?_).trans h.stepped
    simp only [List.mem_cons, mem_tally, TIM_TB_STAT, TIM_IRQ]
    omega
  · exact (getF_of_regsBut hregs (by decide)).trans h.counted

theorem tbJump_effect (hn : n < 4) (s : State) (τ : Nat) (v : Int) : HasJumped s (tbJump s n τ v) n τ v := by
  have hshown := jumpShown_effect hn s τ v
  rw [tbJump_eq]
  split
  next h0 =>
    subst h0
    have hrec := jumpRecorded_effect s τ v hshown hn
    split
    · exact ⟨hrec.base, hrec.others, (flag_setB_apart (by decide) _).trans hrec.stepped, (getF_setB_apart (by decide) _).trans hrec.counted⟩
    · exact hrec
  next => exact hshown

end Rules

end Sys2Proof.TimeBases

namespace Sys2Proof.TimeBases

open Sys2Proof Sys2Proof.Machine Sys2Proof.Frame Sys2Proof.HostWrites

/-! ### Writes of a time base by a host (R324, R325) -/

section Write

variable {s : State} {h n : Nat} {adj : BitVec 64}

/-- The row of TIM_TB_CTRL of TB1 to TB3 in the register index: ADJ acts. -/
def tbCtrlRow : RegRow := ⟨0x2820, 3, 16, 1, 1, 0x00000000#32, 0x00000433#32, 0x00000000#32, 0x00000000#32, 0x00000000#32, 0x00000300#32⟩

/-- The rows of the two words of TIM_TB_ADJ. -/
def adjLoRow : RegRow := ⟨0x2816, 4, 16, 1, 1, 0x00000000#32, 0xFFFFFFFF#32, 0x00000000#32, 0x00000000#32, 0x00000000#32, 0x00000000#32⟩

def adjHiRow : RegRow := ⟨0x2817, 4, 16, 1, 1, 0x00000000#32, 0xFFFFFFFF#32, 0x00000000#32, 0x00000000#32, 0x00000000#32, 0x00000000#32⟩

theorem tb_rows (hn : n < 4) (h0 : n ≠ 0) : MaskOk (TIM_TB_ADJ_LO n) adjLoRow 0xFFFFFFFF#32 ∧ MaskOk (TIM_TB_ADJ_HI n) adjHiRow 0xFFFFFFFF#32 ∧
    MaskOk (TIM_TB_CTRL n) tbCtrlRow 0x700#32 := by
  obtain rfl | rfl | rfl : n = 1 ∨ n = 2 ∨ n = 3 := by omega
  · decide
  · decide
  · decide

theorem takenWord_full {r : RegRow} {old v : Word} (hr : PlainRow r) (hrw : r.rw = 0xFFFFFFFF#32) : takenWord r old 0xFFFFFFFF#32 v = v := by
  refine BitVec.eq_of_getLsbD_eq fun j hj => ?_
  have hone : (0xFFFFFFFF#32).getLsbD j = true := by
    revert j
    decide
  rw [getLsbD_takenWord hr hj, hrw, hone]
  rfl

/-- The word that TIM_TB_CTRL takes. -/
def tbCtrlWord (s : State) (n action : Nat) (atSec : Bool) : Word :=
  takenWord tbCtrlRow (rd s (TIM_TB_CTRL n)) 0x700#32 (BitVec.ofNat 32 (action * 256 + bit atSec 10))

theorem bitsOf_tbCtrlWord {action : Nat} {atSec : Bool} (ha : action < 4) : bitsOf (tbCtrlWord s n action atSec) 1 0 = bitsOf (rd s (TIM_TB_CTRL n)) 1 0 ∧
    bitsOf (tbCtrlWord s n action atSec) 9 8 = action ∧ bitsOf (tbCtrlWord s n action atSec) 10 10 = bit atSec 0 := by
  refine ⟨bitsOf_takenWord_out (by decide) (by decide), (bitsOf_takenWord (by decide) (by decide)).trans ?_, (bitsOf_takenWord (by decide) (by decide)).trans ?_⟩
  · revert action
    revert atSec
    decide
  · revert action
    revert atSec
    decide

/-- The state in which the two words of ADJ are stored. -/
def adjStored (s : State) (n : Nat) (adj : BitVec 64) : State :=
  wr (wr (ahead s) (TIM_TB_ADJ_LO n) (adj.setWidth 32)) (TIM_TB_ADJ_HI n) ((adj >>> 32).setWidth 32)

/-- The state in which an action of a time base comes into force. -/
def tbStored (s : State) (n action : Nat) (atSec : Bool) (adj : BitVec 64) : State :=
  setF (wr (adjStored s n adj) (TIM_TB_CTRL n) (tbCtrlWord s n action atSec)) (TIM_TB_CTRL_ADJ n) 0

theorem rd_adjStored {i : Nat} (hlo : i ≠ TIM_TB_ADJ_LO n) (hhi : i ≠ TIM_TB_ADJ_HI n) : rd (adjStored s n adj) i = rd s i :=
  (rd_wr_ne _ _ _ _ hhi).trans (rd_wr_ne _ _ _ _ hlo)

theorem rd_tbStored {i action : Nat} {atSec : Bool} (hlo : i ≠ TIM_TB_ADJ_LO n) (hhi : i ≠ TIM_TB_ADJ_HI n) (hc : i ≠ TIM_TB_CTRL n) :
    rd (tbStored s n action atSec adj) i = rd s i :=
  (rd_wr_ne _ _ _ _ hc).trans ((rd_wr_ne _ _ _ _ hc).trans (rd_adjStored hlo hhi))

theorem rdPair_tbStored (s : State) (n action : Nat) (atSec : Bool) (adj : BitVec 64) :
    rdPair (tbStored s n action atSec adj) (TIM_TB_ADJ_LO n) (TIM_TB_ADJ_HI n) = adj.toNat := by
  have hlo : rd (tbStored s n action atSec adj) (TIM_TB_ADJ_LO n) = adj.setWidth 32 :=
    (rd_wr_ne _ _ _ _ (by grind)).trans ((rd_wr_ne _ _ _ _ (by grind)).trans ((rd_wr_ne _ _ _ _ (by grind)).trans (rd_wr_self ..)))
  have hhi : rd (tbStored s n action atSec adj) (TIM_TB_ADJ_HI n) = (adj >>> 32).setWidth 32 :=
    (rd_wr_ne _ _ _ _ (by grind)).trans ((rd_wr_ne _ _ _ _ (by grind)).trans (rd_wr_self ..))
  rw [rdPair, hlo, hhi]
  have := adj.isLt
  simp only [BitVec.toNat_setWidth, BitVec.toNat_ushiftRight, Nat.shiftRight_eq_div_pow]
  omega

theorem ctrl_tbStored {action : Nat} {atSec : Bool} (ha : action < 4) :
    getF (tbStored s n action atSec adj) (TIM_TB_CTRL_SRC n) = getF s (TIM_TB_CTRL_SRC n) ∧
    flag (tbStored s n action atSec adj) (TIM_TB_CTRL_AT_SEC n) = atSec := by
  obtain ⟨hsrc, -, hsec⟩ := bitsOf_tbCtrlWord (s := s) (n := n) (atSec := atSec) ha
  have hword := rd_wr_self (adjStored s n adj) (TIM_TB_CTRL n) (tbCtrlWord s n action atSec)
  constructor
  · exact (getF_setF_apart (by grind) _).trans ((congrArg (bitsOf · 1 0) hword).trans hsrc)
  · rw [tbStored, flag_setF_apart (by grind), flag, getF]
    rw [show (TIM_TB_CTRL_AT_SEC n).reg = TIM_TB_CTRL n from rfl, hword]
    simp only [hsec]
    cases atSec <;> rfl

theorem ptpOwns_of_rd {t : State} (hsrc : rd t PTP_GP_STAT = rd s PTP_GP_STAT) (hcfg : rd t PTP_GP_CFG = rd s PTP_GP_CFG)
    (hoc : rd t PTP_OC_CFG = rd s PTP_OC_CFG) (hst : rd t PTP_OC_STAT = rd s PTP_OC_STAT) : ptpOwns t n = ptpOwns s n := by
  rw [ptpOwns, ptpOwns, getF_congr (f := PTP_GP_STAT_ROLE) hsrc, getF_congr (f := PTP_GP_CFG_MODE) hcfg, getF_congr (f := PTP_OC_CFG_MODE) hoc,
    getF_congr (f := PTP_OC_STAT_STATE) hst]

theorem timStore_tb {i : Nat} (hlo : 0x2810 < i) (hhi : i < 0x2850) (v : Word) : timStore i v = v := by
  rw [timStore, if_neg (by omega), if_neg (by omega), if_neg (by omega)]

/-- The rule of the words of ADJ. -/
theorem timCheck_adj {t : State} (hn : n < 4) (hptp : ptpOwns t n = false) (old v : Word) :
    timCheck t (TIM_TB_ADJ_LO n) old v = .ok ∧ timCheck t (TIM_TB_ADJ_HI n) old v = .ok := by
  have hlo : 0x2810 ≤ TIM_TB_ADJ_LO n ∧ TIM_TB_ADJ_LO n < 0x2850 := by simp only [TIM_TB_ADJ_LO]; omega
  have hhi : 0x2810 ≤ TIM_TB_ADJ_HI n ∧ TIM_TB_ADJ_HI n < 0x2850 := by simp only [TIM_TB_ADJ_HI]; omega
  have hlon : (TIM_TB_ADJ_LO n - 0x2810) / 16 = n := by simp only [TIM_TB_ADJ_LO]; omega
  have hhin : (TIM_TB_ADJ_HI n - 0x2810) / 16 = n := by
    have he : TIM_TB_ADJ_HI n = 0x2810 + (16 * n + 7) := by simp only [TIM_TB_ADJ_HI]; omega
    rw [he, Nat.add_sub_cancel_left]
    omega
  have hlom : TIM_TB_ADJ_LO n % 16 = 6 := by simp only [TIM_TB_ADJ_LO]; omega
  have hhim : TIM_TB_ADJ_HI n % 16 = 7 := by simp only [TIM_TB_ADJ_HI]; omega
  constructor
  · rw [timCheck, if_pos hlo]
    simp only [hlon, hlom, hptp]
    rfl
  · rw [timCheck, if_pos hhi]
    simp only [hhin, hhim, hptp]
    rfl

/-- The rule of TIM_TB_CTRL where SRC stands at HOST. -/
theorem timCheck_ctrl {t : State} {old v : Word} (hn : n < 4) (hsrc : tbSrc t n = 0) (hold : bitsOf old 1 0 = 0) (hv : bitsOf v 1 0 = 0) :
    timCheck t (TIM_TB_CTRL n) old v = .ok := by
  have hr : 0x2810 ≤ TIM_TB_CTRL n ∧ TIM_TB_CTRL n < 0x2850 := by simp only [TIM_TB_CTRL]; omega
  have hdiv : (TIM_TB_CTRL n - 0x2810) / 16 = n := by simp only [TIM_TB_CTRL]; omega
  have hmod : TIM_TB_CTRL n % 16 = 0 := by simp only [TIM_TB_CTRL]; omega
  have hchg : (bitsDiffer old v 1 0 || (decide (bitsOf v 1 0 = 2) && bitsDiffer old v 5 4)) = false := by
    simp [bitsDiffer, hold, hv]
  rw [timCheck, if_pos hr]
  simp only [hdiv, hmod, hchg, hsrc, Bool.and_false, Bool.false_and, Bool.false_eq_true, if_false, decide_true, Bool.or_true]
  rfl

theorem timEffect_adj {s0 : State} {i : Nat} (hi : i = TIM_TB_ADJ_LO n ∨ i = TIM_TB_ADJ_HI n) (hn : n < 4) (t : State) (old : Word) : timEffect s0 t i old = t := by
  have hr : 0x2810 ≤ i ∧ i < 0x2850 := by
    simp only [TIM_TB_ADJ_LO, TIM_TB_ADJ_HI] at hi
    omega
  have hmod : i % 16 = 6 ∨ i % 16 = 7 := by
    simp only [TIM_TB_ADJ_LO, TIM_TB_ADJ_HI] at hi
    omega
  rw [timEffect, if_pos hr]
  rcases hmod with hm | hm
  · simp only [hm]
  · simp only [hm]

/-- An action of a time base that follows nothing, before and after the write. -/
theorem timEffect_ctrl {s0 t : State} {old : Word} (hn : n < 4) (hsrc : tbSrc (setF t (TIM_TB_CTRL_ADJ n) 0) n ≠ 2)
    (hstands : bitsOf (rd (setF t (TIM_TB_CTRL_ADJ n) 0) (TIM_TB_CTRL n)) 1 0 = bitsOf old 1 0) :
    timEffect s0 t (TIM_TB_CTRL n) old = tbAction (setF t (TIM_TB_CTRL_ADJ n) 0) n (nextBoundary t) (getF t (TIM_TB_CTRL_ADJ n)) := by
  have hr : 0x2810 ≤ TIM_TB_CTRL n ∧ TIM_TB_CTRL n < 0x2850 := by simp only [TIM_TB_CTRL]; omega
  have hdiv : (TIM_TB_CTRL n - 0x2810) / 16 = n := by simp only [TIM_TB_CTRL]; omega
  have hmod : TIM_TB_CTRL n % 16 = 0 := by simp only [TIM_TB_CTRL]; omega
  rw [timEffect, if_pos hr]
  simp only [hdiv, hmod, bitsDiffer, hstands, hsrc, decide_false, Bool.false_and, ne_eq, not_true, Bool.or_self, Bool.false_eq_true, if_false]

/-- The register is one of time base `n`, TIM_TB_CTRL of TB0 left out. -/
def ofTimeBase (n i : Nat) : Prop := 0x2810 < i ∧ i < 0x2850 ∧ 0x2810 + 16 * n ≤ i ∧ i < 0x2820 + 16 * n

theorem ofTimeBase_adjLo (hn : n < 4) : ofTimeBase n (TIM_TB_ADJ_LO n) := by
  simp only [ofTimeBase, TIM_TB_ADJ_LO]
  omega

theorem ofTimeBase_adjHi (hn : n < 4) : ofTimeBase n (TIM_TB_ADJ_HI n) := by
  simp only [ofTimeBase, TIM_TB_ADJ_HI]
  omega

theorem ofTimeBase_ctrl (hn : n < 4) (h0 : n ≠ 0) : ofTimeBase n (TIM_TB_CTRL n) := by
  simp only [ofTimeBase, TIM_TB_CTRL]
  omega

theorem ctrl_ne_adj (n : Nat) : TIM_TB_CTRL n ≠ TIM_TB_ADJ_LO n ∧ TIM_TB_CTRL n ≠ TIM_TB_ADJ_HI n := by
  simp only [TIM_TB_CTRL, TIM_TB_ADJ_LO, TIM_TB_ADJ_HI]
  omega

section Register

variable {i : Nat} (hi : ofTimeBase n i)
include hi

theorem storeValue_tb (t : State) (v : Word) : storeValue t h i v = some v := by
  obtain ⟨h1, h2, -⟩ := hi
  rw [storeValue_tim (by omega) (by omega), timStore_tb h1 h2]

theorem stateRule_tb (t : State) (m old v : Word) : stateRule t h i m old v = timCheck t i old v := stateRule_tim (by grind [ofTimeBase]) (by grind [ofTimeBase])

theorem writeEffect_tb (s0 s1 t : State) (old v : Word) : writeEffect s0 s1 t h i old v = timEffect s0 t i old :=
  writeEffect_tim (by grind [ofTimeBase]) (by grind [ofTimeBase])

/-- TB3 is every slot's, the others the owner's and the service slot's (R350). -/
theorem mayWrite_tb {t : State} (how : n = 3 ∨ ownerOrService t h = true) (m v : Word) : mayWrite t h i m v = true := by
  obtain ⟨h1, h2, h3, h4⟩ := hi
  rw [mayWrite_tim (by omega) (by omega), Bool.or_eq_true]
  rcases how with h5 | h5
  · left
    simp only [timFree, inRange, Bool.or_eq_true, decide_eq_true_eq]
    omega
  · exact Or.inr h5

end Register

/-- The items of a write of a time base. -/
def loItem (n : Nat) (adj : BitVec 64) : WItem := item (TIM_TB_ADJ_LO n) 0xFFFFFFFF#32 (adj.setWidth 32)

def hiItem (n : Nat) (adj : BitVec 64) : WItem := item (TIM_TB_ADJ_HI n) 0xFFFFFFFF#32 ((adj >>> 32).setWidth 32)

def actionItem (n action : Nat) (atSec : Bool) : WItem := item (TIM_TB_CTRL n) 0x700#32 (BitVec.ofNat 32 (action * 256 + bit atSec 10))

/-- The state in which the low word of ADJ is stored. -/
def loStored (s : State) (n : Nat) (adj : BitVec 64) : State := wr (ahead s) (TIM_TB_ADJ_LO n) (adj.setWidth 32)

/-- A slot that writes keeps its role meanwhile. -/
theorem role_adjStored (s : State) (h n : Nat) (adj : BitVec 64) : roleOf (loStored s n adj) h = roleOf s h ∧ roleOf (adjStored s n adj) h = roleOf s h := by
  have hlo : HIF_H_STAT h ≠ TIM_TB_ADJ_LO n := by simp only [HIF_H_STAT, TIM_TB_ADJ_LO]; omega
  have hhi : HIF_H_STAT h ≠ TIM_TB_ADJ_HI n := by simp only [HIF_H_STAT, TIM_TB_ADJ_HI]; omega
  exact ⟨getF_congr (rd_wr_ne _ _ _ _ hlo), getF_congr (rd_adjStored hlo hhi)⟩

section Accepted

variable {action : Nat} {atSec : Bool} (hn : n < 4) (h0 : n ≠ 0)
include hn h0

/-- The low word of ADJ is stored, in the check of the items and in the write itself. -/
theorem lo_taken (s : State) (h : Nat) (adj : BitVec 64) : noteItem (ahead s) h (loItem n adj) = loStored s n adj ∧
    takeItem (ahead s) (ahead s) h (loItem n adj) = loStored s n adj := by
  obtain ⟨hlo, -⟩ := tb_rows hn h0
  have hi := ofTimeBase_adjLo hn
  have hword : takenWord adjLoRow (rd (ahead s) (TIM_TB_ADJ_LO n)) 0xFFFFFFFF#32 (adj.setWidth 32) = adj.setWidth 32 := takenWord_full (by decide) rfl
  constructor
  · rw [loItem, noteItem_word hlo rfl (storeValue_tb hi _ _), hword, loStored]
  · rw [loItem, takeItem_word hlo _ (storeValue_tb hi _ _), hword, writeEffect_tb hi, timEffect_adj (Or.inl rfl) hn, scrub_noWo _ hlo.1 rfl, loStored]

/-- So is the high word. -/
theorem hi_taken (s : State) (h : Nat) (adj : BitVec 64) : noteItem (loStored s n adj) h (hiItem n adj) = adjStored s n adj ∧
    takeItem (ahead s) (loStored s n adj) h (hiItem n adj) = adjStored s n adj := by
  obtain ⟨-, hhi, -⟩ := tb_rows hn h0
  have hi := ofTimeBase_adjHi hn
  have hword : takenWord adjHiRow (rd (loStored s n adj) (TIM_TB_ADJ_HI n)) 0xFFFFFFFF#32 ((adj >>> 32).setWidth 32) = (adj >>> 32).setWidth 32 :=
    takenWord_full (by decide) rfl
  constructor
  · rw [hiItem, noteItem_word hhi rfl (storeValue_tb hi _ _), hword, adjStored, loStored]
  · rw [hiItem, takeItem_word hhi _ (storeValue_tb hi _ _), hword, writeEffect_tb hi, timEffect_adj (Or.inr rfl) hn, scrub_noWo _ hhi.1 rfl, adjStored, loStored]

variable (ha : action < 4) (hsrc : getF s (TIM_TB_CTRL_SRC n) = 0)
include ha hsrc

/-- The action then comes into force. -/
theorem action_taken (h : Nat) (adj : BitVec 64) : takeItem (ahead s) (adjStored s n adj) h (actionItem n action atSec) =
    scrub (tbAction (tbStored s n action atSec adj) n (nextBoundary s) action) (TIM_TB_CTRL n) := by
  obtain ⟨-, -, hctrl⟩ := tb_rows hn h0
  obtain ⟨-, hact, -⟩ := bitsOf_tbCtrlWord (s := s) (n := n) (atSec := atSec) ha
  obtain ⟨hne, hne'⟩ := ctrl_ne_adj n
  have hi := ofTimeBase_ctrl hn h0
  have hword : takenWord tbCtrlRow (rd (adjStored s n adj) (TIM_TB_CTRL n)) 0x700#32 (BitVec.ofNat 32 (action * 256 + bit atSec 10)) = tbCtrlWord s n action atSec := by
    rw [rd_adjStored hne hne', tbCtrlWord]
  have hact' : getF (wr (adjStored s n adj) (TIM_TB_CTRL n) (tbCtrlWord s n action atSec)) (TIM_TB_CTRL_ADJ n) = action :=
    (congrArg (bitsOf · 9 8) (rd_wr_self ..)).trans hact
  have hstands : getF (tbStored s n action atSec adj) (TIM_TB_CTRL_SRC n) = 0 := (ctrl_tbStored ha).1.trans hsrc
  rw [actionItem, takeItem_word hctrl _ (storeValue_tb hi _ _), hword, writeEffect_tb hi, timEffect_ctrl hn ?_ ?_, hact']
  · rfl
  · show tbSrc (tbStored s n action atSec adj) n ≠ 2
    rw [tbSrc, if_neg h0, hstands]
    decide
  · rw [rd_adjStored hne hne']
    exact hstands.trans hsrc.symm

variable (how : n = 3 ∨ ownerOrService s h = true) (hptp : ptpOwns s n = false)
include how hptp

/-- All three items pass their checks. -/
theorem tbItems_checked (adj : BitVec 64) : checkItem (ahead s) h (loItem n adj) = stOk ∧ checkItem (loStored s n adj) h (hiItem n adj) = stOk ∧
    checkItem (adjStored s n adj) h (actionItem n action atSec) = stOk := by
  obtain ⟨hlo, hhi, hctrl⟩ := tb_rows hn h0
  obtain ⟨hw, -⟩ := bitsOf_tbCtrlWord (s := s) (n := n) (atSec := atSec) ha
  obtain ⟨hne, hne'⟩ := ctrl_ne_adj n
  obtain ⟨hr1, hr2⟩ := role_adjStored s h n adj
  have howLo : n = 3 ∨ ownerOrService (loStored s n adj) h = true := by rwa [ownerOrService, hr1, ← ownerOrService]
  have howHi : n = 3 ∨ ownerOrService (adjStored s n adj) h = true := by rwa [ownerOrService, hr2, ← ownerOrService]
  have hptp' : ptpOwns (loStored s n adj) n = false :=
    (ptpOwns_of_rd (rd_wr_ne _ _ _ _ (by grind)) (rd_wr_ne _ _ _ _ (by grind)) (rd_wr_ne _ _ _ _ (by grind)) (rd_wr_ne _ _ _ _ (by grind))).trans hptp
  have hsrc' : getF (adjStored s n adj) (TIM_TB_CTRL_SRC n) = 0 := (getF_congr (rd_adjStored hne hne')).trans hsrc
  have hi1 := ofTimeBase_adjLo hn
  have hi2 := ofTimeBase_adjHi hn
  have hi3 := ofTimeBase_ctrl hn h0
  refine ⟨checkItem_word hlo (mayWrite_tb hi1 how _ _) (storeValue_tb hi1 _ _) ((stateRule_tb hi1 _ _ _ _).trans (timCheck_adj hn hptp _ _).1),
    checkItem_word hhi (mayWrite_tb hi2 howLo _ _) (storeValue_tb hi2 _ _) ((stateRule_tb hi2 _ _ _ _).trans (timCheck_adj hn hptp' _ _).2),
    checkItem_word hctrl (mayWrite_tb hi3 howHi _ _) (storeValue_tb hi3 _ _) ((stateRule_tb hi3 _ _ _ _).trans ?_)⟩
  rw [rd_adjStored hne hne', ← tbCtrlWord]
  exact timCheck_ctrl hn (by rw [tbSrc, if_neg h0, hsrc']) hsrc (hw.trans hsrc)

end Accepted

/-- A host's action on a time base whose source is HOST comes into force at the coming boundary. -/
theorem hostItems_tb {action : Nat} {atSec : Bool} (ha : action < 4) (hs : serves s h) (hn : n < 4) (h0 : n ≠ 0) (how : n = 3 ∨ ownerOrService s h = true)
    (hptp : ptpOwns s n = false) (hsrc : getF s (TIM_TB_CTRL_SRC n) = 0) (hstart : startsNow s h (tbItems n action atSec adj)) :
    hostItems s h (tbItems n action atSec adj) =
      (settled s h (scrub (tbAction (tbStored s n action atSec adj) n (nextBoundary s) action) (TIM_TB_CTRL n)), true) := by
  obtain ⟨hc1, hc2, hc3⟩ := tbItems_checked (s := s) (atSec := atSec) hn h0 ha hsrc how hptp adj
  obtain ⟨⟨-, -, -, -, -, ht1⟩, ⟨-, -, -, -, -, ht2⟩, -, -, -, -, -, ht3⟩ := tb_rows hn h0
  obtain ⟨hnote1, htake1⟩ := lo_taken hn h0 s h adj
  obtain ⟨hnote2, htake2⟩ := hi_taken hn h0 s h adj
  have hitems := hostItems_three (w₁ := loItem n adj) (w₂ := hiItem n adj) (w₃ := actionItem n action atSec) hs hstart
    ht1 ht2 ht3 hc1 (by rw [hnote1]; exact hc2) (by rw [hnote1, hnote2]; exact hc3)
  rw [htake1, htake2, action_taken hn h0 ha hsrc h adj] at hitems
  exact hitems

end Write

end Sys2Proof.TimeBases

namespace Sys2Proof.TimeBases

open Sys2Proof Sys2Proof.Machine Sys2Proof.Frame Sys2Proof.HostWrites

section Actions

variable {s : State} {h n : Nat} {adj : BitVec 64} {atSec : Bool}

/-! ### The three actions of a host (R325) -/

/-- The base that stores an action runs as before. -/
theorem tbAt_tbStored {action : Nat} (ha : action < 4) (h0 : n ≠ 0) (hsrc : getF s (TIM_TB_CTRL_SRC n) = 0) (τ : Nat) :
    tbAt (tbStored s n action atSec adj) n τ = tbAt s n τ := by
  obtain ⟨hstands, -⟩ := ctrl_tbStored (s := s) (n := n) (atSec := atSec) (adj := adj) ha
  have hrate : rd (tbStored s n action atSec adj) (TIM_TB_RATE n) = rd s (TIM_TB_RATE n) := rd_tbStored (by grind) (by grind) (by grind)
  have hsame : timeBase (tbStored s n action atSec adj) n = timeBase s n := timeBase_of_tim rfl n
  have hne : ∀ t : State, getF t (TIM_TB_CTRL_SRC n) = 0 → tbSrc t n ≠ 2 := fun t ht => by
    rw [tbSrc, if_neg h0, ht]
    decide
  rw [tbAt_own (hne _ (hstands.trans hsrc)), tbAt_own (hne _ hsrc), tbOwn_of_same hsame hrate]

theorem tbAdj_tbStored (s : State) (n action : Nat) (atSec : Bool) (adj : BitVec 64) : tbAdj (tbStored s n action atSec adj) n = adj.toInt * tbUnit := by
  have hlt := adj.isLt
  have hsigned : signed 64 adj.toNat = adj.toInt := by
    rw [signed, BitVec.toInt_eq_toNat_cond, Nat.mod_eq_of_lt hlt]
    split
    next h1 => rw [if_pos (by omega)]
    next h1 =>
      rw [if_neg (by omega)]
      norm_num
  rw [tbAdj, rdPair_tbStored, hsigned]

/-- A time base as the write of an action leaves it. -/
theorem timeBase_written (s u : State) (h n m : Nat) : timeBase (settled s h (scrub u (TIM_TB_CTRL n))) m = timeBase u m :=
  timeBase_of_tim (s := u) (scrub_same u (TIM_TB_CTRL n) (p := .tim) (by decide)) m

theorem flag_stat_written {j : Nat} (s u : State) (h n : Nat) :
    flag (settled s h (scrub u (TIM_TB_CTRL n))) ⟨TIM_TB_STAT n, j, j⟩ = flag u ⟨TIM_TB_STAT n, j, j⟩ :=
  (flag_settled _).trans (flag_congr (rd_scrub_ne u (by simp only [TIM_TB_STAT, TIM_TB_CTRL]; omega)))

section Shown

variable (hs : serves s h) (hn : n < 4) (how : n = 3 ∨ ownerOrService s h = true) (hptp : ptpOwns s n = false) (hsrc : tbSrc s n = 0)
include hs hn how hptp hsrc

/-- What a write of an action leaves. -/
theorem tbAdjust_eq {action : Nat} (ha : action < 4) (hstart : startsNow s h (tbItems n action atSec adj)) : n ≠ 0 ∧ getF s (TIM_TB_CTRL_SRC n) = 0 ∧
    tbAdjust s h n action atSec adj =
      settled s h (scrub (tbAction (tbStored s n action atSec adj) n (nextBoundary s) action) (TIM_TB_CTRL n)) := by
  have h0 : n ≠ 0 := by
    rintro rfl
    exact absurd hsrc (by simp [tbSrc])
  rw [tbSrc, if_neg h0] at hsrc
  exact ⟨h0, hsrc, congrArg Prod.fst (hostItems_tb ha hs hn h0 how hptp hsrc hstart)⟩

theorem tbSet_shown (hstart : startsNow s h (tbItems n 3 false adj)) : answers (.tbSet h n adj) s (fun t => (timeBase t n).at_ = nextBoundary s ∧
    (timeBase t n).val = adj.toNat * tbUnit + stepsAt (timeBase s n) (nextBoundary s) ∧
    ((timeBase s n).slewAt ≠ some (nextBoundary s) → (timeBase t n).slew = 0) ∧ flag t (TIM_TB_STAT_STEPPED n) = true ∧
    getF t TIM_CNT_STEP_CNT = min (getF s TIM_CNT_STEP_CNT + 1) (2 ^ 32 - 1) ∧ (∀ m < 4, m ≠ n → timeBase t m = timeBase s m)) := by
  obtain ⟨h0, hsrc', heq⟩ := tbAdjust_eq hs hn how hptp hsrc (by decide) hstart
  refine answers_of_answer (t := tbAdjust s h n 3 false adj) rfl (by simp [hs.1, hn]) ?_
  rw [heq]
  have hj := tbJump_effect hn (tbStored s n 3 false adj) (nextBoundary s)
    (rdPair (tbStored s n 3 false adj) (TIM_TB_ADJ_LO n) (TIM_TB_ADJ_HI n) * tbUnit + stepsAt (timeBase (tbStored s n 3 false adj) n) (nextBoundary s))
  have hact : tbAction (tbStored s n 3 false adj) n (nextBoundary s) 3 = tbJump (tbStored s n 3 false adj) n (nextBoundary s)
    (rdPair (tbStored s n 3 false adj) (TIM_TB_ADJ_LO n) (TIM_TB_ADJ_HI n) * tbUnit + stepsAt (timeBase (tbStored s n 3 false adj) n) (nextBoundary s)) := rfl
  have hsame : timeBase (tbStored s n 3 false adj) n = timeBase s n := timeBase_of_tim rfl n
  rw [← hact] at hj
  rw [timeBase_written, hj.base]
  refine ⟨rfl, ?_, fun hne => ?_, (flag_stat_written _ _ _ _).trans hj.stepped, ?_, fun m _ hm => ?_⟩
  · rw [jumped, rdPair_tbStored, hsame]
  · rw [jumped, hsame]
    exact if_neg hne
  · refine (getF_settled _).trans ((getF_congr (rd_scrub_ne _ (by grind))).trans (hj.counted.trans ?_))
    rw [getF_congr (f := TIM_CNT_STEP_CNT) (rd_tbStored (by grind) (by grind) (by grind))]
  · rw [timeBase_written, hj.others m hm]
    exact timeBase_of_tim rfl m

theorem tbStep_shown (hstart : startsNow s h (tbItems n 1 false adj)) : answers (.tbStep h n false adj) s (fun t => (timeBase t n).at_ = nextBoundary s ∧
    (timeBase t n).val = tbAt s n (nextBoundary s) + adj.toInt * tbUnit ∧ flag t (TIM_TB_STAT_STEPPED n) = true ∧
    (∀ m < 4, m ≠ n → timeBase t m = timeBase s m)) := by
  obtain ⟨h0, hsrc', heq⟩ := tbAdjust_eq hs hn how hptp hsrc (by decide) hstart
  refine answers_of_answer (t := tbAdjust s h n 1 false adj) rfl (by simp [hs.1, hn]) ?_
  rw [heq]
  obtain ⟨-, hsec⟩ := ctrl_tbStored (s := s) (n := n) (action := 1) (atSec := false) (adj := adj) (by decide)
  have hat := tbAt_tbStored (s := s) (n := n) (action := 1) (atSec := false) (adj := adj) (by decide) h0 hsrc' (nextBoundary s)
  have hj := tbJump_effect hn (tbStored s n 1 false adj) (nextBoundary s) (tbAt s n (nextBoundary s) + adj.toInt * tbUnit)
  have hact : tbAction (tbStored s n 1 false adj) n (nextBoundary s) 1 =
      modTb (tbJump (tbStored s n 1 false adj) n (nextBoundary s) (tbAt s n (nextBoundary s) + adj.toInt * tbUnit)) n fun b =>
        { b with steps := some (nextBoundary s, stepsAt b (nextBoundary s) + adj.toInt * tbUnit) } := by
    rw [tbAction, hsec, if_neg (by decide), hat, tbAdj_tbStored]
  rw [hact, timeBase_written, timeBase_modTb, hj.base]
  refine ⟨rfl, rfl, (flag_stat_written _ _ _ _).trans hj.stepped, fun m _ hm => ?_⟩
  rw [timeBase_written, timeBase_modTb_ne hm, hj.others m hm]
  exact timeBase_of_tim rfl m

theorem tbStepAtSecond_shown (hstart : startsNow s h (tbItems n 1 true adj)) : answers (.tbStep h n true adj) s (fun t =>
    timeBase t n = { timeBase s n with pend := some (adj.toInt * tbUnit) } ∧ flag t (TIM_TB_STAT_ADJ_PEND n) = true ∧
    (∀ m < 4, m ≠ n → timeBase t m = timeBase s m)) := by
  obtain ⟨h0, hsrc', heq⟩ := tbAdjust_eq hs hn how hptp hsrc (by decide) hstart
  refine answers_of_answer (t := tbAdjust s h n 1 true adj) rfl (by simp [hs.1, hn]) ?_
  rw [heq]
  obtain ⟨-, hsec⟩ := ctrl_tbStored (s := s) (n := n) (action := 1) (atSec := true) (adj := adj) (by decide)
  have hact : tbAction (tbStored s n 1 true adj) n (nextBoundary s) 1 =
      showTb (modTb (tbStored s n 1 true adj) n fun b => { b with pend := some (adj.toInt * tbUnit) }) n (nextBoundary s) := by
    rw [tbAction, hsec, if_pos rfl, tbAdj_tbStored]
  have hsame : ∀ m, timeBase (tbStored s n 1 true adj) m = timeBase s m := fun m => timeBase_of_tim rfl m
  rw [hact, timeBase_written, timeBase_showTb, timeBase_modTb, hsame]
  refine ⟨rfl, (flag_stat_written _ _ _ _).trans ?_, fun m _ hm => ?_⟩
  · rw [adjPend_showTb, timeBase_modTb]
    rfl
  · rw [timeBase_written, timeBase_showTb, timeBase_modTb_ne hm, hsame]

theorem tbSlew_shown (hstart : startsNow s h (tbItems n 2 false adj)) : answers (.tbSlew h n adj) s (fun t => (timeBase t n).slew = adj.toInt * tbUnit ∧
    (timeBase t n).slewr = getF s (TIM_TB_SLEWR_VAL n) ∧ (timeBase t n).val = tbAt s n (nextBoundary s) ∧
    (∀ m < 4, m ≠ n → timeBase t m = timeBase s m)) := by
  obtain ⟨h0, hsrc', heq⟩ := tbAdjust_eq hs hn how hptp hsrc (by decide) hstart
  refine answers_of_answer (t := tbAdjust s h n 2 false adj) rfl (by simp [hs.1, hn]) ?_
  rw [heq]
  have hat := tbAt_tbStored (s := s) (n := n) (action := 2) (atSec := false) (adj := adj) (by decide) h0 hsrc' (nextBoundary s)
  have hrate : getF (tbStored s n 2 false adj) (TIM_TB_SLEWR_VAL n) = getF s (TIM_TB_SLEWR_VAL n) :=
    getF_congr (rd_tbStored (by grind) (by grind) (by grind))
  have hact : tbAction (tbStored s n 2 false adj) n (nextBoundary s) 2 =
      modTb (showTb (modTb (tbSync (tbStored s n 2 false adj) n (nextBoundary s)) n fun b =>
        { b with slew := adj.toInt * tbUnit, slewr := getF s (TIM_TB_SLEWR_VAL n) }) n (nextBoundary s)) n fun b => { b with slewAt := some (nextBoundary s) } := by
    rw [tbAction, tbSlew, tbAdj_tbStored, hrate]
  have hsame : ∀ m, timeBase (tbStored s n 2 false adj) m = timeBase s m := fun m => timeBase_of_tim rfl m
  rw [hact, timeBase_written, timeBase_modTb, timeBase_showTb, timeBase_modTb]
  refine ⟨rfl, rfl, ?_, fun m _ hm => ?_⟩
  · rw [tbSync, timeBase_modTb]
    exact hat
  · rw [timeBase_written, timeBase_modTb_ne hm, timeBase_showTb, timeBase_modTb_ne hm, tbSync, timeBase_modTb_ne hm, hsame]

end Shown

end Actions

end Sys2Proof.TimeBases

namespace Sys2Proof.TimeBases

open Sys2Proof Sys2Proof.Machine Sys2Proof.Frame Sys2Proof.HostWrites

/-! ### Snapshots (R326) -/

section Snapshot

variable {s : State} {h : Nat}

/-- The row of TIM_CTRL in the register index. -/
def timCtrlRow : RegRow := ⟨0x2800, 1, 1, 1, 1, 0x00000000#32, 0x00000000#32, 0x00000000#32, 0x00000000#32, 0x00000000#32, 0x00000001#32⟩

/-- The pairs that a snapshot writes. -/
def snapRegs : List Nat := [TIM_CTRL, TIM_SNAP_STEP, TIM_TB_SNAP_LO 0, TIM_TB_SNAP_HI 0, TIM_TB_SNAP_LO 1, TIM_TB_SNAP_HI 1, TIM_TB_SNAP_LO 2,
  TIM_TB_SNAP_HI 2, TIM_TB_SNAP_LO 3, TIM_TB_SNAP_HI 3]

theorem mem_snapRegs {n : Nat} (hn : n < 4) : TIM_TB_SNAP_LO n ∈ snapRegs ∧ TIM_TB_SNAP_HI n ∈ snapRegs := by
  revert n
  decide

/-- No time base runs by what a snapshot writes. -/
theorem snapRegs_apart (m : Nat) : TIM_TB_CTRL m ∉ snapRegs ∧ TIM_TB_RATE m ∉ snapRegs ∧ TIM_TB_ADJ_LO m ∉ snapRegs ∧ TIM_TB_ADJ_HI m ∉ snapRegs := by
  simp only [snapRegs, List.mem_cons, List.not_mem_nil, or_false, TIM_TB_CTRL, TIM_TB_RATE, TIM_TB_ADJ_LO, TIM_TB_ADJ_HI, TIM_CTRL, TIM_SNAP_STEP,
    TIM_TB_SNAP_LO, TIM_TB_SNAP_HI]
  omega

/-- The value of one time base is latched. -/
def latched (τ : Nat) (s : State) (n : Nat) : State := wrPair s (TIM_TB_SNAP_LO n) (TIM_TB_SNAP_HI n) (tbNs (tbAt s n τ))

theorem regsBut_latched {t : State} {n τ : Nat} (hn : n < 4) (ht : regsBut s t snapRegs) : regsBut s (latched τ t n) snapRegs :=
  regsBut_wr (regsBut_wr ht (mem_snapRegs hn).1 _) (mem_snapRegs hn).2 _

theorem rdPair_wrPair {lo hi v : Nat} (hne : lo ≠ hi) (hv : v < 2 ^ 64) (s : State) : rdPair (wrPair s lo hi v) lo hi = v := by
  rw [rdPair, wrPair, rd_wr_ne _ _ _ _ hne, rd_wr_self, rd_wr_self, BitVec.toNat_ofNat, BitVec.toNat_ofNat]
  omega

theorem rdPair_latched_ne {t : State} {n m τ : Nat} (hne : n ≠ m) :
    rdPair (latched τ t m) (TIM_TB_SNAP_LO n) (TIM_TB_SNAP_HI n) = rdPair t (TIM_TB_SNAP_LO n) (TIM_TB_SNAP_HI n) := by
  have hlo : rd (latched τ t m) (TIM_TB_SNAP_LO n) = rd t (TIM_TB_SNAP_LO n) := (rd_wr_ne _ _ _ _ (by grind)).trans (rd_wr_ne _ _ _ _ (by grind))
  have hhi : rd (latched τ t m) (TIM_TB_SNAP_HI n) = rd t (TIM_TB_SNAP_HI n) := (rd_wr_ne _ _ _ _ (by grind)).trans (rd_wr_ne _ _ _ _ (by grind))
  rw [rdPair, rdPair, hlo, hhi]

theorem tbNs_lt (v : Int) : tbNs v < 2 ^ 64 := by
  rw [tbNs]
  omega

/-- Latching the time bases of a list leaves each of them in its own pair. -/
theorem latched_fold (τ : Nat) : ∀ (l : List Nat) (t : State), (∀ n ∈ l, n < 4) → l.Nodup → t.tim = s.tim → regsBut s t snapRegs →
    (l.foldl (latched τ) t).tim = s.tim ∧ regsBut s (l.foldl (latched τ) t) snapRegs ∧
    (∀ n ∈ l, rdPair (l.foldl (latched τ) t) (TIM_TB_SNAP_LO n) (TIM_TB_SNAP_HI n) = tbNs (tbAt s n τ)) ∧
    (∀ n, n ∉ l → rdPair (l.foldl (latched τ) t) (TIM_TB_SNAP_LO n) (TIM_TB_SNAP_HI n) = rdPair t (TIM_TB_SNAP_LO n) (TIM_TB_SNAP_HI n))
  | [], t, _, _, htim, hregs => ⟨htim, hregs, fun _ hn => absurd hn List.not_mem_nil, fun _ _ => rfl⟩
  | k :: ks, t, hl, hnd, htim, hregs => by
    obtain ⟨hk, hks⟩ := List.nodup_cons.1 hnd
    have hk4 := hl k List.mem_cons_self
    obtain ⟨htim', hregs', hin, hout⟩ := latched_fold τ ks (latched τ t k) (fun n hn => hl n (List.mem_cons_of_mem _ hn)) hks htim (regsBut_latched hk4 hregs)
    refine ⟨htim', hregs', fun n hn => ?_, fun n hn => ?_⟩
    · rcases List.mem_cons.1 hn with rfl | hmem
      · have hpair := rdPair_wrPair (lo := TIM_TB_SNAP_LO n) (hi := TIM_TB_SNAP_HI n) (by grind) (tbNs_lt (tbAt t n τ)) t
        rw [List.foldl_cons, hout n hk, latched, hpair, tbAt_of_same (sameTime_of_regsBut htim hregs snapRegs_apart)]
      · exact hin n hmem
    · obtain ⟨hne, hnot⟩ := not_or.1 (fun h => hn (List.mem_cons.2 h))
      exact (hout n hnot).trans (rdPair_latched_ne hne)

/-- A snapshot latches all four. -/
theorem tbSnap_effect {t : State} (htim : t.tim = s.tim) (hregs : regsBut s t snapRegs) (hnow : t.now = s.now) (hb : nextBoundary t = nextBoundary s) :
    (∀ n < 4, rdPair (tbSnap t) (TIM_TB_SNAP_LO n) (TIM_TB_SNAP_HI n) = tbNs (tbAt s n (nextBoundary s))) ∧
    rd (tbSnap t) TIM_SNAP_STEP = nextStep s ∧ regsBut s (tbSnap t) snapRegs := by
  obtain ⟨-, hregs', hin, -⟩ := latched_fold (s := s) (nextBoundary s) [0, 1, 2, 3] t (by decide) (by decide) htim hregs
  have hnow' : nextStep ([0, 1, 2, 3].foldl (latched (nextBoundary s)) t) = nextStep s := by
    show BitVec.ofNat 32 (t.now + 1) = _
    rw [hnow, nextStep]
  have hsnap : tbSnap t = wr ([0, 1, 2, 3].foldl (latched (nextBoundary s)) t) TIM_SNAP_STEP (nextStep s) := by
    rw [← hnow', ← hb]
    rfl
  rw [hsnap]
  refine ⟨fun n hn => ?_, rd_wr_self .., regsBut_wr hregs' (by decide) _⟩
  have hmem : n ∈ [0, 1, 2, 3] := by
    simp only [List.mem_cons, List.not_mem_nil, or_false]
    omega
  rw [← hin n hmem, rdPair, rdPair, rd_wr_ne _ _ _ _ (by grind), rd_wr_ne _ _ _ _ (by grind)]

theorem tbSnap_shown (hs : serves s h) (hstart : startsNow s h (putFlag ⟨TIM_CTRL, 0, 0⟩ true)) : answers (.tbSnap h) s (fun t =>
      (∀ n < 4, rdPair t (TIM_TB_SNAP_LO n) (TIM_TB_SNAP_HI n) = tbNs (tbAt s n (nextBoundary s))) ∧ rd t TIM_SNAP_STEP = nextStep s ∧
      regsBut s t snapRegs ∧ wroteBut s t h [.regs, .sys]) := by
  replace hstart : startsNow s h [item TIM_CTRL 1#32 1#32] := hstart
  refine answers_of_answer (t := (hostItems s h [item TIM_CTRL 1#32 1#32]).1) rfl (by simp [hs.1]) ?_
  have hrow : MaskOk TIM_CTRL timCtrlRow 1#32 := by decide
  have hword : takenWord timCtrlRow (rd s TIM_CTRL) 1#32 1#32 = takenWord timCtrlRow (rd s TIM_CTRL) 1#32 1#32 := rfl
  generalize hw : takenWord timCtrlRow (rd s TIM_CTRL) 1#32 1#32 = w at hword
  have hbit : flag (wr (ahead s) TIM_CTRL w) TIM_CTRL_SNAP = true := by
    rw [flag_bit, rd_wr_self, ← hw, getLsbD_takenWord (by decide) (by decide), if_pos (by decide)]
    decide
  have heff : timEffect (ahead s) (wr (ahead s) TIM_CTRL w) TIM_CTRL (rd s TIM_CTRL) = tbSnap (setF (wr (ahead s) TIM_CTRL w) TIM_CTRL_SNAP 0) := by
    rw [timEffect, if_neg (by decide), if_pos rfl, hbit, if_pos rfl]
  have hitems := hostItems_taken_word (m := 1#32) (val := 1#32) hrow hs hstart
    (by rw [mayWrite_tim (by decide) (by decide)]; rfl) (by rw [storeValue_tim (by decide) (by decide)]; rfl)
    (by rw [stateRule_tim (by decide) (by decide)]; rfl)
  rw [hw, writeEffect_tim (by decide) (by decide), heff] at hitems
  rw [hitems]
  have hregs : regsBut s (setF (wr (ahead s) TIM_CTRL w) TIM_CTRL_SNAP 0) snapRegs :=
    regsBut_setF (regsBut_wr (regsBut_of_regs rfl _) (by decide) _) (by decide) _
  obtain ⟨hpairs, hstep, hbut⟩ := tbSnap_effect (s := s) (t := setF (wr (ahead s) TIM_CTRL w) TIM_CTRL_SNAP 0) rfl hregs rfl rfl
  refine ⟨fun n hn => ?_, ?_, regsBut_settled (regsBut_scrub hbut (by decide)), wroteBut_settled ?_ (by decide) (by decide)⟩
  · rw [← hpairs n hn, rdPair, rdPair, rd_settled, rd_settled, rd_scrub_ne _ (by grind), rd_scrub_ne _ (by grind)]
  · exact (rd_settled _).trans ((rd_scrub_ne _ (by decide)).trans hstep)
  · exact scrub_keeps _ _ (allows_of_subset (by decide)) (tbSnap_keeps _ (allows_of_subset (by decide)) (setF_keeps _ _ _ (allows_of_subset (by decide))
      (wr_keeps _ _ _ (allows_of_subset (by decide)) (Keeps.refl ..))))

end Snapshot

/-! ### Events of the time bases (R325, R327, R330, R332) -/

section Events

variable {s : State} {t₀ : Nat}

/-- A register beside the counters of records and notifications. -/
theorem not_tally {j : Nat} (hj : 0x305 < j) : j ∉ tally := by
  rw [mem_tally]
  omega

/-- TB0 has gone into holdover at an instant, with a drift. -/
def heldOver (s : State) (τ f : Nat) : State := { s with tim := { s.tim with hoAt := τ, hoF := f } }

def holdoverShown (s : State) (τ f : Nat) : State := bump (setF (setB (heldOver s τ f) (TIM_TB_STAT_HOLDOVER 0) true) TIM_HO_STAT_T_HO 0) TIM_CNT_HO_CNT

theorem holdoverEntry_due {τ : Nat} (hvalid : flag s (TIM_TB_STAT_VALID 0) = true) (hno : flag s (TIM_TB_STAT_HOLDOVER 0) = false)
    (hage : s.tim.steered + ticksPerSec ≤ τ) : holdoverEntry s τ =
      raiseIrq (record (holdoverShown s τ (if flag s TIM_HO_STAT_LRN_OK then getF s TIM_HO_MODEL_FU else 500)) 0x9006 noInst (leBytes 4 s.tim.unc))
        TIM_IRQ_HO ⟨TIM_IEN, 2, 2⟩ 4 := by
  have hdue : (flag s (TIM_TB_STAT_VALID 0) && !flag s (TIM_TB_STAT_HOLDOVER 0) && decide (s.tim.steered + ticksPerSec ≤ τ)) = true := by
    simp [hvalid, hno, hage]
  rw [holdoverEntry, if_pos hdue]
  rfl

theorem holdoverEntry_shown (hin : inThisStep s t₀ = true) (hvalid : flag s (TIM_TB_STAT_VALID 0) = true) (hno : flag s (TIM_TB_STAT_HOLDOVER 0) = false)
    (hage : s.tim.steered + ticksPerSec ≤ absTick s t₀) : answers (.holdoverEntry t₀) s (fun t => flag t (TIM_TB_STAT_HOLDOVER 0) = true ∧
      getF t TIM_HO_STAT_T_HO = 0 ∧ t.tim.hoAt = absTick s t₀ ∧ t.tim.hoF = (if flag s TIM_HO_STAT_LRN_OK then getF s TIM_HO_MODEL_FU else 500) ∧
      flag t TIM_IRQ_HO = true ∧ getF t TIM_CNT_HO_CNT = min (getF s TIM_CNT_HO_CNT + 1) (2 ^ 32 - 1) ∧
      regsBut s t (TIM_TB_STAT 0 :: TIM_HO_STAT :: TIM_CNT_HO :: TIM_IRQ :: tally) ∧ partsBut s t [.regs, .tim, .recd, .hif]) := by
  refine answers_of_answer (t := holdoverEntry s (absTick s t₀)) rfl hin ?_
  have hkeeps := holdoverEntry_keeps (R := (· ∈ [Part.regs, .tim, .recd, .hif])) s (absTick s t₀) (allows_of_subset (by decide)) (Keeps.refl ..)
  rw [holdoverEntry_due hvalid hno hage] at hkeeps ⊢
  generalize (if flag s TIM_HO_STAT_LRN_OK then getF s TIM_HO_MODEL_FU else 500) = f at hkeeps ⊢
  generalize absTick s t₀ = τ at hkeeps ⊢
  have hshown : regsBut s (holdoverShown s τ f) [TIM_TB_STAT 0, TIM_HO_STAT, TIM_CNT_HO] :=
    regsBut_bump (regsBut_setF (regsBut_setB (regsBut_of_regs rfl _) (by simp) _) (by simp) _) (by simp) _
  have htold := regsBut_announced (holdoverShown s τ f) 0x9006 (leBytes 4 s.tim.unc) TIM_IRQ_HO ⟨TIM_IEN, 2, 2⟩ 4
  have htim := announced_tim (holdoverShown s τ f) 0x9006 (leBytes 4 s.tim.unc) TIM_IRQ_HO ⟨TIM_IEN, 2, 2⟩ 4
  rw [htim]
  refine ⟨(flag_of_regsBut htold (by decide)).trans ?_, (getF_of_regsBut htold (by decide)).trans ?_, rfl, rfl,
    flag_raiseIrq _ _ _ _ (by decide) (by decide), (getF_of_regsBut htold (by decide)).trans ?_, ?_, partsBut_of_keeps hkeeps⟩
  · exact (flag_bump_apart (by decide) _).trans ((flag_setF_apart (by decide) _).trans (flag_setB _ _ _ (by decide)))
  · exact (getF_bump_apart (by decide) _).trans (getF_setF _ _ _ (by decide))
  · refine (getF_bump _ _ _ (by decide)).trans ?_
    rw [getF_setF_apart (by decide), getF_setB_apart (by decide)]
    rfl
  · refine regsBut_trans (regsBut_mono hshown ?_) (regsBut_mono htold ?_)
    · exact fun j hj => by grind
    · exact fun j hj => by grind

theorem holdoverLimit_shown (hin : inThisStep s t₀ = true) (hho : flag s (TIM_TB_STAT_HOLDOVER 0) = true) (hno : flag s (TIM_TB_STAT_LIMIT 0) = false)
    (hage : s.tim.hoAt + getF s TIM_HO_CFG_LIMIT * ticksPerSec ≤ absTick s t₀) : answers (.holdoverLimit t₀) s (fun t =>
      flag t (TIM_TB_STAT_LIMIT 0) = true ∧ flag t (TIM_TB_STAT_HOLDOVER 0) = true ∧ regsBut s t (TIM_TB_STAT 0 :: tally) ∧ partsBut s t [.regs, .recd]) := by
  refine answers_of_answer (t := holdoverLimit s (absTick s t₀)) rfl hin ?_
  have hkeeps := holdoverLimit_keeps (R := (· ∈ [Part.regs, .recd])) s (absTick s t₀) (allows_of_subset (by decide)) (Keeps.refl ..)
  have hdue : (flag s (TIM_TB_STAT_HOLDOVER 0) && !flag s (TIM_TB_STAT_LIMIT 0)
      && decide (s.tim.hoAt + getF s TIM_HO_CFG_LIMIT * ticksPerSec ≤ absTick s t₀)) = true := by
    simp [hho, hno, hage]
  rw [holdoverLimit, if_pos hdue] at hkeeps ⊢
  refine ⟨(flag_record _ _ _ _ (by decide)).trans (flag_setB _ _ _ (by decide)),
    (flag_record _ _ _ _ (by decide)).trans ((flag_setB_apart (by decide) _).trans hho), ?_, partsBut_of_keeps hkeeps⟩
  exact regsBut_trans (regsBut_setB (regsBut_refl _ _) List.mem_cons_self _)
    (regsBut_mono (regsBut_record _ _ _ _) (List.subset_cons_of_subset _ lossCounters_subset_tally))

theorem leapSecond_shown (hin : inThisStep s t₀ = true) (hpend : flag s TIM_LEAP_NEXT_PEND = true)
    (hdue : (getF s TIM_LEAP_AT_SEC : Int) * 1000000000 * tbUnit ≤ tbAt s 0 (absTick s t₀)) : answers (.leapSecond t₀) s (fun t =>
      getF t TIM_LEAP_CUR_OFS = getF s TIM_LEAP_NEXT_OFS ∧ flag t TIM_LEAP_NEXT_PEND = false ∧ flag t TIM_IRQ_LEAP = true ∧
      regsBut s t (TIM_LEAP_CUR :: TIM_LEAP_NEXT :: TIM_IRQ :: tally) ∧ partsBut s t [.regs, .hif]) := by
  refine answers_of_answer (t := leapSecond s (absTick s t₀)) rfl hin ?_
  have hkeeps := leapSecond_keeps (R := (· ∈ [Part.regs, .hif])) s (absTick s t₀) (allows_of_subset (by decide)) (Keeps.refl ..)
  have hall : (flag s TIM_LEAP_NEXT_PEND && decide ((getF s TIM_LEAP_AT_SEC : Int) * 1000000000 * tbUnit ≤ tbAt s 0 (absTick s t₀))) = true := by
    simp [hpend, hdue]
  rw [leapSecond, if_pos hall] at hkeeps ⊢
  have hlt : getF s TIM_LEAP_NEXT_OFS < 2 ^ 16 := getF_lt s TIM_LEAP_NEXT_OFS
  refine ⟨(getF_raiseIrq_apart (by decide) (by decide) _ _ _).trans ((getF_setB_apart (by decide) _).trans ((getF_setF _ _ _ (by decide)).trans (Nat.mod_eq_of_lt hlt))),
    (flag_raiseIrq_apart (by decide) (by decide) _ _ _).trans (flag_setB _ _ _ (by decide)), flag_raiseIrq _ _ _ _ (by decide) (by decide), ?_,
    partsBut_of_keeps hkeeps⟩
  refine regsBut_trans (regsBut_setB (regsBut_setF (regsBut_refl _ _) List.mem_cons_self _) (by simp) _) (regsBut_mono (regsBut_raiseIrq _ _ _ _) ?_)
  exact List.cons_subset.2 ⟨by simp, fun j hj => by simp [dropCounters_subset_tally hj]⟩

theorem stepAtSecond_shown {n : Nat} {d : Int} (hin : inThisStep s t₀ = true) (hn : n < 4) (hpend : (timeBase s n).pend = some d)
    (hsec : secondHere s n (absTick s t₀) = true) : answers (.stepAtSecond n t₀) s (fun t => (timeBase t n).pend = none ∧
      (timeBase t n).at_ = absTick s t₀ ∧ (timeBase t n).val = tbAt s n (absTick s t₀) + d ∧ flag t (TIM_TB_STAT_STEPPED n) = true ∧
      flag t (TIM_TB_STAT_ADJ_PEND n) = false) := by
  refine answers_of_answer (t := stepAtSecond s n (absTick s t₀)) rfl (by simp [hn, hin]) ?_
  have hj := tbJump_effect hn s (absTick s t₀) (tbAt s n (absTick s t₀) + d)
  have hstep : stepAtSecond s n (absTick s t₀) =
      showTb (modTb (tbJump s n (absTick s t₀) (tbAt s n (absTick s t₀) + d)) n fun b => { b with pend := none, initial := false }) n (absTick s t₀) := by
    rw [stepAtSecond, hpend]
    exact if_pos hsec
  rw [hstep, timeBase_showTb, timeBase_modTb, hj.base]
  refine ⟨rfl, rfl, rfl, (flag_showTb (by decide) _ n _).trans ((flag_of_regs (modTb_regs ..) _).trans hj.stepped), ?_⟩
  rw [adjPend_showTb, timeBase_modTb]
  rfl

theorem slewComplete_shown {n : Nat} (hin : inThisStep s t₀ = true) (hn : n < 4)
    (hdone : (timeBase s n).slew = slewPart (timeBase s n) (absTick s t₀ - (timeBase s n).at_)) : answers (.slewComplete n t₀) s (fun t =>
      flag t (TIM_TB_STAT_SLEWING n) = false ∧ (timeBase t n).slew = 0 ∧ (timeBase t n).at_ = absTick s t₀ ∧
      (timeBase t n).val = tbAt s n (absTick s t₀) ∧ regsBut s t [TIM_TB_STAT n, TIM_TB_SLEWREM n] ∧ partsBut s t [.regs, .tim]) := by
  refine answers_of_answer (t := slewComplete s n (absTick s t₀)) rfl (by simp [hn, hin]) ?_
  have hkeeps := slewComplete_keeps (R := (· ∈ [Part.regs, .tim])) s n (absTick s t₀) (allows_of_subset (by decide)) (Keeps.refl ..)
  have hslew : flag (showTb s n (absTick s t₀)) (TIM_TB_STAT_SLEWING n) = false := by
    rw [slewing_showTb, ← hdone, Int.sub_self]
    rfl
  have hend : slewComplete s n (absTick s t₀) = tbSync (showTb s n (absTick s t₀)) n (absTick s t₀) := by
    rw [slewComplete, hslew]
    rfl
  rw [hend, tbSync, tbAt_of_same (sameTime_showTb ..)] at hkeeps ⊢
  rw [timeBase_modTb, timeBase_showTb]
  refine ⟨(flag_of_regs (modTb_regs ..) _).trans hslew, ?_, rfl, rfl, ?_, partsBut_of_keeps hkeeps⟩
  · show (timeBase s n).slew - slewPart (timeBase s n) _ = 0
    rw [← hdone, Int.sub_self]
  · exact regsBut_put (regsBut_mono (regsBut_showTb s n _) (by simp)) (modTb_regs ..)

end Events

/-- Settles O21: a time base's value moves only by `tbJump` and `tbSync`, and no snapshot or status field is among what bases run by. -/
theorem timeBasesAndTheirEvents : Obligations.TimeBasesAndTheirEvents := by
  unfold Obligations.TimeBasesAndTheirEvents
  refine ⟨⟨fun s h => tbSnap_shown, fun s h n adj hs hn how hptp hsrc => ⟨tbSet_shown hs hn how hptp hsrc, tbStep_shown hs hn how hptp hsrc,
    tbStepAtSecond_shown hs hn how hptp hsrc, tbSlew_shown hs hn how hptp hsrc⟩⟩, fun s t₀ hin => ⟨holdoverEntry_shown hin, holdoverLimit_shown hin,
    leapSecond_shown hin, fun n d hn hp hsec => stepAtSecond_shown hin hn hp hsec, fun n hn hd => slewComplete_shown hin hn hd⟩⟩

end Sys2Proof.TimeBases

namespace Sys2Proof.PwmGroups

open Sys2Proof Sys2Proof.Machine Sys2Proof.Frame Sys2Proof.HostWrites Sys2Proof.PwmShadow

/-! ### What is shown of a group -/

section Shown

variable {s : State} {g k : Nat}

theorem pwmAt_of_pwm {s t : State} (h : t.pwm = s.pwm) (k : Nat) : pwmAt t k = pwmAt s k := by rw [pwmAt, pwmAt, h]

/-- A field of the group's status that showing does not touch. -/
theorem getF_showPwm {hi lo : Nat} (hle : lo ≤ hi) (hout : hi = 0 ∨ lo = 3 ∧ hi = 3 ∨ 4 < lo) (s : State) (g : Nat) :
    getF (showPwm s g) ⟨PWM_GRP_STAT g, hi, lo⟩ = getF s ⟨PWM_GRP_STAT g, hi, lo⟩ := by
  unfold showPwm
  extract_lets hiz s₁ s₂ s₃ s₄
  have hbit : ∀ (u : State) (f : Field) (j : Nat) (b : Bool), f.reg = PWM_STAT → getF (setBitF u f j b) ⟨PWM_GRP_STAT g, hi, lo⟩ = getF u ⟨PWM_GRP_STAT g, hi, lo⟩ :=
    fun u f j b hf => getF_setB_apart ⟨le_refl _, hle, Or.inl (by simp only [hf, PWM_GRP_STAT, PWM_STAT]; omega)⟩ _
  refine (hbit _ _ _ _ rfl).trans ((hbit _ _ _ _ rfl).trans ((hbit _ _ _ _ rfl).trans ?_))
  refine (getF_setB_apart ⟨by simp, hle, Or.inr (by simp; omega)⟩ _).trans ((getF_setB_apart ⟨by simp, hle, Or.inr (by simp; omega)⟩ _).trans
    (getF_setB_apart ⟨by simp, hle, Or.inr (by simp; omega)⟩ _))

theorem pwmRuns_showPwm (s : State) (g : Nat) : pwmRuns (showPwm s g) g = pwmRuns s g := by
  rw [pwmRuns, flag, getF_showPwm (by decide) (by decide), ← flag, ← pwmRuns]

theorem flag_hiz_showPwm (s : State) (g : Nat) : flag (showPwm s g) (PWM_GRP_STAT_HIZ g) = (!pwmRuns s g || (pwmAt s g).pairs.all fun p => !p.driven) := by
  unfold showPwm
  extract_lets hiz s₁ s₂ s₃ s₄
  have h₁ : flag s₁ (PWM_GRP_STAT_HIZ g) = hiz := flag_setB _ _ _ ⟨by simp, by simp⟩
  refine (flag_setB_apart (by grind) _).trans ((flag_setB_apart (by grind) _).trans ((flag_setB_apart (by grind) _).trans ((flag_setB_apart (by grind) _).trans
    ((flag_setB_apart (by grind) _).trans h₁))))

/-- Whether a group has tripped stands in its fault flags. -/
theorem pwmTripped_of_rd {s t : State} (h : rd t (PWM_GRP_FLT g) = rd s (PWM_GRP_FLT g)) : pwmTripped t g = pwmTripped s g := by
  rw [pwmTripped, pwmTripped, flag_congr (f := PWM_GRP_FLT_TRIP0 g) h, flag_congr (f := PWM_GRP_FLT_TRIP1 g) h]

theorem flag_tripped_showPwm (s : State) (g : Nat) : flag (showPwm s g) (PWM_GRP_STAT_TRIPPED g) = pwmTripped s g := by
  unfold showPwm
  extract_lets hiz s₁ s₂ s₃ s₄
  have h₂ : flag s₂ (PWM_GRP_STAT_TRIPPED g) = pwmTripped s₁ g := flag_setB _ _ _ ⟨by simp, by simp⟩
  have h₁ : pwmTripped s₁ g = pwmTripped s g := pwmTripped_of_rd (rd_setB_ne _ _ _ _ (by simp only [PWM_GRP_FLT, PWM_GRP_STAT]; omega))
  refine (flag_setB_apart (by grind) _).trans ((flag_setB_apart (by grind) _).trans ((flag_setB_apart (by grind) _).trans ((flag_setB_apart (by grind) _).trans
    (h₂.trans h₁))))

end Shown

/-! ### Events and their flags (R277) -/

section Events

variable {s : State} {g k : Nat}

theorem regsBut_pwmFlag (s : State) (g k : Nat) : regsBut s (pwmFlag s g k) (PWM_GRP_IRQ g :: dropCounters) := by
  unfold pwmFlag
  extract_lets f
  split
  · exact regsBut_setB (regsBut_refl _ _) List.mem_cons_self _
  · exact regsBut_raiseIrq _ _ _ _

/-- The flag of an event that falls due is set. -/
theorem getLsbD_pwmFlag (hk : k < 8) (hg : g < 8) (s : State) : (rd (pwmFlag s g k) (PWM_GRP_IRQ g)).getLsbD k = true := by
  have hd : PWM_GRP_IRQ g ∉ dropCounters := by
    rw [mem_dropCounters]
    simp only [PWM_GRP_IRQ]
    omega
  unfold pwmFlag
  extract_lets f
  split
  next hset =>
    rw [← flag_bit]
    exact (flag_setB_apart ⟨by simp, by simp, by simp; omega⟩ _).trans hset
  next => exact getLsbD_raiseIrq s _ k _ _ hd (by omega)

theorem pwmFlag_pwm (s : State) (g k : Nat) : (pwmFlag s g k).pwm = s.pwm := by
  unfold pwmFlag
  extract_lets f
  split
  · rfl
  · exact (keeps_raiseIrq _ _ _ _).same .pwm (by decide)

/-- What an event of a type leaves: the count of its occurrences in the group, and its flag where it falls due. -/
structure Occurs (s t : State) (g k : Nat) : Prop where
  grp : ∃ o, pwmAt t g = { pwmAt s g with occ := o }
  others : ∀ j, j ≠ g → pwmAt t j = pwmAt s j
  regs : regsBut s t (PWM_GRP_IRQ g :: dropCounters)
  due : getF s (PWM_GRP_IEN_PSC g) < (pwmAt s g).occ.getD k 0 + 1 → (rd t (PWM_GRP_IRQ g)).getLsbD k = true
  idle : (pwmAt s g).occ.getD k 0 + 1 ≤ getF s (PWM_GRP_IEN_PSC g) → t.regs = s.regs

theorem pwmEvent_occurs (hk : k < 8) (hg : g < 8) (s : State) : Occurs s (pwmEvent s g k) g k := by
  unfold pwmEvent
  extract_lets n
  split
  next hdue =>
    have hat : ∀ j, pwmAt (pwmFlag (modPwm s g fun x => { x with occ := x.occ.set k 0 }) g k) j = pwmAt (modPwm s g fun x => { x with occ := x.occ.set k 0 }) j :=
      fun j => pwmAt_of_pwm (pwmFlag_pwm ..) j
    exact ⟨⟨_, (hat g).trans (pwmAt_modPwm ..)⟩, fun j hj => (hat j).trans (pwmAt_modPwm_ne s _ hj), regsBut_before (regsBut_pwmFlag _ _ _) rfl,
      fun _ => getLsbD_pwmFlag hk hg _, fun hidle => absurd hdue (Nat.not_lt.2 hidle)⟩
  next hidle =>
    exact ⟨⟨_, pwmAt_modPwm ..⟩, fun j hj => pwmAt_modPwm_ne s _ hj, regsBut_of_regs rfl _, fun hdue => absurd hdue hidle, fun _ => rfl⟩

theorem getLsbD_IRQ_tally {t : State} (h : regsBut s t (PWM_GRP_IRQ g :: dropCounters)) : regsBut s t (PWM_GRP_IRQ g :: tally) :=
  regsBut_mono h (List.cons_subset_cons _ dropCounters_subset_tally)

/-- The compare of a pair that is high is reached within the period. -/
theorem compareEvent_due {p : Nat} {q : PwmPair} (hruns : pwmRuns s g = true) (hq : (pwmAt s g).pairs[p]? = some q) (hs : q.s = true) (hc : 0 < q.c)
    (hlt : q.c < 32 * (pwmAt s g).act.prd) : compareEvent s g p =
      pwmEvent (modPwm s g fun x => { x with pairs := x.pairs.set p (pairEdge q (pwmAt s g).act.dt false (32 * (pwmAt s g).start + q.c)) }) g (2 + p) := by
  have hget : (pwmAt s g).pairs.getD p PwmPair.reset = q := by rw [List.getD_eq_getElem?_getD, hq, Option.getD_some]
  have hcond : (pwmRuns s g && q.s && decide (0 < q.c ∧ q.c < 32 * (pwmAt s g).act.prd)) = true := by simp [hruns, hs, hc, hlt]
  unfold compareEvent
  extract_lets x y z
  have hx : x = pwmAt s g := rfl
  have hy : y = q := hget
  clear_value x y
  subst hx
  subst hy
  exact if_pos hcond

/-- A pair that goes low: off at once, the low side on after the dead time. -/
theorem pairEdge_low {q : PwmPair} (hs : q.s = true) (dt t : Nat) :
    pairEdge q dt false t = { q with s := false, h := none, l := if q.driven then some (t + 32 * dt) else none } := by
  unfold pairEdge
  cases hd : q.driven
  · rfl
  · rw [hs]
    rfl

/-- What the events of a period leave of a group, beside its pairs and its counts of events. -/
structure Steady (s t : State) (g : Nat) : Prop where
  start : (pwmAt t g).start = (pwmAt s g).start
  act : (pwmAt t g).act = (pwmAt s g).act
  armed : (pwmAt t g).armed = (pwmAt s g).armed
  others : ∀ j, j ≠ g → pwmAt t j = pwmAt s j
  regs : regsBut s t (PWM_GRP_IRQ g :: dropCounters)

theorem Steady.refl (s : State) (g : Nat) : Steady s s g := ⟨rfl, rfl, rfl, fun _ _ => rfl, regsBut_refl _ _⟩

theorem Steady.trans {s t u : State} (h : Steady s t g) (k : Steady t u g) : Steady s u g :=
  ⟨k.start.trans h.start, k.act.trans h.act, k.armed.trans h.armed, fun j hj => (k.others j hj).trans (h.others j hj), regsBut_trans h.regs k.regs⟩

theorem steady_of_occurs {u t : State} (h : Occurs u t g k) (hs : Steady s u g) : Steady s t g := by
  obtain ⟨o, ho⟩ := h.grp
  exact hs.trans ⟨by rw [ho], by rw [ho], by rw [ho], h.others, h.regs⟩

/-- A change of the pairs, or of the mark of the period's event. -/
theorem steady_modPwm {f : PwmGrp → PwmGrp} (hf : ∀ x, (f x).start = x.start ∧ (f x).act = x.act ∧ (f x).armed = x.armed) (s : State) (g : Nat) :
    Steady s (modPwm s g f) g := by
  obtain ⟨h1, h2, h3⟩ := hf (pwmAt s g)
  refine ⟨?_, ?_, ?_, fun j hj => pwmAt_modPwm_ne s _ hj, regsBut_of_regs rfl _⟩
  · rw [pwmAt_modPwm, h1]
  · rw [pwmAt_modPwm, h2]
  · rw [pwmAt_modPwm, h3]

theorem steady_compareEvent {p : Nat} (hp : p < 3) (hg : g < 8) (s : State) : Steady s (compareEvent s g p) g := by
  unfold compareEvent
  extract_lets x q q'
  split
  · refine steady_of_occurs (pwmEvent_occurs (by omega) hg _) (steady_modPwm ?_ _ _)
    exact fun _ => ⟨rfl, rfl, rfl⟩
  · exact Steady.refl _ _

theorem steady_periodEvent (hg : g < 8) (s : State) : Steady s (periodEvent s g) g := by
  unfold periodEvent
  split
  · refine steady_of_occurs (pwmEvent_occurs (by omega) hg _) (steady_modPwm ?_ _ _)
    exact fun _ => ⟨rfl, rfl, rfl⟩
  · exact Steady.refl _ _

end Events

/-! ### The copy of the shadow set and the compares of a period (R265, R267 to R269) -/

section Copy

variable {s : State} {g : Nat}

theorem takeWrite_keeps_act (x : PwmGrp) (w : PwmWrite) : (takeWrite x w).start = x.start ∧ (takeWrite x w).act = x.act ∧ (takeWrite x w).armed = x.armed :=
  ⟨rfl, rfl, rfl⟩

theorem steady_takeWrites (s : State) (g t : Nat) : Steady s (takeWrites s g t) g := by
  have hfold : ∀ (l : List PwmWrite) (x : PwmGrp), (l.foldl takeWrite x).start = x.start ∧ (l.foldl takeWrite x).act = x.act ∧ (l.foldl takeWrite x).armed = x.armed := by
    intro l
    induction l with
    | nil => exact fun x => ⟨rfl, rfl, rfl⟩
    | cons w ws ih => exact fun x => ih (takeWrite x w)
  refine steady_modPwm ?_ _ _
  exact fun x => hfold _ _

/-- The registers of a group that a period writes beside its status and its interrupts. -/
def periodRegs (g : Nat) : List Nat := [PWM_GRP_PRD g, PWM_LOADALL, PWM_GRP_LAND g, PWM_PR_LAND g 0, PWM_PR_LAND g 1, PWM_PR_LAND g 2,
  PWM_PR_ACT g 0, PWM_PR_ACT g 1, PWM_PR_ACT g 2, PWM_GRP_CNT_SIEVE g]

theorem mem_periodRegs {j : Nat} (hg : g < 8) (hj : j ∈ periodRegs g) : j ≠ PWM_GRP_CTRL g ∧ j ≠ PWM_GRP_STAT g := by
  simp only [periodRegs, List.mem_cons, List.not_mem_nil, or_false, PWM_GRP_PRD, PWM_LOADALL, PWM_GRP_LAND, PWM_PR_LAND, PWM_PR_ACT, PWM_GRP_CNT_SIEVE] at hj
  simp only [PWM_GRP_CTRL, PWM_GRP_STAT]
  omega

theorem regsBut_noteLand {t : State} (pcnt off : Nat) (h : regsBut s t (periodRegs g)) : regsBut s (noteLand g pcnt t off) (periodRegs g) := by
  have hland : PWM_GRP_LAND g ∈ periodRegs g := by simp [periodRegs]
  unfold noteLand
  extract_lets pend u
  split
  · exact regsBut_setB (regsBut_setF (regsBut_setF h hland _) hland _) hland _
  · split
    next h4 h7 =>
      have hpair : PWM_PR_LAND g (off - 4) ∈ periodRegs g := by
        obtain h | h | h : off - 4 = 0 ∨ off - 4 = 1 ∨ off - 4 = 2 := by omega
        · simp [periodRegs, h]
        · simp [periodRegs, h]
        · simp [periodRegs, h]
      exact regsBut_setB (regsBut_setF h hpair _) hpair _
    next => exact h

theorem noteLand_pwm (g pcnt : Nat) (s : State) (off : Nat) : (noteLand g pcnt s off).pwm = s.pwm := by
  unfold noteLand
  extract_lets pend u
  split
  · rfl
  · split <;> rfl

/-- What the copy at an instant leaves. -/
structure Copied (s t : State) (g τ : Nat) : Prop where
  grp : pwmAt t g = { pwmAt s g with act := (pwmAt s g).shadow, waits := [], armed := (pwmAt s g).armed.filter fun a => decide (τ < a) }
  others : ∀ j, j ≠ g → pwmAt t j = pwmAt s j
  regs : regsBut s t (periodRegs g)

/-- A load-all that is armed later than the copy stays armed. -/
theorem if_late (o : Option Nat) (τ : Nat) :
    (if (match o with | some a => decide (τ < a) | none => false) then o else none) = o.filter fun a => decide (τ < a) := by
  cases o with
  | none => rfl
  | some a => by_cases h : τ < a <;> simp [h, Option.filter]

theorem copyShadow_copied (s : State) (g τ : Nat) : Copied s (copyShadow s g τ) g τ := by
  unfold copyShadow
  extract_lets w late u₁ u₂ u₃
  have hlate : (if late then (pwmAt s g).armed else none) = (pwmAt s g).armed.filter fun a => decide (τ < a) := by
    exact if_late _ τ
  have hat : pwmAt u₁ g = { pwmAt s g with act := (pwmAt s g).shadow, waits := [], armed := (pwmAt s g).armed.filter fun a => decide (τ < a) } := by
    rw [← hlate]
    exact pwmAt_modPwm ..
  have hpwm : u₃.pwm = u₁.pwm := by
    simp only [u₃]
    split <;> rfl
  have hregs : regsBut s u₃ (periodRegs g) := by
    have h₂ : regsBut s u₂ (periodRegs g) := regsBut_setF (regsBut_of_regs rfl _) (by simp [periodRegs]) _
    simp only [u₃]
    split
    · exact h₂
    · exact regsBut_setB h₂ (by simp [periodRegs]) _
  have hfold : ∀ (l : List Nat) (p : Nat) (v : State), (l.foldl (noteLand g p) v).pwm = v.pwm := by
    intro l p
    induction l with
    | nil => exact fun v => rfl
    | cons o os ih => exact fun v => (ih _).trans (noteLand_pwm ..)
  have hall : (w.foldl (noteLand g (getF u₃ (PWM_GRP_STAT_PCNT g))) u₃).pwm = u₁.pwm := (hfold ..).trans hpwm
  exact ⟨(pwmAt_of_pwm hall g).trans hat, fun j hj => (pwmAt_of_pwm hall j).trans (pwmAt_modPwm_ne s _ hj),
    regsBut_foldl (fun o _ t ht => regsBut_noteLand _ o ht) hregs⟩

/-- Forming the compares of a period moves the pairs alone. -/
theorem formCompares_effect (s : State) (g : Nat) : (∃ l, pwmAt (formCompares s g) g = { pwmAt s g with pairs := l }) ∧
    (∀ j, j ≠ g → pwmAt (formCompares s g) j = pwmAt s j) ∧ regsBut s (formCompares s g) (periodRegs g) := by
  unfold formCompares
  extract_lets x st l u₁ u₂
  have hpwm : u₂.pwm = u₁.pwm := by
    have hfold : ∀ (m : List ((Nat × Bool × Bool) × Nat)) (v : State), (m.foldl (fun s q =>
        setB (setB (setF s (PWM_PR_ACT_CEFF g q.2) q.1.1) (PWM_PR_ACT_DROP g q.2) q.1.2.1) (PWM_PR_ACT_STRETCH g q.2) q.1.2.2) v).pwm = v.pwm := by
      intro m
      induction m with
      | nil => exact fun v => rfl
      | cons q qs ih => exact fun v => (ih _).trans rfl
    exact hfold _ u₁
  have hregs : regsBut s u₂ (periodRegs g) := by
    refine regsBut_foldl (fun q hq t ht => ?_) (regsBut_of_regs rfl _)
    have hlen : q.2 < 3 := by
      have := List.snd_lt_of_mem_zipIdx hq
      simpa [l] using this
    have hmem : PWM_PR_ACT g q.2 ∈ periodRegs g := by
      obtain h | h | h : q.2 = 0 ∨ q.2 = 1 ∨ q.2 = 2 := by omega
      · simp [periodRegs, h]
      · simp [periodRegs, h]
      · simp [periodRegs, h]
    exact regsBut_setB (regsBut_setB (regsBut_setF ht hmem _) hmem _) hmem _
  have hgrp : pwmAt u₁ g = { pwmAt s g with pairs := ((pwmAt s g).pairs.zip l).map fun q => { q.1 with c := q.2.1 } } := pwmAt_modPwm ..
  split
  · exact ⟨⟨_, (pwmAt_setF ..).trans ((pwmAt_of_pwm hpwm g).trans hgrp)⟩, fun j hj => (pwmAt_setF ..).trans ((pwmAt_of_pwm hpwm j).trans (pwmAt_modPwm_ne s _ hj)),
      regsBut_bump hregs (by simp [periodRegs]) _⟩
  · exact ⟨⟨_, (pwmAt_of_pwm hpwm g).trans hgrp⟩, fun j hj => (pwmAt_of_pwm hpwm j).trans (pwmAt_modPwm_ne s _ hj), hregs⟩

end Copy

end Sys2Proof.PwmGroups

namespace Sys2Proof.PwmGroups

open Sys2Proof Sys2Proof.Machine Sys2Proof.Frame Sys2Proof.HostWrites Sys2Proof.PwmShadow

/-! ### Period boundaries (R260, R267) -/

section Periods

variable {s : State} {g : Nat}

/-- The events of the period that ends have been given. -/
def periodEnded (s : State) (g : Nat) : State := periodEvent (compareEvent (compareEvent (compareEvent s g 0) g 1) g 2) g

theorem steady_periodEnded (hg : g < 8) (s : State) : Steady s (periodEnded s g) g :=
  (((steady_compareEvent (by decide) hg s).trans (steady_compareEvent (by decide) hg _)).trans (steady_compareEvent (by decide) hg _)).trans
    (steady_periodEvent hg _)

/-- The next period has begun: it is counted, and the writes complete by then are taken. -/
def periodBegun (s : State) (g : Nat) : State :=
  let u := modPwm (periodEnded s g) g fun x => { x with start := x.start + x.act.prd, prdDone := false }
  takeWrites (setF u (PWM_GRP_STAT_PCNT g) ((getF u (PWM_GRP_STAT_PCNT g) + 1) % 65536)) g (pwmAt u g).start

/-- A load-all that is armed by an instant. -/
def loadsBy (o : Option Nat) (τ : Nat) : Bool := match o with
  | some a => decide (a ≤ τ)
  | none => false

/-- The shadow set is copied where the mode, or a load-all, asks for it. -/
def periodLoaded (s : State) (g τ : Nat) : State :=
  if !flag s (PWM_GRP_CTRL_LDMODE g) || loadsBy (pwmAt s g).armed τ then copyShadow s g τ else s

/-- The pairs take their levels, and the group is shown. -/
def periodShown (s : State) (g : Nat) : State :=
  let u := formCompares s g
  showPwm (modPwm u g fun x => { x with
    pairs := (x.pairs.zipIdx 0).map fun q => pairBoundary x.act.dt (32 * x.start) ((getF u (PWM_GRP_CTRL_PAIR_EN g)).testBit q.2) q.1 }) g

theorem takeWrites_start (s : State) (g t : Nat) : (pwmAt (takeWrites s g t) g).start = (pwmAt s g).start := (steady_takeWrites s g t).start

theorem periodBoundary_eq (hruns : pwmRuns s g = true) : ∃ τ, τ = (pwmAt (periodBegun s g) g).start ∧
    periodBoundary s g = pwmEvent (periodShown (periodLoaded (periodBegun s g) g τ) g) g 0 := by
  unfold periodBoundary
  rw [if_neg (by simp [hruns])]
  extract_lets s₁ s₂ t s₃ s₄ load s₅ s₆ en s₇
  have h₄ : s₄ = periodBegun s g := rfl
  have ht : t = (pwmAt s₄ g).start := (takeWrites_start s₃ g t).symm
  clear_value s₄ t
  have hload : load = loadsBy (pwmAt s₄ g).armed t := rfl
  clear_value load
  have h₅ : s₅ = periodLoaded s₄ g t := by rw [periodLoaded, ← hload]
  clear_value s₅
  have h₇ : showPwm s₇ g = periodShown s₅ g := rfl
  clear_value s₇
  exact ⟨t, by rw [ht, h₄], by rw [h₇, h₅, h₄]⟩

theorem regs_takeWrites (s : State) (g t : Nat) : (takeWrites s g t).regs = s.regs := rfl

/-- The period that begins. -/
theorem periodBegun_effect (hg : g < 8) (s : State) : (pwmAt (periodBegun s g) g).start = (pwmAt s g).start + (pwmAt s g).act.prd ∧
    (pwmAt (periodBegun s g) g).act = (pwmAt s g).act ∧ (pwmAt (periodBegun s g) g).armed = (pwmAt s g).armed ∧
    (pwmAt (periodBegun s g) g).prdDone = false ∧ (∀ j, j ≠ g → pwmAt (periodBegun s g) j = pwmAt s j) ∧
    getF (periodBegun s g) (PWM_GRP_STAT_PCNT g) = (getF s (PWM_GRP_STAT_PCNT g) + 1) % 65536 ∧ pwmRuns (periodBegun s g) g = pwmRuns s g ∧
    rd (periodBegun s g) (PWM_GRP_CTRL g) = rd s (PWM_GRP_CTRL g) := by
  have hst := steady_periodEnded hg s
  have hout : ∀ j, j ≠ PWM_GRP_IRQ g → j ∉ dropCounters → rd (periodEnded s g) j = rd s j := fun j h1 h2 => hst.regs j (by simp [h1, h2])
  have hstat : rd (periodEnded s g) (PWM_GRP_STAT g) = rd s (PWM_GRP_STAT g) := hout _ (by grind) (by rw [mem_dropCounters]; grind)
  have hctrl : rd (periodEnded s g) (PWM_GRP_CTRL g) = rd s (PWM_GRP_CTRL g) := hout _ (by grind) (by rw [mem_dropCounters]; grind)
  unfold periodBegun
  extract_lets u
  generalize hv : setF u (PWM_GRP_STAT_PCNT g) ((getF u (PWM_GRP_STAT_PCNT g) + 1) % 65536) = v
  have hu : pwmAt v g = { pwmAt (periodEnded s g) g with start := (pwmAt (periodEnded s g) g).start + (pwmAt (periodEnded s g) g).act.prd, prdDone := false } := by
    rw [← hv]
    exact (pwmAt_setF ..).trans (pwmAt_modPwm ..)
  have hw := steady_takeWrites v g (pwmAt u g).start
  have hdone : (pwmAt (takeWrites v g (pwmAt u g).start) g).prdDone = (pwmAt v g).prdDone := by
    have hfold : ∀ (l : List PwmWrite) (x : PwmGrp), (l.foldl takeWrite x).prdDone = x.prdDone := by
      intro l
      induction l with
      | nil => exact fun x => rfl
      | cons w ws ih => exact fun x => ih (takeWrite x w)
    rw [takeWrites, pwmAt_modPwm, hfold]
  have hpc : getF u (PWM_GRP_STAT_PCNT g) = getF s (PWM_GRP_STAT_PCNT g) := getF_congr (f := PWM_GRP_STAT_PCNT g) (t := u) hstat
  refine ⟨?_, ?_, ?_, ?_, fun j hj => ?_, ?_, ?_, ?_⟩
  · rw [hw.start, hu, hst.start, hst.act]
  · rw [hw.act, hu, hst.act]
  · rw [hw.armed, hu, hst.armed]
  · rw [hdone, hu]
  · rw [hw.others j hj, ← hv]
    exact (pwmAt_setF ..).trans ((pwmAt_modPwm_ne _ _ hj).trans (hst.others j hj))
  · rw [getF_of_regs (regs_takeWrites ..), ← hv]
    refine (getF_setF _ _ _ ⟨by simp, by simp⟩).trans ?_
    rw [hpc]
    exact Nat.mod_eq_of_lt (Nat.mod_lt _ (by decide))
  · rw [pwmRuns, flag_of_regs (regs_takeWrites ..), pwmRuns, ← hv]
    exact (flag_setF_apart (by grind) _).trans (flag_congr (f := PWM_GRP_STAT_RUN g) (t := u) hstat)
  · rw [rd_of_regs (regs_takeWrites ..), ← hv]
    exact (rd_setF_ne _ _ _ _ (by grind)).trans hctrl

theorem periodShown_effect (hg : g < 8) (s : State) : (∃ l, pwmAt (periodShown s g) g = { pwmAt s g with pairs := l }) ∧
    (∀ j, j ≠ g → pwmAt (periodShown s g) j = pwmAt s j) ∧ getF (periodShown s g) (PWM_GRP_STAT_PCNT g) = getF s (PWM_GRP_STAT_PCNT g) ∧
    pwmRuns (periodShown s g) g = pwmRuns s g := by
  obtain ⟨⟨l, hl⟩, hothers, hregs⟩ := formCompares_effect s g
  have hstat : rd (formCompares s g) (PWM_GRP_STAT g) = rd s (PWM_GRP_STAT g) := hregs _ fun h => (mem_periodRegs hg h).2 rfl
  unfold periodShown
  extract_lets u
  refine ⟨⟨_, (pwmAt_showPwm ..).trans ((pwmAt_modPwm ..).trans (by rw [hl]))⟩, fun j hj => (pwmAt_showPwm ..).trans ((pwmAt_modPwm_ne u _ hj).trans (hothers j hj)), ?_, ?_⟩
  · exact (getF_showPwm (by decide) (by decide) _ g).trans (getF_congr (f := PWM_GRP_STAT_PCNT g) hstat)
  · exact (pwmRuns_showPwm _ g).trans (flag_congr (f := PWM_GRP_STAT_RUN g) hstat)

theorem loadsBy_none (τ : Nat) : loadsBy none τ = false := rfl

theorem periodBoundary_shown (hg : g < 8) (hruns : pwmRuns s g = true) : answers (.periodBoundary g) s (fun t =>
        (pwmAt t g).start = (pwmAt s g).start + (pwmAt s g).act.prd ∧ (pwmAt t g).prdDone = false ∧
        getF t (PWM_GRP_STAT_PCNT g) = (getF s (PWM_GRP_STAT_PCNT g) + 1) % 65536 ∧ pwmRuns t g = true ∧
        (flag s (PWM_GRP_CTRL_LDMODE g) = false → (pwmAt t g).act = (pwmAt t g).shadow ∧ (pwmAt t g).waits = [] ∧
          (pwmAt t g).armed = (pwmAt s g).armed.filter fun a => decide ((pwmAt t g).start < a)) ∧
        (flag s (PWM_GRP_CTRL_LDMODE g) = true → (pwmAt s g).armed = none → (pwmAt t g).act = (pwmAt s g).act) ∧
        (∀ k < 8, k ≠ g → pwmAt t k = pwmAt s k) ∧ partsBut s t [.regs, .hif, .pwm]) := by
  refine answers_of_answer (t := periodBoundary s g) rfl (by simp [hg]) ?_
  have hkeeps := periodBoundary_keeps (R := (· ∈ [Part.regs, .hif, .pwm])) s g (allows_of_subset (by decide)) (Keeps.refl ..)
  obtain ⟨τ, hτ, heq⟩ := periodBoundary_eq hruns
  rw [heq] at hkeeps ⊢
  obtain ⟨hstart, hact, harmed, hdone, hothers, hpcnt, hrun, hctrl⟩ := periodBegun_effect hg s
  rw [hstart] at hτ
  generalize periodBegun s g = b at *
  have hmode : flag b (PWM_GRP_CTRL_LDMODE g) = flag s (PWM_GRP_CTRL_LDMODE g) := flag_congr (f := PWM_GRP_CTRL_LDMODE g) hctrl
  have hev := pwmEvent_occurs (k := 0) (by decide) hg (periodShown (periodLoaded b g τ) g)
  obtain ⟨o, ho⟩ := hev.grp
  obtain ⟨⟨l, hl⟩, hsothers, hspcnt, hsrun⟩ := periodShown_effect hg (periodLoaded b g τ)
  rw [hl] at ho
  have hcopied := copyShadow_copied b g τ
  have hload : (pwmAt (periodLoaded b g τ) g).start = (pwmAt b g).start ∧ (pwmAt (periodLoaded b g τ) g).prdDone = (pwmAt b g).prdDone ∧
      (∀ j, j ≠ g → pwmAt (periodLoaded b g τ) j = pwmAt b j) ∧ rd (periodLoaded b g τ) (PWM_GRP_STAT g) = rd b (PWM_GRP_STAT g) := by
    unfold periodLoaded
    split
    · exact ⟨by rw [hcopied.grp], by rw [hcopied.grp], hcopied.others, hcopied.regs _ fun h => (mem_periodRegs hg h).2 rfl⟩
    · exact ⟨rfl, rfl, fun _ _ => rfl, rfl⟩
  obtain ⟨hlstart, hldone, hlothers, hlstat⟩ := hload
  have hstat : rd (pwmEvent (periodShown (periodLoaded b g τ) g) g 0) (PWM_GRP_STAT g) = rd (periodShown (periodLoaded b g τ) g) (PWM_GRP_STAT g) :=
    hev.regs _ (by simp only [List.mem_cons, mem_dropCounters]; grind)
  rw [ho]
  refine ⟨?_, ?_, ?_, ?_, fun himm => ?_, fun hlda hnone => ?_, fun k _ hk => ?_, partsBut_of_keeps hkeeps⟩
  · exact hlstart.trans hstart
  · exact hldone.trans hdone
  · exact (getF_congr (f := PWM_GRP_STAT_PCNT g) hstat).trans (hspcnt.trans ((getF_congr (f := PWM_GRP_STAT_PCNT g) hlstat).trans hpcnt))
  · exact (flag_congr (f := PWM_GRP_STAT_RUN g) hstat).trans (hsrun.trans ((flag_congr (f := PWM_GRP_STAT_RUN g) hlstat).trans (hrun.trans hruns)))
  · have hcopy : periodLoaded b g τ = copyShadow b g τ := by
      rw [periodLoaded, hmode, himm]
      rfl
    rw [hcopy, hcopied.grp]
    refine ⟨rfl, rfl, ?_⟩
    show (pwmAt b g).armed.filter _ = _
    rw [harmed, hstart, hτ]
  · have hstands : periodLoaded b g τ = b := by
      rw [periodLoaded, hmode, hlda, harmed, hnone]
      rfl
    rw [hstands]
    exact hact
  · exact (hev.others k hk).trans ((hsothers k hk).trans ((hlothers k hk).trans (hothers k hk)))

/-! ### The events within a period (R277), and the delay line (R262) -/

theorem pwmCmpEvent_shown {p : Nat} {q : PwmPair} (hg : g < 8) (hp : p < 3) (hruns : pwmRuns s g = true) (hq : (pwmAt s g).pairs[p]? = some q)
    (hs : q.s = true) (hc : 0 < q.c) (hlt : q.c < 32 * (pwmAt s g).act.prd) : answers (.pwmCmpEvent g p) s (fun t =>
      (pwmAt t g).pairs[p]? = some { q with
          s := false, h := none, l := if q.driven then some (32 * (pwmAt s g).start + q.c + 32 * (pwmAt s g).act.dt) else none } ∧
      (getF s (PWM_GRP_IEN_PSC g) < (pwmAt s g).occ.getD (2 + p) 0 + 1 → (rd t (PWM_GRP_IRQ g)).getLsbD (2 + p) = true) ∧
      regsBut s t (PWM_GRP_IRQ g :: tally) ∧ partsBut s t [.regs, .hif, .pwm]) := by
  refine answers_of_answer (t := compareEvent s g p) rfl (by simp [hg, hp]) ?_
  have hkeeps := compareEvent_keeps (R := (· ∈ [Part.regs, .hif, .pwm])) s g p (allows_of_subset (by decide)) (Keeps.refl ..)
  rw [compareEvent_due hruns hq hs hc hlt, pairEdge_low hs] at hkeeps ⊢
  generalize hq' : ({ q with
      s := false, h := none, l := if q.driven then some (32 * (pwmAt s g).start + q.c + 32 * (pwmAt s g).act.dt) else none } : PwmPair) = q' at hkeeps ⊢
  have hev := pwmEvent_occurs (k := 2 + p) (by omega) hg (modPwm s g fun x => { x with pairs := x.pairs.set p q' })
  obtain ⟨o, ho⟩ := hev.grp
  have hlen : p < (pwmAt s g).pairs.length := (List.getElem?_eq_some_iff.1 hq).1
  refine ⟨?_, fun hdue => hev.due ?_, getLsbD_IRQ_tally (regsBut_before hev.regs rfl), partsBut_of_keeps hkeeps⟩
  · rw [ho, pwmAt_modPwm]
    exact List.getElem?_set_self hlen
  · rw [pwmAt_modPwm]
    exact hdue

theorem pwmPrdEvent_shown (hg : g < 8) (hruns : pwmRuns s g = true) (hnot : (pwmAt s g).prdDone = false) : answers (.pwmPrdEvent g) s (fun t =>
      (pwmAt t g).prdDone = true ∧ (getF s (PWM_GRP_IEN_PSC g) < (pwmAt s g).occ.getD 1 0 + 1 → (rd t (PWM_GRP_IRQ g)).getLsbD 1 = true) ∧
      ((pwmAt s g).occ.getD 1 0 + 1 ≤ getF s (PWM_GRP_IEN_PSC g) → t.regs = s.regs) ∧
      regsBut s t (PWM_GRP_IRQ g :: tally) ∧ partsBut s t [.regs, .hif, .pwm]) := by
  refine answers_of_answer (t := periodEvent s g) rfl (by simp [hg]) ?_
  have hkeeps := periodEvent_keeps (R := (· ∈ [Part.regs, .hif, .pwm])) s g (allows_of_subset (by decide)) (Keeps.refl ..)
  have heq : periodEvent s g = pwmEvent (modPwm s g fun x => { x with prdDone := true }) g 1 := by
    rw [periodEvent, hruns, hnot]
    rfl
  rw [heq] at hkeeps ⊢
  have hev := pwmEvent_occurs (k := 1) (by decide) hg (modPwm s g fun x => { x with prdDone := true })
  obtain ⟨o, ho⟩ := hev.grp
  refine ⟨by rw [ho, pwmAt_modPwm], fun hdue => hev.due ?_, fun hidle => hev.idle ?_, getLsbD_IRQ_tally (regsBut_before hev.regs rfl), partsBut_of_keeps hkeeps⟩
  · rw [pwmAt_modPwm]
    exact hdue
  · rw [pwmAt_modPwm]
    exact hidle

theorem delayLineLock_shown {c : Nat} (hc : c < 256) : answers (.delayLineLock c) s (fun t => flag t PWM_CAL_LOCK = true ∧ getF t PWM_CAL_TRIM = c ∧
      getF t PWM_CAL_CALS = (getF s PWM_CAL_CALS + 1) % 65536 ∧ regsBut s t [PWM_CAL] ∧ partsBut s t [.regs]) := by
  refine answers_of_answer (ok := decide (c < 256)) rfl (by simp [hc]) ⟨?_, ?_, ?_, ?_, ?_⟩
  · exact (flag_setF_apart (by decide) _).trans ((flag_setF_apart (by decide) _).trans (flag_setB _ _ _ (by decide)))
  · exact (getF_setF_apart (by decide) _).trans ((getF_setF _ _ _ (by decide)).trans (Nat.mod_eq_of_lt hc))
  · refine (getF_setF _ _ _ (by decide)).trans ?_
    rw [getF_setF_apart (by decide), getF_setB_apart (by decide)]
    exact Nat.mod_eq_of_lt (Nat.mod_lt _ (by decide))
  · exact regsBut_setF (regsBut_setF (regsBut_setB (regsBut_refl _ _) (by simp) _) (by simp) _) (by simp) _
  · exact partsBut_of_keeps (setF_keeps _ _ _ (allows_of_subset (by decide)) (setF_keeps _ _ _ (allows_of_subset (by decide))
      (setB_keeps _ _ _ (allows_of_subset (by decide)) (Keeps.refl ..))))

end Periods

end Sys2Proof.PwmGroups

namespace Sys2Proof.PwmGroups

open Sys2Proof Sys2Proof.Machine Sys2Proof.Frame Sys2Proof.HostWrites Sys2Proof.PwmShadow

/-! ### Starts, stops and trips (R271 to R276) -/

section Runs

variable {s : State} {g : Nat}

/-- A group that has stopped. -/
structure Stopped (t : State) (g : Nat) : Prop where
  runs : pwmRuns t g = false
  hiz : flag t (PWM_GRP_STAT_HIZ g) = true
  pairs : ∀ q ∈ (pwmAt t g).pairs, q.driven = false

theorem stopped_of_rd {t u : State} (h : Stopped t g) (hrd : rd u (PWM_GRP_STAT g) = rd t (PWM_GRP_STAT g)) (hpwm : u.pwm = t.pwm) : Stopped u g :=
  ⟨(flag_congr (f := PWM_GRP_STAT_RUN g) hrd).trans h.runs, (flag_congr (f := PWM_GRP_STAT_HIZ g) hrd).trans h.hiz, by
    rw [pwmAt_of_pwm hpwm]
    exact h.pairs⟩

theorem stopPwm_stopped (s : State) (g : Nat) : Stopped (stopPwm s g) g ∧ regsBut s (stopPwm s g) [PWM_GRP_STAT g, PWM_STAT] := by
  unfold stopPwm
  extract_lets u
  have hrun : pwmRuns u g = false := flag_setB _ _ _ ⟨by simp, by simp⟩
  refine ⟨⟨(pwmRuns_showPwm _ g).trans hrun, ?_, fun q hq => ?_⟩,
    regsBut_trans (regsBut_setB (regsBut_refl _ _) (by simp) _) (regsBut_before (regsBut_showPwm _ g) rfl)⟩
  · rw [flag_hiz_showPwm, show pwmRuns (modPwm u g _) g = pwmRuns u g from rfl, hrun]
    rfl
  · rw [pwmAt_showPwm, pwmAt_modPwm, List.mem_map] at hq
    obtain ⟨q₀, -, rfl⟩ := hq
    rfl

/-- What a start leaves. -/
structure Started (s t : State) (g : Nat) : Prop where
  runs : pwmRuns t g = true
  pcnt : getF t (PWM_GRP_STAT_PCNT g) = 0
  forced : flag t (PWM_GRP_STAT_FORCED g) = false
  loaded : (pwmAt t g).act = (pwmAt t g).shadow
  start : (pwmAt t g).start + min (getF s (PWM_GRP_CTRL_START_CNT g)) ((pwmAt t g).act.prd - 1) =
    max (nowTick s + slotsPerStep) (min (getF s (PWM_GRP_CTRL_START_CNT g)) ((pwmAt t g).act.prd - 1))
  ctrl : rd t (PWM_GRP_CTRL g) = rd s (PWM_GRP_CTRL g)

/-- The group is marked as running, and its shadow set is in force. -/
def startMarked (s : State) (g : Nat) : State := setB (setB (setF s (PWM_GRP_STAT_PCNT g) 0) (PWM_GRP_STAT_RUN g) true) (PWM_GRP_STAT_FORCED g) false

def startLoaded (s : State) (g b : Nat) : State := formCompares (copyShadow (takeWrites (startMarked s g) g b) g b) g

theorem startLoaded_effect (hg : g < 8) (s : State) (b : Nat) : (pwmAt (startLoaded s g b) g).act = (pwmAt (startLoaded s g b) g).shadow ∧
    rd (startLoaded s g b) (PWM_GRP_STAT g) = rd (startMarked s g) (PWM_GRP_STAT g) ∧ rd (startLoaded s g b) (PWM_GRP_CTRL g) = rd s (PWM_GRP_CTRL g) := by
  have hcopied := copyShadow_copied (takeWrites (startMarked s g) g b) g b
  obtain ⟨⟨l, hl⟩, -, hregs⟩ := formCompares_effect (copyShadow (takeWrites (startMarked s g) g b) g b) g
  have hall : regsBut (startMarked s g) (startLoaded s g b) (periodRegs g) := regsBut_trans (regsBut_before hcopied.regs rfl) hregs
  refine ⟨?_, hall _ fun h => (mem_periodRegs hg h).2 rfl, (hall _ fun h => (mem_periodRegs hg h).1 rfl).trans ?_⟩
  · rw [startLoaded, hl, hcopied.grp]
  · exact (rd_setB_ne _ _ _ _ (by grind)).trans ((rd_setB_ne _ _ _ _ (by grind)).trans (rd_setF_ne _ _ _ _ (by grind)))

/-- The group as it starts at instant `b`: at its start count, or at the end of its period. -/
def startedGrp (v : State) (g b : Nat) (y : PwmGrp) : PwmGrp :=
  let n := min (getF v (PWM_GRP_CTRL_START_CNT g)) ((pwmAt v g).act.prd - 1)
  { y with
    start := b - n, occ := [0, 0, 0, 0, 0], prdDone := decide ((pwmAt v g).act.prd ≤ n + 1),
    pairs := (y.pairs.zipIdx 0).map fun q =>
      if (getF v (PWM_GRP_CTRL_PAIR_EN g)).testBit q.2 then pairBegin q.1 (pwmAt v g).act.dt (decide (32 * n < q.1.c)) (32 * b)
      else { q.1 with s := decide (32 * n < q.1.c), h := none, l := none, driven := false } }

theorem startPwm_eq (s : State) (g : Nat) : startPwm s g =
    showPwm (modPwm (startLoaded s g (nowTick s + slotsPerStep)) g (startedGrp (startLoaded s g (nowTick s + slotsPerStep)) g (nowTick s + slotsPerStep))) g := by
  unfold startPwm
  extract_lets b u v x n en one
  have hv : v = startLoaded s g b := rfl
  have hb : b = nowTick s + slotsPerStep := rfl
  rw [← hb, ← hv]
  clear_value v
  rfl

theorem startPwm_started (hg : g < 8) (s : State) : Started s (startPwm s g) g := by
  obtain ⟨hact, hstat, hctrl⟩ := startLoaded_effect hg s (nowTick s + slotsPerStep)
  have hcnt : getF (startLoaded s g (nowTick s + slotsPerStep)) (PWM_GRP_CTRL_START_CNT g) = getF s (PWM_GRP_CTRL_START_CNT g) := getF_congr hctrl
  have hrun : flag (startMarked s g) (PWM_GRP_STAT_RUN g) = true := (flag_setB_apart (by grind) _).trans (flag_setB _ _ _ ⟨by simp, by simp⟩)
  have hpcnt : getF (startMarked s g) (PWM_GRP_STAT_PCNT g) = 0 :=
    (getF_setB_apart (by grind) _).trans ((getF_setB_apart (by grind) _).trans (getF_setF _ _ _ ⟨by simp, by simp⟩))
  have hforced : flag (startMarked s g) (PWM_GRP_STAT_FORCED g) = false := flag_setB _ _ _ ⟨by simp, by simp⟩
  rw [startPwm_eq]
  have hb : (startedGrp (startLoaded s g (nowTick s + slotsPerStep)) g (nowTick s + slotsPerStep) (pwmAt (startLoaded s g (nowTick s + slotsPerStep)) g)).start +
      min (getF s (PWM_GRP_CTRL_START_CNT g)) ((pwmAt (startLoaded s g (nowTick s + slotsPerStep)) g).act.prd - 1) =
      max (nowTick s + slotsPerStep) (min (getF s (PWM_GRP_CTRL_START_CNT g)) ((pwmAt (startLoaded s g (nowTick s + slotsPerStep)) g).act.prd - 1)) := by
    unfold startedGrp
    extract_lets n
    simp only [n, hcnt]
    omega
  generalize startLoaded s g (nowTick s + slotsPerStep) = v at *
  have hgrp : ∀ f, pwmAt (showPwm (modPwm v g f) g) g = f (pwmAt v g) := fun f => (pwmAt_showPwm ..).trans (pwmAt_modPwm ..)
  have hfield : ∀ (f : PwmGrp → PwmGrp) (hi lo : Nat), lo ≤ hi → (hi = 0 ∨ lo = 3 ∧ hi = 3 ∨ 4 < lo) →
      getF (showPwm (modPwm v g f) g) ⟨PWM_GRP_STAT g, hi, lo⟩ = getF (startMarked s g) ⟨PWM_GRP_STAT g, hi, lo⟩ := fun f hi lo hle hout =>
    (getF_showPwm hle hout _ g).trans (getF_congr (f := ⟨PWM_GRP_STAT g, hi, lo⟩) hstat)
  refine ⟨?_, (hfield _ _ _ (by decide) (by decide)).trans hpcnt, ?_, ?_, ?_, ?_⟩
  · rw [pwmRuns, flag, hfield _ _ _ (by decide) (by decide)]
    exact hrun
  · rw [flag, hfield _ _ _ (by decide) (by decide)]
    exact hforced
  · rw [hgrp]
    exact hact
  · rw [hgrp]
    exact hb
  · exact (regsBut_showPwm _ g _ (by simp only [List.mem_cons, List.not_mem_nil, or_false, PWM_GRP_CTRL, PWM_GRP_STAT, PWM_STAT]; omega)).trans hctrl

/-! ### Trips (R272, R273) -/

/-- An input whose filter output becomes active. -/
theorem filter_trips {f : TripFilter} {len n : Nat} {integ : Bool} (hn : 0 < n) (hlen : len ≤ f.count + n) : (TripFilter.run len integ f true n).act = true := by
  rw [TripFilter.run, if_neg (by omega), if_pos rfl]
  have : len ≤ min len (f.count + n) := by omega
  simp [this]

theorem regsBut_showTrip (s : State) (g i : Nat) (active : Bool) : regsBut s (showTrip s g i active) [PWM_GRP_COL g i] :=
  regsBut_setB (regsBut_setB (regsBut_setB (regsBut_refl _ _) (by simp) _) (by simp) _) (by simp) _

/-- What a trip leaves. -/
structure Trips (s t : State) (g i : Nat) : Prop where
  stopped : Stopped t g
  fault : flag t ⟨PWM_GRP_FLT g, i, i⟩ = true
  irq : (rd t (PWM_GRP_IRQ g)).getLsbD 5 = true
  counted : getF t (PWM_GRP_CNT_TRIP_CNT g) = min (getF s (PWM_GRP_CNT_TRIP_CNT g) + 1) (2 ^ 32 - 1)
  regs : regsBut s t ([PWM_GRP_STAT g, PWM_STAT, PWM_GRP_FLT g, PWM_GRP_IRQ g, PWM_GRP_CNT_TRIP g] ++ tally)

/-- The group has stopped, and its fault flag is set. -/
def tripStopped (s : State) (g i : Nat) : State := stopPwm (setB s ⟨PWM_GRP_FLT g, i, i⟩ true) g

theorem pwmTrip_trips {i : Nat} (hi : i < 2) (hg : g < 8) (s : State) : Trips s (pwmTrip s g i) g i := by
  obtain ⟨hstop, hsregs⟩ := stopPwm_stopped (setB s ⟨PWM_GRP_FLT g, i, i⟩ true) g
  have hfregs := regsBut_pwmFlag (tripStopped s g i) g 5
  have hrec := regsBut_record (bump (pwmFlag (tripStopped s g i) g 5) (PWM_GRP_CNT_TRIP_CNT g)) 0x2004 g (leBytes 1 i)
  have hpwm : (pwmTrip s g i).pwm = (tripStopped s g i).pwm := ((keeps_record _ _ _ _).same .pwm (by decide)).trans (pwmFlag_pwm ..)
  have hout : ∀ j, j ≠ PWM_GRP_IRQ g → j ≠ PWM_GRP_CNT_TRIP g → 0x1C00 ≤ j → rd (pwmTrip s g i) j = rd (tripStopped s g i) j := fun j h1 h2 h3 => by
    refine (hrec j ?_).trans ((rd_setF_ne _ _ _ _ h2).trans (hfregs j ?_))
    · rw [mem_lossCounters]
      omega
    · rw [List.mem_cons, mem_dropCounters]
      omega
  have hirq : rd (pwmTrip s g i) (PWM_GRP_IRQ g) = rd (pwmFlag (tripStopped s g i) g 5) (PWM_GRP_IRQ g) :=
    (hrec _ (by rw [mem_lossCounters]; grind)).trans (rd_setF_ne _ _ _ _ (by grind))
  refine ⟨stopped_of_rd hstop (hout _ (by grind) (by grind) (by grind)) hpwm, ?_, ?_, ?_, ?_⟩
  · refine (flag_congr (f := ⟨PWM_GRP_FLT g, i, i⟩) (hout _ (by grind) (by grind) (by grind))).trans ?_
    refine (flag_of_regsBut hsregs ?_).trans (flag_setB _ _ _ ⟨by simp, by simp; omega⟩)
    simp only [List.mem_cons, List.not_mem_nil, or_false, PWM_GRP_FLT, PWM_GRP_STAT, PWM_STAT]
    omega
  · rw [hirq]
    exact getLsbD_pwmFlag (by decide) hg _
  · refine (getF_record _ _ _ _ (by grind)).trans ((getF_bump _ _ _ ⟨by simp, by simp⟩).trans ?_)
    have hc : getF (pwmFlag (tripStopped s g i) g 5) (PWM_GRP_CNT_TRIP_CNT g) = getF s (PWM_GRP_CNT_TRIP_CNT g) := by
      refine (getF_of_regsBut hfregs ?_).trans ((getF_of_regsBut hsregs ?_).trans (getF_setB_apart (by grind) _))
      · rw [List.mem_cons, mem_dropCounters]
        grind
      · grind
    exact congrArg (fun n => min (n + 1) (2 ^ 32 - 1)) hc
  · have h1 : regsBut s (tripStopped s g i) ([PWM_GRP_STAT g, PWM_STAT, PWM_GRP_FLT g, PWM_GRP_IRQ g, PWM_GRP_CNT_TRIP g] ++ tally) :=
      regsBut_trans (regsBut_setB (regsBut_refl _ _) (by simp) _) (regsBut_mono hsregs (by simp))
    have h2 : regsBut s (pwmFlag (tripStopped s g i) g 5) ([PWM_GRP_STAT g, PWM_STAT, PWM_GRP_FLT g, PWM_GRP_IRQ g, PWM_GRP_CNT_TRIP g] ++ tally) :=
      regsBut_trans h1 (regsBut_mono hfregs fun j hj => by
        rcases List.mem_cons.1 hj with rfl | hd
        · simp
        · exact List.mem_append_right _ (dropCounters_subset_tally hd))
    exact regsBut_trans (regsBut_bump h2 (by simp) _) (regsBut_mono hrec fun j hj => List.mem_append_right _ (lossCounters_subset_tally hj))

/-- Active samples enough for the filter: the group trips at an edge that crosses to the data path. -/
theorem tripRun_trips {i n : Nat} (t₀ : Nat) (hn : 0 < n) (hquiet : (tripFilter s g i).act = false)
    (hlen : getF s (PWM_GRP_COL_LEN g i) ≤ (tripFilter s g i).count + n) : ∃ e, regsBut s e [PWM_GRP_COL g i, CLK_X_CNT 1] ∧
      tripRun g i t₀ s ((getF s (PWM_GRP_CTRL_TRIP_POL g)).testBit i, n) = pwmTrip e g i := by
  unfold tripRun
  extract_lets active f f' u
  have hactive : active = true := beq_self_eq_true _
  have hf' : f'.act = true := by
    simp only [f', hactive]
    exact filter_trips hn hlen
  have hf : f.act = false := hquiet
  rw [hf', hf, if_pos (by decide)]
  refine ⟨_, ?_, rfl⟩
  have hu : regsBut s u [PWM_GRP_COL g i, CLK_X_CNT 1] := regsBut_mono (regsBut_before (regsBut_showTrip _ _ _ _) rfl) (List.cons_subset_cons _ (List.nil_subset _))
  exact regsBut_trans hu (regsBut_mono (Pulses.regsBut_edgeEvent _ _ _) (List.subset_cons_self _ _))

theorem pwmTrip_shown {i n t₀ : Nat} (hg : g < 8) (hi : i < 2) (hen : (getF s (PWM_GRP_CTRL_TRIP_EN g)).testBit i = true) (hn : 0 < n)
    (hquiet : (tripFilter s g i).act = false) (hlen : getF s (PWM_GRP_COL_LEN g i) ≤ (tripFilter s g i).count + n) :
    answers (.pwmTrip { g := g, i := i, t := t₀, runs := [((getF s (PWM_GRP_CTRL_TRIP_POL g)).testBit i, n)] }) s (fun t =>
        pwmRuns t g = false ∧ flag t (PWM_GRP_STAT_HIZ g) = true ∧ flag t ⟨PWM_GRP_FLT g, i, i⟩ = true ∧
        (rd t (PWM_GRP_IRQ g)).getLsbD 5 = true ∧ getF t (PWM_GRP_CNT_TRIP_CNT g) = min (getF s (PWM_GRP_CNT_TRIP_CNT g) + 1) (2 ^ 32 - 1) ∧
        (∀ q ∈ (pwmAt t g).pairs, q.driven = false) ∧
        regsBut s t ([PWM_GRP_STAT g, PWM_STAT, PWM_GRP_COL g i, PWM_GRP_FLT g, PWM_GRP_IRQ g, PWM_GRP_CNT_TRIP g, CLK_X_CNT 1] ++ tally) ∧
        partsBut s t [.regs, .sys, .hif, .recd, .pwm]) := by
  generalize hp : ({ g := g, i := i, t := t₀, runs := [((getF s (PWM_GRP_CTRL_TRIP_POL g)).testBit i, n)] } : TripPin) = p
  refine answers_of_answer (t := tripPin s p) rfl (by simp [← hp, tripPinOk, hg, hi]) ?_
  have hkeeps := tripPin_keeps (R := (· ∈ [Part.regs, .sys, .hif, .recd, .pwm])) s p (allows_of_subset (by decide)) (Keeps.refl ..)
  obtain ⟨e, he, htrip⟩ := tripRun_trips t₀ hn hquiet hlen
  have heq : tripPin s p = pwmTrip e g i := by
    subst hp
    rw [tripPin, if_pos hen]
    exact htrip
  rw [heq] at hkeeps ⊢
  obtain ⟨⟨hruns, hhiz, hpairs⟩, hfault, hirq, hcnt, hregs⟩ := pwmTrip_trips hi hg e
  refine ⟨hruns, hhiz, hfault, hirq, ?_, hpairs, ?_, partsBut_of_keeps hkeeps⟩
  · rw [hcnt, getF_of_regsBut he (by simp only [List.mem_cons, List.not_mem_nil, or_false, PWM_GRP_CNT_TRIP, PWM_GRP_COL, CLK_X_CNT]; omega)]
  · refine regsBut_trans (regsBut_mono he (by simp)) (regsBut_mono hregs ?_)
    intro j hj
    simp only [List.mem_append, List.mem_cons, List.not_mem_nil, or_false] at hj ⊢
    tauto

end Runs

end Sys2Proof.PwmGroups

namespace Sys2Proof.PwmGroups

open Sys2Proof Sys2Proof.Machine Sys2Proof.Frame Sys2Proof.HostWrites Sys2Proof.PwmShadow

section Writes

variable {s : State} {h g : Nat}

/-! ### Writes of PWM_GRP_CTRL (R271, R275) -/

/-- The row of PWM_GRP_CTRL in the register index: RESUME acts. -/
def grpCtrlRow : RegRow := ⟨0x1C00, 8, 64, 1, 1, 0x00000300#32, 0xFFFF0F7B#32, 0x00000000#32, 0x00000000#32, 0x00000000#32, 0x00000004#32⟩

theorem plain_grpCtrl : PlainRow grpCtrlRow := by decide

theorem maskOk_grpCtrl (hg : g < 8) : MaskOk (PWM_GRP_CTRL g) grpCtrlRow 1#32 ∧ MaskOk (PWM_GRP_CTRL g) grpCtrlRow 4#32 := by
  revert g
  decide

/-- The word that a write of one bit of PWM_GRP_CTRL takes. -/
def grpCtrlWord (s : State) (g : Nat) (m val : Word) : Word := takenWord grpCtrlRow (rd s (PWM_GRP_CTRL g)) m val

/-- The configuration of the group stands. -/
theorem grpCtrlWord_stands {m val : Word} (hm : m &&& 0xFFFF0F7A#32 = 0) {hi lo : Nat} (hin : ∀ j < hi - lo + 1, (0xFFFF0F7A#32).getLsbD (lo + j) = true) :
    bitsOf (grpCtrlWord s g m val) hi lo = bitsOf (rd s (PWM_GRP_CTRL g)) hi lo := by
  refine bitsOf_takenWord_out plain_grpCtrl fun j hj => ?_
  have hbit := hin j hj
  have hlt : lo + j < 32 := by
    by_contra hge
    rw [BitVec.getLsbD_of_ge _ _ (by omega)] at hbit
    exact absurd hbit (by decide)
  have hmj := congrArg (·.getLsbD (lo + j)) hm
  have hwo : ∀ k < 32, (0xFFFF0F7A#32).getLsbD k = true → grpCtrlRow.wo.getLsbD k = false := by decide
  refine ⟨hlt, ?_⟩
  rw [BitVec.getLsbD_or, BitVec.getLsbD_and, hwo _ hlt hbit]
  simp only [BitVec.getLsbD_and, hbit, Bool.and_true] at hmj
  simp [hmj]

/-- The rule of a write that leaves the configuration as it is. -/
theorem pwmCheck_ctrl {old v : Word} (hg : g < 8) (h1 : bitsOf v 1 1 = bitsOf old 1 1) (h3 : bitsOf v 3 3 = bitsOf old 3 3) (h8 : bitsOf v 11 8 = bitsOf old 11 8)
    (h16 : bitsOf v 31 16 = bitsOf old 31 16) (hen : bitsOf old 0 0 = 0 → bitsOf v 0 0 = 1 → startOk s g = true)
    (hres : bitsOf v 2 2 = 0 ∨ (startOk s g = true ∧ bitsOf old 0 0 = 1)) (hcnt : bitsOf old 31 16 < getF s (PWM_GRP_PRD_PRD g)) :
    pwmCheck s (PWM_GRP_CTRL g) old v = .ok := by
  have hdiv : (PWM_GRP_CTRL g - 0x1C00) / 64 = g := by simp only [PWM_GRP_CTRL]; omega
  have hmod : PWM_GRP_CTRL g % 64 = 0 := by simp only [PWM_GRP_CTRL]; omega
  have hconf : (bitsDiffer old v 1 1 || bitsDiffer old v 3 3 || bitsDiffer old v 11 8 || bitsDiffer old v 31 16) = false := by
    simp [bitsDiffer, h1, h3, h8, h16]
  have hstart : (!decide (bitsOf old 0 0 = 0 ∧ bitsOf v 0 0 = 1) || startOk s g) = true := by
    by_cases h : bitsOf old 0 0 = 0 ∧ bitsOf v 0 0 = 1
    · simp [hen h.1 h.2]
    · simp [h]
  have hresume : (decide (bitsOf v 2 2 = 0) || (startOk s g && decide (bitsOf old 0 0 = 1))) = true := by
    rcases hres with h | ⟨h, h'⟩
    · simp [h]
    · simp [h, h']
  rw [pwmCheck, if_pos (by simp only [PWM_GRP_CTRL]; omega)]
  simp only [hdiv, hmod, hconf, hstart, hresume, h16, Bool.and_false, Bool.not_false]
  rw [show decide (bitsOf old 31 16 < getF s (PWM_GRP_PRD_PRD g)) = true from decide_eq_true hcnt]
  rfl

/-- A write of one bit of PWM_GRP_CTRL that is accepted. -/
theorem hostItems_grpCtrl {m val : Word} (hs : serves s h) (hg : g < 8) (hholds : holds s h kPwm g = true) (hi : MaskOk (PWM_GRP_CTRL g) grpCtrlRow m)
    (hm : m &&& 0xFFFF0F7A#32 = 0) (hen : bitsOf (rd s (PWM_GRP_CTRL g)) 0 0 = 0 → bitsOf (grpCtrlWord s g m val) 0 0 = 1 → startOk s g = true)
    (hres : bitsOf (grpCtrlWord s g m val) 2 2 = 0 ∨ (startOk s g = true ∧ bitsOf (rd s (PWM_GRP_CTRL g)) 0 0 = 1))
    (hcnt : getF s (PWM_GRP_CTRL_START_CNT g) < getF s (PWM_GRP_PRD_PRD g)) (hstart : startsNow s h [item (PWM_GRP_CTRL g) m val]) :
    hostItems s h [item (PWM_GRP_CTRL g) m val] = (settled s h (scrub
      (pwmEffect (wr (ahead s) (PWM_GRP_CTRL g) (grpCtrlWord s g m val)) (PWM_GRP_CTRL g) (rd s (PWM_GRP_CTRL g)) (grpCtrlWord s g m val)) (PWM_GRP_CTRL g)), true) := by
  have hr : 0x1C00 ≤ PWM_GRP_CTRL g ∧ PWM_GRP_CTRL g < 0x1E00 := by simp only [PWM_GRP_CTRL]; omega
  have hdiv : (PWM_GRP_CTRL g - 0x1C00) / 64 = g := by simp only [PWM_GRP_CTRL]; omega
  have hmod : PWM_GRP_CTRL g % 64 = 0 := by simp only [PWM_GRP_CTRL]; omega
  have hcheck : pwmCheck s (PWM_GRP_CTRL g) (rd s (PWM_GRP_CTRL g)) (grpCtrlWord s g m val) = .ok :=
    pwmCheck_ctrl hg (grpCtrlWord_stands hm (by decide)) (grpCtrlWord_stands hm (by decide)) (grpCtrlWord_stands hm (by decide))
      (grpCtrlWord_stands hm (by decide)) hen hres hcnt
  have hitems := hostItems_taken_word (m := m) (val := val) hi hs hstart (by rw [mayWrite_pwm hr.1 hr.2, hdiv]; exact hholds)
    (by rw [storeValue_pwm hr.1 (by omega), pwmStore, if_neg (by omega)])
    (by
      rw [stateRule_pwm hr.1 (by omega) (by rw [hmod]; omega)]
      exact hcheck)
  rw [writeEffect_pwm hr.1 (by omega)] at hitems
  exact hitems

/-- What the write does once it is stored. -/
theorem pwmEffect_ctrl (hg : g < 8) (t : State) (old v : Word) : pwmEffect t (PWM_GRP_CTRL g) old v =
    if v.getLsbD 2 then resumePwm (if old ||| 4#32 = rd t (PWM_GRP_CTRL g) ||| 4#32 then t else pwmCtrlEffect t g old) g
    else if old ||| 4#32 = rd t (PWM_GRP_CTRL g) ||| 4#32 then t else pwmCtrlEffect t g old := by
  have hdiv : (PWM_GRP_CTRL g - 0x1C00) / 64 = g := by simp only [PWM_GRP_CTRL]; omega
  have hmod : PWM_GRP_CTRL g % 64 = 0 := by simp only [PWM_GRP_CTRL]; omega
  rw [pwmEffect, if_neg (by simp only [PWM_GRP_CTRL, PWM_LOADALL]; omega), if_neg (by simp only [PWM_GRP_CTRL]; omega)]
  simp only [hdiv, hmod]

/-- The value of a write of EN. -/
def enValue : Bool → Word
  | true => 1#32
  | false => 0#32

theorem en_written (s : State) (g : Nat) (b : Bool) : (grpCtrlWord s g 1#32 (enValue b)).getLsbD 0 = b ∧ bitsOf (grpCtrlWord s g 1#32 (enValue b)) 2 2 = 0 := by
  refine ⟨?_, bitsOf_takenWord_idle plain_grpCtrl (by decide)⟩
  rw [grpCtrlWord, getLsbD_takenWord plain_grpCtrl (by decide), if_pos (by decide)]
  cases b <;> rfl

theorem pwmCtrlEffect_on {t : State} {old : Word} (hen : flag t (PWM_GRP_CTRL_EN g) = true) (hold : bitsOf old 0 0 = 0) : pwmCtrlEffect t g old = startPwm t g := by
  rw [pwmCtrlEffect, hen, hold]
  rfl

theorem pwmCtrlEffect_off {t : State} {old : Word} (hen : flag t (PWM_GRP_CTRL_EN g) = false) (hold : bitsOf old 0 0 = 1) : pwmCtrlEffect t g old = stopPwm t g := by
  rw [pwmCtrlEffect, hen, hold]
  rfl

/-- The state in which a write of EN is stored. -/
def enStored (s : State) (g : Nat) (b : Bool) : State := wr (ahead s) (PWM_GRP_CTRL g) (grpCtrlWord s g 1#32 (enValue b))

/-- What a write of EN does that changes it. -/
theorem pwmEffect_en {b : Bool} (hg : g < 8) (hwas : flag s (PWM_GRP_CTRL_EN g) = !b) :
    pwmEffect (enStored s g b) (PWM_GRP_CTRL g) (rd s (PWM_GRP_CTRL g)) (grpCtrlWord s g 1#32 (enValue b)) = pwmCtrlEffect (enStored s g b) g (rd s (PWM_GRP_CTRL g)) := by
  obtain ⟨hen, hidle⟩ := en_written s g b
  have h2 : (grpCtrlWord s g 1#32 (enValue b)).getLsbD 2 = false := (CanControllers.getLsbD_of_bitsOf hidle).trans rfl
  have hold : (rd s (PWM_GRP_CTRL g)).getLsbD 0 = !b := by rw [← flag_bit, hwas]
  have hdiff : ¬(rd s (PWM_GRP_CTRL g) ||| 4#32 = rd (enStored s g b) (PWM_GRP_CTRL g) ||| 4#32) := by
    rw [enStored, rd_wr_self]
    intro he
    have := congrArg (·.getLsbD 0) he
    simp only [BitVec.getLsbD_or, hen, hold] at this
    revert this
    cases b <;> decide
  rw [pwmEffect_ctrl hg, h2, if_neg (by decide), if_neg hdiff]

theorem flag_enStored (s : State) (g : Nat) (b : Bool) : flag (enStored s g b) (PWM_GRP_CTRL_EN g) = b := by
  rw [flag_bit, enStored, rd_wr_self, (en_written s g b).1]

theorem grpCtrl_not_status (g : Nat) : PWM_GRP_CTRL g ∉ [PWM_GRP_STAT g, PWM_STAT] := by
  simp only [List.mem_cons, List.not_mem_nil, or_false, PWM_GRP_CTRL, PWM_GRP_STAT, PWM_STAT]
  omega

/-- The enable bit as the write leaves it. -/
theorem en_left {u : State} (hg : g < 8) {w : Word} (hrd : rd u (PWM_GRP_CTRL g) = w) :
    flag (settled s h (scrub u (PWM_GRP_CTRL g))) (PWM_GRP_CTRL_EN g) = w.getLsbD 0 := by
  rw [flag_settled, flag, getF_scrub (maskOk_grpCtrl hg).1.1 (by decide), ← flag, flag_bit, hrd]

theorem stat_left {u : State} (j : Nat) (hj : j ≠ PWM_GRP_CTRL g) : rd (settled s h (scrub u (PWM_GRP_CTRL g))) j = rd u j :=
  (rd_settled j).trans (rd_scrub_ne u hj)

theorem pwmAt_left (u : State) (k : Nat) : pwmAt (settled s h (scrub u (PWM_GRP_CTRL g))) k = pwmAt u k :=
  (pwmAt_settled ..).trans (pwmAt_of_pwm (scrub_same u (PWM_GRP_CTRL g) (p := .pwm) (by decide)) k)

theorem keeps_grpCtrl (s : State) (g : Nat) (w old : Word) :
    Keeps (· ∈ [Part.regs, .sys, .pwm]) (ahead s) (scrub (pwmEffect (wr (ahead s) (PWM_GRP_CTRL g) w) (PWM_GRP_CTRL g) old w) (PWM_GRP_CTRL g)) :=
  scrub_keeps _ _ (allows_of_subset (by decide)) (pwmEffect_keeps _ _ _ _ (allows_of_subset (by decide)) (wr_keeps _ _ _ (allows_of_subset (by decide)) (Keeps.refl ..)))

/-- A RESUME leaves the word beside its own bit. -/
theorem resume_word (s : State) (g : Nat) : bitsOf (grpCtrlWord s g 4#32 4#32) 2 2 = 1 ∧
    rd s (PWM_GRP_CTRL g) ||| 4#32 = grpCtrlWord s g 4#32 4#32 ||| 4#32 := by
  refine ⟨(bitsOf_takenWord plain_grpCtrl (by decide)).trans (by decide), ?_⟩
  refine BitVec.eq_of_getLsbD_eq fun j hj => ?_
  rw [BitVec.getLsbD_or, BitVec.getLsbD_or, grpCtrlWord, getLsbD_takenWord plain_grpCtrl hj]
  have hbits : ∀ j < 32, (4#32).getLsbD j = decide (j = 2) ∧ grpCtrlRow.wo.getLsbD j = decide (j = 2) := by decide
  obtain ⟨h4, hwo⟩ := hbits j hj
  rw [h4, hwo]
  by_cases h2 : j = 2 <;> simp [h2]

section Holder

variable (hs : serves s h) (hg : g < 8) (hholds : holds s h kPwm g = true) (hcnt : getF s (PWM_GRP_CTRL_START_CNT g) < getF s (PWM_GRP_PRD_PRD g))
include hs hg hholds hcnt

theorem pwmStart_on_shown (hoff : flag s (PWM_GRP_CTRL_EN g) = false) (hok : startOk s g = true) (hstart : startsNow s h (putFlag (PWM_GRP_CTRL_EN g) true)) :
    answers (.pwmStart h g true) s (fun t => flag t (PWM_GRP_CTRL_EN g) = true ∧
        pwmRuns t g = true ∧ getF t (PWM_GRP_STAT_PCNT g) = 0 ∧ flag t (PWM_GRP_STAT_FORCED g) = false ∧ (pwmAt t g).act = (pwmAt t g).shadow ∧
        (pwmAt t g).start + min (getF s (PWM_GRP_CTRL_START_CNT g)) ((pwmAt t g).act.prd - 1) = max (nowTick s + slotsPerStep) (min (getF s (PWM_GRP_CTRL_START_CNT g)) ((pwmAt t g).act.prd - 1)) ∧
        wroteBut s t h [.regs, .sys, .pwm]) := by
  replace hstart : startsNow s h [item (PWM_GRP_CTRL g) 1#32 (enValue true)] := hstart
  refine answers_of_answer (t := (hostItems s h [item (PWM_GRP_CTRL g) 1#32 (enValue true)]).1) rfl (by simp [hs.1, hg]) ?_
  obtain ⟨hen, hidle⟩ := en_written s g true
  have hkeeps := keeps_grpCtrl s g (grpCtrlWord s g 1#32 (enValue true)) (rd s (PWM_GRP_CTRL g))
  have hold : bitsOf (rd s (PWM_GRP_CTRL g)) 0 0 = 0 := not_not.1 (of_decide_eq_false hoff)
  rw [hostItems_grpCtrl hs hg hholds (maskOk_grpCtrl hg).1 (by decide) (fun _ _ => hok) (Or.inl hidle) hcnt hstart]
  rw [← enStored, pwmEffect_en (b := true) hg hoff, pwmCtrlEffect_on (flag_enStored s g true) hold] at hkeeps ⊢
  have hst := startPwm_started hg (enStored s g true)
  have hword : rd (startPwm (enStored s g true) g) (PWM_GRP_CTRL g) = grpCtrlWord s g 1#32 (enValue true) := hst.ctrl.trans (rd_wr_self ..)
  have hcount : getF (enStored s g true) (PWM_GRP_CTRL_START_CNT g) = getF s (PWM_GRP_CTRL_START_CNT g) :=
    (congrArg (bitsOf · 31 16) (rd_wr_self ..)).trans (grpCtrlWord_stands (by decide) (by decide))
  have hstart' := hst.start
  rw [hcount] at hstart'
  have hne : PWM_GRP_STAT g ≠ PWM_GRP_CTRL g := by simp only [PWM_GRP_STAT, PWM_GRP_CTRL]; omega
  rw [pwmAt_left]
  refine ⟨(en_left hg hword).trans hen, (flag_congr (f := PWM_GRP_STAT_RUN g) (stat_left _ hne)).trans hst.runs,
    (getF_congr (f := PWM_GRP_STAT_PCNT g) (stat_left _ hne)).trans hst.pcnt, (flag_congr (f := PWM_GRP_STAT_FORCED g) (stat_left _ hne)).trans hst.forced,
    hst.loaded, hstart', wroteBut_settled hkeeps (by decide) (by decide)⟩

theorem pwmStart_off_shown (hon : flag s (PWM_GRP_CTRL_EN g) = true) (hstart : startsNow s h (putFlag (PWM_GRP_CTRL_EN g) false)) :
    answers (.pwmStart h g false) s (fun t => flag t (PWM_GRP_CTRL_EN g) = false ∧ pwmRuns t g = false ∧ flag t (PWM_GRP_STAT_HIZ g) = true ∧
      (∀ q ∈ (pwmAt t g).pairs, q.driven = false) ∧ regsBut s t [PWM_GRP_CTRL g, PWM_GRP_STAT g, PWM_STAT] ∧ wroteBut s t h [.regs, .sys, .pwm]) := by
  replace hstart : startsNow s h [item (PWM_GRP_CTRL g) 1#32 (enValue false)] := hstart
  refine answers_of_answer (t := (hostItems s h [item (PWM_GRP_CTRL g) 1#32 (enValue false)]).1) rfl (by simp [hs.1, hg]) ?_
  obtain ⟨hen, hidle⟩ := en_written s g false
  have hkeeps := keeps_grpCtrl s g (grpCtrlWord s g 1#32 (enValue false)) (rd s (PWM_GRP_CTRL g))
  have hold : bitsOf (rd s (PWM_GRP_CTRL g)) 0 0 = 1 := by
    have hlt : bitsOf (rd s (PWM_GRP_CTRL g)) 0 0 < 2 := bitsOf_lt _ _ _
    have hne : bitsOf (rd s (PWM_GRP_CTRL g)) 0 0 ≠ 0 := of_decide_eq_true hon
    omega
  rw [hostItems_grpCtrl hs hg hholds (maskOk_grpCtrl hg).1 (by decide) (fun h0 _ => absurd (h0.symm.trans hold) (by decide)) (Or.inl hidle) hcnt hstart]
  rw [← enStored, pwmEffect_en (b := false) hg hon, pwmCtrlEffect_off (flag_enStored s g false) hold] at hkeeps ⊢
  obtain ⟨hst, hregs⟩ := stopPwm_stopped (enStored s g false) g
  have hword : rd (stopPwm (enStored s g false) g) (PWM_GRP_CTRL g) = grpCtrlWord s g 1#32 (enValue false) :=
    (hregs _ (grpCtrl_not_status g)).trans (rd_wr_self ..)
  have hne : PWM_GRP_STAT g ≠ PWM_GRP_CTRL g := by simp only [PWM_GRP_STAT, PWM_GRP_CTRL]; omega
  rw [pwmAt_left]
  refine ⟨(en_left hg hword).trans hen, (flag_congr (f := PWM_GRP_STAT_RUN g) (stat_left _ hne)).trans hst.runs,
    (flag_congr (f := PWM_GRP_STAT_HIZ g) (stat_left _ hne)).trans hst.hiz, hst.pairs, ?_, wroteBut_settled hkeeps (by decide) (by decide)⟩
  exact regsBut_settled (regsBut_scrub (regsBut_trans (regsBut_wr (regsBut_of_regs rfl _) (by simp) _) (regsBut_mono hregs (by simp))) (by simp))

theorem pwmResume_shown (hon : flag s (PWM_GRP_CTRL_EN g) = true) (hok : startOk s g = true) (hstart : startsNow s h (putFlag (PWM_GRP_CTRL_RESUME g) true)) :
    answers (.pwmResume h g) s (fun t => pwmRuns t g = true ∧ flag t (PWM_GRP_CTRL_EN g) = true ∧
        (pwmRuns s g = false → getF t (PWM_GRP_STAT_PCNT g) = 0 ∧ flag t (PWM_GRP_STAT_FORCED g) = false) ∧
        (pwmRuns s g = true → pwmAt t g = pwmAt s g ∧ regsBut s t [PWM_GRP_CTRL g]) ∧ wroteBut s t h [.regs, .sys, .pwm]) := by
  replace hstart : startsNow s h [item (PWM_GRP_CTRL g) 4#32 4#32] := hstart
  refine answers_of_answer (t := (hostItems s h [item (PWM_GRP_CTRL g) 4#32 4#32]).1) rfl (by simp [hs.1, hg]) ?_
  obtain ⟨hbit, hsame⟩ := resume_word s g
  have hkeeps := keeps_grpCtrl s g (grpCtrlWord s g 4#32 4#32) (rd s (PWM_GRP_CTRL g))
  have hold : bitsOf (rd s (PWM_GRP_CTRL g)) 0 0 = 1 := by
    have hlt : bitsOf (rd s (PWM_GRP_CTRL g)) 0 0 < 2 := bitsOf_lt _ _ _
    have hne : bitsOf (rd s (PWM_GRP_CTRL g)) 0 0 ≠ 0 := of_decide_eq_true hon
    omega
  rw [hostItems_grpCtrl hs hg hholds (maskOk_grpCtrl hg).2 (by decide) (fun _ _ => hok) (Or.inr ⟨hok, hold⟩) hcnt hstart]
  generalize hw : grpCtrlWord s g 4#32 4#32 = w at hbit hsame hkeeps ⊢
  have hen : w.getLsbD 0 = true := by
    have h0 := congrArg (·.getLsbD 0) hsame
    have hold' : (rd s (PWM_GRP_CTRL g)).getLsbD 0 = true := by rw [← flag_bit, hon]
    have h4 : (4#32).getLsbD 0 = false := rfl
    simp only [BitVec.getLsbD_or, hold', h4, Bool.or_false] at h0
    exact h0.symm
  have heff : pwmEffect (wr (ahead s) (PWM_GRP_CTRL g) w) (PWM_GRP_CTRL g) (rd s (PWM_GRP_CTRL g)) w = resumePwm (wr (ahead s) (PWM_GRP_CTRL g) w) g := by
    rw [pwmEffect_ctrl hg, (CanControllers.getLsbD_of_bitsOf hbit).trans rfl, if_pos (by decide), rd_wr_self, if_pos hsame]
  rw [heff] at hkeeps ⊢
  have hne : PWM_GRP_STAT g ≠ PWM_GRP_CTRL g := by simp only [PWM_GRP_STAT, PWM_GRP_CTRL]; omega
  have hruns : pwmRuns (wr (ahead s) (PWM_GRP_CTRL g) w) g = pwmRuns s g := flag_wr_apart hne _
  by_cases hr : pwmRuns s g = true
  · have hres : resumePwm (wr (ahead s) (PWM_GRP_CTRL g) w) g = wr (ahead s) (PWM_GRP_CTRL g) w := by rw [resumePwm, hruns, if_pos hr]
    rw [hres] at hkeeps ⊢
    refine ⟨(flag_congr (f := PWM_GRP_STAT_RUN g) (stat_left _ hne)).trans (hruns.trans hr), (en_left hg (rd_wr_self ..)).trans hen,
      fun hno => absurd (hr.symm.trans hno) (by decide), fun _ => ⟨pwmAt_left _ g, ?_⟩, wroteBut_settled hkeeps (by decide) (by decide)⟩
    exact regsBut_settled (regsBut_scrub (regsBut_wr (regsBut_of_regs rfl _) (by simp) _) (by simp))
  · have hres : resumePwm (wr (ahead s) (PWM_GRP_CTRL g) w) g = startPwm (wr (ahead s) (PWM_GRP_CTRL g) w) g := by rw [resumePwm, hruns, if_neg hr]
    rw [hres] at hkeeps ⊢
    have hst := startPwm_started hg (wr (ahead s) (PWM_GRP_CTRL g) w)
    exact ⟨(flag_congr (f := PWM_GRP_STAT_RUN g) (stat_left _ hne)).trans hst.runs, (en_left hg (hst.ctrl.trans (rd_wr_self ..))).trans hen,
      fun _ => ⟨(getF_congr (f := PWM_GRP_STAT_PCNT g) (stat_left _ hne)).trans hst.pcnt, (flag_congr (f := PWM_GRP_STAT_FORCED g) (stat_left _ hne)).trans hst.forced⟩,
      fun hyes => absurd hyes hr, wroteBut_settled hkeeps (by decide) (by decide)⟩

end Holder

/-! ### Trip flags that a host clears (R274) -/

/-- The row of PWM_GRP_FLT in the register index. -/
def grpFltRow : RegRow := ⟨0x1C12, 8, 64, 1, 1, 0x00000000#32, 0x00000000#32, 0x00000003#32, 0x00000000#32, 0x00000000#32, 0x00000000#32⟩

theorem grpFlt_register (hg : g < 8) : regRow (PWM_GRP_FLT g) = some grpFltRow ∧ seenAsStored (PWM_GRP_FLT g) = true ∧ storedByRow (PWM_GRP_FLT g) = true := by
  revert g
  decide

/-- The item of a request to clear trip flags. -/
def tripItem (g v : Nat) : WItem := item (PWM_GRP_FLT g) 3#32 (BitVec.ofNat 32 v)

/-- The word that it presents. -/
def tripWord (s : State) (g v : Nat) : Word := presented grpFltRow (rd s (PWM_GRP_FLT g)) 3#32 (BitVec.ofNat 32 v)

/-- The word that it leaves. -/
def tripLeft (s : State) (g v : Nat) : Word := committed grpFltRow (rd s (PWM_GRP_FLT g)) (tripWord s g v)

theorem getLsbD_tripWord (s : State) (g v : Nat) {i : Nat} (hi : i < 2) : (tripWord s g v).getLsbD i = v.testBit i := by
  have hmask : (3#32).getLsbD i = true := by
    revert i
    decide
  simp only [tripWord, presented, grpFltRow, BitVec.getLsbD_or, BitVec.getLsbD_and, BitVec.getLsbD_not, BitVec.getLsbD_ofNat, hmask]
  simp [show i < 32 by omega]

theorem getLsbD_tripLeft (s : State) (g v : Nat) {i : Nat} (hi : i < 2) : (tripLeft s g v).getLsbD i = ((rd s (PWM_GRP_FLT g)).getLsbD i && !v.testBit i) := by
  have hmask : (3#32).getLsbD i = true := by
    revert i
    decide
  have hword := getLsbD_tripWord s g v hi
  have hlt : i < 32 := by omega
  simp only [tripLeft, committed, show grpFltRow.rw ||| grpFltRow.wo = 0#32 from rfl, show grpFltRow.w1s = 0#32 from rfl, show grpFltRow.w1c = 3#32 from rfl,
    BitVec.getLsbD_or, BitVec.getLsbD_and, BitVec.getLsbD_not, hword, hmask, BitVec.getLsbD_zero, hlt, decide_true]
  cases (rd s (PWM_GRP_FLT g)).getLsbD i <;> simp

/-- Where the flags may be cleared, so may those that are left after it. -/
theorem tripClearOk_of {t : State} {v w : Nat} (hflt : ∀ i < 2, flag t ⟨PWM_GRP_FLT g, i, i⟩ = true → flag s ⟨PWM_GRP_FLT g, i, i⟩ = true)
    (hrest : ∀ j, j ≠ PWM_GRP_FLT g → rd t j = rd s j) (hw : ∀ i < 2, w.testBit i = v.testBit i) (hok : tripClearOk s g v = true) : tripClearOk t g w = true := by
  rw [tripClearOk, List.all_eq_true] at hok ⊢
  intro i hi
  have hi2 : i < 2 := by
    simp only [List.mem_cons, List.not_mem_nil, or_false] at hi
    omega
  have hq : flag t (PWM_GRP_COL_QUIET g i) = flag s (PWM_GRP_COL_QUIET g i) := flag_congr (hrest _ (by simp only [PWM_GRP_COL, PWM_GRP_FLT]; omega))
  have he : getF t (PWM_GRP_CTRL_TRIP_EN g) = getF s (PWM_GRP_CTRL_TRIP_EN g) := getF_congr (hrest _ (by simp only [PWM_GRP_CTRL, PWM_GRP_FLT]; omega))
  have hone := hok i hi
  rw [hw i hi2, hq, he]
  simp only [Bool.or_eq_true, Bool.not_eq_true'] at hone ⊢
  rcases hone with ((h1 | h1) | h1) | h1
  · exact Or.inl (Or.inl (Or.inl h1))
  · refine Or.inl (Or.inl (Or.inr ?_))
    by_contra h2
    rw [hflt i hi2 (by simpa using h2)] at h1
    exact absurd h1 (by decide)
  · exact Or.inl (Or.inr h1)
  · exact Or.inr h1

/-- A request to clear trip flags is looked at before the other items, and then in its turn. -/
theorem writeItems_tripClear {w : WItem} (hw : isTripClear w = true) (hc : checkItem s h w = stOk) (hc' : checkItem (noteItem s h w) h w = stOk) :
    writeItems s h [w] = (takeItem s s h w, none) := by
  simp [writeItems, preClear, takeItems, checkItems, hw, hc, hc']

/-- The lease on a group stands in HIF_LS_PWM. -/
theorem holds_pwm_of_rd {t : State} (hls : rd t HIF_LS_PWM = rd s HIF_LS_PWM) : holds t h kPwm g = holds s h kPwm g := by
  have hof : holderOf t kPwm g = holderOf s kPwm g := by
    simp only [holderOf, kPwm, getF_congr (f := HIF_LS_PWM_V) hls, hls]
    rfl
  rw [holds, holds, hof]

theorem isTripClear_tripItem (hg : g < 8) (v : Nat) : isTripClear (tripItem g v) = true := by
  have hall : ∀ g < 8, (inRange 0x1C00 0x1DFF (PWM_GRP_FLT g) && decide (PWM_GRP_FLT g % 64 = 0x12)) = true := by decide
  exact hall g hg

section Clear

variable {v : Nat} (hg : g < 8)
include hg

theorem itemWord_trip (t : State) (h v : Nat) : itemWord t h (tripItem g v) = tripWord t g v := by
  obtain ⟨hrow, hseen, -⟩ := grpFlt_register hg
  rw [itemWord_seen (w := tripItem g v) t h hrow hseen]
  rfl

theorem storeValue_trip (t : State) (h : Nat) (w : Word) : storeValue t h (PWM_GRP_FLT g) w = some w := by
  rw [storeValue_pwm (by simp only [PWM_GRP_FLT]; omega) (by simp only [PWM_GRP_FLT]; omega), pwmStore, if_neg (by simp only [PWM_GRP_FLT]; omega)]

theorem checkItem_trip {t : State} (hholds : holds t h kPwm g = true) (hok : tripClearOk t g (tripWord t g v).toNat = true) :
    checkItem t h (tripItem g v) = stOk := by
  obtain ⟨hrow, -⟩ := grpFlt_register hg
  have hr : 0x1C00 ≤ PWM_GRP_FLT g ∧ PWM_GRP_FLT g < 0x1E00 := by simp only [PWM_GRP_FLT]; omega
  have hdiv : (PWM_GRP_FLT g - 0x1C00) / 64 = g := by simp only [PWM_GRP_FLT]; omega
  have hmod : PWM_GRP_FLT g % 64 = 0x12 := by simp only [PWM_GRP_FLT]; omega
  refine checkItem_ok (w := tripItem g v) (v := tripWord t g v) hrow (by show ¬ 3#32 &&& writable grpFltRow = 0; decide) rfl ?_ ?_ ?_
  · rw [show (tripItem g v).idx = PWM_GRP_FLT g from rfl, mayWrite_pwm hr.1 hr.2, hdiv]
    exact hholds
  · rw [itemWord_trip hg]
    exact storeValue_trip hg t h _
  · rw [show (tripItem g v).idx = PWM_GRP_FLT g from rfl, stateRule_pwm hr.1 (by omega) (by rw [hmod]; omega), pwmCheck, if_pos hr]
    simp only [hdiv, hmod, hok]
    rfl

theorem stored_trip (t : State) (h v : Nat) : storeItem t h (PWM_GRP_FLT g) (tripWord t g v) = wr t (PWM_GRP_FLT g) (tripLeft t g v) := by
  obtain ⟨hrow, -, hstored⟩ := grpFlt_register hg
  rw [storeItem_byRow t h _ hstored, commitReg_row t hrow, tripLeft]

theorem noteItem_trip (t : State) (h v : Nat) : noteItem t h (tripItem g v) = wr t (PWM_GRP_FLT g) (tripLeft t g v) := by
  obtain ⟨hrow, -⟩ := grpFlt_register hg
  have ht : touches (tripItem g v) = true := by
    rw [touches, show (tripItem g v).idx = PWM_GRP_FLT g from rfl, hrow]
    exact decide_eq_true (by show ¬ 3#32 &&& writable grpFltRow = 0; decide)
  have hiv : itemValue t h (tripItem g v) = tripWord t g v := by
    rw [itemValue, itemWord_trip hg, show (tripItem g v).idx = PWM_GRP_FLT g from rfl, storeValue_trip hg]
    rfl
  rw [noteItem, if_pos ht, hiv, show (tripItem g v).idx = PWM_GRP_FLT g from rfl, stored_trip hg, scrub_noWo _ hrow rfl]

theorem takeItem_trip (s0 t : State) (h v : Nat) : takeItem s0 t h (tripItem g v) = showPwm (wr t (PWM_GRP_FLT g) (tripLeft t g v)) g := by
  obtain ⟨hrow, -⟩ := grpFlt_register hg
  have hdiv : (PWM_GRP_FLT g - 0x1C00) / 64 = g := by simp only [PWM_GRP_FLT]; omega
  have hmod : PWM_GRP_FLT g % 64 = 0x12 := by simp only [PWM_GRP_FLT]; omega
  rw [takeItem_eq (w := tripItem g v) (v := tripWord t g v) hrow (by show ¬ 3#32 &&& writable grpFltRow = 0; decide)
    (by rw [itemWord_trip hg]; exact storeValue_trip hg t h _), show (tripItem g v).idx = PWM_GRP_FLT g from rfl, stored_trip hg,
    writeEffect_pwm (by simp only [PWM_GRP_FLT]; omega) (by simp only [PWM_GRP_FLT]; omega), scrub_noWo _ hrow rfl, pwmEffect,
    if_neg (by simp only [PWM_GRP_FLT, PWM_LOADALL]; omega), if_neg (by simp only [PWM_GRP_FLT]; omega)]
  simp only [hdiv, hmod]

theorem tripClear_shown (hs : serves s h) (hv : v < 4) (hholds : holds s h kPwm g = true) (hok : tripClearOk s g v = true)
    (hstart : startsNow s h [item (PWM_GRP_FLT g) 3#32 (BitVec.ofNat 32 v)]) : answers (.tripClear h g v) s (fun t =>
        (∀ i < 2, (rd t (PWM_GRP_FLT g)).getLsbD i = ((rd s (PWM_GRP_FLT g)).getLsbD i && !v.testBit i)) ∧
        flag t (PWM_GRP_STAT_TRIPPED g) = pwmTripped t g ∧ pwmRuns t g = pwmRuns s g ∧
        regsBut s t [PWM_GRP_FLT g, PWM_GRP_STAT g, PWM_STAT] ∧ wroteBut s t h [.regs, .sys]) := by
  refine answers_of_answer (t := (hostItems s h [tripItem g v]).1) rfl (by simp [hs.1, hg, hv]) ?_
  have hflt : rd (wr (ahead s) (PWM_GRP_FLT g) (tripLeft s g v)) (PWM_GRP_FLT g) = tripLeft s g v := rd_wr_self ..
  have hrest : ∀ j, j ≠ PWM_GRP_FLT g → rd (wr (ahead s) (PWM_GRP_FLT g) (tripLeft s g v)) j = rd s j := fun j hj => rd_wr_ne _ _ _ _ hj
  have hbits : ∀ (t : State), ∀ i < 2, (tripWord t g v).toNat.testBit i = v.testBit i := fun t i hi => by
    rw [BitVec.testBit_toNat, getLsbD_tripWord _ _ _ hi]
  have hc : checkItem (ahead s) h (tripItem g v) = stOk :=
    checkItem_trip hg hholds (tripClearOk_of (s := s) (t := ahead s) (fun _ _ hf => hf) (fun _ _ => rfl) (hbits _) hok)
  have hc' : checkItem (noteItem (ahead s) h (tripItem g v)) h (tripItem g v) = stOk := by
    rw [noteItem_trip hg]
    refine checkItem_trip hg ((holds_pwm_of_rd (hrest _ (by simp only [HIF_LS_PWM, PWM_GRP_FLT]; omega))).trans hholds) (tripClearOk_of (s := s) (fun i hi hf => ?_) hrest (hbits _) hok)
    rw [flag_bit] at hf ⊢
    have := hf.symm.trans ((congrArg (·.getLsbD i) hflt).trans (getLsbD_tripLeft s g v hi))
    exact (Bool.and_eq_true_iff.1 this.symm).1
  have hw := writeItems_tripClear (isTripClear_tripItem hg v) hc hc'
  replace hstart : startsNow s h [tripItem g v] := hstart
  rw [hostItems_taken hs hstart (congrArg Prod.snd hw), hw, takeItem_trip hg, show tripLeft (ahead s) g v = tripLeft s g v from rfl]
  have hregs := regsBut_showPwm (wr (ahead s) (PWM_GRP_FLT g) (tripLeft s g v)) g
  have hshown : rd (showPwm (wr (ahead s) (PWM_GRP_FLT g) (tripLeft s g v)) g) (PWM_GRP_FLT g) = tripLeft s g v :=
    (hregs _ (by simp only [List.mem_cons, List.not_mem_nil, or_false, PWM_GRP_FLT, PWM_GRP_STAT, PWM_STAT]; omega)).trans hflt
  refine ⟨fun i hi => ?_, ?_, ?_, ?_, wroteBut_settled ?_ (by decide) (by decide)⟩
  · exact (congrArg (·.getLsbD i) ((rd_settled _).trans hshown)).trans (getLsbD_tripLeft s g v hi)
  · exact (flag_settled _).trans ((flag_tripped_showPwm _ g).trans (pwmTripped_of_rd ((rd_settled _).trans (hshown.trans hflt.symm))).symm)
  · exact (flag_settled _).trans <| (pwmRuns_showPwm _ g).trans (flag_wr_apart (by simp only [PWM_GRP_STAT, PWM_GRP_FLT]; omega) _)
  · exact regsBut_settled (regsBut_trans (regsBut_wr (regsBut_of_regs rfl _) (by simp) _) (regsBut_mono hregs (by simp)))
  · exact showPwm_keeps _ _ (allows_of_subset (by decide)) (wr_keeps _ _ _ (allows_of_subset (by decide)) (Keeps.refl ..))

end Clear

end Writes

/-- Settles O29: a period's events leave the group steady, and the copy, the start, the stop and the trip each say what they leave. -/
theorem pwmPeriodsStartsAndTrips : Obligations.PwmPeriodsStartsAndTrips := by
  unfold Obligations.PwmPeriodsStartsAndTrips
  refine ⟨⟨fun s g => periodBoundary_shown, fun s g p q => pwmCmpEvent_shown, fun s g => pwmPrdEvent_shown, fun s c => delayLineLock_shown⟩,
    fun s h g hs hg hholds hcnt => ⟨pwmStart_on_shown hs hg hholds hcnt, pwmStart_off_shown hs hg hholds hcnt, pwmResume_shown hs hg hholds hcnt⟩,
    fun s g i n t₀ => pwmTrip_shown, fun s h g v hs hg hv hholds hok hstart => tripClear_shown hg hs hv hholds hok hstart⟩

end Sys2Proof.PwmGroups

namespace Sys2Proof.DriverWrites

open Sys2Proof Sys2Proof.Machine Sys2Proof.Frame Sys2Proof.HostWrites Sys2Proof.Drivers

/-! ### Conditions that end (R188) -/

section Releases

variable {s : State} {c g k : Nat}

/-- A bit that is set is taken away, and no other. -/
theorem testBit_sub_two_pow {v k : Nat} (hk : v.testBit k = true) (j : Nat) : (v - 2 ^ k).testBit j = (decide (j ≠ k) && v.testBit j) := by
  have hle : 2 ^ k ≤ v := Nat.ge_two_pow_of_testBit hk
  obtain ⟨x, rfl⟩ : ∃ x, v = 2 ^ k + x := ⟨v - 2 ^ k, by omega⟩
  rw [Nat.add_sub_cancel_left]
  have hpow : 2 ^ (k + 1) = 2 ^ k * 2 := Nat.pow_succ ..
  have hx : x.testBit k = false := by simpa [Nat.testBit_two_pow_add_eq] using hk
  rcases Nat.lt_trichotomy j k with h | rfl | h
  · rw [Nat.testBit_two_pow_add_gt h, decide_eq_true (by omega : j ≠ k), Bool.true_and]
  · simp [hx]
  · have hlow : x % 2 ^ (k + 1) < 2 ^ k := by
      have hbit : (x % 2 ^ (k + 1)).testBit k = false := by rw [Nat.testBit_mod_two_pow, hx, Bool.and_false]
      by_contra hge
      have hlt : x % 2 ^ (k + 1) < 2 ^ (k + 1) := Nat.mod_lt _ (by positivity)
      have hsum : x % 2 ^ (k + 1) = 2 ^ k * 1 + (x % 2 ^ (k + 1) - 2 ^ k) := by omega
      rw [hsum, Nat.testBit_two_pow_mul_add _ (by omega)] at hbit
      simp at hbit
    have hsum : 2 ^ k + x = 2 ^ (k + 1) * (x / 2 ^ (k + 1)) + (2 ^ k + x % 2 ^ (k + 1)) := by
      have := Nat.div_add_mod x (2 ^ (k + 1))
      omega
    have hwhole : x = 2 ^ (k + 1) * (x / 2 ^ (k + 1)) + x % 2 ^ (k + 1) := (Nat.div_add_mod x (2 ^ (k + 1))).symm
    rw [hsum, Nat.testBit_two_pow_mul_add _ (by omega), if_neg (by omega)]
    conv_lhs => rw [hwhole]
    rw [Nat.testBit_two_pow_mul_add _ (Nat.mod_lt _ (by positivity)), if_neg (by omega), decide_eq_true (by omega : j ≠ k), Bool.true_and]

/-- A bit of a set by index that is lifted. -/
theorem testBit_bitPut_false (m : Sparse Nat) (i k j : Nat) :
    (sparseGet (fun _ => 0) (bitPut m i k false) i).testBit j = (decide (j ≠ k) && (sparseGet (fun _ => 0) m i).testBit j) := by
  rw [bitPut, sparseGet_mod]
  generalize sparseGet (fun _ => 0) m i = v
  simp only [Bool.false_eq_true, if_false]
  split
  next hk => exact testBit_sub_two_pow hk j
  next hk =>
    by_cases hj : j = k
    · subst hj
      simp [hk]
    · simp [hj]

theorem showGroups_drv (s : State) : (showGroups s).drv = s.drv :=
  (showGroups_keeps (R := (· ∈ [Part.regs])) s (allows_of_subset (by decide)) (Keeps.refl ..)).same .drv (by decide)

/-- The status words of the groups, and of the drivers. -/
def groupStatus : List Nat := DRV_STAT :: drvGroups.map DRV_GRP_STAT

theorem regsBut_showGroups (s : State) : regsBut s (showGroups s) groupStatus := by
  refine regsBut_setF (regsBut_setF (regsBut_foldl (fun g hg t ht => ?_) (regsBut_refl _ _)) (by simp [groupStatus]) _) (by simp [groupStatus]) _
  exact regsBut_setB ht (List.mem_cons_of_mem _ (List.mem_map_of_mem hg)) _

theorem mem_groupStatus {j : Nat} : j ∈ groupStatus ↔ j = 0x1001 ∨ ∃ g < 8, j = 0x1021 + 8 * g := by
  simp only [groupStatus, List.mem_cons, List.mem_map, DRV_STAT, DRV_GRP_STAT]
  refine or_congr Iff.rfl ⟨fun ⟨g, hg, he⟩ => ⟨g, ?_, he.symm⟩, fun ⟨g, hg, he⟩ => ⟨g, ?_, he.symm⟩⟩
  · have hall : ∀ g ∈ drvGroups, g < 8 := by decide
    exact hall g hg
  · have hall : ∀ g < 8, g ∈ drvGroups := by decide
    exact hall g hg

theorem flt_not_groupStatus (x : Nat) : DRV_GRP_FLT x ∉ groupStatus ∧ DRV_CH_FLT x ∉ groupStatus := by
  rw [mem_groupStatus, mem_groupStatus]
  simp only [DRV_GRP_FLT, DRV_CH_FLT]
  omega

theorem grpHold_holdGrp (s : State) (g k : Nat) (b : Bool) : grpHold (holdGrp s g k b) g = sparseGet (fun _ => 0) (bitPut s.drv.grpHold g k b) g := by
  rw [grpHold, holdGrp, showGroups_drv]

theorem channel_released (hc : c < 32) (hk : k < 4) : answers (.autoProtectionRelease false c k) s (fun t =>
    condOf t.drv.chCond c k = false ∧ (chHold t c).testBit k = (decide (k ≠ 3) && (chHold s c).testBit k) ∧
    t.drv.ch = s.drv.ch ∧ t.regs = s.regs ∧ partsBut s t [.drv]) := by
  refine answers_of_answer (t := protectionClears s false c k) rfl (by simp [hc, hk]) ?_
  have hkeeps : Keeps (· ∈ [Part.drv]) s (protectionClears s false c k) := by
    rw [protectionClears, if_neg (by decide)]
    split
    · exact Keeps.put_drv (by simp) (Keeps.put_drv (by simp) (Keeps.refl ..))
    · exact Keeps.put_drv (by simp) (Keeps.refl ..)
  have hcond : condOf (bitPut s.drv.chCond c k false) c k = false := by
    rw [condOf, testBit_bitPut_false]
    simp
  rw [protectionClears, if_neg (by decide)] at hkeeps ⊢
  by_cases h3 : k = 3
  · subst h3
    rw [if_pos rfl] at hkeeps ⊢
    refine ⟨hcond, ?_, rfl, rfl, partsBut_of_keeps hkeeps⟩
    exact (testBit_bitPut_false s.drv.chHold c 3 3).trans (by simp)
  · rw [if_neg h3] at hkeeps ⊢
    refine ⟨hcond, ?_, rfl, rfl, partsBut_of_keeps hkeeps⟩
    rw [decide_eq_true h3, Bool.true_and]
    rfl

/-- The condition of a group that ends. -/
def groupCleared (s : State) (g k : Nat) : State :=
  condGrp (if k = 0 then setB s (DRV_GRP_STAT_UV g) false else if k = 1 then setB s (DRV_GRP_STAT_OV g) false else s) g k false

theorem groupCleared_drv (s : State) (g k : Nat) : (groupCleared s g k).drv = { s.drv with grpCond := bitPut s.drv.grpCond g k false } := by
  unfold groupCleared condGrp
  split
  · rfl
  · split <;> rfl

theorem regsBut_groupCleared (hg : g < 8) (s : State) (k : Nat) : regsBut s (groupCleared s g k) groupStatus := by
  have hmem : DRV_GRP_STAT g ∈ groupStatus := mem_groupStatus.2 (Or.inr ⟨g, hg, rfl⟩)
  unfold groupCleared
  refine regsBut_put (t := if k = 0 then setB s (DRV_GRP_STAT_UV g) false else if k = 1 then setB s (DRV_GRP_STAT_OV g) false else s) ?_ rfl
  split
  · exact regsBut_setB (regsBut_refl _ _) hmem _
  · split
    · exact regsBut_setB (regsBut_refl _ _) hmem _
    · exact regsBut_refl _ _

theorem group_released (hg : g < 8) (hk : k < 5) : answers (.autoProtectionRelease true g k) s (fun t =>
      condOf t.drv.grpCond g k = false ∧ (grpHold t g).testBit k = (decide (k = 2 ∨ k = 4) && (grpHold s g).testBit k) ∧
      t.drv.ch = s.drv.ch ∧ (∀ x < 8, rd t (DRV_GRP_FLT x) = rd s (DRV_GRP_FLT x)) ∧ (∀ x < 32, rd t (DRV_CH_FLT x) = rd s (DRV_CH_FLT x)) ∧
      partsBut s t [.regs, .drv]) := by
  refine answers_of_answer (t := protectionClears s true g k) rfl (by simp [hg, hk]) ?_
  have hkeeps := protectionClears_keeps (R := (· ∈ [Part.regs, .drv])) s true g k (allows_of_subset (by decide)) (Keeps.refl ..)
  have hcond : condOf (bitPut s.drv.grpCond g k false) g k = false := by
    rw [condOf, testBit_bitPut_false]
    simp
  have hcl : protectionClears s true g k = if k = 0 ∨ k = 1 ∨ k = 3 then holdGrp (groupCleared s g k) g k false else groupCleared s g k := rfl
  have hregs : regsBut s (groupCleared s g k) groupStatus := regsBut_groupCleared hg s k
  rw [hcl] at hkeeps ⊢
  by_cases hauto : k = 0 ∨ k = 1 ∨ k = 3
  · rw [if_pos hauto] at hkeeps ⊢
    have hdrv : (holdGrp (groupCleared s g k) g k false).drv = { (groupCleared s g k).drv with grpHold := bitPut (groupCleared s g k).drv.grpHold g k false } :=
      showGroups_drv _
    have hall : regsBut s (holdGrp (groupCleared s g k) g k false) groupStatus := regsBut_trans hregs (regsBut_before (regsBut_showGroups _) rfl)
    refine ⟨?_, ?_, ?_, fun x _ => hall _ (flt_not_groupStatus x).1, fun x _ => hall _ (flt_not_groupStatus x).2, partsBut_of_keeps hkeeps⟩
    · rw [hdrv, groupCleared_drv]
      exact hcond
    · rw [grpHold_holdGrp, testBit_bitPut_false]
      have h24 : ¬(k = 2 ∨ k = 4) := by omega
      simp [h24]
    · rw [hdrv, groupCleared_drv]
  · rw [if_neg hauto] at hkeeps ⊢
    refine ⟨?_, ?_, ?_, fun x _ => hregs _ (flt_not_groupStatus x).1, fun x _ => hregs _ (flt_not_groupStatus x).2, partsBut_of_keeps hkeeps⟩
    · rw [groupCleared_drv]
      exact hcond
    · have h24 : k = 2 ∨ k = 4 := by omega
      rw [grpHold, groupCleared_drv, grpHold, decide_eq_true h24, Bool.true_and]
    · rw [groupCleared_drv]

end Releases

end Sys2Proof.DriverWrites

namespace Sys2Proof.DriverWrites

open Sys2Proof Sys2Proof.Machine Sys2Proof.Frame Sys2Proof.HostWrites Sys2Proof.Drivers

section Enables

variable {s : State} {h c g : Nat}

/-! ### The enables (R166) -/

/-- The rows of DRV_CTRL, DRV_GRP_CTRL and DRV_CH_MODE in the register index. -/
def drvCtrlRow : RegRow := ⟨0x1000, 1, 1, 1, 1, 0x00000000#32, 0x00000001#32, 0x00000000#32, 0x00000000#32, 0x00000000#32, 0x00000002#32⟩

def grpCtrlRow : RegRow := ⟨0x1020, 8, 8, 1, 1, 0x00321400#32, 0x00FF1F03#32, 0x00000000#32, 0x00000000#32, 0x00000000#32, 0x00000000#32⟩

def chModeRow : RegRow := ⟨0x1100, 32, 8, 1, 1, 0x00000230#32, 0x00000277#32, 0x00000000#32, 0x00000000#32, 0x00000000#32, 0x00000100#32⟩

theorem maskOk_drvCtrl : MaskOk DRV_CTRL drvCtrlRow 1#32 ∧ MaskOk DRV_CTRL drvCtrlRow 2#32 := by decide

theorem maskOk_grpCtrl (hg : g < 8) : MaskOk (DRV_GRP_CTRL g) grpCtrlRow 1#32 := by
  revert g
  decide

theorem maskOk_chMode (hc : c < 32) : MaskOk (DRV_CH_MODE c) chModeRow 3#32 ∧ MaskOk (DRV_CH_MODE c) chModeRow 4#32 ∧ MaskOk (DRV_CH_MODE c) chModeRow 0x100#32 := by
  have hmode : ∀ c < 32, MaskOk (DRV_CH_MODE c) chModeRow 3#32 := by decide
  have hpair : ∀ c < 32, MaskOk (DRV_CH_MODE c) chModeRow 4#32 := by decide
  have hresume : ∀ c < 32, MaskOk (DRV_CH_MODE c) chModeRow 0x100#32 := by decide
  exact ⟨hmode c hc, hpair c hc, hresume c hc⟩

/-- The value of a write of one bit. -/
def bitValue (m : Word) (b : Bool) : Word := if b then m else 0#32

theorem bitsOf_bitValue (b : Bool) : bitsOf (bitValue 1#32 b) 0 0 = bit b 0 ∧ bitsOf (bitValue 4#32 b) 2 2 = bit b 0 := by
  cases b <;> decide

/-- A write of DRV_CTRL that is accepted. -/
theorem hostItems_drvCtrl {m val : Word} (hs : serves s h) (hi : MaskOk DRV_CTRL drvCtrlRow m) (hmay : (ownerOrService s h || decide (m &&& 1#32 = 0)) = true)
    (hrule : (bitsDiffer (rd s DRV_CTRL) (takenWord drvCtrlRow (rd s DRV_CTRL) m val) 0 0 &&
      decide (bitsOf (takenWord drvCtrlRow (rd s DRV_CTRL) m val) 0 0 = 0) && energisedIn s drvChans) = false) (hstart : startsNow s h [item DRV_CTRL m val]) :
    hostItems s h [item DRV_CTRL m val] = (settled s h (scrub
      (if (takenWord drvCtrlRow (rd s DRV_CTRL) m val).getLsbD 1 then resumeAll (wr (ahead s) DRV_CTRL (takenWord drvCtrlRow (rd s DRV_CTRL) m val)) h
        else wr (ahead s) DRV_CTRL (takenWord drvCtrlRow (rd s DRV_CTRL) m val)) DRV_CTRL), true) := by
  have hitems := hostItems_taken_word (m := m) (val := val) hi hs hstart
    (by
      rw [mayWrite_drv (by decide) (by decide), mayWriteDrv, if_neg (by decide), if_neg (by decide), if_pos rfl]
      exact hmay)
    (by
      rw [storeValue_drv (by decide) (by decide), drvStore]
      rfl)
    (by
      rw [stateRule_drv (by decide) (by decide), drvRule, if_pos rfl, show energisedIn (ahead s) drvChans = energisedIn s drvChans from rfl, hrule]
      rfl)
  rw [writeEffect_drv (by decide) (by decide), drvEffect, if_pos rfl] at hitems
  exact hitems

theorem drvEn_shown {en : Bool} (hs : serves s h) (how : ownerOrService s h = true) (hoff : en = false → energisedIn s drvChans = false)
    (hstart : startsNow s h (putFlag DRV_CTRL_EN en)) : answers (.drvEn h en) s (fun t => flag t DRV_CTRL_EN = en ∧ regsBut s t [DRV_CTRL] ∧ wroteBut s t h [.regs, .sys]) := by
  have hitem : putFlag DRV_CTRL_EN en = [item DRV_CTRL 1#32 (bitValue 1#32 en)] := by cases en <;> rfl
  rw [hitem] at hstart
  refine answers_of_answer (ok := decide (h < 4) && true) (t := (hostItems s h [item DRV_CTRL 1#32 (bitValue 1#32 en)]).1) ?_ (by simp [hs.1]) ?_
  · rw [← hitem]
    rfl
  have hset : bitsOf (takenWord drvCtrlRow (rd s DRV_CTRL) 1#32 (bitValue 1#32 en)) 0 0 = bit en 0 :=
    (bitsOf_takenWord (by decide) (by decide)).trans (bitsOf_bitValue en).1
  have hidle : (takenWord drvCtrlRow (rd s DRV_CTRL) 1#32 (bitValue 1#32 en)).getLsbD 1 = false :=
    (getLsbD_takenWord (by decide) (by decide)).trans (by rw [if_neg (by decide), if_pos (by decide)])
  have hrule : (bitsDiffer (rd s DRV_CTRL) (takenWord drvCtrlRow (rd s DRV_CTRL) 1#32 (bitValue 1#32 en)) 0 0 &&
      decide (bitsOf (takenWord drvCtrlRow (rd s DRV_CTRL) 1#32 (bitValue 1#32 en)) 0 0 = 0) && energisedIn s drvChans) = false := by
    rw [hset]
    cases en with
    | true => simp [bit]
    | false => simp [hoff rfl]
  rw [hostItems_drvCtrl hs maskOk_drvCtrl.1 (by rw [how]; rfl) hrule hstart, hidle, if_neg (by decide)]
  refine ⟨?_, regsBut_settled (regsBut_scrub (regsBut_wr (regsBut_of_regs rfl _) (by simp) _) (by simp)), wroteBut_settled ?_ (by decide) (by decide)⟩
  · rw [flag_settled, flag, getF_scrub maskOk_drvCtrl.1.1 (by decide), getF, rd_wr_self, hset]
    cases en <;> rfl
  · exact scrub_keeps _ _ (allows_of_subset (by decide)) (wr_keeps _ _ _ (allows_of_subset (by decide)) (Keeps.refl ..))

theorem groupEn_shown {en : Bool} (hs : serves s h) (hg : g < 8) (how : ownerOrService s h = true) (hoff : en = false → energisedIn s (groupChans g) = false)
    (hchop : inRange 2 25 (bitsOf (rd s (DRV_GRP_CTRL g)) 12 8) = true) (huv : inRange 45 160 (bitsOf (rd s (DRV_GRP_CTRL g)) 23 16) = true)
    (hstart : startsNow s h (putFlag (DRV_GRP_CTRL_EN g) en)) : answers (.groupEn h g en) s (fun t =>
      flag t (DRV_GRP_CTRL_EN g) = en ∧ regsBut s t [DRV_GRP_CTRL g] ∧ wroteBut s t h [.regs, .sys]) := by
  have hitem : putFlag (DRV_GRP_CTRL_EN g) en = [item (DRV_GRP_CTRL g) 1#32 (bitValue 1#32 en)] := by cases en <;> rfl
  rw [hitem] at hstart
  refine answers_of_answer (ok := decide (h < 4) && decide (g < 8)) (t := (hostItems s h [item (DRV_GRP_CTRL g) 1#32 (bitValue 1#32 en)]).1) ?_ (by simp [hs.1, hg]) ?_
  · rw [← hitem]
    rfl
  have hr : 0x1000 ≤ DRV_GRP_CTRL g ∧ DRV_GRP_CTRL g < 0x1300 := by simp only [DRV_GRP_CTRL]; omega
  have hmod : DRV_GRP_CTRL g % 8 = 0 := by simp only [DRV_GRP_CTRL]; omega
  have hdiv : (DRV_GRP_CTRL g - 0x1020) / 8 = g := by simp only [DRV_GRP_CTRL]; omega
  have hrange : 0x1020 ≤ DRV_GRP_CTRL g ∧ DRV_GRP_CTRL g ≤ 0x105F := by simp only [DRV_GRP_CTRL]; omega
  have hplain : PlainRow grpCtrlRow := by decide
  have hset : bitsOf (takenWord grpCtrlRow (rd s (DRV_GRP_CTRL g)) 1#32 (bitValue 1#32 en)) 0 0 = bit en 0 :=
    (bitsOf_takenWord hplain (by decide)).trans (bitsOf_bitValue en).1
  have h12 : bitsOf (takenWord grpCtrlRow (rd s (DRV_GRP_CTRL g)) 1#32 (bitValue 1#32 en)) 12 8 = bitsOf (rd s (DRV_GRP_CTRL g)) 12 8 :=
    bitsOf_takenWord_out hplain (by decide)
  have h23 : bitsOf (takenWord grpCtrlRow (rd s (DRV_GRP_CTRL g)) 1#32 (bitValue 1#32 en)) 23 16 = bitsOf (rd s (DRV_GRP_CTRL g)) 23 16 :=
    bitsOf_takenWord_out hplain (by decide)
  generalize hw : takenWord grpCtrlRow (rd s (DRV_GRP_CTRL g)) 1#32 (bitValue 1#32 en) = w at hset h12 h23
  have hmay : mayWrite (ahead s) h (DRV_GRP_CTRL g) 1#32 w = true := by
    rw [mayWrite_drv hr.1 hr.2, mayWriteDrv]
    simp (disch := omega) only [inRange, decide_eq_true_eq, if_neg]
    rw [if_neg (by simp only [DRV_GRP_CTRL, DRV_CTRL]; omega)]
    exact how
  have hstore : storeValue (ahead s) h (DRV_GRP_CTRL g) w = some w := by
    rw [storeValue_drv hr.1 hr.2, drvStore]
    simp only [if_neg (show ¬DRV_GRP_CTRL g = DRV_KET_CFG by simp only [DRV_KET_CFG]; omega),
      if_neg (show ¬DRV_GRP_CTRL g = DRV_KET_MODEL by simp only [DRV_KET_MODEL]; omega), if_pos (show 0x1020 ≤ DRV_GRP_CTRL g ∧ DRV_GRP_CTRL g < 0x1060 by omega),
      if_pos hmod, h12, h23, hchop, huv]
    rfl
  have hrule : stateRule (ahead s) h (DRV_GRP_CTRL g) 1#32 (rd s (DRV_GRP_CTRL g)) w = .ok := by
    have hbusy : (bitsDiffer (rd s (DRV_GRP_CTRL g)) w 0 0 && decide (bitsOf w 0 0 = 0) && energisedIn s (groupChans g)) = false := by
      rw [hset]
      cases en with
      | true => simp [bit]
      | false => simp [hoff rfl]
    rw [stateRule_drv hr.1 hr.2, drvRule, if_neg (by simp only [DRV_GRP_CTRL, DRV_CTRL]; omega), if_pos (by simp [inRange, hrange, hmod]), hdiv,
      show energisedIn (ahead s) (groupChans g) = energisedIn s (groupChans g) from rfl, hbusy]
    rfl
  have hitems := hostItems_taken_word (m := 1#32) (val := bitValue 1#32 en) (maskOk_grpCtrl hg) hs hstart (by rw [hw]; exact hmay) (by rw [hw]; exact hstore)
    (by rw [hw]; exact hrule)
  have heff : ∀ t : State, drvEffect t h (DRV_GRP_CTRL g) (rd s (DRV_GRP_CTRL g)) w = t := fun t => by
    rw [drvEffect, if_neg (by simp only [DRV_GRP_CTRL, DRV_CTRL]; omega), if_neg (by simp [hmod])]
    simp (disch := omega) only [inRange, decide_eq_true_eq, Bool.and_eq_true, if_neg]
  rw [hw, writeEffect_drv hr.1 hr.2, heff, scrub_noWo _ (maskOk_grpCtrl hg).1 rfl] at hitems
  rw [hitems]
  refine ⟨?_, regsBut_settled (regsBut_wr (regsBut_of_regs rfl _) (by simp) _), wroteBut_settled ?_ (by decide) (by decide)⟩
  · rw [flag_settled, flag, getF, rd_wr_self, hset]
    cases en <;> rfl
  · exact wr_keeps _ _ _ (allows_of_subset (by decide)) (Keeps.refl ..)

end Enables

end Sys2Proof.DriverWrites

namespace Sys2Proof.DriverWrites

open Sys2Proof Sys2Proof.Machine Sys2Proof.Frame Sys2Proof.HostWrites Sys2Proof.Drivers

/-! ### The mode, the pair and RESUME of a channel (R169, R180, R185) -/

section Modes

variable {s : State} {h c : Nat} {m val : Word}

/-- The word that a write of DRV_CH_MODE takes. -/
def chModeWord (s : State) (c : Nat) (m val : Word) : Word := takenWord chModeRow (rd s (DRV_CH_MODE c)) m val

theorem plain_chMode : PlainRow chModeRow := by decide

theorem chMode_index (hc : c < 32) : 0x1000 ≤ DRV_CH_MODE c ∧ DRV_CH_MODE c < 0x1300 ∧ 0x1100 ≤ DRV_CH_MODE c ∧ DRV_CH_MODE c ≤ 0x11FF ∧
    (DRV_CH_MODE c - 0x1100) / 8 = c ∧ DRV_CH_MODE c % 8 = 0 := by
  simp only [DRV_CH_MODE]
  omega

theorem mayWrite_chMode (hc : c < 32) (t : State) (mask v : Word) : mayWrite t h (DRV_CH_MODE c) mask v = holds t h kCh (leadCh t c) := by
  obtain ⟨h1, h2, h3, h4, hdiv, -⟩ := chMode_index hc
  rw [mayWrite_drv h1 h2, mayWriteDrv, if_pos (by simp [inRange, h3, h4]), hdiv]

theorem storeValue_chMode (hc : c < 32) (t : State) (v : Word) :
    storeValue t h (DRV_CH_MODE c) v = if c % 2 = 1 ∧ bitsOf v 2 2 = 1 then none else some v := by
  obtain ⟨h1, h2, h3, h4, hdiv, hmod⟩ := chMode_index hc
  rw [storeValue_drv h1 h2, drvStore]
  simp only [if_neg (show ¬DRV_CH_MODE c = DRV_KET_CFG by simp only [DRV_KET_CFG]; omega), if_neg (show ¬DRV_CH_MODE c = DRV_KET_MODEL by simp only [DRV_KET_MODEL]; omega),
    if_neg (show ¬(0x1020 ≤ DRV_CH_MODE c ∧ DRV_CH_MODE c < 0x1060) by omega), if_pos (show 0x1100 ≤ DRV_CH_MODE c ∧ DRV_CH_MODE c < 0x1200 by omega), hmod, hdiv]
  by_cases hodd : c % 2 = 1
  · by_cases hp : bitsOf v 2 2 = 1 <;> simp [hodd, hp]
  · simp [hodd]

/-- The rule of a write of the mode. -/
theorem drvRule_chMode (hc : c < 32) (t : State) (old v : Word) : drvRule t (DRV_CH_MODE c) old v =
    ((!(bitsDiffer old v 1 0 || bitsDiffer old v 2 2) || modeIdle t c) &&
      (!(bitsDiffer old v 2 2 && decide (bitsOf v 2 2 = 1)) || (!chUsed t (c + 1) && decide (getF t (DRV_CH_MODE_MODE (c + 1)) = 0)))) := by
  obtain ⟨h1, h2, h3, h4, hdiv, hmod⟩ := chMode_index hc
  rw [drvRule, if_neg (by simp only [DRV_CTRL]; omega), if_neg (by simp [inRange]; omega), if_pos (by simp [inRange, h3, h4])]
  simp only [hdiv, hmod, if_true]

/-- A write of DRV_CH_MODE that is accepted. -/
theorem hostItems_chMode (hi : MaskOk (DRV_CH_MODE c) chModeRow m) (hs : serves s h) (hc : c < 32) (hholds : holds s h kCh (leadCh s c) = true)
    (hodd : c % 2 = 1 → bitsOf (chModeWord s c m val) 2 2 = 0) (hrule : drvRule s (DRV_CH_MODE c) (rd s (DRV_CH_MODE c)) (chModeWord s c m val) = true)
    (hstart : startsNow s h [item (DRV_CH_MODE c) m val]) : hostItems s h [item (DRV_CH_MODE c) m val] = (settled s h (scrub
      (drvModeEffect (wr (ahead s) (DRV_CH_MODE c) (chModeWord s c m val)) c (rd s (DRV_CH_MODE c)) (chModeWord s c m val)) (DRV_CH_MODE c)), true) := by
  obtain ⟨h1, h2, h3, h4, hdiv, hmod⟩ := chMode_index hc
  have hitems := hostItems_taken_word (m := m) (val := val) hi hs hstart
    (by
      rw [mayWrite_chMode hc]
      exact hholds)
    (by
      rw [storeValue_chMode hc, if_neg]
      rintro ⟨h5, h6⟩
      exact absurd ((hodd h5).symm.trans h6) (by decide))
    (by
      rw [stateRule_drv h1 h2, show drvRule (ahead s) (DRV_CH_MODE c) (rd s (DRV_CH_MODE c)) (takenWord chModeRow (rd s (DRV_CH_MODE c)) m val) = true from hrule]
      rfl)
  rw [writeEffect_drv h1 h2, drvEffect, if_neg (by simp only [DRV_CTRL]; omega), if_neg (by simp [inRange]), if_pos (by simp [inRange, h3, h4])] at hitems
  simp only [hdiv, hmod, if_true] at hitems
  exact hitems

theorem modeEffect_regs (s : State) (c old : Nat) : (modeEffect s c old).regs = s.regs :=
  (modeEffect_keeps (R := (· ∈ [Part.drv])) s c old (allows_of_subset (by decide)) (Keeps.refl ..)).same .regs (by decide)

theorem pairEffect_shown (s : State) (c : Nat) : flag (pairEffect s c) (DRV_CH_STAT_PAIRED c) = paired s c ∧
    flag (pairEffect s c) (DRV_CH_STAT_PAIRED (c + 1)) = paired s c ∧ regsBut s (pairEffect s c) [DRV_CH_STAT c, DRV_CH_STAT (c + 1)] :=
  ⟨(flag_setB_apart ⟨by simp, by simp, Or.inl (by simp only [DRV_CH_STAT]; omega)⟩ _).trans (flag_setB _ _ _ ⟨by simp, by simp⟩),
    flag_setB _ _ _ ⟨by simp, by simp⟩, regsBut_setB (regsBut_setB (regsBut_refl _ _) (by simp) _) (by simp) _⟩

/-- The word beside the bits written stands, and RESUME is not asked for. -/
theorem chModeWord_mode (s : State) (c n : Nat) (hn : n < 4) : bitsOf (chModeWord s c 3#32 (BitVec.ofNat 32 n)) 1 0 = n ∧
    bitsOf (chModeWord s c 3#32 (BitVec.ofNat 32 n)) 2 2 = bitsOf (rd s (DRV_CH_MODE c)) 2 2 ∧ (chModeWord s c 3#32 (BitVec.ofNat 32 n)).getLsbD 8 = false := by
  refine ⟨(bitsOf_takenWord plain_chMode (by decide)).trans ?_, bitsOf_takenWord_out plain_chMode (by decide),
    (getLsbD_takenWord plain_chMode (by decide)).trans (by rw [if_neg (by decide), if_pos (by decide)])⟩
  rw [bitsOf_ofNat (by omega)]
  omega

theorem chModeWord_pair (s : State) (c : Nat) (p : Bool) : bitsOf (chModeWord s c 4#32 (bitValue 4#32 p)) 2 2 = bit p 0 ∧
    bitsOf (chModeWord s c 4#32 (bitValue 4#32 p)) 1 0 = bitsOf (rd s (DRV_CH_MODE c)) 1 0 ∧ (chModeWord s c 4#32 (bitValue 4#32 p)).getLsbD 8 = false :=
  ⟨(bitsOf_takenWord plain_chMode (by decide)).trans (bitsOf_bitValue p).2, bitsOf_takenWord_out plain_chMode (by decide),
    (getLsbD_takenWord plain_chMode (by decide)).trans (by rw [if_neg (by decide), if_pos (by decide)])⟩

theorem chModeWord_resume (s : State) (c : Nat) : (chModeWord s c 0x100#32 0x100#32).getLsbD 8 = true ∧
    bitsOf (chModeWord s c 0x100#32 0x100#32) 1 0 = bitsOf (rd s (DRV_CH_MODE c)) 1 0 ∧
    bitsOf (chModeWord s c 0x100#32 0x100#32) 2 2 = bitsOf (rd s (DRV_CH_MODE c)) 2 2 :=
  ⟨(getLsbD_takenWord plain_chMode (by decide)).trans (by rw [if_pos (by decide)]; decide), bitsOf_takenWord_out plain_chMode (by decide),
    bitsOf_takenWord_out plain_chMode (by decide)⟩

theorem bit_of_flag {f : Field} (hf : f.hi = f.lo) (hz : flag s f = false) : bitsOf (rd s f.reg) f.lo f.lo = 0 := by
  rw [flag, getF, hf] at hz
  simpa using hz

theorem bitsDiffer_same {a b : Word} {hi lo : Nat} (h : bitsOf b hi lo = bitsOf a hi lo) : bitsDiffer a b hi lo = false := by
  rw [bitsDiffer, h]
  simp

theorem drvModeWrite_shown {n : Nat} (hs : serves s h) (hc : c < 32) (hn : n < 4) (hholds : holds s h kCh (leadCh s c) = true) (hidle : modeIdle s c = true)
    (hodd : c % 2 = 1 → flag s (DRV_CH_MODE_PAIR c) = false) (hstart : startsNow s h (putField (DRV_CH_MODE_MODE c) n)) :
    answers (.drvModeWrite h c n) s (fun t => getF t (DRV_CH_MODE_MODE c) = n ∧ regsBut s t [DRV_CH_MODE c] ∧ wroteBut s t h [.regs, .sys, .drv]) := by
  have hval : n % 4 * 1 = n := by omega
  have hitem : putField (DRV_CH_MODE_MODE c) n = [item (DRV_CH_MODE c) 3#32 (BitVec.ofNat 32 n)] := by
    show [item (DRV_CH_MODE c) 3#32 (BitVec.ofNat 32 (n % 4 * 1))] = _
    rw [hval]
  rw [hitem] at hstart
  refine answers_of_answer (ok := decide (h < 4) && decide (c < 32 ∧ n < 4)) (t := (hostItems s h [item (DRV_CH_MODE c) 3#32 (BitVec.ofNat 32 n)]).1) ?_ (by simp [hs.1, hc, hn]) ?_
  · rw [← hitem]
    rfl
  obtain ⟨hmode, hpair, hres⟩ := chModeWord_mode s c n hn
  have hsame := bitsDiffer_same hpair
  have hrule : drvRule s (DRV_CH_MODE c) (rd s (DRV_CH_MODE c)) (chModeWord s c 3#32 (BitVec.ofNat 32 n)) = true := by
    rw [drvRule_chMode hc, hsame, hidle]
    simp
  rw [hostItems_chMode (maskOk_chMode hc).1 hs hc hholds (fun ho => hpair.trans (bit_of_flag (f := DRV_CH_MODE_PAIR c) rfl (hodd ho))) hrule hstart]
  generalize hw : chModeWord s c 3#32 (BitVec.ofNat 32 n) = w at hmode hpair hres hsame
  have heff : drvModeEffect (wr (ahead s) (DRV_CH_MODE c) w) c (rd s (DRV_CH_MODE c)) w =
      if bitsDiffer (rd s (DRV_CH_MODE c)) w 1 0 then modeEffect (wr (ahead s) (DRV_CH_MODE c) w) c (bitsOf (rd s (DRV_CH_MODE c)) 1 0) else wr (ahead s) (DRV_CH_MODE c) w := by
    rw [drvModeEffect, hsame, hres]
    rfl
  have hregs : (drvModeEffect (wr (ahead s) (DRV_CH_MODE c) w) c (rd s (DRV_CH_MODE c)) w).regs = (wr (ahead s) (DRV_CH_MODE c) w).regs := by
    rw [heff]
    split
    · exact modeEffect_regs ..
    · rfl
  have hkeeps : Keeps (· ∈ [Part.regs, .sys, .drv]) (ahead s) (drvModeEffect (wr (ahead s) (DRV_CH_MODE c) w) c (rd s (DRV_CH_MODE c)) w) := by
    have h0 : Keeps (· ∈ [Part.regs, .sys, .drv]) (ahead s) (wr (ahead s) (DRV_CH_MODE c) w) := wr_keeps _ _ _ (allows_of_subset (by decide)) (Keeps.refl ..)
    rw [heff]
    split
    · exact modeEffect_keeps _ _ _ (allows_of_subset (by decide)) h0
    · exact h0
  refine ⟨?_, ?_, wroteBut_settled (scrub_keeps _ _ (allows_of_subset (by decide)) hkeeps) (by decide) (by decide)⟩
  · rw [getF_settled, getF_scrub (maskOk_chMode hc).1.1 (by decide), getF_of_regs hregs, getF, rd_wr_self]
    exact hmode
  · exact regsBut_settled (regsBut_scrub (regsBut_put (regsBut_wr (regsBut_of_regs rfl _) (by simp) _) hregs) (by simp))

theorem pairWrite_shown {p : Bool} (hs : serves s h) (hc : c < 32) (heven : c % 2 = 0) (hholds : holds s h kCh (leadCh s c) = true) (hidle : modeIdle s c = true)
    (hjoin : p = true → chUsed s (c + 1) = false ∧ getF s (DRV_CH_MODE_MODE (c + 1)) = 0) (hstart : startsNow s h (putFlag (DRV_CH_MODE_PAIR c) p)) :
    answers (.pairWrite h c p) s (fun t => flag t (DRV_CH_MODE_PAIR c) = p ∧
        (flag s (DRV_CH_MODE_PAIR c) ≠ p → flag t (DRV_CH_STAT_PAIRED c) = p ∧ flag t (DRV_CH_STAT_PAIRED (c + 1)) = p) ∧
        regsBut s t [DRV_CH_MODE c, DRV_CH_STAT c, DRV_CH_STAT (c + 1)] ∧ wroteBut s t h [.regs, .sys]) := by
  have hitem : putFlag (DRV_CH_MODE_PAIR c) p = [item (DRV_CH_MODE c) 4#32 (bitValue 4#32 p)] := by cases p <;> rfl
  rw [hitem] at hstart
  refine answers_of_answer (ok := decide (h < 4) && decide (c < 32)) (t := (hostItems s h [item (DRV_CH_MODE c) 4#32 (bitValue 4#32 p)]).1) ?_ (by simp [hs.1, hc]) ?_
  · rw [← hitem]
    rfl
  obtain ⟨hpair, hmode, hres⟩ := chModeWord_pair s c p
  have hsame := bitsDiffer_same hmode
  have hrule : drvRule s (DRV_CH_MODE c) (rd s (DRV_CH_MODE c)) (chModeWord s c 4#32 (bitValue 4#32 p)) = true := by
    rw [drvRule_chMode hc, hidle, hpair]
    cases p with
    | false => simp [bit]
    | true => simp [(hjoin rfl).1, (hjoin rfl).2]
  rw [hostItems_chMode (maskOk_chMode hc).2.1 hs hc hholds (fun ho => absurd (heven.symm.trans ho) (by decide)) hrule hstart]
  generalize hw : chModeWord s c 4#32 (bitValue 4#32 p) = w at hmode hpair hres hsame
  have hpu : paired (wr (ahead s) (DRV_CH_MODE c) w) c = p := by
    have hlead : c / 2 * 2 = c := by omega
    rw [paired, hlead, flag, getF, rd_wr_self]
    simp only [hpair]
    cases p <;> rfl
  have heff : drvModeEffect (wr (ahead s) (DRV_CH_MODE c) w) c (rd s (DRV_CH_MODE c)) w =
      if bitsDiffer (rd s (DRV_CH_MODE c)) w 2 2 then pairEffect (wr (ahead s) (DRV_CH_MODE c) w) c else wr (ahead s) (DRV_CH_MODE c) w := by
    rw [drvModeEffect, hsame, hres]
    rfl
  obtain ⟨hp1, hp2, hpregs⟩ := pairEffect_shown (wr (ahead s) (DRV_CH_MODE c) w) c
  have hne : DRV_CH_MODE c ∉ [DRV_CH_STAT c, DRV_CH_STAT (c + 1)] := by
    simp only [List.mem_cons, List.not_mem_nil, or_false, DRV_CH_MODE, DRV_CH_STAT]
    omega
  have hregs : regsBut (wr (ahead s) (DRV_CH_MODE c) w) (drvModeEffect (wr (ahead s) (DRV_CH_MODE c) w) c (rd s (DRV_CH_MODE c)) w) [DRV_CH_STAT c, DRV_CH_STAT (c + 1)] := by
    rw [heff]
    split
    · exact hpregs
    · exact regsBut_refl _ _
  have hkeeps : Keeps (· ∈ [Part.regs, .sys]) (ahead s) (drvModeEffect (wr (ahead s) (DRV_CH_MODE c) w) c (rd s (DRV_CH_MODE c)) w) := by
    have h0 : Keeps (· ∈ [Part.regs, .sys]) (ahead s) (wr (ahead s) (DRV_CH_MODE c) w) := wr_keeps _ _ _ (allows_of_subset (by decide)) (Keeps.refl ..)
    rw [heff]
    split
    · exact pairEffect_keeps _ _ (allows_of_subset (by decide)) h0
    · exact h0
  have hrow := (maskOk_chMode hc).1.1
  refine ⟨?_, fun hdiff => ?_, ?_, wroteBut_settled (scrub_keeps _ _ (allows_of_subset (by decide)) hkeeps) (by decide) (by decide)⟩
  · rw [flag_settled, flag, getF_scrub hrow (by decide), getF_of_regsBut hregs hne, getF, rd_wr_self]
    simp only [hpair]
    cases p <;> rfl
  · have hd : bitsDiffer (rd s (DRV_CH_MODE c)) w 2 2 = true := by
      rw [bitsDiffer, decide_eq_true_eq, hpair]
      intro he
      apply hdiff
      rw [flag, getF]
      simp only [he]
      cases p <;> rfl
    rw [heff, if_pos hd]
    have hstat : ∀ d, rd (settled s h (scrub (pairEffect (wr (ahead s) (DRV_CH_MODE c) w) c) (DRV_CH_MODE c))) (DRV_CH_STAT d) =
        rd (pairEffect (wr (ahead s) (DRV_CH_MODE c) w) c) (DRV_CH_STAT d) := fun d =>
      (rd_settled _).trans (rd_scrub_ne _ (by simp only [DRV_CH_STAT, DRV_CH_MODE]; omega))
    exact ⟨(flag_congr (f := DRV_CH_STAT_PAIRED c) (hstat c)).trans (hp1.trans hpu), (flag_congr (f := DRV_CH_STAT_PAIRED (c + 1)) (hstat (c + 1))).trans (hp2.trans hpu)⟩
  · exact regsBut_settled (regsBut_scrub (regsBut_trans (regsBut_wr (regsBut_of_regs rfl _) (by simp) _) (regsBut_mono hregs (by simp))) (by simp))

/-- An item whose value is none that can be stored. -/
theorem checkItem_unstorable {w : WItem} {r : RegRow} {t : State} (hrow : regRow w.idx = some r) (htouch : w.mask &&& writable r ≠ 0)
    (hval : storeValue t h w.idx (itemWord t h w) = none) : checkItem t h w ≠ stOk := by
  have hassigned : regAssigned w.idx = true := by simp [regAssigned, hrow]
  have ht : touches w = true := by simpa [touches, hrow] using htouch
  rw [checkItem]
  simp only [hassigned, ht, Bool.not_true, Bool.false_eq_true, if_false, hval]
  split
  · decide
  · split <;> decide

theorem pairWrite_odd (hs : serves s h) (hc : c < 32) (hodd : c % 2 = 1) (hstart : startsNow s h (putFlag (DRV_CH_MODE_PAIR c) true)) :
    answers (.pairWrite h c true) s (fun t => t = s) := by
  replace hstart : startsNow s h [item (DRV_CH_MODE c) 4#32 (bitValue 4#32 true)] := hstart
  refine answers_of_answer (t := (hostItems s h [item (DRV_CH_MODE c) 4#32 (bitValue 4#32 true)]).1) rfl (by simp [hs.1, hc]) ?_
  obtain ⟨hpair, -⟩ := chModeWord_pair s c true
  have hi := (maskOk_chMode hc).2.1
  have htrip : isTripClear (item (DRV_CH_MODE c) 4#32 (bitValue 4#32 true)) = false := hi.2.2.2.2.2
  have hno : checkItem (ahead s) h (item (DRV_CH_MODE c) 4#32 (bitValue 4#32 true)) ≠ stOk := by
    refine checkItem_unstorable hi.1 hi.2.2.1 ?_
    rw [itemWord_word hi, show (item (DRV_CH_MODE c) 4#32 (bitValue 4#32 true)).idx = DRV_CH_MODE c from rfl, storeValue_chMode hc, if_pos]
    exact ⟨hodd, hpair⟩
  rw [hostItems_one_refused hs hstart htrip hno]

end Modes

end Sys2Proof.DriverWrites

namespace Sys2Proof.DriverWrites

open Sys2Proof Sys2Proof.Machine Sys2Proof.Frame Sys2Proof.HostWrites Sys2Proof.Drivers

/-! ### RESUME and RESUME_ALL (R180) -/

section Resumes

variable {s t u : State} {h c d : Nat}

/-- `t` is `s` with a channel or more commanded anew: no channel is forced that was not, and nothing but the cause of the forcing changes in SYS. -/
structure Recommanded (s t : State) : Prop where
  drv : t.drv = s.drv
  sys : t.sys = { s.sys with protCause := t.sys.protCause }
  mode : ∀ d < 32, rd t (DRV_CH_MODE d) = rd s (DRV_CH_MODE d)
  kept : ∀ d, flag s (DRV_CH_STAT_FORCED d) = false → flag t (DRV_CH_STAT_FORCED d) = false

theorem Recommanded.refl (s : State) : Recommanded s s := ⟨rfl, rfl, fun _ _ => rfl, fun _ hd => hd⟩

theorem Recommanded.trans (h1 : Recommanded s t) (h2 : Recommanded t u) : Recommanded s u :=
  ⟨h2.drv.trans h1.drv, by rw [h2.sys, h1.sys], fun d hd => (h2.mode d hd).trans (h1.mode d hd), fun d hd => h2.kept d (h1.kept d hd)⟩

theorem Recommanded.ready (h1 : Recommanded s t) : enablesOk t = enablesOk s ∧ t.sys.tripped = s.sys.tripped := by
  rw [enablesOk, enablesOk, h1.sys]
  exact ⟨rfl, rfl⟩

theorem paired_of_recommanded (h1 : Recommanded s t) (hc : c < 32) : paired t c = paired s c :=
  flag_congr (f := DRV_CH_MODE_PAIR (c / 2 * 2)) (h1.mode _ (by omega))

theorem regsBut_showForced (s : State) : regsBut s (showForced s) [DRV_STAT] := by
  unfold showForced
  split
  · exact regsBut_setB (regsBut_refl _ _) (by simp) _
  · exact regsBut_refl _ _

theorem showForced_same (s : State) : (showForced s).drv = s.drv ∧ (showForced s).sys = s.sys := by
  unfold showForced
  split <;> exact ⟨rfl, rfl⟩

theorem recommandOne_shown (hen : enablesOk s = true) (htr : s.sys.tripped = false) (c : Nat) :
    Recommanded s (recommandOne s c) ∧ flag (recommandOne s c) (DRV_CH_STAT_FORCED c) = false := by
  have heq : recommandOne s c = showForced (clearProt (setB s (DRV_CH_STAT_FORCED c) false) c) := by
    rw [recommandOne, hen, htr]
    rfl
  obtain ⟨hdrv, hsys⟩ := showForced_same (clearProt (setB s (DRV_CH_STAT_FORCED c) false) c)
  have hshow := regsBut_showForced (clearProt (setB s (DRV_CH_STAT_FORCED c) false) c)
  have hset : regsBut s (clearProt (setB s (DRV_CH_STAT_FORCED c) false) c) [DRV_CH_STAT c] := regsBut_put (regsBut_setB (regsBut_refl _ _) (by simp) _) rfl
  have hflag : ∀ d, flag (recommandOne s c) (DRV_CH_STAT_FORCED d) = flag (setB s (DRV_CH_STAT_FORCED c) false) (DRV_CH_STAT_FORCED d) := fun d => by
    rw [heq]
    exact flag_of_regsBut hshow (by simp only [List.mem_singleton, DRV_CH_STAT, DRV_STAT]; omega)
  have hself : flag (recommandOne s c) (DRV_CH_STAT_FORCED c) = false := (hflag c).trans (flag_setB _ _ _ ⟨by simp, by simp⟩)
  refine ⟨⟨heq ▸ hdrv, by rw [heq, hsys]; rfl, fun d hd => ?_, fun d hd => ?_⟩, hself⟩
  · rw [heq, hshow (DRV_CH_MODE d) (by simp only [List.mem_singleton, DRV_CH_MODE, DRV_STAT]; omega),
      hset (DRV_CH_MODE d) (by simp only [List.mem_singleton, DRV_CH_MODE, DRV_CH_STAT]; omega)]
  · by_cases hcd : d = c
    · rw [hcd]
      exact hself
    · rw [hflag, flag_setB_apart ⟨by simp, by simp, Or.inl (by simp only [DRV_CH_STAT]; omega)⟩]
      exact hd

theorem recommandLocal_shown (hen : enablesOk s = true) (htr : s.sys.tripped = false) (hc32 : c < 32) :
    Recommanded s (recommandLocal s c) ∧ flag (recommandLocal s c) (DRV_CH_STAT_FORCED c) = false ∧
    (paired s c = true → c % 2 = 0 → flag (recommandLocal s c) (DRV_CH_STAT_FORCED (c + 1)) = false) := by
  obtain ⟨hone, hc⟩ := recommandOne_shown hen htr c
  obtain ⟨htwo, hc1⟩ := recommandOne_shown (hone.ready.1.trans hen) (hone.ready.2.trans htr) (c + 1)
  have hlocal : recommandLocal s c = if paired s c && decide (c % 2 = 0) then recommandOne (recommandOne s c) (c + 1) else recommandOne s c := by
    rw [← paired_of_recommanded hone hc32]
    rfl
  rw [hlocal]
  split
  · exact ⟨hone.trans htwo, htwo.kept _ hc, fun _ _ => hc1⟩
  next hno => exact ⟨hone, hc, fun hp he => absurd (by rw [hp, decide_eq_true he]; rfl) hno⟩

theorem resumeLocal_regs (s : State) (c : Nat) : (resumeLocal s c).regs = (recommandLocal s c).regs ∧ (resumeLocal s c).drv = (recommandLocal s c).drv ∧
    (resumeLocal s c).sys = (recommandLocal s c).sys := by
  unfold resumeLocal
  extract_lets u r opens
  split <;> exact ⟨rfl, rfl, rfl⟩

theorem resumeLocal_shown (hen : enablesOk s = true) (htr : s.sys.tripped = false) (hc32 : c < 32) :
    Recommanded s (resumeLocal s c) ∧ flag (resumeLocal s c) (DRV_CH_STAT_FORCED c) = false ∧
    (paired s c = true → c % 2 = 0 → flag (resumeLocal s c) (DRV_CH_STAT_FORCED (c + 1)) = false) := by
  obtain ⟨hrec, hc, hpair⟩ := recommandLocal_shown hen htr hc32
  obtain ⟨hregs, hdrv, hsys⟩ := resumeLocal_regs s c
  have hflag : ∀ d, flag (resumeLocal s c) (DRV_CH_STAT_FORCED d) = flag (recommandLocal s c) (DRV_CH_STAT_FORCED d) := fun d =>
    flag_congr (f := DRV_CH_STAT_FORCED d) (rd_of_regs hregs _)
  exact ⟨⟨hdrv.trans hrec.drv, by rw [hsys]; exact hrec.sys, fun d hd => (rd_of_regs hregs _).trans (hrec.mode d hd), fun d hd => (hflag d).trans (hrec.kept d hd)⟩,
    (hflag c).trans hc, fun hp he => (hflag _).trans (hpair hp he)⟩

theorem leadCh_lt (s : State) (hc : c < 32) : leadCh s c < 32 := by
  rw [leadCh]
  split <;> omega

theorem leadCh_pair (s : State) (c : Nat) : paired s (leadCh s c) = true → leadCh s c % 2 = 0 := by
  rw [leadCh]
  split
  next => exact fun _ => by omega
  next hno => exact fun hp => absurd hp hno

theorem drvModeEffect_of_resume (u : State) (c : Nat) {old v : Word} (hmode : bitsDiffer old v 1 0 = false) (hpair : bitsDiffer old v 2 2 = false)
    (hres : v.getLsbD 8 = true) : drvModeEffect u c old v = resumeLocal u (leadCh u c) := by
  simp only [drvModeEffect, hmode, hpair, hres, Bool.false_eq_true, if_false, if_true]

theorem putFlag_resume (c : Nat) : putFlag (DRV_CH_MODE_RESUME c) true = [item (DRV_CH_MODE c) 0x100#32 0x100#32] := by
  have hmask : bitMask 8 8 = 0x100#32 := by decide
  have hval : BitVec.ofNat 32 (bit true 0 % 2 ^ 1 * 2 ^ 8) = 0x100#32 := by decide
  simp only [putFlag, fieldItem, Field.width, hmask, Nat.sub_self, Nat.zero_add, hval]

theorem resume_shown (hs : serves s h) (hc : c < 32) (hholds : holds s h kCh (leadCh s c) = true) (hodd : c % 2 = 1 → flag s (DRV_CH_MODE_PAIR c) = false)
    (hen : enablesOk s = true) (htr : s.sys.tripped = false) (hstart : startsNow s h (putFlag (DRV_CH_MODE_RESUME c) true)) :
    answers (.resume h c) s (fun t => flag t (DRV_CH_STAT_FORCED (leadCh s c)) = false ∧
        (paired s (leadCh s c) = true → flag t (DRV_CH_STAT_FORCED (leadCh s c + 1)) = false) ∧ t.drv = s.drv ∧
        t.sys = { s.sys with atBoundary := false, protCause := t.sys.protCause }) := by
  rw [putFlag_resume] at hstart
  refine answers_of_answer (ok := decide (h < 4) && decide (c < 32)) (t := (hostItems s h [item (DRV_CH_MODE c) 0x100#32 0x100#32]).1) ?_ (by simp [hs.1, hc]) ?_
  · have hexec : exec (.resume h c) s = answer (decide (h < 4) && decide (c < 32)) (hostItems s h (putFlag (DRV_CH_MODE_RESUME c) true)).1 := rfl
    rw [hexec, putFlag_resume]
  obtain ⟨hres, hmode, hpair⟩ := chModeWord_resume s c
  have hi := (maskOk_chMode hc).2.2
  have hrule : drvRule s (DRV_CH_MODE c) (rd s (DRV_CH_MODE c)) (chModeWord s c 0x100#32 0x100#32) = true := by
    rw [drvRule_chMode hc, bitsDiffer_same hmode, bitsDiffer_same hpair]
    rfl
  rw [hostItems_chMode hi hs hc hholds (fun ho => hpair.trans (bit_of_flag (f := DRV_CH_MODE_PAIR c) rfl (hodd ho))) hrule hstart]
  generalize chModeWord s c 0x100#32 0x100#32 = w at hres hmode hpair
  have hpaired : ∀ d, paired (wr (ahead s) (DRV_CH_MODE c) w) d = paired s d := fun d => by
    by_cases hd : d / 2 * 2 = c
    · rw [paired, paired, flag, flag, getF, getF, hd, rd_wr_self]
      exact congrArg (fun n => decide (n ≠ 0)) hpair
    · exact flag_congr (f := DRV_CH_MODE_PAIR (d / 2 * 2)) (rd_wr_ne _ _ _ _ (by simp only [DRV_CH_MODE]; omega))
  have hlead : leadCh (wr (ahead s) (DRV_CH_MODE c) w) c = leadCh s c := by rw [leadCh, leadCh, hpaired]
  have heff : drvModeEffect (wr (ahead s) (DRV_CH_MODE c) w) c (rd s (DRV_CH_MODE c)) w = resumeLocal (wr (ahead s) (DRV_CH_MODE c) w) (leadCh s c) := by
    rw [drvModeEffect_of_resume _ _ (bitsDiffer_same hmode) (bitsDiffer_same hpair) hres, hlead]
  obtain ⟨hrec, hforced, hboth⟩ := resumeLocal_shown (s := wr (ahead s) (DRV_CH_MODE c) w) hen htr (leadCh_lt s hc)
  have hflag : ∀ d, flag (settled s h (scrub (resumeLocal (wr (ahead s) (DRV_CH_MODE c) w) (leadCh s c)) (DRV_CH_MODE c))) (DRV_CH_STAT_FORCED d) =
      flag (resumeLocal (wr (ahead s) (DRV_CH_MODE c) w) (leadCh s c)) (DRV_CH_STAT_FORCED d) := fun d =>
    (flag_settled _).trans (flag_congr (f := DRV_CH_STAT_FORCED d) (rd_scrub_ne _ (by simp only [DRV_CH_STAT, DRV_CH_MODE]; omega)))
  have hscrubDrv : (scrub (resumeLocal (wr (ahead s) (DRV_CH_MODE c) w) (leadCh s c)) (DRV_CH_MODE c)).drv = _ := scrub_same _ _ (p := .drv) (by decide)
  have hscrubSys : (scrub (resumeLocal (wr (ahead s) (DRV_CH_MODE c) w) (leadCh s c)) (DRV_CH_MODE c)).sys = _ := scrub_same _ _ (p := .sys) (by decide)
  rw [heff]
  refine ⟨(hflag _).trans hforced, fun hp => (hflag _).trans (hboth ((hpaired _).trans hp) (leadCh_pair s c hp)), hscrubDrv.trans hrec.drv, ?_⟩
  have hend : (settled s h (scrub (resumeLocal (wr (ahead s) (DRV_CH_MODE c) w) (leadCh s c)) (DRV_CH_MODE c))).sys =
      { (resumeLocal (wr (ahead s) (DRV_CH_MODE c) w) (leadCh s c)).sys with atBoundary := false } := congrArg (fun y : SysState => { y with atBoundary := false }) hscrubSys
  rw [hend, hrec.sys]
  rfl

/-- One channel of RESUME_ALL. -/
def resumeOne (s : State) (c : Nat) : State := if c = leadCh s c then resumeLocal s c else recommandOne s c

theorem resumeOne_shown (hen : enablesOk s = true) (htr : s.sys.tripped = false) (hc32 : c < 32) :
    Recommanded s (resumeOne s c) ∧ flag (resumeOne s c) (DRV_CH_STAT_FORCED c) = false := by
  unfold resumeOne
  split
  · exact ⟨(resumeLocal_shown hen htr hc32).1, (resumeLocal_shown hen htr hc32).2.1⟩
  · exact recommandOne_shown hen htr c

theorem resumeEach_shown (l : List Nat) (hl : ∀ c ∈ l, c < 32) {s : State} (hen : enablesOk s = true) (htr : s.sys.tripped = false) :
    Recommanded s (l.foldl resumeOne s) ∧ ∀ c ∈ l, flag (l.foldl resumeOne s) (DRV_CH_STAT_FORCED c) = false := by
  induction l generalizing s with
  | nil => exact ⟨.refl s, fun c hc => absurd hc (List.not_mem_nil)⟩
  | cons d l ih =>
    obtain ⟨hone, hd⟩ := resumeOne_shown hen htr (hl d List.mem_cons_self)
    obtain ⟨hrest, hall⟩ := ih (fun c hc => hl c (List.mem_cons_of_mem _ hc)) (hone.ready.1.trans hen) (hone.ready.2.trans htr)
    refine ⟨hone.trans hrest, fun c hc => ?_⟩
    rcases List.mem_cons.1 hc with rfl | hc
    · exact hrest.kept _ hd
    · exact hall c hc

theorem resumeAll_shown (hs : serves s h) (hen : enablesOk s = true) (htr : s.sys.tripped = false) (hstart : startsNow s h (putFlag DRV_CTRL_RESUME_ALL true)) :
    answers (.resumeAll h) s (fun t => (∀ c < 32, holds s h kCh c = true → flag t (DRV_CH_STAT_FORCED c) = false) ∧ t.drv = s.drv) := by
  replace hstart : startsNow s h [item DRV_CTRL 2#32 2#32] := hstart
  refine answers_of_answer (ok := decide (h < 4) && true) (t := (hostItems s h [item DRV_CTRL 2#32 2#32]).1) rfl (by simp [hs.1]) ?_
  have hbit : (takenWord drvCtrlRow (rd s DRV_CTRL) 2#32 2#32).getLsbD 1 = true := (getLsbD_takenWord (by decide) (by decide)).trans (by rw [if_pos (by decide)]; decide)
  have hsame : bitsOf (takenWord drvCtrlRow (rd s DRV_CTRL) 2#32 2#32) 0 0 = bitsOf (rd s DRV_CTRL) 0 0 := bitsOf_takenWord_out (by decide) (by decide)
  rw [hostItems_drvCtrl hs maskOk_drvCtrl.2 (by simp) (by rw [bitsDiffer_same hsame]; rfl) hstart, hbit, if_pos rfl]
  generalize takenWord drvCtrlRow (rd s DRV_CTRL) 2#32 2#32 = w at hbit hsame
  have hchans : ∀ c ∈ drvChans, c < 32 := by decide
  have hall : resumeAll (wr (ahead s) DRV_CTRL w) h = (drvChans.filter fun c => holds (wr (ahead s) DRV_CTRL w) h kCh c).foldl resumeOne (wr (ahead s) DRV_CTRL w) := rfl
  obtain ⟨hrec, hforced⟩ := resumeEach_shown (drvChans.filter fun c => holds (wr (ahead s) DRV_CTRL w) h kCh c)
    (fun c hc => hchans c (List.mem_filter.1 hc).1) (s := wr (ahead s) DRV_CTRL w) hen htr
  rw [← hall] at hrec hforced
  have hholds : ∀ c < 32, holds (wr (ahead s) DRV_CTRL w) h kCh c = holds s h kCh c := fun c hc => by
    have hrd : rd (wr (ahead s) DRV_CTRL w) (SCH_CH_STATE c) = rd s (SCH_CH_STATE c) := rd_wr_ne _ _ _ _ (by simp only [SCH_CH_STATE, DRV_CTRL]; omega)
    have hof : holderOf (wr (ahead s) DRV_CTRL w) kCh c = holderOf s kCh c := by
      simp only [holderOf, kCh, stateWord, hrd]
      rfl
    rw [holds, holds, hof]
  refine ⟨fun c hc hh => ?_, ?_⟩
  · refine (flag_settled _).trans ((flag_congr (f := DRV_CH_STAT_FORCED c) (rd_scrub_ne _ (by simp only [DRV_CH_STAT, DRV_CTRL]; omega))).trans (hforced c ?_))
    exact List.mem_filter.2 ⟨List.mem_range.2 hc, (hholds c hc).trans hh⟩
  · exact (scrub_same (resumeAll (wr (ahead s) DRV_CTRL w) h) DRV_CTRL (p := .drv) (by decide)).trans hrec.drv

end Resumes

end Sys2Proof.DriverWrites

namespace Sys2Proof.HostWrites

open Sys2Proof Sys2Proof.Machine Sys2Proof.Frame

/-! ### Registers of flags that a host clears, where the effect of the write does the clearing (R7) -/

section Flags

variable {r : RegRow} {s : State} {h i : Nat} {w : Word}

/-- Register `i` holds flags alone, which the effect of a write clears. -/
abbrev FlagsOk (i : Nat) (r : RegRow) : Prop := regRow i = some r ∧ (r.rw = 0 ∧ r.w1s = 0 ∧ r.wo = 0) ∧ seenAsStored i = true ∧ isSelector i = false ∧
  ringWin i = none ∧ (i ≠ ACT_CH_ALM ∧ i ≠ GNS_SLOT_CFG) ∧ gnsWaits i = false ∧ clearsItself i = true ∧ isTripClear (item i 0 0) = false

/-- What a write with the value as its mask asks to clear. -/
def asked (r : RegRow) (old w : Word) : Word := presented r old w w

theorem getLsbD_asked (hr : r.rw = 0 ∧ r.w1s = 0 ∧ r.wo = 0) {j : Nat} (hj : r.w1c.getLsbD j = true) (old : Word) : (asked r old w).getLsbD j = w.getLsbD j := by
  obtain ⟨hrw, hw1s, hwo⟩ := hr
  simp only [asked, presented, hrw, hw1s, hwo, BitVec.getLsbD_or, BitVec.getLsbD_and, BitVec.getLsbD_not, hj]
  have hlt : j < 32 := BitVec.lt_of_getLsbD hj
  cases w.getLsbD j <;> simp [hlt]

theorem hostItems_asked (hi : FlagsOk i r) (hs : serves s h) (hstart : startsNow s h [item i w w]) (hmay : ∀ v, mayWrite (ahead s) h i w v = true)
    (hval : ∀ v, storeValue (ahead s) h i v = some v)
    (hrule : ∀ v, stateRule (ahead s) h i w (rd s i) v = .ok) :
    hostItems s h [item i w w] = (settled s h (if w &&& r.w1c = 0 then ahead s else writeEffect (ahead s) (ahead s) (ahead s) h i (rd s i) (asked r (rd s i) w)), true) := by
  obtain ⟨hrow, hzero, hseen, hsel, hring, halm, hgns, hself, htrip⟩ := hi
  replace htrip : isTripClear (item i w w) = false := htrip
  have hwritable : writable r = r.w1c := by
    obtain ⟨hrw, hw1s, hwo⟩ := hzero
    simp [writable, hrw, hw1s, hwo]
  by_cases hz : w &&& r.w1c = 0
  · have ht : touches (item i w w) = false := by
      have hm : (item i w w).mask &&& writable r = 0 := by rw [hwritable]; exact hz
      simp only [touches, show regRow (item i w w).idx = some r from hrow, hm]
      rfl
    have hassigned : regAssigned (item i w w).idx = true := by simp [regAssigned, show regRow (item i w w).idx = some r from hrow]
    have hc : checkItem (ahead s) h (item i w w) = stOk := by
      simp only [checkItem, hassigned, ht]
      rfl
    rw [hostItems_one hs hstart htrip hc, if_pos hz, takeItem, ht]
    rfl
  · have htouch : (item i w w).mask &&& writable r ≠ 0 := by rw [hwritable]; exact hz
    have hword : itemWord (ahead s) h (item i w w) = asked r (rd s i) w := itemWord_seen _ h hrow hseen
    have hv : storeValue (ahead s) h i (itemWord (ahead s) h (item i w w)) = some (asked r (rd s i) w) := by
      rw [hword]
      exact hval _
    have hview : viewOf (ahead s) h i = rd s i := viewOf_seen _ h hseen
    have hc : checkItem (ahead s) h (item i w w) = stOk := by
      refine checkItem_ok hrow htouch rfl (hmay _) hv ?_
      show stateRule (ahead s) h i w (viewOf (ahead s) h i) _ = .ok
      rw [hview]
      exact hrule _
    rw [hostItems_one hs hstart htrip hc, if_neg hz, takeItem_eq hrow htouch hv]
    rw [show (item i w w).idx = i from rfl, scrub_noWo _ hrow hzero.2.2, storeItem_clearsItself _ h _ hsel hring halm.1 halm.2 hgns hself, hview]

end Flags

end Sys2Proof.HostWrites

namespace Sys2Proof.DriverWrites

open Sys2Proof Sys2Proof.Machine Sys2Proof.Frame Sys2Proof.HostWrites Sys2Proof.Drivers

/-! ### The flags of the protections (R188) -/

section Protections

variable {s t : State} {h c g k : Nat} {w : Word}

theorem ofNat_sub_and (x v : Word) : BitVec.ofNat 32 (x.toNat - (x.toNat &&& v.toNat)) = x &&& ~~~v := by
  have hsum : x = (x &&& ~~~v) + (x &&& v) := by
    rw [BitVec.add_eq_or_of_and_eq_zero]
    · ext j hj
      simp only [BitVec.getElem_or, BitVec.getElem_and, BitVec.getElem_not]
      cases x[j] <;> cases v[j] <;> rfl
    · ext j hj
      simp only [BitVec.getElem_and, BitVec.getElem_not, BitVec.getElem_zero]
      cases x[j] <;> cases v[j] <;> rfl
  have hle : x.toNat &&& v.toNat ≤ x.toNat := Nat.and_le_left
  have hsub : x - (x &&& v) = x &&& ~~~v := by
    conv_lhs => lhs; rw [hsum]
    exact BitVec.add_sub_cancel _ _
  rw [← hsub]
  refine BitVec.eq_of_toNat_eq ?_
  rw [BitVec.toNat_sub_of_le (by rw [BitVec.le_def, BitVec.toNat_and]; exact hle), BitVec.toNat_ofNat, BitVec.toNat_and]
  exact Nat.mod_eq_of_lt (by omega)

/-- One flag of the channel after the clearing: set again while its condition persists, else the channel is not held by it any longer. -/
def chFlagStep (c w : Nat) (s : State) (k : Nat) : State :=
  if w.testBit k then if condOf s.drv.chCond c k then setChFlag s c k else holdCh s c k false else s

def grpFlagStep (g w : Nat) (s : State) (k : Nat) : State :=
  if w.testBit k then if condOf s.drv.grpCond g k then setGrpFlag s g k else holdGrp s g k false else s

theorem getLsbD_setChFlag (s : State) (c : Nat) {k j : Nat} (hj : j < 32) :
    (rd (setChFlag s c k) (DRV_CH_FLT c)).getLsbD j = ((rd s (DRV_CH_FLT c)).getLsbD j || decide (j = k)) := by
  rw [setChFlag]
  split
  next hk =>
    by_cases hjk : j = k
    · subst hjk
      rw [← BitVec.testBit_toNat, hk]
      rfl
    · simp [hjk]
  · rw [rd_record _ _ _ _ (by simp only [DRV_CH_FLT]; omega), rd_wr_self, getLsbD_bitsSet _ _ _ _ _ (Nat.le_refl _)]
    by_cases hjk : j = k
    · subst hjk
      simp [hj]
    · rw [if_neg (by omega)]
      simp [hjk]

theorem getLsbD_setGrpFlag (s : State) (g : Nat) {k j : Nat} (hj : j < 32) :
    (rd (setGrpFlag s g k) (DRV_GRP_FLT g)).getLsbD j = ((rd s (DRV_GRP_FLT g)).getLsbD j || decide (j = k)) := by
  rw [setGrpFlag]
  split
  next hk =>
    by_cases hjk : j = k
    · subst hjk
      rw [← BitVec.testBit_toNat, hk]
      rfl
    · simp [hjk]
  · rw [rd_record _ _ _ _ (by simp only [DRV_GRP_FLT]; omega), rd_wr_self, getLsbD_bitsSet _ _ _ _ _ (Nat.le_refl _)]
    by_cases hjk : j = k
    · subst hjk
      simp [hj]
    · rw [if_neg (by omega)]
      simp [hjk]

theorem setChFlag_drv (s : State) (c k : Nat) : (setChFlag s c k).drv = s.drv :=
  (setChFlag_keeps (R := (· ∈ [Part.regs, .recd])) s c k (allows_of_subset (by decide)) (Keeps.refl ..)).same .drv (by decide)

theorem setGrpFlag_drv (s : State) (g k : Nat) : (setGrpFlag s g k).drv = s.drv :=
  (setGrpFlag_keeps (R := (· ∈ [Part.regs, .recd])) s g k (allows_of_subset (by decide)) (Keeps.refl ..)).same .drv (by decide)

/-- What one step does to the flags, to the conditions and to what holds the channel off. -/
theorem chFlagStep_shown (s : State) (c n k : Nat) : (chFlagStep c n s k).drv.chCond = s.drv.chCond ∧
    (∀ j < 32, (rd (chFlagStep c n s k) (DRV_CH_FLT c)).getLsbD j = ((rd s (DRV_CH_FLT c)).getLsbD j || (decide (j = k) && n.testBit k && condOf s.drv.chCond c k))) ∧
    (∀ j, (chHold (chFlagStep c n s k) c).testBit j = (!(decide (j = k) && n.testBit k && !condOf s.drv.chCond c k) && (chHold s c).testBit j)) := by
  unfold chFlagStep
  by_cases hw : n.testBit k = true
  · by_cases hcond : condOf s.drv.chCond c k = true
    · rw [if_pos hw, if_pos hcond, hw, hcond]
      refine ⟨by rw [setChFlag_drv], fun j hj => ?_, fun j => ?_⟩
      · rw [getLsbD_setChFlag _ _ hj]
        simp
      · rw [chHold, setChFlag_drv, chHold]
        simp
    · rw [if_pos hw, if_neg hcond, hw, Bool.eq_false_iff.2 hcond]
      refine ⟨rfl, fun j _ => ?_, fun j => ?_⟩
      · rw [rd_of_regs (t := holdCh s c k false) (s := s) rfl]
        simp
      · rw [chHold, holdCh, testBit_bitPut_false, chHold]
        simp
  · rw [if_neg hw, Bool.eq_false_iff.2 hw]
    exact ⟨rfl, fun j _ => by simp, fun j => by simp⟩

theorem grpFlagStep_shown (s : State) (g n k : Nat) : (grpFlagStep g n s k).drv.grpCond = s.drv.grpCond ∧
    (∀ j < 32, (rd (grpFlagStep g n s k) (DRV_GRP_FLT g)).getLsbD j = ((rd s (DRV_GRP_FLT g)).getLsbD j || (decide (j = k) && n.testBit k && condOf s.drv.grpCond g k))) ∧
    (∀ j, (grpHold (grpFlagStep g n s k) g).testBit j = (!(decide (j = k) && n.testBit k && !condOf s.drv.grpCond g k) && (grpHold s g).testBit j)) := by
  unfold grpFlagStep
  by_cases hw : n.testBit k = true
  · by_cases hcond : condOf s.drv.grpCond g k = true
    · rw [if_pos hw, if_pos hcond, hw, hcond]
      refine ⟨by rw [setGrpFlag_drv], fun j hj => ?_, fun j => ?_⟩
      · rw [getLsbD_setGrpFlag _ _ hj]
        simp
      · rw [grpHold, setGrpFlag_drv, grpHold]
        simp
    · rw [if_pos hw, if_neg hcond, hw, Bool.eq_false_iff.2 hcond]
      refine ⟨by rw [holdGrp, showGroups_drv], fun j _ => ?_, fun j => ?_⟩
      · rw [holdGrp, regsBut_showGroups _ _ (flt_not_groupStatus g).1]
        rw [rd_of_regs (t := { s with drv := { s.drv with grpHold := bitPut s.drv.grpHold g k false } }) (s := s) rfl]
        simp
      · rw [grpHold_holdGrp, testBit_bitPut_false, grpHold]
        simp
  · rw [if_neg hw, Bool.eq_false_iff.2 hw]
    exact ⟨rfl, fun j _ => by simp, fun j => by simp⟩

/-- The flags of a channel after a clear of those asked for. -/
theorem clearChFlags_shown (s : State) (c : Nat) (v : Word) :
    (∀ j < 32, (rd (clearChFlags s c v.toNat) (DRV_CH_FLT c)).getLsbD j =
      ((rd s (DRV_CH_FLT c)).getLsbD j && (!v.getLsbD j || (decide (j < 3) && condOf s.drv.chCond c j)))) ∧
    (∀ j < 3, v.getLsbD j = true → (rd s (DRV_CH_FLT c)).getLsbD j = true → condOf s.drv.chCond c j = false →
      (chHold (clearChFlags s c v.toNat) c).testBit j = false) := by
  have heq : clearChFlags s c v.toNat = [0, 1, 2].foldl (chFlagStep c ((rd s (DRV_CH_FLT c)).toNat &&& v.toNat)) (wr s (DRV_CH_FLT c) (rd s (DRV_CH_FLT c) &&& ~~~v)) := by
    rw [← ofNat_sub_and]
    rfl
  have hbit : ∀ j, ((rd s (DRV_CH_FLT c)).toNat &&& v.toNat).testBit j = ((rd s (DRV_CH_FLT c)).getLsbD j && v.getLsbD j) := fun j => by
    rw [Nat.testBit_and, BitVec.testBit_toNat, BitVec.testBit_toNat]
  rw [heq]
  generalize (rd s (DRV_CH_FLT c)).toNat &&& v.toNat = n at hbit
  have hfirst : ∀ j < 32, (rd (wr s (DRV_CH_FLT c) (rd s (DRV_CH_FLT c) &&& ~~~v)) (DRV_CH_FLT c)).getLsbD j = ((rd s (DRV_CH_FLT c)).getLsbD j && !v.getLsbD j) :=
    fun j hj => by
      rw [rd_wr_self, BitVec.getLsbD_and, BitVec.getLsbD_not]
      simp [hj]
  have hcond : (wr s (DRV_CH_FLT c) (rd s (DRV_CH_FLT c) &&& ~~~v)).drv.chCond = s.drv.chCond := rfl
  generalize wr s (DRV_CH_FLT c) (rd s (DRV_CH_FLT c) &&& ~~~v) = u at hfirst hcond
  obtain ⟨hc0, hf0, hh0⟩ := chFlagStep_shown u c n 0
  obtain ⟨hc1, hf1, hh1⟩ := chFlagStep_shown (chFlagStep c n u 0) c n 1
  obtain ⟨hc2, hf2, hh2⟩ := chFlagStep_shown (chFlagStep c n (chFlagStep c n u 0) 1) c n 2
  refine ⟨fun j hj => ?_, fun j hj hv hf hoff => ?_⟩
  · rw [List.foldl_cons, List.foldl_cons, List.foldl_cons, List.foldl_nil, hf2 j hj, hf1 j hj, hf0 j hj, hfirst j hj, hc1, hc0, hcond, hbit, hbit, hbit]
    rcases (by omega : j = 0 ∨ j = 1 ∨ j = 2 ∨ 3 ≤ j) with rfl | rfl | rfl | h3
    · cases v.getLsbD 0 <;> simp
    · cases v.getLsbD 1 <;> simp
    · cases v.getLsbD 2 <;> simp
    · simp (disch := omega) [show ¬j < 3 by omega, show j ≠ 0 by omega, show j ≠ 1 by omega, show j ≠ 2 by omega]
  · rw [List.foldl_cons, List.foldl_cons, List.foldl_cons, List.foldl_nil, hh2 j, hh1 j, hh0 j, hc1, hc0, hcond, hbit, hbit, hbit]
    rcases (by omega : j = 0 ∨ j = 1 ∨ j = 2) with rfl | rfl | rfl <;> simp [hv, hf, hoff]

theorem clearGrpFlags_shown (s : State) (g : Nat) (v : Word) :
    (∀ j < 32, (rd (clearGrpFlags s g v.toNat) (DRV_GRP_FLT g)).getLsbD j =
      ((rd s (DRV_GRP_FLT g)).getLsbD j && (!v.getLsbD j || (decide (j = 2 ∨ j = 4) && condOf s.drv.grpCond g j)))) ∧
    (∀ j, j = 2 ∨ j = 4 → v.getLsbD j = true → (rd s (DRV_GRP_FLT g)).getLsbD j = true → condOf s.drv.grpCond g j = false →
      (grpHold (clearGrpFlags s g v.toNat) g).testBit j = false) := by
  have heq : clearGrpFlags s g v.toNat = [2, 4].foldl (grpFlagStep g ((rd s (DRV_GRP_FLT g)).toNat &&& v.toNat)) (wr s (DRV_GRP_FLT g) (rd s (DRV_GRP_FLT g) &&& ~~~v)) := by
    rw [← ofNat_sub_and]
    rfl
  have hbit : ∀ j, ((rd s (DRV_GRP_FLT g)).toNat &&& v.toNat).testBit j = ((rd s (DRV_GRP_FLT g)).getLsbD j && v.getLsbD j) := fun j => by
    rw [Nat.testBit_and, BitVec.testBit_toNat, BitVec.testBit_toNat]
  rw [heq]
  generalize (rd s (DRV_GRP_FLT g)).toNat &&& v.toNat = n at hbit
  have hfirst : ∀ j < 32, (rd (wr s (DRV_GRP_FLT g) (rd s (DRV_GRP_FLT g) &&& ~~~v)) (DRV_GRP_FLT g)).getLsbD j = ((rd s (DRV_GRP_FLT g)).getLsbD j && !v.getLsbD j) :=
    fun j hj => by
      rw [rd_wr_self, BitVec.getLsbD_and, BitVec.getLsbD_not]
      simp [hj]
  have hcond : (wr s (DRV_GRP_FLT g) (rd s (DRV_GRP_FLT g) &&& ~~~v)).drv.grpCond = s.drv.grpCond := rfl
  generalize wr s (DRV_GRP_FLT g) (rd s (DRV_GRP_FLT g) &&& ~~~v) = u at hfirst hcond
  obtain ⟨hc0, hf0, hh0⟩ := grpFlagStep_shown u g n 2
  obtain ⟨hc1, hf1, hh1⟩ := grpFlagStep_shown (grpFlagStep g n u 2) g n 4
  refine ⟨fun j hj => ?_, fun j hj hv hf hoff => ?_⟩
  · rw [List.foldl_cons, List.foldl_cons, List.foldl_nil, hf1 j hj, hf0 j hj, hfirst j hj, hc0, hcond, hbit, hbit]
    by_cases h2 : j = 2
    · subst h2
      cases v.getLsbD 2 <;> simp
    · by_cases h4 : j = 4
      · subst h4
        cases v.getLsbD 4 <;> simp
      · simp [h2, h4]
  · rw [List.foldl_cons, List.foldl_cons, List.foldl_nil, hh1 j, hh0 j, hc0, hcond, hbit, hbit]
    rcases hj with rfl | rfl <;> simp [hv, hf, hoff]

def chFltRow : RegRow := ⟨0x1201, 32, 4, 1, 1, 0x00000000#32, 0x00000000#32, 0x000000FF#32, 0x00000000#32, 0x00000000#32, 0x00000000#32⟩

def grpFltRow : RegRow := ⟨0x1023, 8, 8, 1, 1, 0x00000000#32, 0x00000000#32, 0x0000001F#32, 0x00000000#32, 0x00000000#32, 0x00000000#32⟩

theorem flagsOk_chFlt (hc : c < 32) : FlagsOk (DRV_CH_FLT c) chFltRow := by
  revert c
  decide

theorem flagsOk_grpFlt (hg : g < 8) : FlagsOk (DRV_GRP_FLT g) grpFltRow := by
  revert g
  decide

theorem channelFlags_cleared (hs : serves s h) (hc : c < 32) (hholds : holds s h kCh (leadCh s c) = true) (hstart : startsNow s h [item (DRV_CH_FLT c) w w]) :
    answers (.protectionFlagClear h false c w) s (fun t => ∀ k < 8,
        (rd t (DRV_CH_FLT c)).getLsbD k = ((rd s (DRV_CH_FLT c)).getLsbD k && (!w.getLsbD k || (decide (k < 3) && condOf s.drv.chCond c k))) ∧
        (k < 3 → w.getLsbD k = true → (rd s (DRV_CH_FLT c)).getLsbD k = true → condOf s.drv.chCond c k = false → (chHold t c).testBit k = false)) := by
  refine answers_of_answer (t := (hostItems s h [item (DRV_CH_FLT c) w w]).1) rfl (by simp [hs.1, hc]) ?_
  have hidx : 0x1000 ≤ DRV_CH_FLT c ∧ DRV_CH_FLT c < 0x1300 ∧ 0x1200 ≤ DRV_CH_FLT c ∧ DRV_CH_FLT c ≤ 0x127F ∧ (DRV_CH_FLT c - 0x1200) / 4 = c ∧ DRV_CH_FLT c % 4 = 1 := by
    simp only [DRV_CH_FLT]
    omega
  obtain ⟨h1, h2, h3, h4, hdiv, hmod⟩ := hidx
  have hin : inRange 0x1200 0x127F (DRV_CH_FLT c) = true := by simp [inRange, h3, h4]
  have hout : inRange 0x1100 0x11FF (DRV_CH_FLT c) = false := by simp [inRange]; omega
  have hgrp : inRange 0x1020 0x105F (DRV_CH_FLT c) = false := by simp [inRange]; omega
  have hctl : DRV_CH_FLT c ≠ DRV_CTRL := by simp only [DRV_CTRL]; omega
  rw [hostItems_asked (flagsOk_chFlt hc) hs hstart
    (fun v => by
      rw [mayWrite_drv h1 h2, mayWriteDrv, hout, hin, hdiv]
      exact hholds)
    (fun v => by
      rw [storeValue_drv h1 h2, drvStore]
      simp only [if_neg (show ¬DRV_CH_FLT c = DRV_KET_CFG by simp only [DRV_KET_CFG]; omega), if_neg (show ¬DRV_CH_FLT c = DRV_KET_MODEL by simp only [DRV_KET_MODEL]; omega),
        if_neg (show ¬(0x1020 ≤ DRV_CH_FLT c ∧ DRV_CH_FLT c < 0x1060) by omega), if_neg (show ¬(0x1100 ≤ DRV_CH_FLT c ∧ DRV_CH_FLT c < 0x1200) by omega)])
    (fun v => by
      rw [stateRule_drv h1 h2, drvRule, if_neg hctl, hgrp, hout]
      rfl)]
  have hw1c : ∀ k < 8, chFltRow.w1c.getLsbD k = true := by decide
  by_cases hz : w &&& chFltRow.w1c = 0
  · rw [if_pos hz]
    intro k hk
    have hwk : w.getLsbD k = false := by
      have := congrArg (·.getLsbD k) hz
      simpa [hw1c k hk] using this
    rw [hwk, rd_settled, rd_ahead]
    exact ⟨by simp, fun _ hf => by simp at hf⟩
  · rw [if_neg hz, writeEffect_drv h1 h2, drvEffect, if_neg hctl, hgrp, hout, hin, hmod, hdiv]
    obtain ⟨hflags, hholds⟩ := clearChFlags_shown (ahead s) c (asked chFltRow (rd s (DRV_CH_FLT c)) w)
    intro k hk
    have hask := getLsbD_asked (w := w) (flagsOk_chFlt hc).2.1 (hw1c k hk) (rd s (DRV_CH_FLT c))
    exact ⟨(congrArg (·.getLsbD k) (rd_settled _)).trans ((hflags k (by omega)).trans (by rw [hask]; rfl)), fun h3 hw hf hcond => hholds k h3 (hask.trans hw) hf hcond⟩

theorem groupFlags_cleared (hs : serves s h) (hg : g < 8) (how : ownerOrService s h = true) (hstart : startsNow s h [item (DRV_GRP_FLT g) w w]) :
    answers (.protectionFlagClear h true g w) s (fun t => ∀ k < 5,
        (rd t (DRV_GRP_FLT g)).getLsbD k = ((rd s (DRV_GRP_FLT g)).getLsbD k && (!w.getLsbD k || (decide (k = 2 ∨ k = 4) && condOf s.drv.grpCond g k))) ∧
        ((k = 2 ∨ k = 4) → w.getLsbD k = true → (rd s (DRV_GRP_FLT g)).getLsbD k = true → condOf s.drv.grpCond g k = false → (grpHold t g).testBit k = false)) := by
  refine answers_of_answer (t := (hostItems s h [item (DRV_GRP_FLT g) w w]).1) rfl (by simp [hs.1, hg]) ?_
  have hidx : 0x1000 ≤ DRV_GRP_FLT g ∧ DRV_GRP_FLT g < 0x1300 ∧ 0x1020 ≤ DRV_GRP_FLT g ∧ DRV_GRP_FLT g ≤ 0x105F ∧ (DRV_GRP_FLT g - 0x1020) / 8 = g ∧ DRV_GRP_FLT g % 8 = 3 := by
    simp only [DRV_GRP_FLT]
    omega
  obtain ⟨h1, h2, h3, h4, hdiv, hmod⟩ := hidx
  have hin : inRange 0x1020 0x105F (DRV_GRP_FLT g) = true := by simp [inRange, h3, h4]
  have hout : inRange 0x1100 0x11FF (DRV_GRP_FLT g) = false := by simp [inRange]; omega
  have hchan : inRange 0x1200 0x127F (DRV_GRP_FLT g) = false := by simp [inRange]; omega
  have hctl : DRV_GRP_FLT g ≠ DRV_CTRL := by simp only [DRV_CTRL]; omega
  rw [hostItems_asked (flagsOk_grpFlt hg) hs hstart
    (fun v => by
      rw [mayWrite_drv h1 h2, mayWriteDrv, hout, hchan, if_neg (by decide), if_neg (by decide), if_neg hctl]
      exact how)
    (fun v => by
      rw [storeValue_drv h1 h2, drvStore]
      simp only [if_neg (show ¬DRV_GRP_FLT g = DRV_KET_CFG by simp only [DRV_KET_CFG]; omega), if_neg (show ¬DRV_GRP_FLT g = DRV_KET_MODEL by simp only [DRV_KET_MODEL]; omega),
        if_pos (show 0x1020 ≤ DRV_GRP_FLT g ∧ DRV_GRP_FLT g < 0x1060 by omega), hmod]
      rfl)
    (fun v => by
      rw [stateRule_drv h1 h2, drvRule, if_neg hctl, hin, hout, hmod]
      rfl)]
  have hw1c : ∀ k < 5, grpFltRow.w1c.getLsbD k = true := by decide
  by_cases hz : w &&& grpFltRow.w1c = 0
  · rw [if_pos hz]
    intro k hk
    have hwk : w.getLsbD k = false := by
      have := congrArg (·.getLsbD k) hz
      simpa [hw1c k hk] using this
    rw [hwk, rd_settled, rd_ahead]
    exact ⟨by simp, fun _ hf => by simp at hf⟩
  · rw [if_neg hz, writeEffect_drv h1 h2, drvEffect, if_neg hctl, hin, hmod, hdiv]
    obtain ⟨hflags, hholds⟩ := clearGrpFlags_shown (ahead s) g (asked grpFltRow (rd s (DRV_GRP_FLT g)) w)
    intro k hk
    have hask := getLsbD_asked (w := w) (flagsOk_grpFlt hg).2.1 (hw1c k hk) (rd s (DRV_GRP_FLT g))
    exact ⟨(congrArg (·.getLsbD k) (rd_settled _)).trans ((hflags k (by omega)).trans (by rw [hask]; rfl)), fun h24 hw hf hcond => hholds k h24 (hask.trans hw) hf hcond⟩

end Protections

/-- Settles O17: the release of a protection, the host writes and the clears of flags, each with what it leaves as it is. -/
theorem driverHostWritesAndRelease : Obligations.DriverHostWritesAndRelease := by
  unfold Obligations.DriverHostWritesAndRelease
  refine ⟨⟨fun s c k => channel_released, fun s g k => group_released⟩,
    ⟨fun s h en => drvEn_shown, fun s h g en => groupEn_shown, fun s h c m => drvModeWrite_shown, fun s h c p => pairWrite_shown, fun s h c => pairWrite_odd⟩,
    ⟨fun s h c => resume_shown, fun s h => resumeAll_shown, fun s h c w => channelFlags_cleared, fun s h g w => groupFlags_cleared⟩⟩

end Sys2Proof.DriverWrites

namespace Sys2Proof.Monitors

open Sys2Proof Sys2Proof.Machine Sys2Proof.Frame

/-! ### Signed fields -/

theorem signed_unsigned {n : Nat} (hn : 0 < n) {v : Int} (hlo : -2 ^ (n - 1) ≤ v) (hhi : v < 2 ^ (n - 1)) : signed n (unsigned n v % 2 ^ n) = v := by
  have hpow : (2 : Int) ^ n = 2 * 2 ^ (n - 1) := by rw [← pow_succ', Nat.sub_add_cancel hn]
  have hnat : ((2 ^ (n - 1) : Nat) : Int) = 2 ^ (n - 1) := by push_cast; rfl
  have hpos : (0 : Int) < 2 ^ (n - 1) := by positivity
  have hmod : 0 ≤ v % 2 ^ n ∧ v % 2 ^ n < 2 ^ n := ⟨Int.emod_nonneg _ (by positivity), Int.emod_lt_of_pos _ (by positivity)⟩
  have hcast : ((unsigned n v : Nat) : Int) = v % 2 ^ n := Int.toNat_of_nonneg hmod.1
  have hlt : unsigned n v < 2 ^ n := by
    have : ((unsigned n v : Nat) : Int) < ((2 ^ n : Nat) : Int) := by
      rw [hcast]
      push_cast
      exact hmod.2
    exact_mod_cast this
  rw [signed, Nat.mod_mod, Nat.mod_eq_of_lt hlt]
  by_cases h0 : 0 ≤ v
  · have hv : v % 2 ^ n = v := Int.emod_eq_of_lt h0 (by omega)
    rw [if_pos (by zify; omega), hcast, hv]
  · have hv : v % 2 ^ n = v + 2 ^ n := by
      rw [← Int.add_emod_right, Int.emod_eq_of_lt (by omega) (by omega)]
    rw [if_neg (by zify; omega), hcast, hv]
    omega

theorem getI_setI (s : State) (f : Field) {v : Int} (hf : f.lo ≤ f.hi ∧ f.hi < 32) (hlo : -2 ^ (f.width - 1) ≤ v) (hhi : v < 2 ^ (f.width - 1)) :
    getI (setI s f v) f = v := by
  rw [getI, setI, getF_setF _ _ _ hf]
  exact signed_unsigned (by rw [Field.width]; omega) hlo hhi

theorem getI_setI_half (s : State) (r : Nat) {v : Int} (hlo : -32768 ≤ v) (hhi : v < 32768) : getI (setI s ⟨r, 15, 0⟩ v) ⟨r, 15, 0⟩ = v :=
  getI_setI s ⟨r, 15, 0⟩ ⟨by simp, by simp⟩ hlo hhi

theorem clampI_mem (v : Int) : -32768 ≤ clampI (-32768) 32767 v ∧ clampI (-32768) 32767 v < 32768 := by
  rw [clampI]
  split
  · omega
  · split <;> omega

/-! ### Samples (R426) -/

section Samples

variable {s t u : State} {j k : Nat} {v : Int}

/-- The samples of a monitor. -/
def samplesOf (s : State) (m : Nat) : List Int := sparseGet (fun _ => []) s.mon.samples m

theorem monMean_congr {m : Nat} (h : samplesOf t m = samplesOf s m) : monMean t m = monMean s m := by
  rw [monMean, monMean]
  simp only [samplesOf] at h
  rw [h]

/-- The field that shows the monitor at a place of MON_SAMPLE's list. -/
def placeField (k : Nat) : Field := if k < 12 then MON_TS_T k else if k < 28 then MON_VM_VAL (k - 12) else MON_PM_VAL (k - 28)

/-- The monitor at place `k` shows its mean. -/
def Shown (s : State) (k : Nat) : Prop :=
  if k < 12 then getI s (placeField k) = clampI (-32768) 32767 (monMean s (sampleMonitor k))
  else getF s (placeField k) = min (if k < 28 then 65535 else 16777215) (monMean s (sampleMonitor k)).toNat

theorem Shown.of_same (h : Shown s k) (hf : getF t (placeField k) = getF s (placeField k)) (hm : samplesOf t (sampleMonitor k) = samplesOf s (sampleMonitor k)) :
    Shown t k := by
  unfold Shown at h ⊢
  rw [monMean_congr hm, getI, hf]
  exact h

/-- One sample of MON_SAMPLE. -/
def sampleStep (s : State) (e : Int × Nat) : State := showSample (takeSample s (sampleMonitor e.2) e.1) (sampleMonitor e.2)

theorem sampleMonitor_ne (h : j ≠ k) : sampleMonitor j ≠ sampleMonitor k := by
  rw [sampleMonitor, sampleMonitor]
  split <;> split <;> omega

theorem showSample_samples (s : State) (m : Nat) : (showSample s m).mon.samples = s.mon.samples := by
  unfold showSample
  extract_lets x top y
  split
  · rfl
  · split <;> rfl

theorem samplesOf_takeSample (s : State) (m : Nat) (v : Int) : samplesOf (takeSample s m v) m = (v :: samplesOf s m).take 16 := by
  rw [samplesOf, takeSample, modMon, samplesOf]
  exact sparseGet_mod (fun _ => []) s.mon.samples m fun l => (v :: l).take meanOf

theorem samplesOf_takeSample_ne (s : State) {m n : Nat} (h : n ≠ m) (v : Int) : samplesOf (takeSample s m v) n = samplesOf s n := by
  rw [samplesOf, takeSample, modMon, samplesOf]
  exact sparseGet_mod_ne (fun _ => []) s.mon.samples m n (fun l => (v :: l).take meanOf) h

theorem samplesOf_sampleStep (s : State) (v : Int) (k : Nat) :
    samplesOf (sampleStep s (v, k)) (sampleMonitor k) = (v :: samplesOf s (sampleMonitor k)).take 16 := by
  rw [sampleStep, samplesOf, showSample_samples]
  exact samplesOf_takeSample _ _ _

theorem samplesOf_sampleStep_ne (s : State) (v : Int) (h : j ≠ k) : samplesOf (sampleStep s (v, k)) (sampleMonitor j) = samplesOf s (sampleMonitor j) := by
  rw [sampleStep, samplesOf, showSample_samples]
  exact samplesOf_takeSample_ne _ (sampleMonitor_ne h) _

theorem showSample_temperature (s : State) {m : Nat} (hm : m < 12) :
    getI (showSample s m) (MON_TS_T m) = clampI (-32768) 32767 (monMean s m) ∧ regsBut s (showSample s m) [MON_TS m] := by
  unfold showSample
  extract_lets x top y
  have hy : regsBut s y [MON_TS m] := regsBut_of_regs rfl _
  clear_value top y
  obtain ⟨hlo, hhi⟩ := clampI_mem x
  rw [if_pos hm]
  refine ⟨?_, regsBut_setI (regsBut_setI hy (by simp) _) (by simp) _⟩
  have hmax := getF_setI_apart (s := setI y (MON_TS_T m) (clampI (-32768) 32767 x)) (f := MON_TS_MAX m) (g := MON_TS_T m) ⟨by simp, by simp, Or.inr (Or.inr (by simp))⟩
    (clampI (-32768) 32767 top)
  exact (congrArg (signed 16) hmax).trans (getI_setI_half y (MON_TS m) hlo hhi)

theorem showSample_voltage (s : State) {v : Nat} (hv : v < 16) : showSample s (v + 16) = setF s (MON_VM_VAL v) (min 65535 (monMean s (v + 16)).toNat) := by
  unfold showSample
  extract_lets x top y
  rw [if_neg (by omega), if_pos (by omega), Nat.add_sub_cancel]

theorem showSample_ring (s : State) (p : Nat) : showSample s (p + 32) = setF s (MON_PM_VAL p) (min 16777215 (monMean s (p + 32)).toNat) := by
  unfold showSample
  extract_lets x top y
  rw [if_neg (by omega), if_neg (by omega), Nat.add_sub_cancel]

/-- A sample is shown in its monitor's register alone. -/
theorem sampleStep_shown (s : State) (v : Int) (hk : k < 32) : Shown (sampleStep s (v, k)) k ∧ regsBut s (sampleStep s (v, k)) [(placeField k).reg] := by
  have hmean : monMean (sampleStep s (v, k)) (sampleMonitor k) = monMean (takeSample s (sampleMonitor k) v) (sampleMonitor k) :=
    monMean_congr (by rw [samplesOf, sampleStep, showSample_samples]; rfl)
  unfold Shown
  rw [hmean, sampleStep]
  have htaken : (takeSample s (sampleMonitor k) v).regs = s.regs := rfl
  generalize takeSample s (sampleMonitor k) v = u at htaken
  dsimp only
  by_cases h12 : k < 12
  · have hpl : placeField k = MON_TS_T k := if_pos h12
    rw [if_pos h12, hpl, show sampleMonitor k = k from if_pos h12]
    obtain ⟨hval, hregs⟩ := showSample_temperature u h12
    exact ⟨hval, regsBut_before hregs htaken⟩
  · rw [if_neg h12, show sampleMonitor k = k + 4 from if_neg h12]
    by_cases h28 : k < 28
    · have hpl : placeField k = MON_VM_VAL (k - 12) := by rw [placeField, if_neg h12, if_pos h28]
      rw [if_pos h28, hpl, show k + 4 = (k - 12) + 16 by omega, showSample_voltage u (by omega)]
      exact ⟨(getF_setF _ _ _ ⟨by simp, by simp⟩).trans (Nat.mod_eq_of_lt (Nat.lt_of_le_of_lt (Nat.min_le_left _ _) (by simp))),
        regsBut_setF (regsBut_of_regs htaken _) (by simp) _⟩
    · have hpl : placeField k = MON_PM_VAL (k - 28) := by rw [placeField, if_neg h12, if_neg h28]
      rw [if_neg h28, hpl, show k + 4 = (k - 28) + 32 by omega, showSample_ring u]
      exact ⟨(getF_setF _ _ _ ⟨by simp, by simp⟩).trans (Nat.mod_eq_of_lt (Nat.lt_of_le_of_lt (Nat.min_le_left _ _) (by simp))),
        regsBut_setF (regsBut_of_regs htaken _) (by simp) _⟩

theorem placeField_reg (k : Nat) : (placeField k).reg = if k < 12 then 0x210 + k else if k < 28 then 0x230 + (k - 12) else 0x250 + (k - 28) := by
  rw [placeField]
  split
  · rfl
  · split <;> rfl

theorem placeField_ne (hj : j < 32) (hk : k < 32) (h : j ≠ k) : (placeField j).reg ≠ (placeField k).reg := by
  rw [placeField_reg, placeField_reg]
  split <;> split <;> (try split) <;> (try split) <;> omega

/-- The samples of a list from place `n` on: those places have theirs and show their means, and the others stand. -/
theorem samples_taken (l : List Int) {n : Nat} (hn : n + l.length ≤ 32) (s : State) :
    (∀ j < 32, n ≤ j → j < n + l.length → samplesOf ((l.zipIdx n).foldl sampleStep s) (sampleMonitor j) = (l.getD (j - n) 0 :: samplesOf s (sampleMonitor j)).take 16 ∧
      Shown ((l.zipIdx n).foldl sampleStep s) j) ∧
    (∀ j < 32, j < n ∨ n + l.length ≤ j → samplesOf ((l.zipIdx n).foldl sampleStep s) (sampleMonitor j) = samplesOf s (sampleMonitor j) ∧
      (Shown s j → Shown ((l.zipIdx n).foldl sampleStep s) j)) := by
  induction l generalizing n s with
  | nil => exact ⟨fun j _ h1 h2 => absurd h2 (by simp; omega), fun j _ _ => ⟨rfl, id⟩⟩
  | cons v l ih =>
    simp only [List.length_cons] at hn ⊢
    rw [List.zipIdx_cons, List.foldl_cons]
    obtain ⟨hin, hout⟩ := ih (n := n + 1) (by omega) (sampleStep s (v, n))
    have hother : ∀ j < 32, j ≠ n → samplesOf (sampleStep s (v, n)) (sampleMonitor j) = samplesOf s (sampleMonitor j) ∧ (Shown s j → Shown (sampleStep s (v, n)) j) :=
      fun j hj hne => by
        have hs := samplesOf_sampleStep_ne s v hne
        refine ⟨hs, fun hsh => hsh.of_same (getF_of_regsBut (sampleStep_shown s v (show n < 32 by omega)).2 ?_) hs⟩
        rw [List.mem_singleton]
        exact placeField_ne hj (by omega) hne
    refine ⟨fun j hj h1 h2 => ?_, fun j hj ho => ?_⟩
    · by_cases hjn : j = n
      · subst hjn
        obtain ⟨hs, hsh⟩ := hout j hj (Or.inl (by omega))
        refine ⟨hs.trans ?_, hsh (sampleStep_shown s v hj).1⟩
        rw [samplesOf_sampleStep, Nat.sub_self]
        rfl
      · obtain ⟨hs, hsh⟩ := hin j hj (by omega) (by omega)
        refine ⟨hs.trans ?_, hsh⟩
        rw [(hother j hj hjn).1, show j - n = (j - (n + 1)) + 1 by omega]
        rfl
    · obtain ⟨hs, hsh⟩ := hout j hj (by omega)
      obtain ⟨hs', hsh'⟩ := hother j hj (by omega)
      exact ⟨hs.trans hs', fun h => hsh (hsh' h)⟩

end Samples

/-! ### Limits (R427) -/

section Limits

variable {s t u : State} {j k : Nat}

/-- What the limits leave as it is: the samples, and the fields that show a mean. -/
structure MeansStand (s t : State) : Prop where
  samples : t.mon.samples = s.mon.samples
  shown : ∀ k < 32, getF t (placeField k) = getF s (placeField k)

theorem MeansStand.refl (s : State) : MeansStand s s := ⟨rfl, fun _ _ => rfl⟩

theorem MeansStand.trans (h1 : MeansStand s t) (h2 : MeansStand t u) : MeansStand s u :=
  ⟨h2.samples.trans h1.samples, fun k hk => (h2.shown k hk).trans (h1.shown k hk)⟩

theorem MeansStand.of_regs (hm : t.mon.samples = s.mon.samples) (hr : t.regs = s.regs) : MeansStand s t := ⟨hm, fun _ _ => getF_congr (rd_of_regs hr _)⟩

theorem meansStand_foldl {α : Type} {f : State → α → State} {xs : List α} (hf : ∀ x ∈ xs, ∀ t, MeansStand t (f t x)) (s : State) : MeansStand s (xs.foldl f s) :=
  List.foldlRecOn (motive := fun t => MeansStand s t) xs f (.refl s) fun t ht x hx => ht.trans (hf x hx t)

/-- A field that shows no mean is written. -/
theorem meansStand_setB (s : State) {f : Field} (hf : f.lo ≤ f.hi) (hap : (f.reg < 0x210 ∨ 0x253 < f.reg) ∨ (0x22F < f.reg ∧ f.reg < 0x240 ∧ 15 < f.lo)) (b : Bool) :
    MeansStand s (setB s f b) := by
  refine ⟨rfl, fun k hk => getF_setB_apart ?_ b⟩
  have hreg := placeField_reg k
  have hle : (placeField k).lo ≤ (placeField k).hi := by
    rw [placeField]
    split
    · exact Nat.zero_le _
    · split <;> exact Nat.zero_le _
  refine ⟨hf, hle, ?_⟩
  rcases hap with hfar | ⟨h1, h2, h3⟩
  · left
    rw [hreg]
    split <;> (try split) <;> omega
  · by_cases h12 : k < 12
    · left
      rw [hreg, if_pos h12]
      omega
    · by_cases h28 : k < 28
      · right
        right
        rw [placeField, if_neg h12, if_pos h28]
        exact h3
      · left
        rw [hreg, if_neg h12, if_neg h28]
        omega

/-- The registers in which the limits are shown. -/
def limitRegs : List Nat := MON_STAT :: (List.range 16).map MON_VM

theorem mem_limitRegs {i : Nat} : i ∈ limitRegs ↔ i = 0x201 ∨ (0x230 ≤ i ∧ i < 0x240) := by
  simp only [limitRegs, List.mem_cons, List.mem_map, List.mem_range, MON_STAT, MON_VM]
  refine or_congr Iff.rfl ⟨fun ⟨g, hg, he⟩ => by omega, fun ⟨h1, h2⟩ => ⟨i - 0x230, by omega, by omega⟩⟩

/-- The two flags of voltage `v` show whether its limits are reached. -/
def showVolt (s : State) (v : Nat) : State := setB (setB s (MON_VM_LO v) (limitHeld s (24 + 2 * v))) (MON_VM_HI v) (limitHeld s (25 + 2 * v))

/-- Some limit of a kind is reached. -/
def anyHeld (s : State) (p : Nat → Bool) : Bool := limits.any fun k => p k && limitHeld s k

/-- The summary flags of the limits. -/
def showSums (s : State) : State :=
  setB (setB (setB s MON_STAT_TW (anyHeld s fun k => decide (k < 24 ∧ k % 2 = 0))) MON_STAT_TC (anyHeld s fun k => decide (k < 24 ∧ k % 2 = 1)))
    MON_STAT_VLIM (anyHeld s fun k => decide (24 ≤ k))

theorem showLimits_eq (s : State) : showLimits s = (List.range 16).foldl showVolt (showSums s) := rfl

theorem showVolt_mon (s : State) (v : Nat) : (showVolt s v).mon = s.mon := rfl

theorem showLimits_mon (s : State) : (showLimits s).mon = s.mon :=
  (showLimits_keeps (R := (· ∈ [Part.regs])) s (allows_of_subset (by decide)) (Keeps.refl ..)).same .mon (by decide)

theorem regsBut_showLimits (s : State) : regsBut s (showLimits s) limitRegs := by
  rw [showLimits_eq]
  refine regsBut_foldl (fun v hv t ht => ?_) ?_
  · have hm : MON_VM v ∈ limitRegs := List.mem_cons_of_mem _ (List.mem_map_of_mem hv)
    exact regsBut_setB (regsBut_setB ht hm _) hm _
  · exact regsBut_setB (regsBut_setB (regsBut_setB (regsBut_refl _ _) (by simp [limitRegs]) _) (by simp [limitRegs]) _) (by simp [limitRegs]) _

theorem meansStand_showLimits (s : State) : MeansStand s (showLimits s) := by
  rw [showLimits_eq]
  refine MeansStand.trans ?_ (meansStand_foldl (fun v hv t => ?_) _)
  · exact ((meansStand_setB _ (Nat.le_refl _) (Or.inl (by decide)) _).trans (meansStand_setB _ (Nat.le_refl _) (Or.inl (by decide)) _)).trans
      (meansStand_setB _ (Nat.le_refl _) (Or.inl (by decide)) _)
  · have hv16 : v < 16 := List.mem_range.1 hv
    have hreg : 0x22F < MON_VM v ∧ MON_VM v < 0x240 := by simp only [MON_VM]; omega
    exact (meansStand_setB _ (Nat.le_refl _) (Or.inr ⟨hreg.1, hreg.2, by simp⟩) _).trans (meansStand_setB _ (Nat.le_refl _) (Or.inr ⟨hreg.1, hreg.2, by simp⟩) _)

/-- The summary flags of MON_STAT after the limits are shown. -/
theorem sums_shown (s : State) : flag (showLimits s) MON_STAT_TW = (anyHeld s fun k => decide (k < 24 ∧ k % 2 = 0)) ∧
    flag (showLimits s) MON_STAT_TC = (anyHeld s fun k => decide (k < 24 ∧ k % 2 = 1)) ∧ flag (showLimits s) MON_STAT_VLIM = (anyHeld s fun k => decide (24 ≤ k)) := by
  have hvolts : regsBut (showSums s) (showLimits s) ((List.range 16).map MON_VM) := by
    rw [showLimits_eq]
    exact regsBut_foldl (fun v hv t ht => regsBut_setB (regsBut_setB ht (List.mem_map_of_mem hv) _) (List.mem_map_of_mem hv) _) (regsBut_refl _ _)
  have hstat : MON_STAT ∉ (List.range 16).map MON_VM := by decide
  have hrd := hvolts _ hstat
  refine ⟨(flag_congr (f := MON_STAT_TW) hrd).trans ?_, (flag_congr (f := MON_STAT_TC) hrd).trans ?_, (flag_congr (f := MON_STAT_VLIM) hrd).trans ?_⟩
  · exact (flag_setB_apart (by decide) _).trans ((flag_setB_apart (by decide) _).trans (flag_setB _ _ _ (by decide)))
  · exact (flag_setB_apart (by decide) _).trans (flag_setB _ _ _ (by decide))
  · exact flag_setB _ _ _ (by decide)

theorem limitHeld_of_mon (h : t.mon.reached = s.mon.reached) (k : Nat) : limitHeld t k = limitHeld s k := by rw [limitHeld, h, limitHeld]

theorem setReached_mon (s : State) (k : Nat) (b : Bool) : (setReached s k b).mon = { s.mon with reached := sparseSet (fun _ => false) s.mon.reached k b } :=
  showLimits_mon _

theorem limitHeld_setReached (s : State) (k : Nat) (b : Bool) : limitHeld (setReached s k b) k = b ∧ ∀ j, j ≠ k → limitHeld (setReached s k b) j = limitHeld s j := by
  simp only [limitHeld, setReached_mon]
  exact ⟨sparseGet_set _ _ _ _, fun j hj => sparseGet_set_ne _ _ _ _ _ hj⟩

theorem regsBut_setReached (s : State) (k : Nat) (b : Bool) : regsBut s (setReached s k b) limitRegs := regsBut_before (regsBut_showLimits _) rfl

theorem meansStand_setReached (s : State) (k : Nat) (b : Bool) : MeansStand s (setReached s k b) :=
  MeansStand.trans (t := modMon s fun x => { x with reached := sparseSet (fun _ => false) x.reached k b }) (.of_regs rfl rfl) (meansStand_showLimits _)

/-- A flag of MON_FLT. -/
abbrev FaultFlag (f : Field) : Prop := f.reg = MON_FLT ∧ f.hi = f.lo ∧ f.lo < 32

theorem monFault_shown (s : State) {f : Field} (hf : FaultFlag f) : flag (monFault s f) f = true ∧ regsBut s (monFault s f) (MON_FLT :: MON_IRQ :: tally) ∧
    (monFault s f).mon = s.mon := by
  obtain ⟨hreg, hbit, hlt⟩ := hf
  refine ⟨?_, ?_, (monFault_keeps (R := (· ∈ [Part.regs, .hif])) s f (allows_of_subset (by decide)) (Keeps.refl ..)).same .mon (by decide)⟩
  · unfold monFault
    split
    · assumption
    · rw [flag_congr (f := f) (rd_raiseIrq_ne _ _ _ _ (by rw [hreg]; decide))]
      exact flag_setB _ _ _ ⟨by omega, by omega⟩
  · unfold monFault
    split
    · exact regsBut_refl _ _
    · refine regsBut_trans (regsBut_setB (regsBut_refl _ _) (by simp [hreg]) _) (regsBut_mono (regsBut_raiseIrq _ _ _ _) ?_)
      exact List.cons_subset.2 ⟨by simp, fun j hj => List.mem_cons_of_mem _ (List.mem_cons_of_mem _ (dropCounters_subset_tally hj))⟩

theorem meansStand_of_regsBut (hr : regsBut s t (MON_FLT :: MON_IRQ :: tally)) (hm : t.mon.samples = s.mon.samples) : MeansStand s t := by
  refine ⟨hm, fun k hk => getF_of_regsBut hr ?_⟩
  have hreg := placeField_reg k
  simp only [List.mem_cons, mem_tally, MON_FLT, MON_IRQ]
  rw [hreg]
  split <;> (try split) <;> omega

/-- The record of a limit that is reached. -/
def limitRecorded (s : State) (k v : Nat) : State :=
  if k < 24 then record s (if k % 2 = 0 then 0xD001 else 0xD002) (k / 2) (leBytes 2 v) else record s 0xD004 ((k - 24) / 2) (leBytes 2 v ++ leBytes 1 (k % 2))

/-- Its flag in MON_FLT, and the summary of it in MON_STAT. -/
def limitFlag (k : Nat) : Field := if k < 24 then (if k % 2 = 0 then MON_FLT_TWARN else MON_FLT_TCRIT) else (if k % 2 = 0 then MON_FLT_VUV else MON_FLT_VOV)

def limitSum (k : Nat) : Field := if k < 24 then (if k % 2 = 0 then MON_STAT_TW else MON_STAT_TC) else MON_STAT_VLIM

theorem faultFlag_limit (k : Nat) : FaultFlag (limitFlag k) := by
  rw [limitFlag]
  split <;> split <;> decide

theorem limitReached_eq (h : (limitHeld s k || decide (sparseGet (fun _ => 0) s.mon.beyond k < 10)) = false) : limitReached s k =
    monFault (limitRecorded (setReached s k true) k (unsigned 16 (monMean s (limitMonitor k)))) (limitFlag k) := by
  rw [limitReached, if_neg (by rw [h]; decide), limitRecorded, limitFlag]
  split <;> rfl

theorem regsBut_limitRecorded (s : State) (k v : Nat) : regsBut s (limitRecorded s k v) lossCounters := by
  unfold limitRecorded
  split <;> exact regsBut_record _ _ _ _

theorem limitRecorded_mon (s : State) (k v : Nat) : (limitRecorded s k v).mon = s.mon := by
  unfold limitRecorded
  split <;> exact (keeps_record _ _ _ _).same .mon (by decide)

/-- A limit that is reached by its tenth sample. -/
structure Reached (s t : State) (k : Nat) : Prop where
  mon : t.mon = { s.mon with reached := sparseSet (fun _ => false) s.mon.reached k true }
  means : MeansStand s t
  fault : flag t (limitFlag k) = true
  sum : flag t (limitSum k) = true

theorem limitSum_shown (s : State) (hk : k < 56) : flag (setReached s k true) (limitSum k) = true := by
  have hheld : limitHeld (modMon s fun x => { x with reached := sparseSet (fun _ => false) x.reached k true }) k = true :=
    sparseGet_set (fun _ => false) s.mon.reached k true
  obtain ⟨htw, htc, hvl⟩ := sums_shown (modMon s fun x => { x with reached := sparseSet (fun _ => false) x.reached k true })
  have hany : ∀ p : Nat → Bool, p k = true → anyHeld (modMon s fun x => { x with reached := sparseSet (fun _ => false) x.reached k true }) p = true := fun p hp =>
    List.any_eq_true.2 ⟨k, List.mem_range.2 hk, by rw [hp, hheld]; rfl⟩
  rw [limitSum]
  split
  next h24 =>
    split
    next h2 => exact htw.trans (hany _ (decide_eq_true ⟨h24, h2⟩))
    next h2 => exact htc.trans (hany _ (decide_eq_true ⟨h24, by omega⟩))
  next h24 => exact hvl.trans (hany _ (decide_eq_true (by omega)))

theorem limitReached_shown (hk : k < 56) (h : (limitHeld s k || decide (sparseGet (fun _ => 0) s.mon.beyond k < 10)) = false) : Reached s (limitReached s k) k := by
  rw [limitReached_eq h]
  generalize unsigned 16 (monMean s (limitMonitor k)) = v
  obtain ⟨hflag, hregs, hmon⟩ := monFault_shown (limitRecorded (setReached s k true) k v) (faultFlag_limit k)
  have hrec := regsBut_limitRecorded (setReached s k true) k v
  have hrm := limitRecorded_mon (setReached s k true) k v
  have hall : regsBut (setReached s k true) (monFault (limitRecorded (setReached s k true) k v) (limitFlag k)) (MON_FLT :: MON_IRQ :: tally) :=
    regsBut_trans (regsBut_mono hrec fun j hj => List.mem_cons_of_mem _ (List.mem_cons_of_mem _ (lossCounters_subset_tally hj))) hregs
  refine ⟨hmon.trans (hrm.trans (setReached_mon s k true)), (meansStand_setReached s k true).trans (meansStand_of_regsBut hall (by rw [hmon, hrm])), hflag, ?_⟩
  have hsum : (limitSum k).reg = MON_STAT := by
    rw [limitSum]
    split
    · split <;> rfl
    · rfl
  rw [flag_of_regsBut hall (by rw [hsum]; decide)]
  exact limitSum_shown s hk

theorem meansStand_limitReached (s : State) (hk : k < 56) : MeansStand s (limitReached s k) := by
  by_cases h : (limitHeld s k || decide (sparseGet (fun _ => 0) s.mon.beyond k < 10)) = true
  · rw [limitReached, if_pos h]
    exact .refl s
  · exact (limitReached_shown hk (Bool.eq_false_iff.2 h)).means

theorem meansStand_limitLeft (s : State) (k : Nat) : MeansStand s (limitLeft s k) := by
  rw [limitLeft]
  split
  · exact meansStand_setReached s k false
  · exact .refl s

theorem limit_reached (hk : k < 56) (hheld : limitHeld s k = false) (hten : 10 ≤ sparseGet (fun _ => 0) s.mon.beyond k) :
    answers (.limitReached k) s (fun t => limitHeld t k = true ∧ (∀ j < 56, j ≠ k → limitHeld t j = limitHeld s j) ∧
        flag t (if k < 24 then (if k % 2 = 0 then MON_FLT_TWARN else MON_FLT_TCRIT) else (if k % 2 = 0 then MON_FLT_VUV else MON_FLT_VOV)) = true ∧
        flag t (if k < 24 then (if k % 2 = 0 then MON_STAT_TW else MON_STAT_TC) else MON_STAT_VLIM) = true ∧ partsBut s t [.regs, .mon, .hif, .recd]) := by
  refine answers_of_answer (t := limitReached s k) rfl (by simp [hk]) ?_
  have hkeeps := limitReached_keeps (R := (· ∈ [Part.regs, .mon, .hif, .recd])) s k (allows_of_subset (by decide)) (Keeps.refl ..)
  obtain ⟨hmon, -, hfault, hsum⟩ := limitReached_shown hk (s := s) (by rw [hheld]; simp [hten])
  refine ⟨?_, fun j _ hj => ?_, hfault, hsum, partsBut_of_keeps hkeeps⟩
  · rw [limitHeld, hmon]
    exact sparseGet_set (fun _ => false) s.mon.reached k true
  · rw [limitHeld, hmon]
    exact sparseGet_set_ne (fun _ => false) s.mon.reached k j true hj

theorem limit_left (hk : k < 56) (hheld : limitHeld s k = true) (hall : 100 ≤ sparseGet (fun _ => 0) s.mon.inside k) :
    answers (.limitLeft k) s (fun t => limitHeld t k = false ∧ (∀ j < 56, j ≠ k → limitHeld t j = limitHeld s j) ∧
      regsBut s t (MON_STAT :: (List.range 16).map MON_VM) ∧ partsBut s t [.regs, .mon]) := by
  refine answers_of_answer (t := limitLeft s k) rfl (by simp [hk]) ?_
  have hkeeps := limitLeft_keeps (R := (· ∈ [Part.regs, .mon])) s k (allows_of_subset (by decide)) (Keeps.refl ..)
  have heq : limitLeft s k = setReached s k false := by rw [limitLeft, if_pos (by simp [hheld, hall])]
  rw [heq] at hkeeps ⊢
  obtain ⟨hself, hrest⟩ := limitHeld_setReached s k false
  exact ⟨hself, fun j _ hj => hrest j hj, regsBut_setReached s k false, partsBut_of_keeps hkeeps⟩

/-- A limit after a round of samples. -/
def checkLimit (s : State) (k : Nat) : State := limitLeft (limitReached s k) k

/-- The limits after a round of samples. -/
def limitsChecked (s : State) : State := limits.foldl checkLimit (limits.foldl countLimit s)

theorem meansStand_limitsChecked (s : State) : MeansStand s (limitsChecked s) := by
  have hcount : ∀ k ∈ limits, ∀ t, MeansStand t (countLimit t k) := fun k _ t => .of_regs rfl rfl
  have hcheck : ∀ k ∈ limits, ∀ t, MeansStand t (checkLimit t k) := fun k hk t =>
    (meansStand_limitReached t (List.mem_range.1 hk)).trans (meansStand_limitLeft _ k)
  unfold limitsChecked
  exact (meansStand_foldl hcount s).trans (meansStand_foldl hcheck _)

/-- The case temperature is shown. -/
def caseShown (s : State) : State := setI s MON_TCASE_VAL (clampI (-32768) 32767 (monMean s 6))

theorem meansStand_caseShown (s : State) : MeansStand s (caseShown s) := by
  refine ⟨rfl, fun k hk => getF_congr (rd_setI_ne _ _ _ _ ?_)⟩
  have hreg := placeField_reg k
  rw [hreg]
  show _ ≠ 0x208
  split <;> (try split) <;> omega

theorem monSample_shown {l : List Int} (hl : l.length = 32) (hrun : s.sys.inReset = false) : answers (.monSample l) s (fun t =>
      (∀ k < 32, sparseGet (fun _ => []) t.mon.samples (sampleMonitor k) = (l.getD k 0 :: sparseGet (fun _ => []) s.mon.samples (sampleMonitor k)).take 16) ∧
      (∀ m < 12, getI t (MON_TS_T m) = clampI (-32768) 32767 (monMean t m)) ∧ (∀ v < 16, getF t (MON_VM_VAL v) = min 65535 (monMean t (16 + v)).toNat) ∧
      (∀ p < 4, getF t (MON_PM_VAL p) = min 16777215 (monMean t (32 + p)).toNat) ∧ partsBut s t [.regs, .mon, .hif, .recd]) := by
  have hexec : exec (.monSample l) s = answer (decide (l.length = 32)) (if s.sys.inReset then s else monSample s l) := rfl
  rw [if_neg (by simp [hrun])] at hexec
  refine answers_of_answer hexec (by simp [hl]) ?_
  have hkeeps := monSample_keeps (R := (· ∈ [Part.regs, .mon, .hif, .recd])) s l (allows_of_subset (by decide)) (Keeps.refl ..)
  have heq : monSample s l = limitsChecked (caseShown (l.zipIdx.foldl sampleStep s)) := by
    unfold monSample limitsChecked caseShown
    rfl
  obtain ⟨hin, -⟩ := samples_taken l (n := 0) (by omega) s
  rw [heq] at hkeeps ⊢
  generalize l.zipIdx.foldl sampleStep s = u at hin hkeeps
  have hstand : MeansStand u (limitsChecked (caseShown u)) := (meansStand_caseShown u).trans (meansStand_limitsChecked _)
  generalize limitsChecked (caseShown u) = t at hstand hkeeps
  have hsam : ∀ m, samplesOf t m = samplesOf u m := fun m => by rw [samplesOf, hstand.samples, samplesOf]
  have hshown : ∀ k < 32, Shown t k := fun k hk => (hin k hk (Nat.zero_le _) (by omega)).2.of_same (hstand.shown k hk) (hsam _)
  refine ⟨fun k hk => (hsam _).trans (hin k hk (Nat.zero_le _) (by omega)).1, fun m hm => ?_, fun v hv => ?_, fun p hp => ?_, partsBut_of_keeps hkeeps⟩
  · have h := hshown m (by omega)
    rw [Shown, if_pos hm, placeField, if_pos hm, sampleMonitor, if_pos hm] at h
    exact h
  · have h := hshown (v + 12) (by omega)
    rw [Shown, if_neg (by omega), placeField, if_neg (by omega), if_pos (by omega), if_pos (by omega), sampleMonitor, if_neg (by omega),
      Nat.add_sub_cancel, show v + 12 + 4 = 16 + v by omega] at h
    exact h
  · have h := hshown (p + 28) (by omega)
    rw [Shown, if_neg (by omega), placeField, if_neg (by omega), if_neg (by omega), if_neg (by omega), sampleMonitor, if_neg (by omega),
      Nat.add_sub_cancel, show p + 28 + 4 = 32 + p by omega] at h
    exact h

end Limits

end Sys2Proof.Monitors

namespace Sys2Proof.Monitors

open Sys2Proof Sys2Proof.Machine Sys2Proof.Frame Sys2Proof.HostWrites

/-! ### Requests to the regulator (R431, R432) -/

section Requests

variable {s t : State} {h mv cause v k d b v0 : Nat}

/-- The registers of a request, with the counters of the record. -/
def requestRegs : List Nat := [MON_AVS_STAT, MON_AGE, MON_STAT, MON_CNT_VREQ] ++ lossCounters

theorem mem_requestRegs {i : Nat} : i ∈ requestRegs ↔ i = 0x203 ∨ i = 0x206 ∨ i = 0x201 ∨ i = 0x20C ∨ i = 0x304 ∨ i = 0x305 := by
  simp only [requestRegs, List.mem_append, List.mem_cons, List.not_mem_nil, or_false, mem_lossCounters, MON_AVS_STAT, MON_AGE, MON_STAT, MON_CNT_VREQ]
  omega

/-- A request is in force: its voltage is shown, the regulator is busy with it, and it is the one to be stored. -/
structure Requested (s t : State) (mv : Nat) : Prop where
  vreq : getF t MON_AVS_STAT_VREQ = mv
  busy : flag t MON_STAT_BUSY = true
  mon : t.mon = { s.mon with savedReq := mv }
  regs : regsBut s t requestRegs

/-- The request before its record. -/
def requestShown (s : State) (mv : Nat) : State := bump (setB (showRequest s mv) MON_STAT_BUSY true) MON_CNT_VREQ_CNT

theorem requestShown_shown (s : State) (hmv : mv < 1024) : Requested s (requestShown s mv) mv := by
  have hregs : regsBut s (requestShown s mv) requestRegs := by
    unfold requestShown showRequest
    refine regsBut_bump (regsBut_setB ?_ (by simp [requestRegs]) _) (by simp [requestRegs]) _
    exact regsBut_put (t := setI (setF s MON_AVS_STAT_VREQ mv) MON_AGE_VSHIFT ((mv : Int) - 800))
      (regsBut_setI (regsBut_setF (regsBut_refl _ _) (by simp [requestRegs]) _) (by simp [requestRegs]) _) rfl
  refine ⟨?_, ?_, rfl, hregs⟩
  · have hlast : getF (requestShown s mv) MON_AVS_STAT_VREQ = getF (setF s MON_AVS_STAT_VREQ mv) MON_AVS_STAT_VREQ := by
      unfold requestShown showRequest
      rw [getF_bump_apart (by decide), getF_setB_apart (by decide)]
      exact getF_setI_apart (f := MON_AGE_VSHIFT) (by decide) _
    rw [hlast, getF_setF _ _ _ (by decide)]
    exact Nat.mod_eq_of_lt hmv
  · exact (flag_congr (f := MON_STAT_BUSY) (rd_setF_ne _ _ _ _ (by decide))).trans (flag_setB _ _ _ (by decide))

theorem avsRequest_shown (s : State) (hmv : mv < 1024) (cause : Nat) : Requested s (avsRequest s mv cause) mv := by
  obtain ⟨hvreq, hbusy, hmon, hregs⟩ := requestShown_shown s hmv
  have heq : avsRequest s mv cause = if mv = getF s MON_AVS_STAT_VREQ then requestShown s mv
      else record (requestShown s mv) 0xD007 noInst (leBytes 2 mv ++ leBytes 1 (getF (requestShown s mv) MON_SLACK_SMIN) ++ leBytes 1 cause) := rfl
  rw [heq]
  split
  · exact ⟨hvreq, hbusy, hmon, hregs⟩
  · generalize leBytes 2 mv ++ leBytes 1 (getF (requestShown s mv) MON_SLACK_SMIN) ++ leBytes 1 cause = val
    have hrec := regsBut_record (requestShown s mv) 0xD007 noInst val
    refine ⟨(getF_of_regsBut hrec (by decide)).trans hvreq, (flag_of_regsBut hrec (by decide)).trans hbusy, ?_, ?_⟩
    · exact ((keeps_record _ _ _ _).same .mon (by decide)).trans hmon
    · exact regsBut_trans hregs (regsBut_mono hrec fun j hj => List.mem_append_right _ hj)

/-! ### Slack (R429, R433) -/

theorem lifeMin_shown (s : State) (hv : v < 256) : getF (lifeMin s v) MON_SLACK_LIFE_MIN = min (getF s MON_SLACK_LIFE_MIN) v ∧
    (∀ f : Field, Apart MON_SLACK_LIFE_MIN f → getF (lifeMin s v) f = getF s f) ∧ regsBut s (lifeMin s v) [MON_SLACK] ∧
    (lifeMin s v).mon.slackRuns = s.mon.slackRuns := by
  unfold lifeMin
  split
  next hlow =>
    refine ⟨?_, fun f hf => getF_setF_apart hf _, regsBut_put (t := setF s MON_SLACK_LIFE_MIN v) (regsBut_setF (regsBut_refl _ _) (by simp) _) rfl, rfl⟩
    refine (getF_setF s MON_SLACK_LIFE_MIN v (by decide)).trans ?_
    rw [Nat.min_eq_right (Nat.le_of_lt hlow)]
    exact Nat.mod_eq_of_lt hv
  next hlow => exact ⟨(Nat.min_eq_left (Nat.le_of_not_lt hlow)).symm, fun _ _ => rfl, regsBut_refl _ _, rfl⟩

/-- The run's slack is shown, with its minima. -/
def slackShown (s : State) : State :=
  let m := min 255 (sMin s).1
  let u := setF (setF s MON_SLACK_SMIN m) MON_SLACK_LIM (sMin s).2
  lifeMin (setF u MON_SLACK_PMIN (min m (getF u MON_SLACK_PMIN))) m

theorem slackShown_shown (s : State) : getF (slackShown s) MON_SLACK_SMIN = min 255 (sMin s).1 ∧
    getF (slackShown s) MON_SLACK_PMIN = min (getF s MON_SLACK_PMIN) (min 255 (sMin s).1) ∧
    getF (slackShown s) MON_SLACK_LIFE_MIN = min (getF s MON_SLACK_LIFE_MIN) (min 255 (sMin s).1) ∧ regsBut s (slackShown s) [MON_SLACK] ∧
    (slackShown s).mon.slackRuns = s.mon.slackRuns := by
  unfold slackShown
  extract_lets m u
  have hm : m < 256 := by
    show min 255 (sMin s).1 < 256
    omega
  have hsmin : getF u MON_SLACK_SMIN = m := (getF_setF_apart (by decide) _).trans ((getF_setF _ _ _ (by decide)).trans (Nat.mod_eq_of_lt hm))
  have hpmin : getF u MON_SLACK_PMIN = getF s MON_SLACK_PMIN := (getF_setF_apart (by decide) _).trans (getF_setF_apart (by decide) _)
  have hlife : getF u MON_SLACK_LIFE_MIN = getF s MON_SLACK_LIFE_MIN := (getF_setF_apart (by decide) _).trans (getF_setF_apart (by decide) _)
  have hregs : regsBut s u [MON_SLACK] := regsBut_setF (regsBut_setF (regsBut_refl _ _) (by simp) _) (by simp) _
  have hruns : u.mon.slackRuns = s.mon.slackRuns := rfl
  have heq : m = min 255 (sMin s).1 := rfl
  clear_value u m
  rw [← heq]
  obtain ⟨hl, hkept, hlr, hlm⟩ := lifeMin_shown (setF u MON_SLACK_PMIN (min m (getF u MON_SLACK_PMIN))) hm
  refine ⟨?_, ?_, ?_, regsBut_trans (regsBut_setF hregs (by simp) _) hlr, hlm.trans hruns⟩
  · rw [hkept _ (by decide), getF_setF_apart (by decide), hsmin]
  · rw [hkept _ (by decide), getF_setF _ _ _ (by decide), hpmin, Nat.min_comm]
    exact Nat.mod_eq_of_lt (Nat.lt_of_le_of_lt (Nat.min_le_right _ _) hm)
  · rw [hl, getF_setF_apart (by decide), hlife]

/-- The slack of each replica is shown. -/
def replicaShown (s : State) (e : Nat × Nat) : State := setF s (MON_PM_VAL (4 + e.2)) (min 16777215 e.1)

/-- The lowest of the run's slacks joins the runs. -/
def runNoted (s : State) (l : List Nat) : State :=
  modMon s fun x => { x with slackRuns := (lowest ((l.zipIdx).map fun e => (e.1 + guardCredit s (4 + e.2), 4 + e.2)) :: x.slackRuns).take runsPerSec }

theorem slackRun_eq (s : State) (l : List Nat) : slackRun s l = slackShown (runNoted (l.zipIdx.foldl replicaShown s) l) ∨
    slackRun s l = avsRequest (slackShown (runNoted (l.zipIdx.foldl replicaShown s) l))
      (min vTop (getF (slackShown (runNoted (l.zipIdx.foldl replicaShown s) l)) MON_AVS_STAT_VREQ + 20)) 1 := by
  have heq : slackRun s l = if emergency (slackShown (runNoted (l.zipIdx.foldl replicaShown s) l))
        (lowest ((l.zipIdx).map fun e => (e.1 + guardCredit (l.zipIdx.foldl replicaShown s) (4 + e.2), 4 + e.2))).1
      then avsRequest (slackShown (runNoted (l.zipIdx.foldl replicaShown s) l))
        (min vTop (getF (slackShown (runNoted (l.zipIdx.foldl replicaShown s) l)) MON_AVS_STAT_VREQ + 20)) 1
      else slackShown (runNoted (l.zipIdx.foldl replicaShown s) l) := rfl
  rw [heq]
  split
  · exact Or.inr rfl
  · exact Or.inl rfl

/-- A run of the slacks, whether or not the emergency branch follows. -/
theorem slackRun_shown (s : State) (l : List Nat) : ∃ u, u = runNoted (l.zipIdx.foldl replicaShown s) l ∧
    (slackRun s l).mon.slackRuns = u.mon.slackRuns ∧ regsBut (slackShown u) (slackRun s l) requestRegs := by
  refine ⟨_, rfl, ?_⟩
  have hruns := (slackShown_shown (runNoted (l.zipIdx.foldl replicaShown s) l)).2.2.2.2
  rcases slackRun_eq s l with heq | heq
  · rw [heq]
    exact ⟨hruns, regsBut_refl _ _⟩
  · have hreq := avsRequest_shown (slackShown (runNoted (l.zipIdx.foldl replicaShown s) l))
      (mv := min vTop (getF (slackShown (runNoted (l.zipIdx.foldl replicaShown s) l)) MON_AVS_STAT_VREQ + 20)) (by rw [vTop]; omega) 1
    rw [heq, hreq.mon]
    exact ⟨hruns, hreq.regs⟩

theorem replicas_shown (s : State) (l : List Nat) {n : Nat} (hl : n + l.length ≤ 4) :
    (∀ p, n ≤ p → p < n + l.length → getF ((l.zipIdx n).foldl replicaShown s) (MON_PM_VAL (4 + p)) = min 16777215 (l.getD (p - n) 0)) ∧
    regsBut s ((l.zipIdx n).foldl replicaShown s) ((List.range' n l.length).map fun p => MON_PM (4 + p)) := by
  induction l generalizing n s with
  | nil => exact ⟨fun p h1 h2 => absurd h2 (by simp; omega), regsBut_refl _ _⟩
  | cons a l ih =>
    simp only [List.length_cons] at hl ⊢
    rw [List.zipIdx_cons, List.foldl_cons, List.range'_succ, List.map_cons]
    obtain ⟨hin, hout⟩ := ih (n := n + 1) (replicaShown s (a, n)) (by omega)
    refine ⟨fun p h1 h2 => ?_, ?_⟩
    · by_cases hp : p = n
      · subst hp
        have hnot : MON_PM (4 + p) ∉ (List.range' (p + 1) l.length).map fun p => MON_PM (4 + p) := by
          simp only [List.mem_map, List.mem_range'_1, MON_PM, not_exists, not_and]
          omega
        rw [getF_of_regsBut hout hnot, replicaShown, getF_setF _ _ _ ⟨by simp, by simp⟩, Nat.sub_self]
        exact Nat.mod_eq_of_lt (Nat.lt_of_le_of_lt (Nat.min_le_left _ _) (by simp))
      · rw [hin p (by omega) (by omega), show p - n = (p - (n + 1)) + 1 by omega]
        rfl
    · exact regsBut_trans (regsBut_setF (regsBut_refl _ _) (by simp) _) (regsBut_mono hout fun j hj => List.mem_cons_of_mem _ hj)

theorem replicas_mon (s : State) (l : List (Nat × Nat)) : (l.foldl replicaShown s).mon = s.mon :=
  List.foldlRecOn (motive := fun t => t.mon = s.mon) l replicaShown rfl fun t ht e _ =>
    (show (replicaShown t e).mon = t.mon from rfl).trans ht

theorem slack_run {l : List Nat} (hl : l.length = 4) (hrun : s.sys.inReset = false) : answers (.slackRun l) s (fun t =>
      (∀ p < 4, getF t (MON_PM_VAL (4 + p)) = min 16777215 (l.getD p 0)) ∧ getF t MON_SLACK_SMIN = min 255 (sMin t).1 ∧
      t.mon.slackRuns.tail = (s.mon.slackRuns.take 99) ∧ getF t MON_SLACK_LIFE_MIN = min (getF s MON_SLACK_LIFE_MIN) (getF t MON_SLACK_SMIN) ∧
      getF t MON_SLACK_PMIN = min (getF s MON_SLACK_PMIN) (getF t MON_SLACK_SMIN) ∧ partsBut s t [.regs, .mon, .recd]) := by
  have hexec : exec (.slackRun l) s = answer (decide (l.length = 4)) (if s.sys.inReset then s else slackRun s l) := rfl
  rw [if_neg (by simp [hrun])] at hexec
  refine answers_of_answer hexec (by simp [hl]) ?_
  have hkeeps := slackRun_keeps (R := (· ∈ [Part.regs, .mon, .recd])) s l (allows_of_subset (by decide)) (Keeps.refl ..)
  obtain ⟨u, hu, hruns, hregs⟩ := slackRun_shown s l
  generalize slackRun s l = t at hkeeps hruns hregs
  obtain ⟨hsmin, hpmin, hlife, hshown, -⟩ := slackShown_shown u
  obtain ⟨hpm, hpr⟩ := replicas_shown s l (n := 0) (by omega)
  have hsm : sMin t = sMin u := by rw [sMin, sMin, hruns]
  have hslack : MON_SLACK ∉ requestRegs := by decide
  have hsm' : getF t MON_SLACK_SMIN = min 255 (sMin u).1 := (getF_of_regsBut hregs hslack).trans hsmin
  have hureg : u.regs = (l.zipIdx.foldl replicaShown s).regs := by rw [hu]; rfl
  have hold : ∀ f : Field, f.reg = MON_SLACK → getF u f = getF s f := fun f hf => by
    rw [getF_of_regs hureg]
    refine getF_of_regsBut hpr ?_
    rw [hf, hl]
    decide
  refine ⟨fun p hp => ?_, hsm'.trans (by rw [hsm]), ?_, ?_, ?_, partsBut_of_keeps hkeeps⟩
  · rw [getF_of_regsBut hregs (by rw [mem_requestRegs]; simp only [MON_PM]; omega), getF_of_regsBut hshown (by simp only [List.mem_singleton, MON_PM, MON_SLACK]; omega),
      getF_of_regs hureg]
    exact hpm p (Nat.zero_le _) (by omega)
  · rw [hruns, hu, ← replicas_mon s l.zipIdx]
    rfl
  · rw [getF_of_regsBut hregs hslack, hlife, hold _ rfl, hsm']
  · rw [getF_of_regsBut hregs hslack, hpmin, hold _ rfl, hsm']

/-! ### Dissipation and drift (R430, R437) -/

theorem dissipation_shown (s : State) (d k : Nat) : answers (.logicDissipation d k) s (fun t =>
      getF t MON_PLOGIC_MW = min 65535 (getF s (MON_VM_VAL 0) * getF s (MON_VM_VAL 0) * d / 640000 + leakage k (tMax s)) ∧
      regsBut s t [MON_PLOGIC] ∧ partsBut s t [.regs]) := by
  refine ⟨logicDissipation s d k, rfl, ?_, regsBut_setF (regsBut_refl _ _) (by simp) _,
    partsBut_of_keeps (setF_keeps _ _ _ (allows_of_subset (by decide)) (Keeps.refl ..))⟩
  exact (getF_setF _ _ _ (by decide)).trans (Nat.mod_eq_of_lt (Nat.lt_of_le_of_lt (Nat.min_le_left _ _) (by decide)))

/-- The mean of the four oscillators. -/
def oscillators (s : State) : Int := roundDiv (((List.range 4).map fun p => (getF s (MON_PM_VAL p) : Int)).sum) 4

theorem oscillators_nonneg (s : State) : 0 ≤ oscillators s := by
  have hsum : 0 ≤ ((List.range 4).map fun p => (getF s (MON_PM_VAL p) : Int)).sum := by
    refine List.sum_nonneg fun x hx => ?_
    obtain ⟨p, -, rfl⟩ := List.mem_map.1 hx
    exact Int.natCast_nonneg _
  rw [oscillators, roundDiv, if_pos hsum]
  exact Int.ediv_nonneg (by omega) (by decide)

theorem lifeDrift_first (hlo : 480 ≤ getI s (MON_TS_T 0)) (hhi : getI s (MON_TS_T 0) ≤ 520) (hb : s.mon.savedBase = none) :
    answers .lifeDrift s (fun t => t.mon.savedBase = some (roundDiv (((List.range 4).map fun p => (getF s (MON_PM_VAL p) : Int)).sum) 4).toNat ∧
      t.regs = s.regs ∧ partsBut s t [.mon]) := by
  have heq : lifeDrift s = modMon s fun x => { x with savedBase := some (oscillators s).toNat } := by
    unfold lifeDrift
    rw [hb]
    exact if_neg (by omega)
  refine ⟨lifeDrift s, rfl, ?_⟩
  rw [heq]
  exact ⟨rfl, rfl, partsBut_of_keeps (modMon_keeps _ _ (allows_of_subset (by decide)) (Keeps.refl ..))⟩

/-- The drift from a base, in 0.01 %. -/
def driftFrom (s : State) (b : Nat) : Nat := if b ≤ (oscillators s).toNat then 0 else min 65535 ((b - (oscillators s).toNat) * 10000 / b)

theorem lifeDrift_later (hlo : 480 ≤ getI s (MON_TS_T 0)) (hhi : getI s (MON_TS_T 0) ≤ 520) (hb : s.mon.savedBase = some b) :
    answers .lifeDrift s (fun t => t.mon.savedBase = some b ∧ getF t MON_AGE_RO =
        (if (b : Int) ≤ roundDiv (((List.range 4).map fun p => (getF s (MON_PM_VAL p) : Int)).sum) 4 then 0 else
          min 65535 ((b - (roundDiv (((List.range 4).map fun p => (getF s (MON_PM_VAL p) : Int)).sum) 4).toNat) * 10000 / b)) ∧
        partsBut s t [.regs, .mon, .recd]) := by
  have hkeeps := lifeDrift_keeps (R := (· ∈ [Part.regs, .mon, .recd])) s (allows_of_subset (by decide)) (Keeps.refl ..)
  have hlt : driftFrom s b < 65536 := by
    rw [driftFrom]
    split <;> omega
  have hval : driftFrom s b = if (b : Int) ≤ oscillators s then 0 else min 65535 ((b - (oscillators s).toNat) * 10000 / b) := by
    have hn := oscillators_nonneg s
    rw [driftFrom]
    exact if_congr (by omega) rfl rfl
  have heq : lifeDrift s = if s.mon.roMult < driftFrom s b / 50 then record (modMon (modMon (setF s MON_AGE_RO (driftFrom s b)) fun x => { x with savedRo := driftFrom s b })
        fun x => { x with roMult := driftFrom s b / 50 }) 0xD00B noInst (leBytes 2 (driftFrom s b))
      else modMon (setF s MON_AGE_RO (driftFrom s b)) fun x => { x with savedRo := driftFrom s b } := by
    unfold lifeDrift
    rw [hb]
    exact if_neg (by omega)
  have hset : getF (setF s MON_AGE_RO (driftFrom s b)) MON_AGE_RO = driftFrom s b := (getF_setF _ _ _ (by decide)).trans (Nat.mod_eq_of_lt hlt)
  refine ⟨lifeDrift s, rfl, ?_⟩
  rw [← oscillators, ← hval]
  rw [heq] at hkeeps ⊢
  refine ⟨?_, ?_, partsBut_of_keeps hkeeps⟩
  · split
    · rw [(keeps_record _ _ _ _).same .mon (by decide)]
      exact hb
    · exact hb
  · split
    · rw [getF_record _ _ _ _ (by decide)]
      exact hset
    · exact hset

/-! ### The evaluation, the read-back and the overvoltage (R428, R432, R433) -/

theorem avsEvaluation_low (hrun : s.sys.inReset = false) (hruns : 100 ≤ s.mon.slackRuns.length) (hauto : autoRuns s = true) (hv : getF s MON_AVS_STAT_VREQ < 880) :
    ((sMin s).1 < getF s MON_SLACK_CFG_S_CRIT → answers .avsEvaluation s (fun t => getF t MON_AVS_STAT_VREQ = min 880 (getF s MON_AVS_STAT_VREQ + 20) ∧
        flag t MON_STAT_BUSY = true ∧ t.mon.savedReq = getF t MON_AVS_STAT_VREQ)) ∧
    (getF s MON_SLACK_CFG_S_CRIT ≤ (sMin s).1 → (sMin s).1 < getF s MON_SLACK_CFG_S_LOW → answers .avsEvaluation s (fun t =>
        getF t MON_AVS_STAT_VREQ = min 880 (getF s MON_AVS_STAT_VREQ + 5) ∧ flag t MON_STAT_BUSY = true ∧ t.mon.savedReq = getF t MON_AVS_STAT_VREQ)) := by
  have hexec : exec .avsEvaluation s = .next (if s.sys.inReset then s else avsEvaluate s) := rfl
  rw [if_neg (by simp [hrun])] at hexec
  have hnot : ¬s.mon.slackRuns.length < runsPerSec := by
    rw [runsPerSec]
    omega
  have hraise : ∀ n cause, avsEvaluate s = avsRequest (modMon s fun x => { x with surplus := 0 }) (min vTop (getF s MON_AVS_STAT_VREQ + n)) cause →
      answers .avsEvaluation s (fun t => getF t MON_AVS_STAT_VREQ = min 880 (getF s MON_AVS_STAT_VREQ + n) ∧
        flag t MON_STAT_BUSY = true ∧ t.mon.savedReq = getF t MON_AVS_STAT_VREQ) := fun n cause heq => by
    have hreq := avsRequest_shown (modMon s fun x => { x with surplus := 0 }) (mv := min vTop (getF s MON_AVS_STAT_VREQ + n)) (by rw [vTop]; omega) cause
    rw [← heq] at hreq
    exact ⟨avsEvaluate s, hexec, hreq.vreq, hreq.busy, by rw [hreq.mon, hreq.vreq]⟩
  refine ⟨fun hcrit => hraise 20 1 ?_, fun hcrit hlow => hraise 5 0 ?_⟩
  · rw [avsEvaluate, if_neg hnot]
    simp only [hauto, if_true]
    exact if_pos ⟨hcrit, hv⟩
  · rw [avsEvaluate, if_neg hnot]
    simp only [hauto, if_true]
    rw [if_neg (by omega), if_pos hlow]
    exact if_pos hv

theorem readback_agrees {a : Bool} {mv : Nat} (hbusy : flag s MON_STAT_BUSY = true) (hok : readbackOk s a mv = true) :
    answers (.avsReadback a mv) s (fun t => flag t MON_STAT_BUSY = false ∧ t.mon.avsFails = 0 ∧
        getF t MON_AVS_STAT_VREAD = min 1023 mv ∧ getF t MON_AVS_STAT_VREQ = getF s MON_AVS_STAT_VREQ ∧ partsBut s t [.regs, .mon]) := by
  have ha : a = true := by
    cases a
    · exact absurd hok (by simp [readbackOk])
    · rfl
  subst ha
  have heq : avsReadback s true mv = if s.mon.avsAck then
      setB (modMon (modMon (setF (setB s MON_STAT_BUSY false) MON_AVS_STAT_VREAD (min 1023 mv)) fun x => { x with avsFails := 0 })
        fun x => { x with avsDead := false, avsAck := false }) MON_FLT_AVS_FLT false
      else modMon (setF (setB s MON_STAT_BUSY false) MON_AVS_STAT_VREAD (min 1023 mv)) fun x => { x with avsFails := 0 } := by
    rw [avsReadback, hbusy, hok]
    rfl
  have hb : flag (setF (setB s MON_STAT_BUSY false) MON_AVS_STAT_VREAD (min 1023 mv)) MON_STAT_BUSY = false :=
    (flag_setF_apart (by decide) _).trans (flag_setB _ _ _ (by decide))
  have hr : getF (setF (setB s MON_STAT_BUSY false) MON_AVS_STAT_VREAD (min 1023 mv)) MON_AVS_STAT_VREAD = min 1023 mv :=
    (getF_setF _ _ _ (by decide)).trans (Nat.mod_eq_of_lt (Nat.lt_of_le_of_lt (Nat.min_le_left _ _) (by decide)))
  have hq : getF (setF (setB s MON_STAT_BUSY false) MON_AVS_STAT_VREAD (min 1023 mv)) MON_AVS_STAT_VREQ = getF s MON_AVS_STAT_VREQ :=
    (getF_setF_apart (by decide) _).trans (getF_setB_apart (by decide) _)
  refine ⟨avsReadback s true mv, rfl, ?_⟩
  have hkeeps : Keeps (· ∈ [Part.regs, .mon]) s (avsReadback s true mv) := by
    have hbase : Keeps (· ∈ [Part.regs, .mon]) s (modMon (setF (setB s MON_STAT_BUSY false) MON_AVS_STAT_VREAD (min 1023 mv)) fun x => { x with avsFails := 0 }) :=
      modMon_keeps _ _ (allows_of_subset (by decide)) (setF_keeps _ _ _ (allows_of_subset (by decide)) (setB_keeps _ _ _ (allows_of_subset (by decide)) (Keeps.refl ..)))
    rw [heq]
    split
    · exact setB_keeps _ _ _ (allows_of_subset (by decide)) (modMon_keeps _ _ (allows_of_subset (by decide)) hbase)
    · exact hbase
  rw [heq] at hkeeps ⊢
  by_cases hack : s.mon.avsAck = true
  · rw [if_pos hack] at hkeeps ⊢
    exact ⟨(flag_setB_apart (by decide) _).trans hb, rfl, (getF_setB_apart (by decide) _).trans hr, (getF_setB_apart (by decide) _).trans hq, partsBut_of_keeps hkeeps⟩
  · rw [if_neg hack] at hkeeps ⊢
    exact ⟨hb, rfl, hr, hq, partsBut_of_keeps hkeeps⟩

/-- A read-back that does not agree is counted, before the third in a row raises its fault. -/
def readbackFailed (s : State) (a : Bool) (mv : Nat) : State :=
  bump (modMon (if a then setF (setB s MON_STAT_BUSY false) MON_AVS_STAT_VREAD (min 1023 mv) else setB s MON_STAT_BUSY false)
    fun x => { x with avsFails := (s.mon.avsFails + 1) % 3 }) MON_CNT_AVSERR_CNT

/-- The third in a row. -/
def regulatorLost (s : State) : State :=
  monFault (record (modMon s fun x => { x with avsDead := true, avsAck := false }) 0xD00A noInst
    (leBytes 2 (getF s MON_AVS_STAT_VREQ) ++ leBytes 2 (getF s MON_AVS_STAT_VREAD))) MON_FLT_AVS_FLT

theorem readbackFailed_shown (s : State) (a : Bool) (mv : Nat) : flag (readbackFailed s a mv) MON_STAT_BUSY = false ∧
    getF (readbackFailed s a mv) MON_CNT_AVSERR_CNT = min (getF s MON_CNT_AVSERR_CNT + 1) (2 ^ MON_CNT_AVSERR_CNT.width - 1) ∧
    (readbackFailed s a mv).mon = { s.mon with avsFails := (s.mon.avsFails + 1) % 3 } := by
  unfold readbackFailed
  refine ⟨?_, ?_, ?_⟩
  · refine (flag_congr (f := MON_STAT_BUSY) (rd_setF_ne _ _ _ _ (by decide))).trans ?_
    split
    · exact (flag_setF_apart (by decide) _).trans (flag_setB _ _ _ (by decide))
    · exact flag_setB _ _ _ (by decide)
  · rw [getF_bump _ _ _ (by decide)]
    refine congrArg (fun n => min (n + 1) (2 ^ MON_CNT_AVSERR_CNT.width - 1)) ?_
    split
    · exact (getF_setF_apart (by decide) _).trans (getF_setB_apart (by decide) _)
    · exact getF_setB_apart (by decide) _
  · split <;> rfl

theorem readback_fails {a : Bool} {mv : Nat} (hbusy : flag s MON_STAT_BUSY = true) (hok : readbackOk s a mv = false) :
    answers (.avsReadback a mv) s (fun t => flag t MON_STAT_BUSY = false ∧
        getF t MON_CNT_AVSERR_CNT = min (getF s MON_CNT_AVSERR_CNT + 1) (2 ^ MON_CNT_AVSERR_CNT.width - 1) ∧
        (s.mon.avsFails + 1 < 3 → t.mon.avsFails = s.mon.avsFails + 1 ∧ t.mon.avsDead = s.mon.avsDead) ∧
        (s.mon.avsFails = 2 → t.mon.avsDead = true ∧ flag t MON_FLT_AVS_FLT = true) ∧ partsBut s t [.regs, .mon, .hif, .recd]) := by
  have hkeeps := avsReadback_keeps (R := (· ∈ [Part.regs, .mon, .hif, .recd])) s a mv (allows_of_subset (by decide)) (Keeps.refl ..)
  have heq : avsReadback s a mv = if s.mon.avsFails + 1 < 3 then readbackFailed s a mv else regulatorLost (readbackFailed s a mv) := by
    rw [avsReadback, hbusy, hok]
    cases a <;> rfl
  obtain ⟨hb, hc, hmon⟩ := readbackFailed_shown s a mv
  refine ⟨avsReadback s a mv, rfl, ?_⟩
  rw [heq] at hkeeps ⊢
  generalize readbackFailed s a mv = u at hb hc hmon hkeeps
  by_cases hlow : s.mon.avsFails + 1 < 3
  · rw [if_pos hlow] at hkeeps ⊢
    refine ⟨hb, hc, fun _ => ?_, fun h2 => absurd hlow (by omega), partsBut_of_keeps hkeeps⟩
    rw [hmon]
    exact ⟨Nat.mod_eq_of_lt hlow, rfl⟩
  · rw [if_neg hlow] at hkeeps ⊢
    unfold regulatorLost at hkeeps ⊢
    generalize leBytes 2 (getF u MON_AVS_STAT_VREQ) ++ leBytes 2 (getF u MON_AVS_STAT_VREAD) = val at hkeeps ⊢
    have hrec := regsBut_record (modMon u fun x => { x with avsDead := true, avsAck := false }) 0xD00A noInst val
    obtain ⟨hflag, hregs, hfm⟩ := monFault_shown (record (modMon u fun x => { x with avsDead := true, avsAck := false }) 0xD00A noInst val)
      (f := MON_FLT_AVS_FLT) (by decide)
    have hall : regsBut u (monFault (record (modMon u fun x => { x with avsDead := true, avsAck := false }) 0xD00A noInst val) MON_FLT_AVS_FLT)
        (MON_FLT :: MON_IRQ :: tally) :=
      regsBut_before (regsBut_trans (regsBut_mono hrec fun j hj => List.mem_cons_of_mem _ (List.mem_cons_of_mem _ (lossCounters_subset_tally hj))) hregs) rfl
    refine ⟨(flag_of_regsBut hall (by decide)).trans hb, (getF_of_regsBut hall (by decide)).trans hc, fun h3 => absurd h3 hlow, fun _ => ⟨?_, hflag⟩,
      partsBut_of_keeps hkeeps⟩
    rw [hfm, (keeps_record _ _ _ _).same .mon (by decide)]
    rfl

theorem overvoltage_shown (hv : 920 < v0) : answers (.vcoreOvervoltage v0) s (fun t => getF t MON_CTRL_AVS = 2 ∧ getF t MON_AVS_SET_MV = 800 ∧
      getF t MON_AVS_STAT_VREQ = 800 ∧ flag t MON_STAT_BUSY = true ∧ flag t MON_FLT_VOV = true ∧ partsBut s t [.regs, .mon, .hif, .recd]) := by
  have hkeeps := vcoreOver_keeps (R := (· ∈ [Part.regs, .mon, .hif, .recd])) s v0 (allows_of_subset (by decide)) (Keeps.refl ..)
  have heq : vcoreOver s v0 = monFault (setF (setF (avsRequest (record s 0xD006 noInst (leBytes 2 v0)) 800 1) MON_CTRL_AVS avsFixed) MON_AVS_SET_MV 800) MON_FLT_VOV :=
    if_neg (by omega)
  have hreq := avsRequest_shown (record s 0xD006 noInst (leBytes 2 v0)) (show 800 < 1024 by decide) 1
  refine ⟨vcoreOver s v0, rfl, ?_⟩
  rw [heq] at hkeeps ⊢
  generalize avsRequest (record s 0xD006 noInst (leBytes 2 v0)) 800 1 = u at hreq hkeeps
  obtain ⟨hflag, hregs, -⟩ := monFault_shown (setF (setF u MON_CTRL_AVS avsFixed) MON_AVS_SET_MV 800) (f := MON_FLT_VOV) (by decide)
  refine ⟨?_, ?_, ?_, ?_, hflag, partsBut_of_keeps hkeeps⟩
  · exact (getF_of_regsBut hregs (by decide)).trans ((getF_setF_apart (by decide) _).trans (getF_setF _ _ _ (by decide)))
  · exact (getF_of_regsBut hregs (by decide)).trans (getF_setF _ _ _ (by decide))
  · exact (getF_of_regsBut hregs (by decide)).trans ((getF_setF_apart (by decide) _).trans ((getF_setF_apart (by decide) _).trans hreq.vreq))
  · exact (flag_of_regsBut hregs (by decide)).trans ((flag_setF_apart (by decide) _).trans ((flag_setF_apart (by decide) _).trans hreq.busy))

/-! ### The mode and the voltage that a host writes (R432) -/

def monCtrlRow : RegRow := ⟨0x0200, 1, 1, 1, 1, 0x00000001#32, 0x00000003#32, 0x00000000#32, 0x00000000#32, 0x00000000#32, 0x00000000#32⟩

def avsSetRow : RegRow := ⟨0x0202, 1, 1, 1, 1, 0x00000320#32, 0x000003FF#32, 0x00000000#32, 0x00000000#32, 0x00000000#32, 0x00000000#32⟩

theorem mode_field : FieldOk MON_CTRL_AVS monCtrlRow := by decide

theorem voltage_field : FieldOk MON_AVS_SET_MV avsSetRow := by decide

theorem mayWrite_mon {i : Nat} (hi : i = MON_CTRL ∨ i = MON_AVS_SET) (s : State) (h : Nat) (m w : Word) : mayWrite s h i m w = (timFree i || ownerOrService s h) := by
  rcases hi with rfl | rfl <;> rfl

theorem avsWritten_keeps_all (s : State) : Keeps (· ∈ [Part.regs, .mon, .recd]) s (avsWritten s) :=
  avsWritten_keeps s (allows_of_subset (by decide)) (Keeps.refl ..)

theorem avsWritten_fixed (hm : getF s MON_CTRL_AVS = 2) : Requested s (avsWritten s) (getF s MON_AVS_SET_MV) := by
  have heq : avsWritten s = avsRequest s (getF s MON_AVS_SET_MV) 2 := if_pos hm
  rw [heq]
  exact avsRequest_shown s (getF_lt s MON_AVS_SET_MV) 2

/-- A written mode leaves the registers of the mode and of the voltage as they are. -/
theorem regsBut_avsWritten (s : State) : regsBut s (avsWritten s) requestRegs := by
  unfold avsWritten
  extract_lets m
  split
  · exact (avsRequest_shown s (getF_lt s MON_AVS_SET_MV) 2).regs
  · split
    · exact (avsRequest_shown s (getF_lt s MON_AVS_STAT_VREQ) 2).regs
    · exact regsBut_refl _ _

theorem modeWrite_shown (hs : serves s h) (how : ownerOrService s h = true) (hv : v < 3) (hstart : startsNow s h (putField MON_CTRL_AVS v)) :
    answers (.avsModeWrite h false v) s (fun t => getF t MON_CTRL_AVS = v ∧
        (v = 2 → getF t MON_AVS_STAT_VREQ = getF s MON_AVS_SET_MV ∧ flag t MON_STAT_BUSY = true) ∧ wroteBut s t h [.regs, .sys, .mon, .recd]) := by
  have hmode : getF (setF (ahead s) MON_CTRL_AVS v) MON_CTRL_AVS = v := (getF_setF _ _ _ (by decide)).trans (Nat.mod_eq_of_lt (by simp; omega))
  have heq : hostItems s h (putField MON_CTRL_AVS v) = (settled s h (avsWritten (setF (ahead s) MON_CTRL_AVS v)), true) := by
    rw [hostItems_field (n := v) mode_field hs hstart]
    · rw [show ∀ a b c i o w, writeEffect a b c i MON_CTRL o w = avsWritten c from fun _ _ _ _ _ _ => rfl, SerialPorts.fieldStored_noWo rfl, scrub_noWo _ mode_field.1 rfl]
    · rw [mayWrite_mon (Or.inl rfl), ownerOrService_ahead, how, Bool.or_true]
    · rfl
    · rw [SerialPorts.presentedField_noAct (by decide)]
      show valid (decide (bitsOf (bitsSet (rd s MON_CTRL) 1 0 v) 1 0 ≠ 3)) = .ok
      rw [bitsOf_bitsSet _ _ _ _ (by decide) (by decide), Nat.mod_eq_of_lt (by omega), decide_eq_true (by omega)]
      rfl
  have hexec : exec (.avsModeWrite h false v) s = answer (decide (h < 4) && decide (v < 4)) (hostItems s h (putField MON_CTRL_AVS v)).1 := rfl
  refine answers_of_answer hexec (by simp [hs.1]; omega) ?_
  rw [heq]
  have hregs := regsBut_avsWritten (setF (ahead s) MON_CTRL_AVS v)
  refine ⟨(getF_settled _).trans ((getF_of_regsBut hregs (by decide)).trans hmode), fun h2 => ?_,
    wroteBut_settled (avsWritten_keeps _ (allows_of_subset (by decide)) (setF_keeps _ _ _ (allows_of_subset (by decide)) (Keeps.refl ..))) (by decide) (by decide)⟩
  have hreq := avsWritten_fixed (hmode.trans h2)
  exact ⟨(getF_settled _).trans (hreq.vreq.trans ((getF_setF_apart (by decide) _).trans (getF_ahead s _))), (flag_settled _).trans hreq.busy⟩

theorem voltageWrite_shown (hs : serves s h) (how : ownerOrService s h = true) (hlo : 720 ≤ v) (hhi : v ≤ 880) (hstart : startsNow s h (putField MON_AVS_SET_MV v)) :
    answers (.avsModeWrite h true v) s (fun t => getF t MON_AVS_SET_MV = v ∧ getF t MON_CTRL_AVS = getF s MON_CTRL_AVS ∧
        (getF s MON_CTRL_AVS = 2 → getF t MON_AVS_STAT_VREQ = v) ∧ wroteBut s t h [.regs, .sys, .mon, .recd]) := by
  have hset : getF (setF (ahead s) MON_AVS_SET_MV v) MON_AVS_SET_MV = v := (getF_setF _ _ _ (by decide)).trans (Nat.mod_eq_of_lt (by simp; omega))
  have hctrl : getF (setF (ahead s) MON_AVS_SET_MV v) MON_CTRL_AVS = getF s MON_CTRL_AVS := (getF_setF_apart (by decide) _).trans (getF_ahead s _)
  have heq : hostItems s h (putField MON_AVS_SET_MV v) = (settled s h (if getF s MON_CTRL_AVS = 2 then avsWritten (setF (ahead s) MON_AVS_SET_MV v)
      else setF (ahead s) MON_AVS_SET_MV v), true) := by
    rw [hostItems_field (n := v) voltage_field hs hstart]
    · rw [show ∀ a b c i o w, writeEffect a b c i MON_AVS_SET o w = if getF c MON_CTRL_AVS = 2 then avsWritten c else c from fun _ _ _ _ _ _ => rfl,
        SerialPorts.fieldStored_noWo rfl, scrub_noWo _ voltage_field.1 rfl, hctrl]
    · rw [mayWrite_mon (Or.inr rfl), ownerOrService_ahead, how, Bool.or_true]
    · rfl
    · rw [SerialPorts.presentedField_noAct (by decide)]
      show valid (inRange vBottom vTop (bitsOf (bitsSet (rd s MON_AVS_SET) 9 0 v) 9 0)) = .ok
      rw [bitsOf_bitsSet _ _ _ _ (by decide) (by decide), Nat.mod_eq_of_lt (by omega)]
      simp [inRange, vBottom, vTop, hlo, hhi, valid]
  have hexec : exec (.avsModeWrite h true v) s = answer (decide (h < 4) && decide (v < 1024)) (hostItems s h (putField MON_AVS_SET_MV v)).1 := rfl
  refine answers_of_answer hexec (by simp [hs.1]; omega) ?_
  rw [heq]
  have hbase : Keeps (· ∈ [Part.regs, .sys, .mon, .recd]) (ahead s) (setF (ahead s) MON_AVS_SET_MV v) := setF_keeps _ _ _ (allows_of_subset (by decide)) (Keeps.refl ..)
  split
  next h2 =>
    have hregs := regsBut_avsWritten (setF (ahead s) MON_AVS_SET_MV v)
    have hreq := avsWritten_fixed (hctrl.trans h2)
    exact ⟨(getF_settled _).trans ((getF_of_regsBut hregs (by decide)).trans hset), (getF_settled _).trans ((getF_of_regsBut hregs (by decide)).trans hctrl),
      fun _ => (getF_settled _).trans (hreq.vreq.trans hset), wroteBut_settled (avsWritten_keeps _ (allows_of_subset (by decide)) hbase) (by decide) (by decide)⟩
  next h2 => exact ⟨(getF_settled _).trans hset, (getF_settled _).trans hctrl, fun h3 => absurd h3 h2, wroteBut_settled hbase (by decide) (by decide)⟩

end Requests

/-- Settles O38: the samples and their limits, the slack, the dissipation and the drift, and the core voltage. -/
theorem monitorsAndCoreVoltage : Obligations.MonitorsAndCoreVoltage := by
  unfold Obligations.MonitorsAndCoreVoltage
  refine ⟨⟨fun s l => monSample_shown, fun s k hk => ⟨limit_reached hk, limit_left hk⟩, fun s l => slack_run, fun s d k => dissipation_shown s d k,
      fun s hlo hhi => ⟨lifeDrift_first hlo hhi, fun b => lifeDrift_later hlo hhi⟩⟩,
    fun s hrun hruns hauto hv => avsEvaluation_low hrun hruns hauto hv, fun s a mv hbusy => ⟨readback_agrees hbusy, readback_fails hbusy⟩,
    fun s v0 => overvoltage_shown, fun s h v hs how => ⟨modeWrite_shown hs how, voltageWrite_shown hs how⟩⟩

end Sys2Proof.Monitors

namespace Sys2Proof.HostWrites

open Sys2Proof Sys2Proof.Machine Sys2Proof.Frame

/-! ### Writes of the relay's registers -/

section Relay

variable {s s0 s1 : State} {h i : Nat} {mask old v : Word}

theorem mayWrite_relay (hi : i = ETH_BYP_CTRL ∨ i = ETH_BYP_STAT) : mayWrite s h i mask v = ownerOrService s h := by rcases hi with rfl | rfl <;> rfl

theorem storeValue_relay (hi : i = ETH_BYP_CTRL ∨ i = ETH_BYP_STAT) : storeValue s h i v = some v := by rcases hi with rfl | rfl <;> rfl

theorem stateRule_relay (hi : i = ETH_BYP_CTRL ∨ i = ETH_BYP_STAT) : stateRule s h i mask old v = ethCheck s i v := by rcases hi with rfl | rfl <;> rfl

end Relay

end Sys2Proof.HostWrites

namespace Sys2Proof.Ethernet

open Sys2Proof Sys2Proof.Machine Sys2Proof.Frame Sys2Proof.HostWrites

/-! ### The relay (R346 to R348) -/

section Relay

variable {s t : State} {h p t₀ τ cause : Nat} {on up : Bool}

/-- A link that changes, before it is counted. -/
def linkChanged (s : State) (p τ : Nat) (up : Bool) : State :=
  let u := setB s (ETH_PT_STAT_LINK p) up
  { u with eth := { u.eth with downAt := sparseSet (fun _ => none) u.eth.downAt p (if up then none else some τ) } }

theorem setLink_eq (s : State) (p τ : Nat) (up : Bool) : setLink s p τ up =
    if linkUp s p = up then s else if up then bump (linkChanged s p τ up) (ETH_PT_STAT_LINKUPS p) else linkChanged s p τ up := rfl

theorem linkChanged_shown (s : State) (p τ : Nat) (up : Bool) : linkUp (linkChanged s p τ up) p = up ∧ regsBut s (linkChanged s p τ up) [ETH_PT_STAT p] ∧
    sparseGet (fun _ => none) (linkChanged s p τ up).eth.downAt p = if up then none else some τ :=
  ⟨flag_setB _ _ _ ⟨by simp, by simp⟩, regsBut_put (t := setB s (ETH_PT_STAT_LINK p) up) (regsBut_setB (regsBut_refl _ _) (by simp) _) rfl,
    sparseGet_set (fun _ => none) s.eth.downAt p _⟩

/-- A port's link afterwards. -/
theorem linkUp_setLink (s : State) (p τ : Nat) (up : Bool) : linkUp (setLink s p τ up) p = up := by
  rw [setLink_eq]
  split
  · assumption
  · have hw := (linkChanged_shown s p τ up).1
    split
    · exact (flag_bump_apart ⟨by simp, by simp, Or.inr (Or.inr (by simp))⟩ _).trans hw
    · exact hw

theorem regsBut_setLink (s : State) (p τ : Nat) (up : Bool) : regsBut s (setLink s p τ up) [ETH_PT_STAT p] := by
  rw [setLink_eq]
  split
  · exact regsBut_refl _ _
  · have hw := (linkChanged_shown s p τ up).2.1
    split
    · exact regsBut_bump hw (by simp) _
    · exact hw

theorem setLink_downAt (h : linkUp s p ≠ up) (τ : Nat) :
    sparseGet (fun _ => none) (setLink s p τ up).eth.downAt p = if up then none else some τ := by
  have hw := (linkChanged_shown s p τ up).2.2
  rw [setLink_eq, if_neg h]
  cases up <;> exact hw

theorem setCoil_shown (s : State) (τ : Nat) (on : Bool) : flag (setCoil s τ on) ETH_BYP_STAT_COIL = on ∧
    (∀ f : Field, Apart ETH_BYP_STAT_COIL f → getF (setCoil s τ on) f = getF s f) ∧ regsBut s (setCoil s τ on) [ETH_BYP_STAT] := by
  unfold setCoil
  split
  next heq => exact ⟨heq, fun _ _ => rfl, regsBut_refl _ _⟩
  next => exact ⟨flag_setB _ _ _ (by decide), fun f hf => getF_setB_apart hf _,
    regsBut_put (t := setB s ETH_BYP_STAT_COIL on) (regsBut_setB (regsBut_refl _ _) (by simp) _) rfl⟩

/-- The relay energised, with both links given up. -/
def energised (s : State) (τ cause : Nat) : State :=
  let u := setF (setCoil s τ true) ETH_BYP_STAT_STATE byInserting
  { u with eth := { u.eth with cause := cause } }

theorem insertStart_eq (s : State) (τ cause : Nat) : insertStart s τ cause = energised (setLink (setLink s 0 τ false) 1 τ false) τ cause := rfl

theorem insertStart_shown (s : State) (τ cause : Nat) : inserting (insertStart s τ cause) cause := by
  have h1 := linkUp_setLink (setLink s 0 τ false) 1 τ false
  have h0 : linkUp (setLink (setLink s 0 τ false) 1 τ false) 0 = false :=
    (flag_of_regsBut (regsBut_setLink _ 1 τ false) (by decide)).trans (linkUp_setLink s 0 τ false)
  rw [insertStart_eq]
  generalize setLink (setLink s 0 τ false) 1 τ false = u at h0 h1
  obtain ⟨hcoil, -, hregs⟩ := setCoil_shown u τ true
  have hlink : ∀ q < 2, linkUp (energised u τ cause) q = linkUp u q := fun q hq =>
    (flag_congr (f := ETH_PT_STAT_LINK q) (rd_setF_ne _ _ _ _ (by simp only [ETH_PT_STAT, ETH_BYP_STAT]; omega))).trans
      (flag_of_regsBut hregs (by simp only [List.mem_singleton, ETH_PT_STAT, ETH_BYP_STAT]; omega))
  exact ⟨getF_setF _ _ _ (by decide), (flag_setF_apart (by decide) _).trans hcoil, (hlink 0 (by decide)).trans h0, (hlink 1 (by decide)).trans h1, rfl⟩

/-- The relay released, with the cause noted. -/
def released (s : State) (τ cause : Nat) : State :=
  let u := setF (setCoil s τ false) ETH_BYP_STAT_STATE byReturning
  { u with eth := { u.eth with cause := cause } }

theorem returnStart_eq (s : State) (τ cause : Nat) : returnStart s τ cause =
    if flag (released s τ cause) ETH_BYP_STAT_SENSE then released s τ cause else returnEnd (released s τ cause) := rfl

theorem returnEnd_shown (s : State) : relayState (returnEnd s) = byBypass ∧ (∀ f : Field, f.reg = ETH_BYP_STAT → Apart ETH_BYP_STAT_STATE f → getF (returnEnd s) f = getF s f) ∧
    (returnEnd s).eth = s.eth := by
  have heth : (returnEnd s).eth = s.eth := (returnEnd_keeps (R := (· ∈ [Part.regs, .recd])) s (allows_of_subset (by decide)) (Keeps.refl ..)).same .eth (by decide)
  have heq : returnEnd s = record (bump (setF s ETH_BYP_STAT_STATE byBypass) ETH_BYP_CNT_RET) 0xA002 noInst (leBytes 1 s.eth.cause) := rfl
  have hrec : ∀ f : Field, f.reg = ETH_BYP_STAT → getF (returnEnd s) f = getF (setF s ETH_BYP_STAT_STATE byBypass) f := fun f hf => by
    rw [heq]
    exact (getF_record _ _ _ _ (by rw [hf]; decide)).trans (getF_congr (f := f) (rd_setF_ne _ _ _ _ (by rw [hf]; decide)))
  exact ⟨(hrec _ rfl).trans (getF_setF _ _ _ (by decide)), fun f hf ha => (hrec f hf).trans (getF_setF_apart ha _), heth⟩

theorem returnStart_shown (s : State) (τ cause : Nat) : returning s (returnStart s τ cause) cause := by
  obtain ⟨hcoil, hkept, -⟩ := setCoil_shown s τ false
  have hst : relayState (released s τ cause) = byReturning := getF_setF _ _ _ (by decide)
  have hco : flag (released s τ cause) ETH_BYP_STAT_COIL = false := (flag_setF_apart (by decide) _).trans hcoil
  have hse : flag (released s τ cause) ETH_BYP_STAT_SENSE = flag s ETH_BYP_STAT_SENSE := by
    rw [flag, flag]
    exact congrArg (fun n => decide (n ≠ 0)) ((getF_setF_apart (by decide) _).trans (hkept _ (by decide)))
  have hca : (released s τ cause).eth.cause = cause := rfl
  rw [returnStart_eq, hse]
  generalize released s τ cause = u at hst hco hca
  obtain ⟨hby, hrest, heth⟩ := returnEnd_shown u
  rw [returning]
  split
  · exact ⟨hst, hco, hca⟩
  · refine ⟨hby, ?_, by rw [heth]; exact hca⟩
    rw [flag, hrest _ rfl (by decide)]
    exact hco

/-! #### The writes of a host -/

def bypCtrlRow : RegRow := ⟨0x2940, 1, 1, 1, 1, 0x00320A08#32, 0x00FFFF0C#32, 0x00000000#32, 0x00000000#32, 0x00000000#32, 0x00000003#32⟩

def bypStatRow : RegRow := ⟨0x2941, 1, 1, 1, 1, 0x00000000#32, 0x00000000#32, 0x00000100#32, 0x00000000#32, 0x00000000#32, 0x00000000#32⟩

theorem maskOk_bypCtrl : MaskOk ETH_BYP_CTRL bypCtrlRow 1#32 ∧ MaskOk ETH_BYP_CTRL bypCtrlRow 2#32 := by decide

/-- The word that a write of one of the relay's two requests takes. -/
def relayWord (s : State) (m : Word) : Word := takenWord bypCtrlRow (rd s ETH_BYP_CTRL) m m

theorem relayWord_requests (s : State) : (relayWord s 1#32).getLsbD 0 = true ∧ (relayWord s 1#32).getLsbD 1 = false ∧
    (relayWord s 2#32).getLsbD 0 = false ∧ (relayWord s 2#32).getLsbD 1 = true :=
  ⟨(getLsbD_takenWord (by decide) (by decide)).trans (by rw [if_pos (by decide)]; decide),
    (getLsbD_takenWord (by decide) (by decide)).trans (by rw [if_neg (by decide), if_pos (by decide)]),
    (getLsbD_takenWord (by decide) (by decide)).trans (by rw [if_neg (by decide), if_pos (by decide)]),
    (getLsbD_takenWord (by decide) (by decide)).trans (by rw [if_pos (by decide)]; decide)⟩

theorem relayWord_times (s : State) {m : Word} (hm : m = 1#32 ∨ m = 2#32) : bitsOf (relayWord s m) 15 8 = getF s ETH_BYP_CTRL_LOSS_T ∧
    bitsOf (relayWord s m) 23 16 = getF s ETH_BYP_CTRL_LINK_T := by
  rcases hm with rfl | rfl
  · exact ⟨bitsOf_takenWord_out (by decide) (by decide), bitsOf_takenWord_out (by decide) (by decide)⟩
  · exact ⟨bitsOf_takenWord_out (by decide) (by decide), bitsOf_takenWord_out (by decide) (by decide)⟩

theorem bitsOf_pair_ne {w : Word} (h : w.getLsbD 0 = false ∨ w.getLsbD 1 = false) : bitsOf w 1 0 ≠ 3 := by
  intro h3
  have h0 : w.getLsbD 0 = true := (Bool.and_eq_true_iff.1 ((testBit_bitsOf w 1 0 0).symm.trans (by rw [h3]; decide))).2
  have h1 : w.getLsbD 1 = true := (Bool.and_eq_true_iff.1 ((testBit_bitsOf w 1 0 1).symm.trans (by rw [h3]; decide))).2
  rcases h with h | h
  · exact absurd (h0.symm.trans h) (by decide)
  · exact absurd (h1.symm.trans h) (by decide)

theorem ethCheck_relay {w : Word} (hreq : w.getLsbD 0 = false ∨ w.getLsbD 1 = false) (hloss : bitsOf w 15 8 ≠ 0) (hlink : bitsOf w 23 16 ≠ 0)
    (hok : w.getLsbD 0 = true → insertOk s = true) : ethCheck s ETH_BYP_CTRL w = .ok := by
  have hshape : ethCheck s ETH_BYP_CTRL w = if bitsOf w 1 0 = 3 ∨ bitsOf w 15 8 = 0 ∨ bitsOf w 23 16 = 0 then .invalid
      else inState (decide (bitsOf w 0 0 = 0) || insertOk s) .ok := rfl
  rw [hshape, if_neg (by simp [bitsOf_pair_ne hreq, hloss, hlink])]
  by_cases h0 : w.getLsbD 0 = true
  · rw [hok h0, Bool.or_true]
    rfl
  · have hz : bitsOf w 0 0 = 0 := by
      refine Nat.eq_of_testBit_eq fun j => ?_
      rw [testBit_bitsOf]
      by_cases hj : j < 1
      · have : j = 0 := by omega
        subst this
        simpa using h0
      · simp [hj]
    rw [hz]
    rfl

/-- What the requests do, once they are taken. -/
def relayEffect (s : State) (w : Word) : State :=
  let u := setF (wr (ahead s) ETH_BYP_CTRL w) ⟨ETH_BYP_CTRL, 1, 0⟩ 0
  if w.getLsbD 0 then insertStart u (nextBoundary s) 0 else if w.getLsbD 1 then bypassWrite u (nextBoundary s) else u

theorem hostItems_relay {m : Word} (hm : m = 1#32 ∨ m = 2#32) (hs : serves s h) (how : ownerOrService s h = true)
    (hlink : getF s ETH_BYP_CTRL_LINK_T ≠ 0) (hloss : getF s ETH_BYP_CTRL_LOSS_T ≠ 0) (hok : m = 1#32 → insertOk s = true)
    (hstart : startsNow s h [item ETH_BYP_CTRL m m]) :
    hostItems s h [item ETH_BYP_CTRL m m] = (settled s h (scrub (relayEffect s (relayWord s m)) ETH_BYP_CTRL), true) := by
  have hi : MaskOk ETH_BYP_CTRL bypCtrlRow m := by
    rcases hm with rfl | rfl
    · exact maskOk_bypCtrl.1
    · exact maskOk_bypCtrl.2
  obtain ⟨hr0, hr1, hr2, hr3⟩ := relayWord_requests s
  obtain ⟨ht1, ht2⟩ := relayWord_times s hm
  have hitems := hostItems_taken_word (m := m) (val := m) hi hs hstart ((mayWrite_relay (Or.inl rfl)).trans how) (storeValue_relay (Or.inl rfl))
    (by
      rw [stateRule_relay (Or.inl rfl)]
      refine ethCheck_relay (s := ahead s) (w := relayWord s m) ?_ (by rw [ht1]; exact hloss) (by rw [ht2]; exact hlink) fun h0 => ?_
      · rcases hm with rfl | rfl
        · exact Or.inr hr1
        · exact Or.inl hr2
      · rcases hm with rfl | rfl
        · exact hok rfl
        · exact absurd (hr2.symm.trans h0) (by decide))
  have heff : ∀ o v, writeEffect (ahead s) (ahead s) (wr (ahead s) ETH_BYP_CTRL (relayWord s m)) h ETH_BYP_CTRL o v = relayEffect s (relayWord s m) := fun o v => by
    have hins : flag (wr (ahead s) ETH_BYP_CTRL (relayWord s m)) ETH_BYP_CTRL_INSERT = (relayWord s m).getLsbD 0 := by rw [flag_bit, rd_wr_self]
    have hbyp : flag (wr (ahead s) ETH_BYP_CTRL (relayWord s m)) ETH_BYP_CTRL_BYPASS = (relayWord s m).getLsbD 1 := by rw [flag_bit, rd_wr_self]
    rw [relayEffect, ← hins, ← hbyp]
    rfl
  rw [← heff]
  exact hitems

theorem insert_shown (hs : serves s h) (how : ownerOrService s h = true) (hlink : getF s ETH_BYP_CTRL_LINK_T ≠ 0) (hloss : getF s ETH_BYP_CTRL_LOSS_T ≠ 0)
    (hok : insertOk s = true) (hstart : startsNow s h (putFlag ETH_BYP_CTRL_INSERT true)) : answers (.insert h) s (fun t => inserting t 0) := by
  replace hstart : startsNow s h [item ETH_BYP_CTRL 1#32 1#32] := hstart
  refine answers_of_answer (ok := decide (h < 4) && true) (t := (hostItems s h [item ETH_BYP_CTRL 1#32 1#32]).1) rfl (by simp [hs.1]) ?_
  rw [hostItems_relay (Or.inl rfl) hs how hlink hloss (fun _ => hok) hstart, relayEffect, (relayWord_requests s).1, if_pos rfl]
  obtain ⟨hst, hcoil, h0, h1, hcause⟩ := insertStart_shown (setF (wr (ahead s) ETH_BYP_CTRL (relayWord s 1#32)) ⟨ETH_BYP_CTRL, 1, 0⟩ 0) (nextBoundary s) 0
  generalize insertStart (setF (wr (ahead s) ETH_BYP_CTRL (relayWord s 1#32)) ⟨ETH_BYP_CTRL, 1, 0⟩ 0) (nextBoundary s) 0 = u at hst hcoil h0 h1 hcause
  have hrd : ∀ j, j ≠ ETH_BYP_CTRL → rd (settled s h (scrub u ETH_BYP_CTRL)) j = rd u j := fun j hj => (rd_settled j).trans (rd_scrub_ne u hj)
  refine ⟨(getF_congr (f := ETH_BYP_STAT_STATE) (hrd _ (by decide))).trans hst, (flag_congr (f := ETH_BYP_STAT_COIL) (hrd _ (by decide))).trans hcoil,
    (flag_congr (f := ETH_PT_STAT_LINK 0) (hrd _ (by decide))).trans h0, (flag_congr (f := ETH_PT_STAT_LINK 1) (hrd _ (by decide))).trans h1, ?_⟩
  exact (congrArg EthState.cause ((settled_same s _ h (p := .eth) (by decide) (by decide)).trans (scrub_same u ETH_BYP_CTRL (p := .eth) (by decide)))).trans hcause

theorem bypass_shown (hs : serves s h) (how : ownerOrService s h = true) (hlink : getF s ETH_BYP_CTRL_LINK_T ≠ 0) (hloss : getF s ETH_BYP_CTRL_LOSS_T ≠ 0)
    (hin : relayState s = byInserting ∨ relayState s = byInserted) (hstart : startsNow s h (putFlag ETH_BYP_CTRL_BYPASS true)) :
    answers (.bypass h) s (fun t => returning s t 0) := by
  replace hstart : startsNow s h [item ETH_BYP_CTRL 2#32 2#32] := hstart
  refine answers_of_answer (ok := decide (h < 4) && true) (t := (hostItems s h [item ETH_BYP_CTRL 2#32 2#32]).1) rfl (by simp [hs.1]) ?_
  rw [hostItems_relay (Or.inr rfl) hs how hlink hloss (fun h2 => absurd h2 (by decide)) hstart, relayEffect, (relayWord_requests s).2.2.1, if_neg (by decide),
    (relayWord_requests s).2.2.2, if_pos rfl]
  have hstat : rd (setF (wr (ahead s) ETH_BYP_CTRL (relayWord s 2#32)) ⟨ETH_BYP_CTRL, 1, 0⟩ 0) ETH_BYP_STAT = rd s ETH_BYP_STAT :=
    (rd_setF_ne _ _ _ _ (by decide)).trans ((rd_wr_ne _ _ _ _ (by decide)).trans (rd_ahead s _))
  generalize setF (wr (ahead s) ETH_BYP_CTRL (relayWord s 2#32)) ⟨ETH_BYP_CTRL, 1, 0⟩ 0 = u at hstat
  have hrel : relayState u = relayState s := getF_congr (f := ETH_BYP_STAT_STATE) hstat
  rw [bypassWrite, if_pos (by rw [hrel]; exact hin)]
  obtain ⟨hst, hcoil, hcause⟩ := returnStart_shown u (nextBoundary s) 0
  rw [flag_congr (f := ETH_BYP_STAT_SENSE) hstat] at hst
  generalize returnStart u (nextBoundary s) 0 = w at hst hcoil hcause
  have hrd : ∀ j, j ≠ ETH_BYP_CTRL → rd (settled s h (scrub w ETH_BYP_CTRL)) j = rd w j := fun j hj => (rd_settled j).trans (rd_scrub_ne w hj)
  exact ⟨(getF_congr (f := ETH_BYP_STAT_STATE) (hrd _ (by decide))).trans hst, (flag_congr (f := ETH_BYP_STAT_COIL) (hrd _ (by decide))).trans hcoil,
    (congrArg EthState.cause ((settled_same s _ h (p := .eth) (by decide) (by decide)).trans (scrub_same w ETH_BYP_CTRL (p := .eth) (by decide)))).trans hcause⟩

theorem flagsOk_bypStat : FlagsOk ETH_BYP_STAT bypStatRow := by decide

theorem putFlag_fault : putFlag ETH_BYP_STAT_FLT true = [item ETH_BYP_STAT 0x100#32 0x100#32] := by
  have hmask : bitMask 8 8 = 0x100#32 := by decide
  have hval : BitVec.ofNat 32 (bit true 0 % 2 ^ 1 * 2 ^ 8) = 0x100#32 := by decide
  simp only [putFlag, fieldItem, Field.width, hmask, Nat.sub_self, Nat.zero_add, hval]

theorem faultClear_shown (hs : serves s h) (how : ownerOrService s h = true) (hflt : flag s ETH_BYP_STAT_FLT = true) (hcoil : flag s ETH_BYP_STAT_COIL = false)
    (hsense : flag s ETH_BYP_STAT_SENSE = false) (hstart : startsNow s h (putFlag ETH_BYP_STAT_FLT true)) :
    answers (.relayFaultClear h) s (fun t => flag t ETH_BYP_STAT_FLT = false ∧
        relayState t = (if relayState s = byFault then byBypass else relayState s) ∧ regsBut s t [ETH_BYP_STAT] ∧ wroteBut s t h [.regs, .sys]) := by
  have hexec : exec (.relayFaultClear h) s = answer (decide (h < 4) && true) (hostItems s h (putFlag ETH_BYP_STAT_FLT true)).1 := rfl
  rw [putFlag_fault] at hexec hstart
  refine answers_of_answer hexec (by simp [hs.1]) ?_
  have hbit : (asked bypStatRow (rd s ETH_BYP_STAT) 0x100#32).getLsbD 8 = true := (getLsbD_asked flagsOk_bypStat.2.1 (by decide) _).trans (by decide)
  have hclear : relayFaultClear (ahead s) = if relayState s = byFault then setF (setB (ahead s) ETH_BYP_STAT_FLT false) ETH_BYP_STAT_STATE byBypass
      else setB (ahead s) ETH_BYP_STAT_FLT false := by
    have hst : relayState (setB (ahead s) ETH_BYP_STAT_FLT false) = relayState s := (getF_setB_apart (by decide) _).trans (getF_ahead s _)
    rw [relayFaultClear, flag_ahead, flag_ahead, flag_ahead, hflt, hcoil, hsense, ← hst]
    rfl
  have heff : hostItems s h [item ETH_BYP_STAT 0x100#32 0x100#32] = (settled s h (relayFaultClear (ahead s)), true) := by
    rw [hostItems_asked flagsOk_bypStat hs hstart (fun _ => (mayWrite_relay (Or.inr rfl)).trans how) (fun _ => storeValue_relay (Or.inr rfl))
      (fun _ => stateRule_relay (Or.inr rfl)), if_neg (by decide)]
    have hw : ∀ o v, writeEffect (ahead s) (ahead s) (ahead s) h ETH_BYP_STAT o v = if v.getLsbD 8 then relayFaultClear (ahead s) else ahead s := fun _ _ => rfl
    rw [hw, hbit]
    rfl
  rw [heff, hclear]
  have hkeeps : ∀ {u : State}, Keeps (· ∈ [Part.regs, .sys]) (ahead s) u → Keeps (· ∈ [Part.regs, .sys]) (ahead s) (setF u ETH_BYP_STAT_STATE byBypass) := fun hu =>
    setF_keeps _ _ _ (allows_of_subset (by decide)) hu
  have hbase : Keeps (· ∈ [Part.regs, .sys]) (ahead s) (setB (ahead s) ETH_BYP_STAT_FLT false) := setB_keeps _ _ _ (allows_of_subset (by decide)) (Keeps.refl ..)
  have hregs : regsBut s (setB (ahead s) ETH_BYP_STAT_FLT false) [ETH_BYP_STAT] := regsBut_setB (regsBut_of_regs rfl _) (by simp) _
  have hoff : flag (setB (ahead s) ETH_BYP_STAT_FLT false) ETH_BYP_STAT_FLT = false := flag_setB _ _ _ (by decide)
  split
  · exact ⟨(flag_settled _).trans ((flag_setF_apart (by decide) _).trans hoff), (getF_settled _).trans (getF_setF _ _ _ (by decide)),
      regsBut_settled (regsBut_setF hregs (by simp) _), wroteBut_settled (hkeeps hbase) (by decide) (by decide)⟩
  · exact ⟨(flag_settled _).trans hoff, (getF_settled _).trans ((getF_setB_apart (by decide) _).trans (getF_ahead s _)), regsBut_settled hregs,
      wroteBut_settled hbase (by decide) (by decide)⟩

/-! #### Its own events -/

theorem autoInsert_shown (hauto : flag s ETH_BYP_CTRL_AUTO_INS = true) (hmode : s.boot.nextMode ≠ 2) (hok : insertOk s = true) :
    answers .autoInsert s (fun t => inserting t 1 ∧ partsBut s t [.regs, .eth]) := by
  have hkeeps := autoInsert_keeps (R := (· ∈ [Part.regs, .eth])) s (absTick s (nowTick s)) (allows_of_subset (by decide)) (Keeps.refl ..)
  have heq : autoInsert s (absTick s (nowTick s)) = insertStart s (absTick s (nowTick s)) 1 := if_pos (by simp [hauto, hmode, hok])
  refine ⟨autoInsert s (absTick s (nowTick s)), rfl, ?_, partsBut_of_keeps hkeeps⟩
  rw [heq]
  exact insertStart_shown _ _ _

theorem insertionComplete_shown (hst : relayState s = byInserting) (hsense : flag s ETH_BYP_STAT_SENSE = true) (h0 : linkUp s 0 = true) (h1 : linkUp s 1 = true) :
    answers .insertionComplete s (fun t => relayState t = byInserted ∧ getF t ETH_BYP_CNT_INS = min (getF s ETH_BYP_CNT_INS + 1) 65535 ∧
        regsBut s t (ETH_BYP_STAT :: ETH_BYP_CNT :: tally) ∧ partsBut s t [.regs, .recd]) := by
  have hkeeps := insertionDone_keeps (R := (· ∈ [Part.regs, .recd])) s (allows_of_subset (by decide)) (Keeps.refl ..)
  have heq : insertionDone s = record (bump (setF s ETH_BYP_STAT_STATE byInserted) ETH_BYP_CNT_INS) 0xA001 noInst (leBytes 1 s.eth.cause) :=
    if_pos (by simp [hst, hsense, h0, h1])
  refine ⟨insertionDone s, rfl, ?_⟩
  rw [heq] at hkeeps ⊢
  have hrec := regsBut_record (bump (setF s ETH_BYP_STAT_STATE byInserted) ETH_BYP_CNT_INS) 0xA001 noInst (leBytes 1 s.eth.cause)
  refine ⟨?_, ?_, ?_, partsBut_of_keeps hkeeps⟩
  · exact (getF_of_regsBut hrec (by decide)).trans ((getF_congr (f := ETH_BYP_STAT_STATE) (rd_setF_ne _ _ _ _ (by decide))).trans (getF_setF _ _ _ (by decide)))
  · rw [getF_of_regsBut hrec (by decide), getF_bump _ _ _ (by decide), getF_setF_apart (by decide)]
    rfl
  · exact regsBut_trans (regsBut_bump (regsBut_setF (regsBut_refl _ _) (by simp) _) (by simp) _)
      (regsBut_mono hrec fun j hj => List.mem_cons_of_mem _ (List.mem_cons_of_mem _ (lossCounters_subset_tally hj)))

theorem linkLoss_shown (hauto : flag s ETH_BYP_CTRL_AUTO_BYP = true) (hst : relayState s = byInserted)
    (hgone : ([0, 1].any fun p => (sparseGet (fun _ => none) s.eth.downAt p).any fun u => decide (u + getF s ETH_BYP_CTRL_LOSS_T * per10ms ≤ absTick s (nowTick s))) = true) :
    answers .linkLoss s (fun t => returning s t 1) := by
  obtain ⟨p, hp, hany⟩ := List.any_eq_true.1 hgone
  obtain ⟨u, hu, hlate⟩ := (Option.any_eq_true _ _).1 hany
  have heq : linkLoss s (absTick s (nowTick s)) = returnStart s (absTick s (nowTick s)) 1 := by
    unfold linkLoss
    refine if_pos ?_
    rw [hauto, hst, decide_eq_true rfl, Bool.true_and, Bool.true_and]
    refine List.any_eq_true.2 ⟨p, hp, ?_⟩
    rw [hu]
    exact hlate
  have hexec : exec .linkLoss s = .next (linkLoss s (absTick s (nowTick s))) := rfl
  refine ⟨linkLoss s (absTick s (nowTick s)), hexec, ?_⟩
  rw [heq]
  exact returnStart_shown _ _ _

theorem linkTimeout_shown (hin : inThisStep s t₀ = true) (hst : relayState s = byInserting) (hsense : flag s ETH_BYP_STAT_SENSE = true)
    (hlinks : (linkUp s 0 && linkUp s 1) = false) (hlate : s.eth.senseAt + getF s ETH_BYP_CTRL_LINK_T * per10ms ≤ absTick s t₀) :
    answers (.linkTimeout t₀) s (fun t => returning s t 2) := by
  have heq : linkTimeout s (absTick s t₀) = returnStart s (absTick s t₀) 2 := if_pos (by rw [hst, hsense, hlinks]; simp [hlate])
  refine answers_of_answer (t := linkTimeout s (absTick s t₀)) rfl hin ?_
  rw [heq]
  exact returnStart_shown _ _ _

/-- The sense input takes a level, before the return may end. -/
def senseTaken (s : State) (lvl : Bool) (τ : Nat) : State :=
  let u := setF (setB s ETH_BYP_STAT_SENSE lvl) ETH_BYP_STAT_OPER_T (min 65535 ((τ - s.eth.coilAt) / per10us))
  { u with eth := { u.eth with senseAt := τ } }

theorem senseChange_shown {lvl : Bool} (hin : inThisStep s t₀ = true) (hne : flag s ETH_BYP_STAT_SENSE ≠ lvl) :
    answers (.bypSenseChange lvl t₀) s (fun t => flag t ETH_BYP_STAT_SENSE = lvl ∧
        t.eth.senseAt = absTick s t₀ ∧ relayState t = (if relayState s = byReturning ∧ lvl = false then byBypass else relayState s)) := by
  have hst : relayState (senseTaken s lvl (absTick s t₀)) = relayState s := (getF_setF_apart (by decide) _).trans (getF_setB_apart (by decide) _)
  have hse : flag (senseTaken s lvl (absTick s t₀)) ETH_BYP_STAT_SENSE = lvl := (flag_setF_apart (by decide) _).trans (flag_setB _ _ _ (by decide))
  have hat : (senseTaken s lvl (absTick s t₀)).eth.senseAt = absTick s t₀ := rfl
  have heq : senseChange s lvl (absTick s t₀) = if relayState (senseTaken s lvl (absTick s t₀)) = byReturning ∧ lvl = false then
      returnEnd (senseTaken s lvl (absTick s t₀)) else senseTaken s lvl (absTick s t₀) := if_neg hne
  refine answers_of_answer (t := senseChange s lvl (absTick s t₀)) rfl hin ?_
  rw [heq, hst]
  generalize senseTaken s lvl (absTick s t₀) = u at hst hse hat
  split
  · obtain ⟨hby, hrest, heth⟩ := returnEnd_shown u
    refine ⟨?_, by rw [heth]; exact hat, hby⟩
    rw [flag, hrest _ rfl (by decide)]
    exact hse
  · exact ⟨hse, hat, hst⟩

theorem relayFault_shown (hin : inThisStep s t₀ = true) (hdis : flag s ETH_BYP_STAT_COIL ≠ flag s ETH_BYP_STAT_SENSE) (hst : relayState s ≠ byFault)
    (hlate : max s.eth.coilAt s.eth.senseAt + 2 * per10ms ≤ absTick s t₀) :
    answers (.relayFault t₀) s (fun t => relayState t = byFault ∧ flag t ETH_BYP_STAT_FLT = true ∧ flag t ETH_BYP_STAT_COIL = false ∧
          regsBut s t (ETH_BYP_STAT :: tally) ∧ partsBut s t [.regs, .eth, .recd]) := by
  have hkeeps := relayFault_keeps (R := (· ∈ [Part.regs, .eth, .recd])) s (absTick s t₀) (allows_of_subset (by decide)) (Keeps.refl ..)
  have heq : relayFault s (absTick s t₀) = record (setB (setF (setCoil s (absTick s t₀) false) ETH_BYP_STAT_STATE byFault) ETH_BYP_STAT_FLT true) 0xA003 noInst
      (leBytes 1 (bit (flag s ETH_BYP_STAT_COIL) 0 + bit (flag s ETH_BYP_STAT_SENSE) 1)) := if_pos (by simp [hdis, hst, hlate])
  refine answers_of_answer (t := relayFault s (absTick s t₀)) rfl hin ?_
  rw [heq] at hkeeps ⊢
  obtain ⟨hcoil, -, hregs⟩ := setCoil_shown s (absTick s t₀) false
  generalize leBytes 1 (bit (flag s ETH_BYP_STAT_COIL) 0 + bit (flag s ETH_BYP_STAT_SENSE) 1) = val at hkeeps ⊢
  have hrec := regsBut_record (setB (setF (setCoil s (absTick s t₀) false) ETH_BYP_STAT_STATE byFault) ETH_BYP_STAT_FLT true) 0xA003 noInst val
  refine ⟨?_, ?_, ?_, ?_, partsBut_of_keeps hkeeps⟩
  · exact (getF_of_regsBut hrec (by decide)).trans ((getF_setB_apart (by decide) _).trans (getF_setF _ _ _ (by decide)))
  · exact (flag_of_regsBut hrec (by decide)).trans (flag_setB _ _ _ (by decide))
  · exact (flag_of_regsBut hrec (by decide)).trans ((flag_setB_apart (by decide) _).trans ((flag_setF_apart (by decide) _).trans hcoil))
  · exact regsBut_trans (regsBut_setB (regsBut_setF (regsBut_mono hregs (by simp)) (by simp) _) (by simp) _)
      (regsBut_mono hrec fun j hj => List.mem_cons_of_mem _ (lossCounters_subset_tally hj))

end Relay

end Sys2Proof.Ethernet

namespace Sys2Proof.Ethernet

open Sys2Proof Sys2Proof.Machine Sys2Proof.Frame Sys2Proof.TimeBases

/-! ### Links, addresses and PTP masters (R338, R339, R342 to R344) -/

section Switch

variable {s t u : State} {p q t₀ τ n x : Nat} {up : Bool}

theorem linkChange_shown (hin : inThisStep s t₀ = true) (hp : p < 2) (hq : q < 8) (hen : up = true → flag s ETH_CTRL_EN = true) :
    answers (.phyLinkChange p up q t₀) s (fun t => linkUp t p = up ∧ getF t (ETH_PT_STAT_SQI p) = (if up then q else 0) ∧
        (linkUp s p ≠ up → sparseGet (fun _ => none) t.eth.downAt p = (if up then none else some (absTick s t₀))) ∧
        regsBut s t [ETH_PT_STAT p] ∧ partsBut s t [.regs, .eth]) := by
  have hkeeps := phyLinkChange_keeps (R := (· ∈ [Part.regs, .eth])) s p up q (absTick s t₀) (allows_of_subset (by decide)) (Keeps.refl ..)
  have heq : phyLinkChange s p up q (absTick s t₀) = setF (setLink s p (absTick s t₀) up) (ETH_PT_STAT_SQI p) (if up then q else 0) :=
    if_neg fun hno => by
      obtain ⟨h1, h2⟩ := Bool.and_eq_true_iff.1 hno
      rw [hen h1] at h2
      exact absurd h2 (by decide)
  refine answers_of_answer (t := phyLinkChange s p up q (absTick s t₀)) rfl (by simp [hp, hq, hin]) ?_
  rw [heq] at hkeeps ⊢
  refine ⟨?_, ?_, fun hne => setLink_downAt hne _, regsBut_setF (regsBut_setLink s p _ up) (by simp) _, partsBut_of_keeps hkeeps⟩
  · exact (flag_setF_apart ⟨by simp, by simp, Or.inr (Or.inr (by simp))⟩ _).trans (linkUp_setLink s p _ up)
  · refine (getF_setF _ _ _ ⟨by simp, by simp⟩).trans (Nat.mod_eq_of_lt ?_)
    show _ < 8
    split <;> omega

theorem ageing_shown (hin : inThisStep s t₀ = true) (mac : Nat) : answers (.addressAgeing mac t₀) s (fun t => (∀ a ∈ t.eth.table, a ∈ s.eth.table) ∧
        (∀ a ∈ s.eth.table, a ∈ t.eth.table ↔ (a.mac ≠ mac ∨ absTick s t₀ < a.seen + getF s ETH_SW_CFG_AGE * ticksPerSec)) ∧
        regsBut s t [ETH_SW_STAT] ∧ partsBut s t [.regs, .eth]) := by
  have hkeeps := ageAddr_keeps (R := (· ∈ [Part.regs, .eth])) s mac (absTick s t₀) (allows_of_subset (by decide)) (Keeps.refl ..)
  refine answers_of_answer (t := ageAddr s mac (absTick s t₀)) rfl hin ?_
  have htable : (ageAddr s mac (absTick s t₀)).eth.table =
      s.eth.table.filter fun a => decide (a.mac ≠ mac) || decide (absTick s t₀ < a.seen + getF s ETH_SW_CFG_AGE * ticksPerSec) := rfl
  refine ⟨fun a ha => ?_, fun a ha => ?_, ?_, partsBut_of_keeps hkeeps⟩
  · rw [htable] at ha
    exact (List.mem_filter.1 ha).1
  · rw [htable, List.mem_filter]
    simp only [ha, true_and, Bool.or_eq_true, decide_eq_true_eq]
  · unfold ageAddr
    extract_lets l
    exact regsBut_setF (regsBut_of_regs rfl _) (by simp) _

/-! #### The source of a time base -/

/-- The count of a time base that goes on by itself from a value. -/
theorem tbAt_sourceChange {v : Int} (hsrc : tbSrc s n ≠ 2) (hv : v % tbSpan = v) : tbAt (tbSourceChange s n τ v) n τ = v := by
  have hbase : timeBase (tbSourceChange s n τ v) n = { timeBase s n with at_ := τ, val := v, slew := 0, pend := none } := by
    rw [tbSourceChange, timeBase_showTb]
    exact timeBase_modTb s n _
  have hsrc' : tbSrc (tbSourceChange s n τ v) n ≠ 2 := by
    rw [tbSrc] at hsrc ⊢
    rw [tbSourceChange, getF_of_regsBut (f := TIM_TB_CTRL_SRC n) (regsBut_showTb _ n τ) (by simp only [List.mem_cons, List.not_mem_nil, or_false, TIM_TB_CTRL, TIM_TB_SLEWREM, TIM_TB_STAT]; omega),
      getF_of_regs (modTb_regs ..)]
    exact hsrc
  rw [tbAt_own hsrc', tbOwn, hbase]
  simp only [Nat.sub_self, slewPart]
  have hclamp : clampI (-(((0 : Nat) : Int) * (5 * ((timeBase s n).slewr : Int) * 2 ^ 40))) (((0 : Nat) : Int) * (5 * ((timeBase s n).slewr : Int) * 2 ^ 40)) 0 = 0 := by
    simp [clampI]
  rw [hclamp]
  simpa using hv

theorem tbAt_mod (s : State) (n τ : Nat) : tbAt s n τ % tbSpan = tbAt s n τ := by
  rw [tbAt]
  exact Int.emod_emod_of_dvd _ (dvd_refl _)

/-- An instance that gives its time base back: the count goes on from where it stands, as the host's. -/
theorem ptpSource_host (h0 : n ≠ 0) (s : State) (τ : Nat) : tbSrc (ptpSource s n 0 τ) n = 0 ∧ tbAt (ptpSource s n 0 τ) n τ = tbAt s n τ ∧
    regsBut s (ptpSource s n 0 τ) [TIM_TB_CTRL n, TIM_TB_SLEWREM n, TIM_TB_STAT n] := by
  have hsrc : ∀ u : State, tbSrc u n = getF u (TIM_TB_CTRL_SRC n) := fun u => if_neg h0
  by_cases hsame : tbSrc s n = 0
  · have heq : ptpSource s n 0 τ = s := if_pos ⟨hsame, Or.inl (by decide)⟩
    rw [heq]
    exact ⟨hsame, rfl, regsBut_refl _ _⟩
  · have heq : ptpSource s n 0 τ = tbSourceChange (setF s (TIM_TB_CTRL_SRC n) 0) n τ (tbAt s n τ) := if_neg fun hno => hsame hno.1
    have hset : tbSrc (setF s (TIM_TB_CTRL_SRC n) 0) n = 0 := (hsrc _).trans (getF_setF _ _ _ ⟨by simp, by simp⟩)
    have hregs : regsBut (setF s (TIM_TB_CTRL_SRC n) 0) (ptpSource s n 0 τ) [TIM_TB_SLEWREM n, TIM_TB_STAT n] := by
      rw [heq]
      exact regsBut_before (regsBut_showTb _ n τ) (modTb_regs ..)
    refine ⟨?_, ?_, regsBut_trans (regsBut_setF (regsBut_refl _ _) (by simp) _) (regsBut_mono hregs (by simp))⟩
    · rw [hsrc, getF_of_regsBut hregs (by simp only [List.mem_cons, List.not_mem_nil, or_false, TIM_TB_CTRL, TIM_TB_SLEWREM, TIM_TB_STAT]; omega), ← hsrc]
      exact hset
    · rw [heq]
      exact tbAt_sourceChange (by rw [hset]; decide) (tbAt_mod s n τ)

/-- The status of an instance plays no part in the count of a time base. -/
theorem tbAt_setStatus {f : Field} (hf : f.reg = PTP_GP_STAT ∨ f.reg = PTP_OC_STAT) (v n τ : Nat) : tbAt (setF s f v) n τ = tbAt s n τ := by
  have hregs : regsBut s (setF s f v) [f.reg] := regsBut_setF (regsBut_refl _ _) (List.mem_singleton_self _) v
  refine tbAt_of_same (sameTime_of_regsBut (s := s) (t := setF s f v) rfl hregs fun m => ?_) n τ
  simp only [List.mem_singleton, TIM_TB_CTRL, TIM_TB_RATE, TIM_TB_ADJ_LO, TIM_TB_ADJ_HI]
  rcases hf with hf | hf <;> rw [hf] <;> simp only [PTP_GP_STAT, PTP_OC_STAT] <;> omega

theorem gpLost_shown (hin : inThisStep s t₀ = true) (hup : s.sys.phase = .up) (hrole : getF s PTP_GP_STAT_ROLE = 1) :
    answers (.ptpMasterLoss 0 t₀) s (fun t => getF t PTP_GP_STAT_ROLE = 3 ∧ tbSrc t 1 = 0 ∧ tbAt t 1 (absTick s t₀) = tbAt s 1 (absTick s t₀)) := by
  have heq : masterLoss s 0 (absTick s t₀) = ptpSource (setF s PTP_GP_STAT_ROLE 3) 1 0 (absTick s t₀) := by
    rw [masterLoss, if_neg (by simp [hup]), if_pos rfl, if_pos hrole]
    rfl
  refine answers_of_answer (t := masterLoss s 0 (absTick s t₀)) rfl (by simp [hin]) ?_
  rw [heq]
  obtain ⟨hsrc, hat, hregs⟩ := ptpSource_host (n := 1) (by decide) (setF s PTP_GP_STAT_ROLE 3) (absTick s t₀)
  exact ⟨(getF_of_regsBut hregs (by decide)).trans (getF_setF _ _ _ (by decide)), hsrc, hat.trans (tbAt_setStatus (Or.inl rfl) _ _ _)⟩

theorem ocLost_shown (hin : inThisStep s t₀ = true) (hup : s.sys.phase = .up) (hst : getF s PTP_OC_STAT_STATE = 2 ∨ getF s PTP_OC_STAT_STATE = 3) :
    answers (.ptpMasterLoss 1 t₀) s (fun t => getF t PTP_OC_STAT_STATE = 1 ∧ tbSrc t 2 = 0 ∧ tbAt t 2 (absTick s t₀) = tbAt s 2 (absTick s t₀)) := by
  have hrange : inRange 2 3 (getF s PTP_OC_STAT_STATE) = true := by
    simp only [inRange, decide_eq_true_eq]
    omega
  have heq : masterLoss s 1 (absTick s t₀) = ptpSource (setF s PTP_OC_STAT_STATE 1) 2 0 (absTick s t₀) := by
    rw [masterLoss, if_neg (by simp [hup]), if_neg (by decide), if_pos hrange]
    rfl
  refine answers_of_answer (t := masterLoss s 1 (absTick s t₀)) rfl (by simp [hin]) ?_
  rw [heq]
  obtain ⟨hsrc, hat, hregs⟩ := ptpSource_host (n := 2) (by decide) (setF s PTP_OC_STAT_STATE 1) (absTick s t₀)
  exact ⟨(getF_of_regsBut hregs (by decide)).trans (getF_setF _ _ _ (by decide)), hsrc, hat.trans (tbAt_setStatus (Or.inr rfl) _ _ _)⟩

/-! #### Sync frames -/

/-- A Sync leaves by a line port with a link. -/
def syncSent (s : State) (p : Nat) : State := if linkUp s p then bump s (ETH_PT_TX_CNT p) else s

theorem syncSent_shown (s : State) (p : Nat) : getF (syncSent s p) (ETH_PT_TX_CNT p) =
    (if linkUp s p then min (getF s (ETH_PT_TX_CNT p) + 1) (2 ^ 32 - 1) else getF s (ETH_PT_TX_CNT p)) ∧ regsBut s (syncSent s p) [ETH_PT_TX p] := by
  unfold syncSent
  split
  · exact ⟨getF_bump _ _ _ ⟨by simp, by simp⟩, regsBut_bump (regsBut_refl _ _) (by simp) _⟩
  · exact ⟨rfl, regsBut_refl _ _⟩

/-- The line ports of the ordinary clock. -/
def syncPorts (s : State) : List Nat := [0, 1].filter fun p => (getF s PTP_OC_CFG_PORTS).testBit p

theorem syncs_sent (s u : State) (hu : u.regs = s.regs) : ∀ p < 2, getF ((syncPorts s).foldl syncSent u) (ETH_PT_TX_CNT p) =
    if (getF s PTP_OC_CFG_PORTS).testBit p && linkUp s p then min (getF s (ETH_PT_TX_CNT p) + 1) (2 ^ 32 - 1) else getF s (ETH_PT_TX_CNT p) := by
  have hcnt : ∀ p, getF u (ETH_PT_TX_CNT p) = getF s (ETH_PT_TX_CNT p) := fun p => getF_congr (f := ETH_PT_TX_CNT p) (rd_of_regs hu _)
  have hlink : ∀ p, linkUp u p = linkUp s p := fun p => flag_congr (f := ETH_PT_STAT_LINK p) (rd_of_regs hu _)
  obtain ⟨h0, hr0⟩ := syncSent_shown u 0
  obtain ⟨h1, hr1⟩ := syncSent_shown u 1
  obtain ⟨h01, hr01⟩ := syncSent_shown (syncSent u 0) 1
  have hl01 : linkUp (syncSent u 0) 1 = linkUp u 1 := flag_of_regsBut hr0 (by decide)
  have hc01 : getF (syncSent u 0) (ETH_PT_TX_CNT 1) = getF u (ETH_PT_TX_CNT 1) := getF_of_regsBut hr0 (by decide)
  rw [hlink, hcnt] at h0 h1
  rw [hl01, hlink, hc01, hcnt] at h01
  intro p hp
  rcases (by omega : p = 0 ∨ p = 1) with rfl | rfl
  · cases hb0 : (getF s PTP_OC_CFG_PORTS).testBit 0 <;> cases hb1 : (getF s PTP_OC_CFG_PORTS).testBit 1 <;>
      simp only [syncPorts, List.filter_cons, List.filter_nil, hb0, hb1, if_true, if_false, Bool.false_eq_true, List.foldl_cons, List.foldl_nil, Bool.false_and, Bool.true_and]
    · exact hcnt 0
    · exact (getF_of_regsBut hr1 (by decide)).trans (hcnt 0)
    · exact h0
    · exact (getF_of_regsBut hr01 (by decide)).trans h0
  · cases hb0 : (getF s PTP_OC_CFG_PORTS).testBit 0 <;> cases hb1 : (getF s PTP_OC_CFG_PORTS).testBit 1 <;>
      simp only [syncPorts, List.filter_cons, List.filter_nil, hb0, hb1, if_true, if_false, Bool.false_eq_true, List.foldl_cons, List.foldl_nil, Bool.false_and, Bool.true_and]
    · exact hcnt 1
    · exact h1
    · exact (getF_of_regsBut hr0 (by decide)).trans (hcnt 1)
    · exact h01

theorem sync_shown (hin : inThisStep s t₀ = true) (hup : s.sys.phase = .up) (hst : relayState s = byInserted) (hmaster : getF s PTP_OC_STAT_STATE = 4)
    (hdue : syncDue s 1 (absTick s t₀) = true) : answers (.syncInterval 1 t₀) s (fun t =>
      ∀ p < 2, getF t (ETH_PT_TX_CNT p) = (if (getF s PTP_OC_CFG_PORTS).testBit p && linkUp s p
        then min (getF s (ETH_PT_TX_CNT p) + 1) (2 ^ 32 - 1) else getF s (ETH_PT_TX_CNT p))) := by
  have heq : syncInterval s 1 (absTick s t₀) = (syncPorts s).foldl syncSent
      { s with eth := { s.eth with syncAt := sparseSet (fun _ => none) s.eth.syncAt 1 (some (absTick s t₀)) } } := by
    rw [syncInterval]
    exact if_pos (by simp [hup, hst, hmaster, hdue])
  refine answers_of_answer (t := syncInterval s 1 (absTick s t₀)) rfl (by simp [hin]) ?_
  rw [heq]
  exact syncs_sent s _ rfl

end Switch

end Sys2Proof.Ethernet

namespace Sys2Proof.Ethernet

open Sys2Proof Sys2Proof.Machine Sys2Proof.Frame Sys2Proof.TimeBases

/-! ### Frames (R338 to R343) -/

section Frames

variable {s t u : State} {f : EthFrame} {n τ i : Nat} {l : List Nat}

/-- The registers of the switch and what its ports send stand. -/
structure LineStands (s t : State) : Prop where
  regs : ∀ i, 0x2900 ≤ i → i < 0x2A00 → rd t i = rd s i
  out : t.eth.out = s.eth.out

theorem LineStands.refl (s : State) : LineStands s s := ⟨fun _ _ _ => rfl, rfl⟩

theorem LineStands.trans (h1 : LineStands s t) (h2 : LineStands t u) : LineStands s u :=
  ⟨fun i hlo hhi => (h2.regs i hlo hhi).trans (h1.regs i hlo hhi), h2.out.trans h1.out⟩

theorem lineStands_of_regsBut (hr : regsBut s t l) (hl : ∀ j ∈ l, j < 0x2900 ∨ 0x2A00 ≤ j) (he : t.eth.out = s.eth.out) : LineStands s t :=
  ⟨fun i hlo hhi => hr i fun hi => by
    have := hl i hi
    omega, he⟩

theorem lineStands_setF (s : State) {f : Field} (hf : f.reg < 0x2900 ∨ 0x2A00 ≤ f.reg) (v : Nat) : LineStands s (setF s f v) :=
  lineStands_of_regsBut (regsBut_setF (f := f) (regsBut_refl s [f.reg]) (List.mem_singleton_self _) v) (fun j hj => by rw [List.mem_singleton.1 hj]; exact hf) rfl

theorem lineStands_showTb (hn : n < 4) (s : State) (τ : Nat) : LineStands s (showTb s n τ) :=
  lineStands_of_regsBut (regsBut_showTb s n τ) (fun j hj => by
    simp only [List.mem_cons, List.not_mem_nil, or_false, TIM_TB_SLEWREM, TIM_TB_STAT] at hj
    omega) rfl

theorem lineStands_of_modTb (s : State) (n : Nat) (g : TimeBase → TimeBase) : LineStands s (modTb s n g) :=
  lineStands_of_regsBut (regsBut_of_regs (modTb_regs ..) []) (fun _ hj => absurd hj List.not_mem_nil) rfl

theorem lineStands_jump (hn : n < 4) (h0 : n ≠ 0) (s : State) (τ : Nat) (v : Int) : LineStands s (tbJump s n τ v) := by
  have hstat : (TIM_TB_STAT n) < 0x2900 ∧ TIM_TB_ADJSTEP n < 0x2900 := by
    simp only [TIM_TB_STAT, TIM_TB_ADJSTEP]
    omega
  rw [tbJump_eq, if_neg h0]
  unfold jumpShown
  extract_lets w x
  have hw : LineStands s w := lineStands_of_modTb s n _
  have hx : LineStands w x := (lineStands_setF w (f := TIM_TB_STAT_STEPPED n) (Or.inl hstat.1) _).trans (lineStands_setF _ (f := TIM_CNT_STEP_CNT) (Or.inl (by decide)) _)
  clear_value w x
  exact hw.trans (hx.trans ((lineStands_setF x (f := TIM_TB_ADJSTEP_VAL n) (Or.inl hstat.2) _).trans (lineStands_showTb hn _ _)))

theorem lineStands_rate (hn : n < 4) (s : State) (τ : Nat) (rate : Int) : LineStands s (tbRate s n τ rate) :=
  (lineStands_of_modTb s n _).trans (lineStands_setF (tbSync s n τ) (f := TIM_TB_RATE_VAL n) (Or.inl (by simp only [TIM_TB_RATE]; omega)) _)

theorem lineStands_sourceChange (hn : n < 4) (s : State) (τ : Nat) (v : Int) : LineStands s (tbSourceChange s n τ v) :=
  (lineStands_of_modTb s n _).trans (lineStands_showTb hn _ _)

theorem lineStands_wrPair {lo hi : Nat} (hlo : lo < 0x2900) (hhi : hi < 0x2900) (s : State) (v : Nat) : LineStands s (wrPair s lo hi v) :=
  lineStands_of_regsBut (l := [lo, hi]) (regsBut_wr (regsBut_wr (regsBut_refl _ _) (by simp) _) (by simp) _) (fun j hj => by
    simp only [List.mem_cons, List.not_mem_nil, or_false] at hj
    omega) rfl

theorem lineStands_source (hn : n < 4) (s : State) (src τ : Nat) : LineStands s (ptpSource s n src τ) := by
  have hctrl : TIM_TB_CTRL n < 0x2900 ∧ TIM_TB_ADJ_LO n < 0x2900 ∧ TIM_TB_ADJ_HI n < 0x2900 := by
    simp only [TIM_TB_CTRL, TIM_TB_ADJ_LO, TIM_TB_ADJ_HI]
    omega
  obtain ⟨h1, h2, h3⟩ := hctrl
  unfold ptpSource
  split
  · exact .refl s
  · extract_lets was w x
    have hw : LineStands s w := lineStands_setF s (f := TIM_TB_CTRL_SRC n) (Or.inl h1) _
    have hx : LineStands w x := by
      dsimp only [x]
      split
      · exact (lineStands_setF w (f := TIM_TB_CTRL_FOLLOW n) (Or.inl h1) _).trans (lineStands_wrPair h2 h3 _ _)
      · exact .refl w
    exact hw.trans (hx.trans (lineStands_sourceChange hn _ _ _))

theorem lineStands_gpRole (s : State) (r τ : Nat) : LineStands s (gpRole s r τ) :=
  (lineStands_setF s (f := PTP_GP_STAT_ROLE) (Or.inr (by decide)) _).trans (lineStands_source (n := 1) (by decide) _ _ _)

theorem lineStands_ocState (s : State) (x τ : Nat) : LineStands s (ocState s x τ) :=
  (lineStands_setF s (f := PTP_OC_STAT_STATE) (Or.inr (by decide)) _).trans (lineStands_source (n := 2) (by decide) _ _ _)

theorem lineStands_steer (hn : n < 4) (h0 : n ≠ 0) (s : State) (m : PtpUpdate) (τ : Nat) : LineStands s (ptpSteer s n m τ) := by
  unfold ptpSteer
  refine LineStands.trans ?_ (lineStands_rate hn _ _ _)
  split
  · exact lineStands_jump hn h0 s τ _
  · exact .refl s

theorem lineStands_ptpUpdate (s : State) (p : Nat) (m : PtpUpdate) (τ : Nat) : LineStands s (ptpUpdate s p m τ) := by
  unfold ptpUpdate
  split
  · exact .refl s
  · split
    · split
      · exact .refl s
      · extract_lets r e w x y
        have hw : LineStands s w := by
          dsimp only [w]
          refine LineStands.trans ?_ (lineStands_gpRole _ _ _)
          exact ⟨fun _ _ _ => rfl, rfl⟩
        have hx : LineStands w x := (lineStands_setF w (f := PTP_GP_OFFS_VAL) (Or.inr (by decide)) _).trans (lineStands_setF _ (f := PTP_GP_STAT_ASCAP) (Or.inr (by decide)) _)
        have hy : LineStands x y := lineStands_setF x (Or.inr (by split <;> decide)) _
        clear_value w x y
        have hxy := hw.trans (hx.trans hy)
        split
        · exact hxy.trans (lineStands_steer (by decide) (by decide) _ _ _)
        · exact hxy
    · split
      · exact .refl s
      · extract_lets lk w x
        have hw : LineStands s w := lineStands_ocState _ _ _
        have hx : LineStands w x := (lineStands_setF w (f := PTP_OC_STAT_LOCKED) (Or.inr (by decide)) _).trans
          ((lineStands_setF _ (f := PTP_OC_OFFS_VAL) (Or.inr (by decide)) _).trans (lineStands_setF _ (f := PTP_OC_MPD_VAL) (Or.inr (by decide)) _))
        clear_value w x
        split
        · exact (hw.trans hx).trans (lineStands_steer (by decide) (by decide) _ _ _)
        · exact hw.trans hx

/-! #### What a port has sent -/

/-- Port `q` has sent these bytes, as its count says. -/
structure Sent (s t : State) (q : Nat) (bytes : List Byte) : Prop where
  count : getF t (ETH_PT_TX_CNT q) = min (getF s (ETH_PT_TX_CNT q) + 1) (2 ^ 32 - 1)
  out : sparseGet (fun _ => []) t.eth.out q = bytes

theorem Sent.of_line {bytes : List Byte} {q : Nat} (hq : q < 2) (h : Sent s t q bytes) (hl : LineStands t u) : Sent s u q bytes :=
  ⟨(getF_congr (f := ETH_PT_TX_CNT q) (hl.regs _ (by simp only [ETH_PT_TX]; omega) (by simp only [ETH_PT_TX]; omega))).trans h.count, by rw [hl.out]; exact h.out⟩

/-- What another port sends does not touch it. -/
theorem Sent.of_other {bytes b : List Byte} {p q : Nat} (hpq : q ≠ p) (h : Sent s t q bytes) : Sent s (sendOwn t p b) q bytes := by
  refine ⟨(getF_bump_apart ⟨by simp, by simp, Or.inl (by simp only [ETH_PT_TX]; omega)⟩ _).trans h.count, ?_⟩
  exact (sparseGet_set_ne (fun _ => []) t.eth.out p q b hpq).trans h.out

/-- A frame at the internal port, with its address resolution answered. -/
def handed (s : State) (f : EthFrame) : State :=
  let u := { s with eth := { s.eth with out := sparseSet (fun _ => []) s.eth.out 2 f.bytes } }
  if arpRequest u f.bytes then sendOwn u f.port (arpReply u f.bytes) else u

theorem internalFrame_none (h : f.ptp = none) (τ : Nat) : internalFrame s f τ = handed s f := by
  unfold internalFrame
  rw [h]
  rfl

theorem internalFrame_some {m : PtpUpdate} (h : f.ptp = some m) (τ : Nat) : internalFrame s f τ =
    if ptpTakes (handed s f) m.inst f.port f.bytes then ptpUpdate (handed s f) f.port m τ else handed s f := by
  unfold internalFrame
  rw [h]
  rfl

/-- A frame for the internal port leaves what a line port has sent. -/
theorem Sent.of_internal {bytes : List Byte} {q : Nat} (hq : q < 2) (hne : q ≠ f.port) (h : Sent s t q bytes) (τ : Nat) : Sent s (internalFrame t f τ) q bytes := by
  have hx : Sent s (handed t f) q bytes := by
    unfold handed
    have hw : Sent s { t with eth := { t.eth with out := sparseSet (fun _ => []) t.eth.out 2 f.bytes } } q bytes :=
      ⟨h.count, (sparseGet_set_ne (fun _ => []) t.eth.out 2 q f.bytes (by omega)).trans h.out⟩
    generalize ({ t with eth := { t.eth with out := sparseSet (fun _ => []) t.eth.out 2 f.bytes } } : State) = w at hw
    dsimp only
    split
    · exact hw.of_other hne
    · exact hw
  cases hptp : f.ptp with
  | none =>
    rw [internalFrame_none hptp]
    exact hx
  | some m =>
    rw [internalFrame_some hptp]
    split
    · exact hx.of_line hq (lineStands_ptpUpdate _ _ _ _)
    · exact hx

/-- A frame that nothing corrects leaves by the other line port as it is. -/
def passedOn (s : State) (f : EthFrame) : State :=
  let u := bump s (ETH_PT_TX_CNT (1 - f.port))
  { u with eth := { u.eth with out := sparseSet (fun _ => []) u.eth.out (1 - f.port) f.bytes } }

theorem forwardFrame_eq (hfull : f.full = false) (htc : tcApplies s f.bytes = none) : forwardFrame s f = passedOn s f := by
  have hcorr : correctFrame s f (1 - f.port) = (s, f.bytes) := by
    unfold correctFrame
    rw [htc]
  unfold forwardFrame
  rw [hfull]
  simp only [hcorr, Bool.false_eq_true, if_false]
  rfl

theorem forward_sent (hfull : f.full = false) (htc : tcApplies s f.bytes = none) : Sent s (forwardFrame s f) (1 - f.port) f.bytes := by
  rw [forwardFrame_eq hfull htc]
  exact ⟨getF_bump _ _ _ ⟨by simp, by simp⟩, sparseGet_set (fun _ => []) s.eth.out _ _⟩

theorem switchFrame_group (hu : learnAddr s (beAt f.bytes 6 6) f.port τ = u) (hint : ¬(beAt f.bytes 0 6 = ownMac u ∨ arpForUs u f.bytes = true))
    (hgp : beAt f.bytes 0 6 ≠ gptpMac) (hgroup : isGroup (beAt f.bytes 0 6) = true) : switchFrame s f τ =
      if (ptpFrame f.bytes).isSome = true ∧ getF (forwardFrame u f) PTP_OC_CFG_MODE ≠ 0 then internalFrame (forwardFrame u f) f τ else forwardFrame u f := by
  subst hu
  exact (if_neg hint).trans ((if_neg hgp).trans (if_pos hgroup))

/-- Learning an address touches the switch's status and its table alone. -/
theorem learnAddr_shown (s : State) (mac p τ : Nat) : regsBut s (learnAddr s mac p τ) [ETH_SW_STAT] ∧ (learnAddr s mac p τ).eth.out = s.eth.out := by
  unfold learnAddr
  extract_lets l m
  split
  · exact ⟨regsBut_refl _ _, rfl⟩
  · exact ⟨regsBut_setF (regsBut_of_regs rfl _) (by simp) _, rfl⟩

theorem ownMac_congr (h : regsBut s t l) (hl : ETH_MAC_LO ∉ l ∧ ETH_MAC_HI ∉ l) : ownMac t = ownMac s := by
  rw [ownMac, ownMac, getF_of_regsBut h (f := ETH_MAC_HI_VAL) hl.2, getF_of_regsBut h (f := ETH_MAC_LO_VAL) hl.1]

theorem arpForUs_congr (h : regsBut s t l) (hl : ETH_IP_ADDR ∉ l) (b : List Byte) : arpForUs t b = arpForUs s b := by
  rw [arpForUs, arpForUs, getF_of_regsBut h hl]

theorem tcApplies_congr (h : regsBut s t l) (hl : PTP_TC_CFG ∉ l ∧ PTP_GP_CFG ∉ l) (b : List Byte) : tcApplies t b = tcApplies s b := by
  unfold tcApplies
  rw [flag_of_regsBut h (f := PTP_TC_CFG_EN) hl.1, flag_of_regsBut h (f := PTP_TC_CFG_L2) hl.1, flag_of_regsBut h (f := PTP_TC_CFG_UDP4) hl.1,
    getF_of_regsBut h (f := PTP_GP_CFG_MODE) hl.2]

theorem frameRx_bad (hport : f.port < 2) (hrx : f.rx ≤ f.tx) (hin : inThisStep s f.rx = true) (hen : flag s ETH_CTRL_EN = true)
    (hbad : f.fcsOk = false ∨ 1532 < f.bytes.length) : answers (.ethFrameRx f) s (fun t =>
        getF t (ETH_PT_ERR_CNT f.port) = min (getF s (ETH_PT_ERR_CNT f.port) + 1) (2 ^ 32 - 1) ∧ regsBut s t [ETH_PT_ERR f.port] ∧ partsBut s t [.regs]) := by
  have heq : frameRx s f = bump s (ETH_PT_ERR_CNT f.port) := by
    rw [frameRx, hen, if_neg (by decide)]
    refine if_pos ?_
    rcases hbad with hb | hb
    · exact Or.inl (by rw [hb]; rfl)
    · exact Or.inr (by omega)
  refine answers_of_answer (t := frameRx s f) rfl (by simp [hport, hrx, hin]) ?_
  rw [heq]
  exact ⟨getF_bump _ _ _ ⟨by simp, by simp⟩, regsBut_bump (regsBut_refl _ _) (by simp) _,
    partsBut_of_keeps (bump_keeps _ _ _ (allows_of_subset (by decide)) (Keeps.refl ..))⟩

/-- A good frame is counted, and switched where the relay is inserted. -/
theorem frameRx_good (hen : flag s ETH_CTRL_EN = true) (hfcs : f.fcsOk = true) (hlo : 60 ≤ f.bytes.length) (hhi : f.bytes.length ≤ 1532) : frameRx s f =
    if relayState s = byInserted then switchFrame (bump s (ETH_PT_RX_CNT f.port)) f (absTick s f.rx) else bump s (ETH_PT_RX_CNT f.port) := by
  have hst : relayState (bump s (ETH_PT_RX_CNT f.port)) = relayState s := getF_congr (f := ETH_BYP_STAT_STATE) (rd_setF_ne _ _ _ _ (by simp only [ETH_BYP_STAT, ETH_PT_RX]; omega))
  rw [frameRx, hen, if_neg (by decide)]
  simp only [hfcs]
  rw [if_neg (by simp; omega), if_neg (by omega), hst]
  rfl

theorem frameRx_counted (hport : f.port < 2) (hrx : f.rx ≤ f.tx) (hin : inThisStep s f.rx = true) (hen : flag s ETH_CTRL_EN = true)
    (hfcs : f.fcsOk = true) (hlo : 60 ≤ f.bytes.length) (hhi : f.bytes.length ≤ 1532) (hst : relayState s ≠ byInserted) : answers (.ethFrameRx f) s (fun t =>
          getF t (ETH_PT_RX_CNT f.port) = min (getF s (ETH_PT_RX_CNT f.port) + 1) (2 ^ 32 - 1) ∧ regsBut s t [ETH_PT_RX f.port] ∧ partsBut s t [.regs]) := by
  refine answers_of_answer (t := frameRx s f) rfl (by simp [hport, hrx, hin]) ?_
  rw [frameRx_good hen hfcs hlo hhi, if_neg hst]
  exact ⟨getF_bump _ _ _ ⟨by simp, by simp⟩, regsBut_bump (regsBut_refl _ _) (by simp) _,
    partsBut_of_keeps (bump_keeps _ _ _ (allows_of_subset (by decide)) (Keeps.refl ..))⟩

theorem frameRx_group (hport : f.port < 2) (hrx : f.rx ≤ f.tx) (hin : inThisStep s f.rx = true) (hen : flag s ETH_CTRL_EN = true)
    (hfcs : f.fcsOk = true) (hlo : 60 ≤ f.bytes.length) (hhi : f.bytes.length ≤ 1532) (hst : relayState s = byInserted) (hfull : f.full = false)
    (hown : beAt f.bytes 0 6 ≠ ownMac s) (harp : arpForUs s f.bytes = false) (hgp : beAt f.bytes 0 6 ≠ gptpMac) (hgroup : isGroup (beAt f.bytes 0 6) = true)
    (htc : tcApplies s f.bytes = none) : answers (.ethFrameRx f) s (fun t =>
      getF t (ETH_PT_TX_CNT (1 - f.port)) = min (getF s (ETH_PT_TX_CNT (1 - f.port)) + 1) (2 ^ 32 - 1) ∧ sparseGet (fun _ => []) t.eth.out (1 - f.port) = f.bytes) := by
  refine answers_of_answer (t := frameRx s f) rfl (by simp [hport, hrx, hin]) ?_
  rw [frameRx_good hen hfcs hlo hhi, if_pos hst]
  obtain ⟨hlearn, -⟩ := learnAddr_shown (bump s (ETH_PT_RX_CNT f.port)) (beAt f.bytes 6 6) f.port (absTick s f.rx)
  generalize hu : learnAddr (bump s (ETH_PT_RX_CNT f.port)) (beAt f.bytes 6 6) f.port (absTick s f.rx) = u at hlearn
  have hregs : regsBut s u [ETH_PT_RX f.port, ETH_SW_STAT] := regsBut_trans (regsBut_bump (regsBut_refl _ _) (by simp) _) (regsBut_mono hlearn (by simp))
  have hcnt : getF u (ETH_PT_TX_CNT (1 - f.port)) = getF s (ETH_PT_TX_CNT (1 - f.port)) :=
    getF_of_regsBut (f := ETH_PT_TX_CNT (1 - f.port)) hregs (by simp only [List.mem_cons, List.not_mem_nil, or_false, ETH_PT_TX, ETH_PT_RX, ETH_SW_STAT]; omega)
  have hint : ¬(beAt f.bytes 0 6 = ownMac u ∨ arpForUs u f.bytes = true) := by
    rw [ownMac_congr hregs (by simp only [List.mem_cons, List.not_mem_nil, or_false, ETH_MAC_LO, ETH_MAC_HI, ETH_PT_RX, ETH_SW_STAT]; omega),
      arpForUs_congr hregs (by simp only [List.mem_cons, List.not_mem_nil, or_false, ETH_IP_ADDR, ETH_PT_RX, ETH_SW_STAT]; omega), harp]
    exact fun ho => ho.elim hown (by decide)
  have hsent : Sent u (forwardFrame u f) (1 - f.port) f.bytes := forward_sent hfull (by
    rw [tcApplies_congr hregs (by simp only [List.mem_cons, List.not_mem_nil, or_false, PTP_TC_CFG, PTP_GP_CFG, ETH_PT_RX, ETH_SW_STAT]; omega)]
    exact htc)
  have hdone : ∀ w, Sent u w (1 - f.port) f.bytes → getF w (ETH_PT_TX_CNT (1 - f.port)) = min (getF s (ETH_PT_TX_CNT (1 - f.port)) + 1) (2 ^ 32 - 1) ∧
      sparseGet (fun _ => []) w.eth.out (1 - f.port) = f.bytes := fun w hw => ⟨by rw [hw.count, hcnt], hw.out⟩
  rw [switchFrame_group hu hint hgp hgroup]
  refine hdone _ ?_
  split
  · exact hsent.of_internal (by omega) (by omega) _
  · exact hsent

end Frames

/-- Settles O23: the relay's requests and events, the links and addresses, the frames of the switch, and the masters of PTP. -/
theorem relayAndSwitch : Obligations.RelayAndSwitch := by
  unfold Obligations.RelayAndSwitch
  refine ⟨⟨fun s h hs how hlink hloss => ⟨fun hok _ => insert_shown hs how hlink hloss hok, fun _ => bypass_shown hs how hlink hloss⟩,
      fun s h => faultClear_shown, fun s => autoInsert_shown, fun s => insertionComplete_shown, fun s => linkLoss_shown,
      fun s t₀ hin => ⟨linkTimeout_shown hin, fun lvl => senseChange_shown hin, relayFault_shown hin⟩⟩,
    ⟨fun s f hport hrx hin hen => ⟨frameRx_bad hport hrx hin hen,
        fun hfcs hlo hhi => ⟨frameRx_counted hport hrx hin hen hfcs hlo hhi, frameRx_group hport hrx hin hen hfcs hlo hhi⟩⟩,
      fun s t₀ hin => ⟨fun p up q => linkChange_shown hin, ageing_shown hin, gpLost_shown hin, ocLost_shown hin⟩, fun s t₀ => sync_shown⟩⟩

end Sys2Proof.Ethernet

namespace Sys2Proof.Selectors

open Sys2Proof Sys2Proof.Machine Sys2Proof.Counterexample

/-- The firmware is up and slot 0 is attached; its copy of KIN_CH_SEL holds 1 in a reserved bit, which no run from reset leaves there. -/
def strayBit : State :=
  winSet (setF { State.reset with sys := { State.reset.sys with phase := .up, running := true } } (HIF_H_STAT_ATT 0) 1) 0 KIN_CH_SEL 0x80000000#32

theorem strayBit_serves : serves strayBit 0 ∧ startsNow strayBit 0 [item KIN_CH_SEL 0xFFFFFFFF#32 (BitVec.ofNat 32 0)] := by
  unfold serves startsNow
  refine ⟨⟨?_, ?_, ?_⟩, ?_⟩ <;> decide +kernel

/-- A write presents the reserved bits of the old copy beside the number that is written (R7). -/
theorem strayBit_stays : winGet (nextOf (.kinChSel 0 (BitVec.ofNat 32 0)) strayBit) 0 KIN_CH_SEL = 0x80000000#32 := by decide +kernel

/-- Refutes O57: in the ill-formed state `strayBit` a write of KIN_CH_SEL stores the channel's number beside a reserved bit that was set before, so the
selector does not hold the value written. -/
theorem not_selectorsOpenTheSlotsOwnWindow : ¬ Obligations.SelectorsOpenTheSlotsOwnWindow := by
  unfold Obligations.SelectorsOpenTheSlotsOwnWindow
  rintro ⟨hchannels, -⟩
  obtain ⟨hserves, hstarts⟩ := strayBit_serves
  obtain ⟨hkin, -⟩ := hchannels strayBit 0 0 hserves (by decide)
  obtain ⟨hget, -⟩ := of_answers (hkin hstarts)
  exact absurd (strayBit_stays.symm.trans hget) (by decide)

end Sys2Proof.Selectors

namespace Sys2Proof.Selectors

open Sys2Proof Sys2Proof.Machine Sys2Proof.Counterexample

/-- The firmware is up, slot 0 is attached and holds channel 0, its selected one, of which two alarm flags are set and shown in the slot's window. -/
def twoAlarms : State :=
  let s := setF { State.reset with sys := { State.reset.sys with phase := .up, running := true } } (HIF_H_STAT_ATT 0) 1
  winSet (setDlyFlags (wr s (SCH_CH_STATE 0) 0x80000007#32) 0 3) 0 ACT_CH_ALM 3#32

theorem twoAlarms_serves : serves twoAlarms 0 ∧ actSel twoAlarms 0 = 0 ∧ holds twoAlarms 0 kCh 0 = true ∧
    startsNow twoAlarms 0 [item ACT_CH_ALM 0x7F#32 (BitVec.ofNat 32 1)] := by
  unfold serves startsNow
  refine ⟨⟨?_, ?_, ?_⟩, ?_, ?_, ?_⟩ <;> decide +kernel

/-- The clear of one flag is shown in the slot's window (R163). -/
theorem twoAlarms_window : winGet (nextOf (.alarmFlagClear 0 1) twoAlarms) 0 ACT_CH_ALM = 2#32 := by decide +kernel

theorem twoAlarms_window_before : winGet (modSlot twoAlarms 0 fun x => { x with ranIn := some twoAlarms.now }) 0 ACT_CH_ALM = 3#32 := by decide +kernel

/-- Refutes O58: a clear of an alarm flag shows the flags that are left in the slot's own window too, so the host interface is not as it was but for
the step noted, as in `twoAlarms`. -/
theorem not_stateWordsAndEnables : ¬ Obligations.StateWordsAndEnables := by
  unfold Obligations.StateWordsAndEnables
  rintro ⟨-, -, halarm⟩
  obtain ⟨hserves, hsel, hholds, hstarts⟩ := twoAlarms_serves
  obtain ⟨-, -, -, -, -, -, hhif⟩ := of_answers (halarm twoAlarms 0 0 1 hserves hsel hholds (by decide) (by decide) hstarts)
  have hwin : winGet (nextOf (.alarmFlagClear 0 1) twoAlarms) 0 ACT_CH_ALM = winGet (modSlot twoAlarms 0 fun x => { x with ranIn := some twoAlarms.now }) 0 ACT_CH_ALM := by
    rw [winGet, winGet, slotOf, slotOf, hhif]
  rw [twoAlarms_window, twoAlarms_window_before] at hwin
  exact absurd hwin (by decide)

end Sys2Proof.Selectors

namespace Sys2Proof.Rings

open Sys2Proof Sys2Proof.Machine Sys2Proof.Counterexample

/-- Ring 0 is in OPER and shows node 0 as reachable, from which no valid report has come for 4 cycles. -/
def silentNode : State :=
  modRing (setB (setF State.reset (FJL_STAT_STATE 0) 3) (FJL_NODE_STAT_REACH 0 0) true) 0 fun x => { x with operAge := 4 }

theorem silentNode_silent : ringRuns silentNode 0 = true ∧ 4 ≤ silentCycles silentNode 0 0 := by decide +kernel

/-- The ring notes that the node has been lost, so that its return is recorded (R224). -/
theorem silentNode_lost : (nodeAt silentNode 0 0).lost = false ∧ (nodeAt (nextOf (.reportAreaTimeout 0 0) silentNode) 0 0).lost = true := by
  decide +kernel

/-- Refutes O18: REPORT_AREA_TIMEOUT of a node that was reachable also notes in the ring's state that the node is lost, so the FJL part of the state, which
the statement leaves standing, changes. -/
theorem not_ringCyclesAndControls : ¬ Obligations.RingCyclesAndControls := by
  unfold Obligations.RingCyclesAndControls
  rintro ⟨⟨-, -, htimeout, -⟩, -⟩
  obtain ⟨hruns, hsilent⟩ := silentNode_silent
  obtain ⟨-, -, hparts, -⟩ := of_answers (htimeout silentNode 0 0 (by decide) (by decide) hruns hsilent)
  have hfjl : (nextOf (.reportAreaTimeout 0 0) silentNode).fjl = silentNode.fjl := hparts .fjl (by decide)
  have hnode : nodeAt (nextOf (.reportAreaTimeout 0 0) silentNode) 0 0 = nodeAt silentNode 0 0 := by
    simp only [nodeAt, ringAt, hfjl]
  obtain ⟨hbefore, hafter⟩ := silentNode_lost
  exact absurd (hafter.symm.trans ((congrArg (·.lost) hnode).trans hbefore)) (by decide)

end Sys2Proof.Rings

namespace Sys2Proof.CanRequests

open Sys2Proof Sys2Proof.Machine Sys2Proof.Counterexample

/-- The firmware is up, controller 0 is enabled and slot 0 is attached; its CAN_SEND of one empty frame for buffer 80 waits. CAN_ELEM.TX_N holds 100,
which no write that the rules accept leaves there: a controller has 64 buffers. -/
def strayBuffer : State :=
  let s := setF { State.reset with sys := { State.reset.sys with phase := .up, running := true } } (HIF_H_STAT_ATT 0) 1
  let s := setF (setF s (CAN_CTRL_EN 0) 1) (CAN_ELEM_TX_N 0) 100
  modSlot s 0 fun x => { x with
    ring := [{ code := 0x28, ordered := false, htag := 0, payload := [0#8, 1#8, 0#8, 0#8, 80#8] ++ List.replicate 23 0#8, seq := 0, reject := 0 }] }

theorem strayBuffer_starts : starts strayBuffer 0 0x28 := by
  unfold starts
  decide +kernel

theorem strayBuffer_sends : roleOf strayBuffer 0 ≠ 2 ∧ canOf strayBuffer 0 = 0 ∧ leAt (req strayBuffer 0) 2 2 = 0 ∧
    sendsOne strayBuffer 0 = some (80, 80#8 :: List.replicate 23 0#8) := by decide +kernel

theorem strayBuffer_stays_free : txState (nextOf (.canSend 0) strayBuffer) 0 80 = tbFree := by decide +kernel

/-- Refutes O52: in the ill-formed state `strayBuffer`, whose TX_N names more buffers than a controller has, a CAN_SEND for buffer 80 is accepted, but the
buffer shows no state and so stays FREE. -/
theorem not_canCommands : ¬ Obligations.CanCommands := by
  unfold Obligations.CanCommands
  rintro ⟨hsend, -⟩
  obtain ⟨hrole, hctl, hreserved, hitem⟩ := strayBuffer_sends
  obtain ⟨-, -, -, -, -, -, hstate, -⟩ := of_answers
    (hsend strayBuffer 0 80 (80#8 :: List.replicate 23 0#8) strayBuffer_starts hrole (by rw [hctl]; decide) hreserved hitem)
  rw [hctl] at hstate
  exact hstate strayBuffer_stays_free

end Sys2Proof.CanRequests

namespace Sys2Proof.Transport

open Sys2Proof Sys2Proof.Machine Sys2Proof.Frame Sys2Proof.Mailbox

/-- Two runs that each leave the parts outside `l`. -/
theorem partsBut_step {s t u : State} {l : List Part} (h : partsBut s t l) (k : Keeps (· ∈ l) t u) : partsBut s u l :=
  ⟨fun p hp => samePart_trans (h.1 p hp) (k.same p hp), k.pending.trans h.2⟩

/-! ### One frame (R389, R390, R394) -/

section Frames

variable {s : State} {h : Nat}

/-- What slot `h` is after a frame of code `x.code` that is accepted at instant `t`. -/
def tookFrame (s : State) (h t : Nat) (x : Header) (p : List Byte) : HostSlot :=
  { slotOf s h with
    ring := (slotOf s h).ring ++ [{ code := x.code, ordered := x.flags.testBit 0, htag := x.htag, payload := p, seq := s.hif.accepted, reject := 0 }]
    heard := t }

/-- A frame without fault of an attached slot, or one that asks to attach or to identify, earns OK. -/
theorem arrivalStatus_ok {x : Header} (hbad : x.bad = false) (hfor : attached s h = true ∨ x.code = 1 ∨ x.code = 2)
    (hknown : knownCodes.contains x.code = true) : arrivalStatus s h x false = stOk := by
  have hserved : ¬ (!attached s h && !waits s h 0x02 && decide (x.code ≠ 1 ∧ x.code ≠ 2)) = true := by
    rcases hfor with ha | hc | hc <;> simp [*]
  have hcode : ¬ (!knownCodes.contains x.code) = true := by simp only [hknown, Bool.not_true, Bool.false_eq_true, not_false_eq_true]
  unfold arrivalStatus
  rw [if_neg (by decide), if_neg (by simp [hbad]), if_neg hserved, if_neg hcode]

theorem attached_of_acc {t : State} (ht : regsBut s t [HIF_H_CNT_ACC h]) (g : Nat) : attached t g = attached s g :=
  flag_of_regsBut ht (by
    rw [List.mem_singleton]
    change 0x0111 + 8 * g ≠ 0x0115 + 8 * h
    omega)

theorem slotOf_putFrame (s : State) (h : Nat) (x : Header) (p : List Byte) :
    slotOf (putFrame s h x p 0) h = tookFrame s h (slotOf s h).heard x p :=
  slotOf_modSlot s h fun q => { q with
    ring := q.ring ++ [{ code := x.code, ordered := x.flags.testBit 0, htag := x.htag, payload := p, seq := s.hif.accepted, reject := 0 }] }

theorem slotOf_putFrame_ne (s : State) {h g : Nat} (hg : g ≠ h) (x : Header) (p : List Byte) : slotOf (putFrame s h x p 0) g = slotOf s g :=
  slotOf_modSlot_ne s (fun q => { q with
    ring := q.ring ++ [{ code := x.code, ordered := x.flags.testBit 0, htag := x.htag, payload := p, seq := s.hif.accepted, reject := 0 }] }) hg

/-- An accepted frame joins the end of the slot's ring, is heard and counted, and touches nothing else. -/
theorem frameArrives_accepted (t : Nat) {x : Header} (p : List Byte) (hbad : x.bad = false) (hack : x.flags.testBit 1 = false)
    (hfor : attached s h = true ∨ x.code = 1 ∨ x.code = 2) (hknown : knownCodes.contains x.code = true) :
    slotOf (frameArrives s h t x p false) h = tookFrame s h t x p ∧
      getF (frameArrives s h t x p false) (HIF_H_CNT_ACC_CNT h) = min (getF s (HIF_H_CNT_ACC_CNT h) + 1) (2 ^ 32 - 1) ∧
      (∀ g, g ≠ h → slotOf (frameArrives s h t x p false) g = slotOf s g) ∧
      regsBut s (frameArrives s h t x p false) [HIF_H_CNT_ACC h] ∧
      partsBut s (frameArrives s h t x p false) [.regs, .hif] := by
  obtain ⟨u, hu⟩ : ∃ u, u = bump (modSlot s h fun q => { q with heard := t }) (HIF_H_CNT_ACC_CNT h) := ⟨_, rfl⟩
  have hregs : regsBut s u [HIF_H_CNT_ACC h] := hu ▸ regsBut_bump (regsBut_of_regs rfl _) (by simp) _
  have hslot : slotOf u h = { slotOf s h with heard := t } := hu ▸ slotOf_modSlot s h _
  have hothers : ∀ g, g ≠ h → slotOf u g = slotOf s g := fun g hg => hu ▸ slotOf_modSlot_ne s _ hg
  have hok : arrivalStatus u h x false = stOk := arrivalStatus_ok hbad (by rwa [attached_of_acc hregs]) hknown
  have heq : frameArrives s h t x p false = putFrame u h x p 0 := by simp [frameArrives, hack, ← hu, hok]
  refine ⟨?_, ?_, fun g hg => ?_, ?_, partsBut_of_keeps (frameArrives_keeps s h t x p false (allows_of_subset (by decide)) (Keeps.refl ..))⟩
  · rw [heq, slotOf_putFrame, tookFrame, tookFrame, hslot, show u.hif.accepted = s.hif.accepted from hu ▸ rfl]
  · rw [heq]
    exact hu ▸ getF_bump (modSlot s h fun q => { q with heard := t }) (HIF_H_CNT_ACC_CNT h) 1 (by simp)
  · rw [heq, slotOf_putFrame_ne u hg, hothers g hg]
  · rw [heq]
    exact regsBut_put hregs rfl

end Frames

/-! ### A unit of one frame (R387, R389) -/

section Units

variable {s : State} {h : Nat} {b : List Byte} {most : Nat}

theorem len_header_lt (b : List Byte) : (headerOf b).len < 4096 := Nat.mod_lt _ (by decide)

/-- The frame is whole and fills the unit. -/
theorem lone_fills (hl : lone b most) :
    ¬ b.length < 12 ∧ ¬ (b.drop 12).length < (headerOf b).len ∧ (b.drop 12).drop (((headerOf b).len + 3) / 4 * 4) = [] := by
  obtain ⟨h12, -, -, hlen, -, -⟩ := hl
  unfold frameSize at hlen
  refine ⟨by omega, by rw [List.length_drop]; omega, List.drop_eq_nil_of_le ?_⟩
  rw [List.length_drop]
  omega

theorem unitFrames_nil (n : Nat) (s : State) (h t : Nat) (full : Bool) : unitFrames n s h t full [] = s := by
  cases n <;> simp [unitFrames]

theorem udpFrames_nil (n : Nat) (s : State) (ip port : Word) (t : Nat) (full : Bool) : udpFrames n s ip port t full [] = s := by
  cases n <;> simp [udpFrames]

theorem units_pos (hl : lone b most) : ∃ n, b.length / 12 = n + 1 :=
  ⟨b.length / 12 - 1, by have := hl.1; omega⟩

/-- A unit of one sound frame brings just that frame. -/
theorem unitArrives_lone (t : Nat) (hl : lone b most) (hmost : most ≤ portMax s h) (hroom : roomFor1 s h b) :
    unitArrives s h t b = frameArrives s h t (headerOf b) ((b.drop 12).take (headerOf b).len) false := by
  obtain ⟨h12, hcut, hrest⟩ := lone_fills hl
  obtain ⟨n, hn⟩ := units_pos hl
  obtain ⟨-, -, hlen, -, -, -⟩ := hl
  have hfits : ¬ ringBytes < reqUsed (slotOf s h) + frameSize (headerOf b).len := Nat.not_lt.2 hroom
  have hport : ¬ portMax s h < (headerOf b).len := by omega
  simp only [unitArrives, hn, unitFrames, if_neg h12, hcut, hfits, hport, hrest, unitFrames_nil, decide_false, Bool.or_false, Bool.false_eq_true, if_false]

/-- A unit of one sound frame of an attached slot joins the ring of the slot. -/
theorem joined_of_lone (t : Nat) (hl : lone b most) (hatt : attached s h = true) :
    joined s (frameArrives s h t (headerOf b) ((b.drop 12).take (headerOf b).len) false) h t b (slotOf s h).reasm ∧
      regsBut s (frameArrives s h t (headerOf b) ((b.drop 12).take (headerOf b).len) false) [HIF_H_CNT_ACC h] ∧
      partsBut s (frameArrives s h t (headerOf b) ((b.drop 12).take (headerOf b).len) false) [.regs, .hif] := by
  obtain ⟨-, hbad, -, -, hack, hknown⟩ := hl
  obtain ⟨hslot, hcnt, hothers, hregs, hparts⟩ := frameArrives_accepted t ((b.drop 12).take (headerOf b).len) hbad hack (.inl hatt) hknown
  exact ⟨⟨hslot, hcnt, hothers⟩, hregs, hparts⟩

end Units

/-! ### SPI (R382, R383) -/

section Spi

variable {s : State} {h : Nat} {m : List Byte}

/-- A transaction that is accepted has a known header, and its port serves. -/
theorem not_refused_of_ok (hok : spiResult s m = ltOk) : spiRefused s m = false := by
  by_contra hrefused
  have hr : spiRefused s m = true := by simpa using hrefused
  rw [spiRefused, Bool.or_eq_true, Bool.and_eq_true, decide_eq_true_eq, Bool.not_eq_true'] at hr
  unfold spiResult at hok
  extract_lets op n reads at hok
  rcases hr with hbad | ⟨hop, hserved⟩
  · rw [if_pos hbad] at hok
    split_ifs at hok <;> exact absurd hok (by decide)
  · rw [if_pos (show 3 ≤ op ∧ (!served s) = true from ⟨hop, by rw [hserved]; rfl⟩)] at hok
    split_ifs at hok <;> exact absurd hok (by decide)

/-- What a transaction that is accepted shows: the bytes on HIF_MISO, and 0 in LAST. -/
def showOk (s : State) (m : List Byte) (x : HifState) : HifState := { x with miso := spiMiso s m (fresh s).1, last := ltOk }

theorem spiTransaction_ok (hrun : s.sys.inReset = false) (hok : spiResult s m = ltOk) (t : Nat) :
    spiTransaction s m t = modHif (spiEffect s m t) (showOk s m) := by
  have hrefused := not_refused_of_ok hok
  have hcrc : ¬ ltOk = ltCrc := by decide
  have hshort : ¬ (ltOk = ltShort ∨ ltOk = ltBadOp) := by decide
  simp only [spiTransaction, hrun, hok, hrefused, hcrc, hshort, Bool.false_eq_true, if_false, if_true, modHif, showOk]

theorem spiKind_of_op {op : Nat} (hop : leAt m 0 1 = op) : spiKind op m = true := by simp [spiKind, hop]

/-- What holds of the slots and registers after the effect of a transaction holds after the transaction. -/
theorem joined_modHif {t : State} {f : HifState → HifState} (hf : ∀ x, (f x).slots = x.slots) {at_ : Nat} {b : List Byte} {reasm : Option Reasm}
    (ht : joined s t h at_ b reasm) : joined s (modHif t f) h at_ b reasm := by
  have hslot : ∀ g, slotOf (modHif t f) g = slotOf t g := fun g => congrArg (sparseGet _ · g) (hf t.hif)
  obtain ⟨hjoin, hcnt, hothers⟩ := ht
  exact ⟨(hslot h).trans hjoin, hcnt, fun g hg => (hslot g).trans (hothers g hg)⟩

theorem partsBut_modHif {t : State} {l : List Part} (f : HifState → HifState) (hl : .hif ∈ l) (ht : partsBut s t l) : partsBut s (modHif t f) l :=
  partsBut_step ht (modHif_keeps t f (fun _ hp => by rwa [List.mem_singleton.1 hp]) (Keeps.refl ..))

theorem spiSlot_port (hh : spiSlot s = some h) : portOf s h = 0 := by simpa using List.find?_some hh

/-- R382, R387: a unit of one frame that SPI brings. -/
theorem reqWrite_joins {t₀ : Nat} (hrun : s.sys.inReset = false) (hstep : inThisStep s t₀ = true) (hm : sound s 3 m) (hh : spiSlot s = some h)
    (hatt : attached s h = true) (hl : lone ((m.drop 6).take (spiN m)) 4084) (hroom : roomFor1 s h ((m.drop 6).take (spiN m))) :
    answers (.reqWrite m t₀) s fun t => joined s t h (absTick s t₀) ((m.drop 6).take (spiN m)) (slotOf s h).reasm ∧ t.hif.last = 0 ∧
      regsBut s t [HIF_H_CNT_ACC h] ∧ partsBut s t [.regs, .hif] := by
  obtain ⟨hop, hok⟩ := hm
  have hport : 4084 ≤ portMax s h := by simp [portMax, spiSlot_port hh]
  have heffect : spiEffect s m (absTick s t₀) = frameArrives s h (absTick s t₀) (headerOf ((m.drop 6).take (spiN m)))
      ((((m.drop 6).take (spiN m)).drop 12).take (headerOf ((m.drop 6).take (spiN m))).len) false := by
    rw [← unitArrives_lone (absTick s t₀) hl hport hroom]
    simp only [spiEffect, hop, hh]
  obtain ⟨hjoin, hregs, hparts⟩ := joined_of_lone (s := s) (h := h) (absTick s t₀) hl hatt
  refine answers_of_answer (t := spiTransaction s m (absTick s t₀)) rfl (by simp [hstep, spiKind_of_op hop]) ?_
  rw [spiTransaction_ok hrun hok, heffect]
  exact ⟨joined_modHif (fun _ => rfl) hjoin, rfl, regsBut_put hregs rfl, partsBut_modHif _ (by simp) hparts⟩

end Spi

/-! ### UDP (R384) -/

section Udp

variable {s : State} {h : Nat} {b : List Byte} {ip port : Word} {t₀ : Nat}

theorem datagram_fits (hl : lone b 1460) : b.length ≤ 1472 := by
  obtain ⟨-, -, hlen, hsize, -, -⟩ := hl
  unfold frameSize at hsize
  omega

/-- A datagram of one frame brings just that frame. -/
theorem udpDatagram_lone (t : Nat) (hup : s.sys.phase = .up) (hrelay : relayState s = byInserted) (hl : lone b 1460) :
    udpDatagram s ip port b t = (udpFrame s ip port t (headerOf b) ((b.drop 12).take (headerOf b).len) false false).1 := by
  obtain ⟨h12, hcut, hrest⟩ := lone_fills hl
  obtain ⟨n, hn⟩ := units_pos hl
  rw [udpDatagram, if_pos ⟨hup, hrelay, datagram_fits hl⟩, hn]
  simp only [udpFrames, if_neg h12, hcut, hrest, udpFrames_nil, decide_false, Bool.false_eq_true, if_false]

/-- A frame for slot `h` arrives whole and in time. -/
theorem udpFrame_bound (t : Nat) (hl : lone b 1460) (hroom : roomFor1 s h b) (hh : udpSlot s ip port = some h) :
    (udpFrame s ip port t (headerOf b) ((b.drop 12).take (headerOf b).len) false false).1 =
      frameArrives s h t (headerOf b) ((b.drop 12).take (headerOf b).len) false := by
  have hfits : ¬ ringBytes < reqUsed (slotOf s h) + frameSize (headerOf b).len := Nat.not_lt.2 hroom
  have hport : ¬ 1460 < (headerOf b).len := Nat.not_lt.2 hl.2.2.1
  simp only [udpFrame, hh, hfits, hport, decide_false, Bool.or_false]

theorem exec_udpDatagram (hstep : inThisStep s t₀ = true) (hport : port.toNat < 65536) {p : State → Prop}
    (hp : p (udpDatagram s ip port b (absTick s t₀))) : answers (.udpDatagram ip port b t₀) s p :=
  answers_of_answer (t := udpDatagram s ip port b (absTick s t₀)) rfl (by simp [hstep, hport]) hp

end Udp

/-! ### CAN_B (R385) -/

section CanB

variable {s : State} {h : Nat} {b : List Byte} {t₀ : Nat} {r : Reasm}

theorem exec_canbSegment (hstep : inThisStep s t₀ = true) (hon : canbOn s) (hh : canbSlot s = some h) (hlen : inRange 1 64 b.length = true)
    {p : State → Prop} (hp : p (Machine.segment s h (absTick s t₀) b)) : answers (.canbSegment b t₀) s p := by
  refine answers_of_answer (t := canbSegment s (absTick s t₀) b) rfl (by simp [hstep, hlen]) ?_
  unfold canbOn at hon
  rw [canbSegment, if_pos hon]
  simpa only [hh] using hp

theorem canbSlot_port (hh : canbSlot s = some h) : portOf s h = 2 := by simpa using List.find?_some hh

/-- The last segment of a message of one sound frame, in sequence. -/
theorem segment_last (t : Nat) (hr : (slotOf s h).reasm = some r) (hseg : leAt b 0 1 = 128 + r.nextSeg) (hnext : r.nextSeg < 128)
    {most : Nat} (hl : lone (r.bytes ++ b.drop 1) most) :
    Machine.segment s h t b = unitArrives (modSlot s h fun x => { x with reasm := none }) h t (r.bytes ++ b.drop 1) := by
  have hmod : leAt b 0 1 % 128 = r.nextSeg := by omega
  have hlast : 128 ≤ leAt b 0 1 := by omega
  obtain ⟨h12, -, -, hsize, -, -⟩ := hl
  have hwhole : messageWhole (r.bytes ++ b.drop 1) = true := by simp only [messageWhole, h12, ← hsize, le_refl, decide_true, Bool.and_self]
  have htake : (r.bytes ++ b.drop 1).take (frameSize (headerOf (r.bytes ++ b.drop 1)).len) = r.bytes ++ b.drop 1 :=
    List.take_of_length_le (by rw [hsize])
  simp only [Machine.segment, hr, hmod, hlast, decide_true, if_true, Bool.not_true, Bool.false_and, Bool.false_eq_true, if_false, Option.map_some,
    Option.getD_some, hwhole, htake]

/-- R385, R387: the last segment of a message of one frame. -/
theorem canbSegment_joins (hstep : inThisStep s t₀ = true) (hon : canbOn s) (hh : canbSlot s = some h) (hatt : attached s h = true)
    (hr : (slotOf s h).reasm = some r) (hlen : inRange 1 64 b.length = true) (hseg : leAt b 0 1 = 128 + r.nextSeg) (hnext : r.nextSeg < 128)
    (hl : lone (r.bytes ++ b.drop 1) 4084) (hroom : roomFor1 s h (r.bytes ++ b.drop 1)) :
    answers (.canbSegment b t₀) s fun t => joined s t h (absTick s t₀) (r.bytes ++ b.drop 1) none ∧
      regsBut s t [HIF_H_CNT_ACC h] ∧ partsBut s t [.regs, .hif] := by
  refine exec_canbSegment hstep hon hh hlen ?_
  rw [segment_last (absTick s t₀) hr hseg hnext hl]
  obtain ⟨u, hu⟩ : ∃ u, u = modSlot s h fun x => { x with reasm := none } := ⟨_, rfl⟩
  have hslot : slotOf u h = { slotOf s h with reasm := none } := hu ▸ slotOf_modSlot s h _
  have hport : 4084 ≤ portMax u h := by
    rw [portMax, show portOf u h = 2 from hu ▸ canbSlot_port hh, if_neg (by decide)]
  have hroom' : roomFor1 u h (r.bytes ++ b.drop 1) := by
    rw [roomFor1, hslot]
    exact hroom
  rw [← hu, unitArrives_lone (absTick s t₀) hl hport hroom']
  obtain ⟨⟨hjoin, hcnt, hothers⟩, hregs, hparts⟩ := joined_of_lone (s := u) (absTick s t₀) hl (by rw [hu]; exact hatt)
  refine ⟨⟨?_, ?_, fun g hg => ?_⟩, regsBut_before hregs (hu ▸ rfl), ?_⟩
  · rw [hjoin, hslot, frameOf, frameOf, show u.hif.accepted = s.hif.accepted from hu ▸ rfl]
  · rw [hcnt, getF_of_regs (show u.regs = s.regs from hu ▸ rfl)]
  · rw [hothers g hg, hu, slotOf_modSlot_ne s _ hg]
  · have hkeep : Keeps (· ∈ [Part.regs, .hif]) s u := hu ▸ modSlot_keeps s h _ (allows_of_subset (by decide)) (Keeps.refl ..)
    exact ⟨fun p hp => samePart_trans (hkeep.same p hp) (hparts.1 p hp), hparts.2.trans hkeep.pending⟩

end CanB

/-- Settles O43: each port cuts its unit into the one frame, and the frame's arrival is the same for all of them. -/
theorem framesReachTheirRings : Obligations.FramesReachTheirRings := by
  unfold Obligations.FramesReachTheirRings
  refine ⟨fun s m h t₀ hrun hstep hm hh hatt hl hroom => reqWrite_joins hrun hstep hm hh hatt hl hroom,
    fun s ip port b h t₀ hstep hport hup hrelay hh hatt hl hroom => exec_udpDatagram hstep hport ?_,
    fun s b h t₀ r hstep hon hh hatt hr hlen hseg hnext hl hroom => canbSegment_joins hstep hon hh hatt hr hlen hseg hnext hl hroom⟩
  rw [udpDatagram_lone _ hup hrelay hl, udpFrame_bound _ hl hroom hh]
  exact joined_of_lone _ hl hatt

end Sys2Proof.Transport

namespace Sys2Proof.Transport

open Sys2Proof Sys2Proof.Machine Sys2Proof.Frame Sys2Proof.Mailbox

/-! ### Sources without a slot (R384) -/

section Unbound

variable {s : State} {h : Nat} {b : List Byte} {ip port : Word}

/-- The slot with its binding written. -/
def boundSlot (s : State) (h : Nat) (ip port : Word) : State := wr (wr s (HIF_H_UDP_IP h) ip) (HIF_H_UDP_PORT h) port

theorem udpFrame_attach (t : Nat) (hl : lone b 1460) (hnone : udpSlot s ip port = none) (hfree : freeUdpSlot s = some h)
    (hcode : (headerOf b).code = 2) (hroom : roomFor1 s h b) :
    (udpFrame s ip port t (headerOf b) ((b.drop 12).take (headerOf b).len) false false).1 =
      frameArrives (boundSlot s h ip port) h t (headerOf b) ((b.drop 12).take (headerOf b).len) false := by
  have hfits : ¬ ringBytes < reqUsed (slotOf (wr (wr s (HIF_H_UDP_IP h) ip) (HIF_H_UDP_PORT h) port) h) + frameSize (headerOf b).len :=
    Nat.not_lt.2 hroom
  have hport : ¬ 1460 < (headerOf b).len := Nat.not_lt.2 hl.2.2.1
  simp only [udpFrame, hnone, hcode, hfree, if_true, hfits, hport, decide_false, Bool.or_false, boundSlot]

/-- An ATTACH from a source without a slot binds the slot, and its frame joins the slot's ring. -/
theorem attach_binds (t : Nat) (hl : lone b 1460) (hcode : (headerOf b).code = 2) :
    let u := frameArrives (boundSlot s h ip port) h t (headerOf b) ((b.drop 12).take (headerOf b).len) false
    joined s u h t b (slotOf s h).reasm ∧ rd u (HIF_H_UDP_IP h) = ip ∧ rd u (HIF_H_UDP_PORT h) = port ∧
      regsBut s u [HIF_H_UDP_IP h, HIF_H_UDP_PORT h, HIF_H_CNT_ACC h] ∧ partsBut s u [.regs, .hif] := by
  intro u
  obtain ⟨-, hbad, -, -, hack, hknown⟩ := hl
  obtain ⟨hjoin, hcnt, hothers, hregs, hparts⟩ :=
    frameArrives_accepted (s := boundSlot s h ip port) (h := h) t ((b.drop 12).take (headerOf b).len) hbad hack (.inr (.inr hcode)) hknown
  have hbound : regsBut s (boundSlot s h ip port) [HIF_H_UDP_IP h, HIF_H_UDP_PORT h, HIF_H_CNT_ACC h] :=
    regsBut_wr (regsBut_wr (regsBut_refl _ _) (by simp) _) (by simp) _
  have hkeep : Keeps (· ∈ [Part.regs, .hif]) s (boundSlot s h ip port) :=
    wr_keeps _ _ _ (allows_of_subset (by decide)) (wr_keeps s _ _ (allows_of_subset (by decide)) (Keeps.refl ..))
  have hip : rd (boundSlot s h ip port) (HIF_H_UDP_IP h) = ip :=
    (rd_wr_ne _ _ _ _ (by change 0x0112 + 8 * h ≠ 0x0113 + 8 * h; omega)).trans (rd_wr_self _ _ _)
  have hacc : rd (boundSlot s h ip port) (HIF_H_CNT_ACC h) = rd s (HIF_H_CNT_ACC h) :=
    (rd_wr_ne _ _ _ _ (by change 0x0115 + 8 * h ≠ 0x0113 + 8 * h; omega)).trans
      (rd_wr_ne _ _ _ _ (by change 0x0115 + 8 * h ≠ 0x0112 + 8 * h; omega))
  refine ⟨⟨hjoin, hcnt.trans ?_, hothers⟩, (hregs _ ?_).trans hip, (hregs _ ?_).trans (rd_wr_self _ _ _),
    regsBut_trans hbound (regsBut_mono hregs (by simp)), fun p hp => samePart_trans (hkeep.same p hp) (hparts.1 p hp), hparts.2.trans hkeep.pending⟩
  · rw [getF_congr (f := HIF_H_CNT_ACC_CNT h) hacc]
  · rw [List.mem_singleton]
    change 0x0112 + 8 * h ≠ 0x0115 + 8 * h
    omega
  · rw [List.mem_singleton]
    change 0x0113 + 8 * h ≠ 0x0115 + 8 * h
    omega

/-- The result of IDENTIFY for a source without a slot. -/
def identity (s : State) (x : Header) : Result :=
  { code := 1, status := stOk, rseq := 0, htag := x.htag, step := stepCnt s, payload := identifyBody s none }

theorem udpFrame_identify (t : Nat) (hl : lone b 1460) (hnone : udpSlot s ip port = none) (hcode : (headerOf b).code = 1)
    (hlen : (headerOf b).len = 0) :
    (udpFrame s ip port t (headerOf b) ((b.drop 12).take (headerOf b).len) false false).1 = sendResults s 255 1 [identity s (headerOf b)] := by
  have hgood : ¬ (false = true ∨ (headerOf b).bad = true ∨ 1460 < 0) := by simp [hl.2.1]
  simp only [udpFrame, hnone, hcode, show ¬ 1 = 2 by decide, hlen, if_false, if_true, hgood, identity]

theorem udpFrame_other (t : Nat) (hnone : udpSlot s ip port = none) (hattach : (headerOf b).code ≠ 2) (hident : (headerOf b).code ≠ 1) :
    (udpFrame s ip port t (headerOf b) ((b.drop 12).take (headerOf b).len) false false).1 = bump s HIF_CNT_UNBOUND_CNT := by
  simp only [udpFrame, hnone, hattach, hident, if_false]

/-- R346, R384: what a datagram of one frame from a source without a slot leaves. -/
theorem udp_without_slot {t₀ : Nat} (hstep : inThisStep s t₀ = true) (hport : port.toNat < 65536) (hup : s.sys.phase = .up)
    (hrelay : relayState s = byInserted) (hnone : udpSlot s ip port = none) (hl : lone b 1460) :
    (∀ h, freeUdpSlot s = some h → (headerOf b).code = 2 → roomFor1 s h b → answers (.udpDatagram ip port b t₀) s fun t =>
      joined s t h (absTick s t₀) b (slotOf s h).reasm ∧ rd t (HIF_H_UDP_IP h) = ip ∧ rd t (HIF_H_UDP_PORT h) = port ∧
        regsBut s t [HIF_H_UDP_IP h, HIF_H_UDP_PORT h, HIF_H_CNT_ACC h] ∧ partsBut s t [.regs, .hif]) ∧
    ((headerOf b).code = 1 → (headerOf b).len = 0 → answers (.udpDatagram ip port b t₀) s fun t => t.hif.slots = s.hif.slots ∧
      t.hif.sent = s.hif.sent ++ [(255, identity s (headerOf b))] ∧ partsBut s t [.hif]) ∧
    ((headerOf b).code ≠ 1 → (headerOf b).code ≠ 2 → answers (.udpDatagram ip port b t₀) s fun t =>
      getF t HIF_CNT_UNBOUND_CNT = min (getF s HIF_CNT_UNBOUND_CNT + 1) (2 ^ 32 - 1) ∧ regsBut s t [HIF_CNT_UNBOUND] ∧ partsBut s t [.regs]) := by
  refine ⟨fun h hfree hcode hroom => exec_udpDatagram hstep hport ?_, fun hcode hlen => exec_udpDatagram hstep hport ?_,
    fun hident hattach => exec_udpDatagram hstep hport ?_⟩
  · rw [udpDatagram_lone _ hup hrelay hl, udpFrame_attach _ hl hnone hfree hcode hroom]
    exact attach_binds _ hl hcode
  · rw [udpDatagram_lone _ hup hrelay hl, udpFrame_identify _ hl hnone hcode hlen]
    exact ⟨rfl, rfl, partsBut_of_keeps (sendResults_keeps s 255 1 _ (allows_of_subset (by decide)) (Keeps.refl ..))⟩
  · rw [udpDatagram_lone _ hup hrelay hl, udpFrame_other _ hnone hattach hident]
    exact ⟨getF_bump s HIF_CNT_UNBOUND_CNT 1 (by decide), regsBut_bump (regsBut_refl _ _) (by simp) _,
      partsBut_of_keeps (bump_keeps s _ _ (allows_of_subset (by decide)) (Keeps.refl ..))⟩

end Unbound

/-! ### Segments (R385) -/

section Segments

variable {s : State} {h : Nat} {b : List Byte} {r : Reasm}

/-- The first segment of a message, which is not its last one. -/
theorem segment_first (t : Nat) (hr : (slotOf s h).reasm = none) (hseg : leAt b 0 1 = 0) :
    Machine.segment s h t b = modSlot s h fun x => { x with reasm := some { nextSeg := 1, bytes := b.drop 1, heard := t } } := by
  simp [Machine.segment, hr, hseg]

/-- A message that is being put together is discarded and counted. -/
theorem dropMessage_some (hr : (slotOf s h).reasm = some r) :
    slotOf (dropMessage s h) h = { slotOf s h with reasm := none } ∧
      getF (dropMessage s h) (HIF_H_CNT_DROP_UNITS h) = min (getF s (HIF_H_CNT_DROP_UNITS h) + 1) 65535 ∧
      (∀ g, g ≠ h → slotOf (dropMessage s h) g = slotOf s g) ∧ regsBut s (dropMessage s h) [HIF_H_CNT_DROP h] ∧
      partsBut s (dropMessage s h) [.regs, .hif] := by
  have heq : dropMessage s h = bump (modSlot s h fun x => { x with reasm := none }) (HIF_H_CNT_DROP_UNITS h) := by
    simp only [dropMessage, hr, Option.isSome_some, if_true]
  refine ⟨?_, ?_, fun g hg => ?_, ?_, partsBut_of_keeps (dropMessage_keeps s h (allows_of_subset (by decide)) (Keeps.refl ..))⟩
  · rw [heq]
    exact slotOf_modSlot s h _
  · rw [heq]
    exact getF_bump (modSlot s h fun x => { x with reasm := none }) (HIF_H_CNT_DROP_UNITS h) 1 (by simp)
  · rw [heq]
    exact slotOf_modSlot_ne s _ hg
  · rw [heq]
    exact regsBut_bump (regsBut_of_regs rfl _) (by simp) _

/-- A segment out of sequence, which does not begin a message. -/
theorem segment_stray (t : Nat) (hr : (slotOf s h).reasm = some r) (hseg : leAt b 0 1 % 128 ≠ r.nextSeg) (hfirst : leAt b 0 1 % 128 ≠ 0) :
    Machine.segment s h t b = dropMessage s h := by
  simp only [Machine.segment, hr, hseg, hfirst, decide_false, Bool.not_false, Bool.true_and, decide_true, ne_eq, not_false_eq_true, if_true,
    Bool.false_eq_true, if_false]

end Segments

/-- Settles O44: a source without a slot is bound, identified or counted, and a segment opens a message, or ends one that it does not continue. -/
theorem udpBindingAndSegments : Obligations.UdpBindingAndSegments := by
  unfold Obligations.UdpBindingAndSegments
  refine ⟨fun s ip port b t₀ hstep hport => ⟨fun hrelay => exec_udpDatagram hstep hport ?_, fun hup hrelay hnone hl =>
      udp_without_slot hstep hport hup hrelay hnone hl⟩,
    fun s b h t₀ hstep hon hh hlen => ⟨fun hr hseg => exec_canbSegment hstep hon hh hlen ?_, fun r hr hseg hfirst => exec_canbSegment hstep hon hh hlen ?_⟩,
    fun s h t₀ r hstep hh hr hlate => answers_of_answer (t := segmentTimeout s (absTick s t₀)) rfl hstep ?_⟩
  · rw [udpDatagram, if_neg fun hin => hrelay hin.2.1]
  · rw [segment_first _ hr hseg]
    exact ⟨slotOf_modSlot s h _, fun g hg => slotOf_modSlot_ne s _ hg,
      partsBut_of_keeps (modSlot_keeps s h _ (allows_of_subset (by decide)) (Keeps.refl ..))⟩
  · rw [segment_stray _ hr hseg hfirst]
    exact dropMessage_some hr
  · have heq : segmentTimeout s (absTick s t₀) = dropMessage s h := by simp only [segmentTimeout, hh, hr, hlate, if_true]
    rw [heq]
    exact dropMessage_some hr

end Sys2Proof.Transport

namespace Sys2Proof.Transport

open Sys2Proof Sys2Proof.Machine Sys2Proof.Frame Sys2Proof.Mailbox Sys2Proof.Recorder Sys2Proof.Corrections

/-! ### SPI transactions (R382, R383) -/

section Transactions

variable {s : State} {m : List Byte} {t₀ : Nat}

/-- A transaction that R383 discards leaves what it is said to leave. -/
theorem spiTransaction_discarded (hrun : s.sys.inReset = false) (hbad : spiResult s m ≠ ltOk) (t : Nat) : discarded s (spiTransaction s m t) m := by
  unfold discarded
  cases hrefused : spiRefused s m <;> simp [spiTransaction, hrun, hbad, hrefused, modHif, fresh]

/-- What a transaction that is accepted has passed (R383). -/
theorem sound_facts (hok : spiResult s m = ltOk) :
    (m.drop 4).take 2 = crcBytes (m.take 4) ∧ (if decide (leAt m 0 1 = 1 ∨ leAt m 0 1 = 4) = true then 10 else 8) + spiN m ≤ m.length ∧
      spiBadOp m = false := by
  unfold spiResult at hok
  extract_lets op n reads at hok
  refine ⟨by_contra fun hcrc => ?_, not_lt.1 fun hshort => ?_, Bool.eq_false_iff.2 fun hbad => ?_⟩
  · rw [if_pos hcrc] at hok
    split_ifs at hok <;> exact absurd hok (by decide)
  · rw [if_pos (show m.length < (if reads = true then 10 else 8) + n from hshort)] at hok
    split_ifs at hok <;> exact absurd hok (by decide)
  · rw [if_pos hbad] at hok
    split_ifs at hok <;> exact absurd hok (by decide)

theorem four_dvd_of_ok (hok : spiResult s m = ltOk) : spiN m % 4 = 0 := by
  obtain ⟨-, -, hbad⟩ := sound_facts hok
  unfold spiBadOp at hbad
  simp only [Bool.or_eq_false_iff, decide_eq_false_iff_not, not_not] at hbad
  exact hbad.1.1.2

theorem length_wordBytes (l : List Word) : (wordBytes l).length = 4 * l.length := by
  induction l with
  | nil => rfl
  | cons w r ih => simp only [wordBytes, List.length_append, length_leBytes, ih, List.length_cons]; omega

theorem length_crcBytes (b : List Byte) : (crcBytes b).length = 2 := by rw [crcBytes, List.length_reverse, length_leBytes]

/-- A read returns as many bytes as it asks for. -/
theorem length_spiData (hok : spiResult s m = ltOk) : (spiData s m).length = spiN m := by
  have hfour := four_dvd_of_ok hok
  unfold spiData
  extract_lets n b
  by_cases hop : leAt m 0 1 = 1
  · rw [if_pos hop, length_wordBytes, List.length_map, List.length_range]
    omega
  · rw [if_neg hop, List.length_take, List.length_append, List.length_replicate]
    omega

/-- The data that a read returns stands behind the header's answer and the turn-around (R382). -/
theorem miso_data (hok : spiResult s m = ltOk) (hreads : leAt m 0 1 = 1 ∨ leAt m 0 1 = 4) (f : Nat) :
    ((spiMiso s m f).drop 8).take (spiN m) = spiData s m := by
  obtain ⟨hcrc, hlen, -⟩ := sound_facts hok
  rw [if_pos (decide_eq_true hreads)] at hlen
  have htail : spiTail s m f = [0xFF#8, 0xFF#8] ++ spiData s m ++ crcBytes (spiData s m) ++ List.replicate m.length 0xFF#8 := by
    have hno : ¬ ((m.drop 4).take 2 ≠ crcBytes (m.take 4) ∨ leAt m 0 1 = 2 ∨ leAt m 0 1 = 3) := by
      rcases hreads with hop | hop <;> simp [hcrc, hop]
    simp only [spiTail, if_neg hno, not_refused_of_ok hok, Bool.false_eq_true, if_false]
  unfold spiMiso
  extract_lets free h₄ h₆
  have hsix : h₆.length = 6 := by simp [h₆, h₄, length_leBytes, length_crcBytes]
  have hcut : (h₆ ++ spiTail s m f).drop 8 = spiData s m ++ (crcBytes (spiData s m) ++ List.replicate m.length 0xFF#8) := by
    rw [htail, List.drop_append, hsix, List.drop_eq_nil_of_le (by omega)]
    simp
  rw [List.drop_take, hcut, List.take_take, Nat.min_eq_left (by omega), List.take_append_of_le_length (length_spiData hok).ge,
    List.take_of_length_le (length_spiData hok).le]

/-- The four rows of a transaction answer what it leaves. -/
theorem spi_answers (hstep : inThisStep s t₀ = true) {p : State → Prop} (hp : p (spiTransaction s m (absTick s t₀))) :
    (spiKind 1 m = true → answers (.winRead m t₀) s p) ∧ (spiKind 2 m = true → answers (.winWrite m t₀) s p) ∧
      (spiKind 3 m = true → answers (.reqWrite m t₀) s p) ∧ (spiKind 4 m = true → answers (.rspRead m t₀) s p) :=
  ⟨fun hk => answers_of_answer (t := spiTransaction s m (absTick s t₀)) rfl (by simp [hstep, hk]) hp,
    fun hk => answers_of_answer (t := spiTransaction s m (absTick s t₀)) rfl (by simp [hstep, hk]) hp,
    fun hk => answers_of_answer (t := spiTransaction s m (absTick s t₀)) rfl (by simp [hstep, hk]) hp,
    fun hk => answers_of_answer (t := spiTransaction s m (absTick s t₀)) rfl (by simp [hstep, hk]) hp⟩

theorem winReadDone_spec (s : State) (a n : Nat) : (winReadDone s a n).hif.slots = s.hif.slots ∧ (winReadDone s a n).regs = s.regs ∧
    Keeps (· ∈ [.hif, .recd]) s (winReadDone s a n) := by
  have hdone : (winReadDone s a n).hif.slots = s.hif.slots ∧ (winReadDone s a n).regs = s.regs := by
    unfold winReadDone
    extract_lets u
    have hu : u.hif.slots = s.hif.slots ∧ u.regs = s.regs := by
      unfold u
      split_ifs <;> exact ⟨rfl, rfl⟩
    split_ifs <;> exact hu
  exact ⟨hdone.1, hdone.2, winReadDone_keeps s a n (allows_of_subset (by decide)) (Keeps.refl ..)⟩

/-- WIN_READ returns the words of the window in order, and changes no register. -/
theorem winRead_answers (hrun : s.sys.inReset = false) (hstep : inThisStep s t₀ = true) (hm : sound s 1 m) :
    answers (.winRead m t₀) s fun t => t.hif.last = 0 ∧
      (t.hif.miso.drop 8).take (spiN m) = wordBytes ((List.range (spiN m / 4)).map fun k => winWord s (leAt m 1 1 + k)) ∧
      t.hif.slots = s.hif.slots ∧ regsBut s t [] ∧ partsBut s t [.hif, .recd] := by
  obtain ⟨hop, hok⟩ := hm
  refine (spi_answers hstep ?_).1 (spiKind_of_op hop)
  have heffect : spiEffect s m (absTick s t₀) = winReadDone s (leAt m 1 1) (spiN m / 4) := by simp only [spiEffect, hop]
  have hdata : spiData s m = wordBytes ((List.range (spiN m / 4)).map fun k => winWord s (leAt m 1 1 + k)) := by simp only [spiData, hop, if_true]
  obtain ⟨hslots, hregs, hkeep⟩ := winReadDone_spec s (leAt m 1 1) (spiN m / 4)
  rw [spiTransaction_ok hrun hok, heffect, ← hdata]
  exact ⟨rfl, miso_data hok (.inl hop) _, hslots, regsBut_of_regs hregs _, partsBut_modHif _ (by simp) (partsBut_of_keeps hkeep)⟩

/-- RSP_READ returns the current result and changes no slot. -/
theorem rspRead_answers (hrun : s.sys.inReset = false) (hstep : inThisStep s t₀ = true) (hm : sound s 4 m) :
    answers (.rspRead m t₀) s fun t => t.hif.last = 0 ∧ (t.hif.miso.drop 8).take (spiN m) = spiData s m ∧
      t.hif.slots = s.hif.slots ∧ partsBut s t [.hif] := by
  obtain ⟨hop, hok⟩ := hm
  refine (spi_answers hstep ?_).2.2.2 (spiKind_of_op hop)
  have heffect : spiEffect s m (absTick s t₀) = s := by simp only [spiEffect, hop]
  rw [spiTransaction_ok hrun hok, heffect]
  exact ⟨rfl, miso_data hok (.inr hop) _, rfl, partsBut_modHif _ (by simp) (partsBut_of_keeps (Keeps.refl ..))⟩

end Transactions

end Sys2Proof.Transport

namespace Sys2Proof.Transport

open Sys2Proof Sys2Proof.Machine Sys2Proof.Frame Sys2Proof.Mailbox Sys2Proof.Recorder Sys2Proof.Corrections Sys2Proof.HostWrites

/-! ### A write of one word (R409) -/

section Words

/-- The header of a write of one word. -/
def wordHead (a : Nat) : List Byte := [2#8, BitVec.ofNat 8 a, 4#8, 0#8]

theorem spiWord_eq (a : Nat) (v : Word) :
    spiWord a v = wordHead a ++ (crcBytes (wordHead a) ++ (leBytes 4 v.toNat ++ crcBytes (leBytes 4 v.toNat))) := by
  simp [spiWord, wordHead, leBytes]

/-- What R383 looks at in a transaction that a host forms for one word. -/
theorem spiWord_parts (a : Nat) (v : Word) :
    (spiWord a v).length = 12 ∧ (spiWord a v).take 4 = wordHead a ∧ ((spiWord a v).drop 4).take 2 = crcBytes (wordHead a) ∧
      ((spiWord a v).drop 6).take 4 = leBytes 4 v.toNat ∧ ((spiWord a v).drop 10).take 2 = crcBytes (leBytes 4 v.toNat) := by
  obtain ⟨c₀, c₁, hc⟩ := List.length_eq_two.1 (length_crcBytes (wordHead a))
  obtain ⟨d₀, d₁, hd⟩ := List.length_eq_two.1 (length_crcBytes (leBytes 4 v.toNat))
  rw [spiWord_eq, hc, hd]
  simp [wordHead, leBytes]

theorem spiWord_header (a : Nat) (v : Word) (ha : a < 256) :
    leAt (spiWord a v) 0 1 = 2 ∧ leAt (spiWord a v) 1 1 = a ∧ spiN (spiWord a v) = 4 := by
  rw [spiN, spiWord_eq]
  simp [wordHead, leAt, leNat]
  omega

theorem spiWord_sound (s : State) {a : Nat} (ha : a < 64) (v : Word) : sound s 2 (spiWord a v) := by
  obtain ⟨hlen, hhead, hcrc, hdata, hend⟩ := spiWord_parts a v
  obtain ⟨hop, haddr, hn⟩ := spiWord_header a v (by omega)
  have hgood : spiBadOp (spiWord a v) = false := by simp [spiBadOp, hop, haddr, hn, inRange]; omega
  refine ⟨hop, ?_⟩
  simp only [spiResult, hlen, hhead, hcrc, hop, hn, hgood, hdata, hend]
  simp

end Words

/-! ### The cursor (R417, R423) -/

section Cursor

variable {s : State} {t₀ : Nat}

theorem regsBut_releaseFreeze (s : State) (p : Nat) : regsBut s (releaseFreeze s p) tally := by
  unfold releaseFreeze endFreeze
  split_ifs
  · exact regsBut_before (regsBut_mono (regsBut_recTake _) lossCounters_subset_tally) rfl
  · exact regsBut_refl _ _
  · exact regsBut_refl _ _

theorem releaseFreeze_recd (s : State) (p : Nat) :
    (releaseFreeze s p).recd.cursor = s.recd.cursor ∧ (s.recd.freeze = some p → (releaseFreeze s p).recd.freeze = none) ∧
      (s.recd.freeze ≠ some p → (releaseFreeze s p).recd.freeze = s.recd.freeze) := by
  unfold releaseFreeze
  split_ifs with hp
  · obtain ⟨_, _, _, hrecd⟩ := sameButQueue_endFreeze s
    rw [hrecd]
    exact ⟨rfl, fun _ => rfl, fun hne => absurd hp hne⟩
  · exact ⟨rfl, fun he => absurd he hp, fun _ => rfl⟩

/-- The state with its cursor at a record. -/
def cursorAt (s : State) (i : Nat) : State := modRec s fun r => { r with cursor := i }

theorem cursorWrite_frees (s : State) (v : Word) (hserv : inService s = false) (hv : v.getLsbD 16 = false) :
    cursorWrite s v = releaseFreeze (cursorAt s (bitsOf v 13 0)) 4 := by
  simp only [cursorWrite, hserv, hv, Bool.false_eq_true, if_false, cursorAt]

theorem cursorWrite_freezes (s : State) (v : Word) (hserv : inService s = false) (hv : v.getLsbD 16 = true) :
    cursorWrite s v = if s.recd.freeze.isNone then freezeLog (cursorAt s (bitsOf v 13 0)) 4 else cursorAt s (bitsOf v 13 0) := by
  simp only [cursorWrite, hserv, hv, Bool.false_eq_true, if_false, if_true, cursorAt]
  rfl

theorem cursorWrite_service (s : State) (v : Word) (hserv : inService s = true) : cursorWrite s v = s := by simp only [cursorWrite, hserv, if_true]

theorem cursorWrite_cursor (s : State) (v : Word) (hserv : inService s = false) : (cursorWrite s v).recd.cursor = bitsOf v 13 0 := by
  cases hv : v.getLsbD 16
  · rw [cursorWrite_frees s v hserv hv]
    exact (releaseFreeze_recd _ 4).1
  · rw [cursorWrite_freezes s v hserv hv]
    split_ifs <;> rfl

theorem regsBut_cursorWrite (s : State) (v : Word) : regsBut s (cursorWrite s v) tally := by
  cases hserv : inService s
  · cases hv : v.getLsbD 16
    · rw [cursorWrite_frees s v hserv hv]
      exact regsBut_before (regsBut_releaseFreeze _ 4) rfl
    · rw [cursorWrite_freezes s v hserv hv]
      split_ifs <;> exact regsBut_of_regs rfl _
  · rw [cursorWrite_service s v hserv]
    exact regsBut_refl _ _

theorem cursorWrite_others (s : State) (v : Word) : (cursorWrite s v).hif = s.hif ∧ partsBut s (cursorWrite s v) [.regs, .hif, .recd] :=
  ⟨(cursorWrite_keeps (R := (· ∈ [Part.regs, .recd])) s v (allows_of_subset (by decide)) (Keeps.refl ..)).same .hif (by decide),
    partsBut_of_keeps (cursorWrite_keeps s v (allows_of_subset (by decide)) (Keeps.refl ..))⟩

/-- The word that a write of one word carries. -/
def wordOf (m : List Byte) : Word := wordAt ((m.drop 6).take 4) 0

theorem spiEffect_word {m : List Byte} (hm : sound s 2 m) (hn : spiN m = 4) (t : Nat) : spiEffect s m t = winWrite s (leAt m 1 1) (wordOf m) := by
  simp only [spiEffect, hm.1, hn]
  rfl

theorem wordOf_bits (m : List Byte) : bitsOf (wordOf m) 13 0 = leAt m 6 4 % 16384 := by
  have hlt : leAt m 6 4 < 2 ^ 32 := leAt_lt m 6 4
  have hsame : leAt ((m.drop 6).take 4) 0 4 = leAt m 6 4 := by simp [leAt, List.take_take]
  rw [wordOf, wordAt, hsame, bitsOf_ofNat hlt]
  simp

/-- WIN_WRITE of REC_CUR moves the cursor. -/
theorem winWrite_cursor {m : List Byte} (hrun : s.sys.inReset = false) (hstep : inThisStep s t₀ = true) (hm : sound s 2 m) (ha : leAt m 1 1 = 0x10)
    (hn : spiN m = 4) (hserv : inService s = false) :
    answers (.winWrite m t₀) s fun t => t.hif.last = 0 ∧ t.recd.cursor = leAt m 6 4 % 16384 ∧ t.hif.slots = s.hif.slots ∧ regsBut s t tally ∧
      partsBut s t [.regs, .hif, .recd] := by
  refine (spi_answers hstep ?_).2.1 (spiKind_of_op hm.1)
  have heffect : spiEffect s m (absTick s t₀) = cursorWrite s (wordOf m) := by
    rw [spiEffect_word hm hn, ha, winWrite, if_neg (by decide), if_pos rfl]
  obtain ⟨hhif, hparts⟩ := cursorWrite_others s (wordOf m)
  rw [spiTransaction_ok hrun hm.2, heffect]
  exact ⟨rfl, (cursorWrite_cursor s _ hserv).trans (wordOf_bits m), show (cursorWrite s (wordOf m)).hif.slots = _ by rw [hhif], regsBut_put (regsBut_cursorWrite s _) rfl,
    partsBut_modHif _ (by simp) hparts⟩

/-- The word of a WINDOW_FREEZE. -/
def freezeWord (i : Nat) (freeze : Bool) : Word := BitVec.ofNat 32 (i + bit freeze 16)

theorem freezeWord_bits {i : Nat} (hi : i < 16384) (freeze : Bool) :
    bitsOf (freezeWord i freeze) 13 0 = i ∧ (freezeWord i freeze).getLsbD 16 = freeze := by
  have hlt : i + bit freeze 16 < 2 ^ 32 := by cases freeze <;> simp [bit] <;> omega
  have hbit : (i + bit freeze 16).testBit 16 = freeze := by
    rw [Nat.testBit_eq_decide_div_mod_eq]
    cases freeze <;> simp [bit] <;> omega
  refine ⟨?_, ?_⟩
  · rw [freezeWord, bitsOf_ofNat hlt]
    cases freeze <;> simp [bit] <;> omega
  · rw [freezeWord, BitVec.getLsbD_ofNat, hbit]
    simp

theorem wordOf_spiWord (a : Nat) (v : Word) : wordOf (spiWord a v) = v := by
  obtain ⟨-, -, -, hdata, -⟩ := spiWord_parts a v
  have hv : v.toNat % 256 ^ 4 = v.toNat := Nat.mod_eq_of_lt (v.isLt.trans_eq (by norm_num))
  rw [wordOf, hdata, wordAt, leAt_leBytes, hv, BitVec.ofNat_toNat, BitVec.setWidth_eq]

/-- A write of one word that a host forms: its effect, and 0 in LAST. -/
theorem spiTransaction_word (hrun : s.sys.inReset = false) {a : Nat} (ha : a < 64) (v : Word) (t : Nat) :
    spiTransaction s (spiWord a v) t = modHif (winWrite s a v) (showOk s (spiWord a v)) := by
  have hm := spiWord_sound s ha v
  obtain ⟨-, haddr, hn⟩ := spiWord_header a v (by omega)
  rw [spiTransaction_ok hrun hm.2, spiEffect_word hm hn, haddr, wordOf_spiWord]

theorem windowFreeze_answers (hrun : s.sys.inReset = false) (hstep : inThisStep s t₀ = true) {i : Nat} (hi : i < 16384) (freeze : Bool)
    {p : State → Prop} (hp : p (modHif (cursorWrite s (freezeWord i freeze)) (showOk s (spiWord 0x10 (freezeWord i freeze))))) :
    answers (.windowFreeze i freeze t₀) s p := by
  refine answers_of_answer (t := spiTransaction s (spiWord 0x10 (freezeWord i freeze)) (absTick s t₀)) rfl (by simp [hstep, hi]) ?_
  rw [spiTransaction_word hrun (by decide)]
  exact hp

/-- WINDOW_FREEZE in service leaves the recorder alone. -/
theorem windowFreeze_service (hrun : s.sys.inReset = false) (hstep : inThisStep s t₀ = true) {i : Nat} (hi : i < 16384) (hserv : inService s = true)
    (freeze : Bool) : answers (.windowFreeze i freeze t₀) s fun t => partsBut s t [.hif] := by
  refine windowFreeze_answers hrun hstep hi freeze ?_
  rw [cursorWrite_service s _ hserv]
  exact partsBut_modHif _ (by simp) (partsBut_of_keeps (Keeps.refl ..))

/-- WINDOW_FREEZE outside service sets the cursor, and freezes a log that nobody has frozen. -/
theorem windowFreeze_freezes (hrun : s.sys.inReset = false) (hstep : inThisStep s t₀ = true) {i : Nat} (hi : i < 16384) (hserv : inService s = false) :
    answers (.windowFreeze i true t₀) s fun t => t.recd.cursor = i ∧ t.recd.log = s.recd.log ∧
      (s.recd.freeze = none → t.recd.freeze = some 4 ∧ t.recd.freezeAt = absTick s (nowTick s)) ∧
      (s.recd.freeze.isSome = true → t.recd.freeze = s.recd.freeze) ∧ partsBut s t [.hif, .recd] := by
  refine windowFreeze_answers hrun hstep hi true ?_
  obtain ⟨hcursor, hbit⟩ := freezeWord_bits hi true
  rw [cursorWrite_freezes s _ hserv hbit, hcursor]
  have hat : Keeps (· ∈ [Part.hif, .recd]) s (cursorAt s i) := modRec_keeps s _ (allows_of_subset (by decide)) (Keeps.refl ..)
  cases hf : s.recd.freeze with
  | none =>
    exact ⟨rfl, rfl, fun _ => ⟨rfl, rfl⟩, by simp, partsBut_modHif _ (by simp)
      (partsBut_of_keeps (freezeLog_keeps _ _ (allows_of_subset (by decide)) hat))⟩
  | some q => exact ⟨rfl, rfl, by simp, fun _ => hf, partsBut_modHif _ (by simp) (partsBut_of_keeps hat)⟩

/-- WINDOW_FREEZE without FREEZE sets the cursor, and ends the window's own freeze. -/
theorem windowFreeze_frees (hrun : s.sys.inReset = false) (hstep : inThisStep s t₀ = true) {i : Nat} (hi : i < 16384) (hserv : inService s = false) :
    answers (.windowFreeze i false t₀) s fun t => t.recd.cursor = i ∧ (s.recd.freeze = some 4 → t.recd.freeze = none) ∧
      (s.recd.freeze ≠ some 4 → t.recd.freeze = s.recd.freeze) ∧ regsBut s t tally ∧ partsBut s t [.regs, .hif, .recd] := by
  refine windowFreeze_answers hrun hstep hi false ?_
  obtain ⟨hcursor, hbit⟩ := freezeWord_bits hi false
  have hregs := regsBut_cursorWrite s (freezeWord i false)
  have hparts := (cursorWrite_others s (freezeWord i false)).2
  rw [cursorWrite_frees s _ hserv hbit, hcursor] at hregs hparts ⊢
  obtain ⟨hat, hfreed, hother⟩ := releaseFreeze_recd (cursorAt s i) 4
  exact ⟨hat, hfreed, hother, regsBut_put hregs rfl, partsBut_modHif _ (by simp) hparts⟩

end Cursor

/-! ### Acknowledgements (R392) -/

section Acknowledgements

variable {s : State} {h t₀ : Nat}

theorem ackResult_front {r : Result} {rest : List Result} (hunrel : (slotOf s h).unrel = r :: rest) (howed : (slotOf s h).owed = []) :
    ackResult s h r.rseq = modSlot s h (releaseOldest 1) := by
  have hslot : slotOf (modSlot s h (releaseOldest 1)) h = releaseOldest 1 (slotOf s h) := slotOf_modSlot s h _
  have hpaid : (releaseOldest 1 (slotOf s h)).owed = [] := by simp only [releaseOldest, dropOldest, hunrel, howed]
  simp only [ackResult, hunrel, List.findIdx_cons, decide_true, cond_true, List.length_cons, Nat.zero_lt_succ, if_true, Nat.zero_add, hslot, hpaid,
    List.length_nil, payOwed]

theorem ackResult_unknown {q : Nat} (hall : (slotOf s h).unrel.all (fun x => decide (x.rseq ≠ q)) = true) :
    ackResult s h q = modHif s fun x => { x with winBadAck := min 255 (x.winBadAck + 1) } := by
  have hnone : (slotOf s h).unrel.findIdx (fun r => decide (r.rseq = q)) = (slotOf s h).unrel.length :=
    List.findIdx_eq_length.2 fun r hr => by simpa using List.all_eq_true.1 hall r hr
  simp only [ackResult, hnone, lt_irrefl, if_false]

theorem winAck_answers (hrun : s.sys.inReset = false) (hstep : inThisStep s t₀ = true) (hh : spiSlot s = some h) (hatt : attached s h = true) {q : Nat}
    (hq : q < 256) {p : State → Prop} (hp : p (modHif (ackResult s h q) (showOk s (spiWord 3 (BitVec.ofNat 32 q))))) :
    answers (.winAck q t₀) s p := by
  refine answers_of_answer (t := spiTransaction s (spiWord 3 (BitVec.ofNat 32 q)) (absTick s t₀)) rfl (by simp [hstep, hq]) ?_
  have hseq : bitsOf (BitVec.ofNat 32 q) 7 0 = q := by
    rw [bitsOf_ofNat (by omega)]
    simp
    omega
  rw [spiTransaction_word hrun (by decide), winWrite, if_pos rfl, hh]
  simpa only [hatt, if_true, hseq] using hp

end Acknowledgements

/-- Settles O42: a transaction is discarded as a whole or has the effect of its header, whose words reach the cursor or release a result. -/
theorem transactionsAndWindows : Obligations.TransactionsAndWindows := by
  unfold Obligations.TransactionsAndWindows
  refine ⟨fun s m t₀ hrun hstep => ⟨fun hbad => spi_answers hstep (spiTransaction_discarded hrun hbad _), fun hm => winRead_answers hrun hstep hm,
      fun hm => rspRead_answers hrun hstep hm, fun hm ha hn hserv => winWrite_cursor hrun hstep hm ha hn hserv⟩,
    fun s h t₀ hrun hstep hh hatt howed => ⟨fun r rest hunrel hr => winAck_answers hrun hstep hh hatt hr ?_,
      fun q hq hall => winAck_answers hrun hstep hh hatt hq ?_⟩,
    fun s i t₀ hrun hstep hi => ⟨fun hserv => ⟨windowFreeze_service hrun hstep hi hserv true, windowFreeze_service hrun hstep hi hserv false⟩,
      fun hserv => ⟨windowFreeze_freezes hrun hstep hi hserv, windowFreeze_frees hrun hstep hi hserv⟩⟩⟩
  · have hslot : slotOf (modSlot s h (releaseOldest 1)) h = releaseOldest 1 (slotOf s h) := slotOf_modSlot s h _
    have hparts : partsBut s (modSlot s h (releaseOldest 1)) [.hif] :=
      partsBut_of_keeps (modSlot_keeps s h _ (allows_of_subset (by decide)) (Keeps.refl ..))
    rw [ackResult_front hunrel howed]
    refine ⟨(congrArg HostSlot.unrel hslot).trans ?_, (congrArg HostSlot.last hslot).trans ?_, rfl, (congrArg HostSlot.ring hslot).trans ?_,
      fun g hg => slotOf_modSlot_ne s _ hg, partsBut_modHif _ (by simp) hparts⟩ <;> simp only [releaseOldest, dropOldest, hunrel]
  · rw [ackResult_unknown hall]
    exact ⟨rfl, rfl, partsBut_modHif _ (by simp) (partsBut_modHif _ (by simp) (partsBut_of_keeps (Keeps.refl ..)))⟩


end Sys2Proof.Transport

section
/-!
O41: a sound image comes up, a bad one gives way to the other or to recovery, and held processors verify their image again
(R454 to R458, R464).
-/
namespace Sys2Proof.Startup

open Sys2Proof Sys2Proof.Machine Sys2Proof.Frame Sys2Proof.Firmware

/-! ### Images and records -/

section Images

variable {s : State}

@[simp] theorem imageState_setImageState (s : State) (i st : Nat) : imageState (setImageState s i st) i = st := by
  rw [imageState, setImageState, imageAt_setImage]

theorem imageState_setImageState_ne (s : State) {i j : Nat} (st : Nat) (hij : j ≠ i) :
    imageState (setImageState s i st) j = imageState s j := by
  rw [imageState, setImageState, imageAt_setImage_ne _ _ hij, imageState]

theorem imageState_of_images {t : State} (h : t.boot.images = s.boot.images) (i : Nat) : imageState t i = imageState s i := by
  rw [imageState, imageAt_of_images h, imageState]

theorem imageState_record (s : State) (code inst : Nat) (val : List Byte) (i : Nat) : imageState (record s code inst val) i = imageState s i :=
  imageState_of_images (by rw [record_boot]) i

@[simp] theorem record_sys (s : State) (code inst : Nat) (val : List Byte) : (record s code inst val).sys = s.sys :=
  (keeps_record s code inst val).same .sys (by decide)

theorem setImageState_sys (s : State) (i st : Nat) : (setImageState s i st).sys = s.sys := rfl

end Images

/-! ### Recovery (R464) -/

section Recovery

variable (s : State) (cause : Nat)

/-- Whether the data path runs or not, the outputs that recovery sets down are no part of the start-up. -/
theorem recoveryOff_sys : (if s.sys.running then recoveryOff s else s).sys = s.sys := by
  split
  · exact (recoveryOff_keeps (R := (· ∈ [Part.regs, .recd, .pwm, .cle, .eth])) s (fun _ hp => hp) (.refl _ _)).same .sys (by decide)
  · rfl

theorem recoveryOff_boot : (if s.sys.running then recoveryOff s else s).boot = s.boot := by
  split
  · exact (recoveryOff_keeps (R := (· ∈ [Part.regs, .recd, .pwm, .cle, .eth])) s (fun _ hp => hp) (.refl _ _)).same .boot (by decide)
  · rfl

theorem enterRecovery_sys : (enterRecovery s cause).sys = { s.sys with phase := .recovery, tripped := false } := by
  rw [enterRecovery, record_sys]
  exact congrArg (fun x : SysState => { x with phase := .recovery, tripped := false }) (recoveryOff_sys s)

theorem enterRecovery_boot : (enterRecovery s cause).boot = { s.boot with restart := false, nextMode := 0 } := by
  rw [enterRecovery, record_boot]
  exact congrArg (fun b : BootState => { b with restart := false, nextMode := 0 }) (recoveryOff_boot s)

theorem imageState_enterRecovery (i : Nat) : imageState (enterRecovery s cause) i = imageState s i :=
  imageState_of_images (by rw [enterRecovery_boot]) i

/-- Recovery shows its cause. -/
theorem getF_enterRecovery {c : Nat} (hc : c < 8) : getF (enterRecovery s c) SYS_BOOT_RCAUSE = c := by
  rw [enterRecovery, getF_record _ _ _ _ (by decide), getF_of_regs (Machine.modBoot_regs _ _), setMode, getF_setF_apart (by decide), getF_setF_apart (by decide), getF_setF _ _ _ (by decide)]
  exact Nat.mod_eq_of_lt hc

/-- A recovery that is entered: the phase, its cause, and the data path as it was. -/
theorem enterRecovery_entered {c : Nat} (hc : c < 8) :
    (enterRecovery s c).sys.phase = .recovery ∧ (enterRecovery s c).sys.running = s.sys.running ∧
      getF (enterRecovery s c) SYS_BOOT_RCAUSE = c := by
  rw [enterRecovery_sys]
  exact ⟨rfl, rfl, getF_enterRecovery s hc⟩

end Recovery

/-! ### The other image (R456, R458) -/

section Other

variable {s : State} (i cause : Nat)

theorem tryOther_valid (h : imageState s (1 - i) = imValid) :
    (tryOther s i cause).sys.phase = .verifying ∧ (tryOther s i cause).boot.running = 1 - i := by
  have h' : imageState (modBoot s fun b => { b with second := true }) (1 - i) = imValid := h
  rw [tryOther, if_pos h']
  exact ⟨rfl, rfl⟩

theorem tryOther_recovery (h : imageState s (1 - i) ≠ imValid) :
    tryOther s i cause = enterRecovery (modBoot s fun b => { b with second := true }) cause := by
  have h' : imageState (modBoot s fun b => { b with second := true }) (1 - i) ≠ imValid := h
  rw [tryOther, if_neg h']

theorem imageState_tryOther (j : Nat) : imageState (tryOther s i cause) j = imageState s j := by
  unfold tryOther
  extract_lets o s'
  split
  · rfl
  · exact imageState_enterRecovery s' cause j

end Other

/-! ### The firmware is up (R454, steps 7 to 9) -/

section Up

variable {s : State} (i t : Nat)

/-- A step of the end of a boot that leaves the start-up's own state: it writes the record and its counters only. -/
def Booted (s t : State) : Prop := Keeps (· ∈ [Part.regs, .recd]) s t ∧ regsBut s t lossCounters

theorem Booted.trans {s t u : State} (h : Booted s t) (k : Booted t u) : Booted s u :=
  ⟨keeps_trans h.1 k.1, regsBut_trans h.2 k.2⟩

theorem record_booted (s : State) (code inst : Nat) (val : List Byte) : Booted s (record s code inst val) :=
  ⟨keeps_record s code inst val, regsBut_record s code inst val⟩

theorem endFreeze_booted (s : State) (test : Bool) : Booted s (if !test && decide (s.recd.freeze = some 4) then endFreeze s else s) := by
  split
  · refine ⟨endFreeze_keeps s (fun _ hp => hp) (.refl _ _), ?_⟩
    unfold endFreeze
    split
    · exact regsBut_trans (regsBut_of_regs rfl _) (regsBut_recTake (modRec s fun r => { r with freeze := none }))
    · exact regsBut_refl _ _
  · exact ⟨.refl _ _, regsBut_refl _ _⟩

/-- The firmware comes up with the image that was verified. -/
theorem bootDone_up : (bootDone s i t).sys.phase = .up ∧ (bootDone s i t).sys.running = true ∧ (bootDone s i t).sys.tripped = false ∧
    rd (bootDone s i t) SYS_FW = (imageAt s i).head.version ∧ getF (bootDone s i t) SYS_BOOT_IMG = i % 2 ∧
    (bootDone s i t).boot.running = s.boot.running ∧ (bootDone s i t).boot.restart = false ∧ (bootDone s i t).boot.images = s.boot.images := by
  unfold bootDone
  extract_lets restart test v kind _ s1 _ s2 s3 s4 s5 n s6 s7 s8 s9
  have h1 : s1.boot = s.boot := by
    unfold s1
    split <;> rfl
  have h2 : Keeps (· ∈ [Part.regs, .tables, .recd, .act, .can]) s2 s3 := by
    unfold s3
    split
    · exact canRestart_keeps _ (allows_of_subset (by decide)) (.refl _ _)
    · split
      · exact .refl _ _
      · exact applyConfig_keeps _ (allows_of_subset (by decide)) (.refl _ _)
  have hs3 : s3.sys = s2.sys := h2.same .sys (by decide)
  have hb3 : s3.boot = s.boot := (h2.same .boot (by decide)).trans h1
  have hfw : rd s7 SYS_FW = v := by
    calc rd s7 SYS_FW = rd s6 SYS_FW := rd_of_regs (Machine.modBoot_regs _ _) _
      _ = rd s5 SYS_FW := by rw [rd_setF_ne _ _ _ _ (by decide), rd_setB_ne _ _ _ _ (by decide)]
      _ = rd s4 SYS_FW := by rw [rd_setF_ne _ _ _ _ (by decide), rd_setB_ne _ _ _ _ (by decide)]
      _ = v := by rw [rd_wr_self]
  have himg : getF s7 SYS_BOOT_IMG = i % 2 := by
    calc getF s7 SYS_BOOT_IMG = getF s6 SYS_BOOT_IMG := getF_of_regs (Machine.modBoot_regs _ _) _
      _ = getF s5 SYS_BOOT_IMG := by rw [getF_setF_apart (by decide), getF_setB_apart (by decide)]
      _ = i % 2 := getF_setF _ _ _ (by decide)
  have h8 : Booted s7 s8 := (record_booted _ _ _ _)
  have h9 : Booted s7 s9 := by
    unfold s9
    split
    · exact h8.trans (record_booted _ _ _ _)
    · exact h8
  obtain ⟨hkeeps, hregs⟩ : Booted s7 (if !test && decide (s9.recd.freeze = some 4) then endFreeze s9 else s9) := h9.trans (endFreeze_booted _ _)
  have hsys : (if !test && decide (s9.recd.freeze = some 4) then endFreeze s9 else s9).sys = s2.sys := (hkeeps.same .sys (by decide)).trans hs3
  have hboot : (if !test && decide (s9.recd.freeze = some 4) then endFreeze s9 else s9).boot = s7.boot := hkeeps.same .boot (by decide)
  rw [hsys, hboot, hregs SYS_FW (by decide), getF_of_regsBut hregs (by decide)]
  refine ⟨rfl, rfl, rfl, hfw, himg, ?_, rfl, ?_⟩
  · exact congrArg (·.running) hb3
  · exact congrArg (·.images) hb3

end Up

/-! ### IMAGE_VERIFIED (R457, R458) -/

section Verified

variable {s : State}

theorem imageVerified_sound (hphase : s.sys.phase = .verifying) (hsound : imageReason s (imageAt s s.boot.running).head = 0) (t : Nat) :
    imageVerified s t = bootDone s s.boot.running t := by
  rw [imageVerified, if_neg (by simp [hphase])]
  exact if_pos hsound

/-- The state in which an unsound image is marked BAD. -/
def rejected (s : State) : State :=
  record (setImageState s s.boot.running imBad) 0xE002 s.boot.running (leBytes 1 (imageReason s (imageAt s s.boot.running).head))

theorem imageVerified_unsound (hphase : s.sys.phase = .verifying) (hbad : imageReason s (imageAt s s.boot.running).head ≠ 0) (t : Nat) :
    imageVerified s t = if (rejected s).boot.second then enterRecovery (rejected s) 2 else tryOther (rejected s) s.boot.running 2 := by
  rw [imageVerified, if_neg (by simp [hphase])]
  exact if_neg hbad

theorem rejected_sys : (rejected s).sys = s.sys := record_sys _ _ _ _

theorem rejected_second : (rejected s).boot.second = s.boot.second := by
  rw [rejected, record_boot]
  rfl

theorem imageState_rejected : imageState (rejected s) s.boot.running = imBad := by
  rw [rejected, imageState_record, imageState_setImageState]

theorem imageState_rejected_other (hi : s.boot.running < 2) :
    imageState (rejected s) (1 - s.boot.running) = imageState s (1 - s.boot.running) := by
  rw [rejected, imageState_record, imageState_setImageState_ne _ _ (by omega)]

theorem imageVerified_marks (hphase : s.sys.phase = .verifying) (hbad : imageReason s (imageAt s s.boot.running).head ≠ 0) (t : Nat) :
    imageState (imageVerified s t) s.boot.running = imBad := by
  rw [imageVerified_unsound hphase hbad]
  split
  · rw [imageState_enterRecovery, imageState_rejected]
  · rw [imageState_tryOther, imageState_rejected]

/-- The unsound image gives way to the other one. -/
theorem imageVerified_other (hphase : s.sys.phase = .verifying) (hbad : imageReason s (imageAt s s.boot.running).head ≠ 0) (t : Nat)
    (hi : s.boot.running < 2) (hfirst : s.boot.second = false) (hother : imageState s (1 - s.boot.running) = imValid) :
    (imageVerified s t).sys.phase = .verifying ∧ (imageVerified s t).boot.running = 1 - s.boot.running := by
  rw [imageVerified_unsound hphase hbad, rejected_second, if_neg (by simp [hfirst])]
  exact tryOther_valid _ _ ((imageState_rejected_other hi).trans hother)

/-- Without another VALID image, or after one, recovery is entered. -/
theorem imageVerified_recovery (hphase : s.sys.phase = .verifying) (hbad : imageReason s (imageAt s s.boot.running).head ≠ 0) (t : Nat)
    (hi : s.boot.running < 2) (hnone : s.boot.second = true ∨ imageState s (1 - s.boot.running) ≠ imValid) :
    (imageVerified s t).sys.phase = .recovery ∧ (imageVerified s t).sys.running = s.sys.running := by
  rw [imageVerified_unsound hphase hbad, rejected_second]
  split
  next =>
    rw [enterRecovery_sys, rejected_sys]
    exact ⟨rfl, rfl⟩
  next hfirst =>
    have hother : imageState (rejected s) (1 - s.boot.running) ≠ imValid := by
      rw [imageState_rejected_other hi]
      exact hnone.resolve_left hfirst
    rw [tryOther_recovery _ _ hother, enterRecovery_sys]
    exact ⟨rfl, congrArg (·.running) rejected_sys⟩

end Verified

/-! ### FIRMWARE_RESTART (R443, R456, R464) -/

section Restart

variable {s : State}

/-- The processors leave the trip: their two lines of CLK_X_EVT return to 0. -/
def restarting (s : State) : State :=
  setF (setF (modBoot s fun b => { b with restart := true, second := false }) (CLK_X_EVT_STATE 2) 0) (CLK_X_EVT_STATE 3) 0

theorem firmwareRestart_held (hheld : s.sys.phase = .held) (hpll : s.sys.pllPHold = false) :
    firmwareRestart s = if getF s SYS_BOOT_RCAUSE ≠ 0 then enterRecovery (restarting s) (getF s SYS_BOOT_RCAUSE)
      else if imageState s s.boot.running = imTrial then tryOther (rejectTrial (restarting s) s.boot.running) s.boot.running 2
      else if repeatedTrips s then tryOther (modBoot (restarting s) fun b => { b with trips := [] }) s.boot.running 4
      else tryImage (restarting s) s.boot.running := by
  rw [firmwareRestart, if_neg (by simp [hheld, hpll])]
  rfl

theorem regsBut_restarting : regsBut s (restarting s) [CLK_X_EVT 2, CLK_X_EVT 3] :=
  regsBut_setF (regsBut_setF (regsBut_of_regs (Machine.modBoot_regs _ _) _) (by decide) 0) (by decide) 0

variable (hheld : s.sys.phase = .held) (hpll : s.sys.pllPHold = false)
include hheld hpll

/-- A trip in recovery leads back into recovery. -/
theorem firmwareRestart_recovery (hcause : getF s SYS_BOOT_RCAUSE ≠ 0) : (firmwareRestart s).sys.phase = .recovery ∧
    getF (firmwareRestart s) SYS_BOOT_RCAUSE = getF s SYS_BOOT_RCAUSE ∧ (firmwareRestart s).sys.running = s.sys.running := by
  have hlt : getF s SYS_BOOT_RCAUSE < 8 := getF_lt s SYS_BOOT_RCAUSE
  rw [firmwareRestart_held hheld hpll, if_pos hcause]
  obtain ⟨hphase, hrunning, hshown⟩ := enterRecovery_entered (restarting s) hlt
  exact ⟨hphase, hshown, hrunning⟩

variable (hcause : getF s SYS_BOOT_RCAUSE = 0) (hvalid : imageState s s.boot.running = imValid)
include hcause hvalid

theorem firmwareRestart_valid : firmwareRestart s =
    if repeatedTrips s then tryOther (modBoot (restarting s) fun b => { b with trips := [] }) s.boot.running 4
    else tryImage (restarting s) s.boot.running := by
  rw [firmwareRestart_held hheld hpll, if_neg (by simp [hcause]), if_neg (by simp [hvalid, imValid, imTrial])]

/-- The image that ran is verified again. -/
theorem firmwareRestart_again (hfew : repeatedTrips s = false) :
    (firmwareRestart s).sys = { s.sys with phase := .verifying } ∧ (firmwareRestart s).boot.running = s.boot.running ∧
      (firmwareRestart s).boot.restart = true ∧ regsBut s (firmwareRestart s) [CLK_X_EVT 2, CLK_X_EVT 3] ∧
      partsBut s (firmwareRestart s) [.regs, .sys, .boot] := by
  rw [firmwareRestart_valid hheld hpll hcause hvalid, if_neg (by simp [hfew])]
  refine ⟨rfl, rfl, rfl, regsBut_trans regsBut_restarting (regsBut_of_regs rfl _), partsBut_of_keeps ?_⟩
  unfold restarting
  exact tryImage_keeps _ _ (allows_of_subset (by decide)) (setF_keeps _ _ _ (allows_of_subset (by decide))
    (setF_keeps _ _ _ (allows_of_subset (by decide)) (modBoot_keeps _ _ (allows_of_subset (by decide)) (.refl _ _))))

/-- The third trip within 600 s takes the other image or recovery. -/
theorem firmwareRestart_third (hmany : repeatedTrips s = true) :
    (imageState s (1 - s.boot.running) = imValid →
      (firmwareRestart s).sys.phase = .verifying ∧ (firmwareRestart s).boot.running = 1 - s.boot.running) ∧
    (imageState s (1 - s.boot.running) ≠ imValid → (firmwareRestart s).sys.phase = .recovery ∧
      (firmwareRestart s).sys.running = s.sys.running ∧ getF (firmwareRestart s) SYS_BOOT_RCAUSE = 4) := by
  rw [firmwareRestart_valid hheld hpll hcause hvalid, if_pos hmany]
  refine ⟨fun hother => tryOther_valid _ _ hother, fun hother => ?_⟩
  rw [tryOther_recovery (s := modBoot (restarting s) fun b => { b with trips := [] }) _ _ hother]
  exact enterRecovery_entered _ (by decide)

end Restart

/-- Settles O41: a sound image comes up, an unsound one gives way to the other or to recovery, and held processors verify their image
again, unless a third trip or an earlier recovery forbids it. -/
theorem imagesAreVerifiedAndRestarted : Obligations.ImagesAreVerifiedAndRestarted := by
  unfold Obligations.ImagesAreVerifiedAndRestarted
  refine ⟨fun s t₀ hstep hphase => ⟨fun hsound => ?_, fun hbad hi => ?_⟩,
    fun s hheld hpll hcause => ⟨_, rfl, firmwareRestart_recovery hheld hpll hcause⟩,
    fun s hheld hpll hcause hvalid _ => ⟨fun hfew => ⟨_, rfl, firmwareRestart_again hheld hpll hcause hvalid hfew⟩,
      fun hmany => ⟨_, rfl, firmwareRestart_third hheld hpll hcause hvalid hmany⟩⟩⟩
  · refine answers_of_answer (t := imageVerified s t₀) rfl hstep ?_
    rw [imageVerified_sound hphase hsound]
    exact bootDone_up _ _
  · exact answers_of_answer (t := imageVerified s t₀) rfl hstep ⟨imageVerified_marks hphase hbad t₀,
      imageVerified_other hphase hbad t₀ hi, imageVerified_recovery hphase hbad t₀ hi⟩

end Sys2Proof.Startup
end

section
/-!
What lost leases, supervision trips and detachments leave of registers and of the state of the system (R399, R401): cancelling events,
stopping loops and PWM groups write counters and the registers of blocks beyond 0x1400 only, and of the state of the system only what
it notes of the channels.
-/
namespace Sys2Proof.Leases

open Sys2Proof Sys2Proof.Machine Sys2Proof.Frame

/-- Registers that hold nothing of hosts, leases, start-up or local drivers: the record counters, the scheduler's page of counters, and
the pages from the ring on. -/
def far (j : Nat) : Prop := j = 0x304 ∨ j = 0x305 ∨ (0x0C00 ≤ j ∧ j < 0x0D00) ∨ 0x1400 ≤ j

theorem far_sch {j : Nat} (h : 0x0C00 ≤ j ∧ j < 0x0D00) : far j := .inr (.inr (.inl h))

theorem far_beyond {j : Nat} (h : 0x1400 ≤ j) : far j := .inr (.inr (.inr h))

/-- What the system notes of channels: what was issued, by whom, what holds them off, and for how long they have differed. -/
structure SameSys (s t : State) : Prop where
  phase : t.sys.phase = s.sys.phase
  tripped : t.sys.tripped = s.sys.tripped
  running : t.sys.running = s.sys.running
  inReset : t.sys.inReset = s.sys.inReset
  enA : t.sys.enA = s.sys.enA
  enBN : t.sys.enBN = s.sys.enBN

/-- A step aside: far registers and the notes on channels alone. -/
structure Aside (s t : State) : Prop where
  rd : ∀ j, ¬ far j → rd t j = rd s j
  sys : SameSys s t

section Frame

variable {s t u : State}

theorem SameSys.of_sys (h : t.sys = s.sys) : SameSys s t := by
  constructor <;> rw [h]

theorem SameSys.trans (h : SameSys s t) (k : SameSys t u) : SameSys s u :=
  ⟨k.phase.trans h.phase, k.tripped.trans h.tripped, k.running.trans h.running, k.inReset.trans h.inReset, k.enA.trans h.enA,
    k.enBN.trans h.enBN⟩

theorem Aside.refl (s : State) : Aside s s := ⟨fun _ _ => rfl, .of_sys rfl⟩

theorem Aside.trans (h : Aside s t) (k : Aside t u) : Aside s u := ⟨fun j hj => (k.rd j hj).trans (h.rd j hj), h.sys.trans k.sys⟩

/-- A step that changes neither registers nor the state of the system. -/
theorem Aside.of_same (hregs : t.regs = s.regs) (hsys : t.sys = s.sys) : Aside s t := ⟨fun _ _ => rd_of_regs hregs _, .of_sys hsys⟩

theorem Aside.put (h : Aside s t) (hregs : u.regs = t.regs) (hsys : u.sys = t.sys) : Aside s u := h.trans (.of_same hregs hsys)

theorem Aside.notes (h : Aside s t) (hregs : u.regs = t.regs) (hsys : SameSys t u) : Aside s u :=
  h.trans ⟨fun _ _ => rd_of_regs hregs _, hsys⟩

theorem Aside.of_keeps {l : List Part} (h : Keeps (· ∈ l) s t) (hregs : .regs ∉ l) (hsys : .sys ∉ l) : Aside s t :=
  .of_same (h.same .regs hregs) (h.same .sys hsys)

theorem Aside.of_regsBut {l : List Nat} (h : regsBut s t l) (hl : ∀ j ∈ l, far j) (hsys : t.sys = s.sys) : Aside s t :=
  ⟨fun j hj => h j fun hmem => hj (hl j hmem), .of_sys hsys⟩

theorem Aside.wr (h : Aside s t) {i : Nat} (hi : far i) (v : Word) : Aside s (wr t i v) :=
  h.trans ⟨fun _ hj => rd_wr_ne _ _ _ _ fun e => hj (e ▸ hi), .of_sys rfl⟩

theorem Aside.setF (h : Aside s t) {f : Field} (hf : far f.reg) (v : Nat) : Aside s (setF t f v) := h.wr hf _

theorem Aside.setB (h : Aside s t) {f : Field} (hf : far f.reg) (b : Bool) : Aside s (setB t f b) := h.wr hf _

theorem Aside.bump (h : Aside s t) {f : Field} (hf : far f.reg) (n : Nat) : Aside s (bump t f n) :=
  h.trans (.of_regsBut (regsBut_bump (regsBut_refl _ _) (List.mem_singleton_self _) n) (by simpa using hf) rfl)

theorem Aside.getF (h : Aside s t) {f : Field} (hf : ¬ far f.reg) : getF t f = getF s f := getF_congr (h.rd _ hf)

theorem Aside.flag (h : Aside s t) {f : Field} (hf : ¬ far f.reg) : flag t f = flag s f := flag_congr (h.rd _ hf)

theorem Aside.record (h : Aside s t) (code inst : Nat) (val : List Byte) : Aside s (record t code inst val) :=
  h.trans (.of_regsBut (regsBut_record t code inst val) (fun _ hj => by rw [mem_lossCounters] at hj; unfold far; omega)
    ((keeps_record t code inst val).same .sys (by decide)))

theorem Aside.foldl {α : Type} {l : List α} {f : State → α → State} (h : Aside s t) (hf : ∀ u, ∀ x ∈ l, Aside u (f u x)) :
    Aside s (l.foldl f t) := by
  induction l generalizing t with
  | nil => exact h
  | cons x l ih => exact ih (h.trans (hf t x (List.mem_cons_self ..))) fun u y hy => hf u y (List.mem_cons_of_mem _ hy)

end Frame

/-! ### Cancelling events (R96, R399) -/

section Events

variable (s : State)

theorem withSch_aside (x : SchState) : Aside s { s with sch := x } := .of_same rfl rfl

theorem setProt_aside (c k : Nat) : Aside s (setProt s c k) := ⟨fun _ _ => rfl, ⟨rfl, rfl, rfl, rfl, rfl, rfl⟩⟩

theorem noteIssued_aside (c st origin : Nat) : Aside s (noteIssued s c st origin) := ⟨fun _ _ => rfl, ⟨rfl, rfl, rfl, rfl, rfl, rfl⟩⟩

theorem queueRemote_aside (c kind tick rate : Nat) (slot : Option Nat) : Aside s (queueRemote s c kind tick rate slot) :=
  .of_keeps (l := [.sch, .fjl]) (queueRemote_keeps s c kind tick rate slot (fun _ hp => hp) (.refl _ _)) (by decide) (by decide)

theorem giveEdge_aside (c kind tick rate : Nat) (slot : Option Nat) (origin : Nat) : Aside s (giveEdge s c kind tick rate slot origin) := by
  unfold giveEdge
  extract_lets delay
  split
  · exact .of_same rfl rfl
  · split
    · exact queueRemote_aside s _ _ _ _ _
    · exact (noteIssued_aside s _ _ _).trans (queueRemote_aside _ _ _ _ _ _)

theorem showPool_aside : Aside s (showPool s) := by
  unfold showPool
  extract_lets n s1 s2 s3 s4
  have hstat : far SCH_STAT := far_sch (by decide)
  have h4 : Aside s s4 := ((((Aside.refl s).setF hstat _).setF hstat _).setB hstat _).setB hstat _
  refine h4.foldl fun u h hh => (Aside.refl u).setF (far_sch ?_) _
  have hlt : h < 4 := List.mem_range.1 hh
  change 0x0C00 ≤ SCH_HOST_LIM h ∧ SCH_HOST_LIM h < 0x0D00
  unfold SCH_HOST_LIM
  omega

theorem modSlotAt_aside (i : Nat) (f : EvSlot → EvSlot) : Aside s (modSlotAt s i f) := .of_same rfl rfl

theorem modFlags_aside (i : Nat) (f : EvFlags → EvFlags) : Aside s (modFlags s i f) := .of_same rfl rfl

theorem fillSlot_aside (i : Nat) (d : EvDesc) (step : Word) : Aside s (fillSlot s i d step) :=
  (modSlotAt_aside s i _).trans (showPool_aside _)

theorem noteHorizon_aside (i c kind wait : Nat) : Aside s (noteHorizon s i c kind wait) := by
  unfold noteHorizon
  split
  · exact (modFlags_aside s i _).bump (far_sch (by decide)) 1
  · exact .refl s

theorem noteUse_aside (i c kind tick wait : Nat) (err : Int) (lead : Bool) : Aside s (noteUse s i c kind tick wait err lead) :=
  .of_same rfl rfl

theorem noteHand_aside (i c kind tick : Nat) (late lead : Bool) (err : Int) : Aside s (noteHand s i c kind tick late lead err) := by
  unfold noteHand
  extract_lets e wait err' s1 s2
  have h1 : Aside s s1 := by
    unfold s1
    split
    · exact (Aside.refl s).bump (far_sch (by decide)) 1
    · exact .refl s
  have h2 : Aside s s2 := (h1.trans (noteHorizon_aside _ _ _ _ _)).trans (noteUse_aside _ _ _ _ _ _ _ _)
  split
  · exact h2.put rfl rfl
  · exact h2

theorem handSlot_aside (i tick : Nat) (late : Bool) (err : Int) : Aside s (handSlot s i tick late err) := by
  unfold handSlot
  extract_lets e c kind lead was at_ s1 _ s2 wait s3 s4 act
  split
  · have h1 : Aside s s1 := (noteHorizon_aside _ _ _ _ _).trans (noteUse_aside _ _ _ _ _ _ _ _)
    have h2 : Aside s s2 := h1.notes rfl ⟨rfl, rfl, rfl, rfl, rfl, rfl⟩
    exact h2.trans (modSlotAt_aside _ _ _)
  · exact ((noteHand_aside _ _ _ _ _ _ _ _).trans (giveEdge_aside _ _ _ _ _ _ _)).put rfl rfl

theorem slotlessOff_aside (c b origin : Nat) : Aside s (slotlessOff s c b origin) := by
  have hgive : Aside s (giveSlotless s c 1 b origin) := by
    unfold giveSlotless
    extract_lets tick
    split
    · exact ((Aside.refl s).bump (far_sch (by decide)) 1).trans (giveEdge_aside _ _ _ _ _ _ _)
    · exact giveEdge_aside _ _ _ _ _ _ _
  exact (hgive.bump (far_sch (by decide)) 1).record _ _ _

theorem inverse_aside (i b : Nat) : Aside s (inverse s i b) := by
  unfold inverse
  extract_lets e c idle r call kind pair put _ d s0
  split
  · exact .refl s
  · split
    · exact withSch_aside s _
    · split
      next =>
        have h0 : Aside s s0 := by
          unfold s0
          split
          · exact slotlessOff_aside s _ _ _
          · exact (Aside.refl s).record _ _ _
        exact h0.trans (withSch_aside _ _)
      next j _ =>
        extract_lets s1 s2 tick s3 s4 at_ s5
        have h1 : Aside s s1 := fillSlot_aside s _ _ _
        have h2 : Aside s s2 := (h1.trans (modSlotAt_aside _ _ _)).trans (modSlotAt_aside _ _ _)
        have h4 : Aside s s4 := (h2.trans (noteHand_aside _ _ _ _ _ _ _ _)).trans (giveEdge_aside _ _ _ _ _ _ _)
        exact (h4.trans (modSlotAt_aside _ _ _)).trans (withSch_aside _ _)

theorem withdrawRemote_aside (i kind at_ : Nat) : Aside s (withdrawRemote s i kind at_) :=
  .of_keeps (l := [.sch, .fjl, .free]) (withdrawRemote_keeps s i kind at_ (fun _ hp => hp) (.refl _ _)) (by decide) (by decide)

theorem cancelSlot_aside (i at_ b : Nat) : Aside s (cancelSlot s i at_ b).1 := by
  unfold cancelSlot
  extract_lets e
  split
  · split
    · exact .refl s
    · exact (modFlags_aside s i _).trans (handSlot_aside _ _ _ _ _)
  · split
    · exact .of_same rfl rfl
    · split
      · split
        · exact .refl s
        · split
          · dsimp only
            split
            · exact modFlags_aside s i _
            · exact (modFlags_aside s i _).trans (inverse_aside _ _ _)
          · dsimp only
            split
            · exact modSlotAt_aside s i _
            · exact (modSlotAt_aside s i _).trans (withdrawRemote_aside _ _ _ _)
      · exact .refl s

theorem cancelWhere_aside (at_ b : Nat) (p : EvSlot → Bool) : Aside s (cancelWhere s at_ b p) :=
  (Aside.refl s).foldl fun u i _ => cancelSlot_aside u i at_ b

end Events

/-! ### Stopping loops and PWM groups (R253, R276) -/

section Stops

variable (s : State)

theorem loopLeaseLost_aside (n : Nat) : Aside s (loopLeaseLost s n) := by
  unfold loopLeaseLost
  extract_lets m
  split
  · exact .refl s
  · refine Aside.record ?_ _ _ _
    unfold forceMode loopFlag
    extract_lets s1
    have hflt : far (CLE_LP_FLT_LEASE n).reg := far_beyond (by change 0x1400 ≤ CLE_LP_FLT n; unfold CLE_LP_FLT; omega)
    have hctrl : far (CLE_LP_CTRL_MODE n).reg := far_beyond (by change 0x1400 ≤ CLE_LP_CTRL n; unfold CLE_LP_CTRL; omega)
    exact (((Aside.refl s).setB hflt true).setB (far_beyond (by change 0x1400 ≤ CLE_STAT; decide)) _).setF hctrl 0

theorem stopPwm_aside (g : Nat) : Aside s (stopPwm s g) := by
  obtain ⟨-, hregs⟩ := PwmGroups.stopPwm_stopped s g
  refine .of_regsBut hregs (fun j hj => far_beyond ?_) ((stopPwm_keeps (R := (· ∈ [Part.regs, .pwm])) s g (fun _ hp => hp) (.refl _ _)).same .sys (by decide))
  simp only [List.mem_cons, List.not_mem_nil, or_false] at hj
  obtain rfl | rfl := hj
  · unfold PWM_GRP_STAT
    omega
  · decide

end Stops

end Sys2Proof.Leases
end

section
/-!
Holders of resources (R398, R399): what setting or losing one lease leaves of the others, and what it leaves beside.
-/
namespace Sys2Proof.Leases

open Sys2Proof Sys2Proof.Machine Sys2Proof.Mailbox Sys2Proof.Frame

/-! ### The two fields that hold a lease -/

/-- A resource of the part. -/
def Valid (r : Res) : Prop := r.2 < kindSize r.1

theorem mem_allRes {r : Res} : r ∈ allRes ↔ Valid r := by
  obtain ⟨k, n⟩ := r
  simp only [allRes, List.mem_flatMap, List.mem_map, List.mem_range, Prod.mk.injEq, Valid]
  constructor
  · rintro ⟨k', -, n', hn, rfl, rfl⟩
    exact hn
  · intro hn
    refine ⟨k, ?_, n, hn, rfl, rfl⟩
    match k, hn with
    | 0, _ | 1, _ | 2, _ | 3, _ | 4, _ | 5, _ => simp

/-- Where it is held that the resource is leased. -/
def leasedField (r : Res) : Field :=
  if r.1 ≤ 3 then ⟨stateWord r.1 r.2, 31, 31⟩ else if r.1 = 4 then ⟨HIF_LS_LOOPV, r.2, r.2⟩ else ⟨HIF_LS_PWM, 16 + r.2, 16 + r.2⟩

/-- Where its holder is held. -/
def holderField (r : Res) : Field :=
  if r.1 ≤ 3 then ⟨stateWord r.1 r.2, 30, 29⟩ else if r.1 = 4 then ⟨HIF_LS_LOOP, 2 * r.2 + 1, 2 * r.2⟩
  else ⟨HIF_LS_PWM, 2 * r.2 + 1, 2 * r.2⟩

/-- The registers that hold leases, the state words among them. -/
def leaseWord (j : Nat) : Prop := (0x20 ≤ j ∧ j < 0x80) ∨ (0x150 ≤ j ∧ j < 0x153) ∨ (0x0D00 ≤ j ∧ j < 0x0F00)

theorem stateWord_leaseWord {r : Res} (hr : Valid r) (hk : r.1 ≤ 3) : leaseWord (stateWord r.1 r.2) := by
  obtain ⟨k, n⟩ := r
  unfold leaseWord
  match k, hr, hk with
  | 0, _, _ =>
    simp only [stateWord, SYS_IMPL_STATE]
    omega
  | 1, hr, _ | 2, hr, _ | 3, hr, _ =>
    simp only [Valid, kindSize] at hr
    simp only [stateWord, SYS_ZON_STATE, SYS_SEC_STATE, SCH_CH_STATE]
    omega

theorem leasedField_leaseWord {r : Res} (hr : Valid r) : leaseWord (leasedField r).reg := by
  unfold leasedField
  split
  · exact stateWord_leaseWord hr ‹_›
  · refine .inr (.inl ?_)
    split
    · exact (by decide : 0x150 ≤ HIF_LS_LOOPV ∧ HIF_LS_LOOPV < 0x153)
    · exact (by decide : 0x150 ≤ HIF_LS_PWM ∧ HIF_LS_PWM < 0x153)

theorem holderField_leaseWord {r : Res} (hr : Valid r) : leaseWord (holderField r).reg := by
  unfold holderField
  split
  · exact stateWord_leaseWord hr ‹_›
  · refine .inr (.inl ?_)
    split
    · exact (by decide : 0x150 ≤ HIF_LS_LOOP ∧ HIF_LS_LOOP < 0x153)
    · exact (by decide : 0x150 ≤ HIF_LS_PWM ∧ HIF_LS_PWM < 0x153)

theorem not_far_of_leaseWord {j : Nat} (h : leaseWord j) : ¬ far j := by
  unfold leaseWord at h
  unfold far
  omega

/-- State words of different resources are different. -/
theorem stateWord_ne {r q : Res} (hr : Valid r) (hq : Valid q) (hne : r ≠ q) (hrk : r.1 ≤ 3) (hqk : q.1 ≤ 3) :
    stateWord r.1 r.2 ≠ stateWord q.1 q.2 := by
  obtain ⟨k, n⟩ := r
  obtain ⟨l, m⟩ := q
  simp only [Valid] at hr hq
  have hkn : ¬ (k = l ∧ n = m) := fun h => hne (by rw [h.1, h.2])
  match k, l, hrk, hqk with
  | 0, 0, _, _ | 0, 1, _, _ | 0, 2, _, _ | 0, 3, _, _ | 1, 0, _, _ | 1, 1, _, _ | 1, 2, _, _ | 1, 3, _, _
  | 2, 0, _, _ | 2, 1, _, _ | 2, 2, _, _ | 2, 3, _, _ | 3, 0, _, _ | 3, 1, _, _ | 3, 2, _, _ | 3, 3, _, _ =>
    simp only [kindSize] at hr hq
    simp only [stateWord, SYS_IMPL_STATE, SYS_ZON_STATE, SYS_SEC_STATE, SCH_CH_STATE]
    omega

/-- A bit of a word, read as a field. -/
theorem bitsOf_one_eq (w : Word) (i : Nat) : bitsOf w i i = (w.getLsbD i).toNat := by
  refine Nat.eq_of_testBit_eq fun j => ?_
  rw [testBit_bitsOf]
  cases j with
  | zero => cases w.getLsbD i <;> simp
  | succ j =>
    have hbit : ((w.getLsbD i).toNat).testBit (j + 1) = false := by cases w.getLsbD i <;> simp [Nat.testBit_succ]
    simp [hbit]

theorem flag_bitField (s : State) (i j : Nat) : flag s ⟨i, j, j⟩ = (rd s i).getLsbD j := by
  unfold flag getF
  rw [bitsOf_one_eq]
  cases (rd s i).getLsbD j <;> rfl

/-- Who holds a resource is what its two fields show. -/
theorem holderOf_eq (s : State) {r : Res} (hr : Valid r) :
    holderOf s r.1 r.2 = if flag s (leasedField r) = true then some (getF s (holderField r)) else none := by
  obtain ⟨k, n⟩ := r
  unfold holderOf leasedField holderField
  dsimp only
  by_cases hk : k ≤ 3
  · simp only [hk, if_true]
    rw [flag_bitField, bitsOf_one_eq, getF]
    cases (rd s (stateWord k n)).getLsbD 31 <;> simp
  · simp only [hk, if_false]
    by_cases h4 : k = 4
    · simp only [h4, if_true]
      rw [flag_bitField, BitVec.testBit_toNat, getF]
    · simp only [h4, if_false]
      have hn : n < 8 := by
        match k, hk, h4, hr with
        | 5, _, _, hr => exact hr
      rw [flag_bitField, getF, getF, testBit_bitsOf]
      simp [hn]

theorem holderOf_congr {s t : State} {r : Res} (hr : Valid r) (hl : flag t (leasedField r) = flag s (leasedField r))
    (hh : getF t (holderField r) = getF s (holderField r)) : holderOf t r.1 r.2 = holderOf s r.1 r.2 := by
  rw [holderOf_eq t hr, holderOf_eq s hr, hl, hh]

/-! ### Setting a holder -/

/-- The two fields of a resource are written one after the other. -/
theorem rd_setHolder (s : State) (r : Res) (h : Option Nat) (j : Nat) :
    rd (setHolder s r.1 r.2 h) j = rd (setF (setF s (leasedField r) (if h.isSome then 1 else 0)) (holderField r) (h.getD 0)) j := by
  obtain ⟨k, n⟩ := r
  unfold setHolder leasedField holderField setF
  dsimp only
  by_cases hk : k ≤ 3
  · simp only [hk, if_true, rd_wr]
    split <;> rfl
  · simp only [hk, if_false]
    by_cases h4 : k = 4
    · simp only [h4, if_true]
    · simp only [h4, if_false, rd_wr]
      split <;> rfl

theorem leasedField_bits {r : Res} (hr : Valid r) : (leasedField r).lo ≤ (leasedField r).hi ∧ (leasedField r).hi < 32 := by
  obtain ⟨k, n⟩ := r
  unfold leasedField
  match k, hr with
  | 0, hr | 1, hr | 2, hr | 3, hr | 4, hr | 5, hr =>
    simp only [Valid, kindSize] at hr
    simp <;> omega

theorem holderField_bits {r : Res} (hr : Valid r) :
    (holderField r).lo ≤ (holderField r).hi ∧ (holderField r).hi < 32 ∧ (holderField r).hi - (holderField r).lo + 1 = 2 := by
  obtain ⟨k, n⟩ := r
  unfold holderField
  match k, hr with
  | 0, hr | 1, hr | 2, hr | 3, hr | 4, hr | 5, hr =>
    simp only [Valid, kindSize] at hr
    simp <;> omega

/-- The fields of a resource lie apart. -/
theorem leasedField_apart_holderField {r : Res} (hr : Valid r) : Apart (holderField r) (leasedField r) := by
  obtain ⟨k, n⟩ := r
  unfold leasedField holderField
  match k, hr with
  | 0, hr | 1, hr | 2, hr | 3, hr | 4, hr | 5, hr =>
    simp only [Valid, kindSize] at hr
    simp [Apart, HIF_LS_LOOP, HIF_LS_LOOPV] <;> omega

theorem holderOf_setHolder (s : State) {r : Res} (hr : Valid r) (h : Option Nat) (hh : ∀ g, h = some g → g < 4) :
    holderOf (setHolder s r.1 r.2 h) r.1 r.2 = h := by
  obtain ⟨hlo, hhi, hwidth⟩ := holderField_bits hr
  rw [holderOf_eq _ hr, flag_congr (rd_setHolder s r h _), getF_congr (rd_setHolder s r h _), getF_setF _ _ _ ⟨hlo, hhi⟩, hwidth,
    flag_setF_apart (leasedField_apart_holderField hr)]
  have hflag := flag_setB s (leasedField r) h.isSome (leasedField_bits hr)
  rw [setB] at hflag
  rw [hflag]
  cases h with
  | none => rfl
  | some g => simpa using hh g rfl

theorem stateWord_ne_lease {r : Res} (hr : Valid r) (hk : r.1 ≤ 3) : stateWord r.1 r.2 < 0x150 ∨ 0x153 ≤ stateWord r.1 r.2 := by
  obtain ⟨k, n⟩ := r
  match k, hr, hk with
  | 0, hr, _ | 1, hr, _ | 2, hr, _ | 3, hr, _ =>
    simp only [Valid, kindSize] at hr
    simp only [stateWord, SYS_IMPL_STATE, SYS_ZON_STATE, SYS_SEC_STATE, SCH_CH_STATE]
    omega

/-- The kinds beyond 3 are loops and PWM groups. -/
theorem kind_of_valid {r : Res} (hr : Valid r) (hk : ¬ r.1 ≤ 3) : (r.1 = 4 ∧ r.2 < 16) ∨ (r.1 = 5 ∧ r.2 < 8) := by
  obtain ⟨k, n⟩ := r
  match k, hr with
  | 0, _ | 1, _ | 2, _ | 3, _ => exact absurd (by simp) hk
  | 4, hr => exact .inl ⟨rfl, hr⟩
  | 5, hr => exact .inr ⟨rfl, hr⟩

/-- Where the fields of a resource lie. -/
theorem field_place {r : Res} (hr : Valid r) {f : Field} (hf : f = leasedField r ∨ f = holderField r) :
    (r.1 ≤ 3 ∧ f.reg = stateWord r.1 r.2) ∨
      (r.1 = 4 ∧ ((f.reg = 0x151 ∧ f.lo = r.2 ∧ f.hi = r.2) ∨ (f.reg = 0x150 ∧ f.lo = 2 * r.2 ∧ f.hi = 2 * r.2 + 1))) ∨
      (r.1 = 5 ∧ r.2 < 8 ∧ f.reg = 0x152 ∧ ((f.lo = 16 + r.2 ∧ f.hi = 16 + r.2) ∨ (f.lo = 2 * r.2 ∧ f.hi = 2 * r.2 + 1))) := by
  unfold leasedField holderField at hf
  by_cases hk : r.1 ≤ 3
  · simp only [hk, if_true] at hf
    exact .inl ⟨hk, by obtain rfl | rfl := hf <;> rfl⟩
  · obtain ⟨h4, -⟩ | ⟨h5, hn⟩ := kind_of_valid hr hk
    · simp only [h4] at hf
      exact .inr (.inl ⟨h4, hf.imp (by rintro rfl; exact ⟨rfl, rfl, rfl⟩) (by rintro rfl; exact ⟨rfl, rfl, rfl⟩)⟩)
    · simp only [h5] at hf
      exact .inr (.inr ⟨h5, hn, by obtain rfl | rfl := hf <;> rfl,
        hf.imp (by rintro rfl; exact ⟨rfl, rfl⟩) (by rintro rfl; exact ⟨rfl, rfl⟩)⟩)

/-- The fields of two resources lie apart. -/
theorem fields_apart {r q : Res} (hr : Valid r) (hq : Valid q) (hne : q ≠ r) {f g : Field} (hf : f = leasedField r ∨ f = holderField r)
    (hg : g = leasedField q ∨ g = holderField q) : Apart f g := by
  have hfbits : f.lo ≤ f.hi := by
    obtain rfl | rfl := hf
    · exact (leasedField_bits hr).1
    · exact (holderField_bits hr).1
  have hgbits : g.lo ≤ g.hi := by
    obtain rfl | rfl := hg
    · exact (leasedField_bits hq).1
    · exact (holderField_bits hq).1
  have hnum : ¬ (q.1 = r.1 ∧ q.2 = r.2) := fun h => hne (Prod.ext h.1 h.2)
  refine ⟨hfbits, hgbits, ?_⟩
  obtain ⟨hrk, hfreg⟩ | hplace := field_place hr hf
  · obtain ⟨hqk, hgreg⟩ | hplace := field_place hq hg
    · exact .inl (by rw [hfreg, hgreg]; exact stateWord_ne hq hr hne hqk hrk)
    · have hlease := stateWord_ne_lease hr hrk
      omega
  · obtain ⟨hqk, hgreg⟩ | hplace' := field_place hq hg
    · have hlease := stateWord_ne_lease hq hqk
      omega
    · omega

theorem holderOf_setHolder_ne (s : State) {r q : Res} (hr : Valid r) (hq : Valid q) (hne : q ≠ r) (h : Option Nat) :
    holderOf (setHolder s r.1 r.2 h) q.1 q.2 = holderOf s q.1 q.2 := by
  refine holderOf_congr hq ?_ ?_
  · rw [flag_congr (rd_setHolder s r h _), flag_setF_apart (fields_apart hr hq hne (.inr rfl) (.inl rfl)),
      flag_setF_apart (fields_apart hr hq hne (.inl rfl) (.inl rfl))]
  · rw [getF_congr (rd_setHolder s r h _), getF_setF_apart (fields_apart hr hq hne (.inr rfl) (.inr rfl)),
      getF_setF_apart (fields_apart hr hq hne (.inl rfl) (.inr rfl))]

/-! ### Losing one lease (R399) -/

/-- Leases and their state words apart, far registers and the notes on channels are all that moves. -/
structure Loses (s t : State) : Prop where
  rd : ∀ j, ¬ far j → ¬ leaseWord j → rd t j = rd s j
  sys : SameSys s t

section Loses

variable {s t u : State}

theorem Loses.refl (s : State) : Loses s s := ⟨fun _ _ _ => rfl, .of_sys rfl⟩

theorem Loses.trans (h : Loses s t) (k : Loses t u) : Loses s u := ⟨fun j hj hl => (k.rd j hj hl).trans (h.rd j hj hl), h.sys.trans k.sys⟩

theorem Aside.loses (h : Aside s t) : Loses s t := ⟨fun j hj _ => h.rd j hj, h.sys⟩

theorem Loses.wr (h : Loses s t) {i : Nat} (hi : leaseWord i) (v : Word) : Loses s (wr t i v) :=
  h.trans ⟨fun _ _ hl => rd_wr_ne _ _ _ _ fun e => hl (e ▸ hi), .of_sys rfl⟩

theorem Loses.getF (h : Loses s t) {f : Field} (hf : ¬ far f.reg) (hl : ¬ leaseWord f.reg) : getF t f = getF s f := getF_congr (h.rd _ hf hl)

theorem Loses.flag (h : Loses s t) {f : Field} (hf : ¬ far f.reg) (hl : ¬ leaseWord f.reg) : flag t f = flag s f := flag_congr (h.rd _ hf hl)

theorem Loses.foldl {α : Type} {l : List α} {f : State → α → State} (h : Loses s t) (hf : ∀ u, ∀ x ∈ l, Loses u (f u x)) :
    Loses s (l.foldl f t) := by
  induction l generalizing t with
  | nil => exact h
  | cons x l ih => exact ih (h.trans (hf t x (List.mem_cons_self ..))) fun u y hy => hf u y (List.mem_cons_of_mem _ hy)

theorem setHolder_loses (s : State) {r : Res} (hr : Valid r) (h : Option Nat) : Loses s (setHolder s r.1 r.2 h) := by
  refine ⟨fun j _ hl => ?_, .of_sys ((setHolder_keeps (R := (· ∈ [Part.regs])) s r.1 r.2 h (fun _ hp => hp) (.refl _ _)).same .sys (by decide))⟩
  have hholder : j ≠ (holderField r).reg := fun e => hl (e ▸ holderField_leaseWord hr)
  have hleased : j ≠ (leasedField r).reg := fun e => hl (e ▸ leasedField_leaseWord hr)
  rw [rd_setHolder, rd_setF_ne _ _ _ _ hholder, rd_setF_ne _ _ _ _ hleased]

/-- What stands aside leaves every lease. -/
theorem Aside.holder (h : Aside s t) {r : Res} (hr : Valid r) : holderOf t r.1 r.2 = holderOf s r.1 r.2 :=
  holderOf_congr hr (h.flag (not_far_of_leaseWord (leasedField_leaseWord hr))) (h.getF (not_far_of_leaseWord (holderField_leaseWord hr)))

theorem dropDriven_aside (s : State) (r : Res) : Aside s (dropDriven s r) := by
  refine (Aside.refl s).foldl fun u n _ => ?_
  split
  · exact loopLeaseLost_aside u n
  · exact .refl u

/-- The request of a state word is set to OFF. -/
def reqOff (s : State) (r : Res) : State := wr s (stateWord r.1 r.2) (bitsSet (rd s (stateWord r.1 r.2)) 2 0 rqOff)

theorem reqOff_holder (s : State) {r q : Res} (hr : Valid r) (hk : r.1 ≤ 3) (hq : Valid q) : holderOf (reqOff s r) q.1 q.2 = holderOf s q.1 q.2 := by
  have hapart : ∀ {g : Field}, g = leasedField q ∨ g = holderField q → Apart ⟨stateWord r.1 r.2, 2, 0⟩ g := fun {g} hg => by
    obtain ⟨hqk, hreg⟩ | hplace := field_place hq hg
    · obtain rfl | rfl := hg
      · exact ⟨Nat.zero_le 2, (leasedField_bits hq).1, .inr (.inl (by simp [leasedField, hqk]))⟩
      · exact ⟨Nat.zero_le 2, (holderField_bits hq).1, .inr (.inl (by simp [holderField, hqk]))⟩
    · have hlease := stateWord_ne_lease hr hk
      exact ⟨Nat.zero_le 2, by omega, .inl (by simp only; omega)⟩
  exact holderOf_congr hq (flag_setF_apart (f := ⟨stateWord r.1 r.2, 2, 0⟩) (hapart (.inl rfl)) rqOff)
    (getF_setF_apart (f := ⟨stateWord r.1 r.2, 2, 0⟩) (hapart (.inr rfl)) rqOff)

/-- A resource is set down: no lease changes, and of the hosts it is noted alone. -/
structure SetsDown (s t : State) : Prop where
  loses : Loses s t
  holder : ∀ q, Valid q → holderOf t q.1 q.2 = holderOf s q.1 q.2
  slots : t.hif.slots = s.hif.slots

theorem SetsDown.trans (h : SetsDown s t) (k : SetsDown t u) : SetsDown s u :=
  ⟨h.loses.trans k.loses, fun q hq => (k.holder q hq).trans (h.holder q hq), k.slots.trans h.slots⟩

theorem Aside.setsDown (h : Aside s t) (hslots : t.hif.slots = s.hif.slots) : SetsDown s t := ⟨h.loses, fun _ hq => h.holder hq, hslots⟩

theorem cancelWhere_setsDown (s : State) (at_ b : Nat) (p : EvSlot → Bool) : SetsDown s (cancelWhere s at_ b p) := by
  have hhif := (cancelWhere_keeps (R := (· ∈ [Part.regs, .sys, .recd, .sch, .fjl, .free])) s at_ b p (fun _ hp => hp) (.refl _ _)).same .hif
    (by decide)
  exact (cancelWhere_aside s at_ b p).setsDown (congrArg (·.slots) hhif)

theorem loopLeaseLost_setsDown (s : State) (n : Nat) : SetsDown s (loopLeaseLost s n) := by
  have hhif := (loopLeaseLost_keeps (R := (· ∈ [Part.regs, .recd])) s n (fun _ hp => hp) (.refl _ _)).same .hif (by decide)
  exact (loopLeaseLost_aside s n).setsDown (congrArg (·.slots) hhif)

theorem dropDriven_setsDown (s : State) (r : Res) : SetsDown s (dropDriven s r) := by
  have hhif := (dropDriven_keeps (R := (· ∈ [Part.regs, .recd])) s r (fun _ hp => hp) (.refl _ _)).same .hif (by decide)
  exact (dropDriven_aside s r).setsDown (congrArg (·.slots) hhif)

theorem stopPwm_setsDown (s : State) (g : Nat) : SetsDown s (stopPwm (setB s (PWM_GRP_CTRL_EN g) false) g) := by
  have hctrl : far (PWM_GRP_CTRL_EN g).reg := far_beyond (by change 0x1400 ≤ PWM_GRP_CTRL g; unfold PWM_GRP_CTRL; omega)
  have hhif := (stopPwm_keeps (R := (· ∈ [Part.regs, .pwm])) (setB s (PWM_GRP_CTRL_EN g) false) g (fun _ hp => hp) (.refl _ _)).same .hif (by decide)
  exact (((Aside.refl s).setB hctrl false).trans (stopPwm_aside _ g)).setsDown (congrArg (·.slots) hhif)

theorem reqOff_setsDown (s : State) {r : Res} (hr : Valid r) (hk : r.1 ≤ 3) : SetsDown s (reqOff s r) :=
  ⟨(Loses.refl s).wr (stateWord_leaseWord hr hk) _, fun _ hq => reqOff_holder s hr hk hq, rfl⟩

/-- A resource is noted as set down. -/
def noteDown (s : State) (r : Res) : State :=
  modHif s fun x => { x with setDown := sparseSet (fun _ => false) x.setDown (resOf r) true }

theorem noteDown_setsDown (s : State) (r : Res) : SetsDown s (noteDown s r) :=
  (Aside.of_same (s := s) (t := noteDown s r) rfl rfl).setsDown rfl

theorem putDown_setsDown (s : State) {r : Res} (hr : Valid r) : SetsDown s (putDown s r) := by
  unfold putDown
  extract_lets s0 i s1 l
  have h0 : SetsDown s s0 := dropDriven_setsDown s r
  split
  next hk =>
    have h1 : SetsDown s s1 := (h0.trans (reqOff_setsDown s0 hr hk)).trans (noteDown_setsDown _ r)
    exact h1.trans (cancelWhere_setsDown _ _ _ _)
  next =>
    split
    · exact h0.trans (loopLeaseLost_setsDown _ _)
    · exact h0.trans (stopPwm_setsDown _ _)

end Loses

/-! ### Losing leases -/

section Lost

variable {s t : State}

/-- The registers of attachment and ports are no leases. -/
theorem slotReg_apart {j : Nat} (h : 0x100 ≤ j ∧ j < 0x150) : ¬ far j ∧ ¬ leaseWord j := by
  unfold far leaseWord
  omega

theorem Loses.attached (h : Loses s t) {g : Nat} (hg : g < 4) : attached t g = attached s g := by
  obtain ⟨hfar, hlease⟩ := slotReg_apart (j := HIF_H_STAT g) (by unfold HIF_H_STAT; omega)
  exact h.flag hfar hlease

theorem Loses.roleOf (h : Loses s t) {g : Nat} (hg : g < 4) : roleOf t g = roleOf s g := by
  obtain ⟨hfar, hlease⟩ := slotReg_apart (j := HIF_H_STAT g) (by unfold HIF_H_STAT; omega)
  exact h.getF hfar hlease

theorem payOwed_slots (n : Nat) (s : State) {h k : Nat} (hk : k ≠ h) : slotOf (payOwed n s h) k = slotOf s k := by
  induction n generalizing s with
  | zero => rfl
  | succ n ih =>
    rw [payOwed]
    split
    · rfl
    · split
      · rw [ih, slotOf_modSlot_ne _ _ hk, otherSlots_postFrame _ _ _ _ _ _ _ _ hk]
      · rfl

/-- Only the slot that loses hears of it. -/
theorem notifyLost_slots (s : State) {h k : Nat} (p : List Byte) (hk : k ≠ h) : slotOf (notifyLost s h p) k = slotOf s k := by
  unfold notifyLost
  extract_lets s1
  rw [payOwed_slots _ _ hk]
  exact slotOf_modSlot_ne _ _ hk

theorem notifyLost_aside (s : State) (h : Nat) (p : List Byte) : Aside s (notifyLost s h p) :=
  .of_keeps (l := [.hif]) (notifyLost_keeps s h p (fun _ hp => hp) (.refl _ _)) (by decide) (by decide)

/-- The lease of a resource is given up, with the tie that it had. -/
def unheld (s : State) (r : Res) : State := modHif (setHolder s r.1 r.2 none) fun x => { x with tie := sparseDel x.tie (resOf r) }

theorem loseOne_none {r : Res} (h : holderOf s r.1 r.2 = none) (reason : Nat) (new : Option Nat) : loseOne s r reason new = s := by
  rw [loseOne, h]

theorem loseOne_some {r : Res} {h : Nat} (hh : holderOf s r.1 r.2 = some h) (reason : Nat) (new : Option Nat) : loseOne s r reason new =
    if attached (putDown (unheld s r) r) h then notifyLost (putDown (unheld s r) r) h (lostNote r reason new) else putDown (unheld s r) r := by
  rw [loseOne, hh]
  rfl

theorem holderOf_lt {r : Res} (hr : Valid r) {h : Nat} (hh : holderOf s r.1 r.2 = some h) : h < 4 := by
  rw [holderOf_eq s hr] at hh
  split at hh
  · obtain ⟨-, -, hwidth⟩ := holderField_bits hr
    have hlt := bitsOf_lt (rd s (holderField r).reg) (holderField r).hi (holderField r).lo
    rw [hwidth] at hlt
    exact (Option.some.inj hh) ▸ hlt
  · exact absurd hh (by simp)

theorem unheld_loses {r : Res} (hr : Valid r) : Loses s (unheld s r) :=
  (setHolder_loses s hr none).trans (Aside.of_same (s := setHolder s r.1 r.2 none) (t := unheld s r) rfl rfl).loses

theorem unheld_slots {r : Res} : (unheld s r).hif.slots = s.hif.slots :=
  congrArg (·.slots) ((setHolder_keeps (R := (· ∈ [Part.regs])) s r.1 r.2 none (fun _ hp => hp) (.refl _ _)).same .hif (by decide))

theorem holderOf_unheld {r q : Res} (hr : Valid r) (hq : Valid q) :
    holderOf (unheld s r) q.1 q.2 = if q = r then none else holderOf s q.1 q.2 := by
  have hregs : holderOf (unheld s r) q.1 q.2 = holderOf (setHolder s r.1 r.2 none) q.1 q.2 := rfl
  rw [hregs]
  split
  next h =>
    subst h
    exact holderOf_setHolder s hq none (by simp)
  next h => exact holderOf_setHolder_ne s hr hq h none

variable {r : Res} (hr : Valid r) (reason : Nat) (new : Option Nat)
include hr

theorem loseOne_loses : Loses s (loseOne s r reason new) := by
  cases hh : holderOf s r.1 r.2 with
  | none =>
    rw [loseOne_none hh]
    exact .refl s
  | some h =>
    have hdown : Loses s (putDown (unheld s r) r) := (unheld_loses hr).trans (putDown_setsDown _ hr).loses
    rw [loseOne_some hh]
    split
    · exact hdown.trans (notifyLost_aside _ _ _).loses
    · exact hdown

/-- The resource is free, and every other one is held as before. -/
theorem holderOf_loseOne {q : Res} (hq : Valid q) :
    holderOf (loseOne s r reason new) q.1 q.2 = if q = r then none else holderOf s q.1 q.2 := by
  cases hh : holderOf s r.1 r.2 with
  | none =>
    rw [loseOne_none hh]
    split
    next h => rw [h, hh]
    next => rfl
  | some h =>
    have hdown : holderOf (putDown (unheld s r) r) q.1 q.2 = if q = r then none else holderOf s q.1 q.2 := by
      rw [(putDown_setsDown _ hr).holder q hq, holderOf_unheld hr hq]
    rw [loseOne_some hh]
    split
    · rw [(notifyLost_aside _ _ _).holder hq, hdown]
    · exact hdown

/-- A slot that does not hear of the loss stands. -/
theorem loseOne_slots {k : Nat} (hk : ∀ h, holderOf s r.1 r.2 = some h → attached s h = true → k ≠ h) :
    slotOf (loseOne s r reason new) k = slotOf s k := by
  cases hh : holderOf s r.1 r.2 with
  | none => rw [loseOne_none hh]
  | some h =>
    have hloses : Loses s (putDown (unheld s r) r) := (unheld_loses hr).trans (putDown_setsDown _ hr).loses
    have hdown : slotOf (putDown (unheld s r) r) k = slotOf s k := by
      rw [slotOf, (putDown_setsDown _ hr).slots, unheld_slots, slotOf]
    rw [loseOne_some hh, hloses.attached (holderOf_lt hr hh)]
    split
    next hatt => rw [notifyLost_slots _ _ (hk h hh hatt), hdown]
    next => exact hdown

end Lost

end Sys2Proof.Leases
end

section
/-!
Lists of leases that are lost, and the detachment of a slot (R397, R399, R401).
-/
namespace Sys2Proof.Leases

open Sys2Proof Sys2Proof.Machine Sys2Proof.Mailbox Sys2Proof.Frame

/-! ### Losing a list of resources -/

/-- Resources are lost one after the other. -/
def loseEach (s : State) (l : List Res) (reason : Nat) (new : Option Nat) : State := l.foldl (fun s r => loseOne s r reason new) s

section Each

variable {l : List Res} (hl : ∀ r ∈ l, Valid r) (reason : Nat) (new : Option Nat)
include hl

theorem loseEach_loses (s : State) : Loses s (loseEach s l reason new) :=
  (Loses.refl s).foldl fun _ r hr => loseOne_loses (hl r hr) reason new

theorem holderOf_loseEach (s : State) {q : Res} (hq : Valid q) :
    holderOf (loseEach s l reason new) q.1 q.2 = if q ∈ l then none else holderOf s q.1 q.2 := by
  induction l generalizing s with
  | nil => rfl
  | cons r l ih =>
    have hr : Valid r := hl r (List.mem_cons_self ..)
    rw [loseEach, List.foldl_cons, ← loseEach, ih (fun r hr => hl r (List.mem_cons_of_mem _ hr)), holderOf_loseOne hr reason new hq]
    by_cases hqr : q = r
    · simp [hqr]
    · simp [hqr]

/-- A slot that holds none of the resources, or is detached, stands. -/
theorem loseEach_slots (s : State) {k : Nat} (hk : ∀ r ∈ l, ∀ h, holderOf s r.1 r.2 = some h → attached s h = true → k ≠ h) :
    slotOf (loseEach s l reason new) k = slotOf s k := by
  induction l generalizing s with
  | nil => rfl
  | cons r l ih =>
    have hr : Valid r := hl r (List.mem_cons_self ..)
    have hone : slotOf (loseOne s r reason new) k = slotOf s k := loseOne_slots hr reason new (hk r (List.mem_cons_self ..))
    rw [loseEach, List.foldl_cons, ← loseEach, ih (fun r hr => hl r (List.mem_cons_of_mem _ hr)), hone]
    intro q hq h hh hatt
    have hqv : Valid q := hl q (List.mem_cons_of_mem _ hq)
    rw [holderOf_loseOne hr reason new hqv] at hh
    split at hh
    · exact absurd hh (by simp)
    · rw [(loseOne_loses hr reason new).attached (holderOf_lt hqv hh)] at hatt
      exact hk q (List.mem_cons_of_mem _ hq) h hh hatt

end Each

section All

variable {s : State} {h : Nat} {l : List Res} (hl : ∀ r ∈ l, Valid r) (reason : Nat) (new : Option Nat)

theorem mem_heldBy {r : Res} : r ∈ heldBy s h ↔ Valid r ∧ holderOf s r.1 r.2 = some h := by
  rw [heldBy, List.mem_filter, mem_allRes, holds, decide_eq_true_eq]

/-- The member leases that go with the resources. -/
def tiedOthers (s : State) (h : Nat) (l : List Res) : List Res := (tiedTo s h l).filter fun r => !l.contains r

theorem tiedOthers_held {r : Res} (hr : r ∈ tiedOthers s h l) : Valid r ∧ holderOf s r.1 r.2 = some h :=
  mem_heldBy.1 (List.mem_filter.1 (List.mem_filter.1 hr).1).1

theorem loseAll_eq (s : State) (h : Nat) (l : List Res) : loseAll s h l reason new = loseEach (loseEach s l reason new) (tiedOthers s h l) 3 none := rfl

include hl

theorem loseAll_loses : Loses s (loseAll s h l reason new) :=
  (loseEach_loses hl reason new s).trans (loseEach_loses (fun _ hr => (tiedOthers_held hr).1) 3 none _)

theorem holderOf_loseAll {q : Res} (hq : Valid q) : holderOf (loseAll s h l reason new) q.1 q.2 =
    if q ∈ l ∨ q ∈ tiedOthers s h l then none else holderOf s q.1 q.2 := by
  rw [loseAll_eq, holderOf_loseEach (fun _ hr => (tiedOthers_held hr).1) 3 none _ hq, holderOf_loseEach hl reason new s hq]
  by_cases ht : q ∈ tiedOthers s h l
  · simp [ht]
  · simp [ht]

/-- Where the resources are the slot's own, the other slots stand, and it stands itself while it is detached. -/
theorem loseAll_slots (hown : ∀ r ∈ l, ∀ g, holderOf s r.1 r.2 = some g → g = h) {k : Nat} (hk : k ≠ h ∨ attached s h = false) :
    slotOf (loseAll s h l reason new) k = slotOf s k := by
  have hfirst : slotOf (loseEach s l reason new) k = slotOf s k := by
    refine loseEach_slots hl reason new s fun r hr g hg hatt => ?_
    obtain rfl := hown r hr g hg
    exact hk.resolve_right (by simp [hatt])
  rw [loseAll_eq, loseEach_slots (fun _ hr => (tiedOthers_held hr).1) 3 none, hfirst]
  intro r hr g hg hatt
  obtain ⟨hrv, hrh⟩ := tiedOthers_held hr
  rw [holderOf_loseEach hl reason new s hrv] at hg
  split at hg
  · exact absurd hg (by simp)
  · obtain rfl : h = g := Option.some.inj (hrh.symm.trans hg)
    rw [(loseEach_loses hl reason new s).attached (holderOf_lt hrv hrh)] at hatt
    exact hk.resolve_right (by simp [hatt])

end All

/-! ### Detachment (R397, R401) -/

/-- The registers of the slots and of start-up, with those that hold leases. -/
def hostWord (j : Nat) : Prop := j < 0x10 ∨ (0x20 ≤ j ∧ j < 0x80) ∨ (0x100 ≤ j ∧ j < 0x160) ∨ (0x0D00 ≤ j ∧ j < 0x0F00)

/-- What slots, leases and the open update are to a state; nothing else of it moves but far registers and the notes on channels. -/
structure HostsOnly (s t : State) : Prop where
  rd : ∀ j, ¬ far j → ¬ hostWord j → rd t j = rd s j
  sys : SameSys s t
  trips : t.boot.trips = s.boot.trips

section HostsOnly

variable {s t u : State}

theorem HostsOnly.refl (s : State) : HostsOnly s s := ⟨fun _ _ _ => rfl, .of_sys rfl, rfl⟩

theorem HostsOnly.trans (h : HostsOnly s t) (k : HostsOnly t u) : HostsOnly s u :=
  ⟨fun j hj hl => (k.rd j hj hl).trans (h.rd j hj hl), h.sys.trans k.sys, k.trips.trans h.trips⟩

theorem Aside.hostsOnly (h : Aside s t) (hboot : t.boot = s.boot) : HostsOnly s t :=
  ⟨fun j hj _ => h.rd j hj, h.sys, congrArg (·.trips) hboot⟩

theorem Loses.hostsOnly (h : Loses s t) (hboot : t.boot = s.boot) : HostsOnly s t :=
  ⟨fun j hj hl => h.rd j hj fun hw => hl (by unfold leaseWord at hw; unfold hostWord; omega), h.sys, congrArg (·.trips) hboot⟩

theorem HostsOnly.wr (h : HostsOnly s t) {i : Nat} (hi : hostWord i) (v : Word) : HostsOnly s (wr t i v) :=
  h.trans ⟨fun _ _ hl => rd_wr_ne _ _ _ _ fun e => hl (e ▸ hi), .of_sys rfl, rfl⟩

theorem HostsOnly.setF (h : HostsOnly s t) {f : Field} (hf : hostWord f.reg) (v : Nat) : HostsOnly s (setF t f v) := h.wr hf _

theorem HostsOnly.setB (h : HostsOnly s t) {f : Field} (hf : hostWord f.reg) (b : Bool) : HostsOnly s (setB t f b) := h.wr hf _

theorem HostsOnly.bump (h : HostsOnly s t) {f : Field} (hf : hostWord f.reg) (n : Nat) : HostsOnly s (bump t f n) := h.wr hf _

theorem HostsOnly.getF (h : HostsOnly s t) {f : Field} (hf : ¬ far f.reg) (hl : ¬ hostWord f.reg) : getF t f = getF s f := getF_congr (h.rd _ hf hl)

theorem HostsOnly.flag (h : HostsOnly s t) {f : Field} (hf : ¬ far f.reg) (hl : ¬ hostWord f.reg) : flag t f = flag s f := flag_congr (h.rd _ hf hl)

end HostsOnly

section Vacated

variable (s : State) (h cause : Nat)

/-- The slot's registers are at their values of a detached slot. -/
def unattached : State :=
  wr (wr (setF (setB (setF (record s 0x1003 h (leBytes 1 cause)) (HIF_H_STAT_ROLE h) 0) (HIF_H_STAT_ATT h) false) (HIF_H_NOTE_MASK h) 0)
    (HIF_H_UDP_IP h) 0) (HIF_H_UDP_PORT h) 0

/-- The slot has no frames any more, and its leases are not lost yet. -/
def vacated : State :=
  bump (modSlot (unattached s h cause) h fun x => { x with ring := [], deferred := [], owed := [], reasm := none }) (HIF_H_CNT_DROP_UNITS h)
    (slotOf s h).ring.length

/-- The slot's leases are lost, and what is shown of the hosts follows. -/
def unleased : State := showHif (loseAll (vacated s h cause) h (heldBy (vacated s h cause) h) 0 none)

/-- The slot's freeze of the record ends with its update of the firmware. -/
def unfrozen : State :=
  if ((releaseFreeze (unleased s h cause) h).boot.update.map (·.slot)) == some h then closeUpdate (releaseFreeze (unleased s h cause) h)
  else releaseFreeze (unleased s h cause) h

theorem detach_attached (hatt : attached s h = true) : detach s h cause =
    if portOf (unfrozen s h cause) h = 2 then showCan (setB (unfrozen s h cause) (CAN_CTRL_HOSTLINK 1) false) 1 else unfrozen s h cause := by
  rw [detach, if_neg (by simp [hatt])]
  rfl

theorem detach_detached (hatt : attached s h = false) : detach s h cause = s := by
  rw [detach, if_pos (by simp [hatt])]

/-! The registers that a detachment writes beside leases. -/

/-- The registers of slot `h`. -/
theorem slotReg_hostWord {j : Nat} (hj : 0x100 ≤ j ∧ j < 0x160) : hostWord j := .inr (.inr (.inl hj))

theorem modSlot_hostsOnly (s : State) (h : Nat) (f : HostSlot → HostSlot) : HostsOnly s (modSlot s h f) :=
  ⟨fun _ _ _ => rfl, .of_sys rfl, rfl⟩

variable {h} in
theorem hostsOnly_unattached (hh : h < 4) : HostsOnly s (unattached s h cause) := by
  have hrec : HostsOnly s (record s 0x1003 h (leBytes 1 cause)) :=
    ((Aside.refl s).record _ _ _).hostsOnly ((keeps_record s 0x1003 h (leBytes 1 cause)).same .boot (by decide))
  have hstat : hostWord (HIF_H_STAT h) := slotReg_hostWord (by unfold HIF_H_STAT; omega)
  have hnote : hostWord (HIF_H_NOTE h) := slotReg_hostWord (by unfold HIF_H_NOTE; omega)
  have hip : hostWord (HIF_H_UDP_IP h) := slotReg_hostWord (by unfold HIF_H_UDP_IP; omega)
  have hport : hostWord (HIF_H_UDP_PORT h) := slotReg_hostWord (by unfold HIF_H_UDP_PORT; omega)
  exact ((((hrec.setF (f := HIF_H_STAT_ROLE h) hstat _).setB (f := HIF_H_STAT_ATT h) hstat _).setF (f := HIF_H_NOTE_MASK h) hnote _).wr hip _).wr hport _

variable {h} in
theorem hostsOnly_vacated (hh : h < 4) : HostsOnly s (vacated s h cause) := by
  have hmod := modSlot_hostsOnly (unattached s h cause) h fun x => { x with ring := [], deferred := [], owed := [], reasm := none }
  exact ((hostsOnly_unattached s cause hh).trans hmod).bump (f := HIF_H_CNT_DROP_UNITS h)
    (slotReg_hostWord (by change 0x100 ≤ HIF_H_CNT_DROP h ∧ HIF_H_CNT_DROP h < 0x160; unfold HIF_H_CNT_DROP; omega)) _

/-! What follows the loss of leases only shows it. -/

/-- Images, the summary of the hosts and far registers: nothing that a slot or a lease rests on. -/
structure Shows (s t : State) : Prop where
  rd : ∀ j, ¬ far j → ¬ (j < 0x10 ∨ j = 0x100) → rd t j = rd s j
  sys : SameSys s t
  trips : t.boot.trips = s.boot.trips
  hif : t.hif = s.hif

section Shows

variable {s t u : State}

theorem Shows.refl (s : State) : Shows s s := ⟨fun _ _ _ => rfl, .of_sys rfl, rfl, rfl⟩

theorem Shows.trans (h : Shows s t) (k : Shows t u) : Shows s u :=
  ⟨fun j hj hl => (k.rd j hj hl).trans (h.rd j hj hl), h.sys.trans k.sys, k.trips.trans h.trips, k.hif.trans h.hif⟩

theorem Shows.hostsOnly (h : Shows s t) : HostsOnly s t :=
  ⟨fun j hj hl => h.rd j hj fun hs => hl (by unfold hostWord; omega), h.sys, h.trips⟩

theorem Shows.holder (h : Shows s t) {q : Res} (hq : Valid q) : holderOf t q.1 q.2 = holderOf s q.1 q.2 := by
  have hword : ∀ {j : Nat}, leaseWord j → Machine.rd t j = Machine.rd s j := fun {j} hj =>
    h.rd j (not_far_of_leaseWord hj) (by unfold leaseWord at hj; omega)
  exact holderOf_congr hq (flag_congr (hword (leasedField_leaseWord hq))) (getF_congr (hword (holderField_leaseWord hq)))

/-- The registers of a slot stand. -/
theorem Shows.slotReg (h : Shows s t) {j : Nat} (hj : 0x110 ≤ j ∧ j < 0x150) : Machine.rd t j = Machine.rd s j :=
  h.rd j (slotReg_apart ⟨by omega, hj.2⟩).1 (by omega)

theorem showHif_shows (s : State) : Shows s (showHif s) := by
  have hregs : regsBut s (showHif s) [HIF_STAT] := by
    unfold showHif
    extract_lets s1 o v s2
    have hmem : HIF_STAT ∈ [HIF_STAT] := List.mem_singleton_self _
    have h1 : regsBut s s1 [HIF_STAT] := regsBut_foldl (fun k _ u hu => regsBut_setB hu hmem _) (regsBut_refl _ _)
    have h2 : regsBut s s2 [HIF_STAT] := regsBut_setB (regsBut_setF h1 hmem _) hmem _
    exact regsBut_setB (regsBut_setF h2 hmem _) hmem _
  have hkeeps := showHif_keeps (R := (· ∈ [Part.regs])) s (fun _ hp => hp) (.refl _ _)
  refine ⟨fun j _ hl => hregs j ?_, .of_sys (hkeeps.same .sys (by decide)), congrArg (·.trips) (hkeeps.same .boot (by decide)),
    hkeeps.same .hif (by decide)⟩
  rw [List.mem_singleton]
  exact fun e => hl (.inr e)

theorem endFreeze_aside (s : State) : Aside s (endFreeze s) := by
  have hregs : regsBut s (endFreeze s) lossCounters := by
    unfold endFreeze
    split
    · exact regsBut_trans (regsBut_of_regs rfl _) (regsBut_recTake (modRec s fun r => { r with freeze := none }))
    · exact regsBut_refl _ _
  refine .of_regsBut hregs (fun j hj => ?_) ((endFreeze_keeps (R := (· ∈ [Part.regs, .recd])) s (fun _ hp => hp) (.refl _ _)).same .sys (by decide))
  rw [mem_lossCounters] at hj
  unfold far
  omega

theorem Aside.shows (h : Aside s t) (hboot : t.boot = s.boot) (hhif : t.hif = s.hif) : Shows s t :=
  ⟨fun j hj _ => h.rd j hj, h.sys, congrArg (·.trips) hboot, hhif⟩

theorem releaseFreeze_shows (s : State) (p : Nat) : Shows s (releaseFreeze s p) := by
  have hkeeps := releaseFreeze_keeps (R := (· ∈ [Part.regs, .recd])) s p (fun _ hp => hp) (.refl _ _)
  refine Aside.shows ?_ (hkeeps.same .boot (by decide)) (hkeeps.same .hif (by decide))
  unfold releaseFreeze
  split
  · exact endFreeze_aside s
  · exact .refl s

theorem regsBut_setImage (s : State) (i : Nat) (x : ImageRec) : regsBut s (setImage s i x) [SYS_BOOT, SYS_IMG 0, SYS_IMG 1] := by
  unfold setImage showImages
  simp only [List.foldl_cons, List.foldl_nil]
  have hboot : regsBut s (modBoot s fun b => { b with images := sparseSet (fun _ => ImageRec.empty) b.images i x })
    [SYS_BOOT, SYS_IMG 0, SYS_IMG 1] := regsBut_of_regs (Machine.modBoot_regs _ _) _
  exact regsBut_setF (regsBut_setF (regsBut_setF (regsBut_setF hboot (by simp) _) (by simp) _) (by simp) _) (by simp) _

theorem regsBut_closeUpdate (s : State) : regsBut s (closeUpdate s) [SYS_BOOT, SYS_IMG 0, SYS_IMG 1] := by
  unfold closeUpdate
  split
  · exact regsBut_setF (regsBut_setB (regsBut_put (regsBut_setImage s _ _) (Machine.modBoot_regs _ _)) (by simp) _) (by simp) _
  · exact regsBut_refl _ _

theorem closeUpdate_shows (s : State) : Shows s (closeUpdate s) := by
  have hkeeps := closeUpdate_keeps (R := (· ∈ [Part.regs, .boot])) s (fun _ hp => hp) (.refl _ _)
  refine ⟨fun j _ hl => regsBut_closeUpdate s j fun hmem => hl (.inl ?_), .of_sys (hkeeps.same .sys (by decide)), ?_, hkeeps.same .hif (by decide)⟩
  · simp only [List.mem_cons, List.not_mem_nil, or_false] at hmem
    obtain rfl | rfl | rfl := hmem <;> decide
  · unfold closeUpdate
    split <;> rfl

theorem linkDown_shows (s : State) : Shows s (showCan (setB s (CAN_CTRL_HOSTLINK 1) false) 1) := by
  have hkeeps := showCan_keeps (R := (· ∈ [Part.regs])) (setB s (CAN_CTRL_HOSTLINK 1) false) 1 (fun _ hp => hp) (.refl _ _)
  have hcan : Aside (setB s (CAN_CTRL_HOSTLINK 1) false) (showCan (setB s (CAN_CTRL_HOSTLINK 1) false) 1) := by
    refine .of_regsBut (CanControllers.regsBut_showCan _ 1) (fun j hj => far_beyond ?_) (hkeeps.same .sys (by decide))
    obtain rfl | hj := List.mem_cons.1 hj
    · decide
    · rw [CanControllers.mem_txRegs] at hj
      omega
  exact (((Aside.refl s).setB (far_beyond (by decide)) false).trans hcan).shows (hkeeps.same .boot (by decide)) (hkeeps.same .hif (by decide))

end Shows

/-! ### What a detachment leaves -/

theorem unfrozen_shows : Shows (loseAll (vacated s h cause) h (heldBy (vacated s h cause) h) 0 none) (unfrozen s h cause) := by
  have h1 : Shows (loseAll (vacated s h cause) h (heldBy (vacated s h cause) h) 0 none) (releaseFreeze (unleased s h cause) h) :=
    (showHif_shows _).trans (releaseFreeze_shows _ h)
  unfold unfrozen
  split
  · exact h1.trans (closeUpdate_shows _)
  · exact h1

variable {h}

theorem detach_shows (hatt : attached s h = true) : Shows (loseAll (vacated s h cause) h (heldBy (vacated s h cause) h) 0 none) (detach s h cause) := by
  rw [detach_attached s h cause hatt]
  split
  · exact (unfrozen_shows s h cause).trans (linkDown_shows _)
  · exact unfrozen_shows s h cause

/-- Detaching touches hosts only. -/
theorem detach_hostsOnly (hh : h < 4) : HostsOnly s (detach s h cause) := by
  cases hatt : attached s h with
  | false =>
    rw [detach_detached s h cause hatt]
    exact .refl s
  | true =>
    have hlost := loseAll_loses (s := vacated s h cause) (h := h) (l := heldBy (vacated s h cause) h) (fun _ hr => (mem_heldBy.1 hr).1) 0 none
    have hboot := (loseAll_keeps (R := (· ∈ [Part.regs, .sys, .hif, .recd, .sch, .fjl, .pwm, .free])) (vacated s h cause) h
      (heldBy (vacated s h cause) h) 0 none (fun _ hp => hp) (.refl _ _)).same .boot (by decide)
    exact ((hostsOnly_vacated s cause hh).trans (hlost.hostsOnly hboot)).trans (detach_shows s cause hatt).hostsOnly

/-! The slot's registers. -/

variable (h) in
theorem loseHeld_loses : Loses (vacated s h cause) (loseAll (vacated s h cause) h (heldBy (vacated s h cause) h) 0 none) :=
  loseAll_loses (fun _ hr => (mem_heldBy.1 hr).1) 0 none

theorem rd_detach (hatt : attached s h = true) {j : Nat} (hj : 0x110 ≤ j ∧ j < 0x150) : rd (detach s h cause) j = rd (vacated s h cause) j := by
  obtain ⟨hfar, hlease⟩ := slotReg_apart (j := j) ⟨by omega, hj.2⟩
  rw [(detach_shows s cause hatt).slotReg hj, (loseHeld_loses s h cause).rd j hfar hlease]

/-- Every register of the slot but its counter of dropped units stands at what the detachment puts there. -/
theorem rd_vacated {j : Nat} (hj : j ≠ HIF_H_CNT_DROP h) : rd (vacated s h cause) j = rd (unattached s h cause) j := by
  have hbump : rd (vacated s h cause) j = rd (modSlot (unattached s h cause) h
      fun x => { x with ring := [], deferred := [], owed := [], reasm := none }) j := rd_setF_ne _ _ _ _ hj
  rw [hbump, rd_of_regs (modSlot_regs _ _ _)]

theorem vacated_registers : rd (vacated s h cause) (HIF_H_UDP_IP h) = 0 ∧ rd (vacated s h cause) (HIF_H_UDP_PORT h) = 0 ∧
    getF (vacated s h cause) (HIF_H_NOTE_MASK h) = 0 ∧ attached (vacated s h cause) h = false ∧ roleOf (vacated s h cause) h = 0 := by
  have hstat : HIF_H_STAT h ≠ HIF_H_UDP_PORT h ∧ HIF_H_STAT h ≠ HIF_H_UDP_IP h ∧ HIF_H_STAT h ≠ HIF_H_NOTE h ∧ HIF_H_STAT h ≠ HIF_H_CNT_DROP h := by
    unfold HIF_H_STAT HIF_H_UDP_PORT HIF_H_UDP_IP HIF_H_NOTE HIF_H_CNT_DROP
    omega
  have hnote : HIF_H_NOTE h ≠ HIF_H_UDP_PORT h ∧ HIF_H_NOTE h ≠ HIF_H_UDP_IP h ∧ HIF_H_NOTE h ≠ HIF_H_CNT_DROP h := by
    unfold HIF_H_UDP_PORT HIF_H_UDP_IP HIF_H_NOTE HIF_H_CNT_DROP
    omega
  have hudp : HIF_H_UDP_IP h ≠ HIF_H_CNT_DROP h ∧ HIF_H_UDP_PORT h ≠ HIF_H_CNT_DROP h ∧ HIF_H_UDP_IP h ≠ HIF_H_UDP_PORT h := by
    unfold HIF_H_UDP_PORT HIF_H_UDP_IP HIF_H_CNT_DROP
    omega
  refine ⟨?_, ?_, ?_, ?_, ?_⟩
  · rw [rd_vacated s cause hudp.1, unattached, rd_wr_ne _ _ _ _ hudp.2.2, rd_wr_self]
  · rw [rd_vacated s cause hudp.2.1, unattached, rd_wr_self]
  · rw [getF_congr (rd_vacated s cause hnote.2.2), unattached, getF_wr_apart hnote.1, getF_wr_apart hnote.2.1, getF_setF _ _ _ (by simp)]
    rfl
  · rw [attached, flag_congr (rd_vacated s cause hstat.2.2.2), unattached, flag_wr_apart hstat.1, flag_wr_apart hstat.2.1,
      flag_setF_apart ⟨by simp, by simp, .inl hstat.2.2.1⟩, flag_setB _ _ _ (by simp)]
  · rw [roleOf, getF_congr (rd_vacated s cause hstat.2.2.2), unattached, getF_wr_apart hstat.1, getF_wr_apart hstat.2.1,
      getF_setF_apart ⟨by simp, by simp, .inl hstat.2.2.1⟩, getF_setB_apart ⟨by simp, by simp, .inr (.inl (by simp))⟩, getF_setF _ _ _ (by simp)]
    rfl

/-- The registers of another slot stand. -/
theorem rd_vacated_other {g : Nat} (hg : g ≠ h) (hg4 : g < 4) : rd (vacated s h cause) (HIF_H_STAT g) = rd s (HIF_H_STAT g) := by
  have hne : HIF_H_STAT g ≠ HIF_H_UDP_PORT h ∧ HIF_H_STAT g ≠ HIF_H_UDP_IP h ∧ HIF_H_STAT g ≠ HIF_H_NOTE h ∧ HIF_H_STAT g ≠ HIF_H_CNT_DROP h ∧
      HIF_H_STAT g ≠ HIF_H_STAT h := by
    unfold HIF_H_STAT HIF_H_UDP_PORT HIF_H_UDP_IP HIF_H_NOTE HIF_H_CNT_DROP
    omega
  obtain ⟨hport, hip, hnote, hdrop, hstat⟩ := hne
  rw [rd_vacated s cause hdrop, unattached, rd_wr_ne _ _ _ _ hport, rd_wr_ne _ _ _ _ hip, rd_setF_ne _ _ _ _ hnote, rd_setB_ne _ _ _ _ hstat,
    rd_setF_ne _ _ _ _ hstat, rd_record _ _ _ _ (by unfold HIF_H_STAT; omega)]

/-! The slots themselves. -/

theorem unattached_hif (s : State) (h cause : Nat) : (unattached s h cause).hif = s.hif :=
  (keeps_record s 0x1003 h (leBytes 1 cause)).same .hif (by decide)

theorem slotOf_vacated : slotOf (vacated s h cause) h = { slotOf s h with ring := [], deferred := [], owed := [], reasm := none } := by
  rw [vacated, slotOf_bump, slotOf_modSlot, slotOf, unattached_hif, ← slotOf]

theorem slotOf_vacated_ne {g : Nat} (hg : g ≠ h) : slotOf (vacated s h cause) g = slotOf s g := by
  rw [vacated, slotOf_bump, slotOf_modSlot_ne _ _ hg, slotOf, unattached_hif, ← slotOf]

/-- Nobody hears of what a detached slot loses. -/
theorem slotOf_detach (hatt : attached s h = true) (g : Nat) : slotOf (detach s h cause) g = slotOf (vacated s h cause) g := by
  obtain ⟨-, -, -, hoff, -⟩ := vacated_registers (h := h) s cause
  rw [slotOf, (detach_shows s cause hatt).hif, ← slotOf, loseAll_slots (fun _ hr => (mem_heldBy.1 hr).1) 0 none _ (.inr hoff)]
  intro r hr g hg
  exact Option.some.inj (hg.symm.trans (mem_heldBy.1 hr).2)

/-- A detached slot holds nothing. -/
theorem holds_detach (hatt : attached s h = true) {r : Res} (hr : Valid r) : holds (detach s h cause) h r.1 r.2 = false := by
  rw [holds, decide_eq_false_iff_not, (detach_shows s cause hatt).holder hr, holderOf_loseAll (fun _ hr => (mem_heldBy.1 hr).1) 0 none hr]
  split
  · simp
  next hnot => exact fun he => hnot (.inl (mem_heldBy.2 ⟨hr, he⟩))

/-! The freeze and the update. -/

theorem endFreeze_freeze (s : State) : (endFreeze s).recd.freeze = none :=
  (Recorder.sameButQueue_endFreeze s).freeze_eq

theorem releaseFreeze_freeze (s : State) (p : Nat) : (releaseFreeze s p).recd.freeze ≠ some p := by
  unfold releaseFreeze
  split
  · rw [endFreeze_freeze]
    simp
  · assumption

theorem closeUpdate_update (s : State) : (closeUpdate s).boot.update = none := by
  unfold closeUpdate
  split
  · rfl
  · assumption

theorem unfrozen_ends : (unfrozen s h cause).recd.freeze ≠ some h ∧ (unfrozen s h cause).boot.update.map (·.slot) ≠ some h := by
  unfold unfrozen
  split
  · have hrecd := (closeUpdate_keeps (R := (· ∈ [Part.regs, .boot])) (releaseFreeze (unleased s h cause) h) (fun _ hp => hp) (.refl _ _)).same .recd
      (by decide)
    refine ⟨?_, by simp [closeUpdate_update]⟩
    rw [hrecd]
    exact releaseFreeze_freeze _ h
  next hnot => exact ⟨releaseFreeze_freeze _ h, fun he => hnot (by simp [he])⟩

theorem detach_ends (hatt : attached s h = true) : (detach s h cause).recd.freeze ≠ some h ∧ (detach s h cause).boot.update.map (·.slot) ≠ some h := by
  rw [detach_attached s h cause hatt]
  split
  · have hkeeps := showCan_keeps (R := (· ∈ [Part.regs])) (setB (unfrozen s h cause) (CAN_CTRL_HOSTLINK 1) false) 1 (fun _ hp => hp) (.refl _ _)
    rw [hkeeps.same .recd (by decide), hkeeps.same .boot (by decide)]
    exact unfrozen_ends s cause
  · exact unfrozen_ends s cause

/-- What a detachment leaves of the slot and of the others. -/
theorem detach_detaches (hatt : attached s h = true) (hh : h < 4) : detached s (detach s h cause) h := by
  obtain ⟨hip, hport, hmask, hoff, hrole⟩ := vacated_registers (h := h) s cause
  obtain ⟨hfreeze, hupdate⟩ := detach_ends s cause hatt
  have hreg : ∀ {g : Nat}, g < 4 → rd (detach s h cause) (HIF_H_STAT g) = rd (vacated s h cause) (HIF_H_STAT g) := fun hg =>
    rd_detach s cause hatt (by unfold HIF_H_STAT; omega)
  refine ⟨(flag_congr (hreg hh)).trans hoff, (getF_congr (hreg hh)).trans hrole, ?_, ?_, ?_, ?_, ?_, ?_, ?_, hfreeze, hupdate, fun g hg4 hg => ?_⟩
  · rw [slotOf_detach s cause hatt, slotOf_vacated]
  · rw [slotOf_detach s cause hatt, slotOf_vacated]
  · rw [slotOf_detach s cause hatt, slotOf_vacated]
  · rw [rd_detach s cause hatt (by unfold HIF_H_UDP_IP; omega), hip]
  · rw [rd_detach s cause hatt (by unfold HIF_H_UDP_PORT; omega), hport]
  · rw [getF_congr (rd_detach s cause hatt (by change 0x110 ≤ HIF_H_NOTE h ∧ HIF_H_NOTE h < 0x150; unfold HIF_H_NOTE; omega)), hmask]
  · exact fun r hr => holds_detach s cause hatt (mem_allRes.1 hr)
  · have hstat : rd (detach s h cause) (HIF_H_STAT g) = rd s (HIF_H_STAT g) := (hreg hg4).trans (rd_vacated_other s cause hg hg4)
    refine ⟨flag_congr hstat, getF_congr hstat, ?_⟩
    rw [slotOf_detach s cause hatt, slotOf_vacated_ne s cause hg]

end Vacated

end Sys2Proof.Leases
end

section
/-!
O49: LEASE grants all that it names or nothing, and RELEASE gives up what it names (R396, R398, R399, R408).
-/
namespace Sys2Proof.Leases

open Sys2Proof Sys2Proof.Machine Sys2Proof.Mailbox Sys2Proof.Recorder Sys2Proof.Frame

/-! ### What the commands read of the state -/

section Reading

variable {s t : State}

theorem membersOf_of_tables (h : t.tables = s.tables) : membersOf t = membersOf s := by
  have htget : tget t = tget s := by
    funext b n
    simp only [tget, h]
  have hkeys : tkeys t = tkeys s := by
    funext b
    simp only [tkeys, h]
  funext r
  simp only [membersOf, usedChannels, chSection, secZone, chUsed, tnat, htget, hkeys]
  rfl

theorem itemRes_of_tables (h : t.tables = s.tables) : itemRes t = itemRes s := by
  funext members r
  rw [itemRes, membersOf_of_tables h, itemRes]

theorem holderOf_of_regs (h : t.regs = s.regs) : holderOf t = holderOf s := by
  funext k n
  have hrd : rd t = rd s := funext fun j => rd_of_regs h j
  simp only [holderOf, getF, hrd]
  rfl

theorem firstRefusal_congr (hregs : t.regs = s.regs) (htables : t.tables = s.tables) (h flags : Nat) (l : List (Nat × Nat × Nat)) (k : Nat) :
    firstRefusal t h flags l k = firstRefusal s h flags l k := by
  have hitem : itemRefusal t h flags = itemRefusal s h flags := by
    have hrole : roleOf t = roleOf s := funext fun g => getF_of_regs hregs _
    funext i
    simp only [itemRefusal, holderOf_of_regs hregs, itemRes_of_tables htables, hrole, mayTake]
    rfl
  induction l generalizing k with
  | nil => rfl
  | cons i l ih => rw [firstRefusal, firstRefusal, hitem, ih]

/-- The members of a resource of the part are of the part. -/
theorem membersOf_valid (s : State) (r : Res) : ∀ q ∈ membersOf s r, Valid q := by
  intro q hq
  have hchan : ∀ l : List Nat, q ∈ ((usedChannels s).filter fun c => l.contains (chSection s c)).map (fun c => (kCh, c)) → Valid q := by
    intro l hmem
    obtain ⟨c, hc, rfl⟩ := List.mem_map.1 hmem
    have hused := (List.mem_filter.1 (List.mem_filter.1 hc).1).2
    simp only [Bool.and_eq_true, decide_eq_true_eq] at hused
    exact hused.1
  have hsec : ∀ l : List Nat, (∀ m ∈ l, m < 64) → q ∈ l.map (fun m => (kSec, m)) → Valid q := by
    intro l hl hmem
    obtain ⟨m, hm, rfl⟩ := List.mem_map.1 hmem
    exact hl m hm
  unfold membersOf at hq
  extract_lets secs chans at hq
  split at hq
  · rw [List.mem_append, List.mem_append] at hq
    obtain (hz | hs) | hc := hq
    · obtain ⟨z, hlt, rfl⟩ := List.mem_map.1 hz
      exact List.mem_range.1 hlt
    · exact hsec _ (fun m hm => List.mem_range.1 hm) hs
    · exact hchan _ hc
  · obtain hs | hc := List.mem_append.1 hq
    · exact hsec _ (fun m hm => List.mem_range.1 (List.mem_filter.1 hm).1) hs
    · exact hchan _ hc
  · exact hchan _ hq
  · exact absurd hq (by simp)

theorem itemRes_valid (s : State) (members : Bool) {r : Res} (hr : Valid r) : ∀ q ∈ itemRes s members r, Valid q := by
  intro q hq
  obtain rfl | hq := List.mem_cons.1 hq
  · exact hr
  · cases members with
    | false => exact absurd hq (by simp)
    | true => exact membersOf_valid s r q hq

end Reading

/-! ### Granting (R398) -/

section Grants

/-- The slot takes a resource, with the tie that the command gives it. -/
def taken (s : State) (h : Nat) (r : Res) (tie : HifState → Sparse (Option Nat)) : State :=
  modHif (setHolder s r.1 r.2 (some h)) fun x => { x with tie := tie x }

variable {s : State} {h : Nat} {named : List Res} {k r q : Res}

theorem taken_aside (s : State) (h : Nat) (r : Res) (tie : HifState → Sparse (Option Nat)) : Aside (setHolder s r.1 r.2 (some h)) (taken s h r tie) :=
  .of_same rfl rfl

theorem taken_slots (s : State) (h : Nat) (r : Res) (tie : HifState → Sparse (Option Nat)) : (taken s h r tie).hif.slots = s.hif.slots :=
  congrArg (·.slots) ((setHolder_keeps (R := (· ∈ [Part.regs])) s r.1 r.2 (some h) (fun _ hp => hp) (.refl _ _)).same .hif (by decide))

theorem holderOf_taken (hh : h < 4) (hr : Valid r) (hq : Valid q) (tie : HifState → Sparse (Option Nat)) :
    holderOf (taken s h r tie) q.1 q.2 = if q = r then some h else holderOf s q.1 q.2 := by
  rw [(taken_aside s h r tie).holder hq]
  split
  next he =>
    subst he
    exact holderOf_setHolder s hq (some h) fun g hg => Option.some.inj hg ▸ hh
  next hne => exact holderOf_setHolder_ne s hr hq hne (some h)

/-- What a grant does: it takes the resource, or the slot holds it, or it is left to the item that names it. -/
theorem grant_cases (s : State) (h : Nat) (named : List Res) (k r : Res) : (∃ tie, grant s h named k r = taken s h r tie) ∨
    (grant s h named k r = s ∧ r ≠ k ∧ (holderOf s r.1 r.2 = some h ∨ r ∈ named)) := by
  unfold grant
  split
  · exact .inl ⟨_, rfl⟩
  next hne =>
    split
    next hheld => exact .inr ⟨rfl, hne, by simpa [holds] using hheld⟩
    next => exact .inl ⟨_, rfl⟩

/-- A grant of `r` takes no lease of the slot, and touches no other resource. -/
theorem holderOf_grant_held (hh : h < 4) (hr : Valid r) (hq : Valid q) (hheld : holderOf s q.1 q.2 = some h) :
    holderOf (grant s h named k r) q.1 q.2 = some h := by
  obtain ⟨tie, hgrant⟩ | ⟨hgrant, -⟩ := grant_cases s h named k r
  · rw [hgrant, holderOf_taken hh hr hq, hheld, ite_self]
  · rw [hgrant, hheld]

theorem holderOf_grant_ne (hh : h < 4) (hr : Valid r) (hq : Valid q) (hne : q ≠ r) :
    holderOf (grant s h named k r) q.1 q.2 = holderOf s q.1 q.2 := by
  obtain ⟨tie, hgrant⟩ | ⟨hgrant, -⟩ := grant_cases s h named k r
  · rw [hgrant, holderOf_taken hh hr hq, if_neg hne]
  · rw [hgrant]

theorem holderOf_grant_self (hh : h < 4) (hr : Valid r) (hnamed : r = k ∨ r ∉ named) : holderOf (grant s h named k r) r.1 r.2 = some h := by
  obtain ⟨tie, hgrant⟩ | ⟨hgrant, hk, hheld⟩ := grant_cases s h named k r
  · rw [hgrant, holderOf_taken hh hr hr, if_pos rfl]
  · rw [hgrant]
    exact hheld.resolve_right (hnamed.resolve_left hk)

theorem grant_loses (hr : Valid r) (s : State) (h : Nat) (named : List Res) (k : Res) : Loses s (grant s h named k r) := by
  obtain ⟨tie, hgrant⟩ | ⟨hgrant, -⟩ := grant_cases s h named k r
  · rw [hgrant]
    exact (setHolder_loses s hr (some h)).trans (taken_aside s h r tie).loses
  · rw [hgrant]
    exact .refl s

theorem grant_slots (s : State) (h : Nat) (named : List Res) (k r : Res) : (grant s h named k r).hif.slots = s.hif.slots := by
  obtain ⟨tie, hgrant⟩ | ⟨hgrant, -⟩ := grant_cases s h named k r
  · rw [hgrant, taken_slots]
  · rw [hgrant]

/-- An item: its own resource and, where members are asked for, those. -/
def grantItem (h : Nat) (named : List Res) (members : Bool) (s : State) (k : Res) : State :=
  (itemRes s members k).foldl (fun s r => grant s h named k r) s

end Grants

/-! Runs over lists. -/

section Runs

variable {h : Nat} (hh : h < 4) {named : List Res} {k : Res}
include hh

theorem grants_held {l : List Res} (hl : ∀ r ∈ l, Valid r) {s : State} {q : Res} (hq : Valid q) (hheld : holderOf s q.1 q.2 = some h) :
    holderOf (l.foldl (fun s r => grant s h named k r) s) q.1 q.2 = some h := by
  induction l generalizing s with
  | nil => exact hheld
  | cons r l ih =>
    exact ih (fun r hr => hl r (List.mem_cons_of_mem _ hr)) (holderOf_grant_held hh (hl r (List.mem_cons_self ..)) hq hheld)

theorem grants_ne {l : List Res} (hl : ∀ r ∈ l, Valid r) (s : State) {q : Res} (hq : Valid q) (hnot : q ∉ l) :
    holderOf (l.foldl (fun s r => grant s h named k r) s) q.1 q.2 = holderOf s q.1 q.2 := by
  induction l generalizing s with
  | nil => rfl
  | cons r l ih =>
    obtain ⟨hne, hnot⟩ := not_or.1 (mt List.mem_cons.2 hnot)
    rw [List.foldl_cons, ih (fun r hr => hl r (List.mem_cons_of_mem _ hr)) _ hnot, holderOf_grant_ne hh (hl r (List.mem_cons_self ..)) hq hne]

theorem grants_mem {l : List Res} (hl : ∀ r ∈ l, Valid r) (s : State) {q : Res} (hmem : q ∈ l) (hnamed : q = k ∨ q ∉ named) :
    holderOf (l.foldl (fun s r => grant s h named k r) s) q.1 q.2 = some h := by
  induction l generalizing s with
  | nil => exact absurd hmem (by simp)
  | cons r l ih =>
    have hl' : ∀ r ∈ l, Valid r := fun r hr => hl r (List.mem_cons_of_mem _ hr)
    obtain rfl | hmem := List.mem_cons.1 hmem
    · exact grants_held hh hl' (hl q (List.mem_cons_self ..)) (holderOf_grant_self hh (hl q (List.mem_cons_self ..)) hnamed)
    · exact ih hl' _ hmem

end Runs

/-- Every item is granted in turn. -/
def grantAll (h : Nat) (named : List Res) (members : Bool) (l : List Res) (s : State) : State :=
  l.foldl (grantItem h named members) s

section All

variable {h : Nat} {named : List Res} (members : Bool)

theorem grantItem_keeps (s : State) (k : Res) : Keeps (· ∈ [Part.regs, .hif]) s (grantItem h named members s k) :=
  Keeps.foldl (fun _ ht r => grant_keeps _ h named k r (fun _ hp => hp) ht) (.refl _ _)

theorem grantItem_tables (s : State) (k : Res) : (grantItem h named members s k).tables = s.tables :=
  (grantItem_keeps members s k).same .tables (by decide)

theorem grantAll_keeps (l : List Res) (s : State) : Keeps (· ∈ [Part.regs, .hif]) s (grantAll h named members l s) :=
  Keeps.foldl (fun t ht k => keeps_trans ht (grantItem_keeps members t k)) (.refl _ _)

variable {l : List Res} (hl : ∀ k ∈ l, Valid k)
include hl

theorem grantAll_loses (s : State) : Loses s (grantAll h named members l s) :=
  (Loses.refl s).foldl fun t k hk => (Loses.refl t).foldl fun u r hr => grant_loses (itemRes_valid t members (hl k hk) r hr) u h named k

omit hl in
theorem grantAll_slots (s : State) : (grantAll h named members l s).hif.slots = s.hif.slots :=
  List.foldlRecOn (motive := fun t => t.hif.slots = s.hif.slots) l _ rfl fun t ht k _ =>
    List.foldlRecOn (motive := fun u => u.hif.slots = s.hif.slots) (itemRes t members k) _ ht fun u hu r _ => (grant_slots u h named k r).trans hu

variable (hh : h < 4) {q : Res} (hq : Valid q)
include hh hq

theorem grantAll_held (s : State) (hheld : holderOf s q.1 q.2 = some h) : holderOf (grantAll h named members l s) q.1 q.2 = some h := by
  induction l generalizing s with
  | nil => exact hheld
  | cons k l ih =>
    exact ih (fun k hk => hl k (List.mem_cons_of_mem _ hk)) _ (grants_held hh (itemRes_valid s members (hl k (List.mem_cons_self ..))) hq hheld)

/-- What no item names stands. -/
theorem grantAll_other (s : State) (hnot : ∀ k ∈ l, q ∉ itemRes s members k) : holderOf (grantAll h named members l s) q.1 q.2 = holderOf s q.1 q.2 := by
  induction l generalizing s with
  | nil => rfl
  | cons k l ih =>
    have hfirst : holderOf (grantItem h named members s k) q.1 q.2 = holderOf s q.1 q.2 :=
      grants_ne hh (itemRes_valid s members (hl k (List.mem_cons_self ..))) s hq (hnot k (List.mem_cons_self ..))
    rw [grantAll, List.foldl_cons, ← grantAll, ih (fun k hk => hl k (List.mem_cons_of_mem _ hk)), hfirst]
    intro k' hk'
    rw [itemRes_of_tables (grantItem_tables members s k)]
    exact hnot k' (List.mem_cons_of_mem _ hk')

/-- What an item names, and no other item names for itself, is held. -/
theorem grantAll_mem (s : State) {k : Res} (hk : k ∈ l) (hmem : q ∈ itemRes s members k) (hnamed : q = k ∨ q ∉ named) :
    holderOf (grantAll h named members l s) q.1 q.2 = some h := by
  induction l generalizing s with
  | nil => exact absurd hk (by simp)
  | cons k' l ih =>
    have hl' : ∀ k ∈ l, Valid k := fun k hk => hl k (List.mem_cons_of_mem _ hk)
    obtain rfl | hk := List.mem_cons.1 hk
    · exact grantAll_held members hl' hh hq _ (grants_mem hh (itemRes_valid s members (hl k (List.mem_cons_self ..))) s hmem hnamed)
    · exact ih hl' _ hk (by rwa [itemRes_of_tables (grantItem_tables members s k')])

end All

/-- The slot holds all that the items name, with their members, and of nothing else the holder changes. -/
theorem grantAll_spec {h : Nat} (hh : h < 4) {named : List Res} (hnamed : ∀ k ∈ named, Valid k) (members : Bool) (s : State) {q : Res} (hq : Valid q) :
    holderOf (grantAll h named members named s) q.1 q.2 = if q ∈ named.flatMap (itemRes s members) then some h else holderOf s q.1 q.2 := by
  split
  next hmem =>
    obtain ⟨k, hk, hqk⟩ := List.mem_flatMap.1 hmem
    by_cases hself : q ∈ named
    · exact grantAll_mem members hnamed hh hq s hself (List.mem_cons_self ..) (.inl rfl)
    · exact grantAll_mem members hnamed hh hq s hk hqk (.inr hself)
  next hnot => exact grantAll_other members hnamed hh hq s fun k hk hqk => hnot (List.mem_flatMap.2 ⟨k, hk, hqk⟩)

/-! ### Taking from the other slots (R396, R399) -/

/-- The other slots lose what they hold of `all`. -/
def takeFrom (h : Nat) (all : List Res) (s : State) (g : Nat) : State :=
  if g = h then s else loseAll s g (all.filter fun r => holds s g r.1 r.2) 1 (some h)

section Taking

variable {h : Nat} {all : List Res} (hall : ∀ r ∈ all, Valid r)
include hall

theorem takeFrom_loses (s : State) (g : Nat) : Loses s (takeFrom h all s g) := by
  unfold takeFrom
  split
  · exact .refl s
  · exact loseAll_loses (fun r hr => hall r (List.mem_filter.1 hr).1) 1 (some h)

/-- What the slot holds itself it keeps, and it gets nothing. -/
theorem holds_takeFrom (s : State) (g : Nat) {q : Res} (hq : Valid q) : holderOf (takeFrom h all s g) q.1 q.2 = some h ↔ holderOf s q.1 q.2 = some h := by
  unfold takeFrom
  split
  · exact Iff.rfl
  next hne =>
    rw [holderOf_loseAll (fun r hr => hall r (List.mem_filter.1 hr).1) 1 (some h) hq]
    split
    next hlost =>
      have hg : holderOf s q.1 q.2 = some g := by
        obtain hmem | htied := hlost
        · exact of_decide_eq_true (List.mem_filter.1 hmem).2
        · exact (tiedOthers_held htied).2
      simp [hg, hne]
    next => exact Iff.rfl

theorem takeFrom_slots (s : State) (g : Nat) : slotOf (takeFrom h all s g) h = slotOf s h := by
  unfold takeFrom
  split
  · rfl
  next hne =>
    refine loseAll_slots (fun r hr => hall r (List.mem_filter.1 hr).1) 1 (some h) (fun r hr k hk => ?_) (.inl (Ne.symm hne))
    have hg : holderOf s r.1 r.2 = some g := of_decide_eq_true (List.mem_filter.1 hr).2
    exact Option.some.inj (hk.symm.trans hg)

/-- All other slots give up what they hold of `all`. -/
def takeAll (h : Nat) (all : List Res) (s : State) : State := hostSlots.foldl (takeFrom h all) s

theorem takeAll_loses (s : State) : Loses s (takeAll h all s) := (Loses.refl s).foldl fun u g _ => takeFrom_loses hall u g

theorem holds_takeAll (s : State) {q : Res} (hq : Valid q) : holderOf (takeAll h all s) q.1 q.2 = some h ↔ holderOf s q.1 q.2 = some h :=
  List.foldlRecOn (motive := fun t => holderOf t q.1 q.2 = some h ↔ holderOf s q.1 q.2 = some h) hostSlots _ Iff.rfl
    fun t ht g _ => (holds_takeFrom hall t g hq).trans ht

theorem takeAll_slots (s : State) : slotOf (takeAll h all s) h = slotOf s h :=
  List.foldlRecOn (motive := fun t => slotOf t h = slotOf s h) hostSlots _ rfl fun t ht g _ => (takeFrom_slots hall t g).trans ht

omit hall in
theorem takeAll_keeps (s : State) : Keeps (· ∈ [Part.regs, .sys, .hif, .recd, .sch, .fjl, .pwm, .free]) s (takeAll h all s) := by
  refine Keeps.foldl (fun t ht g => ?_) (.refl _ _)
  unfold takeFrom
  split
  · exact ht
  · exact loseAll_keeps _ _ _ _ _ (fun _ hp => hp) ht

end Taking

/-! ### LEASE (R398, R408) -/

/-- The resources that the items name. -/
def namedBy (p : List Byte) : List Res := (leaseItems p).map fun i => (i.1, i.2.2)

/-- All that the items name, with their members where those are asked for. -/
def allBy (s : State) (p : List Byte) : List Res := ((namedBy p).flatMap (itemRes s ((leAt p 2 1).testBit 0))).dedup

/-- The leases of LEASE are granted. -/
def leased (s : State) (h : Nat) (p : List Byte) : State :=
  grantAll h (namedBy p) ((leAt p 2 1).testBit 0) (namedBy p) (takeAll h (allBy s p) s)

section Lease

variable {s : State} {h : Nat} {p : List Byte}

theorem leaseCmd_refused {x : Nat × Nat × Nat} (hx : firstRefusal s h (leAt p 2 1) (leaseItems p) 0 = some x) :
    leaseCmd s h p = { s := s, status := x.2.1, body := leaseBody 0 x.1 x.2.2 } := by
  rw [leaseCmd]
  simp only [hx]

variable (hnone : firstRefusal s h (leAt p 2 1) (leaseItems p) 0 = none)
include hnone

theorem leaseCmd_granted (hflags : leAt p 2 1 < 4) (hresv : leAt p 3 1 = 0) :
    leaseCmd s h p = { s := leased s h p, status := stOk, body := leaseBody (allBy s p).length 0xFFFF 255 } := by
  rw [leaseCmd]
  simp only [hnone]
  rw [if_neg (by omega)]
  rfl

omit hnone in
theorem itemRefusal_none (s : State) (h flags : Nat) {l : List (Nat × Nat × Nat)} {k : Nat} (hl : firstRefusal s h flags l k = none) :
    ∀ i ∈ l, itemRefusal s h flags i = none := by
  induction l generalizing k with
  | nil => simp
  | cons i l ih =>
    rw [firstRefusal] at hl
    cases hi : itemRefusal s h flags i with
    | some x => simp [hi] at hl
    | none =>
      simp only [hi] at hl
      intro j hj
      obtain rfl | hj := List.mem_cons.1 hj
      · exact hi
      · exact ih hl j hj

/-- Items that are not refused name resources of the part. -/
theorem namedBy_valid : ∀ r ∈ namedBy p, Valid r := by
  intro r hr
  obtain ⟨i, hi, rfl⟩ := List.mem_map.1 hr
  have hitem := itemRefusal_none s h _ hnone i hi
  unfold itemRefusal at hitem
  by_contra hbad
  have hsize : decide (i.2.2 < kindSize i.1) = false := decide_eq_false hbad
  simp only [hsize, Bool.and_false, Bool.not_false, if_true] at hitem
  split at hitem <;> simp at hitem

theorem allBy_valid : ∀ r ∈ allBy s p, Valid r := by
  intro r hr
  obtain ⟨k, hk, hmem⟩ := List.mem_flatMap.1 (List.mem_dedup.1 hr)
  exact itemRes_valid s _ (namedBy_valid hnone k hk) r hmem

/-- After LEASE the slot holds what the items name, and of the rest what it held before. -/
theorem holds_leased (hh : h < 4) {q : Res} (hq : Valid q) :
    holderOf (leased s h p) q.1 q.2 = some h ↔ q ∈ allBy s p ∨ holderOf s q.1 q.2 = some h := by
  have htables : (takeAll h (allBy s p) s).tables = s.tables := (takeAll_keeps s).same .tables (by decide)
  have hmem : q ∈ (namedBy p).flatMap (itemRes s ((leAt p 2 1).testBit 0)) ↔ q ∈ allBy s p := List.mem_dedup.symm
  rw [leased, grantAll_spec hh (namedBy_valid hnone) _ _ hq, itemRes_of_tables htables]
  by_cases hall : q ∈ allBy s p
  · rw [if_pos (hmem.2 hall)]
    exact iff_of_true rfl (.inl hall)
  · rw [if_neg (mt hmem.1 hall), holds_takeAll (allBy_valid hnone) s hq]
    exact ⟨.inr, fun hheld => hheld.resolve_left hall⟩

theorem leased_loses : Loses s (leased s h p) := (takeAll_loses (allBy_valid hnone) s).trans (grantAll_loses _ (namedBy_valid hnone) _)

theorem leased_slots : slotOf (leased s h p) h = slotOf s h := by
  rw [leased, slotOf, grantAll_slots, ← slotOf, takeAll_slots (allBy_valid hnone)]

end Lease

theorem leased_keeps (s : State) (h : Nat) (p : List Byte) : Keeps (· ∈ [Part.regs, .sys, .hif, .recd, .sch, .fjl, .pwm, .free]) s (leased s h p) :=
  keeps_trans (takeAll_keeps s) (Firmware.keeps_mono (grantAll_keeps _ _ _) (by decide))

section LeaseRow

variable {s : State} {h : Nat}

theorem ring_completed_of {o : CmdOut} (hslot : slotOf o.r.s h = slotOf (begun s h) h) : (slotOf (completed s h o) h).ring = (slotOf s h).ring.tail := by
  have hbegun : (slotOf (begun s h) h).ring = (slotOf s h).ring.tail := congrArg (·.ring) (slotOf_modSlot s h _)
  calc (slotOf (completed s h o) h).ring = (slotOf o.r.s h).ring := ring_respond h _
    _ = (slotOf s h).ring.tail := by rw [hslot, hbegun]

/-- LEASE and RELEASE read the same of the state in which the command began. -/
theorem firstRefusal_begun (flags : Nat) (l : List (Nat × Nat × Nat)) (k : Nat) :
    firstRefusal (begun s h) h flags l k = firstRefusal s h flags l k :=
  firstRefusal_congr (s := s) (t := begun s h) rfl rfl h flags l k

theorem allBy_begun : allBy (begun s h) (req s h) = wanted s h := by
  have hres : itemRes (begun s h) = itemRes s := itemRes_of_tables rfl
  rw [allBy, namedBy, hres, List.flatMap_map, wanted]

theorem holderOf_begun (q : Res) : holderOf (begun s h) q.1 q.2 = holderOf s q.1 q.2 := by
  rw [holderOf_of_regs (s := s) (t := begun s h) rfl]

theorem lease_answers (hs : starts s h 0x0C) (hnone : firstRefusal s h (leAt (req s h) 2 1) (leaseItems (req s h)) 0 = none)
    (hflags : leAt (req s h) 2 1 < 4) (hresv : leAt (req s h) 3 1 = 0) : answers (.lease h) s fun t =>
      answered s t h (leaseBody (wanted s h).length 0xFFFF 255) ∧ (∀ r ∈ wanted s h, holds t h r.1 r.2 = true) ∧
        (∀ r ∈ allRes, r ∉ wanted s h → holds t h r.1 r.2 = holds s h r.1 r.2) := by
  have hnone' : firstRefusal (begun s h) h (leAt (req s h) 2 1) (leaseItems (req s h)) 0 = none := (firstRefusal_begun _ _ _).trans hnone
  have hrun := leaseCmd_granted (p := req s h) hnone' hflags hresv
  rw [allBy_begun] at hrun
  refine answers_completed (o := plain (okBody (leased (begun s h) h (req s h)) (leaseBody (wanted s h).length 0xFFFF 255)))
    (fun s p => plain (leaseCmd s h p)) hs rfl (congrArg plain hrun) ?_
  have hregs : (completed s h (plain (okBody (leased (begun s h) h (req s h)) (leaseBody (wanted s h).length 0xFFFF 255)))).regs =
      (leased (begun s h) h (req s h)).regs := regs_completed_ok rfl rfl
  have hholds : ∀ {q : Res}, Valid q → (holds (completed s h (plain (okBody (leased (begun s h) h (req s h)) (leaseBody (wanted s h).length 0xFFFF 255))))
      h q.1 q.2 = true ↔ q ∈ wanted s h ∨ holds s h q.1 q.2 = true) := fun {q} hq => by
    simp only [holds, decide_eq_true_eq]
    rw [holderOf_of_regs hregs, holds_leased hnone' hs.1 hq, allBy_begun, holderOf_begun]
  refine ⟨⟨completed_responded s h rfl rfl ?_, ring_completed_of (leased_slots hnone')⟩, fun r hr => ?_, fun r hr hnot => ?_⟩
  · exact (leased_keeps _ _ _).same .now (by decide)
  · exact (hholds (allBy_valid hnone' r (allBy_begun ▸ hr))).2 (.inl hr)
  · exact Bool.eq_iff_iff.2 (by simpa [hnot] using hholds (mem_allRes.1 hr))

theorem lease_refused (hs : starts s h 0x0C) {x : Nat × Nat × Nat} (hx : firstRefusal s h (leAt (req s h) 2 1) (leaseItems (req s h)) 0 = some x) :
    answers (.lease h) s fun t => responded s t h x.2.1 (leaseBody 0 x.1 x.2.2) ∧ regsBut s t [HIF_H_CNT_REJ h] ∧ otherSlots s t h ∧
      partsBut s t [.regs, .sys, .hif] := by
  have hx' : firstRefusal (begun s h) h (leAt (req s h) 2 1) (leaseItems (req s h)) 0 = some x := (firstRefusal_begun _ _ _).trans hx
  exact answers_without_effect (fun s p => plain (leaseCmd s h p)) hs rfl (congrArg plain (leaseCmd_refused hx'))

end LeaseRow

/-! ### RELEASE (R399, R408) -/

section Release

variable {s : State} {h : Nat} {p : List Byte}

/-- The slot's resources that the items name. -/
def givenUp (s : State) (h : Nat) (p : List Byte) : List Res :=
  ((leaseItems p).flatMap fun i => if i.1 = 255 then heldBy s h else itemRes s ((leAt p 2 1).testBit 0) (i.1, i.2.2)).dedup.filter fun r => holds s h r.1 r.2

theorem givenUp_held : ∀ r ∈ givenUp s h p, holderOf s r.1 r.2 = some h := fun _ hr => of_decide_eq_true (List.mem_filter.1 hr).2

variable (hok : (leaseItems p).any (releaseBad (leAt p 2 1)) = false)
include hok

theorem released_item {i : Nat × Nat × Nat} (hi : i ∈ leaseItems p) (h255 : i.1 ≠ 255) : Valid (i.1, i.2.2) := by
  have hgood : ¬ releaseBad (leAt p 2 1) i = true := List.any_eq_false.1 hok i hi
  rw [releaseBad, decide_eq_false h255, Bool.false_or, Bool.not_eq_true', Bool.not_eq_false, Bool.and_eq_true] at hgood
  simpa [h255, Valid] using hgood.2

theorem givenUp_valid : ∀ r ∈ givenUp s h p, Valid r := by
  intro r hr
  obtain ⟨i, hi, hmem⟩ := List.mem_flatMap.1 (List.mem_dedup.1 (List.mem_filter.1 hr).1)
  split at hmem
  · exact (mem_heldBy.1 hmem).1
  next h255 => exact itemRes_valid s _ (released_item hok hi h255) r hmem

/-- RELEASE of good items. -/
theorem releaseCmd_released (hrole : roleOf s h ≠ 2) (hflags : leAt p 2 1 < 2) (hresv : leAt p 3 1 = 0) : ∃ n,
    releaseCmd s h p = { s := loseAll s h (givenUp s h p) 0 none, status := stOk, body := leaseBody n 0xFFFF 255 } := by
  have hbad : (leaseItems p).findIdx (fun i => releaseBad (leAt p 2 1) i) = (leaseItems p).length :=
    List.findIdx_eq_length.2 fun i hi => by simpa using List.any_eq_false.1 hok i hi
  refine ⟨(givenUp s h p).length + (tiedOthers s h (givenUp s h p)).length, ?_⟩
  rw [releaseCmd]
  simp only [hrole, false_and, if_false, hbad, lt_irrefl]
  rw [if_neg (by omega)]
  rfl

end Release

section ReleaseRow

variable {s : State} {h : Nat}

theorem heldBy_of_regs {t : State} (hregs : t.regs = s.regs) : heldBy t h = heldBy s h := by
  simp only [heldBy, holds, holderOf_of_regs hregs]

/-- After RELEASE the slot holds none of what it named. -/
theorem released_free {p : List Byte} (hok : (leaseItems p).any (releaseBad (leAt p 2 1)) = false) {i : Nat × Nat × Nat} (hi : i ∈ leaseItems p) :
    (i.1 = 255 → heldBy (loseAll s h (givenUp s h p) 0 none) h = []) ∧ (i.1 ≠ 255 → holds (loseAll s h (givenUp s h p) 0 none) h i.1 i.2.2 = false) := by
  have hfree : ∀ {q : Res}, Valid q → (holderOf s q.1 q.2 = some h → q ∈ givenUp s h p) →
      holderOf (loseAll s h (givenUp s h p) 0 none) q.1 q.2 ≠ some h := fun {q} hq hgiven => by
    rw [holderOf_loseAll (givenUp_valid hok) 0 none hq]
    split
    · simp
    next hnot => exact fun hheld => hnot (.inl (hgiven hheld))
  have hmem : ∀ {q : Res}, holderOf s q.1 q.2 = some h →
      q ∈ (if i.1 = 255 then heldBy s h else itemRes s ((leAt p 2 1).testBit 0) (i.1, i.2.2)) → q ∈ givenUp s h p := fun hheld hq =>
    List.mem_filter.2 ⟨List.mem_dedup.2 (List.mem_flatMap.2 ⟨i, hi, hq⟩), decide_eq_true hheld⟩
  constructor
  · intro h255
    rw [List.eq_nil_iff_forall_not_mem]
    intro q hq
    obtain ⟨hqv, hheld⟩ := mem_heldBy.1 hq
    exact hfree hqv (fun hs => hmem hs (by rw [if_pos h255]; exact mem_heldBy.2 ⟨hqv, hs⟩)) hheld
  · intro h255
    refine decide_eq_false (hfree (released_item hok hi h255) fun hs => hmem hs ?_)
    rw [if_neg h255]
    exact List.mem_cons_self ..

theorem release_answers (hs : starts s h 0x0D) (hrole : roleOf s h ≠ 2) (hflags : leAt (req s h) 2 1 < 2) (hresv : leAt (req s h) 3 1 = 0)
    (hok : (leaseItems (req s h)).any (releaseBad (leAt (req s h) 2 1)) = false) : answers (.release h) s fun t =>
      (∀ i ∈ leaseItems (req s h), (i.1 = 255 → heldBy t h = []) ∧ (i.1 ≠ 255 → holds t h i.1 i.2.2 = false)) ∧
      (∀ r ∈ allRes, ∀ g < 4, holds t g r.1 r.2 = true → holds s g r.1 r.2 = true) ∧ t.tables = s.tables := by
  obtain ⟨n, hrun⟩ := releaseCmd_released (s := begun s h) (h := h) hok hrole hflags hresv
  obtain ⟨u, hu⟩ : ∃ u, u = loseAll (begun s h) h (givenUp (begun s h) h (req s h)) 0 none := ⟨_, rfl⟩
  rw [← hu] at hrun
  refine answers_completed (o := plain (okBody u (leaseBody n 0xFFFF 255))) (fun s p => plain (releaseCmd s h p)) hs rfl (congrArg plain hrun) ?_
  have hregs : (completed s h (plain (okBody u (leaseBody n 0xFFFF 255)))).regs = u.regs := regs_completed_ok rfl rfl
  refine ⟨fun i hi => ?_, fun r hr g _ hheld => ?_, ?_⟩
  · obtain ⟨hall, hone⟩ := released_free (s := begun s h) (h := h) hok hi
    rw [← hu] at hall hone
    rw [heldBy_of_regs hregs, holds, holderOf_of_regs hregs]
    exact ⟨hall, hone⟩
  · rw [holds, decide_eq_true_eq, holderOf_of_regs hregs, hu, holderOf_loseAll (givenUp_valid hok) 0 none (mem_allRes.1 hr)] at hheld
    split at hheld
    · exact absurd hheld (by simp)
    · rw [holderOf_begun] at hheld
      exact decide_eq_true hheld
  · have htables : u.tables = (begun s h).tables := hu ▸ (loseAll_keeps (R := (· ∈ [Part.regs, .sys, .hif, .recd, .sch, .fjl, .pwm, .free])) (begun s h) h
      (givenUp (begun s h) h (req s h)) 0 none (fun _ hp => hp) (.refl _ _)).same .tables (by decide)
    exact ((samePart_completed (plain (okBody u (leaseBody n 0xFFFF 255))) (p := .tables) (by decide)).trans htables)

end ReleaseRow

/-- Settles O49: LEASE grants every item or none, and RELEASE leaves the slot nothing of what it names. -/
theorem leasesAreGrantedAndReleased : Obligations.LeasesAreGrantedAndReleased := by
  unfold Obligations.LeasesAreGrantedAndReleased
  exact ⟨fun s h hs => ⟨fun hnone hflags hresv => lease_answers hs hnone hflags hresv, fun x hx => lease_refused hs hx⟩,
    fun s h hs hrole hflags hresv hok => release_answers hs hrole hflags hresv hok⟩

end Sys2Proof.Leases
end

section
/-!
O45: attachments that end or begin without a frame (R386, R397, R401).
-/
namespace Sys2Proof.Leases

open Sys2Proof Sys2Proof.Machine Sys2Proof.Mailbox Sys2Proof.Recorder Sys2Proof.Frame

/-! ### The items that a connection asks for (R408) -/

section Items

theorem leAt_append_left {a : List Byte} (b : List Byte) {o n : Nat} (h : o + n ≤ a.length) : leAt (a ++ b) o n = leAt a o n := by
  rw [leAt, leAt, List.drop_append_of_le_length (by omega), List.take_append_of_le_length (by rw [List.length_drop]; omega)]

theorem length_itemBytes (r : Res) : (itemBytes r).length = 4 := rfl

/-- The bytes of an item lie four by four. -/
theorem leAt_items (l : List Res) {k : Nat} (hk : k < l.length) {o n : Nat} (ho : o + n ≤ 4) :
    leAt (l.flatMap itemBytes) (4 * k + o) n = leAt (itemBytes l[k]) o n := by
  induction l generalizing k with
  | nil => exact absurd hk (by simp)
  | cons r l ih =>
    rw [List.flatMap_cons]
    cases k with
    | zero => simpa using leAt_append_left (a := itemBytes r) (l.flatMap itemBytes) (by rw [length_itemBytes]; omega)
    | succ k =>
      have hlen := length_itemBytes r
      rw [leAt_append_right _ _ (by omega), hlen, show 4 * (k + 1) + o - 4 = 4 * k + o by omega,
        ih (by simpa using hk)]
      rfl

theorem itemBytes_parts {r : Res} (hk : r.1 < 256) (hn : r.2 < 65536) :
    leAt (itemBytes r) 0 1 = r.1 ∧ leAt (itemBytes r) 1 1 = 0 ∧ leAt (itemBytes r) 2 2 = r.2 := by
  refine ⟨?_, ?_, ?_⟩
  · rw [itemBytes, List.append_assoc, leAt_leBytes_append]
    exact Nat.mod_eq_of_lt hk
  · rfl
  · rw [itemBytes, leAt_append_right _ _ (by simp [length_leBytes])]
    simp only [List.length_append, length_leBytes, Nat.reduceAdd, Nat.sub_self, leAt_leBytes]
    exact Nat.mod_eq_of_lt hn

/-- The payload of LEASE or RELEASE with no flags. -/
def leasePayload (l : List Res) : List Byte := leBytes 2 l.length ++ [0#8, 0#8] ++ l.flatMap itemBytes

theorem leAt_leasePayload (l : List Res) {o : Nat} (ho : 4 ≤ o) (n : Nat) : leAt (leasePayload l) o n = leAt (l.flatMap itemBytes) (o - 4) n := by
  rw [leasePayload, leAt_append_right _ _ (by simp [length_leBytes, ho])]
  simp [length_leBytes]

theorem leasePayload_header {l : List Res} (hlen : l.length < 65536) :
    leAt (leasePayload l) 0 2 = l.length ∧ leAt (leasePayload l) 2 1 = 0 ∧ leAt (leasePayload l) 3 1 = 0 := by
  refine ⟨?_, ?_, ?_⟩
  · rw [leasePayload, List.append_assoc, leAt_leBytes_append]
    exact Nat.mod_eq_of_lt hlen
  · rfl
  · rfl

theorem leaseItems_payload {l : List Res} (hlen : l.length < 65536) (hl : ∀ r ∈ l, Valid r) :
    leaseItems (leasePayload l) = l.map fun r => (r.1, 0, r.2) := by
  have hbounds : ∀ r : Res, Valid r → r.1 < 256 ∧ r.2 < 65536 := by
    rintro ⟨k, n⟩ hr
    match k, hr with
    | 0, hr | 1, hr | 2, hr | 3, hr | 4, hr | 5, hr =>
      simp only [Valid, kindSize] at hr
      exact ⟨by simp, by simp only; omega⟩
  rw [leaseItems, (leasePayload_header hlen).1]
  refine List.ext_getElem (by simp) fun k hk _ => ?_
  have hk' : k < l.length := by simpa using hk
  obtain ⟨hkind, hnum⟩ := hbounds _ (hl l[k] (List.getElem_mem hk'))
  obtain ⟨h0, h1, h2⟩ := itemBytes_parts hkind hnum
  simp only [List.getElem_map, List.getElem_range]
  rw [leAt_leasePayload l (by omega), leAt_leasePayload l (by omega), leAt_leasePayload l (by omega),
    show 4 + 4 * k - 4 = 4 * k + 0 by omega, show 5 + 4 * k - 4 = 4 * k + 1 by omega, show 6 + 4 * k - 4 = 4 * k + 2 by omega,
    leAt_items l hk' (by omega), leAt_items l hk' (by omega), leAt_items l hk' (by omega), h0, h1, h2]

end Items

/-! ### Attaching the task controller's slot (R386) -/

section Attach

variable {s : State} {h : Nat} (hh : h < 4) (hport : portOf s h = 3) (hatt : attached s h = false)

/-- The slot's registers and its own state as an attachment in a role leaves them. -/
def roleTaken (s : State) (h role : Nat) : State :=
  setF (setB (modSlot s h fun x => { x with win := [], session := x.session % (2 ^ 32 - 1) + 1 }) (HIF_H_STAT_ATT h) true) (HIF_H_STAT_ROLE h) role

/-- The keep-alive follows. -/
def kaTaken (s : State) (h role : Nat) : State :=
  modSlot (roleTaken s h role) h fun x => { x with ka := getF (roleTaken s h role) (HIF_H_CFG_KA h) }

theorem rd_kaTaken {j : Nat} (hj : j ≠ HIF_H_STAT h) (role : Nat) : rd (kaTaken s h role) j = rd s j := by
  rw [kaTaken, rd_of_regs (modSlot_regs _ _ _), roleTaken, rd_setF_ne _ _ _ _ hj, rd_setB_ne _ _ _ _ hj, rd_of_regs (modSlot_regs _ _ _)]

theorem attached_kaTaken (role : Nat) : attached (kaTaken s h role) h = true := by
  rw [attached, kaTaken, flag_of_regs (modSlot_regs _ _ _), roleTaken, flag_setF_apart ⟨by simp, by simp, .inr (.inr (by simp))⟩, flag_setB _ _ _ (by simp)]

theorem roleOf_kaTaken {role : Nat} (hrole : role < 4) : roleOf (kaTaken s h role) h = role := by
  rw [roleOf, kaTaken, getF_of_regs (modSlot_regs _ _ _), roleTaken, getF_setF _ _ _ (by simp)]
  exact Nat.mod_eq_of_lt hrole

theorem slotOf_kaTaken (role : Nat) : slotOf (kaTaken s h role) h =
    { slotOf s h with win := [], session := (slotOf s h).session % (2 ^ 32 - 1) + 1, ka := getF s (HIF_H_CFG_KA h) } := by
  have hcfg : HIF_H_CFG h ≠ HIF_H_STAT h := by
    unfold HIF_H_CFG HIF_H_STAT
    omega
  have hka : getF (roleTaken s h role) (HIF_H_CFG_KA h) = getF s (HIF_H_CFG_KA h) := by
    rw [roleTaken, getF_congr (rd_setF_ne _ _ _ _ hcfg), getF_congr (rd_setB_ne _ _ _ _ hcfg), getF_of_regs (modSlot_regs _ _ _)]
  have hslot : slotOf (roleTaken s h role) h = { slotOf s h with win := [], session := (slotOf s h).session % (2 ^ 32 - 1) + 1 } :=
    slotOf_modSlot s h _
  rw [kaTaken, slotOf_modSlot, hka, hslot]

include hport hatt in
theorem attachSlot_eq (role : Nat) : attachSlot s h role 0 = showHif (kaTaken s h role) := by
  have hcfg : HIF_H_CFG h ≠ HIF_H_STAT h := by
    unfold HIF_H_CFG HIF_H_STAT
    omega
  have hport' : portOf (kaTaken s h role) h ≠ 2 := by
    rw [portOf, getF_congr (rd_kaTaken hcfg role), ← portOf, hport]
    decide
  have hrun : attachSlot s h role 0 = showHif (if portOf (kaTaken s h role) h = 2 then
      showCan (setB (kaTaken s h role) (CAN_CTRL_HOSTLINK 1) true) 1 else kaTaken s h role) := by
    simp only [attachSlot, hatt, Bool.false_eq_true, if_false]
    rfl
  rw [hrun, if_neg hport']

/-- The rest of the hosts stands. -/
theorem attachSlot_others {t : State} (ht : Shows (kaTaken s h 1) t) (hh : h < 4) : attached t h = true ∧ roleOf t h = 1 ∧
    slotOf t h = { slotOf s h with win := [], session := (slotOf s h).session % (2 ^ 32 - 1) + 1, ka := getF s (HIF_H_CFG_KA h) } ∧
    (∀ g < 4, g ≠ h → attached t g = attached s g ∧ roleOf t g = roleOf s g) ∧ ∀ q, Valid q → holderOf t q.1 q.2 = holderOf s q.1 q.2 := by
  have hstat : ∀ {g : Nat}, g < 4 → rd t (HIF_H_STAT g) = rd (kaTaken s h 1) (HIF_H_STAT g) := fun hg => ht.slotReg (by unfold HIF_H_STAT; omega)
  refine ⟨(flag_congr (hstat hh)).trans (attached_kaTaken 1), (getF_congr (hstat hh)).trans (roleOf_kaTaken (by decide)), ?_, fun g hg hne => ?_, fun q hq => ?_⟩
  · rw [slotOf, ht.hif, ← slotOf, slotOf_kaTaken]
  · have hreg : rd t (HIF_H_STAT g) = rd s (HIF_H_STAT g) := (hstat hg).trans (rd_kaTaken (by unfold HIF_H_STAT; omega) 1)
    exact ⟨flag_congr hreg, getF_congr hreg⟩
  · have hne : ∀ {j : Nat}, leaseWord j → j ≠ HIF_H_STAT h := fun hj => by
      unfold leaseWord at hj
      unfold HIF_H_STAT
      omega
    rw [ht.holder hq]
    exact holderOf_congr hq (flag_congr (rd_kaTaken (hne (leasedField_leaseWord hq)) 1)) (getF_congr (rd_kaTaken (hne (holderField_leaseWord hq)) 1))

end Attach

/-! ### The leases of the connection -/

/-- The sections and zones that the task controller asks for. -/
def isoWanted (s : State) : List Res :=
  (List.range (getF s HIF_ISO_CFG_NSEC)).map (fun k => (kSec, k)) ++
    ((List.range 8).filter fun z => (getF s HIF_ISO_CFG_ZONES).testBit z).map fun z => (kZone, z)

theorem isoLease_eq (s : State) : isoLease s = leasePayload (isoWanted s) := by
  simp [isoLease, leasePayload, isoWanted]

theorem length_isoWanted (s : State) : (isoWanted s).length < 65536 := by
  have hsec : getF s HIF_ISO_CFG_NSEC < 2 ^ HIF_ISO_CFG_NSEC.width := getF_lt s HIF_ISO_CFG_NSEC
  have hzone := List.length_filter_le (fun z => (getF s HIF_ISO_CFG_ZONES).testBit z) (List.range 8)
  have hwidth : HIF_ISO_CFG_NSEC.width = 7 := rfl
  rw [hwidth] at hsec
  simp only [isoWanted, List.length_append, List.length_map, List.length_range] at hzone ⊢
  omega

theorem mem_isoWanted {s : State} {r : Res} : r ∈ isoWanted s ↔
    (∃ k < getF s HIF_ISO_CFG_NSEC, r = (kSec, k)) ∨ ∃ z < 8, (getF s HIF_ISO_CFG_ZONES).testBit z = true ∧ r = (kZone, z) := by
  simp only [isoWanted, List.mem_append, List.mem_map, List.mem_filter, List.mem_range]
  constructor
  · rintro (⟨k, hk, rfl⟩ | ⟨z, ⟨hz, hbit⟩, rfl⟩)
    · exact .inl ⟨k, hk, rfl⟩
    · exact .inr ⟨z, hz, hbit, rfl⟩
  · rintro (⟨k, hk, rfl⟩ | ⟨z, hz, hbit, rfl⟩)
    · exact .inl ⟨k, hk, rfl⟩
    · exact .inr ⟨z, ⟨hz, hbit⟩, rfl⟩

theorem isoWanted_valid {s : State} (hn : getF s HIF_ISO_CFG_NSEC ≤ 64) : ∀ r ∈ isoWanted s, Valid r := by
  intro r hr
  obtain ⟨k, hk, rfl⟩ | ⟨z, hz, -, rfl⟩ := mem_isoWanted.1 hr
  · exact hk.trans_le hn
  · exact hz

/-- What is free and what the role may hold is not refused. -/
theorem firstRefusal_free {s : State} {h : Nat} (hrole : roleOf s h = 1) {l : List Res} (hl : ∀ r ∈ l, Valid r ∧ r.1 ≠ 0 ∧ holderOf s r.1 r.2 = none)
    (k : Nat) : firstRefusal s h 0 (l.map fun r => (r.1, 0, r.2)) k = none := by
  induction l generalizing k with
  | nil => rfl
  | cons r l ih =>
    obtain ⟨hv, hk, hfree⟩ := hl r (List.mem_cons_self ..)
    have hitem : itemRefusal s h 0 (r.1, 0, r.2) = none := by
      have hv' : r.2 < kindSize r.1 := hv
      simp [itemRefusal, hrole, mayHold, hk, hv', itemRes, hfree]
    rw [List.map_cons, firstRefusal, hitem]
    exact ih (fun r hr => hl r (List.mem_cons_of_mem _ hr)) _

/-! ### The three commands -/

section Commands

variable {s : State} {h : Nat}

theorem isoSlot_spec (hiso : isoSlot s = some h) : h < 4 ∧ portOf s h = 3 := by
  have hport : decide (portOf s h = 3) = true := List.find?_some (p := fun g => decide (portOf s g = 3)) hiso
  have hmem : h ∈ hostSlots := List.mem_of_find?_eq_some hiso
  have hlt : ∀ g ∈ hostSlots, g < 4 := by decide
  exact ⟨hlt h hmem, of_decide_eq_true hport⟩

/-- KEEP_ALIVE_EXPIRY of a slot that has been silent. -/
theorem keepAlive_detaches {t₀ : Nat} (hh : h < 4) (hstep : inThisStep s t₀ = true) (hatt : attached s h = true) (hport : portOf s h ≠ 3)
    (hsilent : (slotOf s h).heard + (slotOf s h).ka * 200000 ≤ absTick s t₀) : answers (.keepAliveExpiry h t₀) s fun t => detached s t h := by
  have hexp : kaExpired s h (absTick s t₀) = true := by simp [kaExpired, hatt, hport, hsilent]
  refine answers_of_answer (t := if kaExpired s h (absTick s t₀) then detach s h 1 else s) rfl (by simp [hh, hstep]) ?_
  rw [if_pos hexp]
  exact detach_detaches s 1 hatt hh

theorem keepAlive_stands {t₀ : Nat} (hh : h < 4) (hstep : inThisStep s t₀ = true)
    (hheard : absTick s t₀ < (slotOf s h).heard + (slotOf s h).ka * 200000) : answers (.keepAliveExpiry h t₀) s fun t => t = s := by
  have hexp : ¬ kaExpired s h (absTick s t₀) = true := by simp [kaExpired, hheard]
  exact answers_of_answer (t := if kaExpired s h (absTick s t₀) then detach s h 1 else s) rfl (by simp [hh, hstep]) (if_neg hexp)

theorem tcDisconnect_detaches (hiso : isoSlot s = some h) (hatt : attached s h = true) : answers .tcDisconnect s fun t => detached s t h := by
  refine ⟨tcDisconnect s, rfl, ?_⟩
  simp only [tcDisconnect, hiso, hatt, if_true]
  exact detach_detaches (fresh s).2 _ hatt (isoSlot_spec hiso).1

variable (hiso : isoSlot s = some h) (hatt : attached s h = false) (hup : s.sys.phase = .up) (htest : testMode s = false)
  (hclaimed : flag s CAN_ISO_STAT_CLAIMED = true) (hroles : (getF s (HIF_H_CFG_ROLES h)).testBit 1 = true)

/-- The slot has taken its role. -/
def connected (s : State) (h : Nat) : State := attachSlot s h 1 0

include hiso hatt in
theorem connected_shows : Shows (kaTaken s h 1) (connected s h) := by
  rw [connected, attachSlot_eq (isoSlot_spec hiso).2 hatt]
  exact showHif_shows _

include hiso hatt hup htest hclaimed hroles in
theorem tcConnect_eq : tcConnect s = (leaseCmd (connected s h) h (isoLease (connected s h))).s := by
  simp only [tcConnect, hiso, hup, htest, hatt, hclaimed, hroles, Bool.not_false, and_self, if_true]
  rfl

/-- The leases of the connection leave the slot's own state and the other attachments, granted or not. -/
theorem leaseCmd_leaves {l : List Res} (hlen : l.length < 65536) (u : State) : Loses u (leaseCmd u h (leasePayload l)).s ∧
    slotOf (leaseCmd u h (leasePayload l)).s h = slotOf u h := by
  obtain ⟨-, hflags, hresv⟩ := leasePayload_header hlen
  cases hx : firstRefusal u h (leAt (leasePayload l) 2 1) (leaseItems (leasePayload l)) 0 with
  | some x =>
    rw [leaseCmd_refused hx]
    exact ⟨.refl u, rfl⟩
  | none =>
    rw [leaseCmd_granted hx (by omega) hresv]
    exact ⟨leased_loses hx, leased_slots hx⟩

/-- What is free is granted to an operator. -/
theorem leaseCmd_grants {u : State} (hh : h < 4) (hrole : roleOf u h = 1) {l : List Res} (hlen : l.length < 65536)
    (hl : ∀ r ∈ l, Valid r ∧ r.1 ≠ 0 ∧ holderOf u r.1 r.2 = none) : ∀ r ∈ l, holderOf (leaseCmd u h (leasePayload l)).s r.1 r.2 = some h := by
  intro r hr
  obtain ⟨-, hflags, hresv⟩ := leasePayload_header hlen
  have hitems := leaseItems_payload hlen fun r hr => (hl r hr).1
  have hnone : firstRefusal u h (leAt (leasePayload l) 2 1) (leaseItems (leasePayload l)) 0 = none := by
    rw [hflags, hitems]
    exact firstRefusal_free hrole hl 0
  have hmem : r ∈ allBy u (leasePayload l) := by
    rw [allBy, namedBy, hitems, List.mem_dedup, List.mem_flatMap]
    refine ⟨r, ?_, List.mem_cons_self ..⟩
    simpa using hr
  rw [leaseCmd_granted hnone (by omega) hresv]
  exact (holds_leased hnone hh (hl r hr).1).2 (.inl hmem)

include hiso hatt hup htest hclaimed hroles in
theorem tcConnect_attaches : answers .tcConnect s fun t => attached t h = true ∧ roleOf t h = 1 ∧
    (slotOf t h).session = (slotOf s h).session % (2 ^ 32 - 1) + 1 ∧ (slotOf t h).ka = getF s (HIF_H_CFG_KA h) ∧
    (getF s HIF_ISO_CFG_NSEC ≤ 64 → (∀ k < getF s HIF_ISO_CFG_NSEC, holderOf s kSec k = none) →
      (∀ z < 8, (getF s HIF_ISO_CFG_ZONES).testBit z = true → holderOf s kZone z = none) →
      (∀ k < getF s HIF_ISO_CFG_NSEC, holderOf t kSec k = some h) ∧ (∀ z < 8, (getF s HIF_ISO_CFG_ZONES).testBit z = true → holderOf t kZone z = some h)) ∧
    ∀ g < 4, g ≠ h → attached t g = attached s g ∧ roleOf t g = roleOf s g := by
  obtain ⟨hh, hport⟩ := isoSlot_spec hiso
  have hshows := connected_shows hiso hatt
  obtain ⟨hon, hrole, hslot, hothers, hholders⟩ := attachSlot_others hshows hh
  have hcfg : rd (connected s h) HIF_ISO_CFG = rd s HIF_ISO_CFG := by
    rw [hshows.rd _ (by unfold far; decide) (by decide)]
    exact rd_kaTaken (by unfold HIF_H_STAT HIF_ISO_CFG; omega) 1
  have hwanted : isoWanted (connected s h) = isoWanted s := by
    rw [isoWanted, isoWanted, getF_congr (f := HIF_ISO_CFG_NSEC) hcfg, getF_congr (f := HIF_ISO_CFG_ZONES) hcfg]
  refine ⟨tcConnect s, rfl, ?_⟩
  rw [tcConnect_eq hiso hatt hup htest hclaimed hroles, isoLease_eq, hwanted]
  obtain ⟨hloses, hkept⟩ := leaseCmd_leaves (h := h) (length_isoWanted s) (connected s h)
  refine ⟨(hloses.attached hh).trans hon, (hloses.roleOf hh).trans hrole, by rw [hkept, hslot], by rw [hkept, hslot], fun hn hsec hzone => ?_, fun g hg hne => ?_⟩
  · have hvalid := isoWanted_valid hn
    have hheld : ∀ r ∈ isoWanted s, holderOf (leaseCmd (connected s h) h (leasePayload (isoWanted s))).s r.1 r.2 = some h := by
      refine leaseCmd_grants hh hrole (length_isoWanted s) fun r hr => ⟨hvalid r hr, ?_⟩
      rw [hholders r (hvalid r hr)]
      obtain ⟨k, hk, rfl⟩ | ⟨z, hz, hbit, rfl⟩ := mem_isoWanted.1 hr
      · exact ⟨by simp [kSec], hsec k hk⟩
      · exact ⟨by simp [kZone], hzone z hz hbit⟩
    exact ⟨fun k hk => hheld (kSec, k) (mem_isoWanted.2 (.inl ⟨k, hk, rfl⟩)),
      fun z hz hbit => hheld (kZone, z) (mem_isoWanted.2 (.inr ⟨z, hz, hbit, rfl⟩))⟩
  · obtain ⟨ha, hr⟩ := hothers g hg hne
    exact ⟨(hloses.attached hg).trans ha, (hloses.roleOf hg).trans hr⟩

end Commands

/-- Settles O45: a slot that falls silent and a task controller that leaves are detached and hold nothing, and one that comes is attached with the
leases of its sections and zones. -/
theorem attachmentsEnd : Obligations.AttachmentsEnd := by
  unfold Obligations.AttachmentsEnd
  exact ⟨fun s h t₀ hh hstep hatt hport => ⟨keepAlive_detaches hh hstep hatt hport, keepAlive_stands hh hstep⟩,
    fun s h hiso hatt => tcDisconnect_detaches hiso hatt,
    fun s h hiso hatt hup htest hclaimed hroles => tcConnect_attaches hiso hatt hup htest hclaimed hroles⟩

end Sys2Proof.Leases
end

section
/-!
O19: a loss of the enables and a supervision trip close every local channel and hold it forced off (R15, R16, R36, R184).
-/
namespace Sys2Proof.ForcedStops

open Sys2Proof Sys2Proof.Machine Sys2Proof.Mailbox Sys2Proof.Frame Sys2Proof.Drivers Sys2Proof.Leases

/-! ### What closing channels leaves -/

/-- Closing writes the state of channels and the words of groups; no channel is forced or released by it, and no peak comes to wait. -/
structure Shuts (s t : State) : Prop where
  rd : ∀ j, ¬ (0x1021 ≤ j ∧ j < 0x1060) → ¬ (0x1200 ≤ j ∧ j % 4 = 0) → rd t j = rd s j
  sys : SameSys s t
  forced : ∀ d, flag t (DRV_CH_STAT_FORCED d) = flag s (DRV_CH_STAT_FORCED d)
  queues : ∀ g, (drvGrp s g).queue = [] → (drvGrp t g).queue = []

section Shuts

variable {s t u : State}

theorem Shuts.refl (s : State) : Shuts s s := ⟨fun _ _ _ => rfl, .of_sys rfl, fun _ => rfl, fun _ h => h⟩

theorem Shuts.trans (h : Shuts s t) (k : Shuts t u) : Shuts s u :=
  ⟨fun j hg hc => (k.rd j hg hc).trans (h.rd j hg hc), h.sys.trans k.sys, fun d => (k.forced d).trans (h.forced d), fun g hg => k.queues g (h.queues g hg)⟩

/-- A step that changes neither registers nor DRV. -/
theorem Shuts.of_same (hregs : t.regs = s.regs) (hsys : SameSys s t) (hdrv : t.drv = s.drv) : Shuts s t :=
  ⟨fun _ _ _ => rd_of_regs hregs _, hsys, fun _ => flag_of_regs hregs _, fun g hg => by rwa [drvGrp_of_drv hdrv]⟩

theorem setDrvState_forced (s : State) (c st d : Nat) : flag (setDrvState s c st) (DRV_CH_STAT_FORCED d) = flag s (DRV_CH_STAT_FORCED d) := by
  have hone : ∀ (u : State) (k : Nat), flag (setF u (DRV_CH_STAT_STATE k) st) (DRV_CH_STAT_FORCED d) = flag u (DRV_CH_STAT_FORCED d) := fun u k =>
    flag_setF_apart ⟨by simp, by simp, .inr (.inl (by simp))⟩ st
  unfold setDrvState
  extract_lets s'
  split
  · rw [hone, hone]
  · exact hone s c

theorem setDrvState_shuts (s : State) (c st : Nat) : Shuts s (setDrvState s c st) := by
  refine ⟨fun j _ hc => regsBut_setDrvState s c st j fun hmem => hc ?_, .of_sys ?_, setDrvState_forced s c st, fun g hg => by rwa [drvGrp_setDrvState]⟩
  · simp only [List.mem_cons, List.not_mem_nil, or_false] at hmem
    unfold DRV_CH_STAT at hmem
    omega
  · exact (setDrvState_keeps (R := (· ∈ [Part.regs])) s c st (fun _ hp => hp) (.refl _ _)).same .sys (by decide)

theorem modDrvGrp_shuts (s : State) {g : Nat} (hg : g < 8) (f : DrvGrp → DrvGrp) (hf : ∀ x, x.queue = [] → (f x).queue = []) : Shuts s (modDrvGrp s g f) := by
  refine ⟨fun j hj _ => regsBut_modDrvGrp s g f j fun hmem => hj ?_, .of_sys ?_, fun d => ?_, fun k hk => ?_⟩
  · rw [List.mem_singleton] at hmem
    unfold DRV_GRP_STAT at hmem
    omega
  · exact (modDrvGrp_keeps (R := (· ∈ [Part.regs, .drv])) s g f (fun _ hp => hp) (.refl _ _)).same .sys (by decide)
  · refine flag_congr (regsBut_modDrvGrp s g f _ ?_)
    rw [List.mem_singleton]
    change DRV_CH_STAT d ≠ DRV_GRP_STAT g
    unfold DRV_CH_STAT DRV_GRP_STAT
    omega
  · by_cases hkg : k = g
    · subst hkg
      rw [drvGrp_modDrvGrp]
      exact hf _ hk
    · rw [drvGrp_modDrvGrp_ne s f hkg]
      exact hk

theorem modDrvCh_shuts (s : State) (c : Nat) (f : DrvCh → DrvCh) : Shuts s (modDrvCh s c f) :=
  ⟨fun _ _ _ => rfl, .of_sys rfl, fun _ => rfl, fun _ h => h⟩

theorem storeResult_none (s : State) (c dir : Nat) : Shuts s (storeResult s c dir 0 0) := .of_same rfl (.of_sys rfl) rfl

theorem setProt_shuts (s : State) (c k : Nat) : Shuts s (setProt s c k) := .of_same rfl ⟨rfl, rfl, rfl, rfl, rfl, rfl⟩ rfl

theorem addSwing_shuts (s : State) (c : Nat) (w : Swing) : Shuts s (addSwing s c w) := .of_same rfl (.of_sys rfl) rfl

theorem cutWindow_shuts (s : State) (c t : Nat) : Shuts s (cutWindow s c t) :=
  .of_same (cutWindow_regs s c t) (.of_sys ((cutWindow_keeps (R := (· ∈ [Part.act])) s c t (fun _ hp => hp) (.refl _ _)).same .sys (by decide)))
    (cutWindow_drv s c t)

theorem blockSlot_shuts (s : State) (i : Option Nat) : Shuts s (blockSlot s i) := by
  unfold blockSlot
  split
  · exact .of_same rfl (.of_sys rfl) rfl
  · exact .refl s

end Shuts

/-! ### One channel is closed (R180, R184) -/

section Close

variable {s : State} {c t : Nat}

theorem groupOf_lt (hc : c < 32) : groupOf c < 8 := by
  unfold groupOf
  omega

/-- A channel that is released is not open, and no other one opens. -/
theorem releaseAt_closes (s : State) (hc : c < 32) (hq : (drvGrp s (groupOf c)).queue = []) (t next : Nat) (sense : Bool) :
    Shuts s (releaseAt s c t next sense) ∧ (drvCh (releaseAt s c t next sense) c).isOpen = false ∧
      ∀ d, d ≠ c → drvCh (releaseAt s c t next sense) d = drvCh s d := by
  unfold releaseAt
  extract_lets u v
  have hv : Shuts s v := (modDrvCh_shuts s c _).trans (setDrvState_shuts _ _ _)
  have hoff : (drvCh v c).isOpen = false := by
    unfold v u
    rw [drvCh_setDrvState, drvCh_modDrvCh]
  have hother : ∀ d, d ≠ c → drvCh v d = drvCh s d := fun d hd => by
    unfold v u
    rw [drvCh_setDrvState, drvCh_modDrvCh_ne _ _ hd]
  split
  next p hp =>
    split
    · rw [endPeak_of_idle hp (hv.queues _ hq)]
      refine ⟨hv.trans (modDrvGrp_shuts v (groupOf_lt hc) _ fun _ hx => hx), ?_, fun d hd => ?_⟩
      · rw [drvCh_modDrvGrp]
        exact hoff
      · rw [drvCh_modDrvGrp]
        exact hother d hd
    · exact ⟨hv, hoff, hother⟩
  next => exact ⟨hv, hoff, hother⟩

/-- With nothing waiting for a peak, closing closes the channel alone. -/
theorem shutChannel_closes (s : State) (hc : c < 32) (hq : (drvGrp s (groupOf c)).queue = []) (t : Nat) :
    Shuts s (shutChannel s t c) ∧ (drvCh (shutChannel s t c) c).isOpen = false ∧ ∀ d, d ≠ c → drvCh (shutChannel s t c) d = drvCh s d := by
  unfold shutChannel
  rw [waitingOf_of_idle hq]
  extract_lets u v w
  split
  next hopen =>
    have hcut : Shuts s (if (drvCh u c).coil then cutWindow u c t else u) ∧ (if (drvCh u c).coil then cutWindow u c t else u).drv = s.drv := by
      split
      · exact ⟨cutWindow_shuts s c t, cutWindow_drv s c t⟩
      · exact ⟨.refl s, rfl⟩
    have hw : Shuts s w := (hcut.1.trans (storeResult_none _ _ _)).trans (addSwing_shuts _ _ _)
    have hdrv : w.drv = s.drv := hcut.2
    obtain ⟨hshut, hoff, hother⟩ := releaseAt_closes w hc (hw.queues _ hq) t (t + 40) false
    exact ⟨hw.trans hshut, hoff, fun d hd => (hother d hd).trans (drvCh_of_drv hdrv d)⟩
  next hclosed =>
    refine ⟨(modDrvCh_shuts s c _).trans (setDrvState_shuts _ _ _), ?_, fun d hd => ?_⟩
    · rw [drvCh_setDrvState, drvCh_modDrvCh]
      simpa using hclosed
    · rw [drvCh_setDrvState, drvCh_modDrvCh_ne _ _ hd]

end Close

/-! ### All channels are forced off -/

section Force

variable {s t : State}

/-- One channel is forced off. -/
def forceOne (k t : Nat) (s : State) (c : Nat) : State := setB (offChannel s k t c) (DRV_CH_STAT_FORCED c) true

/-- Nothing waits for a peak. -/
def Quiet (s : State) : Prop := ∀ g < 8, (drvGrp s g).queue = []

/-- The channels below `n` are closed and forced. -/
def Forced (s : State) (n : Nat) : Prop := ∀ c < n, (drvCh s c).isOpen = false ∧ flag s (DRV_CH_STAT_FORCED c) = true

/-- Forcing writes words of channels and groups; what is forced stays so. -/
structure Forces (s t : State) : Prop where
  rd : ∀ j, ¬ (0x1021 ≤ j ∧ j < 0x1060) → ¬ (0x1200 ≤ j ∧ j % 4 = 0) → rd t j = rd s j
  sys : SameSys s t

theorem Forces.refl (s : State) : Forces s s := ⟨fun _ _ _ => rfl, .of_sys rfl⟩

theorem Forces.trans {u : State} (h : Forces s t) (k : Forces t u) : Forces s u :=
  ⟨fun j hg hc => (k.rd j hg hc).trans (h.rd j hg hc), h.sys.trans k.sys⟩

theorem Shuts.forces (h : Shuts s t) : Forces s t := ⟨h.rd, h.sys⟩

theorem setForced_forces (s : State) (c : Nat) : Forces s (setB s (DRV_CH_STAT_FORCED c) true) :=
  ⟨fun j _ hc => rd_setB_ne _ _ _ _ fun e => hc (by subst e; change 0x1200 ≤ DRV_CH_STAT c ∧ DRV_CH_STAT c % 4 = 0; unfold DRV_CH_STAT; omega),
    .of_sys rfl⟩

theorem forced_apart {c d : Nat} (h : d ≠ c) : Apart (DRV_CH_STAT_FORCED c) (DRV_CH_STAT_FORCED d) :=
  ⟨by simp, by simp, .inl (by change DRV_CH_STAT d ≠ DRV_CH_STAT c; unfold DRV_CH_STAT; omega)⟩

theorem forceOne_forces (hc : c < 32) (hq : Quiet s) (k t : Nat) : Forces s (forceOne k t s c) ∧ Quiet (forceOne k t s c) ∧
    ((drvCh (forceOne k t s c) c).isOpen = false ∧ flag (forceOne k t s c) (DRV_CH_STAT_FORCED c) = true) ∧
    ∀ d, d ≠ c → drvCh (forceOne k t s c) d = drvCh s d ∧ flag (forceOne k t s c) (DRV_CH_STAT_FORCED d) = flag s (DRV_CH_STAT_FORCED d) := by
  obtain ⟨hshut, hoff, hother⟩ := shutChannel_closes (setProt s c k) hc (hq _ (groupOf_lt hc)) t
  have hall : Shuts s (offChannel s k t c) := (setProt_shuts s c k).trans hshut
  refine ⟨hall.forces.trans (setForced_forces _ c), fun g hg => ?_, ⟨?_, flag_setB _ _ _ (by simp)⟩, fun d hd => ⟨?_, ?_⟩⟩
  · rw [forceOne, drvGrp_setB]
    exact hall.queues g (hq g hg)
  · rw [forceOne, drvCh_setB]
    exact hoff
  · rw [forceOne, drvCh_setB]
    exact hother d hd
  · rw [forceOne, flag_setB_apart (forced_apart hd), hall.forced]

/-- All channels in turn. -/
theorem forceEach_forces (hq : Quiet s) (k t n : Nat) (hn : n ≤ 32) : Forces s ((List.range n).foldl (forceOne k t) s) ∧
    Quiet ((List.range n).foldl (forceOne k t) s) ∧ Forced ((List.range n).foldl (forceOne k t) s) n := by
  induction n with
  | zero => exact ⟨.refl s, hq, fun c hc => absurd hc (Nat.not_lt_zero c)⟩
  | succ n ih =>
    obtain ⟨hforces, hquiet, hforced⟩ := ih (by omega)
    rw [List.range_succ, List.foldl_append, List.foldl_cons, List.foldl_nil]
    obtain ⟨hone, hquiet', hself, hother⟩ := forceOne_forces (c := n) (by omega) hquiet k t
    refine ⟨hforces.trans hone, hquiet', fun c hc => ?_⟩
    by_cases hcn : c = n
    · exact hcn ▸ hself
    · obtain ⟨hch, hflag⟩ := hother c hcn
      rw [hch, hflag]
      exact hforced c (by omega)

/-- The queue of a group is emptied; whatever waited there, only words of channels and of the group are written. -/
theorem blockQueue_forces (s : State) {g : Nat} (hg : g < 8) : Forces s (blockQueue s g) ∧ (drvGrp (blockQueue s g) g).queue = [] ∧
    ∀ k, k ≠ g → drvGrp (blockQueue s g) k = drvGrp s k := by
  unfold blockQueue
  extract_lets q
  obtain ⟨u, hu⟩ : ∃ u, u = q.foldl (fun s w => storeResult (setDrvState (blockSlot s (w.edge.bind (·.slot))) w.ch dsOff) w.ch 0 0 0) s := ⟨_, rfl⟩
  have hfold : Shuts s u ∧ u.drv = s.drv := by
    rw [hu]
    refine List.foldlRecOn (motive := fun u => Shuts s u ∧ u.drv = s.drv) q _ ⟨.refl s, rfl⟩ fun v hv w _ => ⟨?_, ?_⟩
    · exact ((hv.1.trans (blockSlot_shuts _ _)).trans (setDrvState_shuts _ _ _)).trans (storeResult_none _ _ _)
    · have hdrv : (setDrvState (blockSlot v (w.edge.bind (·.slot))) w.ch dsOff).drv = v.drv := by
        rw [setDrvState_drv]
        exact (blockSlot_keeps (R := (· ∈ [Part.sch])) v _ (fun _ hp => hp) (.refl _ _)).same .drv (by decide)
      exact hdrv.trans hv.2
  rw [← hu]
  refine ⟨hfold.1.forces.trans (modDrvGrp_shuts u hg _ fun _ _ => rfl).forces, by rw [drvGrp_modDrvGrp], fun k hk => ?_⟩
  rw [drvGrp_modDrvGrp_ne _ _ hk, drvGrp_of_drv hfold.2]

theorem blockAll_forces (s : State) (n : Nat) (hn : n ≤ 8) : Forces s ((List.range n).foldl blockQueue s) ∧
    ∀ g < n, (drvGrp ((List.range n).foldl blockQueue s) g).queue = [] := by
  induction n with
  | zero => exact ⟨.refl s, fun g hg => absurd hg (Nat.not_lt_zero g)⟩
  | succ n ih =>
    obtain ⟨hforces, hquiet⟩ := ih (by omega)
    rw [List.range_succ, List.foldl_append, List.foldl_cons, List.foldl_nil]
    obtain ⟨hone, hself, hother⟩ := blockQueue_forces ((List.range n).foldl blockQueue s) (g := n) (by omega)
    refine ⟨hforces.trans hone, fun g hg => ?_⟩
    by_cases hgn : g = n
    · exact hgn ▸ hself
    · rw [hother g hgn]
      exact hquiet g (by omega)

theorem blockAll_quiet (s : State) : Forces s (drvGroups.foldl blockQueue s) ∧ Quiet (drvGroups.foldl blockQueue s) := by
  rw [drvGroups]
  exact blockAll_forces s 8 (le_refl 8)

theorem forceAll_forced (hq : Quiet s) (k t : Nat) : Forces s (drvChans.foldl (forceOne k t) s) ∧ Forced (drvChans.foldl (forceOne k t) s) 32 := by
  rw [drvChans]
  obtain ⟨hforces, -, hforced⟩ := forceEach_forces hq k t 32 (le_refl 32)
  exact ⟨hforces, hforced⟩

/-- The words of the groups and their summary follow. -/
theorem showGroups_leaves (s : State) : (∀ j, j ≠ DRV_STAT → ¬ (0x1021 ≤ j ∧ j < 0x1060) → rd (showGroups s) j = rd s j) ∧
    flag (showGroups s) DRV_STAT_FORCED = flag s DRV_STAT_FORCED ∧ (showGroups s).drv = s.drv ∧ (showGroups s).sys = s.sys := by
  have hkeeps := showGroups_keeps (R := (· ∈ [Part.regs])) s (fun _ hp => hp) (.refl _ _)
  refine ⟨fun j hstat hgrp => ?_, ?_, hkeeps.same .drv (by decide), hkeeps.same .sys (by decide)⟩
  all_goals
    unfold showGroups
    extract_lets u v
  · have hu : rd u j = rd s j := List.foldlRecOn (motive := fun u => rd u j = rd s j) drvGroups _ rfl fun v hv g hg => by
      have hlt : g < 8 := List.mem_range.1 hg
      rw [rd_setB_ne _ _ _ _ (by change j ≠ DRV_GRP_STAT g; unfold DRV_GRP_STAT; omega), hv]
    rw [rd_setF_ne _ _ _ _ hstat, rd_setF_ne _ _ _ _ hstat, hu]
  · have hu : flag u DRV_STAT_FORCED = flag s DRV_STAT_FORCED :=
      List.foldlRecOn (motive := fun u => flag u DRV_STAT_FORCED = flag s DRV_STAT_FORCED) drvGroups _ rfl fun v hv g _ => by
        rw [flag_setB_apart ⟨by simp, by simp, .inl (by change DRV_STAT ≠ DRV_GRP_STAT g; unfold DRV_STAT DRV_GRP_STAT; omega)⟩, hv]
    rw [flag_setF_apart (by decide), flag_setF_apart (by decide), hu]

/-- A forced stop of the local drivers (R15, R36). -/
structure Stopped (s t : State) : Prop where
  rd : ∀ j, j ≠ DRV_STAT → j ≠ DRV_CNT_ENLOSS → ¬ (0x1021 ≤ j ∧ j < 0x1060) → ¬ (0x1200 ≤ j ∧ j % 4 = 0) → rd t j = rd s j
  sys : SameSys s t
  off : allForcedOff t
  counted : getF t DRV_CNT_ENLOSS_CNT = min (getF s DRV_CNT_ENLOSS_CNT + 1) (2 ^ 32 - 1)

theorem forceDrv_stopped (s : State) (k t : Nat) : Stopped s (forceDrv s k t) := by
  obtain ⟨hblock, hquiet⟩ := blockAll_quiet s
  obtain ⟨hforce, hforced⟩ := forceAll_forced hquiet k t
  have h2 := hblock.trans hforce
  have hrun : forceDrv s k t = showGroups (bump (setB (drvChans.foldl (forceOne k t) (drvGroups.foldl blockQueue s)) DRV_STAT_FORCED true)
    DRV_CNT_ENLOSS_CNT) := rfl
  rw [hrun]
  obtain ⟨s2, hs2⟩ : ∃ u, u = drvChans.foldl (forceOne k t) (drvGroups.foldl blockQueue s) := ⟨_, rfl⟩
  rw [← hs2] at hforced h2 ⊢
  obtain ⟨hrd, hflag, hdrv, hsys⟩ := showGroups_leaves (bump (setB s2 DRV_STAT_FORCED true) DRV_CNT_ENLOSS_CNT)
  have hput : ∀ j, j ≠ DRV_STAT → j ≠ DRV_CNT_ENLOSS → Machine.rd (bump (setB s2 DRV_STAT_FORCED true) DRV_CNT_ENLOSS_CNT) j = Machine.rd s2 j :=
    fun j hstat hcnt => (rd_setF_ne _ _ _ _ hcnt).trans (rd_setB_ne _ _ _ _ hstat)
  refine ⟨fun j hstat hcnt hgrp hch => ?_, ?_, ⟨?_, fun c hc => ⟨?_, ?_⟩⟩, ?_⟩
  · rw [hrd j hstat hgrp, hput j hstat hcnt, h2.rd j hgrp hch]
  · exact h2.sys.trans (.of_sys hsys)
  · rw [hflag, flag_bump_apart (by decide), flag_setB _ _ _ (by decide)]
  · rw [drvCh_of_drv hdrv]
    exact (hforced c hc).1
  · have hj : DRV_CH_STAT c ≠ DRV_STAT ∧ DRV_CH_STAT c ≠ DRV_CNT_ENLOSS ∧ ¬ (0x1021 ≤ DRV_CH_STAT c ∧ DRV_CH_STAT c < 0x1060) := by
      unfold DRV_CH_STAT DRV_STAT DRV_CNT_ENLOSS
      omega
    rw [flag_congr (hrd _ hj.1 hj.2.2), flag_congr (hput _ hj.1 hj.2.1)]
    exact (hforced c hc).2
  · rw [getF_congr (hrd _ (by decide) (by decide)), getF_bump _ _ _ (by decide), getF_setB_apart (by decide),
      getF_congr (f := DRV_CNT_ENLOSS_CNT) (h2.rd DRV_CNT_ENLOSS (by decide) (by decide))]
    rfl

end Force

/-! ### Rings and PWM groups stop aside -/

section Aside

variable (s : State)

/-- A channel of a ring goes safe. -/
def channelSafe (r k t : Nat) (s : State) (i : Nat) : State :=
  if chUsed s (32 + 240 * r + i) then safeSwing t (if k = 0 then s else setProt s (32 + 240 * r + i) k) (32 + 240 * r + i) else s

/-- The nodes' commands are dropped and the channels go safe. -/
def ringDropped (s : State) (r k t : Nat) : State := (List.range 240).foldl (channelSafe r k t) ((List.range nodeCount).foldl (dropNode r) s)

/-- No register, and of the system what it notes alone. -/
structure Unshown (s t : State) : Prop where
  regs : t.regs = s.regs
  sys : SameSys s t

theorem Unshown.of_keeps {s t : State} (h : Keeps (· ∈ [Part.sch, .act, .fjl]) s t) : Unshown s t :=
  ⟨h.same .regs (by decide), .of_sys (h.same .sys (by decide))⟩

theorem Unshown.foldl {s : State} {f : State → Nat → State} (hf : ∀ u i, Unshown u (f u i)) (l : List Nat) : Unshown s (l.foldl f s) := by
  induction l generalizing s with
  | nil => exact ⟨rfl, .of_sys rfl⟩
  | cons i l ih => exact ⟨(ih.regs).trans (hf s i).regs, (hf s i).sys.trans ih.sys⟩

theorem channelSafe_unshown (r k t : Nat) (s : State) (i : Nat) : Unshown s (channelSafe r k t s i) := by
  unfold channelSafe
  split
  · have hprot : Unshown s (if k = 0 then s else setProt s (32 + 240 * r + i) k) := by
      split
      · exact ⟨rfl, .of_sys rfl⟩
      · exact ⟨rfl, ⟨rfl, rfl, rfl, rfl, rfl, rfl⟩⟩
    have hswing := Unshown.of_keeps (safeSwing_keeps t (if k = 0 then s else setProt s (32 + 240 * r + i) k) (32 + 240 * r + i)
      (allows_of_subset (by decide)) (.refl _ _))
    exact ⟨hswing.regs.trans hprot.regs, hprot.sys.trans hswing.sys⟩
  · exact ⟨rfl, .of_sys rfl⟩

theorem ringDropped_unshown (r k t : Nat) : Unshown s (ringDropped s r k t) := by
  have hnodes : Unshown s ((List.range nodeCount).foldl (dropNode r) s) :=
    .foldl (fun u n => .of_keeps (dropNode_keeps r u n (allows_of_subset (by decide)) (.refl _ _))) _
  have hchans : Unshown _ (ringDropped s r k t) := .foldl (channelSafe_unshown r k t) _
  exact ⟨hchans.regs.trans hnodes.regs, hnodes.sys.trans hchans.sys⟩

/-- Going safe writes the ring's own word alone. -/
theorem ringGoSafe_shows (r k t : Nat) : regsBut s (ringGoSafe s r k t) [FJL_STAT r] ∧ SameSys s (ringGoSafe s r k t) ∧
    flag (ringGoSafe s r k t) (FJL_STAT_SAFE_ACT r) = decide (ringState s r ≠ 0) := by
  have hdrop := ringDropped_unshown s r k t
  have hrun : ringGoSafe s r k t = setB (forceRing (ringDropped s r k t) r) (FJL_STAT_SAFE_ACT r) (decide (ringState (ringDropped s r k t) r ≠ rsOff)) := rfl
  have hstate : ringState (ringDropped s r k t) r = ringState s r := getF_of_regs hdrop.regs _
  have hforce : Unshown s (forceRing (ringDropped s r k t) r) := by
    have hring := Unshown.of_keeps (forceRing_keeps (ringDropped s r k t) r (allows_of_subset (by decide)) (.refl _ _))
    exact ⟨hring.regs.trans hdrop.regs, hdrop.sys.trans hring.sys⟩
  rw [hrun, hstate]
  obtain ⟨u, hu⟩ : ∃ u, u = forceRing (ringDropped s r k t) r := ⟨_, rfl⟩
  rw [← hu] at hforce ⊢
  exact ⟨regsBut_setB (regsBut_of_regs hforce.regs _) (by simp) _, hforce.sys.trans (.of_sys rfl), flag_setB _ _ _ (by simp)⟩

/-- One ring goes safe. -/
def safeOne (k t : Nat) (s : State) (r : Nat) : State :=
  if ringState s r = rsOff then ringGoSafe s r k t else abortFrame (ringGoSafe s r k t) r

theorem safeOne_shows (r k t : Nat) : regsBut s (safeOne k t s r) [FJL_STAT r, FJL_CNT_SAFE r] ∧ SameSys s (safeOne k t s r) ∧
    flag (safeOne k t s r) (FJL_STAT_SAFE_ACT r) = decide (ringState s r ≠ 0) := by
  obtain ⟨hregs, hsys, hflag⟩ := ringGoSafe_shows s r k t
  have hwide : regsBut s (ringGoSafe s r k t) [FJL_STAT r, FJL_CNT_SAFE r] := regsBut_mono hregs (by simp)
  unfold safeOne
  split
  · exact ⟨hwide, hsys, hflag⟩
  · have habort := abortFrame_keeps (R := (· ∈ [Part.regs, .fjl])) (ringGoSafe s r k t) r (fun _ hp => hp) (.refl _ _)
    refine ⟨?_, hsys.trans (.of_sys (habort.same .sys (by decide))), ?_⟩
    · exact regsBut_bump (regsBut_put hwide (modRing_regs _ _ _)) (by simp) 1
    · rw [abortFrame, flag_bump_apart ⟨by simp, by simp, .inl (by change FJL_STAT r ≠ FJL_CNT_SAFE r; unfold FJL_STAT FJL_CNT_SAFE; omega)⟩,
        flag_of_regs (modRing_regs _ _ _)]
      exact hflag

/-- The rings and PWM groups have stopped. -/
structure RingsSafe (s t : State) : Prop where
  rd : ∀ j, j < 0x1400 → rd t j = rd s j
  sys : SameSys s t
  safe : ∀ r < 2, flag t (FJL_STAT_SAFE_ACT r) = decide (ringState s r ≠ 0)

theorem safeSequence_safe (k t : Nat) : RingsSafe s (safeSequence s k t) := by
  obtain ⟨hregs0, hsys0, hflag0⟩ := safeOne_shows s 0 k t
  obtain ⟨hregs1, hsys1, hflag1⟩ := safeOne_shows (safeOne k t s 0) 1 k t
  have hrun : safeSequence s k t = safeOne k t (safeOne k t s 0) 1 := rfl
  rw [hrun]
  have hfar : ∀ {j r : Nat}, j < 0x1400 → j ∉ [FJL_STAT r, FJL_CNT_SAFE r] := fun {j r} hj hmem => by
    simp only [List.mem_cons, List.not_mem_nil, or_false, FJL_STAT, FJL_CNT_SAFE] at hmem
    omega
  refine ⟨fun j hj => (hregs1 j (hfar hj)).trans (hregs0 j (hfar hj)), hsys0.trans hsys1, fun r hr => ?_⟩
  obtain rfl | rfl : r = 0 ∨ r = 1 := by omega
  · rw [flag_of_regsBut hregs1 (by decide), hflag0]
  · have hstate : ringState (safeOne k t s 0) 1 = ringState s 1 := getF_of_regsBut hregs0 (by decide)
    rw [hflag1, hstate]

/-- Stopping the PWM groups writes their words alone. -/
theorem forcePwm_leaves : (∀ j, j < 0x1C00 → rd (forcePwm s) j = rd s j) ∧ (forcePwm s).sys = s.sys := by
  refine ⟨fun j hj => ?_, (forcePwm_keeps (R := (· ∈ [Part.regs, .pwm])) s (fun _ hp => hp) (.refl _ _)).same .sys (by decide)⟩
  refine List.foldlRecOn (motive := fun u => rd u j = rd s j) pwmGroups _ rfl fun u hu g _ => ?_
  split
  · obtain ⟨-, hregs⟩ := PwmGroups.stopPwm_stopped (setB u (PWM_GRP_STAT_FORCED g) true) g
    have hstat : j ≠ PWM_GRP_STAT g := by
      unfold PWM_GRP_STAT
      omega
    rw [hregs j (by simp only [List.mem_cons, List.not_mem_nil, or_false]; unfold PWM_STAT; omega), rd_setB_ne _ _ _ _ hstat, hu]
  · exact hu

end Aside

/-! ### Everything stops -/

/-- The local drivers are forced off, the rings go safe and the PWM groups stop. -/
def stopAll (s : State) (k t : Nat) : State := forcePwm (safeSequence (forceDrv s k t) k t)

theorem stopAll_drv (s : State) (k t : Nat) : (stopAll s k t).drv = (forceDrv s k t).drv := by
  have hsafe := (safeSequence_keeps (R := (· ∈ [Part.regs, .sys, .sch, .act, .fjl])) (forceDrv s k t) k t (fun _ hp => hp) (.refl _ _)).same .drv (by decide)
  exact ((forcePwm_keeps (R := (· ∈ [Part.regs, .pwm])) _ (fun _ hp => hp) (.refl _ _)).same .drv (by decide)).trans hsafe

theorem allForcedOff_of {s t : State} (hdrv : t.drv = s.drv) (hrd : ∀ j, 0x1000 ≤ j → j < 0x1300 → rd t j = rd s j) (h : allForcedOff s) : allForcedOff t := by
  obtain ⟨hflag, hch⟩ := h
  refine ⟨(flag_congr (hrd DRV_STAT (by decide) (by decide))).trans hflag, fun c hc => ?_⟩
  obtain ⟨hoff, hforced⟩ := hch c hc
  refine ⟨by rw [drvCh_of_drv hdrv, hoff], (flag_congr (hrd (DRV_CH_STAT c) ?_ ?_)).trans hforced⟩ <;> unfold DRV_CH_STAT <;> omega

theorem stopAll_rd (s : State) (k t : Nat) {j : Nat} (hj : j < 0x1400) : rd (stopAll s k t) j = rd (forceDrv s k t) j := by
  rw [stopAll, (forcePwm_leaves _).1 j (by omega), (safeSequence_safe _ k t).rd j hj]

theorem stopAll_spec (s : State) (k t : Nat) : SameSys s (stopAll s k t) ∧ allForcedOff (stopAll s k t) ∧
    getF (stopAll s k t) DRV_CNT_ENLOSS_CNT = min (getF s DRV_CNT_ENLOSS_CNT + 1) (2 ^ 32 - 1) ∧
    (∀ r < 2, flag (stopAll s k t) (FJL_STAT_SAFE_ACT r) = decide (ringState s r ≠ 0)) ∧ ∀ j < 0x1000, rd (stopAll s k t) j = rd s j := by
  have hdrv := forceDrv_stopped s k t
  have hsafe := safeSequence_safe (forceDrv s k t) k t
  obtain ⟨hpwm, hpwmSys⟩ := forcePwm_leaves (safeSequence (forceDrv s k t) k t)
  refine ⟨(hdrv.sys.trans hsafe.sys).trans (.of_sys hpwmSys), ?_, ?_, fun r hr => ?_, fun j hj => ?_⟩
  · exact allForcedOff_of (stopAll_drv s k t) (fun j _ hj => stopAll_rd s k t (by omega)) hdrv.off
  · rw [getF_congr (f := DRV_CNT_ENLOSS_CNT) (stopAll_rd s k t (by decide)), hdrv.counted]
  · have hreg : FJL_STAT r < 0x1C00 ∧ FJL_STAT r ≠ DRV_STAT ∧ FJL_STAT r ≠ DRV_CNT_ENLOSS ∧ ¬ (0x1021 ≤ FJL_STAT r ∧ FJL_STAT r < 0x1060) ∧
        ¬ (0x1200 ≤ FJL_STAT r ∧ FJL_STAT r % 4 = 0) := by
      unfold FJL_STAT DRV_STAT DRV_CNT_ENLOSS
      omega
    have hstate : ringState (forceDrv s k t) r = ringState s r := getF_congr (hdrv.rd _ hreg.2.1 hreg.2.2.1 hreg.2.2.2.1 hreg.2.2.2.2)
    rw [stopAll, flag_congr (hpwm _ hreg.1), hsafe.safe r hr, hstate]
  · rw [stopAll_rd s k t (by omega), hdrv.rd j (by unfold DRV_STAT; omega) (by unfold DRV_CNT_ENLOSS; omega) (by omega) (by omega)]

/-! ### ENABLE_LOSS and ENABLE_RESTORED (R15, R16, R184) -/

section Enables

variable {s : State} {a bn : Bool} {t₀ : Nat}

/-- The levels at the pins. -/
def levelled (s : State) (a bn : Bool) : State := { s with sys := { s.sys with enA := a, enBN := bn } }

theorem enableLoss_stops (hpins : (!a || bn) = true) (hon : enablesOk s = true) (hrun : s.sys.running = true) (t : Nat) :
    enableLoss s a bn t = stopAll (record (levelled s a bn) 0x2001 noInst (leBytes 1 (bit a 0 + bit bn 1))) 1 t := by
  have hoff : enablesOk (levelled s a bn) = false := by
    change (a && !bn) = false
    cases a <;> cases bn <;> simp_all
  have hrun' : (levelled s a bn).sys.running = true := hrun
  rw [enableLoss]
  exact if_pos (by simp only [hon, Bool.true_and, Bool.and_eq_true, Bool.not_eq_true']; exact ⟨hoff, hrun'⟩)

theorem enableLoss_only (hidle : enablesOk s = false ∨ s.sys.running = false) (t : Nat) : enableLoss s a bn t = levelled s a bn := by
  rw [enableLoss]
  refine if_neg ?_
  obtain hoff | hstand := hidle
  · simp [hoff]
  · have hstand' : (levelled s a bn).sys.running = false := hstand
    simp [hstand]

theorem enableLoss_forces (hpins : (!a || bn) = true) (hstep : inThisStep s t₀ = true) (hon : enablesOk s = true) (hrun : s.sys.running = true) :
    answers (.enableLoss a bn t₀) s fun t => t.sys.enA = a ∧ t.sys.enBN = bn ∧ allForcedOff t ∧
      getF t DRV_CNT_ENLOSS_CNT = min (getF s DRV_CNT_ENLOSS_CNT + 1) (2 ^ 32 - 1) ∧
      (∀ r < 2, flag t (FJL_STAT_SAFE_ACT r) = decide (ringState s r ≠ 0)) := by
  refine answers_of_answer (t := enableLoss s a bn t₀) rfl (by simp only [hpins, hstep]; rfl) ?_
  rw [enableLoss_stops hpins hon hrun]
  obtain ⟨u, hu⟩ : ∃ u, u = record (levelled s a bn) 0x2001 noInst (leBytes 1 (bit a 0 + bit bn 1)) := ⟨_, rfl⟩
  obtain ⟨hsys, hoff, hcount, hsafe, -⟩ := stopAll_spec u 1 t₀
  have husys : u.sys = (levelled s a bn).sys := hu ▸ (keeps_record _ _ _ _).same .sys (by decide)
  have hrd : ∀ {j : Nat}, j ≠ 0x304 ∧ j ≠ 0x305 → rd u j = rd s j := fun hj => by
    rw [hu, rd_record _ _ _ _ hj]
    rfl
  rw [← hu]
  refine ⟨hsys.enA.trans (congrArg (·.enA) husys), hsys.enBN.trans (congrArg (·.enBN) husys), hoff, ?_, fun r hr => ?_⟩
  · rw [hcount, getF_congr (f := DRV_CNT_ENLOSS_CNT) (hrd (by decide))]
  · have hstate : ringState u r = ringState s r := getF_congr (hrd (by change FJL_STAT r ≠ 0x304 ∧ FJL_STAT r ≠ 0x305; unfold FJL_STAT; omega))
    rw [hsafe r hr, hstate]

end Enables

end Sys2Proof.ForcedStops
end

section
/-!
O19, supervision trips (R36, R401).
-/
namespace Sys2Proof.ForcedStops

open Sys2Proof Sys2Proof.Machine Sys2Proof.Mailbox Sys2Proof.Frame Sys2Proof.Drivers Sys2Proof.Leases

/-! ### The hosts are dropped (R401) -/

section Hosts

variable {s t : State} {h : Nat}

/-- One slot is detached, and what waits in its ring is discarded. -/
def dropHost (s : State) (h : Nat) : State :=
  bump (modSlot (detach s h 2) h fun x => { x with ring := [], reasm := none }) (HIF_H_CNT_DROP_UNITS h) (slotOf (detach s h 2) h).ring.length

theorem dropHosts_eq (s : State) : dropHosts s = hostSlots.foldl dropHost s := rfl

theorem dropCounter_hostWord (hh : h < 4) : hostWord (HIF_H_CNT_DROP_UNITS h).reg :=
  slotReg_hostWord (by change 0x100 ≤ HIF_H_CNT_DROP h ∧ HIF_H_CNT_DROP h < 0x160; unfold HIF_H_CNT_DROP; omega)

theorem dropHost_hostsOnly (hh : h < 4) : HostsOnly s (dropHost s h) :=
  ((detach_hostsOnly s 2 hh).trans (modSlot_hostsOnly _ h _)).bump (dropCounter_hostWord hh) _

theorem detach_attached_iff (s : State) (cause : Nat) (hh : h < 4) :
    attached (detach s h cause) h = false ∧ ∀ g < 4, g ≠ h → attached (detach s h cause) g = attached s g ∧ (slotOf (detach s h cause) g).ring = (slotOf s g).ring := by
  cases hatt : attached s h with
  | false =>
    rw [detach_detached s h cause hatt]
    exact ⟨hatt, fun _ _ _ => ⟨rfl, rfl⟩⟩
  | true =>
    obtain ⟨hoff, -, -, -, -, -, -, -, -, -, -, hothers⟩ := detach_detaches s cause hatt hh
    exact ⟨hoff, fun g hg hne => ⟨(hothers g hg hne).1, (hothers g hg hne).2.2⟩⟩

/-- The slot is gone with its frames, and the others stand. -/
theorem dropHost_drops (s : State) (hh : h < 4) : attached (dropHost s h) h = false ∧ (slotOf (dropHost s h) h).ring = [] ∧
    ∀ g < 4, g ≠ h → attached (dropHost s h) g = attached s g ∧ (slotOf (dropHost s h) g).ring = (slotOf s g).ring := by
  obtain ⟨hoff, hothers⟩ := detach_attached_iff s 2 hh
  have hatt : ∀ g, attached (dropHost s h) g = attached (detach s h 2) g := fun g => by
    have hreg : HIF_H_STAT g ≠ HIF_H_CNT_DROP h := by
      unfold HIF_H_STAT HIF_H_CNT_DROP
      omega
    rw [attached, dropHost, flag_bump_apart ⟨by simp, by simp, .inl hreg⟩, flag_of_regs (modSlot_regs _ _ _), ← attached]
  refine ⟨(hatt h).trans hoff, ?_, fun g hg hne => ⟨(hatt g).trans (hothers g hg hne).1, ?_⟩⟩
  · rw [dropHost, slotOf_bump, slotOf_modSlot]
  · rw [dropHost, slotOf_bump, slotOf_modSlot_ne _ _ hne]
    exact (hothers g hg hne).2

/-- After all slots in turn no host is left. -/
theorem dropEach_drops (s : State) (n : Nat) (hn : n ≤ 4) : HostsOnly s ((List.range n).foldl dropHost s) ∧
    ∀ h < n, attached ((List.range n).foldl dropHost s) h = false ∧ (slotOf ((List.range n).foldl dropHost s) h).ring = [] := by
  induction n with
  | zero => exact ⟨.refl s, fun h hh => absurd hh (Nat.not_lt_zero h)⟩
  | succ n ih =>
    obtain ⟨honly, hgone⟩ := ih (by omega)
    rw [List.range_succ, List.foldl_append, List.foldl_cons, List.foldl_nil]
    obtain ⟨hoff, hring, hothers⟩ := dropHost_drops ((List.range n).foldl dropHost s) (h := n) (by omega)
    refine ⟨honly.trans (dropHost_hostsOnly (by omega)), fun h hh => ?_⟩
    by_cases hhn : h = n
    · subst hhn
      exact ⟨hoff, hring⟩
    · obtain ⟨ha, hr⟩ := hothers h (by omega) hhn
      obtain ⟨ha', hr'⟩ := hgone h (by omega)
      exact ⟨ha.trans ha', hr.trans hr'⟩

theorem dropHosts_drops (s : State) : HostsOnly s (dropHosts s) ∧ ∀ h < 4, attached (dropHosts s) h = false ∧ (slotOf (dropHosts s) h).ring = [] := by
  rw [dropHosts_eq]
  exact dropEach_drops s 4 (le_refl 4)

end Hosts

/-! ### What follows the drop -/

section After

variable (s : State)

theorem canHold_aside : Aside s (canHold s) := by
  have hsys := (canHold_keeps (R := (· ∈ [Part.regs, .can])) s (fun _ hp => hp) (.refl _ _)).same .sys (by decide)
  have hregs : regsBut s (canHold s) (CanControllers.txRegs 0) := by
    unfold canHold
    split
    · refine regsBut_foldl (fun b _ u hu => ?_) (regsBut_refl _ _)
      split
      · exact regsBut_put hu rfl
      · split
        · exact regsBut_trans hu (CanControllers.regsBut_endTx u 0 b tbAborted)
        · exact hu
    · exact regsBut_refl _ _
  refine .of_regsBut hregs (fun j hj => far_beyond ?_) hsys
  rw [CanControllers.mem_txRegs] at hj
  omega

/-- The end of a trip: the freeze and the update end, and CAN holds its frames. -/
def wound (s : State) : State := canHold (closeUpdate (endFreeze s))

theorem wound_shows : Shows s (wound s) := by
  have hfreeze := endFreeze_keeps (R := (· ∈ [Part.regs, .recd])) s (fun _ hp => hp) (.refl _ _)
  have hcan := canHold_keeps (R := (· ∈ [Part.regs, .can])) (closeUpdate (endFreeze s)) (fun _ hp => hp) (.refl _ _)
  exact (((endFreeze_aside s).shows (hfreeze.same .boot (by decide)) (hfreeze.same .hif (by decide))).trans (closeUpdate_shows _)).trans
    ((canHold_aside _).shows (hcan.same .boot (by decide)) (hcan.same .hif (by decide)))

end After

/-! ### A supervision trip -/

section Trip

variable (s : State) (t : Nat) (ls : Bool)

/-- The flag of the error. -/
def errField (ls : Bool) : Field := if ls then SYS_SUPV_CTRL_LS_ERR else SYS_SUPV_CTRL_HB_ERR

/-- The error is noted and the processors are held. -/
def tripNoted : State :=
  let u := bump (setB s (errField ls) true) SYS_SUPV_CTRL_TRIPS
  { u with sys := { u.sys with tripped := true, phase := .held } }

/-- The outputs have stopped, and the cause is shown. -/
def tripShown : State := setMode (setB (stopAll (tripNoted s ls) 2 t) CLK_RST_CAUSE_SUPV true) 1

/-- The record of the trip. -/
def tripRecorded : State :=
  record (tripShown s t ls) 0x1001 noInst (leBytes 1 (bit (flag (tripShown s t ls) SYS_SUPV_CTRL_LS_ERR) 0 + bit (flag (tripShown s t ls) SYS_SUPV_CTRL_HB_ERR) 1) ++
    leBytes 1 (getF (tripShown s t ls) SYS_SUPV_CTRL_TRIPS))

theorem supervisionTrip_eq : supervisionTrip s t ls =
    modBoot (wound (dropHosts (tripRecorded s t ls))) fun b => { b with trips := absTick (wound (dropHosts (tripRecorded s t ls))) t :: b.trips } := rfl

theorem errField_bits : (errField ls).reg = SYS_SUPV_CTRL ∧ Apart SYS_SUPV_CTRL_TRIPS (errField ls) ∧ Apart (errField ls) SYS_SUPV_CTRL_TRIPS ∧
    (errField ls).lo ≤ (errField ls).hi ∧ (errField ls).hi < 32 := by
  cases ls <;> decide

theorem tripNoted_noted : flag (tripNoted s ls) (errField ls) = true ∧
    getF (tripNoted s ls) SYS_SUPV_CTRL_TRIPS = min (getF s SYS_SUPV_CTRL_TRIPS + 1) (2 ^ SYS_SUPV_CTRL_TRIPS.width - 1) ∧
    (tripNoted s ls).sys = { s.sys with tripped := true, phase := .held } ∧ ∀ j, j ≠ SYS_SUPV_CTRL → rd (tripNoted s ls) j = rd s j := by
  obtain ⟨hreg, hafter, hbefore, hbits⟩ := errField_bits ls
  have hregs : (tripNoted s ls).regs = (bump (setB s (errField ls) true) SYS_SUPV_CTRL_TRIPS).regs := rfl
  refine ⟨?_, ?_, rfl, fun j hj => ?_⟩
  · rw [flag_of_regs hregs, flag_bump_apart hafter, flag_setB _ _ _ hbits]
  · rw [getF_of_regs hregs, getF_bump _ _ _ (by decide), getF_setB_apart hbefore]
  · rw [rd_of_regs hregs, bump, rd_setF_ne _ _ _ _ hj, rd_setB_ne _ _ _ _ (by rw [hreg]; exact hj)]

theorem tripRecorded_sys : SameSys (tripNoted s ls) (tripRecorded s t ls) := by
  obtain ⟨hsys, -⟩ := stopAll_spec (tripNoted s ls) 2 t
  have hshown : (tripShown s t ls).sys = (stopAll (tripNoted s ls) 2 t).sys := rfl
  exact (hsys.trans (.of_sys hshown)).trans (.of_sys ((keeps_record _ _ _ _).same .sys (by decide)))

/-- What the trip leaves of registers below the data path's pages, beside those that it shows itself in. -/
theorem rd_tripRecorded {j : Nat} (hj : j < 0x1000) (hne : j ≠ SYS_SUPV_CTRL ∧ j ≠ CLK_RST_CAUSE ∧ j ≠ SYS_BOOT ∧ j ≠ 0x304 ∧ j ≠ 0x305) :
    rd (tripRecorded s t ls) j = rd s j := by
  obtain ⟨-, -, -, -, hstop⟩ := stopAll_spec (tripNoted s ls) 2 t
  obtain ⟨-, -, -, hnoted⟩ := tripNoted_noted s ls
  rw [tripRecorded, rd_record _ _ _ _ hne.2.2.2, tripShown, setMode, rd_setF_ne _ _ _ _ hne.2.2.1, rd_setB_ne _ _ _ _ hne.2.1, hstop j hj, hnoted j hne.1]

/-- The supervision's register shows the error and counts the trip. -/
theorem supv_tripRecorded : rd (tripRecorded s t ls) SYS_SUPV_CTRL = rd (tripNoted s ls) SYS_SUPV_CTRL := by
  obtain ⟨-, -, -, -, hstop⟩ := stopAll_spec (tripNoted s ls) 2 t
  rw [tripRecorded, rd_record _ _ _ _ (by decide), tripShown, setMode, rd_setF_ne _ _ _ _ (by decide), rd_setB_ne _ _ _ _ (by decide), hstop _ (by decide)]

theorem cause_tripRecorded : flag (tripRecorded s t ls) CLK_RST_CAUSE_SUPV = true := by
  rw [tripRecorded, flag_congr (f := CLK_RST_CAUSE_SUPV) (rd_record _ _ _ _ (by decide)), tripShown, setMode, flag_setF_apart (by decide), flag_setB _ _ _ (by decide)]

theorem tripRecorded_off : allForcedOff (tripRecorded s t ls) := by
  obtain ⟨-, hoff, -⟩ := stopAll_spec (tripNoted s ls) 2 t
  refine allForcedOff_of (s := stopAll (tripNoted s ls) 2 t) ?_ (fun j hj _ => ?_) hoff
  · exact (keeps_record _ _ _ _).same .drv (by decide)
  · rw [tripRecorded, rd_record _ _ _ _ (by omega), tripShown, setMode, rd_setF_ne _ _ _ _ (by change j ≠ SYS_BOOT; unfold SYS_BOOT; omega),
      rd_setB_ne _ _ _ _ (by change j ≠ CLK_RST_CAUSE; unfold CLK_RST_CAUSE; omega)]

/-- What is left of the trip when the hosts are gone. -/
theorem tripEnded : HostsOnly (tripRecorded s t ls) (wound (dropHosts (tripRecorded s t ls))) ∧
    (wound (dropHosts (tripRecorded s t ls))).hif = (dropHosts (tripRecorded s t ls)).hif :=
  ⟨(dropHosts_drops _).1.trans (wound_shows _).hostsOnly, (wound_shows _).hif⟩

theorem supervisionTrip_regs : (supervisionTrip s t ls).regs = (wound (dropHosts (tripRecorded s t ls))).regs := by
  rw [supervisionTrip_eq]
  rfl

theorem supervisionTrip_rd {j : Nat} (hfar : ¬ far j) (hhost : ¬ hostWord j) : rd (supervisionTrip s t ls) j = rd (tripRecorded s t ls) j := by
  rw [rd_of_regs (supervisionTrip_regs s t ls), (tripEnded s t ls).1.rd j hfar hhost]

theorem supervisionTrip_sys : SameSys (tripNoted s ls) (supervisionTrip s t ls) := by
  refine (tripRecorded_sys s t ls).trans ((tripEnded s t ls).1.sys.trans (.of_sys ?_))
  rw [supervisionTrip_eq]
  rfl

/-- DRV after a trip is DRV after the stop. -/
theorem supervisionTrip_drv : (supervisionTrip s t ls).drv = (tripRecorded s t ls).drv := by
  have hdrop := (dropHosts_keeps (R := (· ∈ [Part.regs, .sys, .boot, .hif, .recd, .sch, .fjl, .pwm, .free])) (tripRecorded s t ls) (fun _ hp => hp) (.refl _ _)).same .drv
    (by decide)
  have hfreeze := (endFreeze_keeps (R := (· ∈ [Part.regs, .recd])) (dropHosts (tripRecorded s t ls)) (fun _ hp => hp) (.refl _ _)).same .drv (by decide)
  have hclose := (closeUpdate_keeps (R := (· ∈ [Part.regs, .boot])) (endFreeze (dropHosts (tripRecorded s t ls))) (fun _ hp => hp) (.refl _ _)).same .drv (by decide)
  have hcan := (canHold_keeps (R := (· ∈ [Part.regs, .can])) (closeUpdate (endFreeze (dropHosts (tripRecorded s t ls)))) (fun _ hp => hp) (.refl _ _)).same .drv (by decide)
  rw [supervisionTrip_eq]
  exact hcan.trans (hclose.trans (hfreeze.trans hdrop))

theorem supervisionTrip_hosts : ∀ h < 4, attached (supervisionTrip s t ls) h = false ∧ (slotOf (supervisionTrip s t ls) h).ring = [] := by
  intro h hh
  obtain ⟨hatt, hring⟩ := (dropHosts_drops (tripRecorded s t ls)).2 h hh
  have hreg : rd (supervisionTrip s t ls) (HIF_H_STAT h) = rd (dropHosts (tripRecorded s t ls)) (HIF_H_STAT h) := by
    rw [rd_of_regs (supervisionTrip_regs s t ls), (wound_shows _).slotReg (by unfold HIF_H_STAT; omega)]
  have hslot : slotOf (supervisionTrip s t ls) h = slotOf (dropHosts (tripRecorded s t ls)) h := by
    rw [supervisionTrip_eq, slotOf, slotOf]
    exact congrArg (fun x : HifState => sparseGet (fun _ => HostSlot.reset) x.slots h) (tripEnded s t ls).2
  exact ⟨(flag_congr hreg).trans hatt, by rw [hslot, hring]⟩

theorem supervisionTrip_keepsTime : Keeps (· ∈ [Part.regs, .sys, .boot, .hif, .recd, .sch, .act, .drv, .fjl, .pwm, .can, .free]) s (supervisionTrip s t ls) :=
  supervisionTrip_keeps s t ls (fun _ hp => hp) (.refl _ _)

theorem supervisionTrip_trips : (supervisionTrip s t ls).boot.trips = absTick s t :: s.boot.trips := by
  have htime : (supervisionTrip s t ls).tim = s.tim := (supervisionTrip_keepsTime s t ls).same .tim (by decide)
  have htick : absTick (wound (dropHosts (tripRecorded s t ls))) t = absTick s t := by
    rw [absTick, absTick, ← htime, supervisionTrip_eq]
    rfl
  have hstop : (tripRecorded s t ls).boot = s.boot := by
    have hdrv := (forceDrv_keeps (R := (· ∈ [Part.regs, .sys, .sch, .act, .drv])) (tripNoted s ls) 2 t (fun _ hp => hp) (.refl _ _)).same .boot (by decide)
    have hrings := (safeSequence_keeps (R := (· ∈ [Part.regs, .sys, .sch, .act, .fjl])) (forceDrv (tripNoted s ls) 2 t) 2 t (fun _ hp => hp) (.refl _ _)).same .boot
      (by decide)
    have hpwm := (forcePwm_keeps (R := (· ∈ [Part.regs, .pwm])) (safeSequence (forceDrv (tripNoted s ls) 2 t) 2 t) (fun _ hp => hp) (.refl _ _)).same .boot (by decide)
    exact ((keeps_record _ _ _ _).same .boot (by decide)).trans (hpwm.trans (hrings.trans hdrv))
  rw [supervisionTrip_eq]
  exact congrArg₂ List.cons htick ((tripEnded s t ls).1.trips.trans (congrArg (·.trips) hstop))

/-- What the statement asks of a trip. -/
theorem supervisionTrip_tripped : tripped s (supervisionTrip s t ls) t (errField ls) := by
  obtain ⟨herr, hcount, hsys, -⟩ := tripNoted_noted s ls
  have hsame := supervisionTrip_sys s t ls
  have hsupv : rd (supervisionTrip s t ls) SYS_SUPV_CTRL = rd (tripNoted s ls) SYS_SUPV_CTRL := by
    rw [supervisionTrip_rd s t ls (by unfold far; decide) (by unfold hostWord; decide), supv_tripRecorded]
  obtain ⟨hreg, -⟩ := errField_bits ls
  refine ⟨(flag_congr (by rw [hreg]; exact hsupv)).trans herr, (getF_congr hsupv).trans hcount, ?_, hsame.phase.trans (by rw [hsys]),
    hsame.tripped.trans (by rw [hsys]), ?_, supervisionTrip_hosts s t ls, supervisionTrip_trips s t ls⟩
  · rw [flag_congr (f := CLK_RST_CAUSE_SUPV) (supervisionTrip_rd s t ls (by unfold far; decide) (by unfold hostWord; decide)), cause_tripRecorded]
  · exact allForcedOff_of (supervisionTrip_drv s t ls)
      (fun j hlo hhi => supervisionTrip_rd s t ls (by unfold far; omega) (by unfold hostWord; omega)) (tripRecorded_off s t ls)

end Trip

/-- Settles O19: a loss of the enables closes and forces every local channel, and a supervision trip also holds the processors and drops every host. -/
theorem forcedStops : Obligations.ForcedStops := by
  unfold Obligations.ForcedStops
  refine ⟨⟨fun s a bn t₀ hpins hstep => ⟨fun hon hrun => enableLoss_forces hpins hstep hon hrun, fun hidle => ?_⟩, fun s => ⟨_, rfl, rfl⟩⟩,
    fun s t₀ hstep => ⟨fun hrun => ?_, fun hup => ?_⟩⟩
  · exact answers_of_answer (t := enableLoss s a bn t₀) rfl (by simp only [hpins, hstep]; rfl) (enableLoss_only hidle t₀)
  · refine answers_of_answer (t := if processorsRun s then supervisionTrip s t₀ true else s) rfl hstep ?_
    rw [if_pos hrun]
    exact supervisionTrip_tripped s t₀ true
  · refine answers_of_answer (t := if s.sys.phase = .up then supervisionTrip s t₀ false else s) rfl hstep ?_
    rw [if_pos hup]
    exact supervisionTrip_tripped s t₀ false

end Sys2Proof.ForcedStops
end

section
/-!
Device resets (R448, R449): what a reset leaves, for O40 and O56.
-/
namespace Sys2Proof.DeviceResets

open Sys2Proof Sys2Proof.Machine Sys2Proof.Mailbox Sys2Proof.Recorder Sys2Proof.Frame Sys2Proof.Firmware

/-! ### Blocks -/

section Blocks

/-- The parts that the reset of a block touches. -/
def blockParts : Nat → List Part
  | 0 => [.regs, .tables, .kin]
  | 1 => [.regs, .tables, .map]
  | 2 => [.regs, .tables, .sys, .sch, .act, .drv, .fjl]
  | 3 => [.regs, .tables, .act]
  | 4 => [.regs, .sys, .sch, .drv]
  | 5 | 6 => [.regs, .fjl]
  | 7 => [.regs, .tables, .cle]
  | 8 => [.regs, .sys, .pwm]
  | 9 => [.regs, .sys, .enc]
  | 10 => [.regs, .eth]
  | _ => [.regs, .tables, .can]

theorem blockReset_parts (s : State) (k : Nat) : Keeps (· ∈ blockParts k) s (blockReset s k) := by
  unfold blockReset
  split
  · exact kinReset_keeps s (fun _ hp => hp) (.refl _ _)
  · exact mapReset_keeps s (fun _ hp => hp) (.refl _ _)
  · exact schReset_keeps s (fun _ hp => hp) (.refl _ _)
  · exact actReset_keeps s (fun _ hp => hp) (.refl _ _)
  · exact drvReset_keeps s (fun _ hp => hp) (.refl _ _)
  · exact fjlReset_keeps s 0 (fun _ hp => hp) (.refl _ _)
  · exact fjlReset_keeps s 1 (fun _ hp => hp) (.refl _ _)
  · exact cleReset_keeps s (fun _ hp => hp) (.refl _ _)
  · exact pwmReset_keeps s (fun _ hp => hp) (.refl _ _)
  · exact encReset_keeps s (fun _ hp => hp) (.refl _ _)
  · exact ethReset_keeps s (fun _ hp => hp) (.refl _ _)
  · exact canReset_keeps s 0 (fun _ hp => hp) (.refl _ _)
  · exact canReset_keeps s 1 (fun _ hp => hp) (.refl _ _)
  · exact canReset_keeps s 2 (fun _ hp => hp) (.refl _ _)
  · exact canReset_keeps s 3 (fun _ hp => hp) (.refl _ _)
  · exact .refl _ _

/-- A part that no block of a list has stands. -/
theorem blocks_same {p : Part} {l : List Nat} (hl : ∀ k ∈ l, p ∉ blockParts k) (s : State) : samePart s (l.foldl blockReset s) p := by
  induction l generalizing s with
  | nil => exact (Keeps.refl (· ∈ ([] : List Part)) s).same p (by simp)
  | cons k l ih =>
    exact samePart_trans ((blockReset_parts s k).same p (hl k (List.mem_cons_self ..))) (ih (fun k hk => hl k (List.mem_cons_of_mem _ hk)) _)

/-- All blocks are reset. -/
def blocksReset (s : State) : State := brstBits.foldl blockReset s

/-- All blocks but the first ones are reset after them. -/
theorem blocksReset_append {l m : List Nat} (h : brstBits = l ++ m) (s : State) : blocksReset s = m.foldl blockReset (l.foldl blockReset s) := by
  rw [blocksReset, h, List.foldl_append]

/-- What the reset of block `k` leaves of a part stands when no block after `k` has the part. -/
theorem blocksReset_after {p : Part} {l m : List Nat} {k : Nat} (h : brstBits = l ++ k :: m) (hm : ∀ x ∈ m, p ∉ blockParts x) (s : State) :
    samePart (blockReset (l.foldl blockReset s) k) (blocksReset s) p := by
  rw [blocksReset_append h, List.foldl_cons]
  exact blocks_same hm _

theorem kinReset_kin (s : State) : (blockReset s 0).kin = KinState.reset := rfl

theorem cleReset_cle (s : State) : (blockReset s 7).cle = CleState.reset := rfl

theorem pwmReset_pwm (s : State) : (blockReset s 8).pwm = [] := rfl

theorem drvReset_drv (s : State) : (blockReset s 4).drv = DrvState.reset := by
  change (drvReset s).drv = _
  unfold drvReset
  extract_lets s1 _ s2 s3
  exact List.foldlRecOn (motive := fun u : State => u.drv = DrvState.reset) drvChans _ rfl fun u hu c _ => hu

theorem blocksReset_kin (s : State) : (blocksReset s).kin = KinState.reset :=
  (blocksReset_after (p := .kin) (l := []) (k := 0) rfl (by decide) s).trans (kinReset_kin _)

theorem blocksReset_drv (s : State) : (blocksReset s).drv = DrvState.reset :=
  (blocksReset_after (p := .drv) (l := [0, 1, 2, 3]) (k := 4) rfl (by decide) s).trans (drvReset_drv _)

theorem blocksReset_cle (s : State) : (blocksReset s).cle = CleState.reset :=
  (blocksReset_after (p := .cle) (l := [0, 1, 2, 3, 4, 5, 6]) (k := 7) rfl (by decide) s).trans (cleReset_cle _)

theorem blocksReset_pwm (s : State) : (blocksReset s).pwm = [] :=
  (blocksReset_after (p := .pwm) (l := [0, 1, 2, 3, 4, 5, 6, 7]) (k := 8) rfl (by decide) s).trans (pwmReset_pwm _)

theorem blocksReset_keeps (s : State) : Keeps (· ∈ [Part.regs, .tables, .kin, .sys, .sch, .map, .act, .drv, .fjl, .pwm, .cle, .enc, .eth, .can]) s (blocksReset s) :=
  Keeps.foldl (fun _ ht k => blockReset_keeps _ k (fun _ hp => hp) ht) (.refl _ _)

end Blocks

/-! ### Registers at reset -/

section Registers

/-- A register is at its reset value. -/
def AtReset (s : State) (j : Nat) : Prop := rd s j = regReset j

variable {s t : State} {j : Nat}

theorem AtReset.resetRegs (h : AtReset s j) (p : Nat → Bool) : AtReset (resetRegs s p) j := by
  rw [AtReset, rd_resetRegs]
  split
  · rfl
  · exact h

theorem atReset_resetRegs {p : Nat → Bool} (hp : p j = true) (s : State) : AtReset (Machine.resetRegs s p) j := by
  rw [AtReset, rd_resetRegs, if_pos hp]

theorem AtReset.of_regs (h : AtReset s j) (hregs : t.regs = s.regs) : AtReset t j := (rd_of_regs hregs j).trans h

theorem AtReset.setB (h : AtReset s j) {f : Field} (hf : j ≠ f.reg) (b : Bool) : AtReset (setB s f b) j := (rd_setB_ne _ _ _ _ hf).trans h

theorem AtReset.wr (h : AtReset s j) {i : Nat} (hi : j ≠ i) (v : Word) : AtReset (wr s i v) j := (rd_wr_ne _ _ _ _ hi).trans h

theorem fjlReset_regs (s : State) (r : Nat) : (fjlReset s r).regs = (Machine.resetRegs s fun i => decide (i / 256 = 0x14 + r)).regs := rfl

theorem cleReset_regs (s : State) : (cleReset s).regs = (Machine.resetRegs s fun i => decide (0x1800 ≤ i ∧ i < 0x1C00)).regs := rfl

theorem pwmReset_regs (s : State) : (pwmReset s).regs = (Machine.resetRegs s fun i => decide (0x1C00 ≤ i ∧ i < 0x2000)).regs := rfl

theorem encReset_regs (s : State) : (encReset s).regs = (Machine.resetRegs s fun i => decide (i / 256 = 0x20 ∨ i / 256 = 0x21)).regs := rfl

theorem canReset_regs (s : State) (x : Nat) : (canReset s x).regs = (Machine.resetRegs s fun i => decide (i / 256 = 0x2C + x)).regs := by
  unfold canReset
  extract_lets s1 rows s2
  refine List.foldlRecOn (motive := fun u : State => u.regs = s1.regs) rows _ rfl fun u hu r _ => ?_
  exact List.foldlRecOn (motive := fun u : State => u.regs = s1.regs) (List.range 64) _ ((tput_regs ..).trans hu) fun v hv c _ => (tput_regs ..).trans hv

theorem AtReset.ethReset (h : AtReset s j) (hj : j ≠ ETH_BYP_STAT) : AtReset (ethReset s) j := by
  unfold Machine.ethReset
  extract_lets sense at_ coil s1 e
  have h1 : AtReset s1 j := h.resetRegs _
  exact AtReset.setB (f := ETH_BYP_STAT_SENSE) (h1.of_regs (t := { s1 with eth := e }) rfl) hj _

/-- The blocks from the rings on leave a register at its reset value there. -/
theorem AtReset.blockReset (h : AtReset s j) (hj : j ≠ ETH_BYP_STAT) {k : Nat} (hk : 5 ≤ k) : AtReset (blockReset s k) j := by
  unfold Machine.blockReset
  split
  · omega
  · omega
  · omega
  · omega
  · omega
  · exact (h.resetRegs _).of_regs (fjlReset_regs s 0)
  · exact (h.resetRegs _).of_regs (fjlReset_regs s 1)
  · exact (h.resetRegs _).of_regs (cleReset_regs s)
  · exact (h.resetRegs _).of_regs (pwmReset_regs s)
  · exact (h.resetRegs _).of_regs (encReset_regs s)
  · exact h.ethReset hj
  · exact (h.resetRegs _).of_regs (canReset_regs s 0)
  · exact (h.resetRegs _).of_regs (canReset_regs s 1)
  · exact (h.resetRegs _).of_regs (canReset_regs s 2)
  · exact (h.resetRegs _).of_regs (canReset_regs s 3)
  · exact h

theorem AtReset.blocks (h : AtReset s j) (hj : j ≠ ETH_BYP_STAT) {l : List Nat} (hl : ∀ k ∈ l, 5 ≤ k) : AtReset (l.foldl Machine.blockReset s) j :=
  List.foldlRecOn (motive := fun u : State => AtReset u j) l _ h fun _ hu k hk => hu.blockReset hj (hl k hk)

theorem drvReset_atReset (s : State) : AtReset (Machine.blockReset s 4) DRV_CTRL := by
  change AtReset (drvReset s) DRV_CTRL
  unfold drvReset
  extract_lets s1 _ s2 s3
  have h1 : AtReset s1 DRV_CTRL := atReset_resetRegs (by decide) s
  have h2 : AtReset s2 DRV_CTRL := h1.of_regs (t := s2) rfl
  have h3 : AtReset s3 DRV_CTRL := AtReset.setB (AtReset.setB (AtReset.setB h2 (by decide) _) (by decide) _) (by decide) _
  exact List.foldlRecOn (motive := fun u : State => AtReset u DRV_CTRL) drvChans _ h3 fun u hu c _ => hu.of_regs (t := setProt u c 1) rfl

theorem cleReset_atReset (s : State) : AtReset (Machine.blockReset s 7) CLE_CTRL :=
  (atReset_resetRegs (j := CLE_CTRL) (p := fun i => decide (0x1800 ≤ i ∧ i < 0x1C00)) (by decide) s).of_regs (cleReset_regs s)

theorem blocksReset_drvCtrl (s : State) : AtReset (blocksReset s) DRV_CTRL := by
  rw [blocksReset_append (l := [0, 1, 2, 3]) (m := 4 :: [5, 6, 7, 8, 9, 10, 16, 17, 18, 19]) rfl, List.foldl_cons]
  exact (drvReset_atReset _).blocks (by decide) (by decide)

theorem blocksReset_cleCtrl (s : State) : AtReset (blocksReset s) CLE_CTRL := by
  rw [blocksReset_append (l := [0, 1, 2, 3, 4, 5, 6]) (m := 7 :: [8, 9, 10, 16, 17, 18, 19]) rfl, List.foldl_cons]
  exact (cleReset_atReset _).blocks (by decide) (by decide)

end Registers

/-! ### The data path (R449) -/

section Data

variable (s : State) (t : Nat)

theorem timReset_same (s : State) : Keeps (· ∈ [Part.regs, .tim]) s (timReset s) := timReset_keeps s (fun _ hp => hp) (.refl _ _)

theorem timReset_regs (s : State) : (timReset s).regs =
    (resetRegs s fun i => decide (i / 256 = 0x28) && !(inRange 0x2810 0x281F i || inRange 0x2850 0x285F i)).regs := by
  unfold timReset
  extract_lets keep s1 t s2
  exact List.foldlRecOn (motive := fun u : State => u.regs = s1.regs) [1, 2, 3] _ rfl fun u hu n _ => (modTb_regs ..).trans hu

theorem dataReset_blocks : (dataReset s t).now = 0 ∧ (dataReset s t).tables = [] ∧ (dataReset s t).kin = KinState.reset ∧
    (dataReset s t).drv = DrvState.reset ∧ (dataReset s t).pwm = [] ∧ (dataReset s t).cle = CleState.reset ∧ (dataReset s t).sys.running = false ∧
    ∀ j, AtReset (blocksReset { s with now := 0, tim := { s.tim with base := t } }) j → AtReset (dataReset s t) j := by
  unfold dataReset
  extract_lets _ s1 s2 s3 s4
  have h2 : s2 = blocksReset s1 := rfl
  clear_value s2
  have hsame : Keeps (· ∈ [Part.regs, .tim]) { s3 with tables := [], can := CanState.reset } s4 := timReset_same _
  have hnow : s2.now = 0 := h2 ▸ (blocksReset_keeps s1).same .now (by decide)
  have hkin : s2.kin = KinState.reset := h2 ▸ blocksReset_kin s1
  have hdrv : s2.drv = DrvState.reset := h2 ▸ blocksReset_drv s1
  have hpwm : s2.pwm = [] := h2 ▸ blocksReset_pwm s1
  have hcle : s2.cle = CleState.reset := h2 ▸ blocksReset_cle s1
  have hregs : ∀ j, AtReset s2 j → AtReset s4 j := fun j hj => by
    have hj3 : AtReset s3 j := AtReset.resetRegs hj _
    exact AtReset.of_regs (AtReset.resetRegs (hj3.of_regs (t := { s3 with tables := [], can := CanState.reset }) rfl) _) (timReset_regs _)
  have h3 : Keeps (· ∈ [Part.regs]) s2 s3 := resetRegs_keeps s2 _ (fun _ hp => hp) (.refl _ _)
  rw [← h2]
  clear_value s4 s3
  refine ⟨?_, ?_, ?_, ?_, ?_, ?_, rfl, fun j hj => (hregs j hj).of_regs rfl⟩
  · exact ((hsame.same .now (by decide)).trans (h3.same .now (by decide))).trans hnow
  · exact hsame.same .tables (by decide)
  · exact ((hsame.same .kin (by decide)).trans (h3.same .kin (by decide))).trans hkin
  · exact ((hsame.same .drv (by decide)).trans (h3.same .drv (by decide))).trans hdrv
  · exact ((hsame.same .pwm (by decide)).trans (h3.same .pwm (by decide))).trans hpwm
  · exact ((hsame.same .cle (by decide)).trans (h3.same .cle (by decide))).trans hcle

theorem dataReset_same : Keeps (· ∈ [Part.regs, .tables, .kin, .sys, .sch, .map, .act, .drv, .fjl, .pwm, .cle, .enc, .tim, .eth, .can, .now]) s (dataReset s t) :=
  dataReset_keeps s t (fun _ hp => hp) (.refl _ _)

end Data

/-! ### A device reset (R448, R449) -/

section Device

variable (s : State) (t k : Nat)

theorem cutSave_regs (s : State) : (cutSave s).regs = s.regs := by
  unfold cutSave
  split <;> rfl

/-- What a reset closes first: an update, a save and a freeze. -/
def closed (s : State) : State := endFreeze (cutSave (closeUpdate s))

theorem closed_same (s : State) : Keeps (· ∈ [Part.regs, .boot, .recd]) s (closed s) :=
  endFreeze_keeps _ (allows_of_subset (by decide)) (cutSave_keeps _ (allows_of_subset (by decide)) (closeUpdate_keeps s (allows_of_subset (by decide)) (.refl _ _)))

theorem regsBut_endFreeze (s : State) : regsBut s (endFreeze s) lossCounters := by
  unfold endFreeze
  split
  · exact regsBut_trans (regsBut_of_regs rfl _) (regsBut_recTake (modRec s fun r => { r with freeze := none }))
  · exact regsBut_refl _ _

theorem regsBut_closed (s : State) : regsBut s (closed s) ([SYS_BOOT, SYS_IMG 0, SYS_IMG 1] ++ lossCounters) := by
  refine regsBut_trans (regsBut_mono (Leases.regsBut_closeUpdate s) (by decide)) ?_
  exact regsBut_trans (regsBut_of_regs (cutSave_regs _) _) (regsBut_mono (regsBut_endFreeze _) (by decide))

theorem closed_log (s : State) : (closed s).recd.log = s.recd.log := by
  have hcut : Keeps (· ∈ [Part.regs, .boot]) s (cutSave (closeUpdate s)) :=
    cutSave_keeps _ (allows_of_subset (by decide)) (closeUpdate_keeps s (fun _ hp => hp) (.refl _ _))
  have hrecd : (cutSave (closeUpdate s)).recd = s.recd := hcut.same .recd (by decide)
  have hend : (closed s).recd.log = (cutSave (closeUpdate s)).recd.log := (sameButQueue_log (sameButQueue_endFreeze _)).trans rfl
  rw [hend, hrecd]

/-- Closing an update touches its image only. -/
theorem closeUpdate_boot (s : State) : (closeUpdate s).boot.banks = s.boot.banks ∧ (closeUpdate s).boot.saving = s.boot.saving ∧
    (closeUpdate s).boot.preferred = s.boot.preferred ∧ (s.boot.update = none → (closeUpdate s).boot.images = s.boot.images) := by
  unfold closeUpdate
  split
  next u hu =>
    have hboot : (showUpdate (modBoot (setImage s u.image ImageRec.empty) fun b => { b with update := none })).boot =
        { (setImage s u.image ImageRec.empty).boot with update := none } := rfl
    rw [hboot, setImage_boot]
    exact ⟨rfl, rfl, rfl, fun h => absurd hu (by simp [h])⟩
  · exact ⟨rfl, rfl, rfl, fun _ => rfl⟩

/-- Cutting a save off touches its bank only. -/
theorem cutSave_boot (s : State) : (cutSave s).boot.images = s.boot.images ∧ (cutSave s).boot.preferred = s.boot.preferred ∧
    (s.boot.saving = none → (cutSave s).boot.banks = s.boot.banks) := by
  unfold cutSave
  split
  next x hx => exact ⟨rfl, rfl, fun h => absurd hx (by simp [h])⟩
  · exact ⟨rfl, rfl, fun _ => rfl⟩

/-- Without an update or a save that is open, the persistent store stands. -/
theorem closed_boot (s : State) : (s.boot.update = none → (closed s).boot.images = s.boot.images) ∧ (s.boot.saving = none → (closed s).boot.banks = s.boot.banks) ∧
    (closed s).boot.preferred = s.boot.preferred := by
  have hboot : (closed s).boot = (cutSave (closeUpdate s)).boot :=
    (endFreeze_keeps (cutSave (closeUpdate s)) (R := (· ∈ [Part.regs, .recd])) (fun _ hp => hp) (.refl _ _)).same .boot (by decide)
  obtain ⟨hbanks, hsaving, hpref, himages⟩ := closeUpdate_boot s
  obtain ⟨himages', hpref', hbanks'⟩ := cutSave_boot (closeUpdate s)
  rw [hboot]
  exact ⟨fun h => himages'.trans (himages h), fun h => (hbanks' (hsaving.trans h)).trans hbanks, hpref'.trans hpref⟩

/-- The rest of the part as a device reset leaves it. -/
structure Reset (s t : State) (k : Nat) : Prop where
  begun : resetBegun s t k
  stat : rd t CLK_STAT = rd s CLK_STAT &&& clkLive
  marks : t.mon.borMark = s.mon.borMark ∧ t.mon.tsdMark = s.mon.tsdMark
  low : ∀ j < 0x300, AtReset t j
  enables : AtReset t DRV_CTRL ∧ AtReset t CLE_CTRL
  images : s.boot.update = none → t.boot.images = s.boot.images
  banks : s.boot.saving = none → t.boot.banks = s.boot.banks
  preferred : t.boot.preferred = s.boot.preferred

theorem deviceReset_reset (hk : k < 32) : Reset s (deviceReset s t k) k := by
  unfold deviceReset
  extract_lets st _ s1 s2 cause live s3 keep s4 s5 s6 _ s7
  have h2 : s2 = closed s1 := rfl
  have hsame : Keeps (· ∈ [Part.regs, .boot, .recd]) s1 s2 := closed_same s1
  have hlog : s2.recd.log = s.recd.log := closed_log s1
  have hpend : s2.pending = s.pending := hsame.pending
  have hmon : s2.mon = s.mon := hsame.same .mon (by decide)
  have hrd : regsBut s s2 ([SYS_BOOT, SYS_IMG 0, SYS_IMG 1] ++ lossCounters) := regsBut_closed s1
  obtain ⟨himages, hbanks, hpref⟩ := closed_boot s1
  rw [← h2] at himages hbanks hpref
  clear_value s2
  obtain ⟨hnow, htables, hkin, hdrv, hpwm, hcle, hrun, hreset⟩ := dataReset_blocks s2 (absTick s2 t)
  have hdata := dataReset_same s2 (absTick s2 t)
  have hctrl : AtReset s3 DRV_CTRL ∧ AtReset s3 CLE_CTRL := ⟨hreset _ (blocksReset_drvCtrl _), hreset _ (blocksReset_cleCtrl _)⟩
  clear hreset
  have h3 : s3 = dataReset s2 (absTick s2 t) := rfl
  rw [← h3] at hnow htables hkin hdrv hpwm hcle hrun hdata
  clear_value s3
  have hcause : rd s5 CLK_RST_CAUSE = cause := by rw [rd_wr_ne _ _ _ _ (by decide), rd_wr_self]
  have hcause0 : cause = rd s CLK_RST_CAUSE ||| BitVec.ofNat 32 (2 ^ k) := congrArg (· ||| BitVec.ofNat 32 (2 ^ k)) (hrd _ (by decide))
  have hstat : rd s5 CLK_STAT = rd s CLK_STAT &&& clkLive := (rd_wr_self ..).trans (congrArg (· &&& clkLive) (hrd _ (by decide)))
  have h5 : ∀ j, j ≠ CLK_RST_CAUSE → j ≠ CLK_STAT → AtReset s4 j → AtReset s5 j := fun j hc hs h => (h.wr hc _).wr hs _
  have hfin : ∀ j, rd (modBoot s7 fun b => { b with running := 0, nextMode := 0, trips := [], lastSave := none, restart := false, second := false, causeBits := b.causeBits ||| 2 ^ k }) j = rd s5 j := fun j => rfl
  refine ⟨?_, (hfin _).trans hstat, ?_, fun j hj => (hfin j).trans (h5 j ?_ ?_ (atReset_resetRegs ?_ _)), ?_, ?_, ?_, ?_⟩
  · refine ⟨rfl, rfl, hrun, ?_, hnow, rfl, ?_, fun j hj hbit => ?_, hdrv, hpwm, hcle, hkin, htables, ?_, hdata.pending.trans hpend⟩
    · exact (Nat.testBit_or ..).trans (by rw [Nat.testBit_two_pow_self, Bool.or_true])
    · rw [hfin, hcause, hcause0, BitVec.getLsbD_or, BitVec.getLsbD_ofNat, Nat.testBit_two_pow_self]
      simp [hk]
    · rw [hfin, hcause, hcause0, BitVec.getLsbD_or, hbit, Bool.true_or]
    · exact (congrArg RecState.log (hdata.same .recd (by decide))).trans hlog
  · have hmon3 : s3.mon = s.mon := (hdata.same .mon (by decide)).trans hmon
    change s3.mon.borMark = _ ∧ s3.mon.tsdMark = _
    rw [hmon3]
    exact ⟨rfl, rfl⟩
  · unfold CLK_RST_CAUSE
    omega
  · unfold CLK_STAT
    omega
  · simp [hj]
  · exact ⟨(hfin _).trans (h5 _ (by decide) (by decide) (hctrl.1.resetRegs _)), (hfin _).trans (h5 _ (by decide) (by decide) (hctrl.2.resetRegs _))⟩
  · exact fun h => (congrArg BootState.images (hdata.same .boot (by decide))).trans (himages h)
  · exact fun h => (congrArg BootState.banks (hdata.same .boot (by decide))).trans (hbanks h)
  · exact (congrArg BootState.preferred (hdata.same .boot (by decide))).trans hpref

end Device

end Sys2Proof.DeviceResets
end

section
/-!
O56: SYS_RESET and FW_ACTIVATE reset the device where every enable is off, and are refused otherwise (R459 to R462, R468).
-/
namespace Sys2Proof.DeviceResets

open Sys2Proof Sys2Proof.Machine Sys2Proof.Mailbox Sys2Proof.Recorder Sys2Proof.Frame Sys2Proof.Firmware

section Commands

variable {s u : State} {h mode : Nat}

/-- A device reset after which the next start-up takes `mode`. -/
def restarted (u : State) (mode h : Nat) : State :=
  { modBoot u fun b => { b with nextMode := mode, testSlot := h } with sys := { u.sys with atBoundary := false } }

/-- A command that answers nothing leaves what it did. -/
theorem completed_silent {o : CmdOut} (hok : o.r.status = stOk) (hsilent : o.silent = true) :
    completed s h o = { o.r.s with sys := { o.r.s.sys with atBoundary := false } } := by
  have hrespond : ∀ w, respond o.r.s h (front s h) o w = o.r.s := fun w => by
    unfold respond
    exact if_pos ⟨hok, hsilent⟩
  rw [completed, hrespond]

/-- Its refusal is answered like any other. -/
theorem completed_refused {r : Reply} (hr : r.status ≠ stOk) : completed s h { r := r, wait := none, silent := true } = completed s h (plain r) := by
  have hrespond : ∀ w, respond r.s h (front s h) { r := r, wait := none, silent := true } w = respond r.s h (front s h) (plain r) w := fun w => by
    have hne : ∀ b : Prop, ¬ (r.status = stOk ∧ b) := fun _ hb => hr hb.1
    unfold respond
    exact (if_neg (hne _)).trans (if_neg (hne _)).symm
  rw [completed, completed, hrespond]
  rfl

/-- A software reset of a command that has begun. -/
theorem completed_softReset (v : State) : ∃ u, Reset v u 5 ∧
    completed s h { r := { s := softReset v mode h, status := stOk, body := [] }, wait := none, silent := true } = restarted u mode h :=
  ⟨_, deviceReset_reset v _ 5 (by decide), completed_silent rfl rfl⟩

theorem Reset.log_eq {k : Nat} (hu : Reset s u k) : u.recd.log = s.recd.log := by
  obtain ⟨-, -, -, -, -, -, -, -, -, -, -, -, -, hlog, -⟩ := hu.begun
  exact hlog

/-- The device has been reset by software. -/
theorem Reset.software (hu : Reset s u 5) (mode h : Nat) : softwareReset (restarted u mode h) := by
  obtain ⟨hin, -, hrun, hsources, -, hhif, -⟩ := hu.begun
  have hrd : ∀ j, rd (restarted u mode h) j = rd u j := fun j => rfl
  refine ⟨hin, hrun, hsources, fun g hg => ⟨?_, ?_⟩, ?_, ?_⟩
  · have hstat : rd u (HIF_H_STAT g) = regReset (HIF_H_STAT g) := hu.low _ (by unfold HIF_H_STAT; omega)
    have hreset : ∀ g < 4, bitsOf (regReset (HIF_H_STAT g)) 0 0 = 0 := by decide
    exact decide_eq_false (not_not_intro ((congrArg (bitsOf · 0 0) ((hrd _).trans hstat)).trans (hreset g hg)))
  · change (slotOf u g).ring = []
    rw [slotOf, hhif]
    rfl
  · exact decide_eq_false (not_not_intro ((congrArg (bitsOf · 0 0) ((hrd _).trans hu.enables.1)).trans (by decide)))
  · exact decide_eq_false (not_not_intro ((congrArg (bitsOf · 0 0) ((hrd _).trans hu.enables.2)).trans (by decide)))

/-- Where an enable is on, such a command is refused and leaves the rest. -/
theorem wrong_completed (s : State) (h : Nat) :
    let t := completed s h { r := refuse (begun s h) stWrong, wait := none, silent := true }
    responded s t h stWrong [] ∧ t.boot = s.boot ∧ regsBut s t [HIF_H_CNT_REJ h] ∧ otherSlots s t h ∧ partsBut s t [.regs, .sys, .hif] := by
  intro t
  have ht : t = completed s h (plain (refuse (begun s h) stWrong)) := completed_refused (r := refuse (begun s h) stWrong) (show stWrong ≠ stOk by decide)
  rw [ht]
  refine ⟨completed_responded s h rfl rfl rfl, ?_, regsBut_completed s h rfl, otherSlots_completed rfl (otherSlots_of_hif rfl), ?_⟩
  · exact samePart_completed (p := .boot) _ (by decide)
  · exact partsBut_completed (l := []) _ (.refl _ _)

theorem sysReset_permitted (howner : ownerOrService s h = true) (hpad : leAt (req s h) 1 3 = 0)
    (hmode : leAt (req s h) 0 1 = 0 ∨ ((leAt (req s h) 0 1 = 2 ∨ leAt (req s h) 0 1 = 3) ∧ roleOf s h = 3)) :
    Machine.sysReset (begun s h) h (req s h) = if mayReset s = true then
      { s := softReset (begun s h) (leAt (req s h) 0 1) h, status := stOk, body := [] } else refuse (begun s h) stWrong := by
  have howner' : ownerOrService (begun s h) h = true := howner
  have hrole : roleOf (begun s h) h = roleOf s h := rfl
  have hmay : mayReset (begun s h) = mayReset s := rfl
  have hlease : (!ownerOrService (begun s h) h || (decide (leAt (req s h) 0 1 = 2 ∨ leAt (req s h) 0 1 = 3) && decide (roleOf (begun s h) h ≠ 3))) = false := by
    rw [howner', hrole]
    obtain h0 | ⟨-, h3⟩ := hmode
    · simp [h0]
    · simp [h3]
  have hform : (!(decide (leAt (req s h) 0 1 = 0 ∨ leAt (req s h) 0 1 = 2 ∨ leAt (req s h) 0 1 = 3) && decide (leAt (req s h) 1 3 = 0))) = false := by
    obtain h0 | ⟨h2 | h3, -⟩ := hmode
    · simp [h0, hpad]
    · simp [h2, hpad]
    · simp [h3, hpad]
  simp only [Machine.sysReset, hlease, hform, hmay, Bool.false_eq_true, if_false]
  cases mayReset s <;> rfl

/-- The image of the request is preferred from now on, an UNTESTED one as a TRIAL. -/
def chosen (s : State) (h : Nat) : State :=
  modBoot (if imageState s (leAt (req s h) 0 1) = imUntested then
      modBoot (setImageState (begun s h) (leAt (req s h) 0 1) imTrial) fun b => { b with trialRan := false } else begun s h)
    fun b => { b with preferred := leAt (req s h) 0 1 }

theorem chosen_update (s : State) (h : Nat) : (chosen s h).boot.update = s.boot.update := by
  unfold chosen
  split <;> rfl

theorem chosen_images (hi : leAt (req s h) 0 1 < 2) (hstate : imageState s (leAt (req s h) 0 1) = imUntested ∨ imageState s (leAt (req s h) 0 1) = imValid) :
    imageAt (chosen s h) (1 - leAt (req s h) 0 1) = imageAt s (1 - leAt (req s h) 0 1) ∧
    imageState (chosen s h) (leAt (req s h) 0 1) = if imageState s (leAt (req s h) 0 1) = imUntested then imTrial else imValid := by
  by_cases hu : imageState s (leAt (req s h) 0 1) = imUntested
  · have himages : (chosen s h).boot.images = (setImageState (begun s h) (leAt (req s h) 0 1) imTrial).boot.images := by
      rw [chosen, if_pos hu]
      rfl
    rw [if_pos hu, imageAt_of_images himages, Startup.imageState_of_images himages, Startup.imageState_setImageState]
    exact ⟨imageAt_setImage_ne (begun s h) _ (by omega), rfl⟩
  · have himages : (chosen s h).boot.images = s.boot.images := by
      rw [chosen, if_neg hu]
      rfl
    rw [if_neg hu, imageAt_of_images himages, Startup.imageState_of_images himages]
    exact ⟨rfl, hstate.resolve_left hu⟩

theorem fwActivate_permitted (howner : ownerOrService s h = true) (hi : leAt (req s h) 0 1 < 2) (hpad : leAt (req s h) 1 3 = 0)
    (hstate : imageState s (leAt (req s h) 0 1) = imUntested ∨ imageState s (leAt (req s h) 0 1) = imValid) :
    Machine.fwActivate (begun s h) h (req s h) = if mayReset s = true then
      { s := softReset (chosen s h) 0 h, status := stOk, body := [] } else refuse (begun s h) stWrong := by
  have howner' : ownerOrService (begun s h) h = true := howner
  have hmay : mayReset (begun s h) = mayReset s := rfl
  have hstate' : imageState (begun s h) (leAt (req s h) 0 1) = imageState s (leAt (req s h) 0 1) := rfl
  simp only [Machine.fwActivate, howner', hi, hpad, hmay, hstate', hstate]
  cases mayReset s <;> rfl

end Commands

/-- Settles O56: where every enable is off both commands end in one device reset with the software cause, which takes the hosts, the
enables and the data path to their reset values and leaves the log and the persistent store; otherwise both are refused. -/
theorem resetsByCommand : Obligations.ResetsByCommand := by
  unfold Obligations.ResetsByCommand
  refine ⟨fun s h hs howner hpad hmode => ⟨fun hmay => ?_, fun hmay => ?_⟩, fun s h hs howner hi hpad hstate => ⟨fun hmay => ?_, fun hmay => ?_⟩⟩
  · have hrun := sysReset_permitted howner hpad hmode
    rw [if_pos hmay] at hrun
    refine answers_of_kind hs (isCode_front hs) rfl (congrArg (fun r => CmdOut.mk r none true) hrun) ?_
    obtain ⟨u, hu, heq⟩ := completed_softReset (s := s) (h := h) (mode := leAt (req s h) 0 1) (begun s h)
    rw [heq]
    exact ⟨hu.software _ h, rfl, hu.preferred, hu.log_eq, hu.images, hu.banks⟩
  · have hrun := sysReset_permitted howner hpad hmode
    rw [if_neg (by simp [hmay])] at hrun
    refine answers_of_kind hs (isCode_front hs) rfl (congrArg (fun r => CmdOut.mk r none true) hrun) ?_
    obtain ⟨hresp, -, hregs, hslots, hparts⟩ := wrong_completed s h
    exact ⟨hresp, hregs, hslots, hparts⟩
  · have hrun := fwActivate_permitted howner hi hpad hstate
    rw [if_pos hmay] at hrun
    refine answers_of_kind hs (isCode_front hs) rfl (congrArg (fun r => CmdOut.mk r none true) hrun) ?_
    obtain ⟨u, hu, heq⟩ := completed_softReset (s := s) (h := h) (mode := 0) (chosen s h)
    rw [heq]
    refine ⟨hu.software _ h, hu.preferred, rfl, fun hnone => ?_⟩
    have himages := hu.images ((chosen_update s h).trans hnone)
    obtain ⟨hother, hsame⟩ := chosen_images hi hstate
    exact ⟨(imageAt_of_images himages _).trans hother, (Startup.imageState_of_images himages _).trans hsame⟩
  · have hrun := fwActivate_permitted howner hi hpad hstate
    rw [if_neg (by simp [hmay])] at hrun
    refine answers_of_kind hs (isCode_front hs) rfl (congrArg (fun r => CmdOut.mk r none true) hrun) ?_
    exact wrong_completed s h

end Sys2Proof.DeviceResets
end

section
/-!
Device resets by pins, monitors and clocks (R428, R442, R443, R448), for O40.
-/
namespace Sys2Proof.DeviceResets

open Sys2Proof Sys2Proof.Machine Sys2Proof.Mailbox Sys2Proof.Recorder Sys2Proof.Frame Sys2Proof.Firmware Sys2Proof.GnssSlots

section Begun

variable {s v t : State} {k t₀ : Nat}

/-- What a reset that was noted in `v` says of the state before. -/
theorem resetBegun_of (h : resetBegun v t k) (hcause : rd v CLK_RST_CAUSE = rd s CLK_RST_CAUSE) (hlog : v.recd.log = s.recd.log) (hpend : v.pending = s.pending) :
    resetBegun s t k := by
  rw [resetBegun, hcause, hlog, hpend] at h
  exact h

theorem resetBegun_setB (h : resetBegun s t k) {f : Field} (hf : CLK_RST_CAUSE ≠ f.reg) (b : Bool) : resetBegun s (setB t f b) k := by
  have hrd : rd (setB t f b) CLK_RST_CAUSE = rd t CLK_RST_CAUSE := rd_setB_ne _ _ _ _ hf
  unfold resetBegun at h ⊢
  rw [hrd]
  exact h

/-- The loss of a clock is counted and recorded. -/
theorem clockLost_noted (s : State) (k : Nat) : regsBut s (clockLost s k) (CLK_CNT_UNLOCK :: lossCounters) ∧ (clockLost s k).recd.log = s.recd.log ∧
    Keeps (· ∈ [Part.regs, .recd]) s (clockLost s k) :=
  ⟨regsBut_trans (regsBut_bump (f := CLK_CNT_UNLOCK_CNT) (regsBut_refl _ _) List.mem_cons_self 1) (regsBut_mono (regsBut_record _ _ _ _) (List.subset_cons_self ..)),
    (sameButQueue_log (sameButQueue_record _ _ _ _)).trans rfl, clockLost_keeps s k (fun _ hp => hp) (.refl _ _)⟩

/-- A live bit of CLK_STAT stands in a reset. -/
theorem flag_stat_of_reset (h : Reset v t k) {x : Nat} (hx : x < 4) : flag t ⟨CLK_STAT, x, x⟩ = flag v ⟨CLK_STAT, x, x⟩ := by
  have hlive : ∀ x < 4, clkLive.getLsbD x = true := by decide
  rw [flag_bit, flag_bit, h.stat, BitVec.getLsbD_and, hlive x hx, Bool.and_true]

/-- A reset that follows the loss of a clock, whose flag is cleared. -/
theorem clockReset_begun (s : State) (n : Nat) {x : Nat} (hx : x < 4) (t₀ : Nat) :
    resetBegun s (deviceReset (setB (clockLost s n) ⟨CLK_STAT, x, x⟩ false) t₀ 4) 4 ∧
      flag (deviceReset (setB (clockLost s n) ⟨CLK_STAT, x, x⟩ false) t₀ 4) ⟨CLK_STAT, x, x⟩ = false := by
  have hreset := deviceReset_reset (setB (clockLost s n) ⟨CLK_STAT, x, x⟩ false) t₀ 4 (by decide)
  obtain ⟨hregs, hlog, hkeeps⟩ := clockLost_noted s n
  refine ⟨resetBegun_of hreset.begun ?_ hlog hkeeps.pending, ?_⟩
  · rw [rd_setB_ne _ _ _ _ (by simp)]
    exact hregs _ (by decide)
  · rw [flag_stat_of_reset hreset hx, flag_setB _ _ _ ⟨le_refl _, by simp only; omega⟩]

theorem tcxoMissing_begun (hstep : inThisStep s t₀ = true) (hpresent : flag s CLK_STAT_TCXO_OK = true) :
    answers (.tcxoMissing t₀) s fun t => resetBegun s t 4 ∧ flag t CLK_STAT_TCXO_OK = false := by
  refine answers_of_answer (t := deviceReset (setB (clockLost s 3) CLK_STAT_TCXO_OK false) t₀ 4) ?_ hstep (clockReset_begun s 3 (by decide) t₀)
  change answer _ (tcxoMissing s t₀) = _
  rw [tcxoMissing, if_pos hpresent]

theorem pllUnlock_data (hstep : inThisStep s t₀ = true) (hlock : flag s CLK_STAT_D_LOCK = true) :
    answers (.pllUnlock 0 t₀) s fun t => resetBegun s t 4 ∧ flag t CLK_STAT_D_LOCK = false ∧ flag t (unlockField 0) = true := by
  obtain ⟨hbegun, hflag⟩ := clockReset_begun s 0 (x := 0) (by decide) t₀
  refine answers_of_answer (ok := decide (0 < 3) && inThisStep s t₀) (t := setB (deviceReset (setB (clockLost s 0) CLK_STAT_D_LOCK false) t₀ 4) (unlockField 0) true)
    ?_ (by simp [hstep]) ⟨resetBegun_setB hbegun (by decide) true, ?_, flag_setB _ _ _ (by decide)⟩
  · change answer _ (pllUnlock s 0 t₀) = _
    have hlock' : (!flag s (lockField 0)) = false := by rw [Bool.not_eq_false']; exact hlock
    rw [pllUnlock, hlock', if_neg (by decide), if_pos rfl]
    rfl
  · rw [flag_setB_apart (by decide)]
    exact hflag

theorem resetN_begun (hstep : inThisStep s t₀ = true) : (∀ ns, 10000 ≤ ns → answers (.resetN t₀ ns) s fun t => resetBegun s t 1) ∧
    ∀ ns, ns < 1000 → answers (.resetN t₀ ns) s fun t => t = s := by
  refine ⟨fun ns hns => answers_of_answer (t := deviceReset s t₀ 1) ?_ hstep (deviceReset_reset s t₀ 1 (by decide)).begun,
    fun ns hns => answers_of_answer (t := s) ?_ hstep rfl⟩
  · change answer _ (resetPulse s t₀ ns) = _
    rw [resetPulse, if_neg (by omega), if_pos hns]
  · change answer _ (resetPulse s t₀ ns) = _
    rw [resetPulse, if_pos hns]

theorem brownOut_begun (hstep : inThisStep s t₀ = true) {i : Nat} (hi : i = 0 ∨ i = 2 ∨ i = 3) :
    answers (.brownOut i t₀) s fun t => resetBegun s t 2 ∧ t.mon.borMark = some (i, rd s REC_OPSEC) := by
  have hreset := deviceReset_reset (modMon s fun x => { x with borMark := some (i, rd s REC_OPSEC) }) t₀ 2 (by decide)
  exact answers_of_answer (t := brownOut s i t₀) rfl (by simp [hi, hstep]) ⟨resetBegun_of hreset.begun rfl rfl rfl, hreset.marks.1⟩

theorem thermalShutdown_begun (hstep : inThisStep s t₀ = true) {i : Nat} (hi : i < 6) :
    answers (.thermalShutdown i t₀) s fun t => resetBegun s t 3 ∧ t.mon.tsdMark = some (i, rd s REC_OPSEC) := by
  have hreset := deviceReset_reset (modMon s fun x => { x with tsdMark := some (i, rd s REC_OPSEC) }) t₀ 3 (by decide)
  exact answers_of_answer (t := thermalShutdown s i t₀) rfl (by simp [hi, hstep]) ⟨resetBegun_of hreset.begun rfl rfl rfl, hreset.marks.2⟩

end Begun

/-! ### The other PLLs (R443) -/

section Locks

variable {s : State} {t₀ : Nat}

theorem pllLock_processors (hstep : inThisStep s t₀ = true) : answers (.pllLock 1 t₀) s fun t =>
    flag t CLK_STAT_P_LOCK = true ∧ t.sys = { s.sys with pllPHold := false } ∧ regsBut s t [CLK_STAT] ∧ partsBut s t [.regs, .sys] := by
  let t : State := { setB s CLK_STAT_P_LOCK true with sys := { s.sys with pllPHold := false } }
  have hkeeps : Keeps (· ∈ [Part.regs, .sys]) s t :=
    Keeps.put_sys (by decide) (setB_keeps s _ _ (allows_of_subset (by decide)) (.refl _ _))
  refine answers_of_answer (ok := decide (1 < 3) && inThisStep s t₀) (t := t) rfl (by simp [hstep]) ⟨?_, rfl, ?_, partsBut_of_keeps hkeeps⟩
  · exact flag_setB s CLK_STAT_P_LOCK true (by decide)
  · exact regsBut_trans (regsBut_setB (f := CLK_STAT_P_LOCK) (regsBut_refl _ _) (by decide) true) (regsBut_of_regs rfl _)

theorem pllLock_gnss (hstep : inThisStep s t₀ = true) : answers (.pllLock 2 t₀) s fun t =>
    flag t CLK_STAT_G_LOCK = true ∧ regsBut s t [CLK_STAT] ∧ partsBut s t [.regs] := by
  refine answers_of_answer (ok := decide (2 < 3) && inThisStep s t₀) (t := setB s CLK_STAT_G_LOCK true) rfl (by simp [hstep]) ⟨flag_setB _ _ _ (by decide), ?_, ?_⟩
  · exact regsBut_setB (f := CLK_STAT_G_LOCK) (regsBut_refl _ _) (by decide) true
  · exact partsBut_of_keeps (setB_keeps s _ _ (fun _ hp => hp) (.refl _ _))

/-- The state in which the loss of lock of a PLL other than PLL_D has been shown. -/
def lockLost (s : State) (k : Nat) : State := setB (setB (clockLost s k) (lockField k) false) (unlockField k) true

theorem lockLost_shown (s : State) {k : Nat} (hk : k < 3) : flag (lockLost s k) (lockField k) = false ∧ flag (lockLost s k) (unlockField k) = true ∧
    Keeps (· ∈ [Part.regs, .recd]) s (lockLost s k) := by
  refine ⟨?_, flag_setB _ _ _ ⟨le_refl _, by change k + 4 < 32; omega⟩, ?_⟩
  · have hapart : ∀ k < 3, Apart (unlockField k) (lockField k) := by decide
    rw [lockLost, flag_setB_apart (hapart k hk), flag_setB _ _ _ ⟨le_refl _, by change k < 32; omega⟩]
  · exact setB_keeps _ _ _ (allows_of_subset (by decide)) (setB_keeps _ _ _ (allows_of_subset (by decide)) (clockLost_noted s k).2.2)

theorem pllUnlock_of_lock {k : Nat} (hlock : flag s (lockField k) = true) (hk : k ≠ 0) (t : Nat) : pllUnlock s k t =
    if k = 1 then
      { (if processorsRun (lockLost s k) then supervisionTrip (lockLost s k) t false else lockLost s k) with
        sys := { (if processorsRun (lockLost s k) then supervisionTrip (lockLost s k) t false else lockLost s k).sys with pllPHold := true } }
    else gnssClockLost (lockLost s k) (absTick (lockLost s k) t) := by
  rw [pllUnlock, hlock, Bool.not_true, if_neg (by decide), if_neg hk]
  rfl

theorem pllUnlock_processors (hstep : inThisStep s t₀ = true) (hlock : flag s CLK_STAT_P_LOCK = true) : answers (.pllUnlock 1 t₀) s fun t =>
    t.sys.pllPHold = true ∧ flag t CLK_STAT_P_LOCK = false ∧ flag t (unlockField 1) = true ∧
      (s.sys.inReset = false → s.sys.phase ≠ .loading → t.sys.phase = .held) := by
  obtain ⟨hoff, hsticky, hkeeps⟩ := lockLost_shown s (k := 1) (by decide)
  have hsys : (lockLost s 1).sys = s.sys := hkeeps.same .sys (by decide)
  refine answers_of_answer (ok := decide (1 < 3) && inThisStep s t₀) (t := pllUnlock s 1 t₀) rfl (by simp [hstep]) ?_
  rw [pllUnlock_of_lock hlock (by decide), if_pos rfl]
  by_cases hrun : processorsRun (lockLost s 1) = true
  · rw [if_pos hrun]
    have hstat : rd (supervisionTrip (lockLost s 1) t₀ false) CLK_STAT = rd (lockLost s 1) CLK_STAT := by
      rw [ForcedStops.supervisionTrip_rd _ _ _ (by unfold Leases.far; decide) (by unfold Leases.hostWord; decide), ForcedStops.rd_tripRecorded _ _ _ (by decide) (by decide)]
    have hphase := (ForcedStops.supervisionTrip_sys (lockLost s 1) t₀ false).phase
    exact ⟨rfl, (flag_congr (f := CLK_STAT_P_LOCK) hstat).trans hoff, (flag_congr (f := unlockField 1) hstat).trans hsticky, fun _ _ => hphase⟩
  · rw [if_neg hrun]
    refine ⟨rfl, hoff, hsticky, fun hin hload => ?_⟩
    rw [processorsRun, hsys, hin] at hrun
    exact hsys ▸ by simpa [hload] using hrun

/-- The state of a slot after PLL_G has lost lock. -/
def unlocked (st : Nat) : Nat := if st = gsPullin ∨ st = gsTrack then gsLost else st

/-- One slot takes the loss of PLL_G. -/
def slotUnlock (t : Nat) (s : State) (i : Nat) : State :=
  if (gnsAt s i).state = gsPullin ∨ (gnsAt s i).state = gsTrack then
    bump (modGns s i fun g => { g with state := gsLost, lostAt := t, passed := true, confirm := false }) GNS_CNT_LOSS_CNT
  else s

theorem slotUnlock_spec (t : Nat) (s : State) (i : Nat) : (gnsAt (slotUnlock t s i) i).state = unlocked (gnsAt s i).state ∧
    (∀ j, j ≠ i → gnsAt (slotUnlock t s i) j = gnsAt s j) ∧ regsBut s (slotUnlock t s i) [GNS_CNT_LOSS] := by
  by_cases h : (gnsAt s i).state = gsPullin ∨ (gnsAt s i).state = gsTrack
  · rw [slotUnlock, if_pos h, unlocked, if_pos h]
    refine ⟨?_, fun j hj => gnsAt_modGns_ne s _ hj, regsBut_bump_modGns s i _ GNS_CNT_LOSS_CNT⟩
    exact congrArg GnsSlot.state (gnsAt_modGns s i _)
  · rw [slotUnlock, if_neg h, unlocked, if_neg h]
    exact ⟨rfl, fun _ _ => rfl, regsBut_refl _ _⟩

theorem slotsUnlock_spec (t : Nat) (s : State) (n : Nat) :
    (∀ i < n, (gnsAt ((List.range n).foldl (slotUnlock t) s) i).state = unlocked (gnsAt s i).state) ∧
    (∀ i, n ≤ i → gnsAt ((List.range n).foldl (slotUnlock t) s) i = gnsAt s i) ∧ regsBut s ((List.range n).foldl (slotUnlock t) s) [GNS_CNT_LOSS] := by
  induction n with
  | zero => exact ⟨fun i hi => absurd hi (Nat.not_lt_zero i), fun _ _ => rfl, regsBut_refl _ _⟩
  | succ n ih =>
    obtain ⟨hlost, hrest, hregs⟩ := ih
    rw [List.range_succ, List.foldl_append, List.foldl_cons, List.foldl_nil]
    obtain ⟨hone, hothers, hcount⟩ := slotUnlock_spec t ((List.range n).foldl (slotUnlock t) s) n
    refine ⟨fun i hi => ?_, fun i hi => (hothers i (by omega)).trans (hrest i (by omega)), regsBut_trans hregs hcount⟩
    rcases Nat.lt_succ_iff_lt_or_eq.mp hi with hlt | heq
    · rw [hothers i (by omega), hlost i hlt]
    · rw [heq, hone, hrest n le_rfl]

theorem gnssLost_aside (s : State) : regsBut s (gnssLost s) [KIN_STAT] ∧ (gnssLost s).gns = s.gns := by
  refine ⟨?_, (gnssLost_keeps (R := (· ∈ [Part.regs, .kin])) s (fun _ hp => hp) (.refl _ _)).same .gns (by decide)⟩
  unfold gnssLost
  extract_lets c
  split
  · have hlatch : (latchLimit s c).regs = s.regs := by
      unfold latchLimit
      split <;> rfl
    have hset : regsBut (latchLimit s c) (setValidity (latchLimit s c) c) [KIN_STAT] :=
      regsBut_setB (f := KIN_STAT_MOTION_VALID) (regsBut_setB (f := KIN_STAT_POSE_VALID) (regsBut_setF (f := KIN_STAT_CLASS) (regsBut_refl _ _) (by decide) _) (by decide) _)
        (by decide) _
    exact regsBut_before hset hlatch
  · exact regsBut_refl _ _

theorem gnssClockLost_spec (s : State) (t : Nat) : (∀ i < 192, (gnsAt (gnssClockLost s t) i).state = unlocked (gnsAt s i).state) ∧
    rd (gnssClockLost s t) CLK_STAT = rd s CLK_STAT := by
  obtain ⟨hlost, -, hregs⟩ := slotsUnlock_spec t s 192
  unfold gnssClockLost
  extract_lets u
  have hu : u = (List.range 192).foldl (slotUnlock t) s := rfl
  rw [← hu] at hlost hregs
  clear_value u
  obtain ⟨hkin, hgns⟩ := gnssLost_aside { u with kin := { u.kin with watch := { u.kin.watch with gnssAge := u.kin.watch.gnssAge.map (max · (150 * stepsPerMs)) } } }
  refine ⟨fun i hi => ?_, (hkin _ (by decide)).trans (hregs _ (by decide))⟩
  rw [gnsAt, hgns]
  exact hlost i hi

theorem pllUnlock_gnss (hstep : inThisStep s t₀ = true) (hlock : flag s CLK_STAT_G_LOCK = true) : answers (.pllUnlock 2 t₀) s fun t =>
    flag t CLK_STAT_G_LOCK = false ∧ flag t (unlockField 2) = true ∧
      (∀ i < 192, (gnsAt t i).state = (if (gnsAt s i).state = gsPullin ∨ (gnsAt s i).state = gsTrack then gsLost else (gnsAt s i).state)) := by
  obtain ⟨hoff, hsticky, hkeeps⟩ := lockLost_shown s (k := 2) (by decide)
  have hgns : (lockLost s 2).gns = s.gns := hkeeps.same .gns (by decide)
  obtain ⟨hlost, hstat⟩ := gnssClockLost_spec (lockLost s 2) (absTick (lockLost s 2) t₀)
  refine answers_of_answer (ok := decide (2 < 3) && inThisStep s t₀) (t := pllUnlock s 2 t₀) rfl (by simp [hstep]) ?_
  rw [pllUnlock_of_lock hlock (by decide), if_neg (by decide)]
  refine ⟨(flag_congr (f := CLK_STAT_G_LOCK) hstat).trans hoff, (flag_congr (f := unlockField 2) hstat).trans hsticky, fun i hi => ?_⟩
  rw [hlost i hi, unlocked, gnsAt, hgns]
  rfl

end Locks

end Sys2Proof.DeviceResets
end

section
/-!
The ends of device resets, and power-up (R428, R449, R454, R458, R464, R465), for O40.
-/
namespace Sys2Proof.DeviceResets

open Sys2Proof Sys2Proof.Machine Sys2Proof.Mailbox Sys2Proof.Recorder Sys2Proof.Frame Sys2Proof.Firmware Sys2Proof.Startup

/-! ### The choice of an image (R454, R458, R464) -/

section Choice

variable {s : State}

/-- The boot record is read before an image is chosen. -/
def listed (s : State) : State := showImages (modBoot s fun b => { b with second := false })

theorem regsBut_showImages (s : State) : regsBut s (showImages s) [SYS_IMG 0, SYS_IMG 1] :=
  regsBut_foldl (fun i hi t ht => by
    have hreg : SYS_IMG i ∈ [SYS_IMG 0, SYS_IMG 1] := by
      obtain rfl | rfl : i = 0 ∨ i = 1 := by simpa using hi
      all_goals decide
    exact regsBut_setF (f := SYS_IMG_SVN i) (regsBut_setF (f := SYS_IMG_STATE i) ht hreg _) hreg _) (regsBut_refl _ _)

/-- A VALID preferred image is no trial that has ended. -/
theorem chooseImage_valid (hvalid : imageState s s.boot.preferred = imValid) : chooseImage s =
    if s.boot.bootSelLow then enterRecovery (listed s) 1
    else if s.boot.nextMode = 3 then enterRecovery (listed s) 3
    else tryImage (listed s) s.boot.preferred := by
  have hvalid' : imageState (listed s) s.boot.preferred = imValid := hvalid
  unfold chooseImage
  extract_lets u p trialEnded v
  have htrial : trialEnded = false := by
    change (decide (imageState (listed s) s.boot.preferred = imTrial) && (listed s).boot.trialRan) = false
    rw [hvalid']
    rfl
  have hv : v = listed s := by
    unfold v
    rw [htrial]
    rfl
  rw [hv, if_pos (show imageState (listed s) p = imTrial ∨ imageState (listed s) p = imValid from .inr hvalid')]
  rfl

/-- It is verified, unless recovery is asked for. -/
theorem chooseImage_verifies (hvalid : imageState s s.boot.preferred = imValid) (hlow : s.boot.bootSelLow = false) (hmode : s.boot.nextMode ≠ 3) :
    chooseImage s = tryImage (listed s) s.boot.preferred := by
  rw [chooseImage_valid hvalid, hlow, if_neg (by decide), if_neg hmode]

/-- With BOOT_SEL_N low recovery is entered. -/
theorem chooseImage_recovers (hlow : s.boot.bootSelLow = true) : (chooseImage s).sys = { s.sys with phase := .recovery, tripped := false } := by
  unfold chooseImage
  extract_lets u p trialEnded v
  have hv : v.boot.bootSelLow = true ∧ v.sys = s.sys := by
    unfold v
    split
    · refine ⟨?_, (keeps_record _ _ _ _).same .sys (by decide)⟩
      rw [rejectTrial, record_boot]
      exact hlow
    · exact ⟨hlow, rfl⟩
  rw [if_pos hv.1, enterRecovery_sys, hv.2]

end Choice

/-! ### The last source ends (R448, R449) -/

section Ends

variable {s : State} {t k : Nat}

theorem regsBut_markRecords (s : State) : regsBut s (markRecords s) (MON_FLT :: MON_IRQ :: tally) := by
  unfold markRecords
  extract_lets u v
  have hu : regsBut s u (MON_FLT :: MON_IRQ :: tally) := by
    unfold u
    split
    · exact regsBut_mono (regsBut_record _ _ _ _) (by decide)
    · exact regsBut_refl _ _
  have hv : regsBut u v (MON_FLT :: MON_IRQ :: tally) := by
    unfold v
    split
    next x _ =>
      refine regsBut_trans (regsBut_mono (regsBut_record u 0xD003 x.1 (leBytes 4 x.2.toNat)) (by decide)) ?_
      unfold monFault
      split
      · exact regsBut_refl _ _
      · exact regsBut_trans (regsBut_setB (f := MON_FLT_TSD) (regsBut_refl _ _) (by decide) _) (regsBut_mono (regsBut_raiseIrq _ _ _ _) (by decide))
    · exact regsBut_refl _ _
  exact regsBut_trans (regsBut_trans hu hv) (regsBut_of_regs rfl _)

theorem regsBut_showRequest (s : State) (mv : Nat) : regsBut s (showRequest s mv) [MON_AVS_STAT, MON_AGE] := by
  unfold showRequest
  extract_lets u
  have hu : regsBut s u [MON_AVS_STAT, MON_AGE] :=
    regsBut_setI (f := MON_AGE_VSHIFT) (regsBut_setF (f := MON_AVS_STAT_VREQ) (regsBut_refl _ _) (by decide) _) (by decide) _
  exact regsBut_trans hu (regsBut_of_regs (modMon_regs _ _) _)

theorem regsBut_monRestart (s : State) : regsBut s (monRestart s) [MON_STAT, MON_SLACK, MON_AGE, MON_AVS_STAT, MON_CNT_VREQ] := by
  unfold monRestart
  extract_lets x u v w
  have hw : regsBut s w [MON_STAT, MON_SLACK, MON_AGE, MON_AVS_STAT, MON_CNT_VREQ] :=
    regsBut_setF (f := MON_AGE_RO) (regsBut_setF (f := MON_SLACK_LIFE_MIN) (regsBut_setF (f := MON_STAT_G) (regsBut_refl _ _) (by decide) _) (by decide) _) (by decide) _
  clear_value w x
  have hreq := regsBut_trans hw (regsBut_mono (regsBut_showRequest w x.savedReq) (by decide))
  exact regsBut_bump (f := MON_CNT_VREQ_CNT) (regsBut_setB (f := MON_STAT_BUSY) hreq (by decide) _) (by decide) 1

/-- What the loader chooses by. -/
structure SameChoice (s u : State) : Prop where
  images : u.boot.images = s.boot.images
  preferred : u.boot.preferred = s.boot.preferred
  bootSelLow : u.boot.bootSelLow = s.boot.bootSelLow
  nextMode : u.boot.nextMode = s.boot.nextMode

theorem SameChoice.of_boot {u : State} (h : u.boot = s.boot) : SameChoice s u := ⟨by rw [h], by rw [h], by rw [h], by rw [h]⟩

theorem SameChoice.modBoot_causeBits {u : State} (h : SameChoice s u) : SameChoice s (modBoot u fun b => { b with causeBits := 0 }) :=
  ⟨h.images, h.preferred, h.bootSelLow, h.nextMode⟩

/-- With its last source a reset ends, and an image is chosen. -/
theorem sourceEnds_last (hin : s.sys.inReset = true) (ht : resetLeast ≤ t) (hleft : s.sys.sources &&& (127 - 2 ^ k) = 0) :
    ∃ u, sourceEnds s t k = chooseImage u ∧ u.sys.inReset = false ∧ SameChoice s u ∧ rd u CLK_STAT = rd s CLK_STAT := by
  unfold sourceEnds
  rw [if_neg (by simp [hin, ht])]
  extract_lets left _ s1 _ s2 s3 s4 _ s5 s6 s7
  rw [if_neg (by simp [left, hleft])]
  have h4 : Keeps (· ∈ [Part.regs, .recd]) s3 s4 ∧ regsBut s3 s4 lossCounters := record_booted s3 _ _ _
  have h6 : Keeps (· ∈ [Part.regs, .recd, .eth]) s4 s6 ∧ regsBut s4 s6 lossCounters := by
    unfold s6
    split
    · exact ⟨Keeps.put_eth (by decide) (record_keeps s4 _ _ _ (allows_of_subset (by decide)) (.refl _ _)),
        regsBut_trans (regsBut_record s4 _ _ _) (regsBut_of_regs rfl _)⟩
    · exact ⟨.refl _ _, regsBut_refl _ _⟩
  have hsys3 : s3.sys.inReset = false := rfl
  have hboot3 : s3.boot = s.boot := rfl
  have hregs3 : s3.regs = s.regs := rfl
  have h7 : Keeps (· ∈ [Part.regs, .mon, .hif, .recd]) s6 s7 :=
    markRecords_keeps _ (fun _ hp => hp) (monRestart_keeps s6 (allows_of_subset (by decide)) (.refl _ _))
  have hmark : rd s7 CLK_STAT = rd s6 CLK_STAT := (regsBut_markRecords (monRestart s6) CLK_STAT (by decide)).trans (regsBut_monRestart s6 CLK_STAT (by decide))
  clear_value s7 s6 s4 s3
  have hsys7 : s7.sys = s3.sys := (h7.same .sys (by decide)).trans ((h6.1.same .sys (by decide)).trans (h4.1.same .sys (by decide)))
  have hboot7 : s7.boot = s.boot := ((h7.same .boot (by decide)).trans ((h6.1.same .boot (by decide)).trans (h4.1.same .boot (by decide)))).trans hboot3
  refine ⟨_, rfl, (congrArg SysState.inReset hsys7).trans hsys3, (SameChoice.of_boot hboot7).modBoot_causeBits, ?_⟩
  exact hmark.trans ((h6.2 _ (by decide)).trans ((h4.2 _ (by decide)).trans (rd_of_regs hregs3 _)))

theorem sourceEnds_left (hin : s.sys.inReset = true) (ht : resetLeast ≤ t) {left : Nat} (hleft : s.sys.sources &&& (127 - 2 ^ k) = left) (hne : left ≠ 0) :
    sourceEnds s t k = { s with sys := { s.sys with sources := left } } := by
  unfold sourceEnds
  rw [if_neg (by simp [hin, ht]), hleft]
  exact if_pos hne

theorem tryImage_tried (v : State) (i : Nat) : (tryImage v i).sys.inReset = v.sys.inReset ∧ (tryImage v i).sys.phase = .verifying ∧
    (tryImage v i).boot.running = i ∧ (tryImage v i).regs = v.regs := ⟨rfl, rfl, rfl, rfl⟩

theorem listed_sys (s : State) : (listed s).sys = s.sys :=
  (showImages_keeps (R := (· ∈ [Part.regs])) (modBoot s fun b => { b with second := false }) (fun _ hp => hp) (.refl _ _)).same .sys (by decide)

theorem regsBut_listed (s : State) : regsBut s (listed s) [SYS_IMG 0, SYS_IMG 1] := regsBut_before (regsBut_showImages _) (Machine.modBoot_regs _ _)

/-- A loader that finds a VALID preferred image verifies it. -/
theorem chooseImage_of_same {u : State} (hin : u.sys.inReset = false) (hsame : SameChoice s u) (hready : preferredReady s) (hlow : s.boot.bootSelLow = false) :
    loaderVerifies s (chooseImage u) ∧ rd (chooseImage u) CLK_STAT = rd u CLK_STAT := by
  have hvalid : imageState u u.boot.preferred = imValid := by
    rw [hsame.preferred, imageState_of_images hsame.images, hready.1]
  rw [chooseImage_verifies hvalid (hsame.bootSelLow.trans hlow) (fun h => hready.2 (hsame.nextMode.symm.trans h))]
  obtain ⟨hin', hphase, hrunning, hregs⟩ := tryImage_tried (listed u) u.boot.preferred
  refine ⟨⟨hin'.trans ?_, hphase, hrunning.trans hsame.preferred⟩, (rd_of_regs hregs _).trans (regsBut_listed u _ (by decide))⟩
  rw [listed_sys, hin]

/-- What the loader does where the last source ends. -/
theorem sourceEnds_verifies (hin : s.sys.inReset = true) (ht : resetLeast ≤ t) (hleft : s.sys.sources &&& (127 - 2 ^ k) = 0) (hready : preferredReady s)
    (hlow : s.boot.bootSelLow = false) : loaderVerifies s (sourceEnds s t k) ∧ rd (sourceEnds s t k) CLK_STAT = rd s CLK_STAT := by
  obtain ⟨u, heq, hin', hsame, hstat⟩ := sourceEnds_last hin ht hleft
  obtain ⟨hverify, hregs⟩ := chooseImage_of_same hin' hsame hready hlow
  rw [heq]
  exact ⟨hverify, hregs.trans hstat⟩

theorem sourceEnds_recovers (hin : s.sys.inReset = true) (ht : resetLeast ≤ t) (hleft : s.sys.sources &&& (127 - 2 ^ k) = 0) (hlow : s.boot.bootSelLow = true) :
    (sourceEnds s t k).sys.inReset = false ∧ (sourceEnds s t k).sys.phase = .recovery := by
  obtain ⟨u, heq, hin', hsame, -⟩ := sourceEnds_last hin ht hleft
  rw [heq, chooseImage_recovers (hsame.bootSelLow.trans hlow)]
  exact ⟨hin', rfl⟩

/-- The clocks' source of a reset ends when PLL_D is locked and the TCXO is present. -/
theorem clocksBack_verifies {v : State} {x : Nat} (hv : v = setB s ⟨CLK_STAT, x, x⟩ true) (hx : x < 32) (hok : clocksOk v = true) (hin : s.sys.inReset = true)
    (ht : resetLeast ≤ t) (hsource : s.sys.sources = 16) (hready : preferredReady s) (hlow : s.boot.bootSelLow = false) :
    loaderVerifies s (clocksBack v t) ∧ flag (clocksBack v t) ⟨CLK_STAT, x, x⟩ = true := by
  have hsys : v.sys = s.sys := by rw [hv]; rfl
  have hboot : v.boot = s.boot := by rw [hv]; rfl
  have hready' : preferredReady v := by
    refine ⟨?_, by rw [hboot]; exact hready.2⟩
    rw [hboot, imageState_of_images (congrArg BootState.images hboot)]
    exact hready.1
  rw [clocksBack, if_pos hok]
  obtain ⟨⟨hend, hphase, hrunning⟩, hstat⟩ := sourceEnds_verifies (s := v) (t := t) (k := 4) (by rw [hsys]; exact hin) ht (by rw [hsys, hsource]; rfl) hready'
    (by rw [hboot]; exact hlow)
  refine ⟨⟨hend, hphase, hrunning.trans (by rw [hboot])⟩, ?_⟩
  rw [flag_congr (f := ⟨CLK_STAT, x, x⟩) hstat, hv, flag_setB _ _ _ ⟨le_refl _, hx⟩]

end Ends

/-! ### The rows of the ends -/

section Rows

variable {s : State} {t₀ : Nat}

theorem tcxoPresent_verifies (hstep : inThisStep s t₀ = true) (ht : resetLeast ≤ t₀) (hin : s.sys.inReset = true) (hready : preferredReady s)
    (hlow : s.boot.bootSelLow = false) (hsource : s.sys.sources = 16) (hlock : flag s CLK_STAT_D_LOCK = true) :
    answers (.tcxoPresent t₀) s fun t => loaderVerifies s t ∧ flag t CLK_STAT_TCXO_OK = true := by
  refine answers_of_answer (t := clocksBack (setB s CLK_STAT_TCXO_OK true) t₀) rfl hstep (clocksBack_verifies rfl (by decide) ?_ hin ht hsource hready hlow)
  rw [clocksOk, flag_setB _ _ _ (by decide), flag_setB_apart (by decide), hlock]
  rfl

theorem pllLock_data (hstep : inThisStep s t₀ = true) (ht : resetLeast ≤ t₀) (hin : s.sys.inReset = true) (hready : preferredReady s)
    (hlow : s.boot.bootSelLow = false) (hsource : s.sys.sources = 16) (hpresent : flag s CLK_STAT_TCXO_OK = true) :
    answers (.pllLock 0 t₀) s fun t => loaderVerifies s t ∧ flag t CLK_STAT_D_LOCK = true := by
  refine answers_of_answer (ok := decide (0 < 3) && inThisStep s t₀) (t := clocksBack (setB s CLK_STAT_D_LOCK true) t₀) rfl (by simp [hstep])
    (clocksBack_verifies rfl (by decide) ?_ hin ht hsource hready hlow)
  rw [clocksOk, flag_setB _ _ _ (by decide), flag_setB_apart (by decide), hpresent]
  rfl

/-- RESET_N returns high, or a software reset is over. -/
theorem resetEnded_ends (hsource : s.sys.sources = 2 ∨ s.sys.sources = 32) (t₀ : Nat) (low : Bool) : ∃ v k, resetEnded s t₀ low = sourceEnds v t₀ k ∧
    v.sys.inReset = s.sys.inReset ∧ v.boot = { s.boot with bootSelLow := low } ∧ v.sys.sources &&& (127 - 2 ^ k) = 0 := by
  have hsys : (modBoot s fun b => { b with bootSelLow := low }).sys = s.sys := rfl
  unfold resetEnded
  extract_lets u
  obtain hpin | hsoft := hsource
  · have hbit : u.sys.sources.testBit 1 = true := by rw [hsys, hpin]; decide
    rw [if_pos hbit]
    refine ⟨_, 1, rfl, rfl, rfl, ?_⟩
    change (s.sys.sources &&& (127 - 32)) &&& (127 - 2 ^ 1) = 0
    rw [hpin]
    rfl
  · have hbit : u.sys.sources.testBit 1 = false := by rw [hsys, hsoft]; decide
    rw [hbit, if_neg (by decide)]
    refine ⟨_, 5, rfl, rfl, rfl, ?_⟩
    rw [hsys, hsoft]
    rfl

theorem resetEnded_verifies (hstep : inThisStep s t₀ = true) (ht : resetLeast ≤ t₀) (hin : s.sys.inReset = true) (hready : preferredReady s)
    (hsource : s.sys.sources = 2 ∨ s.sys.sources = 32) : answers (.resetEnded t₀ false) s fun t => loaderVerifies s t := by
  obtain ⟨v, k, heq, hin', hboot, hleft⟩ := resetEnded_ends hsource t₀ false
  have hsame : v.boot.images = s.boot.images ∧ v.boot.preferred = s.boot.preferred ∧ v.boot.nextMode = s.boot.nextMode ∧ v.boot.bootSelLow = false := by
    rw [hboot]
    exact ⟨rfl, rfl, rfl, rfl⟩
  obtain ⟨himages, hpref, hmode, hlow⟩ := hsame
  have hready' : preferredReady v := by
    refine ⟨?_, by rw [hmode]; exact hready.2⟩
    rw [hpref, imageState_of_images himages]
    exact hready.1
  obtain ⟨⟨hend, hphase, hrunning⟩, -⟩ := sourceEnds_verifies (hin'.trans hin) ht hleft hready' hlow
  exact answers_of_answer (t := resetEnded s t₀ false) rfl hstep (heq ▸ ⟨hend, hphase, hrunning.trans hpref⟩)

theorem resetEnded_recovers (hstep : inThisStep s t₀ = true) (ht : resetLeast ≤ t₀) (hin : s.sys.inReset = true)
    (hsource : s.sys.sources = 2 ∨ s.sys.sources = 32) : answers (.resetEnded t₀ true) s fun t => t.sys.inReset = false ∧ t.sys.phase = .recovery := by
  obtain ⟨v, k, heq, hin', hboot, hleft⟩ := resetEnded_ends hsource t₀ true
  have hlow : v.boot.bootSelLow = true := by rw [hboot]
  exact answers_of_answer (t := resetEnded s t₀ true) rfl hstep (heq ▸ sourceEnds_recovers (hin'.trans hin) ht hleft hlow)

theorem brownOutRelease_goesOn (hstep : inThisStep s t₀ = true) (ht : resetLeast ≤ t₀) (hin : s.sys.inReset = true) (hsource : s.sys.sources = 12) :
    answers (.brownOutRelease t₀) s fun t => t.sys = { s.sys with sources := 8 } ∧ t.regs = s.regs ∧ partsBut s t [.sys] := by
  have hleft : sourceEnds s t₀ 2 = { s with sys := { s.sys with sources := 8 } } := sourceEnds_left hin ht (by rw [hsource]; rfl) (by decide)
  refine answers_of_answer (t := sourceEnds s t₀ 2) rfl hstep ?_
  rw [hleft]
  exact ⟨rfl, rfl, partsBut_of_keeps (Keeps.put_sys (by decide) (.refl _ _))⟩

end Rows

end Sys2Proof.DeviceResets
end

section
/-!
Power-up (R449, R454, R465), and O40.
-/
namespace Sys2Proof.DeviceResets

open Sys2Proof Sys2Proof.Machine Sys2Proof.Mailbox Sys2Proof.Recorder Sys2Proof.Frame Sys2Proof.Firmware Sys2Proof.Startup

/-! ### What start-up leaves of the recorder and of the hosts -/

section StartUp

variable {s t u : State}

/-- Start-up leaves the records that are written, the hosts, and the count of power cycles. -/
structure Quiet (s t : State) : Prop where
  log : t.recd.log = s.recd.log
  searching : t.recd.searching = s.recd.searching
  cycles : rd t REC_PCYC = rd s REC_PCYC
  irq : rd t MON_IEN = rd s MON_IEN
  hif : t.hif = s.hif
  now : t.now = s.now
  pending : t.pending = s.pending

theorem Quiet.refl (s : State) : Quiet s s := ⟨rfl, rfl, rfl, rfl, rfl, rfl, rfl⟩

theorem Quiet.trans (h : Quiet s t) (k : Quiet t u) : Quiet s u :=
  ⟨k.log.trans h.log, k.searching.trans h.searching, k.cycles.trans h.cycles, k.irq.trans h.irq, k.hif.trans h.hif, k.now.trans h.now, k.pending.trans h.pending⟩

theorem Quiet.put_sys (s : State) (x : SysState) : Quiet s { s with sys := x } := ⟨rfl, rfl, rfl, rfl, rfl, rfl, rfl⟩

theorem Quiet.modBoot (s : State) (f : BootState → BootState) : Quiet s (modBoot s f) := ⟨rfl, rfl, rfl, rfl, rfl, rfl, rfl⟩

theorem sameButQueue_searching {r r' : RecState} (h : SameButQueue r r') : r'.searching = r.searching := by
  obtain ⟨_, _, _, rfl⟩ := h
  rfl

theorem record_quiet (s : State) (code inst : Nat) (val : List Byte) : Quiet s (record s code inst val) := by
  have hkeeps := keeps_record s code inst val
  have hregs := regsBut_record s code inst val
  have hrecd := sameButQueue_record s code inst val
  exact ⟨sameButQueue_log hrecd, sameButQueue_searching hrecd, hregs _ (by decide), hregs _ (by decide), hkeeps.same .hif (by decide),
    hkeeps.same .now (by decide), hkeeps.pending⟩

/-- A step that writes only registers of other pages, the monitors and the boot record. -/
theorem quiet_of {l : List Nat} (hregs : regsBut s t l) (hcycles : REC_PCYC ∉ l) (hirq : MON_IEN ∉ l) (hkeeps : Keeps (· ∈ [Part.regs, .mon, .boot, .sys]) s t) :
    Quiet s t :=
  ⟨congrArg RecState.log (hkeeps.same .recd (by decide)), congrArg RecState.searching (hkeeps.same .recd (by decide)), hregs _ hcycles, hregs _ hirq,
    hkeeps.same .hif (by decide), hkeeps.same .now (by decide), hkeeps.pending⟩

theorem monRestart_quiet (s : State) : Quiet s (monRestart s) :=
  quiet_of (regsBut_monRestart s) (by decide) (by decide) (monRestart_keeps s (allows_of_subset (by decide)) (.refl _ _))

/-- A fault of a monitor that may not interrupt is shown, and notified to nobody. -/
theorem monFault_quiet (s : State) (hoff : flag s MON_IEN_EN = false) : Quiet s (monFault s MON_FLT_TSD) := by
  unfold monFault
  split
  · exact .refl _
  · have hset : Quiet s (setB s MON_FLT_TSD true) :=
      quiet_of (regsBut_setB (f := MON_FLT_TSD) (l := [MON_FLT]) (regsBut_refl _ _) (by decide) true) (by decide) (by decide)
        (setB_keeps s _ _ (allows_of_subset (by decide)) (.refl _ _))
    refine hset.trans ?_
    generalize setB s MON_FLT_TSD true = v at hset ⊢
    unfold raiseIrq
    extract_lets w
    split
    · exact .refl _
    · have hw : Quiet v w := quiet_of (regsBut_setF (f := MON_IRQ_FLT) (l := [MON_IRQ]) (regsBut_refl _ _) (by decide) 1) (by decide) (by decide)
        (setF_keeps v _ _ (allows_of_subset (by decide)) (.refl _ _))
      have hen : flag w MON_IEN_EN = false := (flag_congr (f := MON_IEN_EN) (hw.irq.trans hset.irq)).trans hoff
      rw [hen]
      exact hw

theorem markRecords_quiet (s : State) (hoff : flag s MON_IEN_EN = false) : Quiet s (markRecords s) := by
  unfold markRecords
  extract_lets u v
  have hu : Quiet s u := by
    unfold u
    split
    · exact record_quiet _ _ _ _
    · exact .refl _
  have hv : Quiet u v := by
    unfold v
    split
    next x _ =>
      have hrec := record_quiet u 0xD003 x.1 (leBytes 4 x.2.toNat)
      exact hrec.trans (monFault_quiet _ ((flag_congr (f := MON_IEN_EN) (hrec.irq.trans hu.irq)).trans hoff))
    · exact .refl _
  exact (hu.trans hv).trans ⟨rfl, rfl, rfl, rfl, rfl, rfl, rfl⟩

theorem listed_quiet (s : State) : Quiet s (listed s) :=
  quiet_of (regsBut_listed s) (by decide) (by decide) (showImages_keeps _ (allows_of_subset (by decide)) (Keeps.put_boot (by decide) (.refl _ _)))

/-- Recovery where the data path stands. -/
theorem enterRecovery_quiet (cause : Nat) (hrun : s.sys.running = false) : Quiet s (enterRecovery s cause) := by
  unfold enterRecovery
  extract_lets u _ v w
  have hu : u = s := if_neg (by rw [hrun]; decide)
  clear_value u
  subst hu
  have hv : Quiet u v := .put_sys u _
  clear_value v
  have hw : Quiet v w :=
    quiet_of (l := [SYS_BOOT, SYS_FW]) (regsBut_setF (f := SYS_BOOT_MODE) (regsBut_setF (f := SYS_FW_MAJOR) (regsBut_setF (f := SYS_BOOT_RCAUSE) (regsBut_refl _ _)
      (by decide) _) (by decide) _) (by decide) _) (by decide) (by decide)
      (setF_keeps _ _ _ (allows_of_subset (by decide)) (setF_keeps _ _ _ (allows_of_subset (by decide)) (setF_keeps _ _ _ (allows_of_subset (by decide)) (.refl _ _))))
  clear_value w
  exact ((hv.trans hw).trans (.modBoot w _)).trans (record_quiet _ _ _ _)

/-- The loader of a part that has just been powered verifies a VALID preferred image, or enters recovery. -/
theorem chooseImage_start (hvalid : imageState s s.boot.preferred = imValid) (hmode : s.boot.nextMode ≠ 3) (hrun : s.sys.running = false) :
    Quiet s (chooseImage s) ∧ (chooseImage s).sys.inReset = s.sys.inReset ∧ (chooseImage s).sys.phase = (if s.boot.bootSelLow then .recovery else .verifying) ∧
      (s.boot.bootSelLow = false → (chooseImage s).boot.running = s.boot.preferred) ∧ (chooseImage s).boot.images = s.boot.images ∧
      (chooseImage s).boot.preferred = s.boot.preferred := by
  have hboot : (listed s).boot = { s.boot with second := false } := rfl
  cases hlow : s.boot.bootSelLow with
  | false =>
    rw [chooseImage_verifies hvalid hlow hmode]
    obtain ⟨hin, hphase, hrunning, hregs⟩ := tryImage_tried (listed s) s.boot.preferred
    have htry : Quiet (listed s) (tryImage (listed s) s.boot.preferred) := ⟨rfl, rfl, rfl, rfl, rfl, rfl, rfl⟩
    refine ⟨(listed_quiet s).trans htry, by rw [hin, listed_sys], hphase, fun _ => hrunning, ?_, ?_⟩
    · change (listed s).boot.images = _
      rw [hboot]
    · change (listed s).boot.preferred = _
      rw [hboot]
  | true =>
    rw [chooseImage_valid hvalid, hlow, if_pos rfl]
    refine ⟨(listed_quiet s).trans (enterRecovery_quiet 1 (by rw [listed_sys, hrun])), ?_, ?_, fun h => absurd h (by decide), ?_, ?_⟩
    · rw [enterRecovery_sys, listed_sys]
    · rw [enterRecovery_sys]
      rfl
    · rw [enterRecovery_boot, hboot]
    · rw [enterRecovery_boot, hboot]

end StartUp

/-! ### Power-up -/

section PowerUp

variable {s : State}

theorem recPowerUp_spec (v : State) (old : RecState) (t : Nat) : (recPowerUp v old t).recd.searching = true ∧
    (old.writing = none → old.clearing = none → (recPowerUp v old t).recd.log = old.log) ∧
    getF (recPowerUp v old t) REC_PCYC_VAL = min 0xFFFFFF (old.savedPcyc + 1) ∧ regsBut v (recPowerUp v old t) [REC_OPSEC, REC_PCYC] := by
  unfold recPowerUp
  extract_lets f u p w
  have hu : u.regs = v.regs := by
    unfold u
    split <;> rfl
  have hw : regsBut u w [REC_OPSEC, REC_PCYC] :=
    regsBut_setF (f := REC_PCYC_VAL) (regsBut_wr (regsBut_refl _ _) (by decide) _) (by decide) _
  have hcount : getF w REC_PCYC_VAL = min 0xFFFFFF (old.savedPcyc + 1) := by
    rw [getF_setF _ _ _ (by decide)]
    exact Nat.mod_eq_of_lt (by change min 0xFFFFFF (old.savedPcyc + 1) < 2 ^ 24; omega)
  refine ⟨rfl, fun hwriting hclearing => ?_, hcount, regsBut_trans (regsBut_before hw hu) (regsBut_of_regs rfl _)⟩
  change logAfterLoss old f.1 = old.log
  unfold logAfterLoss
  rw [hwriting, hclearing]
  rfl

theorem powerUp_spec (hvalid : imageState s s.boot.preferred = imValid) (low : Bool) : (powerUp s low).sys.inReset = false ∧
      (powerUp s low).sys.phase = (if low then .recovery else .verifying) ∧ (low = false → (powerUp s low).boot.running = s.boot.preferred) ∧
      (powerUp s low).now = 0 ∧ (powerUp s low).hif = HifState.reset ∧ (powerUp s low).recd.searching = true ∧
      (s.recd.writing = none → s.recd.clearing = none → (powerUp s low).recd.log = s.recd.log) ∧ (powerUp s low).boot.images = s.boot.images ∧
      (powerUp s low).boot.preferred = s.boot.preferred ∧ getF (powerUp s low) REC_PCYC_VAL = min 0xFFFFFF (s.recd.savedPcyc + 1) ∧
      (powerUp s low).pending = s.pending := by
  unfold powerUp
  extract_lets s0 old b m en _ s1 _ s2 s3 _ s4
  have hcut : Keeps (· ∈ [Part.boot]) s s0 := cutSave_keeps s (fun _ hp => hp) (.refl _ _)
  have hold : old = s.recd := hcut.same .recd (by decide)
  obtain ⟨himages, hpref, -⟩ := cutSave_boot s
  obtain ⟨hsearch, hlog, hcycles, hregs⟩ := recPowerUp_spec s2 old 0
  have h3 : Keeps (· ∈ [Part.regs, .recd, .free]) s2 s3 := recPowerUp_keeps s2 old 0 (fun _ hp => hp) (.refl _ _)
  have hsys : s4.sys.inReset = false ∧ s4.sys.running = false := by
    have hsys4 : s4.sys = s2.sys := h3.same .sys (by decide)
    rw [hsys4]
    exact ⟨rfl, rfl⟩
  have hnow : s4.now = 0 := h3.same .now (by decide)
  have hhif : s4.hif = HifState.reset := h3.same .hif (by decide)
  have hpend : s4.pending = s.pending := h3.pending.trans hcut.pending
  have hboot : s4.boot.images = s.boot.images ∧ s4.boot.preferred = s.boot.preferred ∧ s4.boot.bootSelLow = low ∧ s4.boot.nextMode = 0 :=
    ⟨himages, hpref, rfl, rfl⟩
  have hien : rd s4 MON_IEN = regReset MON_IEN := hregs _ (by decide)
  have hrecd : s4.recd = (recPowerUp s2 old 0).recd := rfl
  have hcount : getF s4 REC_PCYC_VAL = min 0xFFFFFF (old.savedPcyc + 1) := hcycles
  rw [← hrecd] at hsearch hlog
  clear_value s4
  have hquiet : Quiet s4 (record (monRestart s4) 0x1101 noInst (leBytes 1 1)) := (monRestart_quiet s4).trans (record_quiet _ _ _ _)
  have hoff : flag (record (monRestart s4) 0x1101 noInst (leBytes 1 1)) MON_IEN_EN = false := by
    rw [flag, getF, hquiet.irq.trans hien]
    decide
  have hmark : Quiet s4 (markRecords (record (monRestart s4) 0x1101 noInst (leBytes 1 1))) := hquiet.trans (markRecords_quiet _ hoff)
  have hkeeps : Keeps (· ∈ [Part.regs, .mon, .hif, .recd]) s4 (markRecords (record (monRestart s4) 0x1101 noInst (leBytes 1 1))) :=
    markRecords_keeps _ (fun _ hp => hp) (record_keeps _ _ _ _ (allows_of_subset (by decide)) (monRestart_keeps s4 (allows_of_subset (by decide)) (.refl _ _)))
  generalize markRecords (record (monRestart s4) 0x1101 noInst (leBytes 1 1)) = u at hmark hkeeps ⊢
  have hbootu : u.boot = s4.boot := hkeeps.same .boot (by decide)
  have hsysu : u.sys = s4.sys := hkeeps.same .sys (by decide)
  obtain ⟨himages4, hpref4, hlow4, hmode4⟩ := hboot
  have hvalidu : imageState u u.boot.preferred = imValid := by
    rw [hbootu, hpref4, imageState_of_images ((congrArg BootState.images hbootu).trans himages4), hvalid]
  obtain ⟨hchoose, hin, hphase, hrunning, himagesu, hprefu⟩ := chooseImage_start hvalidu (by rw [hbootu, hmode4]; decide) (by rw [hsysu]; exact hsys.2)
  have hall := hmark.trans hchoose
  rw [hbootu, hlow4] at hphase hrunning
  rw [hbootu] at himagesu hprefu
  refine ⟨hin.trans (by rw [hsysu]; exact hsys.1), hphase, fun hl => (hrunning hl).trans hpref4, hall.now.trans hnow, hall.hif.trans hhif,
    hall.searching.trans hsearch, fun hwriting hclearing => ?_, himagesu.trans himages4, hprefu.trans hpref4, ?_, hall.pending.trans hpend⟩
  · rw [hall.log, hlog (by rw [hold]; exact hwriting) (by rw [hold]; exact hclearing), hold]
  · rw [getF_congr (f := REC_PCYC_VAL) hall.cycles, hcount, hold]

end PowerUp

/-- Settles O40: every cause begins one device reset, which takes the data path, the hosts and the boot record to their reset values; a
reset ends with its last source, after which, as after power-up, the loader chooses an image. -/
theorem deviceResetsBeginAndEnd : Obligations.DeviceResetsBeginAndEnd := by
  unfold Obligations.DeviceResetsBeginAndEnd
  refine ⟨fun s t₀ hstep => ?_, fun s t₀ hstep ht hin => ⟨fun hready hlow => ?_, ?_⟩, fun s low hvalid => ⟨powerUp s low, rfl, powerUp_spec hvalid low⟩⟩
  · obtain ⟨hlong, hshort⟩ := resetN_begun hstep
    exact ⟨hlong, hshort, fun _ hv => brownOut_begun hstep hv, fun _ hi => thermalShutdown_begun hstep hi, tcxoMissing_begun hstep, pllUnlock_data hstep,
      pllUnlock_processors hstep, pllUnlock_gnss hstep, pllLock_processors hstep, pllLock_gnss hstep⟩
  · refine ⟨fun hsource => ?_, fun hsource => ?_, tcxoPresent_verifies hstep ht hin hready hlow, pllLock_data hstep ht hin hready hlow⟩
    · exact answers_of_answer (t := sourceEnds s t₀ 2) rfl hstep (sourceEnds_verifies hin ht (by rw [hsource]; rfl) hready hlow).1
    · exact answers_of_answer (t := sourceEnds s t₀ 3) rfl hstep (sourceEnds_verifies hin ht (by rw [hsource]; rfl) hready hlow).1
  · exact ⟨resetEnded_verifies hstep ht hin, resetEnded_recovers hstep ht hin, brownOutRelease_goesOn hstep ht hin⟩

end Sys2Proof.DeviceResets
end

section
/-!
Tiles of the map (R115, R116, R143, R144): what a cell reads after a tile has been written, for O59.
-/
namespace Sys2Proof.MapTiles

open Sys2Proof Sys2Proof.Machine Sys2Proof.Mailbox Sys2Proof.Frame Sys2Proof.Recorder

/-! ### Entries of a table -/

section Tables

variable {α : Type} {m : Sparse α}

theorem find_sparsePut (m : Sparse α) (i : Nat) (v : α) : (sparsePut m i v).find? (fun e => decide (e.1 = i)) = some (i, v) := by
  induction m with
  | nil => simp [sparsePut]
  | cons e r ih =>
    obtain ⟨k, w⟩ := e
    rw [sparsePut]
    split_ifs with heq hlt
    · simp
    · simp
    · rw [List.find?_cons_of_neg (by simpa using Ne.symm heq), ih]

theorem find_sparsePut_ne (m : Sparse α) {i j : Nat} (v : α) (h : j ≠ i) :
    (sparsePut m i v).find? (fun e => decide (e.1 = j)) = m.find? (fun e => decide (e.1 = j)) := by
  induction m with
  | nil => simpa [sparsePut] using h.symm
  | cons e r ih =>
    obtain ⟨k, w⟩ := e
    rw [sparsePut]
    split_ifs with heq hlt
    · rw [List.find?_cons_of_neg (by simpa using h.symm), List.find?_cons_of_neg (by simpa [heq] using h.symm)]
    · rw [List.find?_cons_of_neg (by simpa using h.symm)]
    · rw [List.find?_cons, List.find?_cons, ih]

variable [DecidableEq α] {d : Nat → α}

/-- Writes to other places leave an entry. -/
theorem sparseGet_foldl_set_ne {l : List (Nat × α)} {j : Nat} (hj : ∀ p ∈ l, p.1 ≠ j) (m : Sparse α) :
    sparseGet d (l.foldl (fun m p => sparseSet d m p.1 p.2) m) j = sparseGet d m j := by
  induction l generalizing m with
  | nil => rfl
  | cons p l ih =>
    rw [List.foldl_cons, ih (fun q hq => hj q (List.mem_cons_of_mem _ hq)), sparseGet_set_ne _ _ _ _ _ (hj p List.mem_cons_self).symm]

/-- Of writes to different places each is read back. -/
theorem sparseGet_foldl_set {l : List (Nat × α)} (hl : (l.map (·.1)).Nodup) {p : Nat × α} (hp : p ∈ l) (m : Sparse α) :
    sparseGet d (l.foldl (fun m p => sparseSet d m p.1 p.2) m) p.1 = p.2 := by
  induction l generalizing m with
  | nil => exact absurd hp (List.not_mem_nil)
  | cons q l ih =>
    rw [List.map_cons, List.nodup_cons] at hl
    obtain ⟨hq, hl⟩ := hl
    rw [List.foldl_cons]
    rcases List.mem_cons.mp hp with rfl | hp
    · rw [sparseGet_foldl_set_ne (fun r hr heq => hq (List.mem_map.mpr ⟨r, hr, heq⟩)), sparseGet_set]
    · exact ih hl hp _

end Tables

/-! ### The directory (R115) -/

section Directory

variable {s t : State} {x y tx ty : Nat}

/-- Squares and places tell the tiles of the grid apart. -/
theorem squareOf_placeOf (hx : x < 512) (htx : tx < 512) (hsquare : squareOf x y = squareOf tx ty) (hplace : placeOf x y = placeOf tx ty) :
    x = tx ∧ y = ty := by
  unfold squareOf at hsquare
  unfold placeOf at hplace
  omega

/-- A store is its directory and its squares' fills. -/
structure SameStore (s t : State) : Prop where
  blocks : t.map.blocks = s.map.blocks
  fill : t.map.fill = s.map.fill

theorem SameStore.refl (s : State) : SameStore s s := ⟨rfl, rfl⟩

theorem SameStore.of_map (h : t.map = s.map) : SameStore s t := ⟨by rw [h], by rw [h]⟩

theorem SameStore.trans {u : State} (h : SameStore s t) (k : SameStore t u) : SameStore s u := ⟨k.blocks.trans h.blocks, k.fill.trans h.fill⟩

theorem SameStore.tileAt (h : SameStore s t) (tx ty : Nat) : tileAt t tx ty = tileAt s tx ty := by
  rw [Machine.tileAt, blockAt, h.blocks]
  rfl

theorem SameStore.tileFill (h : SameStore s t) (tx ty : Nat) : tileFill t tx ty = tileFill s tx ty := by
  rw [Machine.tileFill, blockAt, squareFill, h.blocks, h.fill]
  rfl

theorem SameStore.cellIn (h : SameStore s t) (tx ty o : Nat) : cellIn t tx ty o = cellIn s tx ty o := by
  rw [Machine.cellIn, h.tileAt, h.tileFill, ← Machine.cellIn]

theorem useTile_store (s : State) (n : Nat) (w : Bool) : SameStore s (useTile s n w) := by
  unfold useTile
  extract_lets was
  split
  · exact .refl s
  · exact ⟨rfl, rfl⟩

theorem blockAt_setBlock (s : State) (q : Nat) (b : Option DirBlock) : blockAt (setBlock s q b) q = b := sparseGet_set ..

theorem blockAt_setBlock_ne (s : State) {q p : Nat} (b : Option DirBlock) (h : p ≠ q) : blockAt (setBlock s q b) p = blockAt s p := sparseGet_set_ne _ _ _ _ _ h

/-- A tile that is allocated has its square's block. -/
theorem blockAt_of_tile {z : Tile} (hz : tileAt s tx ty = some z) : ∃ b, blockAt s (squareOf tx ty) = some b := by
  rw [tileAt, Option.bind_eq_some_iff] at hz
  obtain ⟨b, hb, -⟩ := hz
  exact ⟨b, hb⟩

theorem putTile_block {b : DirBlock} (hb : blockAt s (squareOf tx ty) = some b) (z : Tile) :
    putTile s tx ty (some z) = setBlock s (squareOf tx ty) (some { b with tiles := sparsePut b.tiles (placeOf tx ty) z }) := by
  rw [putTile, hb]

theorem tileAt_putTile {b : DirBlock} (hb : blockAt s (squareOf tx ty) = some b) (z : Tile) : tileAt (putTile s tx ty (some z)) tx ty = some z := by
  rw [tileAt, putTile_block hb, blockAt_setBlock, Option.bind_some, find_sparsePut]
  rfl

theorem tileAt_putTile_ne {b : DirBlock} (hb : blockAt s (squareOf tx ty) = some b) (z : Tile) (h : squareOf x y ≠ squareOf tx ty ∨ placeOf x y ≠ placeOf tx ty) :
    tileAt (putTile s tx ty (some z)) x y = tileAt s x y := by
  rw [putTile_block hb, tileAt, tileAt]
  by_cases hq : squareOf x y = squareOf tx ty
  · rw [hq, blockAt_setBlock, hb, Option.bind_some, Option.bind_some, find_sparsePut_ne _ _ (h.resolve_left (not_not_intro hq))]
  · rw [blockAt_setBlock_ne _ _ hq]

theorem tileFill_putTile {b : DirBlock} (hb : blockAt s (squareOf tx ty) = some b) (z : Tile) (x y : Nat) :
    tileFill (putTile s tx ty (some z)) x y = tileFill s x y := by
  rw [putTile_block hb, tileFill, tileFill]
  by_cases hq : squareOf x y = squareOf tx ty
  · rw [hq, blockAt_setBlock, hb]
  · rw [blockAt_setBlock_ne _ _ hq]
    rfl

/-- The cells of a tile that has been put. -/
theorem cellIn_putTile {b : DirBlock} (hb : blockAt s (squareOf tx ty) = some b) (z : Tile) (o : Nat) :
    cellIn (putTile s tx ty (some z)) tx ty o = sparseGet (fun _ => z.base) z.cells o := by
  rw [cellIn, tileAt_putTile hb]

theorem cellIn_putTile_ne {b : DirBlock} (hb : blockAt s (squareOf tx ty) = some b) (z : Tile) (h : squareOf x y ≠ squareOf tx ty ∨ placeOf x y ≠ placeOf tx ty)
    (o : Nat) : cellIn (putTile s tx ty (some z)) x y o = cellIn s x y o := by
  rw [cellIn, tileAt_putTile_ne hb z h, tileFill_putTile hb, ← cellIn]

end Directory

/-! ### Cells that are written (R116) -/

section Cells

variable {s : State} {tx ty : Nat} {z : Tile}

theorem noteAny_store (s : State) (c : Bool) : SameStore s (if c then setB s MAP_STAT_EXC_ANY true else s) := by
  split
  · exact .of_map rfl
  · exact .refl s

/-- The tile with the cells that differ. -/
def written (z : Tile) (l : List (Nat × Nat)) : Tile := { z with cells := l.foldl (fun m p => sparseSet (fun _ => z.base) m p.1 p.2) z.cells }

theorem putCells_store (hz : tileAt s tx ty = some z) {l : List (Nat × Nat)} (hdiff : (l.all fun p => decide (cellIn s tx ty p.1 = p.2)) = false) :
    SameStore (putTile s tx ty (some (written z l))) (putCells s tx ty l) := by
  have htouch : touchTile s tx ty = (s, true) := by rw [touchTile, hz]
  unfold putCells
  rw [hdiff, htouch]
  simp only [hz]
  exact (useTile_store _ _ _).trans (noteAny_store _ _)

/-- Cells are written to a tile that is allocated: each is read back, and all others stand. -/
theorem putCells_allocated (htx : tx < 512) (hz : tileAt s tx ty = some z) {l : List (Nat × Nat)} (hl : (l.map (·.1)).Nodup) :
    (∀ p ∈ l, cellIn (putCells s tx ty l) tx ty p.1 = p.2) ∧ (∀ o, (∀ p ∈ l, p.1 ≠ o) → cellIn (putCells s tx ty l) tx ty o = cellIn s tx ty o) ∧
    (∀ x < 512, ∀ y o, (x ≠ tx ∨ y ≠ ty) → cellIn (putCells s tx ty l) x y o = cellIn s x y o) ∧ (tileAt (putCells s tx ty l) tx ty).isSome = true := by
  obtain ⟨b, hb⟩ := blockAt_of_tile hz
  have hcell : ∀ o, cellIn s tx ty o = sparseGet (fun _ => z.base) z.cells o := fun o => by rw [cellIn, hz]
  by_cases hsame : (l.all fun p => decide (cellIn s tx ty p.1 = p.2)) = true
  · have heq : putCells s tx ty l = if (l.any fun p => cellExc p.2) then setB s MAP_STAT_EXC_ANY true else s := by
      unfold putCells
      exact if_pos hsame
    have hstore := noteAny_store s (l.any fun p => cellExc p.2)
    rw [heq]
    refine ⟨fun p hp => ?_, fun o _ => hstore.cellIn tx ty o, fun x _ y o _ => hstore.cellIn x y o, ?_⟩
    · rw [hstore.cellIn]
      exact of_decide_eq_true (List.all_eq_true.mp hsame p hp)
    · rw [hstore.tileAt, hz]
      rfl
  · have hstore := putCells_store (l := l) hz (by simpa using hsame)
    refine ⟨fun p hp => ?_, fun o ho => ?_, fun x hx y o hne => ?_, ?_⟩
    · rw [hstore.cellIn, cellIn_putTile hb]
      exact sparseGet_foldl_set hl hp _
    · rw [hstore.cellIn, cellIn_putTile hb, hcell]
      exact sparseGet_foldl_set_ne ho _
    · rw [hstore.cellIn, cellIn_putTile_ne hb]
      by_contra hboth
      simp only [not_or, not_not] at hboth
      obtain ⟨hxt, hyt⟩ := squareOf_placeOf hx htx hboth.1 hboth.2
      exact hne.elim (fun h => h hxt) fun h => h hyt
    · rw [hstore.tileAt, tileAt_putTile hb]
      rfl

end Cells

/-! ### TILE_WRITE (R144) -/

section Chunks

variable {s : State} {tx ty chunk mode : Nat} {z : Tile} {b : List Byte}

/-- The cells that a chunk names. -/
def chunkCells (s : State) (tx ty chunk mode : Nat) (b : List Byte) : List (Nat × Nat) :=
  (b.zipIdx 0).map fun p => (1024 * chunk + p.2, newCell mode (cellIn s tx ty (1024 * chunk + p.2)) p.1.toNat)

theorem chunkCells_places (s : State) (tx ty chunk mode : Nat) (b : List Byte) :
    (chunkCells s tx ty chunk mode b).map (·.1) = (List.range b.length).map (1024 * chunk + ·) := by
  rw [chunkCells, List.map_map]
  calc (b.zipIdx 0).map ((·.1) ∘ fun p => (1024 * chunk + p.2, newCell mode (cellIn s tx ty (1024 * chunk + p.2)) p.1.toNat))
      = ((b.zipIdx 0).map (·.2)).map (1024 * chunk + ·) := by rw [List.map_map]; rfl
    _ = (List.range b.length).map (1024 * chunk + ·) := by rw [List.zipIdx_map_snd, List.range_eq_range']

theorem chunkCells_nodup (s : State) (tx ty chunk mode : Nat) (b : List Byte) : ((chunkCells s tx ty chunk mode b).map (·.1)).Nodup := by
  rw [chunkCells_places]
  exact List.nodup_range.map fun i j h => by omega

theorem mem_chunkCells {k : Nat} (hk : k < b.length) :
    (1024 * chunk + k, newCell mode (cellIn s tx ty (1024 * chunk + k)) (b[k]).toNat) ∈ chunkCells s tx ty chunk mode b :=
  List.mem_map.mpr ⟨(b[k], k), by simp [List.mem_zipIdx_iff_getElem?, List.getElem?_eq_getElem hk], rfl⟩

theorem chunkCells_place {p : Nat × Nat} (hp : p ∈ chunkCells s tx ty chunk mode b) : 1024 * chunk ≤ p.1 ∧ p.1 < 1024 * chunk + b.length := by
  have hplace : p.1 ∈ (chunkCells s tx ty chunk mode b).map (·.1) := List.mem_map_of_mem hp
  rw [chunkCells_places, List.mem_map] at hplace
  obtain ⟨k, hk, heq⟩ := hplace
  have := List.mem_range.mp hk
  omega

end Chunks


/-! ### The rows of tiles (R143, R144) -/

section Rows

variable {s : State} {tx ty : Nat} {z : Tile}

/-- A write to an allocated tile touches the store and MAP_STAT alone. -/
theorem putCells_keeps_allocated (hz : tileAt s tx ty = some z) (l : List (Nat × Nat)) :
    Keeps (· ∈ [Machine.Part.regs, .map]) s (putCells s tx ty l) ∧ regsBut s (putCells s tx ty l) [MAP_STAT] := by
  have hnote : ∀ u : State, Keeps (· ∈ [Machine.Part.regs, .map]) s u → regsBut s u [MAP_STAT] →
      Keeps (· ∈ [Machine.Part.regs, .map]) s (if (l.any fun p => cellExc p.2) = true then setB u MAP_STAT_EXC_ANY true else u) ∧
      regsBut s (if (l.any fun p => cellExc p.2) = true then setB u MAP_STAT_EXC_ANY true else u) [MAP_STAT] := fun u hk hr => by
    split
    · exact ⟨setB_keeps u _ _ (allows_of_subset (by decide)) hk, regsBut_setB (f := MAP_STAT_EXC_ANY) hr (by decide) true⟩
    · exact ⟨hk, hr⟩
  have htouch : touchTile s tx ty = (s, true) := by rw [touchTile, hz]
  unfold putCells
  rw [htouch]
  simp only [hz]
  split
  · exact hnote s (.refl _ _) (regsBut_refl _ _)
  · have hkeeps := useTile_keeps (R := (· ∈ [Machine.Part.regs, .map])) (putTile s tx ty (some (written z l))) (tileIndex tx ty) true (allows_of_subset (by decide))
      (putTile_keeps s tx ty _ (allows_of_subset (by decide)) (.refl _ _))
    have hmap := useTile_keeps (R := (· ∈ [Machine.Part.map])) (putTile s tx ty (some (written z l))) (tileIndex tx ty) true (allows_of_subset (by decide))
      (putTile_keeps s tx ty _ (allows_of_subset (by decide)) (.refl _ _))
    exact hnote _ hkeeps (regsBut_of_regs (hmap.same .regs (by decide)) _)

/-- A byte of the payload. -/
theorem leAt_one (b : List Byte) (i : Nat) (hi : i < b.length) : leAt b i 1 = (b[i]).toNat := by
  rw [leAt, List.drop_eq_getElem_cons hi, List.take_succ_cons, List.take_zero]
  simp [leNat]

theorem showStore_aside (s : State) : regsBut s (showStore s) [MAP_STAT] ∧ SameStore s (showStore s) ∧ Keeps (· ∈ [Part.regs]) s (showStore s) :=
  ⟨regsBut_setF (f := MAP_STAT_DBLKS) (regsBut_setF (f := MAP_STAT_TILES) (regsBut_refl _ _) (by decide) _) (by decide) _, .of_map rfl,
    showStore_keeps s (fun _ hp => hp) (.refl _ _)⟩

/-- The chunk that the front frame of a slot writes in the mode REPLACE. -/
def chunkWritten (s : State) (h : Nat) : State := showStore (writeChunk (begun s h) (tileX s h) (tileY s h) (chunkOf s h) 0 ((req s h).drop 8))

variable {h : Nat}

theorem tileWriteCmd_chunk (howner : ownerOrService s h = true) (hok : tileWriteOk (req s h) = true) (hbusy : flag s MAP_PLY_STAT_BUSY = false)
    (hchunk : chunkOf s h ≤ 3) (hmode : leAt (req s h) 5 1 = 0) : tileWriteCmd (begun s h) h (req s h) = okBody (chunkWritten s h)
      ((req s h).take 8 ++ leBytes 1 (bit (tileAt (chunkWritten s h) (tileX s h) (tileY s h)).isSome 0) ++ [0#8, 0#8, 0#8] ++
        leBytes 4 (nextStep (chunkWritten s h)).toNat) := by
  have howner' : ownerOrService (begun s h) h = true := howner
  have hbusy' : flag (begun s h) MAP_PLY_STAT_BUSY = false := hbusy
  have hpart : ¬ leAt (req s h) 4 1 = 0xFF := by
    have : leAt (req s h) 4 1 ≤ 3 := hchunk
    omega
  simp only [tileWriteCmd, howner', hok, hbusy', Bool.not_true, Bool.false_eq_true, if_false, tileWrite, if_neg hpart, hmode]
  rfl

theorem tileWrite_answers (hs : starts s h 0x19) (howner : ownerOrService s h = true) (hok : tileWriteOk (req s h) = true) (hbusy : flag s MAP_PLY_STAT_BUSY = false)
    (hchunk : chunkOf s h ≤ 3) (hmode : leAt (req s h) 5 1 = 0) (hallocated : (tileAt s (tileX s h) (tileY s h)).isSome = true) :
    answers (.tileWrite h) s fun t =>
      (∀ k < 1024, cellIn t (tileX s h) (tileY s h) (1024 * chunkOf s h + k) = cleanCell (leAt (req s h) (8 + k) 1)) ∧
      (∀ o, (o < 1024 * chunkOf s h ∨ 1024 * chunkOf s h + 1024 ≤ o) → cellIn t (tileX s h) (tileY s h) o = cellIn s (tileX s h) (tileY s h) o) ∧
      (∀ x < 512, ∀ y < 512, ∀ o, (x ≠ tileX s h ∨ y ≠ tileY s h) → cellIn t x y o = cellIn s x y o) ∧
      answered s t h ((req s h).take 8 ++ [1#8, 0#8, 0#8, 0#8] ++ leBytes 4 (nextStep s).toNat) ∧
      regsBut s t [MAP_STAT] ∧ otherSlots s t h ∧ partsBut s t [.regs, .map, .sys, .hif] := by
  obtain ⟨z, hz⟩ := Option.isSome_iff_exists.mp hallocated
  have hform : tileX s h < 512 ∧ (req s h).length = 1032 := by
    have hpart : ¬ leAt (req s h) 4 1 = 0xFF := by
      have : leAt (req s h) 4 1 ≤ 3 := hchunk
      omega
    simp only [tileWriteOk, if_neg hpart, Bool.and_eq_true, decide_eq_true_eq] at hok
    exact ⟨Nat.lt_succ_of_le hok.1.1, hok.2.2⟩
  obtain ⟨hx, hlen⟩ := hform
  have hdrop : ((req s h).drop 8).length = 1024 := by rw [List.length_drop, hlen]
  have hzb : tileAt (begun s h) (tileX s h) (tileY s h) = some z := hz
  have hcells : ∀ x y o, cellIn (begun s h) x y o = cellIn s x y o := fun _ _ _ => rfl
  obtain ⟨hput, hrest, hothers, hsome⟩ := putCells_allocated hx hzb (chunkCells_nodup (begun s h) (tileX s h) (tileY s h) (chunkOf s h) 0 ((req s h).drop 8))
  obtain ⟨hkeeps, hregs⟩ := putCells_keeps_allocated hzb (chunkCells (begun s h) (tileX s h) (tileY s h) (chunkOf s h) 0 ((req s h).drop 8))
  obtain ⟨hshow, hstore, hkeepsShow⟩ := showStore_aside (writeChunk (begun s h) (tileX s h) (tileY s h) (chunkOf s h) 0 ((req s h).drop 8))
  have hstate : Keeps (· ∈ [Part.regs, .map]) (begun s h) (chunkWritten s h) :=
    showStore_keeps _ (allows_of_subset (by decide)) hkeeps
  have hrun := tileWriteCmd_chunk howner hok hbusy hchunk hmode
  have halloc : (tileAt (chunkWritten s h) (tileX s h) (tileY s h)).isSome = true := by rw [chunkWritten, hstore.tileAt]; exact hsome
  have hstep : nextStep (chunkWritten s h) = nextStep s := congrArg (fun n => BitVec.ofNat 32 (n + 1)) (hstate.same .now (by decide))
  rw [halloc, hstep] at hrun
  refine answers_ok (run := fun s p => plain (tileWriteCmd s h p)) (u := chunkWritten s h) hs rfl (congrArg plain hrun) hstate (by decide) (by decide)
    fun t hsame hans hslots hparts => ?_
  have htstore : SameStore (writeChunk (begun s h) (tileX s h) (tileY s h) (chunkOf s h) 0 ((req s h).drop 8)) t := hstore.trans (.of_map (hsame .map (by decide)))
  refine ⟨fun k hk => ?_, fun o ho => ?_, fun x hx y _ o hne => ?_, ?_, ?_, hslots, hparts⟩
  · rw [htstore.cellIn]
    have hmem := mem_chunkCells (s := begun s h) (tx := tileX s h) (ty := tileY s h) (chunk := chunkOf s h) (mode := 0) (b := (req s h).drop 8) (k := k) (by omega)
    refine (hput _ hmem).trans ?_
    rw [Machine.newCell, if_pos rfl, List.getElem_drop, leAt_one _ _ (by omega)]
  · rw [htstore.cellIn]
    refine (hrest o fun p hp => ?_).trans (hcells ..)
    have := chunkCells_place hp
    omega
  · rw [htstore.cellIn]
    exact (hothers x hx y o hne).trans (hcells ..)
  · have hbody : (req s h).take 8 ++ leBytes 1 (bit true 0) ++ [0#8, 0#8, 0#8] ++ leBytes 4 (nextStep s).toNat =
        (req s h).take 8 ++ [1#8, 0#8, 0#8, 0#8] ++ leBytes 4 (nextStep s).toNat := by
      rw [List.append_assoc ((req s h).take 8)]
      rfl
    exact hbody ▸ hans
  · exact regsBut_trans (regsBut_before (regsBut_trans hregs hshow) rfl) (regsBut_of_regs (hsame .regs (by decide)) _)

theorem tileRead_answers (hs : starts s h 0x18) (hok : tileReadOk (req s h) = true) : answers (.tileRead h) s fun t =>
    answered s t h (tileRead s (tileX s h) (tileY s h) (chunkOf s h)) ∧ t.regs = s.regs ∧ (∀ x y o, cellIn t x y o = cellIn s x y o) ∧
      otherSlots s t h ∧ partsBut s t [.map, .sys, .hif] := by
  have hkeeps : Keeps (· ∈ [Machine.Part.map]) (begun s h) (fetchTile (begun s h) (tileX s h) (tileY s h)) := fetchTile_keeps _ _ _ (fun _ hp => hp) (.refl _ _)
  have hrun : (if tileReadOk (req s h) then okBody (fetchTile (begun s h) (tileX s h) (tileY s h)) (tileRead (begun s h) (tileX s h) (tileY s h) (chunkOf s h))
      else refuse (begun s h) stInvalid) = okBody (fetchTile (begun s h) (tileX s h) (tileY s h)) (tileRead s (tileX s h) (tileY s h) (chunkOf s h)) := if_pos hok
  refine answers_ok hs rfl (congrArg plain hrun) hkeeps (by decide) (by decide) fun t hsame hans hslots hparts => ⟨hans, ?_, fun x y o => ?_, hslots, hparts⟩
  · exact (hsame .regs (by decide)).trans (hkeeps.same .regs (by decide))
  · have hfetch : SameStore (begun s h) (fetchTile (begun s h) (tileX s h) (tileY s h)) := by
      unfold fetchTile
      split
      · exact useTile_store _ _ _
      · exact .refl _
    exact (hfetch.trans (.of_map (hsame .map (by decide)))).cellIn x y o

end Rows

end Sys2Proof.MapTiles
end

section
/-!
Clears of the map and the start of a pass (R139 to R142, R146), for O59.
-/
namespace Sys2Proof.MapTiles

open Sys2Proof Sys2Proof.Machine Sys2Proof.Mailbox Sys2Proof.Frame Sys2Proof.Recorder Sys2Proof.HostWrites

/-! ### The whole clear (R146) -/

section Clear

variable {s : State}

theorem cellIn_empty (hblocks : s.map.blocks = []) (hfill : s.map.fill = []) (tx ty o : Nat) : cellIn s tx ty o = 0 := by
  have hblock : blockAt s (squareOf tx ty) = none := by rw [blockAt, hblocks]; rfl
  rw [cellIn, tileAt, hblock]
  change tileFill s tx ty = 0
  rw [tileFill, hblock]
  change squareFill s (squareOf tx ty) = 0
  rw [squareFill, hfill]
  rfl

/-- A clear of everything leaves no tile and no fill. -/
theorem clearDone_all {j : MapJob} (hj : s.map.clear = some j) (hall : j.clr.testBit 3 = true) : (clearDone s).map.clear = none ∧
    flag (clearDone s) MAP_STAT_CLR_BUSY = false ∧ (clearDone s).map.blocks = [] ∧ (clearDone s).map.fill = [] := by
  have heq : clearDone s = setB { applyClear s j.clr with map := { (applyClear s j.clr).map with clear := none } } MAP_STAT_CLR_BUSY false := by
    rw [clearDone, hj]
  have hmap : (applyClear s j.clr).map = { s.map with fill := [], blocks := [], cache := [] } := by
    rw [applyClear, if_pos hall]
    rfl
  rw [heq]
  refine ⟨rfl, flag_setB _ _ _ (by decide), ?_, ?_⟩
  · change (applyClear s j.clr).map.blocks = []
    rw [hmap]
  · change (applyClear s j.clr).map.fill = []
    rw [hmap]

theorem mapClearDone_answers {j : MapJob} (hj : s.map.clear = some j) (hall : j.clr.testBit 3 = true) : answers .mapClearDone s fun t =>
    t.map.clear = none ∧ flag t MAP_STAT_CLR_BUSY = false ∧ (∀ x y o, cellIn t x y o = 0) ∧ t.tables = s.tables ∧
      (∀ h < 4, (slotOf t h).ring = (slotOf s h).ring) := by
  obtain ⟨hclear, hbusy, hblocks, hfill⟩ := clearDone_all hj hall
  obtain ⟨hregs, hslots⟩ := postDeferred_spec (clearDone s) (w := 0) (by decide)
  have hdone : Keeps (· ∈ [Part.regs, .map]) s (clearDone s) := clearDone_keeps s (fun _ hp => hp) (.refl _ _)
  have hpost : Keeps (· ∈ [Part.regs, .hif]) (clearDone s) (postDeferred (clearDone s) 0) := postDeferred_keeps _ _ (fun _ hp => hp) (.refl _ _)
  have hmap : (postDeferred (clearDone s) 0).map = (clearDone s).map := hpost.same .map (by decide)
  refine ⟨postDeferred (clearDone s) 0, ?_, ?_, (flag_of_regsBut hregs (by decide)).trans hbusy, fun x y o => ?_, ?_, fun h hh => ?_⟩
  · change Host.Outcome.next (if s.map.clear.isSome then postDeferred (clearDone s) 0 else s) = _
    rw [hj]
    rfl
  · rw [hmap, hclear]
  · exact cellIn_empty (by rw [hmap, hblocks]) (by rw [hmap, hfill]) x y o
  · exact (hpost.same .tables (by decide)).trans (hdone.same .tables (by decide))
  · rw [(hslots h hh).1, slotOf, hdone.same .hif (by decide), slotOf]

end Clear

/-! ### A clear is started (R146) -/

section Start

variable {s : State} {h : Nat} {m : Word}

/-- The row of a register all of whose bits give orders. -/
def orderRow (i : Nat) (wo : Word) : RegRow := ⟨i, 1, 1, 1, 1, 0#32, 0#32, 0#32, 0#32, 0#32, wo⟩

/-- What an order stores until it is dropped. -/
theorem merged_order (i : Nat) (wo old m : Word) : merged (orderRow i wo) old m m = (old &&& ~~~ wo) ||| m := by
  have hmask : wo ||| (m &&& 0#32) = wo := by rw [BitVec.and_zero, BitVec.or_zero]
  change (old &&& ~~~ (wo ||| (m &&& 0#32))) ||| m = _
  rw [hmask]

/-- The bits of MAP_CLR, one by one. -/
def ClrBit (m : Word) : Prop := m = 1#32 ∨ m = 2#32 ∨ m = 4#32 ∨ m = 8#32

theorem clr_maskOk (hm : ClrBit m) : MaskOk MAP_CLR (orderRow MAP_CLR 15#32) m := by
  obtain rfl | rfl | rfl | rfl := hm
  all_goals decide

theorem clr_writable (hm : ClrBit m) : m &&& (m &&& ((orderRow MAP_CLR 15#32).rw ||| (orderRow MAP_CLR 15#32).wo)) = m ∧ m &&& ~~~ 15#32 = 0#32 ∧ m.toNat % 16 = m.toNat ∧
    bitsOf m 3 0 = m.toNat := by
  obtain rfl | rfl | rfl | rfl := hm
  all_goals decide

/-- The word that a bit of MAP_CLR stores until it is dropped. -/
def clrWord (s : State) (m : Word) : Word := (rd s MAP_CLR &&& ~~~ 15#32) ||| m

theorem clrWord_bits (hm : ClrBit m) (s : State) : bitsOf (clrWord s m) 3 0 = m.toNat ∧ clrWord s m &&& ~~~ 15#32 = rd s MAP_CLR &&& ~~~ 15#32 := by
  obtain ⟨-, hlow, -, hbits⟩ := clr_writable hm
  refine ⟨?_, ?_⟩
  · rw [← hbits]
    refine Nat.eq_of_testBit_eq fun j => ?_
    have hkeep : ∀ j < 4, (~~~ 15#32).getLsbD j = false := by decide
    rw [testBit_bitsOf, testBit_bitsOf]
    by_cases hj : j < 4
    · rw [clrWord, BitVec.getLsbD_or, BitVec.getLsbD_and, Nat.zero_add, hkeep j hj, Bool.and_false, Bool.false_or]
    · have hout : ¬ j < 3 - 0 + 1 := by omega
      rw [decide_eq_false hout, Bool.false_and, Bool.false_and]
  · rw [clrWord, BitVec.and_or_distrib_right, hlow, BitVec.and_assoc, BitVec.and_self, BitVec.or_zero]

/-- What is left where the bit has been dropped. -/
def clearBegun (s : State) (h : Nat) (m : Word) : State := scrub (startClear (wr (ahead s) MAP_CLR (clrWord s m)) h m.toNat) MAP_CLR

theorem hostItems_clr (hm : ClrBit m) (hs : serves s h) (how : ownerOrService s h = true) (hoff : flag s MAP_CTRL_EN = false)
    (hidle : flag s MAP_STAT_CLR_BUSY = false) (hstart : startsNow s h [item MAP_CLR m m]) :
    hostItems s h [item MAP_CLR m m] = (settled s h (clearBegun s h m), true) := by
  have hmay : mayWrite (ahead s) h MAP_CLR m (merged (orderRow MAP_CLR 15#32) (rd s MAP_CLR) m m) = true := by
    change (timFree MAP_CLR || ownerOrService s h) = true
    rw [how, Bool.or_true]
  have hrule : stateRule (ahead s) h MAP_CLR m (rd s MAP_CLR) (merged (orderRow MAP_CLR 15#32) (rd s MAP_CLR) m m) = .ok := by
    change inState (!flag s MAP_CTRL_EN && !flag s MAP_STAT_CLR_BUSY) .ok = .ok
    rw [hoff, hidle]
    rfl
  rw [hostItems_item (clr_maskOk hm) (clr_writable hm).1 hs hstart hmay rfl hrule, merged_order]
  have heffect : writeEffect (ahead s) (ahead s) (wr (ahead s) MAP_CLR (clrWord s m)) h MAP_CLR (rd s MAP_CLR) (clrWord s m) =
      startClear (wr (ahead s) MAP_CLR (clrWord s m)) h (bitsOf (clrWord s m) 3 0) := rfl
  rw [(clrWord_bits hm s).1] at heffect
  rw [clearBegun, ← heffect]
  rfl

/-- The state in which a clear runs, and is recorded. -/
theorem startClear_started (u : State) (h : Nat) {v : Nat} (hv : v % 16 = v) (hv0 : v ≠ 0) :
    flag (startClear u h v) MAP_STAT_CLR_BUSY = true ∧ (startClear u h v).map = { u.map with clear := some { clr := v, slot := h } } ∧
    regsBut u (startClear u h v) (MAP_STAT :: lossCounters) ∧ Keeps (· ∈ [Part.regs, .recd, .map]) u (startClear u h v) := by
  refine ⟨?_, ?_, ?_, startClear_keeps u h v (fun _ hp => hp) (.refl _ _)⟩
  all_goals rw [startClear, hv, if_neg hv0]
  · exact flag_setB _ _ _ (by decide)
  · have hmap : (record u 0x3007 h (leBytes 1 v)).map = u.map := (keeps_record ..).same .map (by decide)
    exact congrArg (fun x : MapState => { x with clear := some { clr := v, slot := h } }) hmap
  · refine regsBut_setB (f := MAP_STAT_CLR_BUSY) ?_ List.mem_cons_self true
    exact regsBut_trans (regsBut_mono (regsBut_record _ _ _ _) (List.subset_cons_self ..)) (regsBut_of_regs rfl _)

theorem clear_started (hm : ClrBit m) : clearStarted s (settled s h (clearBegun s h m)) h m.toNat := by
  obtain ⟨-, -, hmod, -⟩ := clr_writable hm
  have hne : m.toNat ≠ 0 := by obtain rfl | rfl | rfl | rfl := hm <;> decide
  obtain ⟨hbusy, hmap, hregs, hkeeps⟩ := startClear_started (wr (ahead s) MAP_CLR (clrWord s m)) h hmod hne
  have hscrub : clearBegun s h m = wr (startClear (wr (ahead s) MAP_CLR (clrWord s m)) h m.toNat) MAP_CLR
      (rd (startClear (wr (ahead s) MAP_CLR (clrWord s m)) h m.toNat) MAP_CLR &&& ~~~ 15#32) := scrub_acting (clr_maskOk hm).1 (by decide) _
  have hstored : rd (startClear (wr (ahead s) MAP_CLR (clrWord s m)) h m.toNat) MAP_CLR = clrWord s m := by
    rw [hregs _ (by decide), rd_wr_self]
  rw [hstored, (clrWord_bits hm s).2] at hscrub
  rw [hscrub]
  refine ⟨?_, ?_, ?_, ?_, ?_⟩
  · rw [flag_settled, flag_wr_apart (by decide)]
    exact hbusy
  · exact hmap
  · rw [rd_settled, rd_wr_self]
  · refine regsBut_settled (regsBut_wr (regsBut_trans ?_ (regsBut_mono hregs (by decide))) (by decide) _)
    exact regsBut_before (regsBut_wr (regsBut_refl (ahead s) _) (by decide) _) rfl
  · refine wroteBut_settled (wr_keeps _ _ _ (allows_of_subset (by decide)) ?_) (by decide) (by decide)
    exact keeps_trans (wr_keeps _ _ _ (allows_of_subset (by decide)) (.refl _ _)) (Firmware.keeps_mono hkeeps (by decide))

/-- The row of a bit ends as its write does. -/
theorem answers_clr {i : Instr} (hm : ClrBit m) (hs : serves s h) (how : ownerOrService s h = true) (hoff : flag s MAP_CTRL_EN = false)
    (hidle : flag s MAP_STAT_CLR_BUSY = false) (hstart : startsNow s h [item MAP_CLR m m])
    (hexec : exec i s = rowOf h true (hostItems s h [item MAP_CLR m m]).1) : answers i s fun t => clearStarted s t h m.toNat := by
  rw [hostItems_clr hm hs how hoff hidle hstart] at hexec
  exact answers_of_answer (ok := decide (h < 4) && true) hexec (by simp [hs.1]) (clear_started hm)

end Start

/-! ### A pass is started (R140 to R142) -/

section Go

variable {s u : State} {h p : Nat}

/-- While a clear runs the write waits in the ring of its slot. -/
theorem rasterGo_waits (hs : serves s h) (hbusy : flag s MAP_STAT_CLR_BUSY = true) (hroom : reqUsed (slotOf s h) + frameSize 16 ≤ ringBytes) :
    answers (.rasterGo h) s fun t => slotOf t h = { slotOf s h with ring := (slotOf s h).ring ++ [rowFrame s (putFlag MAP_PLY_CTRL_GO true)] } ∧
      otherSlots s t h ∧ partsBut s t [.hif] := by
  obtain ⟨hh, hatt, hup⟩ := hs
  have htrigger : triggers (writeReq (writePayload (putFlag MAP_PLY_CTRL_GO true))) MAP_PLY_CTRL 1 = true := by decide +kernel
  have hwaits : clearWaits s (rowFrame s (putFlag MAP_PLY_CTRL_GO true)) = true := by
    change (flag s MAP_STAT_CLR_BUSY && (false || false || (true && triggers (writeReq (writePayload (putFlag MAP_PLY_CTRL_GO true))) MAP_PLY_CTRL 1))) = true
    rw [hbusy, htrigger]
    rfl
  have hstart : rowStarts s h (putFlag MAP_PLY_CTRL_GO true) = false := by
    rw [rowStarts, hwaits]
    simp
  have hitems : hostItems s h (putFlag MAP_PLY_CTRL_GO true) = (queueRow s h (putFlag MAP_PLY_CTRL_GO true), false) := by
    rw [hostItems, if_pos (by rw [hatt, hup]; rfl), if_neg (by rw [hstart]; decide)]
  have hqueue : queueRow s h (putFlag MAP_PLY_CTRL_GO true) =
      putFrame s h { len := 16, code := 0x09, flags := 0, ackseq := 0, htag := 0, bad := false } (writePayload (putFlag MAP_PLY_CTRL_GO true)) 0 := if_pos hroom
  refine answers_of_answer (ok := decide (h < 4) && true) (t := queueRow s h (putFlag MAP_PLY_CTRL_GO true)) ?_ (by simp [hh]) ?_
  · exact congrArg (fun x => answer (decide (h < 4) && true) x.1) hitems
  · rw [hqueue]
    refine ⟨(Transport.slotOf_putFrame s h _ _).trans rfl, fun g hg => Transport.slotOf_putFrame_ne s hg _ _, ?_⟩
    exact partsBut_of_keeps (putFrame_keeps _ _ _ _ _ (fun _ hp => hp) (.refl _ _))

/-- The word that the order stores until it is dropped. -/
def goWord (s : State) : Word := (rd s MAP_PLY_CTRL &&& ~~~ 1#32) ||| 1#32

theorem go_maskOk : MaskOk MAP_PLY_CTRL (orderRow MAP_PLY_CTRL 1#32) 1#32 := by decide

/-- The state in which the order has acted, and been dropped. -/
def passOrdered (s : State) : State := scrub (rasterGo (wr (ahead s) MAP_PLY_CTRL (goWord s))) MAP_PLY_CTRL

theorem hostItems_go (hs : serves s h) (how : ownerOrService s h = true) (hstart : startsNow s h [item MAP_PLY_CTRL 1#32 1#32]) :
    hostItems s h [item MAP_PLY_CTRL 1#32 1#32] = (settled s h (passOrdered s), true) := by
  have hmay : mayWrite (ahead s) h MAP_PLY_CTRL 1#32 (merged (orderRow MAP_PLY_CTRL 1#32) (rd s MAP_PLY_CTRL) 1#32 1#32) = true := by
    change (timFree MAP_PLY_CTRL || ownerOrService s h) = true
    rw [how, Bool.or_true]
  have hbit : (goWord s).getLsbD 0 = true := by
    rw [goWord, BitVec.getLsbD_or]
    exact Bool.or_true _
  rw [hostItems_item go_maskOk (by decide) hs hstart hmay rfl rfl, merged_order]
  have heffect : writeEffect (ahead s) (ahead s) (wr (ahead s) MAP_PLY_CTRL (goWord s)) h MAP_PLY_CTRL (rd s MAP_PLY_CTRL) (goWord s) =
      rasterGo (wr (ahead s) MAP_PLY_CTRL (goWord s)) := by
    change (if MAP_PLY_CTRL = MAP_PLY_CTRL ∧ (goWord s).getLsbD 0 = true then rasterGo (wr (ahead s) MAP_PLY_CTRL (goWord s)) else _) = _
    exact if_pos ⟨rfl, hbit⟩
  rw [passOrdered, ← heffect]
  rfl

/-- The row ends as its write does. -/
theorem answers_go {P : State → Prop} (hs : serves s h) (how : ownerOrService s h = true) (hstart : startsNow s h (putFlag MAP_PLY_CTRL_GO true))
    (hP : P (settled s h (passOrdered s))) : answers (.rasterGo h) s P :=
  answers_of_answer (ok := decide (h < 4) && true) (t := settled s h (passOrdered s))
    (congrArg (fun x : State × Bool => answer (decide (h < 4) && true) x.1) (hostItems_go hs how hstart)) (by simp [hs.1]) hP

/-- A pass is started where every header is in order. -/
theorem rasterGo_passes (hidle : flag u MAP_PLY_STAT_BUSY = false) (hok : headersOk u = true) : flag (rasterGo u) MAP_PLY_STAT_BUSY = true ∧
    flag (rasterGo u) MAP_PLY_STAT_ERR = false ∧ flag (rasterGo u) MAP_PLY_STAT_PART = false ∧ (rasterGo u).map.pass.isSome = true ∧
    SameStore u (rasterGo u) ∧ regsBut u (rasterGo u) [MAP_PLY_STAT] := by
  have hnone : (List.range 64).find? (fun p => polyBad (polyHead u p)) = none := by
    rw [List.find?_eq_none]
    intro p hp
    have := List.all_eq_true.mp hok p hp
    simpa using this
  have hshown : (rasterGo u).regs = (setB (setB (setB u MAP_PLY_STAT_ERR false) MAP_PLY_STAT_PART false) MAP_PLY_STAT_BUSY true).regs ∧
      (rasterGo u).map = { u.map with pass := some { clr := 0, slot := 0 } } := by
    rw [rasterGo, hidle, if_neg (by decide), hnone]
    exact ⟨rfl, rfl⟩
  obtain ⟨hregs, hmap⟩ := hshown
  refine ⟨?_, ?_, ?_, by rw [hmap]; rfl, ⟨by rw [hmap], by rw [hmap]⟩, ?_⟩
  · rw [flag_of_regs hregs, flag_setB _ _ _ (by decide)]
  · rw [flag_of_regs hregs, flag_setB_apart (by decide), flag_setB_apart (by decide), flag_setB _ _ _ (by decide)]
  · rw [flag_of_regs hregs, flag_setB_apart (by decide), flag_setB _ _ _ (by decide)]
  · exact regsBut_trans (regsBut_setB (f := MAP_PLY_STAT_BUSY) (regsBut_setB (f := MAP_PLY_STAT_PART) (regsBut_setB (f := MAP_PLY_STAT_ERR) (regsBut_refl _ _)
      (by decide) _) (by decide) _) (by decide) _) (regsBut_of_regs hregs _)

/-- The first header that breaks a rule is shown. -/
theorem rasterGo_bad (hidle : flag u MAP_PLY_STAT_BUSY = false) (hp : p < 64) (hbad : polyBad (polyHead u p) = true)
    (hfirst : ((List.range p).all fun q => !polyBad (polyHead u q)) = true) :
    rasterGo u = setF (setB u MAP_PLY_STAT_ERR true) MAP_PLY_STAT_ERR_POLY p := by
  have hfind : (List.range 64).find? (fun p => polyBad (polyHead u p)) = some p := by
    rw [List.find?_range_eq_some]
    refine ⟨hbad, List.mem_range.mpr hp, fun j hj => ?_⟩
    exact List.all_eq_true.mp hfirst j (List.mem_range.mpr hj)
  rw [rasterGo, hidle, if_neg (by decide), hfind]

/-- An order that has been dropped leaves the registers beside its own. -/
theorem passOrdered_drops (s : State) : ∃ w, passOrdered s = wr (rasterGo (wr (ahead s) MAP_PLY_CTRL (goWord s))) MAP_PLY_CTRL w :=
  ⟨_, scrub_acting go_maskOk.1 (by decide) _⟩

theorem orderStored_keeps (s : State) : Keeps (· ∈ [Machine.Part.regs]) (ahead s) (wr (ahead s) MAP_PLY_CTRL (goWord s)) ∧
    regsBut s (wr (ahead s) MAP_PLY_CTRL (goWord s)) [MAP_PLY_CTRL] :=
  ⟨wr_keeps _ _ _ (fun _ hp => hp) (.refl _ _), regsBut_before (regsBut_wr (regsBut_refl (ahead s) _) (by decide) _) rfl⟩

theorem pass_starts (hidle : flag s MAP_PLY_STAT_BUSY = false) (hok : headersOk s = true) :
    flag (settled s h (passOrdered s)) MAP_PLY_STAT_BUSY = true ∧ flag (settled s h (passOrdered s)) MAP_PLY_STAT_ERR = false ∧
      flag (settled s h (passOrdered s)) MAP_PLY_STAT_PART = false ∧ (settled s h (passOrdered s)).map.pass.isSome = true ∧
      (∀ x y o, cellIn (settled s h (passOrdered s)) x y o = cellIn s x y o) ∧
      regsBut s (settled s h (passOrdered s)) [MAP_PLY_STAT, MAP_PLY_CTRL] ∧ wroteBut s (settled s h (passOrdered s)) h [.regs, .map, .sys] := by
  obtain ⟨w, hdrop⟩ := passOrdered_drops s
  obtain ⟨hkeeps, hregs⟩ := orderStored_keeps s
  obtain ⟨hbusy, herr, hpart, hpass, hstore, hshow⟩ := rasterGo_passes (u := wr (ahead s) MAP_PLY_CTRL (goWord s)) ((flag_wr_apart (by decide) _).trans hidle) hok
  have hgo : Keeps (· ∈ [Part.regs, .map]) (wr (ahead s) MAP_PLY_CTRL (goWord s)) (rasterGo (wr (ahead s) MAP_PLY_CTRL (goWord s))) :=
    rasterGo_keeps _ (fun _ hp => hp) (.refl _ _)
  rw [hdrop]
  refine ⟨?_, ?_, ?_, hpass, fun x y o => hstore.cellIn x y o, regsBut_settled (regsBut_wr ?_ (by decide) _),
    wroteBut_settled (wr_keeps _ _ _ (allows_of_subset (by decide)) ?_) (by decide) (by decide)⟩
  · rw [flag_settled, flag_wr_apart (by decide), hbusy]
  · rw [flag_settled, flag_wr_apart (by decide), herr]
  · rw [flag_settled, flag_wr_apart (by decide), hpart]
  · exact regsBut_trans (regsBut_mono hregs (by decide)) (regsBut_mono hshow (by decide))
  · exact keeps_trans (Firmware.keeps_mono hkeeps (by decide)) (Firmware.keeps_mono hgo (by decide))

theorem pass_refused (hidle : flag s MAP_PLY_STAT_BUSY = false) (hp : p < 64) (hbad : polyBad (polyHead s p) = true)
    (hfirst : ((List.range p).all fun q => !polyBad (polyHead s q)) = true) :
    flag (settled s h (passOrdered s)) MAP_PLY_STAT_BUSY = false ∧ flag (settled s h (passOrdered s)) MAP_PLY_STAT_ERR = true ∧
      getF (settled s h (passOrdered s)) MAP_PLY_STAT_ERR_POLY = p ∧ regsBut s (settled s h (passOrdered s)) [MAP_PLY_STAT, MAP_PLY_CTRL] ∧
      wroteBut s (settled s h (passOrdered s)) h [.regs, .sys] := by
  obtain ⟨w, hdrop⟩ := passOrdered_drops s
  obtain ⟨hkeeps, hregs⟩ := orderStored_keeps s
  have hbusy : flag (wr (ahead s) MAP_PLY_CTRL (goWord s)) MAP_PLY_STAT_BUSY = false := (flag_wr_apart (by decide) _).trans hidle
  have heq := rasterGo_bad (u := wr (ahead s) MAP_PLY_CTRL (goWord s)) hbusy hp hbad hfirst
  rw [hdrop, heq]
  generalize wr (ahead s) MAP_PLY_CTRL (goWord s) = v at hkeeps hregs hbusy
  refine ⟨?_, ?_, ?_, regsBut_settled (regsBut_wr ?_ (by decide) _), wroteBut_settled (wr_keeps _ _ _ (allows_of_subset (by decide)) ?_) (by decide) (by decide)⟩
  · rw [flag_settled, flag_wr_apart (by decide), flag_setF_apart (by decide), flag_setB_apart (by decide), hbusy]
  · rw [flag_settled, flag_wr_apart (by decide), flag_setF_apart (by decide), flag_setB _ _ _ (by decide)]
  · rw [getF_settled, getF_wr_apart (by decide), getF_setF _ _ _ (by decide)]
    exact Nat.mod_eq_of_lt hp
  · exact regsBut_setF (f := MAP_PLY_STAT_ERR_POLY) (regsBut_setB (f := MAP_PLY_STAT_ERR) (regsBut_mono hregs (by decide)) (by decide) _) (by decide) _
  · exact setF_keeps _ _ _ (allows_of_subset (by decide)) (setB_keeps _ _ _ (allows_of_subset (by decide)) (Firmware.keeps_mono hkeeps (by decide)))

end Go

end Sys2Proof.MapTiles
end

section
/-!
The end of a pass over the polygons (R140 to R142), and O59.
-/
namespace Sys2Proof.MapTiles

open Sys2Proof Sys2Proof.Machine Sys2Proof.Mailbox Sys2Proof.Frame Sys2Proof.Recorder

/-! ### What a pass touches -/

section Painted

variable {s t u : State}

/-- The registers that a pass shows itself in. -/
def paintRegs : List Nat := MAP_STAT :: MAP_PLY_STAT :: MAP_CNT_LOST :: tally

/-- A pass has changed the store, its cache and the words that show them. -/
structure Painted (s t : State) : Prop where
  clear : t.map.clear = s.map.clear
  ch : t.map.ch = s.map.ch
  regs : regsBut s t paintRegs
  passes : getF t MAP_PLY_STAT_PASSES = getF s MAP_PLY_STAT_PASSES
  keeps : Keeps (· ∈ [Part.regs, .map, .recd, .free]) s t

theorem Painted.refl (s : State) : Painted s s := ⟨rfl, rfl, regsBut_refl _ _, rfl, .refl _ _⟩

theorem Painted.trans (h : Painted s t) (k : Painted t u) : Painted s u :=
  ⟨k.clear.trans h.clear, k.ch.trans h.ch, regsBut_trans h.regs k.regs, k.passes.trans h.passes, keeps_trans h.keeps k.keeps⟩

/-- A word beside the count of passes. -/
theorem setB_painted (s : State) {f : Field} (hf : f.reg ∈ paintRegs) (hp : Apart f MAP_PLY_STAT_PASSES) (b : Bool) : Painted s (setB s f b) :=
  ⟨rfl, rfl, regsBut_setB (regsBut_refl _ _) hf b, getF_setB_apart hp b, setB_keeps _ _ _ (allows_of_subset (by decide)) (.refl _ _)⟩

/-- The store, or its cache. -/
theorem painted_of_map (x : MapState) (hclear : x.clear = s.map.clear) (hch : x.ch = s.map.ch) : Painted s { s with map := x } :=
  ⟨hclear, hch, regsBut_of_regs rfl _, rfl, Keeps.put_map (by decide) (.refl _ _)⟩

theorem noteExc_painted (s : State) (v : Nat) : Painted s (noteExc s v) := by
  unfold noteExc
  split
  · exact setB_painted s (by decide) (by decide) true
  · exact .refl s

theorem setBlock_painted (s : State) (q : Nat) (b : Option DirBlock) : Painted s (setBlock s q b) := painted_of_map _ rfl rfl

theorem useTile_painted (s : State) (n : Nat) (w : Bool) : Painted s (useTile s n w) := by
  unfold useTile
  extract_lets was
  split
  · exact .refl s
  · exact painted_of_map _ rfl rfl

theorem putTile_painted (s : State) (tx ty : Nat) (z : Option Tile) : Painted s (putTile s tx ty z) := by
  unfold putTile
  split
  · exact .refl s
  · exact setBlock_painted ..

theorem record_painted (s : State) (code inst : Nat) (val : List Byte) : Painted s (record s code inst val) := by
  have hkeeps := keeps_record s code inst val
  have hmap : (record s code inst val).map = s.map := hkeeps.same .map (by decide)
  have hregs := regsBut_record s code inst val
  exact ⟨by rw [hmap], by rw [hmap], regsBut_mono hregs (by decide), getF_of_regsBut hregs (by decide), Firmware.keeps_mono hkeeps (by decide)⟩

theorem bump_painted (s : State) {f : Field} (hf : f.reg ∈ paintRegs) (hp : Apart f MAP_PLY_STAT_PASSES) (n : Nat) : Painted s (bump s f n) :=
  ⟨rfl, rfl, regsBut_bump (regsBut_refl _ _) hf n, getF_bump_apart hp n, bump_keeps _ _ _ (allows_of_subset (by decide)) (.refl _ _)⟩

theorem storeFull_painted (s : State) {f : Field} (hf : f.reg ∈ paintRegs) (hp : Apart f MAP_PLY_STAT_PASSES) (which : Nat) : Painted s (storeFull s f which) := by
  unfold storeFull
  extract_lets u
  have hu : Painted s u := by
    unfold u
    split
    · exact .refl s
    · exact (setB_painted s hf hp true).trans (record_painted ..)
  exact hu.trans (bump_painted u (by decide) (by decide) 1)

theorem takeBlock_painted (s : State) (q : Nat) : Painted s (takeBlock s q).1 := by
  unfold takeBlock
  split
  · exact .refl s
  · split
    · exact setBlock_painted ..
    · exact storeFull_painted s (by decide) (by decide) 1

theorem fresh_painted (s : State) : Painted s (fresh s).2 := ⟨rfl, rfl, regsBut_of_regs rfl _, rfl, fresh_keeps s (allows_of_subset (by decide)) (.refl _ _)⟩

theorem touchTile_painted (s : State) (tx ty : Nat) : Painted s (touchTile s tx ty).1 := by
  unfold touchTile
  split
  · exact .refl s
  · split
    · extract_lets fill b f
      have hb : Painted s b.1 := takeBlock_painted s _
      split
      · have hput := putTile_painted f.2 tx ty (some { base := fill, cells := [], phys := f.1 })
        exact (hb.trans (fresh_painted b.1)).trans hput
      · exact hb
    · exact storeFull_painted s (by decide) (by decide) 0

theorem putCells_painted (s : State) (tx ty : Nat) (l : List (Nat × Nat)) : Painted s (putCells s tx ty l) := by
  have hexc : ∀ (c : Bool) (v : State), Painted v (if c then setB v MAP_STAT_EXC_ANY true else v) := fun c v => by
    split
    · exact setB_painted v (by decide) (by decide) true
    · exact .refl v
  unfold putCells
  extract_lets exc x
  have hx : Painted s x.1 := touchTile_painted s tx ty
  split
  · exact hexc _ s
  · split
    · split
      · exact ((hx.trans (putTile_painted ..)).trans (useTile_painted ..)).trans (hexc _ _)
      · exact hx
    · exact hx

theorem putFill_painted (s : State) (tx ty v : Nat) : Painted s (putFill s tx ty v).1 := by
  unfold putFill
  split
  · exact noteExc_painted s v
  · extract_lets b
    have hb : Painted s b.1 := takeBlock_painted s _
    split
    · split
      · exact (hb.trans (setBlock_painted ..)).trans (noteExc_painted ..)
      · exact hb
    · exact hb

theorem passFails_painted (s : State) (tx ty : Nat) : Painted s (passFails s tx ty) := by
  unfold passFails
  extract_lets u q
  have hu : Painted s u := (noteExc_painted s 4).trans (setB_painted _ (by decide) (by decide) true)
  split
  · exact hu.trans (setBlock_painted ..)
  · exact hu.trans (painted_of_map _ rfl rfl)

theorem passOne_painted (s : State) (l : List (PolyHead × List (Int × Int))) (tx ty : Nat) : Painted s (passOne s l tx ty) := by
  unfold passOne
  split
  · extract_lets p x
    have hx : Painted s x := putCells_painted s tx ty p
    split
    · exact hx
    · exact hx.trans (passFails_painted ..)
  · extract_lets v x
    have hx : Painted s x.1 := putFill_painted s tx ty _
    split
    · exact hx
    · exact hx.trans (passFails_painted ..)

theorem tidySquare_painted (s : State) (q : Nat) : Painted s (tidySquare s q) := by
  unfold tidySquare
  split
  · exact .refl s
  · extract_lets v u
    split
    · exact (setBlock_painted s q none).trans (painted_of_map _ rfl rfl)
    · exact .refl s

theorem foldl_painted {α : Type} {f : State → α → State} (hf : ∀ u a, Painted u (f u a)) (l : List α) (s : State) : Painted s (l.foldl f s) :=
  List.foldlRecOn (motive := fun u : State => Painted s u) l f (.refl s) fun _ hu a _ => hu.trans (hf _ a)

theorem passSquare_painted (l : List (PolyHead × List (Int × Int))) (s : State) (q : Nat) : Painted s (passSquare l s q) := by
  unfold passSquare
  extract_lets tx ty v _ u
  split
  · exact (painted_of_map { s.map with fill := sparseSet (fun _ => 0) s.map.fill q v } rfl rfl).trans (noteExc_painted _ v)
  · exact (foldl_painted (fun v p => passOne_painted v l (tx + p % 8) (ty + p / 8)) (List.range 64) s).trans (tidySquare_painted u q)

end Painted

/-! ### The end of the pass -/

section Ends

variable {s : State}

/-- The store as the pass leaves it. -/
def painted (s : State) : State := (List.range 4096).foldl (passSquare (polys s)) s

theorem painted_painted (s : State) : Painted s (painted s) := by
  unfold painted
  exact foldl_painted (f := passSquare (polys s)) (fun u q => passSquare_painted (polys s) u q) _ s

/-- A pass that has painted the store is counted, and shows its end. -/
def counted (u : State) : State := bump (showStore (setB u MAP_PLY_STAT_BUSY false)) MAP_PLY_STAT_PASSES

/-- The end of the pass is recorded. -/
def passRecorded (u : State) : State :=
  record { u with map := { u.map with pass := none } } 0x3006 noInst (leBytes 4 (rd u MAP_PLY_STAT).toNat)

theorem rasterEnd_eq (hpass : s.map.pass.isSome = true) : rasterEnd s = passRecorded (counted (painted s)) := by
  obtain ⟨j, hj⟩ := Option.isSome_iff_exists.mp hpass
  unfold rasterEnd passRecorded counted painted
  simp only [hj]

theorem counted_shown {u : State} (hpaint : Painted s u) : flag (counted u) MAP_PLY_STAT_BUSY = false ∧
    getF (counted u) MAP_PLY_STAT_PASSES = min (getF s MAP_PLY_STAT_PASSES + 1) 65535 ∧ (counted u).map = u.map ∧
    regsBut s (counted u) paintRegs ∧ Keeps (· ∈ [Part.regs, .map, .recd, .free]) s (counted u) := by
  have hbusy := setB_keeps u MAP_PLY_STAT_BUSY false (allows_of_subset (by decide)) hpaint.keeps
  refine ⟨?_, ?_, rfl, ?_, bump_keeps _ _ _ (allows_of_subset (by decide)) (showStore_keeps _ (allows_of_subset (by decide)) hbusy)⟩
  · rw [counted, flag_bump_apart (by decide), showStore, flag_setF_apart (by decide), flag_setF_apart (by decide), flag_setB _ _ _ (by decide)]
  · rw [counted, getF_bump _ _ _ (by decide), showStore, getF_setF_apart (by decide), getF_setF_apart (by decide), getF_setB_apart (by decide), hpaint.passes]
    rfl
  · have hset : regsBut s (setB u MAP_PLY_STAT_BUSY false) paintRegs := regsBut_setB (f := MAP_PLY_STAT_BUSY) hpaint.regs (by decide) false
    have hshow := regsBut_trans hset (regsBut_mono (showStore_aside _).1 (by decide))
    exact regsBut_bump (f := MAP_PLY_STAT_PASSES) hshow (by decide) 1

/-- The record leaves what the pass shows. -/
theorem passRecorded_shown (u : State) : Painted { u with map := { u.map with pass := none } } (passRecorded u) ∧ (passRecorded u).map.pass = none ∧
    rd (passRecorded u) MAP_PLY_STAT = rd u MAP_PLY_STAT :=
  ⟨record_painted .., congrArg MapState.pass ((keeps_record ..).same .map (by decide)), (rd_record _ _ _ _ (by decide)).trans rfl⟩

/-- The state in which a pass has ended. -/
structure PassEnded (s t : State) : Prop where
  idle : flag t MAP_PLY_STAT_BUSY = false
  pass : t.map.pass = none
  passes : getF t MAP_PLY_STAT_PASSES = min (getF s MAP_PLY_STAT_PASSES + 1) 65535
  clear : t.map.clear = s.map.clear
  ch : t.map.ch = s.map.ch
  regs : regsBut s t paintRegs
  parts : partsBut s t [.regs, .map, .recd, .free]

theorem passEnded_of_recorded {u v : State} (hpaint : Painted s v) (hbusy : flag u MAP_PLY_STAT_BUSY = false)
    (hpasses : getF u MAP_PLY_STAT_PASSES = min (getF s MAP_PLY_STAT_PASSES + 1) 65535) (hmap : u.map = v.map) (hregs : regsBut s u paintRegs)
    (hkeeps : Keeps (· ∈ [Part.regs, .map, .recd, .free]) s u) : PassEnded s (passRecorded u) := by
  obtain ⟨hended, hnone, hshown⟩ := passRecorded_shown u
  have hput : Keeps (· ∈ [Part.regs, .map, .recd, .free]) s { u with map := { u.map with pass := none } } := Keeps.put_map (by decide) hkeeps
  exact ⟨(flag_congr (f := MAP_PLY_STAT_BUSY) hshown).trans hbusy, hnone, hended.passes.trans hpasses, hended.clear.trans ((congrArg MapState.clear hmap).trans hpaint.clear),
    hended.ch.trans ((congrArg MapState.ch hmap).trans hpaint.ch), regsBut_trans (regsBut_trans hregs (regsBut_of_regs rfl _)) hended.regs,
    partsBut_of_keeps (keeps_trans hput hended.keeps)⟩

theorem rasterEnd_ends (hpass : s.map.pass.isSome = true) : PassEnded s (rasterEnd s) := by
  obtain ⟨hbusy, hpasses, hmap, hregs, hkeeps⟩ := counted_shown (painted_painted s)
  rw [rasterEnd_eq hpass]
  exact passEnded_of_recorded (painted_painted s) hbusy hpasses hmap hregs hkeeps

end Ends

/-- Settles O59: a chunk is written cell by cell into its tile, a clear of everything empties the directory, an order of MAP_CLR or
MAP_PLY_CTRL acts once and is dropped, and a pass paints the store and the words that show it. -/
theorem tilesClearsAndPasses : Obligations.TilesClearsAndPasses := by
  unfold Obligations.TilesClearsAndPasses
  refine ⟨⟨fun s h hs hok => tileRead_answers hs hok, fun s h hs howner hok hbusy hchunk hmode halloc => tileWrite_answers hs howner hok hbusy hchunk hmode halloc,
    fun s j hj hall => mapClearDone_answers hj hall⟩, fun s h hs how hoff hidle => ?_, fun s h hs how => ⟨fun hbusy hroom => rasterGo_waits hs hbusy hroom,
    fun _ hidle => ⟨fun hok hstart => ?_, fun p hp hbad hfirst hstart => ?_⟩⟩, fun s hpass => ?_⟩
  · refine ⟨fun hstart => ?_, fun hstart => ?_, fun hstart => ?_, fun hstart => ?_⟩
    · exact answers_clr (.inl rfl) hs how hoff hidle hstart rfl
    · exact answers_clr (.inr (.inl rfl)) hs how hoff hidle hstart rfl
    · exact answers_clr (.inr (.inr (.inl rfl))) hs how hoff hidle hstart rfl
    · exact answers_clr (.inr (.inr (.inr rfl))) hs how hoff hidle hstart rfl
  · exact answers_go hs how hstart (pass_starts hidle hok)
  · exact answers_go hs how hstart (pass_refused hidle hp hbad hfirst)
  · obtain ⟨hidle, hnone, hpasses, hclear, hch, hregs, hparts⟩ := rasterEnd_ends hpass
    exact ⟨rasterEnd s, rfl, hidle, hnone, hpasses, hclear, hch, hregs, hparts⟩

end Sys2Proof.MapTiles
end
